-- ==== Sys2Proof/Word.lean ====
section
/-!
DEFINITION. The words of the machine: what R7 and R16 call a register word, a byte and an
angle, and the plain names of bus masters (R34).
-/
namespace Sys2Proof

/-- A 32-bit register or memory word (R7, R11). -/
abbrev W32 := BitVec 32
/-- A 64-bit value: an angle, a velocity, a wide register pair (R16). -/
abbrev W64 := BitVec 64
/-- One byte of memory or of a network frame (R8). -/
abbrev Byte := BitVec 8
/-- A fabric master ID, 0 to 15 (R34). -/
abbrev Master := Fin 16

end Sys2Proof
end

