-- ==== Sys2Proof/Machine/EventData.lean ====
section
/-!
DEFINITION. What the world outside the device supplies with an event: frames that arrive, what a negotiation, a cable
test, a march or a boot found, an error on a CAN bus.
-/
namespace Sys2Proof.Machine

/-- What arrives on a port's medium: the bytes before the FCS; whether the FCS is good; a
non-integral octet count; a PHY or PCS code error; preemption fragments beside a reassembly error and a bad SMD;
false-carrier events and PCS errors met; the quarter of the tick in which its start-frame delimiter arrived; or that
this is the start of a preempted frame's first fragment (R116). -/
structure RxFrame where
  data : List Byte
  fcsGood : Bool
  dribble : Bool
  symErr : Bool
  frags : Nat
  asmErr : Bool
  smdErr : Bool
  falseCarrier : Nat
  pcsErr : Nat
  phase : Fin 4
  first : Bool
  deriving DecidableEq, Repr

/-- What a PHY reports with its link: the line's speed code, and the crossover that auto crossover has found (R135). -/
structure LinkFacts where
  speed : Fin 8
  mdix : Bool
  deriving DecidableEq, Repr

/-- How a transmission begins: whether the medium was busy before (R111), and the quarter of the tick (R43). -/
structure TxBegin where
  busy : Bool
  phase : Fin 4
  deriving DecidableEq, Repr

/-- A port and the quarter of the tick at which something happens on it (R43). -/
structure PortInstant where
  port : Fin 8
  phase : Fin 4
  deriving DecidableEq, Repr

/-- What negotiation found: the partner's abilities in the layout of ANADV; how they were detected: 0
by pages or control word, 1 parallel detection of 10BASE-Te, 2 of 100BASE-TX; the speed and duplex of a SGMII or
USXGMII word; the crossover in use. -/
structure AnResult where
  lp : W32
  parallel : Nat
  speed : Nat
  fdx : Bool
  mdix : Bool
  deriving DecidableEq, Repr

/-- A pair's result: its code and distance (R129). -/
structure PairResult where
  code : Nat
  dist : Nat
  deriving DecidableEq, Repr

/-- A CAN frame as R184 records it: the format (0 Classical, 1 FD, 2 XL), IDE, identifier (a base one in its
low 11 bits), RTR, BRS, ESI, word 2 of an object header, the XL acceptance field, the payload. -/
structure CanFrame where
  fmt : Nat
  ide : Bool
  id : Nat
  rtr : Bool
  brs : Bool
  esi : Bool
  word2 : W32
  xlaf : W32
  payload : List Byte
  deriving DecidableEq, Repr

/-- Where a frame on the bus stands for a receiver: it begins, or it completes so long after its start, in 2^-16 ns. -/
structure CanRxPoint where
  begins : Bool
  age : Nat
  deriving DecidableEq, Repr

/-- The sequences of 11 recessive bits that a channel has seen since the last count (R188). -/
structure CanRecessive where
  chan : Fin 4
  more : Fin 129
  deriving DecidableEq, Repr

/-- A channel, and whether the frame that it sends, if any, is in a data phase (R186, R203). -/
structure CanPhase where
  chan : Fin 4
  data : Bool
  deriving DecidableEq, Repr

/-- How an error on the bus counts under ISO 11898-1 (R186, PRESUMED, log entry 31): an error frame; a dominant bit
after a receiver's error flag; a bit error in an active error or overload flag; eight more dominant bits after one;
an error that changes no counter. -/
inductive CanErrKind where
  | frame | dominantAfterFlag | flagBit | dominantRun | exempt
  deriving DecidableEq, Repr

/-- An error on the bus: how it counts, its LASTERR code, and whether it was in a data phase. -/
structure CanError where
  kind : CanErrKind
  code : Nat
  data : Bool
  deriving DecidableEq, Repr

/-- What a run found in a bank: its faulty rows, and the spare rows that failed their own test. -/
structure BankResult where
  bank : Nat
  rows : List Nat
  badSpares : List Nat
  deriving DecidableEq, Repr

/-- What the boot ROM finds out in a boot (R490, R492): SEC's tests, the lockstep comparison, the march's results,
whether the host path comes up. -/
structure BootFacts where
  secOk : Bool
  lockstepOk : Bool
  march : List BankResult
  hostUp : Bool
  deriving DecidableEq, Repr

end Sys2Proof.Machine
end

