-- ==== Sys2Proof/Syntax.lean ====
section
/-!
DEFINITION. The commands of the block: one constructor for each row of spec/opcode_table.json, with the row's
operands. A row whose event is a write of a register has the master that writes and the word that it writes; where
the row is one bit of a register, the operand `v` holds the other bits. A row that the world outside the device, or
time, brings about has what it supplies. A row that only SUP may write, with one value, has no operand: another
master's write of that register, or another value, is REGISTER_WRITE. The rows without operands stand last.
-/
namespace Sys2Proof

open Machine

inductive Instr where
  /-- REGISTER_WRITE (R10): master `m`, address `a`, `n` bytes wide, value `v`. -/
  | registerWrite (m : Master) (a : W32) (n : Nat) (v : W32)
  /-- SPLIT_REGISTER_LATCH (R58): master `m`, address `a`, `n` bytes wide. -/
  | splitRegisterLatch (m : Master) (a : W32) (n : Nat)
  /-- DOMAIN_RATE_WRITE (R45): master `m`, domain `x`, the low word `v`. -/
  | domainRateWrite (m : Master) (x : Fin 2) (v : W32)
  /-- DOMAIN_ADJ_WRITE (R45): master `m`, domain `x`, the low word `v`. -/
  | domainAdjWrite (m : Master) (x : Fin 2) (v : W32)
  /-- DOMAIN_STEP_WRITE (R46): master `m`, domain `x`, the low word `v`. -/
  | domainStepWrite (m : Master) (x : Fin 2) (v : W32)
  /-- DOMAIN_ENABLE (R47): master `m`, domain `x`, the other bits `v` of the word written. -/
  | domainEnable (m : Master) (x : Fin 2) (v : W32)
  /-- DOMAIN_LOCK (R47): master `m`, domain `x`, the other bits `v` of the word written. -/
  | domainLock (m : Master) (x : Fin 2) (v : W32)
  /-- DOMAIN_SYNC (R47): master `m`, domain `x`, the other bits `v` of the word written. -/
  | domainSync (m : Master) (x : Fin 2) (v : W32)
  /-- DOMAIN_FAIL (R47): master `m`, domain `x`, the other bits `v` of the word written. -/
  | domainFail (m : Master) (x : Fin 2) (v : W32)
  /-- DOMAIN_DISABLE (R47): master `m`, domain `x`, the other bits `v` of the word written. -/
  | domainDisable (m : Master) (x : Fin 2) (v : W32)
  /-- SYNC_TIMEOUT (R47): domain `x`. -/
  | syncTimeout (x : Fin 2)
  /-- HOLDOVER_FAIL_LIMIT (R47): domain `x`. -/
  | holdoverFailLimit (x : Fin 2)
  /-- DOMAIN_SELECT_WRITE (R55): master `m`, value `v`. -/
  | domainSelectWrite (m : Master) (v : W32)
  /-- EGRESS_STAMP_POP (R61): master `m`, port `p`, value `v`. -/
  | egressStampPop (m : Master) (p : Fin 8) (v : W32)
  /-- STAMP_INPUT_EDGE (R64): GPIO `g`, the edge's direction, the quarter of the tick in which it falls, for how many
  ns the new level is stable. -/
  | stampInputEdge (g : Fin 128) (rising : Bool) (quarter : Fin 4) (stable : Nat)
  /-- STAMP_RING_POP (R67): master `m`, value `v`. -/
  | stampRingPop (m : Master) (v : W32)
  /-- TIMED_OUTPUT_ARM (R69): master `m`, channel `n`, the other bits `v` of the word written. -/
  | timedOutputArm (m : Master) (n : Fin 32) (v : W32)
  /-- TIMED_OUTPUT_CANCEL (R69): master `m`, channel `n`, the other bits `v` of the word written. -/
  | timedOutputCancel (m : Master) (n : Fin 32) (v : W32)
  /-- TIMED_OUTPUT_EDGE (R68): channel `n`. -/
  | timedOutputEdge (n : Fin 32)
  /-- SAMPLE_SUBMIT (R79): master `m`, shaft `n`, value `v`. -/
  | sampleSubmit (m : Master) (n : Fin 16) (v : W32)
  /-- SHAFT_FOLLOW (R81): master `m`, shaft `n`, the other bits `v` of the word written. -/
  | shaftFollow (m : Master) (n : Fin 16) (v : W32)
  /-- SHAFT_MASTER (R81): master `m`, shaft `n`, the other bits `v` of the word written. -/
  | shaftMaster (m : Master) (n : Fin 16) (v : W32)
  /-- SHAFT_IDLE (R81): master `m`, shaft `n`, the other bits `v` of the word written. -/
  | shaftIdle (m : Master) (n : Fin 16) (v : W32)
  /-- REFTO_EXPIRY (R81): shaft `n`. -/
  | reftoExpiry (n : Fin 16)
  /-- COASTLIM_EXPIRY (R81): shaft `n`. -/
  | coastlimExpiry (n : Fin 16)
  /-- MASTER_SAMPLE_GENERATION (R83): shaft `n`. -/
  | masterSampleGeneration (n : Fin 16)
  /-- SAMPLE_OUT_READ (R83): master `m`, shaft `n`. -/
  | sampleOutRead (m : Master) (n : Fin 16)
  /-- STAMP_TO_ANGLE_START (R86): master `m`, slot `k`, the other bits `v` of the word written. -/
  | stampToAngleStart (m : Master) (k : Fin 4) (v : W32)
  /-- STAMP_TO_ANGLE_DONE (R86): slot `k`. -/
  | stampToAngleDone (k : Fin 4)
  /-- ANGLE_EVENT_WRITE (R92): master `m`, event `n`, its register `r` (CFG, ACT, POS_LO, POS_HI, PERIOD), value `v`.
  -/
  | angleEventWrite (m : Master) (n : Fin 1024) (r : Fin 5) (v : W32)
  /-- ULP_ECHO_REQUEST (R98): the header's stream and sequence, the payload, the ingress stamp in 2^-16 ns if there is
  one. -/
  | ulpEchoRequest (stream seq : Fin 65536) (req : List Byte) (stamp : Option Nat)
  /-- PORT_MODE_WRITE (R105): master `m`, port `p`, value `v`. -/
  | portModeWrite (m : Master) (p : Fin 8) (v : W32)
  /-- AUTONEG_COMPLETE (R106): port `p`, what negotiation found. -/
  | autonegComplete (p : Fin 8) (r : AnResult)
  /-- LINK_UP (R130): port `p`, what its PHY reports. -/
  | linkUp (p : Fin 8) (link : LinkFacts)
  /-- LINK_DOWN (R130): port `p`. -/
  | linkDown (p : Fin 8)
  /-- JABBER (R113): port `p`, whether the PHY reports jabber or its end. -/
  | jabber (p : Fin 8) (active : Bool)
  /-- FRAME_RECEIVE (R107): port `p`, the frame. -/
  | frameReceive (p : Fin 8) (f : RxFrame)
  /-- FRAME_TRANSMIT_START (R151): port `p`, how the transmission begins. -/
  | frameTransmitStart (p : Fin 8) (start : TxBegin)
  /-- FRAME_TRANSMIT_END (R149): port `p`, whether its data came too late, the quarter of the tick at which a looped
  port has received it. -/
  | frameTransmitEnd (p : Fin 8) (underrun : Bool) (phase : Fin 4)
  /-- COLLISION (R111): port `p`, bit times since the frame's start. -/
  | collision (p : Fin 8) (bits : Nat)
  /-- BACKOFF_EXPIRY (R110): the port, and the quarter of the tick. -/
  | backoffExpiry (x : PortInstant)
  /-- PLCA_ACTIVE_CHANGE (R114): port `p`, ACTIVE, the ID whose opportunity runs, BEACONs counted. -/
  | plcaActiveChange (p : Fin 8) (active : Bool) (curid : Fin 256) (n : Nat)
  /-- PREEMPT_VERIFY_TIMER (R115): port `p`, whether a response arrived. -/
  | preemptVerifyTimer (p : Fin 8) (response : Bool)
  /-- LPI_ENTRY (R120): port `p`. -/
  | lpiEntry (p : Fin 8)
  /-- EARLY_WAKE (R121): port `p`. -/
  | earlyWake (p : Fin 8)
  /-- WAKE_COMPLETE (R121): port `p`. -/
  | wakeComplete (p : Fin 8)
  /-- RX_LPI_SIGNAL (R122): port `p`, into or out of LPI. -/
  | rxLpiSignal (p : Fin 8) (enter : Bool)
  /-- COUNTER_SNAPSHOT (R125): master `m`, port `p`, value `v`. -/
  | counterSnapshot (m : Master) (p : Fin 8) (v : W32)
  /-- COUNTER_CLEAR (R125): master `m`, port `p`, value `v`. -/
  | counterClear (m : Master) (p : Fin 8) (v : W32)
  /-- LDF_RULE_COMMIT (R128): master `m`, rule `k`, value `v`. -/
  | ldfRuleCommit (m : Master) (k : Fin 64) (v : W32)
  /-- CABLE_TEST_START (R129): master `m`, port `p`, the other bits `v` of the word written. -/
  | cableTestStart (m : Master) (p : Fin 8) (v : W32)
  /-- CABLE_TEST_DONE (R129): port `p`, the results of the four pairs. -/
  | cableTestDone (p : Fin 8) (rs : List PairResult)
  /-- HOST_PORT_PECK_GRANT (R143): SP8 or SP9. -/
  | hostPortPeckGrant (sp : Fin 2)
  /-- GATE_LIST_CHANGE (R153): master `m`, switch port `p`, the other bits `v` of the word written. -/
  | gateListChange (m : Master) (p : Fin 10) (v : W32)
  /-- GATE_LIST_CHANGE_TIME (R153): switch port `p`. -/
  | gateListChangeTime (p : Fin 10)
  /-- GATE_ENTRY_START (R152): switch port `p`. -/
  | gateEntryStart (p : Fin 10)
  /-- STREAM_GATE_ENTRY (R157): stream gate `i`. -/
  | streamGateEntry (i : Fin 64)
  /-- RECOVERY_RESET_TIMEOUT (R158): recovery function `i`. -/
  | recoveryResetTimeout (i : Fin 256)
  /-- SLOT_WINDOW_OPEN (R160): slot `k`. -/
  | slotWindowOpen (k : Fin 256)
  /-- QUEUE_FLUSH (R162): master `m`, the other bits `v` of the word written. -/
  | queueFlush (m : Master) (v : W32)
  /-- TABLE_READ (R164): master `m`, table `t`, index `i`. -/
  | tableRead (m : Master) (t : Fin 16) (i : Fin 65536)
  /-- TABLE_WRITE (R164): master `m`, table `t`, index `i`. -/
  | tableWrite (m : Master) (t : Fin 16) (i : Fin 65536)
  /-- TABLE_SEARCH (R164): master `m`, table `t`, index `i`. -/
  | tableSearch (m : Master) (t : Fin 16) (i : Fin 65536)
  /-- TABLE_CLEAR (R164): master `m`, table `t`, index `i`. -/
  | tableClear (m : Master) (t : Fin 16) (i : Fin 65536)
  /-- CAN_ENABLE (R174): master `m`, channel `n`, the other bits `v` of the word written. -/
  | canEnable (m : Master) (n : Fin 4) (v : W32)
  /-- CAN_DISABLE (R174): master `m`, channel `n`, the other bits `v` of the word written. -/
  | canDisable (m : Master) (n : Fin 4) (v : W32)
  /-- CAN_REQUEST (R179): master `m`, channel `n`, object `k`. -/
  | canRequest (m : Master) (n : Fin 4) (k : Fin 128)
  /-- CAN_CANCEL (R181): master `m`, channel `n`, object `k`. -/
  | canCancel (m : Master) (n : Fin 4) (k : Fin 128)
  /-- CAN_CLEARNEW (R176): master `m`, channel `n`, object `k`. -/
  | canClearnew (m : Master) (n : Fin 4) (k : Fin 128)
  /-- CAN_FRAME_COMMIT (R180): channel `n`. -/
  | canFrameCommit (n : Fin 4)
  /-- CAN_ARBITRATION_LOSS (R182): channel `n`. -/
  | canArbitrationLoss (n : Fin 4)
  /-- CAN_TX_COMPLETE (R181): channel `n`. -/
  | canTxComplete (n : Fin 4)
  /-- CAN_BUS_ERROR (R186): channel `n`, the error. -/
  | canBusError (n : Fin 4) (e : CanError)
  /-- CAN_XL_PAYLOAD_READ (R183): channel `n`, the 64-byte unit's number. -/
  | canXlPayloadRead (n : Fin 4) (unit : Fin 32)
  /-- CAN_RX_FRAME (R184): channel `n`, the frame, whether it begins or completes. -/
  | canRxFrame (n : Fin 4) (f : CanFrame) (x : CanRxPoint)
  /-- CAN_RING_POP (R185): master `m`, channel `n`, value `v`. -/
  | canRingPop (m : Master) (n : Fin 4) (v : W32)
  /-- CAN_RECOVER (R188): master `m`, channel `n`, the other bits `v` of the word written. -/
  | canRecover (m : Master) (n : Fin 4) (v : W32)
  /-- CAN_BUSOFF_RECOVERED (R188): the channel and the sequences that have come since the last count. -/
  | canBusoffRecovered (x : CanRecessive)
  /-- CAN_REFERENCE_TRIGGER (R190): channel `n`, whether the bus was not idle at a gateway's instant. -/
  | canReferenceTrigger (n : Fin 4) (late : Bool)
  /-- CAN_EXCLUSIVE_TRIGGER (R191): channel `n`, entry `j`, whether the bus is idle at its time. -/
  | canExclusiveTrigger (n : Fin 4) (j : Fin 256) (idle : Bool)
  /-- CAN_ARBITRATING_TRIGGER (R192): channel `n`, entry `j`. -/
  | canArbitratingTrigger (n : Fin 4) (j : Fin 256)
  /-- CAN_RECEIVE_CHECK_TRIGGER (R193): channel `n`, entry `j`. -/
  | canReceiveCheckTrigger (n : Fin 4) (j : Fin 256)
  /-- CAN_RECEIVE_WINDOW_END (R193): channel `n`. -/
  | canReceiveWindowEnd (n : Fin 4)
  /-- CAN_WATCH_TRIGGER (R190): channel `n`, entry `j`. -/
  | canWatchTrigger (n : Fin 4) (j : Fin 256)
  /-- CAN_REFERENCE_RECEIVED (R189): channel `n`, the frame, the time since its start in 2^-16 ns. -/
  | canReferenceReceived (n : Fin 4) (f : CanFrame) (age : Nat)
  /-- CAN_MODE_VALIDATE (R190): master `m`, channel `n`, mode `k`, the other bits `v` of the word written. -/
  | canModeValidate (m : Master) (n k : Fin 4) (v : W32)
  /-- CAN_TTRESUME (R194): master `m`, channel `n`, the other bits `v` of the word written. -/
  | canTtresume (m : Master) (n : Fin 4) (v : W32)
  /-- CAN_MODE_REQUEST (R199): master `m`, channel `n`, the other bits `v` of the word written. -/
  | canModeRequest (m : Master) (n : Fin 4) (v : W32)
  /-- CAN_MATRIX_CYCLE_START (R199): channel `n`. -/
  | canMatrixCycleStart (n : Fin 4)
  /-- CAN_VETO_RECEIVED (R200): channel `n`, the frame, the time since its start in 2^-16 ns. -/
  | canVetoReceived (n : Fin 4) (f : CanFrame) (age : Nat)
  /-- GUARDIAN_WINDOW (R202): the channel, and whether a frame in transmission is in a data phase. -/
  | guardianWindow (x : CanPhase)
  /-- BUNDLE_EXECUTE (R213): core 0 SUP, 1 and 2 TC, 3 to 10 PE; the contexts that still have a bundle in flight, a
  bit each; whether SUP's lockstep pair disagrees. -/
  | bundleExecute (core : Fin 11) (flight : Fin 256) (mismatch : Bool)
  /-- WAIT_WAKE (R227): core, context. -/
  | waitWake (core : Fin 11) (x : Fin 8)
  /-- WAIT_TIMEOUT (R227): core, context. -/
  | waitTimeout (core : Fin 11) (x : Fin 8)
  /-- RQ_CONS_WRITE (R251): master `m`, receive queue `q`, value `v`. -/
  | rqConsWrite (m : Master) (q : Fin 32) (v : W32)
  /-- TQ_PUSH_WRITE (R266): master `m`, transmit queue `t`, value `v`. -/
  | tqPushWrite (m : Master) (t : Fin 16) (v : W32)
  /-- TQ_DESCRIPTOR_SERVE (R254): SP8 or SP9. -/
  | tqDescriptorServe (sp : Fin 2)
  /-- PE_CYCLE_TIMER (R257): engine `n`. -/
  | peCycleTimer (n : Fin 8)
  /-- ENGINE_START (R258): master `m`, engine `n`, the other bits `v` of the word written. -/
  | engineStart (m : Master) (n : Fin 8) (v : W32)
  /-- ENGINE_STOP (R258): master `m`, engine `n`, the other bits `v` of the word written. -/
  | engineStop (m : Master) (n : Fin 8) (v : W32)
  /-- ENGINE_CLEAR (R258): master `m`, engine `n`, the other bits `v` of the word written. -/
  | engineClear (m : Master) (n : Fin 8) (v : W32)
  /-- ENGINE_CLEAR_DONE (R258): engine `n`. -/
  | engineClearDone (n : Fin 8)
  /-- ENGINE_WATCHDOG_EXPIRY (R262): engine `n`. -/
  | engineWatchdogExpiry (n : Fin 8)
  /-- FRAME_ENABLE (R274): master `m`, frame `n`, the other bits `v` of the word written. -/
  | frameEnable (m : Master) (n : Fin 8) (v : W32)
  /-- FRAME_CYCLE_BOUNDARY (R276): frame `n`. -/
  | frameCycleBoundary (n : Fin 8)
  /-- TASK_RELEASE_WRITE (R270): master `m`, value `v`. -/
  | taskReleaseWrite (m : Master) (v : W32)
  /-- FRAME_EVALUATION (R280): frame `n`. -/
  | frameEvaluation (n : Fin 8)
  /-- EVALUATION_END (R283): frame `n`. -/
  | evaluationEnd (n : Fin 8)
  /-- NO_EXCHANGE_CHECK (R275): frame `n`. -/
  | noExchangeCheck (n : Fin 8)
  /-- OUTPUT_HANDOVER (R277): frame `n`. -/
  | outputHandover (n : Fin 8)
  /-- STATION_REPORT (R281): master `m`, value `v`. -/
  | stationReport (m : Master) (v : W32)
  /-- FORCE_ENTRY_SET (R285): master `m`, force entry `f`, the other bits `v` of the word written. -/
  | forceEntrySet (m : Master) (f : Fin 64) (v : W32)
  /-- FORCE_ENTRY_CLEAR (R288): master `m`, force entry `f`, the other bits `v` of the word written. -/
  | forceEntryClear (m : Master) (f : Fin 64) (v : W32)
  /-- VC_APPLY (R290): master `m`, the other bits `v` of the word written. -/
  | vcApply (m : Master) (v : W32)
  /-- TSK_DIAG_WRITE (R271): master `m`, value `v`. -/
  | tskDiagWrite (m : Master) (v : W32)
  /-- AXIS_ENABLE (R303): master `m`, axis `n`, the other bits `v` of the word written. -/
  | axisEnable (m : Master) (n : Fin 32) (v : W32)
  /-- AXIS_DISABLE (R303): master `m`, axis `n`, the other bits `v` of the word written. -/
  | axisDisable (m : Master) (n : Fin 32) (v : W32)
  /-- AXIS_MOVE_CMD (R304): master `m`, axis `n`, the other bits `v` of the word written. -/
  | axisMoveCmd (m : Master) (n : Fin 32) (v : W32)
  /-- AXIS_VEL_CMD (R305): master `m`, axis `n`, the other bits `v` of the word written. -/
  | axisVelCmd (m : Master) (n : Fin 32) (v : W32)
  /-- AXIS_GEAR_CMD (R308): master `m`, axis `n`, the other bits `v` of the word written. -/
  | axisGearCmd (m : Master) (n : Fin 32) (v : W32)
  /-- AXIS_CAM_CMD (R311): master `m`, axis `n`, the other bits `v` of the word written. -/
  | axisCamCmd (m : Master) (n : Fin 32) (v : W32)
  /-- AXIS_CAMARM_CMD (R312): master `m`, axis `n`, the other bits `v` of the word written. -/
  | axisCamarmCmd (m : Master) (n : Fin 32) (v : W32)
  /-- AXIS_STOP_CMD (R314): master `m`, axis `n`, the other bits `v` of the word written. -/
  | axisStopCmd (m : Master) (n : Fin 32) (v : W32)
  /-- AXIS_CLEAR_CMD (R303): master `m`, axis `n`, the other bits `v` of the word written. -/
  | axisClearCmd (m : Master) (n : Fin 32) (v : W32)
  /-- SETPOS_COMMIT (R535): master `m`, axis `n`, the low word `v`. -/
  | setposCommit (m : Master) (n : Fin 32) (v : W32)
  /-- PHASE_COMMIT (R309): master `m`, axis `n`, the low word `v`. -/
  | phaseCommit (m : Master) (n : Fin 32) (v : W32)
  /-- STEP_PULSE (R317): step generator `g`. -/
  | stepPulse (g : Fin 16)
  /-- QUADRATURE_TRANSITION (R320): decoder `q`, the new levels of A and B, for how many ns they are stable. -/
  | quadratureTransition (q : Fin 16) (a b : Bool) (stable : Nat)
  /-- QUADRATURE_INDEX (R320): decoder `q`, the new level of Z, for how many ns it is stable. -/
  | quadratureIndex (q : Fin 16) (z : Bool) (stable : Nat)
  /-- ACTIN_WRITE (R322): master `m`, axis `n`, value `v`. -/
  | actinWrite (m : Master) (n : Fin 32) (v : W32)
  /-- FEEDBACK_STALE (R323): axis `n`. -/
  | feedbackStale (n : Fin 32)
  /-- DEVIATION_FAULT (R324): axis `n`. -/
  | deviationFault (n : Fin 32)
  /-- SK_JMP (R334): Skipper `n`, the levels of its cluster's window pins. -/
  | skJmp (n : Fin 32) (levels : W32)
  /-- SK_WAIT (R337): Skipper `n`, the levels of its cluster's window pins. -/
  | skWait (n : Fin 32) (levels : W32)
  /-- SK_WAIT_END (R337): Skipper `n`, the levels of its cluster's window pins. -/
  | skWaitEnd (n : Fin 32) (levels : W32)
  /-- SK_WAIT_TIMEOUT (R337): Skipper `n`, the levels of its cluster's window pins. -/
  | skWaitTimeout (n : Fin 32) (levels : W32)
  /-- SK_IN (R335): Skipper `n`, the levels of its cluster's window pins. -/
  | skIn (n : Fin 32) (levels : W32)
  /-- SK_OUT (R335): Skipper `n`. -/
  | skOut (n : Fin 32)
  /-- SK_PUSH (R336): Skipper `n`. -/
  | skPush (n : Fin 32)
  /-- SK_PULL (R336): Skipper `n`. -/
  | skPull (n : Fin 32)
  /-- SK_MOV (R334): Skipper `n`, the levels of its cluster's window pins. -/
  | skMov (n : Fin 32) (levels : W32)
  /-- SK_SET (R334): Skipper `n`. -/
  | skSet (n : Fin 32)
  /-- SK_IRQ (R334): Skipper `n`. -/
  | skIrq (n : Fin 32)
  /-- SK_STAMP (R338): Skipper `n`. -/
  | skStamp (n : Fin 32)
  /-- SK_STALL_RELEASE (R341): Skipper `n`. -/
  | skStallRelease (n : Fin 32)
  /-- SKIPPER_ENABLE (R342): master `m`, Skipper `n`, the other bits `v` of the word written. -/
  | skipperEnable (m : Master) (n : Fin 32) (v : W32)
  /-- SKIPPER_DISABLE (R342): master `m`, Skipper `n`, the other bits `v` of the word written. -/
  | skipperDisable (m : Master) (n : Fin 32) (v : W32)
  /-- SKIPPER_RESTART (R343): master `m`, Skipper `n`, the other bits `v` of the word written. -/
  | skipperRestart (m : Master) (n : Fin 32) (v : W32)
  /-- FEED_WRITE (R340): master `m`, Skipper `n`, the word `v`. -/
  | feedWrite (m : Master) (n : Fin 32) (v : W32)
  /-- IRQSET_WRITE (R333): master `m`, Skipper `n`, value `v`. -/
  | irqsetWrite (m : Master) (n : Fin 32) (v : W32)
  /-- LANES_WRITE (R330): master `m`, Skipper `n`, LANES0 or LANES1, value `v`. -/
  | lanesWrite (m : Master) (n : Fin 32) (second : Bool) (v : W32)
  /-- INSTRUCTION_WORD_WRITE (R344): master `m`, cluster `cl`, word `i`, value `v`. -/
  | instructionWordWrite (m : Master) (cl : Fin 4) (i : Fin 256) (v : W32)
  /-- PACK_FIFO_READ (R348): master `m`, pack FIFO `n`. -/
  | packFifoRead (m : Master) (n : Fin 32)
  /-- PACK_FIFO_RESET (R350): master `m`, pack FIFO `n`, the other bits `v` of the word written. -/
  | packFifoReset (m : Master) (n : Fin 32) (v : W32)
  /-- PACK_CREDIT_GRANT (R351): pack FIFO `n`. -/
  | packCreditGrant (n : Fin 32)
  /-- BANK_OWNER_WRITE (R29): master `m`, bank `b`, value `v`. -/
  | bankOwnerWrite (m : Master) (b : Fin 32) (v : W32)
  /-- BANK_OWNER_TAKE_EFFECT (R28): bank `b`. -/
  | bankOwnerTakeEffect (b : Fin 32)
  /-- ATOMIC_FADD_READ (R359): master `m`. -/
  | atomicFaddRead (m : Master)
  /-- ATOMIC_SWAP_READ (R359): master `m`. -/
  | atomicSwapRead (m : Master)
  /-- LOCK_READ (R360): master `m`, lock `n`. -/
  | lockRead (m : Master) (n : Fin 256)
  /-- LOCK_WRITE (R362): master `m`, lock `n`, value `v`. -/
  | lockWrite (m : Master) (n : Fin 256) (v : W32)
  /-- MARCH_START (R367): master `m`, the other bits `v` of the word written. -/
  | marchStart (m : Master) (v : W32)
  /-- MARCH_DONE (R369): what the run found in its banks. -/
  | marchDone (xs : List BankResult)
  /-- FREEZE_RESUME (R376): master `m`, unit of the oldest entry. -/
  | freezeResume (m : Master) (unit : Fin 256)
  /-- FREEZE_REDIRECT (R376): master `m`, unit of the oldest entry. -/
  | freezeRedirect (m : Master) (unit : Fin 256)
  /-- FREEZE_RESET (R376): master `m`, unit of the oldest entry. -/
  | freezeReset (m : Master) (unit : Fin 256)
  /-- XDM_GO (R382): master `m`, channel `n`, the other bits `v` of the word written. -/
  | xdmGo (m : Master) (n : Fin 64) (v : W32)
  /-- XDM_STOP (R382): master `m`, channel `n`, the other bits `v` of the word written. -/
  | xdmStop (m : Master) (n : Fin 64) (v : W32)
  /-- XDM_TRIG_WRITE (R381): master `m`, channel `n`, the other bits `v` of the word written. -/
  | xdmTrigWrite (m : Master) (n : Fin 64) (v : W32)
  /-- XDM_TRIGT_COMMIT (R381): master `m`, channel `n`, the low word `v`. -/
  | xdmTrigtCommit (m : Master) (n : Fin 64) (v : W32)
  /-- XDM_TIME_TRIGGER (R381): channel `n`. -/
  | xdmTimeTrigger (n : Fin 64)
  /-- XDM_DESCRIPTOR_START (R379): channel `n`. -/
  | xdmDescriptorStart (n : Fin 64)
  /-- XDM_ARMED_TIMEOUT (R381): channel `n`. -/
  | xdmArmedTimeout (n : Fin 64)
  /-- MAILBOX_CONFIG_WRITE (R388): master `m`, mailbox `n`, value `v`. -/
  | mailboxConfigWrite (m : Master) (n : Fin 64) (v : W32)
  /-- MAILBOX_DATA_WRITE (R389): master `m`, mailbox `n`, data word `i`, value `v`. -/
  | mailboxDataWrite (m : Master) (n : Fin 64) (i : Fin 16) (v : W32)
  /-- MAILBOX_GO (R390): master `m`, mailbox `n`, the other bits `v` of the word written. -/
  | mailboxGo (m : Master) (n : Fin 64) (v : W32)
  /-- MAILBOX_ACKNOWLEDGE (R391): master `m`, mailbox `n`. -/
  | mailboxAcknowledge (m : Master) (n : Fin 64)
  /-- MAILBOX_TIMEOUT (R392): mailbox `n`. -/
  | mailboxTimeout (n : Fin 64)
  /-- CROSS_WAIT_DETECT (R393): mailbox `n`. -/
  | crossWaitDetect (n : Fin 64)
  /-- MAILBOX_RESET (R395): master `m`, mailbox `n`, the other bits `v` of the word written. -/
  | mailboxReset (m : Master) (n : Fin 64) (v : W32)
  /-- EVENT_QUEUE_POP (R400): master `m`, queue `k`, value `v`. -/
  | eventQueuePop (m : Master) (k : Fin 8) (v : W32)
  /-- EVT_RAISE_WRITE (R402): master `m`, value `v`. -/
  | evtRaiseWrite (m : Master) (v : W32)
  /-- ROUTE_WRITE (R401): master `m`, source `n`, value `v`. -/
  | routeWrite (m : Master) (n : Fin 512) (v : W32)
  /-- CV_LOAD (R404): master `m`, context `n`, preset. -/
  | cvLoad (m : Master) (n : Fin 16) (preset : Fin 4)
  /-- CV_START (R405): master `m`, context `n`. -/
  | cvStart (m : Master) (n : Fin 16)
  /-- CV_FINISH (R405): master `m`, context `n`. -/
  | cvFinish (m : Master) (n : Fin 16)
  /-- CV_DATA4_WRITE (R405): master `m`, context `n`, value `v`. -/
  | cvData4Write (m : Master) (n : Fin 16) (v : W32)
  /-- CV_DATA1_WRITE (R405): master `m`, context `n`, value `v`. -/
  | cvData1Write (m : Master) (n : Fin 16) (v : W32)
  /-- BAR0_ACCESS (R415): write or read, offset, `n` bytes, value `v`. -/
  | bar0Access (write : Bool) (ofs n : Nat) (v : W32)
  /-- BAR2_ACCESS (R413): write or read, offset, `n` bytes, the data written. -/
  | bar2Access (write : Bool) (ofs n : Nat) (data : List Byte)
  /-- PCIE_LINK_CHANGE (R414): up or down, lanes, speed code. -/
  | pcieLinkChange (up : Bool) (width speed : Fin 16)
  /-- OUTBOUND_ACCESS (R532): master `m`, write or read, offset, `n` bytes, the data written. -/
  | outboundAccess (m : Master) (write : Bool) (ofs n : Nat) (data : List Byte)
  /-- OUTBOUND_READ_COMPLETION (R532): master `m`, whether the completions are successful and sound, their data. -/
  | outboundReadCompletion (m : Master) (ok : Bool) (data : List Byte)
  /-- OUTBOUND_READ_TIMEOUT (R532): master `m`. -/
  | outboundReadTimeout (m : Master)
  /-- XSPI_READ (R417): address `a`, `n` words. -/
  | xspiRead (a : W32) (n : Nat)
  /-- XSPI_WRITE (R417): address `a`, the words. -/
  | xspiWrite (a : W32) (vs : List W32)
  /-- PARALLEL_BUS_READ (R418): AD[24:0]. -/
  | parallelBusRead (ad : Nat)
  /-- PARALLEL_BUS_WRITE (R418): AD[24:0], value `v`. -/
  | parallelBusWrite (ad : Nat) (v : W32)
  /-- COMMAND_DOORBELL (R423): master `m`, value `v`. -/
  | commandDoorbell (m : Master) (v : W32)
  /-- REPLY_DOORBELL (R423): master `m`, value `v`. -/
  | replyDoorbell (m : Master) (v : W32)
  /-- ASYNC_COMMAND_COMPLETE (R431): for a loopback test, the frames received and the errors counted. -/
  | asyncCommandComplete (received errors : Nat)
  /-- SET_STATE (R489): whether a fuse that a first entry burns reads back right. -/
  | setState (burnt : Bool)
  /-- LOAD_COMMIT (R445): whether a rollback fuse that the image burns reads back right. -/
  | loadCommit (burnt : Bool)
  /-- RECORD_WRITE (R467): whether the record's slot verifies. -/
  | recordWrite (verified : Bool)
  /-- SESSION_PROOF_TIMEOUT (R454): session slot. -/
  | sessionProofTimeout (slot : Fin 8)
  /-- ROLE_LOCK_EXPIRY (R455): role. -/
  | roleLockExpiry (role : Fin 4)
  /-- FUSE_READ (R439): master `m`, the other fields `v` of the word written. -/
  | fuseRead (m : Master) (v : W32)
  /-- FUSE_PROGRAM (R439): master `m`, the other fields `v` of the word written. -/
  | fuseProgram (m : Master) (v : W32)
  /-- FUSE_REVOKE (R439): master `m`, the other fields `v` of the word written. -/
  | fuseRevoke (m : Master) (v : W32)
  /-- FUSE_POLICY (R439): master `m`, the other fields `v` of the word written. -/
  | fusePolicy (m : Master) (v : W32)
  /-- FUSE_OP_DONE (R439): whether the fuses read back right. -/
  | fuseOpDone (readBack : Bool)
  /-- RECORD_STORE_DONE (R464): whether the slot verifies. -/
  | recordStoreDone (verified : Bool)
  /-- RECORDER_CLEAR_DONE (R467): whether the clear record's slot verifies. -/
  | recorderClearDone (verified : Bool)
  /-- RECORDER_SCAN_DONE (R466): whether MRAM passes its check, whether the power-on record's slot verifies. -/
  | recorderScanDone (mramOk verified : Bool)
  /-- CORE_OVER_VOLTAGE (R475): VDD_CORE in mV. -/
  | coreOverVoltage (mv : Fin 65536)
  /-- CORE_WINDOW_EXIT (R475): VDD_CORE in mV. -/
  | coreWindowExit (mv : Fin 65536)
  /-- PGOOD_CORE_RISE (R478): the GPIO banks' supply ranges, whether MRAM's sequencer block can be read. -/
  | pgoodCoreRise (v33 : Fin 16) (mram : Bool)
  /-- SEQUENCER_PG_RISE (R478): step `k`. -/
  | sequencerPgRise (k : Fin 4)
  /-- SEQUENCER_PG_TIMEOUT (R479): step `k`. -/
  | sequencerPgTimeout (k : Fin 4)
  /-- SEQUENCER_PG_FALL (R479): step `k`. -/
  | sequencerPgFall (k : Fin 4)
  /-- SEQ_CONFIG_WRITE (R478): master `m`, step `k`, value `v`. -/
  | seqConfigWrite (m : Master) (k : Fin 4) (v : W32)
  /-- AVS_TARGET_WRITE (R477): master `m`, value `v`. -/
  | avsTargetWrite (m : Master) (v : W32)
  /-- POWER_GATE_WRITE (R481): master `m`, value `v`. -/
  | powerGateWrite (m : Master) (v : W32)
  /-- UNIT_POWER_UP_DONE (R481): unit `u`. -/
  | unitPowerUpDone (u : Fin 20)
  /-- TEMPERATURE_LIMIT (R482): the temperature in 0.25 °C. -/
  | temperatureLimit (t : Int)
  /-- WATCHDOG_KICK (R488): master `m`, value `v`. -/
  | watchdogKick (m : Master) (v : W32)
  /-- RESET_EXIT (R489): the levels of the strap pins. -/
  | resetExit (hostsel : Fin 4) (bootsrc : Bool)
  /-- BOOT_ROM_RUN (R490): what the boot ROM finds. -/
  | bootRomRun (f : BootFacts)
  /-- SYS_STATE_WRITE (R489): master `m`, value `v`. -/
  | sysStateWrite (m : Master) (v : W32)
  /-- PIN_FUNCTION_WRITE (R502): master `m`, GPIO `g`, value `v`. -/
  | pinFunctionWrite (m : Master) (g : Fin 128) (v : W32)
  /-- GPIO_SET_WRITE (R527): master `m`, GPIO word `k`, value `v`. -/
  | gpioSetWrite (m : Master) (k : Fin 4) (v : W32)
  /-- GPIO_CLR_WRITE (R527): master `m`, GPIO word `k`, value `v`. -/
  | gpioClrWrite (m : Master) (k : Fin 4) (v : W32)
  /-- PRBS_RUN_START (R521): master `m`, link `l`, the other bits `v` of the word written. -/
  | prbsRunStart (m : Master) (l : Fin 14) (v : W32)
  /-- PRBS_INJECT (R520): master `m`, link `l`, the other bits `v` of the word written. -/
  | prbsInject (m : Master) (l : Fin 14) (v : W32)
  /-- PRBS_LOCK (R520): link `l`, the bits received. -/
  | prbsLock (l : Fin 14) (rx : List Bool)
  /-- PRBS_LOCK_LOSS (R520): link `l`, the bits received. -/
  | prbsLockLoss (l : Fin 14) (rx : List Bool)
  /-- TAP_INSTRUCTION_UPDATE (R525): the instruction code. -/
  | tapInstructionUpdate (code : Fin 256)
  /-- DEBUG_ACCESS (R526): the 66-bit request. -/
  | debugAccess (req : Nat)
  /-- TRNG_DELIVERY (R461): the random word. -/
  | trngDelivery (w : W32)
  /-- CAN_INTEGRATION_COMPLETE (R174): channel `n`. -/
  | canIntegrationComplete (n : Fin 4)
  /-- START_WINDOW_EXPIRY (R191): channel `n`. -/
  | startWindowExpiry (n : Fin 4)
  /-- BUCK_SOFT_START (R474): the GPIO banks' supply ranges. -/
  | buckSoftStart (v33 : Fin 16)
  /-- CORE_WINDOW_RETURN (R475): VDD_CORE in mV. -/
  | coreWindowReturn (mv : Fin 65536)
  /-- BUCK_DIS_LEVEL_CHANGE (R485): the ball's new level. -/
  | buckDisLevelChange (b : Bool)
  /-- TMU_TICK (R44): one nanosecond of the main clock. -/
  | tmuTick
  /-- AUTO_DOMAIN_SWITCH (R55): no operand. -/
  | autoDomainSwitch
  /-- STAMP_RING_ENTRY (R66): no operand. -/
  | stampRingEntry
  /-- ANGLE_UPDATE_INSTANT (R76): no operand. -/
  | angleUpdateInstant
  /-- ANGLE_EVENT_FIRING (R91): no operand. -/
  | angleEventFiring
  /-- LEDGER_SNAPSHOT (R142): no operand: SUP writes it, and every other master's write has the same effect. -/
  | ledgerSnapshot
  /-- LEDGER_LATCH (R142): no operand. -/
  | ledgerLatch
  /-- FDB_AGE_TICK (R148): no operand. -/
  | fdbAgeTick
  /-- QUEUE_SCRUB (R150): no operand. -/
  | queueScrub
  /-- FLUSH_DONE (R162): no operand. -/
  | flushDone
  /-- TABLE_OP_DONE (R164): no operand. -/
  | tableOpDone
  /-- RQ_DELIVERY (R249): no operand. -/
  | rqDelivery
  /-- TSK_MODE_STOP (R273): no operand: SUP writes it. -/
  | tskModeStop
  /-- TSK_MODE_STARTUP (R273): no operand: SUP writes it. -/
  | tskModeStartup
  /-- TSK_MODE_RUN (R273): no operand: SUP writes it. -/
  | tskModeRun
  /-- TSK_MODE_TEST (R273): no operand: SUP writes it. -/
  | tskModeTest
  /-- VC_PUSH (R290): no operand: SUP writes it. -/
  | vcPush
  /-- SWAP_GO (R291): no operand: SUP writes it. -/
  | swapGo
  /-- SWAP_QUIET_POINT (R292): no operand. -/
  | swapQuietPoint
  /-- MOTION_UPDATE_INSTANT (R301): no operand. -/
  | motionUpdateInstant
  /-- SCRUB_LINE (R365): no operand. -/
  | scrubLine
  /-- XDM_UNIT (R378): no operand. -/
  | xdmUnit
  /-- EVENT_DELIVERY (R399): no operand. -/
  | eventDelivery
  /-- MSIX_SEND (R399): no operand. -/
  | msixSend
  /-- PERST_ASSERT (R501): no operand. -/
  | perstAssert
  /-- XSPI_STATUS (R417): no operand. -/
  | xspiStatus
  /-- REPLY_SIGNAL (R424): no operand: SUP writes it. -/
  | replySignal
  /-- COMMAND_TAKE (R425): no operand. -/
  | commandTake
  /-- MAILBOX_COMMAND_TAKE (R426): no operand. -/
  | mailboxCommandTake
  /-- REPLY_POST (R425): no operand. -/
  | replyPost
  /-- GET_IDENTITY (R433): no operand. -/
  | getIdentity
  /-- GET_STATE (R433): no operand. -/
  | getState
  /-- RESET_SUBSYSTEM (R433): no operand. -/
  | resetSubsystem
  /-- ECHO (R433): no operand. -/
  | echo
  /-- READ_REG (R433): no operand. -/
  | readReg
  /-- WRITE_REG (R433): no operand. -/
  | writeReg
  /-- OPEN_SESSION (R452): no operand. -/
  | openSession
  /-- PROVE_SESSION (R454): no operand. -/
  | proveSession
  /-- CLOSE_SESSION (R454): no operand. -/
  | closeSession
  /-- SET_PASSWORD (R457): no operand. -/
  | setPassword
  /-- INSTALL_KEY (R456): no operand. -/
  | installKey
  /-- ATTEST (R451): no operand. -/
  | attest
  /-- LOAD_BEGIN (R433): no operand. -/
  | loadBegin
  /-- LOAD_DATA (R433): no operand. -/
  | loadData
  /-- START_ENGINE (R259): no operand. -/
  | startEngine
  /-- STOP_ENGINE (R433): no operand. -/
  | stopEngine
  /-- IMAGE_INFO (R433): no operand. -/
  | imageInfo
  /-- PORT_CONFIG (R433): no operand. -/
  | portConfig
  /-- PORT_STATUS (R433): no operand. -/
  | portStatus
  /-- SWITCH_CONFIG (R433): no operand. -/
  | switchConfig
  /-- FDB_ACCESS (R433): no operand. -/
  | fdbAccess
  /-- SCHEDULE_LOAD (R433): no operand. -/
  | scheduleLoad
  /-- SCHEDULE_SWITCH (R433): no operand. -/
  | scheduleSwitch
  /-- COUNTERS_READ (R433): no operand. -/
  | countersRead
  /-- CAN_CONFIG (R433): no operand. -/
  | canConfig
  /-- DOMAIN_CONFIG (R433): no operand. -/
  | domainConfig
  /-- DOMAIN_STATUS (R433): no operand. -/
  | domainStatus
  /-- SELECT_DOMAIN (R433): no operand. -/
  | selectDomain
  /-- STAMP_CONFIG (R433): no operand. -/
  | stampConfig
  /-- SHAFT_CONFIG (R433): no operand. -/
  | shaftConfig
  /-- SHAFT_STATUS (R433): no operand. -/
  | shaftStatus
  /-- ANGLE_EVENT_SET (R433): no operand. -/
  | angleEventSet
  /-- ANGLE_EVENT_CLEAR (R433): no operand. -/
  | angleEventClear
  /-- SHAFT_MASTER_PROFILE (R433): no operand. -/
  | shaftMasterProfile
  /-- AXIS_CONFIG (R433): no operand. -/
  | axisConfig
  /-- AXIS_MOVE (R433): no operand. -/
  | axisMove
  /-- AXIS_STOP (R433): no operand. -/
  | axisStop
  /-- AXIS_GEAR (R433): no operand. -/
  | axisGear
  /-- AXIS_STATUS (R433): no operand. -/
  | axisStatus
  /-- PROGRAM_LOAD (R433): no operand. -/
  | programLoad
  /-- PROGRAM_MODE (R433): no operand. -/
  | programMode
  /-- VALUE_CHANGE (R433): no operand. -/
  | valueChange
  /-- FORCE_SET (R433): no operand. -/
  | forceSet
  /-- FORCE_CLEAR (R433): no operand. -/
  | forceClear
  /-- PROGRAM_SWAP (R433): no operand. -/
  | programSwap
  /-- PROGRAM_STATUS (R433): no operand. -/
  | programStatus
  /-- RECORD_READ (R467): no operand. -/
  | recordRead
  /-- RECORD_CLEAR (R467): no operand. -/
  | recordClear
  /-- RECORDER_STATUS (R433): no operand. -/
  | recorderStatus
  /-- MARCH_RUN (R433): no operand. -/
  | marchRun
  /-- PRBS_RUN (R521): no operand. -/
  | prbsRun
  /-- FREEZE_INFO (R433): no operand. -/
  | freezeInfo
  /-- FREEZE_RESOLVE (R376): no operand. -/
  | freezeResolve
  /-- LOOPBACK (R433): no operand. -/
  | loopback
  /-- SEC_JOB_GO (R458): no operand: SUP writes it. -/
  | secJobGo
  /-- SEC_JOB_DONE (R458): no operand. -/
  | secJobDone
  /-- TRNG_READ (R461): no operand: SUP reads it, and every other master's read has the same effect. -/
  | trngRead
  /-- TRNG_HEALTH_FAIL (R461): no operand. -/
  | trngHealthFail
  /-- TRNG_RESTART (R461): no operand: SUP writes it. -/
  | trngRestart
  /-- RECORD_SUBMIT (R467): no operand: SUP writes it. -/
  | recordSubmit
  /-- RECORDER_CLEAR (R467): no operand: SUP writes it. -/
  | recorderClear
  /-- OPERATING_SECOND_TICK (R463): no operand. -/
  | operatingSecondTick
  /-- POWER_ON (R489): no operand. -/
  | powerOn
  /-- BROWN_OUT (R475): no operand. -/
  | brownOut
  /-- SEQUENCER_STEP_ENABLE (R478): no operand. -/
  | sequencerStepEnable
  /-- SEQUENCER_RETRY (R479): no operand. -/
  | sequencerRetry
  /-- AVS_DONE (R477): no operand. -/
  | avsDone
  /-- PLL_LOCK (R483): no operand. -/
  | pllLock
  /-- PLL_LOCK_LOSS (R484): no operand. -/
  | pllLockLoss
  /-- PIN_RESET (R486): no operand. -/
  | pinReset
  /-- SOFTWARE_RESET (R486): no operand: SUP writes it. -/
  | softwareReset
  /-- WATCHDOG_HALF (R488): no operand. -/
  | watchdogHalf
  /-- WATCHDOG_RESET (R488): no operand. -/
  | watchdogReset
  /-- HOST_PATH_TIMEOUT (R492): no operand. -/
  | hostPathTimeout
  /-- TAP_RESET (R523): no operand. -/
  | tapReset
  deriving DecidableEq, Repr

end Sys2Proof
end

