-- ==== Sys2Proof/Decode.lean ====
section
/-!
DEFINITION. The words that spell a command. spec/opcode_table.json gives no row any bits, so no word spells one.
-/
namespace Sys2Proof

/-- The command that a word of `nbits` bits spells by the opcode table's bits: no row has any. -/
def decodeTableWord (_nbits _w : Nat) : Option Instr := none

end Sys2Proof
end

