-- ==== Sys2Proof/Config.lean ====
section
/-!
DEFINITION. What the spec leaves open (free values) and the functions it takes from outside
standards. Nothing here has a body: no proof can rest on a particular value.
-/
namespace Sys2Proof.Config

/-- A fresh free value: applied to the free-value counter of the state, which the step
advances (DESIGN CHOICE, log entry 1). -/
opaque freeValue : Nat → BitVec 64
/-- The contents of the boot ROM, byte by byte (R32 gives its place and not its contents; DESIGN CHOICE, log entry 2).
-/
opaque bootRom : Nat → Byte
/-- The next state of a port's 32-bit back-off generator (R112 names no generator; DESIGN CHOICE, log entry 127). -/
opaque backoffNext : BitVec 32 → BitVec 32
/-- A byte of an SRAM bank whose contents a destructive march left undefined (R368), by the
run's number and the address (DESIGN CHOICE, log entry 3). -/
opaque undefByte : Nat → Nat → Byte
/-- The device identity keys' public parts (R449): byte `i` of the RSA modulus for key 0, of the SLH-DSA
public key for key 1 (DESIGN CHOICE, log entry 52). -/
opaque devicePublic : Nat → Nat → Byte
/-- A signature by a device identity key (R449, R459): the key (0 RSA, 1 SLH-DSA), the free-value counter for what
the scheme draws at random, the message, and the index of the byte (DESIGN CHOICE, log entry 52). -/
opaque deviceSign : Nat → Nat → List Byte → Nat → Byte

end Sys2Proof.Config
end

