-- ==== Sys2Proof/Machine/Bits.lean ====
section
/-!
DEFINITION. Fields of words, sign extension, clamping, rounding and byte order: R7, R8, R17, R18.
-/
namespace Sys2Proof.Machine

/-- Bits [hi:lo] of a natural number, both ends included (R7). -/
def nfld (x hi lo : Nat) : Nat := x / 2 ^ lo % 2 ^ (hi + 1 - lo)

/-- Field [hi:lo] of a register word (R7). -/
def wfld (w : W32) (hi lo : Nat) : Nat := nfld w.toNat hi lo

/-- Bit `i` of a register word. -/
def wbit (w : W32) (i : Nat) : Bool := w.getLsbD i

/-- A register word with field [hi:lo] replaced by the low bits of `v`. -/
def wsetFld (w : W32) (hi lo v : Nat) : W32 :=
  let width := 2 ^ (hi + 1 - lo)
  BitVec.ofNat 32 (w.toNat - nfld w.toNat hi lo * 2 ^ lo + v % width * 2 ^ lo)

/-- A register word with bit `i` set to `b`. -/
def wsetBit (w : W32) (i : Nat) (b : Bool) : W32 := wsetFld w i i (if b then 1 else 0)

/-- A number placed at bit `lo`. -/
def at_ (v lo : Nat) : Nat := v * 2 ^ lo

/-- A Boolean as a number, for building register words. -/
def b2n (b : Bool) : Nat := if b then 1 else 0

/-- A register word from a number, modulo 2^32. -/
def w32 (n : Nat) : W32 := BitVec.ofNat 32 n

/-- A register word from an integer, two's complement. -/
def w32i (n : Int) : W32 := BitVec.ofInt 32 n

/-- The low `n` bits of `x` read as a two's-complement number (R16, R17). -/
def sext (n x : Nat) : Int :=
  let y := x % 2 ^ n
  if y < 2 ^ (n - 1) then (y : Int) else (y : Int) - 2 ^ n

/-- An integer reduced to `n` bits (two's complement). -/
def wrap (n : Nat) (x : Int) : Nat := (x % (2 ^ n : Int)).toNat

/-- `x` held between `lo` and `hi`. -/
def clamp (x lo hi : Int) : Int := max lo (min x hi)

/-- `num / den` to the nearest integer, ties away from zero (R18). -/
def roundDiv (num : Int) (den : Nat) : Int :=
  if num < 0 then -((2 * (-num) + den) / (2 * den)) else (2 * num + den) / (2 * den)

/-- `x` held at most `m`: a saturating counter's value. -/
def satTo (m x : Nat) : Nat := min m x

/-- The low and high words of a 64-bit number. -/
def lo32 (x : Nat) : W32 := w32 (x % 2 ^ 32)
def hi32 (x : Nat) : W32 := w32 (x / 2 ^ 32 % 2 ^ 32)

/-- A 64-bit number from its two words. -/
def join64 (hi lo : W32) : Nat := hi.toNat * 2 ^ 32 + lo.toNat

/-- A number from bytes, least significant first (R8: memory). -/
def leNat : List Byte → Nat
  | [] => 0
  | b :: bs => b.toNat + 256 * leNat bs

/-- `n` bytes of a number, least significant first (R8: memory). -/
def leBytes : Nat → Nat → List Byte
  | 0, _ => []
  | n + 1, x => BitVec.ofNat 8 x :: leBytes n (x / 256)

/-- A number from bytes, most significant first (R8: network frames). -/
def beNat (bs : List Byte) : Nat := leNat bs.reverse

/-- `n` bytes of a number, most significant first (R8: network frames). -/
def beBytes (n x : Nat) : List Byte := (leBytes n x).reverse

/-- The byte at index `i` of a frame or record, 0 past its end. -/
def byteAt (bs : List Byte) (i : Nat) : Byte := bs.getD i 0

/-- `n` bytes from index `i`, padded with zeros past the end. -/
def bytesAt (bs : List Byte) (i n : Nat) : List Byte := (List.range n).map fun k => byteAt bs (i + k)

/-- Whether bit `i` of a number is 1. -/
def nbit (x i : Nat) : Bool := x.testBit i

/-- The integer square root's floor, by bisection on the bits of the result: `k` bits. -/
def isqrtBits : Nat → Nat → Nat → Nat
  | 0, _, r => r
  | k + 1, x, r =>
    let t := r + 2 ^ k
    isqrtBits k x (if t * t ≤ x then t else r)

/-- CRC over bytes in reflected form, width 32: polynomial `poly` already reflected. -/
def crcByteR (poly : Nat) (s : Nat) (b : Byte) : Nat :=
  (List.range 8).foldl (fun s _ => if s % 2 = 1 then (s / 2) ^^^ poly else s / 2) (s ^^^ b.toNat)

/-- CRC-32C by R95: reflected, initial value and final xor all ones. -/
def crc32c (bs : List Byte) : Nat :=
  bs.foldl (crcByteR 0x82F63B78) 0xFFFFFFFF ^^^ 0xFFFFFFFF

end Sys2Proof.Machine
end

