-- ==== Sys2Proof/Machine/Table.lean ====
section
/-!
DEFINITION. Sparse tables in one canonical form: pairs of a key and a value, keys strictly
rising, and no entry equal to the key's default. Registers, memory bytes and the instances of
every block are held this way, so equal contents are equal data.
-/
namespace Sys2Proof.Machine

/-- A sparse table from natural-number keys. -/
abbrev Tbl (α : Type) := List (Nat × α)

/-- The entry of a key, if listed. -/
def tblFind {α : Type} : Tbl α → Nat → Option α
  | [], _ => none
  | (k', v) :: t, k => if k' = k then some v else tblFind t k

/-- The value of a key; an unlisted key has its default. -/
def tblGet {α : Type} (d : α) (t : Tbl α) (k : Nat) : α := (tblFind t k).getD d

/-- A table without a key. -/
def tblErase {α : Type} : Tbl α → Nat → Tbl α
  | [], _ => []
  | (k', v) :: t, k => if k' = k then tblErase t k else (k', v) :: tblErase t k

/-- A table with a pair put in before the first larger key. -/
def tblInsert {α : Type} : Tbl α → Nat → α → Tbl α
  | [], k, v => [(k, v)]
  | (k', v') :: t, k, v => if k < k' then (k, v) :: (k', v') :: t else (k', v') :: tblInsert t k v

/-- A table with a key set: writing the default removes the entry. -/
def tblSet {α : Type} [DecidableEq α] (d : α) (t : Tbl α) (k : Nat) (v : α) : Tbl α :=
  if v = d then tblErase t k else tblInsert (tblErase t k) k v

/-- Whether the keys rise strictly and each is at least `lo`. -/
def tblRising {α : Type} : Nat → Tbl α → Bool
  | _, [] => true
  | lo, (k, _) :: t => lo ≤ k && tblRising (k + 1) t

/-- The canonical form: keys strictly rising, no entry at its key's default. -/
def tblWf {α : Type} [DecidableEq α] (d : Nat → α) (t : Tbl α) : Bool :=
  tblRising 0 t && t.all fun e => e.2 ≠ d e.1

end Sys2Proof.Machine
end

