-- ==== Sys2Proof/Machine/AngState.lean ====
section
/-!
DEFINITION. State of ANG beside the register file: the shafts with their segments, residuals and
pending samples (R75 to R84), stamp-to-angle slots (R86) and angle events (R87 to R93).
Times are line times in 2^-16 ns; an update instant is its number of microseconds.
-/
namespace Sys2Proof.Machine

/-- Shaft states in the order of their codes (R102). -/
inductive ShSt where
  | idle | follow | master | coast | lost
  deriving DecidableEq, Repr

/-- The STATE code of R102. -/
def ShSt.code : ShSt → Nat
  | .idle => 0 | .follow => 1 | .master => 2 | .coast => 3 | .lost => 4

/-- The commands of ANG_SHn_CMD (R81). -/
inductive ShCmd where
  | follow | master | idle
  deriving DecidableEq, Repr

/-- An angle reference sample; the angle is modulo 2^64 (R17). -/
structure Sample where
  tv : Nat
  th : Nat
  v : Int
  a : Int
  quality : Nat
  domain : Nat
  deriving DecidableEq, Repr

/-- A segment of a shaft's history: the extrapolation values, the line time at which it began,
and the residual from each interval at which it changed (R75, R76, R86). -/
structure Seg where
  start : Nat
  tv : Nat
  th : Nat
  v : Int
  a : Int
  es : List (Nat × Int)
  deriving DecidableEq, Repr

/-- A line shaft. `segs` has the newest segment first, at most 64. -/
structure Shaft where
  st : ShSt
  adoptWait : Bool
  segs : List Seg
  /-- E_k of R76. -/
  e : Int
  /-- Pending samples, ordered by valid time. -/
  pend : List Sample
  /-- Valid time of the last sample activated since the shaft left IDLE (R79). -/
  lastTv : Option Nat
  /-- The update instant at which the REFTO or COASTLIM timer was started. -/
  timer : Nat
  /-- Commands with the update instant at which they act (R81). -/
  cmds : List (Nat × ShCmd)
  /-- ANG_SHn_ANG and ANG_SHn_VEL as last shown. -/
  ang : Nat
  vel : Int
  /-- Whether MASTER was entered from COAST or LOST (R80). -/
  takeover : Bool
  /-- Profile source: velocity, angle and valid time of the previous sample (R83). -/
  mv : Int
  mth : Nat
  mtv : Nat
  ma : Int
  /-- Axis source: ACTPOS and update instant that the previous sample used (R83). -/
  mp : Int
  mu : Nat
  /-- The generation time of the last sample, in microseconds plus 1; 0 for none. -/
  lastGen : Nat
  outNew : Bool
  deriving DecidableEq, Repr

def Shaft.reset : Shaft :=
  ⟨.idle, false, [], 0, [], none, 0, [], 0, 0, false, 0, 0, 0, 0, 0, 0, 0, false⟩

/-- A stamp-to-angle slot's conversion in progress: its result code and angle (R86). -/
structure S2a where
  code : Nat
  res : Nat
  deriving DecidableEq, Repr

/-- An angle event's configuration (R87, R88, R91). -/
structure AeCfg where
  cfg : W32
  act : W32
  pos : Nat
  period : Nat
  deriving DecidableEq, Repr

def AeCfg.reset : AeCfg := ⟨0, 0, 0, 0⟩

/-- A committed firing: the event, its time in quarter-ns of line time, and the position P and the actions with
which it was found (R88, R89, R92). -/
structure Firing where
  ae : Nat
  tc4 : Nat
  pos : Nat
  act : W32
  deriving DecidableEq, Repr

/-- An angle event as the evaluation of the next interval sees it: the configuration in force, P
as REPEAT moves it, the side, whether it is pending, CFGERR; writes with the instant at which
they take effect and whether they wrote CFG (R92); and the bits CFGERR, SIDE, PEND that STAT
shows in the present interval, with bit 4 set while a one-shot event awaits its firing. -/
structure AngEvent where
  force : AeCfg
  p : Nat
  beyond : Bool
  pend : Bool
  cfgErr : Bool
  writes : List (Nat × Bool × AeCfg)
  stat : Nat
  deriving DecidableEq, Repr

def AngEvent.reset : AngEvent := ⟨.reset, 0, false, false, false, [], 0⟩

structure AngState where
  /-- The last update instant performed, in microseconds of line time. -/
  u : Nat
  shafts : Tbl Shaft
  s2a : Tbl (Option S2a)
  events : Tbl AngEvent
  /-- Committed firings in order of time (R89). -/
  firings : List Firing
  /-- Per shaft, crossings found beyond four and carried into the next interval (R90). -/
  carried : Tbl (List Firing)
  /-- The last echo reply that the station has made, from its EtherType on (R98). -/
  echo : Option (List Byte)
  deriving DecidableEq, Repr

def AngState.reset : AngState := ⟨0, [], [], [], [], [], none⟩

end Sys2Proof.Machine
end

