-- ==== Sys2Proof/Machine/CanState.lean ====
section
/-!
DEFINITION. State of the CAN channels beside their registers and message memory: the frame in transmission
(R180), the receive-all ring and its slots (R184, R185), the memory path's frozen unit (R183, R374), and
time-triggered operation with the mode agreement and the guardian (R189 to R203).
-/
namespace Sys2Proof.Machine

/-- What a channel sends: an object, a null frame in an object's place (R191), a reference message
with its cycle count and the global time it carries in 1/128 NTU (R198), a veto (R200). -/
inductive CanSend where
  | object (k : Nat) | null (k : Nat) | reference (cycle mark : Nat) | veto
  deriving DecidableEq, Repr

/-- A committed frame (R180): what it is, its contents, the line time of its start, a late cancel
(R181), the end of its window in line time where it has one (R191, R192), and whether that is an exclusive one. -/
structure CanTx where
  what : CanSend
  frame : CanFrame
  sof : Nat
  late : Bool
  close : Option Nat
  exclusive : Bool
  deriving DecidableEq, Repr

/-- Units still to be written for a ring entry (R184), with its XL slot. -/
structure CanStore where
  units : List (Nat × List Byte)
  slot : Option Nat
  deriving DecidableEq, Repr

/-- A frozen memory access of a channel (R374): the read of an XL payload unit, its address and length, or ring
writes. -/
inductive CanFrozen where
  | xlRead (a len : Nat) | store (s : CanStore)
  deriving DecidableEq, Repr

/-- An open window (R192, R193): its object, its end in line time, whether its frame has come. -/
structure CanWindow where
  obj : Nat
  close : Nat
  taken : Bool
  deriving DecidableEq, Repr

/-- A frame that waits for bus idle in an exclusive window (R191): the object, whether a null frame stands
in, the line time at which it may start no more, the end of the window. -/
structure CanWait where
  obj : Nat
  null : Bool
  deadline : Nat
  close : Nat
  deriving DecidableEq, Repr

structure CanChan where
  tx : Option CanTx
  /-- What this node was sending when the error frame on the bus began, until the next frame starts (R186, R187). -/
  erred : Option CanSend
  integrating : Bool
  /-- EN was cleared during a frame (R174). -/
  leaving : Bool
  /-- The XL slot of each ring entry held, oldest first (R185). -/
  slots : List (Option Nat)
  nextSlot : Nat
  ringSeq : Nat
  lostBefore : Bool
  frozen : Option CanFrozen
  /-- The reference mark, in line time (R189); before the first one, the start of synchronisation (R196). -/
  mark : Nat
  /-- Reference messages since synchronisation began (R189). -/
  refs : Nat
  /-- Global time at the reference mark, in 1/128 NTU, and its rate since: so many of them in so many 2^-16 ns (R189);
  0 in 0 is the channel's own rate. -/
  globalAt : Nat
  rateNum : Nat
  rateDen : Nat
  /-- Trigger entries that have acted in this basic cycle. -/
  fired : List Nat
  arb : Option CanWindow
  checks : List CanWindow
  wait : Option CanWait
  /-- Basic cycles counted from GWBASE (R197). -/
  gwCycle : Nat
  modeReq : Option Nat
  vetoSeen : Bool
  vetoDue : Option (Nat × Nat)
  /-- The agreement has been advanced for the matrix cycle whose first reference message this master sends next, or a
  matrix cycle has started and has not been acted on (others). -/
  advanced : Bool
  matrixStart : Bool
  /-- COMMIT has been received in this matrix cycle, and the mode that a COMMIT of the previous one brings (R201). -/
  committed : Bool
  commitTo : Option Nat
  /-- The priority of the master whose reference message was the last (R196). -/
  masterPrio : Option Nat
  gdMark : Nat
  gdCycle : Nat
  deriving DecidableEq, Repr

def CanChan.reset : CanChan :=
  ⟨none, none, false, false, [], 0, 0, false, none, 0, 0, 0, 0, 0, [], none, [], none, 0, none, false, none, false, false,
    false, none, none, 0, 0⟩

end Sys2Proof.Machine
end

