-- ==== Sys2Proof/Machine/CoreState.lean ====
section
/-!
DEFINITION. State of the Dwevel cores: contexts with their registers, flags and CSRs (R215, R216, R230, R238),
the F state of a context (R244, R245, R248), and a core's freeze (R236).
-/
namespace Sys2Proof.Machine

/-- The states of a context (R230). -/
inductive CtxSt where
  | ready | wait | halt | frozen
  deriving DecidableEq, Repr

/-- The CTXSTATE code of R267. -/
def CtxSt.code : CtxSt → Nat
  | .ready => 0 | .wait => 1 | .halt => 2 | .frozen => 3

/-- A context: G1 to G63, the CSRs of R238, the PC, its state and the one before a freeze, the line time at which a
WAIT was issued, the words of a bundle in WAIT or in flight, whether a bundle is in flight (R231), and the F state:
accumulator (the bit read first is first), TSR fraction, sticky conditions. -/
structure Ctx where
  regs : Tbl W32
  flags : W32
  tmask : W32
  tvec : W32
  tpc : W32
  tcause : W32
  tinfo : W32
  tstat : W32
  wake : W32
  link : W32
  bcnt : Nat
  bcntHi : W32
  pc : Nat
  st : CtxSt
  saved : CtxSt
  waitSince : Nat
  held : List W32
  inFlight : Bool
  acc : List Bool
  frac : Nat
  fcond : Nat
  deriving DecidableEq, Repr

def Ctx.reset : Ctx :=
  ⟨[], 0, 0, 0, 0, 0, 0, 0, 0, 0, 0, 0, 0, .halt, .halt, 0, [], false, [], 0, 0⟩

/-- The cores: contexts by core × 8 + context, the offending context of each frozen core, whether SUP has
stopped (R42, R235); for each engine the watchdog's start, a clear in progress and the cycle timer's next instant. -/
structure CoreState where
  ctxs : Tbl Ctx
  frozen : Tbl (Option Nat)
  supStopped : Bool
  wdStart : Tbl Nat
  clearing : Tbl Bool
  cycNext : Tbl Nat
  deriving DecidableEq, Repr

def CoreState.reset : CoreState := ⟨[], [], false, [], [], []⟩

end Sys2Proof.Machine
end

