-- ==== Sys2Proof/Machine/FabricState.lean ====
section
/-!
DEFINITION. State of the fabric's own services beside the register file: event records and
queues (R397 to R401), mailbox timers (R392, R393), the memory system (R27 to R30, R356 to R371),
the freeze queue (R374, R375) and the data movers (R377 to R382).
-/
namespace Sys2Proof.Machine

/-- What the last fabric access answered to its master. -/
inductive BusResult where
  /-- No access has been made since reset. -/
  | idle
  /-- The access was performed; a read delivered this value, a write 0. -/
  | ok (data : Nat)
  /-- The access was refused with a bus error (R11, R13). -/
  | busError
  /-- The access named an SRAM bank that its master does not own (R27, R358). -/
  | ownership
  /-- The access met an uncorrectable error (R363, R364). -/
  | ecc
  /-- No segment of the master grants the access (R372). -/
  | segment
  /-- The access waits for the completions of an outbound read (R532). -/
  | waiting
  deriving DecidableEq, Repr

/-- A raised event that has not been delivered: R397's source, code and line time (in 2^-16 ns),
with the route in force when it was raised (R401). -/
structure RaisedEvent where
  src : Nat
  code : Nat
  lt : Nat
  route : W32
  deriving DecidableEq, Repr

/-- A record of an event queue (R400). -/
structure EvRecord where
  lt : Nat
  seq : Nat
  lostBefore : Bool
  code : Nat
  src : Nat
  deriving DecidableEq, Repr

/-- A record queue EQ0 to EQ7 (R400). -/
structure EvQueue where
  recs : List EvRecord
  seq : Nat
  lostBefore : Bool
  deriving DecidableEq, Repr

def EvQueue.reset : EvQueue := ⟨[], 0, false⟩

/-- The event fabric: events raised and not yet delivered, oldest first, the record queues, and
the MSI-X messages not yet sent, oldest first (R399). -/
structure EvtState where
  raised : List RaisedEvent
  queues : Tbl EvQueue
  msix : List Nat
  deriving DecidableEq, Repr

def EvtState.reset : EvtState := ⟨[], [], []⟩

/-- A mailbox's timeout: the line time of the last GO, while it runs (R392). -/
structure MbTimer where
  goLt : Option Nat
  deriving DecidableEq, Repr

def MbTimer.reset : MbTimer := ⟨none⟩

/-- A pair timer (R393): the line time at which the second mailbox became FULL, and whether the
limit has been reported. -/
structure PairTimer where
  start : Option Nat
  done : Bool
  deriving DecidableEq, Repr

def PairTimer.reset : PairTimer := ⟨none, false⟩

/-- Mailbox timers by mailbox, and pair timers by the lower mailbox of the pair. -/
structure MbxState where
  timers : Tbl MbTimer
  pairs : Tbl PairTimer
  deriving DecidableEq, Repr

def MbxState.reset : MbxState := ⟨[], []⟩

/-- A handover that has been requested and waits for the writer's earlier accesses (R28). -/
structure Handover where
  bank : Nat
  og : Nat
  master : Nat
  deriving DecidableEq, Repr

/-- A march run in progress (R367): the banks under test and the options taken at GO; the address of the
access that has frozen the engine (R374). -/
structure MarchRun where
  banks : List Nat
  alg : Nat
  preserve : Bool
  repair : Bool
  frozen : Option Nat
  deriving DecidableEq, Repr

/-- The memory system: requested handovers, the atomic port's copies (R359), words with a
correctable and with an uncorrectable error (R363), the march run, the spare rows in use
(bank, spare, row; R370), banks whose contents became undefined (R368), the scrubber's line. -/
structure MemState where
  handovers : List Handover
  atAddr : Tbl W32
  atOpnd : Tbl W32
  ceWords : List Nat
  ueWords : List Nat
  march : Option MarchRun
  spares : List (Nat × Nat × Nat)
  undef : Tbl Nat
  scrubLine : Nat
  /-- The line time of the scrubber's last read (R365). -/
  scrubAt : Nat
  deriving DecidableEq, Repr

def MemState.reset : MemState := ⟨[], [], [], [], [], none, [], [], 0, 0⟩

/-- An entry of the freeze queue (R375): the frozen unit, its master, the segment (16 when none
is named), the offset or address, the access's size and rights, and the line time. -/
structure FreezeEntry where
  unit : Nat
  master : Nat
  seg : Nat
  ofs : Nat
  size : Nat
  atomic : Bool
  rwx : Nat
  lt : Nat
  deriving DecidableEq, Repr

/-- The states of a data mover (R386). -/
inductive XdSt where
  | idle | armed | active | error | frozen
  deriving DecidableEq, Repr

/-- A descriptor as the channel read it (R377). -/
structure XdDesc where
  irq : Bool
  chain : Bool
  trig : Bool
  cven : Bool
  cv : Nat
  smode : Nat
  dmode : Nat
  pf : Nat
  len : Nat
  src : Nat
  dst : Nat
  next : Nat
  tags : Nat
  deriving DecidableEq, Repr

def XdDesc.reset : XdDesc := ⟨false, false, false, false, 0, 0, 0, 0, 0, 0, 0, 0, 0⟩

/-- What a channel does next while ACTIVE or FROZEN: read a descriptor, move a unit, or write
the status words with a result (R378 to R380). -/
inductive XdPhase where
  | fetch | move | status (result : Nat)
  deriving DecidableEq, Repr

/-- A data mover (R377 to R382): its state, the descriptor in progress, the bytes moved, the
time trigger, the start of the wait in ARMED with the limit taken then, and a STOP request. -/
structure XdChan where
  st : XdSt
  phase : XdPhase
  desc : XdDesc
  moved : Nat
  pend : Bool
  timeArmed : Bool
  armedAt : Nat
  armedLimit : Nat
  stopReq : Bool
  /-- The words a unit has popped from its pack FIFO, kept for a unit that is made again. -/
  popped : List (Nat × Nat)
  deriving DecidableEq, Repr

def XdChan.reset : XdChan := ⟨.idle, .fetch, .reset, 0, false, false, 0, 0, false, []⟩

/-- The data movers and the freeze queue, oldest first; the channel served last (R382). -/
structure XdmState where
  chans : Tbl XdChan
  freezes : List FreezeEntry
  lastServed : Nat
  deriving DecidableEq, Repr

def XdmState.reset : XdmState := ⟨[], [], 63⟩

end Sys2Proof.Machine
end

