-- ==== Sys2Proof/Machine/HostState.lean ====
section
/-!
DEFINITION. State of HIF and of supervisor firmware's command service (R413 to R436, R532), of SEC (R438 to R461)
and EVR (R462 to R467), of PWR and SYS (R473 to R493), and of TST (R519 to R526), beside their registers.
-/
namespace Sys2Proof.Machine

/-! ### SEC -/

/-- The fuses that can be read or that rule an operation (R438): digests of 48 bytes by slot (empty where not
programmed), revocation bits (vendor [3:0], owner [7:4]), rollback counters by image kind. -/
structure Fuses where
  serial : W64
  vendorId : BitVec 16
  speed : BitVec 4
  vendor : Tbl (List Byte)
  owner : Tbl (List Byte)
  revoked : BitVec 8
  counters : Tbl Nat
  ownCode : Bool
  lockDbg : Bool
  deriving DecidableEq, Repr

/-- Fuses of the model's choice: the spec gives no value of a device's fuses but that the speed grade is one of
1 to 8 (R533; DESIGN CHOICE, log entry 51). -/
def Fuses.reset : Fuses := ⟨0, 0, 1, [], [], 0, [], false, false⟩

/-- A password credential (R452, R457). -/
structure Password where
  salt : List Byte
  iters : W32
  verifier : List Byte
  deriving DecidableEq, Repr

/-- An open session (R452 to R454): its credential, nonces and the 8 parameter bytes of OPEN_SESSION, from which its
keys follow by R453; whether it is proven, the raw counter at its opening, the last accepted sequence, its
attestation report (empty for none). -/
structure Session where
  role : Nat
  cred : List Byte
  nh : List Byte
  nd : List Byte
  params : List Byte
  proven : Bool
  openedAt : Nat
  lastSeq : Nat
  report : List Byte
  deriving DecidableEq, Repr

/-- A fuse operation in progress (R439): the RESULT that its own checks give it, and its slot. -/
structure FuseOp where
  op : Nat
  result : Nat
  slot : Nat
  deriving DecidableEq, Repr

/-- What a SEC job still has to write: output from an address on with its whole length, or its status word. -/
inductive SecPend where
  | out (a : Nat) (rest : List Byte) (total : Nat)
  | word (status written : Nat)
  deriving DecidableEq, Repr

/-- A SEC job in progress (R458): its descriptor's address, whether an access has frozen SEC DMA (R374), and
what it still has to write once it has computed. -/
structure SecJob where
  desc : Nat
  frozen : Bool
  pend : Option SecPend
  deriving DecidableEq, Repr

/-- SEC DMA placing the sections of an engine image (R258, R445): the addresses and bytes still to write, whether an
access has frozen SEC DMA (R374), whether a write was refused. -/
structure SecLoad where
  rest : List (Nat × List Byte)
  frozen : Bool
  failed : Bool
  deriving DecidableEq, Repr

/-- SEC. Key credentials are listed by role × 4 + slot (empty for none). -/
structure SecState where
  fuses : Fuses
  keys : Tbl (List Byte)
  passwords : Tbl (Option Password)
  claimKey : List Byte
  fails : Tbl Nat
  locks : Tbl (Option Nat)
  sessions : Tbl (Option Session)
  fuseOp : Option FuseOp
  job : Option SecJob
  trng : List W32
  /-- The counter to which the running supervisor image will raise its kind's fuse counter (R447). -/
  supAdvance : Option Nat
  load : Option SecLoad
  deriving DecidableEq, Repr

def SecState.reset : SecState :=
  ⟨.reset, [], [], List.replicate 48 0, [], [], [], none, none, [], none, none⟩

/-! ### EVR -/

/-- What a submitter says of a record (R462, R467). -/
structure EvrRec where
  sev : Nat
  src : Nat
  code : W32
  data : List Byte
  deriving DecidableEq, Repr

/-- What EVR is busy with (R464, R466, R467). -/
inductive EvrOp where
  | scan | store (r : EvrRec) | clear
  deriving DecidableEq, Repr

/-- EVR: the operation in progress, the next sequence, the counter block's generation and whether its next copy is B,
and the raw counter at which the present operating second ends (R463). -/
structure EvrState where
  op : Option EvrOp
  nextSeq : Nat
  gen : Nat
  copyB : Bool
  secAt : Nat
  deriving DecidableEq, Repr

def EvrState.reset : EvrState := ⟨some .scan, 1, 0, false, 1000000000⟩

/-! ### HIF -/

/-- The way a command came and its replies go (R422, R426). -/
inductive CmdPath where
  | ring | mailbox
  deriving DecidableEq, Repr

/-- A command that has passed the checks of R428, or the header of one that has not. -/
structure Cmd where
  path : CmdPath
  op : Nat
  seq : Nat
  slot : Nat
  words : List W32
  deriving DecidableEq, Repr

/-- A reply that has not been posted: the path it goes and its packet with its tag (R425, R427). -/
structure Reply where
  path : CmdPath
  bytes : List Byte
  deriving DecidableEq, Repr

/-- What IMAGE_INFO and ATTEST say of an image (R450). -/
structure ImageInfo where
  kind : Nat
  inst : Nat
  root : Nat
  slot : Nat
  counter : Nat
  state : Nat
  version : W32
  hash : List Byte
  deriving DecidableEq, Repr

def ImageInfo.reset : ImageInfo := ⟨0, 0, 0, 0, 0, 0, 0, List.replicate 48 0⟩

/-- A record of a resource declaration (R443). -/
structure Decl where
  tag : Nat
  index : Nat
  v1 : W32
  v2 : W32
  v3 : W32
  deriving DecidableEq, Repr

/-- What a command answered STARTED waits for (R431): an answer already known, or the end of its operation. -/
inductive AsyncWait where
  | known (status detail : Nat) (words : List W32)
  | gateChange (port : Nat)
  | axis (n : Nat)
  | valueChange (task : Nat)
  | swap (handle : Nat)
  | load (handle : Nat) (info : ImageInfo) (decls : List Decl) (advance burnt : Bool)
  | reload (engine : Nat)
  | recordClear
  | march
  | prbs (link endRaw : Nat) (gate : Option W32)
  | loopback (unit loop frames : Nat)
  deriving DecidableEq, Repr

structure Started where
  cmd : Cmd
  wait : AsyncWait
  deriving DecidableEq, Repr

/-- A load handle (R433): kind, instance, length, staging address, bytes loaded, whether committed, whether its
program has been placed. -/
structure LoadHandle where
  kind : Nat
  inst : W32
  len : Nat
  addr : Nat
  loaded : Nat
  committed : Bool
  deriving DecidableEq, Repr

/-- A control program placed in memory (R433, R442): its base, map and entries, task table, banks. -/
structure Program where
  handle : Nat
  base : Nat
  map : Nat
  mapN : Nat
  task : Nat
  banks : W32
  deriving DecidableEq, Repr

/-- An outbound read (R532): master, address, bytes, the raw counter when it was sent; its data, or none where it
was refused, once its completions have come. -/
structure ObRead where
  m : Nat
  a : Nat
  n : Nat
  start : Nat
  result : Option (Option (List Byte))
  deriving DecidableEq, Repr

/-- HIF and the command service: the MSI-X table and pending bits (R415), the last message and the last memory write
sent to the host, outbound reads, the words the last host access delivered, the command in service, replies to post,
started commands, load handles, images by attestation entry (R450), engine declarations and the staging address and
length of each engine's image, the active and the staged program, the words PORT_CONFIG last gave for each port,
whether the host path has been set up (R504). -/
structure HifState where
  msix : Tbl W32
  pba : Nat
  message : Option (Nat × W32)
  posted : Option (Nat × List Byte)
  ob : List ObRead
  out : List W32
  cur : Option Cmd
  replies : List Reply
  started : List Started
  handles : Tbl (Option LoadHandle)
  images : Tbl ImageInfo
  decls : Tbl (List Decl)
  sources : Tbl (Nat × Nat)
  active : Option Program
  staged : Option Program
  ports : Tbl (List W32)
  pathUp : Bool
  deriving DecidableEq, Repr

def HifState.reset : HifState :=
  ⟨[], 0, none, none, [], [], none, [], [], [], [], [], [], none, none, [], false⟩

/-! ### PWR and SYS -/

/-- Where the board-rail sequencer stands (R478, R479). -/
inductive SeqPhase where
  | idle | delay (k : Nat) | waitPg (k : Nat) | retry | done
  deriving DecidableEq, Repr

/-- The watchdog (R488): not running before BOOT, running since a raw count, or stopped with the milliseconds left. -/
inductive WdState where
  | off | running (since : Nat) (half : Bool) | stopped (left : Nat)
  deriving DecidableEq, Repr

/-- PWR and SYS: the sequencer, the levels of PSEQ_EN and PSEQ_PG by step, whether the buck runs, the BUCK_DIS level,
whether VDD_CORE moves toward a new target, the target that it left in mV and the raw count at which it began
(R477), the watchdog, the cause of the reset in progress (a bit of R487) with SUPSTOP, whether this RESET followed OFF,
the raw count at which each unit being powered up was ungated, and the raw count since which the boot ROM has waited for
the host path (R492). -/
structure PwrState where
  seq : SeqPhase
  en : BitVec 4
  pg : BitVec 4
  buckOn : Bool
  buckDis : Bool
  avsMoving : Bool
  avsFrom : Nat
  avsAt : Nat
  wd : WdState
  cause : Nat
  supStop : Bool
  fromOff : Bool
  upAt : Tbl Nat
  hostWait : Option Nat
  deriving DecidableEq, Repr

/-- After the first power-up (R489): the device is in RESET, and the sequencer has not begun. -/
def PwrState.reset : PwrState := ⟨.idle, 0, 0, false, false, false, 0, 0, .off, 0, false, true, [], none⟩

/-! ### TST -/

/-- A PRBS link (R519, R520): the generator's register, the checker's register and how many bits it has, the run of
correct and of wrong predictions, the checked bits and errors of the present 1,024, and a bit to invert. -/
structure Prbs where
  gen : Nat
  reg : Nat
  have_ : Nat
  good : Nat
  bad : Nat
  bits : Nat
  errs : Nat
  inject : Bool
  deriving DecidableEq, Repr

def Prbs.reset : Prbs := ⟨0, 0, 0, 0, 0, 0, 0, false⟩

/-- TST: the PRBS links, the TAP's instruction, the DEBUG register's captured value, and a frozen debug
access (R523 to R526). -/
structure TstState where
  prbs : Tbl Prbs
  ir : Nat
  dr : Nat
  frozen : Option Nat
  deriving DecidableEq, Repr

def TstState.reset : TstState := ⟨[], 2, 0, none⟩

end Sys2Proof.Machine
end

