-- ==== Sys2Proof/Machine/MotState.lean ====
section
/-!
DEFINITION. State of MOT beside its registers: axes (R299 to R315), step generators (R317, R318), decoders
(R320). Positions in counts, times of plans in µs; rationals carry the planner's full precision (R300).
-/
namespace Sys2Proof.Machine

/-- Position, velocity and acceleration, in counts and µs. -/
structure Motion where
  p : Rat
  v : Rat
  a : Rat
  deriving DecidableEq, Repr

def Motion.rest (p : Rat) : Motion := ⟨p, 0, 0⟩

/-- A plan: its start and update instant, segments of whole ns at constant jerk, and the state in which the
trimmed plan ends (R304). -/
structure MotPlan where
  t0 : Nat
  start : Motion
  segs : List (Nat × Rat)
  fin : Motion
  deriving DecidableEq, Repr

/-- A plan that stays where it is. -/
def MotPlan.hold (p : Rat) : MotPlan := ⟨0, .rest p, [], .rest p⟩

/-- Limits of a plan (R304). -/
structure MotLim where
  vmax : Rat
  amax : Rat
  dmax : Rat
  jmax : Rat
  deriving DecidableEq, Repr

def MotLim.zero : MotLim := ⟨0, 0, 0, 0⟩

/-- A registered command: when it was registered (µs), the word written, and the values it takes with it
(R301, R305): TGT, VTGT, limits, GEARNUM, GEARDEN. -/
structure MotCmd where
  at_ : Nat
  word : W32
  tgt : Int
  vtgt : Int
  lim : MotLim
  num : Int
  den : Nat
  deriving DecidableEq, Repr

/-- An axis. `plan` is the profile, or the residual's plan while `bound` to a shaft; `absol`: the residual
is planned to 0; `cur` and `nxt`: the commands of the last and of the next update instant; `hist`: the last 256
command positions in 2^-16 count, newest first; `begun`: the update instant whose feedback and faults are done. -/
structure AxisRun where
  plan : MotPlan
  bound : Bool
  cam : Bool
  absol : Bool
  theta0 : Nat
  num : Int
  den : Nat
  lim : MotLim
  cur : Motion
  nxt : Motion
  cmds : List MotCmd
  xprev : Option Nat
  lastFb : Nat
  devCnt : Nat
  begun : Nat
  hist : List Int
  streamCnt : Nat
  deriving DecidableEq, Repr

def AxisRun.reset : AxisRun where
  plan := .hold 0
  bound := false
  cam := false
  absol := false
  theta0 := 0
  num := 0
  den := 1
  lim := .zero
  cur := .rest 0
  nxt := .rest 0
  cmds := []
  xprev := none
  lastFb := 0
  devCnt := 0
  begun := 0
  hist := []
  streamCnt := 0

/-- A step generator: the direction its DIR pin shows (true forward), when that last changed, when its last step
began, and when that step was due, in 4 ns units of line time (R317, R318). -/
structure StepGen where
  fwd : Bool
  dirAt : Nat
  lastStep : Option Nat
  lastDue : Nat
  deriving DecidableEq, Repr

def StepGen.reset : StepGen := ⟨true, 0, none, 0⟩

/-- A quadrature decoder: the levels it last accepted on A, B and Z, and the line time of its last counted
transition in ns (R320). -/
structure QuadDec where
  a : Bool
  b : Bool
  z : Bool
  last : Option Nat
  deriving DecidableEq, Repr

def QuadDec.reset : QuadDec := ⟨false, false, false, none⟩

structure MotState where
  /-- The last update instant performed, in µs of line time. -/
  u : Nat
  axes : Tbl AxisRun
  steps : Tbl StepGen
  quads : Tbl QuadDec
  /-- The cam-table read path is frozen at this address (R315, R374). -/
  camFrozen : Option Nat
  deriving DecidableEq, Repr

def MotState.reset : MotState := ⟨0, [], [], [], none⟩

end Sys2Proof.Machine
end

