-- ==== Sys2Proof/Machine/SkpState.lean ====
section
/-!
DEFINITION. State of SKP beside its registers, in which D, C0, C1, SHI, SHO, NI, NO, PC, TMOF, the interrupt
lines and the lane latches live (R333): feed FIFOs (R340), waits (R337), clocks (R331), pack FIFOs (R346 to R351).
-/
namespace Sys2Proof.Machine

/-- A Skipper: its feed FIFO, oldest first; the start of its wait in quarter-ticks of the raw counter; the raw
tick at which its clock began with EN and the Skipper clocks used since. -/
structure SkRun where
  feed : List W32
  waitStart : Nat
  enAt : Nat
  clk : Nat
  /-- The clock at whose end a cleared EN stops the Skipper (R342). -/
  stopClk : Nat
  /-- The raw tick at which a word last came to the empty feed (R341). -/
  fedAt : Nat
  /-- The raw tick at which the lane latches were last written (R332). -/
  latchAt : Nat
  deriving DecidableEq, Repr

def SkRun.reset : SkRun := ⟨[], 0, 0, 0, 0, 0, 0⟩

/-- A committed word with its tag (R347). -/
structure PackWord where
  data : Nat
  tag : Nat
  deriving DecidableEq, Repr

/-- A pack FIFO: committed words, oldest first; the word in assembly and its bytes; the last word popped; SEQ;
read credits outstanding; the raw tick at which a full FIFO last freed a word (R341). -/
structure PackFifo where
  words : List PackWord
  asm : Nat
  asmBytes : Nat
  last : PackWord
  seq : Nat
  credits : Nat
  freed : Nat
  deriving DecidableEq, Repr

def PackFifo.reset : PackFifo := ⟨[], 0, 0, ⟨0, 0⟩, 0, 0, 0⟩

structure SkpState where
  sk : Tbl SkRun
  pf : Tbl PackFifo
  /-- The raw tick at which interrupt line i of SKn was set, at n × 8 + i (R332). -/
  lineAt : Tbl Nat
  /-- The raw tick at which flag i of SCc was set, at c × 8 + i (R332). -/
  flagAt : Tbl Nat
  deriving DecidableEq, Repr

def SkpState.reset : SkpState := ⟨[], [], [], []⟩

/-- Levels that the board puts on the GPIO balls, one bit per pin (R503; DESIGN CHOICE, log entry 43). -/
structure PinState where
  ext : Nat
  /-- Balls that nothing on the board drives (R503). -/
  undriven : Nat
  deriving DecidableEq, Repr

/-- The board drives a ball to a level. -/
def PinState.level (p : PinState) (g : Nat) (b : Bool) : PinState :=
  ⟨p.ext - b2n (p.ext.testBit g) * 2 ^ g + b2n b * 2 ^ g, p.undriven - b2n (p.undriven.testBit g) * 2 ^ g⟩

def PinState.reset : PinState := ⟨0, 0⟩

end Sys2Proof.Machine
end

