-- ==== Sys2Proof/Machine/TmuState.lean ====
section
/-!
DEFINITION. State of TMU beside the register file: the raw counter (R43), the tracked domains (R44 to
R47), the handover term (R52), the egress stamp queues (R61), the stamp channels and ring (R64
to R67) and the timed outputs (R68 to R70).
-/
namespace Sys2Proof.Machine

/-- Domain states in the order of their codes (R73). -/
inductive DomSt where
  | idle | acquire | locked | holdover | failed
  deriving DecidableEq, Repr

/-- The STATE code of R73. -/
def DomSt.code : DomSt → Nat
  | .idle => 0 | .acquire => 1 | .locked => 2 | .holdover => 3 | .failed => 4

/-- A tracked domain. `d`, `r`, `t`, `p` are D_x, R_x, T_x, P_x of R44 in 2^-48 ns. -/
structure Domain where
  st : DomSt
  d : Int
  r : Int
  t : Int
  p : Int
  /-- The step accepted by R46 and not yet applied, in 2^-16 ns. -/
  step : Option Int
  /-- Adjustments committed since the last tick: they survive the clearing of P_x by R46. -/
  adjTick : Int
  stepped : Bool
  /-- Nanoseconds since the sync timer was started (R47). -/
  syncNs : Nat
  /-- Nanoseconds in HOLDOVER (R47). -/
  holdNs : Nat
  deriving DecidableEq, Repr

def Domain.reset : Domain := ⟨.idle, 0, 0, 0, 0, none, 0, false, 0, 0⟩

/-- A stamp record (R60): three 80-bit times in 2^-16 ns at one instant, and the tag. -/
structure Stamp where
  lt : Nat
  da : Nat
  db : Nat
  tag : Nat
  deriving DecidableEq, Repr

/-- An entry of the stamp ring (R66). -/
structure RingEntry where
  lt : Nat
  seq : Nat
  lostBefore : Bool
  rising : Bool
  ch : Nat
  deriving DecidableEq, Repr

/-- A stamp that waits out the 80 ns before it enters the ring (R66); `at4` is its instant in
quarter-ticks of the raw counter. -/
structure WaitingStamp where
  at4 : Nat
  lt : Nat
  rising : Bool
  ch : Nat
  deriving DecidableEq, Repr

/-- The schedule of an armed timed output (R68, R69); times in quarter-ns of line time. -/
structure ToSched where
  mode : Nat
  next : Nat
  width : Nat
  period : Nat
  level : Bool
  deriving DecidableEq, Repr

/-- A timed output: its schedule, the idle edge of a pulse in progress, and the level an edge
left (R68, R69). -/
structure ToChan where
  sched : Option ToSched
  pulse : Option Nat
  held : Option Bool
  deriving DecidableEq, Repr

def ToChan.reset : ToChan := ⟨none, none, none⟩

/-- An edge before those already noted, of which the ones of the last 2^20 quarter-ticks are kept: two of the longest
Skipper clocks (R331, R337). -/
def noteEdge (at4 : Nat) (l : List Nat) : List Nat := at4 :: l.filter fun e => decide (at4 < e + 2 ^ 20)

structure TmuState where
  raw : Nat
  domA : Domain
  domB : Domain
  /-- ACTIVE: whether domain B is the selected one (R52). -/
  activeB : Bool
  /-- H of R52, in 2^-48 ns. -/
  h : Int
  /-- Whether H has not yet reached zero since a switch (R55). -/
  handover : Bool
  /-- Line time in 2^-16 ns, as formed in the last tick (R52). -/
  lt : Nat
  egress : Tbl (List Stamp)
  /-- The edges that each stamp channel accepted, the last first, in quarter-ticks (R65, R337). -/
  tsEdges : Tbl (List Nat)
  waiting : List WaitingStamp
  ring : List RingEntry
  ringSeq : Nat
  ringLost : Bool
  tos : Tbl ToChan
  /-- The edges that each timed output placed, the last first, in quarter-ticks of the raw counter (R337). -/
  toEdges : Tbl (List Nat)
  deriving DecidableEq, Repr

def TmuState.reset : TmuState :=
  ⟨0, .reset, .reset, false, 0, false, 0, [], [], [], [], 0, false, [], []⟩

end Sys2Proof.Machine
end

