-- ==== Sys2Proof/Machine/SwxState.lean ====
section
/-!
DEFINITION. State of ETH and SWX beside the register file: frames in the shared buffer and their
copies (R140 to R149), frames in transmission and their back-off (R110, R111), LPI timing (R120 to
R122), verification (R115), gate lists (R152, R153), credits (R154), meters, stream gates and recovery
functions (R155 to R158), table contents (R165); and of the queues of R249 to R254.
-/
namespace Sys2Proof.Machine

/-- What a transmit descriptor asks for beside forwarding (R253): a stamp with its tag, a one-step
time of domain 0 LT, 1 D_A, 2 D_B, and the two byte offsets. -/
structure TxReq where
  stamp : Bool
  oneStep : Bool
  dom : Nat
  corrOfs : Nat
  tsOfs : Nat
  tag : Nat
  deriving DecidableEq, Repr

def TxReq.none : TxReq := ⟨false, false, 0, 0, 0, 0⟩

/-- A frame in the shared buffer (R140): its bytes before the FCS, its length as R107 defines it,
the ingress port (8 and 9 for SP8 and SP9), its stamp, the line time of its first peck. -/
structure Frame where
  data : List Byte
  len : Nat
  inPort : Nat
  stamp : Option Stamp
  arrival : Nat
  deriving DecidableEq, Repr

def Frame.reset : Frame := ⟨[], 0, 0, none, 0⟩

/-- One queued copy of a frame (R149), with its queue's own share of the metadata. -/
structure Copy where
  fid : Nat
  cls : Nat
  untag : Bool
  req : TxReq
  slot : Option Nat
  deriving DecidableEq, Repr

/-- A copy in transmission: the bytes sent, the stamp of this attempt, the line time at which its fragment in
transmission began, the bytes of the fragments before it (R115), collisions so far, the line time at which a back-off
ends, whether the first attempt waited, and whether its data is bad (R131). -/
structure TxFrame where
  copy : Copy
  data : List Byte
  stamp : Stamp
  started : Nat
  sent : Nat
  colls : Nat
  backoff : Option Nat
  deferred : Bool
  stomp : Bool
  deriving DecidableEq, Repr

/-- An entry of a gate list (R152, R165). -/
structure GclEntry where
  op : Nat
  gates : Nat
  interval : Nat
  deriving DecidableEq, Repr

/-- A gate-list configuration: entries, base in ns, cycle and extension (R153). -/
structure GclCfg where
  entries : List GclEntry
  base : Nat
  cycle : Nat
  ext : Nat
  deriving DecidableEq, Repr

/-- A change of a gate list that is pending (R153): the configuration, its change time and the line time of the
CHANGE write, both in ns. -/
structure GclChange where
  cfg : GclCfg
  time : Nat
  asked : Nat
  deriving DecidableEq, Repr

/-- A port's gate control (R152, R153): the operational configuration, the pending one, the cycle and entry in force
and the line time at which the entry took effect, the gate states, and hold. -/
structure Gcl where
  oper : Option GclCfg
  pending : Option GclChange
  cycle : Nat
  entry : Nat
  started : Bool
  since : Nat
  gates : Nat
  hold : Bool
  deriving DecidableEq, Repr

def Gcl.reset : Gcl := ⟨none, none, 0, 0, false, 0, 255, false⟩

/-- A shaper's credit (R154), in bits × 10^6 × 2^16, and the line time it was brought up to. -/
structure Credit where
  val : Int
  since : Nat
  deriving DecidableEq, Repr

def Credit.reset : Credit := ⟨0, 0⟩

/-- A meter's buckets (R156), in bits × 10^6 × 2^16, and the line time they were brought up to. -/
structure Meter where
  green : Nat
  yellow : Nat
  since : Nat
  deriving DecidableEq, Repr

def Meter.reset : Meter := ⟨0, 0, 0⟩

/-- A stream gate as it runs (R157): the control words taken at the cycle's start, the cycle and
entry, and what the entry said when it began: its start and its length in ns, whether it is open, its IPV. -/
structure SGate where
  ctrl : List W32
  cycle : Nat
  entry : Nat
  started : Bool
  start : Nat
  length : Nat
  isOpen : Bool
  ipv : Option Nat
  deriving DecidableEq, Repr

def SGate.reset : SGate := ⟨[], 0, 0, false, 0, 0, true, none⟩

/-- A recovery function's run (R158): the next frame is taken whatever its number, the recovery
sequence number, the history with its newest bit first, the line time of the last passed frame. -/
structure Recov where
  takeAny : Bool
  seq : Nat
  hist : List Bool
  last : Nat
  deriving DecidableEq, Repr

def Recov.reset : Recov := ⟨true, 0, [], 0⟩

/-- A frame that the filters have decided for a receive queue (R126, R249). -/
structure LocalFrame where
  fid : Nat
  rq : Nat
  rule : Nat
  cls : Nat
  deriving DecidableEq, Repr

/-- A port's LPI timing (R120 to R122): the line time of the last queued frame, of entry into
LPI in each direction, of the wake's end, and the opening last reported late. -/
structure Lpi where
  lastQueued : Nat
  txSince : Nat
  rxSince : Nat
  wakeEnd : Nat
  deriving DecidableEq, Repr

def Lpi.reset : Lpi := ⟨0, 0, 0, 0⟩

/-- A port's preemption verification: attempts made and the line time of the last (R115). -/
structure Verify where
  attempts : Nat
  last : Nat
  deriving DecidableEq, Repr

def Verify.reset : Verify := ⟨0, 0⟩

/-- What a port holds beside its registers: the back-off generator's seed and state (R112), whether the PHY reports
jabber (R113), the stamp of the first fragment of a frame in reassembly (R116), and PLCA's transmit opportunity: its
node ID, the line time at which it began, the frames that this node has sent in it (R114). -/
structure PortRun where
  seed : W32
  gen : W32
  jabber : Bool
  firstFrag : Option Stamp
  curid : Nat
  oppAt : Nat
  oppSent : Nat
  deriving DecidableEq, Repr

def PortRun.reset : PortRun := ⟨0, 0, false, none, 0, 0, 0⟩

structure SwxState where
  frames : Tbl Frame
  nextFid : Nat
  queues : Tbl (List Copy)
  tx : Tbl (Option TxFrame)
  /-- Preemptable frames of which a part is sent, while an express frame or hold stops them (R115). -/
  held : Tbl (Option TxFrame)
  gcl : Tbl Gcl
  credits : Tbl Credit
  meters : Tbl Meter
  sgates : Tbl SGate
  recovs : Tbl Recov
  /-- Table entries of R165 by table × 65,536 + index. -/
  tables : Tbl (List W32)
  /-- The result and index of a table operation that has not ended (R164). -/
  tblOp : Option (Nat × Nat)
  ledgerReq : Bool
  /-- Copies unlinked by a flush that has not ended (R162). -/
  flush : Option Nat
  deciding : List LocalFrame
  lpi : Tbl Lpi
  verify : Tbl Verify
  ports : Tbl PortRun
  /-- The line time of the scrubber's last visit (R150). -/
  scrubAt : Nat
  /-- The line time, plus 1, at which a schedule slot's frame last started (R160). -/
  slotStart : Tbl Nat
  /-- The opening of a schedule slot's window that was last dealt with: its line time plus 1 (R160). -/
  slotSeen : Tbl Nat
  deriving DecidableEq, Repr

def SwxState.reset : SwxState :=
  ⟨[], 0, [], [], [], [], [], [], [], [], [], none, false, none, [], [], [], [], 0, [], []⟩

/-- The 64-byte units of a frame and its descriptor that a frozen delivery path still has to write (R252). -/
structure RqFrozen where
  units : List (Nat × List Byte)
  deriving DecidableEq, Repr

/-- Where a transmit queue's path is frozen: at a read, or at the write of word 4 that ends a descriptor with a
RESULT (R254, R374). -/
inductive TqFrozen where
  | read
  | finish (desc result : Nat)
  deriving DecidableEq, Repr

/-- A frame offered on SP8 or SP9 that waits for its pecks (R143, R254). -/
structure Offer where
  tq : Nat
  desc : Nat
  data : List Byte
  words : List W32
  deriving DecidableEq, Repr

/-- The receive and transmit queues of PE control (R249 to R254): whether the next descriptor of a
receive queue carries LOSTBEFORE, frozen delivery paths with what they hold, frozen read paths,
the addresses pushed, the frame each of SP8 and SP9 waits with, and the queue each served last. -/
structure QueueState where
  rqLost : Tbl Bool
  rqFrozen : Tbl (Option RqFrozen)
  tq : Tbl (List Nat)
  tqFrozen : Tbl (Option TqFrozen)
  offers : Tbl (Option Offer)
  served : Tbl Nat
  deriving DecidableEq, Repr

def QueueState.reset : QueueState := ⟨[], [], [], [], [], []⟩

end Sys2Proof.Machine
end

