-- ==== Sys2Proof/Machine/TskState.lean ====
section
/-!
DEFINITION. State of TSK beside its registers: the cycle of each frame (R275 to R277), reports since the last
evaluation (R280, R281), release times (R271), staged and accepted changes (R290), a requested swap (R291).
-/
namespace Sys2Proof.Machine

/-- The cycle of a handover, as seen from the frame's current cycle: the one that begins at the next boundary, the
current one, or one before it, whose task has run past a boundary. -/
inductive HandCycle where
  | coming | current | past
  deriving DecidableEq, Repr

/-- A handover that is due (R277): its cycle, with T of it, whether its header has SKIPPED, and whether its error task
ran. -/
structure HandDue where
  cycle : HandCycle
  t : Nat
  skipped : Bool
  errRan : Bool
  deriving DecidableEq, Repr

/-- A cycle frame as it runs: T of the current cycle and the next boundary in ns; whether a cycle has begun; an
exchange of the cycle has come; the check at T + TOUT is done; an evaluation is due, waits for the normal task's
end, or runs; the exchange, and the evaluation with it, belongs to the cycle that begins at the next boundary; the
handover of that cycle is done; releases wait for the evaluation; the error task is active, and T of the cycle it was
released for; the normal task is active, T of its cycle, and whether that cycle's error task ran; the handovers that
are due, in their order. -/
structure FrameRun where
  t : Nat
  next : Nat
  begun : Bool
  exchanged : Bool
  checked : Bool
  evalDue : Bool
  evalAfterTask : Bool
  evaluating : Bool
  coming : Bool
  handedEarly : Bool
  releaseWaits : Bool
  errActive : Bool
  errT : Nat
  normalActive : Bool
  normalT : Nat
  normalErr : Bool
  hands : List HandDue
  deriving DecidableEq, Repr

def FrameRun.reset : FrameRun :=
  ⟨0, 0, false, false, true, false, false, false, false, false, false, false, 0, false, 0, false, []⟩

/-- A staged change: variable ID and value (R290). -/
structure Change where
  id : Nat
  value : Nat
  deriving DecidableEq, Repr

/-- An accepted batch: the task at whose end it is written, and its changes with address and size. -/
structure Batch where
  task : Nat
  changes : List (Change × Nat × Nat)
  deriving DecidableEq, Repr

structure TskState where
  frames : Tbl FrameRun
  reported : Tbl Bool
  relTime : Tbl Nat
  staged : List Change
  batch : Option Batch
  swapReq : Bool
  /-- The start-up task whose end cyclic releases wait for (R273). -/
  initWait : Option Nat
  deriving DecidableEq, Repr

def TskState.reset : TskState := ⟨[], [], [], [], none, false, none⟩

end Sys2Proof.Machine
end

