-- ==== Sys2Proof/Machine/Chip.lean ====
section
/-!
DEFINITION. The whole state of the device but for the queue of waiting commands.
-/
namespace Sys2Proof.Machine

structure Chip where
  /-- The register file of the peripheral windows: values that differ from reset (R11 to R14). -/
  regs : Tbl W32
  /-- The staging registers of split registers, by the register's address (R15). -/
  staged : Tbl W32
  /-- The read latches of split registers: by address, and in TMU and ANG by master too (R15, R58, R78). -/
  latched : Tbl W32
  /-- Memory bytes that differ from what an unlisted address reads as. -/
  mem : List Host.Cell
  /-- What the last fabric access answered. -/
  bus : BusResult
  /-- The free-value counter: the model's own field (DESIGN CHOICE, log entry 1). -/
  free : Nat
  evt : EvtState
  mbx : MbxState
  memc : MemState
  xdm : XdmState
  tmu : TmuState
  ang : AngState
  swx : SwxState
  rq : QueueState
  can : Tbl CanChan
  core : CoreState
  tsk : TskState
  mot : MotState
  skp : SkpState
  pin : PinState
  sec : SecState
  evr : EvrState
  hif : HifState
  pwr : PwrState
  tst : TstState
  deriving DecidableEq, Repr

def Chip.reset : Chip where
  regs := []
  staged := []
  latched := []
  mem := []
  bus := .idle
  free := 0
  evt := .reset
  mbx := .reset
  memc := .reset
  xdm := .reset
  tmu := .reset
  ang := .reset
  swx := .reset
  rq := .reset
  can := []
  core := .reset
  tsk := .reset
  mot := .reset
  skp := .reset
  pin := .reset
  sec := .reset
  evr := .reset
  hif := .reset
  pwr := .reset
  tst := .reset

end Sys2Proof.Machine
end

