-- ==== Sys2Proof/Machine/RegMap.lean ====
section
/-!
DEFINITION. The register maps and field tables of every chapter (R10 to R13, R72, R73, R101, R102, R133
to R135, R167, R168, R206, R207, R266, R267, R296, R297, R326, R327, R353, R354, R383 to R386, R408 to R411,
R435, R436, R469 to R471, R494 to R496, R527 to R530): the address of each register by
its name in the manual, and one row a register giving its reset value and which of its bits each
access code covers.
-/
namespace Sys2Proof.Machine

/-- TMU_CTL: Time master and line-time step enable. -/
def TMU_CTL : Nat := 0x40020000
/-- TMU_EVSTAT: Selection status flags. -/
def TMU_EVSTAT : Nat := 0x40020004
/-- TMU_RAW_LO: Raw counter [31:0]. -/
def TMU_RAW_LO : Nat := 0x40020008
/-- TMU_RAW_HI: Raw counter [63:32]. -/
def TMU_RAW_HI : Nat := 0x4002000C
/-- TMU_LT_LO: LT ns [31:0]. -/
def TMU_LT_LO : Nat := 0x40020010
/-- TMU_LT_HI: LT ns [63:32]. -/
def TMU_LT_HI : Nat := 0x40020014
/-- TMU_LT_FRAC: LT fraction in [15:0]. -/
def TMU_LT_FRAC : Nat := 0x40020018
/-- TMU_H_LO: H [31:0], signed, 2^-16 ns. -/
def TMU_H_LO : Nat := 0x4002001C
/-- TMU_H_HI: H [63:32]. -/
def TMU_H_HI : Nat := 0x40020020
/-- TMU_DOMSEL: Domain selection. -/
def TMU_DOMSEL : Nat := 0x40020024
/-- TMU_SLEW: Slew bound in ppm. -/
def TMU_SLEW : Nat := 0x40020028
/-- TMU_HOLDLIM: Holdover limit for switching, µs. -/
def TMU_HOLDLIM : Nat := 0x4002002C
/-- TMU_Dx_STATE: Domain state. -/
def TMU_Dx_STATE (n : Nat) : Nat := 0x40020100 + n * 0x80
/-- TMU_Dx_CMD: Domain commands. -/
def TMU_Dx_CMD (n : Nat) : Nat := 0x40020104 + n * 0x80
/-- TMU_Dx_TIME_LO: D_x ns [31:0]. -/
def TMU_Dx_TIME_LO (n : Nat) : Nat := 0x40020108 + n * 0x80
/-- TMU_Dx_TIME_HI: D_x ns [63:32]. -/
def TMU_Dx_TIME_HI (n : Nat) : Nat := 0x4002010C + n * 0x80
/-- TMU_Dx_TIME_FRAC: D_x fraction in [15:0]. -/
def TMU_Dx_TIME_FRAC (n : Nat) : Nat := 0x40020110 + n * 0x80
/-- TMU_Dx_RATE_LO: Target rate T_x [31:0], 2^-48 per tick. -/
def TMU_Dx_RATE_LO (n : Nat) : Nat := 0x40020114 + n * 0x80
/-- TMU_Dx_RATE_HI: Target rate T_x [63:32]. -/
def TMU_Dx_RATE_HI (n : Nat) : Nat := 0x40020118 + n * 0x80
/-- TMU_Dx_RATENOW_LO: Present rate R_x [31:0]. -/
def TMU_Dx_RATENOW_LO (n : Nat) : Nat := 0x4002011C + n * 0x80
/-- TMU_Dx_RATENOW_HI: Present rate R_x [63:32]. -/
def TMU_Dx_RATENOW_HI (n : Nat) : Nat := 0x40020120 + n * 0x80
/-- TMU_Dx_ADJ_LO: Adjustment [31:0], signed, 2^-16 ns; committing adds it to P_x. -/
def TMU_Dx_ADJ_LO (n : Nat) : Nat := 0x40020124 + n * 0x80
/-- TMU_Dx_ADJ_HI: Adjustment [63:32], staged. -/
def TMU_Dx_ADJ_HI (n : Nat) : Nat := 0x40020128 + n * 0x80
/-- TMU_Dx_PEND_LO: P_x [31:0], 2^-16 ns. -/
def TMU_Dx_PEND_LO (n : Nat) : Nat := 0x4002012C + n * 0x80
/-- TMU_Dx_PEND_HI: P_x [63:32]. -/
def TMU_Dx_PEND_HI (n : Nat) : Nat := 0x40020130 + n * 0x80
/-- TMU_Dx_STEP_LO: Step [31:0], signed, 2^-16 ns; committing requests the step. -/
def TMU_Dx_STEP_LO (n : Nat) : Nat := 0x40020134 + n * 0x80
/-- TMU_Dx_STEP_HI: Step [63:32], staged. -/
def TMU_Dx_STEP_HI (n : Nat) : Nat := 0x40020138 + n * 0x80
/-- TMU_Dx_SYNCTO: Sync timeout, µs. -/
def TMU_Dx_SYNCTO (n : Nat) : Nat := 0x4002013C + n * 0x80
/-- TMU_Dx_FAILLIM: Holdover-to-FAILED limit, µs. -/
def TMU_Dx_FAILLIM (n : Nat) : Nat := 0x40020140 + n * 0x80
/-- TMU_Dx_HOLDTIME: Time in HOLDOVER, µs, saturating. -/
def TMU_Dx_HOLDTIME (n : Nat) : Nat := 0x40020144 + n * 0x80
/-- TMU_Dx_FLAGS: Domain flags. -/
def TMU_Dx_FLAGS (n : Nat) : Nat := 0x40020148 + n * 0x80
/-- TMU_Pn_TSCTL: Port stamping control. -/
def TMU_Pn_TSCTL (n : Nat) : Nat := 0x40020400 + n * 0x40
/-- TMU_Pn_LATRX: Receive latency, signed, 2^-8 ns. -/
def TMU_Pn_LATRX (n : Nat) : Nat := 0x40020404 + n * 0x40
/-- TMU_Pn_LATTX: Transmit latency, signed, 2^-8 ns. -/
def TMU_Pn_LATTX (n : Nat) : Nat := 0x40020408 + n * 0x40
/-- TMU_Pn_EQSTAT: Queue fill. -/
def TMU_Pn_EQSTAT (n : Nat) : Nat := 0x4002040C + n * 0x40
/-- TMU_Pn_EQPOP: Bit 0 = 1 pops the head entry. -/
def TMU_Pn_EQPOP (n : Nat) : Nat := 0x40020410 + n * 0x40
/-- TMU_Pn_STAMPLOST: Lost egress stamps. -/
def TMU_Pn_STAMPLOST (n : Nat) : Nat := 0x40020414 + n * 0x40
/-- TMU_Pn_EQFLAGS: LOST in bit 0. -/
def TMU_Pn_EQFLAGS (n : Nat) : Nat := 0x40020418 + n * 0x40
/-- TMU_Pn_EQHEAD0–TMU_Pn_EQHEAD7: Head entry, words 0–7 of R60. -/
def TMU_Pn_EQHEAD (n k : Nat) : Nat := 0x40020420 + n * 0x40 + k * 4
/-- TMU_TS0_CFG–TMU_TS47_CFG: Stamp channel configuration. -/
def TMU_TSn_CFG (n : Nat) : Nat := 0x40020800 + n * 4
/-- TMU_TSR_STAT: COUNT in [10:0], 0 to 1,024. -/
def TMU_TSR_STAT : Nat := 0x40020900
/-- TMU_TSR_POP: Bit 0 = 1 pops the head entry. -/
def TMU_TSR_POP : Nat := 0x40020904
/-- TMU_TSR_LOST: Lost ring stamps. -/
def TMU_TSR_LOST : Nat := 0x40020908
/-- TMU_TSR_FLAGS: LOST in bit 0. -/
def TMU_TSR_FLAGS : Nat := 0x4002090C
/-- TMU_TSR_HEAD0–TMU_TSR_HEAD3: Head entry, words 0–3 of R66. -/
def TMU_TSR_HEAD (n : Nat) : Nat := 0x40020910 + n * 4
/-- TMU_TOn_CFG: Output configuration. -/
def TMU_TOn_CFG (n : Nat) : Nat := 0x40021000 + n * 0x20
/-- TMU_TOn_CTL: Arm and cancel. -/
def TMU_TOn_CTL (n : Nat) : Nat := 0x40021004 + n * 0x20
/-- TMU_TOn_STAT: Output status. -/
def TMU_TOn_STAT (n : Nat) : Nat := 0x40021008 + n * 0x20
/-- TMU_TOn_TIME_LO: Edge line time ns [31:0]. -/
def TMU_TOn_TIME_LO (n : Nat) : Nat := 0x4002100C + n * 0x20
/-- TMU_TOn_TIME_HI: Edge line time ns [63:32], staged. -/
def TMU_TOn_TIME_HI (n : Nat) : Nat := 0x40021010 + n * 0x20
/-- TMU_TOn_TIME_FRAC: Fraction in [15:0], staged; values are used to 250 ps. -/
def TMU_TOn_TIME_FRAC (n : Nat) : Nat := 0x40021014 + n * 0x20
/-- TMU_TOn_WIDTH: Pulse width, 250 ps units. -/
def TMU_TOn_WIDTH (n : Nat) : Nat := 0x40021018 + n * 0x20
/-- TMU_TOn_PERIOD: Period, 250 ps units. -/
def TMU_TOn_PERIOD (n : Nat) : Nat := 0x4002101C + n * 0x20
/-- ANG_ULPTYPE: ULP EtherType in [15:0]. -/
def ANG_ULPTYPE : Nat := 0x40030000
/-- ANG_STATION: Station number in [13:0]. -/
def ANG_STATION : Nat := 0x40030004
/-- ANG_DOMAIN: 802.1AS domain number in [7:0]. -/
def ANG_DOMAIN : Nat := 0x40030008
/-- ANG_AEFIRE0–ANG_AEFIRE31: Bit per event: fired. -/
def ANG_AEFIRE (n : Nat) : Nat := 0x40030200 + n * 4
/-- ANG_AELATE0–ANG_AELATE31: Bit per event: fired late. -/
def ANG_AELATE (n : Nat) : Nat := 0x40030280 + n * 4
/-- ANG_S2As_CTL: Start a conversion. -/
def ANG_S2As_CTL (n : Nat) : Nat := 0x40030400 + n * 0x20
/-- ANG_S2As_STAT: Conversion status. -/
def ANG_S2As_STAT (n : Nat) : Nat := 0x40030404 + n * 0x20
/-- ANG_S2As_T_LO: Line time ns [31:0]; commits. -/
def ANG_S2As_T_LO (n : Nat) : Nat := 0x40030408 + n * 0x20
/-- ANG_S2As_T_HI: Line time ns [63:32], staged. -/
def ANG_S2As_T_HI (n : Nat) : Nat := 0x4003040C + n * 0x20
/-- ANG_S2As_T_FRAC: Fraction in [15:0], staged. -/
def ANG_S2As_T_FRAC (n : Nat) : Nat := 0x40030410 + n * 0x20
/-- ANG_S2As_RES_LO: Angle [31:0]; latches RES_HI. -/
def ANG_S2As_RES_LO (n : Nat) : Nat := 0x40030414 + n * 0x20
/-- ANG_S2As_RES_HI: Angle [63:32]. -/
def ANG_S2As_RES_HI (n : Nat) : Nat := 0x40030418 + n * 0x20
/-- ANG_SHn_CFG: Shaft configuration. -/
def ANG_SHn_CFG (n : Nat) : Nat := 0x40031000 + n * 0x100
/-- ANG_SHn_CMD: Shaft commands. -/
def ANG_SHn_CMD (n : Nat) : Nat := 0x40031004 + n * 0x100
/-- ANG_SHn_STAT: Shaft status. -/
def ANG_SHn_STAT (n : Nat) : Nat := 0x40031008 + n * 0x100
/-- ANG_SHn_FLAGS: Shaft flags. -/
def ANG_SHn_FLAGS (n : Nat) : Nat := 0x4003100C + n * 0x100
/-- ANG_SHn_BSLEW: Blend slew b, grains per µs. -/
def ANG_SHn_BSLEW (n : Nat) : Nat := 0x40031010 + n * 0x100
/-- ANG_SHn_ELIM: Residual flag limit, grains. -/
def ANG_SHn_ELIM (n : Nat) : Nat := 0x40031014 + n * 0x100
/-- ANG_SHn_REFTO: FOLLOW-to-COAST time, µs. -/
def ANG_SHn_REFTO (n : Nat) : Nat := 0x40031018 + n * 0x100
/-- ANG_SHn_COASTLIM: COAST-to-LOST time, µs. -/
def ANG_SHn_COASTLIM (n : Nat) : Nat := 0x4003101C + n * 0x100
/-- ANG_SHn_ANG_LO: Angle [31:0]; latches by R78. -/
def ANG_SHn_ANG_LO (n : Nat) : Nat := 0x40031020 + n * 0x100
/-- ANG_SHn_ANG_HI: Angle [63:32]. -/
def ANG_SHn_ANG_HI (n : Nat) : Nat := 0x40031024 + n * 0x100
/-- ANG_SHn_VEL_LO: Velocity [31:0]. -/
def ANG_SHn_VEL_LO (n : Nat) : Nat := 0x40031028 + n * 0x100
/-- ANG_SHn_VEL_HI: Velocity [63:32]. -/
def ANG_SHn_VEL_HI (n : Nat) : Nat := 0x4003102C + n * 0x100
/-- ANG_SHn_E_LO: Residual [31:0], signed grains. -/
def ANG_SHn_E_LO (n : Nat) : Nat := 0x40031030 + n * 0x100
/-- ANG_SHn_E_HI: Residual [63:32]. -/
def ANG_SHn_E_HI (n : Nat) : Nat := 0x40031034 + n * 0x100
/-- ANG_SHn_PERIOD: Reference period, µs, in [15:0]. -/
def ANG_SHn_PERIOD (n : Nat) : Nat := 0x40031038 + n * 0x100
/-- ANG_SHn_LEAD: Lead, µs, in [15:0]. -/
def ANG_SHn_LEAD (n : Nat) : Nat := 0x4003103C + n * 0x100
/-- ANG_SHn_IN0–ANG_SHn_IN8: Sample to submit. -/
def ANG_SHn_IN (n k : Nat) : Nat := 0x40031040 + n * 0x100 + k * 4
/-- ANG_SHn_INCMT: Bit 0 = 1 submits the sample. -/
def ANG_SHn_INCMT (n : Nat) : Nat := 0x40031064 + n * 0x100
/-- ANG_SHn_REFCNT: Samples admitted. -/
def ANG_SHn_REFCNT (n : Nat) : Nat := 0x40031068 + n * 0x100
/-- ANG_SHn_REFUSED: Samples refused. -/
def ANG_SHn_REFUSED (n : Nat) : Nat := 0x4003106C + n * 0x100
/-- ANG_SHn_OUT0–ANG_SHn_OUT8: Last generated sample; OUT0 latches. -/
def ANG_SHn_OUT (n k : Nat) : Nat := 0x40031080 + n * 0x100 + k * 4
/-- ANG_SHn_OUTSEQ: Generated samples, [15:0], wrapping. -/
def ANG_SHn_OUTSEQ (n : Nat) : Nat := 0x400310A4 + n * 0x100
/-- ANG_SHn_MSRC: Master source. -/
def ANG_SHn_MSRC (n : Nat) : Nat := 0x400310B0 + n * 0x100
/-- ANG_SHn_MSCALE: Grains per axis count, unsigned 24.8. -/
def ANG_SHn_MSCALE (n : Nat) : Nat := 0x400310B4 + n * 0x100
/-- ANG_SHn_MVEL_LO: Profile target velocity [31:0]. -/
def ANG_SHn_MVEL_LO (n : Nat) : Nat := 0x400310B8 + n * 0x100
/-- ANG_SHn_MVEL_HI: Profile target velocity [63:32], staged. -/
def ANG_SHn_MVEL_HI (n : Nat) : Nat := 0x400310BC + n * 0x100
/-- ANG_SHn_MACC: Profile acceleration magnitude, unsigned, 2^-48 grain/ns². -/
def ANG_SHn_MACC (n : Nat) : Nat := 0x400310C0 + n * 0x100
/-- ANG_AEn_CFG: Event configuration. -/
def ANG_AEn_CFG (n : Nat) : Nat := 0x40034000 + n * 0x20
/-- ANG_AEn_ACT: Event actions. -/
def ANG_AEn_ACT (n : Nat) : Nat := 0x40034004 + n * 0x20
/-- ANG_AEn_POS_LO: Position [31:0]; commits. -/
def ANG_AEn_POS_LO (n : Nat) : Nat := 0x40034008 + n * 0x20
/-- ANG_AEn_POS_HI: Position [63:32], staged. -/
def ANG_AEn_POS_HI (n : Nat) : Nat := 0x4003400C + n * 0x20
/-- ANG_AEn_PERIOD: Repeat step, 256-grain units. -/
def ANG_AEn_PERIOD (n : Nat) : Nat := 0x40034010 + n * 0x20
/-- ANG_AEn_STAT: Event status. -/
def ANG_AEn_STAT (n : Nat) : Nat := 0x40034014 + n * 0x20
/-- ETH_Pn_CTL: Mode and physical options. -/
def ETH_Pn_CTL (n : Nat) : Nat := 0x40040000 + n * 0x1000
/-- ETH_Pn_STAT: Link and resolution. -/
def ETH_Pn_STAT (n : Nat) : Nat := 0x40040004 + n * 0x1000
/-- ETH_Pn_FLAGS: Port flags. -/
def ETH_Pn_FLAGS (n : Nat) : Nat := 0x40040008 + n * 0x1000
/-- ETH_Pn_MAXLEN: Maximum frame length, bytes. -/
def ETH_Pn_MAXLEN (n : Nat) : Nat := 0x4004000C + n * 0x1000
/-- ETH_Pn_MACADDR_LO: Address octets 3–6, octet 6 in [7:0]; commits. -/
def ETH_Pn_MACADDR_LO (n : Nat) : Nat := 0x40040010 + n * 0x1000
/-- ETH_Pn_MACADDR_HI: Address octets 1–2 in [15:0], octet 1 in [15:8]; staged. -/
def ETH_Pn_MACADDR_HI (n : Nat) : Nat := 0x40040014 + n * 0x1000
/-- ETH_Pn_PVID: Default VID and PCP. -/
def ETH_Pn_PVID (n : Nat) : Nat := 0x40040018 + n * 0x1000
/-- ETH_Pn_ANADV: Advertised abilities, P0–P1; bit 5 in 1000BASE-X. -/
def ETH_Pn_ANADV (n : Nat) : Nat := 0x40040020 + n * 0x1000
/-- ETH_Pn_ANLP: Partner abilities, layout of ANADV. -/
def ETH_Pn_ANLP (n : Nat) : Nat := 0x40040024 + n * 0x1000
/-- ETH_Pn_PLCA_CTL: PLCA node, P2–P3. -/
def ETH_Pn_PLCA_CTL (n : Nat) : Nat := 0x40040040 + n * 0x1000
/-- ETH_Pn_PLCA_TMR: PLCA timers, P2–P3. -/
def ETH_Pn_PLCA_TMR (n : Nat) : Nat := 0x40040044 + n * 0x1000
/-- ETH_Pn_PLCA_STAT: PLCA status, P2–P3. -/
def ETH_Pn_PLCA_STAT (n : Nat) : Nat := 0x40040048 + n * 0x1000
/-- ETH_Pn_EEE_CTL: EEE control. -/
def ETH_Pn_EEE_CTL (n : Nat) : Nat := 0x40040050 + n * 0x1000
/-- ETH_Pn_EEE_TWTX: Transmit wake time, ns, [19:0]. -/
def ETH_Pn_EEE_TWTX (n : Nat) : Nat := 0x40040054 + n * 0x1000
/-- ETH_Pn_EEE_IDLE: Idle before LPI, µs, [15:0]. -/
def ETH_Pn_EEE_IDLE (n : Nat) : Nat := 0x40040058 + n * 0x1000
/-- ETH_Pn_EEE_GUARD: Early-wake guard, ns, [15:0]. -/
def ETH_Pn_EEE_GUARD (n : Nat) : Nat := 0x4004005C + n * 0x1000
/-- ETH_Pn_EEE_MINSLP: Minimum LPI span, µs, [15:0]. -/
def ETH_Pn_EEE_MINSLP (n : Nat) : Nat := 0x40040060 + n * 0x1000
/-- ETH_Pn_EEE_STAT: LPI state. -/
def ETH_Pn_EEE_STAT (n : Nat) : Nat := 0x40040064 + n * 0x1000
/-- ETH_Pn_PRE_CTL: Preemption control. -/
def ETH_Pn_PRE_CTL (n : Nat) : Nat := 0x40040070 + n * 0x1000
/-- ETH_Pn_PRE_STAT: Preemption status. -/
def ETH_Pn_PRE_STAT (n : Nat) : Nat := 0x40040074 + n * 0x1000
/-- ETH_Pn_CT_CTL: Cable test control, P0–P1. -/
def ETH_Pn_CT_CTL (n : Nat) : Nat := 0x40040080 + n * 0x1000
/-- ETH_Pn_CT_PAIRA–ETH_Pn_CT_PAIRD: Cable test results. -/
def ETH_Pn_CT_PAIR (n k : Nat) : Nat := 0x40040084 + n * 0x1000 + k * 4
/-- ETH_Pn_CNTSNAP: Bit 0 = 1 takes a snapshot. -/
def ETH_Pn_CNTSNAP (n : Nat) : Nat := 0x400400A0 + n * 0x1000
/-- ETH_Pn_CNTCLR: Bit 0 = 1 clears the counters. -/
def ETH_Pn_CNTCLR (n : Nat) : Nat := 0x400400A4 + n * 0x1000
/-- ETH_Pn_CNTHALF0: Half-range bits of counters 0–31. -/
def ETH_Pn_CNTHALF0 (n : Nat) : Nat := 0x400400A8 + n * 0x1000
/-- ETH_Pn_CNTHALF1: Half-range bits of counters 32–63. -/
def ETH_Pn_CNTHALF1 (n : Nat) : Nat := 0x400400AC + n * 0x1000
/-- ETH_Pn_CNT0–ETH_Pn_CNT63: Live counters. -/
def ETH_Pn_CNT (n k : Nat) : Nat := 0x40040100 + n * 0x1000 + k * 4
/-- ETH_Pn_SNAP0–ETH_Pn_SNAP63: Snapshot. -/
def ETH_Pn_SNAP (n k : Nat) : Nat := 0x40040200 + n * 0x1000 + k * 4
/-- ETH_LDF_CTL: Decision for frames no rule matches. -/
def ETH_LDF_CTL : Nat := 0x40048000
/-- ETH_LDF_NOMATCH: Frames no rule matched. -/
def ETH_LDF_NOMATCH : Nat := 0x40048004
/-- ETH_LDFk_CFG: Rule control; commits. -/
def ETH_LDFk_CFG (n : Nat) : Nat := 0x40048100 + n * 0x10
/-- ETH_LDFk_VID: VID value and mask; staged. -/
def ETH_LDFk_VID (n : Nat) : Nat := 0x40048104 + n * 0x10
/-- ETH_LDFk_TYPE: EtherType and ULP set; staged. -/
def ETH_LDFk_TYPE (n : Nat) : Nat := 0x40048108 + n * 0x10
/-- ETH_LDFk_HITS: Frames decided by the rule. -/
def ETH_LDFk_HITS (n : Nat) : Nat := 0x4004810C + n * 0x10
/-- SWX_CTL: Learning and scrubber. -/
def SWX_CTL : Nat := 0x40060000
/-- SWX_FLAGS: Switch flags. -/
def SWX_FLAGS : Nat := 0x40060004
/-- SWX_LEDGER: Ledger snapshot control. -/
def SWX_LEDGER : Nat := 0x40060008
/-- SWX_LEDGER_FREE: Snapshot: free pecks. -/
def SWX_LEDGER_FREE : Nat := 0x4006000C
/-- SWX_LEDGER_QUEUED: Snapshot: queued pecks. -/
def SWX_LEDGER_QUEUED : Nat := 0x40060010
/-- SWX_LEDGER_TRANSIT: Snapshot: pecks in transit. -/
def SWX_LEDGER_TRANSIT : Nat := 0x40060014
/-- SWX_PECKFREE: Live free count. -/
def SWX_PECKFREE : Nat := 0x40060018
/-- SWX_PECKLOW: Low-water mark, pecks. -/
def SWX_PECKLOW : Nat := 0x4006001C
/-- SWX_QDFREE: Free queue descriptors. -/
def SWX_QDFREE : Nat := 0x40060020
/-- SWX_FDB_AGE: Dynamic entry lifetime, s. -/
def SWX_FDB_AGE : Nat := 0x40060024
/-- SWX_SCRUB: Scrubber period, µs, 1 to 65,535. -/
def SWX_SCRUB : Nat := 0x40060028
/-- SWX_FLUSH: Queue flush. -/
def SWX_FLUSH : Nat := 0x4006002C
/-- SWX_SCHED_CTL: Null-frame control. -/
def SWX_SCHED_CTL : Nat := 0x40060030
/-- SWX_NULLSEQ: Next null sequence, [15:0]. -/
def SWX_NULLSEQ : Nat := 0x40060034
/-- SWX_AGE0–SWX_AGE7: Age limit per class, µs, 0 off. -/
def SWX_AGE (n : Nat) : Nat := 0x40060040 + n * 4
/-- SWX_CNT_LEARNFAIL: Failed learns. -/
def SWX_CNT_LEARNFAIL : Nat := 0x40060060
/-- SWX_CNT_AGED: Aged at the head. -/
def SWX_CNT_AGED : Nat := 0x40060064
/-- SWX_CNT_SCRUBBED: Aged by the scrubber. -/
def SWX_CNT_SCRUBBED : Nat := 0x40060068
/-- SWX_CNT_QDFULL: Copies lost for want of descriptors. -/
def SWX_CNT_QDFULL : Nat := 0x4006006C
/-- SWX_CNT_SDUDROP: Stream MAXSDU discards. -/
def SWX_CNT_SDUDROP : Nat := 0x40060070
/-- SWX_CNT_GATEDROP: Stream gate discards. -/
def SWX_CNT_GATEDROP : Nat := 0x40060074
/-- SWX_CNT_METERDROP: Meter discards. -/
def SWX_CNT_METERDROP : Nat := 0x40060078
/-- SWX_CNT_NULLS: Null frames sent. -/
def SWX_CNT_NULLS : Nat := 0x4006007C
/-- SWX_CNT_SUPERSEDED: Superseded slot frames. -/
def SWX_CNT_SUPERSEDED : Nat := 0x40060080
/-- SWX_CNT_FLUSHED: Copies flushed. -/
def SWX_CNT_FLUSHED : Nat := 0x40060084
/-- SWX_CNT_FRERDROP: Generation discards. -/
def SWX_CNT_FRERDROP : Nat := 0x40060088
/-- SWX_CNT_VLANDROP: VLAN ingress discards. -/
def SWX_CNT_VLANDROP : Nat := 0x4006008C
/-- SWX_TBL_CMD: Table operation. -/
def SWX_TBL_CMD : Nat := 0x40060100
/-- SWX_TBL_STAT: Table result. -/
def SWX_TBL_STAT : Nat := 0x40060104
/-- SWX_TBL_DATA0–SWX_TBL_DATA7: Entry words. -/
def SWX_TBL_DATA (n : Nat) : Nat := 0x40060120 + n * 4
/-- SWX_Pp_CTL: Port options. -/
def SWX_Pp_CTL (n : Nat) : Nat := 0x40061000 + n * 0x100
/-- SWX_Pp_PCPMAP: PCP to class, 3 bits per PCP. -/
def SWX_Pp_PCPMAP (n : Nat) : Nat := 0x40061004 + n * 0x100
/-- SWX_Pp_GCL_CTL: Gate list enable and admin length. -/
def SWX_Pp_GCL_CTL (n : Nat) : Nat := 0x40061008 + n * 0x100
/-- SWX_Pp_GCL_CMD: Request a change. -/
def SWX_Pp_GCL_CMD (n : Nat) : Nat := 0x4006100C + n * 0x100
/-- SWX_Pp_GCL_STAT: Gate list status. -/
def SWX_Pp_GCL_STAT (n : Nat) : Nat := 0x40061010 + n * 0x100
/-- SWX_Pp_BASE_LO: Admin base ns [31:0]; commits. -/
def SWX_Pp_BASE_LO (n : Nat) : Nat := 0x40061014 + n * 0x100
/-- SWX_Pp_BASE_HI: Admin base ns [63:32], staged. -/
def SWX_Pp_BASE_HI (n : Nat) : Nat := 0x40061018 + n * 0x100
/-- SWX_Pp_CYCLE: Admin cycle, ns. -/
def SWX_Pp_CYCLE (n : Nat) : Nat := 0x4006101C + n * 0x100
/-- SWX_Pp_CYCLEEXT: Cycle extension, ns. -/
def SWX_Pp_CYCLEEXT (n : Nat) : Nat := 0x40061020 + n * 0x100
/-- SWX_Pp_QLIM0–SWX_Pp_QLIM7: Queue limit, pecks, [13:0]. -/
def SWX_Pp_QLIM (n k : Nat) : Nat := 0x40061040 + n * 0x100 + k * 4
/-- SWX_Pp_IDLESLOPE0–SWX_Pp_IDLESLOPE7: Idle slope, kbit/s, 0 off. -/
def SWX_Pp_IDLESLOPE (n k : Nat) : Nat := 0x40061060 + n * 0x100 + k * 4
/-- SWX_Pp_HICREDIT0–SWX_Pp_HICREDIT7: Upper credit, bits, signed. -/
def SWX_Pp_HICREDIT (n k : Nat) : Nat := 0x40061080 + n * 0x100 + k * 4
/-- SWX_Pp_LOCREDIT0–SWX_Pp_LOCREDIT7: Lower credit, bits, signed. -/
def SWX_Pp_LOCREDIT (n k : Nat) : Nat := 0x400610A0 + n * 0x100 + k * 4
/-- SWX_Pp_QDEPTH0–SWX_Pp_QDEPTH7: Queue depth. -/
def SWX_Pp_QDEPTH (n k : Nat) : Nat := 0x400610C0 + n * 0x100 + k * 4
/-- SWX_Pp_QDROP0–SWX_Pp_QDROP7: Copies refused by the queue limit. -/
def SWX_Pp_QDROP (n k : Nat) : Nat := 0x400610E0 + n * 0x100 + k * 4
/-- CANn_CTL: Channel control. -/
def CANn_CTL (n : Nat) : Nat := 0x40090000 + n * 0x1000
/-- CANn_STAT: Channel status. -/
def CANn_STAT (n : Nat) : Nat := 0x40090004 + n * 0x1000
/-- CANn_ERRCNT: Error counters. -/
def CANn_ERRCNT (n : Nat) : Nat := 0x40090008 + n * 0x1000
/-- CANn_FLAGS: Channel flags. -/
def CANn_FLAGS (n : Nat) : Nat := 0x4009000C + n * 0x1000
/-- CANn_CMD: Channel commands. -/
def CANn_CMD (n : Nat) : Nat := 0x40090010 + n * 0x1000
/-- CANn_OBJCMD: Object commands. -/
def CANn_OBJCMD (n : Nat) : Nat := 0x40090014 + n * 0x1000
/-- CANn_LASTERR: Last protocol error. -/
def CANn_LASTERR (n : Nat) : Nat := 0x40090018 + n * 0x1000
/-- CANn_OWNER: Master ID for SRAM accesses in [3:0]. -/
def CANn_OWNER (n : Nat) : Nat := 0x4009001C + n * 0x1000
/-- CANn_NBT: Nominal bit timing. -/
def CANn_NBT (n : Nat) : Nat := 0x40090020 + n * 0x1000
/-- CANn_DBT: FD data bit timing. -/
def CANn_DBT (n : Nat) : Nat := 0x40090024 + n * 0x1000
/-- CANn_XBT: XL data bit timing. -/
def CANn_XBT (n : Nat) : Nat := 0x40090028 + n * 0x1000
/-- CANn_TDC: Transmitter delay compensation. -/
def CANn_TDC (n : Nat) : Nat := 0x4009002C + n * 0x1000
/-- CANn_PWM: XL PWM symbol. -/
def CANn_PWM (n : Nat) : Nat := 0x40090030 + n * 0x1000
/-- CANn_RING_BASE: Ring address, 32 KB aligned, [31:15]. -/
def CANn_RING_BASE (n : Nat) : Nat := 0x40090040 + n * 0x1000
/-- CANn_RING_CTL: Ring control. -/
def CANn_RING_CTL (n : Nat) : Nat := 0x40090044 + n * 0x1000
/-- CANn_RING_STAT: Ring fill. -/
def CANn_RING_STAT (n : Nat) : Nat := 0x40090048 + n * 0x1000
/-- CANn_RING_POP: Entries to release, [8:0]. -/
def CANn_RING_POP (n : Nat) : Nat := 0x4009004C + n * 0x1000
/-- CANn_RING_LOST: Frames dropped, ring full. -/
def CANn_RING_LOST (n : Nat) : Nat := 0x40090050 + n * 0x1000
/-- CANn_XLRX_BASE: XL area address, 2 KB aligned, [31:11]. -/
def CANn_XLRX_BASE (n : Nat) : Nat := 0x40090054 + n * 0x1000
/-- CANn_XLRX_CTL: SLOTS in [8:0], 0 to 256. -/
def CANn_XLRX_CTL (n : Nat) : Nat := 0x40090058 + n * 0x1000
/-- CANn_XLRX_LOST: Frames dropped, no slot. -/
def CANn_XLRX_LOST (n : Nat) : Nat := 0x4009005C + n * 0x1000
/-- CANn_TT_CFG: Time-triggered configuration. -/
def CANn_TT_CFG (n : Nat) : Nat := 0x40090100 + n * 0x1000
/-- CANn_TT_NTU: NTU, ns, 100 to 100,000, [16:0]. -/
def CANn_TT_NTU (n : Nat) : Nat := 0x40090104 + n * 0x1000
/-- CANn_TT_STAT: Time-triggered status. -/
def CANn_TT_STAT (n : Nat) : Nat := 0x40090108 + n * 0x1000
/-- CANn_TT_TIME: Global time [31:16], cycle time [15:0], NTU. -/
def CANn_TT_TIME (n : Nat) : Nat := 0x4009010C + n * 0x1000
/-- CANn_TT_MODEREQ: Propose a mode. -/
def CANn_TT_MODEREQ (n : Nat) : Nat := 0x40090110 + n * 0x1000
/-- CANn_TT_VETO: Veto identifier and mask. -/
def CANn_TT_VETO (n : Nat) : Nat := 0x40090114 + n * 0x1000
/-- CANn_TT_GWBASE_LO: Gateway base ns [31:0]; commits. -/
def CANn_TT_GWBASE_LO (n : Nat) : Nat := 0x40090118 + n * 0x1000
/-- CANn_TT_GWBASE_HI: Gateway base ns [63:32], staged. -/
def CANn_TT_GWBASE_HI (n : Nat) : Nat := 0x4009011C + n * 0x1000
/-- CANn_TT_MODE0–CANn_TT_MODE3: Mode definitions. -/
def CANn_TT_MODE (n k : Nat) : Nat := 0x40090120 + n * 0x1000 + k * 4
/-- CANn_GD_CTL: Guardian control. -/
def CANn_GD_CTL (n : Nat) : Nat := 0x40090200 + n * 0x1000
/-- CANn_GD_NTU: Guardian NTU, ns, [16:0]. -/
def CANn_GD_NTU (n : Nat) : Nat := 0x40090204 + n * 0x1000
/-- CANn_GD_STAT: Guardian status. -/
def CANn_GD_STAT (n : Nat) : Nat := 0x40090208 + n * 0x1000
/-- CANn_GD_BLOCKED: Transmissions blocked. -/
def CANn_GD_BLOCKED (n : Nat) : Nat := 0x4009020C + n * 0x1000
/-- CANn_GD_MODE0–CANn_GD_MODE3: Guardian ranges. -/
def CANn_GD_MODE (n k : Nat) : Nat := 0x40090210 + n * 0x1000 + k * 4
/-- PE_PEn_CMD: Engine commands; reads 0. -/
def PE_PEn_CMD (n : Nat) : Nat := 0x40130000 + n * 0x100
/-- PE_PEn_STAT: Engine and context states. -/
def PE_PEn_STAT (n : Nat) : Nat := 0x40130004 + n * 0x100
/-- PE_PEn_EVCAUSE: Causes of source 24 + *n*. -/
def PE_PEn_EVCAUSE (n : Nat) : Nat := 0x40130008 + n * 0x100
/-- PE_PEn_EVCODE: Last FEV code, [7:0]. -/
def PE_PEn_EVCODE (n : Nat) : Nat := 0x4013000C + n * 0x100
/-- PE_PEn_ENTRY0–PE_PEn_ENTRY3: Context start addresses. -/
def PE_PEn_ENTRY (n k : Nat) : Nat := 0x40130010 + n * 0x100 + k * 4
/-- PE_PEn_WDT: Watchdog. -/
def PE_PEn_WDT (n : Nat) : Nat := 0x40130020 + n * 0x100
/-- PE_PEn_CYCBASE_LO: Cycle base ns [31:0]; commits. -/
def PE_PEn_CYCBASE_LO (n : Nat) : Nat := 0x40130024 + n * 0x100
/-- PE_PEn_CYCBASE_HI: Cycle base ns [63:32], staged. -/
def PE_PEn_CYCBASE_HI (n : Nat) : Nat := 0x40130028 + n * 0x100
/-- PE_PEn_CYCPER: Cycle period, ns, 0 off, 1,000 to 1,000,000,000. -/
def PE_PEn_CYCPER (n : Nat) : Nat := 0x4013002C + n * 0x100
/-- PE_PEn_CYCCTX: Contexts woken by the timer, [3:0]. -/
def PE_PEn_CYCCTX (n : Nat) : Nat := 0x40130030 + n * 0x100
/-- PE_PEn_CRCP0–PE_PEn_CRCP3: Slot polynomials. -/
def PE_PEn_CRCP (n k : Nat) : Nat := 0x40130040 + n * 0x100 + k * 4
/-- PE_PEn_CRCC0–PE_PEn_CRCC3: Slot width and order. -/
def PE_PEn_CRCC (n k : Nat) : Nat := 0x40130050 + n * 0x100 + k * 4
/-- PE_RQq_CFG: Queue configuration; NLOG 4 and BLOG 7 at reset. -/
def PE_RQq_CFG (n : Nat) : Nat := 0x40131000 + n * 0x20
/-- PE_RQq_DBASE: Descriptor ring, [31:6]. -/
def PE_RQq_DBASE (n : Nat) : Nat := 0x40131004 + n * 0x20
/-- PE_RQq_BBASE: Buffers, [31:6]. -/
def PE_RQq_BBASE (n : Nat) : Nat := 0x40131008 + n * 0x20
/-- PE_RQq_PROD: Entries written, [15:0]. -/
def PE_RQq_PROD (n : Nat) : Nat := 0x4013100C + n * 0x20
/-- PE_RQq_POP: Entries popped, [15:0]. -/
def PE_RQq_POP (n : Nat) : Nat := 0x40131010 + n * 0x20
/-- PE_RQq_CONS: Entries released, [15:0], by R251. -/
def PE_RQq_CONS (n : Nat) : Nat := 0x40131014 + n * 0x20
/-- PE_RQq_LOST: Frames dropped, ring full. -/
def PE_RQq_LOST (n : Nat) : Nat := 0x40131018 + n * 0x20
/-- PE_RQq_LONG: Frames dropped, buffer too small. -/
def PE_RQq_LONG (n : Nat) : Nat := 0x4013101C + n * 0x20
/-- PE_TQt_CFG: Queue configuration. -/
def PE_TQt_CFG (n : Nat) : Nat := 0x40132000 + n * 0x20
/-- PE_TQt_PUSH: Descriptor address to push. -/
def PE_TQt_PUSH (n : Nat) : Nat := 0x40132004 + n * 0x20
/-- PE_TQt_STAT: Fill. -/
def PE_TQt_STAT (n : Nat) : Nat := 0x40132008 + n * 0x20
/-- PE_TQt_FLAGS: Queue flags. -/
def PE_TQt_FLAGS (n : Nat) : Nat := 0x4013200C + n * 0x20
/-- PE_TQt_DONE: Descriptors completed. -/
def PE_TQt_DONE (n : Nat) : Nat := 0x40132010 + n * 0x20
/-- PE_RQ0_STAT–PE_RQ31_STAT: Receive queue flags. -/
def PE_RQn_STAT (n : Nat) : Nat := 0x40133000 + n * 4
/-- TSK_MODE: Mode request; reads the mode in force. -/
def TSK_MODE : Nat := 0x40120000
/-- TSK_STAT: Unit status. -/
def TSK_STAT : Nat := 0x40120004
/-- TSK_EVCAUSE: Event causes. -/
def TSK_EVCAUSE : Nat := 0x40120008
/-- TSK_RPT: Station report. -/
def TSK_RPT : Nat := 0x4012000C
/-- TSK_RPTCNT: Reports registered, wrapping. -/
def TSK_RPTCNT : Nat := 0x40120010
/-- TSK_REL: Task number to release, [4:0]. -/
def TSK_REL : Nat := 0x40120014
/-- TSK_VMAP: Active map address, [31:4]. -/
def TSK_VMAP : Nat := 0x40120018
/-- TSK_VMAPN: Active map entries, [15:0]. -/
def TSK_VMAPN : Nat := 0x4012001C
/-- TSK_SUBBASE: Substitute area, [31:6]. -/
def TSK_SUBBASE : Nat := 0x40120020
/-- TSK_INITTASK: Start-up task, [4:0]. -/
def TSK_INITTASK : Nat := 0x40120024
/-- TSK_DIAG: Runtime diagnostic. -/
def TSK_DIAG : Nat := 0x40120028
/-- TSK_DIAGLAST: Last TSK_DIAG value. -/
def TSK_DIAGLAST : Nat := 0x4012002C
/-- TSK_SWAP_CTL: Swap start; reads 0. -/
def TSK_SWAP_CTL : Nat := 0x40120030
/-- TSK_SWAP_MAP: New map address, [31:4]. -/
def TSK_SWAP_MAP : Nat := 0x40120034
/-- TSK_SWAP_MAPN: New map entries, [15:0]. -/
def TSK_SWAP_MAPN : Nat := 0x40120038
/-- TSK_SWAP_TASKS: New entry table, [31:2]. -/
def TSK_SWAP_TASKS : Nat := 0x4012003C
/-- TSK_SWAP_STAT: Swap result. -/
def TSK_SWAP_STAT : Nat := 0x40120040
/-- TSK_VC_ID: Change: variable ID. -/
def TSK_VC_ID : Nat := 0x40120044
/-- TSK_VC_LO: Change: value [31:0]. -/
def TSK_VC_LO : Nat := 0x40120048
/-- TSK_VC_HI: Change: value [63:32]. -/
def TSK_VC_HI : Nat := 0x4012004C
/-- TSK_VC_CTL: Push and apply; reads 0. -/
def TSK_VC_CTL : Nat := 0x40120050
/-- TSK_VC_STAT: Batch status. -/
def TSK_VC_STAT : Nat := 0x40120054
/-- TSK_DROPNEW0–TSK_DROPNEW15: Slots newly dropped, bit per slot. -/
def TSK_DROPNEW (n : Nat) : Nat := 0x40120080 + n * 4
/-- TSK_FRn_CFG: Frame configuration. -/
def TSK_FRn_CFG (n : Nat) : Nat := 0x40120100 + n * 0x40
/-- TSK_FRn_T0_LO: T0 ns [31:0]; commits. -/
def TSK_FRn_T0_LO (n : Nat) : Nat := 0x40120104 + n * 0x40
/-- TSK_FRn_T0_HI: T0 ns [63:32], staged. -/
def TSK_FRn_T0_HI (n : Nat) : Nat := 0x40120108 + n * 0x40
/-- TSK_FRn_TIN: t_in, ns. -/
def TSK_FRn_TIN (n : Nat) : Nat := 0x4012010C + n * 0x40
/-- TSK_FRn_TOUT: t_out, ns. -/
def TSK_FRn_TOUT (n : Nat) : Nat := 0x40120110 + n * 0x40
/-- TSK_FRn_BANKS: Banks and groups. -/
def TSK_FRn_BANKS (n : Nat) : Nat := 0x40120114 + n * 0x40
/-- TSK_FRn_IIMG: Input image place. -/
def TSK_FRn_IIMG (n : Nat) : Nat := 0x40120118 + n * 0x40
/-- TSK_FRn_OIMG: Output image place. -/
def TSK_FRn_OIMG (n : Nat) : Nat := 0x4012011C + n * 0x40
/-- TSK_FRn_ISTOFS: Status block, 64-byte units, [12:0]. -/
def TSK_FRn_ISTOFS (n : Nat) : Nat := 0x40120120 + n * 0x40
/-- TSK_FRn_OSAFE: Safe-value offset in the substitute area, [18:6]. -/
def TSK_FRn_OSAFE (n : Nat) : Nat := 0x40120124 + n * 0x40
/-- TSK_FRn_STAT: Frame status. -/
def TSK_FRn_STAT (n : Nat) : Nat := 0x40120128 + n * 0x40
/-- TSK_FRn_CYCLE: Cycle counter, wrapping. -/
def TSK_FRn_CYCLE (n : Nat) : Nat := 0x4012012C + n * 0x40
/-- TSK_FRn_OVERRUN: Normal-task releases refused. -/
def TSK_FRn_OVERRUN (n : Nat) : Nat := 0x40120130 + n * 0x40
/-- TSK_FRn_STARTLATE: First releases after T. -/
def TSK_FRn_STARTLATE (n : Nat) : Nat := 0x40120134 + n * 0x40
/-- TSK_FRn_SKIPPED: Headers with SKIPPED = 1. -/
def TSK_FRn_SKIPPED (n : Nat) : Nat := 0x40120138 + n * 0x40
/-- TSK_FRn_LATEOUT: Handovers after T + t_out; NOEXCH in [31:16] is RO. -/
def TSK_FRn_LATEOUT (n : Nat) : Nat := 0x4012013C + n * 0x40
/-- TSK_TKk_CFG: Task binding. -/
def TSK_TKk_CFG (n : Nat) : Nat := 0x40120400 + n * 0x10
/-- TSK_TKk_ENTRY: Entry address, [31:2]. -/
def TSK_TKk_ENTRY (n : Nat) : Nat := 0x40120404 + n * 0x10
/-- TSK_TKk_STAT: Task status. -/
def TSK_TKk_STAT (n : Nat) : Nat := 0x40120408 + n * 0x10
/-- TSK_TKk_TIME: Last run time, ns, saturating. -/
def TSK_TKk_TIME (n : Nat) : Nat := 0x4012040C + n * 0x10
/-- TSK_SLs_CFG: Slot configuration; MISSLIM 3 at reset. -/
def TSK_SLs_CFG (n : Nat) : Nat := 0x40121000 + n * 0x10
/-- TSK_SLs_IMG: Region in the input image. -/
def TSK_SLs_IMG (n : Nat) : Nat := 0x40121004 + n * 0x10
/-- TSK_SLs_SUB: Substitute offset, 8-byte units, [15:0]. -/
def TSK_SLs_SUB (n : Nat) : Nat := 0x40121008 + n * 0x10
/-- TSK_SLs_STAT: Status word of R282. -/
def TSK_SLs_STAT (n : Nat) : Nat := 0x4012100C + n * 0x10
/-- TSK_FCf_ID: Forced variable ID. -/
def TSK_FCf_ID (n : Nat) : Nat := 0x40123000 + n * 0x20
/-- TSK_FCf_CTL: Force control. -/
def TSK_FCf_CTL (n : Nat) : Nat := 0x40123004 + n * 0x20
/-- TSK_FCf_VAL_LO: Forced value [31:0]. -/
def TSK_FCf_VAL_LO (n : Nat) : Nat := 0x40123008 + n * 0x20
/-- TSK_FCf_VAL_HI: Forced value [63:32]. -/
def TSK_FCf_VAL_HI (n : Nat) : Nat := 0x4012300C + n * 0x20
/-- TSK_FCf_CHG_LO: Pending change [31:0]. -/
def TSK_FCf_CHG_LO (n : Nat) : Nat := 0x40123010 + n * 0x20
/-- TSK_FCf_CHG_HI: Pending change [63:32]. -/
def TSK_FCf_CHG_HI (n : Nat) : Nat := 0x40123014 + n * 0x20
/-- TSK_FCf_ADDR: Bound address. -/
def TSK_FCf_ADDR (n : Nat) : Nat := 0x40123018 + n * 0x20
/-- MOT_OWNER: Master ID for cam-table reads, [3:0]. -/
def MOT_OWNER : Nat := 0x400A0000
/-- AXn_CFG: Output, feedback, shaft. -/
def AXn_CFG (n : Nat) : Nat := 0x400A1000 + n * 0x100
/-- AXn_OWNER: Master that may write, [3:0]. -/
def AXn_OWNER (n : Nat) : Nat := 0x400A1004 + n * 0x100
/-- AXn_CMD: Axis commands. -/
def AXn_CMD (n : Nat) : Nat := 0x400A1008 + n * 0x100
/-- AXn_STAT: Axis status; ATREST 1 at reset. -/
def AXn_STAT (n : Nat) : Nat := 0x400A100C + n * 0x100
/-- AXn_EVCAUSE: Causes of source 256 + *n*. -/
def AXn_EVCAUSE (n : Nat) : Nat := 0x400A1010 + n * 0x100
/-- AXn_TGT_LO: Target position. -/
def AXn_TGT_LO (n : Nat) : Nat := 0x400A1018 + n * 0x100
/-- AXn_TGT_HI: Target position. -/
def AXn_TGT_HI (n : Nat) : Nat := 0x400A101C + n * 0x100
/-- AXn_VMAX_LO: Velocity limit. -/
def AXn_VMAX_LO (n : Nat) : Nat := 0x400A1020 + n * 0x100
/-- AXn_VMAX_HI: Velocity limit. -/
def AXn_VMAX_HI (n : Nat) : Nat := 0x400A1024 + n * 0x100
/-- AXn_VTGT_LO: Velocity target, signed. -/
def AXn_VTGT_LO (n : Nat) : Nat := 0x400A1028 + n * 0x100
/-- AXn_VTGT_HI: Velocity target, signed. -/
def AXn_VTGT_HI (n : Nat) : Nat := 0x400A102C + n * 0x100
/-- AXn_AMAX_LO: Acceleration limit. -/
def AXn_AMAX_LO (n : Nat) : Nat := 0x400A1030 + n * 0x100
/-- AXn_AMAX_HI: Acceleration limit. -/
def AXn_AMAX_HI (n : Nat) : Nat := 0x400A1034 + n * 0x100
/-- AXn_DMAX_LO: Deceleration limit. -/
def AXn_DMAX_LO (n : Nat) : Nat := 0x400A1038 + n * 0x100
/-- AXn_DMAX_HI: Deceleration limit. -/
def AXn_DMAX_HI (n : Nat) : Nat := 0x400A103C + n * 0x100
/-- AXn_JMAX_LO: Jerk limit. -/
def AXn_JMAX_LO (n : Nat) : Nat := 0x400A1040 + n * 0x100
/-- AXn_JMAX_HI: Jerk limit. -/
def AXn_JMAX_HI (n : Nat) : Nat := 0x400A1044 + n * 0x100
/-- AXn_SDEC_LO: Stop deceleration. -/
def AXn_SDEC_LO (n : Nat) : Nat := 0x400A1048 + n * 0x100
/-- AXn_SDEC_HI: Stop deceleration. -/
def AXn_SDEC_HI (n : Nat) : Nat := 0x400A104C + n * 0x100
/-- AXn_SJERK_LO: Stop jerk. -/
def AXn_SJERK_LO (n : Nat) : Nat := 0x400A1050 + n * 0x100
/-- AXn_SJERK_HI: Stop jerk. -/
def AXn_SJERK_HI (n : Nat) : Nat := 0x400A1054 + n * 0x100
/-- AXn_GEARNUM: Counts, signed. -/
def AXn_GEARNUM (n : Nat) : Nat := 0x400A1058 + n * 0x100
/-- AXn_GEARDEN: Revolutions, unsigned. -/
def AXn_GEARDEN (n : Nat) : Nat := 0x400A105C + n * 0x100
/-- AXn_GOFS_LO: Shaft-term offset; also written by MOT. -/
def AXn_GOFS_LO (n : Nat) : Nat := 0x400A1060 + n * 0x100
/-- AXn_GOFS_HI: Shaft-term offset; also written by MOT. -/
def AXn_GOFS_HI (n : Nat) : Nat := 0x400A1064 + n * 0x100
/-- AXn_PHASE_LO: Phase offset by R309. -/
def AXn_PHASE_LO (n : Nat) : Nat := 0x400A1068 + n * 0x100
/-- AXn_PHASE_HI: Phase offset by R309. -/
def AXn_PHASE_HI (n : Nat) : Nat := 0x400A106C + n * 0x100
/-- AXn_CAMBASE0: Table addresses, [31:3]. -/
def AXn_CAMBASE0 (n : Nat) : Nat := 0x400A1070 + n * 0x100
/-- AXn_CAMBASE1: Table addresses, [31:3]. -/
def AXn_CAMBASE1 (n : Nat) : Nat := 0x400A1074 + n * 0x100
/-- AXn_CAMCFG0: Table shape. -/
def AXn_CAMCFG0 (n : Nat) : Nat := 0x400A1078 + n * 0x100
/-- AXn_CAMCFG1: Table shape. -/
def AXn_CAMCFG1 (n : Nat) : Nat := 0x400A107C + n * 0x100
/-- AXn_CAMSPAN0: Span, 2^16-grain units. -/
def AXn_CAMSPAN0 (n : Nat) : Nat := 0x400A1080 + n * 0x100
/-- AXn_CAMSPAN1: Span, 2^16-grain units. -/
def AXn_CAMSPAN1 (n : Nat) : Nat := 0x400A1084 + n * 0x100
/-- AXn_SETPOS_LO: Reference position by R303. -/
def AXn_SETPOS_LO (n : Nat) : Nat := 0x400A1088 + n * 0x100
/-- AXn_SETPOS_HI: Reference position by R303. -/
def AXn_SETPOS_HI (n : Nat) : Nat := 0x400A108C + n * 0x100
/-- AXn_DEVWIN: Window, counts; 0 off. -/
def AXn_DEVWIN (n : Nat) : Nat := 0x400A1090 + n * 0x100
/-- AXn_DEVTIME: µs, [15:0]; 0 stored as 1. -/
def AXn_DEVTIME (n : Nat) : Nat := 0x400A1094 + n * 0x100
/-- AXn_DEVDLY: µs, [7:0]. -/
def AXn_DEVDLY (n : Nat) : Nat := 0x400A1098 + n * 0x100
/-- AXn_DEVNOW: Deviation, counts, signed, saturating. -/
def AXn_DEVNOW (n : Nat) : Nat := 0x400A109C + n * 0x100
/-- AXn_CMDPOS_LO: Command position; LO latches by R316. -/
def AXn_CMDPOS_LO (n : Nat) : Nat := 0x400A10A0 + n * 0x100
/-- AXn_CMDPOS_HI: Command position; LO latches by R316. -/
def AXn_CMDPOS_HI (n : Nat) : Nat := 0x400A10A4 + n * 0x100
/-- AXn_CMDVEL_LO: Command velocity. -/
def AXn_CMDVEL_LO (n : Nat) : Nat := 0x400A10A8 + n * 0x100
/-- AXn_CMDVEL_HI: Command velocity. -/
def AXn_CMDVEL_HI (n : Nat) : Nat := 0x400A10AC + n * 0x100
/-- AXn_CMDT: Line time of the latched instant, µs [31:0]. -/
def AXn_CMDT (n : Nat) : Nat := 0x400A10B0 + n * 0x100
/-- AXn_ACTPOS_LO: Actual position. -/
def AXn_ACTPOS_LO (n : Nat) : Nat := 0x400A10B4 + n * 0x100
/-- AXn_ACTPOS_HI: Actual position. -/
def AXn_ACTPOS_HI (n : Nat) : Nat := 0x400A10B8 + n * 0x100
/-- AXn_STOPPOS_LO: Stopping point by R306 and R314. -/
def AXn_STOPPOS_LO (n : Nat) : Nat := 0x400A10BC + n * 0x100
/-- AXn_STOPPOS_HI: Stopping point by R306 and R314. -/
def AXn_STOPPOS_HI (n : Nat) : Nat := 0x400A10C0 + n * 0x100
/-- AXn_ACTIN: Network feedback value. -/
def AXn_ACTIN (n : Nat) : Nat := 0x400A10C4 + n * 0x100
/-- AXn_FBSCALE: Counts per feedback unit, signed 16.16. -/
def AXn_FBSCALE (n : Nat) : Nat := 0x400A10C8 + n * 0x100
/-- AXn_FBCFG: Feedback width and stale limit. -/
def AXn_FBCFG (n : Nat) : Nat := 0x400A10CC + n * 0x100
/-- STm_CFG: Step generator binding. -/
def STm_CFG (n : Nat) : Nat := 0x400A4000 + n * 0x20
/-- STm_TIM: Step timing, 4 ns units. -/
def STm_TIM (n : Nat) : Nat := 0x400A4004 + n * 0x20
/-- STm_POS: Steps, signed, wrapping. -/
def STm_POS (n : Nat) : Nat := 0x400A4008 + n * 0x20
/-- STm_LAG: Steps owed. -/
def STm_LAG (n : Nat) : Nat := 0x400A400C + n * 0x20
/-- STm_FLAGS: Step flags. -/
def STm_FLAGS (n : Nat) : Nat := 0x400A4010 + n * 0x20
/-- QEm_CFG: Decoder binding. -/
def QEm_CFG (n : Nat) : Nat := 0x400A5000 + n * 0x20
/-- QEm_CNT: Count, wrapping. -/
def QEm_CNT (n : Nat) : Nat := 0x400A5004 + n * 0x20
/-- QEm_IDX: Count at the last index. -/
def QEm_IDX (n : Nat) : Nat := 0x400A5008 + n * 0x20
/-- QEm_FLAGS: Decoder flags. -/
def QEm_FLAGS (n : Nat) : Nat := 0x400A500C + n * 0x20
/-- SCc_OWNER: Master that may configure the cluster, [3:0]. -/
def SCc_OWNER (n : Nat) : Nat := 0x400B0000 + n * 0x2000
/-- SCc_WINBASE: First GPIO of the window, [6:0]. -/
def SCc_WINBASE (n : Nat) : Nat := 0x400B0004 + n * 0x2000
/-- SCc_FLAGSET: Cluster flags [7:0]; 1 sets. -/
def SCc_FLAGSET (n : Nat) : Nat := 0x400B0008 + n * 0x2000
/-- SCc_FLAGCLR: Cluster flags [7:0]; 1 clears. -/
def SCc_FLAGCLR (n : Nat) : Nat := 0x400B000C + n * 0x2000
/-- SCc_INSN0–SCc_INSN255: Instruction words, by R344. -/
def SCc_INSN (n k : Nat) : Nat := 0x400B1000 + n * 0x2000 + k * 4
/-- SKn_CTL: Enable, restart, feed watermark. -/
def SKn_CTL (n : Nat) : Nat := 0x400B0100 + n / 8 * 0x2000 + n % 8 * 0x80
/-- SKn_STAT: Skipper status. -/
def SKn_STAT (n : Nat) : Nat := 0x400B0104 + n / 8 * 0x2000 + n % 8 * 0x80
/-- SKn_EVCAUSE: Causes of source 288 + *n*. -/
def SKn_EVCAUSE (n : Nat) : Nat := 0x400B0108 + n / 8 * 0x2000 + n % 8 * 0x80
/-- SKn_CLK: Clock divider, by R331. -/
def SKn_CLK (n : Nat) : Nat := 0x400B010C + n / 8 * 0x2000 + n % 8 * 0x80
/-- SKn_RANGE: Program range and wrap target. -/
def SKn_RANGE (n : Nat) : Nat := 0x400B0110 + n / 8 * 0x2000 + n % 8 * 0x80
/-- SKn_CFG: Lanes of JMP, IN and OUT; SET mask; shift order. -/
def SKn_CFG (n : Nat) : Nat := 0x400B0114 + n / 8 * 0x2000 + n % 8 * 0x80
/-- SKn_LANES0: Map of lanes L0–L3. -/
def SKn_LANES0 (n : Nat) : Nat := 0x400B0118 + n / 8 * 0x2000 + n % 8 * 0x80
/-- SKn_LANES1: Map of lanes L4–L7. -/
def SKn_LANES1 (n : Nat) : Nat := 0x400B011C + n / 8 * 0x2000 + n % 8 * 0x80
/-- SKn_TMO: WAIT timeout channel TO0–TO31, [4:0]. -/
def SKn_TMO (n : Nat) : Nat := 0x400B0120 + n / 8 * 0x2000 + n % 8 * 0x80
/-- SKn_FEED: Word for the feed FIFO. -/
def SKn_FEED (n : Nat) : Nat := 0x400B0124 + n / 8 * 0x2000 + n % 8 * 0x80
/-- SKn_FEEDSTAT: Feed FIFO fill, [3:0], 0 to 8. -/
def SKn_FEEDSTAT (n : Nat) : Nat := 0x400B0128 + n / 8 * 0x2000 + n % 8 * 0x80
/-- SKn_D: Data register D. -/
def SKn_D (n : Nat) : Nat := 0x400B012C + n / 8 * 0x2000 + n % 8 * 0x80
/-- SKn_C: Loop counters C1 and C0. -/
def SKn_C (n : Nat) : Nat := 0x400B0130 + n / 8 * 0x2000 + n % 8 * 0x80
/-- SKn_SHI: SHI. -/
def SKn_SHI (n : Nat) : Nat := 0x400B0134 + n / 8 * 0x2000 + n % 8 * 0x80
/-- SKn_SHO: SHO. -/
def SKn_SHO (n : Nat) : Nat := 0x400B0138 + n / 8 * 0x2000 + n % 8 * 0x80
/-- SKn_STAMP_LO: Stamp ns [31:0]; latches STAMP_HI. -/
def SKn_STAMP_LO (n : Nat) : Nat := 0x400B013C + n / 8 * 0x2000 + n % 8 * 0x80
/-- SKn_STAMP_HI: Stamp ns [63:32]. -/
def SKn_STAMP_HI (n : Nat) : Nat := 0x400B0140 + n / 8 * 0x2000 + n % 8 * 0x80
/-- SKn_IRQ: Interrupt lines [7:0]. -/
def SKn_IRQ (n : Nat) : Nat := 0x400B0144 + n / 8 * 0x2000 + n % 8 * 0x80
/-- SKn_IRQSET: Interrupt line 7 in [7]; other bits ignored. -/
def SKn_IRQSET (n : Nat) : Nat := 0x400B0148 + n / 8 * 0x2000 + n % 8 * 0x80
/-- SKn_LATCH: Lane output and direction latches. -/
def SKn_LATCH (n : Nat) : Nat := 0x400B014C + n / 8 * 0x2000 + n % 8 * 0x80
/-- PFn_CFG: Width, reader, channel, watermark. -/
def PFn_CFG (n : Nat) : Nat := 0x400B8000 + n * 0x20
/-- PFn_CTL: Bit 0 = 1 resets the FIFO. -/
def PFn_CTL (n : Nat) : Nat := 0x400B8004 + n * 0x20
/-- PFn_STAT: Fill. -/
def PFn_STAT (n : Nat) : Nat := 0x400B8008 + n * 0x20
/-- PFn_FLAGS: FIFO flags. -/
def PFn_FLAGS (n : Nat) : Nat := 0x400B800C + n * 0x20
/-- PFn_DATA_LO: Word [31:0]; a read pops by R348. -/
def PFn_DATA_LO (n : Nat) : Nat := 0x400B8010 + n * 0x20
/-- PFn_DATA_HI: Word [63:32], latched. -/
def PFn_DATA_HI (n : Nat) : Nat := 0x400B8014 + n * 0x20
/-- PFn_TAG: Tag of R347, latched. -/
def PFn_TAG (n : Nat) : Nat := 0x400B8018 + n * 0x20
/-- PFn_CREDIT: Read credits. -/
def PFn_CREDIT (n : Nat) : Nat := 0x400B801C + n * 0x20
/-- MEM_CTL: Scrubber. -/
def MEM_CTL : Nat := 0x400C0000
/-- MEM_STAT: MRAM and map status. -/
def MEM_STAT : Nat := 0x400C0004
/-- MEM_EVCAUSE: Event causes. -/
def MEM_EVCAUSE : Nat := 0x400C0008
/-- MEM_OERR: Last ownership error. -/
def MEM_OERR : Nat := 0x400C0010
/-- MEM_OERRCNT: Ownership errors, saturating. -/
def MEM_OERRCNT : Nat := 0x400C0014
/-- MEM_ECCCE: Corrected errors, saturating. -/
def MEM_ECCCE : Nat := 0x400C0020
/-- MEM_ECCUE: Uncorrectable errors, saturating. -/
def MEM_ECCUE : Nat := 0x400C0024
/-- MEM_ECCADDR: Address of the last uncorrectable error. -/
def MEM_ECCADDR : Nat := 0x400C0028
/-- MEM_SCRUB: Scrub period per line, µs, 1 to 65,535. -/
def MEM_SCRUB : Nat := 0x400C002C
/-- MEM_AT_ADDR: Atomic address, per master. -/
def MEM_AT_ADDR : Nat := 0x400C0030
/-- MEM_AT_OPND: Atomic operand, per master. -/
def MEM_AT_OPND : Nat := 0x400C0034
/-- MEM_AT_FADD: A read performs FADD by R359. -/
def MEM_AT_FADD : Nat := 0x400C0038
/-- MEM_AT_SWAP: A read performs SWAP by R359. -/
def MEM_AT_SWAP : Nat := 0x400C003C
/-- MEM_MARCH_CTL: March control. -/
def MEM_MARCH_CTL : Nat := 0x400C0040
/-- MEM_MARCH_BANKS: Banks to test, bit per bank. -/
def MEM_MARCH_BANKS : Nat := 0x400C0044
/-- MEM_BSTAT0–MEM_BSTAT31: Bank status. -/
def MEM_BSTAT (n : Nat) : Nat := 0x400C0100 + n * 4
/-- MEM_BOWN0–MEM_BOWN31: Bank owner group. -/
def MEM_BOWN (n : Nat) : Nat := 0x400C0200 + n * 4
/-- MEM_OGRP0–MEM_OGRP15: Owner-group members. -/
def MEM_OGRP (n : Nat) : Nat := 0x400C0300 + n * 4
/-- MEM_LK0–MEM_LK255: Locks, by R360 to R362. -/
def MEM_LK (n : Nat) : Nat := 0x400C0400 + n * 4
/-- XDM_FRZ_MST: Oldest freeze: unit and master. -/
def XDM_FRZ_MST : Nat := 0x400D0010
/-- XDM_FRZ_SEG: Segment, [4:0]. -/
def XDM_FRZ_SEG : Nat := 0x400D0014
/-- XDM_FRZ_OFS: Offset or address. -/
def XDM_FRZ_OFS : Nat := 0x400D0018
/-- XDM_FRZ_ACC: Access. -/
def XDM_FRZ_ACC : Nat := 0x400D001C
/-- XDM_FRZ_LT_LO: LT ns [31:0]; latches LT_HI. -/
def XDM_FRZ_LT_LO : Nat := 0x400D0020
/-- XDM_FRZ_LT_HI: LT ns [63:32]. -/
def XDM_FRZ_LT_HI : Nat := 0x400D0024
/-- XDM_FRZ_COUNT: Queue entries, [7:0]. -/
def XDM_FRZ_COUNT : Nat := 0x400D0028
/-- XDM_FRZ_RESOLVE: Resolution by R376; reads 0. -/
def XDM_FRZ_RESOLVE : Nat := 0x400D002C
/-- XDn_CTL: Channel commands. -/
def XDn_CTL (n : Nat) : Nat := 0x400D1000 + n * 0x40
/-- XDn_STAT: Channel status. -/
def XDn_STAT (n : Nat) : Nat := 0x400D1004 + n * 0x40
/-- XDn_FLAGS: Causes of source 352 + *n*. -/
def XDn_FLAGS (n : Nat) : Nat := 0x400D1008 + n * 0x40
/-- XDn_OWNER: Master ID, [3:0]. -/
def XDn_OWNER (n : Nat) : Nat := 0x400D100C + n * 0x40
/-- XDn_DESC: First descriptor, [31:5]. -/
def XDn_DESC (n : Nat) : Nat := 0x400D1010 + n * 0x40
/-- XDn_CUR: Descriptor in progress, [31:5]. -/
def XDn_CUR (n : Nat) : Nat := 0x400D1014 + n * 0x40
/-- XDn_TRIGT_LO: Trigger time ns [31:0]; commits. -/
def XDn_TRIGT_LO (n : Nat) : Nat := 0x400D1018 + n * 0x40
/-- XDn_TRIGT_HI: Trigger time ns [63:32], staged. -/
def XDn_TRIGT_HI (n : Nat) : Nat := 0x400D101C + n * 0x40
/-- XDn_TRIGPER: Trigger period, ns; 0 once. -/
def XDn_TRIGPER (n : Nat) : Nat := 0x400D1020 + n * 0x40
/-- XDn_TMO: ARMED timeout, µs; 0 off. -/
def XDn_TMO (n : Nat) : Nat := 0x400D1024 + n * 0x40
/-- XDn_DONE: Descriptors ended, saturating. -/
def XDn_DONE (n : Nat) : Nat := 0x400D1028 + n * 0x40
/-- XDM_SEGm_BASEs: Base and rights. -/
def XDM_SEGm_BASEs (n k : Nat) : Nat := 0x400D4000 + n * 0x80 + k * 8
/-- XDM_SEGm_SIZEs: Size. -/
def XDM_SEGm_SIZEs (n k : Nat) : Nat := 0x400D4004 + n * 0x80 + k * 8
/-- MBn_DATA0–MBn_DATA15: Message words, by R389. -/
def MBn_DATA (n k : Nat) : Nat := 0x400F0000 + n * 0x80 + k * 4
/-- MBn_CTL: Send, flags and reset. -/
def MBn_CTL (n : Nat) : Nat := 0x400F0040 + n * 0x80
/-- MBn_CFG: Parties, mode, timeout, pair. -/
def MBn_CFG (n : Nat) : Nat := 0x400F0044 + n * 0x80
/-- MBX_PAIRLIM: Cross-wait limit, µs, 1 to 4,294,967,295; 0 stored as 1. -/
def MBX_PAIRLIM : Nat := 0x400F2000
/-- MBX_FULL0: FULL of MB0–MB31, MB32–MB63. -/
def MBX_FULL0 : Nat := 0x400F2004
/-- MBX_FULL1: FULL of MB0–MB31, MB32–MB63. -/
def MBX_FULL1 : Nat := 0x400F2008
/-- MBX_CROSS0: CROSS of MB0–MB31, MB32–MB63. -/
def MBX_CROSS0 : Nat := 0x400F200C
/-- MBX_CROSS1: CROSS of MB0–MB31, MB32–MB63. -/
def MBX_CROSS1 : Nat := 0x400F2010
/-- EVT_RAISE: SRC in [8:0], by R402; reads 0. -/
def EVT_RAISE : Nat := 0x400F8004
/-- EVT_PINSTAT: [3:0]: 1 while INTk_N is driven low. -/
def EVT_PINSTAT : Nat := 0x400F8010
/-- EVT_PEND0–EVT_PEND15: Bit *n* mod 32 of word *n* div 32: source *n* raised. -/
def EVT_PEND (n : Nat) : Nat := 0x400F8100 + n * 4
/-- EVT_EQk_STAT: COUNT in [6:0], 0 to 64. -/
def EVT_EQk_STAT (n : Nat) : Nat := 0x400F8400 + n * 0x40
/-- EVT_EQk_POP: Bit 0 = 1 pops the head record. -/
def EVT_EQk_POP (n : Nat) : Nat := 0x400F8404 + n * 0x40
/-- EVT_EQk_LOST: Records dropped. -/
def EVT_EQk_LOST (n : Nat) : Nat := 0x400F8408 + n * 0x40
/-- EVT_EQk_FLAGS: LOST in bit 0. -/
def EVT_EQk_FLAGS (n : Nat) : Nat := 0x400F840C + n * 0x40
/-- EVT_EQk_OWNER: Master ID that may pop, [3:0]. -/
def EVT_EQk_OWNER (n : Nat) : Nat := 0x400F8410 + n * 0x40
/-- EVT_EQk_HEAD0–EVT_EQk_HEAD3: Head record, words 0–3 of R400. -/
def EVT_EQk_HEAD (n k : Nat) : Nat := 0x400F8420 + n * 0x40 + k * 4
/-- EVT_ROUTE0–EVT_ROUTE511: Route of each source. -/
def EVT_ROUTE (n : Nat) : Nat := 0x400F9000 + n * 4
/-- CVn_CFG: Width, reflection, folding. -/
def CVn_CFG (n : Nat) : Nat := 0x400E0000 + n * 0x80
/-- CVn_CTL: Load, start, finish. -/
def CVn_CTL (n : Nat) : Nat := 0x400E0004 + n * 0x80
/-- CVn_FLAGS: Causes of source 432 + *n*. -/
def CVn_FLAGS (n : Nat) : Nat := 0x400E0008 + n * 0x80
/-- CVn_OWNER: Master that may write, [3:0]. -/
def CVn_OWNER (n : Nat) : Nat := 0x400E000C + n * 0x80
/-- CVn_POLY_LO: Polynomial, normal form. -/
def CVn_POLY_LO (n : Nat) : Nat := 0x400E0010 + n * 0x80
/-- CVn_POLY_HI: Polynomial, normal form. -/
def CVn_POLY_HI (n : Nat) : Nat := 0x400E0014 + n * 0x80
/-- CVn_INIT_LO: Initial register. -/
def CVn_INIT_LO (n : Nat) : Nat := 0x400E0018 + n * 0x80
/-- CVn_INIT_HI: Initial register. -/
def CVn_INIT_HI (n : Nat) : Nat := 0x400E001C + n * 0x80
/-- CVn_XOROUT_LO: Final xor. -/
def CVn_XOROUT_LO (n : Nat) : Nat := 0x400E0020 + n * 0x80
/-- CVn_XOROUT_HI: Final xor. -/
def CVn_XOROUT_HI (n : Nat) : Nat := 0x400E0024 + n * 0x80
/-- CVn_STATE_LO: Running register, by R406. -/
def CVn_STATE_LO (n : Nat) : Nat := 0x400E0028 + n * 0x80
/-- CVn_STATE_HI: Running register, by R406. -/
def CVn_STATE_HI (n : Nat) : Nat := 0x400E002C + n * 0x80
/-- CVn_RESULT_LO: Result; LO latches HI. -/
def CVn_RESULT_LO (n : Nat) : Nat := 0x400E0030 + n * 0x80
/-- CVn_RESULT_HI: Result; LO latches HI. -/
def CVn_RESULT_HI (n : Nat) : Nat := 0x400E0034 + n * 0x80
/-- CVn_FOLD: Fold word. -/
def CVn_FOLD (n : Nat) : Nat := 0x400E0038 + n * 0x80
/-- CVn_DATA4: Four bytes to absorb. -/
def CVn_DATA4 (n : Nat) : Nat := 0x400E003C + n * 0x80
/-- CVn_DATA1: One byte to absorb, [7:0]. -/
def CVn_DATA1 (n : Nat) : Nat := 0x400E0040 + n * 0x80
/-- CVn_COUNT: Bytes absorbed since START, wrapping. -/
def CVn_COUNT (n : Nat) : Nat := 0x400E0044 + n * 0x80
/-- HIF_STAT: Path, link and ring state. -/
def HIF_STAT : Nat := 0x40110000
/-- HIF_FLAGS: Host-path flags. -/
def HIF_FLAGS : Nat := 0x40110004
/-- HIF_CMD_DB: Command producer, [15:0]; host writes by R423. -/
def HIF_CMD_DB : Nat := 0x40110008
/-- HIF_CMD_CONS: Command consumer, [15:0]. -/
def HIF_CMD_CONS : Nat := 0x4011000C
/-- HIF_RPL_PROD: Reply producer, [15:0]. -/
def HIF_RPL_PROD : Nat := 0x40110010
/-- HIF_RPL_DB: Reply consumer, [15:0]; host writes by R423. -/
def HIF_RPL_DB : Nat := 0x40110014
/-- HIF_RPL_SIG: Bit 0 = 1 sends the reply notice; reads 0. -/
def HIF_RPL_SIG : Nat := 0x40110018
/-- HIF_VPEND0: Vectors 0–31, xSPI and parallel paths. -/
def HIF_VPEND0 : Nat := 0x40110020
/-- HIF_VPEND1: Vectors 32–63. -/
def HIF_VPEND1 : Nat := 0x40110024
/-- HIF_OB_BASE_LO: Host address [31:28] in [31:28]; commits. -/
def HIF_OB_BASE_LO : Nat := 0x40110030
/-- HIF_OB_BASE_HI: Host address [63:32], staged. -/
def HIF_OB_BASE_HI : Nat := 0x40110034
/-- HIF_XT_CFG: xSPI target. -/
def HIF_XT_CFG : Nat := 0x40110040
/-- HIF_PB_CFG: Parallel bus. -/
def HIF_PB_CFG : Nat := 0x40110044
/-- HIF_FC_CFG: Boot flash controller. -/
def HIF_FC_CFG : Nat := 0x40110050
/-- SEC_EVCAUSE: Flags. -/
def SEC_EVCAUSE : Nat := 0x40100000
/-- SEC_KSTAT: Sessions, locks, claim. -/
def SEC_KSTAT : Nat := 0x40100004
/-- SEC_ROOTSTAT: Root slots. -/
def SEC_ROOTSTAT : Nat := 0x40100008
/-- SEC_RBCNT: Rollback counters. -/
def SEC_RBCNT : Nat := 0x4010000C
/-- SEC_POLICY: Policy bits. -/
def SEC_POLICY : Nat := 0x40100010
/-- SEC_SERIAL_LO: Serial [31:0]; latches SEC_SERIAL_HI. -/
def SEC_SERIAL_LO : Nat := 0x40100014
/-- SEC_SERIAL_HI: Serial [63:32]. -/
def SEC_SERIAL_HI : Nat := 0x40100018
/-- SEC_VENDORID: Vendor ID, [15:0]. -/
def SEC_VENDORID : Nat := 0x4010001C
/-- SEC_FPROG: Fuse operation. -/
def SEC_FPROG : Nat := 0x40100020
/-- SEC_FDATA0–SEC_FDATA11: Digest bytes. -/
def SEC_FDATA (n : Nat) : Nat := 0x40100030 + n * 4
/-- SEC_JOB_DESC: Descriptor address, [31:5]. -/
def SEC_JOB_DESC : Nat := 0x40100080
/-- SEC_JOB_CTL: Bit 0 = 1 starts the job; reads 0. -/
def SEC_JOB_CTL : Nat := 0x40100084
/-- SEC_JOB_STAT: Job status. -/
def SEC_JOB_STAT : Nat := 0x40100088
/-- SEC_TRNG_CTL: Bit 0 = 1 restarts the TRNG; reads 0. -/
def SEC_TRNG_CTL : Nat := 0x401000A0
/-- SEC_TRNG_STAT: TRNG status. -/
def SEC_TRNG_STAT : Nat := 0x401000A4
/-- SEC_TRNG_DATA: Random word. -/
def SEC_TRNG_DATA : Nat := 0x401000A8
/-- EVR_STAT: Recorder status. -/
def EVR_STAT : Nat := 0x40140000
/-- EVR_FLAGS: Flags. -/
def EVR_FLAGS : Nat := 0x40140004
/-- EVR_OPSEC: Operating seconds. -/
def EVR_OPSEC : Nat := 0x40140008
/-- EVR_PCC: Power-cycle count. -/
def EVR_PCC : Nat := 0x4014000C
/-- EVR_NEWSEQ: Newest held sequence. -/
def EVR_NEWSEQ : Nat := 0x40140010
/-- EVR_OLDSEQ: Oldest held sequence. -/
def EVR_OLDSEQ : Nat := 0x40140014
/-- EVR_TORN: Torn slots at RESET, [12:0]. -/
def EVR_TORN : Nat := 0x40140018
/-- EVR_SUB_HDR: Severity and source. -/
def EVR_SUB_HDR : Nat := 0x40140020
/-- EVR_SUB_CODE: Code. -/
def EVR_SUB_CODE : Nat := 0x40140024
/-- EVR_SUB_DATA0–EVR_SUB_DATA7: Data. -/
def EVR_SUB_DATA (n : Nat) : Nat := 0x40140028 + n * 4
/-- EVR_SUB_CTL: Submit or clear; reads 0. -/
def EVR_SUB_CTL : Nat := 0x40140048
/-- EVR_SUB_RESULT: Sequence given, or 0xFFFF_FFFF. -/
def EVR_SUB_RESULT : Nat := 0x4014004C
/-- EVR_DROP0–EVR_DROP7: Dropped counts per severity. -/
def EVR_DROP (n : Nat) : Nat := 0x40140060 + n * 4
/-- SYS_ID: Part and revision, by R2. -/
def SYS_ID : Nat := 0x40000000
/-- SYS_STATE: Device state, by R489. -/
def SYS_STATE : Nat := 0x40000004
/-- SYS_RSTCAUSE: Reset cause. -/
def SYS_RSTCAUSE : Nat := 0x40000008
/-- SYS_STRAP: Sampled straps. -/
def SYS_STRAP : Nat := 0x4000000C
/-- SYS_BOOT: Boot result. -/
def SYS_BOOT : Nat := 0x40000010
/-- SYS_FLAGS: REFUSED in bit 0. -/
def SYS_FLAGS : Nat := 0x40000014
/-- PWR_STAT: Supply and clock status. -/
def PWR_STAT : Nat := 0x40010000
/-- PWR_EVCAUSE: Flags. -/
def PWR_EVCAUSE : Nat := 0x40010004
/-- PWR_AVS: VDD_CORE target, mV, [9:0]. -/
def PWR_AVS : Nat := 0x40010008
/-- PWR_VMON: VIN_BUCK mV [31:16], VDD_CORE mV [15:0]. -/
def PWR_VMON : Nat := 0x4001000C
/-- PWR_TEMP: Junction temperature, signed, 0.25 °C, [11:0]. -/
def PWR_TEMP : Nat := 0x40010010
/-- PWR_TEMPLIM: Limit, same format; reset 120 °C. -/
def PWR_TEMPLIM : Nat := 0x40010014
/-- PWR_GATE: Unit power, by R481. -/
def PWR_GATE : Nat := 0x40010018
/-- PWR_GSTAT: Units powered, layout of PWR_GATE. -/
def PWR_GSTAT : Nat := 0x4001001C
/-- PWR_SEQ_CFG0–PWR_SEQ_CFG3: Sequencer steps. -/
def PWR_SEQ_CFG (n : Nat) : Nat := 0x40010020 + n * 4
/-- PWR_WDT_CFG: Watchdog limit, ms, [9:0]. -/
def PWR_WDT_CFG : Nat := 0x40010040
/-- PWR_WDT_KICK: 0xA5 restarts the watchdog; reads 0. -/
def PWR_WDT_KICK : Nat := 0x40010044
/-- PWR_WDT_LEFT: Time left, ms. -/
def PWR_WDT_LEFT : Nat := 0x40010048
/-- PWR_RST: KEY [15:0] = 0x5EED resets the device; reads 0. -/
def PWR_RST : Nat := 0x40010050
/-- SYS_PIN0–SYS_PIN127: Pin function and electrical settings. -/
def SYS_PIN (n : Nat) : Nat := 0x40001000 + n * 4
/-- SYS_GPIO_IN0–SYS_GPIO_IN3: Pad levels of GP32*k* to GP32*k* + 31. -/
def SYS_GPIO_IN (n : Nat) : Nat := 0x40001200 + n * 4
/-- SYS_GPIO_OUT0–SYS_GPIO_OUT3: Software output levels. -/
def SYS_GPIO_OUT (n : Nat) : Nat := 0x40001210 + n * 4
/-- SYS_GPIO_OE0–SYS_GPIO_OE3: Software output enables. -/
def SYS_GPIO_OE (n : Nat) : Nat := 0x40001220 + n * 4
/-- SYS_GPIO_SET0–SYS_GPIO_SET3: 1 sets the OUT bit. -/
def SYS_GPIO_SET (n : Nat) : Nat := 0x40001230 + n * 4
/-- SYS_GPIO_CLR0–SYS_GPIO_CLR3: 1 clears the OUT bit. -/
def SYS_GPIO_CLR (n : Nat) : Nat := 0x40001240 + n * 4
/-- SYS_IOBSTAT: Bank voltages, by R507. -/
def SYS_IOBSTAT : Nat := 0x40001250
/-- TST_STAT: Debug port status. -/
def TST_STAT : Nat := 0x40150000
/-- TST_FLAGS: REFUSED in bit 0, by R521. -/
def TST_FLAGS : Nat := 0x40150004
/-- TST_PRBSl_CTL: Run, pattern, loop, rate. -/
def TST_PRBSl_CTL (n : Nat) : Nat := 0x40150100 + n * 0x20
/-- TST_PRBSl_STAT: Checker status. -/
def TST_PRBSl_STAT (n : Nat) : Nat := 0x40150104 + n * 0x20
/-- TST_PRBSl_BITS_LO: Bits checked [31:0]; latches BITS_HI. -/
def TST_PRBSl_BITS_LO (n : Nat) : Nat := 0x40150108 + n * 0x20
/-- TST_PRBSl_BITS_HI: Bits checked [63:32]. -/
def TST_PRBSl_BITS_HI (n : Nat) : Nat := 0x4015010C + n * 0x20
/-- TST_PRBSl_ERR: Errors, saturating. -/
def TST_PRBSl_ERR (n : Nat) : Nat := 0x40150110 + n * 0x20

/-- One row of a register map: `count` blocks `stride` apart, in each `count2` registers
`stride2` apart; the reset value; and the bits with each access code of R10. -/
structure RegRow where
  base : Nat
  count : Nat
  stride : Nat
  count2 : Nat
  stride2 : Nat
  reset : Nat
  rw : Nat
  so : Nat
  w1c : Nat
  w1s : Nat
  rc : Nat
  ro : Nat
  /-- For a _LO register, the offsets of its companions (R15). -/
  comps : List Nat
  /-- Whether it is a companion of a _LO register (R15). -/
  isComp : Bool
  deriving DecidableEq, Repr

/-- The register rows of the TMU window. -/
def regRowsTmu : List RegRow :=
  [ ⟨0x40020000, 1, 0x0, 1, 0, 0x0, 0x0, 0x10F, 0x0, 0x0, 0x0, 0x0, [], false⟩,
    ⟨0x40020004, 1, 0x0, 1, 0, 0x0, 0x0, 0x0, 0x7, 0x0, 0x0, 0x0, [], false⟩,
    ⟨0x40020008, 1, 0x0, 1, 0, 0x0, 0x0, 0x0, 0x0, 0x0, 0x0, 0xFFFFFFFF, [4], false⟩,
    ⟨0x4002000C, 1, 0x0, 1, 0, 0x0, 0x0, 0x0, 0x0, 0x0, 0x0, 0xFFFFFFFF, [], true⟩,
    ⟨0x40020010, 1, 0x0, 1, 0, 0x0, 0x0, 0x0, 0x0, 0x0, 0x0, 0xFFFFFFFF, [4, 8], false⟩,
    ⟨0x40020014, 1, 0x0, 1, 0, 0x0, 0x0, 0x0, 0x0, 0x0, 0x0, 0xFFFFFFFF, [], true⟩,
    ⟨0x40020018, 1, 0x0, 1, 0, 0x0, 0x0, 0x0, 0x0, 0x0, 0x0, 0xFFFF, [], true⟩,
    ⟨0x4002001C, 1, 0x0, 1, 0, 0x0, 0x0, 0x0, 0x0, 0x0, 0x0, 0xFFFFFFFF, [4], false⟩,
    ⟨0x40020020, 1, 0x0, 1, 0, 0x0, 0x0, 0x0, 0x0, 0x0, 0x0, 0xFFFFFFFF, [], true⟩,
    ⟨0x40020024, 1, 0x0, 1, 0, 0x0, 0x3, 0x0, 0x0, 0x0, 0x0, 0x110, [], false⟩,
    ⟨0x40020028, 1, 0x0, 1, 0, 0xC8, 0xFFFFFFFF, 0x0, 0x0, 0x0, 0x0, 0x0, [], false⟩,
    ⟨0x4002002C, 1, 0x0, 1, 0, 0x186A0, 0xFFFFFFFF, 0x0, 0x0, 0x0, 0x0, 0x0, [], false⟩,
    ⟨0x40020100, 2, 0x80, 1, 0, 0x0, 0x0, 0x0, 0x0, 0x0, 0x0, 0x307, [], false⟩,
    ⟨0x40020104, 2, 0x80, 1, 0, 0x0, 0x0, 0x0, 0x0, 0x0, 0x0, 0x0, [], false⟩,
    ⟨0x40020108, 2, 0x80, 1, 0, 0x0, 0x0, 0x0, 0x0, 0x0, 0x0, 0xFFFFFFFF, [4, 8], false⟩,
    ⟨0x4002010C, 2, 0x80, 1, 0, 0x0, 0x0, 0x0, 0x0, 0x0, 0x0, 0xFFFFFFFF, [], true⟩,
    ⟨0x40020110, 2, 0x80, 1, 0, 0x0, 0x0, 0x0, 0x0, 0x0, 0x0, 0xFFFF, [], true⟩,
    ⟨0x40020114, 2, 0x80, 1, 0, 0x0, 0xFFFFFFFF, 0x0, 0x0, 0x0, 0x0, 0x0, [4], false⟩,
    ⟨0x40020118, 2, 0x80, 1, 0, 0x0, 0xFFFFFFFF, 0x0, 0x0, 0x0, 0x0, 0x0, [], true⟩,
    ⟨0x4002011C, 2, 0x80, 1, 0, 0x0, 0x0, 0x0, 0x0, 0x0, 0x0, 0xFFFFFFFF, [4], false⟩ ] ++
  [ ⟨0x40020120, 2, 0x80, 1, 0, 0x0, 0x0, 0x0, 0x0, 0x0, 0x0, 0xFFFFFFFF, [], true⟩,
    ⟨0x40020124, 2, 0x80, 1, 0, 0x0, 0x0, 0x0, 0x0, 0x0, 0x0, 0x0, [4], false⟩,
    ⟨0x40020128, 2, 0x80, 1, 0, 0x0, 0x0, 0x0, 0x0, 0x0, 0x0, 0x0, [], true⟩,
    ⟨0x4002012C, 2, 0x80, 1, 0, 0x0, 0x0, 0x0, 0x0, 0x0, 0x0, 0xFFFFFFFF, [4], false⟩,
    ⟨0x40020130, 2, 0x80, 1, 0, 0x0, 0x0, 0x0, 0x0, 0x0, 0x0, 0xFFFFFFFF, [], true⟩,
    ⟨0x40020134, 2, 0x80, 1, 0, 0x0, 0x0, 0x0, 0x0, 0x0, 0x0, 0x0, [4], false⟩,
    ⟨0x40020138, 2, 0x80, 1, 0, 0x0, 0x0, 0x0, 0x0, 0x0, 0x0, 0x0, [], true⟩,
    ⟨0x4002013C, 2, 0x80, 1, 0, 0x5B8D8, 0xFFFFFFFF, 0x0, 0x0, 0x0, 0x0, 0x0, [], false⟩,
    ⟨0x40020140, 2, 0x80, 1, 0, 0xF4240, 0xFFFFFFFF, 0x0, 0x0, 0x0, 0x0, 0x0, [], false⟩,
    ⟨0x40020144, 2, 0x80, 1, 0, 0x0, 0x0, 0x0, 0x0, 0x0, 0x0, 0xFFFFFFFF, [], false⟩,
    ⟨0x40020148, 2, 0x80, 1, 0, 0x0, 0x0, 0x0, 0xF, 0x0, 0x0, 0x0, [], false⟩,
    ⟨0x40020400, 8, 0x40, 1, 0, 0x3, 0x7, 0x0, 0x0, 0x0, 0x0, 0x0, [], false⟩,
    ⟨0x40020404, 8, 0x40, 1, 0, 0x0, 0xFFFFFFFF, 0x0, 0x0, 0x0, 0x0, 0x0, [], false⟩,
    ⟨0x40020408, 8, 0x40, 1, 0, 0x0, 0xFFFFFFFF, 0x0, 0x0, 0x0, 0x0, 0x0, [], false⟩,
    ⟨0x4002040C, 8, 0x40, 1, 0, 0x0, 0x0, 0x0, 0x0, 0x0, 0x0, 0x7F, [], false⟩,
    ⟨0x40020410, 8, 0x40, 1, 0, 0x0, 0x0, 0x0, 0x0, 0x0, 0x0, 0x0, [], false⟩,
    ⟨0x40020414, 8, 0x40, 1, 0, 0x0, 0x0, 0x0, 0x0, 0x0, 0xFFFFFFFF, 0x0, [], false⟩,
    ⟨0x40020418, 8, 0x40, 1, 0, 0x0, 0x0, 0x0, 0x1, 0x0, 0x0, 0x0, [], false⟩,
    ⟨0x40020420, 8, 0x40, 8, 4, 0x0, 0x0, 0x0, 0x0, 0x0, 0x0, 0xFFFFFFFF, [], false⟩,
    ⟨0x40020800, 1, 0x0, 48, 4, 0x0, 0xFE7F, 0x0, 0x80000000, 0x0, 0x0, 0x0, [], false⟩ ] ++
  [ ⟨0x40020900, 1, 0x0, 1, 0, 0x0, 0x0, 0x0, 0x0, 0x0, 0x0, 0x7FF, [], false⟩,
    ⟨0x40020904, 1, 0x0, 1, 0, 0x0, 0x0, 0x0, 0x0, 0x0, 0x0, 0x0, [], false⟩,
    ⟨0x40020908, 1, 0x0, 1, 0, 0x0, 0x0, 0x0, 0x0, 0x0, 0xFFFFFFFF, 0x0, [], false⟩,
    ⟨0x4002090C, 1, 0x0, 1, 0, 0x0, 0x0, 0x0, 0x1, 0x0, 0x0, 0x0, [], false⟩,
    ⟨0x40020910, 1, 0x0, 4, 4, 0x0, 0x0, 0x0, 0x0, 0x0, 0x0, 0xFFFFFFFF, [], false⟩,
    ⟨0x40021000, 32, 0x20, 1, 0, 0x0, 0xF17F, 0x0, 0x0, 0x0, 0x0, 0x0, [], false⟩,
    ⟨0x40021004, 32, 0x20, 1, 0, 0x0, 0x0, 0x0, 0x0, 0x0, 0x0, 0x0, [], false⟩,
    ⟨0x40021008, 32, 0x20, 1, 0, 0x0, 0x0, 0x0, 0x4, 0x0, 0x0, 0x3, [], false⟩,
    ⟨0x4002100C, 32, 0x20, 1, 0, 0x0, 0xFFFFFFFF, 0x0, 0x0, 0x0, 0x0, 0x0, [4, 8], false⟩,
    ⟨0x40021010, 32, 0x20, 1, 0, 0x0, 0xFFFFFFFF, 0x0, 0x0, 0x0, 0x0, 0x0, [], true⟩,
    ⟨0x40021014, 32, 0x20, 1, 0, 0x0, 0xFFFF, 0x0, 0x0, 0x0, 0x0, 0x0, [], true⟩,
    ⟨0x40021018, 32, 0x20, 1, 0, 0x0, 0xFFFFFFFF, 0x0, 0x0, 0x0, 0x0, 0x0, [], false⟩,
    ⟨0x4002101C, 32, 0x20, 1, 0, 0x0, 0xFFFFFFFF, 0x0, 0x0, 0x0, 0x0, 0x0, [], false⟩ ]

/-- The register rows of the ANG window. -/
def regRowsAng : List RegRow :=
  [ ⟨0x40030000, 1, 0x0, 1, 0, 0x88B5, 0xFFFF, 0x0, 0x0, 0x0, 0x0, 0x0, [], false⟩,
    ⟨0x40030004, 1, 0x0, 1, 0, 0x0, 0x3FFF, 0x0, 0x0, 0x0, 0x0, 0x0, [], false⟩,
    ⟨0x40030008, 1, 0x0, 1, 0, 0x0, 0xFF, 0x0, 0x0, 0x0, 0x0, 0x0, [], false⟩,
    ⟨0x40030200, 1, 0x0, 32, 4, 0x0, 0x0, 0x0, 0xFFFFFFFF, 0x0, 0x0, 0x0, [], false⟩,
    ⟨0x40030280, 1, 0x0, 32, 4, 0x0, 0x0, 0x0, 0xFFFFFFFF, 0x0, 0x0, 0x0, [], false⟩,
    ⟨0x40030400, 4, 0x20, 1, 0, 0x0, 0x0, 0x0, 0x0, 0x0, 0x0, 0x0, [], false⟩,
    ⟨0x40030404, 4, 0x20, 1, 0, 0x0, 0x0, 0x0, 0x0, 0x0, 0x0, 0xC0000003, [], false⟩,
    ⟨0x40030408, 4, 0x20, 1, 0, 0x0, 0xFFFFFFFF, 0x0, 0x0, 0x0, 0x0, 0x0, [4, 8], false⟩,
    ⟨0x4003040C, 4, 0x20, 1, 0, 0x0, 0xFFFFFFFF, 0x0, 0x0, 0x0, 0x0, 0x0, [], true⟩,
    ⟨0x40030410, 4, 0x20, 1, 0, 0x0, 0xFFFF, 0x0, 0x0, 0x0, 0x0, 0x0, [], true⟩,
    ⟨0x40030414, 4, 0x20, 1, 0, 0x0, 0x0, 0x0, 0x0, 0x0, 0x0, 0xFFFFFFFF, [4], false⟩,
    ⟨0x40030418, 4, 0x20, 1, 0, 0x0, 0x0, 0x0, 0x0, 0x0, 0x0, 0xFFFFFFFF, [], true⟩,
    ⟨0x40031000, 16, 0x100, 1, 0, 0x100, 0xC0000F00, 0x0, 0x0, 0x0, 0x0, 0x0, [], false⟩,
    ⟨0x40031004, 16, 0x100, 1, 0, 0x0, 0x0, 0x0, 0x0, 0x0, 0x0, 0x0, [], false⟩,
    ⟨0x40031008, 16, 0x100, 1, 0, 0x0, 0x0, 0x0, 0x0, 0x0, 0x0, 0xF0707, [], false⟩,
    ⟨0x4003100C, 16, 0x100, 1, 0, 0x0, 0x0, 0x0, 0x3FB, 0x0, 0x0, 0x0, [], false⟩,
    ⟨0x40031010, 16, 0x100, 1, 0, 0x3E8, 0xFFFFFFFF, 0x0, 0x0, 0x0, 0x0, 0x0, [], false⟩,
    ⟨0x40031014, 16, 0x100, 1, 0, 0x100000, 0xFFFFFFFF, 0x0, 0x0, 0x0, 0x0, 0x0, [], false⟩,
    ⟨0x40031018, 16, 0x100, 1, 0, 0x2EE, 0xFFFFFFFF, 0x0, 0x0, 0x0, 0x0, 0x0, [], false⟩,
    ⟨0x4003101C, 16, 0x100, 1, 0, 0x4E20, 0xFFFFFFFF, 0x0, 0x0, 0x0, 0x0, 0x0, [], false⟩ ] ++
  [ ⟨0x40031020, 16, 0x100, 1, 0, 0x0, 0x0, 0x0, 0x0, 0x0, 0x0, 0xFFFFFFFF, [4], false⟩,
    ⟨0x40031024, 16, 0x100, 1, 0, 0x0, 0x0, 0x0, 0x0, 0x0, 0x0, 0xFFFFFFFF, [], true⟩,
    ⟨0x40031028, 16, 0x100, 1, 0, 0x0, 0x0, 0x0, 0x0, 0x0, 0x0, 0xFFFFFFFF, [4], false⟩,
    ⟨0x4003102C, 16, 0x100, 1, 0, 0x0, 0x0, 0x0, 0x0, 0x0, 0x0, 0xFFFFFFFF, [], true⟩,
    ⟨0x40031030, 16, 0x100, 1, 0, 0x0, 0x0, 0x0, 0x0, 0x0, 0x0, 0xFFFFFFFF, [4], false⟩,
    ⟨0x40031034, 16, 0x100, 1, 0, 0x0, 0x0, 0x0, 0x0, 0x0, 0x0, 0xFFFFFFFF, [], true⟩,
    ⟨0x40031038, 16, 0x100, 1, 0, 0xFA, 0xFFFF, 0x0, 0x0, 0x0, 0x0, 0x0, [], false⟩,
    ⟨0x4003103C, 16, 0x100, 1, 0, 0xC8, 0xFFFF, 0x0, 0x0, 0x0, 0x0, 0x0, [], false⟩,
    ⟨0x40031040, 16, 0x100, 9, 4, 0x0, 0xFFFFFFFF, 0x0, 0x0, 0x0, 0x0, 0x0, [], false⟩,
    ⟨0x40031064, 16, 0x100, 1, 0, 0x0, 0x0, 0x0, 0x0, 0x0, 0x0, 0x0, [], false⟩,
    ⟨0x40031068, 16, 0x100, 1, 0, 0x0, 0x0, 0x0, 0x0, 0x0, 0xFFFFFFFF, 0x0, [], false⟩,
    ⟨0x4003106C, 16, 0x100, 1, 0, 0x0, 0x0, 0x0, 0x0, 0x0, 0xFFFFFFFF, 0x0, [], false⟩,
    ⟨0x40031080, 16, 0x100, 9, 4, 0x0, 0x0, 0x0, 0x0, 0x0, 0x0, 0xFFFFFFFF, [], false⟩,
    ⟨0x400310A4, 16, 0x100, 1, 0, 0x0, 0x0, 0x0, 0x0, 0x0, 0x0, 0xFFFF, [], false⟩,
    ⟨0x400310B0, 16, 0x100, 1, 0, 0x0, 0x8000001F, 0x0, 0x0, 0x0, 0x0, 0x0, [], false⟩,
    ⟨0x400310B4, 16, 0x100, 1, 0, 0x100, 0xFFFFFFFF, 0x0, 0x0, 0x0, 0x0, 0x0, [], false⟩,
    ⟨0x400310B8, 16, 0x100, 1, 0, 0x0, 0xFFFFFFFF, 0x0, 0x0, 0x0, 0x0, 0x0, [4], false⟩,
    ⟨0x400310BC, 16, 0x100, 1, 0, 0x0, 0xFFFFFFFF, 0x0, 0x0, 0x0, 0x0, 0x0, [], true⟩,
    ⟨0x400310C0, 16, 0x100, 1, 0, 0x0, 0xFFFFFFFF, 0x0, 0x0, 0x0, 0x0, 0x0, [], false⟩,
    ⟨0x40034000, 1024, 0x20, 1, 0, 0x0, 0x8000130F, 0x0, 0x0, 0x0, 0x0, 0x0, [], false⟩ ] ++
  [ ⟨0x40034004, 1024, 0x20, 1, 0, 0x0, 0xFFFFFFFF, 0x0, 0x0, 0x0, 0x0, 0x0, [], false⟩,
    ⟨0x40034008, 1024, 0x20, 1, 0, 0x0, 0xFFFFFFFF, 0x0, 0x0, 0x0, 0x0, 0x0, [4], false⟩,
    ⟨0x4003400C, 1024, 0x20, 1, 0, 0x0, 0xFFFFFFFF, 0x0, 0x0, 0x0, 0x0, 0x0, [], true⟩,
    ⟨0x40034010, 1024, 0x20, 1, 0, 0x0, 0xFFFFFFFF, 0x0, 0x0, 0x0, 0x0, 0x0, [], false⟩,
    ⟨0x40034014, 1024, 0x20, 1, 0, 0x0, 0x0, 0x0, 0x0, 0x0, 0x0, 0xF, [], false⟩ ]

/-- The register rows of the ETH window. -/
def regRowsEth : List RegRow :=
  [ ⟨0x40040000, 8, 0x1000, 1, 0, 0x0, 0x33CF, 0x0, 0x0, 0x0, 0x0, 0x0, [], false⟩,
    ⟨0x40040004, 8, 0x1000, 1, 0, 0x0, 0x0, 0x0, 0x0, 0x0, 0x0, 0xFFC0000F, [], false⟩,
    ⟨0x40040008, 8, 0x1000, 1, 0, 0x0, 0x0, 0x0, 0xFF, 0x0, 0x0, 0x0, [], false⟩,
    ⟨0x4004000C, 8, 0x1000, 1, 0, 0x5F2, 0xFFFFFFFF, 0x0, 0x0, 0x0, 0x0, 0x0, [], false⟩,
    ⟨0x40040010, 8, 0x1000, 1, 0, 0x0, 0xFFFFFFFF, 0x0, 0x0, 0x0, 0x0, 0x0, [4], false⟩,
    ⟨0x40040014, 8, 0x1000, 1, 0, 0x0, 0xFFFF, 0x0, 0x0, 0x0, 0x0, 0x0, [], true⟩,
    ⟨0x40040018, 8, 0x1000, 1, 0, 0x1, 0xEFFF, 0x0, 0x0, 0x0, 0x0, 0x0, [], false⟩,
    ⟨0x40040020, 8, 0x1000, 1, 0, 0x2F, 0x1AF, 0x0, 0x0, 0x0, 0x0, 0x0, [], false⟩,
    ⟨0x40040024, 8, 0x1000, 1, 0, 0x0, 0x0, 0x0, 0x0, 0x0, 0x0, 0xFFFFFFFF, [], false⟩,
    ⟨0x40040040, 8, 0x1000, 1, 0, 0x8FF, 0xFFFF, 0x0, 0x0, 0x0, 0x0, 0x0, [], false⟩,
    ⟨0x40040044, 8, 0x1000, 1, 0, 0x800020, 0xFFFFFF, 0x0, 0x0, 0x0, 0x0, 0x0, [], false⟩,
    ⟨0x40040048, 8, 0x1000, 1, 0, 0x0, 0x0, 0x0, 0x0, 0x0, 0x0, 0x800000FF, [], false⟩,
    ⟨0x40040050, 8, 0x1000, 1, 0, 0x0, 0xC00000FF, 0x0, 0x0, 0x0, 0x0, 0x0, [], false⟩,
    ⟨0x40040054, 8, 0x1000, 1, 0, 0x0, 0xFFFFF, 0x0, 0x0, 0x0, 0x0, 0x0, [], false⟩,
    ⟨0x40040058, 8, 0x1000, 1, 0, 0x14, 0xFFFF, 0x0, 0x0, 0x0, 0x0, 0x0, [], false⟩,
    ⟨0x4004005C, 8, 0x1000, 1, 0, 0x7D0, 0xFFFF, 0x0, 0x0, 0x0, 0x0, 0x0, [], false⟩,
    ⟨0x40040060, 8, 0x1000, 1, 0, 0xC8, 0xFFFF, 0x0, 0x0, 0x0, 0x0, 0x0, [], false⟩,
    ⟨0x40040064, 8, 0x1000, 1, 0, 0x0, 0x0, 0x0, 0x0, 0x0, 0x0, 0x7, [], false⟩,
    ⟨0x40040070, 8, 0x1000, 1, 0, 0x40000A00, 0xC003FFFF, 0x0, 0x0, 0x0, 0x0, 0x0, [], false⟩,
    ⟨0x40040074, 8, 0x1000, 1, 0, 0x0, 0x0, 0x0, 0x0, 0x0, 0x0, 0x107, [], false⟩ ] ++
  [ ⟨0x40040080, 8, 0x1000, 1, 0, 0x0, 0x0, 0x0, 0x0, 0x0, 0x0, 0x2, [], false⟩,
    ⟨0x40040084, 8, 0x1000, 4, 4, 0xF0000000, 0x0, 0x0, 0x0, 0x0, 0x0, 0xF000FFFF, [], false⟩,
    ⟨0x400400A0, 8, 0x1000, 1, 0, 0x0, 0x0, 0x0, 0x0, 0x0, 0x0, 0x0, [], false⟩,
    ⟨0x400400A4, 8, 0x1000, 1, 0, 0x0, 0x0, 0x0, 0x0, 0x0, 0x0, 0x0, [], false⟩,
    ⟨0x400400A8, 8, 0x1000, 1, 0, 0x0, 0x0, 0x0, 0xFFFFFFFF, 0x0, 0x0, 0x0, [], false⟩,
    ⟨0x400400AC, 8, 0x1000, 1, 0, 0x0, 0x0, 0x0, 0xFFFFFFFF, 0x0, 0x0, 0x0, [], false⟩,
    ⟨0x40040100, 8, 0x1000, 64, 4, 0x0, 0x0, 0x0, 0x0, 0x0, 0x0, 0xFFFFFFFF, [], false⟩,
    ⟨0x40040200, 8, 0x1000, 64, 4, 0x0, 0x0, 0x0, 0x0, 0x0, 0x0, 0xFFFFFFFF, [], false⟩,
    ⟨0x40048000, 1, 0x0, 1, 0, 0x80000000, 0x8000001F, 0x0, 0x0, 0x0, 0x0, 0x0, [], false⟩,
    ⟨0x40048004, 1, 0x0, 1, 0, 0x0, 0x0, 0x0, 0x0, 0x0, 0xFFFFFFFF, 0x0, [], false⟩,
    ⟨0x40048100, 64, 0x10, 1, 0, 0x0, 0xFFFFFF1F, 0x0, 0x0, 0x0, 0x0, 0x0, [], false⟩,
    ⟨0x40048104, 64, 0x10, 1, 0, 0x0, 0xFFF0FFF, 0x0, 0x0, 0x0, 0x0, 0x0, [], false⟩,
    ⟨0x40048108, 64, 0x10, 1, 0, 0x0, 0xFFFFFFFF, 0x0, 0x0, 0x0, 0x0, 0x0, [], false⟩,
    ⟨0x4004810C, 64, 0x10, 1, 0, 0x0, 0x0, 0x0, 0x0, 0x0, 0xFFFFFFFF, 0x0, [], false⟩ ]

/-- The register rows of the SWX window. -/
def regRowsSwx : List RegRow :=
  [ ⟨0x40060000, 1, 0x0, 1, 0, 0x101, 0x101, 0x0, 0x0, 0x0, 0x0, 0x0, [], false⟩,
    ⟨0x40060004, 1, 0x0, 1, 0, 0x0, 0x0, 0x0, 0x7, 0x0, 0x0, 0x0, [], false⟩,
    ⟨0x40060008, 1, 0x0, 1, 0, 0x0, 0x0, 0x0, 0x0, 0x0, 0x0, 0x60000000, [], false⟩,
    ⟨0x4006000C, 1, 0x0, 1, 0, 0x3000, 0x0, 0x0, 0x0, 0x0, 0x0, 0xFFFFFFFF, [], false⟩,
    ⟨0x40060010, 1, 0x0, 1, 0, 0x0, 0x0, 0x0, 0x0, 0x0, 0x0, 0xFFFFFFFF, [], false⟩,
    ⟨0x40060014, 1, 0x0, 1, 0, 0x0, 0x0, 0x0, 0x0, 0x0, 0x0, 0xFFFFFFFF, [], false⟩,
    ⟨0x40060018, 1, 0x0, 1, 0, 0x3000, 0x0, 0x0, 0x0, 0x0, 0x0, 0xFFFFFFFF, [], false⟩,
    ⟨0x4006001C, 1, 0x0, 1, 0, 0x400, 0xFFFFFFFF, 0x0, 0x0, 0x0, 0x0, 0x0, [], false⟩,
    ⟨0x40060020, 1, 0x0, 1, 0, 0x4000, 0x0, 0x0, 0x0, 0x0, 0x0, 0xFFFFFFFF, [], false⟩,
    ⟨0x40060024, 1, 0x0, 1, 0, 0x12C, 0xFFFFFFFF, 0x0, 0x0, 0x0, 0x0, 0x0, [], false⟩,
    ⟨0x40060028, 1, 0x0, 1, 0, 0x3E8, 0xFFFFFFFF, 0x0, 0x0, 0x0, 0x0, 0x0, [], false⟩,
    ⟨0x4006002C, 1, 0x0, 1, 0, 0x0, 0xFFF, 0x0, 0x0, 0x0, 0x0, 0x40000000, [], false⟩,
    ⟨0x40060030, 1, 0x0, 1, 0, 0x0, 0x8000000F, 0x0, 0x0, 0x0, 0x0, 0x0, [], false⟩,
    ⟨0x40060034, 1, 0x0, 1, 0, 0x0, 0xFFFF, 0x0, 0x0, 0x0, 0x0, 0x0, [], false⟩,
    ⟨0x40060040, 1, 0x0, 8, 4, 0x0, 0xFFFFFFFF, 0x0, 0x0, 0x0, 0x0, 0x0, [], false⟩,
    ⟨0x40060060, 1, 0x0, 1, 0, 0x0, 0x0, 0x0, 0x0, 0x0, 0xFFFFFFFF, 0x0, [], false⟩,
    ⟨0x40060064, 1, 0x0, 1, 0, 0x0, 0x0, 0x0, 0x0, 0x0, 0xFFFFFFFF, 0x0, [], false⟩,
    ⟨0x40060068, 1, 0x0, 1, 0, 0x0, 0x0, 0x0, 0x0, 0x0, 0xFFFFFFFF, 0x0, [], false⟩,
    ⟨0x4006006C, 1, 0x0, 1, 0, 0x0, 0x0, 0x0, 0x0, 0x0, 0xFFFFFFFF, 0x0, [], false⟩,
    ⟨0x40060070, 1, 0x0, 1, 0, 0x0, 0x0, 0x0, 0x0, 0x0, 0xFFFFFFFF, 0x0, [], false⟩ ] ++
  [ ⟨0x40060074, 1, 0x0, 1, 0, 0x0, 0x0, 0x0, 0x0, 0x0, 0xFFFFFFFF, 0x0, [], false⟩,
    ⟨0x40060078, 1, 0x0, 1, 0, 0x0, 0x0, 0x0, 0x0, 0x0, 0xFFFFFFFF, 0x0, [], false⟩,
    ⟨0x4006007C, 1, 0x0, 1, 0, 0x0, 0x0, 0x0, 0x0, 0x0, 0xFFFFFFFF, 0x0, [], false⟩,
    ⟨0x40060080, 1, 0x0, 1, 0, 0x0, 0x0, 0x0, 0x0, 0x0, 0xFFFFFFFF, 0x0, [], false⟩,
    ⟨0x40060084, 1, 0x0, 1, 0, 0x0, 0x0, 0x0, 0x0, 0x0, 0xFFFFFFFF, 0x0, [], false⟩,
    ⟨0x40060088, 1, 0x0, 1, 0, 0x0, 0x0, 0x0, 0x0, 0x0, 0xFFFFFFFF, 0x0, [], false⟩,
    ⟨0x4006008C, 1, 0x0, 1, 0, 0x0, 0x0, 0x0, 0x0, 0x0, 0xFFFFFFFF, 0x0, [], false⟩,
    ⟨0x40060100, 1, 0x0, 1, 0, 0x0, 0x0, 0x0, 0x0, 0x0, 0x0, 0x0, [], false⟩,
    ⟨0x40060104, 1, 0x0, 1, 0, 0x0, 0x0, 0x0, 0x0, 0x0, 0x0, 0xC00FFFFF, [], false⟩,
    ⟨0x40060120, 1, 0x0, 8, 4, 0x0, 0xFFFFFFFF, 0x0, 0x0, 0x0, 0x0, 0x0, [], false⟩,
    ⟨0x40061000, 10, 0x100, 1, 0, 0xE0000000, 0xE000FF00, 0x0, 0x0, 0x0, 0x0, 0x0, [], false⟩,
    ⟨0x40061004, 10, 0x100, 1, 0, 0xFAC688, 0xFFFFFF, 0x0, 0x0, 0x0, 0x0, 0x0, [], false⟩,
    ⟨0x40061008, 10, 0x100, 1, 0, 0x0, 0x800007FF, 0x0, 0x0, 0x0, 0x0, 0x0, [], false⟩,
    ⟨0x4006100C, 10, 0x100, 1, 0, 0x0, 0x0, 0x0, 0x0, 0x0, 0x0, 0x0, [], false⟩,
    ⟨0x40061010, 10, 0x100, 1, 0, 0x0, 0x0, 0x0, 0x20000000, 0x0, 0x0, 0xC7FF03FF, [], false⟩,
    ⟨0x40061014, 10, 0x100, 1, 0, 0x0, 0xFFFFFFFF, 0x0, 0x0, 0x0, 0x0, 0x0, [4], false⟩,
    ⟨0x40061018, 10, 0x100, 1, 0, 0x0, 0xFFFFFFFF, 0x0, 0x0, 0x0, 0x0, 0x0, [], true⟩,
    ⟨0x4006101C, 10, 0x100, 1, 0, 0x0, 0xFFFFFFFF, 0x0, 0x0, 0x0, 0x0, 0x0, [], false⟩,
    ⟨0x40061020, 10, 0x100, 1, 0, 0x0, 0xFFFFFFFF, 0x0, 0x0, 0x0, 0x0, 0x0, [], false⟩,
    ⟨0x40061040, 10, 0x100, 8, 4, 0x800, 0x3FFF, 0x0, 0x0, 0x0, 0x0, 0x0, [], false⟩ ] ++
  [ ⟨0x40061060, 10, 0x100, 8, 4, 0x0, 0xFFFFFFFF, 0x0, 0x0, 0x0, 0x0, 0x0, [], false⟩,
    ⟨0x40061080, 10, 0x100, 8, 4, 0x0, 0xFFFFFFFF, 0x0, 0x0, 0x0, 0x0, 0x0, [], false⟩,
    ⟨0x400610A0, 10, 0x100, 8, 4, 0x0, 0xFFFFFFFF, 0x0, 0x0, 0x0, 0x0, 0x0, [], false⟩,
    ⟨0x400610C0, 10, 0x100, 8, 4, 0x0, 0x0, 0x0, 0x0, 0x0, 0x0, 0xFFFF3FFF, [], false⟩,
    ⟨0x400610E0, 10, 0x100, 8, 4, 0x0, 0x0, 0x0, 0x0, 0x0, 0xFFFFFFFF, 0x0, [], false⟩ ]

/-- The register rows of the CAN window. -/
def regRowsCan : List RegRow :=
  [ ⟨0x40080000, 4, 0x4000, 0xE00, 4, 0x0, 0xFFFFFFFF, 0x0, 0x0, 0x0, 0x0, 0x0, [], false⟩,
    ⟨0x40083800, 4, 0x4000, 0x200, 4, 0x0, 0x0, 0xFFFFFFFF, 0x0, 0x0, 0x0, 0x0, [], false⟩,
    ⟨0x40090000, 4, 0x1000, 1, 0, 0x0, 0xFF0E3000, 0x0, 0x0, 0x0, 0x0, 0x0, [], false⟩,
    ⟨0x40090004, 4, 0x1000, 1, 0, 0x0, 0x0, 0x0, 0x0, 0x0, 0x0, 0xF600FF00, [], false⟩,
    ⟨0x40090008, 4, 0x1000, 1, 0, 0x0, 0x0, 0x0, 0x0, 0x0, 0x0, 0xFF0001FF, [], false⟩,
    ⟨0x4009000C, 4, 0x1000, 1, 0, 0x0, 0x0, 0x0, 0xFF, 0x0, 0x0, 0x0, [], false⟩,
    ⟨0x40090010, 4, 0x1000, 1, 0, 0x0, 0x0, 0x0, 0x0, 0x0, 0x0, 0x0, [], false⟩,
    ⟨0x40090014, 4, 0x1000, 1, 0, 0x0, 0x0, 0x0, 0x0, 0x0, 0x0, 0x0, [], false⟩,
    ⟨0x40090018, 4, 0x1000, 1, 0, 0x0, 0x0, 0x0, 0x0, 0x0, 0xF, 0x0, [], false⟩,
    ⟨0x4009001C, 4, 0x1000, 1, 0, 0x0, 0x0, 0xF, 0x0, 0x0, 0x0, 0x0, [], false⟩,
    ⟨0x40090020, 4, 0x1000, 1, 0, 0x13E0F0F, 0xFFFF7F7F, 0x0, 0x0, 0x0, 0x0, 0x0, [], false⟩,
    ⟨0x40090024, 4, 0x1000, 1, 0, 0x1C0909, 0xFF1F0F0F, 0x0, 0x0, 0x0, 0x0, 0x0, [], false⟩,
    ⟨0x40090028, 4, 0x1000, 1, 0, 0x40101, 0xFF1F0F0F, 0x0, 0x0, 0x0, 0x0, 0x0, [], false⟩,
    ⟨0x4009002C, 4, 0x1000, 1, 0, 0x0, 0x80FF0000, 0x0, 0x0, 0x0, 0x0, 0xFF, [], false⟩,
    ⟨0x40090030, 4, 0x1000, 1, 0, 0x602, 0xFF3F3F, 0x0, 0x0, 0x0, 0x0, 0x0, [], false⟩,
    ⟨0x40090040, 4, 0x1000, 1, 0, 0x0, 0xFFFF8000, 0x0, 0x0, 0x0, 0x0, 0x0, [], false⟩,
    ⟨0x40090044, 4, 0x1000, 1, 0, 0x1, 0xC00001FF, 0x0, 0x0, 0x0, 0x0, 0x0, [], false⟩,
    ⟨0x40090048, 4, 0x1000, 1, 0, 0x0, 0x0, 0x0, 0x0, 0x0, 0x0, 0x1FF00FF, [], false⟩,
    ⟨0x4009004C, 4, 0x1000, 1, 0, 0x0, 0x0, 0x0, 0x0, 0x0, 0x0, 0x0, [], false⟩,
    ⟨0x40090050, 4, 0x1000, 1, 0, 0x0, 0x0, 0x0, 0x0, 0x0, 0xFFFFFFFF, 0x0, [], false⟩,
    ⟨0x40090054, 4, 0x1000, 1, 0, 0x0, 0xFFFFF800, 0x0, 0x0, 0x0, 0x0, 0x0, [], false⟩,
    ⟨0x40090058, 4, 0x1000, 1, 0, 0x0, 0x1FF, 0x0, 0x0, 0x0, 0x0, 0x0, [], false⟩ ] ++
  [ ⟨0x4009005C, 4, 0x1000, 1, 0, 0x0, 0x0, 0x0, 0x0, 0x0, 0xFFFFFFFF, 0x0, [], false⟩,
    ⟨0x40090100, 4, 0x1000, 1, 0, 0x100, 0xFFFFFF00, 0x0, 0x0, 0x0, 0x0, 0x0, [], false⟩,
    ⟨0x40090104, 4, 0x1000, 1, 0, 0x3E8, 0x1FFFF, 0x0, 0x0, 0x0, 0x0, 0x0, [], false⟩,
    ⟨0x40090108, 4, 0x1000, 1, 0, 0x0, 0x0, 0x0, 0x0, 0x0, 0x0, 0xF03F3FFF, [], false⟩,
    ⟨0x4009010C, 4, 0x1000, 1, 0, 0x0, 0x0, 0x0, 0x0, 0x0, 0x0, 0xFFFFFFFF, [], false⟩,
    ⟨0x40090110, 4, 0x1000, 1, 0, 0x0, 0x0, 0x0, 0x0, 0x0, 0x0, 0x0, [], false⟩,
    ⟨0x40090114, 4, 0x1000, 1, 0, 0x0, 0xF07FF, 0x0, 0x0, 0x0, 0x0, 0x0, [], false⟩,
    ⟨0x40090118, 4, 0x1000, 1, 0, 0x0, 0xFFFFFFFF, 0x0, 0x0, 0x0, 0x0, 0x0, [4], false⟩,
    ⟨0x4009011C, 4, 0x1000, 1, 0, 0x0, 0xFFFFFFFF, 0x0, 0x0, 0x0, 0x0, 0x0, [], true⟩,
    ⟨0x40090120, 4, 0x1000, 4, 4, 0x0, 0x87FF01FF, 0x0, 0x0, 0x0, 0x0, 0x0, [], false⟩,
    ⟨0x40090200, 4, 0x1000, 1, 0, 0x0, 0x0, 0x800000FF, 0x0, 0x0, 0x0, 0x0, [], false⟩,
    ⟨0x40090204, 4, 0x1000, 1, 0, 0x3E8, 0x0, 0x1FFFF, 0x0, 0x0, 0x0, 0x0, [], false⟩,
    ⟨0x40090208, 4, 0x1000, 1, 0, 0x0, 0x0, 0x0, 0x0, 0x0, 0x0, 0xB8000000, [], false⟩,
    ⟨0x4009020C, 4, 0x1000, 1, 0, 0x0, 0x0, 0x0, 0x0, 0x0, 0xFFFFFFFF, 0x0, [], false⟩,
    ⟨0x40090210, 4, 0x1000, 4, 4, 0x0, 0x0, 0x80FF01FF, 0x0, 0x0, 0x0, 0x0, [], false⟩ ]

/-- The register rows of the PE window. -/
def regRowsPe : List RegRow :=
  [ ⟨0x40130000, 8, 0x100, 1, 0, 0x0, 0x0, 0x7, 0x0, 0x0, 0x0, 0x0, [], false⟩,
    ⟨0x40130004, 8, 0x100, 1, 0, 0x0, 0x0, 0x0, 0x0, 0x0, 0x0, 0xFF07, [], false⟩,
    ⟨0x40130008, 8, 0x100, 1, 0, 0x0, 0x0, 0x0, 0x3F, 0x0, 0x0, 0x0, [], false⟩,
    ⟨0x4013000C, 8, 0x100, 1, 0, 0x0, 0x0, 0x0, 0x0, 0x0, 0x0, 0xFF, [], false⟩,
    ⟨0x40130010, 8, 0x100, 4, 4, 0x0, 0x0, 0xFFFFFFFD, 0x0, 0x0, 0x0, 0x0, [], false⟩,
    ⟨0x40130020, 8, 0x100, 1, 0, 0x0, 0x0, 0x80FFFFFF, 0x0, 0x0, 0x0, 0x0, [], false⟩,
    ⟨0x40130024, 8, 0x100, 1, 0, 0x0, 0xFFFFFFFF, 0x0, 0x0, 0x0, 0x0, 0x0, [4], false⟩,
    ⟨0x40130028, 8, 0x100, 1, 0, 0x0, 0xFFFFFFFF, 0x0, 0x0, 0x0, 0x0, 0x0, [], true⟩,
    ⟨0x4013002C, 8, 0x100, 1, 0, 0x0, 0xFFFFFFFF, 0x0, 0x0, 0x0, 0x0, 0x0, [], false⟩,
    ⟨0x40130030, 8, 0x100, 1, 0, 0x0, 0xF, 0x0, 0x0, 0x0, 0x0, 0x0, [], false⟩,
    ⟨0x40130040, 8, 0x100, 4, 4, 0x4C11DB7, 0xFFFFFFFF, 0x0, 0x0, 0x0, 0x0, 0x0, [], false⟩,
    ⟨0x40130050, 8, 0x100, 4, 4, 0x120, 0x13F, 0x0, 0x0, 0x0, 0x0, 0x0, [], false⟩,
    ⟨0x40131000, 32, 0x20, 1, 0, 0x40700, 0x0, 0xCF3F0F00, 0x0, 0x0, 0x0, 0x0, [], false⟩,
    ⟨0x40131004, 32, 0x20, 1, 0, 0x0, 0x0, 0xFFFFFFC0, 0x0, 0x0, 0x0, 0x0, [], false⟩,
    ⟨0x40131008, 32, 0x20, 1, 0, 0x0, 0x0, 0xFFFFFFC0, 0x0, 0x0, 0x0, 0x0, [], false⟩,
    ⟨0x4013100C, 32, 0x20, 1, 0, 0x0, 0x0, 0x0, 0x0, 0x0, 0x0, 0xFFFF, [], false⟩,
    ⟨0x40131010, 32, 0x20, 1, 0, 0x0, 0x0, 0x0, 0x0, 0x0, 0x0, 0xFFFF, [], false⟩,
    ⟨0x40131014, 32, 0x20, 1, 0, 0x0, 0xFFFF, 0x0, 0x0, 0x0, 0x0, 0x0, [], false⟩,
    ⟨0x40131018, 32, 0x20, 1, 0, 0x0, 0x0, 0x0, 0x0, 0x0, 0xFFFFFFFF, 0x0, [], false⟩,
    ⟨0x4013101C, 32, 0x20, 1, 0, 0x0, 0x0, 0x0, 0x0, 0x0, 0xFFFFFFFF, 0x0, [], false⟩ ] ++
  [ ⟨0x40132000, 16, 0x20, 1, 0, 0x0, 0x0, 0xCF300000, 0x0, 0x0, 0x0, 0x0, [], false⟩,
    ⟨0x40132004, 16, 0x20, 1, 0, 0x0, 0x0, 0x0, 0x0, 0x0, 0x0, 0x0, [], false⟩,
    ⟨0x40132008, 16, 0x20, 1, 0, 0x0, 0x0, 0x0, 0x0, 0x0, 0x0, 0x7F, [], false⟩,
    ⟨0x4013200C, 16, 0x20, 1, 0, 0x0, 0x0, 0x0, 0x7, 0x0, 0x0, 0x0, [], false⟩,
    ⟨0x40132010, 16, 0x20, 1, 0, 0x0, 0x0, 0x0, 0x0, 0x0, 0xFFFFFFFF, 0x0, [], false⟩,
    ⟨0x40133000, 1, 0x0, 32, 4, 0x0, 0x0, 0x0, 0x3, 0x0, 0x0, 0x0, [], false⟩ ]

/-- The register rows of the TSK window. -/
def regRowsTsk : List RegRow :=
  [ ⟨0x40120000, 1, 0x0, 1, 0, 0x0, 0x0, 0x7, 0x0, 0x0, 0x0, 0x0, [], false⟩,
    ⟨0x40120004, 1, 0x0, 1, 0, 0x0, 0x0, 0x0, 0x0, 0x0, 0x0, 0xE0000007, [], false⟩,
    ⟨0x40120008, 1, 0x0, 1, 0, 0x0, 0x0, 0x0, 0x3FFF, 0x0, 0x0, 0x0, [], false⟩,
    ⟨0x4012000C, 1, 0x0, 1, 0, 0x0, 0x0, 0x0, 0x0, 0x0, 0x0, 0x0, [], false⟩,
    ⟨0x40120010, 1, 0x0, 1, 0, 0x0, 0x0, 0x0, 0x0, 0x0, 0x0, 0xFFFFFFFF, [], false⟩,
    ⟨0x40120014, 1, 0x0, 1, 0, 0x0, 0x0, 0x0, 0x0, 0x0, 0x0, 0x0, [], false⟩,
    ⟨0x40120018, 1, 0x0, 1, 0, 0x0, 0x0, 0xFFFFFFF0, 0x0, 0x0, 0x0, 0x0, [], false⟩,
    ⟨0x4012001C, 1, 0x0, 1, 0, 0x0, 0x0, 0xFFFF, 0x0, 0x0, 0x0, 0x0, [], false⟩,
    ⟨0x40120020, 1, 0x0, 1, 0, 0x0, 0x0, 0xFFFFFFC0, 0x0, 0x0, 0x0, 0x0, [], false⟩,
    ⟨0x40120024, 1, 0x0, 1, 0, 0x0, 0x0, 0x1F, 0x0, 0x0, 0x0, 0x0, [], false⟩,
    ⟨0x40120028, 1, 0x0, 1, 0, 0x0, 0x0, 0x0, 0x0, 0x0, 0x0, 0x0, [], false⟩,
    ⟨0x4012002C, 1, 0x0, 1, 0, 0x0, 0x0, 0x0, 0x0, 0x0, 0x0, 0xFFFFFFFF, [], false⟩,
    ⟨0x40120030, 1, 0x0, 1, 0, 0x0, 0x0, 0x1, 0x0, 0x0, 0x0, 0x0, [], false⟩,
    ⟨0x40120034, 1, 0x0, 1, 0, 0x0, 0x0, 0xFFFFFFF0, 0x0, 0x0, 0x0, 0x0, [], false⟩,
    ⟨0x40120038, 1, 0x0, 1, 0, 0x0, 0x0, 0xFFFF, 0x0, 0x0, 0x0, 0x0, [], false⟩,
    ⟨0x4012003C, 1, 0x0, 1, 0, 0x0, 0x0, 0xFFFFFFFC, 0x0, 0x0, 0x0, 0x0, [], false⟩,
    ⟨0x40120040, 1, 0x0, 1, 0, 0x0, 0x0, 0x0, 0x0, 0x0, 0x0, 0xEFFF007F, [], false⟩,
    ⟨0x40120044, 1, 0x0, 1, 0, 0x0, 0x0, 0xFFFFFFFF, 0x0, 0x0, 0x0, 0x0, [], false⟩,
    ⟨0x40120048, 1, 0x0, 1, 0, 0x0, 0x0, 0xFFFFFFFF, 0x0, 0x0, 0x0, 0x0, [4], false⟩,
    ⟨0x4012004C, 1, 0x0, 1, 0, 0x0, 0x0, 0xFFFFFFFF, 0x0, 0x0, 0x0, 0x0, [], true⟩ ] ++
  [ ⟨0x40120050, 1, 0x0, 1, 0, 0x0, 0x0, 0xE000001F, 0x0, 0x0, 0x0, 0x0, [], false⟩,
    ⟨0x40120054, 1, 0x0, 1, 0, 0x0, 0x0, 0x0, 0x0, 0x0, 0x0, 0x8007003F, [], false⟩,
    ⟨0x40120080, 1, 0x0, 16, 4, 0x0, 0x0, 0x0, 0xFFFFFFFF, 0x0, 0x0, 0x0, [], false⟩,
    ⟨0x40120100, 8, 0x40, 1, 0, 0x0, 0x0, 0xFF1F000F, 0x0, 0x0, 0x0, 0x0, [], false⟩,
    ⟨0x40120104, 8, 0x40, 1, 0, 0x0, 0x0, 0xFFFFFFFF, 0x0, 0x0, 0x0, 0x0, [4], false⟩,
    ⟨0x40120108, 8, 0x40, 1, 0, 0x0, 0x0, 0xFFFFFFFF, 0x0, 0x0, 0x0, 0x0, [], true⟩,
    ⟨0x4012010C, 8, 0x40, 1, 0, 0x0, 0x0, 0xFFFFFFFF, 0x0, 0x0, 0x0, 0x0, [], false⟩,
    ⟨0x40120110, 8, 0x40, 1, 0, 0x0, 0x0, 0xFFFFFFFF, 0x0, 0x0, 0x0, 0x0, [], false⟩,
    ⟨0x40120114, 8, 0x40, 1, 0, 0x0, 0x0, 0xF0F1F1F, 0x0, 0x0, 0x0, 0x0, [], false⟩,
    ⟨0x40120118, 8, 0x40, 1, 0, 0x0, 0x0, 0x7FF1FFF, 0x0, 0x0, 0x0, 0x0, [], false⟩,
    ⟨0x4012011C, 8, 0x40, 1, 0, 0x0, 0x0, 0x7FF1FFF, 0x0, 0x0, 0x0, 0x0, [], false⟩,
    ⟨0x40120120, 8, 0x40, 1, 0, 0x0, 0x0, 0x1FFF, 0x0, 0x0, 0x0, 0x0, [], false⟩,
    ⟨0x40120124, 8, 0x40, 1, 0, 0x0, 0x0, 0x7FFC0, 0x0, 0x0, 0x0, 0x0, [], false⟩,
    ⟨0x40120128, 8, 0x40, 1, 0, 0x0, 0x0, 0x0, 0x0, 0x0, 0x0, 0xE0000000, [], false⟩,
    ⟨0x4012012C, 8, 0x40, 1, 0, 0x0, 0x0, 0x0, 0x0, 0x0, 0x0, 0xFFFFFFFF, [], false⟩,
    ⟨0x40120130, 8, 0x40, 1, 0, 0x0, 0x0, 0x0, 0x0, 0x0, 0xFFFFFFFF, 0x0, [], false⟩,
    ⟨0x40120134, 8, 0x40, 1, 0, 0x0, 0x0, 0x0, 0x0, 0x0, 0xFFFFFFFF, 0x0, [], false⟩,
    ⟨0x40120138, 8, 0x40, 1, 0, 0x0, 0x0, 0x0, 0x0, 0x0, 0xFFFFFFFF, 0x0, [], false⟩,
    ⟨0x4012013C, 8, 0x40, 1, 0, 0x0, 0x0, 0x0, 0x0, 0x0, 0xFFFF, 0xFFFF0000, [], false⟩,
    ⟨0x40120400, 32, 0x10, 1, 0, 0x0, 0x0, 0x81070000, 0x0, 0x0, 0x0, 0x0, [], false⟩ ] ++
  [ ⟨0x40120404, 32, 0x10, 1, 0, 0x0, 0x0, 0xFFFFFFFC, 0x0, 0x0, 0x0, 0x0, [], false⟩,
    ⟨0x40120408, 32, 0x10, 1, 0, 0x0, 0x0, 0x0, 0x0, 0x0, 0x0, 0x80FFFFFF, [], false⟩,
    ⟨0x4012040C, 32, 0x10, 1, 0, 0x0, 0x0, 0x0, 0x0, 0x0, 0x0, 0xFFFFFFFF, [], false⟩,
    ⟨0x40121000, 512, 0x10, 1, 0, 0x30000, 0x0, 0x87FF0000, 0x0, 0x0, 0x0, 0x0, [], false⟩,
    ⟨0x40121004, 512, 0x10, 1, 0, 0x0, 0x0, 0x1FFF1FFF, 0x0, 0x0, 0x0, 0x0, [], false⟩,
    ⟨0x40121008, 512, 0x10, 1, 0, 0x0, 0x0, 0xFFFF, 0x0, 0x0, 0x0, 0x0, [], false⟩,
    ⟨0x4012100C, 512, 0x10, 1, 0, 0x0, 0x0, 0x0, 0x0, 0x0, 0x0, 0xFFFFFFFF, [], false⟩,
    ⟨0x40123000, 64, 0x20, 1, 0, 0x0, 0x0, 0xFFFFFFFF, 0x0, 0x0, 0x0, 0x0, [], false⟩,
    ⟨0x40123004, 64, 0x20, 1, 0, 0x0, 0x0, 0x80000000, 0x0, 0x0, 0x0, 0x4000000F, [], false⟩,
    ⟨0x40123008, 64, 0x20, 1, 0, 0x0, 0x0, 0xFFFFFFFF, 0x0, 0x0, 0x0, 0x0, [4], false⟩,
    ⟨0x4012300C, 64, 0x20, 1, 0, 0x0, 0x0, 0xFFFFFFFF, 0x0, 0x0, 0x0, 0x0, [], true⟩,
    ⟨0x40123010, 64, 0x20, 1, 0, 0x0, 0x0, 0x0, 0x0, 0x0, 0x0, 0xFFFFFFFF, [4], false⟩,
    ⟨0x40123014, 64, 0x20, 1, 0, 0x0, 0x0, 0x0, 0x0, 0x0, 0x0, 0xFFFFFFFF, [], true⟩,
    ⟨0x40123018, 64, 0x20, 1, 0, 0x0, 0x0, 0x0, 0x0, 0x0, 0x0, 0xFFFFFFFF, [], false⟩ ]

/-- The register rows of the MOT window. -/
def regRowsMot : List RegRow :=
  [ ⟨0x400A0000, 1, 0x0, 1, 0, 0x0, 0x0, 0xF, 0x0, 0x0, 0x0, 0x0, [], false⟩,
    ⟨0x400A1000, 32, 0x100, 1, 0, 0x1, 0xFF1F1FFF, 0x0, 0x0, 0x0, 0x0, 0x0, [], false⟩,
    ⟨0x400A1004, 32, 0x100, 1, 0, 0x0, 0x0, 0xF, 0x0, 0x0, 0x0, 0x0, [], false⟩,
    ⟨0x400A1008, 32, 0x100, 1, 0, 0x0, 0x0, 0x0, 0x0, 0x0, 0x0, 0x0, [], false⟩,
    ⟨0x400A100C, 32, 0x100, 1, 0, 0x80000000, 0x0, 0x0, 0x0, 0x0, 0x0, 0xBC000F07, [], false⟩,
    ⟨0x400A1010, 32, 0x100, 1, 0, 0x0, 0x0, 0x0, 0xFF, 0x0, 0x0, 0x0, [], false⟩,
    ⟨0x400A1018, 32, 0x100, 1, 0, 0x0, 0xFFFFFFFF, 0x0, 0x0, 0x0, 0x0, 0x0, [4], false⟩,
    ⟨0x400A101C, 32, 0x100, 1, 0, 0x0, 0xFFFFFFFF, 0x0, 0x0, 0x0, 0x0, 0x0, [], true⟩,
    ⟨0x400A1020, 32, 0x100, 1, 0, 0x0, 0xFFFFFFFF, 0x0, 0x0, 0x0, 0x0, 0x0, [4], false⟩,
    ⟨0x400A1024, 32, 0x100, 1, 0, 0x0, 0xFFFFFFFF, 0x0, 0x0, 0x0, 0x0, 0x0, [], true⟩,
    ⟨0x400A1028, 32, 0x100, 1, 0, 0x0, 0xFFFFFFFF, 0x0, 0x0, 0x0, 0x0, 0x0, [4], false⟩,
    ⟨0x400A102C, 32, 0x100, 1, 0, 0x0, 0xFFFFFFFF, 0x0, 0x0, 0x0, 0x0, 0x0, [], true⟩,
    ⟨0x400A1030, 32, 0x100, 1, 0, 0x0, 0xFFFFFFFF, 0x0, 0x0, 0x0, 0x0, 0x0, [4], false⟩,
    ⟨0x400A1034, 32, 0x100, 1, 0, 0x0, 0xFFFFFFFF, 0x0, 0x0, 0x0, 0x0, 0x0, [], true⟩,
    ⟨0x400A1038, 32, 0x100, 1, 0, 0x0, 0xFFFFFFFF, 0x0, 0x0, 0x0, 0x0, 0x0, [4], false⟩,
    ⟨0x400A103C, 32, 0x100, 1, 0, 0x0, 0xFFFFFFFF, 0x0, 0x0, 0x0, 0x0, 0x0, [], true⟩,
    ⟨0x400A1040, 32, 0x100, 1, 0, 0x0, 0xFFFFFFFF, 0x0, 0x0, 0x0, 0x0, 0x0, [4], false⟩,
    ⟨0x400A1044, 32, 0x100, 1, 0, 0x0, 0xFFFFFFFF, 0x0, 0x0, 0x0, 0x0, 0x0, [], true⟩,
    ⟨0x400A1048, 32, 0x100, 1, 0, 0x0, 0xFFFFFFFF, 0x0, 0x0, 0x0, 0x0, 0x0, [4], false⟩,
    ⟨0x400A104C, 32, 0x100, 1, 0, 0x0, 0xFFFFFFFF, 0x0, 0x0, 0x0, 0x0, 0x0, [], true⟩ ] ++
  [ ⟨0x400A1050, 32, 0x100, 1, 0, 0x0, 0xFFFFFFFF, 0x0, 0x0, 0x0, 0x0, 0x0, [4], false⟩,
    ⟨0x400A1054, 32, 0x100, 1, 0, 0x0, 0xFFFFFFFF, 0x0, 0x0, 0x0, 0x0, 0x0, [], true⟩,
    ⟨0x400A1058, 32, 0x100, 1, 0, 0x0, 0xFFFFFFFF, 0x0, 0x0, 0x0, 0x0, 0x0, [], false⟩,
    ⟨0x400A105C, 32, 0x100, 1, 0, 0x1, 0xFFFFFFFF, 0x0, 0x0, 0x0, 0x0, 0x0, [], false⟩,
    ⟨0x400A1060, 32, 0x100, 1, 0, 0x0, 0xFFFFFFFF, 0x0, 0x0, 0x0, 0x0, 0x0, [4], false⟩,
    ⟨0x400A1064, 32, 0x100, 1, 0, 0x0, 0xFFFFFFFF, 0x0, 0x0, 0x0, 0x0, 0x0, [], true⟩,
    ⟨0x400A1068, 32, 0x100, 1, 0, 0x0, 0xFFFFFFFF, 0x0, 0x0, 0x0, 0x0, 0x0, [4], false⟩,
    ⟨0x400A106C, 32, 0x100, 1, 0, 0x0, 0xFFFFFFFF, 0x0, 0x0, 0x0, 0x0, 0x0, [], true⟩,
    ⟨0x400A1070, 32, 0x100, 1, 0, 0x0, 0xFFFFFFF8, 0x0, 0x0, 0x0, 0x0, 0x0, [], false⟩,
    ⟨0x400A1074, 32, 0x100, 1, 0, 0x0, 0xFFFFFFF8, 0x0, 0x0, 0x0, 0x0, 0x0, [], false⟩,
    ⟨0x400A1078, 32, 0x100, 1, 0, 0x0, 0x8000000F, 0x0, 0x0, 0x0, 0x0, 0x0, [], false⟩,
    ⟨0x400A107C, 32, 0x100, 1, 0, 0x0, 0x8000000F, 0x0, 0x0, 0x0, 0x0, 0x0, [], false⟩,
    ⟨0x400A1080, 32, 0x100, 1, 0, 0x0, 0xFFFFFFFF, 0x0, 0x0, 0x0, 0x0, 0x0, [], false⟩,
    ⟨0x400A1084, 32, 0x100, 1, 0, 0x0, 0xFFFFFFFF, 0x0, 0x0, 0x0, 0x0, 0x0, [], false⟩,
    ⟨0x400A1088, 32, 0x100, 1, 0, 0x0, 0xFFFFFFFF, 0x0, 0x0, 0x0, 0x0, 0x0, [4], false⟩,
    ⟨0x400A108C, 32, 0x100, 1, 0, 0x0, 0xFFFFFFFF, 0x0, 0x0, 0x0, 0x0, 0x0, [], true⟩,
    ⟨0x400A1090, 32, 0x100, 1, 0, 0x0, 0xFFFFFFFF, 0x0, 0x0, 0x0, 0x0, 0x0, [], false⟩,
    ⟨0x400A1094, 32, 0x100, 1, 0, 0x64, 0xFFFF, 0x0, 0x0, 0x0, 0x0, 0x0, [], false⟩,
    ⟨0x400A1098, 32, 0x100, 1, 0, 0x0, 0xFF, 0x0, 0x0, 0x0, 0x0, 0x0, [], false⟩,
    ⟨0x400A109C, 32, 0x100, 1, 0, 0x0, 0x0, 0x0, 0x0, 0x0, 0x0, 0xFFFFFFFF, [], false⟩ ] ++
  [ ⟨0x400A10A0, 32, 0x100, 1, 0, 0x0, 0x0, 0x0, 0x0, 0x0, 0x0, 0xFFFFFFFF, [4], false⟩,
    ⟨0x400A10A4, 32, 0x100, 1, 0, 0x0, 0x0, 0x0, 0x0, 0x0, 0x0, 0xFFFFFFFF, [], true⟩,
    ⟨0x400A10A8, 32, 0x100, 1, 0, 0x0, 0x0, 0x0, 0x0, 0x0, 0x0, 0xFFFFFFFF, [4], false⟩,
    ⟨0x400A10AC, 32, 0x100, 1, 0, 0x0, 0x0, 0x0, 0x0, 0x0, 0x0, 0xFFFFFFFF, [], true⟩,
    ⟨0x400A10B0, 32, 0x100, 1, 0, 0x0, 0x0, 0x0, 0x0, 0x0, 0x0, 0xFFFFFFFF, [], false⟩,
    ⟨0x400A10B4, 32, 0x100, 1, 0, 0x0, 0x0, 0x0, 0x0, 0x0, 0x0, 0xFFFFFFFF, [4], false⟩,
    ⟨0x400A10B8, 32, 0x100, 1, 0, 0x0, 0x0, 0x0, 0x0, 0x0, 0x0, 0xFFFFFFFF, [], true⟩,
    ⟨0x400A10BC, 32, 0x100, 1, 0, 0x0, 0x0, 0x0, 0x0, 0x0, 0x0, 0xFFFFFFFF, [4], false⟩,
    ⟨0x400A10C0, 32, 0x100, 1, 0, 0x0, 0x0, 0x0, 0x0, 0x0, 0x0, 0xFFFFFFFF, [], true⟩,
    ⟨0x400A10C4, 32, 0x100, 1, 0, 0x0, 0x0, 0x0, 0x0, 0x0, 0x0, 0x0, [], false⟩,
    ⟨0x400A10C8, 32, 0x100, 1, 0, 0x10000, 0xFFFFFFFF, 0x0, 0x0, 0x0, 0x0, 0x0, [], false⟩,
    ⟨0x400A10CC, 32, 0x100, 1, 0, 0x20, 0xFFFF003F, 0x0, 0x0, 0x0, 0x0, 0x0, [], false⟩,
    ⟨0x400A4000, 16, 0x20, 1, 0, 0x0, 0x0, 0xE01F3FFF, 0x0, 0x0, 0x0, 0x0, [], false⟩,
    ⟨0x400A4004, 16, 0x20, 1, 0, 0xA05, 0x0, 0xFFFFFF, 0x0, 0x0, 0x0, 0x0, [], false⟩,
    ⟨0x400A4008, 16, 0x20, 1, 0, 0x0, 0x0, 0x0, 0x0, 0x0, 0x0, 0xFFFFFFFF, [], false⟩,
    ⟨0x400A400C, 16, 0x20, 1, 0, 0x0, 0x0, 0x0, 0x0, 0x0, 0x0, 0xFFFFFFFF, [], false⟩,
    ⟨0x400A4010, 16, 0x20, 1, 0, 0x0, 0x0, 0x0, 0x1, 0x0, 0x0, 0x0, [], false⟩,
    ⟨0x400A5000, 16, 0x20, 1, 0, 0x0, 0x0, 0xFE1FFFFF, 0x0, 0x0, 0x0, 0x0, [], false⟩,
    ⟨0x400A5004, 16, 0x20, 1, 0, 0x0, 0x0, 0xFFFFFFFF, 0x0, 0x0, 0x0, 0x0, [], false⟩,
    ⟨0x400A5008, 16, 0x20, 1, 0, 0x0, 0x0, 0x0, 0x0, 0x0, 0x0, 0xFFFFFFFF, [], false⟩ ] ++
  [ ⟨0x400A500C, 16, 0x20, 1, 0, 0x0, 0x0, 0x0, 0x7, 0x0, 0x0, 0x0, [], false⟩ ]

/-- The register rows of the SKP window. -/
def regRowsSkp : List RegRow :=
  [ ⟨0x400B0000, 4, 0x2000, 1, 0, 0x0, 0x0, 0xF, 0x0, 0x0, 0x0, 0x0, [], false⟩,
    ⟨0x400B0004, 4, 0x2000, 1, 0, 0x0, 0x7F, 0x0, 0x0, 0x0, 0x0, 0x0, [], false⟩,
    ⟨0x400B0008, 4, 0x2000, 1, 0, 0x0, 0x0, 0x0, 0x0, 0xFF, 0x0, 0x0, [], false⟩,
    ⟨0x400B000C, 4, 0x2000, 1, 0, 0x0, 0x0, 0x0, 0xFF, 0x0, 0x0, 0x0, [], false⟩,
    ⟨0x400B1000, 4, 0x2000, 256, 4, 0x0, 0xFFFFFFFF, 0x0, 0x0, 0x0, 0x0, 0x0, [], false⟩,
    ⟨0x400B0100, 4, 0x2000, 8, 128, 0x0, 0x8000000F, 0x0, 0x0, 0x0, 0x0, 0x0, [], false⟩,
    ⟨0x400B0104, 4, 0x2000, 8, 128, 0x0, 0x0, 0x0, 0x0, 0x0, 0x0, 0xF0FF3F3F, [], false⟩,
    ⟨0x400B0108, 4, 0x2000, 8, 128, 0x0, 0x0, 0x0, 0x1F, 0x0, 0x0, 0xFF00, [], false⟩,
    ⟨0x400B010C, 4, 0x2000, 8, 128, 0x20001, 0xFFFF00FF, 0x0, 0x0, 0x0, 0x0, 0x0, [], false⟩,
    ⟨0x400B0110, 4, 0x2000, 8, 128, 0xFF00, 0xFFFF, 0x0, 0x0, 0x0, 0x0, 0x0, [], false⟩,
    ⟨0x400B0114, 4, 0x2000, 8, 128, 0xFF00, 0x7770FF03, 0x0, 0x0, 0x0, 0x0, 0x0, [], false⟩,
    ⟨0x400B0118, 4, 0x2000, 8, 128, 0x3020100, 0x3F3F3F3F, 0x0, 0x0, 0x0, 0x0, 0x0, [], false⟩,
    ⟨0x400B011C, 4, 0x2000, 8, 128, 0x7060504, 0x3F3F3F3F, 0x0, 0x0, 0x0, 0x0, 0x0, [], false⟩,
    ⟨0x400B0120, 4, 0x2000, 8, 128, 0x0, 0x1F, 0x0, 0x0, 0x0, 0x0, 0x0, [], false⟩,
    ⟨0x400B0124, 4, 0x2000, 8, 128, 0x0, 0x0, 0x0, 0x0, 0x0, 0x0, 0x0, [], false⟩,
    ⟨0x400B0128, 4, 0x2000, 8, 128, 0x0, 0x0, 0x0, 0x0, 0x0, 0x0, 0xF, [], false⟩,
    ⟨0x400B012C, 4, 0x2000, 8, 128, 0x0, 0xFFFFFFFF, 0x0, 0x0, 0x0, 0x0, 0x0, [], false⟩,
    ⟨0x400B0130, 4, 0x2000, 8, 128, 0x0, 0xFFFFFFFF, 0x0, 0x0, 0x0, 0x0, 0x0, [], false⟩,
    ⟨0x400B0134, 4, 0x2000, 8, 128, 0x0, 0x0, 0x0, 0x0, 0x0, 0x0, 0xFFFFFFFF, [], false⟩,
    ⟨0x400B0138, 4, 0x2000, 8, 128, 0x0, 0x0, 0x0, 0x0, 0x0, 0x0, 0xFFFFFFFF, [], false⟩ ] ++
  [ ⟨0x400B013C, 4, 0x2000, 8, 128, 0x0, 0x0, 0x0, 0x0, 0x0, 0x0, 0xFFFFFFFF, [4], false⟩,
    ⟨0x400B0140, 4, 0x2000, 8, 128, 0x0, 0x0, 0x0, 0x0, 0x0, 0x0, 0xFFFFFFFF, [], true⟩,
    ⟨0x400B0144, 4, 0x2000, 8, 128, 0x0, 0x0, 0x0, 0xFF, 0x0, 0x0, 0x0, [], false⟩,
    ⟨0x400B0148, 4, 0x2000, 8, 128, 0x0, 0x0, 0x0, 0x0, 0xFFFFFFFF, 0x0, 0x0, [], false⟩,
    ⟨0x400B014C, 4, 0x2000, 8, 128, 0x0, 0x0, 0x0, 0x0, 0x0, 0x0, 0xFFFF, [], false⟩,
    ⟨0x400B8000, 32, 0x20, 1, 0, 0x32, 0x0, 0x81FF3F33, 0x0, 0x0, 0x0, 0x0, [], false⟩,
    ⟨0x400B8004, 32, 0x20, 1, 0, 0x0, 0x0, 0x0, 0x0, 0x0, 0x0, 0x0, [], false⟩,
    ⟨0x400B8008, 32, 0x20, 1, 0, 0x0, 0x0, 0x0, 0x0, 0x0, 0x0, 0xF01FF, [], false⟩,
    ⟨0x400B800C, 32, 0x20, 1, 0, 0x0, 0x0, 0x0, 0x3, 0x0, 0x0, 0x0, [], false⟩,
    ⟨0x400B8010, 32, 0x20, 1, 0, 0x0, 0x0, 0x0, 0x0, 0x0, 0x0, 0xFFFFFFFF, [4], false⟩,
    ⟨0x400B8014, 32, 0x20, 1, 0, 0x0, 0x0, 0x0, 0x0, 0x0, 0x0, 0xFFFFFFFF, [], true⟩,
    ⟨0x400B8018, 32, 0x20, 1, 0, 0x0, 0x0, 0x0, 0x0, 0x0, 0x0, 0xFFFFFFFF, [], false⟩,
    ⟨0x400B801C, 32, 0x20, 1, 0, 0x1, 0x1FF, 0x0, 0x0, 0x0, 0x0, 0x1FF0000, [], false⟩ ]

/-- The register rows of the MEM window. -/
def regRowsMem : List RegRow :=
  [ ⟨0x400C0000, 1, 0x0, 1, 0, 0x1, 0x0, 0x1, 0x0, 0x0, 0x0, 0x0, [], false⟩,
    ⟨0x400C0004, 1, 0x0, 1, 0, 0x0, 0x0, 0x0, 0x0, 0x0, 0x0, 0x7, [], false⟩,
    ⟨0x400C0008, 1, 0x0, 1, 0, 0x0, 0x0, 0x0, 0xFF, 0x0, 0x0, 0x0, [], false⟩,
    ⟨0x400C0010, 1, 0x0, 1, 0, 0x0, 0x0, 0x0, 0x0, 0x0, 0x0, 0x1F0F, [], false⟩,
    ⟨0x400C0014, 1, 0x0, 1, 0, 0x0, 0x0, 0x0, 0x0, 0x0, 0xFFFFFFFF, 0x0, [], false⟩,
    ⟨0x400C0020, 1, 0x0, 1, 0, 0x0, 0x0, 0x0, 0x0, 0x0, 0xFFFFFFFF, 0x0, [], false⟩,
    ⟨0x400C0024, 1, 0x0, 1, 0, 0x0, 0x0, 0x0, 0x0, 0x0, 0xFFFFFFFF, 0x0, [], false⟩,
    ⟨0x400C0028, 1, 0x0, 1, 0, 0x0, 0x0, 0x0, 0x0, 0x0, 0x0, 0xFFFFFFFF, [], false⟩,
    ⟨0x400C002C, 1, 0x0, 1, 0, 0x1, 0x0, 0xFFFFFFFF, 0x0, 0x0, 0x0, 0x0, [], false⟩,
    ⟨0x400C0030, 1, 0x0, 1, 0, 0x0, 0xFFFFFFFF, 0x0, 0x0, 0x0, 0x0, 0x0, [], false⟩,
    ⟨0x400C0034, 1, 0x0, 1, 0, 0x0, 0xFFFFFFFF, 0x0, 0x0, 0x0, 0x0, 0x0, [], false⟩,
    ⟨0x400C0038, 1, 0x0, 1, 0, 0x0, 0x0, 0x0, 0x0, 0x0, 0x0, 0xFFFFFFFF, [], false⟩,
    ⟨0x400C003C, 1, 0x0, 1, 0, 0x0, 0x0, 0x0, 0x0, 0x0, 0x0, 0xFFFFFFFF, [], false⟩,
    ⟨0x400C0040, 1, 0x0, 1, 0, 0x0, 0x0, 0x318, 0x0, 0x0, 0x0, 0x60000000, [], false⟩,
    ⟨0x400C0044, 1, 0x0, 1, 0, 0x0, 0x0, 0xFFFFFFFF, 0x0, 0x0, 0x0, 0x0, [], false⟩,
    ⟨0x400C0100, 1, 0x0, 32, 4, 0x0, 0x0, 0x0, 0x0, 0x0, 0x0, 0xC000FF0F, [], false⟩,
    ⟨0x400C0200, 1, 0x0, 32, 4, 0x0, 0xF, 0x0, 0x0, 0x0, 0x0, 0x0, [], false⟩,
    ⟨0x400C0300, 1, 0x0, 16, 4, 0x4001, 0x0, 0xFFFF, 0x0, 0x0, 0x0, 0x0, [], false⟩,
    ⟨0x400C0400, 1, 0x0, 256, 4, 0x0, 0x1F, 0x0, 0x0, 0x0, 0x0, 0x0, [], false⟩ ]

/-- The register rows of the XDM window. -/
def regRowsXdm : List RegRow :=
  [ ⟨0x400D0010, 1, 0x0, 1, 0, 0x0, 0x0, 0x0, 0x0, 0x0, 0x0, 0x80FF000F, [], false⟩,
    ⟨0x400D0014, 1, 0x0, 1, 0, 0x0, 0x0, 0x0, 0x0, 0x0, 0x0, 0x1F, [], false⟩,
    ⟨0x400D0018, 1, 0x0, 1, 0, 0x0, 0x0, 0x0, 0x0, 0x0, 0x0, 0xFFFFFFFF, [], false⟩,
    ⟨0x400D001C, 1, 0x0, 1, 0, 0x0, 0x0, 0x0, 0x0, 0x0, 0x0, 0xFF0F, [], false⟩,
    ⟨0x400D0020, 1, 0x0, 1, 0, 0x0, 0x0, 0x0, 0x0, 0x0, 0x0, 0xFFFFFFFF, [4], false⟩,
    ⟨0x400D0024, 1, 0x0, 1, 0, 0x0, 0x0, 0x0, 0x0, 0x0, 0x0, 0xFFFFFFFF, [], true⟩,
    ⟨0x400D0028, 1, 0x0, 1, 0, 0x0, 0x0, 0x0, 0x0, 0x0, 0x0, 0xFF, [], false⟩,
    ⟨0x400D002C, 1, 0x0, 1, 0, 0x0, 0x0, 0xC00000FF, 0x0, 0x0, 0x0, 0x0, [], false⟩,
    ⟨0x400D1000, 64, 0x40, 1, 0, 0x0, 0x0, 0x0, 0x0, 0x0, 0x0, 0x0, [], false⟩,
    ⟨0x400D1004, 64, 0x40, 1, 0, 0x0, 0x0, 0x0, 0x0, 0x0, 0x0, 0xF0307, [], false⟩,
    ⟨0x400D1008, 64, 0x40, 1, 0, 0x0, 0x0, 0x0, 0xF, 0x0, 0x0, 0x0, [], false⟩,
    ⟨0x400D100C, 64, 0x40, 1, 0, 0x0, 0x0, 0xF, 0x0, 0x0, 0x0, 0x0, [], false⟩,
    ⟨0x400D1010, 64, 0x40, 1, 0, 0x0, 0xFFFFFFE0, 0x0, 0x0, 0x0, 0x0, 0x0, [], false⟩,
    ⟨0x400D1014, 64, 0x40, 1, 0, 0x0, 0x0, 0x0, 0x0, 0x0, 0x0, 0xFFFFFFE0, [], false⟩,
    ⟨0x400D1018, 64, 0x40, 1, 0, 0x0, 0xFFFFFFFF, 0x0, 0x0, 0x0, 0x0, 0x0, [4], false⟩,
    ⟨0x400D101C, 64, 0x40, 1, 0, 0x0, 0xFFFFFFFF, 0x0, 0x0, 0x0, 0x0, 0x0, [], true⟩,
    ⟨0x400D1020, 64, 0x40, 1, 0, 0x0, 0xFFFFFFFF, 0x0, 0x0, 0x0, 0x0, 0x0, [], false⟩,
    ⟨0x400D1024, 64, 0x40, 1, 0, 0x0, 0xFFFFFFFF, 0x0, 0x0, 0x0, 0x0, 0x0, [], false⟩,
    ⟨0x400D1028, 64, 0x40, 1, 0, 0x0, 0x0, 0x0, 0x0, 0x0, 0xFFFFFFFF, 0x0, [], false⟩,
    ⟨0x400D4000, 16, 0x80, 16, 8, 0x0, 0x0, 0xFFFFFFC7, 0x0, 0x0, 0x0, 0x0, [], false⟩ ] ++
  [ ⟨0x400D4004, 16, 0x80, 16, 8, 0x0, 0x0, 0xFFFFFFC0, 0x0, 0x0, 0x0, 0x0, [], false⟩ ]

/-- The register rows of the MBX window. -/
def regRowsMbx : List RegRow :=
  [ ⟨0x400F0000, 64, 0x80, 16, 4, 0x0, 0xFFFFFFFF, 0x0, 0x0, 0x0, 0x0, 0x0, [], false⟩,
    ⟨0x400F0040, 64, 0x80, 1, 0, 0x0, 0x0, 0x0, 0x30000000, 0x0, 0x0, 0x4800FFFF, [], false⟩,
    ⟨0x400F0044, 64, 0x80, 1, 0, 0x0, 0x0, 0xEFFFFFFF, 0x0, 0x0, 0x0, 0x0, [], false⟩,
    ⟨0x400F2000, 1, 0x0, 1, 0, 0x3E8, 0x0, 0xFFFFFFFF, 0x0, 0x0, 0x0, 0x0, [], false⟩,
    ⟨0x400F2004, 1, 0x0, 1, 0, 0x0, 0x0, 0x0, 0x0, 0x0, 0x0, 0xFFFFFFFF, [], false⟩,
    ⟨0x400F2008, 1, 0x0, 1, 0, 0x0, 0x0, 0x0, 0x0, 0x0, 0x0, 0xFFFFFFFF, [], false⟩,
    ⟨0x400F200C, 1, 0x0, 1, 0, 0x0, 0x0, 0x0, 0x0, 0x0, 0x0, 0xFFFFFFFF, [], false⟩,
    ⟨0x400F2010, 1, 0x0, 1, 0, 0x0, 0x0, 0x0, 0x0, 0x0, 0x0, 0xFFFFFFFF, [], false⟩,
    ⟨0x400F8004, 1, 0x0, 1, 0, 0x0, 0x0, 0x1FF, 0x0, 0x0, 0x0, 0x0, [], false⟩,
    ⟨0x400F8010, 1, 0x0, 1, 0, 0x0, 0x0, 0x0, 0x0, 0x0, 0x0, 0xF, [], false⟩,
    ⟨0x400F8100, 1, 0x0, 16, 4, 0x0, 0x0, 0x0, 0xFFFFFFFF, 0x0, 0x0, 0x0, [], false⟩,
    ⟨0x400F8400, 8, 0x40, 1, 0, 0x0, 0x0, 0x0, 0x0, 0x0, 0x0, 0x7F, [], false⟩,
    ⟨0x400F8404, 8, 0x40, 1, 0, 0x0, 0x0, 0x0, 0x0, 0x0, 0x0, 0x0, [], false⟩,
    ⟨0x400F8408, 8, 0x40, 1, 0, 0x0, 0x0, 0x0, 0x0, 0x0, 0xFFFFFFFF, 0x0, [], false⟩,
    ⟨0x400F840C, 8, 0x40, 1, 0, 0x0, 0x0, 0x0, 0x1, 0x0, 0x0, 0x0, [], false⟩,
    ⟨0x400F8410, 8, 0x40, 1, 0, 0x0, 0x0, 0xF, 0x0, 0x0, 0x0, 0x0, [], false⟩,
    ⟨0x400F8420, 8, 0x40, 4, 4, 0x0, 0x0, 0x0, 0x0, 0x0, 0x0, 0xFFFFFFFF, [], false⟩,
    ⟨0x400F9000, 1, 0x0, 512, 4, 0x0, 0x0, 0xFFFFCFFF, 0x0, 0x0, 0x0, 0x0, [], false⟩ ]

/-- The register rows of the CVU window. -/
def regRowsCvu : List RegRow :=
  [ ⟨0x400E0000, 16, 0x80, 1, 0, 0x320, 0xC000037F, 0x0, 0x0, 0x0, 0x0, 0x0, [], false⟩,
    ⟨0x400E0004, 16, 0x80, 1, 0, 0x0, 0x0, 0x0, 0x0, 0x0, 0x0, 0x0, [], false⟩,
    ⟨0x400E0008, 16, 0x80, 1, 0, 0x0, 0x0, 0x0, 0x3, 0x0, 0x0, 0x0, [], false⟩,
    ⟨0x400E000C, 16, 0x80, 1, 0, 0x0, 0x0, 0xF, 0x0, 0x0, 0x0, 0x0, [], false⟩,
    ⟨0x400E0010, 16, 0x80, 1, 0, 0x1EDC6F41, 0xFFFFFFFF, 0x0, 0x0, 0x0, 0x0, 0x0, [4], false⟩,
    ⟨0x400E0014, 16, 0x80, 1, 0, 0x0, 0xFFFFFFFF, 0x0, 0x0, 0x0, 0x0, 0x0, [], true⟩,
    ⟨0x400E0018, 16, 0x80, 1, 0, 0xFFFFFFFF, 0xFFFFFFFF, 0x0, 0x0, 0x0, 0x0, 0x0, [4], false⟩,
    ⟨0x400E001C, 16, 0x80, 1, 0, 0x0, 0xFFFFFFFF, 0x0, 0x0, 0x0, 0x0, 0x0, [], true⟩,
    ⟨0x400E0020, 16, 0x80, 1, 0, 0xFFFFFFFF, 0xFFFFFFFF, 0x0, 0x0, 0x0, 0x0, 0x0, [4], false⟩,
    ⟨0x400E0024, 16, 0x80, 1, 0, 0x0, 0xFFFFFFFF, 0x0, 0x0, 0x0, 0x0, 0x0, [], true⟩,
    ⟨0x400E0028, 16, 0x80, 1, 0, 0x0, 0xFFFFFFFF, 0x0, 0x0, 0x0, 0x0, 0x0, [4], false⟩,
    ⟨0x400E002C, 16, 0x80, 1, 0, 0x0, 0xFFFFFFFF, 0x0, 0x0, 0x0, 0x0, 0x0, [], true⟩,
    ⟨0x400E0030, 16, 0x80, 1, 0, 0x0, 0x0, 0x0, 0x0, 0x0, 0x0, 0xFFFFFFFF, [4], false⟩,
    ⟨0x400E0034, 16, 0x80, 1, 0, 0x0, 0x0, 0x0, 0x0, 0x0, 0x0, 0xFFFFFFFF, [], true⟩,
    ⟨0x400E0038, 16, 0x80, 1, 0, 0x0, 0xFFFFFFFF, 0x0, 0x0, 0x0, 0x0, 0x0, [], false⟩,
    ⟨0x400E003C, 16, 0x80, 1, 0, 0x0, 0x0, 0x0, 0x0, 0x0, 0x0, 0x0, [], false⟩,
    ⟨0x400E0040, 16, 0x80, 1, 0, 0x0, 0x0, 0x0, 0x0, 0x0, 0x0, 0x0, [], false⟩,
    ⟨0x400E0044, 16, 0x80, 1, 0, 0x0, 0x0, 0x0, 0x0, 0x0, 0x0, 0xFFFFFFFF, [], false⟩ ]

/-- The register rows of the HIF window. -/
def regRowsHif : List RegRow :=
  [ ⟨0x40110000, 1, 0x0, 1, 0, 0x20000000, 0x0, 0x0, 0x0, 0x0, 0x0, 0xE00300FF, [], false⟩,
    ⟨0x40110004, 1, 0x0, 1, 0, 0x0, 0x0, 0x0, 0x1F, 0x0, 0x0, 0x0, [], false⟩,
    ⟨0x40110008, 1, 0x0, 1, 0, 0x0, 0x0, 0x0, 0x0, 0x0, 0x0, 0xFFFF, [], false⟩,
    ⟨0x4011000C, 1, 0x0, 1, 0, 0x0, 0x0, 0xFFFF, 0x0, 0x0, 0x0, 0x0, [], false⟩,
    ⟨0x40110010, 1, 0x0, 1, 0, 0x0, 0x0, 0xFFFF, 0x0, 0x0, 0x0, 0x0, [], false⟩,
    ⟨0x40110014, 1, 0x0, 1, 0, 0x0, 0x0, 0x0, 0x0, 0x0, 0x0, 0xFFFF, [], false⟩,
    ⟨0x40110018, 1, 0x0, 1, 0, 0x0, 0x0, 0x1, 0x0, 0x0, 0x0, 0x0, [], false⟩,
    ⟨0x40110020, 1, 0x0, 1, 0, 0x0, 0x0, 0x0, 0xFFFFFFFF, 0x0, 0x0, 0x0, [], false⟩,
    ⟨0x40110024, 1, 0x0, 1, 0, 0x0, 0x0, 0x0, 0xFFFFFFFF, 0x0, 0x0, 0x0, [], false⟩,
    ⟨0x40110030, 1, 0x0, 1, 0, 0x0, 0x0, 0xF0000000, 0x0, 0x0, 0x0, 0x0, [4], false⟩,
    ⟨0x40110034, 1, 0x0, 1, 0, 0x0, 0x0, 0xFFFFFFFF, 0x0, 0x0, 0x0, 0x0, [], true⟩,
    ⟨0x40110040, 1, 0x0, 1, 0, 0x1000, 0x0, 0xFF00, 0x0, 0x0, 0x0, 0x0, [], false⟩,
    ⟨0x40110044, 1, 0x0, 1, 0, 0x2, 0x0, 0xF, 0x0, 0x0, 0x0, 0x0, [], false⟩,
    ⟨0x40110050, 1, 0x0, 1, 0, 0x408, 0x0, 0xFF1F, 0x0, 0x0, 0x0, 0x0, [], false⟩ ]

/-- The register rows of the SEC window. -/
def regRowsSec : List RegRow :=
  [ ⟨0x40100000, 1, 0x0, 1, 0, 0x0, 0x0, 0x0, 0xF, 0x0, 0x0, 0x0, [], false⟩,
    ⟨0x40100004, 1, 0x0, 1, 0, 0x0, 0x0, 0x0, 0x0, 0x0, 0x0, 0x800F00FF, [], false⟩,
    ⟨0x40100008, 1, 0x0, 1, 0, 0x0, 0x0, 0x0, 0x0, 0x0, 0x0, 0xFFFF, [], false⟩,
    ⟨0x4010000C, 1, 0x0, 1, 0, 0x0, 0x0, 0x0, 0x0, 0x0, 0x0, 0x3F3F3F3F, [], false⟩,
    ⟨0x40100010, 1, 0x0, 1, 0, 0x0, 0x0, 0x0, 0x0, 0x0, 0x0, 0x3, [], false⟩,
    ⟨0x40100014, 1, 0x0, 1, 0, 0x0, 0x0, 0x0, 0x0, 0x0, 0x0, 0xFFFFFFFF, [4], false⟩,
    ⟨0x40100018, 1, 0x0, 1, 0, 0x0, 0x0, 0x0, 0x0, 0x0, 0x0, 0xFFFFFFFF, [], true⟩,
    ⟨0x4010001C, 1, 0x0, 1, 0, 0x0, 0x0, 0x0, 0x0, 0x0, 0x0, 0xFFFF, [], false⟩,
    ⟨0x40100020, 1, 0x0, 1, 0, 0x0, 0x0, 0x8F000133, 0x0, 0x0, 0x0, 0x600F0000, [], false⟩,
    ⟨0x40100030, 1, 0x0, 12, 4, 0x0, 0x0, 0xFFFFFFFF, 0x0, 0x0, 0x0, 0x0, [], false⟩,
    ⟨0x40100080, 1, 0x0, 1, 0, 0x0, 0x0, 0xFFFFFFE0, 0x0, 0x0, 0x0, 0x0, [], false⟩,
    ⟨0x40100084, 1, 0x0, 1, 0, 0x0, 0x0, 0x1, 0x0, 0x0, 0x0, 0x0, [], false⟩,
    ⟨0x40100088, 1, 0x0, 1, 0, 0x0, 0x0, 0x0, 0x0, 0x0, 0x0, 0xF0000000, [], false⟩,
    ⟨0x401000A0, 1, 0x0, 1, 0, 0x0, 0x0, 0x1, 0x0, 0x0, 0x0, 0x0, [], false⟩,
    ⟨0x401000A4, 1, 0x0, 1, 0, 0x0, 0x0, 0x0, 0x0, 0x0, 0x0, 0x8000001F, [], false⟩,
    ⟨0x401000A8, 1, 0x0, 1, 0, 0x0, 0x0, 0x0, 0x0, 0x0, 0x0, 0xFFFFFFFF, [], false⟩ ]

/-- The register rows of the EVR window. -/
def regRowsEvr : List RegRow :=
  [ ⟨0x40140000, 1, 0x0, 1, 0, 0x80000000, 0x0, 0x0, 0x0, 0x0, 0x0, 0xA0001FFF, [], false⟩,
    ⟨0x40140004, 1, 0x0, 1, 0, 0x0, 0x0, 0x0, 0x3, 0x0, 0x0, 0x0, [], false⟩,
    ⟨0x40140008, 1, 0x0, 1, 0, 0x0, 0x0, 0x0, 0x0, 0x0, 0x0, 0xFFFFFFFF, [], false⟩,
    ⟨0x4014000C, 1, 0x0, 1, 0, 0x0, 0x0, 0x0, 0x0, 0x0, 0x0, 0xFFFFFFFF, [], false⟩,
    ⟨0x40140010, 1, 0x0, 1, 0, 0x0, 0x0, 0x0, 0x0, 0x0, 0x0, 0xFFFFFFFF, [], false⟩,
    ⟨0x40140014, 1, 0x0, 1, 0, 0x0, 0x0, 0x0, 0x0, 0x0, 0x0, 0xFFFFFFFF, [], false⟩,
    ⟨0x40140018, 1, 0x0, 1, 0, 0x0, 0x0, 0x0, 0x0, 0x0, 0x0, 0x1FFF, [], false⟩,
    ⟨0x40140020, 1, 0x0, 1, 0, 0x0, 0x0, 0x7FFFF, 0x0, 0x0, 0x0, 0x0, [], false⟩,
    ⟨0x40140024, 1, 0x0, 1, 0, 0x0, 0x0, 0xFFFFFFFF, 0x0, 0x0, 0x0, 0x0, [], false⟩,
    ⟨0x40140028, 1, 0x0, 8, 4, 0x0, 0x0, 0xFFFFFFFF, 0x0, 0x0, 0x0, 0x0, [], false⟩,
    ⟨0x40140048, 1, 0x0, 1, 0, 0x0, 0x0, 0xC0000000, 0x0, 0x0, 0x0, 0x0, [], false⟩,
    ⟨0x4014004C, 1, 0x0, 1, 0, 0x0, 0x0, 0x0, 0x0, 0x0, 0x0, 0xFFFFFFFF, [], false⟩,
    ⟨0x40140060, 1, 0x0, 8, 4, 0x0, 0x0, 0x0, 0x0, 0x0, 0x0, 0xFFFFFFFF, [], false⟩ ]

/-- The register rows of the SYS window. -/
def regRowsSys : List RegRow :=
  [ ⟨0x40000000, 1, 0x0, 1, 0, 0x164800B0, 0x0, 0x0, 0x0, 0x0, 0x0, 0xFFFFFFFF, [], false⟩,
    ⟨0x40000004, 1, 0x0, 1, 0, 0x1, 0x0, 0x7, 0x0, 0x0, 0x0, 0x0, [], false⟩,
    ⟨0x40000008, 1, 0x0, 1, 0, 0x0, 0x0, 0x0, 0x0, 0x0, 0x0, 0x3F, [], false⟩,
    ⟨0x4000000C, 1, 0x0, 1, 0, 0x0, 0x0, 0x0, 0x0, 0x0, 0x0, 0xF, [], false⟩,
    ⟨0x40000010, 1, 0x0, 1, 0, 0x0, 0x0, 0x0, 0x0, 0x0, 0x0, 0xC00F000F, [], false⟩,
    ⟨0x40000014, 1, 0x0, 1, 0, 0x0, 0x0, 0x0, 0x1, 0x0, 0x0, 0x0, [], false⟩,
    ⟨0x40001000, 1, 0x0, 128, 4, 0x110, 0x0, 0x333F, 0x0, 0x0, 0x0, 0x0, [], false⟩,
    ⟨0x40001200, 1, 0x0, 4, 4, 0x0, 0x0, 0x0, 0x0, 0x0, 0x0, 0xFFFFFFFF, [], false⟩,
    ⟨0x40001210, 1, 0x0, 4, 4, 0x0, 0xFFFFFFFF, 0x0, 0x0, 0x0, 0x0, 0x0, [], false⟩,
    ⟨0x40001220, 1, 0x0, 4, 4, 0x0, 0xFFFFFFFF, 0x0, 0x0, 0x0, 0x0, 0x0, [], false⟩,
    ⟨0x40001230, 1, 0x0, 4, 4, 0x0, 0x0, 0x0, 0x0, 0x0, 0x0, 0x0, [], false⟩,
    ⟨0x40001240, 1, 0x0, 4, 4, 0x0, 0x0, 0x0, 0x0, 0x0, 0x0, 0x0, [], false⟩,
    ⟨0x40001250, 1, 0x0, 1, 0, 0x0, 0x0, 0x0, 0x0, 0x0, 0x0, 0xF, [], false⟩ ]

/-- The register rows of the PWR window. -/
def regRowsPwr : List RegRow :=
  [ ⟨0x40010000, 1, 0x0, 1, 0, 0x0, 0x0, 0x0, 0x0, 0x0, 0x0, 0xFC0F0F07, [], false⟩,
    ⟨0x40010004, 1, 0x0, 1, 0, 0x0, 0x0, 0x0, 0x3F, 0x0, 0x0, 0x0, [], false⟩,
    ⟨0x40010008, 1, 0x0, 1, 0, 0x2EE, 0x0, 0x3FF, 0x0, 0x0, 0x0, 0x0, [], false⟩,
    ⟨0x4001000C, 1, 0x0, 1, 0, 0x0, 0x0, 0x0, 0x0, 0x0, 0x0, 0xFFFFFFFF, [], false⟩,
    ⟨0x40010010, 1, 0x0, 1, 0, 0x0, 0x0, 0x0, 0x0, 0x0, 0x0, 0xFFF, [], false⟩,
    ⟨0x40010014, 1, 0x0, 1, 0, 0x1E0, 0x0, 0xFFF, 0x0, 0x0, 0x0, 0x0, [], false⟩,
    ⟨0x40010018, 1, 0x0, 1, 0, 0x0, 0x0, 0xFFFFF, 0x0, 0x0, 0x0, 0x0, [], false⟩,
    ⟨0x4001001C, 1, 0x0, 1, 0, 0x0, 0x0, 0x0, 0x0, 0x0, 0x0, 0xFFFFFFFF, [], false⟩,
    ⟨0x40010020, 1, 0x0, 4, 4, 0x80000A01, 0x0, 0x8000FFFF, 0x0, 0x0, 0x0, 0x0, [], false⟩,
    ⟨0x40010040, 1, 0x0, 1, 0, 0x64, 0x0, 0x3FF, 0x0, 0x0, 0x0, 0x0, [], false⟩,
    ⟨0x40010044, 1, 0x0, 1, 0, 0x0, 0x0, 0xFFFFFFFF, 0x0, 0x0, 0x0, 0x0, [], false⟩,
    ⟨0x40010048, 1, 0x0, 1, 0, 0x64, 0x0, 0x0, 0x0, 0x0, 0x0, 0xFFFFFFFF, [], false⟩,
    ⟨0x40010050, 1, 0x0, 1, 0, 0x0, 0x0, 0xFFFF, 0x0, 0x0, 0x0, 0x0, [], false⟩ ]

/-- The register rows of the TST window. -/
def regRowsTst : List RegRow :=
  [ ⟨0x40150000, 1, 0x0, 1, 0, 0x0, 0x0, 0x0, 0x0, 0x0, 0x0, 0x3, [], false⟩,
    ⟨0x40150004, 1, 0x0, 1, 0, 0x0, 0x0, 0x0, 0x1, 0x0, 0x0, 0x0, [], false⟩,
    ⟨0x40150100, 14, 0x20, 1, 0, 0x0, 0x0, 0x8000330F, 0x0, 0x0, 0x0, 0x0, [], false⟩,
    ⟨0x40150104, 14, 0x20, 1, 0, 0x0, 0x0, 0x0, 0x0, 0x0, 0x0, 0x7, [], false⟩,
    ⟨0x40150108, 14, 0x20, 1, 0, 0x0, 0x0, 0x0, 0x0, 0x0, 0x0, 0xFFFFFFFF, [4], false⟩,
    ⟨0x4015010C, 14, 0x20, 1, 0, 0x0, 0x0, 0x0, 0x0, 0x0, 0x0, 0xFFFFFFFF, [], true⟩,
    ⟨0x40150110, 14, 0x20, 1, 0, 0x0, 0x0, 0x0, 0x0, 0x0, 0x0, 0xFFFFFFFF, [], false⟩ ]

/-- The register rows of the 64 KB window of an address (R33). -/
def regRowsOf (a : Nat) : List RegRow :=
  match a / 0x10000 with
  | 0x4000 => regRowsSys
  | 0x4001 => regRowsPwr
  | 0x4002 => regRowsTmu
  | 0x4003 => regRowsAng
  | 0x4004 => regRowsEth
  | 0x4005 => regRowsEth
  | 0x4006 => regRowsSwx
  | 0x4007 => regRowsSwx
  | 0x4008 => regRowsCan
  | 0x4009 => regRowsCan
  | 0x400A => regRowsMot
  | 0x400B => regRowsSkp
  | 0x400C => regRowsMem
  | 0x400D => regRowsXdm
  | 0x400E => regRowsCvu
  | 0x400F => regRowsMbx
  | 0x4010 => regRowsSec
  | 0x4011 => regRowsHif
  | 0x4012 => regRowsTsk
  | 0x4013 => regRowsPe
  | 0x4014 => regRowsEvr
  | 0x4015 => regRowsTst
  | _ => []

/-- Whether a row lists an address. -/
def RegRow.covers (r : RegRow) (a : Nat) : Bool :=
  let d := a - r.base
  let i := d / r.stride
  let e := d - i * r.stride
  let j := e / r.stride2
  decide (r.base ≤ a) && decide (i < r.count) && decide (j < r.count2) && decide (e - j * r.stride2 = 0)

/-- The row that lists an address, if any (R13). -/
def regRow (a : Nat) : Option RegRow := (regRowsOf a).find? fun r => r.covers a

/-- Reset values that differ from one instance to another: the CRC slot presets of R266, the
window bases of R353, the owner groups of R383, SUP's segment SG0 of R373. -/
def specialReset (a : Nat) : Option Nat :=
  let w := a / 0x10000
  let o := a % 0x10000
  if w = 0x4013 then
    if o < 0x800 then
      match o % 0x100 with
      | 0x40 => some 0x04C11DB7
      | 0x44 => some 0x1021
      | 0x48 => some 0x1EDC6F41
      | 0x4C => some 7
      | 0x50 => some 0x120
      | 0x54 => some 0x10
      | 0x58 => some 0x120
      | 0x5C => some 8
      | _ => none
    else none
  else if w = 0x400B then
    match o with
    | 0x2004 => some 0x20
    | 0x4004 => some 0x40
    | 0x6004 => some 0x60
    | _ => none
  else if a = 0x400D4000 then some 7
  else if a = 0x400D4004 then some 0xFFFFFFC0
  else if w = 0x400C then (if 0x300 < o ∧ o < 0x340 then some 0 else none)
  else none

/-- A register's reset value. -/
def regReset (a : Nat) : W32 :=
  match specialReset a with
  | some v => BitVec.ofNat 32 v
  | none =>
    match regRow a with
    | some r => BitVec.ofNat 32 r.reset
    | none => 0

end Sys2Proof.Machine
end

