-- ==== Sys2Proof/Machine/Ops.lean ====
section
/-!
DEFINITION. The named operations over registers, events and memory that every block's meaning
is written with: the access codes of R10 to R15, the raising of events (R397, R401), the memory
map (R32), the ownership check and its bookkeeping (R27, R358), error correction (R363, R364),
segments (R372, R373), the freeze queue (R375).
-/
namespace Sys2Proof.Machine

/-! ### Registers -/

/-- The stored value of a register. -/
def Chip.reg (c : Chip) (a : Nat) : W32 := tblGet (regReset a) c.regs a

/-- A register's stored value replaced. -/
def Chip.setReg (c : Chip) (a : Nat) (v : W32) : Chip :=
  { c with regs := tblSet (regReset a) c.regs a v }

/-- Field [hi:lo] of a register. -/
def Chip.fld (c : Chip) (a hi lo : Nat) : Nat := wfld (c.reg a) hi lo

/-- Bit `i` of a register. -/
def Chip.bit (c : Chip) (a i : Nat) : Bool := wbit (c.reg a) i

/-- A register with field [hi:lo] replaced. -/
def Chip.setFld (c : Chip) (a hi lo v : Nat) : Chip := c.setReg a (wsetFld (c.reg a) hi lo v)

/-- A register with bit `i` set to `b`. -/
def Chip.setBit (c : Chip) (a i : Nat) (b : Bool) : Chip := c.setReg a (wsetBit (c.reg a) i b)

/-- A count register increased, saturating at `m`. -/
def Chip.incSat (c : Chip) (a m : Nat) : Chip := c.setReg a (w32 (satTo m ((c.reg a).toNat + 1)))

/-- A 32-bit count register increased, saturating at 0xFFFF_FFFF. -/
def Chip.inc (c : Chip) (a : Nat) : Chip := c.incSat a 0xFFFFFFFF

/-- The staged part of a split register (R15): the last value written, or its reset value. -/
def Chip.stagedPart (c : Chip) (a : Nat) : W32 := tblGet (regReset a) c.staged a

/-- A part staged (R15). -/
def Chip.stage (c : Chip) (a : Nat) (v : W32) : Chip :=
  { c with staged := tblSet (regReset a) c.staged a v }

/-- A 64-bit register pair, by the address of its low word. -/
def Chip.reg64 (c : Chip) (a : Nat) : Nat := join64 (c.reg (a + 4)) (c.reg a)

/-- A register pair written by hardware, which writes the staging register too (R15). -/
def Chip.setReg64 (c : Chip) (a : Nat) (v : Nat) : Chip :=
  ((c.setReg a (lo32 v)).setReg (a + 4) (hi32 v)).stage (a + 4) (hi32 v)

/-- The answer of a fabric access noted. -/
def Chip.answer (c : Chip) (r : BusResult) : Chip := { c with bus := r }

/-- A write that was performed. -/
def Chip.done (c : Chip) : Chip := c.answer (.ok 0)

/-- A write refused with a bus error: nothing else changes (R10, R11). -/
def Chip.refuse (c : Chip) : Chip := c.answer .busError

/-- The next free value: the state's counter advances (DESIGN CHOICE, log entry 1). -/
def Chip.takeFree (c : Chip) : Nat × Chip :=
  ((Config.freeValue c.free).toNat, { c with free := c.free + 1 })

/-! ### Line time -/

/-- Line time in 2^-16 ns (R52). -/
def Chip.lt (c : Chip) : Nat := c.tmu.lt

/-- Line time in whole ns. -/
def Chip.ltNs (c : Chip) : Nat := c.tmu.lt / 65536

/-- Line time in whole µs. -/
def Chip.ltUs (c : Chip) : Nat := c.tmu.lt / 65536000

/-! ### Device state -/

/-- SYS_STATE.STATE: 0 OFF, 1 RESET, 2 BOOT, 3 CHRYSALIS, 4 CONFIGURED, 5 RUN (R4, R496). -/
def Chip.sysState (c : Chip) : Nat := c.fld SYS_STATE 2 0

/-! ### Events -/

/-- A source raises an event (R397), under the route in force (R401), and its bit in EVT_PEND is set (R399). -/
def Chip.raise (c : Chip) (src code : Nat) : Chip :=
  let c := c.setBit (EVT_PEND (src / 32)) (src % 32) true
  { c with evt := { c.evt with
      raised := c.evt.raised ++ [⟨src, code, c.tmu.lt, c.reg (EVT_ROUTE src)⟩] } }

/-- Flag bits set in a W1C register, and the register's source raised. -/
def Chip.flag (c : Chip) (a i src : Nat) : Chip := (c.setBit a i true).raise src 0

/-- A bit of MEM_EVCAUSE set, which raises source 416 + i (R383). -/
def Chip.memCause (c : Chip) (i : Nat) : Chip := c.flag MEM_EVCAUSE i (416 + i)

/-! ### The memory map -/

/-- The kinds of address of R32. -/
inductive Region where
  | rom | sram (bank : Nat) | mram | pe (n : Nat) | tc | sup | periph | flash | outbound | unassigned
  deriving DecidableEq, Repr

/-- The assignment of the fabric's addresses (R32). -/
def regionOf (a : Nat) : Region :=
  if a < 0x20000 then .rom
  else if a < 0x10000000 then .unassigned
  else if a < 0x11000000 then .sram ((a - 0x10000000) / 0x80000)
  else if a < 0x20000000 then .unassigned
  else if a < 0x20400000 then .mram
  else if a < 0x30000000 then .unassigned
  else if a < 0x30800000 then
    (if (a - 0x30000000) % 0x100000 < 0x40000 then .pe ((a - 0x30000000) / 0x100000) else .unassigned)
  else if a < 0x30840000 then .tc
  else if a < 0x30900000 then .unassigned
  else if a < 0x30980000 then .sup
  else if a < 0x40000000 then .unassigned
  else if a < 0x40160000 then .periph
  else if a < 0x80000000 then .unassigned
  else if a < 0x90000000 then .flash
  else if a < 0xC0000000 then .unassigned
  else if a < 0xD0000000 then .outbound
  else .unassigned

/-- The number of the march run that left a bank's contents undefined, 0 for none (R368). -/
def Chip.undefRun (c : Chip) (a : Nat) : Nat :=
  match regionOf a with
  | .sram b => tblGet 0 c.memc.undef b
  | _ => 0

/-- A byte of memory, whatever its region: the boot ROM's contents are outside the spec, a byte
of an undefined bank is a free value, and any other unlisted byte reads 0 (DESIGN CHOICE, log entries 2 to 4). -/
def Chip.byte (c : Chip) (a : Nat) : Byte :=
  match tblFind c.mem a with
  | some b => b
  | none =>
    if a < 0x20000 then Config.bootRom a
    else if c.undefRun a = 0 then 0 else Config.undefByte (c.undefRun a) a

/-- A byte stored, keeping the canonical form: 0 is not listed outside undefined banks. -/
def Chip.setByte (c : Chip) (a : Nat) (b : Byte) : Chip :=
  { c with mem :=
      if b = 0 ∧ c.undefRun a = 0 then tblErase c.mem a else tblInsert (tblErase c.mem a) a b }

/-- Bytes from an address upward. -/
def Chip.bytes (c : Chip) (a n : Nat) : List Byte := (List.range n).map fun i => c.byte (a + i)

/-- Bytes stored from an address upward. -/
def Chip.setBytes (c : Chip) (a : Nat) : List Byte → Chip
  | [] => c
  | b :: bs => (c.setByte a b).setBytes (a + 1) bs

/-- The canonical form of memory: addresses strictly rising, and no byte 0 listed outside an
undefined bank. -/
def Memory.wf (c : Chip) : Bool :=
  tblRising 0 c.mem && c.mem.all fun e => e.2 ≠ 0 || c.undefRun e.1 ≠ 0

/-- A little-endian 32-bit word of memory (R8). -/
def Chip.word (c : Chip) (a : Nat) : W32 := w32 (leNat (c.bytes a 4))

/-- A little-endian 32-bit word stored (R8). -/
def Chip.setWord (c : Chip) (a : Nat) (v : W32) : Chip := c.setBytes a (leBytes 4 v.toNat)

/-- Several words from an address upward. -/
def Chip.words (c : Chip) (a n : Nat) : List W32 := (List.range n).map fun i => c.word (a + 4 * i)

/-- Several words stored from an address upward. -/
def Chip.setWords (c : Chip) (a : Nat) : List W32 → Chip
  | [] => c
  | w :: ws => (c.setWord a w).setWords (a + 4) ws

/-! ### Ownership, error correction, segments -/

/-- Why an access to memory was refused. -/
inductive AccErr where
  /-- Unassigned address, a refused write, a FAILED bank: a bus error. -/
  | bus
  /-- The master is no member of the bank's owner group (R27). -/
  | owner
  /-- An uncorrectable error (R363, R364). -/
  | ecc
  /-- No segment grants it (R372). -/
  | seg
  /-- A read of the outbound window whose completions have not come (R532): the access is not over. -/
  | wait
  deriving DecidableEq, Repr

/-- The answer a refused access gives. -/
def AccErr.result : AccErr → BusResult
  | .bus => .busError
  | .owner => .ownership
  | .ecc => .ecc
  | .seg => .segment
  | .wait => .waiting

/-- Whether a master is a member of an owner group (R34, R27). -/
def Chip.inGroup (c : Chip) (m og : Nat) : Bool := c.bit (MEM_OGRP og) m

/-- Whether a master is a member of the owner group in force on a bank (R27). -/
def Chip.ownsBank (c : Chip) (m b : Nat) : Bool := c.inGroup m (c.fld (MEM_BOWN b) 3 0)

/-- The bookkeeping of an ownership error (R358). -/
def Chip.ownErr (c : Chip) (m b : Nat) : Chip :=
  ((c.inc MEM_OERRCNT).setReg MEM_OERR (w32 (at_ b 8 + m))).memCause 1

/-- The 8-byte-aligned words that an access touches. -/
def wordsOf (a n : Nat) : List Nat :=
  (List.range ((a + n + 7) / 8 - a / 8)).map fun i => (a / 8 + i) * 8

/-- The bookkeeping of an uncorrectable error (R363, R366). -/
def Chip.ueErr (c : Chip) (w : Nat) : Chip :=
  let c := ((c.inc MEM_ECCUE).setReg MEM_ECCADDR (w32 w)).memCause 3
  if regionOf w = .mram then (c.setBit MEM_STAT 0 false).memCause 6 else c

/-- Whether the region accepts a write by this master: ROM and the flash window do not (R32), the SO
regions of MRAM only from SUP (R366), and an engine's instruction memory only from SUP and SEC DMA while the engine
is STOPPED or LOADED (R242). -/
def Chip.writable (c : Chip) (m a : Nat) : Bool :=
  match regionOf a with
  | .rom => false
  | .flash => false
  | .mram => decide (0x20080000 ≤ a) || m == 0
  | .pe n =>
    decide (0x20000 ≤ (a - 0x30000000) % 0x100000) ||
      ((m == 0 || m == 13) && (c.fld (PE_PEn_STAT n) 2 0 == 1 || c.fld (PE_PEn_STAT n) 2 0 == 2))
  | _ => true

/-- The checks on a memory access that do not depend on segments: the address is assigned, the
bank is not FAILED (R370) and belongs to a group of the master (R27). -/
def Chip.accCheck (c : Chip) (m a n : Nat) (write : Bool) : Option AccErr :=
  match regionOf a with
  | .unassigned => some .bus
  | .periph => some .bus
  | .outbound => if c.bit HIF_STAT 31 && regionOf (a + n - 1) == .outbound then none else some .bus
  | .sram b =>
    if regionOf (a + n - 1) ≠ .sram b then some .bus
    else if c.bit (MEM_BSTAT b) 31 then some .bus
    else if c.ownsBank m b then none else some .owner
  | r =>
    if regionOf (a + n - 1) ≠ r then some .bus
    else if write && !c.writable m a then some .bus else none

/-- The bank number of an address, for the record of an ownership error. -/
def bankOf (a : Nat) : Nat := (a - 0x10000000) / 0x80000

/-- The state after a refusal by `accCheck`. -/
def Chip.noteErr (c : Chip) (m a : Nat) : AccErr → Chip
  | .owner => c.ownErr m (bankOf a)
  | _ => c

/-! ### The outbound window -/

/-- The host address of an address in the outbound window (R416). -/
def Chip.hostAddr (c : Chip) (a : Nat) : Nat := c.reg64 HIF_OB_BASE_LO / 2 ^ 28 * 2 ^ 28 + (a - 0xC0000000)

/-- A read of the outbound window (R532): sent to the host the first time, and over once its completions have
come or it has been refused. -/
def Chip.obRead (c : Chip) (m a n : Nat) : Except AccErr (List Byte) × Chip :=
  match c.hif.ob.find? fun r => r.m == m && r.a == a && r.n == n with
  | none => (.error .wait, { c with hif := { c.hif with ob := c.hif.ob ++ [⟨m, a, n, c.tmu.raw, none⟩] } })
  | some r =>
    let c1 := { c with hif := { c.hif with ob := c.hif.ob.erase r } }
    match r.result with
    | none => (.error .wait, c)
    | some none => (.error .bus, c1)
    | some (some bs) => (.ok bs, c1)

/-- A read of memory as the bank port performs it, after the segment check: the bytes with
correctable errors corrected and counted, or the error (R27, R363). -/
def Chip.memRead (c : Chip) (m a n : Nat) : Except AccErr (List Byte) × Chip :=
  match c.accCheck m a n false with
  | some e => (.error e, c.noteErr m a e)
  | none =>
    if regionOf a = .outbound then c.obRead m a n
    else
    match (wordsOf a n).find? fun w => c.memc.ueWords.contains w with
    | some w => (.error .ecc, c.ueErr w)
    | none =>
      if (wordsOf a n).any fun w => c.memc.ceWords.contains w then
        (.ok (c.bytes a n), (c.inc MEM_ECCCE).memCause 2)
      else (.ok (c.bytes a n), c)

/-- The words an access covers whole. -/
def wholeWords (a n : Nat) : List Nat :=
  (wordsOf a n).filter fun w => decide (a ≤ w) && decide (w + 8 ≤ a + n)

/-- A write of memory as the bank port performs it, after the segment check: a word in part is
read, corrected and written; a whole word takes new check bits (R364). -/
def Chip.memWrite (c : Chip) (m a : Nat) (bs : List Byte) : Option AccErr × Chip :=
  match c.accCheck m a bs.length true with
  | some e => (some e, c.noteErr m a e)
  | none =>
    if regionOf a = .outbound then
      (none, { c with hif := { c.hif with posted := some (c.hostAddr a, bs) } })
    else
    let whole := wholeWords a bs.length
    let parts := (wordsOf a bs.length).filter fun w => !whole.contains w
    match parts.find? fun w => c.memc.ueWords.contains w with
    | some w => (some .ecc, c.ueErr w)
    | none =>
      let c1 := { c with memc := { c.memc with
        ueWords := c.memc.ueWords.filter fun w => !whole.contains w
        ceWords := c.memc.ceWords.filter fun w => !(wordsOf a bs.length).contains w } }
      let c2 := c1.setBytes a bs
      (none, if parts.any fun w => c.memc.ceWords.contains w then (c2.inc MEM_ECCCE).memCause 2 else c2)

/-- Whether the words of a span can all be read (R363). -/
def Chip.readable (c : Chip) (a n : Nat) : Bool := !(wordsOf a n).any fun w => c.memc.ueWords.contains w

/-- Words read by a unit's own path: corrected errors are counted, uncorrectable ones reported (R363, R366). -/
def Chip.wordsRead (c : Chip) (here : Nat → Bool) : Chip :=
  let c1 := (c.memc.ceWords.filter here).foldl (fun c _ => (c.inc MEM_ECCCE).memCause 2) c
  (c.memc.ueWords.filter here).foldl Chip.ueErr c1

/-- A span of MRAM read by a unit's own path. -/
def Chip.mramRead (c : Chip) (a n : Nat) : Chip := c.wordsRead fun w => (wordsOf a n).contains w

/-- A write of MRAM by a unit's own path (R364, R366). -/
def Chip.mramWrite (c : Chip) (a : Nat) (bs : List Byte) : Chip := (c.memWrite 0 a bs).2

/-- Whether segment `s` of a master covers an access and grants the rights (R372). -/
def Chip.segCovers (c : Chip) (m s a n need : Nat) : Bool :=
  let base := c.fld (XDM_SEGm_BASEs m s) 31 6 * 64
  let size := c.fld (XDM_SEGm_SIZEs m s) 31 6 * 64
  let rights := c.fld (XDM_SEGm_BASEs m s) 2 0
  decide (base ≤ a) && decide (a + n ≤ base + size) && (rights &&& need == need)

/-- Whether some segment of a master grants an access that names none (R372). Rights: X 4, W 2, R 1. -/
def Chip.segAllows (c : Chip) (m a n need : Nat) : Bool :=
  (List.range 16).any fun s => c.segCovers m s a n need

/-- An entry added to the freeze queue, and source 416 raised (R375). -/
def Chip.freeze (c : Chip) (e : FreezeEntry) : Chip :=
  ({ c with xdm := { c.xdm with freezes := c.xdm.freezes ++ [e] } }).memCause 0

/-- A freeze of an access that names no segment (R375). -/
def Chip.freezeAt (c : Chip) (unit m a n rwx : Nat) : Chip :=
  c.freeze ⟨unit, m, 16, a, n, false, rwx, c.lt⟩

/-- A read by a master that is not a core: segment check, then the bank port (R372). -/
def Chip.dmaRead (c : Chip) (m a n : Nat) : Except AccErr (List Byte) × Chip :=
  if c.segAllows m a n 1 then c.memRead m a n else (.error .seg, c)

/-- A write by a master that is not a core: segment check, then the bank port (R372). -/
def Chip.dmaWrite (c : Chip) (m a : Nat) (bs : List Byte) : Option AccErr × Chip :=
  if c.segAllows m a bs.length 2 then c.memWrite m a bs else (some .seg, c)

/-- The pieces of a span, each in one 64-byte unit, as address and length: units are where segments and banks meet
(R27, R372). -/
def spans64 (a n : Nat) : List (Nat × Nat) :=
  if n = 0 then []
  else
    (List.range ((a + n + 63) / 64 - a / 64)).map fun i =>
      let from_ := max a ((a / 64 + i) * 64)
      (from_, min (a + n) ((a / 64 + i + 1) * 64) - from_)

/-- Pieces read in order; what stops the read comes with the piece at which it stops. -/
def Chip.readPieces (c : Chip) (m : Nat) : List (Nat × Nat) → List Byte →
    Except (AccErr × Nat × Nat) (List Byte) × Chip
  | [], got => (.ok got, c)
  | (a, n) :: ps, got =>
    match c.dmaRead m a n with
    | (.ok bs, c1) => c1.readPieces m ps (got ++ bs)
    | (.error e, c1) => (.error (e, a, n), c1)

/-- A span read unit by unit by a master that is not a core (R27, R372). A read that waits for completions is made
again from its start, with the outbound reads whose completions have come kept (R532). -/
def Chip.readSpan (c : Chip) (m a n : Nat) : Except (AccErr × Nat × Nat) (List Byte) × Chip :=
  match c.readPieces m (spans64 a n) [] with
  | (.error (.wait, p), c1) =>
    (.error (.wait, p), { c with hif := { c.hif with
      ob := c.hif.ob ++ c1.hif.ob.filter fun r => !c.hif.ob.contains r } })
  | r => r

/-- Pieces written in order; what stops the write comes with the piece at which it stops. -/
def Chip.writePieces (c : Chip) (m : Nat) : List (Nat × Nat) → List Byte → Option (AccErr × Nat × Nat) × Chip
  | [], _ => (none, c)
  | (a, n) :: ps, bs =>
    match c.dmaWrite m a (bs.take n) with
    | (none, c1) => c1.writePieces m ps (bs.drop n)
    | (some e, c1) => (some (e, a, n), c1)

/-- A span written unit by unit by a master that is not a core (R27, R372). -/
def Chip.writeSpan (c : Chip) (m a : Nat) (bs : List Byte) : Option (AccErr × Nat × Nat) × Chip :=
  c.writePieces m (spans64 a bs.length) bs

/-! ### Writes under the access codes -/

/-- The result of a register write under the access codes of R10 alone: reserved bits stay, W1C and
W1S bits clear and set. -/
def RegRow.merge (r : RegRow) (old v : W32) (sup : Bool) : W32 :=
  let settable := BitVec.ofNat 32 (if sup then r.rw ||| r.so else r.rw)
  let base := (old &&& ~~~settable) ||| (v &&& settable)
  (base &&& ~~~(v &&& BitVec.ofNat 32 r.w1c)) ||| (v &&& BitVec.ofNat 32 r.w1s)

/-- A write to a register whose effect its access codes give whole (R10, R12, R13): refused from
any master but SUP where a field is SO. -/
def Chip.plainWrite (c : Chip) (m a : Nat) (v : W32) : Chip :=
  match regRow a with
  | none => c.done
  | some r =>
    if r.so ≠ 0 ∧ m ≠ 0 then c.refuse
    else if r.isComp then (c.stage a (r.merge (c.stagedPart a) v (m == 0))).done
    else
      let c := c.setReg a (r.merge (c.reg a) v (m == 0))
      (r.comps.foldl (fun c d => c.setReg (a + d) (c.stagedPart (a + d))) c).done

/-- Whether `plainWrite` would refuse the write. -/
def soRefused (m a : Nat) : Bool :=
  match regRow a with
  | none => false
  | some r => decide (r.so ≠ 0) && decide (m ≠ 0)

end Sys2Proof.Machine
end

