-- ==== Sys2Proof/Machine/Ctx.lean ====
section
/-!
DEFINITION. The contexts of the Dwevel cores as other blocks see them: wake lines (R227), start, halt and reset
(R230), the engines' states and events (R258, R261).
-/
namespace Sys2Proof.Machine

/-- The contexts that a core has (R209). -/
def ctxCount (core : Nat) : Nat := if core = 0 then 2 else if core ≤ 2 then 8 else 4

def Chip.ctx (c : Chip) (core x : Nat) : Ctx := tblGet .reset c.core.ctxs (core * 8 + x)

def Chip.setCtx (c : Chip) (core x : Nat) (k : Ctx) : Chip :=
  { c with core := { c.core with ctxs := tblSet .reset c.core.ctxs (core * 8 + x) k } }

/-- A wake line of a context latched (R227). -/
def Chip.wakeLine (c : Chip) (core x line : Nat) : Chip :=
  let k := c.ctx core x
  c.setCtx core x { k with wake := wsetBit k.wake line true }

/-- Every context of a core changed. -/
def Chip.eachCtx (c : Chip) (core : Nat) (f : Ctx → Ctx) : Chip :=
  (List.range (ctxCount core)).foldl (fun c x => c.setCtx core x (f (c.ctx core x))) c

/-- A core's contexts reset and HALT (R230). -/
def Chip.resetCore (c : Chip) (core : Nat) : Chip :=
  let c1 := c.eachCtx core fun _ => Ctx.reset
  { c1 with core := { c1.core with frozen := tblSet none c1.core.frozen core none } }

/-- A context that goes to HALT, or whose state before a freeze becomes HALT (R225, R236). -/
def Ctx.halted (k : Ctx) : Ctx := if k.st = .frozen then { k with saved := .halt } else { k with st := .halt }

/-- A core's contexts halted with their registers kept; a bundle in flight still commits (R258). -/
def Chip.haltCore (c : Chip) (core : Nat) : Chip := c.eachCtx core fun k => { k with st := .halt }

/-- A core's contexts leave FROZEN for their states before (R236). -/
def Chip.thaw (c : Chip) (core : Nat) : Chip :=
  let c1 := c.eachCtx core fun k => { k with st := k.saved }
  { c1 with core := { c1.core with frozen := tblSet none c1.core.frozen core none } }

/-- A core freezes at a context's bundle; bundles in flight still commit (R236). -/
def Chip.freezeCore (c : Chip) (core x : Nat) : Chip :=
  let c1 := c.eachCtx core fun k => { k with st := .frozen, saved := if k.st = .frozen then k.saved else k.st }
  let c2 := { c1 with core := { c1.core with frozen := tblSet none c1.core.frozen core (some x) } }
  if 3 ≤ core then c2.setFld (PE_PEn_STAT (core - 3)) 2 0 4 else c2

/-- An engine's state: 0 OFF, 1 STOPPED, 2 LOADED, 3 RUNNING, 4 FROZEN (R258). -/
def Chip.peState (c : Chip) (n : Nat) : Nat := c.fld (PE_PEn_STAT n) 2 0

def Chip.setPeState (c : Chip) (n s : Nat) : Chip := c.setFld (PE_PEn_STAT n) 2 0 s

/-- A cause bit of an engine set, raising source 24 + n (R261). -/
def Chip.peCause (c : Chip) (n i : Nat) : Chip := c.flag (PE_PEn_EVCAUSE n) i (24 + n)

/-- A cause at the engine of a master, if the master is an engine. -/
def Chip.ownerCause (c : Chip) (m i : Nat) : Chip := if 3 ≤ m ∧ m ≤ 10 then c.peCause (m - 3) i else c

/-- Bytes in a span of memory cleared to 0, with their check bits (R258, R364). -/
def Chip.clearMem (c : Chip) (a n : Nat) : Chip :=
  let out (w : Nat) : Bool := w < a || decide (a + n ≤ w)
  { c with
    mem := c.mem.filter fun e => out e.1
    memc := { c.memc with ueWords := c.memc.ueWords.filter out, ceWords := c.memc.ceWords.filter out } }

end Sys2Proof.Machine
end

