-- ==== Sys2Proof/Machine/Skp.lean ====
section
/-!
DEFINITION. SKP: the Skippers' instructions (R334 to R339), feeding, stalling and enabling (R340 to R345), pack
FIFOs (R346 to R351) and their registers (R353, R354).
-/
namespace Sys2Proof.Machine

/-- A Skipper's state beside its registers. -/
def Chip.sk (c : Chip) (n : Nat) : SkRun := tblGet .reset c.skp.sk n

def Chip.setSk (c : Chip) (n : Nat) (s : SkRun) : Chip :=
  { c with skp := { c.skp with sk := tblSet .reset c.skp.sk n s } }

/-- A pack FIFO. -/
def Chip.pf (c : Chip) (n : Nat) : PackFifo := tblGet .reset c.skp.pf n

def Chip.setPf (c : Chip) (n : Nat) (p : PackFifo) : Chip :=
  { c with skp := { c.skp with pf := tblSet .reset c.skp.pf n p } }

/-- A bit of SKn_EVCAUSE set, raising source 288 + n (R352). -/
def Chip.skCause (c : Chip) (n i : Nat) : Chip := c.flag (SKn_EVCAUSE n) i (288 + n)

/-- A command that the Skipper's state refuses (R330, R331, R333, R343): nothing changes but CMD_REFUSED. -/
def Chip.skRefused (c : Chip) (n : Nat) : Chip := (c.skCause n 1).done

def Chip.skEn (c : Chip) (n : Nat) : Bool := c.bit (SKn_CTL n) 31
def Chip.skPc (c : Chip) (n : Nat) : Nat := c.fld (SKn_STAT n) 23 16
def Chip.setSkPc (c : Chip) (n pc : Nat) : Chip := c.setFld (SKn_STAT n) 23 16 pc
def Chip.skNi (c : Chip) (n : Nat) : Nat := c.fld (SKn_STAT n) 13 8
def Chip.setSkNi (c : Chip) (n k : Nat) : Chip := c.setFld (SKn_STAT n) 13 8 (min k 32)
def Chip.skNo (c : Chip) (n : Nat) : Nat := c.fld (SKn_STAT n) 5 0
def Chip.setSkNo (c : Chip) (n k : Nat) : Chip := c.setFld (SKn_STAT n) 5 0 (min k 32)

/-- C0 and C1 (R333). -/
def Chip.skC (c : Chip) (n i : Nat) : Nat := c.fld (SKn_C n) (16 * i + 15) (16 * i)
def Chip.setSkC (c : Chip) (n i v : Nat) : Chip := c.setFld (SKn_C n) (16 * i + 15) (16 * i) v

/-- An interrupt line set, and when (R332, R333). -/
def Chip.skLine (c : Chip) (n i : Nat) : Chip :=
  if c.bit (SKn_IRQ n) i then c
  else { c.setBit (SKn_IRQ n) i true with
    skp := { c.skp with lineAt := tblSet 0 c.skp.lineAt (n * 8 + i) c.tmu.raw } }

/-- A cluster flag set, and when (R332, R334). -/
def Chip.skFlag (c : Chip) (cl i : Nat) : Chip :=
  if c.bit (SCc_FLAGSET cl) i then c
  else { c.setBit (SCc_FLAGSET cl) i true with
    skp := { c.skp with flagAt := tblSet 0 c.skp.flagAt (cl * 8 + i) c.tmu.raw } }

/-! ### Clocks -/

/-- Skipper clocks that have ended since EN was set (R331): edges of the divider on the 2 ns base. -/
def Chip.skClocks (c : Chip) (n : Nat) : Nat :=
  (c.tmu.raw - (c.sk n).enAt) / 2 * c.fld (SKn_CLK n) 7 0 / max 1 (c.fld (SKn_CLK n) 31 16)

/-- The raw tick of the edge that ends Skipper clock `j` (R331). -/
def Chip.skEdge (c : Chip) (n j : Nat) : Nat :=
  let step := max 1 (c.fld (SKn_CLK n) 7 0)
  (c.sk n).enAt + 2 * ((j * c.fld (SKn_CLK n) 31 16 + step - 1) / step)

/-- The raw tick at which the Skipper clock that has last ended began. -/
def Chip.skStart (c : Chip) (n : Nat) : Nat := c.skEdge n (c.skClocks n - 1)

/-- Line time in ns at an earlier raw tick, at the active domain's rate of now (DESIGN CHOICE, log entry 47). -/
def Chip.ltNsAt (c : Chip) (raw : Nat) : Nat :=
  ((c.lt : Int) - (c.tmu.raw - raw : Nat) * (2 ^ 48 + (if c.tmu.activeB then c.tmu.domB else c.tmu.domA).r) / 2 ^ 32).toNat / 65536

/-! ### Lanes -/

/-- Window pin and CLAIM of a lane (R329, R354). -/
def Chip.lanePin (c : Chip) (n j : Nat) : Nat :=
  c.fld (if j < 4 then SKn_LANES0 n else SKn_LANES1 n) (8 * (j % 4) + 4) (8 * (j % 4))
def Chip.laneClaim (c : Chip) (n j : Nat) : Bool :=
  c.bit (if j < 4 then SKn_LANES0 n else SKn_LANES1 n) (8 * (j % 4) + 5)

/-- The GPIO of a cluster's window pin (R329). -/
def Chip.windowPin (c : Chip) (cl i : Nat) : Nat := (c.fld (SCc_WINBASE cl) 6 0 + i) % 128

/-- The Skipper that drives a window pin, and the level that it drives (R330). -/
def Chip.laneDriver (c : Chip) (cl i : Nat) : Option (Nat × Bool) :=
  (List.range 64).findSome? fun k =>
    let n := cl * 8 + k / 8
    let j := k % 8
    if c.laneClaim n j && c.lanePin n j == i && c.bit (SKn_LATCH n) (8 + j) then
      some (n, c.bit (SKn_LATCH n) j) else none

/-- The level that a cluster drives on a window pin, if it drives it (R330). -/
def Chip.laneDrives (c : Chip) (cl i : Nat) : Option Bool := (c.laneDriver cl i).map (·.2)

/-- The level of a window pin as the Skipper clock that began at a raw tick reads it, `levels` at the balls 6 ns
before: a latch shows there once 8 + 6 ns have passed since it was written (R332); 0 unless the pin's function
selects the cluster (R503). -/
def Chip.windowLevel (c : Chip) (cl i start : Nat) (levels : W32) : Bool :=
  if c.fld (SYS_PIN (c.windowPin cl i)) 3 0 = 2 + cl then
    match c.laneDriver cl i with
    | some (n, b) => if (c.sk n).latchAt + 14 ≤ start then b else wbit levels i
    | none => wbit levels i
  else false

/-- The level of a lane's window pin. -/
def Chip.laneLevel (c : Chip) (n : Nat) (levels : W32) (j : Nat) : Bool :=
  c.windowLevel (n / 8) (c.lanePin n (j % 8)) (c.skStart n) levels

/-- The board's levels on those window pins of a cluster that it does not drive itself, noted (R332, R503). -/
def Chip.windowIn (c : Chip) (cl : Nat) (levels : W32) : Chip :=
  { c with pin := (List.range 32).foldl (fun p i =>
      if (c.laneDrives cl i).isSome then p else p.level (c.windowPin cl i) (wbit levels i)) c.pin }

/-! ### Pack FIFOs -/

/-- Item width in bytes (R346). -/
def Chip.pfBytes (c : Chip) (n : Nat) : Nat :=
  match c.fld (PFn_CFG n) 1 0 with
  | 0 => 1
  | 1 => 2
  | _ => 4

/-- A word committed with its tag; events by R352. -/
def Chip.pfCommit (c : Chip) (n data bytes : Nat) (closed : Bool) : Chip :=
  let p := c.pf n
  let w : PackWord := ⟨data, at_ p.seq 8 + at_ (b2n closed) 4 + bytes⟩
  let p1 := { p with words := p.words ++ [w], asm := 0, asmBytes := 0, seq := (p.seq + 1) % 256 }
  let c1 := c.setPf n p1
  let c2 := if p1.words.length = c.fld (PFn_CFG n) 24 16 then c1.raise (320 + n) 0 else c1
  if closed && c.bit (PFn_CFG n) 31 then c2.raise (320 + n) 0 else c2

/-- A PUSH of an item, of a close, or of both; none where it stalls (R336, R341, R346). -/
def Chip.pfPush (c : Chip) (n : Nat) (item : Option Nat) (close : Bool) : Option Chip :=
  let p := c.pf n
  let w := c.pfBytes n
  let bytes := p.asmBytes + (if item.isSome then w else 0)
  let data := p.asm + (item.getD 0) % 2 ^ (8 * w) * 2 ^ (8 * p.asmBytes)
  if bytes = 0 then some c
  else if bytes = 8 ∨ close then
    if p.words.length = 256 then none else some (c.pfCommit n data bytes close)
  else some (c.setPf n { p with asm := data, asmBytes := bytes })

/-- A read credit granted (R351). -/
def pfGrant (c : Chip) (n : Nat) : Chip :=
  let p := c.pf n
  if c.fld (PFn_CFG n) 5 4 = 1 ∧ p.credits < p.words.length ∧ p.credits < c.fld (PFn_CREDIT n) 8 0 then
    c.setPf n { p with credits := p.credits + 1 }
  else c

/-- When the FIFO last freed a word, once one is popped (R341). -/
def PackFifo.freedAt (p : PackFifo) (raw : Nat) : Nat := if p.words.length = 256 then raw else p.freed

/-- The oldest word popped, if there is one. -/
def Chip.pfPop (c : Chip) (n : Nat) : Option PackWord × Chip :=
  let p := c.pf n
  match p.words with
  | [] => (none, c)
  | w :: ws => (some w, c.setPf n { p with
      words := ws, last := w, credits := min p.credits ws.length, freed := p.freedAt c.tmu.raw })

/-- An XDM channel's read under a credit (R351). -/
def Chip.pfCreditRead (c : Chip) (n : Nat) : Option PackWord × Chip :=
  let p := c.pf n
  match p.words with
  | [] => (none, c)
  | w :: ws =>
    if p.credits = 0 then (none, c)
    else (some w, c.setPf n { p with
      words := ws, last := w, credits := p.credits - 1, freed := p.freedAt c.tmu.raw })

/-- A read of PFn_DATA_LO where READER is registers: the word and tag returned and latched (R348, R349). -/
def Chip.pfRead (c : Chip) (n : Nat) : PackWord × Chip :=
  match c.pfPop n with
  | (some w, c1) => (w, c1)
  | (none, _) =>
    let l := (c.pf n).last
    (⟨l.data, l.tag % 2 ^ 31 + 2 ^ 31⟩, c.flag (PFn_FLAGS n) 0 (320 + n))

/-- A write of PFn_CTL (R350). -/
def pfCtlWrite (c : Chip) (n : Nat) (v : W32) : Chip :=
  if wbit v 0 then ((c.setPf n { PackFifo.reset with freed := c.tmu.raw }).setReg (PFn_FLAGS n) 0).done else c.done

/-! ### Instructions -/

/-- The cluster's instruction word at a Skipper's PC. -/
def Chip.skWord (c : Chip) (n : Nat) : Nat := c.fld (SCc_INSN (n / 8) (c.skPc n)) 15 0

/-- Whether the word has only listed codes and clear reserved bits (R334, R335). -/
def skLegal (w : Nat) : Bool :=
  let k := if nfld w 4 0 = 0 then 32 else nfld w 4 0
  match nfld w 15 12 with
  | 0 => decide (nfld w 11 8 ≤ 10)
  | 1 =>
    !nbit w 6 &&
      (match nfld w 10 8 with
       | 0 => decide (nfld w 5 0 < 8)
       | 1 => decide (nfld w 5 0 < 8)
       | 2 => decide (nfld w 5 0 < 8) && nbit w 11
       | 3 => decide (nfld w 5 0 < 32)
       | 4 => decide (nfld w 5 0 < 48)
       | _ => false)
  | 2 => decide (nfld w 8 5 = 0) && decide (nfld w 11 9 ≤ 4) && (decide (nfld w 11 9 ≠ 0) || decide (k ≤ 8))
  | 3 => decide (nfld w 8 5 = 0) && decide (nfld w 11 9 ≤ 6) && (decide (2 ≤ nfld w 11 9) || decide (k ≤ 8))
  | 4 => decide (nfld w 9 0 = 0) && (!nbit w 10 || nbit w 11)
  | 5 => decide (nfld w 11 0 = 0)
  | 6 => decide (nfld w 3 0 = 0) && decide (nfld w 11 9 ≤ 6)
  | 7 => !nbit w 8 && decide (nfld w 11 9 ≤ 4)
  | 8 => decide (nfld w 9 8 = 0)
  | 9 => decide (nfld w 9 0 = 0) && decide (nfld w 11 10 ≤ 2)
  | _ => false

/-- What R339 does with an instruction that is not executed. -/
def Chip.skIllegal (c : Chip) (n : Nat) : Chip :=
  ((c.setBit (SKn_CTL n) 31 false).setBit (SKn_STAT n) 29 true).skCause n 4

/-- PC after an instruction that does not write it (R333). -/
def Chip.skAdvance (c : Chip) (n : Nat) : Chip :=
  c.setSkPc n (if c.skPc n = c.fld (SKn_RANGE n) 15 8 then c.fld (SKn_RANGE n) 7 0 else (c.skPc n + 1) % 256)

/-- Whether a value may be written to PC (R339). -/
def Chip.skInRange (c : Chip) (n pc : Nat) : Bool :=
  decide (c.fld (SKn_RANGE n) 7 0 ≤ pc) && decide (pc ≤ c.fld (SKn_RANGE n) 15 8)

/-- The instruction's end in its clock, PC apart. -/
def Chip.skUseClock (c : Chip) (n : Nat) : Chip := c.setSk n { c.sk n with clk := c.skClocks n }

/-- Whether a Skipper may complete an instruction now: a Skipper clock has ended since the last, with EN set or in
the clock at whose end a cleared EN stops it (R342). -/
def Chip.skRuns (c : Chip) (n : Nat) : Bool :=
  decide ((c.sk n).clk < c.skClocks n) && (c.skEn n || decide (c.skClocks n = (c.sk n).stopClk))

/-- The frame of every instruction row: the Skipper runs, neither waits nor stalls, and the word at PC has this
operation; a reserved word is illegal (R332, R339). -/
def Chip.skInsn (c : Chip) (n op : Nat) (f : Chip → Nat → Chip) : Chip :=
  let w := c.skWord n
  if c.skRuns n && !c.bit (SKn_STAT n) 30 && !c.bit (SKn_STAT n) 31 then
    if nfld w 15 12 = op ∨ 10 ≤ nfld w 15 12 then
      if skLegal w then f (c.skUseClock n) w else (c.skUseClock n).skIllegal n
    else c
  else c

/-- The condition of a JMP, and the state with what testing it changes (R334). -/
def Chip.skCond (c : Chip) (n : Nat) (levels : W32) (cond : Nat) : Bool × Chip :=
  let count (i : Nat) : Bool × Chip :=
    if c.skC n i = 0 then (false, c) else (decide (c.skC n i ≠ 1), c.setSkC n i (c.skC n i - 1))
  match cond with
  | 0 => (true, c)
  | 1 => count 0
  | 2 => count 1
  | 3 => (c.laneLevel n levels (c.fld (SKn_CFG n) 30 28), c)
  | 4 => (!c.laneLevel n levels (c.fld (SKn_CFG n) 30 28), c)
  | 5 => (c.bit (SKn_STAT n) 28, c.setBit (SKn_STAT n) 28 false)
  | 6 => (!(c.sk n).feed.isEmpty, c)
  | 7 => (decide (c.skNo n = 32), c)
  | 8 => (decide (c.skNi n = 32), c)
  | 9 => (decide (c.reg (SKn_D n) = 0), c)
  | _ => (decide (c.reg (SKn_D n) ≠ 0), c)

/-- JMP (R334). -/
def skJmp (c : Chip) (n : Nat) (levels : W32) : Chip :=
  (c.windowIn (n / 8) levels).skInsn n 0 fun c w =>
    let (taken, c1) := c.skCond n levels (nfld w 11 8)
    if !taken then c1.skAdvance n
    else if c.skInRange n (nfld w 7 0) then c1.setSkPc n (nfld w 7 0)
    else c.skIllegal n

/-- Whether an edge noted at or after a quarter-tick lies at least 4 ns before the Skipper clock (R332). -/
def Chip.skSaw (c : Chip) (n start : Nat) (edges : List Nat) : Bool :=
  edges.any fun e => decide (start ≤ e) && decide (e + 16 ≤ 4 * c.skStart n)

/-- Whether a WAIT's source holds, with what its end consumes (R337). A set line or flag is seen in the first Skipper
clock that starts 4 ns after it was set (R332). -/
def Chip.skHolds (c : Chip) (n w : Nat) (levels : W32) (start : Nat) : Option Chip :=
  let pol := nbit w 11
  let i := nfld w 5 0
  let seen (t : Nat) : Bool := decide (t + 4 ≤ c.skStart n)
  match nfld w 10 8 with
  | 0 => if c.laneLevel n levels i == pol then some c else none
  | 1 =>
    if !pol then if c.bit (SCc_FLAGSET (n / 8)) i then none else some c
    else if c.bit (SCc_FLAGSET (n / 8)) i && seen (tblGet 0 c.skp.flagAt (n / 8 * 8 + i)) then
      some (c.setBit (SCc_FLAGSET (n / 8)) i false) else none
  | 2 =>
    if c.bit (SKn_IRQ n) i && seen (tblGet 0 c.skp.lineAt (n * 8 + i)) then
      some (c.setBit (SKn_IRQ n) i false) else none
  | 3 => if c.skSaw n start (tblGet [] c.tmu.toEdges i) then some c else none
  | _ => if c.skSaw n start (tblGet [] c.tmu.tsEdges i) then some c else none

/-- WAIT at its issue (R337). -/
def skWait (c : Chip) (n : Nat) (levels : W32) : Chip :=
  (c.windowIn (n / 8) levels).skInsn n 1 fun c w =>
    let start := 4 * c.skStart n
    match c.skHolds n w levels start with
    | some c1 => c1.skAdvance n
    | none => (c.setSk n { c.sk n with waitStart := start }).setBit (SKn_STAT n) 30 true

/-- The end of a wait, with TMOF set or not. -/
def Chip.skWaitOver (c : Chip) (n : Nat) : Chip :=
  ((c.skUseClock n).setBit (SKn_STAT n) 30 false).skAdvance n

/-- A wait ends as an arrival (R337). -/
def skWaitEnd (c : Chip) (n : Nat) (levels : W32) : Chip :=
  let c := c.windowIn (n / 8) levels
  if c.skRuns n && c.bit (SKn_STAT n) 30 then
    match c.skHolds n (c.skWord n) levels (c.sk n).waitStart with
    | some c1 => c1.skWaitOver n
    | none => c
  else c

/-- A wait ends at an edge of its timeout channel; an arrival seen in the same clock comes first (R337). -/
def skWaitTimeout (c : Chip) (n : Nat) (levels : W32) : Chip :=
  let c := c.windowIn (n / 8) levels
  let w := c.skWord n
  if c.skRuns n && c.bit (SKn_STAT n) 30 && nbit w 7 then
    match c.skHolds n w levels (c.sk n).waitStart with
    | some c1 => c1.skWaitOver n
    | none =>
      if c.skSaw n ((c.sk n).waitStart + 1) (tblGet [] c.tmu.toEdges (c.fld (SKn_TMO n) 4 0)) then
        (c.setBit (SKn_STAT n) 28 true).skWaitOver n else c
  else c

/-- The count of IN and OUT (R334). -/
def skCount (w : Nat) : Nat := if nfld w 4 0 = 0 then 32 else nfld w 4 0

/-- OUT's delivered bits and SHO after it (R335). -/
def Chip.skShiftOut (c : Chip) (n k : Nat) : Nat × Chip :=
  let sho := (c.reg (SKn_SHO n)).toNat
  let c1 := c.setSkNo n (c.skNo n + k)
  if c.bit (SKn_CFG n) 1 then (sho % 2 ^ k, c1.setReg (SKn_SHO n) (w32 (sho / 2 ^ k)))
  else (sho / 2 ^ (32 - k), c1.setReg (SKn_SHO n) (w32 (sho * 2 ^ k)))

/-- The lanes' levels from a lane upward, as a number of `k` bits (R335). -/
def Chip.skLanes (c : Chip) (n : Nat) (levels : W32) (base k : Nat) : Nat :=
  ((List.range k).map fun i => b2n (c.laneLevel n levels ((base + i) % 8)) * 2 ^ i).sum

/-- Lane latches written at the edge that ends the instruction: lane j takes bit j of `v` where `mask` has it; `lo` is 0
for output latches and 8 for direction latches (R332, R333, R354). -/
def Chip.skLatch (c : Chip) (n lo mask v : Nat) : Chip :=
  let c1 := c.setSk n { c.sk n with latchAt := c.skEdge n (c.skClocks n) }
  (List.range 8).foldl (fun c j => if nbit mask j then c.setBit (SKn_LATCH n) (lo + j) (nbit v j) else c) c1

/-- IN (R335). -/
def skIn (c : Chip) (n : Nat) (levels : W32) : Chip :=
  (c.windowIn (n / 8) levels).skInsn n 2 fun c w =>
    let k := skCount w
    let (src, c1) : Nat × Chip := match nfld w 11 9 with
      | 0 => (c.skLanes n levels (c.fld (SKn_CFG n) 26 24) k, c)
      | 1 => ((c.reg (SKn_D n)).toNat % 2 ^ k, c)
      | 2 => (0, c)
      | 3 => (2 ^ k - 1, c)
      | _ => c.skShiftOut n k
    let shi := (c.reg (SKn_SHI n)).toNat
    let v := if c.bit (SKn_CFG n) 0 then shi / 2 ^ k + src * 2 ^ (32 - k) else shi * 2 ^ k + src
    ((c1.setReg (SKn_SHI n) (w32 v)).setSkNi n (c.skNi n + k)).skAdvance n

/-- OUT (R335). -/
def skOut (c : Chip) (n : Nat) : Chip :=
  c.skInsn n 3 fun c w =>
    let k := skCount w
    let (v, c1) := c.skShiftOut n k
    let base := c.fld (SKn_CFG n) 22 20
    let toLanes (lo : Nat) : Chip :=
      let at8 (x : Nat) : Nat := x * 2 ^ base % 256 + x * 2 ^ base / 256
      c1.skLatch n lo (at8 (2 ^ k - 1)) (at8 v)
    match nfld w 11 9 with
    | 0 => (toLanes 0).skAdvance n
    | 1 => (toLanes 8).skAdvance n
    | 2 => (c1.setReg (SKn_D n) (w32 v)).skAdvance n
    | 3 => c1.skAdvance n
    | 4 => (c1.setSkC n 0 v).skAdvance n
    | 5 => (c1.setSkC n 1 v).skAdvance n
    | _ => if c.skInRange n (v % 256) then c1.setSkPc n (v % 256) else c.skIllegal n

/-- PUSH without its stall check: the state after it, none where it stalls (R336, R341). -/
def Chip.skPushNow (c : Chip) (n w : Nat) : Option Chip :=
  let shi := (c.reg (SKn_SHI n)).toNat
  let item := if c.bit (SKn_CFG n) 0 then shi / 2 ^ (32 - 8 * c.pfBytes n) else shi
  if nbit w 10 then (c.pfPush n none true).map fun c1 => c1.skAdvance n
  else (c.pfPush n (some item) (nbit w 11)).map fun c1 =>
    ((c1.setReg (SKn_SHI n) 0).setSkNi n 0).skAdvance n

/-- PULL without its stall check (R336, R340, R341). -/
def Chip.skPullNow (c : Chip) (n : Nat) : Option Chip :=
  match (c.sk n).feed with
  | [] => none
  | x :: xs =>
    let c1 := ((c.setSk n { c.sk n with feed := xs }).setReg (SKn_SHO n) x).setSkNo n 0
    let c2 := if xs.length = c.fld (SKn_CTL n) 3 0 then c1.skCause n 2 else c1
    some (c2.skAdvance n)

/-- PUSH (R336, R341). -/
def skPush (c : Chip) (n : Nat) : Chip :=
  c.skInsn n 4 fun c w => (c.skPushNow n w).getD (c.setBit (SKn_STAT n) 31 true)

/-- PULL (R336, R341). -/
def skPull (c : Chip) (n : Nat) : Chip :=
  c.skInsn n 5 fun c _ => (c.skPullNow n).getD (c.setBit (SKn_STAT n) 31 true)

/-- Whether the Skipper clock started after the feed received a word, or in the base cycle in which the pack FIFO freed
one, or later (R341). -/
def Chip.skUnstalls (c : Chip) (n w : Nat) : Bool :=
  if nfld w 15 12 = 5 then decide ((c.sk n).fedAt < c.skStart n) else decide ((c.pf n).freed / 2 ≤ c.skStart n / 2)

/-- A stalled instruction completes (R341). -/
def skStallRelease (c : Chip) (n : Nat) : Chip :=
  let w := c.skWord n
  if c.skRuns n && c.bit (SKn_STAT n) 31 && c.skUnstalls n w then
    let go := (c.skUseClock n).setBit (SKn_STAT n) 31 false
    (if nfld w 15 12 = 5 then go.skPullNow n else go.skPushNow n w).getD c
  else c

/-- MOV's OP (R334). -/
def skMovOp (op x : Nat) : Nat :=
  match op with
  | 0 => x
  | 1 => (x + 1) % 2 ^ 32
  | 2 => beNat (leBytes 4 x)
  | _ => x % 65536 * 65536 + x / 65536

/-- MOV (R334). -/
def skMov (c : Chip) (n : Nat) (levels : W32) : Chip :=
  (c.windowIn (n / 8) levels).skInsn n 6 fun c w =>
    let src : Nat := match nfld w 8 6 with
      | 0 => c.skLanes n levels 0 8
      | 1 => (c.reg (SKn_D n)).toNat
      | 2 => c.skC n 0
      | 3 => c.skC n 1
      | 4 => (c.reg (SKn_SHI n)).toNat
      | 5 => (c.reg (SKn_SHO n)).toNat
      | 6 => 0
      | _ => ((List.range 32).map fun i => b2n (c.windowLevel (n / 8) i (c.skStart n) levels) * 2 ^ i).sum
    let v := skMovOp (nfld w 5 4) src
    match nfld w 11 9 with
    | 0 => (c.skLatch n 0 (c.fld (SKn_CFG n) 15 8) v).skAdvance n
    | 1 => (c.setReg (SKn_D n) (w32 v)).skAdvance n
    | 2 => (c.setSkC n 0 v).skAdvance n
    | 3 => (c.setSkC n 1 v).skAdvance n
    | 4 => ((c.setReg (SKn_SHI n) (w32 v)).setSkNi n 0).skAdvance n
    | 5 => ((c.setReg (SKn_SHO n) (w32 v)).setSkNo n 0).skAdvance n
    | _ => if c.skInRange n (v % 256) then c.setSkPc n (v % 256) else c.skIllegal n

/-- SET (R334). -/
def skSet (c : Chip) (n : Nat) : Chip :=
  c.skInsn n 7 fun c w =>
    let v := nfld w 7 0
    let mask := c.fld (SKn_CFG n) 15 8
    (match nfld w 11 9 with
     | 0 => c.skLatch n 0 mask v
     | 1 => c.skLatch n 8 mask v
     | 2 => c.setSkC n 0 v
     | 3 => c.setSkC n 1 v
     | _ => c.setReg (SKn_D n) (w32 v)).skAdvance n

/-- IRQ (R334). -/
def skIrq (c : Chip) (n : Nat) : Chip :=
  c.skInsn n 8 fun c w =>
    let i := nfld w 7 0
    (match nfld w 11 10 with
     | 0 => c.skFlag (n / 8) (i % 8)
     | 1 => c.setBit (SCc_FLAGSET (n / 8)) (i % 8) false
     | 2 => c.skLine (n / 8 * 8 + i % 8) 7
     | _ => (c.setFld (SKn_EVCAUSE n) 15 8 i).skCause n 0).skAdvance n

/-- STAMP: the line time at which the instruction's Skipper clock began (R338). -/
def skStamp (c : Chip) (n : Nat) : Chip :=
  c.skInsn n 9 fun c w =>
    let t := c.ltNsAt (c.skStart n)
    let c1 := c.setReg64 (SKn_STAMP_LO n) t
    (match nfld w 11 10 with
     | 0 => c1
     | 1 => c1.setReg (SKn_D n) (lo32 t)
     | _ => (c1.setReg (SKn_SHI n) (lo32 t)).setSkNi n 32).skAdvance n

/-! ### Registers -/

/-- A word offered to the feed FIFO (R340). -/
def Chip.feedPush (c : Chip) (n : Nat) (v : W32) : Chip :=
  let s := c.sk n
  if s.feed.length < 8 then
    c.setSk n { s with feed := s.feed ++ [v], fedAt := if s.feed.isEmpty then c.tmu.raw else s.fedAt }
  else c.skCause n 3

/-- A write of SKn_FEED, open to every master (R340, R344). -/
def feedWrite (c : Chip) (n : Nat) (v : W32) : Chip := (c.feedPush n v).done

/-- A write of SKn_IRQSET, open to every master (R333, R344). -/
def irqsetWrite (c : Chip) (n : Nat) (v : W32) : Chip := (if wbit v 7 then c.skLine n 7 else c).done

/-- Whether a master may configure the cluster (R344). -/
def Chip.skMaster (c : Chip) (cl m : Nat) : Bool := m == 0 || m == c.fld (SCc_OWNER cl) 3 0

/-- SKn_CTL.EN set: the clock begins on the 2 ns base, and an instruction that waited or stalled is issued anew (R331,
R342). -/
def skEnable (c : Chip) (n : Nat) : Chip :=
  if c.skEn n then c
  else
    let c1 := ((c.setBit (SKn_CTL n) 31 true).setBit (SKn_STAT n) 30 false).setBit (SKn_STAT n) 31 false
    c1.setSk n { c.sk n with enAt := (c.tmu.raw + 1) / 2 * 2, clk := 0, stopClk := 0 }

/-- SKn_CTL.EN cleared: the Skipper stops at the end of its current clock (R342). -/
def skDisable (c : Chip) (n : Nat) : Chip :=
  if c.skEn n then (c.setBit (SKn_CTL n) 31 false).setSk n { c.sk n with stopClk := c.skClocks n + 1 } else c

/-- SKn_CTL.RESTART while EN = 0 (R343). -/
def skRestart (c : Chip) (n : Nat) : Chip :=
  ((c.setReg (SKn_SHI n) 0).setReg (SKn_SHO n) 0).setReg (SKn_STAT n) (w32 (at_ (c.fld (SKn_RANGE n) 7 0) 16))

/-- A write of SKn_CTL (R342, R343). -/
def skCtlWrite (c : Chip) (m n : Nat) (v : W32) : Chip :=
  if !c.skMaster (n / 8) m then c.refuse
  else if wbit v 30 ∧ c.skEn n then c.skRefused n
  else
    let c1 := if wbit v 30 then skRestart c n else c
    let c2 := c1.setFld (SKn_CTL n) 3 0 (wfld v 3 0)
    (if wbit v 31 then skEnable c2 n else skDisable c2 n).done

/-- Whether LANES words would give a window pin to two claiming lanes of the cluster (R330). -/
def Chip.claimClash (c : Chip) (n : Nat) (second : Bool) (v : W32) : Bool :=
  (List.range 4).any fun j =>
    wbit v (8 * j + 5) &&
      (((List.range 4).any fun k =>
          decide (k ≠ j) && wbit v (8 * k + 5) && wfld v (8 * k + 4) (8 * k) == wfld v (8 * j + 4) (8 * j)) ||
        (List.range 64).any fun q =>
          let n' := n / 8 * 8 + q / 8
          let l := q % 8
          !(n' == n && decide (4 ≤ l) == second) && c.laneClaim n' l &&
            c.lanePin n' l == wfld v (8 * j + 4) (8 * j))

/-- A write of SKn_LANES0 or SKn_LANES1 (R330, R343). -/
def lanesWrite (c : Chip) (m n : Nat) (second : Bool) (v : W32) : Chip :=
  if !c.skMaster (n / 8) m then c.refuse
  else if c.skEn n || c.claimClash n second v then c.skRefused n
  else c.plainWrite m (if second then SKn_LANES1 n else SKn_LANES0 n) v

/-- A write of an instruction word (R344). -/
def insnWrite (c : Chip) (m cl i : Nat) (v : W32) : Chip :=
  if !(m == 0 || m == 13) then c.refuse
  else if (List.range 8).any fun k => c.skEn (cl * 8 + k) && c.skInRange (cl * 8 + k) i then c.refuse
  else (c.setReg (SCc_INSN cl i) (w32 (wfld v 15 0))).done

/-- A write of a Skipper's register, by its offset (R331, R333, R343, R344). -/
def skRegWrite (c : Chip) (m n r : Nat) (v : W32) : Chip :=
  let a := SKn_CTL n + r
  let held (ok : Bool) : Chip := if c.skEn n || !ok then c.skRefused n else c.plainWrite m a v
  if r = 0x24 then feedWrite c n v
  else if r = 0x48 then irqsetWrite c n v
  else if !c.skMaster (n / 8) m then c.refuse
  else
    match r with
    | 0x00 => skCtlWrite c m n v
    | 0x0C =>
      let step := wfld v 7 0
      held (decide (1 ≤ step) && decide (2 * step ≤ wfld v 31 16))
    | 0x10 => held (decide (wfld v 7 0 ≤ wfld v 15 8))
    | 0x14 => held true
    | 0x18 => lanesWrite c m n false v
    | 0x1C => lanesWrite c m n true v
    | 0x20 => held true
    | 0x2C => held true
    | 0x30 => held true
    | _ => c.plainWrite m a v

/-- A write of a pack FIFO's register, by its offset (R350, R354). -/
def pfRegWrite (c : Chip) (m n r : Nat) (v : W32) : Chip :=
  let a := PFn_CFG n + r
  match r with
  | 0x00 =>
    if soRefused m a then c.refuse
    else if (c.pf n).words ≠ [] ∨ (c.pf n).asmBytes ≠ 0 then (c.setBit (PFn_FLAGS n) 1 true).done
    else c.plainWrite m a (if wfld v 1 0 = 3 then wsetFld v 1 0 2 else v)
  | 0x04 => pfCtlWrite c n v
  | 0x1C => c.plainWrite m a (if wfld v 8 0 = 0 then wsetFld v 8 0 1 else v)
  | _ => c.plainWrite m a v

/-- What an SKP register shows where it is not a stored value; DATA_HI and TAG latch at the read. -/
def skpLive (c : Chip) (a : Nat) : W32 :=
  let o := a - 0x400B0000
  if o < 0x8000 then
    let cl := o / 0x2000
    let r := o % 0x2000
    let n := cl * 8 + (r - 0x100) / 0x80
    if r = 0x0C then c.reg (SCc_FLAGSET cl)
    else if 0x100 ≤ r ∧ r < 0x500 then
      match (r - 0x100) % 0x80 with
      | 0x04 => if c.skEn n || decide (c.skClocks n < (c.sk n).stopClk) then c.reg a else wsetFld (c.reg a) 31 30 0
      | 0x28 => w32 (c.sk n).feed.length
      | _ => c.reg a
    else c.reg a
  else
    let n := (o - 0x8000) / 0x20
    let p := c.pf n
    match a % 0x20 with
    | 0x08 => w32 (at_ p.asmBytes 16 + p.words.length)
    | 0x1C => wsetFld (c.reg a) 24 16 p.credits
    | _ => c.reg a

/-- A write to an SKP register. -/
def skpWrite (c : Chip) (m a : Nat) (v : W32) : Chip :=
  let o := a - 0x400B0000
  if o < 0x8000 then
    let cl := o / 0x2000
    let r := o % 0x2000
    if 0x1000 ≤ r then insnWrite c m cl ((r - 0x1000) / 4) v
    else if 0x100 ≤ r then skRegWrite c m (cl * 8 + (r - 0x100) / 0x80) ((r - 0x100) % 0x80) v
    else if r = 0 then c.plainWrite m a v
    else if !c.skMaster cl m then c.refuse
    else if r = 8 then ((List.range 8).foldl (fun c i => if wbit v i then c.skFlag cl i else c) c).done
    else if r = 12 then (c.setReg (SCc_FLAGSET cl) (c.reg (SCc_FLAGSET cl) &&& ~~~v)).done
    else c.plainWrite m a v
  else pfRegWrite c m ((o - 0x8000) / 0x20) ((o - 0x8000) % 0x20) v

end Sys2Proof.Machine
end

