-- ==== Sys2Proof/Machine/Evt.lean ====
section
/-!
DEFINITION. The event fabric: routes and delivery (R397 to R399, R401, R402), record queues (R400), its registers
(R409, R411), and the trigger of a data mover (R381).
-/
namespace Sys2Proof.Machine

def Chip.xd (c : Chip) (n : Nat) : XdChan := tblGet .reset c.xdm.chans n

def Chip.setXd (c : Chip) (n : Nat) (x : XdChan) : Chip :=
  { c with xdm := { c.xdm with chans := tblSet .reset c.xdm.chans n x } }

/-- A flag of a data mover set, raising source 352 + n (R382). -/
def Chip.xdFlag (c : Chip) (n i : Nat) : Chip := c.flag (XDn_FLAGS n) i (352 + n)

/-- A trigger arrives at a data mover (R381). -/
def Chip.xdTrig (c : Chip) (n : Nat) : Chip :=
  let x := c.xd n
  if x.pend then c.xdFlag n 2 else c.setXd n { x with pend := true }

/-- Whether an enabled target code lies in the table of R398. -/
def targetOk (t : Nat) : Bool :=
  match t / 512 with
  | 1 => decide (t % 64 ≠ 0)
  | 2 => true
  | 3 => true
  | 4 => true
  | 5 => decide (t % 8 ≤ 4)
  | 6 => true
  | 7 => decide (1 ≤ t % 8) && decide (t % 8 ≤ 6)
  | _ => false

/-- One target of an event served (R398, R399); an INT pin follows the PEND bits. -/
def Chip.deliverTo (c : Chip) (t : Nat) : Chip :=
  match t / 512 with
  | 1 =>
    if c.fld HIF_STAT 17 16 = 0 then { c with evt := { c.evt with msix := c.evt.msix ++ [t % 64] } }
    else c.setBit (HIF_VPEND0 + t % 64 / 32 * 4) (t % 32) true
  | 3 => c.wakeLine 0 1 (t % 8)
  | 4 => c.wakeLine (1 + t / 64 % 2) (t / 8 % 8) (t % 8)
  | 5 => c.wakeLine (3 + t / 32 % 8) (t / 8 % 4) (t % 8)
  | 6 => c.xdTrig (t % 64)
  | 7 => c.skLine (t / 8 % 32) (t % 8)
  | _ => c

/-- Whether an event reaches targets A and B by its code (R397). -/
def codeTargets (code : Nat) : Bool × Bool :=
  match code with
  | 1 => (true, false)
  | 4 => (true, false)
  | 2 => (false, true)
  | 3 => (false, true)
  | 5 => (false, true)
  | _ => (true, true)

def Chip.evq (c : Chip) (k : Nat) : EvQueue := tblGet .reset c.evt.queues k

def Chip.setEvq (c : Chip) (k : Nat) (q : EvQueue) : Chip :=
  { c with evt := { c.evt with queues := tblSet .reset c.evt.queues k q } }

/-- An event stored in a record queue, or dropped where it is full (R400). -/
def Chip.record (c : Chip) (k : Nat) (e : RaisedEvent) : Chip :=
  let q := c.evq k
  if q.recs.length < 64 then
    c.setEvq k ⟨q.recs ++ [⟨e.lt, q.seq, q.lostBefore, e.code, e.src⟩], (q.seq + 1) % 65536, false⟩
  else ((c.setEvq k { q with lostBefore := true }).inc (EVT_EQk_LOST k)).setBit (EVT_EQk_FLAGS k) 0 true

/-- The oldest raised event is delivered by its route (R397 to R401). -/
def eventDelivery (c : Chip) : Chip :=
  match c.evt.raised with
  | [] => c
  | e :: rest =>
    let c2 := { c with evt := { c.evt with raised := rest } }
    let (ca, cb) := codeTargets (if 448 ≤ e.src then e.code else 0)
    let c3 := if ca && wbit e.route 31 then c2.deliverTo (wfld e.route 11 0) else c2
    let c4 := if cb && wbit e.route 30 then c3.deliverTo (wfld e.route 25 14) else c3
    if wbit e.route 29 then c4.record (wfld e.route 28 26) e else c4

/-- Whether INTk_N is driven low (R399). -/
def Chip.intLow (c : Chip) (k : Nat) : Bool :=
  (List.range 512).any fun n =>
    c.bit (EVT_PEND (n / 32)) (n % 32) &&
      (let r := c.reg (EVT_ROUTE n)
       let names (t : Nat) : Bool := t / 512 == 2 && t % 4 == k
       (wbit r 31 && names (wfld r 11 0)) || (wbit r 30 && names (wfld r 25 14)))

/-- A write of EVT_EQk_POP (R400). -/
def eventPop (c : Chip) (m k : Nat) (v : W32) : Chip :=
  if m = 0 ∨ m = c.fld (EVT_EQk_OWNER k) 3 0 then
    (if wbit v 0 then c.setEvq k { c.evq k with recs := (c.evq k).recs.tail } else c).done
  else c.refuse

/-- A write of EVT_RAISE (R402). -/
def eventRaise (c : Chip) (m : Nat) (v : W32) : Chip :=
  if m = 0 then (c.raise (wfld v 8 0) 0).done else c.refuse

/-- A write of a route (R398, R401). -/
def routeWrite (c : Chip) (m n : Nat) (v : W32) : Chip :=
  if m ≠ 0 ∨ (wbit v 31 ∧ targetOk (wfld v 11 0) = false) ∨ (wbit v 30 ∧ targetOk (wfld v 25 14) = false) then c.refuse
  else c.plainWrite m (EVT_ROUTE n) v

/-- The words of a queue record (R400). -/
def EvRecord.words (e : EvRecord) : List W32 :=
  [ lo32 (e.lt / 65536), hi32 (e.lt / 65536), w32 (at_ e.seq 16 + e.lt % 65536),
    w32 (at_ (b2n e.lostBefore) 31 + at_ e.code 16 + e.src) ]

/-- What an event-fabric register shows where it is not a stored value. -/
def evtLive (c : Chip) (a : Nat) : W32 :=
  let o := a - 0x400F8000
  if o = 0x10 then w32 ((List.range 4).map fun k => b2n (c.intLow k) * 2 ^ k).sum
  else if 0x400 ≤ o ∧ o < 0x600 then
    let q := c.evq ((o - 0x400) / 0x40)
    let r := o % 0x40
    if r = 0 then w32 q.recs.length
    else if 0x20 ≤ r ∧ r < 0x30 then
      match q.recs with
      | [] => 0
      | e :: _ => e.words.getD ((r - 0x20) / 4) 0
    else c.reg a
  else c.reg a

/-- A write to an event-fabric register. -/
def evtWrite (c : Chip) (m a : Nat) (v : W32) : Chip :=
  let o := a - 0x400F8000
  if o = 4 then eventRaise c m v
  else if 0x400 ≤ o ∧ o < 0x600 ∧ o % 0x40 = 4 then eventPop c m ((o - 0x400) / 0x40) v
  else if 0x1000 ≤ o ∧ o < 0x1800 then routeWrite c m ((o - 0x1000) / 4) v
  else c.plainWrite m a v

end Sys2Proof.Machine
end

