-- ==== Sys2Proof/Machine/Tmu.lean ====
section
/-!
DEFINITION. TMU: the domains' arithmetic and states (R44 to R51), line time and domain switches
(R52 to R57), stamps (R59 to R67), timed outputs (R68 to R70, R534) and TMU's registers (R72, R73).
-/
namespace Sys2Proof.Machine

/-- The tracked domains A and B. -/
inductive Dom where
  | a | b
  deriving DecidableEq, Repr

/-- The domain's number in the register map (R72). -/
def Dom.idx : Dom → Nat
  | .a => 0 | .b => 1

/-- The other domain. -/
def Dom.other : Dom → Dom
  | .a => .b | .b => .a

/-- A tracked domain. -/
def Chip.dom (c : Chip) : Dom → Domain
  | .a => c.tmu.domA | .b => c.tmu.domB

/-- A tracked domain replaced. -/
def Chip.setDom (c : Chip) (x : Dom) (d : Domain) : Chip :=
  match x with
  | .a => { c with tmu := { c.tmu with domA := d } }
  | .b => { c with tmu := { c.tmu with domB := d } }

/-- The domain that TMU_DOMSEL.ACTIVE names. -/
def Chip.active (c : Chip) : Dom := if c.tmu.activeB then .b else .a

/-- Two to the 48th: one tick of 1 ns in domain units. -/
def tick48 : Int := 281474976710656

/-- σ of R44, from TMU_SLEW. -/
def Chip.sigma (c : Chip) : Int := roundDiv ((c.reg TMU_SLEW).toNat * tick48) 1000000

/-- ρ of R44. -/
def Chip.rho (c : Chip) : Int := roundDiv c.sigma 1000000

/-- A flag of TMU_Dx_FLAGS set, raising source 84 (R71). -/
def Chip.domFlag (c : Chip) (x : Dom) (i : Nat) : Chip := c.flag (TMU_Dx_FLAGS x.idx) i 84

/-- A domain's state changed, raising source 80 or 81 (R71). -/
def Chip.domState (c : Chip) (x : Dom) (d : Domain) : Chip := (c.setDom x d).raise (80 + x.idx) 0

/-! ### The tick -/

/-- One tick of a domain, R44 and R46: `raw` is the raw counter after the tick. -/
def Domain.tick (d : Domain) (sigma rho : Int) (raw : Nat) : Domain :=
  match d.st with
  | .idle => { d with d := raw * tick48, r := 0, t := 0, p := 0, step := none, adjTick := 0 }
  | _ =>
    let r' := d.r + clamp (d.t - d.r) (-rho) rho
    let timers := { d with
      syncNs := d.syncNs + 1
      holdNs := if d.st = DomSt.holdover then d.holdNs + 1 else d.holdNs
      r := r', adjTick := 0, step := none }
    match d.step with
    | some s => { timers with d := d.d + tick48 + d.r + s * 2 ^ 32, p := d.adjTick, stepped := true }
    | none =>
      let a := clamp d.p (-sigma) sigma
      { timers with d := d.d + tick48 + d.r + a, p := d.p - a }

/-- Whether a timed output still has an edge to place (R57, R69). -/
def ToChan.armed (t : ToChan) : Bool := t.sched.isSome || t.pulse.isSome

/-- A timed output channel. -/
def Chip.to (c : Chip) (n : Nat) : ToChan := tblGet .reset c.tmu.tos n

/-- A timed output channel replaced. -/
def Chip.setTo (c : Chip) (n : Nat) (t : ToChan) : Chip :=
  { c with tmu := { c.tmu with tos := tblSet .reset c.tmu.tos n t } }

/-- Whether a step of the active domain reaches line time directly (R57). -/
def Chip.lineSteps (c : Chip) : Bool :=
  c.bit TMU_CTL 8 && (c.sysState == 3 || c.sysState == 4) &&
  c.tmu.tos.all (fun e => !e.2.armed) && c.ang.shafts.all (fun e => e.2.st == .idle)

/-- H as it is held: signed, 64 bits in 2^-16 ns and the 32 bits of 2^-48 ns below them (R52, R74). A term beyond
that range wraps (DESIGN CHOICE, log entry 23). -/
def hTerm (h : Int) : Int := sext 96 (wrap 96 h)

/-- Line time from the selected domain and H (R52). -/
def ltOf (d h : Int) : Nat := wrap 80 ((d + h) / 2 ^ 32)

/-- One 1 ns tick (R43, R44, R52, R55, R57). -/
def tmuTick (c : Chip) : Chip :=
  let raw := (c.tmu.raw + 1) % 2 ^ 64
  let da := c.tmu.domA.tick c.sigma c.rho raw
  let db := c.tmu.domB.tick c.sigma c.rho raw
  let h1 := c.tmu.h - clamp c.tmu.h (-c.sigma) c.sigma
  let h2 := match (c.dom c.active).step with
    | some s => if c.lineSteps then h1 else hTerm (h1 - s * 2 ^ 32)
    | none => h1
  let sel := if c.tmu.activeB then db else da
  let doneNow := c.tmu.handover && h2 == 0
  let c1 := { c with tmu := { c.tmu with
    raw := raw, domA := da, domB := db, h := h2, lt := ltOf sel.d h2
    handover := c.tmu.handover && !doneNow } }
  if doneNow then c1.flag TMU_EVSTAT 2 83 else c1

/-! ### Domain commands and writes -/

/-- Whether a master may write the domain registers (R51): SUP or the time master. -/
def Chip.timeMaster (c : Chip) (m : Nat) : Bool := m == 0 || m == c.fld TMU_CTL 3 0

/-- CMD ENABLE (R47, R53). -/
def domEnable (c : Chip) (x : Dom) : Chip :=
  let d := c.dom x
  if d.st = .idle ∨ d.st = .failed then
    let c1 := (c.domState x { d with
      st := .acquire, d := (c.lt : Int) * 2 ^ 32, p := 0, r := 0, t := 0
      step := none, adjTick := 0, stepped := false }).stage (TMU_Dx_RATE_HI x.idx) 0
    if c.active = x then
      let c2 := { c1 with tmu := { c1.tmu with h := 0, handover := false } }
      if c.tmu.h ≠ 0 then c2.flag TMU_EVSTAT 2 83 else c2
    else c1
  else c.domFlag x 0

/-- CMD LOCK (R47). -/
def domLock (c : Chip) (x : Dom) : Chip :=
  if (c.dom x).st = .acquire then c.domState x { c.dom x with st := .locked, syncNs := 0 }
  else c.domFlag x 0

/-- CMD SYNC (R47, R48). -/
def domSync (c : Chip) (x : Dom) : Chip :=
  match (c.dom x).st with
  | .locked => c.setDom x { c.dom x with syncNs := 0 }
  | .holdover => c.domState x { c.dom x with st := .locked, syncNs := 0 }
  | _ => c.domFlag x 0

/-- CMD FAIL (R47). -/
def domFail (c : Chip) (x : Dom) : Chip :=
  match (c.dom x).st with
  | .acquire | .locked | .holdover => c.domState x { c.dom x with st := .failed }
  | _ => c.domFlag x 0

/-- CMD DISABLE (R47, R49): refused for the selected domain. -/
def domDisable (c : Chip) (x : Dom) : Chip :=
  if (c.dom x).st ≠ .idle ∧ c.active ≠ x then
    (c.domState x { c.dom x with
      st := .idle, d := (c.tmu.raw : Int) * tick48, p := 0, r := 0, t := 0
      step := none, adjTick := 0 }).stage (TMU_Dx_RATE_HI x.idx) 0
  else c.domFlag x 0

/-- The number of bits set in the low `n` bits of a word. -/
def bitCount (w : W32) (n : Nat) : Nat := ((List.range n).filter fun i => wbit w i).length

/-- A write of TMU_Dx_CMD (R47, R50, R51). -/
def domCmdWrite (c : Chip) (m : Nat) (x : Dom) (v : W32) : Chip :=
  if !c.timeMaster m then c.refuse
  else if bitCount v 5 > 1 then (c.domFlag x 0).done
  else if wbit v 0 then (domEnable c x).done
  else if wbit v 1 then (domLock c x).done
  else if wbit v 2 then (domSync c x).done
  else if wbit v 3 then (domFail c x).done
  else if wbit v 4 then (domDisable c x).done
  else c.done

/-- The limit of a target rate (R45). -/
def rateLimit : Int := 281474976711

/-- A commit of TMU_Dx_RATE (R45, R49, R51). -/
def domRateWrite (c : Chip) (m : Nat) (x : Dom) (lo : W32) : Chip :=
  let d := c.dom x
  if !c.timeMaster m then c.refuse
  else if d.st = .idle ∨ d.st = .failed then (c.domFlag x 0).done
  else
    let v := sext 64 (join64 (c.stagedPart (TMU_Dx_RATE_HI x.idx)) lo)
    let t := clamp v (-rateLimit) rateLimit
    let c1 := (c.setDom x { d with t := t }).stage (TMU_Dx_RATE_HI x.idx) (hi32 (wrap 64 t))
    if t = v then c1.done else (c1.domFlag x 2).done

/-- A commit of TMU_Dx_ADJ (R45, R49, R51). -/
def domAdjWrite (c : Chip) (m : Nat) (x : Dom) (lo : W32) : Chip :=
  let d := c.dom x
  if !c.timeMaster m then c.refuse
  else if d.st = .idle ∨ d.st = .failed then (c.domFlag x 0).done
  else
    let v := sext 64 (join64 (c.stagedPart (TMU_Dx_ADJ_HI x.idx)) lo) * 2 ^ 32
    let lim : Int := (2 ^ 63 - 1) * 2 ^ 32
    let p := clamp (d.p + v) (-(2 ^ 63) * 2 ^ 32) lim
    let c1 := c.setDom x { d with p := p, adjTick := clamp (d.adjTick + v) (-(2 ^ 63) * 2 ^ 32) lim }
    if p = d.p + v then c1.done else (c1.domFlag x 3).done

/-- A commit of TMU_Dx_STEP (R46, R51): accepted once an acquisition, in ACQUIRE. -/
def domStepWrite (c : Chip) (m : Nat) (x : Dom) (lo : W32) : Chip :=
  let d := c.dom x
  if !c.timeMaster m then c.refuse
  else if d.st = .acquire ∧ d.stepped = false ∧ d.step = none then
    (c.setDom x { d with
      step := some (sext 64 (join64 (c.stagedPart (TMU_Dx_STEP_HI x.idx)) lo)) }).done
  else (c.domFlag x 1).done

/-- The sync timer's limit in ns (R47). -/
def Chip.syncLimit (c : Chip) (x : Dom) : Nat := (c.reg (TMU_Dx_SYNCTO x.idx)).toNat * 1000

/-- The sync timer has reached TMU_Dx_SYNCTO (R47). In the tick in which it reaches it a SYNC is still an arrival (R38,
R48), so HOLDOVER is entered when that tick is over, and its time counts from the tick (DESIGN CHOICE, log entry 22). -/
def syncTimeout (c : Chip) (x : Dom) : Chip :=
  let d := c.dom x
  if d.st = .locked ∧ c.syncLimit x < d.syncNs then
    c.domState x { d with st := .holdover, holdNs := d.syncNs - c.syncLimit x }
  else c

/-- TMU_Dx_HOLDTIME exceeds TMU_Dx_FAILLIM (R47). -/
def holdoverFail (c : Chip) (x : Dom) : Chip :=
  let d := c.dom x
  if d.st = .holdover ∧ (c.reg (TMU_Dx_FAILLIM x.idx)).toNat * 1000 < d.holdNs then
    c.domState x { d with st := .failed }
  else c

/-- A domain switch (R53, R55). -/
def domSwitch (c : Chip) : Chip :=
  let old := c.dom c.active
  let new := c.dom c.active.other
  let c1 := { c with tmu := { c.tmu with
    h := hTerm (c.tmu.h + old.d - new.d), activeB := !c.tmu.activeB, handover := true } }
  c1.flag TMU_EVSTAT 1 82

/-- A write of TMU_DOMSEL (R51, R55). One that names the active domain switches nothing but stores AUTO and SEL; a
refused one stores neither (DESIGN CHOICE, log entry 24). -/
def domselWrite (c : Chip) (m : Nat) (v : W32) : Chip :=
  if !c.timeMaster m then c.refuse
  else
    let same := wbit v 0 == c.tmu.activeB
    let stored := c.setFld TMU_DOMSEL 1 0 (wfld v 1 0)
    if same then stored.done
    else if (c.dom c.active.other).st = .locked then (domSwitch stored).done
    else (c.setBit TMU_EVSTAT 0 true).done

/-- The automatic switch (R55, R56). -/
def autoSwitch (c : Chip) : Chip :=
  let d := c.dom c.active
  if c.bit TMU_DOMSEL 1 ∧ (c.dom c.active.other).st = .locked ∧
      (d.st = .failed ∨ (d.st = .holdover ∧ (c.reg TMU_HOLDLIM).toNat * 1000 < d.holdNs)) then
    domSwitch c
  else c

/-! ### Stamps -/

/-- A port's latency correction in 2^-16 ns (R59): received instants lie before the capture,
transmitted ones after it. -/
def Chip.latency (c : Chip) (port : Nat) (rx : Bool) : Int :=
  if rx then -(sext 32 (c.reg (TMU_Pn_LATRX port)).toNat * 256)
  else sext 32 (c.reg (TMU_Pn_LATTX port)).toNat * 256

/-- The stamp of an instant in the present tick at a port (R43, R59, R60), `phase` quarters of a tick after its start:
the capture corrected and quantised to 250 ps. -/
def Chip.stampNow (c : Chip) (port : Nat) (rx : Bool) (phase tag : Nat) : Stamp :=
  let t := ((c.lt + phase * 16384 : Nat) : Int) + c.latency port rx
  let q := roundDiv t 16384 * 16384
  let shift := q - (c.lt : Int)
  ⟨wrap 80 q, wrap 80 (c.tmu.domA.d / 2 ^ 32 + shift), wrap 80 (c.tmu.domB.d / 2 ^ 32 + shift),
    tag % 65536⟩

/-- The eight words of a stamp record (R60). -/
def Stamp.words (s : Stamp) : List W32 :=
  let ns (x : Nat) := x / 65536
  [ lo32 (ns s.lt), hi32 (ns s.lt), lo32 (ns s.da), hi32 (ns s.da), lo32 (ns s.db), hi32 (ns s.db),
    w32 (at_ (s.da % 65536) 16 + s.lt % 65536), w32 (at_ s.tag 16 + s.db % 65536) ]

/-- A port's egress stamp queue. -/
def Chip.eq (c : Chip) (port : Nat) : List Stamp := tblGet [] c.tmu.egress port

def Chip.setEq (c : Chip) (port : Nat) (q : List Stamp) : Chip :=
  { c with tmu := { c.tmu with egress := tblSet [] c.tmu.egress port q } }

/-- A stamp record written to the port's egress queue, or lost when the queue is full (R61, R62). -/
def Chip.pushStamp (c : Chip) (port : Nat) (s : Stamp) : Chip :=
  if (c.eq port).length < 64 then (c.setEq port (c.eq port ++ [s])).raise (88 + port) 0
  else ((c.inc (TMU_Pn_STAMPLOST port)).setBit (TMU_Pn_EQFLAGS port) 0 true).raise 85 0

/-- A write of TMU_Pn_EQPOP (R61). -/
def egressPop (c : Chip) (port : Nat) (v : W32) : Chip :=
  if wbit v 0 then (c.setEq port (c.eq port).tail).done else c.done

/-- A waiting stamp put in order of instant, then channel (R66). -/
def insertStamp : List WaitingStamp → WaitingStamp → List WaitingStamp
  | [], s => [s]
  | x :: xs, s =>
    if s.at4 < x.at4 ∨ (s.at4 = x.at4 ∧ s.ch < x.ch) then s :: x :: xs else x :: insertStamp xs s

/-- An edge at a channel's pin at an instant, in quarter-ticks of the raw counter and in line time, after which the
level stays for `stableNs` (R64, R65). -/
def Chip.stampAt (c : Chip) (ch : Nat) (rising : Bool) (at4 lt stableNs : Nat) : Chip :=
  let cfg := c.reg (TMU_TSn_CFG ch)
  let sel := wfld cfg 11 10
  let chosen := if rising then sel % 2 == 1 else sel / 2 == 1
  if chosen && decide (wfld cfg 15 12 * 4 ≤ stableNs) then
    let close := match tblGet [] c.tmu.tsEdges ch with
      | l :: _ => decide (at4 < l + 64)
      | [] => false
    if close then c.setBit (TMU_TSn_CFG ch) 31 true
    else { c with tmu := { c.tmu with
      tsEdges := tblSet [] c.tmu.tsEdges ch (noteEdge at4 (tblGet [] c.tmu.tsEdges ch))
      waiting := insertStamp c.tmu.waiting ⟨at4, lt, rising, ch⟩ } }
  else c

/-- The stamp channels that watch a GPIO (R64). -/
def Chip.watchers (c : Chip) (g : Nat) : List Nat := (List.range 48).filter fun ch => c.fld (TMU_TSn_CFG ch) 6 0 == g

/-- An edge on a GPIO met by every channel that watches it (R64). -/
def Chip.stampPin (c : Chip) (g : Nat) (rising : Bool) (at4 lt stableNs : Nat) : Chip :=
  (c.watchers g).foldl (fun c ch => c.stampAt ch rising at4 lt stableNs) c

/-- An edge that the board puts on GPIO `g`, `quarter` quarter-ticks into the present tick, after which the level
stays for `stableNs` (R64, R65). -/
def stampEdge (c : Chip) (g : Nat) (rising : Bool) (quarter stableNs : Nat) : Chip :=
  ({ c with pin := c.pin.level g rising } : Chip).stampPin g rising (c.tmu.raw * 4 + quarter) (c.lt / 16384 * 16384 + quarter * 16384) stableNs

/-- A stamp enters the ring 80 ns after its instant, or is dropped at a full ring (R66, R67). -/
def ringEntry (c : Chip) : Chip :=
  match c.tmu.waiting with
  | [] => c
  | s :: rest =>
    if s.at4 / 4 + 80 ≤ c.tmu.raw then
      let c1 := { c with tmu := { c.tmu with waiting := rest } }
      if c.tmu.ring.length < 1024 then
        let c2 := { c1 with tmu := { c1.tmu with
          ring := c1.tmu.ring ++ [⟨s.lt, c1.tmu.ringSeq, c1.tmu.ringLost, s.rising, s.ch⟩]
          ringSeq := (c1.tmu.ringSeq + 1) % 65536, ringLost := false } }
        if c.bit (TMU_TSn_CFG s.ch) 9 then c2.raise (32 + s.ch) 0 else c2
      else
        let c2 := { c1 with tmu := { c1.tmu with ringLost := true } }
        ((c2.inc TMU_TSR_LOST).setBit TMU_TSR_FLAGS 0 true).raise 86 0
    else c

/-- A write of TMU_TSR_POP (R67). -/
def ringPop (c : Chip) (v : W32) : Chip :=
  if wbit v 0 then { c with tmu := { c.tmu with ring := c.tmu.ring.tail } }.done else c.done

/-- The four words of a ring entry (R66). -/
def RingEntry.words (e : RingEntry) : List W32 :=
  [ lo32 (e.lt / 65536), hi32 (e.lt / 65536), w32 (at_ e.seq 16 + e.lt % 65536),
    w32 (at_ (b2n e.lostBefore) 31 + at_ (b2n e.rising) 30 + e.ch) ]

/-! ### Timed outputs -/

/-- Line time in quarter-ns. -/
def Chip.lt4 (c : Chip) : Nat := c.lt / 16384

/-- The committed TMU_TOn_TIME in quarter-ns (R69). -/
def Chip.toTime (c : Chip) (n : Nat) : Nat :=
  c.reg64 (TMU_TOn_TIME_LO n) * 4 + c.fld (TMU_TOn_TIME_FRAC n) 15 14

/-- The limits of WIDTH and PERIOD by MODE (R68, R534). -/
def toLimitsOk (mode width period : Nat) : Bool :=
  match mode with
  | 0 => true
  | 1 => decide (16 ≤ width)
  | 2 => decide (16 ≤ width) && decide (width < period) && decide (64 ≤ period)
  | _ => false

/-- LATE set, raising source 87 (R70). -/
def Chip.toLate (c : Chip) (n : Nat) : Chip := c.flag (TMU_TOn_STAT n) 2 87

/-- ARM of a timed output at a time in quarter-ns (R69, R534). -/
def toArm (c : Chip) (n t4 : Nat) (level : Bool) : Chip :=
  let mode := c.fld (TMU_TOn_CFG n) 14 13
  let width := (c.reg (TMU_TOn_WIDTH n)).toNat
  let period := (c.reg (TMU_TOn_PERIOD n)).toNat
  if !toLimitsOk mode width period then c.toLate n
  else
    let t := c.to n
    let (first, late) :=
      match t.pulse with
      | some i => if i < t4 then (t4, false) else (i + 1, true)
      | none => if t4 + 8 < c.lt4 then (c.lt4 + 1, true) else (t4, false)
    let c1 := c.setTo n { t with sched := some ⟨mode, first, width, period, level⟩ }
    if late then c1.toLate n else c1

/-- CANCEL of a timed output: a pulse in progress still finishes (R69). -/
def toCancel (c : Chip) (n : Nat) : Chip := c.setTo n { c.to n with sched := none }

/-- A write of TMU_TOn_CTL (R69, R70): CANCEL, then ARM. -/
def toCtlWrite (c : Chip) (n : Nat) (v : W32) : Chip :=
  if c.bit (TMU_TOn_CFG n) 8 then c.refuse
  else
    let c1 := if wbit v 2 then toCancel c n else c
    (if wbit v 0 then toArm c1 n (c1.toTime n) (wbit v 1) else c1).done

/-- The level a timed output drives (R68). -/
def Chip.toLevel (c : Chip) (n : Nat) : Bool :=
  let idle := c.bit (TMU_TOn_CFG n) 12
  match (c.to n).pulse with
  | some _ => !idle
  | none => ((c.to n).held).getD idle

/-- Whether a higher-numbered enabled channel names the channel's pin (R70). -/
def Chip.toShadowed (c : Chip) (n : Nat) : Bool :=
  (List.range 32).any fun k =>
    decide (n < k) && c.bit (TMU_TOn_CFG k) 15 && c.fld (TMU_TOn_CFG k) 6 0 == c.fld (TMU_TOn_CFG n) 6 0

/-- Whether the channel is the one that drives its pin: enabled, and no higher-numbered enabled
channel names the pin (R70). -/
def Chip.toDrives (c : Chip) (n : Nat) : Bool := c.bit (TMU_TOn_CFG n) 15 && !c.toShadowed n

/-- Whether the channel's level is on its ball: it drives the pin, FUNC names it, and an open-drain driver has no
high level (R64, R70, R502, R528). -/
def Chip.toOnBall (c : Chip) (n : Nat) : Bool :=
  let w := c.reg (SYS_PIN (c.fld (TMU_TOn_CFG n) 6 0))
  c.toDrives n && wfld w 3 0 == 1 && (!wbit w 13 || wfld w 5 4 == 2)

/-- For how many ns a channel's level stays after an edge at a quarter-ns, as far as it is scheduled (R64). -/
def ToChan.stays (t : ToChan) (due4 : Nat) : Nat :=
  match t.pulse, t.sched with
  | some i, _ => (i - due4) / 4
  | none, some s => (s.next - due4) / 4
  | none, none => 60

/-- An edge placed that was due at a quarter-ns of line time: the channel's new state, the edge noted for those that
wait for it (R337), and stamped where a stamp channel watches the ball (R64). An enabled channel whose pin another one
drives places no edge (R70). A channel with ENABLE = 0 runs its schedule without driving (DESIGN CHOICE, log entry
25). -/
def Chip.placeEdge (c : Chip) (n : Nat) (t : ToChan) (due4 : Nat) : Chip :=
  let c1 := c.setTo n t
  if c.bit (TMU_TOn_CFG n) 15 && c.toShadowed n then c1
  else
    let at4 := c.tmu.raw * 4 - min 3 (c.lt4 - due4)
    let c2 := { c1 with tmu := { c1.tmu with
      toEdges := tblSet [] c1.tmu.toEdges n (noteEdge at4 (tblGet [] c1.tmu.toEdges n)) } }
    if c.toOnBall n && c1.toLevel n != c.toLevel n then
      c2.stampPin (c.fld (TMU_TOn_CFG n) 6 0) (c1.toLevel n) at4 (due4 * 16384) (t.stays due4)
    else c2

/-- An edge that is due is placed (R68, R69). -/
def toEdge (c : Chip) (n : Nat) : Chip :=
  let t := c.to n
  match t.pulse with
  | some i =>
    if i ≤ c.lt4 then c.placeEdge n { t with pulse := none, held := none } i else c
  | none =>
    match t.sched with
    | none => c
    | some s =>
      if s.next ≤ c.lt4 then
        match s.mode with
        | 0 => c.placeEdge n { t with sched := none, held := some s.level } s.next
        | 1 => c.placeEdge n { sched := none, pulse := some (s.next + s.width), held := none } s.next
        | _ => c.placeEdge n { sched := some { s with next := s.next + s.period },
                               pulse := some (s.next + s.width), held := none } s.next
      else c

/-! ### Registers -/

/-- The domain of an offset in the TMU window. -/
def domOf (o : Nat) : Dom := if o < 0x180 then .a else .b

/-- What a TMU register shows where it is not a stored value (R43, R52, R61, R67, R73). -/
def tmuLive (c : Chip) (a : Nat) : W32 :=
  let o := a - 0x40020000
  let s := c.reg a
  if o < 0x100 then
    match o with
    | 0x08 => lo32 c.tmu.raw
    | 0x0C => hi32 c.tmu.raw
    | 0x10 => lo32 c.ltNs
    | 0x14 => hi32 c.ltNs
    | 0x18 => w32 (c.lt % 65536)
    | 0x1C => lo32 (wrap 64 (c.tmu.h / 2 ^ 32))
    | 0x20 => hi32 (wrap 64 (c.tmu.h / 2 ^ 32))
    | 0x24 => wsetBit (wsetBit s 8 (c.tmu.h != 0)) 4 c.tmu.activeB
    | _ => s
  else if o < 0x200 then
    let d := c.dom (domOf o)
    let t := wrap 80 (d.d / 2 ^ 32)
    match a % 0x80 with
    | 0x00 => w32 (at_ (b2n (d.p != 0)) 9 + at_ (b2n d.stepped) 8 + d.st.code)
    | 0x08 => lo32 (t / 65536)
    | 0x0C => hi32 (t / 65536)
    | 0x10 => w32 (t % 65536)
    | 0x14 => lo32 (wrap 64 d.t)
    | 0x18 => hi32 (wrap 64 d.t)
    | 0x1C => lo32 (wrap 64 d.r)
    | 0x20 => hi32 (wrap 64 d.r)
    | 0x2C => lo32 (wrap 64 (d.p / 2 ^ 32))
    | 0x30 => hi32 (wrap 64 (d.p / 2 ^ 32))
    | 0x44 => w32 (satTo 0xFFFFFFFF (d.holdNs / 1000))
    | _ => s
  else if 0x400 ≤ o ∧ o < 0x600 then
    let port := (o - 0x400) / 0x40
    let r := (o - 0x400) % 0x40
    if r = 0x0C then w32 (c.eq port).length
    else if 0x20 ≤ r then
      match c.eq port with
      | [] => 0
      | e :: _ => e.words.getD ((r - 0x20) / 4) 0
    else s
  else if o = 0x900 then w32 c.tmu.ring.length
  else if 0x910 ≤ o ∧ o < 0x920 then
    match c.tmu.ring with
    | [] => 0
    | e :: _ => e.words.getD ((o - 0x910) / 4) 0
  else if 0x1000 ≤ o ∧ o < 0x1400 ∧ (o - 0x1000) % 0x20 = 8 then
    let n := (o - 0x1000) / 0x20
    wsetBit (wsetBit s 1 (c.to n).armed) 0 (c.toDrives n && c.toLevel n)
  else s

/-- A limit as it is stored: at least 1 (R74); a 0 is stored as 1, as TMU_SLEW's is (DESIGN CHOICE, log entry 23). -/
def atLeast1 (v : W32) : W32 := if v = 0 then 1 else v

/-- A write to a TMU register (R15, R51, R70, R73, R74). -/
def tmuWrite (c : Chip) (m a : Nat) (v : W32) : Chip :=
  let o := a - 0x40020000
  if o = 0x24 then domselWrite c m v
  else if o = 0x28 then c.plainWrite m a (if v = 0 then 1 else if v.toNat > 1000 then 1000 else v)
  else if o = 0x2C then c.plainWrite m a (atLeast1 v)
  else if 0x100 ≤ o ∧ o < 0x200 then
    let x := domOf o
    match a % 0x80 with
    | 0x04 => domCmdWrite c m x v
    | 0x14 => domRateWrite c m x v
    | 0x24 => domAdjWrite c m x v
    | 0x34 => domStepWrite c m x v
    | 0x18 => if c.timeMaster m then (c.stage a v).done else c.refuse
    | 0x28 => if c.timeMaster m then (c.stage a v).done else c.refuse
    | 0x38 => if c.timeMaster m then (c.stage a v).done else c.refuse
    | 0x3C => if c.timeMaster m then c.plainWrite m a (atLeast1 v) else c.refuse
    | 0x40 => if c.timeMaster m then c.plainWrite m a (atLeast1 v) else c.refuse
    | _ => c.plainWrite m a v
  else if 0x400 ≤ o ∧ o < 0x600 ∧ (o - 0x400) % 0x40 = 0x10 then egressPop c ((o - 0x400) / 0x40) v
  else if o = 0x904 then ringPop c v
  else if 0x1000 ≤ o ∧ o < 0x1400 then
    let n := (o - 0x1000) / 0x20
    match a % 0x20 with
    | 0x04 => toCtlWrite c n v
    | 0x0C => if c.bit (TMU_TOn_CFG n) 8 then c.refuse else c.plainWrite m a v
    | 0x10 => if c.bit (TMU_TOn_CFG n) 8 then c.refuse else c.plainWrite m a v
    | 0x14 => if c.bit (TMU_TOn_CFG n) 8 then c.refuse else c.plainWrite m a v
    | _ => c.plainWrite m a v
  else c.plainWrite m a v

end Sys2Proof.Machine
end

