-- ==== Sys2Proof/Machine/Ang.lean ====
section
/-!
DEFINITION. ANG: extrapolation and blending (R75 to R78), admission of samples (R79, R80), shaft
states (R81, R82), the master source (R83, R84), stamp-to-angle (R86), the evaluation of angle
events (R87 to R90, R92, R93) and ANG's registers (R101, R102). What a firing does outside
ANG is in AngFire.lean; the echo of R98 is here too.
-/
namespace Sys2Proof.Machine

/-- A line shaft. -/
def Chip.shaft (c : Chip) (n : Nat) : Shaft := tblGet .reset c.ang.shafts n

/-- A line shaft replaced. -/
def Chip.setShaft (c : Chip) (n : Nat) (s : Shaft) : Chip :=
  { c with ang := { c.ang with shafts := tblSet .reset c.ang.shafts n s } }

/-- A shaft flag set, raising source 96 + n (R100). -/
def Chip.shFlag (c : Chip) (n i : Nat) : Chip := c.flag (ANG_SHn_FLAGS n) i (96 + n)

/-- The line time of an update instant, in 2^-16 ns (R75). -/
def instant (u : Nat) : Nat := u * 65536000

/-- A difference of angles read as a signed number (R17). -/
def angDiff (a b : Int) : Int := sext 64 (wrap 64 (a - b))

/-- θ_s of R75 at a line time, rounded to the nearest grain. -/
def Seg.theta (s : Seg) (t : Nat) : Nat :=
  let x : Int := (t : Int) - s.tv
  wrap 64 (roundDiv (sext 64 s.th * 2 ^ 81 + s.v * x * 2 ^ 41 + s.a * x * x) (2 ^ 81))

/-- v_s of R75 at a line time. -/
def Seg.vel (s : Seg) (t : Nat) : Int :=
  let x : Int := (t : Int) - s.tv
  roundDiv (s.v * 2 ^ 40 + s.a * x) (2 ^ 40)

/-- θ_s of the shaft's present segment; 0 without one. -/
def Shaft.thetaS (s : Shaft) (t : Nat) : Nat :=
  match s.segs with
  | [] => 0
  | g :: _ => g.theta t

/-- v_s of the shaft's present segment; 0 without one. -/
def Shaft.velS (s : Shaft) (t : Nat) : Int :=
  match s.segs with
  | [] => 0
  | g :: _ => g.vel t

/-- A new segment at the head of the history of 64 (R75). -/
def Shaft.newSeg (s : Shaft) (u tv th : Nat) (v a e : Int) : Shaft :=
  { s with segs := (⟨instant u, tv, th, v, a, [(u, e)]⟩ :: s.segs).take 64, e := e }

/-- The residual of interval `u` noted in the present segment (R86). -/
def Shaft.setE (s : Shaft) (u : Nat) (e : Int) : Shaft :=
  if e = s.e then s
  else { s with e := e, segs := match s.segs with
    | [] => []
    | g :: gs => { g with es := (u, e) :: g.es } :: gs }

/-- The angle and velocity shown at an update instant (R76, R81). -/
def Shaft.show (s : Shaft) (u : Nat) : Shaft :=
  { s with ang := wrap 64 ((s.thetaS (instant u) : Int) + s.e), vel := s.velS (instant u) }

/-- The settings a shaft's update uses. -/
structure ShaftCfg where
  b : Int
  elim : Nat
  autoResume : Bool
  refto : Nat
  coastlim : Nat

/-- A shaft's settings from its registers. -/
def Chip.shaftCfg (c : Chip) (n : Nat) : ShaftCfg where
  b := (c.reg (ANG_SHn_BSLEW n)).toNat
  elim := (c.reg (ANG_SHn_ELIM n)).toNat
  autoResume := c.bit (ANG_SHn_CFG n) 31
  refto := (c.reg (ANG_SHn_REFTO n)).toNat
  coastlim := (c.reg (ANG_SHn_COASTLIM n)).toNat

/-- What a shaft's update did: flags to set, whether it changed state, and whether its events
take their sides afresh (R87). -/
structure ShaftNote where
  flags : List Nat
  changed : Bool
  retake : Bool

/-- Steps 1 and 2 of R76 with the activations of R81: a due sample activates, or the residual is
paid out. A sample that is due while the shaft is LOST with AUTORESUME = 0 is not activated and stays pending (DESIGN
CHOICE, log entry 27). -/
def Shaft.activate (s : Shaft) (k : ShaftCfg) (u : Nat) : Shaft × ShaftNote :=
  let paid := s.e - clamp s.e (-k.b) k.b
  match s.pend with
  | [] => (s.setE u paid, ⟨[], false, false⟩)
  | p :: rest =>
    if instant u < p.tv ∨ (s.st = .lost ∧ k.autoResume = false) then (s.setE u paid, ⟨[], false, false⟩)
    else
      let adopt := s.st == .lost || (s.st == .follow && s.adoptWait)
      let new : Seg := ⟨instant u, p.tv, p.th, p.v, p.a, []⟩
      let e : Int := if adopt then 0
        else angDiff ((s.thetaS (instant u) : Int) + paid) (new.theta (instant u))
      let st' := if s.st = .master then ShSt.master else .follow
      let s' := { s.newSeg u p.tv p.th p.v p.a e with
        st := st', adoptWait := false, pend := rest, lastTv := some p.tv, timer := u }
      (s', ⟨(if adopt then [1] else []) ++ (if (k.elim : Int) < e.natAbs then [7] else []),
        s.st != st', adopt⟩)

/-- A new segment at `u` with the values of the present one, or angle and velocity 0 without one: what a command
that changes no value begins (R75). -/
def Shaft.sameSeg (s : Shaft) (u : Nat) : Shaft :=
  match s.segs with
  | [] => s.newSeg u (instant u) 0 0 0 s.e
  | g :: _ => s.newSeg u g.tv g.th g.v g.a s.e

/-- A command of R81 meets the state in force at `u`; `act` is the ACTPOS of the master axis. -/
def Shaft.command (s : Shaft) (u : Nat) (act : Int) (cmd : ShCmd) : Shaft × ShaftNote :=
  match cmd, s.st with
  | .idle, _ =>
    ({ Shaft.reset with cmds := s.cmds, outNew := s.outNew }, ⟨[], s.st != .idle, false⟩)
  | .follow, .idle => ({ s.sameSeg u with st := .follow, adoptWait := true }, ⟨[], true, false⟩)
  | .follow, .lost => ({ s.sameSeg u with st := .follow, adoptWait := true }, ⟨[], true, false⟩)
  | .follow, .master => ({ s.sameSeg u with st := .follow, timer := u }, ⟨[], true, false⟩)
  | .follow, _ => (s, ⟨[8], false, false⟩)
  | .master, .master => (s, ⟨[8], false, false⟩)
  | .master, st =>
    let held := s.show u
    ({ held.newSeg u (instant u) held.ang held.vel 0 0 with
        st := .master, adoptWait := false, pend := []
        takeover := st == .coast || st == .lost
        mv := held.vel, mth := held.ang, mtv := instant u, ma := 0, mp := act, mu := u, lastGen := 0 },
      ⟨[], true, st == .lost || st == .idle || s.adoptWait⟩)

/-- Whether a command or write that was given to act at instant `at_` acts at `u`: it is due, or line time has been
stepped back below it (R57, R81, R92). -/
def actsAt (at_ u : Nat) : Bool := decide (at_ ≤ u) || decide (u + 2 < at_)

/-- The commands that act at `u`, in the order given (R81). -/
def Shaft.commands (u : Nat) (act : Int) : List (Nat × ShCmd) → Shaft → ShaftNote → Shaft × ShaftNote
  | [], s, n => (s, n)
  | (at_, cmd) :: rest, s, n =>
    if actsAt at_ u then
      let (s', n') := s.command u act cmd
      Shaft.commands u act rest s' ⟨n.flags ++ n'.flags, n.changed || n'.changed, n.retake || n'.retake⟩
    else Shaft.commands u act rest { s with cmds := s.cmds ++ [(at_, cmd)] } n

/-- Everything of a shaft's update instant but the timers (R76, R81). -/
def Shaft.update (s : Shaft) (k : ShaftCfg) (act : Int) (u : Nat) : Shaft × ShaftNote :=
  if s.st = .idle ∧ s.cmds = [] then (s, ⟨[], false, false⟩)
  else
    let (s1, n1) := s.activate k u
    let (s2, n2) := Shaft.commands u act s1.cmds { s1 with cmds := [] } n1
    (s2.show u, n2)

/-- Expiry of the REFTO timer at `u` (R81, R82). -/
def Shaft.refto (s : Shaft) (k : ShaftCfg) (u : Nat) : Option Shaft :=
  if s.st = .follow ∧ s.adoptWait = false ∧ k.refto ≤ u - s.timer then
    let t := instant u
    some ({ s.newSeg u t (s.thetaS t) (s.velS t) 0 s.e with st := .coast, timer := u }.show u)
  else none

/-- Expiry of the COASTLIM timer at `u` (R81, R82). -/
def Shaft.coastlim (s : Shaft) (k : ShaftCfg) (u : Nat) : Option Shaft :=
  if s.st = .coast ∧ k.coastlim ≤ u - s.timer then
    let held := wrap 64 ((s.thetaS (instant u) : Int) + s.e)
    some ({ s.newSeg u (instant u) held 0 0 0 with st := .lost, pend := [], timer := u }.show u)
  else none

/-- The shaft after the timers that expire at `u` (R81). -/
def Shaft.expire (s : Shaft) (k : ShaftCfg) (u : Nat) : Shaft :=
  let s1 := (s.refto k u).getD s
  (s1.coastlim k u).getD s1

/-- The shaft as it will stand at the next update instant `u`, with the timers that expire at the present one and at
`u`: what the evaluation of R89 knows one interval ahead. -/
def Shaft.predict (s : Shaft) (k : ShaftCfg) (act : Int) (u : Nat) : Shaft × Bool :=
  let (s1, n) := (s.expire k (u - 1)).update k act u
  (s1.expire k u, n.retake)

/-- ACTPOS of the axis that MSRC names (R83). -/
def Chip.masterAxisPos (c : Chip) (n : Nat) : Int :=
  sext 64 (c.reg64 (AXn_ACTPOS_LO (c.fld (ANG_SHn_MSRC n) 4 0)))

/-- A shaft's part of the update instant `u` (R76, R81). -/
def shaftInstant (c : Chip) (n u : Nat) : Chip :=
  let (s, note) := (c.shaft n).update (c.shaftCfg n) (c.masterAxisPos n) u
  let c1 := c.setShaft n s
  let c2 := note.flags.foldl (fun c i => c.shFlag n i) c1
  if note.changed then c2.raise (96 + n) 0 else c2

/-! ### Angle events -/

def Chip.ae (c : Chip) (n : Nat) : AngEvent := tblGet .reset c.ang.events n

def Chip.setAe (c : Chip) (n : Nat) (e : AngEvent) : Chip :=
  { c with ang := { c.ang with events := tblSet .reset c.ang.events n e } }

/-- Whether a configuration is valid (R88). -/
def AeCfg.valid (k : AeCfg) : Bool :=
  let dir := wfld k.cfg 9 8
  dir != 0 && !(wbit k.cfg 12 && (dir == 3 || k.period == 0))

/-- Whether an angle is BEYOND a position (R87). -/
def beyondOf (th p : Nat) : Bool := decide (0 ≤ angDiff th p)

/-- One write taking effect, with the shaft angle at that instant (R87, R88, R92). A write of CFG with EN = 1 arms the
event again, also one that is enabled already or has fired (DESIGN CHOICE, log entry 29). -/
def AngEvent.take (e : AngEvent) (cfgWrite : Bool) (k : AeCfg) (th : Nat) : AngEvent :=
  if !wbit k.cfg 31 then { e with force := k, pend := false, cfgErr := false, p := k.pos }
  else if !k.valid then { e with force := k, pend := false, cfgErr := true, p := k.pos }
  else
    let p := if cfgWrite || k.pos != e.force.pos then k.pos else e.p
    let fresh := cfgWrite || k.pos != e.force.pos || k.act != e.force.act || k.period != e.force.period
    { e with
      force := k, cfgErr := false, p := p
      pend := cfgWrite || e.pend || (wbit e.force.cfg 31 && !e.force.valid)
      beyond := if fresh then beyondOf th p else e.beyond }

/-- The writes that take effect by instant `u`, in order, each with the angle of the shaft that it names (R87, R92). -/
def AngEvent.takeAll (u : Nat) (th : Nat → Nat) : List (Nat × Bool × AeCfg) → AngEvent → AngEvent
  | [], e => e
  | (at_, w, k) :: rest, e =>
    if actsAt at_ u then AngEvent.takeAll u th rest (e.take w k (th (wfld k.cfg 3 0)))
    else AngEvent.takeAll u th rest { e with writes := e.writes ++ [(at_, w, k)] }

/-- Whether a distance from P, in units of 2^-81 grain, is BEYOND, modulo 2^64 grains (R17, R87). -/
def beyondExact (f : Int) : Bool := decide (0 ≤ sext 145 (wrap 145 f))

/-- Whether the shaft is BEYOND `p` at quarter-tick `q` of the interval that begins at `u`, without
rounding (R87, R89). -/
def Shaft.beyondAt (s : Shaft) (u p q : Nat) : Bool :=
  match s.segs with
  | [] => beyondOf 0 p
  | g :: _ =>
    let x : Int := (instant u : Int) + q * 16384 - g.tv
    beyondExact ((sext 64 g.th + s.e - sext 64 p) * 2 ^ 81 + g.v * x * 2 ^ 41 + g.a * x * x)

/-- The quarter-tick of the interval that begins at `u` in which the shaft's angle turns back: R75's parabola has
its turning point in it. -/
def Shaft.turnQ (s : Shaft) (u : Nat) : Option Nat :=
  match s.segs with
  | [] => none
  | g :: _ =>
    if g.a = 0 then none
    else
      let q := Int.fdiv (((g.tv : Int) - instant u) * g.a - g.v * 2 ^ 40) (g.a * 16384)
      if 0 ≤ q ∧ q < 4000 then some q.toNat else none

/-- Whether the shaft is BEYOND `p` at its turning point. -/
def Shaft.beyondTurn (s : Shaft) (p : Nat) : Bool :=
  match s.segs with
  | [] => beyondOf 0 p
  | g :: _ => beyondExact ((sext 64 g.th + s.e - sext 64 p) * 2 ^ 81 + Int.fdiv (-(g.v * g.v * 2 ^ 80)) g.a)

/-- The side at sample point `i` of an interval: its quarter-ticks in order, with the turning point, where the angle
has one, after the quarter-tick that it lies in. Between two points the angle moves one way. -/
def Shaft.sideAt (s : Shaft) (u p i : Nat) : Bool :=
  match s.turnQ u with
  | none => s.beyondAt u p i
  | some q => if i ≤ q then s.beyondAt u p i else if i = q + 1 then s.beyondTurn p else s.beyondAt u p (i - 1)

/-- The quarter-tick that a crossing found at a sample point is rounded up to (R89). -/
def Shaft.pointQ (s : Shaft) (u i : Nat) : Nat :=
  match s.turnQ u with
  | none => i
  | some q => if i ≤ q + 1 then i else i - 1

/-- The first sample point after `lo` and up to `hi` at which a side that changes once between them
differs from `side`, by bisection. -/
def bisectSide (f : Nat → Bool) (side : Bool) : Nat → Nat → Nat → Nat
  | 0, _, hi => hi
  | k + 1, lo, hi =>
    if hi ≤ lo + 1 then hi
    else
      let mid := (lo + hi) / 2
      if f mid == side then bisectSide f side k mid hi else bisectSide f side k lo mid

/-- The first change of side over pieces on each of which the angle moves one way. -/
def firstChange (f : Nat → Bool) (side : Bool) : Nat → List Nat → Option Nat
  | _, [] => none
  | lo, hi :: rest =>
    if hi ≤ lo then firstChange f side lo rest
    else if f hi != side then some (bisectSide f side 13 lo hi)
    else firstChange f side hi rest

/-- The sample points that split an interval of 4,000 quarter-ticks into pieces on which the angle moves one way. -/
def Shaft.pieces (s : Shaft) (u : Nat) : List Nat :=
  match s.turnQ u with
  | none => [4000]
  | some q => [q + 1, 4001]

/-- More crossings than an event can have in the interval that begins at `u`: its P moves by PERIOD × 256 grains
(R88), from where it stands to where the angle goes. -/
def AngEvent.mostCrossings (e : AngEvent) (s : Shaft) (u : Nat) : Nat :=
  let turn := match s.turnQ u with
    | some q => instant u + q * 16384
    | none => instant u
  let way := fun t => (angDiff ((s.thetaS t : Int) + s.e) e.p).natAbs
  (2 * (way (instant u) + way turn + way (instant (u + 1)))) / (max 1 e.force.period * 256) + 16

/-- The crossings an event fires in the interval that begins at `u`, from sample point `i` on, with
P moved as R88 gives: the event after them, and the times in quarter-ticks with the positions, first first. -/
def AngEvent.crossings (s : Shaft) (u : Nat) : Nat → Nat → AngEvent → List (Nat × Nat) → AngEvent × List (Nat × Nat)
  | 0, _, e, acc => (e, acc)
  | fuel + 1, i, e, acc =>
    let here := if s.sideAt u e.p i != e.beyond then some i
      else firstChange (fun i => s.sideAt u e.p i) e.beyond i (s.pieces u)
    match here with
    | none => (e, acc)
    | some i' =>
      let forward := !e.beyond
      let e1 := { e with beyond := !e.beyond }
      let dir := wfld e.force.cfg 9 8
      let fires := if forward then dir % 2 == 1 else dir / 2 == 1
      if !fires then AngEvent.crossings s u fuel i' e1 acc
      else
        let found := acc ++ [(s.pointQ u i', e.p)]
        if wbit e.force.cfg 12 then
          let step : Int := (e.force.period : Int) * 256
          let p' := wrap 64 ((e.p : Int) + (if forward then step else -step))
          AngEvent.crossings s u fuel i' { e1 with p := p', beyond := !forward } found
        else ({ e1 with pend := false }, found)

/-- The CFGERR, SIDE and PEND bits of an event's STAT (R102). -/
def AngEvent.bits (e : AngEvent) : Nat := at_ (b2n e.cfgErr) 3 + at_ (b2n e.beyond) 1 + b2n e.pend

/-- A found crossing put in order of time, then event number. -/
def insertFiring : List Firing → Firing → List Firing
  | [], f => [f]
  | x :: xs, f =>
    if f.tc4 < x.tc4 ∨ (f.tc4 = x.tc4 ∧ f.ae < x.ae) then f :: x :: xs else x :: insertFiring xs f

/-- Whether an event's firing is committed: found and not yet performed, carried crossings included
(R89, R90). -/
def Chip.aeCommitted (c : Chip) (n : Nat) : Bool :=
  c.ang.firings.any (fun f => f.ae == n) || c.ang.carried.any fun t => t.2.any fun f => f.ae == n

/-- What STAT shows of an event in the interval that begins: its bits, and in bit 4 that a one-shot event
awaits the performing of its firing, up to which PEND stays 1 (R88). -/
def Chip.aeShown (c : Chip) (n : Nat) : Nat :=
  let e := c.ae n
  e.bits + at_ (b2n (c.aeCommitted n && wbit e.force.cfg 31 && !wbit e.force.cfg 12)) 4

/-- The evaluation of one event for the interval that begins at `u`: writes and fresh sides first,
then the crossings of a pending event on a shaft that runs (R87 to R93). -/
def evalEvent (c : Chip) (n u : Nat) : Chip × List Firing :=
  let e0 := c.ae n
  let th := fun k => (((c.shaft k).predict (c.shaftCfg k) (c.masterAxisPos k) u).1).ang
  let e1 := AngEvent.takeAll u th e0.writes { e0 with writes := [], stat := c.aeShown n }
  let k := wfld e1.force.cfg 3 0
  let (s, retake) := (c.shaft k).predict (c.shaftCfg k) (c.masterAxisPos k) u
  let runs := (s.st == .follow || s.st == .master || s.st == .coast) && !s.adoptWait
  let e2 := if retake && e1.pend then { e1 with beyond := beyondOf s.ang e1.p } else e1
  if e2.pend && runs then
    let (e3, qs) := AngEvent.crossings s u (e2.mostCrossings s u) 0 e2 []
    (c.setAe n e3, qs.map fun q => ⟨n, u * 4000 + q.1, q.2, e2.force.act⟩)
  else (c.setAe n e2, [])

/-- The action of a committed firing on its timed output (R91). -/
def commitFiring (c : Chip) (f : Firing) : Chip :=
  let c1 := { c with ang := { c.ang with firings := insertFiring c.ang.firings f } }
  let act := f.act
  if wbit act 31 then
    let ch := wfld act 30 26
    if c.bit (TMU_TOn_CFG ch) 8 then
      let c2 := (c1.setReg64 (TMU_TOn_TIME_LO ch) (f.tc4 / 4)).setReg (TMU_TOn_TIME_FRAC ch)
        (w32 (f.tc4 % 4 * 16384))
      let c3 := c2.stage (TMU_TOn_TIME_FRAC ch) (w32 (f.tc4 % 4 * 16384))
      toArm c3 ch f.tc4 false
    else c1.setAe f.ae { c1.ae f.ae with cfgErr := true, stat := (c1.ae f.ae).stat ||| 8 }
  else c1

/-- A crossing carried into the next interval (R90). -/
def carryFiring (c : Chip) (n : Nat) (f : Firing) : Chip :=
  let c1 := c.setBit (ANG_AELATE (f.ae / 32)) (f.ae % 32) true
  c1.shFlag n 0

/-- The events of one shaft's crossings: four fire, carried ones first; the rest are carried (R90). The timed output
of a carried crossing is armed, and its OWNER checked, when the crossing takes a comparator (DESIGN CHOICE, log entry
28). -/
def commitShaft (c : Chip) (n u : Nat) (own : List Firing) : Chip :=
  let old := (tblGet [] c.ang.carried n).map fun f => { f with tc4 := u * 4000 }
  let all := old ++ own
  let c1 := (all.take 4).foldl commitFiring c
  let rest := all.drop 4
  let c2 := rest.foldl (fun c f => carryFiring c n f) c1
  { c2 with ang := { c2.ang with carried := tblSet [] c2.ang.carried n rest } }

/-- The evaluation during interval `u - 1` of interval `u` for all events and shafts (R89). -/
def evaluate (c : Chip) (u : Nat) : Chip :=
  let (c1, found) := c.ang.events.foldl
    (fun (acc : Chip × List Firing) e =>
      let (c', fs) := evalEvent acc.1 e.1 u
      (c', acc.2 ++ fs)) (c, [])
  (List.range 16).foldl (fun c' n =>
    let own := (found.filter fun f => wfld (c1.ae f.ae).force.cfg 3 0 == n).foldl insertFiring []
    if own.isEmpty && (tblGet [] c'.ang.carried n).isEmpty then c' else commitShaft c' n u own) c1

/-- The next update instant that is due, if one is (R75): instants follow one another while a shaft
runs. With every shaft IDLE the present one is taken at once, up to the one before a command acts, and also after line
time has been stepped back (R57). -/
def Chip.dueInstant (c : Chip) : Option Nat :=
  let u := c.ang.u
  let waits := c.ang.shafts.flatMap fun e => e.2.cmds.map fun x => x.1
  if c.ltUs = u then none
  else if c.ltUs < u then some c.ltUs
  else if c.ang.shafts.all fun e => e.2.st == .idle then
    some (match waits.min? with
      | none => c.ltUs
      | some w => min c.ltUs (max (u + 1) (w - 1)))
  else some (u + 1)

/-- The update instant of ANG (R76, R81, R89). -/
def angleInstant (c : Chip) : Chip :=
  match c.dueInstant with
  | none => c
  | some u =>
    let c1 := c.ang.shafts.foldl (fun c e => shaftInstant c e.1 u) c
    evaluate { c1 with ang := { c1.ang with u := u } } (u + 1)

/-- The REFTO timer expires (R81). -/
def reftoExpiry (c : Chip) (n : Nat) : Chip :=
  match (c.shaft n).refto (c.shaftCfg n) c.ang.u with
  | some s => (c.setShaft n s).raise (96 + n) 0
  | none => c

/-- The COASTLIM timer expires (R81). -/
def coastlimExpiry (c : Chip) (n : Nat) : Chip :=
  match (c.shaft n).coastlim (c.shaftCfg n) c.ang.u with
  | some s => (c.setShaft n s).raise (96 + n) 0
  | none => c

/-! ### Samples -/

/-- A sample from its nine words (R79). -/
def sampleOf (w : List W32) : Sample :=
  let g (i : Nat) : W32 := w.getD i 0
  { tv := join64 (g 1) (g 0) * 65536 + wfld (g 2) 31 16
    th := join64 (g 4) (g 3)
    v := sext 64 (join64 (g 6) (g 5))
    a := sext 64 (join64 (g 8) (g 7))
    quality := wfld (g 2) 15 8
    domain := wfld (g 2) 7 0 }

/-- A sample's nine words (R79). -/
def Sample.words (s : Sample) : List W32 :=
  let ns := s.tv / 65536
  [ lo32 ns, hi32 ns, w32 (at_ (s.tv % 65536) 16 + at_ s.quality 8 + s.domain), lo32 s.th, hi32 s.th,
    lo32 (wrap 64 s.v), hi32 (wrap 64 s.v), lo32 (wrap 64 s.a), hi32 (wrap 64 s.a) ]

/-- A sample put in order of valid time. -/
def insertSample : List Sample → Sample → List Sample
  | [], s => [s]
  | x :: xs, s => if s.tv < x.tv then s :: x :: xs else x :: insertSample xs s

/-- The valid time of the newest pending or active sample (R79). -/
def Shaft.newestTv (s : Shaft) : Option Nat :=
  match s.pend.getLast? with
  | some p => some p.tv
  | none => s.lastTv

/-- The flag of the first check of R79 that refuses a sample, if one does. -/
def Chip.sampleRefusal (c : Chip) (n : Nat) (x : Sample) : Option Nat :=
  let s := c.shaft n
  let cls := x.quality / 16
  let cfg := c.reg (ANG_SHn_CFG n)
  if s.st = .idle ∨ s.st = .master ∨ (s.st = .lost ∧ wbit cfg 31 = false) then some 8
  else if cls = 0 ∨ 4 ≤ cls ∨ cls < wfld cfg 11 8 then some 3
  else if wbit cfg 30 ∧ x.domain ≠ (c.reg ANG_DOMAIN).toNat then some 3
  else if x.tv < c.lt + instant 2 then some 5
  else if c.lt + instant 65535 < x.tv then some 9
  else if (s.newestTv).any fun t => decide (x.tv ≤ t) then some 6
  else if s.pend.length = 8 then some 4
  else none

/-- A write of ANG_SHn_INCMT (R79). -/
def sampleSubmit (c : Chip) (n : Nat) (v : W32) : Chip :=
  if wbit v 0 then
    let x := sampleOf ((List.range 9).map fun i => c.reg (ANG_SHn_IN n i))
    match c.sampleRefusal n x with
    | some f => ((c.shFlag n f).inc (ANG_SHn_REFUSED n)).done
    | none =>
      let s := c.shaft n
      ((c.setShaft n { s with pend := insertSample s.pend x }).inc (ANG_SHn_REFCNT n)).done
  else c.done

/-- A write of ANG_SHn_CMD (R81): the command acts two update instants on. -/
def shaftCmdWrite (c : Chip) (n : Nat) (v : W32) : Chip :=
  let queue (cmd : ShCmd) : Chip :=
    let s := c.shaft n
    (c.setShaft n { s with cmds := s.cmds ++ [(c.ltUs + 2, cmd)] }).done
  if bitCount v 3 > 1 then (c.shFlag n 8).done
  else if wbit v 0 then queue .follow
  else if wbit v 1 then queue .master
  else if wbit v 2 then queue .idle
  else c.done

/-- The profile source at `dt` ns after the previous sample (R83): angle gained, velocity, acceleration. -/
def profileAt (v mvel : Int) (macc : Nat) (dt : Int) : Int × Int × Int :=
  let s : Int := if v < mvel then 1 else -1
  if v = mvel then (roundDiv (v * dt) (2 ^ 24), v, 0)
  else if macc ≠ 0 ∧ (mvel - v).natAbs * 2 ^ 24 ≤ macc * dt then
    (roundDiv (mvel * dt * 2 * macc - s * (mvel - v) * (mvel - v) * 2 ^ 24) (2 * macc * 2 ^ 24), mvel, 0)
  else
    (roundDiv (v * dt * 2 ^ 25 + s * macc * dt * dt) (2 ^ 49), v + roundDiv (s * macc * dt) (2 ^ 24), s * macc)

/-- The sample a shaft master generates at update instant `u` (R83, R80), and the shaft that
remembers it. -/
def Chip.masterSample (c : Chip) (n u : Nat) : Sample × Shaft :=
  let s := c.shaft n
  let lead := (c.reg (ANG_SHn_LEAD n)).toNat
  let tv := instant (u + lead)
  let dom := (c.reg ANG_DOMAIN).toNat
  let src := if s.takeover then 1 else if c.bit (ANG_SHn_MSRC n) 31 then 3 else 2
  let q := src * 16 + (c.dom c.active).st.code
  if c.bit (ANG_SHn_MSRC n) 31 then
    let scale : Int := (c.reg (ANG_SHn_MSCALE n)).toNat
    let p := c.masterAxisPos n
    let d : Int := (u : Int) - s.mu
    let v := if d = 0 then 0 else roundDiv ((p - s.mp) * scale) (1000 * d.toNat)
    let th := roundDiv (p * scale) (2 ^ 24) + roundDiv (v * (lead * 1000)) (2 ^ 24)
    let x : Sample := ⟨tv, wrap 64 th, v, 0, q, dom⟩
    (x, { s with mp := p, mu := u, mv := v, mth := wrap 64 th, mtv := tv, ma := 0, lastGen := u + 1 })
  else
    let dt : Int := ((tv : Int) - s.mtv) / 65536
    let (g, v, a) := profileAt s.mv (sext 64 (c.reg64 (ANG_SHn_MVEL_LO n))) (c.reg (ANG_SHn_MACC n)).toNat dt
    let th := wrap 64 ((s.mth : Int) + g)
    let x : Sample := ⟨tv, th, v, a, q, dom⟩
    (x, { s with mv := v, mth := th, mtv := tv, ma := a, mp := c.masterAxisPos n, mu := u, lastGen := u + 1 })

/-- A generation time of a shaft master (R83, R84). -/
def generateSample (c : Chip) (n : Nat) : Chip :=
  let s := c.shaft n
  let u := c.ang.u
  let per := (c.reg (ANG_SHn_PERIOD n)).toNat
  if s.st = .master ∧ u % per = 0 ∧ s.lastGen ≠ u + 1 then
    let (x, s1) := c.masterSample n u
    let full := s1.pend.length = 8
    let s2 := { s1 with outNew := true, pend := if full then s1.pend else insertSample s1.pend x }
    let c1 := c.setShaft n s2
    let c2 := if full then (c1.shFlag n 4).inc (ANG_SHn_REFUSED n) else c1
    let c3 := (x.words.zipIdx).foldl (fun c p => c.setReg (ANG_SHn_OUT n p.2) p.1) c2
    (c3.setReg (ANG_SHn_OUTSEQ n) (w32 (((c3.reg (ANG_SHn_OUTSEQ n)).toNat + 1) % 65536))).raise (96 + n) 0
  else c

/-! ### Stamp-to-angle -/

/-- The result of a conversion (R86): code and angle. -/
def Chip.s2aResult (c : Chip) (n t : Nat) : S2a :=
  let s := c.shaft n
  if s.st = .idle ∨ s.adoptWait then ⟨3, 0⟩
  else if c.lt < t then ⟨2, 0⟩
  else
    match s.segs.find? fun g => decide (g.start ≤ t) with
    | none => ⟨1, 0⟩
    | some g =>
      let e := ((g.es.find? fun p => decide (p.1 ≤ t / 65536000)).map (·.2)).getD 0
      ⟨0, wrap 64 ((g.theta t : Int) + e)⟩

/-- A write of ANG_S2As_CTL (R86). -/
def s2aStart (c : Chip) (slot : Nat) (v : W32) : Chip :=
  if wbit v 31 ∧ tblGet none c.ang.s2a slot = none then
    let t := c.reg64 (ANG_S2As_T_LO slot) * 65536 + (c.reg (ANG_S2As_T_FRAC slot)).toNat
    let c1 := { c with ang := { c.ang with
      s2a := tblSet none c.ang.s2a slot (some (c.s2aResult (wfld v 3 0) t)) } }
    (c1.setReg (ANG_S2As_STAT slot) 0x80000000).done
  else c.done

/-- A conversion ends (R86). -/
def s2aDone (c : Chip) (slot : Nat) : Chip :=
  match tblGet none c.ang.s2a slot with
  | none => c
  | some r =>
    let c1 := { c with ang := { c.ang with s2a := tblSet none c.ang.s2a slot none } }
    (c1.setReg64 (ANG_S2As_RES_LO slot) r.res).setReg (ANG_S2As_STAT slot) (w32 (0x40000000 + r.code))

/-! ### Registers -/

/-- A write to a register of an angle event: stored at once, in force two instants on (R92). -/
def aeWrite (c : Chip) (m a : Nat) (v : W32) : Chip :=
  let n := (a - 0x40034000) / 0x20
  let r := (a - 0x40034000) % 0x20
  let c1 := c.plainWrite m a v
  if r = 0 ∨ r = 4 ∨ r = 8 ∨ r = 0x10 then
    let e := c1.ae n
    let k : AeCfg := ⟨c1.reg (ANG_AEn_CFG n), c1.reg (ANG_AEn_ACT n), c1.reg64 (ANG_AEn_POS_LO n),
      (c1.reg (ANG_AEn_PERIOD n)).toNat⟩
    c1.setAe n { e with writes := e.writes ++ [(c.ltUs + 2, decide (r = 0), k)] }
  else c1

/-- ANG_AEn_STAT (R102). -/
def Chip.aeStat (c : Chip) (n : Nat) : W32 :=
  let e := c.ae n
  w32 (wfld (w32 e.stat) 3 0 ||| at_ (b2n (c.aeCommitted n)) 2 ||| e.stat / 16 % 2)

/-- What an ANG register shows where it is not a stored value. -/
def angLive (c : Chip) (a : Nat) : W32 :=
  let o := a - 0x40030000
  let s := c.reg a
  if 0x1000 ≤ o ∧ o < 0x2000 then
    let n := (o - 0x1000) / 0x100
    let h := c.shaft n
    match a % 0x100 with
    | 0x08 => w32 (at_ h.pend.length 16 + at_ (b2n h.outNew) 10 + at_ (b2n h.adoptWait) 9 +
        at_ (b2n (h.e != 0)) 8 + h.st.code)
    | 0x20 => lo32 h.ang
    | 0x24 => hi32 h.ang
    | 0x28 => lo32 (wrap 64 h.vel)
    | 0x2C => hi32 (wrap 64 h.vel)
    | 0x30 => lo32 (wrap 64 h.e)
    | 0x34 => hi32 (wrap 64 h.e)
    | _ => s
  else if 0x4000 ≤ o ∧ o < 0xC000 ∧ o % 0x20 = 0x14 then
    let n := (o - 0x4000) / 0x20
    c.aeStat n
  else s

/-- A write to an ANG register (R15, R79, R81, R86, R92, R102). -/
def angWrite (c : Chip) (m a : Nat) (v : W32) : Chip :=
  let o := a - 0x40030000
  if 0x400 ≤ o ∧ o < 0x480 ∧ (o - 0x400) % 0x20 = 0 then s2aStart c ((o - 0x400) / 0x20) v
  else if 0x1000 ≤ o ∧ o < 0x2000 then
    let n := (o - 0x1000) / 0x100
    match a % 0x100 with
    | 0x04 => shaftCmdWrite c n v
    | 0x38 => c.plainWrite m a (w32 (max 50 (v.toNat % 65536)))
    | 0x3C => c.plainWrite m a (w32 (max 10 (v.toNat % 65536)))
    | 0x64 => sampleSubmit c n v
    | _ => c.plainWrite m a v
  else if 0x4000 ≤ o ∧ o < 0xC000 then aeWrite c m a v
  else c.plainWrite m a v

/-- A read of ANG_SHn_OUT0 clears OUTNEW (R83). -/
def outRead (c : Chip) (n : Nat) : Chip := c.setShaft n { c.shaft n with outNew := false }

/-! ### The ULP echo -/

/-- A ULP payload's data length with its padding (R96): rounded up to a multiple of 8, and at least 16. -/
def ulpPadded (n : Nat) : Nat := max 16 ((n + 7) / 8 * 8)

/-- The reply to a ULP echo request's payload (R97, R98), given the request's data, or none where the
request is discarded. The payload is without its check value. `stamp` is the ingress stamp. -/
def echoReply (req : List Byte) (stamp : Option Stamp) : Option (List Byte) :=
  let n := beNat (bytesAt req 14 2)
  let data := bytesAt req 16 n
  let stampReq := decide (0 < n) && (byteAt data 0).getLsbD 0
  if stampReq && decide (n < 24) then none
  else
    let head := [0x02, 0, 0, 0] ++ bytesAt req 4 8 ++ [0, 0] ++ bytesAt req 14 2
    let data' := if stampReq then
        bytesAt data 0 8 ++
        (match stamp with
         | some s => beBytes 8 (s.lt / 65536) ++ beBytes 2 (s.lt % 65536) ++ beBytes 6 0
         | none => beBytes 16 0) ++ data.drop 24
      else data
    let pad := ulpPadded n - n
    some (head ++ data' ++ List.replicate pad 0)

/-- A ULP payload's check value (R95): CRC-32C over the fold word and the payload. -/
def ulpCheck (stream seq : Nat) (payload : List Byte) : Nat :=
  crc32c (beBytes 2 stream ++ beBytes 2 seq ++ payload)

/-- Whether a diagnostic payload is an echo request that R96 does not discard: its length and its check value hold. -/
def echoValid (stream seq : Nat) (req : List Byte) : Bool :=
  let n := beNat (bytesAt req 14 2)
  byteAt req 0 == 0x01 && decide (n ≤ 1024) && req.length == 20 + ulpPadded n &&
    beNat (bytesAt req (req.length - 4) 4) == ulpCheck stream seq (req.take (req.length - 4))

/-- The EtherType and the ULP header of a frame that this station sends (R23, R94); SIM from TSK's mode. -/
def Chip.ulpHead (c : Chip) (ty stream seq len : Nat) : List Byte :=
  beBytes 2 (c.fld ANG_ULPTYPE 15 0) ++
    [BitVec.ofNat 8 (0x10 + ty), BitVec.ofNat 8 (b2n (c.fld TSK_STAT 2 0 == 3))] ++
    beBytes 2 stream ++ beBytes 2 (c.fld ANG_STATION 13 0) ++ beBytes 2 seq ++ beBytes 2 len

/-- A station receives a diagnostic frame's payload, `stamp` its ingress stamp in 2^-16 ns if the port made one
(R96, R98): an echo request's reply is made, from its EtherType to its check value. -/
def ulpEchoRequest (c : Chip) (stream seq : Nat) (req : List Byte) (stamp : Option Nat) : Chip :=
  if !echoValid stream seq req then c
  else
    match echoReply (req.take (req.length - 4)) (stamp.map fun t => ⟨t, 0, 0, 0⟩) with
    | none => c
    | some body =>
      let reply := c.ulpHead 0xF stream seq (body.length + 4) ++ body ++ beBytes 4 (ulpCheck stream seq body)
      { c with ang := { c.ang with echo := some reply } }

end Sys2Proof.Machine
end

