-- ==== Sys2Proof/Machine/MotPlan.lean ====
section
/-!
DEFINITION. The planner of MOT: jerk-limited profiles (R304), velocity ramps (R305), moves that pass their
target (R306), stops (R314), and the value of a plan at an instant (R300).
-/
namespace Sys2Proof.Machine

/-- The nearest integer, ties away from zero (R18). -/
def ratRound (x : Rat) : Int := roundDiv x.num x.den

/-- A count in 2^-16 units (R299). -/
def posOf (x : Rat) : Int := ratRound (x * 65536)

/-- A position register's value in counts. -/
def ofPos (n : Int) : Rat := (n : Rat) / 65536

/-- The sign of a rational as -1, 0 or 1. -/
def ratSign (x : Rat) : Rat := if 0 < x then 1 else if x < 0 then -1 else 0

def ratAbs (x : Rat) : Rat := if x < 0 then -x else x

/-- The square root, rounded down to 2^-64 (DESIGN CHOICE, log entry 40). -/
def ratSqrt (x : Rat) : Rat :=
  if x ≤ 0 then 0
  else
    let n := x.num.toNat * 2 ^ 128 / x.den
    ((isqrtBits ((Nat.log2 n) / 2 + 1) n 0 : Nat) : Rat) / ((2 ^ 64 : Nat) : Rat)

/-- A state after `t` µs at constant jerk. -/
def Motion.adv (m : Motion) (t j : Rat) : Motion :=
  ⟨m.p + m.v * t + m.a * t * t / 2 + j * t * t * t / 6, m.v + m.a * t + j * t * t / 2, m.a + j * t⟩

/-- A segment as planned: exact duration in µs and jerk. -/
structure IdealSeg where
  dur : Rat
  jerk : Rat

/-- The state after planned segments, durations exact. -/
def runIdeal (m : Motion) : List IdealSeg → Motion
  | [] => m
  | s :: ss => runIdeal (m.adv s.dur s.jerk) ss

/-- A phase in direction `s` from (v, a) to (v1, a1) under acceleration limit `lim` and jerk `j` (R304's times,
carried over to a start and an end with acceleration; DEDUCED, log entry 41). -/
def phaseSegs (s j lim v a v1 a1 : Rat) : List IdealSeg :=
  let b := s * a
  let e := s * a1
  let dv := s * (v1 - v)
  let top := j * dv + (b * b + e * e) / 2
  if lim * lim ≤ top then
    [⟨(lim - b) / j, s * j⟩, ⟨(dv - (2 * lim * lim - b * b - e * e) / (2 * j)) / lim, 0⟩,
     ⟨(lim - e) / j, -s * j⟩]
  else
    let pk := ratSqrt top
    [⟨(pk - b) / j, s * j⟩, ⟨(pk - e) / j, -s * j⟩]

/-- A ramp through zero in direction `s`, in speeds along `s`: DMAX while the speed falls, AMAX while it rises
(R305). -/
def crossSegs (s j amax dmax v a v1 : Rat) : List IdealSeg :=
  let w0 := s * v
  let w1 := s * v1
  let b := s * a
  let m := min amax dmax
  if w1 ≤ m * m / (2 * j) then phaseSegs s j dmax v a v1 0
  else if amax < dmax ∧ amax < b then
    if (b * b - amax * amax) / (2 * j) ≤ -w0 then
      phaseSegs s j dmax v a 0 (s * amax) ++ phaseSegs s j amax 0 (s * amax) v1 0
    else
      let t := (b - amax) / j
      let m1 := Motion.adv ⟨0, v, a⟩ t (-s * j)
      ⟨t, -s * j⟩ :: phaseSegs s j amax m1.v m1.a v1 0
  else if (m * m - b * b) / (2 * j) ≤ -w0 then
    phaseSegs s j dmax v a 0 (s * m) ++ phaseSegs s j amax 0 (s * m) v1 0
  else phaseSegs s j amax v a v1 0

/-- A change of velocity from (v, a) to v1 with no acceleration left (R304, R305): an acceleration above
its limit is first brought within it. -/
def velSegs (l : MotLim) (v a v1 : Rat) : List IdealSeg :=
  let lim0 := if 0 ≤ v * a then l.amax else l.dmax
  let pre : List IdealSeg :=
    if lim0 < ratAbs a then [⟨(ratAbs a - lim0) / l.jmax, -ratSign a * l.jmax⟩] else []
  let m := runIdeal ⟨0, v, a⟩ pre
  let vz := m.v + m.a * ratAbs m.a / (2 * l.jmax)
  let s := ratSign (v1 - vz)
  pre ++
    (if s = 0 then
      (if m.a = 0 then [] else [⟨ratAbs m.a / l.jmax, -ratSign m.a * l.jmax⟩])
    else if s * v1 ≤ 0 then phaseSegs s l.jmax l.dmax m.v m.a v1 0
    else if 0 ≤ s * m.v then phaseSegs s l.jmax l.amax m.v m.a v1 0
    else crossSegs s l.jmax l.amax l.dmax m.v m.a v1)

/-- The position gained by a ramp to cruise speed `vc` and from there to rest. -/
def rampDist (l : MotLim) (v a vc : Rat) : Rat :=
  (runIdeal ⟨0, v, a⟩ (velSegs l v a vc)).p + (runIdeal ⟨0, vc, 0⟩ (velSegs l vc 0 0)).p

/-- The largest cruise speed, in velocity LSBs, whose ramps fit the distance, by bisection (R304). -/
def cruiseBisect (l : MotLim) (s v a dist : Rat) : Nat → Nat → Nat → Nat
  | 0, lo, _ => lo
  | k + 1, lo, hi =>
    if hi ≤ lo + 1 then lo
    else
      let mid := (lo + hi) / 2
      if s * rampDist l v a (s * ((mid : Rat) / ((2 ^ 32 : Nat) : Rat))) ≤ s * dist then cruiseBisect l s v a dist k mid hi
      else cruiseBisect l s v a dist k lo mid

/-- A profile over `dist` in the direction of motion, with room to stop (R304). -/
def approachSegs (l : MotLim) (v a dist : Rat) : List IdealSeg :=
  let s := ratSign dist
  if s = 0 then velSegs l v a 0
  else
    let full := s * l.vmax
    if s * rampDist l v a full ≤ s * dist then
      velSegs l v a full ++ [⟨(dist - rampDist l v a full) / full, 0⟩] ++ velSegs l full 0 0
    else
      let k := cruiseBisect l s v a dist 65 0 (l.vmax * ((2 ^ 32 : Nat) : Rat)).floor.toNat
      let vc := s * ((k : Rat) / ((2 ^ 32 : Nat) : Rat))
      velSegs l v a vc ++ velSegs l vc 0 0

/-- A move: the segments, and the rest position where it must first stop (R306). -/
def moveSegs (l : MotLim) (m : Motion) (tgt : Rat) : List IdealSeg × Option Rat :=
  let dir := if m.v = 0 then ratSign m.a else ratSign m.v
  let stop := velSegs l m.v m.a 0
  let rest := (runIdeal m stop).p
  if dir * (tgt - rest) < 0 then (stop ++ approachSegs l 0 0 (tgt - rest), some rest)
  else (approachSegs l m.v m.a (tgt - m.p), none)

/-- Whether a state is within the limits once its acceleration is brought to 0 (R304). -/
def Motion.within (m : Motion) (l : MotLim) : Bool :=
  let lim := if 0 ≤ m.v * m.a then l.amax else l.dmax
  decide (ratAbs m.a ≤ lim) &&
    (decide (l.vmax = 0) || decide (ratAbs (m.v + m.a * ratAbs m.a / (2 * l.jmax)) ≤ l.vmax))

/-- A duration in whole ns: the nearest, or the shorter where the longer passes a limit (R304). -/
def roundDur (l : MotLim) (m : Motion) (dur jerk : Rat) : Nat :=
  let x := dur * 1000
  let lo := x.floor.toNat
  let near := (ratRound x).toNat
  if lo < near ∧ (m.adv ((near : Rat) / 1000) jerk).within l = false ∧ (m.adv ((lo : Rat) / 1000) jerk).within l then lo
  else near

/-- Planned segments with durations held to 1 ns, empty ones left out, and the state they end in (R304). -/
def roundSegs (l : MotLim) (m : Motion) : List IdealSeg → List (Nat × Rat) × Motion
  | [] => ([], m)
  | s :: ss =>
    let n := roundDur l m s.dur s.jerk
    let r := roundSegs l (m.adv ((n : Rat) / 1000) s.jerk) ss
    (if n = 0 then r.1 else (n, s.jerk) :: r.1, r.2)

/-- The plan of a move, and the position to be written into STOPPOS (R304, R306). -/
def planMove (l : MotLim) (t0 : Nat) (m : Motion) (tgt : Rat) : MotPlan × Option Rat :=
  let (ss, stop) := moveSegs l m tgt
  (⟨t0, m, (roundSegs l m ss).1, .rest tgt⟩, stop)

/-- The plan of a velocity ramp (R305). -/
def planVel (l : MotLim) (t0 : Nat) (m : Motion) (vt : Rat) : MotPlan :=
  let v1 := max (-l.vmax) (min vt l.vmax)
  let (ss, e) := roundSegs l m (velSegs l m.v m.a v1)
  ⟨t0, m, ss, ⟨e.p, v1, 0⟩⟩

/-- The plan of a ramp to rest, which ends on a 2^-16 count (R308, R314; DEDUCED, log entry 42). -/
def planRest (l : MotLim) (t0 : Nat) (m : Motion) : MotPlan :=
  let (ss, e) := roundSegs l m (velSegs l m.v m.a 0)
  ⟨t0, m, ss, .rest (ofPos (posOf e.p))⟩

/-- The quintic of R304 at `t` of a last segment of length `len`: value, first and second derivative. -/
def quintic (d : Motion) (len t : Rat) : Motion :=
  let s := t / len
  let dv := d.v * len
  let da := d.a * len * len
  let qa := 10 * d.p - 4 * dv + da / 2
  let qb := -15 * d.p + 7 * dv - da
  let qc := 6 * d.p - 3 * dv + da / 2
  ⟨s * s * s * (qa + s * (qb + s * qc)), s * s * (3 * qa + s * (4 * qb + 5 * s * qc)) / len,
    s * (6 * qa + s * (12 * qb + 20 * s * qc)) / (len * len)⟩

/-- The value of segments `ns` after their start, trimmed to end in `fin` (R304). -/
def evalSegs (fin : Motion) : List (Nat × Rat) → Motion → Nat → Motion
  | [], _, ns => ⟨fin.p + fin.v * ((ns : Rat) / 1000), fin.v, 0⟩
  | [(len, j)], m, ns =>
    if len ≤ ns then ⟨fin.p + fin.v * (((ns - len : Nat) : Rat) / 1000), fin.v, 0⟩
    else
      let x := m.adv ((ns : Rat) / 1000) j
      let e := m.adv ((len : Rat) / 1000) j
      let c := quintic ⟨fin.p - e.p, fin.v - e.v, fin.a - e.a⟩ ((len : Rat) / 1000) ((ns : Rat) / 1000)
      ⟨x.p + c.p, x.v + c.v, x.a + c.a⟩
  | (len, j) :: rest, m, ns =>
    if len ≤ ns then evalSegs fin rest (m.adv ((len : Rat) / 1000) j) (ns - len)
    else m.adv ((ns : Rat) / 1000) j

/-- The value of a plan at an update instant (R300). -/
def MotPlan.at_ (p : MotPlan) (u : Nat) : Motion := evalSegs p.fin p.segs p.start ((u - p.t0) * 1000)

/-- Whether a plan has ended at an update instant. -/
def MotPlan.ended (p : MotPlan) (u : Nat) : Bool :=
  decide ((p.segs.map (·.1)).sum ≤ (u - p.t0) * 1000)

end Sys2Proof.Machine
end

