-- ==== Sys2Proof/Machine/Mot.lean ====
section
/-!
DEFINITION. MOT: the update instant (R300, R301), axis states (R303), following a shaft (R307 to R313), stops and
faults (R314, R315), outputs (R316 to R319), feedback (R320 to R324), registers (R326, R327, R535).
-/
namespace Sys2Proof.Machine

def Chip.ax (c : Chip) (n : Nat) : AxisRun := tblGet .reset c.mot.axes n

def Chip.setAx (c : Chip) (n : Nat) (x : AxisRun) : Chip :=
  { c with mot := { c.mot with axes := tblSet .reset c.mot.axes n x } }

/-- A bit of AXn_EVCAUSE set, raising source 256 + n (R325). -/
def Chip.axCause (c : Chip) (n i : Nat) : Chip := c.flag (AXn_EVCAUSE n) i (256 + n)

/-- AXn_STAT.STATE (R327). -/
def Chip.axState (c : Chip) (n : Nat) : Nat := c.fld (AXn_STAT n) 2 0
def Chip.setAxState (c : Chip) (n s : Nat) : Chip := c.setFld (AXn_STAT n) 2 0 s

/-- A signed 64-bit register pair. -/
def Chip.pair (c : Chip) (a : Nat) : Int := sext 64 (c.reg64 a)

/-- The active cam set (R327). -/
def Chip.camSet (c : Chip) (n : Nat) : Nat := c.fld (AXn_STAT n) 26 26

/-- CAMCFG, CAMBASE and span of a cam set (R310). -/
def Chip.camCfg (c : Chip) (n s : Nat) : W32 := c.reg (AXn_CAMCFG0 n + 4 * s)
def Chip.camBase (c : Chip) (n s : Nat) : Nat := c.fld (AXn_CAMBASE0 n + 4 * s) 31 3 * 8
def Chip.camSpan (c : Chip) (n s : Nat) : Nat := (c.reg (AXn_CAMSPAN0 n + 4 * s)).toNat * 65536

/-- Whether a cam set is valid (R310). -/
def Chip.camValid (c : Chip) (n s : Nat) : Bool :=
  let lg := wfld (c.camCfg n s) 3 0
  decide (2 ≤ lg) && decide (lg ≤ 12) && decide (2 ^ lg ≤ c.camSpan n s)

/-! ### The shaft term -/

/-- Angle in grains, velocity and acceleration in grains and µs, that an axis uses for update instant `u`; on
entry to LOST or IDLE those of the segment in force before it (R300, R313). -/
def Chip.shaftFor (c : Chip) (sh u : Nat) : Nat × Rat × Rat :=
  let s := c.shaft sh
  let out (th : Nat) (v : Int) (s : Shaft) : Nat × Rat × Rat :=
    let a : Int := match s.segs with
      | [] => 0
      | g :: _ => g.a
    (th, (v * 1000 : Rat) / ((2 ^ 24 : Nat) : Rat), (a * 1000000 : Rat) / ((2 ^ 48 : Nat) : Rat))
  if u ≤ c.ang.u then out s.ang s.vel s
  else
    let k := c.shaftCfg sh
    let p := (s.predict k (c.masterAxisPos sh) u).1
    if p.st = .lost ∨ p.st = .idle then
      let paid := s.e - clamp s.e (-k.b) k.b
      out (wrap 64 ((s.thetaS (instant u) : Int) + paid)) (s.velS (instant u)) s
    else out p.ang p.vel p

/-- A read of the cam path with the master of MOT_OWNER; a segment violation freezes the path (R310, R315). -/
def Chip.camRead (c : Chip) (a : Nat) : Option (List Byte) × Chip :=
  let m := c.fld MOT_OWNER 3 0
  match c.dmaRead m a 8 with
  | (.ok bs, c1) => (some bs, c1)
  | (.error .seg, c1) => (none, { c1 with mot := { c1.mot with camFrozen := some a } }.freezeAt 0x13 m a 8 1)
  | (.error _, c1) => (none, c1)

/-- An entry of a cam table; a frozen path reads nothing (R310, R315). -/
def Chip.camEntry (c : Chip) (n s i : Nat) : Option Int × Chip :=
  if c.mot.camFrozen.isSome then (none, c)
  else
    match c.camRead (c.camBase n s + 8 * i) with
    | (some bs, c1) => (some (sext 64 (leNat bs)), c1)
    | (none, c1) => (none, c1)

/-- The cam's value at a phase in 2^-16 count, not yet rounded, with its slope per grain (R310). -/
def Chip.camAt (c : Chip) (n s : Nat) (phi : Nat) : Option (Rat × Rat) × Chip :=
  let top := 2 ^ wfld (c.camCfg n s) 3 0
  let span := c.camSpan n s
  let i := min (phi * top / span) (top - 1)
  match c.camEntry n s i with
  | (none, c1) => (none, c1)
  | (some p0, c1) =>
    match c1.camEntry n s (i + 1) with
    | (none, c2) => (none, c2)
    | (some p1, c2) =>
      let slope : Rat := ((p1 - p0) * (top : Int) : Rat) / (span : Rat)
      (some ((p0 : Rat) + slope * ((phi : Rat) - (i * span : Rat) / (top : Rat)), slope), c2)

/-- P[N-1] - P[0] of a cam set. -/
def Chip.camRise (c : Chip) (n s : Nat) : Option Int × Chip :=
  match c.camEntry n s 0 with
  | (none, c1) => (none, c1)
  | (some p0, c1) =>
    match c1.camEntry n s (2 ^ wfld (c.camCfg n s) 3 0) with
    | (none, c2) => (none, c2)
    | (some p1, c2) => (some (p1 - p0), c2)

/-- The shaft term at an update instant (R307, R311); none where a cam-table read fails. -/
def Chip.shaftTerm (c : Chip) (n u : Nat) : Option Motion × Chip :=
  let x := c.ax n
  let (th, tv, ta) := c.shaftFor (c.fld (AXn_CFG n) 27 24) u
  let d := angDiff th x.theta0
  let gofs := c.pair (AXn_GOFS_LO n)
  if !x.cam then
    let k : Rat := (x.num : Rat) / ((x.den * 2 ^ 32 : Nat) : Rat)
    (some ⟨ofPos (gofs + roundDiv (d * x.num * 65536) (x.den * 2 ^ 32)), tv * k, ta * k⟩, c)
  else
    let s := c.camSet n
    let span : Int := c.camSpan n s
    let oneshot := wbit (c.camCfg n s) 31
    let pass := c.bit (AXn_STAT n) 28
    let m : Int := if oneshot then 0 else d / span
    let phi : Int := if oneshot then (if pass then clamp d 0 span else 0) else d - m * span
    let moves := !oneshot || (pass && decide (0 < d) && decide (d < span))
    let (rise, c1) := if m = 0 then (some 0, c) else c.camRise n s
    match rise with
    | none => (none, c1)
    | some r =>
      match c1.camAt n s phi.toNat with
      | (none, c2) => (none, c2)
      | (some (y, k), c2) =>
        let k' : Rat := if moves then k / 65536 else 0
        (some ⟨ofPos (gofs + m * r + ratRound y), tv * k', ta * k'⟩, c2)

/-- The command of an axis at an update instant (R300); none where a cam-table read fails. -/
def Chip.axisAt (c : Chip) (n u : Nat) : Option Motion × Chip :=
  let x := c.ax n
  let r := x.plan.at_ u
  if !x.bound then (some r, c)
  else
    match c.shaftTerm n u with
    | (none, c1) => (none, c1)
    | (some g, c1) => (some ⟨g.p + r.p, g.v + r.v, g.a + r.a⟩, c1)

/-! ### Stops and faults -/

/-- A stop ramp at instant `u` from a state, with STOPPOS; a bound axis leaves its shaft (R314, R308). -/
def Chip.axisStop (c : Chip) (n u : Nat) (m : Motion) : Chip :=
  let x := c.ax n
  let d : Rat := (c.reg64 (AXn_SDEC_LO n) : Rat) / ((2 ^ 48 : Nat) : Rat)
  let j : Rat := (c.reg64 (AXn_SJERK_LO n) : Rat) / ((2 ^ 64 : Nat) : Rat)
  let p := planRest ⟨0, d, d, j⟩ u m
  let c1 := c.setAx n { x with plan := p, bound := false }
  let c2 := c1.setReg64 (AXn_STOPPOS_LO n) (wrap 64 (posOf p.fin.p))
  if x.bound then c2.setFld (AXn_STAT n) 29 27 0 else c2

/-- A fault at update instant `u`, at which the command is `m` (R315). -/
def Chip.axisFault (c : Chip) (n u cause : Nat) (m : Motion) : Chip :=
  let st := c.axState n
  if st = 0 ∨ st = 7 then c
  else
    let c1 := if st = 6 then c else c.axisStop n u m
    let c2 := (c1.setAxState n 7).setFld (AXn_STAT n) 11 8 cause
    (c2.setAx n { c2.ax n with devCnt := 0 }).axCause n 2

/-! ### Feedback -/

/-- A new value of the raw feedback (R322). -/
def Chip.feedback (c : Chip) (n x : Nat) : Chip :=
  let r := c.ax n
  let bits := c.fld (AXn_FBCFG n) 5 0
  let c1 := c.setAx n { r with xprev := some x, lastFb := (c.ltNs + 999) / 1000 }
  match r.xprev with
  | none => c1
  | some p =>
    let d := sext bits (wrap bits ((x : Int) - p))
    let step := d * sext 32 (c.reg (AXn_FBSCALE n)).toNat
    c1.setReg64 (AXn_ACTPOS_LO n) (wrap 64 (c.pair (AXn_ACTPOS_LO n) + step))

/-- The feedback of an update instant: decoder count, or a word popped from a pack FIFO (R321). -/
def Chip.feedbackAt (c : Chip) (n : Nat) : Chip :=
  let i := c.fld (AXn_CFG n) 20 16
  match c.fld (AXn_CFG n) 29 28 with
  | 1 => c.feedback n (c.reg (QEm_CNT (i % 16))).toNat
  | 3 =>
    if c.fld (PFn_CFG i) 5 4 = 2 then
      match c.pfPop i with
      | (some w, c1) => c1.feedback n (w.data % 2 ^ 32)
      | (none, _) => c
    else c
  | _ => c

/-- A write of AXn_ACTIN (R321, R322). -/
def actinWrite (c : Chip) (n : Nat) (v : W32) : Chip :=
  (if c.fld (AXn_CFG n) 29 28 = 2 then c.feedback n v.toNat else c).done

/-- Whether a feedback fault holds at update instant `u` (R323). -/
def Chip.feedbackFault (c : Chip) (n u : Nat) : Bool :=
  let fb := c.fld (AXn_CFG n) 29 28
  let stale := c.fld (AXn_FBCFG n) 31 16
  (fb == 1 && decide (c.fld (QEm_FLAGS (c.fld (AXn_CFG n) 20 16 % 16)) 1 0 ≠ 0)) ||
    (decide (2 ≤ fb) && decide (stale ≠ 0) && decide (stale ≤ u - (c.ax n).lastFb))

/-- The deviation window at an update instant: DEVNOW and the counter, and whether the axis faults DEV (R324). -/
def Chip.deviation (c : Chip) (n : Nat) : Bool × Chip :=
  let x := c.ax n
  let st := c.axState n
  let win := (c.reg (AXn_DEVWIN n)).toNat
  if c.fld (AXn_CFG n) 29 28 = 0 ∨ win = 0 ∨ st = 0 ∨ st = 7 then (false, c)
  else
    let dly := c.fld (AXn_DEVDLY n) 7 0
    let e := x.hist.getD dly (x.hist.getLast?.getD 0) - c.pair (AXn_ACTPOS_LO n)
    let c1 := c.setReg (AXn_DEVNOW n) (w32i (clamp (roundDiv e 65536) (-2 ^ 31) (2 ^ 31 - 1)))
    let cnt := if (win * 65536 : Int) < e.natAbs then x.devCnt + 1 else 0
    (decide (cnt ≠ 0) && decide (c.fld (AXn_DEVTIME n) 15 0 ≤ cnt), c1.setAx n { x with devCnt := cnt })

/-! ### The update instant -/

/-- What ends with the command of instant `u`: a move or stop at rest, a residual's plan (R303, R308). -/
def Chip.axisEnds (c : Chip) (n u : Nat) : Chip :=
  let x := c.ax n
  let st := c.axState n
  if !x.plan.ended u then c
  else if x.bound then
    if c.bit (AXn_STAT n) 29 then c
    else
      let c1 := if x.absol then c else
        (c.setReg64 (AXn_GOFS_LO n) (wrap 64 (c.pair (AXn_GOFS_LO n) + posOf x.plan.fin.p))).setAx n
          { x with plan := .hold 0 }
      (c1.setBit (AXn_STAT n) 29 true).axCause n 1
  else if st = 2 ∨ st = 6 then (c.setAxState n 1).axCause n 0
  else c

/-- An axis takes the command planned for instant `u` as its present one (R300). -/
def Chip.axisTake (c : Chip) (n u : Nat) : Chip :=
  let x := c.ax n
  let c1 := c.setAx n { x with cur := x.nxt, begun := u, hist := (posOf x.nxt.p :: x.hist).take 256 }
  let c2 := c1.setReg64 (AXn_CMDPOS_LO n) (wrap 64 (posOf x.nxt.p))
  let c3 := c2.setReg64 (AXn_CMDVEL_LO n) (wrap 64 (ratRound (x.nxt.v * ((2 ^ 32 : Nat) : Rat))))
  c3.setBit (AXn_STAT n) 31 (decide (x.nxt.v = 0) && decide (x.nxt.a = 0))

/-- The first part of an axis's update instant: its command, feedback, ends and faults (R301, R315, R324). -/
def Chip.axisBegin (c : Chip) (n u : Nat) : Chip :=
  if (c.ax n).begun = u then c
  else
    let c1 := ((c.axisTake n u).feedbackAt n).axisEnds n u
    let m := (c1.ax n).cur
    let (dev, c2) := c1.deviation n
    if dev then c2.axisFault n u 1 m
    else if c2.feedbackFault n u then c2.axisFault n u 2 m
    else if c2.mot.camFrozen.isSome && c2.axState n == 5 then c2.axisFault n u 4 m
    else c2

/-- The limits of a command as registered (R304, R305). -/
def Chip.axisLims (c : Chip) (n : Nat) : MotLim where
  vmax := (c.reg64 (AXn_VMAX_LO n) : Rat) / ((2 ^ 32 : Nat) : Rat)
  amax := (c.reg64 (AXn_AMAX_LO n) : Rat) / ((2 ^ 48 : Nat) : Rat)
  dmax := (c.reg64 (AXn_DMAX_LO n) : Rat) / ((2 ^ 48 : Nat) : Rat)
  jmax := (c.reg64 (AXn_JMAX_LO n) : Rat) / ((2 ^ 64 : Nat) : Rat)

/-- Whether no limit is 0 (R303). -/
def MotLim.ok (l : MotLim) : Bool :=
  decide (l.vmax ≠ 0) && decide (l.amax ≠ 0) && decide (l.dmax ≠ 0) && decide (l.jmax ≠ 0)

/-- Whether a shaft allows GEAR and CAM (R313). -/
def Chip.shaftAllows (c : Chip) (sh : Nat) : Bool :=
  let s := c.shaft sh
  s.st != .idle && s.st != .lost && !s.adoptWait

/-- An axis is engaged on its shaft from instant `u` on, at which the command is `m` (R308, R311). -/
def Chip.axisEngage (c : Chip) (n u : Nat) (k : MotCmd) (cam : Bool) (m : Motion) : Chip :=
  let absol := wbit k.word 9
  let th := (c.shaftFor (c.fld (AXn_CFG n) 27 24) u).1
  let x := { c.ax n with
    bound := true, cam := cam, absol := absol, theta0 := if absol then 0 else th, num := k.num, den := k.den
    lim := k.lim, plan := .hold 0 }
  let c1 := ((c.setAx n x).setFld (AXn_STAT n) 29 27 0).setAxState n (if cam then 5 else 4)
  let c2 := if absol then c1 else c1.setReg64 (AXn_GOFS_LO n) (wrap 64 (posOf m.p))
  match c2.shaftTerm n u with
  | (none, c3) => c3.axisFault n (u - 1) 4 (c3.ax n).cur
  | (some g, c3) =>
    let r : Motion := ⟨m.p - g.p, m.v - g.v, m.a - g.a⟩
    c3.setAx n { x with plan := if absol then (planMove k.lim u r 0).1 else planRest k.lim u r }

/-- The residual changed by `d` and planned to 0 from instant `u` on (R309, R312). -/
def Chip.axisShift (c : Chip) (n u : Nat) (d : Motion) : Chip :=
  let x := c.ax n
  let r := x.plan.at_ u
  (c.setAx n { x with absol := true, plan := (planMove x.lim u ⟨r.p + d.p, r.v + d.v, r.a + d.a⟩ 0).1 }).setBit
    (AXn_STAT n) 29 false

/-- A registered command handled at update instant `u` (R301, R303): its plan starts at `u + 1`. -/
def Chip.axisCommand (c : Chip) (n u : Nat) (k : MotCmd) : Chip :=
  let st := c.axState n
  let w := k.word
  let refused := c.axCause n 3
  let planned (f : Motion → Chip → Chip) : Chip :=
    match c.axisAt n (u + 1) with
    | (some m, c1) => f m c1
    | (none, c1) => c1.axisFault n u 4 (c1.ax n).cur
  if wbit w 0 then
    if st = 0 ∧ c.reg64 (AXn_SDEC_LO n) ≠ 0 ∧ c.reg64 (AXn_SJERK_LO n) ≠ 0 then
      let x := c.ax n
      let p := if c.fld (AXn_CFG n) 29 28 = 0 then x.plan.fin.p else ofPos (c.pair (AXn_ACTPOS_LO n))
      let x' : AxisRun := { x with plan := .hold p, bound := false, xprev := none, lastFb := u, devCnt := 0 }
      (c.setAx n x').setAxState n 1
    else refused
  else if wbit w 1 then
    if st = 1 ∨ (st = 7 ∧ c.bit (AXn_STAT n) 31) then c.setAxState n 0 else refused
  else if wbit w 2 then
    if (st = 1 ∨ st = 2 ∨ st = 3) ∧ k.lim.ok then
      planned fun m c1 =>
        let (p, stop) := planMove k.lim (u + 1) m (ofPos k.tgt)
        let c2 := (c1.setAx n { c1.ax n with plan := p }).setAxState n 2
        match stop with
        | some s => c2.setReg64 (AXn_STOPPOS_LO n) (wrap 64 (posOf s))
        | none => c2
    else refused
  else if wbit w 3 then
    if (st = 1 ∨ st = 2 ∨ st = 3) ∧ k.lim.ok then
      planned fun m c1 =>
        let p := planVel k.lim (u + 1) m ((k.vtgt : Rat) / ((2 ^ 32 : Nat) : Rat))
        (c1.setAx n { c1.ax n with plan := p }).setAxState n 3
    else refused
  else if wbit w 4 || wbit w 5 then
    let cam := wbit w 5
    if 1 ≤ st ∧ st ≤ 5 ∧ k.lim.ok ∧ k.den ≠ 0 ∧ c.shaftAllows (c.fld (AXn_CFG n) 27 24) ∧
        (cam = false ∨ c.camValid n (c.camSet n)) then
      planned fun m c1 => c1.axisEngage n (u + 1) k cam m
    else refused
  else if wbit w 6 then
    if 2 ≤ st ∧ st ≤ 5 then planned fun m c1 => (c1.axisStop n (u + 1) m).setAxState n 6 else refused
  else if wbit w 7 then
    if st = 7 ∧ c.bit (AXn_STAT n) 31 then (c.setAxState n 1).setFld (AXn_STAT n) 11 8 0 else refused
  else if wbit w 8 then
    if st = 5 ∧ wbit (c.camCfg n (c.camSet n)) 31 = false ∧ c.camValid n (1 - c.camSet n) then
      c.setBit (AXn_STAT n) 27 true
    else refused
  else c

/-- The commands registered before instant `u`, in order (R301). -/
def Chip.axisCommands (c : Chip) (n u : Nat) : List MotCmd → Chip
  | [] => c
  | k :: ks =>
    if k.at_ < u then (c.axisCommand n u k).axisCommands n u ks
    else (c.setAx n { c.ax n with cmds := (c.ax n).cmds ++ [k] }).axisCommands n u ks

/-- The end of a one-shot pass whose phase has reached the span at instant `u` (R312). -/
def Chip.passEnd (c : Chip) (n u : Nat) : Option Unit × Chip :=
  let x := c.ax n
  let s := c.camSet n
  if x.bound && x.cam && c.bit (AXn_STAT n) 28 && wbit (c.camCfg n s) 31 &&
      decide ((c.camSpan n s : Int) ≤ angDiff (c.shaftFor (c.fld (AXn_CFG n) 27 24) u).1 x.theta0) then
    match c.camRise n s with
    | (none, c1) => (none, c1)
    | (some r, c1) =>
      (some (), ((c1.setReg64 (AXn_GOFS_LO n) (wrap 64 (c1.pair (AXn_GOFS_LO n) + r))).setBit
        (AXn_STAT n) 28 false).axCause n 7)
  else (some (), c)

/-- The command of instant `u + 1` computed during interval `u`; a failing cam read faults MEM (R300, R315). -/
def Chip.axisNext (c : Chip) (n u : Nat) : Chip :=
  let fail (c1 : Chip) : Chip :=
    let c2 := c1.axisFault n u 4 (c1.ax n).cur
    let x := c2.ax n
    c2.setAx n { x with nxt := if x.bound then x.cur else x.plan.at_ (u + 1) }
  match c.passEnd n (u + 1) with
  | (none, c1) => fail c1
  | (some _, c1) =>
    match c1.axisAt n (u + 1) with
    | (none, c2) => fail c2
    | (some m, c2) => c2.setAx n { c2.ax n with nxt := m }

/-- The stream to a Skipper (R319). -/
def Chip.axisStream (c : Chip) (n : Nat) : Chip :=
  if c.fld (AXn_CFG n) 31 30 = 3 ∧ c.axState n ≠ 0 then
    let x := c.ax n
    if c.fld (AXn_CFG n) 7 0 ≤ x.streamCnt + 1 then
      let c1 := c.setAx n { x with streamCnt := 0 }
      let sk := c.fld (AXn_CFG n) 12 8
      let full := decide (8 ≤ (c.sk sk).feed.length)
      let c2 := c1.feedPush sk (w32i (posOf x.nxt.p / 65536))
      if full then c2.axCause n 5 else c2
    else c.setAx n { x with streamCnt := x.streamCnt + 1 }
  else c

/-- Whether an axis has nothing to do at an update instant. -/
def Chip.axisIdle (c : Chip) (n : Nat) : Bool :=
  c.axState n == 0 && (c.ax n).cmds.isEmpty && c.fld (AXn_CFG n) 29 28 == 0

/-- An axis's update instant (R301): faults, the shaft's state, commands; then the next command. -/
def Chip.axisInstant (c : Chip) (n u : Nat) : Chip :=
  if c.axisIdle n then c
  else
    let c1 := c.axisBegin n u
    let sh := c1.shaft (c1.fld (AXn_CFG n) 27 24)
    let c2 := if (c1.ax n).bound && (sh.st == .lost || sh.st == .idle) then
        c1.axisFault n u 3 (c1.ax n).cur else c1
    let c3 := (c2.setAx n { c2.ax n with cmds := [] }).axisCommands n u (c2.ax n).cmds
    (c3.axisNext n u).axisStream n

/-- The update instant of MOT that is due, if one is. With every axis idle, and after line time has been stepped back
(R57), the present one is taken at once. -/
def Chip.motDue (c : Chip) : Option Nat :=
  if c.ltUs = c.mot.u then none
  else if c.ltUs < c.mot.u ∨ (List.range 32).all c.axisIdle then some c.ltUs
  else some (c.mot.u + 1)

/-- The update instant of MOT (R300, R301). -/
def motionInstant (c : Chip) : Chip :=
  match c.motDue with
  | none => c
  | some u =>
    let c1 := (List.range 32).foldl (fun c n => c.axisInstant n u) c
    { c1 with mot := { c1.mot with u := u } }

/-- An axis's fault with this cause at the instant that is due, ahead of the rest of the instant (R323, R324). -/
def axisFaultDue (c : Chip) (n cause : Nat) : Chip :=
  match c.motDue with
  | none => c
  | some u =>
    let c1 := c.axisBegin n u
    if c.axState n ≠ 7 ∧ c1.axState n = 7 ∧ c1.fld (AXn_STAT n) 11 8 = cause then c1 else c

/-- A cam step from an angle event with position `p`, committed in the present interval (R312). -/
def camStep (c : Chip) (n p : Nat) : Chip :=
  let x := c.ax n
  let u := c.mot.u
  let s := c.camSet n
  if c.axState n ≠ 5 ∨ x.bound = false then c
  else if wbit (c.camCfg n s) 31 then
    if c.bit (AXn_STAT n) 28 then c.axCause n 6
    else ((c.setAx n { x with theta0 := p }).setBit (AXn_STAT n) 28 true).axisNext n u
  else if c.bit (AXn_STAT n) 27 then
    match c.shaftTerm n (u + 1) with
    | (none, c1) => (c1.axisFault n u 4 x.cur).axisNext n u
    | (some old, c1) =>
      let c2 := ((c1.setAx n { c1.ax n with theta0 := p }).setBit (AXn_STAT n) 27 false).setFld
        (AXn_STAT n) 26 26 (1 - s)
      match c2.shaftTerm n (u + 1) with
      | (none, c3) => (c3.axisFault n u 4 x.cur).axisNext n u
      | (some new, c3) =>
        (c3.axisShift n (u + 1) ⟨old.p - new.p, old.v - new.v, old.a - new.a⟩).axisNext n u
  else c

/-- MOT's frozen path resolved: it serves again and the faults stand; a resume makes the read again, which may freeze
the path again (R315, R374, R376). -/
def motResolve (c : Chip) (action : Nat) : Chip :=
  let c1 := { c with mot := { c.mot with camFrozen := none } }
  match c.mot.camFrozen with
  | some a => if action = 1 then (c1.camRead a).2 else c1
  | none => c1

/-! ### Steps -/

/-- A step generator. -/
def Chip.stepGen (c : Chip) (m : Nat) : StepGen := tblGet .reset c.mot.steps m

/-- The step that is due in the present interval: forward or not, and its due time in 4 ns units of line time
(R317). The command is followed from the start of the interval, or from the instant at which the last step was due. -/
def Chip.stepDue (c : Chip) (m : Nat) : Option (Bool × Nat) :=
  let x := c.ax (c.fld (STm_CFG m) 20 16)
  let p0 := posOf x.cur.p
  let p1 := posOf x.nxt.p
  let d0 := sext 48 (wrap 48 (p0 - sext 32 (c.reg (STm_POS m)).toNat * 65536))
  let d1 := d0 + (p1 - p0)
  let base : Nat := c.mot.u * 250
  let since := max base (c.stepGen m).lastDue
  let d := d0 + (p1 - p0) * ((min 250 (since - base) : Nat) : Int) / 250
  let cross (from_ gain : Int) : Nat := base + (roundDiv ((65536 - from_) * 250) gain.toNat).toNat
  if 65536 ≤ d then some (true, since)
  else if d ≤ -65536 then some (false, since)
  else if 65536 ≤ d1 then some (true, cross d0 (p1 - p0))
  else if d1 ≤ -65536 then some (false, cross (-d0) (p0 - p1))
  else none

/-- The steps a generator owes now (R318). -/
def Chip.stepsOwed (c : Chip) (m : Nat) : Nat :=
  let x := c.ax (c.fld (STm_CFG m) 20 16)
  let p0 := posOf x.cur.p
  let t : Int := ((c.ltNs : Int) - c.mot.u * 1000)
  let p := p0 + (posOf x.nxt.p - p0) * clamp t 0 1000 / 1000
  (sext 48 (wrap 48 (p - sext 32 (c.reg (STm_POS m)).toNat * 65536))).natAbs / 65536

/-- Whether a step generator follows its axis (R317, R318). -/
def Chip.stepRuns (c : Chip) (m : Nat) : Bool :=
  let n := c.fld (STm_CFG m) 20 16
  c.bit (STm_CFG m) 31 && c.axState n != 0 && c.fld (AXn_CFG n) 31 30 == 2

def Chip.setStepGen (c : Chip) (m : Nat) (g : StepGen) : Chip :=
  { c with mot := { c.mot with steps := tblSet .reset c.mot.steps m g } }

/-- The instant `k` units after a generator's last step (R318). -/
def StepGen.after (g : StepGen) (k : Nat) : Nat :=
  match g.lastStep with
  | some l => l + k
  | none => 0

/-- When the DIR pin shows the direction of a step that is due (R318): DIRSU before the step, and no sooner than
DIRHOLD after the one before. -/
def Chip.dirInstant (c : Chip) (m : Nat) (g : StepGen) (fwd : Bool) (due : Nat) : Nat :=
  if g.fwd == fwd then g.dirAt else max (due - c.fld (STm_TIM m) 15 8) (g.after (c.fld (STm_TIM m) 23 16))

/-- A step generator with the DIR pin as it stands now: it changes ahead of the step that is due (R318). -/
def Chip.stepTurned (c : Chip) (m : Nat) : StepGen :=
  let g := c.stepGen m
  match if c.stepRuns m then c.stepDue m else none with
  | some (fwd, due) =>
    let at_ := c.dirInstant m g fwd due
    if at_ ≤ c.lt / 262144 then { g with fwd := fwd, dirAt := at_ } else g
  | none => g

/-- A step generator places its next step, or owes it while R318's spacings do not allow it (R317, R318). -/
def stepPulse (c : Chip) (m : Nat) : Chip :=
  if !c.stepRuns m then c
  else
    match c.stepDue m with
    | none => c.setReg (STm_LAG m) 0
    | some (fwd, due) =>
      let g := c.stepTurned m
      let c0 := c.setStepGen m g
      let dirAt := c.dirInstant m g fwd due
      let allowed := max (dirAt + c.fld (STm_TIM m) 15 8) (g.after (max 32 (2 * c.fld (STm_TIM m) 7 0)))
      let t := max due allowed
      let now := c.lt / 262144
      let flag (c : Chip) : Chip :=
        if due < allowed then (c.setBit (STm_FLAGS m) 0 true).axCause (c.fld (STm_CFG m) 20 16) 4 else c
      if now < due then c0
      else if now < t then (flag c0).setReg (STm_LAG m) (w32 (c.stepsOwed m))
      else
        let pos := sext 32 (c.reg (STm_POS m)).toNat + (if fwd then 1 else -1)
        let c1 := flag ((c0.setStepGen m ⟨fwd, dirAt, some t, due⟩).setReg (STm_POS m) (w32i pos))
        c1.setReg (STm_LAG m) (w32 (c1.stepsOwed m))

/-- The levels a step generator drives on STEP and DIR (R317, R318, R327). -/
def Chip.stepLevels (c : Chip) (m : Nat) : Bool × Bool :=
  let g := c.stepTurned m
  let now := c.lt / 262144
  let active := match g.lastStep with
    | some l => decide (l ≤ now) && decide (now < l + c.fld (STm_TIM m) 7 0)
    | none => false
  (active != c.bit (STm_CFG m) 30, g.fwd != c.bit (STm_CFG m) 29)

/-! ### Decoders -/

/-- New levels of A and B, after which they stayed for `stable` ns (R320). -/
def quadTransition (c : Chip) (m : Nat) (a b : Bool) (stable : Nat) : Chip :=
  let q := tblGet .reset c.mot.quads m
  let set (c : Chip) (q : QuadDec) : Chip :=
    { c with mot := { c.mot with quads := tblSet .reset c.mot.quads m q } }
  if c.bit (QEm_CFG m) 31 = false ∨ stable < c.fld (QEm_CFG m) 29 26 * 4 ∨ (a = q.a ∧ b = q.b) then c
  else if a ≠ q.a ∧ b ≠ q.b then (set c { q with a := a, b := b }).setBit (QEm_FLAGS m) 0 true
  else
    let up := (a != q.b) != c.bit (QEm_CFG m) 30
    let c1 := set c { q with a := a, b := b, last := some c.ltNs }
    let c2 := c1.setReg (QEm_CNT m) (if up then c.reg (QEm_CNT m) + 1 else c.reg (QEm_CNT m) - 1)
    match q.last with
    | some l => if c.ltNs < l + 20 then c2.setBit (QEm_FLAGS m) 1 true else c2
    | none => c2

/-- A new level of Z (R320). -/
def quadIndex (c : Chip) (m : Nat) (z : Bool) (stable : Nat) : Chip :=
  let q := tblGet .reset c.mot.quads m
  if c.bit (QEm_CFG m) 31 = false ∨ stable < c.fld (QEm_CFG m) 29 26 * 4 ∨ z = q.z then c
  else
    let c1 := { c with mot := { c.mot with quads := tblSet .reset c.mot.quads m { q with z := z } } }
    if z && c.bit (QEm_CFG m) 25 then
      (c1.setReg (QEm_IDX m) (c.reg (QEm_CNT m))).setBit (QEm_FLAGS m) 2 true
    else c1

/-! ### Registers -/

/-- Whether a master may write an axis's registers (R302). -/
def Chip.axMaster (c : Chip) (n m : Nat) : Bool := m == 0 || m == c.fld (AXn_OWNER n) 3 0

/-- A refused write (R301, R302). -/
def Chip.axRefused (c : Chip) (n : Nat) : Chip := (c.axCause n 3).done

/-- A write of AXn_CMD: the command is registered with the values it uses (R301, R305). -/
def axisCmdWrite (c : Chip) (m n : Nat) (v : W32) : Chip :=
  if !c.axMaster n m then c.refuse
  else if 1 < ((List.range 9).filter fun i => wbit v i).length then c.axRefused n
  else if wfld v 8 0 = 0 then c.done
  else
    let x := c.ax n
    let k : MotCmd := ⟨c.ltUs, v, c.pair (AXn_TGT_LO n), c.pair (AXn_VTGT_LO n), c.axisLims n,
      sext 32 (c.reg (AXn_GEARNUM n)).toNat, (c.reg (AXn_GEARDEN n)).toNat⟩
    (c.setAx n { x with cmds := x.cmds ++ [k] }).done

/-- A commit of AXn_SETPOS_LO (R535). -/
def setposCommit (c : Chip) (m n : Nat) (v : W32) : Chip :=
  if !c.axMaster n m then c.refuse
  else if 2 ≤ c.axState n then c.axRefused n
  else
    let c1 := c.plainWrite m (AXn_SETPOS_LO n) v
    let p := c1.reg64 (AXn_SETPOS_LO n)
    let at_ := ofPos (sext 64 p)
    let x := c1.ax n
    let c2 := c1.setAx n { x with plan := .hold at_, cur := .rest at_, nxt := .rest at_, xprev := none }
    ((c2.setReg64 (AXn_CMDPOS_LO n) p).setReg64 (AXn_ACTPOS_LO n) p).done

/-- A commit of AXn_PHASE_LO: the offset moves to GOFS, and the residual pays it out (R309). -/
def phaseCommit (c : Chip) (m n : Nat) (v : W32) : Chip :=
  if !c.axMaster n m then c.refuse
  else if (c.axState n ≠ 4 ∧ c.axState n ≠ 5) ∨ (c.ax n).bound = false then c.axRefused n
  else
    let c1 := c.plainWrite m (AXn_PHASE_LO n) v
    let ph := c1.pair (AXn_PHASE_LO n)
    let c2 := c1.setReg64 (AXn_GOFS_LO n) (wrap 64 (c1.pair (AXn_GOFS_LO n) + ph))
    (c2.axisShift n (c.mot.u + 1) ⟨-ofPos ph, 0, 0⟩).done

/-- A commit of AXn_SDEC_LO or AXn_SJERK_LO (R314). -/
def rampCommit (c : Chip) (m n a : Nat) (v : W32) : Chip :=
  if v = 0 ∧ c.stagedPart (a + 4) = 0 ∧ c.axState n ≠ 0 then c.axRefused n else c.plainWrite m a v

/-- A write of an axis's register, by its offset (R302, R327). -/
def axRegWrite (c : Chip) (m n r : Nat) (v : W32) : Chip :=
  let a := AXn_CFG n + r
  if r = 0x08 then axisCmdWrite c m n v
  else if r = 0xC4 then actinWrite c n v
  else if r = 0x04 ∨ r = 0x0C ∨ r = 0x10 ∨ (0x9C ≤ r ∧ r ≤ 0xC0) then c.plainWrite m a v
  else if !c.axMaster n m then c.refuse
  else
    match r with
    | 0x00 =>
      if c.axState n ≠ 0 then c.axRefused n
      else c.plainWrite m a (if wfld v 7 0 = 0 then wsetFld v 7 0 1 else v)
    | 0x48 => rampCommit c m n a v
    | 0x50 => rampCommit c m n a v
    | 0x68 => phaseCommit c m n v
    | 0x88 => setposCommit c m n v
    | 0x94 => c.plainWrite m a (if wfld v 15 0 = 0 then wsetFld v 15 0 1 else v)
    | 0xCC =>
      let b := wfld v 5 0
      c.plainWrite m a (if b < 8 ∨ 32 < b then wsetFld v 5 0 32 else v)
    | _ => c.plainWrite m a v

/-- What a MOT register shows where it is not a stored value. -/
def motLive (c : Chip) (a : Nat) : W32 :=
  let o := a - 0x400A0000
  if 0x1000 ≤ o ∧ o < 0x3000 ∧ o % 0x100 = 0xB0 then w32 c.mot.u else c.reg a

/-- A write to a MOT register. -/
def motWrite (c : Chip) (m a : Nat) (v : W32) : Chip :=
  let o := a - 0x400A0000
  if 0x1000 ≤ o ∧ o < 0x3000 then axRegWrite c m ((o - 0x1000) / 0x100) (o % 0x100) v
  else if 0x4000 ≤ o ∧ o < 0x4200 ∧ o % 0x20 = 4 then
    c.plainWrite m a (if wfld v 7 0 < 2 then wsetFld v 7 0 2 else v)
  else c.plainWrite m a v

end Sys2Proof.Machine
end

