-- ==== Sys2Proof/Machine/Mem.lean ====
section
/-!
DEFINITION. MEM: bank owners (R28, R29, R357), the atomic port and the locks (R359 to R362), the scrubber
(R365), the march test with row repair (R367 to R371), and the registers of R383 and R384.
-/
namespace Sys2Proof.Machine

/-! ### Bank owners -/

/-- The owner group of a bank after the handovers requested so far (R29). -/
def Chip.ownerAfter (c : Chip) (b : Nat) : Nat :=
  match (c.memc.handovers.filter fun h => h.bank == b).getLast? with
  | some h => h.og
  | none => c.fld (MEM_BOWN b) 3 0

/-- A write of MEM_BOWNn (R28, R29). -/
def bankOwnerWrite (c : Chip) (m b : Nat) (v : W32) : Chip :=
  if m = 0 ∨ c.inGroup m (c.ownerAfter b) then
    { c with memc := { c.memc with handovers := c.memc.handovers ++ [Handover.mk b (wfld v 3 0) m] } }.done
  else c.refuse

/-- The oldest handover of a bank takes effect (R28, R357). -/
def Chip.ownerTakes (c : Chip) (b : Nat) : Option Nat × Chip :=
  match c.memc.handovers.find? fun h => h.bank == b with
  | none => (none, c)
  | some h =>
    let c1 := { c with memc := { c.memc with handovers := c.memc.handovers.erase h } }
    (some h.og, c1.setFld (MEM_BOWN b) 3 0 h.og)

/-! ### Atomics and locks -/

/-- The word read of an access that also writes it: its corrected error is counted once (R363, R364). -/
def Chip.ceMended (c : Chip) (a : Nat) : Chip :=
  { c with memc := { c.memc with ceWords := c.memc.ceWords.filter fun w => !(wordsOf a 4).contains w } }

/-- An addition or exchange at the bank as one access (R222, R359): the old word, or why it was refused. -/
def Chip.atomicAt (c : Chip) (m a : Nat) (swap : Bool) (opnd : W32) : Except AccErr W32 × Chip :=
  match c.memRead m a 4 with
  | (.error e, c1) => (.error e, c1)
  | (.ok bs, c1) =>
    let old := w32 (leNat bs)
    let new := leBytes 4 (if swap then opnd else old + opnd).toNat
    match (c1.ceMended a).memWrite m a new with
    | (some e, _) => (.error e, (c1.memWrite m a new).2)
    | (none, c2) => (.ok old, c2)

/-- A read of MEM_AT_FADD or MEM_AT_SWAP (R359). -/
def atomicRead (c : Chip) (m : Nat) (swap : Bool) : Chip :=
  let a := (tblGet 0 c.memc.atAddr m).toNat
  let sram : Bool := match regionOf a with
    | .sram b => c.ownsBank m b && !c.bit (MEM_BSTAT b) 31
    | _ => false
  if a % 4 = 0 ∧ sram ∧ c.segAllows m a 4 3 then
    match c.atomicAt m a swap (tblGet 0 c.memc.atOpnd m) with
    | (.ok old, c1) => c1.answer (.ok old.toNat)
    | (.error e, c1) => c1.answer e.result
  else (c.memCause 7).refuse

/-- A read of MEM_LKn (R360). -/
def lockRead (c : Chip) (m n : Nat) : Chip :=
  let v := c.fld (MEM_LK n) 4 0
  if v = 0 then (c.setReg (MEM_LK n) (w32 (m + 1))).answer (.ok 0) else c.answer (.ok v)

/-- A write of MEM_LKn (R362). -/
def lockWrite (c : Chip) (m n : Nat) (v : W32) : Chip :=
  let h := c.fld (MEM_LK n) 4 0
  if wfld v 4 0 = 0 ∧ (m = 0 ∨ h = m + 1) then (c.setReg (MEM_LK n) 0).done else (c.memCause 7).refuse

/-! ### The scrubber -/

/-- The uncorrectable word found by a read, if any, reported (R364). -/
def Chip.ueFound (c : Chip) : Option Nat → Chip
  | some w => c.ueErr w
  | none => c

/-- Line `l` of a bank scrubbed: a correctable error mended and counted, an uncorrectable one reported (R365). -/
def Chip.scrubBank (l : Nat) (c : Chip) (b : Nat) : Chip :=
  let a := 0x10000000 + b * 0x80000 + l * 32
  let c1 := if (wordsOf a 32).any fun w => c.memc.ceWords.contains w then
      ({ c with memc := { c.memc with
          ceWords := c.memc.ceWords.filter fun w => !(wordsOf a 32).contains w } }.inc MEM_ECCCE).memCause 2
    else c
  c1.ueFound ((wordsOf a 32).find? fun w => c.memc.ueWords.contains w)

/-- One line of each bank read and corrected, once MEM_SCRUB µs have passed since the last (R365). -/
def scrubLine (c : Chip) : Chip :=
  if c.bit MEM_CTL 0 && decide (c.memc.scrubAt + (c.reg MEM_SCRUB).toNat * 65536000 ≤ c.lt) then
    let l := c.memc.scrubLine
    let c1 := (List.range 32).foldl (Chip.scrubBank l) c
    { c1 with memc := { c1.memc with scrubLine := (l + 1) % 16384, scrubAt := c.lt } }
  else c

/-! ### March test -/

/-- The first 64-byte line of a bank that the march engine's segments do not cover (R372, R374). -/
def Chip.marchUncovered (c : Chip) (b : Nat) : Option Nat :=
  let base := 0x10000000 + b * 0x80000
  if c.segAllows 14 base 0x80000 3 then none
  else ((List.range 8192).map fun i => base + 64 * i).find? fun a => !c.segAllows 14 a 64 3

/-- The run meets its banks in turn: the first access that a segment refuses freezes the engine (R374). -/
def Chip.marchRun (c : Chip) (r : MarchRun) : Chip :=
  match r.banks.findSome? c.marchUncovered with
  | some a =>
    ({ c with memc := { c.memc with march := some { r with frozen := some a } } }).freezeAt 0x11 14 a 64 3
  | none => { c with memc := { c.memc with march := some { r with frozen := none } } }

/-- A write of MEM_MARCH_CTL: while a run is in progress GO is ignored, and the run keeps its options (R367, R384). -/
def marchCtlWrite (c : Chip) (m : Nat) (v : W32) : Chip :=
  if m ≠ 0 then c.refuse
  else
    let alg := if wfld v 9 8 = 1 then 1 else 0
    let opts := at_ alg 8 + at_ (b2n (wbit v 4)) 4 + at_ (b2n (wbit v 3)) 3
    if wbit v 31 && c.memc.march.isNone then
      let sel := (List.range 32).filter fun b => c.bit MEM_MARCH_BANKS b
      let own := sel.filter fun b => c.ownsBank 14 b
      let c1 := (List.range 32).foldl (fun c b => c.setBit (MEM_BSTAT b) 30 (sel.contains b && !own.contains b)) c
      let c2 := own.foldl (fun c b => c.setFld (MEM_BSTAT b) 15 8 0) c1
      ((c2.setReg MEM_MARCH_CTL (w32 (2 ^ 30 + opts))).marchRun ⟨own, alg, wbit v 4, wbit v 3, none⟩).done
    else (c.setReg MEM_MARCH_CTL (w32 (at_ (c.fld MEM_MARCH_CTL 30 29) 29 + opts))).done

/-- The spare rows of a bank in use (R370). -/
def Chip.sparesUsed (c : Chip) (b : Nat) : List Nat := c.memc.spares.filterMap fun s => if s.1 = b then some s.2.1 else none

/-- A spare takes a faulty row's place (R370): whether one was free. -/
def Chip.spareRow (c : Chip) (b row : Nat) (bad : List Nat) : Bool × Chip :=
  let old := c.memc.spares.filter fun s => !(s.1 == b && s.2.2 == row)
  match (List.range 8).find? fun s => !bad.contains s && !(c.sparesUsed b).contains s with
  | some s => (true, { c with memc := { c.memc with spares := old ++ [(b, s, row)] } })
  | none => (false, c)

/-- A bank's result applied (R368, R370). -/
def Chip.marchBank (c : Chip) (r : MarchRun) (x : BankResult) : Chip :=
  let b := x.bank
  if !r.banks.contains b then c
  else
    let c0 := (if r.preserve then c.wordsRead fun w => regionOf w == .sram b else c).setFld (MEM_BSTAT b) 15 8 (satTo 255 x.rows.length)
    let (ok, c1) := if r.repair then
        x.rows.foldl (fun (acc : Bool × Chip) row =>
          let (ok, c') := acc.2.spareRow b row x.badSpares
          (acc.1 && ok, c')) (true, c0)
      else (!c.bit (MEM_BSTAT b) 31, c0)
    let c2 := if ok then c1.setBit (MEM_BSTAT b) 31 false
      else if c1.bit (MEM_BSTAT b) 31 then c1 else (c1.setBit (MEM_BSTAT b) 31 true).memCause 5
    let here (w : Nat) : Bool := regionOf w == .sram b
    if r.preserve then
      { c2 with memc := { c2.memc with ceWords := c2.memc.ceWords.filter fun w => !here w } }
    else
      { c2 with
        free := c2.free + 1
        mem := c2.mem.filter fun e => !here e.1
        memc := { c2.memc with
          undef := tblSet 0 c2.memc.undef b (c2.free + 1)
          ceWords := c2.memc.ceWords.filter fun w => !here w
          ueWords := c2.memc.ueWords.filter fun w => !here w } }

/-- The 520 bytes of a copy of the repair map (R371). -/
def Chip.repairMap (c : Chip) : List Byte :=
  let entries := (List.range 256).flatMap fun i =>
    match c.memc.spares.find? fun s => s.1 == i / 8 && s.2.1 == i % 8 with
    | some s => leBytes 2 (2 ^ 15 + s.2.2)
    | none => leBytes 2 0
  let failed := (List.range 32).foldl (fun s b => if c.bit (MEM_BSTAT b) 31 then s + 2 ^ b else s) 0
  entries ++ leBytes 4 (crc32c entries) ++ leBytes 4 failed

/-- The run is over (R369, R371); B31 failing it leaves the host no rings (R421). -/
def Chip.marchEnds (c : Chip) (r : MarchRun) : Chip :=
  let c1 := { c with memc := { c.memc with march := none } }
  let c2 := if r.repair && c1.bit MEM_STAT 0 then
      (c1.mramWrite 0x20000000 c1.repairMap).mramWrite 0x20000800 c1.repairMap else c1
  let c3 := if c2.bit (MEM_BSTAT 31) 31 then c2.setBit HIF_STAT 29 true else c2
  ((c3.setBit MEM_MARCH_CTL 30 false).setBit MEM_MARCH_CTL 29 true).memCause 4

/-- The march run ends with these results (R369). -/
def marchDone (c : Chip) (xs : List BankResult) : Chip :=
  match c.memc.march with
  | none => c
  | some r => if r.frozen.isSome then c else (xs.foldl (fun c x => c.marchBank r x) c).marchEnds r

/-- A resolution of the march engine's freeze (R374). -/
def marchResolve (c : Chip) (action : Nat) : Chip :=
  match c.memc.march with
  | none => c
  | some r =>
    match r.frozen with
    | none => c
    | some a =>
      if action = 1 then c.marchRun r
      else if action = 2 then
        (c.setBit (MEM_BSTAT (bankOf a)) 30 true).marchRun { r with banks := r.banks.filter fun b => b != bankOf a }
      else c.marchEnds { r with repair := false }

/-- The first copy of the repair map whose CRC holds is applied at RESET; one with a word that cannot be read has none
(R363, R371). -/
def loadRepairMap (c : Chip) : Chip :=
  let good (a : Nat) : Bool := c.readable a 520 && crc32c (c.bytes a 512) == (c.word (a + 512)).toNat
  let apply (c : Chip) (a : Nat) : Chip :=
    let ss := (List.range 256).filterMap fun i =>
      let e := leNat (c.bytes (a + 2 * i) 2)
      if 2 ^ 15 ≤ e then some (i / 8, i % 8, e % 512) else none
    let failed := c.word (a + 516)
    (List.range 32).foldl (fun c b => c.setBit (MEM_BSTAT b) 31 (wbit failed b))
      { c.setBit MEM_STAT 1 true with memc := { c.memc with spares := ss } }
  let first := c.mramRead 0x20000000 520
  let second := first.mramRead 0x20000800 520
  if good 0x20000000 then apply first 0x20000000
  else if good 0x20000800 then apply second 0x20000800
  else second.setBit MEM_STAT 2 true

/-! ### Registers -/

/-- What a MEM register shows to a master where it is not a stored value. -/
def memLive (c : Chip) (m a : Nat) : W32 :=
  let o := a - 0x400C0000
  if o = 0x30 then tblGet 0 c.memc.atAddr m
  else if o = 0x34 then tblGet 0 c.memc.atOpnd m
  else if 0x100 ≤ o ∧ o < 0x180 then wsetFld (c.reg a) 3 0 (c.sparesUsed ((o - 0x100) / 4)).length
  else c.reg a

/-- A write to a MEM register. -/
def memRegWrite (c : Chip) (m a : Nat) (v : W32) : Chip :=
  let o := a - 0x400C0000
  if o = 0x30 then { c with memc := { c.memc with atAddr := tblSet 0 c.memc.atAddr m v } }.done
  else if o = 0x34 then { c with memc := { c.memc with atOpnd := tblSet 0 c.memc.atOpnd m v } }.done
  else if o = 0x40 then marchCtlWrite c m v
  else if 0x200 ≤ o ∧ o < 0x280 then bankOwnerWrite c m ((o - 0x200) / 4) v
  else if 0x400 ≤ o ∧ o < 0x800 then lockWrite c m ((o - 0x400) / 4) v
  else c.plainWrite m a v

end Sys2Proof.Machine
end

