-- ==== Sys2Proof/Machine/Tsk.lean ====
section
/-!
DEFINITION. TSK: tasks (R269 to R271), modes (R272, R273), cycle frames (R274 to R278), station slots (R280 to
R282), the variable map (R284), forces (R285 to R289), value changes (R290), the program swap (R291 to R294), events and
registers (R295 to R297).
-/
namespace Sys2Proof.Machine

/-- The event source of each TSK_EVCAUSE bit (R295). -/
def tskSource : Nat → Nat
  | 13 => 15 | 12 => 14 | 11 => 14 | 10 => 13 | 9 => 12 | 8 => 11 | 7 => 10 | 6 => 9 | 5 => 8 | 4 => 15 | 3 => 14
  | 2 => 8 | _ => 14

/-- A TSK_EVCAUSE bit set, raising its source. -/
def Chip.tskCause (c : Chip) (i : Nat) : Chip := c.flag TSK_EVCAUSE i (tskSource i)

/-- A frame counter increased, with FRAMEFAULT (R295). -/
def Chip.frameFault (c : Chip) (a : Nat) : Chip := (c.inc a).tskCause 5

def Chip.fr (c : Chip) (n : Nat) : FrameRun := tblGet .reset c.tsk.frames n

def Chip.setFr (c : Chip) (n : Nat) (f : FrameRun) : Chip :=
  { c with tsk := { c.tsk with frames := tblSet .reset c.tsk.frames n f } }

/-- The mode in force (R272): 0 STOP, 1 STARTUP, 2 RUN, 3 TEST, 4 RECOVERY. -/
def Chip.tskMode (c : Chip) : Nat := c.fld TSK_STAT 2 0

/-! ### The I/O image unit's accesses (R275) -/

/-- A read of the unit, as TC0; a refused read delivers nothing. -/
def Chip.ioRead (c : Chip) (a n : Nat) : Except AccErr (List Byte) × Chip := c.dmaRead 1 a n

/-- A write of the unit, as TC0; a refused write changes nothing. -/
def Chip.ioWrite (c : Chip) (a : Nat) (bs : List Byte) : Chip := (c.dmaWrite 1 a bs).2

/-- An area of memory copied by the unit as words of 8 bytes; a word that a check refuses keeps what it had (DESIGN
CHOICE, log entry 165). -/
def Chip.ioCopy (c : Chip) (src dst words : Nat) : Chip :=
  (List.range words).foldl (fun c i =>
    match c.ioRead (src + 8 * i) 8 with
    | (.ok bs, c1) => c1.ioWrite (dst + 8 * i) bs
    | (.error _, c1) => c1) c

/-- The banks and groups of a frame (R297). -/
def Chip.ibank (c : Chip) (n : Nat) : Nat := c.fld (TSK_FRn_BANKS n) 4 0
def Chip.obank (c : Chip) (n : Nat) : Nat := c.fld (TSK_FRn_BANKS n) 12 8
def Chip.pgrp (c : Chip) (n : Nat) : Nat := c.fld (TSK_FRn_BANKS n) 19 16
def Chip.tgrp (c : Chip) (n : Nat) : Nat := c.fld (TSK_FRn_BANKS n) 27 24

/-- The address of a bank. -/
def bankAddr (b : Nat) : Nat := 0x10000000 + b * 0x80000

/-- The place of a frame's input image, output header and status block. -/
def Chip.inputAddr (c : Chip) (n : Nat) : Nat := bankAddr (c.ibank n) + c.fld (TSK_FRn_IIMG n) 12 0 * 64
def Chip.outputAddr (c : Chip) (n : Nat) : Nat := bankAddr (c.obank n) + c.fld (TSK_FRn_OIMG n) 12 0 * 64
def Chip.statusAddr (c : Chip) (n : Nat) : Nat := bankAddr (c.ibank n) + c.fld (TSK_FRn_ISTOFS n) 12 0 * 64

/-! ### The variable map -/

/-- A map entry (R284). -/
structure VarEntry where
  id : Nat
  kind : Nat
  forceable : Bool
  size : Nat
  addr : Nat
  feed : Nat
  deriving DecidableEq, Repr

/-- A map entry from its 16 bytes. -/
def VarEntry.of (bs : List Byte) : VarEntry :=
  let w (i : Nat) := leNat (bytesAt bs (4 * i) 4)
  ⟨w 0, nfld (w 1) 31 28, nbit (w 1) 27, nfld (w 1) 19 0, w 2, w 3⟩

/-- The entries of a map of n entries at an address, or the refusal of a read. -/
def Chip.readMap (c : Chip) (a n : Nat) : Except AccErr (List VarEntry) × Chip :=
  (List.range n).foldl (fun acc i =>
    match acc.1 with
    | .error _ => acc
    | .ok es =>
      match acc.2.ioRead (a + 16 * i) 16 with
      | (.ok bs, c1) => (.ok (es ++ [VarEntry.of bs]), c1)
      | (.error e, c1) => (.error e, c1)) (.ok [], c)

/-- The active map's entry of an ID. -/
def Chip.mapFind (c : Chip) (id : Nat) : Option VarEntry :=
  match (c.readMap (c.fld TSK_VMAP 31 4 * 16) (c.fld TSK_VMAPN 15 0)).1 with
  | .ok es => es.find? fun e => e.id == id
  | .error _ => none

/-- Whether a variable's address is a multiple of its SIZE. -/
def VarEntry.aligned (e : VarEntry) : Bool := e.size == 0 || e.addr % e.size == 0

/-- Whether a size and address can be forced (R285). -/
def VarEntry.simple (e : VarEntry) : Bool :=
  (e.size == 1 || e.size == 2 || e.size == 4 || e.size == 8) && e.aligned

/-! ### Forces -/

def Chip.fcOn (c : Chip) (f : Nat) : Bool := c.bit (TSK_FCf_CTL f) 31
def Chip.fcValue (c : Chip) (f : Nat) : Nat := join64 (c.reg (TSK_FCf_VAL_HI f)) (c.reg (TSK_FCf_VAL_LO f))

/-- A force entry's value written to its variable as one access (R287). -/
def Chip.forceWrite (c : Chip) (f : Nat) : Chip :=
  c.ioWrite (c.reg (TSK_FCf_ADDR f)).toNat (leBytes (c.fld (TSK_FCf_CTL f) 3 0) (c.fcValue f))

/-- Whether TGRP owns a bank: the TGRP of each enabled frame that has an image in it, or of any frame where none has
(R287; DEDUCED, log entry 165). -/
def Chip.tgrpOwns (c : Chip) (b : Nat) : Bool :=
  let owner := c.fld (MEM_BOWN b) 3 0
  let uses := (List.range 8).filter fun n => c.bit (TSK_FRn_CFG n) 31 && (c.ibank n == b || c.obank n == b)
  if uses.isEmpty then (List.range 8).any fun n => c.tgrp n == owner else uses.all fun n => c.tgrp n == owner

/-- Whether an entry lies in a bank that TGRP does not own now (R287). -/
def Chip.forceSkipped (c : Chip) (f : Nat) : Bool :=
  match regionOf (c.reg (TSK_FCf_ADDR f)).toNat with
  | .sram b => !c.tgrpOwns b
  | _ => false

/-- The forces of a release, a task end or a handover (R287). -/
def Chip.writeForces (c : Chip) : Chip :=
  (List.range 64).foldl (fun c f => if c.fcOn f && !c.forceSkipped f then c.forceWrite f else c) c

/-- Whether any force is set (R289). -/
def Chip.forced (c : Chip) : Bool := (List.range 64).any fun f => c.fcOn f

/-- The level at FORCE_IND_N: low while a force is set (R289). -/
def Chip.forceIndN (c : Chip) : Bool := !c.forced

/-- A force entry cleared or released (R288, R289). -/
def Chip.forceDrop (c : Chip) (f : Nat) : Chip :=
  (c.setReg (TSK_FCf_CTL f) (c.reg (TSK_FCf_CTL f) &&& 0x0000000F)).tskCause 13

/-- FCf_CTL.EN = 1 (R285): the entry takes the value's parts as they were last written (DEDUCED, log entry 166). -/
def forceSet (c : Chip) (f : Nat) : Chip :=
  let c := c.setReg (TSK_FCf_VAL_HI f) (c.stagedPart (TSK_FCf_VAL_HI f))
  let id := (c.reg (TSK_FCf_ID f)).toNat
  let other := (List.range 64).any fun g => g != f && c.fcOn g && c.reg (TSK_FCf_ID g) == c.reg (TSK_FCf_ID f)
  let refuse := (c.setBit (TSK_FCf_CTL f) 31 false).tskCause 4
  match c.mapFind id with
  | none => refuse
  | some e =>
    if e.kind ≠ 0 ∨ e.forceable = false ∨ e.simple = false ∨ other then refuse
    else ((c.setReg (TSK_FCf_ADDR f) (w32 e.addr)).setReg (TSK_FCf_CTL f) (w32 (2 ^ 31 + e.size))).tskCause 13

/-- FCf_CTL.EN = 0 (R288): a change that waited is written. -/
def forceClear (c : Chip) (f : Nat) : Chip :=
  if c.fcOn f then
    let c1 := if c.bit (TSK_FCf_CTL f) 30 then
        c.ioWrite (c.reg (TSK_FCf_ADDR f)).toNat
          (leBytes (c.fld (TSK_FCf_CTL f) 3 0) (join64 (c.reg (TSK_FCf_CHG_HI f)) (c.reg (TSK_FCf_CHG_LO f))))
      else c
    c1.forceDrop f
  else c

/-- A write of FCf_CTL (R285, R288). -/
def forceCtlWrite (c : Chip) (m f : Nat) (v : W32) : Chip :=
  if m ≠ 0 then c.refuse else (if wbit v 31 then forceSet c f else forceClear c f).done

/-! ### Tasks -/

/-- Whether a task is the error task of a frame. -/
def Chip.isErrTask (c : Chip) (k : Nat) : Bool :=
  (List.range 8).any fun n => c.bit (TSK_FRn_CFG n) 31 && c.bit (TSK_FRn_CFG n) 29 && c.fld (TSK_FRn_CFG n) 28 24 == k

/-- Whether the mode allows a task's release (R272). -/
def Chip.releaseAllowed (c : Chip) (k : Nat) : Bool :=
  match c.tskMode with
  | 1 => true | 2 => true | 3 => true | 4 => c.isErrTask k | _ => false

/-- A task's core and context. -/
def Chip.taskCtx (c : Chip) (k : Nat) : Nat × Nat := (1 + c.fld (TSK_TKk_CFG k) 24 24, c.fld (TSK_TKk_CFG k) 18 16)

/-- What became of a release. -/
inductive Released where
  | started | refused | ignored
  deriving DecidableEq, Repr

/-- A release refused (R270): OVR counts, and OVERRUN of each frame whose normal task it is. -/
def Chip.releaseRefused (c : Chip) (k : Nat) : Chip :=
  (List.range 8).foldl (fun c n =>
      if c.bit (TSK_FRn_CFG n) 31 && c.fld (TSK_FRn_CFG n) 20 16 == k then c.frameFault (TSK_FRn_OVERRUN n) else c)
    (c.setFld (TSK_TKk_STAT k) 15 0 (satTo 65535 (c.fld (TSK_TKk_STAT k) 15 0 + 1)))

/-- The release of a task (R270). -/
def Chip.release1 (c : Chip) (k : Nat) : Released × Chip :=
  let (core, x) := c.taskCtx k
  if !c.releaseAllowed k || !c.bit (TSK_TKk_CFG k) 31 then (.ignored, c)
  else if (c.ctx core x).st ≠ .halt then (.refused, c.releaseRefused k)
  else
    let c1 := c.writeForces
    let c2 := c1.setCtx core x { c1.ctx core x with pc := c.fld (TSK_TKk_ENTRY k) 31 2 * 4, st := .ready }
    let c3 := c2.setBit (TSK_TKk_STAT k) 31 true
    (.started, { c3 with tsk := { c3.tsk with relTime := tblSet 0 c3.tsk.relTime k c.lt } })

/-- The handover of the cycle with this T becomes due (R277). -/
def Chip.handDue (c : Chip) (n t : Nat) (skipped errRan : Bool) : Chip :=
  let f := c.fr n
  c.setFr n { f with hands := f.hands ++ [⟨if t = f.t then .current else .past, t, skipped, errRan⟩] }

/-- The normal task of a frame released for the cycle with this T, whose error task ran or not (R270, R276). -/
def Chip.releaseNormal (c : Chip) (n t : Nat) (errRan : Bool) : Released × Chip :=
  match c.release1 (c.fld (TSK_FRn_CFG n) 20 16) with
  | (.started, c1) => (.started, c1.setFr n { c1.fr n with normalActive := true, normalT := t, normalErr := errRan })
  | r => r

/-- A frame's normal task released at T_j without an error task (R276). Where another task has its context, no task of
the cycle runs, and the handover follows at once (DESIGN CHOICE, log entry 162). -/
def Chip.releaseOnly (c : Chip) (n : Nat) : Released × Chip :=
  match c.releaseNormal n (c.fr n).t false with
  | (.refused, c1) => (.refused, if (c1.fr n).normalActive then c1 else c1.handDue n (c1.fr n).t true false)
  | r => r

/-- A frame's tasks released, the error task first; a first release after T_j counts (R276). -/
def Chip.releaseFrame (c : Chip) (n : Nat) : Chip :=
  let f := c.fr n
  let c0 := c.setFr n { f with releaseWaits := false }
  let first : Released × Chip :=
    if c0.bit (TSK_FRn_STAT n) 31 && c0.bit (TSK_FRn_CFG n) 29 then
      match c0.release1 (c0.fld (TSK_FRn_CFG n) 28 24) with
      | (.started, c1) =>
        (.started, (c1.setFr n { c1.fr n with errActive := true, errT := f.t }).setBit (TSK_FRn_STAT n) 31 false)
      | (_, c1) => c1.releaseOnly n
    else c0.releaseOnly n
  if first.1 = .started ∧ f.t < c.ltNs then first.2.frameFault (TSK_FRn_STARTLATE n) else first.2

/-- Whether cyclic releases wait for the end of the start-up task (R273). -/
def Chip.initHolds (c : Chip) : Bool := c.tsk.initWait.isSome && decide (1 ≤ c.tskMode) && decide (c.tskMode ≤ 3)

/-- The line cycle of a frame in ns (R274). -/
def Chip.lineCycle (c : Chip) (n : Nat) : Nat := 31250 * 2 ^ c.fld (TSK_FRn_CFG n) 3 0

/-- The first boundary later than the present. -/
def Chip.nextBoundary (c : Chip) (n : Nat) : Nat :=
  let t0 := c.reg64 (TSK_FRn_T0_LO n)
  if c.ltNs < t0 then t0 else t0 + ((c.ltNs - t0) / c.lineCycle n + 1) * c.lineCycle n

/-- A cycle of a frame begins at T (R276). -/
def Chip.beginCycle (c : Chip) (n t next : Nat) : Chip :=
  let f := c.fr n
  let c1 := c.setReg (TSK_FRn_CYCLE n) (c.reg (TSK_FRn_CYCLE n) + 1)
  let c2 := (c1.setBit (TSK_FRn_STAT n) 29 f.handedEarly).setBit (TSK_FRn_STAT n) 30
    (f.coming && !f.evalDue && !f.evaluating)
  let wait := f.evaluating || c.initHolds
  let c3 := c2.setFr n { f with
    t := t, next := next, begun := true, checked := false, releaseWaits := wait, coming := false, handedEarly := false
    hands := f.hands.map fun h => { h with cycle := if h.cycle = .coming then .current else .past } }
  if wait then c3 else c3.releaseFrame n

/-- T_j of a frame on the line-time schedule (R276). -/
def frameBoundary (c : Chip) (n : Nat) : Chip :=
  let f := c.fr n
  if c.bit (TSK_FRn_CFG n) 31 ∧ c.bit (TSK_FRn_CFG n) 30 = false ∧ f.next ≤ c.ltNs then
    c.beginCycle n f.next (c.nextBoundary n)
  else c

/-- An angle event's release of a task (R270): it starts the cycle of a frame with SRC = 1. -/
def Chip.angleRelease (c : Chip) (k : Nat) : Chip :=
  match (List.range 8).find? fun n => c.bit (TSK_FRn_CFG n) 31 && c.bit (TSK_FRn_CFG n) 30 &&
      c.fld (TSK_FRn_CFG n) 20 16 == k with
  | some n => c.beginCycle n c.ltNs 0
  | none => (c.release1 k).2

/-- A write of TSK_REL (R270, R271). -/
def taskReleaseWrite (c : Chip) (m : Nat) (v : W32) : Chip :=
  if 2 < m then c.refuse else (c.release1 (wfld v 4 0)).2.done

/-- A change written: to the variable, or to the entry that forces it (R288, R290). -/
def Chip.applyChange (c : Chip) (x : Change × Nat × Nat) : Chip :=
  let (ch, addr, size) := x
  match (List.range 64).find? fun f => c.fcOn f && (c.reg (TSK_FCf_ID f)).toNat == ch.id with
  | some f => ((c.setReg (TSK_FCf_CHG_LO f) (lo32 ch.value)).setReg (TSK_FCf_CHG_HI f) (hi32 ch.value)).setBit
      (TSK_FCf_CTL f) 30 true
  | none => if size = 0 then c else c.ioWrite addr (leBytes size ch.value)

/-- A batch for this task is written (R290). -/
def Chip.applyBatch (c : Chip) (k : Nat) : Chip :=
  match c.tsk.batch with
  | none => c
  | some b =>
    if b.task = k then
      let c1 := b.changes.foldl Chip.applyChange c
      { c1 with tsk := { c1.tsk with batch := none } }.setReg TSK_VC_STAT 0
    else c

/-- A frame whose task has ended (R275 to R277). -/
def Chip.frameTaskEnd (c : Chip) (n k ecode : Nat) : Chip :=
  let f := c.fr n
  if f.errActive && c.fld (TSK_FRn_CFG n) 28 24 == k then
    match (c.setFr n { f with errActive := false }).releaseNormal n f.errT true with
    | (.started, c1) => c1
    | (_, c1) => c1.handDue n f.errT true true
  else if f.normalActive && c.fld (TSK_FRn_CFG n) 20 16 == k then
    (c.setFr n { f with
      normalActive := false, evalDue := f.evalDue || f.evalAfterTask, evalAfterTask := false }).handDue
      n f.normalT (ecode == 1) f.normalErr
  else c

/-- The end of the task active on a context (R271): its code, its time, a batch, the forces, its frames. -/
def Chip.taskEnd (c : Chip) (core x : Nat) (trap : Bool) : Chip :=
  match (List.range 32).find? fun k => c.bit (TSK_TKk_STAT k) 31 && c.taskCtx k == (core, x) with
  | none => c
  | some k =>
    let code := if trap then 0xFF else (tblGet 0 (c.ctx core x).regs 1).toNat % 256
    let ns := (c.lt - tblGet 0 c.tsk.relTime k) / 65536
    let c1 := ((c.setBit (TSK_TKk_STAT k) 31 false).setFld (TSK_TKk_STAT k) 23 16 code).setReg (TSK_TKk_TIME k)
      (w32 (satTo 0xFFFFFFFF ns))
    let c2 := (c1.applyBatch k).writeForces
    let c3 := (List.range 8).foldl (fun c n => if c.bit (TSK_FRn_CFG n) 31 then c.frameTaskEnd n k code else c) c2
    if c3.tsk.initWait = some k then
      (List.range 8).foldl (fun c n => if (c.fr n).releaseWaits && !(c.fr n).evaluating then c.releaseFrame n else c)
        { c3 with tsk := { c3.tsk with initWait := none } }
    else c3

/-! ### Modes -/

/-- The mode changes (R273). -/
def Chip.setTskMode (c : Chip) (mode : Nat) : Chip :=
  let c1 := ((c.setFld TSK_STAT 2 0 mode).setFld TSK_MODE 2 0 mode).tskCause 11
  if mode = 1 then
    match c1.release1 (c.fld TSK_INITTASK 4 0) with
    | (.started, c2) => { c2 with tsk := { c2.tsk with initWait := some (c.fld TSK_INITTASK 4 0) } }
    | (_, c2) => c2
  else c1

/-- A mode request (R273). A program is active when a variable map is. -/
def tskModeRequest (c : Chip) (m mode : Nat) : Chip :=
  if m ≠ 0 then c.refuse
  else
    let old := c.tskMode
    let ok : Bool := match old, mode with
      | 0, 1 => c.sysState == 5 && c.fld TSK_VMAPN 15 0 != 0
      | 1, 2 => true | 3, 2 => true
      | 1, 3 => true | 2, 3 => true
      | 1, 0 => true | 2, 0 => true | 3, 0 => true
      | 4, 0 => true | 4, 1 => true
      | _, _ => false
    (if ok then c.setTskMode mode else c.tskCause 0).done

/-- RECOVERY after a double trap or a reset of a frozen TC (R273). -/
def Chip.tskRecovery (c : Chip) : Chip :=
  if c.tskMode = 1 ∨ c.tskMode = 2 ∨ c.tskMode = 3 then c.setTskMode 4 else c

/-- SYS_STATE leaves RUN (R273). -/
def Chip.tskLeaveRun (c : Chip) : Chip := if c.tskMode = 0 then c else c.setTskMode 0

/-! ### Frames: enable, exchange, evaluation, handover -/

/-- Whether a frame may be enabled with a configuration word (R274). -/
def Chip.frameOk (c : Chip) (n : Nat) (v : W32) : Bool :=
  let k := wfld v 3 0
  let tin := (c.reg (TSK_FRn_TIN n)).toNat
  let tout := (c.reg (TSK_FRn_TOUT n)).toNat
  let il := c.fld (TSK_FRn_IIMG n) 26 16
  let ol := c.fld (TSK_FRn_OIMG n) 26 16
  decide (k ≤ 10) && decide (1000 ≤ tin) && decide (1000 ≤ tout) && decide (tin + tout ≤ 31250 * 2 ^ k) &&
  c.ibank n != c.obank n &&
  decide (1 ≤ il) && decide (il ≤ 1024) && decide (1 ≤ ol) && decide (ol ≤ 1024) &&
  decide (c.fld (TSK_FRn_IIMG n) 12 0 + il ≤ 8192) && decide (c.fld (TSK_FRn_OIMG n) 12 0 + ol + 1 ≤ 8192) &&
  decide (c.fld (TSK_FRn_ISTOFS n) 12 0 + 32 ≤ 8192) &&
  c.inGroup 1 (c.tgrp n) && c.bit (TSK_TKk_CFG (wfld v 20 16)) 31 &&
  (!wbit v 29 || c.bit (TSK_TKk_CFG (wfld v 28 24)) 31)

/-- A write of TSK_FRn_CFG (R274). -/
def frameCfgWrite (c : Chip) (m n : Nat) (v : W32) : Chip :=
  let a := TSK_FRn_CFG n
  if m ≠ 0 then c.refuse
  else if c.bit a 31 then
    if wbit v 31 then c.done else ((c.setBit a 31 false).setFr n .reset).done
  else if wbit v 31 && !c.frameOk n v then ((c.setReg a (v &&& 0x7F1F000F)).tskCause 1).done
  else
    let c1 := c.setReg a (v &&& 0xFF1F000F)
    (if wbit v 31 then c1.setFr n { FrameRun.reset with next := c1.nextBoundary n } else c1).done

/-- A bank has been given to a group: the exchange of a frame's cycle (R275). -/
def Chip.imageExchange (c : Chip) (b og : Nat) : Chip :=
  (List.range 8).foldl (fun c n =>
    if c.bit (TSK_FRn_CFG n) 31 && c.ibank n == b && c.tgrp n == og then
      let f := c.fr n
      let tout := (c.reg (TSK_FRn_TOUT n)).toNat
      let early := !f.begun || decide (f.t + tout < c.ltNs)
      if !early && f.normalActive && f.normalT == f.t then c.setFr n { f with exchanged := true, evalAfterTask := true }
      else c.setFr n { f with exchanged := true, evalDue := true, coming := early }
    else c) c

/-- A handover of a bank takes effect (R28), which may be an exchange (R275). -/
def bankOwnerTakeEffect (c : Chip) (b : Nat) : Chip :=
  match c.ownerTakes b with
  | (none, c1) => c1
  | (some og, c1) => c1.imageExchange b og

/-- The states of a slot (R282). -/
def Chip.slotState (c : Chip) (s : Nat) : Nat := c.fld (TSK_SLs_STAT s) 31 30
def Chip.setSlotState (c : Chip) (s v : Nat) : Chip := c.setFld (TSK_SLs_STAT s) 31 30 v

/-- MISS counts a cycle, saturating at 255 (R280). -/
def Chip.miss (c : Chip) (s : Nat) : Chip :=
  c.setFld (TSK_SLs_STAT s) 7 0 (satTo 255 (c.fld (TSK_SLs_STAT s) 7 0 + 1))

/-- The enabled slots of a frame, ascending. -/
def Chip.slotsOf (c : Chip) (n : Nat) : List Nat :=
  (List.range 512).filter fun s => c.bit (TSK_SLs_CFG s) 31 && c.fld (TSK_SLs_CFG s) 26 24 == n

/-- A slot at an evaluation (R280). -/
def Chip.evalSlot (c : Chip) (n s : Nat) : Chip :=
  let st := c.slotState s
  let got := tblGet false c.tsk.reported s
  let c0 := { c with tsk := { c.tsk with reported := tblSet false c.tsk.reported s false } }
  let c1 := if got then
      let d := (c0.setFld (TSK_SLs_STAT s) 7 0 0).setSlotState s 1
      if st = 2 then d.tskCause 7 else d
    else
      let d := c0.miss s
      if st = 1 ∧ c.fld (TSK_SLs_CFG s) 23 16 ≤ d.fld (TSK_SLs_STAT s) 7 0 then
        let e := (d.setSlotState s 2).setBit (TSK_DROPNEW (s / 32)) (s % 32) true
        let e := if c.bit (TSK_FRn_CFG n) 29 then e.setBit (TSK_FRn_STAT n) 31 true else e
        e.tskCause 6
      else d
  if c1.slotState s = 1 then c1
  else
    c1.ioCopy (c.fld TSK_SUBBASE 31 6 * 64 + c.fld (TSK_SLs_SUB s) 15 0 * 8)
      (c.inputAddr n + c.fld (TSK_SLs_IMG s) 12 0 * 8) (c.fld (TSK_SLs_IMG s) 28 16)

/-- Whether a force entry lies in a frame's input image (R280). -/
def Chip.forceInInput (c : Chip) (n f : Nat) : Bool :=
  let a := (c.reg (TSK_FCf_ADDR f)).toNat
  c.fcOn f && decide (c.inputAddr n ≤ a) && decide (a < c.inputAddr n + c.fld (TSK_FRn_IIMG n) 26 16 * 64)

/-- The evaluation of a frame's cycle (R280). -/
def frameEvaluation (c : Chip) (n : Nat) : Chip :=
  let f := c.fr n
  if f.evalDue then
    let c0 := (c.setFr n { f with evalDue := false, evaluating := true }).setBit (TSK_FRn_STAT n) 30 false
    let slots := c.slotsOf n
    let c1 := slots.foldl (fun c s => c.evalSlot n s) c0
    let c2 := (List.range 64).foldl (fun c k => if c.forceInInput n k then c.forceWrite k else c) c1
    slots.foldl (fun c s => c.ioWrite (c.statusAddr n + 4 * s) (leBytes 4 (c.reg (TSK_SLs_STAT s)).toNat)) c2
  else c

/-- The evaluation ends (R276, R277, R283). -/
def evaluationEnd (c : Chip) (n : Nat) : Chip :=
  let f := c.fr n
  if f.evaluating then
    let idle := c.tskMode = 0 ∨ (c.tskMode = 4 ∧ f.errActive = false ∧ c.bit (TSK_FRn_STAT n) 31 = false)
    let hands : List HandDue :=
      if !decide idle then []
      else if f.coming then [⟨.coming, f.next, true, false⟩]
      else if c.bit (TSK_FRn_STAT n) 29 then []
      else [⟨.current, f.t, true, false⟩]
    let c1 := (c.setFr n { f with evaluating := false, hands := f.hands ++ hands }).setBit (TSK_FRn_STAT n) 30 true
    if f.releaseWaits && !c.initHolds then c1.releaseFrame n else c1
  else c

/-- T_j + TOUT (R275, R277): a cycle without an exchange, and a handover that is not complete. An exchange in that
tick comes first (R38). -/
def noExchangeCheck (c : Chip) (n : Nat) : Chip :=
  let f := c.fr n
  if c.bit (TSK_FRn_CFG n) 31 ∧ f.begun ∧ f.checked = false ∧ f.t + (c.reg (TSK_FRn_TOUT n)).toNat < c.ltNs then
    let c1 := c.setFr n { f with checked := true, exchanged := false }
    let c2 := if f.exchanged then c1
      else
        let d := (c.slotsOf n).foldl (fun c s => c.miss s) c1
        (d.setFld (TSK_FRn_LATEOUT n) 31 16 (satTo 65535 (d.fld (TSK_FRn_LATEOUT n) 31 16 + 1))).tskCause 5
    if c.bit (TSK_FRn_STAT n) 29 then c2
    else (c2.setFld (TSK_FRn_LATEOUT n) 15 0 (satTo 65535 (c2.fld (TSK_FRn_LATEOUT n) 15 0 + 1))).tskCause 5
  else c

/-- The 64 bytes of an output header (R278). -/
def Chip.outputHeader (c : Chip) (n : Nat) (h : HandDue) : List Byte :=
  let mode := c.tskMode
  let flags := b2n h.skipped + at_ (b2n (mode == 3)) 1 + at_ (b2n c.forced) 2 +
    at_ (b2n (mode == 0 || mode == 4)) 3 + at_ (b2n h.errRan) 4
  leBytes 8 h.t ++ leBytes 4 (c.reg (TSK_FRn_CYCLE n)).toNat ++ leBytes 4 flags ++ leBytes 48 0

/-- The output handover of a cycle (R277). HANDED is the current cycle's. -/
def outputHandover (c : Chip) (n : Nat) : Chip :=
  match (c.fr n).hands with
  | [] => c
  | h :: rest =>
    let c1 := c.writeForces
    let c2 := if c.tskMode = 0 ∨ c.tskMode = 4 then
        c1.ioCopy (c.fld TSK_SUBBASE 31 6 * 64 + c.fld (TSK_FRn_OSAFE n) 18 6 * 64) (c.outputAddr n + 64)
          (c.fld (TSK_FRn_OIMG n) 26 16 * 8)
      else c1
    let c3 := c2.ioWrite (c.outputAddr n) (c2.outputHeader n h)
    let give (c : Chip) (b : Nat) : Chip :=
      if c.fld (MEM_BOWN b) 3 0 = c.tgrp n then { bankOwnerWrite c 1 b (w32 (c.pgrp n)) with bus := c.bus } else c
    let c4 := give (give c3 (c.obank n)) (c.ibank n)
    let g := c4.fr n
    let c5 := c4.setFr n { g with hands := rest, handedEarly := g.handedEarly || h.cycle == .coming }
    let c6 := if h.cycle = .current then c5.setBit (TSK_FRn_STAT n) 29 true else c5
    if h.skipped then c6.frameFault (TSK_FRn_SKIPPED n) else c6

/-! ### Station reports -/

/-- A write of TSK_RPT (R281). -/
def stationReport (c : Chip) (m : Nat) (v : W32) : Chip :=
  let s := wfld v 8 0
  let code := wfld v 31 30
  let n := c.fld (TSK_SLs_CFG s) 26 24
  if !c.inGroup m (c.pgrp n) then (c.tskCause 2).done
  else if code = 1 ∨ code = 2 then
    let c1 := c.setReg TSK_RPTCNT (c.reg TSK_RPTCNT + 1)
    let c2 := c1.setBit (TSK_SLs_STAT s) 16 (code == 2)
    (if code = 1 then { c2 with tsk := { c2.tsk with reported := tblSet false c2.tsk.reported s true } } else c2).done
  else c.done

/-! ### Value changes -/

/-- The batch is refused whole (R290). -/
def Chip.vcRefuse (c : Chip) (r : Nat) : Chip :=
  ({ c with tsk := { c.tsk with staged := [] } }.setReg TSK_VC_STAT (w32 (at_ r 16))).tskCause 3

/-- VC_CTL.PUSH (R290): the change takes the value's parts as they were last written (DEDUCED, log entry 166). -/
def vcPush (c : Chip) : Chip :=
  if c.tsk.batch.isSome then c
  else if 32 ≤ c.tsk.staged.length then c.vcRefuse 5
  else
    let ch : Change := ⟨(c.reg TSK_VC_ID).toNat, join64 (c.stagedPart TSK_VC_HI) (c.reg TSK_VC_LO)⟩
    { c with tsk := { c.tsk with staged := c.tsk.staged ++ [ch] } }.setFld TSK_VC_STAT 5 0 (c.tsk.staged.length + 1)

/-- Why a change cannot be made, if it cannot (R290). -/
def vcFault (e : Option VarEntry) (const : Bool) : Option Nat :=
  match e with
  | none => some 2
  | some e =>
    if (e.kind ≠ 0 ∧ e.kind ≠ 3) ∨ 8 < e.size ∨ e.aligned = false then some 3
    else if e.kind = 3 ∧ const = false then some 4 else none

/-- VC_CTL.APPLY (R290). -/
def vcApply (c : Chip) (task : Nat) (const : Bool) : Chip :=
  if c.tsk.batch.isSome then c
  else if c.tskMode = 0 ∨ c.tskMode = 4 ∨ c.bit (TSK_TKk_CFG task) 31 = false then c.vcRefuse 1
  else if c.tsk.staged = [] then c.vcRefuse 5
  else
    let found := c.tsk.staged.map fun ch => (ch, c.mapFind ch.id)
    match found.findSome? fun p => vcFault p.2 const with
    | some r => c.vcRefuse r
    | none =>
      let changes := found.filterMap fun p => p.2.map fun e => (p.1, e.addr, e.size)
      { c with tsk := { c.tsk with staged := [], batch := some ⟨task, changes⟩ } }.setBit TSK_VC_STAT 31 true

/-- A write of TSK_VC_CTL (R290). -/
def vcCtlWrite (c : Chip) (m : Nat) (v : W32) : Chip :=
  if m ≠ 0 then c.refuse
  else
    let c1 := if wbit v 31 then vcPush c else c
    (if wbit v 30 then vcApply c1 (wfld v 4 0) (wbit v 29) else c1).done

/-! ### Program swap -/

/-- A write of TSK_SWAP_CTL (R291). -/
def swapGo (c : Chip) (m : Nat) (v : W32) : Chip :=
  if m ≠ 0 then c.refuse
  else if !wbit v 0 || c.tsk.swapReq then c.done
  else if c.tskMode = 1 ∨ c.tskMode = 3 ∨ c.tskMode = 4 then { c with tsk := { c.tsk with swapReq := true } }.done
  else (c.setFld TSK_SWAP_STAT 31 29 1).done

/-- Whether a map is sorted with valid entries (R284, R294). -/
def mapOk (es : List VarEntry) : Bool :=
  (es.all fun e => decide (e.kind ≤ 3)) && ((es.zip es.tail).all fun p => decide (p.1.id < p.2.id))

/-- The RESULT of a refused access (R294). -/
def swapCode : AccErr → Nat
  | .ecc => 4
  | _ => 3

/-- The value of a variable of the old map written to its place in the new one; the RESULT of a refusal. -/
def Chip.carry (c : Chip) (src dst n : Nat) : Option Nat × Chip :=
  match c.readSpan 1 src n with
  | (.error (e, _), c1) => (some (swapCode e), c1)
  | (.ok bs, c1) =>
    match c1.writeSpan 1 dst bs with
    | (some (e, _), c2) => (some (swapCode e), c2)
    | (none, c2) => (none, c2)

/-- The carry-over of one new entry (R292): a RESULT if it fails, and the MISMATCH count. -/
def Chip.carryEntry (c : Chip) (old : List VarEntry) (mis : Nat) (e : VarEntry) : Option Nat × Nat × Chip :=
  match old.find? fun o => o.id == e.id with
  | some o =>
    if e.kind = 3 then (none, mis, c)
    else if o.kind = e.kind ∧ o.size = e.size then
      let (r, c1) := c.carry o.addr e.addr e.size
      (r, mis, c1)
    else (none, mis + 1, c)
  | none => (none, mis, c)

/-- A new edge detector takes its source's value after the carry-over (R292). -/
def Chip.carryEdge (c : Chip) (old new : List VarEntry) (e : VarEntry) : Option Nat × Chip :=
  if e.kind = 2 ∧ (old.find? fun o => o.id == e.id) = none then
    match new.find? fun s => s.id == e.feed with
    | some s => c.carry s.addr e.addr 1
    | none => (none, c)
  else (none, c)

/-- Every enabled force rebound or released (R293); the number released. -/
def Chip.rebindForces (c : Chip) (new : List VarEntry) : Nat × Chip :=
  (List.range 64).foldl (fun (acc : Nat × Chip) f =>
    let c := acc.2
    if c.fcOn f then
      match new.find? fun e => e.id == (c.reg (TSK_FCf_ID f)).toNat with
      | some e =>
        if e.kind = 0 ∧ e.forceable ∧ e.simple ∧ e.size = c.fld (TSK_FCf_CTL f) 3 0 then
          (acc.1, (c.setReg (TSK_FCf_ADDR f) (w32 e.addr)).forceWrite f)
        else (acc.1 + 1, c.forceDrop f)
      | none => (acc.1 + 1, c.forceDrop f)
    else acc) (0, c)

/-- The swap ends with a RESULT, MISMATCH and RELEASED (R294). -/
def Chip.swapEnd (c : Chip) (r mis rel : Nat) : Chip :=
  ({ c with tsk := { c.tsk with swapReq := false } }.setReg TSK_SWAP_STAT
    (w32 (at_ r 29 + at_ (satTo 4095 mis) 16 + rel))).tskCause 12

/-- The quiet point of a requested swap (R291 to R294). -/
def swapQuietPoint (c : Chip) : Chip :=
  let busy := ((List.range 32).any fun k => c.bit (TSK_TKk_STAT k) 31) ||
    ((List.range 8).any fun n => (c.fr n).evaluating || !(c.fr n).hands.isEmpty)
  if !c.tsk.swapReq || busy then c
  else
    match c.readMap (c.fld TSK_SWAP_MAP 31 4 * 16) (c.fld TSK_SWAP_MAPN 15 0) with
    | (.error e, c1) => c1.swapEnd (swapCode e) 0 0
    | (.ok new, c1) =>
      if !mapOk new then c1.swapEnd 2 0 0
      else match c1.readMap (c.fld TSK_VMAP 31 4 * 16) (c.fld TSK_VMAPN 15 0) with
        | (.error e, c2) => c2.swapEnd (swapCode e) 0 0
        | (.ok old, c2) =>
          match c2.ioRead (c.fld TSK_SWAP_TASKS 31 2 * 4) 128 with
          | (.error e, c3) => c3.swapEnd (swapCode e) 0 0
          | (.ok tab, c3) =>
            let (r1, mis, c4) := new.foldl (fun (acc : Option Nat × Nat × Chip) e =>
              match acc.1 with
              | some _ => acc
              | none => acc.2.2.carryEntry old acc.2.1 e) (none, 0, c3)
            let (r2, c5) := new.foldl (fun (acc : Option Nat × Chip) e =>
              match acc.1 with
              | some _ => acc
              | none => acc.2.carryEdge old new e) (r1, c4)
            match r2 with
            | some r => c5.swapEnd r mis 0
            | none =>
              let (rel, c6) := c5.rebindForces new
              let c7 := (c6.setReg TSK_VMAP (c.reg TSK_SWAP_MAP)).setReg TSK_VMAPN (c.reg TSK_SWAP_MAPN)
              let c8 := (List.range 32).foldl (fun c k =>
                let w := w32 (leNat (bytesAt tab (4 * k) 4))
                (c.setReg (TSK_TKk_ENTRY k) (w &&& 0xFFFFFFFC)).setBit (TSK_TKk_CFG k) 31 (wbit w 0)) c7
              c8.swapEnd 0 mis rel

/-! ### Registers -/

/-- A write of TSK_DIAG (R271). -/
def diagWrite (c : Chip) (v : W32) : Chip := ((c.setReg TSK_DIAGLAST (v &&& 0xFF00001F)).tskCause 8).done

/-- What a TSK register shows where it is not a stored value. -/
def tskLive (c : Chip) (a : Nat) : W32 :=
  let o := a - 0x40120000
  if o = 4 then
    let err := (List.range 8).any fun n => c.bit (TSK_FRn_STAT n) 31 ||
      (c.bit (TSK_FRn_CFG n) 29 && c.bit (TSK_TKk_STAT (c.fld (TSK_FRn_CFG n) 28 24)) 31)
    w32 (at_ (b2n c.forced) 31 + at_ (b2n err) 30 + at_ (b2n c.tsk.swapReq) 29 + c.tskMode)
  else c.reg a

/-- A write of TSK_SLs_CFG (R282, R297). -/
def slotCfgWrite (c : Chip) (m a : Nat) (v : W32) : Chip :=
  let s := (a - TSK_SLs_CFG 0) / 0x10
  let v := if wfld v 23 16 = 0 then wsetFld v 23 16 1 else v
  let c1 := c.plainWrite m a v
  if m = 0 ∧ wbit v 31 then c1.setReg (TSK_SLs_STAT s) 0xC0000000 else c1

/-- A write to a TSK register. -/
def tskWrite (c : Chip) (m a : Nat) (v : W32) : Chip :=
  let o := a - 0x40120000
  if o = 0 then tskModeRequest c m (wfld v 2 0)
  else if o = 0x0C then stationReport c m v
  else if o = 0x14 then taskReleaseWrite c m v
  else if o = 0x28 then diagWrite c v
  else if o = 0x30 then swapGo c m v
  else if o = 0x50 then vcCtlWrite c m v
  else if 0x100 ≤ o ∧ o < 0x300 then
    let n := (o - 0x100) / 0x40
    if (o - 0x100) % 0x40 = 0 then frameCfgWrite c m n v
    else if m = 0 ∧ c.bit (TSK_FRn_CFG n) 31 then c.done
    else c.plainWrite m a v
  else if 0x1000 ≤ o ∧ o < 0x3000 ∧ o % 0x10 = 0 then slotCfgWrite c m a v
  else if 0x3000 ≤ o ∧ o < 0x3800 ∧ o % 0x20 = 4 then forceCtlWrite c m ((o - 0x3000) / 0x20) v
  else c.plainWrite m a v

end Sys2Proof.Machine
end

