-- ==== Sys2Proof/Machine/AngFire.lean ====
section
/-!
DEFINITION. What a firing of an angle event does outside ANG (R91).
-/
namespace Sys2Proof.Machine

/-- The actions of a firing that are performed at its time, but for the timed output, which its commit has
armed; its bit in ANG_AEFIRE (R91); and PEND of a one-shot event cleared (R88). -/
def Chip.fire (c : Chip) (f : Firing) : Chip :=
  let a := f.act
  let c1 := if wbit a 25 then c.xdTrig (wfld a 24 19) else c
  let c2 := if wbit a 18 then c1.angleRelease (wfld a 17 13) else c1
  let c3 := if wbit a 12 then c2.skLine (wfld a 11 7) 0 else c2
  let c4 := if wbit a 6 then camStep c3 (wfld a 5 1) f.pos else c3
  let c5 := if wbit a 0 then c4.raise (112 + f.ae / 32) 0 else c4
  let e := c5.ae f.ae
  (c5.setAe f.ae { e with stat := e.stat % 16 }).setBit (ANG_AEFIRE (f.ae / 32)) (f.ae % 32) true

/-- The first committed firing is performed in the tick that its time rounds up to (R91). -/
def angleEventFiring (c : Chip) : Chip :=
  match c.ang.firings with
  | [] => c
  | f :: rest =>
    if (f.tc4 + 3) / 4 ≤ c.ltNs then { c with ang := { c.ang with firings := rest } }.fire f else c

end Sys2Proof.Machine
end

