-- ==== Sys2Proof/Machine/Can.lean ====
section
/-!
DEFINITION. CAN: enabling (R174), objects and commands (R175 to R179), commit, arbitration and completion
(R180 to R183), the receive-all ring (R184, R185), fault confinement (R186 to R188), time-triggered operation
(R189 to R197), mode agreements (R198 to R201), the guardian (R202 to R204), events and registers (R205 to R207).
-/
namespace Sys2Proof.Machine

def Chip.canOf (c : Chip) (n : Nat) : CanChan := tblGet .reset c.can n

def Chip.setCan (c : Chip) (n : Nat) (k : CanChan) : Chip := { c with can := tblSet .reset c.can n k }

/-- Source i of a channel (R205). -/
def Chip.canEv (c : Chip) (n i : Nat) : Chip := c.raise (224 + 8 * n + i) 0

/-- A flag of CANn_FLAGS set. -/
def Chip.canFlag (c : Chip) (n i : Nat) : Chip := c.setBit (CANn_FLAGS n) i true

/-- CMD_REFUSED set; nothing else changes. -/
def Chip.canRefused (c : Chip) (n : Nat) : Chip := c.canFlag n 0

/-! ### Message memory -/

/-- The addresses of an object's header word, of its data, of a trigger and a guardian entry (R175). -/
def canObj (n k w : Nat) : Nat := 0x40080000 + n * 0x4000 + k * 0x20 + w * 4
def canData (n k w : Nat) : Nat := 0x40081000 + n * 0x4000 + k * 0x40 + w * 4
def canTrig (n j w : Nat) : Nat := 0x40083000 + n * 0x4000 + j * 8 + w * 4
def canGuard (n j w : Nat) : Nat := 0x40083800 + n * 0x4000 + j * 8 + w * 4

/-- An object's STATE (R177). -/
def Chip.objState (c : Chip) (n k : Nat) : Nat := c.fld (canObj n k 5) 3 0

def Chip.setObjState (c : Chip) (n k s : Nat) : Chip := c.setFld (canObj n k 5) 3 0 s

/-- An object ends as TRANSMITTED, CANCELLED or FAILED, raising source 1 (R205). -/
def Chip.objEnds (c : Chip) (n k s : Nat) : Chip := (c.setObjState n k s).canEv n 1

/-- The error level rises (R194). -/
def Chip.ttLevel (c : Chip) (n l : Nat) : Chip :=
  if c.fld (CANn_TT_STAT n) 31 30 < l then
    ((c.setFld (CANn_TT_STAT n) 31 30 l).canFlag n 1).canEv n 5
  else c

/-- An object's message status count increments; at 7 the level is S1 (R191, R194). -/
def Chip.mscUp (c : Chip) (n k : Nat) : Chip :=
  let m := c.fld (canObj n k 5) 18 16
  let c1 := c.setFld (canObj n k 5) 18 16 (satTo 7 (m + 1))
  if m = 6 then c1.ttLevel n 1 else c1

def Chip.mscDown (c : Chip) (n k : Nat) : Chip :=
  c.setFld (canObj n k 5) 18 16 (c.fld (canObj n k 5) 18 16 - 1)

/-- The payload length that a DLC gives in a format. -/
def canLen (fmt : Nat) (w2 : W32) : Nat :=
  let d := wfld w2 19 16
  match fmt with
  | 0 => min d 8
  | 1 => match d with
    | 9 => 12 | 10 => 16 | 11 => 20 | 12 => 24 | 13 => 32 | 14 => 48 | 15 => 64 | k => k
  | _ => wfld w2 30 20 + 1

/-- The frame that an object's contents spell (R176, R178), the payload of an XLBUF object apart. -/
def Chip.objFrame (c : Chip) (n k : Nat) : CanFrame :=
  let w0 := c.reg (canObj n k 0)
  let w1 := c.reg (canObj n k 1)
  let w2 := c.reg (canObj n k 2)
  let fmt := wfld w0 29 28
  let ide := wbit w0 27
  let rtr := fmt == 0 && wbit w0 25
  let len := canLen fmt w2
  let bytes := ((List.range 16).flatMap fun i => leBytes 4 (c.reg (canData n k i)).toNat).take len
  ⟨fmt, ide, if ide then wfld w1 28 0 else wfld w1 28 18, rtr, fmt == 1 && wbit w0 26,
    fmt == 1 && c.fld (CANn_STAT n) 31 30 == 1, w2, c.reg (canObj n k 3), if wbit w0 24 || rtr then [] else bytes⟩

/-- The arbitration field as a number: the smaller one wins (R180). -/
def CanFrame.priority (f : CanFrame) : Nat :=
  if f.ide then (f.id / 2 ^ 18 * 4 + 3) * 2 ^ 19 + f.id % 2 ^ 18 * 2 + b2n f.rtr
  else (f.id * 4 + b2n f.rtr * 2) * 2 ^ 19

/-! ### Time-triggered time -/

/-- Whether a channel runs time-triggered (R189). -/
def Chip.ttRuns (c : Chip) (n : Nat) : Bool := c.bit (CANn_CTL n) 31 && c.fld (CANn_CTL n) 19 18 != 0

def Chip.ttSynced (c : Chip) (n : Nat) : Bool := c.bit (CANn_TT_STAT n) 29
def Chip.ttMaster (c : Chip) (n : Nat) : Bool := c.bit (CANn_TT_STAT n) 28

/-- The network time unit in 2^-16 ns, within its range. -/
def Chip.ntu (c : Chip) (n : Nat) : Nat := max 100 (min (c.fld (CANn_TT_NTU n) 16 0) 100000) * 65536

/-- Cycle time in NTU (R189). -/
def Chip.cycleTime (c : Chip) (n : Nat) : Nat := (c.lt - (c.canOf n).mark) / c.ntu n

/-- The gateway base in ns. -/
def Chip.gwBase (c : Chip) (n : Nat) : Nat := c.reg64 (CANn_TT_GWBASE_LO n)

/-- Whether a channel ties the bus to line time now (R197). -/
def Chip.gatewayOn (c : Chip) (n : Nat) : Bool :=
  c.bit (CANn_CTL n) 17 && c.fld (CANn_CTL n) 19 18 == 2 && c.bit (CANn_TT_CFG n) 31 && c.ttMaster n

/-- Global time as a gateway sets it, in NTU (R197). -/
def Chip.gatewayTime (c : Chip) (n : Nat) : Nat := wrap 16 (((c.lt : Int) - (c.gwBase n * 65536 : Nat)) / (c.ntu n : Int))

/-- Global time as a channel tracks it from the last reference mark, in 1/128 NTU (R189; PRESUMED, log entry 32). -/
def Chip.trackedTime (c : Chip) (n : Nat) : Nat :=
  let k := c.canOf n
  let t := c.lt - k.mark
  (k.globalAt + (if k.rateDen = 0 then t * 128 / c.ntu n else t * k.rateNum / k.rateDen)) % 2 ^ 23

/-- Global time in 1/128 NTU: kept in level 2 alone. -/
def Chip.global128 (c : Chip) (n : Nat) : Nat :=
  if c.fld (CANn_CTL n) 19 18 ≠ 2 then 0
  else if c.gatewayOn n then c.gatewayTime n * 128
  else c.trackedTime n

/-- Global time in NTU (R189, R197). -/
def Chip.globalTime (c : Chip) (n : Nat) : Nat := c.global128 n / 128

/-- A mode's definition, its validity, the basic cycles of its matrix and its trigger entries (R198). -/
def Chip.modeDef (c : Chip) (n m : Nat) : W32 := c.reg (CANn_TT_MODE n m)
def Chip.modeValid (c : Chip) (n m : Nat) : Bool := wbit (c.modeDef n m) 31
def Chip.matrixLen (c : Chip) (n m : Nat) : Nat := 2 ^ wfld (c.modeDef n m) 26 24

/-- The entries of a range word. -/
def rangeOf (w : W32) : List Nat := (List.range (wfld w 8 0)).map fun i => (wfld w 23 16 + i) % 256

/-- The mode in force, the proposed mode, the agreement's phase and number. -/
def Chip.ttMode (c : Chip) (n : Nat) : Nat := c.fld (CANn_TT_STAT n) 13 12
def Chip.ttProp (c : Chip) (n : Nat) : Nat := c.fld (CANn_TT_STAT n) 11 10
def Chip.ttPhase (c : Chip) (n : Nat) : Nat := c.fld (CANn_TT_STAT n) 9 8
def Chip.ttSeq (c : Chip) (n : Nat) : Nat := c.fld (CANn_TT_STAT n) 7 0
def Chip.ttCycle (c : Chip) (n : Nat) : Nat := c.fld (CANn_TT_STAT n) 21 16

/-- Whether an entry with BASE and REP acts in a basic cycle (R190). -/
def actsIn (w : W32) (cycle : Nat) : Bool := cycle % 2 ^ wfld w 5 3 == wfld w 11 6

/-- Whether entry j of the active mode, of a type, acts now (R189, R190): not between a matrix cycle's end and the first
reference message of the next one, nor before a committed mode has taken effect (R199, R201). -/
def Chip.trigDue (c : Chip) (n j ty : Nat) : Bool :=
  let w := c.reg (canTrig n j 0)
  let ww : W32 := w32 (wfld w 11 6 * 64 + wfld w 5 3 * 8)
  c.ttRuns n && c.ttSynced n && !(c.canOf n).advanced && (c.canOf n).commitTo.isNone && (rangeOf (c.modeDef n (c.ttMode n))).contains j && c.modeValid n (c.ttMode n) &&
  wfld w 15 12 == ty && actsIn ww (c.ttCycle n) && !(c.canOf n).fired.contains j &&
  decide (wfld w 31 16 ≤ c.cycleTime n)

/-- An entry has acted in this basic cycle. -/
def Chip.setFired (c : Chip) (n j : Nat) : Chip :=
  c.setCan n { c.canOf n with fired := j :: (c.canOf n).fired }

/-! ### The guardian -/

/-- Whether the guardian's windows hold CANn_TEN high now (R202). -/
def Chip.guardOpen (c : Chip) (n : Nat) : Bool :=
  if !c.bit (CANn_GD_CTL n) 31 then c.bit (CANn_CTL n) 31
  else
    let k := c.canOf n
    let unit := max 100 (min (c.fld (CANn_GD_NTU n) 16 0) 100000) * 65536
    let t := c.lt - k.gdMark
    let margin := c.fld (CANn_GD_CTL n) 7 0
    let mode := c.reg (CANn_GD_MODE n (c.fld (CANn_GD_STAT n) 29 28))
    c.bit (CANn_GD_STAT n) 27 && wbit mode 31 &&
    (rangeOf mode).any fun j =>
      let w := c.reg (canGuard n j 0)
      actsIn (c.reg (canGuard n j 1)) k.gdCycle &&
      decide ((wfld w 31 16 - margin) * unit ≤ t) && decide (t < (wfld w 31 16 + wfld w 15 0 + margin) * unit)

/-! ### Fault confinement -/

def Chip.tec (c : Chip) (n : Nat) : Nat := c.fld (CANn_ERRCNT n) 8 0
def Chip.recCount (c : Chip) (n : Nat) : Nat := c.fld (CANn_ERRCNT n) 31 24

/-- The fault-confinement state of R186 for the counters. -/
def fcsOf (tec rx : Nat) : Nat := if 255 < tec then 2 else if 127 < tec ∨ 127 < rx then 1 else 0

/-- The counters set, and the state with its flags and source 2 (R186); bus-off starts counting where
AUTOREC says so (R188), and is S3 in time-triggered operation (R194). -/
def Chip.setCounters (c : Chip) (n tec rx : Nat) : Chip :=
  let c1 := c.setReg (CANn_ERRCNT n) (w32 (at_ (satTo 255 rx) 24 + satTo 511 tec))
  let old := c.fld (CANn_STAT n) 31 30
  let new := if old = 2 then 2 else fcsOf tec rx
  if old = new then c1
  else
    let c2 := (c1.setFld (CANn_STAT n) 31 30 new).canEv n 2
    if new = 1 then c2.canFlag n 3
    else if new = 2 then
      let c3 := (c2.canFlag n 4).setFld (CANn_STAT n) 15 8 0
      let c4 := c3.setBit (CANn_STAT n) 29 (c.bit (CANn_CTL n) 28)
      if c.ttRuns n then c4.ttLevel n 3 else c4
    else c2

/-- A frame's end takes a channel whose EN was cleared off the bus (R174). -/
def Chip.canQuiet (c : Chip) (n : Nat) : Chip :=
  let k := c.canOf n
  let c1 := (c.setCan n { k with leaving := false }).setBit (CANn_STAT n) 25 false
  if k.leaving then c1.setBit (CANn_STAT n) 28 false else c1

/-- The frame in transmission is over: one that ran past the end of its window raises the level (R194). -/
def Chip.canFrameEnd (c : Chip) (n : Nat) : Chip :=
  let k := c.canOf n
  let late := k.tx.any fun t => t.close.any fun x => decide (x < c.lt)
  let c1 := (c.setCan n { k with tx := none }).setBit (CANn_STAT n) 26 false
  (if late then c1.ttLevel n 2 else c1).canQuiet n

/-- The object of a frame whose attempt has failed (R181, R182, R187, R191). -/
def Chip.attemptFailed (c : Chip) (n : Nat) (t : CanTx) (busOff arbLost : Bool) : Chip :=
  match t.what with
  | .object k =>
    let c0 := if t.exclusive then c.mscUp n k else c
    let c1 := if arbLost then
        c0.setFld (canObj n k 5) 31 24 (satTo 255 (c0.fld (canObj n k 5) 31 24 + 1)) else c0
    if t.late then (c1.setBit (canObj n k 5) 8 true).objEnds n k 4
    else if busOff then c1.setObjState n k 5
    else if c1.bit (CANn_CTL n) 29 then c1.objEnds n k 6
    else c1.setObjState n k 1
  | .null k => c.mscUp n k
  | .reference _ _ => c
  | .veto => c

/-- The frame in transmission ends in an error with these counters (R186, R187): this node is the error frame's
transmitter until the next frame. -/
def Chip.txFails (c : Chip) (n tec rx : Nat) : Chip :=
  match (c.canOf n).tx with
  | none => c.setCounters n tec rx
  | some t =>
    let c1 := c.setCounters n tec rx
    let c2 := (c1.attemptFailed n t (c1.fld (CANn_STAT n) 31 30 == 2) false).canFrameEnd n
    c2.setCan n { c2.canOf n with erred := some t.what }

/-- An error in the error flag or overload flag of a transmitter (R186, R187): where it takes the channel bus-off, the
object of the frame becomes PENDING_BUSOFF. -/
def Chip.txFlagError (c : Chip) (n tec rx : Nat) : Chip :=
  let c1 := c.setCounters n tec rx
  if c1.fld (CANn_STAT n) 31 30 ≠ 2 then c1
  else match (c.canOf n).tx, (c.canOf n).erred with
    | some t, _ => (c1.attemptFailed n t true false).canFrameEnd n
    | none, some (.object k) => if c1.objState n k = 1 then c1.setObjState n k 5 else c1
    | _, _ => c1

/-- A receiver's error: the frame in reception is over. -/
def Chip.rxFails (c : Chip) (n rx : Nat) : Chip := (c.setCounters n (c.tec n) rx).canQuiet n

/-- The transmitter delay measured in a data phase (R172): a value that only the line gives (DESIGN CHOICE, log
entry 143). -/
def Chip.tdcMeasured (c : Chip) (n : Nat) : Chip :=
  if c.bit (CANn_TDC n) 31 then
    let (x, c1) := c.takeFree
    c1.setFld (CANn_TDC n) 7 0 x
  else c

/-- An error on the bus (R172, R182, R186). -/
def canBusError (c : Chip) (n : Nat) (e : CanError) : Chip :=
  if !c.bit (CANn_STAT n) 28 || c.fld (CANn_STAT n) 31 30 == 2 then c
  else
    let c1 := (if e.data && (c.canOf n).tx.isSome then c.tdcMeasured n else c).setReg (CANn_LASTERR n)
      (w32 (at_ (b2n e.data) 3 + e.code % 8))
    let sending := (c.canOf n).tx.isSome
    let sender := sending || (c.canOf n).erred.isSome
    let tec := c.tec n
    let rx := c.recCount n
    match e.kind with
    | .frame => if sending then c1.txFails n (tec + 8) rx else c1.rxFails n (rx + 1)
    | .exempt => if sending then c1.txFails n tec rx else c1.rxFails n rx
    | .dominantAfterFlag => if sender then c1 else c1.setCounters n tec (rx + 8)
    | .flagBit => if sender then c1.txFlagError n (tec + 8) rx else c1.setCounters n tec (rx + 8)
    | .dominantRun => if sender then c1.txFlagError n (tec + 8) rx else c1.setCounters n tec (rx + 8)

/-- A write of CMD.RECOVER (R188). -/
def canRecover (c : Chip) (n : Nat) : Chip :=
  if c.fld (CANn_STAT n) 31 30 = 2 ∧ c.bit (CANn_STAT n) 29 = false then
    (c.setBit (CANn_STAT n) 29 true).setFld (CANn_STAT n) 15 8 0
  else c

/-- `more` sequences of 11 recessive bits have come since the last count; at 128 the channel leaves bus-off (R188). -/
def canBusoffRecovered (c : Chip) (n more : Nat) : Chip :=
  let count := c.fld (CANn_STAT n) 15 8 + more
  if c.fld (CANn_STAT n) 31 30 ≠ 2 ∨ c.bit (CANn_STAT n) 29 = false then c
  else if count < 128 then c.setFld (CANn_STAT n) 15 8 count
  else
    let c1 := ((c.setReg (CANn_ERRCNT n) 0).setBit (CANn_STAT n) 29 false).setFld (CANn_STAT n) 15 8 128
    let c2 := (c1.setFld (CANn_STAT n) 31 30 0).canEv n 2
    (List.range 128).foldl (fun c k => if c.objState n k = 5 then c.setObjState n k 1 else c) c2

/-! ### Channel control -/

/-- A write of CANn_CTL (R174, R197). -/
def canCtlWrite (c : Chip) (n : Nat) (v : W32) : Chip :=
  let k := c.canOf n
  if c.bit (CANn_CTL n) 31 then
    if wbit v 31 then c
    else
      let c1 := c.setBit (CANn_CTL n) 31 false
      if k.tx.isSome || c.bit (CANn_STAT n) 25 then c1.setCan n { k with leaving := true, integrating := false }
      else (c1.setCan n { k with integrating := false }).setBit (CANn_STAT n) 28 false
  else
    let c1 := c.setReg (CANn_CTL n) (v &&& 0xFF0E3000)
    let c2 := if wbit v 17 && !c.bit (CANn_TT_CFG n) 31 then c1.canFlag n 2 else c1
    if wbit v 31 then c2.setCan n { k with integrating := true, leaving := false } else c2

/-- Synchronisation starts over: no reference message has been seen, no window is open (R189, R194, R196). -/
def Chip.ttRestart (c : Chip) (n : Nat) : Chip :=
  let c1 := if c.ttSynced n then (c.setBit (CANn_TT_STAT n) 29 false).canEv n 5 else c
  (c1.setBit (CANn_TT_STAT n) 28 false).setCan n { c1.canOf n with
    mark := c.lt, refs := 0, rateNum := 0, rateDen := 0, fired := [], arb := none, checks := [], wait := none
    advanced := false, matrixStart := false, committed := false, commitTo := none, masterPrio := none }

/-- Integration completes (R174), and with it synchronisation begins (R189). -/
def canIntegrated (c : Chip) (n : Nat) : Chip :=
  let k := c.canOf n
  if k.integrating ∧ c.bit (CANn_CTL n) 31 then
    ((c.setCan n { k with integrating := false }).setBit (CANn_STAT n) 28 true).ttRestart n
  else c

/-! ### Object commands -/

/-- Whether a format is enabled on a channel (R170). -/
def Chip.fmtOn (c : Chip) (n fmt : Nat) : Bool :=
  match fmt with
  | 0 => true | 1 => c.bit (CANn_CTL n) 27 | 2 => c.bit (CANn_CTL n) 26 | _ => false

/-- REQUEST (R179). -/
def canRequest (c : Chip) (n k : Nat) : Chip :=
  let w0 := c.reg (canObj n k 0)
  let s := c.objState n k
  if s = 1 ∨ s = 2 ∨ s = 5 ∨ wbit w0 30 = false ∨ wbit w0 31 = false ∨ c.fmtOn n (wfld w0 29 28) = false then
    c.canRefused n
  else ((c.setFld (canObj n k 5) 31 24 0).setBit (canObj n k 5) 8 false).setObjState n k 1

/-- CANCEL (R181): before commit the object is cancelled; in or after it, the cancel is late. -/
def canCancel (c : Chip) (n k : Nat) : Chip :=
  match c.objState n k with
  | 1 => c.objEnds n k 4
  | 5 => c.objEnds n k 4
  | 2 =>
    match (c.canOf n).tx with
    | some t => if t.what = .object k then c.setCan n { c.canOf n with tx := some { t with late := true } } else c
    | none => c
  | _ => c

/-- CLEARNEW (R176). -/
def canClearNew (c : Chip) (n k : Nat) : Chip :=
  (c.setBit (canObj n k 5) 11 false).setBit (canObj n k 5) 12 false

/-- A write of CANn_OBJCMD (R179, R181). -/
def canObjCmd (c : Chip) (n : Nat) (v : W32) : Chip :=
  let k := wfld v 6 0
  (match wfld v 31 28 with
    | 1 => canRequest c n k
    | 2 => canCancel c n k
    | 3 => canClearNew c n k
    | _ => c).done

/-! ### The receive-all ring -/

/-- The lowest free XL slot at or after the next one, in cyclic order (R185). -/
def Chip.freeSlot (c : Chip) (n : Nat) : Option Nat :=
  let k := c.canOf n
  let s := min (c.fld (CANn_XLRX_CTL n) 8 0) 256
  let frozen := match k.frozen with
    | some (.store x) => x.slot
    | _ => none
  ((List.range s).map fun i => (k.nextSlot + i) % s).find? fun i => !k.slots.contains (some i) && frozen != some i

/-- The bytes of a ring entry (R184). -/
def ringEntryBytes (f : CanFrame) (sof seq cycle : Nat) (lost own : Bool) (slot : Option Nat) : List Byte :=
  let ns := sof / 65536
  let w2 := at_ (seq % 65536) 16 + at_ cycle 10 + at_ (b2n lost) 4 + at_ (b2n slot.isSome) 3 + at_ (b2n f.brs) 2 +
    at_ (b2n f.esi) 1 + b2n own
  let w3 := at_ f.fmt 30 + at_ (b2n f.ide) 29 + (if f.ide then f.id else f.id * 2 ^ 18)
  let w4 := if f.fmt = 2 then f.word2.toNat else nfld f.word2.toNat 19 16 * 2 ^ 16 + at_ (b2n f.rtr) 24
  leBytes 4 (ns % 2 ^ 32) ++ leBytes 4 (ns / 2 ^ 32) ++ leBytes 4 w2 ++ leBytes 4 w3 ++ leBytes 4 w4 ++
  leBytes 4 f.xlaf.toNat ++ leBytes 4 (at_ f.payload.length 16 + slot.getD 0) ++ leBytes 4 0 ++
  bytesAt f.payload 0 64 ++ leBytes 32 0

/-- Bytes cut into 64-byte units from an address. -/
def unitsFrom (a : Nat) (bs : List Byte) : List (Nat × List Byte) :=
  (List.range ((bs.length + 63) / 64)).map fun i => (a + 64 * i, (bs.drop (64 * i)).take 64)

/-- A stored entry is counted; the watermark raises source 0 (R184, R205). -/
def Chip.ringStored (c : Chip) (n : Nat) (slot : Option Nat) : Chip :=
  let k := c.canOf n
  let count := c.fld (CANn_RING_STAT n) 24 16 + 1
  let c1 := (c.setFld (CANn_RING_STAT n) 24 16 count).setCan n
    { k with slots := k.slots ++ [slot], ringSeq := (k.ringSeq + 1) % 65536,
             nextSlot := match slot with | some s => s + 1 | none => k.nextSlot }
  if count = c.fld (CANn_RING_CTL n) 8 0 then c1.canEv n 0 else c1

/-- An SRAM access failed (R183): MEMERR and source 3; the entry being written is lost. -/
def Chip.canStoreFails (c : Chip) (n : Nat) : Chip :=
  ((c.setCan n { c.canOf n with lostBefore := true }).canFlag n 5).canEv n 3

/-- Units of a ring entry written with the channel's OWNER, a violation freezing the path (R183, R374). -/
def Chip.canStoreRun (c : Chip) (n : Nat) (slot : Option Nat) : List (Nat × List Byte) → Chip
  | [] => c.ringStored n slot
  | (a, bs) :: us =>
    let m := c.fld (CANn_OWNER n) 3 0
    match c.dmaWrite m a bs with
    | (none, c1) => c1.canStoreRun n slot us
    | (some .seg, c1) =>
      (c1.setCan n { c1.canOf n with frozen := some (.store ⟨(a, bs) :: us, slot⟩) }).freezeAt (0x14 + n) m a
        bs.length 2
    | (some _, c1) => c1.canStoreFails n

/-- A frame due for the ring (R184, R185): one that is dropped while the path is frozen counts as a full ring's does
(DESIGN CHOICE, log entry 35). An entry takes the mark of the frames lost before it with it. -/
def Chip.ringStore (c : Chip) (n : Nat) (f : CanFrame) (sof : Nat) (own : Bool) : Chip :=
  let k := c.canOf n
  if !c.bit (CANn_RING_CTL n) 31 then c
  else
    let drop (c : Chip) (a : Nat) : Chip :=
      (((c.inc a).canFlag n 6).canEv n 3).setCan n { k with lostBefore := true }
    let count := c.fld (CANn_RING_STAT n) 24 16
    let long := f.fmt = 2 ∧ 64 < f.payload.length
    if 256 ≤ count then drop c (CANn_RING_LOST n)
    else if long ∧ (c.freeSlot n).isNone then drop c (CANn_XLRX_LOST n)
    else if k.frozen.isSome then drop c (CANn_RING_LOST n)
    else
      let slot := if long then c.freeSlot n else none
      let cyc := if c.ttRuns n then c.ttCycle n else 0
      let entry := ringEntryBytes f sof k.ringSeq cyc k.lostBefore own slot
      let base := c.fld (CANn_RING_BASE n) 31 15 * 2 ^ 15
      let at' := base + (c.fld (CANn_RING_STAT n) 7 0 + count) % 256 * 128
      let xl := match slot with
        | some s => unitsFrom (c.fld (CANn_XLRX_BASE n) 31 11 * 2 ^ 11 + s * 2048) f.payload
        | none => []
      (c.setCan n { k with lostBefore := false }).canStoreRun n slot (xl ++ unitsFrom at' entry)

/-- A write of CANn_RING_POP (R185). -/
def canRingPop (c : Chip) (n : Nat) (v : W32) : Chip :=
  let k := c.canOf n
  let count := c.fld (CANn_RING_STAT n) 24 16
  let d := min (wfld v 8 0) count
  ((((c.setFld (CANn_RING_STAT n) 24 16 (count - d)).setFld (CANn_RING_STAT n) 7 0
    (c.fld (CANn_RING_STAT n) 7 0 + d)).setCan n { k with slots := k.slots.drop d })).done

/-! ### Reception -/

/-- One kernel cycle in 2^-16 ns (R170). -/
def kernelCycle : Nat := 819200

/-- What the object of a receive check keeps of its frame (R193). -/
def Chip.checkTakes (c : Chip) (n o : Nat) (f : CanFrame) (sof : Nat) : Chip :=
  let c1 := (c.setObjState n o 9).setBit (canObj n o 5) 11 true
  let c2 := if c.bit (canObj n o 5) 11 then c1.setBit (canObj n o 5) 12 true else c1
  let data := bytesAt f.payload 0 64
  let c3 := (List.range 16).foldl (fun (c : Chip) i =>
    if 4 * i < f.payload.length then c.setReg (canData n o i) (w32 (leNat (bytesAt data (4 * i) 4))) else c) c2
  let c4 := c3.setFld (canObj n o 2) 19 16 (wfld f.word2 19 16)
  ((c4.setReg (canObj n o 6) (w32 (sof / 65536 % 2 ^ 32))).setReg (canObj n o 7) (w32 (at_ (c4.ttCycle n) 16))).mscDown n o

/-- The open receive checks offered a frame (R193): each takes the first one of its object's identifier and format that
completes in its window, or in the kernel cycle in which that ends (R38). -/
def Chip.offerChecks (c : Chip) (n : Nat) (f : CanFrame) (sof : Nat) : List CanWindow → List CanWindow × Chip
  | [] => ([], c)
  | w :: ws =>
    let o := c.objFrame n w.obj
    if w.taken ∨ w.close + kernelCycle ≤ c.lt ∨ o.fmt ≠ f.fmt ∨ o.ide ≠ f.ide ∨ o.id ≠ f.id then
      let r := c.offerChecks n f sof ws
      (w :: r.1, r.2)
    else
      let r := (c.checkTakes n w.obj f sof).offerChecks n f sof ws
      ({ w with taken := true } :: r.1, r.2)

/-- A frame completes that another node sent (R184, R186, R193). -/
def Chip.canReceive (c : Chip) (n : Nat) (f : CanFrame) (sof : Nat) (own : Bool) : Chip :=
  let rx := c.recCount n
  let (rx', c0) := if rx = 0 then (0, c)
    else if rx ≤ 127 then (rx - 1, c)
    else
      let (x, c1) := c.takeFree
      (119 + x % 9, c1)
  let c1 := c0.setCounters n (c.tec n) rx'
  let r := c1.offerChecks n f sof (c1.canOf n).checks
  (r.2.setCan n { r.2.canOf n with checks := r.1, erred := none }).ringStore n f sof own

/-- Whether a channel takes part on the bus. -/
def Chip.canOn (c : Chip) (n : Nat) : Bool := c.bit (CANn_STAT n) 28 && c.fld (CANn_STAT n) 31 30 != 2

/-- Whether a channel hears the bus while it sends nothing itself: an internal loop does not (R207; PRESUMED, log entry
45). -/
def Chip.canHears (c : Chip) (n : Nat) : Bool :=
  c.canOn n && (c.canOf n).tx.isNone && c.fld (CANn_CTL n) 13 12 != 1

/-- Whether a frame is a reference message of any potential master (R196). -/
def Chip.isReference (c : Chip) (n : Nat) (f : CanFrame) : Bool :=
  decide (f.fmt < 2) && !f.ide && !f.rtr && f.id / 8 == c.fld (CANn_TT_CFG n) 26 19

/-- Whether a frame is a veto in the agreement that a channel tracks (R200). -/
def Chip.isVeto (c : Chip) (n : Nat) (f : CanFrame) : Bool :=
  f.fmt == 0 && !f.ide && f.id == c.fld (CANn_TT_VETO n) 10 0 && f.payload.length == 2 && c.ttPhase n == 1 &&
    (byteAt f.payload 0).toNat == c.ttSeq n && (byteAt f.payload 1).toNat == c.ttProp n

/-- The guardian's own decoder takes the reference mark and bytes 0 and 4 of reference messages (R202), whatever the
controller does. -/
def Chip.guardHears (c : Chip) (n : Nat) (f : CanFrame) (sof : Nat) : Chip :=
  if c.isReference n f then
    let cycle := (byteAt f.payload 0).toNat % 64
    let c1 := (c.setCan n { c.canOf n with gdMark := sof, gdCycle := cycle }).setBit (CANn_GD_STAT n) 27 true
    if cycle = 0 then c1.setFld (CANn_GD_STAT n) 29 28 ((byteAt f.payload 4).toNat / 64) else c1
  else c

/-- A reference mark (R189): cycle count, windows and fired entries start over; a channel is synchronised by the second
one (PRESUMED, log entry 32). At cycle count 0 a matrix cycle starts, and a COMMIT of the last one is to take effect. -/
def Chip.refMark (c : Chip) (n sof cycle : Nat) : Chip :=
  let k := c.canOf n
  let c1 := c.setFld (CANn_TT_STAT n) 21 16 cycle
  let c2 := if c.ttSynced n || k.refs = 0 then c1 else (c1.setBit (CANn_TT_STAT n) 29 true).canEv n 5
  c2.setCan n { k with
    mark := sof, refs := min 2 (k.refs + 1), fired := [], arb := none, advanced := false
    matrixStart := k.matrixStart || (cycle == 0 && !k.advanced)
    committed := k.committed && cycle != 0
    commitTo := if cycle = 0 ∧ k.committed ∧ c.modeValid n (c.ttProp n) then some (c.ttProp n) else k.commitTo }

/-- The tracked agreement changed (R201): source 6. -/
def Chip.setAgreement (c : Chip) (n mode prop phase seq : Nat) : Chip :=
  let s := c.reg (CANn_TT_STAT n)
  let v := wsetFld (wsetFld (wsetFld (wsetFld s 13 12 mode) 11 10 prop) 9 8 phase) 7 0 seq
  let c1 := c.setReg (CANn_TT_STAT n) v
  if c.ttMode n = mode % 4 ∧ c.ttPhase n = phase % 4 then c1 else c1.canEv n 6

/-- Whether a node vetoes a mode (R200). -/
def Chip.vetoes (c : Chip) (n m : Nat) : Bool := !c.modeValid n m || nbit (c.fld (CANn_TT_VETO n) 19 16) m

/-- Global time taken over from a reference message of another master (R189, R197): its Master_Ref_Mark, and the rate
between the last two marks unless the discontinuity bit is set (PRESUMED, log entry 32). `old` is the channel before. -/
def Chip.followGlobal (c : Chip) (n : Nat) (old : CanChan) (sof mark : Nat) (disc : Bool) : Chip :=
  let d := (mark + 2 ^ 23 - old.globalAt) % 2 ^ 23
  let known := decide (0 < old.refs) && !disc && decide (0 < d) && decide (old.mark < sof)
  c.setCan n { c.canOf n with
    globalAt := mark, rateNum := if known then d else 0, rateDen := if known then sof - old.mark else 0 }

/-- A reference message of another master in time-triggered operation (R189, R194, R196, R200, R201). A master that
hears one of lower priority stays the master (PRESUMED, log entry 32). -/
def Chip.refArrives (c : Chip) (n : Nat) (f : CanFrame) (sof : Nat) : Chip :=
  let b (i : Nat) := (byteAt f.payload i).toNat
  let old := c.canOf n
  let cycle := b 0 % 64
  let cur := b 4 / 64
  let prop := b 4 / 16 % 4
  let phase := b 4 / 4 % 4
  let stays := c.ttMaster n && decide (c.fld (CANn_TT_CFG n) 30 28 < f.id % 8)
  let c1 := c.refMark n sof cycle
  let c2 := if stays then c1.setCan n { c1.canOf n with globalAt := c.trackedTime n }
    else (c1.setBit (CANn_TT_STAT n) 28 false).followGlobal n old sof ((b 2 + 256 * b 3) * 128 + b 1 / 2) (nbit (b 1) 0)
  let mode := c2.ttMode n
  let k := c2.canOf n
  let c3 := if c2.modeValid n cur then c2 else c2.ttLevel n 3
  let new := if cycle = 0 ∧ k.commitTo ≠ some cur ∧ c2.modeValid n cur then cur else mode
  let fresh := phase = 1 ∧ (c2.ttPhase n ≠ 1 ∨ c2.ttSeq n ≠ b 5)
  let c4 := c3.setCan n { c3.canOf n with
    commitTo := if k.commitTo = some cur then k.commitTo else none
    committed := k.committed || phase == 2
    masterPrio := some (f.id % 8)
    vetoSeen := if fresh then false else k.vetoSeen
    vetoDue := if fresh ∧ c2.vetoes n prop then some (b 5, prop) else k.vetoDue }
  c4.setAgreement n new prop phase (b 5)

/-- A frame that completes without error, `age` since its start (R170, R184, R189, R200, R202): one in a format that is
not enabled sends the channel back to integration. -/
def Chip.canArrives (c : Chip) (n : Nat) (f : CanFrame) (age : Nat) : Chip :=
  let sof := c.lt - age
  let c := c.guardHears n f sof
  if !c.canHears n then c
  else if !c.fmtOn n f.fmt then
    ((c.setCan n { c.canOf n with integrating := true }).setBit (CANn_STAT n) 28 false).setBit (CANn_STAT n) 25 false
  else
    let c1 := c.canReceive n f sof false
    let c2 := if !c1.ttRuns n then c1
      else if c1.isReference n f then c1.refArrives n f sof
      else if c1.isVeto n f then c1.setCan n { c1.canOf n with vetoSeen := true, vetoDue := none }
      else c1
    c2.canQuiet n

/-- A frame of another node begins, or completes (R184, R207). -/
def canRxFrame (c : Chip) (n : Nat) (begins : Bool) (f : CanFrame) (age : Nat) : Chip :=
  if begins then
    (if c.canHears n then (c.setCan n { c.canOf n with erred := none }).setBit (CANn_STAT n) 25 true else c)
  else c.canArrives n f age

/-- A reference message is received (R189, R202). -/
def canReferenceReceived (c : Chip) (n : Nat) (f : CanFrame) (age : Nat) : Chip := c.canArrives n f age

/-- A veto completes on the bus (R200). -/
def canVetoReceived (c : Chip) (n : Nat) (f : CanFrame) (age : Nat) : Chip := c.canArrives n f age

/-! ### Sending -/

/-- The pending object that wins among those allowed, identical ones by number (R180). -/
def Chip.canWinner (c : Chip) (n : Nat) (ok : Nat → Bool) : Option Nat :=
  ((List.range 128).filter fun k =>
      c.objState n k == 1 && wbit (c.reg (canObj n k 0)) 30 && c.fmtOn n (wfld (c.reg (canObj n k 0)) 29 28) && ok k).foldl
    (fun best k => match best with
      | none => some k
      | some b => if (c.objFrame n k).priority < (c.objFrame n b).priority then some k else some b) none

/-- A frame starts: its object is ACTIVE; outside a guardian window it is blocked and fails as in a bit
error (R180, R203). -/
def Chip.canStart (c : Chip) (n : Nat) (what : CanSend) (f : CanFrame) (close : Option Nat) (excl : Bool) : Chip :=
  let k := c.canOf n
  let c1 := match what with
    | .object o => c.setObjState n o 2
    | .null o => c.setBit (canObj n o 5) 9 true
    | _ => c
  let c2 := (c1.setCan n { k with
    tx := some ⟨what, f, c.lt, false, close, excl⟩, erred := none, wait := none }).setBit (CANn_STAT n) 26 true
  if c.bit (CANn_GD_CTL n) 31 && !c.guardOpen n then
    let c3 := (((c2.inc (CANn_GD_BLOCKED n)).canFlag n 7).canEv n 7)
    let c4 := if c.ttRuns n then c3.ttLevel n 2 else c3
    let c5 := c4.setReg (CANn_LASTERR n) 5
    c5.txFails n (c.tec n + 8) (c.recCount n)
  else c2

/-- Whether the controller may start a frame at all. -/
def Chip.canMay (c : Chip) (n : Nat) : Bool :=
  c.canOn n && !c.bit (CANn_CTL n) 30 && (c.canOf n).tx.isNone && c.bit (CANn_CTL n) 31 &&
  !(c.ttRuns n && c.fld (CANn_TT_STAT n) 31 30 == 3)

/-- A null frame (R191): the object's identifier and format, DLC 0, no data. -/
def CanFrame.asNull (f : CanFrame) : CanFrame := { f with word2 := f.word2 &&& 0xFFF0FFFF, payload := [], rtr := false }

/-- A veto frame (R200). -/
def Chip.vetoFrame (c : Chip) (n seq m : Nat) : CanFrame :=
  ⟨0, false, c.fld (CANn_TT_VETO n) 10 0, false, false, false, 0x00020000, 0,
    [BitVec.ofNat 8 seq, BitVec.ofNat 8 m]⟩

/-- The start of a frame (R180, R191, R192, R200). -/
def canFrameCommit (c : Chip) (n : Nat) : Chip :=
  if !c.canMay n then c
  else if c.ttRuns n then
    match (c.canOf n).wait with
    | some w =>
      let f := c.objFrame n w.obj
      if w.deadline < c.lt ∨ c.fmtOn n f.fmt = false then c
      else if w.null then c.canStart n (.null w.obj) f.asNull (some w.close) true
      else if c.objState n w.obj = 1 then c.canStart n (.object w.obj) f (some w.close) true
      else c
    | none =>
      match (c.canOf n).arb with
      | none => c
      | some w =>
        if w.close < c.lt then c
        else match (c.canOf n).vetoDue with
          | some (s, m) => c.canStart n .veto (c.vetoFrame n s m) (some w.close) false
          | none =>
            match c.canWinner n fun k => wbit (c.reg (canObj n k 0)) 23 with
            | some k => c.canStart n (.object k) (c.objFrame n k) (some w.close) false
            | none => c
  else
    match c.canWinner n fun _ => true with
    | some k => c.canStart n (.object k) (c.objFrame n k) none false
    | none => c

/-- The frame in transmission loses arbitration (R181, R182): the channel goes on as the other frame's receiver. -/
def canArbLost (c : Chip) (n : Nat) : Chip :=
  match (c.canOf n).tx with
  | none => c
  | some t =>
    let k := c.canOf n
    let c1 := (c.attemptFailed n t false true).canFrameEnd n
    if k.leaving then
      ((c1.setCan n { c1.canOf n with leaving := true }).setBit (CANn_STAT n) 28 true).setBit (CANn_STAT n) 25 true
    else c1.setBit (CANn_STAT n) 25 true

/-- Whether a frame has a data phase of its own rate: XL, or FD with a rate switch (R170, R172). -/
def CanFrame.dataPhase (f : CanFrame) : Bool := f.fmt == 2 || (f.fmt == 1 && f.brs)

/-- The reference entry of the mode in force that acts in the running basic cycle: its TIME, the length of the basic
cycle (R190). -/
def Chip.basicCycle (c : Chip) (n : Nat) : Option Nat :=
  ((rangeOf (c.modeDef n (c.ttMode n))).find? fun j =>
    let w := c.reg (canTrig n j 0)
    wfld w 15 12 == 1 && actsIn w (c.ttCycle n)).map fun j => c.fld (canTrig n j 0) 31 16

/-- This master's own reference message: the mark, the global time it carried, the basic cycle counted from GWBASE
(R189, R196, R197). -/
def Chip.ownReference (c : Chip) (n sof cycle mark : Nat) : Chip :=
  let c1 := c.refMark n sof cycle
  let len := (c1.basicCycle n).getD 0 * c.ntu n
  let next := (sof - c.gwBase n * 65536) / max 1 len + 1
  c1.setCan n { c1.canOf n with
    globalAt := mark, rateNum := 0, rateDen := 0, gwCycle := next, masterPrio := some (c.fld (CANn_TT_CFG n) 30 28) }

/-- A committed frame completes (R172, R181, R184, R186, R191): in a loop the channel receives it as well (R207;
PRESUMED, log entry 45). -/
def canTxComplete (c : Chip) (n : Nat) : Chip :=
  match (c.canOf n).tx with
  | none => c
  | some t =>
    let c0 := c.guardHears n t.frame t.sof
    let c1 := (if t.frame.dataPhase then c0.tdcMeasured n else c0).setCounters n (c.tec n - 1) (c.recCount n)
    let stamp (c : Chip) (k : Nat) : Chip :=
      let c1 := c.setReg (canObj n k 6) (w32 (t.sof / 65536 % 2 ^ 32))
      if c.ttRuns n then c1.setReg (canObj n k 7) (w32 (at_ (c.ttCycle n) 16)) else c1
    let c2 := match t.what with
      | .object k =>
        let d := if t.late then c1.setBit (canObj n k 5) 8 true else c1
        let d := stamp d k
        (if t.exclusive then d.mscDown n k else d).objEnds n k 3
      | .null k => (stamp c1 k).mscDown n k
      | .reference cyc mark => (c1.setBit (CANn_TT_STAT n) 28 true).ownReference n t.sof cyc mark
      | .veto => c1.setCan n { c1.canOf n with vetoDue := none, vetoSeen := true }
    let loop := c.fld (CANn_CTL n) 13 12
    let c3 := if loop = 1 ∨ loop = 2 then c2.canReceive n t.frame t.sof true
      else if c.bit (CANn_RING_CTL n) 30 then c2.ringStore n t.frame t.sof true else c2
    c3.canFrameEnd n

/-! ### XL payloads and the frozen path -/

/-- An XL payload's unit cannot be read: the frame ends as for a bit error, in its data phase (R172, R183). A late
cancel ends the object CANCELLED instead (R181; DEDUCED, log entry 44). -/
def Chip.xlFails (c : Chip) (n : Nat) (t : CanTx) : Chip :=
  let c1 := ((c.tdcMeasured n).canFlag n 5).canEv n 3
  let c2 := c1.setCounters n (c.tec n + 8) (c.recCount n)
  let c3 := match t.what with
    | .object k =>
      let d := c2.setBit (canObj n k 5) 10 true
      if t.late then (d.setBit (canObj n k 5) 8 true).objEnds n k 4 else d.objEnds n k 6
    | _ => c2
  let c4 := c3.canFrameEnd n
  c4.setCan n { c4.canOf n with erred := some t.what }

/-- The read of one 64-byte unit of an XL payload (R183): one that fails ends the frame, and a violation freezes the
path as well; while the path is frozen no unit can be read. -/
def canXlRead (c : Chip) (n unit : Nat) : Chip :=
  let k := c.canOf n
  match k.tx with
  | none => c
  | some t =>
    match t.what with
    | .object o =>
      let len := canLen 2 (c.reg (canObj n o 2))
      let m := c.fld (CANn_OWNER n) 3 0
      let a := c.fld (canObj n o 4) 31 6 * 64 + 64 * unit
      let size := min 64 (len - 64 * unit)
      if t.frame.fmt ≠ 2 ∨ wbit (c.reg (canObj n o 0)) 24 = false ∨ len ≤ 64 * unit then c
      else if k.frozen.isSome then c.xlFails n t
      else
        match c.dmaRead m a size with
        | (.ok bs, c1) => c1.setCan n { c1.canOf n with
            tx := some { t with frame := { t.frame with payload := t.frame.payload.take (64 * unit) ++ bs } } }
        | (.error .seg, c1) =>
          ((c1.setCan n { c1.canOf n with frozen := some (.xlRead a size) }).freezeAt (0x14 + n) m a size 1).xlFails n t
        | (.error .wait, c1) => c1
        | (.error _, c1) => c1.xlFails n t
    | _ => c

/-- The access of a frozen payload read made again (R374): its frame has ended, so that only another violation shows. -/
def Chip.canReread (c : Chip) (n a size : Nat) : Chip :=
  let m := c.fld (CANn_OWNER n) 3 0
  match c.dmaRead m a size with
  | (.error .seg, c1) => (c1.setCan n { c1.canOf n with frozen := some (.xlRead a size) }).freezeAt (0x14 + n) m a size 1
  | (_, c1) => c1

/-- A resolution of the memory path's freeze (R374): 1 resume, 2 redirect, 3 reset. -/
def canResolve (c : Chip) (n action : Nat) : Chip :=
  let k := c.canOf n
  let c0 := c.setCan n { k with frozen := none }
  let c1 := match k.frozen with
    | none => c0
    | some (.xlRead a size) => if action = 1 then c0.canReread n a size else c0
    | some (.store s) => if action = 1 then c0.canStoreRun n s.slot s.units else c0.canStoreFails n
  if action = 3 then c1.setBit (CANn_RING_CTL n) 31 false else c1

/-! ### Triggers -/

/-- A frame that waits for its start gives way to a newer one, and is not sent (R191). -/
def Chip.waitUnsent (c : Chip) (n : Nat) : Chip :=
  match (c.canOf n).wait with
  | some x => (c.setCan n { c.canOf n with wait := none }).mscUp n x.obj
  | none => c

/-- An exclusive send trigger (R191); `idle` whether the bus is idle at TIME. A frame that still waits in an earlier
window is not sent. One in a format that is not enabled cannot be (R170; DESIGN CHOICE, log entry 35). -/
def canExclusive (c : Chip) (n j : Nat) (idle : Bool) : Chip :=
  if !c.trigDue n j 2 then c
  else
    let w := c.reg (canTrig n j 1)
    let o := wfld w 22 16
    let c1 := (c.setFired n j).waitUnsent n
    let f := c.objFrame n o
    let pending := c.objState n o == 1
    let t := c.fld (canTrig n j 0) 31 16
    let close := (c.canOf n).mark + (t + wfld w 15 0) * c.ntu n
    if (pending ∨ wbit w 30) ∧ c.fmtOn n f.fmt then
      if idle ∧ c1.canMay n then
        if pending then c1.canStart n (.object o) f (some close) true
        else c1.canStart n (.null o) f.asNull (some close) true
      else
        let window := max 1 (min (c.fld (CANn_TT_CFG n) 15 8) 16)
        c1.setCan n { c1.canOf n with
          wait := some ⟨o, !pending, (c.canOf n).mark + (t + window) * c.ntu n, close⟩ }
    else c1.mscUp n o

/-- TXEW NTU after an exclusive trigger without bus idle (R191). -/
def canStartExpiry (c : Chip) (n : Nat) : Chip :=
  match (c.canOf n).wait with
  | none => c
  | some w =>
    if w.deadline < c.lt then (c.setCan n { c.canOf n with wait := none }).mscUp n w.obj else c

/-- The end of the window that entry j opens, in line time (R190). -/
def Chip.trigEnd (c : Chip) (n j : Nat) : Nat :=
  (c.canOf n).mark + (c.fld (canTrig n j 0) 31 16 + c.fld (canTrig n j 1) 15 0) * c.ntu n

/-- An arbitrating window opens (R192). -/
def canArbitrating (c : Chip) (n j : Nat) : Chip :=
  if c.trigDue n j 3 then
    let c1 := c.setFired n j
    c1.setCan n { c1.canOf n with
      arb := some ⟨0, c.trigEnd n j, false⟩ }
  else c

/-- A receive-check window opens (R193). -/
def canReceiveCheck (c : Chip) (n j : Nat) : Chip :=
  if c.trigDue n j 4 then
    let c1 := c.setFired n j
    c1.setCan n { c1.canOf n with
      checks := (c1.canOf n).checks ++ [⟨c.fld (canTrig n j 1) 22 16, c.trigEnd n j, false⟩] }
  else c

/-- The receive-check windows end that are over with their kernel cycle (R38, R193). -/
def canWindowEnd (c : Chip) (n : Nat) : Chip :=
  let past (w : CanWindow) : Bool := decide (w.close + kernelCycle ≤ c.lt)
  let ws := (c.canOf n).checks
  (ws.filter fun w => past w && !w.taken).foldl (fun c w => c.mscUp n w.obj)
    (c.setCan n { c.canOf n with checks := ws.filter fun w => !past w })

/-- A watch trigger (R190, R194). -/
def canWatch (c : Chip) (n j : Nat) : Chip := if c.trigDue n j 5 then (c.setFired n j).ttLevel n 3 else c

/-- The reference message of a basic cycle (R195, R198), bytes 0 to 3 by ISO 11898-4 (PRESUMED, log entry 32): the cycle
count; at level 2 seven bits of NTU fraction over the discontinuity bit, and Master_Ref_Mark. -/
def Chip.refFrame (c : Chip) (n cycle mark : Nat) (disc : Bool) : CanFrame :=
  let lvl2 := c.fld (CANn_CTL n) 19 18 = 2
  let b (x : Nat) : Byte := BitVec.ofNat 8 x
  let phase := at_ (c.ttMode n) 6 + at_ (c.ttProp n) 4 + at_ (c.ttPhase n) 2
  let fd := c.bit (CANn_TT_CFG n) 27
  let time := if lvl2 then [b (mark % 128 * 2 + b2n disc), b (mark / 128), b (mark / 32768)] else [0, 0, 0]
  ⟨b2n fd, false, c.fld (CANn_TT_CFG n) 26 19 * 8 + c.fld (CANn_TT_CFG n) 30 28, false, false, false, 0x00080000, 0,
    b cycle :: time ++ [b phase, b (c.ttSeq n), 0, 0]⟩

/-- How many NTU after the reference entry's TIME a potential master sends (R196; PRESUMED, log entry 32): at once as
the master or above the master's priority, else by its own priority, so that a backup takes over only where the master
is silent. -/
def Chip.refDelay (c : Chip) (n : Nat) : Nat :=
  let own := c.fld (CANn_TT_CFG n) 30 28
  if c.ttMaster n || (c.canOf n).masterPrio.any fun p => decide (own < p) then 0 else own

/-- Whether a reference message of this potential master is due (R190, R196, R197). -/
def Chip.refDue (c : Chip) (n : Nat) : Bool :=
  match c.basicCycle n with
  | none => false
  | some len =>
    if c.gatewayOn n then decide (c.gwBase n * 65536 + (c.canOf n).gwCycle * len * c.ntu n ≤ c.lt)
    else decide ((len + c.refDelay n) * c.ntu n ≤ c.lt - (c.canOf n).mark)

/-- Whether the next basic cycle starts a matrix cycle. -/
def Chip.matrixEnds (c : Chip) (n : Nat) : Bool :=
  (c.canOf n).refs == 0 || decide (c.matrixLen n (c.ttMode n) ≤ c.ttCycle n + 1)

/-- A matrix cycle of this master starts: source 4, and the agreement advances (R199): its first reference message and
every later one carry the new phase. -/
def Chip.advanceMatrix (c : Chip) (n : Nat) : Chip :=
  let k := c.canOf n
  let c0 := (c.setCan n { k with advanced := true, matrixStart := false }).canEv n 4
  match c.ttPhase n with
  | 0 => match k.modeReq with
    | some m =>
      let c1 := c0.setCan n { c0.canOf n with modeReq := none, vetoSeen := false }
      c1.setAgreement n (c.ttMode n) m 1 (c.ttSeq n + 1)
    | none => c0
  | 1 => c0.setAgreement n (c.ttMode n) (c.ttProp n) (if k.vetoSeen then 3 else 2) (c.ttSeq n)
  | 2 => c0.setAgreement n (c.ttProp n) (c.ttProp n) 0 (c.ttSeq n)
  | _ => c0.setAgreement n (c.ttMode n) (c.ttProp n) 0 (c.ttSeq n)

/-- Whether a gateway's global time is no continuation of what the bus has seen, within one NTU (R189; DESIGN CHOICE,
log entry 32). -/
def Chip.globalJumps (c : Chip) (n : Nat) : Bool :=
  c.gatewayOn n && (c.canOf n).refs != 0 &&
    (let d := (c.gatewayTime n + 65536 - c.trackedTime n / 128) % 65536
     decide (1 < d) && decide (d < 65535))

/-- A reference trigger of a potential time master (R190, R196, R197); `late`: the bus was not idle at the instant of
a gateway's reference. The first one of a matrix cycle has cycle count 0, and the agreement advanced. One in a format
that is not enabled is not sent (R170; DESIGN CHOICE, log entry 35). -/
def canReference (c : Chip) (n : Nat) (late : Bool) : Chip :=
  let fd := c.bit (CANn_TT_CFG n) 27
  if !c.ttRuns n || !c.bit (CANn_TT_CFG n) 31 || !c.canMay n || !c.modeValid n (c.ttMode n) || !c.fmtOn n (b2n fd) then c
  else if (c.canOf n).advanced || c.refDue n then
    let first := (c.canOf n).advanced || c.matrixEnds n
    let c1 := if first && !(c.canOf n).advanced then c.advanceMatrix n else c
    let c2 := if c.gatewayOn n && late then c1.ttLevel n 2 else c1
    let cycle := if first then 0 else c.ttCycle n + 1
    let mark := c.global128 n
    c2.canStart n (.reference cycle mark) (c2.refFrame n cycle mark (c.globalJumps n)) none false
  else c

/-! ### Mode agreements -/

/-- A matrix cycle starts (R199, R201): the master advances the agreement once its last basic cycle is over; another
channel, and a master whose first reference message has gone out, puts a committed mode into force. -/
def canMatrixStart (c : Chip) (n : Nat) : Chip :=
  let k := c.canOf n
  if !c.ttRuns n then c
  else if k.matrixStart then
    let c0 := (c.setCan n { k with matrixStart := false, commitTo := none, vetoDue := if c.ttPhase n = 1 then k.vetoDue
      else none }).canEv n 4
    match k.commitTo with
    | some m => c0.setAgreement n m (c.ttProp n) (c.ttPhase n) (c.ttSeq n)
    | none => c0
  else if c.ttMaster n && !k.advanced && c.matrixEnds n && c.refDue n then c.advanceMatrix n
  else c

/-- A write of CANn_TT_MODEREQ (R199). -/
def canModeReq (c : Chip) (n : Nat) (v : W32) : Chip :=
  let m := wfld v 1 0
  if !wbit v 31 then c.done
  else if c.ttMaster n = false ∨ c.ttPhase n ≠ 0 ∨ (c.canOf n).modeReq.isSome ∨ c.modeValid n m = false then
    (c.canRefused n).done
  else if m = c.ttMode n then c.done
  else (c.setCan n { c.canOf n with modeReq := some m }).done

/-- Whether a mode's entries may be made valid (R190). -/
def Chip.modeOk (c : Chip) (n : Nat) (v : W32) : Bool :=
  let es := (rangeOf v).map fun j => (c.reg (canTrig n j 0), c.reg (canTrig n j 1))
  let rising := ((es.zip es.tail).all fun p => decide (wfld p.1.1 31 16 ≤ wfld p.2.1 31 16))
  rising && (es.any fun e => wfld e.1 15 12 == 1) &&
  es.all fun e =>
    let ty := wfld e.1 15 12
    let w0 := c.reg (canObj n (wfld e.2 22 16) 0)
    decide (wfld v 26 24 ≤ 6) && decide (wfld e.1 11 6 < 2 ^ wfld e.1 5 3) && decide (wfld e.1 5 3 ≤ wfld v 26 24) &&
    decide (1 ≤ ty) && decide (ty ≤ 5) &&
    ((ty != 2 && ty != 4) || (wbit w0 31 && decide (wfld w0 29 28 < 2)))

/-- Whether a mode is in force or proposed while time-triggered operation runs (R204). -/
def Chip.modeHeld (c : Chip) (n m : Nat) : Bool :=
  c.ttRuns n && (m == c.ttMode n || ((c.ttPhase n != 0) && m == c.ttProp n) || (c.canOf n).modeReq == some m)

/-- A write of CANn_TT_MODEm (R190, R204). -/
def canModeWrite (c : Chip) (n m : Nat) (v : W32) : Chip :=
  if c.modeHeld n m then c.refuse
  else if wbit v 31 && !c.modeOk n v then (c.canFlag n 2).done
  else (c.setReg (CANn_TT_MODE n m) (v &&& 0x87FF01FF)).done

/-- A write of CMD.TTRESUME (R194). -/
def canTtResume (c : Chip) (n : Nat) : Chip :=
  let c1 := c.setFld (CANn_TT_STAT n) 31 30 0
  if c.fld (CANn_TT_STAT n) 31 30 = 3 then c1.ttRestart n else c1

/-- A write of CANn_CMD. -/
def canCmdWrite (c : Chip) (n : Nat) (v : W32) : Chip :=
  let c1 := if wbit v 0 then canRecover c n else c
  (if wbit v 1 then canTtResume c1 n else c1).done

/-- The guardian's output follows its windows (R202, R203): a frame still running is cut, which its sender sees as a
bit 0 error; `data` whether the frame was in a data phase. -/
def guardianWindow (c : Chip) (n : Nat) (data : Bool) : Chip :=
  let o := c.guardOpen n
  let c1 := c.setBit (CANn_GD_STAT n) 31 o
  if !o && c.bit (CANn_GD_CTL n) 31 && (c.canOf n).tx.isSome then
    ((if data then c1.tdcMeasured n else c1).setReg (CANn_LASTERR n) (w32 (at_ (b2n data) 3 + 5))).txFails n (c.tec n + 8) (c.recCount n)
  else c1

/-! ### Registers and message memory -/

/-- What a CAN register shows where it is not a stored value. -/
def canLive (c : Chip) (a : Nat) : W32 :=
  if 0x40090000 ≤ a then
    let n := (a - 0x40090000) / 0x1000
    let r := (a - 0x40090000) % 0x1000
    if r = 0x10C then w32 (at_ (c.globalTime n) 16 + c.cycleTime n % 65536)
    else if r = 0x208 then wsetBit (c.reg a) 31 (c.guardOpen n)
    else c.reg a
  else c.reg a

/-- Whether entry j lies in the range of a mode that R204 protects. -/
def Chip.entryHeld (c : Chip) (n j : Nat) (guard : Bool) : Bool :=
  (List.range 4).any fun m => c.modeHeld n m &&
    (rangeOf (if guard then c.reg (CANn_GD_MODE n m) else c.modeDef n m)).contains j

/-- A write to message memory (R176, R178, R204). A receive object that is put in use is EMPTY. -/
def canMemWrite (c : Chip) (m a : Nat) (v : W32) : Chip :=
  let n := (a - 0x40080000) / 0x4000
  let o := (a - 0x40080000) % 0x4000
  if o < 0x1000 then
    let k := o / 0x20
    let w := o % 0x20 / 4
    if 5 ≤ w then c.done
    else if c.objState n k = 2 then c.refuse
    else
      let v := if w = 1 then v &&& 0x1FFFFFFF else if w = 4 then v &&& 0xFFFFFFC0
        else if w = 0 then v &&& 0xFF800000 else v
      let c1 := c.setReg a v
      let s := c.objState n k
      (if w = 0 ∧ wbit v 31 ∧ wbit v 30 = false ∧ s ≠ 9 then c1.setObjState n k 8
        else if w = 0 ∧ wbit v 30 ∧ (s = 8 ∨ s = 9) then c1.setObjState n k 0 else c1).done
  else if o < 0x3000 then
    if c.objState n ((o - 0x1000) / 0x40) = 2 then c.refuse else (c.setReg a v).done
  else if o < 0x3800 then
    if c.entryHeld n ((o - 0x3000) / 8) false then c.refuse else (c.setReg a v).done
  else if m ≠ 0 ∨ c.entryHeld n ((o - 0x3800) / 8) true then c.refuse
  else (c.setReg a v).done

/-- A write to a CAN register or to message memory (R174, R204). -/
def canWrite (c : Chip) (m a : Nat) (v : W32) : Chip :=
  if a < 0x40090000 then canMemWrite c m a v
  else
    let n := (a - 0x40090000) / 0x1000
    let r := (a - 0x40090000) % 0x1000
    if r = 0 then (canCtlWrite c n v).done
    else if r = 0x10 then canCmdWrite c n v
    else if r = 0x14 then canObjCmd c n v
    else if 0x20 ≤ r ∧ r ≤ 0x30 ∧ c.bit (CANn_CTL n) 31 then (c.canRefused n).done
    else if r = 0x4C then canRingPop c n v
    else if r = 0x110 then canModeReq c n v
    else if 0x120 ≤ r ∧ r < 0x130 then canModeWrite c n ((r - 0x120) / 4) v
    else if r = 0x100 then
      let c1 := if c.bit (CANn_CTL n) 17 && !wbit v 31 then c.canFlag n 2 else c
      c1.plainWrite m a v
    else if 0x200 ≤ r ∧ m ≠ 0 then c.refuse
    else if 0x210 ≤ r ∧ r < 0x220 ∧ c.modeHeld n ((r - 0x210) / 4) then c.refuse
    else c.plainWrite m a v

end Sys2Proof.Machine
end

