-- ==== Sys2Proof/Machine/Cvu.lean ====
section
/-!
DEFINITION. The check-value unit (R403 to R407) and its registers (R410, R411).
-/
namespace Sys2Proof.Machine

/-- The low `w` bits of a number in reverse order (R403). -/
def reflectBits (w x : Nat) : Nat := ((List.range w).map fun i => b2n (nbit x i) * 2 ^ (w - 1 - i)).sum

/-- One byte stepped into a model register of width `w` (R403). -/
def crcStep (w poly : Nat) (refin : Bool) (s : Nat) (b : Byte) : Nat :=
  let x := if refin then reflectBits 8 b.toNat else b.toNat
  (List.range 8).foldl (fun s i =>
    let fb := nbit s (w - 1) != nbit x (7 - i)
    let t := s * 2 % 2 ^ w
    if fb then t ^^^ poly else t) s

/-- The width of a context: others than 1 to 64 are stored as 64 (R411). -/
def Chip.cvWidth (c : Chip) (n : Nat) : Nat := c.fld (CVn_CFG n) 6 0

/-- Bytes absorbed by a context (R403). -/
def Chip.cvStep (c : Chip) (n : Nat) (bs : List Byte) : Chip :=
  let w := c.cvWidth n
  let poly := c.reg64 (CVn_POLY_LO n) % 2 ^ w
  c.setReg64 (CVn_STATE_LO n)
    (bs.foldl (crcStep w poly (c.bit (CVn_CFG n) 8)) (c.reg64 (CVn_STATE_LO n) % 2 ^ w))

/-- FOREIGN where a feed reaches the context that the schedule engine uses (R407). -/
def Chip.cvShared (c : Chip) (n : Nat) : Chip :=
  if c.bit SWX_SCHED_CTL 31 ∧ c.fld SWX_SCHED_CTL 3 0 = n then c.flag (CVn_FLAGS n) 1 (432 + n) else c

/-- A feed: the bytes absorbed and counted (R405, R407). -/
def Chip.cvFeed (c : Chip) (n : Nat) (bs : List Byte) : Chip :=
  let c1 := (c.cvStep n bs).cvShared n
  c1.setReg (CVn_COUNT n) (c.reg (CVn_COUNT n) + w32 bs.length)

/-- Whether a master may write a context (R407). -/
def Chip.cvMaster (c : Chip) (n m : Nat) : Bool := m == 0 || m == c.fld (CVn_OWNER n) 3 0

/-- The bytes of an XDM unit, absorbed only where its channel's owner may feed the context (R407). -/
def Chip.cvUnit (c : Chip) (n m : Nat) (bs : List Byte) : Chip :=
  if c.cvMaster n m then c.cvFeed n bs else c.flag (CVn_FLAGS n) 1 (432 + n)

/-- The fold word as bytes, most significant first (R405). -/
def Chip.cvFold (c : Chip) (n : Nat) : List Byte := beBytes 4 (c.reg (CVn_FOLD n)).toNat

/-- LOAD of a preset (R404). -/
def cvLoad (c : Chip) (n preset : Nat) : Chip :=
  let put (w poly init : Nat) (ref : Bool) (xo : Nat) : Chip :=
    let c1 := c.setReg (CVn_CFG n)
      (wsetFld (wsetBit (wsetBit (c.reg (CVn_CFG n)) 9 ref) 8 ref) 6 0 w)
    ((c1.setReg64 (CVn_POLY_LO n) poly).setReg64 (CVn_INIT_LO n) init).setReg64 (CVn_XOROUT_LO n) xo
  match preset with
  | 0 => put 32 0x04C11DB7 0xFFFFFFFF true 0xFFFFFFFF
  | 1 => put 32 0x1EDC6F41 0xFFFFFFFF true 0xFFFFFFFF
  | 2 => put 16 0x1021 0xFFFF false 0
  | _ => put 64 0x42F0E1EBA9EA3693 0 false 0

/-- START (R405). -/
def cvStart (c : Chip) (n : Nat) : Chip :=
  let c1 := (c.setReg64 (CVn_STATE_LO n) (c.reg64 (CVn_INIT_LO n) % 2 ^ c.cvWidth n)).setReg (CVn_COUNT n) 0
  if c.bit (CVn_CFG n) 31 ∧ c.bit (CVn_CFG n) 30 = false then c1.cvStep n (c.cvFold n) else c1

/-- FINISH (R403, R405). -/
def cvFinish (c : Chip) (n : Nat) : Chip :=
  let c1 := if c.bit (CVn_CFG n) 31 && c.bit (CVn_CFG n) 30 then c.cvStep n (c.cvFold n) else c
  let w := c.cvWidth n
  let s := c1.reg64 (CVn_STATE_LO n) % 2 ^ w
  let r := (if c.bit (CVn_CFG n) 9 then reflectBits w s else s) ^^^ (c.reg64 (CVn_XOROUT_LO n) % 2 ^ w)
  (c1.setReg64 (CVn_RESULT_LO n) r).flag (CVn_FLAGS n) 0 (432 + n)

/-- A write of CVn_CTL: LOAD, START, FINISH (R405). -/
def cvCtlWrite (c : Chip) (m n : Nat) (v : W32) : Chip :=
  if !c.cvMaster n m then c.refuse
  else
    let c1 := if wbit v 29 then cvLoad c n (wfld v 25 24) else c
    let c2 := if wbit v 31 then cvStart c1 n else c1
    (if wbit v 30 then cvFinish c2 n else c2).done

/-- A write of CVn_DATA4 or CVn_DATA1 (R405, R407). -/
def cvDataWrite (c : Chip) (m n bytes : Nat) (v : W32) : Chip :=
  if c.cvMaster n m then (c.cvFeed n (leBytes bytes v.toNat)).done else c.refuse

/-- A write to a CVU register. -/
def cvuWrite (c : Chip) (m a : Nat) (v : W32) : Chip :=
  let n := (a - 0x400E0000) / 0x80
  match a % 0x80 with
  | 0x00 =>
    let w := wfld v 6 0
    if !c.cvMaster n m then c.refuse
    else c.plainWrite m a (if w = 0 ∨ 64 < w then wsetFld v 6 0 64 else v)
  | 0x04 => cvCtlWrite c m n v
  | 0x0C => c.plainWrite m a v
  | 0x3C => cvDataWrite c m n 4 v
  | 0x40 => cvDataWrite c m n 1 v
  | _ => if c.cvMaster n m then c.plainWrite m a v else c.refuse

end Sys2Proof.Machine
end

