-- ==== Sys2Proof/Machine/HifRegs.lean ====
section
/-!
DEFINITION. HIF's registers and the PCIe endpoint beside its accesses: doorbells and the reply notice (R422 to R424),
MSI-X messages (R399, R416, R419), the link (R414, R501) and the outbound window's outcomes (R532).
-/
namespace Sys2Proof.Machine

def Chip.setHif (c : Chip) (f : HifState → HifState) : Chip := { c with hif := f c.hif }

/-- HIF_FLAGS bits: an outbound access, a parallel access, an xSPI access, a doorbell was refused. -/
def Chip.hifFlag (c : Chip) (i : Nat) : Chip := c.setBit HIF_FLAGS i true

/-- The number of posts between two 16-bit counters (R422). -/
def ringDist (a b : Nat) : Nat := (a + 65536 - b) % 65536

/-- A write of HIF_CMD_DB (R423). -/
def cmdDoorbell (c : Chip) (m : Nat) (v : W32) : Chip :=
  if m ≠ 11 then c.refuse
  else
    let cons := c.fld HIF_CMD_CONS 15 0
    let d := ringDist (wfld v 15 0) cons
    if d ≤ 64 ∧ ringDist (c.fld HIF_CMD_DB 15 0) cons ≤ d then (c.setReg HIF_CMD_DB (w32 (wfld v 15 0))).done
    else (c.hifFlag 0).done

/-- A write of HIF_RPL_DB (R423). -/
def rplDoorbell (c : Chip) (m : Nat) (v : W32) : Chip :=
  if m ≠ 11 then c.refuse
  else
    let old := c.fld HIF_RPL_DB 15 0
    if ringDist (wfld v 15 0) old ≤ ringDist (c.fld HIF_RPL_PROD 15 0) old then
      (c.setReg HIF_RPL_DB (w32 (wfld v 15 0))).done
    else (c.hifFlag 1).done

/-- The reply notice: MSI-X vector 0, or bit 0 of HIF_VPEND0 (R416, R419). -/
def Chip.replyNotice (c : Chip) : Chip :=
  if c.fld HIF_STAT 17 16 = 0 then { c with evt := { c.evt with msix := c.evt.msix ++ [0] } }
  else c.setBit HIF_VPEND0 0 true

/-- A write of HIF_RPL_SIG (R424, R435). -/
def replySignal (c : Chip) (m : Nat) (v : W32) : Chip :=
  if m ≠ 0 then c.refuse else (if wbit v 0 then c.replyNotice else c).done

/-- A write to a HIF register. -/
def hifWrite (c : Chip) (m a : Nat) (v : W32) : Chip :=
  if a = HIF_CMD_DB then cmdDoorbell c m v
  else if a = HIF_RPL_DB then rplDoorbell c m v
  else if a = HIF_RPL_SIG then replySignal c m v
  else c.plainWrite m a v

/-- Whether HOST_IRQ_N is driven low (R419). -/
def Chip.hostIrqLow (c : Chip) : Bool := c.reg HIF_VPEND0 != 0 || c.reg HIF_VPEND1 != 0

/-! ### MSI-X -/

/-- A word of the MSI-X table at reset: every vector is masked, as PCIe has it (R415; PRESUMED, log entry 56). -/
def msixReset (k : Nat) : W32 := if k % 4 = 3 then 1 else 0

/-- Word `k` of the MSI-X table: address low and high, data, vector control. -/
def Chip.msixWord (c : Chip) (k : Nat) : W32 := tblGet (msixReset k) c.hif.msix k

/-- A table word written; a vector unmasked while its pending bit is set sends its message (R399; PRESUMED, log entry
56). -/
def Chip.setMsixWord (c : Chip) (k : Nat) (v : W32) : Chip :=
  let c1 := c.setHif fun h => { h with msix := tblSet (msixReset k) h.msix k v }
  if k % 4 = 3 ∧ wbit v 0 = false ∧ nbit c.hif.pba (k / 4) then
    let c2 := c1.setHif fun h => { h with pba := h.pba - 2 ^ (k / 4) }
    { c2 with evt := { c2.evt with msix := c2.evt.msix ++ [k / 4] } }
  else c1

/-- The oldest MSI-X message leaves, or its vector's pending bit is set where the vector is masked; without a link
it waits (R399; PRESUMED, log entry 56). -/
def msixSend (c : Chip) : Chip :=
  match c.evt.msix with
  | [] => c
  | v :: rest =>
    if c.bit HIF_STAT 31 then
      let c1 := { c with evt := { c.evt with msix := rest } }
      if wbit (c.msixWord (4 * v + 3)) 0 then
        if nbit c.hif.pba v then c1 else c1.setHif fun h => { h with pba := h.pba + 2 ^ v }
      else c1.setHif fun h =>
        { h with message := some (join64 (c.msixWord (4 * v + 1)) (c.msixWord (4 * v)), c.msixWord (4 * v + 2)) }
    else c

/-! ### The link -/

/-- The link trains or goes down; the endpoint trains only on the PCIe path (R413, R414). -/
def pcieLink (c : Chip) (up : Bool) (width speed : Nat) : Chip :=
  if c.fld HIF_STAT 17 16 = 0 then
    let c1 := c.setBit HIF_STAT 31 up
    (c1.setFld HIF_STAT 7 4 (if up then width else 0)).setFld HIF_STAT 3 0 (if up then speed else 0)
  else c

/-- PERST_N resets only the PCIe endpoint: its link and its MSI-X table and pending bits (R501; PRESUMED, log entry
56). -/
def perstAssert (c : Chip) : Chip := (pcieLink c false 0 0).setHif fun h => { h with msix := [], pba := 0 }

/-! ### The outbound window -/

/-- An outbound access that the host refuses, or that cannot be sent (R532). -/
def Chip.obRefused (c : Chip) : Chip := c.hifFlag 4

/-- A waiting outbound read gets its outcome: the first of a master that has none. -/
def Chip.obResolve (c : Chip) (m : Nat) (r : Option (List Byte)) : Chip :=
  match c.hif.ob.find? fun x => x.m == m && x.result.isNone with
  | none => c
  | some x =>
    let y := { x with result := some r }
    let c1 := c.setHif fun h => { h with ob := h.ob.map fun z => if z = x then y else z }
    if r.isNone then c1.obRefused else c1

/-- The completions of a master's outbound read arrive: with data, or refused by the host or poisoned (R532). -/
def obCompletion (c : Chip) (m : Nat) (ok : Bool) (data : List Byte) : Chip :=
  match c.hif.ob.find? fun x => x.m == m && x.result.isNone with
  | none => c
  | some x => c.obResolve m (if ok then some (bytesAt data 0 x.n) else none)

/-- No completion within 10 ms (R38, R532). -/
def obTimeout (c : Chip) (m : Nat) : Chip :=
  match c.hif.ob.find? fun x => x.m == m && x.result.isNone with
  | none => c
  | some x => if x.start + 10000000 < c.tmu.raw then c.obResolve m none else c

end Sys2Proof.Machine
end

