-- ==== Sys2Proof/Machine/Mbx.lean ====
section
/-!
DEFINITION. Mailboxes (R388 to R396) and their registers (R408, R411).
-/
namespace Sys2Proof.Machine

def Chip.mbEn (c : Chip) (n : Nat) : Bool := c.bit (MBn_CFG n) 31
def Chip.mbWide (c : Chip) (n : Nat) : Bool := c.bit (MBn_CFG n) 30
def Chip.mbFull (c : Chip) (n : Nat) : Bool := c.bit (MBn_CTL n) 30
def Chip.mbSender (c : Chip) (n : Nat) : Nat := c.fld (MBn_CFG n) 3 0
def Chip.mbReceiver (c : Chip) (n : Nat) : Nat := c.fld (MBn_CFG n) 7 4

/-- The index of a mailbox's last register (R388). -/
def Chip.mbLast (c : Chip) (n : Nat) : Nat := if c.mbWide n then 15 else 7

/-- The partner with which a mailbox forms a pair (R393). -/
def Chip.mbPartner (c : Chip) (n : Nat) : Option Nat :=
  let p := c.fld (MBn_CFG n) 13 8
  if p ≠ n ∧ c.mbEn n ∧ c.mbEn p ∧ c.bit (MBn_CFG n) 29 ∧ c.bit (MBn_CFG p) 29 ∧ c.fld (MBn_CFG p) 13 8 = n then
    some p
  else none

def Chip.setPair (c : Chip) (n : Nat) (t : PairTimer) : Chip :=
  { c with mbx := { c.mbx with pairs := tblSet .reset c.mbx.pairs n t } }

def Chip.setMbTimer (c : Chip) (n : Nat) (t : MbTimer) : Chip :=
  { c with mbx := { c.mbx with timers := tblSet .reset c.mbx.timers n t } }

/-- A mailbox's event (R397). -/
def Chip.mbRaise (c : Chip) (n code : Nat) : Chip := c.raise (448 + n) code

/-- Why a mailbox access is refused, or allowed, by the table of R389. -/
def Chip.mbReads (c : Chip) (m n : Nat) : Bool :=
  m == 0 || (c.mbEn n && (m == c.mbSender n || m == c.mbReceiver n))

/-- Whether a write of CTL's bits is allowed to a master (R389). -/
def Chip.mbCtlAllowed (c : Chip) (m n : Nat) (v : W32) : Bool :=
  let go := wbit v 31
  let tmo := wbit v 29
  let reset := wbit v 26
  if !c.mbEn n then m == 0 && !go
  else if m == c.mbSender n then (!reset || m == 0) && !(go && c.mbFull n)
  else if m == c.mbReceiver n then !go && !tmo && (!reset || m == 0)
  else m == 0 && !go && !tmo

/-- FULL cleared: the timeout and the pair timer stop (R391, R393, R395). -/
def Chip.mbEmpty (c : Chip) (n : Nat) : Chip :=
  let c1 := (c.setBit (MBn_CTL n) 30 false).setMbTimer n .reset
  let c2 := c1.setPair n .reset
  match c.mbPartner n with
  | some p => c2.setPair p .reset
  | none => c2

/-- The pair timers of two partners started when both are full (R393). -/
def Chip.mbPaired (c : Chip) (n : Nat) : Chip :=
  match c.mbPartner n with
  | some p => if c.mbFull p then (c.setPair n ⟨some c.lt, false⟩).setPair p ⟨some c.lt, false⟩ else c
  | none => c

/-- GO by the sender of an empty mailbox (R390, R393). -/
def mailboxGo (c : Chip) (n : Nat) : Chip :=
  let cnt := (c.fld (MBn_CTL n) 15 0 + 1) % 65536
  let c1 := c.setReg (MBn_CTL n) (wsetFld (wsetBit (wsetBit (wsetBit (c.reg (MBn_CTL n)) 30 true) 29 false) 27 false)
    15 0 cnt)
  ((c1.setMbTimer n ⟨some c.lt⟩).mbRaise n 1).mbPaired n

/-- RESET by SUP (R395). -/
def mailboxReset (c : Chip) (n : Nat) : Chip :=
  let full := c.mbFull n
  let c1 := c.mbEmpty n
  let c2 := (c1.setBit (MBn_CTL n) 29 false).setBit (MBn_CTL n) 28 false
  let c3 := if full then c2.setBit (MBn_CTL n) 27 true else c2
  let c4 := (List.range 16).foldl (fun c i => c.setReg (MBn_DATA n i) 0) c3
  if full && c.mbWide n then c4.mbRaise n 5 else c4

/-- A write of MBn_CTL: GO, then RESET, then W1C (R389, R396). -/
def mbCtlWrite (c : Chip) (m n : Nat) (v : W32) : Chip :=
  if !c.mbCtlAllowed m n v then c.refuse
  else
    let c1 := if wbit v 31 then mailboxGo c n else c
    let c2 := if wbit v 26 then mailboxReset c1 n else c1
    let c3 := if wbit v 29 then c2.setBit (MBn_CTL n) 29 false else c2
    (if wbit v 28 then c3.setBit (MBn_CTL n) 28 false else c3).done

/-- A write of a data register (R388, R389). -/
def mbDataWrite (c : Chip) (m n i : Nat) (v : W32) : Chip :=
  if c.mbEn n && m == c.mbSender n && !c.mbFull n then
    (if i ≤ c.mbLast n then c.setReg (MBn_DATA n i) v else c).done
  else c.refuse

/-- A write of MBn_CFG (R388). -/
def mbCfgWrite (c : Chip) (m n : Nat) (v : W32) : Chip :=
  if c.mbFull n || (wbit v 31 && wfld v 3 0 == wfld v 7 4) then c.refuse else c.plainWrite m (MBn_CFG n) v

/-- The acknowledgement (R391). -/
def mbAck (c : Chip) (n : Nat) : Chip :=
  let c1 := c.mbEmpty n
  if c.mbWide n then c1.mbRaise n 2 else c1

/-- A read of a data register: what it returns, and the state after it; none where refused (R388, R389, R391). -/
def mbDataRead (c : Chip) (m n i : Nat) : Option (W32 × Chip) :=
  if !c.mbReads m n then none
  else
    let v := if i ≤ c.mbLast n then c.reg (MBn_DATA n i) else 0
    some (v, if c.mbEn n && m == c.mbReceiver n && i == c.mbLast n && c.mbFull n then mbAck c n else c)

/-- The timeout in 2^-16 ns (R392, R411). -/
def Chip.mbTimeout (c : Chip) (n : Nat) : Nat :=
  let unit := match c.fld (MBn_CFG n) 15 14 with
    | 0 => 1
    | 1 => 100
    | 2 => 10000
    | _ => 1000000
  c.fld (MBn_CFG n) 27 16 * unit * 65536000

/-- Expiry of a mailbox's timeout (R392); an arrival in its last tick comes first (R38). -/
def mailboxTimeout (c : Chip) (n : Nat) : Chip :=
  match (tblGet .reset c.mbx.timers n).goLt with
  | none => c
  | some t =>
    if c.mbFull n ∧ c.mbTimeout n ≠ 0 ∧ t + c.mbTimeout n < c.lt then
      let c1 := (c.setBit (MBn_CTL n) 29 true).setMbTimer n .reset
      if c.mbWide n then c1.mbRaise n 3 else c1
    else c

/-- A pair's count exceeds MBX_PAIRLIM at a microsecond boundary; FULL cleared in its tick comes first (R38, R393). -/
def crossWait (c : Chip) (n : Nat) : Chip :=
  match c.mbPartner n with
  | none => c
  | some p =>
    let t := tblGet .reset c.mbx.pairs n
    match t.start with
    | none => c
    | some s =>
      if t.done = false ∧ c.mbFull n ∧ c.mbFull p ∧ (c.reg MBX_PAIRLIM).toNat < (c.lt - 1) / 65536000 - s / 65536000 then
        let c1 := (c.setBit (MBn_CTL n) 28 true).setBit (MBn_CTL p) 28 true
        let c2 := (c1.setPair n ⟨some s, true⟩).setPair p ⟨some s, true⟩
        ((c2.mbRaise n 4).mbRaise p 4).wakeLine 0 1 7
      else c

/-- A bit of every mailbox's CTL, for 32 mailboxes from `lo` (R408). -/
def Chip.mbBits (c : Chip) (lo i : Nat) : W32 :=
  w32 ((List.range 32).map fun k => b2n (c.bit (MBn_CTL (lo + k)) i) * 2 ^ k).sum

/-- What an MBX register shows where it is not a stored value; data registers are read by `mbDataRead`. -/
def mbxLive (c : Chip) (a : Nat) : W32 :=
  match a - 0x400F0000 with
  | 0x2004 => c.mbBits 0 30
  | 0x2008 => c.mbBits 32 30
  | 0x200C => c.mbBits 0 28
  | 0x2010 => c.mbBits 32 28
  | _ => c.reg a

/-- A write to an MBX register. -/
def mbxWrite (c : Chip) (m a : Nat) (v : W32) : Chip :=
  let o := a - 0x400F0000
  if o < 0x2000 then
    let n := o / 0x80
    let r := o % 0x80
    if r < 0x40 then mbDataWrite c m n (r / 4) v
    else if r = 0x40 then mbCtlWrite c m n v
    else if r = 0x44 then mbCfgWrite c m n v
    else c.done
  else if a = MBX_PAIRLIM then c.plainWrite m a (if v = 0 then 1 else v)
  else c.plainWrite m a v

end Sys2Proof.Machine
end

