-- ==== Sys2Proof/Machine/Pins.lean ====
section
/-!
DEFINITION. The GPIO pins: what drives a ball (R502, R503), pin settings (R502, R504, R528) and the software
outputs (R527).
-/
namespace Sys2Proof.Machine

/-- FUNC of a pin (R528). -/
def Chip.pinFunc (c : Chip) (g : Nat) : Nat := c.fld (SYS_PIN g) 3 0

/-- Whether HOSTSEL selects the parallel bus (R485, R504). -/
def Chip.parallelHost (c : Chip) : Bool := decide (2 ≤ c.fld SYS_STRAP 1 0)

/-- A level driven open-drain: high is not driven (R528). -/
def Chip.openDrain (c : Chip) (g : Nat) (b : Bool) : Option Bool := if b && c.bit (SYS_PIN g) 13 then none else some b

/-- The level that a step generator drives on a pin (R317, R327). -/
def Chip.stepDrives (c : Chip) (g : Nat) : Option Bool :=
  (List.range 16).findSome? fun m =>
    if !c.bit (STm_CFG m) 31 then none
    else if c.fld (STm_CFG m) 6 0 = g then some (c.stepLevels m).1
    else if c.fld (STm_CFG m) 13 7 = g then some (c.stepLevels m).2
    else none

/-- The level that the device drives on a ball, if it drives it: only the function that FUNC selects (R502). -/
def Chip.padDrives (c : Chip) (g : Nat) : Option Bool :=
  match c.pinFunc g with
  | 0 => if c.bit (SYS_GPIO_OE (g / 32)) (g % 32) then c.openDrain g (c.bit (SYS_GPIO_OUT (g / 32)) (g % 32)) else none
  | 1 =>
    ((List.range 32).find? fun n => c.toDrives n && c.fld (TMU_TOn_CFG n) 6 0 == g).bind fun n =>
      c.openDrain g (c.toLevel n)
  | 6 => c.stepDrives g
  | f =>
    if 2 ≤ f ∧ f ≤ 5 then
      ((List.range 32).find? fun i => c.windowPin (f - 2) i == g).bind fun i => c.laneDrives (f - 2) i
    else none

/-- The level at a ball: the device's, the board's, or the pull's; none where nothing gives it one (R503). -/
def Chip.padLevel (c : Chip) (g : Nat) : Option Bool :=
  match c.padDrives g with
  | some b => some b
  | none =>
    if !nbit c.pin.undriven g then some (nbit c.pin.ext g)
    else match c.fld (SYS_PIN g) 5 4 with
      | 1 => some false
      | 2 => some true
      | _ => none

/-- A read of SYS_GPIO_INk: a bit of a pin without a level is a free value (R503). -/
def gpioRead (c : Chip) (k : Nat) : W32 × Chip :=
  let at32 (i : Nat) : Option Bool := c.padLevel (32 * k + i)
  if (List.range 32).all fun i => (at32 i).isSome then
    (w32 ((List.range 32).map fun i => b2n ((at32 i).getD false) * 2 ^ i).sum, c)
  else
    let (f, c1) := c.takeFree
    (w32 ((List.range 32).map fun i => b2n ((at32 i).getD (f.testBit i)) * 2 ^ i).sum, c1)

/-- A write of SYS_PINn (R502, R504, R528). -/
def pinWrite (c : Chip) (m g : Nat) (v : W32) : Chip :=
  let f := wfld v 3 0
  if m ≠ 0 ∨ 7 < f ∨ (f = 7 ∧ (g < 96 ∨ c.parallelHost = false)) ∨ (96 ≤ g ∧ c.parallelHost ∧ f ≠ 7) then c.refuse
  else c.plainWrite m (SYS_PIN g) (if wfld v 5 4 = 3 then wsetFld v 5 4 1 else v)

/-- A write of SYS_GPIO_SETk (R527). -/
def gpioSet (c : Chip) (k : Nat) (v : W32) : Chip :=
  (c.setReg (SYS_GPIO_OUT k) (c.reg (SYS_GPIO_OUT k) ||| v)).done

/-- A write of SYS_GPIO_CLRk (R527). -/
def gpioClr (c : Chip) (k : Nat) (v : W32) : Chip :=
  (c.setReg (SYS_GPIO_OUT k) (c.reg (SYS_GPIO_OUT k) &&& ~~~v)).done

end Sys2Proof.Machine
end

