-- ==== Sys2Proof/Machine/Swx.lean ====
section
/-!
DEFINITION. SWX: the frame buffer and its ledger (R140 to R143), forwarding and learning (R145 to R148),
copies, ageing and flush (R149, R150, R162, R163), gate lists and selection (R151 to R154), streams, meters,
gates and redundancy (R155 to R158), the schedule engine and null frames (R159 to R161), tables (R164, R165)
and SWX's registers (R167, R168); with the counters of a port (R123, R124), which both use.
-/
namespace Sys2Proof.Machine

/-! ### Counters and events -/

/-- A port's event source (R132). -/
def Chip.portEv (c : Chip) (p i : Nat) : Chip := c.raise (144 + 8 * p + i) 0

/-- A port counter increased (R123, R124). -/
def Chip.count (c : Chip) (p j n : Nat) : Chip :=
  let old := (c.reg (ETH_Pn_CNT p j)).toNat
  let new := (old + n) % 2 ^ 32
  let c1 := c.setReg (ETH_Pn_CNT p j) (w32 new)
  if old / 2 ^ 31 = new / 2 ^ 31 then c1
  else
    (if j < 32 then c1.setBit (ETH_Pn_CNTHALF0 p) j true
      else c1.setBit (ETH_Pn_CNTHALF1 p) (j - 32) true).portEv p 1

/-- A SWX count register increased, raising its source when it leaves 0 (R166). -/
def Chip.incFrom0 (c : Chip) (a src : Nat) : Chip :=
  let c1 := c.inc a
  if c.reg a = 0 then c1.raise src 0 else c1

/-- A port flag whose setting raises port source 7 (R132). -/
def Chip.portFlag (c : Chip) (p i : Nat) : Chip := (c.setBit (ETH_Pn_FLAGS p) i true).portEv p 7

/-- The rate of a switch port in Mb/s (R137). -/
def Chip.rate (c : Chip) (p : Nat) : Nat :=
  if 8 ≤ p then 16000
  else match c.fld (ETH_Pn_STAT p) 27 24 with
    | 0 => 10 | 1 => 100 | 2 => 1000 | 3 => 2500 | 4 => 5000 | _ => 10000

/-- Whether a port's link is up (STAT.LINK). -/
def Chip.linkUp (c : Chip) (p : Nat) : Bool := c.bit (ETH_Pn_STAT p) 31

/-- Whether a switch port takes copies: SP8 and SP9 have no link that could be down (R163). -/
def Chip.portUp (c : Chip) (p : Nat) : Bool := decide (8 ≤ p) || c.linkUp p

/-- Whether preemption is available on a port in its mode, at its rate and in its duplex (R104, R115). -/
def Chip.canPreempt (c : Chip) (p : Nat) : Bool :=
  let mode := c.fld (ETH_Pn_STAT p) 3 0
  let allowed := match mode with
    | 0x1 => c.rate p == 1000
    | 0xA => c.rate p == 1000
    | 0xB => true
    | 0xC => true
    | 0xD => decide (1000 ≤ c.rate p)
    | 0xE => true
    | _ => false
  allowed && c.bit (ETH_Pn_STAT p) 29

/-- Whether preemption is in use on a port (R104, R115). -/
def Chip.preempts (c : Chip) (p : Nat) : Bool :=
  c.canPreempt p && c.bit (ETH_Pn_PRE_CTL p) 31 &&
    (!c.bit (ETH_Pn_PRE_CTL p) 30 || c.fld (ETH_Pn_PRE_STAT p) 2 0 == 3)

/-- Whether a class is preemptable on a port now (R115). -/
def Chip.preemptable (c : Chip) (p cls : Nat) : Bool :=
  decide (p < 8) && c.preempts p && c.bit (ETH_Pn_PRE_CTL p) cls

def Chip.portRun (c : Chip) (p : Nat) : PortRun := tblGet .reset c.swx.ports p

def Chip.setPortRun (c : Chip) (p : Nat) (r : PortRun) : Chip :=
  { c with swx := { c.swx with ports := tblSet .reset c.swx.ports p r } }

/-! ### Tables -/

/-- The entries of each table (R165); 0 for a table that does not exist. -/
def tableSize : Nat → Nat
  | 0 => 16384 | 1 => 64 | 2 => 4096 | 3 => 1024 | 4 => 256 | 5 => 64 | 6 => 4096 | 7 => 10240 | 8 => 10240
  | 9 => 256 | 10 => 256 | 11 => 256 | _ => 0

/-- The writable bits of a word of a table's entries (R165). -/
def tableMask (t w : Nat) : Nat :=
  match t, w with
  | 0, 0 => 0xFFFFFFFF | 0, 1 => 0x0FFFFFFF | 0, 2 => 0xC00003FF
  | 1, 0 => 0xFFFFFFFF | 1, 1 => 0x0FFFFFFF | 1, 2 => 0xE00003FF
  | 2, 0 => 0x03FF03FF | 2, 1 => 0xC0000FFF
  | 3, 0 => 0xFFFFFFFF | 3, 1 => 0xCFFFFFFF | 3, 2 => 0x800003FF | 3, 3 => 0x803F3FFF
  | 3, 4 => 0xE0FFFFFF | 3, 5 => 0xFFFFFFFF | 3, 6 => 0xFFFFFFFF | 3, 7 => 0xFFFFFFFF
  | 4, 4 => 0x0000000F | 4, _ => 0xFFFFFFFF
  | 5, 0 => 0xFFFFFFFF | 5, 1 => 0xFFFFFFFF | 5, 2 => 0xFFFFFFFF | 5, 3 => 0xC000007F
  | 6, 0 => 0xC7000000 | 6, 1 => 0xFFFFFFFF
  | 7, 0 => 0xF00000FF | 7, 1 => 0xFFFFFFFF
  | 9, 0 => 0xF000003F | 9, 1 => 0xFFFFFFFF
  | 9, 3 => 0xFFFFFFFF | 9, 4 => 0xFFFFFFFF | 9, 5 => 0xFFFFFFFF | 9, 6 => 0xFFFFFFFF | 9, 7 => 0xFFFFFFFF
  | 10, 0 => 0x8000FFFF
  | 11, 0 => 0xC77003FF | 11, 1 => 0xFFFFFFFF | 11, 2 => 0xFFFFFFFF
  | 11, 4 => 0xFFFFFFFF | 11, 5 => 0xFFFFFFFF
  | _, _ => 0

/-- An entry's words that all read 0. -/
def zeroEntry : List W32 := List.replicate 8 0

/-- An entry of a table (R165). -/
def Chip.entry (c : Chip) (t i : Nat) : List W32 := tblGet zeroEntry c.swx.tables (t * 65536 + i)

/-- A word of a table entry. -/
def Chip.entryWord (c : Chip) (t i w : Nat) : W32 := (c.entry t i).getD w 0

/-- A table entry replaced. -/
def Chip.setEntry (c : Chip) (t i : Nat) (e : List W32) : Chip :=
  { c with swx := { c.swx with tables := tblSet zeroEntry c.swx.tables (t * 65536 + i) e } }

/-- A word of a table entry replaced. -/
def Chip.setEntryWord (c : Chip) (t i w : Nat) (v : W32) : Chip := c.setEntry t i ((c.entry t i).set w v)

/-- A counter word of an entry increased, modulo 2^32 (R165). -/
def Chip.incEntry (c : Chip) (t i w : Nat) : Chip := c.setEntryWord t i w (c.entryWord t i w + 1)

/-- The index of a table's listed entries, ascending. -/
def Chip.entriesOf (c : Chip) (t : Nat) : List Nat :=
  c.swx.tables.filterMap fun e => if e.1 / 65536 = t then some (e.1 % 65536) else none

/-- The bucket of a forwarding key (R146). -/
def bucketOf (mac fid : Nat) : Nat := crc32c (beBytes 6 mac ++ beBytes 2 fid) % 4096

/-- The MAC address and FID in the first two words of an entry (R165). -/
def keyOf (e : List W32) : Nat × Nat :=
  (wfld (e.getD 1 0) 15 0 * 2 ^ 32 + (e.getD 0 0).toNat, wfld (e.getD 1 0) 27 16)

/-- Whether a forwarding entry is valid and has this key (R146). -/
def fdbHit (e : List W32) (mac fid : Nat) : Bool := wbit (e.getD 2 0) 31 && keyOf e == (mac, fid)

/-- The static entry of a key (R146). -/
def Chip.fdbStatic (c : Chip) (mac fid : Nat) : Option Nat :=
  (c.entriesOf 1).find? fun i => fdbHit (c.entry 1 i) mac fid

/-- The dynamic entry of a key, in its bucket's ways (R146). -/
def Chip.fdbDynamic (c : Chip) (mac fid : Nat) : Option Nat :=
  ((List.range 4).map fun w => bucketOf mac fid * 4 + w).find? fun i => fdbHit (c.entry 0 i) mac fid

/-- Whether a written entry's fields lie in their ranges (R164, R165). -/
def entryValid (t : Nat) (e : List W32) : Bool :=
  let w (i : Nat) : W32 := e.getD i 0
  match t with
  | 0 => decide (bitCount (w 2) 10 ≤ 1)
  | 5 => decide (1000 ≤ (w 2).toNat) && decide ((w 2).toNat ≤ 1000000000) && decide (1 ≤ wfld (w 3) 6 0) &&
      decide (wfld (w 3) 6 0 ≤ 64)
  | 7 => decide (wfld (w 0) 31 28 ≤ 2)
  | 9 => decide (1 ≤ wfld (w 0) 5 0) && decide (wfld (w 0) 5 0 ≤ 32)
  | _ => true

/-- Words masked to a table's writable bits, PEND of a slot kept (R165). -/
def maskEntry (t : Nat) (old new : List W32) : List W32 :=
  (List.range 8).map fun w =>
    let v := new.getD w 0 &&& BitVec.ofNat 32 (tableMask t w)
    if t = 11 ∧ w = 3 then old.getD 3 0 else v

/-- Line-time units a bucket or credit counts in: bits × 10^6 × 2^16. -/
def bitUnit : Nat := 65536000000

/-- A write of an entry (R156, R158, R164): a meter's buckets fill, a recovery function restarts. -/
def Chip.writeEntry (c : Chip) (t i : Nat) (e : List W32) : Chip :=
  let c1 := c.setEntry t i (maskEntry t (c.entry t i) e)
  match t with
  | 4 =>
    let m : Meter := ⟨(e.getD 1 0).toNat * 8 * bitUnit, (e.getD 3 0).toNat * 8 * bitUnit, c.lt⟩
    { c1 with swx := { c1.swx with meters := tblSet .reset c1.swx.meters i m } }
  | 9 => { c1 with swx := { c1.swx with
      recovs := tblSet .reset c1.swx.recovs i { Recov.reset with last := c.lt } } }
  | _ => c1

/-- The data words of a table operation. -/
def Chip.tblData (c : Chip) : List W32 := (List.range 8).map fun i => c.reg (SWX_TBL_DATA i)

/-- The data words filled. -/
def Chip.setTblData (c : Chip) (e : List W32) : Chip :=
  (List.range 8).foldl (fun c i => c.setReg (SWX_TBL_DATA i) (e.getD i 0)) c

/-- The start of a table operation: BUSY, with DONE cleared (R164). -/
def Chip.tblStart (c : Chip) (result index : Nat) : Chip :=
  { c.setReg SWX_TBL_STAT 0x80000000 with swx := { c.swx with tblOp := some (result, index) } }

/-- Whether an index is outside a table, or names a table that does not exist: its RESULT (R164). -/
def tblBad (t i : Nat) : Option Nat :=
  if tableSize t = 0 then some 3 else if tableSize t ≤ i then some 2 else none

/-- Whether a write of this entry is refused: the RESULT (R164). -/
def Chip.tblRefuses (t i : Nat) (e : List W32) : Option Nat :=
  if t = 8 then some 3
  else if t = 0 ∧ bucketOf (keyOf e).1 (keyOf e).2 ≠ i / 4 then some 2
  else if entryValid t e then none else some 4

/-- READ of a table entry (R164). -/
def tableRead (c : Chip) (t i : Nat) : Chip :=
  match tblBad t i with
  | some r => c.tblStart r i
  | none => (c.setTblData (c.entry t i)).tblStart 0 i

/-- WRITE of a table entry (R164). -/
def tableWrite (c : Chip) (t i : Nat) : Chip :=
  match tblBad t i with
  | some r => c.tblStart r i
  | none =>
    match Chip.tblRefuses t i c.tblData with
    | some r => c.tblStart r i
    | none => (c.writeEntry t i c.tblData).tblStart 0 i

/-- SEARCH of the forwarding database (R164). -/
def tableSearch (c : Chip) (t i : Nat) : Chip :=
  let k := keyOf c.tblData
  let found := if t = 0 then some (c.fdbDynamic k.1 k.2)
    else if t = 1 then some (c.fdbStatic k.1 k.2) else none
  match found with
  | none => c.tblStart 3 i
  | some none => c.tblStart 1 i
  | some (some j) => (c.setTblData (c.entry t j)).tblStart 0 j

/-- CLEAR of a table entry (R164). -/
def tableClear (c : Chip) (t i : Nat) : Chip :=
  match tblBad t i with
  | some r => c.tblStart r i
  | none => if t = 8 then c.tblStart 3 i else (c.setEntry t i zeroEntry).tblStart 0 i

/-- A write of SWX_TBL_CMD (R164). -/
def tblCmdWrite (c : Chip) (v : W32) : Chip :=
  if wbit v 31 ∧ c.swx.tblOp = none then
    let t := wfld v 27 24
    let i := wfld v 15 0
    (match wfld v 29 28 with
      | 0 => tableRead c t i
      | 1 => tableWrite c t i
      | 2 => tableSearch c t i
      | _ => tableClear c t i).done
  else c.done

/-- A table operation ends (R164). -/
def tableOpDone (c : Chip) : Chip :=
  match c.swx.tblOp with
  | none => c
  | some (r, i) =>
    ({ c.setReg SWX_TBL_STAT (w32 (0x40000000 + at_ r 16 + i)) with
        swx := { c.swx with tblOp := none } }).raise 221 0

/-! ### Frames, copies and pecks -/

/-- The pecks of a frame of length L (R140). -/
def pecksOf (len : Nat) : Nat := (len + 127) / 128

def Chip.frame (c : Chip) (id : Nat) : Frame := tblGet .reset c.swx.frames id

/-- The copies in queue (p, c), oldest first. -/
def Chip.queue (c : Chip) (p cls : Nat) : List Copy := tblGet [] c.swx.queues (p * 8 + cls)

def Chip.setQueue (c : Chip) (p cls : Nat) (q : List Copy) : Chip :=
  { c with swx := { c.swx with queues := tblSet [] c.swx.queues (p * 8 + cls) q } }

def Chip.txOf (c : Chip) (p : Nat) : Option TxFrame := tblGet none c.swx.tx p

def Chip.setTx (c : Chip) (p : Nat) (t : Option TxFrame) : Chip :=
  { c with swx := { c.swx with tx := tblSet none c.swx.tx p t } }

/-- The pecks in use: every frame in the buffer, until its last copy has left (R141, R149). -/
def Chip.pecksUsed (c : Chip) : Nat := (c.swx.frames.map fun e => pecksOf e.2.len).sum

/-- The free pecks (R141). -/
def Chip.pecksFree (c : Chip) : Nat := 12288 - c.pecksUsed

/-- The preemptable frame of a port whose transmission stands still (R115). -/
def Chip.heldOf (c : Chip) (p : Nat) : Option TxFrame := tblGet none c.swx.held p

def Chip.setHeld (c : Chip) (p : Nat) (t : Option TxFrame) : Chip :=
  { c with swx := { c.swx with held := tblSet none c.swx.held p t } }

/-- The copies linked, whether queued or in transmission. -/
def Chip.copies (c : Chip) : List Copy :=
  (c.swx.queues.map (·.2)).flatten ++ (c.swx.tx ++ c.swx.held).filterMap fun e => e.2.map (·.copy)

/-- The pecks of frames linked into a queue or in transmission (R141). -/
def Chip.pecksQueued (c : Chip) : Nat :=
  (c.swx.frames.map fun e => if c.copies.any fun k => k.fid == e.1 then pecksOf e.2.len else 0).sum

/-- The free queue descriptors (R143). -/
def Chip.qdFree (c : Chip) : Nat := 16384 - c.copies.length

/-- The depth of a queue in pecks (R143). -/
def Chip.depth (c : Chip) (p cls : Nat) : Nat := ((c.queue p cls).map fun k => pecksOf (c.frame k.fid).len).sum

/-- Whether a frame still has a copy or waits for a receive queue (R149). -/
def Chip.frameHeld (c : Chip) (id : Nat) : Bool :=
  c.copies.any (fun k => k.fid == id) || c.swx.deciding.any (fun l => l.fid == id)

/-- A frame whose last copy has gone leaves the buffer (R149). -/
def Chip.release (c : Chip) (id : Nat) : Chip :=
  if c.frameHeld id then c
  else { c with swx := { c.swx with frames := tblErase c.swx.frames id } }

/-- The low-water and empty-pool marks after a change, each raised once a crossing (R143). -/
def Chip.poolMarks (before after : Chip) : Chip :=
  let low := (after.reg SWX_PECKLOW).toNat
  let c1 := if low ≤ before.pecksFree ∧ after.pecksFree < low then after.flag SWX_FLAGS 1 209 else after
  if 0 < before.qdFree ∧ after.qdFree = 0 then c1.flag SWX_FLAGS 2 210 else c1

/-- A frame taken into the buffer; its number. -/
def Chip.admitFrame (c : Chip) (f : Frame) : Nat × Chip :=
  (c.swx.nextFid, { c with swx := { c.swx with
    frames := tblSet .reset c.swx.frames c.swx.nextFid f, nextFid := c.swx.nextFid + 1 } })

/-- A schedule slot's PEND bit (R160). -/
def Chip.slotPend (c : Chip) (s : Nat) : Bool := wbit (c.entryWord 11 s 3) 0

def Chip.setSlotPend (c : Chip) (s : Nat) (b : Bool) : Chip :=
  c.setEntryWord 11 s 3 (wsetBit (c.entryWord 11 s 3) 0 b)

/-- A slot's frame starts transmission: PEND clears, and the start is noted for the slot's window (R160). -/
def Chip.slotStarts (c : Chip) (s : Nat) : Chip :=
  let c1 := c.setSlotPend s false
  { c1 with swx := { c1.swx with slotStart := tblSet 0 c1.swx.slotStart s (c.lt + 1) } }

/-- A copy that has been unlinked without transmission. -/
def Chip.dropCopy (c : Chip) (k : Copy) : Chip :=
  (match k.slot with
    | some s => c.setSlotPend s false
    | none => c).release k.fid

/-! ### Gate lists -/

def Chip.gclOf (c : Chip) (p : Nat) : Gcl := tblGet .reset c.swx.gcl p

def Chip.setGcl (c : Chip) (p : Nat) (g : Gcl) : Chip :=
  { c with swx := { c.swx with gcl := tblSet .reset c.swx.gcl p g } }

/-- Whether the gate of a class is open on a port (R152). -/
def Chip.gateOpen (c : Chip) (p cls : Nat) : Bool :=
  if p < 10 ∧ c.bit (SWX_Pp_GCL_CTL p) 31 then
    match (c.gclOf p).oper with
    | some _ => nbit (c.gclOf p).gates cls
    | none => true
  else true

/-- The entries of a list that run in a cycle: their offsets in ns and the entry numbers; entries of
interval 0 are skipped and the list is cut at the cycle's end (R152). -/
def GclCfg.timeline (g : GclCfg) : List (Nat × Nat) :=
  ((g.entries.zipIdx).foldl (fun (acc : Nat × List (Nat × Nat)) e =>
    if e.1.interval = 0 ∨ g.cycle ≤ acc.1 then acc
    else (acc.1 + e.1.interval, acc.2 ++ [(acc.1, e.2)])) (0, [])).2

/-- Whether a cycle of the operational list that starts at `start` is left out before a change: it had not begun when
CHANGE was written, and would start less than CYCLEEXT before the change time (R153). -/
def GclChange.leavesOut (ch : GclChange) (start : Nat) : Bool :=
  decide (ch.asked < start) && decide (start < ch.time) && decide (ch.time < start + ch.cfg.ext)

/-- The start of the cycle that a line time in ns lies in. -/
def GclCfg.cycleStart (g : GclCfg) (ns : Nat) : Nat := g.base + (ns - g.base) / g.cycle * g.cycle

/-- The cycle and the entry in force at a line time in ns (R152), the last cycle before a change
being held back by CYCLEEXT (R153). None before the base. -/
def Gcl.position (g : Gcl) (ns : Nat) : Option (Nat × Nat) :=
  match g.oper with
  | none => none
  | some k =>
    if ns < k.base ∨ k.cycle = 0 then none
    else
      let n := (ns - k.base) / k.cycle
      let last := match k.timeline.getLast? with
        | some e => e.2
        | none => 0
      if 0 < n ∧ g.pending.any fun ch => ch.leavesOut (k.cycleStart ns) then some (n - 1, last)
      else some (n, ((k.timeline.filter fun e => decide (e.1 ≤ (ns - k.base) % k.cycle)).getLast?.map (·.2)).getD last)

/-- The first start of an entry later than `ns` whose gate state for a class is `want` (R151, R159). -/
def GclCfg.nextGate (g : GclCfg) (ns cls : Nat) (want : Bool) : Option Nat :=
  if g.cycle = 0 then none
  else
    let n := if ns < g.base then 0 else (ns - g.base) / g.cycle
    let starts := (List.range 2).flatMap fun k =>
      g.timeline.map fun e => (g.base + (n + k) * g.cycle + e.1, e.2)
    (starts.find? fun e => decide (ns < e.1) &&
      nbit (g.entries.getD e.2 ⟨0, 0, 0⟩).gates cls == want).map (·.1)

/-- The next closing of a gate in the operational list, in ns (R151). -/
def Chip.nextClosing (c : Chip) (p cls : Nat) : Option Nat :=
  if c.bit (SWX_Pp_GCL_CTL p) 31 then ((c.gclOf p).oper).bind fun g => g.nextGate c.ltNs cls false else none

/-- The opening that the schedule engine reports for a class, in ns (R159). -/
def Chip.nextOpening (c : Chip) (p cls : Nat) : Option Nat :=
  if c.bit (SWX_Pp_GCL_CTL p) 31 then
    let g := c.gclOf p
    match g.oper with
    | none => none
    | some k =>
      if k.timeline.all fun e => nbit (k.entries.getD e.2 ⟨0, 0, 0⟩).gates cls then none
      else if nbit g.gates cls then some c.ltNs
      else
        let own := k.nextGate c.ltNs cls true
        match g.pending with
        | some ch =>
          match own with
          | some o => if o < ch.time ∧ ch.leavesOut (k.cycleStart o) = false then some o
            else ch.cfg.nextGate (ch.time - 1) cls true
          | none => ch.cfg.nextGate (ch.time - 1) cls true
        | none => own
  else none

/-! ### Credits -/

/-- A shaper's credit brought up to the present line time under R154. -/
def Chip.creditNow (c : Chip) (p cls : Nat) : Int :=
  let k := tblGet .reset c.swx.credits (p * 8 + cls)
  let dt : Int := (c.lt : Int) - k.since
  let r : Int := c.rate p * 1000
  let i := min ((c.reg (SWX_Pp_IDLESLOPE p cls)).toNat : Int) r
  let sending := (c.txOf p).any fun t => t.copy.cls == cls && t.backoff.isNone
  let lo := sext 32 (c.reg (SWX_Pp_LOCREDIT p cls)).toNat * bitUnit
  let hi := sext 32 (c.reg (SWX_Pp_HICREDIT p cls)).toNat * bitUnit
  let v : Int :=
    if sending then k.val + (i - r) * dt
    else if (c.queue p cls).isEmpty then (if 0 < k.val then 0 else min 0 (k.val + i * dt))
    else if c.gateOpen p cls then k.val + i * dt
    else k.val
  clamp v lo hi

/-- The credits of a port's classes settled, before anything changes that they depend on: a class that is not shaped
keeps its credit. -/
def Chip.settle (c : Chip) (p : Nat) : Chip :=
  (List.range 8).foldl (fun c cls =>
    let v := if c.reg (SWX_Pp_IDLESLOPE p cls) = 0 then (tblGet .reset c.swx.credits (p * 8 + cls)).val
      else c.creditNow p cls
    { c with swx := { c.swx with credits := tblSet .reset c.swx.credits (p * 8 + cls) ⟨v, c.lt⟩ } }) c

/-! ### Frame parsing -/

/-- What R127 reads from a frame: whether it is tagged, VID, PCP, DEI, the EtherType after the last
parsed tag, its offset, and the ULP frame type. -/
structure Parsed where
  tagged : Bool
  vid : Nat
  pcp : Nat
  dei : Bool
  etype : Nat
  ofs : Nat
  ulp : Nat
  deriving DecidableEq, Repr

/-- Whether a value is a tag's TPID (R127). -/
def isTpid (x : Nat) : Bool := x == 0x8100 || x == 0x88A8

/-- The parse of R127, with the ingress port's defaults. -/
def parseFrame (data : List Byte) (pvid : W32) : Parsed :=
  let be (i : Nat) := beNat (bytesAt data i 2)
  let tagged := isTpid (be 12)
  let tci := be 14
  let ofs := if tagged then (if isTpid (be 16) then 20 else 16) else 12
  let vid := if tagged && tci % 4096 != 0 then tci % 4096 else wfld pvid 11 0
  { tagged := tagged, vid := vid
    pcp := if tagged then tci / 8192 else wfld pvid 15 13
    dei := tagged && nbit tci 12
    etype := be ofs, ofs := ofs, ulp := (byteAt data (ofs + 2)).toNat % 16 }

/-- A port's default VID and PCP; SP8 and SP9 have none. -/
def Chip.pvid (c : Chip) (p : Nat) : W32 := if p < 8 then c.reg (ETH_Pn_PVID p) else 0

/-- The destination and source addresses of a frame. -/
def dstOf (data : List Byte) : Nat := beNat (bytesAt data 0 6)
def srcOf (data : List Byte) : Nat := beNat (bytesAt data 6 6)

/-- Whether an address is a group address, and the broadcast address. -/
def isGroup (mac : Nat) : Bool := nbit mac 40
def isBroadcast (mac : Nat) : Bool := mac == 0xFFFFFFFFFFFF

/-- A port's own address (R127). -/
def Chip.macAddr (c : Chip) (p : Nat) : Nat :=
  c.fld (ETH_Pn_MACADDR_HI p) 15 0 * 2 ^ 32 + (c.reg (ETH_Pn_MACADDR_LO p)).toNat

/-! ### Forwarding -/

/-- A destination: the ports as a bit set, whether the local path is taken, whether the frame is
discarded outright. -/
structure Route where
  ports : Nat
  toLocal : Bool
  deriving DecidableEq, Repr

/-- Whether a frame's destination is own unicast at its ingress port (R127). -/
def Chip.ownUnicast (c : Chip) (inPort mac fid : Nat) : Bool :=
  (decide (inPort < 8) && mac == c.macAddr inPort) ||
  (!isGroup mac && (c.fdbStatic mac fid).any fun i => wbit (c.entryWord 1 i 2) 30)

/-- Steps 4 to 6 of R145, with R139 and R163: where a frame goes, or none if it is discarded. -/
def Chip.lookup (c : Chip) (inPort : Nat) (data : List Byte) (vid : Nat) : Option Route :=
  let mac := dstOf data
  if mac / 16 = 0x0180C200000 then some ⟨0, true⟩
  else
    let member := wfld (c.entryWord 2 vid 0) 9 0
    let fid := wfld (c.entryWord 2 vid 1) 11 0
    let raw : Option Route :=
      if c.ownUnicast inPort mac fid then some ⟨0, true⟩
      else match c.fdbStatic mac fid with
        | some i =>
          let w := c.entryWord 1 i 2
          if wbit w 29 then none else some ⟨wfld w 9 0, wbit w 30⟩
        | none => match c.fdbDynamic mac fid with
          | some i => some ⟨wfld (c.entryWord 0 i 2) 9 0, false⟩
          | none => some ⟨member, isBroadcast mac || wbit (c.entryWord 2 vid 1) 30⟩
    raw.map fun r => ⟨(List.range 10).foldl (fun s p =>
      if nbit r.ports p && nbit member p && p != inPort && c.portUp p then s + 2 ^ p else s) 0, r.toLocal⟩

/-- The source address learned (R147). -/
def Chip.learn (c : Chip) (inPort : Nat) (data : List Byte) (vid : Nat) : Chip :=
  let mac := srcOf data
  let fid := wfld (c.entryWord 2 vid 1) 11 0
  if c.bit SWX_CTL 0 && c.bit (SWX_Pp_CTL inPort) 29 && !wbit (c.entryWord 2 vid 1) 31 &&
      !isGroup mac && (c.fdbStatic mac fid).isNone then
    let e : List W32 := [w32 (mac % 2 ^ 32), w32 (at_ fid 16 + mac / 2 ^ 32), w32 (2 ^ 31 + 2 ^ inPort), 0, 0, 0, 0, 0]
    match c.fdbDynamic mac fid with
    | some i => (c.setEntryWord 0 i 2 (wsetFld (c.entryWord 0 i 2) 9 0 (2 ^ inPort))).setEntryWord 0 i 3 0
    | none =>
      match ((List.range 4).map fun w => bucketOf mac fid * 4 + w).find?
          fun i => !wbit (c.entryWord 0 i 2) 31 with
      | some i => c.setEntry 0 i e
      | none => (c.inc SWX_CNT_LEARNFAIL).raise 211 0
  else c

/-! ### Streams -/

/-- The lowest-numbered stream that matches a frame (R155). -/
def Chip.streamOf (c : Chip) (inPort : Nat) (data : List Byte) (vid : Nat) : Option Nat :=
  (c.entriesOf 3).find? fun i =>
    let e := c.entry 3 i
    let w1 := e.getD 1 0
    wbit w1 31 && nbit (wfld (e.getD 2 0) 9 0) inPort && wfld w1 27 16 == vid &&
    (keyOf e).1 == (if wbit w1 30 then srcOf data else dstOf data)

/-- The colours of a meter (R156). -/
inductive Colour where
  | green | yellow | red
  deriving DecidableEq, Repr

/-- A meter colours a frame (R156), by the two-rate profile of MEF 10.3 (PRESUMED, log entry 20). -/
def Chip.meter (c : Chip) (i len : Nat) (dei : Bool) : Colour × Chip :=
  let w (k : Nat) := (c.entryWord 4 i k).toNat
  let flags := c.entryWord 4 i 4
  let m := tblGet .reset c.swx.meters i
  let dt := c.lt - m.since
  let cbs := w 1 * 8 * bitUnit
  let ebs := w 3 * 8 * bitUnit
  let g0 := m.green + w 0 * 1000 * dt / 1000
  let beyond := g0 - cbs
  let g := min g0 cbs
  let y := min (m.yellow + w 2 * dt + (if wbit flags 0 then beyond else 0)) ebs
  let need := len * 8 * bitUnit
  let asGreen := !(wbit flags 1 && dei)
  let (col, g', y') :=
    if wbit flags 4 then (Colour.red, g, y)
    else if asGreen && decide (need ≤ g) then (Colour.green, g - need, y)
    else if need ≤ y then (Colour.yellow, g, y - need)
    else (Colour.red, g, y)
  let c1 := { c with swx := { c.swx with meters := tblSet .reset c.swx.meters i ⟨g', y', c.lt⟩ } }
  match col with
  | .green => (.green, c1.incEntry 4 i 5)
  | .yellow => (.yellow, c1.incEntry 4 i 6)
  | .red =>
    let c2 := c1.incEntry 4 i 7
    (.red, if wbit flags 3 then c2.setEntryWord 4 i 4 (wsetBit flags 4 true) else c2)

/-- The R-TAG's sequence number after a frame's last VLAN tag, if it has one (R158). -/
def rtagOf (data : List Byte) (ofs : Nat) : Option Nat :=
  if beNat (bytesAt data ofs 2) = 0xF1C1 then some (beNat (bytesAt data (ofs + 4) 2)) else none

/-- A recovery function applied to a frame (R158), by the vector or match algorithm of 802.1CB (log
entry 20): whether the frame passes. -/
def Chip.recover (c : Chip) (i : Nat) (seq : Option Nat) : Bool × Chip :=
  let w0 := c.entryWord 9 i 0
  let r := tblGet .reset c.swx.recovs i
  let save (c : Chip) (r : Recov) : Chip :=
    { c with swx := { c.swx with recovs := tblSet .reset c.swx.recovs i r } }
  let pass (c : Chip) (r : Recov) : Bool × Chip := (true, save (c.incEntry 9 i 3) { r with last := c.lt })
  if !wbit w0 31 then (true, c)
  else match seq with
    | none => if wbit w0 28 then pass c r else (false, c.incEntry 9 i 4)
    | some n =>
      let hist := wfld w0 5 0
      let first : Recov := { r with takeAny := false, seq := n, hist := true :: List.replicate (hist - 1) false }
      if r.takeAny then pass c first
      else
        let d := sext 16 (wrap 16 ((n : Int) - r.seq))
        if wbit w0 30 then
          if d = 0 then (false, c.incEntry 9 i 4)
          else pass (if d = 1 then c else c.incEntry 9 i 5) { r with seq := n }
        else if hist ≤ d.natAbs then
          (false, ((c.incEntry 9 i 6).incEntry 9 i 4).raise 219 0)
        else if d ≤ 0 then
          if r.hist.getD d.natAbs false then (false, c.incEntry 9 i 4)
          else pass (c.incEntry 9 i 5) { r with hist := r.hist.set d.natAbs true }
        else
          pass (if d = 1 then c else c.incEntry 9 i 5)
            { r with seq := n, hist := (true :: List.replicate (d.toNat - 1) false ++ r.hist).take hist }

/-- A recovery function resets RESET µs after its last passed frame, and a frame in the last tick comes first (R38,
R158). -/
def recoveryReset (c : Chip) (i : Nat) : Chip :=
  let r := tblGet .reset c.swx.recovs i
  if wbit (c.entryWord 9 i 0) 31 ∧ r.takeAny = false ∧
      (c.entryWord 9 i 1).toNat * 65536000 < c.lt - r.last then
    ({ c.incEntry 9 i 7 with swx := { (c.incEntry 9 i 7).swx with
        recovs := tblSet .reset (c.incEntry 9 i 7).swx.recovs i { Recov.reset with last := c.lt } } }).raise 219 0
  else c

/-- A frame's bytes with part of them replaced by others. -/
def splice (data : List Byte) (ofs del : Nat) (ins : List Byte) : List Byte :=
  data.take ofs ++ ins ++ data.drop (ofs + del)

/-- The DEI bit of the outermost tag set (R156). -/
def markDei (data : List Byte) : List Byte := splice data 14 1 [byteAt data 14 ||| 0x10]

/-- What stream filtering leaves of a frame: its class and bytes. -/
structure Filtered where
  cls : Nat
  data : List Byte

/-- A discard by a stream (R155). -/
def Chip.streamDrop (c : Chip) (i : Nat) : Chip := (c.incEntry 3 i 7).raise 218 0

/-- Stream filtering of a frame from SP0 to SP7 (R155): the frame as it goes on, or none. -/
def Chip.filterStream (c : Chip) (inPort cls : Nat) (data : List Byte) (q : Parsed) :
    Option Filtered × Chip :=
  match c.streamOf inPort data q.vid with
  | none => (some ⟨cls, data⟩, c)
  | some i =>
    let w (k : Nat) := c.entryWord 3 i k
    let len := data.length + 4
    let c1 := c.incEntry 3 i 5
    if wbit (w 2) 30 then (none, c1.streamDrop i)
    else if wfld (w 3) 13 0 ≠ 0 ∧ wfld (w 3) 13 0 < len then
      let c2 := if wbit (w 2) 31 then c1.setEntryWord 3 i 2 (wsetBit (w 2) 30 true) else c1
      (none, (c2.inc SWX_CNT_SDUDROP).streamDrop i)
    else
      let gi := wfld (w 3) 21 16
      let gate := tblGet .reset c.swx.sgates gi
      let shut := wbit (w 3) 31 && (!gate.isOpen || wbit (c.entryWord 5 gi 3) 29)
      if shut then
        let c2 := if wbit (gate.ctrl.getD 3 0) 30
          then c1.setEntryWord 5 gi 3 (wsetBit (c.entryWord 5 gi 3) 29 true) else c1
        (none, (c2.inc SWX_CNT_GATEDROP).streamDrop i)
      else
        let cls' := if wbit (w 3) 31 then gate.ipv.getD cls else cls
        let (col, c2) := if wbit (w 4) 31 then c1.meter (wfld (w 4) 23 16) len q.dei else (.green, c1)
        let dropYel := wbit (c.entryWord 4 (wfld (w 4) 23 16) 4) 2
        if col = .red ∨ (col = .yellow ∧ dropYel) then
          (none, (c2.inc SWX_CNT_METERDROP).streamDrop i)
        else
          let data1 := if col = .yellow ∧ q.tagged then markDei data else data
          if wbit (w 4) 30 then
            let ri := wfld (w 4) 15 8
            let (pass, c3) := c2.recover ri (rtagOf data q.ofs)
            if pass then
              let strip := wbit (c.entryWord 9 ri 0) 29 && (rtagOf data q.ofs).isSome
              (some ⟨cls', if strip then splice data1 q.ofs 6 [] else data1⟩, c3.incEntry 3 i 6)
            else (none, c3.streamDrop i)
          else (some ⟨cls', data1⟩, c2.incEntry 3 i 6)

/-- The pecks that a frame offered on SP8 or SP9 needs, with the R-TAG that sequence generation adds; a frame that
the tag makes too long needs none, since it is dropped (R143, R155). -/
def Chip.offerPecks (c : Chip) (inPort : Nat) (data : List Byte) (vid : Nat) : Nat :=
  let n := data.length + 4
  match c.streamOf inPort data vid with
  | none => pecksOf n
  | some i =>
    let w4 := c.entryWord 3 i 4
    if wbit w4 29 && wbit (c.entryWord 10 (wfld w4 7 0) 0) 31 then (if 9216 < n + 6 then 0 else pecksOf (n + 6))
    else pecksOf n

/-- Sequence generation for a frame from SP8 or SP9 (R155, R158): the bytes and request, or none. -/
def Chip.generate (c : Chip) (inPort : Nat) (data : List Byte) (q : Parsed) (req : TxReq) :
    Option (List Byte × TxReq) × Chip :=
  match c.streamOf inPort data q.vid with
  | none => (some (data, req), c)
  | some i =>
    let w4 := c.entryWord 3 i 4
    let g := wfld w4 7 0
    if wbit w4 29 && wbit (c.entryWord 10 g 0) 31 then
      if 9216 < data.length + 4 + 6 then (none, c.inc SWX_CNT_FRERDROP)
      else
        let seq := wfld (c.entryWord 10 g 0) 15 0
        let tag := beBytes 2 0xF1C1 ++ beBytes 2 0 ++ beBytes 2 seq
        let mv (x : Nat) := if q.ofs ≤ x then x + 6 else x
        (some (splice data q.ofs 0 tag, { req with corrOfs := mv req.corrOfs, tsOfs := mv req.tsOfs }),
          c.setEntryWord 10 g 0 (wsetFld (c.entryWord 10 g 0) 15 0 (seq + 1)))
    else (some (data, req), c)

/-! ### Queues -/

def Chip.lpiOf (c : Chip) (p : Nat) : Lpi := tblGet .reset c.swx.lpi p

def Chip.setLpi (c : Chip) (p : Nat) (l : Lpi) : Chip :=
  { c with swx := { c.swx with lpi := tblSet .reset c.swx.lpi p l } }

/-- The transmitter leaves LPI: the wake begins (R121). -/
def Chip.leaveLpi (c : Chip) (p : Nat) : Chip :=
  let l := c.lpiOf p
  let c1 := c.count p 54 ((c.lt - l.txSince) / 65536000)
  let c2 := (c1.setBit (ETH_Pn_EEE_STAT p) 1 false).setBit (ETH_Pn_EEE_STAT p) 2 true
  c2.setLpi p { l with wakeEnd := c.lt + (c.reg (ETH_Pn_EEE_TWTX p)).toNat * 65536 }

/-- A frame has been queued for a port: its idle time restarts, and a port in LPI leaves it (R120, R121). -/
def Chip.noteQueued (c : Chip) (p : Nat) : Chip :=
  if p < 8 then
    let c1 := if c.bit (ETH_Pn_EEE_STAT p) 1 then c.leaveLpi p else c
    c1.setLpi p { c1.lpiOf p with lastQueued := c.lt }
  else c

/-- An older frame of a slot that has not started is unlinked from the queue of a class (R160). -/
def Chip.supersede (c : Chip) (p cls s : Nat) : Chip :=
  match (c.queue p cls).find? fun k => k.slot == some s with
  | none => c
  | some old =>
    let c1 := ((c.settle p).setQueue p cls ((c.queue p cls).filter fun k => k.slot != some s)).setSlotPend s false
    (((c1.incEntry 11 s 5).inc SWX_CNT_SUPERSEDED).raise 217 0).release old.fid

/-- The older frame of a slot unlinked, in whatever class of the port it waits (R160). -/
def Chip.supersedeIn (c : Chip) (p s : Nat) : Chip :=
  if c.slotPend s then (List.range 8).foldl (fun c cls => c.supersede p cls s) c else c

/-- A copy linked into queue (p, c), or counted as refused (R143, R160): whether it was linked. A frame of a slot is
tested as if the slot's older frame had left; one that is refused unlinks nothing (DESIGN CHOICE, log entry 37). -/
def Chip.link (c : Chip) (p : Nat) (k : Copy) : Bool × Chip :=
  let len := (c.frame k.fid).len
  let c0 := (match k.slot with
    | some s => c.supersedeIn p s
    | none => c).settle p
  if c0.qdFree = 0 then (false, c.inc SWX_CNT_QDFULL)
  else if c0.fld (SWX_Pp_QLIM p k.cls) 13 0 < c0.depth p k.cls + pecksOf len then
    (false, c.inc (SWX_Pp_QDROP p k.cls))
  else
    let c1 := c0.setQueue p k.cls (c0.queue p k.cls ++ [k])
    let c2 := match k.slot with
      | some s => c1.setSlotPend s true
      | none => c1
    (true, c2.noteQueued p)

/-- Whether a VLAN's frames leave a port without their outermost tag (R145). -/
def Chip.untags (c : Chip) (p vid : Nat) : Bool := nbit (wfld (c.entryWord 2 vid 0) 25 16) p

/-- The port that a schedule slot names (R165). -/
def Chip.slotPort (c : Chip) (s : Nat) : Nat := wfld (c.entryWord 11 s 0) 26 24

/-- One copy linked into each port of a set; whether any was. The slot goes with the copy of its port. -/
def Chip.linkAll (c : Chip) (ports fid cls vid : Nat) (tagged : Bool) (req : TxReq) (slot : Option Nat) :
    Bool × Chip :=
  (List.range 10).foldl (fun (acc : Bool × Chip) p =>
    if nbit ports p then
      let r := acc.2.link p ⟨fid, cls, tagged && acc.2.untags p vid, req, slot.filter fun s => c.slotPort s == p⟩
      (acc.1 || r.1, r.2)
    else acc) (false, c)

/-- Whether a copy in a class is aged (R150). -/
def Chip.aged (c : Chip) (k : Copy) : Bool :=
  let lim := (c.reg (SWX_AGE k.cls)).toNat
  lim != 0 && decide (lim * 65536000 < c.lt - (c.frame k.fid).arrival)

/-- The aged copies at the head of a queue discarded, counting each by `count` (R150). -/
def Chip.dropAged (c : Chip) (p cls a src : Nat) : Nat → Chip
  | 0 => c
  | n + 1 =>
    match c.queue p cls with
    | [] => c
    | k :: rest =>
      if c.aged k then
        (((c.setQueue p cls rest).dropCopy k).incFrom0 a src).dropAged p cls a src n
      else c

/-- One visit of the scrubber, once SWX_SCRUB µs have passed since the last one: every queue that is not transmitting
(R150). -/
def queueScrub (c : Chip) : Chip :=
  if c.bit SWX_CTL 8 && decide (c.swx.scrubAt + (c.reg SWX_SCRUB).toNat * 65536000 ≤ c.lt) then
    let c := { c with swx := { c.swx with scrubAt := c.lt } }
    (List.range 10).foldl (fun c p => (List.range 8).foldl (fun c cls =>
      if (c.txOf p).any fun t => t.copy.cls == cls then c
      else (c.settle p).dropAged p cls SWX_CNT_SCRUBBED 213 (c.queue p cls).length) c) c
  else c

/-- The time to send n bytes at a port's rate, compared with a span in ns (R151). -/
def Chip.fitsBy (c : Chip) (p bytes close : Nat) : Bool :=
  decide (bytes * 8000 * 65536 ≤ (close * 65536 - c.lt) * c.rate p)

/-- Whether a frame of length L of a class fits before the next closing of its gate (R151). -/
def Chip.fits (c : Chip) (p cls len : Nat) : Bool :=
  c.preemptable p cls ||
  (match c.nextClosing p cls with
   | none => true
   | some t => c.fitsBy p (len + 20) t)

/-- Whether a class's head frame may start on a port (R151, R152). -/
def Chip.eligible (c : Chip) (p cls : Nat) : Bool :=
  match c.queue p cls with
  | [] => false
  | k :: _ =>
    c.gateOpen p cls &&
    (c.reg (SWX_Pp_IDLESLOPE p cls) == 0 || decide (0 ≤ c.creditNow p cls)) &&
    c.fits p cls (c.frame k.fid).len &&
    !(c.preemptable p cls && (c.gclOf p).hold)

/-- The highest eligible class, aged head copies being discarded on the way (R150, R151): of all classes, or of the
express ones (R115). -/
def Chip.select (c : Chip) (p : Nat) (express : Bool) : Nat → Option Nat × Chip
  | 0 => (none, c)
  | n + 1 =>
    match [7, 6, 5, 4, 3, 2, 1, 0].find? fun cls => c.eligible p cls && !(express && c.preemptable p cls) with
    | none => (none, c)
    | some cls =>
      match c.queue p cls with
      | [] => (none, c)
      | k :: rest =>
        if c.aged k then ((((c.settle p).setQueue p cls rest).dropCopy k).incFrom0 SWX_CNT_AGED 212).select p express n
        else (some cls, c)

/-- A write of SWX_FLUSH with GO, or the flush of R163: the selected copies are unlinked (R162). -/
def Chip.flushQueues (c : Chip) (p mask : Nat) : Nat × Chip :=
  (List.range 8).foldl (fun (acc : Nat × Chip) cls =>
    if nbit mask cls then
      let q := acc.2.queue p cls
      let c1 := (acc.2.settle p).setQueue p cls []
      (acc.1 + q.length, q.foldl (fun c k => c.dropCopy k) c1)
    else acc) (0, c)

/-- A write of SWX_FLUSH (R162). -/
def flushWrite (c : Chip) (v : W32) : Chip :=
  let c0 := c.setFld SWX_FLUSH 11 0 (wfld v 11 0)
  if wbit v 31 ∧ c.swx.flush.isNone then
    let (n, c1) := c0.flushQueues (wfld v 11 8) (wfld v 7 0)
    ({ c1 with swx := { c1.swx with flush := some n } }.setBit SWX_FLUSH 30 true).done
  else c0.done

/-- A flush ends (R162). -/
def flushDone (c : Chip) : Chip :=
  match c.swx.flush with
  | none => c
  | some n =>
    let c1 := { c with swx := { c.swx with flush := none } }.setBit SWX_FLUSH 30 false
    (c1.setReg SWX_CNT_FLUSHED (w32 (satTo 0xFFFFFFFF ((c.reg SWX_CNT_FLUSHED).toNat + n)))).raise 220 0

/-- A write of SWX_LEDGER (R142). -/
def ledgerWrite (c : Chip) (v : W32) : Chip :=
  if wbit v 31 then
    ({ c with swx := { c.swx with ledgerReq := true } }.setBit SWX_LEDGER 30 false).done
  else c.done

/-- The ledger latched outside enqueue windows (R141, R142). A row is atomic, so no window is open
between rows; in transit are the frames that wait for a receive queue alone. -/
def ledgerLatch (c : Chip) : Chip :=
  if c.swx.ledgerReq then
    let transit := c.pecksUsed - c.pecksQueued
    let balanced := c.pecksFree + c.pecksQueued + transit == 12288
    let c1 := { c with swx := { c.swx with ledgerReq := false } }
    let c2 := ((c1.setReg SWX_LEDGER_FREE (w32 c.pecksFree)).setReg SWX_LEDGER_QUEUED (w32 c.pecksQueued)).setReg
      SWX_LEDGER_TRANSIT (w32 transit)
    let c3 := (c2.setBit SWX_LEDGER 30 true).setBit SWX_LEDGER 29 balanced
    if balanced then c3 else c3.flag SWX_FLAGS 0 208
  else c

/-- One second passes for the dynamic entries (R148). -/
def fdbAge (c : Chip) : Chip :=
  let lim := (c.reg SWX_FDB_AGE).toNat
  (c.entriesOf 0).foldl (fun c i =>
    if wbit (c.entryWord 0 i 2) 31 then
      let age := wfld (c.entryWord 0 i 3) 15 0 + 1
      if lim ≠ 0 ∧ lim ≤ age then c.setEntry 0 i zeroEntry
      else c.setEntryWord 0 i 3 (w32 (satTo 65535 age))
    else c) c

/-! ### Gate-list changes -/

/-- The admin list of a port (R153, table 7). -/
def Chip.adminList (c : Chip) (p n : Nat) : List GclEntry :=
  (List.range n).map fun e =>
    let w := c.entry 7 (p * 1024 + e)
    ⟨wfld (w.getD 0 0) 31 28, wfld (w.getD 0 0) 7 0, (w.getD 1 0).toNat⟩

/-- A GCL_STAT.ERR, raising source 215 (R166). -/
def Chip.gclErr (c : Chip) (p : Nat) : Chip := c.flag (SWX_Pp_GCL_STAT p) 29 215

/-- A write of SWX_Pp_GCL_CMD (R153). -/
def gclChange (c : Chip) (p : Nat) (v : W32) : Chip :=
  if wbit v 0 then
    let n := c.fld (SWX_Pp_GCL_CTL p) 10 0
    let cycle := (c.reg (SWX_Pp_CYCLE p)).toNat
    if n = 0 ∨ 1024 < n ∨ cycle < 1000 ∨ 1000000000 < cycle ∨ c.bit (SWX_Pp_GCL_CTL p) 31 = false then
      (c.gclErr p).done
    else
      let base := c.reg64 (SWX_Pp_BASE_LO p)
      let limit := c.lt + 2000 * 65536
      let change := if limit < base * 65536 then base
        else base + ((limit / 65536 - base) / cycle + 1) * cycle
      let k : GclCfg := ⟨c.adminList p n, base, cycle, (c.reg (SWX_Pp_CYCLEEXT p)).toNat⟩
      (c.setGcl p { c.gclOf p with pending := some ⟨k, change, c.ltNs⟩ }).done
  else c.done

/-- A gate opens for a class in CMASK while the port is in LPI or waking (R122). -/
def Chip.lateWake (c : Chip) (p before after : Nat) : Chip :=
  if p < 8 ∧ (c.bit (ETH_Pn_EEE_STAT p) 1 ∨ c.bit (ETH_Pn_EEE_STAT p) 2) ∧
      (List.range 8).any (fun k => !nbit before k && nbit after k && c.bit (ETH_Pn_EEE_CTL p) k) then
    ((c.count p 56 1).setBit (ETH_Pn_FLAGS p) 6 true).portEv p 2
  else c

/-- A gate-list entry takes effect (R152). -/
def Chip.enterEntry (c : Chip) (p cycle entry : Nat) : Chip :=
  let c := c.settle p
  let g := c.gclOf p
  match g.oper with
  | none => c
  | some k =>
    let e := k.entries.getD entry ⟨0, 0, 0⟩
    let active := c.preempts p && decide (p < 8)
    let hold := if active then (if e.op = 1 then true else if e.op = 2 then false else g.hold) else false
    let c1 := c.setGcl p
      { g with cycle := cycle, entry := entry, started := true, since := c.lt, gates := e.gates, hold := hold }
    let c2 := if active && e.op == 1 then c1.count p 58 1 else c1
    c2.lateWake p g.gates e.gates

/-- The start of an operational entry (R152). -/
def gateEntryStart (c : Chip) (p : Nat) : Chip :=
  let g := c.gclOf p
  if c.bit (SWX_Pp_GCL_CTL p) 31 then
    match g.position c.ltNs with
    | none => c
    | some (n, e) => if g.started && g.cycle == n && g.entry == e then c else c.enterEntry p n e
  else c

/-- A list becomes operational, and table 8 shows it (R153). -/
def Chip.operList (c : Chip) (p : Nat) (k : GclCfg) : Chip :=
  k.entries.zipIdx.foldl (fun c e =>
    c.setEntry 8 (p * 1024 + e.2) [w32 (at_ e.1.op 28 + e.1.gates), w32 e.1.interval, 0, 0, 0, 0, 0, 0])
    (c.setGcl p { c.gclOf p with oper := some k, pending := none, started := false })

/-- The change time of a pending list (R153). -/
def gclChangeTime (c : Chip) (p : Nat) : Chip :=
  match (c.gclOf p).pending with
  | none => c
  | some ch => if ch.time ≤ c.ltNs then gateEntryStart ((c.operList p ch.cfg).raise 214 0) p else c

def Chip.sgateOf (c : Chip) (i : Nat) : SGate := tblGet .reset c.swx.sgates i

def Chip.setSgate (c : Chip) (i : Nat) (g : SGate) : Chip :=
  { c with swx := { c.swx with sgates := tblSet .reset c.swx.sgates i g } }

/-- The interval of an entry of stream gate i as it is written now, in ns. -/
def Chip.sgateLen (c : Chip) (i e : Nat) : Nat := (c.entryWord 6 (i * 64 + e) 1).toNat

/-- The entry that runs at line time, from entry `e` that begins at `start`, with its start: each entry passed is read
where it begins, and the last one runs on to the cycle's end (R157). -/
def Chip.sgateWalk (c : Chip) (i e start : Nat) : Nat → Nat × Nat
  | 0 => (e, start)
  | left + 1 => if start + c.sgateLen i e ≤ c.ltNs then c.sgateWalk i (e + 1) (start + c.sgateLen i e) left else (e, start)

/-- The cycle that a control list runs in at line time, where its base time has come (R157), with its start. -/
def Chip.sgateCycle (c : Chip) (ctrl : List W32) : Option (Nat × Nat) :=
  let base := join64 (ctrl.getD 1 0) (ctrl.getD 0 0)
  let cyc := (ctrl.getD 2 0).toNat
  if c.ltNs < base ∨ cyc = 0 then none
  else some ((c.ltNs - base) / cyc, base + (c.ltNs - base) / cyc * cyc)

/-- Whether the cycle that a gate runs in is still the one at line time. -/
def Chip.sgateInCycle (c : Chip) (g : SGate) : Bool :=
  g.started && (c.sgateCycle g.ctrl).any fun x => x.1 == g.cycle

/-- A stream-gate entry begins: what it says takes effect (R157). -/
def Chip.sgateBegin (c : Chip) (i : Nat) (ctrl : List W32) (cycle e start : Nat) : Chip :=
  let w := c.entryWord 6 (i * 64 + e) 0
  c.setSgate i ⟨ctrl, cycle, e, true, start, c.sgateLen i e, wbit w 31, if wbit w 30 then some (wfld w 26 24) else none⟩

/-- The start of a stream-gate entry (R157): the next one of the cycle in force, or the first of a new cycle, which runs
by the control record as it then stands. -/
def streamGateEntry (c : Chip) (i : Nat) : Chip :=
  let g := c.sgateOf i
  if c.sgateInCycle g then
    let len := wfld (g.ctrl.getD 3 0) 6 0
    if g.start + g.length ≤ c.ltNs ∧ g.entry + 1 < len then
      let x := c.sgateWalk i (g.entry + 1) (g.start + g.length) (len - g.entry - 2)
      c.sgateBegin i g.ctrl g.cycle x.1 x.2
    else c
  else
    let ctrl := c.entry 5 i
    if wbit (ctrl.getD 3 0) 31 = false then c.setSgate i { SGate.reset with ctrl := ctrl }
    else match c.sgateCycle ctrl with
      | none => c.setSgate i { g with ctrl := ctrl, started := false }
      | some (n, start) =>
        let x := c.sgateWalk i 0 start (wfld (ctrl.getD 3 0) 6 0 - 1)
        c.sgateBegin i ctrl n x.1 x.2

/-! ### Null frames -/

/-- The bytes of a null frame before its FCS (R161). -/
def Chip.nullFrame (c : Chip) (s p : Nat) : List Byte :=
  let w1 := c.entryWord 11 s 1
  let w2 := c.entryWord 11 s 2
  let seq := (c.reg SWX_NULLSEQ).toNat
  let tag := if wbit w2 31 then beBytes 2 0x8100 ++ beBytes 2 (at_ (wfld w2 30 28) 13 + wfld w2 27 16) else []
  beBytes 6 (wfld w2 15 0 * 2 ^ 32 + w1.toNat) ++ beBytes 6 (c.macAddr p) ++ tag ++
  beBytes 2 (c.fld ANG_ULPTYPE 15 0) ++ [0x12, 0] ++ beBytes 2 0 ++ beBytes 2 (c.fld ANG_STATION 13 0) ++
  beBytes 2 seq ++ beBytes 2 0x24 ++ beBytes 32 0 ++ beBytes 4 (ulpCheck 0 seq (beBytes 32 0))

/-- The CRC-32C of a null frame's payload, which SWX takes with its CVU context: preset 1, the fold word before the 32
bytes (R95, R161). -/
def Chip.nullCheck (c : Chip) (cv seq : Nat) : Chip :=
  let c1 := (cvLoad c cv 1).setReg (CVn_FOLD cv) (w32 seq)
  let c2 := c1.setReg (CVn_CFG cv) (wsetBit (wsetBit (c1.reg (CVn_CFG cv)) 31 true) 30 false)
  let c3 := (cvStart c2 cv).cvStep cv (beBytes 32 0)
  cvFinish (c3.setReg (CVn_COUNT cv) 32) cv

/-- A null frame of a slot placed at the head of queue (p, c) (R160, R161). -/
def Chip.placeNull (c : Chip) (s p cls : Nat) : Chip :=
  let data := c.nullFrame s p
  let seq := (c.reg SWX_NULLSEQ).toNat
  let (id, c1) := c.admitFrame ⟨data, data.length + 4, 10, none, c.lt⟩
  let c2 := (c1.settle p).setQueue p cls (⟨id, cls, false, .none, none⟩ :: c1.queue p cls)
  let c3 := ((c2.setReg SWX_NULLSEQ (w32 ((seq + 1) % 65536))).noteQueued p).nullCheck (c.fld SWX_SCHED_CTL 3 0) seq
  Chip.poolMarks c (((c3.incEntry 11 s 4).inc SWX_CNT_NULLS).raise 216 0)

/-- Whether a slot has no frame at the opening of its window, which entry e of the list has begun: none is queued, and
none has started since. The tick of the opening must be over, so that a frame queued in it counts (R38, R160). -/
def Chip.slotEmpty (c : Chip) (s p : Nat) : Bool :=
  let since := (c.gclOf p).since
  decide (since < c.lt) && !c.slotPend s && decide (tblGet 0 c.swx.slotStart s ≤ since) &&
    tblGet 0 c.swx.slotSeen s != since + 1

/-- A slot's window opens (R160); each opening is dealt with once. -/
def slotWindowOpen (c : Chip) (s : Nat) : Chip :=
  let w0 := c.entryWord 11 s 0
  let p := wfld w0 26 24
  let cls := wfld w0 22 20
  let e := wfld w0 9 0
  let g := c.gclOf p
  if !wbit w0 31 then c
  else
    let opens := match g.oper with
      | some k => match k.entries[e]? with
        | some x => nbit x.gates cls
        | none => false
      | none => false
    if !opens then c.gclErr p
    else if g.started && g.entry == e && c.slotEmpty s p then
      let c1 := { c with swx := { c.swx with slotSeen := tblSet 0 c.swx.slotSeen s (g.since + 1) } }
      if wbit w0 30 && c.bit SWX_SCHED_CTL 31 && c.linkUp p && decide (0 < c.pecksFree) && decide (0 < c.qdFree)
      then c1.placeNull s p cls else c1
    else c

/-! ### Registers -/

/-- What a SWX register shows where it is not a stored value. -/
def swxLive (c : Chip) (a : Nat) : W32 :=
  let o := a - 0x40060000
  let s := c.reg a
  if o = 0x18 then w32 c.pecksFree
  else if o = 0x20 then w32 c.qdFree
  else if 0x1000 ≤ o ∧ o < 0x1A00 then
    let p := (o - 0x1000) / 0x100
    let r := (o - 0x1000) % 0x100
    if r = 0x10 then
      let g := c.gclOf p
      w32 (at_ (b2n g.pending.isSome) 31 + at_ (b2n (g.oper.isSome && c.bit (SWX_Pp_GCL_CTL p) 31)) 30 +
        at_ (b2n (wbit s 29)) 29 + at_ ((g.oper.map fun k => k.entries.length).getD 0) 16 + g.entry)
    else if 0xC0 ≤ r ∧ r < 0xE0 then
      let cls := (r - 0xC0) / 4
      w32 (at_ (c.queue p cls).length 16 + c.depth p cls)
    else s
  else s

/-- A write to a SWX register. -/
def swxWrite (c : Chip) (m a : Nat) (v : W32) : Chip :=
  let o := a - 0x40060000
  if o = 0x08 then ledgerWrite c v
  else if o = 0x28 then c.plainWrite m a (w32 (max 1 (min v.toNat 65535)))
  else if o = 0x2C then flushWrite c v
  else if o = 0x100 then tblCmdWrite c v
  else if 0x1000 ≤ o ∧ o < 0x1A00 ∧ (o - 0x1000) % 0x100 = 0x0C then gclChange c ((o - 0x1000) / 0x100) v
  else if 0x1000 ≤ o ∧ o < 0x1A00 ∧ ((o - 0x1000) % 0x100 = 0x08 ∨
      (0x60 ≤ (o - 0x1000) % 0x100 ∧ (o - 0x1000) % 0x100 < 0xC0)) then
    (c.settle ((o - 0x1000) / 0x100)).plainWrite m a v
  else c.plainWrite m a v

end Sys2Proof.Machine
end

