-- ==== Sys2Proof/Machine/Eth.lean ====
section
/-!
DEFINITION. ETH: modes, negotiation and links (R104 to R106, R113, R114, R130), reception with the
local-delivery filters (R107, R109, R126 to R128, R143 to R145), transmission, collisions and back-off (R108, R110,
R111, R116, R149, R151), verification (R115), energy-efficient Ethernet (R118 to R122), counters (R123 to R125), the
cable test (R129) and the registers of R133 to R135.
-/
namespace Sys2Proof.Machine

/-! ### Modes and links -/

/-- Whether a mode is listed for a port (R104). -/
def modeListed (p mode : Nat) : Bool :=
  mode == 0 ||
  (if p < 2 then decide (1 ≤ mode) && decide (mode ≤ 3)
   else if p < 4 then mode == 8 || mode == 9
   else decide (0xA ≤ mode) && decide (mode ≤ 0xE))

/-- The mode in force on a port. -/
def Chip.portMode (c : Chip) (p : Nat) : Nat := c.fld (ETH_Pn_STAT p) 3 0

/-- Whether a port is in full duplex. -/
def Chip.fullDuplex (c : Chip) (p : Nat) : Bool := c.bit (ETH_Pn_STAT p) 29

/-- The verify status changed, raising port source 3 (R115). -/
def Chip.setVstatus (c : Chip) (p v : Nat) : Chip :=
  if c.fld (ETH_Pn_PRE_STAT p) 2 0 = v then c
  else (c.setFld (ETH_Pn_PRE_STAT p) 2 0 v).portEv p 3

/-- Whether a mode is one of those in which preemption is ever available (R104). -/
def preemptMode (mode : Nat) : Bool := mode == 1 || decide (0xA ≤ mode)

/-- Verification as it stands for the port's enables, mode and link (R115): DISABLED, INITIAL while the link
is down, and VERIFYING with the first verify mPacket once it is up (PRESUMED, log entry 30). -/
def Chip.startVerify (c : Chip) (p : Nat) : Chip :=
  if !c.bit (ETH_Pn_PRE_CTL p) 31 || !c.bit (ETH_Pn_PRE_CTL p) 30 ||
      !(if c.linkUp p then c.canPreempt p else preemptMode (c.portMode p)) then c.setVstatus p 0
  else if !c.linkUp p then c.setVstatus p 1
  else
    { c with swx := { c.swx with verify := tblSet .reset c.swx.verify p ⟨1, c.lt⟩ } }.setVstatus p 2

/-- A frame in transmission cut short (R130). -/
def Chip.abortTx (c : Chip) (p : Nat) (t : TxFrame) : Chip := ((c.release t.copy.fid).count p 52 1).portFlag p 2

/-- The time in LPI so far counted in each direction, and LPI ended (R123). -/
def Chip.endLpi (c : Chip) (p : Nat) : Chip :=
  let l := c.lpiOf p
  let c1 := if c.bit (ETH_Pn_EEE_STAT p) 1 then c.count p 54 ((c.lt - l.txSince) / 65536000) else c
  let c2 := if c.bit (ETH_Pn_EEE_STAT p) 0 then c1.count p 24 ((c.lt - l.rxSince) / 65536000) else c1
  c2.setReg (ETH_Pn_EEE_STAT p) 0

/-- The queues of a port flushed, in a flush of its own or beside the one that runs (R163). -/
def Chip.flushDown (c : Chip) (p : Nat) : Chip :=
  let (n, c1) := c.flushQueues p 255
  { c1 with swx := { c1.swx with flush := some (c.swx.flush.getD 0 + n) } }.setBit SWX_FLUSH 30 true

/-- The link of a port clears (R130, R163): the frame in transmission is cut short, and one whose transmission stands
still; the queues are flushed under DOWNFLUSH. -/
def Chip.dropLink (c : Chip) (p : Nat) : Chip :=
  let c0 := c.settle p
  let c1 := match c0.txOf p with
    | some t => (c0.setTx p none).abortTx p t
    | none => c0
  let c1 := match c1.heldOf p with
    | some t => (c1.setHeld p none).abortTx p t
    | none => c1
  if c1.linkUp p then
    let c2 := ((((c1.setBit (ETH_Pn_STAT p) 31 false).count p 62 1).setBit (ETH_Pn_FLAGS p) 0 true).portEv p 0)
    let c3 := ((c2.setPortRun p { c2.portRun p with firstFrag := none }).endLpi p).startVerify p
    if c3.bit (SWX_Pp_CTL p) 31 then c3.flushDown p else c3
  else c1

/-- The link of a port sets (R113, R115, R119): port source 0, the wake time of the mode, verification. -/
def Chip.raiseLink (c : Chip) (p : Nat) : Chip :=
  let c1 := (((c.setBit (ETH_Pn_STAT p) 31 true).setBit (ETH_Pn_FLAGS p) 0 true).portEv p 0)
  let speed := c.fld (ETH_Pn_STAT p) 27 24
  let c2 := if p < 2 ∧ speed = 1 then c1.setReg (ETH_Pn_EEE_TWTX p) 30000
    else if p < 2 ∧ speed = 2 then c1.setReg (ETH_Pn_EEE_TWTX p) 16500
    else c1
  (c2.setLpi p { c2.lpiOf p with lastQueued := c.lt }).startVerify p

/-- STAT.SPEED of a mode whose rate is fixed, if it is. -/
def fixedSpeed : Nat → Option Nat
  | 2 => some 0 | 3 => some 1 | 8 => some 0 | 9 => some 0 | 0xB => some 2 | 0xC => some 3 | 0xE => some 5
  | _ => none

/-- Whether EEE is resolved at a speed in full duplex (R118). -/
def Chip.eeeResolved (c : Chip) (p speed : Nat) (fdx : Bool) : Bool :=
  fdx &&
  (if p < 2 then
    let adv := c.reg (ETH_Pn_ANADV p)
    let lp := c.reg (ETH_Pn_ANLP p)
    if c.portMode p = 3 then wbit adv 7
    else if c.portMode p = 1 then
      (speed == 1 && wbit adv 7 && wbit lp 7) || (speed == 2 && wbit adv 8 && wbit lp 8)
    else false
  else decide (4 ≤ p))

/-- What a port has resolved, written to STAT. -/
def Chip.resolve (c : Chip) (p speed : Nat) (fdx : Bool) : Chip :=
  let c1 := ((c.settle p).setFld (ETH_Pn_STAT p) 27 24 speed).setBit (ETH_Pn_STAT p) 29 fdx
  c1.setBit (ETH_Pn_STAT p) 28 (c1.eeeResolved p speed fdx)

/-- A seed that no other port has: a number, or the next one above it that is free (R112). -/
def Chip.freshSeed (c : Chip) (p x : Nat) : Nat → W32
  | 0 => w32 x
  | n + 1 =>
    if (List.range 8).any fun q => q != p && (c.portRun q).seed == w32 x then c.freshSeed p (x + 1) n else w32 x

/-- A port's back-off generator seeded from the TRNG, which a free value stands for (R112; log entries 1, 127). -/
def Chip.seedBackoff (c : Chip) (p : Nat) : Chip :=
  let (x, c1) := c.takeFree
  let s := c1.freshSeed p x 8
  c1.setPortRun p { c1.portRun p with seed := s, gen := s }

/-- A write of ETH_Pn_CTL (R105, R113). MDI = 0b11 and LOOP = 0b11 are stored and act as 0b00: forced to neither
crossover, no loop (DESIGN CHOICE, log entry 38). -/
def modeWrite (c : Chip) (p : Nat) (v : W32) : Chip :=
  let mode := wfld v 3 0
  if !modeListed p mode then (c.portFlag p 7).done
  else
    let c1 := c.dropLink p
    let c2 := if c1.bit (ETH_Pn_CT_CTL p) 1 then
        ((List.range 4).foldl (fun c i => c.setReg (ETH_Pn_CT_PAIR p i) 0xE0000000)
          (c1.setBit (ETH_Pn_CT_CTL p) 1 false)).portEv p 4
      else c1
    let c3 := c2.setReg (ETH_Pn_CTL p) (v &&& 0x33CF)
    let c4 := c3.setReg (ETH_Pn_STAT p) (w32 mode)
    let c4 := c4.setPortRun p { c4.portRun p with curid := 0, oppAt := c.lt, oppSent := 0 }
    let c4 := if c.portMode p = 0 ∧ mode ≠ 0 then c4.seedBackoff p else c4
    let c4 := if c4.bit (ETH_Pn_PLCA_STAT p) 31 then (c4.setReg (ETH_Pn_PLCA_STAT p) 0).portEv p 5 else c4
    let c5 := match fixedSpeed mode with
      | some s => c4.resolve p s (if p < 2 then !wbit v 8 else decide (4 ≤ p))
      | none => c4
    let c6 := c5.setBit (ETH_Pn_STAT p) 23 (p < 2 ∧ mode ≠ 0 ∧ wfld v 7 6 = 2)
    (if (mode = 8 ∨ mode = 9) ∧ (c6.portRun p).jabber = false then c6.raiseLink p else c6).done

/-- The speeds a SGMII or USXGMII lane may run at. -/
def laneSpeed (mode speed : Nat) : Nat := if mode = 0xA then min speed 2 else min speed 5

/-- The speed and duplex that a negotiation resolves to, if there is a common ability (R106). Parallel detection of a
partner whose half duplex ANADV does not offer finds no common ability (DESIGN CHOICE, log entry 39). -/
def Chip.anOutcome (c : Chip) (p : Nat) (r : AnResult) : Option (Nat × Bool) :=
  let adv := c.reg (ETH_Pn_ANADV p)
  let both (i : Nat) := wbit adv i && wbit r.lp i
  match c.portMode p with
  | 1 =>
    if r.parallel = 1 then (if wbit adv 0 then some (0, false) else none)
    else if r.parallel = 2 then (if wbit adv 2 then some (1, false) else none)
    else if both 5 then some (2, true)
    else if both 3 then some (1, true)
    else if both 2 then some (1, false)
    else if both 1 then some (0, true)
    else if both 0 then some (0, false)
    else none
  | 0xA => some (laneSpeed 0xA r.speed, true)
  | 0xB => if both 5 then some (2, true) else none
  | 0xD => some (laneSpeed 0xD r.speed, true)
  | _ => none

/-- Whether a port negotiates in its mode (R104). -/
def Chip.negotiates (c : Chip) (p : Nat) : Bool :=
  let mode := c.portMode p
  mode == 1 || ((mode == 0xA || mode == 0xB || mode == 0xD) && c.bit (ETH_Pn_CTL p) 9)

/-- Negotiation ends (R106): ANDONE and port source 6, or a restart. -/
def autonegComplete (c : Chip) (p : Nat) (r : AnResult) : Chip :=
  if c.negotiates p && !c.linkUp p then
    let c1 := c.setReg (ETH_Pn_ANLP p) (r.lp &&& 0x1AF)
    match c1.anOutcome p r with
    | none => c1.setBit (ETH_Pn_STAT p) 30 false
    | some (speed, fdx) =>
      let c2 := (c1.resolve p speed fdx).setBit (ETH_Pn_STAT p) 30 true
      let c3 := if p < 2 ∧ c.fld (ETH_Pn_CTL p) 7 6 = 0 then c2.setBit (ETH_Pn_STAT p) 23 r.mdix else c2
      c3.portEv p 6
  else c

/-- A link comes up (R130); a lane that does not negotiate comes up at the speed its partner runs, and a forced mode
with auto crossover has found its crossover (R106, R135). -/
def linkComesUp (c : Chip) (p speed : Nat) (mdix : Bool) : Chip :=
  let mode := c.portMode p
  if mode = 0 ∨ mode = 8 ∨ mode = 9 ∨ c.linkUp p ∨ (c.negotiates p ∧ c.bit (ETH_Pn_STAT p) 30 = false) then c
  else
    let c1 := if 4 ≤ p then c.setBit (ETH_Pn_STAT p) 22 true else c
    let c2 := if (mode = 0xA ∨ mode = 0xD) ∧ c.negotiates p = false
      then c1.resolve p (laneSpeed mode speed) true else c1
    let c3 := if (mode = 2 ∨ mode = 3) ∧ c.fld (ETH_Pn_CTL p) 7 6 = 0 then c2.setBit (ETH_Pn_STAT p) 23 mdix else c2
    c3.raiseLink p

/-- A link is lost (R130), on a lane with its synchronisation (R123). A 10BASE-T1S segment has no partner to lose
(R113). -/
def linkLost (c : Chip) (p : Nat) : Chip :=
  if c.linkUp p ∧ c.portMode p ≠ 8 ∧ c.portMode p ≠ 9 then
    let c1 := (c.dropLink p).setBit (ETH_Pn_STAT p) 30 false
    if 4 ≤ p then (c1.setBit (ETH_Pn_STAT p) 22 false).count p 63 1 else c1
  else c

/-- The PHY reports jabber, or its end (R113). -/
def jabber (c : Chip) (p : Nat) (active : Bool) : Chip :=
  let mode := c.portMode p
  let c0 := c.setPortRun p { c.portRun p with jabber := active }
  if active then
    let c1 := c0.setBit (ETH_Pn_FLAGS p) 1 true
    if mode = 8 ∨ mode = 9 then c1.dropLink p else c1
  else if (mode = 8 ∨ mode = 9) ∧ c.linkUp p = false then c0.raiseLink p
  else c0

/-! ### PLCA -/

/-- A number of bit times at 10 Mb/s, in 2^-16 ns. -/
def bits10 (n : Nat) : Nat := n * 6553600

/-- Whether PLCA arbitrates a port's medium (R114). -/
def Chip.plcaOn (c : Chip) (p : Nat) : Bool := c.bit (ETH_Pn_PLCA_STAT p) 31

/-- The node whose transmit opportunity runs at a line time, as Clause 148 counts (R114; PRESUMED, log entry 67): each
opportunity ends TOTMR after it began unless its node sends; the one in which this node sent lasts BURSTTMR on while
BURSTCNT allows one more frame; the count stops at 255, at NODECNT on node 0, until a BEACON begins the next cycle. -/
def Chip.plcaCur (c : Chip) (p at_ : Nat) : Nat :=
  let r := c.portRun p
  let tmr := bits10 (c.fld (ETH_Pn_PLCA_TMR p) 7 0)
  let stay := if r.oppSent = 0 then tmr
    else if r.oppSent ≤ c.fld (ETH_Pn_PLCA_TMR p) 15 8 then bits10 (c.fld (ETH_Pn_PLCA_TMR p) 23 16) else 0
  let cap := if c.fld (ETH_Pn_PLCA_CTL p) 7 0 = 0 then c.fld (ETH_Pn_PLCA_CTL p) 15 8 else 255
  if !c.plcaOn p || (c.txOf p).isSome || decide (at_ < r.oppAt + stay) then r.curid
  else min cap (r.curid + 1 + (at_ - r.oppAt - stay) / tmr)

/-- Whether the medium's arbitration lets a port start a frame: under PLCA in its own opportunity (R110, R114). -/
def Chip.plcaMay (c : Chip) (p : Nat) : Bool :=
  !c.plcaOn p || c.plcaCur p c.lt == c.fld (ETH_Pn_PLCA_CTL p) 7 0

/-- This node sends in its transmit opportunity (R114, R123). -/
def Chip.oppTaken (c : Chip) (p : Nat) : Chip :=
  let r := c.portRun p
  let id := c.fld (ETH_Pn_PLCA_CTL p) 7 0
  if !c.plcaOn p then c
  else if 0 < r.oppSent ∧ r.curid = id then c.setPortRun p { r with oppAt := c.lt, oppSent := r.oppSent + 1 }
  else (c.count p 61 1).setPortRun p { r with curid := id, oppAt := c.lt, oppSent := 1 }

/-- This node's frame ends: its opportunity goes on from here (R114). -/
def Chip.oppEnds (c : Chip) (p : Nat) : Chip :=
  if c.plcaOn p then c.setPortRun p { c.portRun p with oppAt := c.lt } else c

/-- Another node has sent a frame of `len` bytes in its opportunity, which ends with it (R114). -/
def Chip.oppHeard (c : Chip) (p len : Nat) : Chip :=
  if c.plcaOn p ∧ c.txOf p = none then
    c.setPortRun p { c.portRun p with
      curid := min 255 (c.plcaCur p (c.lt - bits10 ((len + 8) * 8)) + 1), oppAt := c.lt, oppSent := 0 }
  else c

/-- BEACONs start, go on or stop (R114), `n` of them sent or received since; `curid` is the node whose opportunity
begins. -/
def plcaActive (c : Chip) (p : Nat) (active : Bool) (curid n : Nat) : Chip :=
  if c.portMode p = 9 ∧ c.fld (ETH_Pn_PLCA_CTL p) 7 0 ≠ 255 then
    let c1 := (c.count p 60 n).setPortRun p { c.portRun p with curid := curid, oppAt := c.lt, oppSent := 0 }
    if c.bit (ETH_Pn_PLCA_STAT p) 31 = active then c1
    else (c1.setBit (ETH_Pn_PLCA_STAT p) 31 active).portEv p 5
  else c

/-- VTIME ms have passed since the last verify mPacket, or a response has come (R115). -/
def verifyTimer (c : Chip) (p : Nat) (response : Bool) : Chip :=
  let k := tblGet .reset c.swx.verify p
  if c.fld (ETH_Pn_PRE_STAT p) 2 0 = 2 then
    if response then c.setVstatus p 3
    else if c.lt < k.last + c.fld (ETH_Pn_PRE_CTL p) 15 8 * 65536000000 then c
    else if 3 ≤ k.attempts then c.setVstatus p 4
    else { c with swx := { c.swx with verify := tblSet .reset c.swx.verify p ⟨k.attempts + 1, c.lt⟩ } }
  else c

/-! ### Transmission -/

/-- Whether the transmitter of a port may start a frame. -/
def Chip.txReady (c : Chip) (p : Nat) : Bool :=
  c.linkUp p && (c.txOf p).isNone && !c.bit (ETH_Pn_EEE_STAT p) 1 && !c.bit (ETH_Pn_EEE_STAT p) 2

/-- Bytes padded with zeros to 60 (R107). -/
def padFrame (data : List Byte) : List Byte := data ++ List.replicate (60 - data.length) 0

/-- A frame with the bytes from `ofs` replaced; nothing is added past its end. -/
def overlay (data : List Byte) (ofs : Nat) (bs : List Byte) : List Byte :=
  data.take ofs ++ (bs.take (data.length - ofs)) ++ data.drop (ofs + bs.length)

/-- The UDP checksum of a UDP/IPv4 frame set to 0 (R63), behind its VLAN tags and its R-TAG. -/
def clearUdp (data : List Byte) : List Byte :=
  let q := parseFrame data 0
  let ty := if q.etype = 0xF1C1 then q.ofs + 6 else q.ofs
  let ip := ty + 2
  let ihl := (byteAt data ip).toNat % 16 * 4
  if beNat (bytesAt data ty 2) = 0x0800 ∧ (byteAt data (ip + 9)).toNat = 17 ∧ (byteAt data ip).toNat / 16 = 4
  then overlay data (ip + ihl + 6) [0, 0] else data

/-- A one-step frame: the named time at its offset, its fraction in the correctionField (R63). -/
def oneStepInsert (data : List Byte) (r : TxReq) (s : Stamp) : List Byte :=
  let t := match r.dom with | 0 => s.lt | 1 => s.da | _ => s.db
  let ns := t / 65536
  let d1 := overlay data r.tsOfs (beBytes 6 (ns / 1000000000) ++ beBytes 4 (ns % 1000000000))
  let corr := (beNat (bytesAt d1 r.corrOfs 8) + t % 65536) % 2 ^ 64
  clearUdp (overlay d1 r.corrOfs (beBytes 8 corr))

/-- Whether a request is served in one step on a port (R63, R255). -/
def Chip.oneStepOn (c : Chip) (p : Nat) (r : TxReq) : Bool := r.oneStep && c.bit (TMU_Pn_TSCTL p) 2

/-- A request as it stands after the outermost tag has been taken out. -/
def TxReq.untagged (r : TxReq) : TxReq :=
  let mv (x : Nat) := if 16 ≤ x then x - 4 else x
  { r with corrOfs := mv r.corrOfs, tsOfs := mv r.tsOfs }

/-- The bytes of an attempt to send a copy whose start-frame delimiter leaves now (R63, R107, R116). -/
def Chip.txBytes (c : Chip) (p : Nat) (k : Copy) (s : Stamp) : List Byte :=
  let d := (c.frame k.fid).data
  let d := padFrame (if k.untag then splice d 12 4 [] else d)
  if c.oneStepOn p k.req then oneStepInsert d (if k.untag then k.req.untagged else k.req) s else d

/-- The egress stamp of a frame that asks for one (R59, R61, R255). -/
def Chip.txStamp (c : Chip) (p : Nat) (r : TxReq) (s : Stamp) : Chip :=
  if (r.stamp || (r.oneStep && !c.oneStepOn p r)) && c.bit (TMU_Pn_TSCTL p) 1
  then (c.count p 59 1).pushStamp p s else c

/-- A copy starts transmission on a port, its start-frame delimiter `phase` quarters of a tick into the present one. -/
def Chip.startTx (c : Chip) (p : Nat) (k : Copy) (deferred stomp : Bool) (phase : Nat) : Chip :=
  let c := (c.settle p).oppTaken p
  let s := c.stampNow p false phase k.req.tag
  let c1 := match k.slot with
    | some i => c.slotStarts i
    | none => c
  let c2 := c1.setTx p (some ⟨k, c.txBytes p k s, s, c.lt, 0, 0, none, deferred, stomp⟩)
  let c3 := if deferred then c2.count p 49 1 else c2
  if c.fullDuplex p then c3.txStamp p k.req s else c3

/-- The head frame of a class starts on a port. -/
def Chip.startHead (c : Chip) (p cls : Nat) (busy : Bool) (phase : Nat) : Chip :=
  match c.queue p cls with
  | [] => c
  | k :: rest => ((c.settle p).setQueue p cls rest).startTx p k (busy && !c.fullDuplex p) false phase

/-- The bytes of the fragment in transmission that have left so far, at the port's rate. -/
def Chip.fragBytes (c : Chip) (p : Nat) (t : TxFrame) : Nat := (c.lt - t.started) * c.rate p / 524288000 - 8

/-- Whether a frame in transmission may be stopped here (R115): it is preemptable, its fragment has the minimum length,
and 64 bytes at least are left (PRESUMED, log entry 65). -/
def Chip.mayStop (c : Chip) (p : Nat) (t : TxFrame) : Bool :=
  c.preemptable p t.copy.cls && decide (64 * (1 + c.fld (ETH_Pn_PRE_CTL p) 17 16) - 4 ≤ c.fragBytes p t) &&
    decide (t.sent + c.fragBytes p t + 64 ≤ t.data.length + 4)

/-- An express frame interrupts a preemptable one, or hold stops it (R115, R152). -/
def Chip.interruptTx (c : Chip) (p : Nat) (t : TxFrame) (phase : Nat) : Chip :=
  let c0 := ((c.settle p).setTx p none).setHeld p (some { t with sent := t.sent + c.fragBytes p t })
  match c0.select p true c0.copies.length with
  | (some cls, c1) => c1.startHead p cls false phase
  | (none, c1) => if (c.gclOf p).hold then c1 else c

/-- The port selects a frame and starts it (R151), or goes on with a preempted one (R115); `busy` whether the medium was
busy first. -/
def frameTransmitStart (c : Chip) (p : Nat) (busy : Bool) (phase : Nat) : Chip :=
  if c.txReady p && c.plcaMay p then
    match (c.settle p).select p (c.heldOf p).isSome c.copies.length with
    | (some cls, c1) => c1.startHead p cls busy phase
    | (none, c1) =>
      match c1.heldOf p with
      | none => c1
      | some t =>
        if (c1.gclOf p).hold then c1
        else ((c1.setHeld p none).setTx p (some { t with started := c.lt })).count p 57 1
  else match c.txOf p with
    | some t => if c.linkUp p && c.mayStop p t then c.interruptTx p t phase else c
    | none => c

/-- The counter of a good frame's length, from the first of the seven (R123). -/
def sizeBin (len : Nat) : Nat :=
  if len ≤ 64 then 0 else if len ≤ 127 then 1 else if len ≤ 255 then 2 else if len ≤ 511 then 3
  else if len ≤ 1023 then 4 else if len ≤ 1518 then 5 else 6

/-- A good frame counted: octets, frames, address kind and length, from counter `base` (R123). -/
def Chip.countGood (c : Chip) (p base : Nat) (data : List Byte) (binBase : Nat) : Chip :=
  let len := data.length + 4
  let mac := dstOf data
  let kind := if isBroadcast mac then 4 else if isGroup mac then 3 else 2
  (((c.count p base len).count p (base + 1) 1).count p (base + kind) 1).count p (binBase + sizeBin len) 1

/-! ### Reception -/

/-- The counter of a frame that is not good, by the order of the table (R124). -/
def rxErrCounter (len maxlen : Nat) (f : RxFrame) : Option Nat :=
  if len < 64 then some (if f.fcsGood then 14 else 15)
  else if maxlen < len then some (if f.fcsGood then 16 else 17)
  else if !f.fcsGood then some 18
  else if f.symErr then some 20
  else none

/-- The address class of a local frame (R126). -/
def Chip.addrClass (c : Chip) (p mac fid : Nat) : Nat :=
  if c.ownUnicast p mac fid then 0 else if isBroadcast mac then 3 else if isGroup mac then 2 else 1

/-- Whether rule k passes a frame (R126). -/
def Chip.ldfPasses (c : Chip) (k p cls : Nat) (q : Parsed) : Bool :=
  let cfg := c.reg (ETH_LDFk_CFG k)
  let vid := c.reg (ETH_LDFk_VID k)
  let ty := c.reg (ETH_LDFk_TYPE k)
  let mask := wfld vid 27 16
  wbit cfg 31 && nbit (wfld cfg 15 8) p && nbit (wfld cfg 19 16) cls && nbit (wfld cfg 27 20) q.pcp &&
  (q.vid &&& mask) == (wfld vid 11 0 &&& mask) &&
  (!wbit cfg 29 || q.etype == wfld ty 15 0) &&
  (!wbit cfg 28 || (q.etype == c.fld ANG_ULPTYPE 15 0 && nbit (wfld ty 31 16) q.ulp))

/-- A local frame decided by the filters (R126): to a receive queue, or discarded. HITS and NOMATCH stay at
0xFFFF_FFFF (DESIGN CHOICE, log entry 33). -/
def Chip.decideLocal (c : Chip) (p fid cls : Nat) (data : List Byte) (q : Parsed) : Chip :=
  let dst := c.addrClass p (dstOf data) (wfld (c.entryWord 2 q.vid 1) 11 0)
  let send (c : Chip) (w : W32) (drop : Nat) (rule : Nat) : Chip :=
    if wbit w drop then c
    else { c with swx := { c.swx with deciding := c.swx.deciding ++ [⟨fid, wfld w 4 0, rule, cls⟩] } }
  match (List.range 64).find? fun k => c.ldfPasses k p dst q with
  | some k => send (c.inc (ETH_LDFk_HITS k)) (c.reg (ETH_LDFk_CFG k)) 30 k
  | none => send (c.inc ETH_LDF_NOMATCH) (c.reg ETH_LDF_CTL) 31 255

/-- Whether a copy to a port is sent in cut-through (R144). -/
def Chip.cutThrough (c : Chip) (inPort p cls : Nat) (stream : Option Nat) : Bool :=
  decide (p < 8) && c.bit (SWX_Pp_CTL p) (8 + cls) && !c.preemptable p cls &&
  (c.queue p cls).isEmpty && c.txReady p && c.plcaMay p && decide (c.rate p ≤ c.rate inPort) &&
  (match stream with
   | some i => wfld (c.entryWord 3 i 3) 13 0 == 0 && !wbit (c.entryWord 3 i 4) 31
   | none => true) &&
  c.gateOpen p cls && c.fits p cls (c.reg (ETH_Pn_MAXLEN inPort)).toNat

/-- Steps 1 and 2 of R145: the class, or none when the frame is discarded. -/
def Chip.ingressClass (c : Chip) (p : Nat) (data : List Byte) (q : Parsed) : Option Nat × Chip :=
  if q.vid = 4095 then (none, c)
  else if dstOf data / 16 ≠ 0x0180C200000 ∧ c.bit (SWX_Pp_CTL p) 30 ∧
      nbit (wfld (c.entryWord 2 q.vid 0) 9 0) p = false then (none, c.incFrom0 SWX_CNT_VLANDROP 222)
  else (some (c.fld (SWX_Pp_PCPMAP p) (3 * q.pcp + 2) (3 * q.pcp)), c)

/-- A copy linked or started in cut-through to each port of a set (R143, R144); one in cut-through starts at the tick
(DESIGN CHOICE, log entry 68). -/
def Chip.forward (c : Chip) (ports inPort fid cls vid : Nat) (tagged stomp : Bool) (stream : Option Nat) :
    Bool × Chip :=
  (List.range 10).foldl (fun (acc : Bool × Chip) p =>
    if nbit ports p then
      let c := acc.2
      let k : Copy := ⟨fid, cls, tagged && c.untags p vid, .none, none⟩
      if c.cutThrough inPort p cls stream then
        if c.qdFree = 0 then (acc.1, c.inc SWX_CNT_QDFULL)
        else if c.fld (SWX_Pp_QLIM p cls) 13 0 = 0 then (acc.1, c.inc (SWX_Pp_QDROP p cls))
        else (true, c.startTx p k false stomp 0)
      else if stomp then acc
      else
        let (ok, c') := c.link p k
        (acc.1 || ok, c')
    else acc) (false, c)

/-- A frame taken into the buffer and forwarded (R143 to R145); one that is bad goes no further
than its cut-through copies. -/
def Chip.switchFrame (c : Chip) (p : Nat) (data : List Byte) (q : Parsed) (stamp : Option Stamp) (bad : Bool) :
    Chip :=
  match c.ingressClass p data q with
  | (none, c1) => if bad then c else c1
  | (some cls0, c1) =>
    let stream := c1.streamOf p data q.vid
    match c1.filterStream p cls0 data q with
    | (none, c2) => if bad then c else c2
    | (some f, c2) =>
      match c2.lookup p f.data q.vid with
      | none => if bad then c else c2
      | some r =>
        let cut := (List.range 8).any fun i => nbit r.ports i && c2.cutThrough p i f.cls stream
        if bad && !cut then c
        else
          let (id, c3) := c2.admitFrame ⟨f.data, f.data.length + 4, p, stamp, c.lt⟩
          let (_, c4) := c3.forward r.ports p id f.cls q.vid q.tagged bad stream
          let c5 := if r.toLocal && !bad then c4.decideLocal p id cls0 f.data q else c4
          Chip.poolMarks c (c5.release id)

/-- A frame that turns out bad, or that the free pecks do not hold: its cut-through copies go on with what the buffer
could take of it, and end with an inverted FCS (R131, R143, R144). -/
def Chip.switchBad (c : Chip) (p : Nat) (data : List Byte) (q : Parsed) (stamp : Option Stamp) : Chip :=
  if c.pecksFree = 0 then c
  else c.switchFrame p (data.take (c.pecksFree * 128 - 4)) q stamp true

/-- The ingress stamp of a frame on a port (R59, R60, R116): a reassembled frame has that of its first fragment. Its tag
counts the frame itself (DESIGN CHOICE, log entry 26). The stamp counts where it is taken (R123). -/
def Chip.ingressStamp (c : Chip) (p : Nat) (f : RxFrame) : Option Stamp × Chip :=
  let tag := (c.reg (ETH_Pn_CNT p 1)).toNat + 1
  let taken := if c.bit (TMU_Pn_TSCTL p) 0 then some (c.stampNow p true f.phase.val tag) else none
  let now := (taken, if taken.isSome then c.count p 29 1 else c)
  if f.frags = 0 then now
  else match (c.portRun p).firstFrag with
    | none => now
    | some s => (some { s with tag := tag % 65536 }, c.setPortRun p { c.portRun p with firstFrag := none })

/-- The start of a preempted frame's first fragment arrives (R116). -/
def Chip.firstFragment (c : Chip) (p : Nat) (f : RxFrame) : Chip :=
  let (s, c1) := c.ingressStamp p { f with frags := 0 }
  c1.setPortRun p { c1.portRun p with firstFrag := s }

/-- A frame received on P0 to P7 (R107, R109, R123, R124, R143 to R147). -/
def frameReceive (c : Chip) (p : Nat) (f : RxFrame) : Chip :=
  if c.linkUp p then
    let maxlen := (c.reg (ETH_Pn_MAXLEN p)).toNat
    let c0 := ((c.count p 31 f.falseCarrier).count p 63 f.pcsErr).count p 25 f.frags
    let len := f.data.length + 4
    if f.smdErr then c0.count p 28 1
    else if f.asmErr then (c0.setPortRun p { c0.portRun p with firstFrag := none }).count p 27 1
    else if f.first then c0.firstFragment p f
    else if f.data = [] then c0
    else
      let (stamp, c1) := c0.ingressStamp p f
      let c1 := (if 0 < f.frags then c1.count p 26 1 else c1).oppHeard p len
      let q := parseFrame f.data (c.pvid p)
      match rxErrCounter len maxlen f with
      | some k =>
        let c2 := (c1.count p k 1).count p 21 len
        if len ≤ 128 then c2 else c2.switchBad p (f.data.take (maxlen + 1)) q stamp
      | none =>
        let c2 := c1.countGood p 0 f.data 7
        let c3 := if q.tagged then c2.count p 6 1 else c2
        let c4 := if q.etype = c.fld ANG_ULPTYPE 15 0 then c3.count p 30 1 else c3
        if q.etype = 0x8808 then c4.count p 5 1
        else if c4.pecksFree < pecksOf len then (c4.count p 22 1).switchBad p f.data q stamp
        else (c4.switchFrame p f.data q stamp false).learn p f.data q.vid
  else c

/-! ### The end of a transmission, collisions -/

/-- A frame leaves the transmitter of a port for good. -/
def Chip.endTx (c : Chip) (p : Nat) (t : TxFrame) : Chip :=
  let c1 := (((c.settle p).setTx p none).oppEnds p).release t.copy.fid
  c1.setLpi p { c1.lpiOf p with lastQueued := c.lt }

/-- A frame sent comes back to the port's receiver under LOOP (R135; DESIGN CHOICE, log entry 66). -/
def Chip.looped (c : Chip) (p : Nat) (t : TxFrame) (good : Bool) (phase : Fin 4) : Chip :=
  let loop := c.fld (ETH_Pn_CTL p) 13 12
  if loop = 1 ∨ loop = 2 then frameReceive c p ⟨t.data, good, false, false, 0, false, false, 0, 0, phase, false⟩ else c

/-- A transmission ends (R149): its pecks return with the last copy; a frame whose data was bad or
came too late has been ended with an inverted FCS (R131). -/
def frameTransmitEnd (c : Chip) (p : Nat) (underrun : Bool) (phase : Fin 4) : Chip :=
  match c.txOf p with
  | none => c
  | some t =>
    if t.backoff.isSome then c
    else
      let c1 := c.endTx p t
      if underrun then ((c1.count p 50 1).portFlag p 3).looped p t false phase
      else if t.stomp then (c1.count p 51 1).looped p t false phase
      else
        let c2 := c1.countGood p 32 t.data 37
        let c3 := if t.colls = 1 then c2.count p 45 1 else if 2 ≤ t.colls then c2.count p 46 1 else c2
        (if c.fullDuplex p then c3 else c3.txStamp p t.copy.req t.stamp).looped p t true phase

/-- A draw of a port's back-off generator (R112). -/
def Chip.drawBackoff (c : Chip) (p : Nat) : W32 × Chip :=
  let g := Config.backoffNext (c.portRun p).gen
  (g, c.setPortRun p { c.portRun p with gen := g })

/-- A collision in half duplex (R110 to R112), `bits` bit times after the frame's start: the jam of 32 bit times and a
back-off of r slot times, r the generator's draw modulo 2^min(k, 10), or the end of the frame. -/
def collision (c : Chip) (p bits : Nat) : Chip :=
  match c.txOf p with
  | none => c
  | some t =>
    if c.fullDuplex p ∨ t.backoff.isSome then c
    else
      let c0 := (c.settle p).count p 44 1
      if 512 < bits then ((c0.endTx p t).count p 47 1).portFlag p 4
      else if 15 ≤ t.colls then ((c0.endTx p t).count p 48 1).portFlag p 5
      else
        let k := t.colls + 1
        let (x, c1) := c0.drawBackoff p
        let r := x.toNat % 2 ^ min k 10
        c1.setTx p (some { t with colls := k, backoff := some (c.lt + (32 + r * 512) * 65536000 / c.rate p) })

/-- A back-off ends and the frame is sent again, with a fresh one-step time (R110, R111): in a gate window only where it
still fits, under PLCA only in the port's opportunity. -/
def backoffExpiry (c : Chip) (p phase : Nat) : Chip :=
  match c.txOf p with
  | none => c
  | some t =>
    match t.backoff with
    | none => c
    | some e =>
      if e ≤ c.lt ∧ c.linkUp p ∧ (c.setTx p none).plcaMay p ∧
          c.gateOpen p t.copy.cls ∧ c.fits p t.copy.cls (t.data.length + 4) then
        let c := (c.settle p).oppTaken p
        let s := c.stampNow p false phase t.copy.req.tag
        c.setTx p (some { t with backoff := none, stamp := s, data := c.txBytes p t.copy s, started := c.lt })
      else c

/-! ### Energy-efficient Ethernet -/

/-- The next openings of the classes in CMASK, in ns (R120, R159). -/
def Chip.eeeOpenings (c : Chip) (p : Nat) : List Nat :=
  (List.range 8).filterMap fun k => if c.bit (ETH_Pn_EEE_CTL p) k then c.nextOpening p k else none

/-- LPI signalling starts where R120 allows it. -/
def lpiEntry (c : Chip) (p : Nat) : Chip :=
  let k := c.lpiOf p
  let idle := (c.reg (ETH_Pn_EEE_IDLE p)).toNat * 65536000
  let gap := (c.reg (ETH_Pn_EEE_TWTX p)).toNat + (c.reg (ETH_Pn_EEE_GUARD p)).toNat +
    (c.reg (ETH_Pn_EEE_MINSLP p)).toNat * 1000
  if c.bit (ETH_Pn_EEE_CTL p) 31 ∧ c.bit (ETH_Pn_STAT p) 28 ∧ c.txReady p ∧
      ((List.range 8).all fun i => (c.queue p i).isEmpty) ∧ c.heldOf p = none ∧ k.lastQueued + idle ≤ c.lt ∧
      (c.bit (ETH_Pn_EEE_CTL p) 30 = false ∨ (c.eeeOpenings p).all fun t => c.lt + gap * 65536 ≤ t * 65536) then
    ((c.count p 53 1).setBit (ETH_Pn_EEE_STAT p) 1 true).setLpi p { k with txSince := c.lt }
  else c

/-- The schedule's wake (R121). -/
def earlyWake (c : Chip) (p : Nat) : Chip :=
  let lead := (c.reg (ETH_Pn_EEE_TWTX p)).toNat + (c.reg (ETH_Pn_EEE_GUARD p)).toNat
  if c.bit (ETH_Pn_EEE_STAT p) 1 ∧ c.bit (ETH_Pn_EEE_CTL p) 30 ∧
      (c.eeeOpenings p).any fun t => t * 65536 ≤ c.lt + lead * 65536 then
    (c.count p 55 1).leaveLpi p
  else c

/-- The transmitter leaves LPI where EN or EEERES no longer allows it (R118). -/
def Chip.checkLpi (c : Chip) (p : Nat) : Chip :=
  if c.bit (ETH_Pn_EEE_STAT p) 1 && !(c.bit (ETH_Pn_EEE_CTL p) 31 && c.bit (ETH_Pn_STAT p) 28) then c.leaveLpi p else c

/-- The wake ends TWTX after leaving LPI (R121). -/
def wakeComplete (c : Chip) (p : Nat) : Chip :=
  if c.bit (ETH_Pn_EEE_STAT p) 2 ∧ (c.lpiOf p).wakeEnd ≤ c.lt then c.setBit (ETH_Pn_EEE_STAT p) 2 false else c

/-- The partner's LPI signalling (R122). -/
def rxLpi (c : Chip) (p : Nat) (enter : Bool) : Chip :=
  let k := c.lpiOf p
  if !c.linkUp p || c.bit (ETH_Pn_EEE_STAT p) 0 == enter then c
  else if enter then
    ((c.setBit (ETH_Pn_EEE_STAT p) 0 true).count p 23 1).setLpi p { k with rxSince := c.lt }
  else (c.setBit (ETH_Pn_EEE_STAT p) 0 false).count p 24 ((c.lt - k.rxSince) / 65536000)

/-! ### Counters, filters, cable test -/

/-- All 64 counters copied (R125). -/
def Chip.copyCounters (c : Chip) (p : Nat) : Chip :=
  (List.range 64).foldl (fun d j => d.setReg (ETH_Pn_SNAP p j) (c.reg (ETH_Pn_CNT p j))) c

/-- A write of ETH_Pn_CNTSNAP (R125). -/
def counterSnapshot (c : Chip) (p : Nat) (v : W32) : Chip :=
  if wbit v 0 then (c.copyCounters p).done else c.done

/-- A write of ETH_Pn_CNTCLR (R125). -/
def counterClear (c : Chip) (p : Nat) (v : W32) : Chip :=
  if wbit v 0 then
    (((List.range 64).foldl (fun c j => c.setReg (ETH_Pn_CNT p j) 0) c).setReg (ETH_Pn_CNTHALF0 p) 0).setReg
      (ETH_Pn_CNTHALF1 p) 0 |>.done
  else c.done

/-- A write of ETH_LDFk_CFG: the rule and its staged words take effect (R128). -/
def ldfCommit (c : Chip) (k : Nat) (v : W32) : Chip :=
  (((c.setReg (ETH_LDFk_CFG k) (v &&& 0xFFFFFF1F)).setReg (ETH_LDFk_VID k) (c.stagedPart (ETH_LDFk_VID k))).setReg
    (ETH_LDFk_TYPE k) (c.stagedPart (ETH_LDFk_TYPE k))).done

/-- A write of ETH_Pn_CT_CTL (R129). START while a test runs leaves it running (DESIGN CHOICE, log entry 69). -/
def cableTestStart (c : Chip) (p : Nat) (v : W32) : Chip :=
  if p < 2 ∧ wbit v 0 then
    if c.portMode p = 0 then (c.setBit (ETH_Pn_CT_CTL p) 1 true).done else (c.portFlag p 7).done
  else c.done

/-- A cable test ends (R129). -/
def cableTestDone (c : Chip) (p : Nat) (rs : List PairResult) : Chip :=
  if c.bit (ETH_Pn_CT_CTL p) 1 then
    (((rs.take 4).zipIdx.foldl (fun c r =>
      c.setReg (ETH_Pn_CT_PAIR p r.2) (w32 (at_ (r.1.code % 16) 28 + r.1.dist % 65536))) c).setBit
        (ETH_Pn_CT_CTL p) 1 false).portEv p 4
  else c

/-! ### Registers -/

/-- Whether a port has the feature whose register lies at an offset of its block (R133). -/
def portHas (p r : Nat) : Bool :=
  if r = 0x20 ∨ r = 0x24 then p < 2 || decide (4 ≤ p)
  else if 0x40 ≤ r ∧ r < 0x4C then decide (2 ≤ p) && decide (p < 4)
  else if 0x50 ≤ r ∧ r < 0x78 then p < 2 || decide (4 ≤ p)
  else if 0x80 ≤ r ∧ r < 0x94 then decide (p < 2)
  else true

/-- What an ETH register shows where it is not a stored value. -/
def ethLive (c : Chip) (a : Nat) : W32 :=
  let o := a - 0x40040000
  if o < 0x8000 then
    let p := o / 0x1000
    let r := o % 0x1000
    if !portHas p r then 0
    else if r = 0x48 then wsetFld (c.reg a) 7 0 (c.plcaCur p c.lt)
    else if r = 0x74 then wsetBit (c.reg a) 8 (c.preempts p)
    else c.reg a
  else c.reg a

/-- A write to an ETH register. NODECNT and TOTMR are stored as written, a 0 included (DESIGN CHOICE, log entry 67). -/
def ethWrite (c : Chip) (m a : Nat) (v : W32) : Chip :=
  let o := a - 0x40040000
  if o < 0x8000 then
    let p := o / 0x1000
    let r := o % 0x1000
    if !portHas p r then c.done
    else if r = 0 then modeWrite c p v
    else if r = 0x0C then (c.setReg a (w32 (max 64 (min v.toNat 9216)))).done
    else if r = 0x20 then
      let c1 := c.plainWrite m a v
      if c1.portMode p = 3 then (c1.setBit (ETH_Pn_STAT p) 28 (c1.eeeResolved p 1 (c1.fullDuplex p))).checkLpi p else c1
    else if r = 0x50 then (c.plainWrite m a v).checkLpi p
    else if r = 0x40 ∨ r = 0x44 then
      if c.portMode p = 0 then c.plainWrite m a v else (c.portFlag p 7).done
    else if r = 0x54 then
      let low := match c.fld (ETH_Pn_STAT p) 27 24 with | 1 => 30000 | 2 => 16500 | _ => 0
      c.plainWrite m a (if p < 2 then w32 (max low (wfld v 19 0)) else v)
    else if r = 0x70 then
      let vt := max 1 (min (wfld v 15 8) 128)
      ((c.plainWrite m a (wsetFld v 15 8 vt)).startVerify p)
    else if r = 0x80 then cableTestStart c p v
    else if r = 0xA0 then counterSnapshot c p v
    else if r = 0xA4 then counterClear c p v
    else c.plainWrite m a v
  else if 0x8100 ≤ o ∧ o < 0x8500 then
    let k := (o - 0x8100) / 0x10
    let r := (o - 0x8100) % 0x10
    if r = 0 then ldfCommit c k v
    else if r = 4 then (c.stage a (v &&& 0x0FFF0FFF)).done
    else if r = 8 then (c.stage a v).done
    else c.plainWrite m a v
  else c.plainWrite m a v

end Sys2Proof.Machine
end

