-- ==== Sys2Proof/Machine/Evr.lean ====
section
/-!
DEFINITION. The event recorder: records in MRAM (R462 to R465), the scan at RESET (R466), the counter block
(R463), submission and clearing (R467), and EVR's registers (R470, R471).
-/
namespace Sys2Proof.Machine

/-- The address of a recorder slot. -/
def evrSlot (k : Nat) : Nat := 0x20040000 + 64 * k

/-- The modulus of a record's sequence (R462). -/
def seqMod : Nat := 2 ^ 31

/-- Whether sequence `a` is `b` or later, in arithmetic modulo 2^31. -/
def seqLater (a b : Nat) : Bool := decide ((a + seqMod - b % seqMod) % seqMod < 2 ^ 30)

/-- Bytes 0 to 59 of a record with the valid marker (R462). -/
def evrBody (r : EvrRec) (seq opsec pcc : Nat) : List Byte :=
  leBytes 4 seq ++ leBytes 4 opsec ++ leBytes 4 pcc ++ [BitVec.ofNat 8 r.sev, 0] ++ leBytes 2 r.src ++
    leBytes 4 r.code.toNat ++ bytesAt r.data 0 32 ++ leBytes 4 0 ++ [0xA5, 0, 0, 0]

/-- A record with its CRC (R462). -/
def evrBytes (r : EvrRec) (seq opsec pcc : Nat) : List Byte :=
  let b := evrBody r seq opsec pcc
  b ++ leBytes 4 (crc32c b)

/-- Whether a slot holds a record (R464). -/
def Chip.evrHeld (c : Chip) (k : Nat) : Bool :=
  c.byte (evrSlot k + 56) == 0xA5 && c.readable (evrSlot k) 64 &&
    crc32c (c.bytes (evrSlot k) 60) == (c.word (evrSlot k + 60)).toNat

/-- Whether a slot counts as torn (R466). -/
def Chip.evrTorn (c : Chip) (k : Nat) : Bool :=
  let mk := c.byte (evrSlot k + 56)
  (mk != 0xA5 && mk != 0) || (mk == 0xA5 && !c.evrHeld k)

/-- What the order of R465 needs of a held record. -/
structure HeldRec where
  slot : Nat
  seq : Nat
  opsec : Nat
  sev : Nat
  deriving DecidableEq, Repr

def Chip.heldRec (c : Chip) (k : Nat) : HeldRec :=
  ⟨k, (c.word (evrSlot k)).toNat % seqMod, (c.word (evrSlot k + 4)).toNat, (c.byte (evrSlot k + 12)).toNat % 8⟩

/-- The held records, by slot. -/
def Chip.heldRecs (c : Chip) : List HeldRec :=
  ((List.range 4096).filter fun k => c.evrHeld k).map c.heldRec

/-- The later of two held records: more operating seconds, then the later sequence. -/
def HeldRec.newer (a b : HeldRec) : HeldRec :=
  if a.opsec < b.opsec then b else if b.opsec < a.opsec then a else if seqLater b.seq a.seq then b else a

/-- The sequence of the newest held record, 0 where none is held. -/
def newestSeq : List HeldRec → Nat
  | [] => 0
  | r :: rs => (rs.foldl HeldRec.newer r).seq

/-- Whether `a` is older than `b` (R465). -/
def HeldRec.older (newest : Nat) (a b : HeldRec) : Bool :=
  if a.opsec = b.opsec then
    decide ((newest + seqMod - b.seq) % seqMod < (newest + seqMod - a.seq) % seqMod)
  else decide (a.opsec < b.opsec)

/-- A record put into a list that runs from the oldest on. -/
def insertOld (newest : Nat) (r : HeldRec) : List HeldRec → List HeldRec
  | [] => [r]
  | x :: xs => if r.older newest x then r :: x :: xs else x :: insertOld newest r xs

/-- Held records from the oldest on (R465). -/
def oldestFirst (rs : List HeldRec) : List HeldRec :=
  rs.foldl (fun acc r => insertOld (newestSeq rs) r acc) []

/-- NEWSEQ, OLDSEQ and HELD brought up to date (R470). -/
def Chip.evrCount (c : Chip) : Chip :=
  let rs := c.heldRecs
  let old := match oldestFirst rs with
    | [] => 0
    | r :: _ => r.seq
  ((c.setReg EVR_NEWSEQ (w32 (newestSeq rs))).setReg EVR_OLDSEQ (w32 old)).setFld EVR_STAT 12 0 rs.length

/-- Where a new record goes (R465). -/
def Chip.evrPlace (c : Chip) (sev : Nat) : Option Nat :=
  match (List.range 4096).find? fun k => !c.evrHeld k with
  | some k => some k
  | none => ((oldestFirst c.heldRecs).find? fun r => decide (r.sev ≤ sev)).map HeldRec.slot

/-- Operating seconds and power cycles as the counters hold them. -/
def Chip.opsec (c : Chip) : Nat := (c.reg EVR_OPSEC).toNat
def Chip.pcc (c : Chip) : Nat := (c.reg EVR_PCC).toNat

/-- The counter block without its CRC (R463). -/
def Chip.evrBlock (c : Chip) : List Byte :=
  leBytes 4 c.evr.gen ++ leBytes 4 c.opsec ++ leBytes 4 c.pcc ++ leBytes 4 c.evr.nextSeq ++
    (List.range 8).flatMap (fun s => leBytes 4 (c.reg (EVR_DROP s)).toNat) ++ List.replicate 12 0

/-- The counter block written to the copy whose turn it is (R463). -/
def Chip.evrSave (c : Chip) : Chip :=
  let c1 := { c with evr := { c.evr with gen := (c.evr.gen + 1) % 2 ^ 32, copyB := !c.evr.copyB } }
  let b := c1.evrBlock
  c1.mramWrite (if c.evr.copyB then 0x20001040 else 0x20001000) (b ++ leBytes 4 (crc32c b))

/-- A read-back of MRAM failed (R366, R464). -/
def Chip.mramFails (c : Chip) : Chip := (c.setBit MEM_STAT 0 false).memCause 6

/-- A record stored or dropped (R464, R465): its sequence if it is held. `verified` whether every read-back held. -/
def Chip.evrPut (c : Chip) (r : EvrRec) (verified : Bool) : Option Nat × Chip :=
  match c.evrPlace r.sev with
  | none =>
    let c1 := c.incSat (EVR_DROP r.sev) 0xFFFFFFFF
    (none, (c1.raise 23 0).evrSave)
  | some k =>
    let bs := evrBytes r c.evr.nextSeq c.opsec c.pcc
    let c1 := c.mramWrite (evrSlot k + 56) (List.replicate 8 0)
    if verified then
      let c2 := c1.mramWrite (evrSlot k) bs
      let c3 := { c2 with evr := { c2.evr with nextSeq := (c2.evr.nextSeq + 1) % seqMod } }
      (some c.evr.nextSeq, c3.evrCount.evrSave)
    else (none, ((c1.mramWrite (evrSlot k) (bs.take 56)).mramFails.flag EVR_FLAGS 0 23).evrCount)

/-- EVR is busy with an operation, or idle (R471). -/
def Chip.setEvrOp (c : Chip) (o : Option EvrOp) : Chip :=
  { c.setBit EVR_STAT 31 o.isSome with evr := { c.evr with op := o } }

/-- The record that the submission registers describe (R467). -/
def Chip.submitted (c : Chip) : EvrRec :=
  ⟨c.fld EVR_SUB_HDR 18 16, c.fld EVR_SUB_HDR 15 0, c.reg EVR_SUB_CODE,
    (List.range 8).flatMap fun i => leBytes 4 (c.reg (EVR_SUB_DATA i)).toNat⟩

/-- A write of EVR_SUB_CTL: GO stores, CLEAR clears; either is refused while EVR is busy (R467). -/
def evrCtlWrite (c : Chip) (m : Nat) (v : W32) : Chip :=
  if m ≠ 0 then c.refuse
  else if !wbit v 31 && !wbit v 30 then c.done
  else if c.evr.op.isSome then (c.flag EVR_FLAGS 1 23).done
  else (c.setEvrOp (some (if wbit v 30 then .clear else .store c.submitted))).done

/-- The record submitted is held or dropped (R464, R465, R467). -/
def recordStoreDone (c : Chip) (verified : Bool) : Chip :=
  match c.evr.op with
  | some (.store r) =>
    let (seq, c1) := (c.setEvrOp none).evrPut r verified
    c1.setReg EVR_SUB_RESULT (w32 (seq.getD 0xFFFFFFFF))
  | _ => c

/-- Marker 0x00 written into the first `n` slots (R467). -/
def Chip.clearSlots (c : Chip) (n : Nat) : Chip := (List.range n).foldl (fun c k => c.mramWrite (evrSlot k + 56) [0]) c

/-- What an operation has put into MRAM when a reset cuts it off: how far it had come is a free value (R464, R486;
DESIGN CHOICE, log entry 167). -/
def Chip.evrCut (c : Chip) : Chip :=
  match c.evr.op with
  | some (.store r) =>
    match c.evrPlace r.sev with
    | none => c
    | some k =>
      let (f, c1) := c.takeFree
      let bs := evrBytes r c.evr.nextSeq c.opsec c.pcc
      match f % 10 with
      | 0 => c1
      | 1 => c1.mramWrite (evrSlot k) bs
      | n + 2 => (c1.mramWrite (evrSlot k + 56) (List.replicate 8 0)).mramWrite (evrSlot k) (bs.take (8 * n))
  | some .clear =>
    let (f, c1) := c.takeFree
    c1.clearSlots (f % 4097)
  | _ => c

/-- Marker 0x00 in every slot, the next sequence 1, the dropped counts 0 (R467). -/
def Chip.evrCleared (c : Chip) : Chip :=
  let c1 := c.clearSlots 4096
  let c2 := (List.range 8).foldl (fun c s => c.setReg (EVR_DROP s) 0) c1
  { c2 with evr := { c2.evr with nextSeq := 1 } }

/-- Clearing has ended: every slot is free, the sequence restarts, a record says so (R467). -/
def recorderClearDone (c : Chip) (verified : Bool) : Chip :=
  if c.evr.op = some .clear then ((c.setEvrOp none).evrCleared.evrPut ⟨6, 0x0202, 2, []⟩ verified).2 else c

/-- A copy of the counter block whose CRC holds (R463). -/
def Chip.counterCopy (c : Chip) (a : Nat) : Bool :=
  c.readable a 64 && crc32c (c.bytes a 60) == (c.word (a + 60)).toNat

/-- The counters taken from the valid copy with the higher generation (R463). -/
def Chip.loadCounters (c : Chip) : Chip :=
  let gen (a : Nat) : Nat := (c.word a).toNat
  let okA := c.counterCopy 0x20001000
  let okB := c.counterCopy 0x20001040
  let take (a : Nat) (b : Bool) : Chip :=
    let c1 := (c.setReg EVR_OPSEC (c.word (a + 4))).setReg EVR_PCC (c.word (a + 8))
    let c2 := (List.range 8).foldl (fun c s => c.setReg (EVR_DROP s) (c.word (a + 16 + 4 * s))) c1
    { c2 with evr := { c2.evr with gen := gen a, nextSeq := (c.word (a + 12)).toNat % seqMod, copyB := b } }
  if okA && (!okB || decide (gen 0x20001040 ≤ gen 0x20001000)) then take 0x20001000 true
  else if okB then take 0x20001040 false
  else { c.setBit EVR_STAT 29 true with evr := { c.evr with gen := 0, nextSeq := 0, copyB := false } }

/-- The reset-cause word of the reset in progress (R487). -/
def Chip.causeWord (c : Chip) : W32 := w32 (2 ^ c.pwr.cause + b2n (c.pwr.cause == 4 && c.pwr.supStop) * 32)

/-- How many slots hold a torn record. -/
def Chip.tornCount (c : Chip) : Nat := ((List.range 4096).filter fun k => c.evrTorn k).length

/-- The slots scanned: the torn records counted, the held records counted, the next sequence past the newest (R466). -/
def Chip.evrScanned (c : Chip) : Chip :=
  let c1 := (c.setReg EVR_TORN (w32 c.tornCount)).evrCount
  let after := ((c1.reg EVR_NEWSEQ).toNat + 1) % seqMod
  { c1 with evr := { c1.evr with nextSeq := if seqLater c1.evr.nextSeq after then c1.evr.nextSeq else after } }

/-- The scan at RESET has ended (R466); `mramOk` the result of the MRAM self-check, which an uncorrectable read of the
scan takes back (R366), `verified` that of the power-on record's read-back. -/
def recorderScanDone (c : Chip) (mramOk verified : Bool) : Chip :=
  match c.evr.op with
  | some .scan =>
    let c0 := (((c.setEvrOp none).setBit MEM_STAT 0 mramOk).mramRead 0x20001000 128).mramRead (evrSlot 0) 0x40000
    let c1 := c0.loadCounters.evrScanned
    if c1.bit MEM_STAT 0 then
      let c2 := if c1.pwr.fromOff then (c1.setReg EVR_PCC (c1.reg EVR_PCC + 1)).evrSave else c1
      let data := leBytes 4 (c2.reg SYS_ID).toNat ++ leBytes 4 c2.causeWord.toNat ++ leBytes 4 (c2.reg EVR_TORN).toNat
      (c2.evrPut ⟨1, 0x0202, 1, data⟩ verified).2
    else c1
  | _ => c

/-- An operating second has passed (R463). -/
def operatingSecond (c : Chip) : Chip :=
  if 2 ≤ c.sysState ∧ c.evr.secAt ≤ c.tmu.raw then
    ({ c.setReg EVR_OPSEC (c.reg EVR_OPSEC + 1) with evr := { c.evr with secAt := c.evr.secAt + 1000000000 } }).evrSave
  else c

/-- A write to an EVR register. -/
def evrWrite (c : Chip) (m a : Nat) (v : W32) : Chip :=
  if a = EVR_SUB_CTL then evrCtlWrite c m v else c.plainWrite m a v

end Sys2Proof.Machine
end

