-- ==== Sys2Proof/Machine/Crypto.lean ====
section
/-!
DEFINITION. The cryptographic functions that SEC computes (R444, R453, R459), written from the standards
that R19 and R459 name: SHA-2 (FIPS 180-4), SHA-3 (FIPS 202), HMAC and HKDF (RFC 5869), AES-256-GCM
(SP 800-38D), RSASSA-PSS verification (RFC 8017), SLH-DSA verification (FIPS 205). PRESUMED: the spec names
the standards and does not give the algorithms (log entry 50).
-/
namespace Sys2Proof.Machine

/-- Bytes of equal length combined by exclusive or. -/
def xorBytes (a b : List Byte) : List Byte := a.zipWith (· ^^^ ·) b

/-- Zero bytes. -/
def zeros (n : Nat) : List Byte := List.replicate n 0

/-! ### SHA-2 -/

/-- The 80 round constants of SHA-512; those of SHA-256 are the high halves of the first 64. -/
def sha512Ka : List W64 := [
  0x428A2F98D728AE22, 0x7137449123EF65CD, 0xB5C0FBCFEC4D3B2F, 0xE9B5DBA58189DBBC,
  0x3956C25BF348B538, 0x59F111F1B605D019, 0x923F82A4AF194F9B, 0xAB1C5ED5DA6D8118,
  0xD807AA98A3030242, 0x12835B0145706FBE, 0x243185BE4EE4B28C, 0x550C7DC3D5FFB4E2,
  0x72BE5D74F27B896F, 0x80DEB1FE3B1696B1, 0x9BDC06A725C71235, 0xC19BF174CF692694,
  0xE49B69C19EF14AD2, 0xEFBE4786384F25E3, 0x0FC19DC68B8CD5B5, 0x240CA1CC77AC9C65,
  0x2DE92C6F592B0275, 0x4A7484AA6EA6E483, 0x5CB0A9DCBD41FBD4, 0x76F988DA831153B5,
  0x983E5152EE66DFAB, 0xA831C66D2DB43210, 0xB00327C898FB213F, 0xBF597FC7BEEF0EE4,
  0xC6E00BF33DA88FC2, 0xD5A79147930AA725, 0x06CA6351E003826F, 0x142929670A0E6E70,
  0x27B70A8546D22FFC, 0x2E1B21385C26C926, 0x4D2C6DFC5AC42AED, 0x53380D139D95B3DF,
  0x650A73548BAF63DE, 0x766A0ABB3C77B2A8, 0x81C2C92E47EDAEE6, 0x92722C851482353B]

def sha512Kb : List W64 := [
  0xA2BFE8A14CF10364, 0xA81A664BBC423001, 0xC24B8B70D0F89791, 0xC76C51A30654BE30,
  0xD192E819D6EF5218, 0xD69906245565A910, 0xF40E35855771202A, 0x106AA07032BBD1B8,
  0x19A4C116B8D2D0C8, 0x1E376C085141AB53, 0x2748774CDF8EEB99, 0x34B0BCB5E19B48A8,
  0x391C0CB3C5C95A63, 0x4ED8AA4AE3418ACB, 0x5B9CCA4F7763E373, 0x682E6FF3D6B2B8A3,
  0x748F82EE5DEFB2FC, 0x78A5636F43172F60, 0x84C87814A1F0AB72, 0x8CC702081A6439EC,
  0x90BEFFFA23631E28, 0xA4506CEBDE82BDE9, 0xBEF9A3F7B2C67915, 0xC67178F2E372532B,
  0xCA273ECEEA26619C, 0xD186B8C721C0C207, 0xEADA7DD6CDE0EB1E, 0xF57D4F7FEE6ED178,
  0x06F067AA72176FBA, 0x0A637DC5A2C898A6, 0x113F9804BEF90DAE, 0x1B710B35131C471B,
  0x28DB77F523047D84, 0x32CAAB7B40C72493, 0x3C9EBE0A15C9BEBC, 0x431D67C49C100D4C,
  0x4CC5D4BECB3E42B6, 0x597F299CFC657E2A, 0x5FCB6FAB3AD6FAEC, 0x6C44198C4A475817]

def sha512H : List W64 := [
  0x6A09E667F3BCC908, 0xBB67AE8584CAA73B, 0x3C6EF372FE94F82B, 0xA54FF53A5F1D36F1,
  0x510E527FADE682D1, 0x9B05688C2B3E6C1F, 0x1F83D9ABFB41BD6B, 0x5BE0CD19137E2179]

def sha384H : List W64 := [
  0xCBBB9D5DC1059ED8, 0x629A292A367CD507, 0x9159015A3070DD17, 0x152FECD8F70E5939,
  0x67332667FFC00B31, 0x8EB44A8768581511, 0xDB0C2E0D64F98FA7, 0x47B5481DBEFA4FA4]

/-- The rotations of a SHA-2 variant: big sigma 0 and 1, small sigma 0 and 1 (the last of which shifts). -/
structure ShaRot where
  s0 : Nat × Nat × Nat
  s1 : Nat × Nat × Nat
  g0 : Nat × Nat × Nat
  g1 : Nat × Nat × Nat

def bigSigma {w : Nat} (r : Nat × Nat × Nat) (x : BitVec w) : BitVec w :=
  x.rotateRight r.1 ^^^ x.rotateRight r.2.1 ^^^ x.rotateRight r.2.2

def smallSigma {w : Nat} (r : Nat × Nat × Nat) (x : BitVec w) : BitVec w :=
  x.rotateRight r.1 ^^^ x.rotateRight r.2.1 ^^^ (x >>> r.2.2)

/-- One round of SHA-2 on the working variables a to h, with the round's constant and word. -/
def shaRound {w : Nat} (r : ShaRot) (v : List (BitVec w)) (k x : BitVec w) : List (BitVec w) :=
  match v with
  | [a, b, c, d, e, f, g, h] =>
    let t1 := h + bigSigma r.s1 e + ((e &&& f) ^^^ (~~~e &&& g)) + k + x
    let t2 := bigSigma r.s0 a + ((a &&& b) ^^^ (a &&& c) ^^^ (b &&& c))
    [t1 + t2, a, b, c, d + t1, e, f, g]
  | _ => v

/-- The rounds over the constants, with the message schedule kept as its next 16 words. -/
def shaRounds {w : Nat} (r : ShaRot) : List (BitVec w) → List (BitVec w) → List (BitVec w) → List (BitVec w)
  | [], _, v => v
  | k :: ks, win, v =>
    let n := smallSigma r.g1 (win.getD 14 0) + win.getD 9 0 + smallSigma r.g0 (win.getD 1 0) + win.getD 0 0
    shaRounds r ks (win.tail ++ [n]) (shaRound r v k (win.getD 0 0))

/-- The SHA-2 hash in words of `w` bits of a message: blocks of 16 words absorbed in turn. -/
def sha2 (w : Nat) (r : ShaRot) (ks h0 : List (BitVec w)) (m : List Byte) : List Byte :=
  let wb := w / 8
  let pad := zeros ((32 * wb - (m.length + 1 + 2 * wb) % (16 * wb)) % (16 * wb))
  let p := m ++ [0x80] ++ pad ++ beBytes (2 * wb) (8 * m.length)
  let blocks := (List.range (p.length / (16 * wb))).map fun i => (p.drop (16 * wb * i)).take (16 * wb)
  let h := blocks.foldl (fun h b =>
    let ws := (List.range 16).map fun i => BitVec.ofNat w (beNat (bytesAt b (wb * i) wb))
    h.zipWith (· + ·) (shaRounds r ks ws h)) h0
  h.flatMap fun x => beBytes wb x.toNat

def sha512Rot : ShaRot := ⟨(28, 34, 39), (14, 18, 41), (1, 8, 7), (19, 61, 6)⟩
def sha256Rot : ShaRot := ⟨(2, 13, 22), (6, 11, 25), (7, 18, 3), (17, 19, 10)⟩

/-- The high half of a 64-bit constant. -/
def hiHalf (x : W64) : W32 := hi32 x.toNat

def sha512 (m : List Byte) : List Byte := sha2 64 sha512Rot (sha512Ka ++ sha512Kb) sha512H m
def sha384 (m : List Byte) : List Byte := (sha2 64 sha512Rot (sha512Ka ++ sha512Kb) sha384H m).take 48
def sha256 (m : List Byte) : List Byte :=
  sha2 32 sha256Rot (((sha512Ka ++ sha512Kb).take 64).map hiHalf) (sha512H.map hiHalf) m

/-! ### SHA-3 -/

/-- Lane (x, y) of a Keccak state. -/
def lane (s : List W64) (x y : Nat) : W64 := s.getD (x % 5 + 5 * (y % 5)) 0

/-- A state from its lanes. -/
def lanes (f : Nat → Nat → W64) : List W64 := (List.range 25).map fun i => f (i % 5) (i / 5)

/-- The walk of FIPS 202 rho from lane (1, 0): the t-th lane met turns by the triangular number of t + 1. -/
def rhoWalk : Nat → Nat → Nat → Nat → List (Nat × Nat)
  | 0, _, _, _ => []
  | n + 1, t, x, y => (x + 5 * y, (t + 1) * (t + 2) / 2 % 64) :: rhoWalk n (t + 1) y ((2 * x + 3 * y) % 5)

/-- The rotation of rho for lane number i = x + 5y; lane (0, 0) is not on the walk and does not turn. -/
def rhoTurn (i : Nat) : Nat := ((rhoWalk 24 0 1 0).lookup i).getD 0

/-- One step of the eight-bit register of FIPS 202 iota, feedback x^8 + x^6 + x^5 + x^4 + 1. -/
def iotaStep (r : Nat) : Nat := if r < 128 then 2 * r else (2 * r - 256) ^^^ 0x71

/-- One round constant from the register, and the register seven steps on: bit 2^j - 1 is the
register's low bit after j steps. -/
def iotaWord (r : Nat) : W64 × Nat :=
  (List.range 7).foldl (fun p j => (if p.2.testBit 0 then p.1 ||| BitVec.ofNat 64 (2 ^ (2 ^ j - 1)) else p.1, iotaStep p.2)) (0, r)

/-- The round constants of `n` rounds of iota, from the register. -/
def iotaWords : Nat → Nat → List W64
  | 0, _ => []
  | n + 1, r => (iotaWord r).1 :: iotaWords n (iotaWord r).2

/-- One round of Keccak-f[1600]. -/
def keccakRound (s : List W64) (rc : W64) : List W64 :=
  let c (x : Nat) : W64 := lane s x 0 ^^^ lane s x 1 ^^^ lane s x 2 ^^^ lane s x 3 ^^^ lane s x 4
  let t := lanes fun x y => lane s x y ^^^ c ((x + 4) % 5) ^^^ (c ((x + 1) % 5)).rotateLeft 1
  let r := lanes fun x y => (lane t x y).rotateLeft (rhoTurn (x + 5 * y))
  let p := lanes fun x y => lane r (x + 3 * y) x
  let q := lanes fun x y => lane p x y ^^^ (~~~lane p (x + 1) y &&& lane p (x + 2) y)
  lanes fun x y => if x = 0 ∧ y = 0 then lane q 0 0 ^^^ rc else lane q x y

/-- SHA3 with a digest of `n` bytes. -/
def sha3 (n : Nat) (m : List Byte) : List Byte :=
  let rate := 200 - 2 * n
  let q := rate - m.length % rate
  let p := if q = 1 then m ++ [0x86] else m ++ [0x06] ++ zeros (q - 2) ++ [0x80]
  let s := (List.range (p.length / rate)).foldl (fun s i =>
    let b := (p.drop (rate * i)).take rate
    (iotaWords 24 1).foldl keccakRound ((List.range 25).map fun j =>
      s.getD j 0 ^^^ (if 8 * j < rate then BitVec.ofNat 64 (leNat (bytesAt b (8 * j) 8)) else 0)))
    (List.replicate 25 0)
  (s.flatMap fun x => leBytes 8 x.toNat).take n

/-! ### HMAC and HKDF with SHA-384 -/

/-- HMAC-SHA-384. -/
def hmac384 (key m : List Byte) : List Byte :=
  let k0 := if 128 < key.length then sha384 key else key
  let k := k0 ++ zeros (128 - k0.length)
  sha384 (k.map (· ^^^ 0x5C) ++ sha384 (k.map (· ^^^ 0x36) ++ m))

/-- HKDF-Extract (RFC 5869). -/
def hkdfExtract (salt ikm : List Byte) : List Byte := hmac384 salt ikm

/-- The blocks T(1), T(2), … of HKDF-Expand. -/
def hkdfBlocks (prk info : List Byte) : Nat → Nat → List Byte → List Byte
  | 0, _, _ => []
  | n + 1, i, t =>
    let t' := hmac384 prk (t ++ info ++ [BitVec.ofNat 8 i])
    t' ++ hkdfBlocks prk info n (i + 1) t'

/-- HKDF-Expand to `n` bytes (RFC 5869). -/
def hkdfExpand (prk info : List Byte) (n : Nat) : List Byte :=
  (hkdfBlocks prk info ((n + 47) / 48) 1 []).take n

/-! ### AES-256-GCM -/

/-- Multiplication in GF(2^8) of AES, over the bits of the second factor. -/
def gmul8 (a b : Nat) : Nat :=
  let dbl (x : Nat) : Nat := if 128 ≤ x then (2 * x) % 256 ^^^ 0x1B else 2 * x
  ((List.range 8).foldl (fun (acc : Nat × Nat) i => (if b.testBit i then acc.1 ^^^ acc.2 else acc.1, dbl acc.2)) (0, a)).1

/-- The S-box: the inverse, then the affine map. -/
def aesSbox (x : Byte) : Byte :=
  let sq (a : Nat) : Nat := gmul8 a a
  let step (acc : Nat × Nat) (_ : Nat) : Nat × Nat := let y := sq acc.2; (gmul8 acc.1 y, y)
  let inv : Byte := BitVec.ofNat 8 ((List.range 7).foldl step (1, x.toNat)).1
  inv ^^^ inv.rotateLeft 1 ^^^ inv.rotateLeft 2 ^^^ inv.rotateLeft 3 ^^^ inv.rotateLeft 4 ^^^ 0x63

/-- The 60 words of the AES-256 key schedule, newest first, from the eight key words. -/
def aesExpand : Nat → Nat → List (List Byte) → List (List Byte)
  | 0, _, ws => ws
  | n + 1, i, ws =>
    let t := ws.headD []
    let t' := if i % 8 = 0 then
        xorBytes ((t.tail ++ t.take 1).map aesSbox) [BitVec.ofNat 8 (2 ^ (i / 8 - 1)), 0, 0, 0]
      else if i % 8 = 4 then t.map aesSbox else t
    aesExpand n (i + 1) (xorBytes (ws.getD 7 []) t' :: ws)

/-- The 15 round keys of 16 bytes. -/
def aesKeys (key : List Byte) : List (List Byte) :=
  let ws := (aesExpand 52 8 ((List.range 8).map fun i => bytesAt key (4 * i) 4).reverse).reverse
  (List.range 15).map fun i => ((ws.drop (4 * i)).take 4).flatten

/-- MixColumns on one column. -/
def mixColumn (c : List Byte) : List Byte :=
  let b (i : Nat) : Nat := (byteAt c (i % 4)).toNat
  (List.range 4).map fun i =>
    BitVec.ofNat 8 (gmul8 (b i) 2 ^^^ gmul8 (b (i + 1)) 3 ^^^ b (i + 2) ^^^ b (i + 3))

/-- One AES block encrypted under the round keys. -/
def aesBlock (ks : List (List Byte)) (x : List Byte) : List Byte :=
  let sub (s : List Byte) : List Byte := (List.range 16).map fun i => aesSbox (byteAt s ((i + 4 * (i % 4)) % 16))
  let mix (s : List Byte) : List Byte := (List.range 4).flatMap fun c => mixColumn (bytesAt s (4 * c) 4)
  let s := (List.range 13).foldl (fun s r => xorBytes (mix (sub s)) (ks.getD (r + 1) [])) (xorBytes x (ks.headD []))
  xorBytes (sub s) (ks.getD 14 [])

/-- Multiplication in GF(2^128) of GCM; bit 0 of the standard is the most significant bit. -/
def gmul128 (x y : Nat) : Nat :=
  ((List.range 128).foldl (fun (acc : Nat × Nat) i =>
    (if x.testBit (127 - i) then acc.1 ^^^ acc.2 else acc.1,
     if acc.2 % 2 = 1 then (acc.2 / 2) ^^^ (0xE1 * 2 ^ 120) else acc.2 / 2)) (0, y)).1

/-- Bytes padded with zeros to whole 16-byte blocks. -/
def pad16 (m : List Byte) : List Byte := m ++ zeros ((16 - m.length % 16) % 16)

/-- The 16-byte blocks of a string. -/
def blocks16 (m : List Byte) : List (List Byte) := (List.range ((m.length + 15) / 16)).map fun i => (m.drop (16 * i)).take 16

/-- GCM's counter mode from counter 2 upward. -/
def gcmCtr (ks : List (List Byte)) (iv m : List Byte) : List Byte :=
  (blocks16 m).zipIdx.flatMap fun b => xorBytes b.1 (aesBlock ks (iv ++ beBytes 4 (b.2 + 2)))

/-- GCM's tag over the additional data and the ciphertext. -/
def gcmTag (ks : List (List Byte)) (iv aad ct : List Byte) : List Byte :=
  let h := beNat (aesBlock ks (zeros 16))
  let data := pad16 aad ++ pad16 ct ++ beBytes 8 (8 * aad.length) ++ beBytes 8 (8 * ct.length)
  let g := (blocks16 data).foldl (fun y b => gmul128 (y ^^^ beNat b) h) 0
  xorBytes (beBytes 16 g) (aesBlock ks (iv ++ beBytes 4 1))

/-- AES-256-GCM encryption: ciphertext and tag. -/
def gcmEncrypt (key iv aad pt : List Byte) : List Byte :=
  let ks := aesKeys key
  let ct := gcmCtr ks iv pt
  ct ++ gcmTag ks iv aad ct

/-- AES-256-GCM decryption of ciphertext and tag; none where the tag fails. -/
def gcmDecrypt (key iv aad x : List Byte) : Option (List Byte) :=
  let ks := aesKeys key
  let ct := x.take (x.length - 16)
  if 16 ≤ x.length ∧ gcmTag ks iv aad ct = x.drop (x.length - 16) then some (gcmCtr ks iv ct) else none

/-! ### RSASSA-PSS -/

/-- MGF1 with a hash, to `n` bytes. -/
def mgf1 (hash : List Byte → List Byte) (hLen : Nat) (seed : List Byte) (n : Nat) : List Byte :=
  ((List.range ((n + hLen - 1) / hLen)).flatMap fun i => hash (seed ++ beBytes 4 i)).take n

/-- `b ^ 65537 mod m`. -/
def powF4 (b m : Nat) : Nat := (List.range 16).foldl (fun x _ => x * x % m) (b % m) * b % m

/-- RSASSA-PSS verification with SHA-384 and a salt of 48 bytes (R444): modulus, message, signature. -/
def pssVerify (modulus : Nat) (m sig : List Byte) : Bool :=
  let s := beNat sig
  if sig.length ≠ 384 ∨ modulus ≤ s then false
  else
    let em := beBytes 384 (powF4 s modulus)
    let db := em.take 335
    let h := bytesAt em 335 48
    let un := xorBytes db (mgf1 sha384 48 h 335)
    let db' := (un.headD 0 &&& 0x7F) :: un.tail
    (byteAt em 383 == 0xBC) && decide ((byteAt em 0).toNat < 128) && (db'.take 286 == zeros 286) && (byteAt db' 286 == 1) &&
      (sha384 (zeros 8 ++ sha384 m ++ db'.drop 287) == h)

/-! ### SLH-DSA -/

/-- A parameter set of SLH-DSA-SHA2 with n = 24: h', d, a, k and the digest's length m. -/
structure SlhSet where
  hp : Nat
  d : Nat
  a : Nat
  k : Nat
  m : Nat

def slh192s : SlhSet := ⟨9, 7, 14, 17, 39⟩
def slh192f : SlhSet := ⟨3, 22, 8, 33, 42⟩

/-- A compressed address of 22 bytes: layer, tree, type and three words. -/
def slhAdrs (layer tree ty w1 w2 w3 : Nat) : List Byte :=
  beBytes 1 layer ++ beBytes 8 tree ++ beBytes 1 ty ++ beBytes 4 w1 ++ beBytes 4 w2 ++ beBytes 4 w3

/-- The function F. -/
def slhF (seed adrs x : List Byte) : List Byte := (sha256 (seed ++ zeros 40 ++ adrs ++ x)).take 24

/-- The functions H and T. -/
def slhT (seed adrs x : List Byte) : List Byte := (sha512 (seed ++ zeros 104 ++ adrs ++ x)).take 24

/-- The digits of `b` bits of a string, most significant first. -/
def digits (x : List Byte) (b n : Nat) : List Nat :=
  let v := beNat x
  (List.range n).map fun i => v / 2 ^ (8 * x.length - b * (i + 1)) % 2 ^ b

/-- A path from a leaf to its root through the authentication nodes (type 2 or 3). -/
def slhPath (seed : List Byte) (adrs : Nat → Nat → List Byte) (auth : List (List Byte)) (idx : Nat) (leaf : List Byte) : List Byte :=
  (auth.zipIdx.foldl (fun (acc : List Byte × Nat) p =>
    let up := acc.2 / 2
    let x := if acc.2 % 2 = 0 then acc.1 ++ p.1 else p.1 ++ acc.1
    (slhT seed (adrs (p.2 + 1) up) x, up)) (leaf, idx)).1

/-- The nodes of 24 bytes of a signature part. -/
def nodes24 (x : List Byte) : List (List Byte) := (List.range (x.length / 24)).map fun i => bytesAt x (24 * i) 24

/-- The WOTS+ public key that a signature of 51 chains implies. -/
def wotsPk (seed : List Byte) (layer tree kp : Nat) (sig m : List Byte) : List Byte :=
  let msg := digits m 4 48
  let csum := (msg.map fun x => 15 - x).sum
  let all := msg ++ digits (beBytes 2 (csum * 16)) 4 3
  let ends := (nodes24 sig).zipIdx.flatMap fun p =>
    let s := all.getD p.2 0
    (List.range (15 - s)).foldl (fun x j => slhF seed (slhAdrs layer tree 0 kp p.2 (s + j)) x) p.1
  slhT seed (slhAdrs layer tree 1 kp 0 0) ends

/-- The root of the hypertree that its layers' signatures imply. -/
def htRoot (p : SlhSet) (seed : List Byte) : Nat → Nat → Nat → Nat → List Byte → List Byte → List Byte
  | 0, _, _, _, _, node => node
  | n + 1, layer, tree, leaf, sig, node =>
    let len := 24 * (51 + p.hp)
    let x := sig.take len
    let pk := wotsPk seed layer tree leaf (x.take 1224) node
    let root := slhPath seed (fun h i => slhAdrs layer tree 2 0 h i) (nodes24 (x.drop 1224)) leaf pk
    htRoot p seed n (layer + 1) (tree / 2 ^ p.hp) (tree % 2 ^ p.hp) (sig.drop len) root

/-- The FORS public key that a signature implies. -/
def forsPk (p : SlhSet) (seed : List Byte) (tree kp : Nat) (sig md : List Byte) : List Byte :=
  let idx := digits md p.a p.k
  let len := 24 * (p.a + 1)
  let roots := (List.range p.k).flatMap fun i =>
    let x := bytesAt sig (len * i) len
    let leaf := i * 2 ^ p.a + idx.getD i 0
    let node := slhF seed (slhAdrs 0 tree 3 kp 0 leaf) (x.take 24)
    slhPath seed (fun h j => slhAdrs 0 tree 3 kp h j) (nodes24 (x.drop 24)) leaf node
  slhT seed (slhAdrs 0 tree 4 kp 0 0) roots

/-- SLH-DSA verification, pure with an empty context (R444): public key, message, signature. -/
def slhVerify (p : SlhSet) (pk m sig : List Byte) : Bool :=
  let h := p.hp * p.d
  let fors := 24 * p.k * (p.a + 1)
  if sig.length ≠ 24 + fors + 24 * (h + p.d * 51) then false
  else
    let r := sig.take 24
    let seed := pk.take 24
    let root := bytesAt pk 24 24
    let dig := mgf1 sha512 64 (r ++ seed ++ sha512 (r ++ seed ++ root ++ [0, 0] ++ m)) p.m
    let mdLen := (p.k * p.a + 7) / 8
    let trLen := (h - p.hp + 7) / 8
    let tree := beNat (bytesAt dig mdLen trLen) % 2 ^ (h - p.hp)
    let leaf := beNat (bytesAt dig (mdLen + trLen) ((p.hp + 7) / 8)) % 2 ^ p.hp
    let node := forsPk p seed tree leaf (bytesAt sig 24 fors) (dig.take mdLen)
    htRoot p seed p.d 0 tree leaf (sig.drop (24 + fors)) node == root

end Sys2Proof.Machine
end

