-- ==== Sys2Proof/Machine/Sec.lean ====
section
/-!
DEFINITION. SEC: fuses and their operations (R438, R439), sessions and credentials (R452 to R457), jobs
(R458 to R460), the TRNG (R461), and SEC's registers (R469, R471).
-/
namespace Sys2Proof.Machine

/-! ### Fuses -/

/-- The digest of a root slot, empty where it is not programmed (R438). -/
def Chip.rootDigest (c : Chip) (owner : Bool) (slot : Nat) : List Byte :=
  tblGet [] (if owner then c.sec.fuses.owner else c.sec.fuses.vendor) slot

def Chip.rootRevoked (c : Chip) (owner : Bool) (slot : Nat) : Bool :=
  c.sec.fuses.revoked.getLsbD (b2n owner * 4 + slot)

/-- Whether a slot is programmed and not revoked (R445 step 4). -/
def Chip.rootLive (c : Chip) (owner : Bool) (slot : Nat) : Bool :=
  !(c.rootDigest owner slot).isEmpty && !c.rootRevoked owner slot

/-- The fuse counter of an image kind (R438). -/
def Chip.fuseCounter (c : Chip) (kind : Nat) : Nat := tblGet 0 c.sec.fuses.counters kind

def Chip.setFuses (c : Chip) (f : Fuses) : Chip := { c with sec := { c.sec with fuses := f } }

/-- The fuses with a slot's revocation burnt (R439). -/
def Fuses.revoke (f : Fuses) (owner : Bool) (slot : Nat) : Fuses :=
  { f with revoked := f.revoked ||| BitVec.ofNat 8 (2 ^ (b2n owner * 4 + slot)) }

/-- The FDATA registers' bytes, first byte in SEC_FDATA0[7:0] (R439). -/
def Chip.fdata (c : Chip) : List Byte := (List.range 12).flatMap fun i => leBytes 4 (c.reg (SEC_FDATA i)).toNat

/-- A digest copied into the FDATA registers; a slot that is not programmed reads as zeros (R439). -/
def Chip.setFdata (c : Chip) (d : List Byte) : Chip :=
  (List.range 12).foldl (fun c i => c.setReg (SEC_FDATA i) (w32 (leNat (bytesAt d (4 * i) 4)))) c

/-- A fuse operation: the RESULT it will end with, and what it does (R439). -/
def Chip.fuseRun (c : Chip) (op : Nat) (root : Bool) (slot pbit : Nat) : Nat × Chip :=
  let f := c.sec.fuses
  let wrongState := c.sysState ≠ 3
  match op with
  | 1 => (0, c.setFdata (c.rootDigest root slot))
  | 2 =>
    if wrongState then (1, c)
    else if root = false ∨ !(c.rootDigest true slot).isEmpty then (2, c)
    else (0, c.setFuses { f with owner := tblSet [] f.owner slot c.fdata })
  | 3 =>
    if wrongState then (1, c)
    else
      let c1 := c.setFuses (f.revoke root slot)
      if (List.range 4).any fun s => c1.rootLive false s then (0, c1) else (3, c)
  | 5 =>
    if wrongState then (1, c)
    else (0, c.setFuses (match pbit with
      | 0 => { f with ownCode := true }
      | 1 => { f with lockDbg := true }
      | _ => f))
  | _ => (5, c)

/-- A write of SEC_FPROG: a GO while BUSY is ignored, and the operation under way keeps its own fields (R439, R471). -/
def fprogWrite (c : Chip) (m : Nat) (v : W32) : Chip :=
  if m ≠ 0 then c.refuse
  else if !wbit v 31 then c.plainWrite m SEC_FPROG v
  else if c.sec.fuseOp.isSome then c.plainWrite m SEC_FPROG (wsetBit v 31 false)
  else
    let c1 := (c.plainWrite m SEC_FPROG (wsetBit v 31 false)).setBit SEC_FPROG 29 false
    let op := wfld v 27 24
    let (r, c2) := c1.fuseRun op (wbit v 8) (wfld v 1 0) (wfld v 5 4)
    { c2.setBit SEC_FPROG 30 true with sec := { c2.sec with fuseOp := some ⟨op, r, wfld v 1 0⟩ } }

/-- A fuse operation ends (R439); `readBack` whether a programmed slot read back as burnt. -/
def fuseOpDone (c : Chip) (readBack : Bool) : Chip :=
  match c.sec.fuseOp with
  | none => c
  | some o =>
    let bad := o.op == 2 && o.result == 0 && !readBack
    let c1 := { c with sec := { c.sec with fuseOp := none } }
    let c2 := if bad then c1.setFuses (c1.sec.fuses.revoke true o.slot) else c1
    let c3 := (c2.setBit SEC_FPROG 30 false).setBit SEC_FPROG 29 true
    (c3.setFld SEC_FPROG 19 16 (if bad then 4 else o.result)).raise 20 0

/-- An image's counter burnt for its kind, if that is higher (R447); `burnt` whether the burn held. -/
def Chip.rollbackAdvance (c : Chip) (kind counter : Nat) (burnt : Bool) : Chip :=
  if counter ≤ c.fuseCounter kind then c
  else if burnt then c.setFuses { c.sec.fuses with counters := tblSet 0 c.sec.fuses.counters kind counter }
  else c.flag SEC_EVCAUSE 2 20

/-! ### Credentials and sessions -/

def Chip.session (c : Chip) (s : Nat) : Option Session := tblGet none c.sec.sessions s

def Chip.setSession (c : Chip) (s : Nat) (x : Option Session) : Chip :=
  { c with sec := { c.sec with sessions := tblSet none c.sec.sessions s x } }

/-- A key credential, empty where none is stored. -/
def Chip.keyCred (c : Chip) (role slot : Nat) : List Byte := tblGet [] c.sec.keys (role * 4 + slot)

def Chip.passCred (c : Chip) (role : Nat) : Option Password := tblGet none c.sec.passwords role

/-- Whether an Owner credential exists (R452, R471). -/
def Chip.claimed (c : Chip) : Bool :=
  (c.passCred 3).isSome || (List.range 4).any fun s => !(c.keyCred 3 s).isEmpty

/-- Whether a role is locked (R455). -/
def Chip.roleLocked (c : Chip) (role : Nat) : Bool := (tblGet none c.sec.locks role).isSome

/-- The credential that OPEN_SESSION names by key (R452). -/
def Chip.openKey (c : Chip) (role slot : Nat) : Option (List Byte) :=
  if role = 3 ∧ slot = 0xFF then (if c.claimed then none else some c.sec.claimKey)
  else if slot < 4 ∧ !(c.keyCred role slot).isEmpty then some (c.keyCred role slot) else none

/-- "ULMOND" (R453). -/
def ulmond : List Byte := [0x55, 0x4C, 0x4D, 0x4F, 0x4E, 0x44]

/-- A session key (R453): PRV, CMD, RPL or WRP by its label. -/
def Session.key (x : Session) (slot : Nat) (label : List Byte) (n : Nat) : List Byte :=
  let prk := hkdfExtract (x.nh ++ x.nd) x.cred
  hkdfExpand prk (ulmond ++ [BitVec.ofNat 8 x.role, BitVec.ofNat 8 slot] ++ label) n

def Session.kPrv (x : Session) (slot : Nat) : List Byte := x.key slot [0x50, 0x52, 0x56] 48
def Session.kCmd (x : Session) (slot : Nat) : List Byte := x.key slot [0x43, 0x4D, 0x44] 48
def Session.kRpl (x : Session) (slot : Nat) : List Byte := x.key slot [0x52, 0x50, 0x4C] 48
def Session.kWrp (x : Session) (slot : Nat) : List Byte := x.key slot [0x57, 0x52, 0x50] 32

/-- The host's or device's proof, by its letter "H" or "D" (R453). -/
def Session.proof (x : Session) (slot : Nat) (letter : Byte) : List Byte :=
  hmac384 (x.kPrv slot) ([letter] ++ x.nh ++ x.nd ++ x.params)

/-- The tag of a packet under a session key (R427). -/
def packetTag (key bytes : List Byte) : List Byte := (hmac384 key bytes).take 16

/-- A failed proof counts, and locks the role from the fifth on (R455). -/
def Chip.failedProof (c : Chip) (role : Nat) : Chip :=
  let n := tblGet 0 c.sec.fails role + 1
  let c1 := { c with sec := { c.sec with fails := tblSet 0 c.sec.fails role n } }
  if n < 5 then c1
  else
    let t := (c.reg EVR_OPSEC).toNat + min 3600 (10 * 2 ^ min (n - 5) 9)
    { c1 with sec := { c1.sec with locks := tblSet none c1.sec.locks role (some t) } }.raise 19 0

/-- The host proof checked (R454): the device proof, or none and the session is closed. -/
def Chip.prove (c : Chip) (slot : Nat) (host : List Byte) : Option (List Byte) × Chip :=
  match c.session slot with
  | none => (none, c)
  | some x =>
    if x.proof slot 0x48 = host then
      let c1 := c.setSession slot (some { x with proven := true })
      (some (x.proof slot 0x44), { c1 with sec := { c1.sec with fails := tblSet 0 c1.sec.fails x.role 0 } })
    else (none, (c.setSession slot none).failedProof x.role)

/-- A session that has not been proven within 1 s of its opening (R38, R454). -/
def sessionTimeout (c : Chip) (slot : Nat) : Chip :=
  match c.session slot with
  | none => c
  | some x =>
    if !x.proven ∧ x.openedAt + 1000000000 < c.tmu.raw then (c.setSession slot none).failedProof x.role else c

/-- A role's lock ends (R455). -/
def roleLockExpiry (c : Chip) (role : Nat) : Chip :=
  match tblGet none c.sec.locks role with
  | none => c
  | some t =>
    if t ≤ (c.reg EVR_OPSEC).toNat then
      { c with sec := { c.sec with locks := tblSet none c.sec.locks role none } }
    else c

/-- A wrapped key installed or deleted (R456): W0, W1 and the wrapped bytes; whether it was accepted. -/
def Chip.installKey (c : Chip) (s : Nat) (w0 w1 : W32) (wrapped : List Byte) : Bool × Chip :=
  match c.session s with
  | none => (false, c)
  | some x =>
    if w1 ≠ 76 ∨ wrapped.length < 76 ∨ 3 < wfld w0 7 4 then (false, c)
    else
      match gcmDecrypt (x.kWrp s) (wrapped.take 12) (leBytes 4 w0.toNat) (bytesAt wrapped 12 64) with
      | none => (false, c)
      | some k =>
        let key := if k = zeros 48 then [] else k
        (true, { c with sec := { c.sec with keys := tblSet [] c.sec.keys (wfld w0 1 0 * 4 + wfld w0 7 4) key } }.raise 22 0)

/-- A password credential stored or deleted (R457); whether it was accepted. -/
def Chip.setPassword (c : Chip) (role : Nat) (iters : W32) (salt verifier : List Byte) : Bool × Chip :=
  if 3 < role ∨ (1 ≤ iters.toNat ∧ iters.toNat ≤ 9999) then (false, c)
  else
    let p := if iters = 0 then none else some ⟨salt, iters, verifier⟩
    (true, { c with sec := { c.sec with passwords := tblSet none c.sec.passwords role p } }.raise 22 0)

/-! ### Jobs -/

/-- What a job computes: its status, the bytes for OUT, and the state after it. -/
structure JobRes where
  status : Nat
  out : List Byte
  chip : Chip

/-- Whether an OP takes a key source (R459; DESIGN CHOICE, log entry 53). -/
def jobKeyOk (op key : Nat) : Bool :=
  if op = 0x31 ∨ op = 0x34 then key == 1
  else if op = 0x38 then key == 0 || key == 1
  else if op = 0x40 ∨ op = 0x45 then key == 0 || key == 2
  else if 0x41 ≤ op ∧ op ≤ 0x46 then key == 2
  else key == 0

/-- The device's public keys as a key block (R444, R449). -/
def deviceKeyBlock : List Byte :=
  (List.range 384).map (Config.devicePublic 0) ++ [0, 1, 0, 1] ++ (List.range 48).map (Config.devicePublic 1) ++ zeros 12

/-- A signature by a device identity key over a report; each draws a fresh free value (R449, R460). -/
def Chip.deviceSign (c : Chip) (key : Nat) (msg : List Byte) : List Byte × Chip :=
  let n := if key = 0 then 384 else 35664
  ((List.range n).map (Config.deviceSign key c.free msg), { c with free := c.free + 1 })

/-- The magic and format of an attestation report (R450). -/
def reportMagic : List Byte := [0x50, 0x5A, 0x41, 0x54, 1, 0]

/-- A job's computation (R459, R460): OP, session slot, IN, AUX, OUT capacity. -/
def Chip.jobRun (c : Chip) (op slot : Nat) (inp aux : List Byte) (cap : Nat) : JobRes :=
  let ok (o : List Byte) : JobRes := ⟨0, o, c⟩
  let check (b : Bool) : JobRes := ⟨if b then 0 else 1, [], c⟩
  let bad : JobRes := ⟨2, [], c⟩
  let word (i : Nat) : Nat := leNat (bytesAt aux (4 * i) 4)
  match op with
  | 0x01 => ok (sha256 inp)
  | 0x02 => ok (sha384 inp)
  | 0x03 => ok (sha512 inp)
  | 0x04 => ok (sha3 32 inp)
  | 0x05 => ok (sha3 48 inp)
  | 0x06 => ok (sha3 64 inp)
  | 0x10 => if aux.length = 0 ∨ 128 < aux.length then bad else ok (hmac384 aux inp)
  | 0x11 =>
    let (ikm, salt, info) := (word 0, word 1, word 2)
    if aux.length ≠ 12 + ikm + salt + info ∨ 12240 < cap then bad
    else ok (hkdfExpand (hkdfExtract (bytesAt aux (12 + ikm) salt) (bytesAt aux 12 ikm)) (bytesAt aux (12 + ikm + salt) info) cap)
  | 0x20 => if aux.length < 44 then bad else ok (gcmEncrypt (aux.take 32) (bytesAt aux 32 12) (aux.drop 44) inp)
  | 0x21 =>
    if aux.length < 44 then bad
    else match gcmDecrypt (aux.take 32) (bytesAt aux 32 12) (aux.drop 44) inp with
      | some pt => ok pt
      | none => ⟨1, [], c⟩
  | 0x30 =>
    if aux.length ≠ 832 ∨ bytesAt aux 384 4 ≠ [0, 1, 0, 1] then bad
    else check (pssVerify (beNat (aux.take 384)) inp (aux.drop 448))
  | 0x31 =>
    if inp.take 6 ≠ reportMagic then bad
    else let (s, c1) := c.deviceSign 0 inp; ⟨0, s, c1⟩
  | 0x32 => check (slhVerify slh192s (aux.take 48) inp (aux.drop 48))
  | 0x33 => check (slhVerify slh192f (aux.take 48) inp (aux.drop 48))
  | 0x34 =>
    if inp.take 6 ≠ reportMagic then bad
    else let (s, c1) := c.deviceSign 1 inp; ⟨0, s, c1⟩
  | 0x38 => ok deviceKeyBlock
  | 0x40 =>
    let role := word 0 % 4
    let cred := if (word 0).testBit 8 then (c.passCred role).map Password.verifier else c.openKey role (word 1)
    if aux.length ≠ 76 ∨ 7 < word 2 ∨ (c.session (word 2)).isSome ∨ c.bit SEC_TRNG_STAT 31 then bad
    else if c.roleLocked role then ⟨5, [], c⟩
    else match cred with
      | none => ⟨1, [], c⟩
      | some k => ⟨0, [], c.setSession (word 2)
          (some ⟨role, k, bytesAt aux 12 32, bytesAt aux 44 32, aux.take 8, false, c.tmu.raw, 0, []⟩)⟩
  | 0x41 =>
    match c.prove slot inp with
    | (some p, c1) => ⟨0, p, c1⟩
    | (none, c1) => ⟨1, [], c1⟩
  | 0x42 =>
    match c.session slot with
    | none => bad
    | some x => check (packetTag (x.kCmd slot) inp == aux)
  | 0x43 =>
    match c.session slot with
    | none => bad
    | some x => ok (packetTag (x.kRpl slot) inp)
  | 0x44 =>
    let (b, c1) := c.installKey slot (w32 (word 0)) (w32 (word 1)) (aux.drop 8)
    ⟨if b then 0 else 1, [], c1⟩
  | 0x45 =>
    let (b, c1) := c.setPassword (word 0) (w32 (word 1)) (bytesAt aux 8 16) (bytesAt aux 24 48)
    ⟨if b then 0 else 2, [], c1⟩
  | 0x46 => ⟨0, [], c.setSession slot none⟩
  | _ => bad

/-- The OPs of R459. -/
def jobListed (op : Nat) : Bool :=
  [0x01, 0x02, 0x03, 0x04, 0x05, 0x06, 0x10, 0x11, 0x20, 0x21, 0x30, 0x31, 0x32, 0x33, 0x34, 0x38,
    0x40, 0x41, 0x42, 0x43, 0x44, 0x45, 0x46].contains op

def Chip.setJob (c : Chip) (j : Option SecJob) : Chip :=
  { c.setBit SEC_JOB_STAT 31 j.isSome with sec := { c.sec with job := j } }

/-- A job is over with a status (R458). -/
def Chip.jobOver (c : Chip) (status : Nat) : Chip :=
  ((c.setJob none).setFld SEC_JOB_STAT 30 28 status).raise (if status = 0 then 16 else 17) 0

/-- A segment violation freezes SEC DMA at a 64-byte unit's part of its transfer (R372, R374). -/
def Chip.jobFreeze (c : Chip) (j : SecJob) (a n rwx : Nat) : Chip :=
  (c.setJob (some { j with frozen := true })).freezeAt 0x10 13 a n rwx

/-- The status word of a job (R458). -/
def jobWord (status written : Nat) : List Byte := leBytes 4 (2 ^ 31 + at_ status 28 + written % 2 ^ 24)

/-- A job ends: its word 7 is written (R458). -/
def Chip.jobEnd (c : Chip) (j : SecJob) (status written : Nat) : Chip :=
  match c.dmaWrite 13 (j.desc + 28) (jobWord status written) with
  | (some .seg, c1) => c1.jobFreeze { j with pend := some (.word status written) } (j.desc + 28) 4 2
  | (_, c1) => c1.jobOver status

/-- A job's output written, and its end (R458). -/
def Chip.jobOut (c : Chip) (j : SecJob) (a : Nat) (bs : List Byte) (total : Nat) : Chip :=
  match c.writeSpan 13 a bs with
  | (some (.seg, u, n), c1) => c1.jobFreeze { j with pend := some (.out u (bs.drop (u - a)) total) } u n 2
  | (some _, c1) => c1.jobEnd j 3 0
  | (none, c1) => c1.jobEnd j 0 total

/-- What a job computed goes to OUT, or its status to word 7 (R458). -/
def Chip.jobFinish (j : SecJob) (r : JobRes) (a cap : Nat) : Chip :=
  if r.status ≠ 0 then r.chip.jobEnd j r.status 0
  else if cap < r.out.length then r.chip.jobEnd j 4 0
  else r.chip.jobOut j a r.out r.out.length

/-- Whether placing an image has frozen SEC DMA (R374). -/
def Chip.secLoadFrozen (c : Chip) : Bool := match c.sec.load with
  | some l => l.frozen
  | none => false

def Chip.setLoad (c : Chip) (l : Option SecLoad) : Chip := { c with sec := { c.sec with load := l } }

/-- SEC DMA places the sections left to write until one is refused or frozen (R258, R374). -/
def Chip.secPlace (c : Chip) : List (Nat × List Byte) → Chip
  | [] => c.setLoad (some ⟨[], false, false⟩)
  | (a, bs) :: rest =>
    match c.writeSpan 13 a bs with
    | (some (.seg, u, n), c1) =>
      (c1.setLoad (some ⟨(u, bs.drop (u - a)) :: rest, true, false⟩)).freezeAt 0x10 13 u n 2
    | (some _, c1) => c1.setLoad (some ⟨[], false, true⟩)
    | (none, c1) => c1.secPlace rest

/-- A SEC job runs to its end (R458 to R460). -/
def secJobDone (c : Chip) : Chip :=
  match c.sec.job with
  | none => c
  | some j =>
    if j.frozen || c.secLoadFrozen then c
    else match j.pend with
    | some (.out a rest total) => c.jobOut j a rest total
    | some (.word st n) => c.jobEnd j st n
    | none =>
      match c.readSpan 13 j.desc 32 with
      | (.error (.seg, a, n), c1) => c1.jobFreeze j a n 1
      | (.error (.wait, _), c1) => c1
      | (.error _, c1) => c1.jobOver 3
      | (.ok d, c1) =>
        let w (i : Nat) : Nat := leNat (bytesAt d (4 * i) 4)
        let op := nfld (w 0) 31 24
        if !jobListed op || !jobKeyOk op (nfld (w 0) 17 16) then c1.jobEnd j 2 0
        else
          match c1.readSpan 13 (w 1) (w 2) with
          | (.error (.seg, a, n), c2) => c2.jobFreeze j a n 1
          | (.error (.wait, _), c2) => c2
          | (.error _, c2) => c2.jobEnd j 3 0
          | (.ok inp, c2) =>
            match c2.readSpan 13 (w 5) (w 6) with
            | (.error (.seg, a, n), c3) => c3.jobFreeze j a n 1
            | (.error (.wait, _), c3) => c3
            | (.error _, c3) => c3.jobEnd j 3 0
            | (.ok aux, c3) => Chip.jobFinish j (c3.jobRun op (nfld (w 0) 10 8) inp aux (w 4)) (w 3) (w 4)

/-- A resolution of SEC DMA's freeze (R374); a redirected job ends READERR (DESIGN CHOICE, log entry 53). -/
def secResolve (c : Chip) (action : Nat) : Chip :=
  if c.secLoadFrozen then
    c.setLoad (c.sec.load.map fun l => if action = 1 then { l with frozen := false } else ⟨[], false, true⟩)
  else match c.sec.job with
  | none => c
  | some j =>
    if !j.frozen then c
    else if action = 1 then c.setJob (some { j with frozen := false })
    else c.jobOver 3

/-- A write of SEC_JOB_CTL (R458). -/
def jobCtlWrite (c : Chip) (m : Nat) (v : W32) : Chip :=
  if m ≠ 0 then c.refuse
  else if !wbit v 0 then c.done
  else if c.sec.job.isSome then (c.flag SEC_EVCAUSE 1 17).done
  else (c.setJob (some ⟨c.fld SEC_JOB_DESC 31 5 * 32, false, none⟩)).done

/-! ### The TRNG -/

def Chip.setTrng (c : Chip) (ws : List W32) : Chip := { c with sec := { c.sec with trng := ws } }

/-- A read of SEC_TRNG_DATA (R461). -/
def trngRead (c : Chip) : W32 × Chip :=
  match c.sec.trng with
  | [] => (0, c.setBit SEC_EVCAUSE 3 true)
  | w :: ws => (w, c.setTrng ws)

/-- A word is delivered into the buffer (R461). -/
def trngDeliver (c : Chip) (w : W32) : Chip :=
  if c.bit SEC_TRNG_STAT 31 ∨ 16 ≤ c.sec.trng.length then c else c.setTrng (c.sec.trng ++ [w])

/-- A health test fails (R461). -/
def trngFail (c : Chip) : Chip := ((c.setBit SEC_TRNG_STAT 31 true).setTrng []).raise 18 0

/-- A write of SEC_TRNG_CTL (R461). -/
def trngCtlWrite (c : Chip) (m : Nat) (v : W32) : Chip :=
  if m ≠ 0 then c.refuse else (if wbit v 0 then c.setBit SEC_TRNG_STAT 31 false else c).done

/-! ### Registers -/

/-- What a SEC register shows where it is not a stored value (R471). -/
def secLive (c : Chip) (a : Nat) : W32 :=
  let f := c.sec.fuses
  let slots (g : Nat → Bool) : Nat := ((List.range 4).map fun s => b2n (g s) * 2 ^ s).sum
  match a - 0x40100000 with
  | 0x004 => w32 (at_ (b2n c.claimed) 31 + at_ (slots c.roleLocked) 16 +
      ((List.range 8).map fun s => b2n (c.session s).isSome * 2 ^ s).sum)
  | 0x008 => w32 (at_ (nfld f.revoked.toNat 7 4) 12 + at_ (slots fun s => !(c.rootDigest true s).isEmpty) 8 +
      at_ (nfld f.revoked.toNat 3 0) 4 + slots fun s => !(c.rootDigest false s).isEmpty)
  | 0x00C => w32 (at_ (c.fuseCounter 3) 24 + at_ (c.fuseCounter 2) 16 + at_ (c.fuseCounter 1) 8 + c.fuseCounter 0)
  | 0x010 => w32 (at_ (b2n f.lockDbg) 1 + b2n f.ownCode)
  | 0x014 => lo32 f.serial.toNat
  | 0x018 => hi32 f.serial.toNat
  | 0x01C => w32 f.vendorId.toNat
  | 0x0A4 => wsetFld (c.reg a) 4 0 c.sec.trng.length
  | _ => c.reg a

/-- A write to a SEC register. -/
def secRegWrite (c : Chip) (m a : Nat) (v : W32) : Chip :=
  if a = SEC_FPROG then fprogWrite c m v
  else if a = SEC_JOB_CTL then jobCtlWrite c m v
  else if a = SEC_TRNG_CTL then trngCtlWrite c m v
  else c.plainWrite m a v

end Sys2Proof.Machine
end

