-- ==== Sys2Proof/Machine/Image.lean ====
section
/-!
DEFINITION. The Pezeilo image: its header, sections and declarations (R440 to R444) and its verification (R445
to R447).
-/
namespace Sys2Proof.Machine

/-- A section (R442). -/
structure Section where
  ty : Nat
  addr : Nat
  data : List Byte
  deriving DecidableEq, Repr

/-- An image's header (R441). -/
structure ImgHead where
  kind : Nat
  root : Nat
  slot : Nat
  counter : Nat
  n : Nat
  version : W32
  inst : W32
  len : Nat
  keyOfs : Nat
  sigOfs : Nat
  flags : Nat
  hash : List Byte
  deriving DecidableEq, Repr

/-- A little-endian field of an image. -/
def imgField (img : List Byte) (o n : Nat) : Nat := leNat (bytesAt img o n)

def imgHead (img : List Byte) : ImgHead :=
  let f := imgField img
  ⟨f 6 1, f 7 1, f 8 1, f 9 1, f 10 2, w32 (f 12 4), w32 (f 16 4), f 20 4, f 24 4, f 28 4, f 32 4, bytesAt img 48 48⟩

/-- A length padded to a multiple of 64 (R442). -/
def pad64 (n : Nat) : Nat := (n + 63) / 64 * 64

/-- The offset of section `i` (R442). -/
def sectionOfs (img : List Byte) (n i : Nat) : Nat :=
  128 + 16 * n + ((List.range i).map fun k => pad64 (imgField img (128 + 16 * k + 8) 4)).sum

/-- The sections of an image in order (R442). -/
def imgSections (img : List Byte) : List Section :=
  let n := (imgHead img).n
  (List.range n).map fun i =>
    ⟨imgField img (128 + 16 * i) 4, imgField img (128 + 16 * i + 4) 4,
      bytesAt img (sectionOfs img n i) (imgField img (128 + 16 * i + 8) 4)⟩

/-- The records of a resource declaration (R443). -/
def declsOf (bs : List Byte) : List Decl :=
  (List.range (bs.length / 16)).map fun i =>
    let f (o n : Nat) : Nat := imgField bs (16 * i + o) n
    ⟨f 0 2, f 2 2, w32 (f 4 4), w32 (f 8 4), w32 (f 12 4)⟩

/-- The declarations of an image (R443). -/
def imgDecls (img : List Byte) : List Decl :=
  (imgSections img).flatMap fun s => if s.ty = 5 then declsOf s.data else []

/-- What R444 says of the key block's length and the signatures' lengths. -/
def keyBlockLen : Nat := 448
def sigLen : Nat := 384 + 16224

/-- Step 1 of R445. -/
def imgStep1 (kind : Nat) (inst : W32) (img : List Byte) : Bool :=
  let h := imgHead img
  let secEnd := sectionOfs img h.n h.n
  (img.take 6 == [0x50, 0x5A, 0x49, 0x4D, 1, 0]) && h.kind == kind && (h.inst == inst || h.inst == 0xFFFFFFFF) &&
  decide (h.counter ≤ 63) && decide (h.root ≤ 1) && decide (h.slot ≤ 3) && decide (1 ≤ h.n) && decide (h.n ≤ 16) &&
  decide (h.flags ≤ 1) && bytesAt img 36 12 == zeros 12 && bytesAt img 96 32 == zeros 32 &&
  h.len == img.length && decide (secEnd ≤ h.keyOfs) && decide (h.keyOfs + keyBlockLen ≤ h.sigOfs) &&
  decide (h.sigOfs + sigLen ≤ img.length) &&
  ((List.range h.n).all fun i => imgField img (128 + 16 * i + 12) 4 == 0 &&
    decide (1 ≤ imgField img (128 + 16 * i) 4) && decide (imgField img (128 + 16 * i) 4 ≤ 6)) &&
  (imgDecls img).all fun d => decide (1 ≤ d.tag) && decide (d.tag ≤ 10)

/-- Whether a root may sign a kind (R446). -/
def Chip.rootAllowed (c : Chip) (kind root : Nat) : Bool :=
  match kind, root with
  | 0, 0 => true
  | 0, _ => false
  | 1, _ => true
  | _, 0 => !c.sec.fuses.ownCode
  | _, _ => true

/-- The verification of R445: the status and detail of the first step that fails, or none. -/
def Chip.imgVerify (c : Chip) (kind : Nat) (inst : W32) (img : List Byte) : Option (Nat × Nat) :=
  let h := imgHead img
  let key := bytesAt img h.keyOfs keyBlockLen
  let sig := bytesAt img h.sigOfs sigLen
  let msg := img.take 128
  if !imgStep1 kind inst img then some (0x0600, 1)
  else if sha384 (bytesAt img 128 (sectionOfs img h.n h.n - 128)) ≠ h.hash then some (0x0600, 2)
  else if !c.rootAllowed kind h.root then some (0x0400, 1)
  else if !c.rootLive (h.root == 1) h.slot then some (0x0400, 2)
  else if sha384 (key.take 436) ≠ c.rootDigest (h.root == 1) h.slot then some (0x0400, 3)
  else if bytesAt key 384 4 ≠ [0, 1, 0, 1] || !pssVerify (beNat (key.take 384)) msg (sig.take 384) then some (0x0400, 0)
  else if !slhVerify slh192s (bytesAt key 388 48) msg (sig.drop 384) then some (0x0401, 0)
  else if h.counter < c.fuseCounter kind then some (0x0402, c.fuseCounter kind)
  else none

/-- A failed verification noted (R445, R468). -/
def Chip.imgFailed (c : Chip) : Chip := c.flag SEC_EVCAUSE 0 21

/-- What is kept of a verified image (R450). -/
def imgInfo (img : List Byte) (inst state : Nat) : ImageInfo :=
  let h := imgHead img
  ⟨h.kind, inst, h.root, h.slot, h.counter, state, h.version, h.hash⟩

def Chip.image (c : Chip) (e : Nat) : ImageInfo := tblGet .reset c.hif.images e

def Chip.setImage (c : Chip) (e : Nat) (x : ImageInfo) : Chip :=
  { c with hif := { c.hif with images := tblSet .reset c.hif.images e x } }

/-- The entry of an attestation report for a kind and instance (R450). -/
def imageEntry (kind inst : Nat) : Nat :=
  match kind with
  | 0 => 0
  | 1 => 1 + inst
  | 2 => 9 + inst
  | _ => 13 + inst

end Sys2Proof.Machine
end

