-- ==== Sys2Proof/Machine/Pe.lean ====
section
/-!
DEFINITION. The protocol engines' control: receive queues (R249 to R252), transmit queues (R253 to R255), the cycle
timer (R257), engine states (R258), the watchdog (R262) and the registers of R266 and R267.
-/
namespace Sys2Proof.Machine

/-! ### Receive queues -/

def Chip.rqProd (c : Chip) (q : Nat) : Nat := c.fld (PE_RQq_PROD q) 15 0
def Chip.rqPopped (c : Chip) (q : Nat) : Nat := c.fld (PE_RQq_POP q) 15 0
def Chip.rqCons (c : Chip) (q : Nat) : Nat := c.fld (PE_RQq_CONS q) 15 0
def Chip.rqHost (c : Chip) (q : Nat) : Bool := c.bit (PE_RQq_CFG q) 30
def Chip.rqOwner (c : Chip) (q : Nat) : Nat := c.fld (PE_RQq_CFG q) 27 24

/-- The distance from one 16-bit count to a later one. -/
def span16 (a b : Nat) : Nat := (b + 65536 - a) % 65536

/-- The number of entries of a queue's ring, and the address of the descriptor of an entry. -/
def Chip.rqSize (c : Chip) (q : Nat) : Nat := 2 ^ c.fld (PE_RQq_CFG q) 19 16
def Chip.rqDesc (c : Chip) (q i : Nat) : Nat := c.fld (PE_RQq_DBASE q) 31 6 * 64 + i % c.rqSize q * 64

/-- The 64 bytes of a receive descriptor (R250). -/
def Chip.rqDescBytes (c : Chip) (q : Nat) (l : LocalFrame) (f : Frame) (buf : Nat) : List Byte :=
  let p := parseFrame f.data (c.pvid f.inPort)
  let ulp := p.etype == c.fld ANG_ULPTYPE 15 0
  let w0 := 2 ^ 31 + at_ (b2n (tblGet false c.rq.rqLost q)) 30 + at_ (b2n f.stamp.isSome) 29 + at_ l.cls 24 +
    at_ f.inPort 16 + f.data.length
  let w1 := at_ (b2n ulp) 28 + at_ (if ulp then p.ulp else 0) 24 + at_ l.rule 16 + at_ (b2n p.tagged) 15 +
    at_ p.pcp 12 + p.vid
  let st := match f.stamp with
    | some s => s.words.flatMap fun w => leBytes 4 w.toNat
    | none => leBytes 32 0
  leBytes 4 w0 ++ leBytes 4 w1 ++ st ++ leBytes 4 buf ++ leBytes 4 (c.rqProd q) ++ leBytes 16 0

/-- The units that a delivery writes: the buffer's, the last padded with zeros, then the descriptor (R249). -/
def rqUnits (buf desc : Nat) (data dbytes : List Byte) : List (Nat × List Byte) :=
  (List.range ((data.length + 63) / 64)).map (fun i => (buf + 64 * i, bytesAt data (64 * i) 64)) ++ [(desc, dbytes)]

/-- The master that writes a receive queue (R249). -/
def Chip.rqMaster (c : Chip) (q : Nat) : Nat := if c.rqHost q then 12 else c.rqOwner q

/-- Whether a queue's next stored descriptor is to carry LOSTBEFORE (R249). -/
def Chip.setRqLost (c : Chip) (q : Nat) (b : Bool) : Chip :=
  { c with rq := { c.rq with rqLost := tblSet false c.rq.rqLost q b } }

/-- The entry is complete: PROD counts, and the owner's wake line 5 is set (R249). -/
def Chip.rqDone (c : Chip) (q : Nat) : Chip :=
  let prod := (c.rqProd q + 1) % 65536
  let c1 := c.setReg (PE_RQq_PROD q) (w32 prod)
  if c.rqHost q then c1.setReg (PE_RQq_POP q) (w32 prod)
  else c1.wakeLine (c.rqOwner q) (c.fld (PE_RQq_CFG q) 21 20) 5

/-- The frame being written is dropped with STAT.ERR, and the gap is marked in the next stored descriptor (R252,
R263). -/
def Chip.rqFails (c : Chip) (q : Nat) : Chip := (c.setBit (PE_RQn_STAT q) 1 true).setRqLost q true

def Chip.setRqFrozen (c : Chip) (q : Nat) (f : Option RqFrozen) : Chip :=
  { c with rq := { c.rq with rqFrozen := tblSet none c.rq.rqFrozen q f } }

/-- Units written in order; a violation freezes the path, a refusal drops the frame (R252). -/
def Chip.rqRun (c : Chip) (q : Nat) : List (Nat × List Byte) → Chip
  | [] => c.rqDone q
  | (a, bs) :: us =>
    match c.dmaWrite (c.rqMaster q) a bs with
    | (none, c1) => c1.rqRun q us
    | (some .seg, c1) =>
      (c1.setRqFrozen q (some ⟨(a, bs) :: us⟩)).freezeAt (0x20 + q) (c.rqMaster q) a 64 2
    | (some _, c1) => c1.rqFails q

/-- A frame dropped for want of room (R249 step 1). -/
def Chip.rqDrop (c : Chip) (q : Nat) : Chip :=
  let c1 := ((c.inc (PE_RQq_LOST q)).setBit (PE_RQn_STAT q) 0 true).setRqLost q true
  if c.rqHost q then c1 else c1.ownerCause (c.rqOwner q) 3

/-- An engine's state: 0 OFF, 1 STOPPED, 2 LOADED, 3 RUNNING, 4 FROZEN (R258), of a queue's owner. -/
def Chip.ownerOff (c : Chip) (m : Nat) : Bool := c.peState (m - 3) == 0

/-- Whether a receive queue works: it is enabled, and its engine is not OFF (R258, R267). -/
def Chip.rqOn (c : Chip) (q : Nat) : Bool :=
  c.bit (PE_RQq_CFG q) 31 && (c.rqHost q || !c.ownerOff (c.rqOwner q))

/-- A frame for a receive queue (R249, R252). A queue that does not work has no room (DESIGN CHOICE, log entry 156). -/
def Chip.rqDeliver (c : Chip) (l : LocalFrame) (f : Frame) : Chip :=
  let q := l.rq
  if span16 (c.rqCons q) (c.rqProd q) = c.rqSize q ∨ c.rqOn q = false ∨
      (tblGet none c.rq.rqFrozen q).isSome then c.rqDrop q
  else if 2 ^ c.fld (PE_RQq_CFG q) 11 8 < f.data.length then c.inc (PE_RQq_LONG q)
  else
    let buf := c.fld (PE_RQq_BBASE q) 31 6 * 64 + c.rqProd q % c.rqSize q * 2 ^ c.fld (PE_RQq_CFG q) 11 8
    (c.setRqLost q false).rqRun q (rqUnits buf (c.rqDesc q (c.rqProd q)) f.data (c.rqDescBytes q l f buf))

/-- The frame decided first is delivered (R249). -/
def rqDelivery (c : Chip) : Chip :=
  match c.swx.deciding with
  | [] => c
  | l :: ls =>
    let f := c.frame l.fid
    let c1 := { c with swx := { c.swx with deciding := ls } }
    (c1.release l.fid).rqDeliver l f

/-- A write of PE_RQq_CONS (R251). -/
def rqConsWrite (c : Chip) (m q : Nat) (v : W32) : Chip :=
  let lim := if c.rqHost q then c.rqProd q else c.rqPopped q
  let new := wfld v 15 0
  if (m = 0 ∨ m = c.rqOwner q) ∧ span16 (c.rqCons q) new ≤ span16 (c.rqCons q) lim then
    (c.setReg (PE_RQq_CONS q) (w32 new)).done
  else (c.setBit (PE_RQn_STAT q) 1 true).done

/-- A resolution of a delivery path's freeze (R374). -/
def rqResolve (c : Chip) (q action : Nat) : Chip :=
  let c0 := c.setRqFrozen q none
  match tblGet none c.rq.rqFrozen q with
  | none => c
  | some f =>
    if action = 1 then c0.rqRun q f.units
    else
      let c1 := c0.rqFails q
      if action = 3 then
        (((c1.setBit (PE_RQq_CFG q) 31 false).setReg (PE_RQq_PROD q) 0).setReg (PE_RQq_POP q) 0).setReg (PE_RQq_CONS q) 0
      else c1

/-! ### Transmit queues -/

def Chip.tqHeld (c : Chip) (t : Nat) : List Nat := tblGet [] c.rq.tq t

def Chip.setTq (c : Chip) (t : Nat) (q : List Nat) : Chip :=
  { c with rq := { c.rq with tq := tblSet [] c.rq.tq t q } }

def Chip.tqOwner (c : Chip) (t : Nat) : Nat := c.fld (PE_TQt_CFG t) 27 24
def Chip.tqHost (c : Chip) (t : Nat) : Bool := c.bit (PE_TQt_CFG t) 30

/-- A write of PE_TQt_PUSH (R266). -/
def tqPushWrite (c : Chip) (m t : Nat) (v : W32) : Chip :=
  if m ≠ 0 ∧ m ≠ c.tqOwner t then c.refuse
  else if 64 ≤ (c.tqHeld t).length ∨ c.bit (PE_TQt_CFG t) 31 = false ∨ v.toNat % 32 ≠ 0 then
    (c.setBit (PE_TQt_FLAGS t) 0 true).done
  else (c.setTq t (c.tqHeld t ++ [v.toNat])).done

/-- The master that a transmit queue reads with (R254). -/
def Chip.tqMaster (c : Chip) (t : Nat) : Nat := if c.tqHost t then 12 else c.tqOwner t

/-- A descriptor is over (R254): DONE counts, the flag of its RESULT is set, the owner is woken. -/
def Chip.tqCount (c : Chip) (t result : Nat) : Chip :=
  let c1 := c.inc (PE_TQt_DONE t)
  let c2 := if result = 1 then c1.setBit (PE_TQt_FLAGS t) 1 true
    else if result = 2 then c1.setBit (PE_TQt_FLAGS t) 2 true else c1
  let c3 := if result = 1 ∨ result = 2 then c2.ownerCause (c.tqOwner t) 4 else c2
  if c.tqHost t then c3 else c3.wakeLine (c.tqOwner t) (c.fld (PE_TQt_CFG t) 21 20) 6

def Chip.setTqFrozen (c : Chip) (t : Nat) (f : Option TqFrozen) : Chip :=
  { c with rq := { c.rq with tqFrozen := tblSet none c.rq.tqFrozen t f } }

/-- A queue's path freezes at an access (R254, R372). -/
def Chip.tqFreezes (c : Chip) (t : Nat) (f : TqFrozen) (a n rwx : Nat) : Chip :=
  (c.setTqFrozen t (some f)).freezeAt (0x40 + t) (c.tqMaster t) a n rwx

/-- A descriptor ends with a RESULT (R254): word 4 is written, and the descriptor is over. A write that another
check than the segments' refuses leaves only the word as it was (DESIGN CHOICE, log entry 156). -/
def Chip.tqEnd (c : Chip) (t desc result : Nat) : Chip :=
  match c.dmaWrite (c.tqMaster t) (desc + 16) (leBytes 4 (2 ^ 31 + at_ result 28)) with
  | (some .seg, c1) => c1.tqFreezes t (.finish desc result) (desc + 16) 4 2
  | (_, c1) => c1.tqCount t result

/-- The ports that a descriptor's frame would go to before links and copies are looked at. -/
def Chip.tqPorts (c : Chip) (sp : Nat) (w0 w1 : W32) (data : List Byte) : Nat :=
  if wbit w0 19 then
    match c.lookup sp data (parseFrame data 0).vid with
    | some r => r.ports
    | none => 0
  else wfld w1 7 0

/-- Whether a descriptor is invalid, as far as its own words say (R254). -/
def tqBad (w0 w1 w3 : W32) : Bool :=
  let len := wfld w0 13 0
  decide (len < 14) || decide (9212 < len) || (!wbit w0 19 && wfld w1 7 0 == 0) || wfld w0 23 22 == 3 ||
  (wbit w0 21 && (decide (len < wfld w3 31 16 + 8) || decide (len < wfld w3 15 0 + 10)))

/-- Whether a descriptor's slot is invalid (R254). -/
def Chip.tqSlotBad (c : Chip) (w0 w1 : W32) (ports : Nat) : Bool :=
  let s := wfld w1 15 8
  wbit w0 24 && (!wbit (c.entryWord 11 s 0) 31 || !nbit ports (c.slotPort s))

/-- A frame that has its pecks is offered to SWX (R143, R145, R254). -/
def Chip.tqOffer (c : Chip) (sp : Nat) (o : Offer) : Chip :=
  let w (i : Nat) : W32 := o.words.getD i 0
  let req : TxReq := ⟨wbit (w 0) 20, wbit (w 0) 21, wfld (w 0) 23 22, wfld (w 3) 31 16, wfld (w 3) 15 0, wfld (w 1) 31 16⟩
  let slot := if wbit (w 0) 24 then some (wfld (w 1) 15 8) else none
  let q := parseFrame o.data 0
  match c.generate sp o.data q req with
  | (none, c1) => c1.tqEnd o.tq o.desc 3
  | (some (data, req'), c1) =>
    let (id, c2) := c1.admitFrame ⟨data, data.length + 4, sp, none, c.lt⟩
    let up := (List.range 10).foldl (fun s p =>
      if nbit (c.tqPorts sp (w 0) (w 1) o.data) p && c.portUp p then s + 2 ^ p else s) 0
    let (any, c3) := c2.linkAll up id (wfld (w 0) 18 16) q.vid (q.tagged && wbit (w 0) 19) req' slot
    (Chip.poolMarks c (c3.release id)).tqEnd o.tq o.desc (if any then 0 else 3)

/-- The port's turn after a frame of queue t. -/
def Chip.setServed (c : Chip) (sp t : Nat) : Chip :=
  { c with rq := { c.rq with served := tblSet 15 c.rq.served sp t } }

def Chip.setOffer (c : Chip) (sp : Nat) (o : Option Offer) : Chip :=
  { c with rq := { c.rq with offers := tblSet none c.rq.offers sp o } }

/-- Queue t's descriptor at an address is taken by a port (R254). -/
def Chip.tqTake (c : Chip) (sp t desc : Nat) : Chip :=
  let m := c.tqMaster t
  let pop (c : Chip) : Chip := (c.setTq t (c.tqHeld t).tail).setServed sp t
  match c.dmaRead m desc 32 with
  | (.error .seg, c1) => c1.tqFreezes t .read desc 32 1
  | (.error .wait, c1) => c1
  | (.error _, c1) => (pop c1).tqEnd t desc 1
  | (.ok bs, c1) =>
    let w (i : Nat) : W32 := w32 (leNat (bytesAt bs (4 * i) 4))
    let words := (List.range 8).map w
    if tqBad (w 0) (w 1) (w 3) then (pop c1).tqEnd t desc 2
    else
      match c1.readSpan m (w 2).toNat (wfld (w 0) 13 0) with
      | (.error (.seg, a, n), c2) => c2.tqFreezes t .read a n 1
      | (.error (.wait, _), c2) => c2
      | (.error _, c2) => (pop c2).tqEnd t desc 1
      | (.ok data, c2) =>
        if c2.tqSlotBad (w 0) (w 1) (c2.tqPorts sp (w 0) (w 1) data) then (pop c2).tqEnd t desc 2
        else
          let o : Offer := ⟨t, desc, data, words⟩
          if c2.pecksFree < c2.offerPecks sp data (parseFrame data 0).vid then (pop c2).setOffer sp (some o)
          else (pop c2).tqOffer sp o

/-- SP8 or SP9 serves the next of its queues in turn (R254); a port whose frame waits for pecks holds
its turn. -/
def tqServe (c : Chip) (sp : Nat) : Chip :=
  if (tblGet none c.rq.offers sp).isSome then c
  else
    let last := tblGet 15 c.rq.served sp
    let ready (t : Nat) : Bool := !(c.tqHeld t).isEmpty && c.bit (PE_TQt_CFG t) 31 &&
      c.tqHost t == (sp == 9) && (c.tqHost t || !c.ownerOff (c.tqOwner t)) && (tblGet none c.rq.tqFrozen t).isNone
    match ((List.range 16).map fun i => (last + 1 + i) % 16).find? ready with
    | none => c
    | some t =>
      match c.tqHeld t with
      | [] => c
      | d :: _ => c.tqTake sp t d

/-- A frame that waited takes its pecks (R143). -/
def peckGrant (c : Chip) (sp : Nat) : Chip :=
  match tblGet none c.rq.offers sp with
  | none => c
  | some o =>
    if c.pecksFree < c.offerPecks sp o.data (parseFrame o.data 0).vid then c else (c.setOffer sp none).tqOffer sp o

/-- A transmit queue disabled: the addresses it holds are discarded (R267, R374). -/
def Chip.tqOff (c : Chip) (t : Nat) : Chip := (c.setBit (PE_TQt_CFG t) 31 false).setTq t []

/-- A resolution of a read path's freeze (R374). A port that holds its turn for another frame makes the read again
when it next serves the queue. -/
def tqResolve (c : Chip) (t action : Nat) : Chip :=
  let c0 := c.setTqFrozen t none
  let sp := if c.tqHost t then 9 else 8
  match tblGet none c.rq.tqFrozen t, c.tqHeld t with
  | some (.finish desc result), _ =>
    if action = 1 then c0.tqEnd t desc result
    else
      let c1 := c0.tqCount t result
      if action = 3 then c1.tqOff t else c1
  | some .read, d :: ds =>
    if action = 1 then
      (if (tblGet none c.rq.offers sp).isSome then c0 else c0.tqTake sp t d)
    else
      let c1 := ((c0.setTq t ds).setServed sp t).tqEnd t d 1
      if action = 3 then c1.tqOff t else c1
  | _, _ => c0

/-! ### The F unit's queue operations -/

/-- QPOP by an engine (R244, R247): the address and whether QERR is set. -/
def Chip.qpop (c : Chip) (m q : Nat) : Nat × Bool × Chip :=
  if c.bit (PE_RQq_CFG q) 31 = false ∨ c.rqHost q ∨ c.rqOwner q ≠ m then (0, true, c)
  else if c.rqPopped q = c.rqProd q then (0, false, c)
  else (c.rqDesc q (c.rqPopped q), false, c.setReg (PE_RQq_POP q) (w32 ((c.rqPopped q + 1) % 65536)))

/-- QREL by an engine (R244, R251). -/
def Chip.qrel (c : Chip) (m q : Nat) : Nat × Bool × Chip :=
  if c.bit (PE_RQq_CFG q) 31 = false ∨ c.rqHost q ∨ c.rqOwner q ≠ m then (0, true, c)
  else if c.rqCons q = c.rqPopped q then (0, false, c)
  else (1, false, c.setReg (PE_RQq_CONS q) (w32 ((c.rqCons q + 1) % 65536)))

/-- QLEN by an engine (R244, R247). -/
def Chip.qlen (c : Chip) (m q : Nat) : Nat × Bool :=
  if c.bit (PE_RQq_CFG q) 31 = false ∨ c.rqHost q ∨ c.rqOwner q ≠ m then (0, true)
  else (span16 (c.rqPopped q) (c.rqProd q), false)

/-- QPUSH by an engine (R244, R247). -/
def Chip.qpush (c : Chip) (m t a : Nat) : Nat × Bool × Chip :=
  if c.bit (PE_TQt_CFG t) 31 = false ∨ c.tqOwner t ≠ m ∨ a % 32 ≠ 0 then (0, true, c)
  else if 64 ≤ (c.tqHeld t).length then (0, false, c)
  else (1, false, c.setTq t (c.tqHeld t ++ [a]))

/-! ### Engines -/

/-- The addresses of an engine's memories, 128 KB each (R241). -/
def peMem (n : Nat) : Nat := 0x30000000 + n * 0x100000

/-- The watchdog restarts (R262). -/
def Chip.peKick (c : Chip) (n : Nat) : Chip :=
  { c with core := { c.core with wdStart := tblSet 0 c.core.wdStart n c.lt } }

/-- CMD START (R258). Engines start from CONFIGURED on (R39, R433). -/
def engineStart (c : Chip) (n : Nat) : Chip :=
  if c.peState n = 2 ∧ 4 ≤ c.sysState then
    let c1 := (c.resetCore (n + 3)).setPeState n 3
    let c2 := (List.range 4).foldl (fun c x =>
      let e := c.reg (PE_PEn_ENTRY n x)
      if wbit e 0 then c.setCtx (n + 3) x { Ctx.reset with pc := wfld e 31 2 * 4, st := .ready } else c) c1
    c2.peKick n
  else c.peCause n 5

/-- CMD STOP (R258). -/
def engineStop (c : Chip) (n : Nat) : Chip :=
  if c.peState n = 3 then (c.haltCore (n + 3)).setPeState n 2 else c.peCause n 5

/-- CMD CLEAR (R258): the memories are cleared when it ends. -/
def engineClear (c : Chip) (n : Nat) : Chip :=
  if c.peState n = 1 ∨ c.peState n = 2 then
    { c.setPeState n 1 with core := { c.core with clearing := tblSet false c.core.clearing n true } }
  else c.peCause n 5

/-- The clear ends (R258). -/
def engineClearDone (c : Chip) (n : Nat) : Chip :=
  if tblGet false c.core.clearing n then
    { c with core := { c.core with clearing := tblSet false c.core.clearing n false } }.clearMem (peMem n) 0x40000
  else c

/-- A write of PE_PEn_CMD (R258). -/
def peCmdWrite (c : Chip) (m n : Nat) (v : W32) : Chip :=
  if m ≠ 0 then c.refuse
  else
    (match wfld v 2 0 with
      | 0 => c
      | 1 => engineStart c n
      | 2 => engineStop c n
      | 4 => engineClear c n
      | _ => c.peCause n 5).done

/-- The watchdog expires, unless a restart arrives in its last tick (R38, R262). -/
def peWatchdog (c : Chip) (n : Nat) : Chip :=
  let lim := c.fld (PE_PEn_WDT n) 23 0
  if c.peState n = 3 ∧ lim ≠ 0 ∧ tblGet 0 c.core.wdStart n + lim * 65536000 < c.lt then
    let c1 := (c.peCause n 2).peKick n
    if c.bit (PE_PEn_WDT n) 31 then (c1.haltCore (n + 3)).setPeState n 2 else c1
  else c

/-- The timer's first instant later than the present, in ns (R257). -/
def Chip.cycFirst (c : Chip) (n : Nat) : Nat :=
  let base := c.reg64 (PE_PEn_CYCBASE_LO n)
  let per := (c.reg (PE_PEn_CYCPER n)).toNat
  if per = 0 ∨ c.ltNs < base then base else base + ((c.ltNs - base) / per + 1) * per

/-- The timer's settings have changed: they act from the next instant (R257). -/
def Chip.cycRestart (c : Chip) (n : Nat) : Chip :=
  { c with core := { c.core with cycNext := tblSet 0 c.core.cycNext n (c.cycFirst n) } }

/-- The cycle timer reaches an instant: line 7 of the contexts in CYCCTX (R257). -/
def peCycleTimer (c : Chip) (n : Nat) : Chip :=
  if c.reg (PE_PEn_CYCPER n) ≠ 0 ∧ tblGet 0 c.core.cycNext n ≤ c.ltNs then
    let c1 := (List.range 4).foldl (fun c x =>
      if c.bit (PE_PEn_CYCCTX n) x then c.wakeLine (n + 3) x 7 else c) c
    c1.cycRestart n
  else c

/-! ### Registers -/

/-- What a PE register shows where it is not a stored value. -/
def peLive (c : Chip) (a : Nat) : W32 :=
  let o := a - 0x40130000
  if o < 0x800 then
    let n := o / 0x100
    if o % 0x100 = 4 then
      wsetFld (c.reg a) 15 8 (if c.peState n = 0 then 0 else
        ((List.range 4).map fun x => (c.ctx (n + 3) x).st.code * 4 ^ x).sum)
    else c.reg a
  else if 0x2000 ≤ o ∧ o < 0x2200 ∧ (o - 0x2000) % 0x20 = 8 then
    w32 (c.tqHeld ((o - 0x2000) / 0x20)).length
  else c.reg a

/-- Whether a receive queue's configuration is in range (R267). -/
def rqCfgOk (v : W32) : Bool :=
  let o := wfld v 27 24
  decide (4 ≤ wfld v 19 16) && decide (wfld v 19 16 ≤ 10) && decide (7 ≤ wfld v 11 8) && decide (wfld v 11 8 ≤ 14) &&
  (if wbit v 30 then o == 11 else decide (3 ≤ o) && decide (o ≤ 10))

/-- Whether a transmit queue's configuration is in range (R267). -/
def tqCfgOk (v : W32) : Bool :=
  let o := wfld v 27 24
  if wbit v 30 then o == 11 else decide (3 ≤ o) && decide (o ≤ 10)

/-- A write of PE_RQq_CFG (R267). -/
def rqCfgWrite (c : Chip) (m q : Nat) (v : W32) : Chip :=
  let a := PE_RQq_CFG q
  if m ≠ 0 then c.refuse
  else if !rqCfgOk v then c.done
  else if c.bit a 31 then
    if wbit v 31 then c.done
    else ((((c.setBit a 31 false).setReg (PE_RQq_PROD q) 0).setReg (PE_RQq_POP q) 0).setReg (PE_RQq_CONS q) 0).done
  else (c.setReg a (v &&& 0xCF3F0F00)).done

/-- A write of PE_TQt_CFG (R267). -/
def tqCfgWrite (c : Chip) (m t : Nat) (v : W32) : Chip :=
  let a := PE_TQt_CFG t
  if m ≠ 0 then c.refuse
  else if !tqCfgOk v then c.done
  else if c.bit a 31 then
    if wbit v 31 then c.done else (c.tqOff t).done
  else (c.setReg a (v &&& 0xCF300000)).done

/-- A write to a PE register (R266). -/
def peWrite (c : Chip) (m a : Nat) (v : W32) : Chip :=
  let o := a - 0x40130000
  if o < 0x800 then
    let n := o / 0x100
    let r := o % 0x100
    if r = 0 then peCmdWrite c m n v
    else if 0x24 ≤ r ∧ m ≠ 0 ∧ m ≠ n + 3 then c.refuse
    else if r = 0x24 ∨ r = 0x2C then (c.plainWrite m a v).cycRestart n
    else if 0x50 ≤ r ∧ r < 0x60 then
      let w := wfld v 5 0
      c.plainWrite m a (if w < 3 ∨ 32 < w then wsetFld v 5 0 32 else v)
    else c.plainWrite m a v
  else if 0x1000 ≤ o ∧ o < 0x1400 then
    let q := (o - 0x1000) / 0x20
    let r := (o - 0x1000) % 0x20
    if r = 0 then rqCfgWrite c m q v
    else if r = 0x14 then rqConsWrite c m q v
    else c.plainWrite m a v
  else if 0x2000 ≤ o ∧ o < 0x2200 then
    let t := (o - 0x2000) / 0x20
    let r := (o - 0x2000) % 0x20
    if r = 0 then tqCfgWrite c m t v
    else if r = 4 then tqPushWrite c m t v
    else c.plainWrite m a v
  else c.plainWrite m a v

end Sys2Proof.Machine
end

