-- ==== Sys2Proof/Machine/Trap.lean ====
section
/-!
DEFINITION. Traps and double traps of a context (R233 to R235) and the resolutions of a frozen core (R236, R374).
-/
namespace Sys2Proof.Machine

/-- Why a context traps: its code by R237, the conditions seen (V 1, DZ 2, DV 4), the code of TRAP, TINFO. -/
structure TrapWhy where
  cause : Nat
  seen : Nat
  code : Nat
  info : W32
  deriving DecidableEq, Repr

/-- A fault's reason, with its TINFO. -/
def TrapWhy.fault (cause : Nat) (info : W32) : TrapWhy := ⟨cause, 0, 0, info⟩

/-- TCAUSE as a trap writes it (R239). -/
def TrapWhy.word (t : TrapWhy) (double : Bool) : W32 :=
  w32 (at_ (b2n double) 31 + at_ t.seen 16 + at_ t.code 8 + t.cause)

/-- Whether a trap of a context now would be a double trap (R235). -/
def Ctx.doubles (k : Ctx) : Bool := wbit k.tstat 0 || k.tvec == 0

/-- A context's double trap recorded: DOUBLE with the new cause, HALT, and its core's fault event (R235). -/
def Chip.doubleTrap (c : Chip) (core x : Nat) (t : TrapWhy) : Chip :=
  let c1 := c.setCtx core x { (c.ctx core x).halted with tcause := t.word true, tinfo := t.info }
  if core = 0 then { c1 with core := { c1.core with supStopped := true } }
  else if core ≤ 2 then ((c1.taskEnd core x true).tskCause (8 + core)).tskRecovery
  else c1.peCause (core - 3) 1

/-- A context takes a trap, with the address that TPC receives (R234, R235). -/
def Chip.trap (c : Chip) (core x tpc : Nat) (t : TrapWhy) : Chip :=
  let k := c.ctx core x
  if k.doubles then c.doubleTrap core x t
  else c.setCtx core x { k with
    tpc := w32 tpc, tcause := t.word false, tinfo := t.info, tstat := wsetBit k.tstat 0 true, pc := k.tvec.toNat }

/-- A core freezes at a context's bundle, with its entry in the queue (R236, R375). -/
def Chip.coreFreezes (c : Chip) (core x seg ofs size rwx : Nat) (atomic : Bool) : Chip :=
  let c1 := (c.freezeCore core x).freeze ⟨core, core, seg, ofs, size, atomic, rwx, c.lt⟩
  if core = 1 ∨ core = 2 then c1.tskCause (8 + core) else c1

/-- A core thawed, an engine RUNNING again (R236). -/
def Chip.coreThaws (c : Chip) (core : Nat) : Chip :=
  if 3 ≤ core then (c.thaw core).setPeState (core - 3) 3 else c.thaw core

/-- The tasks that a reset of their core has cut off are no longer active; none of them ends (R236; DESIGN CHOICE, log
entry 57). -/
def Chip.tasksCut (c : Chip) (core : Nat) : Chip :=
  let on (k : Nat) : Bool := (c.taskCtx k).1 == core
  let c0 := (List.range 32).foldl (fun c k => if on k then c.setBit (TSK_TKk_STAT k) 31 false else c) c
  let c1 := { c0 with tsk := { c0.tsk with initWait := c0.tsk.initWait.filter fun k => !on k } }
  (List.range 8).foldl (fun c n =>
    let f := c.fr n
    c.setFr n { f with
      normalActive := f.normalActive && !on (c.fld (TSK_FRn_CFG n) 20 16)
      errActive := f.errActive && !on (c.fld (TSK_FRn_CFG n) 28 24) }) c1

/-- A frozen core resolved: resume, redirect with the offset of the violation, or reset, which on SUP destroys the
sessions' keys (R236, R374, R454). -/
def coreResolve (c : Chip) (core action : Nat) (ofs : Nat) : Chip :=
  match tblGet none c.core.frozen core with
  | none => c
  | some x =>
    if action = 1 then c.coreThaws core
    else if action = 2 then
      let c1 := c.coreThaws core
      c1.trap core x (c1.ctx core x).pc (.fault 6 (w32 ofs))
    else
      let c1 := c.resetCore core
      if core = 0 then { c1 with sec := { c1.sec with sessions := [] } }
      else if core ≤ 2 then (c1.tasksCut core).tskRecovery
      else c1.setPeState (core - 3) 2

end Sys2Proof.Machine
end

