-- ==== Sys2Proof/Machine/Xdm.lean ====
section
/-!
DEFINITION. Data movers: commands and triggers (R381, R382), the end of a descriptor (R380), a frozen channel's
resolutions (R374), and XDM's registers (R385, R386).
-/
namespace Sys2Proof.Machine

/-- The master a channel issues with (R35). -/
def Chip.xdMaster (c : Chip) (n : Nat) : Nat := c.fld (XDn_OWNER n) 3 0

/-- Address of the descriptor in progress. -/
def Chip.xdCur (c : Chip) (n : Nat) : Nat := c.fld (XDn_CUR n) 31 5 * 32

/-- The RESULT that a refusal gives: `bus` for one by the fabric (R380). -/
def AccErr.xdResult (bus : Nat) : AccErr → Nat
  | .bus => bus
  | .owner => 3
  | .ecc => 2
  | .seg => 6
  | .wait => bus

def Chip.setXdSt (c : Chip) (n : Nat) (s : XdSt) : Chip := c.setXd n { c.xd n with st := s }

/-- A descriptor has ended with a result: DONE, RESULT, flags and the way on (R380). -/
def Chip.xdEnded (c : Chip) (n result : Nat) (lost : Bool) : Chip :=
  let x := c.xd n
  let c1 := ((c.inc (XDn_DONE n)).setFld (XDn_STAT n) 19 16 result).setBit (XDn_STAT n) 9 lost
  if result = 0 then
    let c2 := if x.desc.irq then c1.xdFlag n 0 else c1
    if x.desc.chain then
      (c2.setReg (XDn_CUR n) (w32 x.desc.next)).setXd n { x with st := .active, phase := .fetch, moved := 0, popped := [] }
    else c2.setXd n { x with st := .idle, phase := .fetch, stopReq := false, popped := [] }
  else (c1.xdFlag n 1).setXd n { x with st := .error, phase := .fetch, stopReq := false, popped := [] }

/-- A descriptor ends: words 6 and 7 are written as one unit (R380). -/
def Chip.xdEnd (c : Chip) (n result : Nat) : Chip :=
  let x := c.xd n
  let m := c.xdMaster n
  let a := c.xdCur n + 24
  let bs := leBytes 4 (2 ^ 31 + at_ result 27 + x.moved) ++ leBytes 4 (c.ltNs % 2 ^ 32)
  match c.dmaWrite m a bs with
  | (none, c1) => c1.xdEnded n result false
  | (some .seg, c1) => (c1.setXd n { x with st := .frozen, phase := .status result }).freezeAt (0x80 + n) m a 8 2
  | (some e, c1) => c1.xdEnded n (e.xdResult 8) true

/-- A frozen channel resolved: 1 resume, 2 redirect, 3 reset (R374, R380). -/
def xdResolve (c : Chip) (n action : Nat) : Chip :=
  let x := c.xd n
  if x.st ≠ .frozen then c
  else
    match action, x.phase with
    | 1, .status r => (c.setXdSt n .active).xdEnd n r
    | 1, _ => c.setXdSt n .active
    | 2, .status _ => c.xdEnded n 6 true
    | 2, _ => c.xdEnd n 6
    | _, _ => c.setXd n { x with st := .idle, phase := .fetch, stopReq := false, popped := [] }

/-- STOP (R382). -/
def xdStop (c : Chip) (n : Nat) : Chip :=
  let x := c.xd n
  match x.st with
  | .armed => c.xdEnd n 7
  | .active => c.setXd n { x with stopReq := true }
  | .frozen => c.setXd n { x with stopReq := true }
  | _ => c

/-- GO (R382). -/
def xdGo (c : Chip) (n : Nat) : Chip :=
  let x := c.xd n
  if x.st = .idle ∨ x.st = .error then
    (c.setReg (XDn_CUR n) (c.reg (XDn_DESC n))).setXd n
      { x with st := .active, phase := .fetch, moved := 0, stopReq := false, popped := [] }
  else c.xdFlag n 3

/-- Whether a master may write a channel's registers. -/
def Chip.xdWriter (c : Chip) (n m : Nat) : Bool := m == 0 || m == c.xdMaster n

/-- A write of XDn_CTL: STOP, GO, TRIG (R382). -/
def xdCtlWrite (c : Chip) (m n : Nat) (v : W32) : Chip :=
  if !c.xdWriter n m then c.refuse
  else
    let c1 := if wbit v 30 then xdStop c n else c
    let c2 := if wbit v 31 then xdGo c1 n else c1
    (if wbit v 29 then c2.xdTrig n else c2).done

/-- A commit of XDn_TRIGT_LO arms the time trigger (R381). -/
def trigtCommit (c : Chip) (m n : Nat) (v : W32) : Chip :=
  if !c.xdWriter n m then c.refuse
  else
    let c1 := c.plainWrite m (XDn_TRIGT_LO n) v
    (c1.setXd n { c1.xd n with timeArmed := true }).done

/-- Line time reaches a time trigger (R381). -/
def timeTrigger (c : Chip) (n : Nat) : Chip :=
  let t := c.reg64 (XDn_TRIGT_LO n)
  if (c.xd n).timeArmed ∧ t ≤ c.ltNs then
    let c1 := c.xdTrig n
    let per := (c.reg (XDn_TRIGPER n)).toNat
    if per = 0 then c1.setXd n { c1.xd n with timeArmed := false }
    else c1.setReg64 (XDn_TRIGT_LO n) (t + ((c.ltNs - t) / per + 1) * per)
  else c

/-- The wait in ARMED times out; a trigger in the same cycle comes first (R38, R381). -/
def armedTimeout (c : Chip) (n : Nat) : Chip :=
  let x := c.xd n
  if x.st = .armed ∧ x.pend = false ∧ x.armedLimit ≠ 0 ∧ x.armedAt + x.armedLimit * 65536000 < c.lt then c.xdEnd n 5
  else c

/-- The code of a channel's state (R386). -/
def XdSt.code : XdSt → Nat
  | .idle => 0 | .armed => 1 | .active => 2 | .error => 3 | .frozen => 4

/-- What an XDM register shows where it is not a stored value. -/
def xdmLive (c : Chip) (a : Nat) : W32 :=
  let o := a - 0x400D0000
  if o < 0x1000 then
    match c.xdm.freezes with
    | [] => 0
    | e :: es =>
      match o with
      | 0x10 => w32 (2 ^ 31 + at_ e.unit 16 + e.master)
      | 0x14 => w32 e.seg
      | 0x18 => w32 e.ofs
      | 0x1C => w32 (at_ e.size 8 + at_ (b2n e.atomic) 3 + e.rwx)
      | 0x20 => lo32 (e.lt / 65536)
      | 0x24 => hi32 (e.lt / 65536)
      | 0x28 => w32 (es.length + 1)
      | _ => 0
  else if o < 0x2000 then
    let x := c.xd ((o - 0x1000) / 0x40)
    if o % 0x40 = 4 then wsetFld (wsetBit (c.reg a) 8 x.pend) 2 0 x.st.code else c.reg a
  else c.reg a

/-- A write to an XDM register other than XDM_FRZ_RESOLVE. -/
def xdmWrite (c : Chip) (m a : Nat) (v : W32) : Chip :=
  let o := a - 0x400D0000
  if 0x1000 ≤ o ∧ o < 0x2000 then
    let n := (o - 0x1000) / 0x40
    match a % 0x40 with
    | 0x00 => xdCtlWrite c m n v
    | 0x0C => c.plainWrite m a v
    | 0x18 => trigtCommit c m n v
    | _ => if c.xdWriter n m then c.plainWrite m a v else c.refuse
  else c.plainWrite m a v

end Sys2Proof.Machine
end

