-- ==== Sys2Proof/Machine/Pwr.lean ====
section
/-!
DEFINITION. PWR and SYS: supplies and the buck (R473 to R477), the board-rail sequencer (R478 to R480), gating and
temperature (R481, R482), clocks (R483, R484), straps (R485), resets (R486, R487), the watchdog (R488), device
states (R489), boot (R490 to R492), and their registers (R494 to R496).
-/
namespace Sys2Proof.Machine

def Chip.setPwr (c : Chip) (f : PwrState → PwrState) : Chip := { c with pwr := f c.pwr }

/-- A flag of PWR_EVCAUSE set, with its source (R493, R496). -/
def Chip.pwrFlag (c : Chip) (i src : Nat) : Chip := c.flag PWR_EVCAUSE i src

/-- SYS_STATE changes (R489). -/
def Chip.setState (c : Chip) (s : Nat) : Chip := (c.setFld SYS_STATE 2 0 s).raise 0 0

/-! ### The sequencer -/

/-- USE and DELAY of a step (R496). -/
def Chip.seqUse (c : Chip) (k : Nat) : Bool := c.bit (PWR_SEQ_CFG k) 31

/-- The first step from `k` on that runs, waiting out its delay, or the end of the sequence (R478). -/
def Chip.seqFrom (c : Chip) (k : Nat) : Chip :=
  c.setPwr fun p => { p with seq :=
    match (List.range 4).find? fun j => decide (k ≤ j) && c.seqUse j with
    | some j => .delay j
    | none => .done }

/-- Bit `k` of a set of steps. -/
def stepBit (x : BitVec 4) (k : Nat) (b : Bool) : BitVec 4 :=
  if b then x ||| BitVec.ofNat 4 (2 ^ k) else x &&& ~~~BitVec.ofNat 4 (2 ^ k)

/-- A step passes, and the next follows; a failure of an earlier run is over (R478; DESIGN CHOICE, log entry 182). -/
def Chip.seqPass (c : Chip) (k : Nat) : Chip :=
  let c1 := (c.setBit PWR_STAT (8 + k) true).setBit PWR_STAT (16 + k) false
  (if k = 0 then c1.setBit PWR_STAT 27 false else c1).seqFrom (k + 1)

/-- A step fails (R479); the failure of step 0 takes every step's rail down (DESIGN CHOICE, log entry 182). -/
def Chip.seqFails (c : Chip) (k : Nat) : Chip :=
  let moves : Bool := c.pwr.seq == .waitPg k
  let c1 := (c.setBit PWR_STAT (8 + k) false).pwrFlag 0 2
  if k = 0 then
    ((c1.setFld PWR_STAT 11 8 0).setBit PWR_STAT 27 true).setPwr fun p => { p with en := 0, seq := .retry }
  else
    let c2 := (c1.setBit PWR_STAT (16 + k) true).setPwr fun p => { p with en := stepBit p.en k false }
    if moves then c2.seqFrom (k + 1) else c2

/-- The delay of the step in turn is over: its enable goes high (R478). -/
def seqEnable (c : Chip) : Chip :=
  match c.pwr.seq with
  | .delay k =>
    let c1 := c.setPwr fun p => { p with en := stepBit p.en k true, seq := .waitPg k }
    if c1.pwr.pg.getLsbD k then c1.seqPass k else c1
  | _ => c

/-- PSEQ_PGk goes high (R478). -/
def seqPgRise (c : Chip) (k : Nat) : Chip :=
  let c1 := c.setPwr fun p => { p with pg := stepBit p.pg k true }
  if c.pwr.seq = .waitPg k then c1.seqPass k else c1

/-- PSEQ_PGk is not high within PGTO (R479). -/
def seqPgTimeout (c : Chip) (k : Nat) : Chip := if c.pwr.seq = .waitPg k then c.seqFails k else c

/-- PSEQ_PGk falls (R479). -/
def seqPgFall (c : Chip) (k : Nat) : Chip :=
  let c1 := c.setPwr fun p => { p with pg := stepBit p.pg k false }
  if c.pwr.pg.getLsbD k && c.pwr.en.getLsbD k then c1.seqFails k else c1

/-- 100 ms after a step-0 failure (R479). -/
def seqRetry (c : Chip) : Chip := if c.pwr.seq = .retry then c.seqFrom 0 else c

/-- A PWR_SEQ_CFGk word as it is stored (R496). -/
def seqCfgWord (v : W32) : W32 := (if wfld v 15 8 = 0 then wsetFld v 15 8 1 else v) &&& 0x8000FFFF

/-- The 16 bytes of the four step words. -/
def Chip.seqBytes (c : Chip) : List Byte := (List.range 4).flatMap fun k => leBytes 4 (c.reg (PWR_SEQ_CFG k)).toNat

/-- A write of PWR_SEQ_CFGk (R478). -/
def seqCfgWrite (c : Chip) (m k : Nat) (v : W32) : Chip :=
  if m ≠ 0 ∨ c.sysState ≠ 3 then c.refuse
  else
    let c1 := c.setReg (PWR_SEQ_CFG k) (seqCfgWord v)
    ((c1.mramWrite 0x20001F80 c1.seqBytes).mramWrite 0x20001F90 (leBytes 4 (crc32c c1.seqBytes))).done

/-- The sequencer block read from MRAM, or the reset values (R478). -/
def Chip.seqLoad (c : Chip) (mram : Bool) : Chip :=
  let good := c.readable 0x20001F80 20 && crc32c (c.bytes 0x20001F80 16) == (c.word 0x20001F90).toNat
  let c1 := if mram then c.mramRead 0x20001F80 20 else c
  if mram && good then
    (List.range 4).foldl (fun d k => d.setReg (PWR_SEQ_CFG k) (seqCfgWord (c.word (0x20001F80 + 4 * k)))) c1
  else
    ((List.range 4).foldl (fun d k => d.setReg (PWR_SEQ_CFG k) (regReset (PWR_SEQ_CFG k))) c1).setBit PWR_STAT 26 true

/-! ### Supplies and the buck -/

/-- The GPIO banks sense their supplies: a bit per bank, 1 for 3.3 V (R507). -/
def Chip.senseBanks (c : Chip) (v33 : Nat) : Chip := if c.pwr.fromOff then c.setReg SYS_IOBSTAT (w32 (v33 % 16)) else c

/-- Every VDD_IOBx is above 1.6 V: the buck starts (R474, R476); the number of phases that run is left open. -/
def buckSoftStart (c : Chip) (v33 : Nat) : Chip :=
  if c.sysState = 1 ∧ c.pwr.buckDis = false ∧ c.pwr.buckOn = false then
    let (f, c1) := c.takeFree
    ((c1.setPwr fun p => { p with buckOn := true }).senseBanks v33).setFld PWR_STAT 2 0 (f % 4 + 1)
  else c

/-- VDD_CORE comes within target ± 60 mV: PGOOD_CORE rises, and the sequencer starts (R475, R478). `mram` whether
MRAM answers; the banks sense here where the board supplies VDD_CORE. -/
def pgoodRise (c : Chip) (v33 : Nat) (mram : Bool) : Chip :=
  if c.sysState = 1 ∧ c.bit PWR_STAT 31 = false ∧ (c.pwr.buckOn ∨ c.pwr.buckDis) then
    let c1 := c.setBit PWR_STAT 31 true
    let c2 := if c.pwr.buckDis then c1.senseBanks v33 else c1
    if c.pwr.fromOff then (c2.seqLoad mram).seqFrom 0 else c2
  else c

/-- The VDD_CORE voltage as a monitor saw it, in mV (R495). -/
def Chip.coreMv (c : Chip) (mv : Nat) : Chip := c.setFld PWR_VMON 15 0 mv

/-- The VDD_CORE target in mV, which moves toward the one written at 1 mV/µs (R477). -/
def Chip.avsTarget (c : Chip) : Nat :=
  let t := c.fld PWR_AVS 9 0
  let moved := (c.tmu.raw - c.pwr.avsAt) / 1000
  if !c.pwr.avsMoving then t
  else if c.pwr.avsFrom ≤ t then min t (c.pwr.avsFrom + moved) else max t (c.pwr.avsFrom - moved)

/-- VDD_CORE above its over-voltage threshold: PGOOD_CORE falls as well (R475). -/
def coreOverVoltage (c : Chip) (mv : Nat) : Chip :=
  if c.avsTarget + 60 < mv then (((c.coreMv mv).setBit PWR_STAT 29 true).setBit PWR_STAT 31 false).raise 1 0 else c

/-- VDD_CORE leaves its window (R475). -/
def coreWindowExit (c : Chip) (mv : Nat) : Chip :=
  if c.bit PWR_STAT 30 ∧ (c.avsTarget + 30 < mv ∨ mv + 30 < c.avsTarget) then
    ((c.coreMv mv).setBit PWR_STAT 30 false).raise 1 0
  else c

/-- VDD_CORE returns into its window; an over-voltage is then over, and PGOOD_CORE high again (R475). -/
def coreWindowReturn (c : Chip) (mv : Nat) : Chip :=
  if mv ≤ c.avsTarget + 30 ∧ c.avsTarget ≤ mv + 30 then
    let c1 := (c.coreMv mv).setBit PWR_STAT 30 true
    if c1.bit PWR_STAT 29 then (c1.setBit PWR_STAT 29 false).setBit PWR_STAT 31 true else c1
  else c

/-- A write of PWR_AVS (R477). -/
def avsWrite (c : Chip) (m : Nat) (v : W32) : Chip :=
  if m ≠ 0 then c.refuse
  else
    let t := max 700 (min 850 (wfld v 9 0)) / 5 * 5
    ((c.setReg PWR_AVS (w32 t)).setPwr fun p =>
      { p with avsMoving := !p.buckDis, avsFrom := c.avsTarget, avsAt := c.tmu.raw }).done

/-- The output reaches the target (R477). -/
def avsDone (c : Chip) : Chip :=
  if c.pwr.avsMoving then (c.setPwr fun p => { p with avsMoving := false }).pwrFlag 2 7 else c

/-- The BUCK_DIS level changes (R476, R485). -/
def buckDisChange (c : Chip) (b : Bool) : Chip :=
  let c1 := (c.setPwr fun p => { p with buckDis := b }).setBit SYS_STRAP 3 b
  if b then (c1.setPwr fun p => { p with buckOn := false, avsMoving := false }).setFld PWR_STAT 2 0 0 else c1

/-! ### Gating and temperature -/

/-- The bits of PWR_GATE (R496). -/
def gateMask : W32 := 0xFFFFF

/-- Whether the unit of a gate bit may be powered down (R481). -/
def Chip.gateFree (c : Chip) (u : Nat) : Bool :=
  if u < 8 then c.peState u == 1 || c.peState u == 2
  else if u < 16 then c.fld (ETH_Pn_CTL (u - 8)) 3 0 == 0
  else (List.range 8).all fun k => !c.skEn ((u - 16) * 8 + k)

/-- Whether the rail of a unit's sequencer step has failed (R479). -/
def Chip.railFailed (c : Chip) (u : Nat) : Bool :=
  if u < 8 then false
  else if u < 12 then c.bit PWR_STAT 17
  else if u < 16 then c.bit PWR_STAT 18
  else false

/-- A cluster's registers, Skippers and pack FIFOs as SKP reset leaves them (R345). -/
def Chip.resetCluster (c : Chip) (cl : Nat) : Chip :=
  let lo := 0x400B0000 + cl * 0x2000
  let pf := PFn_CFG (cl * 8)
  let own (key : Nat) : Bool :=
    let a := key % 2 ^ 32
    (decide (lo ≤ a) && decide (a < lo + 0x2000)) || (decide (pf ≤ a) && decide (a < pf + 0x100))
  { c.setImage (9 + cl) .reset with
    regs := c.regs.filter fun e => !own e.1
    staged := c.staged.filter fun e => !own e.1
    latched := c.latched.filter fun e => !own e.1
    skp := { c.skp with
      sk := c.skp.sk.filter fun e => e.1 / 8 != cl
      pf := c.skp.pf.filter fun e => e.1 / 8 != cl } }

/-- A unit loses power at once (R481, R258). -/
def Chip.gateDown (c : Chip) (u : Nat) : Chip :=
  let c1 := c.setBit PWR_GSTAT u false
  if u < 8 then c1.setPeState u 0 else c1

/-- A write of PWR_GATE (R481). -/
def gateWrite (c : Chip) (m : Nat) (v : W32) : Chip :=
  if m ≠ 0 then c.refuse
  else
    let old := c.reg PWR_GATE
    let new := v &&& gateMask
    let down := (List.range 20).filter fun u => wbit old u && !wbit new u
    let up := (List.range 20).filter fun u => !wbit old u && wbit new u
    if (down.any fun u => !c.gateFree u) || up.any c.railFailed then (c.pwrFlag 4 5).done
    else
      let c1 := down.foldl (fun c u => c.gateDown u) (c.setReg PWR_GATE new)
      (up.foldl (fun c u => c.setPwr fun p => { p with upAt := tblSet 0 p.upAt u c.tmu.raw }) c1).done

/-- A unit has powered up, 20 µs after its bit was set (R481, R258, R345). -/
def unitPowerUp (c : Chip) (u : Nat) : Chip :=
  if c.bit PWR_GATE u ∧ c.bit PWR_GSTAT u = false ∧ tblGet 0 c.pwr.upAt u + 20000 ≤ c.tmu.raw then
    let c1 := (c.setBit PWR_GSTAT u true).raise 5 0
    if u < 8 then ((c1.clearMem (peMem u) 0x40000).resetCore (u + 3)).setPeState u 1
    else if u < 16 then c1
    else c1.resetCluster (u - 16)
  else c

/-- A temperature reading in 0.25 °C steps: crossing the limit upward is reported (R482). -/
def temperature (c : Chip) (t : Int) : Chip :=
  let lim := sext 12 (c.fld PWR_TEMPLIM 11 0)
  let old := sext 12 (c.fld PWR_TEMP 11 0)
  let c1 := c.setReg PWR_TEMP (w32 (wrap 12 t))
  if old ≤ lim ∧ lim < t then c1.pwrFlag 3 3 else c1

/-- The main PLL locks (R483). -/
def pllLock (c : Chip) : Chip :=
  if c.bit PWR_STAT 8 ∨ (c.bit PWR_STAT 31 ∧ c.seqUse 0 = false) then c.setBit PWR_STAT 28 true else c

/-- The main PLL loses lock (R484). -/
def pllLoss (c : Chip) : Chip :=
  if c.bit PWR_STAT 28 then (c.setBit PWR_STAT 28 false).pwrFlag 1 4 else c

/-! ### Resets -/

/-- Reset causes by their bit in SYS_RSTCAUSE (R487). -/
def causePor : Nat := 0
def causeBor : Nat := 1
def causePin : Nat := 2
def causeSw : Nat := 3
def causeWdt : Nat := 4

/-- Registers of the sequencer, the monitors and the buck, which pin and software resets leave (R478, R486, R507). -/
def keepsMonitors (a : Nat) : Bool :=
  a == PWR_STAT || a == PWR_AVS || a == PWR_VMON || a == PWR_TEMP || a == SYS_IOBSTAT ||
    (decide (PWR_SEQ_CFG 0 ≤ a) && decide (a ≤ PWR_SEQ_CFG 3))

/-- Registers that a watchdog reset leaves: PWR's, the banks' own, the sensed ranges (R486, R507). -/
def keepsWatchdog (a : Nat) : Bool :=
  (decide (0x40010000 ≤ a) && decide (a < 0x40020000)) || a == SYS_IOBSTAT ||
    (decide (MEM_BSTAT 0 ≤ a) && decide (a ≤ MEM_BSTAT 31))

/-- Memory that every reset leaves: MRAM and the boot flash (R486). -/
def keepsMemory (a : Nat) : Bool := regionOf a == .mram || regionOf a == .flash

/-- An engine that a reset leaves powered is STOPPED (R258, R486; DESIGN CHOICE, log entry 182). -/
def Chip.poweredStopped (c : Chip) : Chip :=
  (List.range 8).foldl (fun d n => if d.bit PWR_GSTAT n then d.setPeState n 1 else d) c

/-- The device after a reset with a cause (R486): everything at reset but what the source's row leaves. Fuses,
credentials, MRAM, the flash and what lies outside the device are never reset. -/
def deviceReset (c : Chip) (cause : Nat) : Chip :=
  let wdt := cause == causeWdt
  let off := cause == causePor || cause == causeBor
  let mramOnly (ws : List Nat) : List Nat := ws.filter fun w => wdt || regionOf w == .mram
  let supFreezes := c.xdm.freezes.filter fun e => wdt && e.unit == 0
  { Chip.reset with
    regs := c.regs.filter fun e => if off then false else if wdt then keepsWatchdog e.1 else keepsMonitors e.1
    mem := c.mem.filter fun e => keepsMemory e.1 || (wdt && match regionOf e.1 with
      | .sram _ => true
      | _ => false)
    free := c.free
    memc := { MemState.reset with
      ceWords := mramOnly c.memc.ceWords
      ueWords := mramOnly c.memc.ueWords
      spares := if wdt then c.memc.spares else []
      undef := if wdt then c.memc.undef else [] }
    xdm := { XdmState.reset with freezes := supFreezes }
    pin := c.pin
    sec := { SecState.reset with
      fuses := c.sec.fuses
      keys := c.sec.keys
      passwords := c.sec.passwords
      claimKey := c.sec.claimKey
      fails := c.sec.fails
      locks := c.sec.locks }
    pwr := { PwrState.reset with
      seq := if off then .idle else c.pwr.seq
      en := if off then 0 else c.pwr.en
      pg := c.pwr.pg
      buckOn := !off && c.pwr.buckOn
      buckDis := c.pwr.buckDis
      avsMoving := !off && c.pwr.avsMoving
      avsFrom := if off then 0 else c.avsTarget
      cause := cause
      supStop := wdt && (c.core.supStopped || (c.xdm.freezes.any fun e => e.unit == 0))
      fromOff := off }
    tst := { TstState.reset with ir := c.tst.ir, dr := c.tst.dr } }

/-- The device goes to RESET, with what EVR was writing cut off (R464, R486, R489). -/
def goReset (c : Chip) (cause : Nat) : Chip := (deviceReset c.evrCut cause).poweredStopped.raise 0 0

/-- A supply under-voltage: OFF, with the enables low and the buck stopped (R475, R480). -/
def brownOut (c : Chip) : Chip := (deviceReset c.evrCut causeBor).setState 0

/-- VIN_BUCK and VDD_IO33 rise above 2.90 V (R489); the voltage that the monitor of VIN_BUCK then shows is a free value
(R495; DESIGN CHOICE, log entry 182). -/
def powerOn (c : Chip) : Chip :=
  if c.sysState = 0 then
    let (f, c1) := c.takeFree
    (goReset c1 c.pwr.cause).setFld PWR_VMON 31 16 (2900 + f % 62636)
  else c

/-- RESET_N low for at least 1 µs (R486). -/
def pinReset (c : Chip) : Chip := if c.sysState = 0 then c else goReset c causePin

/-- A write of PWR_RST (R486). -/
def rstWrite (c : Chip) (m : Nat) (v : W32) : Chip :=
  if m ≠ 0 then c.refuse else if wfld v 15 0 = 0x5EED then (goReset c causeSw).done else c.done

/-! ### The watchdog -/

/-- The watchdog's limit in ticks (R488). -/
def Chip.wdLimit (c : Chip) : Nat := c.fld PWR_WDT_CFG 9 0 * 1000000

/-- Milliseconds left (R495). -/
def Chip.wdLeft (c : Chip) : Nat :=
  match c.pwr.wd with
  | .off => c.fld PWR_WDT_CFG 9 0
  | .stopped l => l
  | .running s _ => c.fld PWR_WDT_CFG 9 0 - (c.tmu.raw - s) / 1000000

/-- The watchdog stops counting (R488). -/
def Chip.wdStop (c : Chip) : Chip := c.setPwr fun p => { p with wd := .stopped c.wdLeft }

/-- Whether the ROM service is given (R491). -/
def Chip.romService (c : Chip) : Bool := c.bit SYS_BOOT 31 && (c.image 0).state != 2

/-- Whether the boot ROM runs, in BOOT or for its service (R488, R490, R491). -/
def Chip.romServes (c : Chip) : Bool :=
  (c.sysState == 2 || c.romService) && !c.core.supStopped && (tblGet none c.core.frozen 0).isNone

/-- The watchdog restarted, where it counts (R488). -/
def Chip.wdKicked (c : Chip) : Chip :=
  match c.pwr.wd with
  | .running _ _ => c.setPwr fun p => { p with wd := .running c.tmu.raw false }
  | _ => c

/-- A write of PWR_WDT_KICK (R488). A SUP that is stopped or frozen serves it no more (R42, R235). -/
def wdKick (c : Chip) (m : Nat) (v : W32) : Chip :=
  if m ≠ 0 then c.refuse
  else if c.core.supStopped ∨ (tblGet none c.core.frozen 0).isSome then c.done
  else if v = 0xA5 then c.wdKicked.done
  else (c.pwrFlag 5 6).done

/-- Half the limit has passed without a kick; the boot ROM serves the watchdog itself (R38, R488). -/
def wdHalf (c : Chip) : Chip :=
  match c.pwr.wd with
  | .running s false =>
    if c.wdLimit < 2 * (c.tmu.raw - s) then
      if c.romServes then c.wdKicked else (c.setPwr fun p => { p with wd := .running s true }).raise 6 0
    else c
  | _ => c

/-- The watchdog expires, unless a kick arrives in its last tick; the boot ROM serves it itself (R38, R488). -/
def wdReset (c : Chip) : Chip :=
  match c.pwr.wd with
  | .running s _ =>
    if c.wdLimit < c.tmu.raw - s then (if c.romServes then c.wdKicked else goReset c causeWdt) else c
  | _ => c

/-- A write of PWR_WDT_CFG: a limit outside 10 to 1,000 is not taken (R488). -/
def wdCfgWrite (c : Chip) (m : Nat) (v : W32) : Chip :=
  if m ≠ 0 then c.refuse
  else if 10 ≤ wfld v 9 0 ∧ wfld v 9 0 ≤ 1000 then c.plainWrite m PWR_WDT_CFG v else c.done

/-! ### Device states -/

/-- Instructions of the TAP that hold the device in RESET (R525). -/
def extestFamily (ir : Nat) : Bool := [0x00, 0x03, 0x04, 0x05, 0x06].contains ir

/-- Whether everything that RESET waits for has come about (R489). -/
def Chip.resetDone (c : Chip) : Bool :=
  c.sysState == 1 && c.bit PWR_STAT 31 && (c.bit PWR_STAT 8 || !c.seqUse 0) && c.bit PWR_STAT 28 &&
    c.evr.op != some .scan && !extestFamily c.tst.ir

/-- RESET ends (R485, R487, R489, R504, R533): the HOSTSEL and BOOTSRC levels are sampled. -/
def resetExit (c : Chip) (hostsel : Nat) (bootsrc : Bool) : Chip :=
  if c.resetDone then
    let c1 := if c.bit MEM_STAT 0 then loadRepairMap c else c.setBit MEM_STAT 2 true
    let c2 := c1.setReg SYS_RSTCAUSE c1.causeWord
    let c3 := c2.setReg SYS_STRAP (w32 (at_ (b2n c2.pwr.buckDis) 3 + at_ (b2n bootsrc) 2 + hostsel % 4))
    let c4 := (c3.setFld SYS_BOOT 19 16 c3.sec.fuses.speed.toNat).setFld HIF_STAT 17 16 (hostsel % 4)
    let c5 := if c4.parallelHost then (List.range 32).foldl (fun c i => c.setFld (SYS_PIN (96 + i)) 3 0 7) c4 else c4
    let c6 := { c5 with tmu := TmuState.reset, evr := { c5.evr with secAt := 1000000000 } }
    (c6.setPwr fun p => { p with wd := .running 0 false, avsFrom := c5.avsTarget, avsAt := 0 }).setState 2
  else c

/-- A task core stopped: its contexts HALT, and none of its tasks is active any more (R489). -/
def Chip.stopTc (c : Chip) (core : Nat) : Chip := (c.tasksCut core).haltCore core

/-- The timed outputs, shafts and angle events stopped: no edge, sample or firing comes of them (R489). -/
def Chip.stopAngles (c : Chip) : Chip :=
  let c1 := (List.range 32).foldl (fun c n =>
    if c.bit (TMU_TOn_CFG n) 15 then (toCancel c n).setBit (TMU_TOn_CFG n) 15 false else c) c
  let c2 := (List.range 16).foldl (fun c n => if (c.shaft n).st = .idle then c else shaftCmdWrite c n 4) c1
  (List.range 1024).foldl (fun c n =>
    if c.bit (ANG_AEn_CFG n) 31 then aeWrite c 0 (ANG_AEn_CFG n) (c.reg (ANG_AEn_CFG n) &&& 0x7FFFFFFF) else c) c2

/-- The units outside the core set are stopped, and gated where PWR_GATE allows (R489). -/
def Chip.stopUnits (c : Chip) : Chip :=
  let c1 := (List.range 8).foldl (fun c n => if c.peState n = 3 then engineStop c n else c) c
  let c2 := (List.range 64).foldl xdStop (((c1.tskLeaveRun.stopTc 1).stopTc 2).stopAngles)
  let c3 := (List.range 32).foldl skDisable c2
  let c4 := (List.range 4).foldl (fun c n => canCtlWrite c n 0) c3
  let c5 := (List.range 32).foldl (fun c n => if c.axState n = 0 then c else axisCmdWrite c 0 n 0x40) c4
  let c6 := (List.range 8).foldl (fun c p => ethWrite c 0 (ETH_Pn_CTL p) (c.reg (ETH_Pn_CTL p) &&& ~~~0xF)) c5
  let keep := (List.range 20).filter fun u => c6.bit PWR_GATE u && !c6.gateFree u
  gateWrite c6 0 (w32 (keep.map fun u => 2 ^ u).sum)

/-- A change of device state that the table of R489 allows to SUP, or none. -/
def Chip.stateChange (c : Chip) (t : Nat) : Option Chip :=
  match c.sysState, t with
  | 2, 3 => if c.fld SYS_BOOT 3 0 = 0 then some (c.setState 3) else none
  | 3, 4 => some (c.setState 4)
  | 4, 5 => some (c.setState 5)
  | 5, 4 =>
    let c1 := (List.range 8).foldl (fun c n => if c.peState n = 3 then engineStop c n else c) c
    some (c1.tskLeaveRun.setState 4)
  | 4, 3 => some (c.stopUnits.setState 3)
  | 5, 3 => some (c.stopUnits.setState 3)
  | _, _ => none

/-- A write of SYS_STATE (R489). -/
def sysStateWrite (c : Chip) (m : Nat) (v : W32) : Chip :=
  let t := wfld v 2 0
  if m ≠ 0 then c.refuse
  else if t = c.sysState then c.done
  else match c.stateChange t with
    | some c1 => c1.done
    | none => (c.setBit SYS_FLAGS 0 true).done

/-! ### Boot -/

/-- The boot ROM stops in BOOT with an error: SUP is halted, and the watchdog stops (R488, R492). -/
def Chip.bootError (c : Chip) (e : Nat) : Chip := ((c.setFld SYS_BOOT 3 0 e).haltCore 0).wdStop

/-- A segment of a master written by the boot ROM or supervisor firmware. -/
def Chip.setSeg (c : Chip) (m s base size rights : Nat) : Chip :=
  (c.setReg (XDM_SEGm_BASEs m s) (w32 (base + rights))).setReg (XDM_SEGm_SIZEs m s) (w32 size)

/-- The rings and the mailbox path prepared (R420, R421, R426). -/
def Chip.prepareRings (c : Chip) : Chip :=
  let c1 := ((c.setReg (MEM_OGRP 15) 0x801).setReg (MEM_BOWN 31) 15).setSeg 11 15 0x10F80000 0x80000 3
  let c2 := (c1.setReg (MBn_CFG 0) 0xC000000B).setReg (MBn_CFG 1) 0xC00000B0
  c2.setBit HIF_STAT 29 (c2.bit (MEM_BSTAT 31) 31)

/-- The march of all banks at start-up (R490): the march engine's segment covers SRAM (DESIGN CHOICE, log entry 54). -/
def Chip.bootMarch (c : Chip) (xs : List BankResult) : Chip :=
  let c1 := (c.setSeg 14 0 0x10000000 0x1000000 3).setReg MEM_MARCH_BANKS 0xFFFFFFFF
  marchDone (marchCtlWrite c1 0 0x80000008) xs

/-- The image in a flash slot, and whether the boot ROM runs it (R490, R448). -/
def Chip.flashImage (c : Chip) (slot : Nat) : Option (List Byte) :=
  let a := 0x80000000 + slot * 0x1000000
  let len := (c.word (a + 20)).toNat
  if c.bytes a 6 ≠ [0x50, 0x5A, 0x49, 0x4D, 1, 0] ∨ 393216 < len then none
  else
    let img := c.bytes a len
    if (c.imgVerify 0 0xFFFFFFFF img).isNone then some img else none

/-- A verified supervisor image is copied into SUP local memory and run from its start; the boot ROM serves the watchdog
a last time (R488, R490; DESIGN CHOICE, log entry 54). -/
def Chip.runFirmware (c : Chip) (img : List Byte) : Chip :=
  let c1 := (imgSections img).foldl (fun c s => if s.ty = 1 then c.setBytes (0x30900000 + s.addr) s.data else c) c
  let h := imgHead img
  let c2 := (c1.resetCore 0).setCtx 0 0 { Ctx.reset with st := .ready, pc := 0x30900000 }
  let c3 := c2.wdKicked.setImage 0 (imgInfo img 0 2)
  { c3 with sec := { c3.sec with supAdvance := if h.flags = 1 then some h.counter else none } }

/-- The host path is set up and CHRYSALIS written (R490, R491, R504). -/
def Chip.serve (c : Chip) : Chip :=
  let c1 := c.prepareRings.setSeg 13 0 0 0xFFFFFFC0 3
  { c1 with hif := { c1.hif with pathUp := true } }.setState 3

/-- The ROM service starts once the host path is up; until then the boot ROM waits for it (R491, R492). -/
def Chip.romWaits (c : Chip) (hostUp : Bool) : Chip :=
  if hostUp then (c.setBit SYS_BOOT 31 true).serve
  else if c.pwr.hostWait.isSome then c else c.setPwr fun p => { p with hostWait := some c.tmu.raw }

/-- The boot ROM's steps (R490 to R492), with supervisor firmware's or the ROM service's start. -/
def bootRomRun (c : Chip) (f : BootFacts) : Chip :=
  if c.sysState ≠ 2 ∨ c.fld SYS_BOOT 3 0 ≠ 0 ∨ c.hif.pathUp then c
  else if c.pwr.hostWait.isSome then c.romWaits f.hostUp
  else
    let wdt := c.bit SYS_RSTCAUSE 4
    let c1 := if wdt then c else c.bootMarch f.march
    if !f.lockstepOk then c1.bootError 3
    else if !f.secOk then c1.bootError 1
    else if c1.bit (MEM_BSTAT 0) 31 || c1.bit (MEM_BSTAT 1) 31 then c1.bootError 2
    else
      let a := if c1.bit SYS_STRAP 2 then none else c1.flashImage 0
      let b := if c1.bit SYS_STRAP 2 || a.isSome then none else c1.flashImage 1
      match a, b with
      | some img, _ => (c1.runFirmware img).serve
      | none, some img => ((c1.runFirmware img).setBit SYS_BOOT 30 true).serve
      | none, none =>
        (if c1.bit SYS_STRAP 2 then c1 else c1.imgFailed).romWaits f.hostUp

/-- No verified image and no host path within 1 s (R38, R492). -/
def hostPathTimeout (c : Chip) : Chip :=
  match c.pwr.hostWait with
  | none => c
  | some s =>
    if c.sysState = 2 ∧ c.fld SYS_BOOT 3 0 = 0 ∧ c.bit SYS_STRAP 2 = false ∧ c.hif.pathUp = false ∧
      s + 1000000000 < c.tmu.raw then c.bootError 4
    else c

/-! ### Registers -/

/-- What a SYS register shows where it is not a stored value; SYS_GPIO_IN is read by `gpioRead`. -/
def sysLive (c : Chip) (a : Nat) : W32 := c.reg a

/-- A write to a SYS register. -/
def sysWrite (c : Chip) (m a : Nat) (v : W32) : Chip :=
  let o := a - 0x40000000
  if o = 4 then sysStateWrite c m v
  else if 0x1000 ≤ o ∧ o < 0x1200 then pinWrite c m ((o - 0x1000) / 4) v
  else if 0x1230 ≤ o ∧ o < 0x1240 then gpioSet c ((o - 0x1230) / 4) v
  else if 0x1240 ≤ o ∧ o < 0x1250 then gpioClr c ((o - 0x1240) / 4) v
  else c.plainWrite m a v

/-- What a PWR register shows where it is not a stored value. -/
def pwrLive (c : Chip) (a : Nat) : W32 := if a = PWR_WDT_LEFT then w32 c.wdLeft else c.reg a

/-- A write to a PWR register. -/
def pwrWrite (c : Chip) (m a : Nat) (v : W32) : Chip :=
  let o := a - 0x40010000
  if o = 0x08 then avsWrite c m v
  else if o = 0x18 then gateWrite c m v
  else if 0x20 ≤ o ∧ o < 0x30 then seqCfgWrite c m ((o - 0x20) / 4) v
  else if o = 0x40 then wdCfgWrite c m v
  else if o = 0x44 then wdKick c m v
  else if o = 0x50 then rstWrite c m v
  else c.plainWrite m a v

end Sys2Proof.Machine
end

