-- ==== Sys2Proof/Machine/Tst.lean ====
section
/-!
DEFINITION. TST: the PRBS generators and checkers (R519 to R521), the TAP's instruction (R522 to R525), and
TST's registers (R529, R530).
-/
namespace Sys2Proof.Machine

/-! ### PRBS -/

/-- The two delays of a pattern's recurrence (R519): the register's length and the second tap. -/
def prbsTaps (p : Nat) : Nat × Nat :=
  match p with
  | 0 => (7, 6)
  | 1 => (9, 5)
  | 2 => (15, 14)
  | 3 => (23, 18)
  | _ => (31, 28)

/-- The highest pattern of a link (R519). -/
def prbsTop (l : Nat) : Nat := if 4 ≤ l ∧ l ≤ 9 then 4 else 2

/-- The bit that follows a history held with its newest bit lowest. -/
def prbsNext (taps : Nat × Nat) (h : Nat) : Bool := h.testBit (taps.1 - 1) != h.testBit (taps.2 - 1)

/-- A bit put into a history. -/
def prbsShift (taps : Nat × Nat) (h : Nat) (b : Bool) : Nat := (2 * h + b2n b) % 2 ^ taps.1

def Chip.prbs (c : Chip) (l : Nat) : Prbs := tblGet .reset c.tst.prbs l

def Chip.setPrbs (c : Chip) (l : Nat) (p : Prbs) : Chip :=
  { c with tst := { c.tst with prbs := tblSet .reset c.tst.prbs l p } }

/-- The next bit that a link's generator sends (R519, R520). -/
def Chip.prbsSend (c : Chip) (l : Nat) : Bool × Chip :=
  let p := c.prbs l
  let taps := prbsTaps (c.fld (TST_PRBSl_CTL l) 3 0)
  let b := prbsNext taps p.gen
  (b != p.inject, c.setPrbs l { p with gen := prbsShift taps p.gen b, inject := false })

/-- One bit checked while the checker is locked (R520). -/
def Chip.prbsLocked (c : Chip) (l : Nat) (b : Bool) : Chip :=
  let p := c.prbs l
  let taps := prbsTaps (c.fld (TST_PRBSl_CTL l) 3 0)
  let want := prbsNext taps p.reg != c.bit (TST_PRBSl_STAT l) 2
  let wrong := b != want
  let c1 := c.setReg64 (TST_PRBSl_BITS_LO l) (c.reg64 (TST_PRBSl_BITS_LO l) + 1)
  let c2 := if wrong then
      let c' := c1.inc (TST_PRBSl_ERR l)
      if c'.reg (TST_PRBSl_ERR l) = 0xFFFFFFFF then c'.setBit (TST_PRBSl_STAT l) 0 true else c'
    else c1
  let errs := p.errs + b2n wrong
  if 256 < errs then
    (c2.setBit (TST_PRBSl_STAT l) 1 false).setPrbs l { p with have_ := 0, good := 0, bad := 0, bits := 0, errs := 0 }
  else
    let full := p.bits + 1 == 1024
    c2.setPrbs l { p with
      reg := prbsShift taps p.reg want
      bits := if full then 0 else p.bits + 1
      errs := if full then 0 else errs }

/-- One received bit at a checker (R520). -/
def Chip.prbsBit (c : Chip) (l : Nat) (b : Bool) : Chip :=
  let p := c.prbs l
  let taps := prbsTaps (c.fld (TST_PRBSl_CTL l) 3 0)
  if c.bit (TST_PRBSl_STAT l) 1 then c.prbsLocked l b
  else if p.have_ < taps.1 then c.setPrbs l { p with reg := prbsShift taps p.reg b, have_ := p.have_ + 1 }
  else
    let right := b == prbsNext taps p.reg
    let good := if right then p.good + 1 else 0
    let bad := if right then 0 else p.bad + 1
    let c1 := c.setPrbs l { p with reg := prbsShift taps p.reg b, good := good, bad := bad, bits := 0, errs := 0 }
    if good = 64 then (c1.setBit (TST_PRBSl_STAT l) 1 true).setBit (TST_PRBSl_STAT l) 2 false
    else if bad = 64 then (c1.setBit (TST_PRBSl_STAT l) 1 true).setBit (TST_PRBSl_STAT l) 2 true
    else c1

/-- A stretch of bits sent and received on a running link; with the internal loop the generator's own bits
come back (R519, R520). -/
def prbsRun (c : Chip) (l : Nat) (rx : List Bool) : Chip :=
  if c.bit (TST_PRBSl_CTL l) 31 then
    let inside := c.fld (TST_PRBSl_CTL l) 9 8 == 1
    rx.foldl (fun c b =>
      let (t, c1) := c.prbsSend l
      c1.prbsBit l (if inside then t else b)) c
  else c

/-- Whether a run on a link is refused (R521). -/
def Chip.prbsRefused (c : Chip) (l pattern : Nat) : Bool :=
  (decide (l < 8) && c.fld (ETH_Pn_CTL l) 3 0 != 0) ||
  (decide (10 ≤ l) && c.bit (CANn_CTL (l - 10)) 31) ||
  ((l == 8 || l == 9) && c.fld HIF_STAT 17 16 == 0) ||
  (decide (l < 4) && c.bit PWR_STAT 17) || (decide (4 ≤ l) && decide (l ≤ 9) && c.bit PWR_STAT 18) ||
  decide (prbsTop l < pattern)

/-- A link's generator and checker start (R519, R521). -/
def Chip.prbsStart (c : Chip) (l : Nat) (v : W32) : Chip :=
  let c1 := (c.setReg (TST_PRBSl_CTL l) (v &&& 0x8000330F)).setReg (TST_PRBSl_STAT l) 0
  let c2 := (c1.setReg64 (TST_PRBSl_BITS_LO l) 0).setReg (TST_PRBSl_ERR l) 0
  c2.setPrbs l { Prbs.reset with gen := 2 ^ (prbsTaps (wfld v 3 0)).1 - 1 }

/-- A write of TST_PRBSl_CTL: INJECT on a running link, RUN = 1, or RUN = 0 (R520, R521; DESIGN CHOICE, log entry 55).
-/
def prbsCtlWrite (c : Chip) (m l : Nat) (v : W32) : Chip :=
  if m ≠ 0 then c.refuse
  else if wbit v 30 && c.bit (TST_PRBSl_CTL l) 31 then (c.setPrbs l { c.prbs l with inject := true }).done
  else if wbit v 31 then
    if c.prbsRefused l (wfld v 3 0) then (c.setBit TST_FLAGS 0 true).done else (c.prbsStart l v).done
  else (c.setReg (TST_PRBSl_CTL l) (v &&& 0x0000330F)).done

/-! ### The TAP -/

/-- The instruction that a code selects (R523). -/
def Chip.tapCode (c : Chip) (code : Nat) : Nat :=
  if (code = 0x07 ∨ code = 0x10) ∧ c.sec.fuses.lockDbg then 0xFF
  else if [0x00, 0x01, 0x02, 0x03, 0x04, 0x05, 0x06, 0x07, 0x10].contains code then code else 0xFF

/-- An instruction takes effect: IDCODE and BOOTSTAT load the data register, and the EXTEST family holds the
device in RESET (R522, R523, R525). -/
def tapInstruction (c : Chip) (code : Nat) : Chip :=
  let ir := c.tapCode code
  let dr := match ir with
    | 0x02 => 0x11648A3F
    | 0x07 => (c.reg SYS_BOOT).toNat
    | _ => c.tst.dr
  let c1 := { c with tst := { c.tst with ir := ir, dr := dr } }
  if extestFamily ir && !extestFamily c.tst.ir && c.sysState != 0 then goReset c1 causePin else c1

/-- Test-Logic-Reset loads IDCODE (R523). -/
def tapReset (c : Chip) : Chip := tapInstruction c 0x02

/-! ### Registers -/

/-- What a TST register shows where it is not a stored value (R530). -/
def tstLive (c : Chip) (a : Nat) : W32 :=
  if a = TST_STAT then wsetBit (c.reg a) 0 c.sec.fuses.lockDbg else c.reg a

/-- A write to a TST register. -/
def tstWrite (c : Chip) (m a : Nat) (v : W32) : Chip :=
  let o := a - 0x40150000
  if 0x100 ≤ o ∧ o < 0x2C0 ∧ o % 0x20 = 0 then prbsCtlWrite c m ((o - 0x100) / 0x20) v else c.plainWrite m a v

end Sys2Proof.Machine
end

