-- ==== Sys2Proof/Machine/Bus.lean ====
section
/-!
DEFINITION. The fabric: reads and writes of registers by a master (R10 to R15, R58, R78, R316, R345, R348), accesses to
any address (R11, R13, R32), and the resolution of a freeze (R374, R376, R434, R526).
-/
namespace Sys2Proof.Machine

/-! ### Freezes -/

/-- The oldest freeze is resolved by action and unit, and its entry removed (R374, R376). A debug access that is
resumed is made again by `regWrite`. -/
def freezeResolve (c : Chip) (action unit : Nat) : Chip :=
  match c.xdm.freezes with
  | [] => c
  | e :: es =>
    if e.unit ≠ unit ∨ action = 0 then c
    else
      let c1 := { c with xdm := { c.xdm with freezes := es } }
      if unit ≤ 0x0A then coreResolve c1 unit action e.ofs
      else if unit = 0x0B then c1.setBit HIF_STAT 30 false
      else if unit = 0x10 then secResolve c1 action
      else if unit = 0x11 then marchResolve c1 action
      else if unit = 0x12 then
        if action = 1 then c1 else
          let req := c1.tst.frozen.getD 0
          { c1 with tst := { c1.tst with frozen := none, dr := 2 ^ 64 + req % 2 ^ 64 } }
      else if unit = 0x13 then motResolve c1 action
      else if 0x14 ≤ unit ∧ unit ≤ 0x17 then canResolve c1 (unit - 0x14) action
      else if 0x20 ≤ unit ∧ unit ≤ 0x3F then rqResolve c1 (unit - 0x20) action
      else if 0x40 ≤ unit ∧ unit ≤ 0x4F then tqResolve c1 (unit - 0x40) action
      else if 0x80 ≤ unit ∧ unit ≤ 0xBF then xdResolve c1 (unit - 0x80) action
      else c1

/-- A write of XDM_FRZ_RESOLVE (R376, R386). -/
def freezeResolveWrite (c : Chip) (m : Nat) (v : W32) : Chip :=
  if m ≠ 0 then c.refuse else (freezeResolve c (wfld v 31 30) (wfld v 7 0)).done

/-! ### Reads -/

/-- What a register shows to a master, before latches (R10): the window by its number in the map (R33). -/
def Chip.regLive (c : Chip) (m a : Nat) : W32 :=
  match a / 0x10000 % 0x100 with
  | 0x00 => sysLive c a
  | 0x01 => pwrLive c a
  | 0x02 => tmuLive c a
  | 0x03 => angLive c a
  | 0x04 => ethLive c a
  | 0x05 => ethLive c a
  | 0x06 => swxLive c a
  | 0x07 => swxLive c a
  | 0x08 => canLive c a
  | 0x09 => canLive c a
  | 0x0A => motLive c a
  | 0x0B => skpLive c a
  | 0x0C => memLive c m a
  | 0x0D => xdmLive c a
  | 0x0F => if a < 0x400F8000 then mbxLive c a else evtLive c a
  | 0x10 => secLive c a
  | 0x12 => tskLive c a
  | 0x13 => peLive c a
  | 0x15 => tstLive c a
  | _ => c.reg a

/-- Bits of a register that a read may show; a register with none is write-only (R10). -/
def RegRow.shows (r : RegRow) : Nat := r.rw ||| r.so ||| r.w1c ||| r.w1s ||| r.rc ||| r.ro

/-- Offsets into the shaft, axis and pack FIFO blocks. -/
def shaftOfs (a : Nat) : Option Nat := if 0x40031000 ≤ a ∧ a < 0x40032000 then some (a % 0x100) else none
def axisOfs (a : Nat) : Option Nat := if 0x400A1000 ≤ a ∧ a < 0x400A3000 then some (a % 0x100) else none
def pfOfs (a : Nat) : Option Nat := if 0x400B8000 ≤ a ∧ a < 0x400B8400 then some (a % 0x20) else none

/-- The companions that a read of a register latches: those of R15, and the wider groups of R78, R83 and R316. -/
def latches (a : Nat) : List Nat :=
  match shaftOfs a, axisOfs a with
  | some 0x20, _ => [4, 8, 12, 16, 20]
  | some 0x80, _ => [4, 8, 12, 16, 20, 24, 28, 32]
  | _, some 0xA0 => [4, 8, 12, 16]
  | _, _ =>
    match regRow a with
    | some r => r.comps
    | none => []

/-- Whether a register belongs to a group that latches for each master by itself (R58, R78, R83, R316, R348). -/
def latchPerMaster (a : Nat) : Bool :=
  (decide (a / 0x10000 = 0x4002) &&
    (let o := a % 0x10000
     [0x0C, 0x14, 0x18, 0x20].contains o ||
       (decide (0x100 ≤ o ∧ o < 0x200) && [0x0C, 0x10, 0x20, 0x30].contains (o % 0x80)))) ||
  (match shaftOfs a with
    | some o => decide (0x24 ≤ o ∧ o ≤ 0x34) || decide (0x84 ≤ o ∧ o ≤ 0xA0)
    | none => false) ||
  (match axisOfs a with
    | some o => decide (0xA4 ≤ o ∧ o ≤ 0xB0)
    | none => false) ||
  (match pfOfs a with
    | some o => o == 0x14 || o == 0x18
    | none => false)

/-- Whether a read of a register returns a latched part (R15). An angle event's registers return what was last
written at once (R92). -/
def isLatched (a : Nat) : Bool :=
  if 0x40034000 ≤ a ∧ a < 0x4003C000 then false
  else latchPerMaster a || (match regRow a with
    | some r => r.isComp
    | none => false)

/-- The key of a latch: the register, and the master where masters latch apart. -/
def latchKey (m a : Nat) : Nat := if latchPerMaster a then a + (m + 1) * 2 ^ 32 else a

def Chip.latch (c : Chip) (m a : Nat) (v : W32) : Chip :=
  { c with latched := tblSet (regReset a) c.latched (latchKey m a) v }

/-- The part that a read of a companion returns: the latched one, or, before its _LO has first been read, the
register's reset value (DESIGN CHOICE, log entry 21). -/
def Chip.latchedPart (c : Chip) (m a : Nat) : W32 := tblGet (regReset a) c.latched (latchKey m a)

/-- Whether a register lies in a Skipper cluster that PWR gates (R345). -/
def Chip.clusterGated (c : Chip) (a : Nat) : Bool :=
  if a / 0x10000 ≠ 0x400B then false
  else
    let o := a % 0x10000
    if o < 0x8000 then !c.bit PWR_GSTAT (16 + o / 0x2000)
    else if o < 0x8400 then !c.bit PWR_GSTAT (16 + (o - 0x8000) / 0x100)
    else false

/-- A read of a register that its row in the map gives whole (R10, R12, R15). -/
def Chip.plainRead (c : Chip) (m a : Nat) : Chip :=
  match regRow a with
  | none => c.answer (.ok 0)
  | some r =>
    if r.shows = 0 then c.answer (.ok 0)
    else if isLatched a then c.answer (.ok (c.latchedPart m a).toNat)
    else
      let v := if 0x40034000 ≤ a ∧ a < 0x4003C000 ∧ r.isComp then c.stagedPart a else c.regLive m a
      let c1 := (latches a).foldl (fun c' d => c'.latch m (a + d) (c.regLive m (a + d))) c
      let keep := BitVec.ofNat 32 r.rc
      let c2 := if r.rc = 0 then c1 else c1.setReg a ((c1.reg a &&& ~~~keep) ||| (regReset a &&& keep))
      c2.answer (.ok v.toNat)

/-- A read of PFn_DATA_LO (R348, R349): the word, with its upper half and tag latched for the master. -/
def packRead (c : Chip) (m n : Nat) : Chip :=
  if c.fld (PFn_CFG n) 5 4 ≠ 0 then c.refuse
  else
    let (w, c1) := c.pfRead n
    let c2 := (c1.latch m (PFn_DATA_LO n + 4) (hi32 w.data)).latch m (PFn_DATA_LO n + 8) (w32 w.tag)
    c2.answer (.ok (w.data % 2 ^ 32))

/-- A read of the last generated sample's first word (R83). -/
def sampleOutRead (c : Chip) (m n : Nat) : Chip := outRead (c.plainRead m (ANG_SHn_OUT n 0)) n

/-- A read of a register by a master, at an aligned address of a peripheral window. -/
def regRead (c : Chip) (m a : Nat) : Chip :=
  if c.clusterGated a then c.answer (.ok 0)
  else if a = MEM_AT_FADD then atomicRead c m false
  else if a = MEM_AT_SWAP then atomicRead c m true
  else if MEM_LK 0 ≤ a ∧ a < MEM_LK 256 then lockRead c m ((a - MEM_LK 0) / 4)
  else if 0x400F0000 ≤ a ∧ a < 0x400F2000 ∧ a % 0x80 < 0x40 then
    match mbDataRead c m ((a - 0x400F0000) / 0x80) (a % 0x80 / 4) with
    | some (v, c1) => c1.answer (.ok v.toNat)
    | none => c.refuse
  else if a = SEC_TRNG_DATA then
    let (v, c1) := trngRead c
    c1.answer (.ok v.toNat)
  else if SYS_GPIO_IN 0 ≤ a ∧ a < SYS_GPIO_IN 4 then
    let (v, c1) := gpioRead c ((a - SYS_GPIO_IN 0) / 4)
    c1.answer (.ok v.toNat)
  else if pfOfs a = some 0x10 then packRead c m ((a - 0x400B8000) / 0x20)
  else if shaftOfs a = some 0x80 then sampleOutRead c m ((a - 0x40031000) / 0x100)
  else c.plainRead m a

/-! ### Writes -/

/-- A write of a register by a master in the peripheral window of a number (R33). -/
def windowWrite (c : Chip) (m a : Nat) (v : W32) (w : Nat) : Chip :=
  if w = 0x00 then sysWrite c m a v
  else if w = 0x01 then pwrWrite c m a v
  else if w = 0x02 then tmuWrite c m a v
  else if w = 0x03 then angWrite c m a v
  else if w = 0x04 ∨ w = 0x05 then ethWrite c m a v
  else if w = 0x06 ∨ w = 0x07 then swxWrite c m a v
  else if w = 0x08 ∨ w = 0x09 then canWrite c m a v
  else if w = 0x0A then motWrite c m a v
  else if w = 0x0B then skpWrite c m a v
  else if w = 0x0C then memRegWrite c m a v
  else if w = 0x0D then (if a = XDM_FRZ_RESOLVE then freezeResolveWrite c m v else xdmWrite c m a v)
  else if w = 0x0E then cvuWrite c m a v
  else if w = 0x0F then (if a < 0x400F8000 then mbxWrite c m a v else evtWrite c m a v)
  else if w = 0x10 then secRegWrite c m a v
  else if w = 0x11 then hifWrite c m a v
  else if w = 0x12 then tskWrite c m a v
  else if w = 0x13 then peWrite c m a v
  else if w = 0x14 then evrWrite c m a v
  else tstWrite c m a v

/-- A write of a register by a master, at an aligned address of a peripheral window. A gated Skipper cluster takes no
write (R345), and an offset that no register has ignores it (R13). -/
def regWriteOnce (c : Chip) (m a : Nat) (v : W32) : Chip :=
  if c.clusterGated a || (regRow a).isNone then c.done else windowWrite c m a v (a / 0x10000 % 0x100)

/-! ### Debug accesses -/

/-- What Capture-DR takes after a debug access: 0b00 or 0b01 in [65:64], the address, and the data (R526). -/
def Chip.debugDone (c : Chip) (req : Nat) (refused : Bool) (data : Nat) : Chip :=
  { c with tst := { c.tst with
      frozen := none, dr := b2n refused * 2 ^ 64 + nfld req 63 32 * 2 ^ 32 + data % 2 ^ 32 } }

/-- Whether a peripheral access is one aligned 32-bit word (R11). -/
def wordAligned (a n : Nat) : Bool := a % 4 == 0 && n == 4

/-- A read of the fabric after the segment check (R11, R13, R32), with debug accesses left as they are. -/
def busReadOnce (c : Chip) (m a n : Nat) : Except AccErr (List Byte) × Chip :=
  if regionOf a = .periph then
    if wordAligned a n then
      let c1 := regRead c m a
      match c1.bus with
      | .ok d => (.ok (leBytes 4 d), c1)
      | .ownership => (.error .owner, c1)
      | .ecc => (.error .ecc, c1)
      | .segment => (.error .seg, c1)
      | .waiting => (.error .wait, c1)
      | _ => (.error .bus, c1)
    else (.error .bus, c)
  else c.memRead m a n

/-- A write of the fabric after the segment check (R11, R13, R32), with debug accesses left as they are. -/
def busWriteOnce (c : Chip) (m a : Nat) (bs : List Byte) : Option AccErr × Chip :=
  if regionOf a = .periph then
    if wordAligned a bs.length then
      let c1 := regWriteOnce c m a (w32 (leNat bs))
      (if c1.bus = .busError then some .bus else none, c1)
    else (some .bus, c)
  else c.memWrite m a bs

/-- The access that a DEBUG request names: [65] WRITE, [64] READ, [63:32] address, [31:0] data (R526). A request
of neither performs none. An access that waits or is frozen stays held. -/
def debugRun (c : Chip) (req : Nat) : Chip :=
  let a := nfld req 63 32
  let w := nbit req 65
  let held := { c with tst := { c.tst with frozen := some req } }
  if !w && !nbit req 64 then c.debugDone req false (req % 2 ^ 32)
  else if c.segAllows 15 a 4 (if w then 2 else 1) then
    if w then
      match busWriteOnce c 15 a (leBytes 4 (req % 2 ^ 32)) with
      | (none, c1) => c1.debugDone req false (req % 2 ^ 32)
      | (some _, c1) => c1.debugDone req true (req % 2 ^ 32)
    else
      match busReadOnce held 15 a 4 with
      | (.ok bs, c1) => c1.debugDone req false (leNat bs)
      | (.error .wait, c1) => c1
      | (.error _, c1) => c1.debugDone req true (req % 2 ^ 32)
  else held.freezeAt 0x12 15 a 4 (if w then 2 else 1)

/-- A debug access whose freeze has been resumed, or whose read has completed, is made again (R374, R532). -/
def Chip.debugSettle (c : Chip) : Chip :=
  match c.tst.frozen with
  | some req => if c.xdm.freezes.any fun e => e.unit == 0x12 then c else debugRun c req
  | none => c

/-- Update-DR under DEBUG (R523, R526): the access is performed unless an earlier one is held. -/
def debugAccess (c : Chip) (req : Nat) : Chip :=
  if c.tst.ir = 0x10 ∧ c.tst.frozen = none ∧ c.sec.fuses.lockDbg = false then debugRun (c.setBit TST_STAT 1 true) req
  else c

/-! ### The fabric -/

/-- A register write by a master (R10 to R15). -/
def regWrite (c : Chip) (m a : Nat) (v : W32) : Chip :=
  let c1 := regWriteOnce c m a v
  if a = XDM_FRZ_RESOLVE then c1.debugSettle.answer c1.bus else c1

/-- A read of the fabric after the segment check (R11, R13, R32). -/
def busRead (c : Chip) (m a n : Nat) : Except AccErr (List Byte) × Chip := busReadOnce c m a n

/-- A write of the fabric after the segment check (R11, R13, R32). -/
def busWrite (c : Chip) (m a : Nat) (bs : List Byte) : Option AccErr × Chip :=
  let (e, c1) := busWriteOnce c m a bs
  (e, if a = XDM_FRZ_RESOLVE then c1.debugSettle else c1)

/-- A register write by a master as the table's rows make it: `n` bytes at an address (R10, R11, R13). An
address of memory names no register: nothing is written. -/
def registerWrite (c : Chip) (m a n : Nat) (v : W32) : Chip :=
  match regionOf a with
  | .periph => if wordAligned a n then regWrite c m a v else c.refuse
  | .unassigned => c.refuse
  | .outbound => if c.bit HIF_STAT 31 then c else c.refuse
  | _ => c

/-- A register read by a master as the table's rows make it (R10, R11, R13, R15, R58). -/
def registerRead (c : Chip) (m a n : Nat) : Chip :=
  match regionOf a with
  | .periph => if wordAligned a n then regRead c m a else c.refuse
  | .unassigned => c.refuse
  | .outbound => if c.bit HIF_STAT 31 then c else c.refuse
  | _ => c

end Sys2Proof.Machine
end

