-- ==== Sys2Proof/Machine/State.lean ====
section
/-!
DEFINITION. The state of the block: the device, and the queue of the commands that wait, first in, first out; the
reasons why a step could stop; the state after reset.
-/
namespace Sys2Proof.Machine

/-- The whole state. -/
structure State where
  /-- The commands that wait, the oldest first. -/
  pending : List Instr
  /-- The device. -/
  chip : Chip
  deriving DecidableEq, Repr

/-- Why a step could stop the block with a fault. An access that the spec refuses is answered with a bus error, which
is an effect of the command and no fault. -/
inductive Fault where
  /-- Raised by no command: the spec gives every row of the table an effect. Safe. -/
  | noEffect
  deriving DecidableEq, Repr

/-- Why a command could be refused. -/
inductive Refusal where
  /-- The command has no meaning in the model; raised by no command once every row has its meaning. Safe. -/
  | notModelled (mnemonic : String)
  deriving DecidableEq, Repr

/-- The block as power-on finds it: the device in RESET, every register at its reset value (R1 to R15, R42, R489),
memory with nothing listed, and no command waiting. -/
def State.reset : State := ⟨[], Chip.reset⟩

end Sys2Proof.Machine
end

