-- ==== Sys2Proof/Machine/Exec.lean ====
section
/-!
DEFINITION. The form that every meaning has: an operation on the device that leaves the queue of commands as it is.
-/
namespace Sys2Proof.Machine

/-- What a meaning answers. -/
abbrev Result := Host.Outcome State Fault Refusal

/-- Whether the fabric and its masters run: the device is neither OFF nor in RESET (R39). -/
def Chip.runs (c : Chip) : Bool := decide (2 ≤ c.sysState)

/-- Whether the monitors, the buck, the PLL, the sequencer, the TAP and EVR's scan run: the device is not OFF (R39). -/
def Chip.supplied (c : Chip) : Bool := decide (1 ≤ c.sysState)

/-- The next state after an operation of a unit that OFF and RESET stop (R39). -/
def onChip (s : State) (f : Chip → Chip) : Result := .next { s with chip := if s.chip.runs then f s.chip else s.chip }

/-- The next state after an operation of what runs in RESET too (R39). -/
def onSupply (s : State) (f : Chip → Chip) : Result :=
  .next { s with chip := if s.chip.supplied then f s.chip else s.chip }

/-- The next state after a change of what the board supplies, whatever the device state. -/
def onBoard (s : State) (f : Chip → Chip) : Result := .next { s with chip := f s.chip }

/-- The time domain of a number: 0 A, 1 B. -/
def domAt (x : Fin 2) : Dom := if x.val = 0 then .a else .b

end Sys2Proof.Machine
end

