-- ==== Sys2Proof/Machine/ExecAngle.lean ====
section
/-!
 DEFINITION. The meanings of the commands of one family: line shafts, samples, angle events and the ULP echo (R76 to
R98).
-/
namespace Sys2Proof.Machine

/-- ANGLE_UPDATE_INSTANT (R76): At each update instant, ANG activates a due sample or pays out the blend residual, and
updates the shaft's angle and velocity. -/
def execAngleUpdateInstant (s : State) : Result :=
  onChip s fun c => angleInstant c

/-- SAMPLE_SUBMIT (R79): A write of ANG_SHn_INCMT admits the staged sample to the pending queue, or refuses it at the
first failing check with a flag. -/
def execSampleSubmit (m : Master) (n : Fin 16) (v : W32) (s : State) : Result :=
  onChip s fun c => regWrite c m.val (ANG_SHn_INCMT n.val) v

/-- SHAFT_FOLLOW (R81): CMD FOLLOW requests the FOLLOW state of the shaft. -/
def execShaftFollow (m : Master) (n : Fin 16) (v : W32) (s : State) : Result :=
  onChip s fun c => regWrite c m.val (ANG_SHn_CMD n.val) (v ||| 0x1)

/-- SHAFT_MASTER (R81): CMD MASTER requests the MASTER state of the shaft, starting the master source from the present
angle. -/
def execShaftMaster (m : Master) (n : Fin 16) (v : W32) (s : State) : Result :=
  onChip s fun c => regWrite c m.val (ANG_SHn_CMD n.val) (v ||| 0x2)

/-- SHAFT_IDLE (R81): CMD IDLE requests the IDLE state, discarding pending samples and history. -/
def execShaftIdle (m : Master) (n : Fin 16) (v : W32) (s : State) : Result :=
  onChip s fun c => regWrite c m.val (ANG_SHn_CMD n.val) (v ||| 0x4)

/-- REFTO_EXPIRY (R81): When the REFTO timer expires in FOLLOW, the shaft enters COAST with a new segment at zero
acceleration. -/
def execReftoExpiry (n : Fin 16) (s : State) : Result :=
  onChip s fun c => reftoExpiry c n.val

/-- COASTLIM_EXPIRY (R81): When the COASTLIM timer expires in COAST, the shaft enters LOST, holds its angle and
discards pending samples. -/
def execCoastlimExpiry (n : Fin 16) (s : State) : Result :=
  onChip s fun c => coastlimExpiry c n.val

/-- MASTER_SAMPLE_GENERATION (R83): In MASTER, at each generation time ANG evaluates its source at t_g + LEAD, writes
the sample to OUT0–OUT8 and queues it for its own shaft. -/
def execMasterSampleGeneration (n : Fin 16) (s : State) : Result :=
  onChip s fun c => generateSample c n.val

/-- SAMPLE_OUT_READ (R83): A read of ANG_SHn_OUT0 latches words 1 to 8 for the reader and clears OUTNEW. -/
def execSampleOutRead (m : Master) (n : Fin 16) (s : State) : Result :=
  onChip s fun c => regRead c m.val (ANG_SHn_OUT n.val 0)

/-- STAMP_TO_ANGLE_START (R86): A write of ANG_S2As_CTL with GO starts a conversion of the committed line time to the
shaft angle shown then. -/
def execStampToAngleStart (m : Master) (k : Fin 4) (v : W32) (s : State) : Result :=
  onChip s fun c => regWrite c m.val (ANG_S2As_CTL k.val) (v ||| 0x80000000)

/-- STAMP_TO_ANGLE_DONE (R86): Within 200 ns a conversion ends with the angle or a result code in RES and DONE set. -/
def execStampToAngleDone (k : Fin 4) (s : State) : Result :=
  onChip s fun c => s2aDone c k.val

/-- ANGLE_EVENT_WRITE (R92): A write of an angle event's registers is stored at once for reads and takes effect for
comparisons two update instants later. -/
def execAngleEventWrite (m : Master) (n : Fin 1024) (r : Fin 5) (v : W32) (s : State) : Result :=
  onChip s fun c => regWrite c m.val (ANG_AEn_CFG n.val + 4 * r.val) v

/-- ANGLE_EVENT_FIRING (R91): At the committed crossing time, a firing performs the XDM, task, Skipper, cam and
event-source actions and sets AEFIRE. -/
def execAngleEventFiring (s : State) : Result :=
  onChip s fun c => angleEventFiring c

/-- ULP_ECHO_REQUEST (R98): A station that receives an echo request returns an echo reply, with its ingress stamp when
STAMPREQ = 1. -/
def execUlpEchoRequest (stream seq : Fin 65536) (req : List Byte) (stamp : Option Nat) (s : State) : Result :=
  onChip s fun c => ulpEchoRequest c stream.val seq.val req stamp

end Sys2Proof.Machine
end

