-- ==== Sys2Proof/Machine/ExecCan.lean ====
section
/-!
 DEFINITION. The meanings of the commands of one family: CAN channels and time-triggered operation (R170 to R204).
-/
namespace Sys2Proof.Machine

/-- CAN_ENABLE (R174): Setting CANn_CTL.EN starts bus integration. -/
def execCanEnable (m : Master) (n : Fin 4) (v : W32) (s : State) : Result :=
  onChip s fun c => regWrite c m.val (CANn_CTL n.val) (v ||| 0x80000000)

/-- CAN_DISABLE (R174): Clearing CANn_CTL.EN takes the channel off the bus at the end of any frame in progress. -/
def execCanDisable (m : Master) (n : Fin 4) (v : W32) (s : State) : Result :=
  onChip s fun c => regWrite c m.val (CANn_CTL n.val) (v &&& 0x7FFFFFFF)

/-- CAN_REQUEST (R179): OBJCMD REQUEST sets a valid send object to PENDING, or is refused with CMD_REFUSED. -/
def execCanRequest (m : Master) (n : Fin 4) (k : Fin 128) (s : State) : Result :=
  onChip s fun c => regWrite c m.val (CANn_OBJCMD n.val) (w32 (0x10000000 + k.val))

/-- CAN_CANCEL (R181): OBJCMD CANCEL before commit cancels a pending object; in or after commit it is recorded as
late. -/
def execCanCancel (m : Master) (n : Fin 4) (k : Fin 128) (s : State) : Result :=
  onChip s fun c => regWrite c m.val (CANn_OBJCMD n.val) (w32 (0x20000000 + k.val))

/-- CAN_CLEARNEW (R176): OBJCMD CLEARNEW clears the object's NEWDAT and OVERRUN. -/
def execCanClearnew (m : Master) (n : Fin 4) (k : Fin 128) (s : State) : Result :=
  onChip s fun c => regWrite c m.val (CANn_OBJCMD n.val) (w32 (0x30000000 + k.val))

/-- CAN_FRAME_COMMIT (R180): At the start of frame the channel commits the pending object that would win arbitration
and makes it ACTIVE. -/
def execCanFrameCommit (n : Fin 4) (s : State) : Result :=
  onChip s fun c => canFrameCommit c n.val

/-- CAN_ARBITRATION_LOSS (R182): An object losing arbitration returns to PENDING with ARBLOST incremented, or goes to
FAILED or CANCELLED. -/
def execCanArbitrationLoss (n : Fin 4) (s : State) : Result :=
  onChip s fun c => canArbLost c n.val

/-- CAN_TX_COMPLETE (R181): A committed frame that completes sets its object TRANSMITTED and raises source 1. -/
def execCanTxComplete (n : Fin 4) (s : State) : Result :=
  onChip s fun c => canTxComplete c n.val

/-- CAN_BUS_ERROR (R186): An error on the bus changes TEC and REC as ISO 11898-1 prescribes, and the fault-confinement
state follows. -/
def execCanBusError (n : Fin 4) (e : CanError) (s : State) : Result :=
  onChip s fun c => canBusError c n.val e

/-- CAN_XL_PAYLOAD_READ (R183): The channel reads an XL payload unit from SRAM, and a failed read ends the frame with
the object FAILED and MEMERR set. -/
def execCanXlPayloadRead (n : Fin 4) (unit : Fin 32) (s : State) : Result :=
  onChip s fun c => canXlRead c n.val unit.val

/-- CAN_RX_FRAME (R184): A frame completing without error enters the receive-all ring and, if long, an XL slot, or is
dropped with RING_LOST. -/
def execCanRxFrame (n : Fin 4) (f : CanFrame) (x : CanRxPoint) (s : State) : Result :=
  onChip s fun c => canRxFrame c n.val x.begins f x.age

/-- CAN_RING_POP (R185): A write of CANn_RING_POP releases the oldest N ring entries and their XL slots. -/
def execCanRingPop (m : Master) (n : Fin 4) (v : W32) (s : State) : Result :=
  onChip s fun c => regWrite c m.val (CANn_RING_POP n.val) v

/-- CAN_RECOVER (R188): CMD RECOVER in bus-off starts counting recessive sequences. -/
def execCanRecover (m : Master) (n : Fin 4) (v : W32) (s : State) : Result :=
  onChip s fun c => regWrite c m.val (CANn_CMD n.val) (v ||| 0x1)

/-- CAN_BUSOFF_RECOVERED (R188): After 128 sequences of 11 recessive bits the channel leaves bus-off with TEC and REC
at 0. -/
def execCanBusoffRecovered (x : CanRecessive) (s : State) : Result :=
  onChip s fun c => canBusoffRecovered c x.chan.val x.more.val

/-- CAN_REFERENCE_TRIGGER (R190): At a reference trigger, a time master sends the reference message, timed to line
time in gateway mode. -/
def execCanReferenceTrigger (n : Fin 4) (late : Bool) (s : State) : Result :=
  onChip s fun c => canReference c n.val late

/-- CAN_EXCLUSIVE_TRIGGER (R191): At an exclusive send trigger, the channel commits its pending object, sends a null
frame, or increments MSC. -/
def execCanExclusiveTrigger (n : Fin 4) (j : Fin 256) (idle : Bool) (s : State) : Result :=
  onChip s fun c => canExclusive c n.val j.val idle

/-- CAN_ARBITRATING_TRIGGER (R192): An arbitrating window opens in which pending objects with ARB = 1 and vetoes
compete. -/
def execCanArbitratingTrigger (n : Fin 4) (j : Fin 256) (s : State) : Result :=
  onChip s fun c => canArbitrating c n.val j.val

/-- CAN_RECEIVE_CHECK_TRIGGER (R193): A receive-check window opens in which the object takes the first matching frame.
-/
def execCanReceiveCheckTrigger (n : Fin 4) (j : Fin 256) (s : State) : Result :=
  onChip s fun c => canReceiveCheck c n.val j.val

/-- CAN_RECEIVE_WINDOW_END (R193): At the end of a receive-check window without a matching frame, MSC increments. -/
def execCanReceiveWindowEnd (n : Fin 4) (s : State) : Result :=
  onChip s fun c => canWindowEnd c n.val

/-- CAN_WATCH_TRIGGER (R190): At a watch trigger without a reference message, the error level becomes S3. -/
def execCanWatchTrigger (n : Fin 4) (j : Fin 256) (s : State) : Result :=
  onChip s fun c => canWatch c n.val j.val

/-- CAN_REFERENCE_RECEIVED (R189): A received reference message sets the reference mark, synchronises the channel and
updates the tracked mode agreement. -/
def execCanReferenceReceived (n : Fin 4) (f : CanFrame) (age : Nat) (s : State) : Result :=
  onChip s fun c => canReferenceReceived c n.val f age

/-- CAN_MODE_VALIDATE (R190): A write of MODEm.VALID = 1 checks the mode's entries and is refused with CFGERR if they
are invalid. -/
def execCanModeValidate (m : Master) (n k : Fin 4) (v : W32) (s : State) : Result :=
  onChip s fun c => regWrite c m.val (CANn_TT_MODE n.val k.val) (v ||| 0x80000000)

/-- CAN_TTRESUME (R194): CMD TTRESUME sets the error level to S0 and restarts synchronisation from S3. -/
def execCanTtresume (m : Master) (n : Fin 4) (v : W32) (s : State) : Result :=
  onChip s fun c => regWrite c m.val (CANn_CMD n.val) (v ||| 0x2)

/-- CAN_MODE_REQUEST (R199): A write of TT_MODEREQ with GO starts a mode agreement from the current master, or is
refused. -/
def execCanModeRequest (m : Master) (n : Fin 4) (v : W32) (s : State) : Result :=
  onChip s fun c => regWrite c m.val (CANn_TT_MODEREQ n.val) (v ||| 0x80000000)

/-- CAN_MATRIX_CYCLE_START (R199): At a matrix-cycle start the agreement phase advances and a committed mode takes
effect. -/
def execCanMatrixCycleStart (n : Fin 4) (s : State) : Result :=
  onChip s fun c => canMatrixStart c n.val

/-- CAN_VETO_RECEIVED (R200): A veto completing before the next reference mark makes the master send ABORT. -/
def execCanVetoReceived (n : Fin 4) (f : CanFrame) (age : Nat) (s : State) : Result :=
  onChip s fun c => canVetoReceived c n.val f age

/-- GUARDIAN_WINDOW (R202): At the widened limits of a guardian window, CANn_TEN goes high or low. -/
def execGuardianWindow (x : CanPhase) (s : State) : Result :=
  onChip s fun c => guardianWindow c x.chan.val x.data

/-- CAN_INTEGRATION_COMPLETE (R174): Bus integration started by setting CANn_CTL.EN completes on the bus, and
STAT.ONBUS sets. -/
def execCanIntegrationComplete (n : Fin 4) (s : State) : Result :=
  onChip s fun c => canIntegrated c n.val

/-- START_WINDOW_EXPIRY (R191): TXEW NTU after an exclusive send trigger with no bus idle, the frame is not sent and
MSC increments. -/
def execStartWindowExpiry (n : Fin 4) (s : State) : Result :=
  onChip s fun c => canStartExpiry c n.val

end Sys2Proof.Machine
end

