-- ==== Sys2Proof/Machine/Host.lean ====
section
/-!
DEFINITION. The host's accesses on its three paths: BAR0 and BAR2 (R413 to R415, R434), the octal xSPI target (R417)
and the parallel bus (R418, R504). Every access is made as master 11.
-/
namespace Sys2Proof.Machine

/-- The words that a host access delivered. -/
def Chip.hostOut (c : Chip) (ws : List W32) : Chip := c.setHif fun h => { h with out := ws }

/-- HIF_STAT.PATH: 0 PCIe, 1 xSPI, 2 parallel asynchronous, 3 parallel synchronous. -/
def Chip.hostPath (c : Chip) : Nat := c.fld HIF_STAT 17 16

/-- The register that an offset of the control region reaches: HIF's or a mailbox's (R415). -/
def ctlReg (ofs : Nat) : Option Nat :=
  if ofs < 0x100 then some (0x40110000 + ofs)
  else if 0x2000 ≤ ofs ∧ ofs < 0x4000 then some (0x400F0000 + (ofs - 0x2000))
  else none

/-- A 32-bit read of the control region, or none where it is refused (R415). -/
def ctlRead (c : Chip) (ofs n : Nat) : Option W32 × Chip :=
  if !wordAligned ofs n then (none, c)
  else match ctlReg ofs with
    | some a =>
      let c1 := regRead c 11 a
      match c1.bus with
      | .ok d => (some (w32 d), c1)
      | _ => (none, c1)
    | none =>
      if 0x4000 ≤ ofs ∧ ofs < 0x4400 then (some (c.msixWord ((ofs - 0x4000) / 4)), c)
      else if ofs = 0x4800 then (some (lo32 c.hif.pba), c)
      else if ofs = 0x4804 then (some (hi32 c.hif.pba), c)
      else (some 0, c)

/-- A 32-bit write of the control region; false where it is refused (R415). -/
def ctlWrite (c : Chip) (ofs n : Nat) (v : W32) : Bool × Chip :=
  if !wordAligned ofs n then (false, c)
  else match ctlReg ofs with
    | some a =>
      let c1 := regWrite c 11 a v
      (c1.bus != .busError, c1)
    | none => (true, if 0x4000 ≤ ofs ∧ ofs < 0x4400 then c.setMsixWord ((ofs - 0x4000) / 4) v else c)

/-- A segment violation freezes the host window (R374, R434). -/
def Chip.hostFreeze (c : Chip) (a n rwx : Nat) : Chip := (c.setBit HIF_STAT 30 true).freezeAt 0x0B 11 a (min 64 n) rwx

/-- A read through the SRAM window, or none where it is refused (R413, R434). -/
def sramRead (c : Chip) (ofs n : Nat) : Option (List Byte) × Chip :=
  let a := 0x10000000 + ofs
  if c.bit HIF_STAT 30 then (none, c)
  else match c.dmaRead 11 a n with
    | (.ok bs, c1) => (some bs, c1)
    | (.error .seg, c1) => (none, c1.hostFreeze a n 1)
    | (.error _, c1) => (none, c1)

/-- A write through the SRAM window; false where it is refused (R413, R434). -/
def sramWrite (c : Chip) (ofs : Nat) (bs : List Byte) : Bool × Chip :=
  let a := 0x10000000 + ofs
  if c.bit HIF_STAT 30 then (false, c)
  else match c.dmaWrite 11 a bs with
    | (none, c1) => (true, c1)
    | (some .seg, c1) => (false, c1.hostFreeze a bs.length 2)
    | (some _, c1) => (false, c1)

/-- An access on a path that is not the active one: its data is all ones, and nothing else happens (R413). -/
def Chip.inactive (c : Chip) (n : Nat) : Chip := (c.hostOut (List.replicate n 0xFFFFFFFF)).answer .idle

/-- What an access leaves that was performed with its read data, or refused: on PCIe a refused read is answered with
Completer Abort and delivers nothing (R415, R434). -/
def Chip.hostAnswer (c : Chip) (r : Option (List W32)) : Chip :=
  match r with
  | some ws => (c.hostOut ws).answer (.ok 0)
  | none => (c.hostOut []).refuse

/-- A TLP to BAR0: a write of the low `n` bytes of `v`, or a read of `n` bytes (R415). One that reaches beyond BAR0
is answered with Unsupported Request (R414). -/
def bar0Access (c : Chip) (write : Bool) (ofs n : Nat) (v : W32) : Chip :=
  if c.hostPath ≠ 0 then c.inactive 1
  else if !c.bit HIF_STAT 31 then c
  else if 0x10000 < ofs + n then c.hostAnswer none
  else if write then
    let (ok, c1) := ctlWrite c ofs n v
    c1.hostAnswer (if ok then some [] else none)
  else
    let (r, c1) := ctlRead c ofs n
    c1.hostAnswer (r.map fun w => [w])

/-- The bytes of a read as words, the last one filled up with zeros. -/
def wordsIn (bs : List Byte) : List W32 :=
  (List.range ((bs.length + 3) / 4)).map fun i => w32 (leNat (bytesAt bs (4 * i) 4))

/-- A TLP to BAR2: a write of `data`, or a read of `n` bytes (R413, R434). -/
def bar2Access (c : Chip) (write : Bool) (ofs n : Nat) (data : List Byte) : Chip :=
  if c.hostPath ≠ 0 then c.inactive 1
  else if !c.bit HIF_STAT 31 then c
  else if write then
    let (ok, c1) := sramWrite c ofs data
    c1.hostAnswer (if ok then some [] else none)
  else
    let (r, c1) := sramRead c ofs n
    c1.hostAnswer (r.map wordsIn)

/-- A 32-bit read at an address of the xSPI target or the parallel bus (R413). -/
def flatRead (c : Chip) (a : Nat) : Option W32 × Chip :=
  if a < 0x10000 then ctlRead c a 4
  else if 0x01000000 ≤ a ∧ a < 0x02000000 ∧ a % 4 = 0 then
    let (r, c1) := sramRead c (a - 0x01000000) 4
    (r.map fun bs => w32 (leNat bs), c1)
  else (none, c)

/-- A 32-bit write at an address of the xSPI target or the parallel bus (R413). -/
def flatWrite (c : Chip) (a : Nat) (v : W32) : Bool × Chip :=
  if a < 0x10000 then ctlWrite c a 4 v
  else if 0x01000000 ≤ a ∧ a < 0x02000000 ∧ a % 4 = 0 then sramWrite c (a - 0x01000000) (leBytes 4 v.toNat)
  else (false, c)

/-- One word of an xSPI READ: a refused one reads as all ones and sets XTERR (R417). -/
def xspiWordRead (c : Chip) (a : Nat) : W32 × Chip :=
  match flatRead c a with
  | (some w, c1) => (w, c1)
  | (none, c1) => (0xFFFFFFFF, c1.hifFlag 2)

def xspiReads (c : Chip) (a : Nat) : Nat → List W32 × Chip
  | 0 => ([], c)
  | n + 1 =>
    let (w, c1) := xspiWordRead c a
    let (ws, c2) := xspiReads c1 (a + 4) n
    (w :: ws, c2)

def xspiWrites (c : Chip) (a : Nat) : List W32 → Chip
  | [] => c
  | v :: vs =>
    match flatWrite c a v with
    | (true, c1) => xspiWrites c1 (a + 4) vs
    | (false, c1) => xspiWrites (c1.hifFlag 2) (a + 4) vs

/-- An xSPI READ of `n` words (R417). -/
def xspiRead (c : Chip) (a n : Nat) : Chip :=
  if c.hostPath ≠ 1 ∨ c.hif.pathUp = false then c.inactive n
  else
    let (ws, c1) := xspiReads c a n
    (c1.hostOut ws).answer (.ok 0)

/-- An xSPI WRITE (R417). -/
def xspiWrite (c : Chip) (a : Nat) (vs : List W32) : Chip :=
  if c.hostPath ≠ 1 ∨ c.hif.pathUp = false then c.inactive 0 else ((xspiWrites c a vs).hostOut []).answer (.ok 0)

/-- An xSPI STATUS: [0] READY, [1] ERR (R417). -/
def xspiStatus (c : Chip) : Chip :=
  if c.hostPath ≠ 1 then c.inactive 1
  else (c.hostOut [w32 (at_ (b2n (c.bit HIF_FLAGS 2)) 1 + b2n c.hif.pathUp)]).answer (.ok 0)

/-- The address of a parallel access: AD[24] selects the region, AD[15:0] the control offset (R418). -/
def busAddr (ad : Nat) : Nat := if ad.testBit 24 then 0x01000000 + ad % 0x1000000 else ad % 0x10000

/-- A parallel-bus read; before the host path is set up it is held (R418, R504). -/
def parallelRead (c : Chip) (ad : Nat) : Chip :=
  if c.hostPath < 2 then c.inactive 1
  else if c.hif.pathUp = false then (c.hostOut []).answer .waiting
  else match flatRead c (busAddr ad) with
    | (some w, c1) => c1.hostAnswer (some [w])
    | (none, c1) => ((c1.hifFlag 3).hostOut [0xFFFFFFFF]).refuse

/-- A parallel-bus write; before the host path is set up it is held (R418, R504). -/
def parallelWrite (c : Chip) (ad : Nat) (v : W32) : Chip :=
  if c.hostPath < 2 then c.inactive 0
  else if c.hif.pathUp = false then (c.hostOut []).answer .waiting
  else match flatWrite c (busAddr ad) v with
    | (true, c1) => c1.hostAnswer (some [])
    | (false, c1) => ((c1.hifFlag 3).hostOut []).refuse

/-- A device master's access to the outbound window at offset `ofs`: a posted write of `data`, or a read of `n`
bytes (R532). -/
def outboundAccess (c : Chip) (m : Nat) (write : Bool) (ofs n : Nat) (data : List Byte) : Chip :=
  let a := 0xC0000000 + ofs
  if write then
    match c.memWrite m a data with
    | (none, c1) => c1.done
    | (some e, c1) => c1.answer e.result
  else
    match c.memRead m a n with
    | (.ok bs, c1) => c1.answer (.ok (leNat bs))
    | (.error e, c1) => c1.answer e.result

end Sys2Proof.Machine
end

