-- ==== Sys2Proof/Machine/Service.lean ====
section
/-!
DEFINITION. The command service of supervisor firmware and of the ROM service: packets, the checks of a command, its
taking, its replies (R421 to R432, R491).
-/
namespace Sys2Proof.Machine

/-! ### The command tables -/

/-- A row of the command tables (R433): the lowest role (0 none, 1 Monitor to 4 Owner), the states from CHRYSALIS on,
and whether a payload of so many words fits the layout. -/
structure CmdRow where
  role : Nat
  states : List Nat
  fits : List W32 → Bool

/-- A payload of exactly `n` words. -/
def ofWords (n : Nat) (ws : List W32) : Bool := ws.length == n

/-- A payload of `h` words and then `k` words for each of the number that word `i` gives. -/
def ofCount (h k i : Nat) (ws : List W32) : Bool := decide (i < ws.length) && ws.length == h + k * (ws.getD i 0).toNat

/-- The command tables (R433). -/
def cmdRow (op : Nat) : Option CmdRow :=
  let all := [3, 4, 5]
  let cr := [4, 5]
  let w (ws : List W32) : W32 := ws.getD 0 0
  match op with
  | 0x0001 => some ⟨0, all, ofWords 0⟩
  | 0x0002 => some ⟨0, all, ofWords 0⟩
  | 0x0003 => some ⟨3, all, ofWords 1⟩
  | 0x0004 => some ⟨3, cr, ofWords 2⟩
  | 0x0005 => some ⟨0, all, fun _ => true⟩
  | 0x0006 => some ⟨3, all, ofWords 2⟩
  | 0x0007 => some ⟨4, all, ofCount 1 2 0⟩
  | 0x0101 => some ⟨0, all, ofWords 10⟩
  | 0x0102 => some ⟨0, all, ofWords 12⟩
  | 0x0103 => some ⟨1, all, ofWords 0⟩
  | 0x0104 => some ⟨4, cr, ofWords 18⟩
  | 0x0105 => some ⟨4, [3, 4], ofWords 21⟩
  | 0x0106 => some ⟨1, all, fun ws => ws.length == 10 || (ws.length == 9 && !wbit (ws.getD 8 0) 8)⟩
  | 0x0201 => some ⟨3, all, ofWords 4⟩
  | 0x0202 => some ⟨3, all, fun ws => decide (2 ≤ ws.length)⟩
  | 0x0203 => some ⟨3, all, ofWords 1⟩
  | 0x0204 => some ⟨3, cr, ofWords 1⟩
  | 0x0205 => some ⟨3, cr, ofWords 1⟩
  | 0x0206 => some ⟨1, all, ofWords 2⟩
  | 0x0301 => some ⟨3, cr, ofWords 15⟩
  | 0x0302 => some ⟨1, cr, ofWords 1⟩
  | 0x0303 => some ⟨3, cr, fun ws => ofWords (if w ws = 0xFF then 14 else 19) ws⟩
  | 0x0304 => some ⟨3, cr, ofWords 9⟩
  | 0x0305 => some ⟨3, cr, ofCount 2 2 1⟩
  | 0x0306 => some ⟨3, cr, ofWords 6⟩
  | 0x0307 => some ⟨1, cr, ofWords 1⟩
  | 0x0308 => some ⟨3, cr, fun ws => if wbit (w ws) 8 then ofCount 3 1 2 ws else ofWords 27 ws⟩
  | 0x0401 => some ⟨3, cr, ofWords 7⟩
  | 0x0402 => some ⟨1, all, ofWords 0⟩
  | 0x0403 => some ⟨2, cr, ofWords 1⟩
  | 0x0404 => some ⟨3, cr, fun ws => match wfld (w ws) 9 8 with
      | 1 => ofWords 2 ws
      | 3 => true
      | _ => ofWords 4 ws⟩
  | 0x0501 => some ⟨3, cr, fun ws => ofWords (if w ws = 0xFF then 4 else 11) ws⟩
  | 0x0502 => some ⟨1, cr, ofWords 1⟩
  | 0x0503 => some ⟨2, cr, ofWords 6⟩
  | 0x0504 => some ⟨2, cr, ofWords 2⟩
  | 0x0505 => some ⟨2, [5], ofWords 4⟩
  | 0x0601 => some ⟨3, cr, ofWords 19⟩
  | 0x0602 => some ⟨2, [5], ofWords 12⟩
  | 0x0603 => some ⟨2, cr, ofWords 1⟩
  | 0x0604 => some ⟨2, [5], ofWords 8⟩
  | 0x0605 => some ⟨1, cr, ofWords 1⟩
  | 0x0701 => some ⟨3, cr, ofWords 2⟩
  | 0x0702 => some ⟨2, [5], ofWords 1⟩
  | 0x0703 => some ⟨3, [5], ofCount 2 3 1⟩
  | 0x0704 => some ⟨3, [5], ofWords 3⟩
  | 0x0705 => some ⟨3, [5], ofWords 1⟩
  | 0x0706 => some ⟨3, [5], ofWords 1⟩
  | 0x0707 => some ⟨1, cr, ofWords 0⟩
  | 0x0801 => some ⟨1, all, ofWords 2⟩
  | 0x0802 => some ⟨2, cr, ofWords 10⟩
  | 0x0803 => some ⟨4, [3, 4], ofWords 0⟩
  | 0x0804 => some ⟨1, all, ofWords 0⟩
  | 0x0901 => some ⟨3, all, ofWords 2⟩
  | 0x0902 => some ⟨3, [3, 4], ofWords 3⟩
  | 0x0903 => some ⟨1, all, ofWords 0⟩
  | 0x0904 => some ⟨3, all, ofWords 2⟩
  | 0x0905 => some ⟨3, [4], ofWords 3⟩
  | _ => none

/-- Whether the ROM service answers a command (R491). -/
def romAnswers (op : Nat) (ws : List W32) : Bool :=
  [0x0001, 0x0002, 0x0005, 0x0101, 0x0102, 0x0103, 0x0104, 0x0105, 0x0106, 0x0202, 0x0203, 0x0801, 0x0804, 0x0903,
    0x0901].contains op || (op == 0x0201 && ws.getD 0 0 == 0)

/-- Whether SUP serves commands: from CHRYSALIS on, the host path set up, SUP neither stopped nor frozen, and banks B0
and B1 of the core set not FAILED (R42, R236, R492). -/
def Chip.serving (c : Chip) : Bool :=
  decide (3 ≤ c.sysState) && decide (c.sysState ≤ 5) && c.hif.pathUp && !c.core.supStopped &&
    !c.bit (MEM_BSTAT 0) 31 && !c.bit (MEM_BSTAT 1) 31 &&
    (tblGet none c.core.frozen 0).isNone

/-! ### Packets -/

/-- The statuses of R432. -/
abbrev stDone : Nat := 0
abbrev stStarted : Nat := 1
abbrev stBadOpcode : Nat := 0x0100
abbrev stBadLength : Nat := 0x0101
abbrev stBadParameter : Nat := 0x0102
abbrev stNoSession : Nat := 0x0200
abbrev stRoleDenied : Nat := 0x0201
abbrev stAuthFailed : Nat := 0x0202
abbrev stWrongState : Nat := 0x0300
abbrev stBusy : Nat := 0x0301
abbrev stResource : Nat := 0x0500
abbrev stHardwareFault : Nat := 0x0600

/-- Words as bytes. -/
def bytesOfWords (ws : List W32) : List Byte := ws.flatMap fun w => leBytes 4 w.toNat

/-- A reply packet: header, payload, and the tag under the session's reply key where it is tagged (R427, R428). -/
def replyPacket (cmd : Cmd) (key : Option (List Byte)) (interim : Bool) (status detail : Nat) (ws : List W32) : List Byte :=
  let body := leBytes 2 cmd.op ++ leBytes 2 cmd.seq ++ leBytes 2 (4 * ws.length) ++
    [BitVec.ofNat 8 (1 + 2 * b2n interim), BitVec.ofNat 8 cmd.slot, 0, 0, 0, 0] ++ leBytes 2 status ++ leBytes 2 detail ++
    bytesOfWords ws
  match key with
  | some k => body ++ packetTag k body
  | none => body

/-- The reply key of a session slot, where it holds a session (R453). -/
def Chip.replyKey (c : Chip) (slot : Nat) : Option (List Byte) :=
  if slot < 8 then (c.session slot).map fun x => x.kRpl slot else none

/-- The reply key with which a command's reply is tagged: of the session that it came in (R428); a session opened or
proven by the command itself has its key only afterwards. -/
def tagKey (pre post : Chip) (slot : Nat) : Option (List Byte) :=
  match pre.session slot with
  | some x => if x.proven then pre.replyKey slot else post.replyKey slot
  | none => none

/-- A reply queued for its path (R425). -/
def Chip.queueReply (c : Chip) (path : CmdPath) (bs : List Byte) : Chip :=
  c.setHif fun h => { h with replies := h.replies ++ [⟨path, bs⟩] }

/-- The words of a packet's payload. -/
def payloadOf (pkt : List Byte) (l : Nat) : List W32 :=
  (List.range (l / 4)).map fun i => w32 (leNat (bytesAt pkt (16 + 4 * i) 4))

/-! ### Memory as supervisor firmware accesses it -/

/-- Supervisor firmware meets a segment violation and freezes with SUP (R42); the record names SG0 (PRESUMED, log entry
58). -/
def Chip.fwFreezes (c : Chip) (a n rwx : Nat) : Chip :=
  c.coreFreezes 0 0 0 (wrap 32 ((a : Int) - (c.fld (XDM_SEGm_BASEs 0 0) 31 6 * 64 : Nat))) n rwx false

/-- Supervisor firmware reads memory (R27, R42, R372). -/
def Chip.fwRead (c : Chip) (a n : Nat) : Option (List Byte) × Chip :=
  match c.readSpan 0 a n with
  | (.ok bs, c1) => (some bs, c1)
  | (.error (.seg, p, k), c1) => (none, c1.fwFreezes p k 1)
  | (.error _, c1) => (none, c1)

/-- Supervisor firmware writes memory; whether every write was performed (R27, R42, R372). -/
def Chip.fwWrite (c : Chip) (a : Nat) (bs : List Byte) : Bool × Chip :=
  match c.writeSpan 0 a bs with
  | (none, c1) => (true, c1)
  | (some (.seg, p, k), c1) => (false, c1.fwFreezes p k 2)
  | (some _, c1) => (false, c1)

/-! ### Taking a command -/

/-- What the checks of R428 give: accepted, or a status with whether the reply is tagged and the sequence accepted. -/
inductive Checked where
  | ok
  | bad (status detail : Nat) (tagged accepted : Bool)
  deriving DecidableEq, Repr

/-- The checks 5 to 9 of R428. -/
def Chip.checkCmd (c : Chip) (cmd : Cmd) : Checked :=
  let bad (st detail : Nat) : Checked := .bad st detail true true
  match cmdRow cmd.op with
  | none => bad stBadOpcode 0
  | some r =>
    let role := if cmd.slot = 0xFF then 0 else match c.session cmd.slot with
      | some x => x.role + 1
      | none => 0
    if c.romService && !romAnswers cmd.op cmd.words then bad stBadOpcode 0
    else if cmd.slot = 0xFF ∧ r.role ≠ 0 then bad stNoSession 0
    else if role < r.role then bad stRoleDenied 0
    else if !r.states.contains c.sysState then bad stWrongState c.sysState
    else if !r.fits cmd.words then bad stBadLength 0
    else .ok

/-- The checks of R428 in their order; `limit` is the longest packet of the path (R426). -/
def Chip.checkPacket (c : Chip) (cmd : Cmd) (pkt : List Byte) (limit : Nat) : Checked :=
  let l := leNat (bytesAt pkt 4 2)
  let n := 16 + l + (if cmd.slot = 0xFF then 0 else 16)
  if 4064 < l ∨ l % 4 ≠ 0 ∨ byteAt pkt 6 ≠ 0 ∨ limit < n then .bad stBadLength 0 true false
  else if cmd.slot = 0xFF then c.checkCmd cmd
  else match if cmd.slot < 8 then c.session cmd.slot else none with
    | none => .bad stNoSession 0 false false
    | some x =>
      let prove := cmd.op == 0x0102
      if x.proven == prove then .bad stNoSession 0 false false
      else if !prove && packetTag (x.kCmd cmd.slot) (bytesAt pkt 0 (16 + l)) != bytesAt pkt (16 + l) 16 then
        .bad stAuthFailed 0 false false
      else if cmd.seq ≤ x.lastSeq then .bad stAuthFailed 0 false false
      else c.checkCmd cmd

/-- The sequence of a session's accepted command (R429). -/
def Chip.acceptSeq (c : Chip) (cmd : Cmd) : Chip :=
  if cmd.slot < 8 then
    match c.session cmd.slot with
    | some x => c.setSession cmd.slot (some { x with lastSeq := cmd.seq })
    | none => c
  else c

/-- A packet taken from a path: a command put in service, or refused (R428). -/
def Chip.takePacket (c : Chip) (path : CmdPath) (pkt : List Byte) (limit : Nat) : Chip :=
  let l := leNat (bytesAt pkt 4 2)
  let cmd : Cmd := ⟨path, leNat (bytesAt pkt 0 2), leNat (bytesAt pkt 2 2), (byteAt pkt 7).toNat,
    payloadOf pkt (min l 4064)⟩
  match c.checkPacket cmd pkt limit with
  | .ok => (c.acceptSeq cmd).setHif fun h => { h with cur := some cmd }
  | .bad st detail tagged accepted =>
    let key := if tagged then c.replyKey cmd.slot else none
    (if accepted then c.acceptSeq cmd else c).queueReply path (replyPacket cmd key false st detail [])

def cmdSlot (i : Nat) : Nat := 0x10F80000 + i % 64 * 4096
def rplSlot (i : Nat) : Nat := 0x10FC0000 + i % 64 * 4096

/-- The replies that wait for the reply ring. -/
def Chip.ringWaiting (c : Chip) : Nat := (c.hif.replies.filter fun r => r.path == .ring).length

/-- Supervisor firmware takes the next posted command: a reply slot is free for its first reply (R422, R425). A slot
that it cannot read is passed by without a reply (DESIGN CHOICE, log entry 58). -/
def commandTake (c : Chip) : Chip :=
  let cons := c.fld HIF_CMD_CONS 15 0
  if !c.serving || c.bit HIF_STAT 29 || c.hif.cur.isSome || c.fld HIF_CMD_DB 15 0 == cons then c
  else if 64 ≤ ringDist (c.fld HIF_RPL_PROD 15 0) (c.fld HIF_RPL_DB 15 0) + c.ringWaiting then c
  else
    match c.fwRead (cmdSlot cons) 4096 with
    | (some pkt, c1) => (c1.setFld HIF_CMD_CONS 15 0 ((cons + 1) % 65536)).takePacket .ring pkt 4096
    | (none, c1) => if c1.serving then c1.setFld HIF_CMD_CONS 15 0 ((cons + 1) % 65536) else c1

/-- Supervisor firmware reads a packet from MB0 and so empties it (R391, R426). -/
def mailboxCommandTake (c : Chip) : Chip :=
  if !c.serving || c.hif.cur.isSome || !c.mbFull 0 then c
  else
    let pkt := bytesOfWords ((List.range 16).map fun i => c.reg (MBn_DATA 0 i))
    let c1 := (List.range 16).foldl (fun c i => match mbDataRead c 0 0 i with
      | some (_, c1) => c1
      | none => c) c
    c1.takePacket .mailbox pkt 64

/-! ### Replies -/

/-- A reply written into MB1 with GO (R426). -/
def Chip.postMailbox (c : Chip) (bs : List Byte) : Chip :=
  let c1 := (List.range 16).foldl (fun c i => mbDataWrite c 0 1 i (w32 (leNat (bytesAt bs (4 * i) 4)))) c
  mbCtlWrite c1 0 1 0x80000000

/-- A reply written whole into the next reply slot, and PROD advanced (R424, R425). -/
def Chip.postRing (c : Chip) (bs : List Byte) : Chip :=
  let prod := c.fld HIF_RPL_PROD 15 0
  let c1 := (c.fwWrite (rplSlot prod) bs).2
  if c1.serving then c1.setFld HIF_RPL_PROD 15 0 ((prod + 1) % 65536) else c1

/-- Whether a reply can be posted on its path now (R421, R425, R426). -/
def Chip.postable (c : Chip) (r : Reply) : Bool :=
  match r.path with
  | .ring => !c.bit HIF_STAT 29 && decide (ringDist (c.fld HIF_RPL_PROD 15 0) (c.fld HIF_RPL_DB 15 0) < 64)
  | .mailbox => c.mbEn 1 && !c.mbFull 1

/-- The oldest reply that can be posted is posted (R424 to R426). -/
def replyPost (c : Chip) : Chip :=
  match c.hif.replies.find? c.postable with
  | none => c
  | some r =>
    if !c.serving then c
    else
      let c1 := c.setHif fun h => { h with replies := h.replies.erase r }
      match r.path with
      | .ring => c1.postRing r.bytes
      | .mailbox => c1.postMailbox r.bytes

/-! ### Running a command -/

/-- What a command comes to: its final reply, an operation that goes on, or none where the device resets. -/
inductive CmdRes where
  | fin (status detail : Nat) (ws : List W32)
  | start (w : AsyncWait)
  | silent
  deriving DecidableEq, Repr

def CmdRes.done (ws : List W32) : CmdRes := .fin stDone 0 ws
def CmdRes.bad (i : Nat) : CmdRes := .fin stBadParameter i []

/-- A command that met memory it could not access: HARDWARE_FAULT, or nothing more from a SUP that froze (R42, R432). -/
def Chip.memFault (c : Chip) : CmdRes × Chip :=
  (if (tblGet none c.core.frozen 0).isSome then .silent else .fin stHardwareFault 0 [], c)

/-- A final reply that the mailbox path cannot carry is BAD_LENGTH (R421, R426). -/
def tooLong (cmd : Cmd) (ws : List W32) : Bool :=
  cmd.path == .mailbox && decide (64 < 16 + 4 * ws.length + (if cmd.slot = 0xFF then 0 else 16))

/-- The command in service is `op`'s: it runs, and its first reply is queued. At most 8 commands are STARTED; a
command refused for it, or whose reply is too long for its path, leaves no effect (R426, R428, R431). -/
def runCommand (c : Chip) (op : Nat) (run : Cmd → Chip → CmdRes × Chip) : Chip :=
  match c.hif.cur with
  | none => c
  | some cmd =>
    if cmd.op ≠ op || !c.serving then c
    else
      let c0 := c.setHif fun h => { h with cur := none }
      let refuse (st : Nat) : Chip := c0.queueReply cmd.path (replyPacket cmd (tagKey c0 c0 cmd.slot) false st 0 [])
      match run cmd c0 with
      | (.fin st detail ws, c1) =>
        if tooLong cmd ws then refuse stBadLength
        else c1.queueReply cmd.path (replyPacket cmd (tagKey c0 c1 cmd.slot) false st detail ws)
      | (.start w, c1) =>
        if 8 ≤ c0.hif.started.length then refuse stBusy
        else
          (c1.setHif fun h => { h with started := h.started ++ [⟨cmd, w⟩] }).queueReply cmd.path
            (replyPacket cmd (tagKey c0 c1 cmd.slot) true stStarted 0 [])
      | (.silent, c1) => c1

/-- A command that only answers, or refuses, at once. -/
def answering (f : Chip → List W32 → CmdRes × Chip) (cmd : Cmd) (c : Chip) : CmdRes × Chip := f c cmd.words

/-- A STARTED command gives its final reply (R431). -/
def Chip.finishStarted (c : Chip) (s : Started) (status detail : Nat) (ws : List W32) : Chip :=
  let c1 := c.setHif fun h => { h with started := h.started.erase s }
  let key := tagKey c c s.cmd.slot
  if tooLong s.cmd ws then c1.queueReply s.cmd.path (replyPacket s.cmd key false stBadLength 0 [])
  else c1.queueReply s.cmd.path (replyPacket s.cmd key false status detail ws)

/-! ### Registers as supervisor firmware accesses them -/

/-- A word of a payload. -/
def pw (ws : List W32) (i : Nat) : W32 := ws.getD i 0

/-- Supervisor firmware writes registers in order (R433). -/
def Chip.supWrites (c : Chip) : List (Nat × W32) → Chip
  | [] => c
  | (a, v) :: rest => (regWrite c 0 a v).supWrites rest

/-- Supervisor firmware reads a register (R433). -/
def Chip.supRead (c : Chip) (a : Nat) : W32 × Chip :=
  let c1 := regRead c 0 a
  match c1.bus with
  | .ok d => (w32 d, c1)
  | _ => (0, c1)

/-- Supervisor firmware reads registers in order (R433). -/
def Chip.supReads (c : Chip) : List Nat → List W32 × Chip
  | [] => ([], c)
  | a :: rest =>
    let (w, c1) := c.supRead a
    let (ws, c2) := c1.supReads rest
    (w :: ws, c2)

/-- A reply that returns registers. -/
def Chip.regReply (c : Chip) (as_ : List Nat) : CmdRes × Chip :=
  let (ws, c1) := c.supReads as_
  (.done ws, c1)

/-- Consecutive registers from an address. -/
def span (a n : Nat) : List Nat := (List.range n).map fun i => a + 4 * i

end Sys2Proof.Machine
end

