-- ==== Sys2Proof/Machine/CmdSys.lean ====
section
/-!
DEFINITION. The system and session commands (R433): GET_IDENTITY to WRITE_REG, OPEN_SESSION to ATTEST (R449 to R457).
-/
namespace Sys2Proof.Machine

/-! ### System -/

/-- GET_IDENTITY: the serial number's low word comes first (DEDUCED from R8; log entry 70). -/
def getIdentity (_ : Cmd) (c : Chip) : CmdRes × Chip :=
  let i := c.image 0
  let serial := c.sec.fuses.serial.toNat
  (.done [c.reg SYS_ID, 0x11648A3F, lo32 serial, hi32 serial, w32 c.sec.fuses.vendorId.toNat, i.version, w32 i.counter,
    c.reg HIF_STAT], c)

/-- GET_STATE. -/
def getState (_ : Cmd) (c : Chip) : CmdRes × Chip :=
  c.regReply [SYS_STATE, TSK_STAT, PWR_STAT, TMU_DOMSEL, XDM_FRZ_COUNT, MEM_STAT]

/-- The running supervisor image's counter is raised at the first SET_STATE to CONFIGURED (R447). -/
def Chip.firstConfigured (c : Chip) (burnt : Bool) : Chip :=
  match c.sec.supAdvance with
  | none => c
  | some k =>
    let c1 := c.rollbackAdvance 0 k burnt
    { c1 with sec := { c1.sec with supAdvance := none } }

/-- SET_STATE (R489); `burnt` whether a counter burn held. -/
def setStateCmd (burnt : Bool) (cmd : Cmd) (c : Chip) : CmdRes × Chip :=
  let t := wfld (pw cmd.words 0) 2 0
  if t = 1 then (.silent, goReset c causeSw)
  else if t < 3 ∨ 5 < t then (.bad 0, c)
  else
    let old := c.sysState
    let c1 := sysStateWrite c 0 (w32 t)
    if c1.sysState ≠ t then (.fin stWrongState old [], c1)
    else
      let c2 := if t = 4 ∧ old ≠ 4 then c1.firstConfigured burnt else c1
      (.start (.known stDone 0 [c2.reg SYS_STATE]), c2)

/-- A register window forgotten: every register, staging register and latch in it at reset. -/
def Chip.resetWindow (c : Chip) (lo n : Nat) : Chip :=
  let own (key : Nat) : Bool := decide (lo ≤ key % 2 ^ 32) && decide (key % 2 ^ 32 < lo + n)
  { c with
    regs := c.regs.filter fun e => !own e.1
    staged := c.staged.filter fun e => !own e.1
    latched := c.latched.filter fun e => !own e.1 }

/-- The sections of an engine image as SEC DMA places them (R241, R442): code in instruction memory, data behind. -/
def engineSections (n : Nat) (img : List Byte) : List (Nat × List Byte) :=
  (imgSections img).filterMap fun s => match s.ty with
    | 1 => some (peMem n + s.addr, s.data)
    | 2 => some (peMem n + 0x20000 + s.addr, s.data)
    | _ => none

/-- RESET_SUBSYSTEM of an engine: STOP, CLEAR, a new load of its image, and START once that has ended (R263, R433). -/
def resetEngine (c : Chip) (n : Nat) : CmdRes × Chip :=
  let st := c.peState n
  match tblFind c.hif.sources n with
  | none => (.fin stWrongState st [], c)
  | some (a, len) =>
    if st = 0 ∨ st = 4 then (.fin stWrongState st [], c)
    else if c.sec.load.isSome then (.fin stBusy 0 [], c)
    else
      let c1 := if st = 3 then engineStop c n else c
      let c2 := engineClearDone (engineClear c1 n) n
      match c2.fwRead a len with
      | (none, c3) => c3.memFault
      | (some img, c3) =>
        match c3.imgVerify 1 (w32 n) img with
        | some (status, detail) => (.fin status detail [], c3.imgFailed)
        | none => (.start (.reload n), c3.secPlace (engineSections n img))

/-- The reset of a unit other than an engine: its registers and its state as after reset (DESIGN CHOICE, log entry
71). -/
def resetUnit (c : Chip) (unit i : Nat) : CmdRes × Chip :=
  let ok (c : Chip) : CmdRes × Chip := (.start (.known stDone 0 []), c)
  match unit with
  | 0x02 =>
    if i ≠ 0 then (.bad 1, c)
    else
      let c1 := { c.tskLeaveRun.resetWindow 0x40120000 0x10000 with tsk := .reset }
      ok ((c1.setImage 13 .reset).setImage 14 .reset |>.setHif fun h => { h with active := none, staged := none })
  | 0x03 =>
    if i ≠ 0 then (.bad 1, c)
    else ok { c.resetWindow 0x40060000 0x20000 with swx := { SwxState.reset with lpi := c.swx.lpi, verify := c.swx.verify } }
  | 0x04 =>
    if 7 < i then (.bad 1, c)
    else
      let c1 := (linkLost c i).resetWindow (ETH_Pn_CTL i) 0x1000
      ok { c1 with swx := { c1.swx with lpi := tblErase c1.swx.lpi i, verify := tblErase c1.swx.verify i } }
  | 0x05 =>
    if 3 < i then (.bad 1, c)
    else
      let c1 := (canCtlWrite c i 0).resetWindow (CANn_CTL i) 0x1000
      ok { c1.resetWindow (0x40080000 + i * 0x4000) 0x4000 with can := tblErase c1.can i }
  | 0x06 =>
    if i ≠ 0 then (.bad 1, c)
    else ok { c.resetWindow 0x400A0000 0x10000 with mot := { MotState.reset with u := c.mot.u, camFrozen := c.mot.camFrozen } }
  | 0x07 => if 3 < i then (.bad 1, c) else ok (c.resetCluster i)
  | 0x08 =>
    if 63 < i then (.bad 1, c)
    else if (c.xd i).st = .frozen then (.fin stWrongState 4 [], c)
    else ok ((c.resetWindow (XDn_CTL i) 0x40).setXd i .reset)
  | 0x09 => if 63 < i then (.bad 1, c) else ok (mailboxReset c i)
  | _ => (.bad 0, c)

/-- RESET_SUBSYSTEM. -/
def resetSubsystem (cmd : Cmd) (c : Chip) : CmdRes × Chip :=
  let unit := wfld (pw cmd.words 0) 7 0
  let i := (pw cmd.words 1).toNat
  if unit = 1 then (if 7 < i then (.bad 1, c) else resetEngine c i) else resetUnit c unit i

/-- ECHO. -/
def echoCmd (cmd : Cmd) (c : Chip) : CmdRes × Chip := (.done cmd.words, c)

/-- READ_REG's reads: the words read, and the index of an access that met a bus error. -/
def readRegs (c : Chip) (a : Nat) : Nat → Nat → List W32 → CmdRes × Chip
  | 0, _, ws => (.done ws.reverse, c)
  | n + 1, i, ws =>
    let c1 := registerRead c 0 a 4
    match c1.bus with
    | .ok d => readRegs c1 (a + 4) n (i + 1) (w32 d :: ws)
    | _ => (.fin stBadParameter i ws.reverse, c1)

/-- READ_REG. -/
def readReg (cmd : Cmd) (c : Chip) : CmdRes × Chip :=
  let a := (pw cmd.words 0).toNat
  let n := (pw cmd.words 1).toNat
  if a < 0x40000000 ∨ 0x4015FFFF < a then (.bad 0, c)
  else if n = 0 ∨ 1016 < n then (.bad 1, c)
  else readRegs c a n 0 []

/-- WRITE_REG's writes: an address that is no register's meets a bus error. -/
def writeRegs (c : Chip) : Nat → Nat → List W32 → CmdRes × Chip
  | 0, _, _ => (.done [], c)
  | n + 1, i, ws =>
    let a := (pw ws 0).toNat
    if regionOf a ≠ .periph then (.fin stBadParameter i [], c)
    else
      let c1 := registerWrite c 0 a 4 (pw ws 1)
      if c1.bus = .busError then (.fin stBadParameter i [], c1) else writeRegs c1 n (i + 1) (ws.drop 2)

/-- WRITE_REG. -/
def writeReg (cmd : Cmd) (c : Chip) : CmdRes × Chip :=
  let n := (pw cmd.words 0).toNat
  if n = 0 ∨ 507 < n then (.bad 0, c) else writeRegs c n 0 (cmd.words.drop 1)

/-! ### Sessions -/

/-- `n` times 8 random bytes (R452; free values). -/
def Chip.randomBytes (c : Chip) : Nat → List Byte × Chip
  | 0 => ([], c)
  | n + 1 =>
    let (x, c1) := c.takeFree
    let (bs, c2) := c1.randomBytes n
    (leBytes 8 x ++ bs, c2)

/-- A free session slot. -/
def Chip.freeSession (c : Chip) : Option Nat := (List.range 8).find? fun s => (c.session s).isNone

/-- OPEN_SESSION (R452, R453, R455, R461). -/
def openSession (cmd : Cmd) (c : Chip) : CmdRes × Chip :=
  let w0 := pw cmd.words 0
  let k := (pw cmd.words 1).toNat
  let role := wfld w0 1 0
  let byPassword := wbit w0 8
  let cred := if byPassword then (c.passCred role).map Password.verifier else c.openKey role k
  if c.bit SEC_TRNG_STAT 31 then (.fin stHardwareFault 0 [], c)
  else if (byPassword && k ≠ 0) || (!byPassword && 3 < k && !(role == 3 && k == 0xFF)) then (.bad 1, c)
  else if c.roleLocked role then (.fin stAuthFailed 0 [], c)
  else match cred, c.freeSession with
    | none, _ => (.fin stAuthFailed 0 [], c)
    | some _, none => (.fin stResource 0 [], c)
    | some key, some s =>
      let head := match byPassword, c.passCred role with
        | true, some p => p.salt ++ leBytes 4 p.iters.toNat
        | _, _ => []
      let (r, c1) := c.randomBytes 4
      let nd := (head ++ r).take 32
      let bytes := bytesOfWords cmd.words
      let x : Session := ⟨role, key, bytesAt bytes 8 32, nd, bytes.take 8, false, c.tmu.raw, 0, []⟩
      (.done (w32 s :: payloadOf (zeros 16 ++ nd) 32), c1.setSession s (some x))

/-- PROVE_SESSION (R454). -/
def proveSession (cmd : Cmd) (c : Chip) : CmdRes × Chip :=
  match c.prove cmd.slot (bytesOfWords cmd.words) with
  | (some p, c1) => (.done (payloadOf (zeros 16 ++ p) 48), c1)
  | (none, c1) => (.fin stAuthFailed 0 [], c1)

/-- CLOSE_SESSION (R431, R454). -/
def closeSession (cmd : Cmd) (c : Chip) : CmdRes × Chip :=
  if c.hif.started.any fun s => s.cmd.slot == cmd.slot then (.fin stBusy 0 [], c)
  else (.done [], c.setSession cmd.slot none)

/-- SET_PASSWORD (R457). -/
def setPasswordCmd (cmd : Cmd) (c : Chip) : CmdRes × Chip :=
  let bytes := bytesOfWords cmd.words
  let role := (pw cmd.words 0).toNat
  if 3 < role then (.bad 0, c)
  else match c.setPassword role (pw cmd.words 1) (bytesAt bytes 8 16) (bytesAt bytes 24 48) with
    | (true, c1) => (.done [], c1)
    | (false, c1) => (.bad 1, c1)

/-- INSTALL_KEY (R456). -/
def installKeyCmd (cmd : Cmd) (c : Chip) : CmdRes × Chip :=
  let w0 := pw cmd.words 0
  if 3 < wfld w0 7 4 then (.bad 0, c)
  else if pw cmd.words 1 ≠ 76 then (.bad 1, c)
  else match c.installKey cmd.slot w0 76 ((bytesOfWords cmd.words).drop 8) with
    | (true, c1) => (.start (.known stDone 0 []), c1)
    | (false, c1) => (.bad 2, c1)

/-- What ATTEST and IMAGE_INFO say of an image: an engine's state follows from the engine's, a Skipper image's from its
cluster's Skippers (R450). -/
def Chip.imageNow (c : Chip) (e : Nat) : ImageInfo :=
  let i := c.image e
  let engine := match c.peState (e - 1) with
    | 2 => 1
    | 3 => 2
    | 4 => 2
    | _ => 0
  let skipper := if (List.range 8).any fun k => c.skEn ((e - 9) * 8 + k) then 2 else 1
  let state := if i.state = 0 then 0 else if 1 ≤ e ∧ e ≤ 8 then engine else if 9 ≤ e ∧ e ≤ 12 then skipper else i.state
  let kind := if e = 0 then 0 else if e ≤ 8 then 1 else if e ≤ 12 then 2 else 3
  let inst := if e = 0 then 0 else if e ≤ 8 then e - 1 else if e ≤ 12 then e - 9 else 0
  if state = 0 then { ImageInfo.reset with kind := kind, inst := inst } else { i with kind := kind, inst := inst, state := state }

/-- An image entry of a report (R450). -/
def ImageInfo.bytes (i : ImageInfo) : List Byte :=
  [BitVec.ofNat 8 i.kind, BitVec.ofNat 8 i.inst, BitVec.ofNat 8 i.root, BitVec.ofNat 8 i.slot, BitVec.ofNat 8 i.counter,
    BitVec.ofNat 8 i.state, 0, 0] ++ leBytes 4 i.version.toNat ++ i.hash ++ zeros 4

/-- Bytes 0 to 1,055 of a report (R450). -/
def Chip.reportBody (c : Chip) (sigs total : Nat) (challenge : List Byte) : List Byte :=
  let f := c.sec.fuses
  let roots (o : Bool) : Nat := ((List.range 4).map fun s =>
    b2n (!(c.rootDigest o s).isEmpty) * 2 ^ s + b2n (c.rootRevoked o s) * 2 ^ (s + 4)).sum
  reportMagic ++ leBytes 2 sigs ++ leBytes 4 total ++ leBytes 4 (c.reg SYS_ID).toNat ++ leBytes 8 f.serial.toNat ++
    leBytes 8 c.ltNs ++ leBytes 4 c.opsec ++ leBytes 4 c.pcc ++
    [BitVec.ofNat 8 c.sysState, BitVec.ofNat 8 c.tskMode] ++ leBytes 2 15 ++
    [BitVec.ofNat 8 (roots false), BitVec.ofNat 8 (roots true), BitVec.ofNat 8 (2 * b2n f.lockDbg + b2n f.ownCode), 0] ++
    ((List.range 4).map fun k => BitVec.ofNat 8 (c.fuseCounter k)) ++ zeros 12 ++ challenge ++
    ((List.range 15).flatMap fun e => (c.imageNow e).bytes)

/-- A report with the signatures asked for (R449, R450). -/
def Chip.report (c : Chip) (rsa slh : Bool) (challenge : List Byte) : List Byte × Chip :=
  let total := 1056 + (if rsa then 384 else 0) + (if slh then 35664 else 0)
  let body := c.reportBody (b2n rsa + 2 * b2n slh) total challenge
  let (s1, c1) := if rsa then c.deviceSign 0 body else ([], c)
  let (s2, c2) := if slh then c1.deviceSign 1 body else ([], c1)
  (body ++ s1 ++ s2, c2)

/-- ATTEST (R451). -/
def attest (cmd : Cmd) (c : Chip) : CmdRes × Chip :=
  let w8 := pw cmd.words 8
  match c.session cmd.slot with
  | none => (.fin stNoSession 0 [], c)
  | some x =>
    if wbit w8 8 then
      let ofs := (pw cmd.words 9).toNat
      let n := min (if cmd.path = .mailbox then 24 else 4000) (x.report.length - ofs)
      if x.report = [] then (.fin stWrongState 0 [], c)
      else if ofs % 4 ≠ 0 ∨ x.report.length ≤ ofs then (.bad 9, c)
      else (.done ([w32 x.report.length, w32 ofs] ++ payloadOf (zeros 16 ++ bytesAt x.report ofs n) n), c)
    else if wfld w8 1 0 = 0 then (.bad 8, c)
    else
      let (r, c1) := c.report (wbit w8 0) (wbit w8 1) ((bytesOfWords cmd.words).take 32)
      (.start (.known stDone 0 [w32 r.length]), c1.setSession cmd.slot (some { x with report := r }))

end Sys2Proof.Machine
end

