-- ==== Sys2Proof/Machine/CmdImg.lean ====
section
/-!
DEFINITION. The image commands (R433, R440 to R447): LOAD_BEGIN to IMAGE_INFO, START_ENGINE by R259.
-/
namespace Sys2Proof.Machine

def Chip.handle (c : Chip) (h : Nat) : Option LoadHandle := if h < 4 then tblGet none c.hif.handles h else none

def Chip.setHandle (c : Chip) (h : Nat) (x : Option LoadHandle) : Chip :=
  c.setHif fun f => { f with handles := tblSet none f.handles h x }

/-- Whether a span lies in SRAM banks that OG0 owns. -/
def Chip.inOg0 (c : Chip) (a n : Nat) : Bool :=
  decide (0x10000000 ≤ a) && decide (a + n ≤ 0x11000000) &&
    (List.range 32).all fun b =>
      decide (a + n ≤ bankAddr b) || decide (bankAddr (b + 1) ≤ a) || c.fld (MEM_BOWN b) 3 0 == 0

/-- LOAD_BEGIN. -/
def loadBegin (cmd : Cmd) (c : Chip) : CmdRes × Chip :=
  let kind := (pw cmd.words 0).toNat
  let inst := (pw cmd.words 1).toNat
  let len := (pw cmd.words 2).toNat
  let a := (pw cmd.words 3).toNat
  if 3 < kind then (.bad 0, c)
  else if (kind = 1 ∧ 7 < inst) ∨ (kind = 2 ∧ 3 < inst) then (.bad 1, c)
  else if len = 0 then (.bad 2, c)
  else if !c.inOg0 a len then (.bad 3, c)
  else match (List.range 4).find? fun h => (c.handle h).isNone with
    | none => (.fin stResource 0 [], c)
    | some h => (.done [w32 h], c.setHandle h (some ⟨kind, pw cmd.words 1, len, a, 0, false⟩))

/-- LOAD_DATA. -/
def loadData (cmd : Cmd) (c : Chip) : CmdRes × Chip :=
  let h := (pw cmd.words 0).toNat
  let data := (bytesOfWords cmd.words).drop 8
  match c.handle h with
  | none => (.bad 0, c)
  | some x =>
    if x.committed then (.bad 0, c)
    else if (pw cmd.words 1).toNat ≠ x.loaded then (.bad 1, c)
    else if (x.len + 3) / 4 * 4 < x.loaded + data.length then (.bad 2, c)
    else
      match c.fwWrite (x.addr + x.loaded) (data.take (x.len - x.loaded)) with
      | (false, c1) => c1.memFault
      | (true, c1) =>
        let n := min x.len (x.loaded + data.length)
        (.done [w32 n], c1.setHandle h (some { x with loaded := n }))

/-- An accepted image of a kind other than supervisor firmware raises its fuse counter where it asks for it (R447). -/
def Chip.advanceBy (c : Chip) (i : ImageInfo) (advance burnt : Bool) : Chip :=
  if advance then c.rollbackAdvance i.kind i.counter burnt else c

/-- What LOAD_COMMIT answers of an accepted image. -/
def commitWords (i : ImageInfo) : List W32 := [w32 i.kind, w32 i.counter]

/-- Supervisor firmware accepted: the ROM service runs it; running firmware writes it to the other flash slot (R491). -/
def Chip.commitFirmware (c : Chip) (img : List Byte) : Chip :=
  if c.romService then c.runFirmware img
  else
    let slot := if c.bit SYS_BOOT 31 then 0 else 1 - c.fld SYS_BOOT 30 30
    c.setBytes (0x80000000 + slot * 0x1000000) img

/-- The instruction words that a Skipper image writes: cluster, index, word (R442). -/
def skipperWords (img : List Byte) : List (Nat × Nat × W32) :=
  (imgSections img).flatMap fun s =>
    if s.ty = 4 then (List.range (s.data.length / 2)).map fun i =>
      let k := s.addr + i
      (k / 256, k % 256, w32 (leNat (bytesAt s.data (2 * i) 2)))
    else []

/-- Whether a Skipper image may be written now (R344). -/
def Chip.skipperFree (c : Chip) (ws : List (Nat × Nat × W32)) : Bool :=
  ws.all fun w => decide (w.1 < 4) && !(List.range 8).any fun k => c.skEn (w.1 * 8 + k) && c.skInRange (w.1 * 8 + k) w.2.1

/-- LOAD_COMMIT of a verified image (R433, R446, R447). -/
def Chip.commitImage (c : Chip) (h : Nat) (x : LoadHandle) (img : List Byte) (burnt : Bool) : CmdRes × Chip :=
  let adv := (imgHead img).flags == 1
  let freed := c.setHandle h none
  let i := imgInfo img x.inst.toNat 1
  let ok (c : Chip) : CmdRes × Chip := (.start (.known stDone 0 (commitWords i)), c)
  match x.kind with
  | 0 => ok (freed.commitFirmware img)
  | 1 =>
    let n := x.inst.toNat
    let st := c.peState n
    if st ≠ 1 ∧ st ≠ 2 then (.start (.known stWrongState st []), c)
    else if c.sec.load.isSome then (.fin stBusy 0 [], c)
    else (.start (.load h i (imgDecls img) adv burnt), c.secPlace (engineSections n img))
  | 2 =>
    let ws := skipperWords img
    if ws.any fun w => c.clusterGated (SCc_INSN w.1 w.2.1) then (.start (.known stWrongState 0 []), c)
    else if !c.skipperFree ws then (.start (.known stBusy 0 []), c)
    else
      let c1 := ws.foldl (fun c w => regWrite c 13 (SCc_INSN w.1 w.2.1) w.2.2) freed
      ok ((c1.setImage (9 + x.inst.toNat) i).advanceBy i adv burnt)
  | _ => ok ((c.setHandle h (some { x with committed := true })).advanceBy i adv burnt)

/-- LOAD_COMMIT (R445); `burnt` whether a counter burn held. -/
def loadCommit (burnt : Bool) (cmd : Cmd) (c : Chip) : CmdRes × Chip :=
  let h := (pw cmd.words 0).toNat
  match c.handle h with
  | none => (.bad 0, c)
  | some x =>
    if x.committed then (.bad 0, c)
    else if x.loaded < x.len then (.fin stWrongState 0 [], c)
    else
      match c.fwRead x.addr x.len with
      | (none, c1) => c1.memFault
      | (some img, c1) =>
        let refused := if x.kind = 0 ∧ 393216 < x.len then some (stHardwareFault, 1) else c1.imgVerify x.kind x.inst img
        match refused with
        | some (st, detail) => (.start (.known st detail []), (c1.setHandle h none).imgFailed)
        | none => c1.commitImage h x img burnt

/-- The load of an engine image has been placed: the engine is LOADED, and what START_ENGINE needs is kept (R258). -/
def Chip.engineLoaded (c : Chip) (h : Nat) (i : ImageInfo) (ds : List Decl) (advance burnt : Bool) : Chip :=
  let n := i.inst
  let src := match c.handle h with
    | some x => (x.addr, x.len)
    | none => (0, 0)
  let c1 := ((c.setHandle h none).setPeState n 2).setImage (1 + n) i
  let c2 := c1.setHif fun f => { f with
    decls := tblSet [] f.decls n ds
    sources := tblSet (0, 0) f.sources n src }
  c2.advanceBy i advance burnt

/-! ### START_ENGINE -/

def Chip.declsFor (c : Chip) (n : Nat) : List Decl := tblGet [] c.hif.decls n

/-- The declarations of an engine with a tag. -/
def Chip.declared (c : Chip) (n tag : Nat) : List Decl := (c.declsFor n).filter fun d => d.tag == tag

/-- Whether another running engine holds a queue, CAN channel, CVU context, mailbox or owner group that this engine's
image declares (R259). -/
def Chip.heldElsewhere (c : Chip) (n : Nat) : Bool :=
  (List.range 8).any fun k => k != n && (c.peState k == 3 || c.peState k == 4) &&
    (c.declsFor n).any fun d => [2, 3, 4, 5, 6, 7].contains d.tag &&
      (c.declsFor k).any fun e => e.tag == d.tag && e.index == d.index

/-- A value of a declared register, 0 where the image declares none. -/
def declValue (ds : List Decl) (i : Nat) (f : Decl → W32) : W32 := ((ds.find? fun d => d.index == i).map f).getD 0

/-- The writes of START_ENGINE up to the CAN owners, in their order (R259). -/
def Chip.grants (c : Chip) (n : Nat) : List (Nat × W32) :=
  let m := n + 3
  let own (v : W32) : W32 := wsetFld v 27 24 m
  let segs := (List.range 16).flatMap fun s =>
    [(XDM_SEGm_BASEs m s, declValue (c.declared n 1) s Decl.v1), (XDM_SEGm_SIZEs m s, declValue (c.declared n 1) s Decl.v2)]
  let groups := (List.range 16).map fun g =>
    (MEM_OGRP g, wsetBit (c.reg (MEM_OGRP g)) m ((c.declared n 2).any fun d => d.index == g))
  let rqs := (c.declared n 3).flatMap fun d =>
    [(PE_RQq_CFG d.index, own d.v1), (PE_RQq_DBASE d.index, d.v2), (PE_RQq_BBASE d.index, d.v3)]
  let tqs := (c.declared n 4).map fun d => (PE_TQt_CFG d.index, own d.v1)
  let cans := (c.declared n 5).map fun d => (CANn_OWNER d.index, w32 m)
  segs ++ groups ++ rqs ++ tqs ++ cans

/-- START_ENGINE (R259). -/
def startEngineCmd (cmd : Cmd) (c : Chip) : CmdRes × Chip :=
  let n := (pw cmd.words 0).toNat
  let m := n + 3
  if 7 < n then (.bad 0, c)
  else if c.peState n ≠ 2 then (.fin stWrongState (c.peState n) [], c)
  else if c.heldElsewhere n then (.fin stResource 0 [], c)
  else
    let c1 := c.supWrites (c.grants n)
    let role := !(c1.declared n 8).isEmpty
    let tm := c1.fld TMU_CTL 3 0
    let busy := decide (3 ≤ tm) && decide (tm ≤ 10) && tm != m && (c1.peState (tm - 3) == 3 || c1.peState (tm - 3) == 4)
    if role && busy then (.fin stResource 0 [], c1)
    else
      let c2 := if role then regWrite c1 0 TMU_CTL (wsetFld (c1.reg TMU_CTL) 3 0 m) else c1
      let entries := (List.range 4).map fun x => (PE_PEn_ENTRY n x, declValue (c2.declared n 9) x Decl.v1)
      let wdt := [(PE_PEn_WDT n, declValue (c2.declared n 10) 0 Decl.v1), (PE_PEn_CMD n, (1 : W32))]
      (.done [], c2.supWrites (entries ++ wdt))

/-- STOP_ENGINE: the engine's STAT; STOP of an engine that is not RUNNING is refused by R258. -/
def stopEngineCmd (cmd : Cmd) (c : Chip) : CmdRes × Chip :=
  let n := (pw cmd.words 0).toNat
  if 7 < n then (.bad 0, c)
  else
    let st := c.peState n
    let c1 := regWrite c 0 (PE_PEn_CMD n) 2
    if st = 3 then c1.regReply [PE_PEn_STAT n] else (.fin stWrongState st [], c1)

/-- IMAGE_INFO; instance 0 of a control program is the active one, 1 the staged one. -/
def imageInfoCmd (cmd : Cmd) (c : Chip) : CmdRes × Chip :=
  let kind := (pw cmd.words 0).toNat
  let inst := (pw cmd.words 1).toNat
  let top := match kind with
    | 0 => 0
    | 1 => 7
    | 2 => 3
    | _ => 1
  if 3 < kind then (.bad 0, c)
  else if top < inst then (.bad 1, c)
  else
    let i := c.imageNow (imageEntry kind inst)
    (.done ([w32 i.state, i.version, w32 i.counter, w32 i.slot] ++ payloadOf (zeros 16 ++ i.hash) 48), c)

end Sys2Proof.Machine
end

