-- ==== Sys2Proof/Machine/CmdNet.lean ====
section
/-!
DEFINITION. The network commands (R433): PORT_CONFIG to CAN_CONFIG.
-/
namespace Sys2Proof.Machine

/-- Registers with the words of a payload from an index on, in order. -/
def withWords (as_ : List Nat) (ws : List W32) (i : Nat) : List (Nat × W32) := as_.zip (ws.drop i)

/-! ### Ports -/

/-- A unit powered by supervisor firmware, which waits the 20 µs of R481. -/
def Chip.powerUnit (c : Chip) (u : Nat) : Chip :=
  let c1 := gateWrite c 0 (wsetBit (c.reg PWR_GATE) u true)
  if c1.bit PWR_GATE u ∧ c1.bit PWR_GSTAT u = false then (c1.setBit PWR_GSTAT u true).raise 5 0 else c1

/-- The latencies of R117 for a resolved mode and speed code, in 2^-8 ns: receive and transmit. -/
def latencies (mode speed : Nat) : Nat × Nat :=
  let copper := match speed with
    | 0 => (752640, 275200)
    | 1 => (78336, 41472)
    | _ => (59264, 30272)
  let usx := match speed with
    | 0 => 1000
    | 1 => 100
    | 2 => 10
    | 3 => 4
    | 4 => 2
    | _ => 1
  match mode with
  | 0x8 => (260736, 182784)
  | 0x9 => (260736, 182784)
  | 0xA => match speed with
    | 0 => (1333760, 1013760)
    | 1 => (138240, 104960)
    | _ => (24064, 18304)
  | 0xB => (24064, 18304)
  | 0xC => (10624, 7872)
  | 0xD => ((40 + (usx - 1) * 31) * 256, (28 + (usx - 1) * 24) * 256)
  | 0xE => (9792, 6784)
  | _ => copper

/-- What supervisor firmware writes at a link-up of a port that PORT_CONFIG has set up (R433). -/
def Chip.linkFirmware (c : Chip) (p : Nat) : Chip :=
  match tblGet [] c.hif.ports p with
  | [] => c
  | ws =>
    let (rx, tx) := latencies (c.fld (ETH_Pn_STAT p) 3 0) (c.fld (ETH_Pn_STAT p) 27 24)
    c.supWrites ([(TMU_Pn_LATRX p, w32 rx), (TMU_Pn_LATTX p, w32 tx)] ++ withWords [ETH_Pn_PRE_CTL p, ETH_Pn_EEE_TWTX p,
      ETH_Pn_EEE_IDLE p, ETH_Pn_EEE_GUARD p, ETH_Pn_EEE_MINSLP p, ETH_Pn_EEE_CTL p] ws 0)

/-- PORT_CONFIG: the bring-up sequence up to the write of CTL; the words for link-up are kept. The link of a 10BASE-T1S
port is up by then (R113). -/
def portConfig (cmd : Cmd) (c : Chip) : CmdRes × Chip :=
  let ws := cmd.words
  let p := (pw ws 0).toNat
  let mode := wfld (pw ws 1) 3 0
  if 7 < p then (.bad 0, c)
  else if !modeListed p mode then (.bad 1, c)
  else
    let c1 := (regWrite c 0 (ETH_Pn_CTL p) (wsetFld (c.reg (ETH_Pn_CTL p)) 3 0 0)).powerUnit (8 + p)
    let addrs := [(ETH_Pn_MAXLEN p, pw ws 2), (ETH_Pn_PVID p, pw ws 3), (ETH_Pn_MACADDR_HI p, pw ws 4),
      (ETH_Pn_MACADDR_LO p, pw ws 5)]
    let an := if mode = 1 then [(ETH_Pn_ANADV p, pw ws 6)] else []
    let plca := if p = 2 ∨ p = 3 then [(ETH_Pn_PLCA_TMR p, pw ws 7), (ETH_Pn_PLCA_CTL p, pw ws 8)] else []
    let c2 := c1.supWrites (addrs ++ an ++ plca ++ [(ETH_Pn_CTL p, pw ws 1)])
    let c3 := c2.setHif fun h => { h with ports := tblSet [] h.ports p (ws.drop 9) }
    (.done [], if c3.linkUp p then c3.linkFirmware p else c3)

/-- A happening at a port, with supervisor firmware's part where it brings the link up (R433). -/
def Chip.atPort (c : Chip) (p : Nat) (f : Chip → Chip) : Chip :=
  let c1 := f c
  if !c.linkUp p && c1.linkUp p && c1.serving then c1.linkFirmware p else c1

/-- PORT_STATUS. -/
def portStatus (cmd : Cmd) (c : Chip) : CmdRes × Chip :=
  let p := (pw cmd.words 0).toNat
  if 7 < p then (.bad 0, c)
  else c.regReply ([ETH_Pn_STAT p, ETH_Pn_FLAGS p, ETH_Pn_EEE_STAT p, ETH_Pn_PRE_STAT p, ETH_Pn_PLCA_STAT p,
    ETH_Pn_CT_PAIR p 0, ETH_Pn_CT_PAIR p 1, ETH_Pn_CT_PAIR p 2, ETH_Pn_CT_PAIR p 3, TMU_Pn_EQSTAT p])

/-! ### The switch -/

/-- hiCredit and loCredit of a class as 802.1Q derives them from the idle slope, the port's rate and the longest
frame (R154; PRESUMED, log entry 72): in bits, signed. -/
def creditLimits (idle rate frame : Nat) : Int × Int :=
  let i := min idle rate
  let bits := frame * 8
  (if rate = 0 then (0, 0) else ((bits * i / rate : Nat), -((bits * (rate - i) / rate : Nat) : Int)))

/-- SWITCH_CONFIG. -/
def switchConfig (cmd : Cmd) (c : Chip) : CmdRes × Chip :=
  let ws := cmd.words
  let p := (pw ws 0).toNat
  if p = 0xFF then
    (.done [], c.supWrites (withWords ([SWX_CTL, SWX_PECKLOW, SWX_FDB_AGE, SWX_SCRUB] ++ (List.range 8).map SWX_AGE ++
      [SWX_SCHED_CTL]) ws 1))
  else if 9 < p then (.bad 0, c)
  else
    let frame := if p < 8 then (c.reg (ETH_Pn_MAXLEN p)).toNat else 9216
    let credits := (List.range 8).flatMap fun k =>
      let (hi, lo) := creditLimits (pw ws (11 + k)).toNat (c.rate p * 1000) frame
      [(SWX_Pp_HICREDIT p k, w32i hi), (SWX_Pp_LOCREDIT p k, w32i lo)]
    (.done [], c.supWrites (withWords ([SWX_Pp_CTL p, SWX_Pp_PCPMAP p] ++ (List.range 8).map (SWX_Pp_QLIM p) ++
      (List.range 8).map (SWX_Pp_IDLESLOPE p)) ws 1 ++ credits))

/-- FDB_ACCESS: one switch table operation, which ends before the reply. -/
def fdbAccess (cmd : Cmd) (c : Chip) : CmdRes × Chip :=
  let ws := cmd.words
  if c.swx.tblOp.isSome then (.fin stBusy 0 [], c)
  else
    let c1 := c.supWrites (withWords ((List.range 8).map SWX_TBL_DATA) ws 1 ++ [(SWX_TBL_CMD, wsetBit (pw ws 0) 31 true)])
    (tableOpDone c1).regReply (SWX_TBL_STAT :: (List.range 8).map SWX_TBL_DATA)

/-- Entries of a port's admin gate list written through the table window (R153, R165). -/
def adminWrites (c : Chip) (i : Nat) : Nat → List W32 → Chip
  | 0, _ => c
  | n + 1, ws =>
    let data := withWords ((List.range 8).map SWX_TBL_DATA) [pw ws 0, pw ws 1, 0, 0, 0, 0, 0, 0] 0
    adminWrites (tableOpDone (c.supWrites (data ++ [(SWX_TBL_CMD, w32 (0x97000000 + i))]))) (i + 1) n (ws.drop 2)

/-- SCHEDULE_LOAD. -/
def scheduleLoad (cmd : Cmd) (c : Chip) : CmdRes × Chip :=
  let ws := cmd.words
  let p := wfld (pw ws 0) 3 0
  let first := wfld (pw ws 0) 25 16
  let n := (pw ws 1).toNat
  if 9 < p then (.bad 0, c)
  else if n = 0 ∨ 507 < n ∨ 1024 < first + n then (.bad 1, c)
  else if c.swx.tblOp.isSome then (.fin stBusy 0 [], c)
  else (.done [], adminWrites c (p * 1024 + first) n (ws.drop 2))

/-- SCHEDULE_SWITCH: CHANGE is written with GCL_STAT.ERR cleared before it; the end is the change (R153). -/
def scheduleSwitch (cmd : Cmd) (c : Chip) : CmdRes × Chip :=
  let ws := cmd.words
  let p := (pw ws 0).toNat
  if 9 < p then (.bad 0, c)
  else
    let c1 := regWrite c 0 (SWX_Pp_GCL_STAT p) 0x20000000
    let c2 := c1.supWrites (withWords [SWX_Pp_GCL_CTL p, SWX_Pp_BASE_HI p, SWX_Pp_BASE_LO p, SWX_Pp_CYCLE p,
      SWX_Pp_CYCLEEXT p] ws 1 ++ [(SWX_Pp_GCL_CMD p, 1)])
    (.start (.gateChange p), c2)

/-- COUNTERS_READ. -/
def countersRead (cmd : Cmd) (c : Chip) : CmdRes × Chip :=
  let p := (pw cmd.words 0).toNat
  if p = 0xFF then c.regReply (span SWX_CNT_LEARNFAIL 12)
  else if 7 < p then (.bad 0, c)
  else (regWrite c 0 (ETH_Pn_CNTSNAP p) 1).regReply ((List.range 64).map (ETH_Pn_SNAP p))

/-! ### CAN -/

/-- The registers of part 0 of CAN_CONFIG behind CTL. -/
def canRegs (n : Nat) : List Nat :=
  [CANn_OWNER n, CANn_NBT n, CANn_DBT n, CANn_XBT n, CANn_TDC n, CANn_PWM n, CANn_RING_BASE n, CANn_RING_CTL n,
    CANn_XLRX_BASE n, CANn_XLRX_CTL n, CANn_TT_CFG n, CANn_TT_NTU n, CANn_TT_VETO n, CANn_TT_GWBASE_HI n,
    CANn_TT_GWBASE_LO n] ++ (List.range 4).map (CANn_TT_MODE n) ++ [CANn_GD_CTL n, CANn_GD_NTU n] ++
    (List.range 4).map (CANn_GD_MODE n)

/-- Words written into message memory until one is refused. -/
def canWords (c : Chip) (a : Nat) : List W32 → CmdRes × Chip
  | [] => (.done [], c)
  | w :: ws =>
    let c1 := regWrite c 0 a w
    if c1.bus = .busError then (.fin stBusy 0 [], c1) else canWords c1 (a + 4) ws

/-- CAN_CONFIG: part 0 writes CTL last (R174); part 1 writes message memory. -/
def canConfig (cmd : Cmd) (c : Chip) : CmdRes × Chip :=
  let ws := cmd.words
  let n := wfld (pw ws 0) 1 0
  if wbit (pw ws 0) 8 then
    let ofs := (pw ws 1).toNat
    let k := (pw ws 2).toNat
    if ofs % 4 ≠ 0 ∨ 0x4000 ≤ ofs then (.bad 1, c)
    else if k = 0 ∨ 0x4000 < ofs + 4 * k then (.bad 2, c)
    else canWords c (0x40080000 + n * 0x4000 + ofs) (ws.drop 3)
  else if c.bit (CANn_CTL n) 31 then (.fin stWrongState (c.fld (CANn_STAT n) 31 30) [], c)
  else (.done [], c.supWrites (withWords (canRegs n) ws 2 ++ [(CANn_CTL n, pw ws 1)]))

end Sys2Proof.Machine
end

