-- ==== Sys2Proof/Machine/CmdTime.lean ====
section
/-!
DEFINITION. The time and angle commands (R433): DOMAIN_CONFIG to SHAFT_MASTER_PROFILE.
-/
namespace Sys2Proof.Machine

/-! ### Time -/

/-- DOMAIN_CONFIG: AUTO is TMU_DOMSEL's, LTSTEP TMU_CTL's; SEL is written as the domain in force. -/
def domainConfig (cmd : Cmd) (c : Chip) : CmdRes × Chip :=
  let ws := cmd.words
  let x := (pw ws 0).toNat
  if 1 < x then (.bad 0, c)
  else
    let sel := wsetBit (wsetBit (c.reg TMU_DOMSEL) 0 c.tmu.activeB) 1 (wbit (pw ws 5) 1)
    (.done [], c.supWrites ([(TMU_Dx_SYNCTO x, pw ws 1), (TMU_Dx_FAILLIM x, pw ws 2), (TMU_SLEW, pw ws 3),
      (TMU_HOLDLIM, pw ws 4), (TMU_DOMSEL, sel), (TMU_CTL, wsetBit (c.reg TMU_CTL) 8 (wbit (pw ws 6) 8))]))

/-- DOMAIN_STATUS. -/
def domainStatus (_ : Cmd) (c : Chip) : CmdRes × Chip :=
  c.regReply (((List.range 2).flatMap fun x => [TMU_Dx_STATE x, TMU_Dx_FLAGS x, TMU_Dx_HOLDTIME x, TMU_Dx_TIME_LO x,
    TMU_Dx_TIME_HI x, TMU_Dx_RATENOW_LO x, TMU_Dx_RATENOW_HI x]) ++ [TMU_DOMSEL, TMU_H_LO, TMU_H_HI, TMU_LT_LO, TMU_LT_HI])

/-- SELECT_DOMAIN: WRONG_STATE where R55 refuses the write. -/
def selectDomain (cmd : Cmd) (c : Chip) : CmdRes × Chip :=
  let x := (pw cmd.words 0).toNat
  if 1 < x then (.bad 0, c)
  else
    let c1 := regWrite c 0 TMU_DOMSEL (wsetBit (c.reg TMU_DOMSEL) 0 (x == 1))
    if c1.tmu.activeB == (x == 1) then c1.regReply [TMU_DOMSEL]
    else (.fin stWrongState (c1.regLive 0 (TMU_Dx_STATE x)).toNat [], c1)

/-- STAMP_CONFIG. -/
def stampConfig (cmd : Cmd) (c : Chip) : CmdRes × Chip :=
  let ws := cmd.words
  let i := wfld (pw ws 0) 6 0
  match wfld (pw ws 0) 9 8 with
  | 0 => if 7 < i then (.bad 0, c)
    else (.done [], c.supWrites (withWords [TMU_Pn_TSCTL i, TMU_Pn_LATRX i, TMU_Pn_LATTX i] ws 1))
  | 1 => if 47 < i then (.bad 0, c) else (.done [], regWrite c 0 (TMU_TSn_CFG i) (pw ws 1))
  | 2 => if 31 < i then (.bad 0, c)
    else if c.bit (TMU_TOn_CFG i) 8 then (.fin stWrongState 0 [], c)
    else (.done [], c.supWrites (withWords [TMU_TOn_CFG i, TMU_TOn_WIDTH i, TMU_TOn_PERIOD i] ws 1))
  | _ => (.bad 0, c)

/-! ### Angle -/

/-- SHAFT_CONFIG; a CMD word of 0 commands nothing. -/
def shaftConfig (cmd : Cmd) (c : Chip) : CmdRes × Chip :=
  let ws := cmd.words
  let n := (pw ws 0).toNat
  if n = 0xFF then (.done [], c.supWrites (withWords [ANG_ULPTYPE, ANG_STATION, ANG_DOMAIN] ws 1))
  else if 15 < n then (.bad 0, c)
  else
    let c1 := c.supWrites (withWords [ANG_SHn_CFG n, ANG_SHn_BSLEW n, ANG_SHn_ELIM n, ANG_SHn_REFTO n, ANG_SHn_COASTLIM n,
      ANG_SHn_PERIOD n, ANG_SHn_LEAD n, ANG_SHn_MSRC n, ANG_SHn_MSCALE n] ws 1)
    let k := pw ws 10
    (if k = 0 then c1 else regWrite c1 0 (ANG_SHn_CMD n) k).regReply [ANG_SHn_STAT n]

/-- SHAFT_STATUS. -/
def shaftStatus (cmd : Cmd) (c : Chip) : CmdRes × Chip :=
  let n := (pw cmd.words 0).toNat
  if 15 < n then (.bad 0, c)
  else c.regReply [ANG_SHn_STAT n, ANG_SHn_FLAGS n, ANG_SHn_ANG_LO n, ANG_SHn_ANG_HI n, ANG_SHn_VEL_LO n, ANG_SHn_VEL_HI n,
    ANG_SHn_E_LO n, ANG_SHn_E_HI n, ANG_SHn_REFCNT n, ANG_SHn_REFUSED n, ANG_SHn_OUTSEQ n]

/-- ANGLE_EVENT_SET. -/
def angleEventSet (cmd : Cmd) (c : Chip) : CmdRes × Chip :=
  let ws := cmd.words
  let n := (pw ws 0).toNat
  if 1023 < n then (.bad 0, c)
  else
    (c.supWrites [(ANG_AEn_ACT n, pw ws 2), (ANG_AEn_PERIOD n, pw ws 5), (ANG_AEn_POS_HI n, pw ws 3),
      (ANG_AEn_POS_LO n, pw ws 4), (ANG_AEn_CFG n, pw ws 1)]).regReply [ANG_AEn_STAT n]

/-- ANGLE_EVENT_CLEAR. -/
def angleEventClear (cmd : Cmd) (c : Chip) : CmdRes × Chip :=
  let first := (pw cmd.words 0).toNat
  let n := (pw cmd.words 1).toNat
  if 1023 < first then (.bad 0, c)
  else if 1024 < first + n then (.bad 1, c)
  else (.done [], c.supWrites ((List.range n).map fun i => (ANG_AEn_CFG (first + i), (0 : W32))))

/-- SHAFT_MASTER_PROFILE: WRONG_STATE unless the shaft is MASTER with its profile. -/
def shaftMasterProfile (cmd : Cmd) (c : Chip) : CmdRes × Chip :=
  let ws := cmd.words
  let n := (pw ws 0).toNat
  if 15 < n then (.bad 0, c)
  else
    let st := wfld (c.regLive 0 (ANG_SHn_STAT n)) 2 0
    if st ≠ 2 ∨ c.bit (ANG_SHn_MSRC n) 31 then (.fin stWrongState st [], c)
    else (.done [], c.supWrites (withWords [ANG_SHn_MVEL_HI n, ANG_SHn_MVEL_LO n, ANG_SHn_MACC n] ws 1))

end Sys2Proof.Machine
end

