-- ==== Sys2Proof/Machine/CmdMot.lean ====
section
/-!
DEFINITION. The motion commands (R433): AXIS_CONFIG to AXIS_STATUS.
-/
namespace Sys2Proof.Machine

/-- Whether an axis refuses a command in its present state (R301, R303). -/
def Chip.axisRefuses (c : Chip) (n : Nat) (v : W32) : Bool :=
  let k : MotCmd := ⟨c.ltUs, v, c.pair (AXn_TGT_LO n), c.pair (AXn_VTGT_LO n), c.axisLims n,
    sext 32 (c.reg (AXn_GEARNUM n)).toNat, (c.reg (AXn_GEARDEN n)).toNat⟩
  ((c.setBit (AXn_EVCAUSE n) 3 false).axisCommand n c.ltUs k).bit (AXn_EVCAUSE n) 3

/-- A write of AXn_CMD by supervisor firmware, answered once the axis has taken or refused it (DESIGN CHOICE, log
entry 73). -/
def Chip.axisCmd (c : Chip) (n : Nat) (v : W32) : CmdRes × Chip :=
  let c1 := regWrite c 0 (AXn_CMD n) v
  if c.axisRefuses n v then (.fin stWrongState (c.axState n) [], c1) else c1.regReply [AXn_STAT n]

/-- AXIS_CONFIG: WRONG_STATE outside DISABLED (R302). -/
def axisConfig (cmd : Cmd) (c : Chip) : CmdRes × Chip :=
  let n := (pw cmd.words 0).toNat
  if 31 < n then (.bad 0, c)
  else if c.axState n ≠ 0 then (.fin stWrongState (c.axState n) [], c)
  else (.done [], c.supWrites (withWords [AXn_CFG n, AXn_GEARNUM n, AXn_GEARDEN n, AXn_CAMBASE0 n, AXn_CAMBASE1 n,
    AXn_CAMCFG0 n, AXn_CAMCFG1 n, AXn_CAMSPAN0 n, AXn_CAMSPAN1 n, AXn_DEVWIN n, AXn_DEVTIME n, AXn_DEVDLY n, AXn_FBSCALE n,
    AXn_FBCFG n, AXn_SDEC_HI n, AXn_SDEC_LO n, AXn_SJERK_HI n, AXn_SJERK_LO n] cmd.words 1))

/-- AXIS_MOVE; with WAIT the bits DONE and FAULT of EVCAUSE are cleared first. -/
def axisMove (cmd : Cmd) (c : Chip) : CmdRes × Chip :=
  let ws := cmd.words
  let n := (pw ws 0).toNat
  let vel := wbit (pw ws 1) 0
  let wait := wbit (pw ws 1) 8
  if 31 < n then (.bad 0, c)
  else
    let tgt := if vel then [AXn_VTGT_HI n, AXn_VTGT_LO n] else [AXn_TGT_HI n, AXn_TGT_LO n]
    let c1 := c.supWrites (withWords (tgt ++ [AXn_VMAX_HI n, AXn_VMAX_LO n, AXn_AMAX_HI n, AXn_AMAX_LO n, AXn_DMAX_HI n,
      AXn_DMAX_LO n, AXn_JMAX_HI n, AXn_JMAX_LO n]) ws 2)
    let c2 := if wait then regWrite c1 0 (AXn_EVCAUSE n) 5 else c1
    let r := c2.axisCmd n (if vel then 8 else 4)
    match r.1, wait with
    | .fin 0 _ _, true => (.start (.axis n), r.2)
    | _, _ => r

/-- STOP of each axis of a mask: the axes that refused it. -/
def stopAxes (c : Chip) (mask : W32) : List Nat → Nat × Chip
  | [] => (0, c)
  | n :: ns =>
    if wbit mask n then
      let (r, c1) := c.axisCmd n 0x40
      let (m, c2) := stopAxes c1 mask ns
      (match r with
        | .fin 0 _ _ => m
        | _ => m + 2 ^ n, c2)
    else stopAxes c mask ns

/-- AXIS_STOP. -/
def axisStopCmd (cmd : Cmd) (c : Chip) : CmdRes × Chip :=
  let (m, c1) := stopAxes c (pw cmd.words 0) (List.range 32)
  (.done [w32 m], c1)

/-- A phase committed by supervisor firmware (R309). -/
def Chip.axisPhase (c : Chip) (n : Nat) (hi lo : W32) : CmdRes × Chip :=
  let old := c.bit (AXn_EVCAUSE n) 3
  let c1 := (c.setBit (AXn_EVCAUSE n) 3 false).supWrites [(AXn_PHASE_HI n, hi), (AXn_PHASE_LO n, lo)]
  if c1.bit (AXn_EVCAUSE n) 3 then (.fin stWrongState (c.axState n) [], c1)
  else (c1.setBit (AXn_EVCAUSE n) 3 old).regReply [AXn_STAT n]

/-- AXIS_GEAR: engages, arms a cam set, or commits a phase. -/
def axisGear (cmd : Cmd) (c : Chip) : CmdRes × Chip :=
  let ws := cmd.words
  let n := (pw ws 0).toNat
  let w := pw ws 1
  if 31 < n then (.bad 0, c)
  else if wbit w 2 ∧ wbit w 3 then (.bad 1, c)
  else if wbit w 2 then c.axisCmd n 0x100
  else if wbit w 3 then c.axisPhase n (pw ws 6) (pw ws 7)
  else
    (c.supWrites (withWords [AXn_GEARNUM n, AXn_GEARDEN n, AXn_GOFS_HI n, AXn_GOFS_LO n] ws 2)).axisCmd n
      (w32 ((if wbit w 0 then 0x20 else 0x10) + b2n (wbit w 1) * 0x200))

/-- AXIS_STATUS. -/
def axisStatus (cmd : Cmd) (c : Chip) : CmdRes × Chip :=
  let n := (pw cmd.words 0).toNat
  if 31 < n then (.bad 0, c)
  else c.regReply [AXn_STAT n, AXn_EVCAUSE n, AXn_CMDPOS_LO n, AXn_CMDPOS_HI n, AXn_CMDVEL_LO n, AXn_CMDVEL_HI n,
    AXn_ACTPOS_LO n, AXn_ACTPOS_HI n, AXn_STOPPOS_LO n, AXn_STOPPOS_HI n, AXn_DEVNOW n]

end Sys2Proof.Machine
end

