-- ==== Sys2Proof/Machine/CmdTsk.lean ====
section
/-!
DEFINITION. The control-program commands (R433): PROGRAM_LOAD to PROGRAM_STATUS.
-/
namespace Sys2Proof.Machine

/-- The banks of a mask. -/
def banksOf (mask : W32) : List Nat := (List.range 32).filter fun b => wbit mask b

/-- The spans of a verified program written by supervisor firmware, in order, until one fails. -/
def Chip.fwWrites (c : Chip) : List (Nat × List Byte) → Bool × Chip
  | [] => (true, c)
  | (a, bs) :: rest =>
    match c.fwWrite a bs with
    | (true, c1) => c1.fwWrites rest
    | r => r

/-- A verified program placed in banks of TGRP: supervisor firmware takes each bank for OG0, writes the program, and
gives the banks back (R27, R29, R433; PRESUMED, log entry 74). -/
def Chip.placeProgram (c : Chip) (mask : W32) (spans : List (Nat × List Byte)) : Bool × Chip :=
  let own (og : Nat → Nat) (c : Chip) : Chip := (banksOf mask).foldl (fun c b => c.setFld (MEM_BOWN b) 3 0 (og b)) c
  let (ok, c1) := (own (fun _ => 0) c).fwWrites spans
  (ok, own (fun b => c.fld (MEM_BOWN b) 3 0) c1)

/-- Whether a span lies in the banks of a mask. -/
def inBanks (mask : W32) (a n : Nat) : Bool :=
  n == 0 || (decide (0x10000000 ≤ a) && decide (a + n ≤ 0x11000000) &&
    (List.range 32).all fun b => wbit mask b || decide (a + n ≤ bankAddr b) || decide (bankAddr (b + 1) ≤ a))

/-- A map with the program's base added to its address fields (R442). -/
def rebasedMap (base : Nat) (bs : List Byte) : List Byte :=
  (List.range (bs.length / 16)).flatMap fun i =>
    bytesAt bs (16 * i) 8 ++ leBytes 4 ((leNat (bytesAt bs (16 * i + 8) 4) + base) % 2 ^ 32) ++ bytesAt bs (16 * i + 12) 4

/-- The sections of a control program with their addresses: code, data, the map, and the task table behind them
(R442; DESIGN CHOICE, log entry 74). -/
def programSections (base : Nat) (img : List Byte) : List (Nat × List Byte) × Program :=
  let ss := imgSections img
  let body := ss.filterMap fun s => match s.ty with
    | 1 => some (base + s.addr, s.data)
    | 2 => some (base + s.addr, s.data)
    | 3 => some (base + s.addr, rebasedMap base s.data)
    | _ => none
  let top := body.foldl (fun t s => max t (s.1 + s.2.length)) base
  let task := (top + 63) / 64 * 64
  let tab := match ss.find? fun s => s.ty == 6 with
    | some s => bytesAt s.data 0 128
    | none => zeros 128
  let map := match ss.find? fun s => s.ty == 3 with
    | some s => (base + s.addr, s.data.length / 16)
    | none => (base, 0)
  (body ++ [(task, tab)], ⟨0, base, map.1, map.2, task, 0⟩)

/-- A program made active in place of none: its map, and its tasks' entries from its task table (R433). -/
def Chip.activateProgram (c : Chip) (p : Program) (info : ImageInfo) (tab : List Byte) : Chip :=
  let c1 := c.supWrites [(TSK_VMAP, w32 p.map), (TSK_VMAPN, w32 p.mapN)]
  let c2 := (List.range 32).foldl (fun c k =>
    let w := w32 (leNat (bytesAt tab (4 * k) 4))
    (regWrite c 0 (TSK_TKk_ENTRY k) (w &&& 0xFFFFFFFC)).supWrites [(TSK_TKk_CFG k, wsetBit (c.reg (TSK_TKk_CFG k)) 31 (wbit w 0))]) c1
  ((c2.setHandle p.handle none).setImage 13 { info with state := 2 }).setHif fun h => { h with active := some p }

/-- PROGRAM_LOAD. -/
def programLoad (cmd : Cmd) (c : Chip) : CmdRes × Chip :=
  let h := (pw cmd.words 0).toNat
  let mask := pw cmd.words 1
  let used := match c.hif.active with
    | some p => p.banks
    | none => 0
  match c.handle h with
  | none => (.bad 0, c)
  | some x =>
    let owned (b : Nat) : Bool := (List.range 8).any fun n => c.tgrp n == c.fld (MEM_BOWN b) 3 0
    if !x.committed then (.bad 0, c)
    else if mask = 0 ∨ mask &&& used ≠ 0 ∨ (banksOf mask).any fun b => !owned b then (.bad 1, c)
    else
      match c.fwRead x.addr x.len with
      | (none, c1) => c1.memFault
      | (some img, c1) =>
        let (spans, p0) := programSections (bankAddr ((banksOf mask).headD 0)) img
        let p := { p0 with handle := h, banks := mask }
        let info := imgInfo img 0 3
        if spans.any fun s => !inBanks mask s.1 s.2.length then (.fin stResource 0 [], c1)
        else match c1.placeProgram mask spans with
          | (false, c2) => c2.memFault
          | (true, c2) =>
            let tab := ((spans.getLast?).map (·.2)).getD []
            let c3 := if c2.fld TSK_VMAPN 15 0 = 0 then c2.activateProgram p info tab
              else (c2.setImage 14 info).setHif fun f => { f with staged := some p }
            (.done [w32 p.map, w32 p.mapN, w32 p.task], c3)

/-- PROGRAM_MODE: WRONG_STATE where R273 refuses the request. -/
def programMode (cmd : Cmd) (c : Chip) : CmdRes × Chip :=
  let mode := (pw cmd.words 0).toNat
  if 4 < mode then (.bad 0, c)
  else
    let old := c.tskMode
    let c1 := regWrite c 0 TSK_MODE (w32 mode)
    if c1.tskMode ≠ mode ∨ old = mode then (.fin stWrongState old [], c1) else c1.regReply [TSK_STAT]

/-- VALUE_CHANGE (R290): a refused batch answers with its RESULT. -/
def valueChange (cmd : Cmd) (c : Chip) : CmdRes × Chip :=
  let ws := cmd.words
  let n := (pw ws 1).toNat
  let task := wfld (pw ws 0) 4 0
  if n = 0 ∨ 32 < n then (.bad 1, c)
  else if c.tsk.batch.isSome then (.fin stBusy 0 [], c)
  else
    let pushes := (List.range n).flatMap fun i =>
      [(TSK_VC_ID, pw ws (2 + 3 * i)), (TSK_VC_LO, pw ws (3 + 3 * i)), (TSK_VC_HI, pw ws (4 + 3 * i)), (TSK_VC_CTL, w32 (2 ^ 31))]
    let apply := w32 (2 ^ 30 + b2n (wbit (pw ws 0) 8) * 2 ^ 29 + task)
    let c1 := c.supWrites (pushes ++ [(TSK_VC_CTL, apply)])
    if c1.tsk.batch.isSome then (.start (.valueChange task), c1)
    else (.fin stBadParameter (c1.fld TSK_VC_STAT 18 16 * 4096) [], c1)

/-- FORCE_SET (R285, R286). -/
def forceSetCmd (cmd : Cmd) (c : Chip) : CmdRes × Chip :=
  let ws := cmd.words
  let mode := c.tskMode
  if mode = 0 ∨ mode = 4 then (.fin stWrongState mode [], c)
  else match (List.range 64).find? fun f => !c.fcOn f with
    | none => (.fin stResource 0 [], c)
    | some f =>
      let c1 := c.supWrites [(TSK_FCf_ID f, pw ws 0), (TSK_FCf_VAL_LO f, pw ws 1), (TSK_FCf_VAL_HI f, pw ws 2),
        (TSK_FCf_CTL f, w32 (2 ^ 31))]
      if c1.fcOn f then (.done [w32 f], c1) else (.bad 0, c1)

/-- The enabled force entries. -/
def Chip.forcesOn (c : Chip) : List Nat := (List.range 64).filter fun f => c.fcOn f

/-- FORCE_CLEAR (R286, R288). -/
def forceClearCmd (cmd : Cmd) (c : Chip) : CmdRes × Chip :=
  let id := pw cmd.words 0
  let fs := c.forcesOn.filter fun f => id == 0xFFFFFFFF || c.reg (TSK_FCf_ID f) == id
  if fs = [] ∧ id ≠ 0xFFFFFFFF then (.bad 0, c)
  else
    let c1 := c.supWrites (fs.map fun f => (TSK_FCf_CTL f, (0 : W32)))
    (.done [w32 c1.forcesOn.length], c1)

/-- PROGRAM_SWAP (R291). -/
def programSwap (cmd : Cmd) (c : Chip) : CmdRes × Chip :=
  let h := (pw cmd.words 0).toNat
  match c.hif.staged with
  | none => (.bad 0, c)
  | some p =>
    if p.handle ≠ h then (.bad 0, c)
    else if c.tsk.swapReq then (.fin stBusy 0 [], c)
    else
      let c1 := c.supWrites [(TSK_SWAP_MAP, w32 p.map), (TSK_SWAP_MAPN, w32 p.mapN), (TSK_SWAP_TASKS, w32 p.task),
        (TSK_SWAP_CTL, 1)]
      if c1.tsk.swapReq then (.start (.swap h), c1) else (.fin stWrongState c.tskMode [], c1)

/-- PROGRAM_STATUS. -/
def programStatus (_ : Cmd) (c : Chip) : CmdRes × Chip :=
  let (a, c1) := c.supReads [TSK_STAT, TSK_DIAGLAST]
  let (b, c2) := c1.supReads ([TSK_SWAP_STAT, TSK_VC_STAT] ++
    (List.range 8).flatMap fun n => [TSK_FRn_STAT n, TSK_FRn_CYCLE n])
  (.done (a ++ [w32 c.forcesOn.length] ++ b), c2)

end Sys2Proof.Machine
end

