-- ==== Sys2Proof/Machine/CmdDiag.lean ====
section
/-!
DEFINITION. The recorder and diagnostics commands (R433), and the end of the commands answered STARTED (R431).
-/
namespace Sys2Proof.Machine

/-! ### The recorder -/

/-- A recorder command answers HARDWARE_FAULT while MRAM does not work (R433). -/
def Chip.withMram (c : Chip) (f : CmdRes × Chip) : CmdRes × Chip :=
  if c.bit MEM_STAT 0 then f else (.fin stHardwareFault 0 [], c)

/-- RECORD_READ: the held records, oldest first, from the oldest that is not older than a sequence (R465, R467). -/
def recordRead (cmd : Cmd) (c : Chip) : CmdRes × Chip :=
  let first := (pw cmd.words 0).toNat % seqMod
  let n := (pw cmd.words 1).toNat
  c.withMram (
    if n = 0 ∨ 63 < n then (.bad 1, c)
    else
      let rs := ((oldestFirst c.heldRecs).dropWhile fun r => seqLater first r.seq).take n
      (.done (w32 rs.length :: rs.flatMap fun r => c.words (evrSlot r.slot) 16), c))

/-- RECORD_WRITE: a record of the host through the submission registers (R462, R467); `verified` whether its read-back
held. -/
def recordWrite (verified : Bool) (cmd : Cmd) (c : Chip) : CmdRes × Chip :=
  let ws := cmd.words
  c.withMram (
    if c.evr.op.isSome then (.fin stBusy 0 [], c)
    else if 7 < (pw ws 0).toNat then (.bad 0, c)
    else
      let c1 := c.supWrites ([(EVR_SUB_HDR, w32 (at_ (pw ws 0).toNat 16 + 0x0201)), (EVR_SUB_CODE, pw ws 1)] ++
        withWords ((List.range 8).map EVR_SUB_DATA) ws 2 ++ [(EVR_SUB_CTL, w32 (2 ^ 31))])
      (recordStoreDone c1 verified).regReply [EVR_SUB_RESULT])

/-- RECORD_CLEAR (R467). -/
def recordClear (_ : Cmd) (c : Chip) : CmdRes × Chip :=
  c.withMram (
    if c.evr.op.isSome then (.fin stBusy 0 [], c) else (.start .recordClear, regWrite c 0 EVR_SUB_CTL (w32 (2 ^ 30))))

/-- RECORDER_STATUS. -/
def recorderStatus (_ : Cmd) (c : Chip) : CmdRes × Chip :=
  let (a, c1) := c.supReads [EVR_OLDSEQ, EVR_NEWSEQ]
  let (b, c2) := c1.supReads ([EVR_OPSEC, EVR_PCC] ++ (List.range 8).map EVR_DROP)
  c.withMram (.done (a ++ [w32 c.heldRecs.length] ++ b), c2)

/-! ### Diagnostics -/

/-- MARCH_RUN: in RUN only with PRESERVE (R367, R433). -/
def marchRun (cmd : Cmd) (c : Chip) : CmdRes × Chip :=
  let w1 := pw cmd.words 1
  if c.sysState = 5 ∧ wbit w1 4 = false then (.fin stWrongState 5 [], c)
  else if c.bit MEM_MARCH_CTL 30 then (.fin stBusy 0 [], c)
  else
    let c1 := c.supWrites [(MEM_MARCH_BANKS, pw cmd.words 0), (MEM_MARCH_CTL, (w1 &&& 0x318) ||| w32 (2 ^ 31))]
    (.start .march, c1)

/-- PRBS_RUN: a gated unit is powered for the run (R521). -/
def prbsRunCmd (cmd : Cmd) (c : Chip) : CmdRes × Chip :=
  let l := (pw cmd.words 0).toNat
  let w1 := pw cmd.words 1
  let ms := (pw cmd.words 2).toNat
  if 13 < l then (.bad 0, c)
  else if 4 < wfld w1 3 0 ∨ 1 < wfld w1 9 8 ∨ 2 < wfld w1 13 12 ∨ w1 &&& 0xFFFFCCF0 ≠ 0 then (.bad 1, c)
  else if ms = 0 ∨ 60000 < ms then (.bad 2, c)
  else if c.bit (TST_PRBSl_CTL l) 31 then (.fin stBusy 0 [], c)
  else
    let ctl := w1 ||| w32 (2 ^ 31)
    if c.prbsRefused l (wfld w1 3 0) then (.fin stWrongState 0 [], regWrite c 0 (TST_PRBSl_CTL l) ctl)
    else
      let gated := decide (l < 8) && !c.bit PWR_GATE (8 + l)
      let c1 := if gated then c.powerUnit (8 + l) else c
      (.start (.prbs l (c.tmu.raw + ms * 1000000) (if gated then some (w32 (2 ^ (8 + l))) else none)),
        regWrite c1 0 (TST_PRBSl_CTL l) ctl)

/-- FREEZE_INFO. -/
def freezeInfo (_ : Cmd) (c : Chip) : CmdRes × Chip :=
  c.regReply [XDM_FRZ_COUNT, XDM_FRZ_MST, XDM_FRZ_SEG, XDM_FRZ_OFS, XDM_FRZ_ACC, XDM_FRZ_LT_LO, XDM_FRZ_LT_HI]

/-- FREEZE_RESOLVE: the frozen master's locks are released first where asked for (R362, R376). -/
def freezeResolveCmd (cmd : Cmd) (c : Chip) : CmdRes × Chip :=
  let w0 := pw cmd.words 0
  let m := c.fld XDM_FRZ_MST 3 0
  let named := match c.xdm.freezes with
    | e :: _ => wfld w0 7 0 == e.unit && wfld w0 31 30 != 0
    | [] => false
  let m' := match c.xdm.freezes with
    | e :: _ => e.master
    | [] => m
  let held := (List.range 256).filter fun n => c.fld (MEM_LK n) 4 0 == m' + 1
  let c1 := if named && wbit (pw cmd.words 1) 0 then c.supWrites (held.map fun n => (MEM_LK n, (0 : W32))) else c
  (regWrite c1 0 XDM_FRZ_RESOLVE w0).regReply [XDM_FRZ_COUNT]

/-- The control register that holds a unit's LOOP field. -/
def loopReg (u : Nat) : Nat := if u < 8 then ETH_Pn_CTL u else CANn_CTL (u - 8)

/-- LOOPBACK: the LOOP field is set for the test. -/
def loopback (cmd : Cmd) (c : Chip) : CmdRes × Chip :=
  let w0 := pw cmd.words 0
  let u := wfld w0 3 0
  let code := wfld w0 9 8
  if 11 < u ∨ code = 0 ∨ code = 3 then (.bad 0, c)
  else if c.hif.started.any fun s => match s.wait with
      | .loopback v _ _ => v == u
      | _ => false then (.fin stBusy 0 [], c)
  else
    let a := loopReg u
    (.start (.loopback u (c.fld a 13 12) (pw cmd.words 1).toNat), regWrite c 0 a (wsetFld (c.reg a) 13 12 code))

/-! ### The end of STARTED commands -/

/-- The final reply of a STARTED command whose operation has ended: status, detail, words, and the state after it
(R431, R433). `received` and `errors` are a loopback test's. -/
def Chip.asyncEnd (c : Chip) (w : AsyncWait) (received errors : Nat) : Option (Nat × Nat × List W32 × Chip) :=
  match w with
  | .known st detail ws => some (st, detail, ws, c)
  | .gateChange p =>
    if (c.gclOf p).pending.isSome then none
    else
      let st := if c.bit (SWX_Pp_GCL_STAT p) 29 then stWrongState else stDone
      some (st, 0, [c.regLive 0 (SWX_Pp_GCL_STAT p)], c)
  | .axis n =>
    if c.bit (AXn_EVCAUSE n) 0 ∨ c.bit (AXn_EVCAUSE n) 2 then some (stDone, 0, [c.regLive 0 (AXn_STAT n)], c) else none
  | .valueChange _ => if c.tsk.batch.isSome then none else some (stDone, 0, [c.regLive 0 TSK_VC_STAT], c)
  | .swap h =>
    if c.tsk.swapReq then none
    else
      let r := c.fld TSK_SWAP_STAT 31 29
      let st := match r with
        | 0 => stDone
        | 1 => stWrongState
        | 2 => stBadParameter
        | _ => stHardwareFault
      let detail := if r = 1 then c.tskMode else if 3 ≤ r then r else 0
      let c1 := if r = 0 then
          ((c.setHandle h none).setImage 13 { c.image 14 with state := 2 }).setImage 14 .reset |>.setHif fun f =>
            { f with active := f.staged, staged := none }
        else c
      some (st, detail, [c.regLive 0 TSK_SWAP_STAT], c1)
  | .load h info decls advance burnt =>
    match c.sec.load with
    | none => none
    | some l =>
      if l.frozen || !l.rest.isEmpty then none
      else if l.failed then some (stHardwareFault, 0, [], c.setLoad none)
      else some (stDone, 0, commitWords info, (c.setLoad none).engineLoaded h info decls advance burnt)
  | .reload n =>
    match c.sec.load with
    | none => none
    | some l =>
      if l.frozen || !l.rest.isEmpty then none
      else if l.failed then some (stHardwareFault, 0, [], c.setLoad none)
      else some (stDone, 0, [], engineStart ((c.setLoad none).setPeState n 2) n)
  | .recordClear => if c.evr.op.isSome then none else some (stDone, 0, [], c)
  | .march => if c.bit MEM_MARCH_CTL 30 then none else some (stDone, 0, (List.range 32).map fun b => c.regLive 0 (MEM_BSTAT b), c)
  | .prbs l endRaw gate =>
    if c.tmu.raw < endRaw then none
    else
      let c1 := regWrite c 0 (TST_PRBSl_CTL l) (wsetBit (c.reg (TST_PRBSl_CTL l)) 31 false)
      let c2 := match gate with
        | some bit => regWrite c1 0 PWR_GATE (c1.reg PWR_GATE &&& ~~~bit)
        | none => c1
      some (stDone, 0, [c.reg (TST_PRBSl_BITS_LO l), c.reg (TST_PRBSl_BITS_HI l), c.reg (TST_PRBSl_ERR l),
        w32 (b2n (c.bit (TST_PRBSl_STAT l) 1))], c2)
  | .loopback u loop frames =>
    let a := loopReg u
    some (stDone, 0, [w32 frames, w32 received, w32 errors], regWrite c 0 a (wsetFld (c.reg a) 13 12 loop))

/-- The first STARTED command whose operation has ended gives its final reply (R431). -/
def Chip.asyncFirst (c : Chip) (received errors : Nat) : List Started → Chip
  | [] => c
  | s :: ss =>
    match c.asyncEnd s.wait received errors with
    | some (st, detail, ws, c1) => c1.finishStarted s st detail ws
    | none => c.asyncFirst received errors ss

/-- SEC DMA goes on placing an image where a resumed freeze had left it (R374). -/
def Chip.loadGoesOn (c : Chip) : Chip :=
  match c.sec.load with
  | some l => if l.frozen || l.rest.isEmpty then c else c.secPlace l.rest
  | none => c

/-- ASYNC_COMMAND_COMPLETE; `received` and `errors` are a loopback test's (R431). -/
def asyncComplete (c : Chip) (received errors : Nat) : Chip :=
  if c.serving then
    let c1 := c.loadGoesOn
    c1.asyncFirst received errors c1.hif.started
  else c

end Sys2Proof.Machine
end

