-- ==== Sys2Proof/Machine/ExecCommand.lean ====
section
/-!
 DEFINITION. The meanings of the commands of one family: the commands of supervisor firmware (R433, R439 to R459,
R467, R489, R521).
-/
namespace Sys2Proof.Machine

/-- GET_IDENTITY (R433): Returns SYS_ID, IDCODE, serial, vendor, firmware version and HIF_STAT. -/
def execGetIdentity (s : State) : Result :=
  onChip s fun c => runCommand c 0x0001 getIdentity

/-- GET_STATE (R433): Returns the device, TSK, power, domain, freeze and memory status. -/
def execGetState (s : State) : Result :=
  onChip s fun c => runCommand c 0x0002 getState

/-- SET_STATE (R489): Requests a change of device state. -/
def execSetState (burnt : Bool) (s : State) : Result :=
  onChip s fun c => runCommand c 0x0003 (setStateCmd burnt)

/-- RESET_SUBSYSTEM (R433): Resets one unit instance without changing the device state. -/
def execResetSubsystem (s : State) : Result :=
  onChip s fun c => runCommand c 0x0004 resetSubsystem

/-- ECHO (R433): Returns the same payload bytes. -/
def execEcho (s : State) : Result :=
  onChip s fun c => runCommand c 0x0005 echoCmd

/-- READ_REG (R433): Reads up to 1,016 peripheral registers. -/
def execReadReg (s : State) : Result :=
  onChip s fun c => runCommand c 0x0006 readReg

/-- WRITE_REG (R433): Writes up to 507 address and value pairs. -/
def execWriteReg (s : State) : Result :=
  onChip s fun c => runCommand c 0x0007 writeReg

/-- OPEN_SESSION (R452): Opens a session for a role by key or password and returns a device nonce. -/
def execOpenSession (s : State) : Result :=
  onChip s fun c => runCommand c 0x0101 openSession

/-- PROVE_SESSION (R454): Checks the host proof and returns the device proof, or closes the session. -/
def execProveSession (s : State) : Result :=
  onChip s fun c => runCommand c 0x0102 proveSession

/-- CLOSE_SESSION (R454): Closes the session and destroys its keys. -/
def execCloseSession (s : State) : Result :=
  onChip s fun c => runCommand c 0x0103 closeSession

/-- SET_PASSWORD (R457): Stores or deletes a role's password credential. -/
def execSetPassword (s : State) : Result :=
  onChip s fun c => runCommand c 0x0104 setPasswordCmd

/-- INSTALL_KEY (R456): Installs or deletes a wrapped key credential. -/
def execInstallKey (s : State) : Result :=
  onChip s fun c => runCommand c 0x0105 installKeyCmd

/-- ATTEST (R451): Builds a signed attestation report or fetches part of it. -/
def execAttest (s : State) : Result :=
  onChip s fun c => runCommand c 0x0106 attest

/-- LOAD_BEGIN (R433): Opens a load handle for an image kind and staging address. -/
def execLoadBegin (s : State) : Result :=
  onChip s fun c => runCommand c 0x0201 loadBegin

/-- LOAD_DATA (R433): Appends data to the image of a load handle. -/
def execLoadData (s : State) : Result :=
  onChip s fun c => runCommand c 0x0202 loadData

/-- LOAD_COMMIT (R445): Verifies the loaded image and writes it to its destination. -/
def execLoadCommit (burnt : Bool) (s : State) : Result :=
  onChip s fun c => runCommand c 0x0203 (loadCommit burnt)

/-- START_ENGINE (R259): Grants the engine its declared resources and starts it. -/
def execStartEngine (s : State) : Result :=
  onChip s fun c => runCommand c 0x0204 startEngineCmd

/-- STOP_ENGINE (R433): Stops an engine and returns its status. -/
def execStopEngine (s : State) : Result :=
  onChip s fun c => runCommand c 0x0205 stopEngineCmd

/-- IMAGE_INFO (R433): Returns the state, version, counter and manifest hash of an image. -/
def execImageInfo (s : State) : Result :=
  onChip s fun c => runCommand c 0x0206 imageInfoCmd

/-- PORT_CONFIG (R433): Configures an Ethernet port by the bring-up sequence. -/
def execPortConfig (s : State) : Result :=
  onChip s fun c => runCommand c 0x0301 portConfig

/-- PORT_STATUS (R433): Returns an Ethernet port's status registers. -/
def execPortStatus (s : State) : Result :=
  onChip s fun c => runCommand c 0x0302 portStatus

/-- SWITCH_CONFIG (R433): Writes a switch port's or the switch's global registers. -/
def execSwitchConfig (s : State) : Result :=
  onChip s fun c => runCommand c 0x0303 switchConfig

/-- FDB_ACCESS (R433): Performs one switch table operation. -/
def execFdbAccess (s : State) : Result :=
  onChip s fun c => runCommand c 0x0304 fdbAccess

/-- SCHEDULE_LOAD (R433): Writes entries of a port's admin gate list. -/
def execScheduleLoad (s : State) : Result :=
  onChip s fun c => runCommand c 0x0305 scheduleLoad

/-- SCHEDULE_SWITCH (R433): Requests a gate-list change and replies when it takes effect. -/
def execScheduleSwitch (s : State) : Result :=
  onChip s fun c => runCommand c 0x0306 scheduleSwitch

/-- COUNTERS_READ (R433): Returns a port's counter snapshot or the switch counters. -/
def execCountersRead (s : State) : Result :=
  onChip s fun c => runCommand c 0x0307 countersRead

/-- CAN_CONFIG (R433): Writes a CAN channel's registers or message memory. -/
def execCanConfig (s : State) : Result :=
  onChip s fun c => runCommand c 0x0308 canConfig

/-- DOMAIN_CONFIG (R433): Writes a tracked domain's limits and the selection settings. -/
def execDomainConfig (s : State) : Result :=
  onChip s fun c => runCommand c 0x0401 domainConfig

/-- DOMAIN_STATUS (R433): Returns both domains' states and times, H and line time. -/
def execDomainStatus (s : State) : Result :=
  onChip s fun c => runCommand c 0x0402 domainStatus

/-- SELECT_DOMAIN (R433): Requests a manual domain switch. -/
def execSelectDomain (s : State) : Result :=
  onChip s fun c => runCommand c 0x0403 selectDomain

/-- STAMP_CONFIG (R433): Configures a port's stamping, a stamp channel or a timed output. -/
def execStampConfig (s : State) : Result :=
  onChip s fun c => runCommand c 0x0404 stampConfig

/-- SHAFT_CONFIG (R433): Configures a shaft, optionally with a command, or the ULP globals. -/
def execShaftConfig (s : State) : Result :=
  onChip s fun c => runCommand c 0x0501 shaftConfig

/-- SHAFT_STATUS (R433): Returns a shaft's status, angle, velocity, residual and counts. -/
def execShaftStatus (s : State) : Result :=
  onChip s fun c => runCommand c 0x0502 shaftStatus

/-- ANGLE_EVENT_SET (R433): Writes an angle event's registers, CFG last. -/
def execAngleEventSet (s : State) : Result :=
  onChip s fun c => runCommand c 0x0503 angleEventSet

/-- ANGLE_EVENT_CLEAR (R433): Writes 0 to the CFG of a range of angle events. -/
def execAngleEventClear (s : State) : Result :=
  onChip s fun c => runCommand c 0x0504 angleEventClear

/-- SHAFT_MASTER_PROFILE (R433): Writes the profile target velocity and acceleration of a master shaft. -/
def execShaftMasterProfile (s : State) : Result :=
  onChip s fun c => runCommand c 0x0505 shaftMasterProfile

/-- AXIS_CONFIG (R433): Writes a DISABLED axis's configuration. -/
def execAxisConfig (s : State) : Result :=
  onChip s fun c => runCommand c 0x0601 axisConfig

/-- AXIS_MOVE (R433): Writes limits and target and commands MOVE or VEL, optionally waiting for the end. -/
def execAxisMove (s : State) : Result :=
  onChip s fun c => runCommand c 0x0602 axisMove

/-- AXIS_STOP (R433): Commands STOP on a mask of axes. -/
def execAxisStop (s : State) : Result :=
  onChip s fun c => runCommand c 0x0603 axisStopCmd

/-- AXIS_GEAR (R433): Engages an axis in GEAR or CAM, arms a cam set or commits a phase. -/
def execAxisGear (s : State) : Result :=
  onChip s fun c => runCommand c 0x0604 axisGear

/-- AXIS_STATUS (R433): Returns an axis's status and positions. -/
def execAxisStatus (s : State) : Result :=
  onChip s fun c => runCommand c 0x0605 axisStatus

/-- PROGRAM_LOAD (R433): Places a verified control program and activates or stages it. -/
def execProgramLoad (s : State) : Result :=
  onChip s fun c => runCommand c 0x0701 programLoad

/-- PROGRAM_MODE (R433): Requests a TSK mode. -/
def execProgramMode (s : State) : Result :=
  onChip s fun c => runCommand c 0x0702 programMode

/-- VALUE_CHANGE (R433): Stages and applies a batch of value changes. -/
def execValueChange (s : State) : Result :=
  onChip s fun c => runCommand c 0x0703 valueChange

/-- FORCE_SET (R433): Sets a force entry on a variable. -/
def execForceSet (s : State) : Result :=
  onChip s fun c => runCommand c 0x0704 forceSetCmd

/-- FORCE_CLEAR (R433): Clears one or all force entries. -/
def execForceClear (s : State) : Result :=
  onChip s fun c => runCommand c 0x0705 forceClearCmd

/-- PROGRAM_SWAP (R433): Swaps the running program for a loaded one. -/
def execProgramSwap (s : State) : Result :=
  onChip s fun c => runCommand c 0x0706 programSwap

/-- PROGRAM_STATUS (R433): Returns TSK, diagnostic, swap, change and frame status. -/
def execProgramStatus (s : State) : Result :=
  onChip s fun c => runCommand c 0x0707 programStatus

/-- RECORD_READ (R467): Returns up to 63 held records in order. -/
def execRecordRead (s : State) : Result :=
  onChip s fun c => runCommand c 0x0801 recordRead

/-- RECORD_WRITE (R467): Submits a host record to the recorder. -/
def execRecordWrite (verified : Bool) (s : State) : Result :=
  onChip s fun c => runCommand c 0x0802 (recordWrite verified)

/-- RECORD_CLEAR (R467): Clears the recorder. -/
def execRecordClear (s : State) : Result :=
  onChip s fun c => runCommand c 0x0803 recordClear

/-- RECORDER_STATUS (R433): Returns recorder sequences, counts and dropped counts. -/
def execRecorderStatus (s : State) : Result :=
  onChip s fun c => runCommand c 0x0804 recorderStatus

/-- MARCH_RUN (R433): Starts a march run and returns the bank status at its end. -/
def execMarchRun (s : State) : Result :=
  onChip s fun c => runCommand c 0x0901 marchRun

/-- PRBS_RUN (R521): Runs a PRBS generator and checker on a link for a duration. -/
def execPrbsRun (s : State) : Result :=
  onChip s fun c => runCommand c 0x0902 prbsRunCmd

/-- FREEZE_INFO (R433): Returns the freeze count and oldest freeze entry. -/
def execFreezeInfo (s : State) : Result :=
  onChip s fun c => runCommand c 0x0903 freezeInfo

/-- FREEZE_RESOLVE (R376): Resolves the oldest freeze entry, optionally releasing the master's locks. -/
def execFreezeResolve (s : State) : Result :=
  onChip s fun c => runCommand c 0x0904 freezeResolveCmd

/-- LOOPBACK (R433): Runs a loopback test on a port or CAN channel. -/
def execLoopback (s : State) : Result :=
  onChip s fun c => runCommand c 0x0905 loopback

end Sys2Proof.Machine
end

