-- ==== Sys2Proof/Machine/Flags.lean ====
section
/-!
DEFINITION. The results, flags and sticky conditions of the A and M units: R217 to R221, R229.
-/
namespace Sys2Proof.Machine

/-- What an operation does to C, V, Z, N with F = 1 (none: unchanged), and its conditions (R216, R233). -/
structure FlagOut where
  c : Option Bool
  v : Option Bool
  z : Option Bool
  n : Option Bool
  ovf : Bool
  dz : Bool
  dv : Bool
  deriving DecidableEq, Repr

/-- No flag written and no condition. -/
def FlagOut.keep : FlagOut := ⟨none, none, none, none, false, false, false⟩

/-- Z and N of a result. -/
def zn (r : W32) : FlagOut := { FlagOut.keep with z := some (r == 0), n := some (wbit r 31) }

/-- The bits of the flags as FLAGS holds them (R239). -/
def flagC (f : W32) : Bool := wbit f 0
def flagV (f : W32) : Bool := wbit f 1
def flagZ (f : W32) : Bool := wbit f 2
def flagN (f : W32) : Bool := wbit f 3

/-- FLAGS after an operation: C, V, Z, N where F = 1 and the table names them; sticky conditions always (R216). -/
def FlagOut.apply (o : FlagOut) (f : Bool) (flags : W32) : W32 :=
  let put (i : Nat) (b : Option Bool) (w : W32) : W32 :=
    match b with
    | some x => if f then wsetBit w i x else w
    | none => w
  let w := put 3 o.n (put 2 o.z (put 1 o.v (put 0 o.c flags)))
  w ||| (if o.ovf then 0x400 else 0) ||| (if o.dv then 0x200 else 0) ||| (if o.dz then 0x100 else 0)

/-- Ga + B + carry with its flags (R217). -/
def addFlags (a b : W32) (cin : Bool) : W32 × FlagOut :=
  let sum := a.toNat + b.toNat + b2n cin
  let r := w32 sum
  let s : Int := a.toInt + b.toInt + b2n cin
  let v := decide (s ≠ r.toInt)
  (r, { zn r with c := some (decide (2 ^ 32 ≤ sum)), v := some v, ovf := v })

/-- Ga - B - borrow with its flags; C is no borrow (R217). -/
def subFlags (a b : W32) (borrow : Bool) : W32 × FlagOut :=
  let r := a - b - w32 (b2n borrow)
  let s : Int := a.toInt - b.toInt - b2n borrow
  let v := decide (s ≠ r.toInt)
  (r, { zn r with c := some (decide (b.toNat + b2n borrow ≤ a.toNat)), v := some v, ovf := v })

/-- The shifts and rotates with count `n` (R218): op 0 SHL, 1 SHR, 2 SAR, 3 ROL, 4 ROR. -/
def shiftFlags (op : Nat) (a : W32) (n : Nat) : W32 × FlagOut :=
  let r : W32 := match op with
    | 0 => if 32 ≤ n then 0 else a <<< n
    | 1 => if 32 ≤ n then 0 else a >>> n
    | 2 => a.sshiftRight (min n 32)
    | 3 => a.rotateLeft (n % 32)
    | _ => a.rotateRight (n % 32)
  let c : Bool := match op with
    | 0 => if n ≤ 32 then wbit a (32 - n) else false
    | 1 => if n ≤ 32 then wbit a (n - 1) else false
    | 2 => if n ≤ 31 then wbit a (n - 1) else wbit a 31
    | 3 => wbit r 0
    | _ => wbit r 31
  (r, { zn r with c := if n = 0 then none else some c })

/-- A condition of BR and CSET on FLAGS; 0xF never holds (R219). -/
def condHolds (code : Nat) (f : W32) : Bool :=
  let c := flagC f
  let v := flagV f
  let z := flagZ f
  let n := flagN f
  match code with
  | 0 => true
  | 1 => z | 2 => !z
  | 3 => c | 4 => !c
  | 5 => n | 6 => !n
  | 7 => v | 8 => !v
  | 9 => c && !z | 10 => !c || z
  | 11 => n == v | 12 => n != v
  | 13 => !z && n == v | 14 => z || n != v
  | _ => false

/-- The number of leading zeros (R217). -/
def clz32 (a : W32) : Nat := ((List.range 32).find? fun i => wbit a (31 - i)).getD 32

/-- The number of 1 bits (R217). -/
def popc32 (a : W32) : Nat := ((List.range 32).filter fun i => wbit a i).length

/-- An A-unit operation: OP, Ga, B, the old Gd and FLAGS (R217). -/
def aluOp (op : Nat) (a b d flags : W32) : W32 × FlagOut :=
  let logic (r : W32) : W32 × FlagOut := (r, zn r)
  let lo := wfld b 4 0
  let wid := wfld b 12 8 + 1
  let kept := min wid (32 - lo)
  let field := a.toNat / 2 ^ lo % 2 ^ kept
  match op with
  | 0x00 => addFlags a b false
  | 0x01 => addFlags a b (flagC flags)
  | 0x02 => subFlags a b false
  | 0x03 => subFlags a b (!flagC flags)
  | 0x04 => subFlags 0 a false
  | 0x05 =>
    let r := if a.toInt < 0 then -a else a
    let v := a == 0x80000000
    (r, { zn r with v := some v, ovf := v })
  | 0x06 => subFlags a b false
  | 0x07 => logic (a &&& b)
  | 0x08 => logic (a &&& b)
  | 0x09 => logic (a ||| b)
  | 0x0A => logic (a ^^^ b)
  | 0x0B => logic (a &&& ~~~b)
  | 0x0C => shiftFlags 0 a (wfld b 7 0)
  | 0x0D => shiftFlags 1 a (wfld b 7 0)
  | 0x0E => shiftFlags 2 a (wfld b 7 0)
  | 0x0F => shiftFlags 3 a (wfld b 7 0)
  | 0x10 => shiftFlags 4 a (wfld b 7 0)
  | 0x11 => logic (if a.toInt ≤ b.toInt then a else b)
  | 0x12 => logic (if a.toInt ≤ b.toInt then b else a)
  | 0x13 => logic (if a.toNat ≤ b.toNat then a else b)
  | 0x14 => logic (if a.toNat ≤ b.toNat then b else a)
  | 0x15 => logic (w32 (clz32 a))
  | 0x16 => logic (w32 (popc32 a))
  | 0x17 => logic (w32 (beNat (leBytes 4 a.toNat)))
  | 0x18 => logic (w32 field)
  | 0x19 => logic (w32i (sext kept field))
  | 0x1A => logic (w32 (d.toNat - d.toNat / 2 ^ lo % 2 ^ kept * 2 ^ lo + a.toNat % 2 ^ kept * 2 ^ lo))
  | 0x1B => (if d ≠ 0 then a else b, .keep)
  | 0x1C => (if condHolds (wfld b 3 0) flags then 1 else 0, .keep)
  | _ => logic b

/-! ### Packed decimal -/

/-- val(w) (R221). -/
def decVal (w : W32) : Nat := ((List.range 8).map fun i => wfld w (4 * i + 3) (4 * i) * 10 ^ i).sum

/-- bcd(x) (R221). -/
def decWord (x : Nat) : W32 := w32 ((List.range 8).map fun i => x / 10 ^ i % 10 * 16 ^ i).sum

/-- Whether a packed word has a nibble above 9 (R221). -/
def decBad (w : W32) : Bool := (List.range 8).any fun i => decide (9 < wfld w (4 * i + 3) (4 * i))

/-- The flags of the decimal instructions: Z of the result, N and V cleared, C where given (R220). -/
def decFlags (r : W32) (c : Option Bool) (dv : Bool) : FlagOut :=
  ⟨c, some false, some (r == 0), some false, false, false, dv⟩

/-! ### Division -/

/-- The magnitude of a signed number. -/
def mag (a : W32) : Nat := a.toInt.natAbs

/-- Quotient, remainder and flags of DIVS (R220, R229). -/
def divS (a b : W32) : W32 × W32 × FlagOut :=
  let out (q r : W32) (v dz : Bool) : W32 × W32 × FlagOut :=
    (q, r, { zn q with c := some false, v := some v, ovf := v, dz := dz })
  if b = 0 then out (if a.toInt < 0 then 1 else 0xFFFFFFFF) a false true
  else
    let q : Int := Int.tdiv a.toInt b.toInt
    out (w32i q) (w32i (Int.tmod a.toInt b.toInt)) (decide (q = 2 ^ 31)) false

/-- Quotient, remainder and flags of DIVU (R220, R229). -/
def divU (a b : W32) : W32 × W32 × FlagOut :=
  let out (q r : W32) (dz : Bool) : W32 × W32 × FlagOut :=
    (q, r, { zn q with c := some false, v := some false, dz := dz })
  if b = 0 then out 0xFFFFFFFF a true else out (w32 (a.toNat / b.toNat)) (w32 (a.toNat % b.toNat)) false

/-- An M-unit arithmetic operation: OP, X, Ga, B, the old Gd and FLAGS; the result, a pair's second word, and
the flags (R220, R221). -/
def mulOp (op x : Nat) (a b d flags : W32) : W32 × Option W32 × FlagOut :=
  let sp : Int := a.toInt * b.toInt
  let up : Nat := a.toNat * b.toNat
  match op with
  | 0x00 =>
    let r := w32i sp
    let v := decide (r.toInt ≠ sp)
    (r, none, { zn r with v := some v, ovf := v })
  | 0x01 =>
    let r := w32 up
    (r, none, { zn r with c := some (decide (2 ^ 32 ≤ up)), v := some false })
  | 0x02 => let r := w32i (sp / 2 ^ 32); (r, none, zn r)
  | 0x03 => let r := w32 (up / 2 ^ 32); (r, none, zn r)
  | 0x04 => let (r, f) := addFlags d (w32 up) false; (r, none, f)
  | 0x05 => let (q, r, f) := divS a b; (q, some r, f)
  | 0x06 => let (q, r, f) := divU a b; (q, some r, f)
  | 0x10 =>
    let n := decVal a + decVal b + (if x % 2 = 1 then b2n (flagC flags) else 0)
    let r := decWord n
    (r, none, decFlags r (some (decide (10 ^ 8 ≤ n))) (decBad a || decBad b))
  | 0x11 =>
    let n : Int := (decVal a : Int) - decVal b - (if x % 2 = 1 then 1 - (b2n (flagC flags) : Int) else 0)
    let r := decWord (n % 10 ^ 8).toNat
    (r, none, decFlags r (some (decide (0 ≤ n))) (decBad a || decBad b))
  | 0x12 =>
    let r := decWord (decVal a)
    (r, none, decFlags r (some (decide (10 ^ 8 ≤ decVal a))) (decBad a))
  | 0x13 =>
    let r := w32 (decVal a)
    (r, none, decFlags r none (decBad a))
  | _ =>
    let r := decWord a.toNat
    (r, none, decFlags r (some (decide (10 ^ 8 ≤ a.toNat))) false)

end Sys2Proof.Machine
end

