-- ==== Sys2Proof/Machine/Operands.lean ====
section
/-!
DEFINITION. Dwevel's syllables and bundles: units and formats (R210, R211, R214), the operand forms, which
operands an operation uses (R217, R220, R222, R225, R244), and when a bundle is illegal (R212).
-/
namespace Sys2Proof.Machine

/-- A unit syllable with the LIMM that extends it (R210, R211). -/
structure Syll where
  w : W32
  limm : Option Nat
  deriving DecidableEq, Repr

/-- The units of R210. -/
def sylUnit (w : W32) : Nat := wfld w 30 28
def sylStop (w : W32) : Bool := wbit w 31

def Syll.unit (s : Syll) : Nat := sylUnit s.w
def Syll.i (s : Syll) : Bool := wbit s.w 27
def Syll.f (s : Syll) : Bool := wbit s.w 26
def Syll.op (s : Syll) : Nat := wfld s.w 25 20
def Syll.gd (s : Syll) : Nat := wfld s.w 19 14
def Syll.ga (s : Syll) : Nat := wfld s.w 13 8
def Syll.gb (s : Syll) : Nat := wfld s.w 7 2
def Syll.x (s : Syll) : Nat := if s.i then 0 else wfld s.w 1 0
def Syll.imm8 (s : Syll) : Nat := wfld s.w 7 0
def Syll.sg (s : Syll) : Nat := wfld s.w 7 4
def Syll.cond (s : Syll) : Nat := wfld s.w 19 16

/-- The formats of R214. -/
inductive SylFmt where
  | ri | mem | branch
  deriving DecidableEq, Repr

def Syll.fmt (s : Syll) : SylFmt :=
  if s.unit = 3 ∧ s.op = 0 then .branch else if s.unit = 2 ∧ 0x20 ≤ s.op ∧ s.op ≤ 0x2F then .mem else .ri

/-- The immediate of the I form: imm8 sign-extended, or LIMM[23:0]:imm8 (R211, R214). -/
def Syll.imm (s : Syll) : W32 :=
  match s.limm with
  | some h => w32 (h * 256 + s.imm8)
  | none => w32i (sext 8 s.imm8)

/-- The access size of a memory OP (R222). -/
def memSize (op : Nat) : Nat :=
  match op with
  | 0x20 => 1 | 0x21 => 1 | 0x28 => 1
  | 0x22 => 2 | 0x23 => 2 | 0x29 => 2
  | 0x25 => 8 | 0x2B => 8
  | _ => 4

/-- The displacement of a memory syllable: D4 in units of the access size, or LIMM[23:0]:D4 (R211, R214). -/
def Syll.disp (s : Syll) : Int :=
  if !s.i then 0
  else
    match s.limm with
    | some h => sext 28 (h * 16 + wfld s.w 3 0)
    | none => (wfld s.w 3 0 * memSize s.op : Nat)

/-- The displacement of a branch in words: D16, or LIMM[13:0]:D16 (R211, R214). -/
def Syll.bdisp (s : Syll) : Int :=
  match s.limm with
  | some h => sext 30 (h % 2 ^ 14 * 2 ^ 16 + wfld s.w 15 0)
  | none => sext 16 (wfld s.w 15 0)

/-- What an operation of the R and I forms uses and writes (R217, R220, R225, R244). -/
structure OpUse where
  ga : Bool
  b : Bool
  gd : Bool
  pair : Bool
  /-- Only the I form exists, only the R form exists. -/
  iOnly : Bool
  rOnly : Bool
  /-- 0 no flags, 1 flags optional, 2 F must be 1. -/
  flags : Nat
  x : Bool
  deriving DecidableEq, Repr

/-- An operation with Gd, Ga and B and optional flags. -/
def OpUse.full : OpUse := ⟨true, true, true, false, false, false, 1, false⟩
/-- An operation with Gd and Ga. -/
def OpUse.unary : OpUse := { OpUse.full with b := false }
/-- An operation without operands. -/
def OpUse.none : OpUse := ⟨false, false, false, false, false, false, 0, false⟩

/-- The operand use of an OP of the R and I forms; none where the unit does not define the OP. -/
def opUse (unit op : Nat) : Option OpUse :=
  match unit with
  | 2 =>
    match op with
    | 0x00 => some .full | 0x01 => some .full | 0x02 => some .full | 0x03 => some .full | 0x04 => some .full
    | 0x05 => some { OpUse.full with pair := true }
    | 0x06 => some { OpUse.full with pair := true }
    | 0x10 => some { OpUse.full with x := true }
    | 0x11 => some { OpUse.full with x := true }
    | 0x12 => some .unary | 0x13 => some .unary | 0x14 => some .unary
    | _ => Option.none
  | 3 =>
    match op with
    | 0x08 => some { OpUse.full with flags := 0 }
    | 0x09 => some { OpUse.none with b := true, iOnly := true }
    | 0x0A => some { OpUse.none with rOnly := true }
    | 0x0B => some { OpUse.none with rOnly := true }
    | 0x10 => some { OpUse.none with b := true, gd := true, iOnly := true }
    | 0x11 => some { OpUse.none with b := true, ga := true, iOnly := true }
    | 0x3F => some { OpUse.none with rOnly := true }
    | _ => Option.none
  | 4 =>
    let f (ga b gd : Bool) : Option OpUse := some { OpUse.none with ga := ga, b := b, gd := gd }
    match op with
    | 0x00 => f true true false | 0x01 => f true true false
    | 0x02 => f false true true | 0x03 => f false true true
    | 0x04 => f false false true
    | 0x05 => f false false false
    | 0x08 => f true true true | 0x09 => f true true true | 0x0A => f true true true | 0x0B => f true true true
    | 0x0C => f true true true | 0x0D => f true true true | 0x0E => f true true true | 0x0F => f true true true
    | 0x10 => f false true true | 0x11 => f false true true | 0x12 => f true true true
    | 0x13 => f false true true | 0x14 => f false true true
    | 0x18 => some { OpUse.none with b := true, gd := true, pair := true }
    | 0x19 => f false false true
    | 0x1A => f false true false
    | 0x1B => f false false false
    | 0x1C => f false false true
    | _ => Option.none
  | _ =>
    match op with
    | 0x04 => some .unary | 0x05 => some .unary
    | 0x06 => some { OpUse.full with gd := false, flags := 2 }
    | 0x07 => some { OpUse.full with gd := false, flags := 2 }
    | 0x15 => some .unary | 0x16 => some .unary | 0x17 => some .unary
    | 0x1B => some { OpUse.full with flags := 0 }
    | 0x1C => some { OpUse.full with ga := false, flags := 0 }
    | 0x1D => some { OpUse.full with ga := false }
    | _ => if op ≤ 0x1D then some .full else Option.none

/-- Whether a CSR number is listed, and whether it may be written (R225, R238). -/
def csrListed (n : Nat) : Bool := decide (n ≤ 0x0B)
def csrWritable (n : Nat) : Bool := decide (1 ≤ n ∧ n ≤ 8) || n == 0x0B

/-- The legality of one syllable in itself (R212, R214, R215, R219, R225). -/
def Syll.legal (s : Syll) : Bool :=
  match s.fmt with
  | .branch =>
    decide (s.cond ≠ 0xF) &&
      (s.i || (decide (wfld s.w 15 14 = 0) && decide (wfld s.w 7 0 = 0)))
  | .mem =>
    decide (s.op ≤ 0x25 ∨ (0x28 ≤ s.op ∧ s.op ≤ 0x2D)) && !s.f &&
      (s.i || decide (wfld s.w 3 0 = 0)) &&
      (memSize s.op != 8 || decide (s.gd % 2 = 0))
  | .ri =>
    match opUse s.unit s.op with
    | none => false
    | some u =>
      (if s.f then decide (u.flags ≠ 0) else decide (u.flags ≠ 2)) &&
      (u.gd || decide (s.gd = 0)) && (u.ga || decide (s.ga = 0)) &&
      (u.b || decide (if s.i then s.imm = 0 else s.gb = 0)) &&
      (!u.pair || decide (s.gd % 2 = 0)) &&
      !(u.iOnly && !s.i) && !(u.rOnly && s.i) &&
      (if u.x then decide (s.x < 2) else decide (s.x = 0)) &&
      (if s.unit = 3 ∧ (s.op = 0x10 ∨ s.op = 0x11) then
        (let n := (s.limm.getD 0) * 256 + s.imm8
         if s.op = 0x10 then csrListed n else csrWritable n)
      else true)

/-- The registers a syllable writes, G0 left out (R212). -/
def Syll.writes (s : Syll) : List Nat :=
  let one (pair : Bool) : List Nat := (if pair then [s.gd, s.gd + 1] else [s.gd]).filter fun r => r != 0
  match s.fmt with
  | .branch => []
  | .mem => if s.op ≤ 0x25 then one (s.op == 0x25) else if 0x2C ≤ s.op then one false else []
  | .ri =>
    match opUse s.unit s.op with
    | some u => if u.gd then one u.pair else []
    | none => []

def Syll.isWait (s : Syll) : Bool := s.unit == 3 && s.op == 0x08

/-- The LIMM of a unit among a bundle's words. -/
def limmOf (ws : List W32) (unit : Nat) : Option Nat :=
  (ws.find? fun w => sylUnit w == 7 && wfld w 27 25 == unit).map fun w => wfld w 23 0

/-- The unit syllables of a bundle's words with their LIMMs. -/
def bundleSylls (ws : List W32) : List Syll :=
  (ws.filter fun w => sylUnit w != 7).map fun w => ⟨w, limmOf ws (sylUnit w)⟩

/-- The legality of the word at index `k` of a bundle, given the words before it (R210 to R212): unit order,
LIMM order and targets, and, for a unit syllable, its own legality, single writers, one F, and WAIT alone with A. -/
def wordLegal (ws : List W32) (hasF : Bool) (k : Nat) : Bool :=
  let w := ws.getD k 0
  let before := ws.take k
  let u := sylUnit w
  if u = 7 then
    let t := wfld w 27 25
    let limms := before.filter fun v => sylUnit v == 7
    decide (wfld w 24 24 = 0) && decide (limms.length < 2) && (limms.all fun v => decide (wfld v 27 25 < t)) &&
      (bundleSylls ws).any fun v => v.unit == t && v.i && (v.fmt != .branch || decide (wfld w 23 14 = 0))
  else if 5 ≤ u ∨ (u = 4 ∧ hasF = false) then false
  else
    let s : Syll := ⟨w, limmOf ws u⟩
    let prev := bundleSylls ws |>.take (before.filter fun v => sylUnit v != 7).length
    (before.all fun v => decide (sylUnit v < u)) && s.legal &&
      (prev.all fun p => (p.writes.all fun r => !s.writes.contains r) && !(p.f && s.f && p.fmt == .ri && s.fmt == .ri) &&
        !(s.isWait && p.unit == 2) && !(p.isWait && s.unit == 4))

/-- The index of a bundle's first offending syllable, if it is illegal (R212, R237). -/
def illegalAt (ws : List W32) (hasF : Bool) : Option Nat :=
  (List.range ws.length).find? fun k => !wordLegal ws hasF k

end Sys2Proof.Machine
end

