-- ==== Sys2Proof/Machine/Dwevel.lean ====
section
/-!
DEFINITION. A bundle of a Dwevel core from fetch to commit: R209 to R228, R230 to R236, R238, R239, and the F unit's
operations R244 to R248.
-/
namespace Sys2Proof.Machine

/-! ### Operands -/

/-- A general register (R215). -/
def Ctx.g (k : Ctx) (r : Nat) : W32 := if r = 0 then 0 else tblGet 0 k.regs r

/-- A general register written: G0 loses it (R215). -/
def Ctx.put (k : Ctx) (r : Nat) (v : W32) : Ctx := if r = 0 then k else { k with regs := tblSet 0 k.regs r v }

/-- The operand B (R214). -/
def Syll.b (s : Syll) (k : Ctx) : W32 := if s.i then s.imm else k.g s.gb

/-- A 32-bit number's register pair, low word in the even register (R215). -/
def pairWrites (gd x : Nat) : List (Nat × W32) := [(gd, lo32 x), (gd + 1, hi32 x)]

/-! ### The units -/

/-- What a syllable does at commit: registers written, flags with its F bit. -/
structure SylOut where
  writes : List (Nat × W32)
  flags : FlagOut
  f : Bool
  deriving DecidableEq, Repr

def SylOut.none : SylOut := ⟨[], .keep, false⟩

/-- A syllable of A0, A1, or of the M unit's arithmetic (R217, R220). -/
def Syll.arith (s : Syll) (k : Ctx) : SylOut :=
  if s.unit = 2 then
    let (r, second, fl) := mulOp s.op s.x (k.g s.ga) (s.b k) (k.g s.gd) k.flags
    match second with
    | some q => ⟨[(s.gd, r), (s.gd + 1, q)], fl, s.f⟩
    | Option.none => ⟨[(s.gd, r)], fl, s.f⟩
  else
    let (r, fl) := aluOp s.op (k.g s.ga) (s.b k) (k.g s.gd) k.flags
    ⟨[(s.gd, r)], fl, s.f⟩

/-- A CSR as CSRR reads it (R238, R239). -/
def Ctx.csr (k : Ctx) (core x n : Nat) : W32 :=
  match n with
  | 0x00 => w32 (core * 256 + x)
  | 0x01 => k.flags
  | 0x02 => k.tmask
  | 0x03 => k.tvec
  | 0x04 => k.tpc
  | 0x05 => k.tcause
  | 0x06 => k.tinfo
  | 0x07 => k.tstat
  | 0x08 => k.wake
  | 0x09 => lo32 k.bcnt
  | 0x0A => k.bcntHi
  | _ => k.link

/-- A CSR written (R216, R238, R239): `sticky` are the conditions of the bundle's other syllables. -/
def Ctx.setCsr (k : Ctx) (n : Nat) (v sticky : W32) : Ctx :=
  match n with
  | 0x01 => { k with flags := (v &&& 0x70F) ||| sticky }
  | 0x02 => { k with tmask := v &&& 0x302 }
  | 0x03 => { k with tvec := v &&& 0xFFFFFFFC }
  | 0x04 => { k with tpc := v }
  | 0x05 => { k with tcause := v &&& 0x8007FFFF }
  | 0x06 => { k with tinfo := v }
  | 0x07 => { k with tstat := v &&& 1 }
  | 0x08 => { k with wake := k.wake &&& ~~~v }
  | 0x0B => { k with link := v &&& 0xFFFFFFFC }
  | _ => k

/-- One byte under an engine's CRC slot (R246). -/
def crcSlotByte (w p : Nat) (refin : Bool) (s : Nat) (b : Byte) : Nat :=
  (List.range 8).foldl (fun s i =>
    if refin then
      let fb := nbit s 0 != nbit b.toNat i
      if fb then (s / 2) ^^^ reflectBits w p else s / 2
    else
      let fb := nbit s (w - 1) != nbit b.toNat (7 - i)
      let t := s * 2 % 2 ^ w
      if fb then t ^^^ p else t) s

/-- A CRC state advanced by bytes under slot `i` of engine `n` (R246). -/
def Chip.crcSlot (c : Chip) (n i : Nat) (state : W32) (bs : List Byte) : W32 :=
  let w := c.fld (PE_PEn_CRCC n i) 5 0
  let p := (c.reg (PE_PEn_CRCP n i)).toNat % 2 ^ w
  w32 (bs.foldl (crcSlotByte w p (c.bit (PE_PEn_CRCC n i) 8)) (state.toNat % 2 ^ w))

/-- The count of a bit operation (R245). -/
def bitCountOf (b : W32) : Nat := min 32 (wfld b 5 0)

/-- Bits appended to the accumulator (R245). -/
def Ctx.accPut (k : Ctx) (bits : List Bool) : Ctx :=
  let all := k.acc ++ bits
  { k with acc := all.take 64, fcond := if 64 < all.length then k.fcond ||| 1 else k.fcond }

/-- Bits taken from the accumulator, with the place of each in the result (R245). -/
def Ctx.accGet (k : Ctx) (n : Nat) (place : Nat → Nat) : W32 × Ctx :=
  let bits := k.acc.take n
  let v := ((List.range bits.length).map fun i => b2n (bits.getD i false) * 2 ^ place i).sum
  (w32 v, { k with acc := k.acc.drop n, fcond := if bits.length < n then k.fcond ||| 2 else k.fcond })

/-- The time that TSR names, in 2^-16 ns (R248). -/
def Chip.tsrTime (c : Chip) (n : Nat) : Nat :=
  match n with
  | 0 => c.lt
  | 1 => wrap 80 ((c.dom .a).d / 2 ^ 32)
  | 2 => wrap 80 ((c.dom .b).d / 2 ^ 32)
  | _ => 0

/-- An F syllable at commit: registers written and the effects (R228, R244 to R248). `k` is the context before
the bundle. -/
def Syll.runF (s : Syll) (c : Chip) (core x : Nat) (k : Ctx) : List (Nat × W32) × Chip :=
  let n := core - 3
  let a := k.g s.ga
  let b := s.b k
  let now := c.ctx core x
  let cnt := bitCountOf b
  let keep (k' : Ctx) : Chip := c.setCtx core x k'
  let qerr (e : Bool) (c : Chip) : Chip :=
    if e then c.setCtx core x { c.ctx core x with fcond := (c.ctx core x).fcond ||| 4 } else c
  match s.op with
  | 0x00 => ([], keep (now.accPut ((List.range cnt).map fun i => wbit a i)))
  | 0x01 => ([], keep (now.accPut ((List.range cnt).map fun i => wbit a (cnt - 1 - i))))
  | 0x02 => let (v, k') := now.accGet cnt fun i => i; ([(s.gd, v)], keep k')
  | 0x03 => let (v, k') := now.accGet cnt fun i => cnt - 1 - i; ([(s.gd, v)], keep k')
  | 0x04 => ([(s.gd, w32 now.acc.length)], c)
  | 0x05 => ([], keep { now with acc := [] })
  | 0x10 => let (v, e, c1) := c.qpop core (wfld b 4 0); ([(s.gd, w32 v)], qerr e c1)
  | 0x11 => let (v, e, c1) := c.qrel core (wfld b 4 0); ([(s.gd, w32 v)], qerr e c1)
  | 0x12 => let (v, e, c1) := c.qpush core (wfld b 3 0) a.toNat; ([(s.gd, w32 v)], qerr e c1)
  | 0x13 => let (v, e) := c.qlen core (wfld b 4 0); ([(s.gd, w32 v)], qerr e c)
  | 0x14 => ([(s.gd, w32 (64 - (c.tqHeld (wfld b 3 0)).length))], c)
  | 0x18 =>
    let t := c.tsrTime (wfld b 1 0)
    (pairWrites s.gd (t / 65536), keep { now with frac := t % 65536 })
  | 0x19 => ([(s.gd, w32 now.frac)], c)
  | 0x1A => ([], (c.setReg (PE_PEn_EVCODE n) (w32 (wfld b 7 0))).peCause n 0)
  | 0x1B => ([], c.peKick n)
  | 0x1C => ([(s.gd, w32 now.fcond)], keep { now with fcond := 0 })
  | op =>
    if op < 0x0C then ([(s.gd, c.crcSlot n (op - 0x08) a (leBytes 1 b.toNat))], c)
    else ([(s.gd, c.crcSlot n (op - 0x0C) a (leBytes 4 b.toNat))], c)

/-! ### Memory access -/

/-- What a bundle's memory access came to. -/
inductive AccOut where
  | ok (writes : List (Nat × W32)) (c : Chip)
  | fault (why : TrapWhy) (c : Chip)
  | segv (seg ofs size rwx : Nat) (atomic : Bool)
  | waits (c : Chip)

/-- The offset of a memory syllable (R223). -/
def Syll.offset (s : Syll) (k : Ctx) : Int := (k.g s.ga).toNat + s.disp

/-- The rights that a memory OP needs: R 1, W 2 (R223). -/
def memNeed (op : Nat) : Nat := if op ≤ 0x25 then 1 else if op ≤ 0x2B then 2 else 3

/-- A loaded value as its OP extends it (R222). -/
def loadWrites (op gd : Nat) (bs : List Byte) : List (Nat × W32) :=
  match op with
  | 0x20 => [(gd, w32i (sext 8 (leNat bs)))]
  | 0x22 => [(gd, w32i (sext 16 (leNat bs)))]
  | 0x25 => pairWrites gd (leNat bs)
  | _ => [(gd, w32 (leNat bs))]

/-- The fault that a refused data access raises (R224, R363, R532). -/
def AccErr.cause : AccErr → Nat
  | .owner => 4
  | _ => 3

/-- The address of a memory syllable: the base of its segment and the offset (R223). -/
def Chip.memAddr (c : Chip) (core seg : Nat) (o : Int) : Nat :=
  wrap 32 ((c.fld (XDM_SEGm_BASEs core seg) 31 6 * 64 : Nat) + o)

/-- Whether the named segment covers and grants the access (R223). -/
def Chip.segNamed (c : Chip) (core seg : Nat) (o : Int) (size need : Nat) : Bool :=
  decide (0 ≤ o) && decide (o + size ≤ (c.fld (XDM_SEGm_SIZEs core seg) 31 6 * 64 : Nat)) &&
    (c.fld (XDM_SEGm_BASEs core seg) 2 0 &&& need == need)

/-- The load of a memory syllable, once its segment has granted it (R222). -/
def Syll.load (s : Syll) (c : Chip) (core : Nat) (k : Ctx) : AccOut :=
  match busRead c core (c.memAddr core s.sg (s.offset k)) (memSize s.op) with
  | (.ok bs, c1) => .ok (loadWrites s.op s.gd bs) c1
  | (.error .wait, c1) => .waits c1
  | (.error e, c1) => .fault (.fault e.cause (w32i (s.offset k))) c1

/-- The memory access of a bundle, after its alignment check: segment, then the fabric (R222 to R224, R232). -/
def Syll.access (s : Syll) (c : Chip) (core : Nat) (k : Ctx) : AccOut :=
  let o := s.offset k
  let size := memSize s.op
  let need := memNeed s.op
  let a := c.memAddr core s.sg o
  let info := w32i o
  if !c.segNamed core s.sg o size need then .segv s.sg (wrap 32 o) size need (need == 3)
  else if need = 1 then s.load c core k
  else if need = 2 then
    match busWrite c core a (leBytes size ((k.g (s.gd + 1)).toNat * 2 ^ 32 + (k.g s.gd).toNat)) with
    | (none, c1) => .ok [] c1
    | (some e, c1) => .fault (.fault e.cause info) c1
  else
    match regionOf a with
    | .sram _ =>
      match c.atomicAt core a (s.op == 0x2D) (k.g s.gd) with
      | (.ok old, c1) => .ok [(s.gd, old)] c1
      | (.error e, c1) => .fault (.fault e.cause info) c1
    | _ => .fault (.fault 3 info) c

/-! ### Fetch -/

/-- What a fetch came to. -/
inductive FetchOut where
  | ok (ws : List W32) (c : Chip)
  | fault (why : TrapWhy) (c : Chip)
  | segv (a : Nat) (c : Chip)
  | waits (c : Chip)

/-- Syllables are fetched until the stop bit or the longest bundle (R209, R210, R232, R372). An uncorrectable error
raises BUSERR (R241, R363), and the TINFO of that fault is a free value: it has no data offset (log entry 152). -/
def Chip.fetch (c : Chip) (core a : Nat) : Nat → List W32 → FetchOut
  | 0, ws => .ok ws c
  | n + 1, ws =>
    if !c.segAllows core a 4 4 then .segv a c
    else
      match c.memRead core a 4 with
      | (.ok bs, c1) =>
        let w := w32 (leNat bs)
        if sylStop w then .ok (ws ++ [w]) c1 else c1.fetch core ((a + 4) % 2 ^ 32) n (ws ++ [w])
      | (.error .wait, c1) => .waits c1
      | (.error .ecc, c1) =>
        let (info, c2) := c1.takeFree
        .fault (.fault 3 (w32 info)) c2
      | (.error _, c1) => .fault (.fault 5 (w32 a)) c1

/-- The longest bundle of a core (R209). -/
def longest (core : Nat) : Nat := if 3 ≤ core then 7 else 6

/-- The index of the syllable that makes a bundle illegal, the missing stop bit among the reasons (R212, R237). -/
def illegalSyll (core : Nat) (ws : List W32) : Option Nat :=
  match illegalAt ws (decide (3 ≤ core)) with
  | some i => some i
  | none => if (ws.getLast?.map sylStop).getD false then none else some (ws.length - 1)

/-! ### Commit -/

/-- Where control goes after a bundle of `len` syllables: the next address and LINK (R225, R226). RETT takes the
word that TPC lies in: a PC names a syllable (DEDUCED, log entry 152). -/
def Syll.flow (s : Syll) (k : Ctx) (len : Nat) : Option Nat × Option W32 :=
  if s.unit ≠ 3 then (none, none)
  else if s.op = 0x0A then (some (k.tpc.toNat / 4 * 4), none)
  else if s.op ≠ 0 ∨ condHolds s.cond k.flags = false then (none, none)
  else
    let target := if s.i then wrap 32 ((k.pc : Int) + 4 * s.bdisp)
      else if s.ga = 0 then k.link.toNat else (k.g s.ga).toNat
    (some target, if s.f then some (w32 (k.pc + 4 * len)) else none)

/-- The sticky bits of FLAGS as V, DZ, DV: 1, 2, 4. -/
def FlagOut.conds (o : FlagOut) : Nat := b2n o.ovf + 2 * b2n o.dz + 4 * b2n o.dv

/-- The trap that a bundle's conditions and its TRAP give, if one does (R233, R237). -/
def trapOf (tmask : W32) (seen : Nat) (trap : Option Nat) : Option TrapWhy :=
  let v := nbit seen 0 && wbit tmask 1
  let dz := nbit seen 1 && wbit tmask 8
  let dv := nbit seen 2 && wbit tmask 9
  let why (cause : Nat) : Option TrapWhy := some ⟨cause, seen, trap.getD 0, 0⟩
  if v then why 8 else if dz then why 9 else if dv then why 10 else if trap.isSome then why 0x10 else none

/-- What a bundle computes from the state before it: the arithmetic syllables' results. -/
def arithOf (ss : List Syll) (k : Ctx) : List SylOut :=
  (ss.filter fun s => s.unit ≤ 1 || (s.unit == 2 && s.fmt == .ri)).map fun s => s.arith k

/-- The bundle's TRAP code, if it holds TRAP. -/
def trapCode (ss : List Syll) : Option Nat := (ss.find? fun s => s.unit == 3 && s.op == 0x09).map fun s => s.imm8

/-- What the B unit writes: a WAIT's result or CSRR (R225, R227). -/
def bWrites (ss : List Syll) (k : Ctx) (core x : Nat) (waited : Option W32) : List (Nat × W32) :=
  ss.flatMap fun s =>
    if s.unit ≠ 3 then []
    else if s.op = 0x08 then [(s.gd, waited.getD 0)]
    else if s.op = 0x10 then [(s.gd, k.csr core x s.imm.toNat)]
    else []

/-- The context after a bundle's commit, from the context now and the context before the bundle (R213, R216). -/
def Ctx.commit (now k : Ctx) (core x : Nat) (ss : List Syll) (len : Nat) (writes : List (Nat × W32))
    (waited : Option W32) : Ctx :=
  let outs := arithOf ss k
  let all := writes ++ outs.flatMap (fun (o : SylOut) => o.writes) ++ bWrites ss k core x waited
  let k1 := all.foldl (fun q w => q.put w.1 w.2) now
  let k2 := { k1 with flags := outs.foldl (fun f (o : SylOut) => o.flags.apply o.f f) k.flags, bcnt := k.bcnt + 1 }
  let sticky := outs.foldl (fun f (o : SylOut) => o.flags.apply false f) 0
  let k3 := ss.foldl (fun q s =>
    if s.unit ≠ 3 then q
    else if s.op = 0x11 then q.setCsr s.imm.toNat (k.g s.ga) sticky
    else if s.op = 0x10 ∧ s.imm = 0x09 then { q with bcntHi := hi32 k.bcnt }
    else if s.op = 0x0A then { q with tstat := wsetBit q.tstat 0 false }
    else if s.op = 0x08 then { q with wake := q.wake &&& ~~~((waited.getD 0) &&& 0xFF) }
    else q) k2
  let (target, link) := ss.foldl (fun r s => match s.flow k len with
    | (some t, l) => (some t, l)
    | _ => r) ((none : Option Nat), (none : Option W32))
  let k4 := { k3 with pc := target.getD ((k.pc + 4 * len) % 2 ^ 32), link := link.getD k3.link }
  if ss.any fun s => s.unit == 3 && s.op == 0x0B then k4.halted else k4

/-- A bundle whose access has been performed commits, with its F effects, HALT and traps (R213, R228, R233, R271).
A device reset that the access itself brought leaves nothing to commit. -/
def Chip.commitBundle (c : Chip) (core x : Nat) (k : Ctx) (ws : List W32) (writes : List (Nat × W32))
    (waited : Option W32) : Chip :=
  if c.sysState < 2 then c
  else
    let ss := bundleSylls ws
    let (fw, c1) := ss.foldl (fun (acc : List (Nat × W32) × Chip) s =>
      if s.unit = 4 then s.runF acc.2 core x k else acc) ([], c)
    let c2 := c1.setCtx core x ((c1.ctx core x).commit k core x ss ws.length (writes ++ fw) waited)
    let halts := ss.any fun s => s.unit == 3 && s.op == 0x0B
    let c3 := if halts && (core == 1 || core == 2) then c2.taskEnd core x false else c2
    let seen := (arithOf ss k).foldl (fun n (o : SylOut) => n ||| o.flags.conds) 0
    match trapOf k.tmask seen (trapCode ss) with
    | some t => c3.trap core x (c3.ctx core x).pc t
    | none => c3

/-! ### Execution -/

/-- The data offset or branch target that is misaligned, if one is (R224, R226). -/
def misaligned (ss : List Syll) (c : Chip) (core : Nat) (k : Ctx) : Option W32 :=
  match ss.find? fun s => s.fmt == .mem && c.memAddr core s.sg (s.offset k) % memSize s.op != 0 with
  | some s => some (w32i (s.offset k))
  | none =>
    (ss.findSome? fun s =>
      match s.flow k 0 with
      | (some t, _) => if s.op = 0 ∧ t % 4 ≠ 0 then some (w32 t) else none
      | _ => none)

/-- Whether a commit would take SUP into a double trap (R235). -/
def supDoubles (core : Nat) (ss : List Syll) (k : Ctx) : Option TrapWhy :=
  if core ≠ 0 then none
  else
    match trapOf k.tmask ((arithOf ss k).foldl (fun n (o : SylOut) => n ||| o.flags.conds) 0) (trapCode ss) with
    | some t =>
      let k1 := k.commit k 0 0 ss 0 [] none
      if k1.doubles then some t else none
    | none => none

/-- The WAIT of a bundle: its mask and its time in ns (R227). -/
def waitOf (ss : List Syll) (k : Ctx) : Option (W32 × Nat) :=
  (ss.find? Syll.isWait).map fun s => (w32 (wfld (s.b k) 7 0), (k.g s.ga).toNat)

/-- A bundle whose access has led from `c` to `c1` commits; a double trap of SUP stops it at `c`, before the commit
(R233, R235). -/
def Chip.finish (c c1 : Chip) (core x : Nat) (k : Ctx) (ws : List W32) (writes : List (Nat × W32))
    (waited : Option W32) : Chip :=
  match supDoubles core (bundleSylls ws) k with
  | some t => c.doubleTrap core x t
  | none => c1.commitBundle core x k ws writes waited

/-- What a bundle's access leads to. The Bool says that it waits for an outbound read: the bundle is in flight. -/
def Chip.accessed (c : Chip) (core x : Nat) (k : Ctx) (ws : List W32) : AccOut → Bool × Chip
  | .ok writes c1 => (false, c.finish c1 core x k ws writes none)
  | .fault t c1 => (false, c1.trap core x k.pc t)
  | .segv seg ofs size rwx atomic => (false, c.coreFreezes core x seg ofs size rwx atomic)
  | .waits c1 => (true, c1.setCtx core x { c1.ctx core x with held := ws, inFlight := true })

/-- A legal bundle runs: ALIGN, then its access, then commit or WAIT (R227, R232). The Bool says that it is still in
flight. -/
def Chip.runBundle (c : Chip) (core x : Nat) (k : Ctx) (ws : List W32) : Bool × Chip :=
  let ss := bundleSylls ws
  match misaligned ss c core k with
  | some info => (false, c.trap core x k.pc (.fault 2 info))
  | none =>
    match waitOf ss k with
    | some (mask, _) =>
      if k.wake &&& mask ≠ 0 then (false, c.finish c core x k ws [] (some (k.wake &&& mask)))
      else (false, c.setCtx core x { k with st := .wait, waitSince := c.lt, held := ws })
    | none =>
      match ss.find? fun s => s.fmt == .mem with
      | none => (false, c.finish c core x k ws [] none)
      | some s => c.accessed core x k ws (s.access c core k)

/-- A bundle in flight goes on with its outbound read (R231, R532), whatever has become of its context since. -/
def Chip.fliesOn (c : Chip) (core x : Nat) : Bool × Chip :=
  let ws := (c.ctx core x).held
  let k := { c.ctx core x with held := [], inFlight := false }
  let c0 := c.setCtx core x k
  match (bundleSylls ws).find? fun s => s.fmt == .mem with
  | none => (false, c0)
  | some s => c0.accessed core x k ws (s.load c0 core k)

/-- The next bundle of a context: fetch, legality, and the run (R232). -/
def Chip.issue (c : Chip) (core x : Nat) : Bool × Chip :=
  let k := c.ctx core x
  match c.fetch core (k.pc / 4 * 4) (longest core) [] with
  | .segv a c1 => (false, c1.coreFreezes core x 16 a 4 4 false)
  | .fault t c1 => (false, c1.trap core x k.pc t)
  | .waits c1 => (true, c1)
  | .ok ws c1 =>
    match illegalSyll core ws with
    | some i => (false, c1.trap core x k.pc (.fault 1 (w32 i)))
    | none => c1.runBundle core x (c1.ctx core x) ws

/-- The highest-numbered READY context without a bundle in flight issues (R231): `n` contexts are left to ask,
and `flight` has a bit set for each context whose last bundle is still in flight. A context whose bundle waits for an
outbound read goes on with it, also after a freeze or a stop of its core (R236, R258). -/
def Chip.issueFrom (c : Chip) (core flight : Nat) : Nat → Chip
  | 0 => c
  | n + 1 =>
    if ((c.ctx core n).st = .ready ∨ (c.ctx core n).inFlight = true) ∧ flight.testBit n = false then
      match if (c.ctx core n).inFlight then c.fliesOn core n else c.issue core n with
      | (true, c1) => c1.issueFrom core flight n
      | (false, c1) => c1
    else c.issueFrom core flight n

/-- A core issues a bundle (R213, R231). On SUP, a mismatch of the lockstep pair stops it before the bundle
commits (R235), with ERR 0x3 while the boot ROM runs (R492); a stopped SUP issues nothing more. -/
def bundleExecute (c : Chip) (core flight : Nat) (mismatch : Bool) : Chip :=
  if core = 0 ∧ c.core.supStopped then c
  else if core = 0 ∧ mismatch ∧ c.romServes then c.bootError 3
  else if core = 0 ∧ mismatch then { c with core := { c.core with supStopped := true } }
  else c.issueFrom core flight (ctxCount core)

/-- A WAIT ends with a wake: matching lines given and cleared (R227). -/
def waitWake (c : Chip) (core x : Nat) : Chip :=
  let k := c.ctx core x
  match k.st, waitOf (bundleSylls k.held) k with
  | .wait, some (mask, _) =>
    let hit := k.wake &&& mask
    if core = 0 ∧ c.core.supStopped then c
    else if hit ≠ 0 then
      let k1 := { k with st := .ready, held := [] }
      (c.setCtx core x k1).finish (c.setCtx core x k1) core x k1 k.held [] (some hit)
    else c
  | _, _ => c

/-- A WAIT ends with its time, once the tick of the timeout is over; a wake in the same cycle ends it as a wake (R38,
R227). -/
def waitTimeout (c : Chip) (core x : Nat) : Chip :=
  let k := c.ctx core x
  match k.st, waitOf (bundleSylls k.held) k with
  | .wait, some (mask, ns) =>
    if core = 0 ∧ c.core.supStopped then c
    else if ns ≠ 0 ∧ k.waitSince + ns * 65536 < c.lt then
      if k.wake &&& mask ≠ 0 then waitWake c core x
      else
        let k1 := { k with st := .ready, held := [] }
        (c.setCtx core x k1).finish (c.setCtx core x k1) core x k1 k.held [] (some 0x80000000)
    else c
  | _, _ => c

end Sys2Proof.Machine
end

