-- ==== Sys2Proof/Machine/ExecCore.lean ====
section
/-!
 DEFINITION. The meanings of the commands of one family: Dwevel cores (R210 to R236).
-/
namespace Sys2Proof.Machine

/-- BUNDLE_EXECUTE (R213): A core issues a bundle that reads the state from before it and commits all its writes
together or not at all. -/
def execBundleExecute (core : Fin 11) (flight : Fin 256) (mismatch : Bool) (s : State) : Result :=
  onChip s fun c => bundleExecute c core.val flight.val mismatch

/-- WAIT_WAKE (R227): A matching wake line ends the WAIT, clears its WAKE bits and commits the bundle. -/
def execWaitWake (core : Fin 11) (x : Fin 8) (s : State) : Result :=
  onChip s fun c => waitWake c core.val x.val

/-- WAIT_TIMEOUT (R227): Ga ns after issue the WAIT ends with bit 31 set in Gd. -/
def execWaitTimeout (core : Fin 11) (x : Fin 8) (s : State) : Result :=
  onChip s fun c => waitTimeout c core.val x.val

end Sys2Proof.Machine
end

