-- ==== Sys2Proof/Machine/ExecEngine.lean ====
section
/-!
 DEFINITION. The meanings of the commands of one family: protocol engines and their queues (R249 to R262).
-/
namespace Sys2Proof.Machine

/-- RQ_DELIVERY (R249): A frame decided for a receive queue is written to its buffer and descriptor, PROD advances and
wake line 5 is set, or the frame is dropped. -/
def execRqDelivery (s : State) : Result :=
  onChip s fun c => rqDelivery c

/-- RQ_CONS_WRITE (R251): A write of PE_RQq_CONS by the owner or SUP within the allowed span releases entries, or sets
ERR. -/
def execRqConsWrite (m : Master) (q : Fin 32) (v : W32) (s : State) : Result :=
  onChip s fun c => regWrite c m.val (PE_RQq_CONS q.val) v

/-- TQ_PUSH_WRITE (R266): A write of PE_TQt_PUSH by the owner or SUP pushes a descriptor address, or sets REFUSED. -/
def execTqPushWrite (m : Master) (t : Fin 16) (v : W32) (s : State) : Result :=
  onChip s fun c => regWrite c m.val (PE_TQt_PUSH t.val) v

/-- TQ_DESCRIPTOR_SERVE (R254): SP8 or SP9 reads a pushed descriptor and its frame, offers the frame to SWX and writes
DONE and RESULT. -/
def execTqDescriptorServe (sp : Fin 2) (s : State) : Result :=
  onChip s fun c => tqServe c (8 + sp.val)

/-- PE_CYCLE_TIMER (R257): At each BASE + j × CYCPER the engine's cycle timer sets wake line 7 of the selected
contexts. -/
def execPeCycleTimer (n : Fin 8) (s : State) : Result :=
  onChip s fun c => peCycleTimer c n.val

/-- ENGINE_START (R258): CMD START takes a LOADED engine to RUNNING, starting enabled contexts at their entries and
the watchdog. -/
def execEngineStart (m : Master) (n : Fin 8) (v : W32) (s : State) : Result :=
  onChip s fun c => regWrite c m.val (PE_PEn_CMD n.val) (v ||| 0x1)

/-- ENGINE_STOP (R258): CMD STOP takes a RUNNING engine to LOADED within 40 ns, halting all contexts. -/
def execEngineStop (m : Master) (n : Fin 8) (v : W32) (s : State) : Result :=
  onChip s fun c => regWrite c m.val (PE_PEn_CMD n.val) (v ||| 0x2)

/-- ENGINE_CLEAR (R258): CMD CLEAR starts clearing both engine memories and takes the engine to STOPPED. -/
def execEngineClear (m : Master) (n : Fin 8) (v : W32) (s : State) : Result :=
  onChip s fun c => regWrite c m.val (PE_PEn_CMD n.val) (v ||| 0x4)

/-- ENGINE_CLEAR_DONE (R258): Within 70 µs both engine memories are cleared to 0. -/
def execEngineClearDone (n : Fin 8) (s : State) : Result :=
  onChip s fun c => engineClearDone c n.val

/-- ENGINE_WATCHDOG_EXPIRY (R262): LIMIT µs without a WDK sets EVCAUSE.WDT and, with WDT.STOP, stops the engine. -/
def execEngineWatchdogExpiry (n : Fin 8) (s : State) : Result :=
  onChip s fun c => peWatchdog c n.val

end Sys2Proof.Machine
end

