-- ==== Sys2Proof/Machine/ExecEvent.lean ====
section
/-!
 DEFINITION. The meanings of the commands of one family: the event fabric and the check-value unit (R397 to R407).
-/
namespace Sys2Proof.Machine

/-- EVENT_DELIVERY (R399): A raised event sets its PEND bit, its target lines or XDM trigger, its record queue and its
INT pin. -/
def execEventDelivery (s : State) : Result :=
  onChip s fun c => eventDelivery c

/-- MSIX_SEND (R399): An event routed to an MSI-X vector sends one message under the vector's mask rules. -/
def execMsixSend (s : State) : Result :=
  onChip s fun c => msixSend c

/-- EVENT_QUEUE_POP (R400): A write of EVT_EQk_POP by SUP or the owner removes the head record. -/
def execEventQueuePop (m : Master) (k : Fin 8) (v : W32) (s : State) : Result :=
  onChip s fun c => regWrite c m.val (EVT_EQk_POP k.val) v

/-- EVT_RAISE_WRITE (R402): A write of EVT_RAISE by SUP raises the named source with code 0. -/
def execEvtRaiseWrite (m : Master) (v : W32) (s : State) : Result :=
  onChip s fun c => regWrite c m.val EVT_RAISE v

/-- ROUTE_WRITE (R401): A write of EVT_ROUTEn sets the source's route for later events, or is refused for an invalid
target. -/
def execRouteWrite (m : Master) (n : Fin 512) (v : W32) (s : State) : Result :=
  onChip s fun c => regWrite c m.val (EVT_ROUTE n.val) v

/-- CV_LOAD (R404): CVn_CTL.LOAD fills the context's parameters from a preset. -/
def execCvLoad (m : Master) (n : Fin 16) (preset : Fin 4) (s : State) : Result :=
  onChip s fun c => regWrite c m.val (CVn_CTL n.val) (w32 (0x20000000 + at_ preset.val 24))

/-- CV_START (R405): CVn_CTL.START sets STATE to INIT and folds a leading fold word. -/
def execCvStart (m : Master) (n : Fin 16) (s : State) : Result :=
  onChip s fun c => regWrite c m.val (CVn_CTL n.val) 0x80000000

/-- CV_FINISH (R405): CVn_CTL.FINISH folds a trailing fold word, latches RESULT and raises source 432 + n. -/
def execCvFinish (m : Master) (n : Fin 16) (s : State) : Result :=
  onChip s fun c => regWrite c m.val (CVn_CTL n.val) 0x40000000

/-- CV_DATA4_WRITE (R405): A write of CVn_DATA4 absorbs four bytes. -/
def execCvData4Write (m : Master) (n : Fin 16) (v : W32) (s : State) : Result :=
  onChip s fun c => regWrite c m.val (CVn_DATA4 n.val) v

/-- CV_DATA1_WRITE (R405): A write of CVn_DATA1 absorbs one byte. -/
def execCvData1Write (m : Master) (n : Fin 16) (v : W32) (s : State) : Result :=
  onChip s fun c => regWrite c m.val (CVn_DATA1 n.val) v

end Sys2Proof.Machine
end

