-- ==== Sys2Proof/Machine/ExecHost.lean ====
section
/-!
 DEFINITION. The meanings of the commands of one family: the host's paths and the command rings (R413 to R432, R501,
R532).
-/
namespace Sys2Proof.Machine

/-- BAR0_ACCESS (R415): A host TLP to BAR0 accesses HIF registers, mailboxes or the MSI-X table as a single 32-bit
access. -/
def execBar0Access (write : Bool) (ofs n : Nat) (v : W32) (s : State) : Result :=
  onChip s fun c => bar0Access c write ofs n v

/-- BAR2_ACCESS (R413): A host TLP to BAR2 accesses SRAM under the host's segments and ownership. -/
def execBar2Access (write : Bool) (ofs n : Nat) (data : List Byte) (s : State) : Result :=
  onChip s fun c => bar2Access c write ofs n data

/-- PCIE_LINK_CHANGE (R414): The PCIe link trains or goes down, and HIF_STAT reports it. -/
def execPcieLinkChange (up : Bool) (width speed : Fin 16) (s : State) : Result :=
  onChip s fun c => pcieLink c up width.val speed.val

/-- PERST_ASSERT (R501): PERST_N resets only the PCIe endpoint. -/
def execPerstAssert (s : State) : Result :=
  onChip s fun c => perstAssert c

/-- OUTBOUND_ACCESS (R532): A device master's access to the outbound window is sent to the host as a read or posted
write. -/
def execOutboundAccess (m : Master) (write : Bool) (ofs n : Nat) (data : List Byte) (s : State) : Result :=
  onChip s fun c => outboundAccess c m.val write ofs n data

/-- OUTBOUND_READ_COMPLETION (R532): The completions of an outbound read arrive and deliver data, or refuse it as a
fabric error. -/
def execOutboundReadCompletion (m : Master) (ok : Bool) (data : List Byte) (s : State) : Result :=
  onChip s fun c => (obCompletion c m.val ok data).debugSettle

/-- OUTBOUND_READ_TIMEOUT (R532): No completion within 10 ms refuses the outbound read and sets OBERR. -/
def execOutboundReadTimeout (m : Master) (s : State) : Result :=
  onChip s fun c => (obTimeout c m.val).debugSettle

/-- XSPI_READ (R417): An xSPI READ command returns words from the address upward. -/
def execXspiRead (a : W32) (n : Nat) (s : State) : Result :=
  onChip s fun c => xspiRead c a.toNat n

/-- XSPI_WRITE (R417): An xSPI WRITE command writes words from the address upward. -/
def execXspiWrite (a : W32) (vs : List W32) (s : State) : Result :=
  onChip s fun c => xspiWrite c a.toNat vs

/-- XSPI_STATUS (R417): An xSPI STATUS command returns READY and ERR. -/
def execXspiStatus (s : State) : Result :=
  onChip s fun c => xspiStatus c

/-- PARALLEL_BUS_READ (R418): A parallel-bus read is held with PB_WAIT_N until its data is driven. -/
def execParallelBusRead (ad : Nat) (s : State) : Result :=
  onChip s fun c => parallelRead c ad

/-- PARALLEL_BUS_WRITE (R418): A parallel-bus write is held with PB_WAIT_N until it has been performed. -/
def execParallelBusWrite (ad : Nat) (v : W32) (s : State) : Result :=
  onChip s fun c => parallelWrite c ad v

/-- COMMAND_DOORBELL (R423): A host write of HIF_CMD_DB posts commands if it stays within the ring, and otherwise sets
DBERR. -/
def execCommandDoorbell (m : Master) (v : W32) (s : State) : Result :=
  onChip s fun c => regWrite c m.val HIF_CMD_DB v

/-- REPLY_DOORBELL (R423): A host write of HIF_RPL_DB releases reply slots within PROD, or sets RPLERR. -/
def execReplyDoorbell (m : Master) (v : W32) (s : State) : Result :=
  onChip s fun c => regWrite c m.val HIF_RPL_DB v

/-- REPLY_SIGNAL (R424): A write of HIF_RPL_SIG by SUP sends MSI-X vector 0 or sets VPEND bit 0. -/
def execReplySignal (s : State) : Result :=
  onChip s fun c => regWrite c 0 HIF_RPL_SIG 1

/-- COMMAND_TAKE (R425): Supervisor firmware takes the next posted command when a reply slot is free, copies it and
advances CONS. -/
def execCommandTake (s : State) : Result :=
  onChip s fun c => commandTake c

/-- MAILBOX_COMMAND_TAKE (R426): Supervisor firmware takes a command packet from MB0 on the mailbox path. -/
def execMailboxCommandTake (s : State) : Result :=
  onChip s fun c => mailboxCommandTake c

/-- REPLY_POST (R425): A reply is written whole into a free reply slot and PROD advances. -/
def execReplyPost (s : State) : Result :=
  onChip s fun c => replyPost c

/-- ASYNC_COMMAND_COMPLETE (R431): A command answered STARTED gives its one final reply when its operation ends. -/
def execAsyncCommandComplete (received errors : Nat) (s : State) : Result :=
  onChip s fun c => asyncComplete c received errors

end Sys2Proof.Machine
end

