-- ==== Sys2Proof/Machine/ExecMailbox.lean ====
section
/-!
 DEFINITION. The meanings of the commands of one family: mailboxes (R388 to R395).
-/
namespace Sys2Proof.Machine

/-- MAILBOX_CONFIG_WRITE (R388): A write of MBn_CFG defines the mailbox, or is refused while FULL or with equal
parties. -/
def execMailboxConfigWrite (m : Master) (n : Fin 64) (v : W32) (s : State) : Result :=
  onChip s fun c => regWrite c m.val (MBn_CFG n.val) v

/-- MAILBOX_DATA_WRITE (R389): The sender writes a data word while FULL = 0; other writes are refused. -/
def execMailboxDataWrite (m : Master) (n : Fin 64) (i : Fin 16) (v : W32) (s : State) : Result :=
  onChip s fun c => regWrite c m.val (MBn_DATA n.val i.val) v

/-- MAILBOX_GO (R390): GO by the sender sets FULL, counts MSGCNT, starts the timeout and raises ARRIVE. -/
def execMailboxGo (m : Master) (n : Fin 64) (v : W32) (s : State) : Result :=
  onChip s fun c => regWrite c m.val (MBn_CTL n.val) (v ||| 0x80000000)

/-- MAILBOX_ACKNOWLEDGE (R391): The receiver's read of the last register clears FULL and in wide mode raises EMPTY. -/
def execMailboxAcknowledge (m : Master) (n : Fin 64) (s : State) : Result :=
  onChip s fun c => regRead c m.val (MBn_DATA n.val (c.mbLast n.val))

/-- MAILBOX_TIMEOUT (R392): The mailbox timeout expires with FULL still set, setting TMO. -/
def execMailboxTimeout (n : Fin 64) (s : State) : Result :=
  onChip s fun c => mailboxTimeout c n.val

/-- CROSS_WAIT_DETECT (R393): When the pair timer exceeds MBX_PAIRLIM, CROSS sets in both mailboxes and SUP wake line
7 is set. -/
def execCrossWaitDetect (n : Fin 64) (s : State) : Result :=
  onChip s fun c => crossWait c n.val

/-- MAILBOX_RESET (R395): A RESET by SUP discards the message, sets DISC if it was FULL and clears the data. -/
def execMailboxReset (m : Master) (n : Fin 64) (v : W32) (s : State) : Result :=
  onChip s fun c => regWrite c m.val (MBn_CTL n.val) (v ||| 0x04000000)

end Sys2Proof.Machine
end

