-- ==== Sys2Proof/Machine/ExecMemory.lean ====
section
/-!
 DEFINITION. The meanings of the commands of one family: bank owners, atomics, locks, scrubbing and march runs (R28 to
R29, R359 to R370).
-/
namespace Sys2Proof.Machine

/-- BANK_OWNER_WRITE (R29): A write of MEM_BOWNn by a member of the owner group or SUP requests a handover, and is
refused otherwise. -/
def execBankOwnerWrite (m : Master) (b : Fin 32) (v : W32) (s : State) : Result :=
  onChip s fun c => regWrite c m.val (MEM_BOWN b.val) v

/-- BANK_OWNER_TAKE_EFFECT (R28): The handover takes effect after every earlier access of the writer to the bank has
been performed. -/
def execBankOwnerTakeEffect (b : Fin 32) (s : State) : Result :=
  onChip s fun c => bankOwnerTakeEffect c b.val

/-- ATOMIC_FADD_READ (R359): A read of MEM_AT_FADD performs FADD at the reader's address and returns the old word. -/
def execAtomicFaddRead (m : Master) (s : State) : Result :=
  onChip s fun c => regRead c m.val MEM_AT_FADD

/-- ATOMIC_SWAP_READ (R359): A read of MEM_AT_SWAP performs SWAP at the reader's address and returns the old word. -/
def execAtomicSwapRead (m : Master) (s : State) : Result :=
  onChip s fun c => regRead c m.val MEM_AT_SWAP

/-- LOCK_READ (R360): A read of a free lock takes it for the reader; a read of a held lock returns the holder. -/
def execLockRead (m : Master) (n : Fin 256) (s : State) : Result :=
  onChip s fun c => regRead c m.val (MEM_LK n.val)

/-- LOCK_WRITE (R362): A write of 0 by the holder or SUP releases the lock; any other write is refused. -/
def execLockWrite (m : Master) (n : Fin 256) (v : W32) (s : State) : Result :=
  onChip s fun c => regWrite c m.val (MEM_LK n.val) v

/-- SCRUB_LINE (R365): Every MEM_SCRUB µs each bank port reads and corrects one 32-byte line. -/
def execScrubLine (s : State) : Result :=
  onChip s fun c => scrubLine c

/-- MARCH_START (R367): MEM_MARCH_CTL.GO starts a march run on the selected banks. -/
def execMarchStart (m : Master) (v : W32) (s : State) : Result :=
  onChip s fun c => regWrite c m.val MEM_MARCH_CTL (v ||| 0x80000000)

/-- MARCH_DONE (R369): The march run ends, counting faults, repairing rows and writing the repair map. -/
def execMarchDone (xs : List BankResult) (s : State) : Result :=
  onChip s fun c => marchDone c xs

end Sys2Proof.Machine
end

