-- ==== Sys2Proof/Machine/ExecMotion.lean ====
section
/-!
 DEFINITION. The meanings of the commands of one family: motion axes, step generators and decoders (R301 to R324,
R535).
-/
namespace Sys2Proof.Machine

/-- MOTION_UPDATE_INSTANT (R301): At each update instant MOT handles faults, shaft states and registered commands, and
computes each axis's command position. -/
def execMotionUpdateInstant (s : State) : Result :=
  onChip s fun c => motionInstant c

/-- AXIS_ENABLE (R303): CMD ENABLE takes a DISABLED axis to STANDBY. -/
def execAxisEnable (m : Master) (n : Fin 32) (v : W32) (s : State) : Result :=
  onChip s fun c => regWrite c m.val (AXn_CMD n.val) (v ||| 0x1)

/-- AXIS_DISABLE (R303): CMD DISABLE takes an axis at rest to DISABLED and stops its outputs. -/
def execAxisDisable (m : Master) (n : Fin 32) (v : W32) (s : State) : Result :=
  onChip s fun c => regWrite c m.val (AXn_CMD n.val) (v ||| 0x2)

/-- AXIS_MOVE_CMD (R304): CMD MOVE plans a jerk-limited profile to TGT. -/
def execAxisMoveCmd (m : Master) (n : Fin 32) (v : W32) (s : State) : Result :=
  onChip s fun c => regWrite c m.val (AXn_CMD n.val) (v ||| 0x4)

/-- AXIS_VEL_CMD (R305): CMD VEL plans a ramp to the velocity target VTGT. -/
def execAxisVelCmd (m : Master) (n : Fin 32) (v : W32) (s : State) : Result :=
  onChip s fun c => regWrite c m.val (AXn_CMD n.val) (v ||| 0x8)

/-- AXIS_GEAR_CMD (R308): CMD GEAR engages the axis to its shaft through a residual plan. -/
def execAxisGearCmd (m : Master) (n : Fin 32) (v : W32) (s : State) : Result :=
  onChip s fun c => regWrite c m.val (AXn_CMD n.val) (v ||| 0x10)

/-- AXIS_CAM_CMD (R311): CMD CAM engages the axis to its shaft through the active cam set. -/
def execAxisCamCmd (m : Master) (n : Fin 32) (v : W32) (s : State) : Result :=
  onChip s fun c => regWrite c m.val (AXn_CMD n.val) (v ||| 0x20)

/-- AXIS_CAMARM_CMD (R312): CMD CAMARM arms a switch to the other periodic cam set. -/
def execAxisCamarmCmd (m : Master) (n : Fin 32) (v : W32) (s : State) : Result :=
  onChip s fun c => regWrite c m.val (AXn_CMD n.val) (v ||| 0x100)

/-- AXIS_STOP_CMD (R314): CMD STOP plans a stop ramp at SDEC and SJERK and writes STOPPOS. -/
def execAxisStopCmd (m : Master) (n : Fin 32) (v : W32) (s : State) : Result :=
  onChip s fun c => regWrite c m.val (AXn_CMD n.val) (v ||| 0x40)

/-- AXIS_CLEAR_CMD (R303): CMD CLEAR returns a FAULT axis at rest to STANDBY. -/
def execAxisClearCmd (m : Master) (n : Fin 32) (v : W32) (s : State) : Result :=
  onChip s fun c => regWrite c m.val (AXn_CMD n.val) (v ||| 0x80)

/-- SETPOS_COMMIT (R535): A commit of AXn_SETPOS in DISABLED or STANDBY sets command and actual position. -/
def execSetposCommit (m : Master) (n : Fin 32) (v : W32) (s : State) : Result :=
  onChip s fun c => regWrite c m.val (AXn_SETPOS_LO n.val) v

/-- PHASE_COMMIT (R309): A commit of AXn_PHASE in GEAR or CAM moves the phase offset into GOFS and plans it out as an
S-curve. -/
def execPhaseCommit (m : Master) (n : Fin 32) (v : W32) (s : State) : Result :=
  onChip s fun c => regWrite c m.val (AXn_PHASE_LO n.val) v

/-- STEP_PULSE (R317): At the due instant a step generator drives a STEP pulse and changes its count by 1. -/
def execStepPulse (g : Fin 16) (s : State) : Result :=
  onChip s fun c => stepPulse c g.val

/-- QUADRATURE_TRANSITION (R320): A valid A or B transition changes QEn_CNT by ±1, or sets ILLEGAL or RATE. -/
def execQuadratureTransition (q : Fin 16) (a b : Bool) (stable : Nat) (s : State) : Result :=
  onChip s fun c => quadTransition c q.val a b stable

/-- QUADRATURE_INDEX (R320): A rising Z edge with ZEN = 1 copies the count to QEn_IDX. -/
def execQuadratureIndex (q : Fin 16) (z : Bool) (stable : Nat) (s : State) : Result :=
  onChip s fun c => quadIndex c q.val z stable

/-- ACTIN_WRITE (R322): A write of AXn_ACTIN supplies a network feedback value that MOT adds to ACTPOS. -/
def execActinWrite (m : Master) (n : Fin 32) (v : W32) (s : State) : Result :=
  onChip s fun c => regWrite c m.val (AXn_ACTIN n.val) v

/-- FEEDBACK_STALE (R323): STALE µs without a new feedback value faults the axis FB. -/
def execFeedbackStale (n : Fin 32) (s : State) : Result :=
  onChip s fun c => axisFaultDue c n.val 2

/-- DEVIATION_FAULT (R324): DEVTIME update instants outside the deviation window fault the axis DEV. -/
def execDeviationFault (n : Fin 32) (s : State) : Result :=
  onChip s fun c => axisFaultDue c n.val 1

end Sys2Proof.Machine
end

