-- ==== Sys2Proof/Machine/ExecPins.lean ====
section
/-!
 DEFINITION. The meanings of the commands of one family: pins, link tests and the TAP (R502, R519 to R527).
-/
namespace Sys2Proof.Machine

/-- PIN_FUNCTION_WRITE (R502): A write of SYS_PINn sets the pin's function and electrical settings, or is refused. -/
def execPinFunctionWrite (m : Master) (g : Fin 128) (v : W32) (s : State) : Result :=
  onChip s fun c => regWrite c m.val (SYS_PIN g.val) v

/-- GPIO_SET_WRITE (R527): A write of SYS_GPIO_SET sets software output bits. -/
def execGpioSetWrite (m : Master) (k : Fin 4) (v : W32) (s : State) : Result :=
  onChip s fun c => regWrite c m.val (SYS_GPIO_SET k.val) v

/-- GPIO_CLR_WRITE (R527): A write of SYS_GPIO_CLR clears software output bits. -/
def execGpioClrWrite (m : Master) (k : Fin 4) (v : W32) (s : State) : Result :=
  onChip s fun c => regWrite c m.val (SYS_GPIO_CLR k.val) v

/-- PRBS_RUN_START (R521): A write of TST_PRBSl_CTL.RUN = 1 starts a link's generator and checker, or sets REFUSED. -/
def execPrbsRunStart (m : Master) (l : Fin 14) (v : W32) (s : State) : Result :=
  onChip s fun c => regWrite c m.val (TST_PRBSl_CTL l.val) (v ||| 0x80000000)

/-- PRBS_INJECT (R520): A write of CTL.INJECT inverts one transmitted bit. -/
def execPrbsInject (m : Master) (l : Fin 14) (v : W32) (s : State) : Result :=
  onChip s fun c => regWrite c m.val (TST_PRBSl_CTL l.val) (v ||| 0x40000000)

/-- PRBS_LOCK (R520): After 64 correct predictions the checker locks and counts bits and errors. -/
def execPrbsLock (l : Fin 14) (rx : List Bool) (s : State) : Result :=
  onChip s fun c => prbsRun c l.val rx

/-- PRBS_LOCK_LOSS (R520): More than 256 errors in 1,024 bits clears LOCK and the checker relocks. -/
def execPrbsLockLoss (l : Fin 14) (rx : List Bool) (s : State) : Result :=
  onChip s fun c => prbsRun c l.val rx

/-- TAP_RESET (R523): Test-Logic-Reset loads IDCODE into the instruction register. -/
def execTapReset (s : State) : Result :=
  onSupply s fun c => tapReset c

/-- TAP_INSTRUCTION_UPDATE (R525): A new TAP instruction takes effect, holding the device in RESET under the EXTEST
family or releasing it as a pin reset. -/
def execTapInstructionUpdate (code : Fin 256) (s : State) : Result :=
  onSupply s fun c => tapInstruction c code.val

/-- DEBUG_ACCESS (R526): At Update-DR of DEBUG, the TST debug master performs the requested access and captures its
result. -/
def execDebugAccess (req : Nat) (s : State) : Result :=
  onChip s fun c => debugAccess c req

end Sys2Proof.Machine
end

