-- ==== Sys2Proof/Machine/ExecPort.lean ====
section
/-!
 DEFINITION. The meanings of the commands of one family: Ethernet ports (R105 to R131).
-/
namespace Sys2Proof.Machine

/-- PORT_MODE_WRITE (R105): An accepted write of ETH_Pn_CTL.MODE takes the link down, aborts a cable test and starts
the new mode, or sets MODE_REFUSED. -/
def execPortModeWrite (m : Master) (p : Fin 8) (v : W32) (s : State) : Result :=
  onChip s fun c => regWrite c m.val (ETH_Pn_CTL p.val) v

/-- AUTONEG_COMPLETE (R106): Clause 28 negotiation resolves the link, sets ANDONE and raises port source 6, or
restarts when no common ability exists. -/
def execAutonegComplete (p : Fin 8) (r : AnResult) (s : State) : Result :=
  onChip s fun c => c.atPort p.val fun c => autonegComplete c p.val r

/-- LINK_UP (R130): The port's link comes up, STAT.LINK sets and port source 0 is raised. -/
def execLinkUp (p : Fin 8) (link : LinkFacts) (s : State) : Result :=
  onChip s fun c => c.atPort p.val fun c => linkComesUp c p.val link.speed.val link.mdix

/-- LINK_DOWN (R130): On loss of link, a frame in transmission is aborted, a frame in reception is discarded, and
queues are flushed under DOWNFLUSH. -/
def execLinkDown (p : Fin 8) (s : State) : Result :=
  onChip s fun c => linkLost c p.val

/-- JABBER (R113): The PHY reports jabber, which sets FLAGS.JABBER and takes a 10BASE-T1S link down. -/
def execJabber (p : Fin 8) (active : Bool) (s : State) : Result :=
  onChip s fun c => c.atPort p.val fun c => jabber c p.val active

/-- FRAME_RECEIVE (R107): A frame received on P0–P7 is checked for length and FCS, stamped, counted, admitted,
forwarded and learned. -/
def execFrameReceive (p : Fin 8) (f : RxFrame) (s : State) : Result :=
  onChip s fun c => frameReceive c p.val f

/-- FRAME_TRANSMIT_START (R151): When an egress port is free, SWX selects the highest eligible class and starts its
head frame, discarding aged head copies. -/
def execFrameTransmitStart (p : Fin 8) (start : TxBegin) (s : State) : Result :=
  onChip s fun c => frameTransmitStart c p.val start.busy start.phase.val

/-- FRAME_TRANSMIT_END (R149): The end of a frame's transmission counts it and returns its pecks once the last copy
has left. -/
def execFrameTransmitEnd (p : Fin 8) (underrun : Bool) (phase : Fin 4) (s : State) : Result :=
  onChip s fun c => frameTransmitEnd c p.val underrun phase

/-- COLLISION (R111): A collision in half duplex sends jam and schedules a back-off, or discards the frame after a
late or 16th collision. -/
def execCollision (p : Fin 8) (bits : Nat) (s : State) : Result :=
  onChip s fun c => collision c p.val bits

/-- BACKOFF_EXPIRY (R110): When the back-off drawn after a collision ends, the MAC retries the frame. -/
def execBackoffExpiry (x : PortInstant) (s : State) : Result :=
  onChip s fun c => backoffExpiry c x.port.val x.phase.val

/-- PLCA_ACTIVE_CHANGE (R114): PLCA_STAT.ACTIVE changes as BEACONs start or stop, and port source 5 is raised. -/
def execPlcaActiveChange (p : Fin 8) (active : Bool) (curid : Fin 256) (n : Nat) (s : State) : Result :=
  onChip s fun c => plcaActive c p.val active curid.val n

/-- PREEMPT_VERIFY_TIMER (R115): Every VTIME ms during verification the port sends a verify mPacket, and VSTATUS moves
to SUCCEEDED or FAILED. -/
def execPreemptVerifyTimer (p : Fin 8) (response : Bool) (s : State) : Result :=
  onChip s fun c => verifyTimer c p.val response

/-- LPI_ENTRY (R120): After EEE_IDLE without a queued frame and with enough gap to the next opening, the transmitter
enters LPI. -/
def execLpiEntry (p : Fin 8) (s : State) : Result :=
  onChip s fun c => lpiEntry c p.val

/-- EARLY_WAKE (R121): With EARLY = 1, the port leaves LPI at t_o − TWTX − GUARD and counts TX_EARLY_WAKE. -/
def execEarlyWake (p : Fin 8) (s : State) : Result :=
  onChip s fun c => earlyWake c p.val

/-- WAKE_COMPLETE (R121): TWTX after leaving LPI the wake ends and waiting frames may start. -/
def execWakeComplete (p : Fin 8) (s : State) : Result :=
  onChip s fun c => wakeComplete c p.val

/-- RX_LPI_SIGNAL (R122): The partner's LPI signalling moves the receiver into or out of LPI, counted in RX_LPI_EVENTS
and RX_LPI_TIME. -/
def execRxLpiSignal (p : Fin 8) (enter : Bool) (s : State) : Result :=
  onChip s fun c => rxLpi c p.val enter

/-- COUNTER_SNAPSHOT (R125): A write of ETH_Pn_CNTSNAP copies all 64 counters into SNAP0–SNAP63 in one cycle. -/
def execCounterSnapshot (m : Master) (p : Fin 8) (v : W32) (s : State) : Result :=
  onChip s fun c => regWrite c m.val (ETH_Pn_CNTSNAP p.val) v

/-- COUNTER_CLEAR (R125): A write of ETH_Pn_CNTCLR sets all counters and CNTHALF registers to 0 in one cycle. -/
def execCounterClear (m : Master) (p : Fin 8) (v : W32) (s : State) : Result :=
  onChip s fun c => regWrite c m.val (ETH_Pn_CNTCLR p.val) v

/-- LDF_RULE_COMMIT (R128): A write of ETH_LDFk_CFG commits the rule with its staged VID and TYPE words for frames of
later cycles. -/
def execLdfRuleCommit (m : Master) (k : Fin 64) (v : W32) (s : State) : Result :=
  onChip s fun c => regWrite c m.val (ETH_LDFk_CFG k.val) v

/-- CABLE_TEST_START (R129): START with MODE 0x0 starts a TDR test of the four pairs, and is refused otherwise. -/
def execCableTestStart (m : Master) (p : Fin 8) (v : W32) (s : State) : Result :=
  onChip s fun c => regWrite c m.val (ETH_Pn_CT_CTL p.val) (v ||| 0x1)

/-- CABLE_TEST_DONE (R129): Within 100 ms the cable test writes the pair results, clears BUSY and raises port source
4. -/
def execCableTestDone (p : Fin 8) (rs : List PairResult) (s : State) : Result :=
  onChip s fun c => cableTestDone c p.val rs

end Sys2Proof.Machine
end

