-- ==== Sys2Proof/Machine/ExecPower.lean ====
section
/-!
 DEFINITION. The meanings of the commands of one family: power, clocks, resets and boot (R474 to R492).
-/
namespace Sys2Proof.Machine

/-- POWER_ON (R489): VIN_BUCK and VDD_IO33 rising above 2.90 V take the device from OFF to RESET. -/
def execPowerOn (s : State) : Result :=
  onBoard s fun c => powerOn c

/-- BROWN_OUT (R475): A supply under-voltage takes the device to OFF after driving the enables low and stopping the
buck. -/
def execBrownOut (s : State) : Result :=
  onBoard s fun c => brownOut c

/-- CORE_OVER_VOLTAGE (R475): VDD_CORE above target + 60 mV sets CORE_OV and raises source 1. -/
def execCoreOverVoltage (mv : Fin 65536) (s : State) : Result :=
  onSupply s fun c => coreOverVoltage c mv.val

/-- CORE_WINDOW_EXIT (R475): VDD_CORE leaving target ± 30 mV clears CORE_WIN and raises source 1. -/
def execCoreWindowExit (mv : Fin 65536) (s : State) : Result :=
  onSupply s fun c => coreWindowExit c mv.val

/-- PGOOD_CORE_RISE (R478): VDD_CORE in range drives PGOOD_CORE high, and the sequencer loads its block and starts. -/
def execPgoodCoreRise (v33 : Fin 16) (mram : Bool) (s : State) : Result :=
  onSupply s fun c => pgoodRise c v33.val mram

/-- SEQUENCER_STEP_ENABLE (R478): After a step's delay the sequencer drives its PSEQ_EN high. -/
def execSequencerStepEnable (s : State) : Result :=
  onSupply s fun c => seqEnable c

/-- SEQUENCER_PG_RISE (R478): PSEQ_PGk going high passes the step. -/
def execSequencerPgRise (k : Fin 4) (s : State) : Result :=
  onBoard s fun c => seqPgRise c k.val

/-- SEQUENCER_PG_TIMEOUT (R479): PSEQ_PGk not high within PGTO fails the step. -/
def execSequencerPgTimeout (k : Fin 4) (s : State) : Result :=
  onSupply s fun c => seqPgTimeout c k.val

/-- SEQUENCER_PG_FALL (R479): PSEQ_PGk falling while its enable is high fails the step. -/
def execSequencerPgFall (k : Fin 4) (s : State) : Result :=
  onBoard s fun c => seqPgFall c k.val

/-- SEQUENCER_RETRY (R479): 100 ms after a step-0 failure the sequence runs again. -/
def execSequencerRetry (s : State) : Result :=
  onSupply s fun c => seqRetry c

/-- SEQ_CONFIG_WRITE (R478): A write of PWR_SEQ_CFGk in CHRYSALIS rewrites the MRAM sequencer block, and is refused
otherwise. -/
def execSeqConfigWrite (m : Master) (k : Fin 4) (v : W32) (s : State) : Result :=
  onChip s fun c => regWrite c m.val (PWR_SEQ_CFG k.val) v

/-- AVS_TARGET_WRITE (R477): A write of PWR_AVS sets the VDD_CORE target, toward which the buck slews. -/
def execAvsTargetWrite (m : Master) (v : W32) (s : State) : Result :=
  onChip s fun c => regWrite c m.val PWR_AVS v

/-- AVS_DONE (R477): The output reaching the target sets AVSDONE. -/
def execAvsDone (s : State) : Result :=
  onSupply s fun c => avsDone c

/-- POWER_GATE_WRITE (R481): A write of PWR_GATE powers units up or down, or is refused whole with GATEREFUSED. -/
def execPowerGateWrite (m : Master) (v : W32) (s : State) : Result :=
  onChip s fun c => regWrite c m.val PWR_GATE v

/-- UNIT_POWER_UP_DONE (R481): 20 µs after ungating, the unit's PWR_GSTAT bit follows. -/
def execUnitPowerUpDone (u : Fin 20) (s : State) : Result :=
  onChip s fun c => unitPowerUp c u.val

/-- TEMPERATURE_LIMIT (R482): PWR_TEMP rising above PWR_TEMPLIM sets TEMP and raises source 3. -/
def execTemperatureLimit (t : Int) (s : State) : Result :=
  onSupply s fun c => temperature c t

/-- PLL_LOCK (R483): The main PLL locks after VDDA_PLL rises. -/
def execPllLock (s : State) : Result :=
  onSupply s fun c => pllLock c

/-- PLL_LOCK_LOSS (R484): The main PLL losing lock clears PLLLOCK and raises source 4. -/
def execPllLockLoss (s : State) : Result :=
  onSupply s fun c => pllLoss c

/-- PIN_RESET (R486): RESET_N low for at least 1 µs takes the device to RESET. -/
def execPinReset (s : State) : Result :=
  onSupply s fun c => pinReset c

/-- SOFTWARE_RESET (R486): A write of PWR_RST.KEY = 0x5EED by SUP takes the device to RESET. -/
def execSoftwareReset (s : State) : Result :=
  onChip s fun c => regWrite c 0 PWR_RST 0x5EED

/-- WATCHDOG_KICK (R488): A write of 0xA5 to PWR_WDT_KICK restarts the watchdog; other values set BADKICK. -/
def execWatchdogKick (m : Master) (v : W32) (s : State) : Result :=
  onChip s fun c => regWrite c m.val PWR_WDT_KICK v

/-- WATCHDOG_HALF (R488): Half the limit without a kick raises source 6. -/
def execWatchdogHalf (s : State) : Result :=
  onChip s fun c => wdHalf c

/-- WATCHDOG_RESET (R488): The watchdog expiring causes a watchdog reset. -/
def execWatchdogReset (s : State) : Result :=
  onChip s fun c => wdReset c

/-- RESET_EXIT (R489): With supplies, sequencer, PLL, MRAM check, repair map and recorder scan done, the device leaves
RESET for BOOT and writes SYS_RSTCAUSE. -/
def execResetExit (hostsel : Fin 4) (bootsrc : Bool) (s : State) : Result :=
  onSupply s fun c => resetExit c hostsel.val bootsrc

/-- BOOT_ROM_RUN (R490): The boot ROM starts SEC, marches SRAM, checks the core set, and copies and verifies
supervisor firmware. -/
def execBootRomRun (f : BootFacts) (s : State) : Result :=
  onChip s fun c => bootRomRun c f

/-- HOST_PATH_TIMEOUT (R492): No verified image and no host path within 1 s stops boot with ERR 0x4. -/
def execHostPathTimeout (s : State) : Result :=
  onChip s fun c => hostPathTimeout c

/-- SYS_STATE_WRITE (R489): A write of SYS_STATE by SUP changes the device state as the table allows, or sets REFUSED.
-/
def execSysStateWrite (m : Master) (v : W32) (s : State) : Result :=
  onChip s fun c => regWrite c m.val SYS_STATE v

/-- BUCK_SOFT_START (R474): Every VDD_IOBx rising above 1.6 V starts the buck's soft start, and each GPIO bank senses
its supply range. -/
def execBuckSoftStart (v33 : Fin 16) (s : State) : Result :=
  onSupply s fun c => buckSoftStart c v33.val

/-- CORE_WINDOW_RETURN (R475): VDD_CORE returning within target ± 30 mV sets PWR_STAT.CORE_WIN again. -/
def execCoreWindowReturn (mv : Fin 65536) (s : State) : Result :=
  onSupply s fun c => coreWindowReturn c mv.val

/-- BUCK_DIS_LEVEL_CHANGE (R485): A change of the BUCK_DIS ball level, which is read as a level at all times, changes
SYS_STRAP.BUCK_DIS and whether the buck runs. -/
def execBuckDisLevelChange (b : Bool) (s : State) : Result :=
  onBoard s fun c => buckDisChange c b

end Sys2Proof.Machine
end

