-- ==== Sys2Proof/Machine/ExecRegister.lean ====
section
/-!
 DEFINITION. The meanings of the commands of one family: register accesses by a bus master (R10 to R13, R58).
-/
namespace Sys2Proof.Machine

/-- REGISTER_WRITE (R10): A write to a register that has no row of its own sets, clears or ignores its fields
according to their access codes, or is refused with a bus error. -/
def execRegisterWrite (m : Master) (a : W32) (n : Nat) (v : W32) (s : State) : Result :=
  onChip s fun c => registerWrite c m.val a.toNat n v

/-- SPLIT_REGISTER_LATCH (R58): A read of a _LO register returns the low word and latches its companion registers, for
the reading master only. -/
def execSplitRegisterLatch (m : Master) (a : W32) (n : Nat) (s : State) : Result :=
  onChip s fun c => registerRead c m.val a.toNat n

end Sys2Proof.Machine
end

