-- ==== Sys2Proof/Machine/ExecSecurity.lean ====
section
/-!
 DEFINITION. The meanings of the commands of one family: SEC and the event recorder (R439 to R467).
-/
namespace Sys2Proof.Machine

/-- SESSION_PROOF_TIMEOUT (R454): A session not proven within 1 s is closed and counts as a failed proof. -/
def execSessionProofTimeout (slot : Fin 8) (s : State) : Result :=
  onChip s fun c => sessionTimeout c slot.val

/-- ROLE_LOCK_EXPIRY (R455): A role's lockout ends after its lock time of operating seconds. -/
def execRoleLockExpiry (role : Fin 4) (s : State) : Result :=
  onChip s fun c => roleLockExpiry c role.val

/-- FUSE_READ (R439): Copies a root-slot digest into SEC_FDATA. -/
def execFuseRead (m : Master) (v : W32) (s : State) : Result :=
  onChip s fun c => regWrite c m.val SEC_FPROG (wsetFld v 27 24 1 ||| 0x80000000)

/-- FUSE_PROGRAM (R439): Burns SEC_FDATA into an owner root slot and reads it back. -/
def execFuseProgram (m : Master) (v : W32) (s : State) : Result :=
  onChip s fun c => regWrite c m.val SEC_FPROG (wsetFld v 27 24 2 ||| 0x80000000)

/-- FUSE_REVOKE (R439): Burns the revocation fuse of a root slot. -/
def execFuseRevoke (m : Master) (v : W32) (s : State) : Result :=
  onChip s fun c => regWrite c m.val SEC_FPROG (wsetFld v 27 24 3 ||| 0x80000000)

/-- FUSE_POLICY (R439): Burns a policy bit. -/
def execFusePolicy (m : Master) (v : W32) (s : State) : Result :=
  onChip s fun c => regWrite c m.val SEC_FPROG (wsetFld v 27 24 5 ||| 0x80000000)

/-- FUSE_OP_DONE (R439): A fuse operation ends within 20 ms with DONE, RESULT and source 20. -/
def execFuseOpDone (readBack : Bool) (s : State) : Result :=
  onChip s fun c => fuseOpDone c readBack

/-- SEC_JOB_GO (R458): SEC_JOB_CTL starts the job at SEC_JOB_DESC, or is refused while busy. -/
def execSecJobGo (s : State) : Result :=
  onChip s fun c => regWrite c 0 SEC_JOB_CTL 1

/-- SEC_JOB_DONE (R458): A SEC job ends, writes its status word and raises source 16 or 17. -/
def execSecJobDone (s : State) : Result :=
  onChip s fun c => secJobDone c

/-- TRNG_READ (R461): A read of SEC_TRNG_DATA takes one random word, or returns 0 with UNDERRUN. -/
def execTrngRead (s : State) : Result :=
  onChip s fun c => regRead c 0 SEC_TRNG_DATA

/-- TRNG_HEALTH_FAIL (R461): A failed health test sets FAIL, empties the buffer and stops output. -/
def execTrngHealthFail (s : State) : Result :=
  onChip s fun c => trngFail c

/-- TRNG_RESTART (R461): A write of SEC_TRNG_CTL.RESTART restarts the TRNG. -/
def execTrngRestart (s : State) : Result :=
  onChip s fun c => regWrite c 0 SEC_TRNG_CTL 1

/-- TRNG_DELIVERY (R461): The TRNG delivers a new conditioned word into its 16-word buffer and SEC_TRNG_STAT.AVAIL
rises. -/
def execTrngDelivery (w : W32) (s : State) : Result :=
  onChip s fun c => trngDeliver c w

/-- RECORD_SUBMIT (R467): EVR_SUB_CTL.GO submits a record, or is refused while busy. -/
def execRecordSubmit (s : State) : Result :=
  onChip s fun c => regWrite c 0 EVR_SUB_CTL 0x80000000

/-- RECORD_STORE_DONE (R464): EVR writes the record in two phases into its slot, or drops it, and sets the result. -/
def execRecordStoreDone (verified : Bool) (s : State) : Result :=
  onChip s fun c => recordStoreDone c verified

/-- RECORDER_CLEAR (R467): EVR_SUB_CTL.CLEAR starts clearing every slot. -/
def execRecorderClear (s : State) : Result :=
  onChip s fun c => regWrite c 0 EVR_SUB_CTL 0x40000000

/-- RECORDER_CLEAR_DONE (R467): Within 2 ms every slot is free, the sequence restarts and a clear record is stored. -/
def execRecorderClearDone (verified : Bool) (s : State) : Result :=
  onChip s fun c => recorderClearDone c verified

/-- RECORDER_SCAN_DONE (R466): At RESET, EVR ends its scan of all slots, sets sequences and torn count and stores the
power-on record. -/
def execRecorderScanDone (mramOk verified : Bool) (s : State) : Result :=
  onSupply s fun c => recorderScanDone c mramOk verified

/-- OPERATING_SECOND_TICK (R463): Each second EVR counts an operating second and writes the counter block. -/
def execOperatingSecondTick (s : State) : Result :=
  onChip s fun c => operatingSecond c

end Sys2Proof.Machine
end

