-- ==== Sys2Proof/Machine/ExecSkipper.lean ====
section
/-!
 DEFINITION. The meanings of the commands of one family: Skippers and pack FIFOs (R330 to R351).
-/
namespace Sys2Proof.Machine

/-- SK_JMP (R334): A Skipper JMP, conditional on counters, lanes, flags or FIFOs. -/
def execSkJmp (n : Fin 32) (levels : W32) (s : State) : Result :=
  onChip s fun c => skJmp c n.val levels

/-- SK_WAIT (R337): A Skipper WAIT on a lane, flag, interrupt line, TO or TS channel. -/
def execSkWait (n : Fin 32) (levels : W32) (s : State) : Result :=
  onChip s fun c => skWait c n.val levels

/-- SK_WAIT_END (R337): The awaited source ends a Skipper WAIT. -/
def execSkWaitEnd (n : Fin 32) (levels : W32) (s : State) : Result :=
  onChip s fun c => skWaitEnd c n.val levels

/-- SK_WAIT_TIMEOUT (R337): An edge of the timeout TO channel ends a Skipper WAIT with TMOF set. -/
def execSkWaitTimeout (n : Fin 32) (levels : W32) (s : State) : Result :=
  onChip s fun c => skWaitTimeout c n.val levels

/-- SK_IN (R335): Shifts k bits from lanes, D, constants or SHO into SHI. -/
def execSkIn (n : Fin 32) (levels : W32) (s : State) : Result :=
  onChip s fun c => skIn c n.val levels

/-- SK_OUT (R335): Shifts k bits out of SHO to lanes, D, counters or PC. -/
def execSkOut (n : Fin 32) (s : State) : Result :=
  onChip s fun c => skOut c n.val

/-- SK_PUSH (R336): Writes one item from SHI to the pack FIFO and optionally closes the word, or stalls. -/
def execSkPush (n : Fin 32) (s : State) : Result :=
  onChip s fun c => skPush c n.val

/-- SK_PULL (R336): Moves the oldest feed-FIFO word into SHO, or stalls when the feed is empty. -/
def execSkPull (n : Fin 32) (s : State) : Result :=
  onChip s fun c => skPull c n.val

/-- SK_MOV (R334): Moves a value between Skipper registers, lanes and window pins with an operation. -/
def execSkMov (n : Fin 32) (levels : W32) (s : State) : Result :=
  onChip s fun c => skMov c n.val levels

/-- SK_SET (R334): Sets lane latches, C0, C1 or D to an immediate value. -/
def execSkSet (n : Fin 32) (s : State) : Result :=
  onChip s fun c => skSet c n.val

/-- SK_IRQ (R334): Sets or clears a cluster flag, interrupts a Skipper of the cluster, or raises the Skipper's event.
-/
def execSkIrq (n : Fin 32) (s : State) : Result :=
  onChip s fun c => skIrq c n.val

/-- SK_STAMP (R338): Latches the line time of the instruction's clock edge. -/
def execSkStamp (n : Fin 32) (s : State) : Result :=
  onChip s fun c => skStamp c n.val

/-- SK_STALL_RELEASE (R341): A stalled PULL or PUSH completes once the feed receives a word or the pack FIFO frees
one. -/
def execSkStallRelease (n : Fin 32) (s : State) : Result :=
  onChip s fun c => skStallRelease c n.val

/-- SKIPPER_ENABLE (R342): Setting SKn_CTL.EN resumes the Skipper at its PC with a fresh clock period. -/
def execSkipperEnable (m : Master) (n : Fin 32) (v : W32) (s : State) : Result :=
  onChip s fun c => regWrite c m.val (SKn_CTL n.val) (v ||| 0x80000000)

/-- SKIPPER_DISABLE (R342): Clearing SKn_CTL.EN stops the Skipper at the end of its clock, keeping all state. -/
def execSkipperDisable (m : Master) (n : Fin 32) (v : W32) (s : State) : Result :=
  onChip s fun c => regWrite c m.val (SKn_CTL n.val) (v &&& 0x7FFFFFFF)

/-- SKIPPER_RESTART (R343): RESTART with EN = 0 clears the shift state and sets PC to ENTRY. -/
def execSkipperRestart (m : Master) (n : Fin 32) (v : W32) (s : State) : Result :=
  onChip s fun c => regWrite c m.val (SKn_CTL n.val) (v ||| 0x40000000)

/-- FEED_WRITE (R340): A write of SKn_FEED adds a word to the feed FIFO, or is dropped with FEEDOVF. -/
def execFeedWrite (m : Master) (n : Fin 32) (v : W32) (s : State) : Result :=
  onChip s fun c => regWrite c m.val (SKn_FEED n.val) v

/-- IRQSET_WRITE (R333): A write of SKn_IRQSET sets interrupt line 7 of the Skipper. -/
def execIrqsetWrite (m : Master) (n : Fin 32) (v : W32) (s : State) : Result :=
  onChip s fun c => regWrite c m.val (SKn_IRQSET n.val) v

/-- LANES_WRITE (R330): A write of SKn_LANES0 or LANES1 maps lanes, or is refused when it would claim a pin already
claimed. -/
def execLanesWrite (m : Master) (n : Fin 32) (second : Bool) (v : W32) (s : State) : Result :=
  onChip s fun c => regWrite c m.val (if second then SKn_LANES1 n.val else SKn_LANES0 n.val) v

/-- INSTRUCTION_WORD_WRITE (R344): A write of a cluster instruction word by SUP or SEC DMA, refused in the range of an
enabled Skipper. -/
def execInstructionWordWrite (m : Master) (cl : Fin 4) (i : Fin 256) (v : W32) (s : State) : Result :=
  onChip s fun c => regWrite c m.val (SCc_INSN cl.val i.val) v

/-- PACK_FIFO_READ (R348): A read of PFn_DATA_LO pops the oldest committed word, or returns the last word with
UNDERRUN. -/
def execPackFifoRead (m : Master) (n : Fin 32) (s : State) : Result :=
  onChip s fun c => regRead c m.val (PFn_DATA_LO n.val)

/-- PACK_FIFO_RESET (R350): A write of PFn_CTL.RESET empties the pack FIFO and revokes its credits. -/
def execPackFifoReset (m : Master) (n : Fin 32) (v : W32) (s : State) : Result :=
  onChip s fun c => regWrite c m.val (PFn_CTL n.val) (v ||| 0x1)

/-- PACK_CREDIT_GRANT (R351): The pack FIFO grants a read credit to its XDM channel for a committed word. -/
def execPackCreditGrant (n : Fin 32) (s : State) : Result :=
  onChip s fun c => pfGrant c n.val

end Sys2Proof.Machine
end

