-- ==== Sys2Proof/Machine/ExecSwitch.lean ====
section
/-!
 DEFINITION. The meanings of the commands of one family: the switch core (R139 to R165).
-/
namespace Sys2Proof.Machine

/-- HOST_PORT_PECK_GRANT (R143): A frame offered on SP8 or SP9 takes all its pecks in one cycle once enough are free.
-/
def execHostPortPeckGrant (sp : Fin 2) (s : State) : Result :=
  onChip s fun c => peckGrant c (8 + sp.val)

/-- LEDGER_SNAPSHOT (R142): A write of SWX_LEDGER.SNAP clears VALID and requests a ledger snapshot. -/
def execLedgerSnapshot (s : State) : Result :=
  onChip s fun c => regWrite c 0 SWX_LEDGER 0x80000000

/-- LEDGER_LATCH (R142): In the first cycle without an enqueue window, SWX latches the peck counts, sets VALID and
BALANCED, or raises source 208. -/
def execLedgerLatch (s : State) : Result :=
  onChip s fun c => ledgerLatch c

/-- FDB_AGE_TICK (R148): Once per second every dynamic entry's AGE advances, and entries reaching SWX_FDB_AGE are
removed. -/
def execFdbAgeTick (s : State) : Result :=
  onChip s fun c => fdbAge c

/-- QUEUE_SCRUB (R150): Every SWX_SCRUB µs the scrubber discards aged copies from the head of every queue that is not
transmitting. -/
def execQueueScrub (s : State) : Result :=
  onChip s fun c => queueScrub c

/-- GATE_LIST_CHANGE (R153): A write of GCL_CMD.CHANGE copies the admin list into a pending configuration and fixes
its change time, or is refused with ERR. -/
def execGateListChange (m : Master) (p : Fin 10) (v : W32) (s : State) : Result :=
  onChip s fun c => regWrite c m.val (SWX_Pp_GCL_CMD p.val) (v ||| 0x1)

/-- GATE_LIST_CHANGE_TIME (R153): At the change time the pending gate list becomes operational, PENDING clears and
source 214 is raised. -/
def execGateListChangeTime (p : Fin 10) (s : State) : Result :=
  onChip s fun c => gclChangeTime c p.val

/-- GATE_ENTRY_START (R152): At the start of each operational gate-list entry its gate states and hold operation take
effect. -/
def execGateEntryStart (p : Fin 10) (s : State) : Result :=
  onChip s fun c => gateEntryStart c p.val

/-- STREAM_GATE_ENTRY (R157): At the start of each stream-gate entry the gate opens or closes as the entry says. -/
def execStreamGateEntry (i : Fin 64) (s : State) : Result :=
  onChip s fun c => streamGateEntry c i.val

/-- RECOVERY_RESET_TIMEOUT (R158): A recovery function resets after RESET µs without a passed frame and raises source
219. -/
def execRecoveryResetTimeout (i : Fin 256) (s : State) : Result :=
  onChip s fun c => recoveryReset c i.val

/-- SLOT_WINDOW_OPEN (R160): At the start of a slot's entry with no frame pending, SWX places a null frame at the head
of the slot's queue. -/
def execSlotWindowOpen (k : Fin 256) (s : State) : Result :=
  onChip s fun c => slotWindowOpen c k.val

/-- QUEUE_FLUSH (R162): A write of SWX_FLUSH with GO unlinks every copy in the selected queues of the port. -/
def execQueueFlush (m : Master) (v : W32) (s : State) : Result :=
  onChip s fun c => regWrite c m.val SWX_FLUSH (v ||| 0x80000000)

/-- FLUSH_DONE (R162): Within 40 µs the flush ends, BUSY clears, FLUSHED counts and source 220 is raised. -/
def execFlushDone (s : State) : Result :=
  onChip s fun c => flushDone c

/-- TABLE_READ (R164): A table operation READ reads the entry at INDEX into the data words. -/
def execTableRead (m : Master) (t : Fin 16) (i : Fin 65536) (s : State) : Result :=
  onChip s fun c => regWrite c m.val SWX_TBL_CMD (w32 (0x80000000 + at_ t.val 24 + i.val))

/-- TABLE_WRITE (R164): A table operation WRITE writes the data words to the entry at INDEX, or is refused with a
result code. -/
def execTableWrite (m : Master) (t : Fin 16) (i : Fin 65536) (s : State) : Result :=
  onChip s fun c => regWrite c m.val SWX_TBL_CMD (w32 (0x90000000 + at_ t.val 24 + i.val))

/-- TABLE_SEARCH (R164): A table operation SEARCH finds the FDB entry whose key is in DATA0 and DATA1. -/
def execTableSearch (m : Master) (t : Fin 16) (i : Fin 65536) (s : State) : Result :=
  onChip s fun c => regWrite c m.val SWX_TBL_CMD (w32 (0xA0000000 + at_ t.val 24 + i.val))

/-- TABLE_CLEAR (R164): A table operation CLEAR writes 0 to every word of the entry. -/
def execTableClear (m : Master) (t : Fin 16) (i : Fin 65536) (s : State) : Result :=
  onChip s fun c => regWrite c m.val SWX_TBL_CMD (w32 (0xB0000000 + at_ t.val 24 + i.val))

/-- TABLE_OP_DONE (R164): Within 1 µs a table operation clears BUSY, sets DONE and RESULT and raises source 221. -/
def execTableOpDone (s : State) : Result :=
  onChip s fun c => tableOpDone c

end Sys2Proof.Machine
end

