-- ==== Sys2Proof/Machine/ExecTask.lean ====
section
/-!
 DEFINITION. The meanings of the commands of one family: the cyclic control unit (R268 to R292).
-/
namespace Sys2Proof.Machine

/-- FRAME_ENABLE (R274): A write of TSK_FRn_CFG.EN = 1 starts the cycle frame, or is refused with CFG_REFUSED. -/
def execFrameEnable (m : Master) (n : Fin 8) (v : W32) (s : State) : Result :=
  onChip s fun c => regWrite c m.val (TSK_FRn_CFG n.val) (v ||| 0x80000000)

/-- FRAME_CYCLE_BOUNDARY (R276): At T_j the frame's cycle counter increments and its error and normal tasks are
released. -/
def execFrameCycleBoundary (n : Fin 8) (s : State) : Result :=
  onChip s fun c => frameBoundary c n.val

/-- TASK_RELEASE_WRITE (R270): A write of TSK_REL by SUP, TC0 or TC1 releases the named task. -/
def execTaskReleaseWrite (m : Master) (v : W32) (s : State) : Result :=
  onChip s fun c => regWrite c m.val TSK_REL v

/-- TSK_MODE_STOP (R273): A mode request for STOP takes TSK to STOP, or is refused with MODE_REFUSED. -/
def execTskModeStop (s : State) : Result :=
  onChip s fun c => regWrite c 0 TSK_MODE 0

/-- TSK_MODE_STARTUP (R273): A mode request for STARTUP takes TSK to STARTUP and releases the start-up task, or is
refused. -/
def execTskModeStartup (s : State) : Result :=
  onChip s fun c => regWrite c 0 TSK_MODE 1

/-- TSK_MODE_RUN (R273): A mode request for RUN takes TSK from STARTUP or TEST to RUN, or is refused. -/
def execTskModeRun (s : State) : Result :=
  onChip s fun c => regWrite c 0 TSK_MODE 2

/-- TSK_MODE_TEST (R273): A mode request for TEST takes TSK from STARTUP or RUN to TEST, or is refused. -/
def execTskModeTest (s : State) : Result :=
  onChip s fun c => regWrite c 0 TSK_MODE 3

/-- FRAME_EVALUATION (R280): At the evaluation point, the unit updates every enabled slot's MISS and state, writes
substitutes, input forces and status words. -/
def execFrameEvaluation (n : Fin 8) (s : State) : Result :=
  onChip s fun c => frameEvaluation c n.val

/-- EVALUATION_END (R283): The evaluation ends within its time bound, allowing waiting releases to proceed. -/
def execEvaluationEnd (n : Fin 8) (s : State) : Result :=
  onChip s fun c => evaluationEnd c n.val

/-- NO_EXCHANGE_CHECK (R275): At T_j + TOUT without an exchange, every enabled slot's MISS increments and NOEXCH
counts. -/
def execNoExchangeCheck (n : Fin 8) (s : State) : Result :=
  onChip s fun c => noExchangeCheck c n.val

/-- OUTPUT_HANDOVER (R277): When the last task of the cycle ends, the unit writes forces, safe values and the output
header and hands the banks back to PGRP. -/
def execOutputHandover (n : Fin 8) (s : State) : Result :=
  onChip s fun c => outputHandover c n.val

/-- STATION_REPORT (R281): A write of TSK_RPT by a PGRP member reports DATA or NULL for a station slot, or is refused.
-/
def execStationReport (m : Master) (v : W32) (s : State) : Result :=
  onChip s fun c => regWrite c m.val TSK_RPT v

/-- FORCE_ENTRY_SET (R285): Writing FCf_CTL.EN = 1 binds the force entry to its variable, or is refused with
FORCE_REFUSED. -/
def execForceEntrySet (m : Master) (f : Fin 64) (v : W32) (s : State) : Result :=
  onChip s fun c => regWrite c m.val (TSK_FCf_CTL f.val) (v ||| 0x80000000)

/-- FORCE_ENTRY_CLEAR (R288): Clearing a force entry writes any pending change to the variable and drops the force
indication when it is the last. -/
def execForceEntryClear (m : Master) (f : Fin 64) (v : W32) (s : State) : Result :=
  onChip s fun c => regWrite c m.val (TSK_FCf_CTL f.val) (v &&& 0x7FFFFFFF)

/-- VC_PUSH (R290): TSK_VC_CTL.PUSH stages one value change. -/
def execVcPush (s : State) : Result :=
  onChip s fun c => regWrite c 0 TSK_VC_CTL 0x80000000

/-- VC_APPLY (R290): TSK_VC_CTL.APPLY accepts the staged batch for the named task's next end, or refuses it whole. -/
def execVcApply (m : Master) (v : W32) (s : State) : Result :=
  onChip s fun c => regWrite c m.val TSK_VC_CTL (v ||| 0x40000000)

/-- TSK_DIAG_WRITE (R271): A write of TSK_DIAG records the runtime diagnostic in TSK_DIAGLAST and sets DIAG. -/
def execTskDiagWrite (m : Master) (v : W32) (s : State) : Result :=
  onChip s fun c => regWrite c m.val TSK_DIAG v

/-- SWAP_GO (R291): TSK_SWAP_CTL.GO requests a whole-image swap, or is refused with RESULT 1 outside STARTUP, TEST and
RECOVERY. -/
def execSwapGo (s : State) : Result :=
  onChip s fun c => regWrite c 0 TSK_SWAP_CTL 1

/-- SWAP_QUIET_POINT (R292): At a quiet point the unit holds releases, carries variable values over, rebinds forces
and commits or falls back. -/
def execSwapQuietPoint (s : State) : Result :=
  onChip s fun c => swapQuietPoint c

end Sys2Proof.Machine
end

