-- ==== Sys2Proof/Machine/ExecTime.lean ====
section
/-!
 DEFINITION. The meanings of the commands of one family: line time, domains, stamps and timed outputs (R44 to R69).
-/
namespace Sys2Proof.Machine

/-- TMU_TICK (R44): In each 1 ns tick TMU advances each domain that is not IDLE, pays out its adjustment, walks its
rate, and updates H and line time. -/
def execTmuTick (s : State) : Result :=
  onChip s fun c => tmuTick c

/-- DOMAIN_RATE_WRITE (R45): A commit of TMU_Dx_RATE stores the target rate, clamped to ±1,000 ppm with RATE_LIMIT
set, or is refused in IDLE and FAILED. -/
def execDomainRateWrite (m : Master) (x : Fin 2) (v : W32) (s : State) : Result :=
  onChip s fun c => regWrite c m.val (TMU_Dx_RATE_LO x.val) v

/-- DOMAIN_ADJ_WRITE (R45): A commit of TMU_Dx_ADJ adds the adjustment to P_x, saturating with ADJ_SAT, or is refused
in IDLE and FAILED. -/
def execDomainAdjWrite (m : Master) (x : Fin 2) (v : W32) (s : State) : Result :=
  onChip s fun c => regWrite c m.val (TMU_Dx_ADJ_LO x.val) v

/-- DOMAIN_STEP_WRITE (R46): A commit of TMU_Dx_STEP is accepted once per acquisition in ACQUIRE, and is otherwise
refused with STEP_REFUSED. -/
def execDomainStepWrite (m : Master) (x : Fin 2) (v : W32) (s : State) : Result :=
  onChip s fun c => regWrite c m.val (TMU_Dx_STEP_LO x.val) v

/-- DOMAIN_ENABLE (R47): CMD ENABLE takes an IDLE or FAILED domain to ACQUIRE, seeds D_x from line time and clears H
if the domain is active. -/
def execDomainEnable (m : Master) (x : Fin 2) (v : W32) (s : State) : Result :=
  onChip s fun c => regWrite c m.val (TMU_Dx_CMD x.val) (v ||| 0x1)

/-- DOMAIN_LOCK (R47): CMD LOCK takes an ACQUIRE domain to LOCKED and starts the sync timer. -/
def execDomainLock (m : Master) (x : Fin 2) (v : W32) (s : State) : Result :=
  onChip s fun c => regWrite c m.val (TMU_Dx_CMD x.val) (v ||| 0x2)

/-- DOMAIN_SYNC (R47): CMD SYNC restarts the sync timer and returns a HOLDOVER domain to LOCKED. -/
def execDomainSync (m : Master) (x : Fin 2) (v : W32) (s : State) : Result :=
  onChip s fun c => regWrite c m.val (TMU_Dx_CMD x.val) (v ||| 0x4)

/-- DOMAIN_FAIL (R47): CMD FAIL takes a domain in ACQUIRE, LOCKED or HOLDOVER to FAILED. -/
def execDomainFail (m : Master) (x : Fin 2) (v : W32) (s : State) : Result :=
  onChip s fun c => regWrite c m.val (TMU_Dx_CMD x.val) (v ||| 0x8)

/-- DOMAIN_DISABLE (R47): CMD DISABLE takes a domain that is not selected to IDLE, and is refused for the selected
domain. -/
def execDomainDisable (m : Master) (x : Fin 2) (v : W32) (s : State) : Result :=
  onChip s fun c => regWrite c m.val (TMU_Dx_CMD x.val) (v ||| 0x10)

/-- SYNC_TIMEOUT (R47): When a LOCKED domain's sync timer reaches SYNCTO, the domain enters HOLDOVER and HOLDTIME
starts counting. -/
def execSyncTimeout (x : Fin 2) (s : State) : Result :=
  onChip s fun c => syncTimeout c (domAt x)

/-- HOLDOVER_FAIL_LIMIT (R47): When HOLDTIME exceeds FAILLIM, the domain goes from HOLDOVER to FAILED. -/
def execHoldoverFailLimit (x : Fin 2) (s : State) : Result :=
  onChip s fun c => holdoverFail c (domAt x)

/-- DOMAIN_SELECT_WRITE (R55): A write of TMU_DOMSEL.SEL naming the other domain switches to it if it is LOCKED, and
otherwise sets SEL_REFUSED. -/
def execDomainSelectWrite (m : Master) (v : W32) (s : State) : Result :=
  onChip s fun c => regWrite c m.val TMU_DOMSEL v

/-- AUTO_DOMAIN_SWITCH (R55): With AUTO = 1, TMU switches to the other LOCKED domain when the active domain has been
in HOLDOVER beyond HOLDLIM or has FAILED. -/
def execAutoDomainSwitch (s : State) : Result :=
  onChip s fun c => autoSwitch c

/-- EGRESS_STAMP_POP (R61): A write of TMU_Pn_EQPOP removes the head entry of the egress stamp queue, or has no effect
on an empty queue. -/
def execEgressStampPop (m : Master) (p : Fin 8) (v : W32) (s : State) : Result :=
  onChip s fun c => regWrite c m.val (TMU_Pn_EQPOP p.val) v

/-- STAMP_INPUT_EDGE (R64): A stamp channel stamps a selected, filtered edge on its GPIO, or sets OVR if the edge
follows the last one by less than 16 ns. -/
def execStampInputEdge (g : Fin 128) (rising : Bool) (quarter : Fin 4) (stable : Nat) (s : State) : Result :=
  onChip s fun c => stampEdge c g.val rising quarter.val stable

/-- STAMP_RING_ENTRY (R66): 80 ns after its instant, a stamp enters the stamp ring in instant and channel order, or is
dropped with LOST when the ring is full. -/
def execStampRingEntry (s : State) : Result :=
  onChip s fun c => ringEntry c

/-- STAMP_RING_POP (R67): A write of TMU_TSR_POP removes the head entry of the stamp ring. -/
def execStampRingPop (m : Master) (v : W32) (s : State) : Result :=
  onChip s fun c => regWrite c m.val TMU_TSR_POP v

/-- TIMED_OUTPUT_ARM (R69): ARM schedules the channel's edges from the committed TIME, WIDTH and PERIOD, shifting a
late first edge with LATE set, or is refused for invalid values. -/
def execTimedOutputArm (m : Master) (n : Fin 32) (v : W32) (s : State) : Result :=
  onChip s fun c => regWrite c m.val (TMU_TOn_CTL n.val) (v ||| 0x1)

/-- TIMED_OUTPUT_CANCEL (R69): CANCEL disarms the channel after a pulse in progress finishes at its idle edge. -/
def execTimedOutputCancel (m : Master) (n : Fin 32) (v : W32) (s : State) : Result :=
  onChip s fun c => regWrite c m.val (TMU_TOn_CTL n.val) (v ||| 0x4)

/-- TIMED_OUTPUT_EDGE (R68): At a scheduled line time, an armed TO channel places an edge on its GPIO. -/
def execTimedOutputEdge (n : Fin 32) (s : State) : Result :=
  onChip s fun c => toEdge c n.val

end Sys2Proof.Machine
end

