-- ==== Sys2Proof/Machine/XdmRun.lean ====
section
/-!
DEFINITION. Data movers at work: reading a descriptor (R377, R379, R381) and moving a unit (R378, R382, R407).
-/
namespace Sys2Proof.Machine

/-! ### Descriptors -/

/-- A descriptor's words (R377). -/
def XdDesc.of (bs : List Byte) : XdDesc :=
  let w (k : Nat) : W32 := w32 (leNat (bytesAt bs (4 * k) 4))
  { irq := wbit (w 0) 31, chain := wbit (w 0) 30, trig := wbit (w 0) 29, cven := wbit (w 0) 28
    cv := wfld (w 0) 27 24, smode := wfld (w 0) 21 20, dmode := wfld (w 0) 17 16, pf := wfld (w 0) 12 8
    len := wfld (w 1) 23 0, src := (w 2).toNat, dst := (w 3).toNat
    next := wfld (w 4) 31 5 * 32, tags := wfld (w 5) 31 2 * 4 }

/-- Whether a channel ends a descriptor with BADDESC (R379). -/
def Chip.badDesc (c : Chip) (n : Nat) (d : XdDesc) : Bool :=
  d.len == 0 || d.smode == 3 || decide (2 ≤ d.dmode) ||
  (d.dmode == 0 && d.dst % 64 != 0) ||
  ((d.smode == 1 || d.dmode == 1) && d.len % 4 != 0) ||
  (d.smode == 1 && d.src % 4 != 0) || (d.dmode == 1 && d.dst % 4 != 0) ||
  (d.smode == 2 && (d.len % 8 != 0 || c.fld (PFn_CFG d.pf) 5 4 != 1 || c.fld (PFn_CFG d.pf) 13 8 != n))

/-- The descriptor that a channel has read starts, or waits for its trigger (R379, R381). -/
def Chip.xdBegin (c : Chip) (n : Nat) (d : XdDesc) : Chip :=
  let x := { c.xd n with desc := d, moved := 0, popped := [], phase := .move }
  let c1 := (c.setXd n x).setBit (XDn_STAT n) 9 false
  if c.badDesc n d then c1.xdEnd n 4
  else if d.trig = false then c1
  else if x.pend then c1.setXd n { x with pend := false }
  else c1.setXd n { x with st := .armed, armedAt := c.lt, armedLimit := (c.reg (XDn_TMO n)).toNat }

/-- A channel reads and checks its next descriptor, or in ARMED starts it once PEND is set (R379 to R382). -/
def descriptorStart (c : Chip) (n : Nat) : Chip :=
  let x := c.xd n
  let m := c.xdMaster n
  match x.st, x.phase with
  | .armed, _ => if x.pend then c.setXd n { x with st := .active, phase := .move, pend := false } else c
  | .active, .fetch =>
    if x.stopReq then c.xdEnd n 7
    else if c.segAllows m (c.xdCur n) 32 1 then
      match busRead c m (c.xdCur n) 32 with
      | (.ok bs, c1) => c1.xdBegin n (.of bs)
      | (.error .wait, c1) => c1
      | (.error e, c1) => c1.xdEnd n (e.xdResult 1)
    else (c.setXdSt n .frozen).freezeAt (0x80 + n) m (c.xdCur n) 32 1
  | _, _ => c

/-! ### Units -/

/-- The bytes of the unit that a channel moves next (R378). -/
def XdChan.unitLen (x : XdChan) : Nat := if x.desc.dmode = 1 then 4 else min 64 (x.desc.len - x.moved)

/-- Where a unit is written. -/
def XdChan.unitDst (x : XdChan) : Nat := if x.desc.dmode = 1 then x.desc.dst else x.desc.dst + x.moved

/-- The pack FIFO words that a unit needs: a 4-byte unit of a word's second half needs none more (R378). -/
def XdChan.wordsDue (x : XdChan) : Nat := (x.moved % 8 + x.unitLen + 7) / 8

/-- A read of memory in parts that stay within a bank. -/
def Chip.readParts (c : Chip) (m a n : Nat) : Except AccErr (List Byte) × Chip :=
  let k := 64 - a % 64
  if regionOf a = .outbound ∨ regionOf a = .periph ∨ n ≤ k then busRead c m a n
  else
    match busRead c m a k with
    | (.error e, c1) => (.error e, c1)
    | (.ok xs, c1) =>
      match busRead c1 m (a + k) (n - k) with
      | (.error e, c2) => (.error e, c2)
      | (.ok ys, c2) => (.ok (xs ++ ys), c2)

/-- `k` reads of one register, one after another. -/
def Chip.readTimes (c : Chip) (m a : Nat) : Nat → List Byte → Except AccErr (List Byte) × Chip
  | 0, acc => (.ok acc, c)
  | k + 1, acc =>
    match busRead c m a 4 with
    | (.error e, c1) => (.error e, c1)
    | (.ok bs, c1) => c1.readTimes m a k (acc ++ bs)

/-- Words popped from a channel's pack FIFO under its credits, as far as the unit needs them (R351). -/
def Chip.popWords (c : Chip) (n : Nat) : Nat → Chip
  | 0 => c
  | k + 1 =>
    let x := c.xd n
    if x.wordsDue ≤ x.popped.length then c
    else
      match c.pfCreditRead x.desc.pf with
      | (none, _) => c
      | (some w, c1) => (c1.setXd n { x with popped := x.popped ++ [(w.data, w.tag)] }).popWords n k

/-- A frozen unit: nothing of it is written (R374). -/
def Chip.xdFreeze (c : Chip) (n a len rwx : Nat) : Chip :=
  (c.setXdSt n .frozen).freezeAt (0x80 + n) (c.xdMaster n) a len rwx

/-- The tags of a unit's words are written after its data (R378). -/
def Chip.writeTags (c : Chip) (m a : Nat) : List Nat → Option AccErr × Chip
  | [] => (none, c)
  | t :: ts =>
    match busWrite c m a (leBytes 4 t) with
    | (some e, c1) => (some e, c1)
    | (none, c1) => c1.writeTags m (a + 4) ts

/-- A unit's data has been read: checked, written, fed, tagged (R378, R407). `tags` are the words whose tags go
with it, from the word of index `first` on. -/
def Chip.xdCommit (c : Chip) (n : Nat) (bs : List Byte) (first : Nat) (tags : List Nat) (rest : List (Nat × Nat)) :
    Chip :=
  let x := c.xd n
  let m := c.xdMaster n
  let ta := x.desc.tags + 4 * first
  if !c.segAllows m x.unitDst bs.length 2 then c.xdFreeze n x.unitDst bs.length 2
  else if !tags.isEmpty && !c.segAllows m ta (4 * tags.length) 2 then c.xdFreeze n ta (4 * tags.length) 2
  else
    match busWrite c m x.unitDst bs with
    | (some e, c1) => c1.xdEnd n (e.xdResult 8)
    | (none, c1) =>
      let c2 := if x.desc.cven then c1.cvUnit x.desc.cv m bs else c1
      let c3 := c2.setXd n { c2.xd n with moved := x.moved + bs.length, popped := rest }
      match c3.writeTags m ta tags with
      | (some e, c4) => c4.xdEnd n (e.xdResult 8)
      | (none, c4) => if x.desc.len ≤ x.moved + bs.length then c4.xdEnd n 0 else c4

/-- One unit of a channel (R378). -/
def Chip.xdUnit (c : Chip) (n : Nat) : Chip :=
  let x := c.xd n
  let m := c.xdMaster n
  let d := x.desc
  let len := x.unitLen
  if x.stopReq then c.xdEnd n 7
  else if d.smode = 2 then
    let c1 := c.popWords n 8
    let y := c1.xd n
    if y.popped.length < x.wordsDue then c1
    else
      let bytes := y.popped.flatMap fun w => leBytes 8 w.1
      let lead := x.moved % 8
      let used := (lead + len) / 8
      let fresh := if lead = 0 then y.popped.take x.wordsDue else (y.popped.take x.wordsDue).drop 1
      c1.xdCommit n (bytesAt bytes lead len) ((x.moved + 7) / 8) (fresh.map fun w => w.2) (y.popped.drop used)
  else
    let a := if d.smode = 1 then d.src else d.src + x.moved
    let size := if d.smode = 1 then 4 else len
    if !c.segAllows m a size 1 then c.xdFreeze n a size 1
    else
      match if d.smode = 1 then c.readTimes m a (len / 4) [] else c.readParts m a len with
      | (.error .wait, c1) => c1
      | (.error e, c1) => c1.xdEnd n (e.xdResult 1)
      | (.ok bs, c1) => c1.xdCommit n bs 0 [] []

/-- Whether a channel can use its turn: one that waits for read credits is passed over. -/
def Chip.xdReady (c : Chip) (n : Nat) : Bool :=
  let x := c.xd n
  x.st == .active && x.phase == .move &&
    (x.stopReq || x.desc.smode != 2 || decide (x.wordsDue ≤ x.popped.length) ||
      (decide ((c.pf x.desc.pf).credits ≠ 0) && !(c.pf x.desc.pf).words.isEmpty))

/-- The next active channel in turn moves one unit (R382). -/
def xdmUnit (c : Chip) : Chip :=
  match (List.range 64).find? fun k => c.xdReady ((c.xdm.lastServed + 1 + k) % 64) with
  | none => c
  | some k =>
    let n := (c.xdm.lastServed + 1 + k) % 64
    { c with xdm := { c.xdm with lastServed := n } }.xdUnit n

end Sys2Proof.Machine
end

