-- ==== Sys2Proof/Machine/ExecXdm.lean ====
section
/-!
 DEFINITION. The meanings of the commands of one family: freezes and data movers (R374 to R382).
-/
namespace Sys2Proof.Machine

/-- FREEZE_RESUME (R376): XDM_FRZ_RESOLVE with ACTION resume lets the oldest frozen unit make its access again. -/
def execFreezeResume (m : Master) (unit : Fin 256) (s : State) : Result :=
  onChip s fun c => regWrite c m.val XDM_FRZ_RESOLVE (w32 (0x40000000 + unit.val))

/-- FREEZE_REDIRECT (R376): XDM_FRZ_RESOLVE with ACTION redirect applies the unit's redirect resolution. -/
def execFreezeRedirect (m : Master) (unit : Fin 256) (s : State) : Result :=
  onChip s fun c => regWrite c m.val XDM_FRZ_RESOLVE (w32 (0x80000000 + unit.val))

/-- FREEZE_RESET (R376): XDM_FRZ_RESOLVE with ACTION reset resets the frozen unit. -/
def execFreezeReset (m : Master) (unit : Fin 256) (s : State) : Result :=
  onChip s fun c => regWrite c m.val XDM_FRZ_RESOLVE (w32 (0xC0000000 + unit.val))

/-- XDM_GO (R382): XDn_CTL.GO starts the channel at XDn_DESC from IDLE or ERROR, or is refused. -/
def execXdmGo (m : Master) (n : Fin 64) (v : W32) (s : State) : Result :=
  onChip s fun c => regWrite c m.val (XDn_CTL n.val) (v ||| 0x80000000)

/-- XDM_STOP (R382): XDn_CTL.STOP ends the current descriptor with ABORTED. -/
def execXdmStop (m : Master) (n : Fin 64) (v : W32) (s : State) : Result :=
  onChip s fun c => regWrite c m.val (XDn_CTL n.val) (v ||| 0x40000000)

/-- XDM_TRIG_WRITE (R381): XDn_CTL.TRIG sets PEND, or TRIGOVF if already pending. -/
def execXdmTrigWrite (m : Master) (n : Fin 64) (v : W32) (s : State) : Result :=
  onChip s fun c => regWrite c m.val (XDn_CTL n.val) (v ||| 0x20000000)

/-- XDM_TRIGT_COMMIT (R381): A commit of XDn_TRIGT arms the time trigger. -/
def execXdmTrigtCommit (m : Master) (n : Fin 64) (v : W32) (s : State) : Result :=
  onChip s fun c => regWrite c m.val (XDn_TRIGT_LO n.val) v

/-- XDM_TIME_TRIGGER (R381): Line time reaching TRIGT raises a trigger and re-arms it by TRIGPER. -/
def execXdmTimeTrigger (n : Fin 64) (s : State) : Result :=
  onChip s fun c => timeTrigger c n.val

/-- XDM_DESCRIPTOR_START (R379): The channel reads and checks a descriptor, ending it with BADDESC or waiting in ARMED
for a trigger. -/
def execXdmDescriptorStart (n : Fin 64) (s : State) : Result :=
  onChip s fun c => descriptorStart c n.val

/-- XDM_ARMED_TIMEOUT (R381): TMO µs in ARMED ends the descriptor with TIMEOUT. -/
def execXdmArmedTimeout (n : Fin 64) (s : State) : Result :=
  onChip s fun c => armedTimeout c n.val

/-- XDM_UNIT (R378): In its turn the channel reads, checks and writes one unit, feeding CVU and writing tags. -/
def execXdmUnit (s : State) : Result :=
  onChip s fun c => xdmUnit c

end Sys2Proof.Machine
end

