-- ==== Sys2Proof/Machine/Dispatch.lean ====
section
/-!
DEFINITION. One arm for each command: a direct call of its meaning.
-/
namespace Sys2Proof.Machine

/-- The effect of a command on everything but the queue. -/
def exec (i : Instr) (s : State) : Host.Outcome State Fault Refusal :=
  match i with
  | .registerWrite m a n v => Sys2Proof.Machine.execRegisterWrite m a n v s
  | .splitRegisterLatch m a n => Sys2Proof.Machine.execSplitRegisterLatch m a n s
  | .domainRateWrite m x v => Sys2Proof.Machine.execDomainRateWrite m x v s
  | .domainAdjWrite m x v => Sys2Proof.Machine.execDomainAdjWrite m x v s
  | .domainStepWrite m x v => Sys2Proof.Machine.execDomainStepWrite m x v s
  | .domainEnable m x v => Sys2Proof.Machine.execDomainEnable m x v s
  | .domainLock m x v => Sys2Proof.Machine.execDomainLock m x v s
  | .domainSync m x v => Sys2Proof.Machine.execDomainSync m x v s
  | .domainFail m x v => Sys2Proof.Machine.execDomainFail m x v s
  | .domainDisable m x v => Sys2Proof.Machine.execDomainDisable m x v s
  | .syncTimeout x => Sys2Proof.Machine.execSyncTimeout x s
  | .holdoverFailLimit x => Sys2Proof.Machine.execHoldoverFailLimit x s
  | .domainSelectWrite m v => Sys2Proof.Machine.execDomainSelectWrite m v s
  | .egressStampPop m p v => Sys2Proof.Machine.execEgressStampPop m p v s
  | .stampInputEdge g rising quarter stable => Sys2Proof.Machine.execStampInputEdge g rising quarter stable s
  | .stampRingPop m v => Sys2Proof.Machine.execStampRingPop m v s
  | .timedOutputArm m n v => Sys2Proof.Machine.execTimedOutputArm m n v s
  | .timedOutputCancel m n v => Sys2Proof.Machine.execTimedOutputCancel m n v s
  | .timedOutputEdge n => Sys2Proof.Machine.execTimedOutputEdge n s
  | .sampleSubmit m n v => Sys2Proof.Machine.execSampleSubmit m n v s
  | .shaftFollow m n v => Sys2Proof.Machine.execShaftFollow m n v s
  | .shaftMaster m n v => Sys2Proof.Machine.execShaftMaster m n v s
  | .shaftIdle m n v => Sys2Proof.Machine.execShaftIdle m n v s
  | .reftoExpiry n => Sys2Proof.Machine.execReftoExpiry n s
  | .coastlimExpiry n => Sys2Proof.Machine.execCoastlimExpiry n s
  | .masterSampleGeneration n => Sys2Proof.Machine.execMasterSampleGeneration n s
  | .sampleOutRead m n => Sys2Proof.Machine.execSampleOutRead m n s
  | .stampToAngleStart m k v => Sys2Proof.Machine.execStampToAngleStart m k v s
  | .stampToAngleDone k => Sys2Proof.Machine.execStampToAngleDone k s
  | .angleEventWrite m n r v => Sys2Proof.Machine.execAngleEventWrite m n r v s
  | .ulpEchoRequest stream seq req stamp => Sys2Proof.Machine.execUlpEchoRequest stream seq req stamp s
  | .portModeWrite m p v => Sys2Proof.Machine.execPortModeWrite m p v s
  | .autonegComplete p r => Sys2Proof.Machine.execAutonegComplete p r s
  | .linkUp p link => Sys2Proof.Machine.execLinkUp p link s
  | .linkDown p => Sys2Proof.Machine.execLinkDown p s
  | .jabber p active => Sys2Proof.Machine.execJabber p active s
  | .frameReceive p f => Sys2Proof.Machine.execFrameReceive p f s
  | .frameTransmitStart p start => Sys2Proof.Machine.execFrameTransmitStart p start s
  | .frameTransmitEnd p underrun phase => Sys2Proof.Machine.execFrameTransmitEnd p underrun phase s
  | .collision p bits => Sys2Proof.Machine.execCollision p bits s
  | .backoffExpiry x => Sys2Proof.Machine.execBackoffExpiry x s
  | .plcaActiveChange p active curid n => Sys2Proof.Machine.execPlcaActiveChange p active curid n s
  | .preemptVerifyTimer p response => Sys2Proof.Machine.execPreemptVerifyTimer p response s
  | .lpiEntry p => Sys2Proof.Machine.execLpiEntry p s
  | .earlyWake p => Sys2Proof.Machine.execEarlyWake p s
  | .wakeComplete p => Sys2Proof.Machine.execWakeComplete p s
  | .rxLpiSignal p enter => Sys2Proof.Machine.execRxLpiSignal p enter s
  | .counterSnapshot m p v => Sys2Proof.Machine.execCounterSnapshot m p v s
  | .counterClear m p v => Sys2Proof.Machine.execCounterClear m p v s
  | .ldfRuleCommit m k v => Sys2Proof.Machine.execLdfRuleCommit m k v s
  | .cableTestStart m p v => Sys2Proof.Machine.execCableTestStart m p v s
  | .cableTestDone p rs => Sys2Proof.Machine.execCableTestDone p rs s
  | .hostPortPeckGrant sp => Sys2Proof.Machine.execHostPortPeckGrant sp s
  | .gateListChange m p v => Sys2Proof.Machine.execGateListChange m p v s
  | .gateListChangeTime p => Sys2Proof.Machine.execGateListChangeTime p s
  | .gateEntryStart p => Sys2Proof.Machine.execGateEntryStart p s
  | .streamGateEntry idx => Sys2Proof.Machine.execStreamGateEntry idx s
  | .recoveryResetTimeout idx => Sys2Proof.Machine.execRecoveryResetTimeout idx s
  | .slotWindowOpen k => Sys2Proof.Machine.execSlotWindowOpen k s
  | .queueFlush m v => Sys2Proof.Machine.execQueueFlush m v s
  | .tableRead m t idx => Sys2Proof.Machine.execTableRead m t idx s
  | .tableWrite m t idx => Sys2Proof.Machine.execTableWrite m t idx s
  | .tableSearch m t idx => Sys2Proof.Machine.execTableSearch m t idx s
  | .tableClear m t idx => Sys2Proof.Machine.execTableClear m t idx s
  | .canEnable m n v => Sys2Proof.Machine.execCanEnable m n v s
  | .canDisable m n v => Sys2Proof.Machine.execCanDisable m n v s
  | .canRequest m n k => Sys2Proof.Machine.execCanRequest m n k s
  | .canCancel m n k => Sys2Proof.Machine.execCanCancel m n k s
  | .canClearnew m n k => Sys2Proof.Machine.execCanClearnew m n k s
  | .canFrameCommit n => Sys2Proof.Machine.execCanFrameCommit n s
  | .canArbitrationLoss n => Sys2Proof.Machine.execCanArbitrationLoss n s
  | .canTxComplete n => Sys2Proof.Machine.execCanTxComplete n s
  | .canBusError n e => Sys2Proof.Machine.execCanBusError n e s
  | .canXlPayloadRead n unit => Sys2Proof.Machine.execCanXlPayloadRead n unit s
  | .canRxFrame n f x => Sys2Proof.Machine.execCanRxFrame n f x s
  | .canRingPop m n v => Sys2Proof.Machine.execCanRingPop m n v s
  | .canRecover m n v => Sys2Proof.Machine.execCanRecover m n v s
  | .canBusoffRecovered x => Sys2Proof.Machine.execCanBusoffRecovered x s
  | .canReferenceTrigger n late => Sys2Proof.Machine.execCanReferenceTrigger n late s
  | .canExclusiveTrigger n j idle => Sys2Proof.Machine.execCanExclusiveTrigger n j idle s
  | .canArbitratingTrigger n j => Sys2Proof.Machine.execCanArbitratingTrigger n j s
  | .canReceiveCheckTrigger n j => Sys2Proof.Machine.execCanReceiveCheckTrigger n j s
  | .canReceiveWindowEnd n => Sys2Proof.Machine.execCanReceiveWindowEnd n s
  | .canWatchTrigger n j => Sys2Proof.Machine.execCanWatchTrigger n j s
  | .canReferenceReceived n f age => Sys2Proof.Machine.execCanReferenceReceived n f age s
  | .canModeValidate m n k v => Sys2Proof.Machine.execCanModeValidate m n k v s
  | .canTtresume m n v => Sys2Proof.Machine.execCanTtresume m n v s
  | .canModeRequest m n v => Sys2Proof.Machine.execCanModeRequest m n v s
  | .canMatrixCycleStart n => Sys2Proof.Machine.execCanMatrixCycleStart n s
  | .canVetoReceived n f age => Sys2Proof.Machine.execCanVetoReceived n f age s
  | .guardianWindow x => Sys2Proof.Machine.execGuardianWindow x s
  | .bundleExecute core flight mismatch => Sys2Proof.Machine.execBundleExecute core flight mismatch s
  | .waitWake core x => Sys2Proof.Machine.execWaitWake core x s
  | .waitTimeout core x => Sys2Proof.Machine.execWaitTimeout core x s
  | .rqConsWrite m q v => Sys2Proof.Machine.execRqConsWrite m q v s
  | .tqPushWrite m t v => Sys2Proof.Machine.execTqPushWrite m t v s
  | .tqDescriptorServe sp => Sys2Proof.Machine.execTqDescriptorServe sp s
  | .peCycleTimer n => Sys2Proof.Machine.execPeCycleTimer n s
  | .engineStart m n v => Sys2Proof.Machine.execEngineStart m n v s
  | .engineStop m n v => Sys2Proof.Machine.execEngineStop m n v s
  | .engineClear m n v => Sys2Proof.Machine.execEngineClear m n v s
  | .engineClearDone n => Sys2Proof.Machine.execEngineClearDone n s
  | .engineWatchdogExpiry n => Sys2Proof.Machine.execEngineWatchdogExpiry n s
  | .frameEnable m n v => Sys2Proof.Machine.execFrameEnable m n v s
  | .frameCycleBoundary n => Sys2Proof.Machine.execFrameCycleBoundary n s
  | .taskReleaseWrite m v => Sys2Proof.Machine.execTaskReleaseWrite m v s
  | .frameEvaluation n => Sys2Proof.Machine.execFrameEvaluation n s
  | .evaluationEnd n => Sys2Proof.Machine.execEvaluationEnd n s
  | .noExchangeCheck n => Sys2Proof.Machine.execNoExchangeCheck n s
  | .outputHandover n => Sys2Proof.Machine.execOutputHandover n s
  | .stationReport m v => Sys2Proof.Machine.execStationReport m v s
  | .forceEntrySet m f v => Sys2Proof.Machine.execForceEntrySet m f v s
  | .forceEntryClear m f v => Sys2Proof.Machine.execForceEntryClear m f v s
  | .vcApply m v => Sys2Proof.Machine.execVcApply m v s
  | .tskDiagWrite m v => Sys2Proof.Machine.execTskDiagWrite m v s
  | .axisEnable m n v => Sys2Proof.Machine.execAxisEnable m n v s
  | .axisDisable m n v => Sys2Proof.Machine.execAxisDisable m n v s
  | .axisMoveCmd m n v => Sys2Proof.Machine.execAxisMoveCmd m n v s
  | .axisVelCmd m n v => Sys2Proof.Machine.execAxisVelCmd m n v s
  | .axisGearCmd m n v => Sys2Proof.Machine.execAxisGearCmd m n v s
  | .axisCamCmd m n v => Sys2Proof.Machine.execAxisCamCmd m n v s
  | .axisCamarmCmd m n v => Sys2Proof.Machine.execAxisCamarmCmd m n v s
  | .axisStopCmd m n v => Sys2Proof.Machine.execAxisStopCmd m n v s
  | .axisClearCmd m n v => Sys2Proof.Machine.execAxisClearCmd m n v s
  | .setposCommit m n v => Sys2Proof.Machine.execSetposCommit m n v s
  | .phaseCommit m n v => Sys2Proof.Machine.execPhaseCommit m n v s
  | .stepPulse g => Sys2Proof.Machine.execStepPulse g s
  | .quadratureTransition q a b stable => Sys2Proof.Machine.execQuadratureTransition q a b stable s
  | .quadratureIndex q z stable => Sys2Proof.Machine.execQuadratureIndex q z stable s
  | .actinWrite m n v => Sys2Proof.Machine.execActinWrite m n v s
  | .feedbackStale n => Sys2Proof.Machine.execFeedbackStale n s
  | .deviationFault n => Sys2Proof.Machine.execDeviationFault n s
  | .skJmp n levels => Sys2Proof.Machine.execSkJmp n levels s
  | .skWait n levels => Sys2Proof.Machine.execSkWait n levels s
  | .skWaitEnd n levels => Sys2Proof.Machine.execSkWaitEnd n levels s
  | .skWaitTimeout n levels => Sys2Proof.Machine.execSkWaitTimeout n levels s
  | .skIn n levels => Sys2Proof.Machine.execSkIn n levels s
  | .skOut n => Sys2Proof.Machine.execSkOut n s
  | .skPush n => Sys2Proof.Machine.execSkPush n s
  | .skPull n => Sys2Proof.Machine.execSkPull n s
  | .skMov n levels => Sys2Proof.Machine.execSkMov n levels s
  | .skSet n => Sys2Proof.Machine.execSkSet n s
  | .skIrq n => Sys2Proof.Machine.execSkIrq n s
  | .skStamp n => Sys2Proof.Machine.execSkStamp n s
  | .skStallRelease n => Sys2Proof.Machine.execSkStallRelease n s
  | .skipperEnable m n v => Sys2Proof.Machine.execSkipperEnable m n v s
  | .skipperDisable m n v => Sys2Proof.Machine.execSkipperDisable m n v s
  | .skipperRestart m n v => Sys2Proof.Machine.execSkipperRestart m n v s
  | .feedWrite m n v => Sys2Proof.Machine.execFeedWrite m n v s
  | .irqsetWrite m n v => Sys2Proof.Machine.execIrqsetWrite m n v s
  | .lanesWrite m n second v => Sys2Proof.Machine.execLanesWrite m n second v s
  | .instructionWordWrite m cl idx v => Sys2Proof.Machine.execInstructionWordWrite m cl idx v s
  | .packFifoRead m n => Sys2Proof.Machine.execPackFifoRead m n s
  | .packFifoReset m n v => Sys2Proof.Machine.execPackFifoReset m n v s
  | .packCreditGrant n => Sys2Proof.Machine.execPackCreditGrant n s
  | .bankOwnerWrite m b v => Sys2Proof.Machine.execBankOwnerWrite m b v s
  | .bankOwnerTakeEffect b => Sys2Proof.Machine.execBankOwnerTakeEffect b s
  | .atomicFaddRead m => Sys2Proof.Machine.execAtomicFaddRead m s
  | .atomicSwapRead m => Sys2Proof.Machine.execAtomicSwapRead m s
  | .lockRead m n => Sys2Proof.Machine.execLockRead m n s
  | .lockWrite m n v => Sys2Proof.Machine.execLockWrite m n v s
  | .marchStart m v => Sys2Proof.Machine.execMarchStart m v s
  | .marchDone xs => Sys2Proof.Machine.execMarchDone xs s
  | .freezeResume m unit => Sys2Proof.Machine.execFreezeResume m unit s
  | .freezeRedirect m unit => Sys2Proof.Machine.execFreezeRedirect m unit s
  | .freezeReset m unit => Sys2Proof.Machine.execFreezeReset m unit s
  | .xdmGo m n v => Sys2Proof.Machine.execXdmGo m n v s
  | .xdmStop m n v => Sys2Proof.Machine.execXdmStop m n v s
  | .xdmTrigWrite m n v => Sys2Proof.Machine.execXdmTrigWrite m n v s
  | .xdmTrigtCommit m n v => Sys2Proof.Machine.execXdmTrigtCommit m n v s
  | .xdmTimeTrigger n => Sys2Proof.Machine.execXdmTimeTrigger n s
  | .xdmDescriptorStart n => Sys2Proof.Machine.execXdmDescriptorStart n s
  | .xdmArmedTimeout n => Sys2Proof.Machine.execXdmArmedTimeout n s
  | .mailboxConfigWrite m n v => Sys2Proof.Machine.execMailboxConfigWrite m n v s
  | .mailboxDataWrite m n idx v => Sys2Proof.Machine.execMailboxDataWrite m n idx v s
  | .mailboxGo m n v => Sys2Proof.Machine.execMailboxGo m n v s
  | .mailboxAcknowledge m n => Sys2Proof.Machine.execMailboxAcknowledge m n s
  | .mailboxTimeout n => Sys2Proof.Machine.execMailboxTimeout n s
  | .crossWaitDetect n => Sys2Proof.Machine.execCrossWaitDetect n s
  | .mailboxReset m n v => Sys2Proof.Machine.execMailboxReset m n v s
  | .eventQueuePop m k v => Sys2Proof.Machine.execEventQueuePop m k v s
  | .evtRaiseWrite m v => Sys2Proof.Machine.execEvtRaiseWrite m v s
  | .routeWrite m n v => Sys2Proof.Machine.execRouteWrite m n v s
  | .cvLoad m n preset => Sys2Proof.Machine.execCvLoad m n preset s
  | .cvStart m n => Sys2Proof.Machine.execCvStart m n s
  | .cvFinish m n => Sys2Proof.Machine.execCvFinish m n s
  | .cvData4Write m n v => Sys2Proof.Machine.execCvData4Write m n v s
  | .cvData1Write m n v => Sys2Proof.Machine.execCvData1Write m n v s
  | .bar0Access write ofs n v => Sys2Proof.Machine.execBar0Access write ofs n v s
  | .bar2Access write ofs n data => Sys2Proof.Machine.execBar2Access write ofs n data s
  | .pcieLinkChange up width speed => Sys2Proof.Machine.execPcieLinkChange up width speed s
  | .outboundAccess m write ofs n data => Sys2Proof.Machine.execOutboundAccess m write ofs n data s
  | .outboundReadCompletion m ok data => Sys2Proof.Machine.execOutboundReadCompletion m ok data s
  | .outboundReadTimeout m => Sys2Proof.Machine.execOutboundReadTimeout m s
  | .xspiRead a n => Sys2Proof.Machine.execXspiRead a n s
  | .xspiWrite a vs => Sys2Proof.Machine.execXspiWrite a vs s
  | .parallelBusRead ad => Sys2Proof.Machine.execParallelBusRead ad s
  | .parallelBusWrite ad v => Sys2Proof.Machine.execParallelBusWrite ad v s
  | .commandDoorbell m v => Sys2Proof.Machine.execCommandDoorbell m v s
  | .replyDoorbell m v => Sys2Proof.Machine.execReplyDoorbell m v s
  | .asyncCommandComplete received errors => Sys2Proof.Machine.execAsyncCommandComplete received errors s
  | .setState burnt => Sys2Proof.Machine.execSetState burnt s
  | .loadCommit burnt => Sys2Proof.Machine.execLoadCommit burnt s
  | .recordWrite verified => Sys2Proof.Machine.execRecordWrite verified s
  | .sessionProofTimeout slot => Sys2Proof.Machine.execSessionProofTimeout slot s
  | .roleLockExpiry role => Sys2Proof.Machine.execRoleLockExpiry role s
  | .fuseRead m v => Sys2Proof.Machine.execFuseRead m v s
  | .fuseProgram m v => Sys2Proof.Machine.execFuseProgram m v s
  | .fuseRevoke m v => Sys2Proof.Machine.execFuseRevoke m v s
  | .fusePolicy m v => Sys2Proof.Machine.execFusePolicy m v s
  | .fuseOpDone readBack => Sys2Proof.Machine.execFuseOpDone readBack s
  | .recordStoreDone verified => Sys2Proof.Machine.execRecordStoreDone verified s
  | .recorderClearDone verified => Sys2Proof.Machine.execRecorderClearDone verified s
  | .recorderScanDone mramOk verified => Sys2Proof.Machine.execRecorderScanDone mramOk verified s
  | .coreOverVoltage mv => Sys2Proof.Machine.execCoreOverVoltage mv s
  | .coreWindowExit mv => Sys2Proof.Machine.execCoreWindowExit mv s
  | .pgoodCoreRise v33 mram => Sys2Proof.Machine.execPgoodCoreRise v33 mram s
  | .sequencerPgRise k => Sys2Proof.Machine.execSequencerPgRise k s
  | .sequencerPgTimeout k => Sys2Proof.Machine.execSequencerPgTimeout k s
  | .sequencerPgFall k => Sys2Proof.Machine.execSequencerPgFall k s
  | .seqConfigWrite m k v => Sys2Proof.Machine.execSeqConfigWrite m k v s
  | .avsTargetWrite m v => Sys2Proof.Machine.execAvsTargetWrite m v s
  | .powerGateWrite m v => Sys2Proof.Machine.execPowerGateWrite m v s
  | .unitPowerUpDone u => Sys2Proof.Machine.execUnitPowerUpDone u s
  | .temperatureLimit t => Sys2Proof.Machine.execTemperatureLimit t s
  | .watchdogKick m v => Sys2Proof.Machine.execWatchdogKick m v s
  | .resetExit hostsel bootsrc => Sys2Proof.Machine.execResetExit hostsel bootsrc s
  | .bootRomRun f => Sys2Proof.Machine.execBootRomRun f s
  | .sysStateWrite m v => Sys2Proof.Machine.execSysStateWrite m v s
  | .pinFunctionWrite m g v => Sys2Proof.Machine.execPinFunctionWrite m g v s
  | .gpioSetWrite m k v => Sys2Proof.Machine.execGpioSetWrite m k v s
  | .gpioClrWrite m k v => Sys2Proof.Machine.execGpioClrWrite m k v s
  | .prbsRunStart m l v => Sys2Proof.Machine.execPrbsRunStart m l v s
  | .prbsInject m l v => Sys2Proof.Machine.execPrbsInject m l v s
  | .prbsLock l rx => Sys2Proof.Machine.execPrbsLock l rx s
  | .prbsLockLoss l rx => Sys2Proof.Machine.execPrbsLockLoss l rx s
  | .tapInstructionUpdate code => Sys2Proof.Machine.execTapInstructionUpdate code s
  | .debugAccess req => Sys2Proof.Machine.execDebugAccess req s
  | .trngDelivery w => Sys2Proof.Machine.execTrngDelivery w s
  | .canIntegrationComplete n => Sys2Proof.Machine.execCanIntegrationComplete n s
  | .startWindowExpiry n => Sys2Proof.Machine.execStartWindowExpiry n s
  | .buckSoftStart v33 => Sys2Proof.Machine.execBuckSoftStart v33 s
  | .coreWindowReturn mv => Sys2Proof.Machine.execCoreWindowReturn mv s
  | .buckDisLevelChange b => Sys2Proof.Machine.execBuckDisLevelChange b s
  | .tmuTick => Sys2Proof.Machine.execTmuTick s
  | .autoDomainSwitch => Sys2Proof.Machine.execAutoDomainSwitch s
  | .stampRingEntry => Sys2Proof.Machine.execStampRingEntry s
  | .angleUpdateInstant => Sys2Proof.Machine.execAngleUpdateInstant s
  | .angleEventFiring => Sys2Proof.Machine.execAngleEventFiring s
  | .ledgerSnapshot => Sys2Proof.Machine.execLedgerSnapshot s
  | .ledgerLatch => Sys2Proof.Machine.execLedgerLatch s
  | .fdbAgeTick => Sys2Proof.Machine.execFdbAgeTick s
  | .queueScrub => Sys2Proof.Machine.execQueueScrub s
  | .flushDone => Sys2Proof.Machine.execFlushDone s
  | .tableOpDone => Sys2Proof.Machine.execTableOpDone s
  | .rqDelivery => Sys2Proof.Machine.execRqDelivery s
  | .tskModeStop => Sys2Proof.Machine.execTskModeStop s
  | .tskModeStartup => Sys2Proof.Machine.execTskModeStartup s
  | .tskModeRun => Sys2Proof.Machine.execTskModeRun s
  | .tskModeTest => Sys2Proof.Machine.execTskModeTest s
  | .vcPush => Sys2Proof.Machine.execVcPush s
  | .swapGo => Sys2Proof.Machine.execSwapGo s
  | .swapQuietPoint => Sys2Proof.Machine.execSwapQuietPoint s
  | .motionUpdateInstant => Sys2Proof.Machine.execMotionUpdateInstant s
  | .scrubLine => Sys2Proof.Machine.execScrubLine s
  | .xdmUnit => Sys2Proof.Machine.execXdmUnit s
  | .eventDelivery => Sys2Proof.Machine.execEventDelivery s
  | .msixSend => Sys2Proof.Machine.execMsixSend s
  | .perstAssert => Sys2Proof.Machine.execPerstAssert s
  | .xspiStatus => Sys2Proof.Machine.execXspiStatus s
  | .replySignal => Sys2Proof.Machine.execReplySignal s
  | .commandTake => Sys2Proof.Machine.execCommandTake s
  | .mailboxCommandTake => Sys2Proof.Machine.execMailboxCommandTake s
  | .replyPost => Sys2Proof.Machine.execReplyPost s
  | .getIdentity => Sys2Proof.Machine.execGetIdentity s
  | .getState => Sys2Proof.Machine.execGetState s
  | .resetSubsystem => Sys2Proof.Machine.execResetSubsystem s
  | .echo => Sys2Proof.Machine.execEcho s
  | .readReg => Sys2Proof.Machine.execReadReg s
  | .writeReg => Sys2Proof.Machine.execWriteReg s
  | .openSession => Sys2Proof.Machine.execOpenSession s
  | .proveSession => Sys2Proof.Machine.execProveSession s
  | .closeSession => Sys2Proof.Machine.execCloseSession s
  | .setPassword => Sys2Proof.Machine.execSetPassword s
  | .installKey => Sys2Proof.Machine.execInstallKey s
  | .attest => Sys2Proof.Machine.execAttest s
  | .loadBegin => Sys2Proof.Machine.execLoadBegin s
  | .loadData => Sys2Proof.Machine.execLoadData s
  | .startEngine => Sys2Proof.Machine.execStartEngine s
  | .stopEngine => Sys2Proof.Machine.execStopEngine s
  | .imageInfo => Sys2Proof.Machine.execImageInfo s
  | .portConfig => Sys2Proof.Machine.execPortConfig s
  | .portStatus => Sys2Proof.Machine.execPortStatus s
  | .switchConfig => Sys2Proof.Machine.execSwitchConfig s
  | .fdbAccess => Sys2Proof.Machine.execFdbAccess s
  | .scheduleLoad => Sys2Proof.Machine.execScheduleLoad s
  | .scheduleSwitch => Sys2Proof.Machine.execScheduleSwitch s
  | .countersRead => Sys2Proof.Machine.execCountersRead s
  | .canConfig => Sys2Proof.Machine.execCanConfig s
  | .domainConfig => Sys2Proof.Machine.execDomainConfig s
  | .domainStatus => Sys2Proof.Machine.execDomainStatus s
  | .selectDomain => Sys2Proof.Machine.execSelectDomain s
  | .stampConfig => Sys2Proof.Machine.execStampConfig s
  | .shaftConfig => Sys2Proof.Machine.execShaftConfig s
  | .shaftStatus => Sys2Proof.Machine.execShaftStatus s
  | .angleEventSet => Sys2Proof.Machine.execAngleEventSet s
  | .angleEventClear => Sys2Proof.Machine.execAngleEventClear s
  | .shaftMasterProfile => Sys2Proof.Machine.execShaftMasterProfile s
  | .axisConfig => Sys2Proof.Machine.execAxisConfig s
  | .axisMove => Sys2Proof.Machine.execAxisMove s
  | .axisStop => Sys2Proof.Machine.execAxisStop s
  | .axisGear => Sys2Proof.Machine.execAxisGear s
  | .axisStatus => Sys2Proof.Machine.execAxisStatus s
  | .programLoad => Sys2Proof.Machine.execProgramLoad s
  | .programMode => Sys2Proof.Machine.execProgramMode s
  | .valueChange => Sys2Proof.Machine.execValueChange s
  | .forceSet => Sys2Proof.Machine.execForceSet s
  | .forceClear => Sys2Proof.Machine.execForceClear s
  | .programSwap => Sys2Proof.Machine.execProgramSwap s
  | .programStatus => Sys2Proof.Machine.execProgramStatus s
  | .recordRead => Sys2Proof.Machine.execRecordRead s
  | .recordClear => Sys2Proof.Machine.execRecordClear s
  | .recorderStatus => Sys2Proof.Machine.execRecorderStatus s
  | .marchRun => Sys2Proof.Machine.execMarchRun s
  | .prbsRun => Sys2Proof.Machine.execPrbsRun s
  | .freezeInfo => Sys2Proof.Machine.execFreezeInfo s
  | .freezeResolve => Sys2Proof.Machine.execFreezeResolve s
  | .loopback => Sys2Proof.Machine.execLoopback s
  | .secJobGo => Sys2Proof.Machine.execSecJobGo s
  | .secJobDone => Sys2Proof.Machine.execSecJobDone s
  | .trngRead => Sys2Proof.Machine.execTrngRead s
  | .trngHealthFail => Sys2Proof.Machine.execTrngHealthFail s
  | .trngRestart => Sys2Proof.Machine.execTrngRestart s
  | .recordSubmit => Sys2Proof.Machine.execRecordSubmit s
  | .recorderClear => Sys2Proof.Machine.execRecorderClear s
  | .operatingSecondTick => Sys2Proof.Machine.execOperatingSecondTick s
  | .powerOn => Sys2Proof.Machine.execPowerOn s
  | .brownOut => Sys2Proof.Machine.execBrownOut s
  | .sequencerStepEnable => Sys2Proof.Machine.execSequencerStepEnable s
  | .sequencerRetry => Sys2Proof.Machine.execSequencerRetry s
  | .avsDone => Sys2Proof.Machine.execAvsDone s
  | .pllLock => Sys2Proof.Machine.execPllLock s
  | .pllLockLoss => Sys2Proof.Machine.execPllLockLoss s
  | .pinReset => Sys2Proof.Machine.execPinReset s
  | .softwareReset => Sys2Proof.Machine.execSoftwareReset s
  | .watchdogHalf => Sys2Proof.Machine.execWatchdogHalf s
  | .watchdogReset => Sys2Proof.Machine.execWatchdogReset s
  | .hostPathTimeout => Sys2Proof.Machine.execHostPathTimeout s
  | .tapReset => Sys2Proof.Machine.execTapReset s

end Sys2Proof.Machine
end

