-- ==== Sys2Proof/WellFormed.lean ====
section
/-!
DEFINITION. Which commands are well formed: the operands that no type bounds lie in the range that the spec gives
them. A queue of well-formed commands stays one (Inv, Sys2Proof/Safety.lean).
-/
namespace Sys2Proof

open Machine

/-- A CAN frame's fields fit the formats of R170 and R184: an 11- or 29-bit identifier, a payload of up to 8, 64 or
2,048 bytes. -/
def canFrameWf (f : CanFrame) : Bool :=
  decide (f.fmt < 3) && decide (f.id < if f.ide then 2 ^ 29 else 2 ^ 11) &&
    decide (f.payload.length ≤ if f.fmt = 0 then 8 else if f.fmt = 1 then 64 else 2048)

/-- Whether a command is well formed. -/
def Instr.wf (i : Instr) : Bool :=
  match i with
  | .registerWrite _ _ n _ =>
    decide (1 ≤ n ∧ n ≤ 64)
  | .splitRegisterLatch _ _ n =>
    decide (1 ≤ n ∧ n ≤ 64)
  | .ulpEchoRequest _ _ req _ =>
    decide (req.length ≤ 65535)
  | .autonegComplete _ r =>
    decide (r.parallel ≤ 2 ∧ r.speed ≤ 7)
  | .frameReceive _ f =>
    decide (f.data.length ≤ 65535)
  | .cableTestDone _ rs =>
    rs.length == 4 && rs.all fun r => decide (r.code < 16 ∧ r.dist < 65536)
  | .canBusError _ e =>
    decide (e.code < 8)
  | .canRxFrame _ f _ =>
    canFrameWf f
  | .canReferenceReceived _ f _ =>
    canFrameWf f
  | .canVetoReceived _ f _ =>
    canFrameWf f
  | .waitWake core x =>
    decide (x.val < ctxCount core.val)
  | .waitTimeout core x =>
    decide (x.val < ctxCount core.val)
  | .marchDone xs =>
    xs.all fun x => decide (x.bank < 32)
  | .bar0Access _ ofs n _ =>
    decide (1 ≤ n ∧ n ≤ 4096 ∧ ofs < 65536)
  | .bar2Access write ofs n data =>
    decide (1 ≤ n ∧ n ≤ 4096 ∧ ofs < 2 ^ 24) && (!write || data.length == n)
  | .outboundAccess _ write ofs n data =>
    decide (1 ≤ n ∧ n ≤ 64 ∧ ofs < 2 ^ 28) && (!write || data.length == n)
  | .xspiRead _ n =>
    decide (1 ≤ n ∧ n ≤ 65536)
  | .xspiWrite _ vs =>
    decide (1 ≤ vs.length ∧ vs.length ≤ 65536)
  | .parallelBusRead ad =>
    decide (ad < 2 ^ 25)
  | .parallelBusWrite ad _ =>
    decide (ad < 2 ^ 25)
  | .temperatureLimit t =>
    decide (-2048 ≤ t ∧ t < 2048)
  | .bootRomRun f =>
    f.march.all fun x => decide (x.bank < 32)
  | .debugAccess req =>
    decide (req < 2 ^ 66)
  | .domainRateWrite _ _ _ | .domainAdjWrite _ _ _ | .domainStepWrite _ _ _ | .domainEnable _ _ _
  | .domainLock _ _ _ | .domainSync _ _ _ | .domainFail _ _ _ | .domainDisable _ _ _ | .syncTimeout _
  | .holdoverFailLimit _ | .domainSelectWrite _ _ | .egressStampPop _ _ _ | .stampInputEdge _ _ _ _
  | .stampRingPop _ _ | .timedOutputArm _ _ _ | .timedOutputCancel _ _ _ | .timedOutputEdge _ | .sampleSubmit _ _ _
  | .shaftFollow _ _ _ | .shaftMaster _ _ _ | .shaftIdle _ _ _ | .reftoExpiry _ | .coastlimExpiry _
  | .masterSampleGeneration _ | .sampleOutRead _ _ | .stampToAngleStart _ _ _ | .stampToAngleDone _
  | .angleEventWrite _ _ _ _ | .portModeWrite _ _ _ | .linkUp _ _ | .linkDown _ | .jabber _ _
  | .frameTransmitStart _ _ | .frameTransmitEnd _ _ _ | .collision _ _ | .backoffExpiry _
  | .plcaActiveChange _ _ _ _ | .preemptVerifyTimer _ _ | .lpiEntry _ | .earlyWake _ | .wakeComplete _
  | .rxLpiSignal _ _ | .counterSnapshot _ _ _ | .counterClear _ _ _ | .ldfRuleCommit _ _ _ | .cableTestStart _ _ _
  | .hostPortPeckGrant _ | .gateListChange _ _ _ | .gateListChangeTime _ | .gateEntryStart _ | .streamGateEntry _
  | .recoveryResetTimeout _ | .slotWindowOpen _ | .queueFlush _ _ | .tableRead _ _ _ | .tableWrite _ _ _
  | .tableSearch _ _ _ | .tableClear _ _ _ | .canEnable _ _ _ | .canDisable _ _ _ | .canRequest _ _ _
  | .canCancel _ _ _ | .canClearnew _ _ _ | .canFrameCommit _ | .canArbitrationLoss _ | .canTxComplete _
  | .canXlPayloadRead _ _ | .canRingPop _ _ _ | .canRecover _ _ _ | .canBusoffRecovered _ | .canReferenceTrigger _ _
  | .canExclusiveTrigger _ _ _ | .canArbitratingTrigger _ _ | .canReceiveCheckTrigger _ _ | .canReceiveWindowEnd _
  | .canWatchTrigger _ _ | .canModeValidate _ _ _ _ | .canTtresume _ _ _ | .canModeRequest _ _ _
  | .canMatrixCycleStart _ | .guardianWindow _ | .bundleExecute _ _ _ | .rqConsWrite _ _ _ | .tqPushWrite _ _ _
  | .tqDescriptorServe _ | .peCycleTimer _ | .engineStart _ _ _ | .engineStop _ _ _ | .engineClear _ _ _
  | .engineClearDone _ | .engineWatchdogExpiry _ | .frameEnable _ _ _ | .frameCycleBoundary _
  | .taskReleaseWrite _ _ | .frameEvaluation _ | .evaluationEnd _ | .noExchangeCheck _ | .outputHandover _
  | .stationReport _ _ | .forceEntrySet _ _ _ | .forceEntryClear _ _ _ | .vcApply _ _ | .tskDiagWrite _ _
  | .axisEnable _ _ _ | .axisDisable _ _ _ | .axisMoveCmd _ _ _ | .axisVelCmd _ _ _ | .axisGearCmd _ _ _
  | .axisCamCmd _ _ _ | .axisCamarmCmd _ _ _ | .axisStopCmd _ _ _ | .axisClearCmd _ _ _ | .setposCommit _ _ _
  | .phaseCommit _ _ _ | .stepPulse _ | .quadratureTransition _ _ _ _ | .quadratureIndex _ _ _ | .actinWrite _ _ _
  | .feedbackStale _ | .deviationFault _ | .skJmp _ _ | .skWait _ _ | .skWaitEnd _ _ | .skWaitTimeout _ _
  | .skIn _ _ | .skOut _ | .skPush _ | .skPull _ | .skMov _ _ | .skSet _ | .skIrq _ | .skStamp _ | .skStallRelease _
  | .skipperEnable _ _ _ | .skipperDisable _ _ _ | .skipperRestart _ _ _ | .feedWrite _ _ _ | .irqsetWrite _ _ _
  | .lanesWrite _ _ _ _ | .instructionWordWrite _ _ _ _ | .packFifoRead _ _ | .packFifoReset _ _ _
  | .packCreditGrant _ | .bankOwnerWrite _ _ _ | .bankOwnerTakeEffect _ | .atomicFaddRead _ | .atomicSwapRead _
  | .lockRead _ _ | .lockWrite _ _ _ | .marchStart _ _ | .freezeResume _ _ | .freezeRedirect _ _ | .freezeReset _ _
  | .xdmGo _ _ _ | .xdmStop _ _ _ | .xdmTrigWrite _ _ _ | .xdmTrigtCommit _ _ _ | .xdmTimeTrigger _
  | .xdmDescriptorStart _ | .xdmArmedTimeout _ | .mailboxConfigWrite _ _ _ | .mailboxDataWrite _ _ _ _
  | .mailboxGo _ _ _ | .mailboxAcknowledge _ _ | .mailboxTimeout _ | .crossWaitDetect _ | .mailboxReset _ _ _
  | .eventQueuePop _ _ _ | .evtRaiseWrite _ _ | .routeWrite _ _ _ | .cvLoad _ _ _ | .cvStart _ _ | .cvFinish _ _
  | .cvData4Write _ _ _ | .cvData1Write _ _ _ | .pcieLinkChange _ _ _ | .outboundReadCompletion _ _ _
  | .outboundReadTimeout _ | .commandDoorbell _ _ | .replyDoorbell _ _ | .asyncCommandComplete _ _ | .setState _
  | .loadCommit _ | .recordWrite _ | .sessionProofTimeout _ | .roleLockExpiry _ | .fuseRead _ _ | .fuseProgram _ _
  | .fuseRevoke _ _ | .fusePolicy _ _ | .fuseOpDone _ | .recordStoreDone _ | .recorderClearDone _
  | .recorderScanDone _ _ | .coreOverVoltage _ | .coreWindowExit _ | .pgoodCoreRise _ _ | .sequencerPgRise _
  | .sequencerPgTimeout _ | .sequencerPgFall _ | .seqConfigWrite _ _ _ | .avsTargetWrite _ _ | .powerGateWrite _ _
  | .unitPowerUpDone _ | .watchdogKick _ _ | .resetExit _ _ | .sysStateWrite _ _ | .pinFunctionWrite _ _ _
  | .gpioSetWrite _ _ _ | .gpioClrWrite _ _ _ | .prbsRunStart _ _ _ | .prbsInject _ _ _ | .prbsLock _ _
  | .prbsLockLoss _ _ | .tapInstructionUpdate _ | .trngDelivery _ | .canIntegrationComplete _ | .startWindowExpiry _
  | .buckSoftStart _ | .coreWindowReturn _ | .buckDisLevelChange _ | .tmuTick | .autoDomainSwitch | .stampRingEntry
  | .angleUpdateInstant | .angleEventFiring | .ledgerSnapshot | .ledgerLatch | .fdbAgeTick | .queueScrub
  | .flushDone | .tableOpDone | .rqDelivery | .tskModeStop | .tskModeStartup | .tskModeRun | .tskModeTest | .vcPush
  | .swapGo | .swapQuietPoint | .motionUpdateInstant | .scrubLine | .xdmUnit | .eventDelivery | .msixSend
  | .perstAssert | .xspiStatus | .replySignal | .commandTake | .mailboxCommandTake | .replyPost | .getIdentity
  | .getState | .resetSubsystem | .echo | .readReg | .writeReg | .openSession | .proveSession | .closeSession
  | .setPassword | .installKey | .attest | .loadBegin | .loadData | .startEngine | .stopEngine | .imageInfo
  | .portConfig | .portStatus | .switchConfig | .fdbAccess | .scheduleLoad | .scheduleSwitch | .countersRead
  | .canConfig | .domainConfig | .domainStatus | .selectDomain | .stampConfig | .shaftConfig | .shaftStatus
  | .angleEventSet | .angleEventClear | .shaftMasterProfile | .axisConfig | .axisMove | .axisStop | .axisGear
  | .axisStatus | .programLoad | .programMode | .valueChange | .forceSet | .forceClear | .programSwap
  | .programStatus | .recordRead | .recordClear | .recorderStatus | .marchRun | .prbsRun | .freezeInfo
  | .freezeResolve | .loopback | .secJobGo | .secJobDone | .trngRead | .trngHealthFail | .trngRestart
  | .recordSubmit | .recorderClear | .operatingSecondTick | .powerOn | .brownOut | .sequencerStepEnable
  | .sequencerRetry | .avsDone | .pllLock | .pllLockLoss | .pinReset | .softwareReset | .watchdogHalf
  | .watchdogReset | .hostPathTimeout | .tapReset => true

end Sys2Proof
end

