-- ==== Sys2Proof/Safety.lean ====
section
/-!
DEFINITION. The words that statements about the block are made of: what a command does to the device, what counts as
a safe run, and the invariant of memory.
-/
namespace Sys2Proof
open Machine

/-- The command answers a next state whatever waits behind it, and takes the device from `c` to `d`. An equation of
this form says all that the command changes and all that it leaves. -/
def Always (i : Instr) (c d : Chip) : Prop := ∀ q, exec i ⟨q, c⟩ = .next ⟨q, d⟩

/-- What a command does to a device that is neither OFF nor in RESET (R39). -/
def Does (i : Instr) (c d : Chip) : Prop := c.runs = true → Always i c d

/-- What a command does to a device that is not OFF (R39): one of the monitors, the buck, the PLL, the sequencer, the
TAP, the board, or EVR's scan. -/
def Powered (i : Instr) (c d : Chip) : Prop := c.supplied = true → Always i c d

/-- In a device that is neither OFF nor in RESET the command answers a next state whatever waits behind it, and the
device it leaves has the property `P`. -/
def Gives (i : Instr) (c : Chip) (P : Chip → Prop) : Prop := c.runs = true → ∃ d, Always i c d ∧ P d

/-- The same of a command that acts in every device that is not OFF. -/
def GivesPowered (i : Instr) (c : Chip) (P : Chip → Prop) : Prop := c.supplied = true → ∃ d, Always i c d ∧ P d

/-- Of the low `n` bits of a word exactly bit `k` is 1: a command register written with one command. -/
def OnlyBit (v : W32) (n k : Nat) : Prop := ∀ i, i < n → wbit v i = decide (i = k)

/-- Context `x` of a core issues the legal bundle `ws`, whose fetch leaves the device as `d` (R231, R232): the core
runs, the context is the highest-numbered READY one without a bundle in flight, and its fetch succeeds. -/
def Issues (core : Fin 11) (flight : Nat) (mismatch : Bool) (c : Chip) (x : Nat) (ws : List W32) (d : Chip) : Prop :=
  (core ≠ 0 ∨ (c.core.supStopped = false ∧ mismatch = false)) ∧
  x < ctxCount core.val ∧ (c.ctx core.val x).st = .ready ∧ (c.ctx core.val x).inFlight = false ∧
  flight.testBit x = false ∧
  (∀ y, x < y → y < ctxCount core.val → (c.ctx core.val y).st = .ready ∨ (c.ctx core.val y).inFlight = true →
    flight.testBit y = true) ∧
  c.fetch core.val ((c.ctx core.val x).pc / 4 * 4) (longest core.val) [] = .ok ws d ∧ illegalSyll core.val ws = none

/-- The device with no command in service. -/
def idled (c : Chip) : Chip := { c with hif := { c.hif with cur := none } }

/-- Command `x` with opcode `op` is in service of supervisor firmware (R428). -/
def InService (op : Nat) (x : Cmd) (c : Chip) : Prop := c.hif.cur = some x ∧ x.op = op ∧ c.serving = true

/-- Serving command `x` leaves the device as `d` and queues one final reply, with this status, detail and payload, where
its path can carry it (R427, R431). -/
def Replies (i : Instr) (x : Cmd) (c : Chip) (st detail : Nat) (ws : List W32) (d : Chip) : Prop :=
  tooLong x ws = false →
    Does i c (d.queueReply x.path (replyPacket x (tagKey (idled c) d x.slot) false st detail ws))

/-- Serving command `x` leaves the device as `d`, with the command STARTED and its interim reply queued, where fewer
than 8 commands are STARTED (R431). -/
def Starts (i : Instr) (x : Cmd) (c : Chip) (w : AsyncWait) (d : Chip) : Prop :=
  c.hif.started.length < 8 →
    Does i c (({ d with hif := { d.hif with started := d.hif.started ++ [Started.mk x w] } } : Chip).queueReply x.path
      (replyPacket x (tagKey (idled c) d x.slot) true stStarted 0 []))

/-- Memory is in its canonical form (addresses strictly rising, and no byte listed that an unlisted address reads as),
and every waiting command is well formed. -/
def Inv (s : State) : Prop := Memory.wf s.chip = true ∧ ∀ i ∈ s.pending, i.wf = true

/-- A safe run: `k` steps from a state, with no fault and no refusal, that end in a state with the invariant. -/
def SafeRun (k : Nat) (s : State) : Prop := ∃ t, Host.Core.run core k s = .next t ∧ Inv t

end Sys2Proof
end

