-- ==== Sys2Proof/Certificates/Slice0/Obligations.lean ====
section
/-!
DEFINITION. The statements about the model, for the provers: each says in its docstring which rules it follows.
-/
open Sys2Proof Sys2Proof.Machine

/-! ### The block as a whole -/

/-- The command at the front of the queue is performed on the device with the rest of the queue; and, the model's choice
(DESIGN CHOICE, log entry 5), with no command waiting the block idles. -/
def Obligations.StepPerformsTheFrontCommand : Prop :=
  (∀ (i : Instr) (rest : List Instr) (c : Chip), step ⟨i :: rest, c⟩ = exec i ⟨rest, c⟩) ∧
  (∀ c : Chip, step ⟨[], c⟩ = .next ⟨[], c⟩)

/-- Every command answers a next state and leaves the queue behind it as it is: no ordinary data ends a run. And R39: in
OFF only what the board supplies changes the device, and in RESET besides that only the supplies and their monitors, the
sequencer, the PLL, the TAP and EVR's scan; every other command leaves a device in OFF or RESET as it is. -/
def Obligations.EveryCommandCompletes : Prop :=
  (∀ (i : Instr) (c : Chip), ∃ d, Always i c d) ∧
  (∀ (i : Instr) (c : Chip), c.supplied = false →
    match i with
    | .sequencerPgRise .. | .sequencerPgFall .. | .buckDisLevelChange .. | .powerOn | .brownOut => True
    | i => Always i c c) ∧
  (∀ (i : Instr) (c : Chip), c.runs = false →
    match i with
    | .recorderScanDone .. | .coreOverVoltage .. | .coreWindowExit .. | .pgoodCoreRise .. | .sequencerPgRise .. |
      .sequencerPgTimeout .. | .sequencerPgFall .. | .temperatureLimit .. | .resetExit .. |
      .tapInstructionUpdate .. | .buckSoftStart .. | .coreWindowReturn .. | .buckDisLevelChange .. |
      .powerOn | .brownOut | .sequencerStepEnable | .sequencerRetry | .avsDone | .pllLock | .pllLockLoss |
      .pinReset | .tapReset => True
    | i => Always i c c)

/-- Memory keeps its canonical form and the queue holds only well-formed commands: kept by every step, from every
state. -/
def Obligations.EveryStepKeepsTheInvariant : Prop := ∀ s t : State, Inv s → step s = .next t → Inv t

/-- The state after reset has the invariant. -/
def Obligations.ResetHasTheInvariant : Prop := Inv State.reset

/-- What reset leaves, where the spec gives the value: registers at their reset values, among them the slew limit and
the holdover limit of TMU, every domain and every shaft IDLE, line time 0, no event raised, no segment but the boot
segment of SUP, every bank with owner group 0, and memory with nothing listed. -/
def Obligations.ResetLeavesTheSpecsValues : Prop :=
  State.reset.pending = [] ∧
    (let c := State.reset.chip
     (∀ a, c.reg a = regReset a) ∧ c.reg TMU_SLEW = 200 ∧ c.reg TMU_HOLDLIM = 100000 ∧
     (∀ x, (c.dom x).st = .idle) ∧ (∀ n, (c.shaft n).st = .idle) ∧ c.lt = 0 ∧ c.tmu.raw = 0 ∧ c.tmu.h = 0 ∧
     c.evt.raised = [] ∧ c.xdm.freezes = [] ∧ c.reg (XDM_SEGm_BASEs 0 0) = 7 ∧
     c.reg (XDM_SEGm_SIZEs 0 0) = 0xFFFFFFC0 ∧
     (∀ b, b < 32 → c.reg (MEM_BOWN b) = 0) ∧ c.mem = [])

/-! ### Register accesses (chapter 01) -/

/-- R10 to R13, R15, R32, R58: a register accessed by a master. One aligned word of a peripheral window is the access of
that register; any other size or alignment there, and any unassigned address, is refused with a bus error and changes
nothing else. A read-write register takes the value (of the holdover limit, whose range begins at 1,
a 0 is stored as 1: DESIGN CHOICE, log entry 23); a W1C bit is cleared by a 1 and kept by a 0; a reserved bit stays; a
register with supervisor-only fields refuses any other master. A read of the low word of a split register gives its value
and latches the companions for that master alone; a write-only register reads 0. -/
def Obligations.RegisterAccessesFollowR10ToR15 : Prop :=
  (∀ (m : Master) (a v : W32) (n : Nat) (c : Chip),
     (regionOf a.toNat = .periph → (a.toNat % 4 ≠ 0 ∨ n ≠ 4) → Does (.registerWrite m a n v) c c.refuse) ∧
     (regionOf a.toNat = .unassigned → Does (.registerWrite m a n v) c c.refuse) ∧
     (regionOf a.toNat = .periph → a.toNat % 4 = 0 →
       Does (.registerWrite m a 4 v) c (regWrite c m.val a.toNat v)) ∧
     Does (.registerWrite m (BitVec.ofNat 32 TMU_HOLDLIM) 4 v) c
       (c.setReg TMU_HOLDLIM (if v = 0 then 1 else v)).done ∧
     Does (.registerWrite m (BitVec.ofNat 32 TMU_EVSTAT) 4 v) c
       (c.setReg TMU_EVSTAT (c.reg TMU_EVSTAT &&& ~~~(v &&& 7))).done ∧
     Does (.registerWrite m (BitVec.ofNat 32 TMU_CTL) 4 v) c
       (if m.val = 0 then (c.setReg TMU_CTL ((c.reg TMU_CTL &&& ~~~0x10F) ||| (v &&& 0x10F))).done else c.refuse)) ∧
  (∀ (m : Master) (a : W32) (n : Nat) (c : Chip),
     (regionOf a.toNat = .periph → (a.toNat % 4 ≠ 0 ∨ n ≠ 4) → Does (.splitRegisterLatch m a n) c c.refuse) ∧
     (regionOf a.toNat = .unassigned → Does (.splitRegisterLatch m a n) c c.refuse) ∧
     Gives (.splitRegisterLatch m (BitVec.ofNat 32 TMU_RAW_LO) 4) c (fun d =>
       d.bus = .ok (lo32 c.tmu.raw).toNat ∧ d.latchedPart m.val TMU_RAW_HI = hi32 c.tmu.raw ∧
       (∀ k, k ≠ m.val → d.latchedPart k TMU_RAW_HI = c.latchedPart k TMU_RAW_HI) ∧
       d = { c with bus := d.bus, latched := d.latched }) ∧
     Does (.splitRegisterLatch m (BitVec.ofNat 32 TMU_RAW_HI) 4) c
       (c.answer (.ok (c.latchedPart m.val TMU_RAW_HI).toNat)) ∧
     Does (.splitRegisterLatch m (BitVec.ofNat 32 (TMU_Dx_CMD 0)) 4) c (c.answer (.ok 0)))


/-! ### Line time (chapter 02) -/

/-- R44, R46, R52, R57: one tick. A domain that is not IDLE and has no accepted step advances by one nanosecond, its
rate and the slewed part of its adjustment, and its rate walks toward its target; an IDLE domain follows the raw
counter; the handover term is paid out at σ a tick and line time is formed from the selected domain. But for TMU's
state, source 83 when a handover ends and its records in registers, the device is as before. A domain with an accepted
step takes it whole with no slewed part, its pending adjustment keeps only what was committed since, and STEPPED is
set; where the conditions of R57 do not hold for a step of the active domain, the handover term takes the step off
again. -/
def Obligations.TickFollowsR44AndR52 : Prop :=
  (∀ c : Chip, Gives .tmuTick c fun d =>
     d.tmu.raw = (c.tmu.raw + 1) % 2 ^ 64 ∧
     (∀ x, (c.dom x).st ≠ .idle → (c.dom x).step = none →
       (d.dom x).st = (c.dom x).st ∧
       (d.dom x).d = (c.dom x).d + 2 ^ 48 + (c.dom x).r + clamp (c.dom x).p (-c.sigma) c.sigma ∧
       (d.dom x).p = (c.dom x).p - clamp (c.dom x).p (-c.sigma) c.sigma ∧
       (d.dom x).t = (c.dom x).t ∧
       (d.dom x).r = (c.dom x).r + clamp ((c.dom x).t - (c.dom x).r) (-c.rho) c.rho) ∧
     (∀ x, (c.dom x).st = .idle →
       (d.dom x).st = .idle ∧ (d.dom x).d = ((c.tmu.raw + 1) % 2 ^ 64 : Nat) * 2 ^ 48 ∧
       (d.dom x).p = 0 ∧ (d.dom x).r = 0 ∧ (d.dom x).t = 0) ∧
     ((c.dom c.active).step = none → d.tmu.h = c.tmu.h - clamp c.tmu.h (-c.sigma) c.sigma) ∧
     d.active = c.active ∧
     d.lt = wrap 80 (((d.dom d.active).d + d.tmu.h) / 2 ^ 32) ∧
     (∀ a, a ≠ TMU_EVSTAT → a ≠ EVT_PEND 2 → d.reg a = c.reg a) ∧
     (∀ a, d.byte a = c.byte a) ∧
     d = { c with tmu := d.tmu, regs := d.regs, evt := d.evt }) ∧
  (∀ (c : Chip) (x : Dom) (s : Int), (c.dom x).st ≠ .idle → (c.dom x).step = some s → Gives .tmuTick c fun d =>
     (d.dom x).d = (c.dom x).d + 2 ^ 48 + (c.dom x).r + s * 2 ^ 32 ∧
     (d.dom x).p = (c.dom x).adjTick ∧ (d.dom x).stepped = true ∧ (d.dom x).step = none ∧
     (d.dom x).r = (c.dom x).r + clamp ((c.dom x).t - (c.dom x).r) (-c.rho) c.rho ∧
     (c.active = x → c.lineSteps = false →
       d.tmu.h = hTerm (c.tmu.h - clamp c.tmu.h (-c.sigma) c.sigma - s * 2 ^ 32)) ∧
     (c.active = x → c.lineSteps = true → d.tmu.h = c.tmu.h - clamp c.tmu.h (-c.sigma) c.sigma))

/-- R54: within the bounds that the rules on rates and slew keep, a tick without a line-time step moves line time
forward by at least 0.997 ns and at most 1.003 ns, in its units of 2^-16 ns rounded outward, as long as neither the
80-bit time nor the handover term leaves its range. -/
def Obligations.LineTimeNeverDecreases : Prop :=
  ∀ c : Chip, let s := c.dom c.active
    s.st ≠ .idle → (s.step = none ∨ c.lineSteps = false) →
    -rateLimit ≤ s.r → s.r ≤ rateLimit → (c.reg TMU_SLEW).toNat ≤ 1000 →
    (∀ k : Int, s.step = some k → let h := c.tmu.h - clamp c.tmu.h (-c.sigma) c.sigma - k * 2 ^ 32; hTerm h = h) →
    c.lt = wrap 80 ((s.d + c.tmu.h) / 2 ^ 32) → 0 ≤ s.d + c.tmu.h → s.d + c.tmu.h < 2 ^ 112 - 2 ^ 49 →
    Gives .tmuTick c fun d => c.lt + 65339 ≤ d.lt ∧ d.lt ≤ c.lt + 65733

/-- R47, R49, R53: each command of a domain in the state that the table lists for it, from a master that may write
the domain. -/
def Obligations.DomainCommandsTakeEffect : Prop :=
  ∀ (m : Master) (x : Fin 2) (v : W32) (c : Chip), c.timeMaster m.val = true →
    let y := domAt x
    let d := c.dom y
    (OnlyBit (v ||| 0x1) 5 0 → (d.st = .idle ∨ d.st = .failed) →
      let e := (c.domState y { d with
        st := .acquire, d := (c.lt : Int) * 2 ^ 32, p := 0, r := 0, t := 0, step := none
        adjTick := 0, stepped := false }).stage (TMU_Dx_RATE_HI x.val) 0
      let f := { e with tmu := { e.tmu with h := 0, handover := false } }
      (c.active ≠ y → Does (.domainEnable m x v) c e.done) ∧
      (c.active = y → c.tmu.h = 0 → Does (.domainEnable m x v) c f.done) ∧
      (c.active = y → c.tmu.h ≠ 0 → Does (.domainEnable m x v) c (f.flag TMU_EVSTAT 2 83).done)) ∧
    (OnlyBit (v ||| 0x2) 5 1 → d.st = .acquire →
      Does (.domainLock m x v) c (c.domState y { d with st := .locked, syncNs := 0 }).done) ∧
    (OnlyBit (v ||| 0x4) 5 2 →
      (d.st = .locked → Does (.domainSync m x v) c (c.setDom y { d with syncNs := 0 }).done) ∧
      (d.st = .holdover →
        Does (.domainSync m x v) c (c.domState y { d with st := .locked, syncNs := 0 }).done)) ∧
    (OnlyBit (v ||| 0x8) 5 3 → (d.st = .acquire ∨ d.st = .locked ∨ d.st = .holdover) →
      Does (.domainFail m x v) c (c.domState y { d with st := .failed }).done) ∧
    (OnlyBit (v ||| 0x10) 5 4 → d.st ≠ .idle → c.active ≠ y →
      Does (.domainDisable m x v) c ((c.domState y { d with
        st := .idle, d := (c.tmu.raw : Int) * 2 ^ 48, p := 0, r := 0, t := 0, step := none
        adjTick := 0 }).stage (TMU_Dx_RATE_HI x.val) 0).done)

/-- R47, R49, R50, R51: the commands of a domain that are refused. From a master that may not write the domain, with a
bus error that changes nothing else; with more than one command bit set, or in a state that the table does not list,
with CMD_REFUSED set and source 84 raised. -/
def Obligations.DomainCommandsAreRefused : Prop :=
  ∀ (m : Master) (x : Fin 2) (v : W32) (c : Chip),
    let y := domAt x
    let st := (c.dom y).st
    let refused := (c.flag (TMU_Dx_FLAGS x.val) 0 84).done
    (c.timeMaster m.val = false →
      Does (.domainEnable m x v) c c.refuse ∧ Does (.domainLock m x v) c c.refuse ∧
      Does (.domainSync m x v) c c.refuse ∧ Does (.domainFail m x v) c c.refuse ∧
      Does (.domainDisable m x v) c c.refuse ∧ Does (.domainRateWrite m x v) c c.refuse ∧
      Does (.domainAdjWrite m x v) c c.refuse ∧ Does (.domainStepWrite m x v) c c.refuse ∧
      Does (.domainSelectWrite m v) c c.refuse) ∧
    (c.timeMaster m.val = true →
      (1 < bitCount (v ||| 0x1) 5 → Does (.domainEnable m x v) c refused) ∧
      (1 < bitCount (v ||| 0x2) 5 → Does (.domainLock m x v) c refused) ∧
      (1 < bitCount (v ||| 0x4) 5 → Does (.domainSync m x v) c refused) ∧
      (1 < bitCount (v ||| 0x8) 5 → Does (.domainFail m x v) c refused) ∧
      (1 < bitCount (v ||| 0x10) 5 → Does (.domainDisable m x v) c refused) ∧
      (OnlyBit (v ||| 0x1) 5 0 → st ≠ .idle → st ≠ .failed → Does (.domainEnable m x v) c refused) ∧
      (OnlyBit (v ||| 0x2) 5 1 → st ≠ .acquire → Does (.domainLock m x v) c refused) ∧
      (OnlyBit (v ||| 0x4) 5 2 → st ≠ .locked → st ≠ .holdover → Does (.domainSync m x v) c refused) ∧
      (OnlyBit (v ||| 0x8) 5 3 → (st = .idle ∨ st = .failed) → Does (.domainFail m x v) c refused) ∧
      (OnlyBit (v ||| 0x10) 5 4 → (st = .idle ∨ c.active = y) → Does (.domainDisable m x v) c refused))

/-- R45 to R47, R49, R55, R56: commits of a domain's rate, adjustment and step, from a master that may write the
domain: the value stored, the nearer limit with its flag where the value or sum leaves the range, and the refusals by
state; and the domains' own timers and the switch of line time between them. A SYNC in the tick in which the timer
reaches its limit still comes in time (R38), so HOLDOVER is entered behind that tick and its time counts from it
(DESIGN CHOICE, log entry 22); what the select fields hold after a write that switches nothing is log entry 24's. -/
def Obligations.DomainWritesTimersAndSwitches : Prop :=
  (∀ (m : Master) (x : Fin 2) (lo : W32) (c : Chip), c.timeMaster m.val = true →
     let y := domAt x
     let d := c.dom y
     let flagged := fun (e : Chip) i => (e.flag (TMU_Dx_FLAGS x.val) i 84).done
     let rate := sext 64 (join64 (c.stagedPart (TMU_Dx_RATE_HI x.val)) lo)
     let rated := fun (t : Int) => (c.setDom y { d with t := t }).stage (TMU_Dx_RATE_HI x.val) (hi32 (wrap 64 t))
     let adj := sext 64 (join64 (c.stagedPart (TMU_Dx_ADJ_HI x.val)) lo) * 2 ^ 32
     let most : Int := (2 ^ 63 - 1) * 2 ^ 32
     let least : Int := -(2 ^ 63) * 2 ^ 32
     let adjusted := fun (p : Int) => c.setDom y { d with p := p, adjTick := clamp (d.adjTick + adj) least most }
     ((d.st = .idle ∨ d.st = .failed) →
       Does (.domainRateWrite m x lo) c (flagged c 0) ∧ Does (.domainAdjWrite m x lo) c (flagged c 0)) ∧
     (d.st ≠ .idle → d.st ≠ .failed →
       (-281474976711 ≤ rate → rate ≤ 281474976711 → Does (.domainRateWrite m x lo) c (rated rate).done) ∧
       (281474976711 < rate → Does (.domainRateWrite m x lo) c (flagged (rated 281474976711) 2)) ∧
       (rate < -281474976711 → Does (.domainRateWrite m x lo) c (flagged (rated (-281474976711)) 2)) ∧
       (least ≤ d.p + adj → d.p + adj ≤ most → Does (.domainAdjWrite m x lo) c (adjusted (d.p + adj)).done) ∧
       (most < d.p + adj → Does (.domainAdjWrite m x lo) c (flagged (adjusted most) 3)) ∧
       (d.p + adj < least → Does (.domainAdjWrite m x lo) c (flagged (adjusted least) 3))) ∧
     (d.st = .acquire → d.stepped = false → d.step = none →
       Does (.domainStepWrite m x lo) c
         (c.setDom y { d with step := some (sext 64 (join64 (c.stagedPart (TMU_Dx_STEP_HI x.val)) lo)) }).done) ∧
     ((d.st ≠ .acquire ∨ d.stepped = true ∨ d.step ≠ none) →
       Does (.domainStepWrite m x lo) c (flagged c 1))) ∧
  (∀ (m : Master) (x : Fin 2) (v : W32) (c : Chip),
     let y := domAt x
     let d := c.dom y
     let a := c.dom c.active
     let o := c.dom c.active.other
     let stored := c.setFld TMU_DOMSEL 1 0 (wfld v 1 0)
     let switched := fun (e : Chip) => ({ e with tmu := { e.tmu with
         h := hTerm (e.tmu.h + a.d - o.d), activeB := !e.tmu.activeB, handover := true } } : Chip).flag TMU_EVSTAT 1 82
     let auto := c.bit TMU_DOMSEL 1 = true ∧ o.st = .locked ∧
       (a.st = .failed ∨ (a.st = .holdover ∧ (c.reg TMU_HOLDLIM).toNat * 1000 < a.holdNs))
     (d.st = .locked → (c.reg (TMU_Dx_SYNCTO x.val)).toNat * 1000 < d.syncNs →
       Does (.syncTimeout x) c (c.domState y { d with
         st := .holdover, holdNs := d.syncNs - (c.reg (TMU_Dx_SYNCTO x.val)).toNat * 1000 })) ∧
     ((d.st ≠ .locked ∨ d.syncNs ≤ (c.reg (TMU_Dx_SYNCTO x.val)).toNat * 1000) → Does (.syncTimeout x) c c) ∧
     (d.st = .holdover → (c.reg (TMU_Dx_FAILLIM x.val)).toNat * 1000 < d.holdNs →
       Does (.holdoverFailLimit x) c (c.domState y { d with st := .failed })) ∧
     ((d.st ≠ .holdover ∨ d.holdNs ≤ (c.reg (TMU_Dx_FAILLIM x.val)).toNat * 1000) →
       Does (.holdoverFailLimit x) c c) ∧
     (c.timeMaster m.val = true →
       (wbit v 0 = c.tmu.activeB → Does (.domainSelectWrite m v) c stored.done) ∧
       (wbit v 0 ≠ c.tmu.activeB → o.st = .locked → Does (.domainSelectWrite m v) c (switched stored).done) ∧
       (wbit v 0 ≠ c.tmu.activeB → o.st ≠ .locked →
         Does (.domainSelectWrite m v) c (c.setBit TMU_EVSTAT 0 true).done)) ∧
     (auto → Does .autoDomainSwitch c (switched c)) ∧ (¬auto → Does .autoDomainSwitch c c))

/-- R61, R64 to R67: the egress stamp queue's head removed; an edge on a GPIO stamped by each channel that watches it,
where its direction is selected, its filter is passed and no stamp of the channel lies less than 16 ns before; a stamp's
entry to the ring; and the ring's head removed. -/
def Obligations.StampsAreQueuedAndPopped : Prop :=
  ∀ (m : Master) (p : Fin 8) (v : W32) (g : Fin 128) (up : Bool) (q : Fin 4) (stable : Nat) (c : Chip),
    let at4 := c.tmu.raw * 4 + q.val
    let stamp := fun (e : Chip) (ch : Nat) =>
      let cfg := e.reg (TMU_TSn_CFG ch)
      let edges := tblGet [] e.tmu.tsEdges ch
      if (if up then wfld cfg 11 10 % 2 = 1 else wfld cfg 11 10 / 2 = 1) ∧ wfld cfg 15 12 * 4 ≤ stable then
        if edges.head?.any (fun l => decide (at4 < l + 64)) then e.setBit (TMU_TSn_CFG ch) 31 true
        else { e with tmu := { e.tmu with
          tsEdges := tblSet [] e.tmu.tsEdges ch (noteEdge at4 edges)
          waiting := insertStamp e.tmu.waiting ⟨at4, c.lt / 16384 * 16384 + q.val * 16384, up, ch⟩ } }
      else e
    (wbit v 0 = true →
      Does (.egressStampPop m p v) c (c.setEq p.val (c.eq p.val).tail).done ∧
      Does (.stampRingPop m v) c { c with tmu := { c.tmu with ring := c.tmu.ring.tail } }.done) ∧
    (wbit v 0 = false → Does (.egressStampPop m p v) c c.done ∧ Does (.stampRingPop m v) c c.done) ∧
    Does (.stampInputEdge g up q stable) c
      (((List.range 48).filter fun ch => c.fld (TMU_TSn_CFG ch) 6 0 == g.val).foldl stamp
        { c with pin := c.pin.level g.val up }) ∧
    (∀ s rest, c.tmu.waiting = s :: rest → s.at4 / 4 + 80 ≤ c.tmu.raw →
      let entered : Chip := { c with tmu := { c.tmu with
        waiting := rest
        ring := c.tmu.ring ++ [⟨s.lt, c.tmu.ringSeq, c.tmu.ringLost, s.rising, s.ch⟩]
        ringSeq := (c.tmu.ringSeq + 1) % 65536, ringLost := false } }
      (c.tmu.ring.length < 1024 → c.bit (TMU_TSn_CFG s.ch) 9 = true →
        Does .stampRingEntry c (entered.raise (32 + s.ch) 0)) ∧
      (c.tmu.ring.length < 1024 → c.bit (TMU_TSn_CFG s.ch) 9 = false → Does .stampRingEntry c entered) ∧
      (1024 ≤ c.tmu.ring.length → Does .stampRingEntry c (((({ c with tmu := { c.tmu with
        waiting := rest, ringLost := true } } : Chip).inc TMU_TSR_LOST).setBit TMU_TSR_FLAGS 0 true).raise 86 0)))

/-- R68 to R70, R534: a timed output armed at its committed time, a late first edge moved and flagged, a refused ARM, a
CANCEL that leaves the pulse in progress, an edge placed, and the writes that Skipper's ownership refuses. -/
def Obligations.TimedOutputsFollowR68AndR69 : Prop :=
  ∀ (m : Master) (n : Fin 32) (v : W32) (c : Chip),
    let mode := c.fld (TMU_TOn_CFG n.val) 14 13
    let width := (c.reg (TMU_TOn_WIDTH n.val)).toNat
    let period := (c.reg (TMU_TOn_PERIOD n.val)).toNat
    let t := c.to n.val
    let at4 := c.reg64 (TMU_TOn_TIME_LO n.val) * 4 + c.fld (TMU_TOn_TIME_FRAC n.val) 15 14
    let set := fun (first : Nat) => c.setTo n.val { t with sched := some ⟨mode, first, width, period, wbit v 1⟩ }
    let late := fun (e : Chip) => (e.flag (TMU_TOn_STAT n.val) 2 87)
    (c.bit (TMU_TOn_CFG n.val) 8 = true →
      Does (.timedOutputArm m n v) c c.refuse ∧ Does (.timedOutputCancel m n v) c c.refuse) ∧
    (c.bit (TMU_TOn_CFG n.val) 8 = false →
      (wbit v 2 = false →
        (toLimitsOk mode width period = false → Does (.timedOutputArm m n v) c (late c).done) ∧
        (toLimitsOk mode width period = true →
          (∀ i, t.pulse = some i → i < at4 → Does (.timedOutputArm m n v) c (set at4).done) ∧
          (∀ i, t.pulse = some i → at4 ≤ i → Does (.timedOutputArm m n v) c (late (set (i + 1))).done) ∧
          (t.pulse = none → c.lt4 ≤ at4 + 8 → Does (.timedOutputArm m n v) c (set at4).done) ∧
          (t.pulse = none → at4 + 8 < c.lt4 →
            Does (.timedOutputArm m n v) c (late (set (c.lt4 + 1))).done))) ∧
      (wbit v 0 = false →
        Does (.timedOutputCancel m n v) c (c.setTo n.val { t with sched := none }).done)) ∧
    (∀ i, t.pulse = some i →
      (i ≤ c.lt4 → Does (.timedOutputEdge n) c (c.placeEdge n.val { t with pulse := none, held := none } i)) ∧
      (c.lt4 < i → Does (.timedOutputEdge n) c c)) ∧
    (∀ s, t.pulse = none → t.sched = some s →
      (c.lt4 < s.next → Does (.timedOutputEdge n) c c) ∧
      (s.next ≤ c.lt4 → s.mode = 0 →
        Does (.timedOutputEdge n) c (c.placeEdge n.val { t with sched := none, held := some s.level } s.next)) ∧
      (s.next ≤ c.lt4 → s.mode = 1 → Does (.timedOutputEdge n) c
        (c.placeEdge n.val { sched := none, pulse := some (s.next + s.width), held := none } s.next)) ∧
      (s.next ≤ c.lt4 → 2 ≤ s.mode → Does (.timedOutputEdge n) c
        (c.placeEdge n.val { sched := some { s with next := s.next + s.period },
                             pulse := some (s.next + s.width), held := none } s.next))) ∧
    (t.pulse = none → t.sched = none → Does (.timedOutputEdge n) c c)

/-! ### Line shafts and angle events (chapter 03) -/

/-- R79, R81, R86, R92: what the registers of ANG start. A command of a shaft waits for the second update instant from
now; a sample that every check of R79 passes enters the pending queue in order of valid time, and one that a check
refuses sets that check's flag and is counted; a conversion starts with its result fixed, and a GO while one runs is
ignored; a write to an angle event is stored at once and waits for the second update instant. -/
def Obligations.AngleRegistersStartWork : Prop :=
  ∀ (m : Master) (n : Fin 16) (k : Fin 4) (e : Fin 1024) (r : Fin 5) (v : W32) (c : Chip),
    let s := c.shaft n.val
    let queued := fun cmd => (c.setShaft n.val { s with cmds := s.cmds ++ [(c.ltUs + 2, cmd)] }).done
    let refused := (c.flag (ANG_SHn_FLAGS n.val) 8 (96 + n.val)).done
    let x := sampleOf ((List.range 9).map fun i => c.reg (ANG_SHn_IN n.val i))
    let t := c.reg64 (ANG_S2As_T_LO k.val) * 65536 + (c.reg (ANG_S2As_T_FRAC k.val)).toNat
    (OnlyBit (v ||| 0x1) 3 0 → Does (.shaftFollow m n v) c (queued .follow)) ∧
    (OnlyBit (v ||| 0x2) 3 1 → Does (.shaftMaster m n v) c (queued .master)) ∧
    (OnlyBit (v ||| 0x4) 3 2 → Does (.shaftIdle m n v) c (queued .idle)) ∧
    (1 < bitCount (v ||| 0x1) 3 → Does (.shaftFollow m n v) c refused) ∧
    (1 < bitCount (v ||| 0x2) 3 → Does (.shaftMaster m n v) c refused) ∧
    (1 < bitCount (v ||| 0x4) 3 → Does (.shaftIdle m n v) c refused) ∧
    (wbit v 0 = true →
      ((s.st = .follow ∨ s.st = .coast ∨ (s.st = .lost ∧ c.bit (ANG_SHn_CFG n.val) 31 = true)) →
        x.quality / 16 ≠ 0 → x.quality / 16 < 4 → c.fld (ANG_SHn_CFG n.val) 11 8 ≤ x.quality / 16 →
        (c.bit (ANG_SHn_CFG n.val) 30 = false ∨ x.domain = (c.reg ANG_DOMAIN).toNat) →
        c.lt + instant 2 ≤ x.tv → x.tv ≤ c.lt + instant 65535 →
        (∀ y, s.newestTv = some y → y < x.tv) → s.pend.length < 8 →
        Does (.sampleSubmit m n v) c
          ((c.setShaft n.val { s with pend := insertSample s.pend x }).inc (ANG_SHn_REFCNT n.val)).done) ∧
      ∀ f, c.sampleRefusal n.val x = some f → Does (.sampleSubmit m n v) c
        ((c.flag (ANG_SHn_FLAGS n.val) f (96 + n.val)).inc (ANG_SHn_REFUSED n.val)).done) ∧
    (wbit v 0 = false → Does (.sampleSubmit m n v) c c.done) ∧
    (tblGet none c.ang.s2a k.val = none → Does (.stampToAngleStart m k v) c
      (({ c with ang := { c.ang with
        s2a := tblSet none c.ang.s2a k.val (some (c.s2aResult (wfld v 3 0) t)) } } : Chip).setReg
          (ANG_S2As_STAT k.val) 0x80000000).done) ∧
    (tblGet none c.ang.s2a k.val ≠ none → Does (.stampToAngleStart m k v) c c.done) ∧
    (∀ w, tblGet none c.ang.s2a k.val = some w → Does (.stampToAngleDone k) c
      ((({ c with ang := { c.ang with s2a := tblSet none c.ang.s2a k.val none } } : Chip).setReg64
        (ANG_S2As_RES_LO k.val) w.res).setReg (ANG_S2As_STAT k.val) (w32 (0x40000000 + w.code)))) ∧
    (let d := c.plainWrite m.val (ANG_AEn_CFG e.val + 4 * r.val) v
     let k : AeCfg := ⟨d.reg (ANG_AEn_CFG e.val), d.reg (ANG_AEn_ACT e.val), d.reg64 (ANG_AEn_POS_LO e.val),
       (d.reg (ANG_AEn_PERIOD e.val)).toNat⟩
     (r.val ≠ 3 → Does (.angleEventWrite m e r v) c (d.setAe e.val { d.ae e.val with
       writes := (d.ae e.val).writes ++ [(c.ltUs + 2, decide (r.val = 0), k)] })) ∧
     (r.val = 3 → Does (.angleEventWrite m e r v) c d))

/-- R76, R77, R81, R82: a shaft at an update instant `u`. With no sample due its residual is paid out by at most the
blending slew; a sample that is due begins a segment, and the residual takes up the difference of the two angles,
except where the sample is adopted as it stands; a shaft that is LOST with AUTORESUME = 0 takes none (DESIGN CHOICE, log
entry 27); and the angle shown is the segment's with the residual. The update
instant takes every shaft so, then evaluates the next interval; a FOLLOW or COAST timer that runs out begins its segment
and raises the shaft's source. -/
def Obligations.ShaftsFollowR76AndR81 : Prop :=
  (∀ (s : Shaft) (k : ShaftCfg) (u : Nat), 0 ≤ k.b →
    ((s.st = .lost ∧ k.autoResume = false) ∨ ∀ p rest, s.pend = p :: rest → instant u < p.tv) →
    (s.activate k u).1.e = s.e - clamp s.e (-k.b) k.b ∧ (s.activate k u).1.st = s.st ∧
    (s.activate k u).1.pend = s.pend ∧ (s.activate k u).1.thetaS (instant u) = s.thetaS (instant u)) ∧
  (∀ (s : Shaft) (k : ShaftCfg) (u : Nat) (p : Sample) (rest : List Sample), s.pend = p :: rest → p.tv ≤ instant u →
    (s.st = .lost → k.autoResume = true) →
    let t := (s.activate k u).1
    let adopted := s.st = .lost ∨ (s.st = .follow ∧ s.adoptWait = true)
    t.pend = rest ∧ t.adoptWait = false ∧ t.lastTv = some p.tv ∧
    t.st = (if s.st = .master then .master else .follow) ∧
    t.segs = (Seg.mk (instant u) p.tv p.th p.v p.a [(u, t.e)] :: s.segs).take 64 ∧
    (adopted → t.e = 0) ∧
    (¬adopted → t.e = angDiff ((s.thetaS (instant u) : Int) + (s.e - clamp s.e (-k.b) k.b))
      ((Seg.mk (instant u) p.tv p.th p.v p.a []).theta (instant u)))) ∧
  (∀ (s : Shaft) (u : Nat), (s.show u).ang = wrap 64 ((s.thetaS (instant u) : Int) + s.e) ∧
    (s.show u).vel = s.velS (instant u)) ∧
  (∀ (n : Fin 16) (c : Chip),
    (c.dueInstant = none → Does .angleUpdateInstant c c) ∧
    (∀ u, c.dueInstant = some u →
      let ran := c.ang.shafts.foldl (fun d e => shaftInstant d e.1 u) c
      Does .angleUpdateInstant c (evaluate { ran with ang := { ran.ang with u := u } } (u + 1))) ∧
    (let s := c.shaft n.val
     let u := c.ang.u
     let t := instant u
     (s.st = .follow → s.adoptWait = false → (c.reg (ANG_SHn_REFTO n.val)).toNat ≤ u - s.timer →
       Does (.reftoExpiry n) c ((c.setShaft n.val ({ s.newSeg u t (s.thetaS t) (s.velS t) 0 s.e with
         st := .coast, timer := u }.show u)).raise (96 + n.val) 0)) ∧
     (s.st = .coast → (c.reg (ANG_SHn_COASTLIM n.val)).toNat ≤ u - s.timer →
       Does (.coastlimExpiry n) c ((c.setShaft n.val
         ({ s.newSeg u t (wrap 64 ((s.thetaS t : Int) + s.e)) 0 0 0 with
           st := .lost, pend := [], timer := u }.show u)).raise (96 + n.val) 0)) ∧
     ((s.st ≠ .follow ∨ s.adoptWait = true ∨ u - s.timer < (c.reg (ANG_SHn_REFTO n.val)).toNat) →
       Does (.reftoExpiry n) c c) ∧
     ((s.st ≠ .coast ∨ u - s.timer < (c.reg (ANG_SHn_COASTLIM n.val)).toNat) → Does (.coastlimExpiry n) c c)))

/-- R83, R84, R88, R91, R95, R97, R98: a generation time of a shaft master writes the sample to the output words with
its number, raises the shaft's source and enters it into the shaft's own pending queue, or is refused there with
PEND_OVF when eight samples are pending; reading the first output word answers it, latches the other eight for the
reading master and clears OUTNEW. The first committed firing, in the tick that its time rounds up to, performs the
actions that its event enables in the order of R91, marks the event fired, and is committed no longer; and a valid
echo request is answered with a reply of its own stream and sequence number whose header and check value R94 and R95
give. -/
def Obligations.ShaftMastersFiringsAndEchoes : Prop :=
  (∀ (m : Master) (n : Fin 16) (c : Chip),
     let s := c.shaft n.val
     let x := (c.masterSample n.val c.ang.u).1
     (s.st = .master → c.ang.u % (c.reg (ANG_SHn_PERIOD n.val)).toNat = 0 → s.lastGen ≠ c.ang.u + 1 →
       Gives (.masterSampleGeneration n) c fun d =>
         (∀ i, i < 9 → d.reg (ANG_SHn_OUT n.val i) = x.words.getD i 0) ∧
         (d.reg (ANG_SHn_OUTSEQ n.val)).toNat = ((c.reg (ANG_SHn_OUTSEQ n.val)).toNat + 1) % 65536 ∧
         (d.shaft n.val).outNew = true ∧
         (s.pend.length ≠ 8 → (d.shaft n.val).pend = insertSample s.pend x) ∧
         (s.pend.length = 8 → (d.shaft n.val).pend = s.pend ∧ d.bit (ANG_SHn_FLAGS n.val) 4 = true) ∧
         (∀ k, k ≠ n.val → d.shaft k = c.shaft k) ∧ (∀ a, d.byte a = c.byte a) ∧
         d = { c with regs := d.regs, ang := d.ang, evt := d.evt }) ∧
     ((s.st ≠ .master ∨ c.ang.u % (c.reg (ANG_SHn_PERIOD n.val)).toNat ≠ 0 ∨ s.lastGen = c.ang.u + 1) →
       Does (.masterSampleGeneration n) c c) ∧
     Gives (.sampleOutRead m n) c fun d =>
       d.bus = .ok (c.reg (ANG_SHn_OUT n.val 0)).toNat ∧
       (∀ i, i < 8 → d.latchedPart m.val (ANG_SHn_OUT n.val (i + 1)) = c.reg (ANG_SHn_OUT n.val (i + 1))) ∧
       d.shaft n.val = { s with outNew := false } ∧
       d = { c with bus := d.bus, latched := d.latched, ang := d.ang }) ∧
  (∀ (c : Chip) (stream seq : Fin 65536) (req : List Byte) (stamp : Option Nat),
     (c.ang.firings = [] → Does .angleEventFiring c c) ∧
     (∀ f rest, c.ang.firings = f :: rest →
       (c.ltNs < (f.tc4 + 3) / 4 → Does .angleEventFiring c c) ∧
       ((f.tc4 + 3) / 4 ≤ c.ltNs →
         let a := f.act
         let c0 : Chip := { c with ang := { c.ang with firings := rest } }
         let c1 := if wbit a 25 then c0.xdTrig (wfld a 24 19) else c0
         let c2 := if wbit a 18 then c1.angleRelease (wfld a 17 13) else c1
         let c3 := if wbit a 12 then c2.skLine (wfld a 11 7) 0 else c2
         let c4 := if wbit a 6 then camStep c3 (wfld a 5 1) f.pos else c3
         let c5 := if wbit a 0 then c4.raise (112 + f.ae / 32) 0 else c4
         Does .angleEventFiring c ((c5.setAe f.ae { c5.ae f.ae with stat := (c5.ae f.ae).stat % 16 }).setBit
           (ANG_AEFIRE (f.ae / 32)) (f.ae % 32) true))) ∧
     (echoValid stream.val seq.val req = false → Does (.ulpEchoRequest stream seq req stamp) c c) ∧
     (echoValid stream.val seq.val req = true → ∀ body,
       echoReply (req.take (req.length - 4)) (stamp.map fun t => ⟨t, 0, 0, 0⟩) = some body →
       Does (.ulpEchoRequest stream seq req stamp) c { c with ang := { c.ang with
         echo := some (c.ulpHead 0xF stream.val seq.val (body.length + 4) ++ body ++
           beBytes 4 (ulpCheck stream.val seq.val body)) } }))


/-! ### Ethernet ports (chapter 04) -/

/-- R105, R106, R113, R114, R130: modes, negotiation and links. A mode that is not listed for the port changes nothing
and sets MODE_REFUSED; negotiation with a common ability resolves speed and duplex, sets ANDONE and raises port source
6; a link that comes up sets LINK by the port's own operation, with what firmware does for a port it has set up; a lost
link drops the frame in transmission, and a 10BASE-T1S segment has no link to lose; jabber is held, and takes a
multidrop link down; and a change of BEACONs is shown and raised, the next cycle's count beginning with it. -/
def Obligations.PortModesAndLinks : Prop :=
  ∀ (m : Master) (p : Fin 8) (v : W32) (r : AnResult) (speed : Fin 8) (mdix : Bool) (cur : Fin 256) (n : Nat) (c : Chip),
    let q := p.val
    let mode := c.portMode q
    let t1s := mode = 8 ∨ mode = 9
    let set1 := c.setReg (ETH_Pn_ANLP q) (r.lp &&& 0x1AF)
    let run := c.portRun q
    let plca := (c.count q 60 n).setPortRun q { run with curid := cur.val, oppAt := c.lt, oppSent := 0 }
    (modeListed q (wfld v 3 0) = false →
      Does (.portModeWrite m p v) c ((c.setBit (ETH_Pn_FLAGS q) 7 true).raise (144 + 8 * q + 7) 0).done) ∧
    (modeListed q (wfld v 3 0) = true → c.linkUp q = false →
      Gives (.portModeWrite m p v) c fun d =>
        d.reg (ETH_Pn_CTL q) = v &&& 0x33CF ∧ d.portMode q = wfld v 3 0 ∧
        d.linkUp q = (decide (wfld v 3 0 = 8 ∨ wfld v 3 0 = 9) && !run.jabber) ∧ d.bus = .ok 0) ∧
    (c.negotiates q = true → c.linkUp q = false →
      (set1.anOutcome q r = none →
        Does (.autonegComplete p r) c (c.atPort q fun _ => set1.setBit (ETH_Pn_STAT q) 30 false)) ∧
      (∀ s f, set1.anOutcome q r = some (s, f) →
        let set2 := (set1.resolve q s f).setBit (ETH_Pn_STAT q) 30 true
        let set3 := if q < 2 ∧ c.fld (ETH_Pn_CTL q) 7 6 = 0 then set2.setBit (ETH_Pn_STAT q) 23 r.mdix else set2
        Does (.autonegComplete p r) c (c.atPort q fun _ => set3.raise (144 + 8 * q + 6) 0))) ∧
    (mode ≠ 0 → ¬t1s → c.linkUp q = false → c.negotiates q = true → c.bit (ETH_Pn_STAT q) 30 = true →
      Does (.linkUp p ⟨speed, mdix⟩) c (c.atPort q fun c =>
        (if 4 ≤ q then c.setBit (ETH_Pn_STAT q) 22 true else c).raiseLink q)) ∧
    (q < 2 → (mode = 2 ∨ mode = 3) → c.fld (ETH_Pn_CTL q) 7 6 = 0 → c.linkUp q = false →
      Does (.linkUp p ⟨speed, mdix⟩) c (c.atPort q fun c => (c.setBit (ETH_Pn_STAT q) 23 mdix).raiseLink q)) ∧
    (c.linkUp q = true → ¬t1s →
      let down := (c.dropLink q).setBit (ETH_Pn_STAT q) 30 false
      Does (.linkDown p) c (if 4 ≤ q then (down.setBit (ETH_Pn_STAT q) 22 false).count q 63 1 else down)) ∧
    ((c.linkUp q = false ∨ t1s) → Does (.linkDown p) c c) ∧
    Does (.jabber p true) c (c.atPort q fun c =>
      let set := (c.setPortRun q { run with jabber := true }).setBit (ETH_Pn_FLAGS q) 1 true
      if t1s then set.dropLink q else set) ∧
    (t1s → c.linkUp q = false →
      Does (.jabber p false) c (c.atPort q fun c => (c.setPortRun q { run with jabber := false }).raiseLink q)) ∧
    ((¬t1s ∨ c.linkUp q = true) → Does (.jabber p false) c (c.setPortRun q { run with jabber := false })) ∧
    (mode = 9 → c.fld (ETH_Pn_PLCA_CTL q) 7 0 ≠ 255 → ∀ a,
      (c.bit (ETH_Pn_PLCA_STAT q) 31 = a → Does (.plcaActiveChange p a cur n) c plca) ∧
      (c.bit (ETH_Pn_PLCA_STAT q) 31 ≠ a → Does (.plcaActiveChange p a cur n) c
        ((plca.setBit (ETH_Pn_PLCA_STAT q) 31 a).raise (144 + 8 * q + 5) 0))) ∧
    (mode ≠ 9 → ∀ a, Does (.plcaActiveChange p a cur n) c c)

/-- R107, R110 to R112, R115, R123, R135, R149, R151: transmission. A free port starts the frame at the head of the
class that is selected, or goes on with the frame that was preempted; while a frame is in transmission only a frame
that may interrupt it starts; the end of a frame releases its buffer, restarts the idle time and counts the frame by
what became of it, and under LOOP the port receives it (DESIGN CHOICE, log entry 66); a collision in half duplex ends
the attempt in a jam and a back-off that the port's generator draws, or discards the frame when it is late or the
16th; and a back-off that has ended begins the attempt again where the gate still lets the frame out. -/
def Obligations.PortTransmission : Prop :=
  ∀ (p : Fin 8) (busy : Bool) (phase : Fin 4) (bits : Nat) (c : Chip),
    let q := p.val
    let s := c.settle q
    let held := (c.heldOf q).isSome
    let may := c.txReady q = true ∧ c.plcaMay q = true
    let head := fun (d : Chip) cls k rest (b : Bool) =>
      ((d.settle q).setQueue q cls rest).startTx q k (b && !d.fullDuplex q) false phase.val
    (may →
      (∀ d, s.select q held c.copies.length = (none, d) →
        (d.heldOf q = none → Does (.frameTransmitStart p ⟨busy, phase⟩) c d) ∧
        (∀ t, d.heldOf q = some t →
          ((d.gclOf q).hold = true → Does (.frameTransmitStart p ⟨busy, phase⟩) c d) ∧
          ((d.gclOf q).hold = false → Does (.frameTransmitStart p ⟨busy, phase⟩) c
            (((d.setHeld q none).setTx q (some { t with started := c.lt })).count q 57 1)))) ∧
      (∀ cls d k rest, s.select q held c.copies.length = (some cls, d) → d.queue q cls = k :: rest →
        Does (.frameTransmitStart p ⟨busy, phase⟩) c (head d cls k rest busy))) ∧
    (¬may →
      ((∀ t, c.txOf q = some t → c.linkUp q = false ∨ c.mayStop q t = false) →
        Does (.frameTransmitStart p ⟨busy, phase⟩) c c) ∧
      (∀ t, c.txOf q = some t → c.linkUp q = true → c.mayStop q t = true →
        let stopped := (s.setTx q none).setHeld q (some { t with sent := t.sent + c.fragBytes q t })
        (∀ cls d k rest, stopped.select q true stopped.copies.length = (some cls, d) → d.queue q cls = k :: rest →
          Does (.frameTransmitStart p ⟨busy, phase⟩) c (head d cls k rest false)) ∧
        (∀ d, stopped.select q true stopped.copies.length = (none, d) →
          Does (.frameTransmitStart p ⟨busy, phase⟩) c (if (c.gclOf q).hold then d else c)))) ∧
    (c.txOf q = none → ∀ late, Does (.frameTransmitEnd p late phase) c c ∧
      Does (.collision p bits) c c ∧ Does (.backoffExpiry ⟨p, phase⟩) c c) ∧
    (∀ t, c.txOf q = some t → t.backoff = none →
      let leave := fun (e : Chip) =>
        let gone := (((e.settle q).setTx q none).oppEnds q).release t.copy.fid
        gone.setLpi q { gone.lpiOf q with lastQueued := e.lt }
      let back := fun (e : Chip) (good : Bool) =>
        if e.fld (ETH_Pn_CTL q) 13 12 = 1 ∨ e.fld (ETH_Pn_CTL q) 13 12 = 2 then
          frameReceive e q ⟨t.data, good, false, false, 0, false, false, 0, 0, phase, false⟩ else e
      let good := (leave c).countGood q 32 t.data 37
      let collided := if t.colls = 1 then good.count q 45 1 else if 2 ≤ t.colls then good.count q 46 1 else good
      let tried := s.count q 44 1
      let g := Config.backoffNext (tried.portRun q).gen
      let wait := 32 + g.toNat % 2 ^ min (t.colls + 1) 10 * 512
      Does (.frameTransmitEnd p true phase) c (back (((leave c).count q 50 1).portFlag q 3) false) ∧
      (t.stomp = true → Does (.frameTransmitEnd p false phase) c (back ((leave c).count q 51 1) false)) ∧
      (t.stomp = false → Does (.frameTransmitEnd p false phase) c
        (back (if c.fullDuplex q then collided else collided.txStamp q t.copy.req t.stamp) true)) ∧
      (c.fullDuplex q = true → Does (.collision p bits) c c) ∧
      (c.fullDuplex q = false →
        (512 < bits → Does (.collision p bits) c (((leave tried).count q 47 1).portFlag q 4)) ∧
        (bits ≤ 512 → 15 ≤ t.colls → Does (.collision p bits) c (((leave tried).count q 48 1).portFlag q 5)) ∧
        (bits ≤ 512 → t.colls < 15 → Does (.collision p bits) c
          ((tried.setPortRun q { tried.portRun q with gen := g }).setTx q (some { t with
            colls := t.colls + 1, backoff := some (c.lt + wait * 65536000 / c.rate q) }))))) ∧
    (∀ t e, c.txOf q = some t → t.backoff = some e →
      let runs := s.oppTaken q
      let stamp := runs.stampNow q false phase.val t.copy.req.tag
      let again := e ≤ c.lt ∧ c.linkUp q = true ∧ (c.setTx q none).plcaMay q = true ∧
        c.gateOpen q t.copy.cls = true ∧ c.fits q t.copy.cls (t.data.length + 4) = true
      (again → Does (.backoffExpiry ⟨p, phase⟩) c (runs.setTx q (some { t with
        backoff := none, stamp := stamp, data := runs.txBytes q t.copy stamp, started := runs.lt }))) ∧
      (¬again → Does (.backoffExpiry ⟨p, phase⟩) c c) ∧
      Does (.frameTransmitEnd p true phase) c c ∧ Does (.collision p bits) c c)

/-- R107, R109, R116, R123, R124, R131, R141, R143, R144, R147: reception on a port whose link is up. A frame with a bad
SMD or a reassembly error is counted and gone; the first fragment of a preempted frame leaves its stamp for the frame; a
frame that is not good is counted in the one counter that the order of R124 gives, with its octets, and goes no further
unless a copy of it cuts through; a good frame is counted by its address and length, a MAC control frame among them is
discarded, a frame for which the buffer has no room is counted and ends its cut-through copies alone, and any other is
forwarded and its source address learned. With the link down nothing is received. -/
def Obligations.PortReception : Prop :=
  ∀ (p : Fin 8) (f : RxFrame) (c : Chip),
    let n := p.val
    let len := f.data.length + 4
    let maxlen := (c.reg (ETH_Pn_MAXLEN n)).toNat
    let seen := ((c.count n 31 f.falseCarrier).count n 63 f.pcsErr).count n 25 f.frags
    let tag := (seen.reg (ETH_Pn_CNT n 1)).toNat + 1
    let stamp := if seen.bit (TMU_Pn_TSCTL n) 0 then some (seen.stampNow n true f.phase.val tag) else none
    let got := if stamp.isSome then seen.count n 29 1 else seen
    let first := if f.frags = 0 then none else (seen.portRun n).firstFrag
    let mark := match first with
      | none => stamp
      | some k => some { k with tag := tag % 65536 }
    let had := match first with
      | none => got
      | some _ => seen.setPortRun n { seen.portRun n with firstFrag := none }
    let asm := (if 0 < f.frags then had.count n 26 1 else had).oppHeard n len
    let q := parseFrame f.data (c.pvid n)
    let good := asm.countGood n 0 f.data 7
    let tagged := if q.tagged then good.count n 6 1 else good
    let ulp := if q.etype = c.fld ANG_ULPTYPE 15 0 then tagged.count n 30 1 else tagged
    let cut := fun (d : Chip) (data : List Byte) =>
      if d.pecksFree = 0 then d else d.switchFrame n (data.take (d.pecksFree * 128 - 4)) q mark true
    (c.linkUp n = false → Does (.frameReceive p f) c c) ∧
    (c.linkUp n = true →
      (f.smdErr = true → Does (.frameReceive p f) c (seen.count n 28 1)) ∧
      (f.smdErr = false → f.asmErr = true → Does (.frameReceive p f) c
        ((seen.setPortRun n { seen.portRun n with firstFrag := none }).count n 27 1)) ∧
      (f.smdErr = false → f.asmErr = false → f.first = true → Does (.frameReceive p f) c
        (got.setPortRun n { got.portRun n with firstFrag := stamp })) ∧
      (f.smdErr = false → f.asmErr = false → f.first = false →
        (f.data = [] → Does (.frameReceive p f) c seen) ∧
        (f.data ≠ [] →
          (∀ k, rxErrCounter len maxlen f = some k →
            let bad := (asm.count n k 1).count n 21 len
            (len ≤ 128 → Does (.frameReceive p f) c bad) ∧
            (128 < len → Does (.frameReceive p f) c (cut bad (f.data.take (maxlen + 1))))) ∧
          (rxErrCounter len maxlen f = none →
            (q.etype = 0x8808 → Does (.frameReceive p f) c (ulp.count n 5 1)) ∧
            (q.etype ≠ 0x8808 → ulp.pecksFree < pecksOf len →
              Does (.frameReceive p f) c (cut (ulp.count n 22 1) f.data)) ∧
            (q.etype ≠ 0x8808 → pecksOf len ≤ ulp.pecksFree →
              Does (.frameReceive p f) c ((ulp.switchFrame n f.data q mark false).learn n f.data q.vid))))))

/-- R115, R120 to R122, R125, R128, R129: verification's timer, low-power idle, counter snapshots and clears, the
commit of a filter rule with its staged words, and the cable test; a START while a test runs leaves it running (DESIGN
CHOICE, log entry 69). -/
def Obligations.PortServices : Prop :=
  ∀ (m : Master) (p : Fin 8) (v : W32) (k : Fin 64) (rs : List PairResult) (c : Chip),
    let n := p.val
    let t := tblGet .reset c.swx.verify n
    let l := c.lpiOf n
    let gap := (c.reg (ETH_Pn_EEE_TWTX n)).toNat + (c.reg (ETH_Pn_EEE_GUARD n)).toNat +
      (c.reg (ETH_Pn_EEE_MINSLP n)).toNat * 1000
    let lead := (c.reg (ETH_Pn_EEE_TWTX n)).toNat + (c.reg (ETH_Pn_EEE_GUARD n)).toNat
    (c.fld (ETH_Pn_PRE_STAT n) 2 0 = 2 →
      Does (.preemptVerifyTimer p true) c
        ((c.setFld (ETH_Pn_PRE_STAT n) 2 0 3).raise (144 + 8 * n + 3) 0) ∧
      (t.last + c.fld (ETH_Pn_PRE_CTL n) 15 8 * 65536000000 ≤ c.lt →
        (3 ≤ t.attempts → Does (.preemptVerifyTimer p false) c
          ((c.setFld (ETH_Pn_PRE_STAT n) 2 0 4).raise (144 + 8 * n + 3) 0)) ∧
        (t.attempts < 3 → Does (.preemptVerifyTimer p false) c
          { c with swx := { c.swx with verify := tblSet .reset c.swx.verify n ⟨t.attempts + 1, c.lt⟩ } }))) ∧
    (c.bit (ETH_Pn_EEE_CTL n) 31 = true → c.bit (ETH_Pn_STAT n) 28 = true → c.txReady n = true →
      (∀ i, i < 8 → c.queue n i = []) → c.heldOf n = none →
      l.lastQueued + (c.reg (ETH_Pn_EEE_IDLE n)).toNat * 65536000 ≤ c.lt →
      (c.bit (ETH_Pn_EEE_CTL n) 30 = false ∨ ∀ o ∈ c.eeeOpenings n, c.lt + gap * 65536 ≤ o * 65536) →
      Does (.lpiEntry p) c
        (((c.count n 53 1).setBit (ETH_Pn_EEE_STAT n) 1 true).setLpi n { l with txSince := c.lt })) ∧
    (c.bit (ETH_Pn_EEE_STAT n) 1 = true → c.bit (ETH_Pn_EEE_CTL n) 30 = true →
      (∃ o ∈ c.eeeOpenings n, o * 65536 ≤ c.lt + lead * 65536) →
      Does (.earlyWake p) c ((c.count n 55 1).leaveLpi n)) ∧
    (c.bit (ETH_Pn_EEE_STAT n) 2 = true → l.wakeEnd ≤ c.lt →
      Does (.wakeComplete p) c (c.setBit (ETH_Pn_EEE_STAT n) 2 false)) ∧
    (c.linkUp n = true → c.bit (ETH_Pn_EEE_STAT n) 0 = false → Does (.rxLpiSignal p true) c
      (((c.setBit (ETH_Pn_EEE_STAT n) 0 true).count n 23 1).setLpi n { l with rxSince := c.lt })) ∧
    (c.linkUp n = true → c.bit (ETH_Pn_EEE_STAT n) 0 = true → Does (.rxLpiSignal p false) c
      ((c.setBit (ETH_Pn_EEE_STAT n) 0 false).count n 24 ((c.lt - l.rxSince) / 65536000))) ∧
    (wbit v 0 = true →
      Does (.counterSnapshot m p v) c
        ((List.range 64).foldl (fun d j => d.setReg (ETH_Pn_SNAP n j) (c.reg (ETH_Pn_CNT n j))) c).done ∧
      Does (.counterClear m p v) c
        ((((List.range 64).foldl (fun d j => d.setReg (ETH_Pn_CNT n j) 0) c).setReg
          (ETH_Pn_CNTHALF0 n) 0).setReg (ETH_Pn_CNTHALF1 n) 0).done) ∧
    (wbit v 0 = false → Does (.counterSnapshot m p v) c c.done ∧ Does (.counterClear m p v) c c.done) ∧
    Does (.ldfRuleCommit m k v) c
      (((c.setReg (ETH_LDFk_CFG k.val) (v &&& 0xFFFFFF1F)).setReg (ETH_LDFk_VID k.val)
        (c.stagedPart (ETH_LDFk_VID k.val))).setReg (ETH_LDFk_TYPE k.val) (c.stagedPart (ETH_LDFk_TYPE k.val))).done ∧
    (n < 2 → c.portMode n = 0 → Does (.cableTestStart m p v) c (c.setBit (ETH_Pn_CT_CTL n) 1 true).done) ∧
    (n < 2 → c.portMode n ≠ 0 → Does (.cableTestStart m p v) c (c.portFlag n 7).done) ∧
    (2 ≤ n → Does (.cableTestStart m p v) c c.done) ∧
    (c.bit (ETH_Pn_CT_CTL n) 1 = true → Does (.cableTestDone p rs) c
      ((((rs.take 4).zipIdx.foldl (fun d r =>
        d.setReg (ETH_Pn_CT_PAIR n r.2) (w32 (at_ (r.1.code % 16) 28 + r.1.dist % 65536))) c).setBit
          (ETH_Pn_CT_CTL n) 1 false).raise (144 + 8 * n + 4) 0)) ∧
    (c.bit (ETH_Pn_CT_CTL n) 1 = false → Does (.cableTestDone p rs) c c)

/-! ### The switch core (chapter 05) -/

/-- R152, R153, R157: gate lists. A change request with a bad list sets ERR; a good one pends its list for the base
time, or for the first cycle start after 2 µs where that is past; at its change time the list becomes operational, is
copied into table 8 and raises source 214; an entry that starts sets the gates and hold, and one that runs already
changes nothing; and a stream gate takes its open state and internal priority from each entry where it begins, by the
control record that stood at its cycle's start. -/
def Obligations.GateListsFollowR152AndR153 : Prop :=
  ∀ (m : Master) (p : Fin 10) (i : Fin 64) (v : W32) (c : Chip),
    let q := p.val
    let n := c.fld (SWX_Pp_GCL_CTL q) 10 0
    let cycle := (c.reg (SWX_Pp_CYCLE q)).toNat
    let base := c.reg64 (SWX_Pp_BASE_LO q)
    let g := c.gclOf q
    let bad := n = 0 ∨ 1024 < n ∨ cycle < 1000 ∨ 1000000000 < cycle ∨ c.bit (SWX_Pp_GCL_CTL q) 31 = false
    let listed : GclCfg := ⟨c.adminList q n, base, cycle, (c.reg (SWX_Pp_CYCLEEXT q)).toNat⟩
    let pend := fun t => (c.setGcl q { g with pending := some ⟨listed, t, c.ltNs⟩ }).done
    let late := c.lt + 2000 * 65536
    (bad → Does (.gateListChange m p v) c (c.flag (SWX_Pp_GCL_STAT q) 29 215).done) ∧
    (¬bad → late < base * 65536 → Does (.gateListChange m p v) c (pend base)) ∧
    (¬bad → base * 65536 ≤ late →
      Does (.gateListChange m p v) c (pend (base + ((late / 65536 - base) / cycle + 1) * cycle))) ∧
    (g.pending = none → Does (.gateListChangeTime p) c c) ∧
    (∀ k t asked, g.pending = some ⟨k, t, asked⟩ →
      (c.ltNs < t → Does (.gateListChangeTime p) c c) ∧
      (t ≤ c.ltNs → Does (.gateListChangeTime p) c (gateEntryStart ((c.operList q k).raise 214 0) q)) ∧
      (∀ e, e < k.entries.length → (c.operList q k).entry 8 (q * 1024 + e) =
        (let x := k.entries.getD e ⟨0, 0, 0⟩
         [w32 (at_ x.op 28 + x.gates), w32 x.interval, 0, 0, 0, 0, 0, 0])) ∧
      (c.operList q k).gclOf q = { g with oper := some k, pending := none, started := false }) ∧
    (c.bit (SWX_Pp_GCL_CTL q) 31 = false → Does (.gateEntryStart p) c c) ∧
    (c.bit (SWX_Pp_GCL_CTL q) 31 = true → ∀ r e, g.position c.ltNs = some (r, e) →
      (g.started = true → g.cycle = r → g.entry = e → Does (.gateEntryStart p) c c) ∧
      (g.started = false → 8 ≤ q → ∀ k, g.oper = some k →
        let s := c.settle q
        s.gclOf q = g → Does (.gateEntryStart p) c (s.setGcl q { g with
          cycle := r, entry := e, started := true, since := c.lt
          gates := (k.entries.getD e ⟨0, 0, 0⟩).gates, hold := false }))) ∧
    (let s := c.sgateOf i.val
     let begins := fun (words : List W32) n (x : Nat × Nat) =>
       let w := c.entryWord 6 (i.val * 64 + x.1) 0
       c.setSgate i.val ⟨words, n, x.1, true, x.2, (c.entryWord 6 (i.val * 64 + x.1) 1).toNat, wbit w 31,
         if wbit w 30 then some (wfld w 26 24) else none⟩
     let words := c.entry 5 i.val
     let from_ := join64 (words.getD 1 0) (words.getD 0 0)
     let cyc := (words.getD 2 0).toNat
     let start := from_ + (c.ltNs - from_) / cyc * cyc
     let runs := s.started = true ∧ ∃ x, c.sgateCycle s.ctrl = some x ∧ x.1 = s.cycle
     let last := wfld (s.ctrl.getD 3 0) 6 0 - 1
     (runs → (c.ltNs < s.start + s.length ∨ last ≤ s.entry) → Does (.streamGateEntry i) c c) ∧
     (runs → s.start + s.length ≤ c.ltNs → s.entry < last → Does (.streamGateEntry i) c
       (begins s.ctrl s.cycle (c.sgateWalk i.val (s.entry + 1) (s.start + s.length) (last - s.entry - 1)))) ∧
     (¬runs → wbit (words.getD 3 0) 31 = false → Does (.streamGateEntry i) c
       (c.setSgate i.val { SGate.reset with ctrl := words })) ∧
     (¬runs → wbit (words.getD 3 0) 31 = true →
       ((c.ltNs < from_ ∨ cyc = 0) → Does (.streamGateEntry i) c
         (c.setSgate i.val { s with ctrl := words, started := false })) ∧
       (from_ ≤ c.ltNs → cyc ≠ 0 → Does (.streamGateEntry i) c
         (begins words ((c.ltNs - from_) / cyc) (c.sgateWalk i.val 0 start (wfld (words.getD 3 0) 6 0 - 1))))) ∧
     (∀ e at_ left, c.sgateWalk i.val e at_ (left + 1) =
       if at_ + (c.entryWord 6 (i.val * 64 + e) 1).toNat ≤ c.ltNs then
         c.sgateWalk i.val (e + 1) (at_ + (c.entryWord 6 (i.val * 64 + e) 1).toNat) left else (e, at_)))

/-- R164, R165: table operations. With no operation running, each starts one that ends with the RESULT of the
table, index and words it was given, and has its effect on the data words or on the entry at once; while one runs a
command changes nothing; and the end clears BUSY, sets DONE with the RESULT and raises source 221. -/
def Obligations.TableOperationsFollowR164 : Prop :=
  ∀ (m : Master) (t : Fin 16) (i : Fin 65536) (c : Chip),
    let e := c.tblData
    let k := keyOf e
    let ends := fun (d : Chip) r j => (d.tblStart r j).done
    (c.swx.tblOp ≠ none →
      Does (.tableRead m t i) c c.done ∧ Does (.tableWrite m t i) c c.done ∧
      Does (.tableSearch m t i) c c.done ∧ Does (.tableClear m t i) c c.done) ∧
    (c.swx.tblOp = none →
      (12 ≤ t.val → Does (.tableRead m t i) c (ends c 3 i.val) ∧ Does (.tableWrite m t i) c (ends c 3 i.val) ∧
        Does (.tableClear m t i) c (ends c 3 i.val)) ∧
      (t.val < 12 → tableSize t.val ≤ i.val → Does (.tableRead m t i) c (ends c 2 i.val) ∧
        Does (.tableWrite m t i) c (ends c 2 i.val) ∧ Does (.tableClear m t i) c (ends c 2 i.val)) ∧
      (i.val < tableSize t.val →
        Does (.tableRead m t i) c (ends (c.setTblData (c.entry t.val i.val)) 0 i.val) ∧
        (t.val ≠ 8 → Does (.tableClear m t i) c (ends (c.setEntry t.val i.val zeroEntry) 0 i.val)) ∧
        (t.val = 8 → Does (.tableClear m t i) c (ends c 3 i.val) ∧ Does (.tableWrite m t i) c (ends c 3 i.val)) ∧
        (t.val ≠ 0 → t.val ≠ 8 → entryValid t.val e = false → Does (.tableWrite m t i) c (ends c 4 i.val)) ∧
        (t.val ≠ 0 → t.val ≠ 4 → t.val ≠ 8 → t.val ≠ 9 → entryValid t.val e = true → Does (.tableWrite m t i) c
          (ends (c.setEntry t.val i.val (maskEntry t.val (c.entry t.val i.val) e)) 0 i.val)) ∧
        (t.val = 0 → bucketOf k.1 k.2 ≠ i.val / 4 → Does (.tableWrite m t i) c (ends c 2 i.val)) ∧
        (t.val = 0 → bucketOf k.1 k.2 = i.val / 4 →
          (1 < bitCount (e.getD 2 0) 10 → Does (.tableWrite m t i) c (ends c 4 i.val)) ∧
          (bitCount (e.getD 2 0) 10 ≤ 1 → Does (.tableWrite m t i) c
            (ends (c.setEntry 0 i.val (maskEntry 0 (c.entry 0 i.val) e)) 0 i.val)))) ∧
      (1 < t.val → Does (.tableSearch m t i) c (ends c 3 i.val)) ∧
      (t.val ≤ 1 →
        let hit := if t.val = 0 then c.fdbDynamic k.1 k.2 else c.fdbStatic k.1 k.2
        (hit = none → Does (.tableSearch m t i) c (ends c 1 i.val)) ∧
        (∀ j, hit = some j → Does (.tableSearch m t i) c (ends (c.setTblData (c.entry t.val j)) 0 j))) ∧
      Does .tableOpDone c c) ∧
    (∀ r j, c.swx.tblOp = some (r, j) → Does .tableOpDone c
      (({ c.setReg SWX_TBL_STAT (w32 (0x40000000 + at_ r 16 + j)) with
          swx := { c.swx with tblOp := none } }).raise 221 0))

/-- R141 to R143, R150, R158, R160 to R163, R254. HOST_PORT_PECK_GRANT: an offered frame waits until its pecks are
free, and then is taken into the buffer, linked into the queues of its ports and ends its descriptor, or ends it
dropped. LEDGER_SNAPSHOT and LEDGER_LATCH: the request, and the latch of free and used pecks. QUEUE_SCRUB: nothing
before SWX_SCRUB has passed. RECOVERY_RESET_TIMEOUT: a recovery function whose RESET has passed takes the next frame
whatever its number. SLOT_WINDOW_OPEN: a slot whose window opens with no frame of its own gets a null frame at the
head of its queue. QUEUE_FLUSH and FLUSH_DONE: the copies of the chosen queues are unlinked and counted. -/
def Obligations.SwitchBookkeeping : Prop :=
  ∀ (m : Master) (sp : Fin 2) (f k : Fin 256) (v : W32) (c : Chip),
    let port := 8 + sp.val
    let offer := tblGet none c.rq.offers port
    let latched := fun balanced => ((((({ c with swx := { c.swx with ledgerReq := false } } : Chip).setReg
      SWX_LEDGER_FREE (w32 c.pecksFree)).setReg SWX_LEDGER_QUEUED (w32 c.pecksQueued)).setReg
      SWX_LEDGER_TRANSIT (w32 (c.pecksUsed - c.pecksQueued))).setBit SWX_LEDGER 30 true).setBit SWX_LEDGER 29 balanced
    let rec_ := tblGet .reset c.swx.recovs f.val
    let resets := c.incEntry 9 f.val 7
    let w0 := c.entryWord 11 k.val 0
    let slotP := wfld w0 26 24
    let slotC := wfld w0 22 20
    let g := c.gclOf slotP
    let opens := ∃ l x, g.oper = some l ∧ l.entries[wfld w0 9 0]? = some x ∧ nbit x.gates slotC = true
    let now := g.started = true ∧ g.entry = wfld w0 9 0 ∧ c.slotEmpty k.val slotP = true
    let seen : Chip := { c with swx := { c.swx with slotSeen := tblSet 0 c.swx.slotSeen k.val (g.since + 1) } }
    let nulls := wbit w0 30 = true ∧ c.bit SWX_SCHED_CTL 31 = true ∧ c.linkUp slotP = true ∧ 0 < c.pecksFree ∧ 0 < c.qdFree
    let flush := v ||| 0x80000000
    let kept := c.setFld SWX_FLUSH 11 0 (wfld flush 11 0)
    (offer = none → Does (.hostPortPeckGrant sp) c c) ∧
    (∀ o, offer = some o →
      let q := parseFrame o.data 0
      let w := fun i => o.words.getD i 0
      let req : TxReq :=
        ⟨wbit (w 0) 20, wbit (w 0) 21, wfld (w 0) 23 22, wfld (w 3) 31 16, wfld (w 3) 15 0, wfld (w 1) 31 16⟩
      let need := c.offerPecks port o.data q.vid
      let c0 := c.setOffer port none
      let goes := (List.range 10).foldl (fun n x =>
        if nbit (c.tqPorts port (w 0) (w 1) o.data) x && c.portUp x then n + 2 ^ x else n) 0
      (c.pecksFree < need → Does (.hostPortPeckGrant sp) c c) ∧
      (need ≤ c.pecksFree →
        (∀ d, c0.generate port o.data q req = (none, d) →
          Does (.hostPortPeckGrant sp) c (d.tqEnd o.tq o.desc 3)) ∧
        (∀ data sent d, c0.generate port o.data q req = (some (data, sent), d) →
          let held := d.admitFrame ⟨data, data.length + 4, port, none, c.lt⟩
          ∀ any e, held.2.linkAll goes held.1 (wfld (w 0) 18 16) q.vid (q.tagged && wbit (w 0) 19) sent
              (if wbit (w 0) 24 then some (wfld (w 1) 15 8) else none) = (any, e) →
            Does (.hostPortPeckGrant sp) c
              ((Chip.poolMarks c0 (e.release held.1)).tqEnd o.tq o.desc (if any then 0 else 3))))) ∧
    Does .ledgerSnapshot c ({ c with swx := { c.swx with ledgerReq := true } }.setBit SWX_LEDGER 30 false).done ∧
    (c.swx.ledgerReq = false → Does .ledgerLatch c c) ∧
    (c.swx.ledgerReq = true → c.pecksUsed ≤ 12288 → Does .ledgerLatch c (latched true)) ∧
    (c.swx.ledgerReq = true → 12288 < c.pecksUsed →
      Does .ledgerLatch c ((latched false).flag SWX_FLAGS 0 208)) ∧
    (let due := c.bit SWX_CTL 8 = true ∧ c.swx.scrubAt + (c.reg SWX_SCRUB).toNat * 65536000 ≤ c.lt
     (¬due → Does .queueScrub c c) ∧
     (due → (∀ p cls x rest, c.queue p cls = x :: rest → c.aged x = false) →
       Gives .queueScrub c fun d => d = { c with swx := { c.swx with credits := d.swx.credits, scrubAt := c.lt } })) ∧
    (let due := wbit (c.entryWord 9 f.val 0) 31 = true ∧ rec_.takeAny = false ∧
       (c.entryWord 9 f.val 1).toNat * 65536000 < c.lt - rec_.last
     (due → Does (.recoveryResetTimeout f) c (({ resets with swx := { resets.swx with
       recovs := tblSet .reset resets.swx.recovs f.val ⟨true, 0, [], c.lt⟩ } }).raise 219 0)) ∧
     (¬due → Does (.recoveryResetTimeout f) c c)) ∧
    (wbit w0 31 = false → Does (.slotWindowOpen k) c c) ∧
    (wbit w0 31 = true →
      (¬opens → Does (.slotWindowOpen k) c (c.flag (SWX_Pp_GCL_STAT slotP) 29 215)) ∧
      (opens → ¬now → Does (.slotWindowOpen k) c c) ∧
      (opens → now → ¬nulls → Does (.slotWindowOpen k) c seen) ∧
      (opens → now → nulls → Does (.slotWindowOpen k) c (seen.placeNull k.val slotP slotC))) ∧
    (c.swx.flush ≠ none → Does (.queueFlush m v) c kept.done) ∧
    (c.swx.flush = none → ∀ n d, kept.flushQueues (wfld flush 11 8) (wfld flush 7 0) = (n, d) →
      Does (.queueFlush m v) c ({ d with swx := { d.swx with flush := some n } }.setBit SWX_FLUSH 30 true).done) ∧
    (c.swx.flush = none → Does .flushDone c c) ∧
    (∀ n, c.swx.flush = some n → Does .flushDone c
      ((({ c with swx := { c.swx with flush := none } }.setBit SWX_FLUSH 30 false).setReg SWX_CNT_FLUSHED
        (w32 (satTo 0xFFFFFFFF ((c.reg SWX_CNT_FLUSHED).toNat + n)))).raise 220 0))

/-- R148: one second of the forwarding database. Each valid dynamic entry that reaches SWX_FDB_AGE is removed, unless
that register is 0, each other valid one is a second older up to 65535 s, and every other entry of every table, every
register and every byte of memory stays. -/
def Obligations.FdbAgesOnceASecond : Prop :=
  ∀ c : Chip, (c.entriesOf 0).Nodup → let lim := (c.reg SWX_FDB_AGE).toNat
    Gives .fdbAgeTick c fun d =>
      d = { c with swx := { c.swx with tables := d.swx.tables } } ∧
      (∀ t i, t ≠ 0 → i < 65536 → d.entry t i = c.entry t i) ∧
      ∀ i, i < 65536 →
        let age := wfld (c.entryWord 0 i 3) 15 0 + 1
        (wbit (c.entryWord 0 i 2) 31 = false → d.entry 0 i = c.entry 0 i) ∧
        (wbit (c.entryWord 0 i 2) 31 = true →
          (lim ≠ 0 → lim ≤ age → d.entry 0 i = zeroEntry) ∧
          ((lim = 0 ∨ age < lim) → d.entry 0 i = (c.entry 0 i).set 3 (w32 (min 65535 age))))

/-! ### CAN channels (chapter 06) -/

/-- R174, R176, R179, R181, R185, R188, R190, R194, R199, R204: a channel's commands by registers. Enabling starts
integration, which ends with synchronisation starting over, and disabling ends it or waits for the end of the frame on
the bus; an object is requested, cancelled or cleared, or the request is refused; the ring gives up entries; a channel
in bus-off starts recovery, counts its sequences and ends it at 128; and a mode is made valid, asked for, or resumed
from level S3, or refused. -/
def Obligations.CanCommandsTakeEffect : Prop :=
  ∀ (m : Master) (n : Fin 4) (o : Fin 128) (k : Fin 4) (more : Fin 129) (v : W32) (c : Chip),
    let ch := n.val
    let x := c.canOf ch
    let stat := CANn_STAT ch
    let obj := canObj ch o.val
    let en := c.bit (CANn_CTL ch) 31
    let set := c.setReg (CANn_CTL ch) ((v ||| 0x80000000) &&& 0xFF0E3000)
    let off := c.setBit (CANn_CTL ch) 31 false
    let refused := (c.setBit (CANn_FLAGS ch) 0 true).done
    let s := c.objState ch o.val
    let w0 := c.reg (obj 0)
    let can := s ≠ 1 ∧ s ≠ 2 ∧ s ≠ 5 ∧ wbit w0 30 = true ∧ wbit w0 31 = true ∧ c.fmtOn ch (wfld w0 29 28) = true
    let count := c.fld (CANn_RING_STAT ch) 24 16
    let pops := min (wfld v 8 0) count
    let mode := wfld (v ||| 0x80000000) 1 0
    (en = false → (wbit v 17 = false ∨ c.bit (CANn_TT_CFG ch) 31 = true) →
      Does (.canEnable m n v) c (set.setCan ch { x with integrating := true, leaving := false }).done) ∧
    (en = false → wbit v 17 = true → c.bit (CANn_TT_CFG ch) 31 = false → Does (.canEnable m n v) c
      ((set.setBit (CANn_FLAGS ch) 2 true).setCan ch { x with integrating := true, leaving := false }).done) ∧
    (en = true → Does (.canEnable m n v) c c.done) ∧
    (en = false → (wbit v 17 = false ∨ c.bit (CANn_TT_CFG ch) 31 = true) →
      Does (.canDisable m n v) c (c.setReg (CANn_CTL ch) ((v &&& 0x7FFFFFFF) &&& 0xFF0E3000)).done) ∧
    (en = false → wbit v 17 = true → c.bit (CANn_TT_CFG ch) 31 = false → Does (.canDisable m n v) c
      ((c.setReg (CANn_CTL ch) ((v &&& 0x7FFFFFFF) &&& 0xFF0E3000)).setBit (CANn_FLAGS ch) 2 true).done) ∧
    (en = true → (x.tx ≠ none ∨ c.bit stat 25 = true) →
      Does (.canDisable m n v) c (off.setCan ch { x with leaving := true, integrating := false }).done) ∧
    (en = true → x.tx = none → c.bit stat 25 = false →
      Does (.canDisable m n v) c ((off.setCan ch { x with integrating := false }).setBit stat 28 false).done) ∧
    (can → Does (.canRequest m n o) c
      (((c.setFld (obj 5) 31 24 0).setBit (obj 5) 8 false).setObjState ch o.val 1).done) ∧
    (¬can → Does (.canRequest m n o) c refused) ∧
    ((s = 1 ∨ s = 5) → Does (.canCancel m n o) c ((c.setObjState ch o.val 4).raise (224 + 8 * ch + 1) 0).done) ∧
    (∀ t, s = 2 → x.tx = some t → t.what = .object o.val →
      Does (.canCancel m n o) c (c.setCan ch { x with tx := some { t with late := true } }).done) ∧
    (s = 2 → (∀ t, x.tx = some t → t.what ≠ .object o.val) → Does (.canCancel m n o) c c.done) ∧
    (s ≠ 1 → s ≠ 2 → s ≠ 5 → Does (.canCancel m n o) c c.done) ∧
    Does (.canClearnew m n o) c ((c.setBit (obj 5) 11 false).setBit (obj 5) 12 false).done ∧
    Does (.canRingPop m n v) c
      (((c.setFld (CANn_RING_STAT ch) 24 16 (count - pops)).setFld (CANn_RING_STAT ch) 7 0
        (c.fld (CANn_RING_STAT ch) 7 0 + pops)).setCan ch { x with slots := x.slots.drop pops }).done ∧
    (wbit v 1 = false →
      (c.fld stat 31 30 = 2 → c.bit stat 29 = false →
        Does (.canRecover m n v) c ((c.setBit stat 29 true).setFld stat 15 8 0).done) ∧
      ((c.fld stat 31 30 ≠ 2 ∨ c.bit stat 29 = true) → Does (.canRecover m n v) c c.done)) ∧
    (c.fld stat 31 30 = 2 → c.bit stat 29 = true →
      let on := (((((c.setReg (CANn_ERRCNT ch) 0).setBit stat 29 false).setFld stat 15 8 128).setFld
        stat 31 30 0).raise (224 + 8 * ch + 2) 0)
      let count := c.fld stat 15 8 + more.val
      (count < 128 → Does (.canBusoffRecovered ⟨n, more⟩) c (c.setFld stat 15 8 count)) ∧
      (128 ≤ count → Does (.canBusoffRecovered ⟨n, more⟩) c
        ((List.range 128).foldl (fun d i => if d.objState ch i = 5 then d.setObjState ch i 1 else d) on))) ∧
    ((c.fld stat 31 30 ≠ 2 ∨ c.bit stat 29 = false) → Does (.canBusoffRecovered ⟨n, more⟩) c c) ∧
    (x.integrating = true → en = true → Does (.canIntegrationComplete n) c
      (((c.setCan ch { x with integrating := false }).setBit stat 28 true).ttRestart ch)) ∧
    ((x.integrating = false ∨ en = false) → Does (.canIntegrationComplete n) c c) ∧
    (c.modeHeld ch k.val = true → Does (.canModeValidate m n k v) c c.refuse) ∧
    (c.modeHeld ch k.val = false → c.modeOk ch (v ||| 0x80000000) = false →
      Does (.canModeValidate m n k v) c (c.setBit (CANn_FLAGS ch) 2 true).done) ∧
    (c.modeHeld ch k.val = false → c.modeOk ch (v ||| 0x80000000) = true →
      Does (.canModeValidate m n k v) c (c.setReg (CANn_TT_MODE ch k.val) ((v ||| 0x80000000) &&& 0x87FF01FF)).done) ∧
    (wbit v 0 = false → c.fld (CANn_TT_STAT ch) 31 30 ≠ 3 →
      Does (.canTtresume m n v) c (c.setFld (CANn_TT_STAT ch) 31 30 0).done) ∧
    (wbit v 0 = false → c.fld (CANn_TT_STAT ch) 31 30 = 3 →
      Does (.canTtresume m n v) c ((c.setFld (CANn_TT_STAT ch) 31 30 0).ttRestart ch).done) ∧
    (∀ d : Chip, let lost := if d.ttSynced ch
        then (d.setBit (CANn_TT_STAT ch) 29 false).raise (224 + 8 * ch + 5) 0 else d
      d.ttRestart ch = (lost.setBit (CANn_TT_STAT ch) 28 false).setCan ch { lost.canOf ch with
        mark := d.lt, refs := 0, rateNum := 0, rateDen := 0, fired := [], arb := none, checks := [], wait := none
        advanced := false, matrixStart := false, committed := false, commitTo := none, masterPrio := none }) ∧
    ((c.ttMaster ch = false ∨ c.ttPhase ch ≠ 0 ∨ x.modeReq ≠ none ∨ c.modeValid ch mode = false) →
      Does (.canModeRequest m n v) c refused) ∧
    (c.ttMaster ch = true → c.ttPhase ch = 0 → x.modeReq = none → c.modeValid ch mode = true →
      (mode = c.ttMode ch → Does (.canModeRequest m n v) c c.done) ∧
      (mode ≠ c.ttMode ch → Does (.canModeRequest m n v) c (c.setCan ch { x with modeReq := some mode }).done))

/-- R180: outside time-triggered operation a channel that may send and whose guardian is off commits, of its pending
transmit objects in enabled formats, the one whose arbitration field is smallest, the lowest object number among equal
ones, and makes it ACTIVE; where none is pending nothing changes. -/
def Obligations.CanSendsTheArbitrationWinner : Prop :=
  ∀ (n : Fin 4) (c : Chip), c.canMay n.val = true → c.ttRuns n.val = false → c.bit (CANn_GD_CTL n.val) 31 = false →
    let ch := n.val
    let pending := fun k => k < 128 ∧ c.objState ch k = 1 ∧ wbit (c.reg (canObj ch k 0)) 30 = true ∧
      c.fmtOn ch (wfld (c.reg (canObj ch k 0)) 29 28) = true
    let prio := fun k => (c.objFrame ch k).priority
    ((∀ k, ¬pending k) → Does (.canFrameCommit n) c c) ∧
    ∀ k, pending k → (∀ j, pending j → prio k < prio j ∨ (prio k = prio j ∧ k ≤ j)) →
      Does (.canFrameCommit n) c
        (((c.setObjState ch k 2).setCan ch { c.canOf ch with
          tx := some ⟨.object k, c.objFrame ch k, c.lt, false, none, false⟩, erred := none, wait := none }).setBit (CANn_STAT ch) 26 true)

/-- R170, R172, R181 to R184, R186, R187, R191, R193, R200, R202: frames on the bus. An attempt that loses arbitration
ends, and the channel goes on as a receiver; a data phase that the channel sends shows a transmitter delay, which the
model leaves free (log entry 143); a frame that completes takes 1 from the transmit error count and ends its object,
and under LOOP the channel receives it (PRESUMED, log entry 45); an error is recorded and counted by its kind, for the
sender of the frame or of its error flag at TEC and for a receiver at REC, and bus-off leaves the object
PENDING_BUSOFF; an XL payload is read in 64-byte units; a frame received takes 1 from the receive error count, is
stored by the ring, and is taken by a receive-check window for its object; one in a format that is not enabled sends
the channel back to integration; the guardian's decoder hears every reference message; and a reference or veto is
received as any other frame where time-triggered operation does not run. -/
def Obligations.CanFramesOnTheBus : Prop :=
  ∀ (n : Fin 4) (u : Fin 32) (e : CanError) (f : CanFrame) (age : Nat) (c : Chip),
    let ch := n.val
    let x := c.canOf ch
    let stat := CANn_STAT ch
    let sof := c.lt - age
    let measured := fun d : Chip => if d.bit (CANn_TDC ch) 31
      then d.takeFree.2.setFld (CANn_TDC ch) 7 0 d.takeFree.1 else d
    let logged := (if e.data && x.tx.isSome then measured c else c).setReg (CANn_LASTERR ch)
      (w32 (at_ (b2n e.data) 3 + e.code % 8))
    let tec := c.tec ch
    let rx := c.recCount ch
    let flagged := logged.setCounters ch (tec + 8) rx
    let loop := c.fld (CANn_CTL ch) 13 12 = 1 ∨ c.fld (CANn_CTL ch) 13 12 = 2
    let heard := c.guardHears ch f sof
    let rcvd := if rx ≤ 127 then heard.setCounters ch tec (rx - 1)
      else heard.takeFree.2.setCounters ch tec (119 + heard.takeFree.1 % 9)
    (x.tx = none → Does (.canArbitrationLoss n) c c ∧ Does (.canTxComplete n) c c ∧ Does (.canXlPayloadRead n u) c c) ∧
    (∀ t, x.tx = some t →
      let lost := (c.attemptFailed ch t false true).canFrameEnd ch
      (x.leaving = false → Does (.canArbitrationLoss n) c (lost.setBit stat 25 true)) ∧
      (x.leaving = true → Does (.canArbitrationLoss n) c
        (((lost.setCan ch { lost.canOf ch with leaving := true }).setBit stat 28 true).setBit stat 25 true))) ∧
    (∀ t k, x.tx = some t → t.what = .object k → t.exclusive = false → c.ttRuns ch = false →
      let own := c.guardHears ch t.frame t.sof
      let counted := (if t.frame.fmt = 2 ∨ (t.frame.fmt = 1 ∧ t.frame.brs = true) then measured own else own).setCounters
        ch (tec - 1) rx
      let late := if t.late then counted.setBit (canObj ch k 5) 8 true else counted
      let ended := ((late.setReg (canObj ch k 6) (w32 (t.sof / 65536 % 2 ^ 32))).setObjState ch k 3).raise
        (224 + 8 * ch + 1) 0
      (loop → Does (.canTxComplete n) c ((ended.canReceive ch t.frame t.sof true).canFrameEnd ch)) ∧
      (¬loop → c.bit (CANn_RING_CTL ch) 30 = true →
        Does (.canTxComplete n) c ((ended.ringStore ch t.frame t.sof true).canFrameEnd ch)) ∧
      (¬loop → c.bit (CANn_RING_CTL ch) 30 = false → Does (.canTxComplete n) c (ended.canFrameEnd ch))) ∧
    ((c.bit stat 28 = false ∨ c.fld stat 31 30 = 2) → Does (.canBusError n e) c c) ∧
    (c.bit stat 28 = true → c.fld stat 31 30 ≠ 2 →
      (x.tx = none →
        (e.kind = .exempt → Does (.canBusError n e) c ((logged.setCounters ch tec rx).canQuiet ch)) ∧
        (e.kind = .frame → Does (.canBusError n e) c ((logged.setCounters ch tec (rx + 1)).canQuiet ch))) ∧
      (x.tx ≠ none →
        (e.kind = .exempt → Does (.canBusError n e) c (logged.txFails ch tec rx)) ∧
        (e.kind = .frame → Does (.canBusError n e) c (logged.txFails ch (tec + 8) rx))) ∧
      (x.tx = none → x.erred = none →
        (e.kind = .dominantAfterFlag ∨ e.kind = .flagBit ∨ e.kind = .dominantRun) →
        Does (.canBusError n e) c (logged.setCounters ch tec (rx + 8))) ∧
      ((x.tx ≠ none ∨ x.erred ≠ none) →
        (e.kind = .dominantAfterFlag → Does (.canBusError n e) c logged) ∧
        ((e.kind = .flagBit ∨ e.kind = .dominantRun) →
          (flagged.fld stat 31 30 ≠ 2 → Does (.canBusError n e) c flagged) ∧
          (flagged.fld stat 31 30 = 2 →
            (∀ t, x.tx = some t → Does (.canBusError n e) c ((flagged.attemptFailed ch t true false).canFrameEnd ch)) ∧
            (x.tx = none → ∀ k, x.erred = some (.object k) → flagged.objState ch k = 1 →
              Does (.canBusError n e) c (flagged.setObjState ch k 5)))))) ∧
    (∀ t k, x.tx = some t → t.what = .object k → t.frame.fmt = 2 → wbit (c.reg (canObj ch k 0)) 24 = true →
      64 * u.val < canLen 2 (c.reg (canObj ch k 2)) →
      (x.frozen ≠ none → Does (.canXlPayloadRead n u) c (c.xlFails ch t)) ∧
      (x.frozen = none → ∀ bs d,
        c.dmaRead (c.fld (CANn_OWNER ch) 3 0) (c.fld (canObj ch k 4) 31 6 * 64 + 64 * u.val)
          (min 64 (canLen 2 (c.reg (canObj ch k 2)) - 64 * u.val)) = (.ok bs, d) →
        Does (.canXlPayloadRead n u) c (d.setCan ch { d.canOf ch with
          tx := some { t with frame := { t.frame with payload := t.frame.payload.take (64 * u.val) ++ bs } } }))) ∧
    (c.canHears ch = false → Does (.canRxFrame n f ⟨true, age⟩) c c ∧ Does (.canRxFrame n f ⟨false, age⟩) c heard ∧
      Does (.canReferenceReceived n f age) c heard ∧ Does (.canVetoReceived n f age) c heard) ∧
    (c.canHears ch = true →
      Does (.canRxFrame n f ⟨true, age⟩) c ((c.setCan ch { x with erred := none }).setBit stat 25 true) ∧
      (c.fmtOn ch f.fmt = false →
        let out := ((heard.setCan ch { heard.canOf ch with integrating := true }).setBit stat 28 false).setBit stat 25 false
        Does (.canRxFrame n f ⟨false, age⟩) c out ∧ Does (.canReferenceReceived n f age) c out ∧
        Does (.canVetoReceived n f age) c out) ∧
      (c.fmtOn ch f.fmt = true → c.ttRuns ch = false → x.checks = [] →
        let kept := rcvd.setCan ch { rcvd.canOf ch with checks := [], erred := none }
        let out := (kept.ringStore ch f sof false).canQuiet ch
        Does (.canRxFrame n f ⟨false, age⟩) c out ∧ Does (.canReferenceReceived n f age) c out ∧
        Does (.canVetoReceived n f age) c out) ∧
      (∀ w, x.checks = [w] → w.taken = false → c.lt < w.close + 819200 → c.fmtOn ch f.fmt = true → rx = 0 →
        c.bit (CANn_RING_CTL ch) 31 = false → fcsOf tec 0 = c.fld stat 31 30 →
        c.isReference ch f = false → c.isVeto ch f = false →
        (c.objFrame ch w.obj).fmt = f.fmt → (c.objFrame ch w.obj).ide = f.ide → (c.objFrame ch w.obj).id = f.id →
        w.obj < 128 → Gives (.canRxFrame n f ⟨false, age⟩) c fun d =>
          d.objState ch w.obj = 9 ∧ d.bit (canObj ch w.obj 5) 11 = true ∧
          d.reg (canObj ch w.obj 6) = w32 (sof / 65536 % 2 ^ 32) ∧
          d.canOf ch = { x with checks := [{ w with taken := true }], erred := none, leaving := false }))

/-- R189 to R197, R199, R201 to R203: time-triggered operation and the guardian. A trigger that is not due changes
nothing. A due one opens its window, raises the error level, or starts a frame, a null frame or a reference where the
channel may send; where the bus is not idle an exclusive frame waits, and a frame that waited before it, one that may
not start any more, and a receive window that ends untaken raise their object's status count. A master advances the
mode agreement at a matrix cycle's start, other channels put a committed mode into force there, and the guardian's
output follows its windows. When a potential master that is not the master sends is ISO 11898-4's (PRESUMED, log entry
32), and a frame in a format that is not enabled is not sent (DESIGN CHOICE, log entry 35). -/
def Obligations.CanTimeTriggeredOperation : Prop :=
  ∀ (n : Fin 4) (j : Fin 256) (b : Bool) (c : Chip),
    let ch := n.val
    let x := c.canOf ch
    let w0 := c.reg (canTrig ch j.val 0)
    let w1 := c.reg (canTrig ch j.val 1)
    let o := wfld w1 22 16
    let fired := { x with fired := j.val :: x.fired }
    let e := match x.wait with
      | none => c.setCan ch fired
      | some w => ((c.setCan ch fired).setCan ch { fired with wait := none }).mscUp ch w.obj
    let time := wfld w0 31 16
    let close := x.mark + (time + wfld w1 15 0) * c.ntu ch
    let window := max 1 (min (c.fld (CANn_TT_CFG ch) 15 8) 16)
    let unguarded := c.bit (CANn_GD_CTL ch) 31 = false
    let sent := fun (d d1 : Chip) what (f : CanFrame) till excl =>
      (d1.setCan ch { d.canOf ch with tx := some ⟨what, f, c.lt, false, till, excl⟩, erred := none, wait := none }).setBit
        (CANn_STAT ch) 26 true
    let enabled := c.fmtOn ch (c.objFrame ch o).fmt = true
    let pending := c.objState ch o = 1
    let null := wbit w1 30 = true
    let sends := c.ttRuns ch = true ∧ c.bit (CANn_TT_CFG ch) 31 = true ∧ c.canMay ch = true ∧
      c.modeValid ch (c.ttMode ch) = true ∧ c.fmtOn ch (b2n (c.bit (CANn_TT_CFG ch) 27)) = true
    let prio := c.fld (CANn_TT_CFG ch) 30 28
    let delay := if c.ttMaster ch = true ∨ ∃ q, x.masterPrio = some q ∧ prio < q then 0 else prio
    let mark := c.global128 ch
    let adv := c.advanceMatrix ch
    let matrix := x.refs = 0 ∨ c.matrixLen ch (c.ttMode ch) ≤ c.ttCycle ch + 1
    let advanced := (c.setCan ch { x with advanced := true, matrixStart := false }).raise (224 + 8 * ch + 4) 0
    (c.trigDue ch j.val 2 = false → Does (.canExclusiveTrigger n j b) c c) ∧
    (c.trigDue ch j.val 3 = false → Does (.canArbitratingTrigger n j) c c) ∧
    (c.trigDue ch j.val 4 = false → Does (.canReceiveCheckTrigger n j) c c) ∧
    (c.trigDue ch j.val 5 = false → Does (.canWatchTrigger n j) c c) ∧
    (c.trigDue ch j.val 2 = true →
      (pending → enabled → e.canMay ch = true → unguarded → Does (.canExclusiveTrigger n j true) c
        (sent e (e.setObjState ch o 2) (.object o) (c.objFrame ch o) (some close) true)) ∧
      (¬pending → null → enabled → e.canMay ch = true → unguarded → Does (.canExclusiveTrigger n j true) c
        (sent e (e.setBit (canObj ch o 5) 9 true) (.null o) (c.objFrame ch o).asNull (some close) true)) ∧
      ((pending ∨ null) → enabled → (b = false ∨ e.canMay ch = false) → Does (.canExclusiveTrigger n j b) c
        (e.setCan ch { e.canOf ch with
          wait := some ⟨o, !(c.objState ch o == 1), x.mark + (time + window) * c.ntu ch, close⟩ })) ∧
      (((¬pending ∧ ¬null) ∨ ¬enabled) → Does (.canExclusiveTrigger n j b) c (e.mscUp ch o))) ∧
    (c.trigDue ch j.val 3 = true → Does (.canArbitratingTrigger n j) c
      ((c.setCan ch fired).setCan ch { fired with arb := some ⟨0, close, false⟩ })) ∧
    (c.trigDue ch j.val 4 = true → Does (.canReceiveCheckTrigger n j) c
      ((c.setCan ch fired).setCan ch { fired with checks := x.checks ++ [⟨o, close, false⟩] })) ∧
    (c.trigDue ch j.val 5 = true → Does (.canWatchTrigger n j) c ((c.setCan ch fired).ttLevel ch 3)) ∧
    (¬sends → Does (.canReferenceTrigger n b) c c) ∧
    (sends → x.advanced = false → c.gatewayOn ch = false →
      (c.basicCycle ch = none → Does (.canReferenceTrigger n b) c c) ∧
      (∀ len, c.basicCycle ch = some len →
        (c.lt - x.mark < (len + delay) * c.ntu ch → Does (.canReferenceTrigger n b) c c) ∧
        ((len + delay) * c.ntu ch ≤ c.lt - x.mark → unguarded →
          (¬matrix → Does (.canReferenceTrigger n b) c
            (sent c c (.reference (c.ttCycle ch + 1) mark) (c.refFrame ch (c.ttCycle ch + 1) mark false) none false)) ∧
          (matrix → Does (.canReferenceTrigger n b) c
            (sent adv adv (.reference 0 mark) (adv.refFrame ch 0 mark false) none false))))) ∧
    (sends → x.advanced = true → c.gatewayOn ch = false → unguarded → Does (.canReferenceTrigger n b) c
      (sent c c (.reference 0 mark) (c.refFrame ch 0 mark false) none false)) ∧
    (x.wait = none → Does (.startWindowExpiry n) c c) ∧
    (∀ w, x.wait = some w →
      (w.deadline < c.lt → Does (.startWindowExpiry n) c ((c.setCan ch { x with wait := none }).mscUp ch w.obj)) ∧
      (c.lt ≤ w.deadline → Does (.startWindowExpiry n) c c)) ∧
    (let past := fun w : CanWindow => decide (w.close + 819200 ≤ c.lt)
     Does (.canReceiveWindowEnd n) c
       ((x.checks.filter fun w => past w && !w.taken).foldl (fun d w => d.mscUp ch w.obj)
         (c.setCan ch { x with checks := x.checks.filter fun w => !past w }))) ∧
    (c.ttRuns ch = false → Does (.canMatrixCycleStart n) c c) ∧
    (c.ttRuns ch = true → x.matrixStart = true →
      let begun := (c.setCan ch { x with
        matrixStart := false, commitTo := none
        vetoDue := if c.ttPhase ch = 1 then x.vetoDue else none }).raise (224 + 8 * ch + 4) 0
      (x.commitTo = none → Does (.canMatrixCycleStart n) c begun) ∧
      (∀ q, x.commitTo = some q → Does (.canMatrixCycleStart n) c
        (begun.setAgreement ch q (c.ttProp ch) (c.ttPhase ch) (c.ttSeq ch)))) ∧
    (c.ttRuns ch = true → x.matrixStart = false →
      (c.ttMaster ch = true → x.advanced = false → matrix → c.refDue ch = true →
        (c.ttPhase ch = 0 → x.modeReq = none → Does (.canMatrixCycleStart n) c advanced) ∧
        (∀ q, c.ttPhase ch = 0 → x.modeReq = some q → Does (.canMatrixCycleStart n) c
          ((advanced.setCan ch { x with advanced := true, matrixStart := false, modeReq := none, vetoSeen := false }).setAgreement
            ch (c.ttMode ch) q 1 (c.ttSeq ch + 1))) ∧
        (c.ttPhase ch = 1 → Does (.canMatrixCycleStart n) c
          (advanced.setAgreement ch (c.ttMode ch) (c.ttProp ch) (if x.vetoSeen then 3 else 2) (c.ttSeq ch))) ∧
        (c.ttPhase ch = 2 → Does (.canMatrixCycleStart n) c
          (advanced.setAgreement ch (c.ttProp ch) (c.ttProp ch) 0 (c.ttSeq ch))) ∧
        (c.ttPhase ch = 3 → Does (.canMatrixCycleStart n) c
          (advanced.setAgreement ch (c.ttMode ch) (c.ttProp ch) 0 (c.ttSeq ch)))) ∧
      ((c.ttMaster ch = false ∨ x.advanced = true ∨ ¬matrix ∨ c.refDue ch = false) →
        Does (.canMatrixCycleStart n) c c)) ∧
    (let shut := c.setBit (CANn_GD_STAT ch) 31 false
     (c.guardOpen ch = true → Does (.guardianWindow ⟨n, b⟩) c (c.setBit (CANn_GD_STAT ch) 31 true)) ∧
     (c.guardOpen ch = false → (unguarded ∨ x.tx = none) → Does (.guardianWindow ⟨n, b⟩) c shut) ∧
     (c.guardOpen ch = false → c.bit (CANn_GD_CTL ch) 31 = true → x.tx ≠ none → Does (.guardianWindow ⟨n, b⟩) c
       (((if b then shut.tdcMeasured ch else shut).setReg (CANn_LASTERR ch) (if b then 13 else 5)).txFails
         ch (c.tec ch + 8) (c.recCount ch))))

/-! ### Dwevel cores (chapter 07) -/

/-- R42, R231, R232, R234 to R236: which context issues, and what comes of a fetch. A stopped SUP and a core with no
context that may issue change nothing; a mismatch of SUP's lockstep pair stops it, or while the boot ROM runs is its
failure 3 (R492). A fetch outside the code segment freezes the core; one that the fabric refuses traps with FETCH, one
with an uncorrectable error with BUSERR (its TINFO is free: log entry 152), an illegal bundle with ILL: the bundle's
address in TPC, the cause, TINFO, INTRAP set and the PC at TVEC, or a double trap that halts the context. -/
def Obligations.CoresIssueTheirBundles : Prop :=
  ∀ (core : Fin 11) (flight : Fin 256) (mm : Bool) (c : Chip),
    let n := core.val
    let may := fun y => y < ctxCount n ∧ ((c.ctx n y).st = .ready ∨ (c.ctx n y).inFlight = true) ∧
      flight.val.testBit y = false
    let runs := core ≠ 0 ∨ (c.core.supStopped = false ∧ mm = false)
    let stop := fun (d : Chip) => { d with core := { d.core with supStopped := true } }
    (core = 0 → c.core.supStopped = true → Does (.bundleExecute core flight mm) c c) ∧
    (core = 0 → c.core.supStopped = false →
      (c.romServes = false → Does (.bundleExecute core flight true) c (stop c)) ∧
      (c.romServes = true → Does (.bundleExecute core flight true) c (c.bootError 3))) ∧
    (runs → (∀ y, ¬may y) → Does (.bundleExecute core flight mm) c c) ∧
    (runs → ∀ x, may x → (c.ctx n x).inFlight = false → (∀ y, x < y → ¬may y) →
      let pc := (c.ctx n x).pc
      (∀ a d, c.fetch n (pc / 4 * 4) (longest n) [] = .segv a d →
        Does (.bundleExecute core flight mm) c (d.coreFreezes n x 16 a 4 4 false)) ∧
      ∀ cause info d,
        ((cause < 8 ∧ c.fetch n (pc / 4 * 4) (longest n) [] = .fault (.fault cause info) d) ∨
          (cause = 1 ∧ ∃ i ws, info = w32 i ∧ c.fetch n (pc / 4 * 4) (longest n) [] = .ok ws d ∧
            illegalSyll n ws = some i)) →
        let k := d.ctx n x
        let halted := d.setCtx n x { k.halted with tcause := w32 (0x80000000 + cause), tinfo := info }
        (wbit k.tstat 0 = false → k.tvec ≠ 0 → Does (.bundleExecute core flight mm) c (d.setCtx n x { k with
          tpc := w32 pc, tcause := w32 cause, tinfo := info, tstat := wsetBit k.tstat 0 true, pc := k.tvec.toNat })) ∧
        ((wbit k.tstat 0 = true ∨ k.tvec = 0) →
          (core = 0 → Does (.bundleExecute core flight mm) c (stop halted)) ∧
          (core = 1 ∨ core = 2 → Does (.bundleExecute core flight mm) c
            ((halted.taskEnd n x true).tskCause (8 + n)).tskRecovery) ∧
          (3 ≤ n → Does (.bundleExecute core flight mm) c
            (halted.flag (PE_PEn_EVCAUSE (n - 3)) 1 (24 + (n - 3))))))

/-- R213, R224, R227, R232 to R236: a legal bundle of a context. A misaligned access or target traps with ALIGN and
nothing of the bundle happens; a WAIT without its wake line waits, and one with it commits with the matching bits; a
bundle commits whole after its access; an access outside its segment freezes the core with nothing done; one that is
refused traps with its cause, and one whose outbound read has no answer yet keeps the bundle in flight; and a trap
condition that is enabled traps after the commit, to the address that would have run next. -/
def Obligations.BundlesCommitWhole : Prop :=
  ∀ (core : Fin 11) (flight : Fin 256) (mm : Bool) (c : Chip) (x : Nat) (ws : List W32) (d : Chip),
    Issues core flight.val mm c x ws d →
    let n := core.val
    let k := d.ctx n x
    let ss := bundleSylls ws
    let align := misaligned ss d n k
    let traps := trapOf k.tmask ((arithOf ss k).foldl (fun m o => m ||| o.flags.conds) 0) (trapCode ss)
    let plain := (∀ s ∈ ss, s.unit ≠ 4) ∧ (∀ s ∈ ss, s.unit ≠ 3 ∨ s.op ≠ 0x0B)
    let mem := ss.find? fun s => s.fmt == .mem
    (∀ info, align = some info → wbit k.tstat 0 = false → k.tvec ≠ 0 →
      Does (.bundleExecute core flight mm) c (d.setCtx n x { k with
        tpc := w32 k.pc, tcause := 2, tinfo := info, tstat := wsetBit k.tstat 0 true, pc := k.tvec.toNat })) ∧
    (align = none → traps = none → 2 ≤ d.sysState → plain →
      (∀ mask ns, waitOf ss k = some (mask, ns) →
        (k.wake &&& mask = 0 → Does (.bundleExecute core flight mm) c
          (d.setCtx n x { k with st := .wait, waitSince := d.lt, held := ws })) ∧
        (k.wake &&& mask ≠ 0 → Does (.bundleExecute core flight mm) c
          (d.setCtx n x (k.commit k n x ss ws.length [] (some (k.wake &&& mask)))))) ∧
      (waitOf ss k = none → mem = none → Does (.bundleExecute core flight mm) c
        (d.setCtx n x (k.commit k n x ss ws.length [] none))) ∧
      (waitOf ss k = none → ∀ s, mem = some s →
        (∀ writes e, s.access d n k = .ok writes e → 2 ≤ e.sysState → Does (.bundleExecute core flight mm) c
          (e.setCtx n x ((e.ctx n x).commit k n x ss ws.length writes none))) ∧
        (∀ seg ofs size rwx atomic, s.access d n k = .segv seg ofs size rwx atomic →
          Does (.bundleExecute core flight mm) c (d.coreFreezes n x seg ofs size rwx atomic)) ∧
        (∀ cause info e, s.access d n k = .fault (.fault cause info) e → (e.ctx n x).doubles = false → cause < 8 →
          Does (.bundleExecute core flight mm) c (e.setCtx n x { e.ctx n x with
            tpc := w32 k.pc, tcause := w32 cause, tinfo := info
            tstat := wsetBit (e.ctx n x).tstat 0 true, pc := (e.ctx n x).tvec.toNat })) ∧
        (∀ e, s.access d n k = .waits e →
          let e' := e.setCtx n x { e.ctx n x with held := ws, inFlight := true }
          (∀ y, y < x → (e'.ctx n y).st ≠ .ready ∧ (e'.ctx n y).inFlight = false) →
          Does (.bundleExecute core flight mm) c e'))) ∧
    (∀ t, align = none → traps = some t → core ≠ 0 → 2 ≤ d.sysState → plain → waitOf ss k = none → mem = none →
      let k' := k.commit k n x ss ws.length [] none
      wbit k'.tstat 0 = false → k'.tvec ≠ 0 → Does (.bundleExecute core flight mm) c
        ((d.setCtx n x k').setCtx n x { k' with tpc := w32 k'.pc, tcause := t.word false, tinfo := t.info
                                                tstat := wsetBit k'.tstat 0 true, pc := k'.tvec.toNat }))

/-- R213, R215, R216, R225 to R227, R233: what the commit of a bundle changes in its context. Two arithmetic syllables
take their operands from the state before the bundle, and their registers, flags and sticky conditions are written
together; the PC goes past the bundle, or to the target of a taken branch, which with L = 1 leaves the address after the
bundle in LINK; writes of G0 are lost; and nothing else of the context changes. A WAIT that ends with a wake gives the
matching bits and clears them, and one that ends with its time gives bit 31. -/
def Obligations.SyllablesReadTheStateBefore : Prop :=
  ∀ (k : Ctx) (core x : Nat) (s t b : Syll) (w0 : W32),
    let after := fun ss len => k.commit k core x ss len [] none
    let next := fun len => (k.pc + 4 * len) % 2 ^ 32
    (s.unit = 0 → t.unit = 1 → after [s, t] 2 =
      let r := aluOp s.op (k.g s.ga) (s.b k) (k.g s.gd) k.flags
      let q := aluOp t.op (k.g t.ga) (t.b k) (k.g t.gd) k.flags
      let p := (k.put s.gd r.1).put t.gd q.1
      { p with flags := q.2.apply t.f (r.2.apply s.f k.flags), bcnt := k.bcnt + 1, pc := next 2 }) ∧
    (b.unit = 3 → b.op = 0 →
      (condHolds b.cond k.flags = false → after [b] 1 = { k with bcnt := k.bcnt + 1, pc := next 1 }) ∧
      (condHolds b.cond k.flags = true →
        let target := if b.i then wrap 32 ((k.pc : Int) + 4 * b.bdisp) else if b.ga = 0 then k.link.toNat
          else (k.g b.ga).toNat
        let link := if b.f then w32 (k.pc + 4) else k.link
        after [b] 1 = { k with bcnt := k.bcnt + 1, pc := target, link := link })) ∧
    (∀ r v, (k.put r v).g r = if r = 0 then 0 else v) ∧
    (∀ r r' v, r' ≠ r → (k.put r v).g r' = k.g r') ∧
    (∀ (n : Fin 11) (y : Fin 8) (c : Chip), y.val < ctxCount n.val →
      let w := c.ctx n.val y.val
      let up := { w with st := .ready, held := [] }
      (w.st ≠ .wait → Does (.waitWake n y) c c ∧ Does (.waitTimeout n y) c c) ∧
      (∀ mask ns, w.st = .wait → w.held = [w0] → waitOf (bundleSylls [w0]) w = some (mask, ns) → n ≠ 0 →
        2 ≤ c.sysState →
        (w.wake &&& mask = 0 → Does (.waitWake n y) c c ∧
          (ns = 0 ∨ c.lt ≤ w.waitSince + ns * 65536 → Does (.waitTimeout n y) c c) ∧
          (ns ≠ 0 → w.waitSince + ns * 65536 < c.lt → Gives (.waitTimeout n y) c fun d =>
            (d.ctx n.val y.val).st = .ready ∧ (d.ctx n.val y.val).wake = w.wake ∧
            (d.ctx n.val y.val).pc = (w.pc + 4) % 2 ^ 32 ∧ (d.ctx n.val y.val).bcnt = w.bcnt + 1 ∧
            (d.ctx n.val y.val).regs = (up.put (wfld w0 19 14) 0x80000000).regs)) ∧
        (w.wake &&& mask ≠ 0 → Gives (.waitWake n y) c fun d =>
            (d.ctx n.val y.val).st = .ready ∧ (d.ctx n.val y.val).wake = w.wake &&& ~~~(w.wake &&& mask &&& 0xFF) ∧
            (d.ctx n.val y.val).pc = (w.pc + 4) % 2 ^ 32 ∧ (d.ctx n.val y.val).bcnt = w.bcnt + 1 ∧
            (d.ctx n.val y.val).regs = (up.put (wfld w0 19 14) (w.wake &&& mask)).regs)))

/-- R217, R218, R220, R221, R229: the arithmetic of the A and M units. Sums, differences and products are those of the
integers, modulo 2^32, with carry, borrow and signed overflow as the table has them; division truncates toward zero with
the corners of R229; and for valid packed words the decimal operations give the correct decimal result. -/
def Obligations.DwevelArithmeticIsExact : Prop :=
  ∀ (a b d f : W32),
    let A := fun op => aluOp op a b d f
    let M := fun op x => mulOp op x a b d f
    let carry := b2n (flagC f)
    let fits := fun (z : Int) => -(2 ^ 31) ≤ z ∧ z < 2 ^ 31
    let n := wfld b 7 0
    let top : Int := -(2 ^ 31)
    (((A 0x00).1.toNat = (a.toNat + b.toNat) % 2 ^ 32 ∧
      ((A 0x00).2.c = some true ↔ 2 ^ 32 ≤ a.toNat + b.toNat) ∧
      ((A 0x00).2.v = some true ↔ ¬fits (a.toInt + b.toInt))) ∧
     ((A 0x01).1.toNat = (a.toNat + b.toNat + carry) % 2 ^ 32 ∧
      ((A 0x01).2.c = some true ↔ 2 ^ 32 ≤ a.toNat + b.toNat + carry)) ∧
     (((A 0x02).1.toNat : Int) = ((a.toNat : Int) - b.toNat) % 2 ^ 32 ∧
      ((A 0x02).2.c = some true ↔ b.toNat ≤ a.toNat) ∧
      ((A 0x02).2.v = some true ↔ ¬fits (a.toInt - b.toInt))) ∧
     ((A 0x03).1.toNat : Int) = ((a.toNat : Int) - b.toNat - (1 - carry)) % 2 ^ 32 ∧
     ((A 0x03).2.c = some true ↔ b.toNat + (1 - carry) ≤ a.toNat)) ∧
    (((A 0x0C).1.toNat = a.toNat * 2 ^ n % 2 ^ 32 ∧ (A 0x0D).1.toNat = a.toNat / 2 ^ n ∧
      (A 0x0E).1.toInt = a.toInt / 2 ^ n) ∧
     (A 0x15).1.toNat ≤ 32 ∧ a.toNat < 2 ^ (32 - (A 0x15).1.toNat) ∧
     ((A 0x15).1.toNat < 32 → 2 ^ (31 - (A 0x15).1.toNat) ≤ a.toNat) ∧
     (∀ i, i < 4 → wfld (A 0x17).1 (8 * i + 7) (8 * i) = wfld a (31 - 8 * i) (24 - 8 * i))) ∧
    (((M 0x00 0).1.toNat = a.toNat * b.toNat % 2 ^ 32 ∧
      ((M 0x00 0).2.2.v = some true ↔ ¬fits (a.toInt * b.toInt)) ∧
      (M 0x02 0).1.toInt = a.toInt * b.toInt / 2 ^ 32 ∧ (M 0x03 0).1.toNat = a.toNat * b.toNat / 2 ^ 32 ∧
      (M 0x04 0).1.toNat = (d.toNat + a.toNat * b.toNat) % 2 ^ 32)) ∧
    (∀ q r fl q' r' fl', mulOp 0x05 0 a b d f = (q, some r, fl) → mulOp 0x06 0 a b d f = (q', some r', fl') →
      (b = 0 → r = a ∧ r' = a ∧ q' = 0xFFFFFFFF ∧ fl.dz = true ∧ fl'.dz = true ∧ fl.ovf = false ∧
        q = if a.toInt < 0 then 1 else 0xFFFFFFFF) ∧
      (b ≠ 0 → a.toNat = q'.toNat * b.toNat + r'.toNat ∧ r'.toNat < b.toNat ∧ fl'.dz = false ∧ fl.dz = false) ∧
      (b ≠ 0 → ¬(a.toInt = top ∧ b.toInt = -1) → a.toInt = q.toInt * b.toInt + r.toInt ∧
        r.toInt.natAbs < b.toInt.natAbs ∧ (r.toInt = 0 ∨ (r.toInt < 0 ↔ a.toInt < 0)) ∧ fl.ovf = false) ∧
      (a.toInt = top → b.toInt = -1 → q = 0x80000000 ∧ r = 0 ∧ fl.ovf = true)) ∧
    (decBad a = false → decBad b = false → ∀ x, x < 2 →
      let c := if x = 1 then carry else 0
      let e := if x = 1 then 1 - carry else 0
      (decVal (M 0x10 x).1 = (decVal a + decVal b + c) % 10 ^ 8 ∧ decBad (M 0x10 x).1 = false ∧
        ((M 0x10 x).2.2.c = some true ↔ 10 ^ 8 ≤ decVal a + decVal b + c)) ∧
      (decVal (M 0x11 x).1 : Int) = ((decVal a : Int) - decVal b - e) % 10 ^ 8 ∧
      ((M 0x11 x).2.2.c = some true ↔ decVal b + e ≤ decVal a)) ∧
    (decVal (M 0x14 0).1 = a.toNat % 10 ^ 8 ∧ decBad (M 0x14 0).1 = false ∧ (M 0x13 0).1.toNat = decVal a ∧
      (M 0x13 0).2.2.dv = decBad a)

/-! ### Protocol engines and their queues (chapter 08) -/

/-- R249 to R255: queues. A frame that is decided is delivered in units, then counted; one without room is dropped
with LOST and the owner's cause 3, one too long is counted, a unit outside the segments freezes the path, and one that
is refused drops the frame with ERR, the gap marked in the next stored descriptor. A write of CONS within the entries
held takes effect, and any other sets the flag. A descriptor is queued by its owner while the queue is enabled and has
room; a port takes the next ready queue's descriptor, and an invalid one ends with RESULT 2. -/
def Obligations.EngineQueuesFollowR249ToR255 : Prop :=
  ∀ (m : Master) (q : Fin 32) (t : Fin 16) (sp : Fin 2) (v : W32) (c : Chip),
    let n := q.val
    let lim := if c.rqHost n then c.rqProd n else c.rqPopped n
    let new := wfld v 15 0
    let port := 8 + sp.val
    let last := tblGet 15 c.rq.served port
    let ready := fun i => !(c.tqHeld i).isEmpty && c.bit (PE_TQt_CFG i) 31 && c.tqHost i == (port == 9) &&
      (c.tqHost i || !c.ownerOff (c.tqOwner i)) && (tblGet none c.rq.tqFrozen i).isNone
    let turn := ((List.range 16).map fun i => (last + 1 + i) % 16).find? ready
    (c.swx.deciding = [] → Does .rqDelivery c c) ∧
    (∀ l ls, c.swx.deciding = l :: ls →
      let f := c.frame l.fid
      let d := ({ c with swx := { c.swx with deciding := ls } }).release l.fid
      let size := d.rqSize l.rq
      let room := span16 (d.rqCons l.rq) (d.rqProd l.rq) ≠ size ∧ d.rqOn l.rq = true ∧
        tblGet none d.rq.rqFrozen l.rq = none
      let lost := (d.inc (PE_RQq_LOST l.rq)).setBit (PE_RQn_STAT l.rq) 0 true
      let marked := lost.setRqLost l.rq true
      let bufSize := 2 ^ d.fld (PE_RQq_CFG l.rq) 11 8
      let buf := d.fld (PE_RQq_BBASE l.rq) 31 6 * 64 + d.rqProd l.rq % size * bufSize
      (¬room → d.rqHost l.rq = true → Does .rqDelivery c marked) ∧
      (¬room → d.rqHost l.rq = false → Does .rqDelivery c (marked.ownerCause (d.rqOwner l.rq) 3)) ∧
      (room → bufSize < f.data.length → Does .rqDelivery c (d.inc (PE_RQq_LONG l.rq))) ∧
      (room → f.data.length ≤ bufSize → Does .rqDelivery c
        ((d.setRqLost l.rq false).rqRun l.rq (rqUnits buf (d.rqDesc l.rq (d.rqProd l.rq)) f.data (d.rqDescBytes l.rq l f buf))))) ∧
    (∀ (d e : Chip) a bs us, d.rqRun n [] = d.rqDone n ∧
      (d.dmaWrite (d.rqMaster n) a bs = (none, e) → d.rqRun n ((a, bs) :: us) = e.rqRun n us) ∧
      (d.dmaWrite (d.rqMaster n) a bs = (some .seg, e) → d.rqRun n ((a, bs) :: us) =
        (e.setRqFrozen n (some ⟨(a, bs) :: us⟩)).freezeAt (0x20 + n) (d.rqMaster n) a 64 2) ∧
      (∀ x, d.dmaWrite (d.rqMaster n) a bs = (some x, e) → x ≠ .seg →
        d.rqRun n ((a, bs) :: us) = (e.setBit (PE_RQn_STAT n) 1 true).setRqLost n true)) ∧
    ((m.val = 0 ∨ m.val = c.rqOwner n) → span16 (c.rqCons n) new ≤ span16 (c.rqCons n) lim →
      Does (.rqConsWrite m q v) c (c.setReg (PE_RQq_CONS n) (w32 new)).done) ∧
    ((m.val ≠ 0 ∧ m.val ≠ c.rqOwner n ∨ span16 (c.rqCons n) lim < span16 (c.rqCons n) new) →
      Does (.rqConsWrite m q v) c (c.setBit (PE_RQn_STAT n) 1 true).done) ∧
    (m.val ≠ 0 → m.val ≠ c.tqOwner t.val → Does (.tqPushWrite m t v) c c.refuse) ∧
    ((m.val = 0 ∨ m.val = c.tqOwner t.val) →
      let ok := (c.tqHeld t.val).length < 64 ∧ c.bit (PE_TQt_CFG t.val) 31 = true ∧ v.toNat % 32 = 0
      (ok → Does (.tqPushWrite m t v) c (c.setTq t.val (c.tqHeld t.val ++ [v.toNat])).done) ∧
      (¬ok → Does (.tqPushWrite m t v) c (c.setBit (PE_TQt_FLAGS t.val) 0 true).done)) ∧
    (tblGet none c.rq.offers port ≠ none → Does (.tqDescriptorServe sp) c c) ∧
    (tblGet none c.rq.offers port = none → turn = none → Does (.tqDescriptorServe sp) c c) ∧
    (tblGet none c.rq.offers port = none → ∀ i a rest bs d, turn = some i → c.tqHeld i = a :: rest →
      c.dmaRead (c.tqMaster i) a 32 = (.ok bs, d) →
      let w := fun k => w32 (leNat (bytesAt bs (4 * k) 4))
      let popped := fun (e : Chip) => (e.setTq i (e.tqHeld i).tail).setServed port i
      (tqBad (w 0) (w 1) (w 3) = true → Does (.tqDescriptorServe sp) c ((popped d).tqEnd i a 2)) ∧
      (tqBad (w 0) (w 1) (w 3) = false → ∀ data e,
        d.readSpan (c.tqMaster i) (w 2).toNat (wfld (w 0) 13 0) = (.ok data, e) →
        (e.tqSlotBad (w 0) (w 1) (e.tqPorts port (w 0) (w 1) data) = true →
          Does (.tqDescriptorServe sp) c ((popped e).tqEnd i a 2)) ∧
        (e.tqSlotBad (w 0) (w 1) (e.tqPorts port (w 0) (w 1) data) = false →
          e.pecksFree < e.offerPecks port data (parseFrame data 0).vid → Does (.tqDescriptorServe sp) c
            ((popped e).setOffer port (some ⟨i, a, data, (List.range 8).map w⟩))))) ∧
    (∀ (e f : Chip) a i (r : Nat),
      e.dmaWrite (e.tqMaster i) (a + 16) (leBytes 4 (2 ^ 31 + r * 2 ^ 28)) = (none, f) → r < 4 →
      let counted := f.inc (PE_TQt_DONE i)
      let flagged := if r = 1 ∨ r = 2 then (counted.setBit (PE_TQt_FLAGS i) r true).ownerCause (f.tqOwner i) 4
        else counted
      f.tqHost i = true → e.tqEnd i a r = flagged)

/-- R257, R258, R262: engines. START of a LOADED engine, in CONFIGURED or a later state (R39), resets its contexts,
makes those READY whose ENTRY is valid, at that address, and starts its watchdog; STOP halts them; CLEAR makes the
engine STOPPED and ends with its memories 0; a command in another state raises cause 5, and one from another master
than SUP is refused. The cycle timer sets line 7 of the contexts chosen and goes to its next instant, and the watchdog
raises cause 2 and, where it says so, stops the engine. -/
def Obligations.EngineStatesFollowR258 : Prop :=
  ∀ (m : Master) (n : Fin 8) (v : W32) (c : Chip),
    let e := n.val
    let core := e + 3
    let st := c.peState e
    let refused := (c.flag (PE_PEn_EVCAUSE e) 5 (24 + e)).done
    let clearing := fun (d : Chip) b =>
      { d with core := { d.core with clearing := tblSet false c.core.clearing e b } }
    let kicked := fun (d : Chip) => { d with core := { d.core with wdStart := tblSet 0 d.core.wdStart e c.lt } }
    let lim := c.fld (PE_PEn_WDT e) 23 0
    let expired := (kicked (c.flag (PE_PEn_EVCAUSE e) 2 (24 + e)))
    (m.val ≠ 0 → Does (.engineStart m n v) c c.refuse ∧ Does (.engineStop m n v) c c.refuse ∧
      Does (.engineClear m n v) c c.refuse) ∧
    (m.val = 0 → OnlyBit (v ||| 1) 3 0 → st = 2 → 4 ≤ c.sysState → Gives (.engineStart m n v) c fun d =>
      d.peState e = 3 ∧ tblGet 0 d.core.wdStart e = c.lt ∧
      (∀ x, x < 4 → let a := c.reg (PE_PEn_ENTRY e x)
        d.ctx core x = if wbit a 0 then { Ctx.reset with pc := wfld a 31 2 * 4, st := .ready } else Ctx.reset) ∧
      (∀ a, a ≠ PE_PEn_STAT e → d.reg a = c.reg a) ∧ (∀ a, d.byte a = c.byte a)) ∧
    (m.val = 0 → OnlyBit (v ||| 1) 3 0 → (st ≠ 2 ∨ c.sysState < 4) → Does (.engineStart m n v) c refused) ∧
    (m.val = 0 → OnlyBit (v ||| 2) 3 1 → st = 3 → Gives (.engineStop m n v) c fun d =>
      d.peState e = 2 ∧ (∀ x, x < 4 → d.ctx core x = { c.ctx core x with st := .halt }) ∧
      (∀ a, a ≠ PE_PEn_STAT e → d.reg a = c.reg a) ∧ (∀ a, d.byte a = c.byte a)) ∧
    (m.val = 0 → OnlyBit (v ||| 2) 3 1 → st ≠ 3 → Does (.engineStop m n v) c refused) ∧
    (m.val = 0 → OnlyBit (v ||| 4) 3 2 → (st = 1 ∨ st = 2) → Does (.engineClear m n v) c
      (clearing (c.setFld (PE_PEn_STAT e) 2 0 1) true).done) ∧
    (m.val = 0 → OnlyBit (v ||| 4) 3 2 → st ≠ 1 → st ≠ 2 → Does (.engineClear m n v) c refused) ∧
    (m.val = 0 → (1 < bitCount (v ||| 1) 3 → Does (.engineStart m n v) c refused) ∧
      (1 < bitCount (v ||| 2) 3 → Does (.engineStop m n v) c refused) ∧
      (1 < bitCount (v ||| 4) 3 → Does (.engineClear m n v) c refused)) ∧
    (tblGet false c.core.clearing e = false → Does (.engineClearDone n) c c) ∧
    (tblGet false c.core.clearing e = true → Gives (.engineClearDone n) c fun d =>
      tblGet false d.core.clearing e = false ∧ d.regs = c.regs ∧
      ∀ a, (0x30000000 + e * 0x100000 ≤ a → a < 0x30040000 + e * 0x100000 → d.byte a = 0) ∧
        ((a < 0x30000000 + e * 0x100000 ∨ 0x30040000 + e * 0x100000 ≤ a) → d.byte a = c.byte a)) ∧
    (c.reg (PE_PEn_CYCPER e) ≠ 0 → tblGet 0 c.core.cycNext e ≤ c.ltNs → Gives (.peCycleTimer n) c fun d =>
      (∀ x, x < 4 → d.ctx core x = if c.bit (PE_PEn_CYCCTX e) x then
        { c.ctx core x with wake := wsetBit (c.ctx core x).wake 7 true } else c.ctx core x) ∧
      (let base := c.reg64 (PE_PEn_CYCBASE_LO e)
       let per := (c.reg (PE_PEn_CYCPER e)).toNat
       tblGet 0 d.core.cycNext e = if c.ltNs < base then base else base + ((c.ltNs - base) / per + 1) * per) ∧
      d.regs = c.regs ∧ (∀ a, d.byte a = c.byte a)) ∧
    ((c.reg (PE_PEn_CYCPER e) = 0 ∨ c.ltNs < tblGet 0 c.core.cycNext e) → Does (.peCycleTimer n) c c) ∧
    (st = 3 → lim ≠ 0 → tblGet 0 c.core.wdStart e + lim * 65536000 < c.lt →
      (c.bit (PE_PEn_WDT e) 31 = false → Does (.engineWatchdogExpiry n) c expired) ∧
      (c.bit (PE_PEn_WDT e) 31 = true →
        Does (.engineWatchdogExpiry n) c ((expired.haltCore core).setFld (PE_PEn_STAT e) 2 0 2))) ∧
    ((st ≠ 3 ∨ lim = 0 ∨ c.lt ≤ tblGet 0 c.core.wdStart e + lim * 65536000) → Does (.engineWatchdogExpiry n) c c)

/-! ### The cyclic control unit (chapter 09) -/

/-- R274 to R278, R280: cycle frames. A frame is enabled from SUP, starting at its next boundary, or refused with
CFG_REFUSED; at a boundary its cycle counts and its tasks are released, or wait for the evaluation; an evaluation takes
every enabled slot, then the forces of the input image, then the status words; a slot that reported is ACTIVE with MISS
0, and one that missed its limit of cycles is DROPPED; a cycle without an exchange counts MISS and NOEXCH, one that is
not handed over in time counts LATEOUT; a first release after the cycle's T counts; and a handover writes the forces, in
STOP and RECOVERY the safe values, and the header, gives up both banks and is marked done. -/
def Obligations.CycleFramesFollowR274ToR280 : Prop :=
  ∀ (m : Master) (n : Fin 8) (v : W32) (s : Fin 512) (c : Chip),
    let k := n.val
    let f := c.fr k
    let cfg := TSK_FRn_CFG k
    let on := v ||| 0x80000000
    let cause := fun (d : Chip) i => d.flag TSK_EVCAUSE i (tskSource i)
    let started := c.setReg cfg (on &&& 0xFF1F000F)
    let slots := c.slotsOf k
    let forced := fun (d : Chip) => (List.range 64).foldl (fun e i => if e.forceInInput k i then e.forceWrite i else e) d
    let shown := fun (d : Chip) => slots.foldl
      (fun e i => e.ioWrite (e.statusAddr k + 4 * i) (leBytes 4 (e.reg (TSK_SLs_STAT i)).toNat)) d
    let stat := TSK_SLs_STAT s.val
    let got := tblGet false c.tsk.reported s.val
    let seen := { c with tsk := { c.tsk with reported := tblSet false c.tsk.reported s.val false } }
    let missed := seen.setFld stat 7 0 (satTo 255 (c.fld stat 7 0 + 1))
    (m.val ≠ 0 → Does (.frameEnable m n v) c c.refuse) ∧
    (m.val = 0 → c.bit cfg 31 = true → Does (.frameEnable m n v) c c.done) ∧
    (m.val = 0 → c.bit cfg 31 = false → c.frameOk k on = false →
      Does (.frameEnable m n v) c (cause (c.setReg cfg (on &&& 0x7F1F000F)) 1).done) ∧
    (m.val = 0 → c.bit cfg 31 = false → c.frameOk k on = true → Does (.frameEnable m n v) c
      (started.setFr k { FrameRun.reset with next := started.nextBoundary k }).done) ∧
    ((c.bit cfg 31 = false ∨ c.bit cfg 30 = true ∨ c.ltNs < f.next) → Does (.frameCycleBoundary n) c c) ∧
    (c.bit cfg 31 = true → c.bit cfg 30 = false → f.next ≤ c.ltNs →
      let counted := ((c.setReg (TSK_FRn_CYCLE k) (c.reg (TSK_FRn_CYCLE k) + 1)).setBit
        (TSK_FRn_STAT k) 29 f.handedEarly).setBit (TSK_FRn_STAT k) 30 (f.coming && !f.evalDue && !f.evaluating)
      let wait := f.evaluating || c.initHolds
      let begun := counted.setFr k { f with
        t := f.next, next := c.nextBoundary k, begun := true, checked := false, releaseWaits := wait
        coming := false, handedEarly := false
        hands := f.hands.map fun h => { h with cycle := if h.cycle = .coming then .current else .past } }
      (wait = true → Does (.frameCycleBoundary n) c begun) ∧
      (wait = false → Does (.frameCycleBoundary n) c (begun.releaseFrame k))) ∧
    (∀ d, c.bit (TSK_FRn_STAT k) 31 = false →
      (c.setFr k { f with releaseWaits := false }).release1 (c.fld cfg 20 16) = (.started, d) →
      let e := d.setFr k { d.fr k with normalActive := true, normalT := f.t, normalErr := false }
      c.releaseFrame k = if f.t < c.ltNs then cause (e.inc (TSK_FRn_STARTLATE k)) 5 else e) ∧
    (f.evalDue = false → Does (.frameEvaluation n) c c) ∧
    (f.evalDue = true → Does (.frameEvaluation n) c
      (shown (forced (slots.foldl (fun e i => e.evalSlot k i)
        ((c.setFr k { f with evalDue := false, evaluating := true }).setBit (TSK_FRn_STAT k) 30 false))))) ∧
    (got = true → c.slotState s.val ≠ 2 → c.evalSlot k s.val = (seen.setFld stat 7 0 0).setFld stat 31 30 1) ∧
    (got = true → c.slotState s.val = 2 →
      c.evalSlot k s.val = cause ((seen.setFld stat 7 0 0).setFld stat 31 30 1) 7) ∧
    (got = false → c.slotState s.val = 1 → satTo 255 (c.fld stat 7 0 + 1) < c.fld (TSK_SLs_CFG s.val) 23 16 →
      c.evalSlot k s.val = missed) ∧
    (got = false → c.slotState s.val = 1 → c.fld (TSK_SLs_CFG s.val) 23 16 ≤ satTo 255 (c.fld stat 7 0 + 1) →
      (c.evalSlot k s.val).slotState s.val = 2) ∧
    (f.evaluating = false → Does (.evaluationEnd n) c c) ∧
    (f.evaluating = true →
      let idle := c.tskMode = 0 ∨ (c.tskMode = 4 ∧ f.errActive = false ∧ c.bit (TSK_FRn_STAT k) 31 = false)
      let hands : List HandDue := if ¬idle then []
        else if f.coming = true then [⟨.coming, f.next, true, false⟩]
        else if c.bit (TSK_FRn_STAT k) 29 = true then [] else [⟨.current, f.t, true, false⟩]
      let ended := (c.setFr k { f with evaluating := false, hands := f.hands ++ hands }).setBit (TSK_FRn_STAT k) 30 true
      (f.releaseWaits = true → c.initHolds = false → Does (.evaluationEnd n) c (ended.releaseFrame k)) ∧
      ((f.releaseWaits = false ∨ c.initHolds = true) → Does (.evaluationEnd n) c ended)) ∧
    ((c.bit cfg 31 = false ∨ f.begun = false ∨ f.checked = true ∨ c.ltNs ≤ f.t + (c.reg (TSK_FRn_TOUT k)).toNat) →
      Does (.noExchangeCheck n) c c) ∧
    (c.bit cfg 31 = true → f.begun = true → f.checked = false → f.t + (c.reg (TSK_FRn_TOUT k)).toNat < c.ltNs →
      let done := c.setFr k { f with checked := true, exchanged := false }
      let late := fun (d : Chip) hi lo =>
        cause (d.setFld (TSK_FRn_LATEOUT k) hi lo (satTo 65535 (d.fld (TSK_FRn_LATEOUT k) hi lo + 1))) 5
      let counted := if f.exchanged = true then done else late (slots.foldl (fun e i => e.miss i) done) 31 16
      (c.bit (TSK_FRn_STAT k) 29 = true → Does (.noExchangeCheck n) c counted) ∧
      (c.bit (TSK_FRn_STAT k) 29 = false → Does (.noExchangeCheck n) c (late counted 15 0))) ∧
    (f.hands = [] → Does (.outputHandover n) c c) ∧
    (∀ h rest, f.hands = h :: rest →
      let forces := c.writeForces
      let safe := forces.ioCopy (c.fld TSK_SUBBASE 31 6 * 64 + c.fld (TSK_FRn_OSAFE k) 18 6 * 64)
        (c.outputAddr k + 64) (c.fld (TSK_FRn_OIMG k) 26 16 * 8)
      let filled := if c.tskMode = 0 ∨ c.tskMode = 4 then safe else forces
      let headed := filled.ioWrite (c.outputAddr k) (filled.outputHeader k h)
      let give := fun (d : Chip) b => if d.fld (MEM_BOWN b) 3 0 = d.tgrp k then
        { bankOwnerWrite d 1 b (w32 (d.pgrp k)) with bus := d.bus } else d
      let given := give (give headed (c.obank k)) (c.ibank k)
      let left := given.setFr k { given.fr k with
        hands := rest, handedEarly := (given.fr k).handedEarly || h.cycle == .coming }
      let marked := if h.cycle = .current then left.setBit (TSK_FRn_STAT k) 29 true else left
      (h.skipped = false → Does (.outputHandover n) c marked) ∧
      (h.skipped = true → Does (.outputHandover n) c (cause (marked.inc (TSK_FRn_SKIPPED k)) 5)))

/-- R270 to R273, R281, R295: tasks, modes, reports and diagnostics. A release writes the forces and starts the task's
context at its ENTRY, or where the context has not halted counts OVR and the OVERRUN of the frames whose normal task it
is; a mode changes where the table lists the request,
and is refused with MODE_REFUSED anywhere else; a report from the slot's group is registered. -/
def Obligations.TasksAndModesFollowR270ToR273 : Prop :=
  ∀ (m : Master) (v : W32) (c : Chip),
    let k := wfld v 4 0
    let core := 1 + c.fld (TSK_TKk_CFG k) 24 24
    let x := c.fld (TSK_TKk_CFG k) 18 16
    let cause := fun (d : Chip) i => d.flag TSK_EVCAUSE i (tskSource i)
    let mode := c.tskMode
    let refused := (cause c 0).done
    let gone := fun w => cause ((c.setFld TSK_STAT 2 0 w).setFld TSK_MODE 2 0 w) 11
    let moved := fun w => (gone w).done
    let init := c.fld TSK_INITTASK 4 0
    let canStart := (mode = 0 ∧ c.sysState = 5 ∧ c.fld TSK_VMAPN 15 0 ≠ 0) ∨ mode = 4
    let slot := wfld v 8 0
    let code := wfld v 31 30
    let ours := c.inGroup m.val (c.pgrp (c.fld (TSK_SLs_CFG slot) 26 24)) = true
    let counted := (c.setReg TSK_RPTCNT (c.reg TSK_RPTCNT + 1)).setBit (TSK_SLs_STAT slot) 16 (code == 2)
    (2 < m.val → Does (.taskReleaseWrite m v) c c.refuse) ∧
    (m.val ≤ 2 → (c.releaseAllowed k = false ∨ c.bit (TSK_TKk_CFG k) 31 = false) →
      Does (.taskReleaseWrite m v) c c.done) ∧
    (m.val ≤ 2 → c.releaseAllowed k = true → c.bit (TSK_TKk_CFG k) 31 = true →
      ((c.ctx core x).st ≠ .halt → Does (.taskReleaseWrite m v) c
        ((List.range 8).foldl (fun d n =>
          if d.bit (TSK_FRn_CFG n) 31 && d.fld (TSK_FRn_CFG n) 20 16 == k then cause (d.inc (TSK_FRn_OVERRUN n)) 5 else d)
          (c.setFld (TSK_TKk_STAT k) 15 0 (satTo 65535 (c.fld (TSK_TKk_STAT k) 15 0 + 1)))).done) ∧
      ((c.ctx core x).st = .halt →
        let d := c.writeForces
        let e := (d.setCtx core x { d.ctx core x with
          pc := d.fld (TSK_TKk_ENTRY k) 31 2 * 4, st := .ready }).setBit (TSK_TKk_STAT k) 31 true
        c.reg (TSK_TKk_ENTRY k) = d.reg (TSK_TKk_ENTRY k) → Does (.taskReleaseWrite m v) c
          { e with tsk := { e.tsk with relTime := tblSet 0 e.tsk.relTime k c.lt } }.done)) ∧
    ((mode = 1 ∨ mode = 2 ∨ mode = 3 ∨ mode = 4) → Does .tskModeStop c (moved 0)) ∧
    ((mode = 0 ∨ 4 < mode) → Does .tskModeStop c refused) ∧
    ((mode = 1 ∨ mode = 3) → Does .tskModeRun c (moved 2)) ∧
    ((mode ≠ 1 ∧ mode ≠ 3) → Does .tskModeRun c refused) ∧
    ((mode = 1 ∨ mode = 2) → Does .tskModeTest c (moved 3)) ∧
    ((mode ≠ 1 ∧ mode ≠ 2) → Does .tskModeTest c refused) ∧
    (canStart → ∀ r e, (gone 1).release1 init = (r, e) →
      (r = .started → Does .tskModeStartup c { e with tsk := { e.tsk with initWait := some init } }.done) ∧
      (r ≠ .started → Does .tskModeStartup c e.done)) ∧
    (¬canStart → Does .tskModeStartup c refused) ∧
    (¬ours → Does (.stationReport m v) c (cause c 2).done) ∧
    (ours → (code = 0 ∨ code = 3) → Does (.stationReport m v) c c.done) ∧
    (ours → code = 1 → Does (.stationReport m v) c ({ counted with
      tsk := { c.tsk with reported := tblSet false c.tsk.reported slot true } }).done) ∧
    (ours → code = 2 → Does (.stationReport m v) c counted.done) ∧
    Does (.tskDiagWrite m v) c (cause (c.setReg TSK_DIAGLAST (v &&& 0xFF00001F)) 8).done

/-- R285, R288, R290, R291, R294: forces, value changes and the program swap. A force is set, with its value as last
written (log entry 166), for a variable that the active map allows, or refused; clearing one writes the change that
waited; a change is staged, and a batch accepted whole or refused whole with its RESULT; and a swap is asked for where
the mode allows it, waits for its quiet point, ends with RESULT 2 and nothing changed where the new map is not in
order, and otherwise commits the new map and its tasks. -/
def Obligations.ForcesChangesAndSwaps : Prop :=
  ∀ (m : Master) (f : Fin 64) (v : W32) (c : Chip),
    let i := f.val
    let ctl := TSK_FCf_CTL i
    let cause := fun (d : Chip) j => d.flag TSK_EVCAUSE j (tskSource j)
    let valued := c.setReg (TSK_FCf_VAL_HI i) (c.stagedPart (TSK_FCf_VAL_HI i))
    let twice := (List.range 64).any fun g =>
      g != i && valued.fcOn g && valued.reg (TSK_FCf_ID g) == valued.reg (TSK_FCf_ID i)
    let target := valued.mapFind (valued.reg (TSK_FCf_ID i)).toNat
    let refused := (cause (valued.setBit ctl 31 false) 4).done
    let dropped := fun (d : Chip) => (cause (d.setReg ctl (d.reg ctl &&& 0x0000000F)) 13).done
    let vcRefused := fun r =>
      cause (({ c with tsk := { c.tsk with staged := [] } }).setReg TSK_VC_STAT (w32 (at_ r 16))) 3
    let change : Change := ⟨(c.reg TSK_VC_ID).toNat, join64 (c.stagedPart TSK_VC_HI) (c.reg TSK_VC_LO)⟩
    let pushed := ({ c with tsk := { c.tsk with staged := c.tsk.staged ++ [change] } }).setFld TSK_VC_STAT 5 0
      (c.tsk.staged.length + 1)
    let task := wfld (v ||| 0x40000000) 4 0
    let const := wbit v 29
    let found : List (Change × Option VarEntry) := c.tsk.staged.map fun ch => (ch, c.mapFind ch.id)
    let fault := found.findSome? fun (p : Change × Option VarEntry) => vcFault p.2 const
    let accepted : Batch := ⟨task, found.filterMap fun (p : Change × Option VarEntry) =>
      p.2.map fun (e : VarEntry) => (p.1, e.addr, e.size)⟩
    let live := c.tskMode ≠ 0 ∧ c.tskMode ≠ 4 ∧ c.bit (TSK_TKk_CFG task) 31 = true
    let swapEnds := fun (d : Chip) r => cause (({ d with tsk := { d.tsk with swapReq := false } }).setReg TSK_SWAP_STAT
      (w32 (at_ r 29))) 12
    let busy := ((List.range 32).any fun k => c.bit (TSK_TKk_STAT k) 31) ||
      ((List.range 8).any fun n => (c.fr n).evaluating || !(c.fr n).hands.isEmpty)
    (m.val ≠ 0 → Does (.forceEntrySet m f v) c c.refuse ∧ Does (.forceEntryClear m f v) c c.refuse ∧
      Does (.vcApply m v) c c.refuse) ∧
    (m.val = 0 → target = none → Does (.forceEntrySet m f v) c refused) ∧
    (m.val = 0 → ∀ e, target = some e →
      let ok := e.kind = 0 ∧ e.forceable = true ∧ e.simple = true ∧ twice = false
      (ok → Does (.forceEntrySet m f v) c
        (cause ((valued.setReg (TSK_FCf_ADDR i) (w32 e.addr)).setReg ctl (w32 (2 ^ 31 + e.size))) 13).done) ∧
      (¬ok → Does (.forceEntrySet m f v) c refused)) ∧
    (m.val = 0 → c.fcOn i = false → Does (.forceEntryClear m f v) c c.done) ∧
    (m.val = 0 → c.fcOn i = true → c.bit ctl 30 = false → Does (.forceEntryClear m f v) c (dropped c)) ∧
    (m.val = 0 → c.fcOn i = true → c.bit ctl 30 = true → Does (.forceEntryClear m f v) c
      (dropped (c.ioWrite (c.reg (TSK_FCf_ADDR i)).toNat
        (leBytes (c.fld ctl 3 0) (join64 (c.reg (TSK_FCf_CHG_HI i)) (c.reg (TSK_FCf_CHG_LO i))))))) ∧
    (c.tsk.batch ≠ none → Does .vcPush c c.done) ∧
    (c.tsk.batch = none → c.tsk.staged.length < 32 → Does .vcPush c pushed.done) ∧
    (c.tsk.batch = none → 32 ≤ c.tsk.staged.length → Does .vcPush c (vcRefused 5).done) ∧
    (m.val = 0 → wbit v 31 = false → c.tsk.batch ≠ none → Does (.vcApply m v) c c.done) ∧
    (m.val = 0 → wbit v 31 = false → c.tsk.batch = none →
      (¬live → Does (.vcApply m v) c (vcRefused 1).done) ∧
      (live → c.tsk.staged = [] → Does (.vcApply m v) c (vcRefused 5).done) ∧
      (live → c.tsk.staged ≠ [] →
        (∀ r, fault = some r → Does (.vcApply m v) c (vcRefused r).done) ∧
        (fault = none → Does (.vcApply m v) c (({ c with tsk := { c.tsk with
          staged := [], batch := some accepted } }).setBit TSK_VC_STAT 31 true).done))) ∧
    (c.tsk.swapReq = true → Does .swapGo c c.done) ∧
    (c.tsk.swapReq = false → (c.tskMode = 1 ∨ c.tskMode = 3 ∨ c.tskMode = 4) →
      Does .swapGo c { c with tsk := { c.tsk with swapReq := true } }.done) ∧
    (c.tsk.swapReq = false → c.tskMode ≠ 1 → c.tskMode ≠ 3 → c.tskMode ≠ 4 →
      Does .swapGo c (c.setFld TSK_SWAP_STAT 31 29 1).done) ∧
    ((c.tsk.swapReq = false ∨ busy = true) → Does .swapQuietPoint c c) ∧
    (c.tsk.swapReq = true → busy = false → ∀ es d,
      c.readMap (c.fld TSK_SWAP_MAP 31 4 * 16) (c.fld TSK_SWAP_MAPN 15 0) = (.ok es, d) → mapOk es = false →
      Does .swapQuietPoint c (swapEnds d 2)) ∧
    (c.tsk.swapReq = true → busy = false → ∀ new old tab mis rel d1 d2 d3 d4 d5 d6,
      c.readMap (c.fld TSK_SWAP_MAP 31 4 * 16) (c.fld TSK_SWAP_MAPN 15 0) = (.ok new, d1) → mapOk new = true →
      d1.readMap (c.fld TSK_VMAP 31 4 * 16) (c.fld TSK_VMAPN 15 0) = (.ok old, d2) →
      d2.ioRead (c.fld TSK_SWAP_TASKS 31 2 * 4) 128 = (.ok tab, d3) →
      new.foldl (fun (acc : Option Nat × Nat × Chip) e => match acc.1 with
        | some _ => acc
        | none => acc.2.2.carryEntry old acc.2.1 e) (none, 0, d3) = (none, mis, d4) →
      new.foldl (fun (acc : Option Nat × Chip) e => match acc.1 with
        | some _ => acc
        | none => acc.2.carryEdge old new e) (none, d4) = (none, d5) →
      d5.rebindForces new = (rel, d6) →
      let mapped := (d6.setReg TSK_VMAP (c.reg TSK_SWAP_MAP)).setReg TSK_VMAPN (c.reg TSK_SWAP_MAPN)
      let bound := (List.range 32).foldl (fun e k =>
        let w := w32 (leNat (bytesAt tab (4 * k) 4))
        (e.setReg (TSK_TKk_ENTRY k) (w &&& 0xFFFFFFFC)).setBit (TSK_TKk_CFG k) 31 (wbit w 0)) mapped
      Does .swapQuietPoint c (cause (({ bound with tsk := { bound.tsk with swapReq := false } }).setReg TSK_SWAP_STAT
        (w32 (at_ (satTo 4095 mis) 16 + rel))) 12))

/-! ### Motion (chapter 10) -/

/-- R301, R302, R305, R309, R321, R322, R535: writes to an axis. A command from SUP or the owner is registered with the
values that it takes with it, to be executed at the next update instant; with more than one command bit it is refused
with cause 3, and from another master with a bus error. A set position, a phase offset and a feedback value act at once
where the axis's state or source allows them. -/
def Obligations.AxisWritesAreRegistered : Prop :=
  ∀ (m : Master) (n : Fin 32) (v : W32) (c : Chip),
    let k := n.val
    let x := c.ax k
    let st := c.axState k
    let ours := m.val = 0 ∨ m.val = c.fld (AXn_OWNER k) 3 0
    let refused := (c.flag (AXn_EVCAUSE k) 3 (256 + k)).done
    let registered := fun w => (c.setAx k { x with cmds := x.cmds ++ [⟨c.ltUs, w, c.pair (AXn_TGT_LO k),
      c.pair (AXn_VTGT_LO k), c.axisLims k, sext 32 (c.reg (AXn_GEARNUM k)).toNat, (c.reg (AXn_GEARDEN k)).toNat⟩] }).done
    let outcome := fun i w => (¬ours → Does i c c.refuse) ∧ (ours → 1 < bitCount w 9 → Does i c refused) ∧
      (ours → bitCount w 9 = 1 → Does i c (registered w))
    let sp := c.plainWrite m.val (AXn_SETPOS_LO k) v
    let pos := sp.reg64 (AXn_SETPOS_LO k)
    let at_ := ofPos (sext 64 pos)
    let ph := c.plainWrite m.val (AXn_PHASE_LO k) v
    let offset := ph.pair (AXn_PHASE_LO k)
    let source := c.fld (AXn_CFG k) 29 28
    let bits := c.fld (AXn_FBCFG k) 5 0
    let got := c.setAx k { x with xprev := some v.toNat, lastFb := (c.ltNs + 999) / 1000 }
    outcome (.axisEnable m n v) (v ||| 0x1) ∧ outcome (.axisDisable m n v) (v ||| 0x2) ∧
    outcome (.axisMoveCmd m n v) (v ||| 0x4) ∧ outcome (.axisVelCmd m n v) (v ||| 0x8) ∧
    outcome (.axisGearCmd m n v) (v ||| 0x10) ∧ outcome (.axisCamCmd m n v) (v ||| 0x20) ∧
    outcome (.axisStopCmd m n v) (v ||| 0x40) ∧ outcome (.axisClearCmd m n v) (v ||| 0x80) ∧
    outcome (.axisCamarmCmd m n v) (v ||| 0x100) ∧
    (¬ours → Does (.setposCommit m n v) c c.refuse ∧ Does (.phaseCommit m n v) c c.refuse) ∧
    (ours → 2 ≤ st → Does (.setposCommit m n v) c refused) ∧
    (ours → st < 2 → Does (.setposCommit m n v) c (((sp.setAx k { sp.ax k with
      plan := .hold at_, cur := .rest at_, nxt := .rest at_, xprev := none }).setReg64 (AXn_CMDPOS_LO k) pos).setReg64
        (AXn_ACTPOS_LO k) pos).done) ∧
    (ours → ((st ≠ 4 ∧ st ≠ 5) ∨ x.bound = false) → Does (.phaseCommit m n v) c refused) ∧
    (ours → (st = 4 ∨ st = 5) → x.bound = true → Does (.phaseCommit m n v) c
      ((ph.setReg64 (AXn_GOFS_LO k) (wrap 64 (ph.pair (AXn_GOFS_LO k) + offset))).axisShift k (c.mot.u + 1)
        ⟨-ofPos offset, 0, 0⟩).done) ∧
    (source ≠ 2 → Does (.actinWrite m n v) c c.done) ∧
    (source = 2 → x.xprev = none → Does (.actinWrite m n v) c got.done) ∧
    (source = 2 → ∀ p, x.xprev = some p → Does (.actinWrite m n v) c (got.setReg64 (AXn_ACTPOS_LO k)
      (wrap 64 (c.pair (AXn_ACTPOS_LO k) +
        sext bits (wrap bits ((v.toNat : Int) - p)) * sext 32 (c.reg (AXn_FBSCALE k)).toNat))).done)

/-- R300, R301, R303, R314, R315, R317, R320, R323, R324: the update instant, and what happens between two. An instant
that is not due changes nothing; one that is takes every axis that is not idle in order and counts. At it a command has
its effect where the state allows it, and is refused with cause 3 anywhere else; a fault enters FAULT with its cause, and
is taken ahead of the instant where its condition holds. A generator turns its direction ahead of a step, and places the
step when its spacings allow: one that must wait is owed, shows in LAG and sets OVERSPEED with cause 4;
a decoder counts a transition of one level, and flags one of two; and the index is latched. -/
def Obligations.MotionFollowsItsUpdateInstants : Prop :=
  ∀ (n : Fin 32) (g q : Fin 16) (a b z : Bool) (stable : Nat) (u : Nat) (k : MotCmd) (c : Chip),
    let ax := n.val
    let x := c.ax ax
    let st := c.axState ax
    let refused := c.flag (AXn_EVCAUSE ax) 3 (256 + ax)
    let source := c.fld (AXn_CFG ax) 29 28
    let restPos := if source = 0 then x.plan.fin.p else ofPos (c.pair (AXn_ACTPOS_LO ax))
    let stepAx := c.fld (STm_CFG g.val) 20 16
    let gen := tblGet .reset c.mot.steps g.val
    let after := fun k => match gen.lastStep with
      | some l => l + k
      | none => 0
    let tim := fun hi lo => c.fld (STm_TIM g.val) hi lo
    let now := c.lt / 262144
    let steps := fun (d : Chip) (w : StepGen) =>
      { d with mot := { d.mot with steps := tblSet .reset d.mot.steps g.val w } }
    let dec := tblGet .reset c.mot.quads q.val
    let keep := fun (d : QuadDec) => { c with mot := { c.mot with quads := tblSet .reset c.mot.quads q.val d } }
    let counts := c.bit (QEm_CFG q.val) 31 = true ∧ c.fld (QEm_CFG q.val) 29 26 * 4 ≤ stable
    let up := (a != dec.b) != c.bit (QEm_CFG q.val) 30
    let moved := (keep { dec with a := a, b := b, last := some c.ltNs }).setReg (QEm_CNT q.val)
      (if up then c.reg (QEm_CNT q.val) + 1 else c.reg (QEm_CNT q.val) - 1)
    (c.ltUs = c.mot.u → Does .motionUpdateInstant c c) ∧
    (c.ltUs < c.mot.u →
      let d := (List.range 32).foldl (fun e i => e.axisInstant i c.ltUs) c
      Does .motionUpdateInstant c { d with mot := { d.mot with u := c.ltUs } }) ∧
    (c.mot.u < c.ltUs → (∀ i, i < 32 → c.axisIdle i = true) →
      Does .motionUpdateInstant c { c with mot := { c.mot with u := c.ltUs } }) ∧
    (c.mot.u < c.ltUs → (∃ i, i < 32 ∧ c.axisIdle i = false) →
      let d := (List.range 32).foldl (fun e i => e.axisInstant i (c.mot.u + 1)) c
      Does .motionUpdateInstant c { d with mot := { d.mot with u := c.mot.u + 1 } }) ∧
    (k.word = 0x1 → (st ≠ 0 ∨ c.reg64 (AXn_SDEC_LO ax) = 0 ∨ c.reg64 (AXn_SJERK_LO ax) = 0) →
      c.axisCommand ax u k = refused) ∧
    (k.word = 0x1 → st = 0 → c.reg64 (AXn_SDEC_LO ax) ≠ 0 → c.reg64 (AXn_SJERK_LO ax) ≠ 0 →
      c.axisCommand ax u k = (c.setAx ax { x with
        plan := .hold restPos, bound := false, xprev := none, lastFb := u, devCnt := 0 }).setFld (AXn_STAT ax) 2 0 1) ∧
    (k.word = 0x2 → (st = 1 ∨ (st = 7 ∧ c.bit (AXn_STAT ax) 31 = true)) →
      c.axisCommand ax u k = c.setFld (AXn_STAT ax) 2 0 0) ∧
    (k.word = 0x80 → st = 7 → c.bit (AXn_STAT ax) 31 = true →
      c.axisCommand ax u k = (c.setFld (AXn_STAT ax) 2 0 1).setFld (AXn_STAT ax) 11 8 0) ∧
    (k.word = 0x4 → st ≠ 1 → st ≠ 2 → st ≠ 3 → c.axisCommand ax u k = refused) ∧
    (k.word = 0x40 → (st < 2 ∨ 5 < st) → c.axisCommand ax u k = refused) ∧
    (∀ cause s, (st = 0 ∨ st = 7) → c.axisFault ax u cause s = c) ∧
    (∀ cause s, st = 6 → c.axisFault ax u cause s = (let d := (c.setFld (AXn_STAT ax) 2 0 7).setFld (AXn_STAT ax) 11 8 cause
      (d.setAx ax { x with devCnt := 0 }).flag (AXn_EVCAUSE ax) 2 (256 + ax))) ∧
    (c.motDue = none → Does (.feedbackStale n) c c ∧ Does (.deviationFault n) c c) ∧
    (∀ w, c.motDue = some w → let d := c.axisBegin ax w
      (st ≠ 7 → d.axState ax = 7 → d.fld (AXn_STAT ax) 11 8 = 2 → Does (.feedbackStale n) c d) ∧
      (st ≠ 7 → d.axState ax = 7 → d.fld (AXn_STAT ax) 11 8 = 1 → Does (.deviationFault n) c d) ∧
      ((st = 7 ∨ d.axState ax ≠ 7) → Does (.feedbackStale n) c c ∧ Does (.deviationFault n) c c)) ∧
    ((c.bit (STm_CFG g.val) 31 = false ∨ c.axState stepAx = 0 ∨ c.fld (AXn_CFG stepAx) 31 30 ≠ 2) →
      Does (.stepPulse g) c c) ∧
    (c.bit (STm_CFG g.val) 31 = true → c.axState stepAx ≠ 0 → c.fld (AXn_CFG stepAx) 31 30 = 2 →
      (c.stepDue g.val = none → Does (.stepPulse g) c (c.setReg (STm_LAG g.val) 0)) ∧
      (∀ fwd due, c.stepDue g.val = some (fwd, due) →
        let dirAt := if gen.fwd = fwd then gen.dirAt else max (due - tim 15 8) (after (tim 23 16))
        let allowed := max (dirAt + tim 15 8) (after (max 32 (2 * tim 7 0)))
        let turned := steps c (if dirAt ≤ now then { gen with fwd := fwd, dirAt := dirAt } else gen)
        let flagged := fun (d : Chip) => if due < allowed then
          (d.setBit (STm_FLAGS g.val) 0 true).flag (AXn_EVCAUSE stepAx) 4 (256 + stepAx) else d
        let pos := sext 32 (c.reg (STm_POS g.val)).toNat + (if fwd then 1 else -1)
        let placed := flagged ((steps turned ⟨fwd, dirAt, some (max due allowed), due⟩).setReg (STm_POS g.val) (w32i pos))
        (now < due → Does (.stepPulse g) c turned) ∧
        (due ≤ now → now < allowed →
          Does (.stepPulse g) c ((flagged turned).setReg (STm_LAG g.val) (w32 (c.stepsOwed g.val)))) ∧
        (due ≤ now → allowed ≤ now →
          Does (.stepPulse g) c (placed.setReg (STm_LAG g.val) (w32 (placed.stepsOwed g.val)))))) ∧
    (¬counts → Does (.quadratureTransition q a b stable) c c ∧ Does (.quadratureIndex q z stable) c c) ∧
    (a = dec.a → b = dec.b → Does (.quadratureTransition q a b stable) c c) ∧
    (counts → a ≠ dec.a → b ≠ dec.b → Does (.quadratureTransition q a b stable) c
      ((keep { dec with a := a, b := b }).setBit (QEm_FLAGS q.val) 0 true)) ∧
    (counts → ((a ≠ dec.a ∧ b = dec.b) ∨ (a = dec.a ∧ b ≠ dec.b)) →
      ((∀ l, dec.last = some l → l + 20 ≤ c.ltNs) → Does (.quadratureTransition q a b stable) c moved) ∧
      (∀ l, dec.last = some l → c.ltNs < l + 20 →
        Does (.quadratureTransition q a b stable) c (moved.setBit (QEm_FLAGS q.val) 1 true))) ∧
    (z = dec.z → Does (.quadratureIndex q z stable) c c) ∧
    (counts → z ≠ dec.z →
      ((z = false ∨ c.bit (QEm_CFG q.val) 25 = false) → Does (.quadratureIndex q z stable) c (keep { dec with z := z })) ∧
      (z = true → c.bit (QEm_CFG q.val) 25 = true → Does (.quadratureIndex q z stable) c
        (((keep { dec with z := z }).setReg (QEm_IDX q.val) (c.reg (QEm_CNT q.val))).setBit (QEm_FLAGS q.val) 2 true)))

/-! ### Skippers and pack FIFOs (chapter 11) -/

/-- R331 to R339, R342: what a Skipper's instruction does. In a Skipper clock of a Skipper that is enabled, or stops
at this clock's end, and neither waits nor stalls, the instruction at PC is executed, and PC goes to the wrap target
after LAST and on by one after any other; a reserved form and a jump outside the program range are not executed: EN
clears, ILLEGAL is flagged and PC stays. -/
def Obligations.SkipperInstructionsFollowR334ToR339 : Prop :=
  ∀ (n : Fin 32) (levels : W32) (c : Chip),
    let k := n.val
    let e := c.windowIn (k / 8) levels
    let w := c.skWord k
    let clocked := (c.sk k).clk < c.skClocks k ∧ (c.skEn k = true ∨ c.skClocks k = (c.sk k).stopClk)
    let idle := clocked ∧ c.bit (SKn_STAT k) 30 = false ∧ c.bit (SKn_STAT k) 31 = false
    let is := fun op => idle ∧ nfld w 15 12 = op ∧ skLegal w = true
    let s := c.skUseClock k
    let t := e.skUseClock k
    let illegal := fun (d : Chip) =>
      ((d.setBit (SKn_CTL k) 31 false).setBit (SKn_STAT k) 29 true).flag (SKn_EVCAUSE k) 4 (288 + k)
    let pc := c.fld (SKn_STAT k) 23 16
    let next := fun (d : Chip) => d.setFld (SKn_STAT k) 23 16
      (if pc = c.fld (SKn_RANGE k) 15 8 then c.fld (SKn_RANGE k) 7 0 else (pc + 1) % 256)
    let inside := c.fld (SKn_RANGE k) 7 0 ≤ nfld w 7 0 ∧ nfld w 7 0 ≤ c.fld (SKn_RANGE k) 15 8
    let jumps := fun (d : Chip) => (inside → Does (.skJmp n levels) c (d.setFld (SKn_STAT k) 23 16 (nfld w 7 0))) ∧
      (¬inside → Does (.skJmp n levels) c (illegal t))
    let falls := fun (d : Chip) => Does (.skJmp n levels) c (next d)
    let c0 := c.fld (SKn_C k) 15 0
    let count := if nfld w 4 0 = 0 then 32 else nfld w 4 0
    let d := (c.reg (SKn_D k)).toNat
    let shi := (c.reg (SKn_SHI k)).toNat
    let sho := (c.reg (SKn_SHO k)).toNat
    let low := c.bit (SKn_CFG k) 1
    let outBits := if low then sho % 2 ^ count else sho / 2 ^ (32 - count)
    let shifted := fun (x : Chip) => (x.setFld (SKn_STAT k) 5 0 (min (c.fld (SKn_STAT k) 5 0 + count) 32)).setReg (SKn_SHO k)
      (w32 (if low then sho / 2 ^ count else sho * 2 ^ count))
    let into := fun (x : Chip) src => (x.setReg (SKn_SHI k)
        (w32 (if c.bit (SKn_CFG k) 0 then shi / 2 ^ count + src * 2 ^ (32 - count) else shi * 2 ^ count + src))).setFld
      (SKn_STAT k) 13 8 (min (c.fld (SKn_STAT k) 13 8 + count) 32)
    let index := nfld w 7 0
    let start := c.skStart k
    let ns := c.ltNsAt start
    let line := k / 8 * 8 + index % 8
    let flag := k / 8 * 8 + index % 8
    let linedUp := c.bit (SKn_IRQ k) (nfld w 5 0) = true ∧ tblGet 0 c.skp.lineAt (k * 8 + nfld w 5 0) + 4 ≤ start
    let pf := c.pf k
    let item := if c.bit (SKn_CFG k) 0 then shi / 2 ^ (32 - 8 * c.pfBytes k) else shi
    let filled := pf.asmBytes + c.pfBytes k
    let data := pf.asm + item % 2 ^ (8 * c.pfBytes k) * 2 ^ (8 * pf.asmBytes)
    let emptied := fun (d : Chip) => (d.setReg (SKn_SHI k) 0).setFld (SKn_STAT k) 13 8 0
    (¬idle → Does (.skOut n) c c ∧ Does (.skPush n) c c ∧ Does (.skPull n) c c ∧ Does (.skSet n) c c ∧
      Does (.skIrq n) c c ∧ Does (.skStamp n) c c ∧ Does (.skJmp n levels) c e ∧ Does (.skWait n levels) c e ∧
      Does (.skIn n levels) c e ∧ Does (.skMov n levels) c e) ∧
    (idle → skLegal w = false →
      (nfld w 15 12 = 0 → Does (.skJmp n levels) c (illegal t)) ∧ (nfld w 15 12 = 3 → Does (.skOut n) c (illegal s)) ∧
      (10 ≤ nfld w 15 12 → Does (.skSet n) c (illegal s) ∧ Does (.skWait n levels) c (illegal t))) ∧
    (is 0 → nfld w 11 8 = 0 → jumps t) ∧
    (is 0 → nfld w 11 8 = 1 → (c0 = 0 → falls t) ∧ (c0 = 1 → falls (t.setFld (SKn_C k) 15 0 0)) ∧
      (1 < c0 → jumps (t.setFld (SKn_C k) 15 0 (c0 - 1)))) ∧
    (is 0 → nfld w 11 8 = 6 → ((c.sk k).feed ≠ [] → jumps t) ∧ ((c.sk k).feed = [] → falls t)) ∧
    (is 0 → nfld w 11 8 = 9 → (d = 0 → jumps t) ∧ (d ≠ 0 → falls t)) ∧
    (is 1 → nfld w 10 8 = 2 →
      (linedUp → Does (.skWait n levels) c (next (t.setBit (SKn_IRQ k) (nfld w 5 0) false))) ∧
      (¬linedUp → Does (.skWait n levels) c
        ((t.setSk k { t.sk k with waitStart := 4 * start }).setBit (SKn_STAT k) 30 true))) ∧
    (is 2 → nfld w 11 9 = 1 → Does (.skIn n levels) c (next (into t (d % 2 ^ count)))) ∧
    (is 2 → nfld w 11 9 = 2 → Does (.skIn n levels) c (next (into t 0))) ∧
    (is 2 → nfld w 11 9 = 3 → Does (.skIn n levels) c (next (into t (2 ^ count - 1)))) ∧
    (is 3 → nfld w 11 9 = 2 → Does (.skOut n) c (next ((shifted s).setReg (SKn_D k) (w32 outBits)))) ∧
    (is 3 → nfld w 11 9 = 3 → Does (.skOut n) c (next (shifted s))) ∧
    (is 3 → nfld w 11 9 = 4 → Does (.skOut n) c (next ((shifted s).setFld (SKn_C k) 15 0 outBits))) ∧
    (is 4 → nbit w 10 = true → pf.asmBytes = 0 → Does (.skPush n) c (next s)) ∧
    (is 4 → nbit w 10 = false → nbit w 11 = false → filled ≠ 8 →
      Does (.skPush n) c (next (emptied (s.setPf k { pf with asm := data, asmBytes := filled })))) ∧
    (is 4 → nbit w 10 = false → (filled = 8 ∨ nbit w 11 = true) → pf.words.length ≠ 256 →
      pf.words.length + 1 ≠ c.fld (PFn_CFG k) 24 16 → (nbit w 11 = false ∨ c.bit (PFn_CFG k) 31 = false) →
      let committed : PackWord := ⟨data, at_ pf.seq 8 + at_ (b2n (nbit w 11)) 4 + filled⟩
      Does (.skPush n) c (next (emptied (s.setPf k
        { pf with words := pf.words ++ [committed], asm := 0, asmBytes := 0, seq := (pf.seq + 1) % 256 })))) ∧
    (is 4 → pf.words.length = 256 → 0 < pf.asmBytes → nbit w 11 = true →
      Does (.skPush n) c (s.setBit (SKn_STAT k) 31 true)) ∧
    (is 5 → (c.sk k).feed = [] → Does (.skPull n) c (s.setBit (SKn_STAT k) 31 true)) ∧
    (is 5 → ∀ x xs, (c.sk k).feed = x :: xs →
      let y := ((s.setSk k { s.sk k with feed := xs }).setReg (SKn_SHO k) x).setFld (SKn_STAT k) 5 0 0
      Does (.skPull n) c ((if xs.length = c.fld (SKn_CTL k) 3 0 then y.flag (SKn_EVCAUSE k) 2 (288 + k) else y).skAdvance
        k)) ∧
    (is 6 → nfld w 8 6 = 1 → nfld w 11 9 = 1 →
      (nfld w 5 4 = 0 → Does (.skMov n levels) c (next (t.setReg (SKn_D k) (c.reg (SKn_D k))))) ∧
      (nfld w 5 4 = 1 → Does (.skMov n levels) c (next (t.setReg (SKn_D k) (c.reg (SKn_D k) + 1))))) ∧
    (is 6 → nfld w 8 6 = 4 → nfld w 11 9 = 5 → nfld w 5 4 = 0 →
      Does (.skMov n levels) c (next ((t.setReg (SKn_SHO k) (c.reg (SKn_SHI k))).setFld (SKn_STAT k) 5 0 0))) ∧
    (is 7 → nfld w 11 9 = 4 → Does (.skSet n) c (next (s.setReg (SKn_D k) (w32 index)))) ∧
    (is 7 → nfld w 11 9 = 2 → Does (.skSet n) c (next (s.setFld (SKn_C k) 15 0 index))) ∧
    (is 8 → nfld w 11 10 = 0 →
      (c.bit (SCc_FLAGSET (k / 8)) (index % 8) = true → Does (.skIrq n) c (next s)) ∧
      (c.bit (SCc_FLAGSET (k / 8)) (index % 8) = false → Does (.skIrq n) c
        (next { s.setBit (SCc_FLAGSET (k / 8)) (index % 8) true with
          skp := { s.skp with flagAt := tblSet 0 c.skp.flagAt flag c.tmu.raw } }))) ∧
    (is 8 → nfld w 11 10 = 1 → Does (.skIrq n) c (next (s.setBit (SCc_FLAGSET (k / 8)) (index % 8) false))) ∧
    (is 8 → nfld w 11 10 = 2 →
      (c.bit (SKn_IRQ line) 7 = true → Does (.skIrq n) c (next s)) ∧
      (c.bit (SKn_IRQ line) 7 = false → Does (.skIrq n) c
        (next { s.setBit (SKn_IRQ line) 7 true with
          skp := { s.skp with lineAt := tblSet 0 c.skp.lineAt (line * 8 + 7) c.tmu.raw } }))) ∧
    (is 8 → nfld w 11 10 = 3 → Does (.skIrq n) c
      (next ((s.setFld (SKn_EVCAUSE k) 15 8 index).flag (SKn_EVCAUSE k) 0 (288 + k)))) ∧
    (is 9 → nfld w 11 10 = 0 → Does (.skStamp n) c (next (s.setReg64 (SKn_STAMP_LO k) ns))) ∧
    (is 9 → nfld w 11 10 = 1 → Does (.skStamp n) c
      (next ((s.setReg64 (SKn_STAMP_LO k) ns).setReg (SKn_D k) (lo32 ns))))

/-- R330, R332, R337, R340 to R345, R348 to R351: what is done to a Skipper and its pack FIFO from outside. A wait
ends as an arrival, and one with TMO at its timed output's edge, with TMOF, where no arrival is seen; a stalled
instruction completes once its FIFO has room or a word; a command from a master that does not own the cluster is
refused; RESTART acts on a disabled Skipper alone; a full feed drops the word; while PWR gates the cluster every write
is ignored; and a pack FIFO's reader pops the oldest word, or reads the last one again with UNDERRUN. -/
def Obligations.SkipperCommandsAndPackFifos : Prop :=
  ∀ (m : Master) (n : Fin 32) (cl : Fin 4) (i : Fin 256) (second : Bool) (v levels : W32) (c : Chip),
    let k := n.val
    let e := c.windowIn (k / 8) levels
    let w := c.skWord k
    let clocked := (c.sk k).clk < c.skClocks k ∧ (c.skEn k = true ∨ c.skClocks k = (c.sk k).stopClk)
    let linedUp := c.bit (SKn_IRQ k) (nfld w 5 0) = true ∧
      tblGet 0 c.skp.lineAt (k * 8 + nfld w 5 0) + 4 ≤ c.skStart k
    let enabled := fun (d : Chip) => (((d.setBit (SKn_CTL k) 31 true).setBit (SKn_STAT k) 30 false).setBit
      (SKn_STAT k) 31 false).setSk k { c.sk k with enAt := (c.tmu.raw + 1) / 2 * 2, clk := 0, stopClk := 0 }
    let waiting := c.bit (SKn_STAT k) 30 = true
    let stalled := c.bit (SKn_STAT k) 31 = true
    let s := c.skUseClock k
    let after := fun (d : Chip) => ((d.skUseClock k).setBit (SKn_STAT k) 30 false).skAdvance k
    let powered := c.bit PWR_GSTAT (16 + k / 8) = true
    let ours := m.val = 0 ∨ m.val = c.fld (SCc_OWNER (k / 8)) 3 0
    let ctl := SKn_CTL k
    let refused := (c.flag (SKn_EVCAUSE k) 1 (288 + k)).done
    let marked := fun (d : Chip) => d.setFld ctl 3 0 (wfld v 3 0)
    let lanes := if second then SKn_LANES1 k else SKn_LANES0 k
    let pf := c.pf k
    (¬(clocked ∧ waiting) → Does (.skWaitEnd n levels) c e ∧ Does (.skWaitTimeout n levels) c e) ∧
    (clocked → waiting → nfld w 10 8 = 2 → linedUp →
      let d := after (e.setBit (SKn_IRQ k) (nfld w 5 0) false)
      Does (.skWaitEnd n levels) c d ∧ (nbit w 7 = true → Does (.skWaitTimeout n levels) c d)) ∧
    (clocked → waiting → nfld w 10 8 = 2 → ¬linedUp →
      Does (.skWaitEnd n levels) c e ∧
      (nbit w 7 = false → Does (.skWaitTimeout n levels) c e) ∧
      let sees := ∃ edge ∈ tblGet [] c.tmu.toEdges (c.fld (SKn_TMO k) 4 0),
        (c.sk k).waitStart < edge ∧ edge + 16 ≤ 4 * c.skStart k
      (nbit w 7 = true → ¬sees → Does (.skWaitTimeout n levels) c e) ∧
      (nbit w 7 = true → sees → Does (.skWaitTimeout n levels) c (after (e.setBit (SKn_STAT k) 28 true)))) ∧
    (¬(clocked ∧ stalled) → Does (.skStallRelease n) c c) ∧
    (clocked → stalled → nfld w 15 12 = 5 → ((c.sk k).feed = [] ∨ c.skStart k ≤ (c.sk k).fedAt) →
      Does (.skStallRelease n) c c) ∧
    (clocked → stalled → nfld w 15 12 = 5 → (c.sk k).fedAt < c.skStart k → ∀ x xs, (c.sk k).feed = x :: xs → xs.length ≠ c.fld ctl 3 0 →
      let go := s.setBit (SKn_STAT k) 31 false
      Does (.skStallRelease n) c
        ((((go.setSk k { go.sk k with feed := xs }).setReg (SKn_SHO k) x).setFld (SKn_STAT k) 5 0 0).skAdvance k)) ∧
    (powered → ¬ours → Does (.skipperEnable m n v) c c.refuse ∧ Does (.skipperDisable m n v) c c.refuse ∧
      Does (.skipperRestart m n v) c c.refuse ∧ Does (.lanesWrite m n second v) c c.refuse) ∧
    (powered → ours → wbit v 30 = false →
      (c.skEn k = false → Does (.skipperEnable m n v) c (enabled (marked c)).done ∧
        Does (.skipperDisable m n v) c (marked c).done) ∧
      (c.skEn k = true → Does (.skipperEnable m n v) c (marked c).done ∧
        Does (.skipperDisable m n v) c
          (((marked c).setBit ctl 31 false).setSk k { c.sk k with stopClk := c.skClocks k + 1 }).done)) ∧
    (powered → ours → c.skEn k = true → Does (.skipperRestart m n v) c refused) ∧
    (powered → ours → c.skEn k = false → wbit v 31 = true →
      let restarted := ((c.setReg (SKn_SHI k) 0).setReg (SKn_SHO k) 0).setReg (SKn_STAT k)
        (w32 (at_ (c.fld (SKn_RANGE k) 7 0) 16))
      Does (.skipperRestart m n v) c (enabled (marked restarted)).done) ∧
    (powered → (c.sk k).feed.length < 8 →
      Does (.feedWrite m n v) c (c.setSk k { c.sk k with
        feed := (c.sk k).feed ++ [v]
        fedAt := if (c.sk k).feed.isEmpty then c.tmu.raw else (c.sk k).fedAt }).done) ∧
    (powered → 8 ≤ (c.sk k).feed.length → Does (.feedWrite m n v) c (c.flag (SKn_EVCAUSE k) 3 (288 + k)).done) ∧
    (powered → (wbit v 7 = false ∨ c.bit (SKn_IRQ k) 7 = true) → Does (.irqsetWrite m n v) c c.done) ∧
    (powered → wbit v 7 = true → c.bit (SKn_IRQ k) 7 = false → Does (.irqsetWrite m n v) c
      ({ c.setBit (SKn_IRQ k) 7 true with
        skp := { c.skp with lineAt := tblSet 0 c.skp.lineAt (k * 8 + 7) c.tmu.raw } } : Chip).done) ∧
    (powered → ours → (c.skEn k = true ∨ c.claimClash k second v = true) → Does (.lanesWrite m n second v) c refused) ∧
    (powered → ours → c.skEn k = false → c.claimClash k second v = false →
      Does (.lanesWrite m n second v) c (c.plainWrite m.val lanes v)) ∧
    (c.bit PWR_GSTAT (16 + cl.val) = true →
      (m.val ≠ 0 → m.val ≠ 13 → Does (.instructionWordWrite m cl i v) c c.refuse) ∧
      (∀ x, x < 8 → c.skEn (cl.val * 8 + x) = true → c.skInRange (cl.val * 8 + x) i.val = true →
        Does (.instructionWordWrite m cl i v) c c.refuse) ∧
      ((m.val = 0 ∨ m.val = 13) → (∀ x, x < 8 → c.skEn (cl.val * 8 + x) = false) →
        Does (.instructionWordWrite m cl i v) c (c.setReg (SCc_INSN cl.val i.val) (v &&& 0xFFFF)).done)) ∧
    (c.bit PWR_GSTAT (16 + k / 8) = false → Does (.skipperEnable m n v) c c.done ∧ Does (.feedWrite m n v) c c.done ∧
      Does (.packFifoReset m n v) c c.done) ∧
    (powered → Does (.packFifoReset m n v) c
      ((c.setPf k { PackFifo.reset with freed := c.tmu.raw }).setReg (PFn_FLAGS k) 0).done) ∧
    (powered → (c.fld (PFn_CFG k) 5 4 = 1 ∨ c.fld (PFn_CFG k) 5 4 = 2) → Does (.packFifoRead m n) c c.refuse) ∧
    (powered → c.fld (PFn_CFG k) 5 4 = 0 →
      Gives (.packFifoRead m n) c (fun d => (∀ x xs, pf.words = x :: xs →
        d.bus = .ok (x.data % 2 ^ 32) ∧ d.pf k = { pf with
          words := xs, last := x, credits := min pf.credits xs.length
          freed := if pf.words.length = 256 then c.tmu.raw else pf.freed } ∧
        d.latchedPart m.val (PFn_DATA_LO k + 4) = w32 (x.data / 2 ^ 32) ∧
        d.latchedPart m.val (PFn_DATA_LO k + 8) = w32 x.tag ∧ (∀ a, d.reg a = c.reg a) ∧ d.mem = c.mem) ∧
        (pf.words = [] → d.bus = .ok (pf.last.data % 2 ^ 32) ∧ d.pf k = pf ∧
          d.latchedPart m.val (PFn_DATA_LO k + 8) = w32 (pf.last.tag % 2 ^ 31 + 2 ^ 31) ∧
          (∀ a, d.reg a = (c.flag (PFn_FLAGS k) 0 (320 + k)).reg a) ∧ d.mem = c.mem))) ∧
    (c.fld (PFn_CFG k) 5 4 = 1 → pf.credits < pf.words.length → pf.credits < c.fld (PFn_CREDIT k) 8 0 →
      Does (.packCreditGrant n) c (c.setPf k { pf with credits := pf.credits + 1 })) ∧
    ((c.fld (PFn_CFG k) 5 4 ≠ 1 ∨ pf.words.length ≤ pf.credits ∨ c.fld (PFn_CREDIT k) 8 0 ≤ pf.credits) →
      Does (.packCreditGrant n) c c)

/-! ### Banks, atomics, locks, scrubbing and march runs (chapters 01 and 12) -/

/-- R28, R29, R357, R359, R360, R362: a bank's owner is changed by a member of its group or by SUP alone, and takes
effect with the oldest request; the atomic port reads the old word and stores the sum or the new word at once, for a
reader whose segment and owner group allow it; and a lock is taken by the read that finds it free, and given back by
its holder or SUP. -/
def Obligations.BanksAtomicsAndLocks : Prop :=
  ∀ (m : Master) (b : Fin 32) (n : Fin 256) (v : W32) (c : Chip),
    let own := MEM_BOWN b.val
    let asked := fun og => { c with memc := { c.memc with handovers := c.memc.handovers ++ [Handover.mk b.val og m.val] } }
    let waiting := c.memc.handovers.filter fun h => h.bank == b.val
    let group := match waiting.getLast? with
      | some h => h.og
      | none => c.fld own 3 0
    let writer := m.val = 0 ∨ c.bit (MEM_OGRP group) m.val = true
    let unbound := ∀ f, f < 8 → c.bit (TSK_FRn_CFG f) 31 = true → c.ibank f ≠ b.val
    let a := (tblGet 0 c.memc.atAddr m.val).toNat
    let opnd := tblGet 0 c.memc.atOpnd m.val
    let bank := (a - 0x10000000) / 0x80000
    let inSram := 0x10000000 ≤ a ∧ a < 0x11000000
    let granted := a % 4 = 0 ∧ inSram ∧ c.bit (MEM_BSTAT bank) 31 = false ∧
      c.bit (MEM_OGRP (c.fld (MEM_BOWN bank) 3 0)) m.val = true ∧ c.segAllows m.val a 4 3 = true
    let sound := ∀ w, w ∈ wordsOf a 4 → w ∉ c.memc.ueWords ∧ w ∉ c.memc.ceWords
    let stored := fun w =>
      let d := { c with memc := { c.memc with
        ueWords := c.memc.ueWords.filter fun x => !(wholeWords a 4).contains x
        ceWords := c.memc.ceWords.filter fun x => !(wordsOf a 4).contains x } }
      (d.setWord a w).answer (.ok (c.word a).toNat)
    let turned := (c.flag MEM_EVCAUSE 7 423).refuse
    let lock := MEM_LK n.val
    let holder := c.fld lock 4 0
    (writer → Does (.bankOwnerWrite m b v) c (asked (wfld v 3 0)).done) ∧
    (¬writer → Does (.bankOwnerWrite m b v) c c.refuse) ∧
    (waiting = [] → Does (.bankOwnerTakeEffect b) c c) ∧
    (∀ h, waiting.head? = some h → unbound →
      let d := { c with memc := { c.memc with handovers := c.memc.handovers.erase h } }
      Does (.bankOwnerTakeEffect b) c (d.setFld own 3 0 h.og)) ∧
    (granted → sound → Does (.atomicFaddRead m) c (stored (c.word a + opnd)) ∧
      Does (.atomicSwapRead m) c (stored opnd)) ∧
    (¬granted → Does (.atomicFaddRead m) c turned ∧ Does (.atomicSwapRead m) c turned) ∧
    (granted → ∀ w, (wordsOf a 4).find? (fun w => c.memc.ueWords.contains w) = some w →
      let d := ((c.inc MEM_ECCUE).setReg MEM_ECCADDR (w32 w)).flag MEM_EVCAUSE 3 419
      Does (.atomicFaddRead m) c (d.answer .ecc) ∧ Does (.atomicSwapRead m) c (d.answer .ecc)) ∧
    (holder = 0 → Does (.lockRead m n) c ((c.setReg lock (w32 (m.val + 1))).answer (.ok 0))) ∧
    (holder ≠ 0 → Does (.lockRead m n) c (c.answer (.ok holder))) ∧
    (wfld v 4 0 = 0 → (m.val = 0 ∨ holder = m.val + 1) → Does (.lockWrite m n v) c (c.setReg lock 0).done) ∧
    ((wfld v 4 0 ≠ 0 ∨ (m.val ≠ 0 ∧ holder ≠ m.val + 1)) → Does (.lockWrite m n v) c turned)

/-- R363, R365 to R371: the scrubber takes one line of every bank, if enabled and its time has passed; a march run
starts from SUP alone, skips a bank whose owner group lacks the engine, ignores a GO while it is busy, and freezes at
the first access that no segment grants; and its end applies each bank's result, writes the repair map where it
repaired, sets NORING where B31 has failed (R421), sets DONE and clears BUSY. -/
def Obligations.ScrubbingAndMarchRuns : Prop :=
  ∀ (m : Master) (v : W32) (xs : List BankResult) (c : Chip),
    let clean := ∀ b, b < 32 → ∀ w, w ∈ wordsOf (0x10000000 + b * 0x80000 + c.memc.scrubLine * 32) 32 →
      w ∉ c.memc.ueWords ∧ w ∉ c.memc.ceWords
    let sel := (List.range 32).filter fun b => c.bit MEM_MARCH_BANKS b
    let own := sel.filter fun b => c.bit (MEM_OGRP (c.fld (MEM_BOWN b) 3 0)) 14
    let opts := at_ (if wfld v 9 8 = 1 then 1 else 0) 8 + at_ (b2n (wbit v 4)) 4 + at_ (b2n (wbit v 3)) 3
    let noted := (List.range 32).foldl (fun d b => d.setBit (MEM_BSTAT b) 30 (sel.contains b && !own.contains b)) c
    let begun := (own.foldl (fun d b => d.setFld (MEM_BSTAT b) 15 8 0) noted).setReg MEM_MARCH_CTL
      (w32 (2 ^ 30 + opts))
    let run := fun fz => ({ banks := own, alg := if wfld v 9 8 = 1 then 1 else 0, preserve := wbit v 4
                            repair := wbit v 3, frozen := fz } : MarchRun)
    let next := c.memc.scrubAt + (c.reg MEM_SCRUB).toNat * 65536000
    let ringless := fun (d : Chip) => if d.bit (MEM_BSTAT 31) 31 = true then d.setBit HIF_STAT 29 true else d
    let ended := fun (d : Chip) => (((ringless d).setBit MEM_MARCH_CTL 30 false).setBit MEM_MARCH_CTL 29 true).flag MEM_EVCAUSE 4 420
    ((c.bit MEM_CTL 0 = false ∨ c.lt < next) → Does .scrubLine c c) ∧
    (c.bit MEM_CTL 0 = true → next ≤ c.lt → clean → Does .scrubLine c { c with memc := { c.memc with
      scrubLine := (c.memc.scrubLine + 1) % 16384, scrubAt := c.lt } }) ∧
    (m.val ≠ 0 → Does (.marchStart m v) c c.refuse) ∧
    (m.val = 0 → c.memc.march ≠ none → Does (.marchStart m v) c
      (c.setReg MEM_MARCH_CTL (w32 (c.fld MEM_MARCH_CTL 30 29 * 2 ^ 29 + opts))).done) ∧
    (m.val = 0 → c.memc.march = none → (∀ b ∈ own, c.segAllows 14 (0x10000000 + b * 0x80000) 0x80000 3 = true) →
      Does (.marchStart m v) c { begun with memc := { c.memc with march := some (run none) } }.done) ∧
    (m.val = 0 → c.memc.march = none → ∀ a, own.findSome? c.marchUncovered = some a →
      Does (.marchStart m v) c
        (({ begun with memc := { c.memc with march := some (run (some a)) } }).freezeAt 0x11 14 a 64 3).done) ∧
    (c.memc.march = none → Does (.marchDone xs) c c) ∧
    (∀ r, c.memc.march = some r → r.frozen ≠ none → Does (.marchDone xs) c c) ∧
    (∀ r, c.memc.march = some r → r.frozen = none →
      let applied := xs.foldl (fun d x => d.marchBank r x) c
      let after := { applied with memc := { applied.memc with march := none } }
      ((r.repair = false ∨ after.bit MEM_STAT 0 = false) → Does (.marchDone xs) c (ended after)) ∧
      (r.repair = true → after.bit MEM_STAT 0 = true → Does (.marchDone xs) c
        (ended ((after.mramWrite 0x20000000 after.repairMap).mramWrite 0x20000800 after.repairMap)))) ∧
    (∀ r x, x.bank ∈ r.banks → x.rows = [] → c.bit (MEM_BSTAT x.bank) 31 = false → r.preserve = true →
      let here := fun w => regionOf w == .sram x.bank
      let read := c.wordsRead here
      let d := (read.setFld (MEM_BSTAT x.bank) 15 8 0).setBit (MEM_BSTAT x.bank) 31 false
      c.marchBank r x = { d with memc := { d.memc with ceWords := d.memc.ceWords.filter fun w => !here w } }) ∧
    (∀ here, (∀ w, w ∈ c.memc.ceWords → here w = false) → (∀ w, w ∈ c.memc.ueWords → here w = false) →
      c.wordsRead here = c) ∧
    (∀ here w, c.memc.ceWords = [] → c.memc.ueWords = [w] → here w = true → regionOf w ≠ .mram → c.wordsRead here =
      ((c.inc MEM_ECCUE).setReg MEM_ECCADDR (w32 w)).flag MEM_EVCAUSE 3 419) ∧
    (∀ r x, x.bank ∉ r.banks → c.marchBank r x = c)

/-! ### Freezes and data movers (chapter 12) -/

/-- R374, R376, R379 to R382: resolving a freeze and working a data mover. A resolution acts on the oldest entry
alone, from SUP, and names its unit; GO, STOP and a trigger act as the channel's state allows; a time trigger comes
once its instant is reached; a descriptor is read, checked and started or made to wait; a wait times out unless its
trigger is there; and the channels take turns, a unit each, whose last one ends its descriptor. -/
def Obligations.FreezesAndDataMovers : Prop :=
  ∀ (m : Master) (unit : Fin 256) (n : Fin 64) (v : W32) (c : Chip),
    let k := n.val
    let x := c.xd k
    let own := c.fld (XDn_OWNER k) 3 0
    let ours := m.val = 0 ∨ m.val = own
    let flag := fun (d : Chip) i => d.flag (XDn_FLAGS k) i (352 + k)
    let triggered := fun (d : Chip) => if (d.xd k).pend then flag d 2 else d.setXd k { d.xd k with pend := true }
    let started := (c.setReg (XDn_CUR k) (c.reg (XDn_DESC k))).setXd k
      { x with st := .active, phase := .fetch, moved := 0, stopReq := false, popped := [] }
    let cur := c.fld (XDn_CUR k) 31 5 * 32
    let t := c.reg64 (XDn_TRIGT_LO k)
    let per := (c.reg (XDn_TRIGPER k)).toNat
    let ended := fun (d : Chip) r => ((d.inc (XDn_DONE k)).setFld (XDn_STAT k) 19 16 r).setBit (XDn_STAT k) 9 false
    let status := fun (d : Chip) r =>
      d.dmaWrite own (cur + 24) (leBytes 4 (2 ^ 31 + at_ r 27 + (d.xd k).moved) ++ leBytes 4 (d.ltNs % 2 ^ 32))
    let begun := fun (y : XdDesc) => { x with desc := y, moved := 0, popped := [], phase := .move }
    let loaded := fun (d : Chip) (y : XdDesc) => (d.setXd k (begun y)).setBit (XDn_STAT k) 9 false
    let limit := (c.reg (XDn_TMO k)).toNat
    let read := c.segAllows own cur 32 1 = true
    let freezes := fun (es : List FreezeEntry) => { c with xdm := { c.xdm with freezes := es } }
    (m.val ≠ 0 → c.tst.frozen = none → Does (.freezeResume m unit) c c.refuse ∧ Does (.freezeRedirect m unit) c c.refuse ∧
      Does (.freezeReset m unit) c c.refuse) ∧
    (m.val = 0 → c.tst.frozen = none → (∀ e es, c.xdm.freezes = e :: es → e.unit ≠ unit.val) →
      Does (.freezeResume m unit) c c.done ∧ Does (.freezeRedirect m unit) c c.done ∧
      Does (.freezeReset m unit) c c.done) ∧
    (m.val = 0 → c.tst.frozen = none → ∀ e es, c.xdm.freezes = e :: es → e.unit = 0x80 + k → unit.val = 0x80 + k →
      x.st = .frozen → x.phase = .move →
      Does (.freezeResume m unit) c ((freezes es).setXd k { x with st := .active }).done ∧
      Does (.freezeReset m unit) c ((freezes es).setXd k
        { x with st := .idle, phase := .fetch, stopReq := false, popped := [] }).done ∧
      (∀ d, status (freezes es) 6 = (none, d) → d.xd k = x → d.tst.frozen = none → Does (.freezeRedirect m unit) c
        ((flag (ended d 6) 1).setXd k { x with st := .error, phase := .fetch, stopReq := false, popped := [] }).done)) ∧
    (¬ours → Does (.xdmGo m n v) c c.refuse ∧ Does (.xdmStop m n v) c c.refuse ∧ Does (.xdmTrigWrite m n v) c c.refuse ∧
      Does (.xdmTrigtCommit m n v) c c.refuse) ∧
    (ours → wbit v 30 = false → wbit v 29 = false →
      ((x.st = .idle ∨ x.st = .error) → Does (.xdmGo m n v) c started.done) ∧
      (x.st ≠ .idle → x.st ≠ .error → Does (.xdmGo m n v) c (flag c 3).done)) ∧
    (ours → wbit v 31 = false → wbit v 29 = false →
      ((x.st = .active ∨ x.st = .frozen) → Does (.xdmStop m n v) c (c.setXd k { x with stopReq := true }).done) ∧
      ((x.st = .idle ∨ x.st = .error) → Does (.xdmStop m n v) c c.done) ∧
      (x.st = .armed → ∀ d, status c 7 = (none, d) → d.xd k = x → Does (.xdmStop m n v) c
        ((flag (ended d 7) 1).setXd k { x with st := .error, phase := .fetch, stopReq := false, popped := [] }).done)) ∧
    (ours → wbit v 31 = false → wbit v 30 = false → Does (.xdmTrigWrite m n v) c (triggered c).done) ∧
    (ours → let d := c.plainWrite m.val (XDn_TRIGT_LO k) v
      Does (.xdmTrigtCommit m n v) c (d.setXd k { d.xd k with timeArmed := true }).done) ∧
    ((x.timeArmed = false ∨ c.ltNs < t) → Does (.xdmTimeTrigger n) c c) ∧
    (x.timeArmed = true → t ≤ c.ltNs → per = 0 →
      Does (.xdmTimeTrigger n) c ((triggered c).setXd k { (triggered c).xd k with timeArmed := false })) ∧
    (x.timeArmed = true → t ≤ c.ltNs → per ≠ 0 → Does (.xdmTimeTrigger n) c
      ((triggered c).setReg64 (XDn_TRIGT_LO k) (t + ((c.ltNs - t) / per + 1) * per))) ∧
    ((x.st = .idle ∨ x.st = .error ∨ x.st = .frozen) → Does (.xdmDescriptorStart n) c c) ∧
    (x.st = .armed → x.pend = false → Does (.xdmDescriptorStart n) c c) ∧
    (x.st = .armed → x.pend = true → Does (.xdmDescriptorStart n) c
      (c.setXd k { x with st := .active, phase := .move, pend := false })) ∧
    (x.st = .active → x.phase = .fetch → x.stopReq = false → ¬read → Does (.xdmDescriptorStart n) c
      ((c.setXd k { x with st := .frozen }).freezeAt (0x80 + k) own cur 32 1)) ∧
    (x.st = .active → x.phase = .fetch → x.stopReq = false → read → ∀ bs d, busRead c own cur 32 = (.ok bs, d) →
      d.xd k = x → d.lt = c.lt → d.reg (XDn_TMO k) = c.reg (XDn_TMO k) → let y := XdDesc.of bs
      (d.badDesc k y = false → y.trig = false → Does (.xdmDescriptorStart n) c (loaded d y)) ∧
      (d.badDesc k y = false → y.trig = true → x.pend = false → Does (.xdmDescriptorStart n) c
        ((loaded d y).setXd k { (begun y) with st := .armed, armedAt := c.lt, armedLimit := limit }))) ∧
    (∀ y : XdDesc, (y.len = 0 ∨ y.smode = 3 ∨ 2 ≤ y.dmode ∨ (y.dmode = 0 ∧ y.dst % 64 ≠ 0) ∨
      ((y.smode = 1 ∨ y.dmode = 1) ∧ y.len % 4 ≠ 0) ∨ (y.smode = 1 ∧ y.src % 4 ≠ 0) ∨ (y.dmode = 1 ∧ y.dst % 4 ≠ 0) ∨
      (y.smode = 2 ∧ (y.len % 8 ≠ 0 ∨ c.fld (PFn_CFG y.pf) 5 4 ≠ 1 ∨ c.fld (PFn_CFG y.pf) 13 8 ≠ k))) ↔
      c.badDesc k y = true) ∧
    ((x.st ≠ .armed ∨ x.pend = true ∨ x.armedLimit = 0 ∨ c.lt ≤ x.armedAt + x.armedLimit * 65536000) →
      Does (.xdmArmedTimeout n) c c) ∧
    (x.st = .armed → x.pend = false → x.armedLimit ≠ 0 → x.armedAt + x.armedLimit * 65536000 < c.lt →
      ∀ d, status c 5 = (none, d) → d.xd k = x → Does (.xdmArmedTimeout n) c
        ((flag (ended d 5) 1).setXd k { x with st := .error, phase := .fetch, stopReq := false, popped := [] })) ∧
    ((∀ i, i < 64 → c.xdReady i = false) → Does .xdmUnit c c) ∧
    ((∀ j, j < k → c.xdReady ((c.xdm.lastServed + 1 + j) % 64) = false) →
      c.xdReady ((c.xdm.lastServed + 1 + k) % 64) = true → let i := (c.xdm.lastServed + 1 + k) % 64
      Does .xdmUnit c ({ c with xdm := { c.xdm with lastServed := i } }.xdUnit i)) ∧
    (x.stopReq = false → x.desc.smode = 0 → x.desc.dmode = 0 → x.desc.cven = false →
      let len := min 64 (x.desc.len - x.moved)
      let a := x.desc.src + x.moved
      let b := x.desc.dst + x.moved
      (c.segAllows own a len 1 = false →
        c.xdUnit k = (c.setXd k { x with st := .frozen }).freezeAt (0x80 + k) own a len 1) ∧
      (c.segAllows own a len 1 = true → ∀ bs d, c.readParts own a len = (.ok bs, d) → bs.length = len → d.xd k = x →
        d.fld (XDn_OWNER k) 3 0 = own →
        (d.segAllows own b len 2 = false →
          c.xdUnit k = (d.setXd k { x with st := .frozen }).freezeAt (0x80 + k) own b len 2) ∧
        (d.segAllows own b len 2 = true → ∀ e, busWrite d own b bs = (none, e) → e.xd k = x →
          x.moved + len < x.desc.len → c.xdUnit k = e.setXd k { x with moved := x.moved + len, popped := [] })))

/-! ### Mailboxes (chapter 13) -/

/-- R388 to R393, R395: a mailbox in use. Only its sender writes data and says GO, and only while it is empty; only
its receiver's read of the last register acknowledges; the timeout sets TMO where the message is still there once its
last tick is over (R38); two partners that are both full for longer than the limit get CROSS; a reset by SUP discards
the message; and a master that is no party is refused. -/
def Obligations.MailboxesFollowR388ToR395 : Prop :=
  ∀ (m : Master) (n : Fin 64) (i : Fin 16) (v : W32) (c : Chip),
    let k := n.val
    let cfg := MBn_CFG k
    let ctl := MBn_CTL k
    let en := c.bit cfg 31
    let wide := c.bit cfg 30
    let full := c.bit ctl 30
    let last := if wide = true then 15 else 7
    let sender := m.val = c.fld cfg 3 0
    let receiver := m.val = c.fld cfg 7 4
    let raise := fun (d : Chip) code => d.raise (448 + k) code
    let go := (c.setReg ctl (wsetFld (wsetBit (wsetBit (wsetBit (c.reg ctl) 30 true) 29 false) 27 false) 15 0
      ((c.fld ctl 15 0 + 1) % 65536))).setMbTimer k ⟨some c.lt⟩
    let emptied := ((c.setBit ctl 30 false).setMbTimer k .reset).setPair k .reset
    let alone := c.mbPartner k = none
    let t := (tblGet .reset c.mbx.timers k).goLt
    let expired := (c.setBit ctl 29 true).setMbTimer k .reset
    let wiped := fun (d : Chip) => (List.range 16).foldl (fun e j => e.setReg (MBn_DATA k j) 0)
      ((d.setBit ctl 29 false).setBit ctl 28 false)
    let data := c.reg (MBn_DATA k last)
    ((full = true ∨ (wbit v 31 = true ∧ wfld v 3 0 = wfld v 7 4)) → Does (.mailboxConfigWrite m n v) c c.refuse) ∧
    (full = false → (wbit v 31 = false ∨ wfld v 3 0 ≠ wfld v 7 4) →
      Does (.mailboxConfigWrite m n v) c (c.plainWrite m.val cfg v)) ∧
    (en = true → sender → full = false → i.val ≤ last →
      Does (.mailboxDataWrite m n i v) c (c.setReg (MBn_DATA k i.val) v).done) ∧
    (en = true → sender → full = false → last < i.val → Does (.mailboxDataWrite m n i v) c c.done) ∧
    ((en = false ∨ ¬sender ∨ full = true) → Does (.mailboxDataWrite m n i v) c c.refuse) ∧
    (en = true → sender → full = false → alone → wbit v 29 = false → wbit v 28 = false → wbit v 26 = false →
      Does (.mailboxGo m n v) c (raise go 1).done) ∧
    ((en = false ∨ ¬sender ∨ full = true) → Does (.mailboxGo m n v) c c.refuse) ∧
    (en = true → receiver → full = true → alone →
      (wide = true → Does (.mailboxAcknowledge m n) c ((raise emptied 2).answer (.ok data.toNat))) ∧
      (wide = false → Does (.mailboxAcknowledge m n) c (emptied.answer (.ok data.toNat)))) ∧
    (en = true → (sender ∨ m.val = 0 ∨ receiver) → (¬receiver ∨ full = false) →
      Does (.mailboxAcknowledge m n) c (c.answer (.ok data.toNat))) ∧
    (m.val ≠ 0 → (en = false ∨ (¬sender ∧ ¬receiver)) → Does (.mailboxAcknowledge m n) c c.refuse) ∧
    (t = none → Does (.mailboxTimeout n) c c) ∧
    (∀ g, t = some g → (full = false ∨ c.mbTimeout k = 0 ∨ c.lt ≤ g + c.mbTimeout k) →
      Does (.mailboxTimeout n) c c) ∧
    (∀ g, t = some g → full = true → c.mbTimeout k ≠ 0 → g + c.mbTimeout k < c.lt →
      (wide = true → Does (.mailboxTimeout n) c (raise expired 3)) ∧
      (wide = false → Does (.mailboxTimeout n) c expired)) ∧
    (alone → Does (.crossWaitDetect n) c c) ∧
    (∀ p s, c.mbPartner k = some p → tblGet .reset c.mbx.pairs k = ⟨some s, false⟩ → full = true →
      c.bit (MBn_CTL p) 30 = true →
      let passed := (c.lt - 1) / 65536000 - s / 65536000
      (passed ≤ (c.reg MBX_PAIRLIM).toNat → Does (.crossWaitDetect n) c c) ∧
      ((c.reg MBX_PAIRLIM).toNat < passed → Does (.crossWaitDetect n) c
        ((((((c.setBit ctl 28 true).setBit (MBn_CTL p) 28 true).setPair k ⟨some s, true⟩).setPair p
          ⟨some s, true⟩).raise (448 + k) 4).raise (448 + p) 4 |>.wakeLine 0 1 7))) ∧
    (m.val ≠ 0 → Does (.mailboxReset m n v) c c.refuse) ∧
    (m.val = 0 → wbit v 31 = false → wbit v 29 = false → wbit v 28 = false → alone →
      (full = false → Does (.mailboxReset m n v) c (wiped emptied).done) ∧
      (full = true → wide = false → Does (.mailboxReset m n v) c
        ((List.range 16).foldl (fun e j => e.setReg (MBn_DATA k j) 0)
          (((emptied.setBit ctl 29 false).setBit ctl 28 false).setBit ctl 27 true)).done))

/-- R390, R391: a message is never overwritten. From a state with a full mailbox, a data write, a GO or a
configuration write by any master leaves its data and its FULL as they are, and so does a read of a data register, but
for the receiver's read of the last one, which clears FULL and keeps the data. -/
def Obligations.AMessageIsNeverOverwritten : Prop :=
  ∀ (m : Master) (n : Fin 64) (i : Fin 16) (v : W32) (c d : Chip) (k : Nat),
    c.runs = true → c.bit (MBn_CTL n.val) 30 = true → k < 16 →
    let holds := d.reg (MBn_DATA n.val k) = c.reg (MBn_DATA n.val k) ∧ d.bit (MBn_CTL n.val) 30 = true
    (Does (.mailboxDataWrite m n i v) c d → holds) ∧ (Does (.mailboxGo m n v) c d → wbit v 26 = false → holds) ∧
    (Does (.mailboxConfigWrite m n v) c d → holds) ∧
    (Does (.mailboxAcknowledge m n) c d → d.reg (MBn_DATA n.val k) = c.reg (MBn_DATA n.val k) ∧
      (m.val ≠ c.fld (MBn_CFG n.val) 7 4 → d.bit (MBn_CTL n.val) 30 = true))

/-! ### The event fabric and the check-value unit (chapter 13) -/

/-- R402: a write of EVT_RAISE by SUP raises the source in its SRC field with code 0 and touches nothing else of the
device, and an event with code 0 is delivered to both its targets and to its record queue, as its route says. -/
def Obligations.RaiseWriteFollowsR402 : Prop :=
  (∀ (m : Master) (v : W32) (c : Chip), m.val = 0 →
    let src := wfld v 8 0
    let d := c.setBit (EVT_PEND (src / 32)) (src % 32) true
    Does (.evtRaiseWrite m v) c ({ d with evt := { c.evt with
      raised := c.evt.raised ++ [RaisedEvent.mk src 0 c.lt (c.reg (EVT_ROUTE src))] } }).done) ∧
  (∀ (c : Chip) e rest, c.evt.raised = e :: rest → e.code = 0 →
    let d := { c with evt := { c.evt with raised := rest } }
    let a := if wbit e.route 31 then d.deliverTo (wfld e.route 11 0) else d
    let b := if wbit e.route 30 then a.deliverTo (wfld e.route 25 14) else a
    Does .eventDelivery c (if wbit e.route 29 then b.record (wfld e.route 28 26) e else b))

/-- R397 to R401: delivery. A mailbox's event goes to the target that its code names; a wake line, a Skipper's line
and a mover's trigger are set, and an MSI-X message waits to be sent, in order, under its vector's mask; a record
queue stores an event or drops the newest; pops are its owner's; and a route with a target outside the table is
refused. -/
def Obligations.EventsAreDelivered : Prop :=
  ∀ (m : Master) (k : Fin 8) (n : Fin 512) (v : W32) (t : Nat) (e : RaisedEvent) (rest : List RaisedEvent) (c : Chip),
    let d := { c with evt := { c.evt with raised := rest } }
    let kind := t / 512
    let q := c.evq k.val
    let legal := fun (t : Nat) => (t / 512 = 1 ∧ t % 64 ≠ 0) ∨ t / 512 = 2 ∨ t / 512 = 3 ∨ t / 512 = 4 ∨
      (t / 512 = 5 ∧ t % 8 ≤ 4) ∨ t / 512 = 6 ∨ (t / 512 = 7 ∧ 1 ≤ t % 8 ∧ t % 8 ≤ 6)
    let routed := (wbit v 31 = true → legal (wfld v 11 0)) ∧ (wbit v 30 = true → legal (wfld v 25 14))
    let sent := fun (r : List Nat) => { c with evt := { c.evt with msix := r } }
    let told := fun x => (join64 (c.msixWord (4 * x + 1)) (c.msixWord (4 * x)), c.msixWord (4 * x + 2))
    (c.evt.raised = [] → Does .eventDelivery c c) ∧
    (c.evt.raised = e :: rest → 448 ≤ e.src → (e.code = 1 ∨ e.code = 4) → wbit e.route 29 = false →
      Does .eventDelivery c (if wbit e.route 31 then d.deliverTo (wfld e.route 11 0) else d)) ∧
    (c.evt.raised = e :: rest → 448 ≤ e.src → (e.code = 2 ∨ e.code = 3 ∨ e.code = 5) → wbit e.route 29 = false →
      Does .eventDelivery c (if wbit e.route 30 then d.deliverTo (wfld e.route 25 14) else d)) ∧
    (kind = 1 → c.fld HIF_STAT 17 16 = 0 →
      c.deliverTo t = { c with evt := { c.evt with msix := c.evt.msix ++ [t % 64] } }) ∧
    (kind = 2 → c.deliverTo t = c) ∧ (kind = 3 → c.deliverTo t = c.wakeLine 0 1 (t % 8)) ∧
    (kind = 4 → c.deliverTo t = c.wakeLine (1 + t / 64 % 2) (t / 8 % 8) (t % 8)) ∧
    (kind = 5 → c.deliverTo t = c.wakeLine (3 + t / 32 % 8) (t / 8 % 4) (t % 8)) ∧
    (kind = 6 → (c.xd (t % 64)).pend = false → c.deliverTo t = c.setXd (t % 64) { c.xd (t % 64) with pend := true }) ∧
    (kind = 7 → c.bit (SKn_IRQ (t / 8 % 32)) (t % 8) = true → c.deliverTo t = c) ∧
    (kind = 7 → c.bit (SKn_IRQ (t / 8 % 32)) (t % 8) = false → c.deliverTo t =
      { c.setBit (SKn_IRQ (t / 8 % 32)) (t % 8) true with
        skp := { c.skp with lineAt := tblSet 0 c.skp.lineAt (t / 8 % 32 * 8 + t % 8) c.tmu.raw } }) ∧
    (q.recs.length < 64 → c.record k.val e = c.setEvq k.val
      ⟨q.recs ++ [⟨e.lt, q.seq, q.lostBefore, e.code, e.src⟩], (q.seq + 1) % 65536, false⟩) ∧
    (64 ≤ q.recs.length → c.record k.val e =
      ((c.setEvq k.val { q with lostBefore := true }).inc (EVT_EQk_LOST k.val)).setBit (EVT_EQk_FLAGS k.val) 0 true) ∧
    ((m.val = 0 ∨ m.val = c.fld (EVT_EQk_OWNER k.val) 3 0) →
      (wbit v 0 = true → Does (.eventQueuePop m k v) c (c.setEvq k.val { q with recs := q.recs.tail }).done) ∧
      (wbit v 0 = false → Does (.eventQueuePop m k v) c c.done)) ∧
    (m.val ≠ 0 → m.val ≠ c.fld (EVT_EQk_OWNER k.val) 3 0 → Does (.eventQueuePop m k v) c c.refuse) ∧
    (m.val ≠ 0 → Does (.evtRaiseWrite m v) c c.refuse) ∧
    (m.val = 0 → routed → Does (.routeWrite m n v) c (c.plainWrite 0 (EVT_ROUTE n.val) v)) ∧
    ((m.val ≠ 0 ∨ ¬routed) → Does (.routeWrite m n v) c c.refuse) ∧
    ((c.evt.msix = [] ∨ c.bit HIF_STAT 31 = false) → Does .msixSend c c) ∧
    (∀ x r, c.evt.msix = x :: r → c.bit HIF_STAT 31 = true →
      (wbit (c.msixWord (4 * x + 3)) 0 = true → nbit c.hif.pba x = true → Does .msixSend c (sent r)) ∧
      (wbit (c.msixWord (4 * x + 3)) 0 = true → nbit c.hif.pba x = false →
        Does .msixSend c { (sent r) with hif := { c.hif with pba := c.hif.pba + 2 ^ x } }) ∧
      (wbit (c.msixWord (4 * x + 3)) 0 = false → Does .msixSend c { (sent r) with hif := { c.hif with message := some (told x) } }))

/-- R403 to R405, R407: check values. LOAD fills a context from its preset; START takes INIT, and the fold word where
it is asked for; data bytes are stepped into STATE and counted; FINISH latches RESULT, sets DONE and raises the
source; and a master that is neither SUP nor the owner is refused. -/
def Obligations.CheckValuesFollowR403ToR407 : Prop :=
  (∀ (m : Master) (n : Fin 16) (p : Fin 4) (v : W32) (c : Chip),
    let k := n.val
    let ours := m.val = 0 ∨ m.val = c.fld (CVn_OWNER k) 3 0
    let w := c.fld (CVn_CFG k) 6 0
    let poly := c.reg64 (CVn_POLY_LO k) % 2 ^ w
    let step := fun (s : Nat) bs => bs.foldl (crcStep w poly (c.bit (CVn_CFG k) 8)) (s % 2 ^ w)
    let fold := beBytes 4 (c.reg (CVn_FOLD k)).toNat
    let folds := c.bit (CVn_CFG k) 31
    let atEnd := c.bit (CVn_CFG k) 30
    let init := c.reg64 (CVn_INIT_LO k) % 2 ^ w
    let state := c.reg64 (CVn_STATE_LO k)
    let alone := c.bit SWX_SCHED_CTL 31 = false ∨ c.fld SWX_SCHED_CTL 3 0 ≠ k
    let fed := fun bs => ((c.setReg64 (CVn_STATE_LO k) (step state bs)).setReg (CVn_COUNT k)
      (c.reg (CVn_COUNT k) + w32 bs.length)).done
    let result := fun (s : Nat) => (if c.bit (CVn_CFG k) 9 then reflectBits w s else s) ^^^
      (c.reg64 (CVn_XOROUT_LO k) % 2 ^ w)
    let load := fun (w poly i : Nat) (ref : Bool) (xo : Nat) => ((((c.setReg (CVn_CFG k)
      (wsetFld (wsetBit (wsetBit (c.reg (CVn_CFG k)) 9 ref) 8 ref) 6 0 w)).setReg64 (CVn_POLY_LO k) poly).setReg64
        (CVn_INIT_LO k) i).setReg64 (CVn_XOROUT_LO k) xo).done
    (¬ours → Does (.cvLoad m n p) c c.refuse ∧ Does (.cvStart m n) c c.refuse ∧ Does (.cvFinish m n) c c.refuse ∧
      Does (.cvData4Write m n v) c c.refuse ∧ Does (.cvData1Write m n v) c c.refuse) ∧
    (ours → (p = 0 → Does (.cvLoad m n p) c (load 32 0x04C11DB7 0xFFFFFFFF true 0xFFFFFFFF)) ∧
      (p = 1 → Does (.cvLoad m n p) c (load 32 0x1EDC6F41 0xFFFFFFFF true 0xFFFFFFFF)) ∧
      (p = 2 → Does (.cvLoad m n p) c (load 16 0x1021 0xFFFF false 0)) ∧
      (p = 3 → Does (.cvLoad m n p) c (load 64 0x42F0E1EBA9EA3693 0 false 0))) ∧
    (ours → (folds = false ∨ atEnd = true) →
      Does (.cvStart m n) c ((c.setReg64 (CVn_STATE_LO k) init).setReg (CVn_COUNT k) 0).done) ∧
    (ours → alone → Does (.cvData4Write m n v) c (fed (leBytes 4 v.toNat)) ∧
      Does (.cvData1Write m n v) c (fed (leBytes 1 v.toNat))) ∧
    (ours → (folds = false ∨ atEnd = false) → Does (.cvFinish m n) c
      ((c.setReg64 (CVn_RESULT_LO k) (result (state % 2 ^ w))).flag (CVn_FLAGS k) 0 (432 + k)).done) ∧
    (ours → folds = true → atEnd = true → w ≤ 64 → Does (.cvFinish m n) c
      (((c.setReg64 (CVn_STATE_LO k) (step state fold)).setReg64 (CVn_RESULT_LO k)
        (result (step state fold % 2 ^ w))).flag (CVn_FLAGS k) 0 (432 + k)).done)) ∧
  (∀ (w poly s : Nat) (b : Byte),
    crcStep w poly true s b = crcStep w poly false s (BitVec.ofNat 8 (reflectBits 8 b.toNat))) ∧
  (∀ (w poly s : Nat) (b : Byte), s < 2 ^ w → poly < 2 ^ w → 1 ≤ w → crcStep w poly false s b < 2 ^ w) ∧
  ([0x31, 0x32, 0x33, 0x34, 0x35, 0x36, 0x37, 0x38, 0x39] : List Byte).foldl (crcStep 16 0x1021 false) 0xFFFF = 0x29B1

/-! ### The host's paths and the command service (chapter 14) -/

/-- R413 to R418, R434, R501, R532: the host's paths. An access on a path that is not the active one is ignored and
reads all ones; on the active one the control region reaches HIF and the mailboxes as master 11, and the SRAM window
reaches SRAM under the host's segments, whose violation freezes it; a refused word reads all ones and is flagged;
PERST_N resets the endpoint; and an outbound read waits for its completions, or for its time limit. -/
def Obligations.HostPathsReachControlAndSram : Prop :=
  ∀ (m : Master) (write up : Bool) (ofs n ad : Nat) (a v : W32) (vs : List W32) (data bs : List Byte)
    (w s : Fin 16) (c d : Chip),
    let path := c.fld HIF_STAT 17 16
    let link := c.bit HIF_STAT 31 = true
    let ones := fun k => { c with hif := { c.hif with out := List.replicate k 0xFFFFFFFF }, bus := .idle }
    let gives := fun (e : Chip) ws => { e with hif := { e.hif with out := ws }, bus := .ok 0 }
    let abort := fun (e : Chip) => { e with hif := { e.hif with out := [] }, bus := .busError }
    let at_ := 0x10000000 + ofs
    let frozen := c.bit HIF_STAT 30 = true
    let freezes := fun (e : Chip) len rwx => abort ((e.setBit HIF_STAT 30 true).freezeAt 0x0B 11 at_ (min 64 len) rwx)
    let host := fun (e : Chip) reg => { e with hif := { e.hif with out := [w32 reg] }, bus := .ok 0 }
    let trained := ((c.setBit HIF_STAT 31 up).setFld HIF_STAT 7 4 (if up then w.val else 0)).setFld HIF_STAT 3 0
      (if up then s.val else 0)
    let down := ((c.setBit HIF_STAT 31 false).setFld HIF_STAT 7 4 0).setFld HIF_STAT 3 0 0
    let first := c.hif.ob.find? fun x => x.m == m.val && x.result.isNone
    let resolved := fun (x : ObRead) r =>
      { c with hif := { c.hif with ob := c.hif.ob.map fun z => if z = x then { x with result := some r } else z } }
    let calm := c.tst.frozen = none
    (path ≠ 0 → Does (.bar0Access write ofs n v) c (ones 1) ∧ Does (.bar2Access write ofs n data) c (ones 1) ∧
      Does (.pcieLinkChange up w s) c c) ∧
    (path ≠ 1 → Does (.xspiRead a n) c (ones n) ∧ Does (.xspiWrite a vs) c (ones 0) ∧ Does .xspiStatus c (ones 1)) ∧
    (path < 2 → Does (.parallelBusRead ad) c (ones 1) ∧ Does (.parallelBusWrite ad v) c (ones 0)) ∧
    (path = 0 → Does (.pcieLinkChange up w s) c trained) ∧
    (path = 0 → link → (0x10000 < ofs + n ∨ (ofs % 4 ≠ 0 ∨ n ≠ 4)) → Does (.bar0Access write ofs n v) c (abort c)) ∧
    (path = 0 → link → ofs < 0x100 → ofs % 4 = 0 →
      (∀ r, (regRead c 11 (0x40110000 + ofs)).bus = .ok r →
        Does (.bar0Access false ofs 4 v) c (host (regRead c 11 (0x40110000 + ofs)) r)) ∧
      ((regWrite c 11 (0x40110000 + ofs) v).bus ≠ .busError →
        Does (.bar0Access true ofs 4 v) c (gives (regWrite c 11 (0x40110000 + ofs) v) []))) ∧
    (path = 0 → link → 0x2000 ≤ ofs → ofs < 0x4000 → ofs % 4 = 0 →
      ((regWrite c 11 (0x400F0000 + (ofs - 0x2000)) v).bus = .busError →
        Does (.bar0Access true ofs 4 v) c (abort (regWrite c 11 (0x400F0000 + (ofs - 0x2000)) v)))) ∧
    (path = 0 → link → frozen → Does (.bar2Access write ofs n data) c (abort c)) ∧
    (path = 0 → link → ¬frozen → c.segAllows 11 at_ n 1 = false →
      Does (.bar2Access false ofs n data) c (freezes c n 1)) ∧
    (path = 0 → link → ¬frozen → c.segAllows 11 at_ data.length 2 = false →
      Does (.bar2Access true ofs n data) c (freezes c data.length 2)) ∧
    (path = 0 → link → ¬frozen → c.segAllows 11 at_ n 1 = true → c.memRead 11 at_ n = (.ok bs, d) →
      Does (.bar2Access false ofs n data) c (gives d (wordsIn bs))) ∧
    (path = 0 → link → ¬frozen → c.segAllows 11 at_ data.length 2 = true → c.memWrite 11 at_ data = (none, d) →
      Does (.bar2Access true ofs n data) c (gives d [])) ∧
    (path = 1 → Does .xspiStatus c
      (gives c [w32 (b2n (c.bit HIF_FLAGS 2) * 2 + b2n c.hif.pathUp)])) ∧
    (path = 1 → c.hif.pathUp = true → 0x10000 ≤ a.toNat → a.toNat < 0x01000000 →
      Does (.xspiRead a 1) c (gives (c.setBit HIF_FLAGS 2 true) [0xFFFFFFFF]) ∧
      Does (.xspiWrite a [v]) c (gives (c.setBit HIF_FLAGS 2 true) [])) ∧
    (2 ≤ path → c.hif.pathUp = true → ad < 0x100 → ad % 4 = 0 →
      (∀ r, (regRead c 11 (0x40110000 + ad)).bus = .ok r →
        Does (.parallelBusRead ad) c (host (regRead c 11 (0x40110000 + ad)) r)) ∧
      ((regWrite c 11 (0x40110000 + ad) v).bus ≠ .busError →
        Does (.parallelBusWrite ad v) c (gives (regWrite c 11 (0x40110000 + ad) v) []))) ∧
    (path = 0 → Does .perstAssert c { down with hif := { c.hif with msix := [], pba := 0 } }) ∧
    (¬link → Does (.outboundAccess m write ofs n data) c c.refuse) ∧
    (link → ofs + data.length ≤ 2 ^ 28 → 0 < data.length → Does (.outboundAccess m true ofs n data) c
      { c with hif := { c.hif with posted := some (c.hostAddr (0xC0000000 + ofs), data) }, bus := .ok 0 }) ∧
    (link → ofs + n ≤ 2 ^ 28 → 0 < n →
      (c.hif.ob.find? fun r => r.m == m.val && r.a == 0xC0000000 + ofs && r.n == n) = none →
      Does (.outboundAccess m false ofs n data) c
        { c with hif := { c.hif with ob := c.hif.ob ++ [ObRead.mk m.val (0xC0000000 + ofs) n c.tmu.raw none] }
                 bus := .waiting }) ∧
    (calm → first = none → Does (.outboundReadCompletion m up data) c c ∧ Does (.outboundReadTimeout m) c c) ∧
    (calm → ∀ x, first = some x →
      Does (.outboundReadCompletion m true data) c (resolved x (some (bytesAt data 0 x.n))) ∧
      Does (.outboundReadCompletion m false data) c ((resolved x none).setBit HIF_FLAGS 4 true) ∧
      (c.tmu.raw ≤ x.start + 10000000 → Does (.outboundReadTimeout m) c c) ∧
      (x.start + 10000000 < c.tmu.raw →
        Does (.outboundReadTimeout m) c ((resolved x none).setBit HIF_FLAGS 4 true)))

/-- R27, R42, R422 to R429, R431: the rings and the taking of commands. A doorbell is the host's, and counts on within
its ring or is flagged; a posted command is taken in order once a reply slot is free, a slot that cannot be read is
passed by (log entry 58), and a violation freezes SUP; a command's checks refuse it with the first status that
applies, and a command that passes all is put in service; replies are posted in their order of being ready; and a
started command gives its final reply once. -/
def Obligations.CommandsAreTakenAndAnswered : Prop :=
  ∀ (m : Master) (v : W32) (path : CmdPath) (pkt : List Byte) (limit : Nat) (received errors : Nat) (c : Chip),
    let cons := c.fld HIF_CMD_CONS 15 0
    let posted := c.fld HIF_CMD_DB 15 0
    let dist := fun a b => (a + 65536 - b) % 65536
    let read := c.fld HIF_RPL_DB 15 0
    let prod := c.fld HIF_RPL_PROD 15 0
    let free := dist prod read + (c.hif.replies.filter fun r => r.path == .ring).length < 64
    let serving := c.serving = true
    let noring := c.bit HIF_STAT 29
    let within := dist (wfld v 15 0) cons ≤ 64 ∧ dist posted cons ≤ dist (wfld v 15 0) cons
    let reads := dist (wfld v 15 0) read ≤ dist prod read
    let slot := 0x10F80000 + cons % 64 * 4096
    let passed := fun (d : Chip) => d.setFld HIF_CMD_CONS 15 0 ((cons + 1) % 65536)
    let l := leNat (bytesAt pkt 4 2)
    let cmd : Cmd := ⟨path, leNat (bytesAt pkt 0 2), leNat (bytesAt pkt 2 2), (byteAt pkt 7).toNat,
      payloadOf pkt (min l 4064)⟩
    let answers := fun key st detail =>
      { c with hif := { c.hif with replies := c.hif.replies ++ [Reply.mk path (replyPacket cmd key false st detail [])] } }
    let form := l ≤ 4064 ∧ l % 4 = 0 ∧ byteAt pkt 6 = 0
    let taken := c.takePacket path pkt limit
    let alone := cmd.slot = 0xFF ∧ form ∧ 16 + l ≤ limit ∧ c.romService = false
    let served := { c with hif := { c.hif with cur := some cmd } }
    (m.val ≠ 11 → Does (.commandDoorbell m v) c c.refuse ∧ Does (.replyDoorbell m v) c c.refuse) ∧
    (m.val = 11 → within → Does (.commandDoorbell m v) c (c.setReg HIF_CMD_DB (w32 (wfld v 15 0))).done) ∧
    (m.val = 11 → ¬within → Does (.commandDoorbell m v) c (c.setBit HIF_FLAGS 0 true).done) ∧
    (m.val = 11 → reads → Does (.replyDoorbell m v) c (c.setReg HIF_RPL_DB (w32 (wfld v 15 0))).done) ∧
    (m.val = 11 → ¬reads → Does (.replyDoorbell m v) c (c.setBit HIF_FLAGS 1 true).done) ∧
    (c.fld HIF_STAT 17 16 = 0 →
      Does .replySignal c { c with evt := { c.evt with msix := c.evt.msix ++ [0] }, bus := .ok 0 }) ∧
    (c.fld HIF_STAT 17 16 ≠ 0 → Does .replySignal c (c.setBit HIF_VPEND0 0 true).done) ∧
    ((¬serving ∨ noring = true ∨ c.hif.cur ≠ none ∨ posted = cons ∨ ¬free) → Does .commandTake c c) ∧
    (serving → noring = false → c.hif.cur = none → posted ≠ cons → free →
      (∀ bs d, c.readSpan 0 slot 4096 = (.ok bs, d) → Does .commandTake c ((passed d).takePacket .ring bs 4096)) ∧
      (∀ e a k d, c.readSpan 0 slot 4096 = (.error (e, a, k), d) →
        (e ≠ .seg → d.serving = true → Does .commandTake c (passed d)) ∧
        (e = .seg → d.core.frozen = c.core.frozen → Does .commandTake c (d.fwFreezes a k 1)))) ∧
    ((¬serving ∨ c.hif.cur ≠ none ∨ c.bit (MBn_CTL 0) 30 = false) → Does .mailboxCommandTake c c) ∧
    (serving → c.hif.cur = none → c.bit (MBn_CTL 0) 30 = true → c.bit (MBn_CFG 0) 31 = true →
      c.bit (MBn_CFG 0) 30 = true → c.fld (MBn_CFG 0) 7 4 = 0 → c.mbPartner 0 = none →
      Does .mailboxCommandTake c (((((c.setBit (MBn_CTL 0) 30 false).setMbTimer 0 .reset).setPair 0 .reset).raise 448
        2).takePacket .mailbox (bytesOfWords ((List.range 16).map fun i => c.reg (MBn_DATA 0 i))) 64)) ∧
    (cmd.slot = 0xFF → (¬form ∨ limit < 16 + l) → taken = answers none 0x0101 0) ∧
    (cmd.slot ≠ 0xFF → form → 32 + l ≤ limit → (8 ≤ cmd.slot ∨ c.session cmd.slot = none) →
      taken = answers none 0x0200 0) ∧
    (∀ x, cmd.slot < 8 → form → 32 + l ≤ limit → c.session cmd.slot = some x → cmd.op ≠ 0x0102 → x.proven = true →
      (packetTag (x.kCmd cmd.slot) (bytesAt pkt 0 (16 + l)) ≠ bytesAt pkt (16 + l) 16 ∨ cmd.seq ≤ x.lastSeq) →
      taken = answers none 0x0202 0) ∧
    (alone → cmdRow cmd.op = none → taken = answers none 0x0100 0) ∧
    (alone → ∀ r, cmdRow cmd.op = some r →
      (r.role ≠ 0 → taken = answers none 0x0200 0) ∧
      (r.role = 0 → c.sysState ∉ r.states → taken = answers none 0x0300 c.sysState) ∧
      (r.role = 0 → c.sysState ∈ r.states → r.fits cmd.words = false → taken = answers none 0x0101 0) ∧
      (r.role = 0 → c.sysState ∈ r.states → r.fits cmd.words = true → taken = served)) ∧
    ((c.hif.replies.find? c.postable = none ∨ ¬serving) → Does .replyPost c c) ∧
    (serving → ∀ r, c.hif.replies.find? c.postable = some r → r.path = .ring →
      let d := { c with hif := { c.hif with replies := c.hif.replies.erase r } }
      ∀ e, d.writeSpan 0 (0x10FC0000 + prod % 64 * 4096) r.bytes = (none, e) → e.serving = true →
        Does .replyPost c (e.setFld HIF_RPL_PROD 15 0 ((prod + 1) % 65536))) ∧
    (¬serving → Does (.asyncCommandComplete received errors) c c) ∧
    (serving → c.sec.load = none → c.hif.started = [] → Does (.asyncCommandComplete received errors) c c) ∧
    (serving → c.sec.load = none → ∀ x w, c.hif.started = [⟨x, .march⟩] → x.slot = 0xFF → x.path = .ring →
      w = (List.range 32).map (fun b => memLive c 0 (MEM_BSTAT b)) →
      (c.bit MEM_MARCH_CTL 30 = true → Does (.asyncCommandComplete received errors) c c) ∧
      (c.bit MEM_MARCH_CTL 30 = false → Does (.asyncCommandComplete received errors) c { c with hif := { c.hif with
        started := [], replies := c.hif.replies ++ [Reply.mk .ring (replyPacket x none false 0 0 w)] } }))

/-! ### The commands of supervisor firmware (chapter 14) -/

/-- R433 (system, sessions and images), R451, R452, R454, R456, R457: what each command in service does and replies. A
read command returns the registers that its table lists; a write command writes them as SUP, in that order; a
parameter out of range answers BAD_PARAMETER with its word's index; and a unit, state or handle that forbids the
command answers so, with nothing changed. -/
def Obligations.SystemSessionAndImageCommands : Prop :=
  ∀ (x : Cmd) (burnt : Bool) (c : Chip),
    let b := idled c
    let w := fun i => pw x.words i
    let n := fun i => (pw x.words i).toNat
    let bad := fun i k => Replies i x c 0x0102 k [] b
    let refused := fun i st k => Replies i x c st k [] b
    let h := b.handle (n 0)
    let data := (bytesOfWords x.words).drop 8
    let kind := n 0
    let state := c.peState (n 0)
    let fuses := c.sec.fuses
    let lost := fun i (d : Chip) => (tblGet none d.core.frozen 0 = none → Replies i x c 0x0600 0 [] d) ∧
      (tblGet none d.core.frozen 0 ≠ none → Does i c d)
    let put := fun (d : Chip) k (y : Option LoadHandle) =>
      { d with hif := { d.hif with handles := tblSet none d.hif.handles k y } }
    (InService 0x0001 x c → Replies .getIdentity x c 0 0 [c.reg SYS_ID, 0x11648A3F, lo32 fuses.serial.toNat,
      hi32 fuses.serial.toNat, w32 fuses.vendorId.toNat, (c.image 0).version, w32 (c.image 0).counter, c.reg HIF_STAT] b) ∧
    (InService 0x0002 x c → ∀ ws d, b.supReads [SYS_STATE, TSK_STAT, PWR_STAT, TMU_DOMSEL, XDM_FRZ_COUNT, MEM_STAT] = (ws, d) →
      Replies .getState x c 0 0 ws d) ∧
    (InService 0x0003 x c → let t := wfld (w 0) 2 0
      (t ≠ 1 → (t < 3 ∨ 5 < t) → bad (.setState burnt) 0) ∧
      (t = 1 → Does (.setState burnt) c (goReset b 3)) ∧
      (∀ d, 3 ≤ t → t ≤ 5 → sysStateWrite b 0 (w32 t) = d → d.sysState = t → (t ≠ 4 ∨ c.sysState = 4) →
        Starts (.setState burnt) x c (.known 0 0 [d.reg SYS_STATE]) d) ∧
      (∀ d, 3 ≤ t → t ≤ 5 → sysStateWrite b 0 (w32 t) = d → d.sysState ≠ t →
        Replies (.setState burnt) x c 0x0300 c.sysState [] d)) ∧
    (InService 0x0004 x c → let unit := wfld (w 0) 7 0
      ((unit = 0 ∨ 9 < unit) → bad .resetSubsystem 0) ∧ (unit = 1 → 7 < n 1 → bad .resetSubsystem 1) ∧
      (unit = 1 → n 1 ≤ 7 → tblFind c.hif.sources (n 1) = none → refused .resetSubsystem 0x0300 (c.peState (n 1))) ∧
      (unit = 1 → n 1 ≤ 7 → ∀ s img d, tblFind c.hif.sources (n 1) = some s → c.peState (n 1) = 3 → c.sec.load = none →
        (engineClearDone (engineClear (engineStop b (n 1)) (n 1)) (n 1)).fwRead s.1 s.2 = (some img, d) →
        d.imgVerify 1 (w32 (n 1)) img = none →
        Starts .resetSubsystem x c (.reload (n 1)) (d.secPlace (engineSections (n 1) img))) ∧
      (unit = 9 → n 1 ≤ 63 → Starts .resetSubsystem x c (.known 0 0 []) (mailboxReset b (n 1))) ∧
      (unit = 7 → n 1 ≤ 3 → Starts .resetSubsystem x c (.known 0 0 []) (b.resetCluster (n 1)))) ∧
    (InService 0x0005 x c → Replies .echo x c 0 0 x.words b) ∧
    (InService 0x0006 x c → ((n 0 < 0x40000000 ∨ 0x4015FFFF < n 0) → bad .readReg 0) ∧
      (0x40000000 ≤ n 0 → n 0 ≤ 0x4015FFFF → (n 1 = 0 ∨ 1016 < n 1) → bad .readReg 1) ∧
      (0x40000000 ≤ n 0 → n 0 ≤ 0x4015FFFF → n 1 = 1 → ∀ d v, registerRead b 0 (n 0) 4 = d →
        (d.bus = .ok v → Replies .readReg x c 0 0 [w32 v] d) ∧ (d.bus = .busError → Replies .readReg x c 0x0102 0 [] d))) ∧
    (InService 0x0007 x c → ((n 0 = 0 ∨ 507 < n 0) → bad .writeReg 0) ∧
      (n 0 = 1 → regionOf (n 1) = .periph → ∀ d, registerWrite b 0 (n 1) 4 (w 2) = d →
        (d.bus ≠ .busError → Replies .writeReg x c 0 0 [] d) ∧ (d.bus = .busError → Replies .writeReg x c 0x0102 0 [] d))) ∧
    (InService 0x0101 x c → (c.bit SEC_TRNG_STAT 31 = true → refused .openSession 0x0600 0) ∧
      (c.bit SEC_TRNG_STAT 31 = false → wbit (w 0) 8 = false → n 1 ≤ 3 → c.roleLocked (wfld (w 0) 1 0) = false →
        ∀ key s r d, b.openKey (wfld (w 0) 1 0) (n 1) = some key → b.freeSession = some s → b.randomBytes 4 = (r, d) →
        let y : Session := ⟨wfld (w 0) 1 0, key, bytesAt (bytesOfWords x.words) 8 32, r.take 32,
          (bytesOfWords x.words).take 8, false, c.tmu.raw, 0, []⟩
        Replies .openSession x c 0 0 (w32 s :: payloadOf (zeros 16 ++ r.take 32) 32) (d.setSession s (some y)))) ∧
    (InService 0x0102 x c → ∀ d, (∀ p, b.prove x.slot (bytesOfWords x.words) = (some p, d) →
        Replies .proveSession x c 0 0 (payloadOf (zeros 16 ++ p) 48) d) ∧
      (b.prove x.slot (bytesOfWords x.words) = (none, d) → Replies .proveSession x c 0x0202 0 [] d)) ∧
    (InService 0x0103 x c → ((∃ s ∈ c.hif.started, s.cmd.slot = x.slot) → refused .closeSession 0x0301 0) ∧
      ((∀ s ∈ c.hif.started, s.cmd.slot ≠ x.slot) → Replies .closeSession x c 0 0 [] (b.setSession x.slot none))) ∧
    (InService 0x0104 x c → (3 < n 0 → bad .setPassword 0) ∧ (n 0 ≤ 3 → ∀ ok d,
      b.setPassword (n 0) (w 1) (bytesAt (bytesOfWords x.words) 8 16) (bytesAt (bytesOfWords x.words) 24 48) = (ok, d) →
      (ok = true → Replies .setPassword x c 0 0 [] d) ∧ (ok = false → Replies .setPassword x c 0x0102 1 [] d))) ∧
    (InService 0x0105 x c → (3 < wfld (w 0) 7 4 → bad .installKey 0) ∧
      (wfld (w 0) 7 4 ≤ 3 → w 1 ≠ 76 → bad .installKey 1) ∧
      (wfld (w 0) 7 4 ≤ 3 → w 1 = 76 → ∀ ok d, b.installKey x.slot (w 0) 76 data = (ok, d) →
        (ok = true → Starts .installKey x c (.known 0 0 []) d) ∧ (ok = false → Replies .installKey x c 0x0102 2 [] d))) ∧
    (InService 0x0106 x c → ∀ s, c.session x.slot = some s → wbit (w 8) 8 = false →
      (wfld (w 8) 1 0 = 0 → bad .attest 8) ∧ (wfld (w 8) 1 0 ≠ 0 → ∀ r d,
        b.report (wbit (w 8) 0) (wbit (w 8) 1) ((bytesOfWords x.words).take 32) = (r, d) →
        Starts .attest x c (.known 0 0 [w32 r.length]) (d.setSession x.slot (some { s with report := r })))) ∧
    (InService 0x0201 x c → (3 < kind → bad .loadBegin 0) ∧
      (((kind = 1 ∧ 7 < n 1) ∨ (kind = 2 ∧ 3 < n 1)) → bad .loadBegin 1) ∧
      (kind = 3 → n 2 = 0 → bad .loadBegin 2) ∧ (kind = 3 → n 2 ≠ 0 → b.inOg0 (n 3) (n 2) = false → bad .loadBegin 3) ∧
      (kind = 3 → n 2 ≠ 0 → b.inOg0 (n 3) (n 2) = true → (∀ k, k < 4 → b.handle k ≠ none) → refused .loadBegin 0x0500 0) ∧
      (kind = 3 → n 2 ≠ 0 → b.inOg0 (n 3) (n 2) = true → ∀ k, k < 4 → b.handle k = none → (∀ j, j < k → b.handle j ≠ none) →
        Replies .loadBegin x c 0 0 [w32 k] (put b k (some ⟨kind, w 1, n 2, n 3, 0, false⟩)))) ∧
    (InService 0x0202 x c → (h = none → bad .loadData 0) ∧ (∀ y, h = some y →
      (y.committed = true → bad .loadData 0) ∧ (y.committed = false → n 1 ≠ y.loaded → bad .loadData 1) ∧
      (y.committed = false → n 1 = y.loaded → y.loaded + data.length ≤ y.len →
        ∀ ok d, b.fwWrite (y.addr + y.loaded) data = (ok, d) →
          (ok = true → Replies .loadData x c 0 0 [w32 (y.loaded + data.length)]
            (put d (n 0) (some { y with loaded := y.loaded + data.length }))) ∧ (ok = false → lost .loadData d)))) ∧
    (InService 0x0203 x c → (h = none → bad (.loadCommit burnt) 0) ∧ (∀ y, h = some y → y.committed = false →
      (y.loaded < y.len → refused (.loadCommit burnt) 0x0300 0) ∧
      (y.len ≤ y.loaded → ∀ d, b.fwRead y.addr y.len = (none, d) → lost (.loadCommit burnt) d) ∧
      (y.len ≤ y.loaded → ∀ img d, b.fwRead y.addr y.len = (some img, d) →
        (∀ st k, y.kind ≠ 0 → d.imgVerify y.kind y.inst img = some (st, k) →
          Starts (.loadCommit burnt) x c (.known st k []) (put d (n 0) none).imgFailed) ∧
        (y.kind = 3 → d.imgVerify 3 y.inst img = none → ((imgHead img).flags == 1) = false →
          Starts (.loadCommit burnt) x c (.known 0 0 (commitWords (imgInfo img y.inst.toNat 1)))
            (put d (n 0) (some { y with committed := true }))) ∧
        (y.kind = 1 → d.imgVerify 1 y.inst img = none → d.peState y.inst.toNat = 1 → d.sec.load = none →
          Starts (.loadCommit burnt) x c
            (.load (n 0) (imgInfo img y.inst.toNat 1) (imgDecls img) ((imgHead img).flags == 1) burnt)
            (d.secPlace (engineSections y.inst.toNat img)))))) ∧
    (InService 0x0204 x c → (7 < n 0 → bad .startEngine 0) ∧ (n 0 ≤ 7 → state ≠ 2 → refused .startEngine 0x0300 state) ∧
      (n 0 ≤ 7 → state = 2 → b.heldElsewhere (n 0) = true → refused .startEngine 0x0500 0) ∧
      (n 0 ≤ 7 → state = 2 → b.heldElsewhere (n 0) = false → ∀ d, b.supWrites (b.grants (n 0)) = d →
        d.declared (n 0) 8 = [] → Replies .startEngine x c 0 0 [] (d.supWrites
          ((List.range 4).map (fun i => (PE_PEn_ENTRY (n 0) i, declValue (d.declared (n 0) 9) i Decl.v1)) ++
            [(PE_PEn_WDT (n 0), declValue (d.declared (n 0) 10) 0 Decl.v1), (PE_PEn_CMD (n 0), 1)])))) ∧
    (InService 0x0205 x c → (7 < n 0 → bad .stopEngine 0) ∧
      (n 0 ≤ 7 → state = 3 → ∀ ws d, (regWrite b 0 (PE_PEn_CMD (n 0)) 2).supReads [PE_PEn_STAT (n 0)] = (ws, d) →
        Replies .stopEngine x c 0 0 ws d)) ∧
    (InService 0x0206 x c → (3 < kind → bad .imageInfo 0) ∧ (kind = 0 → n 1 ≠ 0 → bad .imageInfo 1) ∧
      (kind = 1 → n 1 ≤ 7 → let i := b.imageNow (imageEntry 1 (n 1))
        Replies .imageInfo x c 0 0 ([w32 i.state, i.version, w32 i.counter, w32 i.slot] ++
          payloadOf (zeros 16 ++ i.hash) 48) b))

/-- R433 (network, time and angle), R55, R117, R153: the commands of ports, the switch, CAN, time domains, stamps and
shafts, and what each writes and replies. -/
def Obligations.NetworkTimeAndAngleCommands : Prop :=
  ∀ (x : Cmd) (c : Chip),
    let b := idled c
    let w := fun i => pw x.words i
    let n := fun i => (pw x.words i).toNat
    let bad := fun i k => Replies i x c 0x0102 k [] b
    let writes := fun as_ i => b.supWrites (as_.zip (x.words.drop i))
    let reads := fun i (d : Chip) as_ => ∀ ws e, d.supReads as_ = (ws, e) → Replies i x c 0 0 ws e
    let data := (List.range 8).map SWX_TBL_DATA
    let p := n 0
    (InService 0x0301 x c → (7 < p → bad .portConfig 0) ∧
      (p ≤ 7 → modeListed p (wfld (w 1) 3 0) = false → bad .portConfig 1) ∧
      (p ≤ 1 → wfld (w 1) 3 0 ≠ 1 → modeListed p (wfld (w 1) 3 0) = true →
        let d := (regWrite b 0 (ETH_Pn_CTL p) (wsetFld (c.reg (ETH_Pn_CTL p)) 3 0 0)).powerUnit (8 + p)
        let e := d.supWrites [(ETH_Pn_MAXLEN p, w 2), (ETH_Pn_PVID p, w 3), (ETH_Pn_MACADDR_HI p, w 4),
          (ETH_Pn_MACADDR_LO p, w 5), (ETH_Pn_CTL p, w 1)]
        Replies .portConfig x c 0 0 []
          { e with hif := { e.hif with ports := tblSet [] e.hif.ports p (x.words.drop 9) } })) ∧
    (InService 0x0302 x c → (7 < p → bad .portStatus 0) ∧ (p ≤ 7 → reads .portStatus b [ETH_Pn_STAT p, ETH_Pn_FLAGS p,
      ETH_Pn_EEE_STAT p, ETH_Pn_PRE_STAT p, ETH_Pn_PLCA_STAT p, ETH_Pn_CT_PAIR p 0, ETH_Pn_CT_PAIR p 1, ETH_Pn_CT_PAIR p 2,
      ETH_Pn_CT_PAIR p 3, TMU_Pn_EQSTAT p])) ∧
    (InService 0x0303 x c → (9 < p → p ≠ 0xFF → bad .switchConfig 0) ∧
      (p = 0xFF → Replies .switchConfig x c 0 0 [] (writes ([SWX_CTL, SWX_PECKLOW, SWX_FDB_AGE, SWX_SCRUB] ++
        (List.range 8).map SWX_AGE ++ [SWX_SCHED_CTL]) 1))) ∧
    (InService 0x0304 x c → (c.swx.tblOp ≠ none → Replies .fdbAccess x c 0x0301 0 [] b) ∧
      (c.swx.tblOp = none → reads .fdbAccess (tableOpDone (b.supWrites (data.zip (x.words.drop 1) ++
        [(SWX_TBL_CMD, w 0 ||| 0x80000000)]))) (SWX_TBL_STAT :: data))) ∧
    (InService 0x0305 x c → let first := wfld (w 0) 25 16
      (9 < wfld (w 0) 3 0 → bad .scheduleLoad 0) ∧
      (wfld (w 0) 3 0 ≤ 9 → (n 1 = 0 ∨ 507 < n 1 ∨ 1024 < first + n 1) → bad .scheduleLoad 1) ∧
      (wfld (w 0) 3 0 ≤ 9 → n 1 = 1 → first ≤ 1023 → c.swx.tblOp = none → Replies .scheduleLoad x c 0 0 [] (tableOpDone
        (b.supWrites (data.zip [w 2, w 3, 0, 0, 0, 0, 0, 0] ++
          [(SWX_TBL_CMD, w32 (0x97000000 + (wfld (w 0) 3 0 * 1024 + first)))]))))) ∧
    (InService 0x0306 x c → (9 < p → bad .scheduleSwitch 0) ∧
      (p ≤ 9 → Starts .scheduleSwitch x c (.gateChange p) ((regWrite b 0 (SWX_Pp_GCL_STAT p) 0x20000000).supWrites
        ([SWX_Pp_GCL_CTL p, SWX_Pp_BASE_HI p, SWX_Pp_BASE_LO p, SWX_Pp_CYCLE p, SWX_Pp_CYCLEEXT p].zip (x.words.drop 1) ++
          [(SWX_Pp_GCL_CMD p, 1)])))) ∧
    (InService 0x0307 x c → (p = 0xFF → reads .countersRead b ((List.range 12).map fun i => SWX_CNT_LEARNFAIL + 4 * i)) ∧
      (7 < p → p ≠ 0xFF → bad .countersRead 0) ∧
      (p ≤ 7 → reads .countersRead (regWrite b 0 (ETH_Pn_CNTSNAP p) 1) ((List.range 64).map (ETH_Pn_SNAP p)))) ∧
    (InService 0x0308 x c → let k := wfld (w 0) 1 0
      (wbit (w 0) 8 = false → c.bit (CANn_CTL k) 31 = true →
        Replies .canConfig x c 0x0300 (c.fld (CANn_STAT k) 31 30) [] b) ∧
      (wbit (w 0) 8 = false → c.bit (CANn_CTL k) 31 = false →
        Replies .canConfig x c 0 0 [] (b.supWrites ((canRegs k).zip (x.words.drop 2) ++ [(CANn_CTL k, w 1)]))) ∧
      (wbit (w 0) 8 = true → (n 1 % 4 ≠ 0 ∨ 0x4000 ≤ n 1) → bad .canConfig 1)) ∧
    (InService 0x0401 x c → (1 < n 0 → bad .domainConfig 0) ∧ (n 0 ≤ 1 →
      let sel := wsetBit (wsetBit (c.reg TMU_DOMSEL) 0 c.tmu.activeB) 1 (wbit (w 5) 1)
      Replies .domainConfig x c 0 0 [] (b.supWrites [(TMU_Dx_SYNCTO (n 0), w 1), (TMU_Dx_FAILLIM (n 0), w 2), (TMU_SLEW, w 3),
        (TMU_HOLDLIM, w 4), (TMU_DOMSEL, sel), (TMU_CTL, wsetBit (c.reg TMU_CTL) 8 (wbit (w 6) 8))]))) ∧
    (InService 0x0402 x c → reads .domainStatus b (((List.range 2).flatMap fun i => [TMU_Dx_STATE i, TMU_Dx_FLAGS i,
      TMU_Dx_HOLDTIME i, TMU_Dx_TIME_LO i, TMU_Dx_TIME_HI i, TMU_Dx_RATENOW_LO i, TMU_Dx_RATENOW_HI i]) ++
      [TMU_DOMSEL, TMU_H_LO, TMU_H_HI, TMU_LT_LO, TMU_LT_HI])) ∧
    (InService 0x0403 x c → (1 < n 0 → bad .selectDomain 0) ∧ (n 0 ≤ 1 → ∀ d,
      regWrite b 0 TMU_DOMSEL (wsetBit (c.reg TMU_DOMSEL) 0 (n 0 == 1)) = d →
      (d.tmu.activeB = (n 0 == 1) → reads .selectDomain d [TMU_DOMSEL]) ∧
      (d.tmu.activeB ≠ (n 0 == 1) →
        Replies .selectDomain x c 0x0300 (d.regLive 0 (TMU_Dx_STATE (n 0))).toNat [] d))) ∧
    (InService 0x0404 x c → let i := wfld (w 0) 6 0
      (wfld (w 0) 9 8 = 0 → (7 < i → bad .stampConfig 0) ∧
        (i ≤ 7 → Replies .stampConfig x c 0 0 [] (writes [TMU_Pn_TSCTL i, TMU_Pn_LATRX i, TMU_Pn_LATTX i] 1))) ∧
      (wfld (w 0) 9 8 = 1 → i ≤ 47 → Replies .stampConfig x c 0 0 [] (regWrite b 0 (TMU_TSn_CFG i) (w 1))) ∧
      (wfld (w 0) 9 8 = 2 → i ≤ 31 → c.bit (TMU_TOn_CFG i) 8 = true → Replies .stampConfig x c 0x0300 0 [] b)) ∧
    (InService 0x0501 x c → (15 < n 0 → n 0 ≠ 0xFF → bad .shaftConfig 0) ∧
      (n 0 = 0xFF → Replies .shaftConfig x c 0 0 [] (writes [ANG_ULPTYPE, ANG_STATION, ANG_DOMAIN] 1)) ∧
      (n 0 ≤ 15 → w 10 = 0 → reads .shaftConfig (writes [ANG_SHn_CFG p, ANG_SHn_BSLEW p, ANG_SHn_ELIM p, ANG_SHn_REFTO p,
        ANG_SHn_COASTLIM p, ANG_SHn_PERIOD p, ANG_SHn_LEAD p, ANG_SHn_MSRC p, ANG_SHn_MSCALE p] 1) [ANG_SHn_STAT p])) ∧
    (InService 0x0502 x c → (15 < p → bad .shaftStatus 0) ∧ (p ≤ 15 → reads .shaftStatus b [ANG_SHn_STAT p, ANG_SHn_FLAGS p,
      ANG_SHn_ANG_LO p, ANG_SHn_ANG_HI p, ANG_SHn_VEL_LO p, ANG_SHn_VEL_HI p, ANG_SHn_E_LO p, ANG_SHn_E_HI p,
      ANG_SHn_REFCNT p, ANG_SHn_REFUSED p, ANG_SHn_OUTSEQ p])) ∧
    (InService 0x0503 x c → (1023 < p → bad .angleEventSet 0) ∧ (p ≤ 1023 → reads .angleEventSet (b.supWrites
      [(ANG_AEn_ACT p, w 2), (ANG_AEn_PERIOD p, w 5), (ANG_AEn_POS_HI p, w 3), (ANG_AEn_POS_LO p, w 4), (ANG_AEn_CFG p, w 1)])
      [ANG_AEn_STAT p])) ∧
    (InService 0x0504 x c → (1023 < p → bad .angleEventClear 0) ∧ (p ≤ 1023 → 1024 < p + n 1 → bad .angleEventClear 1) ∧
      (p + n 1 ≤ 1024 → p ≤ 1023 → Replies .angleEventClear x c 0 0 []
        (b.supWrites ((List.range (n 1)).map fun i => (ANG_AEn_CFG (p + i), 0))))) ∧
    (InService 0x0505 x c → let st := wfld (c.regLive 0 (ANG_SHn_STAT p)) 2 0
      (15 < p → bad .shaftMasterProfile 0) ∧
      (p ≤ 15 → (st ≠ 2 ∨ c.bit (ANG_SHn_MSRC p) 31 = true) → Replies .shaftMasterProfile x c 0x0300 st [] b) ∧
      (p ≤ 15 → st = 2 → c.bit (ANG_SHn_MSRC p) 31 = false →
        Replies .shaftMasterProfile x c 0 0 [] (writes [ANG_SHn_MVEL_HI p, ANG_SHn_MVEL_LO p, ANG_SHn_MACC p] 1)))

/-- R433 (motion, control program, recorder and diagnostics), R285, R290, R302, R367, R376, R467, R521: the remaining
commands, and what each writes and replies. -/
def Obligations.MotionProgramAndDiagnosticCommands : Prop :=
  ∀ (x : Cmd) (verified : Bool) (c : Chip),
    let b := idled c
    let w := fun i => pw x.words i
    let n := fun i => (pw x.words i).toNat
    let bad := fun i k => Replies i x c 0x0102 k [] b
    let wrong := fun i k => Replies i x c 0x0300 k [] b
    let busy := fun i => Replies i x c 0x0301 0 [] b
    let fault := fun i => Replies i x c 0x0600 0 [] b
    let reads := fun i (d : Chip) as_ => ∀ ws e, d.supReads as_ = (ws, e) → Replies i x c 0 0 ws e
    let a := n 0
    let mram := c.bit MEM_STAT 0 = true
    let idle := c.evr.op = none
    let commands := fun i (d : Chip) v => (d.axisRefuses a v = false → reads i (regWrite d 0 (AXn_CMD a) v) [AXn_STAT a]) ∧
      (d.axisRefuses a v = true → Replies i x c 0x0300 (d.axState a) [] (regWrite d 0 (AXn_CMD a) v))
    let held := (List.range 256).filter fun k => match c.xdm.freezes with
      | e :: _ => c.fld (MEM_LK k) 4 0 == e.master + 1
      | [] => false
    (InService 0x0601 x c → (31 < a → bad .axisConfig 0) ∧ (a ≤ 31 → c.axState a ≠ 0 → wrong .axisConfig (c.axState a)) ∧
      (a ≤ 31 → c.axState a = 0 → Replies .axisConfig x c 0 0 [] (b.supWrites ([AXn_CFG a, AXn_GEARNUM a, AXn_GEARDEN a,
        AXn_CAMBASE0 a, AXn_CAMBASE1 a, AXn_CAMCFG0 a, AXn_CAMCFG1 a, AXn_CAMSPAN0 a, AXn_CAMSPAN1 a, AXn_DEVWIN a,
        AXn_DEVTIME a, AXn_DEVDLY a, AXn_FBSCALE a, AXn_FBCFG a, AXn_SDEC_HI a, AXn_SDEC_LO a, AXn_SJERK_HI a,
        AXn_SJERK_LO a].zip (x.words.drop 1))))) ∧
    (InService 0x0602 x c → (31 < a → bad .axisMove 0) ∧
      (a ≤ 31 → wbit (w 1) 0 = false → wbit (w 1) 8 = false → commands .axisMove (b.supWrites ([AXn_TGT_HI a, AXn_TGT_LO a,
        AXn_VMAX_HI a, AXn_VMAX_LO a, AXn_AMAX_HI a, AXn_AMAX_LO a, AXn_DMAX_HI a, AXn_DMAX_LO a, AXn_JMAX_HI a,
        AXn_JMAX_LO a].zip (x.words.drop 2))) 4)) ∧
    (InService 0x0603 x c → (w 0 = 0 → Replies .axisStop x c 0 0 [0] b) ∧
      (∀ k d, stopAxes b (w 0) (List.range 32) = (k, d) → Replies .axisStop x c 0 0 [w32 k] d)) ∧
    (InService 0x0604 x c → (31 < a → bad .axisGear 0) ∧
      (a ≤ 31 → wbit (w 1) 2 = true → wbit (w 1) 3 = true → bad .axisGear 1) ∧
      (a ≤ 31 → wbit (w 1) 2 = true → wbit (w 1) 3 = false → commands .axisGear b 0x100) ∧
      (a ≤ 31 → w 1 = 0 → commands .axisGear
        (b.supWrites ([AXn_GEARNUM a, AXn_GEARDEN a, AXn_GOFS_HI a, AXn_GOFS_LO a].zip (x.words.drop 2))) 0x10)) ∧
    (InService 0x0605 x c → (31 < a → bad .axisStatus 0) ∧ (a ≤ 31 → reads .axisStatus b [AXn_STAT a, AXn_EVCAUSE a,
      AXn_CMDPOS_LO a, AXn_CMDPOS_HI a, AXn_CMDVEL_LO a, AXn_CMDVEL_HI a, AXn_ACTPOS_LO a, AXn_ACTPOS_HI a, AXn_STOPPOS_LO a,
      AXn_STOPPOS_HI a, AXn_DEVNOW a])) ∧
    (InService 0x0701 x c → (b.handle a = none → bad .programLoad 0) ∧
      (∀ y, b.handle a = some y → y.committed = false → bad .programLoad 0) ∧
      (∀ y, b.handle a = some y → y.committed = true → w 1 = 0 → bad .programLoad 1) ∧
      (∀ y spans p, b.handle a = some y → y.committed = true → w 1 ≠ 0 → c.hif.active = none →
        (∀ k, k < 32 → wbit (w 1) k = true → ∃ f, f < 8 ∧ c.tgrp f = c.fld (MEM_BOWN k) 3 0) →
        ∀ img e d, b.fwRead y.addr y.len = (some img, e) →
        programSections (bankAddr ((banksOf (w 1)).headD 0)) img = (spans, p) →
        (∀ s ∈ spans, inBanks (w 1) s.1 s.2.length = true) → e.placeProgram (w 1) spans = (true, d) →
        d.fld TSK_VMAPN 15 0 = 0 → Replies .programLoad x c 0 0 [w32 p.map, w32 p.mapN, w32 p.task]
          (d.activateProgram { p with handle := a, banks := w 1 } (imgInfo img 0 3)
            (((spans.getLast?).map (·.2)).getD [])))) ∧
    (InService 0x0702 x c → (4 < a → bad .programMode 0) ∧ (a ≤ 4 → ∀ d, regWrite b 0 TSK_MODE (w32 a) = d →
      (d.tskMode = a → c.tskMode ≠ a → reads .programMode d [TSK_STAT]) ∧
      ((d.tskMode ≠ a ∨ c.tskMode = a) → Replies .programMode x c 0x0300 c.tskMode [] d))) ∧
    (InService 0x0703 x c → ((n 1 = 0 ∨ 32 < n 1) → bad .valueChange 1) ∧
      (1 ≤ n 1 → n 1 ≤ 32 → c.tsk.batch ≠ none → busy .valueChange) ∧
      (n 1 = 1 → c.tsk.batch = none → ∀ d, b.supWrites [(TSK_VC_ID, w 2), (TSK_VC_LO, w 3), (TSK_VC_HI, w 4),
          (TSK_VC_CTL, 0x80000000),
          (TSK_VC_CTL, w32 (2 ^ 30 + b2n (wbit (w 0) 8) * 2 ^ 29 + wfld (w 0) 4 0))] = d →
        (d.tsk.batch ≠ none → Starts .valueChange x c (.valueChange (wfld (w 0) 4 0)) d) ∧
        (d.tsk.batch = none → Replies .valueChange x c 0x0102 (d.fld TSK_VC_STAT 18 16 * 4096) [] d))) ∧
    (InService 0x0704 x c → ((c.tskMode = 0 ∨ c.tskMode = 4) → wrong .forceSet c.tskMode) ∧
      (c.tskMode ≠ 0 → c.tskMode ≠ 4 → (∀ f, f < 64 → c.fcOn f = true) → Replies .forceSet x c 0x0500 0 [] b) ∧
      (c.tskMode ≠ 0 → c.tskMode ≠ 4 → ∀ f, f < 64 → c.fcOn f = false → (∀ k, k < f → c.fcOn k = true) → ∀ d,
        b.supWrites [(TSK_FCf_ID f, w 0), (TSK_FCf_VAL_LO f, w 1), (TSK_FCf_VAL_HI f, w 2), (TSK_FCf_CTL f, 0x80000000)] = d →
        (d.fcOn f = true → Replies .forceSet x c 0 0 [w32 f] d) ∧
        (d.fcOn f = false → Replies .forceSet x c 0x0102 0 [] d))) ∧
    (InService 0x0705 x c → let fs := c.forcesOn.filter fun f => w 0 == 0xFFFFFFFF || c.reg (TSK_FCf_ID f) == w 0
      (fs = [] → w 0 ≠ 0xFFFFFFFF → bad .forceClear 0) ∧ ((fs ≠ [] ∨ w 0 = 0xFFFFFFFF) → ∀ d,
        b.supWrites (fs.map fun f => (TSK_FCf_CTL f, 0)) = d → Replies .forceClear x c 0 0 [w32 d.forcesOn.length] d)) ∧
    (InService 0x0706 x c → (c.hif.staged = none → bad .programSwap 0) ∧ (∀ p, c.hif.staged = some p →
      (p.handle ≠ a → bad .programSwap 0) ∧ (p.handle = a → c.tsk.swapReq = true → busy .programSwap) ∧
      (p.handle = a → c.tsk.swapReq = false → ∀ d, b.supWrites [(TSK_SWAP_MAP, w32 p.map), (TSK_SWAP_MAPN, w32 p.mapN),
          (TSK_SWAP_TASKS, w32 p.task), (TSK_SWAP_CTL, 1)] = d →
        (d.tsk.swapReq = true → Starts .programSwap x c (.swap a) d) ∧
        (d.tsk.swapReq = false → Replies .programSwap x c 0x0300 c.tskMode [] d)))) ∧
    (InService 0x0707 x c → ∀ us ws d e, b.supReads [TSK_STAT, TSK_DIAGLAST] = (us, d) →
      d.supReads ([TSK_SWAP_STAT, TSK_VC_STAT] ++ (List.range 8).flatMap fun k => [TSK_FRn_STAT k, TSK_FRn_CYCLE k]) = (ws, e) →
      Replies .programStatus x c 0 0 (us ++ [w32 c.forcesOn.length] ++ ws) e) ∧
    (InService 0x0801 x c → (¬mram → fault .recordRead) ∧ (mram → (n 1 = 0 ∨ 63 < n 1) → bad .recordRead 1) ∧
      (mram → 1 ≤ n 1 → n 1 ≤ 63 → let rs := ((oldestFirst c.heldRecs).dropWhile fun r =>
          seqLater (a % seqMod) r.seq).take (n 1)
        Replies .recordRead x c 0 0 (w32 rs.length :: rs.flatMap fun r => b.words (evrSlot r.slot) 16) b)) ∧
    (InService 0x0802 x c → (¬mram → fault (.recordWrite verified)) ∧ (mram → ¬idle → busy (.recordWrite verified)) ∧
      (mram → idle → 7 < a → bad (.recordWrite verified) 0) ∧
      (mram → idle → a ≤ 7 → reads (.recordWrite verified) (recordStoreDone (b.supWrites
        ([(EVR_SUB_HDR, w32 (a * 65536 + 0x0201)), (EVR_SUB_CODE, w 1)] ++
          ((List.range 8).map EVR_SUB_DATA).zip (x.words.drop 2) ++ [(EVR_SUB_CTL, 0x80000000)])) verified)
        [EVR_SUB_RESULT])) ∧
    (InService 0x0803 x c → (¬mram → fault .recordClear) ∧ (mram → ¬idle → busy .recordClear) ∧
      (mram → idle → Starts .recordClear x c .recordClear (regWrite b 0 EVR_SUB_CTL 0x40000000))) ∧
    (InService 0x0804 x c → (¬mram → fault .recorderStatus) ∧
      (mram → ∀ us ws d e, b.supReads [EVR_OLDSEQ, EVR_NEWSEQ] = (us, d) →
        d.supReads ([EVR_OPSEC, EVR_PCC] ++ (List.range 8).map EVR_DROP) = (ws, e) →
        Replies .recorderStatus x c 0 0 (us ++ [w32 c.heldRecs.length] ++ ws) e)) ∧
    (InService 0x0901 x c → (c.sysState = 5 → wbit (w 1) 4 = false → wrong .marchRun 5) ∧
      ((c.sysState ≠ 5 ∨ wbit (w 1) 4 = true) → c.bit MEM_MARCH_CTL 30 = true → busy .marchRun) ∧
      ((c.sysState ≠ 5 ∨ wbit (w 1) 4 = true) → c.bit MEM_MARCH_CTL 30 = false → Starts .marchRun x c .march
        (b.supWrites [(MEM_MARCH_BANKS, w 0), (MEM_MARCH_CTL, (w 1 &&& 0x318) ||| 0x80000000)]))) ∧
    (InService 0x0902 x c → (13 < a → bad .prbsRun 0) ∧
      (a ≤ 13 → wfld (w 1) 3 0 ≤ 4 → wfld (w 1) 9 8 ≤ 1 → wfld (w 1) 13 12 ≤ 2 → w 1 &&& 0xFFFFCCF0 = 0 →
        (n 2 = 0 ∨ 60000 < n 2) → bad .prbsRun 2) ∧
      (a ≤ 13 → wfld (w 1) 3 0 ≤ 4 → wfld (w 1) 9 8 ≤ 1 → wfld (w 1) 13 12 ≤ 2 → w 1 &&& 0xFFFFCCF0 = 0 →
        1 ≤ n 2 → n 2 ≤ 60000 → c.bit (TST_PRBSl_CTL a) 31 = false → b.prbsRefused a (wfld (w 1) 3 0) = false →
        ∀ gate d, (if a < 8 ∧ c.bit PWR_GATE (8 + a) = false then (some (w32 (2 ^ (8 + a))), b.powerUnit (8 + a))
          else (none, b)) = (gate, d) →
        Starts .prbsRun x c (.prbs a (c.tmu.raw + n 2 * 1000000) gate)
          (regWrite d 0 (TST_PRBSl_CTL a) (w 1 ||| 0x80000000)))) ∧
    (InService 0x0903 x c → reads .freezeInfo b [XDM_FRZ_COUNT, XDM_FRZ_MST, XDM_FRZ_SEG, XDM_FRZ_OFS, XDM_FRZ_ACC,
      XDM_FRZ_LT_LO, XDM_FRZ_LT_HI]) ∧
    (InService 0x0904 x c → (wbit (w 1) 0 = false → reads .freezeResolve (regWrite b 0 XDM_FRZ_RESOLVE (w 0))
        [XDM_FRZ_COUNT]) ∧
      (∀ e es, c.xdm.freezes = e :: es → wfld (w 0) 7 0 = e.unit → wfld (w 0) 31 30 ≠ 0 → wbit (w 1) 0 = true →
        reads .freezeResolve (regWrite (b.supWrites (held.map fun k => (MEM_LK k, 0))) 0 XDM_FRZ_RESOLVE (w 0))
          [XDM_FRZ_COUNT])) ∧
    (InService 0x0905 x c → let u := wfld (w 0) 3 0
      let code := wfld (w 0) 9 8
      ((11 < u ∨ code = 0 ∨ code = 3) → bad .loopback 0) ∧
      (u ≤ 11 → code ≠ 0 → code ≠ 3 → (∃ s ∈ c.hif.started, ∃ l k, s.wait = .loopback u l k) → busy .loopback) ∧
      (u ≤ 11 → code ≠ 0 → code ≠ 3 → (∀ s ∈ c.hif.started, ∀ l k, s.wait ≠ .loopback u l k) → Starts .loopback x c
        (.loopback u (c.fld (loopReg u) 13 12) (n 1))
        (regWrite b 0 (loopReg u) (wsetFld (c.reg (loopReg u)) 13 12 code))))

/-! ### SEC and the event recorder (chapter 15) -/

/-- R439, R454, R455, R458, R461: SEC. A session not proven within 1 s is destroyed and counts as a failed proof, of
which the fifth and each later one locks the role; a lock ends with its operating second; fuse operations start from
SUP alone, with the refusals of their table, and end with DONE, RESULT and source 20; a job starts unless one runs,
and ends with its status word in word 7 and source 16 or 17; and random words are taken, delivered and stopped. -/
def Obligations.FusesSessionsAndRandomWords : Prop :=
  ∀ (m : Master) (v w : W32) (slot : Fin 8) (role : Fin 4) (readBack : Bool) (c : Chip),
    let sec := fun (d : Chip) y => { d with sec := y }
    let ends := fun d => Does (.sessionProofTimeout slot) c d
    let f := c.sec.fuses
    let root := wbit v 8
    let k := wfld v 1 0
    let kept := fun op => c.plainWrite m.val SEC_FPROG (wsetFld v 27 24 op &&& 0x7FFFFFFF)
    let stored := fun op => (kept op).setBit SEC_FPROG 29 false
    let begun := fun (d : Chip) op r => (let d := d.setBit SEC_FPROG 30 true
      sec d { d.sec with fuseOp := some ⟨op, r, k⟩ })
    let burnt := fun (d : Chip) y => sec d { d.sec with fuses := y }
    let digest := tblGet [] (if root then f.owner else f.vendor) k
    let gone := f.revoked ||| BitVec.ofNat 8 (2 ^ (b2n root * 4 + k))
    let left := ∃ s, s < 4 ∧ tblGet [] f.vendor s ≠ [] ∧ gone.getLsbD s = false
    let free := m.val = 0 ∧ c.sec.fuseOp = none
    (c.session slot.val = none → ends c) ∧
    (∀ x, c.session slot.val = some x → ((x.proven = true ∨ c.tmu.raw ≤ x.openedAt + 1000000000) → ends c) ∧
      (x.proven = false → x.openedAt + 1000000000 < c.tmu.raw →
        let n := tblGet 0 c.sec.fails x.role + 1
        let d := sec c { c.sec with
          sessions := tblSet none c.sec.sessions slot.val none, fails := tblSet 0 c.sec.fails x.role n }
        let t := (c.reg EVR_OPSEC).toNat + min 3600 (10 * 2 ^ min (n - 5) 9)
        (n < 5 → ends d) ∧
        (5 ≤ n → ends ((sec d { d.sec with locks := tblSet none d.sec.locks x.role (some t) }).raise 19 0)))) ∧
    (tblGet none c.sec.locks role.val = none → Does (.roleLockExpiry role) c c) ∧
    (∀ t, tblGet none c.sec.locks role.val = some t →
      ((c.reg EVR_OPSEC).toNat < t → Does (.roleLockExpiry role) c c) ∧
      (t ≤ (c.reg EVR_OPSEC).toNat → Does (.roleLockExpiry role) c
        (sec c { c.sec with locks := tblSet none c.sec.locks role.val none }))) ∧
    (m.val ≠ 0 → Does (.fuseRead m v) c c.refuse ∧ Does (.fuseProgram m v) c c.refuse ∧ Does (.fuseRevoke m v) c c.refuse ∧
      Does (.fusePolicy m v) c c.refuse) ∧
    (m.val = 0 → c.sec.fuseOp ≠ none → Does (.fuseRead m v) c (kept 1) ∧ Does (.fuseProgram m v) c (kept 2) ∧
      Does (.fuseRevoke m v) c (kept 3) ∧ Does (.fusePolicy m v) c (kept 5)) ∧
    (free → Does (.fuseRead m v) c (begun ((List.range 12).foldl (fun d i =>
      d.setReg (SEC_FDATA i) (w32 (leNat (bytesAt digest (4 * i) 4)))) (stored 1)) 1 0)) ∧
    (free → c.sysState ≠ 3 → Does (.fuseProgram m v) c (begun (stored 2) 2 1) ∧
      Does (.fuseRevoke m v) c (begun (stored 3) 3 1) ∧ Does (.fusePolicy m v) c (begun (stored 5) 5 1)) ∧
    (free → c.sysState = 3 →
      ((root = false ∨ tblGet [] f.owner k ≠ []) → Does (.fuseProgram m v) c (begun (stored 2) 2 2)) ∧
      (root = true → tblGet [] f.owner k = [] → Does (.fuseProgram m v) c (begun (burnt (stored 2)
        { f with owner := tblSet [] f.owner k ((List.range 12).flatMap fun i => leBytes 4 (c.reg (SEC_FDATA i)).toNat) })
        2 0)) ∧
      (¬left → Does (.fuseRevoke m v) c (begun (stored 3) 3 3)) ∧
      (left → Does (.fuseRevoke m v) c (begun (burnt (stored 3) { f with revoked := gone }) 3 0)) ∧
      (wfld v 5 4 = 0 → Does (.fusePolicy m v) c (begun (burnt (stored 5) { f with ownCode := true }) 5 0)) ∧
      (wfld v 5 4 = 1 → Does (.fusePolicy m v) c (begun (burnt (stored 5) { f with lockDbg := true }) 5 0))) ∧
    (c.sec.fuseOp = none → Does (.fuseOpDone readBack) c c) ∧
    (∀ o, c.sec.fuseOp = some o →
      let d := sec c { c.sec with fuseOp := none }
      let after := fun (d : Chip) r => (((d.setBit SEC_FPROG 30 false).setBit SEC_FPROG 29 true).setFld SEC_FPROG 19 16
        r).raise 20 0
      ((o.op ≠ 2 ∨ o.result ≠ 0 ∨ readBack = true) → Does (.fuseOpDone readBack) c (after d o.result)) ∧
      (o.op = 2 → o.result = 0 → readBack = false → Does (.fuseOpDone readBack) c (after (burnt d
        { f with revoked := f.revoked ||| BitVec.ofNat 8 (2 ^ (4 + o.slot)) }) 4))) ∧
    (c.sec.job ≠ none → Does .secJobGo c (c.flag SEC_EVCAUSE 1 17).done) ∧
    (c.sec.job = none → (let d := c.setBit SEC_JOB_STAT 31 true
      Does .secJobGo c (sec d { d.sec with job := some ⟨c.fld SEC_JOB_DESC 31 5 * 32, false, none⟩ }).done)) ∧
    (c.sec.job = none → Does .secJobDone c c) ∧
    (∀ j d bs, c.sec.job = some j → j.frozen = false → c.secLoadFrozen = false → j.pend = none →
      c.readSpan 13 j.desc 32 = (.ok bs, d) →
      let word := fun i => leNat (bytesAt bs (4 * i) 4)
      let ended := fun (e : Chip) st n g => e.dmaWrite 13 (j.desc + 28) (leBytes 4 (2 ^ 31 + at_ st 28 + n)) = (none, g) →
        let h := g.setBit SEC_JOB_STAT 31 false
        Does .secJobDone c (((sec h { h.sec with job := none }).setFld SEC_JOB_STAT 30 28 st).raise
          (if st = 0 then 16 else 17) 0)
      (jobListed (nfld (word 0) 31 24) = false → ∀ g, ended d 2 0 g) ∧
      (nfld (word 0) 31 24 = 2 → nfld (word 0) 17 16 = 0 → ∀ inp aux e e' o g,
        d.readSpan 13 (word 1) (word 2) = (.ok inp, e) → e.readSpan 13 (word 5) (word 6) = (.ok aux, e') →
        (48 ≤ word 4 → (sha384 inp).length = 48 → e'.writeSpan 13 (word 3) (sha384 inp) = (none, o) → ended o 0 48 g) ∧
        (word 4 < (sha384 inp).length → ended e' 4 0 g))) ∧
    (∀ j a n d, c.sec.job = some j → j.frozen = false → c.secLoadFrozen = false → j.pend = none →
      c.readSpan 13 j.desc 32 = (.error (.seg, a, n), d) → (let e := d.setBit SEC_JOB_STAT 31 true
      Does .secJobDone c ((sec e { e.sec with job := some { j with frozen := true } }).freezeAt 0x10 13 a n 1))) ∧
    (c.sec.trng = [] → Does .trngRead c ((c.setBit SEC_EVCAUSE 3 true).answer (.ok 0))) ∧
    (∀ x xs, c.sec.trng = x :: xs → Does .trngRead c ((sec c { c.sec with trng := xs }).answer (.ok x.toNat))) ∧
    (let d := c.setBit SEC_TRNG_STAT 31 true
     Does .trngHealthFail c ((sec d { d.sec with trng := [] }).raise 18 0)) ∧
    Does .trngRestart c (c.setBit SEC_TRNG_STAT 31 false).done ∧
    (c.bit SEC_TRNG_STAT 31 = false → c.sec.trng.length < 16 →
      Does (.trngDelivery w) c (sec c { c.sec with trng := c.sec.trng ++ [w] })) ∧
    ((c.bit SEC_TRNG_STAT 31 = true ∨ 16 ≤ c.sec.trng.length) → Does (.trngDelivery w) c c)

/-- R463 to R467: the event recorder. A record is written into the lowest slot that holds none, or over the oldest
held record that is not more severe, and is held if every read-back held; else it is dropped and counted. A submission
or a clear is refused while the recorder is busy; the clear frees every slot and stores its own record; the scan at
RESET counts torn records, sets the sequences and, where MRAM is good, stores the power-on record; each second the
operating seconds advance and the counter block is written. -/
def Obligations.TheRecorderFollowsR463ToR467 : Prop :=
  ∀ (ok mram : Bool) (c : Chip),
    let evr := fun (d : Chip) y => { d with evr := y }
    let held := fun (d : Chip) n => d.byte (evrSlot n + 56) = 0xA5 ∧ d.readable (evrSlot n) 64 = true ∧
      crc32c (d.bytes (evrSlot n) 60) = (d.word (evrSlot n + 60)).toNat
    let fit := fun (d : Chip) sev n => (¬held d n ∧ n < 4096 ∧ ∀ j, j < n → held d j) ∨
      ((∀ j, j < 4096 → held d j) ∧
        ((oldestFirst d.heldRecs).find? fun r => decide (r.sev ≤ sev)).map HeldRec.slot = some n)
    let full := fun (d : Chip) sev => (∀ j, j < 4096 → held d j) ∧ ∀ r ∈ oldestFirst d.heldRecs, sev < r.sev
    let saved := fun (d : Chip) => (let e := evr d { d.evr with gen := (d.evr.gen + 1) % 2 ^ 32, copyB := !d.evr.copyB }
      let b := leBytes 4 e.evr.gen ++ leBytes 4 (e.reg EVR_OPSEC).toNat ++ leBytes 4 (e.reg EVR_PCC).toNat ++
        leBytes 4 e.evr.nextSeq ++ (List.range 8).flatMap (fun s => leBytes 4 (e.reg (EVR_DROP s)).toNat) ++
        List.replicate 12 0
      e.mramWrite (if d.evr.copyB then 0x20001040 else 0x20001000) (b ++ leBytes 4 (crc32c b)))
    let body := fun (d : Chip) (r : EvrRec) => leBytes 4 d.evr.nextSeq ++ leBytes 4 (d.reg EVR_OPSEC).toNat ++
      leBytes 4 (d.reg EVR_PCC).toNat ++ [BitVec.ofNat 8 r.sev, 0] ++ leBytes 2 r.src ++ leBytes 4 r.code.toNat ++
      bytesAt r.data 0 32 ++ leBytes 4 0 ++ [0xA5, 0, 0, 0]
    let freed := fun (d : Chip) n => d.mramWrite (evrSlot n + 56) (List.replicate 8 0)
    let stored := fun (d : Chip) r n => (let e := (freed d n).mramWrite (evrSlot n) (body d r ++ leBytes 4 (crc32c (body d r)))
      saved (evr e { e.evr with nextSeq := (e.evr.nextSeq + 1) % 2 ^ 31 }).evrCount)
    let failed := fun (d : Chip) r n => (((((freed d n).mramWrite (evrSlot n) ((body d r).take 56)).setBit MEM_STAT 0
      false).flag MEM_EVCAUSE 6 422).flag EVR_FLAGS 0 23).evrCount
    let dropped := fun (d : Chip) (r : EvrRec) => saved ((d.incSat (EVR_DROP r.sev) 0xFFFFFFFF).raise 23 0)
    let idle := c.setEvrOp none
    let busy := fun o => (c.setEvrOp (some o)).done
    let ends := fun (goes : Chip → Prop) (d : Chip) (r : EvrRec) (g : Nat → Chip → Chip) =>
      (∀ n, fit d r.sev n → ok = true → goes (g d.evr.nextSeq (stored d r n))) ∧
      (∀ n, fit d r.sev n → ok = false → goes (g 0xFFFFFFFF (failed d r n))) ∧
      (full d r.sev → goes (g 0xFFFFFFFF (dropped d r)))
    let sub : EvrRec := ⟨c.fld EVR_SUB_HDR 18 16, c.fld EVR_SUB_HDR 15 0, c.reg EVR_SUB_CODE,
      (List.range 8).flatMap fun i => leBytes 4 (c.reg (EVR_SUB_DATA i)).toNat⟩
    let cleared := (let d := (List.range 4096).foldl (fun d n => d.mramWrite (evrSlot n + 56) [0]) idle
      let e := (List.range 8).foldl (fun d s => d.setReg (EVR_DROP s) 0) d
      evr e { e.evr with nextSeq := 1 })
    let read := (((idle.setBit MEM_STAT 0 mram).mramRead 0x20001000 128).mramRead (evrSlot 0) 0x40000).loadCounters
    let torn := (List.range 4096).filter fun n => (let b := read.byte (evrSlot n + 56)
      b != 0 && (b != 0xA5 || decide (¬held read n)))
    (c.evr.op ≠ none → Does .recordSubmit c (c.flag EVR_FLAGS 1 23).done ∧
      Does .recorderClear c (c.flag EVR_FLAGS 1 23).done) ∧
    (c.evr.op = none → Does .recordSubmit c (busy (.store sub)) ∧ Does .recorderClear c (busy .clear)) ∧
    ((∀ r, c.evr.op ≠ some (.store r)) → Does (.recordStoreDone ok) c c) ∧
    (∀ r, c.evr.op = some (.store r) →
      ends (Does (.recordStoreDone ok) c) idle r fun n d => d.setReg EVR_SUB_RESULT (w32 n)) ∧
    (c.evr.op ≠ some .clear → Does (.recorderClearDone ok) c c) ∧
    (c.evr.op = some .clear → ends (Does (.recorderClearDone ok) c) cleared ⟨6, 0x0202, 2, []⟩ fun _ d => d) ∧
    (c.evr.op ≠ some .scan → Powered (.recorderScanDone mram ok) c c) ∧
    (c.evr.op = some .scan → ∀ d, (read.setReg EVR_TORN (w32 torn.length)).evrCount = d →
      let n := ((d.reg EVR_NEWSEQ).toNat + 1) % 2 ^ 31
      let e := evr d { d.evr with nextSeq := if seqLater d.evr.nextSeq n then d.evr.nextSeq else n }
      let up := if e.pwr.fromOff then saved (e.setReg EVR_PCC (e.reg EVR_PCC + 1)) else e
      let data := leBytes 4 (up.reg SYS_ID).toNat ++ leBytes 4 up.causeWord.toNat ++ leBytes 4 (up.reg EVR_TORN).toNat
      (e.bit MEM_STAT 0 = false → Powered (.recorderScanDone mram ok) c e) ∧
      (e.bit MEM_STAT 0 = true → ends (Powered (.recorderScanDone mram ok) c) up ⟨1, 0x0202, 1, data⟩ fun _ d => d)) ∧
    (2 ≤ c.sysState → c.evr.secAt ≤ c.tmu.raw → Does .operatingSecondTick c (saved
      (evr (c.setReg EVR_OPSEC (c.reg EVR_OPSEC + 1)) { c.evr with secAt := c.evr.secAt + 1000000000 }))) ∧
    ((c.sysState < 2 ∨ c.tmu.raw < c.evr.secAt) → Does .operatingSecondTick c c)

/-! ### Power, clocks, resets and boot (chapter 16) -/

/-- R474 to R484: supplies, the buck, the board-rail sequencer, gating, temperature and the PLL. Each step of the
sequencer waits, enables its rail and passes or fails, and the sequence goes on at the next step in use; that a step
which passes clears its failure, that the failure of step 0 takes every SEQDONE bit down, and that PGOOD_CORE rises
again when an over-voltage is over, are the model's choices (log entry 182). The VDD_CORE target moves at 1 mV/µs; a
gating is taken whole or refused whole; a unit holds its reset state when it has powered up; and each supervised value
sets its flag and raises its source. -/
def Obligations.SuppliesGatingAndTheSequencer : Prop :=
  ∀ (m : Master) (v : W32) (v33 : Fin 16) (step : Fin 4) (u : Fin 20) (mv : Fin 65536) (t : Int) (b mram : Bool)
    (c : Chip),
    let pwr := fun (d : Chip) y => { d with pwr := y }
    let j := step.val
    let bit := BitVec.ofNat 4 (2 ^ j)
    let next := fun (d : Chip) i => match (List.range 4).find? fun n => decide (i ≤ n) && d.bit (PWR_SEQ_CFG n) 31 with
      | some n => SeqPhase.delay n
      | none => .done
    let passed := fun (d : Chip) i => (let e := d.setBit PWR_STAT (8 + i) true
      let e := e.setBit PWR_STAT (16 + i) false
      let f := if i = 0 then e.setBit PWR_STAT 27 false else e
      pwr f { f.pwr with seq := next f (i + 1) })
    let fails := fun (d : Chip) => (let e := (d.setBit PWR_STAT (8 + j) false).flag PWR_EVCAUSE 0 2
      if j = 0 then (let f := (e.setFld PWR_STAT 11 8 0).setBit PWR_STAT 27 true
        pwr f { f.pwr with en := 0, seq := .retry })
      else (let f := e.setBit PWR_STAT (16 + j) true
        pwr f { f.pwr with
          en := f.pwr.en &&& ~~~bit, seq := if d.pwr.seq = .waitPg j then next f (j + 1) else d.pwr.seq }))
    let rose := pwr c { c.pwr with pg := c.pwr.pg ||| bit }
    let fell := pwr c { c.pwr with pg := c.pwr.pg &&& ~~~bit }
    let word := fun (w : W32) => (if wfld w 15 8 = 0 then wsetFld w 15 8 1 else w) &&& 0x8000FFFF
    let moved := (c.tmu.raw - c.pwr.avsAt) / 1000
    let set := c.fld PWR_AVS 9 0
    let target := if c.pwr.avsMoving = false then set else if c.pwr.avsFrom ≤ set then min set (c.pwr.avsFrom + moved)
      else max set (c.pwr.avsFrom - moved)
    let seen := c.setFld PWR_VMON 15 0 mv.val
    let down := (List.range 20).filter fun u => wbit (c.reg PWR_GATE) u && !wbit (v &&& 0xFFFFF) u
    let up := (List.range 20).filter fun u => !wbit (c.reg PWR_GATE) u && wbit (v &&& 0xFFFFF) u
    let free := fun u => if u < 8 then (c.peState u = 1 ∨ c.peState u = 2)
      else if u < 16 then c.fld (ETH_Pn_CTL (u - 8)) 3 0 = 0
      else ∀ n, n < 8 → c.skEn ((u - 16) * 8 + n) = false
    let rail := fun u => (8 ≤ u → u < 12 → c.bit PWR_STAT 17 = false) ∧ (12 ≤ u → u < 16 → c.bit PWR_STAT 18 = false)
    let powered := (c.setBit PWR_GSTAT u.val true).raise 5 0
    let ready := c.sysState = 1 ∧ c.bit PWR_STAT 31 = false ∧ (c.pwr.buckOn = true ∨ c.pwr.buckDis = true)
    let starts := c.sysState = 1 ∧ c.pwr.buckDis = false ∧ c.pwr.buckOn = false
    let warm := c.setReg PWR_TEMP (w32 (wrap 12 t))
    let limit := sext 12 (c.fld PWR_TEMPLIM 11 0)
    (starts → (let d : Chip := { c with free := c.free + 1, pwr := { c.pwr with buckOn := true } }
      let e := if c.pwr.fromOff then d.setReg SYS_IOBSTAT (w32 v33.val) else d
      Powered (.buckSoftStart v33) c (e.setFld PWR_STAT 2 0 ((Config.freeValue c.free).toNat % 4 + 1)))) ∧
    (¬starts → Powered (.buckSoftStart v33) c c) ∧
    (¬ready → Powered (.pgoodCoreRise v33 mram) c c) ∧
    (ready → (let d := c.setBit PWR_STAT 31 true
      let e := if c.pwr.buckDis ∧ c.pwr.fromOff then d.setReg SYS_IOBSTAT (w32 v33.val) else d
      let good := mram = true ∧ e.readable 0x20001F80 20 = true ∧ crc32c (e.bytes 0x20001F80 16) = (e.word 0x20001F90).toNat
      let runs := fun f => Powered (.pgoodCoreRise v33 mram) c (pwr f { f.pwr with seq := next f 0 })
      (c.pwr.fromOff = false → Powered (.pgoodCoreRise v33 mram) c e) ∧
      (c.pwr.fromOff = true → good →
        runs ((List.range 4).foldl (fun f n => f.setReg (PWR_SEQ_CFG n) (word (e.word (0x20001F80 + 4 * n))))
          (e.mramRead 0x20001F80 20))) ∧
      (c.pwr.fromOff = true → ¬good → runs (((List.range 4).foldl (fun f n =>
        f.setReg (PWR_SEQ_CFG n) (regReset (PWR_SEQ_CFG n))) (if mram then e.mramRead 0x20001F80 20 else e)).setBit PWR_STAT 26 true)))) ∧
    ((∀ i, c.pwr.seq ≠ .delay i) → Powered .sequencerStepEnable c c) ∧
    (∀ i, c.pwr.seq = .delay i → (let d := pwr c { c.pwr with en := c.pwr.en ||| BitVec.ofNat 4 (2 ^ i), seq := .waitPg i }
      (c.pwr.pg.getLsbD i = false → Powered .sequencerStepEnable c d) ∧
      (c.pwr.pg.getLsbD i = true → Powered .sequencerStepEnable c (passed d i)))) ∧
    (c.pwr.seq ≠ .waitPg j → Always (.sequencerPgRise step) c rose ∧ Powered (.sequencerPgTimeout step) c c) ∧
    (c.pwr.seq = .waitPg j → Always (.sequencerPgRise step) c (passed rose j) ∧
      Powered (.sequencerPgTimeout step) c (fails c)) ∧
    (c.pwr.pg.getLsbD j = true → c.pwr.en.getLsbD j = true → Always (.sequencerPgFall step) c (fails fell)) ∧
    ((c.pwr.pg.getLsbD j = false ∨ c.pwr.en.getLsbD j = false) → Always (.sequencerPgFall step) c fell) ∧
    (c.pwr.seq ≠ .retry → Powered .sequencerRetry c c) ∧
    (c.pwr.seq = .retry → Powered .sequencerRetry c (pwr c { c.pwr with seq := next c 0 })) ∧
    ((m.val ≠ 0 ∨ c.sysState ≠ 3) → Does (.seqConfigWrite m step v) c c.refuse) ∧
    (m.val = 0 → c.sysState = 3 → (let d := c.setReg (PWR_SEQ_CFG j) (word v)
      let bs := (List.range 4).flatMap fun n => leBytes 4 (d.reg (PWR_SEQ_CFG n)).toNat
      Does (.seqConfigWrite m step v) c ((d.mramWrite 0x20001F80 bs).mramWrite 0x20001F90 (leBytes 4 (crc32c bs))).done)) ∧
    (target + 60 < mv.val → Powered (.coreOverVoltage mv) c (((seen.setBit PWR_STAT 29 true).setBit PWR_STAT 31 false).raise 1 0)) ∧
    (mv.val ≤ target + 60 → Powered (.coreOverVoltage mv) c c) ∧
    (c.bit PWR_STAT 30 = true → (target + 30 < mv.val ∨ mv.val + 30 < target) →
      Powered (.coreWindowExit mv) c ((seen.setBit PWR_STAT 30 false).raise 1 0)) ∧
    ((c.bit PWR_STAT 30 = false ∨ (mv.val ≤ target + 30 ∧ target ≤ mv.val + 30)) → Powered (.coreWindowExit mv) c c) ∧
    (mv.val ≤ target + 30 → target ≤ mv.val + 30 → (let d := seen.setBit PWR_STAT 30 true
      (d.bit PWR_STAT 29 = false → Powered (.coreWindowReturn mv) c d) ∧
      (d.bit PWR_STAT 29 = true → Powered (.coreWindowReturn mv) c
        ((d.setBit PWR_STAT 29 false).setBit PWR_STAT 31 true)))) ∧
    ((target + 30 < mv.val ∨ mv.val + 30 < target) → Powered (.coreWindowReturn mv) c c) ∧
    (m.val ≠ 0 → Does (.avsTargetWrite m v) c c.refuse ∧ Does (.powerGateWrite m v) c c.refuse) ∧
    (m.val = 0 → Does (.avsTargetWrite m v) c (pwr (c.setReg PWR_AVS (w32 (max 700 (min 850 (wfld v 9 0)) / 5 * 5)))
      { c.pwr with avsMoving := !c.pwr.buckDis, avsFrom := target, avsAt := c.tmu.raw }).done) ∧
    (c.pwr.avsMoving = false → Powered .avsDone c c) ∧
    (c.pwr.avsMoving = true → Powered .avsDone c ((pwr c { c.pwr with avsMoving := false }).flag PWR_EVCAUSE 2 7)) ∧
    (m.val = 0 → ((∃ u ∈ down, ¬free u) ∨ (∃ u ∈ up, ¬rail u)) →
      Does (.powerGateWrite m v) c (c.flag PWR_EVCAUSE 4 5).done) ∧
    (m.val = 0 → (∀ u ∈ down, free u) → (∀ u ∈ up, rail u) →
      let d := down.foldl (fun d u => if u < 8 then (d.setBit PWR_GSTAT u false).setPeState u 0
        else d.setBit PWR_GSTAT u false) (c.setReg PWR_GATE (v &&& 0xFFFFF))
      Does (.powerGateWrite m v) c (pwr d { d.pwr with
        upAt := up.foldl (fun x u => tblSet 0 x u c.tmu.raw) d.pwr.upAt }).done) ∧
    (let done_ := c.bit PWR_GATE u.val = true ∧ c.bit PWR_GSTAT u.val = false ∧
        tblGet 0 c.pwr.upAt u.val + 20000 ≤ c.tmu.raw
     (¬done_ → Does (.unitPowerUpDone u) c c) ∧
     (done_ → u.val < 8 → Does (.unitPowerUpDone u) c
       (((powered.clearMem (peMem u.val) 0x40000).resetCore (u.val + 3)).setPeState u.val 1)) ∧
     (done_ → 8 ≤ u.val → u.val < 16 → Does (.unitPowerUpDone u) c powered) ∧
     (done_ → 16 ≤ u.val → Does (.unitPowerUpDone u) c (powered.resetCluster (u.val - 16)))) ∧
    (sext 12 (c.fld PWR_TEMP 11 0) ≤ limit → limit < t → Powered (.temperatureLimit t) c (warm.flag PWR_EVCAUSE 3 3)) ∧
    ((limit < sext 12 (c.fld PWR_TEMP 11 0) ∨ t ≤ limit) → Powered (.temperatureLimit t) c warm) ∧
    ((c.bit PWR_STAT 8 = true ∨ (c.bit PWR_STAT 31 = true ∧ c.bit (PWR_SEQ_CFG 0) 31 = false)) →
      Powered .pllLock c (c.setBit PWR_STAT 28 true)) ∧
    (c.bit PWR_STAT 8 = false → (c.bit PWR_STAT 31 = false ∨ c.bit (PWR_SEQ_CFG 0) 31 = true) → Powered .pllLock c c) ∧
    (c.bit PWR_STAT 28 = true → Powered .pllLockLoss c ((c.setBit PWR_STAT 28 false).flag PWR_EVCAUSE 1 4)) ∧
    (c.bit PWR_STAT 28 = false → Powered .pllLockLoss c c) ∧
    (let d := (pwr c { c.pwr with buckDis := b }).setBit SYS_STRAP 3 b
     (b = false → Always (.buckDisLevelChange b) c d) ∧
     (b = true → Always (.buckDisLevelChange b) c
       ((pwr d { d.pwr with buckOn := false, avsMoving := false }).setFld PWR_STAT 2 0 0)))

/-- R38, R485 to R492: what each reset leaves and what it resets, the watchdog, which the boot ROM serves itself and a
stopped or frozen SUP no more, the changes of device state and the boot ROM. A reset leaves fuses, credentials, MRAM
and flash, and of the rest only what its row of R486 names; an engine it leaves powered is STOPPED (log entry 182),
and what EVR was writing into MRAM may be cut off (log entry 167), so that MRAM is stated whole where EVR was not
writing. A change of SYS_STATE that the table does not list sets REFUSED; and the boot ROM stops with its error, runs
the image that verifies, gives the ROM service, or waits for the host path. -/
def Obligations.ResetsStatesAndBoot : Prop :=
  ∀ (m : Master) (v : W32) (hostsel : Fin 4) (bootsrc : Bool) (f : BootFacts) (c : Chip),
    let pwr := fun (d : Chip) y => { d with pwr := y }
    let monitors := fun a => a = PWR_STAT ∨ a = PWR_AVS ∨ a = PWR_VMON ∨ a = PWR_TEMP ∨ a = SYS_IOBSTAT ∨
      (PWR_SEQ_CFG 0 ≤ a ∧ a ≤ PWR_SEQ_CFG 3)
    let banks := fun a => (0x40010000 ≤ a ∧ a < 0x40020000) ∨ a = SYS_IOBSTAT ∨ (MEM_BSTAT 0 ≤ a ∧ a ≤ MEM_BSTAT 31)
    let reset := fun st cause (keep : Nat → Prop) (d : Chip) =>
      d.sysState = st ∧ d.pwr.cause = cause ∧ d.sec.fuses = c.sec.fuses ∧ d.sec.keys = c.sec.keys ∧
      d.sec.passwords = c.sec.passwords ∧ d.sec.fails = c.sec.fails ∧ d.sec.locks = c.sec.locks ∧
      d.sec.claimKey = c.sec.claimKey ∧ d.pin = c.pin ∧
      d.sec.sessions = [] ∧ d.sec.job = none ∧ d.sec.trng = [] ∧ d.tmu = TmuState.reset ∧ d.can = Chip.reset.can ∧
      d.swx = Chip.reset.swx ∧ d.core = Chip.reset.core ∧ d.tsk = Chip.reset.tsk ∧ d.mot = Chip.reset.mot ∧
      d.skp = Chip.reset.skp ∧ d.evr = Chip.reset.evr ∧ d.hif = Chip.reset.hif ∧ d.ang = Chip.reset.ang ∧
      (∀ a, a ≠ EVT_PEND 0 → a ≠ SYS_STATE → a ≠ PWR_VMON → (∀ n, n < 8 → a ≠ PE_PEn_STAT n) →
        (keep a → d.reg a = c.reg a) ∧ (¬keep a → d.reg a = regReset a)) ∧
      (∀ n, n < 8 → (keep PWR_GSTAT → c.bit PWR_GSTAT n = true → d.peState n = 1) ∧
        (¬keep PWR_GSTAT ∨ c.bit PWR_GSTAT n = false → d.peState n = 0)) ∧
      (∀ a, regionOf a = .flash → c.undefRun a = 0 → d.byte a = c.byte a) ∧
      ((∀ r, c.evr.op ≠ some (.store r)) → c.evr.op ≠ some .clear →
        ∀ a, regionOf a = .mram → c.undefRun a = 0 → d.byte a = c.byte a)
    let limit := c.fld PWR_WDT_CFG 9 0 * 1000000
    let ready := c.sysState = 1 ∧ c.bit PWR_STAT 31 = true ∧ (c.bit PWR_STAT 8 = true ∨ c.bit (PWR_SEQ_CFG 0) 31 = false) ∧
      c.bit PWR_STAT 28 = true ∧ c.evr.op ≠ some .scan ∧ c.tst.ir ∉ [0x00, 0x03, 0x04, 0x05, 0x06]
    let t := wfld v 2 0
    let rom := (c.sysState = 2 ∨ (c.bit SYS_BOOT 31 = true ∧ (c.image 0).state ≠ 2)) ∧ c.core.supStopped = false ∧
      tblGet none c.core.frozen 0 = none
    let restarted := pwr c { c.pwr with wd := .running c.tmu.raw false }
    let mute := c.core.supStopped = true ∨ tblGet none c.core.frozen 0 ≠ none
    let listed := (c.sysState = 2 ∧ t = 3 ∧ c.fld SYS_BOOT 3 0 = 0) ∨ (c.sysState = 3 ∧ t = 4) ∨ (c.sysState = 4 ∧ t = 5) ∨
      (c.sysState = 5 ∧ t = 4) ∨ ((c.sysState = 4 ∨ c.sysState = 5) ∧ t = 3)
    let entered := fun (d : Chip) => ((d.setFld SYS_STATE 2 0 t).raise 0 0).done
    let booting := c.sysState = 2 ∧ c.fld SYS_BOOT 3 0 = 0 ∧ c.hif.pathUp = false
    let stopped := fun (d : Chip) e => (let g := (d.setFld SYS_BOOT 3 0 e).haltCore 0
      pwr g { g.pwr with wd := .stopped g.wdLeft })
    let marched := if c.bit SYS_RSTCAUSE 4 then c else c.bootMarch f.march
    let host := marched.bit SYS_STRAP 2
    let first := c.pwr.hostWait = none
    let sound := booting ∧ first ∧ f.lockstepOk = true ∧ f.secOk = true ∧ marched.bit (MEM_BSTAT 0) 31 = false ∧
      marched.bit (MEM_BSTAT 1) 31 = false
    let served := fun (d : Chip) => d.sysState = 3 ∧ d.hif.pathUp = true ∧ d.reg (MBn_CFG 0) = 0xC000000B ∧
      d.reg (MBn_CFG 1) = 0xC00000B0 ∧ d.reg (MEM_OGRP 15) = 0x801 ∧ d.reg (MEM_BOWN 31) = 15
    let runs := fun (d : Chip) => served d ∧ (d.ctx 0 0).st = .ready ∧ (d.ctx 0 0).pc = 0x30900000
    (c.sysState = 0 → c.pwr.cause ≤ 1 → ∃ d, Always .powerOn c d ∧ reset 1 c.pwr.cause (fun _ => False) d ∧
      2900 ≤ d.fld PWR_VMON 31 16) ∧
    (c.sysState ≠ 0 → Always .powerOn c c) ∧
    (∃ d, Always .brownOut c d ∧ reset 0 1 (fun _ => False) d ∧ d.pwr.en = 0 ∧ d.pwr.buckOn = false) ∧
    (GivesPowered .pinReset c fun d => reset 1 2 monitors d ∧ d.pwr.en = c.pwr.en ∧ d.pwr.seq = c.pwr.seq) ∧
    Gives .softwareReset c (fun d => reset 1 3 monitors d ∧ d.pwr.en = c.pwr.en ∧ d.pwr.seq = c.pwr.seq ∧ d.bus = .ok 0) ∧
    ((∀ s h, c.pwr.wd ≠ .running s h) → Does .watchdogReset c c ∧ Does .watchdogHalf c c) ∧
    (∀ s h, c.pwr.wd = .running s h →
      (limit < c.tmu.raw - s → ¬rom → Gives .watchdogReset c fun d => reset 1 4 banks d ∧ d.pwr.en = c.pwr.en ∧
        ∀ a n, regionOf a = .sram n → d.byte a = c.byte a) ∧
      (limit < c.tmu.raw - s → rom → Does .watchdogReset c restarted) ∧
      (c.tmu.raw - s ≤ limit → Does .watchdogReset c c) ∧
      (h = false → limit < 2 * (c.tmu.raw - s) → ¬rom →
        Does .watchdogHalf c ((pwr c { c.pwr with wd := .running s true }).raise 6 0)) ∧
      (h = false → limit < 2 * (c.tmu.raw - s) → rom → Does .watchdogHalf c restarted) ∧
      ((h = true ∨ 2 * (c.tmu.raw - s) ≤ limit) → Does .watchdogHalf c c)) ∧
    (m.val ≠ 0 → Does (.watchdogKick m v) c c.refuse ∧ Does (.sysStateWrite m v) c c.refuse) ∧
    (m.val = 0 → mute → Does (.watchdogKick m v) c c.done) ∧
    (m.val = 0 → ¬mute → v ≠ 0xA5 → Does (.watchdogKick m v) c (c.flag PWR_EVCAUSE 5 6).done) ∧
    (m.val = 0 → ¬mute → v = 0xA5 → (∀ s h, c.pwr.wd = .running s h →
        Does (.watchdogKick m v) c restarted.done) ∧
      ((∀ s h, c.pwr.wd ≠ .running s h) → Does (.watchdogKick m v) c c.done)) ∧
    (¬ready → Powered (.resetExit hostsel bootsrc) c c) ∧
    (ready → GivesPowered (.resetExit hostsel bootsrc) c fun d => d.sysState = 2 ∧
      d.reg SYS_RSTCAUSE = w32 (2 ^ c.pwr.cause + if c.pwr.cause = 4 ∧ c.pwr.supStop = true then 32 else 0) ∧
      d.reg SYS_STRAP = w32 (b2n c.pwr.buckDis * 8 + b2n bootsrc * 4 + hostsel.val) ∧
      d.fld HIF_STAT 17 16 = hostsel.val ∧ d.fld SYS_BOOT 19 16 = c.sec.fuses.speed.toNat ∧ d.tmu = TmuState.reset ∧
      d.pwr.wd = .running 0 false ∧ (2 ≤ hostsel.val → ∀ i, i < 32 → d.pinFunc (96 + i) = 7)) ∧
    (m.val = 0 → t = c.sysState → Does (.sysStateWrite m v) c c.done) ∧
    (m.val = 0 → t ≠ c.sysState → ¬listed → Does (.sysStateWrite m v) c (c.setBit SYS_FLAGS 0 true).done) ∧
    (m.val = 0 → listed → c.sysState < t → Does (.sysStateWrite m v) c (entered c)) ∧
    (m.val = 0 → listed → c.sysState = 5 → t = 4 → Does (.sysStateWrite m v) c (entered
      ((List.range 8).foldl (fun d n => if d.peState n = 3 then engineStop d n else d) c).tskLeaveRun)) ∧
    (m.val = 0 → listed → 4 ≤ c.sysState → t = 3 → Does (.sysStateWrite m v) c (entered c.stopUnits)) ∧
    (¬booting → Does (.bootRomRun f) c c) ∧
    (booting → ∀ t, c.pwr.hostWait = some t →
      (f.hostUp = true → Gives (.bootRomRun f) c fun d => served d ∧ d.bit SYS_BOOT 31 = true) ∧
      (f.hostUp = false → Does (.bootRomRun f) c c)) ∧
    (booting → first → f.lockstepOk = false → Does (.bootRomRun f) c (stopped marched 3)) ∧
    (booting → first → f.lockstepOk = true → f.secOk = false → Does (.bootRomRun f) c (stopped marched 1)) ∧
    (booting → first → f.lockstepOk = true → f.secOk = true →
      (marched.bit (MEM_BSTAT 0) 31 = true ∨ marched.bit (MEM_BSTAT 1) 31 = true) →
        Does (.bootRomRun f) c (stopped marched 2)) ∧
    (sound → host = false → (∀ img, marched.flashImage 0 = some img → Gives (.bootRomRun f) c runs) ∧
      (marched.flashImage 0 = none → ∀ img, marched.flashImage 1 = some img →
        Gives (.bootRomRun f) c fun d => runs d ∧ d.bit SYS_BOOT 30 = true)) ∧
    (sound → (host = true ∨ (marched.flashImage 0 = none ∧ marched.flashImage 1 = none)) →
      let waits := if host then marched else marched.flag SEC_EVCAUSE 0 21
      (f.hostUp = true → Gives (.bootRomRun f) c fun d => served d ∧ d.bit SYS_BOOT 31 = true) ∧
      (f.hostUp = false → Does (.bootRomRun f) c (pwr waits { waits.pwr with hostWait := some waits.tmu.raw }))) ∧
    (first → Does .hostPathTimeout c c) ∧
    (∀ t, c.pwr.hostWait = some t →
      (booting → c.bit SYS_STRAP 2 = false → t + 1000000000 < c.tmu.raw → Does .hostPathTimeout c (stopped c 4)) ∧
      ((¬booting ∨ c.bit SYS_STRAP 2 = true ∨ c.tmu.raw ≤ t + 1000000000) → Does .hostPathTimeout c c))

/-! ### Pins, link tests and the TAP (chapter 17) -/

/-- R502, R504, R519 to R527: a pin setting is written by SUP, unless its FUNC is reserved or needs the parallel bus;
GPIO bits are set and cleared; a PRBS run starts with its counters cleared, unless it is refused, and each received
bit fills, locks or is checked; an instruction of the TAP takes effect; and a debug access is made with master ID 15,
refused or frozen. -/
def Obligations.PinsLinkTestsAndTheTap : Prop :=
  ∀ (m : Master) (g : Fin 128) (k : Fin 4) (l : Fin 14) (code : Fin 256) (v : W32) (b : Bool) (bs : List Bool) (req : Nat)
    (c : Chip),
    let parallel := 2 ≤ c.fld SYS_STRAP 1 0
    let func := wfld v 3 0
    let bad := 7 < func ∨ (func = 7 ∧ (g.val < 96 ∨ ¬parallel)) ∨ (96 ≤ g.val ∧ parallel ∧ func ≠ 7)
    let pin := if wfld v 5 4 = 3 then wsetFld v 5 4 1 else v
    let pinReg := SYS_PIN g.val
    let out := SYS_GPIO_OUT k.val
    let n := l.val
    let ctl := TST_PRBSl_CTL n
    let stat := TST_PRBSl_STAT n
    let p := tblGet Prbs.reset c.tst.prbs n
    let put := fun (d : Chip) (x : Prbs) => { d with tst := { d.tst with prbs := tblSet Prbs.reset d.tst.prbs n x } }
    let refused := (n < 8 ∧ c.fld (ETH_Pn_CTL n) 3 0 ≠ 0) ∨ (10 ≤ n ∧ c.bit (CANn_CTL (n - 10)) 31 = true) ∨
      ((n = 8 ∨ n = 9) ∧ c.fld HIF_STAT 17 16 = 0) ∨ (n < 4 ∧ c.bit PWR_STAT 17 = true) ∨
      (4 ≤ n ∧ n ≤ 9 ∧ c.bit PWR_STAT 18 = true) ∨ (if 4 ≤ n ∧ n ≤ 9 then 4 else 2) < wfld v 3 0
    let len := fun x => match x with
      | 0 => 7
      | 1 => 9
      | 2 => 15
      | 3 => 23
      | _ => 31
    let start := (let d := ((((c.setReg ctl ((v ||| 0x80000000) &&& 0x8000330F)).setReg stat 0).setReg64 (TST_PRBSl_BITS_LO n)
        0).setReg (TST_PRBSl_ERR n) 0)
      put d { Prbs.reset with gen := 2 ^ len (wfld v 3 0) - 1 })
    let running := c.bit ctl 31 = true
    let taps := prbsTaps (c.fld ctl 3 0)
    let sent := prbsNext taps p.gen
    let q := { p with gen := prbsShift taps p.gen sent, inject := false }
    let base := put c q
    let r := if c.fld ctl 9 8 = 1 then sent != p.inject else b
    let locked := c.bit stat 1 = true
    let one := fun d => Does (.prbsLock l [b]) c d ∧ Does (.prbsLockLoss l [b]) c d
    let right := prbsNext taps p.reg
    let seen := { q with reg := prbsShift taps p.reg r, bits := 0, errs := 0 }
    let dr := fun (d : Chip) w x => { d with tst := { d.tst with
      frozen := none, dr := w * 2 ^ 64 + nfld req 63 32 * 2 ^ 32 + x % 2 ^ 32 } }
    let ir := if (code.val = 0x07 ∨ code.val = 0x10) ∧ c.sec.fuses.lockDbg = true then 0xFF
      else if code.val ∈ [0x00, 0x01, 0x02, 0x03, 0x04, 0x05, 0x06, 0x07, 0x10] then code.val else 0xFF
    let took := { c with tst := { c.tst with
      ir := ir, dr := if ir = 0x02 then 0x11648A3F else if ir = 0x07 then (c.reg SYS_BOOT).toNat else c.tst.dr } }
    let scans := fun x => x ∈ [0x00, 0x03, 0x04, 0x05, 0x06]
    let opens := c.tst.ir = 0x10 ∧ c.tst.frozen = none ∧ c.sec.fuses.lockDbg = false
    let busy := c.setBit TST_STAT 1 true
    let a := nfld req 63 32
    let does := fun d => Does (.debugAccess req) c d
    ((m.val ≠ 0 ∨ bad) → Does (.pinFunctionWrite m g v) c c.refuse) ∧
    (m.val = 0 → ¬bad → Does (.pinFunctionWrite m g v) c
      (c.setReg pinReg ((c.reg pinReg &&& ~~~0x333F) ||| (pin &&& 0x333F))).done) ∧
    Does (.gpioSetWrite m k v) c (c.setReg out (c.reg out ||| v)).done ∧
    Does (.gpioClrWrite m k v) c (c.setReg out (c.reg out &&& ~~~v)).done ∧
    (m.val ≠ 0 → Does (.prbsRunStart m l v) c c.refuse ∧ Does (.prbsInject m l v) c c.refuse) ∧
    (m.val = 0 → (wbit v 30 = false ∨ ¬running) →
      (refused → Does (.prbsRunStart m l v) c (c.setBit TST_FLAGS 0 true).done) ∧
      (¬refused → Does (.prbsRunStart m l v) c start.done)) ∧
    (m.val = 0 → running → Does (.prbsInject m l v) c (put c { p with inject := true }).done) ∧
    (m.val = 0 → ¬running → wbit v 31 = false → Does (.prbsInject m l v) c (c.setReg ctl (v &&& 0x330F)).done) ∧
    (¬running → Does (.prbsLock l bs) c c ∧ Does (.prbsLockLoss l bs) c c) ∧
    (Does (.prbsLock l []) c c ∧ Does (.prbsLockLoss l []) c c) ∧
    (∀ d e, running → Does (.prbsLock l [b]) c d → Does (.prbsLock l bs) d e →
      Does (.prbsLock l (b :: bs)) c e ∧ Does (.prbsLockLoss l (b :: bs)) c e) ∧
    (running → ¬locked → p.have_ < taps.1 →
      one (put base { q with reg := prbsShift taps p.reg r, have_ := p.have_ + 1 })) ∧
    (running → ¬locked → taps.1 ≤ p.have_ → r = right →
      (let d := put base { seen with good := p.good + 1, bad := 0 }
       (p.good + 1 ≠ 64 → one d) ∧ (p.good + 1 = 64 → one ((d.setBit stat 1 true).setBit stat 2 false)))) ∧
    (running → ¬locked → taps.1 ≤ p.have_ → r ≠ right →
      (let d := put base { seen with good := 0, bad := p.bad + 1 }
       (p.bad + 1 ≠ 64 → one d) ∧ (p.bad + 1 = 64 → one ((d.setBit stat 1 true).setBit stat 2 true)))) ∧
    (running → locked → p.errs = 256 → c.reg (TST_PRBSl_ERR n) ≠ 0xFFFFFFFE →
      c.reg (TST_PRBSl_ERR n) ≠ 0xFFFFFFFF → r = (right == c.bit stat 2) →
      one (put (((base.setReg64 (TST_PRBSl_BITS_LO n) (c.reg64 (TST_PRBSl_BITS_LO n) + 1)).inc (TST_PRBSl_ERR n)).setBit
        stat 1 false) { q with have_ := 0, good := 0, bad := 0, bits := 0, errs := 0 })) ∧
    (running → locked → p.errs ≤ 255 → (let want := right != c.bit stat 2
      let d := base.setReg64 (TST_PRBSl_BITS_LO n) (c.reg64 (TST_PRBSl_BITS_LO n) + 1)
      let next := fun (e : Chip) errs => put e { q with
        reg := prbsShift taps p.reg want
        bits := if p.bits = 1023 then 0 else p.bits + 1
        errs := if p.bits = 1023 then 0 else errs }
      (r = want → one (next d p.errs)) ∧
      (r ≠ want → (c.reg (TST_PRBSl_ERR n)).toNat < 0xFFFFFFFE → one (next (d.inc (TST_PRBSl_ERR n)) (p.errs + 1))))) ∧
    Powered .tapReset c { c with tst := { c.tst with ir := 0x02, dr := 0x11648A3F } } ∧
    ((¬scans ir ∨ scans c.tst.ir) → Powered (.tapInstructionUpdate code) c took) ∧
    (scans ir → ¬scans c.tst.ir → GivesPowered (.tapInstructionUpdate code) c fun d =>
      d.sysState = 1 ∧ d.pwr.cause = 2 ∧ d.tst.ir = ir) ∧
    (¬opens → does c) ∧
    (opens → nbit req 65 = false → nbit req 64 = false → does (dr busy 0 req)) ∧
    (opens → nbit req 65 = true →
      (busy.segAllows 15 a 4 2 = false → does (Chip.freezeAt { busy with tst := { busy.tst with frozen := some req } } 0x12 15 a
        4 2)) ∧
      (busy.segAllows 15 a 4 2 = true → ∀ e d, busWriteOnce busy 15 a (leBytes 4 (req % 2 ^ 32)) = (e, d) →
        (e = none → does (dr d 0 req)) ∧ (e ≠ none → does (dr d 1 req)))) ∧
    (opens → nbit req 65 = false → nbit req 64 = true →
      let held := { busy with tst := { busy.tst with frozen := some req } }
      (busy.segAllows 15 a 4 1 = false → does (held.freezeAt 0x12 15 a 4 1)) ∧
      (busy.segAllows 15 a 4 1 = true → ∀ d, (∀ xs, busReadOnce held 15 a 4 = (.ok xs, d) → does (dr d 0 (leNat xs))) ∧
        (busReadOnce held 15 a 4 = (.error .wait, d) → does d)))


/-! ### Memory and the commands that do not write it -/

/-- The frame of memory for the commands that store nothing in it (what time brings about in TMU, the shafts, ports, CAN,
the sequencer and SEC, most reads, and the commands of the network that only read registers): every byte of the address
space reads after them as it read before. -/
def Obligations.QuietCommandsLeaveMemory : Prop :=
  ∀ (i : Instr) (s t : State) (a : Nat),
    (match i with
      | .angleUpdateInstant | .attest | .autoDomainSwitch | .avsDone | .backoffExpiry .. | .bankOwnerTakeEffect ..
      | .buckDisLevelChange .. | .buckSoftStart .. | .cableTestDone .. | .canArbitratingTrigger ..
      | .canArbitrationLoss .. | .canBusError .. | .canBusoffRecovered .. | .canExclusiveTrigger ..
      | .canFrameCommit .. | .canIntegrationComplete .. | .canMatrixCycleStart .. | .canReceiveCheckTrigger ..
      | .canReceiveWindowEnd .. | .canReferenceTrigger .. | .canWatchTrigger .. | .canXlPayloadRead ..
      | .closeSession | .coastlimExpiry .. | .collision .. | .commandTake | .coreOverVoltage ..
      | .coreWindowExit .. | .coreWindowReturn .. | .crossWaitDetect .. | .deviationFault .. | .earlyWake ..
      | .echo | .engineWatchdogExpiry .. | .eventDelivery | .fdbAgeTick | .feedbackStale .. | .flushDone
      | .frameReceive .. | .frameTransmitEnd .. | .frameTransmitStart .. | .fuseOpDone .. | .gateEntryStart ..
      | .gateListChangeTime .. | .getIdentity | .guardianWindow .. | .holdoverFailLimit .. | .hostPathTimeout
      | .imageInfo | .installKey | .ledgerLatch | .linkDown .. | .loadBegin | .lpiEntry .. | .mailboxCommandTake
      | .mailboxTimeout .. | .masterSampleGeneration .. | .motionUpdateInstant | .msixSend | .noExchangeCheck ..
      | .openSession | .packCreditGrant .. | .pcieLinkChange .. | .peCycleTimer .. | .perstAssert
      | .pgoodCoreRise .. | .plcaActiveChange .. | .pllLock | .pllLockLoss | .prbsLock .. | .prbsLockLoss ..
      | .preemptVerifyTimer .. | .proveSession | .quadratureIndex .. | .quadratureTransition .. | .queueScrub
      | .recordRead | .recoveryResetTimeout .. | .reftoExpiry .. | .resetExit .. | .roleLockExpiry ..
      | .rxLpiSignal .. | .scrubLine | .sequencerPgFall .. | .sequencerPgRise .. | .sequencerPgTimeout ..
      | .sequencerRetry | .sequencerStepEnable | .sessionProofTimeout .. | .setPassword | .skIn .. | .skIrq ..
      | .skJmp .. | .skMov .. | .skOut .. | .skPull .. | .skPush .. | .skSet .. | .skStallRelease .. | .skStamp ..
      | .skWait .. | .skWaitEnd .. | .skWaitTimeout .. | .slotWindowOpen .. | .stampInputEdge .. | .stampRingEntry
      | .stampToAngleDone .. | .startWindowExpiry .. | .stepPulse .. | .streamGateEntry .. | .syncTimeout ..
      | .tableOpDone | .temperatureLimit .. | .timedOutputEdge .. | .tmuTick | .trngDelivery .. | .trngHealthFail
      | .ulpEchoRequest .. | .wakeComplete .. | .watchdogHalf | .xdmTimeTrigger .. | .xspiStatus => True
      | _ => False) →
    exec i s = .next t → t.chip.byte a = s.chip.byte a
end

