-- ==== Sys2Proof/Laws/Bits.lean ====
section
/-!
SUPPORT. What replacing a field or a bit of a register word does: the field reads back, and a field that shares no
bit with it stays.
-/
namespace Sys2Proof.Machine

/-- A number with the field that starts at `lo` and is `n` bits wide replaced. -/
theorem putField_split (x lo n v : Nat) :
    x - x / 2 ^ lo % 2 ^ n * 2 ^ lo + v % 2 ^ n * 2 ^ lo =
      (x / 2 ^ (lo + n)) * 2 ^ (lo + n) + (v % 2 ^ n) * 2 ^ lo + x % 2 ^ lo := by
  have h1 := Nat.div_add_mod x (2 ^ lo)
  have h2 := Nat.div_add_mod (x / 2 ^ lo) (2 ^ n)
  have h3 : x / 2 ^ lo / 2 ^ n = x / 2 ^ (lo + n) := by rw [Nat.div_div_eq_div_mul, Nat.pow_add]
  rw [h3] at h2
  have h4 : 2 ^ (lo + n) = 2 ^ lo * 2 ^ n := Nat.pow_add 2 lo n
  have h5 : (x / 2 ^ (lo + n)) * 2 ^ (lo + n) = 2 ^ lo * (2 ^ n * (x / 2 ^ (lo + n))) := by
    rw [h4, Nat.mul_comm, Nat.mul_assoc]
  have h6 : 2 ^ lo * (x / 2 ^ lo) =
      2 ^ lo * (2 ^ n * (x / 2 ^ (lo + n))) + x / 2 ^ lo % 2 ^ n * 2 ^ lo := by
    conv => lhs; rw [← h2]
    rw [Nat.mul_add, Nat.mul_comm (2 ^ lo) (x / 2 ^ lo % 2 ^ n)]
  omega

theorem putField_lt (x lo n v : Nat) (hx : x < 2 ^ 32) (h : lo + n ≤ 32) :
    x / 2 ^ (lo + n) * 2 ^ (lo + n) + v % 2 ^ n * 2 ^ lo + x % 2 ^ lo < 2 ^ 32 := by
  obtain ⟨k, hk⟩ : ∃ k, 32 = lo + n + k := ⟨32 - (lo + n), by omega⟩
  have h1 : x / 2 ^ (lo + n) < 2 ^ k := by
    rw [Nat.div_lt_iff_lt_mul (Nat.two_pow_pos _), ← Nat.pow_add, Nat.add_comm k]
    rw [hk] at hx; exact hx
  have h2 : v % 2 ^ n < 2 ^ n := Nat.mod_lt _ (Nat.two_pow_pos _)
  have h3 : x % 2 ^ lo < 2 ^ lo := Nat.mod_lt _ (Nat.two_pow_pos _)
  have h4 : v % 2 ^ n * 2 ^ lo + x % 2 ^ lo < 2 ^ (lo + n) := by
    have : (v % 2 ^ n + 1) * 2 ^ lo ≤ 2 ^ n * 2 ^ lo := Nat.mul_le_mul_right _ h2
    rw [Nat.add_mul, ← Nat.pow_add, Nat.add_comm n] at this
    omega
  have h5 : (x / 2 ^ (lo + n) + 1) * 2 ^ (lo + n) ≤ 2 ^ k * 2 ^ (lo + n) := Nat.mul_le_mul_right _ h1
  rw [Nat.add_mul, ← Nat.pow_add, Nat.add_comm k, ← hk] at h5
  omega

/-- A register word with a field replaced, as a number. -/
theorem wsetFld_toNat (w : W32) (hi lo v : Nat) (h : lo ≤ hi) (h32 : hi < 32) :
    (wsetFld w hi lo v).toNat =
      (w.toNat / 2 ^ (hi + 1)) * 2 ^ (hi + 1) + (v % 2 ^ (hi + 1 - lo)) * 2 ^ lo + w.toNat % 2 ^ lo := by
  have e : hi + 1 = lo + (hi + 1 - lo) := by omega
  unfold wsetFld nfld
  simp only [BitVec.toNat_ofNat]
  rw [putField_split, ← e]
  refine Nat.mod_eq_of_lt ?_
  have := putField_lt w.toNat lo (hi + 1 - lo) v w.isLt (by omega)
  rwa [← e] at this

/-- The field put in reads back. -/
theorem wfld_wsetFld (w : W32) (hi lo v : Nat) (h : lo ≤ hi) (h32 : hi < 32) :
    wfld (wsetFld w hi lo v) hi lo = v % 2 ^ (hi + 1 - lo) := by
  have e : hi + 1 = lo + (hi + 1 - lo) := by omega
  unfold wfld nfld
  rw [wsetFld_toNat w hi lo v h h32]
  have h3 : w.toNat % 2 ^ lo < 2 ^ lo := Nat.mod_lt _ (Nat.two_pow_pos _)
  have h1 : w.toNat / 2 ^ (hi + 1) * 2 ^ (hi + 1) + v % 2 ^ (hi + 1 - lo) * 2 ^ lo + w.toNat % 2 ^ lo =
      (w.toNat / 2 ^ (hi + 1) * 2 ^ (hi + 1 - lo) + v % 2 ^ (hi + 1 - lo)) * 2 ^ lo + w.toNat % 2 ^ lo := by
    conv => lhs; rw [show (2 : Nat) ^ (hi + 1) = 2 ^ (hi + 1 - lo) * 2 ^ lo by rw [← Nat.pow_add]; congr 1; omega]
    rw [Nat.add_mul, Nat.mul_assoc]
    rw [show (2 : Nat) ^ (hi + 1 - lo) * 2 ^ lo = 2 ^ (hi + 1) by rw [← Nat.pow_add]; congr 1; omega]
  rw [h1, Nat.mul_comm _ (2 ^ lo), Nat.mul_add_div (Nat.two_pow_pos _), Nat.div_eq_of_lt h3, Nat.add_zero,
    Nat.mul_comm, Nat.mul_add_mod, Nat.mod_mod]

/-- A field below the one put in stays. -/
theorem wfld_wsetFld_below (w : W32) (hi lo v hi' lo' : Nat) (h : lo ≤ hi) (h32 : hi < 32) (hd : hi' < lo) :
    wfld (wsetFld w hi lo v) hi' lo' = wfld w hi' lo' := by
  unfold wfld nfld
  rw [wsetFld_toNat w hi lo v h h32]
  by_cases hl : lo' ≤ hi'
  · obtain ⟨k, rfl⟩ : ∃ k, lo = hi' + 1 + k := ⟨lo - (hi' + 1), by omega⟩
    have hy : (w.toNat / 2 ^ (hi + 1) * 2 ^ (hi + 1) + v % 2 ^ (hi + 1 - (hi' + 1 + k)) * 2 ^ (hi' + 1 + k) +
        w.toNat % 2 ^ (hi' + 1 + k)) % 2 ^ (hi' + 1) = w.toNat % 2 ^ (hi' + 1) := by
      have d1 : (2 : Nat) ^ (hi' + 1) ∣ 2 ^ (hi + 1) := Nat.pow_dvd_pow 2 (by omega)
      have d2 : (2 : Nat) ^ (hi' + 1) ∣ 2 ^ (hi' + 1 + k) := Nat.pow_dvd_pow 2 (by omega)
      rw [Nat.add_mod, Nat.mod_mod_of_dvd _ d2,
        Nat.mod_eq_zero_of_dvd ((Nat.dvd_add (Nat.dvd_mul_left_of_dvd d1 _) (Nat.dvd_mul_left_of_dvd d2 _)))]
      simp
    have key (x : Nat) : x / 2 ^ lo' % 2 ^ (hi' + 1 - lo') = x % 2 ^ (hi' + 1) / 2 ^ lo' := by
      rw [← Nat.mod_mul_right_div_self, ← Nat.pow_add]
      congr 3; omega
    rw [key, key, hy]
  · have : hi' + 1 - lo' = 0 := by omega
    simp [this, Nat.mod_one]

/-- A field above the one put in stays. -/
theorem wfld_wsetFld_above (w : W32) (hi lo v hi' lo' : Nat) (h : lo ≤ hi) (h32 : hi < 32) (hd : hi < lo') :
    wfld (wsetFld w hi lo v) hi' lo' = wfld w hi' lo' := by
  unfold wfld nfld
  rw [wsetFld_toNat w hi lo v h h32]
  obtain ⟨k, rfl⟩ : ∃ k, lo' = hi + 1 + k := ⟨lo' - (hi + 1), by omega⟩
  have hs : v % 2 ^ (hi + 1 - lo) * 2 ^ lo + w.toNat % 2 ^ lo < 2 ^ (hi + 1) := by
    have h2 : v % 2 ^ (hi + 1 - lo) < 2 ^ (hi + 1 - lo) := Nat.mod_lt _ (Nat.two_pow_pos _)
    have h3 : w.toNat % 2 ^ lo < 2 ^ lo := Nat.mod_lt _ (Nat.two_pow_pos _)
    have : (v % 2 ^ (hi + 1 - lo) + 1) * 2 ^ lo ≤ 2 ^ (hi + 1 - lo) * 2 ^ lo := Nat.mul_le_mul_right _ h2
    rw [Nat.add_mul, ← Nat.pow_add, show hi + 1 - lo + lo = hi + 1 by omega] at this
    omega
  have hy : (w.toNat / 2 ^ (hi + 1) * 2 ^ (hi + 1) + v % 2 ^ (hi + 1 - lo) * 2 ^ lo + w.toNat % 2 ^ lo) /
      2 ^ (hi + 1) = w.toNat / 2 ^ (hi + 1) := by
    rw [Nat.add_assoc, Nat.mul_comm, Nat.mul_add_div (Nat.two_pow_pos _), Nat.div_eq_of_lt hs, Nat.add_zero]
  rw [Nat.pow_add 2 (hi + 1) k, ← Nat.div_div_eq_div_mul, hy, Nat.div_div_eq_div_mul]

theorem wbit_eq_wfld (w : W32) (i : Nat) : wbit w i = decide (wfld w i i = 1) := by
  unfold wbit wfld nfld
  rw [BitVec.getLsbD, Nat.testBit_eq_decide_div_mod_eq, show i + 1 - i = 1 by omega, Nat.pow_one]

/-- The bit put in reads back, and every other bit stays. -/
theorem wbit_wsetBit (w : W32) (i j : Nat) (b : Bool) (hi : i < 32) :
    wbit (wsetBit w i b) j = if j = i then b else wbit w j := by
  unfold wsetBit
  by_cases h : j = i
  · subst h
    rw [wbit_eq_wfld, wfld_wsetFld w j j _ (Nat.le_refl _) hi, show j + 1 - j = 1 by omega]
    cases b <;> simp
  · simp only [h, if_false, wbit_eq_wfld]
    congr 2
    by_cases hl : j < i
    · exact wfld_wsetFld_below w i i _ j j (Nat.le_refl _) hi hl
    · exact wfld_wsetFld_above w i i _ j j (Nat.le_refl _) hi (by omega)

end Sys2Proof.Machine
end

