-- ==== Sys2Proof/Laws/Effect.lean ====
section
/-!
SUPPORT. One lemma for each command, `does_<constructor>`: to show what the command does, show what its meaning
makes of the device. Proofs about commands cite these and unfold neither the dispatch nor the outcome.
-/
namespace Sys2Proof
open Machine

variable {c d : Chip}

theorem does_of_runs {i : Instr} (h : ∀ q, exec i ⟨q, c⟩ = .next ⟨q, if c.runs then d else c⟩) : Does i c d :=
  fun r q => (h q).trans (by rw [if_pos r])

theorem powered_of {i : Instr} (h : ∀ q, exec i ⟨q, c⟩ = .next ⟨q, if c.supplied then d else c⟩) : Powered i c d :=
  fun r q => (h q).trans (by rw [if_pos r])

theorem does_registerWrite {m : Master} {a : W32} {n : Nat} {v : W32} (h : registerWrite c m.val a.toNat n v = d) :
    Does (.registerWrite m a n v) c d :=
  does_of_runs fun _ => h ▸ rfl

theorem does_splitRegisterLatch {m : Master} {a : W32} {n : Nat} (h : registerRead c m.val a.toNat n = d) : Does
    (.splitRegisterLatch m a n) c d :=
  does_of_runs fun _ => h ▸ rfl

theorem does_domainRateWrite {m : Master} {x : Fin 2} {v : W32} (h : regWrite c m.val (TMU_Dx_RATE_LO x.val) v = d) :
    Does (.domainRateWrite m x v) c d :=
  does_of_runs fun _ => h ▸ rfl

theorem does_domainAdjWrite {m : Master} {x : Fin 2} {v : W32} (h : regWrite c m.val (TMU_Dx_ADJ_LO x.val) v = d) :
    Does (.domainAdjWrite m x v) c d :=
  does_of_runs fun _ => h ▸ rfl

theorem does_domainStepWrite {m : Master} {x : Fin 2} {v : W32} (h : regWrite c m.val (TMU_Dx_STEP_LO x.val) v = d) :
    Does (.domainStepWrite m x v) c d :=
  does_of_runs fun _ => h ▸ rfl

theorem does_domainEnable {m : Master} {x : Fin 2} {v : W32} (h : regWrite c m.val (TMU_Dx_CMD x.val) (v ||| 0x1) =
    d) : Does (.domainEnable m x v) c d :=
  does_of_runs fun _ => h ▸ rfl

theorem does_domainLock {m : Master} {x : Fin 2} {v : W32} (h : regWrite c m.val (TMU_Dx_CMD x.val) (v ||| 0x2) = d)
    : Does (.domainLock m x v) c d :=
  does_of_runs fun _ => h ▸ rfl

theorem does_domainSync {m : Master} {x : Fin 2} {v : W32} (h : regWrite c m.val (TMU_Dx_CMD x.val) (v ||| 0x4) = d)
    : Does (.domainSync m x v) c d :=
  does_of_runs fun _ => h ▸ rfl

theorem does_domainFail {m : Master} {x : Fin 2} {v : W32} (h : regWrite c m.val (TMU_Dx_CMD x.val) (v ||| 0x8) = d)
    : Does (.domainFail m x v) c d :=
  does_of_runs fun _ => h ▸ rfl

theorem does_domainDisable {m : Master} {x : Fin 2} {v : W32} (h : regWrite c m.val (TMU_Dx_CMD x.val) (v ||| 0x10) =
    d) : Does (.domainDisable m x v) c d :=
  does_of_runs fun _ => h ▸ rfl

theorem does_syncTimeout {x : Fin 2} (h : syncTimeout c (domAt x) = d) : Does (.syncTimeout x) c d :=
  does_of_runs fun _ => h ▸ rfl

theorem does_holdoverFailLimit {x : Fin 2} (h : holdoverFail c (domAt x) = d) : Does (.holdoverFailLimit x) c d :=
  does_of_runs fun _ => h ▸ rfl

theorem does_domainSelectWrite {m : Master} {v : W32} (h : regWrite c m.val TMU_DOMSEL v = d) : Does
    (.domainSelectWrite m v) c d :=
  does_of_runs fun _ => h ▸ rfl

theorem does_egressStampPop {m : Master} {p : Fin 8} {v : W32} (h : regWrite c m.val (TMU_Pn_EQPOP p.val) v = d) :
    Does (.egressStampPop m p v) c d :=
  does_of_runs fun _ => h ▸ rfl

theorem does_stampInputEdge {g : Fin 128} {rising : Bool} {quarter : Fin 4} {stable : Nat} (h : stampEdge c g.val
    rising quarter.val stable = d) : Does (.stampInputEdge g rising quarter stable) c d :=
  does_of_runs fun _ => h ▸ rfl

theorem does_stampRingPop {m : Master} {v : W32} (h : regWrite c m.val TMU_TSR_POP v = d) : Does (.stampRingPop m v)
    c d :=
  does_of_runs fun _ => h ▸ rfl

theorem does_timedOutputArm {m : Master} {n : Fin 32} {v : W32} (h : regWrite c m.val (TMU_TOn_CTL n.val) (v ||| 0x1)
    = d) : Does (.timedOutputArm m n v) c d :=
  does_of_runs fun _ => h ▸ rfl

theorem does_timedOutputCancel {m : Master} {n : Fin 32} {v : W32} (h : regWrite c m.val (TMU_TOn_CTL n.val) (v |||
    0x4) = d) : Does (.timedOutputCancel m n v) c d :=
  does_of_runs fun _ => h ▸ rfl

theorem does_timedOutputEdge {n : Fin 32} (h : toEdge c n.val = d) : Does (.timedOutputEdge n) c d :=
  does_of_runs fun _ => h ▸ rfl

theorem does_sampleSubmit {m : Master} {n : Fin 16} {v : W32} (h : regWrite c m.val (ANG_SHn_INCMT n.val) v = d) :
    Does (.sampleSubmit m n v) c d :=
  does_of_runs fun _ => h ▸ rfl

theorem does_shaftFollow {m : Master} {n : Fin 16} {v : W32} (h : regWrite c m.val (ANG_SHn_CMD n.val) (v ||| 0x1) =
    d) : Does (.shaftFollow m n v) c d :=
  does_of_runs fun _ => h ▸ rfl

theorem does_shaftMaster {m : Master} {n : Fin 16} {v : W32} (h : regWrite c m.val (ANG_SHn_CMD n.val) (v ||| 0x2) =
    d) : Does (.shaftMaster m n v) c d :=
  does_of_runs fun _ => h ▸ rfl

theorem does_shaftIdle {m : Master} {n : Fin 16} {v : W32} (h : regWrite c m.val (ANG_SHn_CMD n.val) (v ||| 0x4) = d)
    : Does (.shaftIdle m n v) c d :=
  does_of_runs fun _ => h ▸ rfl

theorem does_reftoExpiry {n : Fin 16} (h : reftoExpiry c n.val = d) : Does (.reftoExpiry n) c d :=
  does_of_runs fun _ => h ▸ rfl

theorem does_coastlimExpiry {n : Fin 16} (h : coastlimExpiry c n.val = d) : Does (.coastlimExpiry n) c d :=
  does_of_runs fun _ => h ▸ rfl

theorem does_masterSampleGeneration {n : Fin 16} (h : generateSample c n.val = d) : Does (.masterSampleGeneration n)
    c d :=
  does_of_runs fun _ => h ▸ rfl

theorem does_sampleOutRead {m : Master} {n : Fin 16} (h : regRead c m.val (ANG_SHn_OUT n.val 0) = d) : Does
    (.sampleOutRead m n) c d :=
  does_of_runs fun _ => h ▸ rfl

theorem does_stampToAngleStart {m : Master} {k : Fin 4} {v : W32} (h : regWrite c m.val (ANG_S2As_CTL k.val) (v |||
    0x80000000) = d) : Does (.stampToAngleStart m k v) c d :=
  does_of_runs fun _ => h ▸ rfl

theorem does_stampToAngleDone {k : Fin 4} (h : s2aDone c k.val = d) : Does (.stampToAngleDone k) c d :=
  does_of_runs fun _ => h ▸ rfl

theorem does_angleEventWrite {m : Master} {n : Fin 1024} {r : Fin 5} {v : W32} (h : regWrite c m.val (ANG_AEn_CFG
    n.val + 4 * r.val) v = d) : Does (.angleEventWrite m n r v) c d :=
  does_of_runs fun _ => h ▸ rfl

theorem does_ulpEchoRequest {stream seq : Fin 65536} {req : List Byte} {stamp : Option Nat} (h : ulpEchoRequest c
    stream.val seq.val req stamp = d) : Does (.ulpEchoRequest stream seq req stamp) c d :=
  does_of_runs fun _ => h ▸ rfl

theorem does_portModeWrite {m : Master} {p : Fin 8} {v : W32} (h : regWrite c m.val (ETH_Pn_CTL p.val) v = d) : Does
    (.portModeWrite m p v) c d :=
  does_of_runs fun _ => h ▸ rfl

theorem does_autonegComplete {p : Fin 8} {r : AnResult} (h : (c.atPort p.val fun c => autonegComplete c p.val r) = d)
    : Does (.autonegComplete p r) c d :=
  does_of_runs fun _ => h ▸ rfl

theorem does_linkUp {p : Fin 8} {link : LinkFacts} (h : (c.atPort p.val fun c => linkComesUp c p.val link.speed.val
    link.mdix) = d) : Does (.linkUp p link) c d :=
  does_of_runs fun _ => h ▸ rfl

theorem does_linkDown {p : Fin 8} (h : linkLost c p.val = d) : Does (.linkDown p) c d :=
  does_of_runs fun _ => h ▸ rfl

theorem does_jabber {p : Fin 8} {active : Bool} (h : (c.atPort p.val fun c => jabber c p.val active) = d) : Does
    (.jabber p active) c d :=
  does_of_runs fun _ => h ▸ rfl

theorem does_frameReceive {p : Fin 8} {f : RxFrame} (h : frameReceive c p.val f = d) : Does (.frameReceive p f) c d
    :=
  does_of_runs fun _ => h ▸ rfl

theorem does_frameTransmitStart {p : Fin 8} {start : TxBegin} (h : frameTransmitStart c p.val start.busy
    start.phase.val = d) : Does (.frameTransmitStart p start) c d :=
  does_of_runs fun _ => h ▸ rfl

theorem does_frameTransmitEnd {p : Fin 8} {underrun : Bool} {phase : Fin 4} (h : frameTransmitEnd c p.val underrun
    phase = d) : Does (.frameTransmitEnd p underrun phase) c d :=
  does_of_runs fun _ => h ▸ rfl

theorem does_collision {p : Fin 8} {bits : Nat} (h : collision c p.val bits = d) : Does (.collision p bits) c d :=
  does_of_runs fun _ => h ▸ rfl

theorem does_backoffExpiry {x : PortInstant} (h : backoffExpiry c x.port.val x.phase.val = d) : Does (.backoffExpiry
    x) c d :=
  does_of_runs fun _ => h ▸ rfl

theorem does_plcaActiveChange {p : Fin 8} {active : Bool} {curid : Fin 256} {n : Nat} (h : plcaActive c p.val active
    curid.val n = d) : Does (.plcaActiveChange p active curid n) c d :=
  does_of_runs fun _ => h ▸ rfl

theorem does_preemptVerifyTimer {p : Fin 8} {response : Bool} (h : verifyTimer c p.val response = d) : Does
    (.preemptVerifyTimer p response) c d :=
  does_of_runs fun _ => h ▸ rfl

theorem does_lpiEntry {p : Fin 8} (h : lpiEntry c p.val = d) : Does (.lpiEntry p) c d :=
  does_of_runs fun _ => h ▸ rfl

theorem does_earlyWake {p : Fin 8} (h : earlyWake c p.val = d) : Does (.earlyWake p) c d :=
  does_of_runs fun _ => h ▸ rfl

theorem does_wakeComplete {p : Fin 8} (h : wakeComplete c p.val = d) : Does (.wakeComplete p) c d :=
  does_of_runs fun _ => h ▸ rfl

theorem does_rxLpiSignal {p : Fin 8} {enter : Bool} (h : rxLpi c p.val enter = d) : Does (.rxLpiSignal p enter) c d
    :=
  does_of_runs fun _ => h ▸ rfl

theorem does_counterSnapshot {m : Master} {p : Fin 8} {v : W32} (h : regWrite c m.val (ETH_Pn_CNTSNAP p.val) v = d) :
    Does (.counterSnapshot m p v) c d :=
  does_of_runs fun _ => h ▸ rfl

theorem does_counterClear {m : Master} {p : Fin 8} {v : W32} (h : regWrite c m.val (ETH_Pn_CNTCLR p.val) v = d) :
    Does (.counterClear m p v) c d :=
  does_of_runs fun _ => h ▸ rfl

theorem does_ldfRuleCommit {m : Master} {k : Fin 64} {v : W32} (h : regWrite c m.val (ETH_LDFk_CFG k.val) v = d) :
    Does (.ldfRuleCommit m k v) c d :=
  does_of_runs fun _ => h ▸ rfl

theorem does_cableTestStart {m : Master} {p : Fin 8} {v : W32} (h : regWrite c m.val (ETH_Pn_CT_CTL p.val) (v |||
    0x1) = d) : Does (.cableTestStart m p v) c d :=
  does_of_runs fun _ => h ▸ rfl

theorem does_cableTestDone {p : Fin 8} {rs : List PairResult} (h : cableTestDone c p.val rs = d) : Does
    (.cableTestDone p rs) c d :=
  does_of_runs fun _ => h ▸ rfl

theorem does_hostPortPeckGrant {sp : Fin 2} (h : peckGrant c (8 + sp.val) = d) : Does (.hostPortPeckGrant sp) c d :=
  does_of_runs fun _ => h ▸ rfl

theorem does_gateListChange {m : Master} {p : Fin 10} {v : W32} (h : regWrite c m.val (SWX_Pp_GCL_CMD p.val) (v |||
    0x1) = d) : Does (.gateListChange m p v) c d :=
  does_of_runs fun _ => h ▸ rfl

theorem does_gateListChangeTime {p : Fin 10} (h : gclChangeTime c p.val = d) : Does (.gateListChangeTime p) c d :=
  does_of_runs fun _ => h ▸ rfl

theorem does_gateEntryStart {p : Fin 10} (h : gateEntryStart c p.val = d) : Does (.gateEntryStart p) c d :=
  does_of_runs fun _ => h ▸ rfl

theorem does_streamGateEntry {i : Fin 64} (h : streamGateEntry c i.val = d) : Does (.streamGateEntry i) c d :=
  does_of_runs fun _ => h ▸ rfl

theorem does_recoveryResetTimeout {i : Fin 256} (h : recoveryReset c i.val = d) : Does (.recoveryResetTimeout i) c d
    :=
  does_of_runs fun _ => h ▸ rfl

theorem does_slotWindowOpen {k : Fin 256} (h : slotWindowOpen c k.val = d) : Does (.slotWindowOpen k) c d :=
  does_of_runs fun _ => h ▸ rfl

theorem does_queueFlush {m : Master} {v : W32} (h : regWrite c m.val SWX_FLUSH (v ||| 0x80000000) = d) : Does
    (.queueFlush m v) c d :=
  does_of_runs fun _ => h ▸ rfl

theorem does_tableRead {m : Master} {t : Fin 16} {i : Fin 65536} (h : regWrite c m.val SWX_TBL_CMD (w32 (0x80000000 +
    at_ t.val 24 + i.val)) = d) : Does (.tableRead m t i) c d :=
  does_of_runs fun _ => h ▸ rfl

theorem does_tableWrite {m : Master} {t : Fin 16} {i : Fin 65536} (h : regWrite c m.val SWX_TBL_CMD (w32 (0x90000000
    + at_ t.val 24 + i.val)) = d) : Does (.tableWrite m t i) c d :=
  does_of_runs fun _ => h ▸ rfl

theorem does_tableSearch {m : Master} {t : Fin 16} {i : Fin 65536} (h : regWrite c m.val SWX_TBL_CMD (w32 (0xA0000000
    + at_ t.val 24 + i.val)) = d) : Does (.tableSearch m t i) c d :=
  does_of_runs fun _ => h ▸ rfl

theorem does_tableClear {m : Master} {t : Fin 16} {i : Fin 65536} (h : regWrite c m.val SWX_TBL_CMD (w32 (0xB0000000
    + at_ t.val 24 + i.val)) = d) : Does (.tableClear m t i) c d :=
  does_of_runs fun _ => h ▸ rfl

theorem does_canEnable {m : Master} {n : Fin 4} {v : W32} (h : regWrite c m.val (CANn_CTL n.val) (v ||| 0x80000000) =
    d) : Does (.canEnable m n v) c d :=
  does_of_runs fun _ => h ▸ rfl

theorem does_canDisable {m : Master} {n : Fin 4} {v : W32} (h : regWrite c m.val (CANn_CTL n.val) (v &&& 0x7FFFFFFF)
    = d) : Does (.canDisable m n v) c d :=
  does_of_runs fun _ => h ▸ rfl

theorem does_canRequest {m : Master} {n : Fin 4} {k : Fin 128} (h : regWrite c m.val (CANn_OBJCMD n.val) (w32
    (0x10000000 + k.val)) = d) : Does (.canRequest m n k) c d :=
  does_of_runs fun _ => h ▸ rfl

theorem does_canCancel {m : Master} {n : Fin 4} {k : Fin 128} (h : regWrite c m.val (CANn_OBJCMD n.val) (w32
    (0x20000000 + k.val)) = d) : Does (.canCancel m n k) c d :=
  does_of_runs fun _ => h ▸ rfl

theorem does_canClearnew {m : Master} {n : Fin 4} {k : Fin 128} (h : regWrite c m.val (CANn_OBJCMD n.val) (w32
    (0x30000000 + k.val)) = d) : Does (.canClearnew m n k) c d :=
  does_of_runs fun _ => h ▸ rfl

theorem does_canFrameCommit {n : Fin 4} (h : canFrameCommit c n.val = d) : Does (.canFrameCommit n) c d :=
  does_of_runs fun _ => h ▸ rfl

theorem does_canArbitrationLoss {n : Fin 4} (h : canArbLost c n.val = d) : Does (.canArbitrationLoss n) c d :=
  does_of_runs fun _ => h ▸ rfl

theorem does_canTxComplete {n : Fin 4} (h : canTxComplete c n.val = d) : Does (.canTxComplete n) c d :=
  does_of_runs fun _ => h ▸ rfl

theorem does_canBusError {n : Fin 4} {e : CanError} (h : canBusError c n.val e = d) : Does (.canBusError n e) c d :=
  does_of_runs fun _ => h ▸ rfl

theorem does_canXlPayloadRead {n : Fin 4} {unit : Fin 32} (h : canXlRead c n.val unit.val = d) : Does
    (.canXlPayloadRead n unit) c d :=
  does_of_runs fun _ => h ▸ rfl

theorem does_canRxFrame {n : Fin 4} {f : CanFrame} {x : CanRxPoint} (h : canRxFrame c n.val x.begins f x.age = d) :
    Does (.canRxFrame n f x) c d :=
  does_of_runs fun _ => h ▸ rfl

theorem does_canRingPop {m : Master} {n : Fin 4} {v : W32} (h : regWrite c m.val (CANn_RING_POP n.val) v = d) : Does
    (.canRingPop m n v) c d :=
  does_of_runs fun _ => h ▸ rfl

theorem does_canRecover {m : Master} {n : Fin 4} {v : W32} (h : regWrite c m.val (CANn_CMD n.val) (v ||| 0x1) = d) :
    Does (.canRecover m n v) c d :=
  does_of_runs fun _ => h ▸ rfl

theorem does_canBusoffRecovered {x : CanRecessive} (h : canBusoffRecovered c x.chan.val x.more.val = d) : Does
    (.canBusoffRecovered x) c d :=
  does_of_runs fun _ => h ▸ rfl

theorem does_canReferenceTrigger {n : Fin 4} {late : Bool} (h : canReference c n.val late = d) : Does
    (.canReferenceTrigger n late) c d :=
  does_of_runs fun _ => h ▸ rfl

theorem does_canExclusiveTrigger {n : Fin 4} {j : Fin 256} {idle : Bool} (h : canExclusive c n.val j.val idle = d) :
    Does (.canExclusiveTrigger n j idle) c d :=
  does_of_runs fun _ => h ▸ rfl

theorem does_canArbitratingTrigger {n : Fin 4} {j : Fin 256} (h : canArbitrating c n.val j.val = d) : Does
    (.canArbitratingTrigger n j) c d :=
  does_of_runs fun _ => h ▸ rfl

theorem does_canReceiveCheckTrigger {n : Fin 4} {j : Fin 256} (h : canReceiveCheck c n.val j.val = d) : Does
    (.canReceiveCheckTrigger n j) c d :=
  does_of_runs fun _ => h ▸ rfl

theorem does_canReceiveWindowEnd {n : Fin 4} (h : canWindowEnd c n.val = d) : Does (.canReceiveWindowEnd n) c d :=
  does_of_runs fun _ => h ▸ rfl

theorem does_canWatchTrigger {n : Fin 4} {j : Fin 256} (h : canWatch c n.val j.val = d) : Does (.canWatchTrigger n j)
    c d :=
  does_of_runs fun _ => h ▸ rfl

theorem does_canReferenceReceived {n : Fin 4} {f : CanFrame} {age : Nat} (h : canReferenceReceived c n.val f age = d)
    : Does (.canReferenceReceived n f age) c d :=
  does_of_runs fun _ => h ▸ rfl

theorem does_canModeValidate {m : Master} {n k : Fin 4} {v : W32} (h : regWrite c m.val (CANn_TT_MODE n.val k.val) (v
    ||| 0x80000000) = d) : Does (.canModeValidate m n k v) c d :=
  does_of_runs fun _ => h ▸ rfl

theorem does_canTtresume {m : Master} {n : Fin 4} {v : W32} (h : regWrite c m.val (CANn_CMD n.val) (v ||| 0x2) = d) :
    Does (.canTtresume m n v) c d :=
  does_of_runs fun _ => h ▸ rfl

theorem does_canModeRequest {m : Master} {n : Fin 4} {v : W32} (h : regWrite c m.val (CANn_TT_MODEREQ n.val) (v |||
    0x80000000) = d) : Does (.canModeRequest m n v) c d :=
  does_of_runs fun _ => h ▸ rfl

theorem does_canMatrixCycleStart {n : Fin 4} (h : canMatrixStart c n.val = d) : Does (.canMatrixCycleStart n) c d :=
  does_of_runs fun _ => h ▸ rfl

theorem does_canVetoReceived {n : Fin 4} {f : CanFrame} {age : Nat} (h : canVetoReceived c n.val f age = d) : Does
    (.canVetoReceived n f age) c d :=
  does_of_runs fun _ => h ▸ rfl

theorem does_guardianWindow {x : CanPhase} (h : guardianWindow c x.chan.val x.data = d) : Does (.guardianWindow x) c
    d :=
  does_of_runs fun _ => h ▸ rfl

theorem does_bundleExecute {core : Fin 11} {flight : Fin 256} {mismatch : Bool} (h : bundleExecute c core.val
    flight.val mismatch = d) : Does (.bundleExecute core flight mismatch) c d :=
  does_of_runs fun _ => h ▸ rfl

theorem does_waitWake {core : Fin 11} {x : Fin 8} (h : waitWake c core.val x.val = d) : Does (.waitWake core x) c d
    :=
  does_of_runs fun _ => h ▸ rfl

theorem does_waitTimeout {core : Fin 11} {x : Fin 8} (h : waitTimeout c core.val x.val = d) : Does (.waitTimeout core
    x) c d :=
  does_of_runs fun _ => h ▸ rfl

theorem does_rqConsWrite {m : Master} {q : Fin 32} {v : W32} (h : regWrite c m.val (PE_RQq_CONS q.val) v = d) : Does
    (.rqConsWrite m q v) c d :=
  does_of_runs fun _ => h ▸ rfl

theorem does_tqPushWrite {m : Master} {t : Fin 16} {v : W32} (h : regWrite c m.val (PE_TQt_PUSH t.val) v = d) : Does
    (.tqPushWrite m t v) c d :=
  does_of_runs fun _ => h ▸ rfl

theorem does_tqDescriptorServe {sp : Fin 2} (h : tqServe c (8 + sp.val) = d) : Does (.tqDescriptorServe sp) c d :=
  does_of_runs fun _ => h ▸ rfl

theorem does_peCycleTimer {n : Fin 8} (h : peCycleTimer c n.val = d) : Does (.peCycleTimer n) c d :=
  does_of_runs fun _ => h ▸ rfl

theorem does_engineStart {m : Master} {n : Fin 8} {v : W32} (h : regWrite c m.val (PE_PEn_CMD n.val) (v ||| 0x1) = d)
    : Does (.engineStart m n v) c d :=
  does_of_runs fun _ => h ▸ rfl

theorem does_engineStop {m : Master} {n : Fin 8} {v : W32} (h : regWrite c m.val (PE_PEn_CMD n.val) (v ||| 0x2) = d)
    : Does (.engineStop m n v) c d :=
  does_of_runs fun _ => h ▸ rfl

theorem does_engineClear {m : Master} {n : Fin 8} {v : W32} (h : regWrite c m.val (PE_PEn_CMD n.val) (v ||| 0x4) = d)
    : Does (.engineClear m n v) c d :=
  does_of_runs fun _ => h ▸ rfl

theorem does_engineClearDone {n : Fin 8} (h : engineClearDone c n.val = d) : Does (.engineClearDone n) c d :=
  does_of_runs fun _ => h ▸ rfl

theorem does_engineWatchdogExpiry {n : Fin 8} (h : peWatchdog c n.val = d) : Does (.engineWatchdogExpiry n) c d :=
  does_of_runs fun _ => h ▸ rfl

theorem does_frameEnable {m : Master} {n : Fin 8} {v : W32} (h : regWrite c m.val (TSK_FRn_CFG n.val) (v |||
    0x80000000) = d) : Does (.frameEnable m n v) c d :=
  does_of_runs fun _ => h ▸ rfl

theorem does_frameCycleBoundary {n : Fin 8} (h : frameBoundary c n.val = d) : Does (.frameCycleBoundary n) c d :=
  does_of_runs fun _ => h ▸ rfl

theorem does_taskReleaseWrite {m : Master} {v : W32} (h : regWrite c m.val TSK_REL v = d) : Does (.taskReleaseWrite m
    v) c d :=
  does_of_runs fun _ => h ▸ rfl

theorem does_frameEvaluation {n : Fin 8} (h : frameEvaluation c n.val = d) : Does (.frameEvaluation n) c d :=
  does_of_runs fun _ => h ▸ rfl

theorem does_evaluationEnd {n : Fin 8} (h : evaluationEnd c n.val = d) : Does (.evaluationEnd n) c d :=
  does_of_runs fun _ => h ▸ rfl

theorem does_noExchangeCheck {n : Fin 8} (h : noExchangeCheck c n.val = d) : Does (.noExchangeCheck n) c d :=
  does_of_runs fun _ => h ▸ rfl

theorem does_outputHandover {n : Fin 8} (h : outputHandover c n.val = d) : Does (.outputHandover n) c d :=
  does_of_runs fun _ => h ▸ rfl

theorem does_stationReport {m : Master} {v : W32} (h : regWrite c m.val TSK_RPT v = d) : Does (.stationReport m v) c
    d :=
  does_of_runs fun _ => h ▸ rfl

theorem does_forceEntrySet {m : Master} {f : Fin 64} {v : W32} (h : regWrite c m.val (TSK_FCf_CTL f.val) (v |||
    0x80000000) = d) : Does (.forceEntrySet m f v) c d :=
  does_of_runs fun _ => h ▸ rfl

theorem does_forceEntryClear {m : Master} {f : Fin 64} {v : W32} (h : regWrite c m.val (TSK_FCf_CTL f.val) (v &&&
    0x7FFFFFFF) = d) : Does (.forceEntryClear m f v) c d :=
  does_of_runs fun _ => h ▸ rfl

theorem does_vcApply {m : Master} {v : W32} (h : regWrite c m.val TSK_VC_CTL (v ||| 0x40000000) = d) : Does (.vcApply
    m v) c d :=
  does_of_runs fun _ => h ▸ rfl

theorem does_tskDiagWrite {m : Master} {v : W32} (h : regWrite c m.val TSK_DIAG v = d) : Does (.tskDiagWrite m v) c d
    :=
  does_of_runs fun _ => h ▸ rfl

theorem does_axisEnable {m : Master} {n : Fin 32} {v : W32} (h : regWrite c m.val (AXn_CMD n.val) (v ||| 0x1) = d) :
    Does (.axisEnable m n v) c d :=
  does_of_runs fun _ => h ▸ rfl

theorem does_axisDisable {m : Master} {n : Fin 32} {v : W32} (h : regWrite c m.val (AXn_CMD n.val) (v ||| 0x2) = d) :
    Does (.axisDisable m n v) c d :=
  does_of_runs fun _ => h ▸ rfl

theorem does_axisMoveCmd {m : Master} {n : Fin 32} {v : W32} (h : regWrite c m.val (AXn_CMD n.val) (v ||| 0x4) = d) :
    Does (.axisMoveCmd m n v) c d :=
  does_of_runs fun _ => h ▸ rfl

theorem does_axisVelCmd {m : Master} {n : Fin 32} {v : W32} (h : regWrite c m.val (AXn_CMD n.val) (v ||| 0x8) = d) :
    Does (.axisVelCmd m n v) c d :=
  does_of_runs fun _ => h ▸ rfl

theorem does_axisGearCmd {m : Master} {n : Fin 32} {v : W32} (h : regWrite c m.val (AXn_CMD n.val) (v ||| 0x10) = d)
    : Does (.axisGearCmd m n v) c d :=
  does_of_runs fun _ => h ▸ rfl

theorem does_axisCamCmd {m : Master} {n : Fin 32} {v : W32} (h : regWrite c m.val (AXn_CMD n.val) (v ||| 0x20) = d) :
    Does (.axisCamCmd m n v) c d :=
  does_of_runs fun _ => h ▸ rfl

theorem does_axisCamarmCmd {m : Master} {n : Fin 32} {v : W32} (h : regWrite c m.val (AXn_CMD n.val) (v ||| 0x100) =
    d) : Does (.axisCamarmCmd m n v) c d :=
  does_of_runs fun _ => h ▸ rfl

theorem does_axisStopCmd {m : Master} {n : Fin 32} {v : W32} (h : regWrite c m.val (AXn_CMD n.val) (v ||| 0x40) = d)
    : Does (.axisStopCmd m n v) c d :=
  does_of_runs fun _ => h ▸ rfl

theorem does_axisClearCmd {m : Master} {n : Fin 32} {v : W32} (h : regWrite c m.val (AXn_CMD n.val) (v ||| 0x80) = d)
    : Does (.axisClearCmd m n v) c d :=
  does_of_runs fun _ => h ▸ rfl

theorem does_setposCommit {m : Master} {n : Fin 32} {v : W32} (h : regWrite c m.val (AXn_SETPOS_LO n.val) v = d) :
    Does (.setposCommit m n v) c d :=
  does_of_runs fun _ => h ▸ rfl

theorem does_phaseCommit {m : Master} {n : Fin 32} {v : W32} (h : regWrite c m.val (AXn_PHASE_LO n.val) v = d) : Does
    (.phaseCommit m n v) c d :=
  does_of_runs fun _ => h ▸ rfl

theorem does_stepPulse {g : Fin 16} (h : stepPulse c g.val = d) : Does (.stepPulse g) c d :=
  does_of_runs fun _ => h ▸ rfl

theorem does_quadratureTransition {q : Fin 16} {a b : Bool} {stable : Nat} (h : quadTransition c q.val a b stable =
    d) : Does (.quadratureTransition q a b stable) c d :=
  does_of_runs fun _ => h ▸ rfl

theorem does_quadratureIndex {q : Fin 16} {z : Bool} {stable : Nat} (h : quadIndex c q.val z stable = d) : Does
    (.quadratureIndex q z stable) c d :=
  does_of_runs fun _ => h ▸ rfl

theorem does_actinWrite {m : Master} {n : Fin 32} {v : W32} (h : regWrite c m.val (AXn_ACTIN n.val) v = d) : Does
    (.actinWrite m n v) c d :=
  does_of_runs fun _ => h ▸ rfl

theorem does_feedbackStale {n : Fin 32} (h : axisFaultDue c n.val 2 = d) : Does (.feedbackStale n) c d :=
  does_of_runs fun _ => h ▸ rfl

theorem does_deviationFault {n : Fin 32} (h : axisFaultDue c n.val 1 = d) : Does (.deviationFault n) c d :=
  does_of_runs fun _ => h ▸ rfl

theorem does_skJmp {n : Fin 32} {levels : W32} (h : skJmp c n.val levels = d) : Does (.skJmp n levels) c d :=
  does_of_runs fun _ => h ▸ rfl

theorem does_skWait {n : Fin 32} {levels : W32} (h : skWait c n.val levels = d) : Does (.skWait n levels) c d :=
  does_of_runs fun _ => h ▸ rfl

theorem does_skWaitEnd {n : Fin 32} {levels : W32} (h : skWaitEnd c n.val levels = d) : Does (.skWaitEnd n levels) c
    d :=
  does_of_runs fun _ => h ▸ rfl

theorem does_skWaitTimeout {n : Fin 32} {levels : W32} (h : skWaitTimeout c n.val levels = d) : Does (.skWaitTimeout
    n levels) c d :=
  does_of_runs fun _ => h ▸ rfl

theorem does_skIn {n : Fin 32} {levels : W32} (h : skIn c n.val levels = d) : Does (.skIn n levels) c d :=
  does_of_runs fun _ => h ▸ rfl

theorem does_skOut {n : Fin 32} (h : skOut c n.val = d) : Does (.skOut n) c d :=
  does_of_runs fun _ => h ▸ rfl

theorem does_skPush {n : Fin 32} (h : skPush c n.val = d) : Does (.skPush n) c d :=
  does_of_runs fun _ => h ▸ rfl

theorem does_skPull {n : Fin 32} (h : skPull c n.val = d) : Does (.skPull n) c d :=
  does_of_runs fun _ => h ▸ rfl

theorem does_skMov {n : Fin 32} {levels : W32} (h : skMov c n.val levels = d) : Does (.skMov n levels) c d :=
  does_of_runs fun _ => h ▸ rfl

theorem does_skSet {n : Fin 32} (h : skSet c n.val = d) : Does (.skSet n) c d :=
  does_of_runs fun _ => h ▸ rfl

theorem does_skIrq {n : Fin 32} (h : skIrq c n.val = d) : Does (.skIrq n) c d :=
  does_of_runs fun _ => h ▸ rfl

theorem does_skStamp {n : Fin 32} (h : skStamp c n.val = d) : Does (.skStamp n) c d :=
  does_of_runs fun _ => h ▸ rfl

theorem does_skStallRelease {n : Fin 32} (h : skStallRelease c n.val = d) : Does (.skStallRelease n) c d :=
  does_of_runs fun _ => h ▸ rfl

theorem does_skipperEnable {m : Master} {n : Fin 32} {v : W32} (h : regWrite c m.val (SKn_CTL n.val) (v |||
    0x80000000) = d) : Does (.skipperEnable m n v) c d :=
  does_of_runs fun _ => h ▸ rfl

theorem does_skipperDisable {m : Master} {n : Fin 32} {v : W32} (h : regWrite c m.val (SKn_CTL n.val) (v &&&
    0x7FFFFFFF) = d) : Does (.skipperDisable m n v) c d :=
  does_of_runs fun _ => h ▸ rfl

theorem does_skipperRestart {m : Master} {n : Fin 32} {v : W32} (h : regWrite c m.val (SKn_CTL n.val) (v |||
    0x40000000) = d) : Does (.skipperRestart m n v) c d :=
  does_of_runs fun _ => h ▸ rfl

theorem does_feedWrite {m : Master} {n : Fin 32} {v : W32} (h : regWrite c m.val (SKn_FEED n.val) v = d) : Does
    (.feedWrite m n v) c d :=
  does_of_runs fun _ => h ▸ rfl

theorem does_irqsetWrite {m : Master} {n : Fin 32} {v : W32} (h : regWrite c m.val (SKn_IRQSET n.val) v = d) : Does
    (.irqsetWrite m n v) c d :=
  does_of_runs fun _ => h ▸ rfl

theorem does_lanesWrite {m : Master} {n : Fin 32} {second : Bool} {v : W32} (h : (regWrite c m.val (if second then
    SKn_LANES1 n.val else SKn_LANES0 n.val) v) = d) : Does (.lanesWrite m n second v) c d :=
  does_of_runs fun _ => h ▸ rfl

theorem does_instructionWordWrite {m : Master} {cl : Fin 4} {i : Fin 256} {v : W32} (h : regWrite c m.val (SCc_INSN
    cl.val i.val) v = d) : Does (.instructionWordWrite m cl i v) c d :=
  does_of_runs fun _ => h ▸ rfl

theorem does_packFifoRead {m : Master} {n : Fin 32} (h : regRead c m.val (PFn_DATA_LO n.val) = d) : Does
    (.packFifoRead m n) c d :=
  does_of_runs fun _ => h ▸ rfl

theorem does_packFifoReset {m : Master} {n : Fin 32} {v : W32} (h : regWrite c m.val (PFn_CTL n.val) (v ||| 0x1) = d)
    : Does (.packFifoReset m n v) c d :=
  does_of_runs fun _ => h ▸ rfl

theorem does_packCreditGrant {n : Fin 32} (h : pfGrant c n.val = d) : Does (.packCreditGrant n) c d :=
  does_of_runs fun _ => h ▸ rfl

theorem does_bankOwnerWrite {m : Master} {b : Fin 32} {v : W32} (h : regWrite c m.val (MEM_BOWN b.val) v = d) : Does
    (.bankOwnerWrite m b v) c d :=
  does_of_runs fun _ => h ▸ rfl

theorem does_bankOwnerTakeEffect {b : Fin 32} (h : bankOwnerTakeEffect c b.val = d) : Does (.bankOwnerTakeEffect b) c
    d :=
  does_of_runs fun _ => h ▸ rfl

theorem does_atomicFaddRead {m : Master} (h : regRead c m.val MEM_AT_FADD = d) : Does (.atomicFaddRead m) c d :=
  does_of_runs fun _ => h ▸ rfl

theorem does_atomicSwapRead {m : Master} (h : regRead c m.val MEM_AT_SWAP = d) : Does (.atomicSwapRead m) c d :=
  does_of_runs fun _ => h ▸ rfl

theorem does_lockRead {m : Master} {n : Fin 256} (h : regRead c m.val (MEM_LK n.val) = d) : Does (.lockRead m n) c d
    :=
  does_of_runs fun _ => h ▸ rfl

theorem does_lockWrite {m : Master} {n : Fin 256} {v : W32} (h : regWrite c m.val (MEM_LK n.val) v = d) : Does
    (.lockWrite m n v) c d :=
  does_of_runs fun _ => h ▸ rfl

theorem does_marchStart {m : Master} {v : W32} (h : regWrite c m.val MEM_MARCH_CTL (v ||| 0x80000000) = d) : Does
    (.marchStart m v) c d :=
  does_of_runs fun _ => h ▸ rfl

theorem does_marchDone {xs : List BankResult} (h : marchDone c xs = d) : Does (.marchDone xs) c d :=
  does_of_runs fun _ => h ▸ rfl

theorem does_freezeResume {m : Master} {unit : Fin 256} (h : regWrite c m.val XDM_FRZ_RESOLVE (w32 (0x40000000 +
    unit.val)) = d) : Does (.freezeResume m unit) c d :=
  does_of_runs fun _ => h ▸ rfl

theorem does_freezeRedirect {m : Master} {unit : Fin 256} (h : regWrite c m.val XDM_FRZ_RESOLVE (w32 (0x80000000 +
    unit.val)) = d) : Does (.freezeRedirect m unit) c d :=
  does_of_runs fun _ => h ▸ rfl

theorem does_freezeReset {m : Master} {unit : Fin 256} (h : regWrite c m.val XDM_FRZ_RESOLVE (w32 (0xC0000000 +
    unit.val)) = d) : Does (.freezeReset m unit) c d :=
  does_of_runs fun _ => h ▸ rfl

theorem does_xdmGo {m : Master} {n : Fin 64} {v : W32} (h : regWrite c m.val (XDn_CTL n.val) (v ||| 0x80000000) = d)
    : Does (.xdmGo m n v) c d :=
  does_of_runs fun _ => h ▸ rfl

theorem does_xdmStop {m : Master} {n : Fin 64} {v : W32} (h : regWrite c m.val (XDn_CTL n.val) (v ||| 0x40000000) =
    d) : Does (.xdmStop m n v) c d :=
  does_of_runs fun _ => h ▸ rfl

theorem does_xdmTrigWrite {m : Master} {n : Fin 64} {v : W32} (h : regWrite c m.val (XDn_CTL n.val) (v |||
    0x20000000) = d) : Does (.xdmTrigWrite m n v) c d :=
  does_of_runs fun _ => h ▸ rfl

theorem does_xdmTrigtCommit {m : Master} {n : Fin 64} {v : W32} (h : regWrite c m.val (XDn_TRIGT_LO n.val) v = d) :
    Does (.xdmTrigtCommit m n v) c d :=
  does_of_runs fun _ => h ▸ rfl

theorem does_xdmTimeTrigger {n : Fin 64} (h : timeTrigger c n.val = d) : Does (.xdmTimeTrigger n) c d :=
  does_of_runs fun _ => h ▸ rfl

theorem does_xdmDescriptorStart {n : Fin 64} (h : descriptorStart c n.val = d) : Does (.xdmDescriptorStart n) c d :=
  does_of_runs fun _ => h ▸ rfl

theorem does_xdmArmedTimeout {n : Fin 64} (h : armedTimeout c n.val = d) : Does (.xdmArmedTimeout n) c d :=
  does_of_runs fun _ => h ▸ rfl

theorem does_mailboxConfigWrite {m : Master} {n : Fin 64} {v : W32} (h : regWrite c m.val (MBn_CFG n.val) v = d) :
    Does (.mailboxConfigWrite m n v) c d :=
  does_of_runs fun _ => h ▸ rfl

theorem does_mailboxDataWrite {m : Master} {n : Fin 64} {i : Fin 16} {v : W32} (h : regWrite c m.val (MBn_DATA n.val
    i.val) v = d) : Does (.mailboxDataWrite m n i v) c d :=
  does_of_runs fun _ => h ▸ rfl

theorem does_mailboxGo {m : Master} {n : Fin 64} {v : W32} (h : regWrite c m.val (MBn_CTL n.val) (v ||| 0x80000000) =
    d) : Does (.mailboxGo m n v) c d :=
  does_of_runs fun _ => h ▸ rfl

theorem does_mailboxAcknowledge {m : Master} {n : Fin 64} (h : regRead c m.val (MBn_DATA n.val (c.mbLast n.val)) = d)
    : Does (.mailboxAcknowledge m n) c d :=
  does_of_runs fun _ => h ▸ rfl

theorem does_mailboxTimeout {n : Fin 64} (h : mailboxTimeout c n.val = d) : Does (.mailboxTimeout n) c d :=
  does_of_runs fun _ => h ▸ rfl

theorem does_crossWaitDetect {n : Fin 64} (h : crossWait c n.val = d) : Does (.crossWaitDetect n) c d :=
  does_of_runs fun _ => h ▸ rfl

theorem does_mailboxReset {m : Master} {n : Fin 64} {v : W32} (h : regWrite c m.val (MBn_CTL n.val) (v |||
    0x04000000) = d) : Does (.mailboxReset m n v) c d :=
  does_of_runs fun _ => h ▸ rfl

theorem does_eventQueuePop {m : Master} {k : Fin 8} {v : W32} (h : regWrite c m.val (EVT_EQk_POP k.val) v = d) : Does
    (.eventQueuePop m k v) c d :=
  does_of_runs fun _ => h ▸ rfl

theorem does_evtRaiseWrite {m : Master} {v : W32} (h : regWrite c m.val EVT_RAISE v = d) : Does (.evtRaiseWrite m v)
    c d :=
  does_of_runs fun _ => h ▸ rfl

theorem does_routeWrite {m : Master} {n : Fin 512} {v : W32} (h : regWrite c m.val (EVT_ROUTE n.val) v = d) : Does
    (.routeWrite m n v) c d :=
  does_of_runs fun _ => h ▸ rfl

theorem does_cvLoad {m : Master} {n : Fin 16} {preset : Fin 4} (h : regWrite c m.val (CVn_CTL n.val) (w32 (0x20000000
    + at_ preset.val 24)) = d) : Does (.cvLoad m n preset) c d :=
  does_of_runs fun _ => h ▸ rfl

theorem does_cvStart {m : Master} {n : Fin 16} (h : regWrite c m.val (CVn_CTL n.val) 0x80000000 = d) : Does (.cvStart
    m n) c d :=
  does_of_runs fun _ => h ▸ rfl

theorem does_cvFinish {m : Master} {n : Fin 16} (h : regWrite c m.val (CVn_CTL n.val) 0x40000000 = d) : Does
    (.cvFinish m n) c d :=
  does_of_runs fun _ => h ▸ rfl

theorem does_cvData4Write {m : Master} {n : Fin 16} {v : W32} (h : regWrite c m.val (CVn_DATA4 n.val) v = d) : Does
    (.cvData4Write m n v) c d :=
  does_of_runs fun _ => h ▸ rfl

theorem does_cvData1Write {m : Master} {n : Fin 16} {v : W32} (h : regWrite c m.val (CVn_DATA1 n.val) v = d) : Does
    (.cvData1Write m n v) c d :=
  does_of_runs fun _ => h ▸ rfl

theorem does_bar0Access {write : Bool} {ofs n : Nat} {v : W32} (h : bar0Access c write ofs n v = d) : Does
    (.bar0Access write ofs n v) c d :=
  does_of_runs fun _ => h ▸ rfl

theorem does_bar2Access {write : Bool} {ofs n : Nat} {data : List Byte} (h : bar2Access c write ofs n data = d) :
    Does (.bar2Access write ofs n data) c d :=
  does_of_runs fun _ => h ▸ rfl

theorem does_pcieLinkChange {up : Bool} {width speed : Fin 16} (h : pcieLink c up width.val speed.val = d) : Does
    (.pcieLinkChange up width speed) c d :=
  does_of_runs fun _ => h ▸ rfl

theorem does_outboundAccess {m : Master} {write : Bool} {ofs n : Nat} {data : List Byte} (h : outboundAccess c m.val
    write ofs n data = d) : Does (.outboundAccess m write ofs n data) c d :=
  does_of_runs fun _ => h ▸ rfl

theorem does_outboundReadCompletion {m : Master} {ok : Bool} {data : List Byte} (h : (obCompletion c m.val ok
    data).debugSettle = d) : Does (.outboundReadCompletion m ok data) c d :=
  does_of_runs fun _ => h ▸ rfl

theorem does_outboundReadTimeout {m : Master} (h : (obTimeout c m.val).debugSettle = d) : Does (.outboundReadTimeout
    m) c d :=
  does_of_runs fun _ => h ▸ rfl

theorem does_xspiRead {a : W32} {n : Nat} (h : xspiRead c a.toNat n = d) : Does (.xspiRead a n) c d :=
  does_of_runs fun _ => h ▸ rfl

theorem does_xspiWrite {a : W32} {vs : List W32} (h : xspiWrite c a.toNat vs = d) : Does (.xspiWrite a vs) c d :=
  does_of_runs fun _ => h ▸ rfl

theorem does_parallelBusRead {ad : Nat} (h : parallelRead c ad = d) : Does (.parallelBusRead ad) c d :=
  does_of_runs fun _ => h ▸ rfl

theorem does_parallelBusWrite {ad : Nat} {v : W32} (h : parallelWrite c ad v = d) : Does (.parallelBusWrite ad v) c d
    :=
  does_of_runs fun _ => h ▸ rfl

theorem does_commandDoorbell {m : Master} {v : W32} (h : regWrite c m.val HIF_CMD_DB v = d) : Does (.commandDoorbell
    m v) c d :=
  does_of_runs fun _ => h ▸ rfl

theorem does_replyDoorbell {m : Master} {v : W32} (h : regWrite c m.val HIF_RPL_DB v = d) : Does (.replyDoorbell m v)
    c d :=
  does_of_runs fun _ => h ▸ rfl

theorem does_asyncCommandComplete {received errors : Nat} (h : asyncComplete c received errors = d) : Does
    (.asyncCommandComplete received errors) c d :=
  does_of_runs fun _ => h ▸ rfl

theorem does_setState {burnt : Bool} (h : runCommand c 0x0003 (setStateCmd burnt) = d) : Does (.setState burnt) c d
    :=
  does_of_runs fun _ => h ▸ rfl

theorem does_loadCommit {burnt : Bool} (h : runCommand c 0x0203 (loadCommit burnt) = d) : Does (.loadCommit burnt) c
    d :=
  does_of_runs fun _ => h ▸ rfl

theorem does_recordWrite {verified : Bool} (h : runCommand c 0x0802 (recordWrite verified) = d) : Does (.recordWrite
    verified) c d :=
  does_of_runs fun _ => h ▸ rfl

theorem does_sessionProofTimeout {slot : Fin 8} (h : sessionTimeout c slot.val = d) : Does (.sessionProofTimeout
    slot) c d :=
  does_of_runs fun _ => h ▸ rfl

theorem does_roleLockExpiry {role : Fin 4} (h : roleLockExpiry c role.val = d) : Does (.roleLockExpiry role) c d :=
  does_of_runs fun _ => h ▸ rfl

theorem does_fuseRead {m : Master} {v : W32} (h : regWrite c m.val SEC_FPROG (wsetFld v 27 24 1 ||| 0x80000000) = d)
    : Does (.fuseRead m v) c d :=
  does_of_runs fun _ => h ▸ rfl

theorem does_fuseProgram {m : Master} {v : W32} (h : regWrite c m.val SEC_FPROG (wsetFld v 27 24 2 ||| 0x80000000) =
    d) : Does (.fuseProgram m v) c d :=
  does_of_runs fun _ => h ▸ rfl

theorem does_fuseRevoke {m : Master} {v : W32} (h : regWrite c m.val SEC_FPROG (wsetFld v 27 24 3 ||| 0x80000000) =
    d) : Does (.fuseRevoke m v) c d :=
  does_of_runs fun _ => h ▸ rfl

theorem does_fusePolicy {m : Master} {v : W32} (h : regWrite c m.val SEC_FPROG (wsetFld v 27 24 5 ||| 0x80000000) =
    d) : Does (.fusePolicy m v) c d :=
  does_of_runs fun _ => h ▸ rfl

theorem does_fuseOpDone {readBack : Bool} (h : fuseOpDone c readBack = d) : Does (.fuseOpDone readBack) c d :=
  does_of_runs fun _ => h ▸ rfl

theorem does_recordStoreDone {verified : Bool} (h : recordStoreDone c verified = d) : Does (.recordStoreDone
    verified) c d :=
  does_of_runs fun _ => h ▸ rfl

theorem does_recorderClearDone {verified : Bool} (h : recorderClearDone c verified = d) : Does (.recorderClearDone
    verified) c d :=
  does_of_runs fun _ => h ▸ rfl

theorem does_recorderScanDone {mramOk verified : Bool} (h : recorderScanDone c mramOk verified = d) : Powered
    (.recorderScanDone mramOk verified) c d :=
  powered_of fun _ => h ▸ rfl

theorem does_coreOverVoltage {mv : Fin 65536} (h : coreOverVoltage c mv.val = d) : Powered (.coreOverVoltage mv) c d
    :=
  powered_of fun _ => h ▸ rfl

theorem does_coreWindowExit {mv : Fin 65536} (h : coreWindowExit c mv.val = d) : Powered (.coreWindowExit mv) c d :=
  powered_of fun _ => h ▸ rfl

theorem does_pgoodCoreRise {v33 : Fin 16} {mram : Bool} (h : pgoodRise c v33.val mram = d) : Powered (.pgoodCoreRise
    v33 mram) c d :=
  powered_of fun _ => h ▸ rfl

theorem does_sequencerPgRise {k : Fin 4} (h : seqPgRise c k.val = d) : Always (.sequencerPgRise k) c d :=
  fun _ => h ▸ rfl

theorem does_sequencerPgTimeout {k : Fin 4} (h : seqPgTimeout c k.val = d) : Powered (.sequencerPgTimeout k) c d :=
  powered_of fun _ => h ▸ rfl

theorem does_sequencerPgFall {k : Fin 4} (h : seqPgFall c k.val = d) : Always (.sequencerPgFall k) c d :=
  fun _ => h ▸ rfl

theorem does_seqConfigWrite {m : Master} {k : Fin 4} {v : W32} (h : regWrite c m.val (PWR_SEQ_CFG k.val) v = d) :
    Does (.seqConfigWrite m k v) c d :=
  does_of_runs fun _ => h ▸ rfl

theorem does_avsTargetWrite {m : Master} {v : W32} (h : regWrite c m.val PWR_AVS v = d) : Does (.avsTargetWrite m v)
    c d :=
  does_of_runs fun _ => h ▸ rfl

theorem does_powerGateWrite {m : Master} {v : W32} (h : regWrite c m.val PWR_GATE v = d) : Does (.powerGateWrite m v)
    c d :=
  does_of_runs fun _ => h ▸ rfl

theorem does_unitPowerUpDone {u : Fin 20} (h : unitPowerUp c u.val = d) : Does (.unitPowerUpDone u) c d :=
  does_of_runs fun _ => h ▸ rfl

theorem does_temperatureLimit {t : Int} (h : temperature c t = d) : Powered (.temperatureLimit t) c d :=
  powered_of fun _ => h ▸ rfl

theorem does_watchdogKick {m : Master} {v : W32} (h : regWrite c m.val PWR_WDT_KICK v = d) : Does (.watchdogKick m v)
    c d :=
  does_of_runs fun _ => h ▸ rfl

theorem does_resetExit {hostsel : Fin 4} {bootsrc : Bool} (h : resetExit c hostsel.val bootsrc = d) : Powered
    (.resetExit hostsel bootsrc) c d :=
  powered_of fun _ => h ▸ rfl

theorem does_bootRomRun {f : BootFacts} (h : bootRomRun c f = d) : Does (.bootRomRun f) c d :=
  does_of_runs fun _ => h ▸ rfl

theorem does_sysStateWrite {m : Master} {v : W32} (h : regWrite c m.val SYS_STATE v = d) : Does (.sysStateWrite m v)
    c d :=
  does_of_runs fun _ => h ▸ rfl

theorem does_pinFunctionWrite {m : Master} {g : Fin 128} {v : W32} (h : regWrite c m.val (SYS_PIN g.val) v = d) :
    Does (.pinFunctionWrite m g v) c d :=
  does_of_runs fun _ => h ▸ rfl

theorem does_gpioSetWrite {m : Master} {k : Fin 4} {v : W32} (h : regWrite c m.val (SYS_GPIO_SET k.val) v = d) : Does
    (.gpioSetWrite m k v) c d :=
  does_of_runs fun _ => h ▸ rfl

theorem does_gpioClrWrite {m : Master} {k : Fin 4} {v : W32} (h : regWrite c m.val (SYS_GPIO_CLR k.val) v = d) : Does
    (.gpioClrWrite m k v) c d :=
  does_of_runs fun _ => h ▸ rfl

theorem does_prbsRunStart {m : Master} {l : Fin 14} {v : W32} (h : regWrite c m.val (TST_PRBSl_CTL l.val) (v |||
    0x80000000) = d) : Does (.prbsRunStart m l v) c d :=
  does_of_runs fun _ => h ▸ rfl

theorem does_prbsInject {m : Master} {l : Fin 14} {v : W32} (h : regWrite c m.val (TST_PRBSl_CTL l.val) (v |||
    0x40000000) = d) : Does (.prbsInject m l v) c d :=
  does_of_runs fun _ => h ▸ rfl

theorem does_prbsLock {l : Fin 14} {rx : List Bool} (h : prbsRun c l.val rx = d) : Does (.prbsLock l rx) c d :=
  does_of_runs fun _ => h ▸ rfl

theorem does_prbsLockLoss {l : Fin 14} {rx : List Bool} (h : prbsRun c l.val rx = d) : Does (.prbsLockLoss l rx) c d
    :=
  does_of_runs fun _ => h ▸ rfl

theorem does_tapInstructionUpdate {code : Fin 256} (h : tapInstruction c code.val = d) : Powered
    (.tapInstructionUpdate code) c d :=
  powered_of fun _ => h ▸ rfl

theorem does_debugAccess {req : Nat} (h : debugAccess c req = d) : Does (.debugAccess req) c d :=
  does_of_runs fun _ => h ▸ rfl

theorem does_trngDelivery {w : W32} (h : trngDeliver c w = d) : Does (.trngDelivery w) c d :=
  does_of_runs fun _ => h ▸ rfl

theorem does_canIntegrationComplete {n : Fin 4} (h : canIntegrated c n.val = d) : Does (.canIntegrationComplete n) c
    d :=
  does_of_runs fun _ => h ▸ rfl

theorem does_startWindowExpiry {n : Fin 4} (h : canStartExpiry c n.val = d) : Does (.startWindowExpiry n) c d :=
  does_of_runs fun _ => h ▸ rfl

theorem does_buckSoftStart {v33 : Fin 16} (h : buckSoftStart c v33.val = d) : Powered (.buckSoftStart v33) c d :=
  powered_of fun _ => h ▸ rfl

theorem does_coreWindowReturn {mv : Fin 65536} (h : coreWindowReturn c mv.val = d) : Powered (.coreWindowReturn mv) c
    d :=
  powered_of fun _ => h ▸ rfl

theorem does_buckDisLevelChange {b : Bool} (h : buckDisChange c b = d) : Always (.buckDisLevelChange b) c d :=
  fun _ => h ▸ rfl

theorem does_tmuTick (h : tmuTick c = d) : Does .tmuTick c d :=
  does_of_runs fun _ => h ▸ rfl

theorem does_autoDomainSwitch (h : autoSwitch c = d) : Does .autoDomainSwitch c d :=
  does_of_runs fun _ => h ▸ rfl

theorem does_stampRingEntry (h : ringEntry c = d) : Does .stampRingEntry c d :=
  does_of_runs fun _ => h ▸ rfl

theorem does_angleUpdateInstant (h : angleInstant c = d) : Does .angleUpdateInstant c d :=
  does_of_runs fun _ => h ▸ rfl

theorem does_angleEventFiring (h : angleEventFiring c = d) : Does .angleEventFiring c d :=
  does_of_runs fun _ => h ▸ rfl

theorem does_ledgerSnapshot (h : regWrite c 0 SWX_LEDGER 0x80000000 = d) : Does .ledgerSnapshot c d :=
  does_of_runs fun _ => h ▸ rfl

theorem does_ledgerLatch (h : ledgerLatch c = d) : Does .ledgerLatch c d :=
  does_of_runs fun _ => h ▸ rfl

theorem does_fdbAgeTick (h : fdbAge c = d) : Does .fdbAgeTick c d :=
  does_of_runs fun _ => h ▸ rfl

theorem does_queueScrub (h : queueScrub c = d) : Does .queueScrub c d :=
  does_of_runs fun _ => h ▸ rfl

theorem does_flushDone (h : flushDone c = d) : Does .flushDone c d :=
  does_of_runs fun _ => h ▸ rfl

theorem does_tableOpDone (h : tableOpDone c = d) : Does .tableOpDone c d :=
  does_of_runs fun _ => h ▸ rfl

theorem does_rqDelivery (h : rqDelivery c = d) : Does .rqDelivery c d :=
  does_of_runs fun _ => h ▸ rfl

theorem does_tskModeStop (h : regWrite c 0 TSK_MODE 0 = d) : Does .tskModeStop c d :=
  does_of_runs fun _ => h ▸ rfl

theorem does_tskModeStartup (h : regWrite c 0 TSK_MODE 1 = d) : Does .tskModeStartup c d :=
  does_of_runs fun _ => h ▸ rfl

theorem does_tskModeRun (h : regWrite c 0 TSK_MODE 2 = d) : Does .tskModeRun c d :=
  does_of_runs fun _ => h ▸ rfl

theorem does_tskModeTest (h : regWrite c 0 TSK_MODE 3 = d) : Does .tskModeTest c d :=
  does_of_runs fun _ => h ▸ rfl

theorem does_vcPush (h : regWrite c 0 TSK_VC_CTL 0x80000000 = d) : Does .vcPush c d :=
  does_of_runs fun _ => h ▸ rfl

theorem does_swapGo (h : regWrite c 0 TSK_SWAP_CTL 1 = d) : Does .swapGo c d :=
  does_of_runs fun _ => h ▸ rfl

theorem does_swapQuietPoint (h : swapQuietPoint c = d) : Does .swapQuietPoint c d :=
  does_of_runs fun _ => h ▸ rfl

theorem does_motionUpdateInstant (h : motionInstant c = d) : Does .motionUpdateInstant c d :=
  does_of_runs fun _ => h ▸ rfl

theorem does_scrubLine (h : scrubLine c = d) : Does .scrubLine c d :=
  does_of_runs fun _ => h ▸ rfl

theorem does_xdmUnit (h : xdmUnit c = d) : Does .xdmUnit c d :=
  does_of_runs fun _ => h ▸ rfl

theorem does_eventDelivery (h : eventDelivery c = d) : Does .eventDelivery c d :=
  does_of_runs fun _ => h ▸ rfl

theorem does_msixSend (h : msixSend c = d) : Does .msixSend c d :=
  does_of_runs fun _ => h ▸ rfl

theorem does_perstAssert (h : perstAssert c = d) : Does .perstAssert c d :=
  does_of_runs fun _ => h ▸ rfl

theorem does_xspiStatus (h : xspiStatus c = d) : Does .xspiStatus c d :=
  does_of_runs fun _ => h ▸ rfl

theorem does_replySignal (h : regWrite c 0 HIF_RPL_SIG 1 = d) : Does .replySignal c d :=
  does_of_runs fun _ => h ▸ rfl

theorem does_commandTake (h : commandTake c = d) : Does .commandTake c d :=
  does_of_runs fun _ => h ▸ rfl

theorem does_mailboxCommandTake (h : mailboxCommandTake c = d) : Does .mailboxCommandTake c d :=
  does_of_runs fun _ => h ▸ rfl

theorem does_replyPost (h : replyPost c = d) : Does .replyPost c d :=
  does_of_runs fun _ => h ▸ rfl

theorem does_getIdentity (h : runCommand c 0x0001 getIdentity = d) : Does .getIdentity c d :=
  does_of_runs fun _ => h ▸ rfl

theorem does_getState (h : runCommand c 0x0002 getState = d) : Does .getState c d :=
  does_of_runs fun _ => h ▸ rfl

theorem does_resetSubsystem (h : runCommand c 0x0004 resetSubsystem = d) : Does .resetSubsystem c d :=
  does_of_runs fun _ => h ▸ rfl

theorem does_echo (h : runCommand c 0x0005 echoCmd = d) : Does .echo c d :=
  does_of_runs fun _ => h ▸ rfl

theorem does_readReg (h : runCommand c 0x0006 readReg = d) : Does .readReg c d :=
  does_of_runs fun _ => h ▸ rfl

theorem does_writeReg (h : runCommand c 0x0007 writeReg = d) : Does .writeReg c d :=
  does_of_runs fun _ => h ▸ rfl

theorem does_openSession (h : runCommand c 0x0101 openSession = d) : Does .openSession c d :=
  does_of_runs fun _ => h ▸ rfl

theorem does_proveSession (h : runCommand c 0x0102 proveSession = d) : Does .proveSession c d :=
  does_of_runs fun _ => h ▸ rfl

theorem does_closeSession (h : runCommand c 0x0103 closeSession = d) : Does .closeSession c d :=
  does_of_runs fun _ => h ▸ rfl

theorem does_setPassword (h : runCommand c 0x0104 setPasswordCmd = d) : Does .setPassword c d :=
  does_of_runs fun _ => h ▸ rfl

theorem does_installKey (h : runCommand c 0x0105 installKeyCmd = d) : Does .installKey c d :=
  does_of_runs fun _ => h ▸ rfl

theorem does_attest (h : runCommand c 0x0106 attest = d) : Does .attest c d :=
  does_of_runs fun _ => h ▸ rfl

theorem does_loadBegin (h : runCommand c 0x0201 loadBegin = d) : Does .loadBegin c d :=
  does_of_runs fun _ => h ▸ rfl

theorem does_loadData (h : runCommand c 0x0202 loadData = d) : Does .loadData c d :=
  does_of_runs fun _ => h ▸ rfl

theorem does_startEngine (h : runCommand c 0x0204 startEngineCmd = d) : Does .startEngine c d :=
  does_of_runs fun _ => h ▸ rfl

theorem does_stopEngine (h : runCommand c 0x0205 stopEngineCmd = d) : Does .stopEngine c d :=
  does_of_runs fun _ => h ▸ rfl

theorem does_imageInfo (h : runCommand c 0x0206 imageInfoCmd = d) : Does .imageInfo c d :=
  does_of_runs fun _ => h ▸ rfl

theorem does_portConfig (h : runCommand c 0x0301 portConfig = d) : Does .portConfig c d :=
  does_of_runs fun _ => h ▸ rfl

theorem does_portStatus (h : runCommand c 0x0302 portStatus = d) : Does .portStatus c d :=
  does_of_runs fun _ => h ▸ rfl

theorem does_switchConfig (h : runCommand c 0x0303 switchConfig = d) : Does .switchConfig c d :=
  does_of_runs fun _ => h ▸ rfl

theorem does_fdbAccess (h : runCommand c 0x0304 fdbAccess = d) : Does .fdbAccess c d :=
  does_of_runs fun _ => h ▸ rfl

theorem does_scheduleLoad (h : runCommand c 0x0305 scheduleLoad = d) : Does .scheduleLoad c d :=
  does_of_runs fun _ => h ▸ rfl

theorem does_scheduleSwitch (h : runCommand c 0x0306 scheduleSwitch = d) : Does .scheduleSwitch c d :=
  does_of_runs fun _ => h ▸ rfl

theorem does_countersRead (h : runCommand c 0x0307 countersRead = d) : Does .countersRead c d :=
  does_of_runs fun _ => h ▸ rfl

theorem does_canConfig (h : runCommand c 0x0308 canConfig = d) : Does .canConfig c d :=
  does_of_runs fun _ => h ▸ rfl

theorem does_domainConfig (h : runCommand c 0x0401 domainConfig = d) : Does .domainConfig c d :=
  does_of_runs fun _ => h ▸ rfl

theorem does_domainStatus (h : runCommand c 0x0402 domainStatus = d) : Does .domainStatus c d :=
  does_of_runs fun _ => h ▸ rfl

theorem does_selectDomain (h : runCommand c 0x0403 selectDomain = d) : Does .selectDomain c d :=
  does_of_runs fun _ => h ▸ rfl

theorem does_stampConfig (h : runCommand c 0x0404 stampConfig = d) : Does .stampConfig c d :=
  does_of_runs fun _ => h ▸ rfl

theorem does_shaftConfig (h : runCommand c 0x0501 shaftConfig = d) : Does .shaftConfig c d :=
  does_of_runs fun _ => h ▸ rfl

theorem does_shaftStatus (h : runCommand c 0x0502 shaftStatus = d) : Does .shaftStatus c d :=
  does_of_runs fun _ => h ▸ rfl

theorem does_angleEventSet (h : runCommand c 0x0503 angleEventSet = d) : Does .angleEventSet c d :=
  does_of_runs fun _ => h ▸ rfl

theorem does_angleEventClear (h : runCommand c 0x0504 angleEventClear = d) : Does .angleEventClear c d :=
  does_of_runs fun _ => h ▸ rfl

theorem does_shaftMasterProfile (h : runCommand c 0x0505 shaftMasterProfile = d) : Does .shaftMasterProfile c d :=
  does_of_runs fun _ => h ▸ rfl

theorem does_axisConfig (h : runCommand c 0x0601 axisConfig = d) : Does .axisConfig c d :=
  does_of_runs fun _ => h ▸ rfl

theorem does_axisMove (h : runCommand c 0x0602 axisMove = d) : Does .axisMove c d :=
  does_of_runs fun _ => h ▸ rfl

theorem does_axisStop (h : runCommand c 0x0603 axisStopCmd = d) : Does .axisStop c d :=
  does_of_runs fun _ => h ▸ rfl

theorem does_axisGear (h : runCommand c 0x0604 axisGear = d) : Does .axisGear c d :=
  does_of_runs fun _ => h ▸ rfl

theorem does_axisStatus (h : runCommand c 0x0605 axisStatus = d) : Does .axisStatus c d :=
  does_of_runs fun _ => h ▸ rfl

theorem does_programLoad (h : runCommand c 0x0701 programLoad = d) : Does .programLoad c d :=
  does_of_runs fun _ => h ▸ rfl

theorem does_programMode (h : runCommand c 0x0702 programMode = d) : Does .programMode c d :=
  does_of_runs fun _ => h ▸ rfl

theorem does_valueChange (h : runCommand c 0x0703 valueChange = d) : Does .valueChange c d :=
  does_of_runs fun _ => h ▸ rfl

theorem does_forceSet (h : runCommand c 0x0704 forceSetCmd = d) : Does .forceSet c d :=
  does_of_runs fun _ => h ▸ rfl

theorem does_forceClear (h : runCommand c 0x0705 forceClearCmd = d) : Does .forceClear c d :=
  does_of_runs fun _ => h ▸ rfl

theorem does_programSwap (h : runCommand c 0x0706 programSwap = d) : Does .programSwap c d :=
  does_of_runs fun _ => h ▸ rfl

theorem does_programStatus (h : runCommand c 0x0707 programStatus = d) : Does .programStatus c d :=
  does_of_runs fun _ => h ▸ rfl

theorem does_recordRead (h : runCommand c 0x0801 recordRead = d) : Does .recordRead c d :=
  does_of_runs fun _ => h ▸ rfl

theorem does_recordClear (h : runCommand c 0x0803 recordClear = d) : Does .recordClear c d :=
  does_of_runs fun _ => h ▸ rfl

theorem does_recorderStatus (h : runCommand c 0x0804 recorderStatus = d) : Does .recorderStatus c d :=
  does_of_runs fun _ => h ▸ rfl

theorem does_marchRun (h : runCommand c 0x0901 marchRun = d) : Does .marchRun c d :=
  does_of_runs fun _ => h ▸ rfl

theorem does_prbsRun (h : runCommand c 0x0902 prbsRunCmd = d) : Does .prbsRun c d :=
  does_of_runs fun _ => h ▸ rfl

theorem does_freezeInfo (h : runCommand c 0x0903 freezeInfo = d) : Does .freezeInfo c d :=
  does_of_runs fun _ => h ▸ rfl

theorem does_freezeResolve (h : runCommand c 0x0904 freezeResolveCmd = d) : Does .freezeResolve c d :=
  does_of_runs fun _ => h ▸ rfl

theorem does_loopback (h : runCommand c 0x0905 loopback = d) : Does .loopback c d :=
  does_of_runs fun _ => h ▸ rfl

theorem does_secJobGo (h : regWrite c 0 SEC_JOB_CTL 1 = d) : Does .secJobGo c d :=
  does_of_runs fun _ => h ▸ rfl

theorem does_secJobDone (h : secJobDone c = d) : Does .secJobDone c d :=
  does_of_runs fun _ => h ▸ rfl

theorem does_trngRead (h : regRead c 0 SEC_TRNG_DATA = d) : Does .trngRead c d :=
  does_of_runs fun _ => h ▸ rfl

theorem does_trngHealthFail (h : trngFail c = d) : Does .trngHealthFail c d :=
  does_of_runs fun _ => h ▸ rfl

theorem does_trngRestart (h : regWrite c 0 SEC_TRNG_CTL 1 = d) : Does .trngRestart c d :=
  does_of_runs fun _ => h ▸ rfl

theorem does_recordSubmit (h : regWrite c 0 EVR_SUB_CTL 0x80000000 = d) : Does .recordSubmit c d :=
  does_of_runs fun _ => h ▸ rfl

theorem does_recorderClear (h : regWrite c 0 EVR_SUB_CTL 0x40000000 = d) : Does .recorderClear c d :=
  does_of_runs fun _ => h ▸ rfl

theorem does_operatingSecondTick (h : operatingSecond c = d) : Does .operatingSecondTick c d :=
  does_of_runs fun _ => h ▸ rfl

theorem does_powerOn (h : powerOn c = d) : Always .powerOn c d :=
  fun _ => h ▸ rfl

theorem does_brownOut (h : brownOut c = d) : Always .brownOut c d :=
  fun _ => h ▸ rfl

theorem does_sequencerStepEnable (h : seqEnable c = d) : Powered .sequencerStepEnable c d :=
  powered_of fun _ => h ▸ rfl

theorem does_sequencerRetry (h : seqRetry c = d) : Powered .sequencerRetry c d :=
  powered_of fun _ => h ▸ rfl

theorem does_avsDone (h : avsDone c = d) : Powered .avsDone c d :=
  powered_of fun _ => h ▸ rfl

theorem does_pllLock (h : pllLock c = d) : Powered .pllLock c d :=
  powered_of fun _ => h ▸ rfl

theorem does_pllLockLoss (h : pllLoss c = d) : Powered .pllLockLoss c d :=
  powered_of fun _ => h ▸ rfl

theorem does_pinReset (h : pinReset c = d) : Powered .pinReset c d :=
  powered_of fun _ => h ▸ rfl

theorem does_softwareReset (h : regWrite c 0 PWR_RST 0x5EED = d) : Does .softwareReset c d :=
  does_of_runs fun _ => h ▸ rfl

theorem does_watchdogHalf (h : wdHalf c = d) : Does .watchdogHalf c d :=
  does_of_runs fun _ => h ▸ rfl

theorem does_watchdogReset (h : wdReset c = d) : Does .watchdogReset c d :=
  does_of_runs fun _ => h ▸ rfl

theorem does_hostPathTimeout (h : hostPathTimeout c = d) : Does .hostPathTimeout c d :=
  does_of_runs fun _ => h ▸ rfl

theorem does_tapReset (h : tapReset c = d) : Powered .tapReset c d :=
  powered_of fun _ => h ▸ rfl

end Sys2Proof
end

