-- ==== Sys2Proof/Laws/Table.lean ====
section
/-!
SUPPORT. What the sparse tables do: an entry set reads back, other entries stay, keys stay in order.
-/
namespace Sys2Proof.Machine

theorem tblFind_erase_same {α : Type} (t : Tbl α) (k : Nat) : tblFind (tblErase t k) k = none := by
  induction t with
  | nil => rfl
  | cons e t ih =>
    obtain ⟨k', v⟩ := e
    by_cases h : k' = k <;> simp [tblErase, tblFind, h, ih]

theorem tblFind_erase_other {α : Type} (t : Tbl α) {k j : Nat} (h : j ≠ k) :
    tblFind (tblErase t k) j = tblFind t j := by
  induction t with
  | nil => rfl
  | cons e t ih =>
    obtain ⟨k', v⟩ := e
    by_cases hk : k' = k
    · simp [tblErase, tblFind, hk, ih, h.symm]
    · by_cases hj : k' = j <;> simp [tblErase, tblFind, hk, hj, ih, h]

theorem tblFind_insert_same {α : Type} (t : Tbl α) (k : Nat) (v : α) (h : tblFind t k = none) :
    tblFind (tblInsert t k v) k = some v := by
  induction t with
  | nil => simp [tblInsert, tblFind]
  | cons e t ih =>
    obtain ⟨k', v'⟩ := e
    by_cases hk : k' = k
    · simp [tblFind, hk] at h
    · simp only [tblFind, if_neg hk] at h
      by_cases hl : k < k' <;> simp [tblInsert, tblFind, hl, hk, ih h]

theorem tblFind_insert_other {α : Type} (t : Tbl α) {k j : Nat} (v : α) (h : j ≠ k) :
    tblFind (tblInsert t k v) j = tblFind t j := by
  induction t with
  | nil => simp [tblInsert, tblFind, h.symm]
  | cons e t ih =>
    obtain ⟨k', v'⟩ := e
    by_cases hl : k < k' <;> simp [tblInsert, tblFind, hl, ih, h.symm]

@[simp] theorem tblGet_set_same {α : Type} [DecidableEq α] (d : α) (t : Tbl α) (k : Nat) (v : α) :
    tblGet d (tblSet d t k v) k = v := by
  unfold tblGet tblSet
  split
  · next h => simp [tblFind_erase_same, h]
  · simp [tblFind_insert_same _ _ _ (tblFind_erase_same t k)]

theorem tblGet_set_other {α : Type} [DecidableEq α] (d d' : α) (t : Tbl α) {k j : Nat} (v : α) (h : j ≠ k) :
    tblGet d (tblSet d' t k v) j = tblGet d t j := by
  unfold tblGet tblSet
  split
  · rw [tblFind_erase_other _ h]
  · rw [tblFind_insert_other _ _ h, tblFind_erase_other _ h]

theorem tblGet_set {α : Type} [DecidableEq α] (d : α) (t : Tbl α) (k j : Nat) (v : α) :
    tblGet d (tblSet d t k v) j = if j = k then v else tblGet d t j := by
  by_cases h : j = k
  · subst h; simp
  · simp [h, tblGet_set_other d d t v h]

theorem tblRising_mono {α : Type} {lo hi : Nat} (h : lo ≤ hi) : ∀ {t : Tbl α}, tblRising hi t = true → tblRising lo t = true
  | [], _ => rfl
  | (k, _) :: t, ht => by
    simp only [tblRising, Bool.and_eq_true, decide_eq_true_eq] at ht ⊢
    exact ⟨by omega, ht.2⟩

theorem tblRising_erase {α : Type} (k : Nat) : ∀ {lo : Nat} {t : Tbl α}, tblRising lo t = true →
    tblRising lo (tblErase t k) = true
  | _, [], _ => rfl
  | lo, (k', v) :: t, h => by
    simp only [tblRising, Bool.and_eq_true, decide_eq_true_eq] at h
    by_cases hk : k' = k
    · simp only [tblErase, if_pos hk]
      exact tblRising_mono (by omega) (tblRising_erase k h.2)
    · simp only [tblErase, if_neg hk, tblRising, Bool.and_eq_true, decide_eq_true_eq]
      exact ⟨h.1, tblRising_erase k h.2⟩

theorem tblRising_insert {α : Type} (k : Nat) (v : α) : ∀ {lo : Nat} {t : Tbl α}, lo ≤ k →
    tblFind t k = none → tblRising lo t = true → tblRising lo (tblInsert t k v) = true
  | lo, [], hl, _, _ => by simp [tblInsert, tblRising, hl]
  | lo, (k', v') :: t, hl, hf, h => by
    simp only [tblRising, Bool.and_eq_true, decide_eq_true_eq] at h
    by_cases hk : k < k'
    · simp only [tblInsert, if_pos hk, tblRising, Bool.and_eq_true, decide_eq_true_eq]
      exact ⟨hl, by omega, h.2⟩
    · have hne : k' ≠ k := by
        intro e
        simp [tblFind, e] at hf
      simp only [tblFind, if_neg hne] at hf
      simp only [tblInsert, if_neg hk, tblRising, Bool.and_eq_true, decide_eq_true_eq]
      exact ⟨h.1, tblRising_insert k v (by omega) hf h.2⟩

theorem tblRising_filter {α : Type} (p : Nat × α → Bool) : ∀ {lo : Nat} {t : Tbl α}, tblRising lo t = true →
    tblRising lo (t.filter p) = true
  | _, [], _ => rfl
  | lo, (k, v) :: t, h => by
    simp only [tblRising, Bool.and_eq_true, decide_eq_true_eq] at h
    by_cases hp : p (k, v) = true
    · simp only [List.filter, hp, tblRising, Bool.and_eq_true, decide_eq_true_eq]
      exact ⟨h.1, tblRising_filter p h.2⟩
    · simp only [List.filter, hp]
      exact tblRising_mono (by omega) (tblRising_filter p h.2)

end Sys2Proof.Machine
end

