-- ==== Sys2Proof/Laws/Keep.lean ====
section
/-!
SUPPORT. Two relations between the device's states before and after an operation, each with the
forms in which an operation is put together: `SameMem`, memory reads as before, and `KeepsWf`, the
canonical form of memory is kept. The files Laws/Keep<Block>.lean say of every operation of the
model which of the two it has; proofs about steps cite those lemmas and unfold no operation.
-/
namespace Sys2Proof.Machine

/-- No byte of memory is changed: neither the listed bytes nor the banks whose contents are undefined. -/
structure SameMem (c d : Chip) : Prop where
  mem : d.mem = c.mem
  undef : d.memc.undef = c.memc.undef

/-- The canonical form of memory is kept. -/
structure KeepsWf (c d : Chip) : Prop where
  keeps : Memory.wf c = true → Memory.wf d = true

theorem undefRun_congr {c d : Chip} (h : d.memc.undef = c.memc.undef) (a : Nat) : d.undefRun a = c.undefRun a := by
  unfold Chip.undefRun; rw [h]

/-- What keeps memory keeps every byte as it reads. -/
theorem SameMem.byte {c d : Chip} (h : SameMem c d) (a : Nat) : d.byte a = c.byte a := by
  unfold Chip.byte; rw [h.mem, undefRun_congr h.undef]

theorem SameMem.wf {c d : Chip} (h : SameMem c d) : Memory.wf d = Memory.wf c := by
  unfold Memory.wf; rw [h.mem]; simp only [undefRun_congr h.undef]

theorem SameMem.keeps {c d : Chip} (h : SameMem c d) : KeepsWf c d := ⟨fun w => h.wf.trans w⟩

namespace SameMem
variable {c d e : Chip}

theorem refl : SameMem c c := ⟨rfl, rfl⟩

theorem trans (h : SameMem c d) (g : SameMem d e) : SameMem c e := ⟨g.mem.trans h.mem, g.undef.trans h.undef⟩

/-- As `trans`, the last operation first. -/
theorem of (g : SameMem d e) (h : SameMem c d) : SameMem c e := h.trans g

theorem ite {p : Prop} [Decidable p] (h : SameMem c d) (g : SameMem c e) : SameMem c (if p then d else e) := by
  split <;> assumption

theorem ite1 {α : Type} {p : Prop} [Decidable p] {x y : α × Chip} (h : SameMem c x.2) (g : SameMem c y.2) :
    SameMem c (if p then x else y).2 := by split <;> assumption

theorem ite2 {α β : Type} {p : Prop} [Decidable p] {x y : α × β × Chip} (h : SameMem c x.2.2) (g : SameMem c y.2.2) :
    SameMem c (if p then x else y).2.2 := by split <;> assumption

theorem pair1 {α : Type} {a : α} (h : SameMem c d) : SameMem c (a, d).2 := h

theorem pair2 {α β : Type} {a : α} {x : β × Chip} (h : SameMem c x.2) : SameMem c (a, x).2.2 := h

theorem ofEq1 {α : Type} {a : α} {x : α × Chip} (e : x = (a, d)) (h : SameMem c x.2) : SameMem c d := by
  rw [e] at h; exact h

theorem ofEq2 {α β : Type} {a : α} {b : β} {x : α × β × Chip} (e : x = (a, b, d)) (h : SameMem c x.2.2) :
    SameMem c d := by rw [e] at h; exact h

/-- A record update that leaves memory and its manager alone. -/
theorem mk1 (h : SameMem c d) {regs staged latched bus free evt mbx xdm tmu ang swx rq can core tsk mot skp pin sec evr hif
    pwr tst} : SameMem c ⟨regs, staged, latched, d.mem, bus, free, evt, mbx, d.memc, xdm, tmu, ang, swx, rq, can, core, tsk,
      mot, skp, pin, sec, evr, hif, pwr, tst⟩ := ⟨h.mem, h.undef⟩

/-- A record update that leaves memory alone and changes its manager's state elsewhere. -/
theorem mk2 (h : SameMem c d) {regs staged latched bus free evt mbx memc xdm tmu ang swx rq can core tsk mot skp pin sec
    evr hif pwr tst} (g : memc.undef = d.memc.undef) :
    SameMem c ⟨regs, staged, latched, d.mem, bus, free, evt, mbx, memc, xdm, tmu, ang, swx, rq, can, core, tsk, mot, skp,
      pin, sec, evr, hif, pwr, tst⟩ := ⟨h.mem, g.trans h.undef⟩

theorem foldl {α : Type} {f : Chip → α → Chip} {l : List α} (h : ∀ d x, SameMem c d → SameMem c (f d x))
    (g : SameMem c d) : SameMem c (l.foldl f d) := by
  induction l generalizing d with
  | nil => exact g
  | cons x l ih => exact ih (h d x g)

theorem foldl1 {α β : Type} {f : β × Chip → α → β × Chip} {l : List α} {p : β × Chip}
    (h : ∀ q x, SameMem c q.2 → SameMem c (f q x).2) (g : SameMem c p.2) : SameMem c (l.foldl f p).2 := by
  induction l generalizing p with
  | nil => exact g
  | cons x l ih => exact ih (h p x g)

theorem foldl2 {α β γ : Type} {f : β × γ × Chip → α → β × γ × Chip} {l : List α} {p : β × γ × Chip}
    (h : ∀ q x, SameMem c q.2.2 → SameMem c (f q x).2.2) (g : SameMem c p.2.2) : SameMem c (l.foldl f p).2.2 := by
  induction l generalizing p with
  | nil => exact g
  | cons x l ih => exact ih (h p x g)

end SameMem

namespace KeepsWf
variable {c d e : Chip}

theorem refl : KeepsWf c c := ⟨id⟩

theorem trans (h : KeepsWf c d) (g : KeepsWf d e) : KeepsWf c e := ⟨fun w => g.keeps (h.keeps w)⟩

/-- As `trans`, the last operation first. -/
theorem of (g : KeepsWf d e) (h : KeepsWf c d) : KeepsWf c e := h.trans g

theorem ite {p : Prop} [Decidable p] (h : KeepsWf c d) (g : KeepsWf c e) : KeepsWf c (if p then d else e) := by
  split <;> assumption

theorem ite1 {α : Type} {p : Prop} [Decidable p] {x y : α × Chip} (h : KeepsWf c x.2) (g : KeepsWf c y.2) :
    KeepsWf c (if p then x else y).2 := by split <;> assumption

theorem ite2 {α β : Type} {p : Prop} [Decidable p] {x y : α × β × Chip} (h : KeepsWf c x.2.2) (g : KeepsWf c y.2.2) :
    KeepsWf c (if p then x else y).2.2 := by split <;> assumption

theorem pair1 {α : Type} {a : α} (h : KeepsWf c d) : KeepsWf c (a, d).2 := h

theorem pair2 {α β : Type} {a : α} {x : β × Chip} (h : KeepsWf c x.2) : KeepsWf c (a, x).2.2 := h

theorem ofEq1 {α : Type} {a : α} {x : α × Chip} (e : x = (a, d)) (h : KeepsWf c x.2) : KeepsWf c d := by
  rw [e] at h; exact h

theorem ofEq2 {α β : Type} {a : α} {b : β} {x : α × β × Chip} (e : x = (a, b, d)) (h : KeepsWf c x.2.2) :
    KeepsWf c d := by rw [e] at h; exact h

/-- A record update that leaves memory and its manager alone. -/
theorem mk1 (h : KeepsWf c d) {regs staged latched bus free evt mbx xdm tmu ang swx rq can core tsk mot skp pin sec evr hif
    pwr tst} : KeepsWf c ⟨regs, staged, latched, d.mem, bus, free, evt, mbx, d.memc, xdm, tmu, ang, swx, rq, can, core, tsk,
      mot, skp, pin, sec, evr, hif, pwr, tst⟩ := h.trans (SameMem.mk1 .refl).keeps

/-- A record update that leaves memory alone and changes its manager's state elsewhere. -/
theorem mk2 (h : KeepsWf c d) {regs staged latched bus free evt mbx memc xdm tmu ang swx rq can core tsk mot skp pin sec
    evr hif pwr tst} (g : memc.undef = d.memc.undef) :
    KeepsWf c ⟨regs, staged, latched, d.mem, bus, free, evt, mbx, memc, xdm, tmu, ang, swx, rq, can, core, tsk, mot, skp,
      pin, sec, evr, hif, pwr, tst⟩ := h.trans (SameMem.mk2 .refl g).keeps

theorem foldl {α : Type} {f : Chip → α → Chip} {l : List α} (h : ∀ d x, KeepsWf c d → KeepsWf c (f d x))
    (g : KeepsWf c d) : KeepsWf c (l.foldl f d) := by
  induction l generalizing d with
  | nil => exact g
  | cons x l ih => exact ih (h d x g)

theorem foldl1 {α β : Type} {f : β × Chip → α → β × Chip} {l : List α} {p : β × Chip}
    (h : ∀ q x, KeepsWf c q.2 → KeepsWf c (f q x).2) (g : KeepsWf c p.2) : KeepsWf c (l.foldl f p).2 := by
  induction l generalizing p with
  | nil => exact g
  | cons x l ih => exact ih (h p x g)

theorem foldl2 {α β γ : Type} {f : β × γ × Chip → α → β × γ × Chip} {l : List α} {p : β × γ × Chip}
    (h : ∀ q x, KeepsWf c q.2.2 → KeepsWf c (f q x).2.2) (g : KeepsWf c p.2.2) : KeepsWf c (l.foldl f p).2.2 := by
  induction l generalizing p with
  | nil => exact g
  | cons x l ih => exact ih (h p x g)

end KeepsWf

theorem onChip_next {s t : State} {f : Chip → Chip} (e : onChip s f = .next t) :
    t.pending = s.pending ∧ t.chip = if s.chip.runs then f s.chip else s.chip := by
  cases e
  exact ⟨rfl, rfl⟩

theorem onChip_sameMem {s t : State} {f : Chip → Chip} (e : onChip s f = .next t) (h : ∀ c, SameMem c (f c)) :
    SameMem s.chip t.chip := by
  rw [(onChip_next e).2]
  exact .ite (h _) .refl

theorem onChip_keepsWf {s t : State} {f : Chip → Chip} (e : onChip s f = .next t) (h : ∀ c, KeepsWf c (f c)) :
    KeepsWf s.chip t.chip := by
  rw [(onChip_next e).2]
  exact .ite (h _) .refl

theorem onSupply_next {s t : State} {f : Chip → Chip} (e : onSupply s f = .next t) :
    t.pending = s.pending ∧ t.chip = if s.chip.supplied then f s.chip else s.chip := by
  cases e
  exact ⟨rfl, rfl⟩

theorem onSupply_sameMem {s t : State} {f : Chip → Chip} (e : onSupply s f = .next t) (h : ∀ c, SameMem c (f c)) :
    SameMem s.chip t.chip := by
  rw [(onSupply_next e).2]
  exact .ite (h _) .refl

theorem onSupply_keepsWf {s t : State} {f : Chip → Chip} (e : onSupply s f = .next t) (h : ∀ c, KeepsWf c (f c)) :
    KeepsWf s.chip t.chip := by
  rw [(onSupply_next e).2]
  exact .ite (h _) .refl

theorem onBoard_next {s t : State} {f : Chip → Chip} (e : onBoard s f = .next t) :
    t.pending = s.pending ∧ t.chip = f s.chip := by
  cases e
  exact ⟨rfl, rfl⟩

theorem onBoard_sameMem {s t : State} {f : Chip → Chip} (e : onBoard s f = .next t) (h : ∀ c, SameMem c (f c)) :
    SameMem s.chip t.chip := by
  rw [(onBoard_next e).2]
  exact h _

theorem onBoard_keepsWf {s t : State} {f : Chip → Chip} (e : onBoard s f = .next t) (h : ∀ c, KeepsWf c (f c)) :
    KeepsWf s.chip t.chip := by
  rw [(onBoard_next e).2]
  exact h _

end Sys2Proof.Machine
end

