-- ==== Sys2Proof/Laws/KeepOps.lean ====
section
/-!
SUPPORT. What each operation of Machine/Ops.lean does to memory: it changes no byte (`SameMem`), or keeps
the canonical form (`KeepsWf`).
-/
namespace Sys2Proof.Machine

theorem Chip.setReg_sameMem {c : Chip} {a0 a1} : SameMem c (Chip.setReg c a0 a1) := by
  unfold Chip.setReg
  exact .mk2 .refl rfl

theorem Chip.setBit_sameMem {c : Chip} {a0 a1 a2} : SameMem c (Chip.setBit c a0 a1 a2) := by
  unfold Chip.setBit
  exact Chip.setReg_sameMem

theorem Chip.raise_sameMem {c : Chip} {a0 a1} : SameMem c (Chip.raise c a0 a1) := by
  unfold Chip.raise
  extract_lets +onlyGivenNames -merge -useContext -underBinder c0 x2
  have h1 : SameMem c c0 := Chip.setBit_sameMem
  clear_value c0
  exact .mk2 h1 rfl

theorem Chip.flag_sameMem {c : Chip} {a0 a1 a2} : SameMem c (Chip.flag c a0 a1 a2) := by
  unfold Chip.flag
  exact .of Chip.raise_sameMem Chip.setBit_sameMem

theorem Chip.setFld_sameMem {c : Chip} {a0 a1 a2 a3} : SameMem c (Chip.setFld c a0 a1 a2 a3) := by
  unfold Chip.setFld
  exact Chip.setReg_sameMem

theorem Chip.incSat_sameMem {c : Chip} {a0 a1} : SameMem c (Chip.incSat c a0 a1) := by
  unfold Chip.incSat
  exact Chip.setReg_sameMem

theorem Chip.inc_sameMem {c : Chip} {a0} : SameMem c (Chip.inc c a0) := by
  unfold Chip.inc
  exact Chip.incSat_sameMem

theorem Chip.memCause_sameMem {c : Chip} {a0} : SameMem c (Chip.memCause c a0) := by
  unfold Chip.memCause
  exact Chip.flag_sameMem

theorem Chip.ownErr_sameMem {c : Chip} {a0 a1} : SameMem c (Chip.ownErr c a0 a1) := by
  unfold Chip.ownErr
  exact .of Chip.memCause_sameMem (.of Chip.setReg_sameMem Chip.inc_sameMem)

theorem Chip.noteErr_sameMem {c : Chip} {a0 a1 a2} : SameMem c (Chip.noteErr c a0 a1 a2) := by
  unfold Chip.noteErr
  split
  · exact Chip.ownErr_sameMem
  · exact .refl

theorem Chip.ueErr_sameMem {c : Chip} {a0} : SameMem c (Chip.ueErr c a0) := by
  unfold Chip.ueErr
  extract_lets +onlyGivenNames -merge -useContext -underBinder c0
  have h1 : SameMem c c0 := .of Chip.memCause_sameMem (.of Chip.setReg_sameMem Chip.inc_sameMem)
  clear_value c0
  exact .ite (.of Chip.memCause_sameMem (.of Chip.setBit_sameMem h1)) h1

/-- The canonical form, as two properties of the list of bytes. -/
theorem wf_iff (c : Chip) : Memory.wf c = true ↔
    tblRising 0 c.mem = true ∧ ∀ e ∈ c.mem, e.2 ≠ 0 ∨ c.undefRun e.1 ≠ 0 := by
  simp [Memory.wf]

theorem mem_tblErase {α : Type} {t : Tbl α} {k : Nat} {e : Nat × α} (h : e ∈ tblErase t k) : e ∈ t ∧ e.1 ≠ k := by
  induction t with
  | nil => simp [tblErase] at h
  | cons x t ih =>
    obtain ⟨j, v⟩ := x
    by_cases hj : j = k
    · simp only [tblErase, if_pos hj] at h
      exact ⟨List.mem_cons_of_mem _ (ih h).1, (ih h).2⟩
    · simp only [tblErase, if_neg hj, List.mem_cons] at h
      rcases h with rfl | h
      · exact ⟨List.mem_cons_self, hj⟩
      · exact ⟨List.mem_cons_of_mem _ (ih h).1, (ih h).2⟩

theorem mem_tblInsert {α : Type} {t : Tbl α} {k : Nat} {v : α} {e : Nat × α} (h : e ∈ tblInsert t k v) :
    e = (k, v) ∨ e ∈ t := by
  induction t with
  | nil => simpa [tblInsert] using h
  | cons x t ih =>
    obtain ⟨j, w⟩ := x
    by_cases hj : k < j
    · simpa only [tblInsert, if_pos hj, List.mem_cons] using h
    · simp only [tblInsert, if_neg hj, List.mem_cons] at h
      rcases h with rfl | h
      · exact .inr List.mem_cons_self
      · exact (ih h).imp_right (List.mem_cons_of_mem _)

/-- Bytes dropped, with no bank made defined, keep the canonical form. -/
theorem wf_filter {c d : Chip} {p : Host.Cell → Bool} (hm : d.mem = c.mem.filter p)
    (hu : ∀ e ∈ c.mem, p e = true → c.undefRun e.1 ≠ 0 → d.undefRun e.1 ≠ 0) (h : Memory.wf c = true) :
    Memory.wf d = true := by
  rw [wf_iff] at h ⊢
  rw [hm]
  refine ⟨tblRising_filter p h.1, fun e he => ?_⟩
  obtain ⟨he, hp⟩ := List.mem_filter.mp he
  exact (h.2 e he).imp_right (hu e he hp)

theorem Chip.setByte_keepsWf {c : Chip} {a b} : KeepsWf c (Chip.setByte c a b) := ⟨fun h => by
  rw [wf_iff] at h ⊢
  have hu : (c.setByte a b).undefRun = c.undefRun := rfl
  rw [hu]
  by_cases hb : b = 0 ∧ c.undefRun a = 0
  · have hm : (c.setByte a b).mem = tblErase c.mem a := by simp only [Chip.setByte, if_pos hb]
    rw [hm]
    exact ⟨tblRising_erase a h.1, fun e he => h.2 e (mem_tblErase he).1⟩
  · have hm : (c.setByte a b).mem = tblInsert (tblErase c.mem a) a b := by simp only [Chip.setByte, if_neg hb]
    rw [hm]
    refine ⟨tblRising_insert a b (Nat.zero_le a) (tblFind_erase_same _ _) (tblRising_erase a h.1), fun e he => ?_⟩
    rcases mem_tblInsert he with rfl | he
    · simpa only [ne_eq, Decidable.not_and_iff_not_or_not] using hb
    · exact h.2 e (mem_tblErase he).1⟩

theorem Chip.setBytes_keepsWf {c : Chip} {a bs} : KeepsWf c (Chip.setBytes c a bs) := by
  induction bs generalizing c a with
  | nil => exact .refl
  | cons b bs ih => exact .trans Chip.setByte_keepsWf ih

theorem Chip.memWrite_keepsWf {c : Chip} {a0 a1 a2} : KeepsWf c (Chip.memWrite c a0 a1 a2).2 := by
  unfold Chip.memWrite
  split
  · exact .pair1 Chip.noteErr_sameMem.keeps
  · extract_lets +onlyGivenNames -merge -useContext -underBinder x0 x1 x2
    refine .ite1 (.pair1 (.mk2 .refl rfl)) ?_
    split
    · exact .pair1 Chip.ueErr_sameMem.keeps
    · extract_lets +onlyGivenNames -merge -useContext -underBinder x3 c4 c6
      have h5 : KeepsWf c c4 := .mk2 .refl rfl
      have h7 : KeepsWf c c6 := .of Chip.setBytes_keepsWf h5
      clear_value c4 c6
      exact .pair1 (.ite (.of Chip.memCause_sameMem.keeps (.of Chip.inc_sameMem.keeps h7)) h7)

theorem Chip.dmaWrite_keepsWf {c : Chip} {a0 a1 a2} : KeepsWf c (Chip.dmaWrite c a0 a1 a2).2 := by
  unfold Chip.dmaWrite
  exact .ite1 Chip.memWrite_keepsWf (.pair1 .refl)

theorem Chip.freeze_sameMem {c : Chip} {a0} : SameMem c (Chip.freeze c a0) := by
  unfold Chip.freeze
  extract_lets +onlyGivenNames -merge -useContext -underBinder x0
  exact .of Chip.memCause_sameMem (.mk2 .refl rfl)

theorem Chip.answer_sameMem {c : Chip} {a0} : SameMem c (Chip.answer c a0) := by
  unfold Chip.answer
  exact .mk2 .refl rfl

theorem Chip.done_sameMem {c : Chip} : SameMem c (Chip.done c) := by
  unfold Chip.done
  exact Chip.answer_sameMem

theorem Chip.refuse_sameMem {c : Chip} : SameMem c (Chip.refuse c) := by
  unfold Chip.refuse
  exact Chip.answer_sameMem

theorem Chip.freezeAt_sameMem {c : Chip} {a0 a1 a2 a3 a4} : SameMem c (Chip.freezeAt c a0 a1 a2 a3 a4) := by
  unfold Chip.freezeAt
  exact Chip.freeze_sameMem

theorem Chip.stage_sameMem {c : Chip} {a0 a1} : SameMem c (Chip.stage c a0 a1) := by
  unfold Chip.stage
  exact .mk2 .refl rfl

theorem Chip.plainWrite_sameMem {c : Chip} {a0 a1 a2} : SameMem c (Chip.plainWrite c a0 a1 a2) := by
  unfold Chip.plainWrite
  split
  · exact Chip.done_sameMem
  · extract_lets +onlyGivenNames -merge -useContext -underBinder c0
    have h1 : SameMem c c0 := Chip.setReg_sameMem
    clear_value c0
    refine .ite Chip.refuse_sameMem ?_
    refine .ite (.of Chip.done_sameMem Chip.stage_sameMem) ?_
    refine .of Chip.done_sameMem ?_
    refine .foldl ?_ ?_
    · intro c2 x3 h4
      exact .of Chip.setReg_sameMem h4
    · exact h1

theorem Chip.takeFree_sameMem {c : Chip} : SameMem c (Chip.takeFree c).2 := by
  unfold Chip.takeFree
  exact .pair1 (.mk2 .refl rfl)

theorem Chip.mramWrite_keepsWf {c : Chip} {a0 a1} : KeepsWf c (Chip.mramWrite c a0 a1) := by
  unfold Chip.mramWrite
  exact Chip.memWrite_keepsWf

theorem Chip.setReg64_sameMem {c : Chip} {a0 a1} : SameMem c (Chip.setReg64 c a0 a1) := by
  unfold Chip.setReg64
  exact .of Chip.stage_sameMem (.of Chip.setReg_sameMem Chip.setReg_sameMem)

theorem Chip.obRead_sameMem {c : Chip} {a0 a1 a2} : SameMem c (Chip.obRead c a0 a1 a2).2 := by
  unfold Chip.obRead
  split
  · extract_lets +onlyGivenNames -merge -useContext -underBinder x0
    exact .pair1 (.mk2 .refl rfl)
  · extract_lets +onlyGivenNames -merge -useContext -underBinder x1 c2
    have h3 : SameMem c c2 := .mk2 .refl rfl
    clear_value c2
    split
    · exact .pair1 .refl
    · exact .pair1 h3
    · exact .pair1 h3

theorem Chip.memRead_sameMem {c : Chip} {a0 a1 a2} : SameMem c (Chip.memRead c a0 a1 a2).2 := by
  unfold Chip.memRead
  split
  · exact .pair1 Chip.noteErr_sameMem
  · refine .ite1 Chip.obRead_sameMem ?_
    split
    · exact .pair1 Chip.ueErr_sameMem
    · exact .ite1 (.pair1 (.of Chip.memCause_sameMem Chip.inc_sameMem)) (.pair1 .refl)

theorem Chip.dmaRead_sameMem {c : Chip} {a0 a1 a2} : SameMem c (Chip.dmaRead c a0 a1 a2).2 := by
  unfold Chip.dmaRead
  exact .ite1 Chip.memRead_sameMem (.pair1 .refl)

theorem Chip.readPieces_sameMem {c : Chip} {m ps got} : SameMem c (Chip.readPieces c m ps got).2 := by
  induction ps generalizing c got with
  | nil => exact .refl
  | cons p ps ih =>
    unfold Chip.readPieces
    have h := Chip.dmaRead_sameMem (c := c) (a0 := m) (a1 := p.1) (a2 := p.2)
    split <;> rename_i e <;> rw [e] at h
    · exact h.trans ih
    · exact h

theorem Chip.readSpan_sameMem {c : Chip} {m a n} : SameMem c (Chip.readSpan c m a n).2 := by
  unfold Chip.readSpan
  split
  · exact .mk1 .refl
  · exact Chip.readPieces_sameMem

theorem Chip.wordsRead_sameMem {c : Chip} {a0} : SameMem c (Chip.wordsRead c a0) := by
  unfold Chip.wordsRead
  extract_lets +onlyGivenNames -merge -useContext -underBinder c0
  have h1 : SameMem c c0 := by
    refine .foldl ?_ ?_
    · intro c2 x3 h4
      exact .of Chip.memCause_sameMem (.of Chip.inc_sameMem h4)
    · exact .refl
  clear_value c0
  refine .foldl ?_ ?_
  · intro c5 x6 h7
    exact .of Chip.ueErr_sameMem h7
  · exact h1

theorem Chip.writePieces_keepsWf {c : Chip} {m ps bs} : KeepsWf c (Chip.writePieces c m ps bs).2 := by
  induction ps generalizing c bs with
  | nil => exact .refl
  | cons p ps ih =>
    unfold Chip.writePieces
    have h := Chip.dmaWrite_keepsWf (c := c) (a0 := m) (a1 := p.1) (a2 := bs.take p.2)
    split <;> rename_i e <;> rw [e] at h
    · exact h.trans ih
    · exact h

theorem Chip.writeSpan_keepsWf {c : Chip} {a0 a1 a2} : KeepsWf c (Chip.writeSpan c a0 a1 a2).2 := by
  unfold Chip.writeSpan
  exact Chip.writePieces_keepsWf

theorem Chip.mramRead_sameMem {c : Chip} {a0 a1} : SameMem c (Chip.mramRead c a0 a1) := by
  unfold Chip.mramRead
  exact Chip.wordsRead_sameMem

theorem Chip.setWord_keepsWf {c : Chip} {a0 a1} : KeepsWf c (Chip.setWord c a0 a1) := by
  unfold Chip.setWord
  exact Chip.setBytes_keepsWf

theorem Chip.setWords_keepsWf {c : Chip} {a ws} : KeepsWf c (Chip.setWords c a ws) := by
  induction ws generalizing c a with
  | nil => exact .refl
  | cons w ws ih => exact .trans Chip.setWord_keepsWf ih

end Sys2Proof.Machine
end

