-- ==== Sys2Proof/Laws/KeepTmu.lean ====
section
/-!
SUPPORT. What each operation of Machine/Tmu.lean does to memory: it changes no byte (`SameMem`), or keeps
the canonical form (`KeepsWf`).
-/
namespace Sys2Proof.Machine

theorem Chip.setTo_sameMem {c : Chip} {a0 a1} : SameMem c (Chip.setTo c a0 a1) := by
  unfold Chip.setTo
  extract_lets +onlyGivenNames -merge -useContext -underBinder x0
  exact .mk2 .refl rfl

theorem toCancel_sameMem {c : Chip} {a0} : SameMem c (toCancel c a0) := by
  unfold toCancel
  extract_lets +onlyGivenNames -merge -useContext -underBinder x0
  exact Chip.setTo_sameMem

theorem domSwitch_sameMem {c : Chip} : SameMem c (domSwitch c) := by
  unfold domSwitch
  extract_lets +onlyGivenNames -merge -useContext -underBinder x0 x1 x2 c3
  have h4 : SameMem c c3 := .mk2 .refl rfl
  clear_value c3
  exact .of Chip.flag_sameMem h4

theorem domselWrite_sameMem {c : Chip} {a0 a1} : SameMem c (domselWrite c a0 a1) := by
  unfold domselWrite
  extract_lets +onlyGivenNames -merge -useContext -underBinder x0 c1
  have h2 : SameMem c c1 := Chip.setFld_sameMem
  clear_value c1
  refine .ite Chip.refuse_sameMem ?_
  refine .ite (.of Chip.done_sameMem h2) ?_
  exact .ite (.of Chip.done_sameMem (.of domSwitch_sameMem h2)) (.of Chip.done_sameMem Chip.setBit_sameMem)

theorem Chip.domFlag_sameMem {c : Chip} {a0 a1} : SameMem c (Chip.domFlag c a0 a1) := by
  unfold Chip.domFlag
  exact Chip.flag_sameMem

theorem Chip.setDom_sameMem {c : Chip} {a0 a1} : SameMem c (Chip.setDom c a0 a1) := by
  unfold Chip.setDom
  split
  · extract_lets +onlyGivenNames -merge -useContext -underBinder x0
    exact .mk2 .refl rfl
  · extract_lets +onlyGivenNames -merge -useContext -underBinder x1
    exact .mk2 .refl rfl

theorem Chip.domState_sameMem {c : Chip} {a0 a1} : SameMem c (Chip.domState c a0 a1) := by
  unfold Chip.domState
  exact .of Chip.raise_sameMem Chip.setDom_sameMem

theorem domEnable_sameMem {c : Chip} {a0} : SameMem c (domEnable c a0) := by
  unfold domEnable
  extract_lets +onlyGivenNames -merge -useContext -underBinder x0 c1 x3 c4
  have h2 : SameMem c c1 := .of Chip.stage_sameMem Chip.domState_sameMem
  have h5 : SameMem c c4 := .mk2 h2 rfl
  clear_value c1 c4
  exact .ite (.ite (.ite (.of Chip.flag_sameMem h5) h5) h2) Chip.domFlag_sameMem

theorem domLock_sameMem {c : Chip} {a0} : SameMem c (domLock c a0) := by
  unfold domLock
  extract_lets +onlyGivenNames -merge -useContext -underBinder x0
  exact .ite Chip.domState_sameMem Chip.domFlag_sameMem

theorem domSync_sameMem {c : Chip} {a0} : SameMem c (domSync c a0) := by
  unfold domSync
  split
  · extract_lets +onlyGivenNames -merge -useContext -underBinder x0
    exact Chip.setDom_sameMem
  · extract_lets +onlyGivenNames -merge -useContext -underBinder x1
    exact Chip.domState_sameMem
  · exact Chip.domFlag_sameMem

theorem domFail_sameMem {c : Chip} {a0} : SameMem c (domFail c a0) := by
  unfold domFail
  split
  · extract_lets +onlyGivenNames -merge -useContext -underBinder x0
    exact Chip.domState_sameMem
  · extract_lets +onlyGivenNames -merge -useContext -underBinder x1
    exact Chip.domState_sameMem
  · extract_lets +onlyGivenNames -merge -useContext -underBinder x2
    exact Chip.domState_sameMem
  · exact Chip.domFlag_sameMem

theorem domDisable_sameMem {c : Chip} {a0} : SameMem c (domDisable c a0) := by
  unfold domDisable
  extract_lets +onlyGivenNames -merge -useContext -underBinder x0
  exact .ite (.of Chip.stage_sameMem Chip.domState_sameMem) Chip.domFlag_sameMem

theorem domCmdWrite_sameMem {c : Chip} {a0 a1 a2} : SameMem c (domCmdWrite c a0 a1 a2) := by
  unfold domCmdWrite
  refine .ite Chip.refuse_sameMem ?_
  refine .ite (.of Chip.done_sameMem Chip.domFlag_sameMem) ?_
  refine .ite (.of Chip.done_sameMem domEnable_sameMem) ?_
  refine .ite (.of Chip.done_sameMem domLock_sameMem) ?_
  refine .ite (.of Chip.done_sameMem domSync_sameMem) ?_
  refine .ite (.of Chip.done_sameMem domFail_sameMem) ?_
  exact .ite (.of Chip.done_sameMem domDisable_sameMem) Chip.done_sameMem

theorem domRateWrite_sameMem {c : Chip} {a0 a1 a2} : SameMem c (domRateWrite c a0 a1 a2) := by
  unfold domRateWrite
  extract_lets +onlyGivenNames -merge -useContext -underBinder x0 x1 x2 c3
  have h4 : SameMem c c3 := .of Chip.stage_sameMem Chip.setDom_sameMem
  clear_value c3
  refine .ite Chip.refuse_sameMem ?_
  refine .ite (.of Chip.done_sameMem Chip.domFlag_sameMem) ?_
  exact .ite (.of Chip.done_sameMem h4) (.of Chip.done_sameMem (.of Chip.domFlag_sameMem h4))

theorem domAdjWrite_sameMem {c : Chip} {a0 a1 a2} : SameMem c (domAdjWrite c a0 a1 a2) := by
  unfold domAdjWrite
  extract_lets +onlyGivenNames -merge -useContext -underBinder x0 x1 x2 x3 c4
  have h5 : SameMem c c4 := Chip.setDom_sameMem
  clear_value c4
  refine .ite Chip.refuse_sameMem ?_
  refine .ite (.of Chip.done_sameMem Chip.domFlag_sameMem) ?_
  exact .ite (.of Chip.done_sameMem h5) (.of Chip.done_sameMem (.of Chip.domFlag_sameMem h5))

theorem domStepWrite_sameMem {c : Chip} {a0 a1 a2} : SameMem c (domStepWrite c a0 a1 a2) := by
  unfold domStepWrite
  extract_lets +onlyGivenNames -merge -useContext -underBinder x0
  refine .ite Chip.refuse_sameMem ?_
  exact .ite (.of Chip.done_sameMem Chip.setDom_sameMem) (.of Chip.done_sameMem Chip.domFlag_sameMem)

theorem Chip.setEq_sameMem {c : Chip} {a0 a1} : SameMem c (Chip.setEq c a0 a1) := by
  unfold Chip.setEq
  extract_lets +onlyGivenNames -merge -useContext -underBinder x0
  exact .mk2 .refl rfl

theorem egressPop_sameMem {c : Chip} {a0 a1} : SameMem c (egressPop c a0 a1) := by
  unfold egressPop
  exact .ite (.of Chip.done_sameMem Chip.setEq_sameMem) Chip.done_sameMem

theorem ringPop_sameMem {c : Chip} {a0} : SameMem c (ringPop c a0) := by
  unfold ringPop
  extract_lets +onlyGivenNames -merge -useContext -underBinder x0
  exact .ite (.of Chip.done_sameMem (.mk2 .refl rfl)) Chip.done_sameMem

theorem Chip.toLate_sameMem {c : Chip} {a0} : SameMem c (Chip.toLate c a0) := by
  unfold Chip.toLate
  exact Chip.flag_sameMem

theorem toArm_sameMem {c : Chip} {a0 a1 a2} : SameMem c (toArm c a0 a1 a2) := by
  unfold toArm
  extract_lets +onlyGivenNames -merge -useContext -underBinder x0 x1 x2 x3
  refine .ite Chip.toLate_sameMem ?_
  split
  · extract_lets +onlyGivenNames -merge -useContext -underBinder c4
    have h5 : SameMem c c4 := Chip.setTo_sameMem
    clear_value c4
    exact .ite (.of Chip.toLate_sameMem h5) h5

theorem toCtlWrite_sameMem {c : Chip} {a0 a1} : SameMem c (toCtlWrite c a0 a1) := by
  unfold toCtlWrite
  extract_lets +onlyGivenNames -merge -useContext -underBinder c0
  have h1 : SameMem c c0 := .ite toCancel_sameMem .refl
  clear_value c0
  exact .ite Chip.refuse_sameMem (.of Chip.done_sameMem (.ite (.of toArm_sameMem h1) h1))

theorem tmuWrite_sameMem {c : Chip} {a0 a1 a2} : SameMem c (tmuWrite c a0 a1 a2) := by
  unfold tmuWrite
  extract_lets +onlyGivenNames -merge -useContext -underBinder x0 x1 x2
  refine .ite domselWrite_sameMem ?_
  refine .ite Chip.plainWrite_sameMem ?_
  refine .ite Chip.plainWrite_sameMem ?_
  refine .ite ?_ ?_
  · split
    · exact domCmdWrite_sameMem
    · exact domRateWrite_sameMem
    · exact domAdjWrite_sameMem
    · exact domStepWrite_sameMem
    · exact .ite (.of Chip.done_sameMem Chip.stage_sameMem) Chip.refuse_sameMem
    · exact .ite (.of Chip.done_sameMem Chip.stage_sameMem) Chip.refuse_sameMem
    · exact .ite (.of Chip.done_sameMem Chip.stage_sameMem) Chip.refuse_sameMem
    · exact .ite Chip.plainWrite_sameMem Chip.refuse_sameMem
    · exact .ite Chip.plainWrite_sameMem Chip.refuse_sameMem
    · exact Chip.plainWrite_sameMem
  · refine .ite egressPop_sameMem ?_
    refine .ite ringPop_sameMem ?_
    refine .ite ?_ Chip.plainWrite_sameMem
    split
    · exact toCtlWrite_sameMem
    · exact .ite Chip.refuse_sameMem Chip.plainWrite_sameMem
    · exact .ite Chip.refuse_sameMem Chip.plainWrite_sameMem
    · exact .ite Chip.refuse_sameMem Chip.plainWrite_sameMem
    · exact Chip.plainWrite_sameMem

theorem Chip.pushStamp_sameMem {c : Chip} {a0 a1} : SameMem c (Chip.pushStamp c a0 a1) := by
  unfold Chip.pushStamp
  refine .ite (.of Chip.raise_sameMem Chip.setEq_sameMem) ?_
  exact .of Chip.raise_sameMem (.of Chip.setBit_sameMem Chip.inc_sameMem)

theorem Chip.stampAt_sameMem {c : Chip} {a0 a1 a2 a3 a4} : SameMem c (Chip.stampAt c a0 a1 a2 a3 a4) := by
  unfold Chip.stampAt
  extract_lets +onlyGivenNames -merge -useContext -underBinder x0 x1 x2 x3 x4
  exact .ite (.ite Chip.setBit_sameMem (.mk2 .refl rfl)) .refl

theorem Chip.stampPin_sameMem {c : Chip} {a0 a1 a2 a3 a4} : SameMem c (Chip.stampPin c a0 a1 a2 a3 a4) := by
  unfold Chip.stampPin
  refine .foldl ?_ ?_
  · intro c0 x1 h2
    exact .of Chip.stampAt_sameMem h2
  · exact .refl

theorem Chip.placeEdge_sameMem {c : Chip} {a0 a1 a2} : SameMem c (Chip.placeEdge c a0 a1 a2) := by
  unfold Chip.placeEdge
  extract_lets +onlyGivenNames -merge -useContext -underBinder c0 x2 x3 c4
  have h1 : SameMem c c0 := Chip.setTo_sameMem
  have h5 : SameMem c c4 := .mk2 h1 rfl
  clear_value c0 c4
  exact .ite h1 (.ite (.of Chip.stampPin_sameMem h5) h5)

theorem autoSwitch_sameMem {c : Chip} : SameMem c (autoSwitch c) := by
  unfold autoSwitch
  extract_lets +onlyGivenNames -merge -useContext -underBinder x0
  exact .ite domSwitch_sameMem .refl

theorem holdoverFail_sameMem {c : Chip} {a0} : SameMem c (holdoverFail c a0) := by
  unfold holdoverFail
  extract_lets +onlyGivenNames -merge -useContext -underBinder x0
  exact .ite Chip.domState_sameMem .refl

theorem ringEntry_sameMem {c : Chip} : SameMem c (ringEntry c) := by
  unfold ringEntry
  split
  · exact .refl
  · extract_lets +onlyGivenNames -merge -useContext -underBinder x0 c1 x3 c4 x6 c7
    have h2 : SameMem c c1 := .mk2 .refl rfl
    have h5 : SameMem c c4 := .mk2 h2 rfl
    have h8 : SameMem c c7 := .mk2 h2 rfl
    clear_value c1 c4 c7
    refine .ite ?_ .refl
    refine .ite (.ite (.of Chip.raise_sameMem h5) h5) ?_
    exact .of Chip.raise_sameMem (.of Chip.setBit_sameMem (.of Chip.inc_sameMem h8))

theorem stampEdge_sameMem {c : Chip} {a0 a1 a2 a3} : SameMem c (stampEdge c a0 a1 a2 a3) := by
  unfold stampEdge
  exact .of Chip.stampPin_sameMem (.mk2 .refl rfl)

theorem syncTimeout_sameMem {c : Chip} {a0} : SameMem c (syncTimeout c a0) := by
  unfold syncTimeout
  extract_lets +onlyGivenNames -merge -useContext -underBinder x0
  exact .ite Chip.domState_sameMem .refl

theorem tmuTick_sameMem {c : Chip} : SameMem c (tmuTick c) := by
  unfold tmuTick
  extract_lets +onlyGivenNames -merge -useContext -underBinder x0 x1 x2 x3 x4 x5 x6 x7 c8
  have h9 : SameMem c c8 := .mk2 .refl rfl
  clear_value c8
  exact .ite (.of Chip.flag_sameMem h9) h9

theorem toEdge_sameMem {c : Chip} {a0} : SameMem c (toEdge c a0) := by
  unfold toEdge
  extract_lets +onlyGivenNames -merge -useContext -underBinder x0
  split
  · exact .ite Chip.placeEdge_sameMem .refl
  · split
    · exact .refl
    · refine .ite ?_ .refl
      split
      · exact Chip.placeEdge_sameMem
      · exact Chip.placeEdge_sameMem
      · exact Chip.placeEdge_sameMem

end Sys2Proof.Machine
end

