-- ==== Sys2Proof/Laws/KeepAng.lean ====
section
/-!
SUPPORT. What each operation of Machine/Ang.lean does to memory: it changes no byte (`SameMem`), or keeps
the canonical form (`KeepsWf`).
-/
namespace Sys2Proof.Machine

theorem Chip.setShaft_sameMem {c : Chip} {a0 a1} : SameMem c (Chip.setShaft c a0 a1) := by
  unfold Chip.setShaft
  extract_lets +onlyGivenNames -merge -useContext -underBinder x0
  exact .mk2 .refl rfl

theorem Chip.shFlag_sameMem {c : Chip} {a0 a1} : SameMem c (Chip.shFlag c a0 a1) := by
  unfold Chip.shFlag
  exact Chip.flag_sameMem

theorem shaftCmdWrite_sameMem {c : Chip} {a0 a1} : SameMem c (shaftCmdWrite c a0 a1) := by
  unfold shaftCmdWrite
  extract_lets +onlyGivenNames -merge -useContext -underBinder x0
  have h1 : ∀ z2, SameMem c (x0 z2) := by
    intro z2
    unfold x0
    extract_lets +onlyGivenNames -merge -useContext -underBinder x4
    exact .of Chip.done_sameMem Chip.setShaft_sameMem
  refine .ite (.of Chip.done_sameMem Chip.shFlag_sameMem) ?_
  exact .ite (h1 _) (.ite (h1 _) (.ite (h1 _) Chip.done_sameMem))

theorem Chip.setAe_sameMem {c : Chip} {a0 a1} : SameMem c (Chip.setAe c a0 a1) := by
  unfold Chip.setAe
  extract_lets +onlyGivenNames -merge -useContext -underBinder x0
  exact .mk2 .refl rfl

theorem aeWrite_sameMem {c : Chip} {a0 a1 a2} : SameMem c (aeWrite c a0 a1 a2) := by
  unfold aeWrite
  extract_lets +onlyGivenNames -merge -useContext -underBinder x0 x1 c2 x4 x5
  have h3 : SameMem c c2 := Chip.plainWrite_sameMem
  clear_value c2
  exact .ite (.of Chip.setAe_sameMem h3) h3

theorem s2aStart_sameMem {c : Chip} {a0 a1} : SameMem c (s2aStart c a0 a1) := by
  unfold s2aStart
  extract_lets +onlyGivenNames -merge -useContext -underBinder x0 x1 c2
  have h3 : SameMem c c2 := .mk2 .refl rfl
  clear_value c2
  exact .ite (.of Chip.done_sameMem (.of Chip.setReg_sameMem h3)) Chip.done_sameMem

theorem sampleSubmit_sameMem {c : Chip} {a0 a1} : SameMem c (sampleSubmit c a0 a1) := by
  unfold sampleSubmit
  extract_lets +onlyGivenNames -merge -useContext -underBinder x0
  refine .ite ?_ Chip.done_sameMem
  split
  · exact .of Chip.done_sameMem (.of Chip.inc_sameMem Chip.shFlag_sameMem)
  · extract_lets +onlyGivenNames -merge -useContext -underBinder x1
    exact .of Chip.done_sameMem (.of Chip.inc_sameMem Chip.setShaft_sameMem)

theorem angWrite_sameMem {c : Chip} {a0 a1 a2} : SameMem c (angWrite c a0 a1 a2) := by
  unfold angWrite
  extract_lets +onlyGivenNames -merge -useContext -underBinder x0 x1
  refine .ite s2aStart_sameMem ?_
  refine .ite ?_ (.ite aeWrite_sameMem Chip.plainWrite_sameMem)
  split
  · exact shaftCmdWrite_sameMem
  · exact Chip.plainWrite_sameMem
  · exact Chip.plainWrite_sameMem
  · exact sampleSubmit_sameMem
  · exact Chip.plainWrite_sameMem

theorem outRead_sameMem {c : Chip} {a0} : SameMem c (outRead c a0) := by
  unfold outRead
  extract_lets +onlyGivenNames -merge -useContext -underBinder x0
  exact Chip.setShaft_sameMem

theorem shaftInstant_sameMem {c : Chip} {a0 a1} : SameMem c (shaftInstant c a0 a1) := by
  unfold shaftInstant
  split
  · extract_lets +onlyGivenNames -merge -useContext -underBinder c0 c2
    have h1 : SameMem c c0 := Chip.setShaft_sameMem
    have h3 : SameMem c c2 := by
      refine .foldl ?_ ?_
      · intro c4 x5 h6
        exact .of Chip.shFlag_sameMem h6
      · exact h1
    clear_value c0 c2
    exact .ite (.of Chip.raise_sameMem h3) h3

theorem commitFiring_sameMem {c : Chip} {a0} : SameMem c (commitFiring c a0) := by
  unfold commitFiring
  extract_lets +onlyGivenNames -merge -useContext -underBinder x0 c1 x3 x4 c5 c7 x9
  have h2 : SameMem c c1 := .mk2 .refl rfl
  have h6 : SameMem c c5 := .of Chip.setReg_sameMem (.of Chip.setReg64_sameMem h2)
  have h8 : SameMem c c7 := .of Chip.stage_sameMem h6
  clear_value c1 c5 c7
  exact .ite (.ite (.of toArm_sameMem h8) (.of Chip.setAe_sameMem h2)) h2

theorem carryFiring_sameMem {c : Chip} {a0 a1} : SameMem c (carryFiring c a0 a1) := by
  unfold carryFiring
  extract_lets +onlyGivenNames -merge -useContext -underBinder c0
  have h1 : SameMem c c0 := Chip.setBit_sameMem
  clear_value c0
  exact .of Chip.shFlag_sameMem h1

theorem commitShaft_sameMem {c : Chip} {a0 a1 a2} : SameMem c (commitShaft c a0 a1 a2) := by
  unfold commitShaft
  extract_lets +onlyGivenNames -merge -useContext -underBinder x0 x1 c2 x7 c8 x13
  have h3 : SameMem c c2 := by
    refine .foldl ?_ ?_
    · intro c4 x5 h6
      exact .of commitFiring_sameMem h6
    · exact .refl
  have h9 : SameMem c c8 := by
    refine .foldl ?_ ?_
    · intro c10 x11 h12
      exact .of carryFiring_sameMem h12
    · exact h3
  clear_value c2 c8
  exact .mk2 h9 rfl

theorem evalEvent_sameMem {c : Chip} {n u} : SameMem c (evalEvent c n u).1 := by
  unfold evalEvent
  extract_lets
  split
  extract_lets
  split
  · split
    exact Chip.setAe_sameMem
  · exact Chip.setAe_sameMem

theorem evaluate_sameMem {c : Chip} {u} : SameMem c (evaluate c u) := by
  unfold evaluate
  have h : ∀ (l : List (Nat × AngEvent)) (q : Chip × List Firing), SameMem c q.1 → SameMem c (l.foldl
      (fun (acc : Chip × List Firing) e => let (c', fs) := evalEvent acc.1 e.1 u; (c', acc.2 ++ fs)) q).1 := by
    intro l
    induction l with
    | nil => exact fun q h => h
    | cons e l ih => exact fun q h => ih _ (.of evalEvent_sameMem h)
  have h1 := h c.ang.events (c, []) .refl
  split
  rename_i e
  rw [e] at h1
  generalize List.range 16 = l
  refine .foldl ?_ h1
  intro d n hd
  exact .ite hd (.of commitShaft_sameMem hd)

theorem angleInstant_sameMem {c : Chip} : SameMem c (angleInstant c) := by
  unfold angleInstant
  split
  · exact .refl
  · extract_lets +onlyGivenNames -merge -useContext -underBinder c0 x5
    have h1 : SameMem c c0 := by
      refine .foldl ?_ ?_
      · intro c2 x3 h4
        exact .of shaftInstant_sameMem h4
      · exact .refl
    clear_value c0
    exact .of evaluate_sameMem (.mk2 h1 rfl)

theorem coastlimExpiry_sameMem {c : Chip} {a0} : SameMem c (coastlimExpiry c a0) := by
  unfold coastlimExpiry
  split
  · exact .of Chip.raise_sameMem Chip.setShaft_sameMem
  · exact .refl

theorem generateSample_sameMem {c : Chip} {a0} : SameMem c (generateSample c a0) := by
  unfold generateSample
  extract_lets +onlyGivenNames -merge -useContext -underBinder x0 x1 x2
  refine .ite ?_ .refl
  split
  · extract_lets +onlyGivenNames -merge -useContext -underBinder x3 x4 c5 c7 c9
    have h6 : SameMem c c5 := Chip.setShaft_sameMem
    have h8 : SameMem c c7 := .ite (.of Chip.inc_sameMem (.of Chip.shFlag_sameMem h6)) h6
    have h10 : SameMem c c9 := by
      refine .foldl ?_ ?_
      · intro c11 x12 h13
        exact .of Chip.setReg_sameMem h13
      · exact h8
    clear_value c5 c7 c9
    exact .of Chip.raise_sameMem (.of Chip.setReg_sameMem h10)

theorem reftoExpiry_sameMem {c : Chip} {a0} : SameMem c (reftoExpiry c a0) := by
  unfold reftoExpiry
  split
  · exact .of Chip.raise_sameMem Chip.setShaft_sameMem
  · exact .refl

theorem s2aDone_sameMem {c : Chip} {a0} : SameMem c (s2aDone c a0) := by
  unfold s2aDone
  split
  · exact .refl
  · extract_lets +onlyGivenNames -merge -useContext -underBinder x0 c1
    have h2 : SameMem c c1 := .mk2 .refl rfl
    clear_value c1
    exact .of Chip.setReg_sameMem (.of Chip.setReg64_sameMem h2)

theorem ulpEchoRequest_sameMem {c : Chip} {a0 a1 a2 a3} : SameMem c (ulpEchoRequest c a0 a1 a2 a3) := by
  unfold ulpEchoRequest
  refine .ite .refl ?_
  split
  · exact .refl
  · extract_lets +onlyGivenNames -merge -useContext -underBinder x0 x1
    exact .mk2 .refl rfl

end Sys2Proof.Machine
end

