-- ==== Sys2Proof/Laws/KeepCtx.lean ====
section
/-!
SUPPORT. What each operation of Machine/Ctx.lean does to memory: it changes no byte (`SameMem`), or keeps
the canonical form (`KeepsWf`).
-/
namespace Sys2Proof.Machine

theorem Chip.setCtx_sameMem {c : Chip} {a0 a1 a2} : SameMem c (Chip.setCtx c a0 a1 a2) := by
  unfold Chip.setCtx
  extract_lets +onlyGivenNames -merge -useContext -underBinder x0
  exact .mk2 .refl rfl

theorem Chip.peCause_sameMem {c : Chip} {a0 a1} : SameMem c (Chip.peCause c a0 a1) := by
  unfold Chip.peCause
  exact Chip.flag_sameMem

theorem Chip.eachCtx_sameMem {c : Chip} {a0 a1} : SameMem c (Chip.eachCtx c a0 a1) := by
  unfold Chip.eachCtx
  refine .foldl ?_ ?_
  · intro c0 x1 h2
    exact .of Chip.setCtx_sameMem h2
  · exact .refl

theorem Chip.freezeCore_sameMem {c : Chip} {a0 a1} : SameMem c (Chip.freezeCore c a0 a1) := by
  unfold Chip.freezeCore
  extract_lets +onlyGivenNames -merge -useContext -underBinder c0 x2 c3
  have h1 : SameMem c c0 := Chip.eachCtx_sameMem
  have h4 : SameMem c c3 := .mk2 h1 rfl
  clear_value c0 c3
  exact .ite (.of Chip.setFld_sameMem h4) h4

theorem Chip.setPeState_sameMem {c : Chip} {a0 a1} : SameMem c (Chip.setPeState c a0 a1) := by
  unfold Chip.setPeState
  exact Chip.setFld_sameMem

theorem Chip.haltCore_sameMem {c : Chip} {a0} : SameMem c (Chip.haltCore c a0) := by
  unfold Chip.haltCore
  exact Chip.eachCtx_sameMem

theorem Chip.thaw_sameMem {c : Chip} {a0} : SameMem c (Chip.thaw c a0) := by
  unfold Chip.thaw
  extract_lets +onlyGivenNames -merge -useContext -underBinder c0 x2
  have h1 : SameMem c c0 := Chip.eachCtx_sameMem
  clear_value c0
  exact .mk2 h1 rfl

theorem Chip.resetCore_sameMem {c : Chip} {a0} : SameMem c (Chip.resetCore c a0) := by
  unfold Chip.resetCore
  extract_lets +onlyGivenNames -merge -useContext -underBinder c0 x2
  have h1 : SameMem c c0 := Chip.eachCtx_sameMem
  clear_value c0
  exact .mk2 h1 rfl

theorem Chip.wakeLine_sameMem {c : Chip} {a0 a1 a2} : SameMem c (Chip.wakeLine c a0 a1 a2) := by
  unfold Chip.wakeLine
  extract_lets +onlyGivenNames -merge -useContext -underBinder x0
  exact Chip.setCtx_sameMem

theorem Chip.ownerCause_sameMem {c : Chip} {a0 a1} : SameMem c (Chip.ownerCause c a0 a1) := by
  unfold Chip.ownerCause
  exact .ite Chip.peCause_sameMem .refl

theorem Chip.clearMem_keepsWf {c : Chip} {a n} : KeepsWf c (Chip.clearMem c a n) :=
  ⟨wf_filter rfl fun _ _ _ h => h⟩

end Sys2Proof.Machine
end

