-- ==== Sys2Proof/Laws/KeepSkp.lean ====
section
/-!
SUPPORT. What each operation of Machine/Skp.lean does to memory: it changes no byte (`SameMem`), or keeps
the canonical form (`KeepsWf`).
-/
namespace Sys2Proof.Machine

theorem Chip.setSk_sameMem {c : Chip} {a0 a1} : SameMem c (Chip.setSk c a0 a1) := by
  unfold Chip.setSk
  extract_lets +onlyGivenNames -merge -useContext -underBinder x0
  exact .mk2 .refl rfl

theorem skDisable_sameMem {c : Chip} {a0} : SameMem c (skDisable c a0) := by
  unfold skDisable
  extract_lets +onlyGivenNames -merge -useContext -underBinder x0
  exact .ite (.of Chip.setSk_sameMem Chip.setBit_sameMem) .refl

theorem insnWrite_sameMem {c : Chip} {a0 a1 a2 a3} : SameMem c (insnWrite c a0 a1 a2 a3) := by
  unfold insnWrite
  exact .ite Chip.refuse_sameMem (.ite Chip.refuse_sameMem (.of Chip.done_sameMem Chip.setReg_sameMem))

theorem Chip.skCause_sameMem {c : Chip} {a0 a1} : SameMem c (Chip.skCause c a0 a1) := by
  unfold Chip.skCause
  exact Chip.flag_sameMem

theorem Chip.skRefused_sameMem {c : Chip} {a0} : SameMem c (Chip.skRefused c a0) := by
  unfold Chip.skRefused
  exact .of Chip.done_sameMem Chip.skCause_sameMem

theorem Chip.feedPush_sameMem {c : Chip} {a0 a1} : SameMem c (Chip.feedPush c a0 a1) := by
  unfold Chip.feedPush
  extract_lets +onlyGivenNames -merge -useContext -underBinder x0
  exact .ite Chip.setSk_sameMem Chip.skCause_sameMem

theorem feedWrite_sameMem {c : Chip} {a0 a1} : SameMem c (feedWrite c a0 a1) := by
  unfold feedWrite
  exact .of Chip.done_sameMem Chip.feedPush_sameMem

theorem Chip.skLine_sameMem {c : Chip} {a0 a1} : SameMem c (Chip.skLine c a0 a1) := by
  unfold Chip.skLine
  extract_lets +onlyGivenNames -merge -useContext -underBinder c0 x2
  have h1 : SameMem c c0 := Chip.setBit_sameMem
  clear_value c0
  exact .ite .refl (.mk2 h1 rfl)

theorem irqsetWrite_sameMem {c : Chip} {a0 a1} : SameMem c (irqsetWrite c a0 a1) := by
  unfold irqsetWrite
  exact .of Chip.done_sameMem (.ite Chip.skLine_sameMem .refl)

theorem skRestart_sameMem {c : Chip} {a0} : SameMem c (skRestart c a0) := by
  unfold skRestart
  exact .of Chip.setReg_sameMem (.of Chip.setReg_sameMem Chip.setReg_sameMem)

theorem skEnable_sameMem {c : Chip} {a0} : SameMem c (skEnable c a0) := by
  unfold skEnable
  extract_lets +onlyGivenNames -merge -useContext -underBinder c0 x2
  have h1 : SameMem c c0 := .of Chip.setBit_sameMem (.of Chip.setBit_sameMem Chip.setBit_sameMem)
  clear_value c0
  exact .ite .refl (.of Chip.setSk_sameMem h1)

theorem skCtlWrite_sameMem {c : Chip} {a0 a1 a2} : SameMem c (skCtlWrite c a0 a1 a2) := by
  unfold skCtlWrite
  extract_lets +onlyGivenNames -merge -useContext -underBinder c0 c2
  have h1 : SameMem c c0 := .ite skRestart_sameMem .refl
  have h3 : SameMem c c2 := .of Chip.setFld_sameMem h1
  clear_value c0 c2
  refine .ite Chip.refuse_sameMem ?_
  refine .ite Chip.skRefused_sameMem ?_
  exact .of Chip.done_sameMem (.ite (.of skEnable_sameMem h3) (.of skDisable_sameMem h3))

theorem lanesWrite_sameMem {c : Chip} {a0 a1 a2 a3} : SameMem c (lanesWrite c a0 a1 a2 a3) := by
  unfold lanesWrite
  exact .ite Chip.refuse_sameMem (.ite Chip.skRefused_sameMem Chip.plainWrite_sameMem)

theorem skRegWrite_sameMem {c : Chip} {a0 a1 a2 a3} : SameMem c (skRegWrite c a0 a1 a2 a3) := by
  unfold skRegWrite
  extract_lets +onlyGivenNames -merge -useContext -underBinder x0 x1
  have h2 : ∀ z3, SameMem c (x1 z3) := by
    intro z3
    unfold x1
    exact .ite Chip.skRefused_sameMem Chip.plainWrite_sameMem
  refine .ite feedWrite_sameMem ?_
  refine .ite irqsetWrite_sameMem ?_
  refine .ite Chip.refuse_sameMem ?_
  split
  · exact skCtlWrite_sameMem
  · extract_lets +onlyGivenNames -merge -useContext -underBinder x5
    exact h2 _
  · exact h2 _
  · exact h2 _
  · exact lanesWrite_sameMem
  · exact lanesWrite_sameMem
  · exact h2 _
  · exact h2 _
  · exact h2 _
  · exact Chip.plainWrite_sameMem

theorem Chip.skFlag_sameMem {c : Chip} {a0 a1} : SameMem c (Chip.skFlag c a0 a1) := by
  unfold Chip.skFlag
  extract_lets +onlyGivenNames -merge -useContext -underBinder c0 x2
  have h1 : SameMem c c0 := Chip.setBit_sameMem
  clear_value c0
  exact .ite .refl (.mk2 h1 rfl)

theorem Chip.setPf_sameMem {c : Chip} {a0 a1} : SameMem c (Chip.setPf c a0 a1) := by
  unfold Chip.setPf
  extract_lets +onlyGivenNames -merge -useContext -underBinder x0
  exact .mk2 .refl rfl

theorem pfCtlWrite_sameMem {c : Chip} {a0 a1} : SameMem c (pfCtlWrite c a0 a1) := by
  unfold pfCtlWrite
  exact .ite (.of Chip.done_sameMem (.of Chip.setReg_sameMem Chip.setPf_sameMem)) Chip.done_sameMem

theorem pfRegWrite_sameMem {c : Chip} {a0 a1 a2 a3} : SameMem c (pfRegWrite c a0 a1 a2 a3) := by
  unfold pfRegWrite
  extract_lets +onlyGivenNames -merge -useContext -underBinder x0
  split
  · exact .ite Chip.refuse_sameMem (.ite (.of Chip.done_sameMem Chip.setBit_sameMem) Chip.plainWrite_sameMem)
  · exact pfCtlWrite_sameMem
  · exact Chip.plainWrite_sameMem
  · exact Chip.plainWrite_sameMem

theorem skpWrite_sameMem {c : Chip} {a0 a1 a2} : SameMem c (skpWrite c a0 a1 a2) := by
  unfold skpWrite
  extract_lets +onlyGivenNames -merge -useContext -underBinder x0 x1 x2
  refine .ite ?_ pfRegWrite_sameMem
  refine .ite insnWrite_sameMem ?_
  refine .ite skRegWrite_sameMem ?_
  refine .ite Chip.plainWrite_sameMem ?_
  refine .ite Chip.refuse_sameMem ?_
  refine .ite ?_ (.ite (.of Chip.done_sameMem Chip.setReg_sameMem) Chip.plainWrite_sameMem)
  refine .of Chip.done_sameMem ?_
  refine .foldl ?_ ?_
  · intro c3 x4 h5
    exact .ite (.of Chip.skFlag_sameMem h5) h5
  · exact .refl

theorem Chip.pfPop_sameMem {c : Chip} {a0} : SameMem c (Chip.pfPop c a0).2 := by
  unfold Chip.pfPop
  extract_lets +onlyGivenNames -merge -useContext -underBinder x0
  split
  · exact .pair1 .refl
  · exact .pair1 Chip.setPf_sameMem

theorem Chip.pfRead_sameMem {c : Chip} {a0} : SameMem c (Chip.pfRead c a0).2 := by
  unfold Chip.pfRead
  split
  · rename_i y0 y1 e2
    have h3 : SameMem c y1 := by
      refine .ofEq1 e2 ?_
      exact Chip.pfPop_sameMem
    exact .pair1 h3
  · rename_i y4 e5
    have h6 : SameMem c y4 := by
      refine .ofEq1 e5 ?_
      exact Chip.pfPop_sameMem
    extract_lets +onlyGivenNames -merge -useContext -underBinder x7
    exact .pair1 Chip.flag_sameMem

theorem Chip.pfCommit_sameMem {c : Chip} {a0 a1 a2 a3} : SameMem c (Chip.pfCommit c a0 a1 a2 a3) := by
  unfold Chip.pfCommit
  extract_lets +onlyGivenNames -merge -useContext -underBinder x0 x1 x2 c3 c5
  have h4 : SameMem c c3 := Chip.setPf_sameMem
  have h6 : SameMem c c5 := .ite (.of Chip.raise_sameMem h4) h4
  clear_value c3 c5
  exact .ite (.of Chip.raise_sameMem h6) h6

theorem Chip.pfCreditRead_sameMem {c : Chip} {a0} : SameMem c (Chip.pfCreditRead c a0).2 := by
  unfold Chip.pfCreditRead
  extract_lets +onlyGivenNames -merge -useContext -underBinder x0
  split
  · exact .pair1 .refl
  · exact .ite1 (.pair1 .refl) (.pair1 Chip.setPf_sameMem)

theorem Chip.setSkC_sameMem {c : Chip} {a0 a1 a2} : SameMem c (Chip.setSkC c a0 a1 a2) := by
  unfold Chip.setSkC
  exact Chip.setFld_sameMem

theorem Chip.setSkNi_sameMem {c : Chip} {a0 a1} : SameMem c (Chip.setSkNi c a0 a1) := by
  unfold Chip.setSkNi
  exact Chip.setFld_sameMem

theorem Chip.setSkNo_sameMem {c : Chip} {a0 a1} : SameMem c (Chip.setSkNo c a0 a1) := by
  unfold Chip.setSkNo
  exact Chip.setFld_sameMem

theorem Chip.setSkPc_sameMem {c : Chip} {a0 a1} : SameMem c (Chip.setSkPc c a0 a1) := by
  unfold Chip.setSkPc
  exact Chip.setFld_sameMem

theorem Chip.skAdvance_sameMem {c : Chip} {a0} : SameMem c (Chip.skAdvance c a0) := by
  unfold Chip.skAdvance
  exact Chip.setSkPc_sameMem

theorem Chip.skCond_sameMem {c : Chip} {a0 a1 a2} : SameMem c (Chip.skCond c a0 a1 a2).2 := by
  unfold Chip.skCond
  extract_lets +onlyGivenNames -merge -useContext -underBinder x0
  have h1 : ∀ z2, SameMem c (x0 z2).2 := by
    intro z2
    unfold x0
    exact .ite1 (.pair1 .refl) (.pair1 Chip.setSkC_sameMem)
  split
  · exact .pair1 .refl
  · exact h1 _
  · exact h1 _
  · exact .pair1 .refl
  · exact .pair1 .refl
  · exact .pair1 Chip.setBit_sameMem
  · exact .pair1 .refl
  · exact .pair1 .refl
  · exact .pair1 .refl
  · exact .pair1 .refl
  · exact .pair1 .refl

theorem Chip.skIllegal_sameMem {c : Chip} {a0} : SameMem c (Chip.skIllegal c a0) := by
  unfold Chip.skIllegal
  exact .of Chip.skCause_sameMem (.of Chip.setBit_sameMem Chip.setBit_sameMem)

theorem Chip.skUseClock_sameMem {c : Chip} {a0} : SameMem c (Chip.skUseClock c a0) := by
  unfold Chip.skUseClock
  extract_lets +onlyGivenNames -merge -useContext -underBinder x0
  exact Chip.setSk_sameMem

theorem Chip.skInsn_sameMem {c d : Chip} {n op f} (h : ∀ d w, SameMem c d → SameMem c (f d w)) (g : SameMem c d) :
    SameMem c (Chip.skInsn d n op f) := by
  unfold Chip.skInsn
  extract_lets w
  exact .ite (.ite (.ite (h _ _ (.of Chip.skUseClock_sameMem g)) (.of Chip.skIllegal_sameMem
    (.of Chip.skUseClock_sameMem g))) g) g

theorem Chip.pfPush_sameMem {c d : Chip} {n item close} (h : c.pfPush n item close = some d) : SameMem c d := by
  unfold Chip.pfPush at h
  extract_lets p w bytes data at h
  split at h
  · cases h
    exact .refl
  · split at h
    · split at h
      · cases h
      · cases h
        exact Chip.pfCommit_sameMem
    · cases h
      exact Chip.setPf_sameMem

theorem Chip.skPushNow_sameMem {c d : Chip} {n w} (h : c.skPushNow n w = some d) : SameMem c d := by
  unfold Chip.skPushNow at h
  extract_lets shi item at h
  split at h
  · obtain ⟨e, he, rfl⟩ := Option.map_eq_some_iff.mp h
    exact .of Chip.skAdvance_sameMem (Chip.pfPush_sameMem he)
  · obtain ⟨e, he, rfl⟩ := Option.map_eq_some_iff.mp h
    exact .of Chip.skAdvance_sameMem (.of Chip.setSkNi_sameMem (.of Chip.setReg_sameMem (Chip.pfPush_sameMem he)))

theorem Chip.skPullNow_sameMem {c d : Chip} {n} (h : c.skPullNow n = some d) : SameMem c d := by
  unfold Chip.skPullNow at h
  split at h
  · cases h
  · cases h
    exact .of Chip.skAdvance_sameMem (.ite (.of Chip.skCause_sameMem (.of Chip.setSkNo_sameMem
      (.of Chip.setReg_sameMem Chip.setSk_sameMem))) (.of Chip.setSkNo_sameMem
      (.of Chip.setReg_sameMem Chip.setSk_sameMem)))

theorem Chip.skHolds_sameMem {c d : Chip} {n w v s} (h : c.skHolds n w v s = some d) : SameMem c d := by
  unfold Chip.skHolds at h
  extract_lets pol i seen at h
  split at h <;> repeat' split at h
  all_goals first
    | cases h; first | exact .refl | exact Chip.setBit_sameMem
    | nomatch h

theorem Chip.getD_sameMem {c d : Chip} {o : Option Chip} (h : ∀ e, o = some e → SameMem c e) (g : SameMem c d) :
    SameMem c (o.getD d) := by
  cases o with
  | none => exact g
  | some e => exact h e rfl

theorem Chip.skLatch_sameMem {c : Chip} {a0 a1 a2 a3} : SameMem c (Chip.skLatch c a0 a1 a2 a3) := by
  unfold Chip.skLatch
  extract_lets +onlyGivenNames -merge -useContext -underBinder x0 c1
  have h2 : SameMem c c1 := Chip.setSk_sameMem
  clear_value c1
  refine .foldl ?_ ?_
  · intro c3 x4 h5
    exact .ite (.of Chip.setBit_sameMem h5) h5
  · exact h2

theorem Chip.skShiftOut_sameMem {c : Chip} {a0 a1} : SameMem c (Chip.skShiftOut c a0 a1).2 := by
  unfold Chip.skShiftOut
  extract_lets +onlyGivenNames -merge -useContext -underBinder x0 c1
  have h2 : SameMem c c1 := Chip.setSkNo_sameMem
  clear_value c1
  exact .ite1 (.pair1 (.of Chip.setReg_sameMem h2)) (.pair1 (.of Chip.setReg_sameMem h2))

theorem Chip.skWaitOver_sameMem {c : Chip} {a0} : SameMem c (Chip.skWaitOver c a0) := by
  unfold Chip.skWaitOver
  exact .of Chip.skAdvance_sameMem (.of Chip.setBit_sameMem Chip.skUseClock_sameMem)

theorem Chip.windowIn_sameMem {c : Chip} {a0 a1} : SameMem c (Chip.windowIn c a0 a1) := by
  unfold Chip.windowIn
  exact .mk2 .refl rfl

theorem pfGrant_sameMem {c : Chip} {a0} : SameMem c (pfGrant c a0) := by
  unfold pfGrant
  extract_lets +onlyGivenNames -merge -useContext -underBinder x0
  exact .ite Chip.setPf_sameMem .refl

theorem skIn_sameMem {c : Chip} {a0 a1} : SameMem c (skIn c a0 a1) := by
  unfold skIn
  refine Chip.skInsn_sameMem ?_ Chip.windowIn_sameMem
  intro z1 z2 h0
  extract_lets +onlyGivenNames -merge -useContext -underBinder x3
  split
  · rename_i y4 y5 e6
    have h7 : SameMem c y5 := by
      refine .ofEq1 e6 ?_
      split
      · exact .pair1 h0
      · exact .pair1 h0
      · exact .pair1 h0
      · exact .pair1 h0
      · exact .of Chip.skShiftOut_sameMem h0
    extract_lets +onlyGivenNames -merge -useContext -underBinder x8 x9
    exact .of Chip.skAdvance_sameMem (.of Chip.setSkNi_sameMem (.of Chip.setReg_sameMem h7))

theorem skIrq_sameMem {c : Chip} {a0} : SameMem c (skIrq c a0) := by
  unfold skIrq
  refine Chip.skInsn_sameMem ?_ .refl
  intro z1 z2 h0
  extract_lets +onlyGivenNames -merge -useContext -underBinder x3
  refine .of Chip.skAdvance_sameMem ?_
  split
  · exact .of Chip.skFlag_sameMem h0
  · exact .of Chip.setBit_sameMem h0
  · exact .of Chip.skLine_sameMem h0
  · exact .of Chip.skCause_sameMem (.of Chip.setFld_sameMem h0)

theorem skJmp_sameMem {c : Chip} {a0 a1} : SameMem c (skJmp c a0 a1) := by
  unfold skJmp
  refine Chip.skInsn_sameMem ?_ Chip.windowIn_sameMem
  intro z1 z2 h0
  split
  · rename_i y3 y4 e5
    have h6 : SameMem c y4 := by
      refine .ofEq1 e5 ?_
      exact .of Chip.skCond_sameMem h0
    refine .ite (.of Chip.skAdvance_sameMem h6) ?_
    exact .ite (.of Chip.setSkPc_sameMem h6) (.of Chip.skIllegal_sameMem h0)

theorem skMov_sameMem {c : Chip} {a0 a1} : SameMem c (skMov c a0 a1) := by
  unfold skMov
  refine Chip.skInsn_sameMem ?_ Chip.windowIn_sameMem
  intro z1 z2 h0
  extract_lets +onlyGivenNames -merge -useContext -underBinder x3 x4
  split
  · exact .of Chip.skAdvance_sameMem (.of Chip.skLatch_sameMem h0)
  · exact .of Chip.skAdvance_sameMem (.of Chip.setReg_sameMem h0)
  · exact .of Chip.skAdvance_sameMem (.of Chip.setSkC_sameMem h0)
  · exact .of Chip.skAdvance_sameMem (.of Chip.setSkC_sameMem h0)
  · exact .of Chip.skAdvance_sameMem (.of Chip.setSkNi_sameMem (.of Chip.setReg_sameMem h0))
  · exact .of Chip.skAdvance_sameMem (.of Chip.setSkNo_sameMem (.of Chip.setReg_sameMem h0))
  · exact .ite (.of Chip.setSkPc_sameMem h0) (.of Chip.skIllegal_sameMem h0)

theorem skOut_sameMem {c : Chip} {a0} : SameMem c (skOut c a0) := by
  unfold skOut
  refine Chip.skInsn_sameMem ?_ .refl
  intro z1 z2 h0
  extract_lets +onlyGivenNames -merge -useContext -underBinder x3
  split
  · rename_i y4 y5 e6
    have h7 : SameMem c y5 := by
      refine .ofEq1 e6 ?_
      exact .of Chip.skShiftOut_sameMem h0
    extract_lets +onlyGivenNames -merge -useContext -underBinder x8 x9
    have h10 : ∀ z11, SameMem c (x9 z11) := by
      intro z11
      unfold x9
      extract_lets +onlyGivenNames -merge -useContext -underBinder x13
      exact .of Chip.skLatch_sameMem h7
    split
    · exact .of Chip.skAdvance_sameMem (h10 _)
    · exact .of Chip.skAdvance_sameMem (h10 _)
    · exact .of Chip.skAdvance_sameMem (.of Chip.setReg_sameMem h7)
    · exact .of Chip.skAdvance_sameMem h7
    · exact .of Chip.skAdvance_sameMem (.of Chip.setSkC_sameMem h7)
    · exact .of Chip.skAdvance_sameMem (.of Chip.setSkC_sameMem h7)
    · exact .ite (.of Chip.setSkPc_sameMem h7) (.of Chip.skIllegal_sameMem h0)

theorem skPull_sameMem {c : Chip} {n} : SameMem c (skPull c n) := by
  unfold skPull
  refine Chip.skInsn_sameMem (fun d _ h => ?_) .refl
  cases e : d.skPullNow n with
  | none => exact .of Chip.setBit_sameMem h
  | some x => exact h.trans (Chip.skPullNow_sameMem e)

theorem skPush_sameMem {c : Chip} {n} : SameMem c (skPush c n) := by
  unfold skPush
  refine Chip.skInsn_sameMem (fun d w h => ?_) .refl
  cases e : d.skPushNow n w with
  | none => exact .of Chip.setBit_sameMem h
  | some x => exact h.trans (Chip.skPushNow_sameMem e)

theorem skSet_sameMem {c : Chip} {a0} : SameMem c (skSet c a0) := by
  unfold skSet
  refine Chip.skInsn_sameMem ?_ .refl
  intro z1 z2 h0
  extract_lets +onlyGivenNames -merge -useContext -underBinder x3 x4
  refine .of Chip.skAdvance_sameMem ?_
  split
  · exact .of Chip.skLatch_sameMem h0
  · exact .of Chip.skLatch_sameMem h0
  · exact .of Chip.setSkC_sameMem h0
  · exact .of Chip.setSkC_sameMem h0
  · exact .of Chip.setReg_sameMem h0

theorem skStallRelease_sameMem {c : Chip} {n} : SameMem c (skStallRelease c n) := by
  unfold skStallRelease
  extract_lets w go
  have hg : SameMem c go := .of Chip.setBit_sameMem Chip.skUseClock_sameMem
  clear_value go
  refine .ite ?_ .refl
  have hx : ∀ d, (if nfld w 15 12 = 5 then go.skPullNow n else go.skPushNow n w) = some d → SameMem c d := by
    intro d hd
    split at hd
    · exact hg.trans (Chip.skPullNow_sameMem hd)
    · exact hg.trans (Chip.skPushNow_sameMem hd)
  cases e : if nfld w 15 12 = 5 then go.skPullNow n else go.skPushNow n w with
  | none => exact .refl
  | some d => exact hx d e

theorem skStamp_sameMem {c : Chip} {a0} : SameMem c (skStamp c a0) := by
  unfold skStamp
  refine Chip.skInsn_sameMem ?_ .refl
  intro z1 z2 h0
  extract_lets +onlyGivenNames -merge -useContext -underBinder x3 c4
  have h5 : SameMem c c4 := .of Chip.setReg64_sameMem h0
  clear_value c4
  refine .of Chip.skAdvance_sameMem ?_
  split
  · exact h5
  · exact .of Chip.setReg_sameMem h5
  · exact .of Chip.setSkNi_sameMem (.of Chip.setReg_sameMem h5)

theorem skWait_sameMem {c : Chip} {n v} : SameMem c (skWait c n v) := by
  unfold skWait
  refine Chip.skInsn_sameMem (fun d w h => ?_) Chip.windowIn_sameMem
  extract_lets start
  split
  · rename_i e
    exact .of Chip.skAdvance_sameMem (h.trans (Chip.skHolds_sameMem e))
  · exact .of Chip.setBit_sameMem (.of Chip.setSk_sameMem h)

theorem skWaitEnd_sameMem {c : Chip} {n v} : SameMem c (skWaitEnd c n v) := by
  unfold skWaitEnd
  extract_lets d
  have hd : SameMem c d := Chip.windowIn_sameMem
  clear_value d
  refine .ite ?_ hd
  split
  · rename_i e
    exact .of Chip.skWaitOver_sameMem (hd.trans (Chip.skHolds_sameMem e))
  · exact hd

theorem skWaitTimeout_sameMem {c : Chip} {n v} : SameMem c (skWaitTimeout c n v) := by
  unfold skWaitTimeout
  extract_lets d w
  have hd : SameMem c d := Chip.windowIn_sameMem
  clear_value w d
  refine .ite ?_ hd
  split
  · rename_i e
    exact .of Chip.skWaitOver_sameMem (hd.trans (Chip.skHolds_sameMem e))
  · split
    · exact .of Chip.skWaitOver_sameMem (.of Chip.setBit_sameMem hd)
    · exact hd

end Sys2Proof.Machine
end

