-- ==== Sys2Proof/Laws/KeepEvt.lean ====
section
/-!
SUPPORT. What each operation of Machine/Evt.lean does to memory: it changes no byte (`SameMem`), or keeps
the canonical form (`KeepsWf`).
-/
namespace Sys2Proof.Machine

theorem Chip.xdFlag_sameMem {c : Chip} {a0 a1} : SameMem c (Chip.xdFlag c a0 a1) := by
  unfold Chip.xdFlag
  exact Chip.flag_sameMem

theorem Chip.setXd_sameMem {c : Chip} {a0 a1} : SameMem c (Chip.setXd c a0 a1) := by
  unfold Chip.setXd
  extract_lets +onlyGivenNames -merge -useContext -underBinder x0
  exact .mk2 .refl rfl

theorem Chip.xdTrig_sameMem {c : Chip} {a0} : SameMem c (Chip.xdTrig c a0) := by
  unfold Chip.xdTrig
  extract_lets +onlyGivenNames -merge -useContext -underBinder x0
  exact .ite Chip.xdFlag_sameMem Chip.setXd_sameMem

theorem eventRaise_sameMem {c : Chip} {a0 a1} : SameMem c (eventRaise c a0 a1) := by
  unfold eventRaise
  exact .ite (.of Chip.done_sameMem Chip.raise_sameMem) Chip.refuse_sameMem

theorem Chip.setEvq_sameMem {c : Chip} {a0 a1} : SameMem c (Chip.setEvq c a0 a1) := by
  unfold Chip.setEvq
  extract_lets +onlyGivenNames -merge -useContext -underBinder x0
  exact .mk2 .refl rfl

theorem eventPop_sameMem {c : Chip} {a0 a1 a2} : SameMem c (eventPop c a0 a1 a2) := by
  unfold eventPop
  extract_lets +onlyGivenNames -merge -useContext -underBinder x0
  exact .ite (.of Chip.done_sameMem (.ite Chip.setEvq_sameMem .refl)) Chip.refuse_sameMem

theorem routeWrite_sameMem {c : Chip} {a0 a1 a2} : SameMem c (routeWrite c a0 a1 a2) := by
  unfold routeWrite
  exact .ite Chip.refuse_sameMem Chip.plainWrite_sameMem

theorem evtWrite_sameMem {c : Chip} {a0 a1 a2} : SameMem c (evtWrite c a0 a1 a2) := by
  unfold evtWrite
  extract_lets +onlyGivenNames -merge -useContext -underBinder x0
  exact .ite eventRaise_sameMem (.ite eventPop_sameMem (.ite routeWrite_sameMem Chip.plainWrite_sameMem))

theorem Chip.deliverTo_sameMem {c : Chip} {a0} : SameMem c (Chip.deliverTo c a0) := by
  unfold Chip.deliverTo
  split
  · extract_lets +onlyGivenNames -merge -useContext -underBinder x0
    exact .ite (.mk2 .refl rfl) Chip.setBit_sameMem
  · exact Chip.wakeLine_sameMem
  · exact Chip.wakeLine_sameMem
  · exact Chip.wakeLine_sameMem
  · exact Chip.xdTrig_sameMem
  · exact Chip.skLine_sameMem
  · exact .refl

theorem Chip.record_sameMem {c : Chip} {a0 a1} : SameMem c (Chip.record c a0 a1) := by
  unfold Chip.record
  extract_lets +onlyGivenNames -merge -useContext -underBinder x0
  exact .ite Chip.setEvq_sameMem (.of Chip.setBit_sameMem (.of Chip.inc_sameMem Chip.setEvq_sameMem))

theorem eventDelivery_sameMem {c : Chip} : SameMem c (eventDelivery c) := by
  unfold eventDelivery
  split
  · exact .refl
  · extract_lets +onlyGivenNames -merge -useContext -underBinder x0 c1
    have h2 : SameMem c c1 := .mk2 .refl rfl
    clear_value c1
    split
    · extract_lets +onlyGivenNames -merge -useContext -underBinder c3 c5
      have h4 : SameMem c c3 := .ite (.of Chip.deliverTo_sameMem h2) h2
      have h6 : SameMem c c5 := .ite (.of Chip.deliverTo_sameMem h4) h4
      clear_value c3 c5
      exact .ite (.of Chip.record_sameMem h6) h6

end Sys2Proof.Machine
end

