-- ==== Sys2Proof/Laws/KeepMot.lean ====
section
/-!
SUPPORT. What each operation of Machine/Mot.lean does to memory: it changes no byte (`SameMem`), or keeps
the canonical form (`KeepsWf`).
-/
namespace Sys2Proof.Machine

theorem Chip.axCause_sameMem {c : Chip} {a0 a1} : SameMem c (Chip.axCause c a0 a1) := by
  unfold Chip.axCause
  exact Chip.flag_sameMem

theorem Chip.axRefused_sameMem {c : Chip} {a0} : SameMem c (Chip.axRefused c a0) := by
  unfold Chip.axRefused
  exact .of Chip.done_sameMem Chip.axCause_sameMem

theorem Chip.setAx_sameMem {c : Chip} {a0 a1} : SameMem c (Chip.setAx c a0 a1) := by
  unfold Chip.setAx
  extract_lets +onlyGivenNames -merge -useContext -underBinder x0
  exact .mk2 .refl rfl

theorem axisCmdWrite_sameMem {c : Chip} {a0 a1 a2} : SameMem c (axisCmdWrite c a0 a1 a2) := by
  unfold axisCmdWrite
  extract_lets +onlyGivenNames -merge -useContext -underBinder x0 x1
  refine .ite Chip.refuse_sameMem ?_
  exact .ite Chip.axRefused_sameMem (.ite Chip.done_sameMem (.of Chip.done_sameMem Chip.setAx_sameMem))

theorem Chip.feedback_sameMem {c : Chip} {a0 a1} : SameMem c (Chip.feedback c a0 a1) := by
  unfold Chip.feedback
  extract_lets +onlyGivenNames -merge -useContext -underBinder x0 x1 c2
  have h3 : SameMem c c2 := Chip.setAx_sameMem
  clear_value c2
  split
  · exact h3
  · extract_lets +onlyGivenNames -merge -useContext -underBinder x4 x5
    exact .of Chip.setReg64_sameMem h3

theorem actinWrite_sameMem {c : Chip} {a0 a1} : SameMem c (actinWrite c a0 a1) := by
  unfold actinWrite
  exact .of Chip.done_sameMem (.ite Chip.feedback_sameMem .refl)

theorem rampCommit_sameMem {c : Chip} {a0 a1 a2 a3} : SameMem c (rampCommit c a0 a1 a2 a3) := by
  unfold rampCommit
  exact .ite Chip.axRefused_sameMem Chip.plainWrite_sameMem

theorem Chip.axisShift_sameMem {c : Chip} {a0 a1 a2} : SameMem c (Chip.axisShift c a0 a1 a2) := by
  unfold Chip.axisShift
  extract_lets +onlyGivenNames -merge -useContext -underBinder x0 x1
  exact .of Chip.setBit_sameMem Chip.setAx_sameMem

theorem phaseCommit_sameMem {c : Chip} {a0 a1 a2} : SameMem c (phaseCommit c a0 a1 a2) := by
  unfold phaseCommit
  extract_lets +onlyGivenNames -merge -useContext -underBinder c0 x2 c3
  have h1 : SameMem c c0 := Chip.plainWrite_sameMem
  have h4 : SameMem c c3 := .of Chip.setReg64_sameMem h1
  clear_value c0 c3
  refine .ite Chip.refuse_sameMem ?_
  exact .ite Chip.axRefused_sameMem (.of Chip.done_sameMem (.of Chip.axisShift_sameMem h4))

theorem setposCommit_sameMem {c : Chip} {a0 a1 a2} : SameMem c (setposCommit c a0 a1 a2) := by
  unfold setposCommit
  extract_lets +onlyGivenNames -merge -useContext -underBinder c0 x2 x3 x4 c5
  have h1 : SameMem c c0 := Chip.plainWrite_sameMem
  have h6 : SameMem c c5 := .of Chip.setAx_sameMem h1
  clear_value c0 c5
  refine .ite Chip.refuse_sameMem ?_
  refine .ite Chip.axRefused_sameMem ?_
  exact .of Chip.done_sameMem (.of Chip.setReg64_sameMem (.of Chip.setReg64_sameMem h6))

theorem axRegWrite_sameMem {c : Chip} {a0 a1 a2 a3} : SameMem c (axRegWrite c a0 a1 a2 a3) := by
  unfold axRegWrite
  extract_lets +onlyGivenNames -merge -useContext -underBinder x0
  refine .ite axisCmdWrite_sameMem ?_
  refine .ite actinWrite_sameMem ?_
  refine .ite Chip.plainWrite_sameMem ?_
  refine .ite Chip.refuse_sameMem ?_
  split
  · exact .ite Chip.axRefused_sameMem Chip.plainWrite_sameMem
  · exact rampCommit_sameMem
  · exact rampCommit_sameMem
  · exact phaseCommit_sameMem
  · exact setposCommit_sameMem
  · exact Chip.plainWrite_sameMem
  · extract_lets +onlyGivenNames -merge -useContext -underBinder x1
    exact Chip.plainWrite_sameMem
  · exact Chip.plainWrite_sameMem

theorem motWrite_sameMem {c : Chip} {a0 a1 a2} : SameMem c (motWrite c a0 a1 a2) := by
  unfold motWrite
  extract_lets +onlyGivenNames -merge -useContext -underBinder x0
  exact .ite axRegWrite_sameMem (.ite Chip.plainWrite_sameMem Chip.plainWrite_sameMem)

theorem Chip.camRead_sameMem {c : Chip} {a0} : SameMem c (Chip.camRead c a0).2 := by
  unfold Chip.camRead
  extract_lets +onlyGivenNames -merge -useContext -underBinder x0
  split
  · rename_i y1 y2 e3
    have h4 : SameMem c y2 := by
      refine .ofEq1 e3 ?_
      exact Chip.dmaRead_sameMem
    exact .pair1 h4
  · rename_i y5 e6
    have h7 : SameMem c y5 := by
      refine .ofEq1 e6 ?_
      exact Chip.dmaRead_sameMem
    extract_lets +onlyGivenNames -merge -useContext -underBinder x8
    exact .pair1 (.of Chip.freezeAt_sameMem (.mk2 h7 rfl))
  · rename_i y9 y10 o11 e12
    have h13 : SameMem c y10 := by
      refine .ofEq1 e12 ?_
      exact Chip.dmaRead_sameMem
    exact .pair1 h13

theorem motResolve_sameMem {c : Chip} {a0} : SameMem c (motResolve c a0) := by
  unfold motResolve
  extract_lets +onlyGivenNames -merge -useContext -underBinder x0 c1
  have h2 : SameMem c c1 := .mk2 .refl rfl
  clear_value c1
  split
  · exact .ite (.of Chip.camRead_sameMem h2) h2
  · exact h2

theorem Chip.camEntry_sameMem {c : Chip} {a0 a1 a2} : SameMem c (Chip.camEntry c a0 a1 a2).2 := by
  unfold Chip.camEntry
  refine .ite1 (.pair1 .refl) ?_
  split
  · rename_i y0 y1 e2
    have h3 : SameMem c y1 := by
      refine .ofEq1 e2 ?_
      exact Chip.camRead_sameMem
    exact .pair1 h3
  · rename_i y4 e5
    have h6 : SameMem c y4 := by
      refine .ofEq1 e5 ?_
      exact Chip.camRead_sameMem
    exact .pair1 h6

theorem Chip.camRise_sameMem {c : Chip} {a0 a1} : SameMem c (Chip.camRise c a0 a1).2 := by
  unfold Chip.camRise
  split
  · rename_i y0 e1
    have h2 : SameMem c y0 := by
      refine .ofEq1 e1 ?_
      exact Chip.camEntry_sameMem
    exact .pair1 h2
  · rename_i y3 y4 e5
    have h6 : SameMem c y4 := by
      refine .ofEq1 e5 ?_
      exact Chip.camEntry_sameMem
    split
    · rename_i y7 e8
      have h9 : SameMem c y7 := by
        refine .ofEq1 e8 ?_
        exact .of Chip.camEntry_sameMem h6
      exact .pair1 h9
    · rename_i y10 y11 e12
      have h13 : SameMem c y11 := by
        refine .ofEq1 e12 ?_
        exact .of Chip.camEntry_sameMem h6
      exact .pair1 h13

theorem Chip.camAt_sameMem {c : Chip} {a0 a1 a2} : SameMem c (Chip.camAt c a0 a1 a2).2 := by
  unfold Chip.camAt
  extract_lets +onlyGivenNames -merge -useContext -underBinder x0 x1 x2
  split
  · rename_i y3 e4
    have h5 : SameMem c y3 := by
      refine .ofEq1 e4 ?_
      exact Chip.camEntry_sameMem
    exact .pair1 h5
  · rename_i y6 y7 e8
    have h9 : SameMem c y7 := by
      refine .ofEq1 e8 ?_
      exact Chip.camEntry_sameMem
    split
    · rename_i y10 e11
      have h12 : SameMem c y10 := by
        refine .ofEq1 e11 ?_
        exact .of Chip.camEntry_sameMem h9
      exact .pair1 h12
    · rename_i y13 y14 e15
      have h16 : SameMem c y14 := by
        refine .ofEq1 e15 ?_
        exact .of Chip.camEntry_sameMem h9
      extract_lets +onlyGivenNames -merge -useContext -underBinder x17
      exact .pair1 h16

theorem Chip.shaftTerm_sameMem {c : Chip} {a0 a1} : SameMem c (Chip.shaftTerm c a0 a1).2 := by
  unfold Chip.shaftTerm
  extract_lets +onlyGivenNames -merge -useContext -underBinder x0
  split
  · extract_lets +onlyGivenNames -merge -useContext -underBinder x1 x2 x3 x4 x5 x6 x7 x8 x9 x10
    refine .ite1 (.pair1 .refl) ?_
    split
    · rename_i y11 y12 e13
      have h14 : SameMem c y12 := by
        refine .ofEq1 e13 ?_
        exact .ite1 (.pair1 .refl) Chip.camRise_sameMem
      split
      · exact .pair1 h14
      · split
        · rename_i y15 e16
          have h17 : SameMem c y15 := by
            refine .ofEq1 e16 ?_
            exact .of Chip.camAt_sameMem h14
          exact .pair1 h17
        · rename_i y18 y19 y20 e21
          have h22 : SameMem c y20 := by
            refine .ofEq1 e21 ?_
            exact .of Chip.camAt_sameMem h14
          extract_lets +onlyGivenNames -merge -useContext -underBinder x23
          exact .pair1 h22

theorem Chip.axisAt_sameMem {c : Chip} {a0 a1} : SameMem c (Chip.axisAt c a0 a1).2 := by
  unfold Chip.axisAt
  extract_lets +onlyGivenNames -merge -useContext -underBinder x0 x1
  refine .ite1 (.pair1 .refl) ?_
  split
  · rename_i y2 e3
    have h4 : SameMem c y2 := by
      refine .ofEq1 e3 ?_
      exact Chip.shaftTerm_sameMem
    exact .pair1 h4
  · rename_i y5 y6 e7
    have h8 : SameMem c y6 := by
      refine .ofEq1 e7 ?_
      exact Chip.shaftTerm_sameMem
    exact .pair1 h8

theorem Chip.setAxState_sameMem {c : Chip} {a0 a1} : SameMem c (Chip.setAxState c a0 a1) := by
  unfold Chip.setAxState
  exact Chip.setFld_sameMem

theorem Chip.axisEnds_sameMem {c : Chip} {a0 a1} : SameMem c (Chip.axisEnds c a0 a1) := by
  unfold Chip.axisEnds
  extract_lets +onlyGivenNames -merge -useContext -underBinder x0 x1 c2
  have h3 : SameMem c c2 := .ite .refl (.of Chip.setAx_sameMem Chip.setReg64_sameMem)
  clear_value c2
  refine .ite .refl ?_
  refine .ite (.ite .refl (.of Chip.axCause_sameMem (.of Chip.setBit_sameMem h3))) ?_
  exact .ite (.of Chip.axCause_sameMem Chip.setAxState_sameMem) .refl

theorem Chip.feedbackAt_sameMem {c : Chip} {a0} : SameMem c (Chip.feedbackAt c a0) := by
  unfold Chip.feedbackAt
  extract_lets +onlyGivenNames -merge -useContext -underBinder x0
  split
  · exact Chip.feedback_sameMem
  · refine .ite ?_ .refl
    split
    · rename_i y1 y2 e3
      have h4 : SameMem c y2 := by
        refine .ofEq1 e3 ?_
        exact Chip.pfPop_sameMem
      exact .of Chip.feedback_sameMem h4
    · rename_i y5 e6
      have h7 : SameMem c y5 := by
        refine .ofEq1 e6 ?_
        exact Chip.pfPop_sameMem
      exact .refl
  · exact .refl

theorem Chip.axisTake_sameMem {c : Chip} {a0 a1} : SameMem c (Chip.axisTake c a0 a1) := by
  unfold Chip.axisTake
  extract_lets +onlyGivenNames -merge -useContext -underBinder x0 c1 c3 c5
  have h2 : SameMem c c1 := Chip.setAx_sameMem
  have h4 : SameMem c c3 := .of Chip.setReg64_sameMem h2
  have h6 : SameMem c c5 := .of Chip.setReg64_sameMem h4
  clear_value c1 c3 c5
  exact .of Chip.setBit_sameMem h6

theorem Chip.deviation_sameMem {c : Chip} {a0} : SameMem c (Chip.deviation c a0).2 := by
  unfold Chip.deviation
  extract_lets +onlyGivenNames -merge -useContext -underBinder x0 x1 x2 x3 x4 c5 x7
  have h6 : SameMem c c5 := Chip.setReg_sameMem
  clear_value c5
  exact .ite1 (.pair1 .refl) (.pair1 (.of Chip.setAx_sameMem h6))

theorem Chip.axisStop_sameMem {c : Chip} {a0 a1 a2} : SameMem c (Chip.axisStop c a0 a1 a2) := by
  unfold Chip.axisStop
  extract_lets +onlyGivenNames -merge -useContext -underBinder x0 x1 x2 x3 c4 c6
  have h5 : SameMem c c4 := Chip.setAx_sameMem
  have h7 : SameMem c c6 := .of Chip.setReg64_sameMem h5
  clear_value c4 c6
  exact .ite (.of Chip.setFld_sameMem h7) h7

theorem Chip.axisFault_sameMem {c : Chip} {a0 a1 a2 a3} : SameMem c (Chip.axisFault c a0 a1 a2 a3) := by
  unfold Chip.axisFault
  extract_lets +onlyGivenNames -merge -useContext -underBinder x0 c1 c3 x5
  have h2 : SameMem c c1 := .ite .refl Chip.axisStop_sameMem
  have h4 : SameMem c c3 := .of Chip.setFld_sameMem (.of Chip.setAxState_sameMem h2)
  clear_value c1 c3
  exact .ite .refl (.of Chip.axCause_sameMem (.of Chip.setAx_sameMem h4))

theorem Chip.axisBegin_sameMem {c : Chip} {a0 a1} : SameMem c (Chip.axisBegin c a0 a1) := by
  unfold Chip.axisBegin
  extract_lets +onlyGivenNames -merge -useContext -underBinder c0 x2
  have h1 : SameMem c c0 := .of Chip.axisEnds_sameMem (.of Chip.feedbackAt_sameMem Chip.axisTake_sameMem)
  clear_value c0
  refine .ite .refl ?_
  split
  · rename_i y3 y4 e5
    have h6 : SameMem c y4 := by
      refine .ofEq1 e5 ?_
      exact .of Chip.deviation_sameMem h1
    refine .ite (.of Chip.axisFault_sameMem h6) ?_
    exact .ite (.of Chip.axisFault_sameMem h6) (.ite (.of Chip.axisFault_sameMem h6) h6)

theorem Chip.axisEngage_sameMem {c : Chip} {a0 a1 a2 a3 a4} : SameMem c (Chip.axisEngage c a0 a1 a2 a3 a4) := by
  unfold Chip.axisEngage
  extract_lets +onlyGivenNames -merge -useContext -underBinder x0 x1 x2 x3 c4 c6
  have h5 : SameMem c c4 := .of Chip.setAxState_sameMem (.of Chip.setFld_sameMem Chip.setAx_sameMem)
  have h7 : SameMem c c6 := .ite h5 (.of Chip.setReg64_sameMem h5)
  clear_value c4 c6
  split
  · rename_i y8 e9
    have h10 : SameMem c y8 := by
      refine .ofEq1 e9 ?_
      exact .of Chip.shaftTerm_sameMem h7
    exact .of Chip.axisFault_sameMem h10
  · rename_i y11 y12 e13
    have h14 : SameMem c y12 := by
      refine .ofEq1 e13 ?_
      exact .of Chip.shaftTerm_sameMem h7
    extract_lets +onlyGivenNames -merge -useContext -underBinder x15
    exact .of Chip.setAx_sameMem h14

theorem Chip.axisCommand_sameMem {c : Chip} {n u k} : SameMem c (Chip.axisCommand c n u k) := by
  unfold Chip.axisCommand
  extract_lets st w refused planned _ p x
  have hr : SameMem c refused := Chip.axCause_sameMem
  have hp : ∀ f, (∀ m d, SameMem c d → SameMem c (f m d)) → SameMem c (planned f) := by
    intro f hf
    unfold planned
    split
    · rename_i e
      exact hf _ _ (.ofEq1 e Chip.axisAt_sameMem)
    · rename_i e
      exact .of Chip.axisFault_sameMem (.ofEq1 e Chip.axisAt_sameMem)
  clear_value planned refused
  refine .ite (.ite (.of Chip.setAxState_sameMem Chip.setAx_sameMem) hr) ?_
  refine .ite (.ite Chip.setAxState_sameMem hr) ?_
  refine .ite (.ite (hp _ ?_) hr) ?_
  · intro m d h
    dsimp only
    split
    · exact .of Chip.setReg64_sameMem (.of Chip.setAxState_sameMem (.of Chip.setAx_sameMem h))
    · exact .of Chip.setAxState_sameMem (.of Chip.setAx_sameMem h)
  refine .ite (.ite (hp _ ?_) hr) ?_
  · intro m d h
    exact .of Chip.setAxState_sameMem (.of Chip.setAx_sameMem h)
  refine .ite (.ite (hp _ fun m d h => .of Chip.axisEngage_sameMem h) hr) ?_
  refine .ite (.ite (hp _ fun m d h => .of Chip.setAxState_sameMem (.of Chip.axisStop_sameMem h)) hr) ?_
  refine .ite (.ite (.of Chip.setFld_sameMem Chip.setAxState_sameMem) hr) ?_
  exact .ite (.ite Chip.setBit_sameMem hr) .refl

theorem Chip.axisCommands_sameMem {c : Chip} {n u ks} : SameMem c (Chip.axisCommands c n u ks) := by
  induction ks generalizing c with
  | nil => exact .refl
  | cons k ks ih =>
    unfold Chip.axisCommands
    exact .ite (.of ih Chip.axisCommand_sameMem) (.of ih Chip.setAx_sameMem)

theorem Chip.axisStream_sameMem {c : Chip} {a0} : SameMem c (Chip.axisStream c a0) := by
  unfold Chip.axisStream
  extract_lets +onlyGivenNames -merge -useContext -underBinder x0 c1 x3 x4 c5
  have h2 : SameMem c c1 := Chip.setAx_sameMem
  have h6 : SameMem c c5 := .of Chip.feedPush_sameMem h2
  clear_value c1 c5
  exact .ite (.ite (.ite (.of Chip.axCause_sameMem h6) h6) Chip.setAx_sameMem) .refl

theorem Chip.passEnd_sameMem {c : Chip} {a0 a1} : SameMem c (Chip.passEnd c a0 a1).2 := by
  unfold Chip.passEnd
  extract_lets +onlyGivenNames -merge -useContext -underBinder x0 x1
  refine .ite1 ?_ (.pair1 .refl)
  split
  · rename_i y2 e3
    have h4 : SameMem c y2 := by
      refine .ofEq1 e3 ?_
      exact Chip.camRise_sameMem
    exact .pair1 h4
  · rename_i y5 y6 e7
    have h8 : SameMem c y6 := by
      refine .ofEq1 e7 ?_
      exact Chip.camRise_sameMem
    exact .pair1 (.of Chip.axCause_sameMem (.of Chip.setBit_sameMem (.of Chip.setReg64_sameMem h8)))

theorem Chip.axisNext_sameMem {c : Chip} {a0 a1} : SameMem c (Chip.axisNext c a0 a1) := by
  unfold Chip.axisNext
  extract_lets +onlyGivenNames -merge -useContext -underBinder x0
  have h1 : ∀ z2, SameMem c z2 → SameMem c (x0 z2) := by
    intro z2 h3
    unfold x0
    extract_lets +onlyGivenNames -merge -useContext -underBinder c4 x6
    have h5 : SameMem c c4 := .of Chip.axisFault_sameMem h3
    clear_value c4
    exact .of Chip.setAx_sameMem h5
  split
  · rename_i y7 e8
    have h9 : SameMem c y7 := by
      refine .ofEq1 e8 ?_
      exact Chip.passEnd_sameMem
    exact h1 _ h9
  · rename_i y10 y11 e12
    have h13 : SameMem c y11 := by
      refine .ofEq1 e12 ?_
      exact Chip.passEnd_sameMem
    split
    · rename_i y14 e15
      have h16 : SameMem c y14 := by
        refine .ofEq1 e15 ?_
        exact .of Chip.axisAt_sameMem h13
      exact h1 _ h16
    · rename_i y17 y18 e19
      have h20 : SameMem c y18 := by
        refine .ofEq1 e19 ?_
        exact .of Chip.axisAt_sameMem h13
      extract_lets +onlyGivenNames -merge -useContext -underBinder x21
      exact .of Chip.setAx_sameMem h20

theorem Chip.axisInstant_sameMem {c : Chip} {a0 a1} : SameMem c (Chip.axisInstant c a0 a1) := by
  unfold Chip.axisInstant
  extract_lets +onlyGivenNames -merge -useContext -underBinder c0 x2 c3 x5 c6
  have h1 : SameMem c c0 := Chip.axisBegin_sameMem
  have h4 : SameMem c c3 := .ite (.of Chip.axisFault_sameMem h1) h1
  have h7 : SameMem c c6 := .of Chip.axisCommands_sameMem (.of Chip.setAx_sameMem h4)
  clear_value c0 c3 c6
  exact .ite .refl (.of Chip.axisStream_sameMem (.of Chip.axisNext_sameMem h7))

theorem camStep_sameMem {c : Chip} {a0 a1} : SameMem c (camStep c a0 a1) := by
  unfold camStep
  extract_lets +onlyGivenNames -merge -useContext -underBinder x0 x1 x2
  refine .ite .refl ?_
  refine .ite (.ite Chip.axCause_sameMem (.of Chip.axisNext_sameMem (.of Chip.setBit_sameMem Chip.setAx_sameMem))) ?_
  refine .ite ?_ .refl
  split
  · rename_i y3 e4
    have h5 : SameMem c y3 := by
      refine .ofEq1 e4 ?_
      exact Chip.shaftTerm_sameMem
    exact .of Chip.axisNext_sameMem (.of Chip.axisFault_sameMem h5)
  · rename_i y6 y7 e8
    have h9 : SameMem c y7 := by
      refine .ofEq1 e8 ?_
      exact Chip.shaftTerm_sameMem
    extract_lets +onlyGivenNames -merge -useContext -underBinder x10 c11
    have h12 : SameMem c c11 := .of Chip.setFld_sameMem (.of Chip.setBit_sameMem (.of Chip.setAx_sameMem h9))
    clear_value c11
    split
    · rename_i y13 e14
      have h15 : SameMem c y13 := by
        refine .ofEq1 e14 ?_
        exact .of Chip.shaftTerm_sameMem h12
      exact .of Chip.axisNext_sameMem (.of Chip.axisFault_sameMem h15)
    · rename_i y16 y17 e18
      have h19 : SameMem c y17 := by
        refine .ofEq1 e18 ?_
        exact .of Chip.shaftTerm_sameMem h12
      exact .of Chip.axisNext_sameMem (.of Chip.axisShift_sameMem h19)

theorem Chip.setStepGen_sameMem {c : Chip} {a0 a1} : SameMem c (Chip.setStepGen c a0 a1) := by
  unfold Chip.setStepGen
  extract_lets +onlyGivenNames -merge -useContext -underBinder x0
  exact .mk2 .refl rfl

theorem axisFaultDue_sameMem {c : Chip} {a0 a1} : SameMem c (axisFaultDue c a0 a1) := by
  unfold axisFaultDue
  split
  · exact .refl
  · extract_lets +onlyGivenNames -merge -useContext -underBinder c0
    have h1 : SameMem c c0 := Chip.axisBegin_sameMem
    clear_value c0
    exact .ite h1 .refl

theorem motionInstant_sameMem {c : Chip} : SameMem c (motionInstant c) := by
  unfold motionInstant
  split
  · exact .refl
  · extract_lets +onlyGivenNames -merge -useContext -underBinder c0 x5
    have h1 : SameMem c c0 := by
      refine .foldl ?_ ?_
      · intro c2 x3 h4
        exact .of Chip.axisInstant_sameMem h4
      · exact .refl
    clear_value c0
    exact .mk2 h1 rfl

theorem quadIndex_sameMem {c : Chip} {a0 a1 a2} : SameMem c (quadIndex c a0 a1 a2) := by
  unfold quadIndex
  extract_lets +onlyGivenNames -merge -useContext -underBinder x0 x1 c2
  have h3 : SameMem c c2 := .mk2 .refl rfl
  clear_value c2
  exact .ite .refl (.ite (.of Chip.setBit_sameMem (.of Chip.setReg_sameMem h3)) h3)

theorem quadTransition_sameMem {c : Chip} {a0 a1 a2 a3} : SameMem c (quadTransition c a0 a1 a2 a3) := by
  unfold quadTransition
  extract_lets +onlyGivenNames -merge -useContext -underBinder x0 x1 x7 c8 c10
  have h2 : ∀ z3 z4, SameMem c z3 → SameMem c (x1 z3 z4) := by
    intro z3 z4 h5
    unfold x1
    extract_lets +onlyGivenNames -merge -useContext -underBinder x6
    exact .mk2 h5 rfl
  have h9 : SameMem c c8 := h2 _ _ .refl
  have h11 : SameMem c c10 := .of Chip.setReg_sameMem h9
  clear_value c8 c10
  refine .ite .refl ?_
  refine .ite (.of Chip.setBit_sameMem (h2 _ _ .refl)) ?_
  split
  · exact .ite (.of Chip.setBit_sameMem h11) h11
  · exact h11

theorem stepPulse_sameMem {c : Chip} {a0} : SameMem c (stepPulse c a0) := by
  unfold stepPulse
  refine .ite .refl ?_
  split
  · exact Chip.setReg_sameMem
  · extract_lets +onlyGivenNames -merge -useContext -underBinder x0 c1 x3 x4 x5 x6 x7 x11 c12
    have h2 : SameMem c c1 := Chip.setStepGen_sameMem
    have h8 : ∀ z9, SameMem c z9 → SameMem c (x7 z9) := by
      intro z9 h10
      unfold x7
      exact .ite (.of Chip.axCause_sameMem (.of Chip.setBit_sameMem h10)) h10
    have h13 : SameMem c c12 := h8 _ (.of Chip.setReg_sameMem (.of Chip.setStepGen_sameMem h2))
    clear_value c1 c12
    exact .ite h2 (.ite (.of Chip.setReg_sameMem (h8 _ h2)) (.of Chip.setReg_sameMem h13))

end Sys2Proof.Machine
end

