-- ==== Sys2Proof/Laws/KeepMem.lean ====
section
/-!
SUPPORT. What each operation of Machine/Mem.lean does to memory: it changes no byte (`SameMem`), or keeps
the canonical form (`KeepsWf`).
-/
namespace Sys2Proof.Machine

theorem Chip.marchRun_sameMem {c : Chip} {a0} : SameMem c (Chip.marchRun c a0) := by
  unfold Chip.marchRun
  split
  · extract_lets +onlyGivenNames -merge -useContext -underBinder x0
    exact .of Chip.freezeAt_sameMem (.mk2 .refl rfl)
  · extract_lets +onlyGivenNames -merge -useContext -underBinder x1
    exact .mk2 .refl rfl

theorem marchCtlWrite_sameMem {c : Chip} {a0 a1} : SameMem c (marchCtlWrite c a0 a1) := by
  unfold marchCtlWrite
  extract_lets +onlyGivenNames -merge -useContext -underBinder x0 x1 x2 x3 c4 c9
  have h5 : SameMem c c4 := by
    refine .foldl ?_ ?_
    · intro c6 x7 h8
      exact .of Chip.setBit_sameMem h8
    · exact .refl
  have h10 : SameMem c c9 := by
    refine .foldl ?_ ?_
    · intro c11 x12 h13
      exact .of Chip.setFld_sameMem h13
    · exact h5
  clear_value c4 c9
  refine .ite Chip.refuse_sameMem ?_
  refine .ite (.of Chip.done_sameMem (.of Chip.marchRun_sameMem (.of Chip.setReg_sameMem h10))) ?_
  exact .of Chip.done_sameMem Chip.setReg_sameMem

theorem bankOwnerWrite_sameMem {c : Chip} {a0 a1 a2} : SameMem c (bankOwnerWrite c a0 a1 a2) := by
  unfold bankOwnerWrite
  extract_lets +onlyGivenNames -merge -useContext -underBinder x0
  exact .ite (.of Chip.done_sameMem (.mk2 .refl rfl)) Chip.refuse_sameMem

theorem lockWrite_sameMem {c : Chip} {a0 a1 a2} : SameMem c (lockWrite c a0 a1 a2) := by
  unfold lockWrite
  extract_lets +onlyGivenNames -merge -useContext -underBinder x0
  exact .ite (.of Chip.done_sameMem Chip.setReg_sameMem) (.of Chip.refuse_sameMem Chip.memCause_sameMem)

theorem memRegWrite_sameMem {c : Chip} {a0 a1 a2} : SameMem c (memRegWrite c a0 a1 a2) := by
  unfold memRegWrite
  extract_lets +onlyGivenNames -merge -useContext -underBinder x0 x1 x2
  refine .ite (.of Chip.done_sameMem (.mk2 .refl rfl)) ?_
  refine .ite (.of Chip.done_sameMem (.mk2 .refl rfl)) ?_
  refine .ite marchCtlWrite_sameMem ?_
  exact .ite bankOwnerWrite_sameMem (.ite lockWrite_sameMem Chip.plainWrite_sameMem)

theorem Chip.marchEnds_keepsWf {c : Chip} {a0} : KeepsWf c (Chip.marchEnds c a0) := by
  unfold Chip.marchEnds
  extract_lets +onlyGivenNames -merge -useContext -underBinder x0 c1 c3 c5
  have h2 : KeepsWf c c1 := .mk2 .refl rfl
  have h4 : KeepsWf c c3 := .ite (.of Chip.mramWrite_keepsWf (.of Chip.mramWrite_keepsWf h2)) h2
  have h6 : KeepsWf c c5 := .ite (.of Chip.setBit_sameMem.keeps h4) h4
  clear_value c1 c3 c5
  exact .of Chip.memCause_sameMem.keeps (.of Chip.setBit_sameMem.keeps (.of Chip.setBit_sameMem.keeps h6))

theorem marchResolve_keepsWf {c : Chip} {a0} : KeepsWf c (marchResolve c a0) := by
  unfold marchResolve
  split
  · exact .refl
  · split
    · exact .refl
    · refine .ite Chip.marchRun_sameMem.keeps ?_
      exact .ite (.of Chip.marchRun_sameMem.keeps Chip.setBit_sameMem.keeps) Chip.marchEnds_keepsWf

theorem Chip.ceMended_sameMem {c : Chip} {a0} : SameMem c (Chip.ceMended c a0) := by
  unfold Chip.ceMended
  extract_lets +onlyGivenNames -merge -useContext -underBinder x0
  exact .mk2 .refl rfl

theorem Chip.atomicAt_keepsWf {c : Chip} {a0 a1 a2 a3} : KeepsWf c (Chip.atomicAt c a0 a1 a2 a3).2 := by
  unfold Chip.atomicAt
  split
  · rename_i y0 y1 e2
    have h3 : KeepsWf c y1 := by
      refine .ofEq1 e2 ?_
      exact Chip.memRead_sameMem.keeps
    exact .pair1 h3
  · rename_i y4 y5 e6
    have h7 : KeepsWf c y5 := by
      refine .ofEq1 e6 ?_
      exact Chip.memRead_sameMem.keeps
    extract_lets +onlyGivenNames -merge -useContext -underBinder x8 x9
    split
    · rename_i y10 y11 e12
      have h13 : KeepsWf c y11 := by
        refine .ofEq1 e12 ?_
        exact .of Chip.memWrite_keepsWf (.of Chip.ceMended_sameMem.keeps h7)
      exact .pair1 (.of Chip.memWrite_keepsWf h7)
    · rename_i y14 e15
      have h16 : KeepsWf c y14 := by
        refine .ofEq1 e15 ?_
        exact .of Chip.memWrite_keepsWf (.of Chip.ceMended_sameMem.keeps h7)
      exact .pair1 h16

theorem atomicRead_keepsWf {c : Chip} {a0 a1} : KeepsWf c (atomicRead c a0 a1) := by
  unfold atomicRead
  extract_lets +onlyGivenNames -merge -useContext -underBinder x0 x1
  refine .ite ?_ (.of Chip.refuse_sameMem.keeps Chip.memCause_sameMem.keeps)
  split
  · rename_i y2 y3 e4
    have h5 : KeepsWf c y3 := by
      refine .ofEq1 e4 ?_
      exact Chip.atomicAt_keepsWf
    exact .of Chip.answer_sameMem.keeps h5
  · rename_i y6 y7 e8
    have h9 : KeepsWf c y7 := by
      refine .ofEq1 e8 ?_
      exact Chip.atomicAt_keepsWf
    exact .of Chip.answer_sameMem.keeps h9

theorem lockRead_sameMem {c : Chip} {a0 a1} : SameMem c (lockRead c a0 a1) := by
  unfold lockRead
  extract_lets +onlyGivenNames -merge -useContext -underBinder x0
  exact .ite (.of Chip.answer_sameMem Chip.setReg_sameMem) Chip.answer_sameMem

theorem Chip.spareRow_sameMem {c : Chip} {a0 a1 a2} : SameMem c (Chip.spareRow c a0 a1 a2).2 := by
  unfold Chip.spareRow
  extract_lets +onlyGivenNames -merge -useContext -underBinder x0
  split
  · extract_lets +onlyGivenNames -merge -useContext -underBinder x1
    exact .pair1 (.mk2 .refl rfl)
  · exact .pair1 .refl

theorem Chip.marchBank_keepsWf {c : Chip} {r x} : KeepsWf c (Chip.marchBank c r x) := by
  unfold Chip.marchBank
  extract_lets b c0 here
  refine .ite .refl ?_
  have h0 : KeepsWf c c0 := .of Chip.setFld_sameMem.keeps (.ite Chip.wordsRead_sameMem.keeps .refl)
  clear_value c0
  split
  rename_i ok c1 e
  have h1 : KeepsWf c c1 := by
    refine .ofEq1 e (.ite1 ?_ h0)
    refine .foldl1 ?_ h0
    intro q row h
    exact .of Chip.spareRow_sameMem.keeps h
  clear e
  extract_lets c2
  have h2 : KeepsWf c c2 :=
    .ite (.of Chip.setBit_sameMem.keeps h1) (.ite h1 (.of Chip.memCause_sameMem.keeps (.of Chip.setBit_sameMem.keeps h1)))
  clear_value c2
  refine .ite (.mk2 h2 rfl) (h2.trans ⟨wf_filter rfl fun e _ hp hu => ?_⟩)
  unfold Chip.undefRun at hu ⊢
  split at hu
  · rename_i b' he
    have hb : b' ≠ b := by
      rintro rfl
      simp [here, he] at hp
    simpa only [tblGet_set_other 0 0 _ _ hb] using hu
  · exact absurd rfl hu

theorem marchDone_keepsWf {c : Chip} {a0} : KeepsWf c (marchDone c a0) := by
  unfold marchDone
  split
  · exact .refl
  · refine .ite .refl ?_
    refine .of Chip.marchEnds_keepsWf ?_
    refine .foldl ?_ ?_
    · intro c0 x1 h2
      exact .of Chip.marchBank_keepsWf h2
    · exact .refl

theorem Chip.ownerTakes_sameMem {c : Chip} {a0} : SameMem c (Chip.ownerTakes c a0).2 := by
  unfold Chip.ownerTakes
  split
  · exact .pair1 .refl
  · extract_lets +onlyGivenNames -merge -useContext -underBinder x0 c1
    have h2 : SameMem c c1 := .mk2 .refl rfl
    clear_value c1
    exact .pair1 (.of Chip.setFld_sameMem h2)

theorem Chip.ueFound_sameMem {c : Chip} {a0} : SameMem c (Chip.ueFound c a0) := by
  unfold Chip.ueFound
  split
  · exact Chip.ueErr_sameMem
  · exact .refl

theorem Chip.scrubBank_sameMem {c : Chip} {a0 a1} : SameMem c (Chip.scrubBank a0 c a1) := by
  unfold Chip.scrubBank
  extract_lets +onlyGivenNames -merge -useContext -underBinder x0 x1 c2
  have h3 : SameMem c c2 := .ite (.of Chip.memCause_sameMem (.of Chip.inc_sameMem (.mk2 .refl rfl))) .refl
  clear_value c2
  exact .of Chip.ueFound_sameMem h3

theorem loadRepairMap_sameMem {c : Chip} : SameMem c (loadRepairMap c) := by
  unfold loadRepairMap
  extract_lets good apply first second
  have ha : ∀ d a, SameMem c d → SameMem c (apply d a) := by
    intro d a h
    refine .foldl (fun e b g => .of Chip.setBit_sameMem g) ?_
    exact .of (.mk2 .refl rfl) (.of Chip.setBit_sameMem h)
  have h1 : SameMem c first := Chip.mramRead_sameMem
  have h2 : SameMem c second := .of Chip.mramRead_sameMem h1
  clear_value apply first second
  exact .ite (ha _ _ h1) (.ite (ha _ _ h2) (.of Chip.setBit_sameMem h2))

theorem scrubLine_sameMem {c : Chip} : SameMem c (scrubLine c) := by
  unfold scrubLine
  extract_lets +onlyGivenNames -merge -useContext -underBinder x0 c1 x6
  have h2 : SameMem c c1 := by
    refine .foldl ?_ ?_
    · intro c3 x4 h5
      exact .of Chip.scrubBank_sameMem h5
    · exact .refl
  clear_value c1
  exact .ite (.mk2 h2 rfl) .refl

end Sys2Proof.Machine
end

