-- ==== Sys2Proof/Laws/KeepTsk.lean ====
section
/-!
SUPPORT. What each operation of Machine/Tsk.lean does to memory: it changes no byte (`SameMem`), or keeps
the canonical form (`KeepsWf`).
-/
namespace Sys2Proof.Machine

theorem Chip.tskCause_sameMem {c : Chip} {a0} : SameMem c (Chip.tskCause c a0) := by
  unfold Chip.tskCause
  exact Chip.flag_sameMem

theorem Chip.frameFault_sameMem {c : Chip} {a0} : SameMem c (Chip.frameFault c a0) := by
  unfold Chip.frameFault
  exact .of Chip.tskCause_sameMem Chip.inc_sameMem

theorem Chip.releaseRefused_sameMem {c : Chip} {a0} : SameMem c (Chip.releaseRefused c a0) := by
  unfold Chip.releaseRefused
  refine .foldl ?_ ?_
  · intro c0 x1 h2
    exact .ite (.of Chip.frameFault_sameMem h2) h2
  · exact Chip.setFld_sameMem

theorem Chip.ioWrite_keepsWf {c : Chip} {a0 a1} : KeepsWf c (Chip.ioWrite c a0 a1) := by
  unfold Chip.ioWrite
  exact Chip.dmaWrite_keepsWf

theorem Chip.forceWrite_keepsWf {c : Chip} {a0} : KeepsWf c (Chip.forceWrite c a0) := by
  unfold Chip.forceWrite
  exact Chip.ioWrite_keepsWf

theorem Chip.writeForces_keepsWf {c : Chip} : KeepsWf c (Chip.writeForces c) := by
  unfold Chip.writeForces
  refine .foldl ?_ ?_
  · intro c0 x1 h2
    exact .ite (.of Chip.forceWrite_keepsWf h2) h2
  · exact .refl

theorem Chip.release1_keepsWf {c : Chip} {a0} : KeepsWf c (Chip.release1 c a0).2 := by
  unfold Chip.release1
  split
  · extract_lets +onlyGivenNames -merge -useContext -underBinder c0 x2 c3 c5 x7
    have h1 : KeepsWf c c0 := Chip.writeForces_keepsWf
    have h4 : KeepsWf c c3 := .of Chip.setCtx_sameMem.keeps h1
    have h6 : KeepsWf c c5 := .of Chip.setBit_sameMem.keeps h4
    clear_value c0 c3 c5
    exact .ite1 (.pair1 .refl) (.ite1 (.pair1 Chip.releaseRefused_sameMem.keeps) (.pair1 (.mk2 h6 rfl)))

theorem Chip.setTskMode_keepsWf {c : Chip} {a0} : KeepsWf c (Chip.setTskMode c a0) := by
  unfold Chip.setTskMode
  extract_lets +onlyGivenNames -merge -useContext -underBinder c0
  have h1 : KeepsWf c c0 := .of Chip.tskCause_sameMem.keeps (.of Chip.setFld_sameMem.keeps Chip.setFld_sameMem.keeps)
  clear_value c0
  refine .ite ?_ (.mk2 h1 rfl)
  split
  · rename_i y3 e4
    have h5 : KeepsWf c y3 := by
      refine .ofEq1 e4 ?_
      exact .of Chip.release1_keepsWf h1
    extract_lets +onlyGivenNames -merge -useContext -underBinder x6
    exact .mk2 h5 rfl
  · rename_i y7 y8 o9 e10
    have h11 : KeepsWf c y8 := by
      refine .ofEq1 e10 ?_
      exact .of Chip.release1_keepsWf h1
    exact h11

theorem Chip.tskRecovery_keepsWf {c : Chip} : KeepsWf c (Chip.tskRecovery c) := by
  unfold Chip.tskRecovery
  exact .ite Chip.setTskMode_keepsWf .refl

theorem Chip.applyChange_keepsWf {c : Chip} {a0} : KeepsWf c (Chip.applyChange c a0) := by
  unfold Chip.applyChange
  split
  · split
    · exact .of Chip.setBit_sameMem.keeps (.of Chip.setReg_sameMem.keeps Chip.setReg_sameMem.keeps)
    · exact .ite .refl Chip.ioWrite_keepsWf

theorem Chip.applyBatch_keepsWf {c : Chip} {a0} : KeepsWf c (Chip.applyBatch c a0) := by
  unfold Chip.applyBatch
  split
  · exact .refl
  · extract_lets +onlyGivenNames -merge -useContext -underBinder c0 x5
    have h1 : KeepsWf c c0 := by
      refine .foldl ?_ ?_
      · intro c2 x3 h4
        exact .of Chip.applyChange_keepsWf h4
      · exact .refl
    clear_value c0
    exact .ite (.of Chip.setReg_sameMem.keeps (.mk2 h1 rfl)) .refl

theorem Chip.setFr_sameMem {c : Chip} {a0 a1} : SameMem c (Chip.setFr c a0 a1) := by
  unfold Chip.setFr
  extract_lets +onlyGivenNames -merge -useContext -underBinder x0
  exact .mk2 .refl rfl

theorem Chip.releaseNormal_keepsWf {c : Chip} {n t e} : KeepsWf c (Chip.releaseNormal c n t e).2 := by
  have h := Chip.release1_keepsWf (c := c) (a0 := c.fld (TSK_FRn_CFG n) 20 16)
  unfold Chip.releaseNormal
  split
  · rename_i e
    rw [e] at h
    exact .pair1 (.of Chip.setFr_sameMem.keeps h)
  · exact h

theorem Chip.handDue_sameMem {c : Chip} {a0 a1 a2 a3} : SameMem c (Chip.handDue c a0 a1 a2 a3) := by
  unfold Chip.handDue
  extract_lets +onlyGivenNames -merge -useContext -underBinder x0
  exact Chip.setFr_sameMem

theorem Chip.frameTaskEnd_keepsWf {c : Chip} {a0 a1 a2} : KeepsWf c (Chip.frameTaskEnd c a0 a1 a2) := by
  unfold Chip.frameTaskEnd
  extract_lets +onlyGivenNames -merge -useContext -underBinder x0
  refine .ite ?_ (.ite (.of Chip.handDue_sameMem.keeps Chip.setFr_sameMem.keeps) .refl)
  split
  · rename_i y1 e2
    have h3 : KeepsWf c y1 := by
      refine .ofEq1 e2 ?_
      exact .of Chip.releaseNormal_keepsWf Chip.setFr_sameMem.keeps
    exact h3
  · rename_i y4 y5 o6 e7
    have h8 : KeepsWf c y5 := by
      refine .ofEq1 e7 ?_
      exact .of Chip.releaseNormal_keepsWf Chip.setFr_sameMem.keeps
    exact .of Chip.handDue_sameMem.keeps h8

theorem Chip.releaseOnly_keepsWf {c : Chip} {n} : KeepsWf c (Chip.releaseOnly c n).2 := by
  have h := Chip.releaseNormal_keepsWf (c := c) (n := n) (t := (c.fr n).t) (e := false)
  unfold Chip.releaseOnly
  split
  · rename_i e
    rw [e] at h
    exact .pair1 (.ite h (.of Chip.handDue_sameMem.keeps h))
  · exact h

theorem Chip.releaseFrame_keepsWf {c : Chip} {a0} : KeepsWf c (Chip.releaseFrame c a0) := by
  unfold Chip.releaseFrame
  extract_lets +onlyGivenNames -merge -useContext -underBinder x0 c1 c3
  have h2 : KeepsWf c c1 := Chip.setFr_sameMem.keeps
  have h4 : KeepsWf c c3.2 := by
    unfold c3
    refine .ite1 ?_ (.of Chip.releaseOnly_keepsWf h2)
    split
    · rename_i y5 e6
      have h7 : KeepsWf c y5 := by
        refine .ofEq1 e6 ?_
        exact .of Chip.release1_keepsWf h2
      extract_lets +onlyGivenNames -merge -useContext -underBinder x8
      exact .pair1 (.of Chip.setBit_sameMem.keeps (.of Chip.setFr_sameMem.keeps h7))
    · rename_i y9 y10 o11 e12
      have h13 : KeepsWf c y10 := by
        refine .ofEq1 e12 ?_
        exact .of Chip.release1_keepsWf h2
      exact .of Chip.releaseOnly_keepsWf h13
  clear_value c1 c3
  exact .ite (.of Chip.frameFault_sameMem.keeps h4) h4

theorem Chip.taskEnd_keepsWf {c : Chip} {a0 a1 a2} : KeepsWf c (Chip.taskEnd c a0 a1 a2) := by
  unfold Chip.taskEnd
  split
  · exact .refl
  · extract_lets +onlyGivenNames -merge -useContext -underBinder x0 x1 c2 c4 c6 x11
    have h3 : KeepsWf c c2 := .of Chip.setReg_sameMem.keeps (.of Chip.setFld_sameMem.keeps Chip.setBit_sameMem.keeps)
    have h5 : KeepsWf c c4 := .of Chip.writeForces_keepsWf (.of Chip.applyBatch_keepsWf h3)
    have h7 : KeepsWf c c6 := by
      refine .foldl ?_ ?_
      · intro c8 x9 h10
        exact .ite (.of Chip.frameTaskEnd_keepsWf h10) h10
      · exact h5
    clear_value c2 c4 c6
    refine .ite ?_ h7
    refine .foldl ?_ ?_
    · intro c12 x13 h14
      exact .ite (.of Chip.releaseFrame_keepsWf h14) h14
    · exact .mk2 h7 rfl

theorem Chip.tskLeaveRun_keepsWf {c : Chip} : KeepsWf c (Chip.tskLeaveRun c) := by
  unfold Chip.tskLeaveRun
  exact .ite .refl Chip.setTskMode_keepsWf

theorem tskModeRequest_keepsWf {c : Chip} {a0 a1} : KeepsWf c (tskModeRequest c a0 a1) := by
  unfold tskModeRequest
  extract_lets +onlyGivenNames -merge -useContext -underBinder x0 x1
  refine .ite Chip.refuse_sameMem.keeps ?_
  exact .of Chip.done_sameMem.keeps (.ite Chip.setTskMode_keepsWf Chip.tskCause_sameMem.keeps)

theorem stationReport_sameMem {c : Chip} {a0 a1} : SameMem c (stationReport c a0 a1) := by
  unfold stationReport
  extract_lets +onlyGivenNames -merge -useContext -underBinder x0 x1 x2 c3 c5 x7
  have h4 : SameMem c c3 := Chip.setReg_sameMem
  have h6 : SameMem c c5 := .of Chip.setBit_sameMem h4
  clear_value c3 c5
  refine .ite (.of Chip.done_sameMem Chip.tskCause_sameMem) ?_
  exact .ite (.of Chip.done_sameMem (.ite (.mk2 h6 rfl) h6)) Chip.done_sameMem

theorem taskReleaseWrite_keepsWf {c : Chip} {a0 a1} : KeepsWf c (taskReleaseWrite c a0 a1) := by
  unfold taskReleaseWrite
  exact .ite Chip.refuse_sameMem.keeps (.of Chip.done_sameMem.keeps Chip.release1_keepsWf)

theorem diagWrite_sameMem {c : Chip} {a0} : SameMem c (diagWrite c a0) := by
  unfold diagWrite
  exact .of Chip.done_sameMem (.of Chip.tskCause_sameMem Chip.setReg_sameMem)

theorem swapGo_sameMem {c : Chip} {a0 a1} : SameMem c (swapGo c a0 a1) := by
  unfold swapGo
  extract_lets +onlyGivenNames -merge -useContext -underBinder x0
  refine .ite Chip.refuse_sameMem ?_
  refine .ite Chip.done_sameMem ?_
  exact .ite (.of Chip.done_sameMem (.mk2 .refl rfl)) (.of Chip.done_sameMem Chip.setFld_sameMem)

theorem Chip.vcRefuse_sameMem {c : Chip} {a0} : SameMem c (Chip.vcRefuse c a0) := by
  unfold Chip.vcRefuse
  extract_lets +onlyGivenNames -merge -useContext -underBinder x0
  exact .of Chip.tskCause_sameMem (.of Chip.setReg_sameMem (.mk2 .refl rfl))

theorem vcPush_sameMem {c : Chip} : SameMem c (vcPush c) := by
  unfold vcPush
  extract_lets +onlyGivenNames -merge -useContext -underBinder x0 x1
  exact .ite .refl (.ite Chip.vcRefuse_sameMem (.of Chip.setFld_sameMem (.mk2 .refl rfl)))

theorem Chip.ioRead_sameMem {c : Chip} {a0 a1} : SameMem c (Chip.ioRead c a0 a1).2 := by
  unfold Chip.ioRead
  exact Chip.dmaRead_sameMem

theorem Chip.readMap_sameMem {c : Chip} {a0 a1} : SameMem c (Chip.readMap c a0 a1).2 := by
  unfold Chip.readMap
  refine .foldl1 ?_ ?_
  · intro c0 x1 h2
    split
    · exact h2
    · split
      · rename_i y3 y4 e5
        have h6 : SameMem c y4 := by
          refine .ofEq1 e5 ?_
          exact .of Chip.ioRead_sameMem h2
        exact .pair1 h6
      · rename_i y7 y8 e9
        have h10 : SameMem c y8 := by
          refine .ofEq1 e9 ?_
          exact .of Chip.ioRead_sameMem h2
        exact .pair1 h10
  · exact .pair1 .refl

theorem vcApply_sameMem {c : Chip} {a0 a1} : SameMem c (vcApply c a0 a1) := by
  unfold vcApply
  extract_lets +onlyGivenNames -merge -useContext -underBinder x0
  refine .ite .refl ?_
  refine .ite Chip.vcRefuse_sameMem ?_
  refine .ite Chip.vcRefuse_sameMem ?_
  split
  · exact Chip.vcRefuse_sameMem
  · extract_lets +onlyGivenNames -merge -useContext -underBinder x1 x2
    exact .of Chip.setBit_sameMem (.mk2 .refl rfl)

theorem vcCtlWrite_sameMem {c : Chip} {a0 a1} : SameMem c (vcCtlWrite c a0 a1) := by
  unfold vcCtlWrite
  extract_lets +onlyGivenNames -merge -useContext -underBinder c0
  have h1 : SameMem c c0 := .ite vcPush_sameMem .refl
  clear_value c0
  exact .ite Chip.refuse_sameMem (.of Chip.done_sameMem (.ite (.of vcApply_sameMem h1) h1))

theorem frameCfgWrite_sameMem {c : Chip} {a0 a1 a2} : SameMem c (frameCfgWrite c a0 a1 a2) := by
  unfold frameCfgWrite
  extract_lets +onlyGivenNames -merge -useContext -underBinder x0 c1 x3
  have h2 : SameMem c c1 := Chip.setReg_sameMem
  clear_value c1
  refine .ite Chip.refuse_sameMem ?_
  refine .ite (.ite Chip.done_sameMem (.of Chip.done_sameMem (.of Chip.setFr_sameMem Chip.setBit_sameMem))) ?_
  refine .ite (.of Chip.done_sameMem (.of Chip.tskCause_sameMem Chip.setReg_sameMem)) ?_
  exact .of Chip.done_sameMem (.ite (.of Chip.setFr_sameMem h2) h2)

theorem slotCfgWrite_sameMem {c : Chip} {a0 a1 a2} : SameMem c (slotCfgWrite c a0 a1 a2) := by
  unfold slotCfgWrite
  extract_lets +onlyGivenNames -merge -useContext -underBinder x0 x1 c2
  have h3 : SameMem c c2 := Chip.plainWrite_sameMem
  clear_value c2
  exact .ite (.of Chip.setReg_sameMem h3) h3

theorem forceSet_sameMem {c : Chip} {a0} : SameMem c (forceSet c a0) := by
  unfold forceSet
  extract_lets +onlyGivenNames -merge -useContext -underBinder c0 x2 x3 c4
  have h1 : SameMem c c0 := Chip.setReg_sameMem
  have h5 : SameMem c c4 := .of Chip.tskCause_sameMem (.of Chip.setBit_sameMem h1)
  clear_value c0 c4
  split
  · exact h5
  · exact .ite h5 (.of Chip.tskCause_sameMem (.of Chip.setReg_sameMem (.of Chip.setReg_sameMem h1)))

theorem Chip.forceDrop_sameMem {c : Chip} {a0} : SameMem c (Chip.forceDrop c a0) := by
  unfold Chip.forceDrop
  exact .of Chip.tskCause_sameMem Chip.setReg_sameMem

theorem forceClear_keepsWf {c : Chip} {a0} : KeepsWf c (forceClear c a0) := by
  unfold forceClear
  extract_lets +onlyGivenNames -merge -useContext -underBinder c0
  have h1 : KeepsWf c c0 := .ite Chip.ioWrite_keepsWf .refl
  clear_value c0
  exact .ite (.of Chip.forceDrop_sameMem.keeps h1) .refl

theorem forceCtlWrite_keepsWf {c : Chip} {a0 a1 a2} : KeepsWf c (forceCtlWrite c a0 a1 a2) := by
  unfold forceCtlWrite
  refine .ite Chip.refuse_sameMem.keeps ?_
  exact .of Chip.done_sameMem.keeps (.ite forceSet_sameMem.keeps forceClear_keepsWf)

theorem tskWrite_keepsWf {c : Chip} {a0 a1 a2} : KeepsWf c (tskWrite c a0 a1 a2) := by
  unfold tskWrite
  extract_lets +onlyGivenNames -merge -useContext -underBinder x0 x1
  refine .ite tskModeRequest_keepsWf ?_
  refine .ite stationReport_sameMem.keeps ?_
  refine .ite taskReleaseWrite_keepsWf ?_
  refine .ite diagWrite_sameMem.keeps ?_
  refine .ite swapGo_sameMem.keeps ?_
  refine .ite vcCtlWrite_sameMem.keeps ?_
  refine .ite (.ite frameCfgWrite_sameMem.keeps (.ite Chip.done_sameMem.keeps Chip.plainWrite_sameMem.keeps)) ?_
  exact .ite slotCfgWrite_sameMem.keeps (.ite forceCtlWrite_keepsWf Chip.plainWrite_sameMem.keeps)

theorem Chip.beginCycle_keepsWf {c : Chip} {a0 a1 a2} : KeepsWf c (Chip.beginCycle c a0 a1 a2) := by
  unfold Chip.beginCycle
  extract_lets +onlyGivenNames -merge -useContext -underBinder x0 c1 c3 x5 c6
  have h2 : KeepsWf c c1 := Chip.setReg_sameMem.keeps
  have h4 : KeepsWf c c3 := .of Chip.setBit_sameMem.keeps (.of Chip.setBit_sameMem.keeps h2)
  have h7 : KeepsWf c c6 := .of Chip.setFr_sameMem.keeps h4
  clear_value c1 c3 c6
  exact .ite h7 (.of Chip.releaseFrame_keepsWf h7)

theorem Chip.angleRelease_keepsWf {c : Chip} {a0} : KeepsWf c (Chip.angleRelease c a0) := by
  unfold Chip.angleRelease
  split
  · exact Chip.beginCycle_keepsWf
  · exact Chip.release1_keepsWf

theorem Chip.carry_keepsWf {c : Chip} {a0 a1 a2} : KeepsWf c (Chip.carry c a0 a1 a2).2 := by
  unfold Chip.carry
  split
  · rename_i y0 y1 y2 e3
    have h4 : KeepsWf c y2 := by
      refine .ofEq1 e3 ?_
      exact Chip.readSpan_sameMem.keeps
    exact .pair1 h4
  · rename_i y5 y6 e7
    have h8 : KeepsWf c y6 := by
      refine .ofEq1 e7 ?_
      exact Chip.readSpan_sameMem.keeps
    split
    · rename_i y9 y10 y11 e12
      have h13 : KeepsWf c y11 := by
        refine .ofEq1 e12 ?_
        exact .of Chip.writeSpan_keepsWf h8
      exact .pair1 h13
    · rename_i y14 e15
      have h16 : KeepsWf c y14 := by
        refine .ofEq1 e15 ?_
        exact .of Chip.writeSpan_keepsWf h8
      exact .pair1 h16

theorem Chip.carryEdge_keepsWf {c : Chip} {a0 a1 a2} : KeepsWf c (Chip.carryEdge c a0 a1 a2).2 := by
  unfold Chip.carryEdge
  refine .ite1 ?_ (.pair1 .refl)
  split
  · exact Chip.carry_keepsWf
  · exact .pair1 .refl

theorem Chip.carryEntry_keepsWf {c : Chip} {a0 a1 a2} : KeepsWf c (Chip.carryEntry c a0 a1 a2).2.2 := by
  unfold Chip.carryEntry
  split
  · refine .ite2 (.pair2 (.pair1 .refl)) ?_
    refine .ite2 ?_ (.pair2 (.pair1 .refl))
    split
    · rename_i y0 y1 e2
      have h3 : KeepsWf c y1 := by
        refine .ofEq1 e2 ?_
        exact Chip.carry_keepsWf
      exact .pair2 (.pair1 h3)
  · exact .pair2 (.pair1 .refl)

theorem Chip.setSlotState_sameMem {c : Chip} {a0 a1} : SameMem c (Chip.setSlotState c a0 a1) := by
  unfold Chip.setSlotState
  exact Chip.setFld_sameMem

theorem Chip.miss_sameMem {c : Chip} {a0} : SameMem c (Chip.miss c a0) := by
  unfold Chip.miss
  exact Chip.setFld_sameMem

theorem Chip.ioCopy_keepsWf {c : Chip} {a0 a1 a2} : KeepsWf c (Chip.ioCopy c a0 a1 a2) := by
  unfold Chip.ioCopy
  refine .foldl ?_ ?_
  · intro c0 x1 h2
    split
    · rename_i y3 y4 e5
      have h6 : KeepsWf c y4 := by
        refine .ofEq1 e5 ?_
        exact .of Chip.ioRead_sameMem.keeps h2
      exact .of Chip.ioWrite_keepsWf h6
    · rename_i y7 y8 e9
      have h10 : KeepsWf c y8 := by
        refine .ofEq1 e9 ?_
        exact .of Chip.ioRead_sameMem.keeps h2
      exact h10
  · exact .refl

theorem Chip.evalSlot_keepsWf {c : Chip} {a0 a1} : KeepsWf c (Chip.evalSlot c a0 a1) := by
  unfold Chip.evalSlot
  extract_lets +onlyGivenNames -merge -useContext -underBinder x0 x1 x2 c3 c5 c7 c9 c11 c13
  have h4 : KeepsWf c c3 := .mk2 .refl rfl
  have h6 : KeepsWf c c5 := .of Chip.setSlotState_sameMem.keeps (.of Chip.setFld_sameMem.keeps h4)
  have h8 : KeepsWf c c7 := .of Chip.miss_sameMem.keeps h4
  have h10 : KeepsWf c c9 := .of Chip.setBit_sameMem.keeps (.of Chip.setSlotState_sameMem.keeps h8)
  have h12 : KeepsWf c c11 := .ite (.of Chip.setBit_sameMem.keeps h10) h10
  have h14 : KeepsWf c c13 := .ite (.ite (.of Chip.tskCause_sameMem.keeps h6) h6) (.ite (.of Chip.tskCause_sameMem.keeps h12) h8)
  clear_value c3 c5 c7 c9 c11 c13
  exact .ite h14 (.of Chip.ioCopy_keepsWf h14)

theorem Chip.imageExchange_sameMem {c : Chip} {a0 a1} : SameMem c (Chip.imageExchange c a0 a1) := by
  unfold Chip.imageExchange
  refine .foldl ?_ ?_
  · intro c0 x1 h2
    extract_lets +onlyGivenNames -merge -useContext -underBinder x3 x4 x5
    exact .ite (.ite (.of Chip.setFr_sameMem h2) (.of Chip.setFr_sameMem h2)) h2
  · exact .refl

theorem Chip.rebindForces_keepsWf {c : Chip} {a0} : KeepsWf c (Chip.rebindForces c a0).2 := by
  unfold Chip.rebindForces
  refine .foldl1 ?_ ?_
  · intro c0 x1 h2
    extract_lets +onlyGivenNames -merge -useContext -underBinder c3
    have h4 : KeepsWf c c3 := h2
    clear_value c3
    refine .ite1 ?_ h2
    split
    · refine .ite1 (.pair1 (.of Chip.forceWrite_keepsWf (.of Chip.setReg_sameMem.keeps h4))) ?_
      exact .pair1 (.of Chip.forceDrop_sameMem.keeps h4)
    · exact .pair1 (.of Chip.forceDrop_sameMem.keeps h4)
  · exact .pair1 .refl

theorem Chip.swapEnd_sameMem {c : Chip} {a0 a1 a2} : SameMem c (Chip.swapEnd c a0 a1 a2) := by
  unfold Chip.swapEnd
  extract_lets +onlyGivenNames -merge -useContext -underBinder x0
  exact .of Chip.tskCause_sameMem (.of Chip.setReg_sameMem (.mk2 .refl rfl))

theorem bankOwnerTakeEffect_sameMem {c : Chip} {a0} : SameMem c (bankOwnerTakeEffect c a0) := by
  unfold bankOwnerTakeEffect
  split
  · rename_i y0 e1
    have h2 : SameMem c y0 := by
      refine .ofEq1 e1 ?_
      exact Chip.ownerTakes_sameMem
    exact h2
  · rename_i y3 y4 e5
    have h6 : SameMem c y4 := by
      refine .ofEq1 e5 ?_
      exact Chip.ownerTakes_sameMem
    exact .of Chip.imageExchange_sameMem h6

theorem evaluationEnd_keepsWf {c : Chip} {a0} : KeepsWf c (evaluationEnd c a0) := by
  unfold evaluationEnd
  extract_lets +onlyGivenNames -merge -useContext -underBinder x0 x1 x2 c3
  have h4 : KeepsWf c c3 := .of Chip.setBit_sameMem.keeps Chip.setFr_sameMem.keeps
  clear_value c3
  exact .ite (.ite (.of Chip.releaseFrame_keepsWf h4) h4) .refl

theorem frameBoundary_keepsWf {c : Chip} {a0} : KeepsWf c (frameBoundary c a0) := by
  unfold frameBoundary
  extract_lets +onlyGivenNames -merge -useContext -underBinder x0
  exact .ite Chip.beginCycle_keepsWf .refl

theorem frameEvaluation_keepsWf {c : Chip} {a0} : KeepsWf c (frameEvaluation c a0) := by
  unfold frameEvaluation
  extract_lets +onlyGivenNames -merge -useContext -underBinder x0 c1 x3 c4 c9
  have h2 : KeepsWf c c1 := .of Chip.setBit_sameMem.keeps Chip.setFr_sameMem.keeps
  have h5 : KeepsWf c c4 := by
    refine .foldl ?_ ?_
    · intro c6 x7 h8
      exact .of Chip.evalSlot_keepsWf h8
    · exact h2
  have h10 : KeepsWf c c9 := by
    refine .foldl ?_ ?_
    · intro c11 x12 h13
      exact .ite (.of Chip.forceWrite_keepsWf h13) h13
    · exact h5
  clear_value c1 c4 c9
  refine .ite ?_ .refl
  refine .foldl ?_ ?_
  · intro c14 x15 h16
    exact .of Chip.ioWrite_keepsWf h16
  · exact h10

theorem noExchangeCheck_sameMem {c : Chip} {a0} : SameMem c (noExchangeCheck c a0) := by
  unfold noExchangeCheck
  extract_lets +onlyGivenNames -merge -useContext -underBinder x0 c1 c3 c8
  have h2 : SameMem c c1 := Chip.setFr_sameMem
  have h4 : SameMem c c3 := by
    refine .foldl ?_ ?_
    · intro c5 x6 h7
      exact .of Chip.miss_sameMem h7
    · exact h2
  have h9 : SameMem c c8 := .ite h2 (.of Chip.tskCause_sameMem (.of Chip.setFld_sameMem h4))
  clear_value c1 c3 c8
  exact .ite (.ite h9 (.of Chip.tskCause_sameMem (.of Chip.setFld_sameMem h9))) .refl

theorem outputHandover_keepsWf {c : Chip} {a0} : KeepsWf c (outputHandover c a0) := by
  unfold outputHandover
  split
  · exact .refl
  · extract_lets +onlyGivenNames -merge -useContext -underBinder c0 c2 c4 x6 c13 x15 c16 c18
    have h1 : KeepsWf c c0 := Chip.writeForces_keepsWf
    have h3 : KeepsWf c c2 := .ite (.of Chip.ioCopy_keepsWf h1) h1
    have h5 : KeepsWf c c4 := .of Chip.ioWrite_keepsWf h3
    have h7 : ∀ z8 z9, KeepsWf c z8 → KeepsWf c (x6 z8 z9) := by
      intro z8 z9 h10
      unfold x6
      extract_lets +onlyGivenNames -merge -useContext -underBinder c11
      have h12 : KeepsWf c c11 := .of bankOwnerWrite_sameMem.keeps h10
      clear_value c11
      exact .ite (.mk2 h12 rfl) h10
    have h14 : KeepsWf c c13 := h7 _ _ (h7 _ _ h5)
    have h17 : KeepsWf c c16 := .of Chip.setFr_sameMem.keeps h14
    have h19 : KeepsWf c c18 := .ite (.of Chip.setBit_sameMem.keeps h17) h17
    clear_value c0 c2 c4 c13 c16 c18
    exact .ite (.of Chip.frameFault_sameMem.keeps h19) h19

theorem swapQuietPoint_keepsWf {c : Chip} : KeepsWf c (swapQuietPoint c) := by
  unfold swapQuietPoint
  extract_lets +onlyGivenNames -merge -useContext -underBinder x0
  refine .ite .refl ?_
  split
  · rename_i y1 y2 e3
    have h4 : KeepsWf c y2 := by
      refine .ofEq1 e3 ?_
      exact Chip.readMap_sameMem.keeps
    exact .of Chip.swapEnd_sameMem.keeps h4
  · rename_i y5 y6 e7
    have h8 : KeepsWf c y6 := by
      refine .ofEq1 e7 ?_
      exact Chip.readMap_sameMem.keeps
    refine .ite (.of Chip.swapEnd_sameMem.keeps h8) ?_
    split
    · rename_i y9 y10 e11
      have h12 : KeepsWf c y10 := by
        refine .ofEq1 e11 ?_
        exact .of Chip.readMap_sameMem.keeps h8
      exact .of Chip.swapEnd_sameMem.keeps h12
    · rename_i y13 y14 e15
      have h16 : KeepsWf c y14 := by
        refine .ofEq1 e15 ?_
        exact .of Chip.readMap_sameMem.keeps h8
      split
      · rename_i y17 y18 e19
        have h20 : KeepsWf c y18 := by
          refine .ofEq1 e19 ?_
          exact .of Chip.ioRead_sameMem.keeps h16
        exact .of Chip.swapEnd_sameMem.keeps h20
      · rename_i y21 y22 e23
        have h24 : KeepsWf c y22 := by
          refine .ofEq1 e23 ?_
          exact .of Chip.ioRead_sameMem.keeps h16
        split
        · rename_i y25 y26 y27 e28
          have h29 : KeepsWf c y27 := by
            refine .ofEq2 e28 ?_
            refine .foldl2 ?_ ?_
            · intro c30 x31 h32
              split
              · exact h32
              · exact .of Chip.carryEntry_keepsWf h32
            · exact .pair2 (.pair1 h24)
          split
          · rename_i y33 y34 e35
            have h36 : KeepsWf c y34 := by
              refine .ofEq1 e35 ?_
              refine .foldl1 ?_ ?_
              · intro c37 x38 h39
                split
                · exact h39
                · exact .of Chip.carryEdge_keepsWf h39
              · exact .pair1 h29
            split
            · exact .of Chip.swapEnd_sameMem.keeps h36
            · split
              · rename_i y40 y41 e42
                have h43 : KeepsWf c y41 := by
                  refine .ofEq1 e42 ?_
                  exact .of Chip.rebindForces_keepsWf h36
                extract_lets +onlyGivenNames -merge -useContext -underBinder c44 c46
                have h45 : KeepsWf c c44 := .of Chip.setReg_sameMem.keeps (.of Chip.setReg_sameMem.keeps h43)
                have h47 : KeepsWf c c46 := by
                  refine .foldl ?_ ?_
                  · intro c48 x49 h50
                    extract_lets +onlyGivenNames -merge -useContext -underBinder x51
                    exact .of Chip.setBit_sameMem.keeps (.of Chip.setReg_sameMem.keeps h50)
                  · exact h45
                clear_value c44 c46
                exact .of Chip.swapEnd_sameMem.keeps h47

end Sys2Proof.Machine
end

