-- ==== Sys2Proof/Laws/KeepAngFire.lean ====
section
/-!
SUPPORT. What each operation of Machine/AngFire.lean does to memory: it changes no byte (`SameMem`), or keeps
the canonical form (`KeepsWf`).
-/
namespace Sys2Proof.Machine

theorem Chip.fire_keepsWf {c : Chip} {a0} : KeepsWf c (Chip.fire c a0) := by
  unfold Chip.fire
  extract_lets +onlyGivenNames -merge -useContext -underBinder x0 c1 c3 c5 c7 c9 x11
  have h2 : KeepsWf c c1 := .ite Chip.xdTrig_sameMem.keeps .refl
  have h4 : KeepsWf c c3 := .ite (.of Chip.angleRelease_keepsWf h2) h2
  have h6 : KeepsWf c c5 := .ite (.of Chip.skLine_sameMem.keeps h4) h4
  have h8 : KeepsWf c c7 := .ite (.of camStep_sameMem.keeps h6) h6
  have h10 : KeepsWf c c9 := .ite (.of Chip.raise_sameMem.keeps h8) h8
  clear_value c1 c3 c5 c7 c9
  exact .of Chip.setBit_sameMem.keeps (.of Chip.setAe_sameMem.keeps h10)

theorem angleEventFiring_keepsWf {c : Chip} : KeepsWf c (angleEventFiring c) := by
  unfold angleEventFiring
  split
  · exact .refl
  · extract_lets +onlyGivenNames -merge -useContext -underBinder x0
    exact .ite (.of Chip.fire_keepsWf (.mk2 .refl rfl)) .refl

end Sys2Proof.Machine
end

