-- ==== Sys2Proof/Laws/KeepCan.lean ====
section
/-!
SUPPORT. What each operation of Machine/Can.lean does to memory: it changes no byte (`SameMem`), or keeps
the canonical form (`KeepsWf`).
-/
namespace Sys2Proof.Machine

theorem Chip.setCan_sameMem {c : Chip} {a0 a1} : SameMem c (Chip.setCan c a0 a1) := by
  unfold Chip.setCan
  exact .mk2 .refl rfl

theorem Chip.canFlag_sameMem {c : Chip} {a0 a1} : SameMem c (Chip.canFlag c a0 a1) := by
  unfold Chip.canFlag
  exact Chip.setBit_sameMem

theorem canCtlWrite_sameMem {c : Chip} {a0 a1} : SameMem c (canCtlWrite c a0 a1) := by
  unfold canCtlWrite
  extract_lets +onlyGivenNames -merge -useContext -underBinder x0 c1 c3 c5
  have h2 : SameMem c c1 := Chip.setBit_sameMem
  have h4 : SameMem c c3 := Chip.setReg_sameMem
  have h6 : SameMem c c5 := .ite (.of Chip.canFlag_sameMem h4) h4
  clear_value c1 c3 c5
  refine .ite ?_ (.ite (.of Chip.setCan_sameMem h6) h6)
  refine .ite .refl ?_
  exact .ite (.of Chip.setCan_sameMem h2) (.of Chip.setBit_sameMem (.of Chip.setCan_sameMem h2))

theorem Chip.setObjState_sameMem {c : Chip} {a0 a1 a2} : SameMem c (Chip.setObjState c a0 a1 a2) := by
  unfold Chip.setObjState
  exact Chip.setFld_sameMem

theorem canMemWrite_sameMem {c : Chip} {a0 a1 a2} : SameMem c (canMemWrite c a0 a1 a2) := by
  unfold canMemWrite
  extract_lets +onlyGivenNames -merge -useContext -underBinder x0 x1 x2 x3 x4 c5 x7
  have h6 : SameMem c c5 := Chip.setReg_sameMem
  clear_value c5
  refine .ite ?_ ?_
  · refine .ite Chip.done_sameMem ?_
    refine .ite Chip.refuse_sameMem ?_
    exact .of Chip.done_sameMem (.ite (.of Chip.setObjState_sameMem h6) (.ite (.of Chip.setObjState_sameMem h6) h6))
  · refine .ite (.ite Chip.refuse_sameMem (.of Chip.done_sameMem Chip.setReg_sameMem)) ?_
    refine .ite (.ite Chip.refuse_sameMem (.of Chip.done_sameMem Chip.setReg_sameMem)) ?_
    exact .ite Chip.refuse_sameMem (.of Chip.done_sameMem Chip.setReg_sameMem)

theorem canRecover_sameMem {c : Chip} {a0} : SameMem c (canRecover c a0) := by
  unfold canRecover
  exact .ite (.of Chip.setFld_sameMem Chip.setBit_sameMem) .refl

theorem Chip.canEv_sameMem {c : Chip} {a0 a1} : SameMem c (Chip.canEv c a0 a1) := by
  unfold Chip.canEv
  exact Chip.raise_sameMem

theorem Chip.ttRestart_sameMem {c : Chip} {a0} : SameMem c (Chip.ttRestart c a0) := by
  unfold Chip.ttRestart
  extract_lets +onlyGivenNames -merge -useContext -underBinder c0 x2
  have h1 : SameMem c c0 := .ite (.of Chip.canEv_sameMem Chip.setBit_sameMem) .refl
  clear_value c0
  exact .of Chip.setCan_sameMem (.of Chip.setBit_sameMem h1)

theorem canTtResume_sameMem {c : Chip} {a0} : SameMem c (canTtResume c a0) := by
  unfold canTtResume
  extract_lets +onlyGivenNames -merge -useContext -underBinder c0
  have h1 : SameMem c c0 := Chip.setFld_sameMem
  clear_value c0
  exact .ite (.of Chip.ttRestart_sameMem h1) h1

theorem canCmdWrite_sameMem {c : Chip} {a0 a1} : SameMem c (canCmdWrite c a0 a1) := by
  unfold canCmdWrite
  extract_lets +onlyGivenNames -merge -useContext -underBinder c0
  have h1 : SameMem c c0 := .ite canRecover_sameMem .refl
  clear_value c0
  exact .of Chip.done_sameMem (.ite (.of canTtResume_sameMem h1) h1)

theorem Chip.canRefused_sameMem {c : Chip} {a0} : SameMem c (Chip.canRefused c a0) := by
  unfold Chip.canRefused
  exact Chip.canFlag_sameMem

theorem canRequest_sameMem {c : Chip} {a0 a1} : SameMem c (canRequest c a0 a1) := by
  unfold canRequest
  extract_lets +onlyGivenNames -merge -useContext -underBinder x0 x1
  refine .ite Chip.canRefused_sameMem ?_
  exact .of Chip.setObjState_sameMem (.of Chip.setBit_sameMem Chip.setFld_sameMem)

theorem Chip.objEnds_sameMem {c : Chip} {a0 a1 a2} : SameMem c (Chip.objEnds c a0 a1 a2) := by
  unfold Chip.objEnds
  exact .of Chip.canEv_sameMem Chip.setObjState_sameMem

theorem canCancel_sameMem {c : Chip} {a0 a1} : SameMem c (canCancel c a0 a1) := by
  unfold canCancel
  split
  · exact Chip.objEnds_sameMem
  · exact Chip.objEnds_sameMem
  · split
    · extract_lets +onlyGivenNames -merge -useContext -underBinder x0
      exact .ite Chip.setCan_sameMem .refl
    · exact .refl
  · exact .refl

theorem canClearNew_sameMem {c : Chip} {a0 a1} : SameMem c (canClearNew c a0 a1) := by
  unfold canClearNew
  exact .of Chip.setBit_sameMem Chip.setBit_sameMem

theorem canObjCmd_sameMem {c : Chip} {a0 a1} : SameMem c (canObjCmd c a0 a1) := by
  unfold canObjCmd
  extract_lets +onlyGivenNames -merge -useContext -underBinder x0
  refine .of Chip.done_sameMem ?_
  split
  · exact canRequest_sameMem
  · exact canCancel_sameMem
  · exact canClearNew_sameMem
  · exact .refl

theorem canRingPop_sameMem {c : Chip} {a0 a1} : SameMem c (canRingPop c a0 a1) := by
  unfold canRingPop
  extract_lets +onlyGivenNames -merge -useContext -underBinder x0 x1 x2
  exact .of Chip.done_sameMem (.of Chip.setCan_sameMem (.of Chip.setFld_sameMem Chip.setFld_sameMem))

theorem canModeReq_sameMem {c : Chip} {a0 a1} : SameMem c (canModeReq c a0 a1) := by
  unfold canModeReq
  extract_lets +onlyGivenNames -merge -useContext -underBinder x0 x1
  refine .ite Chip.done_sameMem ?_
  refine .ite (.of Chip.done_sameMem Chip.canRefused_sameMem) ?_
  exact .ite Chip.done_sameMem (.of Chip.done_sameMem Chip.setCan_sameMem)

theorem canModeWrite_sameMem {c : Chip} {a0 a1 a2} : SameMem c (canModeWrite c a0 a1 a2) := by
  unfold canModeWrite
  refine .ite Chip.refuse_sameMem ?_
  exact .ite (.of Chip.done_sameMem Chip.canFlag_sameMem) (.of Chip.done_sameMem Chip.setReg_sameMem)

theorem canWrite_sameMem {c : Chip} {a0 a1 a2} : SameMem c (canWrite c a0 a1 a2) := by
  unfold canWrite
  extract_lets +onlyGivenNames -merge -useContext -underBinder x0 x1 c2
  have h3 : SameMem c c2 := .ite Chip.canFlag_sameMem .refl
  clear_value c2
  refine .ite canMemWrite_sameMem ?_
  refine .ite (.of Chip.done_sameMem canCtlWrite_sameMem) ?_
  refine .ite canCmdWrite_sameMem ?_
  refine .ite canObjCmd_sameMem ?_
  refine .ite (.of Chip.done_sameMem Chip.canRefused_sameMem) ?_
  refine .ite canRingPop_sameMem ?_
  refine .ite canModeReq_sameMem ?_
  refine .ite canModeWrite_sameMem ?_
  refine .ite (.of Chip.plainWrite_sameMem h3) ?_
  exact .ite Chip.refuse_sameMem (.ite Chip.refuse_sameMem Chip.plainWrite_sameMem)

theorem Chip.canReread_sameMem {c : Chip} {a0 a1 a2} : SameMem c (Chip.canReread c a0 a1 a2) := by
  unfold Chip.canReread
  extract_lets +onlyGivenNames -merge -useContext -underBinder x0
  split
  · rename_i y1 e2
    have h3 : SameMem c y1 := by
      refine .ofEq1 e2 ?_
      exact Chip.dmaRead_sameMem
    extract_lets +onlyGivenNames -merge -useContext -underBinder x4
    exact .of Chip.freezeAt_sameMem (.of Chip.setCan_sameMem h3)
  · rename_i y5 y6 o7 e8
    have h9 : SameMem c y6 := by
      refine .ofEq1 e8 ?_
      exact Chip.dmaRead_sameMem
    exact h9

theorem Chip.ringStored_sameMem {c : Chip} {a0 a1} : SameMem c (Chip.ringStored c a0 a1) := by
  unfold Chip.ringStored
  extract_lets +onlyGivenNames -merge -useContext -underBinder x0 x1 c2
  have h3 : SameMem c c2 := .of Chip.setCan_sameMem Chip.setFld_sameMem
  clear_value c2
  exact .ite (.of Chip.canEv_sameMem h3) h3

theorem Chip.canStoreFails_sameMem {c : Chip} {a0} : SameMem c (Chip.canStoreFails c a0) := by
  unfold Chip.canStoreFails
  extract_lets +onlyGivenNames -merge -useContext -underBinder x0
  exact .of Chip.canEv_sameMem (.of Chip.canFlag_sameMem Chip.setCan_sameMem)

theorem Chip.canStoreRun_keepsWf {c : Chip} {n slot us} : KeepsWf c (Chip.canStoreRun c n slot us) := by
  induction us generalizing c with
  | nil => exact Chip.ringStored_sameMem.keeps
  | cons u us ih =>
    have h := Chip.dmaWrite_keepsWf (c := c) (a0 := c.fld (CANn_OWNER n) 3 0) (a1 := u.1) (a2 := u.2)
    unfold Chip.canStoreRun
    extract_lets m
    split
    · rename_i e
      exact KeepsWf.trans (.ofEq1 e h) ih
    · rename_i e
      exact .of freezeAt_sameMem.keeps (.of Chip.setCan_sameMem.keeps (.ofEq1 e h))
    · rename_i e
      exact .of Chip.canStoreFails_sameMem.keeps (.ofEq1 e h)

theorem canResolve_keepsWf {c : Chip} {a0 a1} : KeepsWf c (canResolve c a0 a1) := by
  unfold canResolve
  extract_lets +onlyGivenNames -merge -useContext -underBinder x0 c1 c3
  have h2 : KeepsWf c c1 := Chip.setCan_sameMem.keeps
  have h4 : KeepsWf c c3 := by
    unfold c3
    split
    · exact h2
    · exact .ite (.of Chip.canReread_sameMem.keeps h2) h2
    · exact .ite (.of Chip.canStoreRun_keepsWf h2) (.of Chip.canStoreFails_sameMem.keeps h2)
  clear_value c1 c3
  exact .ite (.of Chip.setBit_sameMem.keeps h4) h4

theorem Chip.setAgreement_sameMem {c : Chip} {a0 a1 a2 a3 a4} : SameMem c (Chip.setAgreement c a0 a1 a2 a3 a4) := by
  unfold Chip.setAgreement
  extract_lets +onlyGivenNames -merge -useContext -underBinder x0 x1 c2
  have h3 : SameMem c c2 := Chip.setReg_sameMem
  clear_value c2
  exact .ite h3 (.of Chip.canEv_sameMem h3)

theorem Chip.advanceMatrix_sameMem {c : Chip} {a0} : SameMem c (Chip.advanceMatrix c a0) := by
  unfold Chip.advanceMatrix
  extract_lets +onlyGivenNames -merge -useContext -underBinder x0 c1
  have h2 : SameMem c c1 := .of Chip.canEv_sameMem Chip.setCan_sameMem
  clear_value c1
  split
  · split
    · extract_lets +onlyGivenNames -merge -useContext -underBinder x3 c4
      have h5 : SameMem c c4 := .of Chip.setCan_sameMem h2
      clear_value c4
      exact .of Chip.setAgreement_sameMem h5
    · exact h2
  · exact .of Chip.setAgreement_sameMem h2
  · exact .of Chip.setAgreement_sameMem h2
  · exact .of Chip.setAgreement_sameMem h2

theorem Chip.ttLevel_sameMem {c : Chip} {a0 a1} : SameMem c (Chip.ttLevel c a0 a1) := by
  unfold Chip.ttLevel
  exact .ite (.of Chip.canEv_sameMem (.of Chip.canFlag_sameMem Chip.setFld_sameMem)) .refl

theorem Chip.mscUp_sameMem {c : Chip} {a0 a1} : SameMem c (Chip.mscUp c a0 a1) := by
  unfold Chip.mscUp
  extract_lets +onlyGivenNames -merge -useContext -underBinder x0 c1
  have h2 : SameMem c c1 := Chip.setFld_sameMem
  clear_value c1
  exact .ite (.of Chip.ttLevel_sameMem h2) h2

theorem Chip.attemptFailed_sameMem {c : Chip} {a0 a1 a2 a3} : SameMem c (Chip.attemptFailed c a0 a1 a2 a3) := by
  unfold Chip.attemptFailed
  split
  · extract_lets +onlyGivenNames -merge -useContext -underBinder c0 c2
    have h1 : SameMem c c0 := .ite Chip.mscUp_sameMem .refl
    have h3 : SameMem c c2 := .ite (.of Chip.setFld_sameMem h1) h1
    clear_value c0 c2
    refine .ite (.of Chip.objEnds_sameMem (.of Chip.setBit_sameMem h3)) ?_
    refine .ite (.of Chip.setObjState_sameMem h3) ?_
    exact .ite (.of Chip.objEnds_sameMem h3) (.of Chip.setObjState_sameMem h3)
  · exact Chip.mscUp_sameMem
  · exact .refl
  · exact .refl

theorem Chip.guardHears_sameMem {c : Chip} {a0 a1 a2} : SameMem c (Chip.guardHears c a0 a1 a2) := by
  unfold Chip.guardHears
  extract_lets +onlyGivenNames -merge -useContext -underBinder x0 x1 c2
  have h3 : SameMem c c2 := .of Chip.setBit_sameMem Chip.setCan_sameMem
  clear_value c2
  exact .ite (.ite (.of Chip.setFld_sameMem h3) h3) .refl

theorem Chip.setCounters_sameMem {c : Chip} {a0 a1 a2} : SameMem c (Chip.setCounters c a0 a1 a2) := by
  unfold Chip.setCounters
  extract_lets +onlyGivenNames -merge -useContext -underBinder c0 x2 x3 c4 c6 c8
  have h1 : SameMem c c0 := Chip.setReg_sameMem
  have h5 : SameMem c c4 := .of Chip.canEv_sameMem (.of Chip.setFld_sameMem h1)
  have h7 : SameMem c c6 := .of Chip.setFld_sameMem (.of Chip.canFlag_sameMem h5)
  have h9 : SameMem c c8 := .of Chip.setBit_sameMem h7
  clear_value c0 c4 c6 c8
  exact .ite h1 (.ite (.of Chip.canFlag_sameMem h5) (.ite (.ite (.of Chip.ttLevel_sameMem h9) h9) h5))

theorem Chip.mscDown_sameMem {c : Chip} {a0 a1} : SameMem c (Chip.mscDown c a0 a1) := by
  unfold Chip.mscDown
  exact Chip.setFld_sameMem

theorem Chip.checkTakes_sameMem {c : Chip} {a0 a1 a2 a3} : SameMem c (Chip.checkTakes c a0 a1 a2 a3) := by
  unfold Chip.checkTakes
  extract_lets +onlyGivenNames -merge -useContext -underBinder c0 c2 x4 c5 c10
  have h1 : SameMem c c0 := .of Chip.setBit_sameMem Chip.setObjState_sameMem
  have h3 : SameMem c c2 := .ite (.of Chip.setBit_sameMem h1) h1
  have h6 : SameMem c c5 := by
    refine .foldl ?_ ?_
    · intro c7 x8 h9
      exact .ite (.of Chip.setReg_sameMem h9) h9
    · exact h3
  have h11 : SameMem c c10 := .of Chip.setFld_sameMem h6
  clear_value c0 c2 c5 c10
  exact .of Chip.mscDown_sameMem (.of Chip.setReg_sameMem (.of Chip.setReg_sameMem h11))

theorem Chip.offerChecks_sameMem {c : Chip} {n f sof ws} : SameMem c (Chip.offerChecks c n f sof ws).2 := by
  induction ws generalizing c with
  | nil => exact .refl
  | cons w ws ih =>
    unfold Chip.offerChecks
    extract_lets o r
    split
    · exact ih
    · exact .of ih Chip.checkTakes_sameMem

theorem Chip.ringStore_keepsWf {c : Chip} {a0 a1 a2 a3} : KeepsWf c (Chip.ringStore c a0 a1 a2 a3) := by
  unfold Chip.ringStore
  extract_lets +onlyGivenNames -merge -useContext -underBinder x0 x1 x6 x7 x8 x9 x10 x11 x12 x13
  have h2 : ∀ z3 z4, KeepsWf c z3 → KeepsWf c (x1 z3 z4) := by
    intro z3 z4 h5
    unfold x1
    exact .of Chip.setCan_sameMem.keeps (.of Chip.canEv_sameMem.keeps (.of Chip.canFlag_sameMem.keeps (.of Chip.inc_sameMem.keeps h5)))
  refine .ite .refl ?_
  refine .ite (h2 _ _ .refl) ?_
  exact .ite (h2 _ _ .refl) (.ite (h2 _ _ .refl) (.of Chip.canStoreRun_keepsWf Chip.setCan_sameMem.keeps))

theorem Chip.canReceive_keepsWf {c : Chip} {a0 a1 a2 a3} : KeepsWf c (Chip.canReceive c a0 a1 a2 a3) := by
  unfold Chip.canReceive
  extract_lets +onlyGivenNames -merge -useContext -underBinder x0
  split
  · rename_i y1 y2 e3
    have h4 : KeepsWf c y2 := by
      refine .ofEq1 e3 ?_
      refine .ite1 (.pair1 .refl) ?_
      refine .ite1 (.pair1 .refl) ?_
      split
      · rename_i y5 y6 e7
        have h8 : KeepsWf c y6 := by
          refine .ofEq1 e7 ?_
          exact Chip.takeFree_sameMem.keeps
        exact .pair1 h8
    extract_lets +onlyGivenNames -merge -useContext -underBinder c9 c11 x13
    have h10 : KeepsWf c c9 := .of Chip.setCounters_sameMem.keeps h4
    have h12 : KeepsWf c c11.2 := .of Chip.offerChecks_sameMem.keeps h10
    clear_value c9 c11
    exact .of Chip.ringStore_keepsWf (.of Chip.setCan_sameMem.keeps h12)

theorem Chip.refMark_sameMem {c : Chip} {a0 a1 a2} : SameMem c (Chip.refMark c a0 a1 a2) := by
  unfold Chip.refMark
  extract_lets +onlyGivenNames -merge -useContext -underBinder x0 c1 c3
  have h2 : SameMem c c1 := Chip.setFld_sameMem
  have h4 : SameMem c c3 := .ite h2 (.of Chip.canEv_sameMem (.of Chip.setBit_sameMem h2))
  clear_value c1 c3
  exact .of Chip.setCan_sameMem h4

theorem Chip.followGlobal_sameMem {c : Chip} {a0 a1 a2 a3 a4} : SameMem c (Chip.followGlobal c a0 a1 a2 a3 a4) := by
  unfold Chip.followGlobal
  extract_lets +onlyGivenNames -merge -useContext -underBinder x0 x1 x2
  exact Chip.setCan_sameMem

theorem Chip.refArrives_sameMem {c : Chip} {a0 a1 a2} : SameMem c (Chip.refArrives c a0 a1 a2) := by
  unfold Chip.refArrives
  extract_lets +onlyGivenNames -merge -useContext -underBinder x0 x1 x2 x3 x4 x5 x6 c7 x9 c10 x12 x13 c14 x16 x17 x18 c19
  have h8 : SameMem c c7 := Chip.refMark_sameMem
  have h11 : SameMem c c10 := .ite (.of Chip.setCan_sameMem h8) (.of Chip.followGlobal_sameMem (.of Chip.setBit_sameMem h8))
  have h15 : SameMem c c14 := .ite h11 (.of Chip.ttLevel_sameMem h11)
  have h20 : SameMem c c19 := .of Chip.setCan_sameMem h15
  clear_value c7 c10 c14 c19
  exact .of Chip.setAgreement_sameMem h20

theorem Chip.canQuiet_sameMem {c : Chip} {a0} : SameMem c (Chip.canQuiet c a0) := by
  unfold Chip.canQuiet
  extract_lets +onlyGivenNames -merge -useContext -underBinder x0 c1
  have h2 : SameMem c c1 := .of Chip.setBit_sameMem Chip.setCan_sameMem
  clear_value c1
  exact .ite (.of Chip.setBit_sameMem h2) h2

theorem Chip.canArrives_keepsWf {c : Chip} {a0 a1 a2} : KeepsWf c (Chip.canArrives c a0 a1 a2) := by
  unfold Chip.canArrives
  extract_lets +onlyGivenNames -merge -useContext -underBinder x0 c1 x3 c4 x6 c7
  have h2 : KeepsWf c c1 := Chip.guardHears_sameMem.keeps
  have h5 : KeepsWf c c4 := .of Chip.canReceive_keepsWf h2
  have h8 : KeepsWf c c7 := .ite h5 (.ite (.of Chip.refArrives_sameMem.keeps h5) (.ite (.of Chip.setCan_sameMem.keeps h5) h5))
  clear_value c1 c4 c7
  refine .ite h2 ?_
  refine .ite (.of Chip.setBit_sameMem.keeps (.of Chip.setBit_sameMem.keeps (.of Chip.setCan_sameMem.keeps h2))) ?_
  exact .of Chip.canQuiet_sameMem.keeps h8

theorem Chip.canFrameEnd_sameMem {c : Chip} {a0} : SameMem c (Chip.canFrameEnd c a0) := by
  unfold Chip.canFrameEnd
  extract_lets +onlyGivenNames -merge -useContext -underBinder x0 x1 c2
  have h3 : SameMem c c2 := .of Chip.setBit_sameMem Chip.setCan_sameMem
  clear_value c2
  exact .of Chip.canQuiet_sameMem (.ite (.of Chip.ttLevel_sameMem h3) h3)

theorem Chip.txFails_sameMem {c : Chip} {a0 a1 a2} : SameMem c (Chip.txFails c a0 a1 a2) := by
  unfold Chip.txFails
  split
  · exact Chip.setCounters_sameMem
  · extract_lets +onlyGivenNames -merge -useContext -underBinder c0 c2 x4
    have h1 : SameMem c c0 := Chip.setCounters_sameMem
    have h3 : SameMem c c2 := .of Chip.canFrameEnd_sameMem (.of Chip.attemptFailed_sameMem h1)
    clear_value c0 c2
    exact .of Chip.setCan_sameMem h3

theorem Chip.canStart_sameMem {c : Chip} {a0 a1 a2 a3 a4} : SameMem c (Chip.canStart c a0 a1 a2 a3 a4) := by
  unfold Chip.canStart
  extract_lets +onlyGivenNames -merge -useContext -underBinder x0 c1 c3 c5 c7 c9
  have h2 : SameMem c c1 := by
    unfold c1
    split
    · exact Chip.setObjState_sameMem
    · exact Chip.setBit_sameMem
    · exact .refl
  have h4 : SameMem c c3 := .of Chip.setBit_sameMem (.of Chip.setCan_sameMem h2)
  have h6 : SameMem c c5 := .of Chip.canEv_sameMem (.of Chip.canFlag_sameMem (.of Chip.inc_sameMem h4))
  have h8 : SameMem c c7 := .ite (.of Chip.ttLevel_sameMem h6) h6
  have h10 : SameMem c c9 := .of Chip.setReg_sameMem h8
  clear_value c1 c3 c5 c7 c9
  exact .ite (.of Chip.txFails_sameMem h10) h4

theorem Chip.ownReference_sameMem {c : Chip} {a0 a1 a2 a3} : SameMem c (Chip.ownReference c a0 a1 a2 a3) := by
  unfold Chip.ownReference
  extract_lets +onlyGivenNames -merge -useContext -underBinder c0 x2 x3 x4
  have h1 : SameMem c c0 := Chip.refMark_sameMem
  clear_value c0
  exact .of Chip.setCan_sameMem h1

theorem Chip.rxFails_sameMem {c : Chip} {a0 a1} : SameMem c (Chip.rxFails c a0 a1) := by
  unfold Chip.rxFails
  exact .of Chip.canQuiet_sameMem Chip.setCounters_sameMem

theorem Chip.setFired_sameMem {c : Chip} {a0 a1} : SameMem c (Chip.setFired c a0 a1) := by
  unfold Chip.setFired
  extract_lets +onlyGivenNames -merge -useContext -underBinder x0
  exact Chip.setCan_sameMem

theorem Chip.tdcMeasured_sameMem {c : Chip} {a0} : SameMem c (Chip.tdcMeasured c a0) := by
  unfold Chip.tdcMeasured
  exact .ite (.of Chip.setFld_sameMem Chip.takeFree_sameMem) .refl

theorem Chip.txFlagError_sameMem {c : Chip} {a0 a1 a2} : SameMem c (Chip.txFlagError c a0 a1 a2) := by
  unfold Chip.txFlagError
  extract_lets +onlyGivenNames -merge -useContext -underBinder c0
  have h1 : SameMem c c0 := Chip.setCounters_sameMem
  clear_value c0
  refine .ite h1 ?_
  split
  · exact .of Chip.canFrameEnd_sameMem (.of Chip.attemptFailed_sameMem h1)
  · exact .ite (.of Chip.setObjState_sameMem h1) h1
  · exact h1

theorem Chip.waitUnsent_sameMem {c : Chip} {a0} : SameMem c (Chip.waitUnsent c a0) := by
  unfold Chip.waitUnsent
  split
  · extract_lets +onlyGivenNames -merge -useContext -underBinder x0
    exact .of Chip.mscUp_sameMem Chip.setCan_sameMem
  · exact .refl

theorem Chip.xlFails_sameMem {c : Chip} {a0 a1} : SameMem c (Chip.xlFails c a0 a1) := by
  unfold Chip.xlFails
  extract_lets +onlyGivenNames -merge -useContext -underBinder c0 c2 c4 c8 x10
  have h1 : SameMem c c0 := .of Chip.canEv_sameMem (.of Chip.canFlag_sameMem Chip.tdcMeasured_sameMem)
  have h3 : SameMem c c2 := .of Chip.setCounters_sameMem h1
  have h5 : SameMem c c4 := by
    unfold c4
    split
    · extract_lets +onlyGivenNames -merge -useContext -underBinder c6
      have h7 : SameMem c c6 := .of Chip.setBit_sameMem h3
      clear_value c6
      exact .ite (.of Chip.objEnds_sameMem (.of Chip.setBit_sameMem h7)) (.of Chip.objEnds_sameMem h7)
    · exact h3
  have h9 : SameMem c c8 := .of Chip.canFrameEnd_sameMem h5
  clear_value c0 c2 c4 c8
  exact .of Chip.setCan_sameMem h9

theorem canArbLost_sameMem {c : Chip} {a0} : SameMem c (canArbLost c a0) := by
  unfold canArbLost
  split
  · exact .refl
  · extract_lets +onlyGivenNames -merge -useContext -underBinder x0 c1 x3
    have h2 : SameMem c c1 := .of Chip.canFrameEnd_sameMem Chip.attemptFailed_sameMem
    clear_value c1
    refine .ite (.of Chip.setBit_sameMem (.of Chip.setBit_sameMem (.of Chip.setCan_sameMem h2))) ?_
    exact .of Chip.setBit_sameMem h2

theorem canArbitrating_sameMem {c : Chip} {a0 a1} : SameMem c (canArbitrating c a0 a1) := by
  unfold canArbitrating
  extract_lets +onlyGivenNames -merge -useContext -underBinder c0 x2
  have h1 : SameMem c c0 := Chip.setFired_sameMem
  clear_value c0
  exact .ite (.of Chip.setCan_sameMem h1) .refl

theorem canBusError_sameMem {c : Chip} {a0 a1} : SameMem c (canBusError c a0 a1) := by
  unfold canBusError
  extract_lets +onlyGivenNames -merge -useContext -underBinder c0 x2 x3 x4 x5
  have h1 : SameMem c c0 := .of Chip.setReg_sameMem (.ite Chip.tdcMeasured_sameMem .refl)
  clear_value c0
  refine .ite .refl ?_
  split
  · exact .ite (.of Chip.txFails_sameMem h1) (.of Chip.rxFails_sameMem h1)
  · exact .ite (.of Chip.txFails_sameMem h1) (.of Chip.rxFails_sameMem h1)
  · exact .ite h1 (.of Chip.setCounters_sameMem h1)
  · exact .ite (.of Chip.txFlagError_sameMem h1) (.of Chip.setCounters_sameMem h1)
  · exact .ite (.of Chip.txFlagError_sameMem h1) (.of Chip.setCounters_sameMem h1)

theorem canBusoffRecovered_sameMem {c : Chip} {a0 a1} : SameMem c (canBusoffRecovered c a0 a1) := by
  unfold canBusoffRecovered
  extract_lets +onlyGivenNames -merge -useContext -underBinder x0 c1 c3
  have h2 : SameMem c c1 := .of Chip.setFld_sameMem (.of Chip.setBit_sameMem Chip.setReg_sameMem)
  have h4 : SameMem c c3 := .of Chip.canEv_sameMem (.of Chip.setFld_sameMem h2)
  clear_value c1 c3
  refine .ite .refl ?_
  refine .ite Chip.setFld_sameMem ?_
  refine .foldl ?_ ?_
  · intro c5 x6 h7
    exact .ite (.of Chip.setObjState_sameMem h7) h7
  · exact h4

theorem canExclusive_sameMem {c : Chip} {a0 a1 a2} : SameMem c (canExclusive c a0 a1 a2) := by
  unfold canExclusive
  extract_lets +onlyGivenNames -merge -useContext -underBinder x0 x1 c2 x4 x5 x6 x7 x8 x9
  have h3 : SameMem c c2 := .of Chip.waitUnsent_sameMem Chip.setFired_sameMem
  clear_value c2
  refine .ite .refl ?_
  refine .ite ?_ (.of Chip.mscUp_sameMem h3)
  refine .ite (.ite (.of Chip.canStart_sameMem h3) (.of Chip.canStart_sameMem h3)) ?_
  exact .of Chip.setCan_sameMem h3

theorem canFrameCommit_sameMem {c : Chip} {a0} : SameMem c (canFrameCommit c a0) := by
  unfold canFrameCommit
  refine .ite .refl ?_
  refine .ite ?_ ?_
  · split
    · extract_lets +onlyGivenNames -merge -useContext -underBinder x0
      exact .ite .refl (.ite Chip.canStart_sameMem (.ite Chip.canStart_sameMem .refl))
    · split
      · exact .refl
      · refine .ite .refl ?_
        split
        · exact Chip.canStart_sameMem
        · split
          · exact Chip.canStart_sameMem
          · exact .refl
  · split
    · exact Chip.canStart_sameMem
    · exact .refl

theorem canIntegrated_sameMem {c : Chip} {a0} : SameMem c (canIntegrated c a0) := by
  unfold canIntegrated
  extract_lets +onlyGivenNames -merge -useContext -underBinder x0
  exact .ite (.of Chip.ttRestart_sameMem (.of Chip.setBit_sameMem Chip.setCan_sameMem)) .refl

theorem canMatrixStart_sameMem {c : Chip} {a0} : SameMem c (canMatrixStart c a0) := by
  unfold canMatrixStart
  extract_lets +onlyGivenNames -merge -useContext -underBinder x0 c1
  have h2 : SameMem c c1 := .of Chip.canEv_sameMem Chip.setCan_sameMem
  clear_value c1
  refine .ite .refl ?_
  refine .ite ?_ (.ite Chip.advanceMatrix_sameMem .refl)
  split
  · exact .of Chip.setAgreement_sameMem h2
  · exact h2

theorem canReceiveCheck_sameMem {c : Chip} {a0 a1} : SameMem c (canReceiveCheck c a0 a1) := by
  unfold canReceiveCheck
  extract_lets +onlyGivenNames -merge -useContext -underBinder c0 x2
  have h1 : SameMem c c0 := Chip.setFired_sameMem
  clear_value c0
  exact .ite (.of Chip.setCan_sameMem h1) .refl

theorem canReference_sameMem {c : Chip} {a0 a1} : SameMem c (canReference c a0 a1) := by
  unfold canReference
  extract_lets +onlyGivenNames -merge -useContext -underBinder x0 x1 c2 c4 x6 x7
  have h3 : SameMem c c2 := .ite Chip.advanceMatrix_sameMem .refl
  have h5 : SameMem c c4 := .ite (.of Chip.ttLevel_sameMem h3) h3
  clear_value c2 c4
  exact .ite .refl (.ite (.of Chip.canStart_sameMem h5) .refl)

theorem canReferenceReceived_keepsWf {c : Chip} {a0 a1 a2} : KeepsWf c (canReferenceReceived c a0 a1 a2) := by
  unfold canReferenceReceived
  exact Chip.canArrives_keepsWf

theorem canRxFrame_keepsWf {c : Chip} {a0 a1 a2 a3} : KeepsWf c (canRxFrame c a0 a1 a2 a3) := by
  unfold canRxFrame
  extract_lets +onlyGivenNames -merge -useContext -underBinder x0
  exact .ite (.ite (.of Chip.setBit_sameMem.keeps Chip.setCan_sameMem.keeps) .refl) Chip.canArrives_keepsWf

theorem canStartExpiry_sameMem {c : Chip} {a0} : SameMem c (canStartExpiry c a0) := by
  unfold canStartExpiry
  split
  · exact .refl
  · extract_lets +onlyGivenNames -merge -useContext -underBinder x0
    exact .ite (.of Chip.mscUp_sameMem Chip.setCan_sameMem) .refl

theorem canTxComplete_keepsWf {c : Chip} {a0} : KeepsWf c (canTxComplete c a0) := by
  unfold canTxComplete
  split
  · exact .refl
  · extract_lets +onlyGivenNames -merge -useContext -underBinder c0 c2 x4 c11 x18 c19
    have h1 : KeepsWf c c0 := Chip.guardHears_sameMem.keeps
    have h3 : KeepsWf c c2 := .of Chip.setCounters_sameMem.keeps (.ite (.of Chip.tdcMeasured_sameMem.keeps h1) h1)
    have h5 : ∀ z6 z7, KeepsWf c z6 → KeepsWf c (x4 z6 z7) := by
      intro z6 z7 h8
      unfold x4
      extract_lets +onlyGivenNames -merge -useContext -underBinder c9
      have h10 : KeepsWf c c9 := .of Chip.setReg_sameMem.keeps h8
      clear_value c9
      exact .ite (.of Chip.setReg_sameMem.keeps h10) h10
    have h12 : KeepsWf c c11 := by
      unfold c11
      split
      · extract_lets +onlyGivenNames -merge -useContext -underBinder c13 c15
        have h14 : KeepsWf c c13 := .ite (.of Chip.setBit_sameMem.keeps h3) h3
        have h16 : KeepsWf c c15 := h5 _ _ h14
        clear_value c13 c15
        exact .of Chip.objEnds_sameMem.keeps (.ite (.of Chip.mscDown_sameMem.keeps h16) h16)
      · exact .of Chip.mscDown_sameMem.keeps (h5 _ _ h3)
      · exact .of Chip.ownReference_sameMem.keeps (.of Chip.setBit_sameMem.keeps h3)
      · extract_lets +onlyGivenNames -merge -useContext -underBinder x17
        exact .of Chip.setCan_sameMem.keeps h3
    have h20 : KeepsWf c c19 := .ite (.of Chip.canReceive_keepsWf h12) (.ite (.of Chip.ringStore_keepsWf h12) h12)
    clear_value c0 c2 c11 c19
    exact .of Chip.canFrameEnd_sameMem.keeps h20

theorem canVetoReceived_keepsWf {c : Chip} {a0 a1 a2} : KeepsWf c (canVetoReceived c a0 a1 a2) := by
  unfold canVetoReceived
  exact Chip.canArrives_keepsWf

theorem canWatch_sameMem {c : Chip} {a0 a1} : SameMem c (canWatch c a0 a1) := by
  unfold canWatch
  exact .ite (.of Chip.ttLevel_sameMem Chip.setFired_sameMem) .refl

theorem canWindowEnd_sameMem {c : Chip} {a0} : SameMem c (canWindowEnd c a0) := by
  unfold canWindowEnd
  extract_lets +onlyGivenNames -merge -useContext -underBinder x0 x1 x2
  refine .foldl ?_ ?_
  · intro c3 x4 h5
    exact .of Chip.mscUp_sameMem h5
  · exact Chip.setCan_sameMem

theorem canXlRead_sameMem {c : Chip} {a0 a1} : SameMem c (canXlRead c a0 a1) := by
  unfold canXlRead
  extract_lets +onlyGivenNames -merge -useContext -underBinder x0
  split
  · exact .refl
  · split
    · extract_lets +onlyGivenNames -merge -useContext -underBinder x1 x2 x3 x4
      refine .ite .refl ?_
      refine .ite Chip.xlFails_sameMem ?_
      split
      · rename_i y5 y6 e7
        have h8 : SameMem c y6 := by
          refine .ofEq1 e7 ?_
          exact Chip.dmaRead_sameMem
        extract_lets +onlyGivenNames -merge -useContext -underBinder x9 x10
        exact .of Chip.setCan_sameMem h8
      · rename_i y11 e12
        have h13 : SameMem c y11 := by
          refine .ofEq1 e12 ?_
          exact Chip.dmaRead_sameMem
        extract_lets +onlyGivenNames -merge -useContext -underBinder x14
        exact .of Chip.xlFails_sameMem (.of Chip.freezeAt_sameMem (.of Chip.setCan_sameMem h13))
      · rename_i y15 e16
        have h17 : SameMem c y15 := by
          refine .ofEq1 e16 ?_
          exact Chip.dmaRead_sameMem
        exact h17
      · rename_i y18 y19 o20 o21 e22
        have h23 : SameMem c y19 := by
          refine .ofEq1 e22 ?_
          exact Chip.dmaRead_sameMem
        exact .of Chip.xlFails_sameMem h23
    · exact .refl

theorem guardianWindow_sameMem {c : Chip} {a0 a1} : SameMem c (guardianWindow c a0 a1) := by
  unfold guardianWindow
  extract_lets +onlyGivenNames -merge -useContext -underBinder x0 c1
  have h2 : SameMem c c1 := Chip.setBit_sameMem
  clear_value c1
  refine .ite (.of Chip.txFails_sameMem (.of Chip.setReg_sameMem (.ite (.of Chip.tdcMeasured_sameMem h2) h2))) ?_
  exact h2

end Sys2Proof.Machine
end

