-- ==== Sys2Proof/Laws/KeepCvu.lean ====
section
/-!
SUPPORT. What each operation of Machine/Cvu.lean does to memory: it changes no byte (`SameMem`), or keeps
the canonical form (`KeepsWf`).
-/
namespace Sys2Proof.Machine

theorem cvLoad_sameMem {c : Chip} {a0 a1} : SameMem c (cvLoad c a0 a1) := by
  unfold cvLoad
  extract_lets +onlyGivenNames -merge -useContext -underBinder x0
  have h1 : ∀ z2 z3 z4 z5 z6, SameMem c (x0 z2 z3 z4 z5 z6) := by
    intro z2 z3 z4 z5 z6
    unfold x0
    extract_lets +onlyGivenNames -merge -useContext -underBinder c8
    have h9 : SameMem c c8 := Chip.setReg_sameMem
    clear_value c8
    exact .of Chip.setReg64_sameMem (.of Chip.setReg64_sameMem (.of Chip.setReg64_sameMem h9))
  split
  · exact h1 _ _ _ _ _
  · exact h1 _ _ _ _ _
  · exact h1 _ _ _ _ _
  · exact h1 _ _ _ _ _

theorem Chip.cvStep_sameMem {c : Chip} {a0 a1} : SameMem c (Chip.cvStep c a0 a1) := by
  unfold Chip.cvStep
  extract_lets +onlyGivenNames -merge -useContext -underBinder x0 x1
  exact Chip.setReg64_sameMem

theorem cvStart_sameMem {c : Chip} {a0} : SameMem c (cvStart c a0) := by
  unfold cvStart
  extract_lets +onlyGivenNames -merge -useContext -underBinder c0
  have h1 : SameMem c c0 := .of Chip.setReg_sameMem Chip.setReg64_sameMem
  clear_value c0
  exact .ite (.of Chip.cvStep_sameMem h1) h1

theorem cvFinish_sameMem {c : Chip} {a0} : SameMem c (cvFinish c a0) := by
  unfold cvFinish
  extract_lets +onlyGivenNames -merge -useContext -underBinder c0 x2 x3 x4
  have h1 : SameMem c c0 := .ite Chip.cvStep_sameMem .refl
  clear_value c0
  exact .of Chip.flag_sameMem (.of Chip.setReg64_sameMem h1)

theorem cvCtlWrite_sameMem {c : Chip} {a0 a1 a2} : SameMem c (cvCtlWrite c a0 a1 a2) := by
  unfold cvCtlWrite
  extract_lets +onlyGivenNames -merge -useContext -underBinder c0 c2
  have h1 : SameMem c c0 := .ite cvLoad_sameMem .refl
  have h3 : SameMem c c2 := .ite (.of cvStart_sameMem h1) h1
  clear_value c0 c2
  exact .ite Chip.refuse_sameMem (.of Chip.done_sameMem (.ite (.of cvFinish_sameMem h3) h3))

theorem Chip.cvShared_sameMem {c : Chip} {a0} : SameMem c (Chip.cvShared c a0) := by
  unfold Chip.cvShared
  exact .ite Chip.flag_sameMem .refl

theorem Chip.cvFeed_sameMem {c : Chip} {a0 a1} : SameMem c (Chip.cvFeed c a0 a1) := by
  unfold Chip.cvFeed
  extract_lets +onlyGivenNames -merge -useContext -underBinder c0
  have h1 : SameMem c c0 := .of Chip.cvShared_sameMem Chip.cvStep_sameMem
  clear_value c0
  exact .of Chip.setReg_sameMem h1

theorem cvDataWrite_sameMem {c : Chip} {a0 a1 a2 a3} : SameMem c (cvDataWrite c a0 a1 a2 a3) := by
  unfold cvDataWrite
  exact .ite (.of Chip.done_sameMem Chip.cvFeed_sameMem) Chip.refuse_sameMem

theorem cvuWrite_sameMem {c : Chip} {a0 a1 a2} : SameMem c (cvuWrite c a0 a1 a2) := by
  unfold cvuWrite
  extract_lets +onlyGivenNames -merge -useContext -underBinder x0
  split
  · extract_lets +onlyGivenNames -merge -useContext -underBinder x1
    exact .ite Chip.refuse_sameMem Chip.plainWrite_sameMem
  · exact cvCtlWrite_sameMem
  · exact Chip.plainWrite_sameMem
  · exact cvDataWrite_sameMem
  · exact cvDataWrite_sameMem
  · exact .ite Chip.plainWrite_sameMem Chip.refuse_sameMem

theorem Chip.cvUnit_sameMem {c : Chip} {a0 a1 a2} : SameMem c (Chip.cvUnit c a0 a1 a2) := by
  unfold Chip.cvUnit
  exact .ite Chip.cvFeed_sameMem Chip.flag_sameMem

end Sys2Proof.Machine
end

