-- ==== Sys2Proof/Laws/KeepSwx.lean ====
section
/-!
SUPPORT. What each operation of Machine/Swx.lean does to memory: it changes no byte (`SameMem`), or keeps
the canonical form (`KeepsWf`).
-/
namespace Sys2Proof.Machine

theorem Chip.portEv_sameMem {c : Chip} {a0 a1} : SameMem c (Chip.portEv c a0 a1) := by
  unfold Chip.portEv
  exact Chip.raise_sameMem

theorem Chip.portFlag_sameMem {c : Chip} {a0 a1} : SameMem c (Chip.portFlag c a0 a1) := by
  unfold Chip.portFlag
  exact .of Chip.portEv_sameMem Chip.setBit_sameMem

theorem Chip.count_sameMem {c : Chip} {a0 a1 a2} : SameMem c (Chip.count c a0 a1 a2) := by
  unfold Chip.count
  extract_lets +onlyGivenNames -merge -useContext -underBinder x0 x1 c2
  have h3 : SameMem c c2 := Chip.setReg_sameMem
  clear_value c2
  exact .ite h3 (.of Chip.portEv_sameMem (.ite (.of Chip.setBit_sameMem h3) (.of Chip.setBit_sameMem h3)))

theorem Chip.release_sameMem {c : Chip} {a0} : SameMem c (Chip.release c a0) := by
  unfold Chip.release
  extract_lets +onlyGivenNames -merge -useContext -underBinder x0
  exact .ite .refl (.mk2 .refl rfl)

theorem Chip.settle_sameMem {c : Chip} {a0} : SameMem c (Chip.settle c a0) := by
  unfold Chip.settle
  refine .foldl ?_ ?_
  · intro c0 x1 h2
    extract_lets +onlyGivenNames -merge -useContext -underBinder x3 x4
    exact .mk2 h2 rfl
  · exact .refl

theorem Chip.setTx_sameMem {c : Chip} {a0 a1} : SameMem c (Chip.setTx c a0 a1) := by
  unfold Chip.setTx
  extract_lets +onlyGivenNames -merge -useContext -underBinder x0
  exact .mk2 .refl rfl

theorem Chip.setHeld_sameMem {c : Chip} {a0 a1} : SameMem c (Chip.setHeld c a0 a1) := by
  unfold Chip.setHeld
  extract_lets +onlyGivenNames -merge -useContext -underBinder x0
  exact .mk2 .refl rfl

theorem Chip.setPortRun_sameMem {c : Chip} {a0 a1} : SameMem c (Chip.setPortRun c a0 a1) := by
  unfold Chip.setPortRun
  extract_lets +onlyGivenNames -merge -useContext -underBinder x0
  exact .mk2 .refl rfl

theorem Chip.setQueue_sameMem {c : Chip} {a0 a1 a2} : SameMem c (Chip.setQueue c a0 a1 a2) := by
  unfold Chip.setQueue
  extract_lets +onlyGivenNames -merge -useContext -underBinder x0
  exact .mk2 .refl rfl

theorem Chip.setEntry_sameMem {c : Chip} {a0 a1 a2} : SameMem c (Chip.setEntry c a0 a1 a2) := by
  unfold Chip.setEntry
  extract_lets +onlyGivenNames -merge -useContext -underBinder x0
  exact .mk2 .refl rfl

theorem Chip.setEntryWord_sameMem {c : Chip} {a0 a1 a2 a3} : SameMem c (Chip.setEntryWord c a0 a1 a2 a3) := by
  unfold Chip.setEntryWord
  exact Chip.setEntry_sameMem

theorem Chip.setSlotPend_sameMem {c : Chip} {a0 a1} : SameMem c (Chip.setSlotPend c a0 a1) := by
  unfold Chip.setSlotPend
  exact Chip.setEntryWord_sameMem

theorem Chip.dropCopy_sameMem {c : Chip} {a0} : SameMem c (Chip.dropCopy c a0) := by
  unfold Chip.dropCopy
  refine .of Chip.release_sameMem ?_
  split
  · exact Chip.setSlotPend_sameMem
  · exact .refl

theorem Chip.flushQueues_sameMem {c : Chip} {a0 a1} : SameMem c (Chip.flushQueues c a0 a1).2 := by
  unfold Chip.flushQueues
  refine .foldl1 ?_ ?_
  · intro c0 x1 h2
    extract_lets +onlyGivenNames -merge -useContext -underBinder x3 c4
    have h5 : SameMem c c4 := .of Chip.setQueue_sameMem (.of Chip.settle_sameMem h2)
    clear_value c4
    refine .ite1 ?_ h2
    refine .pair1 ?_
    refine .foldl ?_ ?_
    · intro c6 x7 h8
      exact .of Chip.dropCopy_sameMem h8
    · exact h5
  · exact .pair1 .refl

theorem Chip.setLpi_sameMem {c : Chip} {a0 a1} : SameMem c (Chip.setLpi c a0 a1) := by
  unfold Chip.setLpi
  extract_lets +onlyGivenNames -merge -useContext -underBinder x0
  exact .mk2 .refl rfl

theorem Chip.leaveLpi_sameMem {c : Chip} {a0} : SameMem c (Chip.leaveLpi c a0) := by
  unfold Chip.leaveLpi
  extract_lets +onlyGivenNames -merge -useContext -underBinder x0 c1 c3
  have h2 : SameMem c c1 := Chip.count_sameMem
  have h4 : SameMem c c3 := .of Chip.setBit_sameMem (.of Chip.setBit_sameMem h2)
  clear_value c1 c3
  exact .of Chip.setLpi_sameMem h4

theorem ledgerWrite_sameMem {c : Chip} {a0} : SameMem c (ledgerWrite c a0) := by
  unfold ledgerWrite
  extract_lets +onlyGivenNames -merge -useContext -underBinder x0
  exact .ite (.of Chip.done_sameMem (.of Chip.setBit_sameMem (.mk2 .refl rfl))) Chip.done_sameMem

theorem flushWrite_sameMem {c : Chip} {a0} : SameMem c (flushWrite c a0) := by
  unfold flushWrite
  extract_lets +onlyGivenNames -merge -useContext -underBinder c0
  have h1 : SameMem c c0 := Chip.setFld_sameMem
  clear_value c0
  refine .ite ?_ (.of Chip.done_sameMem h1)
  split
  · rename_i y2 y3 e4
    have h5 : SameMem c y3 := by
      refine .ofEq1 e4 ?_
      exact .of Chip.flushQueues_sameMem h1
    extract_lets +onlyGivenNames -merge -useContext -underBinder x6
    exact .of Chip.done_sameMem (.of Chip.setBit_sameMem (.mk2 h5 rfl))

theorem Chip.tblStart_sameMem {c : Chip} {a0 a1} : SameMem c (Chip.tblStart c a0 a1) := by
  unfold Chip.tblStart
  extract_lets +onlyGivenNames -merge -useContext -underBinder c0 x2
  have h1 : SameMem c c0 := Chip.setReg_sameMem
  clear_value c0
  exact .mk2 h1 rfl

theorem Chip.setTblData_sameMem {c : Chip} {a0} : SameMem c (Chip.setTblData c a0) := by
  unfold Chip.setTblData
  refine .foldl ?_ ?_
  · intro c0 x1 h2
    exact .of Chip.setReg_sameMem h2
  · exact .refl

theorem tableRead_sameMem {c : Chip} {a0 a1} : SameMem c (tableRead c a0 a1) := by
  unfold tableRead
  split
  · exact Chip.tblStart_sameMem
  · exact .of Chip.tblStart_sameMem Chip.setTblData_sameMem

theorem Chip.writeEntry_sameMem {c : Chip} {a0 a1 a2} : SameMem c (Chip.writeEntry c a0 a1 a2) := by
  unfold Chip.writeEntry
  extract_lets +onlyGivenNames -merge -useContext -underBinder c0
  have h1 : SameMem c c0 := Chip.setEntry_sameMem
  clear_value c0
  split
  · extract_lets +onlyGivenNames -merge -useContext -underBinder x2 x3
    exact .mk2 h1 rfl
  · extract_lets +onlyGivenNames -merge -useContext -underBinder x4 x5
    exact .mk2 h1 rfl
  · exact h1

theorem tableWrite_sameMem {c : Chip} {a0 a1} : SameMem c (tableWrite c a0 a1) := by
  unfold tableWrite
  split
  · exact Chip.tblStart_sameMem
  · split
    · exact Chip.tblStart_sameMem
    · exact .of Chip.tblStart_sameMem Chip.writeEntry_sameMem

theorem tableSearch_sameMem {c : Chip} {a0 a1} : SameMem c (tableSearch c a0 a1) := by
  unfold tableSearch
  extract_lets +onlyGivenNames -merge -useContext -underBinder x0 x1
  clear_value x1
  split
  · exact Chip.tblStart_sameMem
  · exact Chip.tblStart_sameMem
  · exact .of Chip.tblStart_sameMem Chip.setTblData_sameMem

theorem tableClear_sameMem {c : Chip} {a0 a1} : SameMem c (tableClear c a0 a1) := by
  unfold tableClear
  split
  · exact Chip.tblStart_sameMem
  · exact .ite Chip.tblStart_sameMem (.of Chip.tblStart_sameMem Chip.setEntry_sameMem)

theorem tblCmdWrite_sameMem {c : Chip} {a0} : SameMem c (tblCmdWrite c a0) := by
  unfold tblCmdWrite
  extract_lets +onlyGivenNames -merge -useContext -underBinder x0 x1
  refine .ite ?_ Chip.done_sameMem
  refine .of Chip.done_sameMem ?_
  split
  · exact tableRead_sameMem
  · exact tableWrite_sameMem
  · exact tableSearch_sameMem
  · exact tableClear_sameMem

theorem Chip.gclErr_sameMem {c : Chip} {a0} : SameMem c (Chip.gclErr c a0) := by
  unfold Chip.gclErr
  exact Chip.flag_sameMem

theorem Chip.setGcl_sameMem {c : Chip} {a0 a1} : SameMem c (Chip.setGcl c a0 a1) := by
  unfold Chip.setGcl
  extract_lets +onlyGivenNames -merge -useContext -underBinder x0
  exact .mk2 .refl rfl

theorem gclChange_sameMem {c : Chip} {a0 a1} : SameMem c (gclChange c a0 a1) := by
  unfold gclChange
  extract_lets +onlyGivenNames -merge -useContext -underBinder x0 x1 x2 x3 x4 x5 x6
  refine .ite (.ite (.of Chip.done_sameMem Chip.gclErr_sameMem) (.of Chip.done_sameMem Chip.setGcl_sameMem)) ?_
  exact Chip.done_sameMem

theorem swxWrite_sameMem {c : Chip} {a0 a1 a2} : SameMem c (swxWrite c a0 a1 a2) := by
  unfold swxWrite
  extract_lets +onlyGivenNames -merge -useContext -underBinder x0
  refine .ite ledgerWrite_sameMem ?_
  refine .ite Chip.plainWrite_sameMem ?_
  refine .ite flushWrite_sameMem ?_
  refine .ite tblCmdWrite_sameMem ?_
  refine .ite gclChange_sameMem ?_
  exact .ite (.of Chip.plainWrite_sameMem Chip.settle_sameMem) Chip.plainWrite_sameMem

theorem Chip.generate_sameMem {c : Chip} {a0 a1 a2 a3} : SameMem c (Chip.generate c a0 a1 a2 a3).2 := by
  unfold Chip.generate
  split
  · exact .pair1 .refl
  · extract_lets +onlyGivenNames -merge -useContext -underBinder x0 x1 x2 x3 x4
    exact .ite1 (.ite1 (.pair1 Chip.inc_sameMem) (.pair1 Chip.setEntryWord_sameMem)) (.pair1 .refl)

theorem Chip.admitFrame_sameMem {c : Chip} {a0} : SameMem c (Chip.admitFrame c a0).2 := by
  unfold Chip.admitFrame
  extract_lets +onlyGivenNames -merge -useContext -underBinder x0
  exact .pair1 (.mk2 .refl rfl)

theorem Chip.incEntry_sameMem {c : Chip} {a0 a1 a2} : SameMem c (Chip.incEntry c a0 a1 a2) := by
  unfold Chip.incEntry
  exact Chip.setEntryWord_sameMem

theorem Chip.supersede_sameMem {c : Chip} {a0 a1 a2} : SameMem c (Chip.supersede c a0 a1 a2) := by
  unfold Chip.supersede
  split
  · exact .refl
  · extract_lets +onlyGivenNames -merge -useContext -underBinder c0
    have h1 : SameMem c c0 := .of Chip.setSlotPend_sameMem (.of Chip.setQueue_sameMem Chip.settle_sameMem)
    clear_value c0
    exact .of Chip.release_sameMem (.of Chip.raise_sameMem (.of Chip.inc_sameMem (.of Chip.incEntry_sameMem h1)))

theorem Chip.supersedeIn_sameMem {c : Chip} {a0 a1} : SameMem c (Chip.supersedeIn c a0 a1) := by
  unfold Chip.supersedeIn
  refine .ite ?_ .refl
  refine .foldl ?_ ?_
  · intro c0 x1 h2
    exact .of Chip.supersede_sameMem h2
  · exact .refl

theorem Chip.noteQueued_sameMem {c : Chip} {a0} : SameMem c (Chip.noteQueued c a0) := by
  unfold Chip.noteQueued
  extract_lets +onlyGivenNames -merge -useContext -underBinder c0 x2
  have h1 : SameMem c c0 := .ite Chip.leaveLpi_sameMem .refl
  clear_value c0
  exact .ite (.of Chip.setLpi_sameMem h1) .refl

theorem Chip.link_sameMem {c : Chip} {a0 a1} : SameMem c (Chip.link c a0 a1).2 := by
  unfold Chip.link
  extract_lets len c0 c1 c2
  have h0 : SameMem c c0 := by
    refine .of Chip.settle_sameMem ?_
    split
    · exact Chip.supersedeIn_sameMem
    · exact .refl
  have h1 : SameMem c c1 := .of Chip.setQueue_sameMem h0
  have h2 : SameMem c c2 := by
    unfold c2
    split
    · exact .of Chip.setSlotPend_sameMem h1
    · exact h1
  exact .ite1 (.pair1 Chip.inc_sameMem)
    (.ite1 (.pair1 Chip.inc_sameMem) (.pair1 (.of Chip.noteQueued_sameMem h2)))

theorem Chip.linkAll_sameMem {c : Chip} {ports fid cls vid tagged req slot} :
    SameMem c (Chip.linkAll c ports fid cls vid tagged req slot).2 := by
  unfold Chip.linkAll
  generalize List.range 8 = l
  refine .foldl1 ?_ ?_
  · intro q p h
    refine .ite1 ?_ h
    exact .pair1 (.of Chip.link_sameMem h)
  · exact .refl

theorem Chip.poolMarks_sameMem {c : Chip} {a0} : SameMem c (Chip.poolMarks a0 c) := by
  unfold Chip.poolMarks
  extract_lets +onlyGivenNames -merge -useContext -underBinder x0 c1
  have h2 : SameMem c c1 := .ite Chip.flag_sameMem .refl
  clear_value c1
  exact .ite (.of Chip.flag_sameMem h2) h2

theorem Chip.incFrom0_sameMem {c : Chip} {a0 a1} : SameMem c (Chip.incFrom0 c a0 a1) := by
  unfold Chip.incFrom0
  extract_lets +onlyGivenNames -merge -useContext -underBinder c0
  have h1 : SameMem c c0 := Chip.inc_sameMem
  clear_value c0
  exact .ite (.of Chip.raise_sameMem h1) h1

theorem Chip.dropAged_sameMem {c : Chip} {p cls a src n} : SameMem c (Chip.dropAged c p cls a src n) := by
  induction n generalizing c with
  | zero => exact .refl
  | succ n ih =>
    unfold Chip.dropAged
    split
    · exact .refl
    · exact .ite (.of ih (.of Chip.incFrom0_sameMem (.of Chip.dropCopy_sameMem Chip.setQueue_sameMem))) .refl

theorem Chip.lateWake_sameMem {c : Chip} {a0 a1 a2} : SameMem c (Chip.lateWake c a0 a1 a2) := by
  unfold Chip.lateWake
  exact .ite (.of Chip.portEv_sameMem (.of Chip.setBit_sameMem Chip.count_sameMem)) .refl

theorem Chip.enterEntry_sameMem {c : Chip} {a0 a1 a2} : SameMem c (Chip.enterEntry c a0 a1 a2) := by
  unfold Chip.enterEntry
  extract_lets +onlyGivenNames -merge -useContext -underBinder c0 x2
  have h1 : SameMem c c0 := Chip.settle_sameMem
  clear_value c0
  split
  · exact h1
  · extract_lets +onlyGivenNames -merge -useContext -underBinder x3 x4 x5 c6 c8
    have h7 : SameMem c c6 := .of Chip.setGcl_sameMem h1
    have h9 : SameMem c c8 := .ite (.of Chip.count_sameMem h7) h7
    clear_value c6 c8
    exact .of Chip.lateWake_sameMem h9

theorem Chip.streamDrop_sameMem {c : Chip} {a0} : SameMem c (Chip.streamDrop c a0) := by
  unfold Chip.streamDrop
  exact .of Chip.raise_sameMem Chip.incEntry_sameMem

theorem Chip.meter_sameMem {c : Chip} {a0 a1 a2} : SameMem c (Chip.meter c a0 a1 a2).2 := by
  unfold Chip.meter
  extract_lets +onlyGivenNames -merge -useContext -underBinder x0 x1 x2 x3 x4 x5 x6 x7 x8 x9 x10 x11
  split
  · extract_lets +onlyGivenNames -merge -useContext -underBinder x12 c13
    have h14 : SameMem c c13 := .mk2 .refl rfl
    clear_value c13
    split
    · exact .pair1 (.of Chip.incEntry_sameMem h14)
    · exact .pair1 (.of Chip.incEntry_sameMem h14)
    · extract_lets +onlyGivenNames -merge -useContext -underBinder c15
      have h16 : SameMem c c15 := .of Chip.incEntry_sameMem h14
      clear_value c15
      exact .pair1 (.ite (.of Chip.setEntryWord_sameMem h16) h16)

theorem Chip.recover_sameMem {c : Chip} {a0 a1} : SameMem c (Chip.recover c a0 a1).2 := by
  unfold Chip.recover
  extract_lets +onlyGivenNames -merge -useContext -underBinder x0 x1 x2 x8
  have h3 : ∀ z4 z5, SameMem c z4 → SameMem c (x2 z4 z5) := by
    intro z4 z5 h6
    unfold x2
    extract_lets +onlyGivenNames -merge -useContext -underBinder x7
    exact .mk2 h6 rfl
  have h9 : ∀ z10 z11, SameMem c z10 → SameMem c (x8 z10 z11).2 := by
    intro z10 z11 h12
    unfold x8
    exact .pair1 (h3 _ _ (.of Chip.incEntry_sameMem h12))
  refine .ite1 (.pair1 .refl) ?_
  split
  · exact .ite1 (h9 _ _ .refl) (.pair1 Chip.incEntry_sameMem)
  · extract_lets +onlyGivenNames -merge -useContext -underBinder x13 x14 x15
    refine .ite1 (h9 _ _ .refl) ?_
    refine .ite1 (.ite1 (.pair1 Chip.incEntry_sameMem) (h9 _ _ (.ite .refl Chip.incEntry_sameMem))) ?_
    refine .ite1 (.pair1 (.of Chip.raise_sameMem (.of Chip.incEntry_sameMem Chip.incEntry_sameMem))) ?_
    refine .ite1 (.ite1 (.pair1 Chip.incEntry_sameMem) (h9 _ _ Chip.incEntry_sameMem)) ?_
    exact h9 _ _ (.ite .refl Chip.incEntry_sameMem)

theorem Chip.filterStream_sameMem {c : Chip} {a0 a1 a2 a3} : SameMem c (Chip.filterStream c a0 a1 a2 a3).2 := by
  unfold Chip.filterStream
  split
  · exact .pair1 .refl
  · extract_lets +onlyGivenNames -merge -useContext -underBinder x0 x1 c2 c4 x6 x7 x8 c9 x11
    have h3 : SameMem c c2 := Chip.incEntry_sameMem
    have h5 : SameMem c c4 := .ite (.of Chip.setEntryWord_sameMem h3) h3
    have h10 : SameMem c c9 := .ite (.of Chip.setEntryWord_sameMem h3) h3
    clear_value c2 c4 c9
    refine .ite1 (.pair1 (.of Chip.streamDrop_sameMem h3)) ?_
    refine .ite1 (.pair1 (.of Chip.streamDrop_sameMem (.of Chip.inc_sameMem h5))) ?_
    refine .ite1 (.pair1 (.of Chip.streamDrop_sameMem (.of Chip.inc_sameMem h10))) ?_
    split
    · rename_i y12 y13 e14
      have h15 : SameMem c y13 := by
        refine .ofEq1 e14 ?_
        exact .ite1 (.of Chip.meter_sameMem h3) (.pair1 h3)
      extract_lets +onlyGivenNames -merge -useContext -underBinder x16 x17 x18
      refine .ite1 (.pair1 (.of Chip.streamDrop_sameMem (.of Chip.inc_sameMem h15))) ?_
      refine .ite1 ?_ (.pair1 (.of Chip.incEntry_sameMem h15))
      split
      · rename_i y19 y20 e21
        have h22 : SameMem c y20 := by
          refine .ofEq1 e21 ?_
          exact .of Chip.recover_sameMem h15
        extract_lets +onlyGivenNames -merge -useContext -underBinder x23
        exact .ite1 (.pair1 (.of Chip.incEntry_sameMem h22)) (.pair1 (.of Chip.streamDrop_sameMem h22))

theorem Chip.slotStarts_sameMem {c : Chip} {a0} : SameMem c (Chip.slotStarts c a0) := by
  unfold Chip.slotStarts
  extract_lets +onlyGivenNames -merge -useContext -underBinder c0 x2
  have h1 : SameMem c c0 := Chip.setSlotPend_sameMem
  clear_value c0
  exact .mk2 h1 rfl

theorem Chip.select_sameMem {c : Chip} {p x n} : SameMem c (Chip.select c p x n).2 := by
  induction n generalizing c with
  | zero => exact .refl
  | succ n ih =>
    unfold Chip.select
    split
    · exact .refl
    · split
      · exact .refl
      · exact .ite1 (.of ih (.of Chip.incFrom0_sameMem (.of Chip.dropCopy_sameMem (.of Chip.setQueue_sameMem
          Chip.settle_sameMem)))) .refl

theorem Chip.learn_sameMem {c : Chip} {a0 a1 a2} : SameMem c (Chip.learn c a0 a1 a2) := by
  unfold Chip.learn
  extract_lets +onlyGivenNames -merge -useContext -underBinder x0 x1 x2
  refine .ite ?_ .refl
  split
  · exact .of Chip.setEntryWord_sameMem Chip.setEntryWord_sameMem
  · split
    · exact Chip.setEntry_sameMem
    · exact .of Chip.raise_sameMem Chip.inc_sameMem

theorem Chip.nullCheck_sameMem {c : Chip} {a0 a1} : SameMem c (Chip.nullCheck c a0 a1) := by
  unfold Chip.nullCheck
  extract_lets +onlyGivenNames -merge -useContext -underBinder c0 c2 c4
  have h1 : SameMem c c0 := .of Chip.setReg_sameMem cvLoad_sameMem
  have h3 : SameMem c c2 := .of Chip.setReg_sameMem h1
  have h5 : SameMem c c4 := .of Chip.cvStep_sameMem (.of cvStart_sameMem h3)
  clear_value c0 c2 c4
  exact .of cvFinish_sameMem (.of Chip.setReg_sameMem h5)

theorem Chip.operList_sameMem {c : Chip} {a0 a1} : SameMem c (Chip.operList c a0 a1) := by
  unfold Chip.operList
  extract_lets +onlyGivenNames -merge -useContext -underBinder x0
  refine .foldl ?_ ?_
  · intro c1 x2 h3
    exact .of Chip.setEntry_sameMem h3
  · exact Chip.setGcl_sameMem

theorem Chip.placeNull_sameMem {c : Chip} {a0 a1 a2} : SameMem c (Chip.placeNull c a0 a1 a2) := by
  unfold Chip.placeNull
  extract_lets +onlyGivenNames -merge -useContext -underBinder x0 x1
  split
  · rename_i y2 y3 e4
    have h5 : SameMem c y3 := by
      refine .ofEq1 e4 ?_
      exact Chip.admitFrame_sameMem
    extract_lets +onlyGivenNames -merge -useContext -underBinder c6 c8
    have h7 : SameMem c c6 := .of Chip.setQueue_sameMem (.of Chip.settle_sameMem h5)
    have h9 : SameMem c c8 := .of Chip.nullCheck_sameMem (.of Chip.noteQueued_sameMem (.of Chip.setReg_sameMem h7))
    clear_value c6 c8
    exact .of Chip.poolMarks_sameMem (.of Chip.raise_sameMem (.of Chip.inc_sameMem (.of Chip.incEntry_sameMem h9)))

theorem Chip.setSgate_sameMem {c : Chip} {a0 a1} : SameMem c (Chip.setSgate c a0 a1) := by
  unfold Chip.setSgate
  extract_lets +onlyGivenNames -merge -useContext -underBinder x0
  exact .mk2 .refl rfl

theorem Chip.sgateBegin_sameMem {c : Chip} {a0 a1 a2 a3 a4} : SameMem c (Chip.sgateBegin c a0 a1 a2 a3 a4) := by
  unfold Chip.sgateBegin
  extract_lets +onlyGivenNames -merge -useContext -underBinder x0
  exact Chip.setSgate_sameMem

theorem tableOpDone_sameMem {c : Chip} : SameMem c (tableOpDone c) := by
  unfold tableOpDone
  split
  · exact .refl
  · extract_lets +onlyGivenNames -merge -useContext -underBinder c0 x2
    have h1 : SameMem c c0 := Chip.setReg_sameMem
    clear_value c0
    exact .of Chip.raise_sameMem (.mk2 h1 rfl)

theorem fdbAge_sameMem {c : Chip} : SameMem c (fdbAge c) := by
  unfold fdbAge
  extract_lets +onlyGivenNames -merge -useContext -underBinder x0
  refine .foldl ?_ ?_
  · intro c1 x2 h3
    extract_lets +onlyGivenNames -merge -useContext -underBinder x4
    exact .ite (.ite (.of Chip.setEntry_sameMem h3) (.of Chip.setEntryWord_sameMem h3)) h3
  · exact .refl

theorem flushDone_sameMem {c : Chip} : SameMem c (flushDone c) := by
  unfold flushDone
  split
  · exact .refl
  · extract_lets +onlyGivenNames -merge -useContext -underBinder x0 c1
    have h2 : SameMem c c1 := .of Chip.setBit_sameMem (.mk2 .refl rfl)
    clear_value c1
    exact .of Chip.raise_sameMem (.of Chip.setReg_sameMem h2)

theorem gateEntryStart_sameMem {c : Chip} {a0} : SameMem c (gateEntryStart c a0) := by
  unfold gateEntryStart
  extract_lets +onlyGivenNames -merge -useContext -underBinder x0
  refine .ite ?_ .refl
  split
  · exact .refl
  · exact .ite .refl Chip.enterEntry_sameMem

theorem gclChangeTime_sameMem {c : Chip} {a0} : SameMem c (gclChangeTime c a0) := by
  unfold gclChangeTime
  split
  · exact .refl
  · exact .ite (.of gateEntryStart_sameMem (.of Chip.raise_sameMem Chip.operList_sameMem)) .refl

theorem ledgerLatch_sameMem {c : Chip} : SameMem c (ledgerLatch c) := by
  unfold ledgerLatch
  extract_lets +onlyGivenNames -merge -useContext -underBinder x0 x1 x2 c3 c5 c7
  have h4 : SameMem c c3 := .mk2 .refl rfl
  have h6 : SameMem c c5 := .of Chip.setReg_sameMem (.of Chip.setReg_sameMem (.of Chip.setReg_sameMem h4))
  have h8 : SameMem c c7 := .of Chip.setBit_sameMem (.of Chip.setBit_sameMem h6)
  clear_value c3 c5 c7
  exact .ite (.ite h8 (.of Chip.flag_sameMem h8)) .refl

theorem queueScrub_sameMem {c : Chip} : SameMem c (queueScrub c) := by
  unfold queueScrub
  extract_lets +onlyGivenNames -merge -useContext -underBinder x0 c1
  have h2 : SameMem c c1 := .mk2 .refl rfl
  clear_value c1
  refine .ite ?_ .refl
  refine .foldl ?_ ?_
  · intro c3 x4 h5
    refine .foldl ?_ ?_
    · intro c6 x7 h8
      exact .ite h8 (.of Chip.dropAged_sameMem (.of Chip.settle_sameMem h8))
    · exact h5
  · exact h2

theorem recoveryReset_sameMem {c : Chip} {a0} : SameMem c (recoveryReset c a0) := by
  unfold recoveryReset
  extract_lets +onlyGivenNames -merge -useContext -underBinder x0 c1 x3 x4
  have h2 : SameMem c c1 := Chip.incEntry_sameMem
  clear_value c1
  exact .ite (.of Chip.raise_sameMem (.mk2 h2 rfl)) .refl

theorem slotWindowOpen_sameMem {c : Chip} {a0} : SameMem c (slotWindowOpen c a0) := by
  unfold slotWindowOpen
  extract_lets +onlyGivenNames -merge -useContext -underBinder x0 x1 x2 x3 x4 x5 x6 c7
  have h8 : SameMem c c7 := .mk2 .refl rfl
  clear_value c7
  exact .ite .refl (.ite Chip.gclErr_sameMem (.ite (.ite (.of Chip.placeNull_sameMem h8) h8) .refl))

theorem streamGateEntry_sameMem {c : Chip} {a0} : SameMem c (streamGateEntry c a0) := by
  unfold streamGateEntry
  extract_lets +onlyGivenNames -merge -useContext -underBinder x0 x1 x2 x3 x4
  refine .ite (.ite Chip.sgateBegin_sameMem .refl) ?_
  refine .ite Chip.setSgate_sameMem ?_
  split
  · exact Chip.setSgate_sameMem
  · extract_lets +onlyGivenNames -merge -useContext -underBinder x5
    exact Chip.sgateBegin_sameMem

end Sys2Proof.Machine
end

