-- ==== Sys2Proof/Laws/KeepEth.lean ====
section
/-!
SUPPORT. What each operation of Machine/Eth.lean does to memory: it changes no byte (`SameMem`), or keeps
the canonical form (`KeepsWf`).
-/
namespace Sys2Proof.Machine

theorem Chip.abortTx_sameMem {c : Chip} {a0 a1} : SameMem c (Chip.abortTx c a0 a1) := by
  unfold Chip.abortTx
  exact .of Chip.portFlag_sameMem (.of Chip.count_sameMem Chip.release_sameMem)

theorem Chip.setVstatus_sameMem {c : Chip} {a0 a1} : SameMem c (Chip.setVstatus c a0 a1) := by
  unfold Chip.setVstatus
  exact .ite .refl (.of Chip.portEv_sameMem Chip.setFld_sameMem)

theorem Chip.startVerify_sameMem {c : Chip} {a0} : SameMem c (Chip.startVerify c a0) := by
  unfold Chip.startVerify
  extract_lets +onlyGivenNames -merge -useContext -underBinder x0
  refine .ite Chip.setVstatus_sameMem ?_
  exact .ite Chip.setVstatus_sameMem (.of Chip.setVstatus_sameMem (.mk2 .refl rfl))

theorem Chip.endLpi_sameMem {c : Chip} {a0} : SameMem c (Chip.endLpi c a0) := by
  unfold Chip.endLpi
  extract_lets +onlyGivenNames -merge -useContext -underBinder x0 c1 c3
  have h2 : SameMem c c1 := .ite Chip.count_sameMem .refl
  have h4 : SameMem c c3 := .ite (.of Chip.count_sameMem h2) h2
  clear_value c1 c3
  exact .of Chip.setReg_sameMem h4

theorem Chip.flushDown_sameMem {c : Chip} {a0} : SameMem c (Chip.flushDown c a0) := by
  unfold Chip.flushDown
  split
  · rename_i y0 y1 e2
    have h3 : SameMem c y1 := by
      refine .ofEq1 e2 ?_
      exact Chip.flushQueues_sameMem
    extract_lets +onlyGivenNames -merge -useContext -underBinder x4
    exact .of Chip.setBit_sameMem (.mk2 h3 rfl)

theorem Chip.dropLink_sameMem {c : Chip} {a0} : SameMem c (Chip.dropLink c a0) := by
  unfold Chip.dropLink
  extract_lets +onlyGivenNames -merge -useContext -underBinder c0 c2 c4 c6 x8 c9
  have h1 : SameMem c c0 := Chip.settle_sameMem
  have h3 : SameMem c c2 := by
    unfold c2
    split
    · exact .of Chip.abortTx_sameMem (.of Chip.setTx_sameMem h1)
    · exact h1
  have h5 : SameMem c c4 := by
    unfold c4
    split
    · exact .of Chip.abortTx_sameMem (.of Chip.setHeld_sameMem h3)
    · exact h3
  have h7 : SameMem c c6 := .of Chip.portEv_sameMem (.of Chip.setBit_sameMem (.of Chip.count_sameMem (.of Chip.setBit_sameMem h5)))
  have h10 : SameMem c c9 := .of Chip.startVerify_sameMem (.of Chip.endLpi_sameMem (.of Chip.setPortRun_sameMem h7))
  clear_value c0 c2 c4 c6 c9
  exact .ite (.ite (.of Chip.flushDown_sameMem h10) h10) h5

theorem Chip.seedBackoff_sameMem {c : Chip} {a0} : SameMem c (Chip.seedBackoff c a0) := by
  unfold Chip.seedBackoff
  split
  · rename_i y0 y1 e2
    have h3 : SameMem c y1 := by
      refine .ofEq1 e2 ?_
      exact Chip.takeFree_sameMem
    extract_lets +onlyGivenNames -merge -useContext -underBinder x4 x5
    exact .of Chip.setPortRun_sameMem h3

theorem Chip.resolve_sameMem {c : Chip} {a0 a1 a2} : SameMem c (Chip.resolve c a0 a1 a2) := by
  unfold Chip.resolve
  extract_lets +onlyGivenNames -merge -useContext -underBinder c0
  have h1 : SameMem c c0 := .of Chip.setBit_sameMem (.of Chip.setFld_sameMem Chip.settle_sameMem)
  clear_value c0
  exact .of Chip.setBit_sameMem h1

theorem Chip.raiseLink_sameMem {c : Chip} {a0} : SameMem c (Chip.raiseLink c a0) := by
  unfold Chip.raiseLink
  extract_lets +onlyGivenNames -merge -useContext -underBinder c0 x2 c3 x5
  have h1 : SameMem c c0 := .of Chip.portEv_sameMem (.of Chip.setBit_sameMem Chip.setBit_sameMem)
  have h4 : SameMem c c3 := .ite (.of Chip.setReg_sameMem h1) (.ite (.of Chip.setReg_sameMem h1) h1)
  clear_value c0 c3
  exact .of Chip.startVerify_sameMem (.of Chip.setLpi_sameMem h4)

theorem modeWrite_sameMem {c : Chip} {a0 a1} : SameMem c (modeWrite c a0 a1) := by
  unfold modeWrite
  extract_lets +onlyGivenNames -merge -useContext -underBinder x0 c1 c3 c8 c10 x12 c13 c15 c17 c19 c21
  have h2 : SameMem c c1 := Chip.dropLink_sameMem
  have h4 : SameMem c c3 := by
    refine .ite ?_ h2
    refine .of Chip.portEv_sameMem ?_
    refine .foldl ?_ ?_
    · intro c5 x6 h7
      exact .of Chip.setReg_sameMem h7
    · exact .of Chip.setBit_sameMem h2
  have h9 : SameMem c c8 := .of Chip.setReg_sameMem h4
  have h11 : SameMem c c10 := .of Chip.setReg_sameMem h9
  have h14 : SameMem c c13 := .of Chip.setPortRun_sameMem h11
  have h16 : SameMem c c15 := .ite (.of Chip.seedBackoff_sameMem h14) h14
  have h18 : SameMem c c17 := .ite (.of Chip.portEv_sameMem (.of Chip.setReg_sameMem h16)) h16
  have h20 : SameMem c c19 := by
    unfold c19
    split
    · exact .of Chip.resolve_sameMem h18
    · exact h18
  have h22 : SameMem c c21 := .of Chip.setBit_sameMem h20
  clear_value c1 c3 c8 c10 c13 c15 c17 c19 c21
  refine .ite (.of Chip.done_sameMem Chip.portFlag_sameMem) ?_
  exact .of Chip.done_sameMem (.ite (.of Chip.raiseLink_sameMem h22) h22)

theorem Chip.checkLpi_sameMem {c : Chip} {a0} : SameMem c (Chip.checkLpi c a0) := by
  unfold Chip.checkLpi
  exact .ite Chip.leaveLpi_sameMem .refl

theorem cableTestStart_sameMem {c : Chip} {a0 a1} : SameMem c (cableTestStart c a0 a1) := by
  unfold cableTestStart
  refine .ite (.ite (.of Chip.done_sameMem Chip.setBit_sameMem) (.of Chip.done_sameMem Chip.portFlag_sameMem)) ?_
  exact Chip.done_sameMem

theorem Chip.copyCounters_sameMem {c : Chip} {a0} : SameMem c (Chip.copyCounters c a0) := by
  unfold Chip.copyCounters
  refine .foldl ?_ ?_
  · intro c0 x1 h2
    exact .of Chip.setReg_sameMem h2
  · exact .refl

theorem counterSnapshot_sameMem {c : Chip} {a0 a1} : SameMem c (counterSnapshot c a0 a1) := by
  unfold counterSnapshot
  exact .ite (.of Chip.done_sameMem Chip.copyCounters_sameMem) Chip.done_sameMem

theorem counterClear_sameMem {c : Chip} {a0 a1} : SameMem c (counterClear c a0 a1) := by
  unfold counterClear
  refine .ite ?_ Chip.done_sameMem
  refine .of Chip.done_sameMem ?_
  refine .of Chip.setReg_sameMem ?_
  refine .of Chip.setReg_sameMem ?_
  refine .foldl ?_ ?_
  · intro c0 x1 h2
    exact .of Chip.setReg_sameMem h2
  · exact .refl

theorem ldfCommit_sameMem {c : Chip} {a0 a1} : SameMem c (ldfCommit c a0 a1) := by
  unfold ldfCommit
  exact .of Chip.done_sameMem (.of Chip.setReg_sameMem (.of Chip.setReg_sameMem Chip.setReg_sameMem))

theorem ethWrite_sameMem {c : Chip} {a0 a1 a2} : SameMem c (ethWrite c a0 a1 a2) := by
  unfold ethWrite
  extract_lets +onlyGivenNames -merge -useContext -underBinder x0 x1 x2 c3 x5 x6 x7 x8
  have h4 : SameMem c c3 := Chip.plainWrite_sameMem
  clear_value c3
  refine .ite ?_ ?_
  · refine .ite Chip.done_sameMem ?_
    refine .ite modeWrite_sameMem ?_
    refine .ite (.of Chip.done_sameMem Chip.setReg_sameMem) ?_
    refine .ite (.ite (.of Chip.checkLpi_sameMem (.of Chip.setBit_sameMem h4)) h4) ?_
    refine .ite (.of Chip.checkLpi_sameMem Chip.plainWrite_sameMem) ?_
    refine .ite (.ite Chip.plainWrite_sameMem (.of Chip.done_sameMem Chip.portFlag_sameMem)) ?_
    refine .ite Chip.plainWrite_sameMem ?_
    refine .ite (.of Chip.startVerify_sameMem Chip.plainWrite_sameMem) ?_
    refine .ite cableTestStart_sameMem ?_
    exact .ite counterSnapshot_sameMem (.ite counterClear_sameMem Chip.plainWrite_sameMem)
  · refine .ite ?_ Chip.plainWrite_sameMem
    refine .ite ldfCommit_sameMem ?_
    refine .ite (.of Chip.done_sameMem Chip.stage_sameMem) ?_
    exact .ite (.of Chip.done_sameMem Chip.stage_sameMem) Chip.plainWrite_sameMem

theorem Chip.countGood_sameMem {c : Chip} {a0 a1 a2 a3} : SameMem c (Chip.countGood c a0 a1 a2 a3) := by
  unfold Chip.countGood
  extract_lets +onlyGivenNames -merge -useContext -underBinder x0 x1 x2
  exact .of Chip.count_sameMem (.of Chip.count_sameMem (.of Chip.count_sameMem Chip.count_sameMem))

theorem Chip.decideLocal_sameMem {c : Chip} {a0 a1 a2 a3 a4} : SameMem c (Chip.decideLocal c a0 a1 a2 a3 a4) := by
  unfold Chip.decideLocal
  extract_lets +onlyGivenNames -merge -useContext -underBinder x0 x1
  have h2 : ∀ z3 z4 z5 z6, SameMem c z3 → SameMem c (x1 z3 z4 z5 z6) := by
    intro z3 z4 z5 z6 h7
    unfold x1
    extract_lets +onlyGivenNames -merge -useContext -underBinder x8
    exact .ite h7 (.mk2 h7 rfl)
  split
  · exact h2 _ _ _ _ Chip.inc_sameMem
  · exact h2 _ _ _ _ Chip.inc_sameMem

theorem Chip.drawBackoff_sameMem {c : Chip} {a0} : SameMem c (Chip.drawBackoff c a0).2 := by
  unfold Chip.drawBackoff
  extract_lets +onlyGivenNames -merge -useContext -underBinder x0 x1
  exact .pair1 Chip.setPortRun_sameMem

theorem Chip.oppEnds_sameMem {c : Chip} {a0} : SameMem c (Chip.oppEnds c a0) := by
  unfold Chip.oppEnds
  extract_lets +onlyGivenNames -merge -useContext -underBinder x0
  exact .ite Chip.setPortRun_sameMem .refl

theorem Chip.endTx_sameMem {c : Chip} {a0 a1} : SameMem c (Chip.endTx c a0 a1) := by
  unfold Chip.endTx
  extract_lets +onlyGivenNames -merge -useContext -underBinder c0 x2
  have h1 : SameMem c c0 := .of Chip.release_sameMem (.of Chip.oppEnds_sameMem (.of Chip.setTx_sameMem Chip.settle_sameMem))
  clear_value c0
  exact .of Chip.setLpi_sameMem h1

theorem Chip.ingressStamp_sameMem {c : Chip} {a0 a1} : SameMem c (Chip.ingressStamp c a0 a1).2 := by
  unfold Chip.ingressStamp
  extract_lets +onlyGivenNames -merge -useContext -underBinder x0 x1 c2
  have h3 : SameMem c c2.2 := .pair1 (.ite Chip.count_sameMem .refl)
  clear_value c2
  refine .ite1 h3 ?_
  split
  · exact h3
  · extract_lets +onlyGivenNames -merge -useContext -underBinder x4
    exact .pair1 Chip.setPortRun_sameMem

theorem Chip.firstFragment_sameMem {c : Chip} {a0 a1} : SameMem c (Chip.firstFragment c a0 a1) := by
  unfold Chip.firstFragment
  split
  · rename_i y0 y1 e2
    have h3 : SameMem c y1 := by
      refine .ofEq1 e2 ?_
      exact Chip.ingressStamp_sameMem
    extract_lets +onlyGivenNames -merge -useContext -underBinder x4
    exact .of Chip.setPortRun_sameMem h3

theorem Chip.oppTaken_sameMem {c : Chip} {a0} : SameMem c (Chip.oppTaken c a0) := by
  unfold Chip.oppTaken
  extract_lets +onlyGivenNames -merge -useContext -underBinder x0 x1
  exact .ite .refl (.ite Chip.setPortRun_sameMem (.of Chip.setPortRun_sameMem Chip.count_sameMem))

theorem Chip.txStamp_sameMem {c : Chip} {a0 a1 a2} : SameMem c (Chip.txStamp c a0 a1 a2) := by
  unfold Chip.txStamp
  exact .ite (.of Chip.pushStamp_sameMem Chip.count_sameMem) .refl

theorem Chip.startTx_sameMem {c : Chip} {a0 a1 a2 a3 a4} : SameMem c (Chip.startTx c a0 a1 a2 a3 a4) := by
  unfold Chip.startTx
  extract_lets +onlyGivenNames -merge -useContext -underBinder c0 x2 c3 c5 c7
  have h1 : SameMem c c0 := .of Chip.oppTaken_sameMem Chip.settle_sameMem
  have h4 : SameMem c c3 := by
    unfold c3
    split
    · exact .of Chip.slotStarts_sameMem h1
    · exact h1
  have h6 : SameMem c c5 := .of Chip.setTx_sameMem h4
  have h8 : SameMem c c7 := .ite (.of Chip.count_sameMem h6) h6
  clear_value c0 c3 c5 c7
  exact .ite (.of Chip.txStamp_sameMem h8) h8

theorem Chip.forward_sameMem {c : Chip} {a0 a1 a2 a3 a4 a5 a6 a7} : SameMem c (Chip.forward c a0 a1 a2 a3 a4 a5 a6 a7).2 := by
  unfold Chip.forward
  refine .foldl1 ?_ ?_
  · intro c0 x1 h2
    extract_lets +onlyGivenNames -merge -useContext -underBinder c3 x5
    have h4 : SameMem c c3 := h2
    clear_value c3
    refine .ite1 ?_ h2
    refine .ite1 ?_ ?_
    · refine .ite1 (.pair1 (.of Chip.inc_sameMem h4)) ?_
      exact .ite1 (.pair1 (.of Chip.inc_sameMem h4)) (.pair1 (.of Chip.startTx_sameMem h4))
    · refine .ite1 h2 ?_
      split
      · rename_i y6 y7 e8
        have h9 : SameMem c y7 := by
          refine .ofEq1 e8 ?_
          exact .of Chip.link_sameMem h4
        exact .pair1 h9
  · exact .pair1 .refl

theorem Chip.ingressClass_sameMem {c : Chip} {a0 a1 a2} : SameMem c (Chip.ingressClass c a0 a1 a2).2 := by
  unfold Chip.ingressClass
  exact .ite1 (.pair1 .refl) (.ite1 (.pair1 Chip.incFrom0_sameMem) (.pair1 .refl))

theorem Chip.startHead_sameMem {c : Chip} {a0 a1 a2 a3} : SameMem c (Chip.startHead c a0 a1 a2 a3) := by
  unfold Chip.startHead
  split
  · exact .refl
  · exact .of Chip.startTx_sameMem (.of Chip.setQueue_sameMem Chip.settle_sameMem)

theorem Chip.interruptTx_sameMem {c : Chip} {a0 a1 a2} : SameMem c (Chip.interruptTx c a0 a1 a2) := by
  unfold Chip.interruptTx
  extract_lets +onlyGivenNames -merge -useContext -underBinder c0
  have h1 : SameMem c c0 := .of Chip.setHeld_sameMem (.of Chip.setTx_sameMem Chip.settle_sameMem)
  clear_value c0
  split
  · rename_i y2 y3 e4
    have h5 : SameMem c y3 := by
      refine .ofEq1 e4 ?_
      exact .of Chip.select_sameMem h1
    exact .of Chip.startHead_sameMem h5
  · rename_i y6 e7
    have h8 : SameMem c y6 := by
      refine .ofEq1 e7 ?_
      exact .of Chip.select_sameMem h1
    exact .ite h8 .refl

theorem Chip.oppHeard_sameMem {c : Chip} {a0 a1} : SameMem c (Chip.oppHeard c a0 a1) := by
  unfold Chip.oppHeard
  extract_lets +onlyGivenNames -merge -useContext -underBinder x0
  exact .ite Chip.setPortRun_sameMem .refl

theorem Chip.switchFrame_sameMem {c : Chip} {a0 a1 a2 a3 a4} : SameMem c (Chip.switchFrame c a0 a1 a2 a3 a4) := by
  unfold Chip.switchFrame
  split
  · rename_i y0 e1
    have h2 : SameMem c y0 := by
      refine .ofEq1 e1 ?_
      exact Chip.ingressClass_sameMem
    exact .ite .refl h2
  · rename_i y3 y4 e5
    have h6 : SameMem c y4 := by
      refine .ofEq1 e5 ?_
      exact Chip.ingressClass_sameMem
    extract_lets +onlyGivenNames -merge -useContext -underBinder x7
    split
    · rename_i y8 e9
      have h10 : SameMem c y8 := by
        refine .ofEq1 e9 ?_
        exact .of Chip.filterStream_sameMem h6
      exact .ite .refl h10
    · rename_i y11 y12 e13
      have h14 : SameMem c y12 := by
        refine .ofEq1 e13 ?_
        exact .of Chip.filterStream_sameMem h6
      split
      · exact .ite .refl h14
      · extract_lets +onlyGivenNames -merge -useContext -underBinder x15
        refine .ite .refl ?_
        split
        · rename_i y16 y17 e18
          have h19 : SameMem c y17 := by
            refine .ofEq1 e18 ?_
            exact .of Chip.admitFrame_sameMem h14
          split
          · rename_i y20 y21 e22
            have h23 : SameMem c y21 := by
              refine .ofEq1 e22 ?_
              exact .of Chip.forward_sameMem h19
            extract_lets +onlyGivenNames -merge -useContext -underBinder c24
            have h25 : SameMem c c24 := .ite (.of Chip.decideLocal_sameMem h23) h23
            clear_value c24
            exact .of Chip.poolMarks_sameMem (.of Chip.release_sameMem h25)

theorem Chip.switchBad_sameMem {c : Chip} {a0 a1 a2 a3} : SameMem c (Chip.switchBad c a0 a1 a2 a3) := by
  unfold Chip.switchBad
  exact .ite .refl Chip.switchFrame_sameMem

theorem frameReceive_sameMem {c : Chip} {a0 a1} : SameMem c (frameReceive c a0 a1) := by
  unfold frameReceive
  extract_lets +onlyGivenNames -merge -useContext -underBinder x0 c1 x3 x4
  have h2 : SameMem c c1 := .of Chip.count_sameMem (.of Chip.count_sameMem Chip.count_sameMem)
  clear_value c1
  refine .ite ?_ .refl
  refine .ite (.of Chip.count_sameMem h2) ?_
  refine .ite (.of Chip.count_sameMem (.of Chip.setPortRun_sameMem h2)) ?_
  refine .ite (.of Chip.firstFragment_sameMem h2) ?_
  refine .ite h2 ?_
  split
  · rename_i y5 y6 e7
    have h8 : SameMem c y6 := by
      refine .ofEq1 e7 ?_
      exact .of Chip.ingressStamp_sameMem h2
    extract_lets +onlyGivenNames -merge -useContext -underBinder c9 x11
    have h10 : SameMem c c9 := .of Chip.oppHeard_sameMem (.ite (.of Chip.count_sameMem h8) h8)
    clear_value c9
    split
    · extract_lets +onlyGivenNames -merge -useContext -underBinder c12
      have h13 : SameMem c c12 := .of Chip.count_sameMem (.of Chip.count_sameMem h10)
      clear_value c12
      exact .ite h13 (.of Chip.switchBad_sameMem h13)
    · extract_lets +onlyGivenNames -merge -useContext -underBinder c14 c16 c18
      have h15 : SameMem c c14 := .of Chip.countGood_sameMem h10
      have h17 : SameMem c c16 := .ite (.of Chip.count_sameMem h15) h15
      have h19 : SameMem c c18 := .ite (.of Chip.count_sameMem h17) h17
      clear_value c14 c16 c18
      refine .ite (.of Chip.count_sameMem h19) ?_
      refine .ite (.of Chip.switchBad_sameMem (.of Chip.count_sameMem h19)) ?_
      exact .of Chip.learn_sameMem (.of Chip.switchFrame_sameMem h19)

theorem Chip.looped_sameMem {c : Chip} {a0 a1 a2 a3} : SameMem c (Chip.looped c a0 a1 a2 a3) := by
  unfold Chip.looped
  extract_lets +onlyGivenNames -merge -useContext -underBinder x0
  exact .ite frameReceive_sameMem .refl

theorem autonegComplete_sameMem {c : Chip} {a0 a1} : SameMem c (autonegComplete c a0 a1) := by
  unfold autonegComplete
  extract_lets +onlyGivenNames -merge -useContext -underBinder c0
  have h1 : SameMem c c0 := Chip.setReg_sameMem
  clear_value c0
  refine .ite ?_ .refl
  split
  · exact .of Chip.setBit_sameMem h1
  · extract_lets +onlyGivenNames -merge -useContext -underBinder c2 c4
    have h3 : SameMem c c2 := .of Chip.setBit_sameMem (.of Chip.resolve_sameMem h1)
    have h5 : SameMem c c4 := .ite (.of Chip.setBit_sameMem h3) h3
    clear_value c2 c4
    exact .of Chip.portEv_sameMem h5

theorem backoffExpiry_sameMem {c : Chip} {a0 a1} : SameMem c (backoffExpiry c a0 a1) := by
  unfold backoffExpiry
  split
  · exact .refl
  · split
    · exact .refl
    · extract_lets +onlyGivenNames -merge -useContext -underBinder c0 x2
      have h1 : SameMem c c0 := .of Chip.oppTaken_sameMem Chip.settle_sameMem
      clear_value c0
      exact .ite (.of Chip.setTx_sameMem h1) .refl

theorem cableTestDone_sameMem {c : Chip} {a0 a1} : SameMem c (cableTestDone c a0 a1) := by
  unfold cableTestDone
  refine .ite ?_ .refl
  refine .of Chip.portEv_sameMem ?_
  refine .of Chip.setBit_sameMem ?_
  refine .foldl ?_ ?_
  · intro c0 x1 h2
    exact .of Chip.setReg_sameMem h2
  · exact .refl

theorem collision_sameMem {c : Chip} {a0 a1} : SameMem c (collision c a0 a1) := by
  unfold collision
  split
  · exact .refl
  · extract_lets +onlyGivenNames -merge -useContext -underBinder c0 x2
    have h1 : SameMem c c0 := .of Chip.count_sameMem Chip.settle_sameMem
    clear_value c0
    refine .ite .refl ?_
    refine .ite (.of Chip.portFlag_sameMem (.of Chip.count_sameMem (.of Chip.endTx_sameMem h1))) ?_
    refine .ite (.of Chip.portFlag_sameMem (.of Chip.count_sameMem (.of Chip.endTx_sameMem h1))) ?_
    split
    · rename_i y3 y4 e5
      have h6 : SameMem c y4 := by
        refine .ofEq1 e5 ?_
        exact .of Chip.drawBackoff_sameMem h1
      extract_lets +onlyGivenNames -merge -useContext -underBinder x7
      exact .of Chip.setTx_sameMem h6

theorem earlyWake_sameMem {c : Chip} {a0} : SameMem c (earlyWake c a0) := by
  unfold earlyWake
  extract_lets +onlyGivenNames -merge -useContext -underBinder x0
  exact .ite (.of Chip.leaveLpi_sameMem Chip.count_sameMem) .refl

theorem frameTransmitEnd_sameMem {c : Chip} {a0 a1 a2} : SameMem c (frameTransmitEnd c a0 a1 a2) := by
  unfold frameTransmitEnd
  split
  · exact .refl
  · extract_lets +onlyGivenNames -merge -useContext -underBinder c0 c2 c4
    have h1 : SameMem c c0 := Chip.endTx_sameMem
    have h3 : SameMem c c2 := .of Chip.countGood_sameMem h1
    have h5 : SameMem c c4 := .ite (.of Chip.count_sameMem h3) (.ite (.of Chip.count_sameMem h3) h3)
    clear_value c0 c2 c4
    refine .ite .refl ?_
    refine .ite (.of Chip.looped_sameMem (.of Chip.portFlag_sameMem (.of Chip.count_sameMem h1))) ?_
    refine .ite (.of Chip.looped_sameMem (.of Chip.count_sameMem h1)) ?_
    exact .of Chip.looped_sameMem (.ite h5 (.of Chip.txStamp_sameMem h5))

theorem frameTransmitStart_sameMem {c : Chip} {a0 a1 a2} : SameMem c (frameTransmitStart c a0 a1 a2) := by
  unfold frameTransmitStart
  refine .ite ?_ ?_
  · split
    · rename_i y0 y1 e2
      have h3 : SameMem c y1 := by
        refine .ofEq1 e2 ?_
        exact .of Chip.select_sameMem Chip.settle_sameMem
      exact .of Chip.startHead_sameMem h3
    · rename_i y4 e5
      have h6 : SameMem c y4 := by
        refine .ofEq1 e5 ?_
        exact .of Chip.select_sameMem Chip.settle_sameMem
      split
      · exact h6
      · exact .ite h6 (.of Chip.count_sameMem (.of Chip.setTx_sameMem (.of Chip.setHeld_sameMem h6)))
  · split
    · exact .ite Chip.interruptTx_sameMem .refl
    · exact .refl

theorem jabber_sameMem {c : Chip} {a0 a1} : SameMem c (jabber c a0 a1) := by
  unfold jabber
  extract_lets +onlyGivenNames -merge -useContext -underBinder x0 x1 c2 c4
  have h3 : SameMem c c2 := Chip.setPortRun_sameMem
  have h5 : SameMem c c4 := .of Chip.setBit_sameMem h3
  clear_value c2 c4
  exact .ite (.ite (.of Chip.dropLink_sameMem h5) h5) (.ite (.of Chip.raiseLink_sameMem h3) h3)

theorem linkComesUp_sameMem {c : Chip} {a0 a1 a2} : SameMem c (linkComesUp c a0 a1 a2) := by
  unfold linkComesUp
  extract_lets +onlyGivenNames -merge -useContext -underBinder x0 c1 c3 c5
  have h2 : SameMem c c1 := .ite Chip.setBit_sameMem .refl
  have h4 : SameMem c c3 := .ite (.of Chip.resolve_sameMem h2) h2
  have h6 : SameMem c c5 := .ite (.of Chip.setBit_sameMem h4) h4
  clear_value c1 c3 c5
  exact .ite .refl (.of Chip.raiseLink_sameMem h6)

theorem linkLost_sameMem {c : Chip} {a0} : SameMem c (linkLost c a0) := by
  unfold linkLost
  extract_lets +onlyGivenNames -merge -useContext -underBinder c0
  have h1 : SameMem c c0 := .of Chip.setBit_sameMem Chip.dropLink_sameMem
  clear_value c0
  exact .ite (.ite (.of Chip.count_sameMem (.of Chip.setBit_sameMem h1)) h1) .refl

theorem lpiEntry_sameMem {c : Chip} {a0} : SameMem c (lpiEntry c a0) := by
  unfold lpiEntry
  extract_lets +onlyGivenNames -merge -useContext -underBinder x0 x1 x2
  exact .ite (.of Chip.setLpi_sameMem (.of Chip.setBit_sameMem Chip.count_sameMem)) .refl

theorem plcaActive_sameMem {c : Chip} {a0 a1 a2 a3} : SameMem c (plcaActive c a0 a1 a2 a3) := by
  unfold plcaActive
  extract_lets +onlyGivenNames -merge -useContext -underBinder x0 c1
  have h2 : SameMem c c1 := .of Chip.setPortRun_sameMem Chip.count_sameMem
  clear_value c1
  exact .ite (.ite h2 (.of Chip.portEv_sameMem (.of Chip.setBit_sameMem h2))) .refl

theorem rxLpi_sameMem {c : Chip} {a0 a1} : SameMem c (rxLpi c a0 a1) := by
  unfold rxLpi
  extract_lets +onlyGivenNames -merge -useContext -underBinder x0
  refine .ite .refl ?_
  refine .ite (.of Chip.setLpi_sameMem (.of Chip.count_sameMem Chip.setBit_sameMem)) ?_
  exact .of Chip.count_sameMem Chip.setBit_sameMem

theorem verifyTimer_sameMem {c : Chip} {a0 a1} : SameMem c (verifyTimer c a0 a1) := by
  unfold verifyTimer
  extract_lets +onlyGivenNames -merge -useContext -underBinder x0 x1
  refine .ite (.ite Chip.setVstatus_sameMem (.ite .refl (.ite Chip.setVstatus_sameMem (.mk2 .refl rfl)))) ?_
  exact .refl

theorem wakeComplete_sameMem {c : Chip} {a0} : SameMem c (wakeComplete c a0) := by
  unfold wakeComplete
  exact .ite Chip.setBit_sameMem .refl

end Sys2Proof.Machine
end

