-- ==== Sys2Proof/Laws/KeepEvr.lean ====
section
/-!
SUPPORT. What each operation of Machine/Evr.lean does to memory: it changes no byte (`SameMem`), or keeps
the canonical form (`KeepsWf`).
-/
namespace Sys2Proof.Machine

theorem Chip.clearSlots_keepsWf {c : Chip} {a0} : KeepsWf c (Chip.clearSlots c a0) := by
  unfold Chip.clearSlots
  refine .foldl ?_ ?_
  · intro c0 x1 h2
    exact .of Chip.mramWrite_keepsWf h2
  · exact .refl

theorem Chip.evrCut_keepsWf {c : Chip} : KeepsWf c (Chip.evrCut c) := by
  unfold Chip.evrCut
  split
  · split
    · exact .refl
    · split
      · rename_i y0 y1 e2
        have h3 : KeepsWf c y1 := by
          refine .ofEq1 e2 ?_
          exact Chip.takeFree_sameMem.keeps
        extract_lets +onlyGivenNames -merge -useContext -underBinder x4
        split
        · exact h3
        · exact .of Chip.mramWrite_keepsWf h3
        · exact .of Chip.mramWrite_keepsWf (.of Chip.mramWrite_keepsWf h3)
  · split
    · rename_i y5 y6 e7
      have h8 : KeepsWf c y6 := by
        refine .ofEq1 e7 ?_
        exact Chip.takeFree_sameMem.keeps
      exact .of Chip.clearSlots_keepsWf h8
  · exact .refl

theorem Chip.setEvrOp_sameMem {c : Chip} {a0} : SameMem c (Chip.setEvrOp c a0) := by
  unfold Chip.setEvrOp
  extract_lets +onlyGivenNames -merge -useContext -underBinder c0 x2
  have h1 : SameMem c c0 := Chip.setBit_sameMem
  clear_value c0
  exact .mk2 h1 rfl

theorem evrCtlWrite_sameMem {c : Chip} {a0 a1} : SameMem c (evrCtlWrite c a0 a1) := by
  unfold evrCtlWrite
  refine .ite Chip.refuse_sameMem ?_
  refine .ite Chip.done_sameMem ?_
  exact .ite (.of Chip.done_sameMem Chip.flag_sameMem) (.of Chip.done_sameMem Chip.setEvrOp_sameMem)

theorem evrWrite_sameMem {c : Chip} {a0 a1 a2} : SameMem c (evrWrite c a0 a1 a2) := by
  unfold evrWrite
  exact .ite evrCtlWrite_sameMem Chip.plainWrite_sameMem

theorem Chip.evrCleared_keepsWf {c : Chip} : KeepsWf c (Chip.evrCleared c) := by
  unfold Chip.evrCleared
  extract_lets +onlyGivenNames -merge -useContext -underBinder c0 c2 x7
  have h1 : KeepsWf c c0 := Chip.clearSlots_keepsWf
  have h3 : KeepsWf c c2 := by
    refine .foldl ?_ ?_
    · intro c4 x5 h6
      exact .of Chip.setReg_sameMem.keeps h6
    · exact h1
  clear_value c0 c2
  exact .mk2 h3 rfl

theorem Chip.evrCount_sameMem {c : Chip} : SameMem c (Chip.evrCount c) := by
  unfold Chip.evrCount
  extract_lets +onlyGivenNames -merge -useContext -underBinder x0 x1
  exact .of Chip.setFld_sameMem (.of Chip.setReg_sameMem Chip.setReg_sameMem)

theorem Chip.evrSave_keepsWf {c : Chip} : KeepsWf c (Chip.evrSave c) := by
  unfold Chip.evrSave
  extract_lets +onlyGivenNames -merge -useContext -underBinder x0 c1 x3
  have h2 : KeepsWf c c1 := .mk2 .refl rfl
  clear_value c1
  exact .of Chip.mramWrite_keepsWf h2

theorem Chip.mramFails_sameMem {c : Chip} : SameMem c (Chip.mramFails c) := by
  unfold Chip.mramFails
  exact .of Chip.memCause_sameMem Chip.setBit_sameMem

theorem Chip.evrPut_keepsWf {c : Chip} {a0 a1} : KeepsWf c (Chip.evrPut c a0 a1).2 := by
  unfold Chip.evrPut
  split
  · extract_lets +onlyGivenNames -merge -useContext -underBinder c0
    have h1 : KeepsWf c c0 := Chip.incSat_sameMem.keeps
    clear_value c0
    exact .pair1 (.of Chip.evrSave_keepsWf (.of Chip.raise_sameMem.keeps h1))
  · extract_lets +onlyGivenNames -merge -useContext -underBinder x2 c3 c5 x7 c8
    have h4 : KeepsWf c c3 := Chip.mramWrite_keepsWf
    have h6 : KeepsWf c c5 := .of Chip.mramWrite_keepsWf h4
    have h9 : KeepsWf c c8 := .mk2 h6 rfl
    clear_value c3 c5 c8
    refine .ite1 (.pair1 (.of Chip.evrSave_keepsWf (.of Chip.evrCount_sameMem.keeps h9))) ?_
    exact .pair1 (.of Chip.evrCount_sameMem.keeps (.of Chip.flag_sameMem.keeps (.of Chip.mramFails_sameMem.keeps (.of Chip.mramWrite_keepsWf h4))))

theorem Chip.evrScanned_sameMem {c : Chip} : SameMem c (Chip.evrScanned c) := by
  unfold Chip.evrScanned
  extract_lets +onlyGivenNames -merge -useContext -underBinder c0 x2 x3
  have h1 : SameMem c c0 := .of Chip.evrCount_sameMem Chip.setReg_sameMem
  clear_value c0
  exact .mk2 h1 rfl

theorem Chip.loadCounters_sameMem {c : Chip} : SameMem c (Chip.loadCounters c) := by
  unfold Chip.loadCounters
  extract_lets +onlyGivenNames -merge -useContext -underBinder x0 x1 x2 x3 c16 x18
  have h4 : ∀ z5 z6, SameMem c (x3 z5 z6) := by
    intro z5 z6
    unfold x3
    extract_lets +onlyGivenNames -merge -useContext -underBinder c8 c10 x15
    have h9 : SameMem c c8 := .of Chip.setReg_sameMem Chip.setReg_sameMem
    have h11 : SameMem c c10 := by
      refine .foldl ?_ ?_
      · intro c12 x13 h14
        exact .of Chip.setReg_sameMem h14
      · exact h9
    clear_value c8 c10
    exact .mk2 h11 rfl
  have h17 : SameMem c c16 := Chip.setBit_sameMem
  clear_value c16
  exact .ite (h4 _ _) (.ite (h4 _ _) (.mk2 h17 rfl))

theorem operatingSecond_keepsWf {c : Chip} : KeepsWf c (operatingSecond c) := by
  unfold operatingSecond
  extract_lets +onlyGivenNames -merge -useContext -underBinder c0 x2
  have h1 : KeepsWf c c0 := Chip.setReg_sameMem.keeps
  clear_value c0
  exact .ite (.of Chip.evrSave_keepsWf (.mk2 h1 rfl)) .refl

theorem recordStoreDone_keepsWf {c : Chip} {a0} : KeepsWf c (recordStoreDone c a0) := by
  unfold recordStoreDone
  split
  · split
    · rename_i y0 y1 e2
      have h3 : KeepsWf c y1 := by
        refine .ofEq1 e2 ?_
        exact .of Chip.evrPut_keepsWf Chip.setEvrOp_sameMem.keeps
      exact .of Chip.setReg_sameMem.keeps h3
  · exact .refl

theorem recorderClearDone_keepsWf {c : Chip} {a0} : KeepsWf c (recorderClearDone c a0) := by
  unfold recorderClearDone
  exact .ite (.of Chip.evrPut_keepsWf (.of Chip.evrCleared_keepsWf Chip.setEvrOp_sameMem.keeps)) .refl

theorem recorderScanDone_keepsWf {c : Chip} {a0 a1} : KeepsWf c (recorderScanDone c a0 a1) := by
  unfold recorderScanDone
  split
  · extract_lets +onlyGivenNames -merge -useContext -underBinder c0 c2 c4 x6
    have h1 : KeepsWf c c0 := .of Chip.mramRead_sameMem.keeps (.of Chip.mramRead_sameMem.keeps (.of Chip.setBit_sameMem.keeps Chip.setEvrOp_sameMem.keeps))
    have h3 : KeepsWf c c2 := .of Chip.evrScanned_sameMem.keeps (.of Chip.loadCounters_sameMem.keeps h1)
    have h5 : KeepsWf c c4 := .ite (.of Chip.evrSave_keepsWf (.of Chip.setReg_sameMem.keeps h3)) h3
    clear_value c0 c2 c4
    exact .ite (.of Chip.evrPut_keepsWf h5) h3
  · exact .refl

end Sys2Proof.Machine
end

