-- ==== Sys2Proof/Laws/KeepHifRegs.lean ====
section
/-!
SUPPORT. What each operation of Machine/HifRegs.lean does to memory: it changes no byte (`SameMem`), or keeps
the canonical form (`KeepsWf`).
-/
namespace Sys2Proof.Machine

theorem Chip.hifFlag_sameMem {c : Chip} {a0} : SameMem c (Chip.hifFlag c a0) := by
  unfold Chip.hifFlag
  exact Chip.setBit_sameMem

theorem cmdDoorbell_sameMem {c : Chip} {a0 a1} : SameMem c (cmdDoorbell c a0 a1) := by
  unfold cmdDoorbell
  extract_lets +onlyGivenNames -merge -useContext -underBinder x0 x1
  refine .ite Chip.refuse_sameMem ?_
  exact .ite (.of Chip.done_sameMem Chip.setReg_sameMem) (.of Chip.done_sameMem Chip.hifFlag_sameMem)

theorem rplDoorbell_sameMem {c : Chip} {a0 a1} : SameMem c (rplDoorbell c a0 a1) := by
  unfold rplDoorbell
  extract_lets +onlyGivenNames -merge -useContext -underBinder x0
  refine .ite Chip.refuse_sameMem ?_
  exact .ite (.of Chip.done_sameMem Chip.setReg_sameMem) (.of Chip.done_sameMem Chip.hifFlag_sameMem)

theorem Chip.replyNotice_sameMem {c : Chip} : SameMem c (Chip.replyNotice c) := by
  unfold Chip.replyNotice
  extract_lets +onlyGivenNames -merge -useContext -underBinder x0
  exact .ite (.mk2 .refl rfl) Chip.setBit_sameMem

theorem replySignal_sameMem {c : Chip} {a0 a1} : SameMem c (replySignal c a0 a1) := by
  unfold replySignal
  exact .ite Chip.refuse_sameMem (.of Chip.done_sameMem (.ite Chip.replyNotice_sameMem .refl))

theorem hifWrite_sameMem {c : Chip} {a0 a1 a2} : SameMem c (hifWrite c a0 a1 a2) := by
  unfold hifWrite
  refine .ite cmdDoorbell_sameMem ?_
  exact .ite rplDoorbell_sameMem (.ite replySignal_sameMem Chip.plainWrite_sameMem)

theorem Chip.setHif_sameMem {c : Chip} {a0} : SameMem c (Chip.setHif c a0) := by
  unfold Chip.setHif
  exact .mk2 .refl rfl

theorem Chip.obRefused_sameMem {c : Chip} : SameMem c (Chip.obRefused c) := by
  unfold Chip.obRefused
  exact Chip.hifFlag_sameMem

theorem Chip.obResolve_sameMem {c : Chip} {a0 a1} : SameMem c (Chip.obResolve c a0 a1) := by
  unfold Chip.obResolve
  split
  · exact .refl
  · extract_lets +onlyGivenNames -merge -useContext -underBinder x0 c1
    have h2 : SameMem c c1 := Chip.setHif_sameMem
    clear_value c1
    exact .ite (.of Chip.obRefused_sameMem h2) h2

theorem Chip.setMsixWord_sameMem {c : Chip} {a0 a1} : SameMem c (Chip.setMsixWord c a0 a1) := by
  unfold Chip.setMsixWord
  extract_lets +onlyGivenNames -merge -useContext -underBinder c0 c2 x4
  have h1 : SameMem c c0 := Chip.setHif_sameMem
  have h3 : SameMem c c2 := .of Chip.setHif_sameMem h1
  clear_value c0 c2
  exact .ite (.mk2 h3 rfl) h1

theorem msixSend_sameMem {c : Chip} : SameMem c (msixSend c) := by
  unfold msixSend
  split
  · exact .refl
  · extract_lets +onlyGivenNames -merge -useContext -underBinder x0 c1
    have h2 : SameMem c c1 := .mk2 .refl rfl
    clear_value c1
    exact .ite (.ite (.ite h2 (.of Chip.setHif_sameMem h2)) (.of Chip.setHif_sameMem h2)) .refl

theorem obCompletion_sameMem {c : Chip} {a0 a1 a2} : SameMem c (obCompletion c a0 a1 a2) := by
  unfold obCompletion
  split
  · exact .refl
  · exact Chip.obResolve_sameMem

theorem obTimeout_sameMem {c : Chip} {a0} : SameMem c (obTimeout c a0) := by
  unfold obTimeout
  split
  · exact .refl
  · exact .ite Chip.obResolve_sameMem .refl

theorem pcieLink_sameMem {c : Chip} {a0 a1 a2} : SameMem c (pcieLink c a0 a1 a2) := by
  unfold pcieLink
  extract_lets +onlyGivenNames -merge -useContext -underBinder c0
  have h1 : SameMem c c0 := Chip.setBit_sameMem
  clear_value c0
  exact .ite (.of Chip.setFld_sameMem (.of Chip.setFld_sameMem h1)) .refl

theorem perstAssert_sameMem {c : Chip} : SameMem c (perstAssert c) := by
  unfold perstAssert
  exact .of Chip.setHif_sameMem pcieLink_sameMem

end Sys2Proof.Machine
end

