-- ==== Sys2Proof/Laws/KeepMbx.lean ====
section
/-!
SUPPORT. What each operation of Machine/Mbx.lean does to memory: it changes no byte (`SameMem`), or keeps
the canonical form (`KeepsWf`).
-/
namespace Sys2Proof.Machine

theorem mbDataWrite_sameMem {c : Chip} {a0 a1 a2 a3} : SameMem c (mbDataWrite c a0 a1 a2 a3) := by
  unfold mbDataWrite
  exact .ite (.of Chip.done_sameMem (.ite Chip.setReg_sameMem .refl)) Chip.refuse_sameMem

theorem Chip.setPair_sameMem {c : Chip} {a0 a1} : SameMem c (Chip.setPair c a0 a1) := by
  unfold Chip.setPair
  extract_lets +onlyGivenNames -merge -useContext -underBinder x0
  exact .mk2 .refl rfl

theorem Chip.mbPaired_sameMem {c : Chip} {a0} : SameMem c (Chip.mbPaired c a0) := by
  unfold Chip.mbPaired
  split
  · exact .ite (.of Chip.setPair_sameMem Chip.setPair_sameMem) .refl
  · exact .refl

theorem Chip.mbRaise_sameMem {c : Chip} {a0 a1} : SameMem c (Chip.mbRaise c a0 a1) := by
  unfold Chip.mbRaise
  exact Chip.raise_sameMem

theorem Chip.setMbTimer_sameMem {c : Chip} {a0 a1} : SameMem c (Chip.setMbTimer c a0 a1) := by
  unfold Chip.setMbTimer
  extract_lets +onlyGivenNames -merge -useContext -underBinder x0
  exact .mk2 .refl rfl

theorem mailboxGo_sameMem {c : Chip} {a0} : SameMem c (mailboxGo c a0) := by
  unfold mailboxGo
  extract_lets +onlyGivenNames -merge -useContext -underBinder x0 c1
  have h2 : SameMem c c1 := Chip.setReg_sameMem
  clear_value c1
  exact .of Chip.mbPaired_sameMem (.of Chip.mbRaise_sameMem (.of Chip.setMbTimer_sameMem h2))

theorem Chip.mbEmpty_sameMem {c : Chip} {a0} : SameMem c (Chip.mbEmpty c a0) := by
  unfold Chip.mbEmpty
  extract_lets +onlyGivenNames -merge -useContext -underBinder c0 c2
  have h1 : SameMem c c0 := .of Chip.setMbTimer_sameMem Chip.setBit_sameMem
  have h3 : SameMem c c2 := .of Chip.setPair_sameMem h1
  clear_value c0 c2
  split
  · exact .of Chip.setPair_sameMem h3
  · exact h3

theorem mailboxReset_sameMem {c : Chip} {a0} : SameMem c (mailboxReset c a0) := by
  unfold mailboxReset
  extract_lets +onlyGivenNames -merge -useContext -underBinder x0 c1 c3 c5 c7
  have h2 : SameMem c c1 := Chip.mbEmpty_sameMem
  have h4 : SameMem c c3 := .of Chip.setBit_sameMem (.of Chip.setBit_sameMem h2)
  have h6 : SameMem c c5 := .ite (.of Chip.setBit_sameMem h4) h4
  have h8 : SameMem c c7 := by
    refine .foldl ?_ ?_
    · intro c9 x10 h11
      exact .of Chip.setReg_sameMem h11
    · exact h6
  clear_value c1 c3 c5 c7
  exact .ite (.of Chip.mbRaise_sameMem h8) h8

theorem mbCtlWrite_sameMem {c : Chip} {a0 a1 a2} : SameMem c (mbCtlWrite c a0 a1 a2) := by
  unfold mbCtlWrite
  extract_lets +onlyGivenNames -merge -useContext -underBinder c0 c2 c4
  have h1 : SameMem c c0 := .ite mailboxGo_sameMem .refl
  have h3 : SameMem c c2 := .ite (.of mailboxReset_sameMem h1) h1
  have h5 : SameMem c c4 := .ite (.of Chip.setBit_sameMem h3) h3
  clear_value c0 c2 c4
  exact .ite Chip.refuse_sameMem (.of Chip.done_sameMem (.ite (.of Chip.setBit_sameMem h5) h5))

theorem mbCfgWrite_sameMem {c : Chip} {a0 a1 a2} : SameMem c (mbCfgWrite c a0 a1 a2) := by
  unfold mbCfgWrite
  exact .ite Chip.refuse_sameMem Chip.plainWrite_sameMem

theorem mbxWrite_sameMem {c : Chip} {a0 a1 a2} : SameMem c (mbxWrite c a0 a1 a2) := by
  unfold mbxWrite
  extract_lets +onlyGivenNames -merge -useContext -underBinder x0 x1 x2
  refine .ite (.ite mbDataWrite_sameMem (.ite mbCtlWrite_sameMem (.ite mbCfgWrite_sameMem Chip.done_sameMem))) ?_
  exact .ite Chip.plainWrite_sameMem Chip.plainWrite_sameMem

theorem mbAck_sameMem {c : Chip} {a0} : SameMem c (mbAck c a0) := by
  unfold mbAck
  extract_lets +onlyGivenNames -merge -useContext -underBinder c0
  have h1 : SameMem c c0 := Chip.mbEmpty_sameMem
  clear_value c0
  exact .ite (.of Chip.mbRaise_sameMem h1) h1

theorem crossWait_sameMem {c : Chip} {a0} : SameMem c (crossWait c a0) := by
  unfold crossWait
  split
  · exact .refl
  · extract_lets +onlyGivenNames -merge -useContext -underBinder x0
    split
    · exact .refl
    · extract_lets +onlyGivenNames -merge -useContext -underBinder c1 c3
      have h2 : SameMem c c1 := .of Chip.setBit_sameMem Chip.setBit_sameMem
      have h4 : SameMem c c3 := .of Chip.setPair_sameMem (.of Chip.setPair_sameMem h2)
      clear_value c1 c3
      exact .ite (.of Chip.wakeLine_sameMem (.of Chip.mbRaise_sameMem (.of Chip.mbRaise_sameMem h4))) .refl

theorem mailboxTimeout_sameMem {c : Chip} {a0} : SameMem c (mailboxTimeout c a0) := by
  unfold mailboxTimeout
  split
  · exact .refl
  · extract_lets +onlyGivenNames -merge -useContext -underBinder c0
    have h1 : SameMem c c0 := .of Chip.setMbTimer_sameMem Chip.setBit_sameMem
    clear_value c0
    exact .ite (.ite (.of Chip.mbRaise_sameMem h1) h1) .refl

end Sys2Proof.Machine
end

