-- ==== Sys2Proof/Laws/KeepPe.lean ====
section
/-!
SUPPORT. What each operation of Machine/Pe.lean does to memory: it changes no byte (`SameMem`), or keeps
the canonical form (`KeepsWf`).
-/
namespace Sys2Proof.Machine

theorem Chip.qpop_sameMem {c : Chip} {a0 a1} : SameMem c (Chip.qpop c a0 a1).2.2 := by
  unfold Chip.qpop
  exact .ite2 (.pair2 (.pair1 .refl)) (.ite2 (.pair2 (.pair1 .refl)) (.pair2 (.pair1 Chip.setReg_sameMem)))

theorem Chip.qrel_sameMem {c : Chip} {a0 a1} : SameMem c (Chip.qrel c a0 a1).2.2 := by
  unfold Chip.qrel
  exact .ite2 (.pair2 (.pair1 .refl)) (.ite2 (.pair2 (.pair1 .refl)) (.pair2 (.pair1 Chip.setReg_sameMem)))

theorem Chip.setTq_sameMem {c : Chip} {a0 a1} : SameMem c (Chip.setTq c a0 a1) := by
  unfold Chip.setTq
  extract_lets +onlyGivenNames -merge -useContext -underBinder x0
  exact .mk2 .refl rfl

theorem Chip.qpush_sameMem {c : Chip} {a0 a1 a2} : SameMem c (Chip.qpush c a0 a1 a2).2.2 := by
  unfold Chip.qpush
  exact .ite2 (.pair2 (.pair1 .refl)) (.ite2 (.pair2 (.pair1 .refl)) (.pair2 (.pair1 Chip.setTq_sameMem)))

theorem Chip.peKick_sameMem {c : Chip} {a0} : SameMem c (Chip.peKick c a0) := by
  unfold Chip.peKick
  extract_lets +onlyGivenNames -merge -useContext -underBinder x0
  exact .mk2 .refl rfl

theorem engineStop_sameMem {c : Chip} {a0} : SameMem c (engineStop c a0) := by
  unfold engineStop
  exact .ite (.of Chip.setPeState_sameMem Chip.haltCore_sameMem) Chip.peCause_sameMem

theorem Chip.setRqFrozen_sameMem {c : Chip} {a0 a1} : SameMem c (Chip.setRqFrozen c a0 a1) := by
  unfold Chip.setRqFrozen
  extract_lets +onlyGivenNames -merge -useContext -underBinder x0
  exact .mk2 .refl rfl

theorem Chip.rqDone_sameMem {c : Chip} {a0} : SameMem c (Chip.rqDone c a0) := by
  unfold Chip.rqDone
  extract_lets +onlyGivenNames -merge -useContext -underBinder x0 c1
  have h2 : SameMem c c1 := Chip.setReg_sameMem
  clear_value c1
  exact .ite (.of Chip.setReg_sameMem h2) (.of Chip.wakeLine_sameMem h2)

theorem Chip.setRqLost_sameMem {c : Chip} {a0 a1} : SameMem c (Chip.setRqLost c a0 a1) := by
  unfold Chip.setRqLost
  extract_lets +onlyGivenNames -merge -useContext -underBinder x0
  exact .mk2 .refl rfl

theorem Chip.rqFails_sameMem {c : Chip} {a0} : SameMem c (Chip.rqFails c a0) := by
  unfold Chip.rqFails
  exact .of Chip.setRqLost_sameMem Chip.setBit_sameMem

theorem Chip.rqRun_keepsWf {c : Chip} {q us} : KeepsWf c (Chip.rqRun c q us) := by
  induction us generalizing c with
  | nil => exact Chip.rqDone_sameMem.keeps
  | cons u us ih =>
    have h := Chip.dmaWrite_keepsWf (c := c) (a0 := c.rqMaster q) (a1 := u.1) (a2 := u.2)
    unfold Chip.rqRun
    split <;> rename_i e <;> rw [e] at h
    · exact h.trans ih
    · exact .of freezeAt_sameMem.keeps (.of Chip.setRqFrozen_sameMem.keeps h)
    · exact .of Chip.rqFails_sameMem.keeps h

theorem rqResolve_keepsWf {c : Chip} {a0 a1} : KeepsWf c (rqResolve c a0 a1) := by
  unfold rqResolve
  extract_lets +onlyGivenNames -merge -useContext -underBinder c0
  have h1 : KeepsWf c c0 := Chip.setRqFrozen_sameMem.keeps
  clear_value c0
  split
  · exact .refl
  · extract_lets +onlyGivenNames -merge -useContext -underBinder c2
    have h3 : KeepsWf c c2 := .of Chip.rqFails_sameMem.keeps h1
    clear_value c2
    refine .ite (.of Chip.rqRun_keepsWf h1) ?_
    refine .ite (.of Chip.setReg_sameMem.keeps (.of Chip.setReg_sameMem.keeps (.of Chip.setReg_sameMem.keeps (.of Chip.setBit_sameMem.keeps h3)))) ?_
    exact h3

theorem Chip.setTqFrozen_sameMem {c : Chip} {a0 a1} : SameMem c (Chip.setTqFrozen c a0 a1) := by
  unfold Chip.setTqFrozen
  extract_lets +onlyGivenNames -merge -useContext -underBinder x0
  exact .mk2 .refl rfl

theorem Chip.tqFreezes_sameMem {c : Chip} {a0 a1 a2 a3 a4} : SameMem c (Chip.tqFreezes c a0 a1 a2 a3 a4) := by
  unfold Chip.tqFreezes
  exact .of Chip.freezeAt_sameMem Chip.setTqFrozen_sameMem

theorem Chip.tqCount_sameMem {c : Chip} {a0 a1} : SameMem c (Chip.tqCount c a0 a1) := by
  unfold Chip.tqCount
  extract_lets +onlyGivenNames -merge -useContext -underBinder c0 c2 c4
  have h1 : SameMem c c0 := Chip.inc_sameMem
  have h3 : SameMem c c2 := .ite (.of Chip.setBit_sameMem h1) (.ite (.of Chip.setBit_sameMem h1) h1)
  have h5 : SameMem c c4 := .ite (.of Chip.ownerCause_sameMem h3) h3
  clear_value c0 c2 c4
  exact .ite h5 (.of Chip.wakeLine_sameMem h5)

theorem Chip.tqEnd_keepsWf {c : Chip} {a0 a1 a2} : KeepsWf c (Chip.tqEnd c a0 a1 a2) := by
  unfold Chip.tqEnd
  split
  · rename_i y0 e1
    have h2 : KeepsWf c y0 := by
      refine .ofEq1 e1 ?_
      exact Chip.dmaWrite_keepsWf
    exact .of Chip.tqFreezes_sameMem.keeps h2
  · rename_i y3 y4 o5 e6
    have h7 : KeepsWf c y4 := by
      refine .ofEq1 e6 ?_
      exact Chip.dmaWrite_keepsWf
    exact .of Chip.tqCount_sameMem.keeps h7

theorem Chip.tqOff_sameMem {c : Chip} {a0} : SameMem c (Chip.tqOff c a0) := by
  unfold Chip.tqOff
  exact .of Chip.setTq_sameMem Chip.setBit_sameMem

theorem Chip.setServed_sameMem {c : Chip} {a0 a1} : SameMem c (Chip.setServed c a0 a1) := by
  unfold Chip.setServed
  extract_lets +onlyGivenNames -merge -useContext -underBinder x0
  exact .mk2 .refl rfl

theorem Chip.setOffer_sameMem {c : Chip} {a0 a1} : SameMem c (Chip.setOffer c a0 a1) := by
  unfold Chip.setOffer
  extract_lets +onlyGivenNames -merge -useContext -underBinder x0
  exact .mk2 .refl rfl

theorem Chip.tqOffer_keepsWf {c : Chip} {a0 a1} : KeepsWf c (Chip.tqOffer c a0 a1) := by
  unfold Chip.tqOffer
  extract_lets +onlyGivenNames -merge -useContext -underBinder x0 x1 x2 x3
  split
  · rename_i y4 e5
    have h6 : KeepsWf c y4 := by
      refine .ofEq1 e5 ?_
      exact Chip.generate_sameMem.keeps
    exact .of Chip.tqEnd_keepsWf h6
  · rename_i y7 y8 y9 e10
    have h11 : KeepsWf c y9 := by
      refine .ofEq1 e10 ?_
      exact Chip.generate_sameMem.keeps
    split
    · rename_i y12 y13 e14
      have h15 : KeepsWf c y13 := by
        refine .ofEq1 e14 ?_
        exact .of Chip.admitFrame_sameMem.keeps h11
      extract_lets +onlyGivenNames -merge -useContext -underBinder x16
      split
      · rename_i y17 y18 e19
        have h20 : KeepsWf c y18 := by
          refine .ofEq1 e19 ?_
          exact .of Chip.linkAll_sameMem.keeps h15
        exact .of Chip.tqEnd_keepsWf (.of Chip.poolMarks_sameMem.keeps (.of Chip.release_sameMem.keeps h20))

theorem Chip.tqTake_keepsWf {c : Chip} {a0 a1 a2} : KeepsWf c (Chip.tqTake c a0 a1 a2) := by
  unfold Chip.tqTake
  extract_lets +onlyGivenNames -merge -useContext -underBinder x0 x1
  have h2 : ∀ z3, KeepsWf c z3 → KeepsWf c (x1 z3) := by
    intro z3 h4
    unfold x1
    exact .of Chip.setServed_sameMem.keeps (.of Chip.setTq_sameMem.keeps h4)
  split
  · rename_i y5 e6
    have h7 : KeepsWf c y5 := by
      refine .ofEq1 e6 ?_
      exact Chip.dmaRead_sameMem.keeps
    exact .of Chip.tqFreezes_sameMem.keeps h7
  · rename_i y8 e9
    have h10 : KeepsWf c y8 := by
      refine .ofEq1 e9 ?_
      exact Chip.dmaRead_sameMem.keeps
    exact h10
  · rename_i y11 y12 o13 o14 e15
    have h16 : KeepsWf c y12 := by
      refine .ofEq1 e15 ?_
      exact Chip.dmaRead_sameMem.keeps
    exact .of Chip.tqEnd_keepsWf (h2 _ h16)
  · rename_i y17 y18 e19
    have h20 : KeepsWf c y18 := by
      refine .ofEq1 e19 ?_
      exact Chip.dmaRead_sameMem.keeps
    extract_lets +onlyGivenNames -merge -useContext -underBinder x21 x22
    refine .ite (.of Chip.tqEnd_keepsWf (h2 _ h20)) ?_
    split
    · rename_i y23 y24 y25 e26
      have h27 : KeepsWf c y25 := by
        refine .ofEq1 e26 ?_
        exact .of Chip.readSpan_sameMem.keeps h20
      exact .of Chip.tqFreezes_sameMem.keeps h27
    · rename_i y28 y29 e30
      have h31 : KeepsWf c y29 := by
        refine .ofEq1 e30 ?_
        exact .of Chip.readSpan_sameMem.keeps h20
      exact h31
    · rename_i y32 y33 o34 o35 e36
      have h37 : KeepsWf c y33 := by
        refine .ofEq1 e36 ?_
        exact .of Chip.readSpan_sameMem.keeps h20
      exact .of Chip.tqEnd_keepsWf (h2 _ h37)
    · rename_i y38 y39 e40
      have h41 : KeepsWf c y39 := by
        refine .ofEq1 e40 ?_
        exact .of Chip.readSpan_sameMem.keeps h20
      extract_lets +onlyGivenNames -merge -useContext -underBinder x42
      refine .ite (.of Chip.tqEnd_keepsWf (h2 _ h41)) ?_
      exact .ite (.of Chip.setOffer_sameMem.keeps (h2 _ h41)) (.of Chip.tqOffer_keepsWf (h2 _ h41))

theorem tqResolve_keepsWf {c : Chip} {a0 a1} : KeepsWf c (tqResolve c a0 a1) := by
  unfold tqResolve
  extract_lets +onlyGivenNames -merge -useContext -underBinder c0 x2
  have h1 : KeepsWf c c0 := Chip.setTqFrozen_sameMem.keeps
  clear_value c0
  split
  · extract_lets +onlyGivenNames -merge -useContext -underBinder c3
    have h4 : KeepsWf c c3 := .of Chip.tqCount_sameMem.keeps h1
    clear_value c3
    exact .ite (.of Chip.tqEnd_keepsWf h1) (.ite (.of Chip.tqOff_sameMem.keeps h4) h4)
  · extract_lets +onlyGivenNames -merge -useContext -underBinder c5
    have h6 : KeepsWf c c5 := .of Chip.tqEnd_keepsWf (.of Chip.setServed_sameMem.keeps (.of Chip.setTq_sameMem.keeps h1))
    clear_value c5
    exact .ite (.ite h1 (.of Chip.tqTake_keepsWf h1)) (.ite (.of Chip.tqOff_sameMem.keeps h6) h6)
  · exact h1

theorem engineStart_sameMem {c : Chip} {a0} : SameMem c (engineStart c a0) := by
  unfold engineStart
  extract_lets +onlyGivenNames -merge -useContext -underBinder c0 c2
  have h1 : SameMem c c0 := .of Chip.setPeState_sameMem Chip.resetCore_sameMem
  have h3 : SameMem c c2 := by
    refine .foldl ?_ ?_
    · intro c4 x5 h6
      extract_lets +onlyGivenNames -merge -useContext -underBinder x7 x8
      exact .ite (.of Chip.setCtx_sameMem h6) h6
    · exact h1
  clear_value c0 c2
  exact .ite (.of Chip.peKick_sameMem h3) Chip.peCause_sameMem

theorem engineClear_sameMem {c : Chip} {a0} : SameMem c (engineClear c a0) := by
  unfold engineClear
  extract_lets +onlyGivenNames -merge -useContext -underBinder c0 x2
  have h1 : SameMem c c0 := Chip.setPeState_sameMem
  clear_value c0
  exact .ite (.mk2 h1 rfl) Chip.peCause_sameMem

theorem peCmdWrite_sameMem {c : Chip} {a0 a1 a2} : SameMem c (peCmdWrite c a0 a1 a2) := by
  unfold peCmdWrite
  refine .ite Chip.refuse_sameMem ?_
  refine .of Chip.done_sameMem ?_
  split
  · exact .refl
  · exact engineStart_sameMem
  · exact engineStop_sameMem
  · exact engineClear_sameMem
  · exact Chip.peCause_sameMem

theorem Chip.cycRestart_sameMem {c : Chip} {a0} : SameMem c (Chip.cycRestart c a0) := by
  unfold Chip.cycRestart
  extract_lets +onlyGivenNames -merge -useContext -underBinder x0
  exact .mk2 .refl rfl

theorem rqCfgWrite_sameMem {c : Chip} {a0 a1 a2} : SameMem c (rqCfgWrite c a0 a1 a2) := by
  unfold rqCfgWrite
  extract_lets +onlyGivenNames -merge -useContext -underBinder x0
  refine .ite Chip.refuse_sameMem ?_
  refine .ite Chip.done_sameMem ?_
  refine .ite ?_ (.of Chip.done_sameMem Chip.setReg_sameMem)
  refine .ite Chip.done_sameMem ?_
  exact .of Chip.done_sameMem (.of Chip.setReg_sameMem (.of Chip.setReg_sameMem (.of Chip.setReg_sameMem Chip.setBit_sameMem)))

theorem rqConsWrite_sameMem {c : Chip} {a0 a1 a2} : SameMem c (rqConsWrite c a0 a1 a2) := by
  unfold rqConsWrite
  extract_lets +onlyGivenNames -merge -useContext -underBinder x0 x1
  exact .ite (.of Chip.done_sameMem Chip.setReg_sameMem) (.of Chip.done_sameMem Chip.setBit_sameMem)

theorem tqCfgWrite_sameMem {c : Chip} {a0 a1 a2} : SameMem c (tqCfgWrite c a0 a1 a2) := by
  unfold tqCfgWrite
  extract_lets +onlyGivenNames -merge -useContext -underBinder x0
  refine .ite Chip.refuse_sameMem ?_
  refine .ite Chip.done_sameMem ?_
  refine .ite (.ite Chip.done_sameMem (.of Chip.done_sameMem (.of Chip.setTq_sameMem Chip.setBit_sameMem))) ?_
  exact .of Chip.done_sameMem Chip.setReg_sameMem

theorem tqPushWrite_sameMem {c : Chip} {a0 a1 a2} : SameMem c (tqPushWrite c a0 a1 a2) := by
  unfold tqPushWrite
  refine .ite Chip.refuse_sameMem ?_
  exact .ite (.of Chip.done_sameMem Chip.setBit_sameMem) (.of Chip.done_sameMem Chip.setTq_sameMem)

theorem peWrite_sameMem {c : Chip} {a0 a1 a2} : SameMem c (peWrite c a0 a1 a2) := by
  unfold peWrite
  extract_lets +onlyGivenNames -merge -useContext -underBinder x0 x1 x2 x3 x4 x5 x6 x7
  refine .ite ?_ ?_
  · refine .ite peCmdWrite_sameMem ?_
    refine .ite Chip.refuse_sameMem ?_
    refine .ite (.of Chip.cycRestart_sameMem Chip.plainWrite_sameMem) ?_
    exact .ite Chip.plainWrite_sameMem Chip.plainWrite_sameMem
  · refine .ite (.ite rqCfgWrite_sameMem (.ite rqConsWrite_sameMem Chip.plainWrite_sameMem)) ?_
    refine .ite (.ite tqCfgWrite_sameMem (.ite tqPushWrite_sameMem Chip.plainWrite_sameMem)) ?_
    exact Chip.plainWrite_sameMem

theorem Chip.rqDrop_sameMem {c : Chip} {a0} : SameMem c (Chip.rqDrop c a0) := by
  unfold Chip.rqDrop
  extract_lets +onlyGivenNames -merge -useContext -underBinder c0
  have h1 : SameMem c c0 := .of Chip.setRqLost_sameMem (.of Chip.setBit_sameMem Chip.inc_sameMem)
  clear_value c0
  exact .ite h1 (.of Chip.ownerCause_sameMem h1)

theorem Chip.rqDeliver_keepsWf {c : Chip} {a0 a1} : KeepsWf c (Chip.rqDeliver c a0 a1) := by
  unfold Chip.rqDeliver
  extract_lets +onlyGivenNames -merge -useContext -underBinder x0 x1
  refine .ite Chip.rqDrop_sameMem.keeps ?_
  exact .ite Chip.inc_sameMem.keeps (.of Chip.rqRun_keepsWf Chip.setRqLost_sameMem.keeps)

theorem engineClearDone_keepsWf {c : Chip} {a0} : KeepsWf c (engineClearDone c a0) := by
  unfold engineClearDone
  extract_lets +onlyGivenNames -merge -useContext -underBinder x0
  exact .ite (.of Chip.clearMem_keepsWf (.mk2 .refl rfl)) .refl

theorem peCycleTimer_sameMem {c : Chip} {a0} : SameMem c (peCycleTimer c a0) := by
  unfold peCycleTimer
  extract_lets +onlyGivenNames -merge -useContext -underBinder c0
  have h1 : SameMem c c0 := by
    refine .foldl ?_ ?_
    · intro c2 x3 h4
      exact .ite (.of Chip.wakeLine_sameMem h4) h4
    · exact .refl
  clear_value c0
  exact .ite (.of Chip.cycRestart_sameMem h1) .refl

theorem peWatchdog_sameMem {c : Chip} {a0} : SameMem c (peWatchdog c a0) := by
  unfold peWatchdog
  extract_lets +onlyGivenNames -merge -useContext -underBinder x0 c1
  have h2 : SameMem c c1 := .of Chip.peKick_sameMem Chip.peCause_sameMem
  clear_value c1
  exact .ite (.ite (.of Chip.setPeState_sameMem (.of Chip.haltCore_sameMem h2)) h2) .refl

theorem peckGrant_keepsWf {c : Chip} {a0} : KeepsWf c (peckGrant c a0) := by
  unfold peckGrant
  split
  · exact .refl
  · exact .ite .refl (.of Chip.tqOffer_keepsWf Chip.setOffer_sameMem.keeps)

theorem rqDelivery_keepsWf {c : Chip} : KeepsWf c (rqDelivery c) := by
  unfold rqDelivery
  split
  · exact .refl
  · extract_lets +onlyGivenNames -merge -useContext -underBinder x0 x1 c2
    have h3 : KeepsWf c c2 := .mk2 .refl rfl
    clear_value c2
    exact .of Chip.rqDeliver_keepsWf (.of Chip.release_sameMem.keeps h3)

theorem tqServe_keepsWf {c : Chip} {a0} : KeepsWf c (tqServe c a0) := by
  unfold tqServe
  extract_lets +onlyGivenNames -merge -useContext -underBinder x0 x1
  refine .ite .refl ?_
  split
  · exact .refl
  · split
    · exact .refl
    · exact Chip.tqTake_keepsWf

end Sys2Proof.Machine
end

