-- ==== Sys2Proof/Laws/KeepPins.lean ====
section
/-!
SUPPORT. What each operation of Machine/Pins.lean does to memory: it changes no byte (`SameMem`), or keeps
the canonical form (`KeepsWf`).
-/
namespace Sys2Proof.Machine

theorem pinWrite_sameMem {c : Chip} {a0 a1 a2} : SameMem c (pinWrite c a0 a1 a2) := by
  unfold pinWrite
  extract_lets +onlyGivenNames -merge -useContext -underBinder x0
  exact .ite Chip.refuse_sameMem Chip.plainWrite_sameMem

theorem gpioSet_sameMem {c : Chip} {a0 a1} : SameMem c (gpioSet c a0 a1) := by
  unfold gpioSet
  exact .of Chip.done_sameMem Chip.setReg_sameMem

theorem gpioClr_sameMem {c : Chip} {a0 a1} : SameMem c (gpioClr c a0 a1) := by
  unfold gpioClr
  exact .of Chip.done_sameMem Chip.setReg_sameMem

theorem gpioRead_sameMem {c : Chip} {a0} : SameMem c (gpioRead c a0).2 := by
  unfold gpioRead
  extract_lets +onlyGivenNames -merge -useContext -underBinder x0
  refine .ite1 (.pair1 .refl) ?_
  split
  · rename_i y1 y2 e3
    have h4 : SameMem c y2 := by
      refine .ofEq1 e3 ?_
      exact Chip.takeFree_sameMem
    exact .pair1 h4

end Sys2Proof.Machine
end

