-- ==== Sys2Proof/Laws/KeepImage.lean ====
section
/-!
SUPPORT. What each operation of Machine/Image.lean does to memory: it changes no byte (`SameMem`), or keeps
the canonical form (`KeepsWf`).
-/
namespace Sys2Proof.Machine

theorem Chip.setImage_sameMem {c : Chip} {a0 a1} : SameMem c (Chip.setImage c a0 a1) := by
  unfold Chip.setImage
  extract_lets +onlyGivenNames -merge -useContext -underBinder x0
  exact .mk2 .refl rfl

theorem Chip.imgFailed_sameMem {c : Chip} : SameMem c (Chip.imgFailed c) := by
  unfold Chip.imgFailed
  exact Chip.flag_sameMem

end Sys2Proof.Machine
end

