-- ==== Sys2Proof/Laws/KeepTrap.lean ====
section
/-!
SUPPORT. What each operation of Machine/Trap.lean does to memory: it changes no byte (`SameMem`), or keeps
the canonical form (`KeepsWf`).
-/
namespace Sys2Proof.Machine

theorem Chip.doubleTrap_keepsWf {c : Chip} {a0 a1 a2} : KeepsWf c (Chip.doubleTrap c a0 a1 a2) := by
  unfold Chip.doubleTrap
  extract_lets +onlyGivenNames -merge -useContext -underBinder x0 c1 x3
  have h2 : KeepsWf c c1 := Chip.setCtx_sameMem.keeps
  clear_value c1
  refine .ite (.mk2 h2 rfl) ?_
  refine .ite (.of Chip.tskRecovery_keepsWf (.of Chip.tskCause_sameMem.keeps (.of Chip.taskEnd_keepsWf h2))) ?_
  exact .of Chip.peCause_sameMem.keeps h2

theorem Chip.trap_keepsWf {c : Chip} {a0 a1 a2 a3} : KeepsWf c (Chip.trap c a0 a1 a2 a3) := by
  unfold Chip.trap
  extract_lets +onlyGivenNames -merge -useContext -underBinder x0
  exact .ite Chip.doubleTrap_keepsWf Chip.setCtx_sameMem.keeps

theorem Chip.coreFreezes_sameMem {c : Chip} {a0 a1 a2 a3 a4 a5 a6} : SameMem c (Chip.coreFreezes c a0 a1 a2 a3 a4 a5 a6) := by
  unfold Chip.coreFreezes
  extract_lets +onlyGivenNames -merge -useContext -underBinder c0
  have h1 : SameMem c c0 := .of Chip.freeze_sameMem Chip.freezeCore_sameMem
  clear_value c0
  exact .ite (.of Chip.tskCause_sameMem h1) h1

theorem Chip.tasksCut_sameMem {c : Chip} {a0} : SameMem c (Chip.tasksCut c a0) := by
  unfold Chip.tasksCut
  extract_lets +onlyGivenNames -merge -useContext -underBinder x0 c1 x6 c7
  have h2 : SameMem c c1 := by
    refine .foldl ?_ ?_
    · intro c3 x4 h5
      exact .ite (.of Chip.setBit_sameMem h5) h5
    · exact .refl
  have h8 : SameMem c c7 := .mk2 h2 rfl
  clear_value c1 c7
  refine .foldl ?_ ?_
  · intro c9 x10 h11
    extract_lets +onlyGivenNames -merge -useContext -underBinder x12
    exact .of Chip.setFr_sameMem h11
  · exact h8

theorem Chip.coreThaws_sameMem {c : Chip} {a0} : SameMem c (Chip.coreThaws c a0) := by
  unfold Chip.coreThaws
  exact .ite (.of Chip.setPeState_sameMem Chip.thaw_sameMem) Chip.thaw_sameMem

theorem coreResolve_keepsWf {c : Chip} {a0 a1 a2} : KeepsWf c (coreResolve c a0 a1 a2) := by
  unfold coreResolve
  split
  · exact .refl
  · extract_lets +onlyGivenNames -merge -useContext -underBinder c0 c2 x4
    have h1 : KeepsWf c c0 := Chip.coreThaws_sameMem.keeps
    have h3 : KeepsWf c c2 := Chip.resetCore_sameMem.keeps
    clear_value c0 c2
    refine .ite Chip.coreThaws_sameMem.keeps ?_
    refine .ite (.of Chip.trap_keepsWf h1) ?_
    refine .ite (.mk2 h3 rfl) ?_
    refine .ite (.of Chip.tskRecovery_keepsWf (.of Chip.tasksCut_sameMem.keeps h3)) ?_
    exact .of Chip.setPeState_sameMem.keeps h3

end Sys2Proof.Machine
end

