-- ==== Sys2Proof/Laws/KeepXdm.lean ====
section
/-!
SUPPORT. What each operation of Machine/Xdm.lean does to memory: it changes no byte (`SameMem`), or keeps
the canonical form (`KeepsWf`).
-/
namespace Sys2Proof.Machine

theorem Chip.xdEnded_sameMem {c : Chip} {a0 a1 a2} : SameMem c (Chip.xdEnded c a0 a1 a2) := by
  unfold Chip.xdEnded
  extract_lets +onlyGivenNames -merge -useContext -underBinder x0 c1 c3
  have h2 : SameMem c c1 := .of Chip.setBit_sameMem (.of Chip.setFld_sameMem Chip.inc_sameMem)
  have h4 : SameMem c c3 := .ite (.of Chip.xdFlag_sameMem h2) h2
  clear_value c1 c3
  refine .ite (.ite (.of Chip.setXd_sameMem (.of Chip.setReg_sameMem h4)) (.of Chip.setXd_sameMem h4)) ?_
  exact .of Chip.setXd_sameMem (.of Chip.xdFlag_sameMem h2)

theorem Chip.xdEnd_keepsWf {c : Chip} {a0 a1} : KeepsWf c (Chip.xdEnd c a0 a1) := by
  unfold Chip.xdEnd
  extract_lets +onlyGivenNames -merge -useContext -underBinder x0 x1 x2 x3
  split
  · rename_i y4 e5
    have h6 : KeepsWf c y4 := by
      refine .ofEq1 e5 ?_
      exact Chip.dmaWrite_keepsWf
    exact .of Chip.xdEnded_sameMem.keeps h6
  · rename_i y7 e8
    have h9 : KeepsWf c y7 := by
      refine .ofEq1 e8 ?_
      exact Chip.dmaWrite_keepsWf
    exact .of Chip.freezeAt_sameMem.keeps (.of Chip.setXd_sameMem.keeps h9)
  · rename_i y10 y11 o12 e13
    have h14 : KeepsWf c y11 := by
      refine .ofEq1 e13 ?_
      exact Chip.dmaWrite_keepsWf
    exact .of Chip.xdEnded_sameMem.keeps h14

theorem xdStop_keepsWf {c : Chip} {a0} : KeepsWf c (xdStop c a0) := by
  unfold xdStop
  extract_lets +onlyGivenNames -merge -useContext -underBinder x0
  split
  · exact Chip.xdEnd_keepsWf
  · exact Chip.setXd_sameMem.keeps
  · exact Chip.setXd_sameMem.keeps
  · exact .refl

theorem Chip.setXdSt_sameMem {c : Chip} {a0 a1} : SameMem c (Chip.setXdSt c a0 a1) := by
  unfold Chip.setXdSt
  extract_lets +onlyGivenNames -merge -useContext -underBinder x0
  exact Chip.setXd_sameMem

theorem xdResolve_keepsWf {c : Chip} {a0 a1} : KeepsWf c (xdResolve c a0 a1) := by
  unfold xdResolve
  extract_lets +onlyGivenNames -merge -useContext -underBinder x0
  refine .ite .refl ?_
  split
  · exact .of Chip.xdEnd_keepsWf Chip.setXdSt_sameMem.keeps
  · exact Chip.setXdSt_sameMem.keeps
  · exact Chip.xdEnded_sameMem.keeps
  · exact Chip.xdEnd_keepsWf
  · exact Chip.setXd_sameMem.keeps

theorem xdGo_sameMem {c : Chip} {a0} : SameMem c (xdGo c a0) := by
  unfold xdGo
  extract_lets +onlyGivenNames -merge -useContext -underBinder x0
  exact .ite (.of Chip.setXd_sameMem Chip.setReg_sameMem) Chip.xdFlag_sameMem

theorem xdCtlWrite_keepsWf {c : Chip} {a0 a1 a2} : KeepsWf c (xdCtlWrite c a0 a1 a2) := by
  unfold xdCtlWrite
  extract_lets +onlyGivenNames -merge -useContext -underBinder c0 c2
  have h1 : KeepsWf c c0 := .ite xdStop_keepsWf .refl
  have h3 : KeepsWf c c2 := .ite (.of xdGo_sameMem.keeps h1) h1
  clear_value c0 c2
  refine .ite Chip.refuse_sameMem.keeps ?_
  exact .of Chip.done_sameMem.keeps (.ite (.of Chip.xdTrig_sameMem.keeps h3) h3)

theorem trigtCommit_sameMem {c : Chip} {a0 a1 a2} : SameMem c (trigtCommit c a0 a1 a2) := by
  unfold trigtCommit
  extract_lets +onlyGivenNames -merge -useContext -underBinder c0 x2
  have h1 : SameMem c c0 := Chip.plainWrite_sameMem
  clear_value c0
  exact .ite Chip.refuse_sameMem (.of Chip.done_sameMem (.of Chip.setXd_sameMem h1))

theorem xdmWrite_keepsWf {c : Chip} {a0 a1 a2} : KeepsWf c (xdmWrite c a0 a1 a2) := by
  unfold xdmWrite
  extract_lets +onlyGivenNames -merge -useContext -underBinder x0 x1
  refine .ite ?_ Chip.plainWrite_sameMem.keeps
  split
  · exact xdCtlWrite_keepsWf
  · exact Chip.plainWrite_sameMem.keeps
  · exact trigtCommit_sameMem.keeps
  · exact .ite Chip.plainWrite_sameMem.keeps Chip.refuse_sameMem.keeps

theorem armedTimeout_keepsWf {c : Chip} {a0} : KeepsWf c (armedTimeout c a0) := by
  unfold armedTimeout
  extract_lets +onlyGivenNames -merge -useContext -underBinder x0
  exact .ite Chip.xdEnd_keepsWf .refl

theorem timeTrigger_sameMem {c : Chip} {a0} : SameMem c (timeTrigger c a0) := by
  unfold timeTrigger
  extract_lets +onlyGivenNames -merge -useContext -underBinder x0 c1 x3 x4
  have h2 : SameMem c c1 := Chip.xdTrig_sameMem
  clear_value c1
  exact .ite (.ite (.of Chip.setXd_sameMem h2) (.of Chip.setReg64_sameMem h2)) .refl

end Sys2Proof.Machine
end

