-- ==== Sys2Proof/Laws/KeepPwr.lean ====
section
/-!
SUPPORT. What each operation of Machine/Pwr.lean does to memory: it changes no byte (`SameMem`), or keeps
the canonical form (`KeepsWf`).
-/
namespace Sys2Proof.Machine

theorem Chip.setState_sameMem {c : Chip} {a0} : SameMem c (Chip.setState c a0) := by
  unfold Chip.setState
  exact .of Chip.raise_sameMem Chip.setFld_sameMem

theorem Chip.stopAngles_sameMem {c : Chip} : SameMem c (Chip.stopAngles c) := by
  unfold Chip.stopAngles
  extract_lets +onlyGivenNames -merge -useContext -underBinder c0 c5
  have h1 : SameMem c c0 := by
    refine .foldl ?_ ?_
    · intro c2 x3 h4
      exact .ite (.of Chip.setBit_sameMem (.of toCancel_sameMem h4)) h4
    · exact .refl
  have h6 : SameMem c c5 := by
    refine .foldl ?_ ?_
    · intro c7 x8 h9
      exact .ite h9 (.of shaftCmdWrite_sameMem h9)
    · exact h1
  clear_value c0 c5
  refine .foldl ?_ ?_
  · intro c10 x11 h12
    exact .ite (.of aeWrite_sameMem h12) h12
  · exact h6

theorem Chip.stopTc_sameMem {c : Chip} {a0} : SameMem c (Chip.stopTc c a0) := by
  unfold Chip.stopTc
  exact .of Chip.haltCore_sameMem Chip.tasksCut_sameMem

theorem Chip.pwrFlag_sameMem {c : Chip} {a0 a1} : SameMem c (Chip.pwrFlag c a0 a1) := by
  unfold Chip.pwrFlag
  exact Chip.flag_sameMem

theorem Chip.gateDown_sameMem {c : Chip} {a0} : SameMem c (Chip.gateDown c a0) := by
  unfold Chip.gateDown
  extract_lets +onlyGivenNames -merge -useContext -underBinder c0
  have h1 : SameMem c c0 := Chip.setBit_sameMem
  clear_value c0
  exact .ite (.of Chip.setPeState_sameMem h1) h1

theorem Chip.setPwr_sameMem {c : Chip} {a0} : SameMem c (Chip.setPwr c a0) := by
  unfold Chip.setPwr
  exact .mk2 .refl rfl

theorem gateWrite_sameMem {c : Chip} {a0 a1} : SameMem c (gateWrite c a0 a1) := by
  unfold gateWrite
  extract_lets +onlyGivenNames -merge -useContext -underBinder x0 x1 x2 x3 c4
  have h5 : SameMem c c4 := by
    refine .foldl ?_ ?_
    · intro c6 x7 h8
      exact .of Chip.gateDown_sameMem h8
    · exact Chip.setReg_sameMem
  clear_value c4
  refine .ite Chip.refuse_sameMem ?_
  refine .ite (.of Chip.done_sameMem Chip.pwrFlag_sameMem) ?_
  refine .of Chip.done_sameMem ?_
  refine .foldl ?_ ?_
  · intro c9 x10 h11
    exact .of Chip.setPwr_sameMem h11
  · exact h5

theorem Chip.stopUnits_keepsWf {c : Chip} : KeepsWf c (Chip.stopUnits c) := by
  unfold Chip.stopUnits
  extract_lets +onlyGivenNames -merge -useContext -underBinder c0 c5 c10 c15 c20 c25 x30
  have h1 : KeepsWf c c0 := by
    refine .foldl ?_ ?_
    · intro c2 x3 h4
      exact .ite (.of engineStop_sameMem.keeps h4) h4
    · exact .refl
  have h6 : KeepsWf c c5 := by
    refine .foldl ?_ ?_
    · intro c7 x8 h9
      exact .of xdStop_keepsWf h9
    · exact .of Chip.stopAngles_sameMem.keeps (.of Chip.stopTc_sameMem.keeps (.of Chip.stopTc_sameMem.keeps (.of Chip.tskLeaveRun_keepsWf h1)))
  have h11 : KeepsWf c c10 := by
    refine .foldl ?_ ?_
    · intro c12 x13 h14
      exact .of skDisable_sameMem.keeps h14
    · exact h6
  have h16 : KeepsWf c c15 := by
    refine .foldl ?_ ?_
    · intro c17 x18 h19
      exact .of canCtlWrite_sameMem.keeps h19
    · exact h11
  have h21 : KeepsWf c c20 := by
    refine .foldl ?_ ?_
    · intro c22 x23 h24
      exact .ite h24 (.of axisCmdWrite_sameMem.keeps h24)
    · exact h16
  have h26 : KeepsWf c c25 := by
    refine .foldl ?_ ?_
    · intro c27 x28 h29
      exact .of ethWrite_sameMem.keeps h29
    · exact h21
  clear_value c0 c5 c10 c15 c20 c25
  exact .of gateWrite_sameMem.keeps h26

theorem Chip.stateChange_keepsWf {c d : Chip} {t} (h : c.stateChange t = some d) : KeepsWf c d := by
  unfold Chip.stateChange at h
  split at h
  · split at h
    · cases h
      exact Chip.setState_sameMem.keeps
    · cases h
  · cases h
    exact Chip.setState_sameMem.keeps
  · cases h
    exact Chip.setState_sameMem.keeps
  · cases h
    refine .of Chip.setState_sameMem.keeps (.of Chip.tskLeaveRun_keepsWf ?_)
    refine .foldl ?_ .refl
    intro d n hd
    exact .ite (.of engineStop_sameMem.keeps hd) hd
  · cases h
    exact .of Chip.setState_sameMem.keeps Chip.stopUnits_keepsWf
  · cases h
    exact .of Chip.setState_sameMem.keeps Chip.stopUnits_keepsWf
  · cases h

theorem sysStateWrite_keepsWf {c : Chip} {a0 a1} : KeepsWf c (sysStateWrite c a0 a1) := by
  unfold sysStateWrite
  refine .ite Chip.refuse_sameMem.keeps (.ite Chip.done_sameMem.keeps ?_)
  split
  · rename_i e
    exact .of Chip.done_sameMem.keeps (Chip.stateChange_keepsWf e)
  · exact .of Chip.done_sameMem.keeps Chip.setBit_sameMem.keeps

theorem sysWrite_keepsWf {c : Chip} {a0 a1 a2} : KeepsWf c (sysWrite c a0 a1 a2) := by
  unfold sysWrite
  extract_lets +onlyGivenNames -merge -useContext -underBinder x0
  refine .ite sysStateWrite_keepsWf ?_
  refine .ite pinWrite_sameMem.keeps ?_
  exact .ite gpioSet_sameMem.keeps (.ite gpioClr_sameMem.keeps Chip.plainWrite_sameMem.keeps)

theorem avsWrite_sameMem {c : Chip} {a0 a1} : SameMem c (avsWrite c a0 a1) := by
  unfold avsWrite
  extract_lets +onlyGivenNames -merge -useContext -underBinder x0
  exact .ite Chip.refuse_sameMem (.of Chip.done_sameMem (.of Chip.setPwr_sameMem Chip.setReg_sameMem))

theorem seqCfgWrite_keepsWf {c : Chip} {a0 a1 a2} : KeepsWf c (seqCfgWrite c a0 a1 a2) := by
  unfold seqCfgWrite
  extract_lets +onlyGivenNames -merge -useContext -underBinder c0
  have h1 : KeepsWf c c0 := Chip.setReg_sameMem.keeps
  clear_value c0
  refine .ite Chip.refuse_sameMem.keeps ?_
  exact .of Chip.done_sameMem.keeps (.of Chip.mramWrite_keepsWf (.of Chip.mramWrite_keepsWf h1))

theorem wdCfgWrite_sameMem {c : Chip} {a0 a1} : SameMem c (wdCfgWrite c a0 a1) := by
  unfold wdCfgWrite
  exact .ite Chip.refuse_sameMem (.ite Chip.plainWrite_sameMem Chip.done_sameMem)

theorem Chip.wdKicked_sameMem {c : Chip} : SameMem c (Chip.wdKicked c) := by
  unfold Chip.wdKicked
  split
  · exact Chip.setPwr_sameMem
  · exact .refl

theorem wdKick_sameMem {c : Chip} {a0 a1} : SameMem c (wdKick c a0 a1) := by
  unfold wdKick
  refine .ite Chip.refuse_sameMem ?_
  refine .ite Chip.done_sameMem ?_
  exact .ite (.of Chip.done_sameMem Chip.wdKicked_sameMem) (.of Chip.done_sameMem Chip.pwrFlag_sameMem)

theorem Chip.poweredStopped_sameMem {c : Chip} : SameMem c (Chip.poweredStopped c) := by
  unfold Chip.poweredStopped
  refine .foldl ?_ ?_
  · intro c0 x1 h2
    exact .ite (.of Chip.setPeState_sameMem h2) h2
  · exact .refl

theorem deviceReset_keepsWf {c : Chip} {a0} : KeepsWf c (deviceReset c a0) := by
  refine ⟨wf_filter rfl fun e _ hp hu => ?_⟩
  by_cases hw : (a0 == causeWdt) = true
  · have : (deviceReset c a0).memc.undef = c.memc.undef := by
      unfold deviceReset; simp only [hw, if_true]
    rwa [undefRun_congr this]
  · exfalso
    simp only [hw, Bool.false_and, Bool.or_false, keepsMemory, Bool.or_eq_true, beq_iff_eq] at hp
    unfold Chip.undefRun at hu
    rcases hp with hp | hp <;> simp [hp] at hu

theorem goReset_keepsWf {c : Chip} {a0} : KeepsWf c (goReset c a0) := by
  unfold goReset
  exact .of Chip.raise_sameMem.keeps (.of Chip.poweredStopped_sameMem.keeps (.of deviceReset_keepsWf Chip.evrCut_keepsWf))

theorem rstWrite_keepsWf {c : Chip} {a0 a1} : KeepsWf c (rstWrite c a0 a1) := by
  unfold rstWrite
  refine .ite Chip.refuse_sameMem.keeps ?_
  exact .ite (.of Chip.done_sameMem.keeps goReset_keepsWf) Chip.done_sameMem.keeps

theorem pwrWrite_keepsWf {c : Chip} {a0 a1 a2} : KeepsWf c (pwrWrite c a0 a1 a2) := by
  unfold pwrWrite
  extract_lets +onlyGivenNames -merge -useContext -underBinder x0
  refine .ite avsWrite_sameMem.keeps ?_
  refine .ite gateWrite_sameMem.keeps ?_
  refine .ite seqCfgWrite_keepsWf ?_
  refine .ite wdCfgWrite_sameMem.keeps ?_
  exact .ite wdKick_sameMem.keeps (.ite rstWrite_keepsWf Chip.plainWrite_sameMem.keeps)

theorem Chip.wdStop_sameMem {c : Chip} : SameMem c (Chip.wdStop c) := by
  unfold Chip.wdStop
  exact Chip.setPwr_sameMem

theorem Chip.bootError_sameMem {c : Chip} {a0} : SameMem c (Chip.bootError c a0) := by
  unfold Chip.bootError
  exact .of Chip.wdStop_sameMem (.of Chip.haltCore_sameMem Chip.setFld_sameMem)

theorem Chip.setSeg_sameMem {c : Chip} {a0 a1 a2 a3 a4} : SameMem c (Chip.setSeg c a0 a1 a2 a3 a4) := by
  unfold Chip.setSeg
  exact .of Chip.setReg_sameMem Chip.setReg_sameMem

theorem Chip.bootMarch_keepsWf {c : Chip} {a0} : KeepsWf c (Chip.bootMarch c a0) := by
  unfold Chip.bootMarch
  extract_lets +onlyGivenNames -merge -useContext -underBinder c0
  have h1 : KeepsWf c c0 := .of Chip.setReg_sameMem.keeps Chip.setSeg_sameMem.keeps
  clear_value c0
  exact .of marchDone_keepsWf (.of marchCtlWrite_sameMem.keeps h1)

theorem Chip.runFirmware_keepsWf {c : Chip} {a0} : KeepsWf c (Chip.runFirmware c a0) := by
  unfold Chip.runFirmware
  extract_lets +onlyGivenNames -merge -useContext -underBinder c0 x5 x6 c7 c9 x11
  have h1 : KeepsWf c c0 := by
    refine .foldl ?_ ?_
    · intro c2 x3 h4
      exact .ite (.of Chip.setBytes_keepsWf h4) h4
    · exact .refl
  have h8 : KeepsWf c c7 := .of Chip.setCtx_sameMem.keeps (.of Chip.resetCore_sameMem.keeps h1)
  have h10 : KeepsWf c c9 := .of Chip.setImage_sameMem.keeps (.of Chip.wdKicked_sameMem.keeps h8)
  clear_value c0 c7 c9
  exact .mk2 h10 rfl

theorem Chip.coreMv_sameMem {c : Chip} {a0} : SameMem c (Chip.coreMv c a0) := by
  unfold Chip.coreMv
  exact Chip.setFld_sameMem

theorem Chip.prepareRings_sameMem {c : Chip} : SameMem c (Chip.prepareRings c) := by
  unfold Chip.prepareRings
  extract_lets +onlyGivenNames -merge -useContext -underBinder c0 c2
  have h1 : SameMem c c0 := .of Chip.setSeg_sameMem (.of Chip.setReg_sameMem Chip.setReg_sameMem)
  have h3 : SameMem c c2 := .of Chip.setReg_sameMem (.of Chip.setReg_sameMem h1)
  clear_value c0 c2
  exact .of Chip.setBit_sameMem h3

theorem Chip.resetCluster_sameMem {c : Chip} {a0} : SameMem c (Chip.resetCluster c a0) := by
  unfold Chip.resetCluster
  extract_lets +onlyGivenNames -merge -useContext -underBinder x0 x1 x2 c3 x5
  have h4 : SameMem c c3 := Chip.setImage_sameMem
  clear_value c3
  exact .mk2 h4 rfl

theorem Chip.serve_sameMem {c : Chip} : SameMem c (Chip.serve c) := by
  unfold Chip.serve
  extract_lets +onlyGivenNames -merge -useContext -underBinder c0 x2
  have h1 : SameMem c c0 := .of Chip.setSeg_sameMem Chip.prepareRings_sameMem
  clear_value c0
  exact .of Chip.setState_sameMem (.mk2 h1 rfl)

theorem Chip.romWaits_sameMem {c : Chip} {a0} : SameMem c (Chip.romWaits c a0) := by
  unfold Chip.romWaits
  exact .ite (.of Chip.serve_sameMem Chip.setBit_sameMem) (.ite .refl Chip.setPwr_sameMem)

theorem Chip.senseBanks_sameMem {c : Chip} {a0} : SameMem c (Chip.senseBanks c a0) := by
  unfold Chip.senseBanks
  exact .ite Chip.setReg_sameMem .refl

theorem Chip.seqFrom_sameMem {c : Chip} {a0} : SameMem c (Chip.seqFrom c a0) := by
  unfold Chip.seqFrom
  exact Chip.setPwr_sameMem

theorem Chip.seqFails_sameMem {c : Chip} {a0} : SameMem c (Chip.seqFails c a0) := by
  unfold Chip.seqFails
  extract_lets +onlyGivenNames -merge -useContext -underBinder x0 c1 c3
  have h2 : SameMem c c1 := .of Chip.pwrFlag_sameMem Chip.setBit_sameMem
  have h4 : SameMem c c3 := .of Chip.setPwr_sameMem (.of Chip.setBit_sameMem h2)
  clear_value c1 c3
  refine .ite (.of Chip.setPwr_sameMem (.of Chip.setBit_sameMem (.of Chip.setFld_sameMem h2))) ?_
  exact .ite (.of Chip.seqFrom_sameMem h4) h4

theorem Chip.seqLoad_sameMem {c : Chip} {a0} : SameMem c (Chip.seqLoad c a0) := by
  unfold Chip.seqLoad
  extract_lets +onlyGivenNames -merge -useContext -underBinder x0 c1
  have h2 : SameMem c c1 := .ite Chip.mramRead_sameMem .refl
  clear_value c1
  refine .ite ?_ ?_
  · refine .foldl ?_ ?_
    · intro c3 x4 h5
      exact .of Chip.setReg_sameMem h5
    · exact h2
  · refine .of Chip.setBit_sameMem ?_
    refine .foldl ?_ ?_
    · intro c6 x7 h8
      exact .of Chip.setReg_sameMem h8
    · exact h2

theorem Chip.seqPass_sameMem {c : Chip} {a0} : SameMem c (Chip.seqPass c a0) := by
  unfold Chip.seqPass
  extract_lets +onlyGivenNames -merge -useContext -underBinder c0
  have h1 : SameMem c c0 := .of Chip.setBit_sameMem Chip.setBit_sameMem
  clear_value c0
  exact .of Chip.seqFrom_sameMem (.ite (.of Chip.setBit_sameMem h1) h1)

theorem avsDone_sameMem {c : Chip} : SameMem c (avsDone c) := by
  unfold avsDone
  exact .ite (.of Chip.pwrFlag_sameMem Chip.setPwr_sameMem) .refl

theorem bootRomRun_keepsWf {c : Chip} {a0} : KeepsWf c (bootRomRun c a0) := by
  unfold bootRomRun
  extract_lets +onlyGivenNames -merge -useContext -underBinder x0 c1 x3 x4
  have h2 : KeepsWf c c1 := .ite .refl Chip.bootMarch_keepsWf
  clear_value c1
  refine .ite .refl ?_
  refine .ite Chip.romWaits_sameMem.keeps ?_
  refine .ite (.of Chip.bootError_sameMem.keeps h2) ?_
  refine .ite (.of Chip.bootError_sameMem.keeps h2) ?_
  refine .ite (.of Chip.bootError_sameMem.keeps h2) ?_
  clear_value x3
  clear_value x4
  split
  · exact .of Chip.serve_sameMem.keeps (.of Chip.runFirmware_keepsWf h2)
  · exact .of Chip.serve_sameMem.keeps (.of Chip.setBit_sameMem.keeps (.of Chip.runFirmware_keepsWf h2))
  · exact .of Chip.romWaits_sameMem.keeps (.ite h2 (.of Chip.imgFailed_sameMem.keeps h2))

theorem brownOut_keepsWf {c : Chip} : KeepsWf c (brownOut c) := by
  unfold brownOut
  exact .of Chip.setState_sameMem.keeps (.of deviceReset_keepsWf Chip.evrCut_keepsWf)

theorem buckDisChange_sameMem {c : Chip} {a0} : SameMem c (buckDisChange c a0) := by
  unfold buckDisChange
  extract_lets +onlyGivenNames -merge -useContext -underBinder c0
  have h1 : SameMem c c0 := .of Chip.setBit_sameMem Chip.setPwr_sameMem
  clear_value c0
  exact .ite (.of Chip.setFld_sameMem (.of Chip.setPwr_sameMem h1)) h1

theorem buckSoftStart_sameMem {c : Chip} {a0} : SameMem c (buckSoftStart c a0) := by
  unfold buckSoftStart
  refine .ite ?_ .refl
  split
  · rename_i y0 y1 e2
    have h3 : SameMem c y1 := by
      refine .ofEq1 e2 ?_
      exact Chip.takeFree_sameMem
    exact .of Chip.setFld_sameMem (.of Chip.senseBanks_sameMem (.of Chip.setPwr_sameMem h3))

theorem coreOverVoltage_sameMem {c : Chip} {a0} : SameMem c (coreOverVoltage c a0) := by
  unfold coreOverVoltage
  refine .ite (.of Chip.raise_sameMem (.of Chip.setBit_sameMem (.of Chip.setBit_sameMem Chip.coreMv_sameMem))) ?_
  exact .refl

theorem coreWindowExit_sameMem {c : Chip} {a0} : SameMem c (coreWindowExit c a0) := by
  unfold coreWindowExit
  exact .ite (.of Chip.raise_sameMem (.of Chip.setBit_sameMem Chip.coreMv_sameMem)) .refl

theorem coreWindowReturn_sameMem {c : Chip} {a0} : SameMem c (coreWindowReturn c a0) := by
  unfold coreWindowReturn
  extract_lets +onlyGivenNames -merge -useContext -underBinder c0
  have h1 : SameMem c c0 := .of Chip.setBit_sameMem Chip.coreMv_sameMem
  clear_value c0
  exact .ite (.ite (.of Chip.setBit_sameMem (.of Chip.setBit_sameMem h1)) h1) .refl

theorem hostPathTimeout_sameMem {c : Chip} : SameMem c (hostPathTimeout c) := by
  unfold hostPathTimeout
  split
  · exact .refl
  · exact .ite Chip.bootError_sameMem .refl

theorem pgoodRise_sameMem {c : Chip} {a0 a1} : SameMem c (pgoodRise c a0 a1) := by
  unfold pgoodRise
  extract_lets +onlyGivenNames -merge -useContext -underBinder c0 c2
  have h1 : SameMem c c0 := Chip.setBit_sameMem
  have h3 : SameMem c c2 := .ite (.of Chip.senseBanks_sameMem h1) h1
  clear_value c0 c2
  exact .ite (.ite (.of Chip.seqFrom_sameMem (.of Chip.seqLoad_sameMem h3)) h3) .refl

theorem pinReset_keepsWf {c : Chip} : KeepsWf c (pinReset c) := by
  unfold pinReset
  exact .ite .refl goReset_keepsWf

theorem pllLock_sameMem {c : Chip} : SameMem c (pllLock c) := by
  unfold pllLock
  exact .ite Chip.setBit_sameMem .refl

theorem pllLoss_sameMem {c : Chip} : SameMem c (pllLoss c) := by
  unfold pllLoss
  exact .ite (.of Chip.pwrFlag_sameMem Chip.setBit_sameMem) .refl

theorem powerOn_keepsWf {c : Chip} : KeepsWf c (powerOn c) := by
  unfold powerOn
  refine .ite ?_ .refl
  split
  · rename_i y0 y1 e2
    have h3 : KeepsWf c y1 := by
      refine .ofEq1 e2 ?_
      exact Chip.takeFree_sameMem.keeps
    exact .of Chip.setFld_sameMem.keeps (.of goReset_keepsWf h3)

theorem resetExit_sameMem {c : Chip} {a0 a1} : SameMem c (resetExit c a0 a1) := by
  unfold resetExit
  extract_lets +onlyGivenNames -merge -useContext -underBinder c0 c2 c4 c6 c8 x13 c14
  have h1 : SameMem c c0 := .ite loadRepairMap_sameMem Chip.setBit_sameMem
  have h3 : SameMem c c2 := .of Chip.setReg_sameMem h1
  have h5 : SameMem c c4 := .of Chip.setReg_sameMem h3
  have h7 : SameMem c c6 := .of Chip.setFld_sameMem (.of Chip.setFld_sameMem h5)
  have h9 : SameMem c c8 := by
    refine .ite ?_ h7
    refine .foldl ?_ ?_
    · intro c10 x11 h12
      exact .of Chip.setFld_sameMem h12
    · exact h7
  have h15 : SameMem c c14 := .mk2 h9 rfl
  clear_value c0 c2 c4 c6 c8 c14
  exact .ite (.of Chip.setState_sameMem (.of Chip.setPwr_sameMem h15)) .refl

theorem seqEnable_sameMem {c : Chip} : SameMem c (seqEnable c) := by
  unfold seqEnable
  split
  · extract_lets +onlyGivenNames -merge -useContext -underBinder c0
    have h1 : SameMem c c0 := Chip.setPwr_sameMem
    clear_value c0
    exact .ite (.of Chip.seqPass_sameMem h1) h1
  · exact .refl

theorem seqPgFall_sameMem {c : Chip} {a0} : SameMem c (seqPgFall c a0) := by
  unfold seqPgFall
  extract_lets +onlyGivenNames -merge -useContext -underBinder c0
  have h1 : SameMem c c0 := Chip.setPwr_sameMem
  clear_value c0
  exact .ite (.of Chip.seqFails_sameMem h1) h1

theorem seqPgRise_sameMem {c : Chip} {a0} : SameMem c (seqPgRise c a0) := by
  unfold seqPgRise
  extract_lets +onlyGivenNames -merge -useContext -underBinder c0
  have h1 : SameMem c c0 := Chip.setPwr_sameMem
  clear_value c0
  exact .ite (.of Chip.seqPass_sameMem h1) h1

theorem seqPgTimeout_sameMem {c : Chip} {a0} : SameMem c (seqPgTimeout c a0) := by
  unfold seqPgTimeout
  exact .ite Chip.seqFails_sameMem .refl

theorem seqRetry_sameMem {c : Chip} : SameMem c (seqRetry c) := by
  unfold seqRetry
  exact .ite Chip.seqFrom_sameMem .refl

theorem temperature_sameMem {c : Chip} {a0} : SameMem c (temperature c a0) := by
  unfold temperature
  extract_lets +onlyGivenNames -merge -useContext -underBinder x0 x1 c2
  have h3 : SameMem c c2 := Chip.setReg_sameMem
  clear_value c2
  exact .ite (.of Chip.pwrFlag_sameMem h3) h3

theorem unitPowerUp_keepsWf {c : Chip} {a0} : KeepsWf c (unitPowerUp c a0) := by
  unfold unitPowerUp
  extract_lets +onlyGivenNames -merge -useContext -underBinder c0
  have h1 : KeepsWf c c0 := .of Chip.raise_sameMem.keeps Chip.setBit_sameMem.keeps
  clear_value c0
  refine .ite ?_ .refl
  refine .ite (.of Chip.setPeState_sameMem.keeps (.of Chip.resetCore_sameMem.keeps (.of Chip.clearMem_keepsWf h1))) ?_
  exact .ite h1 (.of Chip.resetCluster_sameMem.keeps h1)

theorem wdHalf_sameMem {c : Chip} : SameMem c (wdHalf c) := by
  unfold wdHalf
  split
  · exact .ite (.ite Chip.wdKicked_sameMem (.of Chip.raise_sameMem Chip.setPwr_sameMem)) .refl
  · exact .refl

theorem wdReset_keepsWf {c : Chip} : KeepsWf c (wdReset c) := by
  unfold wdReset
  split
  · exact .ite (.ite Chip.wdKicked_sameMem.keeps goReset_keepsWf) .refl
  · exact .refl

end Sys2Proof.Machine
end

