-- ==== Sys2Proof/Laws/KeepSec.lean ====
section
/-!
SUPPORT. What each operation of Machine/Sec.lean does to memory: it changes no byte (`SameMem`), or keeps
the canonical form (`KeepsWf`).
-/
namespace Sys2Proof.Machine

theorem Chip.setSession_sameMem {c : Chip} {a0 a1} : SameMem c (Chip.setSession c a0 a1) := by
  unfold Chip.setSession
  extract_lets +onlyGivenNames -merge -useContext -underBinder x0
  exact .mk2 .refl rfl

theorem Chip.setLoad_sameMem {c : Chip} {a0} : SameMem c (Chip.setLoad c a0) := by
  unfold Chip.setLoad
  extract_lets +onlyGivenNames -merge -useContext -underBinder x0
  exact .mk2 .refl rfl

theorem Chip.setJob_sameMem {c : Chip} {a0} : SameMem c (Chip.setJob c a0) := by
  unfold Chip.setJob
  extract_lets +onlyGivenNames -merge -useContext -underBinder c0 x2
  have h1 : SameMem c c0 := Chip.setBit_sameMem
  clear_value c0
  exact .mk2 h1 rfl

theorem Chip.jobOver_sameMem {c : Chip} {a0} : SameMem c (Chip.jobOver c a0) := by
  unfold Chip.jobOver
  exact .of Chip.raise_sameMem (.of Chip.setFld_sameMem Chip.setJob_sameMem)

theorem secResolve_sameMem {c : Chip} {a0} : SameMem c (secResolve c a0) := by
  unfold secResolve
  refine .ite Chip.setLoad_sameMem ?_
  split
  · exact .refl
  · exact .ite .refl (.ite Chip.setJob_sameMem Chip.jobOver_sameMem)

theorem Chip.setFdata_sameMem {c : Chip} {a0} : SameMem c (Chip.setFdata c a0) := by
  unfold Chip.setFdata
  refine .foldl ?_ ?_
  · intro c0 x1 h2
    exact .of Chip.setReg_sameMem h2
  · exact .refl

theorem Chip.setFuses_sameMem {c : Chip} {a0} : SameMem c (Chip.setFuses c a0) := by
  unfold Chip.setFuses
  extract_lets +onlyGivenNames -merge -useContext -underBinder x0
  exact .mk2 .refl rfl

theorem Chip.fuseRun_sameMem {c : Chip} {a0 a1 a2 a3} : SameMem c (Chip.fuseRun c a0 a1 a2 a3).2 := by
  unfold Chip.fuseRun
  extract_lets +onlyGivenNames -merge -useContext -underBinder x0 x1
  split
  · exact .pair1 Chip.setFdata_sameMem
  · exact .ite1 (.pair1 .refl) (.ite1 (.pair1 .refl) (.pair1 Chip.setFuses_sameMem))
  · extract_lets +onlyGivenNames -merge -useContext -underBinder c2
    have h3 : SameMem c c2 := Chip.setFuses_sameMem
    clear_value c2
    exact .ite1 (.pair1 .refl) (.ite1 (.pair1 h3) (.pair1 .refl))
  · exact .ite1 (.pair1 .refl) (.pair1 Chip.setFuses_sameMem)
  · exact .pair1 .refl

theorem fprogWrite_sameMem {c : Chip} {a0 a1} : SameMem c (fprogWrite c a0 a1) := by
  unfold fprogWrite
  extract_lets +onlyGivenNames -merge -useContext -underBinder c0 x2
  have h1 : SameMem c c0 := .of Chip.setBit_sameMem Chip.plainWrite_sameMem
  clear_value c0
  refine .ite Chip.refuse_sameMem ?_
  refine .ite Chip.plainWrite_sameMem ?_
  refine .ite Chip.plainWrite_sameMem ?_
  split
  · rename_i y3 y4 e5
    have h6 : SameMem c y4 := by
      refine .ofEq1 e5 ?_
      exact .of Chip.fuseRun_sameMem h1
    extract_lets +onlyGivenNames -merge -useContext -underBinder c7 x9
    have h8 : SameMem c c7 := .of Chip.setBit_sameMem h6
    clear_value c7
    exact .mk2 h8 rfl

theorem jobCtlWrite_sameMem {c : Chip} {a0 a1} : SameMem c (jobCtlWrite c a0 a1) := by
  unfold jobCtlWrite
  refine .ite Chip.refuse_sameMem ?_
  refine .ite Chip.done_sameMem ?_
  exact .ite (.of Chip.done_sameMem Chip.flag_sameMem) (.of Chip.done_sameMem Chip.setJob_sameMem)

theorem trngCtlWrite_sameMem {c : Chip} {a0 a1} : SameMem c (trngCtlWrite c a0 a1) := by
  unfold trngCtlWrite
  exact .ite Chip.refuse_sameMem (.of Chip.done_sameMem (.ite Chip.setBit_sameMem .refl))

theorem secRegWrite_sameMem {c : Chip} {a0 a1 a2} : SameMem c (secRegWrite c a0 a1 a2) := by
  unfold secRegWrite
  refine .ite fprogWrite_sameMem ?_
  exact .ite jobCtlWrite_sameMem (.ite trngCtlWrite_sameMem Chip.plainWrite_sameMem)

theorem Chip.setTrng_sameMem {c : Chip} {a0} : SameMem c (Chip.setTrng c a0) := by
  unfold Chip.setTrng
  extract_lets +onlyGivenNames -merge -useContext -underBinder x0
  exact .mk2 .refl rfl

theorem trngRead_sameMem {c : Chip} : SameMem c (trngRead c).2 := by
  unfold trngRead
  split
  · exact .pair1 Chip.setBit_sameMem
  · exact .pair1 Chip.setTrng_sameMem

theorem Chip.rollbackAdvance_sameMem {c : Chip} {a0 a1 a2} : SameMem c (Chip.rollbackAdvance c a0 a1 a2) := by
  unfold Chip.rollbackAdvance
  extract_lets +onlyGivenNames -merge -useContext -underBinder x0
  exact .ite .refl (.ite Chip.setFuses_sameMem Chip.flag_sameMem)

theorem Chip.secPlace_keepsWf {c : Chip} {ws} : KeepsWf c (Chip.secPlace c ws) := by
  induction ws generalizing c with
  | nil => exact Chip.setLoad_sameMem.keeps
  | cons w ws ih =>
    unfold Chip.secPlace
    have h := Chip.writeSpan_keepsWf (c := c) (a0 := 13) (a1 := w.1) (a2 := w.2)
    split <;> rename_i e <;> rw [e] at h
    · exact .of freezeAt_sameMem.keeps (.of Chip.setLoad_sameMem.keeps h)
    · exact .of Chip.setLoad_sameMem.keeps h
    · exact h.trans ih

theorem Chip.deviceSign_sameMem {c : Chip} {a0 a1} : SameMem c (Chip.deviceSign c a0 a1).2 := by
  unfold Chip.deviceSign
  extract_lets +onlyGivenNames -merge -useContext -underBinder x0
  exact .pair1 (.mk2 .refl rfl)

theorem Chip.failedProof_sameMem {c : Chip} {a0} : SameMem c (Chip.failedProof c a0) := by
  unfold Chip.failedProof
  extract_lets +onlyGivenNames -merge -useContext -underBinder x0 x1 c2 x4 x5
  have h3 : SameMem c c2 := .mk2 .refl rfl
  clear_value c2
  exact .ite h3 (.of Chip.raise_sameMem (.mk2 h3 rfl))

theorem Chip.installKey_sameMem {c : Chip} {a0 a1 a2 a3} : SameMem c (Chip.installKey c a0 a1 a2 a3).2 := by
  unfold Chip.installKey
  split
  · exact .pair1 .refl
  · refine .ite1 (.pair1 .refl) ?_
    split
    · exact .pair1 .refl
    · extract_lets +onlyGivenNames -merge -useContext -underBinder x0 x1
      exact .pair1 (.of Chip.raise_sameMem (.mk2 .refl rfl))

theorem Chip.jobFreeze_sameMem {c : Chip} {a0 a1 a2 a3} : SameMem c (Chip.jobFreeze c a0 a1 a2 a3) := by
  unfold Chip.jobFreeze
  exact .of Chip.freezeAt_sameMem Chip.setJob_sameMem

theorem Chip.jobEnd_keepsWf {c : Chip} {a0 a1 a2} : KeepsWf c (Chip.jobEnd c a0 a1 a2) := by
  unfold Chip.jobEnd
  split
  · rename_i y0 e1
    have h2 : KeepsWf c y0 := by
      refine .ofEq1 e1 ?_
      exact Chip.dmaWrite_keepsWf
    exact .of Chip.jobFreeze_sameMem.keeps h2
  · rename_i y3 y4 o5 e6
    have h7 : KeepsWf c y4 := by
      refine .ofEq1 e6 ?_
      exact Chip.dmaWrite_keepsWf
    exact .of Chip.jobOver_sameMem.keeps h7

theorem Chip.jobOut_keepsWf {c : Chip} {a0 a1 a2 a3} : KeepsWf c (Chip.jobOut c a0 a1 a2 a3) := by
  unfold Chip.jobOut
  split
  · rename_i y0 y1 y2 e3
    have h4 : KeepsWf c y2 := by
      refine .ofEq1 e3 ?_
      exact Chip.writeSpan_keepsWf
    exact .of Chip.jobFreeze_sameMem.keeps h4
  · rename_i y5 y6 o7 e8
    have h9 : KeepsWf c y6 := by
      refine .ofEq1 e8 ?_
      exact Chip.writeSpan_keepsWf
    exact .of Chip.jobEnd_keepsWf h9
  · rename_i y10 e11
    have h12 : KeepsWf c y10 := by
      refine .ofEq1 e11 ?_
      exact Chip.writeSpan_keepsWf
    exact .of Chip.jobEnd_keepsWf h12

theorem Chip.prove_sameMem {c : Chip} {a0 a1} : SameMem c (Chip.prove c a0 a1).2 := by
  unfold Chip.prove
  split
  · exact .pair1 .refl
  · extract_lets +onlyGivenNames -merge -useContext -underBinder c0 x2
    have h1 : SameMem c c0 := Chip.setSession_sameMem
    clear_value c0
    exact .ite1 (.pair1 (.mk2 h1 rfl)) (.pair1 (.of Chip.failedProof_sameMem Chip.setSession_sameMem))

theorem Chip.setPassword_sameMem {c : Chip} {a0 a1 a2 a3} : SameMem c (Chip.setPassword c a0 a1 a2 a3).2 := by
  unfold Chip.setPassword
  extract_lets +onlyGivenNames -merge -useContext -underBinder x0 x1
  exact .ite1 (.pair1 .refl) (.pair1 (.of Chip.raise_sameMem (.mk2 .refl rfl)))

theorem fuseOpDone_sameMem {c : Chip} {a0} : SameMem c (fuseOpDone c a0) := by
  unfold fuseOpDone
  split
  · exact .refl
  · extract_lets +onlyGivenNames -merge -useContext -underBinder x0 x1 c2 c4 c6
    have h3 : SameMem c c2 := .mk2 .refl rfl
    have h5 : SameMem c c4 := .ite (.of Chip.setFuses_sameMem h3) h3
    have h7 : SameMem c c6 := .of Chip.setBit_sameMem (.of Chip.setBit_sameMem h5)
    clear_value c2 c4 c6
    exact .of Chip.raise_sameMem (.of Chip.setFld_sameMem h7)

theorem roleLockExpiry_sameMem {c : Chip} {a0} : SameMem c (roleLockExpiry c a0) := by
  unfold roleLockExpiry
  split
  · exact .refl
  · extract_lets +onlyGivenNames -merge -useContext -underBinder x0
    exact .ite (.mk2 .refl rfl) .refl

theorem Chip.jobRun_keepsWf {c : Chip} {a0 a1 a2 a3 a4} : KeepsWf c (Chip.jobRun c a0 a1 a2 a3 a4).chip := by
  have hd : ∀ k m, KeepsWf c (c.deviceSign k m).2 := fun k m => Chip.deviceSign_sameMem.keeps
  have hp := (Chip.prove_sameMem (c := c) (a0 := a1) (a1 := a2)).keeps
  unfold Chip.jobRun
  extract_lets ok check bad word
  split
  all_goals first
    | exact .refl
    | (split <;> exact .refl)
    | (split
       · exact .refl
       · exact hd _ _)
    | exact Chip.setSession_sameMem.keeps
    | skip
  · split
    split <;> exact .refl
  · split
    · exact .refl
    · split <;> exact .refl
  · split
    · exact .refl
    · exact hd 0 a2
  · split
    · exact .refl
    · exact hd 1 a2
  · split
    · exact .refl
    · split
      · exact .refl
      · rename_i cred _ _ _
        cases cred with
        | none => exact .refl
        | some k => exact Chip.setSession_sameMem.keeps
  · split
    · rename_i e
      rw [e] at hp
      exact hp
    · rename_i e
      rw [e] at hp
      exact hp
  · exact (Chip.installKey_sameMem (a0 := a1) (a1 := w32 (word 0)) (a2 := w32 (word 1)) (a3 := a3.drop 8)).keeps
  · exact (Chip.setPassword_sameMem (a0 := word 0) (a1 := w32 (word 1)) (a2 := bytesAt a3 8 16) (a3 := bytesAt a3 24 48)).keeps

theorem Chip.jobFinish_keepsWf {c : Chip} {j r a0 a1} (h : KeepsWf c r.chip) : KeepsWf c (Chip.jobFinish j r a0 a1) := by
  unfold Chip.jobFinish
  exact .ite (.of Chip.jobEnd_keepsWf h) (.ite (.of Chip.jobEnd_keepsWf h) (.of Chip.jobOut_keepsWf h))

theorem secJobDone_keepsWf {c : Chip} : KeepsWf c (secJobDone c) := by
  unfold secJobDone
  split
  · exact .refl
  · refine .ite .refl ?_
    split
    · exact Chip.jobOut_keepsWf
    · exact Chip.jobEnd_keepsWf
    · split
      · rename_i e
        exact .of Chip.jobFreeze_sameMem.keeps (.ofEq1 e Chip.readSpan_sameMem.keeps)
      · rename_i e
        exact .ofEq1 e Chip.readSpan_sameMem.keeps
      · rename_i e
        exact .of Chip.jobOver_sameMem.keeps (.ofEq1 e Chip.readSpan_sameMem.keeps)
      · rename_i e
        have h1 := KeepsWf.ofEq1 e Chip.readSpan_sameMem.keeps
        refine .ite (.of Chip.jobEnd_keepsWf h1) ?_
        split
        · rename_i e
          exact .of Chip.jobFreeze_sameMem.keeps (h1.trans (.ofEq1 e Chip.readSpan_sameMem.keeps))
        · rename_i e
          exact h1.trans (.ofEq1 e Chip.readSpan_sameMem.keeps)
        · rename_i e
          exact .of Chip.jobEnd_keepsWf (h1.trans (.ofEq1 e Chip.readSpan_sameMem.keeps))
        · rename_i e
          have h2 := h1.trans (KeepsWf.ofEq1 e Chip.readSpan_sameMem.keeps)
          split
          · rename_i e
            exact .of Chip.jobFreeze_sameMem.keeps (h2.trans (.ofEq1 e Chip.readSpan_sameMem.keeps))
          · rename_i e
            exact h2.trans (.ofEq1 e Chip.readSpan_sameMem.keeps)
          · rename_i e
            exact .of Chip.jobEnd_keepsWf (h2.trans (.ofEq1 e Chip.readSpan_sameMem.keeps))
          · rename_i e
            have h3 := h2.trans (KeepsWf.ofEq1 e Chip.readSpan_sameMem.keeps)
            exact Chip.jobFinish_keepsWf (h3.trans Chip.jobRun_keepsWf)

theorem sessionTimeout_sameMem {c : Chip} {a0} : SameMem c (sessionTimeout c a0) := by
  unfold sessionTimeout
  split
  · exact .refl
  · exact .ite (.of Chip.failedProof_sameMem Chip.setSession_sameMem) .refl

theorem trngDeliver_sameMem {c : Chip} {a0} : SameMem c (trngDeliver c a0) := by
  unfold trngDeliver
  exact .ite .refl Chip.setTrng_sameMem

theorem trngFail_sameMem {c : Chip} : SameMem c (trngFail c) := by
  unfold trngFail
  exact .of Chip.raise_sameMem (.of Chip.setTrng_sameMem Chip.setBit_sameMem)

end Sys2Proof.Machine
end

