-- ==== Sys2Proof/Laws/KeepTst.lean ====
section
/-!
SUPPORT. What each operation of Machine/Tst.lean does to memory: it changes no byte (`SameMem`), or keeps
the canonical form (`KeepsWf`).
-/
namespace Sys2Proof.Machine

theorem Chip.setPrbs_sameMem {c : Chip} {a0 a1} : SameMem c (Chip.setPrbs c a0 a1) := by
  unfold Chip.setPrbs
  extract_lets +onlyGivenNames -merge -useContext -underBinder x0
  exact .mk2 .refl rfl

theorem Chip.prbsStart_sameMem {c : Chip} {a0 a1} : SameMem c (Chip.prbsStart c a0 a1) := by
  unfold Chip.prbsStart
  extract_lets +onlyGivenNames -merge -useContext -underBinder c0 c2 x4
  have h1 : SameMem c c0 := .of Chip.setReg_sameMem Chip.setReg_sameMem
  have h3 : SameMem c c2 := .of Chip.setReg_sameMem (.of Chip.setReg64_sameMem h1)
  clear_value c0 c2
  exact .of Chip.setPrbs_sameMem h3

theorem prbsCtlWrite_sameMem {c : Chip} {a0 a1 a2} : SameMem c (prbsCtlWrite c a0 a1 a2) := by
  unfold prbsCtlWrite
  extract_lets +onlyGivenNames -merge -useContext -underBinder x0
  refine .ite Chip.refuse_sameMem ?_
  refine .ite (.of Chip.done_sameMem Chip.setPrbs_sameMem) ?_
  refine .ite (.ite (.of Chip.done_sameMem Chip.setBit_sameMem) (.of Chip.done_sameMem Chip.prbsStart_sameMem)) ?_
  exact .of Chip.done_sameMem Chip.setReg_sameMem

theorem tstWrite_sameMem {c : Chip} {a0 a1 a2} : SameMem c (tstWrite c a0 a1 a2) := by
  unfold tstWrite
  extract_lets +onlyGivenNames -merge -useContext -underBinder x0
  exact .ite prbsCtlWrite_sameMem Chip.plainWrite_sameMem

theorem Chip.prbsLocked_sameMem {c : Chip} {a0 a1} : SameMem c (Chip.prbsLocked c a0 a1) := by
  unfold Chip.prbsLocked
  extract_lets +onlyGivenNames -merge -useContext -underBinder x0 x1 x2 x3 c4 c6 c8 x10 x11
  have h5 : SameMem c c4 := Chip.setReg64_sameMem
  have h7 : SameMem c c6 := .of Chip.inc_sameMem h5
  have h9 : SameMem c c8 := .ite (.ite (.of Chip.setBit_sameMem h7) h7) h5
  clear_value c4 c6 c8
  exact .ite (.of Chip.setPrbs_sameMem (.of Chip.setBit_sameMem h9)) (.of Chip.setPrbs_sameMem h9)

theorem Chip.prbsBit_sameMem {c : Chip} {a0 a1} : SameMem c (Chip.prbsBit c a0 a1) := by
  unfold Chip.prbsBit
  extract_lets +onlyGivenNames -merge -useContext -underBinder x0 x1 x2 x3 x4 c5
  have h6 : SameMem c c5 := Chip.setPrbs_sameMem
  clear_value c5
  refine .ite Chip.prbsLocked_sameMem ?_
  refine .ite Chip.setPrbs_sameMem ?_
  refine .ite (.of Chip.setBit_sameMem (.of Chip.setBit_sameMem h6)) ?_
  exact .ite (.of Chip.setBit_sameMem (.of Chip.setBit_sameMem h6)) h6

theorem Chip.prbsSend_sameMem {c : Chip} {a0} : SameMem c (Chip.prbsSend c a0).2 := by
  unfold Chip.prbsSend
  extract_lets +onlyGivenNames -merge -useContext -underBinder x0 x1 x2
  exact .pair1 Chip.setPrbs_sameMem

theorem prbsRun_sameMem {c : Chip} {a0 a1} : SameMem c (prbsRun c a0 a1) := by
  unfold prbsRun
  extract_lets +onlyGivenNames -merge -useContext -underBinder x0
  refine .ite ?_ .refl
  refine .foldl ?_ ?_
  · intro c1 x2 h3
    split
    · rename_i y4 y5 e6
      have h7 : SameMem c y5 := by
        refine .ofEq1 e6 ?_
        exact .of Chip.prbsSend_sameMem h3
      exact .of Chip.prbsBit_sameMem h7
  · exact .refl

theorem tapInstruction_keepsWf {c : Chip} {a0} : KeepsWf c (tapInstruction c a0) := by
  unfold tapInstruction
  extract_lets +onlyGivenNames -merge -useContext -underBinder x0 x1 x2 c3
  have h4 : KeepsWf c c3 := .mk2 .refl rfl
  clear_value c3
  exact .ite (.of goReset_keepsWf h4) h4

theorem tapReset_keepsWf {c : Chip} : KeepsWf c (tapReset c) := by
  unfold tapReset
  exact tapInstruction_keepsWf

end Sys2Proof.Machine
end

