-- ==== Sys2Proof/Laws/KeepBus.lean ====
section
/-!
SUPPORT. What each operation of Machine/Bus.lean does to memory: it changes no byte (`SameMem`), or keeps
the canonical form (`KeepsWf`).
-/
namespace Sys2Proof.Machine

theorem freezeResolve_keepsWf {c : Chip} {a0 a1} : KeepsWf c (freezeResolve c a0 a1) := by
  unfold freezeResolve
  split
  · exact .refl
  · extract_lets +onlyGivenNames -merge -useContext -underBinder x0 c1 x3 x4
    have h2 : KeepsWf c c1 := .mk2 .refl rfl
    clear_value c1
    refine .ite .refl ?_
    refine .ite (.of coreResolve_keepsWf h2) ?_
    refine .ite (.of Chip.setBit_sameMem.keeps h2) ?_
    refine .ite (.of secResolve_sameMem.keeps h2) ?_
    refine .ite (.of marchResolve_keepsWf h2) ?_
    refine .ite (.ite h2 (.mk2 h2 rfl)) ?_
    refine .ite (.of motResolve_sameMem.keeps h2) ?_
    refine .ite (.of canResolve_keepsWf h2) ?_
    refine .ite (.of rqResolve_keepsWf h2) ?_
    exact .ite (.of tqResolve_keepsWf h2) (.ite (.of xdResolve_keepsWf h2) h2)

theorem freezeResolveWrite_keepsWf {c : Chip} {a0 a1} : KeepsWf c (freezeResolveWrite c a0 a1) := by
  unfold freezeResolveWrite
  exact .ite Chip.refuse_sameMem.keeps (.of Chip.done_sameMem.keeps freezeResolve_keepsWf)

theorem windowWrite_keepsWf {c : Chip} {a0 a1 a2 a3} : KeepsWf c (windowWrite c a0 a1 a2 a3) := by
  unfold windowWrite
  refine .ite sysWrite_keepsWf ?_
  refine .ite pwrWrite_keepsWf ?_
  refine .ite tmuWrite_sameMem.keeps ?_
  refine .ite angWrite_sameMem.keeps ?_
  refine .ite ethWrite_sameMem.keeps ?_
  refine .ite swxWrite_sameMem.keeps ?_
  refine .ite canWrite_sameMem.keeps ?_
  refine .ite motWrite_sameMem.keeps ?_
  refine .ite skpWrite_sameMem.keeps ?_
  refine .ite memRegWrite_sameMem.keeps ?_
  refine .ite (.ite freezeResolveWrite_keepsWf xdmWrite_keepsWf) ?_
  refine .ite cvuWrite_sameMem.keeps ?_
  refine .ite (.ite mbxWrite_sameMem.keeps evtWrite_sameMem.keeps) ?_
  refine .ite secRegWrite_sameMem.keeps ?_
  refine .ite hifWrite_sameMem.keeps ?_
  refine .ite tskWrite_keepsWf ?_
  exact .ite peWrite_sameMem.keeps (.ite evrWrite_sameMem.keeps tstWrite_sameMem.keeps)

theorem regWriteOnce_keepsWf {c : Chip} {a0 a1 a2} : KeepsWf c (regWriteOnce c a0 a1 a2) := by
  unfold regWriteOnce
  exact .ite Chip.done_sameMem.keeps windowWrite_keepsWf

theorem Chip.debugDone_sameMem {c : Chip} {a0 a1 a2} : SameMem c (Chip.debugDone c a0 a1 a2) := by
  unfold Chip.debugDone
  extract_lets +onlyGivenNames -merge -useContext -underBinder x0
  exact .mk2 .refl rfl

theorem busWriteOnce_keepsWf {c : Chip} {a0 a1 a2} : KeepsWf c (busWriteOnce c a0 a1 a2).2 := by
  unfold busWriteOnce
  extract_lets +onlyGivenNames -merge -useContext -underBinder c0
  have h1 : KeepsWf c c0 := regWriteOnce_keepsWf
  clear_value c0
  exact .ite1 (.ite1 (.pair1 h1) (.pair1 .refl)) Chip.memWrite_keepsWf

theorem Chip.latch_sameMem {c : Chip} {a0 a1 a2} : SameMem c (Chip.latch c a0 a1 a2) := by
  unfold Chip.latch
  exact .mk2 .refl rfl

theorem packRead_sameMem {c : Chip} {a0 a1} : SameMem c (packRead c a0 a1) := by
  unfold packRead
  refine .ite Chip.refuse_sameMem ?_
  split
  · rename_i y0 y1 e2
    have h3 : SameMem c y1 := by
      refine .ofEq1 e2 ?_
      exact Chip.pfRead_sameMem
    extract_lets +onlyGivenNames -merge -useContext -underBinder c4
    have h5 : SameMem c c4 := .of Chip.latch_sameMem (.of Chip.latch_sameMem h3)
    clear_value c4
    exact .of Chip.answer_sameMem h5

theorem Chip.plainRead_sameMem {c : Chip} {a0 a1} : SameMem c (Chip.plainRead c a0 a1) := by
  unfold Chip.plainRead
  split
  · exact Chip.answer_sameMem
  · extract_lets +onlyGivenNames -merge -useContext -underBinder x0 c1 x6 c7
    have h2 : SameMem c c1 := by
      refine .foldl ?_ ?_
      · intro c3 x4 h5
        exact .of Chip.latch_sameMem h5
      · exact .refl
    have h8 : SameMem c c7 := .ite h2 (.of Chip.setReg_sameMem h2)
    clear_value c1 c7
    exact .ite Chip.answer_sameMem (.ite Chip.answer_sameMem (.of Chip.answer_sameMem h8))

theorem sampleOutRead_sameMem {c : Chip} {a0 a1} : SameMem c (sampleOutRead c a0 a1) := by
  unfold sampleOutRead
  exact .of outRead_sameMem Chip.plainRead_sameMem

theorem mbDataRead_sameMem {c d : Chip} {m n i v} (h : mbDataRead c m n i = some (v, d)) : SameMem c d := by
  unfold mbDataRead at h
  split at h
  · cases h
  · cases h
    exact .ite mbAck_sameMem .refl

theorem regRead_keepsWf {c : Chip} {m a} : KeepsWf c (regRead c m a) := by
  unfold regRead
  refine .ite Chip.answer_sameMem.keeps ?_
  refine .ite atomicRead_keepsWf ?_
  refine .ite atomicRead_keepsWf ?_
  refine .ite lockRead_sameMem.keeps ?_
  refine .ite ?_ ?_
  · split
    · rename_i e
      exact .of Chip.answer_sameMem.keeps (mbDataRead_sameMem e).keeps
    · exact Chip.refuse_sameMem.keeps
  refine .ite (.of Chip.answer_sameMem.keeps trngRead_sameMem.keeps) ?_
  refine .ite (.of Chip.answer_sameMem.keeps gpioRead_sameMem.keeps) ?_
  exact .ite packRead_sameMem.keeps (.ite sampleOutRead_sameMem.keeps Chip.plainRead_sameMem.keeps)

theorem busReadOnce_keepsWf {c : Chip} {a0 a1 a2} : KeepsWf c (busReadOnce c a0 a1 a2).2 := by
  unfold busReadOnce
  extract_lets +onlyGivenNames -merge -useContext -underBinder c0
  have h1 : KeepsWf c c0 := regRead_keepsWf
  clear_value c0
  refine .ite1 ?_ Chip.memRead_sameMem.keeps
  refine .ite1 ?_ (.pair1 .refl)
  split
  · exact .pair1 h1
  · exact .pair1 h1
  · exact .pair1 h1
  · exact .pair1 h1
  · exact .pair1 h1
  · exact .pair1 h1

theorem debugRun_keepsWf {c : Chip} {a0} : KeepsWf c (debugRun c a0) := by
  unfold debugRun
  extract_lets +onlyGivenNames -merge -useContext -underBinder x0 x1 x2 c3
  have h4 : KeepsWf c c3 := .mk2 .refl rfl
  clear_value c3
  refine .ite Chip.debugDone_sameMem.keeps ?_
  refine .ite ?_ (.of Chip.freezeAt_sameMem.keeps h4)
  refine .ite ?_ ?_
  · split
    · rename_i y5 e6
      have h7 : KeepsWf c y5 := by
        refine .ofEq1 e6 ?_
        exact busWriteOnce_keepsWf
      exact .of Chip.debugDone_sameMem.keeps h7
    · rename_i y8 y9 e10
      have h11 : KeepsWf c y9 := by
        refine .ofEq1 e10 ?_
        exact busWriteOnce_keepsWf
      exact .of Chip.debugDone_sameMem.keeps h11
  · split
    · rename_i y12 y13 e14
      have h15 : KeepsWf c y13 := by
        refine .ofEq1 e14 ?_
        exact .of busReadOnce_keepsWf h4
      exact .of Chip.debugDone_sameMem.keeps h15
    · rename_i y16 e17
      have h18 : KeepsWf c y16 := by
        refine .ofEq1 e17 ?_
        exact .of busReadOnce_keepsWf h4
      exact h18
    · rename_i y19 y20 o21 e22
      have h23 : KeepsWf c y20 := by
        refine .ofEq1 e22 ?_
        exact .of busReadOnce_keepsWf h4
      exact .of Chip.debugDone_sameMem.keeps h23

theorem Chip.debugSettle_keepsWf {c : Chip} : KeepsWf c (Chip.debugSettle c) := by
  unfold Chip.debugSettle
  split
  · exact .ite .refl debugRun_keepsWf
  · exact .refl

theorem regWrite_keepsWf {c : Chip} {a0 a1 a2} : KeepsWf c (regWrite c a0 a1 a2) := by
  unfold regWrite
  extract_lets +onlyGivenNames -merge -useContext -underBinder c0
  have h1 : KeepsWf c c0 := regWriteOnce_keepsWf
  clear_value c0
  exact .ite (.of Chip.answer_sameMem.keeps (.of Chip.debugSettle_keepsWf h1)) h1

theorem busRead_keepsWf {c : Chip} {a0 a1 a2} : KeepsWf c (busRead c a0 a1 a2).2 := by
  unfold busRead
  exact busReadOnce_keepsWf

theorem busWrite_keepsWf {c : Chip} {a0 a1 a2} : KeepsWf c (busWrite c a0 a1 a2).2 := by
  unfold busWrite
  split
  · rename_i y0 y1 e2
    have h3 : KeepsWf c y1 := by
      refine .ofEq1 e2 ?_
      exact busWriteOnce_keepsWf
    exact .pair1 (.ite (.of Chip.debugSettle_keepsWf h3) h3)

theorem debugAccess_keepsWf {c : Chip} {a0} : KeepsWf c (debugAccess c a0) := by
  unfold debugAccess
  exact .ite (.of debugRun_keepsWf Chip.setBit_sameMem.keeps) .refl

theorem registerRead_keepsWf {c : Chip} {a0 a1 a2} : KeepsWf c (registerRead c a0 a1 a2) := by
  unfold registerRead
  split
  · exact .ite regRead_keepsWf Chip.refuse_sameMem.keeps
  · exact Chip.refuse_sameMem.keeps
  · exact .ite .refl Chip.refuse_sameMem.keeps
  · exact .refl

theorem registerWrite_keepsWf {c : Chip} {a0 a1 a2 a3} : KeepsWf c (registerWrite c a0 a1 a2 a3) := by
  unfold registerWrite
  split
  · exact .ite regWrite_keepsWf Chip.refuse_sameMem.keeps
  · exact Chip.refuse_sameMem.keeps
  · exact .ite .refl Chip.refuse_sameMem.keeps
  · exact .refl

end Sys2Proof.Machine
end

