-- ==== Sys2Proof/Laws/KeepService.lean ====
section
/-!
SUPPORT. What each operation of Machine/Service.lean does to memory: it changes no byte (`SameMem`), or keeps
the canonical form (`KeepsWf`).
-/
namespace Sys2Proof.Machine

theorem Chip.acceptSeq_sameMem {c : Chip} {a0} : SameMem c (Chip.acceptSeq c a0) := by
  unfold Chip.acceptSeq
  refine .ite ?_ .refl
  split
  · exact Chip.setSession_sameMem
  · exact .refl

theorem Chip.supWrites_keepsWf {c : Chip} {ws} : KeepsWf c (Chip.supWrites c ws) := by
  induction ws generalizing c with
  | nil => exact .refl
  | cons w ws ih => exact .of ih regWrite_keepsWf

theorem Chip.queueReply_sameMem {c : Chip} {a0 a1} : SameMem c (Chip.queueReply c a0 a1) := by
  unfold Chip.queueReply
  exact Chip.setHif_sameMem

theorem Chip.finishStarted_sameMem {c : Chip} {a0 a1 a2 a3} : SameMem c (Chip.finishStarted c a0 a1 a2 a3) := by
  unfold Chip.finishStarted
  extract_lets +onlyGivenNames -merge -useContext -underBinder c0 x2
  have h1 : SameMem c c0 := Chip.setHif_sameMem
  clear_value c0
  exact .ite (.of Chip.queueReply_sameMem h1) (.of Chip.queueReply_sameMem h1)

theorem Chip.supRead_keepsWf {c : Chip} {a0} : KeepsWf c (Chip.supRead c a0).2 := by
  unfold Chip.supRead
  extract_lets +onlyGivenNames -merge -useContext -underBinder c0
  have h1 : KeepsWf c c0 := regRead_keepsWf
  clear_value c0
  split
  · exact .pair1 h1
  · exact .pair1 h1

theorem Chip.supReads_keepsWf {c : Chip} {ws} : KeepsWf c (Chip.supReads c ws).2 := by
  induction ws generalizing c with
  | nil => exact .refl
  | cons w ws ih => exact .of ih Chip.supRead_keepsWf

theorem Chip.regReply_keepsWf {c : Chip} {a0} : KeepsWf c (Chip.regReply c a0).2 := by
  unfold Chip.regReply
  split
  · rename_i y0 y1 e2
    have h3 : KeepsWf c y1 := by
      refine .ofEq1 e2 ?_
      exact Chip.supReads_keepsWf
    exact .pair1 h3

theorem Chip.fwFreezes_sameMem {c : Chip} {a0 a1 a2} : SameMem c (Chip.fwFreezes c a0 a1 a2) := by
  unfold Chip.fwFreezes
  exact Chip.coreFreezes_sameMem

theorem Chip.fwRead_sameMem {c : Chip} {a0 a1} : SameMem c (Chip.fwRead c a0 a1).2 := by
  unfold Chip.fwRead
  split
  · rename_i y0 y1 e2
    have h3 : SameMem c y1 := by
      refine .ofEq1 e2 ?_
      exact Chip.readSpan_sameMem
    exact .pair1 h3
  · rename_i y4 y5 y6 e7
    have h8 : SameMem c y6 := by
      refine .ofEq1 e7 ?_
      exact Chip.readSpan_sameMem
    exact .pair1 (.of Chip.fwFreezes_sameMem h8)
  · rename_i y9 y10 o11 e12
    have h13 : SameMem c y10 := by
      refine .ofEq1 e12 ?_
      exact Chip.readSpan_sameMem
    exact .pair1 h13

theorem Chip.fwWrite_keepsWf {c : Chip} {a0 a1} : KeepsWf c (Chip.fwWrite c a0 a1).2 := by
  unfold Chip.fwWrite
  split
  · rename_i y0 e1
    have h2 : KeepsWf c y0 := by
      refine .ofEq1 e1 ?_
      exact Chip.writeSpan_keepsWf
    exact .pair1 h2
  · rename_i y3 y4 y5 e6
    have h7 : KeepsWf c y5 := by
      refine .ofEq1 e6 ?_
      exact Chip.writeSpan_keepsWf
    exact .pair1 (.of Chip.fwFreezes_sameMem.keeps h7)
  · rename_i y8 y9 o10 e11
    have h12 : KeepsWf c y9 := by
      refine .ofEq1 e11 ?_
      exact Chip.writeSpan_keepsWf
    exact .pair1 h12

theorem Chip.memFault_sameMem {c : Chip} : SameMem c (Chip.memFault c).2 := by
  unfold Chip.memFault
  exact .pair1 .refl

theorem Chip.postMailbox_sameMem {c : Chip} {a0} : SameMem c (Chip.postMailbox c a0) := by
  unfold Chip.postMailbox
  extract_lets +onlyGivenNames -merge -useContext -underBinder c0
  have h1 : SameMem c c0 := by
    refine .foldl ?_ ?_
    · intro c2 x3 h4
      exact .of mbDataWrite_sameMem h4
    · exact .refl
  clear_value c0
  exact .of mbCtlWrite_sameMem h1

theorem Chip.postRing_keepsWf {c : Chip} {a0} : KeepsWf c (Chip.postRing c a0) := by
  unfold Chip.postRing
  extract_lets +onlyGivenNames -merge -useContext -underBinder x0 c1
  have h2 : KeepsWf c c1 := Chip.fwWrite_keepsWf
  clear_value c1
  exact .ite (.of Chip.setFld_sameMem.keeps h2) h2

theorem Chip.takePacket_sameMem {c : Chip} {a0 a1 a2} : SameMem c (Chip.takePacket c a0 a1 a2) := by
  unfold Chip.takePacket
  extract_lets +onlyGivenNames -merge -useContext -underBinder x0 x1
  split
  · exact .of Chip.setHif_sameMem Chip.acceptSeq_sameMem
  · extract_lets +onlyGivenNames -merge -useContext -underBinder x2
    exact .of Chip.queueReply_sameMem (.ite Chip.acceptSeq_sameMem .refl)

theorem answering_sameMem {c d : Chip} {f cmd} (h : SameMem c (f d cmd.words).2) : SameMem c (answering f cmd d).2 := h

theorem answering_keepsWf {c d : Chip} {f cmd} (h : KeepsWf c (f d cmd.words).2) : KeepsWf c (answering f cmd d).2 := h

theorem commandTake_sameMem {c : Chip} : SameMem c (commandTake c) := by
  unfold commandTake
  extract_lets +onlyGivenNames -merge -useContext -underBinder x0
  refine .ite .refl ?_
  refine .ite .refl ?_
  split
  · rename_i y1 y2 e3
    have h4 : SameMem c y2 := by
      refine .ofEq1 e3 ?_
      exact Chip.fwRead_sameMem
    exact .of Chip.takePacket_sameMem (.of Chip.setFld_sameMem h4)
  · rename_i y5 e6
    have h7 : SameMem c y5 := by
      refine .ofEq1 e6 ?_
      exact Chip.fwRead_sameMem
    exact .ite (.of Chip.setFld_sameMem h7) h7

theorem mailboxCommandTake_sameMem {c : Chip} : SameMem c (mailboxCommandTake c) := by
  unfold mailboxCommandTake
  refine .ite .refl ?_
  refine .of Chip.takePacket_sameMem ?_
  refine .foldl ?_ .refl
  intro d i h
  split
  · rename_i e
    exact h.trans (mbDataRead_sameMem e)
  · exact h

theorem replyPost_keepsWf {c : Chip} : KeepsWf c (replyPost c) := by
  unfold replyPost
  split
  · exact .refl
  · extract_lets +onlyGivenNames -merge -useContext -underBinder c0
    have h1 : KeepsWf c c0 := Chip.setHif_sameMem.keeps
    clear_value c0
    refine .ite .refl ?_
    split
    · exact .of Chip.postRing_keepsWf h1
    · exact .of Chip.postMailbox_sameMem.keeps h1

theorem runCommand_keepsWf {c : Chip} {op run} (h : ∀ cmd d, KeepsWf c d → KeepsWf c (run cmd d).2) :
    KeepsWf c (runCommand c op run) := by
  unfold runCommand
  split
  · exact .refl
  · refine .ite .refl ?_
    extract_lets c0 refuse
    have h0 : KeepsWf c c0 := Chip.setHif_sameMem.keeps
    have hr : ∀ st, KeepsWf c (refuse st) := fun _ => .of Chip.queueReply_sameMem.keeps h0
    clear_value refuse c0
    split
    · rename_i e
      exact .ite (hr _) (.of Chip.queueReply_sameMem.keeps (.ofEq1 e (h _ _ h0)))
    · rename_i e
      exact .ite (hr _) (.of Chip.queueReply_sameMem.keeps (.of Chip.setHif_sameMem.keeps (.ofEq1 e (h _ _ h0))))
    · rename_i e
      exact .ofEq1 e (h _ _ h0)

theorem runCommand_sameMem {c : Chip} {op run} (h : ∀ cmd d, SameMem c d → SameMem c (run cmd d).2) :
    SameMem c (runCommand c op run) := by
  unfold runCommand
  split
  · exact .refl
  · refine .ite .refl ?_
    extract_lets c0 refuse
    have h0 : SameMem c c0 := Chip.setHif_sameMem
    have hr : ∀ st, SameMem c (refuse st) := fun _ => .of Chip.queueReply_sameMem h0
    clear_value refuse c0
    split
    · rename_i e
      exact .ite (hr _) (.of Chip.queueReply_sameMem (.ofEq1 e (h _ _ h0)))
    · rename_i e
      exact .ite (hr _) (.of Chip.queueReply_sameMem (.of Chip.setHif_sameMem (.ofEq1 e (h _ _ h0))))
    · rename_i e
      exact .ofEq1 e (h _ _ h0)

end Sys2Proof.Machine
end

