-- ==== Sys2Proof/Laws/KeepCmdImg.lean ====
section
/-!
SUPPORT. What each operation of Machine/CmdImg.lean does to memory: it changes no byte (`SameMem`), or keeps
the canonical form (`KeepsWf`).
-/
namespace Sys2Proof.Machine

theorem Chip.setHandle_sameMem {c : Chip} {a0 a1} : SameMem c (Chip.setHandle c a0 a1) := by
  unfold Chip.setHandle
  exact Chip.setHif_sameMem

theorem Chip.advanceBy_sameMem {c : Chip} {a0 a1 a2} : SameMem c (Chip.advanceBy c a0 a1 a2) := by
  unfold Chip.advanceBy
  exact .ite Chip.rollbackAdvance_sameMem .refl

theorem Chip.engineLoaded_sameMem {c : Chip} {a0 a1 a2 a3 a4} : SameMem c (Chip.engineLoaded c a0 a1 a2 a3 a4) := by
  unfold Chip.engineLoaded
  extract_lets +onlyGivenNames -merge -useContext -underBinder x0 x1 c2 c4
  have h3 : SameMem c c2 := .of Chip.setImage_sameMem (.of Chip.setPeState_sameMem Chip.setHandle_sameMem)
  have h5 : SameMem c c4 := .of Chip.setHif_sameMem h3
  clear_value c2 c4
  exact .of Chip.advanceBy_sameMem h5

theorem Chip.commitFirmware_keepsWf {c : Chip} {a0} : KeepsWf c (Chip.commitFirmware c a0) := by
  unfold Chip.commitFirmware
  extract_lets +onlyGivenNames -merge -useContext -underBinder x0
  exact .ite Chip.runFirmware_keepsWf Chip.setBytes_keepsWf

theorem Chip.commitImage_keepsWf {c : Chip} {a0 a1 a2 a3} : KeepsWf c (Chip.commitImage c a0 a1 a2 a3).2 := by
  unfold Chip.commitImage
  extract_lets +onlyGivenNames -merge -useContext -underBinder x0 c1 x3 x4
  have h2 : KeepsWf c c1 := Chip.setHandle_sameMem.keeps
  have h5 : ∀ z6, KeepsWf c z6 → KeepsWf c (x4 z6).2 := by
    intro z6 h7
    unfold x4
    exact .pair1 h7
  clear_value c1
  split
  · exact h5 _ (.of Chip.commitFirmware_keepsWf h2)
  · extract_lets +onlyGivenNames -merge -useContext -underBinder x8 x9
    exact .ite1 (.pair1 .refl) (.ite1 (.pair1 .refl) (.pair1 Chip.secPlace_keepsWf))
  · extract_lets +onlyGivenNames -merge -useContext -underBinder x10 c11
    have h12 : KeepsWf c c11 := by
      refine .foldl ?_ ?_
      · intro c13 x14 h15
        exact .of regWrite_keepsWf h15
      · exact h2
    clear_value c11
    refine .ite1 (.pair1 .refl) ?_
    refine .ite1 (.pair1 .refl) ?_
    exact h5 _ (.of Chip.advanceBy_sameMem.keeps (.of Chip.setImage_sameMem.keeps h12))
  · exact h5 _ (.of Chip.advanceBy_sameMem.keeps Chip.setHandle_sameMem.keeps)

theorem imageInfoCmd_sameMem {c : Chip} {a0} : SameMem c (imageInfoCmd a0 c).2 := by
  unfold imageInfoCmd
  extract_lets +onlyGivenNames -merge -useContext -underBinder x0 x1 x2 x3
  exact .ite1 (.pair1 .refl) (.ite1 (.pair1 .refl) (.pair1 .refl))

theorem loadBegin_sameMem {c : Chip} {a0} : SameMem c (loadBegin a0 c).2 := by
  unfold loadBegin
  extract_lets +onlyGivenNames -merge -useContext -underBinder x0 x1 x2 x3
  refine .ite1 (.pair1 .refl) ?_
  refine .ite1 (.pair1 .refl) ?_
  refine .ite1 (.pair1 .refl) ?_
  refine .ite1 (.pair1 .refl) ?_
  split
  · exact .pair1 .refl
  · exact .pair1 Chip.setHandle_sameMem

theorem loadCommit_keepsWf {c : Chip} {a0 a1} : KeepsWf c (loadCommit a0 a1 c).2 := by
  unfold loadCommit
  extract_lets +onlyGivenNames -merge -useContext -underBinder x0
  split
  · exact .pair1 .refl
  · refine .ite1 (.pair1 .refl) ?_
    refine .ite1 (.pair1 .refl) ?_
    split
    · rename_i y1 e2
      have h3 : KeepsWf c y1 := by
        refine .ofEq1 e2 ?_
        exact Chip.fwRead_sameMem.keeps
      exact .of Chip.memFault_sameMem.keeps h3
    · rename_i y4 y5 e6
      have h7 : KeepsWf c y5 := by
        refine .ofEq1 e6 ?_
        exact Chip.fwRead_sameMem.keeps
      extract_lets +onlyGivenNames -merge -useContext -underBinder x8
      clear_value x8
      split
      · exact .pair1 (.of Chip.imgFailed_sameMem.keeps (.of Chip.setHandle_sameMem.keeps h7))
      · exact .of Chip.commitImage_keepsWf h7

theorem loadData_keepsWf {c : Chip} {a0} : KeepsWf c (loadData a0 c).2 := by
  unfold loadData
  extract_lets +onlyGivenNames -merge -useContext -underBinder x0 x1
  split
  · exact .pair1 .refl
  · refine .ite1 (.pair1 .refl) ?_
    refine .ite1 (.pair1 .refl) ?_
    refine .ite1 (.pair1 .refl) ?_
    split
    · rename_i y2 e3
      have h4 : KeepsWf c y2 := by
        refine .ofEq1 e3 ?_
        exact Chip.fwWrite_keepsWf
      exact .of Chip.memFault_sameMem.keeps h4
    · rename_i y5 e6
      have h7 : KeepsWf c y5 := by
        refine .ofEq1 e6 ?_
        exact Chip.fwWrite_keepsWf
      extract_lets +onlyGivenNames -merge -useContext -underBinder x8
      exact .pair1 (.of Chip.setHandle_sameMem.keeps h7)

theorem startEngineCmd_keepsWf {c : Chip} {a0} : KeepsWf c (startEngineCmd a0 c).2 := by
  unfold startEngineCmd
  extract_lets +onlyGivenNames -merge -useContext -underBinder x0 x1 c2 x4 x5 x6 c7 x9 x10
  have h3 : KeepsWf c c2 := Chip.supWrites_keepsWf
  have h8 : KeepsWf c c7 := .ite (.of regWrite_keepsWf h3) h3
  clear_value c2 c7
  refine .ite1 (.pair1 .refl) ?_
  refine .ite1 (.pair1 .refl) ?_
  exact .ite1 (.pair1 .refl) (.ite1 (.pair1 h3) (.pair1 (.of Chip.supWrites_keepsWf h8)))

theorem stopEngineCmd_keepsWf {c : Chip} {a0} : KeepsWf c (stopEngineCmd a0 c).2 := by
  unfold stopEngineCmd
  extract_lets +onlyGivenNames -merge -useContext -underBinder x0 x1 c2
  have h3 : KeepsWf c c2 := regWrite_keepsWf
  clear_value c2
  exact .ite1 (.pair1 .refl) (.ite1 (.of Chip.regReply_keepsWf h3) (.pair1 h3))

end Sys2Proof.Machine
end

