-- ==== Sys2Proof/Laws/KeepCmdNet.lean ====
section
/-!
SUPPORT. What each operation of Machine/CmdNet.lean does to memory: it changes no byte (`SameMem`), or keeps
the canonical form (`KeepsWf`).
-/
namespace Sys2Proof.Machine

theorem Chip.linkFirmware_keepsWf {c : Chip} {a0} : KeepsWf c (Chip.linkFirmware c a0) := by
  unfold Chip.linkFirmware
  split
  · exact .refl
  · split
    · exact Chip.supWrites_keepsWf

theorem Chip.atPort_keepsWf {c : Chip} {p f} (h : ∀ d, KeepsWf c d → KeepsWf c (f d)) : KeepsWf c (Chip.atPort c p f) := by
  unfold Chip.atPort
  exact .ite (.of Chip.linkFirmware_keepsWf (h _ .refl)) (h _ .refl)

theorem Chip.powerUnit_sameMem {c : Chip} {a0} : SameMem c (Chip.powerUnit c a0) := by
  unfold Chip.powerUnit
  extract_lets +onlyGivenNames -merge -useContext -underBinder c0
  have h1 : SameMem c c0 := gateWrite_sameMem
  clear_value c0
  exact .ite (.of Chip.raise_sameMem (.of Chip.setBit_sameMem h1)) h1

theorem adminWrites_keepsWf {c : Chip} {i n ws} : KeepsWf c (adminWrites c i n ws) := by
  induction n generalizing c i ws with
  | zero => exact .refl
  | succ n ih =>
    unfold adminWrites
    exact .of ih (.of tableOpDone_sameMem.keeps Chip.supWrites_keepsWf)

theorem canWords_keepsWf {c : Chip} {a ws} : KeepsWf c (canWords c a ws).2 := by
  induction ws generalizing c a with
  | nil => exact .refl
  | cons w ws ih =>
    unfold canWords
    exact .ite1 regWrite_keepsWf (.of ih regWrite_keepsWf)

theorem canConfig_keepsWf {c : Chip} {a0} : KeepsWf c (canConfig a0 c).2 := by
  unfold canConfig
  extract_lets +onlyGivenNames -merge -useContext -underBinder x0 x1 x2 x3
  refine .ite1 (.ite1 (.pair1 .refl) (.ite1 (.pair1 .refl) canWords_keepsWf)) ?_
  exact .ite1 (.pair1 .refl) (.pair1 Chip.supWrites_keepsWf)

theorem countersRead_keepsWf {c : Chip} {a0} : KeepsWf c (countersRead a0 c).2 := by
  unfold countersRead
  extract_lets +onlyGivenNames -merge -useContext -underBinder x0
  exact .ite1 Chip.regReply_keepsWf (.ite1 (.pair1 .refl) (.of Chip.regReply_keepsWf regWrite_keepsWf))

theorem fdbAccess_keepsWf {c : Chip} {a0} : KeepsWf c (fdbAccess a0 c).2 := by
  unfold fdbAccess
  extract_lets +onlyGivenNames -merge -useContext -underBinder x0 c1
  have h2 : KeepsWf c c1 := Chip.supWrites_keepsWf
  clear_value c1
  exact .ite1 (.pair1 .refl) (.of Chip.regReply_keepsWf (.of tableOpDone_sameMem.keeps h2))

theorem portConfig_keepsWf {c : Chip} {a0} : KeepsWf c (portConfig a0 c).2 := by
  unfold portConfig
  extract_lets +onlyGivenNames -merge -useContext -underBinder x0 x1 x2 c3 x5 x6 x7 c8 c10
  have h4 : KeepsWf c c3 := .of Chip.powerUnit_sameMem.keeps regWrite_keepsWf
  have h9 : KeepsWf c c8 := .of Chip.supWrites_keepsWf h4
  have h11 : KeepsWf c c10 := .of Chip.setHif_sameMem.keeps h9
  clear_value c3 c8 c10
  exact .ite1 (.pair1 .refl) (.ite1 (.pair1 .refl) (.pair1 (.ite (.of Chip.linkFirmware_keepsWf h11) h11)))

theorem portStatus_keepsWf {c : Chip} {a0} : KeepsWf c (portStatus a0 c).2 := by
  unfold portStatus
  extract_lets +onlyGivenNames -merge -useContext -underBinder x0
  exact .ite1 (.pair1 .refl) Chip.regReply_keepsWf

theorem scheduleLoad_keepsWf {c : Chip} {a0} : KeepsWf c (scheduleLoad a0 c).2 := by
  unfold scheduleLoad
  extract_lets +onlyGivenNames -merge -useContext -underBinder x0 x1 x2 x3
  exact .ite1 (.pair1 .refl) (.ite1 (.pair1 .refl) (.ite1 (.pair1 .refl) (.pair1 adminWrites_keepsWf)))

theorem scheduleSwitch_keepsWf {c : Chip} {a0} : KeepsWf c (scheduleSwitch a0 c).2 := by
  unfold scheduleSwitch
  extract_lets +onlyGivenNames -merge -useContext -underBinder x0 x1 c2 c4
  have h3 : KeepsWf c c2 := regWrite_keepsWf
  have h5 : KeepsWf c c4 := .of Chip.supWrites_keepsWf h3
  clear_value c2 c4
  exact .ite1 (.pair1 .refl) (.pair1 h5)

theorem switchConfig_keepsWf {c : Chip} {a0} : KeepsWf c (switchConfig a0 c).2 := by
  unfold switchConfig
  extract_lets +onlyGivenNames -merge -useContext -underBinder x0 x1 x2 x3
  exact .ite1 (.pair1 Chip.supWrites_keepsWf) (.ite1 (.pair1 .refl) (.pair1 Chip.supWrites_keepsWf))

end Sys2Proof.Machine
end

