-- ==== Sys2Proof/Laws/KeepCmdDiag.lean ====
section
/-!
SUPPORT. What each operation of Machine/CmdDiag.lean does to memory: it changes no byte (`SameMem`), or keeps
the canonical form (`KeepsWf`).
-/
namespace Sys2Proof.Machine

theorem Chip.asyncEnd_keepsWf {c d : Chip} {w r e st detail ws}
    (h : c.asyncEnd w r e = some (st, detail, ws, d)) : KeepsWf c d := by
  unfold Chip.asyncEnd at h
  split at h
  · cases h
    exact .refl
  · split at h
    · cases h
    · cases h
      exact .refl
  · split at h
    · cases h
      exact .refl
    · cases h
  · split at h
    · cases h
    · cases h
      exact .refl
  · split at h
    · cases h
    · cases h
      exact .ite (.of Chip.setHif_sameMem.keeps (.of Chip.setImage_sameMem.keeps (.of Chip.setImage_sameMem.keeps
        Chip.setHandle_sameMem.keeps))) .refl
  · split at h
    · cases h
    · split at h
      · cases h
      · split at h
        · cases h
          exact Chip.setLoad_sameMem.keeps
        · cases h
          exact .of Chip.engineLoaded_sameMem.keeps Chip.setLoad_sameMem.keeps
  · split at h
    · cases h
    · split at h
      · cases h
      · split at h
        · cases h
          exact Chip.setLoad_sameMem.keeps
        · cases h
          exact .of engineStart_sameMem.keeps (.of Chip.setPeState_sameMem.keeps Chip.setLoad_sameMem.keeps)
  · split at h
    · cases h
    · cases h
      exact .refl
  · split at h
    · cases h
    · cases h
      exact .refl
  · split at h
    · cases h
    · cases h
      split
      · exact .of regWrite_keepsWf regWrite_keepsWf
      · exact regWrite_keepsWf
  · cases h
    exact regWrite_keepsWf

theorem Chip.asyncFirst_keepsWf {c : Chip} {r e ss} : KeepsWf c (Chip.asyncFirst c r e ss) := by
  induction ss generalizing c with
  | nil => exact .refl
  | cons s ss ih =>
    unfold Chip.asyncFirst
    split
    · rename_i e
      exact .of Chip.finishStarted_sameMem.keeps (Chip.asyncEnd_keepsWf e)
    · exact ih

theorem Chip.loadGoesOn_keepsWf {c : Chip} : KeepsWf c (Chip.loadGoesOn c) := by
  unfold Chip.loadGoesOn
  split
  · exact .ite .refl Chip.secPlace_keepsWf
  · exact .refl

theorem Chip.withMram_sameMem {c d : Chip} {f} (hf : SameMem c f.2) (h : SameMem c d) : SameMem c (Chip.withMram d f).2 := by
  unfold Chip.withMram
  exact .ite1 hf h

theorem Chip.withMram_keepsWf {c d : Chip} {f} (hf : KeepsWf c f.2) (h : KeepsWf c d) : KeepsWf c (Chip.withMram d f).2 := by
  unfold Chip.withMram
  exact .ite1 hf h

theorem asyncComplete_keepsWf {c : Chip} {a0 a1} : KeepsWf c (asyncComplete c a0 a1) := by
  unfold asyncComplete
  extract_lets +onlyGivenNames -merge -useContext -underBinder c0
  have h1 : KeepsWf c c0 := Chip.loadGoesOn_keepsWf
  clear_value c0
  exact .ite (.of Chip.asyncFirst_keepsWf h1) .refl

theorem freezeInfo_keepsWf {c : Chip} {a0} : KeepsWf c (freezeInfo a0 c).2 := by
  unfold freezeInfo
  exact Chip.regReply_keepsWf

theorem freezeResolveCmd_keepsWf {c : Chip} {a0} : KeepsWf c (freezeResolveCmd a0 c).2 := by
  unfold freezeResolveCmd
  extract_lets +onlyGivenNames -merge -useContext -underBinder x0 x1 x2 x3 x4 c5
  have h6 : KeepsWf c c5 := .ite Chip.supWrites_keepsWf .refl
  clear_value c5
  exact .of Chip.regReply_keepsWf (.of regWrite_keepsWf h6)

theorem loopback_keepsWf {c : Chip} {a0} : KeepsWf c (loopback a0 c).2 := by
  unfold loopback
  extract_lets +onlyGivenNames -merge -useContext -underBinder x0 x1 x2 x3
  exact .ite1 (.pair1 .refl) (.ite1 (.pair1 .refl) (.pair1 regWrite_keepsWf))

theorem marchRun_keepsWf {c : Chip} {a0} : KeepsWf c (marchRun a0 c).2 := by
  unfold marchRun
  extract_lets +onlyGivenNames -merge -useContext -underBinder x0 c1
  have h2 : KeepsWf c c1 := Chip.supWrites_keepsWf
  clear_value c1
  exact .ite1 (.pair1 .refl) (.ite1 (.pair1 .refl) (.pair1 h2))

theorem prbsRunCmd_keepsWf {c : Chip} {a0} : KeepsWf c (prbsRunCmd a0 c).2 := by
  unfold prbsRunCmd
  extract_lets +onlyGivenNames -merge -useContext -underBinder x0 x1 x2 x3 x4 c5
  have h6 : KeepsWf c c5 := .ite Chip.powerUnit_sameMem.keeps .refl
  clear_value c5
  refine .ite1 (.pair1 .refl) ?_
  refine .ite1 (.pair1 .refl) ?_
  refine .ite1 (.pair1 .refl) ?_
  exact .ite1 (.pair1 .refl) (.ite1 (.pair1 regWrite_keepsWf) (.pair1 (.of regWrite_keepsWf h6)))

theorem recordClear_keepsWf {c : Chip} {a0} : KeepsWf c (recordClear a0 c).2 := by
  unfold recordClear
  exact Chip.withMram_keepsWf (.ite1 (.pair1 .refl) (.pair1 regWrite_keepsWf)) .refl

theorem recordRead_sameMem {c : Chip} {a0} : SameMem c (recordRead a0 c).2 := by
  unfold recordRead
  extract_lets +onlyGivenNames -merge -useContext -underBinder x0 x1 x2
  exact Chip.withMram_sameMem (.ite1 (.pair1 .refl) (.pair1 .refl)) .refl

theorem recordWrite_keepsWf {c : Chip} {a0 a1} : KeepsWf c (recordWrite a0 a1 c).2 := by
  unfold recordWrite
  extract_lets +onlyGivenNames -merge -useContext -underBinder x0 c1
  have h2 : KeepsWf c c1 := Chip.supWrites_keepsWf
  clear_value c1
  refine Chip.withMram_keepsWf ?_ .refl
  refine .ite1 (.pair1 .refl) ?_
  exact .ite1 (.pair1 .refl) (.of Chip.regReply_keepsWf (.of recordStoreDone_keepsWf h2))

theorem recorderStatus_keepsWf {c : Chip} {a0} : KeepsWf c (recorderStatus a0 c).2 := by
  unfold recorderStatus
  split
  · rename_i y0 y1 e2
    have h3 : KeepsWf c y1 := by
      refine .ofEq1 e2 ?_
      exact Chip.supReads_keepsWf
    split
    · rename_i y4 y5 e6
      have h7 : KeepsWf c y5 := by
        refine .ofEq1 e6 ?_
        exact .of Chip.supReads_keepsWf h3
      exact Chip.withMram_keepsWf (.pair1 h7) .refl

end Sys2Proof.Machine
end

