-- ==== Sys2Proof/Laws/KeepCmdMot.lean ====
section
/-!
SUPPORT. What each operation of Machine/CmdMot.lean does to memory: it changes no byte (`SameMem`), or keeps
the canonical form (`KeepsWf`).
-/
namespace Sys2Proof.Machine

theorem Chip.axisCmd_keepsWf {c : Chip} {a0 a1} : KeepsWf c (Chip.axisCmd c a0 a1).2 := by
  unfold Chip.axisCmd
  extract_lets +onlyGivenNames -merge -useContext -underBinder c0
  have h1 : KeepsWf c c0 := regWrite_keepsWf
  clear_value c0
  exact .ite1 (.pair1 h1) (.of Chip.regReply_keepsWf h1)

theorem Chip.axisPhase_keepsWf {c : Chip} {a0 a1 a2} : KeepsWf c (Chip.axisPhase c a0 a1 a2).2 := by
  unfold Chip.axisPhase
  extract_lets +onlyGivenNames -merge -useContext -underBinder x0 c1
  have h2 : KeepsWf c c1 := .of Chip.supWrites_keepsWf Chip.setBit_sameMem.keeps
  clear_value c1
  exact .ite1 (.pair1 h2) (.of Chip.regReply_keepsWf (.of Chip.setBit_sameMem.keeps h2))

theorem axisConfig_keepsWf {c : Chip} {a0} : KeepsWf c (axisConfig a0 c).2 := by
  unfold axisConfig
  extract_lets +onlyGivenNames -merge -useContext -underBinder x0
  exact .ite1 (.pair1 .refl) (.ite1 (.pair1 .refl) (.pair1 Chip.supWrites_keepsWf))

theorem axisGear_keepsWf {c : Chip} {a0} : KeepsWf c (axisGear a0 c).2 := by
  unfold axisGear
  extract_lets +onlyGivenNames -merge -useContext -underBinder x0 x1 x2
  refine .ite1 (.pair1 .refl) ?_
  refine .ite1 (.pair1 .refl) ?_
  refine .ite1 Chip.axisCmd_keepsWf ?_
  exact .ite1 Chip.axisPhase_keepsWf (.of Chip.axisCmd_keepsWf Chip.supWrites_keepsWf)

theorem axisMove_keepsWf {c : Chip} {a0} : KeepsWf c (axisMove a0 c).2 := by
  unfold axisMove
  extract_lets +onlyGivenNames -merge -useContext -underBinder x0 x1 x2 x3 x4 c5 c7 c9
  have h6 : KeepsWf c c5 := Chip.supWrites_keepsWf
  have h8 : KeepsWf c c7 := .ite (.of regWrite_keepsWf h6) h6
  have h10 : KeepsWf c c9.2 := .of Chip.axisCmd_keepsWf h8
  clear_value c5 c7 c9
  refine .ite1 (.pair1 .refl) ?_
  clear_value x3
  split
  · exact .pair1 h10
  · exact h10

theorem axisStatus_keepsWf {c : Chip} {a0} : KeepsWf c (axisStatus a0 c).2 := by
  unfold axisStatus
  extract_lets +onlyGivenNames -merge -useContext -underBinder x0
  exact .ite1 (.pair1 .refl) Chip.regReply_keepsWf

theorem stopAxes_keepsWf {c : Chip} {mask ns} : KeepsWf c (stopAxes c mask ns).2 := by
  induction ns generalizing c with
  | nil => exact .refl
  | cons n ns ih =>
    unfold stopAxes
    exact .ite1 (.of ih Chip.axisCmd_keepsWf) ih

theorem axisStopCmd_keepsWf {c : Chip} {a0} : KeepsWf c (axisStopCmd a0 c).2 := by
  unfold axisStopCmd
  split
  · rename_i y0 y1 e2
    have h3 : KeepsWf c y1 := by
      refine .ofEq1 e2 ?_
      exact stopAxes_keepsWf
    exact .pair1 h3

end Sys2Proof.Machine
end

