-- ==== Sys2Proof/Laws/KeepCmdSys.lean ====
section
/-!
SUPPORT. What each operation of Machine/CmdSys.lean does to memory: it changes no byte (`SameMem`), or keeps
the canonical form (`KeepsWf`).
-/
namespace Sys2Proof.Machine

theorem Chip.firstConfigured_sameMem {c : Chip} {a0} : SameMem c (Chip.firstConfigured c a0) := by
  unfold Chip.firstConfigured
  split
  · exact .refl
  · extract_lets +onlyGivenNames -merge -useContext -underBinder c0 x2
    have h1 : SameMem c c0 := Chip.rollbackAdvance_sameMem
    clear_value c0
    exact .mk2 h1 rfl

theorem Chip.randomBytes_sameMem {c : Chip} {n} : SameMem c (Chip.randomBytes c n).2 := by
  induction n generalizing c with
  | zero => exact .refl
  | succ n ih => exact .of ih Chip.takeFree_sameMem

theorem Chip.report_sameMem {c : Chip} {a0 a1 a2} : SameMem c (Chip.report c a0 a1 a2).2 := by
  unfold Chip.report
  extract_lets +onlyGivenNames -merge -useContext -underBinder x0 x1
  split
  · rename_i y2 y3 e4
    have h5 : SameMem c y3 := by
      refine .ofEq1 e4 ?_
      exact .ite1 Chip.deviceSign_sameMem (.pair1 .refl)
    split
    · rename_i y6 y7 e8
      have h9 : SameMem c y7 := by
        refine .ofEq1 e8 ?_
        exact .ite1 (.of Chip.deviceSign_sameMem h5) (.pair1 h5)
      exact .pair1 h9

theorem Chip.resetWindow_sameMem {c : Chip} {a0 a1} : SameMem c (Chip.resetWindow c a0 a1) := by
  unfold Chip.resetWindow
  extract_lets +onlyGivenNames -merge -useContext -underBinder x0
  exact .mk2 .refl rfl

theorem attest_sameMem {c : Chip} {a0} : SameMem c (attest a0 c).2 := by
  unfold attest
  extract_lets +onlyGivenNames -merge -useContext -underBinder x0
  split
  · exact .pair1 .refl
  · extract_lets +onlyGivenNames -merge -useContext -underBinder x1 x2
    refine .ite1 (.ite1 (.pair1 .refl) (.ite1 (.pair1 .refl) (.pair1 .refl))) ?_
    refine .ite1 (.pair1 .refl) ?_
    split
    · rename_i y3 y4 e5
      have h6 : SameMem c y4 := by
        refine .ofEq1 e5 ?_
        exact Chip.report_sameMem
      exact .pair1 (.of Chip.setSession_sameMem h6)

theorem closeSession_sameMem {c : Chip} {a0} : SameMem c (closeSession a0 c).2 := by
  unfold closeSession
  exact .ite1 (.pair1 .refl) (.pair1 Chip.setSession_sameMem)

theorem echoCmd_sameMem {c : Chip} {a0} : SameMem c (echoCmd a0 c).2 := by
  unfold echoCmd
  exact .pair1 .refl

theorem getIdentity_sameMem {c : Chip} {a0} : SameMem c (getIdentity a0 c).2 := by
  unfold getIdentity
  extract_lets +onlyGivenNames -merge -useContext -underBinder x0 x1
  exact .pair1 .refl

theorem getState_keepsWf {c : Chip} {a0} : KeepsWf c (getState a0 c).2 := by
  unfold getState
  exact Chip.regReply_keepsWf

theorem installKeyCmd_sameMem {c : Chip} {a0} : SameMem c (installKeyCmd a0 c).2 := by
  unfold installKeyCmd
  extract_lets +onlyGivenNames -merge -useContext -underBinder x0
  refine .ite1 (.pair1 .refl) ?_
  refine .ite1 (.pair1 .refl) ?_
  split
  · rename_i y1 e2
    have h3 : SameMem c y1 := by
      refine .ofEq1 e2 ?_
      exact Chip.installKey_sameMem
    exact .pair1 h3
  · rename_i y4 e5
    have h6 : SameMem c y4 := by
      refine .ofEq1 e5 ?_
      exact Chip.installKey_sameMem
    exact .pair1 h6

theorem openSession_sameMem {c : Chip} {a0} : SameMem c (openSession a0 c).2 := by
  unfold openSession
  extract_lets +onlyGivenNames -merge -useContext -underBinder x0 x1 x2 x3 x4
  refine .ite1 (.pair1 .refl) ?_
  refine .ite1 (.pair1 .refl) ?_
  refine .ite1 (.pair1 .refl) ?_
  clear_value x4
  split
  · exact .pair1 .refl
  · exact .pair1 .refl
  · extract_lets +onlyGivenNames -merge -useContext -underBinder x5
    split
    · rename_i y6 y7 e8
      have h9 : SameMem c y7 := by
        refine .ofEq1 e8 ?_
        exact Chip.randomBytes_sameMem
      extract_lets +onlyGivenNames -merge -useContext -underBinder x10 x11 x12
      exact .pair1 (.of Chip.setSession_sameMem h9)

theorem proveSession_sameMem {c : Chip} {a0} : SameMem c (proveSession a0 c).2 := by
  unfold proveSession
  split
  · rename_i y0 y1 e2
    have h3 : SameMem c y1 := by
      refine .ofEq1 e2 ?_
      exact Chip.prove_sameMem
    exact .pair1 h3
  · rename_i y4 e5
    have h6 : SameMem c y4 := by
      refine .ofEq1 e5 ?_
      exact Chip.prove_sameMem
    exact .pair1 h6

theorem readRegs_keepsWf {c : Chip} {a n i ws} : KeepsWf c (readRegs c a n i ws).2 := by
  induction n generalizing c a i ws with
  | zero => exact .refl
  | succ n ih =>
    unfold readRegs
    extract_lets c1
    have h : KeepsWf c c1 := registerRead_keepsWf
    clear_value c1
    split
    · exact .of ih h
    · exact h

theorem readReg_keepsWf {c : Chip} {a0} : KeepsWf c (readReg a0 c).2 := by
  unfold readReg
  extract_lets +onlyGivenNames -merge -useContext -underBinder x0 x1
  exact .ite1 (.pair1 .refl) (.ite1 (.pair1 .refl) readRegs_keepsWf)

theorem resetEngine_keepsWf {c : Chip} {a0} : KeepsWf c (resetEngine c a0).2 := by
  unfold resetEngine
  extract_lets +onlyGivenNames -merge -useContext -underBinder x0
  split
  · exact .pair1 .refl
  · extract_lets +onlyGivenNames -merge -useContext -underBinder c1 c3
    have h2 : KeepsWf c c1 := .ite engineStop_sameMem.keeps .refl
    have h4 : KeepsWf c c3 := .of engineClearDone_keepsWf (.of engineClear_sameMem.keeps h2)
    clear_value c1 c3
    refine .ite1 (.pair1 .refl) ?_
    refine .ite1 (.pair1 .refl) ?_
    split
    · rename_i y5 e6
      have h7 : KeepsWf c y5 := by
        refine .ofEq1 e6 ?_
        exact .of Chip.fwRead_sameMem.keeps h4
      exact .of Chip.memFault_sameMem.keeps h7
    · rename_i y8 y9 e10
      have h11 : KeepsWf c y9 := by
        refine .ofEq1 e10 ?_
        exact .of Chip.fwRead_sameMem.keeps h4
      split
      · exact .pair1 (.of Chip.imgFailed_sameMem.keeps h11)
      · exact .pair1 (.of Chip.secPlace_keepsWf h11)

theorem resetUnit_keepsWf {c : Chip} {a0 a1} : KeepsWf c (resetUnit c a0 a1).2 := by
  unfold resetUnit
  extract_lets +onlyGivenNames -merge -useContext -underBinder x0
  have h1 : ∀ z2, KeepsWf c z2 → KeepsWf c (x0 z2).2 := by
    intro z2 h3
    unfold x0
    exact .pair1 h3
  split
  · extract_lets +onlyGivenNames -merge -useContext -underBinder c4 c6
    have h5 : KeepsWf c c4 := .of Chip.resetWindow_sameMem.keeps Chip.tskLeaveRun_keepsWf
    have h7 : KeepsWf c c6 := .mk2 h5 rfl
    clear_value c4 c6
    refine .ite1 (.pair1 .refl) ?_
    exact h1 _ (.of Chip.setHif_sameMem.keeps (.of Chip.setImage_sameMem.keeps (.of Chip.setImage_sameMem.keeps h7)))
  · extract_lets +onlyGivenNames -merge -useContext -underBinder c8 x10
    have h9 : KeepsWf c c8 := Chip.resetWindow_sameMem.keeps
    clear_value c8
    exact .ite1 (.pair1 .refl) (h1 _ (.mk2 h9 rfl))
  · extract_lets +onlyGivenNames -merge -useContext -underBinder c11 x13
    have h12 : KeepsWf c c11 := .of Chip.resetWindow_sameMem.keeps linkLost_sameMem.keeps
    clear_value c11
    exact .ite1 (.pair1 .refl) (h1 _ (.mk2 h12 rfl))
  · extract_lets +onlyGivenNames -merge -useContext -underBinder c14 c16
    have h15 : KeepsWf c c14 := .of Chip.resetWindow_sameMem.keeps canCtlWrite_sameMem.keeps
    have h17 : KeepsWf c c16 := .of Chip.resetWindow_sameMem.keeps h15
    clear_value c14 c16
    exact .ite1 (.pair1 .refl) (h1 _ (.mk2 h17 rfl))
  · extract_lets +onlyGivenNames -merge -useContext -underBinder c18 x20
    have h19 : KeepsWf c c18 := Chip.resetWindow_sameMem.keeps
    clear_value c18
    exact .ite1 (.pair1 .refl) (h1 _ (.mk2 h19 rfl))
  · exact .ite1 (.pair1 .refl) (h1 _ Chip.resetCluster_sameMem.keeps)
  · refine .ite1 (.pair1 .refl) ?_
    exact .ite1 (.pair1 .refl) (h1 _ (.of Chip.setXd_sameMem.keeps Chip.resetWindow_sameMem.keeps))
  · exact .ite1 (.pair1 .refl) (h1 _ mailboxReset_sameMem.keeps)
  · exact .pair1 .refl

theorem resetSubsystem_keepsWf {c : Chip} {a0} : KeepsWf c (resetSubsystem a0 c).2 := by
  unfold resetSubsystem
  extract_lets +onlyGivenNames -merge -useContext -underBinder x0 x1
  exact .ite1 (.ite1 (.pair1 .refl) resetEngine_keepsWf) resetUnit_keepsWf

theorem setPasswordCmd_sameMem {c : Chip} {a0} : SameMem c (setPasswordCmd a0 c).2 := by
  unfold setPasswordCmd
  extract_lets +onlyGivenNames -merge -useContext -underBinder x0 x1
  refine .ite1 (.pair1 .refl) ?_
  split
  · rename_i y2 e3
    have h4 : SameMem c y2 := by
      refine .ofEq1 e3 ?_
      exact Chip.setPassword_sameMem
    exact .pair1 h4
  · rename_i y5 e6
    have h7 : SameMem c y5 := by
      refine .ofEq1 e6 ?_
      exact Chip.setPassword_sameMem
    exact .pair1 h7

theorem setStateCmd_keepsWf {c : Chip} {a0 a1} : KeepsWf c (setStateCmd a0 a1 c).2 := by
  unfold setStateCmd
  extract_lets +onlyGivenNames -merge -useContext -underBinder x0 x1 c2 c4
  have h3 : KeepsWf c c2 := sysStateWrite_keepsWf
  have h5 : KeepsWf c c4 := .ite (.of Chip.firstConfigured_sameMem.keeps h3) h3
  clear_value c2 c4
  exact .ite1 (.pair1 goReset_keepsWf) (.ite1 (.pair1 .refl) (.ite1 (.pair1 h3) (.pair1 h5)))

theorem writeRegs_keepsWf {c : Chip} {n i ws} : KeepsWf c (writeRegs c n i ws).2 := by
  induction n generalizing c i ws with
  | zero => exact .refl
  | succ n ih =>
    unfold writeRegs
    exact .ite1 .refl (.ite1 registerWrite_keepsWf (.of ih registerWrite_keepsWf))

theorem writeReg_keepsWf {c : Chip} {a0} : KeepsWf c (writeReg a0 c).2 := by
  unfold writeReg
  extract_lets +onlyGivenNames -merge -useContext -underBinder x0
  exact .ite1 (.pair1 .refl) writeRegs_keepsWf

end Sys2Proof.Machine
end

