-- ==== Sys2Proof/Laws/KeepCmdTime.lean ====
section
/-!
SUPPORT. What each operation of Machine/CmdTime.lean does to memory: it changes no byte (`SameMem`), or keeps
the canonical form (`KeepsWf`).
-/
namespace Sys2Proof.Machine

theorem angleEventClear_keepsWf {c : Chip} {a0} : KeepsWf c (angleEventClear a0 c).2 := by
  unfold angleEventClear
  extract_lets +onlyGivenNames -merge -useContext -underBinder x0 x1
  exact .ite1 (.pair1 .refl) (.ite1 (.pair1 .refl) (.pair1 Chip.supWrites_keepsWf))

theorem angleEventSet_keepsWf {c : Chip} {a0} : KeepsWf c (angleEventSet a0 c).2 := by
  unfold angleEventSet
  extract_lets +onlyGivenNames -merge -useContext -underBinder x0 x1
  exact .ite1 (.pair1 .refl) (.of Chip.regReply_keepsWf Chip.supWrites_keepsWf)

theorem domainConfig_keepsWf {c : Chip} {a0} : KeepsWf c (domainConfig a0 c).2 := by
  unfold domainConfig
  extract_lets +onlyGivenNames -merge -useContext -underBinder x0 x1 x2
  exact .ite1 (.pair1 .refl) (.pair1 Chip.supWrites_keepsWf)

theorem domainStatus_keepsWf {c : Chip} {a0} : KeepsWf c (domainStatus a0 c).2 := by
  unfold domainStatus
  exact Chip.regReply_keepsWf

theorem selectDomain_keepsWf {c : Chip} {a0} : KeepsWf c (selectDomain a0 c).2 := by
  unfold selectDomain
  extract_lets +onlyGivenNames -merge -useContext -underBinder x0 c1
  have h2 : KeepsWf c c1 := regWrite_keepsWf
  clear_value c1
  exact .ite1 (.pair1 .refl) (.ite1 (.of Chip.regReply_keepsWf h2) (.pair1 h2))

theorem shaftConfig_keepsWf {c : Chip} {a0} : KeepsWf c (shaftConfig a0 c).2 := by
  unfold shaftConfig
  extract_lets +onlyGivenNames -merge -useContext -underBinder x0 x1 c2 x4
  have h3 : KeepsWf c c2 := Chip.supWrites_keepsWf
  clear_value c2
  refine .ite1 (.pair1 Chip.supWrites_keepsWf) ?_
  exact .ite1 (.pair1 .refl) (.of Chip.regReply_keepsWf (.ite h3 (.of regWrite_keepsWf h3)))

theorem shaftMasterProfile_keepsWf {c : Chip} {a0} : KeepsWf c (shaftMasterProfile a0 c).2 := by
  unfold shaftMasterProfile
  extract_lets +onlyGivenNames -merge -useContext -underBinder x0 x1 x2
  exact .ite1 (.pair1 .refl) (.ite1 (.pair1 .refl) (.pair1 Chip.supWrites_keepsWf))

theorem shaftStatus_keepsWf {c : Chip} {a0} : KeepsWf c (shaftStatus a0 c).2 := by
  unfold shaftStatus
  extract_lets +onlyGivenNames -merge -useContext -underBinder x0
  exact .ite1 (.pair1 .refl) Chip.regReply_keepsWf

theorem stampConfig_keepsWf {c : Chip} {a0} : KeepsWf c (stampConfig a0 c).2 := by
  unfold stampConfig
  extract_lets +onlyGivenNames -merge -useContext -underBinder x0 x1
  split
  · exact .ite1 (.pair1 .refl) (.pair1 Chip.supWrites_keepsWf)
  · exact .ite1 (.pair1 .refl) (.pair1 regWrite_keepsWf)
  · exact .ite1 (.pair1 .refl) (.ite1 (.pair1 .refl) (.pair1 Chip.supWrites_keepsWf))
  · exact .pair1 .refl

end Sys2Proof.Machine
end

