-- ==== Sys2Proof/Laws/KeepCmdTsk.lean ====
section
/-!
SUPPORT. What each operation of Machine/CmdTsk.lean does to memory: it changes no byte (`SameMem`), or keeps
the canonical form (`KeepsWf`).
-/
namespace Sys2Proof.Machine

theorem Chip.activateProgram_keepsWf {c : Chip} {a0 a1 a2} : KeepsWf c (Chip.activateProgram c a0 a1 a2) := by
  unfold Chip.activateProgram
  extract_lets +onlyGivenNames -merge -useContext -underBinder c0 c2
  have h1 : KeepsWf c c0 := Chip.supWrites_keepsWf
  have h3 : KeepsWf c c2 := by
    refine .foldl ?_ ?_
    · intro c4 x5 h6
      extract_lets +onlyGivenNames -merge -useContext -underBinder x7
      exact .of Chip.supWrites_keepsWf (.of regWrite_keepsWf h6)
    · exact h1
  clear_value c0 c2
  exact .of Chip.setHif_sameMem.keeps (.of Chip.setImage_sameMem.keeps (.of Chip.setHandle_sameMem.keeps h3))

theorem Chip.fwWrites_keepsWf {c : Chip} {ws} : KeepsWf c (Chip.fwWrites c ws).2 := by
  induction ws generalizing c with
  | nil => exact .refl
  | cons w ws ih =>
    unfold Chip.fwWrites
    split
    · rename_i e
      exact (KeepsWf.ofEq1 e Chip.fwWrite_keepsWf).trans ih
    · exact Chip.fwWrite_keepsWf

theorem Chip.placeProgram_keepsWf {c : Chip} {a0 a1} : KeepsWf c (Chip.placeProgram c a0 a1).2 := by
  unfold Chip.placeProgram
  extract_lets +onlyGivenNames -merge -useContext -underBinder x0
  have h1 : ∀ z2 z3, KeepsWf c z3 → KeepsWf c (x0 z2 z3) := by
    intro z2 z3 h4
    unfold x0
    refine .foldl ?_ ?_
    · intro c5 x6 h7
      exact .of Chip.setFld_sameMem.keeps h7
    · exact h4
  split
  · rename_i y8 y9 e10
    have h11 : KeepsWf c y9 := by
      refine .ofEq1 e10 ?_
      exact .of Chip.fwWrites_keepsWf (h1 _ _ .refl)
    exact .pair1 (h1 _ _ h11)

theorem forceClearCmd_keepsWf {c : Chip} {a0} : KeepsWf c (forceClearCmd a0 c).2 := by
  unfold forceClearCmd
  extract_lets +onlyGivenNames -merge -useContext -underBinder x0 x1 c2
  have h3 : KeepsWf c c2 := Chip.supWrites_keepsWf
  clear_value c2
  exact .ite1 (.pair1 .refl) (.pair1 h3)

theorem forceSetCmd_keepsWf {c : Chip} {a0} : KeepsWf c (forceSetCmd a0 c).2 := by
  unfold forceSetCmd
  extract_lets +onlyGivenNames -merge -useContext -underBinder x0 x1
  refine .ite1 (.pair1 .refl) ?_
  split
  · exact .pair1 .refl
  · extract_lets +onlyGivenNames -merge -useContext -underBinder c2
    have h3 : KeepsWf c c2 := Chip.supWrites_keepsWf
    clear_value c2
    exact .ite1 (.pair1 h3) (.pair1 h3)

theorem programLoad_keepsWf {c : Chip} {a0} : KeepsWf c (programLoad a0 c).2 := by
  unfold programLoad
  extract_lets +onlyGivenNames -merge -useContext -underBinder x0 x1 x2
  split
  · exact .pair1 .refl
  · extract_lets +onlyGivenNames -merge -useContext -underBinder x3
    refine .ite1 (.pair1 .refl) ?_
    refine .ite1 (.pair1 .refl) ?_
    split
    · rename_i y4 e5
      have h6 : KeepsWf c y4 := by
        refine .ofEq1 e5 ?_
        exact Chip.fwRead_sameMem.keeps
      exact .of Chip.memFault_sameMem.keeps h6
    · rename_i y7 y8 e9
      have h10 : KeepsWf c y8 := by
        refine .ofEq1 e9 ?_
        exact Chip.fwRead_sameMem.keeps
      split
      · extract_lets +onlyGivenNames -merge -useContext -underBinder x11 x12
        refine .ite1 (.pair1 h10) ?_
        split
        · rename_i y13 e14
          have h15 : KeepsWf c y13 := by
            refine .ofEq1 e14 ?_
            exact .of Chip.placeProgram_keepsWf h10
          exact .of Chip.memFault_sameMem.keeps h15
        · rename_i y16 e17
          have h18 : KeepsWf c y16 := by
            refine .ofEq1 e17 ?_
            exact .of Chip.placeProgram_keepsWf h10
          extract_lets +onlyGivenNames -merge -useContext -underBinder x19 c20
          have h21 : KeepsWf c c20 := by
            refine .ite (.of Chip.activateProgram_keepsWf h18) ?_
            exact .of Chip.setHif_sameMem.keeps (.of Chip.setImage_sameMem.keeps h18)
          clear_value c20
          exact .pair1 h21

theorem programMode_keepsWf {c : Chip} {a0} : KeepsWf c (programMode a0 c).2 := by
  unfold programMode
  extract_lets +onlyGivenNames -merge -useContext -underBinder x0 x1 c2
  have h3 : KeepsWf c c2 := regWrite_keepsWf
  clear_value c2
  exact .ite1 (.pair1 .refl) (.ite1 (.pair1 h3) (.of Chip.regReply_keepsWf h3))

theorem programStatus_keepsWf {c : Chip} {a0} : KeepsWf c (programStatus a0 c).2 := by
  unfold programStatus
  split
  · rename_i y0 y1 e2
    have h3 : KeepsWf c y1 := by
      refine .ofEq1 e2 ?_
      exact Chip.supReads_keepsWf
    split
    · rename_i y4 y5 e6
      have h7 : KeepsWf c y5 := by
        refine .ofEq1 e6 ?_
        exact .of Chip.supReads_keepsWf h3
      exact .pair1 h7

theorem programSwap_keepsWf {c : Chip} {a0} : KeepsWf c (programSwap a0 c).2 := by
  unfold programSwap
  extract_lets +onlyGivenNames -merge -useContext -underBinder x0
  split
  · exact .pair1 .refl
  · extract_lets +onlyGivenNames -merge -useContext -underBinder c1
    have h2 : KeepsWf c c1 := Chip.supWrites_keepsWf
    clear_value c1
    exact .ite1 (.pair1 .refl) (.ite1 (.pair1 .refl) (.ite1 (.pair1 h2) (.pair1 h2)))

theorem valueChange_keepsWf {c : Chip} {a0} : KeepsWf c (valueChange a0 c).2 := by
  unfold valueChange
  extract_lets +onlyGivenNames -merge -useContext -underBinder x0 x1 x2 x3 x4 c5
  have h6 : KeepsWf c c5 := Chip.supWrites_keepsWf
  clear_value c5
  exact .ite1 (.pair1 .refl) (.ite1 (.pair1 .refl) (.ite1 (.pair1 h6) (.pair1 h6)))

end Sys2Proof.Machine
end

