-- ==== Sys2Proof/Laws/KeepDwevel.lean ====
section
/-!
SUPPORT. What each operation of Machine/Dwevel.lean does to memory: it changes no byte (`SameMem`), or keeps
the canonical form (`KeepsWf`).
-/
namespace Sys2Proof.Machine

theorem Syll.runF_sameMem {c : Chip} {a0 a1 a2 a3} : SameMem c (Syll.runF a0 c a1 a2 a3).2 := by
  unfold Syll.runF
  extract_lets +onlyGivenNames -merge -useContext -underBinder x0 x1 x2 x3 x4 x5 x9
  have h6 : ∀ z7, SameMem c (x5 z7) := by
    intro z7
    unfold x5
    exact Chip.setCtx_sameMem
  have h10 : ∀ z11 z12, SameMem c z12 → SameMem c (x9 z11 z12) := by
    intro z11 z12 h13
    unfold x9
    extract_lets +onlyGivenNames -merge -useContext -underBinder x14
    exact .ite (.of Chip.setCtx_sameMem h13) h13
  split
  · exact .pair1 (h6 _)
  · exact .pair1 (h6 _)
  · split
    · exact .pair1 (h6 _)
  · split
    · exact .pair1 (h6 _)
  · exact .pair1 .refl
  · exact .pair1 (h6 _)
  · split
    · rename_i y15 y16 y17 e18
      have h19 : SameMem c y17 := by
        refine .ofEq2 e18 ?_
        exact Chip.qpop_sameMem
      exact .pair1 (h10 _ _ h19)
  · split
    · rename_i y20 y21 y22 e23
      have h24 : SameMem c y22 := by
        refine .ofEq2 e23 ?_
        exact Chip.qrel_sameMem
      exact .pair1 (h10 _ _ h24)
  · split
    · rename_i y25 y26 y27 e28
      have h29 : SameMem c y27 := by
        refine .ofEq2 e28 ?_
        exact Chip.qpush_sameMem
      exact .pair1 (h10 _ _ h29)
  · split
    · exact .pair1 (h10 _ _ .refl)
  · exact .pair1 .refl
  · extract_lets +onlyGivenNames -merge -useContext -underBinder x30
    exact .pair1 (h6 _)
  · exact .pair1 .refl
  · exact .pair1 (.of Chip.peCause_sameMem Chip.setReg_sameMem)
  · exact .pair1 Chip.peKick_sameMem
  · exact .pair1 (h6 _)
  · exact .ite1 (.pair1 .refl) (.pair1 .refl)

theorem Chip.commitBundle_keepsWf {c : Chip} {a0 a1 a2 a3 a4 a5} : KeepsWf c (Chip.commitBundle c a0 a1 a2 a3 a4 a5) := by
  unfold Chip.commitBundle
  extract_lets +onlyGivenNames -merge -useContext -underBinder x0
  refine .ite .refl ?_
  split
  · rename_i y1 y2 e3
    have h4 : KeepsWf c y2 := by
      refine .ofEq1 e3 ?_
      refine .foldl1 ?_ ?_
      · intro c5 x6 h7
        exact .ite1 (.of Syll.runF_sameMem.keeps h7) h7
      · exact .pair1 .refl
    extract_lets +onlyGivenNames -merge -useContext -underBinder c8 x10 c11 x13
    have h9 : KeepsWf c c8 := .of Chip.setCtx_sameMem.keeps h4
    have h12 : KeepsWf c c11 := .ite (.of Chip.taskEnd_keepsWf h9) h9
    clear_value c8 c11
    split
    · exact .of Chip.trap_keepsWf h12
    · exact h12

/-- The device's state that a fetch answers. -/
def chipOfFetch : FetchOut → Chip
  | .ok _ c => c
  | .fault _ c => c
  | .segv _ c => c
  | .waits c => c

theorem Chip.fetch_sameMem {c : Chip} {core a n ws} : SameMem c (chipOfFetch (Chip.fetch c core a n ws)) := by
  induction n generalizing c a ws with
  | zero => exact .refl
  | succ n ih =>
    have h := Chip.memRead_sameMem (c := c) (a0 := core) (a1 := a) (a2 := 4)
    unfold Chip.fetch
    split
    · exact .refl
    · split <;> rename_i e <;> rw [e] at h
      · extract_lets w
        split
        · exact h
        · exact h.trans ih
      · exact h
      · exact h.trans (.mk1 .refl)
      · exact h

/-- What the memory access of a bundle leaves keeps the canonical form. -/
def accKeeps (c : Chip) : AccOut → Prop
  | .ok _ d => KeepsWf c d
  | .fault _ d => KeepsWf c d
  | .waits d => KeepsWf c d
  | .segv _ _ _ _ _ => True

theorem Syll.load_keepsWf {s : Syll} {c : Chip} {core k} : accKeeps c (Syll.load s c core k) := by
  unfold Syll.load
  split <;> rename_i e <;> exact KeepsWf.ofEq1 e busRead_keepsWf

theorem Syll.access_keepsWf {s : Syll} {c : Chip} {core k} : accKeeps c (Syll.access s c core k) := by
  unfold Syll.access
  extract_lets o size need a info
  split
  · trivial
  · split
    · exact Syll.load_keepsWf
    · split
      · split <;> rename_i e <;> exact KeepsWf.ofEq1 e busWrite_keepsWf
      · split
        · split <;> rename_i e <;> exact KeepsWf.ofEq1 e Chip.atomicAt_keepsWf
        · exact KeepsWf.refl

theorem Chip.finish_keepsWf {b c d : Chip} {core x k ws wr wt} (h : KeepsWf b c) (g : KeepsWf b d) :
    KeepsWf b (c.finish d core x k ws wr wt) := by
  unfold Chip.finish
  split
  · exact .of Chip.doubleTrap_keepsWf h
  · exact .of Chip.commitBundle_keepsWf g

theorem Chip.accessed_keepsWf {c : Chip} {core x k ws o} (h : accKeeps c o) :
    KeepsWf c (Chip.accessed c core x k ws o).2 := by
  unfold Chip.accessed
  split
  · exact Chip.finish_keepsWf .refl h
  · exact .of Chip.trap_keepsWf h
  · exact Chip.coreFreezes_sameMem.keeps
  · exact .of Chip.setCtx_sameMem.keeps h

theorem Chip.runBundle_keepsWf {c : Chip} {core x k ws} : KeepsWf c (Chip.runBundle c core x k ws).2 := by
  unfold Chip.runBundle
  extract_lets ss
  split
  · exact Chip.trap_keepsWf
  · split
    · exact .ite1 (Chip.finish_keepsWf .refl .refl) Chip.setCtx_sameMem.keeps
    · split
      · exact Chip.finish_keepsWf .refl .refl
      · exact Chip.accessed_keepsWf Syll.access_keepsWf

theorem Chip.fliesOn_keepsWf {c : Chip} {a0 a1} : KeepsWf c (Chip.fliesOn c a0 a1).2 := by
  unfold Chip.fliesOn
  extract_lets +onlyGivenNames -merge -useContext -underBinder ws x k c0
  have h : KeepsWf c c0 := Chip.setCtx_sameMem.keeps
  clear_value c0
  split
  · exact h
  · exact h.trans (Chip.accessed_keepsWf Syll.load_keepsWf)

theorem Chip.issue_keepsWf {c : Chip} {core x} : KeepsWf c (Chip.issue c core x).2 := by
  unfold Chip.issue
  extract_lets k
  have h := (Chip.fetch_sameMem (c := c) (core := core) (a := k.pc / 4 * 4) (n := longest core) (ws := [])).keeps
  split <;> rename_i e <;> rw [e] at h
  · exact .of Chip.coreFreezes_sameMem.keeps h
  · exact .of Chip.trap_keepsWf h
  · exact h
  · split
    · exact .of Chip.trap_keepsWf h
    · exact .of Chip.runBundle_keepsWf h

theorem Chip.issueFrom_keepsWf {c : Chip} {core flight n} : KeepsWf c (Chip.issueFrom c core flight n) := by
  induction n generalizing c with
  | zero => exact .refl
  | succ n ih =>
    unfold Chip.issueFrom
    have h : KeepsWf c (if (c.ctx core n).inFlight then c.fliesOn core n else c.issue core n).2 :=
      .ite1 Chip.fliesOn_keepsWf Chip.issue_keepsWf
    refine .ite ?_ ih
    split <;> rename_i e <;> rw [e] at h
    · exact .of ih h
    · exact h

theorem bundleExecute_keepsWf {c : Chip} {a0 a1 a2} : KeepsWf c (bundleExecute c a0 a1 a2) := by
  unfold bundleExecute
  extract_lets +onlyGivenNames -merge -useContext -underBinder x0
  exact .ite .refl (.ite Chip.bootError_sameMem.keeps (.ite (.mk2 .refl rfl) Chip.issueFrom_keepsWf))

theorem waitWake_keepsWf {c : Chip} {a0 a1} : KeepsWf c (waitWake c a0 a1) := by
  unfold waitWake
  extract_lets +onlyGivenNames -merge -useContext -underBinder x0
  split
  · extract_lets +onlyGivenNames -merge -useContext -underBinder x1 x2
    exact .ite .refl (.ite (Chip.finish_keepsWf Chip.setCtx_sameMem.keeps Chip.setCtx_sameMem.keeps) .refl)
  · exact .refl

theorem waitTimeout_keepsWf {c : Chip} {a0 a1} : KeepsWf c (waitTimeout c a0 a1) := by
  unfold waitTimeout
  extract_lets +onlyGivenNames -merge -useContext -underBinder x0
  split
  · extract_lets +onlyGivenNames -merge -useContext -underBinder x1
    refine .ite .refl ?_
    exact .ite (.ite waitWake_keepsWf (Chip.finish_keepsWf Chip.setCtx_sameMem.keeps Chip.setCtx_sameMem.keeps)) .refl
  · exact .refl

end Sys2Proof.Machine
end

