-- ==== Sys2Proof/Laws/KeepHost.lean ====
section
/-!
SUPPORT. What each operation of Machine/Host.lean does to memory: it changes no byte (`SameMem`), or keeps
the canonical form (`KeepsWf`).
-/
namespace Sys2Proof.Machine

theorem Chip.hostOut_sameMem {c : Chip} {a0} : SameMem c (Chip.hostOut c a0) := by
  unfold Chip.hostOut
  exact Chip.setHif_sameMem

theorem Chip.hostAnswer_sameMem {c : Chip} {a0} : SameMem c (Chip.hostAnswer c a0) := by
  unfold Chip.hostAnswer
  split
  · exact .of Chip.answer_sameMem Chip.hostOut_sameMem
  · exact .of Chip.refuse_sameMem Chip.hostOut_sameMem

theorem Chip.hostFreeze_sameMem {c : Chip} {a0 a1 a2} : SameMem c (Chip.hostFreeze c a0 a1 a2) := by
  unfold Chip.hostFreeze
  exact .of Chip.freezeAt_sameMem Chip.setBit_sameMem

theorem Chip.inactive_sameMem {c : Chip} {a0} : SameMem c (Chip.inactive c a0) := by
  unfold Chip.inactive
  exact .of Chip.answer_sameMem Chip.hostOut_sameMem

theorem ctlWrite_keepsWf {c : Chip} {a0 a1 a2} : KeepsWf c (ctlWrite c a0 a1 a2).2 := by
  unfold ctlWrite
  refine .ite1 (.pair1 .refl) ?_
  split
  · extract_lets +onlyGivenNames -merge -useContext -underBinder c0
    have h1 : KeepsWf c c0 := regWrite_keepsWf
    clear_value c0
    exact .pair1 h1
  · exact .pair1 (.ite Chip.setMsixWord_sameMem.keeps .refl)

theorem ctlRead_keepsWf {c : Chip} {a0 a1} : KeepsWf c (ctlRead c a0 a1).2 := by
  unfold ctlRead
  refine .ite1 (.pair1 .refl) ?_
  split
  · extract_lets +onlyGivenNames -merge -useContext -underBinder c0
    have h1 : KeepsWf c c0 := regRead_keepsWf
    clear_value c0
    split
    · exact .pair1 h1
    · exact .pair1 h1
  · exact .ite1 (.pair1 .refl) (.ite1 (.pair1 .refl) (.ite1 (.pair1 .refl) (.pair1 .refl)))

theorem bar0Access_keepsWf {c : Chip} {a0 a1 a2 a3} : KeepsWf c (bar0Access c a0 a1 a2 a3) := by
  unfold bar0Access
  refine .ite Chip.inactive_sameMem.keeps ?_
  refine .ite .refl ?_
  refine .ite Chip.hostAnswer_sameMem.keeps ?_
  refine .ite ?_ ?_
  · split
    · rename_i y0 y1 e2
      have h3 : KeepsWf c y1 := by
        refine .ofEq1 e2 ?_
        exact ctlWrite_keepsWf
      exact .of Chip.hostAnswer_sameMem.keeps h3
  · split
    · rename_i y4 y5 e6
      have h7 : KeepsWf c y5 := by
        refine .ofEq1 e6 ?_
        exact ctlRead_keepsWf
      exact .of Chip.hostAnswer_sameMem.keeps h7

theorem sramWrite_keepsWf {c : Chip} {a0 a1} : KeepsWf c (sramWrite c a0 a1).2 := by
  unfold sramWrite
  extract_lets +onlyGivenNames -merge -useContext -underBinder x0
  refine .ite1 (.pair1 .refl) ?_
  split
  · rename_i y1 e2
    have h3 : KeepsWf c y1 := by
      refine .ofEq1 e2 ?_
      exact Chip.dmaWrite_keepsWf
    exact .pair1 h3
  · rename_i y4 e5
    have h6 : KeepsWf c y4 := by
      refine .ofEq1 e5 ?_
      exact Chip.dmaWrite_keepsWf
    exact .pair1 (.of Chip.hostFreeze_sameMem.keeps h6)
  · rename_i y7 y8 o9 e10
    have h11 : KeepsWf c y8 := by
      refine .ofEq1 e10 ?_
      exact Chip.dmaWrite_keepsWf
    exact .pair1 h11

theorem sramRead_sameMem {c : Chip} {a0 a1} : SameMem c (sramRead c a0 a1).2 := by
  unfold sramRead
  extract_lets +onlyGivenNames -merge -useContext -underBinder x0
  refine .ite1 (.pair1 .refl) ?_
  split
  · rename_i y1 y2 e3
    have h4 : SameMem c y2 := by
      refine .ofEq1 e3 ?_
      exact Chip.dmaRead_sameMem
    exact .pair1 h4
  · rename_i y5 e6
    have h7 : SameMem c y5 := by
      refine .ofEq1 e6 ?_
      exact Chip.dmaRead_sameMem
    exact .pair1 (.of Chip.hostFreeze_sameMem h7)
  · rename_i y8 y9 o10 e11
    have h12 : SameMem c y9 := by
      refine .ofEq1 e11 ?_
      exact Chip.dmaRead_sameMem
    exact .pair1 h12

theorem bar2Access_keepsWf {c : Chip} {a0 a1 a2 a3} : KeepsWf c (bar2Access c a0 a1 a2 a3) := by
  unfold bar2Access
  refine .ite Chip.inactive_sameMem.keeps ?_
  refine .ite .refl ?_
  refine .ite ?_ ?_
  · split
    · rename_i y0 y1 e2
      have h3 : KeepsWf c y1 := by
        refine .ofEq1 e2 ?_
        exact sramWrite_keepsWf
      exact .of Chip.hostAnswer_sameMem.keeps h3
  · split
    · rename_i y4 y5 e6
      have h7 : KeepsWf c y5 := by
        refine .ofEq1 e6 ?_
        exact sramRead_sameMem.keeps
      exact .of Chip.hostAnswer_sameMem.keeps h7

theorem flatRead_keepsWf {c : Chip} {a0} : KeepsWf c (flatRead c a0).2 := by
  unfold flatRead
  refine .ite1 ctlRead_keepsWf ?_
  refine .ite1 ?_ (.pair1 .refl)
  split
  · rename_i y0 y1 e2
    have h3 : KeepsWf c y1 := by
      refine .ofEq1 e2 ?_
      exact sramRead_sameMem.keeps
    exact .pair1 h3

theorem flatWrite_keepsWf {c : Chip} {a0 a1} : KeepsWf c (flatWrite c a0 a1).2 := by
  unfold flatWrite
  exact .ite1 ctlWrite_keepsWf (.ite1 sramWrite_keepsWf (.pair1 .refl))

theorem outboundAccess_keepsWf {c : Chip} {a0 a1 a2 a3 a4} : KeepsWf c (outboundAccess c a0 a1 a2 a3 a4) := by
  unfold outboundAccess
  extract_lets +onlyGivenNames -merge -useContext -underBinder x0
  refine .ite ?_ ?_
  · split
    · rename_i y1 e2
      have h3 : KeepsWf c y1 := by
        refine .ofEq1 e2 ?_
        exact Chip.memWrite_keepsWf
      exact .of Chip.done_sameMem.keeps h3
    · rename_i y4 y5 e6
      have h7 : KeepsWf c y5 := by
        refine .ofEq1 e6 ?_
        exact Chip.memWrite_keepsWf
      exact .of Chip.answer_sameMem.keeps h7
  · split
    · rename_i y8 y9 e10
      have h11 : KeepsWf c y9 := by
        refine .ofEq1 e10 ?_
        exact Chip.memRead_sameMem.keeps
      exact .of Chip.answer_sameMem.keeps h11
    · rename_i y12 y13 e14
      have h15 : KeepsWf c y13 := by
        refine .ofEq1 e14 ?_
        exact Chip.memRead_sameMem.keeps
      exact .of Chip.answer_sameMem.keeps h15

theorem parallelRead_keepsWf {c : Chip} {a0} : KeepsWf c (parallelRead c a0) := by
  unfold parallelRead
  refine .ite Chip.inactive_sameMem.keeps ?_
  refine .ite (.of Chip.answer_sameMem.keeps Chip.hostOut_sameMem.keeps) ?_
  split
  · rename_i y0 y1 e2
    have h3 : KeepsWf c y1 := by
      refine .ofEq1 e2 ?_
      exact flatRead_keepsWf
    exact .of Chip.hostAnswer_sameMem.keeps h3
  · rename_i y4 e5
    have h6 : KeepsWf c y4 := by
      refine .ofEq1 e5 ?_
      exact flatRead_keepsWf
    exact .of Chip.refuse_sameMem.keeps (.of Chip.hostOut_sameMem.keeps (.of Chip.hifFlag_sameMem.keeps h6))

theorem parallelWrite_keepsWf {c : Chip} {a0 a1} : KeepsWf c (parallelWrite c a0 a1) := by
  unfold parallelWrite
  refine .ite Chip.inactive_sameMem.keeps ?_
  refine .ite (.of Chip.answer_sameMem.keeps Chip.hostOut_sameMem.keeps) ?_
  split
  · rename_i y0 e1
    have h2 : KeepsWf c y0 := by
      refine .ofEq1 e1 ?_
      exact flatWrite_keepsWf
    exact .of Chip.hostAnswer_sameMem.keeps h2
  · rename_i y3 e4
    have h5 : KeepsWf c y3 := by
      refine .ofEq1 e4 ?_
      exact flatWrite_keepsWf
    exact .of Chip.refuse_sameMem.keeps (.of Chip.hostOut_sameMem.keeps (.of Chip.hifFlag_sameMem.keeps h5))

theorem xspiWordRead_keepsWf {c : Chip} {a0} : KeepsWf c (xspiWordRead c a0).2 := by
  unfold xspiWordRead
  split
  · rename_i y0 y1 e2
    have h3 : KeepsWf c y1 := by
      refine .ofEq1 e2 ?_
      exact flatRead_keepsWf
    exact .pair1 h3
  · rename_i y4 e5
    have h6 : KeepsWf c y4 := by
      refine .ofEq1 e5 ?_
      exact flatRead_keepsWf
    exact .pair1 (.of Chip.hifFlag_sameMem.keeps h6)

theorem xspiReads_keepsWf {c : Chip} {a n} : KeepsWf c (xspiReads c a n).2 := by
  induction n generalizing c a with
  | zero => exact .refl
  | succ n ih => exact .of ih xspiWordRead_keepsWf

theorem xspiRead_keepsWf {c : Chip} {a0 a1} : KeepsWf c (xspiRead c a0 a1) := by
  unfold xspiRead
  refine .ite Chip.inactive_sameMem.keeps ?_
  split
  · rename_i y0 y1 e2
    have h3 : KeepsWf c y1 := by
      refine .ofEq1 e2 ?_
      exact xspiReads_keepsWf
    exact .of Chip.answer_sameMem.keeps (.of Chip.hostOut_sameMem.keeps h3)

theorem xspiStatus_sameMem {c : Chip} : SameMem c (xspiStatus c) := by
  unfold xspiStatus
  exact .ite Chip.inactive_sameMem (.of Chip.answer_sameMem Chip.hostOut_sameMem)

theorem xspiWrites_keepsWf {c : Chip} {a vs} : KeepsWf c (xspiWrites c a vs) := by
  induction vs generalizing c a with
  | nil => exact .refl
  | cons v vs ih =>
    unfold xspiWrites
    split
    · rename_i e
      exact .of ih (.ofEq1 e flatWrite_keepsWf)
    · rename_i e
      exact .of ih (.of Chip.hifFlag_sameMem.keeps (.ofEq1 e flatWrite_keepsWf))

theorem xspiWrite_keepsWf {c : Chip} {a0 a1} : KeepsWf c (xspiWrite c a0 a1) := by
  unfold xspiWrite
  refine .ite Chip.inactive_sameMem.keeps ?_
  exact .of Chip.answer_sameMem.keeps (.of Chip.hostOut_sameMem.keeps xspiWrites_keepsWf)

end Sys2Proof.Machine
end

