-- ==== Sys2Proof/Laws/KeepXdmRun.lean ====
section
/-!
SUPPORT. What each operation of Machine/XdmRun.lean does to memory: it changes no byte (`SameMem`), or keeps
the canonical form (`KeepsWf`).
-/
namespace Sys2Proof.Machine

theorem Chip.popWords_sameMem {c : Chip} {n k} : SameMem c (Chip.popWords c n k) := by
  induction k generalizing c with
  | zero => exact .refl
  | succ k ih =>
    unfold Chip.popWords
    extract_lets x
    refine .ite .refl ?_
    split
    · exact .refl
    · rename_i e
      exact .of ih (.of Chip.setXd_sameMem (.ofEq1 e Chip.pfCreditRead_sameMem))

theorem Chip.readParts_keepsWf {c : Chip} {a0 a1 a2} : KeepsWf c (Chip.readParts c a0 a1 a2).2 := by
  unfold Chip.readParts
  extract_lets +onlyGivenNames -merge -useContext -underBinder x0
  refine .ite1 busRead_keepsWf ?_
  split
  · rename_i y1 y2 e3
    have h4 : KeepsWf c y2 := by
      refine .ofEq1 e3 ?_
      exact busRead_keepsWf
    exact .pair1 h4
  · rename_i y5 y6 e7
    have h8 : KeepsWf c y6 := by
      refine .ofEq1 e7 ?_
      exact busRead_keepsWf
    split
    · rename_i y9 y10 e11
      have h12 : KeepsWf c y10 := by
        refine .ofEq1 e11 ?_
        exact .of busRead_keepsWf h8
      exact .pair1 h12
    · rename_i y13 y14 e15
      have h16 : KeepsWf c y14 := by
        refine .ofEq1 e15 ?_
        exact .of busRead_keepsWf h8
      exact .pair1 h16

theorem Chip.readTimes_keepsWf {c : Chip} {m a k acc} : KeepsWf c (Chip.readTimes c m a k acc).2 := by
  induction k generalizing c acc with
  | zero => exact .refl
  | succ k ih =>
    unfold Chip.readTimes
    split
    · rename_i e
      exact .ofEq1 e busRead_keepsWf
    · rename_i e
      exact .of ih (.ofEq1 e busRead_keepsWf)

theorem Chip.writeTags_keepsWf {c : Chip} {m a ts} : KeepsWf c (Chip.writeTags c m a ts).2 := by
  induction ts generalizing c a with
  | nil => exact .refl
  | cons t ts ih =>
    unfold Chip.writeTags
    split
    · rename_i e
      exact .ofEq1 e busWrite_keepsWf
    · rename_i e
      exact .of ih (.ofEq1 e busWrite_keepsWf)

theorem Chip.xdBegin_keepsWf {c : Chip} {a0 a1} : KeepsWf c (Chip.xdBegin c a0 a1) := by
  unfold Chip.xdBegin
  extract_lets +onlyGivenNames -merge -useContext -underBinder x0 x1 c2
  have h3 : KeepsWf c c2 := .of Chip.setBit_sameMem.keeps Chip.setXd_sameMem.keeps
  clear_value c2
  refine .ite (.of Chip.xdEnd_keepsWf h3) ?_
  exact .ite h3 (.ite (.of Chip.setXd_sameMem.keeps h3) (.of Chip.setXd_sameMem.keeps h3))

theorem Chip.xdFreeze_sameMem {c : Chip} {a0 a1 a2 a3} : SameMem c (Chip.xdFreeze c a0 a1 a2 a3) := by
  unfold Chip.xdFreeze
  exact .of Chip.freezeAt_sameMem Chip.setXdSt_sameMem

theorem Chip.xdCommit_keepsWf {c : Chip} {a0 a1 a2 a3 a4} : KeepsWf c (Chip.xdCommit c a0 a1 a2 a3 a4) := by
  unfold Chip.xdCommit
  extract_lets +onlyGivenNames -merge -useContext -underBinder x0 x1 x2
  refine .ite Chip.xdFreeze_sameMem.keeps ?_
  refine .ite Chip.xdFreeze_sameMem.keeps ?_
  split
  · rename_i y3 y4 e5
    have h6 : KeepsWf c y4 := by
      refine .ofEq1 e5 ?_
      exact busWrite_keepsWf
    exact .of Chip.xdEnd_keepsWf h6
  · rename_i y7 e8
    have h9 : KeepsWf c y7 := by
      refine .ofEq1 e8 ?_
      exact busWrite_keepsWf
    extract_lets +onlyGivenNames -merge -useContext -underBinder c10 x12 c13
    have h11 : KeepsWf c c10 := .ite (.of Chip.cvUnit_sameMem.keeps h9) h9
    have h14 : KeepsWf c c13 := .of Chip.setXd_sameMem.keeps h11
    clear_value c10 c13
    split
    · rename_i y15 y16 e17
      have h18 : KeepsWf c y16 := by
        refine .ofEq1 e17 ?_
        exact .of Chip.writeTags_keepsWf h14
      exact .of Chip.xdEnd_keepsWf h18
    · rename_i y19 e20
      have h21 : KeepsWf c y19 := by
        refine .ofEq1 e20 ?_
        exact .of Chip.writeTags_keepsWf h14
      exact .ite (.of Chip.xdEnd_keepsWf h21) h21

theorem Chip.xdUnit_keepsWf {c : Chip} {a0} : KeepsWf c (Chip.xdUnit c a0) := by
  unfold Chip.xdUnit
  extract_lets +onlyGivenNames -merge -useContext -underBinder x0 x1 x2 x3 c4 x6 x7 x8 x9 x10 x11 x12
  have h5 : KeepsWf c c4 := Chip.popWords_sameMem.keeps
  clear_value c4
  refine .ite Chip.xdEnd_keepsWf ?_
  refine .ite (.ite h5 (.of Chip.xdCommit_keepsWf h5)) ?_
  refine .ite Chip.xdFreeze_sameMem.keeps ?_
  split
  · rename_i y13 e14
    have h15 : KeepsWf c y13 := by
      refine .ofEq1 e14 ?_
      exact .ite1 Chip.readTimes_keepsWf Chip.readParts_keepsWf
    exact h15
  · rename_i y16 y17 o18 e19
    have h20 : KeepsWf c y17 := by
      refine .ofEq1 e19 ?_
      exact .ite1 Chip.readTimes_keepsWf Chip.readParts_keepsWf
    exact .of Chip.xdEnd_keepsWf h20
  · rename_i y21 y22 e23
    have h24 : KeepsWf c y22 := by
      refine .ofEq1 e23 ?_
      exact .ite1 Chip.readTimes_keepsWf Chip.readParts_keepsWf
    exact .of Chip.xdCommit_keepsWf h24

theorem descriptorStart_keepsWf {c : Chip} {a0} : KeepsWf c (descriptorStart c a0) := by
  unfold descriptorStart
  extract_lets +onlyGivenNames -merge -useContext -underBinder x0 x1
  split
  · exact .ite Chip.setXd_sameMem.keeps .refl
  · refine .ite Chip.xdEnd_keepsWf ?_
    refine .ite ?_ (.of Chip.freezeAt_sameMem.keeps Chip.setXdSt_sameMem.keeps)
    split
    · rename_i y2 y3 e4
      have h5 : KeepsWf c y3 := by
        refine .ofEq1 e4 ?_
        exact busRead_keepsWf
      exact .of Chip.xdBegin_keepsWf h5
    · rename_i y6 e7
      have h8 : KeepsWf c y6 := by
        refine .ofEq1 e7 ?_
        exact busRead_keepsWf
      exact h8
    · rename_i y9 y10 o11 e12
      have h13 : KeepsWf c y10 := by
        refine .ofEq1 e12 ?_
        exact busRead_keepsWf
      exact .of Chip.xdEnd_keepsWf h13
  · exact .refl

theorem xdmUnit_keepsWf {c : Chip} : KeepsWf c (xdmUnit c) := by
  unfold xdmUnit
  split
  · exact .refl
  · extract_lets +onlyGivenNames -merge -useContext -underBinder x0 x1
    exact .of Chip.xdUnit_keepsWf (.mk2 .refl rfl)

end Sys2Proof.Machine
end

