-- ==== Sys2Proof/Laws/KeepDispatch.lean ====
section
/-!
SUPPORT. What each operation of Machine/Dispatch.lean does to memory: it changes no byte (`SameMem`), or keeps
the canonical form (`KeepsWf`).
-/
namespace Sys2Proof.Machine

theorem execActinWrite_keepsWf {a0 a1 a2} {s t} (e : execActinWrite a0 a1 a2 s = .next t) : KeepsWf s.chip t.chip :=
  onChip_keepsWf e fun _ => regWrite_keepsWf

theorem execAngleEventClear_keepsWf {s t} (e : execAngleEventClear s = .next t) : KeepsWf s.chip t.chip :=
  onChip_keepsWf e fun _ => (runCommand_keepsWf (fun _ _ h0 => (.of angleEventClear_keepsWf h0)))

theorem execAngleEventFiring_keepsWf {s t} (e : execAngleEventFiring s = .next t) : KeepsWf s.chip t.chip :=
  onChip_keepsWf e fun _ => angleEventFiring_keepsWf

theorem execAngleEventSet_keepsWf {s t} (e : execAngleEventSet s = .next t) : KeepsWf s.chip t.chip :=
  onChip_keepsWf e fun _ => (runCommand_keepsWf (fun _ _ h0 => (.of angleEventSet_keepsWf h0)))

theorem execAngleEventWrite_keepsWf {a0 a1 a2 a3} {s t} (e : execAngleEventWrite a0 a1 a2 a3 s = .next t) : KeepsWf s.chip t.chip :=
  onChip_keepsWf e fun _ => regWrite_keepsWf

theorem execAngleUpdateInstant_sameMem {s t} (e : execAngleUpdateInstant s = .next t) : SameMem s.chip t.chip :=
  onChip_sameMem e fun _ => angleInstant_sameMem

theorem execAsyncCommandComplete_keepsWf {a0 a1} {s t} (e : execAsyncCommandComplete a0 a1 s = .next t) : KeepsWf s.chip t.chip :=
  onChip_keepsWf e fun _ => asyncComplete_keepsWf

theorem execAtomicFaddRead_keepsWf {a0} {s t} (e : execAtomicFaddRead a0 s = .next t) : KeepsWf s.chip t.chip :=
  onChip_keepsWf e fun _ => regRead_keepsWf

theorem execAtomicSwapRead_keepsWf {a0} {s t} (e : execAtomicSwapRead a0 s = .next t) : KeepsWf s.chip t.chip :=
  onChip_keepsWf e fun _ => regRead_keepsWf

theorem execAttest_sameMem {s t} (e : execAttest s = .next t) : SameMem s.chip t.chip :=
  onChip_sameMem e fun _ => (runCommand_sameMem (fun _ _ h0 => (.of attest_sameMem h0)))

theorem execAutoDomainSwitch_sameMem {s t} (e : execAutoDomainSwitch s = .next t) : SameMem s.chip t.chip :=
  onChip_sameMem e fun _ => autoSwitch_sameMem

theorem execAutonegComplete_keepsWf {a0 a1} {s t} (e : execAutonegComplete a0 a1 s = .next t) : KeepsWf s.chip t.chip :=
  onChip_keepsWf e fun _ => (Chip.atPort_keepsWf (fun _ h0 => (.of autonegComplete_sameMem.keeps h0)))

theorem execAvsDone_sameMem {s t} (e : execAvsDone s = .next t) : SameMem s.chip t.chip :=
  onSupply_sameMem e fun _ => avsDone_sameMem

theorem execAvsTargetWrite_keepsWf {a0 a1} {s t} (e : execAvsTargetWrite a0 a1 s = .next t) : KeepsWf s.chip t.chip :=
  onChip_keepsWf e fun _ => regWrite_keepsWf

theorem execAxisCamCmd_keepsWf {a0 a1 a2} {s t} (e : execAxisCamCmd a0 a1 a2 s = .next t) : KeepsWf s.chip t.chip :=
  onChip_keepsWf e fun _ => regWrite_keepsWf

theorem execAxisCamarmCmd_keepsWf {a0 a1 a2} {s t} (e : execAxisCamarmCmd a0 a1 a2 s = .next t) : KeepsWf s.chip t.chip :=
  onChip_keepsWf e fun _ => regWrite_keepsWf

theorem execAxisClearCmd_keepsWf {a0 a1 a2} {s t} (e : execAxisClearCmd a0 a1 a2 s = .next t) : KeepsWf s.chip t.chip :=
  onChip_keepsWf e fun _ => regWrite_keepsWf

theorem execAxisConfig_keepsWf {s t} (e : execAxisConfig s = .next t) : KeepsWf s.chip t.chip :=
  onChip_keepsWf e fun _ => (runCommand_keepsWf (fun _ _ h0 => (.of axisConfig_keepsWf h0)))

theorem execAxisDisable_keepsWf {a0 a1 a2} {s t} (e : execAxisDisable a0 a1 a2 s = .next t) : KeepsWf s.chip t.chip :=
  onChip_keepsWf e fun _ => regWrite_keepsWf

theorem execAxisEnable_keepsWf {a0 a1 a2} {s t} (e : execAxisEnable a0 a1 a2 s = .next t) : KeepsWf s.chip t.chip :=
  onChip_keepsWf e fun _ => regWrite_keepsWf

theorem execAxisGear_keepsWf {s t} (e : execAxisGear s = .next t) : KeepsWf s.chip t.chip :=
  onChip_keepsWf e fun _ => (runCommand_keepsWf (fun _ _ h0 => (.of axisGear_keepsWf h0)))

theorem execAxisGearCmd_keepsWf {a0 a1 a2} {s t} (e : execAxisGearCmd a0 a1 a2 s = .next t) : KeepsWf s.chip t.chip :=
  onChip_keepsWf e fun _ => regWrite_keepsWf

theorem execAxisMove_keepsWf {s t} (e : execAxisMove s = .next t) : KeepsWf s.chip t.chip :=
  onChip_keepsWf e fun _ => (runCommand_keepsWf (fun _ _ h0 => (.of axisMove_keepsWf h0)))

theorem execAxisMoveCmd_keepsWf {a0 a1 a2} {s t} (e : execAxisMoveCmd a0 a1 a2 s = .next t) : KeepsWf s.chip t.chip :=
  onChip_keepsWf e fun _ => regWrite_keepsWf

theorem execAxisStatus_keepsWf {s t} (e : execAxisStatus s = .next t) : KeepsWf s.chip t.chip :=
  onChip_keepsWf e fun _ => (runCommand_keepsWf (fun _ _ h0 => (.of axisStatus_keepsWf h0)))

theorem execAxisStop_keepsWf {s t} (e : execAxisStop s = .next t) : KeepsWf s.chip t.chip :=
  onChip_keepsWf e fun _ => (runCommand_keepsWf (fun _ _ h0 => (.of axisStopCmd_keepsWf h0)))

theorem execAxisStopCmd_keepsWf {a0 a1 a2} {s t} (e : execAxisStopCmd a0 a1 a2 s = .next t) : KeepsWf s.chip t.chip :=
  onChip_keepsWf e fun _ => regWrite_keepsWf

theorem execAxisVelCmd_keepsWf {a0 a1 a2} {s t} (e : execAxisVelCmd a0 a1 a2 s = .next t) : KeepsWf s.chip t.chip :=
  onChip_keepsWf e fun _ => regWrite_keepsWf

theorem execBackoffExpiry_sameMem {a0} {s t} (e : execBackoffExpiry a0 s = .next t) : SameMem s.chip t.chip :=
  onChip_sameMem e fun _ => backoffExpiry_sameMem

theorem execBankOwnerTakeEffect_sameMem {a0} {s t} (e : execBankOwnerTakeEffect a0 s = .next t) : SameMem s.chip t.chip :=
  onChip_sameMem e fun _ => bankOwnerTakeEffect_sameMem

theorem execBankOwnerWrite_keepsWf {a0 a1 a2} {s t} (e : execBankOwnerWrite a0 a1 a2 s = .next t) : KeepsWf s.chip t.chip :=
  onChip_keepsWf e fun _ => regWrite_keepsWf

theorem execBar0Access_keepsWf {a0 a1 a2 a3} {s t} (e : execBar0Access a0 a1 a2 a3 s = .next t) : KeepsWf s.chip t.chip :=
  onChip_keepsWf e fun _ => bar0Access_keepsWf

theorem execBar2Access_keepsWf {a0 a1 a2 a3} {s t} (e : execBar2Access a0 a1 a2 a3 s = .next t) : KeepsWf s.chip t.chip :=
  onChip_keepsWf e fun _ => bar2Access_keepsWf

theorem execBootRomRun_keepsWf {a0} {s t} (e : execBootRomRun a0 s = .next t) : KeepsWf s.chip t.chip :=
  onChip_keepsWf e fun _ => bootRomRun_keepsWf

theorem execBrownOut_keepsWf {s t} (e : execBrownOut s = .next t) : KeepsWf s.chip t.chip :=
  onBoard_keepsWf e fun _ => brownOut_keepsWf

theorem execBuckDisLevelChange_sameMem {a0} {s t} (e : execBuckDisLevelChange a0 s = .next t) : SameMem s.chip t.chip :=
  onBoard_sameMem e fun _ => buckDisChange_sameMem

theorem execBuckSoftStart_sameMem {a0} {s t} (e : execBuckSoftStart a0 s = .next t) : SameMem s.chip t.chip :=
  onSupply_sameMem e fun _ => buckSoftStart_sameMem

theorem execBundleExecute_keepsWf {a0 a1 a2} {s t} (e : execBundleExecute a0 a1 a2 s = .next t) : KeepsWf s.chip t.chip :=
  onChip_keepsWf e fun _ => bundleExecute_keepsWf

theorem execCableTestDone_sameMem {a0 a1} {s t} (e : execCableTestDone a0 a1 s = .next t) : SameMem s.chip t.chip :=
  onChip_sameMem e fun _ => cableTestDone_sameMem

theorem execCableTestStart_keepsWf {a0 a1 a2} {s t} (e : execCableTestStart a0 a1 a2 s = .next t) : KeepsWf s.chip t.chip :=
  onChip_keepsWf e fun _ => regWrite_keepsWf

theorem execCanArbitratingTrigger_sameMem {a0 a1} {s t} (e : execCanArbitratingTrigger a0 a1 s = .next t) : SameMem s.chip t.chip :=
  onChip_sameMem e fun _ => canArbitrating_sameMem

theorem execCanArbitrationLoss_sameMem {a0} {s t} (e : execCanArbitrationLoss a0 s = .next t) : SameMem s.chip t.chip :=
  onChip_sameMem e fun _ => canArbLost_sameMem

theorem execCanBusError_sameMem {a0 a1} {s t} (e : execCanBusError a0 a1 s = .next t) : SameMem s.chip t.chip :=
  onChip_sameMem e fun _ => canBusError_sameMem

theorem execCanBusoffRecovered_sameMem {a0} {s t} (e : execCanBusoffRecovered a0 s = .next t) : SameMem s.chip t.chip :=
  onChip_sameMem e fun _ => canBusoffRecovered_sameMem

theorem execCanCancel_keepsWf {a0 a1 a2} {s t} (e : execCanCancel a0 a1 a2 s = .next t) : KeepsWf s.chip t.chip :=
  onChip_keepsWf e fun _ => regWrite_keepsWf

theorem execCanClearnew_keepsWf {a0 a1 a2} {s t} (e : execCanClearnew a0 a1 a2 s = .next t) : KeepsWf s.chip t.chip :=
  onChip_keepsWf e fun _ => regWrite_keepsWf

theorem execCanConfig_keepsWf {s t} (e : execCanConfig s = .next t) : KeepsWf s.chip t.chip :=
  onChip_keepsWf e fun _ => (runCommand_keepsWf (fun _ _ h0 => (.of canConfig_keepsWf h0)))

theorem execCanDisable_keepsWf {a0 a1 a2} {s t} (e : execCanDisable a0 a1 a2 s = .next t) : KeepsWf s.chip t.chip :=
  onChip_keepsWf e fun _ => regWrite_keepsWf

theorem execCanEnable_keepsWf {a0 a1 a2} {s t} (e : execCanEnable a0 a1 a2 s = .next t) : KeepsWf s.chip t.chip :=
  onChip_keepsWf e fun _ => regWrite_keepsWf

theorem execCanExclusiveTrigger_sameMem {a0 a1 a2} {s t} (e : execCanExclusiveTrigger a0 a1 a2 s = .next t) : SameMem s.chip t.chip :=
  onChip_sameMem e fun _ => canExclusive_sameMem

theorem execCanFrameCommit_sameMem {a0} {s t} (e : execCanFrameCommit a0 s = .next t) : SameMem s.chip t.chip :=
  onChip_sameMem e fun _ => canFrameCommit_sameMem

theorem execCanIntegrationComplete_sameMem {a0} {s t} (e : execCanIntegrationComplete a0 s = .next t) : SameMem s.chip t.chip :=
  onChip_sameMem e fun _ => canIntegrated_sameMem

theorem execCanMatrixCycleStart_sameMem {a0} {s t} (e : execCanMatrixCycleStart a0 s = .next t) : SameMem s.chip t.chip :=
  onChip_sameMem e fun _ => canMatrixStart_sameMem

theorem execCanModeRequest_keepsWf {a0 a1 a2} {s t} (e : execCanModeRequest a0 a1 a2 s = .next t) : KeepsWf s.chip t.chip :=
  onChip_keepsWf e fun _ => regWrite_keepsWf

theorem execCanModeValidate_keepsWf {a0 a1 a2 a3} {s t} (e : execCanModeValidate a0 a1 a2 a3 s = .next t) : KeepsWf s.chip t.chip :=
  onChip_keepsWf e fun _ => regWrite_keepsWf

theorem execCanReceiveCheckTrigger_sameMem {a0 a1} {s t} (e : execCanReceiveCheckTrigger a0 a1 s = .next t) : SameMem s.chip t.chip :=
  onChip_sameMem e fun _ => canReceiveCheck_sameMem

theorem execCanReceiveWindowEnd_sameMem {a0} {s t} (e : execCanReceiveWindowEnd a0 s = .next t) : SameMem s.chip t.chip :=
  onChip_sameMem e fun _ => canWindowEnd_sameMem

theorem execCanRecover_keepsWf {a0 a1 a2} {s t} (e : execCanRecover a0 a1 a2 s = .next t) : KeepsWf s.chip t.chip :=
  onChip_keepsWf e fun _ => regWrite_keepsWf

theorem execCanReferenceReceived_keepsWf {a0 a1 a2} {s t} (e : execCanReferenceReceived a0 a1 a2 s = .next t) : KeepsWf s.chip t.chip :=
  onChip_keepsWf e fun _ => canReferenceReceived_keepsWf

theorem execCanReferenceTrigger_sameMem {a0 a1} {s t} (e : execCanReferenceTrigger a0 a1 s = .next t) : SameMem s.chip t.chip :=
  onChip_sameMem e fun _ => canReference_sameMem

theorem execCanRequest_keepsWf {a0 a1 a2} {s t} (e : execCanRequest a0 a1 a2 s = .next t) : KeepsWf s.chip t.chip :=
  onChip_keepsWf e fun _ => regWrite_keepsWf

theorem execCanRingPop_keepsWf {a0 a1 a2} {s t} (e : execCanRingPop a0 a1 a2 s = .next t) : KeepsWf s.chip t.chip :=
  onChip_keepsWf e fun _ => regWrite_keepsWf

theorem execCanRxFrame_keepsWf {a0 a1 a2} {s t} (e : execCanRxFrame a0 a1 a2 s = .next t) : KeepsWf s.chip t.chip :=
  onChip_keepsWf e fun _ => canRxFrame_keepsWf

theorem execCanTtresume_keepsWf {a0 a1 a2} {s t} (e : execCanTtresume a0 a1 a2 s = .next t) : KeepsWf s.chip t.chip :=
  onChip_keepsWf e fun _ => regWrite_keepsWf

theorem execCanTxComplete_keepsWf {a0} {s t} (e : execCanTxComplete a0 s = .next t) : KeepsWf s.chip t.chip :=
  onChip_keepsWf e fun _ => canTxComplete_keepsWf

theorem execCanVetoReceived_keepsWf {a0 a1 a2} {s t} (e : execCanVetoReceived a0 a1 a2 s = .next t) : KeepsWf s.chip t.chip :=
  onChip_keepsWf e fun _ => canVetoReceived_keepsWf

theorem execCanWatchTrigger_sameMem {a0 a1} {s t} (e : execCanWatchTrigger a0 a1 s = .next t) : SameMem s.chip t.chip :=
  onChip_sameMem e fun _ => canWatch_sameMem

theorem execCanXlPayloadRead_sameMem {a0 a1} {s t} (e : execCanXlPayloadRead a0 a1 s = .next t) : SameMem s.chip t.chip :=
  onChip_sameMem e fun _ => canXlRead_sameMem

theorem execCloseSession_sameMem {s t} (e : execCloseSession s = .next t) : SameMem s.chip t.chip :=
  onChip_sameMem e fun _ => (runCommand_sameMem (fun _ _ h0 => (.of closeSession_sameMem h0)))

theorem execCoastlimExpiry_sameMem {a0} {s t} (e : execCoastlimExpiry a0 s = .next t) : SameMem s.chip t.chip :=
  onChip_sameMem e fun _ => coastlimExpiry_sameMem

theorem execCollision_sameMem {a0 a1} {s t} (e : execCollision a0 a1 s = .next t) : SameMem s.chip t.chip :=
  onChip_sameMem e fun _ => collision_sameMem

theorem execCommandDoorbell_keepsWf {a0 a1} {s t} (e : execCommandDoorbell a0 a1 s = .next t) : KeepsWf s.chip t.chip :=
  onChip_keepsWf e fun _ => regWrite_keepsWf

theorem execCommandTake_sameMem {s t} (e : execCommandTake s = .next t) : SameMem s.chip t.chip :=
  onChip_sameMem e fun _ => commandTake_sameMem

theorem execCoreOverVoltage_sameMem {a0} {s t} (e : execCoreOverVoltage a0 s = .next t) : SameMem s.chip t.chip :=
  onSupply_sameMem e fun _ => coreOverVoltage_sameMem

theorem execCoreWindowExit_sameMem {a0} {s t} (e : execCoreWindowExit a0 s = .next t) : SameMem s.chip t.chip :=
  onSupply_sameMem e fun _ => coreWindowExit_sameMem

theorem execCoreWindowReturn_sameMem {a0} {s t} (e : execCoreWindowReturn a0 s = .next t) : SameMem s.chip t.chip :=
  onSupply_sameMem e fun _ => coreWindowReturn_sameMem

theorem execCounterClear_keepsWf {a0 a1 a2} {s t} (e : execCounterClear a0 a1 a2 s = .next t) : KeepsWf s.chip t.chip :=
  onChip_keepsWf e fun _ => regWrite_keepsWf

theorem execCounterSnapshot_keepsWf {a0 a1 a2} {s t} (e : execCounterSnapshot a0 a1 a2 s = .next t) : KeepsWf s.chip t.chip :=
  onChip_keepsWf e fun _ => regWrite_keepsWf

theorem execCountersRead_keepsWf {s t} (e : execCountersRead s = .next t) : KeepsWf s.chip t.chip :=
  onChip_keepsWf e fun _ => (runCommand_keepsWf (fun _ _ h0 => (.of countersRead_keepsWf h0)))

theorem execCrossWaitDetect_sameMem {a0} {s t} (e : execCrossWaitDetect a0 s = .next t) : SameMem s.chip t.chip :=
  onChip_sameMem e fun _ => crossWait_sameMem

theorem execCvData1Write_keepsWf {a0 a1 a2} {s t} (e : execCvData1Write a0 a1 a2 s = .next t) : KeepsWf s.chip t.chip :=
  onChip_keepsWf e fun _ => regWrite_keepsWf

theorem execCvData4Write_keepsWf {a0 a1 a2} {s t} (e : execCvData4Write a0 a1 a2 s = .next t) : KeepsWf s.chip t.chip :=
  onChip_keepsWf e fun _ => regWrite_keepsWf

theorem execCvFinish_keepsWf {a0 a1} {s t} (e : execCvFinish a0 a1 s = .next t) : KeepsWf s.chip t.chip :=
  onChip_keepsWf e fun _ => regWrite_keepsWf

theorem execCvLoad_keepsWf {a0 a1 a2} {s t} (e : execCvLoad a0 a1 a2 s = .next t) : KeepsWf s.chip t.chip :=
  onChip_keepsWf e fun _ => regWrite_keepsWf

theorem execCvStart_keepsWf {a0 a1} {s t} (e : execCvStart a0 a1 s = .next t) : KeepsWf s.chip t.chip :=
  onChip_keepsWf e fun _ => regWrite_keepsWf

theorem execDebugAccess_keepsWf {a0} {s t} (e : execDebugAccess a0 s = .next t) : KeepsWf s.chip t.chip :=
  onChip_keepsWf e fun _ => debugAccess_keepsWf

theorem execDeviationFault_sameMem {a0} {s t} (e : execDeviationFault a0 s = .next t) : SameMem s.chip t.chip :=
  onChip_sameMem e fun _ => axisFaultDue_sameMem

theorem execDomainAdjWrite_keepsWf {a0 a1 a2} {s t} (e : execDomainAdjWrite a0 a1 a2 s = .next t) : KeepsWf s.chip t.chip :=
  onChip_keepsWf e fun _ => regWrite_keepsWf

theorem execDomainConfig_keepsWf {s t} (e : execDomainConfig s = .next t) : KeepsWf s.chip t.chip :=
  onChip_keepsWf e fun _ => (runCommand_keepsWf (fun _ _ h0 => (.of domainConfig_keepsWf h0)))

theorem execDomainDisable_keepsWf {a0 a1 a2} {s t} (e : execDomainDisable a0 a1 a2 s = .next t) : KeepsWf s.chip t.chip :=
  onChip_keepsWf e fun _ => regWrite_keepsWf

theorem execDomainEnable_keepsWf {a0 a1 a2} {s t} (e : execDomainEnable a0 a1 a2 s = .next t) : KeepsWf s.chip t.chip :=
  onChip_keepsWf e fun _ => regWrite_keepsWf

theorem execDomainFail_keepsWf {a0 a1 a2} {s t} (e : execDomainFail a0 a1 a2 s = .next t) : KeepsWf s.chip t.chip :=
  onChip_keepsWf e fun _ => regWrite_keepsWf

theorem execDomainLock_keepsWf {a0 a1 a2} {s t} (e : execDomainLock a0 a1 a2 s = .next t) : KeepsWf s.chip t.chip :=
  onChip_keepsWf e fun _ => regWrite_keepsWf

theorem execDomainRateWrite_keepsWf {a0 a1 a2} {s t} (e : execDomainRateWrite a0 a1 a2 s = .next t) : KeepsWf s.chip t.chip :=
  onChip_keepsWf e fun _ => regWrite_keepsWf

theorem execDomainSelectWrite_keepsWf {a0 a1} {s t} (e : execDomainSelectWrite a0 a1 s = .next t) : KeepsWf s.chip t.chip :=
  onChip_keepsWf e fun _ => regWrite_keepsWf

theorem execDomainStatus_keepsWf {s t} (e : execDomainStatus s = .next t) : KeepsWf s.chip t.chip :=
  onChip_keepsWf e fun _ => (runCommand_keepsWf (fun _ _ h0 => (.of domainStatus_keepsWf h0)))

theorem execDomainStepWrite_keepsWf {a0 a1 a2} {s t} (e : execDomainStepWrite a0 a1 a2 s = .next t) : KeepsWf s.chip t.chip :=
  onChip_keepsWf e fun _ => regWrite_keepsWf

theorem execDomainSync_keepsWf {a0 a1 a2} {s t} (e : execDomainSync a0 a1 a2 s = .next t) : KeepsWf s.chip t.chip :=
  onChip_keepsWf e fun _ => regWrite_keepsWf

theorem execEarlyWake_sameMem {a0} {s t} (e : execEarlyWake a0 s = .next t) : SameMem s.chip t.chip :=
  onChip_sameMem e fun _ => earlyWake_sameMem

theorem execEcho_sameMem {s t} (e : execEcho s = .next t) : SameMem s.chip t.chip :=
  onChip_sameMem e fun _ => (runCommand_sameMem (fun _ _ h0 => (.of echoCmd_sameMem h0)))

theorem execEgressStampPop_keepsWf {a0 a1 a2} {s t} (e : execEgressStampPop a0 a1 a2 s = .next t) : KeepsWf s.chip t.chip :=
  onChip_keepsWf e fun _ => regWrite_keepsWf

theorem execEngineClear_keepsWf {a0 a1 a2} {s t} (e : execEngineClear a0 a1 a2 s = .next t) : KeepsWf s.chip t.chip :=
  onChip_keepsWf e fun _ => regWrite_keepsWf

theorem execEngineClearDone_keepsWf {a0} {s t} (e : execEngineClearDone a0 s = .next t) : KeepsWf s.chip t.chip :=
  onChip_keepsWf e fun _ => engineClearDone_keepsWf

theorem execEngineStart_keepsWf {a0 a1 a2} {s t} (e : execEngineStart a0 a1 a2 s = .next t) : KeepsWf s.chip t.chip :=
  onChip_keepsWf e fun _ => regWrite_keepsWf

theorem execEngineStop_keepsWf {a0 a1 a2} {s t} (e : execEngineStop a0 a1 a2 s = .next t) : KeepsWf s.chip t.chip :=
  onChip_keepsWf e fun _ => regWrite_keepsWf

theorem execEngineWatchdogExpiry_sameMem {a0} {s t} (e : execEngineWatchdogExpiry a0 s = .next t) : SameMem s.chip t.chip :=
  onChip_sameMem e fun _ => peWatchdog_sameMem

theorem execEvaluationEnd_keepsWf {a0} {s t} (e : execEvaluationEnd a0 s = .next t) : KeepsWf s.chip t.chip :=
  onChip_keepsWf e fun _ => evaluationEnd_keepsWf

theorem execEventDelivery_sameMem {s t} (e : execEventDelivery s = .next t) : SameMem s.chip t.chip :=
  onChip_sameMem e fun _ => eventDelivery_sameMem

theorem execEventQueuePop_keepsWf {a0 a1 a2} {s t} (e : execEventQueuePop a0 a1 a2 s = .next t) : KeepsWf s.chip t.chip :=
  onChip_keepsWf e fun _ => regWrite_keepsWf

theorem execEvtRaiseWrite_keepsWf {a0 a1} {s t} (e : execEvtRaiseWrite a0 a1 s = .next t) : KeepsWf s.chip t.chip :=
  onChip_keepsWf e fun _ => regWrite_keepsWf

theorem execFdbAccess_keepsWf {s t} (e : execFdbAccess s = .next t) : KeepsWf s.chip t.chip :=
  onChip_keepsWf e fun _ => (runCommand_keepsWf (fun _ _ h0 => (.of fdbAccess_keepsWf h0)))

theorem execFdbAgeTick_sameMem {s t} (e : execFdbAgeTick s = .next t) : SameMem s.chip t.chip :=
  onChip_sameMem e fun _ => fdbAge_sameMem

theorem execFeedWrite_keepsWf {a0 a1 a2} {s t} (e : execFeedWrite a0 a1 a2 s = .next t) : KeepsWf s.chip t.chip :=
  onChip_keepsWf e fun _ => regWrite_keepsWf

theorem execFeedbackStale_sameMem {a0} {s t} (e : execFeedbackStale a0 s = .next t) : SameMem s.chip t.chip :=
  onChip_sameMem e fun _ => axisFaultDue_sameMem

theorem execFlushDone_sameMem {s t} (e : execFlushDone s = .next t) : SameMem s.chip t.chip :=
  onChip_sameMem e fun _ => flushDone_sameMem

theorem execForceClear_keepsWf {s t} (e : execForceClear s = .next t) : KeepsWf s.chip t.chip :=
  onChip_keepsWf e fun _ => (runCommand_keepsWf (fun _ _ h0 => (.of forceClearCmd_keepsWf h0)))

theorem execForceEntryClear_keepsWf {a0 a1 a2} {s t} (e : execForceEntryClear a0 a1 a2 s = .next t) : KeepsWf s.chip t.chip :=
  onChip_keepsWf e fun _ => regWrite_keepsWf

theorem execForceEntrySet_keepsWf {a0 a1 a2} {s t} (e : execForceEntrySet a0 a1 a2 s = .next t) : KeepsWf s.chip t.chip :=
  onChip_keepsWf e fun _ => regWrite_keepsWf

theorem execForceSet_keepsWf {s t} (e : execForceSet s = .next t) : KeepsWf s.chip t.chip :=
  onChip_keepsWf e fun _ => (runCommand_keepsWf (fun _ _ h0 => (.of forceSetCmd_keepsWf h0)))

theorem execFrameCycleBoundary_keepsWf {a0} {s t} (e : execFrameCycleBoundary a0 s = .next t) : KeepsWf s.chip t.chip :=
  onChip_keepsWf e fun _ => frameBoundary_keepsWf

theorem execFrameEnable_keepsWf {a0 a1 a2} {s t} (e : execFrameEnable a0 a1 a2 s = .next t) : KeepsWf s.chip t.chip :=
  onChip_keepsWf e fun _ => regWrite_keepsWf

theorem execFrameEvaluation_keepsWf {a0} {s t} (e : execFrameEvaluation a0 s = .next t) : KeepsWf s.chip t.chip :=
  onChip_keepsWf e fun _ => frameEvaluation_keepsWf

theorem execFrameReceive_sameMem {a0 a1} {s t} (e : execFrameReceive a0 a1 s = .next t) : SameMem s.chip t.chip :=
  onChip_sameMem e fun _ => frameReceive_sameMem

theorem execFrameTransmitEnd_sameMem {a0 a1 a2} {s t} (e : execFrameTransmitEnd a0 a1 a2 s = .next t) : SameMem s.chip t.chip :=
  onChip_sameMem e fun _ => frameTransmitEnd_sameMem

theorem execFrameTransmitStart_sameMem {a0 a1} {s t} (e : execFrameTransmitStart a0 a1 s = .next t) : SameMem s.chip t.chip :=
  onChip_sameMem e fun _ => frameTransmitStart_sameMem

theorem execFreezeInfo_keepsWf {s t} (e : execFreezeInfo s = .next t) : KeepsWf s.chip t.chip :=
  onChip_keepsWf e fun _ => (runCommand_keepsWf (fun _ _ h0 => (.of freezeInfo_keepsWf h0)))

theorem execFreezeRedirect_keepsWf {a0 a1} {s t} (e : execFreezeRedirect a0 a1 s = .next t) : KeepsWf s.chip t.chip :=
  onChip_keepsWf e fun _ => regWrite_keepsWf

theorem execFreezeReset_keepsWf {a0 a1} {s t} (e : execFreezeReset a0 a1 s = .next t) : KeepsWf s.chip t.chip :=
  onChip_keepsWf e fun _ => regWrite_keepsWf

theorem execFreezeResolve_keepsWf {s t} (e : execFreezeResolve s = .next t) : KeepsWf s.chip t.chip :=
  onChip_keepsWf e fun _ => (runCommand_keepsWf (fun _ _ h0 => (.of freezeResolveCmd_keepsWf h0)))

theorem execFreezeResume_keepsWf {a0 a1} {s t} (e : execFreezeResume a0 a1 s = .next t) : KeepsWf s.chip t.chip :=
  onChip_keepsWf e fun _ => regWrite_keepsWf

theorem execFuseOpDone_sameMem {a0} {s t} (e : execFuseOpDone a0 s = .next t) : SameMem s.chip t.chip :=
  onChip_sameMem e fun _ => fuseOpDone_sameMem

theorem execFusePolicy_keepsWf {a0 a1} {s t} (e : execFusePolicy a0 a1 s = .next t) : KeepsWf s.chip t.chip :=
  onChip_keepsWf e fun _ => regWrite_keepsWf

theorem execFuseProgram_keepsWf {a0 a1} {s t} (e : execFuseProgram a0 a1 s = .next t) : KeepsWf s.chip t.chip :=
  onChip_keepsWf e fun _ => regWrite_keepsWf

theorem execFuseRead_keepsWf {a0 a1} {s t} (e : execFuseRead a0 a1 s = .next t) : KeepsWf s.chip t.chip :=
  onChip_keepsWf e fun _ => regWrite_keepsWf

theorem execFuseRevoke_keepsWf {a0 a1} {s t} (e : execFuseRevoke a0 a1 s = .next t) : KeepsWf s.chip t.chip :=
  onChip_keepsWf e fun _ => regWrite_keepsWf

theorem execGateEntryStart_sameMem {a0} {s t} (e : execGateEntryStart a0 s = .next t) : SameMem s.chip t.chip :=
  onChip_sameMem e fun _ => gateEntryStart_sameMem

theorem execGateListChange_keepsWf {a0 a1 a2} {s t} (e : execGateListChange a0 a1 a2 s = .next t) : KeepsWf s.chip t.chip :=
  onChip_keepsWf e fun _ => regWrite_keepsWf

theorem execGateListChangeTime_sameMem {a0} {s t} (e : execGateListChangeTime a0 s = .next t) : SameMem s.chip t.chip :=
  onChip_sameMem e fun _ => gclChangeTime_sameMem

theorem execGetIdentity_sameMem {s t} (e : execGetIdentity s = .next t) : SameMem s.chip t.chip :=
  onChip_sameMem e fun _ => (runCommand_sameMem (fun _ _ h0 => (.of getIdentity_sameMem h0)))

theorem execGetState_keepsWf {s t} (e : execGetState s = .next t) : KeepsWf s.chip t.chip :=
  onChip_keepsWf e fun _ => (runCommand_keepsWf (fun _ _ h0 => (.of getState_keepsWf h0)))

theorem execGpioClrWrite_keepsWf {a0 a1 a2} {s t} (e : execGpioClrWrite a0 a1 a2 s = .next t) : KeepsWf s.chip t.chip :=
  onChip_keepsWf e fun _ => regWrite_keepsWf

theorem execGpioSetWrite_keepsWf {a0 a1 a2} {s t} (e : execGpioSetWrite a0 a1 a2 s = .next t) : KeepsWf s.chip t.chip :=
  onChip_keepsWf e fun _ => regWrite_keepsWf

theorem execGuardianWindow_sameMem {a0} {s t} (e : execGuardianWindow a0 s = .next t) : SameMem s.chip t.chip :=
  onChip_sameMem e fun _ => guardianWindow_sameMem

theorem execHoldoverFailLimit_sameMem {a0} {s t} (e : execHoldoverFailLimit a0 s = .next t) : SameMem s.chip t.chip :=
  onChip_sameMem e fun _ => holdoverFail_sameMem

theorem execHostPathTimeout_sameMem {s t} (e : execHostPathTimeout s = .next t) : SameMem s.chip t.chip :=
  onChip_sameMem e fun _ => hostPathTimeout_sameMem

theorem execHostPortPeckGrant_keepsWf {a0} {s t} (e : execHostPortPeckGrant a0 s = .next t) : KeepsWf s.chip t.chip :=
  onChip_keepsWf e fun _ => peckGrant_keepsWf

theorem execImageInfo_sameMem {s t} (e : execImageInfo s = .next t) : SameMem s.chip t.chip :=
  onChip_sameMem e fun _ => (runCommand_sameMem (fun _ _ h0 => (.of imageInfoCmd_sameMem h0)))

theorem execInstallKey_sameMem {s t} (e : execInstallKey s = .next t) : SameMem s.chip t.chip :=
  onChip_sameMem e fun _ => (runCommand_sameMem (fun _ _ h0 => (.of installKeyCmd_sameMem h0)))

theorem execInstructionWordWrite_keepsWf {a0 a1 a2 a3} {s t} (e : execInstructionWordWrite a0 a1 a2 a3 s = .next t) : KeepsWf s.chip t.chip :=
  onChip_keepsWf e fun _ => regWrite_keepsWf

theorem execIrqsetWrite_keepsWf {a0 a1 a2} {s t} (e : execIrqsetWrite a0 a1 a2 s = .next t) : KeepsWf s.chip t.chip :=
  onChip_keepsWf e fun _ => regWrite_keepsWf

theorem execJabber_keepsWf {a0 a1} {s t} (e : execJabber a0 a1 s = .next t) : KeepsWf s.chip t.chip :=
  onChip_keepsWf e fun _ => (Chip.atPort_keepsWf (fun _ h0 => (.of jabber_sameMem.keeps h0)))

theorem execLanesWrite_keepsWf {a0 a1 a2 a3} {s t} (e : execLanesWrite a0 a1 a2 a3 s = .next t) : KeepsWf s.chip t.chip :=
  onChip_keepsWf e fun _ => regWrite_keepsWf

theorem execLdfRuleCommit_keepsWf {a0 a1 a2} {s t} (e : execLdfRuleCommit a0 a1 a2 s = .next t) : KeepsWf s.chip t.chip :=
  onChip_keepsWf e fun _ => regWrite_keepsWf

theorem execLedgerLatch_sameMem {s t} (e : execLedgerLatch s = .next t) : SameMem s.chip t.chip :=
  onChip_sameMem e fun _ => ledgerLatch_sameMem

theorem execLedgerSnapshot_keepsWf {s t} (e : execLedgerSnapshot s = .next t) : KeepsWf s.chip t.chip :=
  onChip_keepsWf e fun _ => regWrite_keepsWf

theorem execLinkDown_sameMem {a0} {s t} (e : execLinkDown a0 s = .next t) : SameMem s.chip t.chip :=
  onChip_sameMem e fun _ => linkLost_sameMem

theorem execLinkUp_keepsWf {a0 a1} {s t} (e : execLinkUp a0 a1 s = .next t) : KeepsWf s.chip t.chip :=
  onChip_keepsWf e fun _ => (Chip.atPort_keepsWf (fun _ h0 => (.of linkComesUp_sameMem.keeps h0)))

theorem execLoadBegin_sameMem {s t} (e : execLoadBegin s = .next t) : SameMem s.chip t.chip :=
  onChip_sameMem e fun _ => (runCommand_sameMem (fun _ _ h0 => (.of loadBegin_sameMem h0)))

theorem execLoadCommit_keepsWf {a0} {s t} (e : execLoadCommit a0 s = .next t) : KeepsWf s.chip t.chip :=
  onChip_keepsWf e fun _ => (runCommand_keepsWf (fun _ _ h0 => (.of loadCommit_keepsWf h0)))

theorem execLoadData_keepsWf {s t} (e : execLoadData s = .next t) : KeepsWf s.chip t.chip :=
  onChip_keepsWf e fun _ => (runCommand_keepsWf (fun _ _ h0 => (.of loadData_keepsWf h0)))

theorem execLockRead_keepsWf {a0 a1} {s t} (e : execLockRead a0 a1 s = .next t) : KeepsWf s.chip t.chip :=
  onChip_keepsWf e fun _ => regRead_keepsWf

theorem execLockWrite_keepsWf {a0 a1 a2} {s t} (e : execLockWrite a0 a1 a2 s = .next t) : KeepsWf s.chip t.chip :=
  onChip_keepsWf e fun _ => regWrite_keepsWf

theorem execLoopback_keepsWf {s t} (e : execLoopback s = .next t) : KeepsWf s.chip t.chip :=
  onChip_keepsWf e fun _ => (runCommand_keepsWf (fun _ _ h0 => (.of loopback_keepsWf h0)))

theorem execLpiEntry_sameMem {a0} {s t} (e : execLpiEntry a0 s = .next t) : SameMem s.chip t.chip :=
  onChip_sameMem e fun _ => lpiEntry_sameMem

theorem execMailboxAcknowledge_keepsWf {a0 a1} {s t} (e : execMailboxAcknowledge a0 a1 s = .next t) : KeepsWf s.chip t.chip :=
  onChip_keepsWf e fun _ => regRead_keepsWf

theorem execMailboxCommandTake_sameMem {s t} (e : execMailboxCommandTake s = .next t) : SameMem s.chip t.chip :=
  onChip_sameMem e fun _ => mailboxCommandTake_sameMem

theorem execMailboxConfigWrite_keepsWf {a0 a1 a2} {s t} (e : execMailboxConfigWrite a0 a1 a2 s = .next t) : KeepsWf s.chip t.chip :=
  onChip_keepsWf e fun _ => regWrite_keepsWf

theorem execMailboxDataWrite_keepsWf {a0 a1 a2 a3} {s t} (e : execMailboxDataWrite a0 a1 a2 a3 s = .next t) : KeepsWf s.chip t.chip :=
  onChip_keepsWf e fun _ => regWrite_keepsWf

theorem execMailboxGo_keepsWf {a0 a1 a2} {s t} (e : execMailboxGo a0 a1 a2 s = .next t) : KeepsWf s.chip t.chip :=
  onChip_keepsWf e fun _ => regWrite_keepsWf

theorem execMailboxReset_keepsWf {a0 a1 a2} {s t} (e : execMailboxReset a0 a1 a2 s = .next t) : KeepsWf s.chip t.chip :=
  onChip_keepsWf e fun _ => regWrite_keepsWf

theorem execMailboxTimeout_sameMem {a0} {s t} (e : execMailboxTimeout a0 s = .next t) : SameMem s.chip t.chip :=
  onChip_sameMem e fun _ => mailboxTimeout_sameMem

theorem execMarchDone_keepsWf {a0} {s t} (e : execMarchDone a0 s = .next t) : KeepsWf s.chip t.chip :=
  onChip_keepsWf e fun _ => marchDone_keepsWf

theorem execMarchRun_keepsWf {s t} (e : execMarchRun s = .next t) : KeepsWf s.chip t.chip :=
  onChip_keepsWf e fun _ => (runCommand_keepsWf (fun _ _ h0 => (.of marchRun_keepsWf h0)))

theorem execMarchStart_keepsWf {a0 a1} {s t} (e : execMarchStart a0 a1 s = .next t) : KeepsWf s.chip t.chip :=
  onChip_keepsWf e fun _ => regWrite_keepsWf

theorem execMasterSampleGeneration_sameMem {a0} {s t} (e : execMasterSampleGeneration a0 s = .next t) : SameMem s.chip t.chip :=
  onChip_sameMem e fun _ => generateSample_sameMem

theorem execMotionUpdateInstant_sameMem {s t} (e : execMotionUpdateInstant s = .next t) : SameMem s.chip t.chip :=
  onChip_sameMem e fun _ => motionInstant_sameMem

theorem execMsixSend_sameMem {s t} (e : execMsixSend s = .next t) : SameMem s.chip t.chip :=
  onChip_sameMem e fun _ => msixSend_sameMem

theorem execNoExchangeCheck_sameMem {a0} {s t} (e : execNoExchangeCheck a0 s = .next t) : SameMem s.chip t.chip :=
  onChip_sameMem e fun _ => noExchangeCheck_sameMem

theorem execOpenSession_sameMem {s t} (e : execOpenSession s = .next t) : SameMem s.chip t.chip :=
  onChip_sameMem e fun _ => (runCommand_sameMem (fun _ _ h0 => (.of openSession_sameMem h0)))

theorem execOperatingSecondTick_keepsWf {s t} (e : execOperatingSecondTick s = .next t) : KeepsWf s.chip t.chip :=
  onChip_keepsWf e fun _ => operatingSecond_keepsWf

theorem execOutboundAccess_keepsWf {a0 a1 a2 a3 a4} {s t} (e : execOutboundAccess a0 a1 a2 a3 a4 s = .next t) : KeepsWf s.chip t.chip :=
  onChip_keepsWf e fun _ => outboundAccess_keepsWf

theorem execOutboundReadCompletion_keepsWf {a0 a1 a2} {s t} (e : execOutboundReadCompletion a0 a1 a2 s = .next t) : KeepsWf s.chip t.chip :=
  onChip_keepsWf e fun _ => (.of Chip.debugSettle_keepsWf obCompletion_sameMem.keeps)

theorem execOutboundReadTimeout_keepsWf {a0} {s t} (e : execOutboundReadTimeout a0 s = .next t) : KeepsWf s.chip t.chip :=
  onChip_keepsWf e fun _ => (.of Chip.debugSettle_keepsWf obTimeout_sameMem.keeps)

theorem execOutputHandover_keepsWf {a0} {s t} (e : execOutputHandover a0 s = .next t) : KeepsWf s.chip t.chip :=
  onChip_keepsWf e fun _ => outputHandover_keepsWf

theorem execPackCreditGrant_sameMem {a0} {s t} (e : execPackCreditGrant a0 s = .next t) : SameMem s.chip t.chip :=
  onChip_sameMem e fun _ => pfGrant_sameMem

theorem execPackFifoRead_keepsWf {a0 a1} {s t} (e : execPackFifoRead a0 a1 s = .next t) : KeepsWf s.chip t.chip :=
  onChip_keepsWf e fun _ => regRead_keepsWf

theorem execPackFifoReset_keepsWf {a0 a1 a2} {s t} (e : execPackFifoReset a0 a1 a2 s = .next t) : KeepsWf s.chip t.chip :=
  onChip_keepsWf e fun _ => regWrite_keepsWf

theorem execParallelBusRead_keepsWf {a0} {s t} (e : execParallelBusRead a0 s = .next t) : KeepsWf s.chip t.chip :=
  onChip_keepsWf e fun _ => parallelRead_keepsWf

theorem execParallelBusWrite_keepsWf {a0 a1} {s t} (e : execParallelBusWrite a0 a1 s = .next t) : KeepsWf s.chip t.chip :=
  onChip_keepsWf e fun _ => parallelWrite_keepsWf

theorem execPcieLinkChange_sameMem {a0 a1 a2} {s t} (e : execPcieLinkChange a0 a1 a2 s = .next t) : SameMem s.chip t.chip :=
  onChip_sameMem e fun _ => pcieLink_sameMem

theorem execPeCycleTimer_sameMem {a0} {s t} (e : execPeCycleTimer a0 s = .next t) : SameMem s.chip t.chip :=
  onChip_sameMem e fun _ => peCycleTimer_sameMem

theorem execPerstAssert_sameMem {s t} (e : execPerstAssert s = .next t) : SameMem s.chip t.chip :=
  onChip_sameMem e fun _ => perstAssert_sameMem

theorem execPgoodCoreRise_sameMem {a0 a1} {s t} (e : execPgoodCoreRise a0 a1 s = .next t) : SameMem s.chip t.chip :=
  onSupply_sameMem e fun _ => pgoodRise_sameMem

theorem execPhaseCommit_keepsWf {a0 a1 a2} {s t} (e : execPhaseCommit a0 a1 a2 s = .next t) : KeepsWf s.chip t.chip :=
  onChip_keepsWf e fun _ => regWrite_keepsWf

theorem execPinFunctionWrite_keepsWf {a0 a1 a2} {s t} (e : execPinFunctionWrite a0 a1 a2 s = .next t) : KeepsWf s.chip t.chip :=
  onChip_keepsWf e fun _ => regWrite_keepsWf

theorem execPinReset_keepsWf {s t} (e : execPinReset s = .next t) : KeepsWf s.chip t.chip :=
  onSupply_keepsWf e fun _ => pinReset_keepsWf

theorem execPlcaActiveChange_sameMem {a0 a1 a2 a3} {s t} (e : execPlcaActiveChange a0 a1 a2 a3 s = .next t) : SameMem s.chip t.chip :=
  onChip_sameMem e fun _ => plcaActive_sameMem

theorem execPllLock_sameMem {s t} (e : execPllLock s = .next t) : SameMem s.chip t.chip :=
  onSupply_sameMem e fun _ => pllLock_sameMem

theorem execPllLockLoss_sameMem {s t} (e : execPllLockLoss s = .next t) : SameMem s.chip t.chip :=
  onSupply_sameMem e fun _ => pllLoss_sameMem

theorem execPortConfig_keepsWf {s t} (e : execPortConfig s = .next t) : KeepsWf s.chip t.chip :=
  onChip_keepsWf e fun _ => (runCommand_keepsWf (fun _ _ h0 => (.of portConfig_keepsWf h0)))

theorem execPortModeWrite_keepsWf {a0 a1 a2} {s t} (e : execPortModeWrite a0 a1 a2 s = .next t) : KeepsWf s.chip t.chip :=
  onChip_keepsWf e fun _ => regWrite_keepsWf

theorem execPortStatus_keepsWf {s t} (e : execPortStatus s = .next t) : KeepsWf s.chip t.chip :=
  onChip_keepsWf e fun _ => (runCommand_keepsWf (fun _ _ h0 => (.of portStatus_keepsWf h0)))

theorem execPowerGateWrite_keepsWf {a0 a1} {s t} (e : execPowerGateWrite a0 a1 s = .next t) : KeepsWf s.chip t.chip :=
  onChip_keepsWf e fun _ => regWrite_keepsWf

theorem execPowerOn_keepsWf {s t} (e : execPowerOn s = .next t) : KeepsWf s.chip t.chip :=
  onBoard_keepsWf e fun _ => powerOn_keepsWf

theorem execPrbsInject_keepsWf {a0 a1 a2} {s t} (e : execPrbsInject a0 a1 a2 s = .next t) : KeepsWf s.chip t.chip :=
  onChip_keepsWf e fun _ => regWrite_keepsWf

theorem execPrbsLock_sameMem {a0 a1} {s t} (e : execPrbsLock a0 a1 s = .next t) : SameMem s.chip t.chip :=
  onChip_sameMem e fun _ => prbsRun_sameMem

theorem execPrbsLockLoss_sameMem {a0 a1} {s t} (e : execPrbsLockLoss a0 a1 s = .next t) : SameMem s.chip t.chip :=
  onChip_sameMem e fun _ => prbsRun_sameMem

theorem execPrbsRun_keepsWf {s t} (e : execPrbsRun s = .next t) : KeepsWf s.chip t.chip :=
  onChip_keepsWf e fun _ => (runCommand_keepsWf (fun _ _ h0 => (.of prbsRunCmd_keepsWf h0)))

theorem execPrbsRunStart_keepsWf {a0 a1 a2} {s t} (e : execPrbsRunStart a0 a1 a2 s = .next t) : KeepsWf s.chip t.chip :=
  onChip_keepsWf e fun _ => regWrite_keepsWf

theorem execPreemptVerifyTimer_sameMem {a0 a1} {s t} (e : execPreemptVerifyTimer a0 a1 s = .next t) : SameMem s.chip t.chip :=
  onChip_sameMem e fun _ => verifyTimer_sameMem

theorem execProgramLoad_keepsWf {s t} (e : execProgramLoad s = .next t) : KeepsWf s.chip t.chip :=
  onChip_keepsWf e fun _ => (runCommand_keepsWf (fun _ _ h0 => (.of programLoad_keepsWf h0)))

theorem execProgramMode_keepsWf {s t} (e : execProgramMode s = .next t) : KeepsWf s.chip t.chip :=
  onChip_keepsWf e fun _ => (runCommand_keepsWf (fun _ _ h0 => (.of programMode_keepsWf h0)))

theorem execProgramStatus_keepsWf {s t} (e : execProgramStatus s = .next t) : KeepsWf s.chip t.chip :=
  onChip_keepsWf e fun _ => (runCommand_keepsWf (fun _ _ h0 => (.of programStatus_keepsWf h0)))

theorem execProgramSwap_keepsWf {s t} (e : execProgramSwap s = .next t) : KeepsWf s.chip t.chip :=
  onChip_keepsWf e fun _ => (runCommand_keepsWf (fun _ _ h0 => (.of programSwap_keepsWf h0)))

theorem execProveSession_sameMem {s t} (e : execProveSession s = .next t) : SameMem s.chip t.chip :=
  onChip_sameMem e fun _ => (runCommand_sameMem (fun _ _ h0 => (.of proveSession_sameMem h0)))

theorem execQuadratureIndex_sameMem {a0 a1 a2} {s t} (e : execQuadratureIndex a0 a1 a2 s = .next t) : SameMem s.chip t.chip :=
  onChip_sameMem e fun _ => quadIndex_sameMem

theorem execQuadratureTransition_sameMem {a0 a1 a2 a3} {s t} (e : execQuadratureTransition a0 a1 a2 a3 s = .next t) : SameMem s.chip t.chip :=
  onChip_sameMem e fun _ => quadTransition_sameMem

theorem execQueueFlush_keepsWf {a0 a1} {s t} (e : execQueueFlush a0 a1 s = .next t) : KeepsWf s.chip t.chip :=
  onChip_keepsWf e fun _ => regWrite_keepsWf

theorem execQueueScrub_sameMem {s t} (e : execQueueScrub s = .next t) : SameMem s.chip t.chip :=
  onChip_sameMem e fun _ => queueScrub_sameMem

theorem execReadReg_keepsWf {s t} (e : execReadReg s = .next t) : KeepsWf s.chip t.chip :=
  onChip_keepsWf e fun _ => (runCommand_keepsWf (fun _ _ h0 => (.of readReg_keepsWf h0)))

theorem execRecordClear_keepsWf {s t} (e : execRecordClear s = .next t) : KeepsWf s.chip t.chip :=
  onChip_keepsWf e fun _ => (runCommand_keepsWf (fun _ _ h0 => (.of recordClear_keepsWf h0)))

theorem execRecordRead_sameMem {s t} (e : execRecordRead s = .next t) : SameMem s.chip t.chip :=
  onChip_sameMem e fun _ => (runCommand_sameMem (fun _ _ h0 => (.of recordRead_sameMem h0)))

theorem execRecordStoreDone_keepsWf {a0} {s t} (e : execRecordStoreDone a0 s = .next t) : KeepsWf s.chip t.chip :=
  onChip_keepsWf e fun _ => recordStoreDone_keepsWf

theorem execRecordSubmit_keepsWf {s t} (e : execRecordSubmit s = .next t) : KeepsWf s.chip t.chip :=
  onChip_keepsWf e fun _ => regWrite_keepsWf

theorem execRecordWrite_keepsWf {a0} {s t} (e : execRecordWrite a0 s = .next t) : KeepsWf s.chip t.chip :=
  onChip_keepsWf e fun _ => (runCommand_keepsWf (fun _ _ h0 => (.of recordWrite_keepsWf h0)))

theorem execRecorderClear_keepsWf {s t} (e : execRecorderClear s = .next t) : KeepsWf s.chip t.chip :=
  onChip_keepsWf e fun _ => regWrite_keepsWf

theorem execRecorderClearDone_keepsWf {a0} {s t} (e : execRecorderClearDone a0 s = .next t) : KeepsWf s.chip t.chip :=
  onChip_keepsWf e fun _ => recorderClearDone_keepsWf

theorem execRecorderScanDone_keepsWf {a0 a1} {s t} (e : execRecorderScanDone a0 a1 s = .next t) : KeepsWf s.chip t.chip :=
  onSupply_keepsWf e fun _ => recorderScanDone_keepsWf

theorem execRecorderStatus_keepsWf {s t} (e : execRecorderStatus s = .next t) : KeepsWf s.chip t.chip :=
  onChip_keepsWf e fun _ => (runCommand_keepsWf (fun _ _ h0 => (.of recorderStatus_keepsWf h0)))

theorem execRecoveryResetTimeout_sameMem {a0} {s t} (e : execRecoveryResetTimeout a0 s = .next t) : SameMem s.chip t.chip :=
  onChip_sameMem e fun _ => recoveryReset_sameMem

theorem execReftoExpiry_sameMem {a0} {s t} (e : execReftoExpiry a0 s = .next t) : SameMem s.chip t.chip :=
  onChip_sameMem e fun _ => reftoExpiry_sameMem

theorem execRegisterWrite_keepsWf {a0 a1 a2 a3} {s t} (e : execRegisterWrite a0 a1 a2 a3 s = .next t) : KeepsWf s.chip t.chip :=
  onChip_keepsWf e fun _ => registerWrite_keepsWf

theorem execReplyDoorbell_keepsWf {a0 a1} {s t} (e : execReplyDoorbell a0 a1 s = .next t) : KeepsWf s.chip t.chip :=
  onChip_keepsWf e fun _ => regWrite_keepsWf

theorem execReplyPost_keepsWf {s t} (e : execReplyPost s = .next t) : KeepsWf s.chip t.chip :=
  onChip_keepsWf e fun _ => replyPost_keepsWf

theorem execReplySignal_keepsWf {s t} (e : execReplySignal s = .next t) : KeepsWf s.chip t.chip :=
  onChip_keepsWf e fun _ => regWrite_keepsWf

theorem execResetExit_sameMem {a0 a1} {s t} (e : execResetExit a0 a1 s = .next t) : SameMem s.chip t.chip :=
  onSupply_sameMem e fun _ => resetExit_sameMem

theorem execResetSubsystem_keepsWf {s t} (e : execResetSubsystem s = .next t) : KeepsWf s.chip t.chip :=
  onChip_keepsWf e fun _ => (runCommand_keepsWf (fun _ _ h0 => (.of resetSubsystem_keepsWf h0)))

theorem execRoleLockExpiry_sameMem {a0} {s t} (e : execRoleLockExpiry a0 s = .next t) : SameMem s.chip t.chip :=
  onChip_sameMem e fun _ => roleLockExpiry_sameMem

theorem execRouteWrite_keepsWf {a0 a1 a2} {s t} (e : execRouteWrite a0 a1 a2 s = .next t) : KeepsWf s.chip t.chip :=
  onChip_keepsWf e fun _ => regWrite_keepsWf

theorem execRqConsWrite_keepsWf {a0 a1 a2} {s t} (e : execRqConsWrite a0 a1 a2 s = .next t) : KeepsWf s.chip t.chip :=
  onChip_keepsWf e fun _ => regWrite_keepsWf

theorem execRqDelivery_keepsWf {s t} (e : execRqDelivery s = .next t) : KeepsWf s.chip t.chip :=
  onChip_keepsWf e fun _ => rqDelivery_keepsWf

theorem execRxLpiSignal_sameMem {a0 a1} {s t} (e : execRxLpiSignal a0 a1 s = .next t) : SameMem s.chip t.chip :=
  onChip_sameMem e fun _ => rxLpi_sameMem

theorem execSampleOutRead_keepsWf {a0 a1} {s t} (e : execSampleOutRead a0 a1 s = .next t) : KeepsWf s.chip t.chip :=
  onChip_keepsWf e fun _ => regRead_keepsWf

theorem execSampleSubmit_keepsWf {a0 a1 a2} {s t} (e : execSampleSubmit a0 a1 a2 s = .next t) : KeepsWf s.chip t.chip :=
  onChip_keepsWf e fun _ => regWrite_keepsWf

theorem execScheduleLoad_keepsWf {s t} (e : execScheduleLoad s = .next t) : KeepsWf s.chip t.chip :=
  onChip_keepsWf e fun _ => (runCommand_keepsWf (fun _ _ h0 => (.of scheduleLoad_keepsWf h0)))

theorem execScheduleSwitch_keepsWf {s t} (e : execScheduleSwitch s = .next t) : KeepsWf s.chip t.chip :=
  onChip_keepsWf e fun _ => (runCommand_keepsWf (fun _ _ h0 => (.of scheduleSwitch_keepsWf h0)))

theorem execScrubLine_sameMem {s t} (e : execScrubLine s = .next t) : SameMem s.chip t.chip :=
  onChip_sameMem e fun _ => scrubLine_sameMem

theorem execSecJobDone_keepsWf {s t} (e : execSecJobDone s = .next t) : KeepsWf s.chip t.chip :=
  onChip_keepsWf e fun _ => secJobDone_keepsWf

theorem execSecJobGo_keepsWf {s t} (e : execSecJobGo s = .next t) : KeepsWf s.chip t.chip :=
  onChip_keepsWf e fun _ => regWrite_keepsWf

theorem execSelectDomain_keepsWf {s t} (e : execSelectDomain s = .next t) : KeepsWf s.chip t.chip :=
  onChip_keepsWf e fun _ => (runCommand_keepsWf (fun _ _ h0 => (.of selectDomain_keepsWf h0)))

theorem execSeqConfigWrite_keepsWf {a0 a1 a2} {s t} (e : execSeqConfigWrite a0 a1 a2 s = .next t) : KeepsWf s.chip t.chip :=
  onChip_keepsWf e fun _ => regWrite_keepsWf

theorem execSequencerPgFall_sameMem {a0} {s t} (e : execSequencerPgFall a0 s = .next t) : SameMem s.chip t.chip :=
  onBoard_sameMem e fun _ => seqPgFall_sameMem

theorem execSequencerPgRise_sameMem {a0} {s t} (e : execSequencerPgRise a0 s = .next t) : SameMem s.chip t.chip :=
  onBoard_sameMem e fun _ => seqPgRise_sameMem

theorem execSequencerPgTimeout_sameMem {a0} {s t} (e : execSequencerPgTimeout a0 s = .next t) : SameMem s.chip t.chip :=
  onSupply_sameMem e fun _ => seqPgTimeout_sameMem

theorem execSequencerRetry_sameMem {s t} (e : execSequencerRetry s = .next t) : SameMem s.chip t.chip :=
  onSupply_sameMem e fun _ => seqRetry_sameMem

theorem execSequencerStepEnable_sameMem {s t} (e : execSequencerStepEnable s = .next t) : SameMem s.chip t.chip :=
  onSupply_sameMem e fun _ => seqEnable_sameMem

theorem execSessionProofTimeout_sameMem {a0} {s t} (e : execSessionProofTimeout a0 s = .next t) : SameMem s.chip t.chip :=
  onChip_sameMem e fun _ => sessionTimeout_sameMem

theorem execSetPassword_sameMem {s t} (e : execSetPassword s = .next t) : SameMem s.chip t.chip :=
  onChip_sameMem e fun _ => (runCommand_sameMem (fun _ _ h0 => (.of setPasswordCmd_sameMem h0)))

theorem execSetState_keepsWf {a0} {s t} (e : execSetState a0 s = .next t) : KeepsWf s.chip t.chip :=
  onChip_keepsWf e fun _ => (runCommand_keepsWf (fun _ _ h0 => (.of setStateCmd_keepsWf h0)))

theorem execSetposCommit_keepsWf {a0 a1 a2} {s t} (e : execSetposCommit a0 a1 a2 s = .next t) : KeepsWf s.chip t.chip :=
  onChip_keepsWf e fun _ => regWrite_keepsWf

theorem execShaftConfig_keepsWf {s t} (e : execShaftConfig s = .next t) : KeepsWf s.chip t.chip :=
  onChip_keepsWf e fun _ => (runCommand_keepsWf (fun _ _ h0 => (.of shaftConfig_keepsWf h0)))

theorem execShaftFollow_keepsWf {a0 a1 a2} {s t} (e : execShaftFollow a0 a1 a2 s = .next t) : KeepsWf s.chip t.chip :=
  onChip_keepsWf e fun _ => regWrite_keepsWf

theorem execShaftIdle_keepsWf {a0 a1 a2} {s t} (e : execShaftIdle a0 a1 a2 s = .next t) : KeepsWf s.chip t.chip :=
  onChip_keepsWf e fun _ => regWrite_keepsWf

theorem execShaftMaster_keepsWf {a0 a1 a2} {s t} (e : execShaftMaster a0 a1 a2 s = .next t) : KeepsWf s.chip t.chip :=
  onChip_keepsWf e fun _ => regWrite_keepsWf

theorem execShaftMasterProfile_keepsWf {s t} (e : execShaftMasterProfile s = .next t) : KeepsWf s.chip t.chip :=
  onChip_keepsWf e fun _ => (runCommand_keepsWf (fun _ _ h0 => (.of shaftMasterProfile_keepsWf h0)))

theorem execShaftStatus_keepsWf {s t} (e : execShaftStatus s = .next t) : KeepsWf s.chip t.chip :=
  onChip_keepsWf e fun _ => (runCommand_keepsWf (fun _ _ h0 => (.of shaftStatus_keepsWf h0)))

theorem execSkIn_sameMem {a0 a1} {s t} (e : execSkIn a0 a1 s = .next t) : SameMem s.chip t.chip :=
  onChip_sameMem e fun _ => skIn_sameMem

theorem execSkIrq_sameMem {a0} {s t} (e : execSkIrq a0 s = .next t) : SameMem s.chip t.chip :=
  onChip_sameMem e fun _ => skIrq_sameMem

theorem execSkJmp_sameMem {a0 a1} {s t} (e : execSkJmp a0 a1 s = .next t) : SameMem s.chip t.chip :=
  onChip_sameMem e fun _ => skJmp_sameMem

theorem execSkMov_sameMem {a0 a1} {s t} (e : execSkMov a0 a1 s = .next t) : SameMem s.chip t.chip :=
  onChip_sameMem e fun _ => skMov_sameMem

theorem execSkOut_sameMem {a0} {s t} (e : execSkOut a0 s = .next t) : SameMem s.chip t.chip :=
  onChip_sameMem e fun _ => skOut_sameMem

theorem execSkPull_sameMem {a0} {s t} (e : execSkPull a0 s = .next t) : SameMem s.chip t.chip :=
  onChip_sameMem e fun _ => skPull_sameMem

theorem execSkPush_sameMem {a0} {s t} (e : execSkPush a0 s = .next t) : SameMem s.chip t.chip :=
  onChip_sameMem e fun _ => skPush_sameMem

theorem execSkSet_sameMem {a0} {s t} (e : execSkSet a0 s = .next t) : SameMem s.chip t.chip :=
  onChip_sameMem e fun _ => skSet_sameMem

theorem execSkStallRelease_sameMem {a0} {s t} (e : execSkStallRelease a0 s = .next t) : SameMem s.chip t.chip :=
  onChip_sameMem e fun _ => skStallRelease_sameMem

theorem execSkStamp_sameMem {a0} {s t} (e : execSkStamp a0 s = .next t) : SameMem s.chip t.chip :=
  onChip_sameMem e fun _ => skStamp_sameMem

theorem execSkWait_sameMem {a0 a1} {s t} (e : execSkWait a0 a1 s = .next t) : SameMem s.chip t.chip :=
  onChip_sameMem e fun _ => skWait_sameMem

theorem execSkWaitEnd_sameMem {a0 a1} {s t} (e : execSkWaitEnd a0 a1 s = .next t) : SameMem s.chip t.chip :=
  onChip_sameMem e fun _ => skWaitEnd_sameMem

theorem execSkWaitTimeout_sameMem {a0 a1} {s t} (e : execSkWaitTimeout a0 a1 s = .next t) : SameMem s.chip t.chip :=
  onChip_sameMem e fun _ => skWaitTimeout_sameMem

theorem execSkipperDisable_keepsWf {a0 a1 a2} {s t} (e : execSkipperDisable a0 a1 a2 s = .next t) : KeepsWf s.chip t.chip :=
  onChip_keepsWf e fun _ => regWrite_keepsWf

theorem execSkipperEnable_keepsWf {a0 a1 a2} {s t} (e : execSkipperEnable a0 a1 a2 s = .next t) : KeepsWf s.chip t.chip :=
  onChip_keepsWf e fun _ => regWrite_keepsWf

theorem execSkipperRestart_keepsWf {a0 a1 a2} {s t} (e : execSkipperRestart a0 a1 a2 s = .next t) : KeepsWf s.chip t.chip :=
  onChip_keepsWf e fun _ => regWrite_keepsWf

theorem execSlotWindowOpen_sameMem {a0} {s t} (e : execSlotWindowOpen a0 s = .next t) : SameMem s.chip t.chip :=
  onChip_sameMem e fun _ => slotWindowOpen_sameMem

theorem execSoftwareReset_keepsWf {s t} (e : execSoftwareReset s = .next t) : KeepsWf s.chip t.chip :=
  onChip_keepsWf e fun _ => regWrite_keepsWf

theorem execSplitRegisterLatch_keepsWf {a0 a1 a2} {s t} (e : execSplitRegisterLatch a0 a1 a2 s = .next t) : KeepsWf s.chip t.chip :=
  onChip_keepsWf e fun _ => registerRead_keepsWf

theorem execStampConfig_keepsWf {s t} (e : execStampConfig s = .next t) : KeepsWf s.chip t.chip :=
  onChip_keepsWf e fun _ => (runCommand_keepsWf (fun _ _ h0 => (.of stampConfig_keepsWf h0)))

theorem execStampInputEdge_sameMem {a0 a1 a2 a3} {s t} (e : execStampInputEdge a0 a1 a2 a3 s = .next t) : SameMem s.chip t.chip :=
  onChip_sameMem e fun _ => stampEdge_sameMem

theorem execStampRingEntry_sameMem {s t} (e : execStampRingEntry s = .next t) : SameMem s.chip t.chip :=
  onChip_sameMem e fun _ => ringEntry_sameMem

theorem execStampRingPop_keepsWf {a0 a1} {s t} (e : execStampRingPop a0 a1 s = .next t) : KeepsWf s.chip t.chip :=
  onChip_keepsWf e fun _ => regWrite_keepsWf

theorem execStampToAngleDone_sameMem {a0} {s t} (e : execStampToAngleDone a0 s = .next t) : SameMem s.chip t.chip :=
  onChip_sameMem e fun _ => s2aDone_sameMem

theorem execStampToAngleStart_keepsWf {a0 a1 a2} {s t} (e : execStampToAngleStart a0 a1 a2 s = .next t) : KeepsWf s.chip t.chip :=
  onChip_keepsWf e fun _ => regWrite_keepsWf

theorem execStartEngine_keepsWf {s t} (e : execStartEngine s = .next t) : KeepsWf s.chip t.chip :=
  onChip_keepsWf e fun _ => (runCommand_keepsWf (fun _ _ h0 => (.of startEngineCmd_keepsWf h0)))

theorem execStartWindowExpiry_sameMem {a0} {s t} (e : execStartWindowExpiry a0 s = .next t) : SameMem s.chip t.chip :=
  onChip_sameMem e fun _ => canStartExpiry_sameMem

theorem execStationReport_keepsWf {a0 a1} {s t} (e : execStationReport a0 a1 s = .next t) : KeepsWf s.chip t.chip :=
  onChip_keepsWf e fun _ => regWrite_keepsWf

theorem execStepPulse_sameMem {a0} {s t} (e : execStepPulse a0 s = .next t) : SameMem s.chip t.chip :=
  onChip_sameMem e fun _ => stepPulse_sameMem

theorem execStopEngine_keepsWf {s t} (e : execStopEngine s = .next t) : KeepsWf s.chip t.chip :=
  onChip_keepsWf e fun _ => (runCommand_keepsWf (fun _ _ h0 => (.of stopEngineCmd_keepsWf h0)))

theorem execStreamGateEntry_sameMem {a0} {s t} (e : execStreamGateEntry a0 s = .next t) : SameMem s.chip t.chip :=
  onChip_sameMem e fun _ => streamGateEntry_sameMem

theorem execSwapGo_keepsWf {s t} (e : execSwapGo s = .next t) : KeepsWf s.chip t.chip :=
  onChip_keepsWf e fun _ => regWrite_keepsWf

theorem execSwapQuietPoint_keepsWf {s t} (e : execSwapQuietPoint s = .next t) : KeepsWf s.chip t.chip :=
  onChip_keepsWf e fun _ => swapQuietPoint_keepsWf

theorem execSwitchConfig_keepsWf {s t} (e : execSwitchConfig s = .next t) : KeepsWf s.chip t.chip :=
  onChip_keepsWf e fun _ => (runCommand_keepsWf (fun _ _ h0 => (.of switchConfig_keepsWf h0)))

theorem execSyncTimeout_sameMem {a0} {s t} (e : execSyncTimeout a0 s = .next t) : SameMem s.chip t.chip :=
  onChip_sameMem e fun _ => syncTimeout_sameMem

theorem execSysStateWrite_keepsWf {a0 a1} {s t} (e : execSysStateWrite a0 a1 s = .next t) : KeepsWf s.chip t.chip :=
  onChip_keepsWf e fun _ => regWrite_keepsWf

theorem execTableClear_keepsWf {a0 a1 a2} {s t} (e : execTableClear a0 a1 a2 s = .next t) : KeepsWf s.chip t.chip :=
  onChip_keepsWf e fun _ => regWrite_keepsWf

theorem execTableOpDone_sameMem {s t} (e : execTableOpDone s = .next t) : SameMem s.chip t.chip :=
  onChip_sameMem e fun _ => tableOpDone_sameMem

theorem execTableRead_keepsWf {a0 a1 a2} {s t} (e : execTableRead a0 a1 a2 s = .next t) : KeepsWf s.chip t.chip :=
  onChip_keepsWf e fun _ => regWrite_keepsWf

theorem execTableSearch_keepsWf {a0 a1 a2} {s t} (e : execTableSearch a0 a1 a2 s = .next t) : KeepsWf s.chip t.chip :=
  onChip_keepsWf e fun _ => regWrite_keepsWf

theorem execTableWrite_keepsWf {a0 a1 a2} {s t} (e : execTableWrite a0 a1 a2 s = .next t) : KeepsWf s.chip t.chip :=
  onChip_keepsWf e fun _ => regWrite_keepsWf

theorem execTapInstructionUpdate_keepsWf {a0} {s t} (e : execTapInstructionUpdate a0 s = .next t) : KeepsWf s.chip t.chip :=
  onSupply_keepsWf e fun _ => tapInstruction_keepsWf

theorem execTapReset_keepsWf {s t} (e : execTapReset s = .next t) : KeepsWf s.chip t.chip :=
  onSupply_keepsWf e fun _ => tapReset_keepsWf

theorem execTaskReleaseWrite_keepsWf {a0 a1} {s t} (e : execTaskReleaseWrite a0 a1 s = .next t) : KeepsWf s.chip t.chip :=
  onChip_keepsWf e fun _ => regWrite_keepsWf

theorem execTemperatureLimit_sameMem {a0} {s t} (e : execTemperatureLimit a0 s = .next t) : SameMem s.chip t.chip :=
  onSupply_sameMem e fun _ => temperature_sameMem

theorem execTimedOutputArm_keepsWf {a0 a1 a2} {s t} (e : execTimedOutputArm a0 a1 a2 s = .next t) : KeepsWf s.chip t.chip :=
  onChip_keepsWf e fun _ => regWrite_keepsWf

theorem execTimedOutputCancel_keepsWf {a0 a1 a2} {s t} (e : execTimedOutputCancel a0 a1 a2 s = .next t) : KeepsWf s.chip t.chip :=
  onChip_keepsWf e fun _ => regWrite_keepsWf

theorem execTimedOutputEdge_sameMem {a0} {s t} (e : execTimedOutputEdge a0 s = .next t) : SameMem s.chip t.chip :=
  onChip_sameMem e fun _ => toEdge_sameMem

theorem execTmuTick_sameMem {s t} (e : execTmuTick s = .next t) : SameMem s.chip t.chip :=
  onChip_sameMem e fun _ => tmuTick_sameMem

theorem execTqDescriptorServe_keepsWf {a0} {s t} (e : execTqDescriptorServe a0 s = .next t) : KeepsWf s.chip t.chip :=
  onChip_keepsWf e fun _ => tqServe_keepsWf

theorem execTqPushWrite_keepsWf {a0 a1 a2} {s t} (e : execTqPushWrite a0 a1 a2 s = .next t) : KeepsWf s.chip t.chip :=
  onChip_keepsWf e fun _ => regWrite_keepsWf

theorem execTrngDelivery_sameMem {a0} {s t} (e : execTrngDelivery a0 s = .next t) : SameMem s.chip t.chip :=
  onChip_sameMem e fun _ => trngDeliver_sameMem

theorem execTrngHealthFail_sameMem {s t} (e : execTrngHealthFail s = .next t) : SameMem s.chip t.chip :=
  onChip_sameMem e fun _ => trngFail_sameMem

theorem execTrngRead_keepsWf {s t} (e : execTrngRead s = .next t) : KeepsWf s.chip t.chip :=
  onChip_keepsWf e fun _ => regRead_keepsWf

theorem execTrngRestart_keepsWf {s t} (e : execTrngRestart s = .next t) : KeepsWf s.chip t.chip :=
  onChip_keepsWf e fun _ => regWrite_keepsWf

theorem execTskDiagWrite_keepsWf {a0 a1} {s t} (e : execTskDiagWrite a0 a1 s = .next t) : KeepsWf s.chip t.chip :=
  onChip_keepsWf e fun _ => regWrite_keepsWf

theorem execTskModeRun_keepsWf {s t} (e : execTskModeRun s = .next t) : KeepsWf s.chip t.chip :=
  onChip_keepsWf e fun _ => regWrite_keepsWf

theorem execTskModeStartup_keepsWf {s t} (e : execTskModeStartup s = .next t) : KeepsWf s.chip t.chip :=
  onChip_keepsWf e fun _ => regWrite_keepsWf

theorem execTskModeStop_keepsWf {s t} (e : execTskModeStop s = .next t) : KeepsWf s.chip t.chip :=
  onChip_keepsWf e fun _ => regWrite_keepsWf

theorem execTskModeTest_keepsWf {s t} (e : execTskModeTest s = .next t) : KeepsWf s.chip t.chip :=
  onChip_keepsWf e fun _ => regWrite_keepsWf

theorem execUlpEchoRequest_sameMem {a0 a1 a2 a3} {s t} (e : execUlpEchoRequest a0 a1 a2 a3 s = .next t) : SameMem s.chip t.chip :=
  onChip_sameMem e fun _ => ulpEchoRequest_sameMem

theorem execUnitPowerUpDone_keepsWf {a0} {s t} (e : execUnitPowerUpDone a0 s = .next t) : KeepsWf s.chip t.chip :=
  onChip_keepsWf e fun _ => unitPowerUp_keepsWf

theorem execValueChange_keepsWf {s t} (e : execValueChange s = .next t) : KeepsWf s.chip t.chip :=
  onChip_keepsWf e fun _ => (runCommand_keepsWf (fun _ _ h0 => (.of valueChange_keepsWf h0)))

theorem execVcApply_keepsWf {a0 a1} {s t} (e : execVcApply a0 a1 s = .next t) : KeepsWf s.chip t.chip :=
  onChip_keepsWf e fun _ => regWrite_keepsWf

theorem execVcPush_keepsWf {s t} (e : execVcPush s = .next t) : KeepsWf s.chip t.chip :=
  onChip_keepsWf e fun _ => regWrite_keepsWf

theorem execWaitTimeout_keepsWf {a0 a1} {s t} (e : execWaitTimeout a0 a1 s = .next t) : KeepsWf s.chip t.chip :=
  onChip_keepsWf e fun _ => waitTimeout_keepsWf

theorem execWaitWake_keepsWf {a0 a1} {s t} (e : execWaitWake a0 a1 s = .next t) : KeepsWf s.chip t.chip :=
  onChip_keepsWf e fun _ => waitWake_keepsWf

theorem execWakeComplete_sameMem {a0} {s t} (e : execWakeComplete a0 s = .next t) : SameMem s.chip t.chip :=
  onChip_sameMem e fun _ => wakeComplete_sameMem

theorem execWatchdogHalf_sameMem {s t} (e : execWatchdogHalf s = .next t) : SameMem s.chip t.chip :=
  onChip_sameMem e fun _ => wdHalf_sameMem

theorem execWatchdogKick_keepsWf {a0 a1} {s t} (e : execWatchdogKick a0 a1 s = .next t) : KeepsWf s.chip t.chip :=
  onChip_keepsWf e fun _ => regWrite_keepsWf

theorem execWatchdogReset_keepsWf {s t} (e : execWatchdogReset s = .next t) : KeepsWf s.chip t.chip :=
  onChip_keepsWf e fun _ => wdReset_keepsWf

theorem execWriteReg_keepsWf {s t} (e : execWriteReg s = .next t) : KeepsWf s.chip t.chip :=
  onChip_keepsWf e fun _ => (runCommand_keepsWf (fun _ _ h0 => (.of writeReg_keepsWf h0)))

theorem execXdmArmedTimeout_keepsWf {a0} {s t} (e : execXdmArmedTimeout a0 s = .next t) : KeepsWf s.chip t.chip :=
  onChip_keepsWf e fun _ => armedTimeout_keepsWf

theorem execXdmDescriptorStart_keepsWf {a0} {s t} (e : execXdmDescriptorStart a0 s = .next t) : KeepsWf s.chip t.chip :=
  onChip_keepsWf e fun _ => descriptorStart_keepsWf

theorem execXdmGo_keepsWf {a0 a1 a2} {s t} (e : execXdmGo a0 a1 a2 s = .next t) : KeepsWf s.chip t.chip :=
  onChip_keepsWf e fun _ => regWrite_keepsWf

theorem execXdmStop_keepsWf {a0 a1 a2} {s t} (e : execXdmStop a0 a1 a2 s = .next t) : KeepsWf s.chip t.chip :=
  onChip_keepsWf e fun _ => regWrite_keepsWf

theorem execXdmTimeTrigger_sameMem {a0} {s t} (e : execXdmTimeTrigger a0 s = .next t) : SameMem s.chip t.chip :=
  onChip_sameMem e fun _ => timeTrigger_sameMem

theorem execXdmTrigWrite_keepsWf {a0 a1 a2} {s t} (e : execXdmTrigWrite a0 a1 a2 s = .next t) : KeepsWf s.chip t.chip :=
  onChip_keepsWf e fun _ => regWrite_keepsWf

theorem execXdmTrigtCommit_keepsWf {a0 a1 a2} {s t} (e : execXdmTrigtCommit a0 a1 a2 s = .next t) : KeepsWf s.chip t.chip :=
  onChip_keepsWf e fun _ => regWrite_keepsWf

theorem execXdmUnit_keepsWf {s t} (e : execXdmUnit s = .next t) : KeepsWf s.chip t.chip :=
  onChip_keepsWf e fun _ => xdmUnit_keepsWf

theorem execXspiRead_keepsWf {a0 a1} {s t} (e : execXspiRead a0 a1 s = .next t) : KeepsWf s.chip t.chip :=
  onChip_keepsWf e fun _ => xspiRead_keepsWf

theorem execXspiStatus_sameMem {s t} (e : execXspiStatus s = .next t) : SameMem s.chip t.chip :=
  onChip_sameMem e fun _ => xspiStatus_sameMem

theorem execXspiWrite_keepsWf {a0 a1} {s t} (e : execXspiWrite a0 a1 s = .next t) : KeepsWf s.chip t.chip :=
  onChip_keepsWf e fun _ => xspiWrite_keepsWf

end Sys2Proof.Machine
end

