-- ==== Sys2Proof/Laws/Route.lean ====
section
/-!
SUPPORT. Where each register's write and read goes: one lemma per register that a command names, from the fabric's
`regWrite` and `regRead` to the block's own operation. Proofs about commands cite these and unfold no address decoding.
-/
set_option linter.unusedSimpArgs false

namespace Sys2Proof.Machine

variable {c : Chip} {m : Nat} {v : W32}

theorem regWrite_once {a : Nat} (h : a ≠ XDM_FRZ_RESOLVE) : regWrite c m a v = regWriteOnce c m a v := by
  unfold regWrite
  simp only [if_neg h]

/-- A row of a register map lists an address: the row's index, its block and the register of the block. -/
theorem listed {rows : List RegRow} {a : Nat} (k i j b n1 s1 n2 s2 : Nat)
    (hk : rows[k]?.map (fun r => (r.base, r.count, r.stride, r.count2, r.stride2)) = some (b, n1, s1, n2, s2))
    (hi : i < n1) (hj : j < n2)
    (hs : (s1 = 0 ∧ n1 = 1 ∨ (n2 - 1) * s2 < s1) ∧ (s2 = 0 ∧ n2 = 1 ∨ 0 < s2)) (e : a = b + i * s1 + j * s2) :
    (rows.any fun r => r.covers a) = true := by
  obtain ⟨r, hr, hv⟩ := Option.map_eq_some_iff.1 hk
  obtain ⟨rfl, rfl, rfl, rfl, rfl⟩ : r.base = b ∧ r.count = n1 ∧ r.stride = s1 ∧ r.count2 = n2 ∧ r.stride2 = s2 := by
    simpa using hv
  refine List.any_eq_true.2 ⟨r, List.mem_of_getElem? hr, ?_⟩
  have hj' : j * r.stride2 ≤ (r.count2 - 1) * r.stride2 := Nat.mul_le_mul_right _ (by omega)
  have hd : a - r.base = i * r.stride + j * r.stride2 := by omega
  have hq : (i * r.stride + j * r.stride2) / r.stride = i := by
    rcases hs.1 with ⟨h0, h1⟩ | h
    · rw [h0, Nat.div_zero]; omega
    · rw [Nat.add_comm, Nat.add_mul_div_right _ _ (by omega), Nat.div_eq_of_lt (by omega), Nat.zero_add]
  have hm : j * r.stride2 / r.stride2 = j := by
    rcases hs.2 with ⟨h0, h1⟩ | h
    · rw [h0, Nat.div_zero]; omega
    · exact Nat.mul_div_cancel _ h
  unfold RegRow.covers
  simp only [hd, hq, Nat.add_sub_cancel_left, hm, Nat.sub_self]
  simp only [hi, hj, decide_true, Bool.and_true, decide_eq_true_eq]
  omega

theorem regRow_some {a : Nat} {rows : List RegRow} (h : regRowsOf a = rows) (r : (rows.any fun r => r.covers a) = true) :
    (regRow a).isNone = false := by
  unfold regRow
  rw [h, Option.isNone_eq_false_iff, List.find?_isSome]
  exact List.any_eq_true.1 r

theorem clusterGated_not {a : Nat} (h : a / 0x10000 ≠ 0x400B) : c.clusterGated a = false := by
  unfold Chip.clusterGated
  rw [if_pos h]

theorem regWrite_window0 {a : Nat} (h : a / 0x10000 = 0x4000)
    (r : (regRowsSys.any fun r => r.covers a) = true) : regWrite c m a v = sysWrite c m a v := by
  rw [regWrite_once (by unfold XDM_FRZ_RESOLVE; omega)]
  unfold regWriteOnce
  rw [clusterGated_not (by omega), regRow_some (by unfold regRowsOf; rw [h]; rfl) r, Bool.or_false, if_neg Bool.false_ne_true,
    show a / 0x10000 % 0x100 = 0 by omega]
  simp [windowWrite]

theorem regWrite_window1 {a : Nat} (h : a / 0x10000 = 0x4001)
    (r : (regRowsPwr.any fun r => r.covers a) = true) : regWrite c m a v = pwrWrite c m a v := by
  rw [regWrite_once (by unfold XDM_FRZ_RESOLVE; omega)]
  unfold regWriteOnce
  rw [clusterGated_not (by omega), regRow_some (by unfold regRowsOf; rw [h]; rfl) r, Bool.or_false, if_neg Bool.false_ne_true,
    show a / 0x10000 % 0x100 = 1 by omega]
  simp [windowWrite]

theorem regWrite_window2 {a : Nat} (h : a / 0x10000 = 0x4002)
    (r : (regRowsTmu.any fun r => r.covers a) = true) : regWrite c m a v = tmuWrite c m a v := by
  rw [regWrite_once (by unfold XDM_FRZ_RESOLVE; omega)]
  unfold regWriteOnce
  rw [clusterGated_not (by omega), regRow_some (by unfold regRowsOf; rw [h]; rfl) r, Bool.or_false, if_neg Bool.false_ne_true,
    show a / 0x10000 % 0x100 = 2 by omega]
  simp [windowWrite]

theorem regWrite_window3 {a : Nat} (h : a / 0x10000 = 0x4003)
    (r : (regRowsAng.any fun r => r.covers a) = true) : regWrite c m a v = angWrite c m a v := by
  rw [regWrite_once (by unfold XDM_FRZ_RESOLVE; omega)]
  unfold regWriteOnce
  rw [clusterGated_not (by omega), regRow_some (by unfold regRowsOf; rw [h]; rfl) r, Bool.or_false, if_neg Bool.false_ne_true,
    show a / 0x10000 % 0x100 = 3 by omega]
  simp [windowWrite]

theorem regWrite_window4 {a : Nat} (h : a / 0x10000 = 0x4004)
    (r : (regRowsEth.any fun r => r.covers a) = true) : regWrite c m a v = ethWrite c m a v := by
  rw [regWrite_once (by unfold XDM_FRZ_RESOLVE; omega)]
  unfold regWriteOnce
  rw [clusterGated_not (by omega), regRow_some (by unfold regRowsOf; rw [h]; rfl) r, Bool.or_false, if_neg Bool.false_ne_true,
    show a / 0x10000 % 0x100 = 4 by omega]
  simp [windowWrite]

theorem regWrite_window6 {a : Nat} (h : a / 0x10000 = 0x4006)
    (r : (regRowsSwx.any fun r => r.covers a) = true) : regWrite c m a v = swxWrite c m a v := by
  rw [regWrite_once (by unfold XDM_FRZ_RESOLVE; omega)]
  unfold regWriteOnce
  rw [clusterGated_not (by omega), regRow_some (by unfold regRowsOf; rw [h]; rfl) r, Bool.or_false, if_neg Bool.false_ne_true,
    show a / 0x10000 % 0x100 = 6 by omega]
  simp [windowWrite]

theorem regWrite_window8 {a : Nat} (h : a / 0x10000 = 0x4008)
    (r : (regRowsCan.any fun r => r.covers a) = true) : regWrite c m a v = canWrite c m a v := by
  rw [regWrite_once (by unfold XDM_FRZ_RESOLVE; omega)]
  unfold regWriteOnce
  rw [clusterGated_not (by omega), regRow_some (by unfold regRowsOf; rw [h]; rfl) r, Bool.or_false, if_neg Bool.false_ne_true,
    show a / 0x10000 % 0x100 = 8 by omega]
  simp [windowWrite]

theorem regWrite_window9 {a : Nat} (h : a / 0x10000 = 0x4009)
    (r : (regRowsCan.any fun r => r.covers a) = true) : regWrite c m a v = canWrite c m a v := by
  rw [regWrite_once (by unfold XDM_FRZ_RESOLVE; omega)]
  unfold regWriteOnce
  rw [clusterGated_not (by omega), regRow_some (by unfold regRowsOf; rw [h]; rfl) r, Bool.or_false, if_neg Bool.false_ne_true,
    show a / 0x10000 % 0x100 = 9 by omega]
  simp [windowWrite]

theorem regWrite_window10 {a : Nat} (h : a / 0x10000 = 0x400A)
    (r : (regRowsMot.any fun r => r.covers a) = true) : regWrite c m a v = motWrite c m a v := by
  rw [regWrite_once (by unfold XDM_FRZ_RESOLVE; omega)]
  unfold regWriteOnce
  rw [clusterGated_not (by omega), regRow_some (by unfold regRowsOf; rw [h]; rfl) r, Bool.or_false, if_neg Bool.false_ne_true,
    show a / 0x10000 % 0x100 = 10 by omega]
  simp [windowWrite]

theorem regWrite_window12 {a : Nat} (h : a / 0x10000 = 0x400C)
    (r : (regRowsMem.any fun r => r.covers a) = true) : regWrite c m a v = memRegWrite c m a v := by
  rw [regWrite_once (by unfold XDM_FRZ_RESOLVE; omega)]
  unfold regWriteOnce
  rw [clusterGated_not (by omega), regRow_some (by unfold regRowsOf; rw [h]; rfl) r, Bool.or_false, if_neg Bool.false_ne_true,
    show a / 0x10000 % 0x100 = 12 by omega]
  simp [windowWrite]

theorem regWrite_window14 {a : Nat} (h : a / 0x10000 = 0x400E)
    (r : (regRowsCvu.any fun r => r.covers a) = true) : regWrite c m a v = cvuWrite c m a v := by
  rw [regWrite_once (by unfold XDM_FRZ_RESOLVE; omega)]
  unfold regWriteOnce
  rw [clusterGated_not (by omega), regRow_some (by unfold regRowsOf; rw [h]; rfl) r, Bool.or_false, if_neg Bool.false_ne_true,
    show a / 0x10000 % 0x100 = 14 by omega]
  simp [windowWrite]

theorem regWrite_window16 {a : Nat} (h : a / 0x10000 = 0x4010)
    (r : (regRowsSec.any fun r => r.covers a) = true) : regWrite c m a v = secRegWrite c m a v := by
  rw [regWrite_once (by unfold XDM_FRZ_RESOLVE; omega)]
  unfold regWriteOnce
  rw [clusterGated_not (by omega), regRow_some (by unfold regRowsOf; rw [h]; rfl) r, Bool.or_false, if_neg Bool.false_ne_true,
    show a / 0x10000 % 0x100 = 16 by omega]
  simp [windowWrite]

theorem regWrite_window17 {a : Nat} (h : a / 0x10000 = 0x4011)
    (r : (regRowsHif.any fun r => r.covers a) = true) : regWrite c m a v = hifWrite c m a v := by
  rw [regWrite_once (by unfold XDM_FRZ_RESOLVE; omega)]
  unfold regWriteOnce
  rw [clusterGated_not (by omega), regRow_some (by unfold regRowsOf; rw [h]; rfl) r, Bool.or_false, if_neg Bool.false_ne_true,
    show a / 0x10000 % 0x100 = 17 by omega]
  simp [windowWrite]

theorem regWrite_window18 {a : Nat} (h : a / 0x10000 = 0x4012)
    (r : (regRowsTsk.any fun r => r.covers a) = true) : regWrite c m a v = tskWrite c m a v := by
  rw [regWrite_once (by unfold XDM_FRZ_RESOLVE; omega)]
  unfold regWriteOnce
  rw [clusterGated_not (by omega), regRow_some (by unfold regRowsOf; rw [h]; rfl) r, Bool.or_false, if_neg Bool.false_ne_true,
    show a / 0x10000 % 0x100 = 18 by omega]
  simp [windowWrite]

theorem regWrite_window19 {a : Nat} (h : a / 0x10000 = 0x4013)
    (r : (regRowsPe.any fun r => r.covers a) = true) : regWrite c m a v = peWrite c m a v := by
  rw [regWrite_once (by unfold XDM_FRZ_RESOLVE; omega)]
  unfold regWriteOnce
  rw [clusterGated_not (by omega), regRow_some (by unfold regRowsOf; rw [h]; rfl) r, Bool.or_false, if_neg Bool.false_ne_true,
    show a / 0x10000 % 0x100 = 19 by omega]
  simp [windowWrite]

theorem regWrite_window20 {a : Nat} (h : a / 0x10000 = 0x4014)
    (r : (regRowsEvr.any fun r => r.covers a) = true) : regWrite c m a v = evrWrite c m a v := by
  rw [regWrite_once (by unfold XDM_FRZ_RESOLVE; omega)]
  unfold regWriteOnce
  rw [clusterGated_not (by omega), regRow_some (by unfold regRowsOf; rw [h]; rfl) r, Bool.or_false, if_neg Bool.false_ne_true,
    show a / 0x10000 % 0x100 = 20 by omega]
  simp [windowWrite]

theorem regWrite_window21 {a : Nat} (h : a / 0x10000 = 0x4015)
    (r : (regRowsTst.any fun r => r.covers a) = true) : regWrite c m a v = tstWrite c m a v := by
  rw [regWrite_once (by unfold XDM_FRZ_RESOLVE; omega)]
  unfold regWriteOnce
  rw [clusterGated_not (by omega), regRow_some (by unfold regRowsOf; rw [h]; rfl) r, Bool.or_false, if_neg Bool.false_ne_true,
    show a / 0x10000 % 0x100 = 21 by omega]
  simp [windowWrite]

theorem regWrite_window13 {a : Nat} (h : a / 0x10000 = 0x400D) (g : a ≠ XDM_FRZ_RESOLVE)
    (r : (regRowsXdm.any fun r => r.covers a) = true) : regWrite c m a v = xdmWrite c m a v := by
  rw [regWrite_once g]
  unfold regWriteOnce
  rw [clusterGated_not (by omega), regRow_some (by unfold regRowsOf; rw [h]; rfl) r, Bool.or_false, if_neg Bool.false_ne_true]
  unfold windowWrite
  simp (disch := omega) only [if_pos, if_neg]

theorem regWrite_window15 {a : Nat} (h : a / 0x10000 = 0x400F)
    (r : (regRowsMbx.any fun r => r.covers a) = true) :
    regWrite c m a v = if a < 0x400F8000 then mbxWrite c m a v else evtWrite c m a v := by
  rw [regWrite_once (by unfold XDM_FRZ_RESOLVE; omega)]
  unfold regWriteOnce
  rw [clusterGated_not (by omega), regRow_some (by unfold regRowsOf; rw [h]; rfl) r, Bool.or_false, if_neg Bool.false_ne_true]
  unfold windowWrite
  simp (disch := omega) only [if_pos, if_neg]

theorem regWrite_window11 {a : Nat} (h : a / 0x10000 = 0x400B) (g : c.clusterGated a = false)
    (r : (regRowsSkp.any fun r => r.covers a) = true) :
    regWrite c m a v = skpWrite c m a v := by
  rw [regWrite_once (by unfold XDM_FRZ_RESOLVE; omega)]
  unfold regWriteOnce
  rw [g, regRow_some (by unfold regRowsOf; rw [h]; rfl) r, Bool.or_false, if_neg Bool.false_ne_true,
    show a / 0x10000 % 0x100 = 11 by omega]
  simp [windowWrite]

theorem clusterGated_skipper {n a : Nat} (h : a = 0x400B0000 + n * 0x2000 + a % 0x2000) (hn : n < 4) :
    c.clusterGated a = !c.bit PWR_GSTAT (16 + n) := by
  unfold Chip.clusterGated
  rw [if_neg (by omega)]
  simp (disch := omega) only [if_pos]
  rw [show a % 0x10000 / 0x2000 = n by omega]

theorem clusterGated_pack {n a : Nat} (h : a = 0x400B8000 + n * 0x20 + a % 0x20) (hn : n < 32) :
    c.clusterGated a = !c.bit PWR_GSTAT (16 + n / 8) := by
  unfold Chip.clusterGated
  rw [if_neg (by omega)]
  simp (disch := omega) only [if_pos, if_neg]
  rw [show (a % 0x10000 - 0x8000) / 0x100 = n / 8 by omega]

theorem port_has (p : Fin 8) : portHas p.val 0 = true ∧ portHas p.val 0xA0 = true ∧ portHas p.val 0xA4 = true := by
  revert p
  decide

theorem domOf_at {o : Nat} (x : Fin 2) (h : (o - 0x100) / 0x80 = x.val) : domOf o = domAt x := by
  unfold domOf domAt
  have hx := x.isLt
  by_cases h0 : x.val = 0
  · rw [if_pos (by omega), if_pos h0]
  · rw [if_neg (by omega), if_neg h0]

theorem regWrite_TMU_DOMSEL : regWrite c m TMU_DOMSEL v = domselWrite c m v := by
  unfold TMU_DOMSEL
  rw [regWrite_window2 (by omega) (listed 9 0 0 0x40020024 1 0x0 1 0 rfl (by omega) (by omega) (by decide) (by omega))]
  unfold tmuWrite
  simp (disch := omega) only [if_pos, if_neg, if_true]

theorem regWrite_TMU_Dx_CMD (x : Fin 2) : regWrite c m (TMU_Dx_CMD x.val) v = domCmdWrite c m (domAt x) v := by
  have hx := x.isLt
  unfold TMU_Dx_CMD
  generalize e : 0x40020104 + x.val * 0x80 = a
  rw [regWrite_window2 (by omega) (listed 13 x.val 0 0x40020104 2 0x80 1 0 rfl (by omega) (by omega) (by decide) (by omega))]
  unfold tmuWrite
  simp (disch := omega) only [if_pos, if_neg]
  split <;> first | (exfalso; omega) | (exfalso; simp only [imp_false] at *; omega) | skip
  rw [domOf_at x (by omega)]

theorem regWrite_TMU_Dx_RATE_LO (x : Fin 2) : regWrite c m (TMU_Dx_RATE_LO x.val) v = domRateWrite c m (domAt x) v := by
  have hx := x.isLt
  unfold TMU_Dx_RATE_LO
  generalize e : 0x40020114 + x.val * 0x80 = a
  rw [regWrite_window2 (by omega) (listed 17 x.val 0 0x40020114 2 0x80 1 0 rfl (by omega) (by omega) (by decide) (by omega))]
  unfold tmuWrite
  simp (disch := omega) only [if_pos, if_neg]
  split <;> first | (exfalso; omega) | (exfalso; simp only [imp_false] at *; omega) | skip
  rw [domOf_at x (by omega)]

theorem regWrite_TMU_Dx_ADJ_LO (x : Fin 2) : regWrite c m (TMU_Dx_ADJ_LO x.val) v = domAdjWrite c m (domAt x) v := by
  have hx := x.isLt
  unfold TMU_Dx_ADJ_LO
  generalize e : 0x40020124 + x.val * 0x80 = a
  rw [regWrite_window2 (by omega) (listed 21 x.val 0 0x40020124 2 0x80 1 0 rfl (by omega) (by omega) (by decide) (by omega))]
  unfold tmuWrite
  simp (disch := omega) only [if_pos, if_neg]
  split <;> first | (exfalso; omega) | (exfalso; simp only [imp_false] at *; omega) | skip
  rw [domOf_at x (by omega)]

theorem regWrite_TMU_Dx_STEP_LO (x : Fin 2) : regWrite c m (TMU_Dx_STEP_LO x.val) v = domStepWrite c m (domAt x) v := by
  have hx := x.isLt
  unfold TMU_Dx_STEP_LO
  generalize e : 0x40020134 + x.val * 0x80 = a
  rw [regWrite_window2 (by omega) (listed 25 x.val 0 0x40020134 2 0x80 1 0 rfl (by omega) (by omega) (by decide) (by omega))]
  unfold tmuWrite
  simp (disch := omega) only [if_pos, if_neg]
  split <;> first | (exfalso; omega) | (exfalso; simp only [imp_false] at *; omega) | skip
  rw [domOf_at x (by omega)]

theorem regWrite_TMU_Pn_EQPOP (p : Fin 8) : regWrite c m (TMU_Pn_EQPOP p.val) v = egressPop c p.val v := by
  have hp := p.isLt
  unfold TMU_Pn_EQPOP
  generalize e : 0x40020410 + p.val * 0x40 = a
  rw [regWrite_window2 (by omega) (listed 35 p.val 0 0x40020410 8 0x40 1 0 rfl (by omega) (by omega) (by decide) (by omega))]
  unfold tmuWrite
  simp (disch := omega) only [if_pos, if_neg]
  rw [show (a - 0x40020000 - 0x400) / 0x40 = p.val by omega]

theorem regWrite_TMU_TSR_POP : regWrite c m TMU_TSR_POP v = ringPop c v := by
  unfold TMU_TSR_POP
  rw [regWrite_window2 (by omega) (listed 41 0 0 0x40020904 1 0x0 1 0 rfl (by omega) (by omega) (by decide) (by omega))]
  unfold tmuWrite
  simp (disch := omega) only [if_pos, if_neg, if_true]

theorem regWrite_TMU_TOn_CTL (n : Fin 32) : regWrite c m (TMU_TOn_CTL n.val) v = toCtlWrite c n.val v := by
  have hn := n.isLt
  unfold TMU_TOn_CTL
  generalize e : 0x40021004 + n.val * 0x20 = a
  rw [regWrite_window2 (by omega) (listed 46 n.val 0 0x40021004 32 0x20 1 0 rfl (by omega) (by omega) (by decide) (by omega))]
  unfold tmuWrite
  simp (disch := omega) only [if_pos, if_neg]
  split <;> first | (exfalso; omega) | (exfalso; simp only [imp_false] at *; omega) | skip
  rw [show (a - 0x40020000 - 0x1000) / 0x20 = n.val by omega]

theorem regWrite_ANG_S2As_CTL (k : Fin 4) : regWrite c m (ANG_S2As_CTL k.val) v = s2aStart c k.val v := by
  have hk := k.isLt
  unfold ANG_S2As_CTL
  generalize e : 0x40030400 + k.val * 0x20 = a
  rw [regWrite_window3 (by omega) (listed 5 k.val 0 0x40030400 4 0x20 1 0 rfl (by omega) (by omega) (by decide) (by omega))]
  unfold angWrite
  simp (disch := omega) only [if_pos, if_neg]
  rw [show (a - 0x40030000 - 0x400) / 0x20 = k.val by omega]

theorem regWrite_ANG_SHn_INCMT (n : Fin 16) : regWrite c m (ANG_SHn_INCMT n.val) v = sampleSubmit c n.val v := by
  have hn := n.isLt
  unfold ANG_SHn_INCMT
  generalize e : 0x40031064 + n.val * 0x100 = a
  rw [regWrite_window3 (by omega) (listed 29 n.val 0 0x40031064 16 0x100 1 0 rfl (by omega) (by omega) (by decide) (by omega))]
  unfold angWrite
  simp (disch := omega) only [if_pos, if_neg]
  split <;> first | (exfalso; omega) | (exfalso; simp only [imp_false] at *; omega) | skip
  rw [show (a - 0x40030000 - 0x1000) / 0x100 = n.val by omega]

theorem regWrite_ANG_SHn_CMD (n : Fin 16) : regWrite c m (ANG_SHn_CMD n.val) v = shaftCmdWrite c n.val v := by
  have hn := n.isLt
  unfold ANG_SHn_CMD
  generalize e : 0x40031004 + n.val * 0x100 = a
  rw [regWrite_window3 (by omega) (listed 13 n.val 0 0x40031004 16 0x100 1 0 rfl (by omega) (by omega) (by decide) (by omega))]
  unfold angWrite
  simp (disch := omega) only [if_pos, if_neg]
  split <;> first | (exfalso; omega) | (exfalso; simp only [imp_false] at *; omega) | skip
  rw [show (a - 0x40030000 - 0x1000) / 0x100 = n.val by omega]

theorem regWrite_ETH_Pn_CTL (p : Fin 8) : regWrite c m (ETH_Pn_CTL p.val) v = modeWrite c p.val v := by
  have hp := p.isLt
  unfold ETH_Pn_CTL
  generalize e : 0x40040000 + p.val * 0x1000 = a
  rw [regWrite_window4 (by omega) (listed 0 p.val 0 0x40040000 8 0x1000 1 0 rfl (by omega) (by omega) (by decide) (by omega))]
  unfold ethWrite
  simp (disch := omega) only [if_pos, if_neg]
  rw [show (a - 0x40040000) % 0x1000 = 0 by omega, show (a - 0x40040000) / 0x1000 = p.val by omega, (port_has p).1]
  rfl

theorem regWrite_ETH_Pn_CNTSNAP (p : Fin 8) : regWrite c m (ETH_Pn_CNTSNAP p.val) v = counterSnapshot c p.val v := by
  have hp := p.isLt
  unfold ETH_Pn_CNTSNAP
  generalize e : 0x400400A0 + p.val * 0x1000 = a
  rw [regWrite_window4 (by omega) (listed 22 p.val 0 0x400400A0 8 0x1000 1 0 rfl (by omega) (by omega) (by decide) (by omega))]
  unfold ethWrite
  simp (disch := omega) only [if_pos, if_neg]
  rw [show (a - 0x40040000) % 0x1000 = 160 by omega, show (a - 0x40040000) / 0x1000 = p.val by omega, (port_has p).2.1]
  rfl

theorem regWrite_ETH_Pn_CNTCLR (p : Fin 8) : regWrite c m (ETH_Pn_CNTCLR p.val) v = counterClear c p.val v := by
  have hp := p.isLt
  unfold ETH_Pn_CNTCLR
  generalize e : 0x400400A4 + p.val * 0x1000 = a
  rw [regWrite_window4 (by omega) (listed 23 p.val 0 0x400400A4 8 0x1000 1 0 rfl (by omega) (by omega) (by decide) (by omega))]
  unfold ethWrite
  simp (disch := omega) only [if_pos, if_neg]
  rw [show (a - 0x40040000) % 0x1000 = 164 by omega, show (a - 0x40040000) / 0x1000 = p.val by omega, (port_has p).2.2]
  rfl

theorem regWrite_ETH_LDFk_CFG (k : Fin 64) : regWrite c m (ETH_LDFk_CFG k.val) v = ldfCommit c k.val v := by
  have hk := k.isLt
  unfold ETH_LDFk_CFG
  generalize e : 0x40048100 + k.val * 0x10 = a
  rw [regWrite_window4 (by omega) (listed 30 k.val 0 0x40048100 64 0x10 1 0 rfl (by omega) (by omega) (by decide) (by omega))]
  unfold ethWrite
  simp (disch := omega) only [if_pos, if_neg]
  rw [show (a - 0x40040000 - 0x8100) / 0x10 = k.val by omega]

theorem regWrite_SWX_LEDGER : regWrite c m SWX_LEDGER v = ledgerWrite c v := by
  unfold SWX_LEDGER
  rw [regWrite_window6 (by omega) (listed 2 0 0 0x40060008 1 0x0 1 0 rfl (by omega) (by omega) (by decide) (by omega))]
  unfold swxWrite
  simp (disch := omega) only [if_pos, if_neg, if_true]

theorem regWrite_SWX_FLUSH : regWrite c m SWX_FLUSH v = flushWrite c v := by
  unfold SWX_FLUSH
  rw [regWrite_window6 (by omega) (listed 11 0 0 0x4006002C 1 0x0 1 0 rfl (by omega) (by omega) (by decide) (by omega))]
  unfold swxWrite
  simp (disch := omega) only [if_pos, if_neg, if_true]

theorem regWrite_SWX_TBL_CMD : regWrite c m SWX_TBL_CMD v = tblCmdWrite c v := by
  unfold SWX_TBL_CMD
  rw [regWrite_window6 (by omega) (listed 27 0 0 0x40060100 1 0x0 1 0 rfl (by omega) (by omega) (by decide) (by omega))]
  unfold swxWrite
  simp (disch := omega) only [if_pos, if_neg, if_true]

theorem regWrite_SWX_Pp_GCL_CMD (p : Fin 10) : regWrite c m (SWX_Pp_GCL_CMD p.val) v = gclChange c p.val v := by
  have hp := p.isLt
  unfold SWX_Pp_GCL_CMD
  generalize e : 0x4006100C + p.val * 0x100 = a
  rw [regWrite_window6 (by omega) (listed 33 p.val 0 0x4006100C 10 0x100 1 0 rfl (by omega) (by omega) (by decide) (by omega))]
  unfold swxWrite
  simp (disch := omega) only [if_pos, if_neg]
  rw [show (a - 0x40060000 - 0x1000) / 0x100 = p.val by omega]

theorem regWrite_CANn_CTL (n : Fin 4) : regWrite c m (CANn_CTL n.val) v = (canCtlWrite c n.val v).done := by
  have hn := n.isLt
  unfold CANn_CTL
  generalize e : 0x40090000 + n.val * 0x1000 = a
  rw [regWrite_window9 (by omega) (listed 2 n.val 0 0x40090000 4 0x1000 1 0 rfl (by omega) (by omega) (by decide) (by omega))]
  unfold canWrite
  simp (disch := omega) only [if_pos, if_neg]
  rw [show (a - 0x40090000) / 0x1000 = n.val by omega]

theorem regWrite_CANn_CMD (n : Fin 4) : regWrite c m (CANn_CMD n.val) v = canCmdWrite c n.val v := by
  have hn := n.isLt
  unfold CANn_CMD
  generalize e : 0x40090010 + n.val * 0x1000 = a
  rw [regWrite_window9 (by omega) (listed 6 n.val 0 0x40090010 4 0x1000 1 0 rfl (by omega) (by omega) (by decide) (by omega))]
  unfold canWrite
  simp (disch := omega) only [if_pos, if_neg]
  rw [show (a - 0x40090000) / 0x1000 = n.val by omega]

theorem regWrite_CANn_OBJCMD (n : Fin 4) : regWrite c m (CANn_OBJCMD n.val) v = canObjCmd c n.val v := by
  have hn := n.isLt
  unfold CANn_OBJCMD
  generalize e : 0x40090014 + n.val * 0x1000 = a
  rw [regWrite_window9 (by omega) (listed 7 n.val 0 0x40090014 4 0x1000 1 0 rfl (by omega) (by omega) (by decide) (by omega))]
  unfold canWrite
  simp (disch := omega) only [if_pos, if_neg]
  rw [show (a - 0x40090000) / 0x1000 = n.val by omega]

theorem regWrite_CANn_RING_POP (n : Fin 4) : regWrite c m (CANn_RING_POP n.val) v = canRingPop c n.val v := by
  have hn := n.isLt
  unfold CANn_RING_POP
  generalize e : 0x4009004C + n.val * 0x1000 = a
  rw [regWrite_window9 (by omega) (listed 18 n.val 0 0x4009004C 4 0x1000 1 0 rfl (by omega) (by omega) (by decide) (by omega))]
  unfold canWrite
  simp (disch := omega) only [if_pos, if_neg]
  rw [show (a - 0x40090000) / 0x1000 = n.val by omega]

theorem regWrite_CANn_TT_MODEREQ (n : Fin 4) : regWrite c m (CANn_TT_MODEREQ n.val) v = canModeReq c n.val v := by
  have hn := n.isLt
  unfold CANn_TT_MODEREQ
  generalize e : 0x40090110 + n.val * 0x1000 = a
  rw [regWrite_window9 (by omega) (listed 27 n.val 0 0x40090110 4 0x1000 1 0 rfl (by omega) (by omega) (by decide) (by omega))]
  unfold canWrite
  simp (disch := omega) only [if_pos, if_neg]
  rw [show (a - 0x40090000) / 0x1000 = n.val by omega]

theorem regWrite_CANn_TT_MODE (n : Fin 4) (k : Fin 4) : regWrite c m (CANn_TT_MODE n.val k.val) v = canModeWrite c n.val k.val v := by
  have hn := n.isLt
  have hk := k.isLt
  unfold CANn_TT_MODE
  generalize e : 0x40090120 + n.val * 0x1000 + k.val * 4 = a
  rw [regWrite_window9 (by omega) (listed 31 n.val k.val 0x40090120 4 0x1000 4 4 rfl (by omega) (by omega) (by decide) (by omega))]
  unfold canWrite
  simp (disch := omega) only [if_pos, if_neg]
  rw [show (a - 0x40090000) / 0x1000 = n.val by omega, show ((a - 0x40090000) % 0x1000 - 0x120) / 4 = k.val by omega]

theorem regWrite_PE_RQq_CONS (q : Fin 32) : regWrite c m (PE_RQq_CONS q.val) v = rqConsWrite c m q.val v := by
  have hq := q.isLt
  unfold PE_RQq_CONS
  generalize e : 0x40131014 + q.val * 0x20 = a
  rw [regWrite_window19 (by omega) (listed 17 q.val 0 0x40131014 32 0x20 1 0 rfl (by omega) (by omega) (by decide) (by omega))]
  unfold peWrite
  simp (disch := omega) only [if_pos, if_neg]
  rw [show (a - 0x40130000 - 0x1000) / 0x20 = q.val by omega]

theorem regWrite_PE_TQt_PUSH (t : Fin 16) : regWrite c m (PE_TQt_PUSH t.val) v = tqPushWrite c m t.val v := by
  have ht := t.isLt
  unfold PE_TQt_PUSH
  generalize e : 0x40132004 + t.val * 0x20 = a
  rw [regWrite_window19 (by omega) (listed 21 t.val 0 0x40132004 16 0x20 1 0 rfl (by omega) (by omega) (by decide) (by omega))]
  unfold peWrite
  simp (disch := omega) only [if_pos, if_neg]
  rw [show (a - 0x40130000 - 0x2000) / 0x20 = t.val by omega]

theorem regWrite_PE_PEn_CMD (n : Fin 8) : regWrite c m (PE_PEn_CMD n.val) v = peCmdWrite c m n.val v := by
  have hn := n.isLt
  unfold PE_PEn_CMD
  generalize e : 0x40130000 + n.val * 0x100 = a
  rw [regWrite_window19 (by omega) (listed 0 n.val 0 0x40130000 8 0x100 1 0 rfl (by omega) (by omega) (by decide) (by omega))]
  unfold peWrite
  simp (disch := omega) only [if_pos, if_neg]
  rw [show (a - 0x40130000) / 0x100 = n.val by omega]

theorem regWrite_TSK_FRn_CFG (n : Fin 8) : regWrite c m (TSK_FRn_CFG n.val) v = frameCfgWrite c m n.val v := by
  have hn := n.isLt
  unfold TSK_FRn_CFG
  generalize e : 0x40120100 + n.val * 0x40 = a
  rw [regWrite_window18 (by omega) (listed 23 n.val 0 0x40120100 8 0x40 1 0 rfl (by omega) (by omega) (by decide) (by omega))]
  unfold tskWrite
  simp (disch := omega) only [if_pos, if_neg]
  rw [show (a - 0x40120000 - 0x100) / 0x40 = n.val by omega]

theorem regWrite_TSK_FCf_CTL (f : Fin 64) : regWrite c m (TSK_FCf_CTL f.val) v = forceCtlWrite c m f.val v := by
  have hf := f.isLt
  unfold TSK_FCf_CTL
  generalize e : 0x40123004 + f.val * 0x20 = a
  rw [regWrite_window18 (by omega) (listed 48 f.val 0 0x40123004 64 0x20 1 0 rfl (by omega) (by omega) (by decide) (by omega))]
  unfold tskWrite
  simp (disch := omega) only [if_pos, if_neg]
  rw [show (a - 0x40120000 - 0x3000) / 0x20 = f.val by omega]

theorem regWrite_TSK_REL : regWrite c m TSK_REL v = taskReleaseWrite c m v := by
  unfold TSK_REL
  rw [regWrite_window18 (by omega) (listed 5 0 0 0x40120014 1 0x0 1 0 rfl (by omega) (by omega) (by decide) (by omega))]
  unfold tskWrite
  simp (disch := omega) only [if_pos, if_neg, if_true]

theorem regWrite_TSK_MODE : regWrite c m TSK_MODE v = tskModeRequest c m (wfld v 2 0) := by
  unfold TSK_MODE
  rw [regWrite_window18 (by omega) (listed 0 0 0 0x40120000 1 0x0 1 0 rfl (by omega) (by omega) (by decide) (by omega))]
  unfold tskWrite
  simp (disch := omega) only [if_pos, if_neg, if_true]

theorem regWrite_TSK_RPT : regWrite c m TSK_RPT v = stationReport c m v := by
  unfold TSK_RPT
  rw [regWrite_window18 (by omega) (listed 3 0 0 0x4012000C 1 0x0 1 0 rfl (by omega) (by omega) (by decide) (by omega))]
  unfold tskWrite
  simp (disch := omega) only [if_pos, if_neg, if_true]

theorem regWrite_TSK_VC_CTL : regWrite c m TSK_VC_CTL v = vcCtlWrite c m v := by
  unfold TSK_VC_CTL
  rw [regWrite_window18 (by omega) (listed 20 0 0 0x40120050 1 0x0 1 0 rfl (by omega) (by omega) (by decide) (by omega))]
  unfold tskWrite
  simp (disch := omega) only [if_pos, if_neg, if_true]

theorem regWrite_TSK_DIAG : regWrite c m TSK_DIAG v = diagWrite c v := by
  unfold TSK_DIAG
  rw [regWrite_window18 (by omega) (listed 10 0 0 0x40120028 1 0x0 1 0 rfl (by omega) (by omega) (by decide) (by omega))]
  unfold tskWrite
  simp (disch := omega) only [if_pos, if_neg, if_true]

theorem regWrite_TSK_SWAP_CTL : regWrite c m TSK_SWAP_CTL v = swapGo c m v := by
  unfold TSK_SWAP_CTL
  rw [regWrite_window18 (by omega) (listed 12 0 0 0x40120030 1 0x0 1 0 rfl (by omega) (by omega) (by decide) (by omega))]
  unfold tskWrite
  simp (disch := omega) only [if_pos, if_neg, if_true]

theorem regWrite_AXn_CMD (n : Fin 32) : regWrite c m (AXn_CMD n.val) v = axRegWrite c m n.val 0x8 v := by
  have hn := n.isLt
  unfold AXn_CMD
  generalize e : 0x400A1008 + n.val * 0x100 = a
  rw [regWrite_window10 (by omega) (listed 3 n.val 0 0x400A1008 32 0x100 1 0 rfl (by omega) (by omega) (by decide) (by omega))]
  unfold motWrite
  simp (disch := omega) only [if_pos, if_neg]
  rw [show (a - 0x400A0000 - 0x1000) / 0x100 = n.val by omega, show (a - 0x400A0000) % 0x100 = 0x8 by omega]

theorem regWrite_AXn_SETPOS_LO (n : Fin 32) : regWrite c m (AXn_SETPOS_LO n.val) v = axRegWrite c m n.val 0x88 v := by
  have hn := n.isLt
  unfold AXn_SETPOS_LO
  generalize e : 0x400A1088 + n.val * 0x100 = a
  rw [regWrite_window10 (by omega) (listed 34 n.val 0 0x400A1088 32 0x100 1 0 rfl (by omega) (by omega) (by decide) (by omega))]
  unfold motWrite
  simp (disch := omega) only [if_pos, if_neg]
  rw [show (a - 0x400A0000 - 0x1000) / 0x100 = n.val by omega, show (a - 0x400A0000) % 0x100 = 0x88 by omega]

theorem regWrite_AXn_PHASE_LO (n : Fin 32) : regWrite c m (AXn_PHASE_LO n.val) v = axRegWrite c m n.val 0x68 v := by
  have hn := n.isLt
  unfold AXn_PHASE_LO
  generalize e : 0x400A1068 + n.val * 0x100 = a
  rw [regWrite_window10 (by omega) (listed 26 n.val 0 0x400A1068 32 0x100 1 0 rfl (by omega) (by omega) (by decide) (by omega))]
  unfold motWrite
  simp (disch := omega) only [if_pos, if_neg]
  rw [show (a - 0x400A0000 - 0x1000) / 0x100 = n.val by omega, show (a - 0x400A0000) % 0x100 = 0x68 by omega]

theorem regWrite_AXn_ACTIN (n : Fin 32) : regWrite c m (AXn_ACTIN n.val) v = axRegWrite c m n.val 0xC4 v := by
  have hn := n.isLt
  unfold AXn_ACTIN
  generalize e : 0x400A10C4 + n.val * 0x100 = a
  rw [regWrite_window10 (by omega) (listed 49 n.val 0 0x400A10C4 32 0x100 1 0 rfl (by omega) (by omega) (by decide) (by omega))]
  unfold motWrite
  simp (disch := omega) only [if_pos, if_neg]
  rw [show (a - 0x400A0000 - 0x1000) / 0x100 = n.val by omega, show (a - 0x400A0000) % 0x100 = 0xC4 by omega]

theorem regWrite_MEM_BOWN (b : Fin 32) : regWrite c m (MEM_BOWN b.val) v = bankOwnerWrite c m b.val v := by
  have hb := b.isLt
  unfold MEM_BOWN
  generalize e : 0x400C0200 + b.val * 4 = a
  rw [regWrite_window12 (by omega) (listed 16 0 b.val 0x400C0200 1 0x0 32 4 rfl (by omega) (by omega) (by decide) (by omega))]
  unfold memRegWrite
  simp (disch := omega) only [if_pos, if_neg]
  rw [show (a - 0x400C0000 - 0x200) / 4 = b.val by omega]

theorem regWrite_MEM_LK (n : Fin 256) : regWrite c m (MEM_LK n.val) v = lockWrite c m n.val v := by
  have hn := n.isLt
  unfold MEM_LK
  generalize e : 0x400C0400 + n.val * 4 = a
  rw [regWrite_window12 (by omega) (listed 18 0 n.val 0x400C0400 1 0x0 256 4 rfl (by omega) (by omega) (by decide) (by omega))]
  unfold memRegWrite
  simp (disch := omega) only [if_pos, if_neg]
  rw [show (a - 0x400C0000 - 0x400) / 4 = n.val by omega]

theorem regWrite_MEM_MARCH_CTL : regWrite c m MEM_MARCH_CTL v = marchCtlWrite c m v := by
  unfold MEM_MARCH_CTL
  rw [regWrite_window12 (by omega) (listed 13 0 0 0x400C0040 1 0x0 1 0 rfl (by omega) (by omega) (by decide) (by omega))]
  unfold memRegWrite
  simp (disch := omega) only [if_pos, if_neg, if_true]

theorem regWrite_XDn_CTL (n : Fin 64) : regWrite c m (XDn_CTL n.val) v = xdCtlWrite c m n.val v := by
  have hn := n.isLt
  unfold XDn_CTL
  generalize e : 0x400D1000 + n.val * 0x40 = a
  rw [regWrite_window13 (by omega) (by unfold XDM_FRZ_RESOLVE; omega)
    (listed 8 n.val 0 0x400D1000 64 0x40 1 0 rfl (by omega) (by omega) (by decide) (by omega))]
  unfold xdmWrite
  simp (disch := omega) only [if_pos, if_neg]
  split <;> first | (exfalso; omega) | (exfalso; simp only [imp_false] at *; omega) | skip
  rw [show (a - 0x400D0000 - 0x1000) / 0x40 = n.val by omega]

theorem regWrite_XDn_TRIGT_LO (n : Fin 64) : regWrite c m (XDn_TRIGT_LO n.val) v = trigtCommit c m n.val v := by
  have hn := n.isLt
  unfold XDn_TRIGT_LO
  generalize e : 0x400D1018 + n.val * 0x40 = a
  rw [regWrite_window13 (by omega) (by unfold XDM_FRZ_RESOLVE; omega)
    (listed 14 n.val 0 0x400D1018 64 0x40 1 0 rfl (by omega) (by omega) (by decide) (by omega))]
  unfold xdmWrite
  simp (disch := omega) only [if_pos, if_neg]
  split <;> first | (exfalso; omega) | (exfalso; simp only [imp_false] at *; omega) | skip
  rw [show (a - 0x400D0000 - 0x1000) / 0x40 = n.val by omega]

theorem regWrite_MBn_CFG (n : Fin 64) : regWrite c m (MBn_CFG n.val) v = mbCfgWrite c m n.val v := by
  have hn := n.isLt
  unfold MBn_CFG
  generalize e : 0x400F0044 + n.val * 0x80 = a
  rw [regWrite_window15 (by omega)
    (listed 2 n.val 0 0x400F0044 64 0x80 1 0 rfl (by omega) (by omega) (by decide) (by omega))]
  simp (disch := omega) only [if_pos, if_neg]
  unfold mbxWrite
  simp (disch := omega) only [if_pos, if_neg]
  rw [show (a - 0x400F0000) / 0x80 = n.val by omega]

theorem regWrite_MBn_CTL (n : Fin 64) : regWrite c m (MBn_CTL n.val) v = mbCtlWrite c m n.val v := by
  have hn := n.isLt
  unfold MBn_CTL
  generalize e : 0x400F0040 + n.val * 0x80 = a
  rw [regWrite_window15 (by omega)
    (listed 1 n.val 0 0x400F0040 64 0x80 1 0 rfl (by omega) (by omega) (by decide) (by omega))]
  simp (disch := omega) only [if_pos, if_neg]
  unfold mbxWrite
  simp (disch := omega) only [if_pos, if_neg]
  rw [show (a - 0x400F0000) / 0x80 = n.val by omega]

theorem regWrite_MBn_DATA (n : Fin 64) (i : Fin 16) : regWrite c m (MBn_DATA n.val i.val) v = mbDataWrite c m n.val i.val v := by
  have hn := n.isLt
  have hi := i.isLt
  unfold MBn_DATA
  generalize e : 0x400F0000 + n.val * 0x80 + i.val * 4 = a
  rw [regWrite_window15 (by omega)
    (listed 0 n.val i.val 0x400F0000 64 0x80 16 4 rfl (by omega) (by omega) (by decide) (by omega))]
  simp (disch := omega) only [if_pos, if_neg]
  unfold mbxWrite
  simp (disch := omega) only [if_pos, if_neg]
  rw [show (a - 0x400F0000) / 0x80 = n.val by omega, show (a - 0x400F0000) % 0x80 / 4 = i.val by omega]

theorem regWrite_EVT_RAISE : regWrite c m EVT_RAISE v = eventRaise c m v := by
  unfold EVT_RAISE
  rw [regWrite_window15 (by omega)
    (listed 8 0 0 0x400F8004 1 0x0 1 0 rfl (by omega) (by omega) (by decide) (by omega))]
  simp (disch := omega) only [if_pos, if_neg]
  unfold evtWrite
  simp (disch := omega) only [if_pos, if_neg, if_true]

theorem regWrite_EVT_EQk_POP (k : Fin 8) : regWrite c m (EVT_EQk_POP k.val) v = eventPop c m k.val v := by
  have hk := k.isLt
  unfold EVT_EQk_POP
  generalize e : 0x400F8404 + k.val * 0x40 = a
  rw [regWrite_window15 (by omega)
    (listed 12 k.val 0 0x400F8404 8 0x40 1 0 rfl (by omega) (by omega) (by decide) (by omega))]
  simp (disch := omega) only [if_pos, if_neg]
  unfold evtWrite
  simp (disch := omega) only [if_pos, if_neg]
  rw [show (a - 0x400F8000 - 0x400) / 0x40 = k.val by omega]

theorem regWrite_EVT_ROUTE (n : Fin 512) : regWrite c m (EVT_ROUTE n.val) v = routeWrite c m n.val v := by
  have hn := n.isLt
  unfold EVT_ROUTE
  generalize e : 0x400F9000 + n.val * 4 = a
  rw [regWrite_window15 (by omega)
    (listed 17 0 n.val 0x400F9000 1 0x0 512 4 rfl (by omega) (by omega) (by decide) (by omega))]
  simp (disch := omega) only [if_pos, if_neg]
  unfold evtWrite
  simp (disch := omega) only [if_pos, if_neg]
  rw [show (a - 0x400F8000 - 0x1000) / 4 = n.val by omega]

theorem regWrite_CVn_CTL (n : Fin 16) : regWrite c m (CVn_CTL n.val) v = cvCtlWrite c m n.val v := by
  have hn := n.isLt
  unfold CVn_CTL
  generalize e : 0x400E0004 + n.val * 0x80 = a
  rw [regWrite_window14 (by omega) (listed 1 n.val 0 0x400E0004 16 0x80 1 0 rfl (by omega) (by omega) (by decide) (by omega))]
  unfold cvuWrite
  simp (disch := omega) only [if_pos, if_neg]
  split <;> first | (exfalso; omega) | (exfalso; simp only [imp_false] at *; omega) | skip
  rw [show (a - 0x400E0000) / 0x80 = n.val by omega]

theorem regWrite_CVn_DATA4 (n : Fin 16) : regWrite c m (CVn_DATA4 n.val) v = cvDataWrite c m n.val 4 v := by
  have hn := n.isLt
  unfold CVn_DATA4
  generalize e : 0x400E003C + n.val * 0x80 = a
  rw [regWrite_window14 (by omega) (listed 15 n.val 0 0x400E003C 16 0x80 1 0 rfl (by omega) (by omega) (by decide) (by omega))]
  unfold cvuWrite
  simp (disch := omega) only [if_pos, if_neg]
  split <;> first | (exfalso; omega) | (exfalso; simp only [imp_false] at *; omega) | skip
  rw [show (a - 0x400E0000) / 0x80 = n.val by omega]

theorem regWrite_CVn_DATA1 (n : Fin 16) : regWrite c m (CVn_DATA1 n.val) v = cvDataWrite c m n.val 1 v := by
  have hn := n.isLt
  unfold CVn_DATA1
  generalize e : 0x400E0040 + n.val * 0x80 = a
  rw [regWrite_window14 (by omega) (listed 16 n.val 0 0x400E0040 16 0x80 1 0 rfl (by omega) (by omega) (by decide) (by omega))]
  unfold cvuWrite
  simp (disch := omega) only [if_pos, if_neg]
  split <;> first | (exfalso; omega) | (exfalso; simp only [imp_false] at *; omega) | skip
  rw [show (a - 0x400E0000) / 0x80 = n.val by omega]

theorem regWrite_HIF_CMD_DB : regWrite c m HIF_CMD_DB v = cmdDoorbell c m v := by
  rw [regWrite_window17 (by decide) (by decide)]
  unfold hifWrite
  rw [if_pos rfl]

theorem regWrite_HIF_RPL_DB : regWrite c m HIF_RPL_DB v = rplDoorbell c m v := by
  rw [regWrite_window17 (by decide) (by decide)]
  unfold hifWrite
  rw [if_neg (by decide), if_pos rfl]

theorem regWrite_HIF_RPL_SIG : regWrite c m HIF_RPL_SIG v = replySignal c m v := by
  rw [regWrite_window17 (by decide) (by decide)]
  unfold hifWrite
  rw [if_neg (by decide), if_neg (by decide), if_pos rfl]

theorem regWrite_SEC_FPROG : regWrite c m SEC_FPROG v = fprogWrite c m v := by
  rw [regWrite_window16 (by decide) (by decide)]
  unfold secRegWrite
  rw [if_pos rfl]

theorem regWrite_SEC_JOB_CTL : regWrite c m SEC_JOB_CTL v = jobCtlWrite c m v := by
  rw [regWrite_window16 (by decide) (by decide)]
  unfold secRegWrite
  rw [if_neg (by decide), if_pos rfl]

theorem regWrite_SEC_TRNG_CTL : regWrite c m SEC_TRNG_CTL v = trngCtlWrite c m v := by
  rw [regWrite_window16 (by decide) (by decide)]
  unfold secRegWrite
  rw [if_neg (by decide), if_neg (by decide), if_pos rfl]

theorem regWrite_EVR_SUB_CTL : regWrite c m EVR_SUB_CTL v = evrCtlWrite c m v := by
  rw [regWrite_window20 (by decide) (by decide)]
  unfold evrWrite
  rw [if_pos rfl]

theorem regWrite_PWR_SEQ_CFG (k : Fin 4) : regWrite c m (PWR_SEQ_CFG k.val) v = seqCfgWrite c m k.val v := by
  have hk := k.isLt
  unfold PWR_SEQ_CFG
  generalize e : 0x40010020 + k.val * 4 = a
  rw [regWrite_window1 (by omega) (listed 8 0 k.val 0x40010020 1 0x0 4 4 rfl (by omega) (by omega) (by decide) (by omega))]
  unfold pwrWrite
  simp (disch := omega) only [if_pos, if_neg]
  rw [show (a - 0x40010000 - 0x20) / 4 = k.val by omega]

theorem regWrite_PWR_AVS : regWrite c m PWR_AVS v = avsWrite c m v := by
  unfold PWR_AVS
  rw [regWrite_window1 (by omega) (listed 2 0 0 0x40010008 1 0x0 1 0 rfl (by omega) (by omega) (by decide) (by omega))]
  unfold pwrWrite
  simp (disch := omega) only [if_pos, if_neg, if_true]

theorem regWrite_PWR_GATE : regWrite c m PWR_GATE v = gateWrite c m v := by
  unfold PWR_GATE
  rw [regWrite_window1 (by omega) (listed 6 0 0 0x40010018 1 0x0 1 0 rfl (by omega) (by omega) (by decide) (by omega))]
  unfold pwrWrite
  simp (disch := omega) only [if_pos, if_neg, if_true]

theorem regWrite_PWR_WDT_KICK : regWrite c m PWR_WDT_KICK v = wdKick c m v := by
  unfold PWR_WDT_KICK
  rw [regWrite_window1 (by omega) (listed 10 0 0 0x40010044 1 0x0 1 0 rfl (by omega) (by omega) (by decide) (by omega))]
  unfold pwrWrite
  simp (disch := omega) only [if_pos, if_neg, if_true]

theorem regWrite_PWR_RST : regWrite c m PWR_RST v = rstWrite c m v := by
  unfold PWR_RST
  rw [regWrite_window1 (by omega) (listed 12 0 0 0x40010050 1 0x0 1 0 rfl (by omega) (by omega) (by decide) (by omega))]
  unfold pwrWrite
  simp (disch := omega) only [if_pos, if_neg, if_true]

theorem regWrite_SYS_STATE : regWrite c m SYS_STATE v = sysStateWrite c m v := by
  unfold SYS_STATE
  rw [regWrite_window0 (by omega) (listed 1 0 0 0x40000004 1 0x0 1 0 rfl (by omega) (by omega) (by decide) (by omega))]
  unfold sysWrite
  simp (disch := omega) only [if_pos, if_neg, if_true]

theorem regWrite_SYS_PIN (g : Fin 128) : regWrite c m (SYS_PIN g.val) v = pinWrite c m g.val v := by
  have hg := g.isLt
  unfold SYS_PIN
  generalize e : 0x40001000 + g.val * 4 = a
  rw [regWrite_window0 (by omega) (listed 6 0 g.val 0x40001000 1 0x0 128 4 rfl (by omega) (by omega) (by decide) (by omega))]
  unfold sysWrite
  simp (disch := omega) only [if_pos, if_neg]
  rw [show (a - 0x40000000 - 0x1000) / 4 = g.val by omega]

theorem regWrite_SYS_GPIO_SET (k : Fin 4) : regWrite c m (SYS_GPIO_SET k.val) v = gpioSet c k.val v := by
  have hk := k.isLt
  unfold SYS_GPIO_SET
  generalize e : 0x40001230 + k.val * 4 = a
  rw [regWrite_window0 (by omega) (listed 10 0 k.val 0x40001230 1 0x0 4 4 rfl (by omega) (by omega) (by decide) (by omega))]
  unfold sysWrite
  simp (disch := omega) only [if_pos, if_neg]
  rw [show (a - 0x40000000 - 0x1230) / 4 = k.val by omega]

theorem regWrite_SYS_GPIO_CLR (k : Fin 4) : regWrite c m (SYS_GPIO_CLR k.val) v = gpioClr c k.val v := by
  have hk := k.isLt
  unfold SYS_GPIO_CLR
  generalize e : 0x40001240 + k.val * 4 = a
  rw [regWrite_window0 (by omega) (listed 11 0 k.val 0x40001240 1 0x0 4 4 rfl (by omega) (by omega) (by decide) (by omega))]
  unfold sysWrite
  simp (disch := omega) only [if_pos, if_neg]
  rw [show (a - 0x40000000 - 0x1240) / 4 = k.val by omega]

theorem regWrite_TST_PRBSl_CTL (l : Fin 14) : regWrite c m (TST_PRBSl_CTL l.val) v = prbsCtlWrite c m l.val v := by
  have hl := l.isLt
  unfold TST_PRBSl_CTL
  generalize e : 0x40150100 + l.val * 0x20 = a
  rw [regWrite_window21 (by omega) (listed 2 l.val 0 0x40150100 14 0x20 1 0 rfl (by omega) (by omega) (by decide) (by omega))]
  unfold tstWrite
  simp (disch := omega) only [if_pos, if_neg]
  rw [show (a - 0x40150000 - 0x100) / 0x20 = l.val by omega]

end Sys2Proof.Machine
end

