-- ==== Sys2Proof/Laws/RouteMore.lean ====
section
/-!
SUPPORT. Routes of register accesses, continued: angle events, Skippers and pack FIFOs of a cluster that is powered,
freezes, and the reads that do something.
-/
namespace Sys2Proof.Machine

variable {c : Chip} {m : Nat} {v : W32}

theorem angEvent_listed {a : Nat} (n : Fin 1024) (r : Fin 5) (e : 0x40034000 + n.val * 0x20 + 4 * r.val = a) :
    (regRowsAng.any fun r => r.covers a) = true := by
  have hn := n.isLt
  obtain ⟨r, hr⟩ := r
  dsimp only at e
  match r, hr with
  | 0, _ => exact listed 39 n.val 0 0x40034000 1024 0x20 1 0 rfl (by omega) (by omega) (by decide) (by omega)
  | 1, _ => exact listed 40 n.val 0 0x40034004 1024 0x20 1 0 rfl (by omega) (by omega) (by decide) (by omega)
  | 2, _ => exact listed 41 n.val 0 0x40034008 1024 0x20 1 0 rfl (by omega) (by omega) (by decide) (by omega)
  | 3, _ => exact listed 42 n.val 0 0x4003400C 1024 0x20 1 0 rfl (by omega) (by omega) (by decide) (by omega)
  | 4, _ => exact listed 43 n.val 0 0x40034010 1024 0x20 1 0 rfl (by omega) (by omega) (by decide) (by omega)

theorem regWrite_ANG_AEn (n : Fin 1024) (r : Fin 5) :
    regWrite c m (ANG_AEn_CFG n.val + 4 * r.val) v = aeWrite c m (ANG_AEn_CFG n.val + 4 * r.val) v := by
  have hn := n.isLt
  have hr := r.isLt
  generalize e : ANG_AEn_CFG n.val + 4 * r.val = a
  unfold ANG_AEn_CFG at e
  rw [regWrite_window3 (by omega) (angEvent_listed n r e)]
  unfold angWrite
  simp (disch := omega) only [if_pos, if_neg]

theorem regWrite_ETH_Pn_CT_CTL (p : Fin 8) :
    regWrite c m (ETH_Pn_CT_CTL p.val) v = if portHas p.val 0x80 then cableTestStart c p.val v else c.done := by
  have hp := p.isLt
  unfold ETH_Pn_CT_CTL
  generalize e : 0x40040080 + p.val * 0x1000 = a
  rw [regWrite_window4 (by omega) (listed 20 p.val 0 0x40040080 8 0x1000 1 0 rfl (by omega) (by omega) (by decide) (by omega))]
  unfold ethWrite
  simp (disch := omega) only [if_pos, if_neg]
  rw [show (a - 0x40040000) % 0x1000 = 0x80 by omega, show (a - 0x40040000) / 0x1000 = p.val by omega]
  cases portHas p.val 0x80 <;> rfl

theorem regWrite_sk {a : Nat} (n : Fin 32) (o : Nat) (ho : o < 0x80)
    (ha : a = 0x400B0100 + n.val / 8 * 0x2000 + n.val % 8 * 0x80 + o) (g : c.bit PWR_GSTAT (16 + n.val / 8) = true)
    (r : (regRowsSkp.any fun r => r.covers a) = true) :
    regWrite c m a v = skRegWrite c m n.val o v := by
  have hn := n.isLt
  have hg : c.clusterGated a = false := by
    rw [clusterGated_skipper (n := n.val / 8) (by omega) (by omega), g]
    rfl
  rw [regWrite_window11 (by omega) hg r]
  unfold skpWrite
  simp (disch := omega) only [if_pos, if_neg]
  rw [show (a - 0x400B0000) / 0x2000 * 8 + ((a - 0x400B0000) % 0x2000 - 0x100) / 0x80 = n.val by omega,
    show ((a - 0x400B0000) % 0x2000 - 0x100) % 0x80 = o by omega]

theorem regWrite_SKn_CTL (n : Fin 32) (g : c.bit PWR_GSTAT (16 + n.val / 8) = true) :
    regWrite c m (SKn_CTL n.val) v = skRegWrite c m n.val 0x00 v :=
  regWrite_sk n 0x00 (by omega) (by unfold SKn_CTL; omega) g
    (by unfold SKn_CTL; exact listed 5 (n.val / 8) (n.val % 8) 0x400B0100 4 0x2000 8 128 rfl (by omega) (by omega) (by decide) (by omega))

theorem regWrite_SKn_FEED (n : Fin 32) (g : c.bit PWR_GSTAT (16 + n.val / 8) = true) :
    regWrite c m (SKn_FEED n.val) v = skRegWrite c m n.val 0x24 v :=
  regWrite_sk n 0x24 (by omega) (by unfold SKn_FEED; omega) g
    (by unfold SKn_FEED; exact listed 14 (n.val / 8) (n.val % 8) 0x400B0124 4 0x2000 8 128 rfl (by omega) (by omega) (by decide) (by omega))

theorem regWrite_SKn_IRQSET (n : Fin 32) (g : c.bit PWR_GSTAT (16 + n.val / 8) = true) :
    regWrite c m (SKn_IRQSET n.val) v = skRegWrite c m n.val 0x48 v :=
  regWrite_sk n 0x48 (by omega) (by unfold SKn_IRQSET; omega) g
    (by unfold SKn_IRQSET; exact listed 23 (n.val / 8) (n.val % 8) 0x400B0148 4 0x2000 8 128 rfl (by omega) (by omega) (by decide) (by omega))

theorem regWrite_SKn_LANES (n : Fin 32) (second : Bool) (g : c.bit PWR_GSTAT (16 + n.val / 8) = true) :
    regWrite c m (if second then SKn_LANES1 n.val else SKn_LANES0 n.val) v =
      skRegWrite c m n.val (if second then 0x1C else 0x18) v := by
  cases second
  · exact regWrite_sk n 0x18 (by omega) (by simp only [SKn_LANES0, Bool.false_eq_true, if_false]; omega) g
      (by simp only [SKn_LANES0, Bool.false_eq_true, if_false]
          exact listed 11 (n.val / 8) (n.val % 8) 0x400B0118 4 0x2000 8 128 rfl (by omega) (by omega) (by decide) (by omega))
  · exact regWrite_sk n 0x1C (by omega) (by simp only [SKn_LANES1, if_true]; omega) g
      (by simp only [SKn_LANES1, if_true]
          exact listed 12 (n.val / 8) (n.val % 8) 0x400B011C 4 0x2000 8 128 rfl (by omega) (by omega) (by decide) (by omega))

theorem regWrite_SCc_INSN (cl : Fin 4) (i : Fin 256) (g : c.bit PWR_GSTAT (16 + cl.val) = true) :
    regWrite c m (SCc_INSN cl.val i.val) v = insnWrite c m cl.val i.val v := by
  have hcl := cl.isLt
  have hi := i.isLt
  unfold SCc_INSN
  generalize e : 0x400B1000 + cl.val * 0x2000 + i.val * 4 = a
  have hg : c.clusterGated a = false := by
    rw [clusterGated_skipper (n := cl.val) (by omega) (by omega), g]
    rfl
  rw [regWrite_window11 (by omega) hg (listed 4 cl.val i.val 0x400B1000 4 0x2000 256 4 rfl (by omega) (by omega) (by decide) (by omega))]
  unfold skpWrite
  simp (disch := omega) only [if_pos]
  rw [show (a - 0x400B0000) / 0x2000 = cl.val by omega,
    show ((a - 0x400B0000) % 0x2000 - 0x1000) / 4 = i.val by omega]

theorem regWrite_PFn_CTL (n : Fin 32) (g : c.bit PWR_GSTAT (16 + n.val / 8) = true) :
    regWrite c m (PFn_CTL n.val) v = pfCtlWrite c n.val v := by
  have hn := n.isLt
  unfold PFn_CTL
  generalize e : 0x400B8004 + n.val * 0x20 = a
  have hg : c.clusterGated a = false := by
    rw [clusterGated_pack (n := n.val) (by omega) (by omega), g]
    rfl
  rw [regWrite_window11 (by omega) hg (listed 26 n.val 0 0x400B8004 32 0x20 1 0 rfl (by omega) (by omega) (by decide) (by omega))]
  unfold skpWrite
  simp (disch := omega) only [if_neg]
  rw [show (a - 0x400B0000 - 0x8000) / 0x20 = n.val by omega, show (a - 0x400B0000 - 0x8000) % 0x20 = 4 by omega]
  rfl

/-- A write of a Skipper cluster that PWR gates is performed and changes nothing (R345). -/
theorem regWrite_gated {a : Nat} (h : c.clusterGated a = true) : regWrite c m a v = c.done := by
  have hw : a / 0x10000 = 0x400B := by
    by_cases e : a / 0x10000 = 0x400B
    · exact e
    · rw [clusterGated_not e] at h
      exact absurd h Bool.false_ne_true
  rw [regWrite_once (by unfold XDM_FRZ_RESOLVE; omega)]
  unfold regWriteOnce
  rw [h]
  rfl

theorem gated_sk {a : Nat} (n : Fin 32) (o : Nat) (ho : o < 0x80)
    (ha : a = 0x400B0100 + n.val / 8 * 0x2000 + n.val % 8 * 0x80 + o) :
    c.clusterGated a = !c.bit PWR_GSTAT (16 + n.val / 8) :=
  have hn := n.isLt
  clusterGated_skipper (n := n.val / 8) (by omega) (by omega)

theorem regWrite_XDM_FRZ_RESOLVE :
    regWrite c m XDM_FRZ_RESOLVE v =
      ((freezeResolveWrite c m v).debugSettle).answer (freezeResolveWrite c m v).bus := by
  unfold regWrite
  simp only [if_true]
  have e : regWriteOnce c m XDM_FRZ_RESOLVE v = freezeResolveWrite c m v := by
    unfold regWriteOnce
    rw [clusterGated_not (by decide), regRow_some (rows := regRowsXdm) rfl (by decide), Bool.or_false,
      if_neg Bool.false_ne_true]
    rfl
  rw [e]

theorem regRead_MEM_AT_FADD : regRead c m MEM_AT_FADD = atomicRead c m false := by
  unfold regRead
  rw [clusterGated_not (by decide), if_neg Bool.false_ne_true, if_pos rfl]

theorem regRead_MEM_AT_SWAP : regRead c m MEM_AT_SWAP = atomicRead c m true := by
  unfold regRead
  rw [clusterGated_not (by decide), if_neg Bool.false_ne_true, if_neg (by decide), if_pos rfl]

theorem regRead_MEM_LK (n : Fin 256) : regRead c m (MEM_LK n.val) = lockRead c m n.val := by
  have hn := n.isLt
  have e : (MEM_LK n.val - MEM_LK 0) / 4 = n.val := by unfold MEM_LK; omega
  unfold regRead
  rw [clusterGated_not (by unfold MEM_LK; omega), if_neg Bool.false_ne_true,
    if_neg (by unfold MEM_LK MEM_AT_FADD; omega), if_neg (by unfold MEM_LK MEM_AT_SWAP; omega),
    if_pos (by unfold MEM_LK; omega), e]

theorem regRead_MBn_DATA (n : Fin 64) (i : Nat) (hi : i < 16) :
    regRead c m (MBn_DATA n.val i) =
      match mbDataRead c m n.val i with
      | some (w, d) => d.answer (.ok w.toNat)
      | none => c.refuse := by
  have hn := n.isLt
  unfold MBn_DATA
  generalize e : 0x400F0000 + n.val * 0x80 + i * 4 = a
  unfold regRead
  rw [clusterGated_not (by omega), if_neg Bool.false_ne_true, if_neg (by unfold MEM_AT_FADD; omega),
    if_neg (by unfold MEM_AT_SWAP; omega), if_neg (by unfold MEM_LK; omega), if_pos (by omega),
    show (a - 0x400F0000) / 0x80 = n.val by omega, show a % 0x80 / 4 = i by omega]
  all_goals cases mbDataRead c m n.val i <;> rfl

theorem regRead_SEC_TRNG_DATA : regRead c m SEC_TRNG_DATA = (trngRead c).2.answer (.ok (trngRead c).1.toNat) := by
  unfold regRead
  rw [clusterGated_not (by decide), if_neg Bool.false_ne_true, if_neg (by decide), if_neg (by decide),
    if_neg (by decide), if_neg (by decide), if_pos rfl]

theorem regRead_PFn_DATA_LO (n : Fin 32) (g : c.bit PWR_GSTAT (16 + n.val / 8) = true) :
    regRead c m (PFn_DATA_LO n.val) = packRead c m n.val := by
  have hn := n.isLt
  unfold PFn_DATA_LO
  generalize e : 0x400B8010 + n.val * 0x20 = a
  have hg : c.clusterGated a = false := by
    rw [clusterGated_pack (n := n.val) (by omega) (by omega), g]
    rfl
  have hp : pfOfs a = some 0x10 := by
    unfold pfOfs
    rw [if_pos (by omega), show a % 0x20 = 0x10 by omega]
  unfold regRead
  rw [hg, if_neg Bool.false_ne_true, if_neg (by unfold MEM_AT_FADD; omega), if_neg (by unfold MEM_AT_SWAP; omega),
    if_neg (by unfold MEM_LK; omega), if_neg (by omega), if_neg (by unfold SEC_TRNG_DATA; omega),
    if_neg (by unfold SYS_GPIO_IN; omega), if_pos hp, show (a - 0x400B8000) / 0x20 = n.val by omega]

theorem regRead_ANG_SHn_OUT (n : Fin 16) : regRead c m (ANG_SHn_OUT n.val 0) = sampleOutRead c m n.val := by
  have hn := n.isLt
  unfold ANG_SHn_OUT
  generalize e : 0x40031080 + n.val * 0x100 + 0 * 4 = a
  have hs : shaftOfs a = some 0x80 := by
    unfold shaftOfs
    rw [if_pos (by omega), show a % 0x100 = 0x80 by omega]
  have hp : pfOfs a = none := by
    unfold pfOfs
    rw [if_neg (by omega)]
  unfold regRead
  rw [clusterGated_not (by omega), if_neg Bool.false_ne_true, if_neg (by unfold MEM_AT_FADD; omega),
    if_neg (by unfold MEM_AT_SWAP; omega), if_neg (by unfold MEM_LK; omega), if_neg (by omega),
    if_neg (by unfold SEC_TRNG_DATA; omega), if_neg (by unfold SYS_GPIO_IN; omega), hp, if_neg (by simp), if_pos hs,
    show (a - 0x40031000) / 0x100 = n.val by omega]

end Sys2Proof.Machine
end

