-- ==== Sys2Proof/Laws/State.lean ====
section
/-!
SUPPORT. What each named update of the device leaves of each field of its state: one lemma per field and update.
The values of registers after an update follow.
-/
namespace Sys2Proof.Machine

variable (c : Chip)

@[simp] theorem Chip.setReg_staged (a : Nat) (v : W32) : (c.setReg a v).staged = c.staged := rfl
@[simp] theorem Chip.setReg_latched (a : Nat) (v : W32) : (c.setReg a v).latched = c.latched := rfl
@[simp] theorem Chip.setReg_mem (a : Nat) (v : W32) : (c.setReg a v).mem = c.mem := rfl
@[simp] theorem Chip.setReg_bus (a : Nat) (v : W32) : (c.setReg a v).bus = c.bus := rfl
@[simp] theorem Chip.setReg_free (a : Nat) (v : W32) : (c.setReg a v).free = c.free := rfl
@[simp] theorem Chip.setReg_evt (a : Nat) (v : W32) : (c.setReg a v).evt = c.evt := rfl
@[simp] theorem Chip.setReg_mbx (a : Nat) (v : W32) : (c.setReg a v).mbx = c.mbx := rfl
@[simp] theorem Chip.setReg_memc (a : Nat) (v : W32) : (c.setReg a v).memc = c.memc := rfl
@[simp] theorem Chip.setReg_xdm (a : Nat) (v : W32) : (c.setReg a v).xdm = c.xdm := rfl
@[simp] theorem Chip.setReg_tmu (a : Nat) (v : W32) : (c.setReg a v).tmu = c.tmu := rfl
@[simp] theorem Chip.setReg_ang (a : Nat) (v : W32) : (c.setReg a v).ang = c.ang := rfl
@[simp] theorem Chip.setReg_swx (a : Nat) (v : W32) : (c.setReg a v).swx = c.swx := rfl
@[simp] theorem Chip.setReg_rq (a : Nat) (v : W32) : (c.setReg a v).rq = c.rq := rfl
@[simp] theorem Chip.setReg_can (a : Nat) (v : W32) : (c.setReg a v).can = c.can := rfl
@[simp] theorem Chip.setReg_core (a : Nat) (v : W32) : (c.setReg a v).core = c.core := rfl
@[simp] theorem Chip.setReg_tsk (a : Nat) (v : W32) : (c.setReg a v).tsk = c.tsk := rfl
@[simp] theorem Chip.setReg_mot (a : Nat) (v : W32) : (c.setReg a v).mot = c.mot := rfl
@[simp] theorem Chip.setReg_skp (a : Nat) (v : W32) : (c.setReg a v).skp = c.skp := rfl
@[simp] theorem Chip.setReg_pin (a : Nat) (v : W32) : (c.setReg a v).pin = c.pin := rfl
@[simp] theorem Chip.setReg_sec (a : Nat) (v : W32) : (c.setReg a v).sec = c.sec := rfl
@[simp] theorem Chip.setReg_evr (a : Nat) (v : W32) : (c.setReg a v).evr = c.evr := rfl
@[simp] theorem Chip.setReg_hif (a : Nat) (v : W32) : (c.setReg a v).hif = c.hif := rfl
@[simp] theorem Chip.setReg_pwr (a : Nat) (v : W32) : (c.setReg a v).pwr = c.pwr := rfl
@[simp] theorem Chip.setReg_tst (a : Nat) (v : W32) : (c.setReg a v).tst = c.tst := rfl

@[simp] theorem Chip.setFld_staged (a hi lo v : Nat) : (c.setFld a hi lo v).staged = c.staged := rfl
@[simp] theorem Chip.setFld_latched (a hi lo v : Nat) : (c.setFld a hi lo v).latched = c.latched := rfl
@[simp] theorem Chip.setFld_mem (a hi lo v : Nat) : (c.setFld a hi lo v).mem = c.mem := rfl
@[simp] theorem Chip.setFld_bus (a hi lo v : Nat) : (c.setFld a hi lo v).bus = c.bus := rfl
@[simp] theorem Chip.setFld_free (a hi lo v : Nat) : (c.setFld a hi lo v).free = c.free := rfl
@[simp] theorem Chip.setFld_evt (a hi lo v : Nat) : (c.setFld a hi lo v).evt = c.evt := rfl
@[simp] theorem Chip.setFld_mbx (a hi lo v : Nat) : (c.setFld a hi lo v).mbx = c.mbx := rfl
@[simp] theorem Chip.setFld_memc (a hi lo v : Nat) : (c.setFld a hi lo v).memc = c.memc := rfl
@[simp] theorem Chip.setFld_xdm (a hi lo v : Nat) : (c.setFld a hi lo v).xdm = c.xdm := rfl
@[simp] theorem Chip.setFld_tmu (a hi lo v : Nat) : (c.setFld a hi lo v).tmu = c.tmu := rfl
@[simp] theorem Chip.setFld_ang (a hi lo v : Nat) : (c.setFld a hi lo v).ang = c.ang := rfl
@[simp] theorem Chip.setFld_swx (a hi lo v : Nat) : (c.setFld a hi lo v).swx = c.swx := rfl
@[simp] theorem Chip.setFld_rq (a hi lo v : Nat) : (c.setFld a hi lo v).rq = c.rq := rfl
@[simp] theorem Chip.setFld_can (a hi lo v : Nat) : (c.setFld a hi lo v).can = c.can := rfl
@[simp] theorem Chip.setFld_core (a hi lo v : Nat) : (c.setFld a hi lo v).core = c.core := rfl
@[simp] theorem Chip.setFld_tsk (a hi lo v : Nat) : (c.setFld a hi lo v).tsk = c.tsk := rfl
@[simp] theorem Chip.setFld_mot (a hi lo v : Nat) : (c.setFld a hi lo v).mot = c.mot := rfl
@[simp] theorem Chip.setFld_skp (a hi lo v : Nat) : (c.setFld a hi lo v).skp = c.skp := rfl
@[simp] theorem Chip.setFld_pin (a hi lo v : Nat) : (c.setFld a hi lo v).pin = c.pin := rfl
@[simp] theorem Chip.setFld_sec (a hi lo v : Nat) : (c.setFld a hi lo v).sec = c.sec := rfl
@[simp] theorem Chip.setFld_evr (a hi lo v : Nat) : (c.setFld a hi lo v).evr = c.evr := rfl
@[simp] theorem Chip.setFld_hif (a hi lo v : Nat) : (c.setFld a hi lo v).hif = c.hif := rfl
@[simp] theorem Chip.setFld_pwr (a hi lo v : Nat) : (c.setFld a hi lo v).pwr = c.pwr := rfl
@[simp] theorem Chip.setFld_tst (a hi lo v : Nat) : (c.setFld a hi lo v).tst = c.tst := rfl

@[simp] theorem Chip.setBit_staged (a i : Nat) (b : Bool) : (c.setBit a i b).staged = c.staged := rfl
@[simp] theorem Chip.setBit_latched (a i : Nat) (b : Bool) : (c.setBit a i b).latched = c.latched := rfl
@[simp] theorem Chip.setBit_mem (a i : Nat) (b : Bool) : (c.setBit a i b).mem = c.mem := rfl
@[simp] theorem Chip.setBit_bus (a i : Nat) (b : Bool) : (c.setBit a i b).bus = c.bus := rfl
@[simp] theorem Chip.setBit_free (a i : Nat) (b : Bool) : (c.setBit a i b).free = c.free := rfl
@[simp] theorem Chip.setBit_evt (a i : Nat) (b : Bool) : (c.setBit a i b).evt = c.evt := rfl
@[simp] theorem Chip.setBit_mbx (a i : Nat) (b : Bool) : (c.setBit a i b).mbx = c.mbx := rfl
@[simp] theorem Chip.setBit_memc (a i : Nat) (b : Bool) : (c.setBit a i b).memc = c.memc := rfl
@[simp] theorem Chip.setBit_xdm (a i : Nat) (b : Bool) : (c.setBit a i b).xdm = c.xdm := rfl
@[simp] theorem Chip.setBit_tmu (a i : Nat) (b : Bool) : (c.setBit a i b).tmu = c.tmu := rfl
@[simp] theorem Chip.setBit_ang (a i : Nat) (b : Bool) : (c.setBit a i b).ang = c.ang := rfl
@[simp] theorem Chip.setBit_swx (a i : Nat) (b : Bool) : (c.setBit a i b).swx = c.swx := rfl
@[simp] theorem Chip.setBit_rq (a i : Nat) (b : Bool) : (c.setBit a i b).rq = c.rq := rfl
@[simp] theorem Chip.setBit_can (a i : Nat) (b : Bool) : (c.setBit a i b).can = c.can := rfl
@[simp] theorem Chip.setBit_core (a i : Nat) (b : Bool) : (c.setBit a i b).core = c.core := rfl
@[simp] theorem Chip.setBit_tsk (a i : Nat) (b : Bool) : (c.setBit a i b).tsk = c.tsk := rfl
@[simp] theorem Chip.setBit_mot (a i : Nat) (b : Bool) : (c.setBit a i b).mot = c.mot := rfl
@[simp] theorem Chip.setBit_skp (a i : Nat) (b : Bool) : (c.setBit a i b).skp = c.skp := rfl
@[simp] theorem Chip.setBit_pin (a i : Nat) (b : Bool) : (c.setBit a i b).pin = c.pin := rfl
@[simp] theorem Chip.setBit_sec (a i : Nat) (b : Bool) : (c.setBit a i b).sec = c.sec := rfl
@[simp] theorem Chip.setBit_evr (a i : Nat) (b : Bool) : (c.setBit a i b).evr = c.evr := rfl
@[simp] theorem Chip.setBit_hif (a i : Nat) (b : Bool) : (c.setBit a i b).hif = c.hif := rfl
@[simp] theorem Chip.setBit_pwr (a i : Nat) (b : Bool) : (c.setBit a i b).pwr = c.pwr := rfl
@[simp] theorem Chip.setBit_tst (a i : Nat) (b : Bool) : (c.setBit a i b).tst = c.tst := rfl

@[simp] theorem Chip.incSat_staged (a m : Nat) : (c.incSat a m).staged = c.staged := rfl
@[simp] theorem Chip.incSat_latched (a m : Nat) : (c.incSat a m).latched = c.latched := rfl
@[simp] theorem Chip.incSat_mem (a m : Nat) : (c.incSat a m).mem = c.mem := rfl
@[simp] theorem Chip.incSat_bus (a m : Nat) : (c.incSat a m).bus = c.bus := rfl
@[simp] theorem Chip.incSat_free (a m : Nat) : (c.incSat a m).free = c.free := rfl
@[simp] theorem Chip.incSat_evt (a m : Nat) : (c.incSat a m).evt = c.evt := rfl
@[simp] theorem Chip.incSat_mbx (a m : Nat) : (c.incSat a m).mbx = c.mbx := rfl
@[simp] theorem Chip.incSat_memc (a m : Nat) : (c.incSat a m).memc = c.memc := rfl
@[simp] theorem Chip.incSat_xdm (a m : Nat) : (c.incSat a m).xdm = c.xdm := rfl
@[simp] theorem Chip.incSat_tmu (a m : Nat) : (c.incSat a m).tmu = c.tmu := rfl
@[simp] theorem Chip.incSat_ang (a m : Nat) : (c.incSat a m).ang = c.ang := rfl
@[simp] theorem Chip.incSat_swx (a m : Nat) : (c.incSat a m).swx = c.swx := rfl
@[simp] theorem Chip.incSat_rq (a m : Nat) : (c.incSat a m).rq = c.rq := rfl
@[simp] theorem Chip.incSat_can (a m : Nat) : (c.incSat a m).can = c.can := rfl
@[simp] theorem Chip.incSat_core (a m : Nat) : (c.incSat a m).core = c.core := rfl
@[simp] theorem Chip.incSat_tsk (a m : Nat) : (c.incSat a m).tsk = c.tsk := rfl
@[simp] theorem Chip.incSat_mot (a m : Nat) : (c.incSat a m).mot = c.mot := rfl
@[simp] theorem Chip.incSat_skp (a m : Nat) : (c.incSat a m).skp = c.skp := rfl
@[simp] theorem Chip.incSat_pin (a m : Nat) : (c.incSat a m).pin = c.pin := rfl
@[simp] theorem Chip.incSat_sec (a m : Nat) : (c.incSat a m).sec = c.sec := rfl
@[simp] theorem Chip.incSat_evr (a m : Nat) : (c.incSat a m).evr = c.evr := rfl
@[simp] theorem Chip.incSat_hif (a m : Nat) : (c.incSat a m).hif = c.hif := rfl
@[simp] theorem Chip.incSat_pwr (a m : Nat) : (c.incSat a m).pwr = c.pwr := rfl
@[simp] theorem Chip.incSat_tst (a m : Nat) : (c.incSat a m).tst = c.tst := rfl

@[simp] theorem Chip.inc_staged (a : Nat) : (c.inc a).staged = c.staged := rfl
@[simp] theorem Chip.inc_latched (a : Nat) : (c.inc a).latched = c.latched := rfl
@[simp] theorem Chip.inc_mem (a : Nat) : (c.inc a).mem = c.mem := rfl
@[simp] theorem Chip.inc_bus (a : Nat) : (c.inc a).bus = c.bus := rfl
@[simp] theorem Chip.inc_free (a : Nat) : (c.inc a).free = c.free := rfl
@[simp] theorem Chip.inc_evt (a : Nat) : (c.inc a).evt = c.evt := rfl
@[simp] theorem Chip.inc_mbx (a : Nat) : (c.inc a).mbx = c.mbx := rfl
@[simp] theorem Chip.inc_memc (a : Nat) : (c.inc a).memc = c.memc := rfl
@[simp] theorem Chip.inc_xdm (a : Nat) : (c.inc a).xdm = c.xdm := rfl
@[simp] theorem Chip.inc_tmu (a : Nat) : (c.inc a).tmu = c.tmu := rfl
@[simp] theorem Chip.inc_ang (a : Nat) : (c.inc a).ang = c.ang := rfl
@[simp] theorem Chip.inc_swx (a : Nat) : (c.inc a).swx = c.swx := rfl
@[simp] theorem Chip.inc_rq (a : Nat) : (c.inc a).rq = c.rq := rfl
@[simp] theorem Chip.inc_can (a : Nat) : (c.inc a).can = c.can := rfl
@[simp] theorem Chip.inc_core (a : Nat) : (c.inc a).core = c.core := rfl
@[simp] theorem Chip.inc_tsk (a : Nat) : (c.inc a).tsk = c.tsk := rfl
@[simp] theorem Chip.inc_mot (a : Nat) : (c.inc a).mot = c.mot := rfl
@[simp] theorem Chip.inc_skp (a : Nat) : (c.inc a).skp = c.skp := rfl
@[simp] theorem Chip.inc_pin (a : Nat) : (c.inc a).pin = c.pin := rfl
@[simp] theorem Chip.inc_sec (a : Nat) : (c.inc a).sec = c.sec := rfl
@[simp] theorem Chip.inc_evr (a : Nat) : (c.inc a).evr = c.evr := rfl
@[simp] theorem Chip.inc_hif (a : Nat) : (c.inc a).hif = c.hif := rfl
@[simp] theorem Chip.inc_pwr (a : Nat) : (c.inc a).pwr = c.pwr := rfl
@[simp] theorem Chip.inc_tst (a : Nat) : (c.inc a).tst = c.tst := rfl

@[simp] theorem Chip.stage_regs (a : Nat) (v : W32) : (c.stage a v).regs = c.regs := rfl
@[simp] theorem Chip.stage_latched (a : Nat) (v : W32) : (c.stage a v).latched = c.latched := rfl
@[simp] theorem Chip.stage_mem (a : Nat) (v : W32) : (c.stage a v).mem = c.mem := rfl
@[simp] theorem Chip.stage_bus (a : Nat) (v : W32) : (c.stage a v).bus = c.bus := rfl
@[simp] theorem Chip.stage_free (a : Nat) (v : W32) : (c.stage a v).free = c.free := rfl
@[simp] theorem Chip.stage_evt (a : Nat) (v : W32) : (c.stage a v).evt = c.evt := rfl
@[simp] theorem Chip.stage_mbx (a : Nat) (v : W32) : (c.stage a v).mbx = c.mbx := rfl
@[simp] theorem Chip.stage_memc (a : Nat) (v : W32) : (c.stage a v).memc = c.memc := rfl
@[simp] theorem Chip.stage_xdm (a : Nat) (v : W32) : (c.stage a v).xdm = c.xdm := rfl
@[simp] theorem Chip.stage_tmu (a : Nat) (v : W32) : (c.stage a v).tmu = c.tmu := rfl
@[simp] theorem Chip.stage_ang (a : Nat) (v : W32) : (c.stage a v).ang = c.ang := rfl
@[simp] theorem Chip.stage_swx (a : Nat) (v : W32) : (c.stage a v).swx = c.swx := rfl
@[simp] theorem Chip.stage_rq (a : Nat) (v : W32) : (c.stage a v).rq = c.rq := rfl
@[simp] theorem Chip.stage_can (a : Nat) (v : W32) : (c.stage a v).can = c.can := rfl
@[simp] theorem Chip.stage_core (a : Nat) (v : W32) : (c.stage a v).core = c.core := rfl
@[simp] theorem Chip.stage_tsk (a : Nat) (v : W32) : (c.stage a v).tsk = c.tsk := rfl
@[simp] theorem Chip.stage_mot (a : Nat) (v : W32) : (c.stage a v).mot = c.mot := rfl
@[simp] theorem Chip.stage_skp (a : Nat) (v : W32) : (c.stage a v).skp = c.skp := rfl
@[simp] theorem Chip.stage_pin (a : Nat) (v : W32) : (c.stage a v).pin = c.pin := rfl
@[simp] theorem Chip.stage_sec (a : Nat) (v : W32) : (c.stage a v).sec = c.sec := rfl
@[simp] theorem Chip.stage_evr (a : Nat) (v : W32) : (c.stage a v).evr = c.evr := rfl
@[simp] theorem Chip.stage_hif (a : Nat) (v : W32) : (c.stage a v).hif = c.hif := rfl
@[simp] theorem Chip.stage_pwr (a : Nat) (v : W32) : (c.stage a v).pwr = c.pwr := rfl
@[simp] theorem Chip.stage_tst (a : Nat) (v : W32) : (c.stage a v).tst = c.tst := rfl

@[simp] theorem Chip.setReg64_latched (a v : Nat) : (c.setReg64 a v).latched = c.latched := rfl
@[simp] theorem Chip.setReg64_mem (a v : Nat) : (c.setReg64 a v).mem = c.mem := rfl
@[simp] theorem Chip.setReg64_bus (a v : Nat) : (c.setReg64 a v).bus = c.bus := rfl
@[simp] theorem Chip.setReg64_free (a v : Nat) : (c.setReg64 a v).free = c.free := rfl
@[simp] theorem Chip.setReg64_evt (a v : Nat) : (c.setReg64 a v).evt = c.evt := rfl
@[simp] theorem Chip.setReg64_mbx (a v : Nat) : (c.setReg64 a v).mbx = c.mbx := rfl
@[simp] theorem Chip.setReg64_memc (a v : Nat) : (c.setReg64 a v).memc = c.memc := rfl
@[simp] theorem Chip.setReg64_xdm (a v : Nat) : (c.setReg64 a v).xdm = c.xdm := rfl
@[simp] theorem Chip.setReg64_tmu (a v : Nat) : (c.setReg64 a v).tmu = c.tmu := rfl
@[simp] theorem Chip.setReg64_ang (a v : Nat) : (c.setReg64 a v).ang = c.ang := rfl
@[simp] theorem Chip.setReg64_swx (a v : Nat) : (c.setReg64 a v).swx = c.swx := rfl
@[simp] theorem Chip.setReg64_rq (a v : Nat) : (c.setReg64 a v).rq = c.rq := rfl
@[simp] theorem Chip.setReg64_can (a v : Nat) : (c.setReg64 a v).can = c.can := rfl
@[simp] theorem Chip.setReg64_core (a v : Nat) : (c.setReg64 a v).core = c.core := rfl
@[simp] theorem Chip.setReg64_tsk (a v : Nat) : (c.setReg64 a v).tsk = c.tsk := rfl
@[simp] theorem Chip.setReg64_mot (a v : Nat) : (c.setReg64 a v).mot = c.mot := rfl
@[simp] theorem Chip.setReg64_skp (a v : Nat) : (c.setReg64 a v).skp = c.skp := rfl
@[simp] theorem Chip.setReg64_pin (a v : Nat) : (c.setReg64 a v).pin = c.pin := rfl
@[simp] theorem Chip.setReg64_sec (a v : Nat) : (c.setReg64 a v).sec = c.sec := rfl
@[simp] theorem Chip.setReg64_evr (a v : Nat) : (c.setReg64 a v).evr = c.evr := rfl
@[simp] theorem Chip.setReg64_hif (a v : Nat) : (c.setReg64 a v).hif = c.hif := rfl
@[simp] theorem Chip.setReg64_pwr (a v : Nat) : (c.setReg64 a v).pwr = c.pwr := rfl
@[simp] theorem Chip.setReg64_tst (a v : Nat) : (c.setReg64 a v).tst = c.tst := rfl

@[simp] theorem Chip.answer_regs (r : BusResult) : (c.answer r).regs = c.regs := rfl
@[simp] theorem Chip.answer_staged (r : BusResult) : (c.answer r).staged = c.staged := rfl
@[simp] theorem Chip.answer_latched (r : BusResult) : (c.answer r).latched = c.latched := rfl
@[simp] theorem Chip.answer_mem (r : BusResult) : (c.answer r).mem = c.mem := rfl
@[simp] theorem Chip.answer_free (r : BusResult) : (c.answer r).free = c.free := rfl
@[simp] theorem Chip.answer_evt (r : BusResult) : (c.answer r).evt = c.evt := rfl
@[simp] theorem Chip.answer_mbx (r : BusResult) : (c.answer r).mbx = c.mbx := rfl
@[simp] theorem Chip.answer_memc (r : BusResult) : (c.answer r).memc = c.memc := rfl
@[simp] theorem Chip.answer_xdm (r : BusResult) : (c.answer r).xdm = c.xdm := rfl
@[simp] theorem Chip.answer_tmu (r : BusResult) : (c.answer r).tmu = c.tmu := rfl
@[simp] theorem Chip.answer_ang (r : BusResult) : (c.answer r).ang = c.ang := rfl
@[simp] theorem Chip.answer_swx (r : BusResult) : (c.answer r).swx = c.swx := rfl
@[simp] theorem Chip.answer_rq (r : BusResult) : (c.answer r).rq = c.rq := rfl
@[simp] theorem Chip.answer_can (r : BusResult) : (c.answer r).can = c.can := rfl
@[simp] theorem Chip.answer_core (r : BusResult) : (c.answer r).core = c.core := rfl
@[simp] theorem Chip.answer_tsk (r : BusResult) : (c.answer r).tsk = c.tsk := rfl
@[simp] theorem Chip.answer_mot (r : BusResult) : (c.answer r).mot = c.mot := rfl
@[simp] theorem Chip.answer_skp (r : BusResult) : (c.answer r).skp = c.skp := rfl
@[simp] theorem Chip.answer_pin (r : BusResult) : (c.answer r).pin = c.pin := rfl
@[simp] theorem Chip.answer_sec (r : BusResult) : (c.answer r).sec = c.sec := rfl
@[simp] theorem Chip.answer_evr (r : BusResult) : (c.answer r).evr = c.evr := rfl
@[simp] theorem Chip.answer_hif (r : BusResult) : (c.answer r).hif = c.hif := rfl
@[simp] theorem Chip.answer_pwr (r : BusResult) : (c.answer r).pwr = c.pwr := rfl
@[simp] theorem Chip.answer_tst (r : BusResult) : (c.answer r).tst = c.tst := rfl

@[simp] theorem Chip.done_regs : (c.done).regs = c.regs := rfl
@[simp] theorem Chip.done_staged : (c.done).staged = c.staged := rfl
@[simp] theorem Chip.done_latched : (c.done).latched = c.latched := rfl
@[simp] theorem Chip.done_mem : (c.done).mem = c.mem := rfl
@[simp] theorem Chip.done_free : (c.done).free = c.free := rfl
@[simp] theorem Chip.done_evt : (c.done).evt = c.evt := rfl
@[simp] theorem Chip.done_mbx : (c.done).mbx = c.mbx := rfl
@[simp] theorem Chip.done_memc : (c.done).memc = c.memc := rfl
@[simp] theorem Chip.done_xdm : (c.done).xdm = c.xdm := rfl
@[simp] theorem Chip.done_tmu : (c.done).tmu = c.tmu := rfl
@[simp] theorem Chip.done_ang : (c.done).ang = c.ang := rfl
@[simp] theorem Chip.done_swx : (c.done).swx = c.swx := rfl
@[simp] theorem Chip.done_rq : (c.done).rq = c.rq := rfl
@[simp] theorem Chip.done_can : (c.done).can = c.can := rfl
@[simp] theorem Chip.done_core : (c.done).core = c.core := rfl
@[simp] theorem Chip.done_tsk : (c.done).tsk = c.tsk := rfl
@[simp] theorem Chip.done_mot : (c.done).mot = c.mot := rfl
@[simp] theorem Chip.done_skp : (c.done).skp = c.skp := rfl
@[simp] theorem Chip.done_pin : (c.done).pin = c.pin := rfl
@[simp] theorem Chip.done_sec : (c.done).sec = c.sec := rfl
@[simp] theorem Chip.done_evr : (c.done).evr = c.evr := rfl
@[simp] theorem Chip.done_hif : (c.done).hif = c.hif := rfl
@[simp] theorem Chip.done_pwr : (c.done).pwr = c.pwr := rfl
@[simp] theorem Chip.done_tst : (c.done).tst = c.tst := rfl

@[simp] theorem Chip.refuse_regs : (c.refuse).regs = c.regs := rfl
@[simp] theorem Chip.refuse_staged : (c.refuse).staged = c.staged := rfl
@[simp] theorem Chip.refuse_latched : (c.refuse).latched = c.latched := rfl
@[simp] theorem Chip.refuse_mem : (c.refuse).mem = c.mem := rfl
@[simp] theorem Chip.refuse_free : (c.refuse).free = c.free := rfl
@[simp] theorem Chip.refuse_evt : (c.refuse).evt = c.evt := rfl
@[simp] theorem Chip.refuse_mbx : (c.refuse).mbx = c.mbx := rfl
@[simp] theorem Chip.refuse_memc : (c.refuse).memc = c.memc := rfl
@[simp] theorem Chip.refuse_xdm : (c.refuse).xdm = c.xdm := rfl
@[simp] theorem Chip.refuse_tmu : (c.refuse).tmu = c.tmu := rfl
@[simp] theorem Chip.refuse_ang : (c.refuse).ang = c.ang := rfl
@[simp] theorem Chip.refuse_swx : (c.refuse).swx = c.swx := rfl
@[simp] theorem Chip.refuse_rq : (c.refuse).rq = c.rq := rfl
@[simp] theorem Chip.refuse_can : (c.refuse).can = c.can := rfl
@[simp] theorem Chip.refuse_core : (c.refuse).core = c.core := rfl
@[simp] theorem Chip.refuse_tsk : (c.refuse).tsk = c.tsk := rfl
@[simp] theorem Chip.refuse_mot : (c.refuse).mot = c.mot := rfl
@[simp] theorem Chip.refuse_skp : (c.refuse).skp = c.skp := rfl
@[simp] theorem Chip.refuse_pin : (c.refuse).pin = c.pin := rfl
@[simp] theorem Chip.refuse_sec : (c.refuse).sec = c.sec := rfl
@[simp] theorem Chip.refuse_evr : (c.refuse).evr = c.evr := rfl
@[simp] theorem Chip.refuse_hif : (c.refuse).hif = c.hif := rfl
@[simp] theorem Chip.refuse_pwr : (c.refuse).pwr = c.pwr := rfl
@[simp] theorem Chip.refuse_tst : (c.refuse).tst = c.tst := rfl

@[simp] theorem Chip.raise_staged (src code : Nat) : (c.raise src code).staged = c.staged := rfl
@[simp] theorem Chip.raise_latched (src code : Nat) : (c.raise src code).latched = c.latched := rfl
@[simp] theorem Chip.raise_mem (src code : Nat) : (c.raise src code).mem = c.mem := rfl
@[simp] theorem Chip.raise_bus (src code : Nat) : (c.raise src code).bus = c.bus := rfl
@[simp] theorem Chip.raise_free (src code : Nat) : (c.raise src code).free = c.free := rfl
@[simp] theorem Chip.raise_mbx (src code : Nat) : (c.raise src code).mbx = c.mbx := rfl
@[simp] theorem Chip.raise_memc (src code : Nat) : (c.raise src code).memc = c.memc := rfl
@[simp] theorem Chip.raise_xdm (src code : Nat) : (c.raise src code).xdm = c.xdm := rfl
@[simp] theorem Chip.raise_tmu (src code : Nat) : (c.raise src code).tmu = c.tmu := rfl
@[simp] theorem Chip.raise_ang (src code : Nat) : (c.raise src code).ang = c.ang := rfl
@[simp] theorem Chip.raise_swx (src code : Nat) : (c.raise src code).swx = c.swx := rfl
@[simp] theorem Chip.raise_rq (src code : Nat) : (c.raise src code).rq = c.rq := rfl
@[simp] theorem Chip.raise_can (src code : Nat) : (c.raise src code).can = c.can := rfl
@[simp] theorem Chip.raise_core (src code : Nat) : (c.raise src code).core = c.core := rfl
@[simp] theorem Chip.raise_tsk (src code : Nat) : (c.raise src code).tsk = c.tsk := rfl
@[simp] theorem Chip.raise_mot (src code : Nat) : (c.raise src code).mot = c.mot := rfl
@[simp] theorem Chip.raise_skp (src code : Nat) : (c.raise src code).skp = c.skp := rfl
@[simp] theorem Chip.raise_pin (src code : Nat) : (c.raise src code).pin = c.pin := rfl
@[simp] theorem Chip.raise_sec (src code : Nat) : (c.raise src code).sec = c.sec := rfl
@[simp] theorem Chip.raise_evr (src code : Nat) : (c.raise src code).evr = c.evr := rfl
@[simp] theorem Chip.raise_hif (src code : Nat) : (c.raise src code).hif = c.hif := rfl
@[simp] theorem Chip.raise_pwr (src code : Nat) : (c.raise src code).pwr = c.pwr := rfl
@[simp] theorem Chip.raise_tst (src code : Nat) : (c.raise src code).tst = c.tst := rfl

@[simp] theorem Chip.flag_staged (a i src : Nat) : (c.flag a i src).staged = c.staged := rfl
@[simp] theorem Chip.flag_latched (a i src : Nat) : (c.flag a i src).latched = c.latched := rfl
@[simp] theorem Chip.flag_mem (a i src : Nat) : (c.flag a i src).mem = c.mem := rfl
@[simp] theorem Chip.flag_bus (a i src : Nat) : (c.flag a i src).bus = c.bus := rfl
@[simp] theorem Chip.flag_free (a i src : Nat) : (c.flag a i src).free = c.free := rfl
@[simp] theorem Chip.flag_mbx (a i src : Nat) : (c.flag a i src).mbx = c.mbx := rfl
@[simp] theorem Chip.flag_memc (a i src : Nat) : (c.flag a i src).memc = c.memc := rfl
@[simp] theorem Chip.flag_xdm (a i src : Nat) : (c.flag a i src).xdm = c.xdm := rfl
@[simp] theorem Chip.flag_tmu (a i src : Nat) : (c.flag a i src).tmu = c.tmu := rfl
@[simp] theorem Chip.flag_ang (a i src : Nat) : (c.flag a i src).ang = c.ang := rfl
@[simp] theorem Chip.flag_swx (a i src : Nat) : (c.flag a i src).swx = c.swx := rfl
@[simp] theorem Chip.flag_rq (a i src : Nat) : (c.flag a i src).rq = c.rq := rfl
@[simp] theorem Chip.flag_can (a i src : Nat) : (c.flag a i src).can = c.can := rfl
@[simp] theorem Chip.flag_core (a i src : Nat) : (c.flag a i src).core = c.core := rfl
@[simp] theorem Chip.flag_tsk (a i src : Nat) : (c.flag a i src).tsk = c.tsk := rfl
@[simp] theorem Chip.flag_mot (a i src : Nat) : (c.flag a i src).mot = c.mot := rfl
@[simp] theorem Chip.flag_skp (a i src : Nat) : (c.flag a i src).skp = c.skp := rfl
@[simp] theorem Chip.flag_pin (a i src : Nat) : (c.flag a i src).pin = c.pin := rfl
@[simp] theorem Chip.flag_sec (a i src : Nat) : (c.flag a i src).sec = c.sec := rfl
@[simp] theorem Chip.flag_evr (a i src : Nat) : (c.flag a i src).evr = c.evr := rfl
@[simp] theorem Chip.flag_hif (a i src : Nat) : (c.flag a i src).hif = c.hif := rfl
@[simp] theorem Chip.flag_pwr (a i src : Nat) : (c.flag a i src).pwr = c.pwr := rfl
@[simp] theorem Chip.flag_tst (a i src : Nat) : (c.flag a i src).tst = c.tst := rfl

/-! ### Register values -/

theorem Chip.reg_setReg (a : Nat) (v : W32) (b : Nat) : (c.setReg a v).reg b = if b = a then v else c.reg b := by
  unfold Chip.reg Chip.setReg
  by_cases h : b = a
  · subst h; simp
  · simp [h, tblGet_set_other _ _ _ _ h]

@[simp] theorem Chip.reg_setReg_same (a : Nat) (v : W32) : (c.setReg a v).reg a = v := by simp [Chip.reg_setReg]

theorem Chip.reg_setReg_other {a b : Nat} (v : W32) (h : b ≠ a) : (c.setReg a v).reg b = c.reg b := by
  simp [Chip.reg_setReg, h]

theorem Chip.reg_setFld (a hi lo v b : Nat) :
    (c.setFld a hi lo v).reg b = if b = a then wsetFld (c.reg a) hi lo v else c.reg b := c.reg_setReg a _ b

theorem Chip.reg_setBit (a i : Nat) (x : Bool) (b : Nat) :
    (c.setBit a i x).reg b = if b = a then wsetBit (c.reg a) i x else c.reg b := c.reg_setReg a _ b

theorem Chip.reg_incSat (a m b : Nat) :
    (c.incSat a m).reg b = if b = a then w32 (satTo m ((c.reg a).toNat + 1)) else c.reg b := c.reg_setReg a _ b

theorem Chip.reg_inc (a b : Nat) :
    (c.inc a).reg b = if b = a then w32 (satTo 0xFFFFFFFF ((c.reg a).toNat + 1)) else c.reg b := c.reg_setReg a _ b

@[simp] theorem Chip.reg_stage (a : Nat) (v : W32) (b : Nat) : (c.stage a v).reg b = c.reg b := rfl

@[simp] theorem Chip.reg_answer (r : BusResult) (b : Nat) : (c.answer r).reg b = c.reg b := rfl

@[simp] theorem Chip.reg_done (b : Nat) : c.done.reg b = c.reg b := rfl

@[simp] theorem Chip.reg_refuse (b : Nat) : c.refuse.reg b = c.reg b := rfl

theorem Chip.reg_raise (src code b : Nat) : (c.raise src code).reg b =
    if b = EVT_PEND (src / 32) then wsetBit (c.reg (EVT_PEND (src / 32))) (src % 32) true else c.reg b :=
  c.reg_setBit _ _ _ b

theorem Chip.reg_setReg64 (a v b : Nat) : (c.setReg64 a v).reg b =
    if b = a + 4 then hi32 v else if b = a then lo32 v else c.reg b := by
  unfold Chip.setReg64
  simp only [Chip.reg_stage, Chip.reg_setReg]

theorem Chip.bit_setBit (a i : Nat) (x : Bool) (b j : Nat) (hi : i < 32) :
    (c.setBit a i x).bit b j = if b = a ∧ j = i then x else c.bit b j := by
  unfold Chip.bit
  rw [Chip.reg_setBit]
  by_cases h : b = a
  · subst h; simp [wbit_wsetBit _ _ _ _ hi]
  · simp [h]

@[simp] theorem Chip.stagedPart_stage_same (a : Nat) (v : W32) : (c.stage a v).stagedPart a = v := by
  simp [Chip.stagedPart, Chip.stage]

@[simp] theorem Chip.done_bus : c.done.bus = .ok 0 := rfl

@[simp] theorem Chip.refuse_bus : c.refuse.bus = .busError := rfl

@[simp] theorem Chip.answer_bus (r : BusResult) : (c.answer r).bus = r := rfl

/-- What raising a source adds to the events that wait (R397). -/
theorem Chip.raise_evt (src code : Nat) : (c.raise src code).evt = { c.evt with
    raised := c.evt.raised ++ [⟨src, code, c.tmu.lt, (c.setBit (EVT_PEND (src / 32)) (src % 32) true).reg (EVT_ROUTE src)⟩] } :=
  rfl

end Sys2Proof.Machine
end

