-- ==== Sys2Proof/Tests/Slice0.lean ====
section
/-!
SUPPORT. Tests: ill-formed terms that the well-formedness check refuses; for each obligation with hypotheses a
concrete state and operands that meet them, at the edges of their ranges; and steps whose results the spec states.
-/
namespace Sys2Proof.Tests
open Machine

set_option Elab.async false

/-! ### Small states -/

/-- The device after reset, in RUN. -/
def base : Chip := Chip.reset.setReg SYS_STATE 5

theorem test_base_runs : base.runs = true ∧ base.supplied = true := by decide

/-- The device in RUN, but for some registers. -/
def dev (rs : List (Nat × W32)) : Chip := rs.foldl (fun c r => c.setReg r.1 r.2) base

/-- The device in RUN with domain A in a state. -/
def domDev (st : DomSt) : Chip := base.setDom .a { base.dom .a with st := st }

/-- The device in RUN with shaft 0 in a state. -/
def shaftDev (st : ShSt) : Chip := base.setShaft 0 { base.shaft 0 with st := st }

/-- The device that an outcome leaves; the one in RUN where there is none. -/
def left (r : Result) : Chip := match r with
  | .next s => s.chip
  | _ => base

/-- The device that a command leaves. -/
def does (i : Instr) (c : Chip) : Chip := left (exec i ⟨[], c⟩)

/-- The device in RUN with port `p` in a mode, its link up or down. -/
def portDev (p mode : Nat) (up : Bool) : Chip := (dev [(ETH_Pn_STAT p, w32 mode)]).setBit (ETH_Pn_STAT p) 31 up

/-- A good frame of `n` zero octets. -/
def rxFrame (n : Nat) : RxFrame := ⟨List.replicate n 0, true, false, false, 0, false, false, 0, 0, 0, false⟩

/-- A frame in transmission after `colls` collisions. -/
def txFrame (colls : Nat) (backoff : Option Nat) (stomp : Bool) : TxFrame :=
  ⟨⟨0, 0, false, .none, none⟩, [], ⟨0, 0, 0, 0⟩, 0, 0, colls, backoff, false, stomp⟩

/-- The device in RUN with a shared buffer that holds one frame of this length. -/
def bufferDev (len : Nat) : Chip :=
  { base with swx := { base.swx with frames := [(0, ⟨[], len, 0, none, 0⟩)] } }

/-- The device in RUN with an entry of a table. -/
def tableDev (t i : Nat) (e : List W32) : Chip := base.setEntry t i e

/-- A frame of two data octets with an 11-bit identifier, valid in each format. -/
def canFrame : CanFrame := ⟨0, false, 2047, false, false, false, 0, 0, [1, 2]⟩

/-! ### Well-formedness: an ill-formed term for each check -/

theorem test_wf_register_write :
    (Instr.registerWrite 0 0 0 0).wf = false ∧ (Instr.registerWrite 0 0 65 0).wf = false ∧
    (Instr.registerWrite 0 0 64 0).wf = true := by decide

theorem test_wf_split_register_latch :
    (Instr.splitRegisterLatch 0 0 0).wf = false ∧ (Instr.splitRegisterLatch 0 0 65).wf = false := by decide

theorem long_data : (List.replicate 65536 (0 : Byte)).length = 65536 := List.length_replicate

theorem test_wf_ulp_echo_request : (Instr.ulpEchoRequest 0 0 (List.replicate 65536 0) none).wf = false := by
  change decide ((List.replicate 65536 (0 : Byte)).length ≤ 65535) = false
  rw [long_data]
  decide

theorem test_wf_autoneg_complete :
    (Instr.autonegComplete 0 ⟨0, 3, 0, false, false⟩).wf = false ∧
    (Instr.autonegComplete 0 ⟨0, 0, 8, false, false⟩).wf = false := by decide

theorem test_wf_frame_receive : (Instr.frameReceive 0
    ⟨List.replicate 65536 0, true, false, false, 0, false, false, 0, 0, 0, false⟩).wf = false := by
  change decide ((List.replicate 65536 (0 : Byte)).length ≤ 65535) = false
  rw [long_data]
  decide

theorem test_wf_cable_test_done :
    (Instr.cableTestDone 0 [⟨0, 0⟩]).wf = false ∧
    (Instr.cableTestDone 0 [⟨16, 0⟩, ⟨0, 0⟩, ⟨0, 0⟩, ⟨0, 0⟩]).wf = false ∧
    (Instr.cableTestDone 0 [⟨0, 65536⟩, ⟨0, 0⟩, ⟨0, 0⟩, ⟨0, 0⟩]).wf = false := by decide

theorem test_wf_can_bus_error : (Instr.canBusError 0 ⟨.frame, 8, false⟩).wf = false := by decide

theorem test_wf_can_frames :
    (Instr.canRxFrame 0 { canFrame with fmt := 3 } ⟨false, 0⟩).wf = false ∧
    (Instr.canReferenceReceived 0 { canFrame with id := 2048 } 0).wf = false ∧
    (Instr.canVetoReceived 0 { canFrame with payload := List.replicate 9 0 } 0).wf = false ∧
    (Instr.canRxFrame 0 canFrame ⟨true, 0⟩).wf = true := by decide

theorem test_wf_contexts :
    (Instr.waitWake 0 2).wf = false ∧ (Instr.waitTimeout 10 4).wf = false ∧ (Instr.waitWake 2 7).wf = true := by decide

theorem test_wf_march_results :
    (Instr.marchDone [⟨32, [], []⟩]).wf = false ∧
    (Instr.bootRomRun ⟨true, true, [⟨32, [], []⟩], true⟩).wf = false := by decide

theorem test_wf_bar_accesses :
    (Instr.bar0Access false 0 0 0).wf = false ∧ (Instr.bar0Access false 65536 4 0).wf = false ∧
    (Instr.bar2Access false 0 4097 []).wf = false ∧ (Instr.bar2Access false (2 ^ 24) 4 []).wf = false ∧
    (Instr.bar2Access true 0 4 []).wf = false := by decide

theorem test_wf_outbound_access :
    (Instr.outboundAccess 0 false 0 65 []).wf = false ∧ (Instr.outboundAccess 0 true 0 4 []).wf = false ∧
    (Instr.outboundAccess 0 false (2 ^ 28) 4 []).wf = false := by decide

theorem test_wf_serial_and_parallel_paths :
    (Instr.xspiRead 0 0).wf = false ∧ (Instr.xspiWrite 0 []).wf = false ∧
    (Instr.parallelBusRead (2 ^ 25)).wf = false ∧ (Instr.parallelBusWrite (2 ^ 25) 0).wf = false := by decide

theorem test_wf_measured_and_scanned :
    (Instr.temperatureLimit 2048).wf = false ∧ (Instr.temperatureLimit (-2049)).wf = false ∧
    (Instr.temperatureLimit (-2048)).wf = true ∧ (Instr.debugAccess (2 ^ 66)).wf = false := by decide

/-! ### Hypotheses that hold somewhere: registers and line time (chapters 01 and 02) -/

/-- The edges of the peripheral windows and of the holes beside them (R32). -/
theorem witness_register_accesses :
    regionOf (0x40000002#32).toNat = .periph ∧ (0x40000002#32).toNat % 4 ≠ 0 ∧
    regionOf (0x4015FFFC#32).toNat = .periph ∧ (0x4015FFFC#32).toNat % 4 = 0 ∧
    regionOf (0x40160000#32).toNat = .unassigned ∧ regionOf (0x3FFFFFFC#32).toNat = .unassigned ∧
    (0 : Nat) ≠ (1 : Master).val := by decide

theorem witness_tick :
    ((domDev .locked).dom .a).st ≠ .idle ∧ ((domDev .locked).dom .a).step = none ∧ (base.dom .b).st = .idle ∧
    (base.dom base.active).step = none ∧
    (let c := (domDev .acquire).setDom .a { (domDev .acquire).dom .a with step := some 7 }
     (c.dom .a).st ≠ .idle ∧ (c.dom .a).step = some 7 ∧ c.active = .a ∧ c.lineSteps = false) := by decide

/-- Both ends of the rate's range, in a domain whose time is far from the wrap. -/
theorem witness_line_time :
    (let c := (domDev .locked).setDom .a { (domDev .locked).dom .a with r := rateLimit }
     let s := c.dom c.active
     s.st ≠ .idle ∧ (s.step = none ∨ c.lineSteps = false) ∧ -rateLimit ≤ s.r ∧ s.r ≤ rateLimit ∧
     (c.reg TMU_SLEW).toNat ≤ 1000 ∧ c.lt = wrap 80 ((s.d + c.tmu.h) / 2 ^ 32) ∧ 0 ≤ s.d + c.tmu.h ∧
     s.d + c.tmu.h < 2 ^ 112 - 2 ^ 49) ∧
    (let c := (dev [(TMU_SLEW, 1000)]).setDom .a { (domDev .failed).dom .a with r := -rateLimit }
     let s := c.dom c.active
     s.st ≠ .idle ∧ (s.step = none ∨ c.lineSteps = false) ∧ -rateLimit ≤ s.r ∧ s.r ≤ rateLimit ∧
     (c.reg TMU_SLEW).toNat ≤ 1000 ∧ c.lt = wrap 80 ((s.d + c.tmu.h) / 2 ^ 32) ∧ 0 ≤ s.d + c.tmu.h ∧
     s.d + c.tmu.h < 2 ^ 112 - 2 ^ 49) := by decide

/-- SUP may write every domain after reset (R49), the firmware engine of its own domain only. -/
theorem witness_domain_commands :
    base.timeMaster (0 : Master).val = true ∧ base.timeMaster (1 : Master).val = false ∧
    (OnlyBit (0 ||| 0x1) 5 0 ∧ (base.dom .b).st = .idle ∧ ((domDev .failed).dom .a).st = .failed) ∧
    (base.active = .a ∧ base.tmu.h = 0) ∧
    (({ base with tmu := { base.tmu with h := 1 } } : Chip).tmu.h ≠ 0) ∧
    (OnlyBit (0 ||| 0x2) 5 1 ∧ ((domDev .acquire).dom .a).st = .acquire) ∧
    (OnlyBit (0 ||| 0x4) 5 2 ∧ ((domDev .locked).dom .a).st = .locked ∧ ((domDev .holdover).dom .a).st = .holdover) ∧
    OnlyBit (0 ||| 0x8) 5 3 ∧
    (OnlyBit (0 ||| 0x10) 5 4 ∧ ((domDev .locked).setDom .b ((domDev .locked).dom .a)).active ≠ .b) := by
  unfold OnlyBit; decide

theorem witness_domain_refusals :
    base.timeMaster (1 : Master).val = false ∧ base.timeMaster (0 : Master).val = true ∧
    1 < bitCount (0x2 ||| 0x1) 5 ∧ 1 < bitCount (0x1 ||| 0x10) 5 ∧
    (OnlyBit (0 ||| 0x1) 5 0 ∧ ((domDev .locked).dom .a).st ≠ .idle ∧ ((domDev .locked).dom .a).st ≠ .failed) ∧
    (OnlyBit (0 ||| 0x8) 5 3 ∧ (base.dom .a).st = .idle) ∧ (OnlyBit (0 ||| 0x10) 5 4 ∧ base.active = .a) := by
  unfold OnlyBit; decide

/-- A commit at each end of its range and one beyond it (R45), a step in each of the two cases of R46, the timers at
and past their limits (R47), and a switch of each outcome (R55, R56). -/
theorem witness_domain_writes :
    ((base.dom .a).st = .idle) ∧
    ((-281474976711 : Int) ≤ sext 64 (join64 0xFFFFFFBE 0x7712A339 : Nat) ∨
      (-281474976711 : Int) ≤ sext 64 (join64 0 0 : Nat)) ∧
    (281474976711 : Int) < sext 64 (join64 0x7FFFFFFF 0) ∧ sext 64 (join64 0x80000000 0) < (-281474976711 : Int) ∧
    ((2 ^ 63 - 1) * 2 ^ 32 : Int) < 1 + sext 64 (join64 0x7FFFFFFF 0xFFFFFFFF) * 2 ^ 32 ∧
    (-1 : Int) + sext 64 (join64 0x80000000 0) * 2 ^ 32 < -(2 ^ 63) * 2 ^ 32 ∧
    (((domDev .acquire).dom .a).st = .acquire ∧ ((domDev .acquire).dom .a).stepped = false ∧
      ((domDev .acquire).dom .a).step = none) ∧ ((domDev .locked).dom .a).st ≠ .acquire ∧
    (let c := (base.setReg (TMU_Dx_SYNCTO 0) 1).setDom .a { base.dom .a with st := .locked, syncNs := 1001 }
     (c.dom .a).st = .locked ∧ (c.reg (TMU_Dx_SYNCTO 0)).toNat * 1000 < (c.dom .a).syncNs) ∧
    (let c := (domDev .locked).setReg (TMU_Dx_SYNCTO 0) 1
     (c.dom .a).syncNs ≤ (c.reg (TMU_Dx_SYNCTO 0)).toNat * 1000) ∧
    (let c := (dev [(TMU_Dx_FAILLIM 0, 0)]).setDom .a { base.dom .a with st := .holdover, holdNs := 1 }
     (c.dom .a).st = .holdover ∧ (c.reg (TMU_Dx_FAILLIM 0)).toNat * 1000 < (c.dom .a).holdNs) ∧
    (base.timeMaster (0 : Master).val = true ∧ wbit (0 : W32) 0 = base.tmu.activeB ∧
      wbit (1 : W32) 0 ≠ base.tmu.activeB ∧ (base.dom base.active.other).st ≠ .locked ∧
      ((base.setDom .b ((domDev .locked).dom .a)).dom .b).st = .locked) ∧
    (let c := ((dev [(TMU_DOMSEL, 2)]).setDom .b ((domDev .locked).dom .a)).setDom .a ((domDev .failed).dom .a)
     c.bit TMU_DOMSEL 1 = true ∧ (c.dom c.active.other).st = .locked ∧ (c.dom c.active).st = .failed) := by
  decide

/-- An edge stable for exactly the filter's length (R64), one 64 quarter-ticks after the last and one before (R65), a
stamp 80 ns after its edge and a full ring (R66). -/
theorem witness_stamps :
    (wbit (1 : W32) 0 = true ∧ wbit (2 : W32) 0 = false) ∧
    (let cfg := (dev [(TMU_TSn_CFG 47, 0x5400)]).reg (TMU_TSn_CFG 47)
     wfld cfg 11 10 % 2 = 1 ∧ wfld cfg 15 12 * 4 ≤ 20 ∧ ¬wfld cfg 15 12 * 4 ≤ 19) ∧
    (let c : Chip := { base with tmu := { base.tmu with raw := 16, tsEdges := [(0, [1])] } }
     (tblGet [] c.tmu.tsEdges 0).head?.any (fun l => decide (c.tmu.raw * 4 + 0 < l + 64)) = true ∧
     (tblGet [] c.tmu.tsEdges 0).head?.any (fun l => decide (c.tmu.raw * 4 + 1 < l + 64)) = false ∧
     tblGet [] c.tmu.tsEdges 1 = []) ∧
    ((((List.range 48).filter fun ch => (dev [(TMU_TSn_CFG 47, 0x5400)]).fld (TMU_TSn_CFG ch) 6 0 == 127) = []) ∧
      ((List.range 48).filter fun ch => (dev [(TMU_TSn_CFG 47, 0x547F)]).fld (TMU_TSn_CFG ch) 6 0 == 127) = [47]) ∧
    (let s : WaitingStamp := ⟨0, 0, true, 47⟩
     let c : Chip := { base with tmu := { base.tmu with raw := 80, waiting := [s] } }
     c.tmu.waiting = s :: [] ∧ s.at4 / 4 + 80 ≤ c.tmu.raw ∧ c.tmu.ring.length < 1024 ∧
     (c.setReg (TMU_TSn_CFG 47) 0x200).bit (TMU_TSn_CFG 47) 9 = true ∧ c.bit (TMU_TSn_CFG 47) 9 = false) ∧
    1024 ≤ (List.replicate 1024 (⟨0, 0, false, false, 0⟩ : RingEntry)).length :=
  ⟨by decide, by decide, by decide, by decide, by decide, Nat.le_of_eq List.length_replicate.symm⟩

theorem witness_timed_outputs :
    (dev [(TMU_TOn_CFG 31, 0x100)]).bit (TMU_TOn_CFG 31) 8 = true ∧ base.bit (TMU_TOn_CFG 31) 8 = false ∧
    wbit (2 : W32) 2 = false ∧ wbit (2 : W32) 0 = false ∧ toLimitsOk 1 0 0 = false ∧ toLimitsOk 0 0 0 = true ∧
    ((base.to 0).pulse = none ∧ base.lt4 ≤ 0 + 8) ∧
    (let c : Chip := { base with tmu := { base.tmu with lt := 9 * 16384 } }
     (c.to 0).pulse = none ∧ 0 + 8 < c.lt4) ∧
    (let c := base.setTo 0 ⟨none, some 4, none⟩
     (c.to 0).pulse = some 4 ∧ 4 < (5 : Nat) ∧ (4 : Nat) ≤ 4 ∧ c.lt4 < 4) ∧
    (let c := base.setTo 0 ⟨none, some 0, none⟩
     (c.to 0).pulse = some 0 ∧ 0 ≤ c.lt4) ∧
    (∀ m : Fin 4, let s : ToSched := ⟨m.val, 0, 8, 16, true⟩
     let c := base.setTo 0 ⟨some s, none, none⟩
     (c.to 0).pulse = none ∧ (c.to 0).sched = some s ∧ s.next ≤ c.lt4) := by decide

/-! ### Line shafts and angle events (chapter 03) -/

/-- The earliest and the latest valid time that R79 takes, at quality 1, from the first domain; a refused sample; and an
event's PERIOD, which has no CFG. -/
theorem witness_angle_registers :
    OnlyBit (0 ||| 0x1) 3 0 ∧ OnlyBit (0 ||| 0x2) 3 1 ∧ OnlyBit (0 ||| 0x4) 3 2 ∧ 1 < bitCount (0x6 ||| 0x1) 3 ∧
    (let c := (shaftDev .follow).setReg (ANG_SHn_IN 0 7) 0
     let ok := fun (x : Sample) => (c.shaft 0).st = .follow ∧ x.quality / 16 ≠ 0 ∧ x.quality / 16 < 4 ∧
       c.fld (ANG_SHn_CFG 0) 11 8 ≤ x.quality / 16 ∧ c.bit (ANG_SHn_CFG 0) 30 = false ∧ c.lt + instant 2 ≤ x.tv ∧
       x.tv ≤ c.lt + instant 65535 ∧ (c.shaft 0).newestTv = none ∧ (c.shaft 0).pend.length < 8
     ok ⟨instant 2, 0, 0, 0, 16, 0⟩ ∧ ok ⟨instant 65535, 0, 0, 0, 63, 0⟩) ∧
    (∃ f, base.sampleRefusal 0 ⟨0, 0, 0, 0, 16, 0⟩ = some f) ∧
    tblGet none base.ang.s2a 3 = none ∧
    tblGet none ({ base with ang := { base.ang with s2a := [(3, some ⟨1, 5⟩)] } } : Chip).ang.s2a 3 =
      some ⟨1, 5⟩ := by
  refine ⟨by unfold OnlyBit; decide, by unfold OnlyBit; decide, by unfold OnlyBit; decide, by decide, by decide, ⟨_, rfl⟩,
    by decide, by decide⟩

theorem witness_shafts :
    (let s : Shaft := { Shaft.reset with st := .follow, e := 5, pend := [⟨instant 4 + 1, 0, 0, 0, 16, 0⟩] }
     s.pend = ⟨instant 4 + 1, 0, 0, 0, 16, 0⟩ :: [] ∧ instant 4 < instant 4 + 1 ∧ instant 4 + 1 ≤ instant 5) ∧
    (base.dueInstant = none ∧
     ({ base with tmu := { base.tmu with lt := instant 1 } } : Chip).dueInstant = some 1) ∧
    (let c := (shaftDev .follow).setReg (ANG_SHn_REFTO 0) 0
     (c.shaft 0).st = .follow ∧ (c.shaft 0).adoptWait = false ∧
     (c.reg (ANG_SHn_REFTO 0)).toNat ≤ c.ang.u - (c.shaft 0).timer) ∧
    (let c := (shaftDev .coast).setReg (ANG_SHn_COASTLIM 0) 0
     (c.shaft 0).st = .coast ∧ (c.reg (ANG_SHn_COASTLIM 0)).toNat ≤ c.ang.u - (c.shaft 0).timer) ∧
    (let c := ((shaftDev .coast).setReg (ANG_SHn_COASTLIM 0) 1).setReg (ANG_SHn_REFTO 0) 1
     (c.shaft 0).st ≠ .follow ∧ c.ang.u - (c.shaft 0).timer < (c.reg (ANG_SHn_COASTLIM 0)).toNat ∧
     c.ang.u - (c.shaft 0).timer < (c.reg (ANG_SHn_REFTO 0)).toNat) := by decide

set_option maxRecDepth 8192 in
/-- A generation time with a free and with a full pending queue, a firing exactly when it is due and one nanosecond
before, and an echo request of either kind. -/
theorem witness_masters_firings_echoes :
    (let c := (shaftDev .master).setReg (ANG_SHn_PERIOD 0) 1
     (c.shaft 0).st = .master ∧ c.ang.u % (c.reg (ANG_SHn_PERIOD 0)).toNat = 0 ∧ (c.shaft 0).lastGen ≠ c.ang.u + 1 ∧
     (c.shaft 0).pend.length ≠ 8 ∧ (List.replicate 8 (⟨1, 0, 0, 0, 16, 0⟩ : Sample)).length = 8) ∧
    (base.shaft 0).st ≠ .master ∧ base.ang.firings = [] ∧
    (let f : Firing := ⟨0, 0, 0, 0⟩
     let c : Chip := { base with ang := { base.ang with firings := [f] } }
     c.ang.firings = f :: [] ∧ (f.tc4 + 3) / 4 ≤ c.ltNs) ∧
    (let f : Firing := ⟨0, 1, 0, 0⟩
     let c : Chip := { base with ang := { base.ang with firings := [f] } }
     c.ang.firings = f :: [] ∧ c.ltNs < (f.tc4 + 3) / 4) ∧
    echoValid 0 0 [] = false ∧
    (let body := (1 : Byte) :: List.replicate 31 0
     let req := body ++ beBytes 4 (ulpCheck 65535 0 body)
     echoValid 65535 0 req = true ∧ (echoReply (req.take (req.length - 4)) none).isSome = true) := by decide

/-! ### Ethernet ports (chapter 04) -/

theorem witness_port_modes :
    modeListed 0 8 = false ∧ modeListed 7 15 = false ∧
    (modeListed 7 14 = true ∧ base.linkUp 7 = false ∧ base.txOf 7 = none ∧
      base.bit (ETH_Pn_CT_CTL 7) 1 = false ∧ base.bit (ETH_Pn_PLCA_STAT 7) 31 = false) ∧
    (let c := (portDev 0 1 false).setReg (ETH_Pn_ANADV 0) 0x20
     c.negotiates 0 = true ∧ c.linkUp 0 = false ∧
     (c.setReg (ETH_Pn_ANLP 0) 0).anOutcome 0 ⟨0, 0, 0, false, false⟩ = none ∧
     (c.setReg (ETH_Pn_ANLP 0) 0x20).anOutcome 0 ⟨0x20, 0, 0, false, false⟩ = some (2, true) ∧
     (c.setBit (ETH_Pn_STAT 0) 30 true).bit (ETH_Pn_STAT 0) 30 = true) ∧
    ((portDev 3 9 true).linkUp 3 = true ∧ (portDev 3 9 false).linkUp 3 = false ∧ (portDev 3 9 false).portMode 3 = 9 ∧
      ((portDev 3 9 false).setReg (ETH_Pn_PLCA_CTL 3) 254).fld (ETH_Pn_PLCA_CTL 3) 7 0 ≠ 255 ∧
      (portDev 3 9 false).bit (ETH_Pn_PLCA_STAT 3) 31 ≠ true) ∧
    ((portDev 1 2 false).portMode 1 = 2 ∧ (portDev 1 3 false).portMode 1 = 3 ∧
      (portDev 1 3 false).fld (ETH_Pn_CTL 1) 7 6 = 0 ∧ (portDev 1 3 false).linkUp 1 = false) ∧
    ((portDev 7 14 true).linkUp 7 = true ∧ (portDev 7 14 true).portMode 7 ≠ 8 ∧ (portDev 7 14 true).portMode 7 ≠ 9 ∧
      (portDev 3 8 false).portMode 3 = 8) ∧ ((portDev 0 1 false).portMode 0 ≠ 9) := by decide

/-- Port 0 with its link up, an express class 7 queued and a preemptable frame in transmission that may be stopped. -/
def preemptDev : Chip :=
  let c := (dev [(ETH_Pn_STAT 0, 0xA2000001), (ETH_Pn_PRE_CTL 0, 0x80000001)]).setQueue 0 7 [⟨1, 7, false, .none, none⟩]
  { c.setTx 0 (some { txFrame 0 none false with data := List.replicate 120 0 }) with
    tmu := { base.tmu with lt := 35651584 } }

/-- A port with nothing to send and one with a copy queued; a frame of 512 bit times and of 513 at a collision, its 15th
and its 16th attempt; a back-off that ends now, one that does not, and one whose link is down. -/
theorem witness_port_transmission :
    ((portDev 0 1 true).txReady 0 = true ∧ (portDev 0 1 true).plcaMay 0 = true) ∧
    (((portDev 0 1 true).settle 0).select 0 false 0).1 = none ∧ (portDev 0 1 true).heldOf 0 = none ∧
    (let c := ((portDev 0 1 true).setQueue 0 7 [⟨0, 7, false, .none, none⟩])
     c.txReady 0 = true ∧ c.copies.length = 1 ∧ ((c.settle 0).select 0 false 1).1 = some 7) ∧
    (let c := (portDev 0 1 true).setHeld 0 (some (txFrame 0 none false))
     c.heldOf 0 = some (txFrame 0 none false) ∧ ((c.settle 0).select 0 true 0).1 = none ∧ (c.gclOf 0).hold = false ∧
     ((c.setGcl 0 { c.gclOf 0 with hold := true }).gclOf 0).hold = true) ∧
    (portDev 0 1 false).txReady 0 = false ∧ base.txOf 0 = none ∧
    (∀ i : Fin 16, (base.setTx 0 (some (txFrame i.val none false))).txOf 0 = some (txFrame i.val none false) ∧
      (txFrame i.val none false).backoff = none) ∧
    (txFrame 14 none true).stomp = true ∧ (txFrame 14 none true).colls < 15 ∧ 15 ≤ (txFrame 15 none false).colls ∧
    (dev [(ETH_Pn_STAT 0, 0x20000000)]).fullDuplex 0 = true ∧ base.fullDuplex 0 = false ∧
    (let c := (portDev 0 1 true).setTx 0 (some (txFrame 1 (some 0) false))
     c.txOf 0 = some (txFrame 1 (some 0) false) ∧ 0 ≤ c.lt ∧ c.linkUp 0 = true ∧ (c.setTx 0 none).plcaMay 0 = true ∧
     c.gateOpen 0 0 = true ∧ c.fits 0 0 4 = true ∧ c.lt < 1 ∧
     (c.setBit (ETH_Pn_STAT 0) 31 false).linkUp 0 = false) := by decide

/-- A frame that an express frame may interrupt, whose class is then selected, and one that it may not. -/
theorem witness_port_preemption :
    (let c := preemptDev
     let t := { txFrame 0 none false with data := List.replicate 120 0 }
     let stopped := ((c.settle 0).setTx 0 none).setHeld 0 (some { t with sent := t.sent + c.fragBytes 0 t })
     c.txOf 0 = some t ∧ c.txReady 0 = false ∧ c.linkUp 0 = true ∧ c.mayStop 0 t = true ∧
     (stopped.select 0 true stopped.copies.length).1 = some 7) ∧
    ((portDev 0 1 true).setTx 0 (some (txFrame 0 none false))).mayStop 0 (txFrame 0 none false) = false :=
  ⟨⟨rfl, by decide, by decide, by decide, by decide⟩, by decide⟩

/-- Frames of 63 and 64 octets, one as long as ETH_Pn_MAXLEN and one longer, and a buffer with and without room. -/
theorem witness_port_reception :
    (portDev 0 1 false).linkUp 0 = false ∧ (portDev 0 1 true).linkUp 0 = true ∧
    ({ rxFrame 60 with smdErr := true } : RxFrame).smdErr = true ∧ (rxFrame 60).asmErr = false ∧
    rxErrCounter ((rxFrame 59).data.length + 4) 1522 (rxFrame 59) = some 14 ∧
    rxErrCounter ((rxFrame 60).data.length + 4) 1522 (rxFrame 60) = none ∧
    rxErrCounter ((rxFrame 124).data.length + 4) 128 (rxFrame 124) = none ∧
    rxErrCounter ((rxFrame 125).data.length + 4) 128 (rxFrame 125) = some 16 ∧
    (rxFrame 60).data ≠ [] ∧ (parseFrame (rxFrame 60).data 0).etype ≠ 0x8808 ∧
    (parseFrame (List.replicate 12 0 ++ [0x88, 0x08]) 0).etype = 0x8808 ∧
    ({ rxFrame 60 with first := true } : RxFrame).first = true ∧ (rxFrame 60).first = false ∧
    pecksOf 64 ≤ (bufferDev (12287 * 128)).pecksFree ∧ (bufferDev (12288 * 128)).pecksFree < pecksOf 64 := by decide

theorem witness_port_services :
    (let c := (dev [(ETH_Pn_PRE_STAT 0, 2), (ETH_Pn_PRE_CTL 0, 0)])
     let t := tblGet .reset c.swx.verify 0
     c.fld (ETH_Pn_PRE_STAT 0) 2 0 = 2 ∧ t.last + c.fld (ETH_Pn_PRE_CTL 0) 15 8 * 65536000000 ≤ c.lt ∧ t.attempts < 3) ∧
    3 ≤ (⟨3, 0⟩ : Verify).attempts ∧
    (let c := ((portDev 0 1 true).setBit (ETH_Pn_STAT 0) 28 true).setReg (ETH_Pn_EEE_CTL 0) 0x80000000
     let d := c.setReg (ETH_Pn_EEE_IDLE 0) 0
     d.bit (ETH_Pn_EEE_CTL 0) 31 = true ∧ d.bit (ETH_Pn_STAT 0) 28 = true ∧ d.txReady 0 = true ∧
     (∀ i, i < 8 → d.queue 0 i = []) ∧ d.heldOf 0 = none ∧
     (d.lpiOf 0).lastQueued + (d.reg (ETH_Pn_EEE_IDLE 0)).toNat * 65536000 ≤ d.lt ∧
     d.bit (ETH_Pn_EEE_CTL 0) 30 = false) ∧
    (let c := dev [(ETH_Pn_EEE_STAT 0, 4)]
     c.bit (ETH_Pn_EEE_STAT 0) 2 = true ∧ (c.lpiOf 0).wakeEnd ≤ c.lt) ∧
    ((portDev 0 1 true).linkUp 0 = true ∧ (portDev 0 1 true).bit (ETH_Pn_EEE_STAT 0) 0 = false ∧
      ((portDev 0 1 true).setReg (ETH_Pn_EEE_STAT 0) 1).bit (ETH_Pn_EEE_STAT 0) 0 = true) ∧
    (wbit (1 : W32) 0 = true ∧ wbit (0 : W32) 0 = false) ∧ (portDev 1 0 false).portMode 1 = 0 ∧
    (portDev 1 3 false).portMode 1 ≠ 0 ∧ (dev [(ETH_Pn_CT_CTL 1, 2)]).bit (ETH_Pn_CT_CTL 1) 1 = true ∧
    base.bit (ETH_Pn_CT_CTL 1) 1 = false := by decide

/-- A gated port whose class 0 opens now, in low-power idle with the early wake on. -/
theorem witness_early_wake :
    let list : GclCfg := ⟨[⟨0, 1, 1000⟩, ⟨0, 0, 1000⟩], 0, 2000, 0⟩
    let c := ((dev [(ETH_Pn_EEE_STAT 0, 2), (ETH_Pn_EEE_CTL 0, 0x40000001), (SWX_Pp_GCL_CTL 0, 0x80000000)]).setGcl 0
      { Gcl.reset with oper := some list, started := true, gates := 0 })
    c.bit (ETH_Pn_EEE_STAT 0) 1 = true ∧ c.bit (ETH_Pn_EEE_CTL 0) 30 = true ∧
    (∃ o ∈ c.eeeOpenings 0, o * 65536 ≤ c.lt + ((c.reg (ETH_Pn_EEE_TWTX 0)).toNat +
      (c.reg (ETH_Pn_EEE_GUARD 0)).toNat) * 65536) := by decide

/-! ### The switch core (chapter 05) -/

/-- Cycles of 999 ns and 1 µs, a base 2 µs away and one just past that, a change that is due, and the entries of a list
and of a stream gate. -/
theorem witness_gate_lists :
    (dev [(SWX_Pp_CYCLE 9, 999)]).fld (SWX_Pp_GCL_CTL 9) 10 0 = 0 ∧
    (let c := dev [(SWX_Pp_CYCLE 9, 1000), (SWX_Pp_GCL_CTL 9, 0x80000400), (SWX_Pp_BASE_LO 9, 2001)]
     let n := c.fld (SWX_Pp_GCL_CTL 9) 10 0
     let cycle := (c.reg (SWX_Pp_CYCLE 9)).toNat
     ¬(n = 0 ∨ 1024 < n ∨ cycle < 1000 ∨ 1000000000 < cycle ∨ c.bit (SWX_Pp_GCL_CTL 9) 31 = false) ∧
     c.lt + 2000 * 65536 < c.reg64 (SWX_Pp_BASE_LO 9) * 65536 ∧
     (c.setReg (SWX_Pp_BASE_LO 9) 2000).reg64 (SWX_Pp_BASE_LO 9) * 65536 ≤ c.lt + 2000 * 65536) ∧
    (base.gclOf 9).pending = none ∧
    (let list : GclCfg := ⟨[⟨0, 1, 1000⟩], 0, 1000, 0⟩
     let g : Gcl := { Gcl.reset with pending := some ⟨list, 1, 0⟩, oper := some list }
     let c := (dev [(SWX_Pp_GCL_CTL 9, 0x80000000)]).setGcl 9 { g with pending := none }
     let d := (base.setGcl 9 g)
     (d.gclOf 9).pending = some ⟨list, 1, 0⟩ ∧ d.ltNs < 1 ∧ 0 ≤ d.ltNs ∧ 0 < list.entries.length ∧
     c.bit (SWX_Pp_GCL_CTL 9) 31 = true ∧ (c.gclOf 9).position c.ltNs = some (0, 0) ∧ (c.gclOf 9).started = false ∧
     (c.gclOf 9).oper = some list ∧ (c.settle 9).gclOf 9 = c.gclOf 9) ∧
    (wbit ((base.entry 5 63).getD 3 0) 31 = false ∧ (base.sgateOf 63).started = false) := by decide

/-- A stream gate whose list has a start time that has come and one that has not, one whose entry runs and one whose
entry ends, the last of its list among them. -/
theorem witness_stream_gates :
    (let c := (tableDev 5 63 [0, 0, 1000, 0x80000001, 0, 0, 0, 0]).setEntry 6 (63 * 64) [0, 1000, 0, 0, 0, 0, 0, 0]
     let words := c.entry 5 63
     wbit (words.getD 3 0) 31 = true ∧ join64 (words.getD 1 0) (words.getD 0 0) ≤ c.ltNs ∧ (words.getD 2 0).toNat ≠ 0 ∧
     (c.sgateOf 63).started = false) ∧
    (let c := tableDev 5 63 [1, 0, 1000, 0x80000001, 0, 0, 0, 0]
     c.ltNs < join64 ((c.entry 5 63).getD 1 0) ((c.entry 5 63).getD 0 0)) ∧
    (let g : SGate := ⟨[0, 0, 1000, 0x80000002, 0, 0, 0, 0], 0, 0, true, 0, 500, true, none⟩
     let c := base.setSgate 63 g
     c.sgateOf 63 = g ∧ c.sgateCycle g.ctrl = some (0, 0) ∧ c.ltNs < g.start + g.length ∧
     (({ g with length := 0 } : SGate).start + 0 ≤ c.ltNs ∧ g.entry < wfld (g.ctrl.getD 3 0) 6 0 - 1) ∧
     wfld (g.ctrl.getD 3 0) 6 0 - 1 ≤ ({ g with entry := 1 } : SGate).entry) := by decide

set_option maxRecDepth 8192 in
/-- The last index of a table and the first beyond it, the last table and the first number without one, and the words
that each check of R165 takes and refuses. -/
theorem witness_table_operations :
    base.swx.tblOp = none ∧
    ({ base with swx := { base.swx with tblOp := some (0, 0) } } : Chip).swx.tblOp = some (0, 0) ∧
    (∀ t : Fin 12, 0 < tableSize t.val ∧ tableSize t.val < 65536) ∧
    (16383 < tableSize 0 ∧ tableSize 0 ≤ 16384) ∧
    entryValid 9 [0x80000000, 0, 0, 0, 0, 0, 0, 0] = false ∧ entryValid 5 [0, 0, 999, 0x80000001, 0, 0, 0, 0] = false ∧
    entryValid 5 [0, 0, 1000, 0x80000001, 0, 0, 0, 0] = true ∧
    (wbit (([0, 0, 0x80000001, 0] : List W32).getD 2 0) 31 = true ∧ bucketOf 0 0 ≠ (bucketOf 0 0 + 1) ∧
      bitCount (([0, 0, 0x80000001, 0] : List W32).getD 2 0) 10 ≤ 1 ∧
      keyOf [0, 0, 0x80000001, 0] = (0, 0) ∧ bucketOf 0 0 = bucketOf 0 0 * 4 / 4) ∧
    base.fdbDynamic 0 0 = none ∧ base.fdbStatic 0 0 = none ∧
    (tableDev 0 (bucketOf 1 0 * 4) [1, 0, 0x80000001, 0, 0, 0, 0, 0]).fdbDynamic 1 0 = some (bucketOf 1 0 * 4) := by
  decide

/-- An offered frame with exactly its pecks free and with one too few, and the ledger with a full buffer and with one
peck more than there are. -/
theorem witness_switch_bookkeeping :
    (let o : Offer := ⟨0, 0, List.replicate 60 0, [0, 0, 0, 0]⟩
     let r := fun (b : Chip) => ({ b with rq := { b.rq with offers := [(8, some o)] } } : Chip)
     tblGet none (r (bufferDev (12287 * 128))).rq.offers 8 = some o ∧
     (let c := r (bufferDev (12287 * 128))
      c.offerPecks 8 o.data 0 ≤ c.pecksFree) ∧
     (let c := r (bufferDev (12288 * 128))
      c.pecksFree < c.offerPecks 8 o.data 0) ∧
     tblGet none (r base).rq.offers 9 = none) ∧
    (base.swx.ledgerReq = false ∧ (bufferDev (12288 * 128)).pecksUsed ≤ 12288 ∧
      12288 < (bufferDev (12288 * 128 + 1)).pecksUsed) ∧
    ((dev [(SWX_CTL, 0x100), (SWX_SCRUB, 0)]).bit SWX_CTL 8 = true ∧
      (dev [(SWX_CTL, 0x100), (SWX_SCRUB, 0)]).swx.scrubAt + 0 ≤ base.lt ∧ (dev [(SWX_CTL, 0)]).bit SWX_CTL 8 = false ∧
      (dev [(SWX_CTL, 0x100)]).swx.queues = []) ∧
    (let c := (tableDev 9 255 [0x80000001, 0, 0, 0, 0, 0, 0, 0])
     let d : Chip := { c with swx := { c.swx with recovs := [(255, { Recov.reset with takeAny := false })] } }
     wbit (d.entryWord 9 255 0) 31 = true ∧ (tblGet .reset d.swx.recovs 255).takeAny = false ∧
     let d : Chip := { d with tmu := { d.tmu with lt := 1 } }
     (d.entryWord 9 255 1).toNat * 65536000 < d.lt - (tblGet .reset d.swx.recovs 255).last) ∧
    wbit (base.entryWord 11 255 0) 31 = false ∧
    (let c := tableDev 11 255 [0x80000000, 0, 0, 0, 0, 0, 0, 0]
     wbit (c.entryWord 11 255 0) 31 = true ∧ (c.gclOf (wfld (c.entryWord 11 255 0) 26 24)).oper = none) ∧
    (let g : Gcl := { Gcl.reset with oper := some ⟨[⟨0, 1, 1000⟩], 0, 1000, 0⟩, started := true }
     let c := ((tableDev 11 255 [0xC0000000, 0, 0, 0, 0, 0, 0, 0]).setReg SWX_SCHED_CTL 0x80000000).setGcl 0 g
     let c : Chip := { c with tmu := { c.tmu with lt := 1 } }
     let w := c.entryWord 11 255 0
     wbit w 31 = true ∧ (g.oper.getD ⟨[], 0, 0, 0⟩).entries[wfld w 9 0]? = some ⟨0, 1, 1000⟩ ∧
     nbit 1 (wfld w 22 20) = true ∧ (c.gclOf 0).started = true ∧ (c.gclOf 0).entry = wfld w 9 0 ∧
     c.slotEmpty 255 0 = true ∧ wbit w 30 = true ∧ c.bit SWX_SCHED_CTL 31 = true ∧ c.linkUp 0 = false ∧
     (c.setBit (ETH_Pn_STAT 0) 31 true).linkUp 0 = true ∧ 0 < c.pecksFree ∧ 0 < c.qdFree) ∧
    base.swx.flush = none ∧
    ({ base with swx := { base.swx with flush := some 3 } } : Chip).swx.flush = some 3 := by decide

/-- With every queue empty no copy is too old (R150). -/
theorem witness_queue_scrub (p cls : Nat) (x : Copy) (rest : List Copy) :
    (dev [(SWX_CTL, 0x100)]).queue p cls = x :: rest → (dev [(SWX_CTL, 0x100)]).aged x = false := by
  intro h
  have e : (dev [(SWX_CTL, 0x100)]).queue p cls = [] := rfl
  rw [e] at h
  cases h

/-- An entry one second before the age limit and one at it (R148). -/
theorem witness_fdb_ages :
    (let c := ((tableDev 0 0 [1, 0, 0x80000001, 298, 0, 0, 0, 0]).setEntry 0 4 [2, 0, 0x80000001, 299, 0, 0, 0, 0])
     (c.entriesOf 0).Nodup ∧ (c.reg SWX_FDB_AGE).toNat = 300 ∧ wbit (c.entryWord 0 0 2) 31 = true ∧
     wfld (c.entryWord 0 0 3) 15 0 + 1 < 300 ∧ wbit (c.entryWord 0 4 2) 31 = true ∧
     300 ≤ wfld (c.entryWord 0 4 3) 15 0 + 1 ∧ wbit (c.entryWord 0 8 2) 31 = false) := by decide

/-! ### CAN channels (chapter 06) -/

/-- A channel that takes part in bus traffic, with these further registers. -/
def canDev (rs : List (Nat × W32)) : Chip := dev ([(CANn_CTL 3, 0x80000000), (CANn_STAT 3, 0x10000000)] ++ rs)

/-- The same with a frame in transmission for object 127. -/
def canSending (rs : List (Nat × W32)) : Chip :=
  (canDev rs).setCan 3 { CanChan.reset with tx := some ⟨.object 127, canFrame, 0, false, none, false⟩ }

/-- The same in time-triggered operation, synchronized, with mode 0 of one trigger entry at cycle time 0. -/
def canTT (w0 w1 : W32) (rs : List (Nat × W32)) : Chip :=
  canDev ([(CANn_CTL 3, 0x80040000), (CANn_TT_STAT 3, 0x20000000), (CANn_TT_MODE 3 0, 0x80000001),
    (canTrig 3 0 0, w0), (canTrig 3 0 1, w1)] ++ rs)

theorem witness_can_commands :
    (base.bit (CANn_CTL 3) 31 = false ∧ wbit (0 : W32) 17 = false ∧ wbit (0x20000 : W32) 17 = true ∧
      base.bit (CANn_TT_CFG 3) 31 = false ∧ (canDev []).bit (CANn_CTL 3) 31 = true) ∧
    ((canSending []).canOf 3).tx ≠ none ∧ ((canDev []).canOf 3).tx = none ∧
    (let c := canDev [(canObj 3 127 0, 0xC0000000)]
     let s := c.objState 3 127
     s ≠ 1 ∧ s ≠ 2 ∧ s ≠ 5 ∧ wbit (c.reg (canObj 3 127 0)) 30 = true ∧ wbit (c.reg (canObj 3 127 0)) 31 = true ∧
     c.fmtOn 3 (wfld (c.reg (canObj 3 127 0)) 29 28) = true ∧ base.reg (canObj 3 127 0) = 0) ∧
    ((base.setObjState 3 127 1).objState 3 127 = 1 ∧ (base.setObjState 3 127 5).objState 3 127 = 5) ∧
    ((canSending []).setObjState 3 127 2).objState 3 127 = 2 ∧
    (wbit (0 : W32) 1 = false ∧ (dev [(CANn_STAT 3, 0x80000000)]).fld (CANn_STAT 3) 31 30 = 2 ∧
      (dev [(CANn_STAT 3, 0x80000000)]).bit (CANn_STAT 3) 29 = false ∧
      (dev [(CANn_STAT 3, 0xA0000000)]).bit (CANn_STAT 3) 29 = true ∧ base.fld (CANn_STAT 3) 31 30 ≠ 2) ∧
    (((canDev []).setCan 3 { CanChan.reset with integrating := true }).canOf 3).integrating = true ∧
    ((canTT 0 0 []).modeHeld 3 0 = true ∧ (canTT 0x1000 0 []).modeHeld 3 1 = false ∧
      (canTT 0x1000 0 []).modeOk 3 0x80000000 = false ∧ (canTT 0x1000 0 []).modeOk 3 0x80000001 = true) ∧
    (base.fld (CANn_TT_STAT 3) 31 30 ≠ 3 ∧
      (dev [(CANn_TT_STAT 3, 0xC0000000)]).fld (CANn_TT_STAT 3) 31 30 = 3) ∧
    (base.ttMaster 3 = false ∧ (dev [(CANn_TT_STAT 3, 0x10000000)]).ttMaster 3 = true ∧
      base.ttPhase 3 = 0 ∧ (base.canOf 3).modeReq = none ∧ (canTT 0 0 []).modeValid 3 0 = true ∧
      (canTT 0 0 []).ttMode 3 = 0 ∧ (canTT 0 0 [(CANn_TT_MODE 3 3, 0x80000001)]).modeValid 3 3 = true) := by decide

/-- Object 127 alone is pending, and so is smallest. -/
theorem witness_can_arbitration :
    let c := canDev [(canObj 3 127 0, 0xC0000000), (canObj 3 127 5, 1)]
    c.canMay 3 = true ∧ c.ttRuns 3 = false ∧ c.bit (CANn_GD_CTL 3) 31 = false ∧
    (c.objState 3 127 = 1 ∧ wbit (c.reg (canObj 3 127 0)) 30 = true ∧
      c.fmtOn 3 (wfld (c.reg (canObj 3 127 0)) 29 28) = true) ∧
    (∀ k, k < 127 → c.objState 3 k ≠ 1) ∧ (∀ k, k < 128 → (canDev []).objState 3 k ≠ 1) := by
  refine ⟨by decide, by decide, by decide, by decide, ?_, ?_⟩ <;> decide

/-- A receive error count at 127 and one above it, and the last 64-byte unit of an XL payload. -/
theorem witness_can_frames :
    ((canDev []).canOf 3).tx = none ∧
    (let c := canSending []
     let t : CanTx := ⟨.object 127, canFrame, 0, false, none, false⟩
     (c.canOf 3).tx = some t ∧ t.what = .object 127 ∧ (c.canOf 3).frozen = none ∧ t.exclusive = false ∧
     c.ttRuns 3 = false ∧ c.bit (CANn_RING_CTL 3) 30 = false) ∧
    (base.bit (CANn_STAT 3) 28 = false ∧ (canDev []).bit (CANn_STAT 3) 28 = true ∧
      (canDev []).fld (CANn_STAT 3) 31 30 ≠ 2) ∧
    (∀ k ∈ [CanErrKind.frame, .dominantAfterFlag, .flagBit, .dominantRun, .exempt], (CanError.mk k 7 true).kind = k) ∧
    (let c := canSending [(canObj 3 127 0, 0x01000000), (canObj 3 127 2, 0x07FF0000)]
     wbit (c.reg (canObj 3 127 0)) 24 = true ∧ 64 * 31 < canLen 2 0xFFFFFFFF) ∧
    ((canDev []).canOn 3 = true ∧ base.canOn 3 = false ∧ (canDev []).fmtOn 3 2 = false ∧
      (canDev []).fmtOn 3 canFrame.fmt = true ∧ ((canDev []).canOf 3).checks = [] ∧
      (canDev [(CANn_ERRCNT 3, 0x7F000000)]).recCount 3 ≤ 127 ∧
      127 < (canDev [(CANn_ERRCNT 3, 0x80000000)]).recCount 3) ∧
    (let w : CanWindow := ⟨127, 0, false⟩
     let c := (canDev [(CANn_RING_CTL 3, 0), (canObj 3 127 1, 0x1FFC0000)]).setCan 3
       { CanChan.reset with checks := [w] }
     (c.canOf 3).tx = none ∧ (c.canOf 3).checks = [w] ∧ c.lt < w.close + 819200 ∧ c.canHears 3 = true ∧ c.isReference 3 canFrame = false ∧
     c.isVeto 3 canFrame = false ∧ w.taken = false ∧ c.canOn 3 = true ∧
     c.fmtOn 3 canFrame.fmt = true ∧ c.recCount 3 = 0 ∧ c.bit (CANn_RING_CTL 3) 31 = false ∧
     fcsOf (c.tec 3) 0 = c.fld (CANn_STAT 3) 31 30 ∧ (c.objFrame 3 127).fmt = canFrame.fmt ∧
     (c.objFrame 3 127).ide = canFrame.ide ∧ (c.objFrame 3 127).id = canFrame.id) := by decide

/-- The read of the first unit of an XL payload by a channel that a segment of its owner lets read it (R183). -/
theorem witness_can_xl_payload :
    let t : CanTx := ⟨.object 127, { canFrame with fmt := 2 }, 0, false, none, false⟩
    let c := (canDev [(canObj 3 127 0, 0x01000000), (canObj 3 127 4, 0x10000000), (CANn_OWNER 3, 0)]).setCan 3
      { CanChan.reset with tx := some t }
    ((c.canOf 3).tx = some t ∧ t.frame.fmt = 2 ∧ wbit (c.reg (canObj 3 127 0)) 24 = true ∧ (c.canOf 3).frozen = none ∧
      64 * 0 < canLen 2 (c.reg (canObj 3 127 2))) ∧
    ∃ bs d, c.dmaRead (c.fld (CANn_OWNER 3) 3 0) (c.fld (canObj 3 127 4) 31 6 * 64 + 64 * 0)
      (min 64 (canLen 2 (c.reg (canObj 3 127 2)) - 64 * 0)) = (.ok bs, d) :=
  ⟨by decide, ⟨_, _, rfl⟩⟩

/-- Errors in the error flag of a node that was sending, its count at 247 and at 248, and the end of a frame sent under
LOOP. -/
theorem witness_can_error_flags :
    (let c := (canDev [(CANn_ERRCNT 3, 0xF7)]).setCan 3 { CanChan.reset with erred := some (.object 127) }
     (c.canOf 3).tx = none ∧ (c.canOf 3).erred = some (.object 127) ∧ (c.canOf 3).erred ≠ none ∧
     ((c.setReg (CANn_LASTERR 3) 3).setCounters 3 (c.tec 3 + 8) (c.recCount 3)).fld (CANn_STAT 3) 31 30 ≠ 2) ∧
    (let c := ((canDev [(CANn_ERRCNT 3, 0xF8)]).setObjState 3 127 1).setCan 3
       { CanChan.reset with erred := some (.object 127) }
     let f := (c.setReg (CANn_LASTERR 3) 3).setCounters 3 (c.tec 3 + 8) (c.recCount 3)
     f.fld (CANn_STAT 3) 31 30 = 2 ∧ f.objState 3 127 = 1) ∧
    ((canDev []).canOf 3).erred = none ∧ (canSending [(CANn_CTL 3, 0x80001000)]).fld (CANn_CTL 3) 13 12 = 1 ∧
    (canSending []).fld (CANn_CTL 3) 13 12 = 0 ∧ (canSending [(CANn_RING_CTL 3, 0x40000000)]).bit (CANn_RING_CTL 3) 30 = true ∧
    (((canSending []).canOf 3).leaving = false) ∧
    (((canDev []).setCan 3 { CanChan.reset with leaving := true }).canOf 3).leaving = true := by decide

/-- Each kind of trigger entry when it is due; a cycle that has and has not come to its end; waits and windows that end
now and later; and the guardian open and closed. -/
theorem witness_can_time_triggered :
    (∀ ty, ty ∈ [2, 3, 4, 5] → (canTT (w32 (ty * 4096)) 0 []).trigDue 3 0 ty = true ∧
      (canTT 0x1000 0 []).trigDue 3 0 ty = false) ∧
    (let c := canTT 0x2000 0x007F0000 [(canObj 3 127 5, 1)]
     c.objState 3 127 = 1 ∧ c.canMay 3 = true ∧ c.bit (CANn_GD_CTL 3) 31 = false ∧
     wbit (0x40000000 : W32) 30 = true ∧ base.objState 3 127 ≠ 1) ∧
    (let c := canTT 0x1000 0 [(CANn_TT_CFG 3, 0x80000000)]
     c.basicCycle 3 = some 0 ∧ c.ttRuns 3 = true ∧ c.bit (CANn_TT_CFG 3) 31 = true ∧ c.canMay 3 = true ∧
     c.modeValid 3 (c.ttMode 3) = true ∧ c.fmtOn 3 (b2n (c.bit (CANn_TT_CFG 3) 27)) = true ∧ c.gatewayOn 3 = false ∧
     (c.canOf 3).advanced = false ∧ c.ttMaster 3 = false ∧ (c.canOf 3).masterPrio = none ∧ c.fld (CANn_TT_CFG 3) 30 28 = 0 ∧
     (0 + 0) * c.ntu 3 ≤ c.lt - (c.canOf 3).mark ∧ (c.canOf 3).refs = 0 ∧ c.lt - (c.canOf 3).mark < (1 + 0) * c.ntu 3 ∧
     ((c.setCan 3 { CanChan.reset with advanced := true }).canOf 3).advanced = true ∧
     ((c.setCan 3 { CanChan.reset with refs := 1 }).canOf 3).refs ≠ 0 ∧
     (c.setReg (CANn_TT_MODE 3 0) 0x82000001).ttCycle 3 + 1 < (c.setReg (CANn_TT_MODE 3 0) 0x82000001).matrixLen 3 0 ∧
     (canTT 0x11000 0 []).basicCycle 3 = some 1 ∧ c.ttSynced 3 = true ∧ c.cycleTime 3 < 1 ∧
     base.basicCycle 3 = none) ∧
    (let c := fun d => base.setCan 3 { CanChan.reset with wait := some ⟨127, false, d, 0⟩ }
     ((c 0).canOf 3).wait = some ⟨127, false, 0, 0⟩ ∧ 0 ≤ (c 0).lt ∧ (c 1).lt < 1 ∧
     (base.canOf 3).wait = none) ∧
    (let c := fun d => base.setCan 3 { CanChan.reset with wait := some ⟨127, false, d, 0⟩ }
     let d : Chip := { c 0 with tmu := { base.tmu with lt := 1 } }
     (d.canOf 3).wait = some ⟨127, false, 0, 0⟩ ∧ 0 < d.lt) ∧
    (let c := (canTT 0x1000 0 []).setCan 3 { CanChan.reset with matrixStart := true, commitTo := some 2 }
     c.ttRuns 3 = true ∧ (c.canOf 3).matrixStart = true ∧ (c.canOf 3).commitTo = some 2 ∧
     ((canTT 0x1000 0 []).canOf 3).matrixStart = false) ∧
    (let c := canTT 0x1000 0 [(CANn_TT_STAT 3, 0x30000000)]
     c.ttRuns 3 = true ∧ c.ttMaster 3 = true ∧ (c.canOf 3).advanced = false ∧
     (c.canOf 3).matrixStart = false ∧ (c.canOf 3).refs = 0 ∧ c.refDue 3 = true ∧ c.ttPhase 3 = 0 ∧ (c.canOf 3).modeReq = none ∧
     (canTT 0x1000 0 [(CANn_TT_STAT 3, 0x30000200)]).ttPhase 3 = 2) ∧
    ((canDev []).guardOpen 3 = true ∧ base.guardOpen 3 = false ∧
      (canSending [(CANn_GD_CTL 3, 0x80000000)]).guardOpen 3 = false ∧
      (canSending [(CANn_GD_CTL 3, 0x80000000)]).bit (CANn_GD_CTL 3) 31 = true ∧
      ((canSending [(CANn_GD_CTL 3, 0x80000000)]).canOf 3).tx ≠ none) := by decide

/-! ### Dwevel cores (chapter 07) -/

/-- Core 1 in RUN, with a code and data segment at its own memory, whose last context runs these words. -/
def coreDev (ws : List W32) (k : Ctx) : Chip :=
  ((dev [(SYS_STATE, 5), (XDM_SEGm_BASEs 1 0, 0x30800007), (XDM_SEGm_SIZEs 1 0, 0x40000)]).setBytes 0x30800000
    (ws.flatMap fun w => leBytes 4 w.toNat)).setCtx 1 7 { k with pc := 0x30800000, st := .ready }

/-- ADD G1, G0, 5. -/
def addWord : W32 := 0x88004005
/-- WAIT G1, G2, 0xFF. -/
def waitWord : W32 := 0xB88042FF
/-- A 32-bit load to G1 through segment 0 at offset 0. -/
def loadWord : W32 := 0xAA404000
/-- The same through segment 1, which covers nothing. -/
def loadOther : W32 := 0xAA404010
/-- TRAP 5. -/
def trapWord : W32 := 0xB8900005
/-- A branch to the address in G1. -/
def branchWord : W32 := 0xB0000100

theorem issues_of_fetch (ws : List W32) (k : Ctx)
    (f : (coreDev ws k).fetch 1 0x30800000 6 [] = .ok ws (coreDev ws k)) (l : illegalSyll 1 ws = none)
    (g : ((coreDev ws k).ctx 1 7).pc = 0x30800000 ∧ ((coreDev ws k).ctx 1 7).st = .ready ∧
      ((coreDev ws k).ctx 1 7).inFlight = false) :
    Issues 1 0 false (coreDev ws k) 7 ws (coreDev ws k) := by
  refine ⟨Or.inl (by decide), by decide, g.2.1, g.2.2, by decide, fun y h1 h2 => ?_, ?_, l⟩
  · have : ctxCount (1 : Fin 11).val = 8 := rfl
    omega
  · show (coreDev ws k).fetch 1 (((coreDev ws k).ctx 1 7).pc / 4 * 4) 6 [] = _
    rw [g.1]
    exact f

/-- A bundle of each kind that the rules tell apart issues. -/
theorem witness_bundles_issue :
    (∀ w ∈ [addWord, waitWord, loadWord, loadOther, trapWord, branchWord],
      Issues 1 0 false (coreDev [w] .reset) 7 [w] (coreDev [w] .reset)) ∧
    Issues 1 0 false (coreDev [waitWord] { Ctx.reset with wake := 1 }) 7 [waitWord]
      (coreDev [waitWord] { Ctx.reset with wake := 1 }) ∧
    Issues 1 0 false (coreDev [branchWord] { Ctx.reset with regs := [(1, 2)], tvec := 4 }) 7 [branchWord]
      (coreDev [branchWord] { Ctx.reset with regs := [(1, 2)], tvec := 4 }) ∧
    Issues 1 0 false (coreDev [trapWord] { Ctx.reset with tvec := 4 }) 7 [trapWord]
      (coreDev [trapWord] { Ctx.reset with tvec := 4 }) := by
  refine ⟨fun w h => ?_, ?_, ?_, ?_⟩
  · simp only [List.mem_cons, List.not_mem_nil, or_false] at h
    rcases h with rfl | rfl | rfl | rfl | rfl | rfl <;>
      exact issues_of_fetch _ _ rfl (by decide) (by decide)
  all_goals exact issues_of_fetch _ _ rfl (by decide) (by decide)

/-- The conditions of a bundle that runs: aligned, in RUN, and neither F nor an undivided exchange of the context. -/
theorem witness_bundles_plain (w : W32) (h : w ∈ [addWord, waitWord, loadWord, loadOther, trapWord]) :
    misaligned (bundleSylls [w]) (coreDev [w] .reset) 1 ((coreDev [w] .reset).ctx 1 7) = none ∧
    2 ≤ (coreDev [w] .reset).sysState ∧ (∀ s ∈ bundleSylls [w], s.unit ≠ 4) ∧
    (∀ s ∈ bundleSylls [w], s.unit ≠ 3 ∨ s.op ≠ 0x0B) := by
  simp only [List.mem_cons, List.not_mem_nil, or_false] at h
  rcases h with rfl | rfl | rfl | rfl | rfl <;> exact ⟨by decide, by decide, by decide, by decide⟩

/-- The traps of a bundle's arithmetic and of its TRAP, in the context that runs it. -/
def trapsOf (w : W32) : Option TrapWhy :=
  trapOf ((coreDev [w] .reset).ctx 1 7).tmask
    ((arithOf (bundleSylls [w]) ((coreDev [w] .reset).ctx 1 7)).foldl (fun m o => m ||| o.flags.conds) 0)
    (trapCode (bundleSylls [w]))

/-- The further conditions of each clause, for the bundles above. -/
theorem witness_bundles_commit :
    (let k : Ctx := { Ctx.reset with regs := [(1, 2)], tvec := 4 }
     let d := coreDev [branchWord] k
     misaligned (bundleSylls [branchWord]) d 1 (d.ctx 1 7) = some 2 ∧ wbit (d.ctx 1 7).tstat 0 = false ∧
     (d.ctx 1 7).tvec ≠ 0) ∧
    (trapsOf addWord = none ∧ trapsOf waitWord = none ∧ trapsOf loadWord = none ∧ trapsOf loadOther = none ∧
      (trapsOf trapWord).isSome = true) ∧
    (waitOf (bundleSylls [addWord]) .reset = none ∧ waitOf (bundleSylls [loadWord]) .reset = none ∧
      waitOf (bundleSylls [waitWord]) .reset = some (0xFF, 0)) ∧
    (((bundleSylls [addWord]).find? fun s => s.fmt == .mem) = none ∧
      ((bundleSylls [loadWord]).find? fun s => s.fmt == .mem) = some ⟨loadWord, none⟩ ∧
      ((bundleSylls [loadOther]).find? fun s => s.fmt == .mem) = some ⟨loadOther, none⟩) ∧
    (((coreDev [waitWord] .reset).ctx 1 7).wake &&& 0xFF = 0 ∧
      ((coreDev [waitWord] { Ctx.reset with wake := 1 }).ctx 1 7).wake &&& 0xFF ≠ 0) ∧
    (∃ wr e, (Syll.mk loadWord none).access (coreDev [loadWord] .reset) 1 ((coreDev [loadWord] .reset).ctx 1 7) =
      .ok wr e ∧ 2 ≤ e.sysState) ∧
    (∃ z, (Syll.mk loadOther none).access (coreDev [loadOther] .reset) 1 ((coreDev [loadOther] .reset).ctx 1 7) =
      .segv 1 0 4 1 z) :=
  ⟨by decide, by decide, by decide, by decide, by decide, ⟨_, _, rfl, by decide⟩, ⟨_, rfl⟩⟩

/-- A load from the outbound window whose data have not come (R532). -/
theorem witness_bundle_in_flight :
    let c := (((coreDev [loadOther] .reset).setReg (XDM_SEGm_BASEs 1 1) 0xC0000007).setReg (XDM_SEGm_SIZEs 1 1) 0x40).setReg
      HIF_STAT 0x80000000
    (c.fetch 1 0x30800000 (longest 1) [] = .ok [loadOther] c) ∧
    ∃ e, (Syll.mk loadOther none).access c 1 (c.ctx 1 7) = .waits e ∧
      ∀ y : Fin 7, (e.ctx 1 y.val).st ≠ .ready ∧ (e.ctx 1 y.val).inFlight = false :=
  ⟨rfl, _, rfl, by decide⟩

/-- A stopped SUP and a running one, a core of which no context may issue, and fetches that each fail in their own way. -/
theorem witness_cores_issue :
    (let c : Chip := { base with core := { base.core with supStopped := true } }
     c.core.supStopped = true ∧ base.core.supStopped = false ∧ base.romServes = false ∧
     (Chip.reset.setReg SYS_STATE 2).romServes = true) ∧
    (∀ y : Fin 4, (base.ctx 10 y.val).st ≠ .ready) ∧
    (let c := base.setCtx 10 3 { Ctx.reset with pc := 0x30700000, st := .ready }
     3 < ctxCount 10 ∧ (c.ctx 10 3).st = .ready ∧ (c.ctx 10 3).inFlight = false ∧ (0 : Nat).testBit 3 = false ∧
     c.fetch 10 0x30700000 (longest 10) [] = .segv 0x30700000 c) ∧
    (let c := (dev [(XDM_SEGm_BASEs 10 0, 0x0FFFFFC7), (XDM_SEGm_SIZEs 10 0, 0x40)]).setCtx 10 3
       { Ctx.reset with pc := 0x0FFFFFC0, st := .ready, tvec := 4 }
     (c.ctx 10 3).st = .ready ∧ (∃ d, c.fetch 10 0x0FFFFFC0 (longest 10) [] = .fault (.fault 5 0x0FFFFFC0) d) ∧
     wbit (c.ctx 10 3).tstat 0 = false ∧ (c.ctx 10 3).tvec ≠ 0) ∧
    (let c := coreDev [0xA3F00000] .reset
     (c.ctx 1 7).st = .ready ∧ c.fetch 1 0x30800000 (longest 1) [] = .ok [0xA3F00000] c ∧
     illegalSyll 1 [0xA3F00000] = some 0 ∧ (c.ctx 1 7).tvec = 0) :=
  ⟨by decide, by decide, ⟨by decide, by decide, by decide, by decide, rfl⟩, ⟨by decide, ⟨_, rfl⟩, by decide, by decide⟩,
    ⟨by decide, rfl, by decide, by decide⟩⟩

/-- Core 10 in RUN, its last context waiting with WAIT G1, G2, 0xFF, past 1 ns of line time. -/
def waitDev (wake : W32) : Chip :=
  let c := (dev [(SYS_STATE, 5)]).setCtx 10 3
    { Ctx.reset with st := .wait, held := [waitWord], wake := wake, regs := [(2, 1)] }
  { c with tmu := { c.tmu with lt := 65537 } }

/-- Syllables of the A, M and B units, a branch that is and one that is not taken, and a context whose WAIT ends with
its time and with its wake. -/
theorem witness_syllables :
    ((Syll.mk addWord none).unit = 0 ∧ (Syll.mk 0x98004005 none).unit = 1) ∧
    ((Syll.mk branchWord none).unit = 3 ∧ (Syll.mk branchWord none).op = 0 ∧
      condHolds (Syll.mk branchWord none).cond 0 = true ∧ condHolds (Syll.mk 0xB0010100 none).cond 0 = false) ∧
    ((3 : Fin 8).val < ctxCount 10 ∧ ((waitDev 0).ctx 10 3).st = .wait ∧ ((waitDev 0).ctx 10 3).held = [waitWord] ∧
      2 ≤ (waitDev 0).sysState ∧ ((waitDev 0).ctx 10 3).waitSince + 1 * 65536 < (waitDev 0).lt) ∧
    waitOf (bundleSylls [waitWord]) ((waitDev 0).ctx 10 3) = some (0xFF, 1) ∧
    (((waitDev 0).ctx 10 3).wake &&& 0xFF = 0 ∧ ((waitDev 1).ctx 10 3).wake &&& 0xFF ≠ 0 ∧
      ((waitDev 1).ctx 10 3).st = .wait ∧ 2 ≤ (waitDev 1).sysState) ∧
    (base.ctx 10 3).st ≠ .wait :=
  ⟨by decide, by decide, by decide, by decide, by decide, by decide⟩

/-- Division by zero, the quotient that does not fit, and packed words that are and are not decimal (R229). -/
theorem witness_arithmetic :
    (∃ q r fl, mulOp 0x05 0 0x80000000 0xFFFFFFFF 0 0 = (q, some r, fl)) ∧
    (∃ q r fl, mulOp 0x06 0 0x80000000 0 0 0 = (q, some r, fl)) ∧
    (0x80000000#32).toInt = -(2 ^ 31) ∧ (0xFFFFFFFF#32).toInt = -1 ∧
    decBad 0x99999999 = false ∧ decBad 0x9999999A = true :=
  ⟨⟨_, _, _, rfl⟩, ⟨_, _, _, rfl⟩, by decide, by decide, by decide, by decide⟩

/-! ### Protocol engines and their queues (chapter 08) -/

/-- A frame of `n` octets decided for receive queue 31 of two entries and 16-byte buffers, enabled or not, with these
further registers. -/
def rqDev (n : Nat) (cfg : W32) (rs : List (Nat × W32)) : Chip :=
  let c := dev ([(PE_RQq_CFG 31, cfg)] ++ rs)
  { c with swx := { c.swx with frames := [(0, ⟨List.replicate n 0, n + 4, 0, none, 0⟩)], deciding := [⟨0, 31, 0, 0⟩] } }

/-- A queue with room and one that is full, a frame that just fits its buffer and one that is too long, a CONS at and
beyond the entries held, and a transmit queue with 63 and with 64 descriptors. -/
theorem witness_engine_queues :
    base.swx.deciding = [] ∧
    (let c := rqDev 64 0x80010600 [(PE_PEn_STAT 0, 1)]
     c.swx.deciding = ⟨0, 31, 0, 0⟩ :: [] ∧ span16 (c.rqCons 31) (c.rqProd 31) ≠ c.rqSize 31 ∧
     c.rqOn 31 = true ∧ tblGet none c.rq.rqFrozen 31 = none ∧
     2 ^ c.fld (PE_RQq_CFG 31) 11 8 = 64 ∧ (c.frame 0).data.length = 64 ∧ 64 < ((rqDev 65 0 []).frame 0).data.length) ∧
    (let c := rqDev 64 0x80010600 [(PE_RQq_PROD 31, 2)]
     span16 (c.rqCons 31) (c.rqProd 31) = c.rqSize 31 ∧ c.rqHost 31 = false ∧
     (rqDev 64 0x40010600 []).rqHost 31 = true ∧ (rqDev 64 0x40010600 []).bit (PE_RQq_CFG 31) 31 = false) ∧
    (let c := dev [(PE_RQq_POP 31, 3), (PE_RQq_CONS 31, 1)]
     span16 (c.rqCons 31) 3 ≤ span16 (c.rqCons 31) (c.rqPopped 31) ∧
     span16 (c.rqCons 31) (c.rqPopped 31) < span16 (c.rqCons 31) 4) ∧
    ((12 : Master).val ≠ 0 ∧ (12 : Master).val ≠ base.tqOwner 15) ∧
    ((base.setTq 15 (List.replicate 63 0)).tqHeld 15).length < 64 ∧
    ¬((base.setTq 15 (List.replicate 64 0)).tqHeld 15).length < 64 ∧
    (dev [(PE_TQt_CFG 15, 0x80000000)]).bit (PE_TQt_CFG 15) 31 = true ∧ (0x20 : W32).toNat % 32 = 0 ∧
    tblGet none base.rq.offers 8 = none ∧
    (tblGet none ({ base with rq := { base.rq with offers := [(8, some ⟨0, 0, [], []⟩)] } } : Chip).rq.offers 8
      ≠ none) := by decide

/-- A descriptor that is read, with a length that is too short and one that is not, and a unit that each answer of the
fabric meets. -/
theorem witness_descriptors :
    (let c := (dev [(PE_TQt_CFG 15, 0x80000000), (PE_PEn_STAT 0, 1)]).setTq 15 [0x20000000]
     (((List.range 16).map fun i => (tblGet 15 c.rq.served 8 + 1 + i) % 16).find? fun i =>
       !(c.tqHeld i).isEmpty && c.bit (PE_TQt_CFG i) 31 && c.tqHost i == (8 == 9) &&
       (c.tqHost i || !c.ownerOff (c.tqOwner i)) && (tblGet none c.rq.tqFrozen i).isNone) = some 15 ∧
     c.tqHeld 15 = 0x20000000 :: [] ∧ ∃ bs d, c.dmaRead (c.tqMaster 15) 0x20000000 32 = (.ok bs, d)) ∧
    (tqBad 13 1 0 = true ∧ tqBad 14 1 0 = false ∧ tqBad 9212 1 0 = false ∧ tqBad 9213 1 0 = true) ∧
    (∃ bs d, base.readSpan 0 0x20000000 14 = (.ok bs, d) ∧ d.pecksFree = 12288) ∧
    (bufferDev (12288 * 128)).pecksFree < (bufferDev (12288 * 128)).offerPecks 8 (List.replicate 14 0) 0 ∧
    base.tqSlotBad 14 1 1 = false ∧
    (∃ e, base.dmaWrite 0 0x20000000 [1] = (none, e)) ∧
    (∃ e, base.dmaWrite 12 0x20000000 [1] = (some .seg, e)) ∧
    (∃ x e, base.dmaWrite 0 0x0FFFFFFF [1] = (some x, e) ∧ x ≠ .seg) :=
  ⟨⟨by decide, by decide, ⟨_, _, rfl⟩⟩, by decide, ⟨_, _, rfl, by decide⟩, by decide, by decide, ⟨_, rfl⟩, ⟨_, rfl⟩,
    ⟨_, _, rfl, by decide⟩⟩

/-- Each state from which a command takes effect and one from which it does not, a clear that runs, a cycle timer that is
due, and a watchdog at its limit and before it. -/
theorem witness_engine_states :
    (1 : Master).val ≠ 0 ∧ OnlyBit (0 ||| 1) 3 0 ∧ OnlyBit (0 ||| 2) 3 1 ∧ OnlyBit (0 ||| 4) 3 2 ∧
    1 < bitCount (6 ||| 1) 3 ∧
    (∀ s : Fin 8, (dev [(PE_PEn_STAT 7, w32 s.val)]).peState 7 = s.val) ∧
    tblGet false base.core.clearing 7 = false ∧
    tblGet false ({ base with core := { base.core with clearing := [(7, true)] } } : Chip).core.clearing 7 = true ∧
    ((dev [(PE_PEn_CYCPER 7, 1)]).reg (PE_PEn_CYCPER 7) ≠ 0 ∧
      tblGet 0 (dev [(PE_PEn_CYCPER 7, 1)]).core.cycNext 7 ≤ (dev [(PE_PEn_CYCPER 7, 1)]).ltNs) ∧
    (let c := dev [(PE_PEn_STAT 7, 3), (PE_PEn_WDT 7, 0x80000001)]
     let d : Chip := { c with tmu := { c.tmu with lt := 65536001 } }
     c.peState 7 = 3 ∧ c.fld (PE_PEn_WDT 7) 23 0 = 1 ∧ tblGet 0 d.core.wdStart 7 + 1 * 65536000 < d.lt ∧ 4 ≤ c.sysState ∧
     c.bit (PE_PEn_WDT 7) 31 = true ∧ c.lt < tblGet 0 c.core.wdStart 7 + 1 * 65536000) := by
  unfold OnlyBit; decide

/-! ### The cyclic control unit (chapter 09) -/

/-- A cycle frame whose configuration R274 takes. -/
def frameRegs : List (Nat × W32) :=
  [(TSK_FRn_TIN 7, 1000), (TSK_FRn_TOUT 7, 30250), (TSK_FRn_IIMG 7, 0x00010000), (TSK_FRn_OIMG 7, 0x00010000),
    (TSK_FRn_BANKS 7, 0x01000100), (TSK_TKk_CFG 31, 0x80000000)]

/-- Frame 7 enabled and in this state. -/
def frameDev (f : FrameRun) (rs : List (Nat × W32)) : Chip := (dev ([(TSK_FRn_CFG 7, 0x801F0000)] ++ rs)).setFr 7 f

/-- A frame whose times just fit its cycle and one that is a nanosecond too long; a boundary that is now and one that
is not; slots one cycle from their limit and at it; and a check and a handover that are due. -/
theorem witness_cycle_frames :
    ((1 : Master).val ≠ 0 ∧ (frameDev .reset []).bit (TSK_FRn_CFG 7) 31 = true ∧
      base.bit (TSK_FRn_CFG 7) 31 = false) ∧
    ((dev (frameRegs ++ [(TSK_FRn_TOUT 7, 30251)])).frameOk 7 0x801F0000 = false ∧
      (∃ rs, (dev (frameRegs ++ rs)).frameOk 7 0x801F0000 = true)) ∧
    ((frameDev .reset []).bit (TSK_FRn_CFG 7) 30 = false ∧ (FrameRun.reset).next ≤ (frameDev .reset []).ltNs ∧
      (frameDev .reset []).ltNs < ({ FrameRun.reset with next := 1 } : FrameRun).next) ∧
    (∀ b : Bool, ({ FrameRun.reset with evalDue := b, evaluating := b, releaseWaits := b, coming := b } : FrameRun).evalDue = b) ∧
    (tblGet false base.tsk.reported 511 = false ∧
      tblGet false ({ base with tsk := { base.tsk with reported := [(511, true)] } } : Chip).tsk.reported 511 =
        true ∧
      base.slotState 511 ≠ 2 ∧ (base.setSlotState 511 2).slotState 511 = 2) ∧
    (let c := dev [(TSK_SLs_STAT 511, 0x40000001), (TSK_SLs_CFG 511, 0x00030000)]
     c.slotState 511 = 1 ∧ satTo 255 (c.fld (TSK_SLs_STAT 511) 7 0 + 1) < c.fld (TSK_SLs_CFG 511) 23 16 ∧
     (c.setReg (TSK_SLs_CFG 511) 0x00020000).fld (TSK_SLs_CFG 511) 23 16 ≤
       satTo 255 (c.fld (TSK_SLs_STAT 511) 7 0 + 1)) ∧
    ((dev [(TSK_STAT, 2)]).tskMode ≠ 0 ∧ (dev [(TSK_STAT, 2)]).tskMode ≠ 4 ∧ base.tsk.initWait = none ∧ base.initHolds = false) ∧
    (let f : FrameRun := { FrameRun.reset with begun := true, checked := false }
     let c := frameDev f [(TSK_FRn_TOUT 7, 0), (TSK_FRn_STAT 7, 0x20000000)]
     let d : Chip := { c with tmu := { c.tmu with lt := 65536 } }
     c.fr 7 = f ∧ f.t + (c.reg (TSK_FRn_TOUT 7)).toNat < d.ltNs ∧ c.bit (TSK_FRn_STAT 7) 29 = true ∧
     f.exchanged = false ∧
     (c.setReg (TSK_FRn_TOUT 7) 1).ltNs ≤ f.t + ((c.setReg (TSK_FRn_TOUT 7) 1).reg (TSK_FRn_TOUT 7)).toNat) := by
  refine ⟨by decide, ⟨by decide, [(MEM_OGRP 1, 2)], by decide⟩, by decide, by decide, by decide, by decide, by decide, by decide +kernel⟩

/-- What STARTUP's release of the initialisation task came to. -/
def startRelease (c : Chip) : Released :=
  (((c.setFld TSK_STAT 2 0 1).setFld TSK_MODE 2 0 1 |>.flag TSK_EVCAUSE 11 (tskSource 11)).release1
    (c.fld TSK_INITTASK 4 0)).1

/-- A handover of the current cycle and one of the coming one that skipped it; a frame whose task may be released, and
one whose T is past. -/
theorem witness_output_handover :
    ((frameDev { FrameRun.reset with hands := [⟨.current, 0, false, false⟩] } []).fr 7).hands =
      ⟨.current, 0, false, false⟩ :: [] ∧
    ((frameDev { FrameRun.reset with hands := [⟨.coming, 0, true, false⟩] } []).fr 7).hands =
      ⟨.coming, 0, true, false⟩ :: [] ∧ (base.fr 7).hands = [] ∧
    (let c := frameDev .reset [(TSK_STAT, 2), (TSK_TKk_CFG 31, 0x80000000)]
     c.bit (TSK_FRn_STAT 7) 31 = false ∧
     ((c.setFr 7 { c.fr 7 with releaseWaits := false }).release1 (c.fld (TSK_FRn_CFG 7) 20 16)).1 = .started ∧
     ¬(c.fr 7).t < c.ltNs ∧ ({ c with tmu := { c.tmu with lt := 65536 } } : Chip).ltNs = 1) ∧
    (startRelease (dev [(TSK_VMAPN, 1), (TSK_TKk_CFG 0, 0x80000000)]) = .started ∧
      startRelease (dev [(TSK_VMAPN, 1)]) ≠ .started) := by decide +kernel

/-- A mode of each kind, a task that may be released with its context halted and not, a start that is allowed, and a
report from a group of the slot and from none. -/
theorem witness_tasks_and_modes :
    (2 < (3 : Master).val ∧ (2 : Master).val ≤ 2) ∧
    (∀ w : Fin 8, (dev [(TSK_STAT, w32 w.val)]).tskMode = w.val) ∧
    (let c := dev [(TSK_STAT, 2), (TSK_TKk_CFG 31, 0x81070000)]
     c.releaseAllowed 31 = true ∧ c.bit (TSK_TKk_CFG 31) 31 = true ∧ c.releaseAllowed 0 = true ∧
     base.releaseAllowed 31 = false ∧ (c.ctx 2 7).st = .halt ∧
     ((c.setCtx 2 7 { Ctx.reset with st := .ready }).ctx 2 7).st ≠ .halt ∧
     c.reg (TSK_TKk_ENTRY 31) = c.writeForces.reg (TSK_TKk_ENTRY 31)) ∧
    (let c := dev [(SYS_STATE, 5), (TSK_VMAPN, 1)]
     c.tskMode = 0 ∧ c.sysState = 5 ∧ c.fld TSK_VMAPN 15 0 ≠ 0) ∧
    (base.tskMode = 0 ∧ Chip.reset.sysState ≠ 5) ∧
    (base.inGroup 0 (base.pgrp 0) = true ∧ base.inGroup 12 (base.pgrp 0) ≠ true) ∧
    (wfld (0xC0000000 : W32) 31 30 = 3 ∧ wfld (0x40000000 : W32) 31 30 = 1 ∧ wfld (0x80000000 : W32) 31 30 = 2) := by
  decide +kernel

/-- A map of one forceable variable, read by the unit through the segment of TC0. -/
def mapDev (rs : List (Nat × W32)) : Chip :=
  (dev ([(XDM_SEGm_BASEs 1 0, 0x20000007), (XDM_SEGm_SIZEs 1 0, 0x400000), (TSK_VMAP, 0x20000000), (TSK_VMAPN, 1),
    (TSK_TKk_CFG 31, 0x80000000)] ++ rs)).setBytes 0x20000000
      ([7, 0x08000004, 0x20001000, 0].flatMap fun w : W32 => leBytes 4 w.toNat)

/-- The variable found, one that the map does not have, a batch of 31 and of 32 changes, and a swap in each mode. -/
theorem witness_forces_and_changes :
    ((mapDev [(TSK_FCf_ID 63, 7)]).mapFind 7 = some ⟨7, 0, true, 4, 0x20001000, 0⟩ ∧ (mapDev []).mapFind 8 = none ∧
      (VarEntry.simple ⟨7, 0, true, 4, 0x20001000, 0⟩ = true ∧ VarEntry.simple ⟨7, 0, true, 4, 2, 0⟩ = false)) ∧
    ((List.range 64).any fun g => g != 63 && base.fcOn g && base.reg (TSK_FCf_ID g) ==
      base.reg (TSK_FCf_ID 63)) = false ∧
    (base.fcOn 63 = false ∧ (dev [(TSK_FCf_CTL 63, 0xC0000004)]).fcOn 63 = true ∧
      (dev [(TSK_FCf_CTL 63, 0xC0000004)]).bit (TSK_FCf_CTL 63) 30 = true) ∧
    (base.tsk.batch = none ∧ (List.replicate 31 (Change.mk 0 0)).length < 32 ∧
      32 ≤ (List.replicate 32 (Change.mk 0 0)).length) ∧
    (let c := mapDev [(TSK_STAT, 2)]
     c.tskMode ≠ 0 ∧ c.tskMode ≠ 4 ∧ c.bit (TSK_TKk_CFG 31) 31 = true ∧ wbit (0x1F : W32) 31 = false ∧
     vcFault (c.mapFind 7) true = none ∧ vcFault (c.mapFind 8) true = some 2) ∧
    (base.tsk.swapReq = false ∧ ∀ w : Fin 8, (dev [(TSK_STAT, w32 w.val)]).tskMode = w.val) := by decide +kernel

/-- A swap asked for, to a map of `n` entries. -/
def swapDev (n : Nat) : Chip :=
  { mapDev [(TSK_SWAP_TASKS, 0x20002000), (TSK_SWAP_MAP, 0x20003000), (TSK_SWAP_MAPN, w32 n)] with
    tsk := { base.tsk with swapReq := true } }

/-- A swap at its quiet point, to a map without entries, which is in order, and to one of two entries with one ID. -/
theorem witness_swap :
    ((swapDev 0).tsk.swapReq = true ∧
      (((List.range 32).any fun k => (swapDev 0).bit (TSK_TKk_STAT k) 31) ||
        ((List.range 8).any fun n => ((swapDev 0).fr n).evaluating || !((swapDev 0).fr n).hands.isEmpty)) = false) ∧
    mapOk [] = true ∧
    (∃ es d, (swapDev 2).readMap ((swapDev 2).fld TSK_SWAP_MAP 31 4 * 16) ((swapDev 2).fld TSK_SWAP_MAPN 15 0) =
      (.ok es, d) ∧ mapOk es = false) :=
  ⟨by decide +kernel, rfl, ⟨_, _, rfl, rfl⟩⟩

set_option maxRecDepth 20000 in
/-- What the swap to the map without entries reads: both maps and the task table; no variable is carried, no force is
bound. -/
theorem witness_swap_commit :
    ∃ d1, (swapDev 0).readMap ((swapDev 0).fld TSK_SWAP_MAP 31 4 * 16) ((swapDev 0).fld TSK_SWAP_MAPN 15 0) =
        (.ok [], d1) ∧
      ∃ old d2, d1.readMap ((swapDev 0).fld TSK_VMAP 31 4 * 16) ((swapDev 0).fld TSK_VMAPN 15 0) = (.ok old, d2) ∧
        ∃ tab d3, d2.ioRead ((swapDev 0).fld TSK_SWAP_TASKS 31 2 * 4) 128 = (.ok tab, d3) ∧
          ∃ rel d6, d3.rebindForces [] = (rel, d6) := by
  refine ⟨_, rfl, _, _, rfl, _, _, rfl, _, _, rfl⟩

/-! ### Motion (chapter 10) -/

/-- Axis 31 in a state, with these further registers. -/
def axisDev (st : Nat) (rs : List (Nat × W32)) : Chip := dev ([(AXn_STAT 31, w32 st)] ++ rs)

/-- The same stopping, with a plan that has not ended, at 1 µs. -/
def stoppingDev (rs : List (Nat × W32)) : Chip :=
  let c := (axisDev 6 rs).setAx 31 { AxisRun.reset with plan := ⟨0, .rest 0, [(1000000000, 0)], .rest 0⟩ }
  { c with tmu := { c.tmu with lt := 65536000 } }

theorem witness_axis_writes :
    ((0 : Master).val = 0 ∧ ¬((3 : Master).val = 0 ∨ (3 : Master).val = (dev [(AXn_OWNER 31, 2)]).fld (AXn_OWNER 31) 3 0)) ∧
    (1 < bitCount (0x1 ||| 0x100) 9 ∧ bitCount (0 ||| 0x1) 9 = 1 ∧ bitCount (0 ||| 0x100) 9 = 1) ∧
    (∀ w : Fin 8, (axisDev w.val []).axState 31 = w.val) ∧
    ((base.setAx 31 { AxisRun.reset with bound := true }).ax 31).bound = true ∧ (base.ax 31).bound = false ∧
    (base.fld (AXn_CFG 31) 29 28 ≠ 2 ∧ (dev [(AXn_CFG 31, 0x20000000)]).fld (AXn_CFG 31) 29 28 = 2 ∧
      (base.ax 31).xprev = none) ∧
    ((base.setAx 31 { AxisRun.reset with xprev := some 1 }).ax 31).xprev = some 1 := by decide +kernel

/-- An instant that is due for idle axes and for one that is not, each state of a command, a fault of each kind, a step
that is owed, and transitions 20 ns after the last and one before. -/
theorem witness_motion_instants :
    (base.ltUs = base.mot.u ∧
      ({ base with mot := { base.mot with u := 1 } } : Chip).ltUs < 1 ∧
      (let c : Chip := { base with tmu := { base.tmu with lt := 65536000 } }
       c.mot.u < c.ltUs ∧ ((List.range 32).all c.axisIdle) = true ∧
       ({ axisDev 1 [] with tmu := c.tmu } : Chip).axisIdle 31 = false)) ∧
    (let c := axisDev 0 [(AXn_SDEC_LO 31, 1), (AXn_SJERK_LO 31, 1)]
     c.axState 31 = 0 ∧ c.reg64 (AXn_SDEC_LO 31) ≠ 0 ∧ c.reg64 (AXn_SJERK_LO 31) ≠ 0 ∧
     base.reg64 (AXn_SDEC_LO 31) = 0) ∧
    ((dev [(AXn_STAT 31, 0x80000007)]).axState 31 = 7 ∧ (dev [(AXn_STAT 31, 0x80000007)]).bit (AXn_STAT 31) 31 = true) ∧
    base.motDue = none ∧ (stoppingDev []).motDue = some 1 ∧
    (base.bit (STm_CFG 15) 31 = false ∧
      (let c := axisDev 1 [(STm_CFG 15, 0x801F0000), (AXn_CFG 31, 0x80000000)]
       c.bit (STm_CFG 15) 31 = true ∧ c.fld (STm_CFG 15) 20 16 = 31 ∧ c.axState 31 ≠ 0 ∧ c.fld (AXn_CFG 31) 31 30 = 2)) ∧
    (let c := dev [(QEm_CFG 15, 0x86000000)]
     c.bit (QEm_CFG 15) 31 = true ∧ c.fld (QEm_CFG 15) 29 26 * 4 ≤ 4 ∧ ¬c.fld (QEm_CFG 15) 29 26 * 4 ≤ 3 ∧
     c.bit (QEm_CFG 15) 25 = true) ∧
    (let d := tblGet .reset base.mot.quads 15
     true ≠ d.a ∧ true ≠ d.b ∧ false = d.b ∧ d.last = none ∧ false = d.z ∧ true ≠ d.z) ∧
    (let c : Chip := { base with tmu := { base.tmu with lt := 20 * 65536 } }
     0 + 20 ≤ c.ltNs ∧ c.ltNs < 1 + 20) := by decide +kernel

/-- A stale feedback and a deviation that enter FAULT with their causes, and a step that is owed. -/
theorem witness_motion_faults :
    (let c := stoppingDev [(AXn_CFG 31, 0x20000000), (AXn_FBCFG 31, 0x00010020)]
     c.motDue = some 1 ∧ c.axState 31 ≠ 7 ∧ (c.axisBegin 31 1).axState 31 = 7 ∧
     (c.axisBegin 31 1).fld (AXn_STAT 31) 11 8 = 2) ∧
    (let c := stoppingDev [(AXn_CFG 31, 0x20000000), (AXn_DEVWIN 31, 1), (AXn_DEVTIME 31, 1), (AXn_ACTPOS_LO 31, 65537)]
     c.motDue = some 1 ∧ c.axState 31 ≠ 7 ∧ (c.axisBegin 31 1).axState 31 = 7 ∧
     (c.axisBegin 31 1).fld (AXn_STAT 31) 11 8 = 1) ∧
    ((stoppingDev []).axisBegin 31 1).axState 31 ≠ 7 ∧
    (let c := axisDev 1 [(STm_CFG 15, 0x801F0000), (AXn_CFG 31, 0x80000000), (STm_POS 15, 0xFFFFFFFF)]
     let d : Chip := { c with tmu := { c.tmu with lt := 50 * 262144 }, mot := { c.mot with u := 1 } }
     let e : Chip := { d with tmu := { c.tmu with lt := 250 * 262144 } }
     c.stepDue 15 = some (true, 0) ∧ d.stepDue 15 = some (true, 250) ∧ e.stepDue 15 = some (true, 250) ∧
     (tblGet .reset d.mot.steps 15).fwd = true ∧ (tblGet .reset d.mot.steps 15).lastStep = none ∧
     (tblGet .reset d.mot.steps 15).dirAt + d.fld (STm_TIM 15) 15 8 ≤ 250 ∧
     (let f : Chip := { e with mot := { e.mot with steps := [(15, ⟨true, 0, some 240, 240⟩)] } }
      (f.stepDue 15).isSome = true ∧ f.lt / 262144 = 250 ∧ 250 < 240 + max 32 (2 * f.fld (STm_TIM 15) 7 0)) ∧
     max 32 (2 * d.fld (STm_TIM 15) 7 0) ≤ 250 ∧ d.lt / 262144 < 250 ∧ 250 ≤ e.lt / 262144 ∧
     (axisDev 1 [(STm_CFG 15, 0x801F0000)]).stepDue 15 = none) := by decide +kernel

/-! ### Skippers and pack FIFOs (chapter 11) -/

/-- Skipper 31 enabled with this instruction at address 0 and a Skipper clock to use, in a powered cluster. -/
def skDev (w : Nat) (rs : List (Nat × W32)) : Chip :=
  let c := dev ([(SCc_INSN 3 0, w32 w), (SKn_CTL 31, 0x80000000), (SKn_CLK 31, 0x00010001), (SKn_RANGE 31, 0xFF00),
    (PWR_GSTAT, 0x80000)] ++ rs)
  { c with tmu := { c.tmu with raw := 2 } }

/-- Whether the Skipper of `skDev` executes the instruction as one with this operation. -/
def skRuns (w op : Nat) : Bool :=
  let c := skDev w []
  c.skEn 31 && decide ((c.sk 31).clk < c.skClocks 31) && !c.bit (SKn_STAT 31) 30 && !c.bit (SKn_STAT 31) 31 &&
    decide (c.skWord 31 = w) && decide (nfld w 15 12 = op) && skLegal w

/-- An instruction of each form that a clause names: jumps with each of four conditions, a wait on a line, the inputs and
outputs, PUSH with and without a flush, PULL, three moves, two SETs, the IRQ targets and two stamps. -/
theorem witness_skipper_instructions :
    (skRuns 0x00FF 0 && skRuns 0x0100 0 && skRuns 0x0600 0 && skRuns 0x0900 0 && skRuns 0x1A07 1 && skRuns 0x2200 2 &&
      skRuns 0x2401 2 && skRuns 0x261F 2 && skRuns 0x3401 3 && skRuns 0x3600 3 && skRuns 0x3801 3) = true ∧
    (skRuns 0x4C00 4 && skRuns 0x4000 4 && skRuns 0x4800 4 && skRuns 0x5000 5 && skRuns 0x6240 6 && skRuns 0x6250 6 &&
      skRuns 0x6B00 6 && skRuns 0x78FF 7 && skRuns 0x74FF 7) = true ∧
    (skRuns 0x80FF 8 && skRuns 0x8400 8 && skRuns 0x8800 8 && skRuns 0x8CFF 8 && skRuns 0x9000 9 && skRuns 0x9400 9) =
      true ∧
    (skLegal 0x0B00 = false ∧ nfld 0x0B00 15 12 = 0 ∧ skLegal 0x3E00 = false ∧ nfld 0x3E00 15 12 = 3 ∧
      skLegal 0xF000 = false ∧ 10 ≤ nfld 0xF000 15 12 ∧ 10 ≤ nfld 0xA000 15 12) ∧
    (nfld 0x1A07 10 8 = 2 ∧ nfld 0x6B00 8 6 = 4 ∧ nfld 0x6B00 11 9 = 5 ∧ nfld 0x6B00 5 4 = 0 ∧ nfld 0x6250 8 6 = 1 ∧
      nfld 0x6250 5 4 = 1 ∧ nbit 0x4C00 10 = true ∧ nbit 0x4800 11 = true) := by decide +kernel

/-- Registers of each value that a clause tells apart: a jump in and out of its range, C of 0, 1 and 2, a wake bit, a
feed that is empty, the assembly with room, about to fill and full, and a FIFO of 256 words. -/
theorem witness_skipper_states :
    (let c := dev [(SKn_RANGE 31, 0x0401)]
     c.fld (SKn_RANGE 31) 7 0 ≤ nfld 0x0004 7 0 ∧ nfld 0x0004 7 0 ≤ c.fld (SKn_RANGE 31) 15 8 ∧
     ¬nfld 0x0005 7 0 ≤ c.fld (SKn_RANGE 31) 15 8) ∧
    (base.fld (SKn_C 31) 15 0 = 0 ∧ (dev [(SKn_C 31, 1)]).fld (SKn_C 31) 15 0 = 1 ∧
      1 < (dev [(SKn_C 31, 2)]).fld (SKn_C 31) 15 0) ∧
    (let c := dev [(SCc_FLAGSET 3, 0x80)]
     c.bit (SCc_FLAGSET (31 / 8)) (0xFF % 8) = true ∧ base.bit (SCc_FLAGSET (31 / 8)) (0xFF % 8) = false) ∧
    ((dev [(SKn_IRQ 31, 0x80)]).bit (SKn_IRQ 31) 7 = true ∧ base.bit (SKn_IRQ 31) 7 = false) ∧
    (let f := fun k => ((base.setSk 31 { SkRun.reset with feed := List.replicate k 0 }).sk 31).feed.length
     f 0 = 0 ∧ f 7 < 8 ∧ 8 ≤ f 8) ∧
    (let p := fun k => ((base.setPf 31 { PackFifo.reset with asmBytes := k }).pf 31).asmBytes + base.pfBytes 31
     p 3 ≠ 8 ∧ p 4 = 8) ∧
    (({ PackFifo.reset with words := List.replicate 256 ⟨0, 0⟩, asmBytes := 1 } : PackFifo).words.length = 256 ∧
      (0 : Nat) + 1 ≠ (dev [(PFn_CFG 31, 0)]).fld (PFn_CFG 31) 24 16 ∧ base.bit (PFn_CFG 31) 31 = false) := by decide +kernel

/-- A waiting and a stalled Skipper, a wait whose timed output has and has not placed its edge, a cluster that is powered
and one that is gated, its owner and another master, a claim that clashes, and each destination of a pack FIFO. -/
theorem witness_skipper_commands :
    (let c := skDev 0x1A87 [(SKn_STAT 31, 0x40000000)]
     c.skEn 31 = true ∧ (c.sk 31).clk < c.skClocks 31 ∧ c.bit (SKn_STAT 31) 30 = true ∧ nfld 0x1A87 10 8 = 2 ∧
     nbit 0x1A87 7 = true ∧ c.bit (SKn_IRQ 31) (nfld 0x1A87 5 0) = false ∧ tblGet [] c.tmu.toEdges 0 = [] ∧
     (let d : Chip := { c with tmu := { c.tmu with raw := 12, toEdges := [(0, [24])] } }
      (d.sk 31).clk < d.skClocks 31 ∧ tblGet [] d.tmu.toEdges (d.fld (SKn_TMO 31) 4 0) = [24] ∧
      (d.sk 31).waitStart < 24 ∧ 24 + 16 ≤ 4 * d.skStart 31 ∧
      (d.setBit (SKn_IRQ 31) 7 true).bit (SKn_IRQ 31) (nfld 0x1A87 5 0) = true ∧
      tblGet 0 d.skp.lineAt (31 * 8 + nfld 0x1A87 5 0) + 4 ≤ d.skStart 31)) ∧
    (let c := (skDev 0x5000 [(SKn_STAT 31, 0x80000000)]).setSk 31 { SkRun.reset with feed := [7] }
     let c : Chip := { c with tmu := { c.tmu with raw := 12 } }
     c.bit (SKn_STAT 31) 31 = true ∧ nfld (c.skWord 31) 15 12 = 5 ∧ (c.sk 31).feed = 7 :: [] ∧
     (c.sk 31).clk < c.skClocks 31 ∧ (c.sk 31).fedAt < c.skStart 31 ∧ c.skStart 31 ≤ 10 ∧
     (c.setReg (SKn_CTL 31) 0x80000001).fld (SKn_CTL 31) 3 0 ≠ ([] : List W32).length) ∧
    ((skDev 0 []).bit PWR_GSTAT (16 + 31 / 8) = true ∧ (dev [(PWR_GSTAT, 0)]).bit PWR_GSTAT (16 + 31 / 8) = false ∧
      (3 : Master).val ≠ 0 ∧ (3 : Master).val ≠ base.fld (SCc_OWNER (31 / 8)) 3 0) ∧
    (base.claimClash 31 false 0x2020 = true ∧ base.claimClash 31 false 0x2120 = false) ∧
    ((skDev 0 []).skInRange 31 255 = true ∧ ∀ x, x < 8 → base.skEn (3 * 8 + x) = false) ∧
    (∀ k : Fin 4, (dev [(PFn_CFG 31, w32 (k.val * 16))]).fld (PFn_CFG 31) 5 4 = k.val) ∧
    (let c := (dev [(PFn_CFG 31, 0x10), (PFn_CREDIT 31, 1)]).setPf 31 { PackFifo.reset with words := [⟨1, 2⟩] }
     (c.pf 31).credits < (c.pf 31).words.length ∧ (c.pf 31).credits < c.fld (PFn_CREDIT 31) 8 0) := by decide +kernel

/-! ### Banks, atomics, locks, scrubbing and march runs (chapter 12) -/

/-- The atomic port of master 13 set to an address, with a segment that covers SRAM and an owner group that holds it. -/
def atomicDev (a : W32) : Chip :=
  let c := dev [(MEM_OGRP 0, 0xFFFF), (XDM_SEGm_BASEs 13 0, 0x10000007), (XDM_SEGm_SIZEs 13 0, 0x1000000)]
  { c with memc := { c.memc with atAddr := [(13, a)], atOpnd := [(13, 5)] } }

/-- The last word of SRAM and the first address beyond, a word of an error, a lock that is free and one that is held. -/
theorem witness_banks_atomics_locks :
    (let c := atomicDev 0x10FFFFFC
     let a := (tblGet 0 c.memc.atAddr 13).toNat
     a % 4 = 0 ∧ 0x10000000 ≤ a ∧ a < 0x11000000 ∧ c.bit (MEM_BSTAT ((a - 0x10000000) / 0x80000)) 31 = false ∧
     c.bit (MEM_OGRP (c.fld (MEM_BOWN ((a - 0x10000000) / 0x80000)) 3 0)) 13 = true ∧ c.segAllows 13 a 4 3 = true ∧
     ∀ w ∈ wordsOf a 4, w ∉ c.memc.ueWords ∧ w ∉ c.memc.ceWords) ∧
    (¬(tblGet 0 (atomicDev 0x11000000).memc.atAddr 13).toNat < 0x11000000 ∧
      ¬(tblGet 0 (atomicDev 0x10000002).memc.atAddr 13).toNat % 4 = 0) ∧
    (let c := atomicDev 0x10FFFFFC
     let d : Chip := { c with memc := { c.memc with ueWords := [0x10FFFFF8] } }
     (wordsOf 0x10FFFFFC 4).find? (fun w => d.memc.ueWords.contains w) = some 0x10FFFFF8) ∧
    ((0 : Master).val = 0 ∧ (13 : Master).val ≠ 0 ∧ (dev [(MEM_OGRP 0, 1)]).bit (MEM_OGRP 0) 13 ≠ true) ∧
    (let h : Handover := ⟨31, 3, 0⟩
     let c : Chip := { base with memc := { base.memc with handovers := [h] } }
     (c.memc.handovers.filter fun x => x.bank == 31).head? = some h ∧
     (base.memc.handovers.filter fun x => x.bank == 31) = [] ∧
     (∀ f, f < 8 → c.bit (TSK_FRn_CFG f) 31 = true → c.ibank f ≠ 31)) ∧
    (base.fld (MEM_LK 255) 4 0 = 0 ∧ (dev [(MEM_LK 255, 14)]).fld (MEM_LK 255) 4 0 = (13 : Master).val + 1) := by
  decide +kernel

/-- Every bank without an error, and a march run that waits for its segment, runs, and has repaired. -/
theorem witness_scrub_and_march :
    ((dev [(MEM_CTL, 1)]).bit MEM_CTL 0 = true ∧ (dev [(MEM_CTL, 0)]).bit MEM_CTL 0 = false ∧
      (dev [(MEM_SCRUB, 0)]).memc.scrubAt + ((dev [(MEM_SCRUB, 0)]).reg MEM_SCRUB).toNat * 65536000 ≤ base.lt ∧
      base.lt < base.memc.scrubAt + ((dev [(MEM_SCRUB, 1)]).reg MEM_SCRUB).toNat * 65536000 ∧
      base.memc.ueWords = [] ∧ base.memc.ceWords = [] ∧ regionOf 0x10000000 ≠ .mram ∧
      (dev [(MEM_BSTAT 31, 0x80000000)]).bit (MEM_BSTAT 31) 31 = true) ∧
    (let c := dev [(MEM_MARCH_BANKS, 0x80000000), (MEM_OGRP 0, 0xFFFF), (XDM_SEGm_BASEs 14 0, 0x10000007),
       (XDM_SEGm_SIZEs 14 0, 0x1000000)]
     c.memc.march = none ∧ ((List.range 32).filter fun b => c.bit MEM_MARCH_BANKS b) = [31] ∧
     c.bit (MEM_OGRP (c.fld (MEM_BOWN 31) 3 0)) 14 = true ∧ c.segAllows 14 (0x10000000 + 31 * 0x80000) 0x80000 3 = true ∧
     base.marchUncovered 31 = some 0x10F80000) ∧
    (let r : MarchRun := ⟨[31], 0, true, true, none⟩
     let c : Chip := { dev [(MEM_STAT, 1)] with memc := { base.memc with march := some r } }
     c.memc.march = some r ∧ r.frozen = none ∧ r.repair = true ∧ c.bit MEM_STAT 0 = true ∧
     base.bit MEM_STAT 0 = false ∧ 31 ∈ r.banks ∧ 30 ∉ r.banks ∧ c.bit (MEM_BSTAT 31) 31 = false ∧
     r.preserve = true) := by decide +kernel

/-! ### Freezes and data movers (chapter 12) -/

/-- Data mover 63 of SUP in a state, with a descriptor at the start of MRAM in its list. -/
def xdDev (x : XdChan) (rs : List (Nat × W32)) : Chip :=
  (dev ([(XDn_DESC 63, 0x20000000), (XDn_CUR 63, 0x20000000)] ++ rs)).setXd 63 x

/-- A descriptor that moves 128 bytes within SRAM. -/
def xdDesc : XdDesc := { XdDesc.reset with len := 128, src := 0x10000000, dst := 0x10001000 }

/-- A freeze of this channel and of another unit, a command from its owner and from another master, each state, a time
trigger that is due and one that is not, and a wait at its limit and before it. -/
theorem witness_freezes_and_movers :
    (base.tst.frozen = none ∧ (1 : Master).val ≠ 0) ∧
    (let e : FreezeEntry := ⟨0xBF, 0, 16, 0, 64, false, 1, 0⟩
     let c := { xdDev { XdChan.reset with st := .frozen, phase := .move } [] with xdm := { base.xdm with
       chans := [(63, { XdChan.reset with st := .frozen, phase := .move })], freezes := [e] } }
     c.xdm.freezes = e :: [] ∧ e.unit = 0x80 + 63 ∧ (255 : Fin 256).val ≠ e.unit ∧ (c.xd 63).st = .frozen ∧
     (c.xd 63).phase = .move) ∧
    (base.fld (XDn_OWNER 63) 3 0 = 0 ∧ (xdDev { XdChan.reset with st := .armed } []).xd 63 =
      { XdChan.reset with st := .armed }) ∧
    ((base.xd 63).timeArmed = false ∧
      (let c := xdDev { XdChan.reset with timeArmed := true } [(XDn_TRIGT_LO 63, 0)]
       (c.xd 63).timeArmed = true ∧ c.reg64 (XDn_TRIGT_LO 63) ≤ c.ltNs ∧ (c.reg (XDn_TRIGPER 63)).toNat = 0 ∧
       ((c.setReg (XDn_TRIGPER 63) 1).reg (XDn_TRIGPER 63)).toNat ≠ 0 ∧
       c.ltNs < (c.setReg (XDn_TRIGT_LO 63) 1).reg64 (XDn_TRIGT_LO 63))) ∧
    (let c := xdDev { XdChan.reset with st := .armed, armedLimit := 1 } []
     let d : Chip := { c with tmu := { c.tmu with lt := 65536001 } }
     (c.xd 63).armedLimit ≠ 0 ∧ c.lt ≤ (c.xd 63).armedAt + (c.xd 63).armedLimit * 65536000 ∧
     (d.xd 63).armedAt + (d.xd 63).armedLimit * 65536000 < d.lt) ∧
    ((∀ i, i < 64 → base.xdReady i = false) ∧
      (let c := xdDev { XdChan.reset with st := .active, phase := .move } []
       (∀ j, j < 63 → c.xdReady ((c.xdm.lastServed + 1 + j) % 64) = false) ∧
       c.xdReady ((c.xdm.lastServed + 1 + 63) % 64) = true)) := by decide +kernel

/-- The status words written, a descriptor read, and a unit of 64 bytes that a segment covers, and one that none does. -/
theorem witness_mover_accesses :
    (∃ d, (xdDev .reset []).dmaWrite 0 (0x20000000 + 24) (leBytes 4 (2 ^ 31 + at_ 7 27) ++ leBytes 4 0) = (none, d) ∧
      d.xd 63 = (xdDev .reset []).xd 63 ∧ d.tst.frozen = none) ∧
    ((xdDev .reset []).segAllows 0 0x20000000 32 1 = true ∧ (xdDev .reset []).segAllows 3 0x20000000 32 1 = false) ∧
    (∃ bs d, busRead (xdDev { XdChan.reset with st := .active } []) 0 0x20000000 32 = (.ok bs, d) ∧
      d.xd 63 = { XdChan.reset with st := .active } ∧ d.lt = 0 ∧ d.badDesc 63 (XdDesc.of bs) = true) ∧
    ((base.badDesc 63 xdDesc = false ∧ xdDesc.trig = false ∧ ({ xdDesc with trig := true } : XdDesc).trig = true) ∧
      xdDesc.smode = 0 ∧ xdDesc.dmode = 0 ∧ xdDesc.cven = false ∧ min 64 (xdDesc.len - 0) = 64) ∧
    (∃ bs d, (xdDev { XdChan.reset with st := .active, phase := .move, desc := xdDesc } []).readParts 0 0x10000000 64 =
      (.ok bs, d) ∧ bs.length = 64 ∧ d.segAllows 0 0x10001000 64 2 = true ∧ d.segAllows 3 0x10001000 64 2 = false ∧
      ∃ e, busWrite d 0 0x10001000 bs = (none, e) ∧ 0 + 64 < xdDesc.len) :=
  ⟨⟨_, rfl, rfl, rfl⟩, by decide +kernel, ⟨_, _, rfl, rfl, rfl, by decide +kernel⟩, by decide +kernel,
    ⟨_, _, rfl, by decide +kernel, by decide +kernel, by decide +kernel, _, rfl, by decide +kernel⟩⟩

/-! ### Mailboxes (chapter 13) -/

/-- Mailbox 63 from master 0 to master 1, enabled, wide or not, full or not. -/
def mbDev (wide full : Bool) (rs : List (Nat × W32)) : Chip :=
  ((dev ([(MBn_CFG 63, 0x80000010)] ++ rs)).setBit (MBn_CFG 63) 30 wide).setBit (MBn_CTL 63) 30 full

/-- A mailbox and its partner, both full, for as long as the limit of R393 and a microsecond longer. -/
def pairDev (us : Nat) : Chip :=
  let c := dev [(MBn_CFG 62, 0xA0003F10), (MBn_CFG 63, 0xA0003E01), (MBn_CTL 62, 0x40000000), (MBn_CTL 63, 0x40000000),
    (MBX_PAIRLIM, 1)]
  { c with mbx := { c.mbx with pairs := [(62, ⟨some 0, false⟩)] }, tmu := { c.tmu with lt := us * 65536000 } }

theorem witness_mailboxes :
    ((mbDev true true []).bit (MBn_CTL 63) 30 = true ∧ (mbDev true false []).bit (MBn_CTL 63) 30 = false ∧
      (wbit (0x80000011 : W32) 31 = true ∧ wfld (0x80000011 : W32) 3 0 = wfld (0x80000011 : W32) 7 4) ∧
      wfld (0x80000010 : W32) 3 0 ≠ wfld (0x80000010 : W32) 7 4) ∧
    ((mbDev false false []).bit (MBn_CFG 63) 31 = true ∧ (0 : Master).val = (mbDev false false []).fld (MBn_CFG 63) 3 0 ∧
      (1 : Master).val = (mbDev false false []).fld (MBn_CFG 63) 7 4 ∧
      (7 : Fin 16).val ≤ (if (mbDev false false []).bit (MBn_CFG 63) 30 = true then 15 else 7) ∧
      (if (mbDev false false []).bit (MBn_CFG 63) 30 = true then 15 else 7) < (8 : Fin 16).val ∧
      (15 : Fin 16).val ≤ (if (mbDev true false []).bit (MBn_CFG 63) 30 = true then 15 else 7)) ∧
    ((mbDev true true []).mbPartner 63 = none ∧ (2 : Master).val ≠ 0 ∧
      (2 : Master).val ≠ (mbDev false false []).fld (MBn_CFG 63) 3 0 ∧
      (2 : Master).val ≠ (mbDev false false []).fld (MBn_CFG 63) 7 4) ∧
    ((tblGet .reset base.mbx.timers 63).goLt = none ∧
      (let c := ((mbDev true true []).setFld (MBn_CFG 63) 27 16 1).setMbTimer 63 ⟨some 0⟩
       let d : Chip := { c with tmu := { c.tmu with lt := 65536001 } }
       (tblGet .reset c.mbx.timers 63).goLt = some 0 ∧ c.mbTimeout 63 ≠ 0 ∧ c.lt ≤ 0 + c.mbTimeout 63 ∧
       0 + d.mbTimeout 63 < d.lt)) ∧
    (let c := pairDev 2
     c.mbPartner 62 = some 63 ∧ tblGet .reset c.mbx.pairs 62 = ⟨some 0, false⟩ ∧ c.bit (MBn_CTL 62) 30 = true ∧
     c.bit (MBn_CTL 63) 30 = true ∧ (c.lt - 1) / 65536000 - 0 / 65536000 ≤ (c.reg MBX_PAIRLIM).toNat ∧
     (c.reg MBX_PAIRLIM).toNat < ((pairDev 3).lt - 1) / 65536000 - 0 / 65536000) := by decide +kernel

/-- A full mailbox, and what a data write, a GO and a configuration write make of it. -/
theorem witness_message :
    (mbDev true true []).bit (MBn_CTL (63 : Fin 64).val) 30 = true ∧ wbit (0 : W32) 26 = false ∧
    (∃ d, Does (.mailboxDataWrite 0 63 15 7) (mbDev true true []) d) ∧
    (∃ d, Does (.mailboxGo 0 63 0) (mbDev true true []) d) ∧
    (∃ d, Does (.mailboxConfigWrite 0 63 0) (mbDev true true []) d) ∧
    (∃ d, Does (.mailboxAcknowledge 0 63) (mbDev true true []) d) :=
  ⟨by decide, by decide, ⟨_, does_mailboxDataWrite rfl⟩, ⟨_, does_mailboxGo rfl⟩, ⟨_, does_mailboxConfigWrite rfl⟩,
    ⟨_, does_mailboxAcknowledge rfl⟩⟩

/-! ### The event fabric and the check-value unit (chapter 13) -/

/-- The device after reset with one raised event. -/
def raisedDev (src code : Nat) (route : W32) : Chip :=
  { base with evt := { base.evt with raised := [⟨src, code, 0, route⟩] } }

theorem witness_raise_write :
    (0 : Master).val = 0 ∧ (raisedDev 511 0 0xE0000000).evt.raised = ⟨511, 0, 0, 0xE0000000⟩ :: [] := by decide

/-- Whether the target table of R398 lists a target. -/
def listed (t : Nat) : Bool :=
  decide ((t / 512 = 1 ∧ t % 64 ≠ 0) ∨ t / 512 = 2 ∨ t / 512 = 3 ∨ t / 512 = 4 ∨ (t / 512 = 5 ∧ t % 8 ≤ 4) ∨
    t / 512 = 6 ∨ (t / 512 = 7 ∧ 1 ≤ t % 8 ∧ t % 8 ≤ 6))

/-- A mailbox's event of each code, a target of each kind, queues of 63 and of 64 records, a route that the table lists and
two that it does not, and a message that is masked and one that is not. -/
theorem witness_event_delivery :
    base.evt.raised = [] ∧ base.bit (SKn_IRQ 31) 1 = false ∧ (dev [(SKn_IRQ 31, 2)]).bit (SKn_IRQ 31) 1 = true ∧
    (raisedDev 448 4 0).evt.raised = ⟨448, 4, 0, 0⟩ :: [] ∧ wbit (0 : W32) 29 = false ∧
    (∀ k : Fin 8, (k.val * 512 + 63) / 512 = k.val) ∧ base.fld HIF_STAT 17 16 = 0 ∧ (base.xd 63).pend = false ∧
    (List.replicate 63 (⟨0, 0, false, 0, 0⟩ : EvRecord)).length < 64 ∧
    64 ≤ (List.replicate 64 (⟨0, 0, false, 0, 0⟩ : EvRecord)).length ∧
    ((3 : Master).val ≠ 0 ∧ (3 : Master).val ≠ base.fld (EVT_EQk_OWNER 7) 3 0) ∧
    (listed 513 && !listed 512 && listed (5 * 512 + 4) && !listed (5 * 512 + 5) && !listed (7 * 512) &&
      !listed (7 * 512 + 7)) = true ∧
    (let c : Chip := { dev [(HIF_STAT, 0x80000000)] with evt := { base.evt with msix := [63] } }
     c.evt.msix = 63 :: [] ∧ c.bit HIF_STAT 31 = true ∧ base.bit HIF_STAT 31 = false ∧ nbit c.hif.pba 63 = false ∧
     nbit ({ c.hif with pba := 2 ^ 63 } : HifState).pba 63 = true) := by decide +kernel

theorem witness_check_values :
    ((0 : Master).val = 0 ∧ (3 : Master).val ≠ 0 ∧ (3 : Master).val ≠ base.fld (CVn_OWNER 15) 3 0) ∧
    (base.bit (CVn_CFG 15) 31 = false ∧ (dev [(CVn_CFG 15, 0xC0000040)]).bit (CVn_CFG 15) 31 = true ∧
      (dev [(CVn_CFG 15, 0xC0000040)]).bit (CVn_CFG 15) 30 = true ∧
      (dev [(CVn_CFG 15, 0xC0000040)]).fld (CVn_CFG 15) 6 0 ≤ 64) ∧
    base.bit SWX_SCHED_CTL 31 = false ∧ (0xFFFF < 2 ^ 16 ∧ 0x1021 < 2 ^ 16 ∧ 1 ≤ 16) := by decide

/-! ### The host's paths and the command service (chapter 14) -/

/-- The device with this path chosen, its link up and the path set up. -/
def hostDev (path : Nat) (rs : List (Nat × W32)) : Chip :=
  let c := dev ([(HIF_STAT, w32 (0x80000000 + path * 65536))] ++ rs)
  { c with hif := { c.hif with pathUp := true } }

/-- An access at each edge of its region, on a path that is and one that is not the chosen one; host segments that cover an
access and that do not; and an outbound read at its time limit and before it. -/
theorem witness_host_paths :
    (∀ p : Fin 4, (hostDev p.val []).fld HIF_STAT 17 16 = p.val) ∧
    ((hostDev 0 []).bit HIF_STAT 31 = true ∧ ¬base.bit HIF_STAT 31 = true ∧ (hostDev 1 []).hif.pathUp = true) ∧
    (0x10000 < 0xFFFD + 4 ∧ ¬0x10000 < 0xFFFC + 4 ∧ 0xFC < 0x100 ∧ 0xFC % 4 = 0) ∧
    (¬(hostDev 0 []).bit HIF_STAT 30 = true ∧ (hostDev 0 [(HIF_STAT, 0xC0000000)]).bit HIF_STAT 30 = true) ∧
    ((hostDev 0 []).segAllows 11 0x10000000 4 1 = false ∧
      (let c := hostDev 0 [(XDM_SEGm_BASEs 11 0, 0x10FC0003), (XDM_SEGm_SIZEs 11 0, 0x40000), (MEM_OGRP 0, 0xFFFF)]
       c.segAllows 11 0x10FFFFFC 4 1 = true ∧ c.segAllows 11 0x10FFFFFD 4 1 = false)) ∧
    (0x10000 ≤ (0x00FFFFFF#32).toNat ∧ (0x00FFFFFF#32).toNat < 0x01000000) ∧
    (0x0FFFFFFC + ([1, 2, 3, 4] : List Byte).length ≤ 2 ^ 28 ∧ 0 < ([1, 2, 3, 4] : List Byte).length ∧
      (hostDev 0 []).hif.ob = []) ∧
    (let r : ObRead := ⟨3, 0xC0000000, 4, 0, none⟩
     let c := hostDev 0 []
     let d : Chip := { c with hif := { c.hif with ob := [r] }, tmu := { c.tmu with raw := 9999999 } }
     d.tst.frozen = none ∧ (d.hif.ob.find? fun x => x.m == 3 && x.result.isNone) = some r ∧
     (c.hif.ob.find? fun x => x.m == 3 && x.result.isNone) = none ∧ d.tmu.raw ≤ r.start + 10000000 ∧
     r.start + 10000000 < ({ d with tmu := { d.tmu with raw := 10000001 } } : Chip).tmu.raw) := by decide +kernel

/-- What the window's accesses answer: a register of HIF read and written, a mailbox's write refused, and a word of SRAM
read and written. -/
theorem witness_host_accesses :
    let c := hostDev 0 [(XDM_SEGm_BASEs 11 0, 0x10FC0003), (XDM_SEGm_SIZEs 11 0, 0x40000), (MEM_OGRP 0, 0xFFFF)]
    (∃ r, (regRead c 11 (0x40110000 + 0)).bus = .ok r) ∧ (regWrite c 11 (0x40110000 + 0) 0).bus ≠ .busError ∧
    (regWrite c 11 (0x400F0000 + 0) 0).bus = .busError ∧ (∃ bs d, c.memRead 11 0x10FFFFFC 4 = (.ok bs, d)) ∧
    (∃ d, c.memWrite 11 0x10FFFFFC [1, 2, 3, 4] = (none, d)) :=
  ⟨⟨_, rfl⟩, by decide +kernel, by decide +kernel, ⟨_, _, rfl⟩, ⟨_, rfl⟩⟩

/-- A device that serves commands, in CHRYSALIS. -/
def servingDev (rs : List (Nat × W32)) : Chip := hostDev 0 ([(SYS_STATE, 3)] ++ rs)

/-- Doorbells 64 commands ahead and 65, a ring with a posted command and an empty one, a packet that each check of R428 is
the first to refuse and one that every check passes, and a reply that can be posted. -/
theorem witness_commands :
    (let dist := fun a b : Nat => (a + 65536 - b) % 65536
     ((11 : Master).val = 11 ∧ (0 : Master).val ≠ 11 ∧ dist 64 0 ≤ 64 ∧ ¬dist 65 0 ≤ 64 ∧ dist 0 0 ≤ dist 64 0 ∧
       ¬dist 1 0 ≤ dist 0 0)) ∧
    ((servingDev []).serving = true ∧ base.serving = false ∧ (servingDev []).bit HIF_STAT 29 = false ∧
      (servingDev []).hif.cur = none ∧ (servingDev [(HIF_CMD_DB, 1)]).fld HIF_CMD_DB 15 0 ≠ 0 ∧
      (servingDev []).fld HIF_CMD_DB 15 0 = (servingDev []).fld HIF_CMD_CONS 15 0 ∧ (servingDev []).hif.replies = []) ∧
    ((servingDev [(MBn_CTL 0, 0x40000000), (MBn_CFG 0, 0xC000000B)]).bit (MBn_CTL 0) 30 = true ∧
      (servingDev [(MBn_CFG 0, 0xC000000B)]).bit (MBn_CFG 0) 31 = true ∧
      (servingDev [(MBn_CFG 0, 0xC000000B)]).bit (MBn_CFG 0) 30 = true ∧
      (servingDev [(MBn_CFG 0, 0xC000000B)]).fld (MBn_CFG 0) 7 4 = 0 ∧ (servingDev []).mbPartner 0 = none) ∧
    (leNat (bytesAt ([5, 0, 1, 0, 4, 0, 0, 0xFF] : List Byte) 4 2) ≤ 4064 ∧ 4064 % 4 = 0 ∧ 32 + 4064 ≤ 4096 ∧
      ¬32 + 4065 ≤ 4096 ∧ (byteAt ([5, 0, 1, 0, 4, 0, 0, 0xFF] : List Byte) 7).toNat = 0xFF) ∧
    ((servingDev []).romService = false ∧ (servingDev []).session 7 = none ∧ (servingDev []).sysState = 3) ∧
    ((cmdRow 0).isNone = true ∧ ((cmdRow 1).map fun r => (r.role, r.states, r.fits [], r.fits [0])) =
      some (0, [3, 4, 5], true, false) ∧ ((cmdRow 4).map fun r => r.role) = some 3) ∧
    (let r : Reply := ⟨.ring, []⟩
     let c := servingDev []
     ({ c with hif := { c.hif with replies := [r] } } : Chip).hif.replies.find? c.postable = some r ∧
     c.sec.load = none ∧ c.hif.started = [] ∧ c.bit MEM_MARCH_CTL 30 = false) := by decide +kernel

/-- A session that is proven, whose next sequence is 6. -/
theorem witness_session :
    let x : Session := ⟨3, [], [], [], [], true, 0, 5, []⟩
    let c := (servingDev []).setSession 7 (some x)
    c.session 7 = some x ∧ x.proven = true ∧ 5 ≤ x.lastSeq ∧ ¬6 ≤ x.lastSeq := by decide +kernel

/-! ### The commands of supervisor firmware (chapter 14) -/

/-- A command without a session, from the ring. -/
def command (op : Nat) (ws : List W32) : Cmd := ⟨.ring, op, 1, 0xFF, ws⟩

/-- A device that has this command in service. -/
def svcDev (op : Nat) (ws : List W32) (rs : List (Nat × W32)) : Chip :=
  let c := servingDev rs
  { c with hif := { c.hif with cur := some (command op ws) } }

/-- Any command with any payload can be in service; its reply is not too long for the ring, and it may be STARTED. -/
theorem witness_in_service (op : Nat) (ws r : List W32) :
    InService op (command op ws) (svcDev op ws []) ∧ tooLong (command op ws) r = false ∧
    (svcDev op ws []).hif.started.length < 8 :=
  ⟨⟨rfl, rfl, by
    change (servingDev []).serving = true
    decide +kernel⟩, rfl, by
    change (servingDev []).hif.started.length < 8
    decide +kernel⟩

/-- The device states that SET_STATE names and the edges of the other parameters, a session slot that is free, a
password and a key that are there, and each of the functions of SEC answering something. -/
theorem witness_system_commands :
    (∀ t : Fin 8, wfld (w32 t.val) 2 0 = t.val) ∧
    ((sysStateWrite (svcDev 3 [4] []) 0 4).sysState = 4 ∧ (sysStateWrite (svcDev 3 [5] []) 0 5).sysState ≠ 5) ∧
    (¬0x3FFFFFFF ≥ 0x40000000 ∧ (0x4015FFFC : Nat) ≤ 0x4015FFFF ∧ regionOf 0x4015FFFC = .periph) ∧
    ((registerRead (svcDev 6 [] []) 0 0x40110000 4).bus ≠ .busError ∧
      (registerRead (svcDev 6 [] []) 0 0x4015FFFE 4).bus = .busError ∧
      (registerWrite (svcDev 7 [] []) 0 (EVT_ROUTE 0) 4 0).bus ≠ .busError ∧
      (registerWrite (svcDev 7 [] []) 0 (EVT_ROUTE 0) 4 0x80000000).bus = .busError) ∧
    ((svcDev 0x101 [] []).bit SEC_TRNG_STAT 31 = false ∧ (svcDev 0x101 [] []).roleLocked 3 = false ∧
      (idled (svcDev 0x101 [] [])).openKey 3 0xFF ≠ none ∧ (idled (svcDev 0x101 [] [])).freeSession = some 0) ∧
    ((∀ s ∈ (svcDev 0x103 [] []).hif.started, s.cmd.slot ≠ 0xFF) ∧
      (let x : Started := ⟨command 1 [], .march⟩
       ∃ s ∈ [x], s.cmd.slot = 0xFF)) ∧
    ((idled (svcDev 0x201 [] [])).inOg0 0x10FFFFF0 16 = true ∧ (idled (svcDev 0x201 [] [])).inOg0 0x10FFFFF1 16 = false ∧
      (∀ k, k < 4 → (idled (svcDev 0x201 [] [])).handle k = none)) ∧
    (tblFind (svcDev 4 [] []).hif.sources 7 = none ∧ (svcDev 4 [] [(PE_PEn_STAT 7, 3)]).sec.load = none ∧
      (let c := svcDev 4 [] []
       let d : Chip := { c with hif := { c.hif with sources := [(7, (0x10000000, 64))] } }
       tblFind d.hif.sources 7 = some (0x10000000, 64)) ∧
      tblGet none (svcDev 0x202 [] []).core.frozen 0 = none) ∧
    ((svcDev 0x204 [] [(PE_PEn_STAT 7, 2)]).peState 7 = 2 ∧ (svcDev 0x205 [] [(PE_PEn_STAT 7, 3)]).peState 7 = 3 ∧
      (idled (svcDev 0x204 [] [])).heldElsewhere 7 = false) := by
  refine ⟨by decide, by decide +kernel, by decide, by decide +kernel, by decide +kernel, ⟨by decide, ⟨_, List.mem_singleton_self _, rfl⟩⟩,
    by decide +kernel, by decide +kernel, by decide +kernel⟩

/-- A load handle: with bytes still to come, with all of them, and committed. -/
theorem witness_load_handles :
    let y : LoadHandle := ⟨3, 0, 8, 0x10000000, 4, false⟩
    let c := svcDev 0x202 [3, 4, 1] []
    let d : Chip := { c with hif := { c.hif with handles := [(3, some y)] } }
    (idled d).handle 3 = some y ∧ (idled c).handle 3 = none ∧ y.loaded < y.len ∧ y.loaded + 4 ≤ y.len ∧
    ¬y.loaded + 5 ≤ y.len ∧ (∃ e, (idled d).fwWrite (y.addr + y.loaded) [1, 2, 3, 4] = (true, e)) ∧
    (({ y with loaded := 8 } : LoadHandle).len ≤ ({ y with loaded := 8 } : LoadHandle).loaded) ∧
    ({ y with committed := true } : LoadHandle).committed = true :=
  ⟨by decide +kernel, by decide +kernel, by decide, by decide, by decide, ⟨_, rfl⟩, by decide, rfl⟩

set_option maxRecDepth 20000 in
/-- A device whose SUP has read access to nothing at 0x0FFFFFFC, where firmware's own accesses end; an image read; and a
control program without sections that is placed. -/
theorem witness_program_load :
    let y : LoadHandle := ⟨3, 0, 64, 0x10000000, 64, true⟩
    let c := svcDev 0x701 [3, 1] []
    let d : Chip := { c with hif := { c.hif with handles := [(3, some y)] } }
    ((idled d).handle 3 = some y ∧ d.hif.active = none ∧ d.tgrp 0 = d.fld (MEM_BOWN 0) 3 0 ∧ wbit (1 : W32) 0 = true ∧
      (∀ k, k < 32 → wbit (1 : W32) k = true → k = 0) ∧ (banksOf 1).headD 0 = 0) ∧
    (∃ e, (idled d).fwRead 0x0FFFFFFC 4 = (none, e)) ∧ (∃ e, (idled d).fwWrite 0x0FFFFFFC [1] = (false, e)) ∧
    (∃ img e, (idled d).fwRead y.addr y.len = (some img, e) ∧
      inBanks 1 (bankAddr 0) 128 = true ∧ ∃ d', e.placeProgram 1 (programSections (bankAddr 0) img).1 = (true, d') ∧
        d'.fld TSK_VMAPN 15 0 = 0) :=
  ⟨by decide +kernel, ⟨_, rfl⟩, ⟨_, rfl⟩, ⟨_, _, rfl, by decide +kernel, _, rfl, by decide +kernel⟩⟩

/-- The edges of each command's first parameter, a table that runs no operation, a CAN channel that is enabled and one
that is not, a domain that can be selected, and a shaft in MASTER. -/
theorem witness_network_commands :
    (modeListed 1 4 = false ∧ modeListed 1 3 = true ∧ wfld (3 : W32) 3 0 ≠ 1) ∧
    ((svcDev 0x304 [] []).swx.tblOp = none ∧ (1023 + 1 ≤ 1024 ∧ 1024 < 1023 + 2)) ∧
    ((svcDev 0x308 [] []).bit (CANn_CTL 3) 31 = false ∧
      (svcDev 0x308 [] [(CANn_CTL 3, 0x80000000)]).bit (CANn_CTL 3) 31 = true ∧ 0x3FFC % 4 = 0 ∧ 0x3FFC < 0x4000) ∧
    ((regWrite (idled (svcDev 0x403 [] [])) 0 TMU_DOMSEL 0).tmu.activeB = false ∧
      (regWrite (idled (svcDev 0x403 [] [])) 0 TMU_DOMSEL 1).tmu.activeB ≠ true) ∧
    ((svcDev 0x404 [] [(TMU_TOn_CFG 31, 0x100)]).bit (TMU_TOn_CFG 31) 8 = true) ∧
    (let c := (svcDev 0x505 [] [(ANG_SHn_MSRC 15, 0)]).setShaft 15 { Shaft.reset with st := .master }
     wfld (c.regLive 0 (ANG_SHn_STAT 15)) 2 0 = 2 ∧ c.bit (ANG_SHn_MSRC 15) 31 = false ∧
     wfld ((svcDev 0x505 [] []).regLive 0 (ANG_SHn_STAT 15)) 2 0 ≠ 2) := by decide +kernel

/-- An axis that is disabled and one that is not, a control program placed and not placed, each mode, a batch and a swap
that wait, forces on and off, MRAM good and failed, a recorder that is idle and one that is busy, and a march that runs. -/
theorem witness_motion_and_program_commands :
    ((svcDev 0x601 [] []).axState 31 = 0 ∧ (svcDev 0x601 [] [(AXn_STAT 31, 1)]).axState 31 ≠ 0) ∧
    ((idled (svcDev 0x702 [] [])).tskMode = 0 ∧
      (regWrite (idled (svcDev 0x702 [] [(TSK_STAT, 2)])) 0 TSK_MODE 0).tskMode = 0 ∧
      (regWrite (idled (svcDev 0x702 [] [])) 0 TSK_MODE 2).tskMode ≠ 2) ∧
    ((svcDev 0x703 [] []).tsk.batch = none ∧ (svcDev 0x706 [] []).tsk.swapReq = false ∧
      (svcDev 0x706 [] []).hif.staged = none ∧ (svcDev 0x701 [] []).hif.active = none) ∧
    ((svcDev 0x704 [] []).fcOn 0 = false ∧ (svcDev 0x705 [] []).forcesOn = [] ∧
      (svcDev 0x705 [] [(TSK_FCf_CTL 63, 0x80000000)]).forcesOn = [63]) ∧
    ((svcDev 0x801 [] [(MEM_STAT, 1)]).bit MEM_STAT 0 = true ∧ (svcDev 0x801 [] [(MEM_STAT, 0)]).bit MEM_STAT 0 = false ∧
      (svcDev 0x802 [] []).evr.op ≠ none ∧
      ({ svcDev 0x802 [] [] with evr := { base.evr with op := none } } : Chip).evr.op = none) ∧
    ((svcDev 0x901 [] []).sysState ≠ 5 ∧ (svcDev 0x901 [] []).bit MEM_MARCH_CTL 30 = false ∧
      (svcDev 0x901 [] [(MEM_MARCH_CTL, 0x40000000)]).bit MEM_MARCH_CTL 30 = true) ∧
    ((svcDev 0x902 [] []).bit (TST_PRBSl_CTL 13) 31 = false ∧ (idled (svcDev 0x902 [] [])).prbsRefused 13 2 = false ∧
      (0x1001 : W32) &&& 0xFFFFCCF0 = 0) ∧
    ((svcDev 0x902 [] [(PWR_GATE, 0)]).bit PWR_GATE (8 + 7) = false ∧
      (svcDev 0x902 [] [(PWR_GATE, 0x8000)]).bit PWR_GATE (8 + 7) = true) ∧
    ((svcDev 0x905 [] []).hif.started = [] ∧
      (let y : Started := ⟨command 0x905 [], .loopback 3 0 1⟩
       ∃ s ∈ [y], s.wait = .loopback 3 0 1)) := by decide +kernel

/-- A batch accepted and a swap asked for by what the commands write. -/
theorem witness_batch_and_swap :
    (let c := { mapDev [(TSK_STAT, 2)] with hif := base.hif }
     (c.supWrites [(TSK_VC_ID, 7), (TSK_VC_LO, 1), (TSK_VC_HI, 0), (TSK_VC_CTL, 0x80000000),
       (TSK_VC_CTL, 0x6000001F)]).tsk.batch ≠ none) ∧
    ((base.supWrites [(TSK_VC_ID, 7), (TSK_VC_LO, 1), (TSK_VC_HI, 0), (TSK_VC_CTL, 0x80000000),
      (TSK_VC_CTL, 0x6000001F)]).tsk.batch = none) ∧
    ((dev [(TSK_STAT, 1)]).supWrites [(TSK_SWAP_CTL, 1)]).tsk.swapReq = true ∧
    ((dev [(TSK_STAT, 2)]).supWrites [(TSK_SWAP_CTL, 1)]).tsk.swapReq = false := by decide +kernel

/-! ### SEC and the event recorder (chapter 15) -/

/-- A session not proven, and the same after it. -/
def openSession (proven : Bool) : Session := ⟨3, [], [], [], [], proven, 0, 0, []⟩

/-- The fourth and the fifth failed proof at their time and a nanosecond before, a lock that ends, fuse operations in and
out of CHRYSALIS with a digest that is there and one that is not, a revocation that leaves a vendor key and one that
leaves none, and 15 and 16 random words. -/
theorem witness_sec :
    (let c := base.setSession 7 (some (openSession false))
     let d : Chip := { c with tmu := { c.tmu with raw := 1000000001 } }
     base.session 7 = none ∧ c.session 7 = some (openSession false) ∧
     c.tmu.raw ≤ (openSession false).openedAt + 1000000000 ∧ (openSession false).openedAt + 1000000000 < d.tmu.raw ∧
     tblGet 0 d.sec.fails 3 + 1 < 5 ∧
     5 ≤ tblGet 0 ({ d with sec := { d.sec with fails := [(3, 4)] } } : Chip).sec.fails 3 + 1) ∧
    (tblGet none base.sec.locks 3 = none ∧
      (let c : Chip := { base with sec := { base.sec with locks := [(3, some 0)] } }
       tblGet none c.sec.locks 3 = some 0 ∧ 0 ≤ (c.reg EVR_OPSEC).toNat ∧ (c.reg EVR_OPSEC).toNat < 1)) ∧
    ((3 : Master).val ≠ 0 ∧ base.sec.fuseOp = none ∧ base.sysState ≠ 3 ∧
      (dev [(SYS_STATE, 3)]).sysState = 3 ∧ wbit (0x103 : W32) 8 = true ∧ tblGet [] base.sec.fuses.owner 3 = [] ∧
      tblGet [] ({ Fuses.reset with owner := [(3, [1])] } : Fuses).owner 3 ≠ []) ∧
    (let f : Fuses := { Fuses.reset with vendor := [(0, [1]), (3, [1])] }
     let gone := fun k : Nat => f.revoked ||| BitVec.ofNat 8 (2 ^ k)
     (∃ s, s < 4 ∧ tblGet [] f.vendor s ≠ [] ∧ (gone 0).getLsbD s = false) ∧
     ¬∃ s, s < 4 ∧ tblGet [] Fuses.reset.vendor s ≠ [] ∧ (gone 0).getLsbD s = false) ∧
    (({ base with sec := { base.sec with fuseOp := some ⟨2, 0, 3⟩ } } : Chip).sec.fuseOp = some ⟨2, 0, 3⟩ ∧
      (FuseOp.mk 2 0 3).op = 2 ∧ (FuseOp.mk 2 0 3).result = 0 ∧ (FuseOp.mk 1 0 3).op ≠ 2) ∧
    (base.bit SEC_TRNG_STAT 31 = false ∧ (List.replicate 15 (0 : W32)).length < 16 ∧
      16 ≤ (List.replicate 16 (0 : W32)).length ∧ base.sec.trng = []) := by decide +kernel

/-- A SEC job with a descriptor in SRAM, of an operation that is listed and one that is not, and the words it gives. -/
def jobDev (op : Nat) : Chip :=
  let c := ((dev [(MEM_OGRP 0, 0xFFFF), (XDM_SEGm_BASEs 13 0, 0x10000007), (XDM_SEGm_SIZEs 13 0, 0x400000)]).setBytes 0x10000000
    ([w32 (op * 2 ^ 24), 0x10001000, 8, 0x10002000, 48, 0x10003000, 0, 0].flatMap fun w : W32 => leBytes 4 w.toNat))
  { c with sec := { c.sec with job := some ⟨0x10000000, false, none⟩ } }

theorem witness_sec_job :
    (∀ op, op = 2 ∨ op = 255 → (jobDev op).sec.job = some ⟨0x10000000, false, none⟩ ∧ (jobDev op).secLoadFrozen = false) ∧
    (jobListed 2 = true ∧ jobListed 255 = false ∧ base.sec.job = none) ∧
    (∃ bs d, (jobDev 2).readSpan 13 0x10000000 32 = (.ok bs, d) ∧ nfld (leNat (bytesAt bs 0 4)) 31 24 = 2 ∧
      leNat (bytesAt bs 16 4) = 48 ∧ nfld (leNat (bytesAt bs 0 4)) 17 16 = 0) ∧
    (∃ bs d, (jobDev 255).readSpan 13 0x10000000 32 = (.ok bs, d) ∧ nfld (leNat (bytesAt bs 0 4)) 31 24 = 255) ∧
    (∃ inp e, (jobDev 2).readSpan 13 0x10001000 8 = (.ok inp, e) ∧ (sha384 inp).length = 48) ∧ (∃ aux e, (jobDev 2).readSpan 13 0x10003000 0 = (.ok aux, e)) ∧
    (∃ o, (jobDev 2).writeSpan 13 0x10002000 (List.replicate 48 0) = (none, o)) ∧
    (∃ g, (jobDev 2).dmaWrite 13 (0x10000000 + 28) (leBytes 4 (2 ^ 31 + at_ 2 28)) = (none, g)) := by
  refine ⟨fun op h => ⟨rfl, rfl⟩, by decide, ⟨_, _, rfl, by decide +kernel, by decide +kernel, by decide +kernel⟩,
    ⟨_, _, rfl, by decide +kernel⟩, ⟨_, _, rfl, by decide +kernel⟩, ⟨_, _, rfl⟩, ⟨_, rfl⟩, ⟨_, rfl⟩⟩

/-- A recorder in each state, the lowest slot of an empty recorder, a second that ends now and one that does not. -/
theorem witness_recorder :
    (base.evr.op = some .scan ∧ (base.setEvrOp none).evr.op = none ∧
      (base.setEvrOp (some .clear)).evr.op = some .clear ∧
      (base.setEvrOp (some (.store ⟨7, 1, 2, []⟩))).evr.op = some (.store ⟨7, 1, 2, []⟩)) ∧
    (base.byte (evrSlot 0 + 56) ≠ 0xA5 ∧ 0 < 4096 ∧ ∀ j, ¬j < 0) ∧
    (let c := dev [(SYS_STATE, 2)]
     2 ≤ c.sysState ∧ c.tmu.raw < c.evr.secAt ∧
     ({ c with tmu := { c.tmu with raw := 1000000000 } } : Chip).evr.secAt ≤ 1000000000 ∧ Chip.reset.sysState < 2) :=
  ⟨by decide, ⟨by decide, by decide, fun j => Nat.not_lt_zero j⟩, by decide⟩

/-! ### A full recorder -/

/-- A valid record of severity 3, with sequence 1 (R462). -/
def fullSlot : List Byte :=
  let b := evrBody ⟨3, 0, 0, []⟩ 1 0 0
  b ++ leBytes 4 (crc32c b)

/-- Bytes from an address upward, as cells. -/
def cells : Nat → List Byte → List Host.Cell
  | _, [] => []
  | a, b :: bs => (a, b) :: cells (a + 1) bs

/-- The record in each of the first `n` slots. -/
def slotCells : Nat → List Host.Cell
  | 0 => []
  | n + 1 => cells (evrSlot n) fullSlot ++ slotCells n

/-- A recorder that holds a record of severity 3 in every slot. -/
def fullRecorder : Chip := { base with mem := slotCells 4096 }

theorem tblFind_cells (bs : List Byte) (a o : Nat) : tblFind (cells a bs) (a + o) = bs[o]? := by
  induction bs generalizing a o with
  | nil => rfl
  | cons b bs ih =>
    cases o with
    | zero => simp [cells, tblFind]
    | succ o => simpa [cells, tblFind, Nat.add_assoc, Nat.add_comm 1 o] using ih (a + 1) o

theorem tblFind_cells_none (bs : List Byte) (a x : Nat) (h : x < a ∨ a + bs.length ≤ x) : tblFind (cells a bs) x = none := by
  induction bs generalizing a with
  | nil => rfl
  | cons b bs ih =>
    rw [List.length_cons] at h
    simp only [cells, tblFind]
    rw [if_neg (by omega)]
    exact ih (a + 1) (by omega)

theorem tblFind_append {α : Type} (s t : Tbl α) (k : Nat) : tblFind (s ++ t) k = (tblFind s k).or (tblFind t k) := by
  induction s with
  | nil => rfl
  | cons e s ih =>
    simp only [List.cons_append, tblFind]
    split
    · rfl
    · exact ih

theorem tblFind_slotCells (n k o : Nat) (hk : k < n) (ho : o < 64) :
    tblFind (slotCells n) (evrSlot k + o) = fullSlot[o]? := by
  have len : fullSlot.length = 64 := by decide +kernel
  induction n with
  | zero => omega
  | succ n ih =>
    rw [slotCells, tblFind_append]
    by_cases e : k = n
    · subst e
      rw [tblFind_cells]
      rw [List.getElem?_eq_getElem (by omega)]
      rfl
    · rw [tblFind_cells_none _ _ _ (Or.inl (by unfold evrSlot; omega)), ih (by omega)]
      rfl

theorem fullRecorder_byte (k o : Nat) (hk : k < 4096) (ho : o < 64) :
    fullRecorder.byte (evrSlot k + o) = fullSlot.getD o 0 := by
  have len : fullSlot.length = 64 := by decide +kernel
  have f : tblFind fullRecorder.mem (evrSlot k + o) = fullSlot[o]? := tblFind_slotCells 4096 k o hk ho
  unfold Chip.byte
  rw [f, List.getElem?_eq_getElem (by omega), List.getD_eq_getElem?_getD, List.getElem?_eq_getElem (by omega)]
  rfl

theorem fullRecorder_bytes (k o n : Nat) (hk : k < 4096) (h : o + n ≤ 64) :
    fullRecorder.bytes (evrSlot k + o) n = (List.range n).map fun i => fullSlot.getD (o + i) 0 :=
  List.map_congr_left fun i hi => by
    rw [Nat.add_assoc]
    exact fullRecorder_byte k (o + i) hk (by have := List.mem_range.1 hi; omega)

/-- Every slot of the full recorder holds a record. -/
theorem fullRecorder_held (k : Nat) (hk : k < 4096) : fullRecorder.byte (evrSlot k + 56) = 0xA5 ∧
    crc32c (fullRecorder.bytes (evrSlot k) 60) = (fullRecorder.word (evrSlot k + 60)).toNat := by
  have h0 := fullRecorder_bytes k 0 60 hk (by decide)
  rw [Nat.add_zero] at h0
  unfold Chip.word
  rw [fullRecorder_byte k 56 hk (by decide), h0, fullRecorder_bytes k 60 4 hk (by decide)]
  constructor <;> decide +kernel

/-- No word of the full recorder has an uncorrectable error. -/
theorem fullRecorder_readable (a n : Nat) : fullRecorder.readable a n = true := by
  have e : fullRecorder.memc.ueWords = [] := rfl
  simp [Chip.readable, e]

/-- The record that the full recorder holds in a slot. -/
theorem fullRecorder_heldRec (k : Nat) (hk : k < 4096) : fullRecorder.heldRec k = ⟨k, 1, 0, 3⟩ := by
  have h0 := fullRecorder_bytes k 0 4 hk (by decide)
  rw [Nat.add_zero] at h0
  unfold Chip.heldRec Chip.word
  rw [fullRecorder_byte k 12 hk (by decide), h0, fullRecorder_bytes k 4 4 hk (by decide)]
  have e : ((w32 (leNat ((List.range 4).map fun i => fullSlot.getD (0 + i) 0))).toNat % seqMod,
      (w32 (leNat ((List.range 4).map fun i => fullSlot.getD (4 + i) 0))).toNat, (fullSlot.getD 12 0).toNat % 8) =
      (1, 0, 3) := by decide +kernel
  simp only [Prod.mk.injEq] at e
  rw [e.1, e.2.1, e.2.2]

theorem mem_insertOld (m : Nat) (r x : HeldRec) (l : List HeldRec) (h : x ∈ insertOld m r l) : x = r ∨ x ∈ l := by
  induction l with
  | nil => simpa [insertOld] using h
  | cons y l ih =>
    simp only [insertOld] at h
    split at h
    · simpa using h
    · rcases List.mem_cons.1 h with rfl | h
      · simp
      · rcases ih h with e | e
        · exact .inl e
        · exact .inr (List.mem_cons_of_mem _ e)

theorem insertOld_ne_nil (m : Nat) (r : HeldRec) (l : List HeldRec) : insertOld m r l ≠ [] := by
  cases l with
  | nil => simp [insertOld]
  | cons y l => simp only [insertOld]; split <;> simp

theorem mem_foldl_insertOld (m : Nat) (x : HeldRec) (rs acc : List HeldRec)
    (h : x ∈ rs.foldl (fun acc r => insertOld m r acc) acc) : x ∈ rs ∨ x ∈ acc := by
  induction rs generalizing acc with
  | nil => exact .inr h
  | cons r rs ih =>
    rcases ih _ h with e | e
    · exact .inl (List.mem_cons_of_mem _ e)
    · rcases mem_insertOld m r x acc e with rfl | e
      · simp
      · exact .inr e

theorem foldl_insertOld_ne_nil (m : Nat) (rs acc : List HeldRec) (h : acc ≠ []) :
    rs.foldl (fun acc r => insertOld m r acc) acc ≠ [] := by
  induction rs generalizing acc with
  | nil => exact h
  | cons r rs ih => exact ih _ (insertOld_ne_nil m r acc)

theorem fullRecorder_sev (r : HeldRec) (h : r ∈ oldestFirst fullRecorder.heldRecs) : r.sev = 3 := by
  rcases mem_foldl_insertOld _ _ _ _ h with h | h
  · obtain ⟨k, hk, rfl⟩ := List.mem_map.1 h
    rw [fullRecorder_heldRec k (List.mem_range.1 (List.mem_filter.1 hk).1)]
  · simp at h

theorem fullRecorder_ne_nil : oldestFirst fullRecorder.heldRecs ≠ [] := by
  have h : fullRecorder.heldRec 0 ∈ fullRecorder.heldRecs :=
    List.mem_map.2 ⟨0, List.mem_filter.2 ⟨List.mem_range.2 (by decide), by
      have h := fullRecorder_held 0 (by decide)
      unfold Chip.evrHeld
      rw [h.1, h.2, fullRecorder_readable]
      simp⟩, rfl⟩
  unfold oldestFirst
  generalize fullRecorder.heldRecs = rs at h ⊢
  generalize newestSeq rs = m
  cases rs with
  | nil => simp at h
  | cons r rs => exact foldl_insertOld_ne_nil m rs _ (insertOld_ne_nil m r [])

/-- A recorder full of records of severity 3: a record of severity 2 is dropped, one of severity 3 finds a slot. -/
theorem witness_full_recorder :
    (∀ j, j < 4096 → fullRecorder.byte (evrSlot j + 56) = 0xA5 ∧ fullRecorder.readable (evrSlot j) 64 = true ∧
      crc32c (fullRecorder.bytes (evrSlot j) 60) = (fullRecorder.word (evrSlot j + 60)).toNat) ∧
    (∀ r ∈ oldestFirst fullRecorder.heldRecs, 2 < r.sev) ∧
    (∃ n, ((oldestFirst fullRecorder.heldRecs).find? fun r => decide (r.sev ≤ 3)).map HeldRec.slot = some n) := by
  refine ⟨fun j h => ⟨(fullRecorder_held j h).1, fullRecorder_readable _ _, (fullRecorder_held j h).2⟩, fun r h => by rw [fullRecorder_sev r h]; decide, ?_⟩
  obtain ⟨r, hr⟩ := List.exists_mem_of_ne_nil _ fullRecorder_ne_nil
  have s : ((oldestFirst fullRecorder.heldRecs).find? fun r => decide (r.sev ≤ 3)).isSome := by
    rw [List.find?_isSome]
    exact ⟨r, hr, by rw [fullRecorder_sev r hr]; decide⟩
  obtain ⟨x, hx⟩ := Option.isSome_iff_exists.1 s
  exact ⟨x.slot, by rw [hx]; rfl⟩

/-! ### Power, clocks, resets and boot (chapter 16) -/

/-- The device with this state of PWR and these registers. -/
def pwrDev (p : PwrState) (rs : List (Nat × W32)) : Chip := { dev rs with pwr := p }

/-- Each phase of the sequencer, the core voltage at the edges of its windows and a millivolt beyond, units that may and
may not be gated, a unit that has powered up, the temperature limit, and the PLL's condition. -/
theorem witness_supplies :
    (let c := pwrDev { PwrState.reset with buckOn := true } [(SYS_STATE, 1)]
     c.sysState = 1 ∧ c.bit PWR_STAT 31 = false ∧ c.pwr.buckOn = true ∧ c.pwr.fromOff = true ∧
     (pwrDev .reset [(SYS_STATE, 1)]).pwr.buckDis = false ∧ (pwrDev .reset [(SYS_STATE, 1)]).pwr.buckOn = false) ∧
    (∀ k : Fin 4, (pwrDev { PwrState.reset with seq := .waitPg k.val } []).pwr.seq = .waitPg k.val ∧
      (pwrDev { PwrState.reset with seq := .delay k.val } []).pwr.pg.getLsbD k.val = false ∧
      ({ PwrState.reset with pg := 15, en := 15 } : PwrState).pg.getLsbD k.val = true ∧
      ({ PwrState.reset with pg := 15, en := 15 } : PwrState).en.getLsbD k.val = true) ∧
    (base.pwr.seq ≠ .retry ∧ (pwrDev { PwrState.reset with seq := .retry } []).pwr.seq = .retry) ∧
    ((dev [(SYS_STATE, 3)]).sysState = 3 ∧ base.sysState ≠ 3) ∧
    (let c := dev [(PWR_AVS, 750), (PWR_STAT, 0x40000000)]
     let t := c.fld PWR_AVS 9 0
     t + 60 < (811 : Fin 65536).val ∧ (810 : Fin 65536).val ≤ t + 60 ∧ t + 30 < (781 : Fin 65536).val ∧
     (780 : Fin 65536).val ≤ t + 30 ∧ t ≤ (720 : Fin 65536).val + 30 ∧ (719 : Fin 65536).val + 30 < t ∧
     c.bit PWR_STAT 30 = true ∧ base.bit PWR_STAT 30 = false) ∧
    (let c := pwrDev { PwrState.reset with avsMoving := true, avsFrom := 800 } [(PWR_AVS, 750)]
     c.pwr.avsMoving = true ∧ c.fld PWR_AVS 9 0 < c.pwr.avsFrom ∧ (c.tmu.raw - c.pwr.avsAt) / 1000 = 0) ∧
    (base.pwr.avsMoving = false ∧ ({ PwrState.reset with avsMoving := true } : PwrState).avsMoving = true) ∧
    (let c := dev [(PWR_GATE, 0x80), (PWR_GSTAT, 0x80), (PE_PEn_STAT 7, 3)]
     wbit (c.reg PWR_GATE) 7 = true ∧ ¬(c.peState 7 = 1 ∨ c.peState 7 = 2) ∧
     ((c.setReg (PE_PEn_STAT 7) 2).peState 7 = 2) ∧ c.bit PWR_STAT 17 = false) ∧
    (let c := pwrDev { PwrState.reset with upAt := [(19, 1)] } [(PWR_GATE, 0x80000), (PWR_GSTAT, 0)]
     c.bit PWR_GATE 19 = true ∧ c.bit PWR_GSTAT 19 = false ∧ c.tmu.raw < tblGet 0 c.pwr.upAt 19 + 20000 ∧
     tblGet 0 c.pwr.upAt 19 + 20000 ≤ ({ c with tmu := { c.tmu with raw := 20001 } } : Chip).tmu.raw) ∧
    (let c := dev [(PWR_TEMP, 0), (PWR_TEMPLIM, 5)]
     let l := sext 12 (c.fld PWR_TEMPLIM 11 0)
     sext 12 (c.fld PWR_TEMP 11 0) ≤ l ∧ l < 6 ∧ (5 : Int) ≤ l ∧
     sext 12 ((dev [(PWR_TEMPLIM, 5)]).fld PWR_TEMPLIM 11 0) < sext 12 ((dev [(PWR_TEMP, 6)]).fld PWR_TEMP 11 0)) ∧
    ((dev [(PWR_STAT, 0x10000100)]).bit PWR_STAT 8 = true ∧ (dev [(PWR_STAT, 0x10000100)]).bit PWR_STAT 28 = true ∧
      base.bit PWR_STAT 8 = false ∧ base.bit PWR_STAT 31 = false ∧ base.bit PWR_STAT 28 = false) := by
  decide +kernel

/-- A run of the power-up sequencer with an MRAM that is good and holds no configuration. -/
theorem witness_sequence :
    (dev [(PWR_STAT, 0x80000000)]).readable 0x20001F80 20 = true ∧
    crc32c ((dev [(PWR_STAT, 0x80000000)]).bytes 0x20001F80 16) ≠ ((dev [(PWR_STAT, 0x80000000)]).word 0x20001F90).toNat ∧
    (let c := (dev []).setBytes 0x20001F90 (leBytes 4 (crc32c (List.replicate 16 0)))
     crc32c (c.bytes 0x20001F80 16) = (c.word 0x20001F90).toNat) := by decide +kernel

/-- Each state that a reset leaves or starts from, the watchdog at its limit, its half and before them, each listed
change of state and one that is not listed, and a boot that each outcome follows. -/
theorem witness_resets_and_boot :
    ((dev [(SYS_STATE, 0)]).sysState = 0 ∧ (dev [(SYS_STATE, 0)]).pwr.cause ≤ 1 ∧ Chip.reset.sysState ≠ 0) ∧
    ((∀ s h, base.pwr.wd ≠ .running s h) ∧
      (let c := pwrDev { PwrState.reset with wd := .running 0 false } [(PWR_WDT_CFG, 1)]
       let at_ := fun r => ({ c with tmu := { c.tmu with raw := r } } : Chip)
       let l := c.fld PWR_WDT_CFG 9 0 * 1000000
       c.pwr.wd = .running 0 false ∧ l < (at_ 1000001).tmu.raw - 0 ∧ (at_ 1000000).tmu.raw - 0 ≤ l ∧
       l < 2 * ((at_ 500001).tmu.raw - 0) ∧ 2 * ((at_ 500000).tmu.raw - 0) ≤ l ∧ c.sysState = 5 ∧ c.bit SYS_BOOT 31 = false ∧
       (pwrDev c.pwr [(SYS_STATE, 2)]).sysState = 2)) ∧
    (base.core.supStopped = false ∧ tblGet none base.core.frozen 0 = none ∧
      ({ base with core := { base.core with supStopped := true } } : Chip).core.supStopped = true) ∧
    ((3 : Master).val ≠ 0 ∧ (0xA4 : W32) ≠ 0xA5) ∧
    (let c := { dev [(SYS_STATE, 1), (PWR_STAT, 0x90000100)] with evr := { EvrState.reset with op := none } }
     c.sysState = 1 ∧ c.bit PWR_STAT 31 = true ∧ c.bit PWR_STAT 8 = true ∧ c.bit PWR_STAT 28 = true ∧
     c.evr.op ≠ some .scan ∧ c.tst.ir ∉ [0x00, 0x03, 0x04, 0x05, 0x06] ∧ base.evr.op = some .scan) ∧
    (let st := fun w : W32 => (dev [(SYS_STATE, w)]).sysState
     st 2 = 2 ∧ st 3 = 3 ∧ st 4 = 4 ∧ st 5 = 5 ∧ (dev [(SYS_STATE, 2)]).fld SYS_BOOT 3 0 = 0 ∧ wfld (5 : W32) 2 0 = 5 ∧
     ¬((st 3 = 2 ∧ 5 = 3) ∨ (st 3 = 3 ∧ 5 = 4) ∨ (st 3 = 4 ∧ 5 = 5) ∨ (st 3 = 5 ∧ 5 = 4))) ∧
    (let c := dev [(SYS_STATE, 2), (SYS_RSTCAUSE, 0x10)]
     c.sysState = 2 ∧ c.fld SYS_BOOT 3 0 = 0 ∧ c.hif.pathUp = false ∧ c.pwr.hostWait = none ∧ c.bit SYS_RSTCAUSE 4 = true ∧
     c.bit (MEM_BSTAT 0) 31 = false ∧ c.bit (MEM_BSTAT 1) 31 = false ∧ c.bit SYS_STRAP 2 = false ∧
     (dev [(SYS_STRAP, 4)]).bit SYS_STRAP 2 = true ∧ (dev [(MEM_BSTAT 1, 0x80000000)]).bit (MEM_BSTAT 1) 31 = true ∧
     c.flashImage 0 = none ∧ c.flashImage 1 = none ∧
     (let d : Chip := { c with pwr := { c.pwr with hostWait := some 0 }, tmu := { c.tmu with raw := 1000000001 } }
      d.pwr.hostWait = some 0 ∧ 0 + 1000000000 < d.tmu.raw ∧ (0 : Nat) + 1000000000 ≤ 1000000000)) := by
  refine ⟨by decide, ⟨fun s h => ?_, by decide +kernel⟩, by decide, by decide, by decide +kernel, by decide, by decide +kernel⟩
  exact fun e => by cases e

/-! ### Pins, link tests and the TAP (chapter 17) -/

/-- A pin function of each kind, a link that refuses and one that runs, a checker that fills, is about to lock and is
locked, each instruction of the TAP that scans, and a debug access that is granted, refused and without effect. -/
theorem witness_pins_links_tap :
    (let par := dev [(SYS_STRAP, 2)]
     (3 : Master).val ≠ 0 ∧ 7 < wfld (8 : W32) 3 0 ∧ 2 ≤ par.fld SYS_STRAP 1 0 ∧ ¬2 ≤ base.fld SYS_STRAP 1 0 ∧
     (95 : Fin 128).val < 96 ∧ 96 ≤ (96 : Fin 128).val ∧ wfld (7 : W32) 3 0 = 7 ∧ wfld (0x36 : W32) 5 4 = 3) ∧
    (base.bit (TST_PRBSl_CTL 13) 31 = false ∧ (dev [(TST_PRBSl_CTL 13, 0x80000000)]).bit (TST_PRBSl_CTL 13) 31 = true ∧
      (dev [(CANn_CTL 3, 0x80000000)]).bit (CANn_CTL (13 - 10)) 31 = true ∧ ¬2 < wfld (2 : W32) 3 0 ∧ 2 < wfld (3 : W32) 3 0 ∧
      wbit (0 : W32) 30 = false ∧ wbit (0 : W32) 31 = false) ∧
    (let p : Prbs := { Prbs.reset with have_ := 6, good := 63, bad := 63, bits := 1023 }
     p.have_ < (prbsTaps 0).1 ∧ (prbsTaps 0).1 ≤ ({ p with have_ := 7 } : Prbs).have_ ∧ p.good + 1 = 64 ∧ p.bad + 1 = 64 ∧
     Prbs.reset.good + 1 ≠ 64 ∧ p.bits = 1023 ∧ p.errs ≤ 255 ∧ ({ p with errs := 255 } : Prbs).errs ≤ 255 ∧
     (dev [(TST_PRBSl_STAT 13, 2)]).bit (TST_PRBSl_STAT 13) 1 = true ∧ base.bit (TST_PRBSl_STAT 13) 1 = false ∧
     ({ p with errs := 256 } : Prbs).errs = 256 ∧ (base.reg (TST_PRBSl_ERR 13)).toNat < 0xFFFFFFFE ∧ (true ≠ prbsNext (prbsTaps 0) 0)) ∧
    ((0x00 ∈ [0x00, 0x03, 0x04, 0x05, 0x06]) ∧ (0x02 ∉ [0x00, 0x03, 0x04, 0x05, 0x06]) ∧
      base.tst.ir ∉ [0x00, 0x03, 0x04, 0x05, 0x06] ∧ base.sysState ≠ 0) ∧
    (let c : Chip := { dev [(XDM_SEGm_BASEs 15 0, 0x20000007), (XDM_SEGm_SIZEs 15 0, 0x40)] with
       tst := { base.tst with ir := 0x10 } }
     c.tst.ir = 0x10 ∧ c.tst.frozen = none ∧ c.sec.fuses.lockDbg = false ∧ base.tst.ir ≠ 0x10 ∧
     (c.setBit TST_STAT 1 true).segAllows 15 0x2000003C 4 2 = true ∧
     (c.setBit TST_STAT 1 true).segAllows 15 0x20000040 4 2 = false ∧ nbit (2 ^ 65) 65 = true ∧ nbit (2 ^ 64) 65 = false ∧
     nbit (2 ^ 64) 64 = true) := by decide +kernel

/-- The answers of the fabric to a debug access: a write performed and one refused, and a read. -/
theorem witness_debug_access :
    let c : Chip := dev [(MEM_OGRP 0, 0xFFFF), (XDM_SEGm_BASEs 15 0, 0x00000007), (XDM_SEGm_SIZEs 15 0, 0xFFFFFFC0)]
    (∃ d, busWriteOnce c 15 0x10000000 (leBytes 4 7) = (none, d)) ∧
    (∃ e d, busWriteOnce c 15 0x0FFFFFFC (leBytes 4 7) = (e, d) ∧ e ≠ none) ∧
    (∃ xs d, busReadOnce c 15 0x20000000 4 = (.ok xs, d)) ∧
    (∃ d, busReadOnce (c.setReg HIF_STAT 0x80000000) 15 0xC0000000 4 = (.error .wait, d)) :=
  ⟨⟨_, rfl⟩, ⟨_, _, rfl, by decide +kernel⟩, ⟨_, _, rfl⟩, ⟨_, rfl⟩⟩

/-- A bit that a run's checker takes. -/
theorem witness_prbs_bits : ∃ d e, Does (.prbsLock 13 [true]) (dev [(TST_PRBSl_CTL 13, 0x80000000)]) d ∧
    Does (.prbsLock 13 [false]) d e := ⟨_, _, does_prbsLock rfl, does_prbsLock rfl⟩

/-! ### Whole-machine statements -/

/-- A step from a state with the invariant, and a command of the quiet ones. -/
theorem witness_invariant :
    Inv ⟨[.getState], base⟩ ∧ ∃ t, step ⟨[.getState], base⟩ = .next t := by
  refine ⟨⟨by decide, fun i h => ?_⟩, _, rfl⟩
  rw [List.mem_singleton] at h
  subst h
  rfl

theorem witness_quiet : ∃ t, exec .pllLock ⟨[], base⟩ = .next t ∧ t.chip.byte 0x20000000 = 0 := ⟨_, rfl, rfl⟩

end Sys2Proof.Tests
end

section
/-!
PROOF. The refused domain commands of R47 and R49 to R51. A write of TMU_Dx_CMD is refused in one of three ways: by its
master, by its bit count, or by the one command it names; the writes of a domain's other registers by their master.
-/
namespace Sys2Proof.Machine

variable {c : Chip} {m : Nat} {x : Dom} {w : W32}

theorem domAt_idx (x : Fin 2) : (domAt x).idx = x.val := by
  revert x
  decide

/-- Exactly one bit set is a bit count of 1, so a word with one command is never one with too many (R50). -/
theorem bitCount_of_onlyBit {n k : Nat} (hk : k < n) (h : OnlyBit w n k) : bitCount w n = 1 := by
  have hbits : (List.range n).filter (fun i => wbit w i) = (List.range n).filter (· == k) :=
    List.filter_congr fun i hi => (h i (List.mem_range.1 hi)).trans rfl
  calc bitCount w n = ((List.range n).filter (· == k)).length := congrArg List.length hbits
    _ = (List.range n).count k := List.countP_eq_length_filter.symm
    _ = 1 := List.count_range.trans (if_pos hk)

/-! ### A master that may not write the domain (R51) -/

section
variable (hm : c.timeMaster m = false)
include hm

theorem domCmdWrite_not_timeMaster : domCmdWrite c m x w = c.refuse := by
  simp only [domCmdWrite, hm, Bool.not_false, if_true]

theorem domRateWrite_not_timeMaster : domRateWrite c m x w = c.refuse := by
  simp only [domRateWrite, hm, Bool.not_false, if_true]

theorem domAdjWrite_not_timeMaster : domAdjWrite c m x w = c.refuse := by
  simp only [domAdjWrite, hm, Bool.not_false, if_true]

theorem domStepWrite_not_timeMaster : domStepWrite c m x w = c.refuse := by
  simp only [domStepWrite, hm, Bool.not_false, if_true]

theorem domselWrite_not_timeMaster : domselWrite c m w = c.refuse := by
  simp only [domselWrite, hm, Bool.not_false, if_true]

end

/-! ### A master that may write the domain -/

/-- The command that each bit of TMU_Dx_CMD names (R47): `domCmdWrite_onlyBit` ties it to the write. -/
def domCommand (c : Chip) (x : Dom) : Fin 5 → Chip
  | 0 => domEnable c x
  | 1 => domLock c x
  | 2 => domSync c x
  | 3 => domFail c x
  | 4 => domDisable c x

theorem domCmdWrite_tooMany (hm : c.timeMaster m = true) (h : 1 < bitCount w 5) :
    domCmdWrite c m x w = (c.domFlag x 0).done := by
  simp only [domCmdWrite, hm, Bool.not_true, Bool.false_eq_true, if_false, gt_iff_lt, h, if_true]

theorem domCmdWrite_onlyBit (k : Fin 5) (hm : c.timeMaster m = true) (h : OnlyBit w 5 k.val) :
    domCmdWrite c m x w = (domCommand c x k).done := by
  unfold domCmdWrite
  rw [hm, bitCount_of_onlyBit k.isLt h, h 0 (by omega), h 1 (by omega), h 2 (by omega), h 3 (by omega), h 4 (by omega)]
  match k with
  | 0 | 1 | 2 | 3 | 4 => rfl

/-! ### The states that R47's table does not list for a command -/

theorem domEnable_refused (hi : (c.dom x).st ≠ .idle) (hf : (c.dom x).st ≠ .failed) :
    domEnable c x = c.domFlag x 0 :=
  if_neg fun h => h.elim hi hf

theorem domLock_refused (h : (c.dom x).st ≠ .acquire) : domLock c x = c.domFlag x 0 :=
  if_neg h

theorem domSync_refused (hl : (c.dom x).st ≠ .locked) (hh : (c.dom x).st ≠ .holdover) :
    domSync c x = c.domFlag x 0 := by
  unfold domSync
  split
  next e => exact absurd e hl
  next e => exact absurd e hh
  next => rfl

theorem domFail_refused (h : (c.dom x).st = .idle ∨ (c.dom x).st = .failed) : domFail c x = c.domFlag x 0 := by
  unfold domFail
  rcases h with e | e <;> rw [e]

/-- DISABLE is refused for the selected domain too (R49). -/
theorem domDisable_refused (h : (c.dom x).st = .idle ∨ c.active = x) : domDisable c x = c.domFlag x 0 :=
  if_neg fun ⟨hi, ha⟩ => h.elim hi ha

/-! ### The same of the registers' writes -/

theorem regWrite_TMU_Dx_CMD_tooMany (x : Fin 2) (hm : c.timeMaster m = true) (h : 1 < bitCount w 5) :
    regWrite c m (TMU_Dx_CMD x.val) w = (c.flag (TMU_Dx_FLAGS x.val) 0 84).done := by
  rw [regWrite_TMU_Dx_CMD, domCmdWrite_tooMany hm h, Chip.domFlag, domAt_idx]

theorem regWrite_TMU_Dx_CMD_refused (x : Fin 2) (k : Fin 5) (hm : c.timeMaster m = true) (h : OnlyBit w 5 k.val)
    (hr : domCommand c (domAt x) k = c.domFlag (domAt x) 0) :
    regWrite c m (TMU_Dx_CMD x.val) w = (c.flag (TMU_Dx_FLAGS x.val) 0 84).done := by
  rw [regWrite_TMU_Dx_CMD, domCmdWrite_onlyBit k hm h, hr, Chip.domFlag, domAt_idx]

end Sys2Proof.Machine

namespace Sys2Proof
open Machine

/-- Settles O10: the master is checked first, then the bit count, then the state against the one command's row. -/
theorem domainCommandsAreRefused : Obligations.DomainCommandsAreRefused := by
  unfold Obligations.DomainCommandsAreRefused
  intro m x v c
  refine ⟨fun hm => ?_, fun hm => ?_⟩
  · have hcmd (w : W32) : regWrite c m.val (TMU_Dx_CMD x.val) w = c.refuse :=
      (regWrite_TMU_Dx_CMD x).trans (domCmdWrite_not_timeMaster hm)
    exact ⟨does_domainEnable (hcmd _), does_domainLock (hcmd _), does_domainSync (hcmd _), does_domainFail (hcmd _),
      does_domainDisable (hcmd _),
      does_domainRateWrite ((regWrite_TMU_Dx_RATE_LO x).trans (domRateWrite_not_timeMaster hm)),
      does_domainAdjWrite ((regWrite_TMU_Dx_ADJ_LO x).trans (domAdjWrite_not_timeMaster hm)),
      does_domainStepWrite ((regWrite_TMU_Dx_STEP_LO x).trans (domStepWrite_not_timeMaster hm)),
      does_domainSelectWrite (regWrite_TMU_DOMSEL.trans (domselWrite_not_timeMaster hm))⟩
  · exact ⟨fun h => does_domainEnable (regWrite_TMU_Dx_CMD_tooMany x hm h),
      fun h => does_domainLock (regWrite_TMU_Dx_CMD_tooMany x hm h),
      fun h => does_domainSync (regWrite_TMU_Dx_CMD_tooMany x hm h),
      fun h => does_domainFail (regWrite_TMU_Dx_CMD_tooMany x hm h),
      fun h => does_domainDisable (regWrite_TMU_Dx_CMD_tooMany x hm h),
      fun h hi hf => does_domainEnable (regWrite_TMU_Dx_CMD_refused x 0 hm h (domEnable_refused hi hf)),
      fun h ha => does_domainLock (regWrite_TMU_Dx_CMD_refused x 1 hm h (domLock_refused ha)),
      fun h hl hh => does_domainSync (regWrite_TMU_Dx_CMD_refused x 2 hm h (domSync_refused hl hh)),
      fun h hs => does_domainFail (regWrite_TMU_Dx_CMD_refused x 3 hm h (domFail_refused hs)),
      fun h hs => does_domainDisable (regWrite_TMU_Dx_CMD_refused x 4 hm h (domDisable_refused hs))⟩

end Sys2Proof
end

section
/-!
PROOF. One second of the forwarding database (R148). The model ages the listed dynamic entries one after another; each
one's turn is a function of the entry alone, touches no other entry, and comes once.
-/
namespace Sys2Proof.Machine

variable {c : Chip} {lim t i j : Nat}

/-! ### Entries of the tables -/

theorem tblGet_of_forall_ne {α : Type} (d : α) {T : Tbl α} {k : Nat} (h : ∀ e ∈ T, e.1 ≠ k) : tblGet d T k = d := by
  induction T with
  | nil => rfl
  | cons e T ih =>
    obtain ⟨he, hT⟩ := List.forall_mem_cons.1 h
    have hskip : tblGet d (e :: T) k = tblGet d T k := congrArg (Option.getD · d) (if_neg he)
    exact hskip.trans (ih hT)

theorem Chip.entry_setEntry (c : Chip) (t i t' i' : Nat) (e : List W32) :
    (c.setEntry t i e).entry t' i' = if t' * 65536 + i' = t * 65536 + i then e else c.entry t' i' :=
  tblGet_set zeroEntry c.swx.tables _ _ e

theorem Chip.lt_of_mem_entriesOf (h : i ∈ c.entriesOf t) : i < 65536 := by
  obtain ⟨e, -, he⟩ := List.mem_filterMap.1 h
  split at he
  · cases he
    exact Nat.mod_lt _ (by decide)
  · cases he

theorem Chip.entry_eq_zeroEntry (hi : i < 65536) (h : i ∉ c.entriesOf t) : c.entry t i = zeroEntry := by
  refine tblGet_of_forall_ne zeroEntry fun e he hk => h (List.mem_filterMap.2 ⟨e, he, ?_⟩)
  rw [if_pos (by omega), show e.1 % 65536 = i by omega]

/-! ### One entry's second -/

/-- A dynamic entry a second later, with the age limit `lim`: `entry_fdbAgeStep_same` ties it to the model. -/
def fdbAgedEntry (lim : Nat) (e : List W32) : List W32 :=
  let age := wfld (e.getD 3 0) 15 0 + 1
  if wbit (e.getD 2 0) 31 then
    if lim ≠ 0 ∧ lim ≤ age then zeroEntry else e.set 3 (w32 (satTo 65535 age))
  else e

/-- The turn of one listed entry: `fdbAge_eq_foldl` ties it to the model. -/
def fdbAgeStep (lim : Nat) (c : Chip) (i : Nat) : Chip :=
  if wbit (c.entryWord 0 i 2) 31 then c.setEntry 0 i (fdbAgedEntry lim (c.entry 0 i)) else c

theorem fdbAgedEntry_invalid {e : List W32} (h : wbit (e.getD 2 0) 31 = false) : fdbAgedEntry lim e = e :=
  if_neg (Bool.eq_false_iff.1 h)

theorem fdbAgedEntry_valid {e : List W32} (hv : wbit (e.getD 2 0) 31 = true) :
    fdbAgedEntry lim e = if lim ≠ 0 ∧ lim ≤ wfld (e.getD 3 0) 15 0 + 1 then zeroEntry
      else e.set 3 (w32 (satTo 65535 (wfld (e.getD 3 0) 15 0 + 1))) :=
  if_pos hv

theorem fdbAgedEntry_removed {e : List W32} (hv : wbit (e.getD 2 0) 31 = true) (h0 : lim ≠ 0)
    (h : lim ≤ wfld (e.getD 3 0) 15 0 + 1) : fdbAgedEntry lim e = zeroEntry :=
  (fdbAgedEntry_valid hv).trans (if_pos ⟨h0, h⟩)

theorem fdbAgedEntry_older {e : List W32} (hv : wbit (e.getD 2 0) 31 = true)
    (h : lim = 0 ∨ wfld (e.getD 3 0) 15 0 + 1 < lim) :
    fdbAgedEntry lim e = e.set 3 (w32 (min 65535 (wfld (e.getD 3 0) 15 0 + 1))) :=
  (fdbAgedEntry_valid hv).trans (if_neg (by omega))

theorem fdbAge_eq_foldl (c : Chip) :
    fdbAge c = (c.entriesOf 0).foldl (fdbAgeStep (c.reg SWX_FDB_AGE).toNat) c := by
  refine congrArg (List.foldl · c (c.entriesOf 0)) (funext fun d => funext fun i => ?_)
  unfold fdbAgeStep
  split
  next hv =>
    rw [fdbAgedEntry_valid hv, apply_ite (d.setEntry 0 i)]
    rfl
  next => rfl

theorem entry_fdbAgeStep_same (lim : Nat) (c : Chip) (i : Nat) :
    (fdbAgeStep lim c i).entry 0 i = fdbAgedEntry lim (c.entry 0 i) := by
  unfold fdbAgeStep
  split
  next => rw [Chip.entry_setEntry, if_pos rfl]
  next h => exact (fdbAgedEntry_invalid (Bool.eq_false_iff.2 h)).symm

theorem entry_fdbAgeStep_other (h : t * 65536 + j ≠ i) : (fdbAgeStep lim c i).entry t j = c.entry t j := by
  unfold fdbAgeStep
  split
  next => rw [Chip.entry_setEntry, if_neg (by omega)]
  next => rfl

/-! ### All the turns -/

theorem entry_foldl_fdbAgeStep_other {l : List Nat} (h : t * 65536 + j ∉ l) :
    (l.foldl (fdbAgeStep lim) c).entry t j = c.entry t j := by
  induction l generalizing c with
  | nil => rfl
  | cons i l ih =>
    exact (ih (List.not_mem_of_not_mem_cons h)).trans (entry_fdbAgeStep_other (List.ne_of_not_mem_cons h))

/-- A listed entry's turn comes once, so it ages once. -/
theorem entry_foldl_fdbAgeStep_mem {l : List Nat} (hn : l.Nodup) (h : i ∈ l) :
    (l.foldl (fdbAgeStep lim) c).entry 0 i = fdbAgedEntry lim (c.entry 0 i) := by
  induction l generalizing c with
  | nil => cases h
  | cons j l ih =>
    obtain ⟨hj, hn⟩ := List.nodup_cons.1 hn
    rcases List.mem_cons.1 h with rfl | hl
    · have hrest : 0 * 65536 + i ∉ l := by rwa [Nat.zero_mul, Nat.zero_add]
      exact (entry_foldl_fdbAgeStep_other hrest).trans (entry_fdbAgeStep_same lim c i)
    · have hne : 0 * 65536 + i ≠ j := fun e => hj (by rwa [← e, Nat.zero_mul, Nat.zero_add])
      rw [List.foldl_cons, ih hn hl, entry_fdbAgeStep_other hne]

theorem foldl_fdbAgeStep_frame (lim : Nat) (c : Chip) (l : List Nat) :
    ∃ T, l.foldl (fdbAgeStep lim) c = { c with swx := { c.swx with tables := T } } := by
  induction l generalizing c with
  | nil => exact ⟨c.swx.tables, rfl⟩
  | cons i l ih =>
    obtain ⟨T, hT⟩ := ih (fdbAgeStep lim c i)
    refine ⟨T, hT.trans ?_⟩
    unfold fdbAgeStep
    split <;> rfl

/-! ### What the tick leaves -/

theorem fdbAge_frame (c : Chip) : fdbAge c = { c with swx := { c.swx with tables := (fdbAge c).swx.tables } } := by
  obtain ⟨T, hT⟩ := foldl_fdbAgeStep_frame (c.reg SWX_FDB_AGE).toNat c (c.entriesOf 0)
  rw [fdbAge_eq_foldl, hT]

theorem entry_fdbAge_otherTable (ht : t ≠ 0) : (fdbAge c).entry t i = c.entry t i := by
  rw [fdbAge_eq_foldl]
  refine entry_foldl_fdbAgeStep_other fun h => ?_
  have := Chip.lt_of_mem_entriesOf h
  omega

/-- An entry that is not listed is invalid, so it too is what its second makes of it. -/
theorem entry_fdbAge_dynamic (hn : (c.entriesOf 0).Nodup) (hi : i < 65536) :
    (fdbAge c).entry 0 i = fdbAgedEntry (c.reg SWX_FDB_AGE).toNat (c.entry 0 i) := by
  rw [fdbAge_eq_foldl]
  by_cases h : i ∈ c.entriesOf 0
  · exact entry_foldl_fdbAgeStep_mem hn h
  · have hstays : 0 * 65536 + i ∉ c.entriesOf 0 := by rwa [Nat.zero_mul, Nat.zero_add]
    have hinvalid : wbit (zeroEntry.getD 2 0) 31 = false := rfl
    rw [entry_foldl_fdbAgeStep_other hstays, Chip.entry_eq_zeroEntry hi h, fdbAgedEntry_invalid hinvalid]

end Sys2Proof.Machine

namespace Sys2Proof
open Machine

/-- Settles O24: each dynamic entry's turn comes once and makes of it what R148 says. That an age stops at 65535 is the
model's choice: R148 names no end of the 16-bit field AGE. -/
theorem fdbAgesOnceASecond : Obligations.FdbAgesOnceASecond := by
  unfold Obligations.FdbAgesOnceASecond
  intro c hn lim runs
  refine ⟨fdbAge c, does_fdbAgeTick rfl runs, fdbAge_frame c, fun t i ht _ => entry_fdbAge_otherTable ht,
    fun i hi => ?_⟩
  have aged : (fdbAge c).entry 0 i = fdbAgedEntry lim (c.entry 0 i) := entry_fdbAge_dynamic hn hi
  exact ⟨fun hv => aged.trans (fdbAgedEntry_invalid hv),
    fun hv => ⟨fun h0 h => aged.trans (fdbAgedEntry_removed hv h0 h), fun h => aged.trans (fdbAgedEntry_older hv h)⟩⟩

end Sys2Proof
end

section
/-!
PROOF. EVT_RAISE and the delivery of events of code 0 (R402, R397). The raise sets a bit of EVT_PEND before it takes the
route, and no word of EVT_PEND is a route, so the route taken is the one in force.
-/
namespace Sys2Proof.Machine

variable {c : Chip} {src : Nat}

theorem wfld_lt (w : W32) (hi lo : Nat) : wfld w hi lo < 2 ^ (hi + 1 - lo) :=
  Nat.mod_lt _ (Nat.two_pow_pos _)

theorem EVT_ROUTE_ne_EVT_PEND (h : src < 512) : EVT_ROUTE src ≠ EVT_PEND (src / 32) := by
  unfold EVT_ROUTE EVT_PEND
  omega

/-- A raise of a source of the event fabric, with the route in force (R397, R401). -/
theorem Chip.raise_eq (h : src < 512) (code : Nat) :
    c.raise src code = { c.setBit (EVT_PEND (src / 32)) (src % 32) true with
      evt := { c.evt with raised := c.evt.raised ++ [⟨src, code, c.lt, c.reg (EVT_ROUTE src)⟩] } } := by
  have hroute : (c.setBit (EVT_PEND (src / 32)) (src % 32) true).reg (EVT_ROUTE src) = c.reg (EVT_ROUTE src) :=
    c.reg_setReg_other _ (EVT_ROUTE_ne_EVT_PEND h)
  rw [← hroute]
  rfl

theorem eventRaise_sup (v : W32) : eventRaise c 0 v = (c.raise (wfld v 8 0) 0).done := if_pos rfl

/-- An event with code 0 reaches both targets, whether or not its source is a mailbox (R397). -/
theorem eventDelivery_codeZero {e : RaisedEvent} {rest : List RaisedEvent} (h : c.evt.raised = e :: rest)
    (h0 : e.code = 0) :
    eventDelivery c =
      (let d := { c with evt := { c.evt with raised := rest } }
       let a := if wbit e.route 31 then d.deliverTo (wfld e.route 11 0) else d
       let b := if wbit e.route 30 then a.deliverTo (wfld e.route 25 14) else a
       if wbit e.route 29 then b.record (wfld e.route 28 26) e else b) := by
  have hboth : codeTargets (if 448 ≤ e.src then e.code else 0) = (true, true) := by
    rw [h0, ite_self]
    rfl
  simp only [eventDelivery, h, hboth, Bool.true_and]

end Sys2Proof.Machine

namespace Sys2Proof
open Machine

/-- Settles O47: the raise takes the route in force, and code 0 reaches both targets. That the raise sets the
bit of EVT_PEND (log entry 194) and that the record is stored at the delivery (log entry 195) are the model's choice. -/
theorem raiseWriteFollowsR402 : Obligations.RaiseWriteFollowsR402 := by
  unfold Obligations.RaiseWriteFollowsR402
  refine ⟨fun m v c hm => does_evtRaiseWrite ?_, fun c e rest h h0 => does_eventDelivery (eventDelivery_codeZero h h0)⟩
  rw [regWrite_EVT_RAISE, hm, eventRaise_sup, Chip.raise_eq (wfld_lt v 8 0)]

end Sys2Proof
end

section
/-!
PROOF. The statements about the whole machine: when a command acts (R39), that it leaves the queue, and what it leaves of
memory. One case split over the commands serves each of the three; what is true of every step follows from them.
-/
namespace Sys2Proof.Machine

/-! ### When a command acts (R39) -/

/-- The states of the device in which a command acts: `exec_gate` ties it to the dispatch. -/
def gate : Instr → Chip → Bool
  | .sequencerPgRise .. | .sequencerPgFall .. | .buckDisLevelChange .. | .powerOn | .brownOut => fun _ => true
  | .recorderScanDone .. | .coreOverVoltage .. | .coreWindowExit .. | .pgoodCoreRise .. | .sequencerPgTimeout ..
  | .temperatureLimit .. | .resetExit .. | .tapInstructionUpdate .. | .buckSoftStart .. | .coreWindowReturn ..
  | .sequencerStepEnable | .sequencerRetry | .avsDone | .pllLock | .pllLockLoss | .pinReset | .tapReset =>
    Chip.supplied
  | _ => Chip.runs

theorem onChip_gate (f : Chip → Chip) (c : Chip) :
    ∃ d, ∀ q, onChip ⟨q, c⟩ f = .next ⟨q, if c.runs then d else c⟩ := ⟨f c, fun _ => rfl⟩

theorem onSupply_gate (f : Chip → Chip) (c : Chip) :
    ∃ d, ∀ q, onSupply ⟨q, c⟩ f = .next ⟨q, if c.supplied then d else c⟩ := ⟨f c, fun _ => rfl⟩

theorem onBoard_gate (f : Chip → Chip) (c : Chip) :
    ∃ d, ∀ q, onBoard ⟨q, c⟩ f = .next ⟨q, if true then d else c⟩ := ⟨f c, fun _ => rfl⟩

/-- Every command answers a next state: one device where it acts, the device as it is elsewhere, and the queue as it is
in both. -/
theorem exec_gate (i : Instr) (c : Chip) :
    ∃ d, ∀ q, exec i ⟨q, c⟩ = .next ⟨q, if gate i c then d else c⟩ := by
  unfold exec
  cases i with
  | sequencerPgRise | sequencerPgFall | buckDisLevelChange | powerOn | brownOut => exact onBoard_gate _ c
  | recorderScanDone | coreOverVoltage | coreWindowExit | pgoodCoreRise | sequencerPgTimeout | temperatureLimit
  | resetExit | tapInstructionUpdate | buckSoftStart | coreWindowReturn | sequencerStepEnable | sequencerRetry
  | avsDone | pllLock | pllLockLoss | pinReset | tapReset => exact onSupply_gate _ c
  | _ => exact onChip_gate _ c

theorem always_some (i : Instr) (c : Chip) : ∃ d, Always i c d := by
  obtain ⟨d, h⟩ := exec_gate i c
  exact ⟨_, h⟩

theorem always_of_gate {i : Instr} {c : Chip} (g : gate i c = false) : Always i c c := by
  obtain ⟨d, h⟩ := exec_gate i c
  intro q
  simp only [h, g, Bool.false_eq_true, if_false]

theorem exec_pending {i : Instr} {q : List Instr} {c : Chip} {t : State} (e : exec i ⟨q, c⟩ = .next t) :
    t.pending = q := by
  obtain ⟨d, h⟩ := always_some i c
  rw [h] at e
  cases e
  rfl

theorem runs_of_not_supplied {c : Chip} (h : c.supplied = false) : c.runs = false := by
  unfold Chip.supplied at h
  unfold Chip.runs
  simp only [decide_eq_false_iff_not] at h ⊢
  omega

/-! ### What a command leaves of memory -/

/-- Every command keeps the canonical form of memory. -/
theorem exec_keepsWf {i : Instr} {s t : State} (e : exec i s = .next t) : KeepsWf s.chip t.chip := by
  unfold exec at e
  cases i with
  | domainRateWrite | domainAdjWrite | domainStepWrite | domainEnable | domainLock | domainSync | domainFail
  | domainDisable | domainSelectWrite | egressStampPop | stampRingPop | timedOutputArm | timedOutputCancel
  | sampleSubmit | shaftFollow | shaftMaster | shaftIdle | stampToAngleStart | angleEventWrite | portModeWrite
  | counterSnapshot | counterClear | ldfRuleCommit | cableTestStart | gateListChange | queueFlush | tableRead
  | tableWrite | tableSearch | tableClear | canEnable | canDisable | canRequest | canCancel | canClearnew
  | canRingPop | canRecover | canModeValidate | canTtresume | canModeRequest | rqConsWrite | tqPushWrite
  | engineStart | engineStop | engineClear | frameEnable | taskReleaseWrite | stationReport | forceEntrySet
  | forceEntryClear | vcApply | tskDiagWrite | axisEnable | axisDisable | axisMoveCmd | axisVelCmd | axisGearCmd
  | axisCamCmd | axisCamarmCmd | axisStopCmd | axisClearCmd | setposCommit | phaseCommit | actinWrite
  | skipperEnable | skipperDisable | skipperRestart | feedWrite | irqsetWrite | lanesWrite | instructionWordWrite
  | packFifoReset | bankOwnerWrite | lockWrite | marchStart | freezeResume | freezeRedirect | freezeReset | xdmGo
  | xdmStop | xdmTrigWrite | xdmTrigtCommit | mailboxConfigWrite | mailboxDataWrite | mailboxGo | mailboxReset
  | eventQueuePop | evtRaiseWrite | routeWrite | cvLoad | cvStart | cvFinish | cvData4Write | cvData1Write
  | commandDoorbell | replyDoorbell | fuseRead | fuseProgram | fuseRevoke | fusePolicy | seqConfigWrite
  | avsTargetWrite | powerGateWrite | watchdogKick | sysStateWrite | pinFunctionWrite | gpioSetWrite | gpioClrWrite
  | prbsRunStart | prbsInject | ledgerSnapshot | tskModeStop | tskModeStartup | tskModeRun | tskModeTest | vcPush
  | swapGo | replySignal | secJobGo | trngRestart | recordSubmit | recorderClear | softwareReset =>
    exact onChip_keepsWf e fun _ => regWrite_keepsWf
  | sampleOutRead | packFifoRead | atomicFaddRead | atomicSwapRead | lockRead | mailboxAcknowledge | trngRead => exact onChip_keepsWf e fun _ => regRead_keepsWf
  | registerWrite => exact execRegisterWrite_keepsWf e
  | splitRegisterLatch => exact execSplitRegisterLatch_keepsWf e
  | syncTimeout => exact (execSyncTimeout_sameMem e).keeps
  | holdoverFailLimit => exact (execHoldoverFailLimit_sameMem e).keeps
  | stampInputEdge => exact (execStampInputEdge_sameMem e).keeps
  | timedOutputEdge => exact (execTimedOutputEdge_sameMem e).keeps
  | reftoExpiry => exact (execReftoExpiry_sameMem e).keeps
  | coastlimExpiry => exact (execCoastlimExpiry_sameMem e).keeps
  | masterSampleGeneration => exact (execMasterSampleGeneration_sameMem e).keeps
  | stampToAngleDone => exact (execStampToAngleDone_sameMem e).keeps
  | ulpEchoRequest => exact (execUlpEchoRequest_sameMem e).keeps
  | autonegComplete => exact execAutonegComplete_keepsWf e
  | linkUp => exact execLinkUp_keepsWf e
  | linkDown => exact (execLinkDown_sameMem e).keeps
  | jabber => exact execJabber_keepsWf e
  | frameReceive => exact (execFrameReceive_sameMem e).keeps
  | frameTransmitStart => exact (execFrameTransmitStart_sameMem e).keeps
  | frameTransmitEnd => exact (execFrameTransmitEnd_sameMem e).keeps
  | collision => exact (execCollision_sameMem e).keeps
  | backoffExpiry => exact (execBackoffExpiry_sameMem e).keeps
  | plcaActiveChange => exact (execPlcaActiveChange_sameMem e).keeps
  | preemptVerifyTimer => exact (execPreemptVerifyTimer_sameMem e).keeps
  | lpiEntry => exact (execLpiEntry_sameMem e).keeps
  | earlyWake => exact (execEarlyWake_sameMem e).keeps
  | wakeComplete => exact (execWakeComplete_sameMem e).keeps
  | rxLpiSignal => exact (execRxLpiSignal_sameMem e).keeps
  | cableTestDone => exact (execCableTestDone_sameMem e).keeps
  | hostPortPeckGrant => exact execHostPortPeckGrant_keepsWf e
  | gateListChangeTime => exact (execGateListChangeTime_sameMem e).keeps
  | gateEntryStart => exact (execGateEntryStart_sameMem e).keeps
  | streamGateEntry => exact (execStreamGateEntry_sameMem e).keeps
  | recoveryResetTimeout => exact (execRecoveryResetTimeout_sameMem e).keeps
  | slotWindowOpen => exact (execSlotWindowOpen_sameMem e).keeps
  | canFrameCommit => exact (execCanFrameCommit_sameMem e).keeps
  | canArbitrationLoss => exact (execCanArbitrationLoss_sameMem e).keeps
  | canTxComplete => exact execCanTxComplete_keepsWf e
  | canBusError => exact (execCanBusError_sameMem e).keeps
  | canXlPayloadRead => exact (execCanXlPayloadRead_sameMem e).keeps
  | canRxFrame => exact execCanRxFrame_keepsWf e
  | canBusoffRecovered => exact (execCanBusoffRecovered_sameMem e).keeps
  | canReferenceTrigger => exact (execCanReferenceTrigger_sameMem e).keeps
  | canExclusiveTrigger => exact (execCanExclusiveTrigger_sameMem e).keeps
  | canArbitratingTrigger => exact (execCanArbitratingTrigger_sameMem e).keeps
  | canReceiveCheckTrigger => exact (execCanReceiveCheckTrigger_sameMem e).keeps
  | canReceiveWindowEnd => exact (execCanReceiveWindowEnd_sameMem e).keeps
  | canWatchTrigger => exact (execCanWatchTrigger_sameMem e).keeps
  | canReferenceReceived => exact execCanReferenceReceived_keepsWf e
  | canMatrixCycleStart => exact (execCanMatrixCycleStart_sameMem e).keeps
  | canVetoReceived => exact execCanVetoReceived_keepsWf e
  | guardianWindow => exact (execGuardianWindow_sameMem e).keeps
  | bundleExecute => exact execBundleExecute_keepsWf e
  | waitWake => exact execWaitWake_keepsWf e
  | waitTimeout => exact execWaitTimeout_keepsWf e
  | tqDescriptorServe => exact execTqDescriptorServe_keepsWf e
  | peCycleTimer => exact (execPeCycleTimer_sameMem e).keeps
  | engineClearDone => exact execEngineClearDone_keepsWf e
  | engineWatchdogExpiry => exact (execEngineWatchdogExpiry_sameMem e).keeps
  | frameCycleBoundary => exact execFrameCycleBoundary_keepsWf e
  | frameEvaluation => exact execFrameEvaluation_keepsWf e
  | evaluationEnd => exact execEvaluationEnd_keepsWf e
  | noExchangeCheck => exact (execNoExchangeCheck_sameMem e).keeps
  | outputHandover => exact execOutputHandover_keepsWf e
  | stepPulse => exact (execStepPulse_sameMem e).keeps
  | quadratureTransition => exact (execQuadratureTransition_sameMem e).keeps
  | quadratureIndex => exact (execQuadratureIndex_sameMem e).keeps
  | feedbackStale => exact (execFeedbackStale_sameMem e).keeps
  | deviationFault => exact (execDeviationFault_sameMem e).keeps
  | skJmp => exact (execSkJmp_sameMem e).keeps
  | skWait => exact (execSkWait_sameMem e).keeps
  | skWaitEnd => exact (execSkWaitEnd_sameMem e).keeps
  | skWaitTimeout => exact (execSkWaitTimeout_sameMem e).keeps
  | skIn => exact (execSkIn_sameMem e).keeps
  | skOut => exact (execSkOut_sameMem e).keeps
  | skPush => exact (execSkPush_sameMem e).keeps
  | skPull => exact (execSkPull_sameMem e).keeps
  | skMov => exact (execSkMov_sameMem e).keeps
  | skSet => exact (execSkSet_sameMem e).keeps
  | skIrq => exact (execSkIrq_sameMem e).keeps
  | skStamp => exact (execSkStamp_sameMem e).keeps
  | skStallRelease => exact (execSkStallRelease_sameMem e).keeps
  | packCreditGrant => exact (execPackCreditGrant_sameMem e).keeps
  | bankOwnerTakeEffect => exact (execBankOwnerTakeEffect_sameMem e).keeps
  | marchDone => exact execMarchDone_keepsWf e
  | xdmTimeTrigger => exact (execXdmTimeTrigger_sameMem e).keeps
  | xdmDescriptorStart => exact execXdmDescriptorStart_keepsWf e
  | xdmArmedTimeout => exact execXdmArmedTimeout_keepsWf e
  | mailboxTimeout => exact (execMailboxTimeout_sameMem e).keeps
  | crossWaitDetect => exact (execCrossWaitDetect_sameMem e).keeps
  | bar0Access => exact execBar0Access_keepsWf e
  | bar2Access => exact execBar2Access_keepsWf e
  | pcieLinkChange => exact (execPcieLinkChange_sameMem e).keeps
  | outboundAccess => exact execOutboundAccess_keepsWf e
  | outboundReadCompletion => exact execOutboundReadCompletion_keepsWf e
  | outboundReadTimeout => exact execOutboundReadTimeout_keepsWf e
  | xspiRead => exact execXspiRead_keepsWf e
  | xspiWrite => exact execXspiWrite_keepsWf e
  | parallelBusRead => exact execParallelBusRead_keepsWf e
  | parallelBusWrite => exact execParallelBusWrite_keepsWf e
  | asyncCommandComplete => exact execAsyncCommandComplete_keepsWf e
  | setState => exact execSetState_keepsWf e
  | loadCommit => exact execLoadCommit_keepsWf e
  | recordWrite => exact execRecordWrite_keepsWf e
  | sessionProofTimeout => exact (execSessionProofTimeout_sameMem e).keeps
  | roleLockExpiry => exact (execRoleLockExpiry_sameMem e).keeps
  | fuseOpDone => exact (execFuseOpDone_sameMem e).keeps
  | recordStoreDone => exact execRecordStoreDone_keepsWf e
  | recorderClearDone => exact execRecorderClearDone_keepsWf e
  | recorderScanDone => exact execRecorderScanDone_keepsWf e
  | coreOverVoltage => exact (execCoreOverVoltage_sameMem e).keeps
  | coreWindowExit => exact (execCoreWindowExit_sameMem e).keeps
  | pgoodCoreRise => exact (execPgoodCoreRise_sameMem e).keeps
  | sequencerPgRise => exact (execSequencerPgRise_sameMem e).keeps
  | sequencerPgTimeout => exact (execSequencerPgTimeout_sameMem e).keeps
  | sequencerPgFall => exact (execSequencerPgFall_sameMem e).keeps
  | unitPowerUpDone => exact execUnitPowerUpDone_keepsWf e
  | temperatureLimit => exact (execTemperatureLimit_sameMem e).keeps
  | resetExit => exact (execResetExit_sameMem e).keeps
  | bootRomRun => exact execBootRomRun_keepsWf e
  | prbsLock => exact (execPrbsLock_sameMem e).keeps
  | prbsLockLoss => exact (execPrbsLockLoss_sameMem e).keeps
  | tapInstructionUpdate => exact execTapInstructionUpdate_keepsWf e
  | debugAccess => exact execDebugAccess_keepsWf e
  | trngDelivery => exact (execTrngDelivery_sameMem e).keeps
  | canIntegrationComplete => exact (execCanIntegrationComplete_sameMem e).keeps
  | startWindowExpiry => exact (execStartWindowExpiry_sameMem e).keeps
  | buckSoftStart => exact (execBuckSoftStart_sameMem e).keeps
  | coreWindowReturn => exact (execCoreWindowReturn_sameMem e).keeps
  | buckDisLevelChange => exact (execBuckDisLevelChange_sameMem e).keeps
  | tmuTick => exact (execTmuTick_sameMem e).keeps
  | autoDomainSwitch => exact (execAutoDomainSwitch_sameMem e).keeps
  | stampRingEntry => exact (execStampRingEntry_sameMem e).keeps
  | angleUpdateInstant => exact (execAngleUpdateInstant_sameMem e).keeps
  | angleEventFiring => exact execAngleEventFiring_keepsWf e
  | ledgerLatch => exact (execLedgerLatch_sameMem e).keeps
  | fdbAgeTick => exact (execFdbAgeTick_sameMem e).keeps
  | queueScrub => exact (execQueueScrub_sameMem e).keeps
  | flushDone => exact (execFlushDone_sameMem e).keeps
  | tableOpDone => exact (execTableOpDone_sameMem e).keeps
  | rqDelivery => exact execRqDelivery_keepsWf e
  | swapQuietPoint => exact execSwapQuietPoint_keepsWf e
  | motionUpdateInstant => exact (execMotionUpdateInstant_sameMem e).keeps
  | scrubLine => exact (execScrubLine_sameMem e).keeps
  | xdmUnit => exact execXdmUnit_keepsWf e
  | eventDelivery => exact (execEventDelivery_sameMem e).keeps
  | msixSend => exact (execMsixSend_sameMem e).keeps
  | perstAssert => exact (execPerstAssert_sameMem e).keeps
  | xspiStatus => exact (execXspiStatus_sameMem e).keeps
  | commandTake => exact (execCommandTake_sameMem e).keeps
  | mailboxCommandTake => exact (execMailboxCommandTake_sameMem e).keeps
  | replyPost => exact execReplyPost_keepsWf e
  | getIdentity => exact (execGetIdentity_sameMem e).keeps
  | getState => exact execGetState_keepsWf e
  | resetSubsystem => exact execResetSubsystem_keepsWf e
  | echo => exact (execEcho_sameMem e).keeps
  | readReg => exact execReadReg_keepsWf e
  | writeReg => exact execWriteReg_keepsWf e
  | openSession => exact (execOpenSession_sameMem e).keeps
  | proveSession => exact (execProveSession_sameMem e).keeps
  | closeSession => exact (execCloseSession_sameMem e).keeps
  | setPassword => exact (execSetPassword_sameMem e).keeps
  | installKey => exact (execInstallKey_sameMem e).keeps
  | attest => exact (execAttest_sameMem e).keeps
  | loadBegin => exact (execLoadBegin_sameMem e).keeps
  | loadData => exact execLoadData_keepsWf e
  | startEngine => exact execStartEngine_keepsWf e
  | stopEngine => exact execStopEngine_keepsWf e
  | imageInfo => exact (execImageInfo_sameMem e).keeps
  | portConfig => exact execPortConfig_keepsWf e
  | portStatus => exact execPortStatus_keepsWf e
  | switchConfig => exact execSwitchConfig_keepsWf e
  | fdbAccess => exact execFdbAccess_keepsWf e
  | scheduleLoad => exact execScheduleLoad_keepsWf e
  | scheduleSwitch => exact execScheduleSwitch_keepsWf e
  | countersRead => exact execCountersRead_keepsWf e
  | canConfig => exact execCanConfig_keepsWf e
  | domainConfig => exact execDomainConfig_keepsWf e
  | domainStatus => exact execDomainStatus_keepsWf e
  | selectDomain => exact execSelectDomain_keepsWf e
  | stampConfig => exact execStampConfig_keepsWf e
  | shaftConfig => exact execShaftConfig_keepsWf e
  | shaftStatus => exact execShaftStatus_keepsWf e
  | angleEventSet => exact execAngleEventSet_keepsWf e
  | angleEventClear => exact execAngleEventClear_keepsWf e
  | shaftMasterProfile => exact execShaftMasterProfile_keepsWf e
  | axisConfig => exact execAxisConfig_keepsWf e
  | axisMove => exact execAxisMove_keepsWf e
  | axisStop => exact execAxisStop_keepsWf e
  | axisGear => exact execAxisGear_keepsWf e
  | axisStatus => exact execAxisStatus_keepsWf e
  | programLoad => exact execProgramLoad_keepsWf e
  | programMode => exact execProgramMode_keepsWf e
  | valueChange => exact execValueChange_keepsWf e
  | forceSet => exact execForceSet_keepsWf e
  | forceClear => exact execForceClear_keepsWf e
  | programSwap => exact execProgramSwap_keepsWf e
  | programStatus => exact execProgramStatus_keepsWf e
  | recordRead => exact (execRecordRead_sameMem e).keeps
  | recordClear => exact execRecordClear_keepsWf e
  | recorderStatus => exact execRecorderStatus_keepsWf e
  | marchRun => exact execMarchRun_keepsWf e
  | prbsRun => exact execPrbsRun_keepsWf e
  | freezeInfo => exact execFreezeInfo_keepsWf e
  | freezeResolve => exact execFreezeResolve_keepsWf e
  | loopback => exact execLoopback_keepsWf e
  | secJobDone => exact execSecJobDone_keepsWf e
  | trngHealthFail => exact (execTrngHealthFail_sameMem e).keeps
  | operatingSecondTick => exact execOperatingSecondTick_keepsWf e
  | powerOn => exact execPowerOn_keepsWf e
  | brownOut => exact execBrownOut_keepsWf e
  | sequencerStepEnable => exact (execSequencerStepEnable_sameMem e).keeps
  | sequencerRetry => exact (execSequencerRetry_sameMem e).keeps
  | avsDone => exact (execAvsDone_sameMem e).keeps
  | pllLock => exact (execPllLock_sameMem e).keeps
  | pllLockLoss => exact (execPllLockLoss_sameMem e).keeps
  | pinReset => exact execPinReset_keepsWf e
  | watchdogHalf => exact (execWatchdogHalf_sameMem e).keeps
  | watchdogReset => exact execWatchdogReset_keepsWf e
  | hostPathTimeout => exact (execHostPathTimeout_sameMem e).keeps
  | tapReset => exact execTapReset_keepsWf e

theorem step_keeps_inv {s t : State} (h : Inv s) (e : step s = .next t) : Inv t := by
  obtain ⟨pending, c⟩ := s
  obtain ⟨hmem, hwf⟩ := h
  cases pending with
  | nil =>
    cases e
    exact ⟨hmem, hwf⟩
  | cons i rest =>
    have hp : t.pending = rest := exec_pending e
    refine ⟨(exec_keepsWf (s := ⟨rest, c⟩) e).keeps hmem, fun j hj => hwf j ?_⟩
    rw [hp] at hj
    exact List.mem_cons_of_mem i hj

end Sys2Proof.Machine

namespace Sys2Proof
open Machine

/-- Settles O1, by the definition of the step. -/
theorem stepPerformsTheFrontCommand : Obligations.StepPerformsTheFrontCommand :=
  ⟨fun _ _ _ => rfl, fun _ => rfl⟩

/-- Settles O2: every meaning has the form that `exec_gate` gives, and the gate of a command is closed where the rule
lists it for neither state (log entry 34 is the model's choice of the rows). -/
theorem everyCommandCompletes : Obligations.EveryCommandCompletes := by
  unfold Obligations.EveryCommandCompletes
  refine ⟨always_some, fun i c h => ?_, fun i c h => ?_⟩
  · cases i with
    | sequencerPgRise | sequencerPgFall | buckDisLevelChange | powerOn | brownOut => trivial
    | recorderScanDone | coreOverVoltage | coreWindowExit | pgoodCoreRise | sequencerPgTimeout | temperatureLimit
    | resetExit | tapInstructionUpdate | buckSoftStart | coreWindowReturn | sequencerStepEnable | sequencerRetry
    | avsDone | pllLock | pllLockLoss | pinReset | tapReset => exact always_of_gate h
    | _ => exact always_of_gate (runs_of_not_supplied h)
  · cases i with
    | recorderScanDone | coreOverVoltage | coreWindowExit | pgoodCoreRise | sequencerPgRise | sequencerPgTimeout
    | sequencerPgFall | temperatureLimit | resetExit | tapInstructionUpdate | buckSoftStart | coreWindowReturn
    | buckDisLevelChange | powerOn | brownOut | sequencerStepEnable | sequencerRetry | avsDone | pllLock | pllLockLoss
    | pinReset | tapReset => trivial
    | _ => exact always_of_gate h

/-- Settles O3: a step performs a command that keeps the canonical form of memory and leaves the rest of the queue. -/
theorem everyStepKeepsTheInvariant : Obligations.EveryStepKeepsTheInvariant :=
  fun _ _ => step_keeps_inv

/-- Settles O4: after reset no byte is listed and no command waits. -/
theorem resetHasTheInvariant : Obligations.ResetHasTheInvariant :=
  ⟨rfl, fun _ h => absurd h List.not_mem_nil⟩

/-- Settles O60: each of the commands has the same memory behind it. -/
theorem quietCommandsLeaveMemory : Obligations.QuietCommandsLeaveMemory := by
  unfold Obligations.QuietCommandsLeaveMemory
  intro i s t a h e
  cases i with
  | syncTimeout => exact (execSyncTimeout_sameMem e).byte a
  | holdoverFailLimit => exact (execHoldoverFailLimit_sameMem e).byte a
  | stampInputEdge => exact (execStampInputEdge_sameMem e).byte a
  | timedOutputEdge => exact (execTimedOutputEdge_sameMem e).byte a
  | reftoExpiry => exact (execReftoExpiry_sameMem e).byte a
  | coastlimExpiry => exact (execCoastlimExpiry_sameMem e).byte a
  | masterSampleGeneration => exact (execMasterSampleGeneration_sameMem e).byte a
  | stampToAngleDone => exact (execStampToAngleDone_sameMem e).byte a
  | ulpEchoRequest => exact (execUlpEchoRequest_sameMem e).byte a
  | linkDown => exact (execLinkDown_sameMem e).byte a
  | frameReceive => exact (execFrameReceive_sameMem e).byte a
  | frameTransmitStart => exact (execFrameTransmitStart_sameMem e).byte a
  | frameTransmitEnd => exact (execFrameTransmitEnd_sameMem e).byte a
  | collision => exact (execCollision_sameMem e).byte a
  | backoffExpiry => exact (execBackoffExpiry_sameMem e).byte a
  | plcaActiveChange => exact (execPlcaActiveChange_sameMem e).byte a
  | preemptVerifyTimer => exact (execPreemptVerifyTimer_sameMem e).byte a
  | lpiEntry => exact (execLpiEntry_sameMem e).byte a
  | earlyWake => exact (execEarlyWake_sameMem e).byte a
  | wakeComplete => exact (execWakeComplete_sameMem e).byte a
  | rxLpiSignal => exact (execRxLpiSignal_sameMem e).byte a
  | cableTestDone => exact (execCableTestDone_sameMem e).byte a
  | gateListChangeTime => exact (execGateListChangeTime_sameMem e).byte a
  | gateEntryStart => exact (execGateEntryStart_sameMem e).byte a
  | streamGateEntry => exact (execStreamGateEntry_sameMem e).byte a
  | recoveryResetTimeout => exact (execRecoveryResetTimeout_sameMem e).byte a
  | slotWindowOpen => exact (execSlotWindowOpen_sameMem e).byte a
  | canFrameCommit => exact (execCanFrameCommit_sameMem e).byte a
  | canArbitrationLoss => exact (execCanArbitrationLoss_sameMem e).byte a
  | canBusError => exact (execCanBusError_sameMem e).byte a
  | canXlPayloadRead => exact (execCanXlPayloadRead_sameMem e).byte a
  | canBusoffRecovered => exact (execCanBusoffRecovered_sameMem e).byte a
  | canReferenceTrigger => exact (execCanReferenceTrigger_sameMem e).byte a
  | canExclusiveTrigger => exact (execCanExclusiveTrigger_sameMem e).byte a
  | canArbitratingTrigger => exact (execCanArbitratingTrigger_sameMem e).byte a
  | canReceiveCheckTrigger => exact (execCanReceiveCheckTrigger_sameMem e).byte a
  | canReceiveWindowEnd => exact (execCanReceiveWindowEnd_sameMem e).byte a
  | canWatchTrigger => exact (execCanWatchTrigger_sameMem e).byte a
  | canMatrixCycleStart => exact (execCanMatrixCycleStart_sameMem e).byte a
  | guardianWindow => exact (execGuardianWindow_sameMem e).byte a
  | peCycleTimer => exact (execPeCycleTimer_sameMem e).byte a
  | engineWatchdogExpiry => exact (execEngineWatchdogExpiry_sameMem e).byte a
  | noExchangeCheck => exact (execNoExchangeCheck_sameMem e).byte a
  | stepPulse => exact (execStepPulse_sameMem e).byte a
  | quadratureTransition => exact (execQuadratureTransition_sameMem e).byte a
  | quadratureIndex => exact (execQuadratureIndex_sameMem e).byte a
  | feedbackStale => exact (execFeedbackStale_sameMem e).byte a
  | deviationFault => exact (execDeviationFault_sameMem e).byte a
  | skJmp => exact (execSkJmp_sameMem e).byte a
  | skWait => exact (execSkWait_sameMem e).byte a
  | skWaitEnd => exact (execSkWaitEnd_sameMem e).byte a
  | skWaitTimeout => exact (execSkWaitTimeout_sameMem e).byte a
  | skIn => exact (execSkIn_sameMem e).byte a
  | skOut => exact (execSkOut_sameMem e).byte a
  | skPush => exact (execSkPush_sameMem e).byte a
  | skPull => exact (execSkPull_sameMem e).byte a
  | skMov => exact (execSkMov_sameMem e).byte a
  | skSet => exact (execSkSet_sameMem e).byte a
  | skIrq => exact (execSkIrq_sameMem e).byte a
  | skStamp => exact (execSkStamp_sameMem e).byte a
  | skStallRelease => exact (execSkStallRelease_sameMem e).byte a
  | packCreditGrant => exact (execPackCreditGrant_sameMem e).byte a
  | bankOwnerTakeEffect => exact (execBankOwnerTakeEffect_sameMem e).byte a
  | xdmTimeTrigger => exact (execXdmTimeTrigger_sameMem e).byte a
  | mailboxTimeout => exact (execMailboxTimeout_sameMem e).byte a
  | crossWaitDetect => exact (execCrossWaitDetect_sameMem e).byte a
  | pcieLinkChange => exact (execPcieLinkChange_sameMem e).byte a
  | sessionProofTimeout => exact (execSessionProofTimeout_sameMem e).byte a
  | roleLockExpiry => exact (execRoleLockExpiry_sameMem e).byte a
  | fuseOpDone => exact (execFuseOpDone_sameMem e).byte a
  | coreOverVoltage => exact (execCoreOverVoltage_sameMem e).byte a
  | coreWindowExit => exact (execCoreWindowExit_sameMem e).byte a
  | pgoodCoreRise => exact (execPgoodCoreRise_sameMem e).byte a
  | sequencerPgRise => exact (execSequencerPgRise_sameMem e).byte a
  | sequencerPgTimeout => exact (execSequencerPgTimeout_sameMem e).byte a
  | sequencerPgFall => exact (execSequencerPgFall_sameMem e).byte a
  | temperatureLimit => exact (execTemperatureLimit_sameMem e).byte a
  | resetExit => exact (execResetExit_sameMem e).byte a
  | prbsLock => exact (execPrbsLock_sameMem e).byte a
  | prbsLockLoss => exact (execPrbsLockLoss_sameMem e).byte a
  | trngDelivery => exact (execTrngDelivery_sameMem e).byte a
  | canIntegrationComplete => exact (execCanIntegrationComplete_sameMem e).byte a
  | startWindowExpiry => exact (execStartWindowExpiry_sameMem e).byte a
  | buckSoftStart => exact (execBuckSoftStart_sameMem e).byte a
  | coreWindowReturn => exact (execCoreWindowReturn_sameMem e).byte a
  | buckDisLevelChange => exact (execBuckDisLevelChange_sameMem e).byte a
  | tmuTick => exact (execTmuTick_sameMem e).byte a
  | autoDomainSwitch => exact (execAutoDomainSwitch_sameMem e).byte a
  | stampRingEntry => exact (execStampRingEntry_sameMem e).byte a
  | angleUpdateInstant => exact (execAngleUpdateInstant_sameMem e).byte a
  | ledgerLatch => exact (execLedgerLatch_sameMem e).byte a
  | fdbAgeTick => exact (execFdbAgeTick_sameMem e).byte a
  | queueScrub => exact (execQueueScrub_sameMem e).byte a
  | flushDone => exact (execFlushDone_sameMem e).byte a
  | tableOpDone => exact (execTableOpDone_sameMem e).byte a
  | motionUpdateInstant => exact (execMotionUpdateInstant_sameMem e).byte a
  | scrubLine => exact (execScrubLine_sameMem e).byte a
  | eventDelivery => exact (execEventDelivery_sameMem e).byte a
  | msixSend => exact (execMsixSend_sameMem e).byte a
  | perstAssert => exact (execPerstAssert_sameMem e).byte a
  | xspiStatus => exact (execXspiStatus_sameMem e).byte a
  | commandTake => exact (execCommandTake_sameMem e).byte a
  | mailboxCommandTake => exact (execMailboxCommandTake_sameMem e).byte a
  | getIdentity => exact (execGetIdentity_sameMem e).byte a
  | echo => exact (execEcho_sameMem e).byte a
  | openSession => exact (execOpenSession_sameMem e).byte a
  | proveSession => exact (execProveSession_sameMem e).byte a
  | closeSession => exact (execCloseSession_sameMem e).byte a
  | setPassword => exact (execSetPassword_sameMem e).byte a
  | installKey => exact (execInstallKey_sameMem e).byte a
  | attest => exact (execAttest_sameMem e).byte a
  | loadBegin => exact (execLoadBegin_sameMem e).byte a
  | imageInfo => exact (execImageInfo_sameMem e).byte a
  | recordRead => exact (execRecordRead_sameMem e).byte a
  | trngHealthFail => exact (execTrngHealthFail_sameMem e).byte a
  | sequencerStepEnable => exact (execSequencerStepEnable_sameMem e).byte a
  | sequencerRetry => exact (execSequencerRetry_sameMem e).byte a
  | avsDone => exact (execAvsDone_sameMem e).byte a
  | pllLock => exact (execPllLock_sameMem e).byte a
  | pllLockLoss => exact (execPllLockLoss_sameMem e).byte a
  | watchdogHalf => exact (execWatchdogHalf_sameMem e).byte a
  | hostPathTimeout => exact (execHostPathTimeout_sameMem e).byte a
  | _ => exact h.elim

end Sys2Proof
end

section
/-!
PROOF. What proofs about several units use: a command's effect that has a property, and bits of words put together.
-/
namespace Sys2Proof
open Machine

variable {i : Instr} {c d : Chip} {P : Chip → Prop}

theorem Does.gives (h : Does i c d) (p : P d) : Gives i c P := fun r => ⟨d, h r, p⟩

theorem Powered.gives (h : Powered i c d) (p : P d) : GivesPowered i c P := fun r => ⟨d, h r, p⟩

end Sys2Proof

namespace Sys2Proof.Machine

theorem wbit_or (v w : W32) (i : Nat) : wbit (v ||| w) i = (wbit v i || wbit w i) := BitVec.getLsbD_or

theorem wbit_and (v w : W32) (i : Nat) : wbit (v &&& w) i = (wbit v i && wbit w i) := BitVec.getLsbD_and

/-- A mask of all 32 bits masks nothing. -/
@[simp] theorem and_mask32 (v : W32) : v &&& 4294967295#32 = v := BitVec.and_allOnes

/-- A flag changes registers and the events that wait, and nothing else. -/
theorem Chip.flag_frame (c : Chip) (a i src : Nat) :
    c.flag a i src = { c with regs := (c.flag a i src).regs, evt := (c.flag a i src).evt } := rfl

end Sys2Proof.Machine
end

section
/-!
PROOF. Commands and writes of the tracked domains (R45 to R49, R53, R55, R56): what each write makes of the device in the
states that the table lists for it, and where a value meets its limit.
-/
namespace Sys2Proof.Machine

variable {c : Chip} {m : Nat} {x : Dom} {w : W32}

/-! ### Values held between limits -/

theorem clamp_of_le_of_le {v lo hi : Int} (_ : lo ≤ v) (_ : v ≤ hi) : clamp v lo hi = v := by
  unfold clamp
  omega

theorem clamp_of_hi_lt {v lo hi : Int} (_ : lo ≤ hi) (_ : hi < v) : clamp v lo hi = hi := by
  unfold clamp
  omega

theorem clamp_of_lt_lo {v lo hi : Int} (_ : lo ≤ hi) (_ : v < lo) : clamp v lo hi = lo := by
  unfold clamp
  omega

theorem neg_le_clamp {s : Int} (_ : 0 ≤ s) (v : Int) : -s ≤ clamp v (-s) s := by
  unfold clamp
  omega

theorem clamp_le {s : Int} (_ : 0 ≤ s) (v : Int) : clamp v (-s) s ≤ s := by
  unfold clamp
  omega

/-! ### Commands in a state that the table lists for them (R47) -/

theorem regWrite_TMU_Dx_CMD_onlyBit (x : Fin 2) (k : Fin 5) (hm : c.timeMaster m = true) (h : OnlyBit w 5 k.val) :
    regWrite c m (TMU_Dx_CMD x.val) w = (domCommand c (domAt x) k).done :=
  (regWrite_TMU_Dx_CMD x).trans (domCmdWrite_onlyBit k hm h)

/-- The domain that ENABLE leaves (R47). -/
def enabledDomain (c : Chip) (x : Dom) : Domain :=
  { c.dom x with
    st := .acquire, d := (c.lt : Int) * 2 ^ 32, p := 0, r := 0, t := 0, step := none, adjTick := 0, stepped := false }

theorem domEnable_listed (h : (c.dom x).st = .idle ∨ (c.dom x).st = .failed) :
    domEnable c x =
      (let e := (c.domState x (enabledDomain c x)).stage (TMU_Dx_RATE_HI x.idx) 0
       let f := { e with tmu := { e.tmu with h := 0, handover := false } }
       if c.active = x then if c.tmu.h ≠ 0 then f.flag TMU_EVSTAT 2 83 else f else e) :=
  if_pos h

theorem domLock_listed (h : (c.dom x).st = .acquire) :
    domLock c x = c.domState x { c.dom x with st := .locked, syncNs := 0 } :=
  if_pos h

theorem domSync_locked (h : (c.dom x).st = .locked) : domSync c x = c.setDom x { c.dom x with syncNs := 0 } := by
  unfold domSync
  rw [h]

theorem domSync_holdover (h : (c.dom x).st = .holdover) :
    domSync c x = c.domState x { c.dom x with st := .locked, syncNs := 0 } := by
  unfold domSync
  rw [h]

theorem domFail_listed (h : (c.dom x).st = .acquire ∨ (c.dom x).st = .locked ∨ (c.dom x).st = .holdover) :
    domFail c x = c.domState x { c.dom x with st := .failed } := by
  unfold domFail
  rcases h with e | e | e <;> rw [e]

theorem domDisable_listed (h : (c.dom x).st ≠ .idle) (ha : c.active ≠ x) :
    domDisable c x =
      (c.domState x { c.dom x with
        st := .idle, d := (c.tmu.raw : Int) * tick48, p := 0, r := 0, t := 0, step := none, adjTick := 0 }).stage
          (TMU_Dx_RATE_HI x.idx) 0 :=
  if_pos ⟨h, ha⟩

/-! ### Commits of rate, adjustment and step (R45, R46) -/

section
variable (hm : c.timeMaster m = true)
include hm

theorem domRateWrite_refused (h : (c.dom x).st = .idle ∨ (c.dom x).st = .failed) :
    domRateWrite c m x w = (c.domFlag x 0).done := by
  simp only [domRateWrite, hm, Bool.not_true, Bool.false_eq_true, if_false, if_pos h]

theorem domAdjWrite_refused (h : (c.dom x).st = .idle ∨ (c.dom x).st = .failed) :
    domAdjWrite c m x w = (c.domFlag x 0).done := by
  simp only [domAdjWrite, hm, Bool.not_true, Bool.false_eq_true, if_false, if_pos h]

/-- The rate that is stored is the one committed, held within the limits; the flag says that it was not in them. -/
theorem domRateWrite_taken (hi : (c.dom x).st ≠ .idle) (hf : (c.dom x).st ≠ .failed) :
    domRateWrite c m x w =
      (let v := sext 64 (join64 (c.stagedPart (TMU_Dx_RATE_HI x.idx)) w)
       let t := clamp v (-rateLimit) rateLimit
       let e := (c.setDom x { c.dom x with t := t }).stage (TMU_Dx_RATE_HI x.idx) (hi32 (wrap 64 t))
       if t = v then e.done else (e.domFlag x 2).done) := by
  simp only [domRateWrite, hm, Bool.not_true, Bool.false_eq_true, if_false, hi, hf, or_self]

/-- The sum of adjustments that is stored is held within its range; the flag says that it left it. -/
theorem domAdjWrite_taken (hi : (c.dom x).st ≠ .idle) (hf : (c.dom x).st ≠ .failed) :
    domAdjWrite c m x w =
      (let v := sext 64 (join64 (c.stagedPart (TMU_Dx_ADJ_HI x.idx)) w) * 2 ^ 32
       let p := clamp ((c.dom x).p + v) (-(2 ^ 63) * 2 ^ 32) ((2 ^ 63 - 1) * 2 ^ 32)
       let e := c.setDom x { c.dom x with
         p := p, adjTick := clamp ((c.dom x).adjTick + v) (-(2 ^ 63) * 2 ^ 32) ((2 ^ 63 - 1) * 2 ^ 32) }
       if p = (c.dom x).p + v then e.done else (e.domFlag x 3).done) := by
  simp only [domAdjWrite, hm, Bool.not_true, Bool.false_eq_true, if_false, hi, hf, or_self]

theorem domStepWrite_accepted (h : (c.dom x).st = .acquire) (hs : (c.dom x).stepped = false)
    (hn : (c.dom x).step = none) :
    domStepWrite c m x w =
      (c.setDom x { c.dom x with step := some (sext 64 (join64 (c.stagedPart (TMU_Dx_STEP_HI x.idx)) w)) }).done := by
  simp only [domStepWrite, hm, Bool.not_true, Bool.false_eq_true, if_false, h, hs, hn, and_self, if_true]

theorem domStepWrite_refused (h : (c.dom x).st ≠ .acquire ∨ (c.dom x).stepped = true ∨ (c.dom x).step ≠ none) :
    domStepWrite c m x w = (c.domFlag x 1).done := by
  have hn : ¬((c.dom x).st = .acquire ∧ (c.dom x).stepped = false ∧ (c.dom x).step = none) := by
    rintro ⟨ha, hs, hn⟩
    rcases h with g | g | g
    · exact g ha
    · exact absurd (hs.symm.trans g) Bool.false_ne_true
    · exact g hn
  simp only [domStepWrite, hm, Bool.not_true, Bool.false_eq_true, if_false, hn]

theorem domselWrite_same (h : wbit w 0 = c.tmu.activeB) :
    domselWrite c m w = (c.setFld TMU_DOMSEL 1 0 (wfld w 1 0)).done := by
  simp only [domselWrite, hm, Bool.not_true, Bool.false_eq_true, if_false, h, beq_self_eq_true, if_true]

theorem domselWrite_other (h : wbit w 0 ≠ c.tmu.activeB) :
    domselWrite c m w =
      if (c.dom c.active.other).st = .locked then (domSwitch (c.setFld TMU_DOMSEL 1 0 (wfld w 1 0))).done
      else (c.setBit TMU_EVSTAT 0 true).done := by
  simp only [domselWrite, hm, Bool.not_true, Bool.false_eq_true, if_false, beq_eq_false_iff_ne.2 h]

end

end Sys2Proof.Machine

namespace Sys2Proof
open Machine

/-- Settles O9: one command bit, in a state of its row, performs the command's own operation. -/
theorem domainCommandsTakeEffect : Obligations.DomainCommandsTakeEffect := by
  unfold Obligations.DomainCommandsTakeEffect
  intro m x v c hm
  refine ⟨fun h hs => ?_, fun h hs => does_domainLock ?_, fun h => ⟨fun hs => does_domainSync ?_,
    fun hs => does_domainSync ?_⟩, fun h hs => does_domainFail ?_, fun h hs ha => does_domainDisable ?_⟩
  · have he : regWrite c m.val (TMU_Dx_CMD x.val) (v ||| 0x1) = (domEnable c (domAt x)).done :=
      regWrite_TMU_Dx_CMD_onlyBit x 0 hm h
    rw [domEnable_listed hs, domAt_idx] at he
    refine ⟨fun ha => does_domainEnable ?_, fun ha h0 => does_domainEnable ?_, fun ha h0 => does_domainEnable ?_⟩
    · rw [he, if_neg ha]
      rfl
    · rw [he, if_pos ha, if_neg (not_not_intro h0)]
      rfl
    · rw [he, if_pos ha, if_pos h0]
      rfl
  · exact (regWrite_TMU_Dx_CMD_onlyBit x 1 hm h).trans (congrArg Chip.done (domLock_listed hs))
  · exact (regWrite_TMU_Dx_CMD_onlyBit x 2 hm h).trans (congrArg Chip.done (domSync_locked hs))
  · exact (regWrite_TMU_Dx_CMD_onlyBit x 2 hm h).trans (congrArg Chip.done (domSync_holdover hs))
  · exact (regWrite_TMU_Dx_CMD_onlyBit x 3 hm h).trans (congrArg Chip.done (domFail_listed hs))
  · rw [regWrite_TMU_Dx_CMD_onlyBit x 4 hm h, domCommand, domDisable_listed hs ha, domAt_idx]
    rfl

/-- Settles O11: a commit stores what the range leaves of it, and sets the flag where that is not the value committed. -/
theorem domainWritesTimersAndSwitches : Obligations.DomainWritesTimersAndSwitches := by
  unfold Obligations.DomainWritesTimersAndSwitches
  refine ⟨fun m x lo c hm => ?_, fun m x v c => ?_⟩
  · have hflag (e : Chip) (i : Nat) : (e.domFlag (domAt x) i).done = (e.flag (TMU_Dx_FLAGS x.val) i 84).done := by
      rw [Chip.domFlag, domAt_idx]
    refine ⟨fun h => ⟨does_domainRateWrite ?_, does_domainAdjWrite ?_⟩, fun hi hf => ?_,
      fun h hs hn => does_domainStepWrite ?_, fun h => does_domainStepWrite ?_⟩
    · rw [regWrite_TMU_Dx_RATE_LO, domRateWrite_refused hm h, hflag]
    · rw [regWrite_TMU_Dx_ADJ_LO, domAdjWrite_refused hm h, hflag]
    · have hr := (regWrite_TMU_Dx_RATE_LO x).trans (domRateWrite_taken (w := lo) hm hi hf)
      have ha := (regWrite_TMU_Dx_ADJ_LO x).trans (domAdjWrite_taken (w := lo) hm hi hf)
      simp only [domAt_idx, hflag, rateLimit] at hr ha
      refine ⟨fun h g => does_domainRateWrite ?_, fun h => does_domainRateWrite ?_, fun h => does_domainRateWrite ?_,
        fun h g => does_domainAdjWrite ?_, fun h => does_domainAdjWrite ?_, fun h => does_domainAdjWrite ?_⟩
      · rw [hr, clamp_of_le_of_le h g, if_pos rfl]
      · rw [hr, clamp_of_hi_lt (by decide) h, if_neg (Int.ne_of_lt h)]
      · rw [hr, clamp_of_lt_lo (by decide) h, if_neg (Int.ne_of_gt h)]
      · rw [ha, clamp_of_le_of_le h g, if_pos rfl]
      · rw [ha, clamp_of_hi_lt (by decide) h, if_neg (Int.ne_of_lt h)]
      · rw [ha, clamp_of_lt_lo (by decide) h, if_neg (Int.ne_of_gt h)]
    · rw [regWrite_TMU_Dx_STEP_LO, domStepWrite_accepted hm h hs hn, domAt_idx]
    · rw [regWrite_TMU_Dx_STEP_LO, domStepWrite_refused hm h, hflag]
  · have hsync : c.syncLimit (domAt x) = (c.reg (TMU_Dx_SYNCTO x.val)).toNat * 1000 := by
      rw [Chip.syncLimit, domAt_idx]
    have hfail : TMU_Dx_FAILLIM (domAt x).idx = TMU_Dx_FAILLIM x.val := by rw [domAt_idx]
    refine ⟨fun h g => does_syncTimeout ?_, fun h => does_syncTimeout ?_, fun h g => does_holdoverFailLimit ?_,
      fun h => does_holdoverFailLimit ?_, fun hm => ⟨fun h => does_domainSelectWrite ?_,
      fun h g => does_domainSelectWrite ?_, fun h g => does_domainSelectWrite ?_⟩, fun h => does_autoDomainSwitch ?_,
      fun h => does_autoDomainSwitch ?_⟩
    · simp only [syncTimeout, hsync, h, g, and_self, if_true]
    · refine if_neg fun ⟨hl, hlt⟩ => ?_
      rw [hsync] at hlt
      rcases h with h | h
      · exact h hl
      · omega
    · simp only [holdoverFail, hfail, h, g, and_self, if_true]
    · refine if_neg fun ⟨hl, hlt⟩ => ?_
      rw [hfail] at hlt
      rcases h with h | h
      · exact h hl
      · omega
    · exact regWrite_TMU_DOMSEL.trans (domselWrite_same hm h)
    · rw [regWrite_TMU_DOMSEL, domselWrite_other hm h, if_pos g]
      rfl
    · rw [regWrite_TMU_DOMSEL, domselWrite_other hm h, if_neg g]
    · exact if_pos h
    · exact if_neg h

end Sys2Proof
end

section
/-!
PROOF. One tick of TMU (R43, R44, R46, R52, R54, R55, R57): what it makes of the two domains, the handover term and line
time, and how far line time moves in it.
-/
namespace Sys2Proof.Machine

variable {c : Chip} {x : Dom} {s : Int}

/-! ### One domain (R44, R46) -/

section
variable {d : Domain} {sigma rho : Int} {raw : Nat}

theorem Domain.tick_idle (h : d.st = .idle) :
    d.tick sigma rho raw = { d with d := raw * tick48, r := 0, t := 0, p := 0, step := none, adjTick := 0 } := by
  unfold Domain.tick
  rw [h]

theorem Domain.tick_noStep (h : d.st ≠ .idle) (hs : d.step = none) :
    (d.tick sigma rho raw).st = d.st ∧ (d.tick sigma rho raw).d = d.d + tick48 + d.r + clamp d.p (-sigma) sigma ∧
    (d.tick sigma rho raw).p = d.p - clamp d.p (-sigma) sigma ∧ (d.tick sigma rho raw).t = d.t ∧
    (d.tick sigma rho raw).r = d.r + clamp (d.t - d.r) (-rho) rho := by
  unfold Domain.tick
  split
  next e => exact absurd e h
  next => simp only [hs, and_self]

theorem Domain.tick_step (h : d.st ≠ .idle) (hs : d.step = some s) :
    (d.tick sigma rho raw).d = d.d + tick48 + d.r + s * 2 ^ 32 ∧ (d.tick sigma rho raw).p = d.adjTick ∧
    (d.tick sigma rho raw).stepped = true ∧ (d.tick sigma rho raw).step = none ∧
    (d.tick sigma rho raw).r = d.r + clamp (d.t - d.r) (-rho) rho := by
  unfold Domain.tick
  split
  next e => exact absurd e h
  next => simp only [hs, and_self]

end

/-! ### The device -/

/-- The handover term after a tick (R52, R57): `tmuTick_tmu` ties it to the tick. -/
def tickedH (c : Chip) : Int :=
  match (c.dom c.active).step with
  | some s => if c.lineSteps then c.tmu.h - clamp c.tmu.h (-c.sigma) c.sigma
      else hTerm (c.tmu.h - clamp c.tmu.h (-c.sigma) c.sigma - s * 2 ^ 32)
  | none => c.tmu.h - clamp c.tmu.h (-c.sigma) c.sigma

/-- A domain after a tick: `tmuTick_tmu` ties it to the tick. -/
def tickedDom (c : Chip) (x : Dom) : Domain := (c.dom x).tick c.sigma c.rho ((c.tmu.raw + 1) % 2 ^ 64)

theorem tickedH_noStep (h : (c.dom c.active).step = none) : tickedH c = c.tmu.h - clamp c.tmu.h (-c.sigma) c.sigma := by
  unfold tickedH
  rw [h]

theorem tickedH_step (h : (c.dom c.active).step = some s) (hl : c.lineSteps = false) :
    tickedH c = hTerm (c.tmu.h - clamp c.tmu.h (-c.sigma) c.sigma - s * 2 ^ 32) := by
  unfold tickedH
  simp only [h, hl, Bool.false_eq_true, if_false]

theorem tickedH_lineStep (h : (c.dom c.active).step = some s) (hl : c.lineSteps = true) :
    tickedH c = c.tmu.h - clamp c.tmu.h (-c.sigma) c.sigma := by
  unfold tickedH
  simp only [h, hl, if_true]

theorem tickedDom_active (c : Chip) :
    (if c.tmu.activeB then tickedDom c .b else tickedDom c .a) = tickedDom c c.active := by
  unfold Chip.active
  split <;> rfl

/-- What a tick makes of TMU's state: `tmuTick_cases` ties it to the tick. -/
def tickedTmu (c : Chip) : TmuState :=
  { c.tmu with
    raw := (c.tmu.raw + 1) % 2 ^ 64, domA := tickedDom c .a, domB := tickedDom c .b, h := tickedH c
    lt := ltOf (tickedDom c c.active).d (tickedH c)
    handover := c.tmu.handover && !(c.tmu.handover && tickedH c == 0) }

/-- The tick changes TMU's state, and sets a flag and raises its source where a handover ends (R55). -/
theorem tmuTick_cases (c : Chip) :
    tmuTick c = { c with tmu := tickedTmu c } ∨
    tmuTick c = ({ c with tmu := tickedTmu c } : Chip).flag TMU_EVSTAT 2 83 := by
  have h : tmuTick c = if c.tmu.handover && tickedH c == 0 then
      ({ c with tmu := tickedTmu c } : Chip).flag TMU_EVSTAT 2 83 else { c with tmu := tickedTmu c } := by
    unfold tickedTmu
    rw [← tickedDom_active]
    rfl
  rw [h]
  split
  · exact .inr rfl
  · exact .inl rfl

theorem tmuTick_tmu (c : Chip) : (tmuTick c).tmu = tickedTmu c := by
  rcases tmuTick_cases c with h | h <;> exact congrArg Chip.tmu h

@[simp] theorem dom_tmuTick (c : Chip) (x : Dom) : (tmuTick c).dom x = tickedDom c x := by
  cases x <;> simp only [Chip.dom, tmuTick_tmu, tickedTmu]

@[simp] theorem active_tmuTick (c : Chip) : (tmuTick c).active = c.active := by
  simp only [Chip.active, tmuTick_tmu, tickedTmu]

@[simp] theorem h_tmuTick (c : Chip) : (tmuTick c).tmu.h = tickedH c := by rw [tmuTick_tmu, tickedTmu]

@[simp] theorem lt_tmuTick (c : Chip) : (tmuTick c).lt = ltOf (tickedDom c c.active).d (tickedH c) := by
  simp only [Chip.lt, tmuTick_tmu, tickedTmu]

/-- The registers that a tick may change are the two that a flag and its source set (R55, R399). -/
theorem reg_tmuTick {a : Nat} (h1 : a ≠ TMU_EVSTAT) (h2 : a ≠ EVT_PEND 2) : (tmuTick c).reg a = c.reg a := by
  rcases tmuTick_cases c with h | h <;> rw [h]
  · rfl
  · rw [Chip.flag, Chip.reg_raise, if_neg h2, Chip.reg_setBit, if_neg h1]
    rfl

theorem tmuTick_frame (c : Chip) :
    tmuTick c = { c with tmu := (tmuTick c).tmu, regs := (tmuTick c).regs, evt := (tmuTick c).evt } := by
  rcases tmuTick_cases c with h | h <;> rw [h]
  exact Chip.flag_frame _ _ _ _

/-! ### How far line time moves (R54) -/

/-- σ lies between 0 and a thousandth of a tick, rounded, within the limit of TMU_SLEW (R44, R74). -/
theorem sigma_bounds (h : (c.reg TMU_SLEW).toNat ≤ 1000) : 0 ≤ c.sigma ∧ c.sigma ≤ 281474976711 := by
  unfold Chip.sigma roundDiv tick48
  split <;> omega

/-- Domain time and the handover term move together by one tick, the rate, and what each pays out at σ a tick: a step of
the domain that line time does not take is taken off the term. -/
theorem tick_sum_bounds (hi : (c.dom c.active).st ≠ .idle)
    (hs : (c.dom c.active).step = none ∨ c.lineSteps = false) (hslew : (c.reg TMU_SLEW).toNat ≤ 1000)
    (hh : ∀ k : Int, (c.dom c.active).step = some k →
      hTerm (c.tmu.h - clamp c.tmu.h (-c.sigma) c.sigma - k * 2 ^ 32) =
        c.tmu.h - clamp c.tmu.h (-c.sigma) c.sigma - k * 2 ^ 32) :
    let s := c.dom c.active
    let moved := (tickedDom c c.active).d + tickedH c - (s.d + c.tmu.h) - tick48 - s.r
    moved ≤ 2 * 281474976711 ∧ -(2 * 281474976711) ≤ moved := by
  obtain ⟨h0, hσ⟩ := sigma_bounds hslew
  have hlo := neg_le_clamp h0 c.tmu.h
  have hhi := clamp_le h0 c.tmu.h
  have plo := neg_le_clamp h0 (c.dom c.active).p
  have phi := clamp_le h0 (c.dom c.active).p
  cases hstep : (c.dom c.active).step with
  | none =>
    obtain ⟨-, hd, -⟩ := Domain.tick_noStep (sigma := c.sigma) (rho := c.rho) (raw := (c.tmu.raw + 1) % 2 ^ 64) hi hstep
    simp only [tickedDom, hd, tickedH_noStep hstep]
    omega
  | some k =>
    have hl : c.lineSteps = false := hs.resolve_left (by rw [hstep]; exact Option.some_ne_none k)
    obtain ⟨hd, -⟩ := Domain.tick_step (sigma := c.sigma) (rho := c.rho) (raw := (c.tmu.raw + 1) % 2 ^ 64) hi hstep
    simp only [tickedDom, hd, tickedH_step hstep hl, hh k hstep]
    omega

theorem wrap_of_range {n : Nat} {x : Int} (h0 : 0 ≤ x) (h1 : x < 2 ^ n) : wrap n x = x.toNat := by
  unfold wrap
  rw [Int.emod_eq_of_lt h0 h1]

end Sys2Proof.Machine

namespace Sys2Proof
open Machine

/-- Settles O7: the tick of each domain by its state and its step, the handover term by the active domain's step. -/
theorem tickFollowsR44AndR52 : Obligations.TickFollowsR44AndR52 := by
  unfold Obligations.TickFollowsR44AndR52
  refine ⟨fun c => (does_tmuTick rfl).gives ⟨by rw [tmuTick_tmu, tickedTmu], fun x hi hs => ?_, fun x hi => ?_, fun hs => ?_,
    active_tmuTick c, ?_, fun a => reg_tmuTick, fun a => tmuTick_sameMem.byte a, tmuTick_frame c⟩,
    fun c x s hi hs => (does_tmuTick rfl).gives ?_⟩
  · rw [dom_tmuTick]
    exact Domain.tick_noStep hi hs
  · rw [dom_tmuTick, tickedDom, Domain.tick_idle hi]
    exact ⟨hi, rfl, rfl, rfl, rfl⟩
  · rw [h_tmuTick, tickedH_noStep hs]
  · rw [lt_tmuTick, active_tmuTick, dom_tmuTick, h_tmuTick, ltOf]
  · obtain ⟨hd, hp, hst, hn, hr⟩ :=
      Domain.tick_step (sigma := c.sigma) (rho := c.rho) (raw := (c.tmu.raw + 1) % 2 ^ 64) hi hs
    simp only [dom_tmuTick, h_tmuTick]
    refine ⟨hd, hp, hst, hn, hr, fun ha hl => ?_, fun ha hl => ?_⟩
    · exact tickedH_step (ha ▸ hs) hl
    · exact tickedH_lineStep (ha ▸ hs) hl

/-- Settles O8: the sum of domain time and handover term moves by a tick, the rate and twice σ at most; line time is that
sum in its own units. -/
theorem lineTimeNeverDecreases : Obligations.LineTimeNeverDecreases := by
  unfold Obligations.LineTimeNeverDecreases
  intro c s hi hs hlo hhi hslew hh hlt h0 h1
  refine (does_tmuTick rfl).gives ?_
  obtain ⟨ghi, glo⟩ := tick_sum_bounds hi hs hslew hh
  rw [lt_tmuTick, hlt, ltOf]
  have hr : -281474976711 ≤ s.r ∧ s.r ≤ 281474976711 := ⟨hlo, hhi⟩
  have ht : tick48 = 281474976710656 := rfl
  change -(2 * 281474976711) ≤ _ - (s.d + c.tmu.h) - tick48 - s.r at glo
  change _ - (s.d + c.tmu.h) - tick48 - s.r ≤ 2 * 281474976711 at ghi
  generalize (tickedDom c c.active).d + tickedH c = y at *
  generalize s.d + c.tmu.h = z at *
  rw [wrap_of_range (by omega) (by omega), wrap_of_range (by omega) (by omega)]
  omega

end Sys2Proof
end

section
/-!
PROOF. Stamps and timed outputs (R61, R64 to R70, R534): the edge that a channel accepts, a stamp's way through the ring,
and a timed output's arming and edges.
-/
namespace Sys2Proof.Machine

variable {c : Chip} {m n : Nat} {v : W32}

/-! ### Stamps -/

theorem egressPop_eq (p : Nat) :
    egressPop c p v = if wbit v 0 then (c.setEq p (c.eq p).tail).done else c.done := rfl

theorem ringPop_eq :
    ringPop c v = if wbit v 0 then ({ c with tmu := { c.tmu with ring := c.tmu.ring.tail } } : Chip).done
      else c.done := rfl

/-- The edge of a stamp channel (R64, R65): chosen by its direction and filter, and stamped where it is not close. -/
theorem stampAt_eq (c : Chip) (ch : Nat) (up : Bool) (at4 lt stable : Nat) :
    c.stampAt ch up at4 lt stable =
      (let cfg := c.reg (TMU_TSn_CFG ch)
       let edges := tblGet [] c.tmu.tsEdges ch
       if (if up then wfld cfg 11 10 % 2 = 1 else wfld cfg 11 10 / 2 = 1) ∧ wfld cfg 15 12 * 4 ≤ stable then
         if edges.head?.any (fun l => decide (at4 < l + 64)) then c.setBit (TMU_TSn_CFG ch) 31 true
         else { c with tmu := { c.tmu with
           tsEdges := tblSet [] c.tmu.tsEdges ch (noteEdge at4 edges)
           waiting := insertStamp c.tmu.waiting ⟨at4, lt, up, ch⟩ } }
       else c) := by
  unfold Chip.stampAt
  cases up <;> cases tblGet [] c.tmu.tsEdges ch <;> simp

section
variable {s : WaitingStamp} {rest : List WaitingStamp} (hw : c.tmu.waiting = s :: rest)
  (ht : s.at4 / 4 + 80 ≤ c.tmu.raw)
include hw ht

/-- A stamp whose 80 ns are over enters the ring, and raises its source where its channel says so (R66). -/
theorem ringEntry_entered (h : c.tmu.ring.length < 1024) :
    ringEntry c =
      (let e := { c with tmu := { c.tmu with
         waiting := rest
         ring := c.tmu.ring ++ [⟨s.lt, c.tmu.ringSeq, c.tmu.ringLost, s.rising, s.ch⟩]
         ringSeq := (c.tmu.ringSeq + 1) % 65536, ringLost := false } }
       if c.bit (TMU_TSn_CFG s.ch) 9 then e.raise (32 + s.ch) 0 else e) := by
  unfold ringEntry
  simp only [hw, if_pos ht, if_pos h]

/-- A full ring loses the stamp (R67). -/
theorem ringEntry_lost (h : 1024 ≤ c.tmu.ring.length) :
    ringEntry c = (((({ c with tmu := { c.tmu with waiting := rest, ringLost := true } } : Chip).inc TMU_TSR_LOST).setBit
      TMU_TSR_FLAGS 0 true).raise 86 0) := by
  unfold ringEntry
  simp only [hw, if_pos ht, if_neg (Nat.not_lt.2 h)]

end

/-! ### Timed outputs -/

/-- The schedule that ARM leaves with its first edge at `first` (R69): `toArm_eq` ties it to the arming. -/
def Chip.toArmed (c : Chip) (n first : Nat) (level : Bool) : Chip :=
  c.setTo n { c.to n with sched := some ⟨c.fld (TMU_TOn_CFG n) 14 13, first, (c.reg (TMU_TOn_WIDTH n)).toNat,
    (c.reg (TMU_TOn_PERIOD n)).toNat, level⟩ }

theorem toArm_refused {t4 : Nat} {level : Bool}
    (h : toLimitsOk (c.fld (TMU_TOn_CFG n) 14 13) (c.reg (TMU_TOn_WIDTH n)).toNat (c.reg (TMU_TOn_PERIOD n)).toNat =
      false) : toArm c n t4 level = c.toLate n := by
  simp only [toArm, h, Bool.not_false, if_true]

section
variable {t4 i : Nat} {level : Bool}
  (h : toLimitsOk (c.fld (TMU_TOn_CFG n) 14 13) (c.reg (TMU_TOn_WIDTH n)).toNat (c.reg (TMU_TOn_PERIOD n)).toNat = true)
include h

theorem toArm_afterPulse (hp : (c.to n).pulse = some i) (hi : i < t4) : toArm c n t4 level = c.toArmed n t4 level := by
  simp only [toArm, Chip.toArmed, h, hp, hi, Bool.not_true, Bool.false_eq_true, if_false, if_true]

/-- A first edge that the pulse in progress has passed comes right after the pulse, late (R69, R70). -/
theorem toArm_inPulse (hp : (c.to n).pulse = some i) (hi : t4 ≤ i) :
    toArm c n t4 level = (c.toArmed n (i + 1) level).toLate n := by
  simp only [toArm, Chip.toArmed, h, hp, Nat.not_lt.2 hi, Bool.not_true, Bool.false_eq_true, if_false, if_true]

theorem toArm_inTime (hp : (c.to n).pulse = none) (ht : c.lt4 ≤ t4 + 8) : toArm c n t4 level = c.toArmed n t4 level := by
  simp only [toArm, Chip.toArmed, h, hp, Nat.not_lt.2 ht, Bool.not_true, Bool.false_eq_true, if_false]

theorem toArm_late (hp : (c.to n).pulse = none) (ht : t4 + 8 < c.lt4) :
    toArm c n t4 level = (c.toArmed n (c.lt4 + 1) level).toLate n := by
  simp only [toArm, Chip.toArmed, h, hp, ht, Bool.not_true, Bool.false_eq_true, if_false, if_true]

end

theorem toCtlWrite_owned (h : c.bit (TMU_TOn_CFG n) 8 = true) : toCtlWrite c n v = c.refuse :=
  if_pos h

theorem toCtlWrite_arm (h : c.bit (TMU_TOn_CFG n) 8 = false) (hc : wbit v 2 = false) :
    toCtlWrite c n (v ||| 0x1) = (toArm c n (c.toTime n) (wbit v 1)).done := by
  have h0 : wbit (v ||| 0x1) 0 = true := by rw [wbit_or]; exact Bool.or_true _
  have h1 : wbit (v ||| 0x1) 1 = wbit v 1 := by rw [wbit_or]; exact Bool.or_false _
  have h2 : wbit (v ||| 0x1) 2 = false := by rw [wbit_or, hc]; rfl
  simp only [toCtlWrite, h, h0, h1, h2, Bool.false_eq_true, if_false, if_true]

theorem toCtlWrite_cancel (h : c.bit (TMU_TOn_CFG n) 8 = false) (ha : wbit v 0 = false) :
    toCtlWrite c n (v ||| 0x4) = (toCancel c n).done := by
  have h0 : wbit (v ||| 0x4) 0 = false := by rw [wbit_or, ha]; rfl
  have h2 : wbit (v ||| 0x4) 2 = true := by rw [wbit_or]; exact Bool.or_true _
  simp only [toCtlWrite, h, h0, h2, Bool.false_eq_true, if_false, if_true]

/-! The edge that is due (R68, R69): a pulse in progress ends first, then the schedule's next edge comes. -/

theorem toEdge_pulse {i : Nat} (hp : (c.to n).pulse = some i) :
    toEdge c n = if i ≤ c.lt4 then c.placeEdge n { c.to n with pulse := none, held := none } i else c := by
  simp only [toEdge, hp]

theorem toEdge_idle (hp : (c.to n).pulse = none) (hs : (c.to n).sched = none) : toEdge c n = c := by
  simp only [toEdge, hp, hs]

section
variable {s : ToSched} (hp : (c.to n).pulse = none) (hs : (c.to n).sched = some s)
include hp hs

theorem toEdge_notDue (h : c.lt4 < s.next) : toEdge c n = c := by
  simp only [toEdge, hp, hs, if_neg (Nat.not_le.2 h)]

theorem toEdge_toggle (h : s.next ≤ c.lt4) (hm : s.mode = 0) :
    toEdge c n = c.placeEdge n { c.to n with sched := none, held := some s.level } s.next := by
  simp only [toEdge, hp, hs, if_pos h, hm]

theorem toEdge_single (h : s.next ≤ c.lt4) (hm : s.mode = 1) :
    toEdge c n = c.placeEdge n { sched := none, pulse := some (s.next + s.width), held := none } s.next := by
  simp only [toEdge, hp, hs, if_pos h, hm]

theorem toEdge_periodic (h : s.next ≤ c.lt4) (hm : 2 ≤ s.mode) :
    toEdge c n =
      c.placeEdge n ⟨some { s with next := s.next + s.period }, some (s.next + s.width), none⟩ s.next := by
  obtain ⟨k, hk⟩ : ∃ k, s.mode = k + 2 := ⟨s.mode - 2, by omega⟩
  simp only [toEdge, hp, hs, if_pos h, hk]

end

end Sys2Proof.Machine

namespace Sys2Proof
open Machine

/-- Settles O12: the pops by their bit, the edge channel by channel, the ring's entry by its room. -/
theorem stampsAreQueuedAndPopped : Obligations.StampsAreQueuedAndPopped := by
  unfold Obligations.StampsAreQueuedAndPopped
  intro m p v g up q stable c
  refine ⟨fun h => ⟨does_egressStampPop ?_, does_stampRingPop ?_⟩,
    fun h => ⟨does_egressStampPop ?_, does_stampRingPop ?_⟩, does_stampInputEdge ?_, fun s rest hw ht => ?_⟩
  · rw [regWrite_TMU_Pn_EQPOP, egressPop_eq, if_pos h]
  · rw [regWrite_TMU_TSR_POP, ringPop_eq, if_pos h]
  · rw [regWrite_TMU_Pn_EQPOP, egressPop_eq, if_neg (by rw [h]; exact Bool.false_ne_true)]
  · rw [regWrite_TMU_TSR_POP, ringPop_eq, if_neg (by rw [h]; exact Bool.false_ne_true)]
  · unfold stampEdge Chip.stampPin
    simp only [stampAt_eq]
    rfl
  · refine ⟨fun h hb => does_stampRingEntry ?_, fun h hb => does_stampRingEntry ?_, fun h => does_stampRingEntry ?_⟩
    · rw [ringEntry_entered hw ht h]
      exact if_pos hb
    · rw [ringEntry_entered hw ht h]
      exact if_neg (by rw [hb]; exact Bool.false_ne_true)
    · exact ringEntry_lost hw ht h

/-- Settles O13: a write of TMU_TOn_CTL by its two bits, ARM by the pulse in progress and the time, an edge by what the
output still has to place. -/
theorem timedOutputsFollowR68AndR69 : Obligations.TimedOutputsFollowR68AndR69 := by
  unfold Obligations.TimedOutputsFollowR68AndR69
  intro m n v c
  refine ⟨fun h => ⟨does_timedOutputArm ?_, does_timedOutputCancel ?_⟩, fun h => ⟨fun hc => ?_,
    fun ha => does_timedOutputCancel ?_⟩, fun i hp => ?_, fun s hp hs => ?_, fun hp hs => does_timedOutputEdge ?_⟩
  · rw [regWrite_TMU_TOn_CTL, toCtlWrite_owned h]
  · rw [regWrite_TMU_TOn_CTL, toCtlWrite_owned h]
  · have ha := (regWrite_TMU_TOn_CTL (m := m.val) n).trans (toCtlWrite_arm h hc)
    refine ⟨fun hl => does_timedOutputArm ?_, fun hl => ⟨fun i hp hi => does_timedOutputArm ?_,
      fun i hp hi => does_timedOutputArm ?_, fun hp ht => does_timedOutputArm ?_, fun hp ht => does_timedOutputArm ?_⟩⟩
    · rw [ha, toArm_refused hl]
      rfl
    · rw [ha, toArm_afterPulse (t4 := c.toTime n.val) hl hp hi]
      rfl
    · rw [ha, toArm_inPulse (t4 := c.toTime n.val) hl hp hi]
      rfl
    · rw [ha, toArm_inTime (t4 := c.toTime n.val) hl hp ht]
      rfl
    · rw [ha, toArm_late (t4 := c.toTime n.val) hl hp ht]
      rfl
  · rw [regWrite_TMU_TOn_CTL, toCtlWrite_cancel h ha]
    rfl
  · exact ⟨fun h => does_timedOutputEdge ((toEdge_pulse hp).trans (if_pos h)),
      fun h => does_timedOutputEdge ((toEdge_pulse hp).trans (if_neg (Nat.not_le.2 h)))⟩
  · exact ⟨fun h => does_timedOutputEdge (toEdge_notDue hp hs h),
      fun h hm => does_timedOutputEdge (toEdge_toggle hp hs h hm),
      fun h hm => does_timedOutputEdge (toEdge_single hp hs h hm),
      fun h hm => does_timedOutputEdge (toEdge_periodic hp hs h hm)⟩
  · exact toEdge_idle hp hs

end Sys2Proof
end

section
/-!
PROOF. What reset leaves, and register accesses under the access codes (R10 to R15, R32, R58): a plain write by the
register's row, a read that latches for its master, and the accesses that the fabric refuses.
-/
namespace Sys2Proof.Machine

variable {c : Chip} {m a n : Nat} {v : W32}

/-! ### Plain writes and reads by the register's row -/

/-- A write of a register that has no companions and that the master may write (R10, R12). -/
theorem Chip.plainWrite_row {r : RegRow} (h : regRow a = some r) (hc : r.isComp = false) (hs : r.comps = [])
    (hm : r.so = 0 ∨ m = 0) : c.plainWrite m a v = (c.setReg a (r.merge (c.reg a) v (m == 0))).done := by
  have hso : ¬(r.so ≠ 0 ∧ m ≠ 0) := fun ⟨g, k⟩ => hm.elim g k
  simp only [Chip.plainWrite, h, if_neg hso, hc, hs, Bool.false_eq_true, if_false, List.foldl_nil]

/-- A register with supervisor-only fields refuses another master whole (R10; log entry 11). -/
theorem Chip.plainWrite_supervisorOnly {r : RegRow} (h : regRow a = some r) (hs : r.so ≠ 0) (hm : m ≠ 0) :
    c.plainWrite m a v = c.refuse := by
  simp only [Chip.plainWrite, h, if_pos (And.intro hs hm)]

theorem regRead_window2 (h : a / 0x10000 = 0x4002) : regRead c m a = c.plainRead m a := by
  have hp : pfOfs a = none := by
    unfold pfOfs
    rw [if_neg (by omega)]
  have hs : shaftOfs a = none := by
    unfold shaftOfs
    rw [if_neg (by omega)]
  unfold regRead
  rw [clusterGated_not (by omega), if_neg Bool.false_ne_true, if_neg (by unfold MEM_AT_FADD; omega),
    if_neg (by unfold MEM_AT_SWAP; omega), if_neg (by unfold MEM_LK; omega), if_neg (by omega),
    if_neg (by unfold SEC_TRNG_DATA; omega), if_neg (by unfold SYS_GPIO_IN; omega), hp, if_neg (by simp), hs,
    if_neg (by simp)]

/-! ### The registers of the statement -/

theorem merge_allOnes {r : RegRow} {old : W32} {sup : Bool} (hrw : r.rw = 0xFFFFFFFF) (hso : r.so = 0)
    (h1 : r.w1c = 0) (h2 : r.w1s = 0) : r.merge old v sup = v := by
  cases sup <;> simp [RegRow.merge, hrw, hso, h1, h2]

theorem regWrite_TMU_HOLDLIM : regWrite c m TMU_HOLDLIM v = (c.setReg TMU_HOLDLIM (atLeast1 v)).done := by
  have hrow : (regRowsTmu.any fun r => r.covers TMU_HOLDLIM) = true := by decide
  rw [regWrite_window2 (by decide) hrow]
  change c.plainWrite m TMU_HOLDLIM (atLeast1 v) = _
  rw [Chip.plainWrite_row (r := ⟨0x4002002C, 1, 0, 1, 0, 0x186A0, 0xFFFFFFFF, 0, 0, 0, 0, 0, [], false⟩) rfl rfl rfl
    (.inl rfl), merge_allOnes rfl rfl rfl rfl]

theorem regWrite_TMU_EVSTAT :
    regWrite c m TMU_EVSTAT v = (c.setReg TMU_EVSTAT (c.reg TMU_EVSTAT &&& ~~~(v &&& 7))).done := by
  have hrow : (regRowsTmu.any fun r => r.covers TMU_EVSTAT) = true := by decide
  rw [regWrite_window2 (by decide) hrow]
  change c.plainWrite m TMU_EVSTAT v = _
  rw [Chip.plainWrite_row (r := ⟨0x40020004, 1, 0, 1, 0, 0, 0, 0, 7, 0, 0, 0, [], false⟩) rfl rfl rfl (.inl rfl)]
  simp [RegRow.merge]

theorem regWrite_TMU_CTL :
    regWrite c m TMU_CTL v =
      if m = 0 then (c.setReg TMU_CTL ((c.reg TMU_CTL &&& ~~~0x10F) ||| (v &&& 0x10F))).done else c.refuse := by
  have hrow : (regRowsTmu.any fun r => r.covers TMU_CTL) = true := by decide
  rw [regWrite_window2 (by decide) hrow]
  change c.plainWrite m TMU_CTL v = _
  split
  next hm =>
    rw [Chip.plainWrite_row (r := ⟨0x40020000, 1, 0, 1, 0, 0, 0, 0x10F, 0, 0, 0, 0, [], false⟩) rfl rfl rfl (.inr hm)]
    simp [RegRow.merge, hm]
  next hm =>
    exact Chip.plainWrite_supervisorOnly (r := ⟨0x40020000, 1, 0, 1, 0, 0, 0, 0x10F, 0, 0, 0, 0, [], false⟩) rfl
      (by decide) hm

/-- A read of the raw counter's low word latches its high word for the reading master (R15, R58). -/
theorem regRead_TMU_RAW_LO :
    regRead c m TMU_RAW_LO = (c.latch m TMU_RAW_HI (hi32 c.tmu.raw)).answer (.ok (lo32 c.tmu.raw).toNat) := by
  rw [regRead_window2 (by decide)]
  rfl

theorem regRead_TMU_RAW_HI : regRead c m TMU_RAW_HI = c.answer (.ok (c.latchedPart m TMU_RAW_HI).toNat) := by
  rw [regRead_window2 (by decide)]
  rfl

/-- A write-only register reads 0 (R10). -/
theorem regRead_TMU_Dx_CMD : regRead c m (TMU_Dx_CMD 0) = c.answer (.ok 0) := by
  rw [regRead_window2 (by decide)]
  rfl

theorem latchKey_TMU_RAW_HI (k : Nat) : latchKey k TMU_RAW_HI = TMU_RAW_HI + (k + 1) * 2 ^ 32 :=
  if_pos (by decide)

theorem latchedPart_latch_TMU_RAW_HI (k : Nat) :
    (c.latch m TMU_RAW_HI v).latchedPart k TMU_RAW_HI = if k = m then v else c.latchedPart k TMU_RAW_HI := by
  unfold Chip.latch Chip.latchedPart
  rw [tblGet_set, latchKey_TMU_RAW_HI, latchKey_TMU_RAW_HI]
  refine ite_congr (propext ?_) (fun _ => rfl) fun _ => rfl
  omega

/-! ### Accesses that the fabric refuses or passes on (R11, R13) -/

theorem registerWrite_unaligned (hr : regionOf a = .periph) (h : a % 4 ≠ 0 ∨ n ≠ 4) :
    registerWrite c m a n v = c.refuse := by
  have hw : wordAligned a n = false := by
    simp only [wordAligned, Bool.and_eq_false_iff, beq_eq_false_iff_ne]
    exact h
  simp only [registerWrite, hr, hw, Bool.false_eq_true, if_false]

theorem registerRead_unaligned (hr : regionOf a = .periph) (h : a % 4 ≠ 0 ∨ n ≠ 4) :
    registerRead c m a n = c.refuse := by
  have hw : wordAligned a n = false := by
    simp only [wordAligned, Bool.and_eq_false_iff, beq_eq_false_iff_ne]
    exact h
  simp only [registerRead, hr, hw, Bool.false_eq_true, if_false]

theorem registerWrite_unassigned (hr : regionOf a = .unassigned) : registerWrite c m a n v = c.refuse := by
  simp only [registerWrite, hr]

theorem registerRead_unassigned (hr : regionOf a = .unassigned) : registerRead c m a n = c.refuse := by
  simp only [registerRead, hr]

theorem registerWrite_word (hr : regionOf a = .periph) (h : a % 4 = 0) :
    registerWrite c m a 4 v = regWrite c m a v := by
  simp only [registerWrite, hr, wordAligned, h, beq_self_eq_true, Bool.and_self, if_true]

theorem registerRead_word (hr : regionOf a = .periph) (h : a % 4 = 0) : registerRead c m a 4 = regRead c m a := by
  simp only [registerRead, hr, wordAligned, h, beq_self_eq_true, Bool.and_self, if_true]

end Sys2Proof.Machine

namespace Sys2Proof
open Machine

/-- Settles O5: the register file lists nothing, so each register reads its reset value. That memory lists nothing is
log entry 4, and the values of SYS_RSTCAUSE, SYS_STRAP and SYS_IOBSTAT are log entry 8. -/
theorem resetLeavesTheSpecsValues : Obligations.ResetLeavesTheSpecsValues := by
  unfold Obligations.ResetLeavesTheSpecsValues
  refine ⟨rfl, fun a => rfl, rfl, rfl, fun x => ?_, fun n => rfl, rfl, rfl, rfl, rfl, rfl, rfl, rfl, by decide, rfl⟩
  cases x <;> rfl

/-- Settles O6: an access that is no aligned word of a peripheral window is refused; one that is goes by the row of its
register. -/
theorem registerAccessesFollowR10ToR15 : Obligations.RegisterAccessesFollowR10ToR15 := by
  unfold Obligations.RegisterAccessesFollowR10ToR15
  have hword (m : Nat) (c : Chip) (v : W32) (a : Nat) (hr : regionOf a = .periph) (h : a % 4 = 0) (hlt : a < 2 ^ 32) :
      registerWrite c m (BitVec.ofNat 32 a).toNat 4 v = regWrite c m a v := by
    rw [BitVec.toNat_ofNat, Nat.mod_eq_of_lt hlt, registerWrite_word hr h]
  have hread (m : Nat) (c : Chip) (a : Nat) (hr : regionOf a = .periph) (h : a % 4 = 0) (hlt : a < 2 ^ 32) :
      registerRead c m (BitVec.ofNat 32 a).toNat 4 = regRead c m a := by
    rw [BitVec.toNat_ofNat, Nat.mod_eq_of_lt hlt, registerRead_word hr h]
  refine ⟨fun m a v n c => ⟨fun hr h => does_registerWrite (registerWrite_unaligned hr h),
    fun hr => does_registerWrite (registerWrite_unassigned hr),
    fun hr h => does_registerWrite (registerWrite_word hr h), does_registerWrite ?_, does_registerWrite ?_,
    does_registerWrite ?_⟩, fun m a n c => ⟨fun hr h => does_splitRegisterLatch (registerRead_unaligned hr h),
    fun hr => does_splitRegisterLatch (registerRead_unassigned hr), (does_splitRegisterLatch rfl).gives ?_,
    does_splitRegisterLatch ?_, does_splitRegisterLatch ?_⟩⟩
  · rw [hword m.val c v TMU_HOLDLIM (by decide) (by decide) (by decide), regWrite_TMU_HOLDLIM]
    rfl
  · rw [hword m.val c v TMU_EVSTAT (by decide) (by decide) (by decide), regWrite_TMU_EVSTAT]
  · rw [hword m.val c v TMU_CTL (by decide) (by decide) (by decide), regWrite_TMU_CTL]
  · rw [hread m.val c TMU_RAW_LO (by decide) (by decide) (by decide), regRead_TMU_RAW_LO]
    refine ⟨rfl, ?_, fun k hk => ?_, rfl⟩
    · exact (latchedPart_latch_TMU_RAW_HI m.val).trans (if_pos rfl)
    · exact (latchedPart_latch_TMU_RAW_HI k).trans (if_neg hk)
  · rw [hread m.val c TMU_RAW_HI (by decide) (by decide) (by decide), regRead_TMU_RAW_HI]
  · rw [hread m.val c (TMU_Dx_CMD 0) (by decide) (by decide) (by decide), regRead_TMU_Dx_CMD]

end Sys2Proof
end

section
/-!
PROOF. The shafts (R76, R77, R79, R81, R82, R86, R92): what a write of ANG's registers starts, and what an update instant
and the timers make of a shaft.
-/
namespace Sys2Proof.Machine

variable {c : Chip} {n m : Nat} {v w : W32}

/-! ### Writes that start work -/

theorem shaftCmdWrite_tooMany (h : 1 < bitCount w 3) :
    shaftCmdWrite c n w = (c.flag (ANG_SHn_FLAGS n) 8 (96 + n)).done :=
  if_pos h

/-- The command that each bit of ANG_SHn_CMD names (R81): `shaftCmdWrite_onlyBit` ties it to the write. -/
def shaftCmdOf : Fin 3 → ShCmd
  | 0 => .follow
  | 1 => .master
  | 2 => .idle

theorem shaftCmdWrite_onlyBit (k : Fin 3) (h : OnlyBit w 3 k.val) :
    shaftCmdWrite c n w =
      (c.setShaft n { c.shaft n with cmds := (c.shaft n).cmds ++ [(c.ltUs + 2, shaftCmdOf k)] }).done := by
  unfold shaftCmdWrite
  rw [bitCount_of_onlyBit k.isLt h, h 0 (by omega), h 1 (by omega), h 2 (by omega)]
  match k with
  | 0 | 1 | 2 => rfl

/-- A sample that meets every condition of R79 is refused by none of its checks. -/
theorem sampleRefusal_none {x : Sample}
    (hst : (c.shaft n).st = .follow ∨ (c.shaft n).st = .coast ∨
      ((c.shaft n).st = .lost ∧ c.bit (ANG_SHn_CFG n) 31 = true))
    (hq0 : x.quality / 16 ≠ 0) (hq4 : x.quality / 16 < 4) (hq : c.fld (ANG_SHn_CFG n) 11 8 ≤ x.quality / 16)
    (hd : c.bit (ANG_SHn_CFG n) 30 = false ∨ x.domain = (c.reg ANG_DOMAIN).toNat)
    (hlo : c.lt + instant 2 ≤ x.tv) (hhi : x.tv ≤ c.lt + instant 65535)
    (hnew : ∀ y, (c.shaft n).newestTv = some y → y < x.tv) (hp : (c.shaft n).pend.length < 8) :
    c.sampleRefusal n x = none := by
  have h1 : ¬((c.shaft n).st = .idle ∨ (c.shaft n).st = .master ∨
      ((c.shaft n).st = .lost ∧ wbit (c.reg (ANG_SHn_CFG n)) 31 = false)) := by
    rcases hst with e | e | ⟨e, hb⟩
    · simp [e]
    · simp [e]
    · have hb' : wbit (c.reg (ANG_SHn_CFG n)) 31 = true := hb
      simp [e, hb']
  have h2 : ¬(x.quality / 16 = 0 ∨ 4 ≤ x.quality / 16 ∨ x.quality / 16 < wfld (c.reg (ANG_SHn_CFG n)) 11 8) := by
    have hq' : wfld (c.reg (ANG_SHn_CFG n)) 11 8 ≤ x.quality / 16 := hq
    omega
  have h3 : ¬(wbit (c.reg (ANG_SHn_CFG n)) 30 = true ∧ x.domain ≠ (c.reg ANG_DOMAIN).toNat) := by
    rintro ⟨hb, hne⟩
    rcases hd with e | e
    · exact absurd (hb.symm.trans e) (by decide)
    · exact hne e
  have h4 : ((c.shaft n).newestTv.any fun t => decide (x.tv ≤ t)) = false := by
    cases e : (c.shaft n).newestTv with
    | none => rfl
    | some y => exact decide_eq_false (Nat.not_le.2 (hnew y e))
  unfold Chip.sampleRefusal
  simp only [if_neg h1, if_neg h2, if_neg h3, if_neg (Nat.not_lt.2 hlo), if_neg (Nat.not_lt.2 hhi), h4,
    Bool.false_eq_true, if_false, if_neg (Nat.ne_of_lt hp)]

theorem sampleSubmit_taken (hv : wbit v 0 = true)
    (h : c.sampleRefusal n (sampleOf ((List.range 9).map fun i => c.reg (ANG_SHn_IN n i))) = none) :
    sampleSubmit c n v =
      ((c.setShaft n { c.shaft n with
        pend := insertSample (c.shaft n).pend
          (sampleOf ((List.range 9).map fun i => c.reg (ANG_SHn_IN n i))) }).inc (ANG_SHn_REFCNT n)).done := by
  simp only [sampleSubmit, hv, if_true, h]

theorem sampleSubmit_refused {f : Nat} (hv : wbit v 0 = true)
    (h : c.sampleRefusal n (sampleOf ((List.range 9).map fun i => c.reg (ANG_SHn_IN n i))) = some f) :
    sampleSubmit c n v = ((c.flag (ANG_SHn_FLAGS n) f (96 + n)).inc (ANG_SHn_REFUSED n)).done := by
  simp only [sampleSubmit, hv, if_true, h]
  rfl

theorem s2aStart_free (h : tblGet none c.ang.s2a n = none) :
    s2aStart c n (v ||| 0x80000000) =
      (({ c with ang := { c.ang with s2a := tblSet none c.ang.s2a n (some (c.s2aResult (wfld v 3 0)
        (c.reg64 (ANG_S2As_T_LO n) * 65536 + (c.reg (ANG_S2As_T_FRAC n)).toNat))) } } : Chip).setReg
          (ANG_S2As_STAT n) 0x80000000).done := by
  have hgo : wbit (v ||| 0x80000000) 31 = true := by rw [wbit_or]; exact Bool.or_true _
  have hfld : wfld (v ||| 0x80000000) 3 0 = wfld v 3 0 := by
    simp [wfld, nfld, BitVec.toNat_or, Nat.or_mod_two_pow (n := 4)]
  simp only [s2aStart, hgo, h, and_self, if_true, hfld]

theorem s2aStart_busy (h : tblGet none c.ang.s2a n ≠ none) : s2aStart c n w = c.done :=
  if_neg fun g => h g.2

theorem s2aDone_some {r : S2a} (h : tblGet none c.ang.s2a n = some r) :
    s2aDone c n =
      ((({ c with ang := { c.ang with s2a := tblSet none c.ang.s2a n none } } : Chip).setReg64
        (ANG_S2As_RES_LO n) r.res).setReg (ANG_S2As_STAT n) (w32 (0x40000000 + r.code))) := by
  simp only [s2aDone, h]

/-- A write to register `r` of angle event `e`: PERIOD's high word (3) alone takes effect at once (R92). -/
theorem aeWrite_eq (e : Fin 1024) (r : Fin 5) :
    aeWrite c m (ANG_AEn_CFG e.val + 4 * r.val) v =
      (let d := c.plainWrite m (ANG_AEn_CFG e.val + 4 * r.val) v
       if r.val = 3 then d
       else d.setAe e.val { d.ae e.val with writes := (d.ae e.val).writes ++ [(c.ltUs + 2, decide (r.val = 0),
         ⟨d.reg (ANG_AEn_CFG e.val), d.reg (ANG_AEn_ACT e.val), d.reg64 (ANG_AEn_POS_LO e.val),
           (d.reg (ANG_AEn_PERIOD e.val)).toNat⟩)] }) := by
  have he := e.isLt
  have hr := r.isLt
  have hn : (ANG_AEn_CFG e.val + 4 * r.val - 0x40034000) / 0x20 = e.val := by unfold ANG_AEn_CFG; omega
  have ho : (ANG_AEn_CFG e.val + 4 * r.val - 0x40034000) % 0x20 = 4 * r.val := by unfold ANG_AEn_CFG; omega
  have hz : decide (4 * r.val = 0) = decide (r.val = 0) := decide_eq_decide.2 (by omega)
  simp only [aeWrite, hn, ho, hz]
  by_cases h3 : r.val = 3
  · rw [if_neg (by omega), if_pos h3]
  · rw [if_pos (by omega), if_neg h3]

/-! ### A shaft's update (R76) -/

section
variable {s : Shaft} {k : ShaftCfg} {u : Nat}

/-- No sample is due, or none may be taken: the residual is paid out. -/
theorem Shaft.activate_paid
    (h : (s.st = .lost ∧ k.autoResume = false) ∨ ∀ p rest, s.pend = p :: rest → instant u < p.tv) :
    s.activate k u = (s.setE u (s.e - clamp s.e (-k.b) k.b), ⟨[], false, false⟩) := by
  unfold Shaft.activate
  cases hp : s.pend with
  | nil => rfl
  | cons p rest =>
    have hn : instant u < p.tv ∨ (s.st = .lost ∧ k.autoResume = false) := h.symm.imp_left fun g => g p rest hp
    exact if_pos hn

theorem Shaft.setE_e (e : Int) : (s.setE u e).e = e := by
  unfold Shaft.setE
  split
  next h => exact h.symm
  next => rfl

theorem Shaft.setE_st (e : Int) : (s.setE u e).st = s.st := by
  unfold Shaft.setE
  split <;> rfl

theorem Shaft.setE_pend (e : Int) : (s.setE u e).pend = s.pend := by
  unfold Shaft.setE
  split <;> rfl

/-- A segment's angle does not depend on the residuals noted in it. -/
theorem Shaft.setE_thetaS (e : Int) (t : Nat) : (s.setE u e).thetaS t = s.thetaS t := by
  unfold Shaft.setE
  split
  · rfl
  · unfold Shaft.thetaS
    cases s.segs <;> rfl

/-- Whether an activation adopts the sample as it stands (R76, R81). -/
def Shaft.adopts (s : Shaft) : Bool := s.st == .lost || (s.st == .follow && s.adoptWait)

theorem Shaft.adopts_iff : s.adopts = true ↔ s.st = .lost ∨ (s.st = .follow ∧ s.adoptWait = true) := by
  simp only [Shaft.adopts, Bool.or_eq_true, Bool.and_eq_true, beq_iff_eq]

/-- The residual with which the segment of sample `p` begins: `Shaft.activate_due` ties it to the activation. -/
def Shaft.dueE (s : Shaft) (k : ShaftCfg) (u : Nat) (p : Sample) : Int :=
  if s.adopts then 0
  else angDiff ((s.thetaS (instant u) : Int) + (s.e - clamp s.e (-k.b) k.b))
    ((Seg.mk (instant u) p.tv p.th p.v p.a []).theta (instant u))

theorem Shaft.activate_due {p : Sample} {rest : List Sample} (hp : s.pend = p :: rest) (ht : p.tv ≤ instant u)
    (hl : s.st = .lost → k.autoResume = true) :
    (s.activate k u).1 = { s.newSeg u p.tv p.th p.v p.a (s.dueE k u p) with
      st := if s.st = .master then ShSt.master else .follow
      adoptWait := false, pend := rest, lastTv := some p.tv, timer := u } := by
  have hn : ¬(instant u < p.tv ∨ (s.st = .lost ∧ k.autoResume = false)) := by
    rintro (g | ⟨g, ha⟩)
    · omega
    · exact absurd ((hl g).symm.trans ha) (by decide)
  unfold Shaft.activate
  simp only [hp, if_neg hn]
  rfl

end

/-! ### The device's update instant and timers -/

theorem angleInstant_notDue (h : c.dueInstant = none) : angleInstant c = c := by
  simp only [angleInstant, h]

theorem angleInstant_due {u : Nat} (h : c.dueInstant = some u) :
    angleInstant c =
      (let ran := c.ang.shafts.foldl (fun d e => shaftInstant d e.1 u) c
       evaluate { ran with ang := { ran.ang with u := u } } (u + 1)) := by
  simp only [angleInstant, h]

theorem reftoExpiry_due (hs : (c.shaft n).st = .follow) (ha : (c.shaft n).adoptWait = false)
    (ht : (c.reg (ANG_SHn_REFTO n)).toNat ≤ c.ang.u - (c.shaft n).timer) :
    reftoExpiry c n =
      (let s := c.shaft n
       let t := instant c.ang.u
       (c.setShaft n ({ s.newSeg c.ang.u t (s.thetaS t) (s.velS t) 0 s.e with
         st := .coast, timer := c.ang.u }.show c.ang.u)).raise (96 + n) 0) := by
  have hr : (c.shaft n).refto (c.shaftCfg n) c.ang.u = some _ := if_pos ⟨hs, ha, ht⟩
  simp only [reftoExpiry, hr]

theorem reftoExpiry_notDue (h : (c.shaft n).st ≠ .follow ∨ (c.shaft n).adoptWait = true ∨
    c.ang.u - (c.shaft n).timer < (c.reg (ANG_SHn_REFTO n)).toNat) : reftoExpiry c n = c := by
  have hr : (c.shaft n).refto (c.shaftCfg n) c.ang.u = none := by
    refine if_neg fun ⟨hs, ha, ht⟩ => ?_
    rcases h with g | g | g
    · exact g hs
    · exact absurd (g.symm.trans ha) (by decide)
    · exact absurd ht (Nat.not_le.2 g)
  simp only [reftoExpiry, hr]

theorem coastlimExpiry_due (hs : (c.shaft n).st = .coast)
    (ht : (c.reg (ANG_SHn_COASTLIM n)).toNat ≤ c.ang.u - (c.shaft n).timer) :
    coastlimExpiry c n =
      (let s := c.shaft n
       let t := instant c.ang.u
       (c.setShaft n ({ s.newSeg c.ang.u t (wrap 64 ((s.thetaS t : Int) + s.e)) 0 0 0 with
         st := .lost, pend := [], timer := c.ang.u }.show c.ang.u)).raise (96 + n) 0) := by
  have hr : (c.shaft n).coastlim (c.shaftCfg n) c.ang.u = some _ := if_pos ⟨hs, ht⟩
  simp only [coastlimExpiry, hr]

theorem coastlimExpiry_notDue (h : (c.shaft n).st ≠ .coast ∨
    c.ang.u - (c.shaft n).timer < (c.reg (ANG_SHn_COASTLIM n)).toNat) : coastlimExpiry c n = c := by
  have hr : (c.shaft n).coastlim (c.shaftCfg n) c.ang.u = none := by
    refine if_neg fun ⟨hs, ht⟩ => ?_
    rcases h with g | g
    · exact g hs
    · exact absurd ht (Nat.not_le.2 g)
  simp only [coastlimExpiry, hr]

end Sys2Proof.Machine

namespace Sys2Proof
open Machine

/-- Settles O14: a command by its one bit, a sample by R79's checks, a conversion by its slot, an event's register by
its offset. -/
theorem angleRegistersStartWork : Obligations.AngleRegistersStartWork := by
  unfold Obligations.AngleRegistersStartWork
  intro m n k e r v c
  have hcmd (b : Fin 3) (w : W32) (h : OnlyBit w 3 b.val) :=
    (regWrite_ANG_SHn_CMD (c := c) (m := m.val) n).trans (shaftCmdWrite_onlyBit b h)
  have hmany (w : W32) (h : 1 < bitCount w 3) :=
    (regWrite_ANG_SHn_CMD (c := c) (m := m.val) n).trans (shaftCmdWrite_tooMany h)
  refine ⟨fun h => does_shaftFollow (hcmd 0 _ h), fun h => does_shaftMaster (hcmd 1 _ h),
    fun h => does_shaftIdle (hcmd 2 _ h), fun h => does_shaftFollow (hmany _ h), fun h => does_shaftMaster (hmany _ h),
    fun h => does_shaftIdle (hmany _ h), fun hv => ⟨fun hst hq0 hq4 hq hd hlo hhi hnew hp => does_sampleSubmit ?_,
    fun f hf => does_sampleSubmit ?_⟩, fun hv => does_sampleSubmit ?_, fun h => does_stampToAngleStart ?_,
    fun h => does_stampToAngleStart ?_, fun w h => does_stampToAngleDone (s2aDone_some h),
    fun h => does_angleEventWrite ?_, fun h => does_angleEventWrite ?_⟩
  · rw [regWrite_ANG_SHn_INCMT, sampleSubmit_taken hv (sampleRefusal_none hst hq0 hq4 hq hd hlo hhi hnew hp)]
  · rw [regWrite_ANG_SHn_INCMT, sampleSubmit_refused hv hf]
  · rw [regWrite_ANG_SHn_INCMT, sampleSubmit, hv, if_neg Bool.false_ne_true]
  · rw [regWrite_ANG_S2As_CTL, s2aStart_free h]
  · rw [regWrite_ANG_S2As_CTL, s2aStart_busy h]
  · rw [regWrite_ANG_AEn, aeWrite_eq]
    exact if_neg h
  · rw [regWrite_ANG_AEn, aeWrite_eq]
    exact if_pos h

/-- Settles O15: no sample is due, or one is; then the device's instant and its two timers. -/
theorem shaftsFollowR76AndR81 : Obligations.ShaftsFollowR76AndR81 := by
  unfold Obligations.ShaftsFollowR76AndR81
  refine ⟨fun s k u _ h => ?_, fun s k u p rest hp ht hl => ?_, fun s u => ⟨rfl, rfl⟩, fun n c =>
    ⟨fun h => does_angleUpdateInstant (angleInstant_notDue h), fun u h => does_angleUpdateInstant (angleInstant_due h),
      fun hs ha ht => does_reftoExpiry (reftoExpiry_due hs ha ht), fun hs ht => does_coastlimExpiry (coastlimExpiry_due hs ht),
      fun h => does_reftoExpiry (reftoExpiry_notDue h), fun h => does_coastlimExpiry (coastlimExpiry_notDue h)⟩⟩
  · rw [Shaft.activate_paid h]
    exact ⟨Shaft.setE_e _, Shaft.setE_st _, Shaft.setE_pend _, Shaft.setE_thetaS _ _⟩
  · rw [Shaft.activate_due hp ht hl]
    refine ⟨rfl, rfl, rfl, rfl, rfl, fun ha => ?_, fun ha => ?_⟩
    · exact if_pos (Shaft.adopts_iff.2 ha)
    · exact if_neg fun g => ha (Shaft.adopts_iff.1 g)

end Sys2Proof
end

section
/-!
PROOF. Generation by a shaft master and the read of its output words (R83, R84), firings of angle events (R91) and
echoes of the line protocol (R95 to R98).
-/
namespace Sys2Proof.Machine

variable {c : Chip} {m n u : Nat}

/-! ### Words written to a row of registers -/

section
variable (f : Nat → Nat)

/-- The words `ws` written to the registers at `f k`, `f (k + 1)` and so on. -/
def Chip.setRegs (c : Chip) (ws : List W32) (k : Nat) : Chip :=
  (ws.zipIdx k).foldl (fun c p => c.setReg (f p.2) p.1) c

theorem Chip.setRegs_cons (c : Chip) (w : W32) (ws : List W32) (k : Nat) :
    c.setRegs f (w :: ws) k = (c.setReg (f k) w).setRegs f ws (k + 1) := rfl

theorem Chip.setRegs_frame (c : Chip) (ws : List W32) (k : Nat) :
    c.setRegs f ws k = { c with regs := (c.setRegs f ws k).regs } := by
  induction ws generalizing c k with
  | nil => rfl
  | cons w ws ih =>
    rw [Chip.setRegs_cons]
    exact ih (c.setReg (f k) w) (k + 1)

theorem Chip.reg_setRegs_other {a : Nat} (ws : List W32) (c : Chip) (k : Nat) (h : ∀ i, i < k + ws.length → a ≠ f i) :
    (c.setRegs f ws k).reg a = c.reg a := by
  induction ws generalizing c k with
  | nil => rfl
  | cons w ws ih =>
    rw [List.length_cons] at h
    rw [Chip.setRegs_cons, ih _ _ fun i hi => h i (by omega), Chip.reg_setReg_other _ _ (h k (by omega))]

theorem Chip.reg_setRegs_below (hf : ∀ i j, f i = f j → i = j) (c : Chip) (ws : List W32) {i k : Nat} (h : i < k) :
    (c.setRegs f ws k).reg (f i) = c.reg (f i) := by
  induction ws generalizing c k with
  | nil => rfl
  | cons w ws ih =>
    rw [Chip.setRegs_cons, ih _ (by omega), Chip.reg_setReg_other _ _ fun e => Nat.ne_of_lt h (hf _ _ e)]

theorem Chip.reg_setRegs (hf : ∀ i j, f i = f j → i = j) (c : Chip) (ws : List W32) (i k : Nat) (h : i < ws.length) :
    (c.setRegs f ws k).reg (f (k + i)) = ws.getD i 0 := by
  induction ws generalizing c i k with
  | nil => exact absurd h (Nat.not_lt_zero i)
  | cons w ws ih =>
    rw [Chip.setRegs_cons]
    cases i with
    | zero => exact (Chip.reg_setRegs_below f hf _ ws (Nat.lt_succ_self k)).trans (Chip.reg_setReg_same ..)
    | succ i =>
      rw [show k + (i + 1) = k + 1 + i by omega]
      exact ih _ i (k + 1) (Nat.lt_of_succ_lt_succ h)

end

/-! ### A generation time (R83) -/

theorem ANG_SHn_OUT_injective (n i j : Nat) (h : ANG_SHn_OUT n i = ANG_SHn_OUT n j) : i = j := by
  unfold ANG_SHn_OUT at h
  omega

theorem Chip.masterSample_pend : (c.masterSample n u).2.pend = (c.shaft n).pend := by
  unfold Chip.masterSample
  dsimp only
  split <;> rfl

/-- The shaft with its newest sample noted, and queued where there is room. -/
def Chip.genShaft (c : Chip) (n : Nat) : Chip :=
  let (x, s) := c.masterSample n c.ang.u
  c.setShaft n { s with
    outNew := true, pend := if s.pend.length = 8 then s.pend else insertSample s.pend x }

/-- The device before the output words are written: a sample that finds eight pending is refused. -/
def Chip.genQueued (c : Chip) (n : Nat) : Chip :=
  if (c.shaft n).pend.length = 8 then ((c.genShaft n).shFlag n 4).inc (ANG_SHn_REFUSED n) else c.genShaft n

theorem generateSample_due (h : (c.shaft n).st = .master ∧ c.ang.u % (c.reg (ANG_SHn_PERIOD n)).toNat = 0 ∧
    (c.shaft n).lastGen ≠ c.ang.u + 1) :
    generateSample c n =
      (let d := (c.genQueued n).setRegs (ANG_SHn_OUT n) (c.masterSample n c.ang.u).1.words 0
       (d.setReg (ANG_SHn_OUTSEQ n) (w32 (((d.reg (ANG_SHn_OUTSEQ n)).toNat + 1) % 65536))).raise (96 + n) 0) := by
  have hq : (c.genQueued n) = if (c.masterSample n c.ang.u).2.pend.length = 8 then
      ((c.genShaft n).shFlag n 4).inc (ANG_SHn_REFUSED n) else c.genShaft n := by
    rw [Chip.masterSample_pend]
    rfl
  rw [hq]
  exact if_pos h

theorem Chip.genQueued_frame :
    c.genQueued n = { c with regs := (c.genQueued n).regs, ang := (c.genShaft n).ang, evt := (c.genQueued n).evt } := by
  unfold Chip.genQueued
  split
  · unfold Chip.shFlag
    rw [Chip.flag_frame]
    rfl
  · rfl

theorem Chip.genShaft_shaft_same : ((c.genShaft n).shaft n).outNew = true ∧ ((c.genShaft n).shaft n).pend =
    if (c.shaft n).pend.length = 8 then (c.shaft n).pend
    else insertSample (c.shaft n).pend (c.masterSample n c.ang.u).1 := by
  unfold Chip.genShaft Chip.setShaft Chip.shaft
  simp only [tblGet_set_same, true_and]
  rw [Chip.masterSample_pend]
  rfl

theorem Chip.genShaft_shaft_other {k : Nat} (h : k ≠ n) : (c.genShaft n).shaft k = c.shaft k :=
  tblGet_set_other _ _ _ _ h

/-- The register of a shaft's master's output that a generation time counts on. -/
theorem Chip.genQueued_outseq : (c.genQueued n).reg (ANG_SHn_OUTSEQ n) = c.reg (ANG_SHn_OUTSEQ n) := by
  unfold Chip.genQueued
  split
  · unfold Chip.shFlag Chip.flag
    rw [Chip.reg_inc, if_neg (by unfold ANG_SHn_OUTSEQ ANG_SHn_REFUSED; omega), Chip.reg_raise,
      if_neg (by unfold ANG_SHn_OUTSEQ EVT_PEND; omega), Chip.reg_setBit,
      if_neg (by unfold ANG_SHn_OUTSEQ ANG_SHn_FLAGS; omega)]
    rfl
  · rfl

theorem Chip.genQueued_pendOvf (h : (c.shaft n).pend.length = 8) : (c.genQueued n).bit (ANG_SHn_FLAGS n) 4 = true := by
  unfold Chip.genQueued Chip.bit Chip.shFlag Chip.flag
  rw [if_pos h, Chip.reg_inc, if_neg (by unfold ANG_SHn_FLAGS ANG_SHn_REFUSED; omega), Chip.reg_raise,
    if_neg (by unfold ANG_SHn_FLAGS EVT_PEND; omega), Chip.reg_setBit, if_pos rfl]
  exact (wbit_wsetBit _ _ _ _ (by decide)).trans (if_pos rfl)

theorem Sample.words_length (x : Sample) : x.words.length = 9 := rfl

section
variable {v : W32} {i : Nat}

/-- What the end of a generation time leaves in the other registers. -/
theorem reg_generated_other {a : Nat} (h1 : a ≠ ANG_SHn_OUTSEQ n) (h2 : a ≠ EVT_PEND ((96 + n) / 32)) (d : Chip) :
    ((d.setReg (ANG_SHn_OUTSEQ n) v).raise (96 + n) 0).reg a = d.reg a := by
  rw [Chip.reg_raise, if_neg h2, Chip.reg_setReg_other _ _ h1]

theorem generateSample_out
    (h : (c.shaft n).st = .master ∧ c.ang.u % (c.reg (ANG_SHn_PERIOD n)).toNat = 0 ∧ (c.shaft n).lastGen ≠ c.ang.u + 1)
    (hn : n < 16) (hi : i < 9) :
    (generateSample c n).reg (ANG_SHn_OUT n i) = (c.masterSample n c.ang.u).1.words.getD i 0 := by
  rw [generateSample_due h]
  refine (reg_generated_other ?_ ?_ _).trans ?_
  · unfold ANG_SHn_OUT ANG_SHn_OUTSEQ
    omega
  · unfold ANG_SHn_OUT EVT_PEND
    omega
  · have hw := Chip.reg_setRegs (ANG_SHn_OUT n) (ANG_SHn_OUT_injective n) (c.genQueued n)
      (c.masterSample n c.ang.u).1.words i 0 hi
    rwa [Nat.zero_add] at hw

theorem ANG_SHn_OUT_ne_OUTSEQ {x : Sample} (hi : i < 0 + x.words.length) : ANG_SHn_OUTSEQ n ≠ ANG_SHn_OUT n i := by
  rw [Sample.words_length] at hi
  unfold ANG_SHn_OUTSEQ ANG_SHn_OUT
  omega

theorem generateSample_outseq
    (h : (c.shaft n).st = .master ∧ c.ang.u % (c.reg (ANG_SHn_PERIOD n)).toNat = 0 ∧ (c.shaft n).lastGen ≠ c.ang.u + 1) :
    ((generateSample c n).reg (ANG_SHn_OUTSEQ n)).toNat = ((c.reg (ANG_SHn_OUTSEQ n)).toNat + 1) % 65536 := by
  rw [generateSample_due h]
  refine (congrArg BitVec.toNat ((Chip.reg_raise ..).trans ?_)).trans
    (BitVec.toNat_ofNat (w := 32) (((c.reg (ANG_SHn_OUTSEQ n)).toNat + 1) % 65536)) |>.trans ?_
  · rw [if_neg (by unfold ANG_SHn_OUTSEQ EVT_PEND; omega), Chip.reg_setReg_same,
      Chip.reg_setRegs_other _ _ _ _ fun i hi => ANG_SHn_OUT_ne_OUTSEQ hi, Chip.genQueued_outseq]
    rfl
  · omega

theorem generateSample_pendOvf
    (h : (c.shaft n).st = .master ∧ c.ang.u % (c.reg (ANG_SHn_PERIOD n)).toNat = 0 ∧ (c.shaft n).lastGen ≠ c.ang.u + 1)
    (hp : (c.shaft n).pend.length = 8) : (generateSample c n).bit (ANG_SHn_FLAGS n) 4 = true := by
  rw [generateSample_due h]
  refine (congrArg (wbit · 4) ((reg_generated_other ?_ ?_ _).trans ?_)).trans (Chip.genQueued_pendOvf hp)
  · unfold ANG_SHn_FLAGS ANG_SHn_OUTSEQ
    omega
  · unfold ANG_SHn_FLAGS EVT_PEND
    omega
  · exact Chip.reg_setRegs_other _ _ _ 0 fun i _ => by unfold ANG_SHn_FLAGS ANG_SHn_OUT; omega

/-- A generation time writes registers and shafts and raises a source, and does nothing else. -/
theorem generateSample_frame
    (h : (c.shaft n).st = .master ∧ c.ang.u % (c.reg (ANG_SHn_PERIOD n)).toNat = 0 ∧ (c.shaft n).lastGen ≠ c.ang.u + 1) :
    generateSample c n =
      { c with
        regs := (generateSample c n).regs, ang := (c.genShaft n).ang, evt := (generateSample c n).evt } := by
  rw [generateSample_due h]
  dsimp only
  rw [Chip.setRegs_frame, Chip.genQueued_frame]
  rfl

theorem generateSample_ang
    (h : (c.shaft n).st = .master ∧ c.ang.u % (c.reg (ANG_SHn_PERIOD n)).toNat = 0 ∧ (c.shaft n).lastGen ≠ c.ang.u + 1) :
    (generateSample c n).ang = (c.genShaft n).ang := by
  have g := congrArg Chip.ang (generateSample_frame h)
  exact g

end

/-! ### The read of the output words (R83) -/

theorem latchKey_injective {m a b : Nat} (ha : a < 2 ^ 32) (hb : b < 2 ^ 32) (h : latchKey m a = latchKey m b) :
    a = b := by
  unfold latchKey at h
  split at h <;> split at h <;> omega

theorem Chip.latchedPart_latch {a b : Nat} (ha : a < 2 ^ 32) (hb : b < 2 ^ 32) (v : W32) :
    (c.latch m a v).latchedPart m b = if b = a then v else c.latchedPart m b := by
  split
  next h =>
    subst h
    exact tblGet_set_same ..
  next h => exact tblGet_set_other _ _ _ _ fun e => h (latchKey_injective hb ha e)

/-- A read that latches the registers at the offsets `ds` holds each one's value for its master (R15). -/
theorem Chip.latchedPart_latches {a d : Nat} (g : Nat → W32) (hd : a + d < 2 ^ 32) (ds : List Nat)
    (hds : ∀ x ∈ ds, a + x < 2 ^ 32) (c : Chip) (h : d ∈ ds ∨ c.latchedPart m (a + d) = g d) :
    (ds.foldl (fun c' x => c'.latch m (a + x) (g x)) c).latchedPart m (a + d) = g d := by
  induction ds generalizing c with
  | nil => exact h.resolve_left List.not_mem_nil
  | cons x ds ih =>
    refine ih (fun y hy => hds y (List.mem_cons_of_mem x hy)) _ ?_
    rw [Chip.latchedPart_latch (hds x List.mem_cons_self) hd]
    by_cases hne : d = x
    · subst hne
      exact .inr (if_pos rfl)
    · rw [if_neg (by omega)]
      exact h.imp_left fun g => (List.mem_cons.1 g).resolve_left hne

theorem Chip.latches_frame {a : Nat} (g : Nat → W32) (ds : List Nat) (c : Chip) :
    ds.foldl (fun c' x => c'.latch m (a + x) (g x)) c =
      { c with latched := (ds.foldl (fun c' x => c'.latch m (a + x) (g x)) c).latched } := by
  induction ds generalizing c with
  | nil => rfl
  | cons x ds ih => exact ih (c.latch m (a + x) (g x))

/-- The offsets of the output words that a read of the first one latches. -/
def outOffsets : List Nat := [4, 8, 12, 16, 20, 24, 28, 32]

theorem latches_ANG_SHn_OUT : ∀ n : Fin 16, latches (ANG_SHn_OUT n.val 0) = outOffsets := by decide

theorem isLatched_ANG_SHn_OUT : ∀ n : Fin 16, isLatched (ANG_SHn_OUT n.val 0) = false := by decide

theorem regRow_ANG_SHn_OUT : ∀ n : Fin 16, regRow (ANG_SHn_OUT n.val 0) =
    some ⟨0x40031080, 16, 256, 9, 4, 0, 0, 0, 0, 0, 0, 0xFFFFFFFF, [], false⟩ := by
  decide

theorem angLive_ANG_SHn_OUT (n : Fin 16) {i : Nat} (hi : i < 9) (c : Chip) :
    angLive c (ANG_SHn_OUT n.val i) = c.reg (ANG_SHn_OUT n.val i) := by
  have hn := n.isLt
  have hb : 0x1000 ≤ ANG_SHn_OUT n.val i - 0x40030000 ∧ ANG_SHn_OUT n.val i - 0x40030000 < 0x2000 := by
    unfold ANG_SHn_OUT
    omega
  have ho : ANG_SHn_OUT n.val i % 0x100 = 0x80 + 4 * i := by
    unfold ANG_SHn_OUT
    omega
  unfold angLive
  simp only [if_pos hb, ho]
  generalize ANG_SHn_OUT n.val i = a
  have hcases : i = 0 ∨ i = 1 ∨ i = 2 ∨ i = 3 ∨ i = 4 ∨ i = 5 ∨ i = 6 ∨ i = 7 ∨ i = 8 := by omega
  obtain rfl | rfl | rfl | rfl | rfl | rfl | rfl | rfl | rfl := hcases
  all_goals rfl

theorem Chip.regLive_ANG_SHn_OUT (n : Fin 16) {i : Nat} (hi : i < 9) (c : Chip) :
    c.regLive m (ANG_SHn_OUT n.val i) = c.reg (ANG_SHn_OUT n.val i) := by
  have hn := n.isLt
  have hw : ANG_SHn_OUT n.val i / 0x10000 % 0x100 = 3 := by
    unfold ANG_SHn_OUT
    omega
  refine Eq.trans ?_ (angLive_ANG_SHn_OUT n hi c)
  unfold Chip.regLive
  simp only [hw]

/-- The device once a read of the first output word has latched the others for its master. -/
def Chip.outLatched (c : Chip) (m : Nat) (n : Fin 16) : Chip :=
  outOffsets.foldl (fun c' x => c'.latch m (ANG_SHn_OUT n.val 0 + x) (c.regLive m (ANG_SHn_OUT n.val 0 + x))) c

theorem Chip.outLatched_frame (n : Fin 16) :
    c.outLatched m n = { c with latched := (c.outLatched m n).latched } :=
  Chip.latches_frame (fun x => c.regLive m (ANG_SHn_OUT n.val 0 + x)) outOffsets c

theorem sampleOutRead_eq (n : Fin 16) :
    sampleOutRead c m n.val =
      outRead ((c.outLatched m n).answer (.ok (c.reg (ANG_SHn_OUT n.val 0)).toNat)) n.val := by
  have hn := n.isLt
  have hc : ¬(0x40034000 ≤ ANG_SHn_OUT n.val 0 ∧ ANG_SHn_OUT n.val 0 < 0x4003C000 ∧ false = true) :=
    fun h => Bool.false_ne_true h.2.2
  unfold sampleOutRead Chip.plainRead
  simp only [regRow_ANG_SHn_OUT, isLatched_ANG_SHn_OUT, latches_ANG_SHn_OUT, if_neg hc,
    Chip.regLive_ANG_SHn_OUT n (i := 0) (by decide)]
  rfl

theorem Chip.outLatched_latchedPart (n : Fin 16) {i : Nat} (hi : i < 8) :
    (c.outLatched m n).latchedPart m (ANG_SHn_OUT n.val (i + 1)) = c.reg (ANG_SHn_OUT n.val (i + 1)) := by
  have hn := n.isLt
  have ha : ANG_SHn_OUT n.val (i + 1) = ANG_SHn_OUT n.val 0 + (4 * i + 4) := by
    unfold ANG_SHn_OUT
    omega
  have hds (x : Nat) (hx : x ∈ outOffsets) : ANG_SHn_OUT n.val 0 + x < 2 ^ 32 := by
    have : x ≤ 32 := by revert x; decide
    unfold ANG_SHn_OUT
    omega
  have hmem : 4 * i + 4 ∈ outOffsets := by
    have hall : ∀ j : Fin 8, 4 * j.val + 4 ∈ outOffsets := by decide
    exact hall ⟨i, hi⟩
  rw [← Chip.regLive_ANG_SHn_OUT (m := m) n (by omega), ha]
  exact Chip.latchedPart_latches (fun x => c.regLive m (ANG_SHn_OUT n.val 0 + x)) (hds _ hmem) outOffsets hds c
    (.inl hmem)

theorem sampleOutRead_frame (n : Fin 16) :
    sampleOutRead c m n.val = { c with
      bus := .ok (c.reg (ANG_SHn_OUT n.val 0)).toNat, latched := (c.outLatched m n).latched
      ang := (c.setShaft n.val { c.shaft n.val with outNew := false }).ang } := by
  have h := c.outLatched_frame (m := m) n
  rw [sampleOutRead_eq]
  generalize c.outLatched m n = d at h ⊢
  rw [h]
  rfl

theorem sampleOutRead_latched (n : Fin 16) {i : Nat} (hi : i < 8) :
    (sampleOutRead c m n.val).latchedPart m (ANG_SHn_OUT n.val (i + 1)) = c.reg (ANG_SHn_OUT n.val (i + 1)) := by
  have h := Chip.outLatched_latchedPart (c := c) (m := m) n hi
  rw [sampleOutRead_eq]
  unfold Chip.latchedPart at h ⊢
  exact h

end Sys2Proof.Machine

namespace Sys2Proof
open Machine

/-- Settles O16: a generation time and the read of its words by their registers' rows; a firing and an echo by their
own conditions. -/
theorem shaftMastersFiringsAndEchoes : Obligations.ShaftMastersFiringsAndEchoes := by
  unfold Obligations.ShaftMastersFiringsAndEchoes
  refine ⟨fun m n c => ⟨fun hs hu hl => (does_masterSampleGeneration rfl).gives ?_, fun h => does_masterSampleGeneration ?_,
    (does_sampleOutRead (regRead_ANG_SHn_OUT n)).gives ?_⟩, fun c stream seq req stamp =>
    ⟨fun h => does_angleEventFiring ?_, fun f rest h => ⟨fun ht => does_angleEventFiring ?_,
    fun ht => does_angleEventFiring ?_⟩, fun h => does_ulpEchoRequest ?_, fun h body hb => does_ulpEchoRequest ?_⟩⟩
  · have hg := And.intro hs (And.intro hu hl)
    have hsh (k : Nat) : (generateSample c n.val).shaft k = (c.genShaft n.val).shaft k :=
      congrArg (fun a : AngState => tblGet Shaft.reset a.shafts k) (generateSample_ang hg)
    refine ⟨fun i => generateSample_out hg n.isLt, generateSample_outseq hg, ?_, fun hp => ?_,
      fun hp => ⟨?_, generateSample_pendOvf hg hp⟩, fun k hk => (hsh k).trans (Chip.genShaft_shaft_other hk),
      generateSample_sameMem.byte, ?_⟩
    · exact (congrArg Shaft.outNew (hsh n.val)).trans Chip.genShaft_shaft_same.1
    · exact (congrArg Shaft.pend (hsh n.val)).trans (Chip.genShaft_shaft_same.2.trans (if_neg hp))
    · exact (congrArg Shaft.pend (hsh n.val)).trans (Chip.genShaft_shaft_same.2.trans (if_pos hp))
    · exact (generateSample_frame hg).trans (by rw [← generateSample_ang hg])
  · refine if_neg fun ⟨hs, hu, hl⟩ => ?_
    rcases h with h | h | h
    · exact h hs
    · exact h hu
    · exact hl h
  · have hf := sampleOutRead_frame (c := c) (m := m.val) n
    have hb := congrArg Chip.bus hf
    have hl := congrArg Chip.latched hf
    have ha := congrArg Chip.ang hf
    refine ⟨hb, fun i hi => sampleOutRead_latched n hi, ?_, ?_⟩
    · unfold Chip.shaft
      rw [ha]
      exact tblGet_set_same ..
    · rw [hb, hl, ha]
      exact hf
  · simp only [angleEventFiring, h]
  · simp only [angleEventFiring, h, if_neg (Nat.not_le.2 ht)]
  · simp only [angleEventFiring, h, if_pos ht]
    rfl
  · simp only [ulpEchoRequest, h]
    rfl
  · simp only [ulpEchoRequest, h, hb]
    rfl

end Sys2Proof
end

section
/-!
PROOF. Transmission at a port (R107 to R115, R149, R151): the selection of a frame, its end, a collision and the end of
a back-off, case by case.
-/
namespace Sys2Proof.Machine

variable {c d : Chip} {p cls bits phase e : Nat} {busy : Bool} {ph : Fin 4} {k : Copy} {rest : List Copy} {t : TxFrame}

/-! ### The choice of a frame -/

section
variable (hr : c.txReady p = true) (hm : c.plcaMay p = true)
include hr hm

/-- The transmitter is free and the medium allows a frame: the class that is selected decides. -/
theorem frameTransmitStart_free :
    frameTransmitStart c p busy phase =
      match (c.settle p).select p (c.heldOf p).isSome c.copies.length with
      | (some cls, d) => d.startHead p cls busy phase
      | (none, d) =>
        match d.heldOf p with
        | none => d
        | some t =>
          if (d.gclOf p).hold then d
          else ((d.setHeld p none).setTx p (some { t with started := c.lt })).count p 57 1 := by
  unfold frameTransmitStart
  rw [hr, hm]
  exact if_pos rfl

theorem frameTransmitStart_nothing (hs : (c.settle p).select p (c.heldOf p).isSome c.copies.length = (none, d))
    (hh : d.heldOf p = none) : frameTransmitStart c p busy phase = d := by
  rw [frameTransmitStart_free hr hm]
  simp only [hs, hh]

theorem frameTransmitStart_held (hs : (c.settle p).select p (c.heldOf p).isSome c.copies.length = (none, d))
    (hh : d.heldOf p = some t) (hold : (d.gclOf p).hold = true) : frameTransmitStart c p busy phase = d := by
  rw [frameTransmitStart_free hr hm]
  simp only [hs, hh, hold, if_true]

theorem frameTransmitStart_resumed (hs : (c.settle p).select p (c.heldOf p).isSome c.copies.length = (none, d))
    (hh : d.heldOf p = some t) (hold : (d.gclOf p).hold = false) :
    frameTransmitStart c p busy phase =
      ((d.setHeld p none).setTx p (some { t with started := c.lt })).count p 57 1 := by
  rw [frameTransmitStart_free hr hm]
  simp only [hs, hh, hold, Bool.false_eq_true, if_false]

theorem frameTransmitStart_head (hs : (c.settle p).select p (c.heldOf p).isSome c.copies.length = (some cls, d))
    (hq : d.queue p cls = k :: rest) :
    frameTransmitStart c p busy phase =
      ((d.settle p).setQueue p cls rest).startTx p k (busy && !d.fullDuplex p) false phase := by
  rw [frameTransmitStart_free hr hm]
  simp only [hs, Chip.startHead, hq]

end

section
variable (h : ¬(c.txReady p = true ∧ c.plcaMay p = true))
include h

theorem frameTransmitStart_busy : frameTransmitStart c p busy phase =
    match c.txOf p with
    | some t => if c.linkUp p && c.mayStop p t then c.interruptTx p t phase else c
    | none => c := by
  have hb : ¬(c.txReady p && c.plcaMay p) = true := by rwa [Bool.and_eq_true]
  unfold frameTransmitStart
  exact if_neg hb

theorem frameTransmitStart_uninterrupted (hs : ∀ t, c.txOf p = some t → c.linkUp p = false ∨ c.mayStop p t = false) :
    frameTransmitStart c p busy phase = c := by
  rw [frameTransmitStart_busy h]
  cases ht : c.txOf p with
  | none => rfl
  | some t =>
    refine if_neg ?_
    rw [Bool.and_eq_true]
    rintro ⟨hl, hm⟩
    exact (hs t ht).elim (fun g => Bool.false_ne_true (g.symm.trans hl)) fun g => Bool.false_ne_true (g.symm.trans hm)

theorem frameTransmitStart_interrupts (ht : c.txOf p = some t) (hl : c.linkUp p = true) (hs : c.mayStop p t = true) :
    frameTransmitStart c p busy phase = c.interruptTx p t phase := by
  rw [frameTransmitStart_busy h]
  simp only [ht, hl, hs, Bool.and_self, if_true]

end

/-! ### The end of a frame, a collision, and the end of a back-off -/

theorem frameTransmitEnd_sending {underrun : Bool} (ht : c.txOf p = some t) (hb : t.backoff = none) :
    frameTransmitEnd c p underrun ph =
      (let c1 := c.endTx p t
       if underrun then ((c1.count p 50 1).portFlag p 3).looped p t false ph
       else if t.stomp then (c1.count p 51 1).looped p t false ph
       else
         let c2 := c1.countGood p 32 t.data 37
         let c3 := if t.colls = 1 then c2.count p 45 1 else if 2 ≤ t.colls then c2.count p 46 1 else c2
         (if c.fullDuplex p then c3 else c3.txStamp p t.copy.req t.stamp).looped p t true ph) := by
  simp only [frameTransmitEnd, ht, hb, Option.isSome_none, Bool.false_eq_true, if_false]

theorem frameTransmitEnd_waiting {underrun : Bool} (ht : c.txOf p = some t) (hb : t.backoff = some e) :
    frameTransmitEnd c p underrun ph = c := by
  simp only [frameTransmitEnd, ht, hb, Option.isSome_some, if_true]

theorem frameTransmitEnd_idle {underrun : Bool} (ht : c.txOf p = none) : frameTransmitEnd c p underrun ph = c := by
  simp only [frameTransmitEnd, ht]

theorem collision_idle (ht : c.txOf p = none) : collision c p bits = c := by
  simp only [collision, ht]

theorem collision_ignored (ht : c.txOf p = some t) (h : c.fullDuplex p = true ∨ t.backoff.isSome = true) :
    collision c p bits = c := by
  simp only [collision, ht, if_pos h]

theorem collision_halfDuplex (ht : c.txOf p = some t) (hb : t.backoff = none) (hd : c.fullDuplex p = false) :
    collision c p bits =
      (let c0 := (c.settle p).count p 44 1
       if 512 < bits then ((c0.endTx p t).count p 47 1).portFlag p 4
       else if 15 ≤ t.colls then ((c0.endTx p t).count p 48 1).portFlag p 5
       else
         let g := Config.backoffNext (c0.portRun p).gen
         (c0.setPortRun p { c0.portRun p with gen := g }).setTx p (some { t with
           colls := t.colls + 1
           backoff := some (c.lt + (32 + g.toNat % 2 ^ min (t.colls + 1) 10 * 512) * 65536000 / c.rate p) })) := by
  simp only [collision, ht, hb, hd, Option.isSome_none, Bool.false_eq_true, or_self, if_false]
  rfl

theorem backoffExpiry_idle (ht : c.txOf p = none) : backoffExpiry c p phase = c := by
  simp only [backoffExpiry, ht]

theorem backoffExpiry_waiting (ht : c.txOf p = some t) (hb : t.backoff = some e) :
    backoffExpiry c p phase =
      if e ≤ c.lt ∧ c.linkUp p ∧ (c.setTx p none).plcaMay p ∧
          c.gateOpen p t.copy.cls ∧ c.fits p t.copy.cls (t.data.length + 4) then
        let c := (c.settle p).oppTaken p
        let s := c.stampNow p false phase t.copy.req.tag
        c.setTx p (some { t with backoff := none, stamp := s, data := c.txBytes p t.copy s, started := c.lt })
      else c := by
  simp only [backoffExpiry, ht, hb]

end Sys2Proof.Machine

namespace Sys2Proof
open Machine

/-- Settles O18: the selection, with and without a frame in transmission; then the end of a frame, a collision and the
end of a back-off. Preemption here is log entry 65's reading, LOOP log entry 66's, and the back-off's draw as the
generator's next state modulo 2^min(k, 10) log entry 127's. -/
theorem portTransmission : Obligations.PortTransmission := by
  unfold Obligations.PortTransmission
  intro p busy phase bits c
  refine ⟨fun ⟨hr, hm⟩ => ⟨fun d hs => ⟨fun hh => ?_, fun t hh => ⟨fun hold => ?_, fun hold => ?_⟩⟩,
    fun cls d k rest hs hq => ?_⟩, fun h => ⟨fun hs => ?_, fun t ht hl hs => ⟨fun cls d k rest hc hq => ?_,
    fun d hc => ?_⟩⟩, fun ht late => ⟨?_, ?_, ?_⟩, fun t ht hb => ⟨?_, fun hs => ?_, fun hs => ?_, fun hd => ?_,
    fun hd => ⟨fun hlate => ?_, fun hlate hn => ?_, fun hlate hn => ?_⟩⟩, fun t e ht hb => ⟨fun h => ?_, fun h => ?_,
    ?_, ?_⟩⟩
  · exact does_frameTransmitStart (frameTransmitStart_nothing hr hm hs hh)
  · exact does_frameTransmitStart (frameTransmitStart_held hr hm hs hh hold)
  · exact does_frameTransmitStart (frameTransmitStart_resumed hr hm hs hh hold)
  · exact does_frameTransmitStart (frameTransmitStart_head hr hm hs hq)
  · exact does_frameTransmitStart (frameTransmitStart_uninterrupted h hs)
  · refine does_frameTransmitStart ((frameTransmitStart_interrupts h ht hl hs).trans ?_)
    simp only [Chip.interruptTx, hc, Chip.startHead, hq]
  · refine does_frameTransmitStart ((frameTransmitStart_interrupts h ht hl hs).trans ?_)
    simp only [Chip.interruptTx, hc]
  · exact does_frameTransmitEnd (frameTransmitEnd_idle ht)
  · exact does_collision (collision_idle ht)
  · exact does_backoffExpiry (backoffExpiry_idle ht)
  · exact does_frameTransmitEnd (frameTransmitEnd_sending ht hb)
  · refine does_frameTransmitEnd ((frameTransmitEnd_sending ht hb).trans ?_)
    exact if_pos hs
  · refine does_frameTransmitEnd ((frameTransmitEnd_sending ht hb).trans ?_)
    simp only [hs, Bool.false_eq_true, if_false]
    rfl
  · exact does_collision (collision_ignored ht (.inl hd))
  · refine does_collision ((collision_halfDuplex ht hb hd).trans ?_)
    exact if_pos hlate
  · refine does_collision ((collision_halfDuplex ht hb hd).trans ?_)
    exact (if_neg (Nat.not_lt.2 hlate)).trans (if_pos hn)
  · refine does_collision ((collision_halfDuplex ht hb hd).trans ?_)
    exact (if_neg (Nat.not_lt.2 hlate)).trans (if_neg (Nat.not_le.2 hn))
  · exact does_backoffExpiry ((backoffExpiry_waiting ht hb).trans (if_pos h))
  · exact does_backoffExpiry ((backoffExpiry_waiting ht hb).trans (if_neg h))
  · exact does_frameTransmitEnd (frameTransmitEnd_waiting ht hb)
  · exact does_collision (collision_ignored ht (.inr (by rw [hb]; rfl)))

end Sys2Proof
end

section
/-!
PROOF. Reception at a port (R107, R109, R116, R124, R143 to R147): the checks of a frame in their order, its stamp, and
what becomes of it.
-/
namespace Sys2Proof.Machine

variable {c d : Chip} {p k : Nat} {f : RxFrame} {s : Option Stamp}

/-- What a port counts of every frame that reaches it. -/
def Chip.rxSeen (c : Chip) (p : Nat) (f : RxFrame) : Chip :=
  ((c.count p 31 f.falseCarrier).count p 63 f.pcsErr).count p 25 f.frags

/-- The port once a whole frame has come, its stamp taken in `d`. -/
def Chip.rxWhole (d : Chip) (p : Nat) (f : RxFrame) : Chip :=
  (if 0 < f.frags then d.count p 26 1 else d).oppHeard p (f.data.length + 4)

/-- The stamp of a frame that is no reassembled one, or whose first fragment left none (R59, R116). -/
theorem Chip.ingressStamp_now (h : f.frags = 0 ∨ (c.portRun p).firstFrag = none) :
    c.ingressStamp p f =
      (let tag := (c.reg (ETH_Pn_CNT p 1)).toNat + 1
       let taken := if c.bit (TMU_Pn_TSCTL p) 0 then some (c.stampNow p true f.phase.val tag) else none
       (taken, if taken.isSome then c.count p 29 1 else c)) := by
  unfold Chip.ingressStamp
  rcases h with h | h
  · exact if_pos h
  · dsimp only
    split
    · rfl
    · rw [h]

theorem Chip.ingressStamp_first {x : Stamp} (h : f.frags ≠ 0) (hx : (c.portRun p).firstFrag = some x) :
    c.ingressStamp p f = (some { x with tag := ((c.reg (ETH_Pn_CNT p 1)).toNat + 1) % 65536 },
      c.setPortRun p { c.portRun p with firstFrag := none }) := by
  unfold Chip.ingressStamp
  simp only [if_neg h, hx]

theorem frameReceive_down (h : c.linkUp p = false) : frameReceive c p f = c := by
  simp only [frameReceive, h, Bool.false_eq_true, if_false]

section
variable (hl : c.linkUp p = true)
include hl

theorem frameReceive_smdErr (h : f.smdErr = true) : frameReceive c p f = (c.rxSeen p f).count p 28 1 := by
  simp only [frameReceive, hl, h, if_true]
  rfl

variable (hs : f.smdErr = false)
include hs

theorem frameReceive_asmErr (h : f.asmErr = true) :
    frameReceive c p f =
      ((c.rxSeen p f).setPortRun p { (c.rxSeen p f).portRun p with firstFrag := none }).count p 27 1 := by
  simp only [frameReceive, hl, hs, h, Bool.false_eq_true, if_false, if_true]
  rfl

variable (ha : f.asmErr = false)
include ha

theorem frameReceive_first (h : f.first = true) : frameReceive c p f = (c.rxSeen p f).firstFragment p f := by
  simp only [frameReceive, hl, hs, ha, h, Bool.false_eq_true, if_false, if_true]
  rfl

variable (hf : f.first = false)
include hf

theorem frameReceive_empty (h : f.data = []) : frameReceive c p f = c.rxSeen p f := by
  simp only [frameReceive, hl, hs, ha, hf, h, Bool.false_eq_true, if_false, if_true]
  rfl

variable (hd : f.data ≠ []) (hi : (c.rxSeen p f).ingressStamp p f = (s, d))
include hd hi

theorem frameReceive_bad (h : rxErrCounter (f.data.length + 4) (c.reg (ETH_Pn_MAXLEN p)).toNat f = some k) :
    frameReceive c p f =
      (let c2 := ((d.rxWhole p f).count p k 1).count p 21 (f.data.length + 4)
       if f.data.length + 4 ≤ 128 then c2
       else c2.switchBad p (f.data.take ((c.reg (ETH_Pn_MAXLEN p)).toNat + 1)) (parseFrame f.data (c.pvid p)) s) := by
  unfold Chip.rxSeen at hi
  simp only [frameReceive, hl, hs, ha, hf, hd, hi, h, Bool.false_eq_true, if_false, if_true]
  rfl

theorem frameReceive_good (h : rxErrCounter (f.data.length + 4) (c.reg (ETH_Pn_MAXLEN p)).toNat f = none) :
    frameReceive c p f =
      (let q := parseFrame f.data (c.pvid p)
       let c2 := (d.rxWhole p f).countGood p 0 f.data 7
       let c3 := if q.tagged then c2.count p 6 1 else c2
       let c4 := if q.etype = c.fld ANG_ULPTYPE 15 0 then c3.count p 30 1 else c3
       if q.etype = 0x8808 then c4.count p 5 1
       else if c4.pecksFree < pecksOf (f.data.length + 4) then (c4.count p 22 1).switchBad p f.data q s
       else (c4.switchFrame p f.data q s false).learn p f.data q.vid) := by
  unfold Chip.rxSeen at hi
  simp only [frameReceive, hl, hs, ha, hf, hd, hi, h, Bool.false_eq_true, if_false, if_true]
  rfl

end

end Sys2Proof.Machine

namespace Sys2Proof
open Machine

/-- Settles O19: the checks of a frame in the order of R109 and R124, then its stamp, its counters and its forwarding.
The octets that a cut-through copy ends with are log entry 123's and 124's, the order of the counters log entry 125's,
and that a stamp's tag counts the frame itself log entry 26's. -/
theorem portReception : Obligations.PortReception := by
  unfold Obligations.PortReception
  intro p f c n len maxlen seen tag stamp got first mark had asm q good tagged ulp cut
  have hin : (c.rxSeen n f).ingressStamp n f = (mark, had) := by
    by_cases h0 : f.frags = 0
    · have hfirst : first = none := if_pos h0
      simp only [mark, had, hfirst]
      exact Chip.ingressStamp_now (.inl h0)
    · have hfirst : first = ((c.rxSeen n f).portRun n).firstFrag := if_neg h0
      cases hx : ((c.rxSeen n f).portRun n).firstFrag with
      | none =>
        simp only [mark, had, hfirst, hx]
        exact Chip.ingressStamp_now (.inr hx)
      | some x =>
        simp only [mark, had, hfirst, hx]
        exact Chip.ingressStamp_first h0 hx
  refine ⟨fun hl => does_frameReceive (frameReceive_down hl), fun hl => ⟨fun h => ?_, fun hs h => ?_, fun hs ha h => ?_,
    fun hs ha hf => ⟨fun h => ?_, fun hd => ⟨fun k hk => ⟨fun h => ?_, fun h => ?_⟩, fun hk => ⟨fun h => ?_,
    fun h hp => ?_, fun h hp => ?_⟩⟩⟩⟩⟩
  · exact does_frameReceive (frameReceive_smdErr hl h)
  · exact does_frameReceive (frameReceive_asmErr hl hs h)
  · refine does_frameReceive ((frameReceive_first hl hs ha h).trans ?_)
    rfl
  · exact does_frameReceive (frameReceive_empty hl hs ha hf h)
  · refine does_frameReceive ((frameReceive_bad hl hs ha hf hd hin hk).trans ?_)
    exact if_pos h
  · refine does_frameReceive ((frameReceive_bad hl hs ha hf hd hin hk).trans ?_)
    exact if_neg (Nat.not_le.2 h)
  · refine does_frameReceive ((frameReceive_good hl hs ha hf hd hin hk).trans ?_)
    exact if_pos h
  · refine does_frameReceive ((frameReceive_good hl hs ha hf hd hin hk).trans ?_)
    exact (if_neg h).trans (if_pos hp)
  · refine does_frameReceive ((frameReceive_good hl hs ha hf hd hin hk).trans ?_)
    exact (if_neg h).trans (if_neg (Nat.not_lt.2 hp))

end Sys2Proof
end

section
/-!
PROOF. A port's services: verification's timer, low-power idle, counters, filter rules and the cable test (R115, R118 to
R122, R125, R128, R129).
-/
namespace Sys2Proof.Machine

variable {c : Chip} {p : Nat} {v : W32}

theorem verifyTimer_response (h : c.fld (ETH_Pn_PRE_STAT p) 2 0 = 2) : verifyTimer c p true = c.setVstatus p 3 := by
  simp only [verifyTimer, h, if_true]

theorem verifyTimer_due (h : c.fld (ETH_Pn_PRE_STAT p) 2 0 = 2)
    (ht : (tblGet .reset c.swx.verify p).last + c.fld (ETH_Pn_PRE_CTL p) 15 8 * 65536000000 ≤ c.lt) :
    verifyTimer c p false =
      if 3 ≤ (tblGet .reset c.swx.verify p).attempts then c.setVstatus p 4
      else { c with swx := { c.swx with
        verify := tblSet .reset c.swx.verify p ⟨(tblGet .reset c.swx.verify p).attempts + 1, c.lt⟩ } } := by
  simp only [verifyTimer, h, if_true, Bool.false_eq_true, if_false, if_neg (Nat.not_lt.2 ht)]

theorem setVstatus_changed {n : Nat} (h : c.fld (ETH_Pn_PRE_STAT p) 2 0 ≠ n) :
    c.setVstatus p n = (c.setFld (ETH_Pn_PRE_STAT p) 2 0 n).raise (144 + 8 * p + 3) 0 :=
  if_neg h

theorem lpiEntry_allowed (h1 : c.bit (ETH_Pn_EEE_CTL p) 31 = true) (h2 : c.bit (ETH_Pn_STAT p) 28 = true)
    (h3 : c.txReady p = true) (h4 : ∀ i, i < 8 → c.queue p i = []) (h5 : c.heldOf p = none)
    (h6 : (c.lpiOf p).lastQueued + (c.reg (ETH_Pn_EEE_IDLE p)).toNat * 65536000 ≤ c.lt)
    (h7 : c.bit (ETH_Pn_EEE_CTL p) 30 = false ∨ ∀ o ∈ c.eeeOpenings p,
      c.lt + ((c.reg (ETH_Pn_EEE_TWTX p)).toNat + (c.reg (ETH_Pn_EEE_GUARD p)).toNat +
        (c.reg (ETH_Pn_EEE_MINSLP p)).toNat * 1000) * 65536 ≤ o * 65536) :
    lpiEntry c p =
      ((c.count p 53 1).setBit (ETH_Pn_EEE_STAT p) 1 true).setLpi p { c.lpiOf p with txSince := c.lt } := by
  have hq : ((List.range 8).all fun i => (c.queue p i).isEmpty) = true := by
    refine List.all_eq_true.2 fun i hi => ?_
    rw [h4 i (List.mem_range.1 hi)]
    rfl
  refine if_pos ⟨h1, h2, h3, hq, h5, h6, h7.imp_right fun h => List.all_eq_true.2 fun o ho => ?_⟩
  exact decide_eq_true (h o ho)

theorem earlyWake_due (h1 : c.bit (ETH_Pn_EEE_STAT p) 1 = true) (h2 : c.bit (ETH_Pn_EEE_CTL p) 30 = true)
    (h3 : ∃ o ∈ c.eeeOpenings p, o * 65536 ≤
      c.lt + ((c.reg (ETH_Pn_EEE_TWTX p)).toNat + (c.reg (ETH_Pn_EEE_GUARD p)).toNat) * 65536) :
    earlyWake c p = (c.count p 55 1).leaveLpi p := by
  obtain ⟨o, ho, hd⟩ := h3
  exact if_pos ⟨h1, h2, List.any_eq_true.2 ⟨o, ho, decide_eq_true hd⟩⟩

theorem rxLpi_starts (hl : c.linkUp p = true) (h : c.bit (ETH_Pn_EEE_STAT p) 0 = false) :
    rxLpi c p true =
      ((c.setBit (ETH_Pn_EEE_STAT p) 0 true).count p 23 1).setLpi p { c.lpiOf p with rxSince := c.lt } := by
  simp [rxLpi, hl, h]

theorem rxLpi_ends (hl : c.linkUp p = true) (h : c.bit (ETH_Pn_EEE_STAT p) 0 = true) :
    rxLpi c p false =
      (c.setBit (ETH_Pn_EEE_STAT p) 0 false).count p 24 ((c.lt - (c.lpiOf p).rxSince) / 65536000) := by
  simp [rxLpi, hl, h]

/-- A write of ETH_Pn_CT_CTL by its command: START is set, on a port that has the test (R133). -/
theorem regWrite_cableTest {m : Nat} (q : Fin 8) :
    regWrite c m (ETH_Pn_CT_CTL q.val) (v ||| 0x1) =
      if q.val < 2 then
        if c.portMode q.val = 0 then (c.setBit (ETH_Pn_CT_CTL q.val) 1 true).done else (c.portFlag q.val 7).done
      else c.done := by
  have hb : wbit (v ||| 0x1) 0 = true := by
    rw [wbit_or]
    exact Bool.or_true _
  have hh : portHas q.val 0x80 = decide (q.val < 2) := rfl
  rw [regWrite_ETH_Pn_CT_CTL, hh]
  by_cases hq : q.val < 2
  · simp only [cableTestStart, hb, hq, decide_true, and_self, if_true]
  · simp only [hq, decide_false, Bool.false_eq_true, if_false]

end Sys2Proof.Machine

namespace Sys2Proof
open Machine

/-- Settles O20: each service by its own condition. A START while a test runs leaves it running (log entry 69). -/
theorem portServices : Obligations.PortServices := by
  unfold Obligations.PortServices
  intro m p v k rs c n t l gap lead
  refine ⟨fun h => ⟨?_, fun ht => ⟨fun ha => ?_, fun ha => ?_⟩⟩, fun h1 h2 h3 h4 h5 h6 h7 => ?_, fun h1 h2 h3 => ?_,
    fun h1 h2 => ?_, fun hl h => ?_, fun hl h => ?_, fun hv => ⟨?_, ?_⟩, fun hv => ⟨?_, ?_⟩, ?_, fun hn hm => ?_,
    fun hn hm => ?_, fun hn => ?_, fun h => ?_, fun h => ?_⟩
  · refine does_preemptVerifyTimer ((verifyTimer_response h).trans (setVstatus_changed ?_))
    rw [h]
    decide
  · refine does_preemptVerifyTimer ((verifyTimer_due h ht).trans ((if_pos ha).trans (setVstatus_changed ?_)))
    rw [h]
    decide
  · exact does_preemptVerifyTimer ((verifyTimer_due h ht).trans (if_neg (Nat.not_le.2 ha)))
  · exact does_lpiEntry (lpiEntry_allowed h1 h2 h3 h4 h5 h6 h7)
  · exact does_earlyWake (earlyWake_due h1 h2 h3)
  · exact does_wakeComplete (if_pos ⟨h1, h2⟩)
  · exact does_rxLpiSignal (rxLpi_starts hl h)
  · exact does_rxLpiSignal (rxLpi_ends hl h)
  · exact does_counterSnapshot ((regWrite_ETH_Pn_CNTSNAP p).trans (if_pos hv))
  · exact does_counterClear ((regWrite_ETH_Pn_CNTCLR p).trans (if_pos hv))
  · refine does_counterSnapshot ((regWrite_ETH_Pn_CNTSNAP p).trans (if_neg ?_))
    exact Bool.not_eq_true _ ▸ hv
  · refine does_counterClear ((regWrite_ETH_Pn_CNTCLR p).trans (if_neg ?_))
    exact Bool.not_eq_true _ ▸ hv
  · exact does_ldfRuleCommit (regWrite_ETH_LDFk_CFG k)
  · exact does_cableTestStart ((regWrite_cableTest p).trans ((if_pos hn).trans (if_pos hm)))
  · exact does_cableTestStart ((regWrite_cableTest p).trans ((if_pos hn).trans (if_neg hm)))
  · exact does_cableTestStart ((regWrite_cableTest p).trans (if_neg (Nat.not_lt.2 hn)))
  · exact does_cableTestDone (if_pos h)
  · refine does_cableTestDone (if_neg ?_)
    exact Bool.not_eq_true _ ▸ h

end Sys2Proof
end

section
/-!
PROOF. Modes, negotiation and links (R104 to R106, R113, R114, R130): what each step of a mode write leaves of the port,
and the port's commands case by case.
-/
namespace Sys2Proof.Machine

variable {c d e : Chip} {p mode : Nat} {v : W32}

/-! ### What leaves a port's mode, link and running state -/

/-- The frame in transmission cut short, and one whose transmission stands still: `Chip.dropLink_down` ties the two to a
link's end. -/
def Chip.endCurrent (c : Chip) (p : Nat) : Chip :=
  match c.txOf p with
  | some t => (c.setTx p none).abortTx p t
  | none => c

def Chip.endHeld (c : Chip) (p : Nat) : Chip :=
  match c.heldOf p with
  | some t => (c.setHeld p none).abortTx p t
  | none => c

theorem Chip.dropLink_down (h : (((c.settle p).endCurrent p).endHeld p).linkUp p = false) :
    c.dropLink p = ((c.settle p).endCurrent p).endHeld p := by
  have hn : ¬(((c.settle p).endCurrent p).endHeld p).linkUp p = true := by rw [h]; exact Bool.false_ne_true
  exact if_neg hn

/-- The registers CTL and STAT of port `p`, and the running state of every port, are in `d` as in `c`. -/
structure SamePort (p : Nat) (c d : Chip) : Prop where
  ports : d.swx.ports = c.swx.ports
  stat : d.reg (ETH_Pn_STAT p) = c.reg (ETH_Pn_STAT p)
  ctl : d.reg (ETH_Pn_CTL p) = c.reg (ETH_Pn_CTL p)

namespace SamePort

theorem refl (c : Chip) : SamePort p c c := ⟨rfl, rfl, rfl⟩

theorem trans (h : SamePort p c d) (g : SamePort p d e) : SamePort p c e :=
  ⟨g.ports.trans h.ports, g.stat.trans h.stat, g.ctl.trans h.ctl⟩

theorem ite {q : Prop} [Decidable q] (h : SamePort p c d) (g : SamePort p c e) :
    SamePort p c (if q then d else e) := by
  split
  · exact h
  · exact g

/-- A step that leaves the registers and the ports' running state. -/
theorem ofRegs (hr : d.regs = c.regs) (hp : d.swx.ports = c.swx.ports) : SamePort p c d :=
  ⟨hp, congrArg (fun t => tblGet (regReset (ETH_Pn_STAT p)) t (ETH_Pn_STAT p)) hr,
    congrArg (fun t => tblGet (regReset (ETH_Pn_CTL p)) t (ETH_Pn_CTL p)) hr⟩

theorem setReg {a : Nat} (hs : ETH_Pn_STAT p ≠ a) (hc : ETH_Pn_CTL p ≠ a) (c : Chip) (w : W32) :
    SamePort p c (c.setReg a w) :=
  ⟨rfl, Chip.reg_setReg_other _ _ hs, Chip.reg_setReg_other _ _ hc⟩

theorem raise {src code : Nat} (hp : p < 8) (c : Chip) : SamePort p c (c.raise src code) := by
  refine (setReg (a := EVT_PEND (src / 32)) ?_ ?_ c _).trans (ofRegs rfl rfl)
  · unfold ETH_Pn_STAT EVT_PEND
    omega
  · unfold ETH_Pn_CTL EVT_PEND
    omega

theorem count {j n : Nat} (hp : p < 8) (c : Chip) : SamePort p c (c.count p j n) := by
  unfold Chip.count Chip.portEv
  have hcnt (w : W32) : SamePort p c (c.setReg (ETH_Pn_CNT p j) w) := by
    refine setReg ?_ ?_ c w
    · unfold ETH_Pn_STAT ETH_Pn_CNT
      omega
    · unfold ETH_Pn_CTL ETH_Pn_CNT
      omega
  have hhalf0 (d : Chip) : SamePort p d (d.setBit (ETH_Pn_CNTHALF0 p) j true) := by
    refine setReg ?_ ?_ d _
    · unfold ETH_Pn_STAT ETH_Pn_CNTHALF0
      omega
    · unfold ETH_Pn_CTL ETH_Pn_CNTHALF0
      omega
  have hhalf1 (d : Chip) : SamePort p d (d.setBit (ETH_Pn_CNTHALF1 p) (j - 32) true) := by
    refine setReg ?_ ?_ d _
    · unfold ETH_Pn_STAT ETH_Pn_CNTHALF1
      omega
    · unfold ETH_Pn_CTL ETH_Pn_CNTHALF1
      omega
  dsimp only
  split
  · exact hcnt _
  · refine trans ?_ (raise hp _)
    split
    · exact trans (hcnt _) (hhalf0 _)
    · exact trans (hcnt _) (hhalf1 _)

theorem flags {i : Nat} {b : Bool} (c : Chip) : SamePort p c (c.setBit (ETH_Pn_FLAGS p) i b) := by
  refine setReg ?_ ?_ c _
  · unfold ETH_Pn_STAT ETH_Pn_FLAGS
    omega
  · unfold ETH_Pn_CTL ETH_Pn_FLAGS
    omega

theorem preStat {n : Nat} (c : Chip) : SamePort p c (c.setFld (ETH_Pn_PRE_STAT p) 2 0 n) := by
  refine setReg ?_ ?_ c _
  · unfold ETH_Pn_STAT ETH_Pn_PRE_STAT
    omega
  · unfold ETH_Pn_CTL ETH_Pn_PRE_STAT
    omega

theorem cableTest {i : Nat} {b : Bool} (c : Chip) : SamePort p c (c.setBit (ETH_Pn_CT_CTL p) i b) := by
  refine setReg ?_ ?_ c _
  · unfold ETH_Pn_STAT ETH_Pn_CT_CTL
    omega
  · unfold ETH_Pn_CTL ETH_Pn_CT_CTL
    omega

theorem cablePairs {w : W32} (is : List Nat) (h : ∀ i ∈ is, i < 4) (c : Chip) :
    SamePort p c (is.foldl (fun c i => c.setReg (ETH_Pn_CT_PAIR p i) w) c) := by
  induction is generalizing c with
  | nil => exact refl c
  | cons i is ih =>
    have hi := h i List.mem_cons_self
    refine trans (setReg ?_ ?_ c w) (ih (fun j hj => h j (List.mem_cons_of_mem i hj)) _)
    · unfold ETH_Pn_STAT ETH_Pn_CT_PAIR
      omega
    · unfold ETH_Pn_CTL ETH_Pn_CT_PAIR
      omega

theorem wakeTime {w : W32} (c : Chip) : SamePort p c (c.setReg (ETH_Pn_EEE_TWTX p) w) := by
  refine setReg ?_ ?_ c w
  · unfold ETH_Pn_STAT ETH_Pn_EEE_TWTX
    omega
  · unfold ETH_Pn_CTL ETH_Pn_EEE_TWTX
    omega

theorem plcaStat {w : W32} (c : Chip) : SamePort p c (c.setReg (ETH_Pn_PLCA_STAT p) w) := by
  refine setReg ?_ ?_ c w
  · unfold ETH_Pn_STAT ETH_Pn_PLCA_STAT
    omega
  · unfold ETH_Pn_CTL ETH_Pn_PLCA_STAT
    omega

/-- Settling the credits of a port's queues. -/
theorem settle (c : Chip) : SamePort p c (c.settle p) := by
  unfold Chip.settle
  generalize List.range 8 = is
  induction is generalizing c with
  | nil => exact refl c
  | cons i is ih =>
    refine trans ?_ (ih _)
    exact ofRegs rfl rfl

theorem setLpi (l : Lpi) (c : Chip) : SamePort p c (c.setLpi p l) := ofRegs rfl rfl

theorem done (c : Chip) : SamePort p c c.done := ofRegs rfl rfl

theorem release (c : Chip) (id : Nat) : SamePort p c (c.release id) := by
  unfold Chip.release
  exact ite (refl c) (ofRegs rfl rfl)

theorem abortTx (hp : p < 8) (c : Chip) (t : TxFrame) : SamePort p c (c.abortTx p t) :=
  (release c t.copy.fid).trans ((count hp _).trans ((flags _).trans (raise hp _)))

theorem setVstatus (hp : p < 8) (c : Chip) (n : Nat) : SamePort p c (c.setVstatus p n) := by
  unfold Chip.setVstatus
  exact ite (refl c) ((preStat c).trans (raise hp _))

theorem startVerify (hp : p < 8) (c : Chip) : SamePort p c (c.startVerify p) := by
  unfold Chip.startVerify
  refine ite (setVstatus hp c 0) (ite (setVstatus hp c 1) (trans ?_ (setVstatus hp _ 2)))
  exact ofRegs rfl rfl

theorem linkUp (h : SamePort p c d) : d.linkUp p = c.linkUp p := congrArg (wbit · 31) h.stat

theorem portMode (h : SamePort p c d) : d.portMode p = c.portMode p := congrArg (wfld · 3 0) h.stat

theorem portRun (h : SamePort p c d) : d.portRun p = c.portRun p :=
  congrArg (fun t => tblGet PortRun.reset t p) h.ports

theorem endCurrent (hp : p < 8) (c : Chip) : SamePort p c (c.endCurrent p) := by
  unfold Chip.endCurrent
  split
  · refine trans ?_ (abortTx hp _ _)
    exact ofRegs rfl rfl
  · exact refl c

theorem endHeld (hp : p < 8) (c : Chip) : SamePort p c (c.endHeld p) := by
  unfold Chip.endHeld
  split
  · refine trans ?_ (abortTx hp _ _)
    exact ofRegs rfl rfl
  · exact refl c

/-- Of a port whose link is down a mode write ends at most the frames that stand in its transmitter. -/
theorem dropLink (hp : p < 8) (hl : c.linkUp p = false) : SamePort p c (c.dropLink p) := by
  have hs : SamePort p c (((c.settle p).endCurrent p).endHeld p) :=
    ((settle c).trans (endCurrent hp _)).trans (endHeld hp _)
  rwa [Chip.dropLink_down (hs.linkUp.trans hl)]

end SamePort

/-! ### A mode write (R105) -/

section
variable {ctl : W32} {up jab : Bool}

/-- Port `p` has this value of CTL, this mode in force, its link so and its jabber so. -/
structure ModeSet (p : Nat) (ctl : W32) (mode : Nat) (up jab : Bool) (c : Chip) : Prop where
  ctl : c.reg (ETH_Pn_CTL p) = ctl
  mode : c.portMode p = mode
  up : c.linkUp p = up
  jabber : (c.portRun p).jabber = jab

namespace ModeSet

theorem same (h : ModeSet p ctl mode up jab c) (g : SamePort p c d) : ModeSet p ctl mode up jab d :=
  ⟨g.ctl.trans h.ctl, g.portMode.trans h.mode, g.linkUp.trans h.up, (congrArg PortRun.jabber g.portRun).trans h.jabber⟩

theorem setPortRun {r : PortRun} (h : ModeSet p ctl mode up jab c) (hr : r.jabber = (c.portRun p).jabber) :
    ModeSet p ctl mode up jab (c.setPortRun p r) :=
  ⟨h.ctl, h.mode, h.up, (congrArg PortRun.jabber (tblGet_set_same ..)).trans (hr.trans h.jabber)⟩

/-- A write of STAT that keeps the mode. -/
theorem setLink {w : W32} {x : Bool} (h : ModeSet p ctl mode up jab c) (hm : wfld w 3 0 = c.portMode p)
    (hl : wbit w 31 = x) : ModeSet p ctl mode x jab (c.setReg (ETH_Pn_STAT p) w) := by
  refine ⟨(Chip.reg_setReg_other _ _ ?_).trans h.ctl, ?_, ?_, h.jabber⟩
  · unfold ETH_Pn_CTL ETH_Pn_STAT
    omega
  · exact (congrArg (wfld · 3 0) (Chip.reg_setReg_same ..)).trans (hm.trans h.mode)
  · exact (congrArg (wbit · 31) (Chip.reg_setReg_same ..)).trans hl

/-- A write of STAT's other fields. -/
theorem setStat {w : W32} (h : ModeSet p ctl mode up jab c) (hm : wfld w 3 0 = c.portMode p)
    (hl : wbit w 31 = c.linkUp p) : ModeSet p ctl mode up jab (c.setReg (ETH_Pn_STAT p) w) :=
  h.setLink hm (hl.trans h.up)

theorem setStatBit {i : Nat} {b : Bool} (h : ModeSet p ctl mode up jab c) (hi : 3 < i) (hj : i < 31) :
    ModeSet p ctl mode up jab (c.setBit (ETH_Pn_STAT p) i b) := by
  refine h.setStat (wfld_wsetFld_below _ _ _ _ _ _ (Nat.le_refl i) (by omega) hi) ?_
  rw [wbit_wsetBit _ _ _ _ (by omega), if_neg (by omega)]
  rfl

theorem resolve {speed : Nat} {fdx : Bool} (h : ModeSet p ctl mode up jab c) :
    ModeSet p ctl mode up jab (c.resolve p speed fdx) := by
  have hs := h.same (.settle c)
  have hf : ModeSet p ctl mode up jab ((c.settle p).setFld (ETH_Pn_STAT p) 27 24 speed) := by
    refine hs.setStat (wfld_wsetFld_below _ _ _ _ _ _ (by decide) (by decide) (by decide)) ?_
    rw [wbit_eq_wfld, wfld_wsetFld_above _ _ _ _ _ _ (by decide) (by decide) (by decide), ← wbit_eq_wfld]
    rfl
  exact (hf.setStatBit (by decide) (by decide)).setStatBit (by decide) (by decide)

theorem seedBackoff (h : ModeSet p ctl mode up jab c) : ModeSet p ctl mode up jab (c.seedBackoff p) := by
  have ht : ModeSet p ctl mode up jab c.takeFree.2 := ⟨h.ctl, h.mode, h.up, h.jabber⟩
  exact ht.setPortRun rfl

theorem raiseLink (hp : p < 8) (h : ModeSet p ctl mode up jab c) : ModeSet p ctl mode true jab (c.raiseLink p) := by
  have hu : ModeSet p ctl mode true jab (c.setBit (ETH_Pn_STAT p) 31 true) := by
    refine h.setLink (wfld_wsetFld_below _ _ _ _ _ _ (Nat.le_refl 31) (by decide) (by decide)) ?_
    rw [wbit_wsetBit _ _ _ _ (by decide), if_pos rfl]
  have he : ModeSet p ctl mode true jab (((c.setBit (ETH_Pn_STAT p) 31 true).setBit (ETH_Pn_FLAGS p) 0 true).portEv p 0) :=
    (hu.same (.flags _)).same (.raise hp _)
  unfold Chip.raiseLink
  refine same (same ?_ (.setLpi _ _)) (.startVerify hp _)
  exact he.same (.ite (.wakeTime _) (.ite (.wakeTime _) (.refl _)))

end ModeSet

/-- The steps of a write of CTL that lists a mode; `modeWrite_listed` ties them to it. A cable test ends: -/
def Chip.endCableTest (c : Chip) (p : Nat) : Chip :=
  if c.bit (ETH_Pn_CT_CTL p) 1 then
    ((List.range 4).foldl (fun c i => c.setReg (ETH_Pn_CT_PAIR p i) 0xE0000000)
      (c.setBit (ETH_Pn_CT_CTL p) 1 false)).portEv p 4
  else c

/-- The mode is stored, the node's opportunities starting over at line time `t`. -/
def Chip.storeMode (c : Chip) (p : Nat) (v : W32) (t : Nat) : Chip :=
  let d := (c.setReg (ETH_Pn_CTL p) (v &&& 0x33CF)).setReg (ETH_Pn_STAT p) (w32 (wfld v 3 0))
  d.setPortRun p { d.portRun p with curid := 0, oppAt := t, oppSent := 0 }

/-- BEACONs end with the mode that has them. -/
def Chip.endBeacons (c : Chip) (p : Nat) : Chip :=
  if c.bit (ETH_Pn_PLCA_STAT p) 31 then (c.setReg (ETH_Pn_PLCA_STAT p) 0).portEv p 5 else c

/-- A mode of a fixed rate resolves at once. -/
def Chip.resolveFixed (c : Chip) (p : Nat) (v : W32) : Chip :=
  match fixedSpeed (wfld v 3 0) with
  | some s => c.resolve p s (if p < 2 then !wbit v 8 else decide (4 ≤ p))
  | none => c

/-- All of them up to the link. -/
def Chip.enterMode (c : Chip) (p : Nat) (v : W32) : Chip :=
  let d := ((c.dropLink p).endCableTest p).storeMode p v c.lt
  let e := ((if c.portMode p = 0 ∧ wfld v 3 0 ≠ 0 then d.seedBackoff p else d).endBeacons p).resolveFixed p v
  e.setBit (ETH_Pn_STAT p) 23 (p < 2 ∧ wfld v 3 0 ≠ 0 ∧ wfld v 7 6 = 2)

theorem modeWrite_listed (h : modeListed p (wfld v 3 0) = true) :
    modeWrite c p v =
      (let d := c.enterMode p v
       if (wfld v 3 0 = 8 ∨ wfld v 3 0 = 9) ∧ (d.portRun p).jabber = false then d.raiseLink p else d).done := by
  have hn : ¬(!modeListed p (wfld v 3 0)) = true := by rw [h]; decide
  exact if_neg hn

theorem SamePort.endCableTest (hp : p < 8) (c : Chip) : SamePort p c (c.endCableTest p) := by
  unfold Chip.endCableTest
  refine ite (trans (trans (cableTest c) (cablePairs _ ?_ _)) (raise hp _)) (refl c)
  exact fun i => List.mem_range.1

theorem SamePort.endBeacons (hp : p < 8) (c : Chip) : SamePort p c (c.endBeacons p) := by
  unfold Chip.endBeacons
  exact ite (trans (plcaStat c) (raise hp _)) (refl c)

theorem Chip.storeMode_modeSet (t : Nat) :
    ModeSet p (v &&& 0x33CF) (wfld v 3 0) false (c.portRun p).jabber (c.storeMode p v t) := by
  have hlt := wfld_lt v 3 0
  have hw : (w32 (wfld v 3 0)).toNat = wfld v 3 0 := (BitVec.toNat_ofNat (w := 32) _).trans (by omega)
  refine ⟨(Chip.reg_setReg_other _ _ ?_).trans (Chip.reg_setReg_same ..), ?_, ?_, ?_⟩
  · unfold ETH_Pn_CTL ETH_Pn_STAT
    omega
  · refine (congrArg (wfld · 3 0) (Chip.reg_setReg_same ..)).trans ?_
    unfold wfld nfld at hw ⊢
    omega
  · refine (congrArg (wbit · 31) (Chip.reg_setReg_same ..)).trans ?_
    rw [wbit_eq_wfld]
    unfold wfld nfld at hw ⊢
    rw [hw]
    refine decide_eq_false ?_
    omega
  · exact (congrArg PortRun.jabber (tblGet_set_same ..)).trans rfl

theorem ModeSet.resolveFixed (h : ModeSet p ctl mode up jab c) : ModeSet p ctl mode up jab (c.resolveFixed p v) := by
  unfold Chip.resolveFixed
  split
  · exact h.resolve
  · exact h

theorem Chip.enterMode_modeSet (hp : p < 8) (hl : c.linkUp p = false) :
    ModeSet p (v &&& 0x33CF) (wfld v 3 0) false (c.portRun p).jabber (c.enterMode p v) := by
  have hsame : SamePort p c ((c.dropLink p).endCableTest p) := (SamePort.dropLink hp hl).trans (.endCableTest hp _)
  have hstore := Chip.storeMode_modeSet (c := (c.dropLink p).endCableTest p) (p := p) (v := v) c.lt
  rw [hsame.portRun] at hstore
  refine ModeSet.setStatBit (.resolveFixed (.same ?_ (.endBeacons hp _))) (by decide) (by decide)
  split
  · exact hstore.seedBackoff
  · exact hstore

/-- A listed mode written to a port whose link is down: CTL, the mode in force, and the link of a multidrop segment. -/
theorem modeWrite_modeSet (hp : p < 8) (hm : modeListed p (wfld v 3 0) = true) (hl : c.linkUp p = false) :
    ModeSet p (v &&& 0x33CF) (wfld v 3 0)
      (decide (wfld v 3 0 = 8 ∨ wfld v 3 0 = 9) && !(c.portRun p).jabber) (c.portRun p).jabber (modeWrite c p v) := by
  have h := Chip.enterMode_modeSet (v := v) hp hl
  rw [modeWrite_listed hm]
  refine ModeSet.same ?_ (.done _)
  dsimp only
  rw [h.jabber]
  split
  next hr =>
    have hj : (c.portRun p).jabber = false := h.jabber.symm.trans (h.jabber.trans hr.2)
    rw [decide_eq_true hr.1, hj]
    rw [hj] at h
    exact h.raiseLink hp
  next hr =>
    have hup : (decide (wfld v 3 0 = 8 ∨ wfld v 3 0 = 9) && !(c.portRun p).jabber) = false := by
      rw [Bool.and_eq_false_iff, decide_eq_false_iff_not, Bool.not_eq_false']
      by_cases ht : wfld v 3 0 = 8 ∨ wfld v 3 0 = 9
      · exact .inr (eq_true_of_ne_false fun g => hr ⟨ht, g⟩)
      · exact .inl ht
    rw [hup]
    exact h

end

/-! ### The commands of a port -/

theorem modeWrite_refused (h : modeListed p (wfld v 3 0) = false) : modeWrite c p v = (c.portFlag p 7).done := by
  refine if_pos ?_
  rw [h]
  rfl

theorem Chip.atPort_congr {f g : Chip → Chip} (h : f c = g c) : c.atPort p f = c.atPort p g := by
  unfold Chip.atPort
  rw [h]

/-- A step that leaves the link as it is calls no firmware. -/
theorem Chip.atPort_of_linkUp {f : Chip → Chip} (h : (f c).linkUp p = c.linkUp p) : c.atPort p f = f c := by
  have hn : ¬(!c.linkUp p && (f c).linkUp p && (f c).serving) = true := by
    rw [h, Bool.not_and_self]
    exact Bool.false_ne_true
  exact if_neg hn

theorem Chip.atPort_setPortRun {r : PortRun} : c.atPort p (fun _ => c.setPortRun p r) = c.setPortRun p r :=
  Chip.atPort_of_linkUp (f := fun _ => c.setPortRun p r) rfl

section
variable {r : AnResult} {speed : Nat} {mdix : Bool}

theorem autonegComplete_none (hn : c.negotiates p = true) (hl : c.linkUp p = false)
    (h : (c.setReg (ETH_Pn_ANLP p) (r.lp &&& 0x1AF)).anOutcome p r = none) :
    autonegComplete c p r = (c.setReg (ETH_Pn_ANLP p) (r.lp &&& 0x1AF)).setBit (ETH_Pn_STAT p) 30 false := by
  simp only [autonegComplete, hn, hl, h, Bool.not_false, Bool.and_self, if_true]

theorem autonegComplete_some {s : Nat} {f : Bool} (hn : c.negotiates p = true) (hl : c.linkUp p = false)
    (h : (c.setReg (ETH_Pn_ANLP p) (r.lp &&& 0x1AF)).anOutcome p r = some (s, f)) :
    autonegComplete c p r =
      (let c2 := ((c.setReg (ETH_Pn_ANLP p) (r.lp &&& 0x1AF)).resolve p s f).setBit (ETH_Pn_STAT p) 30 true
       let c3 := if p < 2 ∧ c.fld (ETH_Pn_CTL p) 7 6 = 0 then c2.setBit (ETH_Pn_STAT p) 23 r.mdix else c2
       c3.portEv p 6) := by
  simp only [autonegComplete, hn, hl, h, Bool.not_false, Bool.and_self, if_true]

/-- The modes in which a port negotiates (R104). -/
theorem mode_of_negotiates (h : c.negotiates p = true) :
    c.portMode p = 1 ∨ c.portMode p = 0xA ∨ c.portMode p = 0xB ∨ c.portMode p = 0xD := by
  simp only [Chip.negotiates, Bool.or_eq_true, Bool.and_eq_true, beq_iff_eq] at h
  omega

theorem linkComesUp_up (h0 : c.portMode p ≠ 0) (hm : ¬(c.portMode p = 8 ∨ c.portMode p = 9)) (hl : c.linkUp p = false)
    (hn : c.negotiates p = true → c.bit (ETH_Pn_STAT p) 30 = true) :
    linkComesUp c p speed mdix =
      (let mode := c.portMode p
       let c1 := if 4 ≤ p then c.setBit (ETH_Pn_STAT p) 22 true else c
       let c2 := if (mode = 0xA ∨ mode = 0xD) ∧ c.negotiates p = false
         then c1.resolve p (laneSpeed mode speed) true else c1
       let c3 := if (mode = 2 ∨ mode = 3) ∧ c.fld (ETH_Pn_CTL p) 7 6 = 0
         then c2.setBit (ETH_Pn_STAT p) 23 mdix else c2
       c3.raiseLink p) := by
  refine if_neg ?_
  rintro (h | h | h | h | ⟨h, g⟩)
  · exact h0 h
  · exact hm (.inl h)
  · exact hm (.inr h)
  · exact Bool.false_ne_true (hl.symm.trans h)
  · exact Bool.false_ne_true (g.symm.trans (hn h))

/-- A port that has negotiated: what it resolved stands already. -/
theorem linkComesUp_negotiated (h0 : c.portMode p ≠ 0) (hm : ¬(c.portMode p = 8 ∨ c.portMode p = 9))
    (hl : c.linkUp p = false) (hn : c.negotiates p = true) (h : c.bit (ETH_Pn_STAT p) 30 = true) :
    linkComesUp c p speed mdix = (if 4 ≤ p then c.setBit (ETH_Pn_STAT p) 22 true else c).raiseLink p := by
  have hmode := mode_of_negotiates hn
  rw [linkComesUp_up h0 hm hl fun _ => h]
  dsimp only
  have hlane : ¬((c.portMode p = 0xA ∨ c.portMode p = 0xD) ∧ c.negotiates p = false) := fun g =>
    Bool.false_ne_true (g.2.symm.trans hn)
  have hforced : ¬((c.portMode p = 2 ∨ c.portMode p = 3) ∧ c.fld (ETH_Pn_CTL p) 7 6 = 0) := by omega
  rw [if_neg hlane, if_neg hforced]

/-- A copper port in a forced mode with auto crossover has found its crossover. -/
theorem linkComesUp_forced (hp : p < 2) (hm : c.portMode p = 2 ∨ c.portMode p = 3)
    (hx : c.fld (ETH_Pn_CTL p) 7 6 = 0) (hl : c.linkUp p = false) :
    linkComesUp c p speed mdix = (c.setBit (ETH_Pn_STAT p) 23 mdix).raiseLink p := by
  have hn : ¬c.negotiates p = true := fun g => absurd (mode_of_negotiates g) (by omega)
  rw [linkComesUp_up (by omega) (by omega) hl fun g => absurd g hn]
  dsimp only
  have hlane : ¬((c.portMode p = 0xA ∨ c.portMode p = 0xD) ∧ c.negotiates p = false) := by omega
  have hsync : ¬4 ≤ p := by omega
  rw [if_neg hlane, if_pos ⟨hm, hx⟩, if_neg hsync]

theorem linkLost_down (hl : c.linkUp p = true) (hm : ¬(c.portMode p = 8 ∨ c.portMode p = 9)) :
    linkLost c p =
      (let d := (c.dropLink p).setBit (ETH_Pn_STAT p) 30 false
       if 4 ≤ p then (d.setBit (ETH_Pn_STAT p) 22 false).count p 63 1 else d) :=
  if_pos ⟨hl, fun g => hm (.inl g), fun g => hm (.inr g)⟩

theorem linkLost_ignored (h : c.linkUp p = false ∨ c.portMode p = 8 ∨ c.portMode p = 9) : linkLost c p = c := by
  refine if_neg fun ⟨g, h8, h9⟩ => ?_
  rcases h with h | h | h
  · exact Bool.false_ne_true (h.symm.trans g)
  · exact h8 h
  · exact h9 h

theorem jabber_ends (hm : c.portMode p = 8 ∨ c.portMode p = 9) (hl : c.linkUp p = false) :
    jabber c p false = (c.setPortRun p { c.portRun p with jabber := false }).raiseLink p := by
  simp only [jabber, Bool.false_eq_true, if_false, if_pos (And.intro hm hl)]

theorem jabber_cleared (h : ¬(c.portMode p = 8 ∨ c.portMode p = 9) ∨ c.linkUp p = true) :
    jabber c p false = c.setPortRun p { c.portRun p with jabber := false } := by
  have hn : ¬((c.portMode p = 8 ∨ c.portMode p = 9) ∧ c.linkUp p = false) := fun ⟨g, k⟩ =>
    h.elim (fun f => f g) fun f => Bool.false_ne_true (k.symm.trans f)
  simp only [jabber, Bool.false_eq_true, if_false, if_neg hn]

variable {active : Bool} {cur n : Nat}

theorem plcaActive_on (hm : c.portMode p = 9) (hn : c.fld (ETH_Pn_PLCA_CTL p) 7 0 ≠ 255) :
    plcaActive c p active cur n =
      (let d := (c.count p 60 n).setPortRun p { c.portRun p with curid := cur, oppAt := c.lt, oppSent := 0 }
       if c.bit (ETH_Pn_PLCA_STAT p) 31 = active then d
       else (d.setBit (ETH_Pn_PLCA_STAT p) 31 active).portEv p 5) :=
  if_pos ⟨hm, hn⟩

end

end Sys2Proof.Machine

namespace Sys2Proof
open Machine

/-- Settles O17: a mode write by the port's state behind it, and the other commands by their conditions. What CTL holds
of MDI and LOOP 0b11 is log entry 38's; that a lost link clears ANDONE, and counts a loss of synchronisation on P4 to
P7, is the model's choice. -/
theorem portModesAndLinks : Obligations.PortModesAndLinks := by
  unfold Obligations.PortModesAndLinks
  intro m p v r speed mdix cur n c q mode t1s set1 run plca
  have hp := p.isLt
  refine ⟨fun h => ?_, fun hm hl => ?_, fun hn hl => ⟨fun h => ?_, fun s f h => ?_⟩, fun h0 hm hl hn h => ?_,
    fun hq hm hx hl => ?_, fun hl hm => ?_, fun h => ?_, ?_, fun hm hl => ?_, fun h => ?_,
    fun hm hn a => ⟨fun h => ?_, fun h => ?_⟩, fun hm a => ?_⟩
  · exact does_portModeWrite ((regWrite_ETH_Pn_CTL p).trans (modeWrite_refused h))
  · have hw := modeWrite_modeSet hp hm hl
    refine (does_portModeWrite (regWrite_ETH_Pn_CTL p)).gives ⟨hw.ctl, hw.mode, hw.up, ?_⟩
    rw [modeWrite_listed hm]
    rfl
  · exact does_autonegComplete (Chip.atPort_congr (autonegComplete_none hn hl h))
  · exact does_autonegComplete (Chip.atPort_congr (autonegComplete_some hn hl h))
  · exact does_linkUp (Chip.atPort_congr (linkComesUp_negotiated h0 hm hl hn h))
  · exact does_linkUp (Chip.atPort_congr (linkComesUp_forced hq hm hx hl))
  · exact does_linkDown (linkLost_down hl hm)
  · exact does_linkDown (linkLost_ignored h)
  · exact does_jabber rfl
  · exact does_jabber (Chip.atPort_congr (jabber_ends hm hl))
  · exact does_jabber ((Chip.atPort_congr (jabber_cleared h)).trans Chip.atPort_setPortRun)
  · exact does_plcaActiveChange ((plcaActive_on hm hn).trans (if_pos h))
  · exact does_plcaActiveChange ((plcaActive_on hm hn).trans (if_neg h))
  · exact does_plcaActiveChange (if_neg fun g => hm g.1)

end Sys2Proof
end

section
/-!
PROOF. Table operations of the switch (R164, R165): what SWX_TBL_CMD starts, and how each operation ends.
-/
namespace Sys2Proof.Machine

variable {c : Chip} {m op t i r j : Nat} {v : W32}

/-- The word that starts operation `op` on entry `i` of table `t`. -/
def tblWord (op t i : Nat) : W32 := w32 (0x80000000 + at_ op 28 + at_ t 24 + i)

theorem tblWord_toNat (ho : op < 4) (ht : t < 16) (hi : i < 65536) :
    (tblWord op t i).toNat = 0x80000000 + op * 2 ^ 28 + t * 2 ^ 24 + i := by
  refine (BitVec.toNat_ofNat ..).trans ?_
  unfold at_
  omega

theorem tblWord_fields (ho : op < 4) (ht : t < 16) (hi : i < 65536) :
    wbit (tblWord op t i) 31 = true ∧ wfld (tblWord op t i) 27 24 = t ∧ wfld (tblWord op t i) 15 0 = i ∧
      wfld (tblWord op t i) 29 28 = op := by
  have h := tblWord_toNat ho ht hi
  refine ⟨?_, ?_, ?_, ?_⟩
  · rw [wbit_eq_wfld]
    unfold wfld nfld
    rw [h]
    exact decide_eq_true (by omega)
  all_goals
    unfold wfld nfld
    rw [h]
    omega

/-- A command while an operation runs changes nothing. -/
theorem tblCmdWrite_busy (h : c.swx.tblOp ≠ none) : tblCmdWrite c v = c.done := if_neg fun g => h g.2

theorem tblCmdWrite_free (h : c.swx.tblOp = none) (ho : op < 4) (ht : t < 16) (hi : i < 65536) :
    tblCmdWrite c (tblWord op t i) =
      (match op with
        | 0 => tableRead c t i
        | 1 => tableWrite c t i
        | 2 => tableSearch c t i
        | _ => tableClear c t i).done := by
  obtain ⟨hg, hft, hfi, hfo⟩ := tblWord_fields ho ht hi
  unfold tblCmdWrite
  simp only [hg, h, hft, hfi, hfo, and_self, if_true] <;> rfl

/-! ### Where an operation ends (R164) -/

theorem tblBad_table (h : 12 ≤ t) (ht : t < 16) : tblBad t i = some 3 := by
  obtain rfl | rfl | rfl | rfl : t = 12 ∨ t = 13 ∨ t = 14 ∨ t = 15 := by omega
  all_goals rfl

theorem tblBad_index (h : t < 12) (hi : tableSize t ≤ i) : tblBad t i = some 2 := by
  have hall : ∀ k : Fin 12, tableSize k.val ≠ 0 := by decide
  have h0 : tableSize t ≠ 0 := hall ⟨t, h⟩
  unfold tblBad
  rw [if_neg h0, if_pos hi]

theorem tblBad_none (hi : i < tableSize t) : tblBad t i = none := by
  unfold tblBad
  rw [if_neg (by omega), if_neg (by omega)]

theorem tableRead_bad (h : tblBad t i = some r) : tableRead c t i = c.tblStart r i := by
  simp only [tableRead, h]

theorem tableRead_good (h : tblBad t i = none) : tableRead c t i = (c.setTblData (c.entry t i)).tblStart 0 i := by
  simp only [tableRead, h]

theorem tableWrite_bad (h : tblBad t i = some r) : tableWrite c t i = c.tblStart r i := by
  simp only [tableWrite, h]

theorem tableWrite_refused (h : tblBad t i = none) (hr : Chip.tblRefuses t i c.tblData = some r) :
    tableWrite c t i = c.tblStart r i := by
  simp only [tableWrite, h, hr]

theorem tableWrite_good (h : tblBad t i = none) (hr : Chip.tblRefuses t i c.tblData = none) :
    tableWrite c t i = (c.writeEntry t i c.tblData).tblStart 0 i := by
  simp only [tableWrite, h, hr]

/-- In tables without buckets and histories a write replaces the entry's writable bits. -/
theorem writeEntry_masked (h4 : t ≠ 4) (h9 : t ≠ 9) (e : List W32) :
    c.writeEntry t i e = c.setEntry t i (maskEntry t (c.entry t i) e) := by
  unfold Chip.writeEntry
  split
  next => exact absurd rfl h4
  next => exact absurd rfl h9
  next => rfl

theorem tableClear_bad (h : tblBad t i = some r) : tableClear c t i = c.tblStart r i := by
  simp only [tableClear, h]

theorem tableClear_good (h : tblBad t i = none) :
    tableClear c t i = if t = 8 then c.tblStart 3 i else (c.setEntry t i zeroEntry).tblStart 0 i := by
  simp only [tableClear, h]

section
variable {e : List W32}

theorem tblRefuses_gates : Chip.tblRefuses 8 i e = some 3 := if_pos rfl

theorem tblRefuses_bucket (h : bucketOf (keyOf e).1 (keyOf e).2 ≠ i / 4) : Chip.tblRefuses 0 i e = some 2 :=
  (if_neg (by decide)).trans (if_pos ⟨rfl, h⟩)

theorem tblRefuses_fields (h8 : t ≠ 8) (hb : t = 0 → bucketOf (keyOf e).1 (keyOf e).2 = i / 4) :
    Chip.tblRefuses t i e = if entryValid t e then none else some 4 :=
  (if_neg h8).trans (if_neg fun g => g.2 (hb g.1))

/-- The ports of a forwarding entry: at most one. -/
theorem entryValid_forwarding : entryValid 0 e = decide (bitCount (e.getD 2 0) 10 ≤ 1) := rfl

end

/-- The static or dynamic entry that a search finds. -/
theorem tableSearch_forwarding (h : t ≤ 1) :
    tableSearch c t i =
      match (if t = 0 then c.fdbDynamic (keyOf c.tblData).1 (keyOf c.tblData).2
        else c.fdbStatic (keyOf c.tblData).1 (keyOf c.tblData).2) with
      | none => c.tblStart 1 i
      | some j => (c.setTblData (c.entry t j)).tblStart 0 j := by
  unfold tableSearch
  obtain rfl | rfl : t = 0 ∨ t = 1 := by omega
  · dsimp only [if_true]
    cases c.fdbDynamic (keyOf c.tblData).1 (keyOf c.tblData).2 <;> rfl
  · simp only [Nat.one_ne_zero, if_false, if_true]
    cases c.fdbStatic (keyOf c.tblData).1 (keyOf c.tblData).2 <;> rfl

theorem tableSearch_other (h : 1 < t) : tableSearch c t i = c.tblStart 3 i := by
  unfold tableSearch
  simp only [if_neg (show t ≠ 0 by omega), if_neg (show t ≠ 1 by omega)]

theorem tableOpDone_some (h : c.swx.tblOp = some (r, j)) :
    tableOpDone c =
      ({ c.setReg SWX_TBL_STAT (w32 (0x40000000 + at_ r 16 + j)) with
          swx := { c.swx with tblOp := none } } : Chip).raise 221 0 := by
  simp only [tableOpDone, h]

theorem tableOpDone_none (h : c.swx.tblOp = none) : tableOpDone c = c := by
  simp only [tableOpDone, h]

end Sys2Proof.Machine

namespace Sys2Proof
open Machine

section
variable {c : Chip} (m : Master) (t : Fin 16) (i : Fin 65536)

theorem does_tableRead_free (h : c.swx.tblOp = none) : Does (.tableRead m t i) c (tableRead c t.val i.val).done :=
  does_tableRead (regWrite_SWX_TBL_CMD.trans (tblCmdWrite_free (op := 0) h (by decide) t.isLt i.isLt))

theorem does_tableWrite_free (h : c.swx.tblOp = none) : Does (.tableWrite m t i) c (tableWrite c t.val i.val).done :=
  does_tableWrite (regWrite_SWX_TBL_CMD.trans (tblCmdWrite_free (op := 1) h (by decide) t.isLt i.isLt))

theorem does_tableSearch_free (h : c.swx.tblOp = none) : Does (.tableSearch m t i) c (tableSearch c t.val i.val).done :=
  does_tableSearch (regWrite_SWX_TBL_CMD.trans (tblCmdWrite_free (op := 2) h (by decide) t.isLt i.isLt))

theorem does_tableClear_free (h : c.swx.tblOp = none) : Does (.tableClear m t i) c (tableClear c t.val i.val).done :=
  does_tableClear (regWrite_SWX_TBL_CMD.trans (tblCmdWrite_free (op := 3) h (by decide) t.isLt i.isLt))

end

/-- Settles O22: a command while an operation runs; then each operation by the table, the index and the words that it is
given. That table 8 answers BADTABLE, and a key of another bucket BADINDEX, is log entry 131's. -/
theorem tableOperationsFollowR164 : Obligations.TableOperationsFollowR164 := by
  unfold Obligations.TableOperationsFollowR164
  intro m t i c e k ends
  refine ⟨fun h => ⟨?_, ?_, ?_, ?_⟩, fun h => ?_, fun r j h => does_tableOpDone (tableOpDone_some h)⟩
  · exact does_tableRead (regWrite_SWX_TBL_CMD.trans (tblCmdWrite_busy h))
  · exact does_tableWrite (regWrite_SWX_TBL_CMD.trans (tblCmdWrite_busy h))
  · exact does_tableSearch (regWrite_SWX_TBL_CMD.trans (tblCmdWrite_busy h))
  · exact does_tableClear (regWrite_SWX_TBL_CMD.trans (tblCmdWrite_busy h))
  have hread {d : Chip} (g : tableRead c t.val i.val = d) : Does (.tableRead m t i) c d.done :=
    g ▸ does_tableRead_free m t i h
  have hwrite {d : Chip} (g : tableWrite c t.val i.val = d) : Does (.tableWrite m t i) c d.done :=
    g ▸ does_tableWrite_free m t i h
  have hsearch {d : Chip} (g : tableSearch c t.val i.val = d) : Does (.tableSearch m t i) c d.done :=
    g ▸ does_tableSearch_free m t i h
  have hclear {d : Chip} (g : tableClear c t.val i.val = d) : Does (.tableClear m t i) c d.done :=
    g ▸ does_tableClear_free m t i h
  refine ⟨fun ht => ?_, fun ht hi => ?_, fun hi => ?_, fun ht => hsearch (tableSearch_other ht), fun ht => ?_,
    does_tableOpDone (tableOpDone_none h)⟩
  · have hb : tblBad t.val i.val = some 3 := tblBad_table ht t.isLt
    exact ⟨hread (tableRead_bad hb), hwrite (tableWrite_bad hb), hclear (tableClear_bad hb)⟩
  · have hb : tblBad t.val i.val = some 2 := tblBad_index ht hi
    exact ⟨hread (tableRead_bad hb), hwrite (tableWrite_bad hb), hclear (tableClear_bad hb)⟩
  · have hb : tblBad t.val i.val = none := tblBad_none hi
    refine ⟨hread (tableRead_good hb), fun h8 => ?_, fun h8 => ⟨?_, ?_⟩, fun h0 h8 hv => ?_, fun h0 h4 h8 h9 hv => ?_,
      fun h0 hk => ?_, fun h0 hk => ⟨fun hn => ?_, fun hn => ?_⟩⟩
    · exact hclear ((tableClear_good hb).trans (if_neg h8))
    · exact hclear ((tableClear_good hb).trans (if_pos h8))
    · refine hwrite (tableWrite_refused hb ?_)
      rw [h8]
      exact tblRefuses_gates
    · refine hwrite (tableWrite_refused hb ((tblRefuses_fields h8 fun g => absurd g h0).trans (if_neg ?_)))
      exact Bool.not_eq_true _ ▸ hv
    · refine hwrite ((tableWrite_good hb ((tblRefuses_fields h8 fun g => absurd g h0).trans (if_pos hv))).trans ?_)
      rw [writeEntry_masked h4 h9]
    · refine hwrite (tableWrite_refused hb ?_)
      rw [h0]
      exact tblRefuses_bucket hk
    · refine hwrite (tableWrite_refused hb ((tblRefuses_fields (by omega) fun _ => hk).trans (if_neg ?_)))
      rw [h0, entryValid_forwarding, decide_eq_true_iff]
      exact Nat.not_le.2 hn
    · refine hwrite ((tableWrite_good hb ((tblRefuses_fields (by omega) fun _ => hk).trans (if_pos ?_))).trans ?_)
      · rw [h0, entryValid_forwarding]
        exact decide_eq_true hn
      · rw [writeEntry_masked (by omega) (by omega), h0]
  · refine ⟨fun hn => ?_, fun j hj => ?_⟩
    · exact hsearch ((tableSearch_forwarding ht).trans (by rw [hn]))
    · exact hsearch ((tableSearch_forwarding ht).trans (by rw [hj]))

end Sys2Proof
end

section
/-!
PROOF. Gate lists and stream gates (R152, R153, R157): change requests, the list that becomes operational, and the
entries.
-/
namespace Sys2Proof.Machine

variable {c : Chip} {p i r e t asked : Nat} {v : W32} {k : GclCfg}

/-! ### Change requests (R153) -/

/-- The conditions under which a change request is refused. -/
def Chip.gclBad (c : Chip) (p : Nat) : Prop :=
  c.fld (SWX_Pp_GCL_CTL p) 10 0 = 0 ∨ 1024 < c.fld (SWX_Pp_GCL_CTL p) 10 0 ∨ (c.reg (SWX_Pp_CYCLE p)).toNat < 1000 ∨
    1000000000 < (c.reg (SWX_Pp_CYCLE p)).toNat ∨ c.bit (SWX_Pp_GCL_CTL p) 31 = false

/-- The list of a change request, pending for a time. -/
def Chip.gclPend (c : Chip) (p t : Nat) : Chip :=
  (c.setGcl p { c.gclOf p with
    pending := some ⟨⟨c.adminList p (c.fld (SWX_Pp_GCL_CTL p) 10 0), c.reg64 (SWX_Pp_BASE_LO p),
      (c.reg (SWX_Pp_CYCLE p)).toNat, (c.reg (SWX_Pp_CYCLEEXT p)).toNat⟩, t, c.ltNs⟩ }).done

theorem gclChange_bad (hv : wbit v 0 = true) (h : c.gclBad p) :
    gclChange c p v = (c.flag (SWX_Pp_GCL_STAT p) 29 215).done :=
  (if_pos hv).trans (if_pos h)

theorem gclChange_good (hv : wbit v 0 = true) (h : ¬c.gclBad p) :
    gclChange c p v = c.gclPend p
      (if c.lt + 2000 * 65536 < c.reg64 (SWX_Pp_BASE_LO p) * 65536 then c.reg64 (SWX_Pp_BASE_LO p)
        else c.reg64 (SWX_Pp_BASE_LO p) + (((c.lt + 2000 * 65536) / 65536 - c.reg64 (SWX_Pp_BASE_LO p)) /
          (c.reg (SWX_Pp_CYCLE p)).toNat + 1) * (c.reg (SWX_Pp_CYCLE p)).toNat) :=
  (if_pos hv).trans (if_neg h)

theorem gclChangeTime_none (h : (c.gclOf p).pending = none) : gclChangeTime c p = c := by
  simp only [gclChangeTime, h]

theorem gclChangeTime_some (h : (c.gclOf p).pending = some ⟨k, t, asked⟩) :
    gclChangeTime c p = if t ≤ c.ltNs then gateEntryStart ((c.operList p k).raise 214 0) p else c := by
  simp only [gclChangeTime, h]

/-! ### The list shown in table 8 (R153) -/

/-- The words of table 8 that show an entry. -/
def shownWords (x : GclEntry) : List W32 := [w32 (at_ x.op 28 + x.gates), w32 x.interval, 0, 0, 0, 0, 0, 0]

/-- The entries `es` written to table 8 from `n` on. -/
def Chip.showEntries (c : Chip) (p : Nat) (es : List GclEntry) (n : Nat) : Chip :=
  (es.zipIdx n).foldl (fun c e => c.setEntry 8 (p * 1024 + e.2) (shownWords e.1)) c

theorem operList_eq : c.operList p k =
    (c.setGcl p { c.gclOf p with oper := some k, pending := none, started := false }).showEntries p k.entries 0 := by
  unfold Chip.operList Chip.showEntries shownWords
  rfl

theorem Chip.gclOf_setGcl (g : Gcl) : (c.setGcl p g).gclOf p = g := tblGet_set_same ..

theorem Chip.showEntries_cons (x : GclEntry) (es : List GclEntry) (n : Nat) :
    c.showEntries p (x :: es) n = (c.setEntry 8 (p * 1024 + n) (shownWords x)).showEntries p es (n + 1) := by
  unfold Chip.showEntries
  rw [List.zipIdx_cons, List.foldl_cons]

theorem Chip.setEntry_gclOf (t n : Nat) (w : List W32) (c : Chip) : (c.setEntry t n w).gclOf = c.gclOf := rfl

theorem Chip.showEntries_gcl (es : List GclEntry) (n : Nat) (c : Chip) : (c.showEntries p es n).gclOf = c.gclOf := by
  induction es generalizing c n with
  | nil => rfl
  | cons x es ih =>
    rw [Chip.showEntries_cons, ih, Chip.setEntry_gclOf]

theorem Chip.entry_setEntry_8 (j n : Nat) (w : List W32) :
    (c.setEntry 8 n w).entry 8 j = if j = n then w else c.entry 8 j := by
  unfold Chip.setEntry Chip.entry
  rw [tblGet_set]
  refine ite_congr (propext ?_) (fun _ => rfl) fun _ => rfl
  omega

theorem Chip.showEntries_below (es : List GclEntry) {j n : Nat} (h : j < n) (c : Chip) :
    (c.showEntries p es n).entry 8 (p * 1024 + j) = c.entry 8 (p * 1024 + j) := by
  induction es generalizing c n with
  | nil => rfl
  | cons x es ih => rw [Chip.showEntries_cons, ih (by omega), Chip.entry_setEntry_8, if_neg (by omega)]

theorem Chip.showEntries_entry (es : List GclEntry) {j : Nat} (h : j < es.length) (n : Nat) (c : Chip) :
    (c.showEntries p es n).entry 8 (p * 1024 + (n + j)) = shownWords (es.getD j ⟨0, 0, 0⟩) := by
  induction es generalizing c j n with
  | nil => exact absurd h (Nat.not_lt_zero j)
  | cons x es ih =>
    rw [Chip.showEntries_cons]
    cases j with
    | zero =>
      exact (Chip.showEntries_below es (Nat.lt_add_one n) _).trans ((Chip.entry_setEntry_8 ..).trans (if_pos rfl))
    | succ j =>
      rw [show n + (j + 1) = n + 1 + j by omega]
      exact ih (Nat.lt_of_succ_lt_succ h) _ _

/-! ### The start of an entry (R152) -/

theorem Chip.settle_lt (p : Nat) (c : Chip) : (c.settle p).lt = c.lt := by
  unfold Chip.settle
  generalize List.range 8 = is
  induction is generalizing c with
  | nil => rfl
  | cons i is ih => exact ih _

theorem gateEntryStart_disabled (h : c.bit (SWX_Pp_GCL_CTL p) 31 = false) : gateEntryStart c p = c := by
  refine if_neg ?_
  rw [h]
  exact Bool.false_ne_true

theorem gateEntryStart_position (h : c.bit (SWX_Pp_GCL_CTL p) 31 = true) (hp : (c.gclOf p).position c.ltNs = some (r, e)) :
    gateEntryStart c p =
      if (c.gclOf p).started && (c.gclOf p).cycle == r && (c.gclOf p).entry == e then c else c.enterEntry p r e := by
  simp only [gateEntryStart, h, hp, if_true]

/-- On SP8 and SP9, which have no preemption and no link. -/
theorem enterEntry_inner (h8 : 8 ≤ p) (hk : ((c.settle p).gclOf p).oper = some k) :
    c.enterEntry p r e = (c.settle p).setGcl p { (c.settle p).gclOf p with
      cycle := r, entry := e, started := true, since := c.lt
      gates := (k.entries.getD e ⟨0, 0, 0⟩).gates, hold := false } := by
  have hlt : decide (p < 8) = false := decide_eq_false (Nat.not_lt.2 h8)
  have hlate (d : Chip) (x y : Nat) : d.lateWake p x y = d := if_neg fun g => Nat.not_lt.2 h8 g.1
  unfold Chip.enterEntry
  simp only [hk, hlt, Bool.and_false, Bool.false_and, Bool.false_eq_true, if_false, hlate, Chip.settle_lt]

/-! ### Stream gates (R157) -/

theorem Chip.sgateInCycle_iff {g : SGate} :
    c.sgateInCycle g = true ↔ g.started = true ∧ ∃ x, c.sgateCycle g.ctrl = some x ∧ x.1 = g.cycle := by
  unfold Chip.sgateInCycle
  cases c.sgateCycle g.ctrl <;> simp

section
variable (h : c.sgateInCycle (c.sgateOf i) = true)
include h

theorem streamGateEntry_stays (hl : c.ltNs < (c.sgateOf i).start + (c.sgateOf i).length ∨
    wfld ((c.sgateOf i).ctrl.getD 3 0) 6 0 - 1 ≤ (c.sgateOf i).entry) : streamGateEntry c i = c := by
  have hn : ¬((c.sgateOf i).start + (c.sgateOf i).length ≤ c.ltNs ∧
      (c.sgateOf i).entry + 1 < wfld ((c.sgateOf i).ctrl.getD 3 0) 6 0) := by omega
  unfold streamGateEntry
  rw [if_pos h]
  exact if_neg hn

theorem streamGateEntry_next (hl : (c.sgateOf i).start + (c.sgateOf i).length ≤ c.ltNs)
    (he : (c.sgateOf i).entry < wfld ((c.sgateOf i).ctrl.getD 3 0) 6 0 - 1) :
    streamGateEntry c i =
      (let g := c.sgateOf i
       let x := c.sgateWalk i (g.entry + 1) (g.start + g.length) (wfld (g.ctrl.getD 3 0) 6 0 - 1 - g.entry - 1)
       c.sgateBegin i g.ctrl g.cycle x.1 x.2) := by
  have hp : (c.sgateOf i).start + (c.sgateOf i).length ≤ c.ltNs ∧
      (c.sgateOf i).entry + 1 < wfld ((c.sgateOf i).ctrl.getD 3 0) 6 0 := by omega
  have hleft : wfld ((c.sgateOf i).ctrl.getD 3 0) 6 0 - (c.sgateOf i).entry - 2 =
      wfld ((c.sgateOf i).ctrl.getD 3 0) 6 0 - 1 - (c.sgateOf i).entry - 1 := by omega
  unfold streamGateEntry
  rw [if_pos h]
  refine (if_pos hp).trans ?_
  exact congrArg (fun left =>
    let g := c.sgateOf i
    let x := c.sgateWalk i (g.entry + 1) (g.start + g.length) left
    c.sgateBegin i g.ctrl g.cycle x.1 x.2) hleft

end

section
variable (h : ¬c.sgateInCycle (c.sgateOf i) = true)
include h

theorem streamGateEntry_off (hw : wbit ((c.entry 5 i).getD 3 0) 31 = false) :
    streamGateEntry c i = c.setSgate i { SGate.reset with ctrl := c.entry 5 i } := by
  unfold streamGateEntry
  rw [if_neg h]
  exact if_pos hw

theorem streamGateEntry_early (hw : wbit ((c.entry 5 i).getD 3 0) 31 = true) (hc : c.sgateCycle (c.entry 5 i) = none) :
    streamGateEntry c i = c.setSgate i { c.sgateOf i with ctrl := c.entry 5 i, started := false } := by
  have hn : ¬wbit ((c.entry 5 i).getD 3 0) 31 = false := fun g => Bool.false_ne_true (g.symm.trans hw)
  unfold streamGateEntry
  rw [if_neg h]
  refine (if_neg hn).trans ?_
  rw [hc]

theorem streamGateEntry_cycle {n start : Nat} (hw : wbit ((c.entry 5 i).getD 3 0) 31 = true)
    (hc : c.sgateCycle (c.entry 5 i) = some (n, start)) :
    streamGateEntry c i =
      (let x := c.sgateWalk i 0 start (wfld ((c.entry 5 i).getD 3 0) 6 0 - 1)
       c.sgateBegin i (c.entry 5 i) n x.1 x.2) := by
  have hn : ¬wbit ((c.entry 5 i).getD 3 0) 31 = false := fun g => Bool.false_ne_true (g.symm.trans hw)
  unfold streamGateEntry
  rw [if_neg h]
  refine (if_neg hn).trans ?_
  rw [hc]

end

section
variable {ctrl : List W32}

theorem Chip.sgateCycle_none
    (h : c.ltNs < join64 (ctrl.getD 1 0) (ctrl.getD 0 0) ∨ (ctrl.getD 2 0).toNat = 0) : c.sgateCycle ctrl = none :=
  if_pos h

theorem Chip.sgateCycle_some (h : join64 (ctrl.getD 1 0) (ctrl.getD 0 0) ≤ c.ltNs) (h0 : (ctrl.getD 2 0).toNat ≠ 0) :
    c.sgateCycle ctrl =
      (let base := join64 (ctrl.getD 1 0) (ctrl.getD 0 0)
       let cyc := (ctrl.getD 2 0).toNat
       some ((c.ltNs - base) / cyc, base + (c.ltNs - base) / cyc * cyc)) :=
  if_neg fun g => g.elim (fun k => Nat.not_lt.2 h k) h0

end

end Sys2Proof.Machine

namespace Sys2Proof
open Machine

/-- Settles O21: a change request, the change time, the start of an entry, and a stream gate's entry. -/
theorem gateListsFollowR152AndR153 : Obligations.GateListsFollowR152AndR153 := by
  unfold Obligations.GateListsFollowR152AndR153
  intro m p i v c q n cycle base g bad listed pend late
  have hv : wbit (v ||| 0x1) 0 = true := by
    rw [wbit_or]
    exact Bool.or_true _
  have hreq {d : Chip} (h : gclChange c q (v ||| 0x1) = d) : Does (.gateListChange m p v) c d :=
    does_gateListChange ((regWrite_SWX_Pp_GCL_CMD p).trans h)
  refine ⟨fun h => hreq (gclChange_bad hv h), fun h hl => ?_, fun h hl => ?_,
    fun h => does_gateListChangeTime (gclChangeTime_none h), fun k t asked h => ⟨fun ht => ?_, fun ht => ?_,
    fun e he => ?_, ?_⟩, fun h => does_gateEntryStart (gateEntryStart_disabled h), fun h r e hp =>
    ⟨fun hs hr he => ?_, fun hs h8 k hk => ?_⟩, ?_⟩
  · exact hreq ((gclChange_good hv h).trans (congrArg (c.gclPend q) (if_pos hl)))
  · exact hreq ((gclChange_good hv h).trans (congrArg (c.gclPend q) (if_neg (Nat.not_lt.2 hl))))
  · exact does_gateListChangeTime ((gclChangeTime_some h).trans (if_neg (Nat.not_le.2 ht)))
  · exact does_gateListChangeTime ((gclChangeTime_some h).trans (if_pos ht))
  · have hw := Chip.showEntries_entry (p := q) k.entries he 0
      (c.setGcl q { c.gclOf q with oper := some k, pending := none, started := false })
    rwa [Nat.zero_add] at hw
  · rw [operList_eq, Chip.showEntries_gcl]
    exact Chip.gclOf_setGcl _
  · refine does_gateEntryStart ((gateEntryStart_position h hp).trans (if_pos ?_))
    rw [Bool.and_eq_true, Bool.and_eq_true, beq_iff_eq, beq_iff_eq]
    exact ⟨⟨hs, hr⟩, he⟩
  · intro s hg
    refine does_gateEntryStart ((gateEntryStart_position h hp).trans ((if_neg ?_).trans ?_))
    · rw [Bool.and_eq_true, Bool.and_eq_true]
      exact fun x => Bool.false_ne_true (hs.symm.trans x.1.1)
    · rw [enterEntry_inner h8 ((congrArg Gcl.oper hg).trans hk), hg]
  · intro s begins words from_ cyc start runs last
    have hruns : c.sgateInCycle (c.sgateOf i.val) = true ↔ runs := Chip.sgateInCycle_iff
    exact ⟨fun hr h => does_streamGateEntry (streamGateEntry_stays (hruns.2 hr) h),
      fun hr ht he => does_streamGateEntry (streamGateEntry_next (hruns.2 hr) ht he),
      fun hr hw => does_streamGateEntry (streamGateEntry_off (mt hruns.1 hr) hw),
      fun hr hw => ⟨fun h => does_streamGateEntry (streamGateEntry_early (mt hruns.1 hr) hw (Chip.sgateCycle_none h)),
        fun hb h0 => does_streamGateEntry (streamGateEntry_cycle (mt hruns.1 hr) hw (Chip.sgateCycle_some hb h0))⟩,
      fun e at_ left => rfl⟩

end Sys2Proof
end

section
/-!
PROOF. The switch's bookkeeping: a frame that waits for pecks, the ledger, the scrubber, recovery, slot windows and
flushes (R141 to R143, R150, R158, R160 to R163, R254).
-/
namespace Sys2Proof.Machine

variable {c d e : Chip} {p cls i s sp n : Nat} {v : W32} {o : Offer}

/-! ### A frame that waits for its pecks (R143) -/

/-- The request of an offered frame, from its descriptor's words. -/
def Offer.req (o : Offer) : TxReq :=
  let w (i : Nat) : W32 := o.words.getD i 0
  ⟨wbit (w 0) 20, wbit (w 0) 21, wfld (w 0) 23 22, wfld (w 3) 31 16, wfld (w 3) 15 0, wfld (w 1) 31 16⟩

theorem peckGrant_none (h : tblGet none c.rq.offers sp = none) : peckGrant c sp = c := by
  simp only [peckGrant, h]

theorem peckGrant_some (h : tblGet none c.rq.offers sp = some o) :
    peckGrant c sp = if c.pecksFree < c.offerPecks sp o.data (parseFrame o.data 0).vid then c
      else (c.setOffer sp none).tqOffer sp o := by
  simp only [peckGrant, h]

theorem tqOffer_dropped (h : c.generate sp o.data (parseFrame o.data 0) o.req = (none, d)) :
    c.tqOffer sp o = d.tqEnd o.tq o.desc 3 := by
  unfold Offer.req at h
  unfold Chip.tqOffer
  simp only [h]

/-- The ports whose link is up, of those that a descriptor's frame would go to. -/
def Chip.offerGoes (c : Chip) (sp : Nat) (o : Offer) : Nat :=
  (List.range 10).foldl (fun n x =>
    if nbit (c.tqPorts sp (o.words.getD 0 0) (o.words.getD 1 0) o.data) x && c.portUp x then n + 2 ^ x else n) 0

theorem tqOffer_sent {data : List Byte} {sent : TxReq} {any : Bool}
    (h : c.generate sp o.data (parseFrame o.data 0) o.req = (some (data, sent), d))
    (hl : (d.admitFrame ⟨data, data.length + 4, sp, none, c.lt⟩).2.linkAll (c.offerGoes sp o)
      (d.admitFrame ⟨data, data.length + 4, sp, none, c.lt⟩).1 (wfld (o.words.getD 0 0) 18 16) (parseFrame o.data 0).vid
      ((parseFrame o.data 0).tagged && wbit (o.words.getD 0 0) 19) sent
      (if wbit (o.words.getD 0 0) 24 then some (wfld (o.words.getD 1 0) 15 8) else none) = (any, e)) :
    c.tqOffer sp o =
      (Chip.poolMarks c (e.release (d.admitFrame ⟨data, data.length + 4, sp, none, c.lt⟩).1)).tqEnd o.tq o.desc
        (if any then 0 else 3) := by
  unfold Offer.req at h
  unfold Chip.offerGoes at hl
  unfold Chip.tqOffer
  simp only [h, hl]

theorem Chip.tqPorts_setOffer (x : Option Offer) (w0 w1 : W32) (data : List Byte) (q : Nat) :
    (c.setOffer q x).tqPorts sp w0 w1 data = c.tqPorts sp w0 w1 data := rfl

theorem Chip.offerGoes_setOffer (x : Option Offer) (q : Nat) : (c.setOffer q x).offerGoes sp o = c.offerGoes sp o := by
  unfold Chip.offerGoes
  rw [Chip.tqPorts_setOffer]
  rfl

/-! ### The ledger (R142) -/

theorem sum_map_le {α : Type} {f g : α → Nat} (h : ∀ x, f x ≤ g x) (xs : List α) : (xs.map f).sum ≤ (xs.map g).sum := by
  induction xs with
  | nil => exact Nat.le_refl _
  | cons x xs ih =>
    rw [List.map_cons, List.map_cons, List.sum_cons, List.sum_cons]
    exact Nat.add_le_add (h x) ih

theorem Chip.pecksQueued_le : c.pecksQueued ≤ c.pecksUsed := by
  unfold Chip.pecksQueued Chip.pecksUsed
  refine sum_map_le (fun x => ?_) _
  split
  · exact Nat.le_refl _
  · exact Nat.zero_le _

/-- The ledger's words with BALANCED so. -/
def Chip.ledgerShown (c : Chip) (balanced : Bool) : Chip :=
  (((((({ c with swx := { c.swx with ledgerReq := false } } : Chip).setReg SWX_LEDGER_FREE (w32 c.pecksFree)).setReg
    SWX_LEDGER_QUEUED (w32 c.pecksQueued)).setReg SWX_LEDGER_TRANSIT (w32 (c.pecksUsed - c.pecksQueued))).setBit
    SWX_LEDGER 30 true).setBit SWX_LEDGER 29 balanced)

theorem ledgerLatch_none (h : c.swx.ledgerReq = false) : ledgerLatch c = c := by
  refine if_neg ?_
  rw [h]
  exact Bool.false_ne_true

theorem ledgerLatch_some (h : c.swx.ledgerReq = true) :
    ledgerLatch c =
      (let balanced := c.pecksFree + c.pecksQueued + (c.pecksUsed - c.pecksQueued) == 12288
       if balanced then c.ledgerShown balanced else (c.ledgerShown balanced).flag SWX_FLAGS 0 208) :=
  if_pos h

theorem Chip.ledger_balanced :
    (c.pecksFree + c.pecksQueued + (c.pecksUsed - c.pecksQueued) == 12288) = decide (c.pecksUsed ≤ 12288) := by
  have h := c.pecksQueued_le
  have hf : c.pecksFree = 12288 - c.pecksUsed := rfl
  rw [Bool.eq_iff_iff, beq_iff_eq, decide_eq_true_iff]
  omega

/-! ### The scrubber (R150) -/

/-- `d` is `c` but for the shapers' credits. -/
def CreditsOnly (c d : Chip) : Prop := d = { c with swx := { c.swx with credits := d.swx.credits } }

namespace CreditsOnly

theorem refl (c : Chip) : CreditsOnly c c := rfl

theorem trans (h : CreditsOnly c d) (g : CreditsOnly d e) : CreditsOnly c e := by
  unfold CreditsOnly at *
  rw [g, h]

theorem settle (p : Nat) (c : Chip) : CreditsOnly c (c.settle p) := by
  unfold Chip.settle
  generalize List.range 8 = is
  induction is generalizing c with
  | nil => exact refl c
  | cons i is ih =>
    refine trans ?_ (ih _)
    rfl

theorem queue (h : CreditsOnly c d) : d.queue p cls = c.queue p cls := by
  rw [h]
  rfl

theorem aged (h : CreditsOnly c d) (k : Copy) : d.aged k = c.aged k := by
  rw [h]
  rfl

end CreditsOnly

/-- No queue's oldest copy is aged. -/
def Chip.freshHeads (c : Chip) : Prop := ∀ p cls k rest, c.queue p cls = k :: rest → c.aged k = false

theorem Chip.freshHeads.credits (h : c.freshHeads) (g : CreditsOnly c d) : d.freshHeads := fun p cls k rest hq =>
  (g.aged k).trans (h p cls k rest (g.queue.symm.trans hq))

theorem Chip.dropAged_fresh {a src : Nat} (h : c.freshHeads) (n : Nat) : c.dropAged p cls a src n = c := by
  cases n with
  | zero => rfl
  | succ n =>
    unfold Chip.dropAged
    cases hq : c.queue p cls with
    | nil => rfl
    | cons k rest =>
      refine if_neg ?_
      rw [h p cls k rest hq]
      exact Bool.false_ne_true

/-- A visit of the scrubber to one queue. -/
def Chip.scrubQueue (c : Chip) (p cls : Nat) : Chip :=
  if (c.txOf p).any fun t => t.copy.cls == cls then c
  else (c.settle p).dropAged p cls SWX_CNT_SCRUBBED 213 (c.queue p cls).length

theorem CreditsOnly.scrubQueue (h : c.freshHeads) : CreditsOnly c (c.scrubQueue p cls) := by
  unfold Chip.scrubQueue
  split
  · exact refl c
  · rw [Chip.dropAged_fresh (h.credits (settle p c))]
    exact settle p c

/-- A step that only changes credits where no head is aged does so when it is repeated. -/
theorem CreditsOnly.foldl {α : Type} {f : Chip → α → Chip} (hf : ∀ c x, c.freshHeads → CreditsOnly c (f c x))
    (xs : List α) (c : Chip) (h : c.freshHeads) : CreditsOnly c (xs.foldl f c) := by
  induction xs generalizing c with
  | nil => exact refl c
  | cons x xs ih => exact (hf c x h).trans (ih _ (h.credits (hf c x h)))

/-- The scrubber's visit to every queue. -/
def Chip.scrubAll (c : Chip) : Chip :=
  (List.range 10).foldl (fun c p => (List.range 8).foldl (fun c cls => c.scrubQueue p cls) c) c

theorem queueScrub_due (h : c.bit SWX_CTL 8 = true ∧ c.swx.scrubAt + (c.reg SWX_SCRUB).toNat * 65536000 ≤ c.lt) :
    queueScrub c = ({ c with swx := { c.swx with scrubAt := c.lt } } : Chip).scrubAll := by
  have hb : (c.bit SWX_CTL 8 && decide (c.swx.scrubAt + (c.reg SWX_SCRUB).toNat * 65536000 ≤ c.lt)) = true :=
    (Bool.and_eq_true _ _).mpr ⟨h.1, decide_eq_true h.2⟩
  exact if_pos hb

theorem queueScrub_early (h : ¬(c.bit SWX_CTL 8 = true ∧ c.swx.scrubAt + (c.reg SWX_SCRUB).toNat * 65536000 ≤ c.lt)) :
    queueScrub c = c := by
  refine if_neg fun g => h ?_
  rw [Bool.and_eq_true, decide_eq_true_iff] at g
  exact g

theorem CreditsOnly.scrubAll (h : c.freshHeads) : CreditsOnly c c.scrubAll :=
  foldl (fun c _ hc => foldl (fun _ _ hd => scrubQueue hd) _ c hc) _ c h

/-! ### Slot windows (R160) -/

/-- The gate of a slot's class is open in the entry that opens its window. -/
def Chip.slotOpens (c : Chip) (s : Nat) : Prop :=
  let w0 := c.entryWord 11 s 0
  ∃ l x, (c.gclOf (wfld w0 26 24)).oper = some l ∧ l.entries[wfld w0 9 0]? = some x ∧ nbit x.gates (wfld w0 22 20) = true

theorem slotWindowOpen_invalid (h : wbit (c.entryWord 11 s 0) 31 = false) : slotWindowOpen c s = c := by
  refine if_pos ?_
  rw [h]
  rfl

theorem slotWindowOpen_valid (h : wbit (c.entryWord 11 s 0) 31 = true) (b : Bool) (hb : b = true ↔ c.slotOpens s) :
    slotWindowOpen c s =
      (let w0 := c.entryWord 11 s 0
       let p := wfld w0 26 24
       let g := c.gclOf p
       if !b then c.gclErr p
       else if g.started && g.entry == wfld w0 9 0 && c.slotEmpty s p then
         let c1 : Chip := { c with swx := { c.swx with slotSeen := tblSet 0 c.swx.slotSeen s (g.since + 1) } }
         if wbit w0 30 && c.bit SWX_SCHED_CTL 31 && c.linkUp p && decide (0 < c.pecksFree) && decide (0 < c.qdFree)
         then c1.placeNull s p (wfld w0 22 20) else c1
       else c) := by
  have hn : ¬(!wbit (c.entryWord 11 s 0) 31) = true := by
    rw [h]
    exact Bool.false_ne_true
  have ho : (match (c.gclOf (wfld (c.entryWord 11 s 0) 26 24)).oper with
      | some k => match k.entries[wfld (c.entryWord 11 s 0) 9 0]? with
        | some x => nbit x.gates (wfld (c.entryWord 11 s 0) 22 20)
        | none => false
      | none => false) = b := by
    rw [Bool.eq_iff_iff, hb]
    unfold Chip.slotOpens
    dsimp only
    cases (c.gclOf (wfld (c.entryWord 11 s 0) 26 24)).oper with
    | none => simp
    | some k => cases hx : k.entries[wfld (c.entryWord 11 s 0) 9 0]? <;> simp [hx]
  subst ho
  exact if_neg hn

/-- The window of a valid slot opens, and none has been dealt with in it before. -/
def Chip.slotNow (c : Chip) (s : Nat) : Prop :=
  let w0 := c.entryWord 11 s 0
  let p := wfld w0 26 24
  (c.gclOf p).started = true ∧ (c.gclOf p).entry = wfld w0 9 0 ∧ c.slotEmpty s p = true

section
variable (h : wbit (c.entryWord 11 s 0) 31 = true)
include h

theorem slotWindowOpen_shut (ho : ¬c.slotOpens s) :
    slotWindowOpen c s = c.flag (SWX_Pp_GCL_STAT (wfld (c.entryWord 11 s 0) 26 24)) 29 215 :=
  slotWindowOpen_valid h false ⟨fun g => absurd g Bool.false_ne_true, fun g => absurd g ho⟩

variable (ho : c.slotOpens s)
include ho

theorem slotWindowOpen_opens :
    slotWindowOpen c s =
      (let w0 := c.entryWord 11 s 0
       let p := wfld w0 26 24
       let g := c.gclOf p
       if g.started && g.entry == wfld w0 9 0 && c.slotEmpty s p then
         let c1 : Chip := { c with swx := { c.swx with slotSeen := tblSet 0 c.swx.slotSeen s (g.since + 1) } }
         if wbit w0 30 && c.bit SWX_SCHED_CTL 31 && c.linkUp p && decide (0 < c.pecksFree) && decide (0 < c.qdFree)
         then c1.placeNull s p (wfld w0 22 20) else c1
       else c) :=
  slotWindowOpen_valid h true ⟨fun _ => ho, fun _ => rfl⟩

theorem slotWindowOpen_other (hn : ¬c.slotNow s) : slotWindowOpen c s = c := by
  refine (slotWindowOpen_opens h ho).trans (if_neg fun g => hn ?_)
  rw [Bool.and_eq_true, Bool.and_eq_true, beq_iff_eq] at g
  exact ⟨g.1.1, g.1.2, g.2⟩

theorem slotWindowOpen_now (hn : c.slotNow s) :
    slotWindowOpen c s =
      (let w0 := c.entryWord 11 s 0
       let p := wfld w0 26 24
       let g := c.gclOf p
       let c1 : Chip := { c with swx := { c.swx with slotSeen := tblSet 0 c.swx.slotSeen s (g.since + 1) } }
       if wbit w0 30 && c.bit SWX_SCHED_CTL 31 && c.linkUp p && decide (0 < c.pecksFree) && decide (0 < c.qdFree)
       then c1.placeNull s p (wfld w0 22 20) else c1) := by
  obtain ⟨hs, he, hempty⟩ := hn
  refine (slotWindowOpen_opens h ho).trans (if_pos ?_)
  rw [Bool.and_eq_true, Bool.and_eq_true, beq_iff_eq]
  exact ⟨⟨hs, he⟩, hempty⟩

end

/-! ### Flushes (R162) -/

theorem flushWrite_busy (h : c.swx.flush ≠ none) : flushWrite c v = (c.setFld SWX_FLUSH 11 0 (wfld v 11 0)).done :=
  if_neg fun g => h (Option.isNone_iff_eq_none.1 g.2)

theorem flushWrite_free (hv : wbit v 31 = true) (h : c.swx.flush = none)
    (hf : (c.setFld SWX_FLUSH 11 0 (wfld v 11 0)).flushQueues (wfld v 11 8) (wfld v 7 0) = (n, d)) :
    flushWrite c v = ({ d with swx := { d.swx with flush := some n } }.setBit SWX_FLUSH 30 true).done := by
  simp only [flushWrite, hv, h, hf, Option.isNone_none, and_self, if_true]

end Sys2Proof.Machine

namespace Sys2Proof
open Machine

/-- Settles O23: each command by its own conditions; a scrubber's visit that finds no aged head changes credits alone.
The next frame after RESET taken whatever its number is log entry 20's (PRESUMED), and RESET's end behind its last tick
log entry 22's. -/
theorem switchBookkeeping : Obligations.SwitchBookkeeping := by
  unfold Obligations.SwitchBookkeeping
  intro m sp f k v c port offer latched rec_ resets w0 slotP slotC g opens now seen nulls flush kept
  refine ⟨fun h => does_hostPortPeckGrant (peckGrant_none h), fun o ho => ?_, does_ledgerSnapshot regWrite_SWX_LEDGER,
    fun h => does_ledgerLatch (ledgerLatch_none h), fun h hu => ?_, fun h hu => ?_, ?_, ?_, ?_, fun hv => ?_, fun h => ?_,
    fun h => ?_, fun h => ?_, fun n h => ?_⟩
  · intro q w req need c0 goes
    have hport : peckGrant c port = if c.pecksFree < need then c else c0.tqOffer port o := peckGrant_some ho
    refine ⟨fun h => does_hostPortPeckGrant (hport.trans (if_pos h)), fun h => ⟨fun d hd => ?_,
      fun data sent d hd => ?_⟩⟩
    · exact does_hostPortPeckGrant (hport.trans ((if_neg (Nat.not_lt.2 h)).trans (tqOffer_dropped hd)))
    · intro held any e hl
      refine does_hostPortPeckGrant (hport.trans ((if_neg (Nat.not_lt.2 h)).trans (tqOffer_sent hd ?_)))
      rw [Chip.offerGoes_setOffer]
      exact hl
  · refine does_ledgerLatch ((ledgerLatch_some h).trans ?_)
    rw [Chip.ledger_balanced, decide_eq_true hu]
    rfl
  · refine does_ledgerLatch ((ledgerLatch_some h).trans ?_)
    rw [Chip.ledger_balanced, decide_eq_false (Nat.not_le.2 hu)]
    rfl
  · intro due
    refine ⟨fun h => does_queueScrub (queueScrub_early h), fun h hf => (does_queueScrub (queueScrub_due h)).gives ?_⟩
    have hc := CreditsOnly.scrubAll (c := { c with swx := { c.swx with scrubAt := c.lt } }) hf
    unfold CreditsOnly at hc
    generalize ({ c with swx := { c.swx with scrubAt := c.lt } } : Chip).scrubAll = d at hc ⊢
    exact hc
  · intro due
    exact ⟨fun h => does_recoveryResetTimeout (if_pos h), fun h => does_recoveryResetTimeout (if_neg h)⟩
  · exact fun h => does_slotWindowOpen (slotWindowOpen_invalid h)
  · have hnulls : (wbit w0 30 && c.bit SWX_SCHED_CTL 31 && c.linkUp slotP && decide (0 < c.pecksFree) &&
        decide (0 < c.qdFree)) = true ↔ nulls := by
      simp only [Bool.and_eq_true, decide_eq_true_iff, and_assoc, nulls]
    exact ⟨fun ho => does_slotWindowOpen (slotWindowOpen_shut hv ho),
      fun ho hn => does_slotWindowOpen (slotWindowOpen_other hv ho hn),
      fun ho hn hx => does_slotWindowOpen ((slotWindowOpen_now hv ho hn).trans (if_neg (mt hnulls.1 hx))),
      fun ho hn hx => does_slotWindowOpen ((slotWindowOpen_now hv ho hn).trans (if_pos (hnulls.2 hx)))⟩
  · exact does_queueFlush (regWrite_SWX_FLUSH.trans (flushWrite_busy h))
  · refine fun n d hf => does_queueFlush (regWrite_SWX_FLUSH.trans (flushWrite_free ?_ h hf))
    rw [wbit_or]
    exact Bool.or_true _
  · refine does_flushDone ?_
    simp only [flushDone, h]
  · refine does_flushDone ?_
    simp only [flushDone, h]

end Sys2Proof
end

section
/-!
PROOF. A CAN channel's commands by registers (R174, R179, R181, R185, R188, R194, R199, R204), and the frame that it
commits of its own (R180).
-/
namespace Sys2Proof.Machine

variable {c d : Chip} {n k mode : Nat} {v w : W32}

/-! ### Words that a command is written with -/

theorem wbit_or_of_right {i : Nat} (h : wbit w i = true) : wbit (v ||| w) i = true := by
  rw [wbit_or, h]
  exact Bool.or_true _

theorem wbit_or_of_not_right {i : Nat} (h : wbit w i = false) : wbit (v ||| w) i = wbit v i := by
  rw [wbit_or, h]
  exact Bool.or_false _

theorem wbit_and_of_right {i : Nat} (h : wbit w i = true) : wbit (v &&& w) i = wbit v i := by
  rw [wbit_and, h]
  exact Bool.and_true _

theorem wbit_and_of_not_right {i : Nat} (h : wbit w i = false) : wbit (v &&& w) i = false := by
  rw [wbit_and, h]
  exact Bool.and_false _

/-- The word of CANn_OBJCMD with command `op` for object `k`. -/
theorem objCmd_fields {op : Nat} (ho : op < 16) (hk : k < 128) :
    wfld (w32 (op * 2 ^ 28 + k)) 6 0 = k ∧ wfld (w32 (op * 2 ^ 28 + k)) 31 28 = op := by
  have h : (w32 (op * 2 ^ 28 + k)).toNat = op * 2 ^ 28 + k :=
    (BitVec.toNat_ofNat ..).trans (Nat.mod_eq_of_lt (by omega))
  unfold wfld nfld
  rw [h]
  constructor <;> omega

/-! ### Enabling and disabling (R174) -/

theorem canCtlWrite_enabled (h : c.bit (CANn_CTL n) 31 = true) (hv : wbit v 31 = true) : canCtlWrite c n v = c := by
  simp only [canCtlWrite, h, hv, if_true]

theorem canCtlWrite_leaves (h : c.bit (CANn_CTL n) 31 = true) (hv : wbit v 31 = false) :
    canCtlWrite c n v =
      (let k := c.canOf n
       let c1 := c.setBit (CANn_CTL n) 31 false
       if k.tx.isSome || c.bit (CANn_STAT n) 25 then c1.setCan n { k with leaving := true, integrating := false }
       else (c1.setCan n { k with integrating := false }).setBit (CANn_STAT n) 28 false) := by
  simp only [canCtlWrite, h, hv, Bool.false_eq_true, if_true, if_false]

theorem canCtlWrite_disabled (h : c.bit (CANn_CTL n) 31 = false) :
    canCtlWrite c n v =
      (let k := c.canOf n
       let c1 := c.setReg (CANn_CTL n) (v &&& 0xFF0E3000)
       let c2 := if wbit v 17 && !c.bit (CANn_TT_CFG n) 31 then c1.canFlag n 2 else c1
       if wbit v 31 then c2.setCan n { k with integrating := true, leaving := false } else c2) := by
  simp only [canCtlWrite, h, Bool.false_eq_true, if_false]

/-- GATEWAY set on a channel that is no potential master is flagged (R197). -/
theorem gateway_fits {b t : Bool} (h : b = false ∨ t = true) : ¬(b && !t) = true := by
  rcases h with rfl | rfl
  · exact Bool.false_ne_true
  · rw [Bool.not_true, Bool.and_false]
    exact Bool.false_ne_true

theorem gateway_misfits : (true && !false) = true := rfl

theorem canIntegrated_ends (h : (c.canOf n).integrating = true) (he : c.bit (CANn_CTL n) 31 = true) :
    canIntegrated c n =
      ((c.setCan n { c.canOf n with integrating := false }).setBit (CANn_STAT n) 28 true).ttRestart n :=
  if_pos ⟨h, he⟩

theorem canIntegrated_ignored (h : (c.canOf n).integrating = false ∨ c.bit (CANn_CTL n) 31 = false) :
    canIntegrated c n = c := by
  refine if_neg fun ⟨g, e⟩ => ?_
  rcases h with h | h
  · exact Bool.false_ne_true (h.symm.trans g)
  · exact Bool.false_ne_true (h.symm.trans e)

/-! ### Objects (R176, R179, R181) -/

theorem canObjCmd_request (hk : k < 128) : canObjCmd c n (w32 (0x10000000 + k)) = (canRequest c n k).done := by
  obtain ⟨hobj, hop⟩ := objCmd_fields (op := 1) (by decide) hk
  change canObjCmd c n (w32 (1 * 2 ^ 28 + k)) = _
  simp only [canObjCmd, hobj, hop]

theorem canObjCmd_cancel (hk : k < 128) : canObjCmd c n (w32 (0x20000000 + k)) = (canCancel c n k).done := by
  obtain ⟨hobj, hop⟩ := objCmd_fields (op := 2) (by decide) hk
  change canObjCmd c n (w32 (2 * 2 ^ 28 + k)) = _
  simp only [canObjCmd, hobj, hop]

theorem canObjCmd_clearNew (hk : k < 128) : canObjCmd c n (w32 (0x30000000 + k)) = (canClearNew c n k).done := by
  obtain ⟨hobj, hop⟩ := objCmd_fields (op := 3) (by decide) hk
  change canObjCmd c n (w32 (3 * 2 ^ 28 + k)) = _
  simp only [canObjCmd, hobj, hop]

/-- An object that REQUEST takes: a transmit object in use, in an enabled format, and neither pending nor active. -/
def Chip.canTake (c : Chip) (n k : Nat) : Prop :=
  c.objState n k ≠ 1 ∧ c.objState n k ≠ 2 ∧ c.objState n k ≠ 5 ∧ wbit (c.reg (canObj n k 0)) 30 = true ∧
    wbit (c.reg (canObj n k 0)) 31 = true ∧ c.fmtOn n (wfld (c.reg (canObj n k 0)) 29 28) = true

theorem canRequest_taken (h : c.canTake n k) :
    canRequest c n k = ((c.setFld (canObj n k 5) 31 24 0).setBit (canObj n k 5) 8 false).setObjState n k 1 := by
  obtain ⟨h1, h2, h5, ht, hu, hf⟩ := h
  refine if_neg ?_
  rintro (g | g | g | g | g | g)
  · exact h1 g
  · exact h2 g
  · exact h5 g
  · exact Bool.false_ne_true (g.symm.trans ht)
  · exact Bool.false_ne_true (g.symm.trans hu)
  · exact Bool.false_ne_true (g.symm.trans hf)

theorem canRequest_refused (h : ¬c.canTake n k) : canRequest c n k = c.setBit (CANn_FLAGS n) 0 true := by
  refine if_pos ?_
  unfold Chip.canTake at h
  refine Decidable.byContradiction fun g => ?_
  simp only [not_or, Bool.not_eq_false] at g
  exact h g

theorem canCancel_waiting (h : c.objState n k = 1 ∨ c.objState n k = 5) :
    canCancel c n k = (c.setObjState n k 4).raise (224 + 8 * n + 1) 0 := by
  rcases h with h | h <;> simp only [canCancel, h] <;> rfl

theorem canCancel_active {t : CanTx} (h : c.objState n k = 2) (ht : (c.canOf n).tx = some t) (ho : t.what = .object k) :
    canCancel c n k = c.setCan n { c.canOf n with tx := some { t with late := true } } := by
  simp only [canCancel, h, ht, ho, if_true]

theorem canCancel_other (h : c.objState n k = 2) (ho : ∀ t, (c.canOf n).tx = some t → t.what ≠ .object k) :
    canCancel c n k = c := by
  unfold canCancel
  rw [h]
  cases ht : (c.canOf n).tx with
  | none => rfl
  | some t => exact if_neg (ho t ht)

theorem canCancel_ignored (h1 : c.objState n k ≠ 1) (h2 : c.objState n k ≠ 2) (h5 : c.objState n k ≠ 5) :
    canCancel c n k = c := by
  unfold canCancel
  split
  next h => exact absurd h h1
  next h => exact absurd h h5
  next h => exact absurd h h2
  next => rfl

/-! ### Bus-off and error levels (R188, R194) -/

theorem canCmdWrite_recover (h0 : wbit v 0 = true) (h1 : wbit v 1 = false) :
    canCmdWrite c n v = (canRecover c n).done := by
  simp only [canCmdWrite, h0, h1, Bool.false_eq_true, if_true, if_false]

theorem canCmdWrite_resume (h0 : wbit v 0 = false) (h1 : wbit v 1 = true) :
    canCmdWrite c n v = (canTtResume c n).done := by
  simp only [canCmdWrite, h0, h1, Bool.false_eq_true, if_true, if_false]

theorem canRecover_ignored (h : c.fld (CANn_STAT n) 31 30 ≠ 2 ∨ c.bit (CANn_STAT n) 29 = true) :
    canRecover c n = c :=
  if_neg fun ⟨g, e⟩ => h.elim (fun k => k g) fun k => Bool.false_ne_true (e.symm.trans k)

theorem canBusoffRecovered_ignored {more : Nat} (h : c.fld (CANn_STAT n) 31 30 ≠ 2 ∨ c.bit (CANn_STAT n) 29 = false) :
    canBusoffRecovered c n more = c :=
  if_pos h

theorem canBusoffRecovered_counts {more : Nat} (h : c.fld (CANn_STAT n) 31 30 = 2) (hr : c.bit (CANn_STAT n) 29 = true) :
    canBusoffRecovered c n more =
      (let count := c.fld (CANn_STAT n) 15 8 + more
       if count < 128 then c.setFld (CANn_STAT n) 15 8 count
       else
         let c1 := ((c.setReg (CANn_ERRCNT n) 0).setBit (CANn_STAT n) 29 false).setFld (CANn_STAT n) 15 8 128
         let c2 := (c1.setFld (CANn_STAT n) 31 30 0).canEv n 2
         (List.range 128).foldl (fun c k => if c.objState n k = 5 then c.setObjState n k 1 else c) c2) :=
  if_neg fun g => g.elim (fun k => k h) fun k => Bool.false_ne_true (k.symm.trans hr)

theorem canTtResume_s3 (h : c.fld (CANn_TT_STAT n) 31 30 = 3) :
    canTtResume c n = (c.setFld (CANn_TT_STAT n) 31 30 0).ttRestart n := if_pos h

theorem canTtResume_below (h : c.fld (CANn_TT_STAT n) 31 30 ≠ 3) : canTtResume c n = c.setFld (CANn_TT_STAT n) 31 30 0 :=
  if_neg h

/-! ### Modes (R190, R199, R204) -/

theorem canModeWrite_held (h : c.modeHeld n k = true) : canModeWrite c n k v = c.refuse := if_pos h

theorem canModeWrite_free (h : c.modeHeld n k = false) (hv : wbit v 31 = true) :
    canModeWrite c n k v =
      if c.modeOk n v then (c.setReg (CANn_TT_MODE n k) (v &&& 0x87FF01FF)).done else (c.canFlag n 2).done := by
  simp only [canModeWrite, h, hv, Bool.false_eq_true, if_false, Bool.true_and]
  cases c.modeOk n v <;> rfl

theorem canModeReq_go (hv : wbit v 31 = true) :
    canModeReq c n v =
      (let m := wfld v 1 0
       if c.ttMaster n = false ∨ c.ttPhase n ≠ 0 ∨ (c.canOf n).modeReq.isSome ∨ c.modeValid n m = false then
         (c.canRefused n).done
       else if m = c.ttMode n then c.done
       else (c.setCan n { c.canOf n with modeReq := some m }).done) := by
  simp only [canModeReq, hv, Bool.not_true, Bool.false_eq_true, if_false]

/-- The conditions under which a mode request is refused, with the request that waits as an option. -/
theorem modeReq_refused_iff :
    (c.ttMaster n = false ∨ c.ttPhase n ≠ 0 ∨ (c.canOf n).modeReq.isSome = true ∨ c.modeValid n mode = false) ↔
      (c.ttMaster n = false ∨ c.ttPhase n ≠ 0 ∨ (c.canOf n).modeReq ≠ none ∨ c.modeValid n mode = false) := by
  rw [Option.isSome_iff_ne_none]

/-! ### The object that wins arbitration (R180) -/

/-- `k` comes before `j` on the bus: a smaller arbitration field, or the same one and no larger number. -/
def Wins (f : Nat → Nat) (k j : Nat) : Prop := f k < f j ∨ (f k = f j ∧ k ≤ j)

theorem Wins.unique {f : Nat → Nat} {k j : Nat} (h : Wins f k j) (g : Wins f j k) : k = j := by
  unfold Wins at h g
  omega

theorem Wins.trans {f : Nat → Nat} {i k j : Nat} (h : Wins f i k) (g : Wins f k j) : Wins f i j := by
  unfold Wins at *
  omega

/-- The better of the best object so far and the next one. -/
def betterOf (f : Nat → Nat) (best : Option Nat) (k : Nat) : Option Nat :=
  match best with
  | none => some k
  | some b => if f k < f b then some k else some b

theorem foldl_betterOf (f : Nat → Nat) (xs : List Nat) (b : Nat) (h : (b :: xs).Pairwise (· < ·)) :
    ∃ r ∈ b :: xs, xs.foldl (betterOf f) (some b) = some r ∧ ∀ j ∈ b :: xs, Wins f r j := by
  induction xs generalizing b with
  | nil => exact ⟨b, List.mem_singleton_self b, rfl, fun j hj => List.mem_singleton.1 hj ▸ .inr ⟨rfl, Nat.le_refl _⟩⟩
  | cons x xs ih =>
    obtain ⟨hb, hx⟩ := List.pairwise_cons.1 h
    have hbx : b < x := hb x List.mem_cons_self
    rw [List.foldl_cons]
    by_cases hlt : f x < f b
    · obtain ⟨r, hr, heq, hall⟩ := ih x hx
      refine ⟨r, List.mem_cons_of_mem b hr, ?_, fun j hj => ?_⟩
      · rw [← heq]
        exact congrArg (List.foldl _ · xs) (if_pos hlt)
      · rcases List.mem_cons.1 hj with rfl | hj
        · exact (hall x List.mem_cons_self).trans (.inl hlt)
        · exact hall j hj
    · have hbxs : (b :: xs).Pairwise (· < ·) :=
        List.pairwise_cons.2 ⟨fun j hj => hb j (List.mem_cons_of_mem x hj), (List.pairwise_cons.1 hx).2⟩
      obtain ⟨r, hr, heq, hall⟩ := ih b hbxs
      refine ⟨r, ?_, ?_, fun j hj => ?_⟩
      · exact List.cons_subset_cons b (List.subset_cons_self x xs) hr
      · rw [← heq]
        exact congrArg (List.foldl _ · xs) (if_neg hlt)
      · rcases List.mem_cons.1 hj with rfl | hj
        · exact hall j List.mem_cons_self
        · rcases List.mem_cons.1 hj with rfl | hj
          · refine (hall b List.mem_cons_self).trans ?_
            unfold Wins
            omega
          · exact hall j (List.mem_cons_of_mem b hj)

/-- The objects that may win. -/
def Chip.canContenders (c : Chip) (n : Nat) (ok : Nat → Bool) : List Nat :=
  (List.range 128).filter fun k =>
    c.objState n k == 1 && wbit (c.reg (canObj n k 0)) 30 && c.fmtOn n (wfld (c.reg (canObj n k 0)) 29 28) && ok k

theorem mem_canContenders {ok : Nat → Bool} : k ∈ c.canContenders n ok ↔ (k < 128 ∧ c.objState n k = 1 ∧
    wbit (c.reg (canObj n k 0)) 30 = true ∧ c.fmtOn n (wfld (c.reg (canObj n k 0)) 29 28) = true) ∧ ok k = true := by
  simp only [Chip.canContenders, List.mem_filter, List.mem_range, Bool.and_eq_true, beq_iff_eq, and_assoc]

theorem canWinner_eq (ok : Nat → Bool) : c.canWinner n ok =
    (c.canContenders n ok).foldl (betterOf fun k => (c.objFrame n k).priority) none := rfl

theorem canWinner_none {ok : Nat → Bool} (h : ∀ k, k ∉ c.canContenders n ok) : c.canWinner n ok = none := by
  rw [canWinner_eq, List.eq_nil_iff_forall_not_mem.2 h]
  rfl

theorem canWinner_some {ok : Nat → Bool} (hk : k ∈ c.canContenders n ok)
    (h : ∀ j ∈ c.canContenders n ok, Wins (fun k => (c.objFrame n k).priority) k j) : c.canWinner n ok = some k := by
  have hsorted : (c.canContenders n ok).Pairwise (· < ·) := List.Pairwise.filter _ List.pairwise_lt_range
  rw [canWinner_eq]
  cases hx : c.canContenders n ok with
  | nil =>
    rw [hx] at hk
    exact absurd hk List.not_mem_nil
  | cons b xs =>
    rw [hx] at hsorted hk h
    obtain ⟨r, hr, heq, hall⟩ := foldl_betterOf (fun k => (c.objFrame n k).priority) xs b hsorted
    rw [(h r hr).unique (hall k hk)]
    exact heq

section
variable (hm : c.canMay n = true) (ht : c.ttRuns n = false)
include hm ht

theorem canFrameCommit_none (h : c.canWinner n (fun _ => true) = none) : canFrameCommit c n = c := by
  simp only [canFrameCommit, hm, ht, h, Bool.not_true, Bool.false_eq_true, if_false]

theorem canFrameCommit_some (h : c.canWinner n (fun _ => true) = some k) :
    canFrameCommit c n = c.canStart n (.object k) (c.objFrame n k) none false := by
  simp only [canFrameCommit, hm, ht, h, Bool.not_true, Bool.false_eq_true, if_false]

end

/-- With the guardian off a frame starts. -/
theorem canStart_unguarded {what : CanSend} {f : CanFrame} {close : Option Nat} {excl : Bool}
    (h : c.bit (CANn_GD_CTL n) 31 = false) :
    c.canStart n what f close excl =
      (let c1 := match what with
        | .object o => c.setObjState n o 2
        | .null o => c.setBit (canObj n o 5) 9 true
        | _ => c
       (c1.setCan n { c.canOf n with
         tx := some ⟨what, f, c.lt, false, close, excl⟩, erred := none, wait := none }).setBit (CANn_STAT n) 26 true) := by
  refine if_neg ?_
  rw [h, Bool.false_and]
  exact Bool.false_ne_true

end Sys2Proof.Machine

namespace Sys2Proof
open Machine

/-- Settles O25: each register write by its command, each command by its conditions. That BOCNT stays at 128 when
recovery ends is log entry 140's. -/
theorem canCommandsTakeEffect : Obligations.CanCommandsTakeEffect := by
  unfold Obligations.CanCommandsTakeEffect
  intro m n o k more v c ch x stat obj en set off refused s w0 can count pops mode
  have hgo : wbit (v ||| 0x80000000) 31 = true := wbit_or_of_right rfl
  have hgw : wbit (v ||| 0x80000000) 17 = wbit v 17 := wbit_or_of_not_right rfl
  have hstop : wbit (v &&& 0x7FFFFFFF) 31 = false := wbit_and_of_not_right rfl
  have hsw : wbit (v &&& 0x7FFFFFFF) 17 = wbit v 17 := wbit_and_of_right rfl
  have hen {d : Chip} (h : canCtlWrite c ch (v ||| 0x80000000) = d) : Does (.canEnable m n v) c d.done :=
    h ▸ does_canEnable (regWrite_CANn_CTL n)
  have hdis {d : Chip} (h : canCtlWrite c ch (v &&& 0x7FFFFFFF) = d) : Does (.canDisable m n v) c d.done :=
    h ▸ does_canDisable (regWrite_CANn_CTL n)
  have hcancel {d : Chip} (h : canCancel c ch o.val = d) : Does (.canCancel m n o) c d.done :=
    h ▸ does_canCancel ((regWrite_CANn_OBJCMD n).trans (canObjCmd_cancel o.isLt))
  have hrequest {d : Chip} (h : canRequest c ch o.val = d) : Does (.canRequest m n o) c d.done :=
    h ▸ does_canRequest ((regWrite_CANn_OBJCMD n).trans (canObjCmd_request o.isLt))
  refine ⟨fun he h => ?_, fun he hv ht => ?_, fun he => ?_, fun he h => ?_, fun he hv ht => ?_, fun he h => ?_,
    fun he ht hb => ?_, fun h => hrequest (canRequest_taken h), fun h => hrequest (canRequest_refused h),
    fun h => hcancel (canCancel_waiting h), fun t h ht ho => hcancel (canCancel_active h ht ho),
    fun h ho => hcancel (canCancel_other h ho), fun h1 h2 h5 => hcancel (canCancel_ignored h1 h2 h5),
    does_canClearnew ((regWrite_CANn_OBJCMD n).trans (canObjCmd_clearNew o.isLt)),
    does_canRingPop (regWrite_CANn_RING_POP n), fun hv => ?_, fun h hr => ⟨fun hc => ?_, fun hc => ?_⟩,
    fun h => does_canBusoffRecovered (canBusoffRecovered_ignored h),
    fun h he => does_canIntegrationComplete (canIntegrated_ends h he),
    fun h => does_canIntegrationComplete (canIntegrated_ignored h), fun h => ?_, fun h ho => ?_, fun h ho => ?_,
    fun hv h => ?_, fun hv h => ?_, fun d => rfl, fun h => ?_, fun hm hp hr hv => ⟨fun h => ?_, fun h => ?_⟩⟩
  · refine hen ((canCtlWrite_disabled he).trans ?_)
    dsimp only
    rw [hgo, hgw, if_neg (gateway_fits h), if_pos rfl]
  · refine hen ((canCtlWrite_disabled he).trans ?_)
    dsimp only
    rw [hgo, hgw, hv, ht, if_pos gateway_misfits, if_pos rfl]
    rfl
  · exact hen (canCtlWrite_enabled he hgo)
  · refine hdis ((canCtlWrite_disabled he).trans ?_)
    dsimp only
    rw [hstop, hsw, if_neg (gateway_fits h), if_neg Bool.false_ne_true]
  · refine hdis ((canCtlWrite_disabled he).trans ?_)
    dsimp only
    rw [hstop, hsw, hv, ht, if_pos gateway_misfits, if_neg Bool.false_ne_true]
    rfl
  · refine hdis ((canCtlWrite_leaves he hstop).trans (if_pos ?_))
    rw [Bool.or_eq_true, Option.isSome_iff_ne_none]
    exact h
  · refine hdis ((canCtlWrite_leaves he hstop).trans (if_neg ?_))
    rw [ht, hb]
    exact Bool.false_ne_true
  · have hw : regWrite c m.val (CANn_CMD ch) (v ||| 0x1) = (canRecover c ch).done :=
      (regWrite_CANn_CMD n).trans (canCmdWrite_recover (wbit_or_of_right rfl) ((wbit_or_of_not_right rfl).trans hv))
    exact ⟨fun h hr => does_canRecover (hw.trans (congrArg Chip.done (if_pos ⟨h, hr⟩))),
      fun h => does_canRecover (hw.trans (congrArg Chip.done (canRecover_ignored h)))⟩
  · exact does_canBusoffRecovered ((canBusoffRecovered_counts h hr).trans (if_pos hc))
  · exact does_canBusoffRecovered ((canBusoffRecovered_counts h hr).trans (if_neg (Nat.not_lt.2 hc)))
  · exact does_canModeValidate ((regWrite_CANn_TT_MODE n k).trans (canModeWrite_held h))
  · refine does_canModeValidate ((regWrite_CANn_TT_MODE n k).trans ((canModeWrite_free h hgo).trans (if_neg ?_)))
    exact Bool.not_eq_true _ ▸ ho
  · exact does_canModeValidate ((regWrite_CANn_TT_MODE n k).trans ((canModeWrite_free h hgo).trans (if_pos ho)))
  · exact does_canTtresume ((regWrite_CANn_CMD n).trans ((canCmdWrite_resume ((wbit_or_of_not_right rfl).trans hv)
      (wbit_or_of_right rfl)).trans (congrArg Chip.done (canTtResume_below h))))
  · exact does_canTtresume ((regWrite_CANn_CMD n).trans ((canCmdWrite_resume ((wbit_or_of_not_right rfl).trans hv)
      (wbit_or_of_right rfl)).trans (congrArg Chip.done (canTtResume_s3 h))))
  · exact does_canModeRequest ((regWrite_CANn_TT_MODEREQ n).trans ((canModeReq_go hgo).trans
      (if_pos (modeReq_refused_iff.2 h))))
  all_goals
    have hn : ¬(c.ttMaster ch = false ∨ c.ttPhase ch ≠ 0 ∨ x.modeReq ≠ none ∨ c.modeValid ch mode = false) := by
      rintro (g | g | g | g)
      · exact Bool.false_ne_true (g.symm.trans hm)
      · exact g hp
      · exact g hr
      · exact Bool.false_ne_true (g.symm.trans hv)
    refine does_canModeRequest ((regWrite_CANn_TT_MODEREQ n).trans ((canModeReq_go hgo).trans
      ((if_neg (mt modeReq_refused_iff.1 hn)).trans ?_)))
  · exact if_pos h
  · exact if_neg h

/-- Settles O26: of the objects that may win, the fold keeps the first of the smallest ones. -/
theorem canSendsTheArbitrationWinner : Obligations.CanSendsTheArbitrationWinner := by
  unfold Obligations.CanSendsTheArbitrationWinner
  intro n c hm ht hg ch pending prio
  have hmem (k : Nat) : k ∈ c.canContenders ch (fun _ => true) ↔ pending k :=
    mem_canContenders.trans (and_iff_left rfl)
  refine ⟨fun h => ?_, fun k hk h => ?_⟩
  · exact does_canFrameCommit (canFrameCommit_none hm ht (canWinner_none fun k g => h k ((hmem k).1 g)))
  · have hwin := canWinner_some ((hmem k).2 hk) fun j hj => h j ((hmem j).1 hj)
    exact does_canFrameCommit ((canFrameCommit_some hm ht hwin).trans (canStart_unguarded hg))

end Sys2Proof
end

section
/-!
PROOF. What leaves a register as it is: writes of other registers, and every access to memory where the register is none
of MEM's and of the event fabric's pending bits (R27, R363, R364, R372).
-/
namespace Sys2Proof.Machine

variable {c d e : Chip} {a : Nat}

/-! ### What leaves a register -/

/-- Register `a` is in `d` as in `c`. -/
def KeepsReg (a : Nat) (c d : Chip) : Prop := d.reg a = c.reg a

namespace KeepsReg

theorem refl (c : Chip) : KeepsReg a c c := rfl

theorem trans (h : KeepsReg a c d) (g : KeepsReg a d e) : KeepsReg a c e := Eq.trans g h

theorem ite {q : Prop} [Decidable q] (h : KeepsReg a c d) (g : KeepsReg a c e) : KeepsReg a c (if q then d else e) := by
  split
  · exact h
  · exact g

theorem ofRegs (h : d.regs = c.regs) : KeepsReg a c d := congrArg (fun t => tblGet (regReset a) t a) h

theorem setReg {b : Nat} {w : W32} (h : a ≠ b) (c : Chip) : KeepsReg a c (c.setReg b w) := Chip.reg_setReg_other _ _ h

theorem setFld {b hi lo x : Nat} (h : a ≠ b) (c : Chip) : KeepsReg a c (c.setFld b hi lo x) := setReg h c

theorem setBit {b i : Nat} {x : Bool} (h : a ≠ b) (c : Chip) : KeepsReg a c (c.setBit b i x) := setReg h c

theorem inc {b : Nat} (h : a ≠ b) (c : Chip) : KeepsReg a c (c.inc b) := setReg h c

theorem raise {src code : Nat} (h : a ≠ EVT_PEND (src / 32)) (c : Chip) : KeepsReg a c (c.raise src code) :=
  (setBit h c).trans (ofRegs rfl)

end KeepsReg

/-! ### Accesses to memory -/

/-- A register that no access to memory writes: it is none of MEM's, and no pending event. -/
def Aside (a : Nat) : Prop := (a < 0x400C0000 ∨ 0x400D0000 ≤ a) ∧ (a < 0x400F8100 ∨ 0x400F8140 ≤ a)

namespace KeepsReg

section
variable (h : Aside a)
include h

theorem memReg {b : Nat} {w : W32} (hb : 0x400C0000 ≤ b ∧ b < 0x400D0000) (c : Chip) : KeepsReg a c (c.setReg b w) := by
  obtain ⟨hm, -⟩ := h
  exact setReg (by omega) c

theorem evRaise {s x : Nat} (hs : s < 512) (c : Chip) : KeepsReg a c (c.raise s x) := by
  obtain ⟨-, he⟩ := h
  refine raise ?_ c
  unfold EVT_PEND
  omega

theorem memCause {i : Nat} (hi : i < 16) (c : Chip) : KeepsReg a c (c.memCause i) :=
  (memReg h (b := MEM_EVCAUSE) (by decide) c).trans (evRaise h (by omega) _)

theorem noteErr (m x : Nat) (r : AccErr) (c : Chip) : KeepsReg a c (c.noteErr m x r) := by
  cases r with
  | owner =>
    refine .trans (.trans ?_ (memReg h (b := MEM_OERR) (by decide) _)) (memCause h (by decide) _)
    exact memReg h (b := MEM_OERRCNT) (by decide) c
  | bus | ecc | seg | wait => exact .refl c

theorem ueErr (x : Nat) (c : Chip) : KeepsReg a c (c.ueErr x) := by
  have hu : KeepsReg a c (((c.inc MEM_ECCUE).setReg MEM_ECCADDR (w32 x)).memCause 3) := by
    refine .trans (.trans ?_ (memReg h (b := MEM_ECCADDR) (by decide) _)) (memCause h (by decide) _)
    exact memReg h (b := MEM_ECCUE) (by decide) c
  unfold Chip.ueErr
  refine .ite (hu.trans (.trans ?_ (memCause h (by decide) _))) hu
  exact memReg h (b := MEM_STAT) (by decide) _

theorem ceCount (c : Chip) : KeepsReg a c ((c.inc MEM_ECCCE).memCause 2) :=
  .trans (d := c.inc MEM_ECCCE) (memReg h (b := MEM_ECCCE) (by decide) c) (memCause h (by decide) _)

omit h in
theorem setBytes (x : Nat) (bs : List Byte) (c : Chip) : KeepsReg a c (c.setBytes x bs) := by
  induction bs generalizing c x with
  | nil => exact .refl c
  | cons b bs ih =>
    refine .trans ?_ (ih (x + 1) (c.setByte x b))
    exact .ofRegs rfl

omit h in
theorem obRead (m x n : Nat) (c : Chip) : KeepsReg a c (c.obRead m x n).2 := by
  unfold Chip.obRead
  split
  · exact .ofRegs rfl
  · dsimp only
    split <;> exact .ofRegs rfl

theorem memRead (m x n : Nat) (c : Chip) : KeepsReg a c (c.memRead m x n).2 := by
  unfold Chip.memRead
  split
  · exact noteErr h m x _ c
  · split
    · exact obRead m x n c
    · split
      · exact ueErr h _ c
      · split
        · exact ceCount h c
        · exact .refl c

theorem memWrite (m x : Nat) (bs : List Byte) (c : Chip) : KeepsReg a c (c.memWrite m x bs).2 := by
  unfold Chip.memWrite
  split
  · exact noteErr h m x _ c
  · split
    · exact .ofRegs rfl
    · dsimp only
      split
      · exact ueErr h _ c
      · refine .ite (.trans ?_ (ceCount h _)) ?_
        · exact .trans (.ofRegs rfl) (setBytes x bs _)
        · exact .trans (.ofRegs rfl) (setBytes x bs _)

theorem dmaRead (m x n : Nat) (c : Chip) : KeepsReg a c (c.dmaRead m x n).2 := by
  unfold Chip.dmaRead
  split
  · exact memRead h m x n c
  · exact .refl c

theorem dmaWrite (m x : Nat) (bs : List Byte) (c : Chip) : KeepsReg a c (c.dmaWrite m x bs).2 := by
  unfold Chip.dmaWrite
  split
  · exact memWrite h m x bs c
  · exact .refl c

theorem freezeAt (unit m x len rwx : Nat) (c : Chip) : KeepsReg a c (c.freezeAt unit m x len rwx) :=
  .trans (.ofRegs rfl) (memCause h (by decide) _)

end

end KeepsReg

end Sys2Proof.Machine
end

section
/-!
PROOF. Frames on a CAN bus (R170, R172, R181 to R184, R186, R187, R193): what an operation leaves of a channel's control
register, and the ends of frames case by case.
-/
namespace Sys2Proof.Machine

variable {c d e : Chip} {n o k a : Nat} {t : CanTx} {f : CanFrame}

/-! ### What keeps a channel's CTL -/

/-- The control register of channel `n` is in `d` as in `c`. -/
abbrev KeepsCtl (n : Nat) : Chip → Chip → Prop := KeepsReg (CANn_CTL n)

namespace KeepsCtl

theorem ttRuns (h : KeepsCtl n c d) : d.ttRuns n = c.ttRuns n :=
  congrArg (fun w => wbit w 31 && wfld w 19 18 != 0) h

theorem fmtOn (h : KeepsCtl n c d) (fmt : Nat) : d.fmtOn n fmt = c.fmtOn n fmt := by
  have h27 : d.bit (CANn_CTL n) 27 = c.bit (CANn_CTL n) 27 := congrArg (wbit · 27) h
  have h26 : d.bit (CANn_CTL n) 26 = c.bit (CANn_CTL n) 26 := congrArg (wbit · 26) h
  unfold Chip.fmtOn
  rw [h27, h26]

/-- A write of another register of a channel. -/
theorem canReg {b i : Nat} {w : W32} (hb : b = i + n * 0x1000) (hi : 0x40090000 < i) (c : Chip) :
    KeepsCtl n c (c.setReg b w) := by
  refine KeepsReg.setReg ?_ c
  unfold CANn_CTL
  omega

theorem canEv {i : Nat} (hi : i < 8) (c : Chip) : KeepsCtl n c (c.canEv n i) := by
  refine KeepsReg.raise ?_ c
  unfold CANn_CTL EVT_PEND
  omega

theorem canFlag (i : Nat) (c : Chip) : KeepsCtl n c (c.canFlag n i) := canReg (i := 0x4009000C) rfl (by decide) c

theorem setCan (k : CanChan) (c : Chip) : KeepsCtl n c (c.setCan n k) := .ofRegs rfl

theorem canObjReg {k w : Nat} {v : W32} (hk : k < 128) (hw : w < 8) (c : Chip) : KeepsCtl n c (c.setReg (canObj n k w) v) := by
  refine KeepsReg.setReg ?_ c
  unfold CANn_CTL canObj
  omega

theorem guardHears (f : CanFrame) (sof : Nat) (c : Chip) : KeepsCtl n c (c.guardHears n f sof) := by
  unfold Chip.guardHears
  have hg (i : Nat) (b : Bool) (d : Chip) : KeepsCtl n d (d.setBit (CANn_GD_STAT n) i b) :=
    canReg (i := 0x40090208) rfl (by decide) d
  have hf (x : Nat) (d : Chip) : KeepsCtl n d (d.setFld (CANn_GD_STAT n) 29 28 x) :=
    canReg (i := 0x40090208) rfl (by decide) d
  refine .ite ?_ (.refl c)
  have hset : KeepsCtl n c ((c.setCan n { c.canOf n with
      gdMark := sof, gdCycle := (byteAt f.payload 0).toNat % 64 }).setBit (CANn_GD_STAT n) 27 true) :=
    (setCan _ c).trans (hg _ _ _)
  exact .ite (hset.trans (hf _ _)) hset

theorem tdcMeasured (c : Chip) : KeepsCtl n c (c.tdcMeasured n) := by
  unfold Chip.tdcMeasured
  refine .ite (.trans (d := c.takeFree.2) (.ofRegs rfl) ?_) (.refl c)
  exact canReg (i := 0x4009002C) rfl (by decide) _

theorem ttLevel (l : Nat) (c : Chip) : KeepsCtl n c (c.ttLevel n l) := by
  unfold Chip.ttLevel
  refine .ite (.trans (.trans ?_ (canFlag 1 _)) (canEv (by decide) _)) (.refl c)
  exact canReg (i := 0x40090108) rfl (by decide) c

theorem setCounters (x y : Nat) (c : Chip) : KeepsCtl n c (c.setCounters n x y) := by
  have hstat (w : W32) (d : Chip) : KeepsCtl n d (d.setReg (CANn_STAT n) w) := canReg (i := 0x40090004) rfl (by decide) d
  have hcnt (w : W32) : KeepsCtl n c (c.setReg (CANn_ERRCNT n) w) := canReg (i := 0x40090008) rfl (by decide) c
  unfold Chip.setCounters
  extract_lets c1 old new c2 c3 c4
  refine .ite (hcnt _) ?_
  have h2 : KeepsCtl n c c2 :=
    ((hcnt _).trans (hstat _ _)).trans (canEv (by decide) _)
  refine .ite (h2.trans (canFlag 3 _)) (.ite ?_ h2)
  have h4 : KeepsCtl n c c4 := ((h2.trans (canFlag 4 _)).trans (hstat _ _)).trans (hstat _ _)
  exact .ite (h4.trans (ttLevel 3 _)) h4

/-! Bank accesses and the receive-all ring -/

/-- A channel's control register is none that a memory access writes. -/
theorem aside (hn : n < 4) : Aside (CANn_CTL n) := by
  unfold Aside CANn_CTL
  omega

theorem ringStored (slot : Option Nat) (c : Chip) : KeepsCtl n c (c.ringStored n slot) := by
  unfold Chip.ringStored
  extract_lets k count c1
  have h1 : KeepsCtl n c c1 := .trans (canReg (i := 0x40090048) rfl (by decide) c) (setCan _ _)
  exact .ite (h1.trans (canEv (by decide) _)) h1

theorem canStoreFails (c : Chip) : KeepsCtl n c (c.canStoreFails n) :=
  ((setCan _ c).trans (canFlag 5 _)).trans (canEv (by decide) _)

theorem canStoreRun (slot : Option Nat) (us : List (Nat × List Byte)) (hn : n < 4) (c : Chip) :
    KeepsCtl n c (c.canStoreRun n slot us) := by
  induction us generalizing c with
  | nil => exact ringStored slot c
  | cons x us ih =>
    obtain ⟨x, bs⟩ := x
    have hd := KeepsReg.dmaWrite (aside hn) (c.fld (CANn_OWNER n) 3 0) x bs c
    unfold Chip.canStoreRun
    dsimp only
    split
    next c1 he =>
      rw [he] at hd
      exact hd.trans (ih c1)
    next c1 he =>
      rw [he] at hd
      exact (hd.trans (setCan _ _)).trans (.freezeAt (aside hn) _ _ _ _ _ _)
    next c1 he =>
      rw [he] at hd
      exact hd.trans (canStoreFails _)

theorem ringStore (f : CanFrame) (sof : Nat) (own : Bool) (hn : n < 4) (c : Chip) :
    KeepsCtl n c (c.ringStore n f sof own) := by
  unfold Chip.ringStore
  extract_lets k drop count long slot cyc entry base at' xl
  have hdrop (x i : Nat) (hx : x = i + n * 0x1000) (hi : 0x40090000 < i) : KeepsCtl n c (drop c x) :=
    (((canReg hx hi c).trans (canFlag 6 _)).trans (canEv (by decide) _)).trans (setCan _ _)
  refine .ite (.refl c) (.ite (hdrop _ 0x40090050 rfl (by decide)) (.ite (hdrop _ 0x4009005C rfl (by decide))
    (.ite (hdrop _ 0x40090050 rfl (by decide)) ?_)))
  exact (setCan _ c).trans (canStoreRun slot _ hn _)

end KeepsCtl

end Sys2Proof.Machine
end

section
/-!
PROOF. The ends of frames on a CAN bus: lost arbitration, completion, errors, payload units and reception (R181 to R184,
R186, R187, R191, R193, R200).
-/
namespace Sys2Proof.Machine

variable {c d : Chip} {n o k : Nat} {t : CanTx} {f : CanFrame} {w : CanWindow}

/-! ### Lost arbitration and completion -/

theorem canArbLost_none (h : (c.canOf n).tx = none) : canArbLost c n = c := by
  simp only [canArbLost, h]

theorem canArbLost_some (h : (c.canOf n).tx = some t) :
    canArbLost c n =
      (let c1 := (c.attemptFailed n t false true).canFrameEnd n
       if (c.canOf n).leaving then
         ((c1.setCan n { c1.canOf n with leaving := true }).setBit (CANn_STAT n) 28 true).setBit (CANn_STAT n) 25 true
       else c1.setBit (CANn_STAT n) 25 true) := by
  unfold canArbLost
  rw [h]

theorem canTxComplete_none (h : (c.canOf n).tx = none) : canTxComplete c n = c := by
  simp only [canTxComplete, h]

/-- The channel once a frame of its own has completed: TEC is one less. -/
def Chip.sentCounted (c : Chip) (n : Nat) (t : CanTx) : Chip :=
  let own := c.guardHears n t.frame t.sof
  (if t.frame.dataPhase then own.tdcMeasured n else own).setCounters n (c.tec n - 1) (c.recCount n)

/-- Its object k ends TRANSMITTED. -/
def Chip.sentObject (c : Chip) (n : Nat) (t : CanTx) (k : Nat) : Chip :=
  let counted := c.sentCounted n t
  let late := if t.late then counted.setBit (canObj n k 5) 8 true else counted
  (late.setReg (canObj n k 6) (w32 (t.sof / 65536 % 2 ^ 32))).objEnds n k 3

theorem canObj_state_ne_CTL : CANn_CTL n ≠ canObj n k 5 := by
  unfold CANn_CTL canObj
  omega

theorem sentCounted_keepsCtl : KeepsCtl n c (c.sentCounted n t) := by
  unfold Chip.sentCounted
  refine .trans ?_ (KeepsCtl.setCounters _ _ _)
  exact .ite (.trans (KeepsCtl.guardHears _ _ c) (KeepsCtl.tdcMeasured _)) (KeepsCtl.guardHears _ _ c)

theorem canTxComplete_object (hx : (c.canOf n).tx = some t) (ho : t.what = .object k) (he : t.exclusive = false)
    (ht : c.ttRuns n = false) :
    canTxComplete c n =
      (let ended := c.sentObject n t k
       let loop := c.fld (CANn_CTL n) 13 12
       let c3 := if loop = 1 ∨ loop = 2 then ended.canReceive n t.frame t.sof true
         else if c.bit (CANn_RING_CTL n) 30 then ended.ringStore n t.frame t.sof true else ended
       c3.canFrameEnd n) := by
  have hrun : (if t.late = true then (c.sentCounted n t).setBit (canObj n k 5) 8 true
      else c.sentCounted n t).ttRuns n = false := by
    refine (KeepsCtl.ttRuns ?_).trans ht
    exact .ite (.trans sentCounted_keepsCtl (.setBit canObj_state_ne_CTL _)) sentCounted_keepsCtl
  unfold Chip.sentObject
  unfold Chip.sentCounted at hrun ⊢
  simp only [canTxComplete, hx, ho, he, hrun, Bool.false_eq_true, if_false]

/-! ### Errors -/

/-- The channel with an error recorded (R182). -/
def Chip.errLogged (c : Chip) (n : Nat) (e : CanError) : Chip :=
  (if e.data && (c.canOf n).tx.isSome then c.tdcMeasured n else c).setReg (CANn_LASTERR n)
    (w32 (at_ (b2n e.data) 3 + e.code % 8))

theorem errLogged_canOf (e : CanError) : (c.errLogged n e).canOf n = c.canOf n := by
  unfold Chip.errLogged Chip.tdcMeasured
  split
  · split <;> rfl
  · rfl

theorem canBusError_off {e : CanError} (h : c.bit (CANn_STAT n) 28 = false ∨ c.fld (CANn_STAT n) 31 30 = 2) :
    canBusError c n e = c := by
  refine if_pos ?_
  rw [Bool.or_eq_true, beq_iff_eq, Bool.not_eq_true']
  exact h

/-- The transmit error count is not touched by the record of an error. -/
theorem errLogged_tec {e : CanError} : (c.errLogged n e).tec n = c.tec n := by
  have hk : KeepsReg (CANn_ERRCNT n) c (c.errLogged n e) := by
    unfold Chip.errLogged Chip.tdcMeasured
    refine .trans (.ite (.ite (.trans (d := c.takeFree.2) (.ofRegs rfl) (.setFld ?_ _)) (.refl c)) (.refl c)) (.setReg ?_ _)
    · unfold CANn_ERRCNT CANn_TDC
      omega
    · unfold CANn_ERRCNT CANn_LASTERR
      omega
  exact congrArg (wfld · 8 0) hk

section
variable {e : CanError} (h28 : c.bit (CANn_STAT n) 28 = true) (hf : c.fld (CANn_STAT n) 31 30 ≠ 2)
include h28 hf

theorem canBusError_on :
    canBusError c n e =
      (let c1 := c.errLogged n e
       let sending := (c.canOf n).tx.isSome
       let sender := sending || (c.canOf n).erred.isSome
       let tec := c.tec n
       let rx := c.recCount n
       match e.kind with
       | .frame => if sending then c1.txFails n (tec + 8) rx else c1.rxFails n (rx + 1)
       | .exempt => if sending then c1.txFails n tec rx else c1.rxFails n rx
       | .dominantAfterFlag => if sender then c1 else c1.setCounters n tec (rx + 8)
       | .flagBit => if sender then c1.txFlagError n (tec + 8) rx else c1.setCounters n tec (rx + 8)
       | .dominantRun => if sender then c1.txFlagError n (tec + 8) rx else c1.setCounters n tec (rx + 8)) := by
  refine if_neg ?_
  rw [Bool.or_eq_true, beq_iff_eq, h28, Bool.not_true]
  exact fun g => g.elim Bool.false_ne_true hf

theorem canBusError_receiver (ht : (c.canOf n).tx = none) :
    (e.kind = .exempt → canBusError c n e = ((c.errLogged n e).setCounters n (c.tec n) (c.recCount n)).canQuiet n) ∧
    (e.kind = .frame → canBusError c n e = ((c.errLogged n e).setCounters n (c.tec n) (c.recCount n + 1)).canQuiet n) := by
  have hs : ¬(c.canOf n).tx.isSome = true := by rw [ht]; exact Bool.false_ne_true
  rw [canBusError_on h28 hf]
  constructor <;> intro hk <;> simp only [hk, if_neg hs, Chip.rxFails, errLogged_tec]

theorem canBusError_sender (ht : (c.canOf n).tx ≠ none) :
    (e.kind = .exempt → canBusError c n e = (c.errLogged n e).txFails n (c.tec n) (c.recCount n)) ∧
    (e.kind = .frame → canBusError c n e = (c.errLogged n e).txFails n (c.tec n + 8) (c.recCount n)) := by
  have hs : (c.canOf n).tx.isSome = true := Option.isSome_iff_ne_none.2 ht
  rw [canBusError_on h28 hf]
  constructor <;> intro hk <;> simp only [hk, if_pos hs]

theorem canBusError_heardFlag (ht : (c.canOf n).tx = none) (he : (c.canOf n).erred = none)
    (hk : e.kind = .dominantAfterFlag ∨ e.kind = .flagBit ∨ e.kind = .dominantRun) :
    canBusError c n e = (c.errLogged n e).setCounters n (c.tec n) (c.recCount n + 8) := by
  rw [canBusError_on h28 hf]
  rcases hk with hk | hk | hk <;>
    simp only [hk, ht, he, Option.isSome_none, Bool.or_self, Bool.false_eq_true, if_false]

theorem canBusError_ownFlag (hs : (c.canOf n).tx ≠ none ∨ (c.canOf n).erred ≠ none) :
    (e.kind = .dominantAfterFlag → canBusError c n e = c.errLogged n e) ∧
    ((e.kind = .flagBit ∨ e.kind = .dominantRun) →
      canBusError c n e = (c.errLogged n e).txFlagError n (c.tec n + 8) (c.recCount n)) := by
  have hb : ((c.canOf n).tx.isSome || (c.canOf n).erred.isSome) = true := by
    rw [Bool.or_eq_true, Option.isSome_iff_ne_none, Option.isSome_iff_ne_none]
    exact hs
  rw [canBusError_on h28 hf]
  refine ⟨fun hk => ?_, fun hk => ?_⟩
  · simp only [hk, if_pos hb]
  · rcases hk with hk | hk <;> simp only [hk, if_pos hb]

end

section
variable {x y : Nat}

theorem txFlagError_on (h : (c.setCounters n x y).fld (CANn_STAT n) 31 30 ≠ 2) : c.txFlagError n x y = c.setCounters n x y :=
  if_pos h

theorem txFlagError_busOff (h : (c.setCounters n x y).fld (CANn_STAT n) 31 30 = 2) (ht : (c.canOf n).tx = some t) :
    c.txFlagError n x y = ((c.setCounters n x y).attemptFailed n t true false).canFrameEnd n := by
  simp only [Chip.txFlagError, h, ht, ne_eq, not_true_eq_false, if_false]

theorem txFlagError_busOffErred (h : (c.setCounters n x y).fld (CANn_STAT n) 31 30 = 2) (ht : (c.canOf n).tx = none)
    (he : (c.canOf n).erred = some (.object k)) (hs : (c.setCounters n x y).objState n k = 1) :
    c.txFlagError n x y = (c.setCounters n x y).setObjState n k 5 := by
  simp only [Chip.txFlagError, h, ht, he, hs, ne_eq, not_true_eq_false, if_false, if_true]

end

/-! ### Payload units -/

section
variable {u : Nat} (hx : (c.canOf n).tx = some t) (ho : t.what = .object k) (hfmt : t.frame.fmt = 2)
  (hb : wbit (c.reg (canObj n k 0)) 24 = true) (hl : 64 * u < canLen 2 (c.reg (canObj n k 2)))
include hx ho hfmt hb hl

theorem canXlRead_unit :
    canXlRead c n u =
      (let len := canLen 2 (c.reg (canObj n k 2))
       let m := c.fld (CANn_OWNER n) 3 0
       let a := c.fld (canObj n k 4) 31 6 * 64 + 64 * u
       let size := min 64 (len - 64 * u)
       if (c.canOf n).frozen.isSome then c.xlFails n t
       else
         match c.dmaRead m a size with
         | (.ok bs, c1) => c1.setCan n { c1.canOf n with
             tx := some { t with frame := { t.frame with payload := t.frame.payload.take (64 * u) ++ bs } } }
         | (.error .seg, c1) =>
           ((c1.setCan n { c1.canOf n with frozen := some (.xlRead a size) }).freezeAt (0x14 + n) m a size 1).xlFails n t
         | (.error .wait, c1) => c1
         | (.error _, c1) => c1.xlFails n t) := by
  have hn : ¬(t.frame.fmt ≠ 2 ∨ wbit (c.reg (canObj n k 0)) 24 = false ∨ canLen 2 (c.reg (canObj n k 2)) ≤ 64 * u) := by
    rintro (g | g | g)
    · exact g hfmt
    · exact Bool.false_ne_true (g.symm.trans hb)
    · omega
  unfold canXlRead
  dsimp only
  rw [hx]
  dsimp only
  rw [ho]
  exact if_neg hn

theorem canXlRead_frozen (hz : (c.canOf n).frozen ≠ none) : canXlRead c n u = c.xlFails n t :=
  (canXlRead_unit hx ho hfmt hb hl).trans (if_pos (Option.isSome_iff_ne_none.2 hz))

theorem canXlRead_ok (hz : (c.canOf n).frozen = none) {bs : List Byte}
    (hr : c.dmaRead (c.fld (CANn_OWNER n) 3 0) (c.fld (canObj n k 4) 31 6 * 64 + 64 * u)
      (min 64 (canLen 2 (c.reg (canObj n k 2)) - 64 * u)) = (.ok bs, d)) :
    canXlRead c n u = d.setCan n { d.canOf n with
      tx := some { t with frame := { t.frame with payload := t.frame.payload.take (64 * u) ++ bs } } } := by
  rw [canXlRead_unit hx ho hfmt hb hl]
  simp only [hz, hr, Option.isSome_none, Bool.false_eq_true, if_false]

end

theorem canXlRead_none {u : Nat} (h : (c.canOf n).tx = none) : canXlRead c n u = c := by
  simp only [canXlRead, h]

end Sys2Proof.Machine
end

section
/-!
PROOF. Reception on a CAN bus (R184, R186, R193, R200, R202), and with it what happens to frames on the bus.
-/
namespace Sys2Proof.Machine

variable {c d : Chip} {n o k : Nat} {t : CanTx} {f : CanFrame} {w : CanWindow} {sof : Nat}

/-- The channels of the CAN controller are in `d` as in `c`, their registers apart. -/
def SameCan (c d : Chip) : Prop := d.can = c.can

namespace SameCan

theorem refl (c : Chip) : SameCan c c := rfl

theorem trans {e : Chip} (h : SameCan c d) (g : SameCan d e) : SameCan c e := Eq.trans g h

theorem ite {e : Chip} {q : Prop} [Decidable q] (h : SameCan c d) (g : SameCan c e) : SameCan c (if q then d else e) := by
  split
  · exact h
  · exact g

theorem setReg {a : Nat} {v : W32} (c : Chip) : SameCan c (c.setReg a v) := rfl

theorem raise {s x : Nat} (c : Chip) : SameCan c (c.raise s x) := rfl

theorem ttLevel (l : Nat) (c : Chip) : SameCan c (c.ttLevel n l) :=
  .ite (((setReg c).trans (setReg _)).trans (raise _)) (refl c)

theorem setCounters (x y : Nat) (c : Chip) : SameCan c (c.setCounters n x y) := by
  unfold Chip.setCounters
  extract_lets c1 old new c2 c3 c4
  have h2 : SameCan c c2 := ((setReg c).trans (setReg _)).trans (raise _)
  have h4 : SameCan c c4 := ((h2.trans (setReg _)).trans (setReg _)).trans (setReg _)
  exact .ite (setReg c) (.ite (h2.trans (setReg _)) (.ite (.ite (h4.trans (ttLevel 3 _)) h4) h2))

theorem canOf (h : SameCan c d) (n : Nat) : d.canOf n = c.canOf n :=
  congrArg (fun t => tblGet CanChan.reset t n) h

end SameCan

/-! ### What the guardian's decoder and the counters leave -/

theorem KeepsReg.setCan {a : Nat} (k : CanChan) : KeepsReg a c (c.setCan n k) := .ofRegs rfl

theorem guardHears_keepsReg {a : Nat} (ha : a ≠ CANn_GD_STAT n) : KeepsReg a c (c.guardHears n f sof) := by
  unfold Chip.guardHears
  have hset (k : CanChan) : KeepsReg a c ((c.setCan n k).setBit (CANn_GD_STAT n) 27 true) :=
    .trans (.setCan k) (.setBit ha _)
  exact .ite (.ite ((hset _).trans (.setFld ha _)) (hset _)) (.refl c)

theorem guardHears_canOf : ∃ mark cycle,
    (c.guardHears n f sof).canOf n = { c.canOf n with gdMark := mark, gdCycle := cycle } := by
  have hset (k : CanChan) : (c.setCan n k).canOf n = k := tblGet_set_same _ _ _ _
  unfold Chip.guardHears
  split
  · refine ⟨sof, (byteAt f.payload 0).toNat % 64, ?_⟩
    refine (SameCan.canOf ?_ n).trans (hset _)
    exact .ite (.trans (.setReg _) (.setReg _)) (.setReg _)
  · exact ⟨_, _, rfl⟩

theorem guardHears_other (h : c.isReference n f = false) : c.guardHears n f sof = c :=
  if_neg (by rw [h]; exact Bool.false_ne_true)

theorem guardHears_counters : (c.guardHears n f sof).tec n = c.tec n ∧
    (c.guardHears n f sof).recCount n = c.recCount n := by
  have hk : KeepsReg (CANn_ERRCNT n) c (c.guardHears n f sof) := guardHears_keepsReg (by
    unfold CANn_ERRCNT CANn_GD_STAT
    omega)
  exact ⟨congrArg (wfld · 8 0) hk, congrArg (wfld · 31 24) hk⟩

theorem guardHears_canHears : (c.guardHears n f sof).canHears n = c.canHears n := by
  have hs : KeepsReg (CANn_STAT n) c (c.guardHears n f sof) := guardHears_keepsReg (by
    unfold CANn_STAT CANn_GD_STAT
    omega)
  have hc : KeepsReg (CANn_CTL n) c (c.guardHears n f sof) := KeepsCtl.guardHears f sof c
  obtain ⟨mark, cycle, hk⟩ := guardHears_canOf (c := c) (n := n) (f := f) (sof := sof)
  have h28 : (c.guardHears n f sof).bit (CANn_STAT n) 28 = c.bit (CANn_STAT n) 28 := congrArg (wbit · 28) hs
  have h31 : (c.guardHears n f sof).fld (CANn_STAT n) 31 30 = c.fld (CANn_STAT n) 31 30 := congrArg (wfld · 31 30) hs
  have h13 : (c.guardHears n f sof).fld (CANn_CTL n) 13 12 = c.fld (CANn_CTL n) 13 12 := congrArg (wfld · 13 12) hc
  unfold Chip.canHears Chip.canOn
  rw [h28, h31, h13, hk]

theorem setCounters_canOf (x y : Nat) : (c.setCounters n x y).canOf n = c.canOf n :=
  (SameCan.setCounters x y c).canOf n

/-- Where the counters leave the state of fault confinement as it is, they alone are written. -/
theorem setCounters_settled {x y : Nat} (h : fcsOf x y = c.fld (CANn_STAT n) 31 30) :
    c.setCounters n x y = c.setReg (CANn_ERRCNT n) (w32 (at_ (satTo 255 y) 24 + satTo 511 x)) := by
  refine if_pos ?_
  rw [h]
  exact (ite_eq_right_iff.2 Eq.symm).symm

/-! ### Frames received -/

/-- The receive error count after a frame received without error, and the channel that has it. -/
def Chip.rxCounted (c : Chip) (n : Nat) : Chip :=
  if c.recCount n ≤ 127 then c.setCounters n (c.tec n) (c.recCount n - 1)
  else c.takeFree.2.setCounters n (c.tec n) (119 + c.takeFree.1 % 9)

theorem rxCounted_canOf : (c.rxCounted n).canOf n = c.canOf n := by
  unfold Chip.rxCounted
  split
  · exact setCounters_canOf _ _
  · exact setCounters_canOf _ _

theorem rxCounted_keepsCtl : KeepsCtl n c (c.rxCounted n) :=
  .ite (KeepsCtl.setCounters _ _ c) (.trans (d := c.takeFree.2) (.ofRegs rfl) (KeepsCtl.setCounters _ _ _))

theorem canReceive_eq {own : Bool} :
    c.canReceive n f sof own =
      (let c1 := c.rxCounted n
       let r := c1.offerChecks n f sof (c.canOf n).checks
       (r.2.setCan n { r.2.canOf n with checks := r.1, erred := none }).ringStore n f sof own) := by
  unfold Chip.canReceive Chip.rxCounted
  rcases Nat.eq_zero_or_pos (c.recCount n) with h0 | h0
  · simp only [h0, if_true, setCounters_canOf, Nat.zero_le, Nat.zero_sub]
  · by_cases h1 : c.recCount n ≤ 127
    · simp only [Nat.pos_iff_ne_zero.1 h0, h1, if_true, if_false, setCounters_canOf]
    · simp only [Nat.pos_iff_ne_zero.1 h0, h1, if_false, setCounters_canOf]
      rfl

theorem canReceive_offered {own : Bool} {ws : List CanWindow}
    (h : (c.rxCounted n).offerChecks n f sof (c.canOf n).checks = (ws, d)) :
    c.canReceive n f sof own = (d.setCan n { d.canOf n with checks := ws, erred := none }).ringStore n f sof own := by
  rw [canReceive_eq]
  dsimp only
  rw [h]

theorem canReceive_unchecked {own : Bool} (h : (c.canOf n).checks = []) :
    c.canReceive n f sof own =
      (((c.rxCounted n).setCan n { (c.rxCounted n).canOf n with checks := [], erred := none }).ringStore n f sof own) := by
  refine canReceive_offered ?_
  rw [h]
  rfl

theorem setReg_lt {a : Nat} {v : W32} : (c.setReg a v).lt = c.lt := rfl

theorem isReference_congr (h : KeepsReg (CANn_TT_CFG n) c d) : d.isReference n f = c.isReference n f := by
  unfold Chip.isReference Chip.fld
  rw [h]

theorem isVeto_congr (h : KeepsReg (CANn_TT_VETO n) c d) (hs : KeepsReg (CANn_TT_STAT n) c d) :
    d.isVeto n f = c.isVeto n f := by
  unfold Chip.isVeto Chip.ttPhase Chip.ttSeq Chip.ttProp Chip.fld
  rw [h, hs]

theorem canRxFrame_begins_deaf {age : Nat} (h : c.canHears n = false) : canRxFrame c n true f age = c := by
  refine (if_pos rfl).trans (if_neg ?_)
  rw [h]
  exact Bool.false_ne_true

theorem canRxFrame_ends {age : Nat} : canRxFrame c n false f age = c.canArrives n f age :=
  if_neg Bool.false_ne_true

theorem canArrives_deaf {age : Nat} (h : c.canHears n = false) : c.canArrives n f age = c.guardHears n f (c.lt - age) := by
  refine if_pos ?_
  rw [guardHears_canHears, h]
  rfl

section
variable {age : Nat} (hh : c.canHears n = true)
include hh

theorem canArrives_formatOff (hf : c.fmtOn n f.fmt = false) :
    c.canArrives n f age =
      (let heard := c.guardHears n f (c.lt - age)
       ((heard.setCan n { heard.canOf n with integrating := true }).setBit (CANn_STAT n) 28 false).setBit
        (CANn_STAT n) 25 false) := by
  refine (if_neg ?_).trans (if_pos ?_)
  · rw [guardHears_canHears, hh]
    exact Bool.false_ne_true
  · rw [(KeepsCtl.guardHears f _ c).fmtOn, hf]
    rfl

/-- A frame that is no reference message or veto to a channel in time-triggered operation is received and no more. -/
theorem canArrives_received (hf : c.fmtOn n f.fmt = true) {d : Chip}
    (hd : (c.guardHears n f (c.lt - age)).canReceive n f (c.lt - age) false = d)
    (ht : d.ttRuns n = false ∨ (d.isReference n f = false ∧ d.isVeto n f = false)) :
    c.canArrives n f age = d.canQuiet n := by
  subst hd
  refine ((if_neg ?_).trans (if_neg ?_)).trans (congrArg (Chip.canQuiet · n) ?_)
  · rw [guardHears_canHears, hh]
    exact Bool.false_ne_true
  · rw [(KeepsCtl.guardHears f _ c).fmtOn, hf]
    exact Bool.false_ne_true
  · rcases ht with ht | ⟨hr, hv⟩
    · rw [ht]
      rfl
    · rw [hr, hv]
      simp only [Bool.false_eq_true, if_false, ite_self]

theorem canRxFrame_begins_heard : canRxFrame c n true f age =
    (c.setCan n { c.canOf n with erred := none }).setBit (CANn_STAT n) 25 true := by
  refine (if_pos rfl).trans (if_pos hh)

theorem canArrives_unchecked (hn : n < 4) (hf : c.fmtOn n f.fmt = true) (ht : c.ttRuns n = false)
    (hk : (c.canOf n).checks = []) :
    c.canArrives n f age =
      (let rcvd := (c.guardHears n f (c.lt - age)).rxCounted n
       ((rcvd.setCan n { rcvd.canOf n with checks := [], erred := none }).ringStore n f (c.lt - age) false).canQuiet n) := by
  obtain ⟨mark, cycle, hg⟩ := guardHears_canOf (c := c) (n := n) (f := f) (sof := c.lt - age)
  have hc : ((c.guardHears n f (c.lt - age)).canOf n).checks = [] := by
    rw [hg]
    exact hk
  refine canArrives_received hh hf (canReceive_unchecked hc) (.inl ?_)
  refine (KeepsCtl.ttRuns ?_).trans ht
  exact (((KeepsCtl.guardHears f _ c).trans rxCounted_keepsCtl).trans (KeepsCtl.setCan _ _)).trans (KeepsCtl.ringStore f _ false hn _)

end

/-! ### A receive check takes its frame -/

theorem checkTakes_keepsReg {a : Nat} (ho : o < 128) (hn : n < 4) (ha : 0x40090000 ≤ a) :
    KeepsReg a c (c.checkTakes n o f sof) := by
  have hobj {w : Nat} (hw : w < 8) : a ≠ canObj n o w := by
    unfold canObj
    omega
  have hdata {i : Nat} (hi : i < 16) : a ≠ canData n o i := by
    unfold canData
    omega
  have hfold (is : List Nat) (hi : ∀ i ∈ is, i < 16) : ∀ d : Chip, KeepsReg a d (is.foldl (fun (c : Chip) i =>
      if 4 * i < f.payload.length then
        c.setReg (canData n o i) (w32 (leNat (bytesAt (bytesAt f.payload 0 64) (4 * i) 4))) else c) d) := by
    induction is with
    | nil => exact fun d => .refl d
    | cons i is ih =>
      intro d
      refine .trans ?_ (ih (fun j hj => hi j (List.mem_cons_of_mem _ hj)) _)
      exact .ite (.setReg (hdata (hi i List.mem_cons_self)) d) (.refl d)
  unfold Chip.checkTakes
  extract_lets c1 c2 data c3 c4
  have h1 : KeepsReg a c c1 := .trans (.setFld (hobj (by decide)) c) (.setBit (hobj (by decide)) _)
  have h2 : KeepsReg a c c2 := .ite (h1.trans (.setBit (hobj (by decide)) _)) h1
  have h3 : KeepsReg a c c3 := h2.trans (hfold _ (fun _ h => List.mem_range.1 h) _)
  exact (((h3.trans (.setFld (hobj (by decide)) _)).trans (.setReg (hobj (by decide)) _)).trans
    (.setReg (hobj (by decide)) _)).trans (.setFld (hobj (by decide)) _)

/-- A state word that says TAKEN, with NEW set. -/
def TakenWord (v : W32) : Prop := wfld v 3 0 = 9 ∧ wbit v 11 = true

namespace TakenWord

theorem init (v : W32) : TakenWord (wsetBit (wsetFld v 3 0 9) 11 true) :=
  ⟨(wfld_wsetFld_below _ _ _ _ _ _ (by decide) (by decide) (by decide)).trans
    (wfld_wsetFld _ _ _ _ (by decide) (by decide)), wbit_wsetBit _ _ _ _ (by decide)⟩

theorem setFld {v : W32} (h : TakenWord v) {hi lo : Nat} (x : Nat) (hl : 11 < lo) (hh : lo ≤ hi) (h32 : hi < 32) :
    TakenWord (wsetFld v hi lo x) := by
  refine ⟨(wfld_wsetFld_below _ _ _ _ _ _ hh h32 (by omega)).trans h.1, ?_⟩
  rw [wbit_eq_wfld, wfld_wsetFld_below _ _ _ _ _ _ hh h32 hl, ← wbit_eq_wfld]
  exact h.2

end TakenWord

theorem canObj_ne {u v : Nat} (h : u ≠ v) : canObj n o u ≠ canObj n o v := by
  unfold canObj
  omega

theorem canObj_ne_canData (i : Nat) : canObj n o 5 ≠ canData n o i := by
  unfold canObj canData
  omega

/-- The object whose frame has been taken. -/
theorem checkTakes_taken : TakenWord ((c.checkTakes n o f sof).reg (canObj n o 5)) ∧
    (c.checkTakes n o f sof).reg (canObj n o 6) = w32 (sof / 65536 % 2 ^ 32) := by
  have hfold (is : List Nat) : ∀ d : Chip, KeepsReg (canObj n o 5) d (is.foldl (fun (c : Chip) i =>
      if 4 * i < f.payload.length then
        c.setReg (canData n o i) (w32 (leNat (bytesAt (bytesAt f.payload 0 64) (4 * i) 4))) else c) d) := by
    induction is with
    | nil => exact fun d => .refl d
    | cons i is ih => exact fun d => .trans (.ite (.setReg (canObj_ne_canData i) d) (.refl d)) (ih _)
  have hset {a : Nat} (d : Chip) (v : W32) : (d.setReg a v).reg a = v := Chip.reg_setReg_same _ _ _
  unfold Chip.checkTakes
  extract_lets c1 c2 data c3 c4
  have h1 : TakenWord (c1.reg (canObj n o 5)) := by
    have g : c1.reg (canObj n o 5) = wsetBit (wsetFld (c.reg (canObj n o 5)) 3 0 9) 11 true :=
      (hset _ _).trans (congrArg (wsetBit · 11 true) (hset _ _))
    rw [g]
    exact .init _
  have h2 : TakenWord (c2.reg (canObj n o 5)) := by
    unfold c2
    split
    · rw [show (c1.setBit (canObj n o 5) 12 true).reg (canObj n o 5) = _ from hset _ _]
      exact h1.setFld 1 (by decide) (by decide) (by decide)
    · exact h1
  generalize hd : (c4.setReg (canObj n o 6) _).setReg (canObj n o 7) _ = d
  have h5 : KeepsReg (canObj n o 5) c2 d := by
    subst hd
    exact (((hfold _ c2).trans (.setFld (canObj_ne (by decide)) _)).trans (.setReg (canObj_ne (by decide)) _)).trans
      (.setReg (canObj_ne (by decide)) _)
  have h6 : d.reg (canObj n o 6) = w32 (sof / 65536 % 2 ^ 32) := by
    subst hd
    exact (Chip.reg_setReg_other _ _ (canObj_ne (by decide))).trans (hset _ _)
  refine ⟨?_, (Chip.reg_setReg_other _ _ (canObj_ne (by decide))).trans h6⟩
  rw [show (d.mscDown n o).reg (canObj n o 5) = _ from hset _ _, h5]
  exact h2.setFld _ (by decide) (by decide) (by decide)

theorem checkTakes_canOf : (c.checkTakes n o f sof).canOf n = c.canOf n := by
  have hfold (is : List Nat) : ∀ d : Chip, SameCan d (is.foldl (fun (c : Chip) i =>
      if 4 * i < f.payload.length then
        c.setReg (canData n o i) (w32 (leNat (bytesAt (bytesAt f.payload 0 64) (4 * i) 4))) else c) d) := by
    induction is with
    | nil => exact fun d => .refl d
    | cons i is ih => exact fun d => .trans (.ite (.setReg d) (.refl d)) (ih _)
  unfold Chip.checkTakes
  extract_lets c1 c2 data c3 c4
  refine SameCan.canOf ?_ n
  have h1 : SameCan c c1 := .trans (.setReg c) (.setReg _)
  have h2 : SameCan c c2 := .ite (h1.trans (.setReg _)) h1
  exact ((((h2.trans (hfold _ _)).trans (.setReg _)).trans (.setReg _)).trans (.setReg _)).trans (.setReg _)

/-- Nothing else than the error counts is written where a frame is received and the state stays. -/
theorem rxCounted_settled (h0 : c.recCount n = 0) (h : fcsOf (c.tec n) 0 = c.fld (CANn_STAT n) 31 30) :
    c.rxCounted n = c.setReg (CANn_ERRCNT n) (w32 (at_ (satTo 255 0) 24 + satTo 511 (c.tec n))) := by
  unfold Chip.rxCounted
  rw [h0, if_pos (Nat.zero_le _)]
  exact setCounters_settled h

theorem objFrame_head (h : KeepsReg (canObj n o 0) c d) (h1 : KeepsReg (canObj n o 1) c d) :
    (d.objFrame n o).fmt = (c.objFrame n o).fmt ∧ (d.objFrame n o).ide = (c.objFrame n o).ide ∧
    (d.objFrame n o).id = (c.objFrame n o).id := by
  unfold Chip.objFrame
  dsimp only
  rw [h, h1]
  exact ⟨rfl, rfl, rfl⟩

/-- The one open receive check takes the frame of its object. -/
theorem offerChecks_takes (ht : w.taken = false) (hc : c.lt < w.close + 819200)
    (h0 : (c.objFrame n w.obj).fmt = f.fmt) (h1 : (c.objFrame n w.obj).ide = f.ide)
    (h2 : (c.objFrame n w.obj).id = f.id) :
    c.offerChecks n f sof [w] = ([{ w with taken := true }], c.checkTakes n w.obj f sof) := by
  refine if_neg ?_
  rintro (g | g | g | g | g)
  · exact Bool.false_ne_true (ht.symm.trans g)
  · unfold kernelCycle at g
    omega
  · exact g h0
  · exact g h1
  · exact g h2

theorem ringStore_off {own : Bool} (h : c.bit (CANn_RING_CTL n) 31 = false) : c.ringStore n f sof own = c :=
  if_pos (by rw [h]; rfl)

theorem canQuiet_canOf : (c.canQuiet n).canOf n = { c.canOf n with leaving := false } := by
  unfold Chip.canQuiet
  extract_lets k c1
  exact (SameCan.canOf (.ite (.setReg _) (.refl c1)) n).trans (tblGet_set_same _ _ _ _)

theorem canQuiet_keepsReg {a : Nat} (h : a ≠ CANn_STAT n) : KeepsReg a c (c.canQuiet n) := by
  unfold Chip.canQuiet
  extract_lets k c1
  have h1 : KeepsReg a c c1 := .trans (.setCan { k with leaving := false }) (.setBit h _)
  exact .ite (h1.trans (.setBit h _)) h1

end Sys2Proof.Machine

namespace Sys2Proof
open Machine

/-- The frame of a receive check's object, received. -/
theorem canArrives_check {c : Chip} {n age : Nat} {f : CanFrame} {w : CanWindow} (hn : n < 4) (hh : c.canHears n = true)
    (hk : (c.canOf n).checks = [w]) (ht : w.taken = false) (hc : c.lt < w.close + 819200)
    (hf : c.fmtOn n f.fmt = true) (h0 : c.recCount n = 0) (hb : c.bit (CANn_RING_CTL n) 31 = false)
    (hfcs : fcsOf (c.tec n) 0 = c.fld (CANn_STAT n) 31 30) (hr : c.isReference n f = false) (hv : c.isVeto n f = false)
    (hfmt : (c.objFrame n w.obj).fmt = f.fmt) (hide : (c.objFrame n w.obj).ide = f.ide)
    (hid : (c.objFrame n w.obj).id = f.id) (ho : w.obj < 128) :
    (c.canArrives n f age).objState n w.obj = 9 ∧ (c.canArrives n f age).bit (canObj n w.obj 5) 11 = true ∧
    (c.canArrives n f age).reg (canObj n w.obj 6) = w32 ((c.lt - age) / 65536 % 2 ^ 32) ∧
    (c.canArrives n f age).canOf n =
      { c.canOf n with checks := [{ w with taken := true }], erred := none, leaving := false } := by
  generalize hs : c.lt - age = sof
  have hstat {u : Nat} (hu : u < 8) : canObj n w.obj u ≠ CANn_STAT n := by
    unfold CANn_STAT canObj
    omega
  have hcnt (u : Nat) (hu : u < 8) : canObj n w.obj u ≠ CANn_ERRCNT n := by
    unfold CANn_ERRCNT canObj
    omega
  generalize hd : c.setReg (CANn_ERRCNT n) (w32 (at_ (satTo 255 0) 24 + satTo 511 (c.tec n))) = d
  have hkeep {a : Nat} (ha : a ≠ CANn_ERRCNT n) : KeepsReg a c d := hd ▸ .setReg ha c
  have hcan : d.canOf n = c.canOf n := hd ▸ (SameCan.setReg c).canOf n
  have hlt : d.lt = c.lt := hd ▸ setReg_lt
  obtain ⟨e0, e1, e2⟩ := objFrame_head (hkeep (hcnt 0 (by decide))) (hkeep (hcnt 1 (by decide)))
  have hoff : d.offerChecks n f sof [w] = ([{ w with taken := true }], d.checkTakes n w.obj f sof) :=
    offerChecks_takes ht (hlt ▸ hc) (e0.trans hfmt) (e1.trans hide) (e2.trans hid)
  have hreg {a : Nat} (ha : a ≠ CANn_ERRCNT n) (hl : 0x40090000 ≤ a) : KeepsReg a c (d.checkTakes n w.obj f sof) :=
    (hkeep ha).trans (checkTakes_keepsReg ho hn hl)
  generalize he : d.checkTakes n w.obj f sof = e at hoff hreg
  have hecan : e.canOf n = c.canOf n := he ▸ checkTakes_canOf.trans hcan
  have hrcv : c.canReceive n f sof false = e.setCan n { e.canOf n with checks := [{ w with taken := true }], erred := none } := by
    refine (canReceive_offered (d := e) ?_).trans (ringStore_off ?_)
    · rw [rxCounted_settled h0 hfcs, hd, hk]
      exact hoff
    · refine (congrArg (wbit · 31) (KeepsReg.trans (a := CANn_RING_CTL n) (hreg ?_ ?_) (.setCan _))).trans hb
      · unfold CANn_RING_CTL CANn_ERRCNT
        omega
      · unfold CANn_RING_CTL
        omega
  have harr : c.canArrives n f age = (e.setCan n { e.canOf n with checks := [{ w with taken := true }], erred := none }).canQuiet n := by
    refine canArrives_received hh hf (by rw [guardHears_other hr, hs]; exact hrcv) (.inr ⟨?_, ?_⟩)
    · refine Eq.trans (isReference_congr (.trans (hreg ?_ ?_) (.setCan _))) hr
      · unfold CANn_TT_CFG CANn_ERRCNT
        omega
      · unfold CANn_TT_CFG
        omega
    · refine Eq.trans (isVeto_congr (.trans (hreg ?_ ?_) (.setCan _)) (.trans (hreg ?_ ?_) (.setCan _))) hv
      · unfold CANn_TT_VETO CANn_ERRCNT
        omega
      · unfold CANn_TT_VETO
        omega
      · unfold CANn_TT_STAT CANn_ERRCNT
        omega
      · unfold CANn_TT_STAT
        omega
  rw [harr]
  obtain ⟨⟨hst, hnew⟩, hstamp⟩ := checkTakes_taken (c := d) (n := n) (o := w.obj) (f := f) (sof := sof)
  rw [he] at hst hnew hstamp
  have hq {u : Nat} (hu : u < 8) : KeepsReg (canObj n w.obj u) e ((e.setCan n { e.canOf n with
      checks := [{ w with taken := true }], erred := none }).canQuiet n) :=
    .trans (.setCan _) (canQuiet_keepsReg (hstat hu))
  refine ⟨(congrArg (wfld · 3 0) (hq (by decide))).trans hst, (congrArg (wbit · 11) (hq (by decide))).trans hnew,
    Eq.trans (hq (u := 6) (by decide)) hstamp, ?_⟩
  rw [canQuiet_canOf, ← hecan]
  exact congrArg (fun k : CanChan => { k with leaving := false }) (tblGet_set_same _ _ _ _)

/-- Settles O27: the ends of attempts, frames and errors and the reception of frames, case by case. Which error counts
how much (PRESUMED, log entry 31), the transmitter delay that the line gives (log entry 143) and reception under LOOP
(PRESUMED, log entry 45) are the model's choices. -/
theorem canFramesOnTheBus : Obligations.CanFramesOnTheBus := by
  unfold Obligations.CanFramesOnTheBus
  intro n u e f age c ch x stat sof measured logged tec rx flagged loop heard rcvd
  refine ⟨fun h => ⟨does_canArbitrationLoss (canArbLost_none h), does_canTxComplete (canTxComplete_none h),
    does_canXlPayloadRead (canXlRead_none h)⟩, ?_, ?_, ?_, ?_, ?_, ?_, ?_⟩
  · intro t ht lost
    exact ⟨fun hl => does_canArbitrationLoss ((canArbLost_some ht).trans (if_neg (by rw [hl]; exact Bool.false_ne_true))),
      fun hl => does_canArbitrationLoss ((canArbLost_some ht).trans (if_pos hl))⟩
  · intro t k ht ho he hr own counted late ended
    have hp : t.frame.dataPhase = true ↔ (t.frame.fmt = 2 ∨ (t.frame.fmt = 1 ∧ t.frame.brs = true)) := by
      simp only [CanFrame.dataPhase, Bool.or_eq_true, Bool.and_eq_true, beq_iff_eq]
    have hend : c.sentObject ch t k = ended := by
      unfold ended late counted Chip.sentObject Chip.sentCounted
      simp only [hp]
      rfl
    have hc := canTxComplete_object ht ho he hr
    rw [hend] at hc
    refine ⟨fun hl => does_canTxComplete (hc.trans (congrArg (Chip.canFrameEnd · ch) (if_pos hl))),
      fun hl hb => does_canTxComplete (hc.trans (congrArg (Chip.canFrameEnd · ch) ((if_neg hl).trans (if_pos hb)))),
      fun hl hb => does_canTxComplete (hc.trans (congrArg (Chip.canFrameEnd · ch) ((if_neg hl).trans (if_neg ?_))))⟩
    rw [hb]
    exact Bool.false_ne_true
  · exact fun h => does_canBusError (canBusError_off h)
  · intro h28 hf
    refine ⟨fun ht => ⟨fun hk => does_canBusError ((canBusError_receiver h28 hf ht).1 hk),
      fun hk => does_canBusError ((canBusError_receiver h28 hf ht).2 hk)⟩,
      fun ht => ⟨fun hk => does_canBusError ((canBusError_sender h28 hf ht).1 hk),
        fun hk => does_canBusError ((canBusError_sender h28 hf ht).2 hk)⟩,
      fun ht he hk => does_canBusError (canBusError_heardFlag h28 hf ht he hk), fun hs => ?_⟩
    obtain ⟨hafter, hflag⟩ := canBusError_ownFlag h28 hf hs
    refine ⟨fun hk => does_canBusError (hafter hk), fun hk => ⟨fun h2 => ?_, fun h2 => ⟨fun t ht => ?_, fun ht k he ho => ?_⟩⟩⟩
    · exact does_canBusError ((hflag hk).trans (txFlagError_on h2))
    · exact does_canBusError ((hflag hk).trans (txFlagError_busOff h2 ((congrArg CanChan.tx (errLogged_canOf e)).trans ht)))
    · exact does_canBusError ((hflag hk).trans (txFlagError_busOffErred h2 ((congrArg CanChan.tx (errLogged_canOf e)).trans ht)
        ((congrArg CanChan.erred (errLogged_canOf e)).trans he) ho))
  · intro t k ht ho hfmt hb hl
    exact ⟨fun hz => does_canXlPayloadRead (canXlRead_frozen ht ho hfmt hb hl hz),
      fun hz bs d hr => does_canXlPayloadRead (canXlRead_ok ht ho hfmt hb hl hz hr)⟩
  · intro h
    exact ⟨does_canRxFrame (canRxFrame_begins_deaf h), does_canRxFrame (canRxFrame_ends.trans (canArrives_deaf h)),
      does_canReferenceReceived (canArrives_deaf h), does_canVetoReceived (canArrives_deaf h)⟩
  · intro h
    refine ⟨does_canRxFrame (canRxFrame_begins_heard h), fun hf => ?_, fun hf ht hk => ?_, ?_⟩
    · exact ⟨does_canRxFrame (canRxFrame_ends.trans (canArrives_formatOff h hf)), does_canReferenceReceived (canArrives_formatOff h hf),
        does_canVetoReceived (canArrives_formatOff h hf)⟩
    · have hr : heard.rxCounted ch = rcvd := by
        unfold rcvd Chip.rxCounted
        rw [guardHears_counters.1, guardHears_counters.2]
      have hc : c.canArrives ch f age =
          ((rcvd.setCan ch { rcvd.canOf ch with checks := [], erred := none }).ringStore ch f sof false).canQuiet ch := by
        rw [← hr]
        exact canArrives_unchecked h n.isLt hf ht hk
      exact ⟨does_canRxFrame (canRxFrame_ends.trans hc), does_canReferenceReceived hc, does_canVetoReceived hc⟩
    · intro w hk ht hc hf h0 hb hfcs hr hv h1 h2 h3 ho
      exact (does_canRxFrame canRxFrame_ends).gives (canArrives_check n.isLt h hk ht hc hf h0 hb hfcs hr hv h1 h2 h3 ho)

end Sys2Proof
end

section
/-!
PROOF. The arithmetic of the A and M units is that of the integers (R217, R218, R220, R221, R229): sums and
differences, shifts and counts, products, division and packed decimal.
-/
namespace Sys2Proof.Machine

variable {a b d f : W32}

/-! ### Words as integers -/

theorem w32_toNat (n : Nat) : (w32 n).toNat = n % 2 ^ 32 := BitVec.toNat_ofNat n 32

/-- A word read as a signed number is the one integer of its residue class in the signed range. -/
theorem eq_toInt_iff {r : W32} {z : Int} (h : (z - r.toNat) % 2 ^ 32 = 0) : z = r.toInt ↔ -(2 ^ 31) ≤ z ∧ z < 2 ^ 31 := by
  have hr := r.isLt
  rw [BitVec.toInt_eq_toNat_cond]
  split <;> omega

/-- The overflow flag as the operations form it: the integer result is not the word's. -/
theorem overflow_iff {r : W32} {z : Int} (h : (z - r.toNat) % 2 ^ 32 = 0) :
    decide (z ≠ r.toInt) = true ↔ ¬(-(2 ^ 31) ≤ z ∧ z < 2 ^ 31) := by
  rw [decide_eq_true_iff, ne_eq, eq_toInt_iff h]

/-- A signed reading differs from the unsigned one by a multiple of 2^32. -/
theorem toInt_sub_toNat (r : W32) : (r.toInt - r.toNat) % 2 ^ 32 = 0 := by
  have hr := r.isLt
  rw [BitVec.toInt_eq_toNat_cond]
  split <;> omega

theorem b2n_le (x : Bool) : b2n x ≤ 1 := by
  cases x <;> decide

/-! ### Sums and differences -/

theorem addFlags_toNat (x : Bool) : (addFlags a b x).1.toNat = (a.toNat + b.toNat + b2n x) % 2 ^ 32 := w32_toNat _

theorem addFlags_c (x : Bool) : (addFlags a b x).2.c = some true ↔ 2 ^ 32 ≤ a.toNat + b.toNat + b2n x := by
  simp only [addFlags, Option.some_inj, decide_eq_true_iff]

theorem addFlags_v (x : Bool) : (addFlags a b x).2.v = some true ↔
    ¬(-(2 ^ 31) ≤ a.toInt + b.toInt + b2n x ∧ a.toInt + b.toInt + b2n x < 2 ^ 31) := by
  refine Option.some_inj.trans (overflow_iff ?_)
  have ha := toInt_sub_toNat a
  have hb := toInt_sub_toNat b
  rw [w32_toNat]
  omega

theorem addFlags_v_plain : (addFlags a b false).2.v = some true ↔
    ¬(-(2 ^ 31) ≤ a.toInt + b.toInt ∧ a.toInt + b.toInt < 2 ^ 31) := by
  have h := addFlags_v (a := a) (b := b) false
  rwa [show ((b2n false : Nat) : Int) = 0 from rfl, Int.add_zero] at h

theorem subFlags_toNat (x : Bool) :
    ((subFlags a b x).1.toNat : Int) = ((a.toNat : Int) - b.toNat - b2n x) % 2 ^ 32 := by
  have ha := a.isLt
  have hb := b.isLt
  have hx := b2n_le x
  have hs : (subFlags a b x).1.toNat = (2 ^ 32 - b2n x + (2 ^ 32 - b.toNat + a.toNat) % 2 ^ 32) % 2 ^ 32 := by
    show (a - b - w32 (b2n x)).toNat = _
    rw [BitVec.toNat_sub, BitVec.toNat_sub, w32_toNat, Nat.mod_eq_of_lt (show b2n x < 2 ^ 32 by omega)]
  rw [hs]
  omega

theorem subFlags_c (x : Bool) : (subFlags a b x).2.c = some true ↔ b.toNat + b2n x ≤ a.toNat := by
  simp only [subFlags, Option.some_inj, decide_eq_true_iff]

theorem subFlags_v (x : Bool) : (subFlags a b x).2.v = some true ↔
    ¬(-(2 ^ 31) ≤ a.toInt - b.toInt - b2n x ∧ a.toInt - b.toInt - b2n x < 2 ^ 31) := by
  refine Option.some_inj.trans (overflow_iff ?_)
  have ha := toInt_sub_toNat a
  have hb := toInt_sub_toNat b
  have hs := subFlags_toNat (a := a) (b := b) x
  rw [show a - b - w32 (b2n x) = (subFlags a b x).1 from rfl]
  omega

theorem subFlags_v_plain : (subFlags a b false).2.v = some true ↔
    ¬(-(2 ^ 31) ≤ a.toInt - b.toInt ∧ a.toInt - b.toInt < 2 ^ 31) := by
  have h := subFlags_v (a := a) (b := b) false
  rwa [show ((b2n false : Nat) : Int) = 0 from rfl, Int.sub_zero] at h

theorem subFlags_toNat_plain : ((subFlags a b false).1.toNat : Int) = ((a.toNat : Int) - b.toNat) % 2 ^ 32 := by
  have h := subFlags_toNat (a := a) (b := b) false
  rwa [show ((b2n false : Nat) : Int) = 0 from rfl, Int.sub_zero] at h

theorem b2n_not (x : Bool) : b2n (!x) = 1 - b2n x := by
  cases x <;> rfl

/-! ### Shifts, leading zeros and byte order -/

theorem shiftLeft_toNat {n : Nat} : (shiftFlags 0 a n).1.toNat = a.toNat * 2 ^ n % 2 ^ 32 := by
  by_cases h : 32 ≤ n
  · refine (congrArg BitVec.toNat (if_pos h)).trans (Nat.mod_eq_zero_of_dvd ?_).symm
    exact Nat.dvd_trans (Nat.pow_dvd_pow 2 h) (Nat.dvd_mul_left _ _)
  · refine (congrArg BitVec.toNat (if_neg h)).trans ?_
    rw [BitVec.toNat_shiftLeft, Nat.shiftLeft_eq]

theorem shiftRight_toNat {n : Nat} : (shiftFlags 1 a n).1.toNat = a.toNat / 2 ^ n := by
  by_cases h : 32 ≤ n
  · refine (congrArg BitVec.toNat (if_pos h)).trans (Nat.div_eq_of_lt ?_).symm
    exact Nat.lt_of_lt_of_le a.isLt (Nat.pow_le_pow_right (by decide) h)
  · refine (congrArg BitVec.toNat (if_neg h)).trans ?_
    rw [BitVec.toNat_ushiftRight, Nat.shiftRight_eq_div_pow]

theorem div_two_pow_of_le {z : Int} {n : Nat} (h0 : -(2 ^ 31) ≤ z) (h1 : z < 2 ^ 31) (hn : 31 ≤ n) :
    z / 2 ^ n = if z < 0 then -1 else 0 := by
  have hp : (2 : Int) ^ 31 ≤ 2 ^ n := by exact_mod_cast Nat.pow_le_pow_right (by decide) hn
  split
  · rw [Int.ediv_eq_iff_of_pos (by omega)]
    omega
  · exact Int.ediv_eq_zero_of_lt (by omega) (by omega)

theorem shiftArith_toInt {n : Nat} : (shiftFlags 2 a n).1.toInt = a.toInt / 2 ^ n := by
  have h0 := BitVec.le_toInt a
  have h1 := BitVec.toInt_lt (x := a)
  show (a.sshiftRight (min n 32)).toInt = _
  rw [BitVec.toInt_sshiftRight, Int.shiftRight_eq_div_pow]
  rcases Nat.le_total n 32 with h | h
  · rw [Nat.min_eq_left h]
    norm_cast
  · rw [Nat.min_eq_right h]
    rw [div_two_pow_of_le h0 h1 (n := n) (by omega), ← div_two_pow_of_le h0 h1 (n := 32) (Nat.le_succ 31)]
    norm_cast

theorem clz32_le : clz32 a ≤ 32 := by
  unfold clz32
  cases h : (List.range 32).find? fun i => wbit a (31 - i) with
  | none => exact Nat.le_refl 32
  | some i => exact Nat.le_of_lt (List.mem_range.1 (List.mem_of_find?_eq_some h))

theorem clz32_lt_pow : a.toNat < 2 ^ (32 - clz32 a) := by
  have hsmall {k : Nat} (hk : ∀ i, i < k → wbit a (31 - i) = false) (hk32 : k ≤ 32) : a.toNat < 2 ^ (32 - k) := by
    refine Nat.lt_pow_two_of_testBit _ fun j hj => ?_
    by_cases h : j < 32
    · have := hk (31 - j) (by omega)
      rwa [show 31 - (31 - j) = j by omega] at this
    · exact Nat.testBit_lt_two_pow (Nat.lt_of_lt_of_le a.isLt (Nat.pow_le_pow_right (by decide) (by omega)))
  unfold clz32
  cases h : (List.range 32).find? fun i => wbit a (31 - i) with
  | none =>
    refine hsmall (fun i hi => ?_) (Nat.le_refl 32)
    exact Bool.eq_false_iff.2 (List.find?_eq_none.1 h i (List.mem_range.2 hi))
  | some i =>
    obtain ⟨-, hi, hb⟩ := List.find?_range_eq_some.1 h
    refine hsmall (fun j hj => ?_) (Nat.le_of_lt (List.mem_range.1 hi))
    exact Bool.eq_false_iff.2 (by simpa using hb j hj)

theorem pow_le_of_clz32 (h : clz32 a < 32) : 2 ^ (31 - clz32 a) ≤ a.toNat := by
  unfold clz32 at h ⊢
  cases hf : (List.range 32).find? fun i => wbit a (31 - i) with
  | none =>
    rw [hf] at h
    exact absurd h (by decide)
  | some i =>
    have hb : wbit a (31 - i) = true := by simpa using List.find?_some hf
    exact Nat.ge_two_pow_of_testBit hb

/-- The digit of a number between a low part and a high part. -/
theorem div_mod_split {lo e hi p k : Nat} (hlo : lo < 2 ^ p) (he : e < 2 ^ k) :
    (lo + 2 ^ p * (e + 2 ^ k * hi)) / 2 ^ p % 2 ^ k = e := by
  rw [Nat.add_mul_div_left _ _ (Nat.two_pow_pos p), Nat.div_eq_of_lt hlo, Nat.zero_add, Nat.add_mul_mod_self_left,
    Nat.mod_eq_of_lt he]

/-- Byte i of a word of four bytes. -/
theorem byte_of_four {e0 e1 e2 e3 i : Nat} (hi : i < 4) (h0 : e0 < 256) (h1 : e1 < 256) (h2 : e2 < 256) (h3 : e3 < 256) :
    (e0 + 256 * (e1 + 256 * (e2 + 256 * e3))) / 2 ^ (8 * i) % 2 ^ 8 = [e0, e1, e2, e3].getD i 0 := by
  have hs {lo hi' e : Nat} (hlo : lo < 2 ^ (8 * i)) (he : e < 2 ^ 8)
      (hn : e0 + 256 * (e1 + 256 * (e2 + 256 * e3)) = lo + 2 ^ (8 * i) * (e + 2 ^ 8 * hi')) :
      (e0 + 256 * (e1 + 256 * (e2 + 256 * e3))) / 2 ^ (8 * i) % 2 ^ 8 = e := by
    rw [hn]
    exact div_mod_split hlo he
  obtain rfl | rfl | rfl | rfl : i = 0 ∨ i = 1 ∨ i = 2 ∨ i = 3 := by omega
  · exact hs (e := e0) (lo := 0) (hi' := e1 + 256 * (e2 + 256 * e3)) (by decide) h0 (by omega)
  · exact hs (e := e1) (lo := e0) (hi' := e2 + 256 * e3) h0 h1 (by omega)
  · exact hs (e := e2) (lo := e0 + 256 * e1) (hi' := e3) (by omega) h2 (by omega)
  · exact hs (e := e3) (lo := e0 + 256 * (e1 + 256 * e2)) (hi' := 0) (by omega) h3 (by omega)

theorem beNat_leBytes_four {e0 e1 e2 e3 : Nat} (h0 : e0 < 256) (h1 : e1 < 256) (h2 : e2 < 256) (h3 : e3 < 256) :
    beNat (leBytes 4 (e0 + 256 * (e1 + 256 * (e2 + 256 * e3)))) = e3 + 256 * (e2 + 256 * (e1 + 256 * e0)) := by
  simp only [leBytes, beNat, List.reverse_cons, List.reverse_nil, List.nil_append, List.cons_append, leNat,
    BitVec.toNat_ofNat]
  omega

theorem byteSwap_field {i : Nat} (hi : i < 4) :
    wfld (w32 (beNat (leBytes 4 a.toNat))) (8 * i + 7) (8 * i) = wfld a (31 - 8 * i) (24 - 8 * i) := by
  have ha := a.isLt
  obtain ⟨e0, e1, e2, e3, h, h0, h1, h2, h3⟩ : ∃ e0 e1 e2 e3, a.toNat = e0 + 256 * (e1 + 256 * (e2 + 256 * e3)) ∧
      e0 < 256 ∧ e1 < 256 ∧ e2 < 256 ∧ e3 < 256 :=
    ⟨a.toNat % 256, a.toNat / 256 % 256, a.toNat / 65536 % 256, a.toNat / 16777216, by omega, by omega, by omega,
      by omega, by omega⟩
  unfold wfld nfld
  rw [w32_toNat, h, beNat_leBytes_four h0 h1 h2 h3, show 8 * i + 7 + 1 - 8 * i = 8 by omega,
    show 31 - 8 * i + 1 - (24 - 8 * i) = 8 by omega, Nat.mod_eq_of_lt (b := 2 ^ 32) (by omega), show 24 - 8 * i = 8 * (3 - i) by omega, byte_of_four hi h3 h2 h1 h0,
    byte_of_four (by omega) h0 h1 h2 h3]
  obtain rfl | rfl | rfl | rfl : i = 0 ∨ i = 1 ∨ i = 2 ∨ i = 3 := by omega
  all_goals rfl

/-! ### Products -/

theorem mulSigned_eq : w32i (a.toInt * b.toInt) = a * b := by
  unfold w32i
  rw [BitVec.ofInt_mul, BitVec.ofInt_toInt, BitVec.ofInt_toInt]

theorem mulSigned_toNat : (w32i (a.toInt * b.toInt)).toNat = a.toNat * b.toNat % 2 ^ 32 := by
  rw [mulSigned_eq, BitVec.toNat_mul]

theorem toInt_w32i {z : Int} (h0 : -(2 ^ 31) ≤ z) (h1 : z < 2 ^ 31) : (w32i z).toInt = z := by
  unfold w32i
  rw [BitVec.toInt_ofInt]
  exact Int.bmod_eq_of_le (by omega) (by omega)

theorem mulSigned_emod : (a.toInt * b.toInt - (w32i (a.toInt * b.toInt)).toNat) % 2 ^ 32 = 0 := by
  have h : ((w32i (a.toInt * b.toInt)).toNat : Int) = a.toInt * b.toInt % 2 ^ 32 := by
    unfold w32i
    rw [BitVec.toNat_ofInt]
    omega
  omega

theorem mulSigned_v : (mulOp 0x00 0 a b d f).2.2.v = some true ↔
    ¬(-(2 ^ 31) ≤ a.toInt * b.toInt ∧ a.toInt * b.toInt < 2 ^ 31) := by
  refine Option.some_inj.trans ?_
  rw [decide_eq_decide.2 ne_comm]
  exact overflow_iff mulSigned_emod

theorem mulSignedHigh_toInt : (w32i (a.toInt * b.toInt / 2 ^ 32)).toInt = a.toInt * b.toInt / 2 ^ 32 := by
  have ha0 := BitVec.le_toInt a
  have ha1 := BitVec.toInt_lt (x := a)
  have hb0 := BitVec.le_toInt b
  have hb1 := BitVec.toInt_lt (x := b)
  have hp : (a.toInt * b.toInt).natAbs ≤ 2 ^ 31 * 2 ^ 31 := by
    rw [Int.natAbs_mul]
    exact Nat.mul_le_mul (by omega) (by omega)
  exact toInt_w32i (by omega) (by omega)

theorem mulHigh_toNat : (w32 (a.toNat * b.toNat / 2 ^ 32)).toNat = a.toNat * b.toNat / 2 ^ 32 := by
  rw [w32_toNat]
  refine Nat.mod_eq_of_lt (Nat.div_lt_of_lt_mul ?_)
  exact Nat.mul_lt_mul'' a.isLt b.isLt

/-! ### Division -/

theorem divU_zero : divU a 0 = (0xFFFFFFFF, a, { zn 0xFFFFFFFF with c := some false, v := some false, dz := true }) := rfl

theorem divU_pos (h : b ≠ 0) : divU a b = (w32 (a.toNat / b.toNat), w32 (a.toNat % b.toNat),
    { zn (w32 (a.toNat / b.toNat)) with c := some false, v := some false, dz := false }) := if_neg h

theorem divS_zero : divS a 0 = (if a.toInt < 0 then 1 else 0xFFFFFFFF, a,
    { zn (if a.toInt < 0 then 1 else 0xFFFFFFFF) with c := some false, v := some false, ovf := false, dz := true }) := rfl

theorem divS_pos (h : b ≠ 0) : divS a b =
    (let q := w32i (Int.tdiv a.toInt b.toInt)
     let v := decide (Int.tdiv a.toInt b.toInt = 2 ^ 31)
     (q, w32i (Int.tmod a.toInt b.toInt), { zn q with c := some false, v := some v, ovf := v, dz := false })) := if_neg h

theorem toNat_pos_of_ne_zero (h : b ≠ 0) : 0 < b.toNat :=
  Nat.pos_of_ne_zero fun g => h (BitVec.eq_of_toNat_eq g)

/-- Unsigned division is that of the naturals (R229). -/
theorem divU_exact (h : b ≠ 0) : a.toNat = (divU a b).1.toNat * b.toNat + (divU a b).2.1.toNat ∧
    (divU a b).2.1.toNat < b.toNat ∧ (divU a b).2.2.dz = false := by
  have hb := toNat_pos_of_ne_zero h
  have hr := Nat.mod_lt a.toNat hb
  rw [divU_pos h]
  refine ⟨?_, ?_, rfl⟩
  · rw [w32_toNat, w32_toNat, Nat.mod_eq_of_lt (Nat.lt_of_le_of_lt (Nat.div_le_self _ _) a.isLt),
      Nat.mod_eq_of_lt (Nat.lt_trans hr b.isLt), Nat.div_add_mod']
  · rw [w32_toNat, Nat.mod_eq_of_lt (Nat.lt_trans hr b.isLt)]
    exact hr

theorem toInt_ne_zero (h : b ≠ 0) : b.toInt ≠ 0 := fun g => h (BitVec.eq_of_toInt_eq g)

/-- The truncated quotient of two signed words is a signed word, but for the one corner. -/
theorem tdiv_range {x y : Int} (h0 : -(2 ^ 31) ≤ x) (h1 : x < 2 ^ 31) (hc : ¬(x = -(2 ^ 31) ∧ y = -1)) :
    -(2 ^ 31) ≤ x.tdiv y ∧ x.tdiv y < 2 ^ 31 := by
  have hn : (x.tdiv y).natAbs = x.natAbs / y.natAbs := Int.natAbs_tdiv _ _
  by_cases hy : y = -1
  · subst hy
    rw [Int.tdiv_neg, Int.tdiv_one]
    omega
  · by_cases hy1 : y = 1
    · subst hy1
      rw [Int.tdiv_one]
      exact ⟨h0, h1⟩
    · have hle : x.natAbs / y.natAbs ≤ x.natAbs / 2 := by
        rcases Nat.lt_or_ge y.natAbs 2 with hlt | hge
        · rw [show y.natAbs = 0 by omega, Nat.div_zero]
          exact Nat.zero_le _
        · exact Nat.div_le_div_left hge (by decide)
      omega

/-- Signed division truncates toward zero, where the quotient is one of a word (R229). -/
theorem divS_exact (h : b ≠ 0) (hq : ¬(a.toInt = -(2 ^ 31) ∧ b.toInt = -1)) :
    a.toInt = (divS a b).1.toInt * b.toInt + (divS a b).2.1.toInt ∧ (divS a b).2.1.toInt.natAbs < b.toInt.natAbs ∧
    ((divS a b).2.1.toInt = 0 ∨ ((divS a b).2.1.toInt < 0 ↔ a.toInt < 0)) ∧ (divS a b).2.2.ovf = false := by
  have ha0 : -(2 ^ 31) ≤ a.toInt := BitVec.le_toInt a
  have ha1 : a.toInt < 2 ^ 31 := BitVec.toInt_lt (x := a)
  have hb0 : -(2 ^ 31) ≤ b.toInt := BitVec.le_toInt b
  have hb1 : b.toInt < 2 ^ 31 := BitVec.toInt_lt (x := b)
  have hb := toInt_ne_zero h
  obtain ⟨hq0, hq1⟩ := tdiv_range ha0 ha1 hq
  have hsum := Int.mul_tdiv_add_tmod a.toInt b.toInt
  have hlt : (Int.tmod a.toInt b.toInt).natAbs < b.toInt.natAbs := by
    rw [Int.natAbs_tmod]
    exact Nat.mod_lt _ (Int.natAbs_pos.2 hb)
  rw [divS_pos h]
  dsimp only
  rw [toInt_w32i hq0 hq1, toInt_w32i (z := Int.tmod a.toInt b.toInt) (by omega) (by omega)]
  refine ⟨by rw [Int.mul_comm]; exact hsum.symm, hlt, ?_, decide_eq_false (by omega)⟩
  rcases Int.lt_or_le a.toInt 0 with hneg | hpos
  · have := Int.tmod_nonneg (a := -a.toInt) b.toInt (by omega)
    rw [Int.neg_tmod] at this
    omega
  · have := Int.tmod_nonneg b.toInt hpos
    omega

theorem divS_dz (h : b ≠ 0) : (divS a b).2.2.dz = false := by rw [divS_pos h]

/-- The one quotient that is no signed word (R229). -/
theorem divS_corner (ha : a.toInt = -(2 ^ 31)) (hb : b.toInt = -1) :
    (divS a b).1 = 0x80000000 ∧ (divS a b).2.1 = 0 ∧ (divS a b).2.2.ovf = true := by
  have hane : a = 0x80000000 := BitVec.eq_of_toInt_eq ha
  have hbne : b = 0xFFFFFFFF := BitVec.eq_of_toInt_eq hb
  subst hane hbne
  decide

theorem mulOp_divS : mulOp 0x05 0 a b d f = ((divS a b).1, some (divS a b).2.1, (divS a b).2.2) := rfl

theorem mulOp_divU : mulOp 0x06 0 a b d f = ((divU a b).1, some (divU a b).2.1, (divU a b).2.2) := rfl

/-! ### Packed decimal -/

/-- The base-16 number of the digits `e 0`, `e 1`, … -/
theorem sum_hex_lt (e : Nat → Nat) (he : ∀ i, e i < 16) (n : Nat) :
    ((List.range n).map fun i => e i * 16 ^ i).sum < 16 ^ n := by
  induction n with
  | zero => exact Nat.one_pos
  | succ n ih =>
    have hen := Nat.mul_le_mul_right (16 ^ n) (Nat.le_of_lt_succ (he n))
    rw [List.range_succ, List.map_append, List.sum_append, List.map_singleton, List.sum_singleton, Nat.pow_succ]
    omega

/-- Its digit `i`. -/
theorem sum_hex_digit (e : Nat → Nat) (he : ∀ i, e i < 16) {i n : Nat} (hi : i < n) :
    ((List.range n).map fun i => e i * 16 ^ i).sum / 16 ^ i % 16 = e i := by
  induction n with
  | zero => omega
  | succ n ih =>
    rw [List.range_succ, List.map_append, List.sum_append, List.map_singleton, List.sum_singleton]
    rcases Nat.lt_or_ge i n with h | h
    · obtain ⟨m, rfl⟩ : ∃ m, n = i + 1 + m := ⟨n - (i + 1), by omega⟩
      rw [show e (i + 1 + m) * 16 ^ (i + 1 + m) = 16 ^ i * (16 * (e (i + 1 + m) * 16 ^ m)) by
          rw [Nat.pow_add, Nat.pow_succ]
          ac_rfl,
        Nat.add_mul_div_left _ _ (Nat.pow_pos (by decide)), Nat.add_mul_mod_self_left]
      exact ih h
    · obtain rfl : i = n := by omega
      rw [Nat.add_mul_div_right _ _ (Nat.pow_pos (by decide)), Nat.div_eq_of_lt (sum_hex_lt e he i), Nat.zero_add,
        Nat.mod_eq_of_lt (he i)]

/-- The sum of the decimal digits of a number. -/
theorem sum_dec (x n : Nat) : ((List.range n).map fun i => x / 10 ^ i % 10 * 10 ^ i).sum = x % 10 ^ n := by
  induction n with
  | zero => exact (Nat.mod_one x).symm
  | succ n ih =>
    rw [List.range_succ, List.map_append, List.sum_append, ih, List.map_singleton, List.sum_singleton, Nat.mod_pow_succ,
      Nat.mul_comm]

theorem decWord_digit (x : Nat) {i : Nat} (hi : i < 8) : wfld (decWord x) (4 * i + 3) (4 * i) = x / 10 ^ i % 10 := by
  have he (i : Nat) : x / 10 ^ i % 10 < 16 := Nat.lt_trans (Nat.mod_lt _ (by decide)) (by decide)
  have hlt := sum_hex_lt (fun i => x / 10 ^ i % 10) he 8
  unfold wfld nfld decWord
  rw [w32_toNat, show 4 * i + 3 + 1 - 4 * i = 4 by omega, Nat.pow_mul, Nat.mod_eq_of_lt (b := 2 ^ 32) (by omega)]
  exact sum_hex_digit (fun i => x / 10 ^ i % 10) he hi

theorem decVal_decWord (x : Nat) : decVal (decWord x) = x % 10 ^ 8 := by
  rw [← sum_dec x 8]
  unfold decVal
  refine congrArg List.sum (List.map_congr_left fun i hi => ?_)
  rw [decWord_digit x (List.mem_range.1 hi)]

theorem decBad_decWord (x : Nat) : decBad (decWord x) = false := by
  refine List.any_eq_false.2 fun i hi => ?_
  rw [decWord_digit x (List.mem_range.1 hi), decide_eq_true_iff]
  omega

/-- Digits that are each at most `k` make a number of at most `k` for each place. -/
theorem sum_dec_le {k : Nat} (e : Nat → Nat) (n : Nat) (he : ∀ i < n, e i ≤ k) :
    9 * ((List.range n).map fun i => e i * 10 ^ i).sum + k ≤ k * 10 ^ n := by
  induction n with
  | zero => exact Nat.le_of_eq (by rw [List.range_zero, List.map_nil, List.sum_nil, Nat.mul_zero, Nat.zero_add, Nat.pow_zero,
      Nat.mul_one])
  | succ n ih =>
    have hen := Nat.mul_le_mul_right (10 ^ n) (he n n.lt_succ_self)
    have hle := ih fun i hi => he i (Nat.lt_trans hi n.lt_succ_self)
    rw [List.range_succ, List.map_append, List.sum_append, List.map_singleton, List.sum_singleton, Nat.pow_succ,
      ← Nat.mul_assoc]
    omega

theorem decVal_le {k : Nat} (h : ∀ i < 8, wfld a (4 * i + 3) (4 * i) ≤ k) : 9 * decVal a + k ≤ k * 10 ^ 8 :=
  sum_dec_le (fun i => wfld a (4 * i + 3) (4 * i)) 8 h

theorem decVal_lt (h : decBad a = false) : decVal a < 10 ^ 8 := by
  have hd : ∀ i < 8, wfld a (4 * i + 3) (4 * i) ≤ 9 := fun i hi => by
    simpa using List.any_eq_false.1 h i (List.mem_range.2 hi)
  have := decVal_le hd
  omega

theorem w32_decVal : (w32 (decVal a)).toNat = decVal a := by
  have hd : ∀ i < 8, wfld a (4 * i + 3) (4 * i) ≤ 15 := fun i _ => by
    have := wfld_lt a (4 * i + 3) (4 * i)
    rw [show 4 * i + 3 + 1 - 4 * i = 4 by omega] at this
    omega
  rw [w32_toNat]
  have := decVal_le hd
  exact Nat.mod_eq_of_lt (by omega)

/-- Decimal addition of a carry `c` (R221). -/
theorem decAdd_exact {x c : Nat} (hc : (if x % 2 = 1 then b2n (flagC f) else 0) = c) :
    decVal (mulOp 0x10 x a b d f).1 = (decVal a + decVal b + c) % 10 ^ 8 ∧ decBad (mulOp 0x10 x a b d f).1 = false ∧
    ((mulOp 0x10 x a b d f).2.2.c = some true ↔ 10 ^ 8 ≤ decVal a + decVal b + c) := by
  subst hc
  exact ⟨decVal_decWord _, decBad_decWord _, Option.some_inj.trans decide_eq_true_iff⟩

/-- Decimal subtraction of a borrow `e` (R221). -/
theorem decSub_exact {x e : Nat} (he : (if x % 2 = 1 then 1 - (b2n (flagC f) : Int) else 0) = e) :
    (decVal (mulOp 0x11 x a b d f).1 : Int) = ((decVal a : Int) - decVal b - e) % 10 ^ 8 ∧
    ((mulOp 0x11 x a b d f).2.2.c = some true ↔ decVal b + e ≤ decVal a) := by
  rw [← he]
  generalize hn : (decVal a : Int) - decVal b - (if x % 2 = 1 then 1 - (b2n (flagC f) : Int) else 0) = n
  have hr : (mulOp 0x11 x a b d f).1 = decWord (n % 10 ^ 8).toNat := hn ▸ rfl
  have hf : (mulOp 0x11 x a b d f).2.2.c = some (decide (0 ≤ n)) := hn ▸ rfl
  rw [hr, hf, decVal_decWord]
  refine ⟨by omega, (Option.some_inj.trans decide_eq_true_iff).trans ?_⟩
  rw [he] at hn
  omega

end Sys2Proof.Machine

namespace Sys2Proof
open Machine

/-- Settles O32: sums, differences and products by their residues, shifts by powers of two, division by truncated
division, packed decimal by its digits. -/
theorem dwevelArithmeticIsExact : Obligations.DwevelArithmeticIsExact := by
  unfold Obligations.DwevelArithmeticIsExact
  intro a b d f A M carry fits n top
  have hnc : b2n (!flagC f) = 1 - carry := b2n_not _
  have hcarry : carry ≤ 1 := b2n_le _
  have hclz : (A 0x15).1.toNat = clz32 a := (w32_toNat _).trans (Nat.mod_eq_of_lt (Nat.lt_of_le_of_lt clz32_le (by decide)))
  refine ⟨⟨⟨addFlags_toNat false, addFlags_c false, addFlags_v_plain⟩, ⟨addFlags_toNat _, addFlags_c _⟩,
    ⟨subFlags_toNat_plain, subFlags_c false, subFlags_v_plain⟩, ?_, ?_⟩,
    ⟨⟨shiftLeft_toNat, shiftRight_toNat, shiftArith_toInt⟩, ?_, ?_, ?_, fun i hi => byteSwap_field hi⟩,
    ⟨mulSigned_toNat, mulSigned_v, mulSignedHigh_toInt, mulHigh_toNat, ?_⟩, ?_, ?_, ?_⟩
  · have h := subFlags_toNat (a := a) (b := b) (!flagC f)
    rw [hnc] at h
    exact h.trans (by omega)
  · have h := subFlags_c (a := a) (b := b) (!flagC f)
    rwa [hnc] at h
  · rw [hclz]
    exact clz32_le
  · rw [hclz]
    exact clz32_lt_pow
  · rw [hclz]
    exact pow_le_of_clz32
  · refine (addFlags_toNat false).trans ?_
    rw [w32_toNat, show b2n false = 0 from rfl]
    omega
  · rintro q r fl q' r' fl' hs hu
    obtain ⟨rfl, rfl, rfl⟩ : (divS a b).1 = q ∧ (divS a b).2.1 = r ∧ (divS a b).2.2 = fl := by
      simpa only [Prod.mk.injEq, Option.some_inj] using mulOp_divS.symm.trans hs
    obtain ⟨rfl, rfl, rfl⟩ : (divU a b).1 = q' ∧ (divU a b).2.1 = r' ∧ (divU a b).2.2 = fl' := by
      simpa only [Prod.mk.injEq, Option.some_inj] using mulOp_divU.symm.trans hu
    refine ⟨?_, fun hb => ?_, fun hb hq => divS_exact hb hq, fun ha hb => divS_corner ha hb⟩
    · rintro rfl
      rw [divS_zero, divU_zero]
      exact ⟨rfl, rfl, rfl, rfl, rfl, rfl, rfl⟩
    · obtain ⟨hsum, hlt, hdz⟩ := divU_exact (a := a) hb
      exact ⟨hsum, hlt, hdz, divS_dz hb⟩
  · intro _ _ x hx c e
    have hc : (if x % 2 = 1 then b2n (flagC f) else 0) = c := by rw [Nat.mod_eq_of_lt hx]
    have he : (if x % 2 = 1 then 1 - (b2n (flagC f) : Int) else 0) = (e : Int) := by
      rw [Nat.mod_eq_of_lt hx]
      unfold e
      split
      · exact (Int.natCast_sub hcarry).symm
      · rfl
    exact ⟨decAdd_exact hc, decSub_exact he⟩
  · exact ⟨decVal_decWord _, decBad_decWord _, w32_decVal, rfl⟩

end Sys2Proof
end

section
/-!
PROOF. A message in a full mailbox stays as it is (R390, R391).
-/
namespace Sys2Proof.Machine

variable {c d e : Chip} {i : Instr} {m n k : Nat} {v : W32}

/-- A command leaves one next device. -/
theorem Does.unique (hr : c.runs = true) (h : Does i c d) (g : Does i c e) : d = e := by
  have hn := (h hr []).symm.trans (g hr [])
  injection hn with hs
  injection hs

/-! ### A full mailbox refuses writes -/

theorem mbDataWrite_full {x : Nat} (h : c.mbFull n = true) : mbDataWrite c m n x v = c.refuse :=
  if_neg (by rw [h, Bool.not_true, Bool.and_false]; exact Bool.false_ne_true)

theorem mbCfgWrite_full (h : c.mbFull n = true) : mbCfgWrite c m n v = c.refuse :=
  if_pos (by rw [h, Bool.true_or])

/-- GO is nobody's while the mailbox is full. -/
theorem mbCtlWrite_full (h : c.mbFull n = true) (hv : wbit v 31 = true) : mbCtlWrite c m n v = c.refuse := by
  refine if_pos ?_
  unfold Chip.mbCtlAllowed
  simp only [hv, h, Bool.not_true, Bool.and_false, Bool.false_and, Bool.and_self, ite_self, Bool.not_false]

/-! ### What a read of the last register leaves -/

theorem setPair_keepsReg {a : Nat} (t : PairTimer) (c : Chip) : KeepsReg a c (c.setPair n t) := .ofRegs rfl

theorem setMbTimer_keepsReg {a : Nat} (t : MbTimer) (c : Chip) : KeepsReg a c (c.setMbTimer n t) := .ofRegs rfl

theorem mbEmpty_keepsReg {a : Nat} (h : a ≠ MBn_CTL n) : KeepsReg a c (c.mbEmpty n) := by
  unfold Chip.mbEmpty
  extract_lets c1 c2
  have h2 : KeepsReg a c c2 := ((KeepsReg.setBit h c).trans (setMbTimer_keepsReg _ _)).trans (setPair_keepsReg _ _)
  split
  · exact h2.trans (setPair_keepsReg _ _)
  · exact h2

theorem mbAck_keepsData (hk : k < 16) (hn : n < 64) : KeepsReg (MBn_DATA n k) c (mbAck c n) := by
  have he : KeepsReg (MBn_DATA n k) c (c.mbEmpty n) := mbEmpty_keepsReg (by
    unfold MBn_DATA MBn_CTL
    omega)
  refine .ite (he.trans (.raise ?_ _)) he
  unfold MBn_DATA EVT_PEND
  omega

/-- A read of a data register keeps the data, and FULL as well where it is not the receiver's. -/
theorem readData_keeps {x : Nat} (n : Fin 64) (hx : x < 16) (hk : k < 16) (h : c.mbFull n.val = true) :
    (regRead c m (MBn_DATA n.val x)).reg (MBn_DATA n.val k) = c.reg (MBn_DATA n.val k) ∧
    (m ≠ c.mbReceiver n.val → (regRead c m (MBn_DATA n.val x)).mbFull n.val = true) := by
  rw [regRead_MBn_DATA n x hx]
  unfold mbDataRead
  by_cases hr : c.mbReads m n.val = true
  · rw [hr]
    by_cases ha : (c.mbEn n.val && m == c.mbReceiver n.val && x == c.mbLast n.val && c.mbFull n.val) = true
    · simp only [Bool.not_true, Bool.false_eq_true, if_false, if_pos ha]
      refine ⟨mbAck_keepsData hk n.isLt, fun hm => absurd ?_ hm⟩
      simp only [Bool.and_eq_true, beq_iff_eq] at ha
      exact ha.1.1.2
    · simp only [Bool.not_true, Bool.false_eq_true, if_false, if_neg ha]
      exact ⟨rfl, fun _ => h⟩
  · rw [Bool.eq_false_iff.2 hr]
    exact ⟨rfl, fun _ => h⟩

end Sys2Proof.Machine

namespace Sys2Proof
open Machine

/-- Settles O46: a full mailbox refuses every write of its data and configuration and every GO, and a read of a data
register at most acknowledges, which clears FULL for the receiver and keeps the data. -/
theorem aMessageIsNeverOverwritten : Obligations.AMessageIsNeverOverwritten := by
  unfold Obligations.AMessageIsNeverOverwritten
  intro m n i v c d k hr hf hk holds
  have hrefused (h : c.refuse = d) : holds := by
    subst h
    exact ⟨rfl, hf⟩
  refine ⟨fun h => hrefused ?_, fun h _ => hrefused ?_, fun h => hrefused ?_, fun h => ?_⟩
  · exact Does.unique hr (does_mailboxDataWrite ((regWrite_MBn_DATA n i).trans (mbDataWrite_full hf))) h
  · refine Does.unique hr (does_mailboxGo ((regWrite_MBn_CTL n).trans (mbCtlWrite_full hf ?_))) h
    rw [wbit_or, show wbit 0x80000000 31 = true from rfl, Bool.or_true]
  · exact Does.unique hr (does_mailboxConfigWrite ((regWrite_MBn_CFG n).trans (mbCfgWrite_full hf))) h
  · obtain rfl := Does.unique hr (does_mailboxAcknowledge rfl) h
    have hx : c.mbLast n.val < 16 := by
      unfold Chip.mbLast
      split <;> omega
    exact readData_keeps n hx hk hf

end Sys2Proof
end

section
/-!
PROOF. How a core's next bundle runs: which context issues, what its access comes to, and what its commit leaves (R213,
R231 to R235).
-/
namespace Sys2Proof.Machine

variable {c d e : Chip} {core flight x : Nat} {ws : List W32} {k : Ctx}

/-! ### Contexts and traps -/

theorem ctx_setCtx_same (c : Chip) (core x : Nat) (k : Ctx) : (c.setCtx core x k).ctx core x = k := tblGet_set_same _ _ _ _

theorem fault_word (cause : Nat) (info : W32) : (TrapWhy.fault cause info).word false = w32 cause := by
  simp only [TrapWhy.word, TrapWhy.fault, b2n, at_, Bool.false_eq_true, if_false, Nat.zero_mul, Nat.zero_add]

theorem trap_taken {tpc : Nat} {t : TrapWhy} (h : (c.ctx core x).doubles = false) :
    c.trap core x tpc t = c.setCtx core x { c.ctx core x with
      tpc := w32 tpc, tcause := t.word false, tinfo := t.info
      tstat := wsetBit (c.ctx core x).tstat 0 true, pc := (c.ctx core x).tvec.toNat } :=
  if_neg (by rw [h]; exact Bool.false_ne_true)

theorem trap_fault {tpc cause : Nat} {info : W32} (h : (c.ctx core x).doubles = false) :
    c.trap core x tpc (.fault cause info) = c.setCtx core x { c.ctx core x with
      tpc := w32 tpc, tcause := w32 cause, tinfo := info
      tstat := wsetBit (c.ctx core x).tstat 0 true, pc := (c.ctx core x).tvec.toNat } := by
  rw [trap_taken h, fault_word]
  rfl

theorem doubles_eq_false (h : wbit k.tstat 0 = false) (hv : k.tvec ≠ 0) : k.doubles = false := by
  unfold Ctx.doubles
  rw [h, Bool.false_or, beq_eq_false_iff_ne]
  exact hv

/-! ### Which context issues -/

/-- The contexts above the one that issues are passed by. -/
theorem issueFrom_skips {n m : Nat} (hm : n ≤ m) (h : ∀ y, n ≤ y → y < m → (c.ctx core y).st = .ready ∨
    (c.ctx core y).inFlight = true → flight.testBit y = true) : c.issueFrom core flight m = c.issueFrom core flight n := by
  induction m with
  | zero => rw [Nat.le_zero.1 hm]
  | succ m ih =>
    rcases Nat.lt_or_eq_of_le hm with hlt | rfl
    · refine (if_neg ?_).trans (ih (Nat.le_of_lt_succ hlt) fun y hy hym => h y hy (Nat.lt_trans hym m.lt_succ_self))
      rintro ⟨hr, hf⟩
      exact Bool.false_ne_true (hf.symm.trans (h m (Nat.le_of_lt_succ hlt) m.lt_succ_self hr))
    · rfl

theorem issueFrom_none {n : Nat} (h : ∀ y < n, (c.ctx core y).st ≠ .ready ∧ (c.ctx core y).inFlight = false) :
    c.issueFrom core flight n = c :=
  issueFrom_skips (Nat.zero_le n) fun y _ hy hr => by
    obtain ⟨hs, hf⟩ := h y hy
    exact hr.elim (fun g => absurd g hs) fun g => absurd (hf.symm.trans g) Bool.false_ne_true

/-- The highest context that is ready issues its bundle; one that stays in flight lets a lower context issue. -/
theorem issueFrom_issues (hs : (c.ctx core x).st = .ready) (hi : (c.ctx core x).inFlight = false)
    (hf : flight.testBit x = false) : c.issueFrom core flight (x + 1) =
      match c.issue core x with
      | (true, c1) => c1.issueFrom core flight x
      | (false, c1) => c1 := by
  refine (if_pos ⟨.inl hs, hf⟩).trans ?_
  rw [hi]
  rfl

theorem bundleExecute_issues {core : Fin 11} {mm : Bool} (h : core ≠ 0 ∨ (c.core.supStopped = false ∧ mm = false)) :
    bundleExecute c core.val flight mm = c.issueFrom core.val flight (ctxCount core.val) := by
  rcases h with h | ⟨hs, rfl⟩
  · have hv : core.val ≠ 0 := fun g => h (Fin.ext g)
    simp only [bundleExecute, hv, false_and, if_false]
  · simp only [bundleExecute, hs, Bool.false_eq_true, and_false, false_and, if_false]

theorem issue_runs (h : c.fetch core ((c.ctx core x).pc / 4 * 4) (longest core) [] = .ok ws d)
    (hl : illegalSyll core ws = none) : c.issue core x = d.runBundle core x (d.ctx core x) ws := by
  unfold Chip.issue
  simp only [h, hl]

/-! ### What its run comes to -/

theorem runBundle_misaligned {info : W32} (h : misaligned (bundleSylls ws) c core k = some info) :
    c.runBundle core x k ws = (false, c.trap core x k.pc (.fault 2 info)) := by
  simp only [Chip.runBundle, h]

section
variable (ha : misaligned (bundleSylls ws) c core k = none)
include ha

theorem runBundle_waits {mask : W32} {ns : Nat} (hw : waitOf (bundleSylls ws) k = some (mask, ns))
    (h : k.wake &&& mask = 0) :
    c.runBundle core x k ws = (false, c.setCtx core x { k with st := .wait, waitSince := c.lt, held := ws }) := by
  simp only [Chip.runBundle, ha, hw, h, ne_eq, not_true_eq_false, if_false]

theorem runBundle_woken {mask : W32} {ns : Nat} (hw : waitOf (bundleSylls ws) k = some (mask, ns))
    (h : k.wake &&& mask ≠ 0) :
    c.runBundle core x k ws = (false, c.finish c core x k ws [] (some (k.wake &&& mask))) := by
  simp only [Chip.runBundle, ha, hw, if_pos h]

theorem runBundle_plain (hw : waitOf (bundleSylls ws) k = none)
    (hm : (bundleSylls ws).find? (fun s => s.fmt == .mem) = none) :
    c.runBundle core x k ws = (false, c.finish c core x k ws [] none) := by
  simp only [Chip.runBundle, ha, hw, hm]

theorem runBundle_accesses {s : Syll} (hw : waitOf (bundleSylls ws) k = none)
    (hm : (bundleSylls ws).find? (fun s => s.fmt == .mem) = some s) :
    c.runBundle core x k ws = c.accessed core x k ws (s.access c core k) := by
  simp only [Chip.runBundle, ha, hw, hm]

end

/-! ### What its commit leaves -/

/-- The trap that the bundle's conditions give. -/
def bundleTrap (ss : List Syll) (k : Ctx) : Option TrapWhy :=
  trapOf k.tmask ((arithOf ss k).foldl (fun m o => m ||| o.flags.conds) 0) (trapCode ss)

/-- Without a syllable of the F unit the device is as it was before the commit. -/
theorem runF_none {ss : List Syll} (h : ∀ s ∈ ss, s.unit ≠ 4) :
    ss.foldl (fun (acc : List (Nat × W32) × Chip) s => if s.unit = 4 then s.runF acc.2 core x k else acc) ([], c) =
      ([], c) := by
  induction ss with
  | nil => rfl
  | cons s ss ih =>
    rw [List.foldl_cons, if_neg (h s List.mem_cons_self)]
    exact ih fun s hs => h s (List.mem_cons_of_mem _ hs)

section
variable {writes : List (Nat × W32)} {waited : Option W32} (h2 : 2 ≤ c.sysState) (h4 : ∀ s ∈ bundleSylls ws, s.unit ≠ 4)
  (hh : ∀ s ∈ bundleSylls ws, s.unit ≠ 3 ∨ s.op ≠ 0x0B)
include h2 h4 hh

theorem commitBundle_plain :
    c.commitBundle core x k ws writes waited =
      (let c2 := c.setCtx core x ((c.ctx core x).commit k core x (bundleSylls ws) ws.length writes waited)
       match bundleTrap (bundleSylls ws) k with
       | some t => c2.trap core x (c2.ctx core x).pc t
       | none => c2) := by
  have hhalt : ((bundleSylls ws).any fun s => s.unit == 3 && s.op == 0x0B) = false := by
    refine List.any_eq_false.2 fun s hs => ?_
    rw [Bool.and_eq_true, beq_iff_eq, beq_iff_eq]
    exact fun g => (hh s hs).elim (absurd g.1) (absurd g.2)
  unfold Chip.commitBundle
  rw [if_neg (Nat.not_lt.2 h2)]
  simp only [runF_none h4, hhalt, List.append_nil, Bool.false_and, Bool.false_eq_true, if_false]
  rfl

theorem commitBundle_untrapped (ht : bundleTrap (bundleSylls ws) k = none) :
    c.commitBundle core x k ws writes waited =
      c.setCtx core x ((c.ctx core x).commit k core x (bundleSylls ws) ws.length writes waited) := by
  rw [commitBundle_plain h2 h4 hh, ht]

theorem commitBundle_traps {t : TrapWhy} (ht : bundleTrap (bundleSylls ws) k = some t) :
    c.commitBundle core x k ws writes waited =
      (let k' := (c.ctx core x).commit k core x (bundleSylls ws) ws.length writes waited
       (c.setCtx core x k').trap core x k'.pc t) := by
  rw [commitBundle_plain h2 h4 hh, ht]
  dsimp only
  rw [ctx_setCtx_same]

end

theorem finish_untrapped {writes : List (Nat × W32)} {waited : Option W32} (ht : bundleTrap (bundleSylls ws) k = none) :
    c.finish d core x k ws writes waited = d.commitBundle core x k ws writes waited := by
  have hs : supDoubles core (bundleSylls ws) k = none := by
    unfold bundleTrap at ht
    unfold supDoubles
    rw [ht]
    exact ite_self _
  simp only [Chip.finish, hs]

theorem finish_task {writes : List (Nat × W32)} {waited : Option W32} (h : core ≠ 0) :
    c.finish d core x k ws writes waited = d.commitBundle core x k ws writes waited := by
  have hs : supDoubles core (bundleSylls ws) k = none := if_pos h
  simp only [Chip.finish, hs]

end Sys2Proof.Machine

namespace Sys2Proof
open Machine

/-- A core whose context issues does what the context's bundle does, and then what the lower contexts do where the
bundle stays in flight. -/
theorem Issues.executes {core : Fin 11} {flight x : Nat} {mm : Bool} {c d e : Chip} {ws : List W32} {b : Bool}
    (h : Issues core flight mm c x ws d) (hb : d.runBundle core.val x (d.ctx core.val x) ws = (b, e)) :
    bundleExecute c core.val flight mm = if b then e.issueFrom core.val flight x else e := by
  obtain ⟨hrun, hx, hst, hin, hfl, hhigh, hfetch, hlegal⟩ := h
  rw [bundleExecute_issues hrun, issueFrom_skips hx fun y hy hyc => hhigh y hy hyc, issueFrom_issues hst hin hfl, issue_runs hfetch hlegal, hb]
  cases b <;> rfl

/-- Settles O30: a bundle's misalignment, WAIT, plain commit, access and trap, each in its case. A read that stays in
flight (DESIGN CHOICE, log entries 19 and 154) and the commit in the issuing row (log entry 150) are the model's
choices. -/
theorem bundlesCommitWhole : Obligations.BundlesCommitWhole := by
  unfold Obligations.BundlesCommitWhole
  intro core flight mm c x ws d hi n k ss align traps plain mem
  have done {e : Chip} (h : d.runBundle n x k ws = (false, e)) : Does (.bundleExecute core flight mm) c e :=
    does_bundleExecute (hi.executes h)
  refine ⟨fun info ha ht hv => ?_, fun ha ht h2 hp => ⟨fun mask ns hw => ⟨fun h => ?_, fun h => ?_⟩, fun hw hm => ?_,
    fun hw s hm => ⟨fun writes e hs h2' => ?_, fun seg ofs size rwx atomic hs => ?_, fun cause info e hs hd _ => ?_,
      fun e hs hlow => ?_⟩⟩, fun t ha ht hc h2 hp hw hm htr hv => ?_⟩
  · exact done ((runBundle_misaligned ha).trans (congrArg (Prod.mk false) (trap_fault (doubles_eq_false ht hv))))
  · exact done (runBundle_waits ha hw h)
  · exact done ((runBundle_woken ha hw h).trans (congrArg (Prod.mk false) ((finish_untrapped ht).trans
      (commitBundle_untrapped h2 hp.1 hp.2 ht))))
  · exact done ((runBundle_plain ha hw hm).trans (congrArg (Prod.mk false) ((finish_untrapped ht).trans
      (commitBundle_untrapped h2 hp.1 hp.2 ht))))
  · have hr := runBundle_accesses (x := x) ha hw hm
    rw [hs] at hr
    exact done (hr.trans (congrArg (Prod.mk false) ((finish_untrapped ht).trans
      (commitBundle_untrapped h2' hp.1 hp.2 ht))))
  · have hr := runBundle_accesses (x := x) ha hw hm
    rw [hs] at hr
    exact done hr
  · have hr := runBundle_accesses (x := x) ha hw hm
    rw [hs] at hr
    exact done (hr.trans (congrArg (Prod.mk false) (trap_fault hd)))
  · have hr := runBundle_accesses (x := x) ha hw hm
    rw [hs] at hr
    exact does_bundleExecute ((hi.executes hr).trans (issueFrom_none hlow))
  · refine done ((runBundle_plain ha hw hm).trans (congrArg (Prod.mk false) ?_))
    have hc' : core.val ≠ 0 := fun g => hc (Fin.ext g)
    rw [finish_task hc', commitBundle_traps h2 hp.1 hp.2 ht]
    refine (trap_taken ?_).trans ?_
    · rw [ctx_setCtx_same]
      exact doubles_eq_false htr hv
    · rw [ctx_setCtx_same]

end Sys2Proof
end

section
/-!
PROOF. What the commit of a bundle changes in its context: two arithmetic syllables, a branch, and a WAIT that ends
(R213, R215, R216, R225 to R227).
-/
namespace Sys2Proof.Machine

variable {c d : Chip} {core x : Nat} {k : Ctx} {s t b : Syll} {w0 : W32}

/-! ### Registers -/

theorem g_put_same (r : Nat) (v : W32) : (k.put r v).g r = if r = 0 then 0 else v := by
  unfold Ctx.put Ctx.g
  split
  · rfl
  · exact tblGet_set_same _ _ _ _

theorem g_put_other {r r' : Nat} (v : W32) (h : r' ≠ r) : (k.put r v).g r' = k.g r' := by
  unfold Ctx.put Ctx.g
  split
  · rfl
  · split
    · rfl
    · exact tblGet_set_other _ _ _ _ h

/-! ### Bundles without a memory access -/

/-- Two arithmetic syllables commit together. -/
theorem commit_arith (hs : s.unit = 0) (ht : t.unit = 1) :
    k.commit k core x [s, t] 2 [] none =
      (let r := aluOp s.op (k.g s.ga) (s.b k) (k.g s.gd) k.flags
       let q := aluOp t.op (k.g t.ga) (t.b k) (k.g t.gd) k.flags
       let p := (k.put s.gd r.1).put t.gd q.1
       { p with flags := q.2.apply t.f (r.2.apply s.f k.flags), bcnt := k.bcnt + 1, pc := (k.pc + 8) % 2 ^ 32 }) := by
  simp [Ctx.commit, arithOf, Syll.arith, bWrites, Syll.flow, hs, ht]

theorem arithOf_branchUnit (h : b.unit = 3) : arithOf [b] k = [] := by
  simp [arithOf, h]

/-- A branch syllable commits. -/
theorem commit_branch (h : b.unit = 3) (ho : b.op = 0) {target : Option Nat} {link : Option W32}
    (hf : b.flow k 1 = (target, link)) (hl : target = none → link = none) :
    k.commit k core x [b] 1 [] none = { k with
      bcnt := k.bcnt + 1, pc := target.getD ((k.pc + 4) % 2 ^ 32), link := link.getD k.link } := by
  unfold Ctx.commit
  rw [arithOf_branchUnit h]
  cases target with
  | none => simp [bWrites, h, ho, hf, hl rfl]
  | some a => simp [bWrites, h, ho, hf]

/-- A register written leaves the rest of the context. -/
theorem put_keeps (r : Nat) (v : W32) : (k.put r v).wake = k.wake ∧ (k.put r v).st = k.st ∧ (k.put r v).flags = k.flags := by
  unfold Ctx.put
  split <;> exact ⟨rfl, rfl, rfl⟩

/-- A WAIT that ends commits with what it gives. -/
theorem commit_wait (h : s.unit = 3) (ho : s.op = 8) (v : W32) :
    k.commit k core x [s] 1 [] (some v) = { k.put s.gd v with
      wake := (k.put s.gd v).wake &&& ~~~(v &&& 0xFF), bcnt := k.bcnt + 1, pc := (k.pc + 4) % 2 ^ 32 } := by
  unfold Ctx.commit
  rw [arithOf_branchUnit h]
  simp [bWrites, h, ho, Syll.flow, (put_keeps s.gd v).2.2]

/-! ### The end of a WAIT -/

/-- A bundle of one word that waits is a WAIT syllable. -/
theorem waitOf_single {mask : W32} {ns : Nat} (h : waitOf (bundleSylls [w0]) k = some (mask, ns)) :
    ∃ s : Syll, bundleSylls [w0] = [s] ∧ s.unit = 3 ∧ s.op = 8 ∧ s.gd = wfld w0 19 14 := by
  by_cases hu : sylUnit w0 = 7
  · have he : bundleSylls [w0] = [] := by simp [bundleSylls, hu]
    rw [he] at h
    exact absurd h (by simp [waitOf])
  · refine ⟨⟨w0, limmOf [w0] (sylUnit w0)⟩, by simp [bundleSylls, hu], ?_⟩
    have he : bundleSylls [w0] = [⟨w0, limmOf [w0] (sylUnit w0)⟩] := by simp [bundleSylls, hu]
    rw [he] at h
    by_cases hw : (Syll.mk w0 (limmOf [w0] (sylUnit w0))).isWait = true
    · unfold Syll.isWait at hw
      rw [Bool.and_eq_true, beq_iff_eq, beq_iff_eq] at hw
      exact ⟨hw.1, hw.2, rfl⟩
    · exact absurd h (by simp [waitOf, hw])

/-- The context after a WAIT that ends. -/
def Ctx.waited (k : Ctx) (gd : Nat) (v : W32) : Ctx :=
  { k.put gd v with wake := k.wake &&& ~~~(v &&& 0xFF), bcnt := k.bcnt + 1, pc := (k.pc + 4) % 2 ^ 32 }

/-- A WAIT of a core other than SUP that ends commits alone. -/
theorem finish_wait {n : Nat} (hn : n ≠ 0) (h2 : 2 ≤ c.sysState) (hb : bundleSylls [w0] = [s]) (h : s.unit = 3)
    (ho : s.op = 8) (v : W32) :
    (c.setCtx n x k).finish (c.setCtx n x k) n x k [w0] [] (some v) =
      (c.setCtx n x k).setCtx n x (k.waited s.gd v) := by
  have hmem {r : Syll} (hr : r ∈ bundleSylls [w0]) : r = s := by
    rw [hb] at hr
    exact List.mem_singleton.1 hr
  have ht : bundleTrap (bundleSylls [w0]) k = none := by
    rw [hb, bundleTrap, arithOf_branchUnit h]
    simp [trapCode, trapOf, ho, nbit]
  have h4 : ∀ r ∈ bundleSylls [w0], r.unit ≠ 4 := fun r hr g => by
    rw [hmem hr, h] at g
    omega
  have hh : ∀ r ∈ bundleSylls [w0], r.unit ≠ 3 ∨ r.op ≠ 0x0B := fun r hr => .inr fun g => by
    rw [hmem hr, ho] at g
    omega
  rw [finish_task hn, commitBundle_untrapped (c := c.setCtx n x k) h2 h4 hh ht, ctx_setCtx_same, hb]
  refine congrArg _ ((commit_wait h ho v).trans ?_)
  rw [(put_keeps _ _).1]
  rfl

/-- The context that has waited for `w0` is READY again. -/
def Ctx.resumed (k : Ctx) : Ctx := { k with st := .ready, held := [] }

section
variable {n : Nat} {mask : W32} {ns : Nat} (hst : (c.ctx n x).st = .wait) (hh : (c.ctx n x).held = [w0])
  (hw : waitOf (bundleSylls [w0]) (c.ctx n x) = some (mask, ns)) (hn : n ≠ 0) (h2 : 2 ≤ c.sysState)
include hst hh hw

theorem waitWake_idle (h0 : (c.ctx n x).wake &&& mask = 0) : waitWake c n x = c := by
  simp only [waitWake, hst, hh, hw, h0, ne_eq, not_true_eq_false, if_false, ite_self]

theorem waitTimeout_idle (h : ns = 0 ∨ c.lt ≤ (c.ctx n x).waitSince + ns * 65536) : waitTimeout c n x = c := by
  have hno : ¬(ns ≠ 0 ∧ (c.ctx n x).waitSince + ns * 65536 < c.lt) := by omega
  simp only [waitTimeout, hst, hh, hw, if_neg hno, ite_self]

include hn h2

theorem waitWake_ends (hm : (c.ctx n x).wake &&& mask ≠ 0) :
    waitWake c n x = (c.setCtx n x (c.ctx n x).resumed).setCtx n x
      ((c.ctx n x).resumed.waited (wfld w0 19 14) ((c.ctx n x).wake &&& mask)) := by
  obtain ⟨s, hb, hu, ho, hg⟩ := waitOf_single hw
  rw [← hg, ← finish_wait hn h2 hb hu ho]
  simp only [waitWake, hst, hh, hw, hn, false_and, if_false, if_pos hm]
  rfl

theorem waitTimeout_ends (h0 : (c.ctx n x).wake &&& mask = 0) (hns : ns ≠ 0)
    (ht : (c.ctx n x).waitSince + ns * 65536 < c.lt) :
    waitTimeout c n x = (c.setCtx n x (c.ctx n x).resumed).setCtx n x
      ((c.ctx n x).resumed.waited (wfld w0 19 14) 0x80000000) := by
  obtain ⟨s, hb, hu, ho, hg⟩ := waitOf_single hw
  rw [← hg, ← finish_wait hn h2 hb hu ho]
  simp only [waitTimeout, hst, hh, hw, hn, h0, ne_eq, not_true_eq_false, false_and, if_false, if_pos (And.intro hns ht)]
  rfl

end

theorem waitWake_other {n : Nat} (h : (c.ctx n x).st ≠ .wait) : waitWake c n x = c := by
  unfold waitWake
  dsimp only
  split
  next hs _ => exact absurd hs h
  next => rfl

theorem waitTimeout_other {n : Nat} (h : (c.ctx n x).st ≠ .wait) : waitTimeout c n x = c := by
  unfold waitTimeout
  dsimp only
  split
  next hs _ => exact absurd hs h
  next => rfl

end Sys2Proof.Machine

namespace Sys2Proof
open Machine

/-- Settles O31: the commit of two arithmetic syllables, of a branch and of a WAIT. That a WAIT ends only after the tick
of its limit (log entry 22) is the model's choice. -/
theorem syllablesReadTheStateBefore : Obligations.SyllablesReadTheStateBefore := by
  unfold Obligations.SyllablesReadTheStateBefore
  intro k core x s t b w0 after next
  refine ⟨fun hs ht => commit_arith hs ht, fun hb ho => ⟨fun hc => ?_, fun hc => ?_⟩, g_put_same, fun r r' v => g_put_other v,
    fun n y c _ => ?_⟩
  · have hf : b.flow k 1 = (none, none) := by simp [Syll.flow, hb, ho, hc]
    exact commit_branch hb ho hf fun _ => rfl
  · intro target link
    have hf : b.flow k 1 = (some target, if b.f then some (w32 (k.pc + 4)) else none) := by
      simp [Syll.flow, hb, ho, hc, target]
    refine (commit_branch hb ho hf fun g => absurd g (Option.some_ne_none _)).trans ?_
    unfold link
    cases b.f <;> rfl
  · intro w up
    refine ⟨fun h => ⟨does_waitWake (waitWake_other h), does_waitTimeout (waitTimeout_other h)⟩, ?_⟩
    intro mask ns hst hh hw hn h2
    have hn' : n.val ≠ 0 := fun g => hn (Fin.ext g)
    refine ⟨fun h0 => ⟨does_waitWake (waitWake_idle hst hh hw h0), fun h => does_waitTimeout (waitTimeout_idle hst hh hw h),
      fun hns ht => (does_waitTimeout (waitTimeout_ends hst hh hw hn' h2 h0 hns ht)).gives ?_⟩,
      fun hm => (does_waitWake (waitWake_ends hst hh hw hn' h2 hm)).gives ?_⟩
    · rw [ctx_setCtx_same]
      refine ⟨(put_keeps _ _).2.1, ?_, rfl, rfl, rfl⟩
      exact BitVec.and_allOnes
    · rw [ctx_setCtx_same]
      exact ⟨(put_keeps _ _).2.1, rfl, rfl, rfl, rfl⟩

end Sys2Proof
end

section
/-!
PROOF. Which context of a core issues, and what comes of its fetch (R231, R232, R234 to R236).
-/
namespace Sys2Proof.Machine

variable {c d : Chip} {n flight x cause : Nat} {info : W32} {t : TrapWhy}

theorem fault_word_double : (TrapWhy.fault cause info).word true = w32 (0x80000000 + cause) := by
  have hsum : 1 * 2 ^ 31 + 0 * 2 ^ 16 + 0 * 2 ^ 8 + cause = 0x80000000 + cause := by omega
  exact congrArg w32 hsum

theorem trap_doubles {tpc : Nat} (h : wbit (c.ctx n x).tstat 0 = true ∨ (c.ctx n x).tvec = 0) :
    c.trap n x tpc t = c.doubleTrap n x t := by
  refine if_pos ?_
  unfold Ctx.doubles
  rw [Bool.or_eq_true, beq_iff_eq]
  exact h

/-- The device with a context halted by a double trap of a fault. -/
def Chip.doubleHalted (c : Chip) (n x cause : Nat) (info : W32) : Chip :=
  c.setCtx n x { (c.ctx n x).halted with tcause := w32 (0x80000000 + cause), tinfo := info }

theorem doubleTrap_eq :
    c.doubleTrap n x (.fault cause info) =
      (let c1 := c.doubleHalted n x cause info
       if n = 0 then { c1 with core := { c1.core with supStopped := true } }
       else if n ≤ 2 then ((c1.taskEnd n x true).tskCause (8 + n)).tskRecovery
       else c1.peCause (n - 3) 1) := by
  unfold Chip.doubleTrap
  rw [fault_word_double]
  rfl

theorem doubleTrap_sup : c.doubleTrap 0 x (.fault cause info) =
    (let c1 := c.doubleHalted 0 x cause info
     { c1 with core := { c1.core with supStopped := true } }) := doubleTrap_eq.trans (if_pos rfl)

theorem doubleTrap_task (h0 : n ≠ 0) (h2 : n ≤ 2) : c.doubleTrap n x (.fault cause info) =
    (((c.doubleHalted n x cause info).taskEnd n x true).tskCause (8 + n)).tskRecovery :=
  doubleTrap_eq.trans ((if_neg h0).trans (if_pos h2))

theorem doubleTrap_engine (h3 : 3 ≤ n) : c.doubleTrap n x (.fault cause info) =
    (c.doubleHalted n x cause info).peCause (n - 3) 1 :=
  doubleTrap_eq.trans ((if_neg (by omega)).trans (if_neg (by omega)))

/-! ### What comes of a fetch -/

section
variable (hst : (c.ctx n x).st = .ready) (hin : (c.ctx n x).inFlight = false) (hf : flight.testBit x = false)
include hst hin hf

theorem issueFrom_segv {a : Nat} (h : c.fetch n ((c.ctx n x).pc / 4 * 4) (longest n) [] = .segv a d) :
    c.issueFrom n flight (x + 1) = d.coreFreezes n x 16 a 4 4 false := by
  rw [issueFrom_issues hst hin hf]
  unfold Chip.issue
  simp only [h]

theorem issueFrom_traps (h : c.fetch n ((c.ctx n x).pc / 4 * 4) (longest n) [] = .fault t d ∨
    (∃ i ws, t = .fault 1 (w32 i) ∧ c.fetch n ((c.ctx n x).pc / 4 * 4) (longest n) [] = .ok ws d ∧
      illegalSyll n ws = some i)) : c.issueFrom n flight (x + 1) = d.trap n x (c.ctx n x).pc t := by
  rw [issueFrom_issues hst hin hf]
  unfold Chip.issue
  rcases h with h | ⟨i, ws, rfl, h, hi⟩
  · simp only [h]
  · simp only [h, hi]

end

theorem bundleExecute_stopped {mm : Bool} (h : c.core.supStopped = true) : bundleExecute c 0 flight mm = c :=
  if_pos ⟨rfl, h⟩

theorem bundleExecute_mismatch (h : c.core.supStopped = false) : bundleExecute c 0 flight true =
    if c.romServes then c.bootError 3 else { c with core := { c.core with supStopped := true } } := by
  simp only [bundleExecute, h, Bool.false_eq_true, and_false, true_and, if_true, if_false]

end Sys2Proof.Machine

namespace Sys2Proof
open Machine

/-- Settles O29: the stop and the mismatch of SUP, the context that issues, and the freeze, trap or double trap that its
fetch or its bundle comes to. That a double trap writes TCAUSE and TINFO alone (log entry 151), SUP's double trap (log
entry 155) and the bundle in flight (log entry 150) are the model's choices. -/
theorem coresIssueTheirBundles : Obligations.CoresIssueTheirBundles := by
  unfold Obligations.CoresIssueTheirBundles
  intro core flight mm c n may runs stop
  have high {x m : Nat} (h : ∀ y, x ≤ y → ¬may y) (hm : m = ctxCount n) (y : Nat) (hx : x ≤ y) (hy : y < m)
      (hr : (c.ctx n y).st = .ready ∨ (c.ctx n y).inFlight = true) : flight.val.testBit y = true :=
    eq_true_of_ne_false fun hf => h y hx ⟨hm ▸ hy, hr, hf⟩
  refine ⟨fun hc hs => ?_, fun hc hs => ⟨fun hr => ?_, fun hr => ?_⟩, fun hr hno => ?_, fun hr x hx hin hhigh => ?_⟩
  · subst hc
    exact does_bundleExecute (bundleExecute_stopped hs)
  · subst hc
    exact does_bundleExecute ((bundleExecute_mismatch hs).trans (if_neg (by rw [hr]; exact Bool.false_ne_true)))
  · subst hc
    exact does_bundleExecute ((bundleExecute_mismatch hs).trans (if_pos hr))
  · exact does_bundleExecute ((bundleExecute_issues hr).trans
      (issueFrom_skips (Nat.zero_le _) (high (fun y _ => hno y) rfl)))
  · obtain ⟨hxc, hrd, hfl⟩ := hx
    have hst : (c.ctx n x).st = .ready := hrd.resolve_right (by rw [hin]; exact Bool.false_ne_true)
    have hskip : bundleExecute c n flight.val mm = c.issueFrom n flight.val (x + 1) :=
      (bundleExecute_issues hr).trans (issueFrom_skips hxc (high (fun y hy => hhigh y hy) rfl))
    refine ⟨fun a d ha => does_bundleExecute (hskip.trans (issueFrom_segv hst hin hfl ha)), ?_⟩
    intro cause info d hcause k halted
    have htrap : bundleExecute c n flight.val mm = d.trap n x (c.ctx n x).pc (.fault cause info) := by
      refine hskip.trans (issueFrom_traps hst hin hfl ?_)
      rcases hcause with ⟨_, h⟩ | ⟨rfl, i, ws, rfl, h, hi⟩
      · exact .inl h
      · exact .inr ⟨i, ws, rfl, h, hi⟩
    refine ⟨fun ht hv => does_bundleExecute (htrap.trans (trap_fault (doubles_eq_false ht hv))), fun hd => ?_⟩
    have hdouble := htrap.trans (trap_doubles hd)
    refine ⟨fun hc => ?_, fun hc => ?_, fun h3 => does_bundleExecute (hdouble.trans (doubleTrap_engine h3))⟩
    · subst hc
      exact does_bundleExecute (hdouble.trans doubleTrap_sup)
    · refine does_bundleExecute (hdouble.trans (doubleTrap_task ?_ ?_))
      · rcases hc with rfl | rfl <;> decide
      · rcases hc with rfl | rfl <;> decide

end Sys2Proof
end

section
/-!
PROOF. Time-triggered operation and the guardian of a CAN channel (R189 to R197, R199, R201 to R203).
-/
namespace Sys2Proof.Machine

variable {c d e : Chip} {n j o : Nat} {k : CanChan} {f : CanFrame} {w : CanWindow}

/-! ### What triggers leave as it is -/

/-- Line time and the guardian's control register are in `d` as in `c`. -/
structure SameStart (n : Nat) (c d : Chip) : Prop where
  lt : d.lt = c.lt
  ctl : KeepsReg (CANn_GD_CTL n) c d

namespace SameStart

theorem refl (c : Chip) : SameStart n c c := ⟨rfl, .refl c⟩

theorem trans (h : SameStart n c d) (g : SameStart n d e) : SameStart n c e := ⟨g.lt.trans h.lt, h.ctl.trans g.ctl⟩

theorem ite {q : Prop} [Decidable q] (h : SameStart n c d) (g : SameStart n c e) : SameStart n c (if q then d else e) := by
  split
  · exact h
  · exact g

theorem setReg {a : Nat} {v : W32} (h : CANn_GD_CTL n ≠ a) (c : Chip) : SameStart n c (c.setReg a v) :=
  ⟨setReg_lt, .setReg h c⟩

theorem canReg {i : Nat} {v : W32} (hi : i < 0x40091000) (h : i ≠ 0x40090200) (c : Chip) :
    SameStart n c (c.setReg (i + n * 0x1000) v) := by
  refine setReg ?_ c
  unfold CANn_GD_CTL
  omega

theorem canObjReg {v : W32} (c : Chip) : SameStart n c (c.setReg (canObj n o 5) v) := by
  refine setReg ?_ c
  unfold CANn_GD_CTL canObj
  omega

theorem setCan (k : CanChan) (c : Chip) : SameStart n c (c.setCan n k) := ⟨rfl, .setCan k⟩

theorem canEv {i : Nat} (hn : n < 4) (hi : i < 8) (c : Chip) : SameStart n c (c.canEv n i) := by
  refine ⟨rfl, .raise ?_ c⟩
  unfold CANn_GD_CTL EVT_PEND
  omega

theorem ttLevel (hn : n < 4) (l : Nat) (c : Chip) : SameStart n c (c.ttLevel n l) := by
  unfold Chip.ttLevel
  have h1 : SameStart n c (c.setFld (CANn_TT_STAT n) 31 30 l) := canReg (i := 0x40090108) (by decide) (by decide) c
  have h2 (d : Chip) : SameStart n d (d.canFlag n 1) := canReg (i := 0x4009000C) (by decide) (by decide) d
  exact .ite ((h1.trans (h2 _)).trans (canEv hn (by decide) _)) (.refl c)

theorem mscUp (hn : n < 4) (c : Chip) : SameStart n c (c.mscUp n o) := by
  unfold Chip.mscUp
  extract_lets m c1
  exact .ite ((canObjReg c).trans (ttLevel hn 1 _)) (canObjReg c)

theorem setAgreement (hn : n < 4) (mode prop phase seq : Nat) (c : Chip) :
    SameStart n c (c.setAgreement n mode prop phase seq) := by
  unfold Chip.setAgreement
  extract_lets s v c1
  have h1 : SameStart n c c1 := canReg (i := 0x40090108) (by decide) (by decide) c
  exact .ite h1 (h1.trans (canEv hn (by decide) _))

theorem advanceMatrix (hn : n < 4) (c : Chip) : SameStart n c (c.advanceMatrix n) := by
  unfold Chip.advanceMatrix
  extract_lets k c0
  have h0 : SameStart n c c0 := (setCan _ c).trans (canEv hn (by decide) _)
  split
  · split
    · exact (h0.trans (setCan _ _)).trans (setAgreement hn _ _ _ _ _)
    · exact h0
  · exact h0.trans (setAgreement hn _ _ _ _ _)
  · exact h0.trans (setAgreement hn _ _ _ _ _)
  · exact h0.trans (setAgreement hn _ _ _ _ _)

theorem bit (h : SameStart n c d) : d.bit (CANn_GD_CTL n) 31 = c.bit (CANn_GD_CTL n) 31 := congrArg (wbit · 31) h.ctl

end SameStart

/-! ### Starts -/

/-- A channel whose frame has started: the channel as it was in `c`, its device otherwise as `d`. -/
def Chip.started (c d : Chip) (n lt : Nat) (what : CanSend) (f : CanFrame) (close : Option Nat) (excl : Bool) : Chip :=
  (d.setCan n { c.canOf n with tx := some ⟨what, f, lt, false, close, excl⟩, erred := none, wait := none }).setBit
    (CANn_STAT n) 26 true

section
variable {close : Option Nat} {excl : Bool} (hs : SameStart n c d) (h : c.bit (CANn_GD_CTL n) 31 = false)
include hs h

theorem canStart_object : d.canStart n (.object o) f close excl =
    d.started (d.setObjState n o 2) n c.lt (.object o) f close excl := by
  rw [← hs.lt]
  exact canStart_unguarded (hs.bit.trans h)

theorem canStart_null : d.canStart n (.null o) f close excl =
    d.started (d.setBit (canObj n o 5) 9 true) n c.lt (.null o) f close excl := by
  rw [← hs.lt]
  exact canStart_unguarded (hs.bit.trans h)

theorem canStart_reference {x y : Nat} : d.canStart n (.reference x y) f close excl =
    d.started d n c.lt (.reference x y) f close excl := by
  rw [← hs.lt]
  exact canStart_unguarded (hs.bit.trans h)

end

/-! ### Triggers that are due -/

/-- A channel whose entry j has acted; a frame that waited is not sent. -/
def Chip.firedUnsent (c : Chip) (n j : Nat) : Chip :=
  let fired := { c.canOf n with fired := j :: (c.canOf n).fired }
  match (c.canOf n).wait with
  | none => c.setCan n fired
  | some w => ((c.setCan n fired).setCan n { fired with wait := none }).mscUp n w.obj

theorem canOf_setCan (k : CanChan) : (c.setCan n k).canOf n = k := tblGet_set_same _ _ _ _

theorem setFired_waitUnsent : (c.setFired n j).waitUnsent n = c.firedUnsent n j := by
  unfold Chip.waitUnsent Chip.firedUnsent Chip.setFired
  rw [canOf_setCan]
  cases (c.canOf n).wait <;> rfl

theorem firedUnsent_sameStart (hn : n < 4) : SameStart n c (c.firedUnsent n j) := by
  unfold Chip.firedUnsent
  extract_lets fired
  split
  · exact .setCan _ c
  · exact ((SameStart.setCan _ c).trans (.setCan _ _)).trans (.mscUp hn _)

/-- The end of entry j's window. -/
theorem trigEnd_eq : c.trigEnd n j = (c.canOf n).mark +
    (wfld (c.reg (canTrig n j 0)) 31 16 + wfld (c.reg (canTrig n j 1)) 15 0) * c.ntu n := rfl

section
variable {idle : Bool} (hd : c.trigDue n j 2 = true) (ho : wfld (c.reg (canTrig n j 1)) 22 16 = o)
include hd ho

theorem canExclusive_due :
    canExclusive c n j idle =
      (let c1 := c.firedUnsent n j
       let f := c.objFrame n o
       let pending := c.objState n o == 1
       let t := c.fld (canTrig n j 0) 31 16
       if (pending ∨ wbit (c.reg (canTrig n j 1)) 30) ∧ c.fmtOn n f.fmt then
         if idle ∧ c1.canMay n then
           if pending then c1.canStart n (.object o) f (some (c.trigEnd n j)) true
           else c1.canStart n (.null o) f.asNull (some (c.trigEnd n j)) true
         else
           let window := max 1 (min (c.fld (CANn_TT_CFG n) 15 8) 16)
           c1.setCan n { c1.canOf n with
             wait := some ⟨o, !pending, (c.canOf n).mark + (t + window) * c.ntu n, c.trigEnd n j⟩ }
       else c1.mscUp n o) := by
  subst ho
  rw [← setFired_waitUnsent]
  refine if_neg ?_
  rw [hd]
  exact Bool.false_ne_true

theorem canExclusive_unsent (h : ¬((c.objState n o = 1 ∨ wbit (c.reg (canTrig n j 1)) 30 = true) ∧
    c.fmtOn n (c.objFrame n o).fmt = true)) : canExclusive c n j idle = (c.firedUnsent n j).mscUp n o := by
  rw [canExclusive_due hd ho]
  refine if_neg ?_
  rwa [beq_iff_eq]

variable (h : c.objState n o = 1 ∨ wbit (c.reg (canTrig n j 1)) 30 = true)
  (hf : c.fmtOn n (c.objFrame n o).fmt = true)
include h hf

theorem canExclusive_waits (hi : idle = false ∨ (c.firedUnsent n j).canMay n = false) :
    canExclusive c n j idle =
      (let c1 := c.firedUnsent n j
       c1.setCan n { c1.canOf n with
         wait := some ⟨o, !(c.objState n o == 1), (c.canOf n).mark + (wfld (c.reg (canTrig n j 0)) 31 16 +
           max 1 (min (c.fld (CANn_TT_CFG n) 15 8) 16)) * c.ntu n, c.trigEnd n j⟩ }) := by
  rw [canExclusive_due hd ho]
  refine (if_pos ⟨by rwa [beq_iff_eq], hf⟩).trans (if_neg ?_)
  rintro ⟨g1, g2⟩
  rcases hi with g | g
  · exact Bool.false_ne_true (g.symm.trans g1)
  · exact Bool.false_ne_true (g.symm.trans g2)

theorem canExclusive_starts (hm : (c.firedUnsent n j).canMay n = true) :
    canExclusive c n j true =
      (let c1 := c.firedUnsent n j
       if c.objState n o = 1 then c1.canStart n (.object o) (c.objFrame n o) (some (c.trigEnd n j)) true
       else c1.canStart n (.null o) (c.objFrame n o).asNull (some (c.trigEnd n j)) true) := by
  rw [canExclusive_due hd ho]
  refine (if_pos ⟨by rwa [beq_iff_eq], hf⟩).trans ((if_pos ⟨rfl, hm⟩).trans ?_)
  simp only [beq_iff_eq]

end

theorem canArbitrating_due (h : c.trigDue n j 3 = true) : canArbitrating c n j =
    ((c.setCan n { c.canOf n with fired := j :: (c.canOf n).fired }).setCan n
      { { c.canOf n with fired := j :: (c.canOf n).fired } with arb := some ⟨0, c.trigEnd n j, false⟩ }) := by
  refine (if_pos h).trans ?_
  unfold Chip.setFired
  dsimp only
  rw [canOf_setCan]

theorem canReceiveCheck_due (h : c.trigDue n j 4 = true) : canReceiveCheck c n j =
    ((c.setCan n { c.canOf n with fired := j :: (c.canOf n).fired }).setCan n
      { { c.canOf n with fired := j :: (c.canOf n).fired } with
        checks := (c.canOf n).checks ++ [⟨wfld (c.reg (canTrig n j 1)) 22 16, c.trigEnd n j, false⟩] }) := by
  refine (if_pos h).trans ?_
  unfold Chip.setFired
  dsimp only
  rw [canOf_setCan]
  rfl

/-! ### Windows that end -/

theorem canStartExpiry_none (h : (c.canOf n).wait = none) : canStartExpiry c n = c := by
  simp only [canStartExpiry, h]

theorem canStartExpiry_some {w : CanWait} (h : (c.canOf n).wait = some w) : canStartExpiry c n =
    if w.deadline < c.lt then (c.setCan n { c.canOf n with wait := none }).mscUp n w.obj else c := by
  simp only [canStartExpiry, h]

/-! ### References -/

/-- After which time beyond its TIME this potential master sends a reference. -/
theorem refDelay_eq : c.refDelay n = if c.ttMaster n = true ∨
    ∃ q, (c.canOf n).masterPrio = some q ∧ c.fld (CANn_TT_CFG n) 30 28 < q then 0 else c.fld (CANn_TT_CFG n) 30 28 := by
  unfold Chip.refDelay
  cases (c.canOf n).masterPrio <;> simp

theorem matrixEnds_iff : c.matrixEnds n = true ↔
    ((c.canOf n).refs = 0 ∨ c.matrixLen n (c.ttMode n) ≤ c.ttCycle n + 1) := by
  simp only [Chip.matrixEnds, Bool.or_eq_true, beq_iff_eq, decide_eq_true_iff]

/-- Whether this channel may send a reference message. -/
def Chip.refMay (c : Chip) (n : Nat) : Prop :=
  c.ttRuns n = true ∧ c.bit (CANn_TT_CFG n) 31 = true ∧ c.canMay n = true ∧ c.modeValid n (c.ttMode n) = true ∧
    c.fmtOn n (b2n (c.bit (CANn_TT_CFG n) 27)) = true

theorem canReference_may_not {late : Bool} (h : ¬c.refMay n) : canReference c n late = c := by
  refine if_pos ?_
  simp only [Bool.or_eq_true, Bool.not_eq_true']
  unfold Chip.refMay at h
  refine Decidable.byContradiction fun hc => ?_
  simp only [not_or, Bool.not_eq_false] at hc
  exact h ⟨hc.1.1.1.1, hc.1.1.1.2, hc.1.1.2, hc.1.2, hc.2⟩

theorem refDue_none (h : c.basicCycle n = none) : c.refDue n = false := by
  simp only [Chip.refDue, h]

theorem refDue_some (hg : c.gatewayOn n = false) {len : Nat} (h : c.basicCycle n = some len) :
    c.refDue n = decide ((len + c.refDelay n) * c.ntu n ≤ c.lt - (c.canOf n).mark) := by
  simp only [Chip.refDue, h, hg, Bool.false_eq_true, if_false]

section
variable {late : Bool} (hm : c.refMay n) (hg : c.gatewayOn n = false)
include hm hg

theorem canReference_may : canReference c n late =
    (let k := c.canOf n
     if k.advanced || c.refDue n then
       let first := k.advanced || c.matrixEnds n
       let c1 := if first && !k.advanced then c.advanceMatrix n else c
       let cycle := if first then 0 else c.ttCycle n + 1
       c1.canStart n (.reference cycle (c.global128 n)) (c1.refFrame n cycle (c.global128 n) false) none false
     else c) := by
  obtain ⟨h1, h2, h3, h4, h5⟩ := hm
  have hj : c.globalJumps n = false := by
    unfold Chip.globalJumps
    rw [hg, Bool.false_and, Bool.false_and]
  unfold canReference
  simp only [h1, h2, h3, h4, h5, hg, hj, Bool.not_true, Bool.or_self, Bool.false_and, Bool.false_eq_true, if_false]

theorem canReference_early (ha : (c.canOf n).advanced = false) (hd : c.refDue n = false) : canReference c n late = c := by
  rw [canReference_may hm hg]
  refine if_neg ?_
  rw [ha, hd]
  exact Bool.false_ne_true

theorem canReference_next (ha : (c.canOf n).advanced = false) (hd : c.refDue n = true) (hx : c.matrixEnds n = false) :
    canReference c n late = c.canStart n (.reference (c.ttCycle n + 1) (c.global128 n))
      (c.refFrame n (c.ttCycle n + 1) (c.global128 n) false) none false := by
  rw [canReference_may hm hg]
  simp only [ha, hd, hx, Bool.or_true, Bool.or_self, Bool.false_and, Bool.false_eq_true, if_true, if_false]

theorem canReference_matrix (ha : (c.canOf n).advanced = false) (hd : c.refDue n = true) (hx : c.matrixEnds n = true) :
    canReference c n late = (c.advanceMatrix n).canStart n (.reference 0 (c.global128 n))
      ((c.advanceMatrix n).refFrame n 0 (c.global128 n) false) none false := by
  rw [canReference_may hm hg]
  simp only [ha, hd, hx, Bool.or_true, Bool.not_false, Bool.and_self, if_true]

theorem canReference_first (ha : (c.canOf n).advanced = true) :
    canReference c n late = c.canStart n (.reference 0 (c.global128 n)) (c.refFrame n 0 (c.global128 n) false) none false := by
  rw [canReference_may hm hg]
  simp only [ha, Bool.true_or, Bool.not_true, Bool.and_false, Bool.false_eq_true, if_true, if_false]

end

/-! ### Matrix cycles -/

/-- A channel whose master has advanced its matrix cycle. -/
def Chip.matrixBegun (c : Chip) (n : Nat) : Chip :=
  (c.setCan n { c.canOf n with advanced := true, matrixStart := false }).raise (224 + 8 * n + 4) 0

theorem matrixBegun_canOf : (c.matrixBegun n).canOf n = { c.canOf n with advanced := true, matrixStart := false } :=
  ((SameCan.raise _).canOf n).trans (canOf_setCan _)

theorem advanceMatrix_idle (hp : c.ttPhase n = 0) (hr : (c.canOf n).modeReq = none) :
    c.advanceMatrix n = c.matrixBegun n := by
  unfold Chip.advanceMatrix
  extract_lets k c0
  have hk : k.modeReq = none := hr
  simp only [hp, hk]
  rfl

theorem advanceMatrix_proposes {q : Nat} (hp : c.ttPhase n = 0) (hr : (c.canOf n).modeReq = some q) :
    c.advanceMatrix n = ((c.matrixBegun n).setCan n { c.canOf n with
      advanced := true, matrixStart := false, modeReq := none, vetoSeen := false }).setAgreement n (c.ttMode n) q 1
        (c.ttSeq n + 1) := by
  have h : c.advanceMatrix n = ((c.matrixBegun n).setCan n { (c.matrixBegun n).canOf n with
      modeReq := none, vetoSeen := false }).setAgreement n (c.ttMode n) q 1 (c.ttSeq n + 1) := by
    unfold Chip.advanceMatrix
    extract_lets k c0
    have hk : k.modeReq = some q := hr
    simp only [hp, hk]
    rfl
  rw [h, matrixBegun_canOf]

theorem advanceMatrix_later :
    (c.ttPhase n = 1 → c.advanceMatrix n = (c.matrixBegun n).setAgreement n (c.ttMode n) (c.ttProp n)
      (if (c.canOf n).vetoSeen then 3 else 2) (c.ttSeq n)) ∧
    (c.ttPhase n = 2 → c.advanceMatrix n = (c.matrixBegun n).setAgreement n (c.ttProp n) (c.ttProp n) 0 (c.ttSeq n)) ∧
    (c.ttPhase n = 3 → c.advanceMatrix n = (c.matrixBegun n).setAgreement n (c.ttMode n) (c.ttProp n) 0 (c.ttSeq n)) := by
  unfold Chip.advanceMatrix
  extract_lets k c0
  refine ⟨fun h => ?_, fun h => ?_, fun h => ?_⟩
  all_goals
    simp only [h]
    rfl

theorem canMatrixStart_still (h : c.ttRuns n = false) : canMatrixStart c n = c :=
  if_pos (by rw [h]; rfl)

theorem canMatrixStart_other (h : c.ttRuns n = true) (hk : (c.canOf n).matrixStart = true) :
    canMatrixStart c n =
      (let c0 := (c.setCan n { c.canOf n with
         matrixStart := false, commitTo := none
         vetoDue := if c.ttPhase n = 1 then (c.canOf n).vetoDue else none }).canEv n 4
       match (c.canOf n).commitTo with
       | some m => c0.setAgreement n m (c.ttProp n) (c.ttPhase n) (c.ttSeq n)
       | none => c0) := by
  unfold canMatrixStart
  rw [h]
  exact if_pos hk

theorem canMatrixStart_master (h : c.ttRuns n = true) (hk : (c.canOf n).matrixStart = false) :
    canMatrixStart c n =
      if c.ttMaster n && !(c.canOf n).advanced && c.matrixEnds n && c.refDue n then c.advanceMatrix n else c := by
  refine (if_neg ?_).trans (if_neg ?_)
  · rw [h]
    exact Bool.false_ne_true
  · rw [hk]
    exact Bool.false_ne_true

theorem guardianWindow_eq {data : Bool} :
    guardianWindow c n data =
      (let c1 := c.setBit (CANn_GD_STAT n) 31 (c.guardOpen n)
       if !c.guardOpen n && c.bit (CANn_GD_CTL n) 31 && (c.canOf n).tx.isSome then
         ((if data then c1.tdcMeasured n else c1).setReg (CANn_LASTERR n) (if data then 13 else 5)).txFails n
           (c.tec n + 8) (c.recCount n)
       else c1) := by
  cases data <;> rfl

end Sys2Proof.Machine

namespace Sys2Proof
open Machine

/-- Settles O28: the triggers, references and matrix cycles of a channel and the guardian's window, case by case. When a
potential master sends (PRESUMED, log entry 32), what the guardian's cut costs (PRESUMED, log entry 31) and formats that
are not enabled (DESIGN CHOICE, log entry 35) are the model's choices. -/
theorem canTimeTriggeredOperation : Obligations.CanTimeTriggeredOperation := by
  unfold Obligations.CanTimeTriggeredOperation
  intro n j b c ch x w0 w1 o fired e time close window unguarded sent enabled pending null sends prio delay mark adv matrix
    advanced
  have hnot {y : Bool} (h : y = false) : ¬y = true := by
    rw [h]
    exact Bool.false_ne_true
  have he : c.firedUnsent ch j.val = e := rfl
  have hsame : SameStart ch c e := firedUnsent_sameStart n.isLt
  refine ⟨fun h => ?_, fun h => ?_, fun h => ?_, fun h => ?_, fun hd => ⟨?_, ?_, ?_, ?_⟩, fun hd => ?_, fun hd => ?_, fun hd => ?_,
    fun h => ?_, ?_, ?_, fun h => ?_, fun w h => ⟨fun hl => ?_, fun hl => ?_⟩, ?_, fun h => ?_, fun h hk => ?_, fun h hk => ?_, ?_⟩
  · exact does_canExclusiveTrigger (if_pos (by rw [h]; rfl))
  · exact does_canArbitratingTrigger (if_neg (hnot h))
  · exact does_canReceiveCheckTrigger (if_neg (hnot h))
  · exact does_canWatchTrigger (if_neg (hnot h))
  · intro hp hf hm hu
    exact does_canExclusiveTrigger ((canExclusive_starts hd rfl (.inl hp) hf hm).trans ((if_pos hp).trans
      (canStart_object hsame hu)))
  · intro hp hnull hf hm hu
    exact does_canExclusiveTrigger ((canExclusive_starts hd rfl (.inr hnull) hf hm).trans ((if_neg hp).trans
      (canStart_null hsame hu)))
  · intro hp hf hi
    exact does_canExclusiveTrigger (canExclusive_waits hd rfl hp hf hi)
  · intro h
    refine does_canExclusiveTrigger (canExclusive_unsent hd rfl fun g => ?_)
    exact h.elim (fun hn => g.1.elim hn.1 hn.2) fun hn => hn g.2
  · exact does_canArbitratingTrigger (canArbitrating_due hd)
  · exact does_canReceiveCheckTrigger (canReceiveCheck_due hd)
  · exact does_canWatchTrigger (if_pos hd)
  · exact does_canReferenceTrigger (canReference_may_not h)
  · intro hm ha hg
    have hdelay : c.refDelay ch = delay := refDelay_eq
    refine ⟨fun hl => does_canReferenceTrigger (canReference_early hm hg ha (refDue_none hl)), fun len hl => ?_⟩
    have hdue := refDue_some hg hl
    rw [hdelay] at hdue
    refine ⟨fun ht => ?_, fun ht hu => ⟨fun hx => ?_, fun hx => ?_⟩⟩
    · exact does_canReferenceTrigger (canReference_early hm hg ha (hdue.trans (decide_eq_false (Nat.not_le.2 ht))))
    · refine does_canReferenceTrigger ((canReference_next hm hg ha (hdue.trans (decide_eq_true ht)) ?_).trans
        (canStart_reference (.refl c) hu))
      exact Bool.eq_false_iff.2 fun g => hx (matrixEnds_iff.1 g)
    · exact does_canReferenceTrigger ((canReference_matrix hm hg ha (hdue.trans (decide_eq_true ht))
        (matrixEnds_iff.2 hx)).trans (canStart_reference (.advanceMatrix n.isLt c) hu))
  · intro hm ha hg hu
    exact does_canReferenceTrigger ((canReference_first hm hg ha).trans (canStart_reference (.refl c) hu))
  · exact does_startWindowExpiry (canStartExpiry_none h)
  · exact does_startWindowExpiry ((canStartExpiry_some h).trans (if_pos hl))
  · exact does_startWindowExpiry ((canStartExpiry_some h).trans (if_neg (Nat.not_lt.2 hl)))
  · exact does_canReceiveWindowEnd rfl
  · exact does_canMatrixCycleStart (canMatrixStart_still h)
  · have hc := canMatrixStart_other h hk
    refine ⟨fun hq => ?_, fun q hq => ?_⟩
    · rw [hq] at hc
      exact does_canMatrixCycleStart hc
    · rw [hq] at hc
      exact does_canMatrixCycleStart hc
  · have hc := canMatrixStart_master h hk
    refine ⟨fun hm ha hx hd => ?_, fun hno => does_canMatrixCycleStart (hc.trans (if_neg fun g => ?_))⟩
    · rw [hm, ha, matrixEnds_iff.2 hx, hd] at hc
      refine ⟨fun hp hr => ?_, fun q hp hr => ?_, fun hp => ?_, fun hp => ?_, fun hp => ?_⟩
      · exact does_canMatrixCycleStart (hc.trans (advanceMatrix_idle hp hr))
      · exact does_canMatrixCycleStart (hc.trans (advanceMatrix_proposes hp hr))
      · exact does_canMatrixCycleStart (hc.trans (advanceMatrix_later.1 hp))
      · exact does_canMatrixCycleStart (hc.trans (advanceMatrix_later.2.1 hp))
      · exact does_canMatrixCycleStart (hc.trans (advanceMatrix_later.2.2 hp))
    · simp only [Bool.and_eq_true, Bool.not_eq_true'] at g
      obtain ⟨⟨⟨gm, ga⟩, gx⟩, gd⟩ := g
      rcases hno with h1 | h1 | h1 | h1
      · exact hnot h1 gm
      · exact hnot ga h1
      · exact h1 (matrixEnds_iff.1 gx)
      · exact hnot h1 gd
  · intro shut
    have hwin {d : Chip} (g : guardianWindow c ch b = d) : Does (.guardianWindow ⟨n, b⟩) c d := does_guardianWindow g
    refine ⟨fun ho => ?_, fun ho hq => ?_, fun ho hb ht => ?_⟩
    · refine hwin ((guardianWindow_eq.trans (if_neg ?_)).trans ?_)
      · rw [ho]
        exact Bool.false_ne_true
      · rw [ho]
    · refine hwin ((guardianWindow_eq.trans (if_neg ?_)).trans ?_)
      · rcases hq with hq | hq
        · rw [show c.bit (CANn_GD_CTL ch) 31 = false from hq, Bool.and_false]
          exact Bool.false_ne_true
        · rw [show (c.canOf ch).tx = none from hq, Option.isSome_none, Bool.and_false]
          exact Bool.false_ne_true
      · rw [ho]
    · refine hwin ((guardianWindow_eq.trans (if_pos ?_)).trans ?_)
      · rw [ho, hb, Option.isSome_iff_ne_none.2 ht]
        rfl
      · rw [ho]

end Sys2Proof
end

section
/-!
PROOF. The engines' receive and transmit queues (R249 to R255).
-/
namespace Sys2Proof.Machine

variable {c d e : Chip} {m q t n : Nat} {v : W32}

/-! ### Receive queues -/

theorem rqDelivery_none (h : c.swx.deciding = []) : rqDelivery c = c := by
  simp only [rqDelivery, h]

/-- The device once the frame decided first is taken from its list and its hold on the buffer is over. -/
def Chip.decidedTaken (c : Chip) (l : LocalFrame) (ls : List LocalFrame) : Chip :=
  ({ c with swx := { c.swx with deciding := ls } }).release l.fid

theorem rqDelivery_some {l : LocalFrame} {ls : List LocalFrame} (h : c.swx.deciding = l :: ls) :
    rqDelivery c = (c.decidedTaken l ls).rqDeliver l (c.frame l.fid) := by
  simp only [rqDelivery, h]
  rfl

/-- A queue that has room for a frame. -/
def Chip.rqRoom (c : Chip) (q : Nat) : Prop :=
  span16 (c.rqCons q) (c.rqProd q) ≠ c.rqSize q ∧ c.rqOn q = true ∧ tblGet none c.rq.rqFrozen q = none

theorem rqRoom_iff : ¬(span16 (c.rqCons q) (c.rqProd q) = c.rqSize q ∨ c.rqOn q = false ∨
    (tblGet none c.rq.rqFrozen q).isSome = true) ↔ c.rqRoom q := by
  rw [not_or, not_or, Bool.not_eq_false, Option.not_isSome_iff_eq_none]
  rfl

section
variable {l : LocalFrame} {f : Frame}

theorem rqDeliver_dropped (h : ¬c.rqRoom l.rq) : c.rqDeliver l f = c.rqDrop l.rq :=
  if_pos (Decidable.not_not.1 fun g => h (rqRoom_iff.1 g))

theorem rqDeliver_long (h : c.rqRoom l.rq) (hl : 2 ^ c.fld (PE_RQq_CFG l.rq) 11 8 < f.data.length) :
    c.rqDeliver l f = c.inc (PE_RQq_LONG l.rq) :=
  (if_neg (rqRoom_iff.2 h)).trans (if_pos hl)

theorem rqDeliver_stored (h : c.rqRoom l.rq) (hl : f.data.length ≤ 2 ^ c.fld (PE_RQq_CFG l.rq) 11 8) :
    c.rqDeliver l f =
      (let buf := c.fld (PE_RQq_BBASE l.rq) 31 6 * 64 + c.rqProd l.rq % c.rqSize l.rq * 2 ^ c.fld (PE_RQq_CFG l.rq) 11 8
       (c.setRqLost l.rq false).rqRun l.rq
         (rqUnits buf (c.rqDesc l.rq (c.rqProd l.rq)) f.data (c.rqDescBytes l.rq l f buf))) :=
  (if_neg (rqRoom_iff.2 h)).trans (if_neg (Nat.not_lt.2 hl))

end

theorem rqDrop_host (h : c.rqHost q = true) :
    c.rqDrop q = ((c.inc (PE_RQq_LOST q)).setBit (PE_RQn_STAT q) 0 true).setRqLost q true := if_pos h

theorem rqDrop_engine (h : c.rqHost q = false) :
    c.rqDrop q = (((c.inc (PE_RQq_LOST q)).setBit (PE_RQn_STAT q) 0 true).setRqLost q true).ownerCause (c.rqOwner q) 3 :=
  if_neg (by rw [h]; exact Bool.false_ne_true)

/-- A unit of a delivery that is refused for another reason than a segment drops the frame. -/
theorem rqRun_fails {a : Nat} {bs : List Byte} {us : List (Nat × List Byte)} {x : AccErr}
    (h : c.dmaWrite (c.rqMaster q) a bs = (some x, d)) (hx : x ≠ .seg) : c.rqRun q ((a, bs) :: us) = d.rqFails q := by
  unfold Chip.rqRun
  rw [h]
  cases x with
  | seg => exact absurd rfl hx
  | bus | owner | ecc | wait => rfl

theorem rqRun_goesOn {a : Nat} {bs : List Byte} {us : List (Nat × List Byte)}
    (h : c.dmaWrite (c.rqMaster q) a bs = (none, d)) : c.rqRun q ((a, bs) :: us) = d.rqRun q us := by
  rw [Chip.rqRun, h]

theorem rqRun_freezes {a : Nat} {bs : List Byte} {us : List (Nat × List Byte)}
    (h : c.dmaWrite (c.rqMaster q) a bs = (some .seg, d)) : c.rqRun q ((a, bs) :: us) =
      (d.setRqFrozen q (some ⟨(a, bs) :: us⟩)).freezeAt (0x20 + q) (c.rqMaster q) a 64 2 := by
  rw [Chip.rqRun, h]

/-- How far CONS may be moved. -/
def Chip.rqLimit (c : Chip) (q : Nat) : Nat := if c.rqHost q then c.rqProd q else c.rqPopped q

theorem rqConsWrite_taken (hm : m = 0 ∨ m = c.rqOwner q)
    (h : span16 (c.rqCons q) (wfld v 15 0) ≤ span16 (c.rqCons q) (c.rqLimit q)) :
    rqConsWrite c m q v = (c.setReg (PE_RQq_CONS q) (w32 (wfld v 15 0))).done := if_pos ⟨hm, h⟩

theorem rqConsWrite_flagged (h : m ≠ 0 ∧ m ≠ c.rqOwner q ∨
    span16 (c.rqCons q) (c.rqLimit q) < span16 (c.rqCons q) (wfld v 15 0)) :
    rqConsWrite c m q v = (c.setBit (PE_RQn_STAT q) 1 true).done := by
  refine if_neg fun g => ?_
  rcases h with ⟨h0, h1⟩ | h
  · exact g.1.elim h0 h1
  · exact absurd g.2 (Nat.not_le.2 h)

/-! ### Transmit queues -/

theorem tqPushWrite_refused (h0 : m ≠ 0) (h1 : m ≠ c.tqOwner t) : tqPushWrite c m t v = c.refuse := if_pos ⟨h0, h1⟩

theorem tqPushWrite_owner (h : m = 0 ∨ m = c.tqOwner t) : tqPushWrite c m t v =
    if 64 ≤ (c.tqHeld t).length ∨ c.bit (PE_TQt_CFG t) 31 = false ∨ v.toNat % 32 ≠ 0 then
      (c.setBit (PE_TQt_FLAGS t) 0 true).done
    else (c.setTq t (c.tqHeld t ++ [v.toNat])).done := by
  refine if_neg fun g => ?_
  exact h.elim g.1 g.2

/-- Whether port `sp` may take queue t's next descriptor. -/
def Chip.tqReady (c : Chip) (sp t : Nat) : Bool :=
  !(c.tqHeld t).isEmpty && c.bit (PE_TQt_CFG t) 31 && c.tqHost t == (sp == 9) &&
    (c.tqHost t || !c.ownerOff (c.tqOwner t)) && (tblGet none c.rq.tqFrozen t).isNone

/-- The queue whose turn it is at a port. -/
def Chip.tqTurn (c : Chip) (sp : Nat) : Option Nat :=
  ((List.range 16).map fun i => (tblGet 15 c.rq.served sp + 1 + i) % 16).find? (c.tqReady sp)

section
variable {sp : Nat}

theorem tqServe_held (h : tblGet none c.rq.offers sp ≠ none) : tqServe c sp = c :=
  if_pos (Option.isSome_iff_ne_none.2 h)

variable (h : tblGet none c.rq.offers sp = none)
include h

theorem tqServe_free : tqServe c sp =
    match c.tqTurn sp with
    | none => c
    | some t =>
      match c.tqHeld t with
      | [] => c
      | d :: _ => c.tqTake sp t d :=
  if_neg (by rw [h]; exact Bool.false_ne_true)

theorem tqServe_idle (ht : c.tqTurn sp = none) : tqServe c sp = c := by
  rw [tqServe_free h, ht]

theorem tqServe_takes {a : Nat} {rest : List Nat} (ht : c.tqTurn sp = some t) (hq : c.tqHeld t = a :: rest) :
    tqServe c sp = c.tqTake sp t a := by
  rw [tqServe_free h, ht]
  dsimp only
  rw [hq]

end

/-- The device with queue t's first descriptor taken and the port's turn counted. -/
def Chip.tqPopped (c : Chip) (sp t : Nat) : Chip := (c.setTq t (c.tqHeld t).tail).setServed sp t

/-- Word k of a descriptor. -/
def descWord (bs : List Byte) (k : Nat) : W32 := w32 (leNat (bytesAt bs (4 * k) 4))

section
variable {sp a : Nat} {bs : List Byte} (hr : c.dmaRead (c.tqMaster t) a 32 = (.ok bs, d))
include hr

theorem tqTake_bad (hb : tqBad (descWord bs 0) (descWord bs 1) (descWord bs 3) = true) :
    c.tqTake sp t a = (d.tqPopped sp t).tqEnd t a 2 := by
  unfold Chip.tqTake
  dsimp only
  rw [hr]
  exact if_pos hb

variable (hb : tqBad (descWord bs 0) (descWord bs 1) (descWord bs 3) = false) {data : List Byte}
  (hd : d.readSpan (c.tqMaster t) (descWord bs 2).toNat (wfld (descWord bs 0) 13 0) = (.ok data, e))
include hb hd

theorem tqTake_good : c.tqTake sp t a =
    if e.tqSlotBad (descWord bs 0) (descWord bs 1) (e.tqPorts sp (descWord bs 0) (descWord bs 1) data) then
      (e.tqPopped sp t).tqEnd t a 2
    else
      let o : Offer := ⟨t, a, data, (List.range 8).map (descWord bs)⟩
      if e.pecksFree < e.offerPecks sp data (parseFrame data 0).vid then (e.tqPopped sp t).setOffer sp (some o)
      else (e.tqPopped sp t).tqOffer sp o := by
  unfold Chip.tqTake
  dsimp only
  rw [hr]
  dsimp only
  refine (if_neg (show ¬tqBad (descWord bs 0) (descWord bs 1) (descWord bs 3) = true from ?_)).trans ?_
  · rw [hb]
    exact Bool.false_ne_true
  · change (match d.readSpan (c.tqMaster t) (descWord bs 2).toNat (wfld (descWord bs 0) 13 0) with
      | (.error (.seg, a, n), c2) => _
      | (.error (.wait, _), c2) => _
      | (.error _, c2) => _
      | (.ok data, c2) => _) = _
    rw [hd]
    rfl

end

theorem tqEnd_host {a r : Nat}
    (h : c.dmaWrite (c.tqMaster t) (a + 16) (leBytes 4 (2 ^ 31 + r * 2 ^ 28)) = (none, d)) (hh : d.tqHost t = true) :
    c.tqEnd t a r =
      (let counted := d.inc (PE_TQt_DONE t)
       if r = 1 ∨ r = 2 then (counted.setBit (PE_TQt_FLAGS t) r true).ownerCause (d.tqOwner t) 4 else counted) := by
  have he : c.tqEnd t a r = d.tqCount t r := by
    unfold Chip.tqEnd at_
    rw [h]
  rw [he]
  refine (if_pos hh).trans ?_
  by_cases h1 : r = 1
  · subst h1
    rfl
  · by_cases h2 : r = 2
    · subst h2
      rfl
    · simp only [h1, h2, or_self, if_false]

end Sys2Proof.Machine

namespace Sys2Proof
open Machine

/-- Settles O33: the delivery, the counts and the descriptors of the engines' queues, case by case. That a queue which
does not work has no room (log entry 130) and that a frame dropped for an error marks the gap (log entry 156) are the
model's choices. -/
theorem engineQueuesFollowR249ToR255 : Obligations.EngineQueuesFollowR249ToR255 := by
  unfold Obligations.EngineQueuesFollowR249ToR255
  intro m q t sp v c n lim new port last ready turn
  refine ⟨fun h => does_rqDelivery (rqDelivery_none h), fun l ls h => ?_, fun d e a bs us => ⟨rfl, rqRun_goesOn, rqRun_freezes,
    fun x hx hs => rqRun_fails hx hs⟩, fun hm h => ?_, fun h => ?_, fun h0 h1 => ?_, fun hm => ?_, fun h => ?_, fun h ht => ?_,
    fun h i a rest bs d ht hq hr => ?_, fun e f a i r h _ => ?_⟩
  · have hd {d : Chip} (g : (c.decidedTaken l ls).rqDeliver l (c.frame l.fid) = d) : Does .rqDelivery c d :=
      does_rqDelivery ((rqDelivery_some h).trans g)
    exact ⟨fun hr hh => hd ((rqDeliver_dropped hr).trans (rqDrop_host hh)),
      fun hr hh => hd ((rqDeliver_dropped hr).trans (rqDrop_engine hh)), fun hr hl => hd (rqDeliver_long hr hl),
      fun hr hl => hd (rqDeliver_stored hr hl)⟩
  · exact does_rqConsWrite ((regWrite_PE_RQq_CONS q).trans (rqConsWrite_taken hm h))
  · exact does_rqConsWrite ((regWrite_PE_RQq_CONS q).trans (rqConsWrite_flagged h))
  · exact does_tqPushWrite ((regWrite_PE_TQt_PUSH t).trans (tqPushWrite_refused h0 h1))
  · intro ok
    have hw := (regWrite_PE_TQt_PUSH t).trans (tqPushWrite_owner (v := v) hm)
    refine ⟨fun ho => does_tqPushWrite (hw.trans (if_neg ?_)), fun ho => does_tqPushWrite (hw.trans (if_pos ?_))⟩
    · obtain ⟨hl, hb, hv⟩ := ho
      rintro (g | g | g)
      · omega
      · exact Bool.false_ne_true (g.symm.trans hb)
      · exact g hv
    · refine Decidable.byContradiction fun g => ?_
      rw [not_or, not_or, Bool.not_eq_false, Nat.not_le, Decidable.not_not] at g
      exact ho g
  · exact does_tqDescriptorServe (tqServe_held h)
  · exact does_tqDescriptorServe (tqServe_idle h ht)
  · have hs {d : Chip} (g : c.tqTake port i a = d) : Does (.tqDescriptorServe sp) c d :=
      does_tqDescriptorServe ((tqServe_takes h ht hq).trans g)
    refine ⟨fun hb => hs (tqTake_bad hr hb), fun hb data e hd => ⟨fun hx => ?_, fun hx hp => ?_⟩⟩
    · exact hs ((tqTake_good hr hb hd).trans (if_pos hx))
    · refine hs ((tqTake_good hr hb hd).trans ((if_neg ?_).trans (if_pos hp)))
      exact Bool.eq_false_iff.1 hx
  · exact fun hh => tqEnd_host h hh

end Sys2Proof
end

section
/-!
PROOF. The states of the engines: start, stop and clear, the cycle timer and the watchdog (R257, R258, R262).
-/
namespace Sys2Proof.Machine

variable {c d e : Chip} {core m n x : Nat} {v : W32}

/-! ### Contexts of a core -/

/-- Nothing but the contexts of the cores differs. -/
def OnlyCtxs (c d : Chip) : Prop := ∃ t, d = { c with core := { c.core with ctxs := t } }

namespace OnlyCtxs

theorem refl (c : Chip) : OnlyCtxs c c := ⟨c.core.ctxs, rfl⟩

theorem trans (h : OnlyCtxs c d) (g : OnlyCtxs d e) : OnlyCtxs c e := by
  obtain ⟨t, rfl⟩ := h
  obtain ⟨u, rfl⟩ := g
  exact ⟨u, rfl⟩

theorem setCtx (k : Ctx) (c : Chip) : OnlyCtxs c (c.setCtx core x k) := ⟨_, rfl⟩

theorem regs (h : OnlyCtxs c d) : d.regs = c.regs := by
  obtain ⟨t, rfl⟩ := h
  rfl

theorem tmu (h : OnlyCtxs c d) : d.tmu = c.tmu := by
  obtain ⟨t, rfl⟩ := h
  rfl

theorem reg (h : OnlyCtxs c d) (a : Nat) : d.reg a = c.reg a := congrArg (fun t => tblGet (regReset a) t a) h.regs

end OnlyCtxs

theorem ctx_setCtx_other {x y : Nat} (k : Ctx) (h : y ≠ x) : (c.setCtx core x k).ctx core y = c.ctx core y :=
  tblGet_set_other _ _ _ _ (by omega)

/-- Context `x` of a core alone is changed, by `f`. -/
structure CtxStep (core x : Nat) (f : Ctx → Ctx) (c d : Chip) : Prop where
  only : OnlyCtxs c d
  same : d.ctx core x = f (c.ctx core x)
  other : ∀ y, y ≠ x → d.ctx core y = c.ctx core y

theorem CtxStep.setCtx (f : Ctx → Ctx) (c : Chip) : CtxStep core x f c (c.setCtx core x (f (c.ctx core x))) :=
  ⟨.setCtx _ c, ctx_setCtx_same _ _ _ _, fun _ h => ctx_setCtx_other _ h⟩

/-- One context after the other is changed. -/
theorem foldl_ctxStep {g : Chip → Nat → Chip} {f : Nat → Ctx → Ctx} (xs : List Nat) (hx : xs.Nodup) (c : Chip)
    (hg : ∀ d x, d.regs = c.regs → CtxStep core x (f x) d (g d x)) :
    OnlyCtxs c (xs.foldl g c) ∧ ∀ y, (xs.foldl g c).ctx core y = if y ∈ xs then f y (c.ctx core y) else c.ctx core y := by
  induction xs generalizing c with
  | nil => exact ⟨.refl c, fun y => (if_neg List.not_mem_nil).symm⟩
  | cons x xs ih =>
    obtain ⟨hn, hxs⟩ := List.nodup_cons.1 hx
    have hstep := hg c x rfl
    obtain ⟨ho, hc⟩ := ih hxs (g c x) fun d y hd => hg d y (hd.trans hstep.only.regs)
    refine ⟨hstep.only.trans ho, fun y => (hc y).trans ?_⟩
    by_cases hy : y = x
    · subst hy
      rw [if_neg hn, if_pos List.mem_cons_self]
      exact hstep.same
    · rw [hstep.other y hy]
      simp only [List.mem_cons, hy, false_or]

theorem eachCtx_ctx (f : Ctx → Ctx) (hx : x < ctxCount core) : (c.eachCtx core f).ctx core x = f (c.ctx core x) :=
  ((foldl_ctxStep (f := fun _ => f) _ List.nodup_range c fun d _ _ => .setCtx f d).2 x).trans
    (if_pos (List.mem_range.2 hx))

theorem eachCtx_only (f : Ctx → Ctx) : OnlyCtxs c (c.eachCtx core f) :=
  (foldl_ctxStep (f := fun _ => f) _ List.nodup_range c fun d _ _ => .setCtx f d).1

theorem ctxCount_engine (n : Nat) : ctxCount (n + 3) = 4 := by
  unfold ctxCount
  rw [if_neg (by omega), if_neg (by omega)]

/-! ### Commands -/

theorem b2n_wbit (w : W32) (i : Nat) : b2n (wbit w i) = wfld w i i := by
  have h := wfld_lt w i i
  rw [show i + 1 - i = 1 by omega] at h
  rw [wbit_eq_wfld]
  rcases (show wfld w i i = 0 ∨ wfld w i i = 1 by omega) with g | g <;> rw [g] <;> rfl

theorem wfld_of_three_bits (w : W32) : wfld w 2 0 = b2n (wbit w 0) + 2 * b2n (wbit w 1) + 4 * b2n (wbit w 2) := by
  rw [b2n_wbit, b2n_wbit, b2n_wbit]
  simp only [wfld, nfld]
  omega

/-- A command word's number where one bit of it is set. -/
theorem wfld_onlyBit (k : Fin 3) (h : OnlyBit v 3 k.val) : wfld v 2 0 = 2 ^ k.val := by
  rw [wfld_of_three_bits, h 0 (by decide), h 1 (by decide), h 2 (by decide)]
  match k with
  | 0 | 1 | 2 => rfl

/-- Where more than one is set it names no command. -/
theorem wfld_manyBits (h : 1 < bitCount v 3) : wfld v 2 0 = 3 ∨ 4 < wfld v 2 0 := by
  rw [wfld_of_three_bits]
  unfold bitCount at h
  simp only [List.range, List.range.loop, List.filter_cons, List.filter_nil] at h
  revert h
  cases wbit v 0 <;> cases wbit v 1 <;> cases wbit v 2 <;> decide

theorem peCmdWrite_other (h : m ≠ 0) : peCmdWrite c m n v = c.refuse := if_pos h

theorem peCmdWrite_onlyBit (k : Fin 3) (h : OnlyBit v 3 k.val) :
    peCmdWrite c 0 n v = (match k with | 0 => engineStart c n | 1 => engineStop c n | 2 => engineClear c n).done := by
  unfold peCmdWrite
  rw [wfld_onlyBit k h]
  match k with
  | 0 | 1 | 2 => rfl

theorem peCmdWrite_many (h : 1 < bitCount v 3) : peCmdWrite c 0 n v = (c.peCause n 5).done := by
  unfold peCmdWrite
  have hw := wfld_manyBits h
  refine (if_neg (not_not_intro rfl)).trans (congrArg Chip.done ?_)
  split
  · omega
  · omega
  · omega
  · omega
  · rfl

/-! ### Start and stop -/

theorem peState_setPeState {s : Nat} (hs : s < 8) : (c.setPeState n s).peState n = s := by
  have h : (c.setPeState n s).reg (PE_PEn_STAT n) = wsetFld (c.reg (PE_PEn_STAT n)) 2 0 s := Chip.reg_setReg_same _ _ _
  unfold Chip.peState Chip.fld
  rw [h, wfld_wsetFld _ _ _ _ (by decide) (by decide)]
  exact Nat.mod_eq_of_lt hs

theorem setPeState_ctx {s : Nat} : (c.setPeState n s).ctx core x = c.ctx core x := rfl

theorem setPeState_reg {s a : Nat} (h : a ≠ PE_PEn_STAT n) : (c.setPeState n s).reg a = c.reg a :=
  Chip.reg_setReg_other _ _ h

/-- A context of an engine that starts. -/
def startCtx (a : W32) : Ctx := if wbit a 0 then { Ctx.reset with pc := wfld a 31 2 * 4, st := .ready } else Ctx.reset

theorem resetCore_regs : (c.resetCore core).regs = c.regs := (eachCtx_only _).regs

theorem resetCore_tmu : (c.resetCore core).tmu = c.tmu := (eachCtx_only (c := c) (core := core) fun _ => Ctx.reset).tmu

theorem resetCore_ctx (hx : x < ctxCount core) : (c.resetCore core).ctx core x = .reset :=
  eachCtx_ctx (fun _ => Ctx.reset) hx

theorem CtxStep.refl (c : Chip) : CtxStep core x (fun k => k) c c := ⟨.refl c, rfl, fun _ _ => rfl⟩

/-- The contexts that start, one after the other. -/
def Chip.startCtxs (c : Chip) (n : Nat) : Chip :=
  (List.range 4).foldl (fun c x =>
    let e := c.reg (PE_PEn_ENTRY n x)
    if wbit e 0 then c.setCtx (n + 3) x { Ctx.reset with pc := wfld e 31 2 * 4, st := .ready } else c) c

theorem startCtxs_only : OnlyCtxs c (c.startCtxs n) ∧ ∀ x, x < 4 → c.ctx (n + 3) x = .reset →
    (c.startCtxs n).ctx (n + 3) x = startCtx (c.reg (PE_PEn_ENTRY n x)) := by
  have hg (d : Chip) (x : Nat) (hd : d.regs = c.regs) :
      CtxStep (n + 3) x (fun k => if wbit (c.reg (PE_PEn_ENTRY n x)) 0 then
        { Ctx.reset with pc := wfld (c.reg (PE_PEn_ENTRY n x)) 31 2 * 4, st := .ready } else k) d
        (if wbit (d.reg (PE_PEn_ENTRY n x)) 0 then
          d.setCtx (n + 3) x { Ctx.reset with pc := wfld (d.reg (PE_PEn_ENTRY n x)) 31 2 * 4, st := .ready } else d) := by
    have hr : d.reg (PE_PEn_ENTRY n x) = c.reg (PE_PEn_ENTRY n x) := by
      unfold Chip.reg
      rw [hd]
    rw [hr]
    split
    · exact .setCtx (fun _ => { Ctx.reset with pc := wfld (c.reg (PE_PEn_ENTRY n x)) 31 2 * 4, st := .ready }) d
    · exact .refl d
  obtain ⟨ho, hc⟩ := foldl_ctxStep (List.range 4) List.nodup_range c hg
  refine ⟨ho, fun x hx hr => (hc x).trans ?_⟩
  rw [if_pos (List.mem_range.2 hx), hr]
  rfl

theorem engineStart_loaded (h : c.peState n = 2 ∧ 4 ≤ c.sysState) :
    engineStart c n = (((c.resetCore (n + 3)).setPeState n 3).startCtxs n).peKick n := if_pos h

theorem engineStart_refused (h : c.peState n ≠ 2 ∨ c.sysState < 4) : engineStart c n = c.peCause n 5 :=
  if_neg fun g => h.elim (fun h => h g.1) fun h => absurd g.2 (Nat.not_le.2 h)

/-- What an engine's start leaves. -/
theorem engineStart_effect (h : c.peState n = 2 ∧ 4 ≤ c.sysState) :
    (engineStart c n).peState n = 3 ∧ tblGet 0 (engineStart c n).core.wdStart n = c.lt ∧
    (∀ x, x < 4 → (engineStart c n).ctx (n + 3) x = startCtx (c.reg (PE_PEn_ENTRY n x))) ∧
    (∀ a, a ≠ PE_PEn_STAT n → (engineStart c n).reg a = c.reg a) := by
  rw [engineStart_loaded h]
  generalize hs : (c.resetCore (n + 3)).setPeState n 3 = d
  have hreg (a : Nat) (ha : a ≠ PE_PEn_STAT n) : d.reg a = c.reg a := by
    subst hs
    refine (setPeState_reg ha).trans ?_
    unfold Chip.reg
    rw [resetCore_regs]
  have hctx (x : Nat) (hx : x < 4) : d.ctx (n + 3) x = .reset := by
    subst hs
    exact setPeState_ctx.trans (resetCore_ctx (by rwa [ctxCount_engine]))
  have hent (x : Nat) : PE_PEn_ENTRY n x ≠ PE_PEn_STAT n := by
    unfold PE_PEn_ENTRY PE_PEn_STAT
    omega
  have hst : d.peState n = 3 := hs ▸ peState_setPeState (by decide)
  have htmu : d.tmu = c.tmu := by
    subst hs
    exact resetCore_tmu
  obtain ⟨ho, hc⟩ := startCtxs_only (c := d) (n := n)
  generalize d.startCtxs n = e at ho hc ⊢
  refine ⟨(congrArg (wfld · 2 0) (ho.reg _)).trans hst, ?_, fun x hx => ?_, fun a ha => (ho.reg a).trans (hreg a ha)⟩
  · refine (tblGet_set_same _ _ _ _).trans ?_
    unfold Chip.lt
    rw [ho.tmu, htmu]
  · rw [← hreg _ (hent x)]
    exact hc x hx (hctx x hx)

theorem engineStop_running (h : c.peState n = 3) : engineStop c n = (c.haltCore (n + 3)).setPeState n 2 := if_pos h

theorem engineStop_effect (h : c.peState n = 3) :
    (engineStop c n).peState n = 2 ∧
    (∀ x, x < 4 → (engineStop c n).ctx (n + 3) x = { c.ctx (n + 3) x with st := .halt }) ∧
    (∀ a, a ≠ PE_PEn_STAT n → (engineStop c n).reg a = c.reg a) := by
  rw [engineStop_running h]
  refine ⟨peState_setPeState (by decide), fun x hx => ?_, fun a ha => ?_⟩
  · exact setPeState_ctx.trans (eachCtx_ctx (fun k => { k with st := .halt }) (by rwa [ctxCount_engine]))
  · exact (setPeState_reg ha).trans ((eachCtx_only fun k => { k with st := .halt }).reg a)

/-! ### Clear -/

theorem tblFind_filter {α : Type} (t : Tbl α) (p : Nat → Bool) (a : Nat) :
    tblFind (t.filter fun e => p e.1) a = if p a then tblFind t a else none := by
  induction t with
  | nil => exact (ite_self _).symm
  | cons e t ih =>
    obtain ⟨k, v⟩ := e
    by_cases hk : k = a
    · subst hk
      by_cases hp : p k = true
      · simp [tblFind, hp]
      · simp [hp, ih]
    · by_cases hp : p k = true
      · simp [tblFind, hp, hk, ih]
      · simp [tblFind, hp, hk, ih]

theorem regionOf_above {a b : Nat} (h : 0x11000000 ≤ a) : regionOf a ≠ .sram b := by
  have hite {q : Prop} [Decidable q] {r s : Region} (hr : r ≠ .sram b) (hs : s ≠ .sram b) : (if q then r else s) ≠ .sram b := by
    split
    · exact hr
    · exact hs
  unfold regionOf
  rw [if_neg (by omega), if_neg (by omega), if_neg (by omega)]
  refine hite nofun (hite nofun (hite nofun (hite (hite nofun nofun) ?_)))
  refine hite nofun (hite nofun (hite nofun (hite nofun ?_)))
  exact hite nofun (hite nofun (hite nofun (hite nofun (hite nofun nofun))))

/-- No memory above the banks is left undefined by a march run. -/
theorem undefRun_above {a : Nat} (h : 0x11000000 ≤ a) : c.undefRun a = 0 := by
  unfold Chip.undefRun
  split
  next b hr => exact absurd hr (regionOf_above h)
  next => rfl

theorem clearMem_byte {a b s : Nat} (h : 0x11000000 ≤ b) :
    (b ≤ a → a < b + s → (c.clearMem b s).byte a = 0) ∧
    ((a < b ∨ b + s ≤ a) → (c.clearMem b s).byte a = c.byte a) := by
  have hf : tblFind (c.clearMem b s).mem a = if (decide (a < b) || decide (b + s ≤ a)) then tblFind c.mem a else none :=
    tblFind_filter c.mem (fun w => w < b || decide (b + s ≤ w)) a
  have hu : (c.clearMem b s).undefRun a = c.undefRun a := rfl
  unfold Chip.byte
  rw [hf, hu]
  refine ⟨fun h0 h1 => ?_, fun g => ?_⟩
  · rw [if_neg (by simp only [Bool.or_eq_true, decide_eq_true_iff]; omega), undefRun_above (by omega), if_neg (by omega),
      if_pos rfl]
  · rw [if_pos (by simpa only [Bool.or_eq_true, decide_eq_true_iff] using g)]

theorem engineClear_stopped (h : c.peState n = 1 ∨ c.peState n = 2) : engineClear c n =
    { c.setPeState n 1 with core := { c.core with clearing := tblSet false c.core.clearing n true } } := if_pos h

theorem engineClear_refused (h1 : c.peState n ≠ 1) (h2 : c.peState n ≠ 2) : engineClear c n = c.peCause n 5 :=
  if_neg fun g => g.elim h1 h2

theorem engineClearDone_idle (h : tblGet false c.core.clearing n = false) : engineClearDone c n = c :=
  if_neg (by rw [h]; exact Bool.false_ne_true)

theorem engineClearDone_ends (h : tblGet false c.core.clearing n = true) : engineClearDone c n =
    { c with core := { c.core with clearing := tblSet false c.core.clearing n false } }.clearMem (peMem n) 0x40000 :=
  if_pos h

theorem clearMem_core {a s : Nat} : (c.clearMem a s).core = c.core := rfl

theorem clearMem_regs {a s : Nat} : (c.clearMem a s).regs = c.regs := rfl

theorem engineClearDone_effect :
    let d := { c with core := { c.core with clearing := tblSet false c.core.clearing n false } }.clearMem (peMem n) 0x40000
    tblGet false d.core.clearing n = false ∧ d.regs = c.regs ∧
    ∀ a, (peMem n ≤ a → a < peMem n + 0x40000 → d.byte a = 0) ∧ ((a < peMem n ∨ peMem n + 0x40000 ≤ a) → d.byte a = c.byte a) := by
  have hp : 0x11000000 ≤ peMem n := by
    unfold peMem
    omega
  generalize peMem n = b at hp
  generalize 0x40000 = s
  intro d
  refine ⟨?_, clearMem_regs, fun a => clearMem_byte hp⟩
  rw [clearMem_core]
  exact tblGet_set_same false c.core.clearing n false

/-! ### The cycle timer and the watchdog -/

/-- Line 7 of the contexts that the timer wakes. -/
def Chip.cycWoken (c : Chip) (n : Nat) : Chip :=
  (List.range 4).foldl (fun c x => if c.bit (PE_PEn_CYCCTX n) x then c.wakeLine (n + 3) x 7 else c) c

theorem cycWoken_only : OnlyCtxs c (c.cycWoken n) ∧ ∀ x, x < 4 → (c.cycWoken n).ctx (n + 3) x =
    if c.bit (PE_PEn_CYCCTX n) x then { c.ctx (n + 3) x with wake := wsetBit (c.ctx (n + 3) x).wake 7 true }
    else c.ctx (n + 3) x := by
  have hg (d : Chip) (x : Nat) (hd : d.regs = c.regs) :
      CtxStep (n + 3) x (fun k => if c.bit (PE_PEn_CYCCTX n) x then { k with wake := wsetBit k.wake 7 true } else k) d
        (if d.bit (PE_PEn_CYCCTX n) x then d.wakeLine (n + 3) x 7 else d) := by
    have hr : d.bit (PE_PEn_CYCCTX n) x = c.bit (PE_PEn_CYCCTX n) x := by
      unfold Chip.bit Chip.reg
      rw [hd]
    rw [hr]
    split
    · exact .setCtx (fun k => { k with wake := wsetBit k.wake 7 true }) d
    · exact .refl d
  obtain ⟨ho, hc⟩ := foldl_ctxStep (List.range 4) List.nodup_range c hg
  exact ⟨ho, fun x hx => (hc x).trans (if_pos (List.mem_range.2 hx))⟩

theorem peCycleTimer_due (h : c.reg (PE_PEn_CYCPER n) ≠ 0) (ht : tblGet 0 c.core.cycNext n ≤ c.ltNs) :
    peCycleTimer c n = (c.cycWoken n).cycRestart n := if_pos ⟨h, ht⟩

theorem peCycleTimer_early (h : c.reg (PE_PEn_CYCPER n) = 0 ∨ c.ltNs < tblGet 0 c.core.cycNext n) :
    peCycleTimer c n = c := if_neg fun g => h.elim (fun h => g.1 h) fun h => absurd g.2 (Nat.not_le.2 h)

theorem cycFirst_congr (h : d.regs = c.regs) (ht : d.tmu = c.tmu) : d.cycFirst n = c.cycFirst n := by
  unfold Chip.cycFirst Chip.reg64 Chip.ltNs Chip.reg
  rw [h, ht]

theorem cycFirst_running (h : c.reg (PE_PEn_CYCPER n) ≠ 0) : c.cycFirst n =
    (let base := c.reg64 (PE_PEn_CYCBASE_LO n)
     let per := (c.reg (PE_PEn_CYCPER n)).toNat
     if c.ltNs < base then base else base + ((c.ltNs - base) / per + 1) * per) := by
  have h0 : (c.reg (PE_PEn_CYCPER n)).toNat ≠ 0 := fun g => h (BitVec.eq_of_toNat_eq g)
  simp only [Chip.cycFirst, h0, false_or]

/-- The watchdog of an engine has expired. -/
def Chip.wdExpired (c : Chip) (n : Nat) : Prop :=
  c.peState n = 3 ∧ c.fld (PE_PEn_WDT n) 23 0 ≠ 0 ∧
    tblGet 0 c.core.wdStart n + c.fld (PE_PEn_WDT n) 23 0 * 65536000 < c.lt

theorem peWatchdog_idle (h : ¬c.wdExpired n) : peWatchdog c n = c := if_neg h

theorem peWatchdog_expires (h : c.wdExpired n) : peWatchdog c n =
    if c.bit (PE_PEn_WDT n) 31 then (((c.peCause n 2).peKick n).haltCore (n + 3)).setPeState n 2
    else (c.peCause n 2).peKick n := if_pos h

end Sys2Proof.Machine

namespace Sys2Proof
open Machine

/-- Settles O34: the commands of an engine by their bits and its state, the end of a clear, the cycle timer and the
watchdog. That START waits for CONFIGURED and that the watchdog expires only after its last tick (log entry 22) are the
model's choices. -/
theorem engineStatesFollowR258 : Obligations.EngineStatesFollowR258 := by
  unfold Obligations.EngineStatesFollowR258
  intro m n v c e core st refused clearing kicked lim expired
  have hstart {d : Chip} (w : W32) (g : peCmdWrite c m.val e (w ||| 1) = d) : Does (.engineStart m n w) c d :=
    does_engineStart ((regWrite_PE_PEn_CMD n).trans g)
  have hstop {d : Chip} (w : W32) (g : peCmdWrite c m.val e (w ||| 2) = d) : Does (.engineStop m n w) c d :=
    does_engineStop ((regWrite_PE_PEn_CMD n).trans g)
  have hclear {d : Chip} (w : W32) (g : peCmdWrite c m.val e (w ||| 4) = d) : Does (.engineClear m n w) c d :=
    does_engineClear ((regWrite_PE_PEn_CMD n).trans g)
  refine ⟨fun h => ⟨hstart v (peCmdWrite_other h), hstop v (peCmdWrite_other h), hclear v (peCmdWrite_other h)⟩, ?_, ?_, ?_, ?_, ?_,
    ?_, ?_, fun h => does_engineClearDone (engineClearDone_idle h), fun h => ?_, fun h ht => ?_,
    fun h => does_peCycleTimer (peCycleTimer_early h), fun h hl ht => ⟨fun hb => ?_, fun hb => ?_⟩, fun h => ?_⟩
  · intro hm hv hs h4
    rw [hm] at hstart
    obtain ⟨h1, h2, h3, h5⟩ := engineStart_effect ⟨hs, h4⟩
    exact (hstart v (peCmdWrite_onlyBit 0 hv)).gives ⟨h1, h2, h3, h5, fun a => (engineStart_sameMem (c := c) (a0 := e)).byte a⟩
  · intro hm hv h
    rw [hm] at hstart
    exact hstart v ((peCmdWrite_onlyBit 0 hv).trans (congrArg Chip.done (engineStart_refused h)))
  · intro hm hv hs
    rw [hm] at hstop
    obtain ⟨h1, h2, h3⟩ := engineStop_effect hs
    exact (hstop v (peCmdWrite_onlyBit 1 hv)).gives ⟨h1, h2, h3, fun a => (engineStop_sameMem (c := c) (a0 := e)).byte a⟩
  · intro hm hv hs
    rw [hm] at hstop
    exact hstop v ((peCmdWrite_onlyBit 1 hv).trans (congrArg Chip.done (if_neg hs)))
  · intro hm hv hs
    rw [hm] at hclear
    exact hclear v ((peCmdWrite_onlyBit 2 hv).trans (congrArg Chip.done (engineClear_stopped hs)))
  · intro hm hv h1 h2
    rw [hm] at hclear
    exact hclear v ((peCmdWrite_onlyBit 2 hv).trans (congrArg Chip.done (engineClear_refused h1 h2)))
  · intro hm
    rw [hm] at hstart hstop hclear
    exact ⟨fun h => hstart v (peCmdWrite_many h), fun h => hstop v (peCmdWrite_many h), fun h => hclear v (peCmdWrite_many h)⟩
  · obtain ⟨hc, hr, hb⟩ := engineClearDone_effect (c := c) (n := e)
    refine (does_engineClearDone (engineClearDone_ends h)).gives ⟨hc, hr, fun a => ?_⟩
    obtain ⟨hin, hout⟩ := hb a
    unfold peMem at hin hout
    exact ⟨fun h0 h1 => hin h0 (by omega), fun g => hout (g.imp id fun g => by omega)⟩
  · obtain ⟨ho, hc⟩ := cycWoken_only (c := c) (n := e)
    refine (does_peCycleTimer (peCycleTimer_due h ht)).gives ⟨hc, ?_, ho.regs, fun a => ?_⟩
    · refine (tblGet_set_same _ _ _ _).trans ?_
      rw [cycFirst_congr ho.regs ho.tmu]
      exact cycFirst_running h
    · have hs := (peCycleTimer_sameMem (c := c) (a0 := e)).byte a
      rwa [peCycleTimer_due h ht] at hs
  · refine does_engineWatchdogExpiry ((peWatchdog_expires ⟨h, hl, ht⟩).trans (if_neg ?_))
    rw [hb]
    exact Bool.false_ne_true
  · exact does_engineWatchdogExpiry ((peWatchdog_expires ⟨h, hl, ht⟩).trans (if_pos hb))
  · refine does_engineWatchdogExpiry (peWatchdog_idle fun g => ?_)
    obtain ⟨g1, g2, g3⟩ := g
    rcases h with h | h | h
    · exact h g1
    · exact g2 h
    · exact absurd g3 (Nat.not_lt.2 h)

end Sys2Proof
end

section
/-!
PROOF. Cycle frames of the control unit: boundaries, evaluation, slots and handovers (R274 to R278, R280).
-/
namespace Sys2Proof.Machine

variable {c d e : Chip} {m n s k : Nat} {v : W32}

/-! ### The image unit's accesses -/

theorem ioWrite_keepsReg {a : Nat} (h : Aside a) (x : Nat) (bs : List Byte) (c : Chip) : KeepsReg a c (c.ioWrite x bs) :=
  .dmaWrite h 1 x bs c

theorem ioCopy_keepsReg {a : Nat} (h : Aside a) (src dst words : Nat) (c : Chip) : KeepsReg a c (c.ioCopy src dst words) := by
  unfold Chip.ioCopy
  generalize List.range words = is
  induction is generalizing c with
  | nil => exact .refl c
  | cons i is ih =>
    refine .trans ?_ (ih _)
    have hr := KeepsReg.dmaRead h 1 (src + 8 * i) 8 c
    unfold Chip.ioRead
    dsimp only
    split
    next bs c1 he =>
      rw [he] at hr
      exact hr.trans (ioWrite_keepsReg h _ _ c1)
    next c1 he =>
      rw [he] at hr
      exact hr

/-! ### Enabling a frame -/

theorem frameCfgWrite_other (h : m ≠ 0) : frameCfgWrite c m n v = c.refuse := if_pos h

theorem frameCfgWrite_enabled (hm : m = 0) (h : c.bit (TSK_FRn_CFG n) 31 = true) (hv : wbit v 31 = true) :
    frameCfgWrite c m n v = c.done :=
  (if_neg (not_not_intro hm)).trans ((if_pos h).trans (if_pos hv))

theorem frameCfgWrite_enables (hm : m = 0) (h : c.bit (TSK_FRn_CFG n) 31 = false) (hv : wbit v 31 = true) :
    frameCfgWrite c m n v =
      if c.frameOk n v then
        (let c1 := c.setReg (TSK_FRn_CFG n) (v &&& 0xFF1F000F)
         (c1.setFr n { FrameRun.reset with next := c1.nextBoundary n }).done)
      else ((c.setReg (TSK_FRn_CFG n) (v &&& 0x7F1F000F)).tskCause 1).done := by
  refine (if_neg (not_not_intro hm)).trans ((if_neg ?_).trans ?_)
  · rw [h]
    exact Bool.false_ne_true
  · rw [hv, Bool.true_and]
    cases c.frameOk n v <;> rfl

/-! ### Boundaries and releases -/

/-- A frame whose cycle begins at its boundary. -/
def Chip.cycleBegun (c : Chip) (n : Nat) : Chip :=
  let f := c.fr n
  (((c.setReg (TSK_FRn_CYCLE n) (c.reg (TSK_FRn_CYCLE n) + 1)).setBit (TSK_FRn_STAT n) 29 f.handedEarly).setBit
    (TSK_FRn_STAT n) 30 (f.coming && !f.evalDue && !f.evaluating)).setFr n { f with
      t := f.next, next := c.nextBoundary n, begun := true, checked := false
      releaseWaits := f.evaluating || c.initHolds, coming := false, handedEarly := false
      hands := f.hands.map fun h => { h with cycle := if h.cycle = .coming then .current else .past } }

theorem frameBoundary_not (h : c.bit (TSK_FRn_CFG n) 31 = false ∨ c.bit (TSK_FRn_CFG n) 30 = true ∨ c.ltNs < (c.fr n).next) :
    frameBoundary c n = c := by
  refine if_neg fun g => ?_
  obtain ⟨g1, g2, g3⟩ := g
  rcases h with h | h | h
  · exact Bool.false_ne_true (h.symm.trans g1)
  · exact Bool.false_ne_true (g2.symm.trans h)
  · exact absurd g3 (Nat.not_le.2 h)

theorem frameBoundary_due (h : c.bit (TSK_FRn_CFG n) 31 = true) (h0 : c.bit (TSK_FRn_CFG n) 30 = false)
    (ht : (c.fr n).next ≤ c.ltNs) : frameBoundary c n =
      if (c.fr n).evaluating || c.initHolds then c.cycleBegun n else (c.cycleBegun n).releaseFrame n := if_pos ⟨h, h0, ht⟩

theorem fr_setFr (f : FrameRun) : (c.setFr n f).fr n = f := tblGet_set_same _ _ _ _

/-- A release of the normal task alone, where it starts. -/
theorem releaseFrame_starts (h : c.bit (TSK_FRn_STAT n) 31 = false)
    (hr : (c.setFr n { c.fr n with releaseWaits := false }).release1 (c.fld (TSK_FRn_CFG n) 20 16) = (.started, d)) :
    c.releaseFrame n =
      (let e := d.setFr n { d.fr n with normalActive := true, normalT := (c.fr n).t, normalErr := false }
       if (c.fr n).t < c.ltNs then e.frameFault (TSK_FRn_STARTLATE n) else e) := by
  have hn : (c.setFr n { c.fr n with releaseWaits := false }).releaseOnly n =
      (.started, d.setFr n { d.fr n with normalActive := true, normalT := (c.fr n).t, normalErr := false }) := by
    unfold Chip.releaseOnly Chip.releaseNormal
    rw [fr_setFr]
    rw [show (c.setFr n { c.fr n with releaseWaits := false }).fld (TSK_FRn_CFG n) 20 16 =
      c.fld (TSK_FRn_CFG n) 20 16 from rfl, hr]
  have hb : ((c.setFr n { c.fr n with releaseWaits := false }).bit (TSK_FRn_STAT n) 31 &&
      (c.setFr n { c.fr n with releaseWaits := false }).bit (TSK_FRn_CFG n) 29) = false := by
    rw [show (c.setFr n { c.fr n with releaseWaits := false }).bit (TSK_FRn_STAT n) 31 =
      c.bit (TSK_FRn_STAT n) 31 from rfl, h, Bool.false_and]
  unfold Chip.releaseFrame
  extract_lets f c0 first
  have hf : first = (.started, d.setFr n { d.fr n with normalActive := true, normalT := (c.fr n).t, normalErr := false }) :=
    (if_neg (by rw [hb]; exact Bool.false_ne_true)).trans hn
  rw [hf]
  simp only [true_and]
  rfl

/-! ### Slots -/

/-- The slot's report taken, if there is one. -/
def Chip.reportTaken (c : Chip) (s : Nat) : Chip :=
  { c with tsk := { c.tsk with reported := tblSet false c.tsk.reported s false } }

theorem slotState_setSlotState {x : Nat} (hx : x < 4) : (c.setSlotState s x).slotState s = x := by
  have h : (c.setSlotState s x).reg (TSK_SLs_STAT s) = wsetFld (c.reg (TSK_SLs_STAT s)) 31 30 x := Chip.reg_setReg_same _ _ _
  unfold Chip.slotState Chip.fld
  rw [h, wfld_wsetFld _ _ _ _ (by decide) (by decide)]
  exact Nat.mod_eq_of_lt hx

theorem slotState_congr (h : KeepsReg (TSK_SLs_STAT s) c d) : d.slotState s = c.slotState s := congrArg (wfld · 31 30) h

theorem tskCause_keepsReg {a i : Nat} (h : Aside a) (hi : i < 32) (ha : a ≠ TSK_EVCAUSE) (c : Chip) :
    KeepsReg a c (c.tskCause i) := by
  refine (KeepsReg.setBit ha c).trans (KeepsReg.evRaise h ?_ _)
  unfold tskSource
  split <;> decide

theorem slotStat_aside (hs : s < 512) : Aside (TSK_SLs_STAT s) ∧ TSK_SLs_STAT s ≠ TSK_EVCAUSE := by
  unfold Aside TSK_SLs_STAT TSK_EVCAUSE
  omega

theorem evalSlot_reported (hs : s < 512) (h : tblGet false c.tsk.reported s = true) :
    c.evalSlot n s =
      (let d := ((c.reportTaken s).setFld (TSK_SLs_STAT s) 7 0 0).setFld (TSK_SLs_STAT s) 31 30 1
       if c.slotState s = 2 then d.tskCause 7 else d) := by
  obtain ⟨ha, hc⟩ := slotStat_aside hs
  have hst (d : Chip) : (if c.slotState s = 2 then (d.setSlotState s 1).tskCause 7 else d.setSlotState s 1).slotState s = 1 :=
    (slotState_congr (.ite (tskCause_keepsReg ha (by decide) hc _) (.refl _))).trans (slotState_setSlotState (by decide))
  unfold Chip.evalSlot
  extract_lets st got t0 c0 d0 d e1 e c1
  have hc1 : c1 = if c.slotState s = 2 then d0.tskCause 7 else d0 := if_pos h
  rw [hc1]
  exact if_pos (hst _)

/-- The count of cycles that a slot has missed. -/
def Chip.missCount (c : Chip) (s : Nat) : Nat := satTo 255 (c.fld (TSK_SLs_STAT s) 7 0 + 1)

/-- A slot that has missed one cycle more. -/
def Chip.missedSlot (c : Chip) (s : Nat) : Chip := (c.reportTaken s).setFld (TSK_SLs_STAT s) 7 0 (c.missCount s)

theorem missedSlot_state : (c.missedSlot s).slotState s = c.slotState s := by
  have h : (c.missedSlot s).reg (TSK_SLs_STAT s) = wsetFld (c.reg (TSK_SLs_STAT s)) 7 0 (c.missCount s) :=
    Chip.reg_setReg_same _ _ _
  unfold Chip.slotState Chip.fld
  rw [h, wfld_wsetFld_above _ _ _ _ _ _ (by decide) (by decide) (by decide)]

theorem missedSlot_count : (c.missedSlot s).fld (TSK_SLs_STAT s) 7 0 = c.missCount s := by
  have h : (c.missedSlot s).reg (TSK_SLs_STAT s) = wsetFld (c.reg (TSK_SLs_STAT s)) 7 0 (c.missCount s) :=
    Chip.reg_setReg_same _ _ _
  have hle : c.missCount s ≤ 255 := Nat.min_le_left _ _
  unfold Chip.fld
  rw [h, wfld_wsetFld _ _ _ _ (by decide) (by decide)]
  exact Nat.mod_eq_of_lt (by omega)

/-- A slot that is DROPPED, before its substitute values. -/
def Chip.droppedSlot (c : Chip) (n s : Nat) : Chip :=
  let e := ((c.missedSlot s).setSlotState s 2).setBit (TSK_DROPNEW (s / 32)) (s % 32) true
  (if c.bit (TSK_FRn_CFG n) 29 then e.setBit (TSK_FRn_STAT n) 31 true else e).tskCause 6

section
variable (h : tblGet false c.tsk.reported s = false) (hst : c.slotState s = 1)
include h hst

theorem evalSlot_missed (hl : c.missCount s < c.fld (TSK_SLs_CFG s) 23 16) : c.evalSlot n s = c.missedSlot s := by
  unfold Chip.evalSlot
  extract_lets st got t0 c0 d0 d e1 e c1
  have hd : d = c.missedSlot s := rfl
  have hc1 : c1 = c.missedSlot s := by
    refine (if_neg (by rw [show got = false from h]; exact Bool.false_ne_true)).trans ?_
    rw [hd, missedSlot_count]
    exact if_neg fun g => absurd g.2 (Nat.not_le.2 hl)
  rw [hc1]
  exact if_pos (missedSlot_state.trans hst)

theorem evalSlot_dropped (hs : s < 512) (hn : n < 8) (hl : c.fld (TSK_SLs_CFG s) 23 16 ≤ c.missCount s) :
    (c.evalSlot n s).slotState s = 2 := by
  obtain ⟨ha, hcause⟩ := slotStat_aside hs
  have hdrop : (c.droppedSlot n s).slotState s = 2 := by
    refine (slotState_congr ?_).trans (slotState_setSlotState (c := c.missedSlot s) (by decide))
    have h1 : TSK_SLs_STAT s ≠ TSK_DROPNEW (s / 32) := by
      unfold TSK_SLs_STAT TSK_DROPNEW
      omega
    have h2 : TSK_SLs_STAT s ≠ TSK_FRn_STAT n := by
      unfold TSK_SLs_STAT TSK_FRn_STAT
      omega
    refine .trans (.trans (.setBit h1 _) (.ite (.setBit h2 _) (.refl _))) (tskCause_keepsReg ha (by decide) hcause _)
  unfold Chip.evalSlot
  extract_lets st got t0 c0 d0 d e1 e c1
  have hd : d = c.missedSlot s := rfl
  have hc1 : c1 = c.droppedSlot n s := by
    refine (if_neg (by rw [show got = false from h]; exact Bool.false_ne_true)).trans ?_
    rw [hd, missedSlot_count]
    exact if_pos ⟨hst, hl⟩
  rw [hc1, if_neg (by rw [hdrop]; decide)]
  exact (slotState_congr (ioCopy_keepsReg ha _ _ _ _)).trans hdrop

end

/-! ### Evaluation, exchange and handover -/

theorem frameEvaluation_not (h : (c.fr n).evalDue = false) : frameEvaluation c n = c :=
  if_neg (by rw [h]; exact Bool.false_ne_true)

theorem evaluationEnd_not (h : (c.fr n).evaluating = false) : evaluationEnd c n = c :=
  if_neg (by rw [h]; exact Bool.false_ne_true)

/-- The handovers that an evaluation leaves due where no task follows it. -/
def Chip.idleHands (c : Chip) (n : Nat) : List HandDue :=
  if ¬(c.tskMode = 0 ∨ (c.tskMode = 4 ∧ (c.fr n).errActive = false ∧ c.bit (TSK_FRn_STAT n) 31 = false)) then []
  else if (c.fr n).coming = true then [⟨.coming, (c.fr n).next, true, false⟩]
  else if c.bit (TSK_FRn_STAT n) 29 = true then [] else [⟨.current, (c.fr n).t, true, false⟩]

/-- A frame whose evaluation has ended. -/
def Chip.evaluated (c : Chip) (n : Nat) : Chip :=
  (c.setFr n { c.fr n with evaluating := false, hands := (c.fr n).hands ++ c.idleHands n }).setBit (TSK_FRn_STAT n) 30 true

theorem evaluationEnd_ends (h : (c.fr n).evaluating = true) : evaluationEnd c n =
    if (c.fr n).releaseWaits && !c.initHolds then (c.evaluated n).releaseFrame n else c.evaluated n := by
  refine (if_pos h).trans ?_
  unfold Chip.evaluated Chip.idleHands
  simp only [Bool.not_eq_true', decide_eq_false_iff_not]

/-- A frame's T and TOUT have passed and its cycle is not checked yet. -/
def Chip.exchangeDue (c : Chip) (n : Nat) : Prop :=
  c.bit (TSK_FRn_CFG n) 31 = true ∧ (c.fr n).begun = true ∧ (c.fr n).checked = false ∧
    (c.fr n).t + (c.reg (TSK_FRn_TOUT n)).toNat < c.ltNs

theorem noExchangeCheck_not (h : ¬c.exchangeDue n) : noExchangeCheck c n = c := if_neg h

/-- One half of LATEOUT counts. -/
def Chip.lateOut (c : Chip) (n hi lo : Nat) : Chip :=
  (c.setFld (TSK_FRn_LATEOUT n) hi lo (satTo 65535 (c.fld (TSK_FRn_LATEOUT n) hi lo + 1))).tskCause 5

/-- The frame's cycle is checked for its exchange. -/
def Chip.exchangeChecked (c : Chip) (n : Nat) : Chip :=
  let done := c.setFr n { c.fr n with checked := true, exchanged := false }
  if (c.fr n).exchanged = true then done else ((c.slotsOf n).foldl (fun c s => c.miss s) done).lateOut n 31 16

theorem noExchangeCheck_due (h : c.exchangeDue n) : noExchangeCheck c n =
    if c.bit (TSK_FRn_STAT n) 29 then c.exchangeChecked n else (c.exchangeChecked n).lateOut n 15 0 := if_pos h

theorem outputHandover_none (h : (c.fr n).hands = []) : outputHandover c n = c := by
  simp only [outputHandover, h]

/-- The frame's output area as a handover writes it. -/
def Chip.outputFilled (c : Chip) (n : Nat) : Chip :=
  if c.tskMode = 0 ∨ c.tskMode = 4 then
    c.writeForces.ioCopy (c.fld TSK_SUBBASE 31 6 * 64 + c.fld (TSK_FRn_OSAFE n) 18 6 * 64) (c.outputAddr n + 64)
      (c.fld (TSK_FRn_OIMG n) 26 16 * 8)
  else c.writeForces

/-- A frame's bank given from its tasks to its exchange. -/
def Chip.bankGiven (c : Chip) (n b : Nat) : Chip :=
  if c.fld (MEM_BOWN b) 3 0 = c.tgrp n then { bankOwnerWrite c 1 b (w32 (c.pgrp n)) with bus := c.bus } else c

/-- The handover `h` is made, but for its count. -/
def Chip.handed (c : Chip) (n : Nat) (h : HandDue) (rest : List HandDue) : Chip :=
  let headed := (c.outputFilled n).ioWrite (c.outputAddr n) ((c.outputFilled n).outputHeader n h)
  let given := (headed.bankGiven n (c.obank n)).bankGiven n (c.ibank n)
  let left := given.setFr n { given.fr n with
    hands := rest, handedEarly := (given.fr n).handedEarly || h.cycle == .coming }
  if h.cycle = .current then left.setBit (TSK_FRn_STAT n) 29 true else left

theorem outputHandover_some {h : HandDue} {rest : List HandDue} (hh : (c.fr n).hands = h :: rest) :
    outputHandover c n =
      if h.skipped then (c.handed n h rest).frameFault (TSK_FRn_SKIPPED n) else c.handed n h rest := by
  unfold outputHandover
  rw [hh]
  rfl

end Sys2Proof.Machine

namespace Sys2Proof
open Machine

/-- Settles O35: the enabling of a frame, its boundary, evaluation, checks and handover, case by case. That a cycle may
be handed over before its T (log entry 162) and that the checks come after their tick (log entry 22) are the model's
choices. -/
theorem cycleFramesFollowR274ToR280 : Obligations.CycleFramesFollowR274ToR280 := by
  unfold Obligations.CycleFramesFollowR274ToR280
  intro m n v s c k f cfg on cause started slots forced shown stat got seen missed
  have hon : wbit on 31 = true := wbit_or_of_right rfl
  have hen {d : Chip} (g : frameCfgWrite c m.val k on = d) : Does (.frameEnable m n v) c d :=
    does_frameEnable ((regWrite_TSK_FRn_CFG n).trans g)
  have hnot {y : Bool} (h : y = false) : ¬y = true := by
    rw [h]
    exact Bool.false_ne_true
  refine ⟨fun h => hen (frameCfgWrite_other h), fun hm h => hen (frameCfgWrite_enabled hm h hon), fun hm h ho => ?_,
    fun hm h ho => ?_, fun h => does_frameCycleBoundary (frameBoundary_not h), fun h h0 ht => ⟨fun hw => ?_, fun hw => ?_⟩,
    fun d h hr => releaseFrame_starts h hr, fun h => does_frameEvaluation (frameEvaluation_not h),
    fun h => does_frameEvaluation (if_pos h), fun h hs => ?_, fun h hs => ?_, fun h hs hl => evalSlot_missed h hs hl,
    fun h hs hl => evalSlot_dropped h hs s.isLt n.isLt hl, fun h => does_evaluationEnd (evaluationEnd_not h), fun h => ?_,
    fun h => ?_, fun h hb hc ht => ?_, fun h => does_outputHandover (outputHandover_none h), fun h rest hh => ?_⟩
  · exact hen ((frameCfgWrite_enables hm h hon).trans (if_neg (hnot ho)))
  · exact hen ((frameCfgWrite_enables hm h hon).trans (if_pos ho))
  · exact does_frameCycleBoundary ((frameBoundary_due h h0 ht).trans (if_pos hw))
  · exact does_frameCycleBoundary ((frameBoundary_due h h0 ht).trans (if_neg (hnot hw)))
  · exact (evalSlot_reported s.isLt h).trans (if_neg hs)
  · exact (evalSlot_reported s.isLt h).trans (if_pos hs)
  · intro idle hands ended
    have he := evaluationEnd_ends h
    refine ⟨fun hr hi => does_evaluationEnd (he.trans (if_pos ?_)), fun hr => does_evaluationEnd (he.trans (if_neg ?_))⟩
    · rw [show (c.fr n.val).releaseWaits = true from hr, hi]
      rfl
    · rw [Bool.and_eq_true, Bool.not_eq_true']
      rintro ⟨g1, g2⟩
      rcases hr with hr | hr
      · exact hnot hr g1
      · exact Bool.false_ne_true (g2.symm.trans hr)
  · refine does_noExchangeCheck (noExchangeCheck_not fun g => ?_)
    obtain ⟨g1, g2, g3, g4⟩ := g
    rcases h with h | h | h | h
    · exact hnot h g1
    · exact hnot h g2
    · exact hnot g3 h
    · exact absurd g4 (Nat.not_lt.2 h)
  · intro done late counted
    have he := noExchangeCheck_due (c := c) (n := k) ⟨h, hb, hc, ht⟩
    exact ⟨fun g => does_noExchangeCheck (he.trans (if_pos g)),
      fun g => does_noExchangeCheck (he.trans (if_neg (hnot g)))⟩
  · intro forces safe filled headed give given left marked
    have he := outputHandover_some hh
    exact ⟨fun g => does_outputHandover (he.trans (if_neg (hnot g))),
      fun g => does_outputHandover (he.trans (if_pos g))⟩

end Sys2Proof
end

section
/-!
PROOF. Task releases, operating modes, slot reports and diagnostics (R270 to R273, R281, R295).
-/
namespace Sys2Proof.Machine

variable {c d : Chip} {m k : Nat} {v : W32}

/-! ### Releases -/

/-- The context of a task. -/
def Chip.taskRun (c : Chip) (k : Nat) : Ctx := c.ctx (c.taskCtx k).1 (c.taskCtx k).2

/-- A task started: the forces written, its context ready at `pc`. -/
def Chip.taskStarted (c : Chip) (k pc : Nat) : Chip :=
  let d := c.writeForces
  let (core, x) := c.taskCtx k
  let e := (d.setCtx core x { d.ctx core x with
    pc := pc, st := .ready }).setBit (TSK_TKk_STAT k) 31 true
  { e with tsk := { e.tsk with relTime := tblSet 0 e.tsk.relTime k c.lt } }

theorem release1_ignored (h : c.releaseAllowed k = false ∨ c.bit (TSK_TKk_CFG k) 31 = false) :
    c.release1 k = (.ignored, c) := by
  refine if_pos ?_
  rcases h with h | h <;> simp [h]

theorem release1_allowed (ha : c.releaseAllowed k = true) (hb : c.bit (TSK_TKk_CFG k) 31 = true) :
    c.release1 k =
      if (c.taskRun k).st ≠ .halt then (.refused, c.releaseRefused k) else
        (.started, c.taskStarted k (c.fld (TSK_TKk_ENTRY k) 31 2 * 4)) := by
  unfold Chip.release1
  dsimp only
  rw [ha, hb]
  exact if_neg Bool.false_ne_true

theorem taskReleaseWrite_other (h : 2 < m) : taskReleaseWrite c m v = c.refuse := if_pos h

theorem taskReleaseWrite_releases (h : m ≤ 2) {r : Released} (hr : c.release1 (wfld v 4 0) = (r, d)) :
    taskReleaseWrite c m v = d.done := by
  refine (if_neg (Nat.not_lt.2 h)).trans ?_
  rw [hr]

/-! ### Modes -/

theorem tskMode_lt (c : Chip) : c.tskMode < 8 := wfld_lt (c.reg TSK_STAT) 2 0

theorem tskMode_cases (c : Chip) : c.tskMode = 0 ∨ c.tskMode = 1 ∨ c.tskMode = 2 ∨ c.tskMode = 3 ∨ c.tskMode = 4 ∨
    c.tskMode = 5 ∨ c.tskMode = 6 ∨ c.tskMode = 7 := by
  have hlt := tskMode_lt c
  omega

/-- STOP may be asked for in every mode but STOP itself and those that no mode has. -/
theorem tskModeRequest_stop : tskModeRequest c 0 0 =
    (if c.tskMode = 0 ∨ 4 < c.tskMode then c.tskCause 0 else c.setTskMode 0).done := by
  unfold tskModeRequest
  refine (if_neg (not_not_intro rfl)).trans (congrArg Chip.done ?_)
  obtain h | h | h | h | h | h | h | h := tskMode_cases c
  · exact (if_neg (by rw [h]; exact Bool.false_ne_true)).trans (if_pos (by omega)).symm
  · exact (if_pos (by rw [h]; rfl)).trans (if_neg (by omega)).symm
  · exact (if_pos (by rw [h]; rfl)).trans (if_neg (by omega)).symm
  · exact (if_pos (by rw [h]; rfl)).trans (if_neg (by omega)).symm
  · exact (if_pos (by rw [h]; rfl)).trans (if_neg (by omega)).symm
  · exact (if_neg (by rw [h]; exact Bool.false_ne_true)).trans (if_pos (by omega)).symm
  · exact (if_neg (by rw [h]; exact Bool.false_ne_true)).trans (if_pos (by omega)).symm
  · exact (if_neg (by rw [h]; exact Bool.false_ne_true)).trans (if_pos (by omega)).symm

theorem tskModeRequest_run : tskModeRequest c 0 2 =
    (if c.tskMode = 1 ∨ c.tskMode = 3 then c.setTskMode 2 else c.tskCause 0).done := by
  unfold tskModeRequest
  generalize c.tskCause 0 = refused, c.setTskMode 2 = taken
  refine (if_neg (not_not_intro rfl)).trans (congrArg Chip.done ?_)
  obtain h | h | h | h | h | h | h | h := tskMode_cases c
  all_goals
    rw [h]
    rfl

theorem tskModeRequest_test : tskModeRequest c 0 3 =
    (if c.tskMode = 1 ∨ c.tskMode = 2 then c.setTskMode 3 else c.tskCause 0).done := by
  unfold tskModeRequest
  generalize c.tskCause 0 = refused, c.setTskMode 3 = taken
  refine (if_neg (not_not_intro rfl)).trans (congrArg Chip.done ?_)
  obtain h | h | h | h | h | h | h | h := tskMode_cases c
  all_goals
    rw [h]
    rfl

/-- Start-up may be asked for: from STOP with a program in RUN, and from RECOVERY. -/
def Chip.canStartUp (c : Chip) : Prop :=
  (c.tskMode = 0 ∧ c.sysState = 5 ∧ c.fld TSK_VMAPN 15 0 ≠ 0) ∨ c.tskMode = 4

theorem tskModeRequest_startup (h : c.canStartUp) : tskModeRequest c 0 1 = (c.setTskMode 1).done := by
  unfold tskModeRequest
  rcases h with ⟨h, hs, hp⟩ | h
  · simp [h, hs, hp]
  · simp [h]

theorem tskModeRequest_noStartup (h : ¬c.canStartUp) : tskModeRequest c 0 1 = (c.tskCause 0).done := by
  unfold Chip.canStartUp at h
  unfold tskModeRequest
  obtain e | e | e | e | e | e | e | e := tskMode_cases c
  all_goals rw [e] at h ⊢
  · have hn : ¬(c.sysState == 5 && c.fld TSK_VMAPN 15 0 != 0) = true := by
      intro g
      simp only [Bool.and_eq_true, beq_iff_eq, bne_iff_ne, ne_eq] at g
      exact h (.inl ⟨rfl, g⟩)
    exact congrArg Chip.done (if_neg hn)
  · rfl
  · rfl
  · rfl
  · exact absurd (.inr rfl) h
  all_goals rfl

/-- The mode as a change shows it, with its event. -/
def Chip.modeShown (c : Chip) (w : Nat) : Chip := ((c.setFld TSK_STAT 2 0 w).setFld TSK_MODE 2 0 w).tskCause 11

theorem setTskMode_plain (h : k ≠ 1) : c.setTskMode k = c.modeShown k := if_neg h

theorem setTskMode_startup {r : Released} {e : Chip}
    (h : (c.modeShown 1).release1 (c.fld TSK_INITTASK 4 0) = (r, e)) :
    c.setTskMode 1 =
      if r = .started then { e with tsk := { e.tsk with initWait := some (c.fld TSK_INITTASK 4 0) } } else e := by
  unfold Chip.modeShown at h
  unfold Chip.setTskMode
  dsimp only
  rw [if_pos rfl, h]
  cases r <;> rfl

/-! ### Reports -/

/-- A report of the slot counted, with its retry flag. -/
def Chip.reportCounted (c : Chip) (v : W32) : Chip :=
  (c.setReg TSK_RPTCNT (c.reg TSK_RPTCNT + 1)).setBit (TSK_SLs_STAT (wfld v 8 0)) 16 (wfld v 31 30 == 2)

/-- The master belongs to the group of the reported slot's frame. -/
def Chip.reporterOwns (c : Chip) (m : Nat) (v : W32) : Prop :=
  c.inGroup m (c.pgrp (c.fld (TSK_SLs_CFG (wfld v 8 0)) 26 24)) = true

theorem stationReport_other (h : ¬c.reporterOwns m v) : stationReport c m v = (c.tskCause 2).done := by
  refine if_pos ?_
  rw [Bool.not_eq_true', ← Bool.not_eq_true]
  exact h

theorem stationReport_owned (h : c.reporterOwns m v) : stationReport c m v =
    if wfld v 31 30 = 1 ∨ wfld v 31 30 = 2 then
      (if wfld v 31 30 = 1 then { c.reportCounted v with tsk := { c.tsk with
        reported := tblSet false c.tsk.reported (wfld v 8 0) true } } else c.reportCounted v).done
    else c.done := by
  refine if_neg ?_
  rw [Bool.not_eq_true', Bool.not_eq_false]
  exact h

end Sys2Proof.Machine

namespace Sys2Proof
open Machine

/-- Settles O36: releases, modes, reports and the diagnostic write, case by case. A program counts as active where a
variable map is (log entry 160), which is the model's choice. -/
theorem tasksAndModesFollowR270ToR273 : Obligations.TasksAndModesFollowR270ToR273 := by
  unfold Obligations.TasksAndModesFollowR270ToR273
  intro m v c k core x cause mode refused gone moved init canStart slot code ours counted
  have hrel {d} (g : taskReleaseWrite c m.val v = d) : Does (.taskReleaseWrite m v) c d :=
    does_taskReleaseWrite (regWrite_TSK_REL.trans g)
  have hrpt {d} (g : stationReport c m.val v = d) : Does (.stationReport m v) c d :=
    does_stationReport (regWrite_TSK_RPT.trans g)
  refine ⟨fun h => hrel (taskReleaseWrite_other h),
    fun h hn => hrel (taskReleaseWrite_releases h (release1_ignored hn)),
    fun h ha hb => ⟨fun hs => ?_, fun hs => ?_⟩, fun h => ?_, fun h => ?_, fun h => ?_, fun h => ?_, fun h => ?_,
    fun h => ?_, fun h r e he => ?_, fun h => ?_, fun h => hrpt (stationReport_other h), fun h hc => ?_, fun h hc => ?_,
    fun h hc => ?_, does_tskDiagWrite regWrite_TSK_DIAG⟩
  · exact hrel (taskReleaseWrite_releases h ((release1_allowed ha hb).trans (if_pos hs)))
  · intro d e hr
    have hpc : c.fld (TSK_TKk_ENTRY k) 31 2 * 4 = d.fld (TSK_TKk_ENTRY k) 31 2 * 4 := congrArg (wfld · 31 2 * 4) hr
    exact hrel ((taskReleaseWrite_releases h ((release1_allowed ha hb).trans (if_neg (not_not_intro hs)))).trans
      (congrArg (fun pc => (c.taskStarted k pc).done) hpc))
  · have hn : ¬(c.tskMode = 0 ∨ 4 < c.tskMode) := by
      change c.tskMode = 1 ∨ c.tskMode = 2 ∨ c.tskMode = 3 ∨ c.tskMode = 4 at h
      omega
    exact does_tskModeStop (regWrite_TSK_MODE.trans (tskModeRequest_stop.trans (congrArg Chip.done (if_neg hn))))
  · exact does_tskModeStop (regWrite_TSK_MODE.trans (tskModeRequest_stop.trans (congrArg Chip.done (if_pos h))))
  · exact does_tskModeRun (regWrite_TSK_MODE.trans (tskModeRequest_run.trans (congrArg Chip.done (if_pos h))))
  · exact does_tskModeRun (regWrite_TSK_MODE.trans (tskModeRequest_run.trans
      (congrArg Chip.done (if_neg (not_or.2 h)))))
  · exact does_tskModeTest (regWrite_TSK_MODE.trans (tskModeRequest_test.trans (congrArg Chip.done (if_pos h))))
  · exact does_tskModeTest (regWrite_TSK_MODE.trans (tskModeRequest_test.trans
      (congrArg Chip.done (if_neg (not_or.2 h)))))
  · have hs := (regWrite_TSK_MODE (c := c) (m := 0) (v := 1)).trans ((tskModeRequest_startup h).trans (congrArg Chip.done (setTskMode_startup he)))
    exact ⟨fun hr => does_tskModeStartup (hs.trans (congrArg Chip.done (if_pos hr))),
      fun hr => does_tskModeStartup (hs.trans (congrArg Chip.done (if_neg hr)))⟩
  · exact does_tskModeStartup (regWrite_TSK_MODE.trans (tskModeRequest_noStartup h))
  · refine hrpt ((stationReport_owned h).trans (if_neg ?_))
    change wfld v 31 30 = 0 ∨ wfld v 31 30 = 3 at hc
    omega
  · exact hrpt ((stationReport_owned h).trans ((if_pos (.inl hc)).trans (congrArg Chip.done (if_pos hc))))
  · refine hrpt ((stationReport_owned h).trans ((if_pos (.inr hc)).trans (congrArg Chip.done (if_neg ?_))))
    change wfld v 31 30 = 2 at hc
    omega

end Sys2Proof
end

section
/-!
PROOF. Forces, value changes and the program swap (R285, R288, R290, R291, R294).
-/
namespace Sys2Proof.Machine

variable {c d : Chip} {m f k : Nat} {v : W32} {b : Bool}

/-! ### Forces -/

theorem forceCtlWrite_other (h : m ≠ 0) : forceCtlWrite c m f v = c.refuse := if_pos h

theorem forceCtlWrite_sets (hm : m = 0) (h : wbit v 31 = true) : forceCtlWrite c m f v = (forceSet c f).done :=
  (if_neg (not_not_intro hm)).trans (congrArg Chip.done (if_pos h))

theorem forceCtlWrite_clears (hm : m = 0) (h : wbit v 31 = false) : forceCtlWrite c m f v = (forceClear c f).done :=
  (if_neg (not_not_intro hm)).trans (congrArg Chip.done (if_neg (Bool.eq_false_iff.1 h)))

/-- A force entry with its value as last written. -/
def Chip.forceValued (c : Chip) (f : Nat) : Chip := c.setReg (TSK_FCf_VAL_HI f) (c.stagedPart (TSK_FCf_VAL_HI f))

/-- Another entry forces the same variable. -/
def Chip.forcedTwice (c : Chip) (f : Nat) : Bool :=
  (List.range 64).any fun g => g != f && c.fcOn g && c.reg (TSK_FCf_ID g) == c.reg (TSK_FCf_ID f)

/-- The map's entry of the variable that a force entry names. -/
def Chip.forceTarget (c : Chip) (f : Nat) : Option VarEntry := c.mapFind (c.reg (TSK_FCf_ID f)).toNat

/-- A force refused. -/
def Chip.forceRefused (c : Chip) (f : Nat) : Chip := (c.setBit (TSK_FCf_CTL f) 31 false).tskCause 4

theorem forceSet_unknown (h : (c.forceValued f).forceTarget f = none) :
    forceSet c f = (c.forceValued f).forceRefused f := by
  unfold Chip.forceTarget Chip.forceValued at h
  unfold forceSet
  dsimp only
  rw [h]
  rfl

theorem forceSet_known {e : VarEntry} (h : (c.forceValued f).forceTarget f = some e) :
    forceSet c f =
      if e.kind ≠ 0 ∨ e.forceable = false ∨ e.simple = false ∨ (c.forceValued f).forcedTwice f = true then
        (c.forceValued f).forceRefused f
      else (((c.forceValued f).setReg (TSK_FCf_ADDR f) (w32 e.addr)).setReg (TSK_FCf_CTL f)
        (w32 (2 ^ 31 + e.size))).tskCause 13 := by
  unfold Chip.forceTarget Chip.forceValued at h
  unfold forceSet
  dsimp only
  rw [h]
  rfl

theorem forceClear_off (h : c.fcOn f = false) : forceClear c f = c := if_neg (Bool.eq_false_iff.1 h)

/-- The change that waited for a force entry, written to its variable. -/
def Chip.changeWritten (c : Chip) (f : Nat) : Chip :=
  c.ioWrite (c.reg (TSK_FCf_ADDR f)).toNat
    (leBytes (c.fld (TSK_FCf_CTL f) 3 0) (join64 (c.reg (TSK_FCf_CHG_HI f)) (c.reg (TSK_FCf_CHG_LO f))))

theorem forceClear_on (h : c.fcOn f = true) :
    forceClear c f = (if c.bit (TSK_FCf_CTL f) 30 then c.changeWritten f else c).forceDrop f := if_pos h

/-! ### Value changes -/

theorem vcCtlWrite_other (h : m ≠ 0) : vcCtlWrite c m v = c.refuse := if_pos h

theorem vcCtlWrite_applies (hm : m = 0) (h : wbit v 31 = false) (ha : wbit v 30 = true) :
    vcCtlWrite c m v = (vcApply c (wfld v 4 0) (wbit v 29)).done := by
  refine (if_neg (not_not_intro hm)).trans ?_
  rw [h, ha]
  rfl

theorem vcCtlWrite_pushes : vcCtlWrite c 0 0x80000000 = (vcPush c).done := rfl

theorem vcPush_waits (h : c.tsk.batch ≠ none) : vcPush c = c := if_pos (Option.isSome_iff_ne_none.2 h)

/-- A change staged behind the others. -/
def Chip.changeStaged (c : Chip) : Chip :=
  ({ c with tsk := { c.tsk with staged := c.tsk.staged ++
    [(⟨(c.reg TSK_VC_ID).toNat, join64 (c.stagedPart TSK_VC_HI) (c.reg TSK_VC_LO)⟩ : Change)] } }).setFld TSK_VC_STAT 5 0
      (c.tsk.staged.length + 1)

theorem vcPush_takes (h : c.tsk.batch = none) :
    vcPush c = if 32 ≤ c.tsk.staged.length then c.vcRefuse 5 else c.changeStaged := by
  have hb : ¬c.tsk.batch.isSome = true := by simp [h]
  exact (if_neg hb).trans rfl

/-- The staged changes with their entries of the map. -/
def Chip.stagedFound (c : Chip) : List (Change × Option VarEntry) := c.tsk.staged.map fun ch => (ch, c.mapFind ch.id)

/-- The first staged change that cannot be made. -/
def Chip.stagedFault (c : Chip) (b : Bool) : Option Nat := c.stagedFound.findSome? fun p => vcFault p.2 b

/-- The staged changes taken as a task's batch. -/
def Chip.batchTaken (c : Chip) (k : Nat) : Chip :=
  ({ c with tsk := { c.tsk with staged := [], batch := some ⟨k, c.stagedFound.filterMap fun (p : Change × Option VarEntry) =>
    p.2.map fun (e : VarEntry) => (p.1, e.addr, e.size)⟩ } }).setBit TSK_VC_STAT 31 true

theorem vcApply_waits (h : c.tsk.batch ≠ none) : vcApply c k b = c := if_pos (Option.isSome_iff_ne_none.2 h)

theorem vcApply_open (h : c.tsk.batch = none) : vcApply c k b =
    if c.tskMode = 0 ∨ c.tskMode = 4 ∨ c.bit (TSK_TKk_CFG k) 31 = false then c.vcRefuse 1
    else if c.tsk.staged = [] then c.vcRefuse 5
    else
      match c.stagedFault b with
      | some r => c.vcRefuse r
      | none => c.batchTaken k := by
  have hb : ¬c.tsk.batch.isSome = true := by simp [h]
  exact (if_neg hb).trans rfl

/-- A batch of this task can be taken: the mode runs it and the task is valid. -/
def Chip.batchLive (c : Chip) (k : Nat) : Prop :=
  c.tskMode ≠ 0 ∧ c.tskMode ≠ 4 ∧ c.bit (TSK_TKk_CFG k) 31 = true

theorem batchLive_iff : c.batchLive k ↔ ¬(c.tskMode = 0 ∨ c.tskMode = 4 ∨ c.bit (TSK_TKk_CFG k) 31 = false) := by
  unfold Chip.batchLive
  rw [not_or, not_or, Bool.not_eq_false]

theorem vcApply_fault (h : c.tsk.batch = none) (hl : c.batchLive k) (hs : c.tsk.staged ≠ []) {r : Nat}
    (hf : c.stagedFault b = some r) : vcApply c k b = c.vcRefuse r := by
  refine (vcApply_open h).trans ((if_neg (batchLive_iff.1 hl)).trans ((if_neg hs).trans ?_))
  rw [hf]

theorem vcApply_accepts (h : c.tsk.batch = none) (hl : c.batchLive k) (hs : c.tsk.staged ≠ [])
    (hf : c.stagedFault b = none) : vcApply c k b = c.batchTaken k := by
  refine (vcApply_open h).trans ((if_neg (batchLive_iff.1 hl)).trans ((if_neg hs).trans ?_))
  rw [hf]

/-! ### The swap -/

theorem swapGo_requested (h : c.tsk.swapReq = true) : swapGo c 0 1 = c.done := by
  refine (if_neg (by decide)).trans (if_pos ?_)
  rw [h, Bool.or_true]

theorem swapGo_asks (h : c.tsk.swapReq = false) : swapGo c 0 1 =
    if c.tskMode = 1 ∨ c.tskMode = 3 ∨ c.tskMode = 4 then { c with tsk := { c.tsk with swapReq := true } }.done
    else (c.setFld TSK_SWAP_STAT 31 29 1).done := by
  refine (if_neg (by decide)).trans (if_neg ?_)
  rw [h]
  decide

/-- A task is active, or a frame is evaluated or has a handover to make. -/
def Chip.swapBusy (c : Chip) : Bool :=
  ((List.range 32).any fun k => c.bit (TSK_TKk_STAT k) 31) ||
    ((List.range 8).any fun n => (c.fr n).evaluating || !(c.fr n).hands.isEmpty)

theorem swapQuietPoint_waits (h : c.tsk.swapReq = false ∨ c.swapBusy = true) : swapQuietPoint c = c := by
  refine if_pos ?_
  change (!c.tsk.swapReq || c.swapBusy) = true
  rcases h with h | h <;> simp [h]

/-- The map that a swap brings in. -/
def Chip.newMap (c : Chip) : Except AccErr (List VarEntry) × Chip :=
  c.readMap (c.fld TSK_SWAP_MAP 31 4 * 16) (c.fld TSK_SWAP_MAPN 15 0)

theorem swapQuietPoint_badMap (h : c.tsk.swapReq = true) (hb : c.swapBusy = false) {es : List VarEntry}
    (hm : c.newMap = (.ok es, d)) (ho : mapOk es = false) : swapQuietPoint c = d.swapEnd 2 0 0 := by
  refine (if_neg ?_).trans ?_
  · change ¬(!c.tsk.swapReq || c.swapBusy) = true
    rw [h, hb]
    exact Bool.false_ne_true
  · unfold Chip.newMap at hm
    rw [hm]
    dsimp only
    rw [ho]
    rfl

/-- The new map in force, and its tasks' entries. -/
def Chip.swapBound (d c : Chip) (tab : List Byte) : Chip :=
  (List.range 32).foldl (fun e k =>
    let w := w32 (leNat (bytesAt tab (4 * k) 4))
    (e.setReg (TSK_TKk_ENTRY k) (w &&& 0xFFFFFFFC)).setBit (TSK_TKk_CFG k) 31 (wbit w 0))
    ((d.setReg TSK_VMAP (c.reg TSK_SWAP_MAP)).setReg TSK_VMAPN (c.reg TSK_SWAP_MAPN))

/-- The variables carried over, until one fails: its RESULT, and the entries that do not match. -/
def Chip.mapCarried (c : Chip) (old new : List VarEntry) : Option Nat × Nat × Chip :=
  new.foldl (fun (acc : Option Nat × Nat × Chip) e => match acc.1 with
    | some _ => acc
    | none => acc.2.2.carryEntry old acc.2.1 e) (none, 0, c)

/-- The new edge detectors set from their sources, until one fails. -/
def edgesCarried (r : Option Nat × Chip) (old new : List VarEntry) : Option Nat × Chip :=
  new.foldl (fun (acc : Option Nat × Chip) e => match acc.1 with
    | some _ => acc
    | none => acc.2.carryEdge old new e) r

/-- The end of a swap that has carried the variables over. -/
def Chip.swapConcluded (c : Chip) (new : List VarEntry) (tab : List Byte) (mis : Nat) (x : Option Nat × Chip) : Chip :=
  match x.1 with
  | some r => x.2.swapEnd r mis 0
  | none => ((x.2.rebindForces new).2.swapBound c tab).swapEnd 0 mis (x.2.rebindForces new).1

theorem swapQuietPoint_read (h : c.tsk.swapReq = true) (hb : c.swapBusy = false) {new old : List VarEntry}
    {tab : List Byte} {d1 d2 d3 : Chip} (h1 : c.newMap = (.ok new, d1)) (ho : mapOk new = true)
    (h2 : d1.readMap (c.fld TSK_VMAP 31 4 * 16) (c.fld TSK_VMAPN 15 0) = (.ok old, d2))
    (h3 : d2.ioRead (c.fld TSK_SWAP_TASKS 31 2 * 4) 128 = (.ok tab, d3)) :
    swapQuietPoint c = c.swapConcluded new tab (d3.mapCarried old new).2.1
      (edgesCarried ((d3.mapCarried old new).1, (d3.mapCarried old new).2.2) old new) := by
  refine (if_neg ?_).trans ?_
  · change ¬(!c.tsk.swapReq || c.swapBusy) = true
    rw [h, hb]
    exact Bool.false_ne_true
  · unfold Chip.newMap at h1
    rw [h1]
    dsimp only
    rw [ho]
    refine (if_neg Bool.false_ne_true).trans ?_
    rw [h2]
    dsimp only
    rw [h3]
    rfl

theorem swapEnd_zero {mis rel : Nat} : c.swapEnd 0 mis rel =
    (({ c with tsk := { c.tsk with swapReq := false } }).setReg TSK_SWAP_STAT
      (w32 (at_ (satTo 4095 mis) 16 + rel))).tskCause 12 := by
  unfold Chip.swapEnd
  rw [show at_ 0 29 = 0 from rfl, Nat.zero_add]

theorem swapQuietPoint_commits (h : c.tsk.swapReq = true) (hb : c.swapBusy = false) {new old : List VarEntry}
    {tab : List Byte} {mis rel : Nat} {d1 d2 d3 d4 d5 d6 : Chip} (h1 : c.newMap = (.ok new, d1)) (ho : mapOk new = true)
    (h2 : d1.readMap (c.fld TSK_VMAP 31 4 * 16) (c.fld TSK_VMAPN 15 0) = (.ok old, d2))
    (h3 : d2.ioRead (c.fld TSK_SWAP_TASKS 31 2 * 4) 128 = (.ok tab, d3))
    (h4 : d3.mapCarried old new = (none, mis, d4)) (h5 : edgesCarried (none, d4) old new = (none, d5))
    (h6 : d5.rebindForces new = (rel, d6)) : swapQuietPoint c = (d6.swapBound c tab).swapEnd 0 mis rel := by
  rw [swapQuietPoint_read h hb h1 ho h2 h3, h4, h5]
  unfold Chip.swapConcluded
  rw [h6]

end Sys2Proof.Machine

namespace Sys2Proof
open Machine

/-- Settles O37: forces, changes and the swap, case by case. That a batch is refused and cleared whole and a push ignored
while one is busy (log entry 160), and that a refused swap raises no event (log entry 164), are the model's choices. -/
theorem forcesChangesAndSwaps : Obligations.ForcesChangesAndSwaps := by
  unfold Obligations.ForcesChangesAndSwaps
  intro m f v c i ctl cause valued twice target refused dropped vcRefused change pushed task const found fault accepted
    live swapEnds busy
  have hset {d} (g : forceCtlWrite c m.val i (v ||| 0x80000000) = d) : Does (.forceEntrySet m f v) c d :=
    does_forceEntrySet ((regWrite_TSK_FCf_CTL f).trans g)
  have hclr {d} (g : forceCtlWrite c m.val i (v &&& 0x7FFFFFFF) = d) : Does (.forceEntryClear m f v) c d :=
    does_forceEntryClear ((regWrite_TSK_FCf_CTL f).trans g)
  have happ {d} (g : vcCtlWrite c m.val (v ||| 0x40000000) = d) : Does (.vcApply m v) c d :=
    does_vcApply (regWrite_TSK_VC_CTL.trans g)
  have hpush {d} (g : vcPush c = d) : Does .vcPush c d.done :=
    does_vcPush (regWrite_TSK_VC_CTL.trans (vcCtlWrite_pushes.trans (congrArg Chip.done g)))
  have hsets {d} (hm : m.val = 0) (g : forceSet c i = d) : Does (.forceEntrySet m f v) c d.done :=
    hset ((forceCtlWrite_sets hm (wbit_or_of_right rfl)).trans (congrArg Chip.done g))
  have hclears {d} (hm : m.val = 0) (g : forceClear c i = d) : Does (.forceEntryClear m f v) c d.done :=
    hclr ((forceCtlWrite_clears hm (wbit_and_of_not_right rfl)).trans (congrArg Chip.done g))
  have happly {d} (hm : m.val = 0) (h : wbit v 31 = false) (g : vcApply c task const = d) :
      Does (.vcApply m v) c d.done := by
    have h31 : wbit (v ||| 0x40000000) 31 = false := (wbit_or_of_not_right rfl).trans h
    have h29 : wbit (v ||| 0x40000000) 29 = const := wbit_or_of_not_right rfl
    refine happ ((vcCtlWrite_applies hm h31 (wbit_or_of_right rfl)).trans (congrArg Chip.done ?_))
    rw [h29]
    exact g
  have hgo {d} (g : swapGo c 0 1 = d) : Does .swapGo c d := does_swapGo (regWrite_TSK_SWAP_CTL.trans g)
  have hnot {y : Bool} (h : y = false) : ¬y = true := by
    rw [h]
    exact Bool.false_ne_true
  refine ⟨fun h => ⟨hset (forceCtlWrite_other h), hclr (forceCtlWrite_other h), happ (vcCtlWrite_other h)⟩,
    fun hm h => hsets hm (forceSet_unknown h), fun hm e he => ⟨fun ho => ?_, fun ho => ?_⟩,
    fun hm h => hclears hm (forceClear_off h), fun hm h hb => ?_, fun hm h hb => ?_, fun h => hpush (vcPush_waits h),
    fun h hl => hpush ((vcPush_takes h).trans (if_neg (Nat.not_le.2 hl))),
    fun h hl => hpush ((vcPush_takes h).trans (if_pos hl)), fun hm h hb => happly hm h (vcApply_waits hb),
    fun hm h hb => ⟨fun hl => ?_, fun hl hs => ?_, fun hl hs => ⟨fun r hr => ?_, fun hr => ?_⟩⟩,
    fun h => hgo (swapGo_requested h), fun h hm => hgo ((swapGo_asks h).trans (if_pos hm)), fun h h1 h3 h4 => ?_,
    fun h => does_swapQuietPoint (swapQuietPoint_waits h), fun h hb es d hr ho => ?_, ?_⟩
  · refine hsets hm ((forceSet_known he).trans (if_neg ?_))
    obtain ⟨h1, h2, h3, h4⟩ := ho
    rintro (g | g | g | g)
    · exact g h1
    · exact Bool.false_ne_true (g.symm.trans h2)
    · exact Bool.false_ne_true (g.symm.trans h3)
    · exact hnot h4 g
  · refine hsets hm ((forceSet_known he).trans (if_pos ?_))
    refine Decidable.byContradiction fun hn => ?_
    simp only [not_or, Decidable.not_not, Bool.not_eq_false, Bool.not_eq_true] at hn
    exact ho hn
  · exact hclears hm ((forceClear_on h).trans (congrArg (Chip.forceDrop · i) (if_neg (hnot hb))))
  · exact hclears hm ((forceClear_on h).trans (congrArg (Chip.forceDrop · i) (if_pos hb)))
  · exact happly hm h ((vcApply_open hb).trans (if_pos (Decidable.not_not.1 (mt batchLive_iff.2 hl))))
  · exact happly hm h ((vcApply_open hb).trans ((if_neg (batchLive_iff.1 hl)).trans (if_pos hs)))
  · exact happly hm h (vcApply_fault hb hl hs hr)
  · exact happly hm h (vcApply_accepts hb hl hs hr)
  · refine hgo ((swapGo_asks h).trans (if_neg ?_))
    rintro (g | g | g)
    · exact h1 g
    · exact h3 g
    · exact h4 g
  · exact does_swapQuietPoint (swapQuietPoint_badMap h hb hr ho)
  · intro h hb new old tab mis rel d1 d2 d3 d4 d5 d6 h1 ho h2 h3 h4 h5 h6 mapped bound
    refine does_swapQuietPoint ((swapQuietPoint_commits h hb h1 ho h2 h3 h4 h5 h6).trans ?_)
    exact swapEnd_zero

end Sys2Proof
end

section
/-!
PROOF. Writes to an axis: its commands, position, phase and feedback (R301, R302, R305, R309, R321, R322, R535).
-/
namespace Sys2Proof.Machine

variable {c : Chip} {m n hi i : Nat} {v w : W32}

theorem wbit_of_wfld_zero (h : wfld w hi 0 = 0) (hi' : i ≤ hi) : wbit w i = false := by
  unfold wfld nfld at h
  have ht : (w.toNat / 2 ^ 0 % 2 ^ (hi + 1 - 0)).testBit i = false := by
    rw [h, Nat.zero_testBit]
  rw [Nat.testBit_mod_two_pow, Nat.pow_zero, Nat.div_one, Nat.sub_zero] at ht
  simpa [wbit, BitVec.getLsbD, Nat.lt_succ_of_le hi'] using ht

theorem bitCount_of_wfld_zero (h : wfld w hi 0 = 0) : bitCount w (hi + 1) = 0 := by
  refine List.length_eq_zero_iff.2 (List.filter_eq_nil_iff.2 fun i hi' => ?_)
  rw [wbit_of_wfld_zero h (Nat.lt_succ_iff.1 (List.mem_range.1 hi'))]
  exact Bool.false_ne_true

theorem axMaster_iff : c.axMaster n m = true ↔ m = 0 ∨ m = c.fld (AXn_OWNER n) 3 0 := by
  unfold Chip.axMaster
  rw [Bool.or_eq_true, beq_iff_eq, beq_iff_eq]

theorem axMaster_not (h : ¬(m = 0 ∨ m = c.fld (AXn_OWNER n) 3 0)) : (!c.axMaster n m) = true := by
  rw [Bool.not_eq_true', ← Bool.not_eq_true, axMaster_iff]
  exact h

theorem axMaster_of (h : m = 0 ∨ m = c.fld (AXn_OWNER n) 3 0) : ¬(!c.axMaster n m) = true := by
  rw [axMaster_iff.2 h]
  exact Bool.false_ne_true

/-! ### Commands -/

/-- A command with the values that it takes with it. -/
def Chip.axisOrder (c : Chip) (n : Nat) (w : W32) : MotCmd :=
  ⟨c.ltUs, w, c.pair (AXn_TGT_LO n), c.pair (AXn_VTGT_LO n), c.axisLims n, sext 32 (c.reg (AXn_GEARNUM n)).toNat,
    (c.reg (AXn_GEARDEN n)).toNat⟩

theorem axisCmdWrite_other (h : ¬(m = 0 ∨ m = c.fld (AXn_OWNER n) 3 0)) : axisCmdWrite c m n w = c.refuse :=
  if_pos (axMaster_not h)

theorem axisCmdWrite_many (h : m = 0 ∨ m = c.fld (AXn_OWNER n) 3 0) (hb : 1 < bitCount w 9) :
    axisCmdWrite c m n w = c.axRefused n :=
  (if_neg (axMaster_of h)).trans (if_pos hb)

theorem axisCmdWrite_one (h : m = 0 ∨ m = c.fld (AXn_OWNER n) 3 0) (hb : bitCount w 9 = 1) :
    axisCmdWrite c m n w = (c.setAx n { c.ax n with cmds := (c.ax n).cmds ++ [c.axisOrder n w] }).done := by
  have hle : ¬1 < bitCount w 9 := by omega
  have hne : wfld w 8 0 ≠ 0 := fun h0 => by
    rw [bitCount_of_wfld_zero h0] at hb
    exact Nat.zero_ne_one hb
  exact (if_neg (axMaster_of h)).trans ((if_neg hle).trans (if_neg hne))

/-! ### Positions, phases and feedback -/

theorem axRegWrite_cmd : axRegWrite c m n 0x8 v = axisCmdWrite c m n v := by simp [axRegWrite]

theorem axRegWrite_actin : axRegWrite c m n 0xC4 v = actinWrite c n v := by simp [axRegWrite]

theorem axRegWrite_setpos (h : m = 0 ∨ m = c.fld (AXn_OWNER n) 3 0) :
    axRegWrite c m n 0x88 v = setposCommit c m n v := by
  simp [axRegWrite, axMaster_iff.2 h]

theorem axRegWrite_phase (h : m = 0 ∨ m = c.fld (AXn_OWNER n) 3 0) :
    axRegWrite c m n 0x68 v = phaseCommit c m n v := by
  simp [axRegWrite, axMaster_iff.2 h]

theorem axRegWrite_other (h : ¬(m = 0 ∨ m = c.fld (AXn_OWNER n) 3 0)) {r : Nat} (hr : r = 0x88 ∨ r = 0x68) :
    axRegWrite c m n r v = c.refuse := by
  have ha := axMaster_not h
  rcases hr with rfl | rfl <;> simp [axRegWrite, ha]

theorem setposCommit_moving (h : m = 0 ∨ m = c.fld (AXn_OWNER n) 3 0) (hs : 2 ≤ c.axState n) :
    setposCommit c m n v = c.axRefused n := (if_neg (axMaster_of h)).trans (if_pos hs)

theorem phaseCommit_free (h : m = 0 ∨ m = c.fld (AXn_OWNER n) 3 0)
    (hs : (c.axState n ≠ 4 ∧ c.axState n ≠ 5) ∨ (c.ax n).bound = false) : phaseCommit c m n v = c.axRefused n :=
  (if_neg (axMaster_of h)).trans (if_pos hs)

/-- The raw feedback taken in. -/
def Chip.rawTaken (c : Chip) (n x : Nat) : Chip :=
  c.setAx n { c.ax n with xprev := some x, lastFb := (c.ltNs + 999) / 1000 }

theorem feedback_first {x : Nat} (h : (c.ax n).xprev = none) : c.feedback n x = c.rawTaken n x := by
  unfold Chip.feedback
  dsimp only
  rw [h]
  rfl

theorem feedback_next {x p : Nat} (h : (c.ax n).xprev = some p) :
    c.feedback n x = (c.rawTaken n x).setReg64 (AXn_ACTPOS_LO n) (wrap 64 (c.pair (AXn_ACTPOS_LO n) +
      sext (c.fld (AXn_FBCFG n) 5 0) (wrap (c.fld (AXn_FBCFG n) 5 0) ((x : Int) - p)) *
        sext 32 (c.reg (AXn_FBSCALE n)).toNat)) := by
  unfold Chip.feedback
  dsimp only
  rw [h]
  rfl

end Sys2Proof.Machine

namespace Sys2Proof
open Machine

/-- Settles O38: each axis command by the master and its number of command bits, then the three writes that act at
once. What a command or a feedback value takes with it (log entries 170, 171) is the model's choice. -/
theorem axisWritesAreRegistered : Obligations.AxisWritesAreRegistered := by
  unfold Obligations.AxisWritesAreRegistered
  intro m n v c k x st ours refused registered outcome sp pos at_ ph offset source bits got
  have hout {i w} (hi : ∀ {d}, regWrite c m.val (AXn_CMD n.val) w = d → Does i c d) : outcome i w := by
    have hcmd {d} (g : axisCmdWrite c m.val n.val w = d) : Does i c d :=
      hi ((regWrite_AXn_CMD n).trans (axRegWrite_cmd.trans g))
    exact ⟨fun h => hcmd (axisCmdWrite_other h), fun h hb => hcmd (axisCmdWrite_many h hb),
      fun h hb => hcmd (axisCmdWrite_one h hb)⟩
  have hpos {d} (h : ours) (g : setposCommit c m.val n.val v = d) : Does (.setposCommit m n v) c d :=
    does_setposCommit ((regWrite_AXn_SETPOS_LO n).trans ((axRegWrite_setpos h).trans g))
  have hph {d} (h : ours) (g : phaseCommit c m.val n.val v = d) : Does (.phaseCommit m n v) c d :=
    does_phaseCommit ((regWrite_AXn_PHASE_LO n).trans ((axRegWrite_phase h).trans g))
  have hin {d} (g : actinWrite c n.val v = d) : Does (.actinWrite m n v) c d :=
    does_actinWrite ((regWrite_AXn_ACTIN n).trans (axRegWrite_actin.trans g))
  refine ⟨hout does_axisEnable, hout does_axisDisable, hout does_axisMoveCmd, hout does_axisVelCmd,
    hout does_axisGearCmd, hout does_axisCamCmd, hout does_axisStopCmd, hout does_axisClearCmd,
    hout does_axisCamarmCmd, fun h => ⟨?_, ?_⟩, fun h hs => hpos h (setposCommit_moving h hs), fun h hs => hpos h ?_,
    fun h hs => hph h (phaseCommit_free h hs), fun h hs hb => hph h ?_, fun h => hin ?_, fun h hx => hin ?_,
    fun h p hx => hin ?_⟩
  · exact does_setposCommit ((regWrite_AXn_SETPOS_LO n).trans (axRegWrite_other h (.inl rfl)))
  · exact does_phaseCommit ((regWrite_AXn_PHASE_LO n).trans (axRegWrite_other h (.inr rfl)))
  · exact (if_neg (axMaster_of h)).trans (if_neg (Nat.not_le.2 hs))
  · refine (if_neg (axMaster_of h)).trans (if_neg ?_)
    rintro (⟨h4, h5⟩ | g)
    · exact hs.elim h4 h5
    · exact Bool.false_ne_true (g.symm.trans hb)
  · exact congrArg Chip.done (if_neg h)
  · exact congrArg Chip.done ((if_pos h).trans (feedback_first hx))
  · exact congrArg Chip.done ((if_pos h).trans (feedback_next hx))

end Sys2Proof
end

section
/-!
PROOF. Motion: the update instant, axis commands and faults, step generators and decoders (R300, R301, R303, R314, R315,
R317, R320, R323, R324).
-/
namespace Sys2Proof.Machine

variable {c d : Chip} {n m u cause : Nat} {k : MotCmd} {a b z : Bool} {stable : Nat}

/-! ### The update instant -/

theorem motDue_none (h : c.ltUs = c.mot.u) : c.motDue = none := if_pos h

theorem motDue_back (h : c.ltUs < c.mot.u) : c.motDue = some c.ltUs := (if_neg (Nat.ne_of_lt h)).trans (if_pos (.inl h))

theorem motDue_idle (h : c.mot.u < c.ltUs) (hi : ∀ i, i < 32 → c.axisIdle i = true) : c.motDue = some c.ltUs :=
  (if_neg (Nat.ne_of_gt h)).trans (if_pos (.inr (List.all_eq_true.2 fun i hi' => hi i (List.mem_range.1 hi'))))

theorem motDue_next (h : c.mot.u < c.ltUs) (hi : ∃ i, i < 32 ∧ c.axisIdle i = false) :
    c.motDue = some (c.mot.u + 1) := by
  refine (if_neg (Nat.ne_of_gt h)).trans (if_neg ?_)
  rintro (g | g)
  · exact absurd g (Nat.not_lt.2 (Nat.le_of_lt h))
  · obtain ⟨i, hi, hn⟩ := hi
    exact Bool.false_ne_true (hn.symm.trans (List.all_eq_true.1 g i (List.mem_range.2 hi)))

/-- Every axis takes the update instant `u`, and it counts. -/
def Chip.instantTaken (c : Chip) (u : Nat) : Chip :=
  let d := (List.range 32).foldl (fun e i => e.axisInstant i u) c
  { d with mot := { d.mot with u := u } }

theorem motionInstant_none (h : c.motDue = none) : motionInstant c = c := by
  unfold motionInstant
  rw [h]

theorem motionInstant_due (h : c.motDue = some u) : motionInstant c = c.instantTaken u := by
  unfold motionInstant
  rw [h]
  rfl

theorem axisInstant_idle (h : c.axisIdle n = true) : c.axisInstant n u = c := if_pos h

theorem foldl_axisInstant_idle (is : List Nat) (h : ∀ i, i ∈ is → c.axisIdle i = true) :
    is.foldl (fun e i => e.axisInstant i u) c = c := by
  induction is with
  | nil => rfl
  | cons i is ih =>
    rw [List.foldl_cons, axisInstant_idle (h i List.mem_cons_self)]
    exact ih fun j hj => h j (List.mem_cons_of_mem i hj)

theorem instantTaken_idle (h : ∀ i, i < 32 → c.axisIdle i = true) :
    c.instantTaken u = { c with mot := { c.mot with u := u } } := by
  unfold Chip.instantTaken
  rw [foldl_axisInstant_idle _ fun i hi => h i (List.mem_range.1 hi)]

/-! ### Commands at the update instant -/

theorem axisCommand_enable (hw : k.word = 0x1) : c.axisCommand n u k =
    if c.axState n = 0 ∧ c.reg64 (AXn_SDEC_LO n) ≠ 0 ∧ c.reg64 (AXn_SJERK_LO n) ≠ 0 then
      (c.setAx n { c.ax n with
        plan := .hold (if c.fld (AXn_CFG n) 29 28 = 0 then (c.ax n).plan.fin.p else ofPos (c.pair (AXn_ACTPOS_LO n)))
        bound := false, xprev := none, lastFb := u, devCnt := 0 }).setAxState n 1
    else c.axCause n 3 := by
  unfold Chip.axisCommand
  dsimp only
  rw [hw]
  exact if_pos (by decide)

theorem axisCommand_disable (hw : k.word = 0x2) : c.axisCommand n u k =
    if c.axState n = 1 ∨ (c.axState n = 7 ∧ c.bit (AXn_STAT n) 31) then c.setAxState n 0 else c.axCause n 3 := by
  unfold Chip.axisCommand
  dsimp only
  rw [hw]
  exact (if_neg (by decide)).trans (if_pos (by decide))

theorem axisCommand_move (hw : k.word = 0x4) (h1 : c.axState n ≠ 1) (h2 : c.axState n ≠ 2) (h3 : c.axState n ≠ 3) :
    c.axisCommand n u k = c.axCause n 3 := by
  unfold Chip.axisCommand
  dsimp only
  rw [hw]
  refine (if_neg (by decide)).trans ((if_neg (by decide)).trans ((if_pos (by decide)).trans (if_neg ?_)))
  rintro ⟨g | g | g, -⟩
  · exact h1 g
  · exact h2 g
  · exact h3 g

theorem axisCommand_stop (hw : k.word = 0x40) (h : c.axState n < 2 ∨ 5 < c.axState n) :
    c.axisCommand n u k = c.axCause n 3 := by
  unfold Chip.axisCommand
  dsimp only
  rw [hw]
  refine (if_neg (by decide)).trans ((if_neg (by decide)).trans ((if_neg (by decide)).trans ((if_neg (by decide)).trans
    ((if_neg (by decide)).trans ((if_pos (by decide)).trans (if_neg ?_))))))
  omega

theorem axisCommand_clear (hw : k.word = 0x80) (h : c.axState n = 7 ∧ c.bit (AXn_STAT n) 31 = true) :
    c.axisCommand n u k = (c.setAxState n 1).setFld (AXn_STAT n) 11 8 0 := by
  unfold Chip.axisCommand
  dsimp only
  rw [hw]
  exact (if_neg (by decide)).trans ((if_neg (by decide)).trans ((if_neg (by decide)).trans ((if_neg (by decide)).trans
    ((if_neg (by decide)).trans ((if_neg (by decide)).trans ((if_pos (by decide)).trans (if_pos h)))))))

/-! ### Faults -/

theorem axisFault_none {s : Motion} (h : c.axState n = 0 ∨ c.axState n = 7) : c.axisFault n u cause s = c := if_pos h

theorem axisFault_stopping {s : Motion} (h : c.axState n = 6) : c.axisFault n u cause s =
    (((c.setAxState n 7).setFld (AXn_STAT n) 11 8 cause).setAx n { c.ax n with devCnt := 0 }).axCause n 2 := by
  have hne : ¬(c.axState n = 0 ∨ c.axState n = 7) := by omega
  refine (if_neg hne).trans ?_
  rw [if_pos h]
  rfl

theorem axisFaultDue_none (h : c.motDue = none) : axisFaultDue c n cause = c := by
  unfold axisFaultDue
  rw [h]

theorem axisFaultDue_some (h : c.motDue = some u) : axisFaultDue c n cause =
    if c.axState n ≠ 7 ∧ (c.axisBegin n u).axState n = 7 ∧ (c.axisBegin n u).fld (AXn_STAT n) 11 8 = cause then
      c.axisBegin n u else c := by
  unfold axisFaultDue
  rw [h]

/-! ### Step generators -/

theorem stepRuns_iff : c.stepRuns m = true ↔
    c.bit (STm_CFG m) 31 = true ∧ c.axState (c.fld (STm_CFG m) 20 16) ≠ 0 ∧
      c.fld (AXn_CFG (c.fld (STm_CFG m) 20 16)) 31 30 = 2 := by
  unfold Chip.stepRuns
  rw [Bool.and_eq_true, Bool.and_eq_true, bne_iff_ne, beq_iff_eq, and_assoc]

theorem stepPulse_stands (h : c.stepRuns m = false) : stepPulse c m = c := by
  refine if_pos ?_
  rw [h]
  rfl

theorem stepPulse_none (h : c.stepRuns m = true) (hd : c.stepDue m = none) : stepPulse c m = c.setReg (STm_LAG m) 0 := by
  unfold stepPulse
  rw [h, hd]
  rfl

/-- The instant at which the DIR pin shows a step's direction. -/
def Chip.dirTurn (c : Chip) (m : Nat) (fwd : Bool) (due : Nat) : Nat :=
  let gen := c.stepGen m
  if gen.fwd = fwd then gen.dirAt else max (due - c.fld (STm_TIM m) 15 8) (gen.after (c.fld (STm_TIM m) 23 16))

theorem dirInstant_stepGen (fwd : Bool) (due : Nat) : c.dirInstant m (c.stepGen m) fwd due = c.dirTurn m fwd due :=
  ite_congr (propext beq_iff_eq) (fun _ => rfl) fun _ => rfl

/-- A generator with its DIR pin turned for a step, where the instant for it has come. -/
def Chip.turnedFor (c : Chip) (m : Nat) (fwd : Bool) (due : Nat) : StepGen :=
  let at_ := c.dirTurn m fwd due
  if at_ ≤ c.lt / 262144 then { c.stepGen m with fwd := fwd, dirAt := at_ } else c.stepGen m

theorem stepTurned_due {fwd : Bool} {due : Nat} (h : c.stepRuns m = true) (hd : c.stepDue m = some (fwd, due)) :
    c.stepTurned m = c.turnedFor m fwd due := by
  unfold Chip.stepTurned
  rw [h, hd]
  dsimp only
  rw [if_pos rfl]
  dsimp only
  rw [dirInstant_stepGen]
  rfl

theorem dirInstant_turned (fwd : Bool) (due : Nat) :
    c.dirInstant m (c.turnedFor m fwd due) fwd due = c.dirTurn m fwd due := by
  unfold Chip.turnedFor
  dsimp only
  split
  · exact if_pos (beq_self_eq_true fwd)
  · exact dirInstant_stepGen fwd due

theorem after_turned (fwd : Bool) (due t : Nat) : (c.turnedFor m fwd due).after t = (c.stepGen m).after t := by
  unfold Chip.turnedFor
  dsimp only
  split <;> rfl

/-- The first instant, in 4 ns units, at which the spacings allow the step. -/
def Chip.stepAllowed (c : Chip) (m : Nat) (fwd : Bool) (due : Nat) : Nat :=
  max (c.dirTurn m fwd due + c.fld (STm_TIM m) 15 8)
    ((c.stepGen m).after (max 32 (2 * c.fld (STm_TIM m) 7 0)))

/-- OVERSPEED flagged where the step must wait. -/
def Chip.stepFlagged (d : Chip) (m due allowed ax : Nat) : Chip :=
  if due < allowed then (d.setBit (STm_FLAGS m) 0 true).axCause ax 4 else d

/-- The step placed, and the generator's position with it. -/
def Chip.stepPlaced (c : Chip) (m : Nat) (fwd : Bool) (due allowed : Nat) : Chip :=
  (((c.setStepGen m (c.turnedFor m fwd due)).setStepGen m
    ⟨fwd, c.dirTurn m fwd due, some (max due allowed), due⟩).setReg (STm_POS m)
      (w32i (sext 32 (c.reg (STm_POS m)).toNat + (if fwd then 1 else -1))))

theorem stepPlaced_axis {fwd : Bool} {due allowed : Nat} :
    (c.stepPlaced m fwd due allowed).fld (STm_CFG m) 20 16 = c.fld (STm_CFG m) 20 16 := by
  have hne : STm_CFG m ≠ STm_POS m := by
    unfold STm_CFG STm_POS
    omega
  unfold Chip.stepPlaced
  exact congrArg (wfld · 20 16) (Chip.reg_setReg_other _ _ hne)

theorem stepPulse_due {fwd : Bool} {due : Nat} (h : c.stepRuns m = true) (hd : c.stepDue m = some (fwd, due)) :
    stepPulse c m =
      let allowed := c.stepAllowed m fwd due
      let turned := c.setStepGen m (c.turnedFor m fwd due)
      let ax := c.fld (STm_CFG m) 20 16
      let placed := (c.stepPlaced m fwd due allowed).stepFlagged m due allowed ax
      if c.lt / 262144 < due then turned
      else if c.lt / 262144 < max due allowed then
        (turned.stepFlagged m due allowed ax).setReg (STm_LAG m) (w32 (c.stepsOwed m))
      else placed.setReg (STm_LAG m) (w32 (placed.stepsOwed m)) := by
  unfold stepPulse
  rw [h, hd]
  refine (if_neg Bool.false_ne_true).trans ?_
  dsimp only
  rw [stepTurned_due h hd, dirInstant_turned, after_turned]
  have hp : ∀ e : Chip, e.fld (STm_CFG m) 20 16 = c.fld (STm_CFG m) 20 16 →
      (if due < c.stepAllowed m fwd due then (e.setBit (STm_FLAGS m) 0 true).axCause (e.fld (STm_CFG m) 20 16) 4 else e) =
        e.stepFlagged m due (c.stepAllowed m fwd due) (c.fld (STm_CFG m) 20 16) := by
    intro e he
    rw [he]
    rfl
  have hpl := hp (c.stepPlaced m fwd due (c.stepAllowed m fwd due)) stepPlaced_axis
  have htu := hp (c.setStepGen m (c.turnedFor m fwd due)) rfl
  unfold Chip.stepAllowed at hpl htu ⊢
  unfold Chip.stepPlaced at hpl ⊢
  rw [hpl, htu]

/-! ### Decoders -/

/-- A decoder with other levels. -/
def Chip.setQuad (c : Chip) (m : Nat) (q : QuadDec) : Chip :=
  { c with mot := { c.mot with quads := tblSet .reset c.mot.quads m q } }

def Chip.quad (c : Chip) (m : Nat) : QuadDec := tblGet .reset c.mot.quads m

/-- A decoder counts levels that have stood for its filter's time. -/
def Chip.quadCounts (c : Chip) (m stable : Nat) : Prop :=
  c.bit (QEm_CFG m) 31 = true ∧ c.fld (QEm_CFG m) 29 26 * 4 ≤ stable

theorem quadTransition_not (h : ¬c.quadCounts m stable) : quadTransition c m a b stable = c := by
  refine if_pos ?_
  unfold Chip.quadCounts at h
  rw [Classical.not_and_iff_not_or_not, Bool.not_eq_true, Nat.not_le] at h
  exact h.elim .inl fun g => .inr (.inl g)

theorem quadTransition_same (ha : a = (c.quad m).a) (hb : b = (c.quad m).b) : quadTransition c m a b stable = c :=
  if_pos (.inr (.inr ⟨ha, hb⟩))

theorem quadTransition_both (h : c.quadCounts m stable) (ha : a ≠ (c.quad m).a) (hb : b ≠ (c.quad m).b) :
    quadTransition c m a b stable =
      (c.setQuad m { c.quad m with a := a, b := b }).setBit (QEm_FLAGS m) 0 true := by
  obtain ⟨h1, h2⟩ := h
  refine (if_neg ?_).trans (if_pos ⟨ha, hb⟩)
  rintro (g | g | g)
  · exact Bool.false_ne_true (g.symm.trans h1)
  · exact absurd g (Nat.not_lt.2 h2)
  · exact ha g.1

/-- A transition of one level counted. -/
def Chip.quadCounted (c : Chip) (m : Nat) (a b : Bool) : Chip :=
  let up := (a != (c.quad m).b) != c.bit (QEm_CFG m) 30
  (c.setQuad m { c.quad m with a := a, b := b, last := some c.ltNs }).setReg (QEm_CNT m)
    (if up then c.reg (QEm_CNT m) + 1 else c.reg (QEm_CNT m) - 1)

/-- A transition that came sooner than 20 ns after the last. -/
def Chip.quadHasty (c : Chip) (m : Nat) : Bool :=
  match (c.quad m).last with
  | some l => decide (c.ltNs < l + 20)
  | none => false

theorem quadTransition_one (h : c.quadCounts m stable)
    (hc : (a ≠ (c.quad m).a ∧ b = (c.quad m).b) ∨ (a = (c.quad m).a ∧ b ≠ (c.quad m).b)) :
    quadTransition c m a b stable =
      if c.quadHasty m then (c.quadCounted m a b).setBit (QEm_FLAGS m) 1 true else c.quadCounted m a b := by
  obtain ⟨h1, h2⟩ := h
  have hn : ¬(c.bit (QEm_CFG m) 31 = false ∨ stable < c.fld (QEm_CFG m) 29 26 * 4 ∨
      (a = (c.quad m).a ∧ b = (c.quad m).b)) := by
    rintro (g | g | ⟨ga, gb⟩)
    · exact Bool.false_ne_true (g.symm.trans h1)
    · exact absurd g (Nat.not_lt.2 h2)
    · exact hc.elim (fun hc => hc.1 ga) fun hc => hc.2 gb
  have hb : ¬(a ≠ (c.quad m).a ∧ b ≠ (c.quad m).b) := by
    rintro ⟨ga, gb⟩
    exact hc.elim (fun hc => gb hc.2) fun hc => ga hc.1
  refine (if_neg hn).trans ((if_neg hb).trans ?_)
  unfold Chip.quadHasty Chip.quad
  cases hl : (tblGet .reset c.mot.quads m).last with
  | none => rfl
  | some l =>
    by_cases hlt : c.ltNs < l + 20
    · exact (if_pos hlt).trans (if_pos (decide_eq_true hlt)).symm
    · exact (if_neg hlt).trans (if_neg (mt of_decide_eq_true hlt)).symm

theorem quadIndex_not (h : ¬c.quadCounts m stable) : quadIndex c m z stable = c := by
  refine if_pos ?_
  unfold Chip.quadCounts at h
  rw [Classical.not_and_iff_not_or_not, Bool.not_eq_true, Nat.not_le] at h
  exact h.elim .inl fun g => .inr (.inl g)

theorem quadIndex_same (hz : z = (c.quad m).z) : quadIndex c m z stable = c := if_pos (.inr (.inr hz))

theorem quadIndex_new (h : c.quadCounts m stable) (hz : z ≠ (c.quad m).z) : quadIndex c m z stable =
    if z && c.bit (QEm_CFG m) 25 then
      ((c.setQuad m { c.quad m with z := z }).setReg (QEm_IDX m) (c.reg (QEm_CNT m))).setBit (QEm_FLAGS m) 2 true
    else c.setQuad m { c.quad m with z := z } := by
  obtain ⟨h1, h2⟩ := h
  refine if_neg ?_
  rintro (g | g | g)
  · exact Bool.false_ne_true (g.symm.trans h1)
  · exact absurd g (Nat.not_lt.2 h2)
  · exact hz g

end Sys2Proof.Machine

namespace Sys2Proof
open Machine

/-- Settles O39: the update instant, the commands and faults at it, step generators and decoders, case by case. The step
back of line time (log entry 27) and the instant at which DIR turns (log entry 46) are the model's choices. -/
theorem motionFollowsItsUpdateInstants : Obligations.MotionFollowsItsUpdateInstants := by
  unfold Obligations.MotionFollowsItsUpdateInstants
  intro n g q a b z stable u k c ax x st refused source restPos stepAx gen after tim now steps dec keep counts up moved
  have hnot {y : Bool} (h : y = false) : ¬y = true := by
    rw [h]
    exact Bool.false_ne_true
  refine ⟨fun h => does_motionUpdateInstant (motionInstant_none (motDue_none h)),
    fun h => does_motionUpdateInstant (motionInstant_due (motDue_back h)),
    fun h hi => does_motionUpdateInstant ((motionInstant_due (motDue_idle h hi)).trans (instantTaken_idle hi)),
    fun h hi => does_motionUpdateInstant (motionInstant_due (motDue_next h hi)), fun hw h => ?_, fun hw h0 h1 h2 => ?_,
    fun hw h => (axisCommand_disable hw).trans (if_pos h), fun hw h7 hb => axisCommand_clear hw ⟨h7, hb⟩,
    fun hw h1 h2 h3 => axisCommand_move hw h1 h2 h3, fun hw h => axisCommand_stop hw h,
    fun cause s h => axisFault_none h, fun cause s h => axisFault_stopping h,
    fun h => ⟨does_feedbackStale (axisFaultDue_none h), does_deviationFault (axisFaultDue_none h)⟩, fun w hw => ?_,
    fun h => ?_, fun h1 h2 h3 => ?_,
    fun h => ⟨does_quadratureTransition (quadTransition_not h), does_quadratureIndex (quadIndex_not h)⟩,
    fun ha hb => does_quadratureTransition (quadTransition_same ha hb),
    fun h ha hb => does_quadratureTransition (quadTransition_both h ha hb), fun h hc => ?_,
    fun h => does_quadratureIndex (quadIndex_same h), fun h hz => ⟨fun hi => ?_, fun hz' hi => ?_⟩⟩
  · refine (axisCommand_enable hw).trans (if_neg ?_)
    rintro ⟨h0, h1, h2⟩
    rcases h with h | h | h
    · exact h h0
    · exact h1 h
    · exact h2 h
  · exact (axisCommand_enable hw).trans (if_pos ⟨h0, h1, h2⟩)
  · intro d
    refine ⟨fun h1 h2 h3 => does_feedbackStale ((axisFaultDue_some hw).trans (if_pos ⟨h1, h2, h3⟩)),
      fun h1 h2 h3 => does_deviationFault ((axisFaultDue_some hw).trans (if_pos ⟨h1, h2, h3⟩)), fun h => ?_⟩
    have hn {i} : ¬(c.axState ax ≠ 7 ∧ d.axState ax = 7 ∧ d.fld (AXn_STAT ax) 11 8 = i) := by
      rintro ⟨g1, g2, -⟩
      exact h.elim g1 fun h => h g2
    exact ⟨does_feedbackStale ((axisFaultDue_some hw).trans (if_neg hn)),
      does_deviationFault ((axisFaultDue_some hw).trans (if_neg hn))⟩
  · refine does_stepPulse (stepPulse_stands (Bool.eq_false_iff.2 fun hr => ?_))
    obtain ⟨g1, g2, g3⟩ := stepRuns_iff.1 hr
    rcases h with h | h | h
    · exact hnot h g1
    · exact g2 h
    · exact h g3
  · have hr := stepRuns_iff.2 ⟨h1, h2, h3⟩
    refine ⟨fun hd => does_stepPulse (stepPulse_none hr hd), fun fwd due hd => ?_⟩
    intro dirAt allowed turned flagged pos placed
    have hs := stepPulse_due hr hd
    have hn : due ≤ now → ¬now < due := Nat.not_lt.2
    refine ⟨fun hl => does_stepPulse (hs.trans (if_pos hl)), fun hl ha => ?_, fun hl ha => ?_⟩
    · exact does_stepPulse (hs.trans ((if_neg (hn hl)).trans (if_pos (Nat.lt_of_lt_of_le ha (Nat.le_max_right _ _)))))
    · exact does_stepPulse (hs.trans ((if_neg (hn hl)).trans (if_neg (Nat.not_lt.2 (Nat.max_le.2 ⟨hl, ha⟩)))))
  · have he := quadTransition_one h hc
    refine ⟨fun hl => does_quadratureTransition (he.trans (if_neg ?_)),
      fun l hl hlt => does_quadratureTransition (he.trans (if_pos ?_))⟩
    · unfold Chip.quadHasty
      split
      next l hq => simpa using hl l hq
      · exact Bool.false_ne_true
    · unfold Chip.quadHasty
      rw [show (c.quad q.val).last = some l from hl]
      exact decide_eq_true hlt
  · refine does_quadratureIndex ((quadIndex_new h hz).trans (if_neg ?_))
    rw [Bool.and_eq_true]
    rintro ⟨g1, g2⟩
    exact hi.elim (fun hi => hnot hi g1) fun hi => hnot hi g2
  · refine does_quadratureIndex ((quadIndex_new h hz).trans (if_pos ?_))
    rw [Bool.and_eq_true]
    exact ⟨hz', hi⟩

end Sys2Proof
end

section
/-!
PROOF. Skippers: what leaves a Skipper's place in its program, the frame of its instructions, and the single instructions
(R331 to R339, R342).
-/
namespace Sys2Proof.Machine

variable {c d e : Chip} {n a i : Nat} {levels : W32}

/-! ### A Skipper's place in its program -/

/-- The PC and the program range of Skipper `n` are in `d` as in `c`. -/
structure SkPlace (n : Nat) (c d : Chip) : Prop where
  pc : d.skPc n = c.skPc n
  range : d.reg (SKn_RANGE n) = c.reg (SKn_RANGE n)

/-- A register whose offset is neither SKn_STAT's nor SKn_RANGE's. -/
def SkAside (a : Nat) : Prop := a % 128 ≠ 4 ∧ a % 128 ≠ 16

theorem SkAside.ne_stat (h : SkAside a) : SKn_STAT n ≠ a := by
  obtain ⟨h, -⟩ := h
  unfold SKn_STAT
  omega

theorem SkAside.ne_range (h : SkAside a) : SKn_RANGE n ≠ a := by
  obtain ⟨-, h⟩ := h
  unfold SKn_RANGE
  omega

theorem skAside_evcause : SkAside (SKn_EVCAUSE n) := by
  unfold SkAside SKn_EVCAUSE
  omega

theorem skAside_d : SkAside (SKn_D n) := by
  unfold SkAside SKn_D
  omega

theorem skAside_c : SkAside (SKn_C n) := by
  unfold SkAside SKn_C
  omega

theorem skAside_shi : SkAside (SKn_SHI n) := by
  unfold SkAside SKn_SHI
  omega

theorem skAside_sho : SkAside (SKn_SHO n) := by
  unfold SkAside SKn_SHO
  omega

theorem skAside_stampLo : SkAside (SKn_STAMP_LO n) := by
  unfold SkAside SKn_STAMP_LO
  omega

theorem skAside_stampHi : SkAside (SKn_STAMP_LO n + 4) := by
  unfold SkAside SKn_STAMP_LO
  omega

theorem skAside_irq : SkAside (SKn_IRQ n) := by
  unfold SkAside SKn_IRQ
  omega

theorem skAside_flagset : SkAside (SCc_FLAGSET n) := by
  unfold SkAside SCc_FLAGSET
  omega

namespace SkPlace

theorem refl (c : Chip) : SkPlace n c c := ⟨rfl, rfl⟩

theorem trans (h : SkPlace n c d) (g : SkPlace n d e) : SkPlace n c e := ⟨g.pc.trans h.pc, g.range.trans h.range⟩

theorem ite {q : Prop} [Decidable q] (h : SkPlace n c d) (g : SkPlace n c e) : SkPlace n c (if q then d else e) := by
  split
  · exact h
  · exact g

theorem ofRegs (h : d.regs = c.regs) : SkPlace n c d :=
  ⟨congrArg (wfld · 23 16) (KeepsReg.ofRegs h), KeepsReg.ofRegs h⟩

theorem setReg (h : SkAside a) (w : W32) (c : Chip) : SkPlace n c (c.setReg a w) :=
  ⟨congrArg (wfld · 23 16) (Chip.reg_setReg_other _ _ h.ne_stat), Chip.reg_setReg_other _ _ h.ne_range⟩

theorem setFld (h : SkAside a) (hi lo x : Nat) (c : Chip) : SkPlace n c (c.setFld a hi lo x) := setReg h _ c

theorem setBit (h : SkAside a) (i : Nat) (b : Bool) (c : Chip) : SkPlace n c (c.setBit a i b) := setReg h _ c

theorem setReg64 (h : SkAside a) (h4 : SkAside (a + 4)) (x : Nat) (c : Chip) : SkPlace n c (c.setReg64 a x) :=
  (setReg h _ c).trans ((setReg h4 _ _).trans (ofRegs rfl))

theorem range_ne_stat : SKn_RANGE n ≠ SKn_STAT n := by
  unfold SKn_RANGE SKn_STAT
  omega

/-- A status field below the PC. -/
theorem statFld {hi lo : Nat} (h : lo ≤ hi) (hi' : hi < 16) (x : Nat) (c : Chip) :
    SkPlace n c (c.setFld (SKn_STAT n) hi lo x) := by
  refine ⟨?_, Chip.reg_setReg_other _ _ range_ne_stat⟩
  refine (congrArg (wfld · 23 16) (Chip.reg_setReg_same c _ _)).trans ?_
  exact wfld_wsetFld_above _ _ _ _ _ _ h (by omega) hi'

/-- A status bit above the PC. -/
theorem statBit (h : 23 < i) (hi : i < 32) (b : Bool) (c : Chip) : SkPlace n c (c.setBit (SKn_STAT n) i b) := by
  refine ⟨?_, Chip.reg_setReg_other _ _ range_ne_stat⟩
  refine (congrArg (wfld · 23 16) (Chip.reg_setReg_same c _ _)).trans ?_
  exact wfld_wsetFld_below _ _ _ _ _ _ (Nat.le_refl _) hi h

theorem cause (hn : n < 32) (i : Nat) (c : Chip) : SkPlace n c (c.flag (SKn_EVCAUSE n) i (288 + n)) := by
  have hs : SKn_STAT n ≠ EVT_PEND ((288 + n) / 32) := by
    unfold SKn_STAT EVT_PEND
    omega
  have hr : SKn_RANGE n ≠ EVT_PEND ((288 + n) / 32) := by
    unfold SKn_RANGE EVT_PEND
    omega
  exact (setBit skAside_evcause i true c).trans
    ⟨congrArg (wfld · 23 16) (KeepsReg.raise hs _), KeepsReg.raise hr _⟩

end SkPlace

/-- `d` with the PC on by one in the program of `c`. -/
def Chip.skNext (c d : Chip) (n : Nat) : Chip := d.setFld (SKn_STAT n) 23 16
  (if c.skPc n = c.fld (SKn_RANGE n) 15 8 then c.fld (SKn_RANGE n) 7 0 else (c.skPc n + 1) % 256)

theorem skAdvance_eq (h : SkPlace n c d) : d.skAdvance n = c.skNext d n := by
  unfold Chip.skAdvance Chip.skNext Chip.setSkPc Chip.fld
  rw [h.pc, h.range]

/-! ### The frame of every instruction -/

/-- A Skipper clock has ended, in which the Skipper may complete an instruction. -/
def Chip.skClocked (c : Chip) (n : Nat) : Prop :=
  (c.sk n).clk < c.skClocks n ∧ (c.skEn n = true ∨ c.skClocks n = (c.sk n).stopClk)

theorem skRuns_iff : c.skRuns n = true ↔ c.skClocked n := by
  unfold Chip.skRuns Chip.skClocked
  rw [Bool.and_eq_true, Bool.or_eq_true, decide_eq_true_iff, decide_eq_true_iff]

/-- The Skipper may begin an instruction: it runs, and neither waits nor stalls. -/
def Chip.skIdle (c : Chip) (n : Nat) : Prop :=
  c.skClocked n ∧ c.bit (SKn_STAT n) 30 = false ∧ c.bit (SKn_STAT n) 31 = false

theorem skIdle_iff :
    (c.skRuns n && !c.bit (SKn_STAT n) 30 && !c.bit (SKn_STAT n) 31) = true ↔ c.skIdle n := by
  unfold Chip.skIdle
  rw [Bool.and_eq_true, Bool.and_eq_true, skRuns_iff, Bool.not_eq_true', Bool.not_eq_true', and_assoc]

theorem windowIn_skIdle (cl : Nat) : (c.windowIn cl levels).skIdle n ↔ c.skIdle n := Iff.rfl

variable {op : Nat} {f : Chip → Nat → Chip}

theorem skInsn_busy (h : ¬c.skIdle n) : c.skInsn n op f = c := if_neg (mt skIdle_iff.1 h)

theorem skInsn_illegal (h : c.skIdle n) (ho : nfld (c.skWord n) 15 12 = op ∨ 10 ≤ nfld (c.skWord n) 15 12)
    (hl : skLegal (c.skWord n) = false) : c.skInsn n op f = (c.skUseClock n).skIllegal n :=
  (if_pos (skIdle_iff.2 h)).trans ((if_pos ho).trans (if_neg (Bool.eq_false_iff.1 hl)))

/-- The Skipper executes the operation `op` now. -/
def Chip.skDoes (c : Chip) (n op : Nat) : Prop :=
  c.skIdle n ∧ nfld (c.skWord n) 15 12 = op ∧ skLegal (c.skWord n) = true

theorem skInsn_does (h : c.skDoes n op) : c.skInsn n op f = f (c.skUseClock n) (c.skWord n) := by
  obtain ⟨hi, ho, hl⟩ := h
  exact (if_pos (skIdle_iff.2 hi)).trans ((if_pos (.inl ho)).trans (if_pos hl))

theorem windowIn_skDoes (cl : Nat) : (c.windowIn cl levels).skDoes n op ↔ c.skDoes n op := Iff.rfl

/-! ### The clock taken -/

theorem sk_setSk (s : SkRun) : (c.setSk n s).sk n = s := tblGet_set_same _ _ _ _

theorem skUseClock_sk : (c.skUseClock n).sk n = { c.sk n with clk := c.skClocks n } := sk_setSk _

theorem skUseClock_feed : ((c.skUseClock n).sk n).feed = (c.sk n).feed := by rw [skUseClock_sk]

theorem skUseClock_skClocks : (c.skUseClock n).skClocks n = c.skClocks n := by
  have h : ((c.skUseClock n).sk n).enAt = (c.sk n).enAt := by rw [skUseClock_sk]
  unfold Chip.skClocks
  rw [h]
  rfl

theorem skUseClock_skStart : (c.skUseClock n).skStart n = c.skStart n := by
  have h : ((c.skUseClock n).sk n).enAt = (c.sk n).enAt := by rw [skUseClock_sk]
  unfold Chip.skStart Chip.skEdge
  rw [h, skUseClock_skClocks]
  rfl

theorem skUseClock_place : SkPlace n c (c.skUseClock n) := .ofRegs rfl

theorem windowIn_place (cl : Nat) : SkPlace n c ((c.windowIn cl levels).skUseClock n) := .ofRegs rfl

end Sys2Proof.Machine
end

section
/-!
PROOF. What each instruction of a Skipper does, by its operation (R334 to R339).
-/
namespace Sys2Proof.Machine

variable {c d : Chip} {n : Nat} {levels : W32}

/-! ### Tests and jumps -/

/-- The device in which a Skipper's instruction reads its window. -/
def Chip.skSeen (c : Chip) (n : Nat) (levels : W32) : Chip := (c.windowIn (n / 8) levels).skUseClock n

theorem skJmp_does (h : c.skDoes n 0) {taken : Bool}
    (hc : (c.skSeen n levels).skCond n levels (nfld (c.skWord n) 11 8) = (taken, d)) : skJmp c n levels =
      if taken = false then d.skAdvance n
      else if c.skInRange n (nfld (c.skWord n) 7 0) then d.setSkPc n (nfld (c.skWord n) 7 0)
      else (c.skSeen n levels).skIllegal n := by
  refine (skInsn_does ((windowIn_skDoes (n / 8)).2 h)).trans ?_
  unfold Chip.skSeen at hc ⊢
  have hw : (c.windowIn (n / 8) levels).skWord n = c.skWord n := rfl
  dsimp only
  rw [hw, hc]
  cases taken <;> rfl

/-- A taken jump. -/
theorem skJmp_taken (h : c.skDoes n 0)
    (hc : (c.skSeen n levels).skCond n levels (nfld (c.skWord n) 11 8) = (true, d)) :
    (c.skInRange n (nfld (c.skWord n) 7 0) = true → skJmp c n levels = d.setSkPc n (nfld (c.skWord n) 7 0)) ∧
      (c.skInRange n (nfld (c.skWord n) 7 0) = false → skJmp c n levels = (c.skSeen n levels).skIllegal n) :=
  ⟨fun g => (skJmp_does h hc).trans ((if_neg (by decide)).trans (if_pos g)),
    fun g => (skJmp_does h hc).trans ((if_neg (by decide)).trans (if_neg (Bool.eq_false_iff.1 g)))⟩

theorem skJmp_falls (h : c.skDoes n 0)
    (hc : (c.skSeen n levels).skCond n levels (nfld (c.skWord n) 11 8) = (false, d)) (hp : SkPlace n c d) :
    skJmp c n levels = c.skNext d n := (skJmp_does h hc).trans ((if_pos rfl).trans (skAdvance_eq hp))

theorem skInRange_iff (pc : Nat) :
    c.skInRange n pc = true ↔ c.fld (SKn_RANGE n) 7 0 ≤ pc ∧ pc ≤ c.fld (SKn_RANGE n) 15 8 := by
  unfold Chip.skInRange
  rw [Bool.and_eq_true, decide_eq_true_iff, decide_eq_true_iff]

theorem skCond_count : c.skCond n levels 1 =
    if c.fld (SKn_C n) 15 0 = 0 then (false, c)
    else (decide (c.fld (SKn_C n) 15 0 ≠ 1), c.setFld (SKn_C n) 15 0 (c.fld (SKn_C n) 15 0 - 1)) := rfl

/-! ### Waits -/

/-- An interrupt line that is set, 4 ns before the Skipper clock. -/
def Chip.skLined (c : Chip) (n i : Nat) : Prop :=
  c.bit (SKn_IRQ n) i = true ∧ tblGet 0 c.skp.lineAt (n * 8 + i) + 4 ≤ c.skStart n

theorem skHolds_line {w start : Nat} (hw : nfld w 10 8 = 2) (h : c.skLined n (nfld w 5 0)) :
    c.skHolds n w levels start = some (c.setBit (SKn_IRQ n) (nfld w 5 0) false) := by
  obtain ⟨h1, h2⟩ := h
  unfold Chip.skHolds
  simp only [hw, h1, h2, decide_true, Bool.and_self, if_true]

theorem skHolds_noLine {w start : Nat} (hw : nfld w 10 8 = 2) (h : ¬c.skLined n (nfld w 5 0)) :
    c.skHolds n w levels start = none := by
  unfold Chip.skHolds
  simp only [hw]
  refine if_neg fun g => h ?_
  rw [Bool.and_eq_true, decide_eq_true_iff] at g
  exact g

theorem skSeen_skStart : (c.skSeen n levels).skStart n = c.skStart n := skUseClock_skStart

theorem skSeen_skLined {i : Nat} : (c.skSeen n levels).skLined n i ↔ c.skLined n i := by
  unfold Chip.skLined
  rw [skSeen_skStart]
  exact Iff.rfl

theorem skWait_seen (h : c.skDoes n 1) (hw : nfld (c.skWord n) 10 8 = 2) (hl : c.skLined n (nfld (c.skWord n) 5 0)) :
    skWait c n levels = c.skNext ((c.skSeen n levels).setBit (SKn_IRQ n) (nfld (c.skWord n) 5 0) false) n := by
  refine (skInsn_does ((windowIn_skDoes (n / 8)).2 h)).trans ?_
  have hh := skHolds_line (c := c.skSeen n levels) (levels := levels) (start := 4 * (c.skSeen n levels).skStart n) hw (skSeen_skLined.2 hl)
  unfold Chip.skSeen at hh
  dsimp only
  rw [show (c.windowIn (n / 8) levels).skWord n = c.skWord n from rfl, hh]
  exact skAdvance_eq ((windowIn_place _).trans (.setBit skAside_irq _ _ _))

theorem skWait_waits (h : c.skDoes n 1) (hw : nfld (c.skWord n) 10 8 = 2) (hl : ¬c.skLined n (nfld (c.skWord n) 5 0)) :
    skWait c n levels =
      ((c.skSeen n levels).setSk n { (c.skSeen n levels).sk n with waitStart := 4 * c.skStart n }).setBit
        (SKn_STAT n) 30 true := by
  refine (skInsn_does ((windowIn_skDoes (n / 8)).2 h)).trans ?_
  have hh := skHolds_noLine (c := c.skSeen n levels) (levels := levels) (start := 4 * (c.skSeen n levels).skStart n) hw (mt skSeen_skLined.1 hl)
  have hs : (c.skSeen n levels).skStart n = c.skStart n := skSeen_skStart
  unfold Chip.skSeen at hh hs ⊢
  dsimp only
  rw [show (c.windowIn (n / 8) levels).skWord n = c.skWord n from rfl, hh, hs]

/-! ### Shifting -/

/-- SHI and its count after `k` bits come in. -/
def Chip.skInto (c x : Chip) (n k src : Nat) : Chip :=
  (x.setReg (SKn_SHI n) (w32 (if c.bit (SKn_CFG n) 0 then (c.reg (SKn_SHI n)).toNat / 2 ^ k + src * 2 ^ (32 - k)
    else (c.reg (SKn_SHI n)).toNat * 2 ^ k + src))).setFld (SKn_STAT n) 13 8 (min (c.fld (SKn_STAT n) 13 8 + k) 32)

theorem skInto_place {x : Chip} {k src : Nat} (h : SkPlace n c x) : SkPlace n c (c.skInto x n k src) :=
  h.trans ((SkPlace.setReg skAside_shi _ x).trans (.statFld (by decide) (by decide) _ _))

/-- The bits that IN takes, and the device after it has taken them. -/
def Chip.skInSource (d : Chip) (n w : Nat) (levels : W32) : Nat × Chip :=
  match nfld w 11 9 with
  | 0 => (d.skLanes n levels (d.fld (SKn_CFG n) 26 24) (skCount w), d)
  | 1 => ((d.reg (SKn_D n)).toNat % 2 ^ skCount w, d)
  | 2 => (0, d)
  | 3 => (2 ^ skCount w - 1, d)
  | _ => d.skShiftOut n (skCount w)

/-- The end of IN with the bits it has taken. -/
def Chip.skInEnd (d : Chip) (n k : Nat) (x : Nat × Chip) : Chip :=
  let shi := (d.reg (SKn_SHI n)).toNat
  let v := if d.bit (SKn_CFG n) 0 then shi / 2 ^ k + x.1 * 2 ^ (32 - k) else shi * 2 ^ k + x.1
  ((x.2.setReg (SKn_SHI n) (w32 v)).setSkNi n (d.skNi n + k)).skAdvance n

/-- IN from a source that changes nothing. -/
theorem skIn_does (h : c.skDoes n 2) {src : Nat}
    (hs : (c.skSeen n levels).skInSource n (c.skWord n) levels = (src, c.skSeen n levels)) :
    skIn c n levels = c.skNext (c.skInto (c.skSeen n levels) n (skCount (c.skWord n)) src) n := by
  refine (skInsn_does ((windowIn_skDoes (n / 8)).2 h)).trans ?_
  change (c.skSeen n levels).skInEnd n (skCount (c.skWord n))
    ((c.skSeen n levels).skInSource n (c.skWord n) levels) = _
  rw [hs]
  exact skAdvance_eq (skInto_place (windowIn_place _))

/-- The bits that leave SHO. -/
def Chip.skOutBits (c : Chip) (n k : Nat) : Nat :=
  if c.bit (SKn_CFG n) 1 then (c.reg (SKn_SHO n)).toNat % 2 ^ k else (c.reg (SKn_SHO n)).toNat / 2 ^ (32 - k)

/-- SHO and its count after `k` bits have left. -/
def Chip.skShifted (c x : Chip) (n k : Nat) : Chip :=
  (x.setFld (SKn_STAT n) 5 0 (min (c.fld (SKn_STAT n) 5 0 + k) 32)).setReg (SKn_SHO n)
    (w32 (if c.bit (SKn_CFG n) 1 then (c.reg (SKn_SHO n)).toNat / 2 ^ k else (c.reg (SKn_SHO n)).toNat * 2 ^ k))

theorem skShifted_place {x : Chip} {k : Nat} (h : SkPlace n c x) : SkPlace n c (c.skShifted x n k) :=
  h.trans ((SkPlace.statFld (by decide) (by decide) _ x).trans (.setReg skAside_sho _ _))

theorem skShiftOut_eq (k : Nat) :
    (c.skUseClock n).skShiftOut n k = (c.skOutBits n k, c.skShifted (c.skUseClock n) n k) := by
  have hb : (c.skUseClock n).bit (SKn_CFG n) 1 = c.bit (SKn_CFG n) 1 := rfl
  unfold Chip.skShiftOut Chip.skOutBits Chip.skShifted
  dsimp only
  rw [hb]
  cases c.bit (SKn_CFG n) 1 <;> rfl

/-- The end of OUT with the bits that it delivers, in the device `x.2`. -/
def Chip.skOutEnd (d : Chip) (n w : Nat) (x : Nat × Chip) : Chip :=
  let base := d.fld (SKn_CFG n) 22 20
  let at8 (y : Nat) : Nat := y * 2 ^ base % 256 + y * 2 ^ base / 256
  match nfld w 11 9 with
  | 0 => (x.2.skLatch n 0 (at8 (2 ^ skCount w - 1)) (at8 x.1)).skAdvance n
  | 1 => (x.2.skLatch n 8 (at8 (2 ^ skCount w - 1)) (at8 x.1)).skAdvance n
  | 2 => (x.2.setReg (SKn_D n) (w32 x.1)).skAdvance n
  | 3 => x.2.skAdvance n
  | 4 => (x.2.setSkC n 0 x.1).skAdvance n
  | 5 => (x.2.setSkC n 1 x.1).skAdvance n
  | _ => if d.skInRange n (x.1 % 256) then x.2.setSkPc n (x.1 % 256) else d.skIllegal n

theorem skOut_does (h : c.skDoes n 3) : skOut c n = (c.skUseClock n).skOutEnd n (c.skWord n)
    (c.skOutBits n (skCount (c.skWord n)), c.skShifted (c.skUseClock n) n (skCount (c.skWord n))) :=
  (skInsn_does h).trans (congrArg ((c.skUseClock n).skOutEnd n (c.skWord n)) (skShiftOut_eq _))

theorem skOut_d (h : c.skDoes n 3) (hw : nfld (c.skWord n) 11 9 = 2) : skOut c n =
    c.skNext ((c.skShifted (c.skUseClock n) n (skCount (c.skWord n))).setReg (SKn_D n)
      (w32 (c.skOutBits n (skCount (c.skWord n))))) n := by
  refine (skOut_does h).trans ?_
  unfold Chip.skOutEnd
  simp only [hw]
  exact skAdvance_eq ((skShifted_place skUseClock_place).trans (.setReg skAside_d _ _))

theorem skOut_null (h : c.skDoes n 3) (hw : nfld (c.skWord n) 11 9 = 3) : skOut c n =
    c.skNext (c.skShifted (c.skUseClock n) n (skCount (c.skWord n))) n := by
  refine (skOut_does h).trans ?_
  unfold Chip.skOutEnd
  simp only [hw]
  exact skAdvance_eq (skShifted_place skUseClock_place)

theorem skOut_c0 (h : c.skDoes n 3) (hw : nfld (c.skWord n) 11 9 = 4) : skOut c n =
    c.skNext ((c.skShifted (c.skUseClock n) n (skCount (c.skWord n))).setFld (SKn_C n) 15 0
      (c.skOutBits n (skCount (c.skWord n)))) n := by
  refine (skOut_does h).trans ?_
  unfold Chip.skOutEnd
  simp only [hw]
  exact skAdvance_eq ((skShifted_place skUseClock_place).trans (.setFld skAside_c _ _ _ _))

/-! ### PUSH and PULL -/

theorem pfBytes_pos : 0 < c.pfBytes n := by
  unfold Chip.pfBytes
  split <;> decide

theorem pfPush_nothing {close : Bool} (h : (c.pf n).asmBytes = 0) : c.pfPush n none close = some c := if_pos h

theorem pfPush_partly {item : Nat} (h : (c.pf n).asmBytes + c.pfBytes n ≠ 8) : c.pfPush n (some item) false =
    some (c.setPf n { c.pf n with
      asm := (c.pf n).asm + item % 2 ^ (8 * c.pfBytes n) * 2 ^ (8 * (c.pf n).asmBytes)
      asmBytes := (c.pf n).asmBytes + c.pfBytes n }) := by
  have h0 := pfBytes_pos (c := c) (n := n)
  refine (if_neg ?_).trans (if_neg ?_)
  · simp only [Option.isSome_some, if_true]
    omega
  · simp only [Option.isSome_some, if_true, Bool.false_eq_true, or_false]
    exact h

theorem pfPush_commits {item : Nat} {close : Bool} (h : (c.pf n).asmBytes + c.pfBytes n = 8 ∨ close = true)
    (hf : (c.pf n).words.length ≠ 256) : c.pfPush n (some item) close =
      some (c.pfCommit n ((c.pf n).asm + item % 2 ^ (8 * c.pfBytes n) * 2 ^ (8 * (c.pf n).asmBytes))
        ((c.pf n).asmBytes + c.pfBytes n) close) := by
  have h0 := pfBytes_pos (c := c) (n := n)
  refine (if_neg ?_).trans ((if_pos ?_).trans (if_neg hf))
  · simp only [Option.isSome_some, if_true]
    omega
  · simp only [Option.isSome_some, if_true]
    exact h

theorem pfPush_full {item : Option Nat} (h : 0 < (c.pf n).asmBytes) (hf : (c.pf n).words.length = 256) :
    c.pfPush n item true = none := by
  refine (if_neg ?_).trans ((if_pos (.inr rfl)).trans (if_pos hf))
  omega

/-- A word committed that raises nothing. -/
theorem pfCommit_quiet {data bytes : Nat} {closed : Bool} (hw : (c.pf n).words.length + 1 ≠ c.fld (PFn_CFG n) 24 16)
    (hc : closed = false ∨ c.bit (PFn_CFG n) 31 = false) : c.pfCommit n data bytes closed =
      c.setPf n { c.pf n with
        words := (c.pf n).words ++ [⟨data, at_ (c.pf n).seq 8 + at_ (b2n closed) 4 + bytes⟩]
        asm := 0, asmBytes := 0, seq := ((c.pf n).seq + 1) % 256 } := by
  refine (if_neg ?_).trans (if_neg ?_)
  · rw [Bool.and_eq_true]
    rintro ⟨g1, g2⟩
    exact hc.elim (fun hc => Bool.false_ne_true (hc.symm.trans g1)) fun hc => Bool.false_ne_true (hc.symm.trans g2)
  · simp only [List.length_append, List.length_singleton]
    exact hw

/-- The item that PUSH takes from SHI. -/
def Chip.skItem (c : Chip) (n : Nat) : Nat :=
  if c.bit (SKn_CFG n) 0 then (c.reg (SKn_SHI n)).toNat / 2 ^ (32 - 8 * c.pfBytes n) else (c.reg (SKn_SHI n)).toNat

theorem skPush_does (h : c.skDoes n 4) : skPush c n =
    ((c.skUseClock n).skPushNow n (c.skWord n)).getD ((c.skUseClock n).setBit (SKn_STAT n) 31 true) := skInsn_does h

theorem skPushNow_close {w : Nat} (hw : nbit w 10 = true) :
    (c.skUseClock n).skPushNow n w = ((c.skUseClock n).pfPush n none true).map fun c1 => c1.skAdvance n := if_pos hw

theorem skPushNow_item {w : Nat} (hw : nbit w 10 = false) : (c.skUseClock n).skPushNow n w =
    ((c.skUseClock n).pfPush n (some (c.skItem n)) (nbit w 11)).map fun c1 =>
      ((c1.setReg (SKn_SHI n) 0).setSkNi n 0).skAdvance n := if_neg (Bool.eq_false_iff.1 hw)

/-- SHI emptied. -/
def Chip.skEmptied (d : Chip) (n : Nat) : Chip := (d.setReg (SKn_SHI n) 0).setFld (SKn_STAT n) 13 8 0

theorem skEmptied_place (hd : SkPlace n c d) : SkPlace n c (d.skEmptied n) :=
  hd.trans ((SkPlace.setReg skAside_shi _ d).trans (.statFld (by decide) (by decide) _ _))

/-- PUSH of an item that its FIFO takes. -/
theorem skPush_takes (h : c.skDoes n 4) (hw : nbit (c.skWord n) 10 = false)
    (hd : (c.skUseClock n).pfPush n (some (c.skItem n)) (nbit (c.skWord n) 11) = some d) (hp : SkPlace n c d) :
    skPush c n = c.skNext (d.skEmptied n) n := by
  rw [skPush_does h, skPushNow_item hw, hd]
  exact skAdvance_eq (skEmptied_place hp)

theorem skPush_stalls (h : c.skDoes n 4) (hf : (c.pf n).words.length = 256) (hb : 0 < (c.pf n).asmBytes)
    (hw : nbit (c.skWord n) 11 = true) : skPush c n = (c.skUseClock n).setBit (SKn_STAT n) 31 true := by
  have hnone {item} : (c.skUseClock n).pfPush n item true = none := pfPush_full (c := c.skUseClock n) hb hf
  rw [skPush_does h]
  cases hc : nbit (c.skWord n) 10
  · rw [skPushNow_item hc, hw, hnone]
    rfl
  · rw [skPushNow_close hc, hnone]
    rfl

theorem skPull_does (h : c.skDoes n 5) : skPull c n =
    ((c.skUseClock n).skPullNow n).getD ((c.skUseClock n).setBit (SKn_STAT n) 31 true) := skInsn_does h

theorem skPullNow_empty (h : (c.sk n).feed = []) : c.skPullNow n = none := by
  unfold Chip.skPullNow
  rw [h]

/-- The oldest word of the feed in SHO, the rest left in the feed. -/
def Chip.skPulled (c : Chip) (n : Nat) (x : W32) (xs : List W32) : Chip :=
  ((c.setSk n { c.sk n with feed := xs }).setReg (SKn_SHO n) x).setFld (SKn_STAT n) 5 0 0

theorem skPullNow_word {x : W32} {xs : List W32} (h : (c.sk n).feed = x :: xs) : c.skPullNow n =
    some ((if xs.length = c.fld (SKn_CTL n) 3 0 then (c.skPulled n x xs).flag (SKn_EVCAUSE n) 2 (288 + n)
      else c.skPulled n x xs).skAdvance n) := by
  unfold Chip.skPullNow
  rw [h]
  rfl

/-! ### MOV, SET, IRQ and STAMP -/

/-- What MOV takes, from the device in which it reads its window. -/
def Chip.skMovSource (d : Chip) (n w : Nat) (levels : W32) : Nat :=
  match nfld w 8 6 with
  | 0 => d.skLanes n levels 0 8
  | 1 => (d.reg (SKn_D n)).toNat
  | 2 => d.skC n 0
  | 3 => d.skC n 1
  | 4 => (d.reg (SKn_SHI n)).toNat
  | 5 => (d.reg (SKn_SHO n)).toNat
  | 6 => 0
  | _ => ((List.range 32).map fun i => b2n (d.windowLevel (n / 8) i (d.skStart n) levels) * 2 ^ i).sum

/-- A value that MOV writes to its destination. -/
def Chip.skMovTo (d : Chip) (n dst v : Nat) : Chip :=
  match dst with
  | 0 => (d.skLatch n 0 (d.fld (SKn_CFG n) 15 8) v).skAdvance n
  | 1 => (d.setReg (SKn_D n) (w32 v)).skAdvance n
  | 2 => (d.setSkC n 0 v).skAdvance n
  | 3 => (d.setSkC n 1 v).skAdvance n
  | 4 => ((d.setReg (SKn_SHI n) (w32 v)).setSkNi n 0).skAdvance n
  | 5 => ((d.setReg (SKn_SHO n) (w32 v)).setSkNo n 0).skAdvance n
  | _ => if d.skInRange n (v % 256) then d.setSkPc n (v % 256) else d.skIllegal n

theorem skMov_does (h : c.skDoes n 6) : skMov c n levels =
    (c.skSeen n levels).skMovTo n (nfld (c.skWord n) 11 9)
      (skMovOp (nfld (c.skWord n) 5 4) ((c.skSeen n levels).skMovSource n (c.skWord n) levels)) :=
  skInsn_does ((windowIn_skDoes (n / 8)).2 h)

theorem skSeen_place : SkPlace n c (c.skSeen n levels) := .ofRegs rfl

theorem skMov_d (h : c.skDoes n 6) (hs : nfld (c.skWord n) 8 6 = 1) (hd : nfld (c.skWord n) 11 9 = 1) {w : W32}
    (hw : w32 (skMovOp (nfld (c.skWord n) 5 4) (c.reg (SKn_D n)).toNat) = w) :
    skMov c n levels = c.skNext ((c.skSeen n levels).setReg (SKn_D n) w) n := by
  have hv : (c.skSeen n levels).skMovSource n (c.skWord n) levels = (c.reg (SKn_D n)).toNat := by
    unfold Chip.skMovSource
    rw [hs]
    rfl
  rw [skMov_does h, hd, hv]
  unfold Chip.skMovTo
  rw [hw]
  exact skAdvance_eq (skSeen_place.trans (.setReg skAside_d _ _))

theorem w32_self (w : W32) : w32 w.toNat = w := by simp [w32]

theorem w32_succ (w : W32) : w32 (skMovOp 1 w.toNat) = w + 1 := by
  refine BitVec.eq_of_toNat_eq ?_
  change (w.toNat + 1) % 2 ^ 32 % 2 ^ 32 = _
  rw [Nat.mod_mod, BitVec.toNat_add]
  rfl

theorem skMov_shi_sho (h : c.skDoes n 6) (hs : nfld (c.skWord n) 8 6 = 4) (hd : nfld (c.skWord n) 11 9 = 5)
    (ho : nfld (c.skWord n) 5 4 = 0) : skMov c n levels =
      c.skNext (((c.skSeen n levels).setReg (SKn_SHO n) (c.reg (SKn_SHI n))).setFld (SKn_STAT n) 5 0 0) n := by
  have hv : (c.skSeen n levels).skMovSource n (c.skWord n) levels = (c.reg (SKn_SHI n)).toNat := by
    unfold Chip.skMovSource
    rw [hs]
    rfl
  rw [skMov_does h, hd, hv, ho]
  unfold Chip.skMovTo
  rw [show skMovOp 0 (c.reg (SKn_SHI n)).toNat = (c.reg (SKn_SHI n)).toNat from rfl, w32_self]
  exact skAdvance_eq (skSeen_place.trans ((SkPlace.setReg skAside_sho _ _).trans (.statFld (by decide) (by decide) _ _)))

/-- What SET, IRQ or STAMP does before the PC goes on. -/
theorem skSet_d (h : c.skDoes n 7) (hw : nfld (c.skWord n) 11 9 = 4) :
    skSet c n = c.skNext ((c.skUseClock n).setReg (SKn_D n) (w32 (nfld (c.skWord n) 7 0))) n := by
  refine (skInsn_does h).trans ?_
  simp only [hw]
  exact skAdvance_eq (skUseClock_place.trans (.setReg skAside_d _ _))

theorem skSet_c0 (h : c.skDoes n 7) (hw : nfld (c.skWord n) 11 9 = 2) :
    skSet c n = c.skNext ((c.skUseClock n).setFld (SKn_C n) 15 0 (nfld (c.skWord n) 7 0)) n := by
  refine (skInsn_does h).trans ?_
  simp only [hw]
  exact skAdvance_eq (skUseClock_place.trans (.setFld skAside_c _ _ _ _))

/-- What IRQ does before the PC goes on. -/
def Chip.skSignals (d : Chip) (n w : Nat) : Chip :=
  match nfld w 11 10 with
  | 0 => d.skFlag (n / 8) (nfld w 7 0 % 8)
  | 1 => d.setBit (SCc_FLAGSET (n / 8)) (nfld w 7 0 % 8) false
  | 2 => d.skLine (n / 8 * 8 + nfld w 7 0 % 8) 7
  | _ => (d.setFld (SKn_EVCAUSE n) 15 8 (nfld w 7 0)).skCause n 0

theorem skIrq_does (h : c.skDoes n 8) (hd : (c.skUseClock n).skSignals n (c.skWord n) = d) (hp : SkPlace n c d) :
    skIrq c n = c.skNext d n := by
  refine (skInsn_does h).trans ?_
  refine (congrArg (Chip.skAdvance · n) hd).trans ?_
  exact skAdvance_eq hp

theorem skFlag_set {cl i : Nat} (h : c.bit (SCc_FLAGSET cl) i = true) : c.skFlag cl i = c := if_pos h

theorem skFlag_clear {cl i : Nat} (h : c.bit (SCc_FLAGSET cl) i = false) : c.skFlag cl i =
    { c.setBit (SCc_FLAGSET cl) i true with
      skp := { c.skp with flagAt := tblSet 0 c.skp.flagAt (cl * 8 + i) c.tmu.raw } } := if_neg (Bool.eq_false_iff.1 h)

theorem skLine_set {i : Nat} (h : c.bit (SKn_IRQ n) i = true) : c.skLine n i = c := if_pos h

theorem skLine_clear {i : Nat} (h : c.bit (SKn_IRQ n) i = false) : c.skLine n i =
    { c.setBit (SKn_IRQ n) i true with
      skp := { c.skp with lineAt := tblSet 0 c.skp.lineAt (n * 8 + i) c.tmu.raw } } := if_neg (Bool.eq_false_iff.1 h)

/-- The stamp of an instruction: the line time at which its Skipper clock began. -/
def Chip.skStampNs (c : Chip) (n : Nat) : Nat := c.ltNsAt (c.skStart n)

theorem skStamp_lo (h : c.skDoes n 9) (hw : nfld (c.skWord n) 11 10 = 0) :
    skStamp c n = c.skNext ((c.skUseClock n).setReg64 (SKn_STAMP_LO n) (c.skStampNs n)) n := by
  refine (skInsn_does h).trans ?_
  simp only [hw, skUseClock_skStart]
  exact skAdvance_eq (skUseClock_place.trans (.setReg64 skAside_stampLo skAside_stampHi _ _))

theorem skStamp_d (h : c.skDoes n 9) (hw : nfld (c.skWord n) 11 10 = 1) : skStamp c n =
    c.skNext (((c.skUseClock n).setReg64 (SKn_STAMP_LO n) (c.skStampNs n)).setReg (SKn_D n) (lo32 (c.skStampNs n))) n := by
  refine (skInsn_does h).trans ?_
  simp only [hw, skUseClock_skStart]
  exact skAdvance_eq (skUseClock_place.trans ((SkPlace.setReg64 skAside_stampLo skAside_stampHi _ _).trans
    (.setReg skAside_d _ _)))

end Sys2Proof.Machine
end

section
/-!
PROOF. The instructions of Skippers, settled (R331 to R339, R342).
-/
namespace Sys2Proof
open Machine

/-- Settles O40: every instruction through the frame of R332 and R339, then by its operation's own lemma. -/
theorem skipperInstructionsFollowR334ToR339 : Obligations.SkipperInstructionsFollowR334ToR339 := by
  unfold Obligations.SkipperInstructionsFollowR334ToR339
  intro n levels c k e w clocked idle is s t illegal pc next inside jumps falls c0 count d shi sho low outBits shifted into
    index start ns line flag linedUp pf item filled data emptied
  have hn : k < 32 := n.isLt
  have hin : inside ↔ c.skInRange k (nfld w 7 0) = true := (skInRange_iff _).symm
  have hjumps {x : Chip} (h : is 0) (hc : t.skCond k levels (nfld w 11 8) = (true, x)) : jumps x :=
    ⟨fun g => does_skJmp ((skJmp_taken h hc).1 (hin.1 g)),
      fun g => does_skJmp ((skJmp_taken h hc).2 (Bool.eq_false_iff.2 (mt hin.2 g)))⟩
  have hfalls {x : Chip} (h : is 0) (hc : t.skCond k levels (nfld w 11 8) = (false, x)) (hp : SkPlace k c x) : falls x :=
    does_skJmp (skJmp_falls h hc hp)
  have ht : SkPlace k c t := skSeen_place
  have hs : SkPlace k c s := skUseClock_place
  refine ⟨fun h => ?_, fun h hl => ⟨fun ho => ?_, fun ho => ?_, fun ho => ⟨?_, ?_⟩⟩, fun h hw => ?_,
    fun h hw => ⟨fun h0 => ?_, fun h1 => ?_, fun h2 => ?_⟩, fun h hw => ⟨fun hf => ?_, fun hf => ?_⟩,
    fun h hw => ⟨fun hd => ?_, fun hd => ?_⟩,
    fun h hw => ⟨fun hl => does_skWait (skWait_seen h hw hl), fun hl => does_skWait (skWait_waits h hw hl)⟩,
    fun h hw => does_skIn (skIn_does h ?_), fun h hw => does_skIn (skIn_does h ?_),
    fun h hw => does_skIn (skIn_does h ?_), fun h hw => does_skOut (skOut_d h hw),
    fun h hw => does_skOut (skOut_null h hw), fun h hw => does_skOut (skOut_c0 h hw), fun h hw ha => ?_,
    fun h hw hc hf => ?_, fun h hw hf hl hm hr => ?_, fun h hf hb hw => does_skPush (skPush_stalls h hf hb hw),
    fun h hf => ?_, fun h x xs hf => ?_, fun h hsrc hdst => ⟨fun ho => ?_, fun ho => ?_⟩,
    fun h hsrc hdst ho => does_skMov (skMov_shi_sho h hsrc hdst ho), fun h hw => does_skSet (skSet_d h hw),
    fun h hw => does_skSet (skSet_c0 h hw), fun h hw => ⟨fun hb => ?_, fun hb => ?_⟩, fun h hw => ?_,
    fun h hw => ⟨fun hb => ?_, fun hb => ?_⟩, fun h hw => ?_, fun h hw => does_skStamp (skStamp_lo h hw),
    fun h hw => does_skStamp (skStamp_d h hw)⟩
  case refine_1 =>
    exact ⟨does_skOut (skInsn_busy h), does_skPush (skInsn_busy h), does_skPull (skInsn_busy h),
      does_skSet (skInsn_busy h), does_skIrq (skInsn_busy h), does_skStamp (skInsn_busy h),
      does_skJmp (skInsn_busy (mt (windowIn_skIdle _).1 h)), does_skWait (skInsn_busy (mt (windowIn_skIdle _).1 h)),
      does_skIn (skInsn_busy (mt (windowIn_skIdle _).1 h)), does_skMov (skInsn_busy (mt (windowIn_skIdle _).1 h))⟩
  case refine_2 => exact does_skJmp (skInsn_illegal ((windowIn_skIdle _).2 h) (.inl ho) hl)
  case refine_3 => exact does_skOut (skInsn_illegal h (.inl ho) hl)
  case refine_4 => exact does_skSet (skInsn_illegal h (.inr ho) hl)
  case refine_5 => exact does_skWait (skInsn_illegal ((windowIn_skIdle _).2 h) (.inr ho) hl)
  case refine_6 =>
    refine hjumps h ?_
    rw [hw]
    rfl
  case refine_7 =>
    refine hfalls h ?_ ht
    rw [hw]
    exact skCond_count.trans (if_pos h0)
  case refine_8 =>
    have hne : ¬t.fld (SKn_C k) 15 0 = 0 := fun g => Nat.one_ne_zero (h1.symm.trans g)
    refine hfalls h ?_ (ht.trans (.setFld skAside_c _ _ _ _))
    rw [hw]
    refine (skCond_count.trans (if_neg hne)).trans ?_
    rw [show t.fld (SKn_C k) 15 0 = 1 from h1]
    rfl
  case refine_9 =>
    have hne : ¬t.fld (SKn_C k) 15 0 = 0 := Nat.ne_of_gt (Nat.lt_of_succ_lt h2)
    refine hjumps h ?_
    rw [hw]
    exact (skCond_count.trans (if_neg hne)).trans (congrArg (·, _) (decide_eq_true (Nat.ne_of_gt h2)))
  case refine_10 =>
    refine hjumps h ?_
    rw [hw]
    refine congrArg (·, t) ?_
    rw [show (t.sk k).feed = (c.sk k).feed from skUseClock_feed, Bool.not_eq_true', List.isEmpty_eq_false_iff]
    exact hf
  case refine_11 =>
    refine hfalls h ?_ ht
    rw [hw]
    refine congrArg (·, t) ?_
    rw [show (t.sk k).feed = (c.sk k).feed from skUseClock_feed, hf]
    rfl
  case refine_12 =>
    refine hjumps h ?_
    rw [hw]
    exact congrArg (·, t) (decide_eq_true (BitVec.eq_of_toNat_eq hd))
  case refine_13 =>
    refine hfalls h ?_ ht
    rw [hw]
    exact congrArg (·, t) (decide_eq_false fun g => hd (congrArg BitVec.toNat g))
  case refine_14 =>
    unfold Chip.skInSource
    rw [hw]
    rfl
  case refine_15 =>
    unfold Chip.skInSource
    rw [hw]
    rfl
  case refine_16 =>
    unfold Chip.skInSource
    rw [hw]
    rfl
  case refine_17 =>
    refine does_skPush ((skPush_does h).trans ?_)
    rw [skPushNow_close hw, pfPush_nothing (c := s) ha]
    exact skAdvance_eq hs
  case refine_18 =>
    refine does_skPush (skPush_takes h hw ?_ (hs.trans (.ofRegs rfl)))
    rw [hc]
    exact pfPush_partly (c := s) hf
  case refine_19 =>
    intro committed
    refine does_skPush (skPush_takes h hw ?_ (hs.trans (.ofRegs rfl)))
    exact (pfPush_commits (c := s) hf hl).trans (congrArg some (pfCommit_quiet (c := s) hm hr))
  case refine_20 =>
    refine does_skPull ((skPull_does h).trans ?_)
    rw [skPullNow_empty (c := s) (skUseClock_feed.trans hf)]
    rfl
  case refine_21 =>
    intro y
    refine does_skPull ((skPull_does h).trans ?_)
    rw [skPullNow_word (c := s) (skUseClock_feed.trans hf)]
    rfl
  case refine_22 =>
    refine does_skMov (skMov_d h hsrc hdst ?_)
    rw [show nfld (c.skWord n.val) 5 4 = 0 from ho]
    exact w32_self _
  case refine_23 =>
    refine does_skMov (skMov_d h hsrc hdst ?_)
    rw [show nfld (c.skWord n.val) 5 4 = 1 from ho]
    exact w32_succ _
  case refine_24 =>
    refine does_skIrq (skIrq_does h ?_ hs)
    unfold Chip.skSignals
    rw [show nfld (c.skWord n.val) 11 10 = 0 from hw]
    exact skFlag_set (c := s) hb
  case refine_25 =>
    refine does_skIrq (skIrq_does h ?_ (hs.trans ((SkPlace.setBit skAside_flagset _ _ _).trans (.ofRegs rfl))))
    unfold Chip.skSignals
    rw [show nfld (c.skWord n.val) 11 10 = 0 from hw]
    exact skFlag_clear (c := s) hb
  case refine_26 =>
    refine does_skIrq (skIrq_does h ?_ (hs.trans (SkPlace.setBit skAside_flagset _ _ _)))
    unfold Chip.skSignals
    rw [show nfld (c.skWord n.val) 11 10 = 1 from hw]
    rfl
  case refine_27 =>
    refine does_skIrq (skIrq_does h ?_ hs)
    unfold Chip.skSignals
    rw [show nfld (c.skWord n.val) 11 10 = 2 from hw]
    exact skLine_set (c := s) hb
  case refine_28 =>
    refine does_skIrq (skIrq_does h ?_ (hs.trans ((SkPlace.setBit skAside_irq _ _ _).trans (.ofRegs rfl))))
    unfold Chip.skSignals
    rw [show nfld (c.skWord n.val) 11 10 = 2 from hw]
    exact skLine_clear (c := s) hb
  case refine_29 =>
    refine does_skIrq (skIrq_does h ?_ (hs.trans ((SkPlace.setFld skAside_evcause _ _ _ _).trans (.cause hn 0 _))))
    unfold Chip.skSignals
    rw [show nfld (c.skWord n.val) 11 10 = 3 from hw]
    rfl

end Sys2Proof
end

section
/-!
PROOF. Commands to Skippers and pack FIFOs (R330, R332, R337, R340 to R345, R348 to R351).
-/
namespace Sys2Proof.Machine

variable {c d : Chip} {m n i : Nat} {levels v w : W32} {second : Bool}

/-! ### Words -/

/-- A field is that of any word with the same bits in it. -/
theorem wfld_congr {hi lo : Nat} (h : ∀ i, lo ≤ i → i ≤ hi → wbit w i = wbit v i) : wfld w hi lo = wfld v hi lo := by
  refine Nat.eq_of_testBit_eq fun j => ?_
  unfold wfld nfld
  rw [Nat.testBit_mod_two_pow, Nat.testBit_mod_two_pow, Nat.testBit_div_two_pow, Nat.testBit_div_two_pow]
  by_cases hj : j < hi + 1 - lo
  · rw [show w.toNat.testBit (j + lo) = v.toNat.testBit (j + lo) from h (j + lo) (by omega) (by omega)]
  · rw [decide_eq_false hj, Bool.false_and, Bool.false_and]

theorem w32_low_half (v : W32) : w32 (wfld v 15 0) = v &&& 0xFFFF := by
  refine BitVec.eq_of_toNat_eq ?_
  rw [BitVec.toNat_and]
  unfold wfld nfld w32
  rw [BitVec.toNat_ofNat, show (0xFFFF : W32).toNat = 2 ^ 16 - 1 from rfl, Nat.and_two_pow_sub_one_eq_mod]
  simp only [Nat.pow_zero, Nat.div_one]
  omega

/-! ### The ends of a wait -/

/-- The Skipper waits, and a clock of it has ended. -/
theorem skWaiting_iff : (c.skRuns n && c.bit (SKn_STAT n) 30) = true ↔ c.skClocked n ∧ c.bit (SKn_STAT n) 30 = true := by
  rw [Bool.and_eq_true, skRuns_iff]

theorem skWaitEnd_not (h : ¬(c.skClocked n ∧ c.bit (SKn_STAT n) 30 = true)) :
    skWaitEnd c n levels = c.windowIn (n / 8) levels := if_neg (mt (skWaiting_iff (c := c.windowIn (n / 8) levels)).1 h)

theorem skWaitEnd_waiting (h : c.skClocked n ∧ c.bit (SKn_STAT n) 30 = true) : skWaitEnd c n levels =
    match (c.windowIn (n / 8) levels).skHolds n (c.skWord n) levels (c.sk n).waitStart with
    | some c1 => c1.skWaitOver n
    | none => c.windowIn (n / 8) levels :=
  if_pos ((skWaiting_iff (c := c.windowIn (n / 8) levels)).2 h)

/-- The Skipper's line is set as the clock reads it with its window. -/
theorem windowIn_skLined (cl i : Nat) : (c.windowIn cl levels).skLined n i ↔ c.skLined n i := Iff.rfl

theorem skWaitEnd_lined (h : c.skClocked n ∧ c.bit (SKn_STAT n) 30 = true) (hw : nfld (c.skWord n) 10 8 = 2)
    (hl : c.skLined n (nfld (c.skWord n) 5 0)) : skWaitEnd c n levels =
      ((c.windowIn (n / 8) levels).setBit (SKn_IRQ n) (nfld (c.skWord n) 5 0) false).skWaitOver n := by
  rw [skWaitEnd_waiting h, skHolds_line hw ((windowIn_skLined _ _).2 hl)]

theorem skWaitEnd_notLined (h : c.skClocked n ∧ c.bit (SKn_STAT n) 30 = true) (hw : nfld (c.skWord n) 10 8 = 2)
    (hl : ¬c.skLined n (nfld (c.skWord n) 5 0)) : skWaitEnd c n levels = c.windowIn (n / 8) levels := by
  rw [skWaitEnd_waiting h, skHolds_noLine hw (mt (windowIn_skLined _ _).1 hl)]

theorem skTiming_iff : (c.skRuns n && c.bit (SKn_STAT n) 30 && nbit (c.skWord n) 7) = true ↔
    (c.skClocked n ∧ c.bit (SKn_STAT n) 30 = true) ∧ nbit (c.skWord n) 7 = true := by
  rw [Bool.and_eq_true, skWaiting_iff]

theorem skWaitTimeout_not (h : ¬((c.skClocked n ∧ c.bit (SKn_STAT n) 30 = true) ∧ nbit (c.skWord n) 7 = true)) :
    skWaitTimeout c n levels = c.windowIn (n / 8) levels :=
  if_neg (mt (skTiming_iff (c := c.windowIn (n / 8) levels)).1 h)

theorem skWaitTimeout_waiting (h : c.skClocked n ∧ c.bit (SKn_STAT n) 30 = true) (ht : nbit (c.skWord n) 7 = true) :
    skWaitTimeout c n levels =
      match (c.windowIn (n / 8) levels).skHolds n (c.skWord n) levels (c.sk n).waitStart with
      | some c1 => c1.skWaitOver n
      | none =>
        if c.skSaw n ((c.sk n).waitStart + 1) (tblGet [] c.tmu.toEdges (c.fld (SKn_TMO n) 4 0)) then
          ((c.windowIn (n / 8) levels).setBit (SKn_STAT n) 28 true).skWaitOver n
        else c.windowIn (n / 8) levels :=
  if_pos ((skTiming_iff (c := c.windowIn (n / 8) levels)).2 ⟨h, ht⟩)

theorem skWaitTimeout_lined (h : c.skClocked n ∧ c.bit (SKn_STAT n) 30 = true) (ht : nbit (c.skWord n) 7 = true)
    (hw : nfld (c.skWord n) 10 8 = 2) (hl : c.skLined n (nfld (c.skWord n) 5 0)) : skWaitTimeout c n levels =
      ((c.windowIn (n / 8) levels).setBit (SKn_IRQ n) (nfld (c.skWord n) 5 0) false).skWaitOver n := by
  rw [skWaitTimeout_waiting h ht, skHolds_line hw ((windowIn_skLined _ _).2 hl)]

theorem skWaitTimeout_notLined (h : c.skClocked n ∧ c.bit (SKn_STAT n) 30 = true) (ht : nbit (c.skWord n) 7 = true)
    (hw : nfld (c.skWord n) 10 8 = 2) (hl : ¬c.skLined n (nfld (c.skWord n) 5 0)) : skWaitTimeout c n levels =
      if c.skSaw n ((c.sk n).waitStart + 1) (tblGet [] c.tmu.toEdges (c.fld (SKn_TMO n) 4 0)) then
        ((c.windowIn (n / 8) levels).setBit (SKn_STAT n) 28 true).skWaitOver n
      else c.windowIn (n / 8) levels := by
  rw [skWaitTimeout_waiting h ht, skHolds_noLine hw (mt (windowIn_skLined _ _).1 hl)]

theorem skSaw_iff {start : Nat} {edges : List Nat} : c.skSaw n (start + 1) edges = true ↔
    ∃ edge ∈ edges, start < edge ∧ edge + 16 ≤ 4 * c.skStart n := by
  unfold Chip.skSaw
  rw [List.any_eq_true]
  simp only [Bool.and_eq_true, decide_eq_true_iff, Nat.succ_le_iff]

/-! ### Stalls -/

theorem skStallRelease_not (h : ¬(c.skClocked n ∧ c.bit (SKn_STAT n) 31 = true)) : skStallRelease c n = c := by
  refine if_neg fun g => h ?_
  rw [Bool.and_eq_true, Bool.and_eq_true, skRuns_iff] at g
  exact g.1

/-- The Skipper takes up a stalled instruction. -/
def Chip.skReleased (c : Chip) (n : Nat) : Chip := (c.skUseClock n).setBit (SKn_STAT n) 31 false

theorem skUnstalls_pull (h : nfld (c.skWord n) 15 12 = 5) :
    c.skUnstalls n (c.skWord n) = decide ((c.sk n).fedAt < c.skStart n) := if_pos h

theorem skStallRelease_eq : skStallRelease c n =
    if (c.skRuns n && c.bit (SKn_STAT n) 31 && c.skUnstalls n (c.skWord n)) = true then
      (if nfld (c.skWord n) 15 12 = 5 then (c.skReleased n).skPullNow n
        else (c.skReleased n).skPushNow n (c.skWord n)).getD c
    else c := rfl

theorem skStallRelease_cond (h : c.skClocked n ∧ c.bit (SKn_STAT n) 31 = true) (hw : nfld (c.skWord n) 15 12 = 5) :
    (c.skRuns n && c.bit (SKn_STAT n) 31 && c.skUnstalls n (c.skWord n)) =
      decide ((c.sk n).fedAt < c.skStart n) := by
  rw [skRuns_iff.2 h.1, h.2, skUnstalls_pull hw, Bool.true_and, Bool.true_and]

theorem skStallRelease_op (hw : nfld (c.skWord n) 15 12 = 5) : skStallRelease c n =
    if (c.skRuns n && c.bit (SKn_STAT n) 31 && c.skUnstalls n (c.skWord n)) = true then
      ((c.skReleased n).skPullNow n).getD c
    else c := by
  rw [skStallRelease_eq, if_pos hw]

/-- A stalled PULL goes on once the feed has held a word since before the clock. -/
theorem skStallRelease_pull {y : Bool}
    (hy : (c.skRuns n && c.bit (SKn_STAT n) 31 && c.skUnstalls n (c.skWord n)) = y) (hw : nfld (c.skWord n) 15 12 = 5) :
    skStallRelease c n = if y = true then ((c.skReleased n).skPullNow n).getD c else c := by
  rw [skStallRelease_op hw, hy]

theorem sk_setBit {a : Nat} {b : Bool} : (c.setBit a i b).sk n = c.sk n := rfl

theorem skReleased_feed : ((c.skReleased n).sk n).feed = (c.sk n).feed :=
  (congrArg SkRun.feed sk_setBit).trans skUseClock_feed

theorem skReleased_mark : (c.skReleased n).fld (SKn_CTL n) 3 0 = c.fld (SKn_CTL n) 3 0 := by
  have hne : SKn_CTL n ≠ SKn_STAT n := by
    unfold SKn_CTL SKn_STAT
    omega
  exact congrArg (wfld · 3 0) (Chip.reg_setReg_other _ _ hne)

/-! ### Who may command -/

theorem skMaster_iff (cl : Nat) : c.skMaster cl m = true ↔ m = 0 ∨ m = c.fld (SCc_OWNER cl) 3 0 := by
  unfold Chip.skMaster
  rw [Bool.or_eq_true, beq_iff_eq, beq_iff_eq]

theorem skMaster_not {cl : Nat} (h : ¬(m = 0 ∨ m = c.fld (SCc_OWNER cl) 3 0)) : (!c.skMaster cl m) = true := by
  rw [Bool.not_eq_true', ← Bool.not_eq_true, skMaster_iff]
  exact h

theorem skMaster_of {cl : Nat} (h : m = 0 ∨ m = c.fld (SCc_OWNER cl) 3 0) : ¬(!c.skMaster cl m) = true := by
  rw [(skMaster_iff cl).2 h]
  exact Bool.false_ne_true

theorem skRegWrite_other {r : Nat} (hr : r ≠ 0x24) (hr' : r ≠ 0x48)
    (h : ¬(m = 0 ∨ m = c.fld (SCc_OWNER (n / 8)) 3 0)) : skRegWrite c m n r v = c.refuse :=
  (if_neg hr).trans ((if_neg hr').trans (if_pos (skMaster_not h)))

theorem skRegWrite_feed : skRegWrite c m n 0x24 v = feedWrite c n v := by simp [skRegWrite]

theorem skRegWrite_irqset : skRegWrite c m n 0x48 v = irqsetWrite c n v := by simp [skRegWrite]

section
variable (h : m = 0 ∨ m = c.fld (SCc_OWNER (n / 8)) 3 0)
include h

theorem skRegWrite_ctl : skRegWrite c m n 0x00 v = skCtlWrite c m n v := by
  simp [skRegWrite, (skMaster_iff _).2 h]

theorem skRegWrite_lanes :
    skRegWrite c m n (if second then 0x1C else 0x18) v = lanesWrite c m n second v := by
  cases second <;> simp [skRegWrite, (skMaster_iff _).2 h]

/-! ### SKn_CTL -/

/-- The watermark of the feed as a command writes it. -/
def Chip.skMarked (c : Chip) (n : Nat) (v : W32) : Chip := c.setFld (SKn_CTL n) 3 0 (wfld v 3 0)

omit h in
theorem skMarked_skEn : (c.skMarked n v).skEn n = c.skEn n := by
  have hb : wbit (wsetFld (c.reg (SKn_CTL n)) 3 0 (wfld v 3 0)) 31 = wbit (c.reg (SKn_CTL n)) 31 := by
    rw [wbit_eq_wfld, wbit_eq_wfld, wfld_wsetFld_above _ _ _ _ _ _ (by decide) (by decide) (by decide)]
  exact (congrArg (wbit · 31) (Chip.reg_setReg_same c _ _)).trans hb

theorem skCtlWrite_refused (hb : wbit v 30 = true) (he : c.skEn n = true) : skCtlWrite c m n v = c.skRefused n :=
  (if_neg (skMaster_of h)).trans (if_pos ⟨hb, he⟩)

theorem skCtlWrite_plain (hb : wbit v 30 = false) : skCtlWrite c m n v =
    (if wbit v 31 then skEnable (c.skMarked n v) n else skDisable (c.skMarked n v) n).done := by
  refine (if_neg (skMaster_of h)).trans ((if_neg fun g => Bool.false_ne_true (hb.symm.trans g.1)).trans ?_)
  rw [hb]
  rfl

theorem skCtlWrite_restarts (hb : wbit v 30 = true) (he : c.skEn n = false) : skCtlWrite c m n v =
    (if wbit v 31 then skEnable ((skRestart c n).skMarked n v) n else skDisable ((skRestart c n).skMarked n v) n).done := by
  refine (if_neg (skMaster_of h)).trans ((if_neg fun g => Bool.false_ne_true (he.symm.trans g.2)).trans ?_)
  rw [hb]
  rfl

end

/-- EN set, its clock begun anew. -/
def Chip.skEnabled (c d : Chip) (n : Nat) : Chip :=
  (((d.setBit (SKn_CTL n) 31 true).setBit (SKn_STAT n) 30 false).setBit (SKn_STAT n) 31 false).setSk n
    { c.sk n with enAt := (c.tmu.raw + 1) / 2 * 2, clk := 0, stopClk := 0 }

theorem skEnabled_same {e : Chip} (hs : e.skp = c.skp) (ht : e.tmu = c.tmu) : e.skEnabled d n = c.skEnabled d n := by
  unfold Chip.skEnabled Chip.sk
  rw [hs, ht]

theorem skMarked_skp : (c.skMarked n v).skp = c.skp := rfl

theorem skMarked_tmu : (c.skMarked n v).tmu = c.tmu := rfl

theorem skMarked_sk : (c.skMarked n v).sk n = c.sk n := rfl

theorem skRestart_skp : (skRestart c n).skp = c.skp := rfl

theorem skRestart_tmu : (skRestart c n).tmu = c.tmu := rfl

theorem skEnable_on (h : c.skEn n = true) : skEnable c n = c := if_pos h

theorem skEnable_off (h : c.skEn n = false) : skEnable c n = c.skEnabled c n := if_neg (Bool.eq_false_iff.1 h)

theorem skDisable_on (h : c.skEn n = true) : skDisable c n =
    (c.setBit (SKn_CTL n) 31 false).setSk n { c.sk n with stopClk := c.skClocks n + 1 } := if_pos h

theorem skDisable_off (h : c.skEn n = false) : skDisable c n = c := if_neg (Bool.eq_false_iff.1 h)

theorem skMarked_skClocks : (c.skMarked n v).skClocks n = c.skClocks n := by
  have hne : SKn_CLK n ≠ SKn_CTL n := by
    unfold SKn_CLK SKn_CTL
    omega
  have hr : (c.skMarked n v).reg (SKn_CLK n) = c.reg (SKn_CLK n) := Chip.reg_setReg_other _ _ hne
  unfold Chip.skClocks Chip.fld
  rw [hr]
  rfl

theorem skRestart_skEn : (skRestart c n).skEn n = c.skEn n := by
  have h1 : SKn_CTL n ≠ SKn_STAT n := by
    unfold SKn_CTL SKn_STAT
    omega
  have h2 : SKn_CTL n ≠ SKn_SHO n := by
    unfold SKn_CTL SKn_SHO
    omega
  have h3 : SKn_CTL n ≠ SKn_SHI n := by
    unfold SKn_CTL SKn_SHI
    omega
  exact congrArg (wbit · 31) (((KeepsReg.setReg h3 c).trans (.setReg h2 _)).trans (.setReg h1 _))

/-! ### The feed, the lines, the lanes and the instruction words -/

theorem feedPush_room (h : (c.sk n).feed.length < 8) : c.feedPush n v = c.setSk n { c.sk n with
    feed := (c.sk n).feed ++ [v], fedAt := if (c.sk n).feed.isEmpty then c.tmu.raw else (c.sk n).fedAt } := if_pos h

theorem feedPush_full (h : 8 ≤ (c.sk n).feed.length) : c.feedPush n v = c.skCause n 3 := if_neg (Nat.not_lt.2 h)

theorem lanesWrite_refused (h : m = 0 ∨ m = c.fld (SCc_OWNER (n / 8)) 3 0)
    (hr : c.skEn n = true ∨ c.claimClash n second v = true) : lanesWrite c m n second v = c.skRefused n :=
  (if_neg (skMaster_of h)).trans (if_pos (Bool.or_eq_true_iff.2 hr))

theorem lanesWrite_free (h : m = 0 ∨ m = c.fld (SCc_OWNER (n / 8)) 3 0) (he : c.skEn n = false)
    (hc : c.claimClash n second v = false) :
    lanesWrite c m n second v = c.plainWrite m (if second then SKn_LANES1 n else SKn_LANES0 n) v := by
  refine (if_neg (skMaster_of h)).trans (if_neg ?_)
  rw [he, hc]
  exact Bool.false_ne_true

variable {cl : Nat}

theorem insnWrite_other (h0 : m ≠ 0) (h13 : m ≠ 13) : insnWrite c m cl i v = c.refuse := by
  refine if_pos ?_
  rw [beq_false_of_ne h0, beq_false_of_ne h13]
  rfl

theorem insnWrite_running {x : Nat} (hx : x < 8) (he : c.skEn (cl * 8 + x) = true)
    (hr : c.skInRange (cl * 8 + x) i = true) : insnWrite c m cl i v = c.refuse := by
  have hany : ((List.range 8).any fun k => c.skEn (cl * 8 + k) && c.skInRange (cl * 8 + k) i) = true := by
    refine List.any_eq_true.2 ⟨x, List.mem_range.2 hx, ?_⟩
    rw [he, hr]
    rfl
  unfold insnWrite
  rw [if_pos hany, ite_self]

theorem insnWrite_idle (h : m = 0 ∨ m = 13) (hx : ∀ x, x < 8 → c.skEn (cl * 8 + x) = false) :
    insnWrite c m cl i v = (c.setReg (SCc_INSN cl i) (v &&& 0xFFFF)).done := by
  have hm : ¬(!(m == 0 || m == 13)) = true := by
    rcases h with rfl | rfl <;> decide
  have hany : ¬((List.range 8).any fun k => c.skEn (cl * 8 + k) && c.skInRange (cl * 8 + k) i) = true := by
    rw [List.any_eq_true]
    rintro ⟨x, hm, hb⟩
    rw [hx x (List.mem_range.1 hm)] at hb
    exact Bool.false_ne_true hb
  rw [← w32_low_half]
  exact (if_neg hm).trans (if_neg hany)

/-! ### Pack FIFOs -/

theorem pfPop_word {x : PackWord} {xs : List PackWord} (h : (c.pf n).words = x :: xs) :
    c.pfPop n = (some x, c.setPf n { c.pf n with
      words := xs, last := x, credits := min (c.pf n).credits xs.length, freed := (c.pf n).freedAt c.tmu.raw }) := by
  unfold Chip.pfPop
  dsimp only
  rw [h]

/-- A pack FIFO whose oldest word, `x`, has been popped off `xs`. -/
def Chip.pfPopped (c : Chip) (n : Nat) (x : PackWord) (xs : List PackWord) : PackFifo :=
  { c.pf n with
    words := xs, last := x, credits := min (c.pf n).credits xs.length
    freed := if (x :: xs).length = 256 then c.tmu.raw else (c.pf n).freed }

theorem pfRead_word {x : PackWord} {xs : List PackWord} (h : (c.pf n).words = x :: xs) :
    c.pfRead n = (x, c.setPf n (c.pfPopped n x xs)) := by
  unfold Chip.pfRead
  rw [pfPop_word h]
  dsimp only
  unfold Chip.pfPopped PackFifo.freedAt
  rw [h]

theorem pfRead_empty (h : (c.pf n).words = []) : c.pfRead n =
    (⟨(c.pf n).last.data, (c.pf n).last.tag % 2 ^ 31 + 2 ^ 31⟩, c.flag (PFn_FLAGS n) 0 (320 + n)) := by
  have hp : c.pfPop n = (none, c) := by
    unfold Chip.pfPop
    dsimp only
    rw [h]
  unfold Chip.pfRead
  rw [hp]

theorem packRead_other (h : c.fld (PFn_CFG n) 5 4 ≠ 0) : packRead c m n = c.refuse := if_pos h

/-- The device after a word has been read by a master. -/
def Chip.packAnswered (d : Chip) (m n : Nat) (x : PackWord) : Chip :=
  ((d.latch m (PFn_DATA_LO n + 4) (hi32 x.data)).latch m (PFn_DATA_LO n + 8) (w32 x.tag)).answer (.ok (x.data % 2 ^ 32))

theorem packRead_reads (h : c.fld (PFn_CFG n) 5 4 = 0) {x : PackWord} (hr : c.pfRead n = (x, d)) :
    packRead c m n = d.packAnswered m n x := by
  refine (if_neg (not_not_intro h)).trans ?_
  rw [hr]
  rfl

theorem packAnswered_high (hn : n < 32) (x : PackWord) :
    (d.packAnswered m n x).latchedPart m (PFn_DATA_LO n + 4) = w32 (x.data / 2 ^ 32) := by
  have h4 : PFn_DATA_LO n + 4 < 2 ^ 32 := by
    unfold PFn_DATA_LO
    omega
  have h8 : PFn_DATA_LO n + 8 < 2 ^ 32 := by
    unfold PFn_DATA_LO
    omega
  refine (Chip.latchedPart_latch h8 h4 _).trans ((if_neg (by omega)).trans ?_)
  refine (Chip.latchedPart_latch h4 h4 _).trans ((if_pos rfl).trans ?_)
  unfold hi32 w32
  exact BitVec.eq_of_toNat_eq (by rw [BitVec.toNat_ofNat, BitVec.toNat_ofNat, Nat.mod_mod])

theorem packAnswered_tag (hn : n < 32) (x : PackWord) :
    (d.packAnswered m n x).latchedPart m (PFn_DATA_LO n + 8) = w32 x.tag := by
  have h8 : PFn_DATA_LO n + 8 < 2 ^ 32 := by
    unfold PFn_DATA_LO
    omega
  exact (Chip.latchedPart_latch h8 h8 _).trans (if_pos rfl)

theorem packAnswered_same (x : PackWord) : (d.packAnswered m n x).bus = .ok (x.data % 2 ^ 32) ∧
    (d.packAnswered m n x).pf n = d.pf n ∧ (∀ a, (d.packAnswered m n x).reg a = d.reg a) ∧
      (d.packAnswered m n x).mem = d.mem := ⟨rfl, rfl, fun _ => rfl, rfl⟩

theorem flag_same (a i src : Nat) : (c.flag a i src).pf n = c.pf n ∧ (c.flag a i src).mem = c.mem := ⟨rfl, rfl⟩

theorem pf_setPf (p : PackFifo) : (c.setPf n p).pf n = p := tblGet_set_same _ _ _ _

theorem pfGrant_grants (h : c.fld (PFn_CFG n) 5 4 = 1) (hc : (c.pf n).credits < (c.pf n).words.length)
    (hl : (c.pf n).credits < c.fld (PFn_CREDIT n) 8 0) :
    pfGrant c n = c.setPf n { c.pf n with credits := (c.pf n).credits + 1 } := if_pos ⟨h, hc, hl⟩

theorem pfGrant_not (h : c.fld (PFn_CFG n) 5 4 ≠ 1 ∨ (c.pf n).words.length ≤ (c.pf n).credits ∨
    c.fld (PFn_CREDIT n) 8 0 ≤ (c.pf n).credits) : pfGrant c n = c := by
  refine if_neg ?_
  rintro ⟨g1, g2, g3⟩
  rcases h with h | h | h
  · exact h g1
  · exact absurd g2 (Nat.not_lt.2 h)
  · exact absurd g3 (Nat.not_lt.2 h)

end Sys2Proof.Machine

namespace Sys2Proof
open Machine

/-- Settles O41: waits, stalls, commands, feeds, lanes and pack FIFOs, case by case. -/
theorem skipperCommandsAndPackFifos : Obligations.SkipperCommandsAndPackFifos := by
  unfold Obligations.SkipperCommandsAndPackFifos
  intro m n cl i second v levels c k e w clocked linedUp enabled waiting stalled s after powered ours ctl refused marked
    lanes pf
  have hn : k < 32 := n.isLt
  have hnot {y : Bool} (h : y = false) : ¬y = true := by
    rw [h]
    exact Bool.false_ne_true
  have hen {d} (hp : powered) (g : skRegWrite c m.val k 0x00 (v ||| 0x80000000) = d) : Does (.skipperEnable m n v) c d :=
    does_skipperEnable ((regWrite_SKn_CTL n hp).trans g)
  have hdis {d} (hp : powered) (g : skRegWrite c m.val k 0x00 (v &&& 0x7FFFFFFF) = d) :
      Does (.skipperDisable m n v) c d := does_skipperDisable ((regWrite_SKn_CTL n hp).trans g)
  have hre {d} (hp : powered) (g : skRegWrite c m.val k 0x00 (v ||| 0x40000000) = d) :
      Does (.skipperRestart m n v) c d := does_skipperRestart ((regWrite_SKn_CTL n hp).trans g)
  have hla {d} (hp : powered) (g : skRegWrite c m.val k (if second then 0x1C else 0x18) v = d) :
      Does (.lanesWrite m n second v) c d := does_lanesWrite ((regWrite_SKn_LANES n second hp).trans g)
  have hfeed {d} (hp : powered) (g : feedWrite c k v = d) : Does (.feedWrite m n v) c d :=
    does_feedWrite ((regWrite_SKn_FEED n hp).trans (skRegWrite_feed.trans g))
  have hirq {d} (hp : powered) (g : irqsetWrite c k v = d) : Does (.irqsetWrite m n v) c d :=
    does_irqsetWrite ((regWrite_SKn_IRQSET n hp).trans (skRegWrite_irqset.trans g))
  have hmarkOr {w : W32} (hw : ∀ i, i < 4 → wbit w i = false) : c.skMarked k (v ||| w) = c.skMarked k v :=
    congrArg (c.setFld (SKn_CTL k) 3 0) (wfld_congr fun i _ hi => wbit_or_of_not_right (hw i (Nat.lt_succ_of_le hi)))
  have hmarkAnd : c.skMarked k (v &&& 0x7FFFFFFF) = c.skMarked k v := by
    refine congrArg (c.setFld (SKn_CTL k) 3 0) (wfld_congr fun i _ hi => wbit_and_of_right ?_)
    exact (by decide : ∀ i, i ≤ 3 → wbit 0x7FFFFFFF i = true) i hi
  refine ⟨fun h => ?_, fun hc hw h2 hl => ?_, fun hc hw h2 hl => ⟨?_, fun ht => ?_, ?_⟩, fun h => ?_,
    fun hc hs h5 hf => ?_, fun hc hs h5 hf x xs hx hl => ?_, fun hp ho => ?_,
    fun hp ho hb => ⟨fun he => ⟨?_, ?_⟩, fun he => ⟨?_, ?_⟩⟩, fun hp ho he => ?_,
    fun hp ho he hb => ?_, fun hp hf => ?_, fun hp hf => ?_, fun hp hi => ?_, fun hp hv hb => ?_, fun hp ho hr => ?_,
    fun hp ho he hc => ?_, fun hp => ⟨fun h0 h13 => ?_, fun x hx he hr => ?_, fun hm hx => ?_⟩,
    fun hp => ⟨?_, ?_, ?_⟩, fun hp => ?_, fun hp hr => ?_, fun hp hr => ?_, fun h hc hl => ?_, fun h => ?_⟩
  case refine_1 => exact ⟨does_skWaitEnd (skWaitEnd_not h), does_skWaitTimeout (skWaitTimeout_not fun g => h g.1)⟩
  case refine_2 =>
    exact ⟨does_skWaitEnd (skWaitEnd_lined ⟨hc, hw⟩ h2 hl),
      fun ht => does_skWaitTimeout (skWaitTimeout_lined ⟨hc, hw⟩ ht h2 hl)⟩
  case refine_3 => exact does_skWaitEnd (skWaitEnd_notLined ⟨hc, hw⟩ h2 hl)
  case refine_4 => exact does_skWaitTimeout (skWaitTimeout_not fun g => hnot ht g.2)
  case refine_5 =>
    intro sees
    exact ⟨fun ht hs => does_skWaitTimeout ((skWaitTimeout_notLined ⟨hc, hw⟩ ht h2 hl).trans
        (if_neg (mt skSaw_iff.1 hs))),
      fun ht hs => does_skWaitTimeout ((skWaitTimeout_notLined ⟨hc, hw⟩ ht h2 hl).trans (if_pos (skSaw_iff.2 hs)))⟩
  case refine_6 => exact does_skStallRelease (skStallRelease_not h)
  case refine_7 =>
    have hr := skStallRelease_pull (skStallRelease_cond ⟨hc, hs⟩ h5) h5
    refine does_skStallRelease (hr.trans ?_)
    rcases hf with hf | hf
    · rw [skPullNow_empty (skReleased_feed.trans hf)]
      exact ite_self c
    · exact if_neg (mt of_decide_eq_true (Nat.not_lt.2 hf))
  case refine_8 =>
    intro go
    have hr := skStallRelease_pull (skStallRelease_cond ⟨hc, hs⟩ h5) h5
    refine does_skStallRelease (hr.trans ((if_pos (decide_eq_true hf)).trans ?_))
    rw [skPullNow_word (skReleased_feed.trans hx), skReleased_mark, if_neg hl]
    rfl
  case refine_9 =>
    refine ⟨hen hp (skRegWrite_other (by decide) (by decide) ho), hdis hp (skRegWrite_other (by decide) (by decide) ho),
      hre hp (skRegWrite_other (by decide) (by decide) ho), hla hp (skRegWrite_other ?_ ?_ ho)⟩ <;>
      cases second <;> decide
  case refine_10 =>
    have h30 : wbit (v ||| 0x80000000) 30 = false := (wbit_or_of_not_right rfl).trans hb
    refine hen hp ((skRegWrite_ctl ho).trans ((skCtlWrite_plain ho h30).trans (congrArg Chip.done ?_)))
    rw [hmarkOr (by decide), if_pos (wbit_or_of_right rfl), skEnable_off (skMarked_skEn.trans he),
      skEnabled_same skMarked_skp skMarked_tmu]
    rfl
  case refine_11 =>
    have h30 : wbit (v &&& 0x7FFFFFFF) 30 = false := (wbit_and_of_right rfl).trans hb
    have h31 : wbit (v &&& 0x7FFFFFFF) 31 = false := wbit_and_of_not_right rfl
    refine hdis hp ((skRegWrite_ctl ho).trans ((skCtlWrite_plain ho h30).trans (congrArg Chip.done ?_)))
    rw [hmarkAnd, if_neg (hnot h31), skDisable_off (skMarked_skEn.trans he)]
    rfl
  case refine_12 =>
    have h30 : wbit (v ||| 0x80000000) 30 = false := (wbit_or_of_not_right rfl).trans hb
    refine hen hp ((skRegWrite_ctl ho).trans ((skCtlWrite_plain ho h30).trans (congrArg Chip.done ?_)))
    rw [hmarkOr (by decide), if_pos (wbit_or_of_right rfl), skEnable_on (skMarked_skEn.trans he)]
    rfl
  case refine_13 =>
    have h30 : wbit (v &&& 0x7FFFFFFF) 30 = false := (wbit_and_of_right rfl).trans hb
    have h31 : wbit (v &&& 0x7FFFFFFF) 31 = false := wbit_and_of_not_right rfl
    refine hdis hp ((skRegWrite_ctl ho).trans ((skCtlWrite_plain ho h30).trans (congrArg Chip.done ?_)))
    rw [hmarkAnd, if_neg (hnot h31), skDisable_on (skMarked_skEn.trans he), skMarked_skClocks, skMarked_sk]
    rfl
  case refine_14 =>
    exact hre hp ((skRegWrite_ctl ho).trans (skCtlWrite_refused ho (wbit_or_of_right rfl) he))
  case refine_15 =>
    intro restarted
    have h31 : wbit (v ||| 0x40000000) 31 = true := (wbit_or_of_not_right rfl).trans hb
    have hoff : ((skRestart c k).skMarked k v).skEn k = false := (skMarked_skEn.trans skRestart_skEn).trans he
    have hmark : (skRestart c k).skMarked k (v ||| 0x40000000) = (skRestart c k).skMarked k v :=
      congrArg ((skRestart c k).setFld (SKn_CTL k) 3 0) (wfld_congr fun i _ hi => wbit_or_of_not_right
        ((by decide : ∀ i, i ≤ 3 → wbit 0x40000000 i = false) i hi))
    refine hre hp ((skRegWrite_ctl ho).trans ((skCtlWrite_restarts ho (wbit_or_of_right rfl) he).trans
      (congrArg Chip.done ?_)))
    rw [hmark, if_pos h31, skEnable_off hoff, skEnabled_same (skMarked_skp.trans skRestart_skp)
      (skMarked_tmu.trans skRestart_tmu)]
    rfl
  case refine_16 => exact hfeed hp (congrArg Chip.done (feedPush_room hf))
  case refine_17 => exact hfeed hp (congrArg Chip.done (feedPush_full hf))
  case refine_18 =>
    refine hirq hp (congrArg Chip.done ?_)
    rcases hi with hi | hi
    · exact if_neg (hnot hi)
    · rw [skLine_set hi]
      exact ite_self c
  case refine_19 => exact hirq hp (congrArg Chip.done ((if_pos hv).trans (skLine_clear hb)))
  case refine_20 => exact hla hp ((skRegWrite_lanes ho).trans (lanesWrite_refused ho hr))
  case refine_21 => exact hla hp ((skRegWrite_lanes ho).trans (lanesWrite_free ho he hc))
  case refine_22 => exact does_instructionWordWrite ((regWrite_SCc_INSN cl i hp).trans (insnWrite_other h0 h13))
  case refine_23 => exact does_instructionWordWrite ((regWrite_SCc_INSN cl i hp).trans (insnWrite_running hx he hr))
  case refine_24 => exact does_instructionWordWrite ((regWrite_SCc_INSN cl i hp).trans (insnWrite_idle hm hx))
  case refine_25 =>
    refine does_skipperEnable (regWrite_gated ((gated_sk n 0x00 (by decide) ?_).trans ?_))
    · unfold SKn_CTL
      omega
    · rw [hp]
      rfl
  case refine_26 =>
    refine does_feedWrite (regWrite_gated ((gated_sk n 0x24 (by decide) ?_).trans ?_))
    · unfold SKn_FEED
      omega
    · rw [hp]
      rfl
  case refine_27 =>
    have hlt := n.isLt
    refine does_packFifoReset (regWrite_gated ((clusterGated_pack (n := n.val) ?_ hlt).trans ?_))
    · unfold PFn_CTL
      omega
    · rw [hp]
      rfl
  case refine_28 => exact does_packFifoReset ((regWrite_PFn_CTL n hp).trans (if_pos (wbit_or_of_right rfl)))
  case refine_29 =>
    refine does_packFifoRead ((regRead_PFn_DATA_LO n hp).trans (packRead_other ?_))
    intro h0
    rcases hr with hr | hr
    · exact absurd (hr.symm.trans h0) (by decide)
    · exact absurd (hr.symm.trans h0) (by decide)
  case refine_30 =>
    have hread {x d} (hx : c.pfRead k = (x, d)) : Does (.packFifoRead m n) c (d.packAnswered m.val k x) :=
      does_packFifoRead ((regRead_PFn_DATA_LO n hp).trans (packRead_reads hr hx))
    cases hw : (c.pf k).words with
    | nil =>
      obtain ⟨hbus, hpf, hreg, hmem⟩ := packAnswered_same (d := c.flag (PFn_FLAGS k) 0 (320 + k)) (m := m.val) (n := k)
        ⟨(c.pf k).last.data, (c.pf k).last.tag % 2 ^ 31 + 2 ^ 31⟩
      obtain ⟨gpf, gmem⟩ := flag_same (c := c) (n := k) (PFn_FLAGS k) 0 (320 + k)
      refine (hread (pfRead_empty hw)).gives ⟨fun x xs hx => ?_, fun _ => ?_⟩
      · exact absurd hx (List.cons_ne_nil x xs).symm
      · exact ⟨hbus, hpf.trans gpf, packAnswered_tag hn _, hreg, hmem.trans gmem⟩
    | cons y ys =>
      refine (hread (pfRead_word hw)).gives ⟨fun x xs hx => ?_, fun h => ?_⟩
      · obtain ⟨rfl, rfl⟩ := List.cons_eq_cons.1 hx
        exact ⟨rfl, (packAnswered_same y).2.1.trans (pf_setPf _), packAnswered_high hn _, packAnswered_tag hn _, fun a => rfl, rfl⟩
      · exact absurd h (List.cons_ne_nil y ys)
  case refine_31 => exact does_packCreditGrant (pfGrant_grants h hc hl)
  case refine_32 => exact does_packCreditGrant (pfGrant_not h)

end Sys2Proof
end

section
/-!
PROOF. Bank owners, the atomic port and the locks (R28, R29, R357, R359, R360, R362).
-/
namespace Sys2Proof.Machine

variable {c d : Chip} {m a b n : Nat} {v w : W32} {swap : Bool}

/-! ### Bank owners -/

theorem bankOwnerWrite_allowed (h : m = 0 ∨ c.inGroup m (c.ownerAfter b) = true) : bankOwnerWrite c m b v =
    { c with memc := { c.memc with handovers := c.memc.handovers ++ [Handover.mk b (wfld v 3 0) m] } }.done := if_pos h

theorem bankOwnerWrite_other (h : ¬(m = 0 ∨ c.inGroup m (c.ownerAfter b) = true)) : bankOwnerWrite c m b v = c.refuse :=
  if_neg h

theorem ownerTakes_none (h : c.memc.handovers.find? (fun h => h.bank == b) = none) : c.ownerTakes b = (none, c) := by
  unfold Chip.ownerTakes
  rw [h]

/-- The oldest handover of the bank in effect. -/
def Chip.handedOver (c : Chip) (b : Nat) (h : Handover) : Chip :=
  ({ c with memc := { c.memc with handovers := c.memc.handovers.erase h } }).setFld (MEM_BOWN b) 3 0 h.og

theorem ownerTakes_some {h : Handover} (hh : c.memc.handovers.find? (fun h => h.bank == b) = some h) :
    c.ownerTakes b = (some h.og, c.handedOver b h) := by
  unfold Chip.ownerTakes
  rw [hh]
  rfl

theorem frame_register_ne {f : Nat} (hf : f < 8) : TSK_FRn_CFG f ≠ MEM_BOWN b ∧ TSK_FRn_BANKS f ≠ MEM_BOWN b ∨ 32 ≤ b := by
  unfold TSK_FRn_CFG TSK_FRn_BANKS MEM_BOWN
  omega

/-- A bank that no enabled frame reads its image from exchanges nothing. -/
theorem imageExchange_unbound {og : Nat} (h : ∀ f, f < 8 → c.bit (TSK_FRn_CFG f) 31 = true → c.ibank f ≠ b) :
    c.imageExchange b og = c := by
  unfold Chip.imageExchange
  have hl : ∀ f, f ∈ List.range 8 → f < 8 := fun f hf => List.mem_range.1 hf
  generalize List.range 8 = fs at hl ⊢
  induction fs with
  | nil => rfl
  | cons f fs ih =>
    rw [List.foldl_cons, if_neg ?_]
    · exact ih fun g hg => hl g (List.mem_cons_of_mem f hg)
    · rw [Bool.and_eq_true, Bool.and_eq_true, beq_iff_eq]
      rintro ⟨⟨hon, hb⟩, -⟩
      exact h f (hl f List.mem_cons_self) hon hb

theorem handedOver_frame {h : Handover} {f : Nat} (hf : f < 8) (hb : b < 32) :
    (c.handedOver b h).bit (TSK_FRn_CFG f) 31 = c.bit (TSK_FRn_CFG f) 31 ∧ (c.handedOver b h).ibank f = c.ibank f := by
  obtain ⟨h1, h2⟩ := (frame_register_ne (b := b) hf).resolve_right (Nat.not_le.2 hb)
  exact ⟨congrArg (wbit · 31) (Chip.reg_setReg_other _ _ h1), congrArg (wfld · 4 0) (Chip.reg_setReg_other _ _ h2)⟩

theorem bankOwnerTakeEffect_none (h : c.memc.handovers.find? (fun h => h.bank == b) = none) :
    bankOwnerTakeEffect c b = c := by
  unfold bankOwnerTakeEffect
  rw [ownerTakes_none h]

theorem bankOwnerTakeEffect_unbound (hb : b < 32) {h : Handover}
    (hh : c.memc.handovers.find? (fun h => h.bank == b) = some h)
    (hu : ∀ f, f < 8 → c.bit (TSK_FRn_CFG f) 31 = true → c.ibank f ≠ b) :
    bankOwnerTakeEffect c b = c.handedOver b h := by
  unfold bankOwnerTakeEffect
  rw [ownerTakes_some hh]
  refine imageExchange_unbound fun f hf hon => ?_
  obtain ⟨h1, h2⟩ := handedOver_frame (c := c) (h := h) hf hb
  rw [h2]
  exact hu f hf (h1.symm.trans hon)

/-! ### Aligned words of SRAM -/

/-- The address of a word in SRAM. -/
def SramWord (a : Nat) : Prop := a % 4 = 0 ∧ 0x10000000 ≤ a ∧ a < 0x11000000

theorem regionOf_sram (h : 0x10000000 ≤ a ∧ a < 0x11000000) : regionOf a = .sram (bankOf a) := by
  unfold regionOf
  rw [if_neg (by omega), if_neg (by omega), if_pos (by omega)]
  rfl

theorem regionOf_not_sram (h : ¬(0x10000000 ≤ a ∧ a < 0x11000000)) : regionOf a ≠ .sram b := by
  by_cases hlo : a < 0x10000000
  · by_cases h0 : a < 0x20000
    · rw [regionOf, if_pos h0]
      nofun
    · rw [regionOf, if_neg h0, if_pos hlo]
      nofun
  · exact regionOf_above (by omega)

theorem bankOf_word_end (h : SramWord a) : bankOf (a + 4 - 1) = bankOf a := by
  obtain ⟨h1, h2, -⟩ := h
  unfold bankOf
  omega

theorem regionOf_word_end (h : SramWord a) : regionOf (a + 4 - 1) = .sram (bankOf a) := by
  have he := regionOf_sram (a := a + 4 - 1) (by obtain ⟨h1, h2, h3⟩ := h; omega)
  rw [he, bankOf_word_end h]

theorem wordsOf_in_sram (h : SramWord a) (hw : n ∈ wordsOf a 4) : 0x10000000 ≤ n ∧ n < 0x11000000 := by
  obtain ⟨h1, h2, h3⟩ := h
  obtain ⟨i, hi, rfl⟩ := List.mem_map.1 hw
  have hi' := List.mem_range.1 hi
  omega

/-- The bank port accepts the word: its bank stands, and the master owns it. -/
def Chip.portTakes (c : Chip) (m a : Nat) : Prop :=
  SramWord a ∧ c.bit (MEM_BSTAT (bankOf a)) 31 = false ∧ c.ownsBank m (bankOf a) = true

theorem accCheck_taken (h : c.portTakes m a) (write : Bool) : c.accCheck m a 4 write = none := by
  obtain ⟨hs, hb, ho⟩ := h
  unfold Chip.accCheck
  rw [regionOf_sram hs.2]
  dsimp only
  rw [regionOf_word_end hs, if_neg (not_not_intro rfl), if_neg (Bool.eq_false_iff.1 hb), if_pos ho]

theorem memRead_sound (h : c.portTakes m a) (hs : ∀ w, w ∈ wordsOf a 4 → w ∉ c.memc.ueWords ∧ w ∉ c.memc.ceWords) :
    c.memRead m a 4 = (.ok (c.bytes a 4), c) := by
  have hu : ((wordsOf a 4).find? fun w => c.memc.ueWords.contains w) = none := by
    refine List.find?_eq_none.2 fun w hw => ?_
    rw [List.contains_iff_mem]
    exact (hs w hw).1
  have hc : ¬((wordsOf a 4).any fun w => c.memc.ceWords.contains w) = true := by
    rw [List.any_eq_true]
    rintro ⟨w, hw, hm⟩
    exact (hs w hw).2 (List.contains_iff_mem.1 hm)
  have ho : regionOf a ≠ .outbound := by
    rw [regionOf_sram h.1.2]
    nofun
  unfold Chip.memRead
  rw [accCheck_taken h]
  dsimp only
  rw [if_neg ho, hu]
  exact if_neg hc

theorem memRead_ue (h : c.portTakes m a) (hu : ((wordsOf a 4).find? fun w => c.memc.ueWords.contains w) = some n) :
    c.memRead m a 4 = (.error .ecc, c.ueErr n) := by
  have ho : regionOf a ≠ .outbound := by
    rw [regionOf_sram h.1.2]
    nofun
  unfold Chip.memRead
  rw [accCheck_taken h]
  dsimp only
  rw [if_neg ho, hu]

/-- Bytes stored over words without an error. -/
def Chip.wordStored (c : Chip) (a : Nat) (w : W32) : Chip :=
  ({ c with memc := { c.memc with
      ueWords := c.memc.ueWords.filter fun x => !(wholeWords a 4).contains x
      ceWords := c.memc.ceWords.filter fun x => !(wordsOf a 4).contains x } }).setWord a w

theorem memWrite_sound (h : c.portTakes m a) (hs : ∀ w, w ∈ wordsOf a 4 → w ∉ c.memc.ueWords ∧ w ∉ c.memc.ceWords)
    (w : W32) : c.memWrite m a (leBytes 4 w.toNat) = (none, c.wordStored a w) := by
  have hlen : (leBytes 4 w.toNat).length = 4 := rfl
  have hpart {p : Nat → Bool} (hp : ∀ x, x ∈ wordsOf a 4 → ¬p x = true) :
      (((wordsOf a 4).filter fun x => !(wholeWords a 4).contains x).find? p) = none :=
    List.find?_eq_none.2 fun x hx => hp x (List.mem_filter.1 hx).1
  have hu := hpart (p := fun x => c.memc.ueWords.contains x) fun x hx => by
    rw [List.contains_iff_mem]
    exact (hs x hx).1
  have hc : ¬(((wordsOf a 4).filter fun x => !(wholeWords a 4).contains x).any fun x => c.memc.ceWords.contains x) =
      true := by
    rw [List.any_eq_true]
    rintro ⟨x, hx, hm⟩
    exact (hs x (List.mem_filter.1 hx).1).2 (List.contains_iff_mem.1 hm)
  have ho : regionOf a ≠ .outbound := by
    rw [regionOf_sram h.1.2]
    nofun
  unfold Chip.memWrite
  rw [hlen, accCheck_taken h]
  dsimp only
  rw [if_neg ho, hu]
  dsimp only
  rw [if_neg hc]
  rfl

/-! ### The atomic port -/

theorem ceMended_portTakes (h : c.portTakes m a) : (c.ceMended a).portTakes m a := h

theorem ceMended_wordStored (w : W32) : (c.ceMended a).wordStored a w = c.wordStored a w := by
  unfold Chip.wordStored Chip.ceMended
  dsimp only
  rw [List.filter_filter]
  simp only [Bool.and_self]

/-- The word that an atomic access stores. -/
def Chip.atomicNew (c : Chip) (a : Nat) (swap : Bool) (opnd : W32) : W32 := if swap then opnd else c.word a + opnd

theorem atomicAt_sound (h : c.portTakes m a) (hs : ∀ w, w ∈ wordsOf a 4 → w ∉ c.memc.ueWords ∧ w ∉ c.memc.ceWords)
    (opnd : W32) : c.atomicAt m a swap opnd = (.ok (c.word a), c.wordStored a (c.atomicNew a swap opnd)) := by
  have hs' : ∀ w, w ∈ wordsOf a 4 → w ∉ (c.ceMended a).memc.ueWords ∧ w ∉ (c.ceMended a).memc.ceWords := by
    intro w hw
    obtain ⟨h1, h2⟩ := hs w hw
    exact ⟨h1, fun hm => h2 (List.mem_filter.1 hm).1⟩
  unfold Chip.atomicAt
  rw [memRead_sound h hs]
  dsimp only
  rw [memWrite_sound (ceMended_portTakes h) hs', ceMended_wordStored]
  rfl

theorem atomicAt_ue (h : c.portTakes m a) (hu : ((wordsOf a 4).find? fun w => c.memc.ueWords.contains w) = some n)
    (opnd : W32) : c.atomicAt m a swap opnd = (.error .ecc, c.ueErr n) := by
  unfold Chip.atomicAt
  rw [memRead_ue h hu]

theorem ueErr_sram (h : 0x10000000 ≤ n ∧ n < 0x11000000) :
    c.ueErr n = ((c.inc MEM_ECCUE).setReg MEM_ECCADDR (w32 n)).memCause 3 := by
  refine if_neg ?_
  rw [regionOf_sram h]
  nofun

/-- The address that the master has set at the atomic port. -/
def Chip.atomicAddr (c : Chip) (m : Nat) : Nat := (tblGet 0 c.memc.atAddr m).toNat

/-- The atomic port grants the master its access. -/
def Chip.atomicGranted (c : Chip) (m : Nat) : Prop :=
  c.portTakes m (c.atomicAddr m) ∧ c.segAllows m (c.atomicAddr m) 4 3 = true

theorem atomicRead_eq : atomicRead c m swap =
    if c.atomicAddr m % 4 = 0 ∧ (match regionOf (c.atomicAddr m) with
        | .sram b => c.ownsBank m b && !c.bit (MEM_BSTAT b) 31
        | _ => false : Bool) ∧ c.segAllows m (c.atomicAddr m) 4 3 then
      match c.atomicAt m (c.atomicAddr m) swap (tblGet 0 c.memc.atOpnd m) with
      | (.ok old, c1) => c1.answer (.ok old.toNat)
      | (.error e, c1) => c1.answer e.result
    else (c.memCause 7).refuse := rfl

theorem atomic_sram_iff : (match regionOf a with
    | .sram b => c.ownsBank m b && !c.bit (MEM_BSTAT b) 31
    | _ => false : Bool) = true ↔ (0x10000000 ≤ a ∧ a < 0x11000000) ∧ c.bit (MEM_BSTAT (bankOf a)) 31 = false ∧
      c.ownsBank m (bankOf a) = true := by
  by_cases h : 0x10000000 ≤ a ∧ a < 0x11000000
  · rw [regionOf_sram h]
    dsimp only
    rw [Bool.and_eq_true, Bool.not_eq_true', and_comm (a := c.ownsBank m (bankOf a) = true)]
    exact ⟨fun g => ⟨h, g⟩, fun g => g.2⟩
  · refine ⟨fun g => ?_, fun g => absurd g.1 h⟩
    split at g
    next b hb => exact absurd hb (regionOf_not_sram h)
    next => exact absurd g Bool.false_ne_true

theorem atomicGranted_iff : c.atomicGranted m ↔ c.atomicAddr m % 4 = 0 ∧ (match regionOf (c.atomicAddr m) with
    | .sram b => c.ownsBank m b && !c.bit (MEM_BSTAT b) 31
    | _ => false : Bool) = true ∧ c.segAllows m (c.atomicAddr m) 4 3 = true := by
  rw [atomic_sram_iff]
  unfold Chip.atomicGranted Chip.portTakes SramWord
  exact ⟨fun ⟨⟨⟨h1, h2⟩, h3⟩, h4⟩ => ⟨h1, ⟨h2, h3⟩, h4⟩, fun ⟨h1, ⟨h2, h3⟩, h4⟩ => ⟨⟨⟨h1, h2⟩, h3⟩, h4⟩⟩

theorem atomicRead_refused (h : ¬c.atomicGranted m) : atomicRead c m swap = (c.memCause 7).refuse :=
  if_neg (mt atomicGranted_iff.2 h)

theorem atomicRead_sound (h : c.atomicGranted m)
    (hs : ∀ w, w ∈ wordsOf (c.atomicAddr m) 4 → w ∉ c.memc.ueWords ∧ w ∉ c.memc.ceWords) : atomicRead c m swap =
      (c.wordStored (c.atomicAddr m) (c.atomicNew (c.atomicAddr m) swap (tblGet 0 c.memc.atOpnd m))).answer
        (.ok (c.word (c.atomicAddr m)).toNat) := by
  rw [atomicRead_eq, if_pos (atomicGranted_iff.1 h), atomicAt_sound h.1 hs]

theorem atomicRead_ue (h : c.atomicGranted m)
    (hu : ((wordsOf (c.atomicAddr m) 4).find? fun w => c.memc.ueWords.contains w) = some n) : atomicRead c m swap =
      (((c.inc MEM_ECCUE).setReg MEM_ECCADDR (w32 n)).memCause 3).answer .ecc := by
  have hn := wordsOf_in_sram h.1.1 (List.mem_of_find?_eq_some hu)
  rw [atomicRead_eq, if_pos (atomicGranted_iff.1 h), atomicAt_ue h.1 hu, ueErr_sram hn]
  rfl

/-! ### Locks -/

theorem lockRead_free (h : c.fld (MEM_LK n) 4 0 = 0) :
    lockRead c m n = (c.setReg (MEM_LK n) (w32 (m + 1))).answer (.ok 0) := if_pos h

theorem lockRead_held (h : c.fld (MEM_LK n) 4 0 ≠ 0) : lockRead c m n = c.answer (.ok (c.fld (MEM_LK n) 4 0)) := if_neg h

theorem lockWrite_gives (hv : wfld v 4 0 = 0) (h : m = 0 ∨ c.fld (MEM_LK n) 4 0 = m + 1) :
    lockWrite c m n v = (c.setReg (MEM_LK n) 0).done := if_pos ⟨hv, h⟩

theorem lockWrite_refused (h : wfld v 4 0 ≠ 0 ∨ (m ≠ 0 ∧ c.fld (MEM_LK n) 4 0 ≠ m + 1)) :
    lockWrite c m n v = (c.memCause 7).refuse := by
  refine if_neg ?_
  rintro ⟨h1, h2⟩
  rcases h with h | ⟨h3, h4⟩
  · exact h h1
  · exact h2.elim h3 h4

end Sys2Proof.Machine

namespace Sys2Proof
open Machine

/-- Settles O42: handovers, the atomic port and the locks, case by case. The write is checked against the last waiting
handover; that an uncorrectable error at the atomic port is answered without ATERR (log entry 190), and that every other
refused access there sets it with a bus error (log entries 183, 191), are the model's choices. -/
theorem banksAtomicsAndLocks : Obligations.BanksAtomicsAndLocks := by
  unfold Obligations.BanksAtomicsAndLocks
  intro m b n v c own asked waiting group writer unbound a opnd bank inSram granted sound stored turned lock holder
  have hown {d} (g : bankOwnerWrite c m.val b.val v = d) : Does (.bankOwnerWrite m b v) c d :=
    does_bankOwnerWrite ((regWrite_MEM_BOWN b).trans g)
  have hadd {d} (g : atomicRead c m.val false = d) : Does (.atomicFaddRead m) c d :=
    does_atomicFaddRead (regRead_MEM_AT_FADD.trans g)
  have hswap {d} (g : atomicRead c m.val true = d) : Does (.atomicSwapRead m) c d :=
    does_atomicSwapRead (regRead_MEM_AT_SWAP.trans g)
  have hlock {d} (g : lockWrite c m.val n.val v = d) : Does (.lockWrite m n v) c d :=
    does_lockWrite ((regWrite_MEM_LK n).trans g)
  have hgrant : granted ↔ c.atomicGranted m.val :=
    ⟨fun ⟨h1, h2, h3, h4, h5⟩ => ⟨⟨⟨h1, h2⟩, h3, h4⟩, h5⟩, fun ⟨⟨⟨h1, h2⟩, h3, h4⟩, h5⟩ => ⟨h1, h2, h3, h4, h5⟩⟩
  refine ⟨fun h => hown (bankOwnerWrite_allowed h), fun h => hown (bankOwnerWrite_other h), fun h => ?_,
    fun h hh hu => ?_, fun hg hs => ⟨hadd (atomicRead_sound (hgrant.1 hg) hs), hswap (atomicRead_sound (hgrant.1 hg) hs)⟩,
    fun hg => ⟨hadd (atomicRead_refused (mt hgrant.2 hg)), hswap (atomicRead_refused (mt hgrant.2 hg))⟩,
    fun hg w hw => ⟨hadd (atomicRead_ue (hgrant.1 hg) hw), hswap (atomicRead_ue (hgrant.1 hg) hw)⟩,
    fun h => does_lockRead ((regRead_MEM_LK n).trans (lockRead_free h)),
    fun h => does_lockRead ((regRead_MEM_LK n).trans (lockRead_held h)),
    fun hv h => hlock (lockWrite_gives hv h), fun h => hlock (lockWrite_refused h)⟩
  · refine does_bankOwnerTakeEffect (bankOwnerTakeEffect_none ?_)
    rw [← List.head?_filter]
    exact List.head?_eq_none_iff.2 h
  · refine does_bankOwnerTakeEffect (bankOwnerTakeEffect_unbound b.isLt ?_ hu)
    rw [← List.head?_filter]
    exact hh

end Sys2Proof
end

section
/-!
PROOF. The scrubber and the march test (R363, R365 to R371).
-/
namespace Sys2Proof.Machine

variable {c d : Chip} {m a b l : Nat} {v w : W32} {r : MarchRun} {x : BankResult}

/-! ### The scrubber -/

/-- The instant at which the next line is due. -/
def Chip.scrubDue (c : Chip) : Nat := c.memc.scrubAt + (c.reg MEM_SCRUB).toNat * 65536000

theorem scrubLine_not (h : c.bit MEM_CTL 0 = false ∨ c.lt < c.scrubDue) : scrubLine c = c := by
  refine if_neg ?_
  rw [Bool.and_eq_true, decide_eq_true_iff]
  rintro ⟨g1, g2⟩
  rcases h with h | h
  · exact Bool.false_ne_true (h.symm.trans g1)
  · exact absurd g2 (Nat.not_le.2 h)

theorem scrubBank_clean (h : ∀ w, w ∈ wordsOf (0x10000000 + b * 0x80000 + l * 32) 32 →
    w ∉ c.memc.ueWords ∧ w ∉ c.memc.ceWords) : Chip.scrubBank l c b = c := by
  have hc : ¬((wordsOf (0x10000000 + b * 0x80000 + l * 32) 32).any fun w => c.memc.ceWords.contains w) = true := by
    rw [List.any_eq_true]
    rintro ⟨w, hw, hm⟩
    exact (h w hw).2 (List.contains_iff_mem.1 hm)
  have hu : ((wordsOf (0x10000000 + b * 0x80000 + l * 32) 32).find? fun w => c.memc.ueWords.contains w) = none := by
    refine List.find?_eq_none.2 fun w hw => ?_
    rw [List.contains_iff_mem]
    exact (h w hw).1
  unfold Chip.scrubBank
  dsimp only
  rw [hu, if_neg hc]
  rfl

theorem foldl_scrubBank_clean (bs : List Nat) (h : ∀ b, b ∈ bs →
    ∀ w, w ∈ wordsOf (0x10000000 + b * 0x80000 + l * 32) 32 → w ∉ c.memc.ueWords ∧ w ∉ c.memc.ceWords) :
    bs.foldl (Chip.scrubBank l) c = c := by
  induction bs with
  | nil => rfl
  | cons b bs ih =>
    rw [List.foldl_cons, scrubBank_clean (h b List.mem_cons_self)]
    exact ih fun g hg => h g (List.mem_cons_of_mem b hg)

theorem scrubLine_clean (h : c.bit MEM_CTL 0 = true) (ht : c.scrubDue ≤ c.lt)
    (hc : ∀ b, b < 32 → ∀ w, w ∈ wordsOf (0x10000000 + b * 0x80000 + c.memc.scrubLine * 32) 32 →
      w ∉ c.memc.ueWords ∧ w ∉ c.memc.ceWords) : scrubLine c =
    { c with memc := { c.memc with scrubLine := (c.memc.scrubLine + 1) % 16384, scrubAt := c.lt } } := by
  refine (if_pos ?_).trans ?_
  · rw [h, Bool.true_and]
    exact decide_eq_true ht
  · dsimp only
    rw [foldl_scrubBank_clean _ fun b hb => hc b (List.mem_range.1 hb)]

/-! ### The start of a run -/

theorem marchCtlWrite_other (h : m ≠ 0) : marchCtlWrite c m v = c.refuse := if_pos h

/-- The options of a run as MEM_MARCH_CTL shows them. -/
def marchOpts (v : W32) : Nat :=
  at_ (if wfld v 9 8 = 1 then 1 else 0) 8 + at_ (b2n (wbit v 4)) 4 + at_ (b2n (wbit v 3)) 3

theorem marchCtlWrite_busy (hm : m = 0) (h : c.memc.march ≠ none) : marchCtlWrite c m v =
    (c.setReg MEM_MARCH_CTL (w32 (c.fld MEM_MARCH_CTL 30 29 * 2 ^ 29 + marchOpts v))).done := by
  refine (if_neg (not_not_intro hm)).trans (if_neg ?_)
  rw [Bool.and_eq_true, Option.isNone_iff_eq_none]
  exact fun g => h g.2

/-- The banks that a run takes: those selected whose owner group has the engine. -/
def Chip.marchOwn (c : Chip) : List Nat :=
  ((List.range 32).filter fun b => c.bit MEM_MARCH_BANKS b).filter fun b => c.ownsBank 14 b

/-- The banks that a run skips, marked, and the counts of the others cleared. -/
def Chip.marchNoted (c : Chip) : Chip :=
  c.marchOwn.foldl (fun d b => d.setFld (MEM_BSTAT b) 15 8 0)
    ((List.range 32).foldl (fun d b => d.setBit (MEM_BSTAT b) 30
      (((List.range 32).filter fun b => c.bit MEM_MARCH_BANKS b).contains b && !c.marchOwn.contains b)) c)

/-- The device as a run begins with these options. -/
def Chip.marchBegun (c : Chip) (v : W32) : Chip := c.marchNoted.setReg MEM_MARCH_CTL (w32 (2 ^ 30 + marchOpts v))

/-- The run that a write starts. -/
def Chip.marchNew (c : Chip) (v : W32) : MarchRun := ⟨c.marchOwn, if wfld v 9 8 = 1 then 1 else 0, wbit v 4, wbit v 3, none⟩

theorem marchCtlWrite_starts (hm : m = 0) (h : c.memc.march = none) (hv : wbit v 31 = true) :
    marchCtlWrite c m v = ((c.marchBegun v).marchRun (c.marchNew v)).done := by
  refine (if_neg (not_not_intro hm)).trans (if_pos ?_)
  rw [hv, h]
  rfl

/-- What no step of a fold changes, the fold does not change. -/
theorem foldl_same {α β : Type} (g : Chip → α) (f : Chip → β → Chip) (bs : List β)
    (h : ∀ b, b ∈ bs → ∀ c, g (f c b) = g c) (c : Chip) : g (bs.foldl f c) = g c := by
  induction bs generalizing c with
  | nil => rfl
  | cons b bs ih =>
    exact (ih (fun x hx => h x (List.mem_cons_of_mem b hx)) _).trans (h b List.mem_cons_self c)

theorem marchOwn_lt (h : b ∈ c.marchOwn) : b < 32 := List.mem_range.1 (List.mem_filter.1 (List.mem_filter.1 h).1).1

theorem marchNoted_memc : c.marchNoted.memc = c.memc := by
  refine (foldl_same Chip.memc _ _ (fun b _ d => ?_) _).trans (foldl_same Chip.memc _ _ (fun b _ d => ?_) c)
  · exact Chip.setFld_memc d _ _ _ _
  · exact Chip.setBit_memc d _ _ _

theorem marchBegun_memc : (c.marchBegun v).memc = c.memc := (Chip.setReg_memc _ _ _).trans marchNoted_memc

theorem marchBegun_reg (h : ∀ b, b < 32 → a ≠ MEM_BSTAT b) (h' : a ≠ MEM_MARCH_CTL) :
    (c.marchBegun v).reg a = c.reg a := by
  refine (Chip.reg_setReg_other _ _ h').trans ?_
  refine (foldl_same (Chip.reg · a) _ _ (fun b hb d => ?_) _).trans (foldl_same (Chip.reg · a) _ _ (fun b hb d => ?_) c)
  · exact KeepsReg.setFld (h b (marchOwn_lt hb)) d
  · exact KeepsReg.setBit (h b (List.mem_range.1 hb)) d

theorem marchBegun_segAllows {n need : Nat} : (c.marchBegun v).segAllows 14 a n need = c.segAllows 14 a n need := by
  have hb (s : Nat) (hs : s < 16) : (c.marchBegun v).reg (XDM_SEGm_BASEs 14 s) = c.reg (XDM_SEGm_BASEs 14 s) := by
    refine marchBegun_reg (fun b hb => ?_) ?_ <;> unfold XDM_SEGm_BASEs
    · unfold MEM_BSTAT
      omega
    · unfold MEM_MARCH_CTL
      omega
  have hz (s : Nat) (hs : s < 16) : (c.marchBegun v).reg (XDM_SEGm_SIZEs 14 s) = c.reg (XDM_SEGm_SIZEs 14 s) := by
    refine marchBegun_reg (fun b hb => ?_) ?_ <;> unfold XDM_SEGm_SIZEs
    · unfold MEM_BSTAT
      omega
    · unfold MEM_MARCH_CTL
      omega
  unfold Chip.segAllows
  rw [Bool.eq_iff_iff, List.any_eq_true, List.any_eq_true]
  refine exists_congr fun s => and_congr_right fun hs => ?_
  unfold Chip.segCovers Chip.fld
  rw [hb s (List.mem_range.1 hs), hz s (List.mem_range.1 hs)]

theorem marchBegun_uncovered : (c.marchBegun v).marchUncovered = c.marchUncovered := by
  funext b
  unfold Chip.marchUncovered
  simp only [marchBegun_segAllows]

theorem marchUncovered_none (h : c.segAllows 14 (0x10000000 + b * 0x80000) 0x80000 3 = true) :
    c.marchUncovered b = none := if_pos h

theorem marchRun_covered (h : r.banks.findSome? c.marchUncovered = none) :
    c.marchRun r = { c with memc := { c.memc with march := some { r with frozen := none } } } := by
  unfold Chip.marchRun
  rw [h]

theorem marchRun_freezes (h : r.banks.findSome? c.marchUncovered = some a) : c.marchRun r =
    ({ c with memc := { c.memc with march := some { r with frozen := some a } } }).freezeAt 0x11 14 a 64 3 := by
  unfold Chip.marchRun
  rw [h]

/-! ### The end of a run -/

theorem marchDone_none {xs : List BankResult} (h : c.memc.march = none) : marchDone c xs = c := by
  unfold marchDone
  rw [h]

theorem marchDone_frozen {xs : List BankResult} (h : c.memc.march = some r) (hf : r.frozen ≠ none) :
    marchDone c xs = c := by
  unfold marchDone
  rw [h]
  exact if_pos (Option.isSome_iff_ne_none.2 hf)

theorem marchDone_ends {xs : List BankResult} (h : c.memc.march = some r) (hf : r.frozen = none) :
    marchDone c xs = (xs.foldl (fun c x => c.marchBank r x) c).marchEnds r := by
  unfold marchDone
  rw [h]
  refine if_neg ?_
  rw [hf]
  exact Bool.false_ne_true

/-- The device with no run in progress. -/
def Chip.marchOver (d : Chip) : Chip := { d with memc := { d.memc with march := none } }

/-- NORING, DONE and BUSY at the end of a run. -/
def Chip.marchFlagged (d : Chip) : Chip :=
  (((if d.bit (MEM_BSTAT 31) 31 then d.setBit HIF_STAT 29 true else d).setBit MEM_MARCH_CTL 30 false).setBit
    MEM_MARCH_CTL 29 true).memCause 4

theorem marchEnds_eq : d.marchEnds r = (if r.repair && d.marchOver.bit MEM_STAT 0 then
    (d.marchOver.mramWrite 0x20000000 d.marchOver.repairMap).mramWrite 0x20000800 d.marchOver.repairMap
      else d.marchOver).marchFlagged := rfl

/-! ### One bank's result -/

theorem marchBank_other (h : x.bank ∉ r.banks) : c.marchBank r x = c := by
  refine if_pos ?_
  rw [Bool.not_eq_true', ← Bool.not_eq_true, List.contains_iff_mem]
  exact h

theorem marchBank_clean (h : x.bank ∈ r.banks) (hx : x.rows = []) (hb : c.bit (MEM_BSTAT x.bank) 31 = false)
    (hp : r.preserve = true) : c.marchBank r x =
      (let d := ((c.wordsRead fun w => regionOf w == .sram x.bank).setFld (MEM_BSTAT x.bank) 15 8 0).setBit
        (MEM_BSTAT x.bank) 31 false
      { d with memc := { d.memc with ceWords := d.memc.ceWords.filter fun w => !(regionOf w == .sram x.bank) } }) := by
  have hc : ¬(!r.banks.contains x.bank) = true := by
    rw [List.contains_iff_mem.2 h]
    exact Bool.false_ne_true
  refine (if_neg hc).trans ?_
  rw [hp, hx, hb, List.length_nil, show satTo 255 0 = 0 from rfl]
  cases r.repair <;> rfl

theorem wordsRead_none {here : Nat → Bool} (hc : ∀ w, w ∈ c.memc.ceWords → here w = false)
    (hu : ∀ w, w ∈ c.memc.ueWords → here w = false) : c.wordsRead here = c := by
  have h1 : c.memc.ceWords.filter here = [] := List.filter_eq_nil_iff.2 fun w hw => Bool.eq_false_iff.1 (hc w hw)
  have h2 : c.memc.ueWords.filter here = [] := List.filter_eq_nil_iff.2 fun w hw => Bool.eq_false_iff.1 (hu w hw)
  unfold Chip.wordsRead
  rw [h1, h2]
  rfl

theorem wordsRead_one {here : Nat → Bool} (hc : c.memc.ceWords = []) (hu : c.memc.ueWords = [a]) (hw : here a = true)
    (hr : regionOf a ≠ .mram) :
    c.wordsRead here = ((c.inc MEM_ECCUE).setReg MEM_ECCADDR (w32 a)).memCause 3 := by
  have h1 : c.memc.ceWords.filter here = [] := by
    rw [hc]
    rfl
  have h2 : c.memc.ueWords.filter here = [a] := by
    rw [hu]
    exact List.filter_cons_of_pos hw
  unfold Chip.wordsRead
  rw [h1, h2]
  exact if_neg hr

end Sys2Proof.Machine

namespace Sys2Proof
open Machine

/-- Settles O43: the scrubber, the start and the end of a march run, and one bank's result. That an engine's segment may
cover the whole bank (log entry 192) and that a preserving run counts the errors that it reads (log entry 183) are the
model's choices. -/
theorem scrubbingAndMarchRuns : Obligations.ScrubbingAndMarchRuns := by
  unfold Obligations.ScrubbingAndMarchRuns
  intro m v xs c clean sel own opts noted begun run next ringless ended
  have hgo {d} (g : marchCtlWrite c m.val (v ||| 0x80000000) = d) : Does (.marchStart m v) c d :=
    does_marchStart (regWrite_MEM_MARCH_CTL.trans g)
  have halg : wfld (v ||| 0x80000000) 9 8 = wfld v 9 8 := wfld_congr fun i _ hi =>
    wbit_or_of_not_right ((by decide : ∀ i, i ≤ 9 → wbit 0x80000000 i = false) i hi)
  have h4 : wbit (v ||| 0x80000000) 4 = wbit v 4 := wbit_or_of_not_right rfl
  have h3 : wbit (v ||| 0x80000000) 3 = wbit v 3 := wbit_or_of_not_right rfl
  have hopts : marchOpts (v ||| 0x80000000) = opts := by
    unfold marchOpts
    rw [halg, h4, h3]
  have hnew : c.marchNew (v ||| 0x80000000) = run none := by
    unfold Chip.marchNew
    rw [halg, h4, h3]
    rfl
  have hbegun : c.marchBegun (v ||| 0x80000000) = begun := by
    unfold Chip.marchBegun
    rw [hopts]
    rfl
  have hmemc : begun.memc = c.memc := hbegun ▸ marchBegun_memc
  have hunc : begun.marchUncovered = c.marchUncovered := hbegun ▸ marchBegun_uncovered
  have hstart (hm : m.val = 0) (h : c.memc.march = none) :
      marchCtlWrite c m.val (v ||| 0x80000000) = (begun.marchRun (run none)).done := by
    rw [marchCtlWrite_starts hm h (wbit_or_of_right rfl), hbegun, hnew]
  refine ⟨fun h => does_scrubLine (scrubLine_not h), fun h ht hc => does_scrubLine (scrubLine_clean h ht hc),
    fun h => hgo (marchCtlWrite_other h), fun hm h => ?_, fun hm h hs => ?_, fun hm h a ha => ?_,
    fun h => does_marchDone (marchDone_none h), fun r h hf => does_marchDone (marchDone_frozen h hf),
    fun r h hf => ?_, fun r x h hx hb hp => marchBank_clean h hx hb hp, fun here hc hu => wordsRead_none hc hu,
    fun here w hc hu hw hr => wordsRead_one hc hu hw hr, fun r x h => marchBank_other h⟩
  · refine hgo ((marchCtlWrite_busy hm h).trans ?_)
    rw [hopts]
  · refine hgo ((hstart hm h).trans (congrArg Chip.done ?_))
    rw [marchRun_covered, hmemc]
    rw [hunc]
    exact List.findSome?_eq_none_iff.2 fun b hb => marchUncovered_none (hs b hb)
  · refine hgo ((hstart hm h).trans (congrArg Chip.done ?_))
    rw [marchRun_freezes (a := a), hmemc]
    rw [hunc]
    exact ha
  · intro applied after
    have he := marchDone_ends (xs := xs) h hf
    refine ⟨fun hr => does_marchDone (he.trans ((marchEnds_eq (r := r)).trans (congrArg Chip.marchFlagged (if_neg ?_)))),
      fun hr hb => does_marchDone (he.trans ((marchEnds_eq (r := r)).trans (congrArg Chip.marchFlagged (if_pos ?_))))⟩
    · rw [Bool.and_eq_true]
      rintro ⟨g1, g2⟩
      exact hr.elim (fun hr => Bool.false_ne_true (hr.symm.trans g1)) fun hr => Bool.false_ne_true (hr.symm.trans g2)
    · rw [hr]
      exact hb

end Sys2Proof
end

section
/-!
PROOF. Freeze resolution and the data movers (R374, R376, R379 to R382).
-/
namespace Sys2Proof.Machine

variable {c d e : Chip} {m n k r act unit : Nat} {v : W32} {y : XdDesc}

/-! ### The resolution of a freeze -/

theorem debugSettle_none (h : c.tst.frozen = none) : c.debugSettle = c := by
  unfold Chip.debugSettle
  rw [h]

/-- A write of XDM_FRZ_RESOLVE that leaves no debug access held. -/
theorem frzResolve_settled (hd : freezeResolveWrite c m v = d) (h : d.tst.frozen = none) :
    regWrite c m XDM_FRZ_RESOLVE v = d := by
  rw [regWrite_XDM_FRZ_RESOLVE, hd, debugSettle_none h]
  rfl

theorem freezeResolveWrite_other (h : m ≠ 0) : freezeResolveWrite c m v = c.refuse := if_pos h

theorem resolveWord_fields (ha : act < 4) (hu : unit < 256) :
    wfld (w32 (act * 2 ^ 30 + unit)) 31 30 = act ∧ wfld (w32 (act * 2 ^ 30 + unit)) 7 0 = unit := by
  have h : (w32 (act * 2 ^ 30 + unit)).toNat = act * 2 ^ 30 + unit :=
    (BitVec.toNat_ofNat ..).trans (Nat.mod_eq_of_lt (by omega))
  unfold wfld nfld
  rw [h]
  constructor <;> omega

theorem freezeResolveWrite_sup (hm : m = 0) (ha : act < 4) (hu : unit < 256) :
    freezeResolveWrite c m (w32 (act * 2 ^ 30 + unit)) = (freezeResolve c act unit).done := by
  obtain ⟨h1, h2⟩ := resolveWord_fields ha hu
  refine (if_neg (not_not_intro hm)).trans ?_
  rw [h1, h2]

/-- The oldest freeze is no freeze of this unit. -/
theorem freezeResolve_others (h : ∀ e es, c.xdm.freezes = e :: es → e.unit ≠ unit) : freezeResolve c act unit = c := by
  unfold freezeResolve
  split
  · rfl
  next e es he => exact if_pos (.inl (h e es he))

/-- The freezes that wait, set. -/
def Chip.withFreezes (c : Chip) (es : List FreezeEntry) : Chip := { c with xdm := { c.xdm with freezes := es } }

theorem freezeResolve_mover {e : FreezeEntry} {es : List FreezeEntry} (hf : c.xdm.freezes = e :: es)
    (he : e.unit = 0x80 + k) (hk : k < 64) (ha : act ≠ 0) :
    freezeResolve c act (0x80 + k) = xdResolve (c.withFreezes es) k act := by
  unfold freezeResolve
  rw [hf]
  have hne : ¬(e.unit ≠ 0x80 + k ∨ act = 0) := not_or.2 ⟨not_not_intro he, ha⟩
  refine (if_neg hne).trans ((if_neg (by omega)).trans ((if_neg (by omega)).trans ((if_neg (by omega)).trans
    ((if_neg (by omega)).trans ((if_neg (by omega)).trans ((if_neg (by omega)).trans ((if_neg (by omega)).trans
      ((if_neg (by omega)).trans ((if_neg (by omega)).trans ((if_pos (by omega)).trans ?_))))))))))
  rw [Nat.add_sub_cancel_left]
  rfl

theorem freezeResume_settled {m : Master} {unit : Fin 256} (g : freezeResolveWrite c m.val (w32 (1 * 2 ^ 30 + unit.val)) = d)
    (h : d.tst.frozen = none) : Does (.freezeResume m unit) c d := by
  refine does_freezeResume (frzResolve_settled ?_ h)
  rwa [show 0x40000000 = 1 * 2 ^ 30 from rfl]

theorem freezeRedirect_settled {m : Master} {unit : Fin 256} (g : freezeResolveWrite c m.val (w32 (2 * 2 ^ 30 + unit.val)) = d)
    (h : d.tst.frozen = none) : Does (.freezeRedirect m unit) c d := by
  refine does_freezeRedirect (frzResolve_settled ?_ h)
  rwa [show 0x80000000 = 2 * 2 ^ 30 from rfl]

theorem freezeReset_settled {m : Master} {unit : Fin 256} (g : freezeResolveWrite c m.val (w32 (3 * 2 ^ 30 + unit.val)) = d)
    (h : d.tst.frozen = none) : Does (.freezeReset m unit) c d := by
  refine does_freezeReset (frzResolve_settled ?_ h)
  rwa [show 0xC0000000 = 3 * 2 ^ 30 from rfl]

/-! ### A channel's states -/

/-- A channel stopped by an error. -/
def XdChan.failed (x : XdChan) : XdChan := { x with st := .error, phase := .fetch, stopReq := false, popped := [] }

/-- A descriptor's result shown. -/
def Chip.xdShown (d : Chip) (k r : Nat) : Chip := ((d.inc (XDn_DONE k)).setFld (XDn_STAT k) 19 16 r).setBit (XDn_STAT k) 9 false

/-- The words with which a descriptor ends. -/
def Chip.xdStatus (d : Chip) (k r : Nat) : List Byte :=
  leBytes 4 (2 ^ 31 + at_ r 27 + (d.xd k).moved) ++ leBytes 4 (d.ltNs % 2 ^ 32)

theorem xdEnded_error {x : XdChan} (hr : r ≠ 0) (hx : d.xd k = x) :
    d.xdEnded k r false = ((d.xdShown k r).flag (XDn_FLAGS k) 1 (352 + k)).setXd k x.failed := by
  unfold Chip.xdEnded
  rw [hx]
  exact if_neg hr

/-- A descriptor ends with an error whose words have been written. -/
theorem xdEnd_error {x : XdChan} {own cur : Nat} (ho : c.xdMaster k = own) (hcur : c.xdCur k = cur) (hr : r ≠ 0)
    (hw : c.dmaWrite own (cur + 24) (c.xdStatus k r) = (none, d)) (hx : d.xd k = x) :
    c.xdEnd k r = ((d.xdShown k r).flag (XDn_FLAGS k) 1 (352 + k)).setXd k x.failed := by
  subst ho hcur
  unfold Chip.xdStatus at hw
  unfold Chip.xdEnd
  dsimp only
  rw [hw]
  exact xdEnded_error hr hx

theorem xdShown_tst : (d.xdShown k r).tst = d.tst := rfl

theorem flagged_tst {a i src : Nat} {x : XdChan} : ((d.flag a i src).setXd k x).done.tst = d.tst := rfl

/-- A channel that an error stops holds no debug access. -/
theorem xdFailed_settled {a i src : Nat} {x : XdChan} (h : d.tst.frozen = none) :
    (((d.xdShown k r).flag a i src).setXd k x).done.tst.frozen = none := by
  rw [flagged_tst, xdShown_tst]
  exact h

theorem withFreezes_master {es : List FreezeEntry} : (c.withFreezes es).xdMaster k = c.fld (XDn_OWNER k) 3 0 := rfl

theorem withFreezes_cur {es : List FreezeEntry} : (c.withFreezes es).xdCur k = c.fld (XDn_CUR k) 31 5 * 32 := rfl

section
variable (hs : (c.xd k).st = .frozen) (hp : (c.xd k).phase = .move)
include hs hp

theorem xdResolve_resume : xdResolve c k 1 = c.setXd k { c.xd k with st := .active } := by
  refine (if_neg (not_not_intro hs)).trans ?_
  rw [hp]
  rfl

theorem xdResolve_redirect : xdResolve c k 2 = c.xdEnd k 6 := by
  refine (if_neg (not_not_intro hs)).trans ?_
  rw [hp]
  rfl

omit hp in
theorem xdResolve_reset :
    xdResolve c k 3 = c.setXd k { c.xd k with st := .idle, phase := .fetch, stopReq := false, popped := [] } :=
  if_neg (not_not_intro hs)

end

/-! ### Commands -/

theorem xdWriter_iff : c.xdWriter k m = true ↔ m = 0 ∨ m = c.fld (XDn_OWNER k) 3 0 := by
  unfold Chip.xdWriter
  rw [Bool.or_eq_true, beq_iff_eq, beq_iff_eq]
  rfl

theorem xdWriter_not (h : ¬(m = 0 ∨ m = c.fld (XDn_OWNER k) 3 0)) : (!c.xdWriter k m) = true := by
  rw [Bool.not_eq_true', ← Bool.not_eq_true, xdWriter_iff]
  exact h

theorem xdWriter_of (h : m = 0 ∨ m = c.fld (XDn_OWNER k) 3 0) : ¬(!c.xdWriter k m) = true := by
  rw [xdWriter_iff.2 h]
  exact Bool.false_ne_true

theorem xdCtlWrite_other (h : ¬(m = 0 ∨ m = c.fld (XDn_OWNER k) 3 0)) : xdCtlWrite c m k v = c.refuse :=
  if_pos (xdWriter_not h)

theorem trigtCommit_other (h : ¬(m = 0 ∨ m = c.fld (XDn_OWNER k) 3 0)) : trigtCommit c m k v = c.refuse :=
  if_pos (xdWriter_not h)

section
variable (h : m = 0 ∨ m = c.fld (XDn_OWNER k) 3 0)
include h

theorem xdCtlWrite_go (h31 : wbit v 31 = true) (h30 : wbit v 30 = false) (h29 : wbit v 29 = false) :
    xdCtlWrite c m k v = (xdGo c k).done := by
  refine (if_neg (xdWriter_of h)).trans ?_
  rw [h31, h30, h29]
  rfl

theorem xdCtlWrite_stop (h31 : wbit v 31 = false) (h30 : wbit v 30 = true) (h29 : wbit v 29 = false) :
    xdCtlWrite c m k v = (xdStop c k).done := by
  refine (if_neg (xdWriter_of h)).trans ?_
  rw [h31, h30, h29]
  rfl

theorem xdCtlWrite_trig (h31 : wbit v 31 = false) (h30 : wbit v 30 = false) (h29 : wbit v 29 = true) :
    xdCtlWrite c m k v = (c.xdTrig k).done := by
  refine (if_neg (xdWriter_of h)).trans ?_
  rw [h31, h30, h29]
  rfl

end

theorem xdGo_idle (h : (c.xd k).st = .idle ∨ (c.xd k).st = .error) : xdGo c k =
    (c.setReg (XDn_CUR k) (c.reg (XDn_DESC k))).setXd k
      { c.xd k with st := .active, phase := .fetch, moved := 0, stopReq := false, popped := [] } := if_pos h

theorem xdGo_refused (h1 : (c.xd k).st ≠ .idle) (h2 : (c.xd k).st ≠ .error) : xdGo c k = c.xdFlag k 3 :=
  if_neg (not_or.2 ⟨h1, h2⟩)

theorem xdStop_working (h : (c.xd k).st = .active ∨ (c.xd k).st = .frozen) :
    xdStop c k = c.setXd k { c.xd k with stopReq := true } := by
  unfold xdStop
  dsimp only
  rcases h with h | h <;> rw [h]

theorem xdStop_idle (h : (c.xd k).st = .idle ∨ (c.xd k).st = .error) : xdStop c k = c := by
  unfold xdStop
  dsimp only
  rcases h with h | h <;> rw [h]

theorem xdStop_armed (h : (c.xd k).st = .armed) : xdStop c k = c.xdEnd k 7 := by
  unfold xdStop
  dsimp only
  rw [h]

theorem timeTrigger_not (h : (c.xd k).timeArmed = false ∨ c.ltNs < c.reg64 (XDn_TRIGT_LO k)) : timeTrigger c k = c := by
  refine if_neg ?_
  rintro ⟨g1, g2⟩
  rcases h with h | h
  · exact Bool.false_ne_true (h.symm.trans g1)
  · exact absurd g2 (Nat.not_le.2 h)

theorem timeTrigger_due (h : (c.xd k).timeArmed = true) (ht : c.reg64 (XDn_TRIGT_LO k) ≤ c.ltNs) : timeTrigger c k =
    if (c.reg (XDn_TRIGPER k)).toNat = 0 then (c.xdTrig k).setXd k { (c.xdTrig k).xd k with timeArmed := false }
    else (c.xdTrig k).setReg64 (XDn_TRIGT_LO k) (c.reg64 (XDn_TRIGT_LO k) +
      ((c.ltNs - c.reg64 (XDn_TRIGT_LO k)) / (c.reg (XDn_TRIGPER k)).toNat + 1) * (c.reg (XDn_TRIGPER k)).toNat) :=
  if_pos ⟨h, ht⟩

/-! ### Descriptors -/

theorem descriptorStart_resting (h : (c.xd k).st = .idle ∨ (c.xd k).st = .error ∨ (c.xd k).st = .frozen) :
    descriptorStart c k = c := by
  unfold descriptorStart
  dsimp only
  rcases h with h | h | h <;> rw [h]

theorem descriptorStart_armed (h : (c.xd k).st = .armed) : descriptorStart c k =
    if (c.xd k).pend then c.setXd k { c.xd k with st := .active, phase := .move, pend := false } else c := by
  unfold descriptorStart
  dsimp only
  rw [h]

section
variable (h : (c.xd k).st = .active) (hp : (c.xd k).phase = .fetch) (hs : (c.xd k).stopReq = false)
include h hp hs

theorem descriptorStart_freezes (hr : ¬c.segAllows (c.xdMaster k) (c.xdCur k) 32 1 = true) : descriptorStart c k =
    (c.setXdSt k .frozen).freezeAt (0x80 + k) (c.xdMaster k) (c.xdCur k) 32 1 := by
  unfold descriptorStart
  dsimp only
  rw [h, hp]
  dsimp only
  rw [hs, if_neg Bool.false_ne_true, if_neg hr]

theorem descriptorStart_reads (hr : c.segAllows (c.xdMaster k) (c.xdCur k) 32 1 = true) {bs : List Byte}
    (hb : busRead c (c.xdMaster k) (c.xdCur k) 32 = (.ok bs, d)) : descriptorStart c k = d.xdBegin k (.of bs) := by
  unfold descriptorStart
  dsimp only
  rw [h, hp]
  dsimp only
  rw [hs, if_neg Bool.false_ne_true, if_pos hr, hb]

end

/-- A channel with its new descriptor. -/
def XdChan.begun (x : XdChan) (y : XdDesc) : XdChan := { x with desc := y, moved := 0, popped := [], phase := .move }

theorem xdBegin_good {x : XdChan} (hx : d.xd k = x) (hb : d.badDesc k y = false) : d.xdBegin k y =
    (let loaded := (d.setXd k (x.begun y)).setBit (XDn_STAT k) 9 false
    if y.trig = false then loaded
    else if x.pend then loaded.setXd k { x.begun y with pend := false }
    else loaded.setXd k { x.begun y with st := .armed, armedAt := d.lt, armedLimit := (d.reg (XDn_TMO k)).toNat }) := by
  subst hx
  exact if_neg (Bool.eq_false_iff.1 hb)

theorem badDesc_iff : (y.len = 0 ∨ y.smode = 3 ∨ 2 ≤ y.dmode ∨ (y.dmode = 0 ∧ y.dst % 64 ≠ 0) ∨
    ((y.smode = 1 ∨ y.dmode = 1) ∧ y.len % 4 ≠ 0) ∨ (y.smode = 1 ∧ y.src % 4 ≠ 0) ∨ (y.dmode = 1 ∧ y.dst % 4 ≠ 0) ∨
    (y.smode = 2 ∧ (y.len % 8 ≠ 0 ∨ c.fld (PFn_CFG y.pf) 5 4 ≠ 1 ∨ c.fld (PFn_CFG y.pf) 13 8 ≠ k))) ↔
      c.badDesc k y = true := by
  unfold Chip.badDesc
  simp only [Bool.or_eq_true, Bool.and_eq_true, beq_iff_eq, bne_iff_ne, decide_eq_true_iff, or_assoc]

theorem armedTimeout_not (h : (c.xd k).st ≠ .armed ∨ (c.xd k).pend = true ∨ (c.xd k).armedLimit = 0 ∨
    c.lt ≤ (c.xd k).armedAt + (c.xd k).armedLimit * 65536000) : armedTimeout c k = c := by
  refine if_neg ?_
  rintro ⟨g1, g2, g3, g4⟩
  rcases h with h | h | h | h
  · exact h g1
  · exact Bool.false_ne_true (g2.symm.trans h)
  · exact g3 h
  · exact absurd g4 (Nat.not_lt.2 h)

theorem armedTimeout_due (h1 : (c.xd k).st = .armed) (h2 : (c.xd k).pend = false) (h3 : (c.xd k).armedLimit ≠ 0)
    (h4 : (c.xd k).armedAt + (c.xd k).armedLimit * 65536000 < c.lt) : armedTimeout c k = c.xdEnd k 5 :=
  if_pos ⟨h1, h2, h3, h4⟩

/-! ### Units -/

theorem xdmUnit_none (h : ∀ i, i < 64 → c.xdReady i = false) : xdmUnit c = c := by
  have hf : ((List.range 64).find? fun k => c.xdReady ((c.xdm.lastServed + 1 + k) % 64)) = none := by
    refine List.find?_eq_none.2 fun k _ => ?_
    rw [h _ (Nat.mod_lt _ (by decide))]
    exact Bool.false_ne_true
  unfold xdmUnit
  rw [hf]

theorem xdmUnit_serves (hk : k < 64) (hj : ∀ j, j < k → c.xdReady ((c.xdm.lastServed + 1 + j) % 64) = false)
    (h : c.xdReady ((c.xdm.lastServed + 1 + k) % 64) = true) : xdmUnit c =
      { c with xdm := { c.xdm with lastServed := (c.xdm.lastServed + 1 + k) % 64 } }.xdUnit
        ((c.xdm.lastServed + 1 + k) % 64) := by
  have hf : ((List.range 64).find? fun k => c.xdReady ((c.xdm.lastServed + 1 + k) % 64)) = some k := by
    refine List.find?_range_eq_some.2 ⟨h, List.mem_range.2 hk, fun j hl => ?_⟩
    rw [hj j hl]
    rfl
  unfold xdmUnit
  rw [hf]

/-- A channel that moves a unit from memory to memory. -/
structure XdPlain (x : XdChan) : Prop where
  goes : x.stopReq = false
  smode : x.desc.smode = 0
  dmode : x.desc.dmode = 0
  cven : x.desc.cven = false

/-- The length of a plain unit. -/
def XdChan.plainLen (x : XdChan) : Nat := min 64 (x.desc.len - x.moved)

theorem unitLen_plain {x : XdChan} (h : XdPlain x) : x.unitLen = x.plainLen :=
  if_neg fun g => Nat.zero_ne_one (h.dmode.symm.trans g)

theorem unitDst_plain {x : XdChan} (h : XdPlain x) : x.unitDst = x.desc.dst + x.moved :=
  if_neg fun g => Nat.zero_ne_one (h.dmode.symm.trans g)

/-- What the read of a plain unit comes to. -/
def Chip.xdRead (k : Nat) (r : Except AccErr (List Byte) × Chip) : Chip :=
  match r with
  | (.error .wait, c1) => c1
  | (.error e, c1) => c1.xdEnd k (e.xdResult 1)
  | (.ok bs, c1) => c1.xdCommit k bs 0 [] []

theorem xdUnit_plain (h : XdPlain (c.xd k)) : c.xdUnit k =
    if !c.segAllows (c.xdMaster k) ((c.xd k).desc.src + (c.xd k).moved) (c.xd k).plainLen 1 then
      c.xdFreeze k ((c.xd k).desc.src + (c.xd k).moved) (c.xd k).plainLen 1
    else
      .xdRead k (c.readParts (c.xdMaster k) ((c.xd k).desc.src + (c.xd k).moved) (c.xd k).plainLen) := by
  have hs : (c.xd k).desc.smode = 0 := h.smode
  unfold Chip.xdUnit
  dsimp only
  rw [h.goes, if_neg Bool.false_ne_true, hs, if_neg (by decide)]
  simp only [unitLen_plain h, if_neg (by decide : ¬(0 : Nat) = 1)]
  rfl

theorem xdUnit_noRead (h : XdPlain (c.xd k))
    (hr : c.segAllows (c.xdMaster k) ((c.xd k).desc.src + (c.xd k).moved) (c.xd k).plainLen 1 = false) : c.xdUnit k =
      (c.setXd k { c.xd k with st := .frozen }).freezeAt (0x80 + k) (c.xdMaster k)
        ((c.xd k).desc.src + (c.xd k).moved) (c.xd k).plainLen 1 := by
  refine (xdUnit_plain h).trans (if_pos ?_)
  rw [hr]
  rfl

theorem xdUnit_reads (h : XdPlain (c.xd k))
    (hr : c.segAllows (c.xdMaster k) ((c.xd k).desc.src + (c.xd k).moved) (c.xd k).plainLen 1 = true) {bs : List Byte}
    (hb : c.readParts (c.xdMaster k) ((c.xd k).desc.src + (c.xd k).moved) (c.xd k).plainLen = (.ok bs, d)) :
    c.xdUnit k = d.xdCommit k bs 0 [] [] := by
  refine (xdUnit_plain h).trans ((if_neg ?_).trans ?_)
  · rw [hr]
    exact Bool.false_ne_true
  · exact congrArg (Chip.xdRead k) hb

section
variable {bs : List Byte} {x : XdChan} {own len : Nat} (h : XdPlain x) (hx : d.xd k = x) (ho : d.xdMaster k = own)
  (hl : bs.length = len)
include h hx ho hl

theorem xdCommit_noWrite (hw : d.segAllows own (x.desc.dst + x.moved) len 2 = false) : d.xdCommit k bs 0 [] [] =
    (d.setXd k { x with st := .frozen }).freezeAt (0x80 + k) own (x.desc.dst + x.moved) len 2 := by
  subst hx ho hl
  unfold Chip.xdCommit
  dsimp only
  rw [unitDst_plain h, hw]
  rfl

theorem xdCommit_writes (hw : d.segAllows own (x.desc.dst + x.moved) len 2 = true)
    (hb : busWrite d own (x.desc.dst + x.moved) bs = (none, e)) (hlt : x.moved + len < x.desc.len) :
    d.xdCommit k bs 0 [] [] = e.setXd k { e.xd k with moved := x.moved + len, popped := [] } := by
  subst hx ho hl
  have hle : ¬(d.xd k).desc.len ≤ (d.xd k).moved + bs.length := Nat.not_le.2 hlt
  unfold Chip.xdCommit
  dsimp only
  rw [unitDst_plain h, hw, if_neg (by decide), if_neg (by simp), hb]
  dsimp only
  rw [h.cven]
  exact if_neg hle

end

end Sys2Proof.Machine

namespace Sys2Proof
open Machine

/-- Settles O44: the resolutions of a freeze and the work of a data mover, case by case. That a wait times out only
behind its last tick (log entry 22) is the model's choice. -/
theorem freezesAndDataMovers : Obligations.FreezesAndDataMovers := by
  unfold Obligations.FreezesAndDataMovers
  intro m unit n v c k x own ours flag triggered started cur t per ended status begun loaded limit read freezes
  have hk : k < 64 := n.isLt
  have hu : unit.val < 256 := unit.isLt
  have hnot {y : Bool} (h : y = false) : ¬y = true := by
    rw [h]
    exact Bool.false_ne_true
  have hsup {act d} (hm : m.val = 0) (ha : act < 4) (g : freezeResolve c act unit.val = d) :
      freezeResolveWrite c m.val (w32 (act * 2 ^ 30 + unit.val)) = d.done :=
    (freezeResolveWrite_sup hm ha hu).trans (congrArg Chip.done g)
  have hgo {d} (g : xdCtlWrite c m.val k (v ||| 0x80000000) = d) : Does (.xdmGo m n v) c d :=
    does_xdmGo ((regWrite_XDn_CTL n).trans g)
  have hstop {d} (g : xdCtlWrite c m.val k (v ||| 0x40000000) = d) : Does (.xdmStop m n v) c d :=
    does_xdmStop ((regWrite_XDn_CTL n).trans g)
  have htrig {d} (g : xdCtlWrite c m.val k (v ||| 0x20000000) = d) : Does (.xdmTrigWrite m n v) c d :=
    does_xdmTrigWrite ((regWrite_XDn_CTL n).trans g)
  have hcommit {d} (g : trigtCommit c m.val k v = d) : Does (.xdmTrigtCommit m n v) c d :=
    does_xdmTrigtCommit ((regWrite_XDn_TRIGT_LO n).trans g)
  refine ⟨fun hm hf => ?_, fun hm hf ho => ?_, fun hm hf e es he hun hunit hs hp => ⟨?_, ?_, fun d hd hx hdf => ?_⟩,
    fun ho => ?_, fun ho h30 h29 => ⟨fun hi => ?_, fun h1 h2 => ?_⟩,
    fun ho h31 h29 => ⟨fun hw => ?_, fun hi => ?_, fun ha d hd hx => ?_⟩, fun ho h31 h30 => ?_, fun ho => ?_,
    fun h => ?_, fun h ht hz => ?_, fun h ht hz => ?_, fun h => ?_, fun h hp => ?_, fun h hp => ?_,
    fun h hp hs hr => ?_, fun h hp hs hr bs d hb hx hlt htmo => ?_, fun y => badDesc_iff, fun h => ?_,
    fun h1 h2 h3 h4 d hd hx => ?_, fun h => ?_, fun hj h => ?_, fun hg hsm hdm hcv => ?_⟩
  case refine_1 =>
    exact ⟨freezeResume_settled (freezeResolveWrite_other hm) hf, freezeRedirect_settled (freezeResolveWrite_other hm) hf,
      freezeReset_settled (freezeResolveWrite_other hm) hf⟩
  case refine_2 =>
    exact ⟨freezeResume_settled (hsup hm (by decide) (freezeResolve_others ho)) hf,
      freezeRedirect_settled (hsup hm (by decide) (freezeResolve_others ho)) hf,
      freezeReset_settled (hsup hm (by decide) (freezeResolve_others ho)) hf⟩
  case refine_3 =>
    refine freezeResume_settled (hsup hm (by decide) ?_) hf
    rw [hunit, freezeResolve_mover he hun hk (by decide)]
    exact xdResolve_resume (c := c.withFreezes es) hs hp
  case refine_4 =>
    refine freezeReset_settled (hsup hm (by decide) ?_) hf
    rw [hunit, freezeResolve_mover he hun hk (by decide)]
    exact xdResolve_reset (c := c.withFreezes es) hs
  case refine_5 =>
    refine freezeRedirect_settled (hsup hm (by decide) ?_) (xdFailed_settled hdf)
    rw [hunit, freezeResolve_mover he hun hk (by decide)]
    exact (xdResolve_redirect (c := c.withFreezes es) hs hp).trans
      (xdEnd_error (c := c.withFreezes es) withFreezes_master withFreezes_cur (by decide) hd hx)
  case refine_6 =>
    exact ⟨hgo (xdCtlWrite_other ho), hstop (xdCtlWrite_other ho), htrig (xdCtlWrite_other ho),
      hcommit (trigtCommit_other ho)⟩
  case refine_7 =>
    exact hgo ((xdCtlWrite_go ho (wbit_or_of_right rfl) ((wbit_or_of_not_right rfl).trans h30)
      ((wbit_or_of_not_right rfl).trans h29)).trans (congrArg Chip.done (xdGo_idle hi)))
  case refine_8 =>
    exact hgo ((xdCtlWrite_go ho (wbit_or_of_right rfl) ((wbit_or_of_not_right rfl).trans h30)
      ((wbit_or_of_not_right rfl).trans h29)).trans (congrArg Chip.done (xdGo_refused h1 h2)))
  case refine_9 =>
    exact hstop ((xdCtlWrite_stop ho ((wbit_or_of_not_right rfl).trans h31) (wbit_or_of_right rfl)
      ((wbit_or_of_not_right rfl).trans h29)).trans (congrArg Chip.done (xdStop_working hw)))
  case refine_10 =>
    exact hstop ((xdCtlWrite_stop ho ((wbit_or_of_not_right rfl).trans h31) (wbit_or_of_right rfl)
      ((wbit_or_of_not_right rfl).trans h29)).trans (congrArg Chip.done (xdStop_idle hi)))
  case refine_11 =>
    exact hstop ((xdCtlWrite_stop ho ((wbit_or_of_not_right rfl).trans h31) (wbit_or_of_right rfl)
      ((wbit_or_of_not_right rfl).trans h29)).trans
        (congrArg Chip.done ((xdStop_armed ha).trans (xdEnd_error rfl rfl (by decide) hd hx))))
  case refine_12 =>
    exact htrig (xdCtlWrite_trig ho ((wbit_or_of_not_right rfl).trans h31) ((wbit_or_of_not_right rfl).trans h30)
      (wbit_or_of_right rfl))
  case refine_13 => exact hcommit (if_neg (xdWriter_of ho))
  case refine_14 => exact does_xdmTimeTrigger (timeTrigger_not h)
  case refine_15 => exact does_xdmTimeTrigger ((timeTrigger_due h ht).trans (if_pos hz))
  case refine_16 => exact does_xdmTimeTrigger ((timeTrigger_due h ht).trans (if_neg hz))
  case refine_17 => exact does_xdmDescriptorStart (descriptorStart_resting h)
  case refine_18 => exact does_xdmDescriptorStart ((descriptorStart_armed h).trans (if_neg (hnot hp)))
  case refine_19 => exact does_xdmDescriptorStart ((descriptorStart_armed h).trans (if_pos hp))
  case refine_20 => exact does_xdmDescriptorStart (descriptorStart_freezes h hp hs hr)
  case refine_21 =>
    intro y
    have hd := descriptorStart_reads h hp hs hr hb
    refine ⟨fun hbad ht => ?_, fun hbad ht hpend => ?_⟩
    · exact does_xdmDescriptorStart (hd.trans ((xdBegin_good hx hbad).trans (if_pos ht)))
    · have hg := (xdBegin_good hx hbad).trans ((if_neg (by rw [ht]; decide)).trans (if_neg (hnot hpend)))
      rw [hlt, htmo] at hg
      exact does_xdmDescriptorStart (hd.trans hg)
  case refine_22 => exact does_xdmArmedTimeout (armedTimeout_not h)
  case refine_23 =>
    exact does_xdmArmedTimeout ((armedTimeout_due h1 h2 h3 h4).trans (xdEnd_error rfl rfl (by decide) hd hx))
  case refine_24 => exact does_xdmUnit (xdmUnit_none h)
  case refine_25 => exact does_xdmUnit (xdmUnit_serves hk hj h)
  case refine_26 =>
    intro len a b
    have hplain : XdPlain x := ⟨hg, hsm, hdm, hcv⟩
    refine ⟨fun hr => xdUnit_noRead hplain hr, fun hr bs d hb hl hx ho => ⟨fun hw => ?_, fun hw e he hxe hlt => ?_⟩⟩
    · exact (xdUnit_reads hplain hr hb).trans (xdCommit_noWrite hplain hx ho hl hw)
    · have hcommit := xdCommit_writes hplain hx ho hl hw he hlt
      rw [hxe] at hcommit
      exact (xdUnit_reads hplain hr hb).trans hcommit

end Sys2Proof
end

section
/-!
PROOF. Mailboxes in use (R388 to R393, R395).
-/
namespace Sys2Proof.Machine

variable {c d : Chip} {m n i : Nat} {v : W32}

/-! ### Configuration and data -/

theorem mbCfgWrite_refused (h : c.mbFull n = true ∨ (wbit v 31 = true ∧ wfld v 3 0 = wfld v 7 4)) :
    mbCfgWrite c m n v = c.refuse := by
  refine if_pos ?_
  rw [Bool.or_eq_true, Bool.and_eq_true, beq_iff_eq]
  exact h

theorem mbCfgWrite_taken (hf : c.mbFull n = false) (h : wbit v 31 = false ∨ wfld v 3 0 ≠ wfld v 7 4) :
    mbCfgWrite c m n v = c.plainWrite m (MBn_CFG n) v := by
  refine if_neg ?_
  rw [Bool.or_eq_true, Bool.and_eq_true, beq_iff_eq]
  rintro (g | ⟨g1, g2⟩)
  · exact Bool.false_ne_true (hf.symm.trans g)
  · exact h.elim (fun h => Bool.false_ne_true (h.symm.trans g1)) (fun h => h g2)

theorem mbWrites_iff : (c.mbEn n && m == c.mbSender n && !c.mbFull n) = true ↔
    c.mbEn n = true ∧ m = c.mbSender n ∧ c.mbFull n = false := by
  rw [Bool.and_eq_true, Bool.and_eq_true, beq_iff_eq, Bool.not_eq_true', and_assoc]

theorem mbDataWrite_taken (he : c.mbEn n = true) (hs : m = c.mbSender n) (hf : c.mbFull n = false) :
    mbDataWrite c m n i v = (if i ≤ c.mbLast n then c.setReg (MBn_DATA n i) v else c).done :=
  if_pos (mbWrites_iff.2 ⟨he, hs, hf⟩)

theorem mbDataWrite_refused (h : c.mbEn n = false ∨ m ≠ c.mbSender n ∨ c.mbFull n = true) :
    mbDataWrite c m n i v = c.refuse := by
  refine if_neg fun g => ?_
  obtain ⟨he, hs, hf⟩ := mbWrites_iff.1 g
  rcases h with h | h | h
  · exact Bool.false_ne_true (h.symm.trans he)
  · exact h hs
  · exact Bool.false_ne_true (hf.symm.trans h)

/-! ### GO and RESET -/

theorem mbCtlAllowed_go (he : c.mbEn n = true) (hs : m = c.mbSender n) (hf : c.mbFull n = false)
    (h26 : wbit v 26 = false) : c.mbCtlAllowed m n v = true := by
  unfold Chip.mbCtlAllowed
  simp [he, h26, hf, hs]

theorem mbCtlAllowed_go_not (hv : wbit v 31 = true) (h : c.mbEn n = false ∨ m ≠ c.mbSender n ∨ c.mbFull n = true) :
    c.mbCtlAllowed m n v = false := by
  unfold Chip.mbCtlAllowed
  rcases h with h | h | h <;> simp [hv, h]

theorem mbCtlAllowed_reset (hv : wbit v 31 = false) (h29 : wbit v 29 = false) : c.mbCtlAllowed 0 n v = true := by
  unfold Chip.mbCtlAllowed
  simp [hv, h29]

theorem mbCtlAllowed_reset_not (hv : wbit v 26 = true) (hm : m ≠ 0) : c.mbCtlAllowed m n v = false := by
  unfold Chip.mbCtlAllowed
  simp [hv, hm]

theorem mbCtlWrite_refused (h : c.mbCtlAllowed m n v = false) : mbCtlWrite c m n v = c.refuse := by
  refine if_pos ?_
  rw [h]
  rfl

section
variable (h : c.mbCtlAllowed m n v = true) (h29 : wbit v 29 = false) (h28 : wbit v 28 = false)
include h h29 h28

theorem mbCtlWrite_go (h31 : wbit v 31 = true) (h26 : wbit v 26 = false) :
    mbCtlWrite c m n v = (mailboxGo c n).done := by
  unfold mbCtlWrite
  simp only [h, h29, h28, h31, h26, Bool.not_true, Bool.false_eq_true, if_false, if_true]

theorem mbCtlWrite_reset (h31 : wbit v 31 = false) (h26 : wbit v 26 = true) :
    mbCtlWrite c m n v = (mailboxReset c n).done := by
  unfold mbCtlWrite
  simp only [h, h29, h28, h31, h26, Bool.not_true, Bool.false_eq_true, if_false, if_true]

end

/-- Configurations as they were leave the pairs as they were. -/
theorem mbPartner_congr (hn : n < 64) (h : ∀ p, p < 64 → KeepsReg (MBn_CFG p) c d) : d.mbPartner n = c.mbPartner n := by
  have hf : d.fld (MBn_CFG n) 13 8 = c.fld (MBn_CFG n) 13 8 := congrArg (wfld · 13 8) (h n hn)
  have hp := h _ (show c.fld (MBn_CFG n) 13 8 < 64 from wfld_lt ..)
  unfold Chip.mbPartner Chip.mbEn Chip.bit
  dsimp only
  rw [hf, h n hn, hp]
  have hg : d.fld (MBn_CFG (c.fld (MBn_CFG n) 13 8)) 13 8 = c.fld (MBn_CFG (c.fld (MBn_CFG n) 13 8)) 13 8 :=
    congrArg (wfld · 13 8) hp
  rw [hg]

theorem mbPaired_alone (h : c.mbPartner n = none) : c.mbPaired n = c := by
  unfold Chip.mbPaired
  rw [h]

theorem mbEmpty_alone (h : c.mbPartner n = none) :
    c.mbEmpty n = ((c.setBit (MBn_CTL n) 30 false).setMbTimer n .reset).setPair n .reset := by
  unfold Chip.mbEmpty
  rw [h]

theorem mailboxGo_alone (hn : n < 64) (h : c.mbPartner n = none) : mailboxGo c n =
    ((c.setReg (MBn_CTL n) (wsetFld (wsetBit (wsetBit (wsetBit (c.reg (MBn_CTL n)) 30 true) 29 false) 27 false) 15 0
      ((c.fld (MBn_CTL n) 15 0 + 1) % 65536))).setMbTimer n ⟨some c.lt⟩).raise (448 + n) 1 := by
  refine mbPaired_alone ((mbPartner_congr hn fun p hp => ?_).trans h)
  refine ((KeepsReg.setReg ?_ c).trans (setMbTimer_keepsReg _ _)).trans (.raise ?_ _)
  · unfold MBn_CFG MBn_CTL
    omega
  · unfold MBn_CFG EVT_PEND
    omega

/-- The data of a mailbox cleared. -/
def Chip.mbCleared (c : Chip) (n : Nat) : Chip := (List.range 16).foldl (fun c i => c.setReg (MBn_DATA n i) 0) c

theorem mailboxReset_empty (h : c.mbPartner n = none) (hf : c.mbFull n = false) : mailboxReset c n =
    (((((c.setBit (MBn_CTL n) 30 false).setMbTimer n .reset).setPair n .reset).setBit (MBn_CTL n) 29 false).setBit
      (MBn_CTL n) 28 false).mbCleared n := by
  unfold mailboxReset
  rw [mbEmpty_alone h, hf]
  rfl

theorem mailboxReset_full (h : c.mbPartner n = none) (hf : c.mbFull n = true) (hw : c.mbWide n = false) :
    mailboxReset c n = ((((((c.setBit (MBn_CTL n) 30 false).setMbTimer n .reset).setPair n .reset).setBit (MBn_CTL n)
      29 false).setBit (MBn_CTL n) 28 false).setBit (MBn_CTL n) 27 true).mbCleared n := by
  unfold mailboxReset
  rw [mbEmpty_alone h, hf, hw]
  rfl

/-! ### Reads of the last register -/

theorem mbLast_le : c.mbLast n < 16 := by
  unfold Chip.mbLast
  split <;> decide

theorem mbDataRead_refused (hm : m ≠ 0) (h : c.mbEn n = false ∨ (m ≠ c.mbSender n ∧ m ≠ c.mbReceiver n)) :
    mbDataRead c m n i = none := by
  refine if_pos ?_
  unfold Chip.mbReads
  rcases h with h | ⟨h1, h2⟩
  · simp [hm, h]
  · simp [hm, h1, h2]

/-- The read of the last register by a master that may read. -/
theorem mbDataRead_last (h : c.mbReads m n = true) : mbDataRead c m n (c.mbLast n) = some (c.reg (MBn_DATA n (c.mbLast n)),
    if c.mbEn n && m == c.mbReceiver n && c.mbLast n == c.mbLast n && c.mbFull n then mbAck c n else c) := by
  unfold mbDataRead
  rw [h, if_pos (Nat.le_refl _)]
  rfl

theorem regRead_mailbox {m : Nat} (k : Fin 64) {w : W32} (h : mbDataRead c m k.val (c.mbLast k.val) = some (w, d)) :
    regRead c m (MBn_DATA k.val (c.mbLast k.val)) = d.answer (.ok w.toNat) := by
  rw [regRead_MBn_DATA k _ mbLast_le, h]

theorem regRead_mailbox_refused {m : Nat} (k : Fin 64) (h : mbDataRead c m k.val (c.mbLast k.val) = none) :
    regRead c m (MBn_DATA k.val (c.mbLast k.val)) = c.refuse := by
  rw [regRead_MBn_DATA k _ mbLast_le, h]

theorem mbReads_party (he : c.mbEn n = true) (h : m = c.mbSender n ∨ m = 0 ∨ m = c.mbReceiver n) :
    c.mbReads m n = true := by
  unfold Chip.mbReads
  rcases h with h | h | h <;> simp [he, h]

theorem mbDataRead_acks (he : c.mbEn n = true) (hr : m = c.mbReceiver n) (hf : c.mbFull n = true) :
    mbDataRead c m n (c.mbLast n) = some (c.reg (MBn_DATA n (c.mbLast n)), mbAck c n) := by
  rw [mbDataRead_last (mbReads_party he (.inr (.inr hr))), he, hf, hr, beq_self_eq_true, beq_self_eq_true]
  rfl

theorem mbDataRead_looks (he : c.mbEn n = true) (hp : m = c.mbSender n ∨ m = 0 ∨ m = c.mbReceiver n)
    (h : m ≠ c.mbReceiver n ∨ c.mbFull n = false) :
    mbDataRead c m n (c.mbLast n) = some (c.reg (MBn_DATA n (c.mbLast n)), c) := by
  rw [mbDataRead_last (mbReads_party he hp), if_neg]
  rcases h with h | h <;> simp [h]

/-! ### Timeouts and pairs -/

theorem mailboxTimeout_idle (h : (tblGet .reset c.mbx.timers n).goLt = none) : mailboxTimeout c n = c := by
  unfold mailboxTimeout
  rw [h]

theorem mailboxTimeout_runs {t : Nat} (h : (tblGet .reset c.mbx.timers n).goLt = some t) : mailboxTimeout c n =
    if c.mbFull n ∧ c.mbTimeout n ≠ 0 ∧ t + c.mbTimeout n < c.lt then
      (let c1 := (c.setBit (MBn_CTL n) 29 true).setMbTimer n .reset
      if c.mbWide n then c1.mbRaise n 3 else c1)
    else c := by
  unfold mailboxTimeout
  rw [h]

theorem crossWait_alone (h : c.mbPartner n = none) : crossWait c n = c := by
  unfold crossWait
  rw [h]

theorem crossWait_pair {p s : Nat} (h : c.mbPartner n = some p) (ht : tblGet .reset c.mbx.pairs n = ⟨some s, false⟩)
    (hf : c.mbFull n = true) (hp : c.mbFull p = true) : crossWait c n =
    if (c.reg MBX_PAIRLIM).toNat < (c.lt - 1) / 65536000 - s / 65536000 then
      (((((((c.setBit (MBn_CTL n) 28 true).setBit (MBn_CTL p) 28 true).setPair n ⟨some s, true⟩).setPair p
        ⟨some s, true⟩).mbRaise n 4).mbRaise p 4).wakeLine 0 1 7)
    else c := by
  unfold crossWait
  rw [h]
  dsimp only
  rw [ht]
  dsimp only
  rw [hf, hp]
  simp only [true_and]

end Sys2Proof.Machine

namespace Sys2Proof
open Machine

/-- Settles O45: what each access to a mailbox does, case by case. That a timeout and a crossing come behind their
last tick (log entry 22) and that a refused GO is refused whole (log entry 196) are the model's choices. -/
theorem mailboxesFollowR388ToR395 : Obligations.MailboxesFollowR388ToR395 := by
  unfold Obligations.MailboxesFollowR388ToR395
  intro m n i v c k cfg ctl en wide full last sender receiver raise go emptied alone t expired wiped data
  have hk : k < 64 := n.isLt
  have hcfg {d} (g : mbCfgWrite c m.val k v = d) : Does (.mailboxConfigWrite m n v) c d :=
    does_mailboxConfigWrite ((regWrite_MBn_CFG n).trans g)
  have hdata {d} (g : mbDataWrite c m.val k i.val v = d) : Does (.mailboxDataWrite m n i v) c d :=
    does_mailboxDataWrite ((regWrite_MBn_DATA n i).trans g)
  have hgo {d} (g : mbCtlWrite c m.val k (v ||| 0x80000000) = d) : Does (.mailboxGo m n v) c d :=
    does_mailboxGo ((regWrite_MBn_CTL n).trans g)
  have hreset {d} (g : mbCtlWrite c m.val k (v ||| 0x04000000) = d) : Does (.mailboxReset m n v) c d :=
    does_mailboxReset ((regWrite_MBn_CTL n).trans g)
  have hnot {y : Bool} (h : y = false) : ¬y = true := by
    rw [h]
    exact Bool.false_ne_true
  refine ⟨fun h => ?_, fun hf h => ?_, fun he hs hf hi => ?_, fun he hs hf hi => ?_, fun h => ?_,
    fun he hs hf ha h29 h28 h26 => ?_, fun h => ?_, fun he hr hf ha => ⟨fun hw => ?_, fun hw => ?_⟩, fun he hp h => ?_,
    fun hm h => ?_, fun h => ?_, fun g hg h => ?_, fun g hg hf hz ht => ⟨fun hw => ?_, fun hw => ?_⟩, fun h => ?_,
    fun p s hp ht hf hpf => ⟨fun h => ?_, fun h => ?_⟩, fun hm => ?_,
    fun hm h31 h29 h28 ha => ⟨fun hf => ?_, fun hf hw => ?_⟩⟩
  case refine_1 => exact hcfg (mbCfgWrite_refused h)
  case refine_2 => exact hcfg (mbCfgWrite_taken hf h)
  case refine_3 => exact hdata ((mbDataWrite_taken he hs hf).trans (congrArg Chip.done (if_pos hi)))
  case refine_4 => exact hdata ((mbDataWrite_taken he hs hf).trans (congrArg Chip.done (if_neg (Nat.not_le.2 hi))))
  case refine_5 => exact hdata (mbDataWrite_refused h)
  case refine_6 =>
    have h26' : wbit (v ||| 0x80000000) 26 = false := (wbit_or_of_not_right rfl).trans h26
    exact hgo ((mbCtlWrite_go (mbCtlAllowed_go he hs hf h26') ((wbit_or_of_not_right rfl).trans h29)
      ((wbit_or_of_not_right rfl).trans h28) (wbit_or_of_right rfl) h26').trans
        (congrArg Chip.done (mailboxGo_alone hk ha)))
  case refine_7 => exact hgo (mbCtlWrite_refused (mbCtlAllowed_go_not (wbit_or_of_right rfl) h))
  case refine_8 =>
    refine does_mailboxAcknowledge ((regRead_mailbox n (mbDataRead_acks he hr hf)).trans ?_)
    exact congrArg (Chip.answer · _) ((if_pos hw).trans (congrArg (Chip.mbRaise · k 2) (mbEmpty_alone ha)))
  case refine_9 =>
    refine does_mailboxAcknowledge ((regRead_mailbox n (mbDataRead_acks he hr hf)).trans ?_)
    exact congrArg (Chip.answer · _) ((if_neg (hnot hw)).trans (mbEmpty_alone ha))
  case refine_10 => exact does_mailboxAcknowledge (regRead_mailbox n (mbDataRead_looks he hp h))
  case refine_11 => exact does_mailboxAcknowledge (regRead_mailbox_refused n (mbDataRead_refused hm h))
  case refine_12 => exact does_mailboxTimeout (mailboxTimeout_idle h)
  case refine_13 =>
    refine does_mailboxTimeout ((mailboxTimeout_runs hg).trans (if_neg ?_))
    rintro ⟨g1, g2, g3⟩
    rcases h with h | h | h
    · exact Bool.false_ne_true (h.symm.trans g1)
    · exact g2 h
    · exact absurd g3 (Nat.not_lt.2 h)
  case refine_14 => exact does_mailboxTimeout ((mailboxTimeout_runs hg).trans ((if_pos ⟨hf, hz, ht⟩).trans (if_pos hw)))
  case refine_15 =>
    exact does_mailboxTimeout ((mailboxTimeout_runs hg).trans ((if_pos ⟨hf, hz, ht⟩).trans (if_neg (hnot hw))))
  case refine_16 => exact does_crossWaitDetect (crossWait_alone h)
  case refine_17 => exact does_crossWaitDetect ((crossWait_pair hp ht hf hpf).trans (if_neg (Nat.not_lt.2 h)))
  case refine_18 => exact does_crossWaitDetect ((crossWait_pair hp ht hf hpf).trans (if_pos h))
  case refine_19 => exact hreset (mbCtlWrite_refused (mbCtlAllowed_reset_not (wbit_or_of_right rfl) hm))
  all_goals
    have h31' : wbit (v ||| 0x04000000) 31 = false := (wbit_or_of_not_right rfl).trans h31
    have h29' : wbit (v ||| 0x04000000) 29 = false := (wbit_or_of_not_right rfl).trans h29
    have hallowed : c.mbCtlAllowed m.val k (v ||| 0x04000000) = true := by
      rw [hm]
      exact mbCtlAllowed_reset h31' h29'
    have hw := mbCtlWrite_reset hallowed h29' ((wbit_or_of_not_right rfl).trans h28) h31' (wbit_or_of_right rfl)
  case refine_20 => exact hreset (hw.trans (congrArg Chip.done (mailboxReset_empty ha hf)))
  case refine_21 => exact hreset (hw.trans (congrArg Chip.done (mailboxReset_full ha hf ‹_›)))

end Sys2Proof
end

section
/-!
PROOF. Delivery of events (R397 to R401).
-/
namespace Sys2Proof.Machine

variable {c : Chip} {m n k t : Nat} {v : W32} {e : RaisedEvent} {rest : List RaisedEvent}

/-! ### Events of mailboxes -/

theorem eventDelivery_none (h : c.evt.raised = []) : eventDelivery c = c := by
  simp only [eventDelivery, h]

section
variable (h : c.evt.raised = e :: rest) (hs : 448 ≤ e.src) (hq : wbit e.route 29 = false)
include h hs hq

/-- The event of a mailbox goes to the targets of its code, and to no record queue. -/
theorem eventDelivery_mailbox {a b : Bool} (hc : codeTargets e.code = (a, b)) : eventDelivery c =
    (let d := { c with evt := { c.evt with raised := rest } }
    let d1 := if a && wbit e.route 31 then d.deliverTo (wfld e.route 11 0) else d
    if b && wbit e.route 30 then d1.deliverTo (wfld e.route 25 14) else d1) := by
  simp only [eventDelivery, h, if_pos hs, hc, hq, Bool.false_eq_true, if_false]

theorem eventDelivery_toA (hc : e.code = 1 ∨ e.code = 4) : eventDelivery c =
    (let d := { c with evt := { c.evt with raised := rest } }
    if wbit e.route 31 then d.deliverTo (wfld e.route 11 0) else d) := by
  have ht : codeTargets e.code = (true, false) := by rcases hc with hc | hc <;> rw [hc] <;> decide
  rw [eventDelivery_mailbox h hs hq ht]
  simp only [Bool.true_and, Bool.false_and, Bool.false_eq_true, if_false]

theorem eventDelivery_toB (hc : e.code = 2 ∨ e.code = 3 ∨ e.code = 5) : eventDelivery c =
    (let d := { c with evt := { c.evt with raised := rest } }
    if wbit e.route 30 then d.deliverTo (wfld e.route 25 14) else d) := by
  have ht : codeTargets e.code = (false, true) := by rcases hc with hc | hc | hc <;> rw [hc] <;> decide
  rw [eventDelivery_mailbox h hs hq ht]
  simp only [Bool.true_and, Bool.false_and, Bool.false_eq_true, if_false]

end

/-! ### Targets -/

/-- The target codes of R398. -/
def TargetCode (t : Nat) : Prop := (t / 512 = 1 ∧ t % 64 ≠ 0) ∨ t / 512 = 2 ∨ t / 512 = 3 ∨ t / 512 = 4 ∨
  (t / 512 = 5 ∧ t % 8 ≤ 4) ∨ t / 512 = 6 ∨ (t / 512 = 7 ∧ 1 ≤ t % 8 ∧ t % 8 ≤ 6)

theorem targetOk_iff : targetOk t = true ↔ TargetCode t := by
  unfold targetOk TargetCode
  split <;> simp_all

theorem deliverTo_msix (h : t / 512 = 1) (hp : c.fld HIF_STAT 17 16 = 0) :
    c.deliverTo t = { c with evt := { c.evt with msix := c.evt.msix ++ [t % 64] } } := by
  simp only [Chip.deliverTo, h, hp, if_true]

theorem deliverTo_pin (h : t / 512 = 2) : c.deliverTo t = c := by
  simp only [Chip.deliverTo, h]

theorem deliverTo_sup (h : t / 512 = 3) : c.deliverTo t = c.wakeLine 0 1 (t % 8) := by
  simp only [Chip.deliverTo, h]

theorem deliverTo_task (h : t / 512 = 4) : c.deliverTo t = c.wakeLine (1 + t / 64 % 2) (t / 8 % 8) (t % 8) := by
  simp only [Chip.deliverTo, h]

theorem deliverTo_engine (h : t / 512 = 5) : c.deliverTo t = c.wakeLine (3 + t / 32 % 8) (t / 8 % 4) (t % 8) := by
  simp only [Chip.deliverTo, h]

theorem deliverTo_mover (h : t / 512 = 6) : c.deliverTo t = c.xdTrig (t % 64) := by
  simp only [Chip.deliverTo, h]

theorem deliverTo_skipper (h : t / 512 = 7) : c.deliverTo t = c.skLine (t / 8 % 32) (t % 8) := by
  simp only [Chip.deliverTo, h]

theorem xdTrig_free (h : (c.xd k).pend = false) : c.xdTrig k = c.setXd k { c.xd k with pend := true } :=
  if_neg (by rw [h]; exact Bool.false_ne_true)

/-! ### Record queues and routes -/

theorem eventPop_owner (h : m = 0 ∨ m = c.fld (EVT_EQk_OWNER k) 3 0) : eventPop c m k v =
    (if wbit v 0 then c.setEvq k { c.evq k with recs := (c.evq k).recs.tail } else c).done := if_pos h

theorem eventPop_other (hm : m ≠ 0) (h : m ≠ c.fld (EVT_EQk_OWNER k) 3 0) : eventPop c m k v = c.refuse :=
  if_neg (not_or.2 ⟨hm, h⟩)

theorem eventRaise_other (hm : m ≠ 0) : eventRaise c m v = c.refuse := if_neg hm

/-- Every target that a route enables lies in the table. -/
def RouteOk (v : W32) : Prop := (wbit v 31 = true → TargetCode (wfld v 11 0)) ∧ (wbit v 30 = true → TargetCode (wfld v 25 14))

theorem routeWrite_refuses_iff : (m ≠ 0 ∨ (wbit v 31 = true ∧ targetOk (wfld v 11 0) = false) ∨
    (wbit v 30 = true ∧ targetOk (wfld v 25 14) = false)) ↔ m ≠ 0 ∨ ¬RouteOk v := by
  have hn {t : Nat} : targetOk t = false ↔ ¬TargetCode t := by rw [← targetOk_iff, Bool.not_eq_true]
  unfold RouteOk
  rw [hn, hn, ← Classical.not_imp, ← Classical.not_imp, ← Classical.not_and_iff_not_or_not]

theorem routeWrite_refused (h : m ≠ 0 ∨ ¬RouteOk v) : routeWrite c m n v = c.refuse :=
  if_pos (routeWrite_refuses_iff.2 h)

theorem routeWrite_taken (h : RouteOk v) : routeWrite c 0 n v = c.plainWrite 0 (EVT_ROUTE n) v :=
  if_neg fun g => (routeWrite_refuses_iff.1 g).elim (fun g => g rfl) (fun g => g h)

/-! ### MSI-X -/

theorem msixSend_waits (h : c.evt.msix = [] ∨ c.bit HIF_STAT 31 = false) : msixSend c = c := by
  unfold msixSend
  split
  · rfl
  next x r hx => exact if_neg (h.elim (fun h => absurd (h.symm.trans hx) nofun) (fun h => by rw [h]; exact Bool.false_ne_true))

theorem msixSend_link {x : Nat} {r : List Nat} (h : c.evt.msix = x :: r) (hl : c.bit HIF_STAT 31 = true) : msixSend c =
    (let c1 := { c with evt := { c.evt with msix := r } }
    if wbit (c.msixWord (4 * x + 3)) 0 then
      if nbit c.hif.pba x then c1 else { c1 with hif := { c.hif with pba := c.hif.pba + 2 ^ x } }
    else { c1 with hif := { c.hif with
      message := some (join64 (c.msixWord (4 * x + 1)) (c.msixWord (4 * x)), c.msixWord (4 * x + 2)) } }) := by
  unfold msixSend
  rw [h]
  exact if_pos hl

end Sys2Proof.Machine

namespace Sys2Proof
open Machine

/-- Settles O48: what each delivery does, target by target. That a record is stored at its delivery (log entry 195) and
the layout of the MSI-X table with its pending bits (log entry 56) are the model's choices. -/
theorem eventsAreDelivered : Obligations.EventsAreDelivered := by
  unfold Obligations.EventsAreDelivered
  intro m k n v t e rest c d kind q legal routed sent told
  have hpop {d} (g : eventPop c m.val k.val v = d) : Does (.eventQueuePop m k v) c d :=
    does_eventQueuePop ((regWrite_EVT_EQk_POP k).trans g)
  have hroute {d} (g : routeWrite c m.val n.val v = d) : Does (.routeWrite m n v) c d :=
    does_routeWrite ((regWrite_EVT_ROUTE n).trans g)
  have hnot {y : Bool} (h : y = false) : ¬y = true := by
    rw [h]
    exact Bool.false_ne_true
  refine ⟨fun h => ?_, fun h hs hc hq => ?_, fun h hs hc hq => ?_, fun h hp => deliverTo_msix h hp,
    fun h => deliverTo_pin h, fun h => deliverTo_sup h, fun h => deliverTo_task h, fun h => deliverTo_engine h,
    fun h hp => ?_, fun h hp => ?_, fun h hp => ?_, fun h => ?_, fun h => ?_, fun ho => ⟨fun h => ?_, fun h => ?_⟩,
    fun hm h => ?_, fun hm => ?_, fun hm h => ?_, fun h => ?_, fun h => ?_,
    fun x r hx hl => ⟨fun hv hb => ?_, fun hv hb => ?_, fun hv => ?_⟩⟩
  case refine_1 => exact does_eventDelivery (eventDelivery_none h)
  case refine_2 => exact does_eventDelivery (eventDelivery_toA h hs hq hc)
  case refine_3 => exact does_eventDelivery (eventDelivery_toB h hs hq hc)
  case refine_4 => exact (deliverTo_mover h).trans (xdTrig_free hp)
  case refine_5 => exact (deliverTo_skipper h).trans (skLine_set hp)
  case refine_6 => exact (deliverTo_skipper h).trans (skLine_clear hp)
  case refine_7 => exact if_pos h
  case refine_8 => exact if_neg (Nat.not_lt.2 h)
  case refine_9 => exact hpop ((eventPop_owner ho).trans (congrArg Chip.done (if_pos h)))
  case refine_10 => exact hpop ((eventPop_owner ho).trans (congrArg Chip.done (if_neg (hnot h))))
  case refine_11 => exact hpop (eventPop_other hm h)
  case refine_12 => exact does_evtRaiseWrite (regWrite_EVT_RAISE.trans (eventRaise_other hm))
  case refine_13 =>
    refine hroute ?_
    rw [hm]
    exact routeWrite_taken h
  case refine_14 => exact hroute (routeWrite_refused h)
  case refine_15 => exact does_msixSend (msixSend_waits h)
  case refine_16 => exact does_msixSend ((msixSend_link hx hl).trans ((if_pos hv).trans (if_pos hb)))
  case refine_17 => exact does_msixSend ((msixSend_link hx hl).trans ((if_pos hv).trans (if_neg (hnot hb))))
  case refine_18 => exact does_msixSend ((msixSend_link hx hl).trans (if_neg (hnot hv)))

end Sys2Proof
end

section
/-!
PROOF. The check-value unit (R403 to R405, R407).
-/
namespace Sys2Proof.Machine

variable {c : Chip} {m n w poly s x : Nat} {b : Byte} {v : W32}

/-! ### One byte -/

theorem b2n_le_one (q : Bool) : b2n q ≤ 1 := by
  unfold b2n
  split <;> decide

theorem reflectBits_byte_lt (x : Nat) : reflectBits 8 x < 256 := by
  have h (i : Nat) : b2n (nbit x i) ≤ 1 := b2n_le_one _
  unfold reflectBits
  simp only [List.range_succ, List.range_zero, List.map_append, List.map_cons, List.map_nil, List.nil_append,
    List.sum_append, List.sum_cons, List.sum_nil]
  have h0 := h 0
  have h1 := h 1
  have h2 := h 2
  have h3 := h 3
  have h4 := h 4
  have h5 := h 5
  have h6 := h 6
  have h7 := h 7
  omega

theorem crcStep_refin : crcStep w poly true s b = crcStep w poly false s (BitVec.ofNat 8 (reflectBits 8 b.toNat)) := by
  have h : (BitVec.ofNat 8 (reflectBits 8 b.toNat)).toNat = reflectBits 8 b.toNat :=
    (BitVec.toNat_ofNat ..).trans (Nat.mod_eq_of_lt (reflectBits_byte_lt _))
  unfold crcStep
  simp only [h, if_true, Bool.false_eq_true, if_false]

/-- A fold whose every step stays in range stays in range. -/
theorem foldl_lt {α : Type} {f : Nat → α → Nat} {k : Nat} (hf : ∀ s y, s < k → f s y < k) (l : List α) :
    ∀ s, s < k → l.foldl f s < k := by
  induction l with
  | nil => exact fun _ h => h
  | cons y ys ih => exact fun s h => ih _ (hf s y h)

/-- A byte keeps the model register within its width. -/
theorem crcStep_lt {r : Bool} (hs : s < 2 ^ w) (hp : poly < 2 ^ w) : crcStep w poly r s b < 2 ^ w := by
  unfold crcStep
  refine foldl_lt (fun s i _ => ?_) _ _ hs
  have ht : s * 2 % 2 ^ w < 2 ^ w := Nat.mod_lt _ (Nat.two_pow_pos w)
  dsimp only
  generalize (nbit s (w - 1) != _) = fb
  cases fb with
  | false => exact ht
  | true => exact Nat.xor_lt_two_pow ht hp

/-- The check value of "123456789" by preset 2, byte by byte. -/
theorem crcStep_check :
    ([0x31, 0x32, 0x33, 0x34, 0x35, 0x36, 0x37, 0x38, 0x39] : List Byte).foldl (crcStep 16 0x1021 false) 0xFFFF =
      0x29B1 := by
  have h1 : crcStep 16 0x1021 false 0xFFFF 0x31 = 0xC782 := by decide
  have h2 : crcStep 16 0x1021 false 0xC782 0x32 = 0x3DBA := by decide
  have h3 : crcStep 16 0x1021 false 0x3DBA 0x33 = 0x5BCE := by decide
  have h4 : crcStep 16 0x1021 false 0x5BCE 0x34 = 0x5349 := by decide
  have h5 : crcStep 16 0x1021 false 0x5349 0x35 = 0x4560 := by decide
  have h6 : crcStep 16 0x1021 false 0x4560 0x36 = 0x2EF4 := by decide
  have h7 : crcStep 16 0x1021 false 0x2EF4 0x37 = 0x7718 := by decide
  have h8 : crcStep 16 0x1021 false 0x7718 0x38 = 0xA12B := by decide
  have h9 : crcStep 16 0x1021 false 0xA12B 0x39 = 0x29B1 := by decide
  rw [List.foldl_cons, h1, List.foldl_cons, h2, List.foldl_cons, h3, List.foldl_cons, h4, List.foldl_cons, h5,
    List.foldl_cons, h6, List.foldl_cons, h7, List.foldl_cons, h8, List.foldl_cons, h9, List.foldl_nil]

/-! ### Split registers -/

theorem Chip.reg64_setReg64 {a x : Nat} (h : x < 2 ^ 64) : (c.setReg64 a x).reg64 a = x := by
  unfold Chip.reg64
  rw [Chip.reg_setReg64, Chip.reg_setReg64, if_pos rfl, if_neg (by omega), if_pos rfl]
  unfold join64 hi32 lo32 w32
  rw [BitVec.toNat_ofNat, BitVec.toNat_ofNat]
  omega

/-! ### Commands -/

theorem cvMaster_iff : c.cvMaster n m = true ↔ m = 0 ∨ m = c.fld (CVn_OWNER n) 3 0 := by
  unfold Chip.cvMaster
  rw [Bool.or_eq_true, beq_iff_eq, beq_iff_eq]

theorem cvMaster_not (h : ¬(m = 0 ∨ m = c.fld (CVn_OWNER n) 3 0)) : c.cvMaster n m = false := by
  rw [← Bool.not_eq_true, cvMaster_iff]
  exact h

theorem cvCtlWrite_other (h : ¬(m = 0 ∨ m = c.fld (CVn_OWNER n) 3 0)) : cvCtlWrite c m n v = c.refuse := by
  refine if_pos ?_
  rw [cvMaster_not h]
  rfl

theorem cvDataWrite_other (h : ¬(m = 0 ∨ m = c.fld (CVn_OWNER n) 3 0)) : cvDataWrite c m n x v = c.refuse := by
  refine if_neg ?_
  rw [cvMaster_not h]
  exact Bool.false_ne_true

section
variable (h : m = 0 ∨ m = c.fld (CVn_OWNER n) 3 0)
include h

theorem cvCtlWrite_ours : cvCtlWrite c m n v =
    (let c1 := if wbit v 29 then cvLoad c n (wfld v 25 24) else c
    let c2 := if wbit v 31 then cvStart c1 n else c1
    (if wbit v 30 then cvFinish c2 n else c2).done) := by
  refine if_neg ?_
  rw [cvMaster_iff.2 h]
  exact Bool.false_ne_true

theorem cvCtlWrite_load (p : Fin 4) : cvCtlWrite c m n (w32 (0x20000000 + at_ p.val 24)) = (cvLoad c n p.val).done := by
  have hv : ∀ p : Fin 4, wbit (w32 (0x20000000 + at_ p.val 24)) 29 = true ∧
      wbit (w32 (0x20000000 + at_ p.val 24)) 31 = false ∧ wbit (w32 (0x20000000 + at_ p.val 24)) 30 = false ∧
      wfld (w32 (0x20000000 + at_ p.val 24)) 25 24 = p.val := by decide
  obtain ⟨h29, h31, h30, hf⟩ := hv p
  rw [cvCtlWrite_ours h]
  simp only [h29, h31, h30, hf, if_true, Bool.false_eq_true, if_false]

theorem cvCtlWrite_start : cvCtlWrite c m n 0x80000000 = (cvStart c n).done := by
  have h29 : wbit 0x80000000 29 = false := by decide
  have h31 : wbit 0x80000000 31 = true := by decide
  have h30 : wbit 0x80000000 30 = false := by decide
  rw [cvCtlWrite_ours h]
  simp only [h29, h31, h30, if_true, Bool.false_eq_true, if_false]

theorem cvCtlWrite_finish : cvCtlWrite c m n 0x40000000 = (cvFinish c n).done := by
  have h29 : wbit 0x40000000 29 = false := by decide
  have h31 : wbit 0x40000000 31 = false := by decide
  have h30 : wbit 0x40000000 30 = true := by decide
  rw [cvCtlWrite_ours h]
  simp only [h29, h31, h30, if_true, Bool.false_eq_true, if_false]

theorem cvDataWrite_ours : cvDataWrite c m n x v = (c.cvFeed n (leBytes x v.toNat)).done :=
  if_pos (cvMaster_iff.2 h)

end

theorem cvStart_plain (h : c.bit (CVn_CFG n) 31 = false ∨ c.bit (CVn_CFG n) 30 = true) : cvStart c n =
    (c.setReg64 (CVn_STATE_LO n) (c.reg64 (CVn_INIT_LO n) % 2 ^ c.cvWidth n)).setReg (CVn_COUNT n) 0 := by
  refine if_neg ?_
  rintro ⟨g1, g2⟩
  exact h.elim (fun h => Bool.false_ne_true (h.symm.trans g1)) (fun h => Bool.false_ne_true (g2.symm.trans h))

/-- The schedule engine does not use the context. -/
theorem cvShared_alone {e : Chip} (h : e.bit SWX_SCHED_CTL 31 = false ∨ e.fld SWX_SCHED_CTL 3 0 ≠ n) :
    e.cvShared n = e := by
  refine if_neg ?_
  rintro ⟨g1, g2⟩
  exact h.elim (fun h => Bool.false_ne_true (h.symm.trans g1)) (fun h => h g2)

theorem cvStep_schedCtl (hn : n < 16) {bs : List Byte} : (c.cvStep n bs).reg SWX_SCHED_CTL = c.reg SWX_SCHED_CTL := by
  refine (Chip.reg_setReg64 ..).trans ((if_neg ?_).trans (if_neg ?_))
  all_goals
    unfold SWX_SCHED_CTL CVn_STATE_LO
    omega

theorem cvFeed_alone (hn : n < 16) {bs : List Byte} (h : c.bit SWX_SCHED_CTL 31 = false ∨ c.fld SWX_SCHED_CTL 3 0 ≠ n) :
    c.cvFeed n bs = (c.cvStep n bs).setReg (CVn_COUNT n) (c.reg (CVn_COUNT n) + w32 bs.length) := by
  unfold Chip.cvFeed
  rw [cvShared_alone]
  unfold Chip.bit Chip.fld
  rw [cvStep_schedCtl hn]
  exact h

/-- The result of a register value. -/
def Chip.cvResult (c : Chip) (n s : Nat) : Nat :=
  (if c.bit (CVn_CFG n) 9 then reflectBits (c.cvWidth n) s else s) ^^^ (c.reg64 (CVn_XOROUT_LO n) % 2 ^ c.cvWidth n)

theorem cvFinish_eq : cvFinish c n =
    (let c1 := if c.bit (CVn_CFG n) 31 && c.bit (CVn_CFG n) 30 then c.cvStep n (c.cvFold n) else c
    (c1.setReg64 (CVn_RESULT_LO n) (c.cvResult n (c1.reg64 (CVn_STATE_LO n) % 2 ^ c.cvWidth n))).flag
      (CVn_FLAGS n) 0 (432 + n)) := rfl

theorem cvFinish_plain (h : c.bit (CVn_CFG n) 31 = false ∨ c.bit (CVn_CFG n) 30 = false) : cvFinish c n =
    (c.setReg64 (CVn_RESULT_LO n) (c.cvResult n (c.reg64 (CVn_STATE_LO n) % 2 ^ c.cvWidth n))).flag
      (CVn_FLAGS n) 0 (432 + n) := by
  have hb : (c.bit (CVn_CFG n) 31 && c.bit (CVn_CFG n) 30) = false := by
    rcases h with h | h <;> rw [h]
    · rfl
    · exact Bool.and_false _
  rw [cvFinish_eq, hb]
  simp only [Bool.false_eq_true, if_false]

/-- The model register of a context after some bytes. -/
def Chip.cvStepped (c : Chip) (n : Nat) (bs : List Byte) : Nat :=
  bs.foldl (crcStep (c.cvWidth n) (c.reg64 (CVn_POLY_LO n) % 2 ^ c.cvWidth n) (c.bit (CVn_CFG n) 8))
    (c.reg64 (CVn_STATE_LO n) % 2 ^ c.cvWidth n)

theorem cvStepped_lt {bs : List Byte} : c.cvStepped n bs < 2 ^ c.cvWidth n :=
  foldl_lt (fun _ _ h => crcStep_lt h (Nat.mod_lt _ (Nat.two_pow_pos _))) _ _ (Nat.mod_lt _ (Nat.two_pow_pos _))

theorem reg64_cvStep {bs : List Byte} (hw : c.cvWidth n ≤ 64) :
    (c.cvStep n bs).reg64 (CVn_STATE_LO n) = c.cvStepped n bs :=
  Chip.reg64_setReg64 (Nat.lt_of_lt_of_le cvStepped_lt (Nat.pow_le_pow_right (by decide) hw))

theorem cvFinish_fold (h1 : c.bit (CVn_CFG n) 31 = true) (h2 : c.bit (CVn_CFG n) 30 = true) (hw : c.cvWidth n ≤ 64) :
    cvFinish c n = ((c.cvStep n (c.cvFold n)).setReg64 (CVn_RESULT_LO n)
      (c.cvResult n (c.cvStepped n (c.cvFold n) % 2 ^ c.cvWidth n))).flag (CVn_FLAGS n) 0 (432 + n) := by
  rw [cvFinish_eq, h1, h2]
  simp only [Bool.and_self, if_true, reg64_cvStep hw]

end Sys2Proof.Machine

namespace Sys2Proof
open Machine

/-- Settles O49: each command of a context, and the step of a byte with its width, its reflection and its check value. -/
theorem checkValuesFollowR403ToR407 : Obligations.CheckValuesFollowR403ToR407 := by
  unfold Obligations.CheckValuesFollowR403ToR407
  refine ⟨?_, fun w poly s b => crcStep_refin, fun w poly s b hs hp _ => crcStep_lt hs hp, crcStep_check⟩
  intro m n p v c k ours w poly step fold folds atEnd init state alone fed result load
  have hk : k < 16 := n.isLt
  have hload {d} (g : cvCtlWrite c m.val k (w32 (0x20000000 + at_ p.val 24)) = d) : Does (.cvLoad m n p) c d :=
    does_cvLoad ((regWrite_CVn_CTL n).trans g)
  have hstart {d} (g : cvCtlWrite c m.val k 0x80000000 = d) : Does (.cvStart m n) c d :=
    does_cvStart ((regWrite_CVn_CTL n).trans g)
  have hfinish {d} (g : cvCtlWrite c m.val k 0x40000000 = d) : Does (.cvFinish m n) c d :=
    does_cvFinish ((regWrite_CVn_CTL n).trans g)
  have hdata4 {d} (g : cvDataWrite c m.val k 4 v = d) : Does (.cvData4Write m n v) c d :=
    does_cvData4Write ((regWrite_CVn_DATA4 n).trans g)
  have hdata1 {d} (g : cvDataWrite c m.val k 1 v = d) : Does (.cvData1Write m n v) c d :=
    does_cvData1Write ((regWrite_CVn_DATA1 n).trans g)
  refine ⟨fun h => ?_, fun h => ?_, fun h hf => ?_, fun h ha => ?_, fun h hf => ?_, fun h h1 h2 hw => ?_⟩
  case refine_1 =>
    exact ⟨hload (cvCtlWrite_other h), hstart (cvCtlWrite_other h), hfinish (cvCtlWrite_other h),
      hdata4 (cvDataWrite_other h), hdata1 (cvDataWrite_other h)⟩
  case refine_2 =>
    have hp {q : Fin 4} (hq : p = q) : Does (.cvLoad m n p) c (cvLoad c k q.val).done :=
      hq ▸ hload (cvCtlWrite_load h p)
    exact ⟨hp, hp, hp, hp⟩
  case refine_3 => exact hstart ((cvCtlWrite_start h).trans (congrArg Chip.done (cvStart_plain hf)))
  case refine_4 =>
    have hfed (x : Nat) : cvDataWrite c m.val k x v = fed (leBytes x v.toNat) :=
      (cvDataWrite_ours h).trans (congrArg Chip.done (cvFeed_alone hk ha))
    exact ⟨hdata4 (hfed 4), hdata1 (hfed 1)⟩
  case refine_5 => exact hfinish ((cvCtlWrite_finish h).trans (congrArg Chip.done (cvFinish_plain hf)))
  case refine_6 => exact hfinish ((cvCtlWrite_finish h).trans (congrArg Chip.done (cvFinish_fold h1 h2 hw)))

end Sys2Proof
end

section
/-!
PROOF. The host's paths and the outbound window (R413 to R418, R434, R501, R532).
-/
namespace Sys2Proof.Machine

variable {c d : Chip} {m n ofs ad a r : Nat} {v : W32} {write : Bool} {bs data : List Byte}

/-! ### The control region -/

theorem wordAligned_four (h : ofs % 4 = 0) : wordAligned ofs 4 = true := by
  unfold wordAligned
  rw [h]
  rfl

theorem wordAligned_not (h : ofs % 4 ≠ 0 ∨ n ≠ 4) : wordAligned ofs n = false := by
  unfold wordAligned
  rcases h with h | h
  · rw [beq_false_of_ne h, Bool.false_and]
  · rw [beq_false_of_ne h, Bool.and_false]

theorem ctlReg_hif (h : ofs < 0x100) : ctlReg ofs = some (0x40110000 + ofs) := if_pos h

theorem ctlReg_mailbox (h1 : 0x2000 ≤ ofs) (h2 : ofs < 0x4000) : ctlReg ofs = some (0x400F0000 + (ofs - 0x2000)) :=
  (if_neg (by omega)).trans (if_pos ⟨h1, h2⟩)

theorem ctlRead_unaligned (h : ofs % 4 ≠ 0 ∨ n ≠ 4) : ctlRead c ofs n = (none, c) := by
  refine if_pos ?_
  rw [wordAligned_not h]
  rfl

theorem ctlWrite_unaligned (h : ofs % 4 ≠ 0 ∨ n ≠ 4) : ctlWrite c ofs n v = (false, c) := by
  refine if_pos ?_
  rw [wordAligned_not h]
  rfl

section
variable (h : ofs % 4 = 0) (ha : ctlReg ofs = some a)
include h ha

theorem ctlRead_reg (hb : (regRead c 11 a).bus = .ok r) : ctlRead c ofs 4 = (some (w32 r), regRead c 11 a) := by
  unfold ctlRead
  rw [wordAligned_four h, ha]
  dsimp only
  rw [hb]
  rfl

theorem ctlWrite_reg : ctlWrite c ofs 4 v = ((regWrite c 11 a v).bus != .busError, regWrite c 11 a v) := by
  unfold ctlWrite
  rw [wordAligned_four h, ha]
  rfl

theorem ctlWrite_taken (hb : (regWrite c 11 a v).bus ≠ .busError) :
    ctlWrite c ofs 4 v = (true, regWrite c 11 a v) := by
  rw [ctlWrite_reg h ha, bne_iff_ne.2 hb]

theorem ctlWrite_refused (hb : (regWrite c 11 a v).bus = .busError) :
    ctlWrite c ofs 4 v = (false, regWrite c 11 a v) := by
  rw [ctlWrite_reg h ha, hb]
  rfl

end

/-! ### BAR0 and BAR2 -/

/-- What an access leaves that delivered words. -/
theorem hostAnswer_words {ws : List W32} :
    d.hostAnswer (some ws) = { d with hif := { d.hif with out := ws }, bus := .ok 0 } := rfl

theorem hostAnswer_refused : d.hostAnswer none = { d with hif := { d.hif with out := [] }, bus := .busError } := rfl

theorem bar0Access_inactive (h : c.hostPath ≠ 0) : bar0Access c write ofs n v = c.inactive 1 := if_pos h

theorem bar2Access_inactive (h : c.hostPath ≠ 0) : bar2Access c write ofs n data = c.inactive 1 := if_pos h

section
variable (h : c.hostPath = 0) (hl : c.bit HIF_STAT 31 = true)
include h hl

theorem bar0Access_live : bar0Access c write ofs n v =
    if 0x10000 < ofs + n then c.hostAnswer none
    else if write then (ctlWrite c ofs n v).2.hostAnswer (if (ctlWrite c ofs n v).1 then some [] else none)
    else (ctlRead c ofs n).2.hostAnswer ((ctlRead c ofs n).1.map fun w => [w]) := by
  refine (if_neg (not_not_intro h)).trans (if_neg ?_)
  rw [hl]
  exact Bool.false_ne_true

theorem bar0Access_abort (hb : 0x10000 < ofs + n ∨ (ofs % 4 ≠ 0 ∨ n ≠ 4)) :
    bar0Access c write ofs n v = c.hostAnswer none := by
  rw [bar0Access_live h hl]
  by_cases hr : 0x10000 < ofs + n
  · exact if_pos hr
  · have hu := hb.resolve_left hr
    rw [if_neg hr, ctlWrite_unaligned hu, ctlRead_unaligned hu]
    cases write <;> rfl

theorem bar0Access_read {w : W32} (ho : ofs < 0x4000) (hr : ctlRead c ofs 4 = (some w, d)) :
    bar0Access c false ofs 4 v = d.hostAnswer (some [w]) := by
  rw [bar0Access_live h hl, if_neg (by omega), if_neg Bool.false_ne_true, hr]
  rfl

theorem bar0Access_write {ok : Bool} (ho : ofs < 0x4000) (hw : ctlWrite c ofs 4 v = (ok, d)) :
    bar0Access c true ofs 4 v = d.hostAnswer (if ok then some [] else none) := by
  rw [bar0Access_live h hl, if_neg (by omega), if_pos rfl, hw]

theorem bar2Access_live : bar2Access c write ofs n data =
    if write then (sramWrite c ofs data).2.hostAnswer (if (sramWrite c ofs data).1 then some [] else none)
    else (sramRead c ofs n).2.hostAnswer ((sramRead c ofs n).1.map wordsIn) := by
  refine (if_neg (not_not_intro h)).trans (if_neg ?_)
  rw [hl]
  exact Bool.false_ne_true

theorem bar2Access_read {q : Option (List Byte)} (hr : sramRead c ofs n = (q, d)) :
    bar2Access c false ofs n data = d.hostAnswer (q.map wordsIn) := by
  rw [bar2Access_live h hl, if_neg Bool.false_ne_true, hr]

theorem bar2Access_write {ok : Bool} (hw : sramWrite c ofs data = (ok, d)) :
    bar2Access c true ofs n data = d.hostAnswer (if ok then some [] else none) := by
  rw [bar2Access_live h hl, if_pos rfl, hw]

theorem bar2Access_frozen (hf : c.bit HIF_STAT 30 = true) : bar2Access c write ofs n data = c.hostAnswer none := by
  cases write with
  | false => exact bar2Access_read h hl (if_pos hf)
  | true => exact bar2Access_write h hl (if_pos hf)

end

section
variable (hf : ¬c.bit HIF_STAT 30 = true)
include hf

theorem sramRead_freezes (hs : c.segAllows 11 (0x10000000 + ofs) n 1 = false) :
    sramRead c ofs n = (none, (c.setBit HIF_STAT 30 true).freezeAt 0x0B 11 (0x10000000 + ofs) (min 64 n) 1) := by
  unfold sramRead
  dsimp only
  rw [if_neg hf, show c.dmaRead 11 (0x10000000 + ofs) n = (.error .seg, c) from if_neg (by rw [hs]; exact Bool.false_ne_true)]
  rfl

theorem sramRead_reads (hs : c.segAllows 11 (0x10000000 + ofs) n 1 = true)
    (hr : c.memRead 11 (0x10000000 + ofs) n = (.ok bs, d)) : sramRead c ofs n = (some bs, d) := by
  unfold sramRead
  dsimp only
  rw [if_neg hf, show c.dmaRead 11 (0x10000000 + ofs) n = (.ok bs, d) from (if_pos hs).trans hr]

theorem sramWrite_freezes (hs : c.segAllows 11 (0x10000000 + ofs) data.length 2 = false) :
    sramWrite c ofs data = (false, (c.setBit HIF_STAT 30 true).freezeAt 0x0B 11 (0x10000000 + ofs) (min 64 data.length) 2) := by
  unfold sramWrite
  dsimp only
  rw [if_neg hf, show c.dmaWrite 11 (0x10000000 + ofs) data = (some .seg, c) from
    if_neg (by rw [hs]; exact Bool.false_ne_true)]
  rfl

theorem sramWrite_writes (hs : c.segAllows 11 (0x10000000 + ofs) data.length 2 = true)
    (hw : c.memWrite 11 (0x10000000 + ofs) data = (none, d)) : sramWrite c ofs data = (true, d) := by
  unfold sramWrite
  dsimp only
  rw [if_neg hf, show c.dmaWrite 11 (0x10000000 + ofs) data = (none, d) from (if_pos hs).trans hw]

end

/-! ### xSPI and the parallel bus -/

theorem flatRead_ctl (h : ad < 0x10000) : flatRead c ad = ctlRead c ad 4 := if_pos h

theorem flatWrite_ctl (h : ad < 0x10000) : flatWrite c ad v = ctlWrite c ad 4 v := if_pos h

theorem flatRead_gap (h1 : 0x10000 ≤ ad) (h2 : ad < 0x01000000) : flatRead c ad = (none, c) :=
  (if_neg (by omega)).trans (if_neg (by omega))

theorem flatWrite_gap (h1 : 0x10000 ≤ ad) (h2 : ad < 0x01000000) : flatWrite c ad v = (false, c) :=
  (if_neg (by omega)).trans (if_neg (by omega))

theorem xspiRead_inactive (h : c.hostPath ≠ 1) : xspiRead c a n = c.inactive n := if_pos (.inl h)

theorem xspiWrite_inactive {vs : List W32} (h : c.hostPath ≠ 1) : xspiWrite c a vs = c.inactive 0 := if_pos (.inl h)

section
variable (h : c.hostPath = 1) (hu : c.hif.pathUp = true)
include h hu

theorem xspi_live : ¬(c.hostPath ≠ 1 ∨ c.hif.pathUp = false) :=
  not_or.2 ⟨not_not_intro h, fun g => Bool.false_ne_true (g.symm.trans hu)⟩

theorem xspiRead_word_refused (hr : flatRead c a = (none, c)) :
    xspiRead c a 1 = ((c.hifFlag 2).hostOut [0xFFFFFFFF]).answer (.ok 0) := by
  have hw : xspiWordRead c a = (0xFFFFFFFF, c.hifFlag 2) := by
    unfold xspiWordRead
    rw [hr]
  refine (if_neg (xspi_live h hu)).trans ?_
  unfold xspiReads
  rw [hw]
  rfl

theorem xspiWrite_word_refused (hw : flatWrite c a v = (false, c)) :
    xspiWrite c a [v] = ((c.hifFlag 2).hostOut []).answer (.ok 0) := by
  refine (if_neg (xspi_live h hu)).trans ?_
  unfold xspiWrites
  rw [hw]
  rfl

end

theorem busAddr_ctl (h : ad < 0x100) : busAddr ad = ad := by
  unfold busAddr
  rw [Nat.testBit_lt_two_pow (Nat.lt_trans h (by decide))]
  exact (if_neg Bool.false_ne_true).trans (Nat.mod_eq_of_lt (Nat.lt_trans h (by decide)))

section
variable (h : 2 ≤ c.hostPath) (hu : c.hif.pathUp = true) (ha : ad < 0x100)
include h hu ha

theorem parallelRead_ctl {w : W32} (hr : ctlRead c ad 4 = (some w, d)) :
    parallelRead c ad = d.hostAnswer (some [w]) := by
  unfold parallelRead
  rw [if_neg (Nat.not_lt.2 h), if_neg (by rw [hu]; decide), busAddr_ctl ha, flatRead_ctl (by omega), hr]

theorem parallelWrite_ctl (hw : ctlWrite c ad 4 v = (true, d)) : parallelWrite c ad v = d.hostAnswer (some []) := by
  unfold parallelWrite
  rw [if_neg (Nat.not_lt.2 h), if_neg (by rw [hu]; decide), busAddr_ctl ha, flatWrite_ctl (by omega), hw]

end

/-! ### The link -/

theorem pcieLink_active {up : Bool} {w s : Nat} (h : c.hostPath = 0) : pcieLink c up w s =
    ((c.setBit HIF_STAT 31 up).setFld HIF_STAT 7 4 (if up then w else 0)).setFld HIF_STAT 3 0 (if up then s else 0) :=
  if_pos h

theorem pcieLink_inactive {up : Bool} {w s : Nat} (h : c.hostPath ≠ 0) : pcieLink c up w s = c := if_neg h

theorem setFld_hif {hi lo x : Nat} : (c.setFld a hi lo x).hif = c.hif := rfl

theorem setBit_hif {i : Nat} {x : Bool} : (c.setBit a i x).hif = c.hif := rfl

theorem setHif_of_hif {f : HifState → HifState} (h : d.hif = c.hif) : d.setHif f = { d with hif := f c.hif } := by
  unfold Chip.setHif
  rw [h]

theorem perstAssert_active (h : c.hostPath = 0) : perstAssert c =
    { ((c.setBit HIF_STAT 31 false).setFld HIF_STAT 7 4 0).setFld HIF_STAT 3 0 0 with
      hif := { c.hif with msix := [], pba := 0 } } := by
  unfold perstAssert
  rw [pcieLink_active h, if_neg Bool.false_ne_true]
  exact setHif_of_hif (setFld_hif.trans (setFld_hif.trans setBit_hif))

/-! ### The outbound window -/

theorem regionOf_outbound (h1 : 0xC0000000 ≤ a) (h2 : a < 0xD0000000) : regionOf a = .outbound := by
  unfold regionOf
  repeat rw [if_neg (by omega)]
  exact if_pos h2

theorem regionOf_outbound_or (h : 0xC0000000 ≤ a) : regionOf a = .outbound ∨ regionOf a = .unassigned := by
  by_cases h2 : a < 0xD0000000
  · exact .inl (regionOf_outbound h h2)
  · refine .inr ?_
    unfold regionOf
    repeat rw [if_neg (by omega)]

/-- Without a link the window takes nothing. -/
theorem accCheck_noLink (h : 0xC0000000 ≤ a) (hl : ¬c.bit HIF_STAT 31 = true) : c.accCheck m a n write = some .bus := by
  unfold Chip.accCheck
  rcases regionOf_outbound_or h with hr | hr <;> rw [hr]
  dsimp only
  rw [Bool.eq_false_iff.2 hl]
  rfl

theorem accCheck_link (hl : c.bit HIF_STAT 31 = true) (ho : ofs + n ≤ 2 ^ 28) (hn : 0 < n) :
    c.accCheck m (0xC0000000 + ofs) n write = none := by
  unfold Chip.accCheck
  rw [regionOf_outbound (a := 0xC0000000 + ofs) (by omega) (by omega)]
  dsimp only
  rw [hl, regionOf_outbound (a := 0xC0000000 + ofs + n - 1) (by omega) (by omega)]
  rfl

theorem outboundAccess_noLink (hl : ¬c.bit HIF_STAT 31 = true) : outboundAccess c m write ofs n data = c.refuse := by
  have ha : 0xC0000000 ≤ 0xC0000000 + ofs := Nat.le_add_right _ _
  unfold outboundAccess
  cases write with
  | false =>
    have hr : c.memRead m (0xC0000000 + ofs) n = (.error .bus, c) := by
      unfold Chip.memRead
      rw [accCheck_noLink ha hl]
      rfl
    dsimp only
    rw [if_neg Bool.false_ne_true, hr]
    rfl
  | true =>
    have hw : c.memWrite m (0xC0000000 + ofs) data = (some .bus, c) := by
      unfold Chip.memWrite
      rw [accCheck_noLink ha hl]
      rfl
    dsimp only
    rw [if_pos rfl, hw]
    rfl

theorem outboundAccess_posts (hl : c.bit HIF_STAT 31 = true) (ho : ofs + data.length ≤ 2 ^ 28) (hn : 0 < data.length) :
    outboundAccess c m true ofs n data =
      { c with hif := { c.hif with posted := some (c.hostAddr (0xC0000000 + ofs), data) } }.done := by
  have hw : c.memWrite m (0xC0000000 + ofs) data =
      (none, { c with hif := { c.hif with posted := some (c.hostAddr (0xC0000000 + ofs), data) } }) := by
    unfold Chip.memWrite
    rw [accCheck_link hl ho hn]
    exact if_pos (regionOf_outbound (by omega) (by omega))
  unfold outboundAccess
  dsimp only
  rw [if_pos rfl, hw]

theorem outboundAccess_asks (hl : c.bit HIF_STAT 31 = true) (ho : ofs + n ≤ 2 ^ 28) (hn : 0 < n)
    (hf : (c.hif.ob.find? fun r => r.m == m && r.a == 0xC0000000 + ofs && r.n == n) = none) :
    outboundAccess c m false ofs n data = { c with hif := { c.hif with
      ob := c.hif.ob ++ [ObRead.mk m (0xC0000000 + ofs) n c.tmu.raw none] } }.answer .waiting := by
  have hr : c.memRead m (0xC0000000 + ofs) n = (.error .wait, { c with hif := { c.hif with
      ob := c.hif.ob ++ [ObRead.mk m (0xC0000000 + ofs) n c.tmu.raw none] } }) := by
    unfold Chip.memRead
    rw [accCheck_link hl ho hn]
    refine (if_pos (regionOf_outbound (by omega) (by omega))).trans ?_
    unfold Chip.obRead
    rw [hf]
  unfold outboundAccess
  dsimp only
  rw [if_neg Bool.false_ne_true, hr]
  rfl

/-- The first read of a master that has no outcome yet. -/
def Chip.obFirst (c : Chip) (m : Nat) : Option ObRead := c.hif.ob.find? fun x => x.m == m && x.result.isNone

/-- A waiting read with its outcome. -/
def Chip.obResolved (c : Chip) (x : ObRead) (r : Option (List Byte)) : Chip :=
  { c with hif := { c.hif with ob := c.hif.ob.map fun z => if z = x then { x with result := some r } else z } }

theorem obCompletion_none {up : Bool} (h : c.obFirst m = none) : obCompletion c m up data = c := by
  unfold Chip.obFirst at h
  unfold obCompletion
  rw [h]

theorem obTimeout_none (h : c.obFirst m = none) : obTimeout c m = c := by
  unfold Chip.obFirst at h
  unfold obTimeout
  rw [h]

section
variable {x : ObRead} (h : c.obFirst m = some x)
include h

theorem obResolve_some {q : Option (List Byte)} : c.obResolve m q =
    if q.isNone then (c.obResolved x q).obRefused else c.obResolved x q := by
  unfold Chip.obFirst at h
  unfold Chip.obResolve
  rw [h]
  rfl

theorem obCompletion_some {up : Bool} :
    obCompletion c m up data = c.obResolve m (if up then some (bytesAt data 0 x.n) else none) := by
  unfold Chip.obFirst at h
  unfold obCompletion
  rw [h]

theorem obTimeout_some : obTimeout c m = if x.start + 10000000 < c.tmu.raw then c.obResolve m none else c := by
  unfold Chip.obFirst at h
  unfold obTimeout
  rw [h]

end

end Sys2Proof.Machine

namespace Sys2Proof
open Machine

/-- Settles O50: the host's accesses path by path, and the outbound window. That an access to BAR0 reaches no further
checks, that a refused TLP answers a bus error and the xSPI addresses (log entry 220), that an outbound read waits
(log entry 19), its strict limit (log entry 22) and the endpoint's pending bits (log entry 56) are the model's choices. -/
theorem hostPathsReachControlAndSram : Obligations.HostPathsReachControlAndSram := by
  unfold Obligations.HostPathsReachControlAndSram
  intro m write up ofs n ad a v vs data bs w s c d path link ones gives abort at_ frozen freezes host trained down first
    resolved calm
  have hcomplete {up e} (g : obCompletion c m.val up data = e) (h : e.tst.frozen = none) :
      Does (.outboundReadCompletion m up data) c e :=
    does_outboundReadCompletion ((congrArg Chip.debugSettle g).trans (debugSettle_none h))
  have htimeout {e} (g : obTimeout c m.val = e) (h : e.tst.frozen = none) : Does (.outboundReadTimeout m) c e :=
    does_outboundReadTimeout ((congrArg Chip.debugSettle g).trans (debugSettle_none h))
  refine ⟨fun hp => ⟨?_, ?_, ?_⟩, fun hp => ⟨?_, ?_, ?_⟩, fun hp => ⟨?_, ?_⟩, fun hp => ?_, fun hp hl h => ?_,
    fun hp hl ho ha => ⟨fun r hr => ?_, fun hb => ?_⟩, fun hp hl ho ho2 ha hb => ?_, fun hp hl hf => ?_,
    fun hp hl hf hs => ?_, fun hp hl hf hs => ?_, fun hp hl hf hs hr => ?_, fun hp hl hf hs hw => ?_, fun hp => ?_,
    fun hp hu h1 h2 => ⟨?_, ?_⟩, fun hp hu h1 h2 => ⟨fun r hr => ?_, fun hb => ?_⟩, fun hp => ?_, fun hl => ?_,
    fun hl ho hn => ?_, fun hl ho hn hf => ?_, fun hc hf => ⟨?_, ?_⟩,
    fun hc x hx => ⟨?_, ?_, fun ht => ?_, fun ht => ?_⟩⟩
  case refine_1 => exact does_bar0Access (bar0Access_inactive hp)
  case refine_2 => exact does_bar2Access (bar2Access_inactive hp)
  case refine_3 => exact does_pcieLinkChange (pcieLink_inactive hp)
  case refine_4 => exact does_xspiRead (xspiRead_inactive hp)
  case refine_5 => exact does_xspiWrite (xspiWrite_inactive hp)
  case refine_6 => exact does_xspiStatus (if_pos hp)
  case refine_7 => exact does_parallelBusRead (if_pos hp)
  case refine_8 => exact does_parallelBusWrite (if_pos hp)
  case refine_9 => exact does_pcieLinkChange (pcieLink_active hp)
  case refine_10 => exact does_bar0Access (bar0Access_abort hp hl h)
  case refine_11 => exact does_bar0Access ((bar0Access_read hp hl (by omega) (ctlRead_reg ha (ctlReg_hif ho) hr)).trans hostAnswer_words)
  case refine_12 => exact does_bar0Access ((bar0Access_write hp hl (by omega) (ctlWrite_taken ha (ctlReg_hif ho) hb)).trans hostAnswer_words)
  case refine_13 =>
    exact does_bar0Access ((bar0Access_write hp hl ho2 (ctlWrite_refused ha (ctlReg_mailbox ho ho2) hb)).trans
      hostAnswer_refused)
  case refine_14 => exact does_bar2Access (bar2Access_frozen hp hl hf)
  case refine_15 => exact does_bar2Access ((bar2Access_read hp hl (sramRead_freezes hf hs)).trans hostAnswer_refused)
  case refine_16 => exact does_bar2Access ((bar2Access_write hp hl (sramWrite_freezes hf hs)).trans hostAnswer_refused)
  case refine_17 => exact does_bar2Access (bar2Access_read hp hl (sramRead_reads hf hs hr))
  case refine_18 => exact does_bar2Access (bar2Access_write hp hl (sramWrite_writes hf hs hw))
  case refine_19 => exact does_xspiStatus (if_neg (not_not_intro hp))
  case refine_20 => exact does_xspiRead (xspiRead_word_refused hp hu (flatRead_gap h1 h2))
  case refine_21 => exact does_xspiWrite (xspiWrite_word_refused hp hu (flatWrite_gap h1 h2))
  case refine_22 => exact does_parallelBusRead ((parallelRead_ctl hp hu h1 (ctlRead_reg h2 (ctlReg_hif h1) hr)).trans hostAnswer_words)
  case refine_23 => exact does_parallelBusWrite ((parallelWrite_ctl hp hu h1 (ctlWrite_taken h2 (ctlReg_hif h1) hb)).trans hostAnswer_words)
  case refine_24 => exact does_perstAssert (perstAssert_active hp)
  case refine_25 => exact does_outboundAccess (outboundAccess_noLink hl)
  case refine_26 => exact does_outboundAccess (outboundAccess_posts hl ho hn)
  case refine_27 => exact does_outboundAccess (outboundAccess_asks hl ho hn hf)
  case refine_28 => exact hcomplete (obCompletion_none hf) hc
  case refine_29 => exact htimeout (obTimeout_none hf) hc
  case refine_30 => exact hcomplete ((obCompletion_some hx).trans (obResolve_some hx)) hc
  case refine_31 => exact hcomplete ((obCompletion_some hx).trans (obResolve_some hx)) hc
  case refine_32 => exact htimeout ((obTimeout_some hx).trans (if_neg (Nat.not_lt.2 ht))) hc
  case refine_33 => exact htimeout ((obTimeout_some hx).trans ((if_pos ht).trans (obResolve_some hx))) hc

end Sys2Proof
end

section
/-!
PROOF. The rings, the checks of commands, and replies (R27, R42, R422 to R431).
-/
namespace Sys2Proof.Machine

variable {c d : Chip} {m limit a k received errors : Nat} {v : W32} {path : CmdPath} {pkt bs : List Byte} {cmd : Cmd}

theorem not_true_of_eq_false {q : Bool} (h : q = false) : ¬q = true := by
  rw [h]
  exact Bool.false_ne_true

/-! ### Doorbells -/

theorem cmdDoorbell_other (h : m ≠ 11) : cmdDoorbell c m v = c.refuse := if_pos h

theorem rplDoorbell_other (h : m ≠ 11) : rplDoorbell c m v = c.refuse := if_pos h

theorem cmdDoorbell_host : cmdDoorbell c 11 v =
    if ringDist (wfld v 15 0) (c.fld HIF_CMD_CONS 15 0) ≤ 64 ∧ ringDist (c.fld HIF_CMD_DB 15 0)
        (c.fld HIF_CMD_CONS 15 0) ≤ ringDist (wfld v 15 0) (c.fld HIF_CMD_CONS 15 0) then
      (c.setReg HIF_CMD_DB (w32 (wfld v 15 0))).done
    else (c.setBit HIF_FLAGS 0 true).done := if_neg (not_not_intro rfl)

theorem rplDoorbell_host : rplDoorbell c 11 v =
    if ringDist (wfld v 15 0) (c.fld HIF_RPL_DB 15 0) ≤ ringDist (c.fld HIF_RPL_PROD 15 0) (c.fld HIF_RPL_DB 15 0) then
      (c.setReg HIF_RPL_DB (w32 (wfld v 15 0))).done
    else (c.setBit HIF_FLAGS 1 true).done := if_neg (not_not_intro rfl)

theorem replySignal_sup : replySignal c 0 1 = c.replyNotice.done := if_neg (not_not_intro rfl)

theorem replyNotice_pcie (h : c.fld HIF_STAT 17 16 = 0) :
    c.replyNotice = { c with evt := { c.evt with msix := c.evt.msix ++ [0] } } := if_pos h

theorem replyNotice_other (h : c.fld HIF_STAT 17 16 ≠ 0) : c.replyNotice = c.setBit HIF_VPEND0 0 true := if_neg h

/-! ### The checks of a packet -/

theorem slot_in_session (h : cmd.slot < 8) : cmd.slot ≠ 0xFF := by omega

/-- The form of a packet's header. -/
def PacketForm (pkt : List Byte) : Prop :=
  leNat (bytesAt pkt 4 2) ≤ 4064 ∧ leNat (bytesAt pkt 4 2) % 4 = 0 ∧ byteAt pkt 6 = 0

/-- The command that a packet carries. -/
def packetCmd (path : CmdPath) (pkt : List Byte) : Cmd :=
  ⟨path, leNat (bytesAt pkt 0 2), leNat (bytesAt pkt 2 2), (byteAt pkt 7).toNat,
    payloadOf pkt (min (leNat (bytesAt pkt 4 2)) 4064)⟩

/-- A packet refused with a reply that no key tags. -/
theorem takePacket_bad {st detail : Nat} {tagged accepted : Bool}
    (h : c.checkPacket (packetCmd path pkt) pkt limit = .bad st detail tagged accepted)
    (ht : tagged = false ∨ (packetCmd path pkt).slot = 0xFF) (ha : accepted = false ∨ (packetCmd path pkt).slot = 0xFF) :
    c.takePacket path pkt limit =
      c.queueReply path (replyPacket (packetCmd path pkt) none false st detail []) := by
  have hkey : (if tagged then c.replyKey (packetCmd path pkt).slot else none) = none := by
    rcases ht with ht | ht <;> rw [ht]
    · exact if_neg Bool.false_ne_true
    · split <;> rfl
  have hseq : (if accepted then c.acceptSeq (packetCmd path pkt) else c) = c := by
    rcases ha with ha | ha
    · rw [ha]
      exact if_neg Bool.false_ne_true
    · have hs : c.acceptSeq (packetCmd path pkt) = c := if_neg (by rw [ha]; decide)
      rw [hs, ite_self]
  unfold packetCmd at h hkey hseq
  unfold Chip.takePacket
  dsimp only
  rw [h]
  dsimp only
  rw [hkey, hseq]
  rfl

theorem takePacket_ok (h : c.checkPacket (packetCmd path pkt) pkt limit = .ok) (hs : (packetCmd path pkt).slot = 0xFF) :
    c.takePacket path pkt limit = { c with hif := { c.hif with cur := some (packetCmd path pkt) } } := by
  have hseq : c.acceptSeq (packetCmd path pkt) = c := if_neg (by rw [hs]; decide)
  unfold packetCmd at h hseq
  unfold Chip.takePacket
  dsimp only
  rw [h]
  dsimp only
  rw [hseq]
  rfl

theorem not_badForm (h : PacketForm pkt) {n : Nat} (hn : n ≤ limit) : ¬(4064 < leNat (bytesAt pkt 4 2) ∨
    leNat (bytesAt pkt 4 2) % 4 ≠ 0 ∨ byteAt pkt 6 ≠ 0 ∨ limit < n) := by
  obtain ⟨h1, h2, h3⟩ := h
  rintro (g | g | g | g)
  · exact Nat.not_lt.2 h1 g
  · exact g h2
  · exact g h3
  · exact Nat.not_lt.2 hn g

theorem checkPacket_length (hs : cmd.slot = 0xFF) (h : ¬PacketForm pkt ∨ limit < 16 + leNat (bytesAt pkt 4 2)) :
    c.checkPacket cmd pkt limit = .bad 0x0101 0 true false := by
  unfold Chip.checkPacket
  dsimp only
  rw [if_pos hs]
  refine if_pos ?_
  refine Decidable.byContradiction fun g => ?_
  rw [not_or, not_or, not_or, Nat.not_lt, Decidable.not_not, Decidable.not_not, Nat.not_lt] at g
  obtain ⟨g1, g2, g3, g4⟩ := g
  exact h.elim (fun h => h ⟨g1, g2, g3⟩) (fun h => Nat.not_lt.2 g4 h)

theorem checkPacket_alone (hs : cmd.slot = 0xFF) (h : PacketForm pkt) (hl : 16 + leNat (bytesAt pkt 4 2) ≤ limit) :
    c.checkPacket cmd pkt limit = c.checkCmd cmd := by
  unfold Chip.checkPacket
  dsimp only
  rw [if_pos hs, if_neg (not_badForm h (n := 16 + leNat (bytesAt pkt 4 2) + 0) hl), if_pos hs]

section
variable (hs : cmd.slot ≠ 0xFF) (h : PacketForm pkt) (hl : 32 + leNat (bytesAt pkt 4 2) ≤ limit)
include hs h hl

theorem checkPacket_noSession (hn : 8 ≤ cmd.slot ∨ c.session cmd.slot = none) :
    c.checkPacket cmd pkt limit = .bad 0x0200 0 false false := by
  have hx : (if cmd.slot < 8 then c.session cmd.slot else none) = none := by
    rcases hn with hn | hn
    · exact if_neg (Nat.not_lt.2 hn)
    · rw [hn, ite_self]
  unfold Chip.checkPacket
  dsimp only
  rw [if_neg hs, if_neg (not_badForm h (by omega)), if_neg hs, hx]

theorem checkPacket_unproven {x : Session} (hn : cmd.slot < 8) (hx : c.session cmd.slot = some x) (ho : cmd.op ≠ 0x0102)
    (hp : x.proven = true)
    (hb : packetTag (x.kCmd cmd.slot) (bytesAt pkt 0 (16 + leNat (bytesAt pkt 4 2))) ≠
      bytesAt pkt (16 + leNat (bytesAt pkt 4 2)) 16 ∨ cmd.seq ≤ x.lastSeq) :
    c.checkPacket cmd pkt limit = .bad 0x0202 0 false false := by
  have hop : (cmd.op == 0x0102) = false := beq_false_of_ne ho
  have hx' : (if cmd.slot < 8 then c.session cmd.slot else none) = some x := (if_pos hn).trans hx
  unfold Chip.checkPacket
  dsimp only
  rw [if_neg hs, if_neg (not_badForm h (by omega)), if_neg hs, hx']
  dsimp only
  rw [hop, hp, if_neg (by decide)]
  by_cases ht : packetTag (x.kCmd cmd.slot) (bytesAt pkt 0 (16 + leNat (bytesAt pkt 4 2))) =
      bytesAt pkt (16 + leNat (bytesAt pkt 4 2)) 16
  · rw [if_neg (by rw [ht, bne_self_eq_false]; decide)]
    exact if_pos (hb.resolve_left (not_not_intro ht))
  · refine if_pos ?_
    rw [bne_iff_ne.2 ht]
    rfl

end

section
variable (hs : cmd.slot = 0xFF)

theorem checkCmd_unknown (h : cmdRow cmd.op = none) : c.checkCmd cmd = .bad 0x0100 0 true true := by
  unfold Chip.checkCmd
  rw [h]

variable {r : CmdRow} (h : cmdRow cmd.op = some r) (hrom : c.romService = false)
include hs h hrom

theorem checkCmd_row : c.checkCmd cmd =
    if r.role ≠ 0 then .bad 0x0200 0 true true
    else if !r.states.contains c.sysState then .bad 0x0300 c.sysState true true
    else if !r.fits cmd.words then .bad 0x0101 0 true true
    else .ok := by
  unfold Chip.checkCmd
  rw [h]
  dsimp only
  rw [hrom, if_neg (not_true_of_eq_false (Bool.false_and _))]
  by_cases hr : r.role = 0
  · have h1 : ¬(cmd.slot = 0xFF ∧ r.role ≠ 0) := fun g => g.2 hr
    rw [if_neg h1, if_neg (not_not_intro hr), if_neg (by rw [hr]; exact Nat.not_lt_zero _)]
  · rw [if_pos ⟨hs, hr⟩, if_pos hr]

end

/-! ### Taking -/

theorem commandTake_not (h : ¬c.serving = true ∨ c.bit HIF_STAT 29 = true ∨ c.hif.cur ≠ none ∨
    c.fld HIF_CMD_DB 15 0 = c.fld HIF_CMD_CONS 15 0 ∨
    ¬ringDist (c.fld HIF_RPL_PROD 15 0) (c.fld HIF_RPL_DB 15 0) + c.ringWaiting < 64) : commandTake c = c := by
  unfold commandTake
  by_cases hb : (!c.serving || c.bit HIF_STAT 29 || c.hif.cur.isSome ||
      c.fld HIF_CMD_DB 15 0 == c.fld HIF_CMD_CONS 15 0) = true
  · exact if_pos hb
  · refine (if_neg hb).trans (if_pos ?_)
    simp only [Bool.or_eq_true, Bool.not_eq_true', beq_iff_eq, not_or, Bool.not_eq_false, Option.not_isSome_iff_eq_none] at hb
    obtain ⟨⟨⟨h1, h2⟩, h3⟩, h4⟩ := hb
    rcases h with h | h | h | h | h
    · exact absurd h1 h
    · exact absurd h h2
    · exact absurd h3 h
    · exact absurd h h4
    · exact Nat.not_lt.1 h

section
variable (h1 : c.serving = true) (h2 : c.bit HIF_STAT 29 = false) (h3 : c.hif.cur = none)
  (h4 : c.fld HIF_CMD_DB 15 0 ≠ c.fld HIF_CMD_CONS 15 0)
  (h5 : ringDist (c.fld HIF_RPL_PROD 15 0) (c.fld HIF_RPL_DB 15 0) + c.ringWaiting < 64)

/-- The next command slot passed by. -/
def Chip.cmdPassed (d : Chip) (cons : Nat) : Chip := d.setFld HIF_CMD_CONS 15 0 ((cons + 1) % 65536)

/-- What a read of the next command slot comes to. -/
def Chip.cmdTaken (cons : Nat) (r : Option (List Byte) × Chip) : Chip :=
  match r with
  | (some pkt, c1) => (c1.cmdPassed cons).takePacket .ring pkt 4096
  | (none, c1) => if c1.serving then c1.cmdPassed cons else c1

include h1 h2 h3 h4 h5 in
theorem commandTake_reads :
    commandTake c = .cmdTaken (c.fld HIF_CMD_CONS 15 0) (c.fwRead (cmdSlot (c.fld HIF_CMD_CONS 15 0)) 4096) := by
  unfold commandTake
  dsimp only
  rw [if_neg (by simp [h1, h2, h3, h4]), if_neg (Nat.not_le.2 h5)]
  rfl

theorem fwRead_ok (h : c.readSpan 0 a k = (.ok bs, d)) : c.fwRead a k = (some bs, d) := by
  unfold Chip.fwRead
  rw [h]

theorem fwRead_error {e : AccErr} {p n : Nat} (he : e ≠ .seg) (h : c.readSpan 0 a k = (.error (e, p, n), d)) :
    c.fwRead a k = (none, d) := by
  unfold Chip.fwRead
  rw [h]
  cases e with
  | seg => exact absurd rfl he
  | bus => rfl
  | owner => rfl
  | ecc => rfl
  | wait => rfl

theorem fwRead_seg {p n : Nat} (h : c.readSpan 0 a k = (.error (.seg, p, n), d)) :
    c.fwRead a k = (none, d.fwFreezes p n 1) := by
  unfold Chip.fwRead
  rw [h]

end

theorem serving_thawed (h : c.serving = true) : tblGet none c.core.frozen 0 = none := by
  unfold Chip.serving at h
  rw [Bool.and_eq_true] at h
  exact Option.isNone_iff_eq_none.1 h.2

theorem serving_frozen {x : Nat} (h : tblGet none c.core.frozen 0 = some x) : ¬c.serving = true := fun g =>
  Option.some_ne_none x (h.symm.trans (serving_thawed g))

/-- SUP's firmware that met a violation serves no more. -/
theorem fwFreezes_serving {p n rwx : Nat} : ¬(d.fwFreezes p n rwx).serving = true := by
  refine serving_frozen (x := 0) ?_
  exact tblGet_set_same (α := Option Nat) none _ 0 (some 0)

/-! ### The mailbox path -/

theorem foldl_fixed {α β : Type} {f : β → α → β} {s : β} (l : List α) (h : ∀ y ∈ l, f s y = s) : l.foldl f s = s := by
  induction l with
  | nil => rfl
  | cons y ys ih =>
    rw [List.foldl_cons, h y List.mem_cons_self]
    exact ih fun z hz => h z (List.mem_cons_of_mem y hz)

/-- A data register of MB0 read by supervisor firmware. -/
def Chip.mb0Read (c : Chip) (i : Nat) : Chip := match mbDataRead c 0 0 i with
  | some (_, c1) => c1
  | none => c

section
variable (he : c.mbEn 0 = true) (hw : c.mbWide 0 = true) (hr : c.mbReceiver 0 = 0) (hf : c.mbFull 0 = true)
include he hw hr hf

omit he hr hf in
theorem mbLast_wide : c.mbLast 0 = 15 := if_pos hw

omit hr hf in
theorem mb0Read_inner {i : Nat} (hi : i < 15) : c.mb0Read i = c := by
  have hl : (i == c.mbLast 0) = false := beq_false_of_ne (by rw [mbLast_wide hw]; omega)
  unfold Chip.mb0Read mbDataRead
  rw [mbReads_party he (.inr (.inl rfl)), hl]
  simp

theorem mb0Read_last : c.mb0Read 15 = mbAck c 0 := by
  have h := mbDataRead_acks he hr.symm hf
  rw [mbLast_wide hw] at h
  unfold Chip.mb0Read
  rw [h]

theorem mailboxCommandTake_takes (h1 : c.serving = true) (h3 : c.hif.cur = none) (hp : c.mbPartner 0 = none) :
    mailboxCommandTake c = ((((c.setBit (MBn_CTL 0) 30 false).setMbTimer 0 .reset).setPair 0 .reset).raise 448
      2).takePacket .mailbox (bytesOfWords ((List.range 16).map fun i => c.reg (MBn_DATA 0 i))) 64 := by
  have hack : mbAck c 0 = (((c.setBit (MBn_CTL 0) 30 false).setMbTimer 0 .reset).setPair 0 .reset).raise 448 2 :=
    (if_pos hw).trans (congrArg (Chip.mbRaise · 0 2) (mbEmpty_alone hp))
  have hfold : (List.range 16).foldl Chip.mb0Read c = mbAck c 0 := by
    rw [List.range_succ, List.foldl_append,
      foldl_fixed _ fun i hi => mb0Read_inner he hw (List.mem_range.1 hi)]
    exact mb0Read_last he hw hr hf
  rw [← hack, ← hfold]
  unfold mailboxCommandTake
  rw [if_neg (by simp [h1, h3, hf])]
  rfl

end

theorem mailboxCommandTake_not (h : ¬c.serving = true ∨ c.hif.cur ≠ none ∨ c.mbFull 0 = false) :
    mailboxCommandTake c = c := by
  refine if_pos ?_
  rcases h with h | h | h
  · rw [Bool.eq_false_iff.2 h]
    rfl
  · rw [Option.isSome_iff_ne_none.2 h, Bool.or_true, Bool.true_or]
  · rw [h]
    exact Bool.or_true _

/-! ### Replies -/

theorem replyPost_not (h : c.hif.replies.find? c.postable = none ∨ ¬c.serving = true) : replyPost c = c := by
  unfold replyPost
  split
  · rfl
  next r hr =>
    refine if_pos ?_
    rw [Bool.eq_false_iff.2 (h.resolve_left (by rw [hr]; exact Option.some_ne_none r))]
    rfl

/-- The replies without one. -/
def Chip.withoutReply (c : Chip) (r : Reply) : Chip := { c with hif := { c.hif with replies := c.hif.replies.erase r } }

theorem replyPost_ring (h : c.serving = true) {r : Reply} (hr : c.hif.replies.find? c.postable = some r)
    (hp : r.path = .ring) : replyPost c = (c.withoutReply r).postRing r.bytes := by
  unfold replyPost
  rw [hr]
  dsimp only
  rw [h, if_neg (by decide), hp]
  rfl

theorem postRing_posts (hw : c.writeSpan 0 (rplSlot (c.fld HIF_RPL_PROD 15 0)) bs = (none, d)) (h : d.serving = true) :
    c.postRing bs = d.setFld HIF_RPL_PROD 15 0 ((c.fld HIF_RPL_PROD 15 0 + 1) % 65536) := by
  have hf : c.fwWrite (rplSlot (c.fld HIF_RPL_PROD 15 0)) bs = (true, d) := by
    unfold Chip.fwWrite
    rw [hw]
  unfold Chip.postRing
  dsimp only
  rw [hf]
  exact if_pos h

/-! ### Commands under way -/

theorem loadGoesOn_none (h : c.sec.load = none) : c.loadGoesOn = c := by
  unfold Chip.loadGoesOn
  rw [h]

theorem asyncComplete_served (h : c.serving = true) (hl : c.sec.load = none) :
    asyncComplete c received errors = c.asyncFirst received errors c.hif.started := by
  refine (if_pos h).trans ?_
  dsimp only
  rw [loadGoesOn_none hl]

theorem asyncFirst_waits {s : Started} (h : c.asyncEnd s.wait received errors = none) :
    c.asyncFirst received errors [s] = c := by
  unfold Chip.asyncFirst
  rw [h]
  rfl

theorem asyncFirst_ends {s : Started} {ss : List Started} {st detail : Nat} {ws : List W32}
    (h : c.asyncEnd s.wait received errors = some (st, detail, ws, d)) :
    c.asyncFirst received errors (s :: ss) = d.finishStarted s st detail ws := by
  unfold Chip.asyncFirst
  rw [h]

theorem asyncEnd_march_busy (h : c.bit MEM_MARCH_CTL 30 = true) : c.asyncEnd .march received errors = none := if_pos h

theorem regLive_MEM_BSTAT (hb : k < 32) : c.regLive m (MEM_BSTAT k) = memLive c m (MEM_BSTAT k) := by
  have h : MEM_BSTAT k / 0x10000 % 0x100 = 0x0C := by
    unfold MEM_BSTAT
    omega
  simp only [Chip.regLive, h]

theorem asyncEnd_march (h : c.bit MEM_MARCH_CTL 30 = false) : c.asyncEnd .march received errors =
    some (0, 0, (List.range 32).map (fun b => memLive c 0 (MEM_BSTAT b)), c) := by
  have hw : ((List.range 32).map fun b => c.regLive 0 (MEM_BSTAT b)) =
      (List.range 32).map fun b => memLive c 0 (MEM_BSTAT b) :=
    List.map_congr_left fun b hb => regLive_MEM_BSTAT (List.mem_range.1 hb)
  rw [← hw]
  exact if_neg (not_true_of_eq_false h)

/-- Outside a session no key tags a reply. -/
theorem tagKey_alone {e : Chip} : tagKey c e 0xFF = none := by
  unfold tagKey
  split
  next x hx => split <;> rfl
  · rfl

theorem finishStarted_alone {x : Cmd} {w : AsyncWait} {st detail : Nat} {ws : List W32} (hs : x.slot = 0xFF)
    (hp : x.path = .ring) (hl : c.hif.started = [⟨x, w⟩]) : c.finishStarted ⟨x, w⟩ st detail ws = { c with hif := { c.hif with
      started := [],
      replies := c.hif.replies ++ [Reply.mk .ring (replyPacket x none false st detail ws)] } } := by
  unfold Chip.finishStarted Chip.setHif
  dsimp only
  rw [hs, tagKey_alone, hl, List.erase_cons_head]
  unfold tooLong
  rw [hp]
  rfl

end Sys2Proof.Machine

namespace Sys2Proof
open Machine

/-- Settles O51: the doorbells, the taking and the checks of a command, and the replies, case by case. That a slot that
cannot be read is passed by (log entry 58), and what the corners of a command that goes on come to (log entries 221 and
222), are the model's choices. -/
theorem commandsAreTakenAndAnswered : Obligations.CommandsAreTakenAndAnswered := by
  unfold Obligations.CommandsAreTakenAndAnswered
  intro m v path pkt limit received errors c cons posted dist read prod free serving noring within reads slot passed l cmd
    answers form taken alone served
  have hcmd {d} (g : cmdDoorbell c m.val v = d) : Does (.commandDoorbell m v) c d :=
    does_commandDoorbell (regWrite_HIF_CMD_DB.trans g)
  have hrpl {d} (g : rplDoorbell c m.val v = d) : Does (.replyDoorbell m v) c d :=
    does_replyDoorbell (regWrite_HIF_RPL_DB.trans g)
  have hsig {d} (g : c.replyNotice = d) : Does .replySignal c d.done :=
    does_replySignal (regWrite_HIF_RPL_SIG.trans (replySignal_sup.trans (congrArg Chip.done g)))
  have hhost (hm : m.val = 11) : cmdDoorbell c m.val v = cmdDoorbell c 11 v ∧ rplDoorbell c m.val v = rplDoorbell c 11 v := by
    rw [hm]
    exact ⟨rfl, rfl⟩
  refine ⟨fun hm => ⟨?_, ?_⟩, fun hm h => ?_, fun hm h => ?_, fun hm h => ?_, fun hm h => ?_, fun h => ?_, fun h => ?_,
    fun h => ?_, fun h1 h2 h3 h4 h5 => ⟨fun bs d hr => ?_, fun e a k d hr => ⟨fun he hd => ?_, fun he _ => ?_⟩⟩,
    fun h => ?_, fun h1 h3 hf he hw hr hp => ?_, fun hs h => ?_, fun hs hf hl h => ?_,
    fun x hs hf hl hx ho hp hb => ?_, fun ha hn => ?_, fun ha r hr => ?_, fun h => ?_, fun hs r hr hp e he hse => ?_,
    fun hs => ?_, fun hs hl hn => ?_, fun hs hl x w hx hslot hp hw => ⟨fun hb => ?_, fun hb => ?_⟩⟩
  case refine_1 => exact hcmd (cmdDoorbell_other hm)
  case refine_2 => exact hrpl (rplDoorbell_other hm)
  case refine_3 => exact hcmd ((hhost hm).1.trans (cmdDoorbell_host.trans (if_pos h)))
  case refine_4 => exact hcmd ((hhost hm).1.trans (cmdDoorbell_host.trans (if_neg h)))
  case refine_5 => exact hrpl ((hhost hm).2.trans (rplDoorbell_host.trans (if_pos h)))
  case refine_6 => exact hrpl ((hhost hm).2.trans (rplDoorbell_host.trans (if_neg h)))
  case refine_7 => exact hsig (replyNotice_pcie h)
  case refine_8 => exact hsig (replyNotice_other h)
  case refine_9 => exact does_commandTake (commandTake_not h)
  case refine_10 =>
    exact does_commandTake ((commandTake_reads h1 h2 h3 h4 h5).trans (congrArg (Chip.cmdTaken cons) (fwRead_ok hr)))
  case refine_11 =>
    exact does_commandTake ((commandTake_reads h1 h2 h3 h4 h5).trans
      ((congrArg (Chip.cmdTaken cons) (fwRead_error he hr)).trans (if_pos hd)))
  case refine_12 =>
    rw [he] at hr
    exact does_commandTake ((commandTake_reads h1 h2 h3 h4 h5).trans
      ((congrArg (Chip.cmdTaken cons) (fwRead_seg hr)).trans (if_neg fwFreezes_serving)))
  case refine_13 => exact does_mailboxCommandTake (mailboxCommandTake_not h)
  case refine_14 => exact does_mailboxCommandTake (mailboxCommandTake_takes he hw hr hf h1 h3 hp)
  case refine_15 => exact takePacket_bad (checkPacket_length hs h) (.inr hs) (.inl rfl)
  case refine_16 => exact takePacket_bad (checkPacket_noSession hs hf hl h) (.inl rfl) (.inl rfl)
  case refine_17 =>
    exact takePacket_bad (checkPacket_unproven (slot_in_session hs) hf hl hs hx ho hp hb) (.inl rfl)
      (.inl rfl)
  case refine_18 =>
    obtain ⟨hs, hf, hl, -⟩ := ha
    exact takePacket_bad ((checkPacket_alone hs hf hl).trans (checkCmd_unknown hn)) (.inr hs) (.inr hs)
  case refine_19 =>
    obtain ⟨hs, hf, hl, hrom⟩ := ha
    have hcheck := (checkPacket_alone (c := c) hs hf hl).trans (checkCmd_row hs hr hrom)
    have hcontains (h : c.sysState ∈ r.states) : ¬(!r.states.contains c.sysState) = true := by
      rw [List.contains_iff_mem.2 h]
      decide
    refine ⟨fun h => ?_, fun h0 h => ?_, fun h0 h hfit => ?_, fun h0 h hfit => ?_⟩
    · exact takePacket_bad (hcheck.trans (if_pos h)) (.inr hs) (.inr hs)
    · refine takePacket_bad (hcheck.trans ((if_neg (not_not_intro h0)).trans (if_pos ?_))) (.inr hs) (.inr hs)
      rw [Bool.eq_false_iff.2 fun g => h (List.contains_iff_mem.1 g)]
      rfl
    · refine takePacket_bad (hcheck.trans ((if_neg (not_not_intro h0)).trans ((if_neg (hcontains h)).trans (if_pos ?_))))
        (.inr hs) (.inr hs)
      exact (congrArg not hfit)
    · refine takePacket_ok (hcheck.trans ((if_neg (not_not_intro h0)).trans ((if_neg (hcontains h)).trans (if_neg ?_)))) hs
      exact not_true_of_eq_false (congrArg not hfit)
  case refine_20 => exact does_replyPost (replyPost_not h)
  case refine_21 =>
    exact does_replyPost ((replyPost_ring hs hr hp).trans (postRing_posts (c := c.withoutReply r) he hse))
  case refine_22 => exact does_asyncCommandComplete (if_neg hs)
  case refine_23 =>
    refine does_asyncCommandComplete ((asyncComplete_served hs hl).trans ?_)
    rw [hn]
    rfl
  case refine_24 =>
    refine does_asyncCommandComplete ((asyncComplete_served hs hl).trans ?_)
    rw [hx]
    exact asyncFirst_waits (asyncEnd_march_busy hb)
  case refine_25 =>
    refine does_asyncCommandComplete ((asyncComplete_served hs hl).trans ?_)
    rw [hx, asyncFirst_ends (asyncEnd_march hb), finishStarted_alone hslot hp hx, hw]

end Sys2Proof
end

section
/-!
PROOF. A command in service of supervisor firmware: what comes of its run (R427, R431).
-/
namespace Sys2Proof.Machine

variable {c d : Chip} {op : Nat} {run : Cmd → Chip → CmdRes × Chip} {x : Cmd}

theorem runCommand_fin (h : InService op x c) {st k : Nat} {ws : List W32}
    (hr : run x (idled c) = (.fin st k ws, d)) (ht : tooLong x ws = false) : runCommand c op run =
      d.queueReply x.path (replyPacket x (tagKey (idled c) d x.slot) false st k ws) := by
  obtain ⟨hx, hop, hs⟩ := h
  have hr' : run x (c.setHif fun h => { h with cur := none }) = (.fin st k ws, d) := hr
  unfold runCommand
  rw [hx]
  dsimp only
  rw [hs, decide_eq_false (not_not_intro hop), if_neg (by decide), hr']
  exact if_neg (not_true_of_eq_false ht)

theorem runCommand_start (h : InService op x c) {w : AsyncWait} (hr : run x (idled c) = (.start w, d))
    (hl : c.hif.started.length < 8) : runCommand c op run =
      ({ d with hif := { d.hif with started := d.hif.started ++ [Started.mk x w] } } : Chip).queueReply x.path
        (replyPacket x (tagKey (idled c) d x.slot) true stStarted 0 []) := by
  obtain ⟨hx, hop, hs⟩ := h
  have hr' : run x (c.setHif fun h => { h with cur := none }) = (.start w, d) := hr
  unfold runCommand
  rw [hx]
  dsimp only
  rw [hs, decide_eq_false (not_not_intro hop), if_neg (by decide), hr']
  exact if_neg (Nat.not_le.2 hl)

theorem runCommand_silent (h : InService op x c) (hr : run x (idled c) = (.silent, d)) : runCommand c op run = d := by
  obtain ⟨hx, hop, hs⟩ := h
  have hr' : run x (c.setHif fun h => { h with cur := none }) = (.silent, d) := hr
  unfold runCommand
  rw [hx]
  dsimp only
  rw [hs, decide_eq_false (not_not_intro hop), if_neg (by decide), hr']

section
variable {i : Instr} (hi : ∀ {e}, runCommand c op run = e → Does i c e) (h : InService op x c)
include hi h

theorem replies_of {st k : Nat} {ws : List W32} (hr : run x (idled c) = (.fin st k ws, d)) : Replies i x c st k ws d :=
  fun ht => hi (runCommand_fin h hr ht)

theorem starts_of {w : AsyncWait} (hr : run x (idled c) = (.start w, d)) : Starts i x c w d :=
  fun hl => hi (runCommand_start h hr hl)

theorem silent_of (hr : run x (idled c) = (.silent, d)) : Does i c d := hi (runCommand_silent h hr)

/-- A command that met memory it could not access. -/
theorem memFault_of (hr : run x (idled c) = d.memFault) :
    (tblGet none d.core.frozen 0 = none → Replies i x c 0x0600 0 [] d) ∧
      (tblGet none d.core.frozen 0 ≠ none → Does i c d) := by
  unfold Chip.memFault at hr
  refine ⟨fun hn => replies_of hi h ?_, fun hn => silent_of hi h ?_⟩
  · rw [hr, hn]
    rfl
  · rw [hr, Option.isSome_iff_ne_none.2 hn]
    rfl

end

end Sys2Proof.Machine
end

section
/-!
PROOF. The system, session and image commands (R433, R451 to R457).
-/
namespace Sys2Proof.Machine

variable {c d : Chip} {x : Cmd} {burnt : Bool} {n k : Nat}

/-! ### System commands -/

section
variable {t : Nat} (ht : wfld (pw x.words 0) 2 0 = t) (h3 : 3 ≤ t) (h5 : t ≤ 5) (hw : sysStateWrite c 0 (w32 t) = d)
include ht h3 h5 hw

theorem setStateCmd_refused (hd : d.sysState ≠ t) : setStateCmd burnt x c = (.fin 0x0300 c.sysState [], d) := by
  subst ht hw
  exact (if_neg (by omega)).trans ((if_neg (by omega)).trans (if_pos hd))

theorem setStateCmd_taken (hd : d.sysState = t) (h4 : t ≠ 4 ∨ c.sysState = 4) :
    setStateCmd burnt x c = (.start (.known 0 0 [d.reg SYS_STATE]), d) := by
  subst ht hw
  refine (if_neg (by omega)).trans ((if_neg (by omega)).trans ((if_neg (not_not_intro hd)).trans ?_))
  rw [if_neg (fun g => h4.elim (fun h => h g.1) g.2)]

end

section
variable {unit : Nat} (hu : wfld (pw x.words 0) 7 0 = unit) (hn : (pw x.words 1).toNat = n)
include hu hn

theorem resetSubsystem_other (h : unit ≠ 1) : resetSubsystem x c = resetUnit c unit n := by
  subst hu hn
  exact if_neg h

theorem resetSubsystem_engine (h : unit = 1) :
    resetSubsystem x c = if 7 < n then (.bad 1, c) else resetEngine c n := by
  subst hu hn
  exact if_pos h

end

theorem unknownUnit_ne_engine {unit : Nat} (h : unit = 0 ∨ 9 < unit) : unit ≠ 1 := by omega

theorem resetUnit_unknown {unit i : Nat} (h : unit = 0 ∨ 9 < unit) : resetUnit c unit i = (.bad 0, c) := by
  unfold resetUnit
  split
  case h_9 => rfl
  all_goals omega

theorem resetUnit_mailbox {i : Nat} (h : i ≤ 63) : resetUnit c 9 i = (.start (.known 0 0 []), mailboxReset c i) :=
  if_neg (Nat.not_lt.2 h)

theorem resetUnit_cluster {i : Nat} (h : i ≤ 3) : resetUnit c 7 i = (.start (.known 0 0 []), c.resetCluster i) :=
  if_neg (Nat.not_lt.2 h)

theorem resetEngine_unloaded (h : tblFind c.hif.sources n = none) : resetEngine c n = (.fin 0x0300 (c.peState n) [], c) := by
  unfold resetEngine
  dsimp only
  rw [h]

theorem resetEngine_running {s : Nat × Nat} {img : List Byte} (hs : tblFind c.hif.sources n = some s)
    (h3 : c.peState n = 3) (hl : c.sec.load = none)
    (hr : (engineClearDone (engineClear (engineStop c n) n) n).fwRead s.1 s.2 = (some img, d))
    (hv : d.imgVerify 1 (w32 n) img = none) :
    resetEngine c n = (.start (.reload n), d.secPlace (engineSections n img)) := by
  unfold resetEngine
  dsimp only
  rw [hs]
  dsimp only
  rw [h3, if_neg (by decide), hl, if_neg (by decide), if_pos rfl, hr]
  dsimp only
  rw [hv]

/-! ### Registers -/

theorem readReg_low (h : (pw x.words 0).toNat < 0x40000000 ∨ 0x4015FFFF < (pw x.words 0).toNat) :
    readReg x c = (.bad 0, c) := if_pos h

section
variable {a : Nat} (ha : (pw x.words 0).toNat = a) (h1 : 0x40000000 ≤ a) (h2 : a ≤ 0x4015FFFF)
include ha h1 h2

theorem readReg_count (hn : (pw x.words 1).toNat = 0 ∨ 1016 < (pw x.words 1).toNat) : readReg x c = (.bad 1, c) := by
  subst ha
  exact (if_neg (by omega)).trans (if_pos hn)

theorem readReg_one (hn : (pw x.words 1).toNat = 1) : readReg x c = readRegs c a 1 0 [] := by
  subst ha
  refine (if_neg (by omega)).trans ((if_neg (by omega)).trans ?_)
  rw [hn]

end

theorem readRegs_one_ok {a v : Nat} (hd : registerRead c 0 a 4 = d) (hv : d.bus = .ok v) :
    readRegs c a 1 0 [] = (.fin 0 0 [w32 v], d) := by
  unfold readRegs
  dsimp only
  rw [hd, hv]
  rfl

theorem readRegs_one_refused {a : Nat} (hd : registerRead c 0 a 4 = d) (hv : d.bus = .busError) :
    readRegs c a 1 0 [] = (.fin 0x0102 0 [], d) := by
  unfold readRegs
  dsimp only
  rw [hd, hv]
  rfl

theorem pw_drop (ws : List W32) (k i : Nat) : pw (ws.drop k) i = pw ws (k + i) := by
  unfold pw
  rw [List.getD_eq_getElem?_getD, List.getD_eq_getElem?_getD, List.getElem?_drop]

section
variable (h1 : (pw x.words 0).toNat = 1) (hp : regionOf (pw x.words 1).toNat = .periph)
  (hd : registerWrite c 0 (pw x.words 1).toNat 4 (pw x.words 2) = d)
include h1 hp hd

theorem writeReg_one : writeReg x c =
    if d.bus = .busError then (.fin 0x0102 0 [], d) else (.fin 0 0 [], d) := by
  subst hd
  refine (if_neg (by omega)).trans ?_
  rw [h1]
  unfold writeRegs
  dsimp only
  rw [pw_drop, pw_drop, if_neg (not_not_intro hp)]
  rfl

end

/-! ### Sessions -/

theorem openSession_key {role s : Nat} {key r : List Byte} (ht : c.bit SEC_TRNG_STAT 31 = false)
    (hp : wbit (pw x.words 0) 8 = false) (hk : (pw x.words 1).toNat ≤ 3) (hrole : wfld (pw x.words 0) 1 0 = role)
    (hlock : c.roleLocked role = false) (hkey : c.openKey role (pw x.words 1).toNat = some key)
    (hs : c.freeSession = some s) (hr : c.randomBytes 4 = (r, d)) :
    openSession x c = (.fin 0 0 (w32 s :: payloadOf (zeros 16 ++ r.take 32) 32), d.setSession s (some
      ⟨role, key, bytesAt (bytesOfWords x.words) 8 32, r.take 32, (bytesOfWords x.words).take 8, false, c.tmu.raw, 0,
        []⟩)) := by
  subst hrole
  have hbad : ¬(false && decide ((pw x.words 1).toNat ≠ 0) || !false && decide (3 < (pw x.words 1).toNat) &&
      !(wfld (pw x.words 0) 1 0 == 3 && (pw x.words 1).toNat == 0xFF)) = true := by
    rw [decide_eq_false (Nat.not_lt.2 hk), Bool.false_and, Bool.and_false, Bool.false_and, Bool.or_false]
    exact Bool.false_ne_true
  unfold openSession
  dsimp only
  rw [ht, if_neg Bool.false_ne_true, hp, if_neg hbad, hlock, if_neg Bool.false_ne_true, if_neg Bool.false_ne_true, hkey, hs, hr]
  rfl

theorem proveSession_proven {p : List Byte} (h : c.prove x.slot (bytesOfWords x.words) = (some p, d)) :
    proveSession x c = (.fin 0 0 (payloadOf (zeros 16 ++ p) 48), d) := by
  unfold proveSession
  rw [h]
  rfl

theorem proveSession_failed (h : c.prove x.slot (bytesOfWords x.words) = (none, d)) :
    proveSession x c = (.fin 0x0202 0 [], d) := by
  unfold proveSession
  rw [h]

theorem closeSession_busy (h : ∃ s ∈ c.hif.started, s.cmd.slot = x.slot) : closeSession x c = (.fin 0x0301 0 [], c) := by
  refine if_pos (List.any_eq_true.2 ?_)
  obtain ⟨s, hs, he⟩ := h
  exact ⟨s, hs, beq_iff_eq.2 he⟩

theorem closeSession_closes (h : ∀ s ∈ c.hif.started, s.cmd.slot ≠ x.slot) :
    closeSession x c = (.fin 0 0 [], c.setSession x.slot none) := by
  refine if_neg fun g => ?_
  obtain ⟨s, hs, he⟩ := List.any_eq_true.1 g
  exact h s hs (beq_iff_eq.1 he)

section
variable (hr : (pw x.words 0).toNat ≤ 3) {ok : Bool}
  (h : c.setPassword (pw x.words 0).toNat (pw x.words 1) (bytesAt (bytesOfWords x.words) 8 16)
    (bytesAt (bytesOfWords x.words) 24 48) = (ok, d))
include hr h

theorem setPasswordCmd_result : setPasswordCmd x c = if ok then (.fin 0 0 [], d) else (.fin 0x0102 1 [], d) := by
  refine (if_neg (Nat.not_lt.2 hr)).trans ?_
  rw [h]
  cases ok <;> rfl

end

section
variable (hr : wfld (pw x.words 0) 7 4 ≤ 3)
include hr

theorem installKeyCmd_length (h : pw x.words 1 ≠ 76) : installKeyCmd x c = (.fin 0x0102 1 [], c) :=
  (if_neg (Nat.not_lt.2 hr)).trans (if_pos h)

theorem installKeyCmd_result {ok : Bool} (h76 : pw x.words 1 = 76)
    (h : c.installKey x.slot (pw x.words 0) 76 ((bytesOfWords x.words).drop 8) = (ok, d)) :
    installKeyCmd x c = if ok then (.start (.known 0 0 []), d) else (.fin 0x0102 2 [], d) := by
  refine (if_neg (Nat.not_lt.2 hr)).trans ((if_neg (not_not_intro h76)).trans ?_)
  rw [h]
  cases ok <;> rfl

end

section
variable {s : Session} (hs : c.session x.slot = some s) (h8 : wbit (pw x.words 8) 8 = false)
include hs h8

theorem attest_bad (h : wfld (pw x.words 8) 1 0 = 0) : attest x c = (.fin 0x0102 8 [], c) := by
  unfold attest
  dsimp only
  rw [hs]
  dsimp only
  rw [h8, if_neg Bool.false_ne_true]
  exact if_pos h

theorem attest_reports (h : wfld (pw x.words 8) 1 0 ≠ 0) {r : List Byte}
    (hr : c.report (wbit (pw x.words 8) 0) (wbit (pw x.words 8) 1) ((bytesOfWords x.words).take 32) = (r, d)) :
    attest x c = (.start (.known 0 0 [w32 r.length]), d.setSession x.slot (some { s with report := r })) := by
  unfold attest
  dsimp only
  rw [hs]
  dsimp only
  rw [h8, if_neg Bool.false_ne_true, if_neg h, hr]

end

/-! ### Loads -/

section
variable {kind : Nat} (hkind : (pw x.words 0).toNat = kind)
include hkind

theorem loadBegin_instance (h : (kind = 1 ∧ 7 < (pw x.words 1).toNat) ∨ (kind = 2 ∧ 3 < (pw x.words 1).toNat)) :
    loadBegin x c = (.fin 0x0102 1 [], c) := by
  subst hkind
  exact (if_neg (by omega)).trans (if_pos h)

variable (h3 : kind = 3)
include h3

theorem loadBegin_empty (h0 : (pw x.words 2).toNat = 0) : loadBegin x c = (.fin 0x0102 2 [], c) := by
  subst hkind
  exact (if_neg (by omega)).trans ((if_neg (by omega)).trans (if_pos h0))

variable (h0 : (pw x.words 2).toNat ≠ 0)
include h0

theorem loadBegin_outside (hg : c.inOg0 (pw x.words 3).toNat (pw x.words 2).toNat = false) :
    loadBegin x c = (.fin 0x0102 3 [], c) := by
  subst hkind
  refine (if_neg (by omega)).trans ((if_neg (by omega)).trans ((if_neg h0).trans (if_pos ?_)))
  exact congrArg not hg

/-- What LOAD_BEGIN comes to, by the handle that is free. -/
def loadPlaced (x : Cmd) (c : Chip) (h : Option Nat) : CmdRes × Chip :=
  match h with
  | none => (.fin stResource 0 [], c)
  | some h => (.done [w32 h], c.setHandle h
      (some ⟨(pw x.words 0).toNat, pw x.words 1, (pw x.words 2).toNat, (pw x.words 3).toNat, 0, false⟩))

theorem loadBegin_places (hg : c.inOg0 (pw x.words 3).toNat (pw x.words 2).toNat = true) :
    loadBegin x c = loadPlaced x c ((List.range 4).find? fun h => (c.handle h).isNone) := by
  subst hkind
  refine (if_neg (by omega)).trans ((if_neg (by omega)).trans ((if_neg h0).trans (if_neg ?_)))
  exact not_true_of_eq_false (congrArg not hg)

end

theorem freeHandle_none (h : ∀ k, k < 4 → c.handle k ≠ none) :
    ((List.range 4).find? fun h => (c.handle h).isNone) = none := by
  refine List.find?_eq_none.2 fun k hk => ?_
  rw [Option.isNone_iff_eq_none]
  exact h k (List.mem_range.1 hk)

theorem freeHandle_some (hk : k < 4) (h : c.handle k = none) (hj : ∀ j, j < k → c.handle j ≠ none) :
    ((List.range 4).find? fun h => (c.handle h).isNone) = some k := by
  refine List.find?_range_eq_some.2 ⟨Option.isNone_iff_eq_none.2 h, List.mem_range.2 hk, fun j hl => ?_⟩
  rw [Option.not_isNone, Option.isSome_iff_ne_none]
  exact hj j hl

theorem loadData_unknown (h : c.handle (pw x.words 0).toNat = none) : loadData x c = (.fin 0x0102 0 [], c) := by
  unfold loadData
  dsimp only
  rw [h]
  rfl

section
variable {y : LoadHandle} (h : c.handle (pw x.words 0).toNat = some y)
include h

theorem loadData_committed (hc : y.committed = true) : loadData x c = (.fin 0x0102 0 [], c) := by
  unfold loadData
  dsimp only
  rw [h]
  exact if_pos hc

variable (hc : y.committed = false)
include hc

theorem loadData_offset (ho : (pw x.words 1).toNat ≠ y.loaded) : loadData x c = (.fin 0x0102 1 [], c) := by
  unfold loadData
  dsimp only
  rw [h]
  exact (if_neg (not_true_of_eq_false hc)).trans (if_pos ho)

section
variable (ho : (pw x.words 1).toNat = y.loaded) (hl : y.loaded + ((bytesOfWords x.words).drop 8).length ≤ y.len)
include ho hl

theorem loadData_writes {ok : Bool} (hw : c.fwWrite (y.addr + y.loaded) ((bytesOfWords x.words).drop 8) = (ok, d)) :
    loadData x c = if ok then
        (.fin 0 0 [w32 (y.loaded + ((bytesOfWords x.words).drop 8).length)], d.setHandle (pw x.words 0).toNat
          (some { y with loaded := y.loaded + ((bytesOfWords x.words).drop 8).length }))
      else d.memFault := by
  unfold loadData
  dsimp only
  rw [h]
  refine (if_neg (not_true_of_eq_false hc)).trans ((if_neg (not_not_intro ho)).trans ((if_neg (by omega)).trans ?_))
  rw [List.take_of_length_le (by omega), hw, Nat.min_eq_right hl]
  cases ok <;> rfl

end

end

theorem loadCommit_unknown (h : c.handle (pw x.words 0).toNat = none) : loadCommit burnt x c = (.fin 0x0102 0 [], c) := by
  unfold loadCommit
  dsimp only
  rw [h]
  rfl

section
variable {y : LoadHandle} {img : List Byte} (h : c.handle (pw x.words 0).toNat = some y) (hc : y.committed = false)
include h hc

theorem loadCommit_early (hl : y.loaded < y.len) : loadCommit burnt x c = (.fin 0x0300 0 [], c) := by
  unfold loadCommit
  dsimp only
  rw [h]
  exact (if_neg (not_true_of_eq_false hc)).trans (if_pos hl)

variable (hl : y.len ≤ y.loaded)
include hl

theorem loadCommit_unread (hr : c.fwRead y.addr y.len = (none, d)) : loadCommit burnt x c = d.memFault := by
  unfold loadCommit
  dsimp only
  rw [h]
  refine (if_neg (not_true_of_eq_false hc)).trans ((if_neg (Nat.not_lt.2 hl)).trans ?_)
  rw [hr]

variable (hr : c.fwRead y.addr y.len = (some img, d)) (hk : y.kind ≠ 0)
include hr hk

theorem loadCommit_refused {st k : Nat} (hv : d.imgVerify y.kind y.inst img = some (st, k)) : loadCommit burnt x c =
    (.start (.known st k []), (d.setHandle (pw x.words 0).toNat none).imgFailed) := by
  unfold loadCommit
  dsimp only
  rw [h]
  refine (if_neg (not_true_of_eq_false hc)).trans ((if_neg (Nat.not_lt.2 hl)).trans ?_)
  rw [hr]
  dsimp only
  rw [if_neg (fun g => hk g.1), hv]

theorem loadCommit_verified (hv : d.imgVerify y.kind y.inst img = none) :
    loadCommit burnt x c = d.commitImage (pw x.words 0).toNat y img burnt := by
  unfold loadCommit
  dsimp only
  rw [h]
  refine (if_neg (not_true_of_eq_false hc)).trans ((if_neg (Nat.not_lt.2 hl)).trans ?_)
  rw [hr]
  dsimp only
  rw [if_neg (fun g => hk g.1), hv]

end

section
variable {y : LoadHandle} {img : List Byte}

theorem commitImage_program (hk : y.kind = 3) (hf : ((imgHead img).flags == 1) = false) : c.commitImage n y img burnt =
    (.start (.known 0 0 (commitWords (imgInfo img y.inst.toNat 1))), c.setHandle n (some { y with committed := true })) := by
  unfold Chip.commitImage Chip.advanceBy
  dsimp only
  rw [hk, hf]
  rfl

theorem commitImage_engine (hk : y.kind = 1) (hp : c.peState y.inst.toNat = 1) (hl : c.sec.load = none) :
    c.commitImage n y img burnt =
      (.start (.load n (imgInfo img y.inst.toNat 1) (imgDecls img) ((imgHead img).flags == 1) burnt),
        c.secPlace (engineSections y.inst.toNat img)) := by
  unfold Chip.commitImage
  dsimp only
  rw [hk]
  rw [hp, hl, if_neg (by decide)]
  exact if_neg Bool.false_ne_true

end

/-! ### Engines and images -/

section
variable (h7 : (pw x.words 0).toNat ≤ 7)
include h7

theorem startEngineCmd_state (h : c.peState (pw x.words 0).toNat ≠ 2) :
    startEngineCmd x c = (.fin 0x0300 (c.peState (pw x.words 0).toNat) [], c) :=
  (if_neg (Nat.not_lt.2 h7)).trans (if_pos h)

variable (h2 : c.peState (pw x.words 0).toNat = 2)
include h2

theorem startEngineCmd_held (h : c.heldElsewhere (pw x.words 0).toNat = true) :
    startEngineCmd x c = (.fin 0x0500 0 [], c) :=
  (if_neg (Nat.not_lt.2 h7)).trans ((if_neg (not_not_intro h2)).trans (if_pos h))

/-- START_ENGINE of an image that declares no TMU role. -/
theorem startEngineCmd_starts (h : c.heldElsewhere (pw x.words 0).toNat = false)
    (hd : c.supWrites (c.grants (pw x.words 0).toNat) = d) (h8 : d.declared (pw x.words 0).toNat 8 = []) :
    startEngineCmd x c = (.fin 0 0 [], d.supWrites ((List.range 4).map (fun i => (PE_PEn_ENTRY (pw x.words 0).toNat i,
      declValue (d.declared (pw x.words 0).toNat 9) i Decl.v1)) ++ [(PE_PEn_WDT (pw x.words 0).toNat,
        declValue (d.declared (pw x.words 0).toNat 10) 0 Decl.v1), (PE_PEn_CMD (pw x.words 0).toNat, 1)])) := by
  subst hd
  refine (if_neg (Nat.not_lt.2 h7)).trans ((if_neg (not_not_intro h2)).trans ((if_neg (not_true_of_eq_false h)).trans ?_))
  dsimp only
  rw [h8, List.isEmpty_nil, Bool.not_true, Bool.false_and, if_neg Bool.false_ne_true, if_neg Bool.false_ne_true]
  rfl

end

theorem stopEngineCmd_running {ws : List W32} (h7 : (pw x.words 0).toNat ≤ 7) (h3 : c.peState (pw x.words 0).toNat = 3)
    (hr : (regWrite c 0 (PE_PEn_CMD (pw x.words 0).toNat) 2).supReads [PE_PEn_STAT (pw x.words 0).toNat] = (ws, d)) :
    stopEngineCmd x c = (.fin 0 0 ws, d) := by
  refine (if_neg (Nat.not_lt.2 h7)).trans ((if_pos h3).trans ?_)
  unfold Chip.regReply
  rw [hr]
  rfl

theorem imageInfoCmd_firmware (h0 : (pw x.words 0).toNat = 0) (h : (pw x.words 1).toNat ≠ 0) :
    imageInfoCmd x c = (.fin 0x0102 1 [], c) := by
  unfold imageInfoCmd
  dsimp only
  rw [h0]
  exact (if_neg (by decide)).trans (if_pos (Nat.pos_of_ne_zero h))

theorem imageInfoCmd_engine (h1 : (pw x.words 0).toNat = 1) (h : (pw x.words 1).toNat ≤ 7) : imageInfoCmd x c =
    (.fin 0 0 ([w32 (c.imageNow (imageEntry 1 (pw x.words 1).toNat)).state,
      (c.imageNow (imageEntry 1 (pw x.words 1).toNat)).version,
      w32 (c.imageNow (imageEntry 1 (pw x.words 1).toNat)).counter,
      w32 (c.imageNow (imageEntry 1 (pw x.words 1).toNat)).slot] ++
      payloadOf (zeros 16 ++ (c.imageNow (imageEntry 1 (pw x.words 1).toNat)).hash) 48), c) := by
  unfold imageInfoCmd
  dsimp only
  rw [h1]
  exact (if_neg (by decide)).trans (if_neg (Nat.not_lt.2 h))

theorem regReply_reads {as_ : List Nat} {ws : List W32} (h : c.supReads as_ = (ws, d)) :
    c.regReply as_ = (.fin 0 0 ws, d) := by
  unfold Chip.regReply
  rw [h]
  rfl

end Sys2Proof.Machine

namespace Sys2Proof
open Machine

/-- Settles O52: what each system, session and image command does and replies. The order of a number's words (log entry
70), what a reset of a unit brings back (71), the lengths and details of the replies (223) and STOP_ENGINE of an engine
that does not run (225) are the model's choices. -/
theorem systemSessionAndImageCommands : Obligations.SystemSessionAndImageCommands := by
  unfold Obligations.SystemSessionAndImageCommands
  intro x burnt c b w n bad refused h data kind state fuses lost put
  have hfalse {q : Bool} (h : q = false) : ¬q = true := not_true_of_eq_false h
  refine ⟨fun hs => ?_, fun hs ws d hr => ?_, fun hs => ⟨fun h1 hb => ?_, fun h1 => ?_, fun d h3 h5 hw hd h4 => ?_,
      fun d h3 h5 hw hd => ?_⟩,
    fun hs => ⟨fun hu => ?_, fun hu hn => ?_, fun hu hn hl => ?_, fun hu hn s img d hsrc h3 hl hr hv => ?_,
      fun hu hn => ?_, fun hu hn => ?_⟩,
    fun hs => ?_, fun hs => ⟨fun h => ?_, fun h1 h2 hn => ?_, fun h1 h2 hn d v hd => ⟨fun hv => ?_, fun hv => ?_⟩⟩,
    fun hs => ⟨fun h => ?_, fun h1 hp d hd => ⟨fun hv => ?_, fun hv => ?_⟩⟩,
    fun hs => ⟨fun ht => ?_, fun ht hp hk hlock key s r d hkey hfree hr => ?_⟩,
    fun hs d => ⟨fun p hp => ?_, fun hp => ?_⟩, fun hs => ⟨fun hb => ?_, fun hb => ?_⟩,
    fun hs => ⟨fun hr => ?_, fun hr ok d hw => ⟨fun hok => ?_, fun hok => ?_⟩⟩,
    fun hs => ⟨fun hr => ?_, fun hr h76 => ?_, fun hr h76 ok d hw => ⟨fun hok => ?_, fun hok => ?_⟩⟩,
    fun hs s hx h8 => ⟨fun h0 => ?_, fun h0 r d hr => ?_⟩,
    fun hs => ⟨fun hk => ?_, fun hk => ?_, fun hk h0 => ?_, fun hk h0 hg => ?_, fun hk h0 hg hf => ?_,
      fun hk h0 hg k hk4 hf hj => ?_⟩,
    fun hs => ⟨fun hn => ?_, fun y hy => ⟨fun hc => ?_, fun hc ho => ?_, fun hc ho hl ok d hw => ⟨fun hok => ?_, fun hok => ?_⟩⟩⟩,
    fun hs => ⟨fun hn => ?_, fun y hy hc => ⟨fun hl => ?_, fun hl d hr => ?_, fun hl img d hr =>
      ⟨fun st k hk hv => ?_, fun hk hv hf => ?_, fun hk hv hp hload => ?_⟩⟩⟩,
    fun hs => ⟨fun h7 => ?_, fun h7 h2 => ?_, fun h7 h2 hheld => ?_, fun h7 h2 hheld d hd h8 => ?_⟩,
    fun hs => ⟨fun h7 => ?_, fun h7 h3 ws d hr => ?_⟩,
    fun hs => ⟨fun hk => ?_, fun hk h1 => ?_, fun hk h7 => ?_⟩⟩
  case refine_1 => exact replies_of does_getIdentity hs rfl
  case refine_2 => exact replies_of does_getState hs (regReply_reads hr)
  case refine_3 => exact replies_of does_setState hs ((if_neg h1).trans (if_pos hb))
  case refine_4 => exact silent_of does_setState hs (if_pos h1)
  case refine_5 => exact starts_of does_setState hs (setStateCmd_taken rfl h3 h5 hw hd h4)
  case refine_6 => exact replies_of does_setState hs (setStateCmd_refused rfl h3 h5 hw hd)
  case refine_7 =>
    exact replies_of does_resetSubsystem hs ((resetSubsystem_other rfl rfl (unknownUnit_ne_engine hu)).trans (resetUnit_unknown hu))
  case refine_8 =>
    exact replies_of does_resetSubsystem hs ((resetSubsystem_engine rfl rfl hu).trans (if_pos hn))
  case refine_9 =>
    exact replies_of does_resetSubsystem hs ((resetSubsystem_engine rfl rfl hu).trans
      ((if_neg (Nat.not_lt.2 hn)).trans (resetEngine_unloaded hl)))
  case refine_10 =>
    exact starts_of does_resetSubsystem hs ((resetSubsystem_engine rfl rfl hu).trans
      ((if_neg (Nat.not_lt.2 hn)).trans (resetEngine_running hsrc h3 hl hr hv)))
  case refine_11 =>
    refine starts_of does_resetSubsystem hs ((resetSubsystem_other rfl rfl (fun g => absurd (hu.symm.trans g) (by decide))).trans ?_)
    rw [hu]
    exact resetUnit_mailbox hn
  case refine_12 =>
    refine starts_of does_resetSubsystem hs ((resetSubsystem_other rfl rfl (fun g => absurd (hu.symm.trans g) (by decide))).trans ?_)
    rw [hu]
    exact resetUnit_cluster hn
  case refine_13 => exact replies_of does_echo hs rfl
  case refine_14 => exact replies_of does_readReg hs (readReg_low h)
  case refine_15 => exact replies_of does_readReg hs (readReg_count rfl h1 h2 hn)
  case refine_16 => exact replies_of does_readReg hs ((readReg_one rfl h1 h2 hn).trans (readRegs_one_ok hd hv))
  case refine_17 => exact replies_of does_readReg hs ((readReg_one rfl h1 h2 hn).trans (readRegs_one_refused hd hv))
  case refine_18 => exact replies_of does_writeReg hs (if_pos h)
  case refine_19 => exact replies_of does_writeReg hs ((writeReg_one h1 hp hd).trans (if_neg hv))
  case refine_20 => exact replies_of does_writeReg hs ((writeReg_one h1 hp hd).trans (if_pos hv))
  case refine_21 => exact replies_of does_openSession hs (if_pos ht)
  case refine_22 => exact replies_of does_openSession hs (openSession_key ht hp hk rfl hlock hkey hfree hr)
  case refine_23 => exact replies_of does_proveSession hs (proveSession_proven hp)
  case refine_24 => exact replies_of does_proveSession hs (proveSession_failed hp)
  case refine_25 => exact replies_of does_closeSession hs (closeSession_busy hb)
  case refine_26 => exact replies_of does_closeSession hs (closeSession_closes hb)
  case refine_27 => exact replies_of does_setPassword hs (if_pos hr)
  case refine_28 => exact replies_of does_setPassword hs ((setPasswordCmd_result hr hw).trans (if_pos hok))
  case refine_29 => exact replies_of does_setPassword hs ((setPasswordCmd_result hr hw).trans (if_neg (hfalse hok)))
  case refine_30 => exact replies_of does_installKey hs (if_pos hr)
  case refine_31 => exact replies_of does_installKey hs (installKeyCmd_length hr h76)
  case refine_32 => exact starts_of does_installKey hs ((installKeyCmd_result hr h76 hw).trans (if_pos hok))
  case refine_33 => exact replies_of does_installKey hs ((installKeyCmd_result hr h76 hw).trans (if_neg (hfalse hok)))
  case refine_34 => exact replies_of does_attest hs (attest_bad (c := b) hx h8 h0)
  case refine_35 => exact starts_of does_attest hs (attest_reports (c := b) hx h8 h0 hr)
  case refine_36 => exact replies_of does_loadBegin hs (if_pos hk)
  case refine_37 => exact replies_of does_loadBegin hs (loadBegin_instance rfl hk)
  case refine_38 => exact replies_of does_loadBegin hs (loadBegin_empty rfl hk h0)
  case refine_39 => exact replies_of does_loadBegin hs (loadBegin_outside rfl hk h0 hg)
  case refine_40 =>
    exact replies_of does_loadBegin hs ((loadBegin_places rfl hk h0 hg).trans (congrArg (loadPlaced x b) (freeHandle_none hf)))
  case refine_41 =>
    exact replies_of does_loadBegin hs ((loadBegin_places rfl hk h0 hg).trans
      (congrArg (loadPlaced x b) (freeHandle_some hk4 hf hj)))
  case refine_42 => exact replies_of does_loadData hs (loadData_unknown hn)
  case refine_43 => exact replies_of does_loadData hs (loadData_committed hy hc)
  case refine_44 => exact replies_of does_loadData hs (loadData_offset hy hc ho)
  case refine_45 => exact replies_of does_loadData hs ((loadData_writes hy hc ho hl hw).trans (if_pos hok))
  case refine_46 => exact memFault_of does_loadData hs ((loadData_writes hy hc ho hl hw).trans (if_neg (hfalse hok)))
  case refine_47 => exact replies_of does_loadCommit hs (loadCommit_unknown hn)
  case refine_48 => exact replies_of does_loadCommit hs (loadCommit_early hy hc hl)
  case refine_49 => exact memFault_of does_loadCommit hs (loadCommit_unread hy hc hl hr)
  case refine_50 => exact starts_of does_loadCommit hs (loadCommit_refused hy hc hl hr hk hv)
  case refine_51 =>
    exact starts_of does_loadCommit hs ((loadCommit_verified hy hc hl hr (by rw [hk]; decide)
      (by rw [hk]; exact hv)).trans (commitImage_program hk hf))
  case refine_52 =>
    exact starts_of does_loadCommit hs ((loadCommit_verified hy hc hl hr (by rw [hk]; decide)
      (by rw [hk]; exact hv)).trans (commitImage_engine hk hp hload))
  case refine_53 => exact replies_of does_startEngine hs (if_pos h7)
  case refine_54 => exact replies_of does_startEngine hs (startEngineCmd_state h7 h2)
  case refine_55 => exact replies_of does_startEngine hs (startEngineCmd_held h7 h2 hheld)
  case refine_56 => exact replies_of does_startEngine hs (startEngineCmd_starts h7 h2 hheld hd h8)
  case refine_57 => exact replies_of does_stopEngine hs (if_pos h7)
  case refine_58 => exact replies_of does_stopEngine hs (stopEngineCmd_running h7 h3 hr)
  case refine_59 => exact replies_of does_imageInfo hs (if_pos hk)
  case refine_60 => exact replies_of does_imageInfo hs (imageInfoCmd_firmware hk h1)
  case refine_61 => exact replies_of does_imageInfo hs (imageInfoCmd_engine hk h7)

end Sys2Proof
end

section
/-!
PROOF. The network, time and angle commands (R433, R55, R117, R153).
-/
namespace Sys2Proof.Machine

variable {c d : Chip} {x : Cmd} {p n k op : Nat} {v : W32}

/-- A command that answers with the registers it reads. -/
theorem reads_of {i : Instr} {run : Cmd → Chip → CmdRes × Chip} {as_ : List Nat}
    (hi : ∀ {e}, runCommand c op run = e → Does i c e) (h : InService op x c)
    (hr : run x (idled c) = d.regReply as_) : ∀ ws e, d.supReads as_ = (ws, e) → Replies i x c 0 0 ws e :=
  fun _ _ he => replies_of hi h (hr.trans (regReply_reads he))

/-! ### Ports -/

/-- After a mode write the link of a port is down. -/
theorem Chip.enterMode_unlinked (hp : p < 8) : ModeSet p (v &&& 0x33CF) (wfld v 3 0) false
    (((c.dropLink p).endCableTest p).portRun p).jabber (c.enterMode p v) := by
  have hstore := Chip.storeMode_modeSet (c := (c.dropLink p).endCableTest p) (p := p) (v := v) c.lt
  refine ModeSet.setStatBit (.resolveFixed (.same ?_ (.endBeacons hp _))) (by decide) (by decide)
  split
  · exact hstore.seedBackoff
  · exact hstore

theorem modeListed_copper {mode : Nat} (hp : p ≤ 1) (h : modeListed p mode = true) : mode ≤ 3 := by
  unfold modeListed at h
  rw [if_pos (by omega), Bool.or_eq_true, Bool.and_eq_true, beq_iff_eq, decide_eq_true_iff, decide_eq_true_iff] at h
  omega

/-- A copper port's link is down after its mode is written. -/
theorem modeWrite_copper_linkDown (hp : p ≤ 1) (h : modeListed p (wfld v 3 0) = true) :
    (modeWrite c p v).linkUp p = false := by
  have h3 := modeListed_copper hp h
  rw [modeWrite_listed h]
  dsimp only
  rw [if_neg (by omega)]
  exact ((Chip.enterMode_unlinked (by omega)).same (.done _)).up

/-- PORT_CONFIG's writes to a copper port that does not negotiate. -/
def Chip.copperSetUp (c : Chip) (p : Nat) (x : Cmd) : Chip :=
  ((regWrite c 0 (ETH_Pn_CTL p) (wsetFld (c.reg (ETH_Pn_CTL p)) 3 0 0)).powerUnit (8 + p)).supWrites
    [(ETH_Pn_MAXLEN p, pw x.words 2), (ETH_Pn_PVID p, pw x.words 3), (ETH_Pn_MACADDR_HI p, pw x.words 4),
      (ETH_Pn_MACADDR_LO p, pw x.words 5), (ETH_Pn_CTL p, pw x.words 1)]

theorem copperSetUp_linkDown (hp : p ≤ 1) (h : modeListed p (wfld (pw x.words 1) 3 0) = true) :
    (c.copperSetUp p x).linkUp p = false := by
  have hlast (e : Chip) : (regWrite e 0 (ETH_Pn_CTL p) (pw x.words 1)).linkUp p = false := by
    rw [regWrite_ETH_Pn_CTL (c := e) (m := 0) (v := pw x.words 1) ⟨p, by omega⟩]
    exact modeWrite_copper_linkDown hp h
  exact hlast _

theorem portConfig_mode (hp : (pw x.words 0).toNat ≤ 7)
    (h : modeListed (pw x.words 0).toNat (wfld (pw x.words 1) 3 0) = false) : portConfig x c = (.fin 0x0102 1 [], c) :=
  (if_neg (Nat.not_lt.2 hp)).trans (if_pos (congrArg not h))

theorem portConfig_copper (hp : (pw x.words 0).toNat = p) (h1 : p ≤ 1) (hm : wfld (pw x.words 1) 3 0 ≠ 1)
    (h : modeListed p (wfld (pw x.words 1) 3 0) = true) : portConfig x c = (.fin 0 0 [], { c.copperSetUp p x with
      hif := { (c.copperSetUp p x).hif with ports := tblSet [] (c.copperSetUp p x).hif.ports p (x.words.drop 9) } }) := by
  have hdown := copperSetUp_linkDown (c := c) h1 h
  have hport : ¬(p = 2 ∨ p = 3) := by omega
  subst hp
  refine (if_neg (by omega)).trans ((if_neg (not_true_of_eq_false (congrArg not h))).trans ?_)
  dsimp only
  rw [if_neg hm, if_neg hport, List.append_nil, List.append_nil]
  exact congrArg (Prod.mk (CmdRes.fin 0 0 [])) (if_neg (not_true_of_eq_false hdown))

/-! ### The switch -/

theorem switchConfig_unknown (h9 : 9 < (pw x.words 0).toNat) (h : (pw x.words 0).toNat ≠ 0xFF) :
    switchConfig x c = (.fin 0x0102 0 [], c) := (if_neg h).trans (if_pos h9)

theorem wsetBit_top : wsetBit v 31 true = v ||| 0x80000000 := by
  refine BitVec.eq_of_getLsbD_eq fun i hi => ?_
  change wbit (wsetBit v 31 true) i = wbit (v ||| 0x80000000) i
  rw [wbit_wsetBit _ _ _ _ (by decide), wbit_or]
  by_cases h : i = 31
  · rw [if_pos h, h]
    exact (Bool.or_true _).symm
  · have hm : ∀ i, i < 31 → wbit (0x80000000 : W32) i = false := by decide
    rw [if_neg h, hm i (by omega), Bool.or_false]

theorem fdbAccess_busy (h : c.swx.tblOp ≠ none) : fdbAccess x c = (.fin 0x0301 0 [], c) :=
  if_pos (Option.isSome_iff_ne_none.2 h)

theorem fdbAccess_operates (h : c.swx.tblOp = none) : fdbAccess x c =
    (tableOpDone (c.supWrites (((List.range 8).map SWX_TBL_DATA).zip (x.words.drop 1) ++
      [(SWX_TBL_CMD, pw x.words 0 ||| 0x80000000)]))).regReply (SWX_TBL_STAT :: (List.range 8).map SWX_TBL_DATA) := by
  rw [← wsetBit_top]
  refine if_neg ?_
  rw [h]
  exact Bool.false_ne_true

section
variable (h9 : wfld (pw x.words 0) 3 0 ≤ 9)
include h9

theorem scheduleLoad_count (h : (pw x.words 1).toNat = 0 ∨ 507 < (pw x.words 1).toNat ∨
    1024 < wfld (pw x.words 0) 25 16 + (pw x.words 1).toNat) : scheduleLoad x c = (.fin 0x0102 1 [], c) :=
  (if_neg (Nat.not_lt.2 h9)).trans (if_pos h)

theorem scheduleLoad_one (h1 : (pw x.words 1).toNat = 1) (hf : wfld (pw x.words 0) 25 16 ≤ 1023)
    (ht : c.swx.tblOp = none) : scheduleLoad x c = (.fin 0 0 [], tableOpDone (c.supWrites
      (((List.range 8).map SWX_TBL_DATA).zip [pw x.words 2, pw x.words 3, 0, 0, 0, 0, 0, 0] ++
        [(SWX_TBL_CMD, w32 (0x97000000 + (wfld (pw x.words 0) 3 0 * 1024 + wfld (pw x.words 0) 25 16)))]))) := by
  have hidle : ¬c.swx.tblOp.isSome = true := by rw [ht]; exact Bool.false_ne_true
  refine (if_neg (Nat.not_lt.2 h9)).trans ((if_neg (by omega)).trans ((if_neg hidle).trans ?_))
  rw [h1]
  unfold adminWrites
  dsimp only
  rw [pw_drop, pw_drop]
  rfl

end

theorem countersRead_unknown (h7 : 7 < (pw x.words 0).toNat) (h : (pw x.words 0).toNat ≠ 0xFF) :
    countersRead x c = (.fin 0x0102 0 [], c) := (if_neg h).trans (if_pos h7)

theorem countersRead_port (h7 : (pw x.words 0).toNat ≤ 7) : countersRead x c =
    (regWrite c 0 (ETH_Pn_CNTSNAP (pw x.words 0).toNat) 1).regReply
      ((List.range 64).map (ETH_Pn_SNAP (pw x.words 0).toNat)) :=
  (if_neg (by omega)).trans (if_neg (Nat.not_lt.2 h7))

/-! ### CAN -/

section
variable (h8 : wbit (pw x.words 0) 8 = false)
include h8

theorem canConfig_running (h : c.bit (CANn_CTL (wfld (pw x.words 0) 1 0)) 31 = true) :
    canConfig x c = (.fin 0x0300 (c.fld (CANn_STAT (wfld (pw x.words 0) 1 0)) 31 30) [], c) :=
  (if_neg (not_true_of_eq_false h8)).trans (if_pos h)

theorem canConfig_writes (h : c.bit (CANn_CTL (wfld (pw x.words 0) 1 0)) 31 = false) :
    canConfig x c = (.fin 0 0 [], c.supWrites ((canRegs (wfld (pw x.words 0) 1 0)).zip (x.words.drop 2) ++
      [(CANn_CTL (wfld (pw x.words 0) 1 0), pw x.words 1)])) :=
  (if_neg (not_true_of_eq_false h8)).trans (if_neg (not_true_of_eq_false h))

end

theorem canConfig_offset (h8 : wbit (pw x.words 0) 8 = true)
    (h : (pw x.words 1).toNat % 4 ≠ 0 ∨ 0x4000 ≤ (pw x.words 1).toNat) : canConfig x c = (.fin 0x0102 1 [], c) :=
  (if_pos h8).trans (if_pos h)

/-! ### Time -/

section
variable (h1 : (pw x.words 0).toNat ≤ 1)
  (hd : regWrite c 0 TMU_DOMSEL (wsetBit (c.reg TMU_DOMSEL) 0 ((pw x.words 0).toNat == 1)) = d)
include h1 hd

theorem selectDomain_switched (h : d.tmu.activeB = ((pw x.words 0).toNat == 1)) :
    selectDomain x c = d.regReply [TMU_DOMSEL] := by
  subst hd
  exact (if_neg (Nat.not_lt.2 h1)).trans (if_pos (beq_iff_eq.2 h))

theorem selectDomain_refused (h : d.tmu.activeB ≠ ((pw x.words 0).toNat == 1)) :
    selectDomain x c = (.fin 0x0300 (d.regLive 0 (TMU_Dx_STATE (pw x.words 0).toNat)).toNat [], d) := by
  subst hd
  exact (if_neg (Nat.not_lt.2 h1)).trans (if_neg fun g => h (beq_iff_eq.1 g))

end

/-- STAMP_CONFIG by what it configures. -/
theorem stampConfig_kind {kind : Nat} (h : wfld (pw x.words 0) 9 8 = kind) : stampConfig x c =
    (let i := wfld (pw x.words 0) 6 0
    if kind = 0 then (if 7 < i then (.bad 0, c)
      else (.done [], c.supWrites (withWords [TMU_Pn_TSCTL i, TMU_Pn_LATRX i, TMU_Pn_LATTX i] x.words 1)))
    else if kind = 1 then (if 47 < i then (.bad 0, c) else (.done [], regWrite c 0 (TMU_TSn_CFG i) (pw x.words 1)))
    else if kind = 2 then (if 31 < i then (.bad 0, c)
      else if c.bit (TMU_TOn_CFG i) 8 then (.fin stWrongState 0 [], c)
      else (.done [], c.supWrites (withWords [TMU_TOn_CFG i, TMU_TOn_WIDTH i, TMU_TOn_PERIOD i] x.words 1)))
    else (.bad 0, c)) := by
  subst h
  unfold stampConfig
  dsimp only
  split
  next h => rw [h, if_pos rfl]
  next h =>
    rw [h]
    exact ((if_neg (by decide)).trans (if_pos rfl)).symm
  next h =>
    rw [h]
    exact ((if_neg (by decide)).trans ((if_neg (by decide)).trans (if_pos rfl))).symm
  next h0 h1 h2 => rw [if_neg h0, if_neg h1, if_neg h2]

/-! ### Angle -/

theorem shaftConfig_unknown (h15 : 15 < (pw x.words 0).toNat) (h : (pw x.words 0).toNat ≠ 0xFF) :
    shaftConfig x c = (.fin 0x0102 0 [], c) := (if_neg h).trans (if_pos h15)

theorem shaftConfig_shaft (h15 : (pw x.words 0).toNat ≤ 15) (h10 : pw x.words 10 = 0) : shaftConfig x c =
    (c.supWrites ([ANG_SHn_CFG (pw x.words 0).toNat, ANG_SHn_BSLEW (pw x.words 0).toNat, ANG_SHn_ELIM (pw x.words 0).toNat,
      ANG_SHn_REFTO (pw x.words 0).toNat, ANG_SHn_COASTLIM (pw x.words 0).toNat, ANG_SHn_PERIOD (pw x.words 0).toNat,
      ANG_SHn_LEAD (pw x.words 0).toNat, ANG_SHn_MSRC (pw x.words 0).toNat, ANG_SHn_MSCALE (pw x.words 0).toNat].zip
        (x.words.drop 1))).regReply [ANG_SHn_STAT (pw x.words 0).toNat] := by
  refine (if_neg (by omega)).trans ((if_neg (Nat.not_lt.2 h15)).trans ?_)
  dsimp only
  rw [if_pos h10]
  rfl

theorem regLive_ANG_SHn_STAT (h : n ≤ 15) : c.regLive 0 (ANG_SHn_STAT n) = angLive c (ANG_SHn_STAT n) := by
  have hw : ANG_SHn_STAT n / 0x10000 % 0x100 = 3 := by
    unfold ANG_SHn_STAT
    omega
  unfold Chip.regLive
  simp only [hw]

theorem idled_angLive {a : Nat} : angLive (idled c) a = angLive c a := rfl

/-- A shaft's state does not depend on the command in service. -/
theorem idled_shaftStat (h : n ≤ 15) : (idled c).regLive 0 (ANG_SHn_STAT n) = c.regLive 0 (ANG_SHn_STAT n) :=
  (regLive_ANG_SHn_STAT h).trans (idled_angLive.trans (regLive_ANG_SHn_STAT h).symm)

section
variable (h15 : (pw x.words 0).toNat ≤ 15) {st : Nat}
  (hst : wfld (c.regLive 0 (ANG_SHn_STAT (pw x.words 0).toNat)) 2 0 = st)
include h15 hst

theorem shaftMasterProfile_refused (h : st ≠ 2 ∨ c.bit (ANG_SHn_MSRC (pw x.words 0).toNat) 31 = true) :
    shaftMasterProfile x (idled c) = (.fin 0x0300 st [], idled c) := by
  subst hst
  rw [← idled_shaftStat h15] at h ⊢
  exact (if_neg (Nat.not_lt.2 h15)).trans (if_pos h)

theorem shaftMasterProfile_writes (h2 : st = 2) (h : c.bit (ANG_SHn_MSRC (pw x.words 0).toNat) 31 = false) :
    shaftMasterProfile x (idled c) = (.fin 0 0 [], (idled c).supWrites ([ANG_SHn_MVEL_HI (pw x.words 0).toNat,
      ANG_SHn_MVEL_LO (pw x.words 0).toNat, ANG_SHn_MACC (pw x.words 0).toNat].zip (x.words.drop 1))) := by
  rw [← idled_shaftStat h15, h2] at hst
  refine (if_neg (Nat.not_lt.2 h15)).trans (if_neg ?_)
  exact not_or.2 ⟨not_not_intro hst, not_true_of_eq_false h⟩

end

theorem angleEventClear_range (h : (pw x.words 0).toNat ≤ 1023) (hn : 1024 < (pw x.words 0).toNat + (pw x.words 1).toNat) :
    angleEventClear x c = (.fin 0x0102 1 [], c) := (if_neg (Nat.not_lt.2 h)).trans (if_pos hn)

theorem angleEventClear_clears (h : (pw x.words 0).toNat ≤ 1023)
    (hn : (pw x.words 0).toNat + (pw x.words 1).toNat ≤ 1024) : angleEventClear x c = (.fin 0 0 [],
      c.supWrites ((List.range (pw x.words 1).toNat).map fun i => (ANG_AEn_CFG ((pw x.words 0).toNat + i), 0))) :=
  (if_neg (Nat.not_lt.2 h)).trans (if_neg (Nat.not_lt.2 hn))

end Sys2Proof.Machine

namespace Sys2Proof
open Machine

/-- Settles O53: what each network, time and angle command writes and replies. That SCHEDULE_SWITCH clears ERR and the
shaft 0xFF of SHAFT_CONFIG (log entry 225), and what PORT_CONFIG powers (226), are the model's choices. -/
theorem networkTimeAndAngleCommands : Obligations.NetworkTimeAndAngleCommands := by
  unfold Obligations.NetworkTimeAndAngleCommands
  intro x c b w n bad writes reads data p
  have hfalse {q : Bool} (h : q = false) : ¬q = true := not_true_of_eq_false h
  refine ⟨fun hs => ⟨fun h7 => ?_, fun h7 hm => ?_, fun h1 hm hl => ?_⟩, fun hs => ⟨fun h7 => ?_, fun h7 => ?_⟩,
    fun hs => ⟨fun h9 h => ?_, fun h => ?_⟩, fun hs => ⟨fun h => ?_, fun h => ?_⟩,
    fun hs => ⟨fun h9 => ?_, fun h9 h => ?_, fun h9 h1 hf ht => ?_⟩, fun hs => ⟨fun h9 => ?_, fun h9 => ?_⟩,
    fun hs => ⟨fun h => ?_, fun h7 h => ?_, fun h7 => ?_⟩, fun hs => ⟨fun h8 h => ?_, fun h8 h => ?_, fun h8 h => ?_⟩,
    fun hs => ⟨fun h1 => ?_, fun h1 => ?_⟩, fun hs => ?_, fun hs => ⟨fun h1 => ?_, fun h1 d hd => ⟨fun h => ?_, fun h => ?_⟩⟩,
    fun hs => ⟨fun hk => ⟨fun hi => ?_, fun hi => ?_⟩, fun hk hi => ?_, fun hk hi hb => ?_⟩,
    fun hs => ⟨fun h15 h => ?_, fun h => ?_, fun h15 h10 => ?_⟩, fun hs => ⟨fun h15 => ?_, fun h15 => ?_⟩,
    fun hs => ⟨fun h => ?_, fun h => ?_⟩, fun hs => ⟨fun h => ?_, fun h hn => ?_, fun hn h => ?_⟩,
    fun hs => ⟨fun h15 => ?_, fun h15 h => ?_, fun h15 h2 h => ?_⟩⟩
  case refine_1 => exact replies_of does_portConfig hs (if_pos h7)
  case refine_2 => exact replies_of does_portConfig hs (portConfig_mode h7 hm)
  case refine_3 => exact replies_of does_portConfig hs (portConfig_copper rfl h1 hm hl)
  case refine_4 => exact replies_of does_portStatus hs (if_pos h7)
  case refine_5 => exact reads_of does_portStatus hs (if_neg (Nat.not_lt.2 h7))
  case refine_6 => exact replies_of does_switchConfig hs (switchConfig_unknown h9 h)
  case refine_7 => exact replies_of does_switchConfig hs (if_pos h)
  case refine_8 => exact replies_of does_fdbAccess hs (fdbAccess_busy h)
  case refine_9 => exact reads_of does_fdbAccess hs (fdbAccess_operates h)
  case refine_10 => exact replies_of does_scheduleLoad hs (if_pos h9)
  case refine_11 => exact replies_of does_scheduleLoad hs (scheduleLoad_count h9 h)
  case refine_12 => exact replies_of does_scheduleLoad hs (scheduleLoad_one h9 h1 hf ht)
  case refine_13 => exact replies_of does_scheduleSwitch hs (if_pos h9)
  case refine_14 => exact starts_of does_scheduleSwitch hs (if_neg (Nat.not_lt.2 h9))
  case refine_15 => exact reads_of does_countersRead hs (if_pos h)
  case refine_16 => exact replies_of does_countersRead hs (countersRead_unknown h7 h)
  case refine_17 => exact reads_of does_countersRead hs (countersRead_port h7)
  case refine_18 => exact replies_of does_canConfig hs (canConfig_running h8 h)
  case refine_19 => exact replies_of does_canConfig hs (canConfig_writes h8 h)
  case refine_20 => exact replies_of does_canConfig hs (canConfig_offset h8 h)
  case refine_21 => exact replies_of does_domainConfig hs (if_pos h1)
  case refine_22 => exact replies_of does_domainConfig hs (if_neg (Nat.not_lt.2 h1))
  case refine_23 => exact reads_of does_domainStatus hs rfl
  case refine_24 => exact replies_of does_selectDomain hs (if_pos h1)
  case refine_25 => exact reads_of does_selectDomain hs (selectDomain_switched h1 hd h)
  case refine_26 => exact replies_of does_selectDomain hs (selectDomain_refused h1 hd h)
  case refine_27 => exact replies_of does_stampConfig hs ((stampConfig_kind hk).trans (if_pos hi))
  case refine_28 => exact replies_of does_stampConfig hs ((stampConfig_kind hk).trans (if_neg (Nat.not_lt.2 hi)))
  case refine_29 => exact replies_of does_stampConfig hs ((stampConfig_kind hk).trans (if_neg (Nat.not_lt.2 hi)))
  case refine_30 =>
    exact replies_of does_stampConfig hs ((stampConfig_kind hk).trans ((if_neg (Nat.not_lt.2 hi)).trans (if_pos hb)))
  case refine_31 => exact replies_of does_shaftConfig hs (shaftConfig_unknown h15 h)
  case refine_32 => exact replies_of does_shaftConfig hs (if_pos h)
  case refine_33 => exact reads_of does_shaftConfig hs (shaftConfig_shaft h15 h10)
  case refine_34 => exact replies_of does_shaftStatus hs (if_pos h15)
  case refine_35 => exact reads_of does_shaftStatus hs (if_neg (Nat.not_lt.2 h15))
  case refine_36 => exact replies_of does_angleEventSet hs (if_pos h)
  case refine_37 => exact reads_of does_angleEventSet hs (if_neg (Nat.not_lt.2 h))
  case refine_38 => exact replies_of does_angleEventClear hs (if_pos h)
  case refine_39 => exact replies_of does_angleEventClear hs (angleEventClear_range h hn)
  case refine_40 => exact replies_of does_angleEventClear hs (angleEventClear_clears h hn)
  case refine_41 => exact replies_of does_shaftMasterProfile hs (if_pos h15)
  case refine_42 => exact replies_of does_shaftMasterProfile hs (shaftMasterProfile_refused h15 rfl h)
  case refine_43 => exact replies_of does_shaftMasterProfile hs (shaftMasterProfile_writes h15 rfl h2 h)

end Sys2Proof
end

section
/-!
PROOF. The motion, control-program, recorder and diagnostic commands (R433, R285, R290, R302, R367, R376, R467, R521).
-/
namespace Sys2Proof.Machine

variable {c d : Chip} {x : Cmd} {p n k op a : Nat} {v : W32}

/-! ### Motion -/

section
variable {i : Instr} {run : Cmd → Chip → CmdRes × Chip} (hi : ∀ {e}, runCommand c op run = e → Does i c e)
  (h : InService op x c) (hr : run x (idled c) = d.axisCmd a v)
include hi h hr

/-- A command to an axis that takes it. -/
theorem commands_taken (ht : d.axisRefuses a v = false) :
    ∀ ws e, (regWrite d 0 (AXn_CMD a) v).supReads [AXn_STAT a] = (ws, e) → Replies i x c 0 0 ws e :=
  reads_of hi h (hr.trans (if_neg (not_true_of_eq_false ht)))

/-- A command to an axis that refuses it. -/
theorem commands_refused (ht : d.axisRefuses a v = true) :
    Replies i x c 0x0300 (d.axState a) [] (regWrite d 0 (AXn_CMD a) v) :=
  replies_of hi h (hr.trans (if_pos ht))

end

theorem axisConfig_state (h31 : (pw x.words 0).toNat ≤ 31) (h : c.axState (pw x.words 0).toNat ≠ 0) :
    axisConfig x c = (.fin 0x0300 (c.axState (pw x.words 0).toNat) [], c) :=
  (if_neg (Nat.not_lt.2 h31)).trans (if_pos h)

theorem axisConfig_writes (h31 : (pw x.words 0).toNat ≤ 31) (h : c.axState (pw x.words 0).toNat = 0) {as_ : List Nat}
    (has : as_ = [AXn_CFG (pw x.words 0).toNat, AXn_GEARNUM (pw x.words 0).toNat, AXn_GEARDEN (pw x.words 0).toNat,
      AXn_CAMBASE0 (pw x.words 0).toNat, AXn_CAMBASE1 (pw x.words 0).toNat, AXn_CAMCFG0 (pw x.words 0).toNat,
      AXn_CAMCFG1 (pw x.words 0).toNat, AXn_CAMSPAN0 (pw x.words 0).toNat, AXn_CAMSPAN1 (pw x.words 0).toNat,
      AXn_DEVWIN (pw x.words 0).toNat, AXn_DEVTIME (pw x.words 0).toNat, AXn_DEVDLY (pw x.words 0).toNat,
      AXn_FBSCALE (pw x.words 0).toNat, AXn_FBCFG (pw x.words 0).toNat, AXn_SDEC_HI (pw x.words 0).toNat,
      AXn_SDEC_LO (pw x.words 0).toNat, AXn_SJERK_HI (pw x.words 0).toNat, AXn_SJERK_LO (pw x.words 0).toNat]) :
    axisConfig x c = (.fin 0 0 [], c.supWrites (as_.zip (x.words.drop 1))) := by
  subst has
  exact (if_neg (Nat.not_lt.2 h31)).trans (if_neg (not_not_intro h))

/-- A move to a target position that nothing waits for. -/
theorem axisMove_target (h31 : (pw x.words 0).toNat ≤ 31) (h0 : wbit (pw x.words 1) 0 = false)
    (h8 : wbit (pw x.words 1) 8 = false) : axisMove x c =
      (c.supWrites ([AXn_TGT_HI (pw x.words 0).toNat, AXn_TGT_LO (pw x.words 0).toNat, AXn_VMAX_HI (pw x.words 0).toNat,
        AXn_VMAX_LO (pw x.words 0).toNat, AXn_AMAX_HI (pw x.words 0).toNat, AXn_AMAX_LO (pw x.words 0).toNat,
        AXn_DMAX_HI (pw x.words 0).toNat, AXn_DMAX_LO (pw x.words 0).toNat, AXn_JMAX_HI (pw x.words 0).toNat,
        AXn_JMAX_LO (pw x.words 0).toNat].zip (x.words.drop 2))).axisCmd (pw x.words 0).toNat 4 := by
  refine (if_neg (Nat.not_lt.2 h31)).trans ?_
  rw [h0, h8]
  split
  next hw => cases hw
  next => rfl

/-- A stop of no axis stops none and none refuses it. -/
theorem stopAxes_none (ns : List Nat) : stopAxes c 0 ns = (0, c) := by
  induction ns with
  | nil => rfl
  | cons n ns ih =>
    have h0 : wbit 0 n = false := BitVec.getLsbD_zero
    unfold stopAxes
    rw [if_neg (not_true_of_eq_false h0)]
    exact ih

theorem axisStop_stops (h : stopAxes c (pw x.words 0) (List.range 32) = (k, d)) :
    axisStopCmd x c = (.fin 0 0 [w32 k], d) := by
  unfold axisStopCmd
  rw [h]
  rfl

section
variable (h31 : (pw x.words 0).toNat ≤ 31)
include h31

theorem axisGear_both (h2 : wbit (pw x.words 1) 2 = true) (h3 : wbit (pw x.words 1) 3 = true) :
    axisGear x c = (.fin 0x0102 1 [], c) := (if_neg (Nat.not_lt.2 h31)).trans (if_pos ⟨h2, h3⟩)

theorem axisGear_cam (h2 : wbit (pw x.words 1) 2 = true) (h3 : wbit (pw x.words 1) 3 = false) :
    axisGear x c = c.axisCmd (pw x.words 0).toNat 0x100 :=
  (if_neg (Nat.not_lt.2 h31)).trans ((if_neg fun h => not_true_of_eq_false h3 h.2).trans (if_pos h2))

theorem axisGear_engages (h0 : pw x.words 1 = 0) : axisGear x c =
    (c.supWrites ([AXn_GEARNUM (pw x.words 0).toNat, AXn_GEARDEN (pw x.words 0).toNat, AXn_GOFS_HI (pw x.words 0).toNat,
      AXn_GOFS_LO (pw x.words 0).toNat].zip (x.words.drop 2))).axisCmd (pw x.words 0).toNat 0x10 := by
  have hz (i : Nat) : ¬wbit (0 : W32) i = true := not_true_of_eq_false BitVec.getLsbD_zero
  refine (if_neg (Nat.not_lt.2 h31)).trans ?_
  rw [h0]
  exact (if_neg fun h => hz 2 h.1).trans ((if_neg (hz 2)).trans (if_neg (hz 3)))

end

/-! ### Control programs -/

/-- The banks that a program asks for are all TGRP's. -/
theorem banksOf_owned (h : ∀ k, k < 32 → wbit v k = true → ∃ f, f < 8 ∧ c.tgrp f = c.fld (MEM_BOWN k) 3 0) :
    ((banksOf v).any fun b => !(List.range 8).any fun n => c.tgrp n == c.fld (MEM_BOWN b) 3 0) = false := by
  refine List.any_eq_false.2 fun k hk => ?_
  obtain ⟨hr, hw⟩ := List.mem_filter.1 hk
  obtain ⟨f, hf, he⟩ := h k (List.mem_range.1 hr) hw
  have hany : ((List.range 8).any fun n => c.tgrp n == c.fld (MEM_BOWN k) 3 0) = true :=
    List.any_eq_true.2 ⟨f, List.mem_range.2 hf, beq_iff_eq.2 he⟩
  exact not_true_of_eq_false (congrArg not hany)

section
variable {y : LoadHandle} (hy : c.handle (pw x.words 0).toNat = some y)

theorem programLoad_unknown (hy : c.handle (pw x.words 0).toNat = none) : programLoad x c = (.fin 0x0102 0 [], c) := by
  unfold programLoad
  dsimp only
  rw [hy]
  rfl

include hy

theorem programLoad_uncommitted (h : y.committed = false) : programLoad x c = (.fin 0x0102 0 [], c) := by
  unfold programLoad
  dsimp only
  rw [hy]
  exact if_pos (congrArg not h)

variable (hc : y.committed = true)
include hc

theorem programLoad_noBank (h : pw x.words 1 = 0) : programLoad x c = (.fin 0x0102 1 [], c) := by
  unfold programLoad
  dsimp only
  rw [hy]
  refine (if_neg (not_true_of_eq_false (congrArg not hc))).trans (if_pos (.inl h))

/-- A committed program placed in banks of TGRP while no program is active. -/
theorem programLoad_activates {spans : List (Nat × List Byte)} {q : Program} {img : List Byte} {e : Chip}
    (h0 : pw x.words 1 ≠ 0) (hact : c.hif.active = none)
    (hown : ∀ k, k < 32 → wbit (pw x.words 1) k = true → ∃ f, f < 8 ∧ c.tgrp f = c.fld (MEM_BOWN k) 3 0)
    (hread : c.fwRead y.addr y.len = (some img, e))
    (hsec : programSections (bankAddr ((banksOf (pw x.words 1)).headD 0)) img = (spans, q))
    (hin : ∀ s ∈ spans, inBanks (pw x.words 1) s.1 s.2.length = true)
    (hplace : e.placeProgram (pw x.words 1) spans = (true, d)) (hnone : d.fld TSK_VMAPN 15 0 = 0) :
    programLoad x c = (.fin 0 0 [w32 q.map, w32 q.mapN, w32 q.task],
      d.activateProgram { q with handle := (pw x.words 0).toNat, banks := pw x.words 1 } (imgInfo img 0 3)
        (((spans.getLast?).map (·.2)).getD [])) := by
  have hbanks : ¬(pw x.words 1 = 0 ∨ pw x.words 1 &&& 0 ≠ 0 ∨
      ((banksOf (pw x.words 1)).any fun b => !(List.range 8).any fun n => c.tgrp n == c.fld (MEM_BOWN b) 3 0) = true) := by
    rw [banksOf_owned hown]
    exact not_or.2 ⟨h0, not_or.2 ⟨not_not_intro BitVec.and_zero, Bool.false_ne_true⟩⟩
  have hall : ¬(spans.any fun s => !inBanks (pw x.words 1) s.1 s.2.length) = true := by
    rw [List.any_eq_true]
    rintro ⟨s, hs, hn⟩
    rw [hin s hs] at hn
    cases hn
  unfold programLoad
  dsimp only
  rw [hy]
  dsimp only
  rw [hc, hact]
  refine (if_neg Bool.false_ne_true).trans ((if_neg hbanks).trans ?_)
  rw [hread]
  dsimp only
  rw [hsec]
  dsimp only
  rw [if_neg hall, hplace]
  dsimp only
  rw [if_pos hnone]
  rfl

end

section
variable (h4 : (pw x.words 0).toNat ≤ 4) (hd : regWrite c 0 TSK_MODE (w32 (pw x.words 0).toNat) = d)
include h4 hd

theorem programMode_taken (h1 : d.tskMode = (pw x.words 0).toNat) (h2 : c.tskMode ≠ (pw x.words 0).toNat) :
    programMode x c = d.regReply [TSK_STAT] := by
  subst hd
  exact (if_neg (Nat.not_lt.2 h4)).trans (if_neg (not_or.2 ⟨not_not_intro h1, h2⟩))

theorem programMode_refused (h : d.tskMode ≠ (pw x.words 0).toNat ∨ c.tskMode = (pw x.words 0).toNat) :
    programMode x c = (.fin 0x0300 c.tskMode [], d) := by
  subst hd
  exact (if_neg (Nat.not_lt.2 h4)).trans (if_pos h)

end

theorem valueChange_busy (h1 : 1 ≤ (pw x.words 1).toNat) (h32 : (pw x.words 1).toNat ≤ 32) (h : c.tsk.batch ≠ none) :
    valueChange x c = (.fin 0x0301 0 [], c) :=
  (if_neg (by omega)).trans (if_pos (Option.isSome_iff_ne_none.2 h))

section
variable (h1 : (pw x.words 1).toNat = 1) (hb : c.tsk.batch = none)
  (hd : c.supWrites [(TSK_VC_ID, pw x.words 2), (TSK_VC_LO, pw x.words 3), (TSK_VC_HI, pw x.words 4),
    (TSK_VC_CTL, 0x80000000), (TSK_VC_CTL, w32 (2 ^ 30 + b2n (wbit (pw x.words 0) 8) * 2 ^ 29 + wfld (pw x.words 0) 4 0))] = d)
include h1 hb hd

/-- A batch of one change, pushed and applied. -/
theorem valueChange_one : valueChange x c =
    if d.tsk.batch.isSome then (.start (.valueChange (wfld (pw x.words 0) 4 0)), d)
    else (.fin 0x0102 (d.fld TSK_VC_STAT 18 16 * 4096) [], d) := by
  have hidle : ¬c.tsk.batch.isSome = true := by rw [hb]; exact Bool.false_ne_true
  subst hd
  refine (if_neg (by omega)).trans ((if_neg hidle).trans ?_)
  rw [h1]
  rfl

theorem valueChange_pends (h : d.tsk.batch ≠ none) :
    valueChange x c = (.start (.valueChange (wfld (pw x.words 0) 4 0)), d) :=
  (valueChange_one h1 hb hd).trans (if_pos (Option.isSome_iff_ne_none.2 h))

theorem valueChange_refused (h : d.tsk.batch = none) :
    valueChange x c = (.fin 0x0102 (d.fld TSK_VC_STAT 18 16 * 4096) [], d) := by
  have hnot : ¬d.tsk.batch.isSome = true := by rw [h]; exact Bool.false_ne_true
  exact (valueChange_one h1 hb hd).trans (if_neg hnot)

end

section
variable (h0 : c.tskMode ≠ 0) (h4 : c.tskMode ≠ 4)
include h0 h4

theorem forceSet_full (h : ∀ f, f < 64 → c.fcOn f = true) : forceSetCmd x c = (.fin 0x0500 0 [], c) := by
  have hnone : ((List.range 64).find? fun f => !c.fcOn f) = none := by
    refine List.find?_eq_none.2 fun f hf => ?_
    rw [h f (List.mem_range.1 hf)]
    exact Bool.false_ne_true
  refine (if_neg (not_or.2 ⟨h0, h4⟩)).trans ?_
  rw [hnone]

theorem forceSet_entry {f : Nat} (hf : f < 64) (hoff : c.fcOn f = false) (hlow : ∀ k, k < f → c.fcOn k = true)
    (hd : c.supWrites [(TSK_FCf_ID f, pw x.words 0), (TSK_FCf_VAL_LO f, pw x.words 1), (TSK_FCf_VAL_HI f, pw x.words 2),
      (TSK_FCf_CTL f, 0x80000000)] = d) :
    forceSetCmd x c = if d.fcOn f then (.fin 0 0 [w32 f], d) else (.fin 0x0102 0 [], d) := by
  have hsome : ((List.range 64).find? fun f => !c.fcOn f) = some f := by
    refine List.find?_range_eq_some.2 ⟨congrArg not hoff, List.mem_range.2 hf, fun j hj => ?_⟩
    rw [hlow j hj]
    rfl
  subst hd
  refine (if_neg (not_or.2 ⟨h0, h4⟩)).trans ?_
  rw [hsome]
  rfl

end

/-- The force entries that FORCE_CLEAR clears. -/
def Chip.forcesCleared (c : Chip) (x : Cmd) : List Nat :=
  c.forcesOn.filter fun f => pw x.words 0 == 0xFFFFFFFF || c.reg (TSK_FCf_ID f) == pw x.words 0

theorem forceClear_unknown (h : c.forcesCleared x = []) (h0 : pw x.words 0 ≠ 0xFFFFFFFF) :
    forceClearCmd x c = (.fin 0x0102 0 [], c) := if_pos ⟨h, h0⟩

theorem forceClear_clears (h : c.forcesCleared x ≠ [] ∨ pw x.words 0 = 0xFFFFFFFF)
    (hd : c.supWrites ((c.forcesCleared x).map fun f => (TSK_FCf_CTL f, 0)) = d) :
    forceClearCmd x c = (.fin 0 0 [w32 d.forcesOn.length], d) := by
  subst hd
  exact if_neg fun g => h.elim (fun hn => hn g.1) g.2

theorem programSwap_unstaged (h : c.hif.staged = none) : programSwap x c = (.fin 0x0102 0 [], c) := by
  unfold programSwap
  dsimp only
  rw [h]
  rfl

section
variable {q : Program} (hq : c.hif.staged = some q)
include hq

theorem programSwap_other (h : q.handle ≠ (pw x.words 0).toNat) : programSwap x c = (.fin 0x0102 0 [], c) := by
  unfold programSwap
  dsimp only
  rw [hq]
  exact if_pos h

variable (hh : q.handle = (pw x.words 0).toNat)
include hh

theorem programSwap_busy (h : c.tsk.swapReq = true) : programSwap x c = (.fin 0x0301 0 [], c) := by
  unfold programSwap
  dsimp only
  rw [hq]
  exact (if_neg (not_not_intro hh)).trans (if_pos h)

theorem programSwap_asked (h : c.tsk.swapReq = false) (hd : c.supWrites [(TSK_SWAP_MAP, w32 q.map),
    (TSK_SWAP_MAPN, w32 q.mapN), (TSK_SWAP_TASKS, w32 q.task), (TSK_SWAP_CTL, 1)] = d) : programSwap x c =
      if d.tsk.swapReq then (.start (.swap (pw x.words 0).toNat), d) else (.fin 0x0300 c.tskMode [], d) := by
  subst hd
  unfold programSwap
  dsimp only
  rw [hq]
  exact (if_neg (not_not_intro hh)).trans (if_neg (not_true_of_eq_false h))

end

theorem programStatus_reads {us ws : List W32} {e : Chip} (hu : c.supReads [TSK_STAT, TSK_DIAGLAST] = (us, d))
    (hw : d.supReads ([TSK_SWAP_STAT, TSK_VC_STAT] ++ (List.range 8).flatMap fun k => [TSK_FRn_STAT k, TSK_FRn_CYCLE k]) =
      (ws, e)) : programStatus x c = (.fin 0 0 (us ++ [w32 c.forcesOn.length] ++ ws) , e) := by
  unfold programStatus
  rw [hu]
  dsimp only
  rw [hw]
  rfl

/-! ### The recorder -/

theorem withMram_fault {f : CmdRes × Chip} (h : ¬c.bit MEM_STAT 0 = true) : c.withMram f = (.fin 0x0600 0 [], c) := if_neg h

theorem withMram_works {f : CmdRes × Chip} (h : c.bit MEM_STAT 0 = true) : c.withMram f = f := if_pos h

theorem evr_idle (hidle : c.evr.op = none) : ¬c.evr.op.isSome = true := by
  rw [hidle]
  exact Bool.false_ne_true

section
variable (hm : c.bit MEM_STAT 0 = true)
include hm

theorem recordRead_count (h : (pw x.words 1).toNat = 0 ∨ 63 < (pw x.words 1).toNat) :
    recordRead x c = (.fin 0x0102 1 [], c) := (withMram_works hm).trans (if_pos h)

theorem recordRead_records (h1 : 1 ≤ (pw x.words 1).toNat) (h63 : (pw x.words 1).toNat ≤ 63) {rs : List HeldRec}
    (hrs : ((oldestFirst c.heldRecs).dropWhile fun r => seqLater ((pw x.words 0).toNat % seqMod) r.seq).take
      (pw x.words 1).toNat = rs) :
    recordRead x c = (.fin 0 0 (w32 rs.length :: rs.flatMap fun r => c.words (evrSlot r.slot) 16), c) := by
  subst hrs
  exact (withMram_works hm).trans (if_neg (by omega))

theorem recordWrite_busy {verified : Bool} (h : ¬c.evr.op = none) : recordWrite verified x c = (.fin 0x0301 0 [], c) :=
  (withMram_works hm).trans (if_pos (Option.isSome_iff_ne_none.2 h))

theorem recordClear_busy (h : ¬c.evr.op = none) : recordClear x c = (.fin 0x0301 0 [], c) :=
  (withMram_works hm).trans (if_pos (Option.isSome_iff_ne_none.2 h))

section
variable (hidle : c.evr.op = none)
include hidle

theorem recordWrite_severity {verified : Bool} (h : 7 < (pw x.words 0).toNat) :
    recordWrite verified x c = (.fin 0x0102 0 [], c) :=
  (withMram_works hm).trans ((if_neg (evr_idle hidle)).trans (if_pos h))

theorem recordWrite_submits {verified : Bool} (h : (pw x.words 0).toNat ≤ 7) : recordWrite verified x c =
    (recordStoreDone (c.supWrites ([(EVR_SUB_HDR, w32 ((pw x.words 0).toNat * 65536 + 0x0201)),
      (EVR_SUB_CODE, pw x.words 1)] ++ ((List.range 8).map EVR_SUB_DATA).zip (x.words.drop 2) ++
        [(EVR_SUB_CTL, 0x80000000)])) verified).regReply [EVR_SUB_RESULT] :=
  (withMram_works hm).trans ((if_neg (evr_idle hidle)).trans (if_neg (Nat.not_lt.2 h)))

theorem recordClear_starts : recordClear x c = (.start .recordClear, regWrite c 0 EVR_SUB_CTL 0x40000000) :=
  (withMram_works hm).trans (if_neg (evr_idle hidle))

end

theorem recorderStatus_reads {us ws : List W32} {e : Chip} (hu : c.supReads [EVR_OLDSEQ, EVR_NEWSEQ] = (us, d))
    (hw : d.supReads ([EVR_OPSEC, EVR_PCC] ++ (List.range 8).map EVR_DROP) = (ws, e)) :
    recorderStatus x c = (.fin 0 0 (us ++ [w32 c.heldRecs.length] ++ ws), e) := by
  unfold recorderStatus
  rw [hu]
  dsimp only
  rw [hw]
  exact withMram_works hm

end

theorem recorderStatus_fault (h : ¬c.bit MEM_STAT 0 = true) : recorderStatus x c = (.fin 0x0600 0 [], c) :=
  withMram_fault h

/-! ### Diagnostics -/

theorem marchRun_running (h5 : c.sysState = 5) (h4 : wbit (pw x.words 1) 4 = false) :
    marchRun x c = (.fin 0x0300 5 [], c) := if_pos ⟨h5, h4⟩

section
variable (h : c.sysState ≠ 5 ∨ wbit (pw x.words 1) 4 = true)
include h

theorem marchRun_allowed : ¬(c.sysState = 5 ∧ wbit (pw x.words 1) 4 = false) := by
  rintro ⟨h5, h4⟩
  exact h.elim (fun hn => hn h5) (not_true_of_eq_false h4)

theorem marchRun_busy (hb : c.bit MEM_MARCH_CTL 30 = true) : marchRun x c = (.fin 0x0301 0 [], c) :=
  (if_neg (marchRun_allowed h)).trans (if_pos hb)

theorem marchRun_starts (hb : c.bit MEM_MARCH_CTL 30 = false) : marchRun x c = (.start .march, c.supWrites
    [(MEM_MARCH_BANKS, pw x.words 0), (MEM_MARCH_CTL, (pw x.words 1 &&& 0x318) ||| 0x80000000)]) :=
  (if_neg (marchRun_allowed h)).trans (if_neg (not_true_of_eq_false hb))

end

section
variable (h13 : (pw x.words 0).toNat ≤ 13) (h4 : wfld (pw x.words 1) 3 0 ≤ 4) (h1 : wfld (pw x.words 1) 9 8 ≤ 1)
  (h2 : wfld (pw x.words 1) 13 12 ≤ 2) (hr : pw x.words 1 &&& 0xFFFFCCF0 = 0)
include h13 h4 h1 h2 hr

theorem prbsRun_time (h : (pw x.words 2).toNat = 0 ∨ 60000 < (pw x.words 2).toNat) :
    prbsRunCmd x c = (.fin 0x0102 2 [], c) := by
  have hok : ¬(4 < wfld (pw x.words 1) 3 0 ∨ 1 < wfld (pw x.words 1) 9 8 ∨ 2 < wfld (pw x.words 1) 13 12 ∨
    pw x.words 1 &&& 0xFFFFCCF0 ≠ 0) := not_or.2 ⟨Nat.not_lt.2 h4, not_or.2 ⟨Nat.not_lt.2 h1, not_or.2 ⟨Nat.not_lt.2 h2,
      not_not_intro hr⟩⟩⟩
  exact (if_neg (Nat.not_lt.2 h13)).trans ((if_neg hok).trans (if_pos h))

theorem prbsRun_starts {gate : Option W32} (hm : 1 ≤ (pw x.words 2).toNat) (hm' : (pw x.words 2).toNat ≤ 60000)
    (hb : c.bit (TST_PRBSl_CTL (pw x.words 0).toNat) 31 = false)
    (hf : c.prbsRefused (pw x.words 0).toNat (wfld (pw x.words 1) 3 0) = false)
    (hg : (if (pw x.words 0).toNat < 8 ∧ c.bit PWR_GATE (8 + (pw x.words 0).toNat) = false then
      (some (w32 (2 ^ (8 + (pw x.words 0).toNat))), c.powerUnit (8 + (pw x.words 0).toNat)) else (none, c)) = (gate, d)) :
    prbsRunCmd x c = (.start (.prbs (pw x.words 0).toNat (c.tmu.raw + (pw x.words 2).toNat * 1000000) gate),
      regWrite d 0 (TST_PRBSl_CTL (pw x.words 0).toNat) (pw x.words 1 ||| 0x80000000)) := by
  have hok : ¬(4 < wfld (pw x.words 1) 3 0 ∨ 1 < wfld (pw x.words 1) 9 8 ∨ 2 < wfld (pw x.words 1) 13 12 ∨
    pw x.words 1 &&& 0xFFFFCCF0 ≠ 0) := not_or.2 ⟨Nat.not_lt.2 h4, not_or.2 ⟨Nat.not_lt.2 h1, not_or.2 ⟨Nat.not_lt.2 h2,
      not_not_intro hr⟩⟩⟩
  refine (if_neg (Nat.not_lt.2 h13)).trans ((if_neg hok).trans ((if_neg (by omega)).trans
    ((if_neg (not_true_of_eq_false hb)).trans ((if_neg (not_true_of_eq_false hf)).trans ?_))))
  by_cases hgate : (pw x.words 0).toNat < 8 ∧ c.bit PWR_GATE (8 + (pw x.words 0).toNat) = false
  · rw [if_pos hgate] at hg
    obtain ⟨rfl, rfl⟩ := Prod.mk.inj hg
    rw [decide_eq_true hgate.1, hgate.2]
    rfl
  · have hpowered : (decide ((pw x.words 0).toNat < 8) && !c.bit PWR_GATE (8 + (pw x.words 0).toNat)) = false := by
      rw [Bool.eq_false_iff]
      intro h
      rw [Bool.and_eq_true, decide_eq_true_iff, Bool.not_eq_true'] at h
      exact hgate h
    rw [if_neg hgate] at hg
    obtain ⟨rfl, rfl⟩ := Prod.mk.inj hg
    rw [hpowered]
    rfl

end

theorem freezeResolveCmd_plain (h : wbit (pw x.words 1) 0 = false) :
    freezeResolveCmd x c = (regWrite c 0 XDM_FRZ_RESOLVE (pw x.words 0)).regReply [XDM_FRZ_COUNT] := by
  unfold freezeResolveCmd
  dsimp only
  rw [h, Bool.and_false]
  rfl

theorem freezeResolveCmd_locks {e : FreezeEntry} {es : List FreezeEntry} (hf : c.xdm.freezes = e :: es)
    (hu : wfld (pw x.words 0) 7 0 = e.unit) (hn : wfld (pw x.words 0) 31 30 ≠ 0) (h : wbit (pw x.words 1) 0 = true) :
    freezeResolveCmd x c = (regWrite (c.supWrites (((List.range 256).filter fun k =>
      c.fld (MEM_LK k) 4 0 == e.master + 1).map fun k => (MEM_LK k, 0))) 0 XDM_FRZ_RESOLVE (pw x.words 0)).regReply
        [XDM_FRZ_COUNT] := by
  unfold freezeResolveCmd
  dsimp only
  have hnamed : (wfld (pw x.words 0) 7 0 == e.unit && wfld (pw x.words 0) 31 30 != 0 && wbit (pw x.words 1) 0) = true := by
    rw [hu, beq_self_eq_true, bne_iff_ne.2 hn, h]
    rfl
  rw [hf]
  exact congrArg (fun d : Chip => (regWrite d 0 XDM_FRZ_RESOLVE (pw x.words 0)).regReply [XDM_FRZ_COUNT]) (if_pos hnamed)

section
variable (hu : wfld (pw x.words 0) 3 0 ≤ 11) (h0 : wfld (pw x.words 0) 9 8 ≠ 0) (h3 : wfld (pw x.words 0) 9 8 ≠ 3)
include hu h0 h3

theorem loopback_busy (h : ∃ s ∈ c.hif.started, ∃ l k, s.wait = .loopback (wfld (pw x.words 0) 3 0) l k) :
    loopback x c = (.fin 0x0301 0 [], c) := by
  refine (if_neg (not_or.2 ⟨Nat.not_lt.2 hu, not_or.2 ⟨h0, h3⟩⟩)).trans (if_pos (List.any_eq_true.2 ?_))
  obtain ⟨s, hs, l, k, hw⟩ := h
  refine ⟨s, hs, ?_⟩
  rw [hw]
  exact beq_self_eq_true _

theorem loopback_starts (h : ∀ s ∈ c.hif.started, ∀ l k, s.wait ≠ .loopback (wfld (pw x.words 0) 3 0) l k) :
    loopback x c = (.start (.loopback (wfld (pw x.words 0) 3 0) (c.fld (loopReg (wfld (pw x.words 0) 3 0)) 13 12)
      (pw x.words 1).toNat), regWrite c 0 (loopReg (wfld (pw x.words 0) 3 0))
        (wsetFld (c.reg (loopReg (wfld (pw x.words 0) 3 0))) 13 12 (wfld (pw x.words 0) 9 8))) := by
  refine (if_neg (not_or.2 ⟨Nat.not_lt.2 hu, not_or.2 ⟨h0, h3⟩⟩)).trans (if_neg fun g => ?_)
  obtain ⟨s, hs, hg⟩ := List.any_eq_true.1 g
  split at hg
  next v l k hw => exact h s hs l k (beq_iff_eq.1 hg ▸ hw)
  next => cases hg

end

end Sys2Proof.Machine

namespace Sys2Proof
open Machine

/-- Settles O54: what each motion, control-program, recorder and diagnostic command writes and replies. When a command
to an axis answers (log entry 73), the limit of forces by mode (163), the answer of FORCE_CLEAR to an unknown ID (225),
the handle that a program gives up when it becomes active (226) and the counts of LOOPBACK and PRBS_RUN that come with
their end (227) are the model's choices. -/
theorem motionProgramAndDiagnosticCommands : Obligations.MotionProgramAndDiagnosticCommands := by
  unfold Obligations.MotionProgramAndDiagnosticCommands
  intro x verified c b w n bad wrong busy fault reads a mram idle commands held
  have hfalse {q : Bool} (h : q = false) : ¬q = true := not_true_of_eq_false h
  refine ⟨fun hs => ⟨fun h => ?_, fun h31 h => ?_, fun h31 h => ?_⟩,
    fun hs => ⟨fun h => ?_, fun h31 h0 h8 => ⟨fun h => ?_, fun h => ?_⟩⟩,
    fun hs => ⟨fun h => ?_, fun k d h => ?_⟩,
    fun hs => ⟨fun h => ?_, fun h31 h2 h3 => ?_, fun h31 h2 h3 => ⟨fun h => ?_, fun h => ?_⟩,
      fun h31 h0 => ⟨fun h => ?_, fun h => ?_⟩⟩,
    fun hs => ⟨fun h => ?_, fun h31 => ?_⟩,
    fun hs => ⟨fun h => ?_, fun y hy h => ?_, fun y hy hc h => ?_,
      fun y spans p hy hc h0 hact hown img e d hread hsec hin hplace hnone => ?_⟩,
    fun hs => ⟨fun h => ?_, fun h4 d hd => ⟨fun h1 h2 => ?_, fun h => ?_⟩⟩,
    fun hs => ⟨fun h => ?_, fun h1 h32 h => ?_, fun h1 hb d hd => ⟨fun h => ?_, fun h => ?_⟩⟩,
    fun hs => ⟨fun h => ?_, fun h0 h4 h => ?_, fun h0 h4 f hf hoff hlow d hd => ⟨fun h => ?_, fun h => ?_⟩⟩,
    fun hs => ⟨fun h h0 => ?_, fun h d hd => ?_⟩,
    fun hs => ⟨fun h => ?_, fun p hp => ⟨fun h => ?_, fun hh h => ?_, fun hh h d hd => ⟨fun hd' => ?_, fun hd' => ?_⟩⟩⟩,
    fun hs us ws d e hu hw => ?_,
    fun hs => ⟨fun hm => ?_, fun hm h => ?_, fun hm h1 h63 => ?_⟩,
    fun hs => ⟨fun hm => ?_, fun hm h => ?_, fun hm hi h => ?_, fun hm hi h => ?_⟩,
    fun hs => ⟨fun hm => ?_, fun hm h => ?_, fun hm h => ?_⟩,
    fun hs => ⟨fun hm => ?_, fun hm us ws d e hu hw => ?_⟩,
    fun hs => ⟨fun h5 h4 => ?_, fun h hb => ?_, fun h hb => ?_⟩,
    fun hs => ⟨fun h => ?_, fun h13 h4 h1 h2 hr h => ?_, fun h13 h4 h1 h2 hr hm hm' hb hf gate d hg => ?_⟩,
    fun hs => ?_,
    fun hs => ⟨fun h => ?_, fun e es hf hu hn h => ?_⟩,
    fun hs => ⟨fun h => ?_, fun hu h0 h3 h => ?_, fun hu h0 h3 h => ?_⟩⟩
  case refine_1 => exact replies_of does_axisConfig hs (if_pos h)
  case refine_2 => exact replies_of does_axisConfig hs (axisConfig_state h31 h)
  case refine_3 => exact replies_of does_axisConfig hs (axisConfig_writes (c := b) h31 h rfl)
  case refine_4 => exact replies_of does_axisMove hs (if_pos h)
  case refine_5 => exact commands_taken does_axisMove hs (axisMove_target h31 h0 h8) h
  case refine_6 => exact commands_refused does_axisMove hs (axisMove_target h31 h0 h8) h
  case refine_7 =>
    refine replies_of does_axisStop hs (axisStop_stops (k := 0) ?_)
    rw [show pw x.words 0 = 0 from h]
    exact stopAxes_none _
  case refine_8 => exact replies_of does_axisStop hs (axisStop_stops h)
  case refine_9 => exact replies_of does_axisGear hs (if_pos h)
  case refine_10 => exact replies_of does_axisGear hs (axisGear_both h31 h2 h3)
  case refine_11 => exact commands_taken does_axisGear hs (axisGear_cam h31 h2 h3) h
  case refine_12 => exact commands_refused does_axisGear hs (axisGear_cam h31 h2 h3) h
  case refine_13 => exact commands_taken does_axisGear hs (axisGear_engages h31 h0) h
  case refine_14 => exact commands_refused does_axisGear hs (axisGear_engages h31 h0) h
  case refine_15 => exact replies_of does_axisStatus hs (if_pos h)
  case refine_16 => exact reads_of does_axisStatus hs (if_neg (Nat.not_lt.2 h31))
  case refine_17 => exact replies_of does_programLoad hs (programLoad_unknown h)
  case refine_18 => exact replies_of does_programLoad hs (programLoad_uncommitted hy h)
  case refine_19 => exact replies_of does_programLoad hs (programLoad_noBank hy hc h)
  case refine_20 =>
    exact replies_of does_programLoad hs (programLoad_activates hy hc h0 hact hown hread hsec hin hplace hnone)
  case refine_21 => exact replies_of does_programMode hs (if_pos h)
  case refine_22 => exact reads_of does_programMode hs (programMode_taken h4 hd h1 h2)
  case refine_23 => exact replies_of does_programMode hs (programMode_refused (c := b) h4 hd h)
  case refine_24 => exact replies_of does_valueChange hs (if_pos h)
  case refine_25 => exact replies_of does_valueChange hs (valueChange_busy h1 h32 h)
  case refine_26 => exact starts_of does_valueChange hs (valueChange_pends h1 hb hd h)
  case refine_27 => exact replies_of does_valueChange hs (valueChange_refused h1 hb hd h)
  case refine_28 => exact replies_of does_forceSet hs (if_pos h)
  case refine_29 => exact replies_of does_forceSet hs (forceSet_full (c := b) h0 h4 h)
  case refine_30 => exact replies_of does_forceSet hs ((forceSet_entry (c := b) h0 h4 hf hoff hlow hd).trans (if_pos h))
  case refine_31 =>
    exact replies_of does_forceSet hs ((forceSet_entry (c := b) h0 h4 hf hoff hlow hd).trans (if_neg (hfalse h)))
  case refine_32 => exact replies_of does_forceClear hs (forceClear_unknown (c := b) h h0)
  case refine_33 => exact replies_of does_forceClear hs (forceClear_clears (c := b) h hd)
  case refine_34 => exact replies_of does_programSwap hs (programSwap_unstaged h)
  case refine_35 => exact replies_of does_programSwap hs (programSwap_other (c := b) hp h)
  case refine_36 => exact replies_of does_programSwap hs (programSwap_busy (c := b) hp hh h)
  case refine_37 => exact starts_of does_programSwap hs ((programSwap_asked (c := b) hp hh h hd).trans (if_pos hd'))
  case refine_38 =>
    exact replies_of does_programSwap hs ((programSwap_asked (c := b) hp hh h hd).trans (if_neg (hfalse hd')))
  case refine_39 => exact replies_of does_programStatus hs (programStatus_reads (c := b) hu hw)
  case refine_40 => exact replies_of does_recordRead hs (withMram_fault hm)
  case refine_41 => exact replies_of does_recordRead hs (recordRead_count hm h)
  case refine_42 => exact replies_of does_recordRead hs (recordRead_records (c := b) hm h1 h63 rfl)
  case refine_43 => exact replies_of does_recordWrite hs (withMram_fault hm)
  case refine_44 => exact replies_of does_recordWrite hs (recordWrite_busy (c := b) hm h)
  case refine_45 => exact replies_of does_recordWrite hs (recordWrite_severity (c := b) hm hi h)
  case refine_46 => exact reads_of does_recordWrite hs (recordWrite_submits (c := b) hm hi h)
  case refine_47 => exact replies_of does_recordClear hs (withMram_fault hm)
  case refine_48 => exact replies_of does_recordClear hs (recordClear_busy (c := b) hm h)
  case refine_49 => exact starts_of does_recordClear hs (recordClear_starts (c := b) hm h)
  case refine_50 => exact replies_of does_recorderStatus hs (recorderStatus_fault hm)
  case refine_51 => exact replies_of does_recorderStatus hs (recorderStatus_reads (c := b) hm hu hw)
  case refine_52 => exact replies_of does_marchRun hs (marchRun_running h5 h4)
  case refine_53 => exact replies_of does_marchRun hs (marchRun_busy h hb)
  case refine_54 => exact starts_of does_marchRun hs (marchRun_starts h hb)
  case refine_55 => exact replies_of does_prbsRun hs (if_pos h)
  case refine_56 => exact replies_of does_prbsRun hs (prbsRun_time h13 h4 h1 h2 hr h)
  case refine_57 => exact starts_of does_prbsRun hs (prbsRun_starts (c := b) h13 h4 h1 h2 hr hm hm' hb hf hg)
  case refine_58 => exact reads_of does_freezeInfo hs rfl
  case refine_59 => exact reads_of does_freezeResolve hs (freezeResolveCmd_plain h)
  case refine_60 =>
    have hheld : held = (List.range 256).filter fun k => c.fld (MEM_LK k) 4 0 == e.master + 1 := by
      unfold held
      rw [hf]
    rw [hheld]
    exact reads_of does_freezeResolve hs (freezeResolveCmd_locks (c := b) hf hu hn h)
  case refine_61 => exact replies_of does_loopback hs (if_pos h)
  case refine_62 => exact replies_of does_loopback hs (loopback_busy (c := b) hu h0 h3 h)
  case refine_63 => exact starts_of does_loopback hs (loopback_starts (c := b) hu h0 h3 h)

end Sys2Proof
end

section
/-!
PROOF. SEC: fuse operations, session limits and locks, jobs and random words (R439, R454, R455, R458, R461).
-/
namespace Sys2Proof.Machine

variable {c d e g o : Chip} {m slot role op k n s a : Nat} {v : W32}

/-! ### Sessions and locks -/

theorem sessionTimeout_none (h : c.session slot = none) : sessionTimeout c slot = c := by
  unfold sessionTimeout
  rw [h]

section
variable {x : Session} (hx : c.session slot = some x)
include hx

theorem sessionTimeout_inTime (h : x.proven = true ∨ c.tmu.raw ≤ x.openedAt + 1000000000) : sessionTimeout c slot = c := by
  unfold sessionTimeout
  rw [hx]
  refine if_neg fun ⟨hp, ht⟩ => h.elim (fun g => ?_) fun g => ?_
  · rw [g] at hp
    cases hp
  · omega

theorem sessionTimeout_over (hp : x.proven = false) (ht : x.openedAt + 1000000000 < c.tmu.raw) :
    sessionTimeout c slot = (c.setSession slot none).failedProof x.role := by
  unfold sessionTimeout
  rw [hx]
  exact if_pos ⟨congrArg not hp, ht⟩

end

theorem failedProof_counts (h : tblGet 0 c.sec.fails role + 1 < 5) : c.failedProof role =
    { c with sec := { c.sec with fails := tblSet 0 c.sec.fails role (tblGet 0 c.sec.fails role + 1) } } := if_pos h

theorem failedProof_locks (h : 5 ≤ tblGet 0 c.sec.fails role + 1) : c.failedProof role =
    ({ c with sec := { c.sec with
      fails := tblSet 0 c.sec.fails role (tblGet 0 c.sec.fails role + 1),
      locks := tblSet none c.sec.locks role (some ((c.reg EVR_OPSEC).toNat +
        min 3600 (10 * 2 ^ min (tblGet 0 c.sec.fails role + 1 - 5) 9))) } } : Chip).raise 19 0 := if_neg (Nat.not_lt.2 h)

theorem roleLockExpiry_unlocked (h : tblGet none c.sec.locks role = none) : roleLockExpiry c role = c := by
  unfold roleLockExpiry
  rw [h]

theorem roleLockExpiry_locked {t : Nat} (h : tblGet none c.sec.locks role = some t) : roleLockExpiry c role =
    if t ≤ (c.reg EVR_OPSEC).toNat then { c with sec := { c.sec with locks := tblSet none c.sec.locks role none } } else c := by
  unfold roleLockExpiry
  rw [h]

/-! ### The word that starts a fuse operation -/

/-- A command word with its OP and GO. -/
def fuseWord (v : W32) (op : Nat) : W32 := wsetFld v 27 24 op ||| 0x80000000

theorem wsetBit_top_false (w : W32) : wsetBit (w ||| 0x80000000) 31 false = w &&& 0x7FFFFFFF := by
  refine BitVec.eq_of_getLsbD_eq fun i hi => ?_
  change wbit (wsetBit (w ||| 0x80000000) 31 false) i = wbit (w &&& 0x7FFFFFFF) i
  rw [wbit_wsetBit _ _ _ _ (by decide), wbit_or, wbit_and]
  by_cases h : i = 31
  · rw [if_pos h, h]
    exact (Bool.and_false _).symm
  · have hm : ∀ i, i < 31 → wbit (0x80000000 : W32) i = false ∧ wbit (0x7FFFFFFF : W32) i = true := by decide
    obtain ⟨h0, h1⟩ := hm i (by omega)
    rw [if_neg h, h0, h1, Bool.or_false, Bool.and_true]

theorem wfld_or_top (w : W32) {hi lo : Nat} (h : hi < 31) : wfld (w ||| 0x80000000) hi lo = wfld w hi lo := by
  refine wfld_congr fun i _ hi => wbit_or_of_not_right ?_
  have hm : ∀ i, i < 31 → wbit (0x80000000 : W32) i = false := by decide
  exact hm i (by omega)

theorem wfld_fuseWord_below {hi lo : Nat} (h : hi < 24) : wfld (fuseWord v op) hi lo = wfld v hi lo :=
  (wfld_or_top _ (by omega)).trans (wfld_wsetFld_below _ _ _ _ _ _ (by decide) (by decide) h)

theorem wfld_fuseWord_op (h : op < 16) : wfld (fuseWord v op) 27 24 = op :=
  ((wfld_or_top _ (by decide)).trans (wfld_wsetFld _ _ _ _ (by decide) (by decide))).trans (Nat.mod_eq_of_lt h)

theorem wbit_fuseWord_root : wbit (fuseWord v op) 8 = wbit v 8 := by
  rw [wbit_eq_wfld, wfld_fuseWord_below (by decide), ← wbit_eq_wfld]

theorem wbit_fuseWord_go : wbit (fuseWord v op) 31 = true := wbit_or_of_right rfl

/-! ### Fuse operations -/

/-- FPROG with a new command but without GO, and with DONE cleared. -/
def Chip.fuseKept (c : Chip) (m : Nat) (v : W32) (op : Nat) : Chip :=
  c.plainWrite m SEC_FPROG (wsetFld v 27 24 op &&& 0x7FFFFFFF)

def Chip.fuseStored (c : Chip) (m : Nat) (v : W32) (op : Nat) : Chip := (c.fuseKept m v op).setBit SEC_FPROG 29 false

/-- An operation is BUSY, with the RESULT it will end with. -/
def Chip.fuseBegun (c : Chip) (op r slot : Nat) : Chip :=
  let d := c.setBit SEC_FPROG 30 true
  { d with sec := { d.sec with fuseOp := some ⟨op, r, slot⟩ } }

theorem fprogWrite_refused (h : m ≠ 0) : fprogWrite c m v = c.refuse := if_pos h

theorem fprogWrite_busy (hm : m = 0) (h : c.sec.fuseOp ≠ none) : fprogWrite c m (fuseWord v op) = c.fuseKept m v op := by
  have hgo : ¬(!wbit (fuseWord v op) 31) = true := not_true_of_eq_false (congrArg not wbit_fuseWord_go)
  refine (if_neg (not_not_intro hm)).trans ((if_neg hgo).trans ((if_pos (Option.isSome_iff_ne_none.2 h)).trans ?_))
  exact congrArg (c.plainWrite m SEC_FPROG) (wsetBit_top_false _)

/-- What GO starts in the device whose FPROG holds the command `w`. -/
def Chip.fuseGo (c : Chip) (w : W32) : Chip :=
  let (r, d) := c.fuseRun (wfld w 27 24) (wbit w 8) (wfld w 1 0) (wfld w 5 4)
  { d.setBit SEC_FPROG 30 true with sec := { d.sec with fuseOp := some ⟨wfld w 27 24, r, wfld w 1 0⟩ } }

theorem fuseGo_begins {r : Nat} {w : W32} (hop : wfld w 27 24 = op) (hs : wfld w 1 0 = slot)
    (h : c.fuseRun op (wbit w 8) slot (wfld w 5 4) = (r, d)) : c.fuseGo w = d.fuseBegun op r slot := by
  subst hop hs
  unfold Chip.fuseGo Chip.fuseBegun
  rw [h]
  dsimp only
  rw [Chip.setBit_sec]

theorem fprogWrite_go {w : W32} (hm : m = 0) (hw : wbit w 31 = true) (h : c.sec.fuseOp = none) :
    fprogWrite c m w = ((c.plainWrite m SEC_FPROG (wsetBit w 31 false)).setBit SEC_FPROG 29 false).fuseGo w := by
  have hidle : ¬c.sec.fuseOp.isSome = true := by
    rw [h]
    exact Bool.false_ne_true
  exact (if_neg (not_not_intro hm)).trans ((if_neg (not_true_of_eq_false (congrArg not hw))).trans (if_neg hidle))

theorem fprogWrite_begins {r : Nat} (hm : m = 0) (h : c.sec.fuseOp = none) (hop : op < 16)
    (hr : (c.fuseStored m v op).fuseRun op (wbit v 8) (wfld v 1 0) (wfld v 5 4) = (r, d)) :
    fprogWrite c m (fuseWord v op) = d.fuseBegun op r (wfld v 1 0) := by
  have hstored : (c.plainWrite m SEC_FPROG (wsetBit (fuseWord v op) 31 false)).setBit SEC_FPROG 29 false =
      c.fuseStored m v op := congrArg (fun w => (c.plainWrite m SEC_FPROG w).setBit SEC_FPROG 29 false) (wsetBit_top_false _)
  have hbit : wfld (fuseWord v op) 5 4 = wfld v 5 4 := wfld_fuseWord_below (by decide)
  rw [fprogWrite_go hm wbit_fuseWord_go h, hstored]
  exact fuseGo_begins (wfld_fuseWord_op hop) (wfld_fuseWord_below (by decide)) (by rwa [wbit_fuseWord_root, hbit])

/-- The command word writes its own register and nothing else. -/
theorem fuseStored_writes (hm : m = 0) : ∃ w, c.fuseStored m v op = ((c.setReg SEC_FPROG w).done).setBit SEC_FPROG 29 false := by
  have hrow : regRow SEC_FPROG = some ⟨0x40100020, 1, 0, 1, 0, 0, 0, 0x8F000133, 0, 0, 0, 0x600F0000, [], false⟩ := rfl
  refine ⟨_, congrArg (fun d : Chip => d.setBit SEC_FPROG 29 false) (Chip.plainWrite_row hrow rfl rfl (.inr hm))⟩

theorem fuseStored_sec (hm : m = 0) : (c.fuseStored m v op).sec = c.sec := by
  obtain ⟨w, h⟩ := fuseStored_writes (c := c) (v := v) (op := op) hm
  rw [h, Chip.setBit_sec, Chip.done_sec, Chip.setReg_sec]

theorem fuseStored_reg (hm : m = 0) (h : a ≠ SEC_FPROG) : (c.fuseStored m v op).reg a = c.reg a := by
  obtain ⟨w, hw⟩ := fuseStored_writes (c := c) (v := v) (op := op) hm
  rw [hw]
  exact (Chip.reg_setReg_other _ _ h).trans (Chip.reg_setReg_other _ _ h)

theorem fuseStored_state (hm : m = 0) : (c.fuseStored m v op).sysState = c.sysState :=
  congrArg (fun w => wfld w 2 0) (fuseStored_reg hm (by decide))

theorem fuseStored_fdata (hm : m = 0) : (c.fuseStored m v op).fdata = c.fdata := by
  unfold Chip.fdata
  refine congrArg (fun f : Nat → List Byte => (List.range 12).flatMap f) (funext fun i => ?_)
  rw [fuseStored_reg hm (by unfold SEC_FDATA SEC_FPROG; omega)]

section
variable {root : Bool} {pbit : Nat}

theorem fuseRun_read : c.fuseRun 1 root slot pbit = (0, c.setFdata (c.rootDigest root slot)) := rfl

theorem fuseRun_state (h : c.sysState ≠ 3) (hop : op = 2 ∨ op = 3 ∨ op = 5) : c.fuseRun op root slot pbit = (1, c) := by
  obtain rfl | rfl | rfl := hop
  · exact if_pos h
  · exact if_pos h
  · exact if_pos h

variable (h3 : c.sysState = 3)
include h3

theorem fuseRun_programRefused (h : root = false ∨ tblGet [] c.sec.fuses.owner slot ≠ []) :
    c.fuseRun 2 root slot pbit = (2, c) := by
  refine (if_neg (not_not_intro h3)).trans (if_pos (h.imp_right fun hn => ?_))
  rw [Bool.not_eq_true', List.isEmpty_eq_false_iff]
  exact hn

theorem fuseRun_programs (hr : root = true) (h : tblGet [] c.sec.fuses.owner slot = []) : c.fuseRun 2 root slot pbit =
    (0, c.setFuses { c.sec.fuses with owner := tblSet [] c.sec.fuses.owner slot c.fdata }) := by
  have hempty : (c.rootDigest true slot).isEmpty = true := List.isEmpty_iff.2 h
  refine (if_neg (not_not_intro h3)).trans (if_neg ?_)
  rw [hr, hempty]
  decide

omit h3 in
/-- A vendor root is left when a slot is revoked. -/
theorem rootLeft_iff : ((List.range 4).any fun s => (c.setFuses (c.sec.fuses.revoke root slot)).rootLive false s) = true ↔
    ∃ s, s < 4 ∧ tblGet [] c.sec.fuses.vendor s ≠ [] ∧
      (c.sec.fuses.revoked ||| BitVec.ofNat 8 (2 ^ (b2n root * 4 + slot))).getLsbD s = false := by
  have hlive (s : Nat) : (c.setFuses (c.sec.fuses.revoke root slot)).rootLive false s = true ↔
      tblGet [] c.sec.fuses.vendor s ≠ [] ∧
        (c.sec.fuses.revoked ||| BitVec.ofNat 8 (2 ^ (b2n root * 4 + slot))).getLsbD s = false := by
    have hs : b2n false * 4 + s = s := by rw [show b2n false * 4 = 0 from rfl, Nat.zero_add]
    unfold Chip.rootLive Chip.rootRevoked
    rw [hs, Bool.and_eq_true, Bool.not_eq_true', Bool.not_eq_true', List.isEmpty_eq_false_iff]
    exact Iff.rfl
  rw [List.any_eq_true]
  constructor
  · rintro ⟨s, hs, hl⟩
    exact ⟨s, List.mem_range.1 hs, (hlive s).1 hl⟩
  · rintro ⟨s, hs, hl⟩
    exact ⟨s, List.mem_range.2 hs, (hlive s).2 hl⟩

theorem fuseRun_lastRoot (h : ¬∃ s, s < 4 ∧ tblGet [] c.sec.fuses.vendor s ≠ [] ∧
    (c.sec.fuses.revoked ||| BitVec.ofNat 8 (2 ^ (b2n root * 4 + slot))).getLsbD s = false) :
    c.fuseRun 3 root slot pbit = (3, c) := (if_neg (not_not_intro h3)).trans (if_neg fun g => h (rootLeft_iff.1 g))

theorem fuseRun_revokes (h : ∃ s, s < 4 ∧ tblGet [] c.sec.fuses.vendor s ≠ [] ∧
    (c.sec.fuses.revoked ||| BitVec.ofNat 8 (2 ^ (b2n root * 4 + slot))).getLsbD s = false) :
    c.fuseRun 3 root slot pbit = (0, c.setFuses (c.sec.fuses.revoke root slot)) :=
  (if_neg (not_not_intro h3)).trans (if_pos (rootLeft_iff.2 h))

theorem fuseRun_ownCode (h : pbit = 0) : c.fuseRun 5 root slot pbit = (0, c.setFuses { c.sec.fuses with ownCode := true }) := by
  subst h
  exact if_neg (not_not_intro h3)

theorem fuseRun_lockDbg (h : pbit = 1) : c.fuseRun 5 root slot pbit = (0, c.setFuses { c.sec.fuses with lockDbg := true }) := by
  subst h
  exact if_neg (not_not_intro h3)

end

/-- An operation is over with its RESULT. -/
def Chip.fuseOver (c : Chip) (r : Nat) : Chip :=
  (((c.setBit SEC_FPROG 30 false).setBit SEC_FPROG 29 true).setFld SEC_FPROG 19 16 r).raise 20 0

theorem fuseOpDone_idle {b : Bool} (h : c.sec.fuseOp = none) : fuseOpDone c b = c := by
  unfold fuseOpDone
  rw [h]

section
variable {q : FuseOp} {b : Bool} (hq : c.sec.fuseOp = some q)
include hq

theorem fuseOpDone_over (h : q.op ≠ 2 ∨ q.result ≠ 0 ∨ b = true) : fuseOpDone c b =
    ({ c with sec := { c.sec with fuseOp := none } } : Chip).fuseOver q.result := by
  have hgood : (q.op == 2 && q.result == 0 && !b) = false := by
    rw [Bool.eq_false_iff]
    intro g
    rw [Bool.and_eq_true, Bool.and_eq_true, beq_iff_eq, beq_iff_eq, Bool.not_eq_true'] at g
    obtain ⟨⟨hop, hres⟩, hb⟩ := g
    exact h.elim (fun f => f hop) fun f => f.elim (fun f => f hres) (not_true_of_eq_false hb)
  unfold fuseOpDone
  rw [hq]
  dsimp only
  rw [hgood]
  rfl

theorem fuseOpDone_unburnt (hop : q.op = 2) (hres : q.result = 0) (hb : b = false) : fuseOpDone c b =
    ({ c with sec := { c.sec with fuseOp := none, fuses := c.sec.fuses.revoke true q.slot } } : Chip).fuseOver 4 := by
  have hbad : (q.op == 2 && q.result == 0 && !b) = true := by
    rw [hop, hres, hb]
    rfl
  unfold fuseOpDone
  rw [hq]
  dsimp only
  rw [hbad]
  rfl

end

/-! ### Jobs -/

theorem jobCtlWrite_go : jobCtlWrite c 0 1 = if c.sec.job.isSome then (c.flag SEC_EVCAUSE 1 17).done
    else (c.setJob (some ⟨c.fld SEC_JOB_DESC 31 5 * 32, false, none⟩)).done :=
  (if_neg (not_not_intro rfl)).trans (if_neg (by decide))

theorem jobCtlWrite_busy (h : c.sec.job ≠ none) : jobCtlWrite c 0 1 = (c.flag SEC_EVCAUSE 1 17).done :=
  jobCtlWrite_go.trans (if_pos (Option.isSome_iff_ne_none.2 h))

theorem jobCtlWrite_starts (h : c.sec.job = none) :
    jobCtlWrite c 0 1 = (c.setJob (some ⟨c.fld SEC_JOB_DESC 31 5 * 32, false, none⟩)).done := by
  have hidle : ¬c.sec.job.isSome = true := by
    rw [h]
    exact Bool.false_ne_true
  exact jobCtlWrite_go.trans (if_neg hidle)

theorem secJobDone_idle (h : c.sec.job = none) : secJobDone c = c := by
  unfold secJobDone
  rw [h]

/-- SEC with another job, its BUSY bit with it. -/
theorem setJob_eq {j : Option SecJob} : c.setJob j = (let d := c.setBit SEC_JOB_STAT 31 j.isSome
    { d with sec := { d.sec with job := j } }) := by
  unfold Chip.setJob
  dsimp only
  rw [Chip.setBit_sec]

theorem jobOver_eq {st : Nat} : c.jobOver st = (let d := c.setBit SEC_JOB_STAT 31 false
    (({ d with sec := { d.sec with job := none } } : Chip).setFld SEC_JOB_STAT 30 28 st).raise
      (if st = 0 then 16 else 17) 0) :=
  congrArg (fun e : Chip => (e.setFld SEC_JOB_STAT 30 28 st).raise (if st = 0 then 16 else 17) 0) setJob_eq

theorem jobFreeze_eq {j : SecJob} {rwx : Nat} : c.jobFreeze j a n rwx = (let d := c.setBit SEC_JOB_STAT 31 true
    ({ d with sec := { d.sec with job := some { j with frozen := true } } } : Chip).freezeAt 0x10 13 a n rwx) :=
  congrArg (fun e : Chip => e.freezeAt 0x10 13 a n rwx) setJob_eq

/-- A job whose status word was written is over. -/
theorem jobEnd_over {j : SecJob} {st : Nat} (hn : n < 2 ^ 24)
    (h : c.dmaWrite 13 (j.desc + 28) (leBytes 4 (2 ^ 31 + at_ st 28 + n)) = (none, d)) :
    c.jobEnd j st n = (let e := d.setBit SEC_JOB_STAT 31 false
      (({ e with sec := { e.sec with job := none } } : Chip).setFld SEC_JOB_STAT 30 28 st).raise
        (if st = 0 then 16 else 17) 0) := by
  have hword : jobWord st n = leBytes 4 (2 ^ 31 + at_ st 28 + n) := by
    unfold jobWord
    rw [Nat.mod_eq_of_lt hn]
  unfold Chip.jobEnd
  rw [hword, h]
  exact jobOver_eq

/-- Word `i` of a job's descriptor. -/
def jobDescWord (bs : List Byte) (i : Nat) : Nat := leNat (bytesAt bs (4 * i) 4)

section
variable {j : SecJob} {bs : List Byte} (hj : c.sec.job = some j) (hf : j.frozen = false) (hl : c.secLoadFrozen = false)
  (hp : j.pend = none)
include hj hf hl hp

theorem secJobDone_freezes (hr : c.readSpan 13 j.desc 32 = (.error (.seg, a, n), d)) : secJobDone c = d.jobFreeze j a n 1 := by
  unfold secJobDone
  rw [hj]
  dsimp only
  rw [hf, hl, hp, hr]
  rfl

variable (hr : c.readSpan 13 j.desc 32 = (.ok bs, d))
include hr

theorem secJobDone_unlisted (h : jobListed (nfld (jobDescWord bs 0) 31 24) = false) : secJobDone c = d.jobEnd j 2 0 := by
  unfold secJobDone
  rw [hj]
  dsimp only
  rw [hf, hl, hp, hr]
  dsimp only
  unfold jobDescWord at h
  rw [h]
  rfl

/-- A SHA-384 job with no key. -/
theorem secJobDone_sha384 {inp aux : List Byte} (hop : nfld (jobDescWord bs 0) 31 24 = 2)
    (hkey : nfld (jobDescWord bs 0) 17 16 = 0)
    (hin : d.readSpan 13 (jobDescWord bs 1) (jobDescWord bs 2) = (.ok inp, e))
    (haux : e.readSpan 13 (jobDescWord bs 5) (jobDescWord bs 6) = (.ok aux, g)) :
    secJobDone c = Chip.jobFinish j ⟨0, sha384 inp, g⟩ (jobDescWord bs 3) (jobDescWord bs 4) := by
  have hok : (!jobListed 2 || !jobKeyOk 2 0) = false := by decide
  unfold jobDescWord at hop hkey hin haux
  unfold secJobDone
  rw [hj]
  dsimp only
  rw [hf, hl, hp, hr]
  dsimp only
  rw [hop, hkey, hok, hin]
  dsimp only
  rw [haux]
  rfl

end

theorem jobFinish_noRoom {j : SecJob} {bs : List Byte} (h : n < bs.length) :
    Chip.jobFinish j ⟨0, bs, c⟩ a n = c.jobEnd j 4 0 := (if_neg (not_not_intro rfl)).trans (if_pos h)

theorem jobFinish_writes {j : SecJob} {bs : List Byte} (h : bs.length ≤ n) (hw : c.writeSpan 13 a bs = (none, d)) :
    Chip.jobFinish j ⟨0, bs, c⟩ a n = d.jobEnd j 0 bs.length := by
  refine (if_neg (not_not_intro rfl)).trans ((if_neg (Nat.not_lt.2 h)).trans ?_)
  unfold Chip.jobOut
  rw [hw]

/-! ### Random words -/

theorem trngRead_empty (h : c.sec.trng = []) : trngRead c = (0, c.setBit SEC_EVCAUSE 3 true) := by
  unfold trngRead
  rw [h]

theorem trngRead_word {w : W32} {ws : List W32} (h : c.sec.trng = w :: ws) : trngRead c = (w, c.setTrng ws) := by
  unfold trngRead
  rw [h]

theorem trngCtlWrite_restarts : trngCtlWrite c 0 1 = (c.setBit SEC_TRNG_STAT 31 false).done :=
  (if_neg (not_not_intro rfl)).trans (congrArg Chip.done (if_pos (by decide)))

theorem trngDeliver_stores {w : W32} (hs : c.bit SEC_TRNG_STAT 31 = false) (hn : c.sec.trng.length < 16) :
    trngDeliver c w = c.setTrng (c.sec.trng ++ [w]) :=
  if_neg (not_or.2 ⟨not_true_of_eq_false hs, Nat.not_le.2 hn⟩)

end Sys2Proof.Machine

namespace Sys2Proof
open Machine

/-- Settles O55: sessions, locks, fuses, jobs and random words. That a session is destroyed strictly beyond 1 s is the
model's choice (log entry 22). -/
theorem fusesSessionsAndRandomWords : Obligations.FusesSessionsAndRandomWords := by
  unfold Obligations.FusesSessionsAndRandomWords
  intro m v w slot role readBack c sec ends f root k kept stored begun burnt digest gone left free
  have hfuse {op : Nat} {d : Chip} (g : fprogWrite c m.val (fuseWord v op) = d) :
      regWrite c m.val SEC_FPROG (wsetFld v 27 24 op ||| 0x80000000) = d := regWrite_SEC_FPROG.trans g
  have hgo {d : Chip} (g : jobCtlWrite c 0 1 = d) : Does .secJobGo c d := does_secJobGo (regWrite_SEC_JOB_CTL.trans g)
  have hsec {op : Nat} (hm : m.val = 0) : (c.fuseStored m.val v op).sec = c.sec := fuseStored_sec hm
  have hruns {op r : Nat} {d : Chip} (h : free) (hop : op < 16)
      (hr : (c.fuseStored m.val v op).fuseRun op (wbit v 8) (wfld v 1 0) (wfld v 5 4) = (r, d)) :
      regWrite c m.val SEC_FPROG (wsetFld v 27 24 op ||| 0x80000000) = d.fuseBegun op r (wfld v 1 0) :=
    hfuse (fprogWrite_begins h.1 h.2 hop hr)
  refine ⟨fun h => does_sessionProofTimeout (sessionTimeout_none h),
    fun x hx => ⟨fun h => does_sessionProofTimeout (sessionTimeout_inTime hx h), fun hp ht => ⟨fun h => ?_, fun h => ?_⟩⟩,
    fun h => does_roleLockExpiry (roleLockExpiry_unlocked h), fun t h => ⟨fun ht => ?_, fun ht => ?_⟩,
    fun h => ?_, fun hm h => ?_, fun h => ?_, fun h hs => ?_, fun h hs => ?_,
    fun h => does_fuseOpDone (fuseOpDone_idle h), fun o ho => ⟨fun h => ?_, fun hop hres hb => ?_⟩,
    fun h => hgo (jobCtlWrite_busy h), fun h => hgo ((jobCtlWrite_starts h).trans (congrArg Chip.done setJob_eq)), fun h => does_secJobDone (secJobDone_idle h),
    fun j d bs hj hf hl hp hr => ?_, fun j a n d hj hf hl hp hr => ?_, fun h => ?_, fun x xs h => ?_,
    does_trngHealthFail rfl, does_trngRestart (regWrite_SEC_TRNG_CTL.trans trngCtlWrite_restarts),
    fun hs hn => does_trngDelivery (trngDeliver_stores hs hn), fun h => does_trngDelivery (if_pos h)⟩
  case refine_1 =>
    exact does_sessionProofTimeout ((sessionTimeout_over hx hp ht).trans (failedProof_counts (c := c.setSession slot.val none) h))
  case refine_2 =>
    exact does_sessionProofTimeout ((sessionTimeout_over hx hp ht).trans (failedProof_locks (c := c.setSession slot.val none) h))
  case refine_3 => exact does_roleLockExpiry ((roleLockExpiry_locked h).trans (if_neg (Nat.not_le.2 ht)))
  case refine_4 => exact does_roleLockExpiry ((roleLockExpiry_locked h).trans (if_pos ht))
  case refine_5 =>
    have hrefused {op : Nat} := hfuse (op := op) (fprogWrite_refused h)
    exact ⟨does_fuseRead hrefused, does_fuseProgram hrefused, does_fuseRevoke hrefused, does_fusePolicy hrefused⟩
  case refine_6 =>
    have hbusy {op : Nat} := hfuse (op := op) (fprogWrite_busy hm h)
    exact ⟨does_fuseRead hbusy, does_fuseProgram hbusy, does_fuseRevoke hbusy, does_fusePolicy hbusy⟩
  case refine_7 =>
    have hdigest : (c.fuseStored m.val v 1).rootDigest root k = digest := by
      unfold Chip.rootDigest
      rw [hsec h.1]
    refine does_fuseRead (hruns h (by decide) (fuseRun_read.trans ?_))
    exact congrArg (fun ds => (0, (c.fuseStored m.val v 1).setFdata ds)) hdigest
  case refine_8 =>
    have hwrong {op : Nat} (hop : op < 16) (hp : op = 2 ∨ op = 3 ∨ op = 5) :=
      hruns h hop (fuseRun_state (by rwa [fuseStored_state h.1]) hp)
    exact ⟨does_fuseProgram (hwrong (by decide) (by decide)), does_fuseRevoke (hwrong (by decide) (by decide)),
      does_fusePolicy (hwrong (by decide) (by decide))⟩
  case refine_9 =>
    have h3 {op : Nat} : (c.fuseStored m.val v op).sysState = 3 := (fuseStored_state h.1).trans hs
    refine ⟨fun hr => ?_, fun hr ho => ?_, fun hl => ?_, fun hl => ?_, fun hp => ?_, fun hp => ?_⟩
    · refine does_fuseProgram (hruns h (by decide) (fuseRun_programRefused h3 ?_))
      rwa [hsec h.1]
    · refine does_fuseProgram (hruns h (by decide) ((fuseRun_programs h3 hr ?_).trans ?_))
      · rwa [hsec h.1]
      · rw [hsec h.1, fuseStored_fdata h.1]
        rfl
    · refine does_fuseRevoke (hruns h (by decide) (fuseRun_lastRoot h3 ?_))
      rwa [hsec h.1]
    · refine does_fuseRevoke (hruns h (by decide) ((fuseRun_revokes h3 ?_).trans ?_))
      · rwa [hsec h.1]
      · rw [hsec h.1]
        rfl
    · refine does_fusePolicy (hruns h (by decide) ((fuseRun_ownCode h3 hp).trans ?_))
      rw [hsec h.1]
      rfl
    · refine does_fusePolicy (hruns h (by decide) ((fuseRun_lockDbg h3 hp).trans ?_))
      rw [hsec h.1]
      rfl
  case refine_10 => exact does_fuseOpDone (fuseOpDone_over ho h)
  case refine_11 => exact does_fuseOpDone (fuseOpDone_unburnt ho hop hres hb)
  case refine_12 =>
    refine ⟨fun h g hg => ?_, fun hop hkey inp aux e e' o g hin haux => ⟨fun h48 hlen hw hg => ?_, fun hlen hg => ?_⟩⟩
    · exact does_secJobDone ((secJobDone_unlisted hj hf hl hp hr h).trans (jobEnd_over (by decide) hg))
    · refine does_secJobDone ((secJobDone_sha384 hj hf hl hp hr hop hkey hin haux).trans ((jobFinish_writes ?_ hw).trans ?_))
      · exact Nat.le_trans (Nat.le_of_eq hlen) h48
      · rw [hlen]
        exact jobEnd_over (by decide) hg
    · refine does_secJobDone ((secJobDone_sha384 hj hf hl hp hr hop hkey hin haux).trans ((jobFinish_noRoom hlen).trans ?_))
      exact jobEnd_over (by decide) hg
  case refine_13 => exact does_secJobDone ((secJobDone_freezes hj hf hl hp hr).trans jobFreeze_eq)
  case refine_14 =>
    refine does_trngRead (regRead_SEC_TRNG_DATA.trans ?_)
    rw [trngRead_empty h]
    rfl
  case refine_15 =>
    refine does_trngRead (regRead_SEC_TRNG_DATA.trans ?_)
    rw [trngRead_word h]
    rfl

end Sys2Proof
end

section
/-!
PROOF. The event recorder: where a record goes and what becomes of it, submission, clearing, the scan at RESET, and the
operating seconds (R463 to R467).
-/
namespace Sys2Proof.Machine

variable {c d e : Chip} {n k sev : Nat} {r : EvrRec} {ok mram : Bool} {v : W32}

/-! ### Slots -/

/-- A slot holds a record: its marker, its lines and its CRC are good (R464). -/
def EvrHolds (c : Chip) (n : Nat) : Prop :=
  c.byte (evrSlot n + 56) = 0xA5 ∧ c.readable (evrSlot n) 64 = true ∧
    crc32c (c.bytes (evrSlot n) 60) = (c.word (evrSlot n + 60)).toNat

theorem evrHeld_iff : c.evrHeld n = true ↔ EvrHolds c n := by
  unfold Chip.evrHeld EvrHolds
  rw [Bool.and_eq_true, Bool.and_eq_true, beq_iff_eq, beq_iff_eq, and_assoc]

theorem evrHeld_false (h : ¬EvrHolds c n) : c.evrHeld n = false := Bool.eq_false_iff.2 fun g => h (evrHeld_iff.1 g)

/-- The lowest slot that holds no record takes the next one. -/
theorem evrPlace_free (hn : n < 4096) (hfree : ¬EvrHolds c n) (hlow : ∀ j, j < n → EvrHolds c j) :
    c.evrPlace sev = some n := by
  have hfind : ((List.range 4096).find? fun k => !c.evrHeld k) = some n := by
    refine List.find?_range_eq_some.2 ⟨congrArg not (evrHeld_false hfree), List.mem_range.2 hn, fun j hj => ?_⟩
    rw [evrHeld_iff.2 (hlow j hj)]
    rfl
  unfold Chip.evrPlace
  rw [hfind]

/-- With every slot taken, the oldest held record that is not more severe gives way. -/
theorem evrPlace_taken (h : ∀ j, j < 4096 → EvrHolds c j) : c.evrPlace sev =
    ((oldestFirst c.heldRecs).find? fun r => decide (r.sev ≤ sev)).map HeldRec.slot := by
  have hfind : ((List.range 4096).find? fun k => !c.evrHeld k) = none := by
    refine List.find?_eq_none.2 fun j hj => ?_
    rw [evrHeld_iff.2 (h j (List.mem_range.1 hj))]
    exact Bool.false_ne_true
  unfold Chip.evrPlace
  rw [hfind]

theorem evrPlace_none (h : ∀ j, j < 4096 → EvrHolds c j) (hs : ∀ q ∈ oldestFirst c.heldRecs, sev < q.sev) :
    c.evrPlace sev = none := by
  rw [evrPlace_taken h, Option.map_eq_none_iff, List.find?_eq_none]
  intro q hq
  rw [decide_eq_true_iff]
  exact Nat.not_le.2 (hs q hq)

theorem evrTorn_eq : c.evrTorn n = (c.byte (evrSlot n + 56) != 0 &&
    (c.byte (evrSlot n + 56) != 0xA5 || !c.evrHeld n)) := by
  unfold Chip.evrTorn
  dsimp only
  by_cases h : c.byte (evrSlot n + 56) = 0xA5
  · rw [h]
    cases c.evrHeld n <;> rfl
  · rw [bne_iff_ne.2 h, beq_eq_false_iff_ne.2 h, Bool.true_and, Bool.false_and, Bool.or_false, Bool.true_or, Bool.and_true]

/-- The torn records by any test that says the same of each slot. -/
theorem tornCount_eq {p : Nat → Bool} (h : ∀ n, p n = c.evrTorn n) : c.tornCount = ((List.range 4096).filter p).length := by
  have hp : p = fun k => c.evrTorn k := funext h
  rw [hp]
  rfl

theorem tornTest_eq {i : Decidable (¬EvrHolds c n)} : (c.byte (evrSlot n + 56) != 0 &&
    (c.byte (evrSlot n + 56) != 0xA5 || @decide (¬EvrHolds c n) i)) = c.evrTorn n := by
  have hheld : decide (¬EvrHolds c n) = !c.evrHeld n := by
    rw [Bool.eq_iff_iff, decide_eq_true_iff, ← evrHeld_iff, Bool.not_eq_true, Bool.not_eq_true']
  rw [evrTorn_eq, hheld]

/-! ### A record stored or dropped -/

/-- A record written into slot `n` and held. -/
def Chip.evrStored (c : Chip) (r : EvrRec) (n : Nat) : Chip :=
  let d := (c.mramWrite (evrSlot n + 56) (List.replicate 8 0)).mramWrite (evrSlot n) (evrBytes r c.evr.nextSeq c.opsec c.pcc)
  ({ d with evr := { d.evr with nextSeq := (d.evr.nextSeq + 1) % seqMod } } : Chip).evrCount.evrSave

/-- A record whose read-back in slot `n` failed. -/
def Chip.evrFailed (c : Chip) (r : EvrRec) (n : Nat) : Chip :=
  ((((c.mramWrite (evrSlot n + 56) (List.replicate 8 0)).mramWrite (evrSlot n)
    ((evrBody r c.evr.nextSeq c.opsec c.pcc).take 56)).mramFails).flag EVR_FLAGS 0 23).evrCount

/-- A record that found no slot. -/
def Chip.evrDropped (c : Chip) (r : EvrRec) : Chip := ((c.incSat (EVR_DROP r.sev) 0xFFFFFFFF).raise 23 0).evrSave

@[simp] theorem length_leBytes (n x : Nat) : (leBytes n x).length = n := by
  induction n generalizing x with
  | zero => rfl
  | succ n ih =>
    unfold leBytes
    rw [List.length_cons, ih]

@[simp] theorem length_bytesAt (bs : List Byte) (i n : Nat) : (bytesAt bs i n).length = n := by
  unfold bytesAt
  rw [List.length_map, List.length_range]

theorem length_evrBody (r : EvrRec) (s o p : Nat) : (evrBody r s o p).length = 60 := by
  unfold evrBody
  simp only [List.length_append, length_leBytes, length_bytesAt, List.length_cons, List.length_nil]

/-- The first 56 bytes of a record end before its CRC. -/
theorem evrBytes_take (r : EvrRec) (s o p : Nat) : (evrBytes r s o p).take 56 = (evrBody r s o p).take 56 := by
  unfold evrBytes
  refine List.take_append_of_le_length ?_
  rw [length_evrBody]
  decide

theorem evrPut_stored (h : c.evrPlace r.sev = some n) : c.evrPut r true = (some c.evr.nextSeq, c.evrStored r n) := by
  unfold Chip.evrPut
  rw [h]
  rfl

theorem evrPut_failed (h : c.evrPlace r.sev = some n) : c.evrPut r false = (none, c.evrFailed r n) := by
  unfold Chip.evrPut Chip.evrFailed
  rw [h, ← evrBytes_take]
  rfl

theorem evrPut_dropped (h : c.evrPlace r.sev = none) : c.evrPut r ok = (none, c.evrDropped r) := by
  unfold Chip.evrPut
  rw [h]
  rfl

/-- Slot `n` takes a record of a severity. -/
def EvrFits (c : Chip) (sev n : Nat) : Prop :=
  (¬EvrHolds c n ∧ n < 4096 ∧ ∀ j, j < n → EvrHolds c j) ∨
    ((∀ j, j < 4096 → EvrHolds c j) ∧
      ((oldestFirst c.heldRecs).find? fun r => decide (r.sev ≤ sev)).map HeldRec.slot = some n)

theorem evrPlace_fits (h : EvrFits c sev n) : c.evrPlace sev = some n := by
  obtain ⟨hfree, hn, hlow⟩ | ⟨hall, hslot⟩ := h
  · exact evrPlace_free hn hfree hlow
  · exact (evrPlace_taken hall).trans hslot

/-- What becomes of a record: `g` of its sequence, or of 0xFFFFFFFF, and of the device it leaves. -/
theorem evrPut_ends {goes : Chip → Prop} {g : Nat → Chip → Chip}
    (h : ∀ q e, d.evrPut r ok = (q, e) → goes (g (q.getD 0xFFFFFFFF) e)) :
    (∀ n, EvrFits d r.sev n → ok = true → goes (g d.evr.nextSeq (d.evrStored r n))) ∧
      (∀ n, EvrFits d r.sev n → ok = false → goes (g 0xFFFFFFFF (d.evrFailed r n))) ∧
      (((∀ j, j < 4096 → EvrHolds d j) ∧ ∀ q ∈ oldestFirst d.heldRecs, r.sev < q.sev) → goes (g 0xFFFFFFFF (d.evrDropped r))) := by
  refine ⟨fun n hn hok => ?_, fun n hn hok => ?_, fun ⟨hall, hsev⟩ => ?_⟩
  · subst hok
    exact h _ _ (evrPut_stored (evrPlace_fits hn))
  · subst hok
    exact h _ _ (evrPut_failed (evrPlace_fits hn))
  · exact h _ _ (evrPut_dropped (evrPlace_none hall hsev))

/-! ### Submission and clearing -/

theorem evrCtlWrite_busy (h : c.evr.op ≠ none) (hv : wbit v 31 = true ∨ wbit v 30 = true) :
    evrCtlWrite c 0 v = (c.flag EVR_FLAGS 1 23).done := by
  have hgo : ¬(!wbit v 31 && !wbit v 30) = true := by
    rw [Bool.and_eq_true, Bool.not_eq_true', Bool.not_eq_true']
    rintro ⟨h31, h30⟩
    exact hv.elim (not_true_of_eq_false h31) (not_true_of_eq_false h30)
  exact (if_neg (not_not_intro rfl)).trans ((if_neg hgo).trans (if_pos (Option.isSome_iff_ne_none.2 h)))

section
variable (h : c.evr.op = none)
include h

theorem evrCtlWrite_store : evrCtlWrite c 0 0x80000000 = (c.setEvrOp (some (.store c.submitted))).done := by
  have hidle : ¬c.evr.op.isSome = true := by
    rw [h]
    exact Bool.false_ne_true
  exact (if_neg (not_not_intro rfl)).trans ((if_neg (by decide)).trans (if_neg hidle))

theorem evrCtlWrite_clear : evrCtlWrite c 0 0x40000000 = (c.setEvrOp (some .clear)).done := by
  have hidle : ¬c.evr.op.isSome = true := by
    rw [h]
    exact Bool.false_ne_true
  exact (if_neg (not_not_intro rfl)).trans ((if_neg (by decide)).trans (if_neg hidle))

end

theorem recordStoreDone_other (h : ∀ r, c.evr.op ≠ some (.store r)) : recordStoreDone c ok = c := by
  unfold recordStoreDone
  split
  next r hr => exact absurd hr (h r)
  next => rfl

theorem recordStoreDone_put {q : Option Nat} (h : c.evr.op = some (.store r)) (hp : (c.setEvrOp none).evrPut r ok = (q, e)) :
    recordStoreDone c ok = e.setReg EVR_SUB_RESULT (w32 (q.getD 0xFFFFFFFF)) := by
  unfold recordStoreDone
  rw [h]
  dsimp only
  rw [hp]

theorem recorderClearDone_put {q : Option Nat} (h : c.evr.op = some .clear)
    (hp : (c.setEvrOp none).evrCleared.evrPut ⟨6, 0x0202, 2, []⟩ ok = (q, e)) : recorderClearDone c ok = e :=
  (if_pos h).trans (congrArg Prod.snd hp)

/-! ### The scan at RESET -/

theorem recorderScanDone_other (h : c.evr.op ≠ some .scan) : recorderScanDone c mram ok = c := by
  unfold recorderScanDone
  split
  next hs => exact absurd hs h
  next => rfl

/-- MRAM read and the counters loaded. -/
def Chip.evrRead (c : Chip) (mram : Bool) : Chip :=
  ((((c.setEvrOp none).setBit MEM_STAT 0 mram).mramRead 0x20001000 128).mramRead (evrSlot 0) 0x40000).loadCounters

/-- The next sequence number past the newest record and the counter block's (R466). -/
def Chip.evrSequenced (c : Chip) : Chip :=
  let n := ((c.reg EVR_NEWSEQ).toNat + 1) % 2 ^ 31
  { c with evr := { c.evr with nextSeq := if seqLater c.evr.nextSeq n then c.evr.nextSeq else n } }

/-- A power cycle counted. -/
def Chip.evrCycled (c : Chip) : Chip :=
  if c.pwr.fromOff then (c.setReg EVR_PCC (c.reg EVR_PCC + 1)).evrSave else c

/-- The power-on record (R466). -/
def Chip.powerRecord (c : Chip) : EvrRec :=
  ⟨1, 0x0202, 1, leBytes 4 (c.reg SYS_ID).toNat ++ leBytes 4 c.causeWord.toNat ++ leBytes 4 (c.reg EVR_TORN).toNat⟩

section
variable (h : c.evr.op = some .scan) (hs : (c.evrRead mram).evrScanned = d)
include h hs

theorem recorderScanDone_bad (hm : d.bit MEM_STAT 0 = false) : recorderScanDone c mram ok = d := by
  subst hs
  unfold recorderScanDone
  rw [h]
  exact if_neg (not_true_of_eq_false hm)

theorem recorderScanDone_put {q : Option Nat} (hm : d.bit MEM_STAT 0 = true)
    (hp : d.evrCycled.evrPut d.evrCycled.powerRecord ok = (q, e)) : recorderScanDone c mram ok = e := by
  subst hs
  unfold recorderScanDone
  rw [h]
  exact (if_pos hm).trans (congrArg Prod.snd hp)

end

end Sys2Proof.Machine

namespace Sys2Proof
open Machine

/-- Settles O56: the event recorder. That the two copies of the counter block are written in turn and that its
generation counts modulo 2^32 (log entry 201), and that a record whose read-back fails leaves its first 56 bytes written,
are the model's choices. -/
theorem theRecorderFollowsR463ToR467 : Obligations.TheRecorderFollowsR463ToR467 := by
  unfold Obligations.TheRecorderFollowsR463ToR467
  intro ok mram c evr held fit full saved body freed stored failed dropped idle busy ends sub cleared read torn
  refine ⟨fun h => ⟨?_, ?_⟩, fun h => ⟨?_, ?_⟩, fun h => does_recordStoreDone (recordStoreDone_other h), fun r h => ?_,
    fun h => does_recorderClearDone (if_neg h), fun h => ?_, fun h => does_recorderScanDone (recorderScanDone_other h),
    fun h d hd => ?_, fun h2 ht => does_operatingSecondTick (if_pos ⟨h2, ht⟩),
    fun h => does_operatingSecondTick (if_neg ?_)⟩
  · exact does_recordSubmit (regWrite_EVR_SUB_CTL.trans (evrCtlWrite_busy h (by decide)))
  · exact does_recorderClear (regWrite_EVR_SUB_CTL.trans (evrCtlWrite_busy h (by decide)))
  · exact does_recordSubmit (regWrite_EVR_SUB_CTL.trans (evrCtlWrite_store h))
  · exact does_recorderClear (regWrite_EVR_SUB_CTL.trans (evrCtlWrite_clear h))
  · exact evrPut_ends (d := idle) (g := fun n d => d.setReg EVR_SUB_RESULT (w32 n)) fun q e hp =>
      does_recordStoreDone (recordStoreDone_put h hp)
  · have hcleared : cleared = (c.setEvrOp none).evrCleared := by
      dsimp only [cleared, idle, evr, Chip.evrCleared, Chip.clearSlots]
    rw [hcleared]
    exact evrPut_ends (r := ⟨6, 0x0202, 2, []⟩) (g := fun _ d => d) fun q e hp =>
      does_recorderClearDone (recorderClearDone_put h hp)
  · have htorn : torn.length = (c.evrRead mram).tornCount := (tornCount_eq fun n => tornTest_eq).symm
    have hscan : (c.evrRead mram).evrScanned = d.evrSequenced := by
      subst hd
      rw [htorn]
      rfl
    refine ⟨fun hm => does_recorderScanDone (recorderScanDone_bad h hscan hm), fun hm => ?_⟩
    exact evrPut_ends (r := d.evrSequenced.evrCycled.powerRecord) (g := fun _ d => d) fun q e hp =>
      does_recorderScanDone (recorderScanDone_put h hscan hm hp)
  · exact fun ⟨h2, ht⟩ => h.elim (Nat.not_lt.2 h2) (Nat.not_lt.2 ht)

end Sys2Proof
end

section
/-!
PROOF. Supplies, the buck, the board-rail sequencer, power gating, temperature and the PLL (R474 to R484).
-/
namespace Sys2Proof.Machine

variable {c d : Chip} {m k n u mv v33 : Nat} {v : W32} {mram : Bool}

/-! ### The sequencer -/

/-- What the sequencer does from step `k` on: it waits out the delay of the next step in use, or is done. -/
def Chip.seqNext (c : Chip) (k : Nat) : SeqPhase :=
  match (List.range 4).find? fun j => decide (k ≤ j) && c.bit (PWR_SEQ_CFG j) 31 with
  | some j => .delay j
  | none => .done

theorem seqFrom_eq : c.seqFrom k = { c with pwr := { c.pwr with seq := c.seqNext k } } := rfl

/-- Step `k` passes, and the next step in use follows. -/
def Chip.seqPassed (c : Chip) (k : Nat) : Chip :=
  let e := (c.setBit PWR_STAT (8 + k) true).setBit PWR_STAT (16 + k) false
  let f := if k = 0 then e.setBit PWR_STAT 27 false else e
  { f with pwr := { f.pwr with seq := f.seqNext (k + 1) } }

theorem seqPass_eq : c.seqPass k = c.seqPassed k := seqFrom_eq

/-- Step `k` fails: with step 0 the sequence starts over, and after another one it goes on where it waited. -/
def Chip.seqFailed (c : Chip) (k : Nat) : Chip :=
  let e := (c.setBit PWR_STAT (8 + k) false).flag PWR_EVCAUSE 0 2
  if k = 0 then
    let f := (e.setFld PWR_STAT 11 8 0).setBit PWR_STAT 27 true
    { f with pwr := { f.pwr with en := 0, seq := .retry } }
  else
    let f := e.setBit PWR_STAT (16 + k) true
    { f with pwr := { f.pwr with
      en := f.pwr.en &&& ~~~BitVec.ofNat 4 (2 ^ k),
      seq := if c.pwr.seq = .waitPg k then f.seqNext (k + 1) else c.pwr.seq } }

theorem seqFails_eq : c.seqFails k = c.seqFailed k := by
  unfold Chip.seqFails Chip.seqFailed Chip.pwrFlag
  dsimp only
  by_cases hk : k = 0
  · rw [if_pos hk, if_pos hk]
    rfl
  · rw [if_neg hk, if_neg hk]
    by_cases hs : c.pwr.seq = .waitPg k
    · rw [if_pos hs, if_pos (beq_iff_eq.2 hs)]
      rfl
    · have hseq : ((c.setBit PWR_STAT (8 + k) false).flag PWR_EVCAUSE 0 2).pwr.seq = c.pwr.seq := by
        rw [Chip.flag_pwr, Chip.setBit_pwr]
      rw [if_neg hs, if_neg fun h => hs (beq_iff_eq.1 h), ← hseq, Chip.setBit_pwr]
      rfl

theorem seqEnable_other (h : ∀ i, c.pwr.seq ≠ .delay i) : seqEnable c = c := by
  unfold seqEnable
  split
  next i hi => exact absurd hi (h i)
  next => rfl

/-- The enable of a step goes high at the end of its delay. -/
theorem seqEnable_delay (h : c.pwr.seq = .delay k)
    (hd : ({ c with pwr := { c.pwr with en := c.pwr.en ||| BitVec.ofNat 4 (2 ^ k), seq := .waitPg k } } : Chip) = d) :
    seqEnable c = if c.pwr.pg.getLsbD k then d.seqPassed k else d := by
  subst hd
  unfold seqEnable
  rw [h]
  exact ite_congr rfl (fun _ => seqPass_eq) fun _ => rfl

theorem seqPgRise_pass (h : c.pwr.seq = .waitPg k) : seqPgRise c k =
    ({ c with pwr := { c.pwr with pg := c.pwr.pg ||| BitVec.ofNat 4 (2 ^ k) } } : Chip).seqPassed k :=
  (if_pos h).trans seqPass_eq

theorem seqPgFall_fails (h : c.pwr.pg.getLsbD k = true) (he : c.pwr.en.getLsbD k = true) : seqPgFall c k =
    ({ c with pwr := { c.pwr with pg := c.pwr.pg &&& ~~~BitVec.ofNat 4 (2 ^ k) } } : Chip).seqFailed k :=
  (if_pos (Bool.and_eq_true_iff.2 ⟨h, he⟩)).trans seqFails_eq

theorem seqPgFall_unused (h : c.pwr.pg.getLsbD k = false ∨ c.pwr.en.getLsbD k = false) : seqPgFall c k =
    { c with pwr := { c.pwr with pg := c.pwr.pg &&& ~~~BitVec.ofNat 4 (2 ^ k) } } :=
  if_neg (not_true_of_eq_false (Bool.and_eq_false_iff.2 h))

theorem seqCfgWrite_refused (h : m ≠ 0 ∨ c.sysState ≠ 3) : seqCfgWrite c m k v = c.refuse := if_pos h

theorem seqCfgWrite_stores (hm : m = 0) (h3 : c.sysState = 3) {d : Chip} (hd : c.setReg (PWR_SEQ_CFG k) (seqCfgWord v) = d) :
    seqCfgWrite c m k v =
      ((d.mramWrite 0x20001F80 d.seqBytes).mramWrite 0x20001F90 (leBytes 4 (crc32c d.seqBytes))).done := by
  subst hd
  exact if_neg (not_or.2 ⟨not_not_intro hm, not_not_intro h3⟩)

/-! ### Supplies and the buck -/

theorem buckSoftStart_starts (h : c.sysState = 1 ∧ c.pwr.buckDis = false ∧ c.pwr.buckOn = false) (hv : v33 < 16)
    (hd : ({ c with free := c.free + 1, pwr := { c.pwr with buckOn := true } } : Chip) = d) : buckSoftStart c v33 =
      (if c.pwr.fromOff then d.setReg SYS_IOBSTAT (w32 v33) else d).setFld PWR_STAT 2 0
        ((Config.freeValue c.free).toNat % 4 + 1) := by
  have hsense : d.senseBanks v33 = if c.pwr.fromOff then d.setReg SYS_IOBSTAT (w32 v33) else d := by
    subst hd
    unfold Chip.senseBanks
    rw [Nat.mod_eq_of_lt hv]
  refine (if_pos h).trans ?_
  rw [← hsense, ← hd]
  rfl

/-- The device when PGOOD_CORE is high; the banks sense where the board supplies VDD_CORE. -/
def Chip.pgoodHigh (c : Chip) (v33 : Nat) : Chip :=
  let d := c.setBit PWR_STAT 31 true
  if c.pwr.buckDis ∧ c.pwr.fromOff then d.setReg SYS_IOBSTAT (w32 v33) else d

theorem ite_ite_and {α : Type} {p q : Prop} [Decidable p] [Decidable q] (x y : α) :
    (if p then if q then x else y else y) = if p ∧ q then x else y := by
  by_cases hp : p
  · rw [if_pos hp]
    exact ite_congr (propext (and_iff_right hp)).symm (fun _ => rfl) fun _ => rfl
  · rw [if_neg hp, if_neg fun h => hp h.1]

theorem pgoodHigh_eq (hv : v33 < 16) : (if c.pwr.buckDis then (c.setBit PWR_STAT 31 true).senseBanks v33
    else c.setBit PWR_STAT 31 true) = c.pgoodHigh v33 := by
  unfold Chip.senseBanks Chip.pgoodHigh
  dsimp only
  rw [Nat.mod_eq_of_lt hv, Chip.setBit_pwr, ite_ite_and]

section
variable (h : c.sysState = 1 ∧ c.bit PWR_STAT 31 = false ∧ (c.pwr.buckOn = true ∨ c.pwr.buckDis = true)) (hv : v33 < 16)
include h hv

theorem pgoodRise_eq : pgoodRise c v33 mram =
    if c.pwr.fromOff then ((c.pgoodHigh v33).seqLoad mram).seqFrom 0 else c.pgoodHigh v33 := by
  rw [← pgoodHigh_eq hv]
  exact if_pos h

theorem pgoodRise_again (hf : c.pwr.fromOff = false) : pgoodRise c v33 mram = c.pgoodHigh v33 :=
  (pgoodRise_eq h hv).trans (if_neg (not_true_of_eq_false hf))

theorem pgoodRise_first (hf : c.pwr.fromOff = true) : pgoodRise c v33 mram = ((c.pgoodHigh v33).seqLoad mram).seqFrom 0 :=
  (pgoodRise_eq h hv).trans (if_pos hf)

end

/-- The sequencer block in MRAM is good. -/
def SeqBlockGood (c : Chip) (mram : Bool) : Prop :=
  mram = true ∧ c.readable 0x20001F80 20 = true ∧ crc32c (c.bytes 0x20001F80 16) = (c.word 0x20001F90).toNat

theorem seqBlockGood_iff : (mram && (c.readable 0x20001F80 20 && crc32c (c.bytes 0x20001F80 16) ==
    (c.word 0x20001F90).toNat)) = true ↔ SeqBlockGood c mram := by
  unfold SeqBlockGood
  rw [Bool.and_eq_true, Bool.and_eq_true, beq_iff_eq]

theorem seqLoad_good (h : SeqBlockGood c mram) : c.seqLoad mram = (List.range 4).foldl (fun f n =>
    f.setReg (PWR_SEQ_CFG n) (seqCfgWord (c.word (0x20001F80 + 4 * n)))) (c.mramRead 0x20001F80 20) := by
  have hm : (if mram then c.mramRead 0x20001F80 20 else c) = c.mramRead 0x20001F80 20 := if_pos h.1
  refine (if_pos (seqBlockGood_iff.2 h)).trans ?_
  rw [hm]

theorem seqLoad_reset (h : ¬SeqBlockGood c mram) : c.seqLoad mram = ((List.range 4).foldl (fun f n =>
    f.setReg (PWR_SEQ_CFG n) (regReset (PWR_SEQ_CFG n))) (if mram then c.mramRead 0x20001F80 20 else c)).setBit
      PWR_STAT 26 true := if_neg fun g => h (seqBlockGood_iff.1 g)

/-! ### VDD_CORE -/

/-- The VDD_CORE target as it moves at 1 mV/µs (R477). -/
theorem avsTarget_eq : c.avsTarget = if c.pwr.avsMoving = false then c.fld PWR_AVS 9 0
    else if c.pwr.avsFrom ≤ c.fld PWR_AVS 9 0 then min (c.fld PWR_AVS 9 0) (c.pwr.avsFrom + (c.tmu.raw - c.pwr.avsAt) / 1000)
    else max (c.fld PWR_AVS 9 0) (c.pwr.avsFrom - (c.tmu.raw - c.pwr.avsAt) / 1000) := by
  unfold Chip.avsTarget
  dsimp only
  cases c.pwr.avsMoving <;> rfl

theorem avsWrite_refused (hm : m ≠ 0) : avsWrite c m v = c.refuse := if_pos hm

theorem avsWrite_moves (hm : m = 0) : avsWrite c m v =
    ({ c.setReg PWR_AVS (w32 (max 700 (min 850 (wfld v 9 0)) / 5 * 5)) with
      pwr := { c.pwr with avsMoving := !c.pwr.buckDis, avsFrom := c.avsTarget, avsAt := c.tmu.raw } } : Chip).done := by
  refine (if_neg (not_not_intro hm)).trans (congrArg Chip.done ?_)
  unfold Chip.setPwr
  rw [Chip.setReg_pwr]

theorem coreWindowExit_leaves (hb : c.bit PWR_STAT 30 = true) (h : c.avsTarget + 30 < mv ∨ mv + 30 < c.avsTarget) :
    coreWindowExit c mv = ((c.setFld PWR_VMON 15 0 mv).setBit PWR_STAT 30 false).raise 1 0 := if_pos ⟨hb, h⟩

theorem coreWindowExit_stays (h : c.bit PWR_STAT 30 = false ∨ (mv ≤ c.avsTarget + 30 ∧ c.avsTarget ≤ mv + 30)) :
    coreWindowExit c mv = c := by
  refine if_neg fun ⟨hb, hv⟩ => h.elim (fun g => not_true_of_eq_false g hb) fun ⟨h1, h2⟩ => ?_
  omega

section
variable (h1 : mv ≤ c.avsTarget + 30) (h2 : c.avsTarget ≤ mv + 30) {d : Chip}
  (hd : (c.setFld PWR_VMON 15 0 mv).setBit PWR_STAT 30 true = d)
include h1 h2 hd

theorem coreWindowReturn_eq : coreWindowReturn c mv =
    if d.bit PWR_STAT 29 then (d.setBit PWR_STAT 29 false).setBit PWR_STAT 31 true else d := by
  subst hd
  exact if_pos ⟨h1, h2⟩

end

theorem coreWindowReturn_outside (h : c.avsTarget + 30 < mv ∨ mv + 30 < c.avsTarget) : coreWindowReturn c mv = c := by
  refine if_neg fun ⟨h1, h2⟩ => ?_
  omega

theorem avsDone_moving (h : c.pwr.avsMoving = true) :
    avsDone c = ({ c with pwr := { c.pwr with avsMoving := false } } : Chip).flag PWR_EVCAUSE 2 7 := if_pos h

/-- The device with the BUCK_DIS level sampled. -/
def Chip.buckSampled (c : Chip) (b : Bool) : Chip :=
  ({ c with pwr := { c.pwr with buckDis := b } } : Chip).setBit SYS_STRAP 3 b

theorem buckDisChange_low : buckDisChange c false = c.buckSampled false := by
  unfold buckDisChange Chip.setPwr Chip.buckSampled
  exact if_neg Bool.false_ne_true

theorem buckDisChange_high (hd : c.buckSampled true = d) : buckDisChange c true =
    ({ d with pwr := { d.pwr with buckOn := false, avsMoving := false } } : Chip).setFld PWR_STAT 2 0 0 := by
  subst hd
  unfold buckDisChange Chip.setPwr Chip.buckSampled
  exact if_pos rfl

/-! ### Power gating -/

/-- A unit may lose its power. -/
def GateFree (c : Chip) (u : Nat) : Prop :=
  if u < 8 then (c.peState u = 1 ∨ c.peState u = 2)
  else if u < 16 then c.fld (ETH_Pn_CTL (u - 8)) 3 0 = 0
  else ∀ n, n < 8 → c.skEn ((u - 16) * 8 + n) = false

theorem gateFree_iff : c.gateFree u = true ↔ GateFree c u := by
  unfold Chip.gateFree GateFree
  split
  · rw [Bool.or_eq_true, beq_iff_eq, beq_iff_eq]
  · split
    · exact beq_iff_eq
    · rw [List.all_eq_true]
      exact forall_congr' fun n => by rw [List.mem_range, Bool.not_eq_true']

/-- The rail of a unit has not failed. -/
def RailGood (c : Chip) (u : Nat) : Prop :=
  (8 ≤ u → u < 12 → c.bit PWR_STAT 17 = false) ∧ (12 ≤ u → u < 16 → c.bit PWR_STAT 18 = false)

theorem railFailed_iff : c.railFailed u = true ↔ ¬RailGood c u := by
  unfold Chip.railFailed RailGood
  rw [← Bool.not_eq_false]
  refine not_congr ?_
  split
  next h => exact ⟨fun _ => ⟨fun g => by omega, fun g => by omega⟩, fun _ => rfl⟩
  next h8 =>
    split
    next h => exact ⟨fun g => ⟨fun _ _ => g, fun g => by omega⟩, fun g => g.1 (by omega) h⟩
    next h12 =>
      split
      next h => exact ⟨fun g => ⟨fun _ _ => by omega, fun _ _ => g⟩, fun g => g.2 (by omega) h⟩
      next h => exact ⟨fun _ => ⟨fun _ _ => by omega, fun _ _ => by omega⟩, fun _ => rfl⟩

/-- The units that a write of PWR_GATE powers down, and those that it powers up. -/
def Chip.gatesDown (c : Chip) (v : W32) : List Nat :=
  (List.range 20).filter fun u => wbit (c.reg PWR_GATE) u && !wbit (v &&& 0xFFFFF) u

def Chip.gatesUp (c : Chip) (v : W32) : List Nat :=
  (List.range 20).filter fun u => !wbit (c.reg PWR_GATE) u && wbit (v &&& 0xFFFFF) u

theorem gateRefused_iff : ((c.gatesDown v).any (fun u => !c.gateFree u) || (c.gatesUp v).any c.railFailed) = true ↔
    (∃ u ∈ c.gatesDown v, ¬GateFree c u) ∨ ∃ u ∈ c.gatesUp v, ¬RailGood c u := by
  rw [Bool.or_eq_true, List.any_eq_true, List.any_eq_true]
  refine or_congr (exists_congr fun u => and_congr_right fun _ => ?_) (exists_congr fun u => and_congr_right fun _ => ?_)
  · rw [Bool.not_eq_true', ← Bool.not_eq_true, gateFree_iff]
  · exact railFailed_iff

theorem gateWrite_refused (hm : m ≠ 0) : gateWrite c m v = c.refuse := if_pos hm

theorem gateWrite_bars (hm : m = 0) (h : (∃ u ∈ c.gatesDown v, ¬GateFree c u) ∨ ∃ u ∈ c.gatesUp v, ¬RailGood c u) :
    gateWrite c m v = (c.flag PWR_EVCAUSE 4 5).done := (if_neg (not_not_intro hm)).trans (if_pos (gateRefused_iff.2 h))

/-- The units that lose their power, one by one. -/
def Chip.gated (c : Chip) (us : List Nat) : Chip :=
  us.foldl (fun d u => if u < 8 then (d.setBit PWR_GSTAT u false).setPeState u 0 else d.setBit PWR_GSTAT u false) c

theorem gated_tmu (us : List Nat) : (c.gated us).tmu = c.tmu := by
  induction us generalizing c with
  | nil => rfl
  | cons u us ih =>
    refine (ih (c := if u < 8 then (c.setBit PWR_GSTAT u false).setPeState u 0 else c.setBit PWR_GSTAT u false)).trans ?_
    split
    · exact (Chip.setFld_tmu _ _ _ _ _).trans (Chip.setBit_tmu _ _ _ _)
    · exact Chip.setBit_tmu _ _ _ _

/-- The units that get their power have the time of it noted. -/
theorem upAt_foldl {t : Nat} (ht : c.tmu.raw = t) (us : List Nat) : us.foldl (fun d u => d.setPwr fun p => { p with upAt := tblSet 0 p.upAt u d.tmu.raw }) c =
    { c with pwr := { c.pwr with upAt := us.foldl (fun x u => tblSet 0 x u t) c.pwr.upAt } } := by
  subst ht
  induction us generalizing c with
  | nil => rfl
  | cons u us ih => exact ih

theorem gateWrite_gates (hm : m = 0) (hdown : ∀ u ∈ c.gatesDown v, GateFree c u) (hup : ∀ u ∈ c.gatesUp v, RailGood c u)
    (hd : (c.setReg PWR_GATE (v &&& 0xFFFFF)).gated (c.gatesDown v) = d) : gateWrite c m v =
      ({ d with pwr := { d.pwr with upAt := (c.gatesUp v).foldl (fun x u => tblSet 0 x u c.tmu.raw) d.pwr.upAt } } : Chip).done := by
  have hok : ¬((∃ u ∈ c.gatesDown v, ¬GateFree c u) ∨ ∃ u ∈ c.gatesUp v, ¬RailGood c u) :=
    not_or.2 ⟨fun ⟨u, hu, g⟩ => g (hdown u hu), fun ⟨u, hu, g⟩ => g (hup u hu)⟩
  have hraw : d.tmu.raw = c.tmu.raw := by
    rw [← hd, gated_tmu, Chip.setReg_tmu]
  rw [← upAt_foldl hraw, ← hd]
  exact (if_neg (not_not_intro hm)).trans (if_neg fun g => hok (gateRefused_iff.1 g))

/-- A unit has had its power for 20 µs. -/
def PowerSettled (c : Chip) (u : Nat) : Prop :=
  c.bit PWR_GATE u = true ∧ c.bit PWR_GSTAT u = false ∧ tblGet 0 c.pwr.upAt u + 20000 ≤ c.tmu.raw

theorem unitPowerUp_not (h : ¬PowerSettled c u) : unitPowerUp c u = c := if_neg h

section
variable (h : PowerSettled c u)
include h

theorem unitPowerUp_engine (hu : u < 8) : unitPowerUp c u =
    (((((c.setBit PWR_GSTAT u true).raise 5 0).clearMem (peMem u) 0x40000).resetCore (u + 3)).setPeState u 1) :=
  (if_pos h).trans (if_pos hu)

theorem unitPowerUp_port (h8 : 8 ≤ u) (hu : u < 16) : unitPowerUp c u = (c.setBit PWR_GSTAT u true).raise 5 0 :=
  (if_pos h).trans ((if_neg (Nat.not_lt.2 h8)).trans (if_pos hu))

theorem unitPowerUp_cluster (h16 : 16 ≤ u) :
    unitPowerUp c u = ((c.setBit PWR_GSTAT u true).raise 5 0).resetCluster (u - 16) :=
  (if_pos h).trans ((if_neg (by omega)).trans (if_neg (Nat.not_lt.2 h16)))

end

/-! ### Temperature and the PLL -/

theorem temperature_over {t : Int} (h : sext 12 (c.fld PWR_TEMP 11 0) ≤ sext 12 (c.fld PWR_TEMPLIM 11 0))
    (ht : sext 12 (c.fld PWR_TEMPLIM 11 0) < t) :
    temperature c t = (c.setReg PWR_TEMP (w32 (wrap 12 t))).flag PWR_EVCAUSE 3 3 := if_pos ⟨h, ht⟩

theorem temperature_not {t : Int} (h : sext 12 (c.fld PWR_TEMPLIM 11 0) < sext 12 (c.fld PWR_TEMP 11 0) ∨
    t ≤ sext 12 (c.fld PWR_TEMPLIM 11 0)) : temperature c t = c.setReg PWR_TEMP (w32 (wrap 12 t)) := by
  refine if_neg fun ⟨h1, h2⟩ => ?_
  omega

theorem pllLock_not (h8 : c.bit PWR_STAT 8 = false) (h : c.bit PWR_STAT 31 = false ∨ c.bit (PWR_SEQ_CFG 0) 31 = true) :
    pllLock c = c := by
  refine if_neg (not_or.2 ⟨not_true_of_eq_false h8, fun ⟨h31, hu⟩ => ?_⟩)
  exact h.elim (fun g => not_true_of_eq_false g h31) (not_true_of_eq_false hu)

end Sys2Proof.Machine

namespace Sys2Proof
open Machine

/-- Settles O57: supplies, the buck, the sequencer, gating, temperature and the PLL. What a passing step clears, what the
failure of step 0 takes down and when PGOOD_CORE rises again (log entry 182), how many phases the buck runs, a free value
of 1 to 4 (211), and the window's return without a hysteresis are the model's choices. -/
theorem suppliesGatingAndTheSequencer : Obligations.SuppliesGatingAndTheSequencer := by
  unfold Obligations.SuppliesGatingAndTheSequencer
  intro m v v33 step u mv t b mram c pwr j bit next passed fails rose fell word moved set target seen down up free rail
    powered ready starts warm limit
  have hfalse {q : Bool} (h : q = false) : ¬q = true := not_true_of_eq_false h
  have htarget : target = c.avsTarget := avsTarget_eq.symm
  have hseq {d : Chip} (g : seqCfgWrite c m.val step.val v = d) : Does (.seqConfigWrite m step v) c d :=
    does_seqConfigWrite ((regWrite_PWR_SEQ_CFG step).trans g)
  have havs {d : Chip} (g : avsWrite c m.val v = d) : Does (.avsTargetWrite m v) c d :=
    does_avsTargetWrite (regWrite_PWR_AVS.trans g)
  have hgate {d : Chip} (g : gateWrite c m.val v = d) : Does (.powerGateWrite m v) c d :=
    does_powerGateWrite (regWrite_PWR_GATE.trans g)
  clear_value target
  subst htarget
  refine ⟨fun h => does_buckSoftStart (buckSoftStart_starts h v33.isLt rfl), fun h => does_buckSoftStart (if_neg h),
    fun h => does_pgoodCoreRise (if_neg h), fun h => ?_,
    fun h => does_sequencerStepEnable (seqEnable_other h), fun i h => ⟨fun hp => ?_, fun hp => ?_⟩,
    fun h => ⟨does_sequencerPgRise (if_neg h), does_sequencerPgTimeout (if_neg h)⟩,
    fun h => ⟨does_sequencerPgRise (seqPgRise_pass h), does_sequencerPgTimeout ((if_pos h).trans seqFails_eq)⟩,
    fun hp he => does_sequencerPgFall (seqPgFall_fails hp he), fun h => does_sequencerPgFall (seqPgFall_unused h),
    fun h => does_sequencerRetry (if_neg h), fun h => does_sequencerRetry ((if_pos h).trans seqFrom_eq),
    fun h => hseq (seqCfgWrite_refused h), fun hm h3 => hseq (seqCfgWrite_stores hm h3 rfl),
    fun h => does_coreOverVoltage (if_pos h), fun h => does_coreOverVoltage (if_neg (Nat.not_lt.2 h)),
    fun hb h => does_coreWindowExit (coreWindowExit_leaves hb h), fun h => does_coreWindowExit (coreWindowExit_stays h),
    fun h1 h2 => ⟨fun h => ?_, fun h => ?_⟩, fun h => does_coreWindowReturn (coreWindowReturn_outside h),
    fun hm => ⟨havs (avsWrite_refused hm), hgate (gateWrite_refused hm)⟩, fun hm => havs (avsWrite_moves hm),
    fun h => does_avsDone (if_neg (hfalse h)), fun h => does_avsDone (avsDone_moving h),
    fun hm h => hgate (gateWrite_bars hm h), fun hm hdown hup => hgate (gateWrite_gates hm hdown hup rfl),
    ⟨fun h => does_unitPowerUpDone (unitPowerUp_not h), fun h hu => does_unitPowerUpDone (unitPowerUp_engine h hu),
      fun h h8 hu => does_unitPowerUpDone (unitPowerUp_port h h8 hu),
      fun h h16 => does_unitPowerUpDone (unitPowerUp_cluster h h16)⟩,
    fun h ht => does_temperatureLimit (temperature_over h ht), fun h => does_temperatureLimit (temperature_not h),
    fun h => does_pllLock (if_pos h), fun h8 h => does_pllLock (pllLock_not h8 h), fun h => does_pllLockLoss (if_pos h),
    fun h => does_pllLockLoss (if_neg (hfalse h)), ⟨fun h => ?_, fun h => ?_⟩⟩
  case refine_1 =>
    intro d e good runs
    have hruns (f : Chip) (g : pgoodRise c v33.val mram = f.seqFrom 0) : runs f := does_pgoodCoreRise (g.trans seqFrom_eq)
    refine ⟨fun hf => does_pgoodCoreRise (pgoodRise_again h v33.isLt hf), fun hf hg => hruns _ ?_, fun hf hg => hruns _ ?_⟩
    · refine (pgoodRise_first h v33.isLt hf).trans (congrArg (fun f : Chip => f.seqFrom 0) ?_)
      exact seqLoad_good (c := c.pgoodHigh v33.val) hg
    · refine (pgoodRise_first h v33.isLt hf).trans (congrArg (fun f : Chip => f.seqFrom 0) ?_)
      exact seqLoad_reset (c := c.pgoodHigh v33.val) hg
  case refine_2 => exact does_sequencerStepEnable ((seqEnable_delay h rfl).trans (if_neg (hfalse hp)))
  case refine_3 => exact does_sequencerStepEnable ((seqEnable_delay h rfl).trans (if_pos hp))
  case refine_4 => exact does_coreWindowReturn ((coreWindowReturn_eq h1 h2 rfl).trans (if_neg (hfalse h)))
  case refine_5 => exact does_coreWindowReturn ((coreWindowReturn_eq h1 h2 rfl).trans (if_pos h))
  case refine_6 =>
    subst h
    exact does_buckDisLevelChange buckDisChange_low
  case refine_7 =>
    subst h
    exact does_buckDisLevelChange (buckDisChange_high rfl)

end Sys2Proof
end

section
/-!
PROOF. What a device reset leaves (R258, R486, R487): the registers of its row, memory, and what EVR's unfinished write
may have changed (R464).
-/
namespace Sys2Proof.Machine

variable {c d e : Chip} {a n k m x cause : Nat} {bs : List Byte}

/-! ### What leaves PWR, SEC, TST and the pins as they are -/

/-- The power unit's state, SEC, TST and the pins are in `d` as in `c`. -/
structure SameParts (c d : Chip) : Prop where
  pwr : d.pwr = c.pwr
  sec : d.sec = c.sec
  tst : d.tst = c.tst
  pin : d.pin = c.pin

namespace SameParts

theorem refl (c : Chip) : SameParts c c := ⟨rfl, rfl, rfl, rfl⟩

theorem trans (h : SameParts c d) (g : SameParts d e) : SameParts c e :=
  ⟨g.pwr.trans h.pwr, g.sec.trans h.sec, g.tst.trans h.tst, g.pin.trans h.pin⟩

theorem ite {q : Prop} [Decidable q] (h : SameParts c d) (g : SameParts c e) : SameParts c (if q then d else e) := by
  split
  · exact h
  · exact g

theorem setReg (b : Nat) (w : W32) (c : Chip) : SameParts c (c.setReg b w) := ⟨rfl, rfl, rfl, rfl⟩

theorem setBit (b i : Nat) (q : Bool) (c : Chip) : SameParts c (c.setBit b i q) := setReg _ _ c

theorem setFld (b hi lo v : Nat) (c : Chip) : SameParts c (c.setFld b hi lo v) := setReg _ _ c

theorem inc (b : Nat) (c : Chip) : SameParts c (c.inc b) := setReg _ _ c

theorem done (c : Chip) : SameParts c c.done := ⟨rfl, rfl, rfl, rfl⟩

theorem raise (s v : Nat) (c : Chip) : SameParts c (c.raise s v) := ⟨rfl, rfl, rfl, rfl⟩

theorem flag (b i s : Nat) (c : Chip) : SameParts c (c.flag b i s) := ⟨rfl, rfl, rfl, rfl⟩

theorem memc (f : MemState) (c : Chip) : SameParts c { c with memc := f } := ⟨rfl, rfl, rfl, rfl⟩

theorem memCause (i : Nat) (c : Chip) : SameParts c (c.memCause i) := flag _ _ _ c

theorem setByte (b : Nat) (v : Byte) (c : Chip) : SameParts c (c.setByte b v) := ⟨rfl, rfl, rfl, rfl⟩

theorem setBytes (b : Nat) (bs : List Byte) (c : Chip) : SameParts c (c.setBytes b bs) := by
  induction bs generalizing b c with
  | nil => exact refl c
  | cons v vs ih => exact (setByte b v c).trans (ih (b + 1) (c.setByte b v))

theorem foldl {α : Type} {f : Chip → α → Chip} (h : ∀ c v, SameParts c (f c v)) (vs : List α) (c : Chip) :
    SameParts c (vs.foldl f c) := by
  induction vs generalizing c with
  | nil => exact refl c
  | cons v vs ih => exact (h c v).trans (ih (f c v))

theorem noteErr (m b : Nat) (r : AccErr) (c : Chip) : SameParts c (c.noteErr m b r) := by
  cases r with
  | owner => exact ((inc MEM_OERRCNT c).trans (setReg MEM_OERR _ _)).trans (memCause 1 _)
  | bus | ecc | seg | wait => exact refl c

theorem ueErr (w : Nat) (c : Chip) : SameParts c (c.ueErr w) := by
  have hu : SameParts c (((c.inc MEM_ECCUE).setReg MEM_ECCADDR (w32 w)).memCause 3) :=
    ((inc MEM_ECCUE c).trans (setReg MEM_ECCADDR _ _)).trans (memCause 3 _)
  unfold Chip.ueErr
  exact ite ((hu.trans (setBit MEM_STAT 0 false _)).trans (memCause 6 _)) hu

theorem ceCount (c : Chip) : SameParts c ((c.inc MEM_ECCCE).memCause 2) := (inc MEM_ECCCE c).trans (memCause 2 _)

theorem wordsRead (p : Nat → Bool) (c : Chip) : SameParts c (c.wordsRead p) :=
  (foldl (fun c _ => ceCount c) _ c).trans (foldl (fun c w => ueErr w c) _ _)

theorem memWrite (m b : Nat) (bs : List Byte) (c : Chip) : SameParts c (c.memWrite m b bs).2 := by
  have hs (f : MemState) : SameParts c (({ c with memc := f } : Chip).setBytes b bs) := (memc f c).trans (setBytes b bs _)
  unfold Chip.memWrite
  split
  · exact noteErr m b _ c
  · split
    · exact ⟨rfl, rfl, rfl, rfl⟩
    · dsimp only
      split
      · exact ueErr _ c
      · exact ite ((hs _).trans (ceCount _)) (hs _)

end SameParts

/-! ### Registers that accesses to memory leave -/

/-- A register that no access to MRAM writes: none of MEM's but the banks' own status, and no pending event. -/
def Unrecorded (a : Nat) : Prop :=
  (a < 0x400C0000 ∨ 0x400D0000 ≤ a ∨ (MEM_BSTAT 0 ≤ a ∧ a ≤ MEM_BSTAT 31)) ∧ (a < 0x400F8100 ∨ 0x400F8140 ≤ a)

namespace Unrecorded

variable (h : Unrecorded a)
include h

theorem memReg {b : Nat} {w : W32} (hb : 0x400C0000 ≤ b ∧ b < MEM_BSTAT 0) (c : Chip) : KeepsReg a c (c.setReg b w) := by
  obtain ⟨hm, -⟩ := h
  unfold MEM_BSTAT at hm hb
  exact KeepsReg.setReg (by omega) c

theorem memCause {i : Nat} (hi : i < 16) (c : Chip) : KeepsReg a c (c.memCause i) := by
  have hev : KeepsReg a (c.setBit MEM_EVCAUSE i true) ((c.setBit MEM_EVCAUSE i true).raise (416 + i) i) := by
    obtain ⟨-, he⟩ := h
    refine KeepsReg.raise ?_ _
    unfold EVT_PEND
    omega
  exact (memReg h (b := MEM_EVCAUSE) (by decide) c).trans hev

theorem noteErr (m b : Nat) (r : AccErr) (c : Chip) : KeepsReg a c (c.noteErr m b r) := by
  cases r with
  | owner =>
    refine .trans (.trans ?_ (memReg h (b := MEM_OERR) (by decide) _)) (memCause h (by decide) _)
    exact memReg h (b := MEM_OERRCNT) (by decide) c
  | bus | ecc | seg | wait => exact .refl c

theorem ueErr (w : Nat) (c : Chip) : KeepsReg a c (c.ueErr w) := by
  have hu : KeepsReg a c (((c.inc MEM_ECCUE).setReg MEM_ECCADDR (w32 w)).memCause 3) := by
    refine .trans (.trans ?_ (memReg h (b := MEM_ECCADDR) (by decide) _)) (memCause h (by decide) _)
    exact memReg h (b := MEM_ECCUE) (by decide) c
  unfold Chip.ueErr
  refine .ite (hu.trans (.trans ?_ (memCause h (by decide) _))) hu
  exact memReg h (b := MEM_STAT) (by decide) _

theorem ceCount (c : Chip) : KeepsReg a c ((c.inc MEM_ECCCE).memCause 2) :=
  (memReg h (b := MEM_ECCCE) (by decide) c).trans (memCause h (by decide) (c.inc MEM_ECCCE))

theorem memWrite (m b : Nat) (bs : List Byte) (c : Chip) : KeepsReg a c (c.memWrite m b bs).2 := by
  have hs (f : MemState) : KeepsReg a c (({ c with memc := f } : Chip).setBytes b bs) :=
    (KeepsReg.ofRegs rfl).trans (KeepsReg.setBytes b bs _)
  unfold Chip.memWrite
  split
  · exact noteErr h m b _ c
  · split
    · exact .ofRegs rfl
    · dsimp only
      split
      · exact ueErr h _ c
      · exact .ite ((hs _).trans (ceCount h _)) (hs _)

end Unrecorded

/-! ### Bytes that a write leaves -/

theorem byte_setByte_other (h : x ≠ a) (v : Byte) : (c.setByte a v).byte x = c.byte x := by
  have hfind : tblFind (c.setByte a v).mem x = tblFind c.mem x := by
    unfold Chip.setByte
    dsimp only
    split
    · exact tblFind_erase_other _ h
    · exact (tblFind_insert_other _ _ h).trans (tblFind_erase_other _ h)
  unfold Chip.byte
  rw [hfind]
  rfl

theorem byte_setBytes_other (h : x < a ∨ a + bs.length ≤ x) : (c.setBytes a bs).byte x = c.byte x := by
  induction bs generalizing a c with
  | nil => rfl
  | cons v vs ih =>
    rw [List.length_cons] at h
    exact (ih (c := c.setByte a v) (a := a + 1) (by omega)).trans (byte_setByte_other (by omega) v)

theorem setBytes_undef : (c.setBytes a bs).memc = c.memc := by
  induction bs generalizing a c with
  | nil => rfl
  | cons v vs ih => exact ih (c := c.setByte a v)

/-- A write of memory changes no byte beside its own. -/
theorem memWrite_bytes : (c.memWrite m a bs).2.memc.undef = c.memc.undef ∧
    ∀ x, x < a ∨ a + bs.length ≤ x → (c.memWrite m a bs).2.byte x = c.byte x := by
  have hsame {d : Chip} (h : SameMem c d) : d.memc.undef = c.memc.undef ∧
      ∀ x, x < a ∨ a + bs.length ≤ x → d.byte x = c.byte x := ⟨h.undef, fun x _ => h.byte x⟩
  unfold Chip.memWrite
  split
  · exact hsame Chip.noteErr_sameMem
  · split
    · exact hsame ⟨rfl, rfl⟩
    · dsimp only
      split
      · exact hsame Chip.ueErr_sameMem
      · have hpart (q : Bool) (f : MemState) (hf : f.undef = c.memc.undef) :
            (if q then ((({ c with memc := f } : Chip).setBytes a bs).inc MEM_ECCCE).memCause 2
              else ({ c with memc := f } : Chip).setBytes a bs).memc.undef = c.memc.undef ∧
            ∀ x, x < a ∨ a + bs.length ≤ x →
              (if q then ((({ c with memc := f } : Chip).setBytes a bs).inc MEM_ECCCE).memCause 2
                else ({ c with memc := f } : Chip).setBytes a bs).byte x = c.byte x := by
          have hcount : SameMem (({ c with memc := f } : Chip).setBytes a bs)
              (if q then ((({ c with memc := f } : Chip).setBytes a bs).inc MEM_ECCCE).memCause 2
                else ({ c with memc := f } : Chip).setBytes a bs) :=
            .ite (.trans Chip.inc_sameMem Chip.memCause_sameMem) .refl
          have hf' : SameMem c { c with memc := f } := ⟨rfl, hf⟩
          exact ⟨hcount.undef.trans ((congrArg MemState.undef setBytes_undef).trans hf),
            fun x hx => (hcount.byte x).trans ((byte_setBytes_other hx).trans (hf'.byte x))⟩
        exact hpart _ _ rfl

/-! ### What EVR was writing -/

theorem regionOf_mram (h1 : 0x20000000 ≤ a) (h2 : a < 0x20400000) : regionOf a = .mram := by
  unfold regionOf
  rw [if_neg (by omega), if_neg (by omega), if_neg (by omega), if_neg (by omega), if_pos h2]

/-- What a unit's writes into MRAM leave: PWR, SEC, TST and the pins, the registers beside MEM's records, and every byte
outside MRAM. -/
structure OnlyMram (c d : Chip) : Prop where
  parts : SameParts c d
  reg : ∀ a, Unrecorded a → d.reg a = c.reg a
  undef : d.memc.undef = c.memc.undef
  byte : ∀ a, regionOf a ≠ .mram → d.byte a = c.byte a

namespace OnlyMram

theorem refl (c : Chip) : OnlyMram c c := ⟨.refl c, fun _ _ => rfl, rfl, fun _ _ => rfl⟩

theorem trans (h : OnlyMram c d) (g : OnlyMram d e) : OnlyMram c e :=
  ⟨h.parts.trans g.parts, fun a ha => (g.reg a ha).trans (h.reg a ha), g.undef.trans h.undef,
    fun a ha => (g.byte a ha).trans (h.byte a ha)⟩

theorem free (c : Chip) (f : Nat) : OnlyMram c { c with free := f } :=
  ⟨⟨rfl, rfl, rfl, rfl⟩, fun _ _ => rfl, rfl, fun _ _ => rfl⟩

theorem mramWrite (c : Chip) (h1 : 0x20000000 ≤ a) (h2 : a + bs.length ≤ 0x20400000) : OnlyMram c (c.mramWrite a bs) := by
  obtain ⟨hundef, hbyte⟩ := memWrite_bytes (c := c) (m := 0) (a := a) (bs := bs)
  refine ⟨.memWrite 0 a bs c, fun r hr => hr.memWrite 0 a bs c, hundef, fun x hx => hbyte x ?_⟩
  refine Decidable.byContradiction fun hin => ?_
  exact hx (regionOf_mram (by omega) (by omega))

theorem foldl {α : Type} {f : Chip → α → Chip} {vs : List α} (h : ∀ c, ∀ v ∈ vs, OnlyMram c (f c v)) (c : Chip) :
    OnlyMram c (vs.foldl f c) := by
  induction vs generalizing c with
  | nil => exact refl c
  | cons v vs ih =>
    exact (h c v List.mem_cons_self).trans (ih (fun c w hw => h c w (List.mem_cons_of_mem _ hw)) (f c v))

end OnlyMram

theorem mem_insertOld {t : Nat} {r q : HeldRec} {rs : List HeldRec} (h : q ∈ insertOld t r rs) : q = r ∨ q ∈ rs := by
  induction rs with
  | nil => exact .inl (List.mem_singleton.1 h)
  | cons y ys ih =>
    unfold insertOld at h
    split at h
    · exact List.mem_cons.1 h
    · obtain hy | hq := List.mem_cons.1 h
      · exact .inr (hy ▸ List.mem_cons_self)
      · exact (ih hq).imp_right (List.mem_cons_of_mem _)

theorem mem_foldl_insertOld {t : Nat} {q : HeldRec} {rs acc : List HeldRec}
    (h : q ∈ rs.foldl (fun acc r => insertOld t r acc) acc) : q ∈ rs ∨ q ∈ acc := by
  induction rs generalizing acc with
  | nil => exact .inr h
  | cons r rs ih =>
    obtain hr | ha := ih h
    · exact .inl (List.mem_cons_of_mem _ hr)
    · exact (mem_insertOld ha).elim (fun g => .inl (g ▸ List.mem_cons_self)) .inr

/-- A record's place is one of the 4096 slots. -/
theorem evrPlace_lt {sev : Nat} (h : c.evrPlace sev = some n) : n < 4096 := by
  unfold Chip.evrPlace at h
  split at h
  next k hk =>
    obtain rfl := Option.some.inj h
    exact List.mem_range.1 (List.mem_of_find?_eq_some hk)
  next =>
    obtain ⟨q, hq, rfl⟩ := Option.map_eq_some_iff.1 h
    obtain hr | hr := mem_foldl_insertOld (List.mem_of_find?_eq_some hq)
    · obtain ⟨j, hj, rfl⟩ := List.mem_map.1 hr
      exact List.mem_range.1 (List.mem_filter.1 hj).1
    · cases hr

/-- A write of up to 64 bytes from within a recorder slot on. -/
theorem OnlyMram.slotWrite (c : Chip) (hk : k < 4096) (hl : x + bs.length ≤ 64) : OnlyMram c (c.mramWrite (evrSlot k + x) bs) := by
  unfold evrSlot
  exact .mramWrite c (by omega) (by omega)

/-- What a reset cuts off has changed MRAM alone. -/
theorem evrCut_onlyMram (c : Chip) : OnlyMram c c.evrCut := by
  unfold Chip.evrCut
  split
  next r hr =>
    split
    next => exact .refl c
    next k hk =>
      have hk := evrPlace_lt hk
      have hlen : (evrBytes r c.evr.nextSeq c.opsec c.pcc).length = 64 := by
        unfold evrBytes
        rw [List.length_append, length_evrBody, length_leBytes]
      have hfree := OnlyMram.free c (c.free + 1)
      dsimp only
      unfold Chip.takeFree
      dsimp only
      have hlast : (Config.freeValue c.free).toNat % 10 < 10 := Nat.mod_lt _ (by decide)
      split
      next => exact hfree
      next => exact hfree.trans (.slotWrite (x := 0) _ hk (by omega))
      next j hj =>
        refine (hfree.trans (.slotWrite _ hk (Nat.le_of_eq (congrArg (56 + ·) List.length_replicate)))).trans (.slotWrite (x := 0) _ hk ?_)
        rw [List.length_take]
        omega
  next hr =>
    dsimp only
    unfold Chip.takeFree Chip.clearSlots
    refine (OnlyMram.free c (c.free + 1)).trans (.foldl (fun c j hj => .slotWrite c ?_ (by decide)) _)
    have := List.mem_range.1 hj
    omega
  next => exact .refl c

theorem evrCut_idle (h : ∀ r, c.evr.op ≠ some (.store r)) (h' : c.evr.op ≠ some .clear) : c.evrCut = c := by
  unfold Chip.evrCut
  split
  next r hr => exact absurd hr (h r)
  next hr => exact absurd hr h'
  next => rfl

/-! ### The device after a reset -/

/-- The registers that a reset with a cause leaves. -/
def resetKeeps (cause a : Nat) : Bool :=
  if cause == causePor || cause == causeBor then false else if cause == causeWdt then keepsWatchdog a else keepsMonitors a

theorem deviceReset_reg : (deviceReset c cause).reg a = if resetKeeps cause a then c.reg a else regReset a := by
  have hfind : tblFind (deviceReset c cause).regs a = if resetKeeps cause a then tblFind c.regs a else none :=
    tblFind_filter c.regs (resetKeeps cause) a
  unfold Chip.reg tblGet
  rw [hfind]
  split <;> rfl

theorem deviceReset_undefRun (h : c.undefRun a = 0 ∨ cause = causeWdt) : (deviceReset c cause).undefRun a = c.undefRun a := by
  by_cases hw : cause = causeWdt
  · have hu : (deviceReset c cause).memc.undef = c.memc.undef := if_pos (beq_iff_eq.2 hw)
    exact undefRun_congr hu a
  · have hu : (deviceReset c cause).memc.undef = [] := if_neg fun g => hw (beq_iff_eq.1 g)
    rw [h.resolve_right hw]
    unfold Chip.undefRun
    rw [hu]
    split <;> rfl

/-- A byte that a reset keeps reads after it as before. -/
theorem deviceReset_byte (h : keepsMemory a = true ∨ cause = causeWdt ∧ ∃ b, regionOf a = .sram b)
    (hu : c.undefRun a = 0 ∨ cause = causeWdt) : (deviceReset c cause).byte a = c.byte a := by
  have hfind : tblFind (deviceReset c cause).mem a = tblFind c.mem a := by
    refine (tblFind_filter c.mem (fun x => keepsMemory x || ((cause == causeWdt) && match regionOf x with
      | .sram _ => true
      | _ => false)) a).trans (if_pos ?_)
    obtain hk | ⟨hw, b, hb⟩ := h
    · rw [hk]
      rfl
    · rw [hw, hb]
      exact Bool.or_true _
  unfold Chip.byte
  rw [hfind, deviceReset_undefRun hu]

end Sys2Proof.Machine

end

section
/-!
PROOF. Power-on, brown-out and the resets by pin, software and watchdog (R475, R486, R488, R489): what each leaves.
-/
namespace Sys2Proof.Machine

variable {c b d e : Chip} {a n st cause : Nat} {keep : Nat → Prop}

/-! ### What the end of a reset adds -/

/-- Between `c` and `d` nothing changes but registers, the events raised and the last answer. -/
def OnlyRegs (c d : Chip) : Prop := ∃ r e u, d = { c with regs := r, evt := e, bus := u }

namespace OnlyRegs

theorem refl (c : Chip) : OnlyRegs c c := ⟨c.regs, c.evt, c.bus, rfl⟩

theorem trans (h : OnlyRegs c d) (g : OnlyRegs d e) : OnlyRegs c e := by
  obtain ⟨r, x, u, rfl⟩ := h
  obtain ⟨r', x', u', rfl⟩ := g
  exact ⟨r', x', u', rfl⟩

theorem setReg (a : Nat) (w : W32) (c : Chip) : OnlyRegs c (c.setReg a w) := ⟨_, c.evt, c.bus, rfl⟩

theorem raise (s v : Nat) (c : Chip) : OnlyRegs c (c.raise s v) := ⟨_, _, c.bus, rfl⟩

theorem done (c : Chip) : OnlyRegs c c.done := ⟨c.regs, c.evt, _, rfl⟩

theorem pwr (h : OnlyRegs c d) : d.pwr = c.pwr := by
  obtain ⟨r, x, u, rfl⟩ := h
  rfl

theorem sameMem (h : OnlyRegs c d) : SameMem c d := by
  obtain ⟨r, x, u, rfl⟩ := h
  exact ⟨rfl, rfl⟩

end OnlyRegs

/-- The engines that stay powered become STOPPED, one after the other. -/
theorem poweredStopped_fold (ns : List Nat) (hn : ns.Nodup) (c : Chip) :
    let d := ns.foldl (fun d n => if d.bit PWR_GSTAT n then d.setPeState n 1 else d) c
    OnlyRegs c d ∧ (∀ a, (∀ n ∈ ns, a ≠ PE_PEn_STAT n) → d.reg a = c.reg a) ∧
    ∀ n ∈ ns, d.peState n = if c.bit PWR_GSTAT n then 1 else c.peState n := by
  induction ns generalizing c with
  | nil => exact ⟨.refl c, fun _ _ => rfl, fun n hn => absurd hn List.not_mem_nil⟩
  | cons k ns ih =>
    obtain ⟨hk, hns⟩ := List.nodup_cons.1 hn
    generalize hs : (if c.bit PWR_GSTAT k then c.setPeState k 1 else c) = s
    obtain ⟨ho, hreg, hst⟩ := ih hns s
    have hone : OnlyRegs c s ∧ (∀ a, a ≠ PE_PEn_STAT k → s.reg a = c.reg a) ∧
        s.peState k = if c.bit PWR_GSTAT k then 1 else c.peState k := by
      subst hs
      split
      · exact ⟨.setReg _ _ c, fun a ha => setPeState_reg ha, peState_setPeState (by decide)⟩
      · exact ⟨.refl c, fun a _ => rfl, rfl⟩
    obtain ⟨ho1, hreg1, hst1⟩ := hone
    have hgs (n : Nat) : s.bit PWR_GSTAT n = c.bit PWR_GSTAT n := congrArg (wbit · n) (hreg1 _ (by
      unfold PWR_GSTAT PE_PEn_STAT
      omega))
    dsimp only
    rw [List.foldl_cons, hs]
    have hdiff {i j : Nat} (h : i ≠ j) : PE_PEn_STAT i ≠ PE_PEn_STAT j := by
      unfold PE_PEn_STAT
      omega
    refine ⟨ho1.trans ho, fun a ha => ?_, fun n hn => ?_⟩
    · exact (hreg a fun n hn => ha n (List.mem_cons_of_mem _ hn)).trans (hreg1 a (ha k List.mem_cons_self))
    · obtain rfl | hn := List.mem_cons.1 hn
      · have hne : ∀ j ∈ ns, n ≠ j := fun j hj g => hk (g ▸ hj)
        exact (congrArg (wfld · 2 0) (hreg _ fun j hj => hdiff (hne j hj))).trans hst1
      · refine (hst n hn).trans ?_
        rw [hgs]
        exact congrArg (fun x => if c.bit PWR_GSTAT n then 1 else x)
          (congrArg (wfld · 2 0) (hreg1 _ (hdiff fun g => hk (g ▸ hn))))

/-! ### The statement -/

/-- Where EVR writes into MRAM no record and no free slots, a reset cuts nothing off. -/
def EvrIdle (c : Chip) : Prop := (∀ r, c.evr.op ≠ some (.store r)) ∧ c.evr.op ≠ some .clear

/-- What a reset of `c` with a cause leaves, in a device state, with the registers of its row. -/
def ResetLeaves (c : Chip) (st cause : Nat) (keep : Nat → Prop) (d : Chip) : Prop :=
  d.sysState = st ∧ d.pwr.cause = cause ∧ d.sec.fuses = c.sec.fuses ∧ d.sec.keys = c.sec.keys ∧
  d.sec.passwords = c.sec.passwords ∧ d.sec.fails = c.sec.fails ∧ d.sec.locks = c.sec.locks ∧
  d.sec.claimKey = c.sec.claimKey ∧ d.pin = c.pin ∧
  d.sec.sessions = [] ∧ d.sec.job = none ∧ d.sec.trng = [] ∧ d.tmu = TmuState.reset ∧ d.can = Chip.reset.can ∧
  d.swx = Chip.reset.swx ∧ d.core = Chip.reset.core ∧ d.tsk = Chip.reset.tsk ∧ d.mot = Chip.reset.mot ∧
  d.skp = Chip.reset.skp ∧ d.evr = Chip.reset.evr ∧ d.hif = Chip.reset.hif ∧ d.ang = Chip.reset.ang ∧
  (∀ a, a ≠ EVT_PEND 0 → a ≠ SYS_STATE → a ≠ PWR_VMON → (∀ n, n < 8 → a ≠ PE_PEn_STAT n) →
    (keep a → d.reg a = c.reg a) ∧ (¬keep a → d.reg a = regReset a)) ∧
  (∀ n, n < 8 → (keep PWR_GSTAT → c.bit PWR_GSTAT n = true → d.peState n = 1) ∧
    (¬keep PWR_GSTAT ∨ c.bit PWR_GSTAT n = false → d.peState n = 0)) ∧
  (∀ a, regionOf a = .flash → c.undefRun a = 0 → d.byte a = c.byte a) ∧
  ((∀ r, c.evr.op ≠ some (.store r)) → c.evr.op ≠ some .clear →
    ∀ a, regionOf a = .mram → c.undefRun a = 0 → d.byte a = c.byte a)

/-- Whose registers a reset keeps: the row's, which no access to MRAM writes. -/
structure KeepsRow (cause : Nat) (keep : Nat → Prop) : Prop where
  iff : ∀ a, resetKeeps cause a = true ↔ keep a
  unrecorded : ∀ a, keep a → Unrecorded a
  pe : ∀ n, n < 8 → ¬keep (PE_PEn_STAT n)

theorem sec_deviceReset : (deviceReset b cause).sec = { SecState.reset with
    fuses := b.sec.fuses, keys := b.sec.keys, passwords := b.sec.passwords, claimKey := b.sec.claimKey,
    fails := b.sec.fails, locks := b.sec.locks } := rfl

theorem fld_regReset_stat (n : Nat) (h : n < 8) : wfld (regReset (PE_PEn_STAT n)) 2 0 = 0 := by
  have h8 : ∀ k : Fin 8, wfld (regReset (PE_PEn_STAT k.val)) 2 0 = 0 := by decide
  exact h8 ⟨n, h⟩

/-- The registers, events and answer that come after the reset itself make no difference to what it leaves. -/
theorem resetLeaves (hk : KeepsRow cause keep) (hb : OnlyMram c b) (hidle : EvrIdle c → ∀ a, b.byte a = c.byte a)
    (ho : OnlyRegs (deviceReset b cause) d) (hst : d.sysState = st)
    (hreg : ∀ a, a ≠ EVT_PEND 0 → a ≠ SYS_STATE → a ≠ PWR_VMON → (∀ n, n < 8 → a ≠ PE_PEn_STAT n) →
      d.reg a = (deviceReset b cause).reg a)
    (hpe : ∀ n, n < 8 → d.peState n = if (deviceReset b cause).bit PWR_GSTAT n then 1 else (deviceReset b cause).peState n) :
    ResetLeaves c st cause keep d := by
  have hr (a : Nat) : (keep a → (deviceReset b cause).reg a = c.reg a) ∧ (¬keep a → (deviceReset b cause).reg a = regReset a) := by
    rw [deviceReset_reg]
    refine ⟨fun h => ?_, fun h => if_neg fun g => h ((hk.iff a).1 g)⟩
    rw [if_pos ((hk.iff a).2 h)]
    exact hb.reg a (hk.unrecorded a h)
  have hbyte (a : Nat) (ha : keepsMemory a = true) (hu : c.undefRun a = 0) : d.byte a = b.byte a := by
    have hub : b.undefRun a = 0 := (undefRun_congr hb.undef a).trans hu
    exact (ho.sameMem.byte a).trans (deviceReset_byte (.inl ha) (.inl hub))
  have hsec : (deviceReset b cause).sec = { SecState.reset with
      fuses := c.sec.fuses, keys := c.sec.keys, passwords := c.sec.passwords, claimKey := c.sec.claimKey,
      fails := c.sec.fails, locks := c.sec.locks } := by
    rw [sec_deviceReset, hb.parts.sec]
  have hpin : (deviceReset b cause).pin = c.pin := hb.parts.pin
  refine ⟨hst, ?_⟩
  have hregs : ∀ a, a ≠ EVT_PEND 0 → a ≠ SYS_STATE → a ≠ PWR_VMON → (∀ n, n < 8 → a ≠ PE_PEn_STAT n) →
      (keep a → d.reg a = c.reg a) ∧ (¬keep a → d.reg a = regReset a) := fun a h1 h2 h3 h4 =>
    ⟨fun h => (hreg a h1 h2 h3 h4).trans ((hr a).1 h), fun h => (hreg a h1 h2 h3 h4).trans ((hr a).2 h)⟩
  have hpes : ∀ n, n < 8 → (keep PWR_GSTAT → c.bit PWR_GSTAT n = true → d.peState n = 1) ∧
      (¬keep PWR_GSTAT ∨ c.bit PWR_GSTAT n = false → d.peState n = 0) := by
    intro n hn
    have hzero : (deviceReset b cause).peState n = 0 :=
      (congrArg (wfld · 2 0) ((hr _).2 (hk.pe n hn))).trans (fld_regReset_stat n hn)
    rw [hpe n hn, hzero]
    refine ⟨fun h hg => if_pos ((congrArg (wbit · n) ((hr _).1 h)).trans hg), fun h => if_neg ?_⟩
    have hlow : (deviceReset b cause).bit PWR_GSTAT n = false := by
      by_cases hg : keep PWR_GSTAT
      · exact (congrArg (wbit · n) ((hr _).1 hg)).trans (h.resolve_left (not_not_intro hg))
      · refine (congrArg (wbit · n) ((hr _).2 hg)).trans ?_
        have h0 : regReset PWR_GSTAT = 0 := by decide
        rw [h0]
        exact BitVec.getLsbD_zero
    rw [hlow]
    exact Bool.false_ne_true
  have hflash : ∀ a, regionOf a = .flash → c.undefRun a = 0 → d.byte a = c.byte a := fun a ha hu =>
    (hbyte a (by unfold keepsMemory; rw [ha]; rfl) hu).trans (hb.byte a (by rw [ha]; exact nofun))
  have hmram : (∀ r, c.evr.op ≠ some (.store r)) → c.evr.op ≠ some .clear →
      ∀ a, regionOf a = .mram → c.undefRun a = 0 → d.byte a = c.byte a := fun h1 h2 a ha hu =>
    (hbyte a (by unfold keepsMemory; rw [ha]; rfl) hu).trans (hidle ⟨h1, h2⟩ a)
  have hsec' : d.sec = (deviceReset b cause).sec := by
    obtain ⟨r, x, u, rfl⟩ := ho
    rfl
  rw [hsec] at hsec'
  have hrest : d.pwr.cause = cause ∧ d.pin = (deviceReset b cause).pin ∧ d.tmu = TmuState.reset ∧ d.can = Chip.reset.can ∧
      d.swx = Chip.reset.swx ∧ d.core = Chip.reset.core ∧ d.tsk = Chip.reset.tsk ∧ d.mot = Chip.reset.mot ∧
      d.skp = Chip.reset.skp ∧ d.evr = Chip.reset.evr ∧ d.hif = Chip.reset.hif ∧ d.ang = Chip.reset.ang := by
    obtain ⟨r, x, u, rfl⟩ := ho
    exact ⟨rfl, rfl, rfl, rfl, rfl, rfl, rfl, rfl, rfl, rfl, rfl, rfl⟩
  obtain ⟨hcause, hp, htmu, hcan, hswx, hcore, htsk, hmot, hskp, hevr, hhif, hang⟩ := hrest
  rw [hsec']
  exact ⟨hcause, rfl, rfl, rfl, rfl, rfl, rfl, hp.trans hpin, rfl, rfl, rfl, htmu, hcan, hswx, hcore, htsk, hmot, hskp, hevr,
    hhif, hang, hregs, hpes, hflash, hmram⟩

/-! ### The resets -/

theorem keepsRow_off (h : cause = causePor ∨ cause = causeBor) : KeepsRow cause fun _ => False := by
  have hno (a : Nat) : resetKeeps cause a = false := if_pos (by
    rw [Bool.or_eq_true]
    exact h.imp beq_iff_eq.2 beq_iff_eq.2)
  exact ⟨fun a => ⟨fun g => Bool.false_ne_true ((hno a).symm.trans g), False.elim⟩, fun a g => g.elim, fun n _ g => g⟩

/-- The registers of the monitors, which pin and software resets leave. -/
def MonitorReg (a : Nat) : Prop :=
  a = PWR_STAT ∨ a = PWR_AVS ∨ a = PWR_VMON ∨ a = PWR_TEMP ∨ a = SYS_IOBSTAT ∨ (PWR_SEQ_CFG 0 ≤ a ∧ a ≤ PWR_SEQ_CFG 3)

/-- The registers that a watchdog reset leaves. -/
def BankReg (a : Nat) : Prop :=
  (0x40010000 ≤ a ∧ a < 0x40020000) ∨ a = SYS_IOBSTAT ∨ (MEM_BSTAT 0 ≤ a ∧ a ≤ MEM_BSTAT 31)

theorem keepsMonitors_iff : keepsMonitors a = true ↔ MonitorReg a := by
  unfold keepsMonitors MonitorReg
  simp only [Bool.or_eq_true, Bool.and_eq_true, beq_iff_eq, decide_eq_true_iff, or_assoc]

theorem keepsWatchdog_iff : keepsWatchdog a = true ↔ BankReg a := by
  unfold keepsWatchdog BankReg
  simp only [Bool.or_eq_true, Bool.and_eq_true, beq_iff_eq, decide_eq_true_iff, or_assoc]

theorem keepsRow_monitors (h : cause = causePin ∨ cause = causeSw) : KeepsRow cause MonitorReg := by
  have hrow (a : Nat) : resetKeeps cause a = keepsMonitors a := by
    obtain rfl | rfl := h
    · rfl
    · rfl
  refine ⟨fun a => by rw [hrow, keepsMonitors_iff], fun a g => ?_, fun n hn g => ?_⟩
  · unfold MonitorReg PWR_STAT PWR_AVS PWR_VMON PWR_TEMP SYS_IOBSTAT PWR_SEQ_CFG at g
    unfold Unrecorded MEM_BSTAT
    omega
  · unfold MonitorReg PWR_STAT PWR_AVS PWR_VMON PWR_TEMP SYS_IOBSTAT PWR_SEQ_CFG PE_PEn_STAT at g
    omega

theorem keepsRow_watchdog : KeepsRow causeWdt BankReg := by
  have hrow (a : Nat) : resetKeeps causeWdt a = keepsWatchdog a := rfl
  refine ⟨fun a => by rw [hrow, keepsWatchdog_iff], fun a g => ?_, fun n hn g => ?_⟩
  · unfold BankReg SYS_IOBSTAT MEM_BSTAT at g
    unfold Unrecorded MEM_BSTAT
    omega
  · unfold BankReg SYS_IOBSTAT MEM_BSTAT PE_PEn_STAT at g
    omega

/-- What a reset makes of the device that EVR's unfinished write leaves. -/
theorem reset_onlyRegs : OnlyRegs (deviceReset b cause) ((deviceReset b cause).poweredStopped.raise 0 0) :=
  (poweredStopped_fold _ List.nodup_range _).1.trans (.raise 0 0 _)

theorem reset_leaves (hk : KeepsRow cause keep) (hb : OnlyMram c b) (hidle : EvrIdle c → ∀ a, b.byte a = c.byte a)
    (hstate : ¬keep SYS_STATE)
    (hd : OnlyRegs ((deviceReset b cause).poweredStopped.raise 0 0) d)
    (hreg : ∀ a, a ≠ PWR_VMON → d.reg a = ((deviceReset b cause).poweredStopped.raise 0 0).reg a) :
    ResetLeaves c 1 cause keep d := by
  obtain ⟨ho, hother, hpe⟩ := poweredStopped_fold (List.range 8) List.nodup_range (deviceReset b cause)
  have hraise (a : Nat) (ha : a ≠ EVT_PEND 0) (hv : a ≠ PWR_VMON) : d.reg a = (deviceReset b cause).poweredStopped.reg a :=
    (hreg a hv).trans (KeepsReg.raise ha _)
  have hpes (n : Nat) (hn : n < 8) : PE_PEn_STAT n ≠ EVT_PEND 0 ∧ PE_PEn_STAT n ≠ PWR_VMON := by
    unfold PE_PEn_STAT EVT_PEND PWR_VMON
    omega
  refine resetLeaves hk hb hidle ((ho.trans (.raise 0 0 _)).trans hd) ?_ (fun a h1 _ h3 h4 => ?_) fun n hn => ?_
  · have hs : d.reg SYS_STATE = regReset SYS_STATE := by
      refine (hraise _ (by decide) (by decide)).trans ((hother _ fun n _ => ?_).trans ?_)
      · unfold SYS_STATE PE_PEn_STAT
        omega
      · exact deviceReset_reg.trans (if_neg fun g => hstate ((hk.iff _).1 g))
    refine (congrArg (wfld · 2 0) hs).trans ?_
    decide
  · exact (hraise a h1 h3).trans (hother a fun n hn => h4 n (List.mem_range.1 hn))
  · exact (congrArg (wfld · 2 0) (hraise _ (hpes n hn).1 (hpes n hn).2)).trans (hpe n (List.mem_range.2 hn))

theorem evrCut_bytes (h : EvrIdle c) (a : Nat) : c.evrCut.byte a = c.byte a := by
  rw [evrCut_idle h.1 h.2]

theorem goReset_leaves (hk : KeepsRow cause keep) (hstate : ¬keep SYS_STATE) : ResetLeaves c 1 cause keep (goReset c cause) :=
  reset_leaves hk (evrCut_onlyMram c) evrCut_bytes hstate (.refl _) fun _ _ => rfl

theorem goReset_pwr : (goReset c cause).pwr = (deviceReset c.evrCut cause).pwr := reset_onlyRegs.pwr

/-- Pin, software and watchdog resets leave the rails' enables, and the first two the sequencer's step. -/
theorem goReset_rails (h : cause = causePin ∨ cause = causeSw ∨ cause = causeWdt) :
    (goReset c cause).pwr.en = c.pwr.en ∧ (goReset c cause).pwr.seq = c.pwr.seq := by
  rw [goReset_pwr]
  have hon : (cause == causePor || cause == causeBor) = false := by
    obtain rfl | rfl | rfl := h
    · rfl
    · rfl
    · rfl
  have hp := (evrCut_onlyMram c).parts.pwr
  exact ⟨(if_neg (by rw [hon]; exact Bool.false_ne_true)).trans (congrArg PwrState.en hp),
    (if_neg (by rw [hon]; exact Bool.false_ne_true)).trans (congrArg PwrState.seq hp)⟩

theorem monitorReg_state : ¬MonitorReg SYS_STATE := by
  unfold MonitorReg
  decide

theorem bankReg_state : ¬BankReg SYS_STATE := by
  unfold BankReg
  decide

/-- A watchdog reset keeps the bytes of the SRAM banks. -/
theorem goReset_sram (h : regionOf a = .sram n) : (goReset c causeWdt).byte a = c.byte a := by
  refine (reset_onlyRegs.sameMem.byte a).trans ((deviceReset_byte (.inr ⟨rfl, n, h⟩) (.inr rfl)).trans ?_)
  exact (evrCut_onlyMram c).byte a (by rw [h]; exact nofun)

theorem powerOn_off (h : c.sysState = 0) : powerOn c = (goReset { c with free := c.free + 1 } c.pwr.cause).setFld
    PWR_VMON 31 16 (2900 + (Config.freeValue c.free).toNat % 62636) := if_pos h

theorem powerOn_on (h : c.sysState ≠ 0) : powerOn c = c := if_neg h

theorem powerOn_leaves (hs : c.sysState = 0) (hc : c.pwr.cause ≤ 1) :
    ResetLeaves c 1 c.pwr.cause (fun _ => False) (powerOn c) ∧ 2900 ≤ (powerOn c).fld PWR_VMON 31 16 := by
  rw [powerOn_off hs]
  generalize (Config.freeValue c.free).toNat = f
  generalize hk : c.pwr.cause = k at hc
  have hrow : k = causePor ∨ k = causeBor := by
    unfold causePor causeBor
    omega
  refine ⟨reset_leaves (keepsRow_off hrow) ((OnlyMram.free c (c.free + 1)).trans (evrCut_onlyMram _))
    (fun h a => evrCut_bytes (c := { c with free := c.free + 1 }) h a) id (.setReg _ _ _) fun a ha => KeepsReg.setFld ha _, ?_⟩
  have hv := Nat.mod_lt f (show 0 < 62636 by decide)
  generalize goReset { c with free := c.free + 1 } k = d
  have hfld : (d.setFld PWR_VMON 31 16 (2900 + f % 62636)).fld PWR_VMON 31 16 = (2900 + f % 62636) % 65536 :=
    (congrArg (wfld · 31 16) (Chip.reg_setReg_same _ _ _)).trans (wfld_wsetFld _ 31 16 _ (by decide) (by decide))
  rw [hfld]
  omega

theorem setState_onlyRegs (s : Nat) (c : Chip) : OnlyRegs c (c.setState s) := .trans (.setReg SYS_STATE _ c) (.raise 0 0 _)

theorem setState_reg {s : Nat} (h1 : a ≠ EVT_PEND 0) (h2 : a ≠ SYS_STATE) : (c.setState s).reg a = c.reg a :=
  Eq.trans (KeepsReg.raise (src := 0) (code := 0) h1 (c.setFld SYS_STATE 2 0 s)) (KeepsReg.setFld h2 c)

theorem sysState_setState {s : Nat} (h : s < 8) : (c.setState s).sysState = s := by
  have hr : (c.setState s).reg SYS_STATE = wsetFld (c.reg SYS_STATE) 2 0 s :=
    Eq.trans (KeepsReg.raise (src := 0) (code := 0) (by decide) (c.setFld SYS_STATE 2 0 s)) (Chip.reg_setReg_same _ _ _)
  exact (congrArg (wfld · 2 0) hr).trans
    ((wfld_wsetFld _ 2 0 s (by decide) (by decide)).trans (Nat.mod_eq_of_lt h))

theorem deviceReset_off (h : cause = causeBor) : (deviceReset b cause).pwr.en = 0 ∧ (deviceReset b cause).pwr.buckOn = false ∧
    (deviceReset b cause).bit PWR_GSTAT n = false := by
  subst h
  refine ⟨rfl, rfl, ?_⟩
  have h0 : (deviceReset b causeBor).reg PWR_GSTAT = 0 := deviceReset_reg.trans rfl
  unfold Chip.bit
  rw [h0]
  exact BitVec.getLsbD_zero

theorem brownOut_leaves : ResetLeaves c 0 1 (fun _ => False) (brownOut c) ∧ (brownOut c).pwr.en = 0 ∧
    (brownOut c).pwr.buckOn = false := by
  have hdone : OnlyRegs (deviceReset c.evrCut causeBor) (brownOut c) := setState_onlyRegs 0 _
  obtain ⟨hen, hbuck, -⟩ := deviceReset_off (b := c.evrCut) (n := 0) rfl
  refine ⟨resetLeaves (keepsRow_off (.inr rfl)) (evrCut_onlyMram c) evrCut_bytes hdone (sysState_setState (by decide))
    (fun a h1 h2 _ _ => setState_reg h1 h2) fun n hn => ?_, ?_, ?_⟩
  · have hg : (deviceReset c.evrCut 1).bit PWR_GSTAT n = false := (deviceReset_off rfl).2.2
    rw [hg, if_neg Bool.false_ne_true]
    exact congrArg (wfld · 2 0) (setState_reg (by unfold PE_PEn_STAT EVT_PEND; omega) (by unfold PE_PEn_STAT SYS_STATE; omega))
  · rw [hdone.pwr, hen]
  · rw [hdone.pwr, hbuck]

end Sys2Proof.Machine

end

section
/-!
PROOF. The end of RESET (R485, R487, R489, R504): the cause, the straps and the pins that the host's bus takes.
-/
namespace Sys2Proof.Machine

variable {c b d e : Chip} {a n hostsel : Nat} {bootsrc : Bool}

theorem resetDone_iff : c.resetDone = true ↔ c.sysState = 1 ∧ c.bit PWR_STAT 31 = true ∧
    (c.bit PWR_STAT 8 = true ∨ c.bit (PWR_SEQ_CFG 0) 31 = false) ∧ c.bit PWR_STAT 28 = true ∧ c.evr.op ≠ some .scan ∧
    c.tst.ir ∉ [0x00, 0x03, 0x04, 0x05, 0x06] := by
  unfold Chip.resetDone extestFamily Chip.seqUse
  simp only [Bool.and_eq_true, Bool.or_eq_true, Bool.not_eq_true', beq_iff_eq, bne_iff_ne, List.contains_eq_mem,
    decide_eq_false_iff_not, and_assoc]

/-- The repair map as the device finds it when RESET ends. -/
def Chip.repairsRead (c : Chip) : Chip := if c.bit MEM_STAT 0 then loadRepairMap c else c.setBit MEM_STAT 2 true

/-- The reset cause, the straps, the speed fuse and the host path's kind shown. -/
def Chip.strapsShown (c : Chip) (hostsel : Nat) (bootsrc : Bool) : Chip :=
  let c2 := c.setReg SYS_RSTCAUSE c.causeWord
  let c3 := c2.setReg SYS_STRAP (w32 (at_ (b2n c2.pwr.buckDis) 3 + at_ (b2n bootsrc) 2 + hostsel % 4))
  (c3.setFld SYS_BOOT 19 16 c3.sec.fuses.speed.toNat).setFld HIF_STAT 17 16 (hostsel % 4)

/-- The pins of the parallel bus given to it. -/
def Chip.busPins (c : Chip) : Chip := (List.range 32).foldl (fun c i => c.setFld (SYS_PIN (96 + i)) 3 0 7) c

/-- Line time and the watchdog started, in BOOT. -/
def Chip.bootEntered (c : Chip) : Chip :=
  let d := { c with tmu := TmuState.reset, evr := { c.evr with secAt := 1000000000 } }
  (d.setPwr fun p => { p with wd := .running 0 false, avsFrom := c.avsTarget, avsAt := 0 }).setState 2

theorem resetExit_ready (h : c.resetDone = true) (hd : c.repairsRead.strapsShown hostsel bootsrc = d) :
    resetExit c hostsel bootsrc = (if d.parallelHost then d.busPins else d).bootEntered := by
  subst hd
  exact if_pos h

theorem resetExit_waits (h : ¬c.resetDone = true) : resetExit c hostsel bootsrc = c := if_neg h

theorem loadRepairMap_parts (c : Chip) : SameParts c (loadRepairMap c) := by
  have happly (f : MemState) (w : W32) (d : Chip) : SameParts d ((List.range 32).foldl (fun c b =>
      c.setBit (MEM_BSTAT b) 31 (wbit w b)) { d.setBit MEM_STAT 1 true with memc := f }) :=
    (SameParts.setBit MEM_STAT 1 true d).trans ((SameParts.memc f _).trans (.foldl (fun d b => .setBit _ _ _ d) _ _))
  have hread (p : Nat) (d : Chip) : SameParts d (d.mramRead p 520) := .wordsRead _ d
  unfold loadRepairMap
  dsimp only
  refine .ite ((hread _ c).trans (happly _ _ _)) (.ite ?_ ?_)
  · exact ((hread _ c).trans (hread _ _)).trans (happly _ _ _)
  · exact ((hread _ c).trans (hread _ _)).trans (.setBit _ _ _ _)

theorem repairsRead_parts (c : Chip) : SameParts c c.repairsRead := .ite (loadRepairMap_parts c) (.setBit _ _ _ c)

theorem causeWord_eq (h : d.pwr = c.pwr) :
    d.causeWord = w32 (2 ^ c.pwr.cause + if c.pwr.cause = 4 ∧ c.pwr.supStop = true then 32 else 0) := by
  unfold Chip.causeWord
  rw [h]
  congr 2
  cases hs : c.pwr.supStop with
  | true =>
    by_cases hc : c.pwr.cause = 4
    · rw [hc]
      rfl
    · rw [beq_eq_false_iff_ne.2 hc, if_neg fun g => hc g.1]
      rfl
  | false =>
    rw [Bool.and_false, if_neg fun g => Bool.false_ne_true g.2]
    rfl

theorem strapsShown_regs (h : hostsel < 4) :
    (b.strapsShown hostsel bootsrc).reg SYS_RSTCAUSE = b.causeWord ∧
    (b.strapsShown hostsel bootsrc).reg SYS_STRAP = w32 (b2n b.pwr.buckDis * 8 + b2n bootsrc * 4 + hostsel) ∧
    (b.strapsShown hostsel bootsrc).fld HIF_STAT 17 16 = hostsel ∧
    (b.strapsShown hostsel bootsrc).fld SYS_BOOT 19 16 = b.sec.fuses.speed.toNat ∧
    (b.strapsShown hostsel bootsrc).pwr = b.pwr := by
  unfold Chip.strapsShown
  dsimp only
  have hmod : hostsel % 4 = hostsel := Nat.mod_eq_of_lt h
  have hspeed := b.sec.fuses.speed.isLt
  rw [Chip.setReg_sec, Chip.setReg_sec, Chip.setReg_pwr, hmod]
  generalize b.sec.fuses.speed.toNat = s at hspeed
  generalize b.causeWord = w
  have hstrap : at_ (b2n b.pwr.buckDis) 3 + at_ (b2n bootsrc) 2 + hostsel = b2n b.pwr.buckDis * 8 + b2n bootsrc * 4 + hostsel := rfl
  rw [hstrap]
  generalize w32 (b2n b.pwr.buckDis * 8 + b2n bootsrc * 4 + hostsel) = v
  refine ⟨?_, ?_, ?_, ?_, ?_⟩
  · exact (Chip.reg_setReg_other _ _ (by decide)).trans ((Chip.reg_setReg_other _ _ (by decide)).trans
      ((Chip.reg_setReg_other _ _ (by decide)).trans (Chip.reg_setReg_same _ _ _)))
  · exact (Chip.reg_setReg_other _ _ (by decide)).trans ((Chip.reg_setReg_other _ _ (by decide)).trans
      (Chip.reg_setReg_same _ _ _))
  · refine (congrArg (wfld · 17 16) (Chip.reg_setReg_same _ _ _)).trans ((wfld_wsetFld _ 17 16 _ (by decide) (by decide)).trans ?_)
    exact hmod
  · refine (congrArg (wfld · 19 16) ((Chip.reg_setReg_other _ _ (by decide)).trans (Chip.reg_setReg_same _ _ _))).trans ?_
    exact (wfld_wsetFld _ 19 16 _ (by decide) (by decide)).trans (Nat.mod_eq_of_lt hspeed)
  · rw [Chip.setFld_pwr, Chip.setFld_pwr, Chip.setReg_pwr, Chip.setReg_pwr]

theorem busPins_reg (h : a < SYS_PIN 96 ∨ SYS_PIN 127 < a) : c.busPins.reg a = c.reg a := by
  have hfold (is : List Nat) (hi : ∀ i ∈ is, i < 32) (c : Chip) :
      (is.foldl (fun c i => c.setFld (SYS_PIN (96 + i)) 3 0 7) c).reg a = c.reg a := by
    induction is generalizing c with
    | nil => rfl
    | cons i is ih =>
      have hlt := hi i List.mem_cons_self
      refine (ih (fun j hj => hi j (List.mem_cons_of_mem _ hj)) _).trans (KeepsReg.setFld ?_ c)
      unfold SYS_PIN at h ⊢
      omega
  exact hfold _ (fun i hi => List.mem_range.1 hi) c

theorem busPins_func {i : Nat} (h : i < 32) : c.busPins.pinFunc (96 + i) = 7 := by
  have hfold (is : List Nat) (c : Chip) (hi : i ∈ is ∨ c.fld (SYS_PIN (96 + i)) 3 0 = 7) :
      (is.foldl (fun c i => c.setFld (SYS_PIN (96 + i)) 3 0 7) c).fld (SYS_PIN (96 + i)) 3 0 = 7 := by
    induction is generalizing c with
    | nil => exact hi.resolve_left List.not_mem_nil
    | cons j is ih =>
      refine ih _ ?_
      by_cases hj : i = j
      · subst hj
        refine .inr ((congrArg (wfld · 3 0) (Chip.reg_setReg_same _ _ _)).trans ?_)
        exact wfld_wsetFld _ 3 0 7 (by decide) (by decide)
      · refine hi.imp (fun g => (List.mem_cons.1 g).resolve_left hj) fun g => ?_
        refine (congrArg (wfld · 3 0) (KeepsReg.setFld ?_ c)).trans g
        unfold SYS_PIN
        omega
  exact hfold _ c (.inl (List.mem_range.2 h))

theorem busPins_pwr : c.busPins.pwr = c.pwr :=
  (SameParts.foldl (fun d _ => .setFld _ _ _ _ d) _ c).pwr

theorem setState_tmu (s : Nat) (c : Chip) : (c.setState s).tmu = c.tmu := rfl

theorem bootEntered_regs (c : Chip) : c.bootEntered.sysState = 2 ∧ c.bootEntered.tmu = TmuState.reset ∧
    c.bootEntered.pwr.wd = .running 0 false ∧ ∀ a, a ≠ EVT_PEND 0 → a ≠ SYS_STATE → c.bootEntered.reg a = c.reg a := by
  refine ⟨sysState_setState (by decide), ?_, ?_, fun a h1 h2 => setState_reg h1 h2⟩
  · exact setState_tmu 2 _
  · exact congrArg PwrState.wd (setState_onlyRegs 2 _).pwr

/-- What the end of RESET leaves. -/
theorem resetExit_effect (h : c.resetDone = true) (hs : hostsel < 4) :
    let d := resetExit c hostsel bootsrc
    d.sysState = 2 ∧
    d.reg SYS_RSTCAUSE = w32 (2 ^ c.pwr.cause + if c.pwr.cause = 4 ∧ c.pwr.supStop = true then 32 else 0) ∧
    d.reg SYS_STRAP = w32 (b2n c.pwr.buckDis * 8 + b2n bootsrc * 4 + hostsel) ∧
    d.fld HIF_STAT 17 16 = hostsel ∧ d.fld SYS_BOOT 19 16 = c.sec.fuses.speed.toNat ∧ d.tmu = TmuState.reset ∧
    d.pwr.wd = .running 0 false ∧ (2 ≤ hostsel → ∀ i, i < 32 → d.pinFunc (96 + i) = 7) := by
  have hparts := repairsRead_parts c
  obtain ⟨hcause, hstrap, hhif, hspeed, -⟩ := strapsShown_regs (b := c.repairsRead) (bootsrc := bootsrc) hs
  rw [hparts.pwr] at hstrap
  rw [hparts.sec] at hspeed
  rw [causeWord_eq hparts.pwr] at hcause
  dsimp only
  rw [resetExit_ready h rfl]
  generalize c.repairsRead.strapsShown hostsel bootsrc = e at hcause hstrap hhif hspeed
  have hpar : e.parallelHost = true ↔ 2 ≤ hostsel := by
    have hlow : ∀ (x y : Bool) (k : Fin 4), wfld (w32 (b2n x * 8 + b2n y * 4 + k.val)) 1 0 = k.val := by decide
    unfold Chip.parallelHost Chip.fld
    rw [hstrap, decide_eq_true_iff, hlow c.pwr.buckDis bootsrc ⟨hostsel, hs⟩]
  have hkeep (a : Nat) (ha : a < SYS_PIN 96 ∨ SYS_PIN 127 < a) :
      (if e.parallelHost then e.busPins else e).reg a = e.reg a := KeepsReg.ite (busPins_reg ha) (.refl e)
  have hpins (h2 : 2 ≤ hostsel) (i : Nat) (hi : i < 32) : (if e.parallelHost then e.busPins else e).pinFunc (96 + i) = 7 := by
    rw [if_pos (hpar.2 h2)]
    exact busPins_func hi
  generalize (if e.parallelHost then e.busPins else e) = g at hkeep hpins
  obtain ⟨hstate, htmu, hwd, hreg⟩ := bootEntered_regs g
  have hboth (a : Nat) (h1 : a ≠ EVT_PEND 0) (h2 : a ≠ SYS_STATE) (ha : a < SYS_PIN 96 ∨ SYS_PIN 127 < a) :
      g.bootEntered.reg a = e.reg a := (hreg a h1 h2).trans (hkeep a ha)
  refine ⟨hstate, ?_, ?_, ?_, ?_, htmu, hwd, fun h2 i hi => ?_⟩
  · exact (hboth _ (by decide) (by decide) (by decide)).trans hcause
  · exact (hboth _ (by decide) (by decide) (by decide)).trans hstrap
  · exact (congrArg (wfld · 17 16) (hboth _ (by decide) (by decide) (by decide))).trans hhif
  · exact (congrArg (wfld · 19 16) (hboth _ (by decide) (by decide) (by decide))).trans hspeed
  · refine (congrArg (wfld · 3 0) (hreg _ ?_ ?_)).trans (hpins h2 i hi)
    · unfold SYS_PIN EVT_PEND
      omega
    · unfold SYS_PIN SYS_STATE
      omega

end Sys2Proof.Machine

end

section
/-!
PROOF. The watchdog, the changes of device state and the boot ROM (R38, R488 to R492).
-/
namespace Sys2Proof.Machine

variable {c d e : Chip} {m s t n : Nat} {v : W32} {h hostUp : Bool} {f : BootFacts}

/-! ### The watchdog -/

theorem romServes_iff : c.romServes = true ↔ (c.sysState = 2 ∨ (c.bit SYS_BOOT 31 = true ∧ (c.image 0).state ≠ 2)) ∧
    c.core.supStopped = false ∧ tblGet none c.core.frozen 0 = none := by
  unfold Chip.romServes Chip.romService
  simp only [Bool.and_eq_true, Bool.or_eq_true, Bool.not_eq_true', beq_iff_eq, bne_iff_ne, Option.isNone_iff_eq_none, and_assoc]

theorem wdKicked_running (hw : c.pwr.wd = .running s h) :
    c.wdKicked = { c with pwr := { c.pwr with wd := .running c.tmu.raw false } } := by
  unfold Chip.wdKicked
  rw [hw]
  rfl

theorem wdKicked_idle (hw : ∀ s h, c.pwr.wd ≠ .running s h) : c.wdKicked = c := by
  unfold Chip.wdKicked
  split
  next s h hr => exact absurd hr (hw s h)
  next => rfl

theorem wdReset_idle (hw : ∀ s h, c.pwr.wd ≠ .running s h) : wdReset c = c := by
  unfold wdReset
  split
  next s h hr => exact absurd hr (hw s h)
  next => rfl

theorem wdReset_running (hw : c.pwr.wd = .running s h) : wdReset c =
    if c.wdLimit < c.tmu.raw - s then (if c.romServes then c.wdKicked else goReset c causeWdt) else c := by
  unfold wdReset
  rw [hw]

theorem wdHalf_idle (hw : ∀ s h, c.pwr.wd ≠ .running s h) : wdHalf c = c := by
  unfold wdHalf
  split
  next s hr => exact absurd hr (hw s false)
  next => rfl

theorem wdHalf_told (hw : c.pwr.wd = .running s true) : wdHalf c = c := by
  unfold wdHalf
  rw [hw]

theorem wdHalf_running (hw : c.pwr.wd = .running s false) : wdHalf c =
    if c.wdLimit < 2 * (c.tmu.raw - s) then
      if c.romServes then c.wdKicked else (c.setPwr fun p => { p with wd := .running s true }).raise 6 0
    else c := by
  unfold wdHalf
  rw [hw]

/-- SUP is stopped or frozen and serves the watchdog no more. -/
def Chip.Mute (c : Chip) : Prop := c.core.supStopped = true ∨ tblGet none c.core.frozen 0 ≠ none

theorem wdKick_refused (hm : m ≠ 0) : wdKick c m v = c.refuse := if_pos hm

theorem mute_iff : (c.core.supStopped = true ∨ (tblGet none c.core.frozen 0).isSome = true) ↔ c.Mute :=
  or_congr .rfl Option.isSome_iff_ne_none

theorem wdKick_mute (hm : m = 0) (hc : c.Mute) : wdKick c m v = c.done :=
  (if_neg (not_not_intro hm)).trans (if_pos (mute_iff.2 hc))

theorem wdKick_serves (hm : m = 0) (hc : ¬c.Mute) :
    wdKick c m v = if v = 0xA5 then c.wdKicked.done else (c.pwrFlag 5 6).done :=
  (if_neg (not_not_intro hm)).trans (if_neg fun g => hc (mute_iff.1 g))

/-! ### Device states -/

theorem sysStateWrite_refused (hm : m ≠ 0) : sysStateWrite c m v = c.refuse := if_pos hm

theorem sysStateWrite_same (hm : m = 0) (ht : wfld v 2 0 = c.sysState) : sysStateWrite c m v = c.done :=
  (if_neg (not_not_intro hm)).trans (if_pos ht)

theorem sysStateWrite_takes (hm : m = 0) (ht : wfld v 2 0 ≠ c.sysState) (hs : c.stateChange (wfld v 2 0) = some d) :
    sysStateWrite c m v = d.done := by
  refine (if_neg (not_not_intro hm)).trans ((if_neg ht).trans ?_)
  rw [hs]

theorem sysStateWrite_unlisted (hm : m = 0) (ht : wfld v 2 0 ≠ c.sysState) (hs : c.stateChange (wfld v 2 0) = none) :
    sysStateWrite c m v = (c.setBit SYS_FLAGS 0 true).done := by
  refine (if_neg (not_not_intro hm)).trans ((if_neg ht).trans ?_)
  rw [hs]

/-- The table of R489 lists the change of state to `t`. -/
def Chip.Listed (c : Chip) (t : Nat) : Prop :=
  (c.sysState = 2 ∧ t = 3 ∧ c.fld SYS_BOOT 3 0 = 0) ∨ (c.sysState = 3 ∧ t = 4) ∨ (c.sysState = 4 ∧ t = 5) ∨
    (c.sysState = 5 ∧ t = 4) ∨ ((c.sysState = 4 ∨ c.sysState = 5) ∧ t = 3)

theorem stateChange_unlisted (h : ¬c.Listed t) : c.stateChange t = none := by
  unfold Chip.Listed at h
  unfold Chip.stateChange
  split
  next hs => exact if_neg fun g => h (.inl ⟨hs, rfl, g⟩)
  next hs => exact absurd (.inr (.inl ⟨hs, rfl⟩)) h
  next hs => exact absurd (.inr (.inr (.inl ⟨hs, rfl⟩))) h
  next hs => exact absurd (.inr (.inr (.inr (.inl ⟨hs, rfl⟩)))) h
  next hs => exact absurd (.inr (.inr (.inr (.inr ⟨.inl hs, rfl⟩)))) h
  next hs => exact absurd (.inr (.inr (.inr (.inr ⟨.inr hs, rfl⟩)))) h
  next => rfl

theorem stateChange_up (h : c.Listed t) (hup : c.sysState < t) : c.stateChange t = some (c.setState t) := by
  unfold Chip.stateChange
  obtain ⟨hs, rfl, hb⟩ | ⟨hs, rfl⟩ | ⟨hs, rfl⟩ | ⟨hs, rfl⟩ | ⟨hs, rfl⟩ := h
  · rw [hs]
    exact if_pos hb
  · rw [hs]
    rfl
  · rw [hs]
    rfl
  · omega
  · omega

theorem stateChange_leavesRun (hs : c.sysState = 5) (ht : t = 4) : c.stateChange t =
    some (((List.range 8).foldl (fun d n => if d.peState n = 3 then engineStop d n else d) c).tskLeaveRun.setState t) := by
  subst ht
  unfold Chip.stateChange
  rw [hs]
  rfl

theorem stateChange_chrysalis (hs : 4 ≤ c.sysState) (h : c.Listed t) (ht : t = 3) :
    c.stateChange t = some (c.stopUnits.setState t) := by
  subst ht
  unfold Chip.Listed at h
  have h45 : c.sysState = 4 ∨ c.sysState = 5 := by omega
  unfold Chip.stateChange
  obtain hs | hs := h45
  · rw [hs]
    rfl
  · rw [hs]
    rfl

/-! ### What the march at start-up leaves -/

theorem SameParts.freezes (x : XdmState) (c : Chip) : SameParts c { c with xdm := x } := ⟨rfl, rfl, rfl, rfl⟩

theorem SameParts.freezeAt (unit m a n rwx : Nat) (c : Chip) : SameParts c (c.freezeAt unit m a n rwx) := by
  unfold Chip.freezeAt Chip.freeze
  exact (SameParts.freezes _ c).trans (.memCause 0 _)

theorem marchRun_parts (r : MarchRun) (c : Chip) : SameParts c (c.marchRun r) := by
  unfold Chip.marchRun
  split
  · exact (SameParts.memc _ c).trans (.freezeAt _ _ _ _ _ _)
  · exact .memc _ c

theorem spareRow_parts (b row : Nat) (bad : List Nat) (c : Chip) : SameParts c (c.spareRow b row bad).2 := by
  unfold Chip.spareRow
  split
  · exact .memc _ c
  · exact .refl c

theorem foldl_pair_parts {α : Type} {g : Bool × Chip → α → Bool × Chip} (h : ∀ acc v, SameParts acc.2 (g acc v).2)
    (vs : List α) (acc : Bool × Chip) : SameParts acc.2 (vs.foldl g acc).2 := by
  induction vs generalizing acc with
  | nil => exact .refl _
  | cons v vs ih => exact (h acc v).trans (ih (g acc v))

theorem bankFailed_parts (a : Nat) (q : Bool) (c : Chip) : SameParts c
    (if q then c.setBit a 31 false else if c.bit a 31 then c else (c.setBit a 31 true).memCause 5) :=
  .ite (.setBit _ _ _ c) (.ite (.refl c) ((SameParts.setBit _ _ _ c).trans (.memCause 5 _)))

theorem marchBank_parts (r : MarchRun) (x : BankResult) (c : Chip) : SameParts c (c.marchBank r x) := by
  unfold Chip.marchBank
  dsimp only
  refine .ite (.refl c) ?_
  have h0 : SameParts c ((if r.preserve then c.wordsRead fun w => regionOf w == .sram x.bank else c).setFld
      (MEM_BSTAT x.bank) 15 8 (satTo 255 x.rows.length)) :=
    (SameParts.ite (.wordsRead _ c) (.refl c)).trans (.setFld _ _ _ _ _)
  generalize (if r.preserve then c.wordsRead fun w => regionOf w == .sram x.bank else c).setFld
      (MEM_BSTAT x.bank) 15 8 (satTo 255 x.rows.length) = c0 at h0
  have hp : SameParts c0 (if r.repair then x.rows.foldl (fun (acc : Bool × Chip) row =>
        (acc.1 && (acc.2.spareRow x.bank row x.badSpares).1, (acc.2.spareRow x.bank row x.badSpares).2)) (true, c0)
      else (!c.bit (MEM_BSTAT x.bank) 31, c0)).2 := by
    split
    · refine foldl_pair_parts (fun acc row => ?_) x.rows (true, c0)
      exact spareRow_parts x.bank row x.badSpares acc.2
    · exact .refl c0
  generalize (if r.repair then x.rows.foldl (fun (acc : Bool × Chip) row =>
        (acc.1 && (acc.2.spareRow x.bank row x.badSpares).1, (acc.2.spareRow x.bank row x.badSpares).2)) (true, c0)
      else (!c.bit (MEM_BSTAT x.bank) 31, c0)) = p at hp
  have h2 := bankFailed_parts (MEM_BSTAT x.bank) p.1 p.2
  generalize (if p.1 then p.2.setBit (MEM_BSTAT x.bank) 31 false else if p.2.bit (MEM_BSTAT x.bank) 31 then p.2
    else (p.2.setBit (MEM_BSTAT x.bank) 31 true).memCause 5) = c2 at h2
  refine ((h0.trans hp).trans h2).trans (.ite ?_ ?_)
  · exact .memc _ c2
  · exact ⟨rfl, rfl, rfl, rfl⟩

theorem marchEnds_parts (r : MarchRun) (c : Chip) : SameParts c (c.marchEnds r) := by
  have h1 : SameParts c { c with memc := { c.memc with march := none } } := .memc _ c
  unfold Chip.marchEnds
  dsimp only
  generalize ({ c with memc := { c.memc with march := none } } : Chip) = c1 at h1
  have h2 : SameParts c1 (if r.repair && c1.bit MEM_STAT 0 then
      (c1.mramWrite 0x20000000 c1.repairMap).mramWrite 0x20000800 c1.repairMap else c1) :=
    .ite ((SameParts.memWrite _ _ _ _).trans (.memWrite _ _ _ _)) (.refl _)
  generalize (if r.repair && c1.bit MEM_STAT 0 then
      (c1.mramWrite 0x20000000 c1.repairMap).mramWrite 0x20000800 c1.repairMap else c1) = c2 at h2
  have h3 : SameParts c2 (if c2.bit (MEM_BSTAT 31) 31 then c2.setBit HIF_STAT 29 true else c2) :=
    .ite (.setBit _ _ _ _) (.refl _)
  generalize (if c2.bit (MEM_BSTAT 31) 31 then c2.setBit HIF_STAT 29 true else c2) = c3 at h3
  exact ((h1.trans h2).trans h3).trans (((SameParts.setBit _ _ _ c3).trans (.setBit _ _ _ _)).trans (.memCause 4 _))

theorem marchDone_parts (xs : List BankResult) (c : Chip) : SameParts c (marchDone c xs) := by
  unfold marchDone
  split
  · exact .refl c
  · exact .ite (.refl c) ((SameParts.foldl (fun d x => marchBank_parts _ x d) xs c).trans (marchEnds_parts _ _))

theorem marchCtlWrite_parts (m : Nat) (v : W32) (c : Chip) : SameParts c (marchCtlWrite c m v) := by
  have hbanks (p : Nat → Bool) (q : List Nat) (d : Chip) : SameParts d (q.foldl (fun c b => c.setFld (MEM_BSTAT b) 15 8 0)
      ((List.range 32).foldl (fun c b => c.setBit (MEM_BSTAT b) 30 (p b)) d)) :=
    (SameParts.foldl (fun d b => .setBit _ _ _ d) _ d).trans (.foldl (fun d b => .setFld _ _ _ _ d) _ _)
  unfold marchCtlWrite
  dsimp only
  refine .ite ⟨rfl, rfl, rfl, rfl⟩ (.ite ?_ ((SameParts.setReg _ _ c).trans (.done _)))
  exact (((hbanks _ _ c).trans (.setReg _ _ _)).trans (marchRun_parts _ _)).trans (.done _)

theorem bootMarch_parts (xs : List BankResult) (c : Chip) : SameParts c (c.bootMarch xs) := by
  unfold Chip.bootMarch Chip.setSeg
  exact (((SameParts.setReg _ _ c).trans (.setReg _ _ _)).trans (.setReg _ _ _)).trans
    ((marchCtlWrite_parts _ _ _).trans (marchDone_parts xs _))

end Sys2Proof.Machine

end

section
/-!
PROOF. The boot ROM (R490 to R492): what it starts, what it serves, and where it stops.
-/
namespace Sys2Proof.Machine

variable {c d e : Chip} {a m s t n : Nat} {hostUp : Bool} {f : BootFacts} {img : List Byte}

/-! ### The host path set up -/

theorem OnlyRegs.core (h : OnlyRegs c d) : d.core = c.core := by
  obtain ⟨r, x, u, rfl⟩ := h
  rfl

theorem OnlyRegs.hif (h : OnlyRegs c d) : d.hif = c.hif := by
  obtain ⟨r, x, u, rfl⟩ := h
  rfl

/-- A register that neither the rings' preparation nor the host's segment writes. -/
def Unprepared (a : Nat) : Prop :=
  a ≠ MEM_OGRP 15 ∧ a ≠ MEM_BOWN 31 ∧ a ≠ MBn_CFG 0 ∧ a ≠ MBn_CFG 1 ∧ a ≠ HIF_STAT ∧ (a < 0x400D4000 ∨ 0x400D8000 ≤ a)

theorem setSeg_only (m s base size rights : Nat) (c : Chip) : OnlyRegs c (c.setSeg m s base size rights) :=
  .trans (.setReg _ _ c) (.setReg _ _ _)

theorem setSeg_reg {base size rights : Nat} (hm : m < 16) (hs : s < 16) (h : a < 0x400D4000 ∨ 0x400D8000 ≤ a) :
    (c.setSeg m s base size rights).reg a = c.reg a := by
  have hb : a ≠ XDM_SEGm_BASEs m s ∧ a ≠ XDM_SEGm_SIZEs m s := by
    unfold XDM_SEGm_BASEs XDM_SEGm_SIZEs
    omega
  exact Eq.trans (KeepsReg.setReg hb.2 _) (KeepsReg.setReg hb.1 c)

/-- The rings' owner group, bank and segment, and the mailbox path. -/
def Chip.ringsOwned (c : Chip) : Chip := ((c.setReg (MEM_OGRP 15) 0x801).setReg (MEM_BOWN 31) 15).setSeg 11 15 0x10F80000 0x80000 3

def Chip.mailPath (c : Chip) : Chip := (c.setReg (MBn_CFG 0) 0xC000000B).setReg (MBn_CFG 1) 0xC00000B0

theorem prepareRings_eq : c.prepareRings =
    c.ringsOwned.mailPath.setBit HIF_STAT 29 (c.ringsOwned.mailPath.bit (MEM_BSTAT 31) 31) := rfl

theorem ringsOwned_regs (c : Chip) : OnlyRegs c c.ringsOwned ∧ c.ringsOwned.reg (MEM_OGRP 15) = 0x801 ∧
    c.ringsOwned.reg (MEM_BOWN 31) = 15 ∧ ∀ a, Unprepared a → c.ringsOwned.reg a = c.reg a := by
  have hseg (a : Nat) (h : a < 0x400D4000 ∨ 0x400D8000 ≤ a) :
      c.ringsOwned.reg a = ((c.setReg (MEM_OGRP 15) 0x801).setReg (MEM_BOWN 31) 15).reg a :=
    setSeg_reg (by decide) (by decide) h
  refine ⟨((OnlyRegs.setReg _ _ c).trans (.setReg _ _ _)).trans (setSeg_only _ _ _ _ _ _), ?_, ?_, fun a ha => ?_⟩
  · exact (hseg _ (by decide)).trans (Eq.trans (KeepsReg.setReg (by decide) _) (Chip.reg_setReg_same _ _ _))
  · exact (hseg _ (by decide)).trans (Chip.reg_setReg_same _ _ _)
  · obtain ⟨h1, h2, -, -, -, hs⟩ := ha
    exact (hseg a hs).trans (Eq.trans (KeepsReg.setReg h2 _) (KeepsReg.setReg h1 c))

theorem mailPath_regs (c : Chip) : OnlyRegs c c.mailPath ∧ c.mailPath.reg (MBn_CFG 0) = 0xC000000B ∧
    c.mailPath.reg (MBn_CFG 1) = 0xC00000B0 ∧ ∀ a, a ≠ MBn_CFG 0 → a ≠ MBn_CFG 1 → c.mailPath.reg a = c.reg a := by
  refine ⟨(OnlyRegs.setReg _ _ c).trans (.setReg _ _ _), ?_, Chip.reg_setReg_same _ _ _, fun a h0 h1 => ?_⟩
  · exact Eq.trans (KeepsReg.setReg (by decide) _) (Chip.reg_setReg_same _ _ _)
  · exact Eq.trans (KeepsReg.setReg h1 _) (KeepsReg.setReg h0 c)

/-- The mailboxes and bank 31 are the host's. -/
structure Prepared (c : Chip) : Prop where
  mb0 : c.reg (MBn_CFG 0) = 0xC000000B
  mb1 : c.reg (MBn_CFG 1) = 0xC00000B0
  group : c.reg (MEM_OGRP 15) = 0x801
  owner : c.reg (MEM_BOWN 31) = 15

theorem Prepared.congr (h : Prepared c) (hr : ∀ a, a = MBn_CFG 0 ∨ a = MBn_CFG 1 ∨ a = MEM_OGRP 15 ∨ a = MEM_BOWN 31 →
    d.reg a = c.reg a) : Prepared d :=
  ⟨(hr _ (.inl rfl)).trans h.mb0, (hr _ (.inr (.inl rfl))).trans h.mb1, (hr _ (.inr (.inr (.inl rfl)))).trans h.group,
    (hr _ (.inr (.inr (.inr rfl)))).trans h.owner⟩

theorem prepareRings_regs (c : Chip) : OnlyRegs c c.prepareRings ∧ Prepared c.prepareRings ∧
    ∀ a, Unprepared a → c.prepareRings.reg a = c.reg a := by
  rw [prepareRings_eq]
  obtain ⟨ho, hgroup, howner, hreg⟩ := ringsOwned_regs c
  generalize c.ringsOwned = d at ho hgroup howner hreg
  obtain ⟨ho', h0, h1, hreg'⟩ := mailPath_regs d
  have hp : Prepared d.mailPath :=
    ⟨h0, h1, (hreg' _ (by decide) (by decide)).trans hgroup, (hreg' _ (by decide) (by decide)).trans howner⟩
  generalize d.mailPath = e at ho' hreg' hp
  refine ⟨(ho.trans ho').trans (.setReg _ _ e), hp.congr fun a ha => KeepsReg.setBit ?_ e, fun a ha => ?_⟩
  · obtain rfl | rfl | rfl | rfl := ha
    · decide
    · decide
    · decide
    · decide
  · obtain ⟨-, -, hm0, hm1, hh, -⟩ := id ha
    exact Eq.trans (KeepsReg.setBit hh e) ((hreg' a hm0 hm1).trans (hreg a ha))

/-- The host path up. -/
def Chip.pathSetUp (c : Chip) : Chip := { c with hif := { c.hif with pathUp := true } }

theorem pathSetUp_reg (c : Chip) (a : Nat) : c.pathSetUp.reg a = c.reg a := rfl

theorem pathSetUp_core (c : Chip) : c.pathSetUp.core = c.core := rfl

theorem pathSetUp_up (c : Chip) : c.pathSetUp.hif.pathUp = true := rfl

theorem serve_eq : c.serve = (c.prepareRings.setSeg 13 0 0 0xFFFFFFC0 3).pathSetUp.setState 3 := rfl

/-- What the host path's setting up leaves: CHRYSALIS, the path up, the mailboxes and bank 31 the host's. -/
theorem serve_effect (c : Chip) : c.serve.sysState = 3 ∧ c.serve.hif.pathUp = true ∧ Prepared c.serve ∧
    c.serve.core = c.core ∧ ∀ a, Unprepared a → a ≠ EVT_PEND 0 → a ≠ SYS_STATE → c.serve.reg a = c.reg a := by
  obtain ⟨ho, hp, hreg⟩ := prepareRings_regs c
  rw [serve_eq]
  generalize c.prepareRings = d at ho hp hreg
  have ho1 := ho.trans (setSeg_only 13 0 0 0xFFFFFFC0 3 d)
  have hreg1 (a : Nat) (ha : a < 0x400D4000 ∨ 0x400D8000 ≤ a) : (d.setSeg 13 0 0 0xFFFFFFC0 3).reg a = d.reg a :=
    setSeg_reg (by decide) (by decide) ha
  generalize d.setSeg 13 0 0 0xFFFFFFC0 3 = e at ho1 hreg1
  have hcore : e.pathSetUp.core = c.core := (pathSetUp_core e).trans ho1.core
  have hup : e.pathSetUp.hif.pathUp = true := pathSetUp_up e
  have hreg2 (a : Nat) (ha : a < 0x400D4000 ∨ 0x400D8000 ≤ a) : e.pathSetUp.reg a = d.reg a :=
    (pathSetUp_reg e a).trans (hreg1 a ha)
  generalize e.pathSetUp = g at hcore hup hreg2
  have ho2 := setState_onlyRegs 3 g
  refine ⟨sysState_setState (by decide), (congrArg HifState.pathUp ho2.hif).trans hup, hp.congr fun a ha => ?_,
    ho2.core.trans hcore, fun a ha h1 h2 => ?_⟩
  · have hlist : a ≠ EVT_PEND 0 ∧ a ≠ SYS_STATE ∧ (a < 0x400D4000 ∨ 0x400D8000 ≤ a) := by
      obtain rfl | rfl | rfl | rfl := ha
      · decide
      · decide
      · decide
      · decide
    obtain ⟨h1, h2, hs⟩ := hlist
    exact (setState_reg h1 h2).trans (hreg2 a hs)
  · have hall := hreg a ha
    obtain ⟨-, -, -, -, -, hs⟩ := ha
    exact (setState_reg h1 h2).trans ((hreg2 a hs).trans hall)

/-! ### Firmware started -/

theorem wdKicked_core : c.wdKicked.core = c.core := by
  unfold Chip.wdKicked
  split <;> rfl

/-- The sections of an image copied into SUP's own memory, and the core reset. -/
def Chip.imageCopied (c : Chip) (img : List Byte) : Chip :=
  ((imgSections img).foldl (fun c s => if s.ty = 1 then c.setBytes (0x30900000 + s.addr) s.data else c) c).resetCore 0

/-- SUP's context at the image's start. -/
def firmwareCtx : Ctx := { Ctx.reset with st := .ready, pc := 0x30900000 }

/-- The watchdog served a last time, and the image noted as the one that runs. -/
def Chip.imageNoted (c : Chip) (img : List Byte) : Chip :=
  let h := imgHead img
  let c3 := c.wdKicked.setImage 0 (imgInfo img 0 2)
  { c3 with sec := { c3.sec with supAdvance := if h.flags = 1 then some h.counter else none } }

theorem imageNoted_core (c : Chip) (img : List Byte) : (c.imageNoted img).core = c.core := wdKicked_core

theorem runFirmware_eq : c.runFirmware img = ((c.imageCopied img).setCtx 0 0 firmwareCtx).imageNoted img := by
  unfold Chip.runFirmware Chip.imageNoted Chip.imageCopied firmwareCtx
  rfl

theorem ctx_congr (h : d.core = e.core) (k x : Nat) : d.ctx k x = e.ctx k x := by
  unfold Chip.ctx
  rw [h]

theorem runFirmware_ctx : (c.runFirmware img).ctx 0 0 = firmwareCtx := by
  rw [runFirmware_eq]
  generalize c.imageCopied img = d
  exact (ctx_congr (imageNoted_core _ img) 0 0).trans (ctx_setCtx_same d 0 0 _)

/-! ### The boot ROM's steps -/

/-- The boot ROM still has to bring the device out of BOOT. -/
def Chip.Booting (c : Chip) : Prop := c.sysState = 2 ∧ c.fld SYS_BOOT 3 0 = 0 ∧ c.hif.pathUp = false

/-- The march of all banks, left out after a watchdog reset. -/
def Chip.marched (c : Chip) (f : BootFacts) : Chip := if c.bit SYS_RSTCAUSE 4 then c else c.bootMarch f.march

theorem marched_pwr : (c.marched f).pwr = c.pwr := (SameParts.ite (.refl c) (bootMarch_parts f.march c)).pwr

/-- The image that verifies is run, or the host path waited for. -/
def Chip.imagePicked (c : Chip) (hostUp : Bool) : Chip :=
  let a := if c.bit SYS_STRAP 2 then none else c.flashImage 0
  let b := if c.bit SYS_STRAP 2 || a.isSome then none else c.flashImage 1
  match a, b with
  | some img, _ => (c.runFirmware img).serve
  | none, some img => ((c.runFirmware img).setBit SYS_BOOT 30 true).serve
  | none, none => (if c.bit SYS_STRAP 2 then c else c.imgFailed).romWaits hostUp

theorem not_booting_iff : (c.sysState ≠ 2 ∨ c.fld SYS_BOOT 3 0 ≠ 0 ∨ c.hif.pathUp = true) ↔ ¬c.Booting := by
  unfold Chip.Booting
  rw [Classical.not_and_iff_not_or_not, Classical.not_and_iff_not_or_not, Bool.not_eq_false]

theorem bootRomRun_over (h : ¬c.Booting) : bootRomRun c f = c := if_pos (not_booting_iff.2 h)

theorem bootRomRun_waits (h : c.Booting) (hw : c.pwr.hostWait = some t) : bootRomRun c f = c.romWaits f.hostUp :=
  (if_neg fun g => not_booting_iff.1 g h).trans (if_pos (by rw [hw]; rfl))

theorem bootRomRun_first (h : c.Booting) (hw : c.pwr.hostWait = none) (hd : c.marched f = d) : bootRomRun c f =
    if !f.lockstepOk then d.bootError 3
    else if !f.secOk then d.bootError 1
    else if d.bit (MEM_BSTAT 0) 31 || d.bit (MEM_BSTAT 1) 31 then d.bootError 2
    else d.imagePicked f.hostUp := by
  subst hd
  exact (if_neg fun g => not_booting_iff.1 g h).trans (if_neg (by rw [hw]; exact Bool.false_ne_true))

theorem imagePicked_host (h : c.bit SYS_STRAP 2 = true) : c.imagePicked hostUp = c.romWaits hostUp := by
  unfold Chip.imagePicked
  rw [h]
  rfl

theorem imagePicked_first (h : c.bit SYS_STRAP 2 = false) (hi : c.flashImage 0 = some img) :
    c.imagePicked hostUp = (c.runFirmware img).serve := by
  unfold Chip.imagePicked
  rw [h, hi]
  rfl

theorem imagePicked_second (h : c.bit SYS_STRAP 2 = false) (h0 : c.flashImage 0 = none) (hi : c.flashImage 1 = some img) :
    c.imagePicked hostUp = ((c.runFirmware img).setBit SYS_BOOT 30 true).serve := by
  unfold Chip.imagePicked
  rw [h, h0, hi]
  rfl

theorem imagePicked_none (h : c.bit SYS_STRAP 2 = false) (h0 : c.flashImage 0 = none) (h1 : c.flashImage 1 = none) :
    c.imagePicked hostUp = c.imgFailed.romWaits hostUp := by
  unfold Chip.imagePicked
  rw [h, h0, h1]
  rfl

theorem romWaits_up : c.romWaits true = (c.setBit SYS_BOOT 31 true).serve := rfl

theorem romWaits_first (hw : c.pwr.hostWait = none) :
    c.romWaits false = { c with pwr := { c.pwr with hostWait := some c.tmu.raw } } :=
  (if_neg Bool.false_ne_true).trans (if_neg (by rw [hw]; exact Bool.false_ne_true))

theorem romWaits_again (hw : c.pwr.hostWait = some t) : c.romWaits false = c :=
  (if_neg Bool.false_ne_true).trans (if_pos (by rw [hw]; rfl))

theorem hostPathTimeout_none (hw : c.pwr.hostWait = none) : hostPathTimeout c = c := by
  unfold hostPathTimeout
  rw [hw]

theorem hostPathTimeout_waits (hw : c.pwr.hostWait = some t) : hostPathTimeout c =
    if c.sysState = 2 ∧ c.fld SYS_BOOT 3 0 = 0 ∧ c.bit SYS_STRAP 2 = false ∧ c.hif.pathUp = false ∧
      t + 1000000000 < c.tmu.raw then c.bootError 4
    else c := by
  unfold hostPathTimeout
  rw [hw]

end Sys2Proof.Machine

end

section
/-!
PROOF. Resets, the watchdog, device states and the boot ROM (R38, R485 to R492), settled.
-/
namespace Sys2Proof.Machine

variable {c d e : Chip} {a m n hostsel : Nat} {v : W32} {f : BootFacts}

theorem pinReset_on (h : c.supplied = true) : pinReset c = goReset c causePin :=
  if_neg (Nat.ne_of_gt (of_decide_eq_true h))

theorem rstWrite_key : rstWrite c 0 0x5EED = (goReset c causeSw).done :=
  (if_neg (not_not_intro rfl)).trans (if_pos (by decide))

theorem softwareReset_leaves : ResetLeaves c 1 3 MonitorReg (goReset c causeSw).done ∧
    (goReset c causeSw).done.pwr.en = c.pwr.en ∧ (goReset c causeSw).done.pwr.seq = c.pwr.seq := by
  obtain ⟨hen, hseq⟩ := goReset_rails (c := c) (.inr (.inl rfl))
  exact ⟨reset_leaves (keepsRow_monitors (.inr rfl)) (evrCut_onlyMram c) evrCut_bytes monitorReg_state (.done _) fun _ _ => rfl,
    hen, hseq⟩

/-- CHRYSALIS with the host path up, and mailboxes and bank 31 the host's. -/
def Chip.Served (d : Chip) : Prop := d.sysState = 3 ∧ d.hif.pathUp = true ∧ d.reg (MBn_CFG 0) = 0xC000000B ∧
  d.reg (MBn_CFG 1) = 0xC00000B0 ∧ d.reg (MEM_OGRP 15) = 0x801 ∧ d.reg (MEM_BOWN 31) = 15

theorem serve_served (c : Chip) : c.serve.Served := by
  obtain ⟨hs, hup, ⟨h0, h1, hg, ho⟩, -, -⟩ := serve_effect c
  exact ⟨hs, hup, h0, h1, hg, ho⟩

theorem serve_bootBit {i : Nat} (hi : i < 32) : (c.setBit SYS_BOOT i true).serve.bit SYS_BOOT i = true := by
  obtain ⟨-, -, -, -, hreg⟩ := serve_effect (c.setBit SYS_BOOT i true)
  refine (congrArg (wbit · i) (hreg SYS_BOOT ?_ (by decide) (by decide))).trans ?_
  · unfold Unprepared
    decide
  · exact (Chip.bit_setBit (c := c) SYS_BOOT i true SYS_BOOT i hi).trans (if_pos ⟨rfl, rfl⟩)

theorem serve_ctx (k x : Nat) : c.serve.ctx k x = c.ctx k x := by
  obtain ⟨-, -, -, hcore, -⟩ := serve_effect c
  exact ctx_congr hcore k x

/-- Firmware that was started runs from the start of SUP's own memory. -/
theorem served_firmware {img : List Byte} : (c.runFirmware img).serve.Served ∧
    ((c.runFirmware img).serve.ctx 0 0).st = .ready ∧ ((c.runFirmware img).serve.ctx 0 0).pc = 0x30900000 := by
  have hctx : (c.runFirmware img).serve.ctx 0 0 = firmwareCtx := (serve_ctx 0 0).trans runFirmware_ctx
  rw [hctx]
  exact ⟨serve_served _, rfl, rfl⟩

theorem served_second {img : List Byte} : let d := ((c.runFirmware img).setBit SYS_BOOT 30 true).serve
    (d.Served ∧ (d.ctx 0 0).st = .ready ∧ (d.ctx 0 0).pc = 0x30900000) ∧ d.bit SYS_BOOT 30 = true := by
  have hctx : ((c.runFirmware img).setBit SYS_BOOT 30 true).serve.ctx 0 0 = firmwareCtx :=
    (serve_ctx 0 0).trans ((ctx_congr (Chip.setBit_core _ _ _ true) 0 0).trans runFirmware_ctx)
  dsimp only
  rw [hctx]
  exact ⟨⟨serve_served _, rfl, rfl⟩, serve_bootBit (by decide)⟩

theorem served_romService : (c.romWaits true).Served ∧ (c.romWaits true).bit SYS_BOOT 31 = true := by
  rw [romWaits_up]
  exact ⟨serve_served _, serve_bootBit (by decide)⟩

end Sys2Proof.Machine

namespace Sys2Proof
open Machine

/-- Settles O58: each reset is the device at reset with the row of R486 kept (`ResetLeaves`), then what the reset itself adds
in registers; the watchdog, the changes of state and the boot ROM branch by branch. The strict limits of the watchdog and of
the host path are log entries 22 and 212, the ROM's service of the watchdog and the march's segment 212 and 54, SUP's start
at 0x3090_0000 log entry 54, STOPPED engines and the free readings log entry 182, what EVR's write leaves log entry 167: the
model's choices. -/
theorem resetsStatesAndBoot : Obligations.ResetsStatesAndBoot := by
  unfold Obligations.ResetsStatesAndBoot
  intro m v hostsel bootsrc f c pwr monitors banks reset limit ready t rom restarted mute listed entered booting stopped marched
    host first sound served runs
  have hmarched : c.marched f = marched := rfl
  have hrom : c.romServes = true ↔ rom := romServes_iff
  have hstay : ¬rom → ¬c.romServes = true := fun h g => h (hrom.1 g)
  have hpicked : sound → bootRomRun c f = marched.imagePicked f.hostUp := by
    rintro ⟨hb, hf, h1, h2, h3, h4⟩
    refine (bootRomRun_first hb hf hmarched).trans ((if_neg (by rw [h1]; exact Bool.false_ne_true)).trans
      ((if_neg (by rw [h2]; exact Bool.false_ne_true)).trans (if_neg ?_)))
    rw [h3, h4]
    exact Bool.false_ne_true
  refine ⟨fun hs hc => ?_, fun hs => does_powerOn (powerOn_on hs), ?_, fun hs => ?_, ?_, fun hw => ?_, fun s h hw => ?_,
    fun hm => ?_, fun hm hc => ?_, fun hm hc hv => ?_, fun hm hc hv => ?_, fun hr => ?_, fun hr => ?_, fun hm ht => ?_,
    fun hm ht hl => ?_, fun hm hl hup => ?_, fun hm hl hs ht => ?_, fun hm hl hs ht => ?_, fun hb => ?_, fun hb t hw => ?_,
    fun hb hf h1 => ?_, fun hb hf h1 h2 => ?_, fun hb hf h1 h2 h3 => ?_, fun hs hh => ?_, fun hs hh => ?_, fun hf => ?_,
    fun t hw => ?_⟩
  · obtain ⟨hl, hv⟩ := powerOn_leaves hs hc
    exact ⟨powerOn c, does_powerOn rfl, hl, hv⟩
  · obtain ⟨hl, hen, hb⟩ := brownOut_leaves (c := c)
    exact ⟨brownOut c, does_brownOut rfl, hl, hen, hb⟩
  · obtain ⟨hen, hseq⟩ := goReset_rails (c := c) (.inl rfl)
    exact ⟨goReset c causePin, does_pinReset (pinReset_on hs) hs, goReset_leaves (keepsRow_monitors (.inl rfl)) monitorReg_state,
      hen, hseq⟩
  · obtain ⟨hl, hen, hseq⟩ := softwareReset_leaves (c := c)
    exact (does_softwareReset (regWrite_PWR_RST.trans rstWrite_key)).gives ⟨hl, hen, hseq, rfl⟩
  · exact ⟨does_watchdogReset (wdReset_idle hw), does_watchdogHalf (wdHalf_idle hw)⟩
  · have hr := wdReset_running hw
    have hkick := wdKicked_running hw
    refine ⟨fun hl hn => ?_, fun hl hn => ?_, fun hl => ?_, fun hh hl hn => ?_, fun hh hl hn => ?_, fun hl => ?_⟩
    · obtain ⟨hen, -⟩ := goReset_rails (c := c) (.inr (.inr rfl))
      exact (does_watchdogReset (hr.trans ((if_pos hl).trans (if_neg (hstay hn))))).gives
        ⟨goReset_leaves keepsRow_watchdog bankReg_state, hen, fun a n ha => goReset_sram ha⟩
    · exact does_watchdogReset (hr.trans ((if_pos hl).trans ((if_pos (hrom.2 hn)).trans hkick)))
    · exact does_watchdogReset (hr.trans (if_neg (Nat.not_lt.2 hl)))
    · subst hh
      exact does_watchdogHalf ((wdHalf_running hw).trans ((if_pos hl).trans (if_neg (hstay hn))))
    · subst hh
      exact does_watchdogHalf ((wdHalf_running hw).trans ((if_pos hl).trans ((if_pos (hrom.2 hn)).trans hkick)))
    · cases h with
      | true => exact does_watchdogHalf (wdHalf_told hw)
      | false => exact does_watchdogHalf ((wdHalf_running hw).trans (if_neg (Nat.not_lt.2 (hl.resolve_left Bool.false_ne_true))))
  · exact ⟨does_watchdogKick (regWrite_PWR_WDT_KICK.trans (wdKick_refused hm)),
      does_sysStateWrite (regWrite_SYS_STATE.trans (sysStateWrite_refused hm))⟩
  · exact does_watchdogKick (regWrite_PWR_WDT_KICK.trans (wdKick_mute hm hc))
  · exact does_watchdogKick (regWrite_PWR_WDT_KICK.trans ((wdKick_serves hm hc).trans (if_neg hv)))
  · have hk : regWrite c m.val PWR_WDT_KICK v = c.wdKicked.done :=
      regWrite_PWR_WDT_KICK.trans ((wdKick_serves hm hc).trans (if_pos hv))
    exact ⟨fun s h hw => does_watchdogKick (hk.trans (congrArg Chip.done (wdKicked_running hw))),
      fun hw => does_watchdogKick (hk.trans (congrArg Chip.done (wdKicked_idle hw)))⟩
  · exact does_resetExit (resetExit_waits fun g => hr (resetDone_iff.1 g))
  · exact (does_resetExit rfl).gives (resetExit_effect (resetDone_iff.2 hr) hostsel.isLt)
  · exact does_sysStateWrite (regWrite_SYS_STATE.trans (sysStateWrite_same hm ht))
  · exact does_sysStateWrite (regWrite_SYS_STATE.trans (sysStateWrite_unlisted hm ht (stateChange_unlisted hl)))
  · exact does_sysStateWrite (regWrite_SYS_STATE.trans (sysStateWrite_takes hm (Nat.ne_of_gt hup) (stateChange_up hl hup)))
  · have hne : t ≠ c.sysState := by omega
    exact does_sysStateWrite (regWrite_SYS_STATE.trans (sysStateWrite_takes hm hne (stateChange_leavesRun hs ht)))
  · have hne : t ≠ c.sysState := by omega
    exact does_sysStateWrite (regWrite_SYS_STATE.trans (sysStateWrite_takes hm hne (stateChange_chrysalis hs hl ht)))
  · exact does_bootRomRun (bootRomRun_over hb)
  · have hr := bootRomRun_waits (f := f) hb hw
    refine ⟨fun hu => ?_, fun hu => ?_⟩
    · rw [hu] at hr
      exact (does_bootRomRun hr).gives served_romService
    · rw [hu] at hr
      exact does_bootRomRun (hr.trans (romWaits_again hw))
  · exact does_bootRomRun ((bootRomRun_first hb hf hmarched).trans (if_pos (by rw [h1]; rfl)))
  · exact does_bootRomRun ((bootRomRun_first hb hf hmarched).trans ((if_neg (by rw [h1]; exact Bool.false_ne_true)).trans
      (if_pos (by rw [h2]; rfl))))
  · exact does_bootRomRun ((bootRomRun_first hb hf hmarched).trans ((if_neg (by rw [h1]; exact Bool.false_ne_true)).trans
      ((if_neg (by rw [h2]; exact Bool.false_ne_true)).trans (if_pos (Bool.or_eq_true_iff.2 h3)))))
  · have hp := hpicked hs
    exact ⟨fun img h0 => (does_bootRomRun (hp.trans (imagePicked_first hh h0))).gives served_firmware,
      fun h0 img h1 => (does_bootRomRun (hp.trans (imagePicked_second hh h0 h1))).gives served_second⟩
  · have hp := hpicked hs
    have hwaits : marched.imagePicked f.hostUp = (if host then marched else marched.flag SEC_EVCAUSE 0 21).romWaits f.hostUp := by
      by_cases hh' : marched.bit SYS_STRAP 2 = true
      · exact (imagePicked_host hh').trans (congrArg (fun d => Chip.romWaits d f.hostUp) (if_pos hh').symm)
      · obtain ⟨h0, h1⟩ := hh.resolve_left hh'
        exact (imagePicked_none (Bool.not_eq_true _ ▸ hh') h0 h1).trans
          (congrArg (fun d => Chip.romWaits d f.hostUp) (if_neg hh').symm)
    intro waits
    have hr : bootRomRun c f = waits.romWaits f.hostUp := hp.trans hwaits
    have hnone : waits.pwr.hostWait = none := by
      obtain ⟨-, hf, -⟩ := hs
      have hpwr : waits.pwr = c.pwr :=
        (SameParts.ite (.refl marched) (.flag SEC_EVCAUSE 0 21 marched)).pwr.trans (marched_pwr (f := f))
      exact (congrArg PwrState.hostWait hpwr).trans hf
    refine ⟨fun hu => ?_, fun hu => ?_⟩
    · rw [hu] at hr
      exact (does_bootRomRun hr).gives served_romService
    · rw [hu] at hr
      exact does_bootRomRun (hr.trans (romWaits_first hnone))
  · exact does_hostPathTimeout (hostPathTimeout_none hf)
  · have ht := hostPathTimeout_waits hw
    refine ⟨fun ⟨h2, h0, hup⟩ hs hl => does_hostPathTimeout (ht.trans (if_pos ⟨h2, h0, hs, hup, hl⟩)), fun hn => ?_⟩
    refine does_hostPathTimeout (ht.trans (if_neg fun ⟨h2, h0, hs, hup, hl⟩ => ?_))
    obtain hb | hs' | hl' := hn
    · exact hb ⟨h2, h0, hup⟩
    · exact Bool.false_ne_true (hs.symm.trans hs')
    · exact absurd hl (Nat.not_lt.2 hl')

end Sys2Proof

end

section
/-!
PROOF. Pins, PRBS link tests and the TAP (R502, R504, R519 to R527): what each access of them does.
-/
namespace Sys2Proof.Machine

variable {c d e : Chip} {a m n code req : Nat} {v w : W32} {b : Bool} {bs : List Bool}

/-! ### Pins -/

theorem regRow_pin (g : Fin 128) :
    regRow (SYS_PIN g.val) = some ⟨0x40001000, 1, 0, 128, 4, 0x110, 0, 0x333F, 0, 0, 0, 0, [], false⟩ := by
  revert g
  decide

theorem pinWrite_refused (h : m ≠ 0 ∨ 7 < wfld v 3 0 ∨ (wfld v 3 0 = 7 ∧ (n < 96 ∨ ¬2 ≤ c.fld SYS_STRAP 1 0)) ∨
    (96 ≤ n ∧ 2 ≤ c.fld SYS_STRAP 1 0 ∧ wfld v 3 0 ≠ 7)) : pinWrite c m n v = c.refuse := by
  unfold pinWrite Chip.parallelHost
  simp only [decide_eq_true_iff, decide_eq_false_iff_not]
  exact if_pos h

theorem pinWrite_taken (g : Fin 128) (hm : m = 0) (h : ¬(7 < wfld v 3 0 ∨ (wfld v 3 0 = 7 ∧ (g.val < 96 ∨ ¬2 ≤ c.fld SYS_STRAP 1 0)) ∨
    (96 ≤ g.val ∧ 2 ≤ c.fld SYS_STRAP 1 0 ∧ wfld v 3 0 ≠ 7))) (hw : (if wfld v 5 4 = 3 then wsetFld v 5 4 1 else v) = w) :
    pinWrite c m g.val v = (c.setReg (SYS_PIN g.val) ((c.reg (SYS_PIN g.val) &&& ~~~0x333F) ||| (w &&& 0x333F))).done := by
  subst hm hw
  have hplain := Chip.plainWrite_row (c := c) (v := if wfld v 5 4 = 3 then wsetFld v 5 4 1 else v) (regRow_pin g) rfl rfl (.inr rfl)
  simp only [RegRow.merge, BEq.rfl, if_true, Nat.zero_or, BitVec.and_zero, BitVec.not_zero, BitVec.and_allOnes,
    BitVec.or_zero] at hplain
  refine Eq.trans ?_ hplain
  unfold pinWrite Chip.parallelHost
  simp only [decide_eq_true_iff, decide_eq_false_iff_not]
  exact if_neg fun g => g.elim (fun g => g rfl) h

/-! ### PRBS runs -/

theorem prbsRefused_iff : c.prbsRefused n a = true ↔ (n < 8 ∧ c.fld (ETH_Pn_CTL n) 3 0 ≠ 0) ∨
    (10 ≤ n ∧ c.bit (CANn_CTL (n - 10)) 31 = true) ∨ ((n = 8 ∨ n = 9) ∧ c.fld HIF_STAT 17 16 = 0) ∨
    (n < 4 ∧ c.bit PWR_STAT 17 = true) ∨ (4 ≤ n ∧ n ≤ 9 ∧ c.bit PWR_STAT 18 = true) ∨
    (if 4 ≤ n ∧ n ≤ 9 then 4 else 2) < a := by
  unfold Chip.prbsRefused prbsTop
  simp only [Bool.or_eq_true, Bool.and_eq_true, decide_eq_true_iff, bne_iff_ne, beq_iff_eq, or_assoc, and_assoc]

theorem prbsCtlWrite_refused (hm : m ≠ 0) : prbsCtlWrite c m n v = c.refuse := if_pos hm

theorem prbsCtlWrite_run (hm : m = 0) (hi : ¬(wbit v 30 && c.bit (TST_PRBSl_CTL n) 31) = true) (hr : wbit v 31 = true) :
    prbsCtlWrite c m n v =
      if c.prbsRefused n (wfld v 3 0) then (c.setBit TST_FLAGS 0 true).done else (c.prbsStart n v).done :=
  (if_neg (not_not_intro hm)).trans ((if_neg hi).trans (if_pos hr))

theorem prbsCtlWrite_inject (hm : m = 0) (hi : wbit v 30 = true) (hr : c.bit (TST_PRBSl_CTL n) 31 = true) :
    prbsCtlWrite c m n v = (c.setPrbs n { c.prbs n with inject := true }).done :=
  (if_neg (not_not_intro hm)).trans (if_pos (Bool.and_eq_true_iff.2 ⟨hi, hr⟩))

theorem prbsCtlWrite_stop (hm : m = 0) (hr : c.bit (TST_PRBSl_CTL n) 31 = false) (h31 : wbit v 31 = false) :
    prbsCtlWrite c m n v = (c.setReg (TST_PRBSl_CTL n) (v &&& 0x330F)).done := by
  refine (if_neg (not_not_intro hm)).trans ((if_neg ?_).trans (if_neg ?_))
  · rw [hr, Bool.and_false]
    exact Bool.false_ne_true
  · rw [h31]
    exact Bool.false_ne_true

/-! ### A bit sent and received -/

/-- The link's generator after a bit. -/
def Chip.prbsSent (c : Chip) (n : Nat) : Prbs :=
  { c.prbs n with
    gen := prbsShift (prbsTaps (c.fld (TST_PRBSl_CTL n) 3 0)) (c.prbs n).gen
      (prbsNext (prbsTaps (c.fld (TST_PRBSl_CTL n) 3 0)) (c.prbs n).gen)
    inject := false }

/-- The bit that the checker takes: the generator's own with the internal loop, the line's without. -/
def Chip.prbsTaken (c : Chip) (n : Nat) (b : Bool) : Bool :=
  if c.fld (TST_PRBSl_CTL n) 9 8 = 1 then
    prbsNext (prbsTaps (c.fld (TST_PRBSl_CTL n) 3 0)) (c.prbs n).gen != (c.prbs n).inject
  else b

/-- One bit of a running link. -/
def Chip.prbsStep (c : Chip) (n : Nat) (b : Bool) : Chip := (c.setPrbs n (c.prbsSent n)).prbsBit n (c.prbsTaken n b)

theorem prbsRun_stopped (h : ¬c.bit (TST_PRBSl_CTL n) 31 = true) : prbsRun c n bs = c := if_neg h

theorem prbsRun_nil : prbsRun c n [] = c := ite_self c

theorem reg_setPrbs (p : Prbs) (a : Nat) : (c.setPrbs n p).reg a = c.reg a := rfl

theorem prbs_setPrbs (p : Prbs) : (c.setPrbs n p).prbs n = p := tblGet_set_same _ _ _ _

/-- The registers of a link's checker. -/
def CheckerReg (n a : Nat) : Prop :=
  a = TST_PRBSl_STAT n ∨ a = TST_PRBSl_BITS_LO n ∨ a = TST_PRBSl_BITS_LO n + 4 ∨ a = TST_PRBSl_ERR n

theorem KeepsReg.setReg64 {x : Nat} (h : a ≠ n) (h4 : a ≠ n + 4) (c : Chip) : KeepsReg a c (c.setReg64 n x) :=
  ((KeepsReg.setReg h c).trans (.setReg h4 _)).trans (.ofRegs rfl)

theorem KeepsReg.setPrbs (p : Prbs) (c : Chip) : KeepsReg a c (c.setPrbs n p) := .ofRegs rfl

theorem prbsLocked_keeps (h : ¬CheckerReg n a) (c : Chip) : KeepsReg a c (c.prbsLocked n b) := by
  unfold CheckerReg at h
  rw [not_or, not_or, not_or] at h
  obtain ⟨hs, hb, hb4, he⟩ := h
  have h64 (x : Nat) : KeepsReg a c (c.setReg64 (TST_PRBSl_BITS_LO n) x) := .setReg64 hb hb4 c
  unfold Chip.prbsLocked
  dsimp only
  have hcount (d : Chip) (q : Prop) [Decidable q] : KeepsReg a d
      (if q then if (d.inc (TST_PRBSl_ERR n)).reg (TST_PRBSl_ERR n) = 0xFFFFFFFF then
        (d.inc (TST_PRBSl_ERR n)).setBit (TST_PRBSl_STAT n) 0 true else d.inc (TST_PRBSl_ERR n) else d) :=
    .ite (.ite ((KeepsReg.inc he d).trans (.setBit hs _)) (.inc he d)) (.refl d)
  refine .ite ?_ ?_
  · exact (((h64 _).trans (hcount _ _)).trans (.setBit hs _)).trans (.setPrbs _ _)
  · exact ((h64 _).trans (hcount _ _)).trans (.setPrbs _ _)

theorem prbsBit_keeps (h : ¬CheckerReg n a) (c : Chip) : KeepsReg a c (c.prbsBit n b) := by
  have hs : a ≠ TST_PRBSl_STAT n := fun g => h (.inl g)
  unfold Chip.prbsBit
  dsimp only
  refine .ite (prbsLocked_keeps h c) (.ite (.setPrbs _ c) (.ite ?_ (.ite ?_ ?_)))
  · exact ((KeepsReg.setPrbs _ c).trans (.setBit hs _)).trans (.setBit hs _)
  · exact ((KeepsReg.setPrbs _ c).trans (.setBit hs _)).trans (.setBit hs _)
  · exact .setPrbs _ c

/-- A bit leaves every register beside the checker's. -/
theorem prbsStep_keeps (h : ¬CheckerReg n a) (c : Chip) : KeepsReg a c (c.prbsStep n b) :=
  (KeepsReg.setPrbs _ c).trans (prbsBit_keeps h _)

/-- A stretch of bits, with or without the internal loop. -/
def Chip.prbsFold (c : Chip) (n : Nat) (inside : Bool) (rx : List Bool) : Chip :=
  rx.foldl (fun c b => (c.prbsSend n).2.prbsBit n (if inside then (c.prbsSend n).1 else b)) c

theorem prbsRun_running (h : c.bit (TST_PRBSl_CTL n) 31 = true) :
    prbsRun c n bs = c.prbsFold n (c.fld (TST_PRBSl_CTL n) 9 8 == 1) bs := if_pos h

theorem prbsFold_cons : c.prbsFold n (c.fld (TST_PRBSl_CTL n) 9 8 == 1) (b :: bs) =
    (c.prbsStep n b).prbsFold n (c.fld (TST_PRBSl_CTL n) 9 8 == 1) bs := by
  have hstep : (c.prbsSend n).2.prbsBit n (if (c.fld (TST_PRBSl_CTL n) 9 8 == 1) = true then (c.prbsSend n).1 else b) =
      c.prbsStep n b := by
    simp only [beq_iff_eq]
    rfl
  exact congrArg (fun d : Chip => d.prbsFold n (c.fld (TST_PRBSl_CTL n) 9 8 == 1) bs) hstep

theorem ctl_not_checker : ¬CheckerReg n (TST_PRBSl_CTL n) := by
  unfold CheckerReg TST_PRBSl_CTL TST_PRBSl_STAT TST_PRBSl_BITS_LO TST_PRBSl_ERR
  omega

/-- The bits of a running link are taken one after the other. -/
theorem prbsRun_cons (h : c.bit (TST_PRBSl_CTL n) 31 = true) : prbsRun c n (b :: bs) = prbsRun (c.prbsStep n b) n bs := by
  have hk : (c.prbsStep n b).reg (TST_PRBSl_CTL n) = c.reg (TST_PRBSl_CTL n) := prbsStep_keeps ctl_not_checker c
  have hrun : (c.prbsStep n b).bit (TST_PRBSl_CTL n) 31 = true := (congrArg (wbit · 31) hk).trans h
  have hloop : (c.prbsStep n b).fld (TST_PRBSl_CTL n) 9 8 = c.fld (TST_PRBSl_CTL n) 9 8 := congrArg (wfld · 9 8) hk
  rw [prbsRun_running h, prbsRun_running hrun, hloop, prbsFold_cons]

theorem prbsRun_one (h : c.bit (TST_PRBSl_CTL n) 31 = true) : prbsRun c n [b] = c.prbsStep n b :=
  (prbsRun_cons h).trans prbsRun_nil

/-- A bit leaves the device as it runs. -/
theorem prbsStep_runs (hn : n < 14) (h : c.runs = true) : (c.prbsStep n b).runs = true := by
  have hk : (c.prbsStep n b).reg SYS_STATE = c.reg SYS_STATE := prbsStep_keeps (by
    unfold CheckerReg SYS_STATE TST_PRBSl_STAT TST_PRBSl_BITS_LO TST_PRBSl_ERR
    omega) c
  unfold Chip.runs Chip.sysState Chip.fld
  rw [hk]
  exact h

/-! ### A bit at the checker -/

section
variable {x q : Prbs} (hq : c.prbs n = q)
include hq

/-- Not locked, with the register still filling. -/
theorem prbsBit_fills (hs : ¬c.bit (TST_PRBSl_STAT n) 1 = true) (h : q.have_ < (prbsTaps (c.fld (TST_PRBSl_CTL n) 3 0)).1) :
    c.prbsBit n b =
      c.setPrbs n { q with reg := prbsShift (prbsTaps (c.fld (TST_PRBSl_CTL n) 3 0)) q.reg b, have_ := q.have_ + 1 } := by
  subst hq
  exact (if_neg hs).trans (if_pos h)

/-- Not locked, with the register full: the bit is right or wrong. -/
theorem prbsBit_checks (hs : ¬c.bit (TST_PRBSl_STAT n) 1 = true) (h : ¬q.have_ < (prbsTaps (c.fld (TST_PRBSl_CTL n) 3 0)).1)
    {right : Bool} (hr : (b == prbsNext (prbsTaps (c.fld (TST_PRBSl_CTL n) 3 0)) q.reg) = right) {good bad : Nat}
    (hg : (if right = true then q.good + 1 else 0) = good) (hb : (if right = true then 0 else q.bad + 1) = bad)
    (hd : c.setPrbs n { q with
      reg := prbsShift (prbsTaps (c.fld (TST_PRBSl_CTL n) 3 0)) q.reg b, good := good, bad := bad, bits := 0, errs := 0 } = d) :
    c.prbsBit n b =
      if good = 64 then (d.setBit (TST_PRBSl_STAT n) 1 true).setBit (TST_PRBSl_STAT n) 2 false
      else if bad = 64 then (d.setBit (TST_PRBSl_STAT n) 1 true).setBit (TST_PRBSl_STAT n) 2 true
      else d := by
  subst hq hr hg hb hd
  exact (if_neg hs).trans (if_neg h)

end

theorem prbsBit_locked (hs : c.bit (TST_PRBSl_STAT n) 1 = true) : c.prbsBit n b = c.prbsLocked n b := if_pos hs

/-- An error counted at a locked checker, which shows when the count is full. -/
def Chip.prbsCounted (c : Chip) (n : Nat) (wrong : Bool) : Chip :=
  if wrong then
    if (c.inc (TST_PRBSl_ERR n)).reg (TST_PRBSl_ERR n) = 0xFFFFFFFF then
      (c.inc (TST_PRBSl_ERR n)).setBit (TST_PRBSl_STAT n) 0 true
    else c.inc (TST_PRBSl_ERR n)
  else c

theorem prbsCounted_right : c.prbsCounted n false = c := if_neg Bool.false_ne_true

theorem prbsCounted_wrong (h : (c.reg (TST_PRBSl_ERR n)).toNat < 0xFFFFFFFE) :
    c.prbsCounted n true = c.inc (TST_PRBSl_ERR n) := by
  refine (if_pos rfl).trans (if_neg fun g => ?_)
  have hreg : (c.inc (TST_PRBSl_ERR n)).reg (TST_PRBSl_ERR n) =
      w32 (satTo 0xFFFFFFFF ((c.reg (TST_PRBSl_ERR n)).toNat + 1)) := Chip.reg_setReg_same _ _ _
  generalize (c.reg (TST_PRBSl_ERR n)).toNat = k at h hreg
  have hsat : satTo 0xFFFFFFFF (k + 1) = k + 1 := Nat.min_eq_right (by omega)
  have hval := congrArg BitVec.toNat (hreg.symm.trans g)
  rw [hsat] at hval
  unfold w32 at hval
  rw [BitVec.toNat_ofNat, Nat.mod_eq_of_lt (by omega)] at hval
  have hk : k + 1 = 4294967295 := hval
  omega

section
variable {q : Prbs} {want wrong : Bool} (hq : c.prbs n = q)
  (hwant : (prbsNext (prbsTaps (c.fld (TST_PRBSl_CTL n) 3 0)) q.reg != c.bit (TST_PRBSl_STAT n) 2) = want)
  (hwrong : (b != want) = wrong)
  (hd : (c.setReg64 (TST_PRBSl_BITS_LO n) (c.reg64 (TST_PRBSl_BITS_LO n) + 1)).prbsCounted n wrong = d)
include hq hwant hwrong hd

/-- The 257th error of a stretch of 1024 bits unlocks the checker. -/
theorem prbsLocked_unlocks (h : 256 < q.errs + b2n wrong) : c.prbsLocked n b =
    (d.setBit (TST_PRBSl_STAT n) 1 false).setPrbs n { q with have_ := 0, good := 0, bad := 0, bits := 0, errs := 0 } := by
  subst hq hwant hwrong hd
  exact if_pos h

theorem prbsLocked_stays (h : q.errs + b2n wrong ≤ 256) : c.prbsLocked n b = d.setPrbs n { q with
    reg := prbsShift (prbsTaps (c.fld (TST_PRBSl_CTL n) 3 0)) q.reg want
    bits := if q.bits = 1023 then 0 else q.bits + 1
    errs := if q.bits = 1023 then 0 else q.errs + b2n wrong } := by
  have hfull {i j : Nat} : (if (q.bits + 1 == 1024) = true then i else j) = if q.bits = 1023 then i else j := by
    refine ite_congr (propext ?_) (fun _ => rfl) fun _ => rfl
    rw [beq_iff_eq]
    omega
  rw [← hfull, ← hfull]
  subst hq hwant hwrong hd
  exact if_neg (Nat.not_lt.2 h)

end

/-! ### The TAP -/

theorem tapCode_eq : c.tapCode code = if (code = 0x07 ∨ code = 0x10) ∧ c.sec.fuses.lockDbg = true then 0xFF
    else if code ∈ [0x00, 0x01, 0x02, 0x03, 0x04, 0x05, 0x06, 0x07, 0x10] then code else 0xFF := by
  unfold Chip.tapCode
  simp only [List.contains_eq_mem, decide_eq_true_iff]

theorem extestFamily_iff {x : Nat} : extestFamily x = true ↔ x ∈ [0x00, 0x03, 0x04, 0x05, 0x06] := by
  unfold extestFamily
  rw [List.contains_eq_mem, decide_eq_true_iff]

/-- What an instruction loads into the data register. -/
def Chip.tapData (c : Chip) (ir : Nat) : Nat :=
  match ir with
  | 0x02 => 0x11648A3F
  | 0x07 => (c.reg SYS_BOOT).toNat
  | _ => c.tst.dr

theorem tapData_eq (ir : Nat) :
    c.tapData ir = if ir = 0x02 then 0x11648A3F else if ir = 0x07 then (c.reg SYS_BOOT).toNat else c.tst.dr := by
  unfold Chip.tapData
  split
  next => exact (if_pos rfl).symm
  next => exact ((if_neg (by decide)).trans (if_pos rfl)).symm
  next h2 h7 => exact ((if_neg h2).trans (if_neg h7)).symm

/-- An instruction taken, with the data register that it loads. -/
def Chip.tapTook (c : Chip) (ir : Nat) : Chip := { c with tst := { c.tst with ir := ir, dr := c.tapData ir } }

theorem tapInstruction_eq : tapInstruction c code =
    if extestFamily (c.tapCode code) && !extestFamily c.tst.ir && c.sysState != 0 then
      goReset (c.tapTook (c.tapCode code)) causePin
    else c.tapTook (c.tapCode code) := by
  unfold tapInstruction Chip.tapTook Chip.tapData
  rfl

theorem tapInstruction_takes (h : ¬extestFamily (c.tapCode code) = true ∨ extestFamily c.tst.ir = true) :
    tapInstruction c code = c.tapTook (c.tapCode code) := by
  refine tapInstruction_eq.trans (if_neg fun g => ?_)
  obtain ⟨g1, -⟩ := Bool.and_eq_true_iff.1 g
  obtain ⟨hir, hold⟩ := Bool.and_eq_true_iff.1 g1
  obtain h | h := h
  · exact h hir
  · rw [h] at hold
    exact Bool.false_ne_true hold

theorem tapInstruction_resets (hir : extestFamily (c.tapCode code) = true) (hold : ¬extestFamily c.tst.ir = true)
    (hs : c.supplied = true) : tapInstruction c code = goReset (c.tapTook (c.tapCode code)) causePin := by
  refine tapInstruction_eq.trans (if_pos ?_)
  have h0 : c.sysState ≠ 0 := Nat.ne_of_gt (of_decide_eq_true hs)
  rw [hir, Bool.eq_false_iff.2 hold, bne_iff_ne.2 h0]
  rfl

theorem OnlyRegs.tst (h : OnlyRegs c d) : d.tst = c.tst := by
  obtain ⟨r, x, u, rfl⟩ := h
  rfl

/-- A reset leaves the TAP's instruction. -/
theorem goReset_ir {cause : Nat} : (goReset c cause).tst.ir = c.tst.ir := by
  have hr : (goReset c cause).tst = (deviceReset c.evrCut cause).tst := reset_onlyRegs.tst
  have hd : (deviceReset c.evrCut cause).tst.ir = c.evrCut.tst.ir := rfl
  rw [hr, hd, (evrCut_onlyMram c).parts.tst]

/-! ### Debug accesses -/

theorem debugAccess_closed (h : ¬(c.tst.ir = 0x10 ∧ c.tst.frozen = none ∧ c.sec.fuses.lockDbg = false)) :
    debugAccess c req = c := if_neg h

theorem debugAccess_opens (h : c.tst.ir = 0x10 ∧ c.tst.frozen = none ∧ c.sec.fuses.lockDbg = false)
    (hd : c.setBit TST_STAT 1 true = d) : debugAccess c req = debugRun d req := by
  subst hd
  exact if_pos h

theorem debugDone_mod {x : Nat} {q : Bool} : c.debugDone req q (x % 2 ^ 32) = c.debugDone req q x := by
  unfold Chip.debugDone
  rw [Nat.mod_mod]

/-- A debug access held. -/
def Chip.debugHeld (c : Chip) (req : Nat) : Chip := { c with tst := { c.tst with frozen := some req } }

theorem debugRun_none (hw : nbit req 65 = false) (hr : nbit req 64 = false) : debugRun c req = c.debugDone req false req := by
  refine (if_pos ?_).trans debugDone_mod
  rw [hw, hr]
  rfl

theorem debugRun_writeFrozen (hw : nbit req 65 = true) (hs : c.segAllows 15 (nfld req 63 32) 4 2 = false) :
    debugRun c req = (c.debugHeld req).freezeAt 0x12 15 (nfld req 63 32) 4 2 := by
  refine (if_neg (by rw [hw]; exact Bool.false_ne_true)).trans ((if_neg ?_).trans ?_)
  · rw [hw, if_pos rfl, hs]
    exact Bool.false_ne_true
  · rw [hw, if_pos rfl]
    rfl

theorem debugRun_write (hw : nbit req 65 = true) (hs : c.segAllows 15 (nfld req 63 32) 4 2 = true) {r : Option AccErr}
    (h : busWriteOnce c 15 (nfld req 63 32) (leBytes 4 (req % 2 ^ 32)) = (r, d)) :
    debugRun c req = d.debugDone req r.isSome req := by
  refine (if_neg (by rw [hw]; exact Bool.false_ne_true)).trans ((if_pos ?_).trans ((if_pos hw).trans ?_))
  · rw [hw, if_pos rfl, hs]
  · rw [h]
    cases r with
    | none => exact debugDone_mod
    | some r => exact debugDone_mod

section
variable (hw : nbit req 65 = false) (hr : nbit req 64 = true)
include hw hr

theorem debugRun_readFrozen (hs : c.segAllows 15 (nfld req 63 32) 4 1 = false) :
    debugRun c req = (c.debugHeld req).freezeAt 0x12 15 (nfld req 63 32) 4 1 := by
  refine (if_neg (by rw [hw, hr]; exact Bool.false_ne_true)).trans ((if_neg ?_).trans ?_)
  · rw [hw, if_neg Bool.false_ne_true, hs]
    exact Bool.false_ne_true
  · rw [hw, if_neg Bool.false_ne_true]
    rfl

variable (hs : c.segAllows 15 (nfld req 63 32) 4 1 = true)
include hs

theorem debugRun_read {xs : List Byte} (h : busReadOnce (c.debugHeld req) 15 (nfld req 63 32) 4 = (.ok xs, d)) :
    debugRun c req = d.debugDone req false (leNat xs) := by
  unfold Chip.debugHeld at h
  refine (if_neg (by rw [hw, hr]; exact Bool.false_ne_true)).trans ((if_pos ?_).trans ((if_neg ?_).trans ?_))
  · rw [hw, if_neg Bool.false_ne_true, hs]
  · rw [hw]
    exact Bool.false_ne_true
  · rw [h]

theorem debugRun_waits (h : busReadOnce (c.debugHeld req) 15 (nfld req 63 32) 4 = (.error .wait, d)) : debugRun c req = d := by
  unfold Chip.debugHeld at h
  refine (if_neg (by rw [hw, hr]; exact Bool.false_ne_true)).trans ((if_pos ?_).trans ((if_neg ?_).trans ?_))
  · rw [hw, if_neg Bool.false_ne_true, hs]
  · rw [hw]
    exact Bool.false_ne_true
  · rw [h]

end

end Sys2Proof.Machine

end

section
/-!
PROOF. Pins, link tests, the TAP and debug accesses (R502, R504, R519 to R527), settled.
-/
namespace Sys2Proof.Machine

variable {c d e : Chip} {n code : Nat} {v : W32} {b : Bool}

theorem and_or_inject (v : W32) : (v ||| 0x40000000) &&& 0x330F = v &&& 0x330F := by
  have hmask : (0x40000000 : W32) &&& 0x330F = 0#32 := by decide
  rw [BitVec.and_or_distrib_right, hmask, BitVec.or_zero]

theorem errReg_setReg64 (x : Nat) : (c.setReg64 (TST_PRBSl_BITS_LO n) x).reg (TST_PRBSl_ERR n) = c.reg (TST_PRBSl_ERR n) :=
  KeepsReg.setReg64 (by unfold TST_PRBSl_BITS_LO TST_PRBSl_ERR; omega) (by unfold TST_PRBSl_BITS_LO TST_PRBSl_ERR; omega) c

theorem errReg_small {w : W32} (h1 : w ≠ 0xFFFFFFFE) (h2 : w ≠ 0xFFFFFFFF) : w.toNat < 0xFFFFFFFE := by
  bv_omega

theorem beq_bne_bne : ∀ x y : Bool, ((x == y) != (x != y)) = true := by decide

/-- A run that starts: the control word, the checker's registers cleared, the generator all ones. -/
theorem prbsStart_eq {len : Nat → Nat} (hlen : ∀ x, len x = (prbsTaps x).1) : c.prbsStart n (v ||| 0x80000000) =
    (((((c.setReg (TST_PRBSl_CTL n) ((v ||| 0x80000000) &&& 0x8000330F)).setReg (TST_PRBSl_STAT n) 0).setReg64
      (TST_PRBSl_BITS_LO n) 0).setReg (TST_PRBSl_ERR n) 0)).setPrbs n { Prbs.reset with gen := 2 ^ len (wfld v 3 0) - 1 } := by
  rw [hlen, ← wfld_or_top v (hi := 3) (lo := 0) (by decide)]
  rfl

/-- A running link takes one bit. -/
theorem does_prbsOne {l : Fin 14} (hr : c.bit (TST_PRBSl_CTL l.val) 31 = true) (h : c.prbsStep l.val b = d) :
    Does (.prbsLock l [b]) c d ∧ Does (.prbsLockLoss l [b]) c d :=
  ⟨does_prbsLock ((prbsRun_one hr).trans h), does_prbsLockLoss ((prbsRun_one hr).trans h)⟩

/-- Instructions that hold the device in RESET reset it as RESET_N does. -/
theorem tapReset_effect (ir : Nat) : (goReset (c.tapTook ir) causePin).sysState = 1 ∧
    (goReset (c.tapTook ir) causePin).pwr.cause = 2 ∧ (goReset (c.tapTook ir) causePin).tst.ir = ir := by
  obtain ⟨hs, hcause, -⟩ := goReset_leaves (c := c.tapTook ir) (keepsRow_monitors (.inl rfl)) monitorReg_state
  exact ⟨hs, hcause, goReset_ir⟩

end Sys2Proof.Machine

namespace Sys2Proof
open Machine

/-- Settles O59: pins by the plain write of their row, a FUNC that is refused whole and PULL 0b11 kept as 0b01 (log entry
181); PRBS runs bit by bit, RUN on a running link and INJECT on a stopped one as log entry 55 has them; the TAP's instruction
and the debug access branch by branch. Those entries are the model's choices. -/
theorem pinsLinkTestsAndTheTap : Obligations.PinsLinkTestsAndTheTap := by
  unfold Obligations.PinsLinkTestsAndTheTap
  intro m g k l code v b bs req c parallel func bad pin pinReg out n ctl stat p put refused len start running taps sent q base r
    locked one right seen dr ir took scans opens busy a does
  have hlen : ∀ x, len x = (prbsTaps x).1 := by
    intro x
    match x with
    | 0 | 1 | 2 | 3 => rfl
    | _ + 4 => rfl
  have hq : base.prbs n = q := prbs_setPrbs q
  have hone (d : Chip) (hr : running) (h : base.prbsBit n r = d) : one d := does_prbsOne hr h
  have hir : c.tapCode code.val = ir := tapCode_eq
  have htook : c.tapTook ir = took := by
    unfold Chip.tapTook
    rw [tapData_eq]
  have hdebug {d : Chip} (ho : opens) (h : debugRun busy req = d) : does d :=
    does_debugAccess ((debugAccess_opens ho rfl).trans h)
  refine ⟨fun h => ?_, fun hm h => ?_, does_gpioSetWrite (regWrite_SYS_GPIO_SET k), does_gpioClrWrite (regWrite_SYS_GPIO_CLR k),
    fun hm => ?_, fun hm hi => ?_, fun hm hr => ?_, fun hm hr h31 => ?_, fun hr => ?_, ?_, fun d e hr hd he => ?_,
    fun hr hl hp => ?_, fun hr hl hp hb => ?_, fun hr hl hp hb => ?_, fun hr hl hp h1 h2 hb => ?_, fun hr hl hp => ?_, ?_,
    fun h => ?_, fun hi hn hs => ?_, fun h => ?_, fun ho hw hr => ?_, fun ho hw => ?_, fun ho hw hr => ?_⟩
  · exact does_pinFunctionWrite ((regWrite_SYS_PIN g).trans (pinWrite_refused h))
  · exact does_pinFunctionWrite ((regWrite_SYS_PIN g).trans (pinWrite_taken g hm h rfl))
  · exact ⟨does_prbsRunStart ((regWrite_TST_PRBSl_CTL l).trans (prbsCtlWrite_refused hm)),
      does_prbsInject ((regWrite_TST_PRBSl_CTL l).trans (prbsCtlWrite_refused hm))⟩
  · have hrun := prbsCtlWrite_run (c := c) (n := l.val) (v := v ||| 0x80000000) hm (fun g => by
      obtain ⟨g30, grun⟩ := Bool.and_eq_true_iff.1 g
      rw [wbit_or_of_not_right rfl] at g30
      exact hi.elim (fun h => Bool.false_ne_true (h.symm.trans g30)) fun h => h grun) (wbit_or_of_right rfl)
    rw [wfld_or_top v (by decide)] at hrun
    refine ⟨fun hb => does_prbsRunStart ((regWrite_TST_PRBSl_CTL l).trans (hrun.trans (if_pos (prbsRefused_iff.2 hb)))), fun hb => ?_⟩
    exact does_prbsRunStart ((regWrite_TST_PRBSl_CTL l).trans (hrun.trans ((if_neg fun g => hb (prbsRefused_iff.1 g)).trans
      (congrArg Chip.done (prbsStart_eq hlen)))))
  · exact does_prbsInject ((regWrite_TST_PRBSl_CTL l).trans (prbsCtlWrite_inject hm (wbit_or_of_right rfl) hr))
  · have hstop := prbsCtlWrite_stop (c := c) (n := l.val) (v := v ||| 0x40000000) hm (Bool.eq_false_iff.2 hr)
      ((wbit_or_of_not_right rfl).trans h31)
    rw [and_or_inject] at hstop
    exact does_prbsInject ((regWrite_TST_PRBSl_CTL l).trans hstop)
  · exact ⟨does_prbsLock (prbsRun_stopped hr), does_prbsLockLoss (prbsRun_stopped hr)⟩
  · exact ⟨does_prbsLock prbsRun_nil, does_prbsLockLoss prbsRun_nil⟩
  · have hall (hc : c.runs = true) : prbsRun c l.val (b :: bs) = e := by
      obtain rfl : c.prbsStep l.val b = d := Does.unique hc (does_prbsOne hr rfl).1 hd
      have hrest : prbsRun (c.prbsStep l.val b) l.val bs = e := Does.unique (prbsStep_runs l.isLt hc) (does_prbsLock rfl) he
      exact (prbsRun_cons hr).trans hrest
    exact ⟨fun hc => does_prbsLock (hall hc) hc, fun hc => does_prbsLockLoss (hall hc) hc⟩
  · exact hone _ hr (prbsBit_fills hq hl hp)
  · have hbit := prbsBit_checks (c := base) (b := r) hq hl (Nat.not_lt.2 hp) (beq_iff_eq.2 hb) (if_pos rfl) (if_pos rfl) rfl
    exact ⟨fun h64 => hone _ hr (hbit.trans ((if_neg h64).trans (if_neg (by decide)))),
      fun h64 => hone _ hr (hbit.trans (if_pos h64))⟩
  · have hbit := prbsBit_checks (c := base) (b := r) hq hl (Nat.not_lt.2 hp) (beq_eq_false_iff_ne.2 hb)
      (if_neg Bool.false_ne_true) (if_neg Bool.false_ne_true) rfl
    exact ⟨fun h64 => hone _ hr (hbit.trans ((if_neg (by decide)).trans (if_neg h64))),
      fun h64 => hone _ hr (hbit.trans ((if_neg (by decide)).trans (if_pos h64)))⟩
  · have hwrong : (r != (right != c.bit stat 2)) = true := by
      rw [hb]
      exact beq_bne_bne right (c.bit stat 2)
    have hbase : base.reg (TST_PRBSl_ERR n) = c.reg (TST_PRBSl_ERR n) := reg_setPrbs q _
    have herr : ((base.setReg64 (TST_PRBSl_BITS_LO n) (c.reg64 (TST_PRBSl_BITS_LO n) + 1)).reg (TST_PRBSl_ERR n)).toNat <
        0xFFFFFFFE := by
      rw [errReg_setReg64, hbase]
      exact errReg_small h1 h2
    exact hone _ hr ((prbsBit_locked (c := base) hl).trans (prbsLocked_unlocks (c := base) hq rfl hwrong (prbsCounted_wrong herr) (by
      have hp' : q.errs = 256 := hp
      rw [hp']
      decide)))
  · have hbase : base.reg (TST_PRBSl_ERR n) = c.reg (TST_PRBSl_ERR n) := reg_setPrbs q _
    refine ⟨fun hw => ?_, fun hw hs => ?_⟩
    · have hright : (r != (right != c.bit stat 2)) = false := bne_eq_false_iff_eq.2 hw
      exact hone _ hr ((prbsBit_locked (c := base) hl).trans (prbsLocked_stays (c := base) hq rfl hright prbsCounted_right (Nat.le_succ_of_le hp)))
    · have hwrong : (r != (right != c.bit stat 2)) = true := bne_iff_ne.2 hw
      have herr : ((base.setReg64 (TST_PRBSl_BITS_LO n) (c.reg64 (TST_PRBSl_BITS_LO n) + 1)).reg (TST_PRBSl_ERR n)).toNat <
          0xFFFFFFFE := by
        rw [errReg_setReg64, hbase]
        exact hs
      exact hone _ hr ((prbsBit_locked (c := base) hl).trans (prbsLocked_stays (c := base) hq rfl hwrong (prbsCounted_wrong herr) (Nat.succ_le_succ hp)))
  · have hcode : c.tapCode 0x02 = 0x02 := by
      rw [tapCode_eq, if_neg fun g => absurd g.1 (by decide)]
      rfl
    have ht := tapInstruction_takes (c := c) (code := 0x02) (.inl (by rw [hcode]; decide))
    rw [hcode] at ht
    exact does_tapReset ht
  · have hno : ¬extestFamily (c.tapCode code.val) = true ∨ extestFamily c.tst.ir = true := by
      rw [hir, extestFamily_iff, extestFamily_iff]
      exact h
    have ht := tapInstruction_takes hno
    rw [hir, htook] at ht
    exact does_tapInstructionUpdate ht
  · have ht := tapInstruction_resets (c := c) (code := code.val) (extestFamily_iff.2 (hir ▸ hi)) (fun g => hn (extestFamily_iff.1 g)) hs
    rw [hir] at ht
    exact (does_tapInstructionUpdate ht).gives (tapReset_effect ir) hs
  · exact does_debugAccess (debugAccess_closed h)
  · exact hdebug ho (debugRun_none hw hr)
  · refine ⟨fun hs => hdebug ho (debugRun_writeFrozen hw hs), fun hs e d h => ⟨fun he => ?_, fun he => ?_⟩⟩
    · subst he
      have hd := debugRun_write hw hs h
      rw [Option.isSome_none] at hd
      exact hdebug ho hd
    · have hd := debugRun_write hw hs h
      rw [Option.isSome_iff_ne_none.2 he] at hd
      exact hdebug ho hd
  · exact ⟨fun hs => hdebug ho (debugRun_readFrozen hw hr hs), fun hs d =>
      ⟨fun xs h => hdebug ho (debugRun_read hw hr hs h), fun h => hdebug ho (debugRun_waits hw hr hs h)⟩⟩

end Sys2Proof

end
